-- ==== Sys2Proof/Word.lean ====
section
/-!
DEFINITION. The word types of the model: bytes, 32-bit register words, 64-bit words. Values that the spec numbers bit by
bit are bit vectors; counts, indices and addresses are natural numbers (memory cells are keyed by `Nat`).
-/

namespace Sys2Proof

/-- A byte of a memory, a buffer or a transfer. -/
abbrev Byte := BitVec 8
/-- A 32-bit register word (R4), a lane value of a v or s register (R93). -/
abbrev Word := BitVec 32
/-- A 64-bit word: a BPC code word (R90), a fence value. -/
abbrev Dword := BitVec 64

end Sys2Proof
end

