-- ==== Sys2Proof/Syntax.lean ====
section
/-!
DEFINITION. The commands of the block, one constructor per row of spec/opcode_table.json, with the row's operands. The
table gives its rows no bits and no fields: the operands here say what the spec's text says the command is given by
(which register and value, which queue, which vat and quire slot, what a pin or a link delivers). See log entry 1.
-/

namespace Sys2Proof

/-- Who may claim a resource or request a power state (R45, R449): the management controller or the PF driver. -/
inductive Requester | mgc | pf
deriving DecidableEq, Repr

/-- A command at the front of the headbox: the oldest waiting command of a queue that is ready to be handed off, or a
ready node of a running graph launch (R243, R259). -/
inductive CmdRef
  | queue (p : Fin 32) (q : Fin 16)
  | node (run : Nat) (index : Nat)
deriving DecidableEq, Repr

/-- How a completion for a host-memory request reports (R229). -/
inductive HostCpl | ok | ur | ca | poisoned
deriving DecidableEq, Repr

/-- A unit that acknowledges a stop request (R285, R315): a vat with its beater, an engine, or a member chip. -/
inductive EngineUnit
  | vat (n : Fin 64) | geo | plp (e : Fin 4) | bal | copy | member (pos : Fin 16)
deriving DecidableEq, Repr

/-- A translation cache that acknowledges an invalidation (R349 step 2). -/
inductive XltCache
  | vat (n : Fin 64) | beater (n : Fin 64) | headbox | geo | plp (e : Fin 4) | bal | copy | sched | cal
  | shared | walk | prefetch | member (pos : Fin 16)
deriving DecidableEq, Repr

/-- A requester port of the L2 (R356); `unit` stands for the requesters R356 gives no detector. -/
inductive L2Port
  | vat (n : Fin 64) | geo | plp (e : Fin 4) | bal | copy | cal | feltE | feltW | pcie | unit
deriving DecidableEq, Repr

/-- The CACHE policies of a page (R330, R333, R355). -/
inductive CachePolicy | wb | stream | uc
deriving DecidableEq, Repr

/-- A request at an L2 slice (R355): read `n` bytes, write bytes, or an atomic (BPC opcode 0xA0 to 0xAA, signed,
64-bit, operands B and C). -/
inductive L2Op
  | read (n : Nat)
  | write (bytes : List Byte)
  | atomic (opcode : Byte) (signed : Bool) (wide : Bool) (b : Dword) (c : Dword)
deriving DecidableEq, Repr

/-- A parity error met by an L2 access (R361): in a clean sector, or in a dirty sector, a tag or a line state. -/
inductive ParityKind | clean | dirty
deriving DecidableEq, Repr

/-- The strap levels that are latched (R505): RING_POS, FELT_MASTER and SVC_MODE. -/
structure Straps where
  pos : Fin 16
  master : Bool
  svcMode : Bool
deriving DecidableEq, Repr

/-- The two pins that start a warm reset (R506). -/
inductive ResetPin | resetN | perstN
deriving DecidableEq, Repr

/-- The commands of the block. -/
inductive Instr
  /-- REGISTER_WRITE (R8): A write to a register field that has no behaviour of its own sets RW or RWL fields, sets W1S bits, clears W1C bits, or is ignored. -/
  | registerWrite (fn : Fin 33) (off : BitVec 26) (be : BitVec 4) (data : Word)
  /-- READ_CLEAR (R8): A read of a register with RC fields returns the value and sets those fields to 0. -/
  | readClear (fn : Fin 33) (off : BitVec 26)
  /-- LATCHED_READ (R290): A read of the lowest word of a multi-word headbox register latches its other words. -/
  | latchedRead (fn : Fin 33) (off : BitVec 26)
  /-- FULL_LOAD (R33): GLB_LOAD_CTRL GO with KIND 0 loads a full furnish from device DRAM while NULL = 1. -/
  | fullLoad
  /-- DELTA_LOAD (R38): GLB_LOAD_CTRL GO with KIND 1 at the ring master checks a delta and starts its two-phase application. -/
  | deltaLoad
  /-- DELTA_TIMEOUT (R40): When not every member has answered READY within 4,000,000 master FCLK of GO, the delta fails everywhere with DELTA_MEMBER. -/
  | deltaTimeout
  /-- STOP_PREEMPT (R36): GLB_FUNC_CTRL OP STOP PREEMPT stops a function at engine tile boundaries, with state saved. -/
  | stopPreempt (kind : BitVec 4) (index : BitVec 8)
  /-- STOP_DRAIN (R36): GLB_FUNC_CTRL OP STOP DRAIN stops fetching and lets the commands already taken in run to completion. -/
  | stopDrain (kind : BitVec 4) (index : BitVec 8)
  /-- START (R37): GLB_FUNC_CTRL OP START takes a STOPPED function through STARTING to RUNNING. -/
  | start (kind : BitVec 4) (index : BitVec 8)
  /-- FUNCTION_STOPPED (R36): When the function's last engine acknowledges, STATE becomes STOPPED and a STOPPED record goes out. -/
  | functionStopped (k : Fin 39)
  /-- FUNCTION_STARTED (R37): When a partition or decode engine accepts work again, or a ring start completes, the function leaves STARTING. -/
  | functionStarted (k : Fin 39)
  /-- CLAIM (R45): GLB_CLAIM_CTRL OP claim takes all the resources of a feature, or none. -/
  | claim (who : Requester) (feature : BitVec 8) (resource : BitVec 8)
  /-- RELEASE (R45): GLB_CLAIM_CTRL OP release stops the feature and returns its pins to high-impedance inputs. -/
  | release (who : Requester) (feature : BitVec 8) (resource : BitVec 8)
  /-- BLOCK_DISPATCH (R250): The headbox dispatches the next block of a launch to the lowest vat with room. -/
  | blockDispatch (launch : Nat)
  /-- BLOCK_PATIENCE_EXPIRY (R78): When a block's patience counter reaches its limit, EXEC_BARRIER_STALL is raised. -/
  | blockPatienceExpiry (vat : Fin 64) (block : Fin 64)
  /-- ILLEGAL_INSTRUCTION (R101): An unlisted opcode, form or modifier raises EXEC_ILLEGAL. -/
  | illegalInstruction (vat : Fin 64) (slot : Fin 64)
  /-- CODE_END_OVERRUN (R106): A quire that runs past the last instruction raises EXEC_ILLEGAL with opcode 0x00. -/
  | codeEndOverrun (vat : Fin 64) (slot : Fin 64)
  /-- IADD (R102): Integer add. -/
  | iadd (vat : Fin 64) (slot : Fin 64)
  /-- ISUB (R102): Integer subtract. -/
  | isub (vat : Fin 64) (slot : Fin 64)
  /-- IMUL (R102): Low half of an integer product. -/
  | imul (vat : Fin 64) (slot : Fin 64)
  /-- IMULHI (R102): High half of an integer product. -/
  | imulhi (vat : Fin 64) (slot : Fin 64)
  /-- IMAD (R102): Integer multiply-add. -/
  | imad (vat : Fin 64) (slot : Fin 64)
  /-- IDIV (R102): Integer divide, truncated toward zero. -/
  | idiv (vat : Fin 64) (slot : Fin 64)
  /-- IREM (R102): Integer remainder. -/
  | irem (vat : Fin 64) (slot : Fin 64)
  /-- IMIN (R102): Integer minimum. -/
  | imin (vat : Fin 64) (slot : Fin 64)
  /-- IMAX (R102): Integer maximum. -/
  | imax (vat : Fin 64) (slot : Fin 64)
  /-- IABS (R102): Integer absolute value. -/
  | iabs (vat : Fin 64) (slot : Fin 64)
  /-- INEG (R102): Integer negate. -/
  | ineg (vat : Fin 64) (slot : Fin 64)
  /-- AND (R102): Bitwise AND. -/
  | bpcAnd (vat : Fin 64) (slot : Fin 64)
  /-- OR (R102): Bitwise OR. -/
  | bpcOr (vat : Fin 64) (slot : Fin 64)
  /-- XOR (R102): Bitwise exclusive-or. -/
  | bpcXor (vat : Fin 64) (slot : Fin 64)
  /-- NOT (R102): Bitwise complement. -/
  | bpcNot (vat : Fin 64) (slot : Fin 64)
  /-- SHL (R102): Shift left. -/
  | shl (vat : Fin 64) (slot : Fin 64)
  /-- SHR (R102): Shift right, logical or arithmetic by TYPE. -/
  | shr (vat : Fin 64) (slot : Fin 64)
  /-- FEXT (R102): Bit-field extract. -/
  | fext (vat : Fin 64) (slot : Fin 64)
  /-- FINS (R102): Bit-field insert. -/
  | fins (vat : Fin 64) (slot : Fin 64)
  /-- ONES (R102): Population count. -/
  | ones (vat : Fin 64) (slot : Fin 64)
  /-- CLZ (R102): Count leading zeros. -/
  | clz (vat : Fin 64) (slot : Fin 64)
  /-- RVRS (R102): Reverse bit order. -/
  | rvrs (vat : Fin 64) (slot : Fin 64)
  /-- ISUM (R102): Three-operand integer sum. -/
  | isum (vat : Fin 64) (slot : Fin 64)
  /-- BDOT (R102): Byte dot product with accumulate. -/
  | bdot (vat : Fin 64) (slot : Fin 64)
  /-- FADD (R103): Float add. -/
  | fadd (vat : Fin 64) (slot : Fin 64)
  /-- FSUB (R103): Float subtract. -/
  | fsub (vat : Fin 64) (slot : Fin 64)
  /-- FMUL (R103): Float multiply. -/
  | fmul (vat : Fin 64) (slot : Fin 64)
  /-- FMA (R103): Fused multiply-add, rounded once. -/
  | fma (vat : Fin 64) (slot : Fin 64)
  /-- FMIN (R103): Float minimum. -/
  | fmin (vat : Fin 64) (slot : Fin 64)
  /-- FMAX (R103): Float maximum. -/
  | fmax (vat : Fin 64) (slot : Fin 64)
  /-- FRND (R103): Round to an integral value by ROUND. -/
  | frnd (vat : Fin 64) (slot : Fin 64)
  /-- FDIV (R109): Correctly rounded FP32 divide. -/
  | fdiv (vat : Fin 64) (slot : Fin 64)
  /-- FRCP (R109): Correctly rounded reciprocal. -/
  | frcp (vat : Fin 64) (slot : Fin 64)
  /-- FSQRT (R109): Correctly rounded square root. -/
  | fsqrt (vat : Fin 64) (slot : Fin 64)
  /-- FRSQ (R109): Correctly rounded reciprocal square root. -/
  | frsq (vat : Fin 64) (slot : Fin 64)
  /-- FEXP2 (R109): Correctly rounded base-2 exponential. -/
  | fexp2 (vat : Fin 64) (slot : Fin 64)
  /-- FLOG2 (R109): Correctly rounded base-2 logarithm. -/
  | flog2 (vat : Fin 64) (slot : Fin 64)
  /-- FSIN (R109): Sine of an argument in turns. -/
  | fsin (vat : Fin 64) (slot : Fin 64)
  /-- FCOS (R109): Cosine of an argument in turns. -/
  | fcos (vat : Fin 64) (slot : Fin 64)
  /-- FSCALE (R103): Multiply by a power of two. -/
  | fscale (vat : Fin 64) (slot : Fin 64)
  /-- CVT (R110): Convert between integer and float types. -/
  | cvt (vat : Fin 64) (slot : Fin 64)
  /-- F2F8 (R104): Convert FP32 to FP8. -/
  | f2f8 (vat : Fin 64) (slot : Fin 64)
  /-- F82F (R104): Widen FP8 to FP32. -/
  | f82f (vat : Fin 64) (slot : Fin 64)
  /-- PK2H (R104): Pack two FP32 values into a half pair. -/
  | pk2h (vat : Fin 64) (slot : Fin 64)
  /-- UPK2H (R104): Unpack one half to FP32. -/
  | upk2h (vat : Fin 64) (slot : Fin 64)
  /-- INRW (R104): Saturate to 8 or 16 bits and extend. -/
  | inrw (vat : Fin 64) (slot : Fin 64)
  /-- ICMPP (R104): Integer compare to a predicate. -/
  | icmpp (vat : Fin 64) (slot : Fin 64)
  /-- FCMPP (R104): Float compare to a predicate. -/
  | fcmpp (vat : Fin 64) (slot : Fin 64)
  /-- ICMPM (R104): Integer compare to a mask. -/
  | icmpm (vat : Fin 64) (slot : Fin 64)
  /-- FCMPM (R104): Float compare to a mask. -/
  | fcmpm (vat : Fin 64) (slot : Fin 64)
  /-- SEL (R104): Select by predicate. -/
  | sel (vat : Fin 64) (slot : Fin 64)
  /-- PLOG (R104): Predicate logic by truth table. -/
  | plog (vat : Fin 64) (slot : Fin 64)
  /-- FKIND (R104): Classify a float value. -/
  | fkind (vat : Fin 64) (slot : Fin 64)
  /-- MOV (R104): Move. -/
  | mov (vat : Fin 64) (slot : Fin 64)
  /-- PGET (R104): Read the predicates into a register. -/
  | pget (vat : Fin 64) (slot : Fin 64)
  /-- PSET (R104): Write predicates from a register. -/
  | pset (vat : Fin 64) (slot : Fin 64)
  /-- PANY (R105): Any-lane predicate vote. -/
  | pany (vat : Fin 64) (slot : Fin 64)
  /-- PALL (R105): All-lane predicate vote. -/
  | pall (vat : Fin 64) (slot : Fin 64)
  /-- PMASK (R105): Mask of the lanes whose predicate is true. -/
  | pmask (vat : Fin 64) (slot : Fin 64)
  /-- LGET (R105): Read another lane's value. -/
  | lget (vat : Fin 64) (slot : Fin 64)
  /-- LUP (R105): Lane shuffle up. -/
  | lup (vat : Fin 64) (slot : Fin 64)
  /-- LDOWN (R105): Lane shuffle down. -/
  | ldown (vat : Fin 64) (slot : Fin 64)
  /-- LFLIP (R105): Lane butterfly shuffle. -/
  | lflip (vat : Fin 64) (slot : Fin 64)
  /-- RDUNI (R105): Read the lowest executing lane into an s register. -/
  | rduni (vat : Fin 64) (slot : Fin 64)
  /-- NOP (R105): Instruction that does nothing. -/
  | nop (vat : Fin 64) (slot : Fin 64)
  /-- BRA (R63): Branch, pushing a PENDING entry when the guard diverges. -/
  | bra (vat : Fin 64) (slot : Fin 64)
  /-- JMP (R105): Jump to a word index. -/
  | jmp (vat : Fin 64) (slot : Fin 64)
  /-- CALL (R105): Write the return index and branch. -/
  | call (vat : Fin 64) (slot : Fin 64)
  /-- RET (R105): Return to a word index. -/
  | ret (vat : Fin 64) (slot : Fin 64)
  /-- PUSHM (R63): Push a RECONV entry. -/
  | pushm (vat : Fin 64) (slot : Fin 64)
  /-- POPM (R63): Discard the top mask-stack entry. -/
  | popm (vat : Fin 64) (slot : Fin 64)
  /-- JOIN (R63): Pop and unwind at a reconvergence point. -/
  | join (vat : Fin 64) (slot : Fin 64)
  /-- EXIT (R63): Exit the active lanes and unwind. -/
  | exit (vat : Fin 64) (slot : Fin 64)
  /-- YIELD (R73): Exchange the running path with the nearest PENDING entry. -/
  | yield (vat : Fin 64) (slot : Fin 64)
  /-- DISCARD (R105): Discard fragment samples and exit the lanes. -/
  | discard (vat : Fin 64) (slot : Fin 64)
  /-- SAVEPT (R120): Pre-emption point: the quire stops and saves when a request is visible. -/
  | savept (vat : Fin 64) (slot : Fin 64)
  /-- BWAIT (R66): Arrive at a barrier and park. -/
  | bwait (vat : Fin 64) (slot : Fin 64)
  /-- BPASS (R66): Arrive at a barrier and continue. -/
  | bpass (vat : Fin 64) (slot : Fin 64)
  /-- BRED (R105): Arrive and park, and receive a reduction at release. -/
  | bred (vat : Fin 64) (slot : Fin 64)
  /-- LD (R111): Load from a memory space. -/
  | ld (vat : Fin 64) (slot : Fin 64)
  /-- ST (R111): Store to a memory space. -/
  | st (vat : Fin 64) (slot : Fin 64)
  /-- MORDER (R115): Memory ordering point at a scope. -/
  | morder (vat : Fin 64) (slot : Fin 64)
  /-- PREFETCH (R105): Hint to fetch a global line. -/
  | prefetch (vat : Fin 64) (slot : Fin 64)
  /-- L1INV (R105): Invalidate the vat's clean L1 lines. -/
  | l1inv (vat : Fin 64) (slot : Fin 64)
  /-- ATOM_ADD (R105): Atomic add. -/
  | atomAdd (vat : Fin 64) (slot : Fin 64)
  /-- ATOM_AND (R105): Atomic AND. -/
  | atomAnd (vat : Fin 64) (slot : Fin 64)
  /-- ATOM_OR (R105): Atomic OR. -/
  | atomOr (vat : Fin 64) (slot : Fin 64)
  /-- ATOM_XOR (R105): Atomic exclusive-or. -/
  | atomXor (vat : Fin 64) (slot : Fin 64)
  /-- ATOM_MIN (R105): Atomic minimum. -/
  | atomMin (vat : Fin 64) (slot : Fin 64)
  /-- ATOM_MAX (R105): Atomic maximum. -/
  | atomMax (vat : Fin 64) (slot : Fin 64)
  /-- ATOM_EXCH (R105): Atomic exchange. -/
  | atomExch (vat : Fin 64) (slot : Fin 64)
  /-- ATOM_CAS (R105): Atomic compare and swap. -/
  | atomCas (vat : Fin 64) (slot : Fin 64)
  /-- ATOM_INC (R105): Atomic increment to a ceiling. -/
  | atomInc (vat : Fin 64) (slot : Fin 64)
  /-- ATOM_DEC (R105): Atomic decrement to a floor. -/
  | atomDec (vat : Fin 64) (slot : Fin 64)
  /-- ATOM_FADD (R105): Atomic FP32 add. -/
  | atomFadd (vat : Fin 64) (slot : Fin 64)
  /-- SYN_SIGNAL (R277): Raise a fence to a value. -/
  | synSignal (vat : Fin 64) (slot : Fin 64)
  /-- SYN_ADD (R277): Add to a counter and return the old value. -/
  | synAdd (vat : Fin 64) (slot : Fin 64)
  /-- SYN_WAIT (R284): Wait until a fence meets a threshold. -/
  | synWait (vat : Fin 64) (slot : Fin 64)
  /-- SYN_READ (R277): Read a sync object's value. -/
  | synRead (vat : Fin 64) (slot : Fin 64)
  /-- LOCK_ACQ (R70): Acquire a lock, writing a per-lane result. -/
  | lockAcq (vat : Fin 64) (slot : Fin 64)
  /-- LOCK_REL (R278): Release a lock, which is granted to the next waiting lane. -/
  | lockRel (vat : Fin 64) (slot : Fin 64)
  /-- SYN_ARRIVE (R279): Arrive at a barrier object and wait for its phase. -/
  | synArrive (vat : Fin 64) (slot : Fin 64)
  /-- SYN_EVENT (R282): Post an event record carrying a cookie. -/
  | synEvent (vat : Fin 64) (slot : Fin 64)
  /-- TLD (R155): Stage a tensor tile into a handle. -/
  | tld (vat : Fin 64) (slot : Fin 64)
  /-- TMMA (R158): Multiply staged tiles into an accumulator set. -/
  | tmma (vat : Fin 64) (slot : Fin 64)
  /-- TST (R160): Store an accumulator set through the store path. -/
  | tst (vat : Fin 64) (slot : Fin 64)
  /-- TCVT (R164): Convert a staged tile into a handle. -/
  | tcvt (vat : Fin 64) (slot : Fin 64)
  /-- HALLOC (R119): Allocate a heap block. -/
  | halloc (vat : Fin 64) (slot : Fin 64)
  /-- HFREE (R275): Return a heap block. -/
  | hfree (vat : Fin 64) (slot : Fin 64)
  /-- TRAP (R105): Raise EXEC_TRAP. -/
  | trap (vat : Fin 64) (slot : Fin 64)
  /-- TRET (R123): Leave the trap handler and resume. -/
  | tret (vat : Fin 64) (slot : Fin 64)
  /-- TRETIRE (R123): Leave the trap handler and retire the block. -/
  | tretire (vat : Fin 64) (slot : Fin 64)
  /-- TESC (R123): Leave the trap handler and report the fault. -/
  | tesc (vat : Fin 64) (slot : Fin 64)
  /-- ACC_SET_GRANT (R149): A queued accumulator-set acquisition is granted when enough sets become free. -/
  | accSetGrant (vat : Fin 64)
  /-- TMMA_PASS_START (R159): A TMMA pass starts once its K slices are staged and the previous pass has completed. -/
  | tmmaPassStart (vat : Fin 64)
  /-- TLD_DATA_ARRIVAL (R155): Source data of a TLD returns, is converted and staged in the buffer. -/
  | tldDataArrival (vat : Fin 64)
  /-- TST_SET_READ (R160): A TST reads its set once every earlier pass into it has completed, and writes its results and histogram record. -/
  | tstSetRead (vat : Fin 64)
  /-- BIN_BEGIN (R174): Command that opens a render pass from its descriptor. -/
  | binBegin (cmd : CmdRef)
  /-- DRAW (R178): Command that runs vertex shading, assembly, clipping and binning for one draw. -/
  | draw (cmd : CmdRef)
  /-- BIN_END (R190): Command that ends binning and starts tile rendering. -/
  | binEnd (cmd : CmdRef)
  /-- BROKE_PASS_SPILLED (R196): When the last spill write reaches L2, the pool is emptied and the held primitive is binned again. -/
  | brokePassSpilled (p : Fin 32)
  /-- GRANT (R197): GEO_GROW_CTRL OP GRANT adds the offered chunk to the pool and resumes binning. -/
  | grant (fn : Fin 33) (p : Fin 32) (size : BitVec 6)
  /-- DENY (R197): GEO_GROW_CTRL OP DENY ends the grow request with a broke pass. -/
  | deny (fn : Fin 33) (p : Fin 32)
  /-- GROW_PATIENCE_EXPIRY (R197): When the grow patience counter reaches GROW, a broke pass runs. -/
  | growPatienceExpiry (p : Fin 32)
  /-- TILE_DISPATCH (R190): After BIN_END a tile is dispatched to the lowest eligible vat with tile memory free and loaded. -/
  | tileDispatch (p : Fin 32)
  /-- COUCH_COMPLETE (R191): When a tile's writes reach L2 its couch is complete; after the last couch and the gate the pass completes. -/
  | couchComplete (p : Fin 32) (tile : Nat)
  /-- PLANE_ARM (R211): Setting CAL_PLANE_CTRL.ARM checks the plane and arms its shadow for latching. -/
  | planeArm (fn : Fin 33) (head : Fin 2) (plane : Fin 4) (data : Word)
  /-- VBLANK_START (R211): At vertical blank start armed planes latch, and plane 0 latches only when its wall fence is reached, otherwise it holds. -/
  | vblankStart (head : Fin 2)
  /-- LEAD_REACHED (R215): When CAL_LEAD cycles remain before vertical blank with the fence unreached, a deadline request is raised. -/
  | leadReached (head : Fin 2)
  /-- HEAD_TRAINING_DONE (R209): Link training of a head ends, and the head goes to RUNNING or back to STOPPED with FAIL. -/
  | headTrainingDone (head : Fin 2) (link : Option (Fin 4 × Fin 3))
  /-- HPD_UNPLUG (R209): An unplug returns a running head to STOPPED and posts an HPD record. -/
  | hpdUnplug (head : Fin 2)
  /-- HPD_PLUG (R209): A plug sets HPD and posts an HPD record. -/
  | hpdPlug (head : Fin 2)
  /-- IRQ_HPD (R209): An IRQ_HPD pulse posts an HPD record. -/
  | irqHpd (head : Fin 2)
  /-- SCANOUT_LINE_FAIL (R340): A scan-out line with an unmapped page or an uncorrectable read shows black for the rest of the frame and sets ERR. -/
  | scanoutLineFail (head : Fin 2) (plane : Fin 4)
  /-- DOORBELL_WRITE (R219): A write to a queue doorbell sets the queue's write index. -/
  | doorbellWrite (fn : Fin 33) (p : Fin 32) (q : Fin 16) (bytes : Nat) (value : Word)
  /-- INVALIDATE_DOORBELL (R348): A write to the translation invalidate doorbell starts or latches an invalidation. -/
  | invalidateDoorbell (fn : Fin 33) (p : Fin 32) (bytes : Nat) (value : Word)
  /-- BAR4_READ (R225): A read through the memory window is served from local DRAM through L2. -/
  | bar4Read (off : BitVec 36) (len : Nat)
  /-- BAR4_WRITE (R225): A write through the memory window goes to local DRAM through L2, or is discarded. -/
  | bar4Write (off : BitVec 36) (bytes : List Byte)
  /-- BAR4_RESIZE (R227): Resizing BAR4 changes the window size and leaves GLB_WIN_BASE unchanged. -/
  | bar4Resize (size : Fin 9)
  /-- HOST_COMPLETION (R229): A completion for a host-memory request arrives; an error ends the work as an uncorrectable read does. -/
  | hostCompletion (req : Nat) (status : HostCpl) (bytes : List Byte)
  /-- COMPLETION_TIMEOUT (R229): A host-memory request whose completion times out ends in error. -/
  | completionTimeout (req : Nat)
  /-- D3HOT_ENTRY (R230): A function entering D3hot answers BAR accesses with Unsupported Request and ignores doorbells. -/
  | d3hotEntry (fn : Fin 33)
  /-- D0_RETURN (R300): A function returning to D0 makes event queue slots writable and pending vectors sendable. -/
  | d0Return (fn : Fin 33)
  /-- BUS_MASTER_ENABLE (R298): Bus Master Enable returning to 1 sends pending MSI-X messages and owed OVERFLOW records. -/
  | busMasterEnable (fn : Fin 33)
  /-- VF_FLR (R232): Initiate FLR of VF k resets its configuration space and starts the partition reclaim. -/
  | vfFlr (vf : Fin 32)
  /-- PF_FLR (R234): An FLR of the PF is a device reset that also returns the configuration space to defaults. -/
  | pfFlr
  /-- VF_ENABLE_CLEAR (R233): Clearing VF Enable runs the FLR sequence for every enabled VF at once. -/
  | vfEnableClear
  /-- PACKET_INTAKE (R241): The headbox fetches a whole packet from a queue and checks its structure, or fails intake. -/
  | packetIntake (p : Fin 32) (q : Fin 16)
  /-- NOP_PACKET (R239): Command that does nothing. -/
  | nopPacket (p : Fin 32) (q : Fin 16)
  /-- LAUNCH (R248): Command that hands a launch descriptor to the vats. -/
  | launch (cmd : CmdRef)
  /-- GATED_LAUNCH (R205): Command that scans a gate and dispatches the blocks of selected tiles. -/
  | gatedLaunch (cmd : CmdRef)
  /-- GRAPH_LAUNCH (R259): Command that binds the current graph version and runs its nodes. -/
  | graphLaunch (cmd : CmdRef)
  /-- GRAPH_PATCH_REPLACE (R255): GRAPH_PATCH MODE 0 builds and commits a new version from a node array. -/
  | graphPatchReplace (cmd : CmdRef)
  /-- GRAPH_PATCH_EDIT (R256): GRAPH_PATCH MODE 1 edits a copy of the current version and commits it. -/
  | graphPatchEdit (cmd : CmdRef)
  /-- GRAPH_PATCH_DELETE (R256): GRAPH_PATCH MODE 2 ends the current version. -/
  | graphPatchDelete (cmd : CmdRef)
  /-- PRELOAD (R252): Command that fills empty preload slots and warms code into L2. -/
  | preload (cmd : CmdRef)
  /-- PRELOAD_FILL (R251): The headbox places the next launch of the running partition in a vat's preload slot. -/
  | preloadFill (vat : Fin 64)
  /-- DECODE (R383): Command that decodes at most one picture of a stream slot. -/
  | decode (cmd : CmdRef)
  /-- BALE (R398): Command that compresses input with DEFLATE. -/
  | bale (cmd : CmdRef)
  /-- UNBALE (R401): Command that decompresses DEFLATE input. -/
  | unbale (cmd : CmdRef)
  /-- COPY (R246): Command that copies a range chunk by chunk through L2. -/
  | copy (cmd : CmdRef)
  /-- FILL (R246): Command that writes a 32-bit pattern over a range. -/
  | fill (cmd : CmdRef)
  /-- SIGNAL (R277): Command that raises a fence after all earlier commands complete. -/
  | signalCmd (cmd : CmdRef)
  /-- WAIT (R245): Command that waits on a fence and halts the queue on a non-OK status. -/
  | waitCmd (cmd : CmdRef)
  /-- EVENT (R282): Command that posts an event record with a cookie. -/
  | eventCmd (cmd : CmdRef)
  /-- MARK (R244): Command that writes HB_Q_MARK after all earlier commands complete. -/
  | markCmd (cmd : CmdRef)
  /-- COMMAND_COMPLETE (R247): An engine completes a command with a status; errors are recorded and CMD records posted, and dependent commands and graph nodes become ready. -/
  | commandComplete (id : Nat)
  /-- QUEUE_ENABLE (R236): Setting HB_Q_CTRL.EN zeroes the indices and enables the queue, or records BAD_SIZE. -/
  | queueEnable (fn : Fin 33) (p : Fin 32) (q : Fin 16) (size : BitVec 5)
  /-- QUEUE_DESTROY (R285): Clearing HB_Q_CTRL.EN stops fetching, aborts unhanded commands and sends stop requests. -/
  | queueDestroy (fn : Fin 33) (p : Fin 32) (q : Fin 16)
  /-- RESUME (R245): Writing HB_Q_CTRL.RESUME clears HALTED. -/
  | resume (fn : Fin 33) (p : Fin 32) (q : Fin 16)
  /-- PARSER_WATCHDOG (R260): When the watchdog count reaches 10,000,000 FCLK without a scan round, a device reset is raised. -/
  | parserWatchdog (p : Fin 32) (q : Fin 16)
  /-- PARSER_FAULT (R261): A parity or state-transition check failure in the parser raises a device reset. -/
  | parserFault (check : BitVec 16)
  /-- HOST_REQUEST (R262): GLB_DEVRESET_CTRL.REQUEST raises a device reset with HOST_REQUEST. -/
  | hostRequest
  /-- SYN_CREATE (R267): HB_OBJ_CTRL OP 1 creates a sync object. -/
  | synCreate (fn : Fin 33) (p : Fin 32) (type : BitVec 3) (handle : BitVec 14)
  /-- SYN_DESTROY (R280): HB_OBJ_CTRL OP 2 moves a sync object to DESTROYING and aborts its waiters. -/
  | synDestroy (fn : Fin 33) (p : Fin 32) (type : BitVec 3) (handle : BitVec 14)
  /-- SYN_RESET (R280): HB_OBJ_CTRL OP 3 resets a sync object by type. -/
  | synReset (fn : Fin 33) (p : Fin 32) (type : BitVec 3) (handle : BitVec 14)
  /-- SYN_EXPORT (R267): HB_OBJ_CTRL OP 4 replaces a sync object's EXPORT. -/
  | synExport (fn : Fin 33) (p : Fin 32) (type : BitVec 3) (handle : BitVec 14)
  /-- MO_CREATE (R267): HB_OBJ_CTRL OP 5 creates a memory object. -/
  | moCreate (fn : Fin 33) (p : Fin 32) (type : BitVec 3) (handle : BitVec 14)
  /-- MO_IMPORT (R267): HB_OBJ_CTRL OP 6 sets the requester's HOLDERS bit. -/
  | moImport (fn : Fin 33) (p : Fin 32) (type : BitVec 3) (handle : BitVec 14)
  /-- MO_FREE (R267): HB_OBJ_CTRL OP 7 clears the requester's HOLDERS bit and takes a pending-release record. -/
  | moFree (fn : Fin 33) (p : Fin 32) (type : BitVec 3) (handle : BitVec 14)
  /-- MO_EXPORT (R267): HB_OBJ_CTRL OP 8 replaces a memory object's EXPORT. -/
  | moExport (fn : Fin 33) (p : Fin 32) (type : BitVec 3) (handle : BitVec 14)
  /-- SYN_VALUE_LOW_WRITE (R281): A write of the low word of SYN_OBJ.VALUE loads the object's latch only. -/
  | synValueLowWrite (fn : Fin 33) (obj : Fin 16384) (data : Word)
  /-- SYN_VALUE_HIGH_WRITE (R281): A write of the high word of SYN_OBJ.VALUE signals a fence or sets a counter. -/
  | synValueHighWrite (fn : Fin 33) (obj : Fin 16384) (low : Option Word) (data : Word)
  /-- WAIT_REGISTER_RETRY (R283): A wait that found the table full repeats its registration every 64 FCLK. -/
  | waitRegisterRetry (wait : Nat)
  /-- WAIT_NOTICE (R283): A notice of a satisfied threshold or terminal state reaches the waiter through a synchroniser and ends the wait. -/
  | waitNotice (wait : Nat)
  /-- WAIT_TIMEOUT (R284): A wait whose timer reaches its timeout ends with TIMEOUT WAIT. -/
  | waitTimeout (wait : Nat)
  /-- ENGINE_STOP_ACK (R285): An engine reaches its stop boundary and acknowledges a stop request. -/
  | engineStopAck (stop : Nat) (engine : EngineUnit)
  /-- RECLAIM (R287): HB_RECLAIM.GO starts a partition reclaim. -/
  | reclaim (fn : Fin 33) (p : Fin 32)
  /-- EVQ_ENABLE (R296): Setting EVQ_CTRL.EN zeroes WRITE, READ and DROPPED and clears OVF. -/
  | evqEnable (fn : Fin 33) (t : Fin 34) (size : BitVec 5)
  /-- EVQ_DISABLE (R296): Clearing EVQ_CTRL.EN discards further records and any owed OVERFLOW record. -/
  | evqDisable (fn : Fin 33) (t : Fin 34)
  /-- EVQ_READ_WRITE (R298): A write to EVQ_READ consumes records and may re-send the MSI-X message. -/
  | evqReadWrite (fn : Fin 33) (t : Fin 34) (data : Word)
  /-- EVQ_MASK_WRITE (R301): A MASK bit cleared while PEND is set writes one DEFERRED record. -/
  | evqMaskWrite (fn : Fin 33) (t : Fin 34) (data : Word)
  /-- OVERFLOW_RECORD (R300): An owed OVERFLOW record is written within 64 FCLK of a slot becoming writable. -/
  | overflowRecord (t : Fin 34)
  /-- POOL_GRANT (R306): A free pooled vat is granted to the waiting pooled partition chosen by priority and age. -/
  | poolGrant
  /-- SLICE_EXPIRY (R308): When a holder's slice counter reaches the slice, its pooled vats are pre-empted. -/
  | sliceExpiry (p : Fin 32)
  /-- BLOCK_SAVE_DONE (R309): When the last save write reaches L2 the block leaves the vat, which may become free or lent. -/
  | blockSaveDone (vat : Fin 64) (block : Fin 64)
  /-- DL_ENTRY_ENABLE (R318): Writing SCH_DL_CFG.EN enables or clears a stream entry. -/
  | dlEntryEnable (entry : Fin 64) (en : Bool)
  /-- DL_CHECKPOINT (R321): At CHECK cycles a frame that is behind moves the entry to FALLBACK. -/
  | dlCheckpoint (entry : Fin 64) (frame : Nat)
  /-- STUFF_BOX_PERIOD (R326): Every 8,000 FCLK all activities' credits reload. -/
  | stuffBoxPeriod
  /-- MIGRATION_RETRY (R344): A fault with no free entry repeats its translation every 64 FCLK. -/
  | migrationRetry (wait : Nat)
  /-- REPLAY (R346): XLT_MIG_CTRL OP REPLAY re-translates the waiting tiles and frees the entry. -/
  | replay (fn : Fin 33) (p : Fin 32) (entry : BitVec 6)
  /-- FAIL (R346): XLT_MIG_CTRL OP FAIL frees the entry and tears down the waiting tiles' partitions. -/
  | migFail (fn : Fin 33) (p : Fin 32) (entry : BitVec 6)
  /-- MIGRATION_PATIENCE_EXPIRY (R347): A waiting tile whose patience reaches XLT_PATIENCE tears its partition down with TIMEOUT MIGRATION. -/
  | migrationPatienceExpiry (wait : Nat)
  /-- INVALIDATE_ACK (R349): A translation cache acknowledges an invalidation; after the last one, DONE takes SEQ. -/
  | invalidateAck (p : Fin 32) (cache : XltCache)
  /-- XLT_ROOT_WRITE (R350): A write of XLT_ROOT starts an implicit PARTITION invalidation. -/
  | xltRootWrite (fn : Fin 33) (p : Fin 32) (word : Fin 2) (data : Word)
  /-- L2_ACCESS (R355): A request is served by the L2 slice by its CACHE policy. -/
  | l2Access (port : L2Port) (policy : CachePolicy) (op : L2Op) (addr : BitVec 44) (parity : Option ParityKind)
  /-- DRAM_READ_RETURN (R366): Sector data returns from DRAM and is checked, corrected or reported uncorrectable. -/
  | dramReadReturn (port : L2Port) (part : Option (Fin 32)) (addr : BitVec 44) (dataFlip : BitVec 256) (checkFlip : BitVec 256)
  /-- L2_ENABLE_WRITE (R357): Writing L2_CTRL.EN disables or enables lookup and allocation. -/
  | l2EnableWrite (en : Bool)
  /-- SCRUB_START (R375): MEM_MAINT_CTRL start of SCRUB. -/
  | scrubStart
  /-- SCRUB_STOP (R376): MEM_MAINT_CTRL stop of SCRUB. -/
  | scrubStop
  /-- SELFTEST (R374): MEM_MAINT_CTRL start of a controller self-test. -/
  | selftest (arg : BitVec 4)
  /-- L2FLUSH_WB (R358): L2FLUSH with ARG 1 writes back every dirty sector. -/
  | l2flushWb
  /-- L2FLUSH_INV (R358): L2FLUSH with ARG 2 drops every line. -/
  | l2flushInv
  /-- L2FLUSH_WBINV (R358): L2FLUSH with ARG 3 writes back and drops each line. -/
  | l2flushWbinv
  /-- SAVEALL (R373): MEM_MAINT_CTRL start of a save-all insertion. -/
  | saveall
  /-- RETRAIN (R376): MEM_MAINT_CTRL start of a controller retrain. -/
  | retrain (arg : BitVec 4)
  /-- RETRAIN_DRIFT (R376): A controller that detects drift beyond its margin starts a retrain itself. -/
  | retrainDrift (ctrl : Fin 12)
  /-- SCRUB_SECTOR (R375): Every INTERVAL cycles the scrub reads one sector and writes back a corrected one. -/
  | scrubSector (dataFlip : BitVec 256) (checkFlip : BitVec 256)
  /-- MAINT_COMPLETE (R377): A maintenance activity completes and waiting or paused activities start or resume. -/
  | maintComplete (act : Fin 10) (target : Nat) (mismatch : Option (Fin 56))
  /-- PLP_SLOT_ENABLE (R380): Setting PLP_SLOT.EN from 0 to 1 empties the slot's state. -/
  | plpSlotEnable (slot : Fin 48) (owner : BitVec 5)
  /-- PICTURE_DONE (R389): An engine finishes a DECODE command and writes its completion record. -/
  | pictureDone (engine : Fin 4)
  /-- BALER_DONE (R397): The baler ends a command and writes its result record. -/
  | balerDone
  /-- TRAINING_COMPLETE (R411): A port reaches ACTIVE and sends LINK_CHANGE. -/
  | trainingComplete (port : Fin 2) (peer : Fin 16) (wide : Bool)
  /-- TRAIN_FAIL (R412): A port fails training and waits 100,000 KCLK. -/
  | trainFail (port : Fin 2) (cause : Fin 3)
  /-- TRAIN_RETRY (R412): After 100,000 KCLK a failed port returns to DETECT. -/
  | trainRetry (port : Fin 2)
  /-- FLIT_RECEIVE (R415): A flit is received whole, checked, acknowledged, credited or NAKed, and its messages taken. -/
  | flitReceive (port : Fin 2) (flit : List Byte)
  /-- ACK_TIMEOUT (R415): When ACK has not advanced for 4,096 KCLK, every unacknowledged flit is replayed. -/
  | ackTimeout (port : Fin 2)
  /-- LINK_DOWN (R417): A port declares a link-down, discards its buffers and retrains. -/
  | linkDown (port : Fin 2) (cause : Fin 3)
  /-- LOCK_LOSS (R417): A lane of the trained width loses lock. -/
  | lockLoss (port : Fin 2)
  /-- SILENCE_TIMEOUT (R417): No flit or SKP block arrives for 1,024 KCLK. -/
  | silenceTimeout (port : Fin 2)
  /-- FELT_RD (R422): RD message read at the destination chip. -/
  | feltRd (port : Fin 2)
  /-- FELT_WR (R424): WR message written to the destination L2. -/
  | feltWr (port : Fin 2)
  /-- FELT_ATOM (R424): ATOM message performed in the destination L2. -/
  | feltAtom (port : Fin 2)
  /-- FELT_SIGNAL (R422): SIGNAL message performing a sync operation at the home chip. -/
  | feltSignal (port : Fin 2)
  /-- FELT_EVT (R422): EVT message carrying an event record or migration fault to the home chip. -/
  | feltEvt (port : Fin 2)
  /-- FWCHUNK (R441): A firmware chunk is stored, answered and forwarded. -/
  | fwchunk (port : Fin 2)
  /-- CPL (R422): A completion message ends a remote request. -/
  | cpl (port : Fin 2)
  /-- TOKEN (R430): RINGCTL TOKEN gets the chip's entry and is passed on or sent back. -/
  | token (port : Fin 2)
  /-- MEASURE (R431): RINGCTL MEASURE is answered with the furnish measurement. -/
  | measure (port : Fin 2)
  /-- MEMBERSHIP (R432): RINGCTL MEMBERSHIP is installed and outstanding requests are ended or resent. -/
  | membership (port : Fin 2)
  /-- HEARTBEAT (R429): RINGCTL HEARTBEAT from the master. -/
  | heartbeat (port : Fin 2)
  /-- LINK_CHANGE (R430): RINGCTL LINK_CHANGE at the master starts discovery. -/
  | linkChange (port : Fin 2)
  /-- PREPARE (R40): RINGCTL PREPARE: a member verifies and stages a delta and answers. -/
  | prepare (port : Fin 2)
  /-- COMMIT (R40): RINGCTL COMMIT: a member applies the staged delta at once. -/
  | commit (port : Fin 2)
  /-- DELTA_REPLAY (R35): RINGCTL DELTA_REPLAY delivers a retained delta to a joining member. -/
  | deltaReplay (port : Fin 2)
  /-- FUNC (R36): RINGCTL FUNC carries a stop, start or teardown stop for a function. -/
  | func (port : Fin 2)
  /-- ROOT (R335): RINGCTL ROOT installs a spanning partition's page-table root on a member. -/
  | root (port : Fin 2)
  /-- INVALIDATE (R349): RINGCTL INVALIDATE runs an invalidation on a member. -/
  | invalidate (port : Fin 2)
  /-- COLUMN (R437): RINGCTL COLUMN grants a launch column to a member. -/
  | column (port : Fin 2)
  /-- COLUMN_DONE (R438): RINGCTL COLUMN_DONE reports a finished column to the master. -/
  | columnDone (port : Fin 2)
  /-- FW_RESULT (R442): RINGCTL FW_RESULT sets the chip's bit in FLT_FW_STATUS. -/
  | fwResult (port : Fin 2)
  /-- READY (R436): RINGCTL READY from a joining chip. -/
  | ready (port : Fin 2)
  /-- BAD_SUB (R423): A RINGCTL with an unknown SUB is ignored and answered with BAD_SUB. -/
  | badSub (port : Fin 2)
  /-- HEARTBEAT_SEND (R429): Every 100,000 KCLK the master sends a HEARTBEAT. -/
  | heartbeatSend
  /-- ORPHANED (R435): A member with no HEARTBEAT for 4,000,000 KCLK becomes orphaned. -/
  | orphaned
  /-- WITHDRAW (R409): Writing FLT_CTRL.WITHDRAW drives FELT_ALIVE low or high again. -/
  | withdraw (value : Bool)
  /-- REDISCOVER (R430): FLT_CTRL.REDISCOVER starts discovery at the master. -/
  | rediscover
  /-- TARGET_ON (R452): PWR_DOM_CTRL TARGET ON wakes a domain. -/
  | targetOn (who : Requester) (dom : Fin 105)
  /-- TARGET_RET (R450): PWR_DOM_CTRL TARGET RET requests retention entry. -/
  | targetRet (who : Requester) (dom : Fin 105)
  /-- TARGET_OFF (R450): PWR_DOM_CTRL TARGET OFF requests power-off entry. -/
  | targetOff (who : Requester) (dom : Fin 105)
  /-- DOMAIN_IDLE_EXPIRY (R449): An AUTO domain idle for IDLE × 1,024 FCLK requests TARGET for itself. -/
  | domainIdleExpiry (dom : Fin 105)
  /-- DOMAIN_ENTRY_DONE (R451): After the drain, a domain commits, saves, isolates and reaches RET or OFF. -/
  | domainEntryDone (dom : Fin 105)
  /-- DOMAIN_WAKE (R452): A wake cause starts a domain's exit or aborts its entry. -/
  | domainWake (dom : Fin 105)
  /-- DOMAIN_EXIT_DONE (R452): A domain's exit completes and STATE becomes ON. -/
  | domainExitDone (dom : Fin 105)
  /-- DVFS_WRITE (R455): A PWR_DVFS write is held, latched or carried out in voltage and frequency order. -/
  | dvfsWrite (rail : Fin 3) (vop : BitVec 4) (fop : BitVec 4)
  /-- AVS_READBACK (R455): The regulator read-back reaches the target and the frequency rises. -/
  | avsReadback (rail : Fin 3)
  /-- AVS_TIMEOUT (R457): A voltage write not confirmed within 25,000 ZCLK keeps the old point. -/
  | avsTimeout (rail : Fin 3)
  /-- LIMITER_BIN (R459): At each 1 ms bin end the power and thermal limiters update the reserve and caps. -/
  | limiterBin (power : Nat) (temp : Int) (sensor : Fin 16) (currentLow : Bool)
  /-- CURRENT_TRIP (R460): VDD_ARR current above 115 A lowers the current cap. -/
  | currentTrip
  /-- THERMAL_TRIP (R462): At 115 °C THERM_TRIP_N goes low, TRIPPED sets and a device reset is raised. -/
  | thermalTrip (temp : Int) (sensor : Fin 16)
  /-- WEAR_HOUR (R463): Each counted hour at point 4 is added to the settings store; at the limit PEAK_WORN is blown. -/
  | wearHour
  /-- VR_HOT (R503): A change on the VR_HOT pin holds or releases the thermal cap at point 2. -/
  | vrHot (low : Bool)
  /-- PWR_BRAKE (R503): A change on the PWR_BRAKE pin holds or releases the thermal cap at point 0. -/
  | pwrBrake (low : Bool)
  /-- BOOT_START (R475): After a reset the ROM chooses a slot, loads and verifies the image, starts the MGC, trains DRAM and loads the furnish. -/
  | bootStart (dramOk : Bool)
  /-- MGC_WATCHDOG (R477): Expiry of the MGC watchdog raises a device reset with MGC_FAULT 1. -/
  | mgcWatchdog
  /-- MGC_EXCEPTION (R477): An MGC exception raises a device reset with MGC_FAULT 2. -/
  | mgcException
  /-- FINALISE (R86): Mailbox command that finalises a BPC module. -/
  | finalise
  /-- FW_STAGE (R478): Mailbox command that forwards, checks and writes a staged image to the inactive slot. -/
  | fwStage
  /-- FW_COMMIT (R480): Mailbox command that blows SVN and revoke fuses and commits the trial slot. -/
  | fwCommit
  /-- FW_REVERT (R480): Mailbox command that abandons the trial slot. -/
  | fwRevert
  /-- ATTEST (R487): Mailbox command that writes a signed attestation report. -/
  | attest
  /-- IDENTITY (R488): Mailbox command that writes the identity key and certificate. -/
  | identity
  /-- FURNISH_WRITE (R489): Mailbox command that checks a bit-stream and rewrites the lower-ranked store copy. -/
  | furnishWrite
  /-- SVC_STATUS (R481): Service-port STATUS returns the recovery state. -/
  | svcStatus
  /-- READ_LOG (R481): Service-port READ_LOG returns a recovery log record. -/
  | readLog (n : BitVec 16)
  /-- SVC_WRITE (R482): Service-port WRITE copies data into the download buffer. -/
  | svcWrite (off : BitVec 24) (bytes : List Byte)
  /-- SVC_GO (R482): Service-port GO checks the download and may write a slot and boot it. -/
  | svcGo (option : Byte)
  /-- CLEAR (R482): Service-port CLEAR empties the download buffer. -/
  | clear
  /-- FREEZE_N_FALL (R491): A falling edge of FREEZE_N stops every clock domain in order. -/
  | freezeNFall
  /-- DBG_FREEZE_GO (R491): DBG_FREEZE GO with the key starts a freeze. -/
  | dbgFreezeGo (key : BitVec 16)
  /-- APERTURE_READ (R495): A read of the read-back aperture returns mirrored or banked state and sets ERR. -/
  | apertureRead (off : BitVec 25) (bytes : Nat)
  /-- EXTEST (R508): JTAG EXTEST boundary scan. -/
  | extest (scan : List Bool)
  /-- SAMPLE_PRELOAD (R508): JTAG SAMPLE/PRELOAD. -/
  | samplePreload (scan : List Bool)
  /-- IDCODE (R508): JTAG IDCODE. -/
  | idcode
  /-- AP_ADDR (R508): JTAG AP_ADDR sets the aperture address. -/
  | apAddr (addr : BitVec 32)
  /-- AP_DATA_CAPTURE (R508): JTAG AP_DATA Capture-DR reads 8 bytes and advances the address. -/
  | apDataCapture
  /-- AP_DATA_UPDATE (R508): JTAG AP_DATA Update-DR writes a DBG register. -/
  | apDataUpdate (data : Dword)
  /-- BYPASS (R508): JTAG BYPASS. -/
  | bypass
  /-- COLD_RESET (R499): PWROK low holds a cold reset that clears everything but fuses and flash. -/
  | coldReset
  /-- PWROK_RISE (R505): PWROK going high latches the straps and starts the ROM. -/
  | pwrokRise (straps : Straps)
  /-- WARM_RESET (R506): RESET_N or PERST_N low starts a warm reset. -/
  | warmReset (pin : ResetPin)
  /-- WARM_RESET_END (R506): When RESET_N and PERST_N are both high the warm reset ends and the straps latch again. -/
  | warmResetEnd (straps : Straps)
  /-- RAIL_UNDERVOLTAGE (R507): A core rail below 90 % of its minimum drives both FELT_ALIVE pins low. -/
  | railUndervoltage (rail : Fin 3)
  /-- SMB_TEMP (R509): SMBus command 0x01 returns PWR_TEMP.TEMP. -/
  | smbTemp
  /-- SMB_AVG (R509): SMBus command 0x02 returns PWR_RESERVE.AVG. -/
  | smbAvg
  /-- SMB_PWR_STATUS (R509): SMBus command 0x03 returns PWR_STATUS. -/
  | smbPwrStatus
  /-- SMB_BOOT_STATUS (R509): SMBus command 0x04 returns MGC_BOOT_STATUS. -/
  | smbBootStatus
  /-- SMB_DEVRESET_STATUS (R509): SMBus command 0x05 returns GLB_DEVRESET_STATUS. -/
  | smbDevresetStatus
  /-- SMB_DEVICE_ID (R509): SMBus command 0x06 returns DEVICE_ID. -/
  | smbDeviceId
  /-- SMB_CARD_ID (R509): SMBus command 0x07 returns the card identity. -/
  | smbCardId
  /-- SMB_FWVER (R509): SMBus command 0x08 returns the firmware version. -/
  | smbFwver
  /-- SMB_UNKNOWN (R509): An unknown SMBus command byte or any write is not acknowledged. -/
  | smbUnknown (write : Bool) (code : Byte)
  /-- ALERT_RESPONSE (R509): A read of the Alert Response Address returning this address releases SMB_ALERT_N. -/
  | alertResponse
  /-- HOST_WDOG_EXPIRY (R503): When ZT1 expires under HOST_WDOG the pin is driven low for 100 ms and the counter reloads. -/
  | hostWdogExpiry
  /-- GLB_ZT2_WRITE (R504): A write of GLB_ZT2 loads the software countdown while GPIO_SW holds ZT2. -/
  | glbZt2Write (value : Word)
  /-- MSIX_VECTOR_UNMASK (R298): A write that clears the mask bit of a function's MSI-X vector while its Pending bit is set sends the pending message if the interrupt condition still holds. -/
  | msixVectorUnmask (fn : Fin 33)
  /-- HOST_WDOG_PULSE_END (R503): When the 2,500,000-ZCLK low pulse of HOST_WDOG ends, GPIO9 is released. -/
  | hostWdogPulseEnd
  /-- TEST_LOGIC_RESET (R508): TRST_N driven low, or the TAP reaching Test-Logic-Reset, resets the TAP and selects IDCODE. -/
  | testLogicReset
  /-- PCIE_LINK_UP (R516): The PCIe link comes up, GLB_PCIE_LINK takes its speed and width, and configuration requests are answered with Request Retry Status until the PCIe domain is ready. -/
  | pcieLinkUp (speed : Fin 6) (width : Nat)
deriving DecidableEq, Repr

end Sys2Proof
end

