-- ==== Sys2Proof/Decode.lean ====
section
/-!
DEFINITION. spec/opcode_table.json gives its rows no bits (every row has an empty list of fields), so no word spells a
command and `decodeTableWord` answers none for every word (log entry 1).
-/

namespace Sys2Proof

/-- The command that a word spells by the table's bits: no row gives any, so none. -/
def decodeTableWord (_nbits _w : Nat) : Option Instr := none

end Sys2Proof
end

