-- ==== Sys2Proof/Machine/Bits.lean ====
section
/-!
DEFINITION. Bit-field, sign and byte-order helpers over natural numbers and bit vectors (R7: little-endian; bit ranges
are written [msb:lsb]).
-/

namespace Sys2Proof.Machine

/-- Bits [hi:lo] of a number. -/
def bits (x hi lo : Nat) : Nat := x / 2 ^ lo % 2 ^ (hi + 1 - lo)

/-- Bit `n` of a number. -/
def bitAt (x n : Nat) : Bool := x / 2 ^ n % 2 == 1

/-- A Bool as the number 0 or 1. -/
def b2n (b : Bool) : Nat := if b then 1 else 0

/-- `x` with bit `n` set. -/
def setBit (x n : Nat) : Nat := if bitAt x n then x else x + 2 ^ n

/-- `x` with bit `n` cleared. -/
def clearBit (x n : Nat) : Nat := if bitAt x n then x - 2 ^ n else x

/-- The little-endian value of a list of bytes (R7). -/
def ofLe : List Byte → Nat
  | [] => 0
  | b :: bs => b.toNat + 256 * ofLe bs

/-- The `n` little-endian bytes of a value (R7). -/
def toLe : Nat → Nat → List Byte
  | 0, _ => []
  | n + 1, x => BitVec.ofNat 8 x :: toLe n (x / 256)

/-- The big-endian value of a list of bytes (the octet strings of R18, R19). -/
def ofBe (bs : List Byte) : Nat := ofLe bs.reverse

/-- The `n` big-endian bytes of a value. -/
def toBe (n x : Nat) : List Byte := (toLe n x).reverse

/-- Bytes [off, off + n) of a list; bytes beyond its end read 0. -/
def slice (bs : List Byte) (off n : Nat) : List Byte :=
  let t := (bs.drop off).take n
  t ++ List.replicate (n - t.length) 0

/-- The little-endian value of bytes [off, off + n) of a list. -/
def leAt (bs : List Byte) (off n : Nat) : Nat := ofLe (slice bs off n)

/-- The value of an `n`-bit two's-complement pattern. -/
def sext (n x : Nat) : Int := let y := x % 2 ^ n; if 2 ^ (n - 1) ≤ y then (y : Int) - (2 ^ n : Nat) else y

/-- The `n`-bit two's-complement pattern of an integer (wraps modulo 2^n). -/
def wrapN (n : Nat) (x : Int) : Nat := (x % (2 ^ n : Nat)).toNat

/-- A counter that saturates at `top`. -/
def satAdd (top x k : Nat) : Nat := min top (x + k)

/-- `x` rounded up to a multiple of `n`. -/
def roundUp (x n : Nat) : Nat := (x + n - 1) / n * n

/-- The number of 1 bits among the low `n` bits. -/
def popCount : Nat → Nat → Nat
  | 0, _ => 0
  | n + 1, x => x % 2 + popCount n (x / 2)

/-- The largest k with 2^k at most x (0 for x = 0). -/
def log2 (x : Nat) : Nat := Nat.log2 x

/-- Insert before the first element that is not below `x`. -/
def insertBy {α : Type} (le : α → α → Bool) (x : α) : List α → List α
  | [] => [x]
  | y :: r => if le x y then x :: y :: r else y :: insertBy le x r

/-- The list in ascending order; equal elements keep their order. -/
def sortBy {α : Type} (le : α → α → Bool) (l : List α) : List α := l.foldr (insertBy le) []

/-- The indices of the 1 bits among the low `n` bits, ascending. -/
def bitIdx (n x : Nat) : List Nat := (List.range n).filter (bitAt x)

/-- A mask of the indices of a list. -/
def maskOf (l : List Nat) : Nat := l.foldl setBit 0

/-- Bitwise operations on numbers, by name. -/
def andN (x y : Nat) : Nat := x &&& y
/-- `x` with the bits of `y` removed. -/
def andNot (x y : Nat) : Nat := x - (x &&& y)

/-- (a − b) mod 2^32, for the free-running counts of R235 and R296. -/
def sub32 (a b : Nat) : Nat := (a + 2 ^ 32 - b % 2 ^ 32) % 2 ^ 32

/-- Pairs of a list with its indices. -/
def indexed {α : Type} (l : List α) : List (Nat × α) := (List.range l.length).zip l

end Sys2Proof.Machine
end

