-- ==== Sys2Proof/Machine/Crypto.lean ====
section
/-!
DEFINITION. The public algorithms that the spec names: SHA-512, RSASSA-PSS (R19), AES-256-GCM (R470, R483), CRC-64 of
ECMA-182 (R414), CRC-32 and Adler-32 (spec/15). They are the algorithms of FIPS 180-4, RFC 8017, FIPS 197, NIST SP
800-38D, RFC 1952 and RFC 1950.
-/

namespace Sys2Proof.Machine

/-! ### SHA-512 -/

/-- Ten 64-bit constants of one number, the first lowest. -/
def shaPart (x : Nat) : List Dword := (List.range 10).map (fun i => BitVec.ofNat 64 (x / 2 ^ (64 * i)))

/-- SHA-512's 80 round constants, 64 bits each, the first lowest (FIPS 180-4). -/
def shaK : List Dword :=
  shaPart 0x12835b0145706fbed807aa98a3030242ab1c5ed5da6d8118923f82a4af194f9b59f111f1b605d0193956c25bf348b538e9b5dba58189dbbcb5c0fbcfec4d3b2f7137449123ef65cd428a2f98d728ae22 ++
  shaPart 0x240ca1cc77ac9c650fc19dc68b8cd5b5efbe4786384f25e3e49b69c19ef14ad2c19bf174cf6926949bdc06a725c7123580deb1fe3b1696b172be5d74f27b896f550c7dc3d5ffb4e2243185be4ee4b28c ++
  shaPart 0xd5a79147930aa725c6e00bf33da88fc2bf597fc7beef0ee4b00327c898fb213fa831c66d2db43210983e5152ee66dfab76f988da831153b55cb0a9dcbd41fbd44a7484aa6ea6e4832de92c6f592b0275 ++
  shaPart 0x92722c851482353b81c2c92e47edaee6766a0abb3c77b2a8650a73548baf63de53380d139d95b3df4d2c6dfc5ac42aed2e1b21385c26c92627b70a8546d22ffc142929670a0e6e7006ca6351e003826f ++
  shaPart 0x1e376c085141ab5319a4c116b8d2d0c8106aa07032bbd1b8f40e35855771202ad69906245565a910d192e819d6ef5218c76c51a30654be30c24b8b70d0f89791a81a664bbc423001a2bfe8a14cf10364 ++
  shaPart 0x8cc702081a6439ec84c87814a1f0ab7278a5636f43172f60748f82ee5defb2fc682e6ff3d6b2b8a35b9cca4f7763e3734ed8aa4ae3418acb391c0cb3c5c95a6334b0bcb5e19b48a82748774cdf8eeb99 ++
  shaPart 0xa637dc5a2c898a606f067aa72176fbaf57d4f7fee6ed178eada7dd6cde0eb1ed186b8c721c0c207ca273eceea26619cc67178f2e372532bbef9a3f7b2c67915a4506cebde82bde990befffa23631e28 ++
  shaPart 0x6c44198c4a4758175fcb6fab3ad6faec597f299cfc657e2a4cc5d4becb3e42b6431d67c49c100d4c3c9ebe0a15c9bebc32caab7b40c7249328db77f523047d841b710b35131c471b113f9804bef90dae

/-- SHA-512's initial hash value (FIPS 180-4). -/
def shaH : List Dword := [0x6a09e667f3bcc908, 0xbb67ae8584caa73b, 0x3c6ef372fe94f82b, 0xa54ff53a5f1d36f1, 0x510e527fade682d1, 0x9b05688c2b3e6c1f, 0x1f83d9abfb41bd6b, 0x5be0cd19137e2179]

/-- The state of a compression: a to h. -/
structure Sha where
  a : Dword
  b : Dword
  c : Dword
  d : Dword
  e : Dword
  f : Dword
  g : Dword
  h : Dword
deriving DecidableEq, Repr

/-- One round with its constant and message word. -/
def Sha.round (x : Sha) (k w : Dword) : Sha :=
  let s1 := x.e.rotateRight 14 ^^^ x.e.rotateRight 18 ^^^ x.e.rotateRight 41
  let ch := (x.e &&& x.f) ^^^ (~~~x.e &&& x.g)
  let t1 := x.h + s1 + ch + k + w
  let s0 := x.a.rotateRight 28 ^^^ x.a.rotateRight 34 ^^^ x.a.rotateRight 39
  let maj := (x.a &&& x.b) ^^^ (x.a &&& x.c) ^^^ (x.b &&& x.c)
  ⟨t1 + (s0 + maj), x.a, x.b, x.c, x.d + t1, x.e, x.f, x.g⟩

/-- The next word of the message schedule, from a window of 16 words, oldest first. -/
def shaNext (w : List Dword) : Dword :=
  let w1 := w.getD 1 0
  let w14 := w.getD 14 0
  let s0 := w1.rotateRight 1 ^^^ w1.rotateRight 8 ^^^ w1 >>> 7
  let s1 := w14.rotateRight 19 ^^^ w14.rotateRight 61 ^^^ w14 >>> 6
  s1 + w.getD 9 0 + s0 + w.getD 0 0

/-- The rounds: the window's oldest word is used, and the window moves on. -/
def shaRounds : List Dword → List Dword → Sha → Sha
  | [], _, x => x
  | k :: ks, w, x => shaRounds ks (w.drop 1 ++ [shaNext w]) (x.round k (w.getD 0 0))

/-- Compress one block of 16 words. -/
def shaBlock (h : List Dword) (w : List Dword) : List Dword :=
  let g (i : Nat) : Dword := h.getD i 0
  let x := shaRounds shaK w ⟨g 0, g 1, g 2, g 3, g 4, g 5, g 6, g 7⟩
  [g 0 + x.a, g 1 + x.b, g 2 + x.c, g 3 + x.d, g 4 + x.e, g 5 + x.f, g 6 + x.g, g 7 + x.h]

/-- The 16 big-endian words of 128 bytes. -/
def shaWords (bs : List Byte) : List Dword := (List.range 16).map (fun i => BitVec.ofNat 64 (ofBe (slice bs (8 * i) 8)))

/-- Compress `n` blocks. -/
def shaBlocks : Nat → List Byte → List Dword → List Dword
  | 0, _, h => h
  | n + 1, bs, h => shaBlocks n (bs.drop 128) (shaBlock h (shaWords (bs.take 128)))

/-- SHA-512 of a list of bytes: 64 bytes. -/
def sha512 (bs : List Byte) : List Byte :=
  let n := bs.length
  let blocks := (n + 17 + 127) / 128
  let padded := bs ++ [0x80] ++ List.replicate (128 * blocks - n - 17) 0 ++ toBe 16 (8 * n)
  (shaBlocks blocks padded shaH).flatMap (fun w => toBe 8 w.toNat)

/-! ### RSASSA-PSS (RFC 8017) -/

/-- b^e mod n; `fuel` bounds the exponent's bits. -/
def powMod (n : Nat) : Nat → Nat → Nat → Nat
  | 0, _, _ => 1 % n
  | fuel + 1, b, e =>
    if e = 0 then 1 % n
    else
      let r := powMod n fuel (b * b % n) (e / 2)
      if e % 2 = 1 then b * r % n else r

/-- MGF1 with SHA-512: `n` bytes. -/
def mgf1 (seed : List Byte) (n : Nat) : List Byte :=
  ((List.range ((n + 63) / 64)).flatMap (fun i => sha512 (seed ++ toBe 4 i))).take n

/-- The exclusive-or of two lists of bytes. -/
def xorBytes (a b : List Byte) : List Byte := (a.zip b).map (fun x => x.1 ^^^ x.2)

/-- EMSA-PSS-VERIFY for 4,095 bits, SHA-512 and a salt of 64 bytes (R19). -/
def pssOk (em digest : List Byte) : Bool :=
  let masked := em.take 447
  let h := slice em 447 64
  let db := xorBytes masked (mgf1 h 447)
  let db' := (db.headD 0 &&& 0x7F) :: db.drop 1
  em.length = 512 && em.getD 511 0 = 0xBC && (masked.headD 0).toNat < 128 &&
    db'.take 382 = List.replicate 382 0 && db'.getD 382 0 = 1 &&
    sha512 (List.replicate 8 0 ++ digest ++ slice db' 383 64) = h

/-- RSASSA-PSS verification of a digest with a 4,096-bit key (R19). -/
def rsaVerify (modulus exponent signature : List Byte) (digest : List Byte) : Bool :=
  let n := ofBe modulus
  let s := ofBe signature
  decide (2 ^ 4095 ≤ n) && decide (s < n) && pssOk (toBe 512 (powMod n 33 s (ofBe exponent))) digest

/-! ### AES-256 and GCM -/

/-- The S-box of FIPS 197, 32 entries a number, the first lowest. -/
def sboxParts : List Nat := [
  0xc072a49cafa2d4adf04759fa7dc982ca76abd7fe2b670130c56f6bf27b777c63,
  0x75b227ebe28012079a059618c323c7041531d871f1e5a534ccf73f362693fdb7,
  0xcf584c4a39becb6a5bb1fc20ed00d153842fe329b3d63b52a05a6e1b1a2c8309,
  0xd2f3ff1021dab6bcf5389d928f40a351a89f3c507f02f94585334d43fbaaefd0,
  0xdb0b5ede14b8ee4688902a22dc4f816073195d643d7ea7c41744975fec130ccd,
  0x8ae7a65eaf4566ca94ed58d6d37c8e779e4959162acd3c25c2406490a3a32e0,
  0x9e1dc186b95735610ef6034866b53e708a8bbd4b1f74dde8c6b4a61c2e2578ba,
  0x16bb54b00f2d99416842e6bf0d89a18cdf2855cee9871e9b948ed9691198f8e1]

/-- The S-box. -/
def sbox (x : Nat) : Nat := sboxParts.getD (x / 32) 0 / 256 ^ (x % 32) % 256

/-- Multiply by x in the field of AES. -/
def xtime (x : Nat) : Nat := if x < 128 then 2 * x else (2 * x - 256) ^^^ 0x1B

/-- The words (4 bytes each) of the key schedule, newest first; `n` more are made. -/
def aesExpand : Nat → Nat → Nat → List (List Nat) → List (List Nat)
  | 0, _, _, ws => ws
  | n + 1, i, rcon, ws =>
    let prev := ws.getD 0 []
    let back := ws.getD 7 []
    let t := if i % 8 = 0 then
        (match (prev.drop 1 ++ prev.take 1).map sbox with
          | a :: r => (a ^^^ rcon) :: r
          | [] => [])
      else if i % 8 = 4 then prev.map sbox else prev
    aesExpand n (i + 1) (if i % 8 = 0 then xtime rcon else rcon) ((back.zip t).map (fun x => x.1 ^^^ x.2) :: ws)

/-- The 15 round keys of AES-256, 16 bytes each. -/
def aesKeys (key : List Byte) : List (List Nat) :=
  let k := key.map (·.toNat)
  let first := ((List.range 8).map (fun i => (k.drop (4 * i)).take 4)).reverse
  let ws := (aesExpand 52 8 1 first).reverse
  (List.range 15).map (fun r => ((ws.drop (4 * r)).take 4).flatten)

/-- ShiftRows on 16 bytes, column by column. -/
def shiftRows (s : List Nat) : List Nat := (List.range 16).map (fun i => s.getD ((i + 4 * (i % 4)) % 16) 0)

/-- MixColumns of one column. -/
def mixColumn (c : List Nat) : List Nat :=
  (List.range 4).map (fun i =>
    let g (k : Nat) : Nat := c.getD ((i + k) % 4) 0
    xtime (g 0) ^^^ (xtime (g 1) ^^^ g 1) ^^^ g 2 ^^^ g 3)

/-- MixColumns. -/
def mixColumns (s : List Nat) : List Nat := (List.range 4).flatMap (fun i => mixColumn ((s.drop (4 * i)).take 4))

/-- The exclusive-or of two byte lists held as numbers. -/
def xorNats (a b : List Nat) : List Nat := (a.zip b).map (fun x => x.1 ^^^ x.2)

/-- The rounds of AES after the first key: the last has no MixColumns. -/
def aesRounds : List (List Nat) → List Nat → List Nat
  | [], s => s
  | [k], s => xorNats (shiftRows (s.map sbox)) k
  | k :: ks, s => aesRounds ks (xorNats (mixColumns (shiftRows (s.map sbox))) k)

/-- AES-256 of one block of 16 bytes. -/
def aesBlock (keys : List (List Nat)) (b : List Byte) : List Byte :=
  (aesRounds (keys.drop 1) (xorNats (b.map (·.toNat)) (keys.headD []))).map (BitVec.ofNat 8)

/-- The product in GF(2^128) of GCM: `n` bits of x are left, most significant first. -/
def ghashMul : Nat → Nat → Nat → Nat → Nat
  | 0, _, _, z => z
  | n + 1, x, v, z =>
    let z' := if x / 2 ^ n % 2 = 1 then z ^^^ v else z
    let v' := if v % 2 = 1 then v / 2 ^^^ 0xE1 * 2 ^ 120 else v / 2
    ghashMul n x v' z'

/-- GHASH of blocks of 16 bytes. -/
def ghash (h : Nat) : Nat → List Byte → Nat → Nat
  | 0, _, y => y
  | n + 1, bs, y => ghash h n (bs.drop 16) (ghashMul 128 (y ^^^ ofBe (bs.take 16)) h 0)

/-- Zeros up to a multiple of 16 bytes. -/
def pad16 (bs : List Byte) : List Byte := bs ++ List.replicate (roundUp bs.length 16 - bs.length) 0

/-- The key stream of GCM: blocks for counters from `c`. -/
def gcmStream (keys : List (List Nat)) (iv : List Byte) : Nat → Nat → List Byte
  | 0, _ => []
  | n + 1, c => aesBlock keys (iv ++ toBe 4 c) ++ gcmStream keys iv n (c + 1)

/-- AES-256-GCM's text transformation: the same both ways (SP 800-38D). -/
def gcmText (key iv text : List Byte) : List Byte :=
  xorBytes text (gcmStream (aesKeys key) iv ((text.length + 15) / 16) 2)

/-- AES-256-GCM's tag of additional data and ciphertext. -/
def gcmTag (key iv aad ct : List Byte) : List Byte :=
  let keys := aesKeys key
  let h := ofBe (aesBlock keys (List.replicate 16 0))
  let x := pad16 aad ++ pad16 ct ++ toBe 8 (8 * aad.length) ++ toBe 8 (8 * ct.length)
  xorBytes (toBe 16 (ghash h (x.length / 16) x 0)) (aesBlock keys (iv ++ toBe 4 1))

/-! ### Checksums -/

/-- CRC-64 of ECMA-182 over one byte, most significant bit first. -/
def crc64Byte (c : Nat) (b : Byte) : Nat :=
  (List.range 8).foldl (fun c _ => if 2 ^ 63 ≤ c then (2 * c - 2 ^ 64) ^^^ 0x42F0E1EBA9EA3693 else 2 * c)
    (c ^^^ b.toNat * 2 ^ 56)

/-- The CRC of a flit (R414): initial value all ones, no reflection, final exclusive-or with all ones. -/
def crc64 (bs : List Byte) : Nat := bs.foldl crc64Byte (2 ^ 64 - 1) ^^^ (2 ^ 64 - 1)

/-- CRC-32 over one byte (RFC 1952). -/
def crc32Byte (c : Nat) (b : Byte) : Nat :=
  (List.range 8).foldl (fun c _ => if c % 2 = 1 then c / 2 ^^^ 0xEDB88320 else c / 2) (c ^^^ b.toNat)

/-- CRC-32 of bytes, going on from the value of what came before (0 at first). -/
def crc32 (init : Nat) (bs : List Byte) : Nat := bs.foldl crc32Byte (init ^^^ 0xFFFFFFFF) ^^^ 0xFFFFFFFF

/-- Adler-32 of bytes, going on from the value of what came before (1 at first) (RFC 1950). -/
def adler32 (init : Nat) (bs : List Byte) : Nat :=
  let r := bs.foldl (fun (x : Nat × Nat) b =>
    let a := (x.1 + b.toNat) % 65521
    (a, (x.2 + a) % 65521)) (init % 65536, init / 65536)
  r.2 * 65536 + r.1

end Sys2Proof.Machine
end

