-- ==== Sys2Proof/Machine/Inflate.lean ====
section
/-!
DEFINITION. Decompression as R401 checks it: DEFLATE blocks (RFC 1951), zlib and gzip framing (RFC 1950, RFC 1952). Input is
taken as bits, least significant bit of each byte first.
-/

namespace Sys2Proof.Machine

/-- Bits of bytes, least significant first. -/
def bitsOf (bs : List Byte) : List Bool := bs.flatMap (fun b => (List.range 8).map (bitAt b.toNat))

/-- Why a decompression stops before the end of the stream: the input ran out (inside a stored block's data or elsewhere), the
output is full, or an error with its BAL reason, detail and bit offset. -/
inductive InfStop
  | input (stored : Bool)
  | full
  | err (reason detail at' : Nat)
deriving DecidableEq, Repr

/-- The decoder: bits left, bits used, output so far (newest first) with its length, the length it may reach, and the length
of the dictionary that precedes it. -/
structure Inf where
  bits : List Bool
  used : Nat
  out : List Byte
  len : Nat
  room : Nat
  dict : Nat
deriving DecidableEq, Repr

/-- Take `n` bits, least significant first. -/
def Inf.take (x : Inf) : Nat → Except (InfStop × Inf) (Nat × Inf)
  | 0 => .ok (0, x)
  | n + 1 => match x.bits with
    | [] => .error (.input false, x)
    | b :: r => match ({ x with bits := r, used := x.used + 1 }).take n with
      | .error e => .error e
      | .ok (v, y) => .ok (b2n b + 2 * v, y)

/-- Emit a byte. -/
def Inf.emit (x : Inf) (b : Byte) : Except (InfStop × Inf) Inf :=
  if x.room ≤ x.len then .error (.full, x) else .ok { x with out := b :: x.out, len := x.len + 1 }

/-- How many codes of each length 0 to 15. -/
def codeCounts (ls : List Nat) : List Nat := (List.range 16).map (fun n => (ls.filter (fun l => l = n)).length)

/-- The symbols in canonical order. -/
def codeSyms (ls : List Nat) : List Nat :=
  (List.range 15).flatMap (fun n => ((indexed ls).filter (fun e => e.2 = n + 1)).map (·.1))

/-- What is left of the code space (RFC 1951, 3.2.2): 0 complete, negative over-full. -/
def codeLeft (ls : List Nat) : Int :=
  ((codeCounts ls).drop 1).foldl (fun (left : Int) (n : Nat) => 2 * left - (n : Int)) 1

/-- A complete code. -/
def codeComplete (ls : List Nat) : Bool := codeLeft ls = 0 && ls.any (fun l => l ≠ 0)

/-- Decode a symbol: `code` and `first` at each length, and the index of the first symbol of the length. -/
def Inf.symFrom (x : Inf) (counts syms : List Nat) (at' : Nat) : Nat → Nat → Nat → Nat → Except (InfStop × Inf) (Nat × Inf)
  | 0, _, _, _ => .error (.err 4 0 at', x)
  | fuel + 1, code, first, index =>
    match x.take 1 with
    | .error e => .error e
    | .ok (b, y) =>
      let code := code + b
      let n := counts.getD (15 - fuel) 0
      if code < first + n then .ok (syms.getD (index + (code - first)) 0, y)
      else y.symFrom counts syms at' fuel (2 * code) (2 * (first + n)) (index + n)

/-- Decode a symbol of the code with these lengths. -/
def Inf.sym (x : Inf) (ls : List Nat) : Except (InfStop × Inf) (Nat × Inf) :=
  x.symFrom (codeCounts ls) (codeSyms ls) x.used 15 0 0 0

/-- Length base and extra bits of symbols 257 to 285 (RFC 1951). -/
def lenTable : List (Nat × Nat) :=
  [(3, 0), (4, 0), (5, 0), (6, 0), (7, 0), (8, 0), (9, 0), (10, 0), (11, 1), (13, 1), (15, 1), (17, 1), (19, 2), (23, 2),
   (27, 2), (31, 2), (35, 3), (43, 3), (51, 3), (59, 3), (67, 4), (83, 4), (99, 4), (115, 4), (131, 5), (163, 5), (195, 5),
   (227, 5), (258, 0)]

/-- Distance base and extra bits of symbols 0 to 29. -/
def distTable : List (Nat × Nat) :=
  [(1, 0), (2, 0), (3, 0), (4, 0), (5, 1), (7, 1), (9, 2), (13, 2), (17, 3), (25, 3), (33, 4), (49, 4), (65, 5), (97, 5),
   (129, 6), (193, 6), (257, 7), (385, 7), (513, 8), (769, 8), (1025, 9), (1537, 9), (2049, 10), (3073, 10), (4097, 11),
   (6145, 11), (8193, 12), (12289, 12), (16385, 13), (24577, 13)]

/-- Copy `n` bytes from `d` back. -/
def Inf.copy (x : Inf) (d : Nat) : Nat → Except (InfStop × Inf) Inf
  | 0 => .ok x
  | n + 1 => match x.emit (x.out.getD (d - 1) 0) with
    | .error e => .error e
    | .ok y => y.copy d n

/-- A length and distance after a length symbol. -/
def Inf.match' (x : Inf) (dist : List Nat) (at' s : Nat) : Except (InfStop × Inf) Inf :=
  if 285 < s then .error (.err 4 0 at', x)
  else
    let (base, ex) := lenTable.getD (s - 257) (0, 0)
    match x.take ex with
    | .error e => .error e
    | .ok (v, y) => match y.sym dist with
      | .error e => .error e
      | .ok (ds, z) =>
        if 29 < ds then .error (.err 4 0 y.used, x)
        else
          let (dbase, dex) := distTable.getD ds (0, 0)
          match z.take dex with
          | .error e => .error e
          | .ok (dv, w) =>
            if w.len + w.dict < dbase + dv then .error (.err 5 0 y.used, x) else w.copy (dbase + dv) (base + v)

/-- The symbols of a block, to its end; `fuel` bounds them by the bits. -/
def Inf.codes (x : Inf) (lit dist : List Nat) : Nat → Except (InfStop × Inf) Inf
  | 0 => .error (.input false, x)
  | fuel + 1 =>
    match x.sym lit with
    | .error e => .error e
    | .ok (s, y) =>
      if s = 256 then .ok y
      else
        match (if s < 256 then y.emit (BitVec.ofNat 8 s) else y.match' dist x.used s) with
        | .error e => .error e
        | .ok z => z.codes lit dist fuel

/-- The fixed codes. -/
def fixedLit : List Nat := List.replicate 144 8 ++ List.replicate 112 9 ++ List.replicate 24 7 ++ List.replicate 8 8
/-- The fixed distance code. -/
def fixedDist : List Nat := List.replicate 32 5

/-- The order of the code-length code's lengths. -/
def clOrder : List Nat := [16, 17, 18, 0, 8, 7, 9, 6, 10, 5, 11, 4, 12, 3, 13, 2, 14, 1, 15]

/-- Read `n` lengths of 3 bits. -/
def Inf.clens (x : Inf) : Nat → Except (InfStop × Inf) (List Nat × Inf)
  | 0 => .ok ([], x)
  | n + 1 => match x.take 3 with
    | .error e => .error e
    | .ok (v, y) => match y.clens n with
      | .error e => .error e
      | .ok (r, z) => .ok (v :: r, z)

/-- Read the code lengths of a dynamic block up to `total`; `acc` is newest first. -/
def Inf.lens (x : Inf) (cl : List Nat) (total : Nat) : Nat → List Nat → Except (InfStop × Inf) (List Nat × Inf)
  | 0, acc => .ok (acc.reverse, x)
  | fuel + 1, acc =>
    if total ≤ acc.length then .ok (acc.reverse, x)
    else match x.sym cl with
      | .error e => .error e
      | .ok (s, y) =>
        if s < 16 then y.lens cl total fuel (s :: acc)
        else
          let (ex, base) := if s = 16 then (2, 3) else if s = 17 then (3, 3) else (7, 11)
          match y.take ex with
          | .error e => .error e
          | .ok (v, z) =>
            let n := base + v
            if (s = 16 && acc.isEmpty) || total < acc.length + n then .error (.err 3 0 x.used, x)
            else z.lens cl total fuel (List.replicate n (if s = 16 then acc.headD 0 else 0) ++ acc)

/-- The distance code is complete, holds one code of length 1, or none (R401). -/
def distOk (ls : List Nat) : Bool :=
  codeComplete ls || ls.all (fun l => l = 0) || (ls.filter (fun l => l ≠ 0)) = [1]

/-- The codes of a dynamic block. -/
def Inf.dynamic (x : Inf) : Except (InfStop × Inf) (List Nat × List Nat × Inf) :=
  let at' := x.used
  match x.take 14 with
  | .error e => .error e
  | .ok (v, y) =>
    let hlit := v % 32
    let hdist := v / 32 % 32
    if 29 < hlit || 29 < hdist then .error (.err 3 0 at', x)
    else match y.clens (v / 1024 + 4) with
      | .error e => .error e
      | .ok (cs, z) =>
        let cl := (List.range 19).map (fun i => match (indexed clOrder).find? (fun e => e.2 = i) with
          | some e => cs.getD e.1 0
          | none => 0)
        if !codeComplete cl then .error (.err 3 0 at', x)
        else match z.lens cl (258 + hlit + hdist) 320 [] with
          | .error e => .error e
          | .ok (ls, w) =>
            let lit := ls.take (257 + hlit)
            let dist := ls.drop (257 + hlit)
            if !codeComplete lit || lit.getD 256 0 = 0 || !distOk dist then .error (.err 3 0 at', x) else .ok (lit, dist, w)

/-- Copy `n` stored bytes. -/
def Inf.storedBytes (x : Inf) : Nat → Except (InfStop × Inf) Inf
  | 0 => .ok x
  | n + 1 => match x.take 8 with
    | .error _ => .error (.input true, x)
    | .ok (v, y) => match y.emit (BitVec.ofNat 8 v) with
      | .error e => .error e
      | .ok z => z.storedBytes n

/-- A stored block after its BTYPE. -/
def Inf.stored (x : Inf) : Except (InfStop × Inf) Inf :=
  match x.take ((8 - x.used % 8) % 8) with
  | .error e => .error e
  | .ok (_, y) => match y.take 32 with
    | .error e => .error e
    | .ok (v, z) => if v % 65536 + v / 65536 ≠ 65535 then .error (.err 6 0 y.used, x) else z.storedBytes (v % 65536)

/-- The blocks of a stream; `fuel` bounds them by the bits. Answers the decoder where it stops, and why. -/
def Inf.blocks (x : Inf) : Nat → Inf × Option InfStop
  | 0 => (x, some (.input false))
  | fuel + 1 =>
    match x.take 3 with
    | .error e => (e.2, some e.1)
    | .ok (h, y) =>
      let r : Except (InfStop × Inf) Inf :=
        if h / 2 = 0 then y.stored
        else if h / 2 = 1 then y.codes fixedLit fixedDist (y.bits.length + 1)
        else if h / 2 = 2 then match y.dynamic with
          | .error e => .error e
          | .ok (lit, dist, z) => z.codes lit dist (z.bits.length + 1)
        else .error (.err 2 0 x.used, x)
      match r with
      | .error e => (e.2, some e.1)
      | .ok z => if h % 2 = 1 then (z, none) else z.blocks fuel

/-! ### Framing -/

/-- Bytes of a zero-ended field, its end included; none: the end is missing. -/
def zField : List Byte → Option Nat
  | [] => none
  | b :: r => if b = 0 then some 1 else (zField r).map (· + 1)

/-- The header of a stream (R401): its bytes and whether the dictionary counts, or why it fails or waits. -/
def frameHeader (frame : Nat) (bs dict : List Byte) : Except InfStop (Nat × Bool) :=
  if frame = 0 then .ok (0, true)
  else if frame = 1 then
    if bs.length < 2 then .error (.input false)
    else
      let cmf := leAt bs 0 1
      let flg := leAt bs 1 1
      if cmf % 16 ≠ 8 || decide (7 < cmf / 16) then .error (.err 1 1 0)
      else if (cmf * 256 + flg) % 31 ≠ 0 then .error (.err 1 2 0)
      else if !bitAt flg 5 then .ok (2, false)
      else if dict = [] then .error (.err 1 5 16)
      else if bs.length < 6 then .error (.input false)
      else if ofBe (slice bs 2 4) ≠ adler32 1 dict then .error (.err 1 3 16)
      else .ok (6, true)
  else if bs.length < 10 then .error (.input false)
  else
    let flg := leAt bs 3 1
    if leAt bs 0 2 ≠ 0x8B1F || leAt bs 2 1 ≠ 8 || flg / 32 ≠ 0 then .error (.err 1 1 0)
    else
      let a1 : Option Nat := if bitAt flg 2 then (if bs.length < 12 then none else some (12 + leAt bs 10 2)) else some 10
      let skip (a : Option Nat) (on : Bool) : Option Nat :=
        if on then a.bind (fun n => (zField (bs.drop n)).map (· + n)) else a
      match skip (skip a1 (bitAt flg 3)) (bitAt flg 4) with
      | none => .error (.input false)
      | some n =>
        let m := if bitAt flg 1 then n + 2 else n
        if bs.length < m then .error (.input false)
        else if bitAt flg 1 && leAt bs n 2 ≠ crc32 0 (bs.take n) % 65536 then .error (.err 1 4 (8 * n))
        else .ok (m, false)

/-- The CHECK value of uncompressed data (R397). -/
def checkOf (frame : Nat) (out : List Byte) : Nat := if frame = 2 then crc32 0 out else adler32 1 out

/-- What a decompression of all the input so far gives: the output, the input bytes used, and why it stopped (none: the end of
the stream, its trailer included). -/
structure InfOut where
  out : List Byte
  used : Nat
  stop : Option InfStop
deriving DecidableEq, Repr

/-- The trailer after the last block. -/
def trailer (frame : Nat) (bs out : List Byte) (a : Nat) : InfOut :=
  if frame = 0 then ⟨out, a, none⟩
  else if frame = 1 then
    if bs.length < a + 4 then ⟨out, bs.length, some (.input false)⟩
    else if ofBe (slice bs a 4) ≠ adler32 1 out then ⟨out, a + 4, some (.err 7 1 (8 * a))⟩
    else ⟨out, a + 4, none⟩
  else if bs.length < a + 8 then ⟨out, bs.length, some (.input false)⟩
  else if leAt bs a 4 ≠ crc32 0 out then ⟨out, a + 8, some (.err 7 2 (8 * a))⟩
  else if leAt bs (a + 4) 4 ≠ out.length % 2 ^ 32 then ⟨out, a + 8, some (.err 7 3 (8 * a + 32))⟩
  else ⟨out, a + 8, none⟩

/-- What stops a decoder inside the data it has: its output and input so far. -/
def infStopped (x : Inf) (stop : InfStop) (all : Nat) : InfOut :=
  match stop with
  | .input _ => ⟨x.out.reverse, all, some stop⟩
  | _ => ⟨x.out.reverse, (x.used + 7) / 8, some stop⟩

/-- The decoder that has gone as far as it can: `room` output bytes at most. Every prefix of the input gives a prefix of the
output, so that stopping and resuming is running again from the job's start. -/
def infRun (bs dict : List Byte) (skip room : Nat) : Inf × Option InfStop :=
  let x : Inf := ⟨(bitsOf bs).drop (8 * skip), 8 * skip, dict.reverse, 0, room, dict.length⟩
  x.blocks (8 * bs.length + 1)

/-- Decompress all the input of a job so far into at most `room` bytes. -/
def inflateJob (frame : Nat) (bs dict : List Byte) (room : Nat) : InfOut :=
  match frameHeader frame bs dict with
  | .error (.input b) => ⟨[], bs.length, some (.input b)⟩
  | .error e => ⟨[], 0, some e⟩
  | .ok (skip, withDict) =>
    let d := if withDict then dict else []
    let (x, stop) := infRun bs d skip room
    let out := x.out.reverse.drop d.length
    match stop with
    | none => trailer frame bs out ((x.used + 7) / 8)
    | some e => { infStopped x e bs.length with out := out }

end Sys2Proof.Machine
end

