-- ==== Sys2Proof/Config.lean ====
section
/-!
DEFINITION. What an implementation fixes and the spec leaves open. Every `opaque` constant is a FREE VALUE: it has no body
that Lean can see, so nothing can be proved of its value, and a claim holds whatever it is. The counter `State.free`
gives each use a fresh argument. The assumption log names each constant.
-/

namespace Sys2Proof.Config

/-- The value of an unwritten v register lane of a new quire (log entry 4): of the use counter and the place. -/
opaque newReg : Nat → Nat → BitVec 32
/-- The value of an unwritten s register of a new quire (log entry 4). -/
opaque newSreg : Nat → Nat → BitVec 32
/-- The value of an unwritten predicate register of a new quire, one bit a lane (log entry 4). -/
opaque newPred : Nat → Nat → BitVec 32
/-- Bytes of press that a block has not written (log entry 4). -/
opaque newPress : Nat → Nat → BitVec 8
/-- Byte `i` of the native image that FINALISER version `v` makes of a module (R87, R89; log entry 5). -/
opaque nativeByte : Nat → List (BitVec 8) → Nat → BitVec 8
/-- The size of that native image before R87's bound is applied (log entry 5). -/
opaque nativeSize : Nat → List (BitVec 8) → Nat
/-- Where the finalised code of word index `w` lies in the native image of a module (R85, R89; log entry 5). -/
opaque nativeOffset : List (BitVec 8) → Nat → Nat
/-- The module of a native image that another finaliser of version `v` wrote, from the image's first 4,096 bytes; an empty
list where they begin no such image (R89; log entry 5). -/
opaque foreignModule : Nat → List (BitVec 8) → List (BitVec 8)
/-- Internal bytes: save slots, spill areas, graph stores, heap metadata, motion areas, state blocks (log entries 6, 7). -/
opaque internalByte : Nat → Nat → BitVec 8
/-- Whether an access that may use either a cached translation or the page tables uses the cached one (R348; log entry 9). -/
opaque useOldTranslation : Nat → Bool
/-- Whether a weak load that may return an L1 line's bytes or newer L2 bytes returns the line's (R115, R117; log entry 9). -/
opaque useStaleL1 : Nat → Bool
/-- The value that the spec leaves undefined or unstated, by use (log entry 10). -/
opaque undefinedWord : Nat → BitVec 32
/-- The DEFLATE stream of a block (R398: the match search is not given bit by bit; log entry 11). -/
opaque deflate : Nat → List (BitVec 8) → List (BitVec 8)
/-- The picture an H.264 or H.265 access unit decodes to: facts about it, by index (R382, R383, R389; log entry 12). -/
opaque pictureInfo : Nat → List (BitVec 8) → Nat → Nat
/-- Sample bytes of a decoded picture (log entry 12). -/
opaque pictureByte : Nat → List (BitVec 8) → Nat → BitVec 8
/-- The salt, nonce and signature bytes of the MGC (R487, R483; log entry 13). -/
opaque mgcByte : Nat → Nat → BitVec 8
/-- The digest of the ROM, a constant of the part (R487; log entry 13). -/
opaque romByte : Nat → BitVec 8
/-- Processor register state shown by the aperture space MICRO, queue state of MC, and other internal windows
(R495; log entry 14). -/
opaque apertureByte : Nat → Nat → BitVec 8
/-- A channel of a scaled plane at a pixel: R213 gives the filter no arithmetic (log entry 19). Arguments: head, plane,
x, y, channel, and the plane's source bytes' place. -/
opaque scaledPixel : List Nat → BitVec 32
/-- Lerulo's JEP106 code (IDCODE [11:1], R508; log entry 15). -/
opaque jep106 : Nat
/-- The finaliser version that a running image reports is the image's; the boundary-scan bits of a pin that the model
does not hold (R508; log entry 15). -/
opaque scanBit : Nat → Nat → Bool
/-- Depth or a varying of a QUAD at a point: R184 gives no edge values for it (log entry 18). Arguments: the corners'
coordinates and values, and the point. -/
opaque quadValue : List Nat → BitVec 32
/-- Whether a varying of a draw is flat (R184 names flat varyings, no field says which they are; log entry 18): of the
draw-state descriptor and the varying's index. -/
opaque flatVarying : List (BitVec 8) → Nat → Bool
/-- A channel that an attachment's format does not hold, as blending reads it (R189; log entry 18). -/
opaque absentChannel : Nat → BitVec 32
/-- The snapped window coordinate of a vertex whose coordinate is not a number (R181; log entry 18). -/
opaque lostCoord : Nat → BitVec 22
/-- The level of GPIO k at the board where no command of the table gives it, at 16 × use + k (R503, R504; log entry 16). -/
opaque boardLevel : Nat → Bool
/-- A count of clock cycles: the spec gives these counters by the clock, and the model has no clock (log entry 20).
Arguments: use, and which counter. -/
opaque clockCount : Nat → Nat → BitVec 64
/-- The capacity per period of a budget resource that the spec gives no figure for (R328; log entry 21): resource 1 L2,
2 felt; and the FAB point. -/
opaque capacity : Nat → Nat → BitVec 32

end Sys2Proof.Config
end

