-- ==== Sys2Proof/Machine/RegNames.lean ====
section
/-!
DEFINITION. The names of the registers of the spec's register tables (`Reg`) and of their fields (`Field`), one
constructor each, named as the tables name them (spec/01 to spec/20, "Registers"). FIELD names are written
REGISTER_FIELD where the spec writes REGISTER.FIELD (spec/00_scope.md).
-/

namespace Sys2Proof.Machine

/-- Every register (array) of the BAR0 register tables. -/
inductive Reg
  | GLB_FURNISH_STATUS | GLB_LOAD_RESULT | GLB_LOAD_AUX | GLB_FURNISH_GEN | GLB_LOAD_ADDR
  | GLB_LOAD_CTRL | GLB_FUNC_CTRL | GLB_FUNC_RESULT | GLB_FUNC_STATE | GLB_CLAIM_CTRL
  | GLB_CLAIM_RESULT | VAT_STATUS | VAT_SPLIT | VAT_FAULT_WHO | VAT_FAULT_STATUS | VAT_FAULT_PC
  | VAT_FAULT_LANES | VAT_ISSUED | VAT_RC_HITS | VAT_BANK_STALLS | VAT_BEATER | VAT_TERR
  | VAT_TPASSES | VAT_ACQ_WAIT | GEO_STATUS | GEO_POOL_BASE | GEO_PASS | GEO_POOL_USE
  | GEO_GROW_ADDR | GEO_GROW_CTRL | GEO_GROW_WANT | GEO_COUNTS | GEO_REFUSE | CAL_RESULT
  | CAL_HEAD_CTRL | CAL_TIMING | CAL_LEAD | CAL_WALL | CAL_COUNTS | CAL_PLANE | CAL_PLANE_CTRL
  | GLB_VF_STATUS | GLB_WIN_BASE | GLB_PCIE_LINK | GLB_FLR_STATUS | HB_PARSER | HB_Q_BASE
  | HB_Q_CTRL | HB_Q_READ | HB_Q_ERR | HB_Q_ERR_AT | HB_Q_MARK | HB_PART_FAULT | HB_PART_FAULT_AT
  | HB_GRAPH_STORE | HB_GRAPH_SIZE | GLB_DEVRESET_STATUS | GLB_DEVRESET_CTRL | SYN_OBJ | HB_MO
  | HB_OBJ_CTRL | HB_OBJ_RESULT | HB_OBJ_ARG | HB_OBJ_HANDLE | HB_RECLAIM | HB_HEAP_BASE
  | HB_HEAP_STAT | HB_USE | HB_MEM | HB_Q_DONE | GLB_OBJ_QUOTA | EVQ_ROUTE | EVQ_BASE | EVQ_CTRL
  | EVQ_WRITE | EVQ_READ | EVQ_MASK | EVQ_PEND | EVQ_DROPPED | SCH_POOL_SLICE | SCH_DEADLINE
  | SCH_CAP | SCH_SAVE_BASE | SCH_SAVE_SIZE | SCH_SAVE_USE | SCH_FAULT | SCH_FAULT_CTRL
  | SCH_PREEMPTS | SCH_DL_CFG | SCH_DL_STATE | SCH_SB_LIMIT | SCH_SB_CREDIT | SCH_SB_FLOOR
  | SCH_SB_HELD | SCH_SB_OVER | XLT_STATUS | XLT_ROOT | XLT_PATIENCE | XLT_INV_ADDR | XLT_INV_DONE
  | XLT_COUNTS | XLT_MIG_CTRL | XLT_MIG | L2_CTRL | L2_PARITY | L2_STREAM | MEM_DRAM_SIZE
  | MEM_REGION | MEM_REGION_STATE | MEM_MAINT_CTRL | MEM_MAINT_RESULT | MEM_MAINT_ADDR
  | MEM_MAINT_STATE | MEM_SCRUB_CTRL | MEM_SCRUB_STAT | MEM_ERR_CTRL | MEM_ERR_LOG | MEM_ECC_COUNT
  | MEM_SAVEALL | MEM_SELFTEST | PLP_ENGINE | PLP_SLOT | BAL_STATUS | FLT_STATUS | FLT_MEMBERS
  | FLT_CTRL | FLT_TRANSIT | FLT_PORT | FLT_PORT_ERR | FLT_FW_STAGE | FLT_FW_STATUS | PWR_STATUS
  | PWR_CLASS | PWR_DVFS | PWR_DVFS_RESULT | PWR_LIMIT | PWR_RESERVE | PWR_TEMP | PWR_WEAR
  | PWR_DOM_CTRL | PWR_DOM_STATE | PWR_DOM_COUNT | PWR_DOM_RESULT | MGC_MBOX_CTRL | MGC_MBOX_ARG
  | MGC_MBOX_RESULT | MGC_BOOT_STATUS | MGC_FW_VERSION | MGC_FW_INFO | DBG_FREEZE
  | DBG_FREEZE_STATUS | DBG_AP_BANK | DBG_AP_STATUS | GLB_ID | GLB_GPIO_IN | GLB_GPIO_OUT
  | GLB_ZT2
deriving DecidableEq, Repr

/-- Every field of every register table; reserved bits ("—") are no fields: they read 0 (R9). -/
inductive Field
  | GLB_FURNISH_STATUS_LOCKED | GLB_FURNISH_STATUS_NULL | GLB_FURNISH_STATUS_SOURCE
  | GLB_FURNISH_STATUS_MASTER | GLB_FURNISH_STATUS_DELTAS | GLB_FURNISH_STATUS_RECORDS
  | GLB_LOAD_RESULT_STATUS | GLB_LOAD_AUX_RESOURCE | GLB_LOAD_AUX_RECORD
  | GLB_FURNISH_GEN_GENERATION | GLB_LOAD_ADDR_ADDR | GLB_LOAD_CTRL_GO | GLB_LOAD_CTRL_PENDING
  | GLB_LOAD_CTRL_KIND | GLB_FUNC_CTRL_GO | GLB_FUNC_CTRL_PENDING | GLB_FUNC_CTRL_OP
  | GLB_FUNC_CTRL_KIND | GLB_FUNC_CTRL_INDEX | GLB_FUNC_RESULT_STATUS | GLB_FUNC_STATE_DRAINED
  | GLB_FUNC_STATE_STATE | GLB_CLAIM_CTRL_GO | GLB_CLAIM_CTRL_PENDING | GLB_CLAIM_CTRL_OP
  | GLB_CLAIM_CTRL_FEATURE | GLB_CLAIM_CTRL_RESOURCE | GLB_CLAIM_RESULT_STATUS | VAT_STATUS_STATE
  | VAT_STATUS_MODE | VAT_STATUS_PART | VAT_STATUS_POOLED | VAT_STATUS_QUIRES | VAT_STATUS_BLOCKS
  | VAT_SPLIT_BEATER | VAT_SPLIT_TILE | VAT_SPLIT_LOCAL | VAT_SPLIT_L1 | VAT_FAULT_WHO_VALID
  | VAT_FAULT_WHO_PART | VAT_FAULT_WHO_QUIRE | VAT_FAULT_WHO_BLOCK | VAT_FAULT_WHO_MORE
  | VAT_FAULT_STATUS_STATUS | VAT_FAULT_PC_PC | VAT_FAULT_LANES_LANES | VAT_ISSUED_COUNT
  | VAT_RC_HITS_COUNT | VAT_BANK_STALLS_COUNT | VAT_BEATER_SET1_HELD | VAT_BEATER_SET1_INT
  | VAT_BEATER_SET1_QUIRE | VAT_BEATER_SET0_HELD | VAT_BEATER_SET0_INT | VAT_BEATER_SET0_QUIRE
  | VAT_BEATER_WAITING | VAT_BEATER_BUSY | VAT_BEATER_QUEUED | VAT_TERR_VALID | VAT_TERR_OP
  | VAT_TERR_QUIRE | VAT_TERR_REASON | VAT_TPASSES_COUNT | VAT_ACQ_WAIT_COUNT | GEO_STATUS_BINNING
  | GEO_STATUS_BIN_PART | GEO_STATUS_TILES | GEO_POOL_BASE_ADDR | GEO_PASS_STATE | GEO_PASS_CHUNKS
  | GEO_PASS_SEGMENTS | GEO_PASS_DRAWS | GEO_POOL_USE_PEAK | GEO_POOL_USE_NOW | GEO_GROW_ADDR_ADDR
  | GEO_GROW_CTRL_REQ | GEO_GROW_CTRL_OP | GEO_GROW_CTRL_RESULT | GEO_GROW_CTRL_SIZE
  | GEO_GROW_WANT_BYTES | GEO_COUNTS_BROKE | GEO_COUNTS_GROWN | GEO_COUNTS_FALLBACK
  | GEO_COUNTS_CAUSE | GEO_REFUSE_VALID | GEO_REFUSE_OP | GEO_REFUSE_REASON | CAL_RESULT_STATUS
  | CAL_HEAD_CTRL_HPD | CAL_HEAD_CTRL_TRAINED | CAL_HEAD_CTRL_FAIL | CAL_HEAD_CTRL_RATE
  | CAL_HEAD_CTRL_LANES | CAL_HEAD_CTRL_BPC10 | CAL_HEAD_CTRL_HPOL | CAL_HEAD_CTRL_VPOL
  | CAL_HEAD_CTRL_KHZ | CAL_TIMING_VSYNC_END | CAL_TIMING_VSYNC_START | CAL_TIMING_VTOTAL
  | CAL_TIMING_VACTIVE | CAL_TIMING_HSYNC_END | CAL_TIMING_HSYNC_START | CAL_TIMING_HTOTAL
  | CAL_TIMING_HACTIVE | CAL_LEAD_CYCLES | CAL_WALL_VALUE | CAL_WALL_HANDLE | CAL_COUNTS_HELD
  | CAL_COUNTS_REPLACED | CAL_PLANE_DST_H | CAL_PLANE_DST_W | CAL_PLANE_DST_Y | CAL_PLANE_DST_X
  | CAL_PLANE_SRC_H | CAL_PLANE_SRC_W | CAL_PLANE_STRIDE | CAL_PLANE_BASE | CAL_PLANE_CTRL_ARM
  | CAL_PLANE_CTRL_EN | CAL_PLANE_CTRL_FMT | CAL_PLANE_CTRL_ALPHA | CAL_PLANE_CTRL_ERR
  | GLB_VF_STATUS_READY | GLB_VF_STATUS_STATE | GLB_VF_STATUS_HOME | GLB_VF_STATUS_PART
  | GLB_WIN_BASE_ADDR | GLB_PCIE_LINK_SPEED | GLB_PCIE_LINK_WIDTH | GLB_PCIE_LINK_VF_EN
  | GLB_PCIE_LINK_NUMVFS | GLB_PCIE_LINK_BAR4 | GLB_FLR_STATUS_RUNNING | HB_PARSER_WDOG
  | HB_PARSER_ROUNDS | HB_Q_BASE_ADDR | HB_Q_CTRL_EN | HB_Q_CTRL_DESTROYING | HB_Q_CTRL_HALTED
  | HB_Q_CTRL_RESUME | HB_Q_CTRL_SIZE | HB_Q_READ_INDEX | HB_Q_ERR_STATUS | HB_Q_ERR_AT_MORE
  | HB_Q_ERR_AT_SLOT | HB_Q_MARK_VALUE | HB_PART_FAULT_STATUS | HB_PART_FAULT_AT_QUEUE
  | HB_PART_FAULT_AT_SLOT | HB_GRAPH_STORE_ADDR | HB_GRAPH_SIZE_UNITS | GLB_DEVRESET_STATUS_STATUS
  | GLB_DEVRESET_CTRL_REQUEST | GLB_DEVRESET_CTRL_DONE | GLB_DEVRESET_CTRL_COUNT
  | GLB_DEVRESET_CTRL_MERGED | SYN_OBJ_EXPORT | SYN_OBJ_WAITERS | SYN_OBJ_AUX | SYN_OBJ_VALUE
  | SYN_OBJ_TYPE | SYN_OBJ_STATE | SYN_OBJ_OWNER | SYN_OBJ_QBOUND | SYN_OBJ_QUEUE | HB_MO_EXPORT
  | HB_MO_HOLDERS | HB_MO_TAG | HB_MO_SIZE | HB_MO_STATE | HB_MO_OWNER | HB_MO_PENDING
  | HB_MO_BASE | HB_OBJ_CTRL_GO | HB_OBJ_CTRL_PENDING | HB_OBJ_CTRL_OP | HB_OBJ_CTRL_TYPE
  | HB_OBJ_CTRL_HANDLE | HB_OBJ_RESULT_STATUS | HB_OBJ_ARG_ARG3 | HB_OBJ_ARG_ARG2
  | HB_OBJ_ARG_ARG1 | HB_OBJ_ARG_ARG0 | HB_OBJ_HANDLE_HANDLE | HB_RECLAIM_GO | HB_RECLAIM_RUNNING
  | HB_HEAP_BASE_ADDR | HB_HEAP_STAT_FAILED | HB_HEAP_STAT_BADFREE | HB_USE_FELT | HB_USE_DRAM
  | HB_USE_BEATER | HB_USE_VAT | HB_MEM_POOL | HB_MEM_HEAP | HB_MEM_RESIDENT | HB_Q_DONE_INDEX
  | GLB_OBJ_QUOTA_SYN | GLB_OBJ_QUOTA_MO | EVQ_ROUTE_POWER | EVQ_ROUTE_DRAM_ERROR | EVQ_ROUTE_RING
  | EVQ_ROUTE_THERMAL | EVQ_BASE_ADDR | EVQ_CTRL_EN | EVQ_CTRL_OVF | EVQ_CTRL_SIZE
  | EVQ_WRITE_INDEX | EVQ_READ_INDEX | EVQ_MASK_MASK | EVQ_PEND_PEND | EVQ_DROPPED_COUNT
  | SCH_POOL_SLICE_UNITS | SCH_DEADLINE_ACTIVE | SCH_DEADLINE_LENT | SCH_DEADLINE_LEND
  | SCH_DEADLINE_NOLEND | SCH_CAP_PIXELS | SCH_CAP_FELT | SCH_CAP_L2 | SCH_CAP_DRAM
  | SCH_SAVE_BASE_ADDR | SCH_SAVE_SIZE_UNITS | SCH_SAVE_USE_BLOCKS | SCH_SAVE_USE_FULL
  | SCH_FAULT_STATUS | SCH_FAULT_CTRL_FAULTED | SCH_FAULT_CTRL_STOPPED | SCH_FAULT_CTRL_AUTO
  | SCH_FAULT_CTRL_MORE | SCH_PREEMPTS_COUNT | SCH_DL_CFG_BUDGET | SCH_DL_CFG_CHECK
  | SCH_DL_CFG_THRESH | SCH_DL_CFG_EN | SCH_DL_CFG_ABORT | SCH_DL_CFG_PART | SCH_DL_CFG_QUEUE
  | SCH_DL_CFG_FALLBACK | SCH_DL_CFG_MAIN | SCH_DL_STATE_FALLBACK | SCH_DL_STATE_ONTIME
  | SCH_DL_STATE_BEHIND | SCH_DL_STATE_LATE | SCH_SB_LIMIT_PIXELS | SCH_SB_LIMIT_FELT
  | SCH_SB_LIMIT_L2 | SCH_SB_LIMIT_DRAM | SCH_SB_CREDIT_PIXELS | SCH_SB_CREDIT_FELT
  | SCH_SB_CREDIT_L2 | SCH_SB_CREDIT_DRAM | SCH_SB_FLOOR_PIXELS | SCH_SB_FLOOR_FELT
  | SCH_SB_FLOOR_L2 | SCH_SB_FLOOR_DRAM | SCH_SB_HELD_COUNT | SCH_SB_OVER_UNITS
  | XLT_STATUS_MIG_USED | XLT_STATUS_WALKS | XLT_ROOT_ADDR | XLT_ROOT_EN | XLT_PATIENCE_CYCLES
  | XLT_INV_ADDR_ADDR | XLT_INV_DONE_BUSY | XLT_INV_DONE_MERGED | XLT_INV_DONE_SEQ
  | XLT_COUNTS_MIGRATIONS | XLT_COUNTS_PREFETCH_DROPPED | XLT_MIG_CTRL_GO | XLT_MIG_CTRL_OP
  | XLT_MIG_CTRL_RESULT | XLT_MIG_CTRL_INDEX | XLT_MIG_WAITERS | XLT_MIG_AGE | XLT_MIG_VPAGE
  | XLT_MIG_USED | XLT_MIG_RIGHTS | XLT_MIG_LEVEL | XLT_MIG_PART | L2_CTRL_EN | L2_PARITY_CLEAN
  | L2_STREAM_COUNT | MEM_DRAM_SIZE_BYTES | MEM_REGION_SIZE | MEM_REGION_BASE | MEM_REGION_CODE
  | MEM_REGION_STATE_SCRUB | MEM_MAINT_CTRL_GO | MEM_MAINT_CTRL_PENDING | MEM_MAINT_CTRL_OP
  | MEM_MAINT_CTRL_ACT | MEM_MAINT_CTRL_ARG | MEM_MAINT_RESULT_STATUS | MEM_MAINT_ADDR_ADDR
  | MEM_MAINT_STATE_WAITING | MEM_MAINT_STATE_RUNNING | MEM_SCRUB_CTRL_INTERVAL
  | MEM_SCRUB_STAT_PASSES | MEM_ERR_CTRL_CE_STEP | MEM_ERR_LOG_STATUS | MEM_ERR_LOG_MASK
  | MEM_ERR_LOG_VALID | MEM_ERR_LOG_SECTOR | MEM_ECC_COUNT_UE | MEM_ECC_COUNT_CE
  | MEM_SAVEALL_VALID | MEM_SAVEALL_BLOCK | MEM_SELFTEST_DONE | MEM_SELFTEST_FAIL
  | MEM_SELFTEST_CTRL | MEM_SELFTEST_VECTOR | PLP_ENGINE_BUSY | PLP_ENGINE_SLOT
  | PLP_ENGINE_CONCEALED | PLP_SLOT_EN | PLP_SLOT_CODEC | PLP_SLOT_OWNER | PLP_SLOT_BUSY
  | PLP_SLOT_QUEUE | PLP_SLOT_REFS | BAL_STATUS_BUSY | BAL_STATUS_DIR | BAL_STATUS_PART
  | BAL_STATUS_ERRORS | FLT_STATUS_MASTER | FLT_STATUS_LIVE | FLT_STATUS_ORPHAN
  | FLT_STATUS_CHANGING | FLT_STATUS_STRAP_ERR | FLT_STATUS_POS | FLT_STATUS_EPOCH
  | FLT_MEMBERS_REACH | FLT_MEMBERS_LIVE | FLT_CTRL_WITHDRAW | FLT_CTRL_REDISCOVER
  | FLT_TRANSIT_COUNT | FLT_PORT_STATE | FLT_PORT_ALIVE | FLT_PORT_WIDTH | FLT_PORT_PEER
  | FLT_PORT_RETRAINS | FLT_PORT_ERR_CRC | FLT_PORT_ERR_REPLAYS | FLT_FW_STAGE_ADDR
  | FLT_FW_STATUS_FAILED | FLT_FW_STATUS_DONE | PWR_STATUS_TRIPPED | PWR_STATUS_WORN
  | PWR_STATUS_PEAK | PWR_STATUS_CLASS | PWR_STATUS_LIMITED | PWR_STATUS_FAB | PWR_STATUS_VAT
  | PWR_STATUS_ARR | PWR_CLASS_PEAK | PWR_CLASS_CLASS | PWR_DVFS_BUSY | PWR_DVFS_VOP
  | PWR_DVFS_FOP | PWR_DVFS_RESULT_STATUS | PWR_LIMIT_TRIPS | PWR_LIMIT_CURRENT
  | PWR_LIMIT_THERMAL | PWR_LIMIT_POWER | PWR_RESERVE_RESERVE | PWR_RESERVE_AVG | PWR_TEMP_SENSOR
  | PWR_TEMP_TEMP | PWR_WEAR_SECONDS | PWR_DOM_CTRL_TARGET | PWR_DOM_CTRL_AUTO | PWR_DOM_CTRL_IDLE
  | PWR_DOM_STATE_STATE | PWR_DOM_STATE_REFUSER | PWR_DOM_STATE_ENTRIES | PWR_DOM_COUNT_REFUSED
  | PWR_DOM_COUNT_ABORTED | PWR_DOM_RESULT_STATUS | MGC_MBOX_CTRL_GO | MGC_MBOX_CTRL_PENDING
  | MGC_MBOX_CTRL_LOST | MGC_MBOX_CTRL_CMD | MGC_MBOX_ARG_ADDR | MGC_MBOX_RESULT_DETAIL
  | MGC_MBOX_RESULT_CAUSE | MGC_BOOT_STATUS_STAGE | MGC_BOOT_STATUS_SLOT | MGC_BOOT_STATUS_TRIAL
  | MGC_BOOT_STATUS_SVC_MODE | MGC_BOOT_STATUS_CAUSE | MGC_BOOT_STATUS_TRIES
  | MGC_BOOT_STATUS_STARTS | MGC_FW_VERSION_SETTINGS_FMT | MGC_FW_VERSION_FINALISER
  | MGC_FW_VERSION_FWVER | MGC_FW_INFO_SVN | MGC_FW_INFO_F | MGC_FW_INFO_IMG_REVOKE
  | MGC_FW_INFO_FNS_REVOKE | MGC_FW_INFO_ACTIVE | MGC_FW_INFO_STATE_A | MGC_FW_INFO_STATE_B
  | DBG_FREEZE_GO | DBG_FREEZE_KEY | DBG_FREEZE_STATUS_STATE | DBG_FREEZE_STATUS_SOURCE
  | DBG_FREEZE_STATUS_PIN | DBG_FREEZE_STATUS_STOPPED | DBG_FREEZE_STATUS_IGNORED
  | DBG_AP_BANK_SPACE | DBG_AP_BANK_UNIT | DBG_AP_STATUS_ERR | GLB_ID_PART | GLB_ID_GRADE
  | GLB_ID_STEPPING | GLB_GPIO_IN_LEVEL | GLB_GPIO_OUT_OE | GLB_GPIO_OUT_OUT | GLB_ZT2_COUNT
deriving DecidableEq, Repr

end Sys2Proof.Machine
end

