-- ==== Sys2Proof/Machine/RegTable.lean ====
section
/-!
DEFINITION. The register tables as data: where each register lies (R3, R4), its array strides, how a virtual function
sees it (R223, R224), and for each field its bits, its type (R8) and its reset value. Reset values that the tables do not
give as a number are 0 here and are read from the part of the state that holds them (`Sys2Proof/Machine/RegView.lean`).
-/

namespace Sys2Proof.Machine

/-- The field types of R8. -/
inductive FieldTy | rw | ro | rc | w1c | w1s | wo | rwl
deriving DecidableEq, Repr

/-- How a virtual function's BAR0 shows a register (R223, R224): not at all, as the partition's element of an array,
as the whole calender block, as a sync object, or only there (GLB_VF_STATUS). -/
inductive RegViewKind | pfOnly | part | whole | syn | vfOnly
deriving DecidableEq, Repr

/-- The address of a register (array) in BAR0: base, words, and two array dimensions (count, stride). -/
structure RegSpec where
  base : Nat
  words : Nat
  n1 : Nat
  s1 : Nat
  n2 : Nat
  s2 : Nat
  view : RegViewKind
deriving DecidableEq, Repr

/-- A field of a register: its register, bits [hi:lo], type and reset value. -/
structure FieldSpec where
  reg : Reg
  hi : Nat
  lo : Nat
  ty : FieldTy
  reset : Nat
deriving DecidableEq, Repr

/-- Where each register lies (the "BAR0 + …" line above each register table). -/
def Reg.spec : Reg → RegSpec
  | .GLB_FURNISH_STATUS => ⟨0x1000, 1, 1, 0x0, 1, 0x0, .pfOnly⟩
  | .GLB_LOAD_RESULT => ⟨0x1004, 1, 1, 0x0, 1, 0x0, .pfOnly⟩
  | .GLB_LOAD_AUX => ⟨0x1008, 1, 1, 0x0, 1, 0x0, .pfOnly⟩
  | .GLB_FURNISH_GEN => ⟨0x1010, 2, 1, 0x0, 1, 0x0, .pfOnly⟩
  | .GLB_LOAD_ADDR => ⟨0x1018, 2, 1, 0x0, 1, 0x0, .pfOnly⟩
  | .GLB_LOAD_CTRL => ⟨0x1020, 1, 1, 0x0, 1, 0x0, .pfOnly⟩
  | .GLB_FUNC_CTRL => ⟨0x1024, 1, 1, 0x0, 1, 0x0, .pfOnly⟩
  | .GLB_FUNC_RESULT => ⟨0x1028, 1, 1, 0x0, 1, 0x0, .pfOnly⟩
  | .GLB_FUNC_STATE => ⟨0x1100, 1, 39, 0x4, 1, 0x0, .pfOnly⟩
  | .GLB_CLAIM_CTRL => ⟨0x102C, 1, 1, 0x0, 1, 0x0, .pfOnly⟩
  | .GLB_CLAIM_RESULT => ⟨0x1030, 1, 1, 0x0, 1, 0x0, .pfOnly⟩
  | .VAT_STATUS => ⟨0x1000000, 1, 64, 0x40000, 1, 0x0, .pfOnly⟩
  | .VAT_SPLIT => ⟨0x1000004, 1, 64, 0x40000, 1, 0x0, .pfOnly⟩
  | .VAT_FAULT_WHO => ⟨0x1000010, 1, 64, 0x40000, 1, 0x0, .pfOnly⟩
  | .VAT_FAULT_STATUS => ⟨0x1000014, 1, 64, 0x40000, 1, 0x0, .pfOnly⟩
  | .VAT_FAULT_PC => ⟨0x1000018, 2, 64, 0x40000, 1, 0x0, .pfOnly⟩
  | .VAT_FAULT_LANES => ⟨0x1000020, 1, 64, 0x40000, 1, 0x0, .pfOnly⟩
  | .VAT_ISSUED => ⟨0x1000030, 2, 64, 0x40000, 1, 0x0, .pfOnly⟩
  | .VAT_RC_HITS => ⟨0x1000038, 1, 64, 0x40000, 1, 0x0, .pfOnly⟩
  | .VAT_BANK_STALLS => ⟨0x100003C, 1, 64, 0x40000, 1, 0x0, .pfOnly⟩
  | .VAT_BEATER => ⟨0x1000040, 1, 64, 0x40000, 1, 0x0, .pfOnly⟩
  | .VAT_TERR => ⟨0x1000044, 1, 64, 0x40000, 1, 0x0, .pfOnly⟩
  | .VAT_TPASSES => ⟨0x1000048, 2, 64, 0x40000, 1, 0x0, .pfOnly⟩
  | .VAT_ACQ_WAIT => ⟨0x1000050, 1, 64, 0x40000, 1, 0x0, .pfOnly⟩
  | .GEO_STATUS => ⟨0x800000, 1, 1, 0x0, 1, 0x0, .pfOnly⟩
  | .GEO_POOL_BASE => ⟨0x801000, 2, 32, 0x100, 1, 0x0, .part⟩
  | .GEO_PASS => ⟨0x801008, 1, 32, 0x100, 1, 0x0, .part⟩
  | .GEO_POOL_USE => ⟨0x80100C, 1, 32, 0x100, 1, 0x0, .part⟩
  | .GEO_GROW_ADDR => ⟨0x801010, 2, 32, 0x100, 1, 0x0, .part⟩
  | .GEO_GROW_CTRL => ⟨0x801018, 1, 32, 0x100, 1, 0x0, .part⟩
  | .GEO_GROW_WANT => ⟨0x80101C, 1, 32, 0x100, 1, 0x0, .part⟩
  | .GEO_COUNTS => ⟨0x801020, 1, 32, 0x100, 1, 0x0, .part⟩
  | .GEO_REFUSE => ⟨0x801028, 1, 32, 0x100, 1, 0x0, .part⟩
  | .CAL_RESULT => ⟨0xB00008, 1, 1, 0x0, 1, 0x0, .whole⟩
  | .CAL_HEAD_CTRL => ⟨0xB01000, 1, 2, 0x1000, 1, 0x0, .whole⟩
  | .CAL_TIMING => ⟨0xB01010, 4, 2, 0x1000, 1, 0x0, .whole⟩
  | .CAL_LEAD => ⟨0xB01020, 1, 2, 0x1000, 1, 0x0, .whole⟩
  | .CAL_WALL => ⟨0xB01028, 4, 2, 0x1000, 1, 0x0, .whole⟩
  | .CAL_COUNTS => ⟨0xB01038, 1, 2, 0x1000, 1, 0x0, .whole⟩
  | .CAL_PLANE => ⟨0xB01100, 5, 2, 0x1000, 4, 0x20, .whole⟩
  | .CAL_PLANE_CTRL => ⟨0xB01114, 1, 2, 0x1000, 4, 0x20, .whole⟩
  | .GLB_VF_STATUS => ⟨0x0, 1, 1, 0x0, 1, 0x0, .vfOnly⟩
  | .GLB_WIN_BASE => ⟨0x2000, 2, 1, 0x0, 1, 0x0, .pfOnly⟩
  | .GLB_PCIE_LINK => ⟨0x2008, 1, 1, 0x0, 1, 0x0, .pfOnly⟩
  | .GLB_FLR_STATUS => ⟨0x2010, 1, 1, 0x0, 1, 0x0, .pfOnly⟩
  | .HB_PARSER => ⟨0x100000, 1, 1, 0x0, 1, 0x0, .pfOnly⟩
  | .HB_Q_BASE => ⟨0x101000, 2, 32, 0x400, 16, 0x20, .part⟩
  | .HB_Q_CTRL => ⟨0x101008, 1, 32, 0x400, 16, 0x20, .part⟩
  | .HB_Q_READ => ⟨0x10100C, 1, 32, 0x400, 16, 0x20, .part⟩
  | .HB_Q_ERR => ⟨0x101010, 1, 32, 0x400, 16, 0x20, .part⟩
  | .HB_Q_ERR_AT => ⟨0x101014, 1, 32, 0x400, 16, 0x20, .part⟩
  | .HB_Q_MARK => ⟨0x101018, 2, 32, 0x400, 16, 0x20, .part⟩
  | .HB_PART_FAULT => ⟨0x101200, 1, 32, 0x400, 1, 0x0, .part⟩
  | .HB_PART_FAULT_AT => ⟨0x101204, 1, 32, 0x400, 1, 0x0, .part⟩
  | .HB_GRAPH_STORE => ⟨0x101208, 2, 32, 0x400, 1, 0x0, .part⟩
  | .HB_GRAPH_SIZE => ⟨0x101210, 1, 32, 0x400, 1, 0x0, .part⟩
  | .GLB_DEVRESET_STATUS => ⟨0x3000, 1, 1, 0x0, 1, 0x0, .pfOnly⟩
  | .GLB_DEVRESET_CTRL => ⟨0x3004, 1, 1, 0x0, 1, 0x0, .pfOnly⟩
  | .SYN_OBJ => ⟨0x300000, 8, 16384, 0x20, 1, 0x0, .syn⟩
  | .HB_MO => ⟨0x110000, 8, 4096, 0x20, 1, 0x0, .pfOnly⟩
  | .HB_OBJ_CTRL => ⟨0x101220, 1, 32, 0x400, 1, 0x0, .part⟩
  | .HB_OBJ_RESULT => ⟨0x101224, 1, 32, 0x400, 1, 0x0, .part⟩
  | .HB_OBJ_ARG => ⟨0x101228, 8, 32, 0x400, 1, 0x0, .part⟩
  | .HB_OBJ_HANDLE => ⟨0x101248, 1, 32, 0x400, 1, 0x0, .part⟩
  | .HB_RECLAIM => ⟨0x10124C, 1, 32, 0x400, 1, 0x0, .part⟩
  | .HB_HEAP_BASE => ⟨0x101250, 2, 32, 0x400, 1, 0x0, .part⟩
  | .HB_HEAP_STAT => ⟨0x101258, 1, 32, 0x400, 1, 0x0, .part⟩
  | .HB_USE => ⟨0x101280, 8, 32, 0x400, 1, 0x0, .part⟩
  | .HB_MEM => ⟨0x1012A0, 6, 32, 0x400, 1, 0x0, .part⟩
  | .HB_Q_DONE => ⟨0x101300, 1, 32, 0x400, 16, 0x4, .part⟩
  | .GLB_OBJ_QUOTA => ⟨0x4000, 1, 32, 0x4, 1, 0x0, .pfOnly⟩
  | .EVQ_ROUTE => ⟨0x400000, 1, 1, 0x0, 1, 0x0, .pfOnly⟩
  | .EVQ_BASE => ⟨0x401000, 2, 34, 0x40, 1, 0x0, .part⟩
  | .EVQ_CTRL => ⟨0x401008, 1, 34, 0x40, 1, 0x0, .part⟩
  | .EVQ_WRITE => ⟨0x40100C, 1, 34, 0x40, 1, 0x0, .part⟩
  | .EVQ_READ => ⟨0x401010, 1, 34, 0x40, 1, 0x0, .part⟩
  | .EVQ_MASK => ⟨0x401014, 1, 34, 0x40, 1, 0x0, .part⟩
  | .EVQ_PEND => ⟨0x401018, 1, 34, 0x40, 1, 0x0, .part⟩
  | .EVQ_DROPPED => ⟨0x40101C, 1, 34, 0x40, 1, 0x0, .part⟩
  | .SCH_POOL_SLICE => ⟨0x200000, 1, 1, 0x0, 1, 0x0, .pfOnly⟩
  | .SCH_DEADLINE => ⟨0x200004, 1, 1, 0x0, 1, 0x0, .pfOnly⟩
  | .SCH_CAP => ⟨0x200010, 4, 1, 0x0, 1, 0x0, .pfOnly⟩
  | .SCH_SAVE_BASE => ⟨0x201000, 2, 32, 0x40, 1, 0x0, .part⟩
  | .SCH_SAVE_SIZE => ⟨0x201008, 1, 32, 0x40, 1, 0x0, .part⟩
  | .SCH_SAVE_USE => ⟨0x20100C, 1, 32, 0x40, 1, 0x0, .part⟩
  | .SCH_FAULT => ⟨0x201010, 1, 32, 0x40, 1, 0x0, .part⟩
  | .SCH_FAULT_CTRL => ⟨0x201014, 1, 32, 0x40, 1, 0x0, .part⟩
  | .SCH_PREEMPTS => ⟨0x201018, 1, 32, 0x40, 1, 0x0, .part⟩
  | .SCH_DL_CFG => ⟨0x202000, 4, 64, 0x20, 1, 0x0, .pfOnly⟩
  | .SCH_DL_STATE => ⟨0x202010, 1, 64, 0x20, 1, 0x0, .pfOnly⟩
  | .SCH_SB_LIMIT => ⟨0x204000, 4, 40, 0x40, 1, 0x0, .part⟩
  | .SCH_SB_CREDIT => ⟨0x204010, 4, 40, 0x40, 1, 0x0, .part⟩
  | .SCH_SB_FLOOR => ⟨0x204020, 1, 40, 0x40, 1, 0x0, .part⟩
  | .SCH_SB_HELD => ⟨0x204024, 1, 40, 0x40, 1, 0x0, .part⟩
  | .SCH_SB_OVER => ⟨0x204028, 1, 40, 0x40, 1, 0x0, .part⟩
  | .XLT_STATUS => ⟨0x500000, 1, 1, 0x0, 1, 0x0, .pfOnly⟩
  | .XLT_ROOT => ⟨0x501000, 2, 32, 0x40, 1, 0x0, .part⟩
  | .XLT_PATIENCE => ⟨0x501008, 1, 32, 0x40, 1, 0x0, .part⟩
  | .XLT_INV_ADDR => ⟨0x501010, 2, 32, 0x40, 1, 0x0, .part⟩
  | .XLT_INV_DONE => ⟨0x501018, 1, 32, 0x40, 1, 0x0, .part⟩
  | .XLT_COUNTS => ⟨0x50101C, 1, 32, 0x40, 1, 0x0, .part⟩
  | .XLT_MIG_CTRL => ⟨0x501020, 1, 32, 0x40, 1, 0x0, .part⟩
  | .XLT_MIG => ⟨0x502000, 4, 64, 0x10, 1, 0x0, .pfOnly⟩
  | .L2_CTRL => ⟨0x600000, 1, 1, 0x0, 1, 0x0, .pfOnly⟩
  | .L2_PARITY => ⟨0x600004, 1, 1, 0x0, 1, 0x0, .pfOnly⟩
  | .L2_STREAM => ⟨0x600008, 1, 1, 0x0, 1, 0x0, .pfOnly⟩
  | .MEM_DRAM_SIZE => ⟨0x700000, 2, 1, 0x0, 1, 0x0, .pfOnly⟩
  | .MEM_REGION => ⟨0x701000, 4, 16, 0x20, 1, 0x0, .pfOnly⟩
  | .MEM_REGION_STATE => ⟨0x701010, 1, 16, 0x20, 1, 0x0, .pfOnly⟩
  | .MEM_MAINT_CTRL => ⟨0x702000, 1, 1, 0x0, 1, 0x0, .pfOnly⟩
  | .MEM_MAINT_RESULT => ⟨0x702004, 1, 1, 0x0, 1, 0x0, .pfOnly⟩
  | .MEM_MAINT_ADDR => ⟨0x702008, 2, 1, 0x0, 1, 0x0, .pfOnly⟩
  | .MEM_MAINT_STATE => ⟨0x702010, 1, 1, 0x0, 1, 0x0, .pfOnly⟩
  | .MEM_SCRUB_CTRL => ⟨0x702020, 1, 1, 0x0, 1, 0x0, .pfOnly⟩
  | .MEM_SCRUB_STAT => ⟨0x702024, 1, 1, 0x0, 1, 0x0, .pfOnly⟩
  | .MEM_ERR_CTRL => ⟨0x702030, 1, 1, 0x0, 1, 0x0, .pfOnly⟩
  | .MEM_ERR_LOG => ⟨0x702040, 4, 1, 0x0, 1, 0x0, .pfOnly⟩
  | .MEM_ECC_COUNT => ⟨0x703000, 2, 12, 0x8, 1, 0x0, .pfOnly⟩
  | .MEM_SAVEALL => ⟨0x704000, 1, 12, 0x40, 8, 0x4, .pfOnly⟩
  | .MEM_SELFTEST => ⟨0x705000, 1, 1, 0x0, 1, 0x0, .pfOnly⟩
  | .PLP_ENGINE => ⟨0x900000, 1, 4, 0x4, 1, 0x0, .pfOnly⟩
  | .PLP_SLOT => ⟨0x901000, 1, 48, 0x10, 1, 0x0, .pfOnly⟩
  | .BAL_STATUS => ⟨0xA00000, 1, 1, 0x0, 1, 0x0, .pfOnly⟩
  | .FLT_STATUS => ⟨0xC00000, 1, 1, 0x0, 1, 0x0, .pfOnly⟩
  | .FLT_MEMBERS => ⟨0xC00004, 1, 1, 0x0, 1, 0x0, .pfOnly⟩
  | .FLT_CTRL => ⟨0xC00008, 1, 1, 0x0, 1, 0x0, .pfOnly⟩
  | .FLT_TRANSIT => ⟨0xC00010, 2, 1, 0x0, 1, 0x0, .pfOnly⟩
  | .FLT_PORT => ⟨0xC00100, 1, 2, 0x40, 1, 0x0, .pfOnly⟩
  | .FLT_PORT_ERR => ⟨0xC00104, 1, 2, 0x40, 1, 0x0, .pfOnly⟩
  | .FLT_FW_STAGE => ⟨0xC00200, 2, 1, 0x0, 1, 0x0, .pfOnly⟩
  | .FLT_FW_STATUS => ⟨0xC00208, 1, 1, 0x0, 1, 0x0, .pfOnly⟩
  | .PWR_STATUS => ⟨0xD00000, 1, 1, 0x0, 1, 0x0, .pfOnly⟩
  | .PWR_CLASS => ⟨0xD00004, 1, 1, 0x0, 1, 0x0, .pfOnly⟩
  | .PWR_DVFS => ⟨0xD00010, 1, 3, 0x4, 1, 0x0, .pfOnly⟩
  | .PWR_DVFS_RESULT => ⟨0xD00020, 1, 3, 0x4, 1, 0x0, .pfOnly⟩
  | .PWR_LIMIT => ⟨0xD00030, 1, 1, 0x0, 1, 0x0, .pfOnly⟩
  | .PWR_RESERVE => ⟨0xD00034, 1, 1, 0x0, 1, 0x0, .pfOnly⟩
  | .PWR_TEMP => ⟨0xD00038, 1, 1, 0x0, 1, 0x0, .pfOnly⟩
  | .PWR_WEAR => ⟨0xD0003C, 1, 1, 0x0, 1, 0x0, .pfOnly⟩
  | .PWR_DOM_CTRL => ⟨0xD01000, 1, 105, 0x10, 1, 0x0, .pfOnly⟩
  | .PWR_DOM_STATE => ⟨0xD01004, 1, 105, 0x10, 1, 0x0, .pfOnly⟩
  | .PWR_DOM_COUNT => ⟨0xD01008, 1, 105, 0x10, 1, 0x0, .pfOnly⟩
  | .PWR_DOM_RESULT => ⟨0xD0100C, 1, 105, 0x10, 1, 0x0, .pfOnly⟩
  | .MGC_MBOX_CTRL => ⟨0xE00000, 1, 1, 0x0, 1, 0x0, .pfOnly⟩
  | .MGC_MBOX_ARG => ⟨0xE00008, 2, 1, 0x0, 1, 0x0, .pfOnly⟩
  | .MGC_MBOX_RESULT => ⟨0xE00010, 1, 1, 0x0, 1, 0x0, .pfOnly⟩
  | .MGC_BOOT_STATUS => ⟨0xE00020, 1, 1, 0x0, 1, 0x0, .pfOnly⟩
  | .MGC_FW_VERSION => ⟨0xE00028, 4, 1, 0x0, 1, 0x0, .pfOnly⟩
  | .MGC_FW_INFO => ⟨0xE00038, 1, 1, 0x0, 1, 0x0, .pfOnly⟩
  | .DBG_FREEZE => ⟨0xF00000, 1, 1, 0x0, 1, 0x0, .pfOnly⟩
  | .DBG_FREEZE_STATUS => ⟨0xF00004, 1, 1, 0x0, 1, 0x0, .pfOnly⟩
  | .DBG_AP_BANK => ⟨0xF00010, 1, 1, 0x0, 1, 0x0, .pfOnly⟩
  | .DBG_AP_STATUS => ⟨0xF00014, 1, 1, 0x0, 1, 0x0, .pfOnly⟩
  | .GLB_ID => ⟨0x0, 1, 1, 0x0, 1, 0x0, .pfOnly⟩
  | .GLB_GPIO_IN => ⟨0x5000, 1, 1, 0x0, 1, 0x0, .pfOnly⟩
  | .GLB_GPIO_OUT => ⟨0x5004, 1, 1, 0x0, 1, 0x0, .pfOnly⟩
  | .GLB_ZT2 => ⟨0x5008, 1, 1, 0x0, 1, 0x0, .pfOnly⟩

/-- The rows of each register table: bits, type and reset value of each field. -/
def Field.spec : Field → FieldSpec
  | .GLB_FURNISH_STATUS_LOCKED => ⟨.GLB_FURNISH_STATUS, 31, 31, .ro, 0⟩
  | .GLB_FURNISH_STATUS_NULL => ⟨.GLB_FURNISH_STATUS, 30, 30, .ro, 0⟩
  | .GLB_FURNISH_STATUS_SOURCE => ⟨.GLB_FURNISH_STATUS, 29, 28, .ro, 3⟩
  | .GLB_FURNISH_STATUS_MASTER => ⟨.GLB_FURNISH_STATUS, 27, 24, .ro, 0⟩
  | .GLB_FURNISH_STATUS_DELTAS => ⟨.GLB_FURNISH_STATUS, 23, 16, .ro, 0⟩
  | .GLB_FURNISH_STATUS_RECORDS => ⟨.GLB_FURNISH_STATUS, 15, 0, .ro, 0⟩
  | .GLB_LOAD_RESULT_STATUS => ⟨.GLB_LOAD_RESULT, 31, 0, .ro, 0⟩
  | .GLB_LOAD_AUX_RESOURCE => ⟨.GLB_LOAD_AUX, 31, 24, .ro, 0⟩
  | .GLB_LOAD_AUX_RECORD => ⟨.GLB_LOAD_AUX, 15, 0, .ro, 0⟩
  | .GLB_FURNISH_GEN_GENERATION => ⟨.GLB_FURNISH_GEN, 63, 0, .ro, 0⟩
  | .GLB_LOAD_ADDR_ADDR => ⟨.GLB_LOAD_ADDR, 47, 3, .rw, 0⟩
  | .GLB_LOAD_CTRL_GO => ⟨.GLB_LOAD_CTRL, 31, 31, .wo, 0⟩
  | .GLB_LOAD_CTRL_PENDING => ⟨.GLB_LOAD_CTRL, 30, 30, .ro, 0⟩
  | .GLB_LOAD_CTRL_KIND => ⟨.GLB_LOAD_CTRL, 0, 0, .rw, 0⟩
  | .GLB_FUNC_CTRL_GO => ⟨.GLB_FUNC_CTRL, 31, 31, .wo, 0⟩
  | .GLB_FUNC_CTRL_PENDING => ⟨.GLB_FUNC_CTRL, 30, 30, .ro, 0⟩
  | .GLB_FUNC_CTRL_OP => ⟨.GLB_FUNC_CTRL, 29, 28, .rw, 0⟩
  | .GLB_FUNC_CTRL_KIND => ⟨.GLB_FUNC_CTRL, 27, 24, .rw, 0⟩
  | .GLB_FUNC_CTRL_INDEX => ⟨.GLB_FUNC_CTRL, 7, 0, .rw, 0⟩
  | .GLB_FUNC_RESULT_STATUS => ⟨.GLB_FUNC_RESULT, 31, 0, .ro, 0⟩
  | .GLB_FUNC_STATE_DRAINED => ⟨.GLB_FUNC_STATE, 4, 4, .ro, 0⟩
  | .GLB_FUNC_STATE_STATE => ⟨.GLB_FUNC_STATE, 2, 0, .ro, 4⟩
  | .GLB_CLAIM_CTRL_GO => ⟨.GLB_CLAIM_CTRL, 31, 31, .wo, 0⟩
  | .GLB_CLAIM_CTRL_PENDING => ⟨.GLB_CLAIM_CTRL, 30, 30, .ro, 0⟩
  | .GLB_CLAIM_CTRL_OP => ⟨.GLB_CLAIM_CTRL, 29, 28, .rw, 0⟩
  | .GLB_CLAIM_CTRL_FEATURE => ⟨.GLB_CLAIM_CTRL, 15, 8, .rw, 0⟩
  | .GLB_CLAIM_CTRL_RESOURCE => ⟨.GLB_CLAIM_CTRL, 7, 0, .rw, 0⟩
  | .GLB_CLAIM_RESULT_STATUS => ⟨.GLB_CLAIM_RESULT, 31, 0, .ro, 0⟩
  | .VAT_STATUS_STATE => ⟨.VAT_STATUS, 31, 29, .ro, 0⟩
  | .VAT_STATUS_MODE => ⟨.VAT_STATUS, 28, 28, .ro, 0⟩
  | .VAT_STATUS_PART => ⟨.VAT_STATUS, 27, 23, .ro, 0⟩
  | .VAT_STATUS_POOLED => ⟨.VAT_STATUS, 22, 22, .ro, 0⟩
  | .VAT_STATUS_QUIRES => ⟨.VAT_STATUS, 21, 15, .ro, 0⟩
  | .VAT_STATUS_BLOCKS => ⟨.VAT_STATUS, 14, 8, .ro, 0⟩
  | .VAT_SPLIT_BEATER => ⟨.VAT_SPLIT, 28, 24, .ro, 0⟩
  | .VAT_SPLIT_TILE => ⟨.VAT_SPLIT, 20, 16, .ro, 0⟩
  | .VAT_SPLIT_LOCAL => ⟨.VAT_SPLIT, 12, 8, .ro, 0⟩
  | .VAT_SPLIT_L1 => ⟨.VAT_SPLIT, 4, 0, .ro, 0x10⟩
  | .VAT_FAULT_WHO_VALID => ⟨.VAT_FAULT_WHO, 31, 31, .w1c, 0⟩
  | .VAT_FAULT_WHO_PART => ⟨.VAT_FAULT_WHO, 30, 26, .ro, 0⟩
  | .VAT_FAULT_WHO_QUIRE => ⟨.VAT_FAULT_WHO, 25, 20, .ro, 0⟩
  | .VAT_FAULT_WHO_BLOCK => ⟨.VAT_FAULT_WHO, 19, 14, .ro, 0⟩
  | .VAT_FAULT_WHO_MORE => ⟨.VAT_FAULT_WHO, 13, 8, .ro, 0⟩
  | .VAT_FAULT_STATUS_STATUS => ⟨.VAT_FAULT_STATUS, 31, 0, .ro, 0⟩
  | .VAT_FAULT_PC_PC => ⟨.VAT_FAULT_PC, 47, 3, .ro, 0⟩
  | .VAT_FAULT_LANES_LANES => ⟨.VAT_FAULT_LANES, 31, 0, .ro, 0⟩
  | .VAT_ISSUED_COUNT => ⟨.VAT_ISSUED, 63, 0, .rc, 0⟩
  | .VAT_RC_HITS_COUNT => ⟨.VAT_RC_HITS, 31, 0, .rc, 0⟩
  | .VAT_BANK_STALLS_COUNT => ⟨.VAT_BANK_STALLS, 31, 0, .rc, 0⟩
  | .VAT_BEATER_SET1_HELD => ⟨.VAT_BEATER, 31, 31, .ro, 0⟩
  | .VAT_BEATER_SET1_INT => ⟨.VAT_BEATER, 30, 30, .ro, 0⟩
  | .VAT_BEATER_SET1_QUIRE => ⟨.VAT_BEATER, 29, 24, .ro, 0⟩
  | .VAT_BEATER_SET0_HELD => ⟨.VAT_BEATER, 23, 23, .ro, 0⟩
  | .VAT_BEATER_SET0_INT => ⟨.VAT_BEATER, 22, 22, .ro, 0⟩
  | .VAT_BEATER_SET0_QUIRE => ⟨.VAT_BEATER, 21, 16, .ro, 0⟩
  | .VAT_BEATER_WAITING => ⟨.VAT_BEATER, 15, 9, .ro, 0⟩
  | .VAT_BEATER_BUSY => ⟨.VAT_BEATER, 8, 8, .ro, 0⟩
  | .VAT_BEATER_QUEUED => ⟨.VAT_BEATER, 7, 0, .ro, 0⟩
  | .VAT_TERR_VALID => ⟨.VAT_TERR, 31, 31, .w1c, 0⟩
  | .VAT_TERR_OP => ⟨.VAT_TERR, 23, 16, .ro, 0⟩
  | .VAT_TERR_QUIRE => ⟨.VAT_TERR, 13, 8, .ro, 0⟩
  | .VAT_TERR_REASON => ⟨.VAT_TERR, 7, 0, .ro, 0⟩
  | .VAT_TPASSES_COUNT => ⟨.VAT_TPASSES, 63, 0, .rc, 0⟩
  | .VAT_ACQ_WAIT_COUNT => ⟨.VAT_ACQ_WAIT, 31, 0, .rc, 0⟩
  | .GEO_STATUS_BINNING => ⟨.GEO_STATUS, 31, 31, .ro, 0⟩
  | .GEO_STATUS_BIN_PART => ⟨.GEO_STATUS, 30, 26, .ro, 0⟩
  | .GEO_STATUS_TILES => ⟨.GEO_STATUS, 15, 0, .ro, 0⟩
  | .GEO_POOL_BASE_ADDR => ⟨.GEO_POOL_BASE, 47, 21, .rw, 0⟩
  | .GEO_PASS_STATE => ⟨.GEO_PASS, 31, 29, .ro, 0⟩
  | .GEO_PASS_CHUNKS => ⟨.GEO_PASS, 28, 24, .ro, 0⟩
  | .GEO_PASS_SEGMENTS => ⟨.GEO_PASS, 23, 16, .ro, 0⟩
  | .GEO_PASS_DRAWS => ⟨.GEO_PASS, 11, 0, .ro, 0⟩
  | .GEO_POOL_USE_PEAK => ⟨.GEO_POOL_USE, 31, 16, .ro, 0⟩
  | .GEO_POOL_USE_NOW => ⟨.GEO_POOL_USE, 15, 0, .ro, 0⟩
  | .GEO_GROW_ADDR_ADDR => ⟨.GEO_GROW_ADDR, 47, 21, .rw, 0⟩
  | .GEO_GROW_CTRL_REQ => ⟨.GEO_GROW_CTRL, 31, 31, .ro, 0⟩
  | .GEO_GROW_CTRL_OP => ⟨.GEO_GROW_CTRL, 30, 29, .wo, 0⟩
  | .GEO_GROW_CTRL_RESULT => ⟨.GEO_GROW_CTRL, 23, 16, .ro, 0⟩
  | .GEO_GROW_CTRL_SIZE => ⟨.GEO_GROW_CTRL, 5, 0, .rw, 0⟩
  | .GEO_GROW_WANT_BYTES => ⟨.GEO_GROW_WANT, 31, 0, .ro, 0⟩
  | .GEO_COUNTS_BROKE => ⟨.GEO_COUNTS, 31, 24, .rc, 0⟩
  | .GEO_COUNTS_GROWN => ⟨.GEO_COUNTS, 23, 16, .rc, 0⟩
  | .GEO_COUNTS_FALLBACK => ⟨.GEO_COUNTS, 15, 8, .rc, 0⟩
  | .GEO_COUNTS_CAUSE => ⟨.GEO_COUNTS, 1, 0, .ro, 0⟩
  | .GEO_REFUSE_VALID => ⟨.GEO_REFUSE, 31, 31, .w1c, 0⟩
  | .GEO_REFUSE_OP => ⟨.GEO_REFUSE, 23, 16, .ro, 0⟩
  | .GEO_REFUSE_REASON => ⟨.GEO_REFUSE, 7, 0, .ro, 0⟩
  | .CAL_RESULT_STATUS => ⟨.CAL_RESULT, 31, 0, .ro, 0⟩
  | .CAL_HEAD_CTRL_HPD => ⟨.CAL_HEAD_CTRL, 31, 31, .ro, 0⟩
  | .CAL_HEAD_CTRL_TRAINED => ⟨.CAL_HEAD_CTRL, 30, 30, .ro, 0⟩
  | .CAL_HEAD_CTRL_FAIL => ⟨.CAL_HEAD_CTRL, 29, 29, .ro, 0⟩
  | .CAL_HEAD_CTRL_RATE => ⟨.CAL_HEAD_CTRL, 27, 26, .rw, 3⟩
  | .CAL_HEAD_CTRL_LANES => ⟨.CAL_HEAD_CTRL, 25, 24, .rw, 2⟩
  | .CAL_HEAD_CTRL_BPC10 => ⟨.CAL_HEAD_CTRL, 23, 23, .rw, 0⟩
  | .CAL_HEAD_CTRL_HPOL => ⟨.CAL_HEAD_CTRL, 22, 22, .rw, 0⟩
  | .CAL_HEAD_CTRL_VPOL => ⟨.CAL_HEAD_CTRL, 21, 21, .rw, 0⟩
  | .CAL_HEAD_CTRL_KHZ => ⟨.CAL_HEAD_CTRL, 19, 0, .rw, 0⟩
  | .CAL_TIMING_VSYNC_END => ⟨.CAL_TIMING, 127, 112, .rw, 0⟩
  | .CAL_TIMING_VSYNC_START => ⟨.CAL_TIMING, 111, 96, .rw, 0⟩
  | .CAL_TIMING_VTOTAL => ⟨.CAL_TIMING, 95, 80, .rw, 0⟩
  | .CAL_TIMING_VACTIVE => ⟨.CAL_TIMING, 79, 64, .rw, 0⟩
  | .CAL_TIMING_HSYNC_END => ⟨.CAL_TIMING, 63, 48, .rw, 0⟩
  | .CAL_TIMING_HSYNC_START => ⟨.CAL_TIMING, 47, 32, .rw, 0⟩
  | .CAL_TIMING_HTOTAL => ⟨.CAL_TIMING, 31, 16, .rw, 0⟩
  | .CAL_TIMING_HACTIVE => ⟨.CAL_TIMING, 15, 0, .rw, 0⟩
  | .CAL_LEAD_CYCLES => ⟨.CAL_LEAD, 31, 0, .rw, 0⟩
  | .CAL_WALL_VALUE => ⟨.CAL_WALL, 127, 64, .rw, 0⟩
  | .CAL_WALL_HANDLE => ⟨.CAL_WALL, 13, 0, .rw, 0⟩
  | .CAL_COUNTS_HELD => ⟨.CAL_COUNTS, 31, 16, .rc, 0⟩
  | .CAL_COUNTS_REPLACED => ⟨.CAL_COUNTS, 15, 0, .rc, 0⟩
  | .CAL_PLANE_DST_H => ⟨.CAL_PLANE, 156, 144, .rw, 0⟩
  | .CAL_PLANE_DST_W => ⟨.CAL_PLANE, 140, 128, .rw, 0⟩
  | .CAL_PLANE_DST_Y => ⟨.CAL_PLANE, 124, 112, .rw, 0⟩
  | .CAL_PLANE_DST_X => ⟨.CAL_PLANE, 108, 96, .rw, 0⟩
  | .CAL_PLANE_SRC_H => ⟨.CAL_PLANE, 92, 80, .rw, 0⟩
  | .CAL_PLANE_SRC_W => ⟨.CAL_PLANE, 76, 64, .rw, 0⟩
  | .CAL_PLANE_STRIDE => ⟨.CAL_PLANE, 63, 48, .rw, 0⟩
  | .CAL_PLANE_BASE => ⟨.CAL_PLANE, 47, 8, .rw, 0⟩
  | .CAL_PLANE_CTRL_ARM => ⟨.CAL_PLANE_CTRL, 31, 31, .w1s, 0⟩
  | .CAL_PLANE_CTRL_EN => ⟨.CAL_PLANE_CTRL, 30, 30, .rw, 0⟩
  | .CAL_PLANE_CTRL_FMT => ⟨.CAL_PLANE_CTRL, 29, 28, .rw, 0⟩
  | .CAL_PLANE_CTRL_ALPHA => ⟨.CAL_PLANE_CTRL, 27, 20, .rw, 0xff⟩
  | .CAL_PLANE_CTRL_ERR => ⟨.CAL_PLANE_CTRL, 1, 0, .w1c, 0⟩
  | .GLB_VF_STATUS_READY => ⟨.GLB_VF_STATUS, 31, 31, .ro, 0⟩
  | .GLB_VF_STATUS_STATE => ⟨.GLB_VF_STATUS, 30, 28, .ro, 4⟩
  | .GLB_VF_STATUS_HOME => ⟨.GLB_VF_STATUS, 27, 24, .ro, 0⟩
  | .GLB_VF_STATUS_PART => ⟨.GLB_VF_STATUS, 4, 0, .ro, 0⟩
  | .GLB_WIN_BASE_ADDR => ⟨.GLB_WIN_BASE, 43, 28, .rw, 0⟩
  | .GLB_PCIE_LINK_SPEED => ⟨.GLB_PCIE_LINK, 31, 28, .ro, 0⟩
  | .GLB_PCIE_LINK_WIDTH => ⟨.GLB_PCIE_LINK, 27, 24, .ro, 0⟩
  | .GLB_PCIE_LINK_VF_EN => ⟨.GLB_PCIE_LINK, 23, 23, .ro, 0⟩
  | .GLB_PCIE_LINK_NUMVFS => ⟨.GLB_PCIE_LINK, 21, 16, .ro, 0⟩
  | .GLB_PCIE_LINK_BAR4 => ⟨.GLB_PCIE_LINK, 15, 12, .ro, 0⟩
  | .GLB_FLR_STATUS_RUNNING => ⟨.GLB_FLR_STATUS, 31, 0, .ro, 0⟩
  | .HB_PARSER_WDOG => ⟨.HB_PARSER, 31, 8, .ro, 0⟩
  | .HB_PARSER_ROUNDS => ⟨.HB_PARSER, 7, 0, .ro, 0⟩
  | .HB_Q_BASE_ADDR => ⟨.HB_Q_BASE, 47, 12, .rw, 0⟩
  | .HB_Q_CTRL_EN => ⟨.HB_Q_CTRL, 31, 31, .rw, 0⟩
  | .HB_Q_CTRL_DESTROYING => ⟨.HB_Q_CTRL, 30, 30, .ro, 0⟩
  | .HB_Q_CTRL_HALTED => ⟨.HB_Q_CTRL, 29, 29, .ro, 0⟩
  | .HB_Q_CTRL_RESUME => ⟨.HB_Q_CTRL, 28, 28, .wo, 0⟩
  | .HB_Q_CTRL_SIZE => ⟨.HB_Q_CTRL, 4, 0, .rw, 7⟩
  | .HB_Q_READ_INDEX => ⟨.HB_Q_READ, 31, 0, .ro, 0⟩
  | .HB_Q_ERR_STATUS => ⟨.HB_Q_ERR, 31, 0, .rc, 0⟩
  | .HB_Q_ERR_AT_MORE => ⟨.HB_Q_ERR_AT, 31, 24, .ro, 0⟩
  | .HB_Q_ERR_AT_SLOT => ⟨.HB_Q_ERR_AT, 23, 0, .ro, 0⟩
  | .HB_Q_MARK_VALUE => ⟨.HB_Q_MARK, 63, 0, .ro, 0⟩
  | .HB_PART_FAULT_STATUS => ⟨.HB_PART_FAULT, 31, 0, .ro, 0⟩
  | .HB_PART_FAULT_AT_QUEUE => ⟨.HB_PART_FAULT_AT, 31, 28, .ro, 0⟩
  | .HB_PART_FAULT_AT_SLOT => ⟨.HB_PART_FAULT_AT, 23, 0, .ro, 0⟩
  | .HB_GRAPH_STORE_ADDR => ⟨.HB_GRAPH_STORE, 47, 16, .rw, 0⟩
  | .HB_GRAPH_SIZE_UNITS => ⟨.HB_GRAPH_SIZE, 15, 0, .rw, 0⟩
  | .GLB_DEVRESET_STATUS_STATUS => ⟨.GLB_DEVRESET_STATUS, 31, 0, .ro, 0⟩
  | .GLB_DEVRESET_CTRL_REQUEST => ⟨.GLB_DEVRESET_CTRL, 31, 31, .wo, 0⟩
  | .GLB_DEVRESET_CTRL_DONE => ⟨.GLB_DEVRESET_CTRL, 30, 30, .w1c, 0⟩
  | .GLB_DEVRESET_CTRL_COUNT => ⟨.GLB_DEVRESET_CTRL, 15, 8, .ro, 0⟩
  | .GLB_DEVRESET_CTRL_MERGED => ⟨.GLB_DEVRESET_CTRL, 7, 0, .ro, 0⟩
  | .SYN_OBJ_EXPORT => ⟨.SYN_OBJ, 255, 224, .ro, 0⟩
  | .SYN_OBJ_WAITERS => ⟨.SYN_OBJ, 223, 208, .ro, 0⟩
  | .SYN_OBJ_AUX => ⟨.SYN_OBJ, 191, 128, .ro, 0⟩
  | .SYN_OBJ_VALUE => ⟨.SYN_OBJ, 127, 64, .rw, 0⟩
  | .SYN_OBJ_TYPE => ⟨.SYN_OBJ, 31, 28, .ro, 0⟩
  | .SYN_OBJ_STATE => ⟨.SYN_OBJ, 27, 26, .ro, 0⟩
  | .SYN_OBJ_OWNER => ⟨.SYN_OBJ, 25, 21, .ro, 0⟩
  | .SYN_OBJ_QBOUND => ⟨.SYN_OBJ, 20, 20, .ro, 0⟩
  | .SYN_OBJ_QUEUE => ⟨.SYN_OBJ, 19, 16, .ro, 0⟩
  | .HB_MO_EXPORT => ⟨.HB_MO, 255, 224, .ro, 0⟩
  | .HB_MO_HOLDERS => ⟨.HB_MO, 223, 192, .ro, 0⟩
  | .HB_MO_TAG => ⟨.HB_MO, 191, 128, .ro, 0⟩
  | .HB_MO_SIZE => ⟨.HB_MO, 127, 64, .ro, 0⟩
  | .HB_MO_STATE => ⟨.HB_MO, 63, 62, .ro, 0⟩
  | .HB_MO_OWNER => ⟨.HB_MO, 61, 57, .ro, 0⟩
  | .HB_MO_PENDING => ⟨.HB_MO, 56, 49, .ro, 0⟩
  | .HB_MO_BASE => ⟨.HB_MO, 47, 12, .ro, 0⟩
  | .HB_OBJ_CTRL_GO => ⟨.HB_OBJ_CTRL, 31, 31, .wo, 0⟩
  | .HB_OBJ_CTRL_PENDING => ⟨.HB_OBJ_CTRL, 30, 30, .ro, 0⟩
  | .HB_OBJ_CTRL_OP => ⟨.HB_OBJ_CTRL, 29, 26, .rw, 0⟩
  | .HB_OBJ_CTRL_TYPE => ⟨.HB_OBJ_CTRL, 25, 23, .rw, 0⟩
  | .HB_OBJ_CTRL_HANDLE => ⟨.HB_OBJ_CTRL, 13, 0, .rw, 0⟩
  | .HB_OBJ_RESULT_STATUS => ⟨.HB_OBJ_RESULT, 31, 0, .ro, 0⟩
  | .HB_OBJ_ARG_ARG3 => ⟨.HB_OBJ_ARG, 255, 192, .rw, 0⟩
  | .HB_OBJ_ARG_ARG2 => ⟨.HB_OBJ_ARG, 191, 128, .rw, 0⟩
  | .HB_OBJ_ARG_ARG1 => ⟨.HB_OBJ_ARG, 127, 64, .rw, 0⟩
  | .HB_OBJ_ARG_ARG0 => ⟨.HB_OBJ_ARG, 63, 0, .rw, 0⟩
  | .HB_OBJ_HANDLE_HANDLE => ⟨.HB_OBJ_HANDLE, 13, 0, .ro, 0⟩
  | .HB_RECLAIM_GO => ⟨.HB_RECLAIM, 31, 31, .wo, 0⟩
  | .HB_RECLAIM_RUNNING => ⟨.HB_RECLAIM, 30, 30, .ro, 0⟩
  | .HB_HEAP_BASE_ADDR => ⟨.HB_HEAP_BASE, 47, 16, .rw, 0⟩
  | .HB_HEAP_STAT_FAILED => ⟨.HB_HEAP_STAT, 31, 16, .rc, 0⟩
  | .HB_HEAP_STAT_BADFREE => ⟨.HB_HEAP_STAT, 15, 0, .rc, 0⟩
  | .HB_USE_FELT => ⟨.HB_USE, 255, 192, .ro, 0⟩
  | .HB_USE_DRAM => ⟨.HB_USE, 191, 128, .ro, 0⟩
  | .HB_USE_BEATER => ⟨.HB_USE, 127, 64, .ro, 0⟩
  | .HB_USE_VAT => ⟨.HB_USE, 63, 0, .ro, 0⟩
  | .HB_MEM_POOL => ⟨.HB_MEM, 191, 128, .ro, 0⟩
  | .HB_MEM_HEAP => ⟨.HB_MEM, 127, 64, .ro, 0⟩
  | .HB_MEM_RESIDENT => ⟨.HB_MEM, 63, 0, .ro, 0⟩
  | .HB_Q_DONE_INDEX => ⟨.HB_Q_DONE, 31, 0, .ro, 0⟩
  | .GLB_OBJ_QUOTA_SYN => ⟨.GLB_OBJ_QUOTA, 31, 16, .rw, 0x200⟩
  | .GLB_OBJ_QUOTA_MO => ⟨.GLB_OBJ_QUOTA, 12, 0, .rw, 0x80⟩
  | .EVQ_ROUTE_POWER => ⟨.EVQ_ROUTE, 31, 24, .rw, 0x21⟩
  | .EVQ_ROUTE_DRAM_ERROR => ⟨.EVQ_ROUTE, 23, 16, .rw, 0x21⟩
  | .EVQ_ROUTE_RING => ⟨.EVQ_ROUTE, 15, 8, .rw, 0x21⟩
  | .EVQ_ROUTE_THERMAL => ⟨.EVQ_ROUTE, 7, 0, .rw, 0x21⟩
  | .EVQ_BASE_ADDR => ⟨.EVQ_BASE, 63, 12, .rw, 0⟩
  | .EVQ_CTRL_EN => ⟨.EVQ_CTRL, 31, 31, .rw, 0⟩
  | .EVQ_CTRL_OVF => ⟨.EVQ_CTRL, 30, 30, .w1c, 0⟩
  | .EVQ_CTRL_SIZE => ⟨.EVQ_CTRL, 4, 0, .rw, 6⟩
  | .EVQ_WRITE_INDEX => ⟨.EVQ_WRITE, 31, 0, .ro, 0⟩
  | .EVQ_READ_INDEX => ⟨.EVQ_READ, 31, 0, .rw, 0⟩
  | .EVQ_MASK_MASK => ⟨.EVQ_MASK, 19, 1, .rw, 0⟩
  | .EVQ_PEND_PEND => ⟨.EVQ_PEND, 19, 1, .rw, 0⟩
  | .EVQ_DROPPED_COUNT => ⟨.EVQ_DROPPED, 31, 0, .ro, 0⟩
  | .SCH_POOL_SLICE_UNITS => ⟨.SCH_POOL_SLICE, 23, 0, .rw, 0x3e8⟩
  | .SCH_DEADLINE_ACTIVE => ⟨.SCH_DEADLINE, 31, 31, .ro, 0⟩
  | .SCH_DEADLINE_LENT => ⟨.SCH_DEADLINE, 30, 24, .ro, 0⟩
  | .SCH_DEADLINE_LEND => ⟨.SCH_DEADLINE, 22, 16, .rw, 0⟩
  | .SCH_DEADLINE_NOLEND => ⟨.SCH_DEADLINE, 15, 0, .rc, 0⟩
  | .SCH_CAP_PIXELS => ⟨.SCH_CAP, 127, 96, .ro, 0⟩
  | .SCH_CAP_FELT => ⟨.SCH_CAP, 95, 64, .ro, 0⟩
  | .SCH_CAP_L2 => ⟨.SCH_CAP, 63, 32, .ro, 0⟩
  | .SCH_CAP_DRAM => ⟨.SCH_CAP, 31, 0, .ro, 0⟩
  | .SCH_SAVE_BASE_ADDR => ⟨.SCH_SAVE_BASE, 47, 12, .rw, 0⟩
  | .SCH_SAVE_SIZE_UNITS => ⟨.SCH_SAVE_SIZE, 15, 0, .rw, 0⟩
  | .SCH_SAVE_USE_BLOCKS => ⟨.SCH_SAVE_USE, 31, 16, .ro, 0⟩
  | .SCH_SAVE_USE_FULL => ⟨.SCH_SAVE_USE, 15, 0, .rc, 0⟩
  | .SCH_FAULT_STATUS => ⟨.SCH_FAULT, 31, 0, .ro, 0⟩
  | .SCH_FAULT_CTRL_FAULTED => ⟨.SCH_FAULT_CTRL, 31, 31, .ro, 0⟩
  | .SCH_FAULT_CTRL_STOPPED => ⟨.SCH_FAULT_CTRL, 30, 30, .ro, 0⟩
  | .SCH_FAULT_CTRL_AUTO => ⟨.SCH_FAULT_CTRL, 29, 29, .rw, 0⟩
  | .SCH_FAULT_CTRL_MORE => ⟨.SCH_FAULT_CTRL, 7, 0, .ro, 0⟩
  | .SCH_PREEMPTS_COUNT => ⟨.SCH_PREEMPTS, 31, 0, .rc, 0⟩
  | .SCH_DL_CFG_BUDGET => ⟨.SCH_DL_CFG, 127, 96, .rw, 0⟩
  | .SCH_DL_CFG_CHECK => ⟨.SCH_DL_CFG, 95, 64, .rw, 0⟩
  | .SCH_DL_CFG_THRESH => ⟨.SCH_DL_CFG, 63, 56, .rw, 0⟩
  | .SCH_DL_CFG_EN => ⟨.SCH_DL_CFG, 55, 55, .rw, 0⟩
  | .SCH_DL_CFG_ABORT => ⟨.SCH_DL_CFG, 54, 54, .rw, 0⟩
  | .SCH_DL_CFG_PART => ⟨.SCH_DL_CFG, 52, 48, .rw, 0⟩
  | .SCH_DL_CFG_QUEUE => ⟨.SCH_DL_CFG, 47, 44, .rw, 0⟩
  | .SCH_DL_CFG_FALLBACK => ⟨.SCH_DL_CFG, 15, 8, .rw, 0⟩
  | .SCH_DL_CFG_MAIN => ⟨.SCH_DL_CFG, 7, 0, .rw, 0⟩
  | .SCH_DL_STATE_FALLBACK => ⟨.SCH_DL_STATE, 31, 31, .ro, 0⟩
  | .SCH_DL_STATE_ONTIME => ⟨.SCH_DL_STATE, 27, 24, .ro, 0⟩
  | .SCH_DL_STATE_BEHIND => ⟨.SCH_DL_STATE, 23, 16, .rc, 0⟩
  | .SCH_DL_STATE_LATE => ⟨.SCH_DL_STATE, 15, 0, .rc, 0⟩
  | .SCH_SB_LIMIT_PIXELS => ⟨.SCH_SB_LIMIT, 127, 96, .rwl, 0xffffffff⟩
  | .SCH_SB_LIMIT_FELT => ⟨.SCH_SB_LIMIT, 95, 64, .rwl, 0xffffffff⟩
  | .SCH_SB_LIMIT_L2 => ⟨.SCH_SB_LIMIT, 63, 32, .rwl, 0xffffffff⟩
  | .SCH_SB_LIMIT_DRAM => ⟨.SCH_SB_LIMIT, 31, 0, .rwl, 0xffffffff⟩
  | .SCH_SB_CREDIT_PIXELS => ⟨.SCH_SB_CREDIT, 127, 96, .ro, 0xffffffff⟩
  | .SCH_SB_CREDIT_FELT => ⟨.SCH_SB_CREDIT, 95, 64, .ro, 0xffffffff⟩
  | .SCH_SB_CREDIT_L2 => ⟨.SCH_SB_CREDIT, 63, 32, .ro, 0xffffffff⟩
  | .SCH_SB_CREDIT_DRAM => ⟨.SCH_SB_CREDIT, 31, 0, .ro, 0xffffffff⟩
  | .SCH_SB_FLOOR_PIXELS => ⟨.SCH_SB_FLOOR, 31, 24, .rwl, 0⟩
  | .SCH_SB_FLOOR_FELT => ⟨.SCH_SB_FLOOR, 23, 16, .rwl, 0⟩
  | .SCH_SB_FLOOR_L2 => ⟨.SCH_SB_FLOOR, 15, 8, .rwl, 0⟩
  | .SCH_SB_FLOOR_DRAM => ⟨.SCH_SB_FLOOR, 7, 0, .rwl, 0⟩
  | .SCH_SB_HELD_COUNT => ⟨.SCH_SB_HELD, 31, 0, .rc, 0⟩
  | .SCH_SB_OVER_UNITS => ⟨.SCH_SB_OVER, 31, 0, .rc, 0⟩
  | .XLT_STATUS_MIG_USED => ⟨.XLT_STATUS, 26, 20, .ro, 0⟩
  | .XLT_STATUS_WALKS => ⟨.XLT_STATUS, 4, 0, .ro, 0⟩
  | .XLT_ROOT_ADDR => ⟨.XLT_ROOT, 47, 12, .rw, 0⟩
  | .XLT_ROOT_EN => ⟨.XLT_ROOT, 0, 0, .rw, 0⟩
  | .XLT_PATIENCE_CYCLES => ⟨.XLT_PATIENCE, 31, 0, .rw, 0x1000000⟩
  | .XLT_INV_ADDR_ADDR => ⟨.XLT_INV_ADDR, 47, 12, .rw, 0⟩
  | .XLT_INV_DONE_BUSY => ⟨.XLT_INV_DONE, 31, 31, .ro, 0⟩
  | .XLT_INV_DONE_MERGED => ⟨.XLT_INV_DONE, 23, 16, .rc, 0⟩
  | .XLT_INV_DONE_SEQ => ⟨.XLT_INV_DONE, 15, 0, .ro, 0⟩
  | .XLT_COUNTS_MIGRATIONS => ⟨.XLT_COUNTS, 31, 16, .rc, 0⟩
  | .XLT_COUNTS_PREFETCH_DROPPED => ⟨.XLT_COUNTS, 15, 0, .rc, 0⟩
  | .XLT_MIG_CTRL_GO => ⟨.XLT_MIG_CTRL, 31, 31, .wo, 0⟩
  | .XLT_MIG_CTRL_OP => ⟨.XLT_MIG_CTRL, 30, 29, .rw, 0⟩
  | .XLT_MIG_CTRL_RESULT => ⟨.XLT_MIG_CTRL, 23, 16, .ro, 0⟩
  | .XLT_MIG_CTRL_INDEX => ⟨.XLT_MIG_CTRL, 5, 0, .rw, 0⟩
  | .XLT_MIG_WAITERS => ⟨.XLT_MIG, 127, 112, .ro, 0⟩
  | .XLT_MIG_AGE => ⟨.XLT_MIG, 95, 64, .ro, 0⟩
  | .XLT_MIG_VPAGE => ⟨.XLT_MIG, 47, 12, .ro, 0⟩
  | .XLT_MIG_USED => ⟨.XLT_MIG, 11, 11, .ro, 0⟩
  | .XLT_MIG_RIGHTS => ⟨.XLT_MIG, 10, 8, .ro, 0⟩
  | .XLT_MIG_LEVEL => ⟨.XLT_MIG, 7, 5, .ro, 0⟩
  | .XLT_MIG_PART => ⟨.XLT_MIG, 4, 0, .ro, 0⟩
  | .L2_CTRL_EN => ⟨.L2_CTRL, 31, 31, .rw, 1⟩
  | .L2_PARITY_CLEAN => ⟨.L2_PARITY, 15, 0, .rc, 0⟩
  | .L2_STREAM_COUNT => ⟨.L2_STREAM, 31, 0, .rc, 0⟩
  | .MEM_DRAM_SIZE_BYTES => ⟨.MEM_DRAM_SIZE, 43, 0, .ro, 0⟩
  | .MEM_REGION_SIZE => ⟨.MEM_REGION, 127, 64, .rwl, 0⟩
  | .MEM_REGION_BASE => ⟨.MEM_REGION, 43, 21, .rwl, 0⟩
  | .MEM_REGION_CODE => ⟨.MEM_REGION, 1, 0, .rwl, 0⟩
  | .MEM_REGION_STATE_SCRUB => ⟨.MEM_REGION_STATE, 31, 31, .rw, 0⟩
  | .MEM_MAINT_CTRL_GO => ⟨.MEM_MAINT_CTRL, 31, 31, .wo, 0⟩
  | .MEM_MAINT_CTRL_PENDING => ⟨.MEM_MAINT_CTRL, 30, 30, .ro, 0⟩
  | .MEM_MAINT_CTRL_OP => ⟨.MEM_MAINT_CTRL, 29, 28, .rw, 0⟩
  | .MEM_MAINT_CTRL_ACT => ⟨.MEM_MAINT_CTRL, 27, 24, .rw, 0⟩
  | .MEM_MAINT_CTRL_ARG => ⟨.MEM_MAINT_CTRL, 15, 0, .rw, 0⟩
  | .MEM_MAINT_RESULT_STATUS => ⟨.MEM_MAINT_RESULT, 31, 0, .ro, 0⟩
  | .MEM_MAINT_ADDR_ADDR => ⟨.MEM_MAINT_ADDR, 43, 8, .rw, 0⟩
  | .MEM_MAINT_STATE_WAITING => ⟨.MEM_MAINT_STATE, 25, 17, .ro, 0⟩
  | .MEM_MAINT_STATE_RUNNING => ⟨.MEM_MAINT_STATE, 9, 1, .ro, 0⟩
  | .MEM_SCRUB_CTRL_INTERVAL => ⟨.MEM_SCRUB_CTRL, 31, 0, .rw, 0x400⟩
  | .MEM_SCRUB_STAT_PASSES => ⟨.MEM_SCRUB_STAT, 31, 16, .rc, 0⟩
  | .MEM_ERR_CTRL_CE_STEP => ⟨.MEM_ERR_CTRL, 15, 0, .rw, 0x100⟩
  | .MEM_ERR_LOG_STATUS => ⟨.MEM_ERR_LOG, 127, 96, .ro, 0⟩
  | .MEM_ERR_LOG_MASK => ⟨.MEM_ERR_LOG, 95, 64, .ro, 0⟩
  | .MEM_ERR_LOG_VALID => ⟨.MEM_ERR_LOG, 63, 63, .w1c, 0⟩
  | .MEM_ERR_LOG_SECTOR => ⟨.MEM_ERR_LOG, 47, 5, .ro, 0⟩
  | .MEM_ECC_COUNT_UE => ⟨.MEM_ECC_COUNT, 63, 32, .rc, 0⟩
  | .MEM_ECC_COUNT_CE => ⟨.MEM_ECC_COUNT, 31, 0, .rc, 0⟩
  | .MEM_SAVEALL_VALID => ⟨.MEM_SAVEALL, 31, 31, .ro, 0⟩
  | .MEM_SAVEALL_BLOCK => ⟨.MEM_SAVEALL, 27, 0, .ro, 0⟩
  | .MEM_SELFTEST_DONE => ⟨.MEM_SELFTEST, 31, 31, .ro, 0⟩
  | .MEM_SELFTEST_FAIL => ⟨.MEM_SELFTEST, 27, 16, .ro, 0⟩
  | .MEM_SELFTEST_CTRL => ⟨.MEM_SELFTEST, 15, 12, .ro, 0⟩
  | .MEM_SELFTEST_VECTOR => ⟨.MEM_SELFTEST, 5, 0, .ro, 0⟩
  | .PLP_ENGINE_BUSY => ⟨.PLP_ENGINE, 31, 31, .ro, 0⟩
  | .PLP_ENGINE_SLOT => ⟨.PLP_ENGINE, 29, 24, .ro, 0⟩
  | .PLP_ENGINE_CONCEALED => ⟨.PLP_ENGINE, 15, 0, .rc, 0⟩
  | .PLP_SLOT_EN => ⟨.PLP_SLOT, 31, 31, .rw, 0⟩
  | .PLP_SLOT_CODEC => ⟨.PLP_SLOT, 30, 29, .ro, 0⟩
  | .PLP_SLOT_OWNER => ⟨.PLP_SLOT, 28, 24, .rw, 0⟩
  | .PLP_SLOT_BUSY => ⟨.PLP_SLOT, 23, 23, .ro, 0⟩
  | .PLP_SLOT_QUEUE => ⟨.PLP_SLOT, 19, 16, .ro, 0⟩
  | .PLP_SLOT_REFS => ⟨.PLP_SLOT, 12, 8, .ro, 0⟩
  | .BAL_STATUS_BUSY => ⟨.BAL_STATUS, 31, 31, .ro, 0⟩
  | .BAL_STATUS_DIR => ⟨.BAL_STATUS, 30, 29, .ro, 0⟩
  | .BAL_STATUS_PART => ⟨.BAL_STATUS, 28, 24, .ro, 0⟩
  | .BAL_STATUS_ERRORS => ⟨.BAL_STATUS, 15, 0, .rc, 0⟩
  | .FLT_STATUS_MASTER => ⟨.FLT_STATUS, 31, 31, .ro, 0⟩
  | .FLT_STATUS_LIVE => ⟨.FLT_STATUS, 30, 30, .ro, 0⟩
  | .FLT_STATUS_ORPHAN => ⟨.FLT_STATUS, 29, 29, .ro, 0⟩
  | .FLT_STATUS_CHANGING => ⟨.FLT_STATUS, 28, 28, .ro, 0⟩
  | .FLT_STATUS_STRAP_ERR => ⟨.FLT_STATUS, 27, 27, .ro, 0⟩
  | .FLT_STATUS_POS => ⟨.FLT_STATUS, 19, 16, .ro, 0⟩
  | .FLT_STATUS_EPOCH => ⟨.FLT_STATUS, 15, 0, .ro, 0⟩
  | .FLT_MEMBERS_REACH => ⟨.FLT_MEMBERS, 31, 16, .ro, 0⟩
  | .FLT_MEMBERS_LIVE => ⟨.FLT_MEMBERS, 15, 0, .ro, 0⟩
  | .FLT_CTRL_WITHDRAW => ⟨.FLT_CTRL, 31, 31, .rw, 0⟩
  | .FLT_CTRL_REDISCOVER => ⟨.FLT_CTRL, 30, 30, .wo, 0⟩
  | .FLT_TRANSIT_COUNT => ⟨.FLT_TRANSIT, 63, 0, .rc, 0⟩
  | .FLT_PORT_STATE => ⟨.FLT_PORT, 31, 29, .ro, 0⟩
  | .FLT_PORT_ALIVE => ⟨.FLT_PORT, 28, 28, .ro, 0⟩
  | .FLT_PORT_WIDTH => ⟨.FLT_PORT, 27, 24, .ro, 0⟩
  | .FLT_PORT_PEER => ⟨.FLT_PORT, 23, 20, .ro, 0⟩
  | .FLT_PORT_RETRAINS => ⟨.FLT_PORT, 15, 0, .rc, 0⟩
  | .FLT_PORT_ERR_CRC => ⟨.FLT_PORT_ERR, 31, 16, .rc, 0⟩
  | .FLT_PORT_ERR_REPLAYS => ⟨.FLT_PORT_ERR, 15, 0, .rc, 0⟩
  | .FLT_FW_STAGE_ADDR => ⟨.FLT_FW_STAGE, 43, 21, .rw, 0⟩
  | .FLT_FW_STATUS_FAILED => ⟨.FLT_FW_STATUS, 31, 16, .ro, 0⟩
  | .FLT_FW_STATUS_DONE => ⟨.FLT_FW_STATUS, 15, 0, .ro, 0⟩
  | .PWR_STATUS_TRIPPED => ⟨.PWR_STATUS, 31, 31, .ro, 0⟩
  | .PWR_STATUS_WORN => ⟨.PWR_STATUS, 30, 30, .ro, 0⟩
  | .PWR_STATUS_PEAK => ⟨.PWR_STATUS, 29, 29, .ro, 0⟩
  | .PWR_STATUS_CLASS => ⟨.PWR_STATUS, 28, 27, .ro, 0⟩
  | .PWR_STATUS_LIMITED => ⟨.PWR_STATUS, 23, 20, .ro, 0⟩
  | .PWR_STATUS_FAB => ⟨.PWR_STATUS, 11, 8, .ro, 2⟩
  | .PWR_STATUS_VAT => ⟨.PWR_STATUS, 7, 4, .ro, 3⟩
  | .PWR_STATUS_ARR => ⟨.PWR_STATUS, 3, 0, .ro, 3⟩
  | .PWR_CLASS_PEAK => ⟨.PWR_CLASS, 2, 2, .rwl, 0⟩
  | .PWR_CLASS_CLASS => ⟨.PWR_CLASS, 1, 0, .rwl, 0⟩
  | .PWR_DVFS_BUSY => ⟨.PWR_DVFS, 31, 31, .ro, 0⟩
  | .PWR_DVFS_VOP => ⟨.PWR_DVFS, 7, 4, .rw, 3⟩
  | .PWR_DVFS_FOP => ⟨.PWR_DVFS, 3, 0, .rw, 3⟩
  | .PWR_DVFS_RESULT_STATUS => ⟨.PWR_DVFS_RESULT, 31, 0, .ro, 0⟩
  | .PWR_LIMIT_TRIPS => ⟨.PWR_LIMIT, 31, 16, .rc, 0⟩
  | .PWR_LIMIT_CURRENT => ⟨.PWR_LIMIT, 11, 8, .ro, 4⟩
  | .PWR_LIMIT_THERMAL => ⟨.PWR_LIMIT, 7, 4, .ro, 4⟩
  | .PWR_LIMIT_POWER => ⟨.PWR_LIMIT, 3, 0, .ro, 4⟩
  | .PWR_RESERVE_RESERVE => ⟨.PWR_RESERVE, 31, 16, .ro, 0⟩
  | .PWR_RESERVE_AVG => ⟨.PWR_RESERVE, 15, 0, .ro, 0⟩
  | .PWR_TEMP_SENSOR => ⟨.PWR_TEMP, 19, 16, .ro, 0⟩
  | .PWR_TEMP_TEMP => ⟨.PWR_TEMP, 7, 0, .ro, 0⟩
  | .PWR_WEAR_SECONDS => ⟨.PWR_WEAR, 31, 0, .ro, 0⟩
  | .PWR_DOM_CTRL_TARGET => ⟨.PWR_DOM_CTRL, 31, 30, .wo, 0⟩
  | .PWR_DOM_CTRL_AUTO => ⟨.PWR_DOM_CTRL, 29, 29, .rw, 0⟩
  | .PWR_DOM_CTRL_IDLE => ⟨.PWR_DOM_CTRL, 23, 0, .rw, 0⟩
  | .PWR_DOM_STATE_STATE => ⟨.PWR_DOM_STATE, 31, 29, .ro, 0⟩
  | .PWR_DOM_STATE_REFUSER => ⟨.PWR_DOM_STATE, 23, 20, .ro, 0⟩
  | .PWR_DOM_STATE_ENTRIES => ⟨.PWR_DOM_STATE, 15, 0, .rc, 0⟩
  | .PWR_DOM_COUNT_REFUSED => ⟨.PWR_DOM_COUNT, 31, 16, .rc, 0⟩
  | .PWR_DOM_COUNT_ABORTED => ⟨.PWR_DOM_COUNT, 15, 0, .rc, 0⟩
  | .PWR_DOM_RESULT_STATUS => ⟨.PWR_DOM_RESULT, 31, 0, .ro, 0⟩
  | .MGC_MBOX_CTRL_GO => ⟨.MGC_MBOX_CTRL, 31, 31, .wo, 0⟩
  | .MGC_MBOX_CTRL_PENDING => ⟨.MGC_MBOX_CTRL, 30, 30, .ro, 0⟩
  | .MGC_MBOX_CTRL_LOST => ⟨.MGC_MBOX_CTRL, 29, 29, .w1c, 0⟩
  | .MGC_MBOX_CTRL_CMD => ⟨.MGC_MBOX_CTRL, 7, 0, .rw, 0⟩
  | .MGC_MBOX_ARG_ADDR => ⟨.MGC_MBOX_ARG, 47, 0, .rw, 0⟩
  | .MGC_MBOX_RESULT_DETAIL => ⟨.MGC_MBOX_RESULT, 31, 4, .ro, 0⟩
  | .MGC_MBOX_RESULT_CAUSE => ⟨.MGC_MBOX_RESULT, 3, 0, .ro, 0⟩
  | .MGC_BOOT_STATUS_STAGE => ⟨.MGC_BOOT_STATUS, 31, 28, .ro, 0⟩
  | .MGC_BOOT_STATUS_SLOT => ⟨.MGC_BOOT_STATUS, 27, 26, .ro, 0⟩
  | .MGC_BOOT_STATUS_TRIAL => ⟨.MGC_BOOT_STATUS, 25, 25, .ro, 0⟩
  | .MGC_BOOT_STATUS_SVC_MODE => ⟨.MGC_BOOT_STATUS, 24, 24, .ro, 0⟩
  | .MGC_BOOT_STATUS_CAUSE => ⟨.MGC_BOOT_STATUS, 23, 20, .ro, 0⟩
  | .MGC_BOOT_STATUS_TRIES => ⟨.MGC_BOOT_STATUS, 19, 16, .ro, 0⟩
  | .MGC_BOOT_STATUS_STARTS => ⟨.MGC_BOOT_STATUS, 15, 8, .ro, 0⟩
  | .MGC_FW_VERSION_SETTINGS_FMT => ⟨.MGC_FW_VERSION, 127, 96, .ro, 0⟩
  | .MGC_FW_VERSION_FINALISER => ⟨.MGC_FW_VERSION, 95, 64, .ro, 0⟩
  | .MGC_FW_VERSION_FWVER => ⟨.MGC_FW_VERSION, 63, 0, .ro, 0⟩
  | .MGC_FW_INFO_SVN => ⟨.MGC_FW_INFO, 31, 26, .ro, 0⟩
  | .MGC_FW_INFO_F => ⟨.MGC_FW_INFO, 25, 20, .ro, 0⟩
  | .MGC_FW_INFO_IMG_REVOKE => ⟨.MGC_FW_INFO, 19, 16, .ro, 0⟩
  | .MGC_FW_INFO_FNS_REVOKE => ⟨.MGC_FW_INFO, 15, 14, .ro, 0⟩
  | .MGC_FW_INFO_ACTIVE => ⟨.MGC_FW_INFO, 13, 12, .ro, 0⟩
  | .MGC_FW_INFO_STATE_A => ⟨.MGC_FW_INFO, 11, 10, .ro, 0⟩
  | .MGC_FW_INFO_STATE_B => ⟨.MGC_FW_INFO, 9, 8, .ro, 0⟩
  | .DBG_FREEZE_GO => ⟨.DBG_FREEZE, 31, 31, .wo, 0⟩
  | .DBG_FREEZE_KEY => ⟨.DBG_FREEZE, 15, 0, .wo, 0⟩
  | .DBG_FREEZE_STATUS_STATE => ⟨.DBG_FREEZE_STATUS, 31, 29, .ro, 0⟩
  | .DBG_FREEZE_STATUS_SOURCE => ⟨.DBG_FREEZE_STATUS, 28, 28, .ro, 0⟩
  | .DBG_FREEZE_STATUS_PIN => ⟨.DBG_FREEZE_STATUS, 27, 27, .ro, 0⟩
  | .DBG_FREEZE_STATUS_STOPPED => ⟨.DBG_FREEZE_STATUS, 22, 16, .ro, 0⟩
  | .DBG_FREEZE_STATUS_IGNORED => ⟨.DBG_FREEZE_STATUS, 15, 0, .rc, 0⟩
  | .DBG_AP_BANK_SPACE => ⟨.DBG_AP_BANK, 31, 24, .rw, 0⟩
  | .DBG_AP_BANK_UNIT => ⟨.DBG_AP_BANK, 7, 0, .rw, 0⟩
  | .DBG_AP_STATUS_ERR => ⟨.DBG_AP_STATUS, 2, 0, .ro, 0⟩
  | .GLB_ID_PART => ⟨.GLB_ID, 31, 16, .ro, 0x6448⟩
  | .GLB_ID_GRADE => ⟨.GLB_ID, 15, 12, .ro, 0⟩
  | .GLB_ID_STEPPING => ⟨.GLB_ID, 11, 8, .ro, 0⟩
  | .GLB_GPIO_IN_LEVEL => ⟨.GLB_GPIO_IN, 15, 0, .ro, 0⟩
  | .GLB_GPIO_OUT_OE => ⟨.GLB_GPIO_OUT, 31, 16, .rw, 0⟩
  | .GLB_GPIO_OUT_OUT => ⟨.GLB_GPIO_OUT, 15, 0, .rw, 0⟩
  | .GLB_ZT2_COUNT => ⟨.GLB_ZT2, 31, 0, .rw, 0⟩

/-- The fields of each register, most significant first, as its table lists them. -/
def Reg.fields : Reg → List Field
  | .GLB_FURNISH_STATUS => [.GLB_FURNISH_STATUS_LOCKED, .GLB_FURNISH_STATUS_NULL, .GLB_FURNISH_STATUS_SOURCE, .GLB_FURNISH_STATUS_MASTER, .GLB_FURNISH_STATUS_DELTAS, .GLB_FURNISH_STATUS_RECORDS]
  | .GLB_LOAD_RESULT => [.GLB_LOAD_RESULT_STATUS]
  | .GLB_LOAD_AUX => [.GLB_LOAD_AUX_RESOURCE, .GLB_LOAD_AUX_RECORD]
  | .GLB_FURNISH_GEN => [.GLB_FURNISH_GEN_GENERATION]
  | .GLB_LOAD_ADDR => [.GLB_LOAD_ADDR_ADDR]
  | .GLB_LOAD_CTRL => [.GLB_LOAD_CTRL_GO, .GLB_LOAD_CTRL_PENDING, .GLB_LOAD_CTRL_KIND]
  | .GLB_FUNC_CTRL => [.GLB_FUNC_CTRL_GO, .GLB_FUNC_CTRL_PENDING, .GLB_FUNC_CTRL_OP, .GLB_FUNC_CTRL_KIND, .GLB_FUNC_CTRL_INDEX]
  | .GLB_FUNC_RESULT => [.GLB_FUNC_RESULT_STATUS]
  | .GLB_FUNC_STATE => [.GLB_FUNC_STATE_DRAINED, .GLB_FUNC_STATE_STATE]
  | .GLB_CLAIM_CTRL => [.GLB_CLAIM_CTRL_GO, .GLB_CLAIM_CTRL_PENDING, .GLB_CLAIM_CTRL_OP, .GLB_CLAIM_CTRL_FEATURE, .GLB_CLAIM_CTRL_RESOURCE]
  | .GLB_CLAIM_RESULT => [.GLB_CLAIM_RESULT_STATUS]
  | .VAT_STATUS => [.VAT_STATUS_STATE, .VAT_STATUS_MODE, .VAT_STATUS_PART, .VAT_STATUS_POOLED, .VAT_STATUS_QUIRES, .VAT_STATUS_BLOCKS]
  | .VAT_SPLIT => [.VAT_SPLIT_BEATER, .VAT_SPLIT_TILE, .VAT_SPLIT_LOCAL, .VAT_SPLIT_L1]
  | .VAT_FAULT_WHO => [.VAT_FAULT_WHO_VALID, .VAT_FAULT_WHO_PART, .VAT_FAULT_WHO_QUIRE, .VAT_FAULT_WHO_BLOCK, .VAT_FAULT_WHO_MORE]
  | .VAT_FAULT_STATUS => [.VAT_FAULT_STATUS_STATUS]
  | .VAT_FAULT_PC => [.VAT_FAULT_PC_PC]
  | .VAT_FAULT_LANES => [.VAT_FAULT_LANES_LANES]
  | .VAT_ISSUED => [.VAT_ISSUED_COUNT]
  | .VAT_RC_HITS => [.VAT_RC_HITS_COUNT]
  | .VAT_BANK_STALLS => [.VAT_BANK_STALLS_COUNT]
  | .VAT_BEATER => [.VAT_BEATER_SET1_HELD, .VAT_BEATER_SET1_INT, .VAT_BEATER_SET1_QUIRE, .VAT_BEATER_SET0_HELD, .VAT_BEATER_SET0_INT, .VAT_BEATER_SET0_QUIRE, .VAT_BEATER_WAITING, .VAT_BEATER_BUSY, .VAT_BEATER_QUEUED]
  | .VAT_TERR => [.VAT_TERR_VALID, .VAT_TERR_OP, .VAT_TERR_QUIRE, .VAT_TERR_REASON]
  | .VAT_TPASSES => [.VAT_TPASSES_COUNT]
  | .VAT_ACQ_WAIT => [.VAT_ACQ_WAIT_COUNT]
  | .GEO_STATUS => [.GEO_STATUS_BINNING, .GEO_STATUS_BIN_PART, .GEO_STATUS_TILES]
  | .GEO_POOL_BASE => [.GEO_POOL_BASE_ADDR]
  | .GEO_PASS => [.GEO_PASS_STATE, .GEO_PASS_CHUNKS, .GEO_PASS_SEGMENTS, .GEO_PASS_DRAWS]
  | .GEO_POOL_USE => [.GEO_POOL_USE_PEAK, .GEO_POOL_USE_NOW]
  | .GEO_GROW_ADDR => [.GEO_GROW_ADDR_ADDR]
  | .GEO_GROW_CTRL => [.GEO_GROW_CTRL_REQ, .GEO_GROW_CTRL_OP, .GEO_GROW_CTRL_RESULT, .GEO_GROW_CTRL_SIZE]
  | .GEO_GROW_WANT => [.GEO_GROW_WANT_BYTES]
  | .GEO_COUNTS => [.GEO_COUNTS_BROKE, .GEO_COUNTS_GROWN, .GEO_COUNTS_FALLBACK, .GEO_COUNTS_CAUSE]
  | .GEO_REFUSE => [.GEO_REFUSE_VALID, .GEO_REFUSE_OP, .GEO_REFUSE_REASON]
  | .CAL_RESULT => [.CAL_RESULT_STATUS]
  | .CAL_HEAD_CTRL => [.CAL_HEAD_CTRL_HPD, .CAL_HEAD_CTRL_TRAINED, .CAL_HEAD_CTRL_FAIL, .CAL_HEAD_CTRL_RATE, .CAL_HEAD_CTRL_LANES, .CAL_HEAD_CTRL_BPC10, .CAL_HEAD_CTRL_HPOL, .CAL_HEAD_CTRL_VPOL, .CAL_HEAD_CTRL_KHZ]
  | .CAL_TIMING => [.CAL_TIMING_VSYNC_END, .CAL_TIMING_VSYNC_START, .CAL_TIMING_VTOTAL, .CAL_TIMING_VACTIVE, .CAL_TIMING_HSYNC_END, .CAL_TIMING_HSYNC_START, .CAL_TIMING_HTOTAL, .CAL_TIMING_HACTIVE]
  | .CAL_LEAD => [.CAL_LEAD_CYCLES]
  | .CAL_WALL => [.CAL_WALL_VALUE, .CAL_WALL_HANDLE]
  | .CAL_COUNTS => [.CAL_COUNTS_HELD, .CAL_COUNTS_REPLACED]
  | .CAL_PLANE => [.CAL_PLANE_DST_H, .CAL_PLANE_DST_W, .CAL_PLANE_DST_Y, .CAL_PLANE_DST_X, .CAL_PLANE_SRC_H, .CAL_PLANE_SRC_W, .CAL_PLANE_STRIDE, .CAL_PLANE_BASE]
  | .CAL_PLANE_CTRL => [.CAL_PLANE_CTRL_ARM, .CAL_PLANE_CTRL_EN, .CAL_PLANE_CTRL_FMT, .CAL_PLANE_CTRL_ALPHA, .CAL_PLANE_CTRL_ERR]
  | .GLB_VF_STATUS => [.GLB_VF_STATUS_READY, .GLB_VF_STATUS_STATE, .GLB_VF_STATUS_HOME, .GLB_VF_STATUS_PART]
  | .GLB_WIN_BASE => [.GLB_WIN_BASE_ADDR]
  | .GLB_PCIE_LINK => [.GLB_PCIE_LINK_SPEED, .GLB_PCIE_LINK_WIDTH, .GLB_PCIE_LINK_VF_EN, .GLB_PCIE_LINK_NUMVFS, .GLB_PCIE_LINK_BAR4]
  | .GLB_FLR_STATUS => [.GLB_FLR_STATUS_RUNNING]
  | .HB_PARSER => [.HB_PARSER_WDOG, .HB_PARSER_ROUNDS]
  | .HB_Q_BASE => [.HB_Q_BASE_ADDR]
  | .HB_Q_CTRL => [.HB_Q_CTRL_EN, .HB_Q_CTRL_DESTROYING, .HB_Q_CTRL_HALTED, .HB_Q_CTRL_RESUME, .HB_Q_CTRL_SIZE]
  | .HB_Q_READ => [.HB_Q_READ_INDEX]
  | .HB_Q_ERR => [.HB_Q_ERR_STATUS]
  | .HB_Q_ERR_AT => [.HB_Q_ERR_AT_MORE, .HB_Q_ERR_AT_SLOT]
  | .HB_Q_MARK => [.HB_Q_MARK_VALUE]
  | .HB_PART_FAULT => [.HB_PART_FAULT_STATUS]
  | .HB_PART_FAULT_AT => [.HB_PART_FAULT_AT_QUEUE, .HB_PART_FAULT_AT_SLOT]
  | .HB_GRAPH_STORE => [.HB_GRAPH_STORE_ADDR]
  | .HB_GRAPH_SIZE => [.HB_GRAPH_SIZE_UNITS]
  | .GLB_DEVRESET_STATUS => [.GLB_DEVRESET_STATUS_STATUS]
  | .GLB_DEVRESET_CTRL => [.GLB_DEVRESET_CTRL_REQUEST, .GLB_DEVRESET_CTRL_DONE, .GLB_DEVRESET_CTRL_COUNT, .GLB_DEVRESET_CTRL_MERGED]
  | .SYN_OBJ => [.SYN_OBJ_EXPORT, .SYN_OBJ_WAITERS, .SYN_OBJ_AUX, .SYN_OBJ_VALUE, .SYN_OBJ_TYPE, .SYN_OBJ_STATE, .SYN_OBJ_OWNER, .SYN_OBJ_QBOUND, .SYN_OBJ_QUEUE]
  | .HB_MO => [.HB_MO_EXPORT, .HB_MO_HOLDERS, .HB_MO_TAG, .HB_MO_SIZE, .HB_MO_STATE, .HB_MO_OWNER, .HB_MO_PENDING, .HB_MO_BASE]
  | .HB_OBJ_CTRL => [.HB_OBJ_CTRL_GO, .HB_OBJ_CTRL_PENDING, .HB_OBJ_CTRL_OP, .HB_OBJ_CTRL_TYPE, .HB_OBJ_CTRL_HANDLE]
  | .HB_OBJ_RESULT => [.HB_OBJ_RESULT_STATUS]
  | .HB_OBJ_ARG => [.HB_OBJ_ARG_ARG3, .HB_OBJ_ARG_ARG2, .HB_OBJ_ARG_ARG1, .HB_OBJ_ARG_ARG0]
  | .HB_OBJ_HANDLE => [.HB_OBJ_HANDLE_HANDLE]
  | .HB_RECLAIM => [.HB_RECLAIM_GO, .HB_RECLAIM_RUNNING]
  | .HB_HEAP_BASE => [.HB_HEAP_BASE_ADDR]
  | .HB_HEAP_STAT => [.HB_HEAP_STAT_FAILED, .HB_HEAP_STAT_BADFREE]
  | .HB_USE => [.HB_USE_FELT, .HB_USE_DRAM, .HB_USE_BEATER, .HB_USE_VAT]
  | .HB_MEM => [.HB_MEM_POOL, .HB_MEM_HEAP, .HB_MEM_RESIDENT]
  | .HB_Q_DONE => [.HB_Q_DONE_INDEX]
  | .GLB_OBJ_QUOTA => [.GLB_OBJ_QUOTA_SYN, .GLB_OBJ_QUOTA_MO]
  | .EVQ_ROUTE => [.EVQ_ROUTE_POWER, .EVQ_ROUTE_DRAM_ERROR, .EVQ_ROUTE_RING, .EVQ_ROUTE_THERMAL]
  | .EVQ_BASE => [.EVQ_BASE_ADDR]
  | .EVQ_CTRL => [.EVQ_CTRL_EN, .EVQ_CTRL_OVF, .EVQ_CTRL_SIZE]
  | .EVQ_WRITE => [.EVQ_WRITE_INDEX]
  | .EVQ_READ => [.EVQ_READ_INDEX]
  | .EVQ_MASK => [.EVQ_MASK_MASK]
  | .EVQ_PEND => [.EVQ_PEND_PEND]
  | .EVQ_DROPPED => [.EVQ_DROPPED_COUNT]
  | .SCH_POOL_SLICE => [.SCH_POOL_SLICE_UNITS]
  | .SCH_DEADLINE => [.SCH_DEADLINE_ACTIVE, .SCH_DEADLINE_LENT, .SCH_DEADLINE_LEND, .SCH_DEADLINE_NOLEND]
  | .SCH_CAP => [.SCH_CAP_PIXELS, .SCH_CAP_FELT, .SCH_CAP_L2, .SCH_CAP_DRAM]
  | .SCH_SAVE_BASE => [.SCH_SAVE_BASE_ADDR]
  | .SCH_SAVE_SIZE => [.SCH_SAVE_SIZE_UNITS]
  | .SCH_SAVE_USE => [.SCH_SAVE_USE_BLOCKS, .SCH_SAVE_USE_FULL]
  | .SCH_FAULT => [.SCH_FAULT_STATUS]
  | .SCH_FAULT_CTRL => [.SCH_FAULT_CTRL_FAULTED, .SCH_FAULT_CTRL_STOPPED, .SCH_FAULT_CTRL_AUTO, .SCH_FAULT_CTRL_MORE]
  | .SCH_PREEMPTS => [.SCH_PREEMPTS_COUNT]
  | .SCH_DL_CFG => [.SCH_DL_CFG_BUDGET, .SCH_DL_CFG_CHECK, .SCH_DL_CFG_THRESH, .SCH_DL_CFG_EN, .SCH_DL_CFG_ABORT, .SCH_DL_CFG_PART, .SCH_DL_CFG_QUEUE, .SCH_DL_CFG_FALLBACK, .SCH_DL_CFG_MAIN]
  | .SCH_DL_STATE => [.SCH_DL_STATE_FALLBACK, .SCH_DL_STATE_ONTIME, .SCH_DL_STATE_BEHIND, .SCH_DL_STATE_LATE]
  | .SCH_SB_LIMIT => [.SCH_SB_LIMIT_PIXELS, .SCH_SB_LIMIT_FELT, .SCH_SB_LIMIT_L2, .SCH_SB_LIMIT_DRAM]
  | .SCH_SB_CREDIT => [.SCH_SB_CREDIT_PIXELS, .SCH_SB_CREDIT_FELT, .SCH_SB_CREDIT_L2, .SCH_SB_CREDIT_DRAM]
  | .SCH_SB_FLOOR => [.SCH_SB_FLOOR_PIXELS, .SCH_SB_FLOOR_FELT, .SCH_SB_FLOOR_L2, .SCH_SB_FLOOR_DRAM]
  | .SCH_SB_HELD => [.SCH_SB_HELD_COUNT]
  | .SCH_SB_OVER => [.SCH_SB_OVER_UNITS]
  | .XLT_STATUS => [.XLT_STATUS_MIG_USED, .XLT_STATUS_WALKS]
  | .XLT_ROOT => [.XLT_ROOT_ADDR, .XLT_ROOT_EN]
  | .XLT_PATIENCE => [.XLT_PATIENCE_CYCLES]
  | .XLT_INV_ADDR => [.XLT_INV_ADDR_ADDR]
  | .XLT_INV_DONE => [.XLT_INV_DONE_BUSY, .XLT_INV_DONE_MERGED, .XLT_INV_DONE_SEQ]
  | .XLT_COUNTS => [.XLT_COUNTS_MIGRATIONS, .XLT_COUNTS_PREFETCH_DROPPED]
  | .XLT_MIG_CTRL => [.XLT_MIG_CTRL_GO, .XLT_MIG_CTRL_OP, .XLT_MIG_CTRL_RESULT, .XLT_MIG_CTRL_INDEX]
  | .XLT_MIG => [.XLT_MIG_WAITERS, .XLT_MIG_AGE, .XLT_MIG_VPAGE, .XLT_MIG_USED, .XLT_MIG_RIGHTS, .XLT_MIG_LEVEL, .XLT_MIG_PART]
  | .L2_CTRL => [.L2_CTRL_EN]
  | .L2_PARITY => [.L2_PARITY_CLEAN]
  | .L2_STREAM => [.L2_STREAM_COUNT]
  | .MEM_DRAM_SIZE => [.MEM_DRAM_SIZE_BYTES]
  | .MEM_REGION => [.MEM_REGION_SIZE, .MEM_REGION_BASE, .MEM_REGION_CODE]
  | .MEM_REGION_STATE => [.MEM_REGION_STATE_SCRUB]
  | .MEM_MAINT_CTRL => [.MEM_MAINT_CTRL_GO, .MEM_MAINT_CTRL_PENDING, .MEM_MAINT_CTRL_OP, .MEM_MAINT_CTRL_ACT, .MEM_MAINT_CTRL_ARG]
  | .MEM_MAINT_RESULT => [.MEM_MAINT_RESULT_STATUS]
  | .MEM_MAINT_ADDR => [.MEM_MAINT_ADDR_ADDR]
  | .MEM_MAINT_STATE => [.MEM_MAINT_STATE_WAITING, .MEM_MAINT_STATE_RUNNING]
  | .MEM_SCRUB_CTRL => [.MEM_SCRUB_CTRL_INTERVAL]
  | .MEM_SCRUB_STAT => [.MEM_SCRUB_STAT_PASSES]
  | .MEM_ERR_CTRL => [.MEM_ERR_CTRL_CE_STEP]
  | .MEM_ERR_LOG => [.MEM_ERR_LOG_STATUS, .MEM_ERR_LOG_MASK, .MEM_ERR_LOG_VALID, .MEM_ERR_LOG_SECTOR]
  | .MEM_ECC_COUNT => [.MEM_ECC_COUNT_UE, .MEM_ECC_COUNT_CE]
  | .MEM_SAVEALL => [.MEM_SAVEALL_VALID, .MEM_SAVEALL_BLOCK]
  | .MEM_SELFTEST => [.MEM_SELFTEST_DONE, .MEM_SELFTEST_FAIL, .MEM_SELFTEST_CTRL, .MEM_SELFTEST_VECTOR]
  | .PLP_ENGINE => [.PLP_ENGINE_BUSY, .PLP_ENGINE_SLOT, .PLP_ENGINE_CONCEALED]
  | .PLP_SLOT => [.PLP_SLOT_EN, .PLP_SLOT_CODEC, .PLP_SLOT_OWNER, .PLP_SLOT_BUSY, .PLP_SLOT_QUEUE, .PLP_SLOT_REFS]
  | .BAL_STATUS => [.BAL_STATUS_BUSY, .BAL_STATUS_DIR, .BAL_STATUS_PART, .BAL_STATUS_ERRORS]
  | .FLT_STATUS => [.FLT_STATUS_MASTER, .FLT_STATUS_LIVE, .FLT_STATUS_ORPHAN, .FLT_STATUS_CHANGING, .FLT_STATUS_STRAP_ERR, .FLT_STATUS_POS, .FLT_STATUS_EPOCH]
  | .FLT_MEMBERS => [.FLT_MEMBERS_REACH, .FLT_MEMBERS_LIVE]
  | .FLT_CTRL => [.FLT_CTRL_WITHDRAW, .FLT_CTRL_REDISCOVER]
  | .FLT_TRANSIT => [.FLT_TRANSIT_COUNT]
  | .FLT_PORT => [.FLT_PORT_STATE, .FLT_PORT_ALIVE, .FLT_PORT_WIDTH, .FLT_PORT_PEER, .FLT_PORT_RETRAINS]
  | .FLT_PORT_ERR => [.FLT_PORT_ERR_CRC, .FLT_PORT_ERR_REPLAYS]
  | .FLT_FW_STAGE => [.FLT_FW_STAGE_ADDR]
  | .FLT_FW_STATUS => [.FLT_FW_STATUS_FAILED, .FLT_FW_STATUS_DONE]
  | .PWR_STATUS => [.PWR_STATUS_TRIPPED, .PWR_STATUS_WORN, .PWR_STATUS_PEAK, .PWR_STATUS_CLASS, .PWR_STATUS_LIMITED, .PWR_STATUS_FAB, .PWR_STATUS_VAT, .PWR_STATUS_ARR]
  | .PWR_CLASS => [.PWR_CLASS_PEAK, .PWR_CLASS_CLASS]
  | .PWR_DVFS => [.PWR_DVFS_BUSY, .PWR_DVFS_VOP, .PWR_DVFS_FOP]
  | .PWR_DVFS_RESULT => [.PWR_DVFS_RESULT_STATUS]
  | .PWR_LIMIT => [.PWR_LIMIT_TRIPS, .PWR_LIMIT_CURRENT, .PWR_LIMIT_THERMAL, .PWR_LIMIT_POWER]
  | .PWR_RESERVE => [.PWR_RESERVE_RESERVE, .PWR_RESERVE_AVG]
  | .PWR_TEMP => [.PWR_TEMP_SENSOR, .PWR_TEMP_TEMP]
  | .PWR_WEAR => [.PWR_WEAR_SECONDS]
  | .PWR_DOM_CTRL => [.PWR_DOM_CTRL_TARGET, .PWR_DOM_CTRL_AUTO, .PWR_DOM_CTRL_IDLE]
  | .PWR_DOM_STATE => [.PWR_DOM_STATE_STATE, .PWR_DOM_STATE_REFUSER, .PWR_DOM_STATE_ENTRIES]
  | .PWR_DOM_COUNT => [.PWR_DOM_COUNT_REFUSED, .PWR_DOM_COUNT_ABORTED]
  | .PWR_DOM_RESULT => [.PWR_DOM_RESULT_STATUS]
  | .MGC_MBOX_CTRL => [.MGC_MBOX_CTRL_GO, .MGC_MBOX_CTRL_PENDING, .MGC_MBOX_CTRL_LOST, .MGC_MBOX_CTRL_CMD]
  | .MGC_MBOX_ARG => [.MGC_MBOX_ARG_ADDR]
  | .MGC_MBOX_RESULT => [.MGC_MBOX_RESULT_DETAIL, .MGC_MBOX_RESULT_CAUSE]
  | .MGC_BOOT_STATUS => [.MGC_BOOT_STATUS_STAGE, .MGC_BOOT_STATUS_SLOT, .MGC_BOOT_STATUS_TRIAL, .MGC_BOOT_STATUS_SVC_MODE, .MGC_BOOT_STATUS_CAUSE, .MGC_BOOT_STATUS_TRIES, .MGC_BOOT_STATUS_STARTS]
  | .MGC_FW_VERSION => [.MGC_FW_VERSION_SETTINGS_FMT, .MGC_FW_VERSION_FINALISER, .MGC_FW_VERSION_FWVER]
  | .MGC_FW_INFO => [.MGC_FW_INFO_SVN, .MGC_FW_INFO_F, .MGC_FW_INFO_IMG_REVOKE, .MGC_FW_INFO_FNS_REVOKE, .MGC_FW_INFO_ACTIVE, .MGC_FW_INFO_STATE_A, .MGC_FW_INFO_STATE_B]
  | .DBG_FREEZE => [.DBG_FREEZE_GO, .DBG_FREEZE_KEY]
  | .DBG_FREEZE_STATUS => [.DBG_FREEZE_STATUS_STATE, .DBG_FREEZE_STATUS_SOURCE, .DBG_FREEZE_STATUS_PIN, .DBG_FREEZE_STATUS_STOPPED, .DBG_FREEZE_STATUS_IGNORED]
  | .DBG_AP_BANK => [.DBG_AP_BANK_SPACE, .DBG_AP_BANK_UNIT]
  | .DBG_AP_STATUS => [.DBG_AP_STATUS_ERR]
  | .GLB_ID => [.GLB_ID_PART, .GLB_ID_GRADE, .GLB_ID_STEPPING]
  | .GLB_GPIO_IN => [.GLB_GPIO_IN_LEVEL]
  | .GLB_GPIO_OUT => [.GLB_GPIO_OUT_OE, .GLB_GPIO_OUT_OUT]
  | .GLB_ZT2 => [.GLB_ZT2_COUNT]

/-- Every register, in the order of the chapters; the list is written in pieces. -/
def Reg.all0 : List Reg :=
  [.GLB_FURNISH_STATUS, .GLB_LOAD_RESULT, .GLB_LOAD_AUX, .GLB_FURNISH_GEN, .GLB_LOAD_ADDR, .GLB_LOAD_CTRL, .GLB_FUNC_CTRL, .GLB_FUNC_RESULT, .GLB_FUNC_STATE, .GLB_CLAIM_CTRL, .GLB_CLAIM_RESULT, .VAT_STATUS, .VAT_SPLIT, .VAT_FAULT_WHO, .VAT_FAULT_STATUS, .VAT_FAULT_PC, .VAT_FAULT_LANES, .VAT_ISSUED, .VAT_RC_HITS, .VAT_BANK_STALLS, .VAT_BEATER, .VAT_TERR, .VAT_TPASSES, .VAT_ACQ_WAIT, .GEO_STATUS, .GEO_POOL_BASE, .GEO_PASS, .GEO_POOL_USE, .GEO_GROW_ADDR, .GEO_GROW_CTRL, .GEO_GROW_WANT, .GEO_COUNTS, .GEO_REFUSE, .CAL_RESULT, .CAL_HEAD_CTRL, .CAL_TIMING, .CAL_LEAD, .CAL_WALL, .CAL_COUNTS, .CAL_PLANE]
def Reg.all1 : List Reg :=
  [.CAL_PLANE_CTRL, .GLB_VF_STATUS, .GLB_WIN_BASE, .GLB_PCIE_LINK, .GLB_FLR_STATUS, .HB_PARSER, .HB_Q_BASE, .HB_Q_CTRL, .HB_Q_READ, .HB_Q_ERR, .HB_Q_ERR_AT, .HB_Q_MARK, .HB_PART_FAULT, .HB_PART_FAULT_AT, .HB_GRAPH_STORE, .HB_GRAPH_SIZE, .GLB_DEVRESET_STATUS, .GLB_DEVRESET_CTRL, .SYN_OBJ, .HB_MO, .HB_OBJ_CTRL, .HB_OBJ_RESULT, .HB_OBJ_ARG, .HB_OBJ_HANDLE, .HB_RECLAIM, .HB_HEAP_BASE, .HB_HEAP_STAT, .HB_USE, .HB_MEM, .HB_Q_DONE, .GLB_OBJ_QUOTA, .EVQ_ROUTE, .EVQ_BASE, .EVQ_CTRL, .EVQ_WRITE, .EVQ_READ, .EVQ_MASK, .EVQ_PEND, .EVQ_DROPPED, .SCH_POOL_SLICE]
def Reg.all2 : List Reg :=
  [.SCH_DEADLINE, .SCH_CAP, .SCH_SAVE_BASE, .SCH_SAVE_SIZE, .SCH_SAVE_USE, .SCH_FAULT, .SCH_FAULT_CTRL, .SCH_PREEMPTS, .SCH_DL_CFG, .SCH_DL_STATE, .SCH_SB_LIMIT, .SCH_SB_CREDIT, .SCH_SB_FLOOR, .SCH_SB_HELD, .SCH_SB_OVER, .XLT_STATUS, .XLT_ROOT, .XLT_PATIENCE, .XLT_INV_ADDR, .XLT_INV_DONE, .XLT_COUNTS, .XLT_MIG_CTRL, .XLT_MIG, .L2_CTRL, .L2_PARITY, .L2_STREAM, .MEM_DRAM_SIZE, .MEM_REGION, .MEM_REGION_STATE, .MEM_MAINT_CTRL, .MEM_MAINT_RESULT, .MEM_MAINT_ADDR, .MEM_MAINT_STATE, .MEM_SCRUB_CTRL, .MEM_SCRUB_STAT, .MEM_ERR_CTRL, .MEM_ERR_LOG, .MEM_ECC_COUNT, .MEM_SAVEALL, .MEM_SELFTEST]
def Reg.all3 : List Reg :=
  [.PLP_ENGINE, .PLP_SLOT, .BAL_STATUS, .FLT_STATUS, .FLT_MEMBERS, .FLT_CTRL, .FLT_TRANSIT, .FLT_PORT, .FLT_PORT_ERR, .FLT_FW_STAGE, .FLT_FW_STATUS, .PWR_STATUS, .PWR_CLASS, .PWR_DVFS, .PWR_DVFS_RESULT, .PWR_LIMIT, .PWR_RESERVE, .PWR_TEMP, .PWR_WEAR, .PWR_DOM_CTRL, .PWR_DOM_STATE, .PWR_DOM_COUNT, .PWR_DOM_RESULT, .MGC_MBOX_CTRL, .MGC_MBOX_ARG, .MGC_MBOX_RESULT, .MGC_BOOT_STATUS, .MGC_FW_VERSION, .MGC_FW_INFO, .DBG_FREEZE, .DBG_FREEZE_STATUS, .DBG_AP_BANK, .DBG_AP_STATUS, .GLB_ID, .GLB_GPIO_IN, .GLB_GPIO_OUT, .GLB_ZT2]

/-- Every register. -/
def Reg.all : List Reg := Reg.all0 ++ Reg.all1 ++ Reg.all2 ++ Reg.all3

/-- Fields, piece 0. -/
def Field.all0 : List Field :=
  [.GLB_FURNISH_STATUS_LOCKED, .GLB_FURNISH_STATUS_NULL, .GLB_FURNISH_STATUS_SOURCE, .GLB_FURNISH_STATUS_MASTER, .GLB_FURNISH_STATUS_DELTAS, .GLB_FURNISH_STATUS_RECORDS, .GLB_LOAD_RESULT_STATUS, .GLB_LOAD_AUX_RESOURCE, .GLB_LOAD_AUX_RECORD, .GLB_FURNISH_GEN_GENERATION, .GLB_LOAD_ADDR_ADDR, .GLB_LOAD_CTRL_GO, .GLB_LOAD_CTRL_PENDING, .GLB_LOAD_CTRL_KIND, .GLB_FUNC_CTRL_GO, .GLB_FUNC_CTRL_PENDING, .GLB_FUNC_CTRL_OP, .GLB_FUNC_CTRL_KIND, .GLB_FUNC_CTRL_INDEX, .GLB_FUNC_RESULT_STATUS, .GLB_FUNC_STATE_DRAINED, .GLB_FUNC_STATE_STATE, .GLB_CLAIM_CTRL_GO, .GLB_CLAIM_CTRL_PENDING, .GLB_CLAIM_CTRL_OP, .GLB_CLAIM_CTRL_FEATURE, .GLB_CLAIM_CTRL_RESOURCE, .GLB_CLAIM_RESULT_STATUS, .VAT_STATUS_STATE, .VAT_STATUS_MODE, .VAT_STATUS_PART, .VAT_STATUS_POOLED, .VAT_STATUS_QUIRES, .VAT_STATUS_BLOCKS, .VAT_SPLIT_BEATER, .VAT_SPLIT_TILE, .VAT_SPLIT_LOCAL, .VAT_SPLIT_L1, .VAT_FAULT_WHO_VALID, .VAT_FAULT_WHO_PART, .VAT_FAULT_WHO_QUIRE, .VAT_FAULT_WHO_BLOCK, .VAT_FAULT_WHO_MORE, .VAT_FAULT_STATUS_STATUS, .VAT_FAULT_PC_PC, .VAT_FAULT_LANES_LANES, .VAT_ISSUED_COUNT, .VAT_RC_HITS_COUNT, .VAT_BANK_STALLS_COUNT, .VAT_BEATER_SET1_HELD, .VAT_BEATER_SET1_INT, .VAT_BEATER_SET1_QUIRE, .VAT_BEATER_SET0_HELD, .VAT_BEATER_SET0_INT, .VAT_BEATER_SET0_QUIRE, .VAT_BEATER_WAITING, .VAT_BEATER_BUSY, .VAT_BEATER_QUEUED, .VAT_TERR_VALID, .VAT_TERR_OP]

/-- Fields, piece 1. -/
def Field.all1 : List Field :=
  [.VAT_TERR_QUIRE, .VAT_TERR_REASON, .VAT_TPASSES_COUNT, .VAT_ACQ_WAIT_COUNT, .GEO_STATUS_BINNING, .GEO_STATUS_BIN_PART, .GEO_STATUS_TILES, .GEO_POOL_BASE_ADDR, .GEO_PASS_STATE, .GEO_PASS_CHUNKS, .GEO_PASS_SEGMENTS, .GEO_PASS_DRAWS, .GEO_POOL_USE_PEAK, .GEO_POOL_USE_NOW, .GEO_GROW_ADDR_ADDR, .GEO_GROW_CTRL_REQ, .GEO_GROW_CTRL_OP, .GEO_GROW_CTRL_RESULT, .GEO_GROW_CTRL_SIZE, .GEO_GROW_WANT_BYTES, .GEO_COUNTS_BROKE, .GEO_COUNTS_GROWN, .GEO_COUNTS_FALLBACK, .GEO_COUNTS_CAUSE, .GEO_REFUSE_VALID, .GEO_REFUSE_OP, .GEO_REFUSE_REASON, .CAL_RESULT_STATUS, .CAL_HEAD_CTRL_HPD, .CAL_HEAD_CTRL_TRAINED, .CAL_HEAD_CTRL_FAIL, .CAL_HEAD_CTRL_RATE, .CAL_HEAD_CTRL_LANES, .CAL_HEAD_CTRL_BPC10, .CAL_HEAD_CTRL_HPOL, .CAL_HEAD_CTRL_VPOL, .CAL_HEAD_CTRL_KHZ, .CAL_TIMING_VSYNC_END, .CAL_TIMING_VSYNC_START, .CAL_TIMING_VTOTAL, .CAL_TIMING_VACTIVE, .CAL_TIMING_HSYNC_END, .CAL_TIMING_HSYNC_START, .CAL_TIMING_HTOTAL, .CAL_TIMING_HACTIVE, .CAL_LEAD_CYCLES, .CAL_WALL_VALUE, .CAL_WALL_HANDLE, .CAL_COUNTS_HELD, .CAL_COUNTS_REPLACED, .CAL_PLANE_DST_H, .CAL_PLANE_DST_W, .CAL_PLANE_DST_Y, .CAL_PLANE_DST_X, .CAL_PLANE_SRC_H, .CAL_PLANE_SRC_W, .CAL_PLANE_STRIDE, .CAL_PLANE_BASE, .CAL_PLANE_CTRL_ARM, .CAL_PLANE_CTRL_EN]

/-- Fields, piece 2. -/
def Field.all2 : List Field :=
  [.CAL_PLANE_CTRL_FMT, .CAL_PLANE_CTRL_ALPHA, .CAL_PLANE_CTRL_ERR, .GLB_VF_STATUS_READY, .GLB_VF_STATUS_STATE, .GLB_VF_STATUS_HOME, .GLB_VF_STATUS_PART, .GLB_WIN_BASE_ADDR, .GLB_PCIE_LINK_SPEED, .GLB_PCIE_LINK_WIDTH, .GLB_PCIE_LINK_VF_EN, .GLB_PCIE_LINK_NUMVFS, .GLB_PCIE_LINK_BAR4, .GLB_FLR_STATUS_RUNNING, .HB_PARSER_WDOG, .HB_PARSER_ROUNDS, .HB_Q_BASE_ADDR, .HB_Q_CTRL_EN, .HB_Q_CTRL_DESTROYING, .HB_Q_CTRL_HALTED, .HB_Q_CTRL_RESUME, .HB_Q_CTRL_SIZE, .HB_Q_READ_INDEX, .HB_Q_ERR_STATUS, .HB_Q_ERR_AT_MORE, .HB_Q_ERR_AT_SLOT, .HB_Q_MARK_VALUE, .HB_PART_FAULT_STATUS, .HB_PART_FAULT_AT_QUEUE, .HB_PART_FAULT_AT_SLOT, .HB_GRAPH_STORE_ADDR, .HB_GRAPH_SIZE_UNITS, .GLB_DEVRESET_STATUS_STATUS, .GLB_DEVRESET_CTRL_REQUEST, .GLB_DEVRESET_CTRL_DONE, .GLB_DEVRESET_CTRL_COUNT, .GLB_DEVRESET_CTRL_MERGED, .SYN_OBJ_EXPORT, .SYN_OBJ_WAITERS, .SYN_OBJ_AUX, .SYN_OBJ_VALUE, .SYN_OBJ_TYPE, .SYN_OBJ_STATE, .SYN_OBJ_OWNER, .SYN_OBJ_QBOUND, .SYN_OBJ_QUEUE, .HB_MO_EXPORT, .HB_MO_HOLDERS, .HB_MO_TAG, .HB_MO_SIZE, .HB_MO_STATE, .HB_MO_OWNER, .HB_MO_PENDING, .HB_MO_BASE, .HB_OBJ_CTRL_GO, .HB_OBJ_CTRL_PENDING, .HB_OBJ_CTRL_OP, .HB_OBJ_CTRL_TYPE, .HB_OBJ_CTRL_HANDLE, .HB_OBJ_RESULT_STATUS]

/-- Fields, piece 3. -/
def Field.all3 : List Field :=
  [.HB_OBJ_ARG_ARG3, .HB_OBJ_ARG_ARG2, .HB_OBJ_ARG_ARG1, .HB_OBJ_ARG_ARG0, .HB_OBJ_HANDLE_HANDLE, .HB_RECLAIM_GO, .HB_RECLAIM_RUNNING, .HB_HEAP_BASE_ADDR, .HB_HEAP_STAT_FAILED, .HB_HEAP_STAT_BADFREE, .HB_USE_FELT, .HB_USE_DRAM, .HB_USE_BEATER, .HB_USE_VAT, .HB_MEM_POOL, .HB_MEM_HEAP, .HB_MEM_RESIDENT, .HB_Q_DONE_INDEX, .GLB_OBJ_QUOTA_SYN, .GLB_OBJ_QUOTA_MO, .EVQ_ROUTE_POWER, .EVQ_ROUTE_DRAM_ERROR, .EVQ_ROUTE_RING, .EVQ_ROUTE_THERMAL, .EVQ_BASE_ADDR, .EVQ_CTRL_EN, .EVQ_CTRL_OVF, .EVQ_CTRL_SIZE, .EVQ_WRITE_INDEX, .EVQ_READ_INDEX, .EVQ_MASK_MASK, .EVQ_PEND_PEND, .EVQ_DROPPED_COUNT, .SCH_POOL_SLICE_UNITS, .SCH_DEADLINE_ACTIVE, .SCH_DEADLINE_LENT, .SCH_DEADLINE_LEND, .SCH_DEADLINE_NOLEND, .SCH_CAP_PIXELS, .SCH_CAP_FELT, .SCH_CAP_L2, .SCH_CAP_DRAM, .SCH_SAVE_BASE_ADDR, .SCH_SAVE_SIZE_UNITS, .SCH_SAVE_USE_BLOCKS, .SCH_SAVE_USE_FULL, .SCH_FAULT_STATUS, .SCH_FAULT_CTRL_FAULTED, .SCH_FAULT_CTRL_STOPPED, .SCH_FAULT_CTRL_AUTO, .SCH_FAULT_CTRL_MORE, .SCH_PREEMPTS_COUNT, .SCH_DL_CFG_BUDGET, .SCH_DL_CFG_CHECK, .SCH_DL_CFG_THRESH, .SCH_DL_CFG_EN, .SCH_DL_CFG_ABORT, .SCH_DL_CFG_PART, .SCH_DL_CFG_QUEUE, .SCH_DL_CFG_FALLBACK]

/-- Fields, piece 4. -/
def Field.all4 : List Field :=
  [.SCH_DL_CFG_MAIN, .SCH_DL_STATE_FALLBACK, .SCH_DL_STATE_ONTIME, .SCH_DL_STATE_BEHIND, .SCH_DL_STATE_LATE, .SCH_SB_LIMIT_PIXELS, .SCH_SB_LIMIT_FELT, .SCH_SB_LIMIT_L2, .SCH_SB_LIMIT_DRAM, .SCH_SB_CREDIT_PIXELS, .SCH_SB_CREDIT_FELT, .SCH_SB_CREDIT_L2, .SCH_SB_CREDIT_DRAM, .SCH_SB_FLOOR_PIXELS, .SCH_SB_FLOOR_FELT, .SCH_SB_FLOOR_L2, .SCH_SB_FLOOR_DRAM, .SCH_SB_HELD_COUNT, .SCH_SB_OVER_UNITS, .XLT_STATUS_MIG_USED, .XLT_STATUS_WALKS, .XLT_ROOT_ADDR, .XLT_ROOT_EN, .XLT_PATIENCE_CYCLES, .XLT_INV_ADDR_ADDR, .XLT_INV_DONE_BUSY, .XLT_INV_DONE_MERGED, .XLT_INV_DONE_SEQ, .XLT_COUNTS_MIGRATIONS, .XLT_COUNTS_PREFETCH_DROPPED, .XLT_MIG_CTRL_GO, .XLT_MIG_CTRL_OP, .XLT_MIG_CTRL_RESULT, .XLT_MIG_CTRL_INDEX, .XLT_MIG_WAITERS, .XLT_MIG_AGE, .XLT_MIG_VPAGE, .XLT_MIG_USED, .XLT_MIG_RIGHTS, .XLT_MIG_LEVEL, .XLT_MIG_PART, .L2_CTRL_EN, .L2_PARITY_CLEAN, .L2_STREAM_COUNT, .MEM_DRAM_SIZE_BYTES, .MEM_REGION_SIZE, .MEM_REGION_BASE, .MEM_REGION_CODE, .MEM_REGION_STATE_SCRUB, .MEM_MAINT_CTRL_GO, .MEM_MAINT_CTRL_PENDING, .MEM_MAINT_CTRL_OP, .MEM_MAINT_CTRL_ACT, .MEM_MAINT_CTRL_ARG, .MEM_MAINT_RESULT_STATUS, .MEM_MAINT_ADDR_ADDR, .MEM_MAINT_STATE_WAITING, .MEM_MAINT_STATE_RUNNING, .MEM_SCRUB_CTRL_INTERVAL, .MEM_SCRUB_STAT_PASSES]

/-- Fields, piece 5. -/
def Field.all5 : List Field :=
  [.MEM_ERR_CTRL_CE_STEP, .MEM_ERR_LOG_STATUS, .MEM_ERR_LOG_MASK, .MEM_ERR_LOG_VALID, .MEM_ERR_LOG_SECTOR, .MEM_ECC_COUNT_UE, .MEM_ECC_COUNT_CE, .MEM_SAVEALL_VALID, .MEM_SAVEALL_BLOCK, .MEM_SELFTEST_DONE, .MEM_SELFTEST_FAIL, .MEM_SELFTEST_CTRL, .MEM_SELFTEST_VECTOR, .PLP_ENGINE_BUSY, .PLP_ENGINE_SLOT, .PLP_ENGINE_CONCEALED, .PLP_SLOT_EN, .PLP_SLOT_CODEC, .PLP_SLOT_OWNER, .PLP_SLOT_BUSY, .PLP_SLOT_QUEUE, .PLP_SLOT_REFS, .BAL_STATUS_BUSY, .BAL_STATUS_DIR, .BAL_STATUS_PART, .BAL_STATUS_ERRORS, .FLT_STATUS_MASTER, .FLT_STATUS_LIVE, .FLT_STATUS_ORPHAN, .FLT_STATUS_CHANGING, .FLT_STATUS_STRAP_ERR, .FLT_STATUS_POS, .FLT_STATUS_EPOCH, .FLT_MEMBERS_REACH, .FLT_MEMBERS_LIVE, .FLT_CTRL_WITHDRAW, .FLT_CTRL_REDISCOVER, .FLT_TRANSIT_COUNT, .FLT_PORT_STATE, .FLT_PORT_ALIVE, .FLT_PORT_WIDTH, .FLT_PORT_PEER, .FLT_PORT_RETRAINS, .FLT_PORT_ERR_CRC, .FLT_PORT_ERR_REPLAYS, .FLT_FW_STAGE_ADDR, .FLT_FW_STATUS_FAILED, .FLT_FW_STATUS_DONE, .PWR_STATUS_TRIPPED, .PWR_STATUS_WORN, .PWR_STATUS_PEAK, .PWR_STATUS_CLASS, .PWR_STATUS_LIMITED, .PWR_STATUS_FAB, .PWR_STATUS_VAT, .PWR_STATUS_ARR, .PWR_CLASS_PEAK, .PWR_CLASS_CLASS, .PWR_DVFS_BUSY, .PWR_DVFS_VOP]

/-- Fields, piece 6. -/
def Field.all6 : List Field :=
  [.PWR_DVFS_FOP, .PWR_DVFS_RESULT_STATUS, .PWR_LIMIT_TRIPS, .PWR_LIMIT_CURRENT, .PWR_LIMIT_THERMAL, .PWR_LIMIT_POWER, .PWR_RESERVE_RESERVE, .PWR_RESERVE_AVG, .PWR_TEMP_SENSOR, .PWR_TEMP_TEMP, .PWR_WEAR_SECONDS, .PWR_DOM_CTRL_TARGET, .PWR_DOM_CTRL_AUTO, .PWR_DOM_CTRL_IDLE, .PWR_DOM_STATE_STATE, .PWR_DOM_STATE_REFUSER, .PWR_DOM_STATE_ENTRIES, .PWR_DOM_COUNT_REFUSED, .PWR_DOM_COUNT_ABORTED, .PWR_DOM_RESULT_STATUS, .MGC_MBOX_CTRL_GO, .MGC_MBOX_CTRL_PENDING, .MGC_MBOX_CTRL_LOST, .MGC_MBOX_CTRL_CMD, .MGC_MBOX_ARG_ADDR, .MGC_MBOX_RESULT_DETAIL, .MGC_MBOX_RESULT_CAUSE, .MGC_BOOT_STATUS_STAGE, .MGC_BOOT_STATUS_SLOT, .MGC_BOOT_STATUS_TRIAL, .MGC_BOOT_STATUS_SVC_MODE, .MGC_BOOT_STATUS_CAUSE, .MGC_BOOT_STATUS_TRIES, .MGC_BOOT_STATUS_STARTS, .MGC_FW_VERSION_SETTINGS_FMT, .MGC_FW_VERSION_FINALISER, .MGC_FW_VERSION_FWVER, .MGC_FW_INFO_SVN, .MGC_FW_INFO_F, .MGC_FW_INFO_IMG_REVOKE, .MGC_FW_INFO_FNS_REVOKE, .MGC_FW_INFO_ACTIVE, .MGC_FW_INFO_STATE_A, .MGC_FW_INFO_STATE_B, .DBG_FREEZE_GO, .DBG_FREEZE_KEY, .DBG_FREEZE_STATUS_STATE, .DBG_FREEZE_STATUS_SOURCE, .DBG_FREEZE_STATUS_PIN, .DBG_FREEZE_STATUS_STOPPED, .DBG_FREEZE_STATUS_IGNORED, .DBG_AP_BANK_SPACE, .DBG_AP_BANK_UNIT, .DBG_AP_STATUS_ERR, .GLB_ID_PART, .GLB_ID_GRADE, .GLB_ID_STEPPING, .GLB_GPIO_IN_LEVEL, .GLB_GPIO_OUT_OE, .GLB_GPIO_OUT_OUT]

/-- Fields, piece 7. -/
def Field.all7 : List Field :=
  [.GLB_ZT2_COUNT]

/-- Every field. -/
def Field.all : List Field := Field.all0 ++ Field.all1 ++ Field.all2 ++ Field.all3 ++ Field.all4 ++ Field.all5 ++ Field.all6 ++ Field.all7

/-- The width of a field in bits. -/
def Field.width (f : Field) : Nat := f.spec.hi + 1 - f.spec.lo

/-- The key of element [i][j] of a field in the register file; array indices stay below 65,536. -/
def Field.key (f : Field) (i j : Nat) : Nat := (f.ctorIdx * 65536 + i) * 65536 + j

/-- A register element and word named by an offset: register, two array indices, word index (R4). -/
structure RegAt where
  reg : Reg
  i : Nat
  j : Nat
  w : Nat
deriving DecidableEq, Repr

/-- The indices at which offset `o` (from the register's base) falls into the array, if it does. -/
def Reg.locate (r : Reg) (o : Nat) : Option RegAt :=
  let sp := r.spec
  let i := if sp.n1 = 1 then 0 else o / sp.s1
  let o1 := o - i * sp.s1
  let j := if sp.n2 = 1 then 0 else o1 / sp.s2
  let o2 := o1 - j * sp.s2
  if o % 4 = 0 ∧ i < sp.n1 ∧ j < sp.n2 ∧ o2 < 4 * sp.words then some ⟨r, i, j, o2 / 4⟩ else none

/-- The first register of a list in which the PF offset `off` falls (R3, R6: none where no register is defined). -/
def Reg.findIn (off : Nat) : List Reg → Option RegAt
  | [] => none
  | r :: rs =>
    if r.spec.view ≠ .vfOnly ∧ r.spec.base ≤ off then
      match r.locate (off - r.spec.base) with
      | some a => some a
      | none => Reg.findIn off rs
    else Reg.findIn off rs

/-- The register word that PF BAR0 offset `off` names (R3, R4, R6). -/
def Reg.decode (off : Nat) : Option RegAt := Reg.findIn off Reg.all

end Sys2Proof.Machine
end

