-- ==== Sys2Proof/Machine/Store.lean ====
section
/-!
DEFINITION. Sparse data by number: a list of (key, value) pairs in one canonical form (keys strictly rising, no value
equal to the default), so that equal contents are equal data. `Mem` is such a list of bytes (Host.Cell); the register
file and the tables of the units use the same operations.
-/

namespace Sys2Proof.Machine

variable {α : Type}

/-- The value at key `k`, or the default. -/
def storeGet (d : α) : List (Nat × α) → Nat → α
  | [], _ => d
  | (k', v) :: r, k => if k = k' then v else storeGet d r k

/-- Insert or replace the value at key `k`, keeping the keys rising. -/
def storePut (k : Nat) (v : α) : List (Nat × α) → List (Nat × α)
  | [] => [(k, v)]
  | (k', v') :: r =>
    if k < k' then (k, v) :: (k', v') :: r
    else if k = k' then (k, v) :: r
    else (k', v') :: storePut k v r

/-- Remove key `k`. -/
def storeErase (l : List (Nat × α)) (k : Nat) : List (Nat × α) := l.filter (fun c => c.1 ≠ k)

/-- Write `v` at key `k`; writing the default removes the entry. -/
def storeSet [DecidableEq α] (d : α) (l : List (Nat × α)) (k : Nat) (v : α) : List (Nat × α) :=
  if v = d then storeErase l k else storePut k v l

/-- The value at key `k`, if it is listed. -/
def storeFind : List (Nat × α) → Nat → Option α
  | [], _ => none
  | (k', v) :: r, k => if k = k' then some v else storeFind r k

/-- Apply `f` to the entry at key `k`, if it is listed. -/
def storeMod (f : α → α) (l : List (Nat × α)) (k : Nat) : List (Nat × α) :=
  l.map (fun c => if c.1 = k then (c.1, f c.2) else c)

/-- The keys rise strictly above `lo` (none: no bound). -/
def storeRising : Option Nat → List (Nat × α) → Bool
  | _, [] => true
  | none, (k, _) :: r => storeRising (some k) r
  | some lo, (k, _) :: r => decide (lo < k) && storeRising (some k) r

/-- The canonical form: keys strictly rising and no value equal to the default. -/
def storeWf [DecidableEq α] (d : α) (l : List (Nat × α)) : Bool :=
  storeRising none l && l.all (fun c => decide (c.2 ≠ d))

/-- Write a list of values at consecutive keys. -/
def storeSetMany [DecidableEq α] (d : α) (l : List (Nat × α)) (k : Nat) : List α → List (Nat × α)
  | [] => l
  | v :: vs => storeSetMany d (storeSet d l k v) (k + 1) vs

/-- Read `n` values at consecutive keys. -/
def storeGetMany (d : α) (l : List (Nat × α)) (k n : Nat) : List α :=
  (List.range n).map (fun i => storeGet d l (k + i))

/-- A memory: bytes by address in canonical form. -/
abbrev Mem := List Host.Cell

/-- The byte at an address of a memory whose unlisted addresses read `d`. -/
def memByte (d : Byte) (m : Mem) (a : Nat) : Byte := storeGet d m a

/-- The memory with one byte written. -/
def memSet (d : Byte) (m : Mem) (a : Nat) (b : Byte) : Mem := storeSet d m a b

/-- The canonical form of a memory whose unlisted addresses read `d`. -/
def Mem.wf (d : Byte) (m : Mem) : Bool := storeWf d m

/-- `n` bytes from address `a`. -/
def memRead (d : Byte) (m : Mem) (a n : Nat) : List Byte := storeGetMany d m a n

/-- The memory with a run of bytes written from address `a`. -/
def memWrite (d : Byte) (m : Mem) (a : Nat) (bs : List Byte) : Mem := storeSetMany d m a bs

end Sys2Proof.Machine
end

