-- ==== Sys2Proof/Machine/State.lean ====
section
/-!
DEFINITION. The state of the block: plain data, one structure per unit. Register fields are held in one register file
(`State.regs`, by field and array index; a field that is not listed holds its reset value). What the spec's text names
besides its registers (queued commands, resident blocks, caches, buffers, timers that can expire, pins) is held in the
structure of its unit. INVENTORY.md lists every piece with the rule that names it.
-/

namespace Sys2Proof.Machine

/-- Why a step stops with a fault. No command of the spec stops the block: every event of the table has an effect, and
what an event refuses is reported in a register, a record or a status. So there is no fault. -/
inductive Fault
deriving DecidableEq, Repr

/-- Why a step is refused. -/
inductive Refusal
  /-- Raised by `exec` only, for a command whose meaning is not in the model yet. Safe: the run stops. -/
  | notModelled (mnemonic : String)
deriving DecidableEq, Repr

/-- What the last read from outside returned (log entry 1): nothing yet, bytes, an Unsupported Request, a Completer
Abort, or no acknowledge. -/
inductive Reply
  | none
  | data (bytes : List Byte)
  | unsupported
  | abort
  | nack
deriving DecidableEq, Repr

/-- A register field with its array indices. -/
structure At where
  f : Field
  i : Nat := 0
  j : Nat := 0
deriving DecidableEq, Repr

/-! ### The furnish, functions and claims (spec/01) -/

/-- A furnish record (R16): type, key and body. -/
structure FRec where
  type : Nat
  key : Nat
  body : List Byte
deriving DecidableEq, Repr

/-- A run-time or furnish claim of a resource (R41 to R47): feature, and holder 0x00 MGC, 0x01 PF, 0xFE furnish. -/
structure Claim where
  feature : Nat
  who : Nat
deriving DecidableEq, Repr

/-- A delta in its two phases (R40): the bit-stream and the positions whose READY is missing. -/
structure DeltaRun where
  bytes : List Byte
  waiting : List Nat
  committed : Bool
deriving DecidableEq, Repr

/-- The furnish in force, the retained deltas (R35), a delta staged here (R40) and at the master, the pieces of a delta
received so far, and the claims. -/
structure Furnish where
  base : List Byte := []
  recs : List FRec := []
  deltas : List (List Byte) := []
  staged : Option (List Byte) := none
  delta : Option DeltaRun := none
  rx : List Byte := []
  claims : List (Nat × Claim) := []
deriving DecidableEq, Repr

/-! ### The headbox (spec/09, spec/10) -/

/-- Where a command stands: passed intake, handed to an engine, completed. -/
inductive Phase | fetched | handed | done
deriving DecidableEq, Repr

/-- A command (R237 to R240): a packet's words, the slots it fills, and the graph node it comes from, if any. `result`
is the status its engine has reached, before COMMAND_COMPLETE. -/
structure Cmd where
  id : Nat
  p : Nat
  q : Nat
  op : Nat
  flags : Nat
  words : List Word
  slot : Nat
  slots : Nat
  phase : Phase
  result : Option Nat := none
  node : Option (Nat × Nat) := none
  progress : Nat := 0
deriving DecidableEq, Repr

/-- A version of a stored graph (R257): its nodes of 64 bytes. -/
structure GraphVer where
  p : Nat
  graph : Nat
  ver : Nat
  current : Bool
  nodes : List (List Byte)
deriving DecidableEq, Repr

/-- A node of a running graph launch (R259); `tiles` are the blocks of its launch, once it is handed off (R320). -/
structure RunNode where
  bytes : List Byte
  phase : Phase
  status : Nat
  tiles : Nat := 0
deriving DecidableEq, Repr

/-- A running graph launch: the command it belongs to, the graph and version it bound, the argument block. -/
structure GraphRun where
  id : Nat
  cmd : Nat
  p : Nat
  q : Nat
  graph : Nat
  ver : Nat
  args : Nat
  nodes : List RunNode
deriving DecidableEq, Repr

/-- What a stop in progress is for (R285, R287, R315, R36). -/
inductive StopCause
  | queue (p q : Nat)
  | reclaim (p : Nat)
  | fault (p : Nat)
  | func (k : Nat) (drain : Bool)
deriving DecidableEq, Repr

/-- A stop in progress and the engines that still have to acknowledge. -/
structure Stop where
  id : Nat
  cause : StopCause
  waiting : List EngineUnit
deriving DecidableEq, Repr

/-- A pending-release record (R269): an object (sync or memory), a partition, and the stamped queues. -/
structure Release where
  mem : Bool
  obj : Nat
  p : Nat
  stamps : List (Nat × Nat)
deriving DecidableEq, Repr

/-- The headbox: commands per queue (key 16 p + q, oldest first), doorbell registers, graphs, stops, release records,
and the partitions whose reclaim waits for free records (R288). -/
structure Headbox where
  queues : List (Nat × List Cmd) := []
  bells : List (Nat × Nat) := []
  versions : List GraphVer := []
  runs : List GraphRun := []
  stops : List Stop := []
  releases : List Release := []
  reclaimWait : List Nat := []
deriving DecidableEq, Repr

/-! ### Launches and the vats (spec/02, spec/03, spec/05) -/

/-- A finalised module (R85 to R89): the header's fields and the code words. -/
structure Module where
  bytes : List Byte
  entry : Nat
  handler : Option Nat
  vregs : Nat
  mn3 : Bool
  code : List Dword
deriving DecidableEq, Repr

/-- What a launch is for: a LAUNCH or GATED_LAUNCH command, the vertices of a draw, the fragments of a tile. -/
inductive LaunchUse
  | compute (cmd : Nat)
  | vertex (p : Nat) (draw : Nat)
  | fragment (p : Nat) (tile : Nat)
  | column (src : Nat) (col : Nat)
deriving DecidableEq, Repr

/-- A launch handed to the vats: its descriptor's fields (R248), its module, and its progress. `split` is L1, local,
tile, beater granules. `tiles` are the selected tiles of a gated launch with their primitive counts; `payload` the
registers v0 on that a thread starts with, by thread index (R179, R189), `outs` those it ended with. -/
structure Launch where
  id : Nat
  p : Nat
  use : LaunchUse
  mod : Module
  code : Nat
  const : Nat
  csize : Nat
  gx : Nat
  gy : Nat
  gz : Nat
  bx : Nat
  by' : Nat
  bz : Nat
  vregs : Nat
  lbytes : Nat
  mbytes : Nat
  bbytes : Nat
  split : List Nat
  mn3 : Bool
  patience : Nat
  trap : Bool
  tag : Nat
  total : Nat
  next : Nat
  retired : Nat
  tiles : List (Nat × Nat)
  payload : List (List Word)
  outs : List (Nat × List Nat) := []
deriving DecidableEq, Repr

/-- A mask-stack entry (R63): PENDING holds a path, RECONV a mask to restore. -/
structure StackEntry where
  pending : Bool
  mask : Word
  addr : Nat
deriving DecidableEq, Repr

/-- A parked record (R67). -/
structure Parked where
  ident : Nat
  mask : Word
  addr : Nat
deriving DecidableEq, Repr

/-- What keeps a quire from issuing. -/
inductive QWait
  | run                                                -- it may issue
  | idle                                               -- only parked paths remain (R67)
  | finished                                           -- R64
  | saved                                              -- stopped after a SAVEPT (R120)
  | held                                               -- held by a fault (R81)
  | sync                                               -- lanes wait in SYN.WAIT (R284)
  | arrive (obj phase : Nat) (lanes : Word)            -- lanes wait in SYN.ARRIVE (R279)
  | lock (lanes : Word) (dst : Nat) (res : List (Nat × Nat))   -- LOCK.ACQ waits (R72)
  | acq (n : Nat)                                      -- a set acquisition waits (R149)
  | order                                              -- a MORDER waits for tensor work (R166)
  | migration                                          -- R341
  | remote (left : List Nat)                           -- requests to the host or another chip are outstanding
deriving DecidableEq, Repr

/-- A tile handle t0 to t7 (R152): empty, a staged tile, or an accumulator set. -/
inductive Handle
  | empty
  | tile (role : Nat) (fmt : Nat) (k : Nat) (buf : Nat)
  | acc (set : Nat)
deriving DecidableEq, Repr

/-- The hidden state that a trap entry saves (R122). -/
structure TrapSave where
  s56 : List Word
  active : Word
  depth : Nat
  status : Nat
  blockScope : Bool
  pc : Nat := 0
deriving DecidableEq, Repr

/-- A quire (R63, R93): its block, its index in it, masks, pc (word index), mask stack (top first), parked records,
v registers (key 32 r + lane), s registers, predicates (one bit a lane), tile handles, discarded lanes (R105). Registers not listed read the
free value of `seed`, or 0 after a restore (`seed = none`, R121). -/
structure Quire where
  block : Nat
  idx : Nat
  sched : Nat
  active : Word
  exited : Word
  pc : Nat
  stack : List StackEntry := []
  parked : List Parked := []
  v : List (Nat × Word) := []
  s : List (Nat × Word) := []
  pr : List (Nat × Word) := []
  t : List (Nat × Handle) := []
  seed : Option Nat := none
  wait : QWait := .run
  trap : Option TrapSave := none
  savedLive : Option Nat := none
  discarded : Word := 0
deriving DecidableEq, Repr

/-- A resident block (R56, R76): its launch, index, arrivals at barriers (key 32 ident + quire), patience counter and
whether a lock made it wait, its local store, tile memory and beater buffer bytes, BRED reductions under way, the quire slot whose handler holds the
other quires (R81), and the save slot's address while the block is being saved (R309). -/
structure Block where
  launch : Nat
  index : Nat
  arrived : List (Nat × Word) := []
  patience : Nat := 0
  lockWait : Bool := false
  loc : Mem := []
  tile : Mem := []
  buf : Mem := []
  bred : List (Nat × List Nat) := []
  seed : Option Nat := none
  yieldAsked : Bool := false
  saving : Option Nat := none
  handler : Option Nat := none
deriving DecidableEq, Repr

/-- An accumulator set (R147 to R151): owner quire slot and handle, integer or floating, its 64 × 64 elements (row
major; none before the first pass). -/
structure AccSet where
  owner : Option (Nat × Nat) := none
  int : Bool := false
  els : List Nat := []
deriving DecidableEq, Repr

/-- An instruction in the beater, in beater order (R165), with what it captured when it entered (R153): the quire slot,
the descriptor and origin, the tiles and the set; `pass` counts a TMMA's completed passes. -/
inductive BeatOp
  | tld (slot : Nat) (desc : List Byte) (row col : Nat)
  | tmma (slot set : Nat) (a b : Handle) (clear : Bool) (pass : Nat)
  | tst (slot set : Nat) (desc : List Byte) (row col : Nat) (rel : Bool)
  | tcvt (slot : Nat) (src dst : Handle) (ovf : Bool)
deriving DecidableEq, Repr

/-- An acquisition request in the queue of R149: quire slot, handles that receive sets, how many. -/
structure AcqReq where
  slot : Nat
  h : Nat
  n : Nat
deriving DecidableEq, Repr

/-- A vat: quires and blocks by slot, split, mode, preload slot (a launch), pending pre-emption requests (partitions),
pool holder, lent mark, L1 bytes, accumulator sets, acquisition queue, beater instructions, and the register cache: per
scheduler the cached rows (256 × quire slot + register), most recently used first (R53). -/
structure Vat where
  quires : List (Nat × Quire) := []
  blocks : List (Nat × Block) := []
  preload : Option Nat := none
  preempt : List Nat := []
  holder : Option Nat := none
  lent : Bool := false
  l1 : Mem := []
  sets : List (Nat × AccSet) := []
  acqq : List AcqReq := []
  ops : List BeatOp := []
  rc : List (Nat × List Nat) := []
deriving DecidableEq, Repr

/-! ### Waits, requests, translation (spec/08, spec/10, spec/13) -/

/-- Who waits on a sync object: a WAIT command, or a lane of a quire with the register that takes the status. -/
inductive Waiter
  | cmd (id : Nat)
  | lane (vat slot lane dst : Nat)
  | remote (src tag : Nat)
deriving DecidableEq, Repr

/-- A wait (R283, R284): the object, the threshold, the timeout (0 none), whether it is registered, and the notice
that is on its way. -/
structure Wait where
  id : Nat
  obj : Nat
  threshold : Nat
  timeout : Nat
  who : Waiter
  p : Nat
  registered : Bool
  notice : Option Nat := none
deriving DecidableEq, Repr

/-- A lane in line for a lock (R72, R278), and the tag of its message when it is on another chip. -/
structure LockWaiter where
  obj : Nat
  chip : Nat
  vat : Nat
  slot : Nat
  lane : Nat
  tag : Nat := 0
deriving DecidableEq, Repr

/-- Whose work a memory access, a request or a migration wait is: an instruction of a quire, the beater, a block
dispatch of a launch, a command, a ring-slot fetch, a geometry pass, a table walk, a store of a quire whose completion
is awaited, posted work of a partition, ring management, or another chip's request. -/
inductive Owner
  | quire (vat slot : Nat)
  | beater (vat : Nat)
  | launch (id : Nat)
  | cmd (id : Nat)
  | queue (p q : Nat)
  | geo (p : Nat)
  | store (vat slot : Nat)
  | post (p : Nat)
  | ctl
  | remote (src tag : Nat)
deriving DecidableEq, Repr

/-- A request outstanding at the PCIe controller (R228, R229) or on the felt ring (R425); `va` is the virtual address of an
access. -/
structure Req where
  id : Nat
  fn : Nat
  dst : Option Nat
  p : Nat
  addr : Nat
  n : Nat
  msg : List Byte
  owner : Owner
  va : Nat := 0
deriving DecidableEq, Repr

/-- A translation (R331, R332): PFN and the PTE's attributes. -/
structure Xlat where
  pfn : Nat
  r : Bool
  w : Bool
  x : Bool
  loc : Bool
  cache : Nat
deriving DecidableEq, Repr

/-- An invalidation that runs: scope word (R348), first page, caches still to acknowledge, whether SEQ is reported. -/
structure Inval where
  word : Nat
  addr : Nat
  waiting : List XltCache
  silent : Bool
deriving DecidableEq, Repr

/-- A waiting tile (R344, R347). -/
structure MigWait where
  id : Nat
  p : Nat
  va : Nat
  rights : Nat
  kind : Nat
  entry : Option Nat
  who : Owner
deriving DecidableEq, Repr

/-- Bytes that a completion brought for a read outside the chip's DRAM, until its work takes them: the address is a
physical address of another chip, or 2^60 plus a host bus address. -/
structure Fetched where
  owner : Owner
  addr : Nat
  bytes : List Byte
deriving DecidableEq, Repr

/-- Translation: cached translations (key p × 2^36 + page), invalidations running and pending per partition, tiles
waiting on migration, page-table entries read from other chips, and completed reads from outside the chip. -/
structure Xlt where
  tlb : List (Nat × Xlat) := []
  inval : List (Nat × Inval) := []
  pendInval : List (Nat × Nat) := []
  waits : List MigWait := []
  walked : List (Nat × Nat) := []
  fetched : List Fetched := []
deriving DecidableEq, Repr

/-- Sync unit: waits, lock lines, low-word latches (R281), latched words of multi-word registers (R290). -/
structure Sync where
  waits : List Wait := []
  lockq : List LockWaiter := []
  latch : List (Nat × Word) := []
  words : List (Nat × Nat) := []
deriving DecidableEq, Repr

/-- The heap of a partition (R274): slabs with their class, live blocks (address, class). -/
structure Heap where
  slabs : List (Nat × Nat) := []
  live : List (Nat × Nat) := []
deriving DecidableEq, Repr

/-! ### L2, DRAM and maintenance (spec/14) -/

/-- A valid sector of an L2 line. -/
structure Sector where
  data : BitVec 256
  dirty : Bool
deriving DecidableEq, Repr

/-- A tracker of a streaming detector (R356), most recently used first. -/
structure Tracker where
  line : Nat
  count : Nat
deriving DecidableEq, Repr

/-- An activity of the maintenance sequencer (R376): number, target, argument. -/
structure Act where
  act : Nat
  target : Nat
  arg : Nat
deriving DecidableEq, Repr

/-- The memories: DRAM bytes by stored place (spare blocks included, R353, R372), L2 sectors by sector number, the
detectors' trackers by port, the host's memory as the device has written it, TRACE_BUF. -/
structure Memory where
  dram : Mem := []
  l2 : List (Nat × Sector) := []
  trackers : List (Nat × List Tracker) := []
  host : Mem := []
  trace : Mem := []
deriving DecidableEq, Repr

/-- The maintenance sequencer: running, paused and waiting activities (oldest first), and the scrub's next sector. -/
structure Maint where
  running : List Act := []
  paused : List Act := []
  waiting : List Act := []
  scrubPos : Nat := 0
deriving DecidableEq, Repr

/-! ### Geometry and the calender (spec/06, spec/07) -/

/-- A vertex after the vertex kernel (R179): x, y, z, w and the varyings, FP32 patterns. -/
abbrev Vertex := List Nat

/-- A vertex after set-up (R181, R194): x_w and y_w in 1/256 pixel (for a QUAD, FP32 patterns), and z_w, w and the
varyings as FP32 patterns. -/
structure SetVertex where
  x : Int
  y : Int
  z : Nat
  w : Nat
  vary : List Nat
deriving DecidableEq, Repr

/-- A binned primitive: PRIM_ID, the number of its draw, kind (0 point, 1 line, 2 triangle, 3 quad), class (0 OPAQUE,
1 LATE, 2 BLEND), back-facing, its vertices, and the varyings of its vertex 0 before clipping. -/
structure Prim where
  id : Nat
  draw : Nat
  kind : Nat
  cls : Nat
  back : Bool
  verts : List SetVertex
  flat : List Nat
deriving DecidableEq, Repr

/-- A draw of an open pass: its command, its descriptor and that descriptor's address, its vertices once the vertex
kernel has returned them, its vertex launch, its fragment launch as the descriptor gives it, and how many of its
primitives are binned. -/
structure DrawRec where
  cmd : Nat
  addr : Nat
  desc : List Byte
  verts : Option (List Vertex)
  launch : Option Nat
  frag : Option Launch
  binned : Nat
deriving DecidableEq, Repr

/-- Fragments being shaded (R187): their launch, draw, and one lane each as (primitive, pixel of the tile, sample mask). -/
structure FragJob where
  launch : Nat
  draw : Nat
  lanes : List (Prim × Nat × Nat)
deriving DecidableEq, Repr

/-- A tile in flight (R190): its vat (none for a tile without list entries), the attachments' values at each sample
(sample s of pixel i at s × 1,024 + i), the primitives not yet drawn, the groups of fragments still to be shaded, and the
fragments being shaded. -/
structure TileRun where
  tile : Nat
  vat : Option Nat
  px : List (List Nat)
  todo : List Prim
  groups : List (Nat × List (Prim × Nat × Nat))
  job : Option FragJob
deriving DecidableEq, Repr

/-- A tile's list (R193): its primitives in order, its first and its last block's address, and the entries in the last. -/
structure TileList where
  prims : List Prim
  head : Nat
  cur : Nat
  fill : Nat
deriving DecidableEq, Repr

/-- A part of the pool (R192, R197): its bounds, and what is still free between `up` and `down`. -/
structure PoolRegion where
  base : Nat
  top : Nat
  up : Nat
  down : Nat
deriving DecidableEq, Repr

/-- The states of GEO_PASS. -/
inductive PassPhase | binning | growWait | broke | rendering
deriving DecidableEq, Repr

/-- A render pass (R173 to R206): its BIN_BEGIN, queue, descriptor and address, whether another chip runs it, its
BIN_END, draws, pool, lists by tile, the bytes that the held primitive needs, the tiles spilled, the gate masks of
rendered tiles (pixels of class 0, of class 1, PRIM_IDs), tiles to dispatch in order, and tiles in flight. -/
structure Pass where
  cmd : Nat
  p : Nat
  q : Nat
  desc : List Byte
  addr : Nat
  away : Bool := false
  ended : Option Nat := none
  phase : PassPhase := .binning
  draws : List DrawRec := []
  regions : List PoolRegion := []
  chunks : Nat := 0
  segments : Nat := 0
  lists : List (Nat × TileList) := []
  held : Option Nat := none
  spilled : List (Nat × List (List Nat)) := []
  masks : List (Nat × (Nat × Nat × List Nat)) := []
  todo : List Nat := []
  inflight : List TileRun := []
  peak : Nat := 0
deriving DecidableEq, Repr

/-- The geometry pipeline: passes, oldest first, and the queues (32-bit key p × 16 + q) whose refused BIN_BEGIN has its
followers refused (R173). -/
structure Geo where
  passes : List Pass := []
  refusing : List Nat := []
deriving DecidableEq, Repr

/-- The calender: active plane copies (key 4 h + k; field values), planes black for this frame, deadline leads raised,
heads' wall values at the pending arm. -/
structure Cal where
  active : List (Nat × List Nat) := []
  black : List Nat := []
  lead : List Nat := []
deriving DecidableEq, Repr

/-! ### Pulper and baler (spec/15) -/

/-- A picture of a DPB (R380): its tag, order count, corrupt mark, main output format, and where its planes lie. -/
structure Pic where
  tag : Nat
  poc : Nat
  corrupt : Bool
  p010 : Bool
  luma : Nat := 0
  chroma : Nat := 0
  w : Nat := 0
  h : Nat := 0
deriving DecidableEq, Repr

/-- A stream slot's decoder state (R380): DPB, the bytes that brought its parameter sets, and the codec. -/
structure PlpSlot where
  dpb : List Pic := []
  params : List Byte := []
deriving DecidableEq, Repr

/-- A baler job by partition and STATE address (R396, R402): direction (1 BALE, 2 UNBALE), framing, effort, dictionary, the
input consumed so far, the ends of non-FINAL inputs, and the bytes written so far. -/
structure BalJob where
  p : Nat
  addr : Nat
  dir : Nat
  frame : Nat
  effort : Nat
  dict : List Byte
  input : List Byte
  ends : List Nat
  out : Nat
deriving DecidableEq, Repr

/-- The pulper and the baler: slots; commands handed to each engine in order, and their descriptors; baler jobs that can
be resumed. -/
structure Codec where
  slots : List (Nat × PlpSlot) := []
  engines : List (Nat × List Nat) := []
  baler : List Nat := []
  descs : List (Nat × List Byte) := []
  jobs : List BalJob := []
deriving DecidableEq, Repr

/-! ### The felt ring (spec/16) -/

/-- A message in a receive or send queue: VC, class, bytes, and the number of the flit that brought it. -/
structure Msg where
  vc : Nat
  cls : Nat
  bytes : List Byte
  flit : Nat := 0
deriving DecidableEq, Repr

/-- A felt port: sequence numbers, the replay buffer (oldest first), NAK outstanding, credits by 2 VC + class,
credits to return, receive buffer, send queue, and how often the oldest flit was replayed. -/
structure FPort where
  txSeq : Nat := 0
  rxSeq : Nat := 255
  replay : List (Nat × List Byte) := []
  nakOut : Bool := false
  credits : List Nat := [0, 0, 0, 0, 0, 0, 0, 0]
  owed : List Nat := [0, 0, 0, 0, 0, 0, 0, 0]
  rx : List Msg := []
  tx : List Msg := []
  replays : Nat := 0
  everActive : Bool := false
  failed : Bool := false
  wire : List (List Byte) := []
deriving DecidableEq, Repr

/-- A firmware image being forwarded (R441): id, total, bytes received here in order; at the master the next offset to
send from each port, and whether a chip joined meanwhile (R443). -/
structure FwFwd where
  image : Nat
  total : Nat
  got : Nat
  nextE : Nat := 0
  nextW : Nat := 0
  again : Bool := false
deriving DecidableEq, Repr

/-- A FUNC request of the ring's master or of a home chip that is being carried out (R36, R315, R423): where its CPL goes,
the mode (1 STOP PREEMPT, 2 STOP DRAIN, 3 START, 4 teardown stop, 5 an INVALIDATE) and the partition of a teardown stop. -/
structure FuncReq where
  src : Nat
  tag : Nat
  mode : Nat
  p : Nat
deriving DecidableEq, Repr

/-- The ring: ports, outstanding requests, performed requests by source and tag with their CPLs (R425), the discovery
that runs (tokens' entries so far), where the ring is open (the last chip reached in direction E or W), chips measured
equal and ready, columns granted, the firmware image being forwarded, FUNC requests being carried out. -/
structure Ring where
  ports : List (Nat × FPort) := []
  reqs : List Req := []
  tagNext : Nat := 0
  performed : List ((Nat × Nat) × List Byte) := []
  entries : List (Nat × Nat) := []
  tokens : Nat := 0
  brk : Option (Nat × Bool) := none
  measured : List Nat := []
  ready : List Nat := []
  columns : List (Nat × (Nat × Nat)) := []
  fw : Option FwFwd := none
  fwImage : Nat := 0
  prevLive : Nat := 0
  funcs : List FuncReq := []
deriving DecidableEq, Repr

/-! ### Power (spec/17) -/

/-- A transition of a power domain (R451, R452): its direction, and the state it goes to (entry) or comes from (exit): 2 RET,
3 OFF; an entry that was aborted comes from 0. -/
structure DomRun where
  exit : Bool
  at' : Nat
deriving DecidableEq, Repr

/-- The power unit: the point that a rail in change goes to, and one that its regulator did not confirm; latched writes (vop,
fop); the bins' powers (newest first) in mW, and the reserve in µJ; bins since the last step down and up of the power cap,
since the thermal cap rose, and since a CURRENT_LIMIT record; the sensor of an owed
THERMAL_TRIP record; domains in transition, and the retention SRAM: by domain, the register file's entries that were saved. -/
structure Power where
  change : List (Nat × Nat) := []
  failed : List (Nat × Nat) := []
  latched : List (Nat × (Nat × Nat)) := []
  bins : List Nat := []
  reserve : Nat := 0
  sinceDown : Nat := 10
  sinceUp : Nat := 10
  thermSince : Nat := 10
  curSince : Nat := 10
  tripOwed : Option Nat := none
  doms : List (Nat × DomRun) := []
  ret : List (Nat × List (Nat × Nat)) := []
deriving DecidableEq, Repr

/-! ### Firmware (spec/18) -/

/-- The fuses (R466); kept by every reset. -/
structure Fuses where
  productKey : BitVec 256 := 0
  settingsKey : BitVec 256 := 0
  imgKeys : List Nat := [0, 0, 0, 0]
  fnsKeys : List Nat := [0, 0]
  imgRevoke : Nat := 0
  fnsRevoke : Nat := 0
  svn : Nat := 0
  peakWorn : Bool := false
  deviceId : BitVec 128 := 0
  identity : List Byte := []
  cert : List Byte := []
  identityKey : Nat := 0
deriving DecidableEq, Repr

/-- A copy of the settings store (R483): the fields of its header and core. -/
structure Settings where
  copy : Nat
  gen : Nat
  fmt : Nat
  pendingMig : Bool
  wear : Nat
  minGen : Nat
  saveall : List (Nat × Nat)
deriving DecidableEq, Repr

/-- A record of the recovery log (R472). -/
structure LogRec where
  seq : Nat
  event : Nat
  slot : Nat
  cause : Nat
  fwver : Nat
  svn : Nat := 0
  value : Nat := 0
  value2 : Nat := 0
deriving DecidableEq, Repr

/-- The running image's header fields (R468) and measurements. -/
structure Image where
  fwver : Nat
  svn : Nat
  finaliser : Nat
  fmt : Nat
  keySlot : Nat
  slot : Nat
  revoke : Nat
  meas : List (Nat × Nat)
deriving DecidableEq, Repr

/-- The management controller: fuses, boot flash bytes (erased 0xFF), settings copies, recovery log (newest first),
running image, finalised modules, the mailbox command lost to a reset, service port state and download buffer, starts
since the cold reset, whether the MGC runs, whether a device reset is in progress, and whether a COMMIT has cleared the
settings' migration flag (R486). -/
structure Mgc where
  fuses : Fuses := {}
  flash : Mem := []
  settings : List Settings := []
  log : List LogRec := []
  image : Option Image := none
  modules : List Module := []
  svcState : Nat := 0
  svcCause : Nat := 0
  received : Nat := 0
  download : Mem := []
  starts : Nat := 0
  booted : Bool := false
  devReset : Bool := false
  migDone : Bool := false
deriving DecidableEq, Repr

/-! ### Scheduling (spec/12) -/

/-- A block saved by pre-emption (R311): partition, slot address and bytes, the block, its quires, their sets, acquisition
requests and waits (places by quire index in the block), and the locks they own with 32 × quire index + lane. -/
structure Saved where
  p : Nat
  addr : Nat
  size : Nat
  block : Block
  quires : List Quire
  sets : List (Nat × AccSet)
  pendingAcq : List AcqReq
  waits : List Wait
  locks : List (Nat × Nat) := []
deriving DecidableEq, Repr

/-- A frame of a watched stream (R319): entry, graph run, whether a FALLBACK frame, whether its checkpoint has passed. -/
structure Frame where
  id : Nat
  entry : Nat
  run : Nat
  fallback : Bool
  checked : Bool
deriving DecidableEq, Repr

/-- The scheduler: pooled partitions waiting (longest first), saved blocks (in order), frames, the vats
chosen for lending, and the budgets (4 × activity + resource) of which a unit has been taken this period
(R327). -/
structure Sched where
  waiting : List Nat := []
  saved : List Saved := []
  frames : List Frame := []
  chosen : List Nat := []
  taken : List Nat := []
deriving DecidableEq, Repr

/-! ### PCIe, pins, debug (spec/08, spec/19, spec/20) -/

/-- The configuration state of a PCIe function (PF 0, VF k at k + 1): Bus Master Enable, D3hot, the MSI-X vector's
mask and pending bits, its message address and data. -/
structure FnCfg where
  busMaster : Bool := false
  d3hot : Bool := false
  mask : Bool := true
  pending : Bool := false
  addr : Nat := 0
  data : Nat := 0
deriving DecidableEq, Repr

/-- PCIe: functions (a function not listed has the defaults), VF Enable, NumVFs, BAR4 size code, link, requests
outstanding at the host, AER reports (newest first), FLRs whose reset phase runs. -/
structure Pcie where
  fns : List (Nat × FnCfg) := []
  vfEnable : Bool := false
  numVfs : Nat := 0
  bar4 : Nat := 0
  speed : Nat := 0
  width : Nat := 0
  up : Bool := false
  reqs : List Req := []
  aer : List Nat := []
deriving DecidableEq, Repr

/-- Pins and board: input and output levels, straps latched, card identity sampled, board DRAM and grade. -/
structure Pins where
  pwrok : Bool := true
  resetN : Bool := true
  perstN : Bool := true
  freezeN : Bool := true
  thermTrip : Bool := false
  smbAlert : Bool := false
  gpioIn : Nat := 0x180
  wdogLow : Bool := false
  straps : Straps := ⟨0, false, false⟩
  cardId : Nat := 0
  dram : Nat := 24 * 2 ^ 30
  gradeB : Bool := false
deriving DecidableEq, Repr

/-- The JTAG TAP (R508): instruction register, address, data, boundary cells. -/
structure Tap where
  ir : Nat := 2
  apAddr : Nat := 0
  apData : Nat := 0
  bypass : Bool := false
  cells : List Bool := []
deriving DecidableEq, Repr

/-- An OVERFLOW record owed by an event queue (R300): KIND and SEQ of the first dropped record. -/
structure Owed where
  kind : Nat
  seq : Nat
deriving DecidableEq, Repr

/-- The whole state. -/
structure State where
  pending : List Instr
  regs : List (Nat × Nat)
  mem : Memory
  furn : Furnish
  hb : Headbox
  launches : List (Nat × Launch)
  vats : List (Nat × Vat)
  sync : Sync
  heaps : List (Nat × Heap)
  owed : List (Nat × Owed)
  sched : Sched
  xlt : Xlt
  maint : Maint
  geo : Geo
  cal : Cal
  codec : Codec
  ring : Ring
  pwr : Power
  mgc : Mgc
  pcie : Pcie
  pins : Pins
  tap : Tap
  reply : Reply
  sent : List Nat
  free : Nat
  nextId : Nat
deriving DecidableEq, Repr

/-- The log of a chip as made (R473): slot A updated and committed. -/
def factoryLog : List LogRec :=
  [{ seq := 1, event := 6, slot := 0, cause := 0, fwver := 0 }, { seq := 0, event := 5, slot := 0, cause := 0, fwver := 0 }]

/-- Array elements whose reset value is not their field's: the points of the FAB rail (PWR_DVFS), and the power state of the
vats after a reset without a furnish, where no vat is assigned and every VAT domain is OFF (R24, R448). -/
def resetRegs : List (Nat × Nat) :=
  [(Field.PWR_DVFS_VOP.key 2 0, 2), (Field.PWR_DVFS_FOP.key 2 0, 2)] ++
    (List.range 64).map (fun n => (Field.PWR_DOM_STATE_STATE.key n 0, 3))

/-- The state right after reset: every register field at the reset value of its table, nothing in any unit. The values
that the spec does not give are named in the assumption log (entries 1 to 4). -/
def State.reset : State where
  pending := []
  regs := resetRegs
  mem := {}
  furn := {}
  hb := {}
  launches := []
  vats := []
  sync := {}
  heaps := []
  owed := []
  sched := {}
  xlt := {}
  maint := {}
  geo := {}
  cal := {}
  codec := {}
  ring := {}
  pwr := {}
  mgc := { log := factoryLog }
  pcie := {}
  pins := {}
  tap := {}
  reply := .none
  sent := []
  free := 0
  nextId := 0

end Sys2Proof.Machine
end

