-- ==== Sys2Proof/Machine/Furn.lean ====
section
/-!
DEFINITION. The register file's accessors, and what the furnish in force says: records, partitions, the post tree
(R15 to R30).
-/

namespace Sys2Proof.Machine

/-- The value of a register field, element [i][j]. -/
def State.rd (s : State) (f : Field) (i : Nat := 0) (j : Nat := 0) : Nat :=
  storeGet f.spec.reset s.regs (f.key i j)

/-- The state with a register field set; the value is cut to the field's width. -/
def State.wr (s : State) (f : Field) (v : Nat) (i : Nat := 0) (j : Nat := 0) : State :=
  { s with regs := storeSet f.spec.reset s.regs (f.key i j) (v % 2 ^ f.width) }

/-- An address field: its value at its own bit position. -/
def State.addrOf (s : State) (f : Field) (i : Nat := 0) (j : Nat := 0) : Nat := s.rd f i j * 2 ^ f.spec.lo

/-- Set an address field from an address. -/
def State.wrAddr (s : State) (f : Field) (a : Nat) (i : Nat := 0) (j : Nat := 0) : State :=
  s.wr f (a / 2 ^ f.spec.lo) i j

/-- Add to a counter field that saturates at its width (the RC and RO counters of the tables). -/
def State.count (s : State) (f : Field) (k : Nat := 1) (i : Nat := 0) (j : Nat := 0) : State :=
  s.wr f (satAdd (2 ^ f.width - 1) (s.rd f i j) k) i j

/-- Set a field back to its reset value. -/
def State.resetField (s : State) (f : Field) (i : Nat := 0) (j : Nat := 0) : State := s.wr f f.spec.reset i j

/-- The chip's own position (RING_POS, R505). -/
def State.pos (s : State) : Nat := s.pins.straps.pos.val

/-- A value from the counter of free values: the index for `Config`'s constants, and the state that goes on. -/
def State.takeFree (s : State) : Nat × State := (s.free, { s with free := s.free + 1 })

/-- A fresh number for a command, a launch, a wait or a request. -/
def State.takeId (s : State) : Nat × State := (s.nextId, { s with nextId := s.nextId + 1 })

/-- The records of a type in force (R17). -/
def recsOf (recs : List FRec) (type : Nat) : List FRec := recs.filter (fun r => r.type = type)

/-- The RING record (R18): MEMBERS, MASTER, SPARES. -/
structure RingRec where
  members : Nat
  master : Nat
  spares : Nat
deriving DecidableEq, Repr

/-- The RING record of a list of records. -/
def ringRec (recs : List FRec) : Option RingRec :=
  ((recsOf recs 1).head?).map (fun r => ⟨leAt r.body 0 1, leAt r.body 1 1, leAt r.body 2 2⟩)

/-- A POST record (R18). -/
structure PostRec where
  id : Nat
  parent : Nat
  kind : Nat
  chip : Nat
  vat : Nat
deriving DecidableEq, Repr

/-- The post records. -/
def postRecs (recs : List FRec) : List PostRec :=
  (recsOf recs 2).map (fun r => ⟨leAt r.body 0 2, leAt r.body 2 2, leAt r.body 4 1, leAt r.body 5 1, leAt r.body 6 1⟩)

/-- A PARTITION record (R18). -/
structure PartRec where
  part : Nat
  pooled : Bool
  root : Nat
  home : Nat
  prio : Nat
  split : List Nat
  poolClass : Nat
  vfExposed : Bool
  heap : Nat
  grow : Nat
deriving DecidableEq, Repr

/-- A partition record decoded (R18). -/
def partRec (r : FRec) : PartRec :=
  ⟨leAt r.body 0 1, leAt r.body 1 1 == 1, leAt r.body 2 2, leAt r.body 4 1, leAt r.body 5 1,
    [leAt r.body 6 1, leAt r.body 7 1, leAt r.body 8 1, leAt r.body 9 1], leAt r.body 10 1,
    bitAt (leAt r.body 11 1) 0, leAt r.body 12 2, leAt r.body 16 4⟩

/-- The partitions of the furnish. -/
def partRecs (recs : List FRec) : List PartRec := (recsOf recs 3).map partRec

/-- The record of partition `p` in force. -/
def State.part (s : State) (p : Nat) : Option PartRec := (partRecs s.furn.recs).find? (fun r => r.part = p)

/-- The CALENDER record (R18): partition, chip, heads. -/
def calRec (recs : List FRec) : Option (Nat × Nat × Nat) :=
  ((recsOf recs 4).head?).map (fun r => (leAt r.body 0 1, leAt r.body 1 1, leAt r.body 2 1))

/-- The calender partition in force. -/
def State.calPart (s : State) : Option Nat := (calRec s.furn.recs).map (·.1)

/-- `id` lies at or beneath `root`, climbing at most `fuel` parents (R22, R23: at most 8 levels). -/
def postUnder (posts : List PostRec) (root : Nat) : Nat → Nat → Bool
  | 0, _ => false
  | fuel + 1, id =>
    if id = root then true
    else match posts.find? (fun r => r.id = id) with
      | none => false
      | some r => postUnder posts root fuel r.parent

/-- The VAT posts beneath a root: (chip, vat). -/
def vatsUnder (recs : List FRec) (root : Nat) : List (Nat × Nat) :=
  let ps := postRecs recs
  (ps.filter (fun r => r.kind = 0 && postUnder ps root 9 r.id)).map (fun r => (r.chip, r.vat))

/-- The chips and vats of partition `p` (R26). -/
def State.partVats (s : State) (p : Nat) : List (Nat × Nat) :=
  match s.part p with
  | none => []
  | some r => vatsUnder s.furn.recs r.root

/-- The vats of this chip beneath partition `p`'s root, ascending. -/
def State.localVats (s : State) (p : Nat) : List Nat :=
  (List.range 64).filter (fun n => (s.partVats p).contains (s.pos, n))

/-- The pooled vats of this chip: VAT children of its POOL post (R22). -/
def State.pooledVats (s : State) : List Nat :=
  let ps := postRecs s.furn.recs
  (List.range 64).filter (fun n => ps.any (fun r => r.kind = 0 && r.vat = n && r.chip = s.pos &&
    ps.any (fun q => q.kind = 5 && q.id = r.parent)))

/-- The vats that some VAT post of this chip names (R24). -/
def State.assignedVats (s : State) : List Nat :=
  (List.range 64).filter (fun n => (postRecs s.furn.recs).any (fun r => r.kind = 0 && r.vat = n && r.chip = s.pos))

/-- Partition `p` is spanning (R27): its root is a SPAN or RING post. -/
def State.spanning (s : State) (p : Nat) : Bool :=
  match s.part p with
  | none => false
  | some r => (postRecs s.furn.recs).any (fun q => q.id = r.root && (q.kind = 3 || q.kind = 4))

/-- The partition is homed on this chip. -/
def State.homed (s : State) (p : Nat) : Bool :=
  match s.part p with
  | none => false
  | some r => r.home = s.pos

/-- VF p is enabled (SR-IOV VF Enable and NumVFs). -/
def State.vfEnabled (s : State) (p : Nat) : Bool := s.pcie.vfEnable && decide (p < s.pcie.numVfs)

/-- Partition p has VF_EXPOSED = 1 (R18). -/
def State.vfExposed (s : State) (p : Nat) : Bool :=
  match s.part p with
  | none => false
  | some r => r.vfExposed

/-- The routing identity of a partition's requests (R228): PF 0, VF p is p + 1. -/
def State.fnOf (s : State) (p : Nat) : Nat := if s.vfEnabled p && s.vfExposed p then p + 1 else 0

/-- The configuration state of a function. -/
def State.fnCfg (s : State) (fn : Nat) : FnCfg := storeGet {} s.pcie.fns fn

/-- The state with a function's configuration changed. -/
def State.setFn (s : State) (fn : Nat) (c : FnCfg) : State :=
  { s with pcie := { s.pcie with fns := storeSet {} s.pcie.fns fn c } }

/-- The function can send requests: Bus Master Enable is 1 and it is not in D3hot (R229). -/
def FnCfg.sends (c : FnCfg) : Bool := c.busMaster && !c.d3hot

/-- The chip's clocks run: PWROK is high, no warm reset is held, and no freeze is in force (R491, R506). -/
def State.live (s : State) : Bool :=
  s.pins.pwrok && s.pins.resetN && s.pins.perstN && s.rd .DBG_FREEZE_STATUS_STATE = 0

/-- A vat's state. -/
def State.vat (s : State) (n : Nat) : Vat := storeGet {} s.vats n

/-- The state with a vat changed. -/
def State.setVat (s : State) (n : Nat) (v : Vat) : State := { s with vats := storeSet {} s.vats n v }

/-- A quire of a vat. -/
def State.quire (s : State) (vat slot : Nat) : Option Quire := storeFind (s.vat vat).quires slot

/-- The state with a quire changed (added when its slot is empty). -/
def State.setQuire (s : State) (vat slot : Nat) (q : Quire) : State :=
  let v := s.vat vat
  s.setVat vat { v with quires := storePut slot q v.quires }

/-- A block of a vat. -/
def State.block (s : State) (vat slot : Nat) : Option Block := storeFind (s.vat vat).blocks slot

/-- The state with a block changed. -/
def State.setBlock (s : State) (vat slot : Nat) (b : Block) : State :=
  let v := s.vat vat
  s.setVat vat { v with blocks := storePut slot b v.blocks }

/-- The queue of partition p, number q. -/
def State.queue (s : State) (p q : Nat) : List Cmd := storeGet [] s.hb.queues (p * 16 + q)

/-- The state with a queue's commands changed. -/
def State.setQueue (s : State) (p q : Nat) (l : List Cmd) : State :=
  { s with hb := { s.hb with queues := storeSet [] s.hb.queues (p * 16 + q) l } }

/-- The doorbell register of a queue (R219). -/
def State.bell (s : State) (p q : Nat) : Nat := storeGet 0 s.hb.bells (p * 16 + q)

/-- The state with a doorbell register set. -/
def State.setBell (s : State) (p q : Nat) (v : Nat) : State :=
  { s with hb := { s.hb with bells := storeSet 0 s.hb.bells (p * 16 + q) (v % 2 ^ 32) } }

end Sys2Proof.Machine
end

