-- ==== Sys2Proof/Machine/Access.lean ====
section
/-!
DEFINITION. Which accesses of the host reach a register or a doorbell (R219 to R224, R230, R232, R262, R482).
-/

namespace Sys2Proof.Machine

/-- A device reset runs: the MGC has not started again (R262). -/
def State.inReset (s : State) : Bool := s.mgc.devReset && !s.mgc.booted

/-- Recovery mode (R482): the service port takes WRITE, GO and CLEAR. -/
def State.inRecovery (s : State) : Bool := s.rd .MGC_BOOT_STATUS_STAGE = 6 && s.mgc.booted

/-- Function `fn`'s BARs take accesses: the chip's clocks run, the function is not in D3hot, and a VF is enabled (R230). -/
def State.fnUp (s : State) (fn : Nat) : Bool :=
  s.live && !(s.fnCfg fn).d3hot && (fn = 0 || s.vfEnabled (fn - 1))

/-- The engines' registers take accesses: no device reset runs, and the chip is not in recovery mode (R262, R482). -/
def State.enginesUp (s : State) : Bool := !s.inReset && !s.inRecovery

/-- An FLR of VF k runs (R232). -/
def State.flrRuns (s : State) (k : Nat) : Bool := bitAt (s.rd .GLB_FLR_STATUS_RUNNING) k

/-- A VF's BAR0 shows its partition: VF_EXPOSED is 1 and no FLR runs (R223, R232). -/
def State.vfShows (s : State) (k : Nat) : Bool := s.vfExposed k && !s.flrRuns k

/-- Function `fn` writes registers of partition p (or of target p) that are in both views (R224). -/
def State.mayWrite (s : State) (fn p : Nat) : Bool :=
  s.fnUp fn && s.enginesUp && (fn = 0 || (fn = p + 1 && s.vfShows p))

/-- The PF writes registers that only its BAR0 shows. -/
def State.pfWrites (s : State) : Bool := s.fnUp 0 && s.enginesUp

/-- A doorbell write of function `fn` to partition p's page acts (R219 to R221, R230, R232, R516). -/
def State.bellOk (s : State) (fn p : Nat) : Bool :=
  s.fnUp fn && s.rd .MGC_BOOT_STATUS_STAGE = 5 && (s.part p).isSome &&
    (if fn = 0 then !(s.vfEnabled p && s.vfExposed p) else fn = p + 1 && s.vfShows p)

end Sys2Proof.Machine
end

