-- ==== Sys2Proof/Machine/Float.lean ====
section
/-!
DEFINITION. Floating formats and arithmetic: the formats of R127 and R108, values decoded exactly, one rounding
(R108, R129), and the operations of R103 and R109. A finite value is sign, magnitude m and exponent e: m × 2^e.
-/

namespace Sys2Proof.Machine

/-- A floating format (R127): fraction bits, exponent bits, bias, largest finite pattern, infinity pattern if any,
canonical NaN. -/
structure FFmt where
  fb : Nat
  eb : Nat
  bias : Nat
  maxFin : Nat
  inf : Option Nat
  nan : Nat
deriving DecidableEq, Repr

/-- FP32 (R127). -/
def fF32 : FFmt := ⟨23, 8, 127, 0x7F7FFFFF, some 0x7F800000, 0x7FC00000⟩
/-- FP16 (R127). -/
def fF16 : FFmt := ⟨10, 5, 15, 0x7BFF, some 0x7C00, 0x7E00⟩
/-- BF16 (R127). -/
def fBF16 : FFmt := ⟨7, 8, 127, 0x7F7F, some 0x7F80, 0x7FC0⟩
/-- FP8-E4M3 (R127): no infinities, 0x7F is NaN. -/
def fE4M3 : FFmt := ⟨3, 4, 7, 0x7E, none, 0x7F⟩
/-- FP8-E5M2 (R127). -/
def fE5M2 : FFmt := ⟨2, 5, 15, 0x7B, some 0x7C, 0x7E⟩

/-- The position of a format's sign bit. -/
def FFmt.signBit (f : FFmt) : Nat := f.fb + f.eb

/-- A decoded value. -/
inductive FVal
  | nan
  | inf (neg : Bool)
  | fin (neg : Bool) (m : Nat) (e : Int)
deriving DecidableEq, Repr

/-- The value of a pattern (R127). -/
def FFmt.decode (f : FFmt) (x : Nat) : FVal :=
  let neg := bitAt x f.signBit
  let ex := bits x (f.fb + f.eb - 1) f.fb
  let fr := x % 2 ^ f.fb
  if f.inf = some (x % 2 ^ f.signBit) then .inf neg
  else if f.maxFin < x % 2 ^ f.signBit then .nan
  else if ex = 0 then .fin neg fr (1 - (f.bias : Int) - f.fb)
  else .fin neg (fr + 2 ^ f.fb) ((ex : Int) - f.bias - f.fb)

/-- The rounding modes (R100): to nearest even, toward zero, toward −∞, toward +∞. -/
inductive Round | ne | tz | dn | up
deriving DecidableEq, Repr

/-- The ROUND field (R100). -/
def roundOf (n : Nat) : Round := if n = 0 then .ne else if n = 1 then .tz else if n = 2 then .dn else .up

/-- Whether a magnitude with quotient M and remainder rem of 2^d is rounded up. -/
def roundsUp (r : Round) (neg : Bool) (q rem d : Nat) : Bool :=
  match r with
  | .ne => decide (2 ^ d < 2 * rem) || (decide (2 * rem = 2 ^ d) && q % 2 == 1)
  | .tz => false
  | .dn => neg && decide (0 < rem)
  | .up => !neg && decide (0 < rem)

/-- m × 2^e as an integer, rounded. -/
def roundInt (r : Round) (neg : Bool) (m : Nat) (e : Int) : Nat :=
  if 0 ≤ e then m * 2 ^ e.toNat
  else
    let d := (-e).toNat
    let q := m / 2 ^ d
    q + b2n (roundsUp r neg q (m % 2 ^ d) d)

/-- The magnitude pattern of m × 2^e (m > 0) rounded once, with an exponent unbounded above (R129): a number that may
exceed the largest finite pattern. -/
def FFmt.roundMag (f : FFmt) (r : Round) (neg : Bool) (m : Nat) (e : Int) : Nat :=
  let top : Int := (log2 m : Int) + e
  let emin : Int := 1 - (f.bias : Int)
  let q : Int := max top emin - f.fb
  let mant := roundInt r neg m (e - q)
  ((q + f.fb + f.bias - 1).toNat) * 2 ^ f.fb + mant

/-- A signed pattern. -/
def FFmt.withSign (f : FFmt) (neg : Bool) (x : Nat) : Nat := b2n neg * 2 ^ f.signBit + x

/-- Overflow in the arithmetic of R108 and R110: infinity to nearest and away from zero, otherwise the largest finite
value. -/
def FFmt.overflow (f : FFmt) (r : Round) (neg : Bool) : Nat :=
  let toInf := match r with | .ne => true | .tz => false | .dn => neg | .up => !neg
  if toInf then f.inf.getD f.nan else f.maxFin

/-- Encode a value, rounding once (R108). -/
def FFmt.encode (f : FFmt) (r : Round) : FVal → Nat
  | .nan => f.nan
  | .inf neg => f.withSign neg (f.inf.getD f.nan)
  | .fin neg m e =>
    if m = 0 then f.withSign neg 0
    else
      let p := f.roundMag r neg m e
      f.withSign neg (if f.maxFin < p then f.overflow r neg else p)

/-- Change the sign (NEG, R108). -/
def FVal.negate : FVal → FVal
  | .nan => .nan
  | .inf n => .inf (!n)
  | .fin n m e => .fin (!n) m e

/-- Clear the sign (ABS, R108). -/
def FVal.absolute : FVal → FVal
  | .nan => .nan
  | .inf _ => .inf false
  | .fin _ m e => .fin false m e

/-- Is zero. -/
def FVal.isZero : FVal → Bool
  | .fin _ 0 _ => true
  | _ => false
/-- Is NaN. -/
def FVal.isNan : FVal → Bool
  | .nan => true
  | _ => false
/-- Is an infinity. -/
def FVal.isInf : FVal → Bool
  | .inf _ => true
  | _ => false
/-- The sign (false for NaN). -/
def FVal.sign : FVal → Bool
  | .nan => false
  | .inf n => n
  | .fin n _ _ => n

/-- The signed integer of a magnitude. -/
def signed (neg : Bool) (m : Nat) : Int := if neg then -(m : Int) else m

/-- A finite sum: exact, with the sign of a zero result by R108's IEEE 754 arithmetic. -/
def finAdd (r : Round) (n1 : Bool) (m1 : Nat) (e1 : Int) (n2 : Bool) (m2 : Nat) (e2 : Int) : FVal :=
  let e := min e1 e2
  let t := signed n1 (m1 * 2 ^ (e1 - e).toNat) + signed n2 (m2 * 2 ^ (e2 - e).toNat)
  if t = 0 then
    .fin (if m1 = 0 ∧ m2 = 0 ∧ n1 = n2 then n1 else r == .dn) 0 0
  else .fin (decide (t < 0)) t.natAbs e

/-- Exact sum before rounding. -/
def fvAdd (r : Round) : FVal → FVal → FVal
  | .nan, _ => .nan
  | _, .nan => .nan
  | .inf a, .inf b => if a = b then .inf a else .nan
  | .inf a, .fin _ _ _ => .inf a
  | .fin _ _ _, .inf b => .inf b
  | .fin n1 m1 e1, .fin n2 m2 e2 => finAdd r n1 m1 e1 n2 m2 e2

/-- Exact product before rounding. -/
def fvMul : FVal → FVal → FVal
  | .nan, _ => .nan
  | _, .nan => .nan
  | .inf a, y => if y.isZero then .nan else .inf (a ^^ y.sign)
  | x, .inf b => if x.isZero then .nan else .inf (x.sign ^^ b)
  | .fin n1 m1 e1, .fin n2 m2 e2 => .fin (n1 ^^ n2) (m1 * m2) (e1 + e2)

/-- A quotient to 64 bits beyond the divisor's with a sticky bit: rounding it once rounds the exact quotient. -/
def fvDiv : FVal → FVal → FVal
  | .nan, _ => .nan
  | _, .nan => .nan
  | .inf a, y => if y.isInf then .nan else .inf (a ^^ y.sign)
  | x, .inf b => .fin (x.sign ^^ b) 0 0
  | .fin n1 m1 e1, .fin n2 m2 e2 =>
    if m2 = 0 then if m1 = 0 then .nan else .inf (n1 ^^ n2)
    else
      let k := 64 + log2 m2
      let num := m1 * 2 ^ k
      .fin (n1 ^^ n2) (2 * (num / m2) + b2n (num % m2 ≠ 0)) (e1 - e2 - k - 1)

/-- The integer square root, bit by bit from 2^(bits − 1). -/
def isqrtFrom : Nat → Nat → Nat → Nat
  | 0, _, r => r
  | k + 1, x, r =>
    let t := r + 2 ^ k
    isqrtFrom k x (if t * t ≤ x then t else r)

/-- The largest r with r × r at most x. -/
def isqrt (x : Nat) : Nat := isqrtFrom (log2 x / 2 + 1) x 0

/-- Square root to 80 fraction bits with a sticky bit. -/
def fvSqrt : FVal → FVal
  | .nan => .nan
  | .inf n => if n then .nan else .inf false
  | .fin n m e =>
    if m = 0 then .fin n 0 0
    else if n then .nan
    else
      let odd := (e % 2).toNat
      let x := m * 2 ^ (odd + 160)
      let r := isqrt x
      .fin false (2 * r + b2n (r * r ≠ x)) ((e - odd) / 2 - 81)

/-- Reciprocal square root to 200 bits with a sticky bit. -/
def fvRsqrt : FVal → FVal
  | .nan => .nan
  | .inf n => if n then .nan else .fin false 0 0
  | .fin n m e =>
    if m = 0 then .inf n
    else if n then .nan
    else
      let odd := (e % 2).toNat
      let m' := m * 2 ^ odd
      let x := 2 ^ 400 / m'
      let r := isqrt x
      .fin false (2 * r + b2n (r * r * m' ≠ 2 ^ 400)) (-(e - odd) / 2 - 201)

/-! ### The functions of R109 in fixed point with 400 fraction bits -/

/-- The fixed point's fraction bits. -/
def fxP : Nat := 400

/-- Σ x^k ÷ (2^k k) for ln 2 (x = 1). -/
def ln2From : Nat → Nat → Nat
  | 0, _ => 0
  | n + 1, k => 2 ^ fxP / (k * 2 ^ k) + ln2From n (k + 1)
/-- ln 2. -/
def fxLn2 : Nat := ln2From 410 1

/-- The series of arctan(1 ÷ x), term by term. -/
def atanFrom : Nat → Nat → Nat → Nat → Int
  | 0, _, _, _ => 0
  | n + 1, x, t, k => (t / (2 * k + 1) : Nat) - atanFrom n x (t / (x * x)) (k + 1)
/-- π by Machin's formula. -/
def fxPi : Nat := (16 * atanFrom 180 5 (2 ^ fxP / 5) 0 - 4 * atanFrom 60 239 (2 ^ fxP / 239) 0).toNat

/-- Σ y^k ÷ k! from term k on. -/
def expFrom : Nat → Nat → Nat → Nat → Nat
  | 0, _, _, _ => 0
  | n + 1, y, t, k => t + expFrom n y (t * y / 2 ^ fxP / (k + 1)) (k + 1)
/-- e^y for 0 ≤ y < 1. -/
def fxExp (y : Nat) : Nat := expFrom 90 y (2 ^ fxP) 0

/-- The alternating series Σ ± y^(2 k + o) ÷ (2 k + o)! from term t on. -/
def trigFrom : Nat → Nat → Nat → Nat → Int
  | 0, _, _, _ => 0
  | n + 1, y, t, k => (t : Int) - trigFrom n y (t * y / 2 ^ fxP * y / 2 ^ fxP / ((k + 1) * (k + 2))) (k + 2)
/-- sin y. -/
def fxSin (y : Nat) : Nat := (trigFrom 60 y y 1).toNat
/-- cos y. -/
def fxCos (y : Nat) : Nat := (trigFrom 60 y (2 ^ fxP) 0).toNat

/-- Fraction bits of log2 by repeated squaring: f in [1, 2) in fixed point; `n` bits. -/
def log2Frac : Nat → Nat → Nat → Nat
  | 0, _, acc => acc
  | n + 1, f, acc =>
    let g := f * f / 2 ^ fxP
    if 2 * 2 ^ fxP ≤ g then log2Frac n (g / 2) (2 * acc + 1) else log2Frac n g (2 * acc)

/-- log2 (R109). -/
def fvLog2 : FVal → FVal
  | .nan => .nan
  | .inf n => if n then .nan else .inf false
  | .fin n m e =>
    if m = 0 then .inf true
    else if n then .nan
    else
      let l := log2 m
      let ex : Int := e + l
      if m = 2 ^ l then (if ex = 0 then .fin false 0 0 else .fin (decide (ex < 0)) ex.natAbs 0)
      else
        let fr := log2Frac 160 (m * 2 ^ fxP / 2 ^ l) 0
        let t : Int := ex * 2 ^ 160 + fr
        .fin (decide (t < 0)) (2 * (if t < 0 then (t + 1).natAbs else t.natAbs) + 1) (-161)

/-- 2^x (R109). Arguments beyond ±2^12 overflow or vanish in FP32. -/
def fvExp2 : FVal → FVal
  | .nan => .nan
  | .inf n => if n then .fin false 0 0 else .inf false
  | .fin n m e =>
    if m = 0 then .fin false 1 0
    else if 12 < (log2 m : Int) + e then (if n then .fin false 1 (-4096) else .inf false)
    else
      let x : Int := signed n (if 0 ≤ e + fxP then m * 2 ^ (e + fxP).toNat else 0)
      let k : Int := x / (2 ^ fxP : Nat)
      let f : Nat := (x % (2 ^ fxP : Nat)).toNat
      if f = 0 then .fin false 1 k
      else .fin false (2 * fxExp (f * fxLn2 / 2 ^ fxP) + 1) (k - fxP - 1)

/-- sin(2π u ÷ 2^400) for an angle in turns: (negative, magnitude) with the exact zeros and ones (R109). -/
def sinTurns (u : Nat) : Bool × Nat × Bool :=
  let u := u % 2 ^ fxP
  let q := (8 * u / 2 ^ fxP + 1) / 2            -- nearest quarter turn, 0 to 4
  let c := q * 2 ^ (fxP - 2)
  let below := decide (u < c)
  let w := if below then c - u else u - c
  let y := w * (2 * fxPi) / 2 ^ fxP
  match q % 4 with
  | 0 => (below, fxSin y, w == 0)
  | 1 => (false, fxCos y, w == 0)
  | 2 => (!below, fxSin y, w == 0)
  | _ => (true, fxCos y, w == 0)

/-- The sine of a turn count as a value: exact at quarter turns, otherwise with a sticky bit. -/
def sinVal (neg : Bool) (u : Nat) : FVal :=
  let (n, m, exact) := sinTurns u
  if exact then (if m = 0 then .fin false 0 0 else .fin (neg ^^ n) 1 0)
  else .fin (neg ^^ n) (2 * m + 1) (-(fxP : Int) - 1)

/-- A finite magnitude in turns as fixed point, modulo one turn. -/
def toTurns (m : Nat) (e : Int) : Nat :=
  if 0 ≤ e then 0 else m * 2 ^ (e + fxP).toNat % 2 ^ fxP

/-- sin(2π x) (R109). -/
def fvSin : FVal → FVal
  | .nan => .nan
  | .inf _ => .nan
  | .fin n m e => if m = 0 then .fin n 0 0 else sinVal n (toTurns m e)

/-- cos(2π x) (R109): the sine a quarter turn on. -/
def fvCos : FVal → FVal
  | .nan => .nan
  | .inf _ => .nan
  | .fin _ m e => sinVal false (toTurns m e + 2 ^ (fxP - 2))

/-- x × 2^k (R103). -/
def fvScale (k : Int) : FVal → FVal
  | .fin n m e => .fin n m (e + k)
  | x => x

/-- x ≤ y for non-NaN values, −0 equal to +0: by exact comparison. -/
def fvLt : FVal → FVal → Bool
  | .nan, _ => false
  | _, .nan => false
  | .inf a, .inf b => a && !b
  | .inf a, .fin _ _ _ => a
  | .fin _ _ _, .inf b => !b
  | .fin n1 m1 e1, .fin n2 m2 e2 =>
    let e := min e1 e2
    decide (signed n1 (m1 * 2 ^ (e1 - e).toNat) < signed n2 (m2 * 2 ^ (e2 - e).toNat))

/-- x = y for non-NaN values, −0 equal to +0. -/
def fvEq (x y : FVal) : Bool := !x.isNan && !y.isNan && !fvLt x y && !fvLt y x

/-- Minimum and maximum (R108): the other operand of a NaN; −0 below +0. -/
def fvMin (x y : FVal) : FVal :=
  if x.isNan then y else if y.isNan then x
  else if fvLt x y then x else if fvLt y x then y else if x.sign then x else y
/-- Maximum (R108). -/
def fvMax (x y : FVal) : FVal :=
  if x.isNan then y else if y.isNan then x
  else if fvLt x y then y else if fvLt y x then x else if x.sign then y else x

/-- Rounding to an integral value (R103 FRND), the sign of a zero kept. -/
def fvRint (r : Round) : FVal → FVal
  | .fin n m e => .fin n (roundInt r n m e) 0
  | x => x

/-- FP32 addition to nearest even (R138, R140, R189). -/
def f32Add (a b : Nat) : Nat := fF32.encode .ne (fvAdd .ne (fF32.decode a) (fF32.decode b))
/-- FP32 subtraction to nearest even. -/
def f32Sub (a b : Nat) : Nat := fF32.encode .ne (fvAdd .ne (fF32.decode a) (fF32.decode b).negate)
/-- FP32 multiplication to nearest even. -/
def f32Mul (a b : Nat) : Nat := fF32.encode .ne (fvMul (fF32.decode a) (fF32.decode b))
/-- FP32 division to nearest even. -/
def f32Div (a b : Nat) : Nat := fF32.encode .ne (fvDiv (fF32.decode a) (fF32.decode b))
/-- An integer as FP32, to nearest even. -/
def f32OfInt (x : Int) : Nat := fF32.encode .ne (.fin (decide (x < 0)) x.natAbs 0)

/-- A value converted to an integer range (R110, R131): rounded, NaN 0, saturated. -/
def fvToInt (r : Round) (lo hi : Int) : FVal → Int
  | .nan => 0
  | .inf n => if n then lo else hi
  | .fin n m e => max lo (min hi (signed n (roundInt r n m e)))

end Sys2Proof.Machine
end

