-- ==== Sys2Proof/Machine/Flags.lean ====
section
/-!
DEFINITION. The status words of R10 and R11, one constructor function per code of the chapters' status tables (R46, R47,
R80, R264, R265, R291, R351, R379, R444, R465 and the engines' tables).
-/

namespace Sys2Proof.Machine

/-- A status word: class in [31:24], reason in [23:16], detail in [15:0] (R10). -/
def statusWord (cls reason detail : Nat) : Nat := cls % 256 * 2 ^ 24 + reason % 256 * 2 ^ 16 + detail % 65536

/-- The class of a status word (R10). -/
def statusClass (w : Nat) : Nat := w / 2 ^ 24 % 256

/-- A word of class OK (R11): an operation that succeeded. -/
def statusOk (w : Nat) : Bool := statusClass w == 0

/-- OK, nothing to report. -/
def stOk : Nat := 0
/-- OK with LATE (R284, R291). -/
def stLate : Nat := 1
/-- ABORTED QUEUE_DESTROYED (R291). -/
def stQueueDestroyed (p q : Nat) : Nat := statusWord 1 1 (p * 16 + q)
/-- ABORTED OBJECT_DESTROYED (R291). -/
def stObjectDestroyed (h : Nat) : Nat := statusWord 1 2 h
/-- ABORTED PARTITION_RECLAIMED (R291). -/
def stReclaimed (p : Nat) : Nat := statusWord 1 3 p
/-- ABORTED OBJECT_RESET (R291). -/
def stObjectReset (h : Nat) : Nat := statusWord 1 4 h
/-- ABANDONED EXPORTER_RECLAIMED (R291). -/
def stAbandoned (p : Nat) : Nat := statusWord 2 1 p
/-- TIMEOUT WAIT (R291). -/
def stTimeoutWait : Nat := statusWord 3 1 0
/-- TIMEOUT MIGRATION with R347's detail (R291). -/
def stTimeoutMigration (d : Nat) : Nat := statusWord 3 2 d
/-- BUSY: held resource, holding feature, holding requester (R47). -/
def stBusy (res feature who : Nat) : Nat := statusWord 4 res (feature * 256 + who)

/-- FURNISH codes (R46). -/
def stFurnish (reason detail : Nat) : Nat := statusWord 0x18 reason detail
/-- FURNISH BAD_VALUE of a register request (R46). -/
def stBadValue : Nat := stFurnish 7 0xFFFF

/-- EXEC codes (R80). -/
def stExec (reason detail : Nat) : Nat := statusWord 0x12 reason detail
/-- EXEC_ILLEGAL with an opcode (R80). -/
def stIllegal (opcode : Nat) : Nat := stExec 1 (opcode * 256)
/-- EXEC_NO_FIT (R62, R80): 0 split invalid, 1 block does not fit. -/
def stNoFit (d : Nat) : Nat := stExec 0x0C d

/-- CMD codes (R264). -/
def stCmd (reason detail : Nat) : Nat := statusWord 0x13 reason detail
/-- CMD REFUSED by an engine with its reason (R264). -/
def stRefused (engine reason : Nat) : Nat := stCmd 0x20 (engine * 256 + reason)

/-- DEVICE codes (R265). -/
def stDevice (reason detail : Nat) : Nat := statusWord 0x1F reason detail
/-- XLT codes (R351): requester kind in [15:12] of the detail. -/
def stXlt (reason kind detail : Nat) : Nat := statusWord 0x10 reason (kind * 4096 + detail)
/-- MEM codes (R379). -/
def stMem (reason detail : Nat) : Nat := statusWord 0x11 reason detail
/-- RING codes (R444). -/
def stRing (reason detail : Nat) : Nat := statusWord 0x14 reason detail
/-- RING_UNREACHABLE (R434, R444). -/
def stUnreachable (pos : Nat) : Nat := stRing 1 pos
/-- PWR codes (R465). -/
def stPwr (reason detail : Nat) : Nat := statusWord 0x17 reason detail
/-- BAL codes (spec/15). -/
def stBal (reason detail : Nat) : Nat := statusWord 0x15 reason detail
/-- PLP codes (spec/15). -/
def stPlp (reason detail : Nat) : Nat := statusWord 0x16 reason detail

end Sys2Proof.Machine
end

