-- ==== Sys2Proof/Machine/Domains.lean ====
section
/-!
DEFINITION. The power domains (R446 to R448): what each holds, what is kept in RET, what an exit from OFF resets, and a wake by
an access (R452).
-/

namespace Sys2Proof.Machine

/-- The domain of an L2 slice (R446). -/
def domL2 (slice : Nat) : Nat := 64 + slice
/-- The domain of a DRAM controller. -/
def domMc (c : Nat) : Nat := 80 + c
/-- GEO. -/
def domGeo : Nat := 92
/-- A decode engine. -/
def domPlp (e : Nat) : Nat := 93 + e
/-- BAL. -/
def domBal : Nat := 97
/-- CAL. -/
def domCal : Nat := 98
/-- A felt port. -/
def domFelt (k : Nat) : Nat := 99 + k

/-- The state of a domain: 0 ON, 1 ENTERING, 2 RET, 3 OFF, 4 EXITING. -/
def State.domState (s : State) (d : Nat) : Nat := s.rd .PWR_DOM_STATE_STATE d

/-- The registers that a domain holds: kept in RET by its retention list, reset by an exit from OFF (R446, R447). -/
def domRegs (d : Nat) : List Reg :=
  if d < 64 then [.VAT_FAULT_WHO, .VAT_FAULT_STATUS, .VAT_FAULT_PC, .VAT_FAULT_LANES, .VAT_ISSUED, .VAT_RC_HITS,
    .VAT_BANK_STALLS, .VAT_TERR, .VAT_TPASSES, .VAT_ACQ_WAIT]
  else if d < 80 then []
  else if d < 92 then [.MEM_ECC_COUNT]
  else if d = 92 then [.GEO_STATUS, .GEO_POOL_BASE, .GEO_PASS, .GEO_POOL_USE, .GEO_GROW_ADDR, .GEO_GROW_CTRL, .GEO_GROW_WANT,
    .GEO_COUNTS, .GEO_REFUSE]
  else if d < 97 then [.PLP_ENGINE, .PLP_SLOT]
  else if d = 97 then [.BAL_STATUS]
  else if d = 98 then [.CAL_RESULT, .CAL_HEAD_CTRL, .CAL_TIMING, .CAL_LEAD, .CAL_WALL, .CAL_COUNTS, .CAL_PLANE, .CAL_PLANE_CTRL]
  else if d < 101 then [.FLT_PORT, .FLT_PORT_ERR]
  else []

/-- The array element of a register lies in the domain. -/
def domElem (d i : Nat) (r : Reg) : Bool :=
  if d < 64 then i = d
  else if d < 92 then i = d - 80
  else if d < 93 then true
  else if d < 97 then (if r = .PLP_SLOT then i / 12 = d - 93 else i = d - 93)
  else if d < 99 then true
  else i = d - 99

/-- An entry of the register file belongs to the domain. -/
def inDomain (d : Nat) (key : Nat) : Bool :=
  let f := Field.all.getD (key / 2 ^ 32) .GLB_ZT2_COUNT
  (domRegs d).contains f.spec.reg && domElem d (key / 65536 % 65536) f.spec.reg

/-- The state that a domain loses in OFF beside its registers: slots of a decode engine, the calender's active copies. -/
def State.domLost (s : State) (d : Nat) : State :=
  if 93 ≤ d && d < 97 then
    { s with codec := { s.codec with slots := s.codec.slots.filter (fun x => x.1 / 12 ≠ d - 93) } }
  else if d = 98 then { s with cal := {} }
  else s

/-- What no domain keeps in RET or OFF (R447): a vat's press and register files. -/
def State.domDrained (s : State) (d : Nat) : State :=
  if d < 64 then
    let v := s.vat d
    s.setVat d { v with l1 := [], rc := [], sets := [], acqq := [], ops := [] }
  else s

/-- The domain's registers go into the retention SRAM (RET) or are lost (OFF). -/
def State.domSave (s : State) (d target : Nat) : State :=
  let mine := s.regs.filter (fun e => inDomain d e.1)
  let s1 : State := { s with regs := s.regs.filter (fun e => !inDomain d e.1) }
  if target = 2 then { s1 with pwr := { s1.pwr with ret := storePut d mine s1.pwr.ret } } else s1.domLost d

/-- The registers of a domain come back from the retention SRAM. -/
def State.domRestore (s : State) (d : Nat) : State :=
  match storeFind s.pwr.ret d with
  | some l => { s with
      regs := l.foldl (fun m e => storePut e.1 e.2 m) s.regs
      pwr := { s.pwr with ret := storeErase s.pwr.ret d } }
  | none => s

/-- A transition of a domain ends: its state is ON. -/
def State.domOn (s : State) (d : Nat) : State :=
  ({ s.domRestore d with pwr := { (s.domRestore d).pwr with doms := storeErase s.pwr.doms d } }).wr .PWR_DOM_STATE_STATE 0 d

/-- An entry is aborted by a wake cause (R453): counted, with refuser "pending event". -/
def State.domAbort (s : State) (d : Nat) : State :=
  ((s.count .PWR_DOM_COUNT_ABORTED 1 d).wr .PWR_DOM_STATE_REFUSER 0 d).wr .PWR_DOM_RESULT_STATUS (stPwr 4 d) d

/-- A VAT domain whose vat no VAT post names stays OFF (R24, R448). -/
def State.domAssigned (s : State) (d : Nat) : Bool := decide (64 ≤ d) || s.assignedVats.contains d

/-- A wake cause (R452, R453): an exit starts, or an entry is aborted and its exit follows. -/
def State.domWake (s : State) (d : Nat) : State :=
  let st := s.domState d
  if !s.domAssigned d || st = 0 || st = 4 then s
  else
    let s1 := if st = 1 then s.domAbort d else s
    ({ s1 with pwr := { s1.pwr with doms := storePut d ⟨true, if st = 1 then 0 else st⟩ s1.pwr.doms } }).wr
      .PWR_DOM_STATE_STATE 4 d

/-- An access wakes its domain and waits for it (R452): in the model the wake ends within the access. -/
def State.wakeNow (s : State) (d : Nat) : State :=
  if s.domState d = 0 then s
  else if s.domState d = 1 then (s.domAbort d).domOn d
  else s.domOn d

end Sys2Proof.Machine
end

