-- ==== Sys2Proof/Machine/Dram.lean ====
section
/-!
DEFINITION. DRAM as stored bytes: granules, controllers and the save-all (R352, R353, R372), protection regions, their
carve-outs and codes (R362 to R366), and sectors read and written whole (R354).
-/

namespace Sys2Proof.Machine

/-- Addressable DRAM in bytes (R353). -/
def State.dramSize (s : State) : Nat := s.rd .MEM_DRAM_SIZE_BYTES

/-- The controller of an address (R352). -/
def ctrlOf (pa : Nat) : Nat := pa / 256 % 12
/-- The controller-local block of an address (R352). -/
def blockOf (pa : Nat) : Nat := pa / 256 / 12
/-- The L2 slice of an address (R352). -/
def sliceOf (pa : Nat) : Nat :=
  (bits pa 10 7 ^^^ bits pa 14 11) ^^^ (bits pa 18 15 ^^^ bits pa 22 19)

/-- The save-all entry that redirects block `b` of controller `c`, if any (R372). -/
def State.saveallEntry (s : State) (c b : Nat) : Option Nat :=
  (List.range 8).find? (fun e => s.rd .MEM_SAVEALL_VALID c e = 1 && s.rd .MEM_SAVEALL_BLOCK c e = b)

/-- The stored place of block `b` of controller `c`: its own granule. -/
def placeOf (c b : Nat) : Nat := (b * 12 + c) * 256

/-- The spare block `e` of a controller (R353): blocks 0 to 7 of its top nine. -/
def State.spareBlock (s : State) (e : Nat) : Nat := s.pins.dram / 3072 - 9 + e

/-- The stored place of the byte at `pa` after the save-all (R372). -/
def State.storedAt (s : State) (pa : Nat) : Nat :=
  let c := ctrlOf pa
  let b := blockOf pa
  match s.saveallEntry c b with
  | some e => placeOf c (s.spareBlock e) + pa % 256
  | none => placeOf c b + pa % 256

/-- The stored byte of an address. -/
def State.rawByte (s : State) (pa : Nat) : Byte := memByte 0 s.mem.dram (s.storedAt pa)

/-- The state with a stored byte written. -/
def State.setRaw (s : State) (pa : Nat) (b : Byte) : State :=
  { s with mem := { s.mem with dram := memSet 0 s.mem.dram (s.storedAt pa) b } }

/-- `n` stored bytes. -/
def State.rawBytes (s : State) (pa n : Nat) : List Byte := (List.range n).map (fun i => s.rawByte (pa + i))

/-- Write stored bytes. -/
def State.setRaws (s : State) (pa : Nat) : List Byte → State
  | [] => s
  | b :: bs => (s.setRaw pa b).setRaws (pa + 1) bs

/-- A region's code, base and size (R362). -/
structure Region where
  code : Nat
  base : Nat
  size : Nat
deriving DecidableEq, Repr

/-- Region `r`. -/
def State.region (s : State) (r : Nat) : Region :=
  ⟨s.rd .MEM_REGION_CODE r, s.addrOf .MEM_REGION_BASE r, s.rd .MEM_REGION_SIZE r⟩

/-- The bytes of a region's carve-out, which starts at BASE + SIZE (R362, R363). -/
def Region.carve (g : Region) : Nat := if g.code = 1 then g.size / 8 else if g.code = 2 then g.size else 0

/-- The protected region that holds an address, if any. -/
def State.regionOf (s : State) (pa : Nat) : Option Nat :=
  (List.range 16).find? (fun r =>
    let g := s.region r
    (g.code = 1 || g.code = 2) && decide (g.base ≤ pa) && decide (pa < g.base + g.size))

/-- The address lies inside a carve-out. -/
def State.inCarve (s : State) (pa : Nat) : Bool :=
  (List.range 16).any (fun r =>
    let g := s.region r
    decide (g.base + g.size ≤ pa) && decide (pa < g.base + g.size + g.carve))

/-- A local address that requesters may use: below the addressable DRAM and in no carve-out (R337). -/
def State.usable (s : State) (pa : Nat) : Bool := decide (pa < s.dramSize) && !s.inCarve pa

/-- A local range that requesters may use. -/
def State.usableRange (s : State) (pa n : Nat) : Bool :=
  decide (pa + n ≤ s.dramSize) &&
    (List.range 16).all (fun r =>
      let g := s.region r
      decide (g.carve = 0) || decide (pa + n ≤ g.base + g.size) || decide (g.base + g.size + g.carve ≤ pa))

/-- The LIGHT bit of a byte (R364). -/
def lightBit (d : Nat) : Nat := popCount 8 d % 2

/-- The rows of P (R365): the syndrome of data bit i. -/
def strongRows : List Nat := [0x17, 0x2E, 0x5C, 0xB8, 0x71, 0xE2, 0xC5, 0x8B]

/-- The STRONG check byte of a data byte: the exclusive-or of the rows of its 1 bits (R365). -/
def strongCheck (d : Nat) : Nat :=
  (indexed strongRows).foldl (fun a r => if bitAt d r.1 then a ^^^ r.2 else a) 0

/-- What the coder makes of a stored byte (R366). -/
inductive CodeOut
  | clean (d : Nat)
  | correctedData (bit : Nat) (d : Nat)
  | correctedCheck (d : Nat)
  | bad
deriving DecidableEq, Repr

/-- The coder on a STRONG byte and its check byte (R366). -/
def strongDecode (d k : Nat) : CodeOut :=
  let syn := k ^^^ strongCheck d
  if syn = 0 then .clean d
  else match (indexed strongRows).find? (fun r => r.2 = syn) with
    | some (i, _) => .correctedData i (d ^^^ 2 ^ i)
    | none => if popCount 8 syn = 1 then .correctedCheck d else .bad

/-- The coder on a LIGHT byte and its parity bit (R364, R369). -/
def lightDecode (d p : Nat) : CodeOut := if lightBit d = p then .clean d else .bad

/-- The place of the check bits of the byte at `pa` (R363): address of the carve-out byte. -/
def Region.checkAddr (g : Region) (pa : Nat) : Nat :=
  let o := pa - g.base
  if g.code = 1 then g.base + g.size + o / 8 else g.base + g.size + o

/-- What a read of one stored byte gives (R366, R369). -/
def State.decodeByte (s : State) (pa : Nat) : CodeOut :=
  match s.regionOf pa with
  | none => .clean (s.rawByte pa).toNat
  | some r =>
    let g := s.region r
    let d := (s.rawByte pa).toNat
    let k := (s.rawByte (g.checkAddr pa)).toNat
    if g.code = 1 then lightDecode d (b2n (bitAt k ((pa - g.base) % 8))) else strongDecode d k

/-- A sector read from DRAM (R354, R366): its 32 bytes, whether any was corrected, and the mask of bad bytes. -/
structure SectorRead where
  bytes : List Byte
  corrected : Bool
  bad : Nat
deriving DecidableEq, Repr

/-- Read and check the 32-byte sector at `pa` (aligned). -/
def State.readSector (s : State) (pa : Nat) : SectorRead :=
  let cs := (List.range 32).map (fun i => s.decodeByte (pa + i))
  ⟨cs.map (fun c => match c with
      | .clean d => BitVec.ofNat 8 d
      | .correctedData _ d => BitVec.ofNat 8 d
      | .correctedCheck d => BitVec.ofNat 8 d
      | .bad => 0),
    cs.any (fun c => match c with | .correctedData _ _ => true | .correctedCheck _ => true | _ => false),
    maskOf ((indexed cs).filterMap (fun c => if c.2 = .bad then some c.1 else none))⟩

/-- Write a whole sector to DRAM with its check bits (R363). -/
def State.writeSector (s : State) (pa : Nat) (bs : List Byte) : State :=
  let s1 := s.setRaws pa bs
  match s.regionOf pa with
  | none => s1
  | some r =>
    let g := s.region r
    if g.code = 1 then
      s1.setRaws (g.checkAddr pa) ((List.range 4).map (fun i =>
        BitVec.ofNat 8 (maskOf ((List.range 8).filter (fun j => lightBit (leAt bs (8 * i + j) 1) = 1)))))
    else
      s1.setRaws (g.checkAddr pa) (bs.map (fun b => BitVec.ofNat 8 (strongCheck b.toNat)))

/-- The sector number of an address: the key of the L2. -/
def sectorOf (pa : Nat) : Nat := pa / 32

/-- The L2 sector of an address, when the line is looked up and the sector valid (R354, R357). -/
def State.l2Hit (s : State) (pa : Nat) : Option Sector :=
  if s.rd .L2_CTRL_EN = 1 then storeFind s.mem.l2 (sectorOf pa) else none

/-- The state with an L2 sector put. -/
def State.l2Put (s : State) (pa : Nat) (bs : List Byte) (dirty : Bool) : State :=
  { s with mem := { s.mem with l2 := storePut (sectorOf pa) ⟨BitVec.ofNat 256 (ofLe bs), dirty⟩ s.mem.l2 } }

/-- The bytes of a sector. -/
def Sector.bytes (x : Sector) : List Byte := toLe 32 x.data.toNat

/-- The 32 bytes that a coherent read of the sector at `pa` gives: the L2's, or DRAM's after the coder. -/
def State.sectorView (s : State) (pa : Nat) : List Byte :=
  match s.l2Hit pa with
  | some x => x.bytes
  | none => (s.readSector pa).bytes

/-- The byte that a coherent read of a local address gives (no counter, no record). -/
def State.physByte (s : State) (pa : Nat) : Byte := (s.sectorView (pa / 32 * 32)).getD (pa % 32) 0

/-- `n` bytes as a coherent read gives them. -/
def State.physBytes (s : State) (pa n : Nat) : List Byte := (List.range n).map (fun i => s.physByte (pa + i))

/-- The mask of bad bytes that a read of the sector at `pa` would meet: 0 on an L2 hit. -/
def State.sectorBad (s : State) (pa : Nat) : Nat :=
  match s.l2Hit pa with
  | some _ => 0
  | none => (s.readSector pa).bad

/-- A whole-sector write through L2 as WB (R355): allocates, or goes to DRAM while EN = 0 (R357). -/
def State.putSector (s : State) (pa : Nat) (bs : List Byte) : State :=
  if s.rd .L2_CTRL_EN = 1 then s.l2Put pa bs true else s.writeSector pa bs

end Sys2Proof.Machine
end

