-- ==== Sys2Proof/Machine/Link.lean ====
section
/-!
DEFINITION. The felt link layer: messages and flits (R413, R414, R421), the way to a destination (R419, R426), what a port
sends (R415, R418), and the budgets of the stuff boxes (R325 to R327), which charge what it sends.
-/

namespace Sys2Proof.Machine

/-! ### Budgets (R325 to R327) -/

/-- The credit and limit of a budget resource (R326): 0 DRAM, 1 L2, 2 felt, 3 pixels. -/
def budgetFields (r : Nat) : Field × Field :=
  if r = 0 then (.SCH_SB_CREDIT_DRAM, .SCH_SB_LIMIT_DRAM)
  else if r = 1 then (.SCH_SB_CREDIT_L2, .SCH_SB_LIMIT_L2)
  else if r = 2 then (.SCH_SB_CREDIT_FELT, .SCH_SB_LIMIT_FELT)
  else (.SCH_SB_CREDIT_PIXELS, .SCH_SB_LIMIT_PIXELS)

/-- An activity's budget has no limit. -/
def State.unlimited (s : State) (a r : Nat) : Bool := s.rd (budgetFields r).2 a = 0xFFFFFFFF

/-- Charge units to an activity (R325 to R327): credit stops at 0; the calender's excess counts in SCH_SB_OVER. -/
def State.charge (s : State) (a r units : Nat) : State :=
  if s.unlimited a r || units = 0 then s
  else
    let credit := s.rd (budgetFields r).1 a
    let s1 := s.wr (budgetFields r).1 (credit - units) a
    let s2 := if a = 0x25 then s1.count .SCH_SB_OVER_UNITS (units - credit) a else s1
    if s2.sched.taken.contains (4 * a + r) then s2
    else { s2 with sched := { s2.sched with taken := (4 * a + r) :: s2.sched.taken } }

/-- A request of an activity is admitted for a resource (R327): credit for a unit, or no unit taken this period; the
calender is never held. -/
def State.admits (s : State) (a r : Nat) : Bool :=
  a = 0x25 || s.unlimited a r || decide (0 < s.rd (budgetFields r).1 a) || !s.sched.taken.contains (4 * a + r)

/-! ### Messages and ports -/

/-- A message of R421: opcode, source and destination, tag, partition, body padded to 4 bytes. -/
def feltMsg (op src dst tag part : Nat) (body : List Byte) : List Byte :=
  let b := body ++ List.replicate (roundUp body.length 4 - body.length) 0
  toLe 1 op ++ toLe 1 (src * 16 + dst) ++ toLe 2 tag ++ toLe 1 (b.length / 4) ++ toLe 1 part ++ toLe 2 0 ++ b

/-- The VC of an opcode (R422); a CPL (0x08) is given the VC of its request. -/
def feltVc (op : Nat) : Nat :=
  if op = 1 || op = 2 || op = 3 then 0 else if op = 4 || op = 5 then 2 else 3

/-- A felt port. -/
def State.port (s : State) (k : Nat) : FPort := storeGet {} s.ring.ports k
/-- The state with a felt port changed. -/
def State.setPort (s : State) (k : Nat) (f : FPort) : State :=
  { s with ring := { s.ring with ports := storeSet {} s.ring.ports k f } }

/-- A port is ACTIVE (R411). -/
def State.portActive (s : State) (k : Nat) : Bool := s.rd .FLT_PORT_STATE k = 5

/-- Source position of a message (R421). -/
def msgSrc (m : List Byte) : Nat := leAt m 1 1 / 16
/-- Destination position of a message. -/
def msgDst (m : List Byte) : Nat := leAt m 1 1 % 16
/-- TAG of a message. -/
def msgTag (m : List Byte) : Nat := leAt m 2 2
/-- The partition a message is charged to. -/
def msgPart (m : List Byte) : Nat := leAt m 5 1 % 32
/-- The body of a message. -/
def msgBody (m : List Byte) : List Byte := (m.drop 8).take (4 * leAt m 4 1)

/-! ### Ways (R419, R426) -/

/-- Hops to a destination over the reached positions, going E (upwards) (R426). -/
def hopsE (reach src dst : Nat) : Nat :=
  ((List.range 16).filter (fun i => 0 < i && bitAt reach ((src + i) % 16) &&
    decide (i ≤ (dst + 16 - src) % 16))).length

/-- Hops going W. -/
def hopsW (reach src dst : Nat) : Nat :=
  ((List.range 16).filter (fun i => 0 < i && bitAt reach ((src + 16 - i) % 16) &&
    decide (i ≤ (src + 16 - dst) % 16))).length

/-- The port that a message to `dst` leaves by (R426): the shorter way, E on a tie; on a line the way that does not cross
the open link; a port that is not ACTIVE leaves the other. -/
def State.routePort (s : State) (dst : Nat) : Nat :=
  let reach := s.rd .FLT_MEMBERS_REACH
  if !s.portActive 0 then 1
  else if !s.portActive 1 then 0
  else match s.ring.brk with
    | some (b, true) => if (b + 16 - s.pos) % 16 < (dst + 16 - s.pos) % 16 then 1 else 0
    | some (b, false) => if (s.pos + 16 - b) % 16 < (s.pos + 16 - dst) % 16 then 0 else 1
    | none => if hopsE reach s.pos dst ≤ hopsW reach s.pos dst then 0 else 1

/-- The link from port k is the dateline (R419): from the highest reached position to the lowest, in either direction, while
the ring is closed. -/
def State.dateline (s : State) (k : Nat) : Bool :=
  let reach := bitIdx 16 (s.rd .FLT_MEMBERS_REACH)
  s.ring.brk.isNone && decide (2 ≤ reach.length) &&
    (if k = 0 then reach.getLast? = some s.pos else reach.head? = some s.pos)

/-! ### Flits (R413 to R415, R418) -/

/-- Bytes of a payload. -/
def payloadBytes : Nat := 244

/-- A flit with its CRC. -/
def mkFlit (seq ack cvc ccls credits cls vc kind : Nat) (payload : List Byte) : List Byte :=
  let h := seq % 256 * 2 ^ 24 + ack % 256 * 2 ^ 16 + cvc * 2 ^ 14 + ccls * 2 ^ 13 + credits * 2 ^ 8 + cls * 2 ^ 6 +
    vc * 2 ^ 4 + kind
  let b := toLe 4 h ++ slice payload 0 payloadBytes
  b ++ toLe 8 (crc64 b)

/-- The credits that a port returns with its next flit: VC and class index, and how many (R418). -/
def FPort.credit (f : FPort) : Nat × Nat :=
  match (indexed f.owed).find? (fun e => e.2 ≠ 0) with
  | some (i, n) => (i, min n 31)
  | none => (0, 0)

/-- The port with those credits returned. -/
def FPort.returned (f : FPort) : FPort :=
  let (i, n) := f.credit
  { f with owed := f.owed.modify i (fun x => x - n) }

/-- A flit of the port carrying its ACK and credits. -/
def FPort.flit (f : FPort) (cls vc kind : Nat) (payload : List Byte) : List Byte :=
  let (i, n) := f.credit
  mkFlit f.txSeq f.rxSeq (i / 2) (i % 2) n cls vc kind payload

/-- Send a NULL (0) or NAK (2) flit, which carries ACK and credits. -/
def FPort.sendBare (f : FPort) (kind : Nat) : FPort :=
  { f.returned with wire := f.flit 0 0 kind [] :: f.wire }

/-- A message can be sent now: the port is ACTIVE, the replay buffer has room, a credit of its VC and class is held, and
its stuff box admits it; a forwarded message was admitted when it left its receive buffer (R415, R418, R427). -/
def State.canSend (s : State) (f : FPort) (m : Msg) : Bool :=
  decide (f.replay.length < 64) && f.credits.getD (2 * m.vc + m.cls) 0 ≠ 0 &&
    (msgSrc m.bytes ≠ s.pos || s.admits (msgPart m.bytes) 2)

/-- Send one message as a TXN flit: it enters the replay buffer, and the partition's use of the ring is counted and charged
(R289, R325). -/
def State.sendMsg (s : State) (k : Nat) (m : Msg) : State :=
  let f := s.port k
  let fl := f.flit m.cls m.vc 1 m.bytes
  let f1 : FPort := { f.returned with
    tx := f.tx.erase m
    txSeq := (f.txSeq + 1) % 256
    replay := f.replay ++ [(f.txSeq, fl)]
    credits := f.credits.modify (2 * m.vc + m.cls) (fun x => x - 1)
    wire := fl :: f.wire }
  let p := msgPart m.bytes
  let s1 := s.setPort k f1
  if msgSrc m.bytes ≠ s.pos then s1
  else
    let s2 := if s1.homed p then s1.wr .HB_USE_FELT (s1.rd .HB_USE_FELT p + m.bytes.length) p else s1
    s2.charge p 2 4

/-- Send what the port can send now, oldest first; `fuel` bounds the messages. -/
def State.pump (s : State) (k : Nat) : Nat → State
  | 0 => s
  | fuel + 1 =>
    if !s.portActive k then s
    else match (s.port k).tx.find? (s.canSend (s.port k)) with
      | none => s
      | some m => (s.sendMsg k m).pump k fuel

/-- Send what the ports can send. -/
def State.pumpAll (s : State) : State :=
  let s1 := s.pump 0 (s.port 0).tx.length
  s1.pump 1 (s1.port 1).tx.length

/-- Queue a message at a port: in class 1 when it crosses the dateline there; a forwarded message goes before the chip's own
(R419, R427). -/
def State.feltPut (s : State) (k vc cls : Nat) (m : List Byte) : State :=
  let f := s.port k
  let x : Msg := ⟨vc, if s.dateline k then 1 else cls, m, 0⟩
  let fwd := f.tx.takeWhile (fun y => msgSrc y.bytes ≠ s.pos)
  let tx := if msgSrc m = s.pos then f.tx ++ [x] else fwd ++ [x] ++ f.tx.drop fwd.length
  let s1 := s.setPort k { f with tx := tx }
  s1.pump k tx.length

/-- Queue a message of this chip at a port. -/
def State.feltQueue (s : State) (k vc : Nat) (m : List Byte) : State := s.feltPut k vc 0 m

end Sys2Proof.Machine
end

