-- ==== Sys2Proof/Machine/Ops.lean ====
section
/-!
DEFINITION. The operations that many units share: event records and interrupt messages (R292 to R302), messages to other
chips (R421 to R426), the functions' states, and answers to a reader outside.
-/

namespace Sys2Proof.Machine

/-- The event targets' function: target 32 is the PF (0), target k < 32 VF k (k + 1). -/
def fnOfTarget (t : Nat) : Nat := if t = 32 then 0 else t + 1

/-- Where a record that names "the partition's driver" goes (R292). -/
def State.driverTarget (s : State) (p : Nat) : Nat :=
  if s.vfEnabled p && s.vfExposed p && !bitAt (s.rd .GLB_FLR_STATUS_RUNNING) p then p else 32

/-- Records of the queue that are not consumed: (WRITE − READ) mod 2^32 (R296). -/
def State.evqFill (s : State) (t : Nat) : Nat := sub32 (s.rd .EVQ_WRITE_INDEX t) (s.rd .EVQ_READ_INDEX t)

/-- The interrupt condition of a target (R298). -/
def State.evqCond (s : State) (t : Nat) : Bool :=
  s.rd .EVQ_CTRL_EN t = 1 && s.rd .EVQ_WRITE_INDEX t ≠ s.rd .EVQ_READ_INDEX t

/-- A record can be written: a slot is free and the target's function can send (R296, R300). -/
def State.evqWritable (s : State) (t : Nat) : Bool :=
  decide (s.evqFill t < 2 ^ s.rd .EVQ_CTRL_SIZE t) && (t = 33 || (s.fnCfg (fnOfTarget t)).sends)

/-- Send a function's MSI-X message, or set its Pending bit while it is masked or cannot send (R298). -/
def State.msix (s : State) (fn : Nat) : State :=
  let c := s.fnCfg fn
  if c.sends && !c.mask then { s with sent := fn :: s.sent } else s.setFn fn { c with pending := true }

/-- Write bytes into the host's memory as posted writes (R297). -/
def State.hostWrite (s : State) (a : Nat) (bs : List Byte) : State :=
  { s with mem := { s.mem with host := memWrite 0 s.mem.host a bs } }

/-- The layout of an event record (R294). -/
def evRecord (kind flags src seq status detail p0 p1 : Nat) : List Byte :=
  toLe 1 kind ++ toLe 1 flags ++ toLe 2 src ++ toLe 4 seq ++ toLe 4 status ++ toLe 4 detail ++ toLe 8 p0 ++ toLe 8 p1

/-- An event record before it is numbered. -/
structure Ev where
  kind : Nat
  src : Nat := 0
  status : Nat := 0
  detail : Nat := 0
  p0 : Nat := 0
  p1 : Nat := 0
  deferred : Bool := false
deriving DecidableEq, Repr

/-- Write one record into target t's queue (R294, R296 to R299), and the message on the condition's rise. -/
def State.evWrite (s : State) (t : Nat) (e : Ev) : State :=
  let w := s.rd .EVQ_WRITE_INDEX t
  let size := s.rd .EVQ_CTRL_SIZE t
  let seq := (w + s.rd .EVQ_DROPPED_COUNT t) % 2 ^ 32
  let flags := b2n e.deferred + 128 * b2n (bitAt w size)
  let a := s.addrOf .EVQ_BASE_ADDR t + 32 * (w % 2 ^ size)
  let rec_ := evRecord e.kind flags e.src seq e.status e.detail e.p0 e.p1
  let s1 := if t = 33 then s.putSector a rec_ else s.hostWrite a rec_
  let s2 := s1.wr .EVQ_WRITE_INDEX (w + 1) t
  if !s.evqCond t && s2.evqCond t && t ≠ 33 then s2.msix (fnOfTarget t) else s2

/-- Drop a record (R300). -/
def State.evDrop (s : State) (t : Nat) (e : Ev) : State :=
  let seq := (s.rd .EVQ_WRITE_INDEX t + s.rd .EVQ_DROPPED_COUNT t) % 2 ^ 32
  let s1 := s.wr .EVQ_DROPPED_COUNT (s.rd .EVQ_DROPPED_COUNT t + 1) t
  if s.rd .EVQ_CTRL_OVF t = 0 then
    { s1.wr .EVQ_CTRL_OVF 1 t with owed := storePut t ⟨e.kind, seq⟩ s1.owed }
  else s1

/-- Write the owed OVERFLOW record, if one is owed and a slot is writable (R300). -/
def State.evOwed (s : State) (t : Nat) : State :=
  match storeFind s.owed t with
  | none => s
  | some o =>
    if s.rd .EVQ_CTRL_EN t = 1 && s.evqWritable t then
      ({ s with owed := storeErase s.owed t }).evWrite t
        { kind := 0x0B, detail := o.kind, p0 := s.rd .EVQ_DROPPED_COUNT t, p1 := o.seq }
    else s

/-- Post a record that is not suppressed: written behind an owed OVERFLOW record, or dropped (R300); nothing while the
queue is disabled (R296). -/
def State.evPost (s : State) (t : Nat) (e : Ev) : State :=
  if s.rd .EVQ_CTRL_EN t = 0 then s
  else
    let s1 := s.evOwed t
    if s1.evqWritable t then s1.evWrite t e else s1.evDrop t e

/-- Bit `k` of a PEND or MASK field, which starts at bit 1 (R301). -/
def kindBit (f k : Nat) : Bool := bitAt f (k - 1)

/-- Raise an event of a kind at a target (R301): PEND, then the record unless MASK suppresses it. -/
def State.raise (s : State) (t : Nat) (e : Ev) : State :=
  let s1 := s.wr .EVQ_PEND_PEND (setBit (s.rd .EVQ_PEND_PEND t) (e.kind - 1)) t
  if kindBit (s.rd .EVQ_MASK_MASK t) e.kind then s1 else s1.evPost t e

/-! ### Messages to other chips -/

/-- Send a request to a destination; while the membership changes it is held, and an install sends it (R432). -/
def State.feltSend (s : State) (dst : Nat) (m : List Byte) : State :=
  if s.rd .FLT_STATUS_CHANGING = 1 then s else s.feltQueue (s.routePort dst) (feltVc (leAt m 0 1)) m

/-- Send a request to another chip and record it as outstanding (R424, R425); an orphaned chip sends none (R435). -/
def State.feltReq (s : State) (dst op part : Nat) (body : List Byte) (owner : Owner) (va : Nat := 0) : State :=
  if s.rd .FLT_STATUS_ORPHAN = 1 then s else
  let tag := s.ring.tagNext
  let m := feltMsg op s.pos dst tag part body
  let r : Req := ⟨tag, 0, some dst, part, 0, 0, m, owner, va⟩
  let s1 := { s with ring := { s.ring with reqs := s.ring.reqs ++ [r], tagNext := (tag + 1) % 65536 } }
  s1.feltSend dst m

/-- Send a request from a port to the chip it faces, whatever the membership (R430, R441). -/
def State.feltReqOn (s : State) (k op part : Nat) (body : List Byte) : State :=
  let dst := s.rd .FLT_PORT_PEER k
  let tag := s.ring.tagNext
  let m := feltMsg op s.pos dst tag part body
  let r : Req := ⟨tag, 0, some dst, part, 0, 0, m, .ctl, 0⟩
  ({ s with ring := { s.ring with reqs := s.ring.reqs ++ [r], tagNext := (tag + 1) % 65536 } }).feltQueue k (feltVc op) m

/-- Answer a request of another chip by a port (R422 to R425): the completion is recorded by source and tag, except a RD's,
and sent on VC 1 for RD, WR and ATOM, otherwise on the VC of its request. -/
def State.feltCplBy (s : State) (k op dst tag part status : Nat) (data : List Byte) : State :=
  let m := feltMsg 8 s.pos dst tag part (toLe 4 status ++ data)
  let mine := s.ring.performed.filter (fun x => x.1.1 = dst)
  let keep := if mine.length < 1024 then s.ring.performed else s.ring.performed.erase (mine.headD ((0, 0), []))
  let s1 := if op = 1 then s
    else { s with ring := { s.ring with performed := keep ++ [((dst, tag), m)] } }
  s1.feltQueue k (if op ≤ 3 then 1 else feltVc op) m

/-- Answer a request of another chip the way to it. -/
def State.feltCpl (s : State) (op dst tag part status : Nat) (data : List Byte) : State :=
  s.feltCplBy (s.routePort dst) op dst tag part status data

/-- Post a record for a partition's driver (R292): here when the partition is homed here, otherwise over the ring. -/
def State.raisePart (s : State) (p : Nat) (e : Ev) : State :=
  match s.part p with
  | some r =>
    if r.home ≠ s.pos ∧ s.spanning p then
      s.feltReq r.home 5 p (evRecord e.kind 0 e.src 0 e.status e.detail e.p0 e.p1) .ctl
    else s.raise (s.driverTarget p) e
  | none => s.raise 32 e

/-- The four shared sources (R293). -/
inductive Shared | thermal | ring | dramError | power
deriving DecidableEq, Repr

/-- The target a shared source is routed to (R293). -/
def State.sharedTarget (s : State) : Shared → Nat
  | .thermal => s.rd .EVQ_ROUTE_THERMAL
  | .ring => s.rd .EVQ_ROUTE_RING
  | .dramError => s.rd .EVQ_ROUTE_DRAM_ERROR
  | .power => s.rd .EVQ_ROUTE_POWER

/-- The KIND of a shared source's records (R295). -/
def Shared.kind : Shared → Nat
  | .thermal => 0x10 | .ring => 0x11 | .dramError => 0x12 | .power => 0x13

/-- Post a record of a shared source. -/
def State.raiseShared (s : State) (src : Shared) (status detail p0 p1 : Nat) : State :=
  s.raise (s.sharedTarget src) { kind := src.kind, status := status, detail := detail, p0 := p0, p1 := p1 }

/-- Post a RING record (R445). -/
def State.raiseRing (s : State) (status : Nat) (before : Nat := 0) : State :=
  s.raiseShared .ring status (s.rd .FLT_STATUS_EPOCH * 65536 + s.pos)
    (s.rd .FLT_MEMBERS_REACH * 65536 + s.rd .FLT_MEMBERS_LIVE) before

/-- Post a STOPPED record of function k (R36, R295): identifier by R15. -/
def funcIdent (pos k : Nat) : Nat :=
  if k < 32 then pos * 256 + k
  else if k < 34 then 0x1000 + pos * 256 + (k - 32)
  else if k < 38 then 0x2000 + pos * 256 + (k - 34)
  else 0x3000 + pos * 256

/-- The state of function k (GLB_FUNC_STATE). -/
def State.funcState (s : State) (k : Nat) : Nat := s.rd .GLB_FUNC_STATE_STATE k
/-- RUNNING. -/
def fnRunning : Nat := 0
/-- STOPPING. -/
def fnStopping : Nat := 1
/-- STOPPED. -/
def fnStopped : Nat := 2
/-- STARTING. -/
def fnStarting : Nat := 3
/-- ABSENT. -/
def fnAbsent : Nat := 4
/-- STAGED. -/
def fnStaged : Nat := 5

/-- The state with function k's state set. -/
def State.setFunc (s : State) (k v : Nat) : State := s.wr .GLB_FUNC_STATE_STATE v k

/-- Answer a reader with a value of `n` bytes. -/
def State.answer (s : State) (n v : Nat) : State := { s with reply := .data (toLe n v) }

/-- Log an error in AER (R231), newest first: 0 Unsupported Request, 1 Completer Abort, 2 Completion Timeout,
3 Poisoned TLP Received. -/
def State.aer (s : State) (e : Nat) : State := { s with pcie := { s.pcie with aer := e :: s.pcie.aer } }

end Sys2Proof.Machine
end

