-- ==== Sys2Proof/Machine/L2.lean ====
section
/-!
DEFINITION. Accesses at the L2 (R354 to R357): reads, writes, atomics by policy, the streaming detectors (R356), and what
an error of the DRAM coder reports (R368, R369, R371).
-/

namespace Sys2Proof.Machine

/-- A port's number for its detector (R356); none for requesters without one. -/
def portIndex : L2Port → Option Nat
  | .vat n => some n.val
  | .geo => some 64
  | .plp e => some (65 + e.val)
  | .bal => some 69
  | .copy => some 70
  | .cal => some 71
  | .feltE => some 72
  | .feltW => some 73
  | .pcie => some 74
  | .unit => none

/-- Who asks for memory: the port, the requester kind of R351 and R371 (0 vat, 1 beater, 2 headbox, 3 geometry,
4 pulper, 5 baler, 6 copy, 7 scheduler, 8 calender, 9 scrub, 10 remote chip, 11 PCIe window; 12 stands for the device's own
records) and the partition. -/
structure Asker where
  port : L2Port
  kind : Nat
  part : Nat := 0
deriving DecidableEq, Repr

/-- A MEM status's detail: code, controller, region (R379). -/
def State.memDetail (s : State) (pa : Nat) : Nat :=
  match s.regionOf pa with
  | none => ctrlOf pa * 256
  | some r => (s.region r).code * 4096 + ctrlOf pa * 256 + r

/-- The record of an error at a sector (R371). -/
def State.memRecord (s : State) (who : Asker) (reason pa mask : Nat) : State :=
  s.raiseShared .dramError (stMem reason (s.memDetail pa))
    (who.kind * 2 ^ 28 + s.pos * 2 ^ 24 + who.part * 2 ^ 16) (pa / 32 * 32) mask

/-- A corrected read: the controller's CE, and a record at each multiple of CE_STEP (R368). -/
def State.noteCorrected (s : State) (who : Asker) (pa : Nat) : State :=
  let c := ctrlOf pa
  let s1 := s.count .MEM_ECC_COUNT_CE 1 c
  let step := s.rd .MEM_ERR_CTRL_CE_STEP
  if step ≠ 0 ∧ s.rd .MEM_ECC_COUNT_CE c < s1.rd .MEM_ECC_COUNT_CE c ∧ s1.rd .MEM_ECC_COUNT_CE c % step = 0
  then s1.memRecord who 2 pa 0 else s1

/-- An uncorrectable read: UE, the log when it is free, and a record (R369). -/
def State.noteBad (s : State) (who : Asker) (pa mask : Nat) : State :=
  let s1 := s.count .MEM_ECC_COUNT_UE 1 (ctrlOf pa)
  let s2 :=
    if s1.rd .MEM_ERR_LOG_VALID = 0 then
      (((s1.wr .MEM_ERR_LOG_VALID 1).wr .MEM_ERR_LOG_STATUS (stMem 1 (s.memDetail pa))).wr .MEM_ERR_LOG_MASK mask).wr
        .MEM_ERR_LOG_SECTOR (pa / 32)
    else s1
  s2.memRecord who 1 pa mask

/-- The activity that an asker's traffic is charged to (R325). -/
def Asker.activity (who : Asker) : Option Nat :=
  match who.kind, who.port with
  | 4, .plp e => some (0x20 + e.val)
  | 4, _ => none
  | 5, _ => some 0x24
  | 8, _ => some 0x25
  | 9, _ => some 0x27
  | 11, _ => none
  | 12, _ => none
  | _, _ => some who.part

/-- The asker's memory traffic is admitted. -/
def State.admitsMem (s : State) (who : Asker) : Bool :=
  match who.activity with
  | none => true
  | some a => s.admits a 0 && s.admits a 1

/-- An L2 miss is charged (R325). -/
def State.chargeMiss (s : State) (who : Asker) : State :=
  match who.activity with
  | none => s
  | some a => s.charge a 1 1

/-- DRAM bytes are charged in units of 64 (R18, R325). Whether a sector of 32 bytes counts a unit or none is a free
value. -/
def State.chargeDram (s : State) (who : Asker) (n : Nat) : State :=
  match who.activity with
  | none => s
  | some a =>
    if s.unlimited a 0 then s
    else
      let (k, s1) := s.takeFree
      s1.charge a 0 (n / 64 + (if n % 64 = 0 then 0 else (Config.undefinedWord k).toNat % 2))

/-- `n` bytes at a DRAM controller: HB_USE's DRAM counter of a partition homed here (R289), for the requester kinds 0 to 8,
and the charge. -/
def State.useDram (s : State) (who : Asker) (n : Nat) : State :=
  let s1 := if who.kind ≤ 8 && s.homed who.part then
      s.wr .HB_USE_DRAM (s.rd .HB_USE_DRAM who.part + n) who.part
    else s
  s1.chargeDram who n

/-- Whether a policy allocates (R355). -/
def polAllocs : CachePolicy → Bool
  | .uc => false
  | _ => true

/-- The slice of an address is woken (R360). -/
def State.wakeSlice (s : State) (pa : Nat) : State := s.wakeNow (domL2 (sliceOf pa))

/-- The controller of an address is woken (R446). -/
def State.wakeCtrl (s : State) (pa : Nat) : State := s.wakeNow (domMc (ctrlOf pa))

/-- Read the sector at `pa` (aligned): L2 hit, or DRAM through the coder, allocating by policy (R355, R368, R369). -/
def State.l2ReadSector (s : State) (who : Asker) (pol : CachePolicy) (pa : Nat) : State × Option (List Byte) :=
  let s := s.wakeSlice pa
  match s.l2Hit pa with
  | some x => (s, some x.bytes)
  | none =>
    let r := s.readSector pa
    let s0 := ((s.wakeCtrl pa).chargeMiss who).useDram who 32
    if r.bad ≠ 0 then (s0.noteBad who pa r.bad, none)
    else
      let s1 := if r.corrected then s0.noteCorrected who pa else s0
      let s2 := if s.rd .L2_CTRL_EN = 1 && polAllocs pol then s1.l2Put pa r.bytes false else s1
      (s2, some r.bytes)

/-- Read `n` sectors from `pa` (aligned); the first bad one ends the read. -/
def State.l2ReadSectors (s : State) (who : Asker) (pol : CachePolicy) : Nat → Nat → State × Option (List Byte)
  | 0, _ => (s, some [])
  | n + 1, pa =>
    match s.l2ReadSector who pol pa with
    | (s1, none) => (s1, none)
    | (s1, some b) =>
      match s1.l2ReadSectors who pol n (pa + 32) with
      | (s2, none) => (s2, none)
      | (s2, some bs) => (s2, some (b ++ bs))

/-- The sectors that `n` bytes from `pa` touch. -/
def sectorsOf (pa n : Nat) : Nat := if n = 0 then 0 else (pa % 32 + n + 31) / 32

/-- Read `n` bytes from `pa`. -/
def State.l2Read (s : State) (who : Asker) (pol : CachePolicy) (pa n : Nat) : State × Option (List Byte) :=
  match s.l2ReadSectors who pol (sectorsOf pa n) (pa / 32 * 32) with
  | (s1, none) => (s1, none)
  | (s1, some bs) => (s1, some ((bs.drop (pa % 32)).take n))

/-- The trackers after a write to line `l`, and whether the write's miss is kept out of L2 (R356). -/
def trackWrite (ts : List Tracker) (l : Nat) : List Tracker × Bool :=
  match ts.find? (fun t => t.line = l || t.line + 1 = l) with
  | some t =>
    let t' : Tracker := if t.line = l then t else ⟨l, t.count + 1⟩
    (t' :: ts.filter (fun x => x ≠ t), decide (64 ≤ t.count))
  | none => (⟨l, 1⟩ :: ts.take 3, false)

/-- The detector of the asker's port takes a WB or STREAM write to a line; answers whether it bypasses (R356). -/
def State.detect (s : State) (who : Asker) (pol : CachePolicy) (pa : Nat) : State × Bool :=
  match portIndex who.port with
  | none => (s, false)
  | some k =>
    if polAllocs pol then
      let (ts, b) := trackWrite (storeGet [] s.mem.trackers k) (pa / 128)
      ({ s with mem := { s.mem with trackers := storePut k ts s.mem.trackers } }, b)
    else (s, false)

/-- Merge bytes into a sector at an offset. -/
def mergeBytes (old : List Byte) (off : Nat) (bs : List Byte) : List Byte :=
  old.take off ++ bs ++ old.drop (off + bs.length)

/-- Write part or all of one sector (R355): a hit updates the line; a miss allocates or goes to DRAM; a partial miss
reads the sector first, and an uncorrectable merge writes nothing (answer false). -/
def State.l2WriteSector (s : State) (who : Asker) (pol : CachePolicy) (bypass : Bool) (pa off : Nat)
    (bs : List Byte) : State × Bool :=
  let s := s.wakeSlice pa
  match s.l2Hit pa with
  | some x => (s.l2Put pa (mergeBytes x.bytes off bs) true, true)
  | none =>
    let alloc := s.rd .L2_CTRL_EN = 1 && polAllocs pol && !bypass
    let s' := (s.wakeCtrl pa).chargeMiss who
    let s0 := if s.rd .L2_CTRL_EN = 1 && polAllocs pol && bypass then s'.count .L2_STREAM_COUNT else s'
    if bs.length = 32 then
      (if alloc then s0.l2Put pa bs true else (s0.writeSector pa bs).useDram who 32, true)
    else
      let r := s0.readSector pa
      let s00 := s0.useDram who 32
      if r.bad ≠ 0 then (s00.noteBad who pa r.bad, false)
      else
        let s1 := if r.corrected then s00.noteCorrected who pa else s00
        let m := mergeBytes r.bytes off bs
        (if alloc then s1.l2Put pa m true else (s1.writeSector pa m).useDram who 32, true)

/-- Write bytes sector by sector; `fuel` bounds the sectors. -/
def State.l2WriteFrom (s : State) (who : Asker) (pol : CachePolicy) : Nat → Nat → List Byte → State × Bool
  | 0, _, _ => (s, true)
  | fuel + 1, pa, bs =>
    if bs.isEmpty then (s, true)
    else
      let off := pa % 32
      let here := bs.take (32 - off)
      let (s1, bypass) := s.detect who pol pa
      let (s2, ok) := s1.l2WriteSector who pol bypass (pa - off) off here
      if ok then s2.l2WriteFrom who pol fuel (pa - off + 32) (bs.drop (32 - off)) else (s2, false)

/-- Write bytes at `pa`. -/
def State.l2Write (s : State) (who : Asker) (pol : CachePolicy) (pa : Nat) (bs : List Byte) : State × Bool :=
  s.l2WriteFrom who pol (sectorsOf pa bs.length) pa bs

/-- What an atomic leaves in memory (R105, 0xA0 to 0xAA); `w` is 32 or 64 bits. -/
def atomNew (opcode w : Nat) (sgn : Bool) (old b c : Nat) : Nat :=
  let lt (x y : Nat) : Bool := if sgn then decide (sext w x < sext w y) else decide (x < y)
  let m := 2 ^ w
  (match opcode with
  | 0xA0 => old + b
  | 0xA1 => old &&& b
  | 0xA2 => old ||| b
  | 0xA3 => old ^^^ b
  | 0xA4 => if lt b old then b else old
  | 0xA5 => if lt old b then b else old
  | 0xA6 => b
  | 0xA7 => if old = b then c else old
  | 0xA8 => if lt old b then old + 1 else b
  | 0xA9 => if lt b old then old + m - 1 else b
  | 0xAA => f32Add old b
  | _ => old) % m

/-- An atomic performed in the slice (R355): the old value, or none on an uncorrectable read. -/
def State.l2Atomic (s : State) (who : Asker) (pol : CachePolicy) (opcode : Nat) (sgn wide : Bool) (pa b c : Nat) :
    State × Option Nat :=
  let n := if wide then 8 else 4
  match s.l2Read who pol pa n with
  | (s1, none) => (s1, none)
  | (s1, some bs) =>
    let old := ofLe bs
    let w := 8 * n
    match s1.l2Write who pol pa (toLe n (atomNew opcode w sgn old (b % 2 ^ w) (c % 2 ^ w))) with
    | (s2, _) => (s2, some old)

/-- The policy of a PTE's CACHE field (R330). -/
def policyOf (c : Nat) : CachePolicy := if c = 0 then .wb else if c = 1 then .stream else .uc

/-- A write by the device's own units with release at CHIP scope (records, results): WB, no detector. -/
def State.physWrite (s : State) (pa : Nat) (bs : List Byte) : State := (s.l2Write ⟨.unit, 12, 0⟩ .wb pa bs).1

end Sys2Proof.Machine
end

