-- ==== Sys2Proof/Machine/Points.lean ====
section
/-!
DEFINITION. Operating points (R454 to R456, R458): what each rail asks for, the caps, and the effective point.
-/

namespace Sys2Proof.Machine

/-- The highest point of a rail (R454): 0 VDD_ARR, 1 VDD_VAT, 2 VDD_FAB. -/
def railTop (r : Nat) : Nat := if r = 2 then 2 else 4

/-- The class in force (R458, R462). -/
def State.classNow (s : State) : Nat :=
  let c := s.rd .PWR_CLASS_CLASS
  if s.rd .PWR_STATUS_TRIPPED = 1 || c = 3 then 0 else c

/-- PEAK counts (R458). -/
def State.peakOk (s : State) : Bool :=
  s.rd .PWR_CLASS_PEAK = 1 && s.rd .PWR_STATUS_WORN = 0 && s.rd .PWR_STATUS_TRIPPED = 0

/-- The highest ARR and VAT point of the class (R458). -/
def State.classTop (s : State) : Nat := if s.classNow = 0 then 2 else if s.peakOk then 4 else 3

/-- P_c in mW (R458). -/
def State.classPower (s : State) : Nat := if s.classNow = 0 then 35000 else if s.classNow = 1 then 50000 else 70000

/-- The voltage point that a rail asks for; its FOP is never above it (R455). -/
def State.railVop (s : State) (r : Nat) : Nat := min (s.rd .PWR_DVFS_VOP r) (railTop r)

/-- The frequency point that a rail asks for. -/
def State.railFop (s : State) (r : Nat) : Nat := min (s.rd .PWR_DVFS_FOP r) (railTop r)

/-- The request of ARR and VAT together. -/
def State.coreRequest (s : State) : Nat := max (s.railVop 0) (s.railVop 1)

/-- The point c that R456 gives a rail. -/
def State.railPoint (s : State) (r : Nat) : Nat :=
  let th := s.rd .PWR_LIMIT_THERMAL
  if r = 2 then min (min (s.railVop 2) 2) th
  else
    let c := min (min (s.railVop r) s.classTop) (min (s.rd .PWR_LIMIT_POWER) th)
    if r = 0 then min c (s.rd .PWR_LIMIT_CURRENT) else c

/-- Where a rail's effective point is shown. -/
def railField (r : Nat) : Field := if r = 0 then .PWR_STATUS_ARR else if r = 1 then .PWR_STATUS_VAT else .PWR_STATUS_FAB

/-- A rail goes towards its point in the order of R455: a fall acts on the frequency at once, a rise waits for the regulator's
read-back. A point that was not confirmed is not tried again (R457). -/
def State.moveRail (s : State) (r : Nat) : State :=
  let t := s.railPoint r
  let e := s.rd (railField r)
  let go (s : State) : State := { s with pwr := { s.pwr with
    change := storePut r t s.pwr.change
    failed := storeErase s.pwr.failed r } }
  if e < t then (if storeFind s.pwr.failed r = some t then s else go s)
  else if t < e then (go s).wr (railField r) t
  else match storeFind s.pwr.change r with
    | some t' => if t' = t then s else go s
    | none => s

/-- The LIMITED bits (PWR_STATUS): class, power, thermal, current. -/
def State.limitedBits (s : State) : Nat :=
  b2n (s.classTop < s.coreRequest) + 2 * b2n (s.rd .PWR_LIMIT_POWER < s.coreRequest) +
    4 * b2n (s.rd .PWR_LIMIT_THERMAL < max s.coreRequest (s.railVop 2)) + 8 * b2n (s.rd .PWR_LIMIT_CURRENT < s.railVop 0)

/-- PWR_STATUS's other fields; SMB_ALERT_N goes low when the thermal bit rises (R509). -/
def State.showPower (s : State) : State :=
  let l := s.limitedBits
  let s1 : State := if bitAt l 2 && !bitAt (s.rd .PWR_STATUS_LIMITED) 2 then
      { s with pins := { s.pins with smbAlert := true } } else s
  ((s1.wr .PWR_STATUS_LIMITED l).wr .PWR_STATUS_PEAK (b2n (s.classTop = 4))).wr .PWR_STATUS_CLASS s.classNow

/-- Requests, caps or the class have changed (R456). -/
def State.repoint (s : State) : State := (((s.moveRail 0).moveRail 1).moveRail 2).showPower

/-- The mean power of the last 10 bins in mW (R459). -/
def State.avgPower (s : State) : Nat := s.pwr.bins.sum / max 1 s.pwr.bins.length

/-- DETAIL of a POWER or THERMAL record (R464). -/
def State.powerDetail (s : State) : Nat :=
  s.rd .PWR_TEMP_SENSOR * 2 ^ 24 + s.rd .PWR_TEMP_TEMP * 2 ^ 16 + s.rd .PWR_STATUS_FAB * 2 ^ 12 +
    s.rd .PWR_STATUS_VAT * 16 + s.rd .PWR_STATUS_ARR

end Sys2Proof.Machine
end

