-- ==== Sys2Proof/Machine/FurnLoad.lean ====
section
/-!
DEFINITION. Reading a furnish bit-stream: the header checks (R13, R14, R519), the watermark (R19), the record walk (R16 to
R18, R21), the cross-checks (R22 to R30, R43), and the settings it puts in force (R20, R31 step 6).
-/

namespace Sys2Proof.Machine

/-- Why a load fails: its status, and GLB_LOAD_AUX's RESOURCE and RECORD. -/
structure LoadErr where
  status : Nat
  resource : Nat := 0
  record : Nat := 0xFFFF
deriving DecidableEq, Repr

/-- A failure with a FURNISH reason and detail, at a record. -/
def furnErr (reason detail : Nat) (record : Nat := 0xFFFF) (resource : Nat := 0) : LoadErr :=
  ⟨stFurnish reason detail, resource, record⟩

/-- The first failure of a list of checks. -/
def firstErr (l : List (Option LoadErr)) : Option LoadErr := l.findSome? id

/-! ### Header and watermark -/

/-- The FUNCTIONS entries of a header (R14). -/
def furnFunctions (bs : List Byte) : List Nat :=
  ((List.range 8).map (fun i => leAt bs (48 + 2 * i) 2)).filter (fun x => x ≠ 0xFFFF)

/-- LENGTH of a header. -/
def furnLength (bs : List Byte) : Nat := leAt bs 8 4
/-- GENERATION of a header. -/
def furnGen (bs : List Byte) : Nat := leAt bs 16 8
/-- BASE of a header. -/
def furnBase (bs : List Byte) : Nat := leAt bs 24 8
/-- COUNT of a header. -/
def furnCount (bs : List Byte) : Nat := leAt bs 12 2
/-- FLAGS.DELTA. -/
def furnDelta (bs : List Byte) : Bool := bitAt (leAt bs 6 2) 0

/-- The header checks of R519 in order; `avail` is how many bytes the source holds, `delta` the kind of the load. -/
def furnHeaderErr (bs : List Byte) (avail : Nat) (delta : Bool) : Option LoadErr :=
  let len := furnLength bs
  let full := !furnDelta bs
  if leAt bs 0 4 ≠ 0x48534E46 then some (furnErr 1 0)
  else if leAt bs 5 1 ≠ 1 then some (furnErr 2 (leAt bs 4 2))
  else if len < 1104 || len % 8 ≠ 0 || decide (262144 < len) || decide (avail < len) then some (furnErr 3 0)
  else if leAt bs 6 2 / 2 ≠ 0 || leAt bs 14 2 ≠ 0 || (full && (furnBase bs ≠ 0 || furnFunctions bs ≠ [])) then
    some (furnErr 6 0xFFFF)
  else if furnDelta bs != delta then some (furnErr 0x1A (b2n delta))
  else none

/-- The watermark's place: the last 1,040 bytes. -/
def markAt (bs : List Byte) : Nat := furnLength bs - 1040

/-- The watermark is accepted (R19): the digest of its key in the fuse slot, programmed and not revoked, and the
signature. -/
def markOk (f : Fuses) (slot : Nat) (bs : List Byte) (m : Nat) : Bool :=
  let modulus := slice bs (m + 8) 512
  let exponent := slice bs (m + 520) 4
  let digest := ofBe (sha512 (modulus ++ exponent))
  let key := f.fnsKeys.getD slot 0
  key ≠ 0 && key = digest && !bitAt f.fnsRevoke slot &&
    rsaVerify modulus exponent (slice bs (m + 528) 512) (sha512 (bs.take (m + 528)))

/-- Step 3 of R31. -/
def furnMarkErr (f : Fuses) (bs : List Byte) : Option LoadErr :=
  let m := markAt bs
  let key := leAt bs (m + 4) 4
  if leAt bs m 2 ≠ 0x7FFF || leAt bs (m + 2) 2 ≠ 1040 || decide (1 < key) then some (furnErr 4 0xFFFF)
  else if markOk f key bs m then none else some (furnErr 4 key)

/-! ### Records -/

/-- The body bytes of the known record types (R17). -/
def bodySize (type : Nat) : Option Nat :=
  if type = 1 || type = 2 || type = 4 || type = 7 || type = 8 then some 8
  else if type = 3 || type = 5 || type = 6 then some 24
  else none

/-- Resources that can be claimed (R41). -/
def claimable (r : Nat) : Bool := decide (r ≤ 0x12) || r = 0x20 || r = 0x21

/-- The features and their resources (R42); GPIO_SW (0x0E) lists every resource it may take. -/
def featureRes (f : Nat) : List Nat :=
  match f with
  | 0x01 => [0x00, 0x01, 0x10]
  | 0x02 => [0x01, 0x11]
  | 0x03 => [0x02, 0x03, 0x04, 0x05, 0x06, 0x21]
  | 0x04 => [0x0A, 0x0B]
  | 0x05 => [0x0A, 0x0B]
  | 0x06 => [0x08]
  | 0x07 => [0x07]
  | 0x08 => [0x03, 0x04, 0x05, 0x06]
  | 0x09 => [0x09, 0x11]
  | 0x0A => [0x20]
  | 0x0B => [0x20]
  | 0x0C => [0x02, 0x12]
  | 0x0D => [0x21]
  | 0x0E => (List.range 16) ++ [0x12]
  | _ => []

/-- GPIO_SW's identifier. -/
def gpioSw : Nat := 0x0E

/-- A record's KEY as its fields give it (R17). -/
def recKey (r : FRec) : Nat :=
  let b := r.body
  if r.type = 2 then leAt b 0 2
  else if r.type = 3 then leAt b 0 1
  else if r.type = 5 then leAt b 1 1 * 256 + leAt b 0 1
  else if r.type = 6 then leAt b 2 1 * 256 + leAt b 0 1
  else if r.type = 7 then leAt b 2 1 * 65536 + leAt b 0 1 * 256 + leAt b 1 1
  else if r.type = 8 then leAt b 0 1
  else 0

/-- A record's values lie in the ranges of R18. -/
def recValuesOk (r : FRec) : Bool :=
  let b := r.body
  let g (off n : Nat) : Nat := leAt b off n
  if r.type = 1 then 1 ≤ g 0 1 && decide (g 0 1 ≤ 16) && decide (g 1 1 ≤ 15) && g 4 4 = 0
  else if r.type = 2 then
    let k := g 4 1
    decide (g 0 2 ≤ 0xFFFE) && decide (k ≤ 5) && (if k = 3 || k = 4 then g 5 1 = 0xFF else decide (g 5 1 ≤ 15)) &&
      (if k = 0 then decide (g 6 1 ≤ 63) else g 6 1 = 0xFF) && g 7 1 = 0
  else if r.type = 3 then
    decide (g 0 1 ≤ 31) && decide (g 1 1 ≤ 1) && decide (g 4 1 ≤ 15) && decide (g 5 1 ≤ 7) && 1 ≤ g 6 1 &&
      g 6 1 + g 7 1 + g 8 1 + g 9 1 = 16 && decide (g 10 1 ≤ 3) && decide (g 11 1 ≤ 1) && decide (g 12 2 ≤ 4096) &&
      g 14 2 = 0 && g 16 4 ≠ 0 && g 20 4 = 0
  else if r.type = 4 then
    decide (g 0 1 ≤ 31) && decide (g 1 1 ≤ 15) && 1 ≤ g 2 1 && decide (g 2 1 ≤ 3) && g 3 5 = 0
  else if r.type = 5 then decide (g 0 1 ≤ 0x27) && decide (g 1 1 ≤ 15) && g 6 2 = 0
  else if r.type = 6 then
    decide (g 0 1 ≤ 15) && decide (g 1 1 ≤ 2) && decide (g 2 1 ≤ 15) && g 3 5 = 0 && decide (g 8 8 < 2 ^ 44) &&
      g 8 8 % 2 ^ 21 = 0 && g 16 8 % 2 ^ 21 = 0 && g 16 8 ≠ 0
  else if r.type = 7 then
    claimable (g 0 1) && featureRes (g 1 1) ≠ [] && decide (g 2 1 ≤ 15) && g 3 5 = 0
  else if r.type = 8 then decide (g 0 1 ≤ 15) && decide (g 1 1 ≤ 2) && decide (g 2 1 ≤ 1) && g 3 5 = 0
  else true

/-- R21: on a grade B part the chip's own POWER record has neither CLASS 2 nor PEAK 1. -/
def gradeOk (gradeB : Bool) (pos : Nat) (r : FRec) : Bool :=
  !(gradeB && r.type = 8 && leAt r.body 0 1 = pos && (leAt r.body 1 1 = 2 || leAt r.body 2 1 = 1))

/-- The checks of one record (R16 to R18, R21), given the records before it. -/
def recErr (gradeB delta : Bool) (pos ix len : Nat) (r : FRec) (before : List (Nat × FRec)) : Option LoadErr :=
  let dup := before.any (fun e => e.2.type = r.type && e.2.key = r.key)
  if r.type = 0x7FFF then some (furnErr 6 ix ix)
  else if 0x8000 ≤ r.type then if dup then some (furnErr 6 ix ix) else none
  else match bodySize r.type with
    | none => some (furnErr 6 ix ix)
    | some n =>
      if len = 8 then if !delta || dup then some (furnErr 6 ix ix) else none
      else if len ≠ 8 + n then some (furnErr 3 0 ix)
      else if dup then some (furnErr 6 ix ix)
      else if r.key ≠ recKey r || !recValuesOk r || !gradeOk gradeB pos r then some (furnErr 7 ix ix)
      else none

/-- The record walk from byte `off` (R16, R17, R519): the records with their indices; `fuel` bounds them. -/
def walkRecs (gradeB delta : Bool) (pos : Nat) (bs : List Byte) : Nat → Nat → List (Nat × FRec) →
    Except LoadErr (List (Nat × FRec))
  | 0, _, acc => .ok acc
  | fuel + 1, off, acc =>
    let ix := acc.length
    let stop := markAt bs
    if off = stop then
      if furnCount bs ≠ ix + 1 then .error (furnErr 3 0)
      else if leAt bs (stop + 8 + 516) 4 ≠ 0 then .error (furnErr 7 ix ix)
      else .ok acc
    else
      let len := leAt bs (off + 2) 2
      if len < 8 || len % 8 ≠ 0 || decide (stop < off + len) then .error (furnErr 3 0 ix)
      else
        let r : FRec := ⟨leAt bs off 2, leAt bs (off + 4) 4, slice bs (off + 8) (len - 8)⟩
        match recErr gradeB delta pos ix len r acc with
        | some e => .error e
        | none => walkRecs gradeB delta pos bs fuel (off + len) (acc ++ [(ix, r)])

/-! ### Cross-checks -/

/-- The index of a post record by its identifier, or 0xFFFF. -/
def postIx (recs : List (Nat × FRec)) (id : Nat) : Nat :=
  match recs.find? (fun e => e.2.type = 2 && leAt e.2.body 0 2 = id) with
  | some e => e.1
  | none => 0xFFFF

/-- A POST_TREE failure. -/
def postErr (recs : List (Nat × FRec)) (id : Nat) : LoadErr := furnErr 8 id (postIx recs id)

/-- The first element that fails a test. -/
def firstBad {α : Type} (l : List α) (ok : α → Bool) : Option α := l.find? (fun x => !ok x)

/-- A post nests as R22 says. -/
def nestOk (ps : List PostRec) (members : Nat) (r : PostRec) : Bool :=
  if r.parent = 0xFFFF then r.kind = 4 || (r.kind = 2 && members = 1)
  else match ps.find? (fun q => q.id = r.parent) with
    | none => false
    | some q =>
      (match r.kind with
        | 2 => q.kind = 4
        | 3 => q.kind = 4 || q.kind = 3
        | 1 => (q.kind = 2 && q.chip = r.chip) || q.kind = 3 || (q.kind = 1 && q.chip = r.chip)
        | 5 => q.kind = 2 && q.chip = r.chip
        | 0 => (q.kind = 2 || q.kind = 1 || q.kind = 5) && q.chip = r.chip
        | _ => false)

/-- Climbing from a post reaches a root within `fuel` levels (R23). -/
def depthOk (ps : List PostRec) : Nat → Nat → Bool
  | 0, _ => false
  | fuel + 1, id =>
    match ps.find? (fun q => q.id = id) with
    | none => false
    | some q => q.parent = 0xFFFF || depthOk ps fuel q.parent

/-- The chips of the vats beneath a post. -/
def chipsUnder (ps : List PostRec) (root : Nat) : List Nat :=
  ((ps.filter (fun r => r.kind = 0 && postUnder ps root 9 r.id)).map (·.chip)).eraseDups

/-- The same place named twice (R23): a chip, a pool or a vat. -/
def samePlace (a b : PostRec) : Bool :=
  a.kind = b.kind && a.chip = b.chip && (a.kind = 2 || a.kind = 5 || (a.kind = 0 && a.vat = b.vat))

/-- The first post that names a place again. -/
def dupPlace : List PostRec → List PostRec → Option PostRec
  | [], _ => none
  | r :: rs, seen => if seen.any (samePlace r) then some r else dupPlace rs (r :: seen)

/-- The post tree's rules (R22, R23). -/
def postTreeErr (recs : List (Nat × FRec)) (ring : RingRec) : Option LoadErr :=
  let rs := recs.map (·.2)
  let ps := postRecs rs
  let bad (o : Option PostRec) : Option LoadErr := o.map (fun r => postErr recs r.id)
  let roots := ps.filter (fun r => r.parent = 0xFFFF)
  let parts := partRecs rs
  firstErr [
    bad (firstBad ps (nestOk ps ring.members)),
    bad (roots[1]?),
    bad (firstBad roots (fun r => if ring.members = 1 then r.kind = 2 else r.kind = 4)),
    bad (firstBad ps (fun r => depthOk ps 8 r.id)),
    bad (dupPlace ps []),
    bad (firstBad ps (fun r => r.kind ≠ 3 || decide (2 ≤ (chipsUnder ps r.id).length))),
    bad (firstBad ps (fun r => !(r.kind = 0 && bitAt ring.spares r.chip &&
      parts.any (fun p => postUnder ps p.root 9 r.id))))]

/-- A partition's root obeys R25, given the partitions before it. -/
def rootOk (ps : List PostRec) (before : List PartRec) (p : PartRec) : Bool :=
  match ps.find? (fun r => r.id = p.root) with
  | none => false
  | some r =>
    (if p.pooled then r.kind = 5 && r.chip = p.home else r.kind ≠ 5) &&
      before.all (fun q =>
        if q.root = p.root then p.pooled && q.pooled
        else !postUnder ps q.root 9 p.root && !postUnder ps p.root 9 q.root)

/-- The first partition whose root breaks R25. -/
def badRoot (ps : List PostRec) : List PartRec → List PartRec → Option PartRec
  | [], _ => none
  | p :: r, before => if rootOk ps before p then badRoot ps r (before ++ [p]) else some p

/-- HOME obeys R27. -/
def homeOk (ps : List PostRec) (ring : RingRec) (p : PartRec) : Bool :=
  match ps.find? (fun r => r.id = p.root) with
  | none => false
  | some r => if r.kind = 3 || r.kind = 4 then p.home = ring.master && !p.pooled else p.home = r.chip

/-- The index of a partition's record. -/
def partIx (recs : List (Nat × FRec)) (p : Nat) : Nat :=
  match recs.find? (fun e => e.2.type = 3 && leAt e.2.body 0 1 = p) with
  | some e => e.1
  | none => 0xFFFF

/-- The calender record obeys R28. -/
def calOk (rs : List FRec) (part chip : Nat) : Bool :=
  match (partRecs rs).find? (fun p => p.part = part) with
  | none => false
  | some p =>
    !p.pooled && p.prio = 7 && p.home = chip &&
      !(postRecs rs).any (fun r => r.id = p.root && (r.kind = 3 || r.kind = 4))

/-- The partition rules (R25, R27, R28). -/
def partsErr (recs : List (Nat × FRec)) (ring : RingRec) : Option LoadErr :=
  let rs := recs.map (·.2)
  let ps := postRecs rs
  let parts := partRecs rs
  firstErr [
    (badRoot ps parts []).map (fun p => furnErr 8 p.root (partIx recs p.part)),
    (firstBad parts (homeOk ps ring)).map (fun p => furnErr 0x0E p.part (partIx recs p.part)),
    (match recs.find? (fun e => e.2.type = 4) with
      | some e => if calOk rs (leAt e.2.body 0 1) (leAt e.2.body 1 1) then none
        else some (furnErr 0x19 (leAt e.2.body 0 1) e.1)
      | none => none)]

/-- The floors of chip `c` for resource `r` (R29): their sum. -/
def floorSum (rs : List FRec) (c r : Nat) : Nat :=
  (((recsOf rs 5).filter (fun b => leAt b.body 1 1 = c)).map (fun b => leAt b.body (2 + r) 1)).sum

/-- The floors' rule (R29). -/
def floorsErr (recs : List (Nat × FRec)) : Option LoadErr :=
  let rs := recs.map (·.2)
  (List.range 16).findSome? (fun c => (List.range 4).findSome? (fun r =>
    if 100 < floorSum rs c r then some (furnErr 0x0C (r * 256 + c)) else none))

/-- A region's index, base and end with its carve-out (R30, R363). -/
def regionSpan (b : List Byte) : Nat × Nat × Nat :=
  let g : Region := ⟨leAt b 1 1, leAt b 8 8, leAt b 16 8⟩
  (leAt b 0 1, g.base, g.base + g.size + g.carve)

/-- The region rules (R30), record by record. -/
def regionsErr (pos size : Nat) : List (Nat × FRec) → List FRec → Option LoadErr
  | [], _ => none
  | (ix, r) :: rest, before =>
    let (i, lo, hi) := regionSpan r.body
    if leAt r.body 2 1 = pos && decide (size < hi) then some (furnErr 0x0D (i * 256 + i) ix)
    else match before.find? (fun q =>
        let (_, lo', hi') := regionSpan q.body
        leAt q.body 2 1 = leAt r.body 2 1 && decide (lo < hi') && decide (lo' < hi)) with
      | some q => some (furnErr 0x0D (leAt q.body 0 1 * 256 + i) ix)
      | none => regionsErr pos size rest (before ++ [r])

/-- The claim rules (R43), record by record. -/
def claimsErr : List (Nat × FRec) → List FRec → Option LoadErr
  | [], _ => none
  | (ix, r) :: rest, before =>
    let res := leAt r.body 0 1
    let f := leAt r.body 1 1
    if !(featureRes f).contains res then some (furnErr 9 (f * 256) ix res)
    else match before.find? (fun q => leAt q.body 0 1 = res && leAt q.body 2 1 = leAt r.body 2 1 && leAt q.body 1 1 ≠ f) with
      | some q => some (furnErr 9 (leAt q.body 1 1 * 256 + f) ix res)
      | none => claimsErr rest (before ++ [r])

/-- A feature holds all of its resources on its chip (R43). -/
def claimWhole (rs : List FRec) (r : FRec) : Bool :=
  let f := leAt r.body 1 1
  f = gpioSw || (featureRes f).all (fun res =>
    rs.any (fun q => q.type = 7 && leAt q.body 0 1 = res && leAt q.body 1 1 = f && leAt q.body 2 1 = leAt r.body 2 1))

/-- Every cross-check of a set of records (R20, R22 to R30, R43). -/
def crossErr (pos dramSize : Nat) (recs : List (Nat × FRec)) : Option LoadErr :=
  let rs := recs.map (·.2)
  match ringRec rs with
  | none => some (furnErr 6 0xFFFF)
  | some ring =>
    firstErr [postTreeErr recs ring, partsErr recs ring, floorsErr recs,
      regionsErr pos dramSize (recs.filter (fun e => e.2.type = 6)) [],
      claimsErr (recs.filter (fun e => e.2.type = 7)) [],
      (recs.find? (fun e => e.2.type = 7 && !claimWhole rs e.2)).map
        (fun e => furnErr 0x0A (leAt e.2.body 1 1 * 256) e.1)]

/-- Steps 2 to 5 of R31 on a full furnish: the records in force, or why it fails. -/
def State.readFurnish (s : State) (bs : List Byte) (avail minGen : Nat) : Except LoadErr (List FRec) :=
  match furnHeaderErr bs avail false with
  | some e => .error e
  | none =>
    let bs := bs.take (furnLength bs)
    match furnMarkErr s.mgc.fuses bs with
    | some e => .error e
    | none =>
      if furnGen bs < minGen then .error (furnErr 5 0)
      else match walkRecs s.pins.gradeB false s.pos bs 32768 64 [] with
        | .error e => .error e
        | .ok recs =>
          let known := recs.filter (fun e => e.2.type < 0x8000)
          match crossErr s.pos s.dramSize known with
          | some e => .error e
          | none => .ok (known.map (·.2))

/-! ### The minimum generation (R31 step 4, R485) -/

/-- The copy with the highest GENERATION that satisfies a test. -/
def newestCopy (l : List Settings) (ok : Settings → Bool) : Option Settings :=
  (l.filter ok).foldl (fun b x => match b with
    | none => some x
    | some y => if y.gen < x.gen then some x else some y) none

/-- The newest SETTINGS record: WEAR_SECONDS and MIN_FURNISH_GEN. -/
def State.settingsRec (s : State) : Nat × Nat :=
  match s.mgc.log.find? (fun r => r.event = 10) with
  | some r => (r.value, r.value2)
  | none => (0, 0)

/-- WEAR_SECONDS and MIN_FURNISH_GEN in force (R485). -/
def State.settingsCore (s : State) : Nat × Nat :=
  let (w, g) := s.settingsRec
  match newestCopy s.mgc.settings (fun _ => true) with
  | some c => (max c.wear w, max c.minGen g)
  | none => (w, g)

/-! ### Settings in force -/

/-- The four limits and floors of a BUDGET record go to the activity's registers; the credits start at the limits. -/
def State.setBudget (s : State) (b : FRec) : State :=
  let a := leAt b.body 0 1
  let lim (k : Nat) : Nat := leAt b.body (8 + 4 * k) 4
  let floors := [(Field.SCH_SB_FLOOR_DRAM, 0), (.SCH_SB_FLOOR_L2, 1), (.SCH_SB_FLOOR_FELT, 2), (.SCH_SB_FLOOR_PIXELS, 3)]
  let s1 := floors.foldl (fun (s : State) x => s.wr x.1 (leAt b.body (2 + x.2) 1) a) s
  (List.range 4).foldl (fun (s : State) k =>
    (s.wr (budgetFields k).2 (lim k) a).wr (budgetFields k).1 (lim k) a) s1

/-- Every RWL field back at its reset value: what holds where no record says otherwise (R20). -/
def State.clearSettings (s : State) : State :=
  let s1 := (List.range 40).foldl (fun (s : State) a =>
    [Field.SCH_SB_LIMIT_DRAM, .SCH_SB_LIMIT_L2, .SCH_SB_LIMIT_FELT, .SCH_SB_LIMIT_PIXELS, .SCH_SB_CREDIT_DRAM,
      .SCH_SB_CREDIT_L2, .SCH_SB_CREDIT_FELT, .SCH_SB_CREDIT_PIXELS, .SCH_SB_FLOOR_DRAM, .SCH_SB_FLOOR_L2,
      .SCH_SB_FLOOR_FELT, .SCH_SB_FLOOR_PIXELS].foldl (fun (s : State) f => s.resetField f a) s) s
  let s2 := (List.range 16).foldl (fun (s : State) r =>
    ((s.resetField .MEM_REGION_CODE r).resetField .MEM_REGION_BASE r).resetField .MEM_REGION_SIZE r) s1
  (s2.resetField .PWR_CLASS_PEAK).resetField .PWR_CLASS_CLASS

/-- The RWL fields take the values of the records that name this chip (R20, R31 step 6). -/
def State.applySettings (s : State) (recs : List FRec) : State :=
  let mine (off : Nat) (r : FRec) : Bool := leAt r.body off 1 = s.pos
  let s1 := ((recsOf recs 5).filter (mine 1)).foldl State.setBudget s.clearSettings
  let s2 := ((recsOf recs 6).filter (mine 2)).foldl (fun (s : State) r =>
    let i := leAt r.body 0 1
    ((s.wr .MEM_REGION_CODE (leAt r.body 1 1) i).wrAddr .MEM_REGION_BASE (leAt r.body 8 8) i).wr .MEM_REGION_SIZE
      (leAt r.body 16 8) i) s1
  (((recsOf recs 8).filter (mine 0)).foldl (fun (s : State) r =>
    (s.wr .PWR_CLASS_CLASS (leAt r.body 1 1)).wr .PWR_CLASS_PEAK (leAt r.body 2 1)) s2).repoint

/-- The furnish's claims on this chip. -/
def furnClaims (recs : List FRec) (pos : Nat) : List (Nat × Claim) :=
  ((recsOf recs 7).filter (fun r => leAt r.body 2 1 = pos)).foldl
    (fun m r => storePut (leAt r.body 0 1) ⟨leAt r.body 1 1, 0xFE⟩ m) []

/-- The partitions that this chip has a part in: homed here, or with vats here (R27). -/
def State.partsHere (s : State) : List Nat :=
  (List.range 32).filter (fun p => s.homed p || s.localVats p ≠ [])

/-- The function states after a load (log entry 17): partitions, decode engines and the ring of a chip with other members
run, the heads that the CALENDER record names are stopped. -/
def State.initFuncs (s : State) : State :=
  let members := match ringRec s.furn.recs with
    | some r => r.members
    | none => 0
  let heads := match calRec s.furn.recs with
    | some (_, chip, h) => if chip = s.pos then h else 0
    | none => 0
  (List.range 39).foldl (fun (s : State) k =>
    let st := if k < 32 then (if s.partsHere.contains k then fnRunning else fnAbsent)
      else if k < 34 then (if bitAt heads (k - 32) then fnStopped else fnAbsent)
      else if k < 38 then fnRunning
      else if 1 < members then fnRunning else fnAbsent
    (s.setFunc k st).wr .GLB_FUNC_STATE_DRAINED 0 k) s

/-- The power state of the vats (R24, R448): those that a VAT post names are ON, the others OFF. -/
def State.initVats (s : State) : State :=
  (List.range 64).foldl (fun (s : State) n =>
    s.wr .PWR_DOM_STATE_STATE (if s.assignedVats.contains n then 0 else 3) n) s

/-- Steps 6 and 7 of R31: a furnish is in force and locked. -/
def State.installFurnish (s : State) (bs : List Byte) (recs : List FRec) (source : Nat) : State :=
  let s1 : State := { s with furn := { base := bs, recs := recs, claims := furnClaims recs s.pos } }
  let s2 := ((s1.applySettings recs).initFuncs).initVats
  let s3 := ((((s2.wr .GLB_FURNISH_STATUS_LOCKED 1).wr .GLB_FURNISH_STATUS_NULL 0).wr .GLB_FURNISH_STATUS_SOURCE
    source).wr .GLB_FURNISH_STATUS_DELTAS 0).wr .GLB_FURNISH_STATUS_RECORDS recs.length
  let s4 := s3.wr .GLB_FURNISH_STATUS_MASTER (match ringRec recs with
    | some r => r.master
    | none => 0)
  (((s4.wr .GLB_FURNISH_GEN_GENERATION (furnGen bs)).wr .GLB_LOAD_RESULT_STATUS 0).wr .GLB_LOAD_AUX_RESOURCE 0).wr
    .GLB_LOAD_AUX_RECORD 0xFFFF

/-- GLB_LOAD_RESULT and GLB_LOAD_AUX take a failure. -/
def State.loadFailed (s : State) (e : LoadErr) : State :=
  ((s.wr .GLB_LOAD_RESULT_STATUS e.status).wr .GLB_LOAD_AUX_RESOURCE e.resource).wr .GLB_LOAD_AUX_RECORD e.record

/-- The SHA-512 furnish measurement (R35): the base furnish followed by every applied delta. -/
def State.furnMeasure (s : State) : List Byte := sha512 (s.furn.base ++ s.furn.deltas.flatten)

/-- R428: the straps agree with the RING record. -/
def State.strapsOk (s : State) : Bool :=
  match ringRec s.furn.recs with
  | none => true
  | some r => (s.pins.straps.master == decide (s.pos = r.master)) && decide (s.pos < r.members)

/-- The strap check at a furnish load (R428): STRAP_ERR and a STRAP_MISMATCH record. -/
def State.strapCheck (s : State) : State :=
  if s.strapsOk then s.wr .FLT_STATUS_STRAP_ERR 0
  else (s.wr .FLT_STATUS_STRAP_ERR 1).raiseRing (stRing 6 s.pos)

end Sys2Proof.Machine
end

