-- ==== Sys2Proof/Machine/GeoDesc.lean ====
section
/-!
DEFINITION. The descriptors of a render pass and of a draw (R174 to R178): their fields, their checks, the attachment
formats, the classes of draws (R185), and the tile grid and order (R176, R190).
-/

namespace Sys2Proof.Machine

/-! ### The render-pass descriptor (R174) -/

/-- WIDTH. -/
def pdWidth (d : List Byte) : Nat := leAt d 0 2
/-- HEIGHT. -/
def pdHeight (d : List Byte) : Nat := leAt d 2 2
/-- SAMPLES. -/
def pdSamples (d : List Byte) : Nat := leAt d 4 1
/-- NCOLOR. -/
def pdColors (d : List Byte) : Nat := leAt d 5 1
/-- SPILL. -/
def pdSpill (d : List Byte) : Nat := leAt d 240 8
/-- GATE. -/
def pdGate (d : List Byte) : Nat := leAt d 248 8
/-- GATE_SCALE. -/
def pdScale (d : List Byte) : Nat := leAt d 256 1
/-- GATE_CAP. -/
def pdCap (d : List Byte) : Nat := leAt d 260 4
/-- The 32-byte record of attachment `i`; the DS record follows the four colour records. -/
def pdRec (d : List Byte) (i : Nat) : List Byte := slice d (8 + 32 * i) 32
/-- FMT of an attachment record. -/
def arFmt (r : List Byte) : Nat := leAt r 16 1
/-- The pass has a DS attachment. -/
def pdHasDs (d : List Byte) : Bool := arFmt (pdRec d 4) ≠ 0xFF
/-- The record numbers of the pass's attachments, colours first. -/
def pdAtts (d : List Byte) : List Nat := List.range (pdColors d) ++ (if pdHasDs d then [4] else [])
/-- FMT of the DS record, 0xFF for none. -/
def pdDsFmt (d : List Byte) : Nat := arFmt (pdRec d 4)
/-- The pass has a depth format (D32F or D24S8). -/
def pdHasDepth (d : List Byte) : Bool := pdDsFmt d = 5 || pdDsFmt d = 6
/-- The pass has a stencil format (D24S8 or S8). -/
def pdHasStencil (d : List Byte) : Bool := pdDsFmt d = 6 || pdDsFmt d = 7

/-- Bytes per sample of a format (R175). -/
def attBytes (f : Nat) : Nat := if f = 7 then 1 else 4

/-- Tiles across and down (R176). -/
def pdGrid (d : List Byte) : Nat × Nat := ((pdWidth d + 31) / 32, (pdHeight d + 31) / 32)
/-- Tiles of the pass. -/
def pdTiles (d : List Byte) : Nat := (pdGrid d).1 * (pdGrid d).2

/-- The tile footprint F (R176). -/
def pdFoot (d : List Byte) : Nat :=
  roundUp (1024 * pdSamples d * ((pdAtts d).map (fun i => attBytes (arFmt (pdRec d i)))).sum +
    (if pdGate d = 0 then 0 else 256)) 256

/-- An attachment record obeys R174 and R175. -/
def recOk (d : List Byte) (i : Nat) : Bool :=
  let r := pdRec d i
  let f := arFmt r
  let n := attBytes f
  let fmtOk := if i < 4 then decide (f ≤ 4) else decide (5 ≤ f) && decide (f ≤ 7)
  let stride := leAt r 8 4
  fmtOk && leAt r 0 8 % n = 0 && stride % n = 0 && decide (pdWidth d * n ≤ stride) &&
    (if 1 < pdSamples d then decide (pdHeight d * stride ≤ leAt r 12 4) else leAt r 12 4 = 0) &&
    decide (leAt r 17 1 ≤ 2) && decide (leAt r 18 1 ≤ 1) && leAt r 19 1 = 0

/-- The attachments and their counts obey R174 and R175. -/
def attsOk (d : List Byte) : Bool :=
  [1, 2, 4].contains (pdSamples d) && decide (pdColors d ≤ 4) && (List.range (pdColors d)).all (recOk d) &&
    ((List.range 4).filter (fun i => decide (pdColors d ≤ i))).all (fun i => leAt (pdRec d i) 0 32 = 0) &&
    (!pdHasDs d || recOk d 4)

/-- The lowest reason of R207 that a render-pass descriptor gives: `tileMem` is what the partition's split gives a vat,
`chipOk` says whether the partition has a vat on the chip that it names. -/
def passRefusal (d : List Byte) (tileMem : Nat) (chipOk : Bool) : Option Nat :=
  firstTrue [
    (2, pdWidth d = 0 || decide (4096 < pdWidth d) || pdHeight d = 0 || decide (4096 < pdHeight d)),
    (3, !attsOk d),
    (4, decide (tileMem < pdFoot d)),
    (5, pdSpill d = 0 || pdSpill d % 4096 ≠ 0),
    (6, pdGate d % 256 ≠ 0 || decide (2 < pdScale d) ||
      (pdGate d ≠ 0 && (pdCap d = 0 || decide (0x100000 < pdCap d)))),
    (7, decide (1 < leAt d 6 1) || leAt d 237 3 ≠ 0 || leAt d 257 3 ≠ 0 || leAt d 272 48 ≠ 0),
    (12, !chipOk)]
where
  /-- The first number of a list whose test holds. -/
  firstTrue (l : List (Nat × Bool)) : Option Nat := (l.find? (fun (x : Nat × Bool) => x.2)).map (fun x => x.1)

/-! ### The draw-state descriptor (R178) -/

/-- VLAUNCH. -/
def dsVlaunch (d : List Byte) : Nat := leAt d 0 8
/-- FLAUNCH. -/
def dsFlaunch (d : List Byte) : Nat := leAt d 8 8
/-- TOPO. -/
def dsTopo (d : List Byte) : Nat := leAt d 16 1
/-- VARY. -/
def dsVary (d : List Byte) : Nat := leAt d 17 1
/-- CULL. -/
def dsCull (d : List Byte) : Nat := leAt d 18 1
/-- FRONT. -/
def dsFront (d : List Byte) : Nat := leAt d 19 1
/-- COUNT. -/
def dsCount (d : List Byte) : Nat := leAt d 20 4
/-- INDEX. -/
def dsIndex (d : List Byte) : Nat := leAt d 24 8
/-- ISIZE in bytes. -/
def dsIsize (d : List Byte) : Nat := if leAt d 32 1 = 0 then 2 else 4
/-- DEPTH function. -/
def dsDepthFn (d : List Byte) : Nat := leAt d 33 1 % 8
/-- DEPTH test, with a depth format. -/
def dsDepthTest (pd d : List Byte) : Bool := pdHasDepth pd && bitAt (leAt d 33 1) 3
/-- DEPTH write, with a depth format. -/
def dsDepthWrite (pd d : List Byte) : Bool := pdHasDepth pd && bitAt (leAt d 33 1) 4
/-- STFUNC function. -/
def dsStFn (d : List Byte) : Nat := leAt d 34 1 % 8
/-- STFUNC test, with a stencil format. -/
def dsStTest (pd d : List Byte) : Bool := pdHasStencil pd && bitAt (leAt d 34 1) 3
/-- STREF. -/
def dsStRef (d : List Byte) : Nat := leAt d 35 1
/-- STMASK. -/
def dsStMask (d : List Byte) : Nat := leAt d 36 1
/-- STWMASK. -/
def dsStWmask (d : List Byte) : Nat := leAt d 37 1
/-- STOPS: 0 on stencil fail, 1 on depth fail, 2 on pass. -/
def dsStOp (d : List Byte) (k : Nat) : Nat := bits (leAt d 38 2) (3 * k + 2) (3 * k)
/-- The four bytes of BLEND of attachment `i`. -/
def dsBlend (d : List Byte) (i k : Nat) : Nat := leAt d (40 + 4 * i + k) 1
/-- BLEND enable of attachment `i`. -/
def dsBlends (d : List Byte) (i : Nat) : Bool := bitAt (dsBlend d i 0) 7
/-- GATECLS. -/
def dsGateCls (d : List Byte) : Nat := leAt d 56 1
/-- FLAGS: DISCARD. -/
def dsDiscard (d : List Byte) : Bool := bitAt (leAt d 57 1) 0
/-- FLAGS: DEPTH_OUT. -/
def dsDepthOut (d : List Byte) : Bool := bitAt (leAt d 57 1) 1
/-- SCISSOR: x0, y0, x1, y1. -/
def dsScissor (d : List Byte) (k : Nat) : Nat := leAt d (60 + 2 * k) 2

/-- The BLEND bytes of one attachment are in range. -/
def blendOk (d : List Byte) (i : Nat) : Bool :=
  let f (x : Nat) : Bool := decide (x % 16 ≤ 9) && decide (x / 16 ≤ 9)
  decide (dsBlend d i 0 % 128 ≤ 4) && f (dsBlend d i 1) && f (dsBlend d i 2) && decide (dsBlend d i 3 < 16)

/-- A draw-state descriptor obeys R178. -/
def drawOk (d : List Byte) : Bool :=
  decide (dsTopo d ≤ 6) && decide (dsVary d ≤ 16) && decide (dsCull d ≤ 2) && decide (dsFront d ≤ 1) &&
    decide (dsCount d ≤ 0x03000000) && decide (leAt d 32 1 ≤ 1) && decide (leAt d 33 1 < 32) &&
    decide (leAt d 34 1 < 16) && decide (leAt d 38 2 < 512) && (List.range 4).all (blendOk d) &&
    decide (dsGateCls d < 4) && decide (leAt d 57 1 < 4) && leAt d 58 2 = 0 && leAt d 68 60 = 0

/-- The class of a draw (R185): 0 OPAQUE, 1 LATE, 2 BLEND. -/
def drawClass (pd d : List Byte) : Nat :=
  let cols := List.range (pdColors pd)
  if cols.any (dsBlends d) then 2
  else if dsDiscard d || dsDepthOut d || !dsDepthTest pd d || !dsDepthWrite pd d || dsDepthFn d = 2 || dsDepthFn d = 5 ||
      dsStTest pd d || (List.range 3).any (fun k => dsStOp d k ≠ 0) || cols.any (fun i => dsBlend d i 3 ≠ 15) ||
      dsFlaunch d = 0 then 1
  else 0

/-! ### Assembly (R180) -/

/-- Primitives that a topology forms of `n` vertices. -/
def primCount (topo n : Nat) : Nat :=
  match topo with
  | 0 => n
  | 1 => n / 2
  | 2 => n - 1
  | 3 => n / 3
  | 4 => n - 2
  | 5 => n - 2
  | _ => n / 2

/-- The vertex numbers of primitive `k`: the winding of odd triangles of a strip alternates, vertex 0 stays first. -/
def primVerts (topo k : Nat) : List Nat :=
  match topo with
  | 0 => [k]
  | 1 => [2 * k, 2 * k + 1]
  | 2 => [k, k + 1]
  | 3 => [3 * k, 3 * k + 1, 3 * k + 2]
  | 4 => if k % 2 = 0 then [k, k + 1, k + 2] else [k, k + 2, k + 1]
  | 5 => [0, k + 1, k + 2]
  | _ => [2 * k, 2 * k + 1]

/-- The kind of a topology's primitives: 0 point, 1 line, 2 triangle, 3 quad. -/
def primKind (topo : Nat) : Nat := if topo = 0 then 0 else if topo ≤ 2 then 1 else if topo ≤ 5 then 2 else 3

/-! ### Tile order (R190) -/

/-- The tiles of a grid in the square of side 2^k at (x, y), by the interleaved bits of tx (even) and ty (odd). -/
def mortonTiles (gx gy : Nat) : Nat → Nat → Nat → List Nat
  | 0, x, y => if x < gx && y < gy then [y * gx + x] else []
  | k + 1, x, y =>
    if gx ≤ x || gy ≤ y then []
    else mortonTiles gx gy k x y ++ mortonTiles gx gy k (x + 2 ^ k) y ++ mortonTiles gx gy k x (y + 2 ^ k) ++
      mortonTiles gx gy k (x + 2 ^ k) (y + 2 ^ k)

/-- The tiles of a pass in its ORDER. -/
def tileOrder (d : List Byte) : List Nat :=
  let (gx, gy) := pdGrid d
  if leAt d 6 1 = 0 then List.range (pdTiles d) else mortonTiles gx gy 8 0 0

end Sys2Proof.Machine
end

