-- ==== Sys2Proof/Machine/Xlate.lean ====
section
/-!
DEFINITION. Address translation (R329 to R338), migration faults (R344), and accesses by virtual address to local DRAM,
to other chips (R336) and to host memory (R338). An access that has to wait (for migration, a page-table entry of
another chip, or data from outside the chip) answers `stall`: nothing else happens, and the command that asked is sent
again when the wait is over.
-/

namespace Sys2Proof.Machine

/-- Why an access does not complete: it waits, or the partition is torn down with a status (source 2 translation,
3 uncorrectable DRAM read or unreachable chip; R317) at a virtual address. -/
inductive Fail
  | stall
  | fault (source status va : Nat)
deriving DecidableEq, Repr

/-- The R, W, X bits of a needed right (R345). -/
def rightR : Nat := 1
/-- Write. -/
def rightW : Nat := 2
/-- Instruction fetch. -/
def rightX : Nat := 4

/-- What one walk gives. -/
inductive WalkOut
  | ok (x : Xlat)
  | migrate (level va : Nat)
  | err (reason detail : Nat)
  | bad (pa : Nat)
  | remote (addr : Nat)
deriving DecidableEq, Repr

/-- The bytes that an entry of level `l` maps. -/
def levelSize (l : Nat) : Nat := 2 ^ (12 + 9 * (l - 1))

/-- The address check of a local table or page (R337): 0 beyond installed DRAM, 1 carve-out. -/
def State.paBad (s : State) (pa : Nat) : Option Nat :=
  if pa / 2 ^ 44 % 16 ≠ s.pos then none
  else if s.dramSize ≤ pa % 2 ^ 44 then some 0
  else if s.inCarve (pa % 2 ^ 44) then some 1
  else none

/-- The check of an entry (R331), for level l (4 to 1): an outcome, or the entry is a table or a leaf that goes on. -/
def checkEntry (s : State) (l va e : Nat) : Option WalkOut :=
  if !bitAt e 0 then
    some (if bitAt e 7 then .migrate l (va / levelSize l * levelSize l) else .err 1 l)
  else if bits e 11 10 ≠ 0 || (bitAt e 9 && l ≠ 2) || (bitAt e 8 && l ≠ 1) || bits e 5 4 = 3 then some (.err 3 l)
  else
    let table := decide (2 < l) || (l = 2 && !bitAt e 9)
    if table && bitAt e 6 then some (.err 3 l)
    else if l = 2 && bitAt e 9 && bits e 20 12 ≠ 0 then some (.err 3 l)
    else if !bitAt e 6 && bits e 51 48 ≠ 0 then some (.err 4 2)
    else if table then
      (s.paBad (bits e 51 12 * 4096)).map (fun d => .err 4 d)
    else none

/-- The translation of a page from its leaf entry (R330, R334: its own entry is used for a HINT64 group). -/
def leafXlat (l va e : Nat) : Xlat :=
  ⟨bits e 51 12 + (if l = 2 then bits va 20 12 else 0), bitAt e 1, bitAt e 2, bitAt e 3, bitAt e 6, bits e 5 4⟩

/-- An 8-byte table entry, read through the L2 of the chip that holds it (R335). -/
def State.readEntry (s : State) (who : Asker) (pa : Nat) : State × Sum Nat WalkOut :=
  if pa / 2 ^ 44 % 16 = s.pos then
    match s.l2Read who .wb (pa % 2 ^ 44) 8 with
    | (s1, some bs) => (s1, .inl (ofLe bs))
    | (s1, none) => (s1, .inr (.bad pa))
  else
    match storeFind s.xlt.walked pa with
    | some v => (s, .inl v)
    | none => (s, .inr (.remote pa))

/-- The walk from level `l` of the table at `tbl` (R329, R331). -/
def State.walkFrom (s : State) (who : Asker) : Nat → Nat → Nat → State × WalkOut
  | 0, _, _ => (s, .err 1 1)
  | l + 1, tbl, va =>
    let idx := va / 2 ^ (12 + 9 * l) % 512
    match s.readEntry who (tbl + 8 * idx) with
    | (s1, .inr o) => (s1, o)
    | (s1, .inl e) =>
      match checkEntry s1 (l + 1) va e with
      | some o => (s1, o)
      | none =>
        if l = 0 || (l = 1 && bitAt e 9) then (s1, .ok (leafXlat (l + 1) va e))
        else s1.walkFrom who l (bits e 51 12 * 4096) va

/-- The walk of a virtual address of partition p (R329, R332). -/
def State.walk (s : State) (who : Asker) (p va : Nat) : State × WalkOut :=
  if 2 ^ 48 ≤ va then (s, .err 1 0)
  else if s.rd .XLT_ROOT_EN p = 0 then (s, .err 7 0)
  else
    let root := s.addrOf .XLT_ROOT_ADDR p
    match s.paBad root with
    | some d => (s, .err 4 d)
    | none => s.walkFrom who 4 root va

/-- The key of a cached translation. -/
def tlbKey (p va : Nat) : Nat := p * 2 ^ 36 + va / 4096

/-- A walk against the cached translation: while they differ, either may be used until an invalidation (R348). -/
def State.lookup (s : State) (who : Asker) (p va : Nat) : State × WalkOut :=
  if 2 ^ 48 ≤ va then (s, .err 1 0)
  else match storeFind s.xlt.tlb (tlbKey p va), s.walk who p va with
  | none, (s1, .ok x) => ({ s1 with xlt := { s1.xlt with tlb := storePut (tlbKey p va) x s1.xlt.tlb } }, .ok x)
  | none, r => r
  | some x, (s1, .ok y) =>
    if x = y then (s1, .ok x)
    else
      let (n, s2) := s1.takeFree
      (s2, .ok (if Config.useOldTranslation n then x else y))
  | some x, (s1, o) =>
    let (n, s2) := s1.takeFree
    if Config.useOldTranslation n then (s2, .ok x) else (s2, o)

/-- The rights that a translation lacks (R332). -/
def missing (x : Xlat) (rights : Nat) : Nat :=
  (if bitAt rights 0 && !x.r then 1 else 0) + (if bitAt rights 1 && !x.w then 2 else 0) +
    (if bitAt rights 2 && !x.x then 4 else 0)

/-- Partition p's migration entry for a range, if one is in use (R344). -/
def State.migEntry (s : State) (p va level : Nat) : Option Nat :=
  (List.range 64).find? (fun e => s.rd .XLT_MIG_USED e = 1 && s.rd .XLT_MIG_PART e = p &&
    s.rd .XLT_MIG_LEVEL e = level && s.addrOf .XLT_MIG_VPAGE e = va)

/-- The chip whose work waits: another chip's request, or this chip's own work. -/
def State.chipOf (s : State) : Owner → Nat
  | .remote src _ => src
  | _ => s.pos

/-- Take migration entry `e` for work of a chip and post the MIGRATE record (R344, R345). -/
def State.takeEntry (s : State) (chip e p va level rights kind : Nat) : State :=
  let s1 := ((((s.wr .XLT_MIG_USED 1 e).wr .XLT_MIG_PART p e).wr .XLT_MIG_LEVEL level e).wr
    .XLT_MIG_RIGHTS rights e).wrAddr .XLT_MIG_VPAGE va e
  let s2 := (s1.wr .XLT_MIG_AGE 0 e).count .XLT_COUNTS_MIGRATIONS 1 p
  let det := kind * 2 ^ 28 + chip * 2 ^ 24 + level * 256 + e
  s2.raisePart p { kind := 0x0D, src := p, status := stXlt 6 kind e, detail := det, p0 := va, p1 := rights }

/-- A migration fault of a tile (R344): it joins an entry, takes the lowest free one, or waits without one. -/
def State.migFault (s : State) (who : Owner) (p va level rights kind : Nat) : State :=
  if s.xlt.waits.any (fun w => w.who = who && w.p = p && w.va = va) then s
  else
    let (id, s0) := s.takeId
    let add (s : State) (e : Option Nat) : State :=
      { s with xlt := { s.xlt with waits := s.xlt.waits ++ [⟨id, p, va, rights, kind, e, who⟩] } }
    if !s.homed p then
      match s.part p with
      | some r => add (s0.feltReq r.home 5 p (evRecord 0x0D 0 p 0 (stXlt 6 kind 0)
          (kind * 2 ^ 28 + s.pos * 2 ^ 24 + level * 256) va rights) who) none
      | none => s
    else match s.migEntry p va level with
      | some e => add s0 (some e)
      | none =>
        match (List.range 64).find? (fun e => s.rd .XLT_MIG_USED e = 0) with
        | some e => add (s0.takeEntry (s0.chipOf who) e p va level rights kind) (some e)
        | none => add s0 none

/-- The tag of a walk's read of a page-table entry on another chip. -/
def walkTag : Nat := 2 ^ 59

/-- Send a read of `n` bytes at a physical address of another chip, unless it is outstanding (R336, R425); `key` is the
address under which its data are kept. -/
def State.readAway (s : State) (who : Owner) (p key addr n va : Nat) : State :=
  if s.ring.reqs.any (fun r => r.owner = who && r.addr = key) then s
  else
    let dst := addr / 2 ^ 44 % 16
    let tag := s.ring.tagNext
    let m := feltMsg 1 s.pos dst tag p (toLe 8 addr ++ toLe 4 n)
    let r : Req := ⟨tag, 0, some dst, p, key, n, m, who, va⟩
    ({ s with ring := { s.ring with reqs := s.ring.reqs ++ [r], tagNext := (tag + 1) % 65536 } }).feltSend dst m

/-- Send a read of an access. -/
def State.readRemote (s : State) (who : Owner) (p addr n va : Nat) : State := s.readAway who p addr addr n va

/-- Send the read of a page-table entry (R335). -/
def State.readWalk (s : State) (who : Owner) (p addr va : Nat) : State := s.readAway who p (walkTag + addr) addr 8 va

/-- The 128-byte lines of a range: (address, bytes), each within one line (R422). -/
def linesOf : Nat → Nat → Nat → List (Nat × Nat)
  | 0, _, _ => []
  | fuel + 1, a, n =>
    if n = 0 then []
    else
      let k := min n (128 - a % 128)
      (a, k) :: linesOf fuel (a + k) (n - k)

/-- The position is live in the installed membership, or a request to it ends at once (R434, R435). -/
def State.reachable (s : State) (dst : Nat) : Bool :=
  bitAt (s.rd .FLT_MEMBERS_LIVE) dst && s.rd .FLT_STATUS_ORPHAN = 0

/-- Translate one page for a tile, with the rights it needs (R340); while a stuff box holds the asker's activity the
tile waits (R327). -/
def State.translate (s : State) (asker : Asker) (who : Owner) (p va rights : Nat) : State × Except Fail Xlat :=
  if !s.admitsMem asker then (s, .error .stall)
  else match s.lookup asker p va with
  | (s1, .ok x) =>
    let m := missing x rights
    if m ≠ 0 then (s1, .error (.fault 2 (stXlt 2 asker.kind m) (va / 4096 * 4096)))
    else if x.loc then (s1, .ok x)
    else match s1.paBad (x.pfn * 4096 + va % 4096) with
      | some d => (s1, .error (.fault 2 (stXlt 4 asker.kind d) (va / 4096 * 4096)))
      | none => (s1, .ok x)
  | (s1, .migrate l a) => (s1.migFault who p a l rights asker.kind, .error .stall)
  | (s1, .err r d) => (s1, .error (.fault 2 (stXlt r asker.kind d) (va / 4096 * 4096)))
  | (s1, .bad pa) => (s1, .error (.fault 3 (stMem 1 (s1.memDetail pa)) va))
  | (s1, .remote a) =>
    if s1.reachable (a / 2 ^ 44 % 16) then (s1.readWalk who p a va, .error .stall)
    else (s1, .error (.fault 3 (stUnreachable (a / 2 ^ 44 % 16)) va))

/-- Translate `n` pages from page `pg` in ascending order; the first failure decides (R340). -/
def State.translatePages (s : State) (asker : Asker) (who : Owner) (p rights : Nat) : Nat → Nat →
    State × Except Fail (List Xlat)
  | 0, _ => (s, .ok [])
  | n + 1, pg =>
    match s.translate asker who p (pg * 4096) rights with
    | (s1, .error f) => (s1, .error f)
    | (s1, .ok x) =>
      match s1.translatePages asker who p rights n (pg + 1) with
      | (s2, .error f) => (s2, .error f)
      | (s2, .ok xs) => (s2, .ok (x :: xs))

/-- The pages that a range touches. -/
def pagesOf (va n : Nat) : Nat := if n = 0 then 0 else (va % 4096 + n + 4095) / 4096

/-- Translate the footprint [va, va + n) (R339, R340). -/
def State.footprint (s : State) (asker : Asker) (who : Owner) (p va n rights : Nat) : State × Except Fail (List Xlat) :=
  s.translatePages asker who p rights (pagesOf va n) (va / 4096)

/-- Translate a list of ranges (address, bytes, rights), in ascending order as given. -/
def State.footprints (s : State) (asker : Asker) (who : Owner) (p : Nat) : List (Nat × Nat × Nat) → State × Except Fail Unit
  | [] => (s, .ok ())
  | (va, n, r) :: rest =>
    match s.footprint asker who p va n r with
    | (s1, .error f) => (s1, .error f)
    | (s1, .ok _) => s1.footprints asker who p rest

/-- Prefetch the translations of a range (R342, R343): a page that translates is cached, a failure counts as dropped,
and nothing else happens. -/
def State.prefetchRange (s : State) (asker : Asker) (p va n : Nat) : State :=
  (List.range (pagesOf va n)).foldl (fun s i =>
    match s.walk asker p ((va / 4096 + i) * 4096) with
    | (s1, .ok x) => { s1 with xlt := { s1.xlt with tlb := storePut (tlbKey p ((va / 4096 + i) * 4096)) x s1.xlt.tlb } }
    | _ => s.count .XLT_COUNTS_PREFETCH_DROPPED 1 p) s

/-- The tag of a host address among fetched data. -/
def hostTag : Nat := 2 ^ 60

/-- Bytes that a completion has brought for this work; taken out. -/
def State.takeFetched (s : State) (who : Owner) (addr n : Nat) : Option (List Byte × State) :=
  match s.xlt.fetched.find? (fun f => f.owner = who && f.addr = addr && f.bytes.length = n) with
  | none => none
  | some f => some (f.bytes, { s with xlt := { s.xlt with fetched := s.xlt.fetched.filter (fun g => g ≠ f) } })

/-- Send a host-memory read unless it is outstanding (R228). -/
def State.readHost (s : State) (who : Owner) (p addr n va : Nat) : State :=
  if s.pcie.reqs.any (fun r => r.owner = who && r.addr = addr) then s
  else
    let (id, s1) := s.takeId
    { s1 with pcie := { s1.pcie with reqs := s1.pcie.reqs ++ [⟨id, s.fnOf p, none, p, addr, n, [], who, va⟩] } }

/-- The end of host-memory work that cannot be sent or completes in error (R229): as an uncorrectable read, with no
region of its own. -/
def stHostError : Nat := stMem 1 0

/-- Read `n` bytes of one page through its translation. -/
def State.readPage (s : State) (asker : Asker) (who : Owner) (p : Nat) (x : Xlat) (va n : Nat) :
    State × Except Fail (List Byte) :=
  let a := x.pfn * 4096 + va % 4096
  if x.loc then
    match s.takeFetched who (hostTag + a) n with
    | some (bs, s1) => (s1, .ok bs)
    | none =>
      if (s.fnCfg (s.fnOf p)).sends then (s.readHost who p (hostTag + a) n va, .error .stall)
      else (s, .error (.fault 3 stHostError va))
  else if a / 2 ^ 44 % 16 = s.pos then
    match s.l2Read asker (policyOf x.cache) (a % 2 ^ 44) n with
    | (s1, some bs) => (s1, .ok bs)
    | (s1, none) => (s1, .error (.fault 3 (stMem 1 (s1.memDetail (a % 2 ^ 44))) va))
  else
    let ls := linesOf (n / 128 + 2) a n
    if ls.all (fun l => (s.takeFetched who l.1 l.2).isSome) then
      let (s1, bs) := ls.foldl (fun (acc : State × List Byte) l =>
        match acc.1.takeFetched who l.1 l.2 with
        | some (b, s2) => (s2, acc.2 ++ b)
        | none => acc) (s, [])
      (s1, .ok bs)
    else if s.reachable (a / 2 ^ 44 % 16) then
      (ls.foldl (fun s l => if (s.takeFetched who l.1 l.2).isSome then s else s.readRemote who p l.1 l.2 (va + (l.1 - a))) s,
        .error .stall)
    else (s, .error (.fault 3 (stUnreachable (a / 2 ^ 44 % 16)) va))

/-- Write bytes of one page through its translation. -/
def State.writePage (s : State) (asker : Asker) (who : Owner) (p : Nat) (x : Xlat) (va : Nat) (bs : List Byte) :
    State × Except Fail Unit :=
  let a := x.pfn * 4096 + va % 4096
  if x.loc then
    if (s.fnCfg (s.fnOf p)).sends then (s.hostWrite a bs, .ok ())
    else (s, .error (.fault 3 stHostError va))
  else if a / 2 ^ 44 % 16 = s.pos then
    match s.l2Write asker (policyOf x.cache) (a % 2 ^ 44) bs with
    | (s1, true) => (s1, .ok ())
    | (s1, false) => (s1, .error (.fault 3 (stMem 1 (s1.memDetail (a % 2 ^ 44))) va))
  else if s.reachable (a / 2 ^ 44 % 16) then
    ((linesOf (bs.length / 128 + 2) a bs.length).foldl (fun s l =>
      s.feltReq (a / 2 ^ 44 % 16) 2 p (toLe 8 l.1 ++ toLe 4 l.2 ++ (bs.drop (l.1 - a)).take l.2)
        (match who with | .quire v q => .store v q | w => w) (va + (l.1 - a))) s, .ok ())
  else (s, .error (.fault 3 (stUnreachable (a / 2 ^ 44 % 16)) va))

/-- The bytes of a range that lie in its first page. -/
def pageRun (va n : Nat) : Nat := min n (4096 - va % 4096)

/-- Read a range by virtual address, page by page; `fuel` bounds the pages. -/
def State.vReadFrom (s : State) (asker : Asker) (who : Owner) (p : Nat) : Nat → Nat → Nat →
    State × Except Fail (List Byte)
  | 0, _, _ => (s, .ok [])
  | fuel + 1, va, n =>
    if n = 0 then (s, .ok [])
    else
      match s.translate asker who p va rightR with
      | (s1, .error f) => (s1, .error f)
      | (s1, .ok x) =>
        let k := pageRun va n
        match s1.readPage asker who p x va k with
        | (s2, .error f) => (s2, .error f)
        | (s2, .ok bs) =>
          match s2.vReadFrom asker who p fuel (va + k) (n - k) with
          | (s3, .error f) => (s3, .error f)
          | (s3, .ok rest) => (s3, .ok (bs ++ rest))

/-- Read `n` bytes at a virtual address of partition p: the whole footprint is translated first (R340). A
read that has to wait keeps what completions brought. -/
def State.vRead (s : State) (asker : Asker) (who : Owner) (p va n : Nat) : State × Except Fail (List Byte) :=
  match s.footprint asker who p va n rightR with
  | (s1, .error f) => (s1, .error f)
  | (s1, .ok _) =>
    match s1.vReadFrom asker who p (pagesOf va n) va n with
    | (s2, .error .stall) => ({ s2 with xlt := { s2.xlt with fetched := s.xlt.fetched } }, .error .stall)
    | r => r

/-- Write a range by virtual address, page by page. -/
def State.vWriteFrom (s : State) (asker : Asker) (who : Owner) (p : Nat) : Nat → Nat → List Byte →
    State × Except Fail Unit
  | 0, _, _ => (s, .ok ())
  | fuel + 1, va, bs =>
    if bs.isEmpty then (s, .ok ())
    else
      match s.translate asker who p va rightW with
      | (s1, .error f) => (s1, .error f)
      | (s1, .ok x) =>
        let k := pageRun va bs.length
        match s1.writePage asker who p x va (bs.take k) with
        | (s2, .error f) => (s2, .error f)
        | (s2, .ok _) => s2.vWriteFrom asker who p fuel (va + k) (bs.drop k)

/-- Write bytes at a virtual address of partition p: the whole footprint is translated first (R340). -/
def State.vWrite (s : State) (asker : Asker) (who : Owner) (p va : Nat) (bs : List Byte) : State × Except Fail Unit :=
  match s.footprint asker who p va bs.length rightW with
  | (s1, .error f) => (s1, .error f)
  | (s1, .ok _) => s1.vWriteFrom asker who p (pagesOf va bs.length) va bs

/-- The bytes that a virtual range of partition p holds when every page is local, mapped and readable: how a statement
reads memory through the tables. -/
def State.vBytes (s : State) (p va n : Nat) : Option (List Byte) :=
  match (s.vRead ⟨.unit, 0, p⟩ (.post p) p va n).2 with
  | .ok bs => some bs
  | .error _ => none

end Sys2Proof.Machine
end

