-- ==== Sys2Proof/Machine/Sync.lean ====
section
/-!
DEFINITION. Sync objects, waits and their notices, locks and barriers (R276 to R284), pending-release records and the
release of objects (R269 to R271). The command-level effects are in Objects.lean; vat instructions use these operations.
-/

namespace Sys2Proof.Machine

/-- Sync object types (SYN_OBJ.TYPE): 1 FENCE, 2 LOCK, 3 BARRIER, 4 COUNTER. -/
def State.objType (s : State) (h : Nat) : Nat := s.rd .SYN_OBJ_TYPE h
/-- LIVE 0, ABORTED 1, ABANDONED 2, DESTROYING 3. -/
def State.objState (s : State) (h : Nat) : Nat := s.rd .SYN_OBJ_STATE h
/-- The object's VALUE. -/
def State.objValue (s : State) (h : Nat) : Nat := s.rd .SYN_OBJ_VALUE h

/-- Partition p owns object h, which is neither FREE nor DESTROYING. -/
def State.owns (s : State) (p h : Nat) : Bool :=
  decide (h < 16384) && s.objType h ≠ 0 && s.objState h ≠ 3 && s.rd .SYN_OBJ_OWNER h = p

/-- Partition p owns object h or holds it by EXPORT (R277). -/
def State.holds (s : State) (p h : Nat) : Bool :=
  decide (h < 16384) && s.objType h ≠ 0 && s.objState h ≠ 3 &&
    (s.rd .SYN_OBJ_OWNER h = p || bitAt (s.rd .SYN_OBJ_EXPORT h) p)

/-- The status of a terminal state (R284, R291), if the object is in one. -/
def State.terminal (s : State) (h : Nat) : Option Nat :=
  if s.objType h = 0 || s.objState h = 3 then some (stObjectDestroyed h)
  else if s.objState h = 1 then some (stQueueDestroyed (s.rd .SYN_OBJ_OWNER h) (s.rd .SYN_OBJ_QUEUE h))
  else if s.objState h = 2 then some (stAbandoned (s.rd .SYN_OBJ_OWNER h))
  else none

/-- The state with the waits replaced. -/
def State.setWaits (s : State) (l : List Wait) : State := { s with sync := { s.sync with waits := l } }

/-- Give every registered wait on object h that has no notice yet the notice that `f` names (R283). -/
def State.notify (s : State) (h : Nat) (f : Wait → Option Nat) : State :=
  s.setWaits (s.sync.waits.map (fun w =>
    if w.obj = h && w.registered && w.notice.isNone then { w with notice := f w } else w))

/-- Evaluate every wait on h against its VALUE (R280, R283). -/
def State.evalWaits (s : State) (h : Nat) : State :=
  s.notify h (fun w => if w.threshold ≤ s.objValue h then some stOk else none)

/-- A tile of partition p is in flight on the vat (R190). -/
def State.hasTile (s : State) (vat p : Nat) : Bool :=
  s.geo.passes.any (fun x => x.p = p && x.inflight.any (fun t => t.vat = some vat))

/-- A tile is in flight on the vat. -/
def State.anyTile (s : State) (vat : Nat) : Bool :=
  s.geo.passes.any (fun x => x.inflight.any (fun t => t.vat = some vat))

/-- Vats chosen for lending that hold no block are lent (R323). -/
def State.lendChosen (s : State) : State :=
  let free := s.sched.chosen.filter (fun n => (s.vat n).blocks.isEmpty && !s.anyTile n)
  free.foldl (fun (s : State) n => s.setVat n { s.vat n with lent := true, holder := none })
    { s with sched := { s.sched with chosen := s.sched.chosen.filter (fun n => !free.contains n) } }

/-- Lent vats on which no block of the calender partition is resident return to the pool when no deadline request is in
force (R324). -/
def State.returnLent (s : State) : State :=
  if s.cal.lead ≠ [] then s.lendChosen
  else
    { s with
      sched := { s.sched with chosen := [] }
      vats := s.vats.map (fun e =>
        if e.2.lent && !e.2.blocks.any (fun b => match storeFind s.launches b.2.launch with
            | some l => some l.p = s.calPart
            | none => false)
        then (e.1, { e.2 with lent := false }) else e) }

/-- A head's deadline request ends (R324). -/
def State.endLead (s : State) (head : Nat) : State :=
  if s.cal.lead.contains head then
    ({ s with cal := { s.cal with lead := s.cal.lead.filter (fun x => x ≠ head) } }).returnLent
  else s

/-- Cancel a head's pending plane 0 arm (R215): ARM clears, ERR = 3, and a deadline request ends. -/
def State.cancelArm (s : State) (head : Nat) : State :=
  ((s.wr .CAL_PLANE_CTRL_ARM 0 head 0).wr .CAL_PLANE_CTRL_ERR 3 head 0).endLead head

/-- What a change of object h does to the pending plane 0 arms that name it (R214, R215, R324). -/
def State.wallHook (s : State) (h : Nat) : State :=
  [0, 1].foldl (fun s head =>
    if s.rd .CAL_PLANE_CTRL_ARM head 0 = 1 && s.rd .CAL_WALL_HANDLE head = h then
      let met := decide (s.rd .CAL_WALL_VALUE head ≤ s.objValue h)
      if s.objType h = 0 || s.objState h = 3 || (s.objState h ≠ 0 && !met) then s.cancelArm head
      else if met then s.endLead head
      else s
    else s) s

/-- Set the VALUE and evaluate the waits and the wall arms. -/
def State.setValue (s : State) (h v : Nat) : State := ((s.wr .SYN_OBJ_VALUE v h).evalWaits h).wallHook h

/-- A SIGNAL (R277): VALUE = max(VALUE, new). -/
def State.signal (s : State) (h v : Nat) : State := s.setValue h (max (s.objValue h) v)

/-- SYN.ADD (R277): VALUE += the sign-extended 32-bit addend, modulo 2^64. -/
def State.counterAdd (s : State) (h b : Nat) : State := s.setValue h (wrapN 64 (s.objValue h + sext 32 b))

/-- The number of registered waits of the chip (R283). -/
def State.registeredWaits (s : State) : Nat := (s.sync.waits.filter (·.registered)).length

/-- What a wait finds when it starts (R284): its status, or none when it goes on waiting. -/
def State.waitStart (s : State) (h threshold : Nat) : Option Nat :=
  if s.objState h ≠ 3 && s.objType h ≠ 0 && threshold ≤ s.objValue h then some stOk else s.terminal h

/-- Register a wait that goes on (R283): it is registered while fewer than 8,192 are. -/
def State.addWait (s : State) (h threshold timeout : Nat) (who : Waiter) (p : Nat) : State :=
  let (id, s1) := s.takeId
  s1.setWaits (s1.sync.waits ++ [⟨id, h, threshold, timeout, who, p, decide (s1.registeredWaits < 8192), none⟩])

/-! ### Locks (R70 to R72, R276, R278) -/

/-- The owner identity of R276: chip, vat, quire slot, lane. -/
def lockIdent (chip vat slot lane : Nat) : Nat := chip * 2 ^ 17 + vat * 2 ^ 11 + slot * 2 ^ 5 + lane

/-- HELD with an owner. -/
def lockHeld (ident : Nat) : Nat := 2 ^ 63 + ident

/-- A lock's AUX word as a reader sees it: HELD with the owner's identity. While the owner's block is saved the stored
identity is marked, so that it is no resident lane's. -/
def State.lockAux (s : State) (h : Nat) : Nat :=
  let a := s.rd .SYN_OBJ_AUX h
  if bitAt a 63 then lockHeld (a % 2 ^ 21) else a

/-- The lock's owner identity, while it is held. -/
def State.lockOwner (s : State) (h : Nat) : Option Nat :=
  let a := s.rd .SYN_OBJ_AUX h
  if bitAt a 63 then some (a % 2 ^ 63) else none

/-- The result of one lane's LOCK.ACQ (R70, R71): acquired, held by a sibling, held by self, or none: it waits. -/
def State.lockTry (s : State) (h ident : Nat) : State × Option Nat :=
  match s.lockOwner h with
  | none => (s.wr .SYN_OBJ_AUX (lockHeld ident) h, some 0)
  | some o =>
    if o = ident then (s, some 2)
    else if o / 32 = ident / 32 then (s, some 1)
    else (s, none)

/-- A waiting lane's identity. -/
def LockWaiter.ident (w : LockWaiter) : Nat := lockIdent w.chip w.vat w.slot w.lane

/-- The results of a quire that waits in LOCK.ACQ, with one lane's result taken. -/
def QWait.lockResult (lane r : Nat) : QWait → QWait
  | .lock lanes dst res => .lock (BitVec.ofNat 32 (clearBit lanes.toNat lane)) dst ((lane, r) :: res)
  | w => w

/-- Write a register lane: a v register's lane, or an s register (R93). -/
def Quire.putReg (q : Quire) (dst lane x : Nat) : Quire :=
  if dst < 256 then { q with v := storePut (32 * dst + lane) (BitVec.ofNat 32 x) q.v }
  else if dst < 320 then { q with s := storePut (dst - 256) (BitVec.ofNat 32 x) q.s }
  else q

/-- A LOCK.ACQ retires when no lane of it waits (R72): its results are written; ACQUIRED resets the block's patience and
acquires, and HELD_BY_SIBLING makes the counter advance (R76, R77, R115). -/
def State.lockRetire (s : State) (vat slot : Nat) : State :=
  match s.quire vat slot with
  | none => s
  | some q => match q.wait with
    | .lock lanes dst res =>
      if lanes ≠ 0 then s
      else
        let q1 : Quire := { res.foldl (fun (q : Quire) x => q.putReg dst x.1 x.2) q with wait := .run }
        let got := res.any (fun x => x.2 = 0)
        let sib := res.any (fun x => x.2 = 1)
        let s1 := s.setQuire vat slot q1
        let s2 := match s1.block vat q.block with
          | some b => s1.setBlock vat q.block { b with
              patience := if got then 0 else b.patience
              lockWait := (!got && b.lockWait) || sib }
          | none => s1
        if got then s2.setVat vat { s2.vat vat with l1 := [] } else s2
    | _ => s

/-- A waiting lane of this chip takes its result. -/
def State.lockLane (s : State) (vat slot lane r : Nat) : State :=
  match s.quire vat slot with
  | some q => (s.setQuire vat slot { q with wait := q.wait.lockResult lane r }).lockRetire vat slot
  | none => s

/-- Tell a waiting lane its result: here, or with the completion of another chip's request. -/
def State.lockTell (s : State) (w : LockWaiter) (r : Nat) : State :=
  if w.chip = s.pos then s.lockLane w.vat w.slot w.lane r
  else s.feltCpl 4 w.chip w.tag 0 stOk (toLe 8 r)

/-- Free a lock and serve the lanes in line (R72, R278): the first in arrival order acquires it; every other lane of its
instruction that waits on this lock receives HELD_BY_SIBLING. -/
def State.lockFree (s : State) (h : Nat) : State :=
  match s.sync.lockq.find? (fun w => w.obj = h) with
  | none => s.wr .SYN_OBJ_AUX 0 h
  | some w =>
    let sib (x : LockWaiter) : Bool := x.obj = h && x.ident / 32 = w.ident / 32
    let s1 := s.wr .SYN_OBJ_AUX (lockHeld w.ident) h
    let s2 := { s1 with sync := { s1.sync with lockq := s1.sync.lockq.filter (fun x => !sib x) } }
    (s.sync.lockq.filter sib).foldl (fun s x => s.lockTell x (if x = w then 0 else 1)) s2

/-- The locks that a quire slot owns, ascending (R75). -/
def State.ownedLocks (s : State) (vat slot : Nat) : List Nat :=
  (List.range 16384).filter (fun h => s.objType h = 2 &&
    match s.lockOwner h with
    | some o => o / 32 = lockIdent s.pos vat slot 0 / 32
    | none => false)

/-! ### Pending-release records (R269 to R271) -/

/-- The stamps of partition p's queues at this moment (R269). -/
def State.stamps (s : State) (p : Nat) : List (Nat × Nat) :=
  ((List.range 16).filter (fun q => s.rd .HB_Q_CTRL_EN p q = 1 || s.rd .HB_Q_CTRL_DESTROYING p q = 1)).map
    (fun q => (q, s.bell p q))

/-- A stamp has passed: DONE has reached it, or the queue's destruction has completed. -/
def State.stampPassed (s : State) (p : Nat) (x : Nat × Nat) : Bool :=
  decide (sub32 (s.rd .HB_Q_DONE_INDEX p x.1) x.2 < 2 ^ 31) ||
    (s.rd .HB_Q_CTRL_EN p x.1 = 0 && s.rd .HB_Q_CTRL_DESTROYING p x.1 = 0)

/-- Free records of the 256 (R269). -/
def State.freeRecords (s : State) : Nat := 256 - s.hb.releases.length

/-- Take a pending-release record. -/
def State.takeRecord (s : State) (mem : Bool) (obj p : Nat) : State :=
  let s1 := { s with hb := { s.hb with releases := s.hb.releases ++ [⟨mem, obj, p, s.stamps p⟩] } }
  if mem then s1.wr .HB_MO_PENDING (s1.rd .HB_MO_PENDING obj + 1) obj else s1

/-- Release a memory object (R271): FREE, and a RELEASE record to the owner's driver. -/
def State.releaseMem (s : State) (h : Nat) : State :=
  let owner := s.rd .HB_MO_OWNER h
  let e : Ev := { kind := 0x05, src := owner, detail := h, p0 := s.rd .HB_MO_TAG h }
  let s1 := [Field.HB_MO_EXPORT, .HB_MO_HOLDERS, .HB_MO_TAG, .HB_MO_SIZE, .HB_MO_STATE, .HB_MO_OWNER,
    .HB_MO_PENDING, .HB_MO_BASE].foldl (fun s f => s.wr f 0 h) s
  if s.rd .HB_RECLAIM_RUNNING owner = 1 || (s.part owner).isNone then s1.raise 32 e else s1.raisePart owner e

/-- Free a sync object: its eight words return to their reset values. -/
def State.freeSync (s : State) (h : Nat) : State :=
  [Field.SYN_OBJ_EXPORT, .SYN_OBJ_AUX, .SYN_OBJ_VALUE, .SYN_OBJ_TYPE, .SYN_OBJ_STATE, .SYN_OBJ_OWNER,
    .SYN_OBJ_QBOUND, .SYN_OBJ_QUEUE].foldl (fun s f => s.wr f 0 h) s

/-- Drop the record at the head of a list that has passed, and release its object when it was the last (R270, R280). -/
def State.dropRecord (s : State) (r : Release) : State :=
  let left := s.hb.releases.erase r
  let s1 := { s with hb := { s.hb with releases := left } }
  let last := !left.any (fun x => x.mem = r.mem && x.obj = r.obj)
  if r.mem then
    let s2 := s1.wr .HB_MO_PENDING (s1.rd .HB_MO_PENDING r.obj - 1) r.obj
    if last && s2.rd .HB_MO_HOLDERS r.obj = 0 then s2.releaseMem r.obj else s2
  else if last && s1.objState r.obj = 3 then s1.freeSync r.obj
  else s1

/-- Every record whose stamps have all passed passes (R269), oldest first. -/
def State.passRecords (s : State) : State :=
  s.hb.releases.foldl (fun s r => if r.stamps.all (s.stampPassed r.p) then s.dropRecord r else s) s

/-- Move an object to DESTROYING (R280): its waiters receive ABORTED OBJECT_DESTROYED. -/
def State.destroyObj (s : State) (h : Nat) : State :=
  ((s.wr .SYN_OBJ_STATE 3 h).notify h (fun _ => some (stObjectDestroyed h))).wallHook h

/-- A live fence becomes ABORTED (R285 step 4) or an object ABANDONED (R287 step 2), and its waiters in `f` are told. -/
def State.terminate (s : State) (h st : Nat) (f : Wait → Bool) (status : Nat) : State :=
  ((s.wr .SYN_OBJ_STATE st h).notify h (fun w => if f w then some status else none)).wallHook h

/-- Lanes of a quire that still wait on sync objects. -/
def State.laneWaits (s : State) (vat slot : Nat) : Bool :=
  s.sync.waits.any (fun w => match w.who with | .lane v q _ _ => v = vat && q = slot | _ => false)

/-- The command's engine reached a status: COMMAND_COMPLETE reports it. -/
def State.setResult (s : State) (id st : Nat) : State :=
  { s with hb := { s.hb with queues := s.hb.queues.map (fun e => (e.1, e.2.map (fun c =>
      if c.id = id && c.phase = .handed && c.result.isNone then { c with result := some st } else c))) } }

/-- A quire runs again when no lane of it waits any more; an acquire at RING scope drops the vat's clean L1 lines when a
wait was satisfied (R115). -/
def State.quireResume (s : State) (vat slot : Nat) (acquired : Bool) : State :=
  let s1 := if acquired then s.setVat vat { s.vat vat with l1 := [] } else s
  if s1.laneWaits vat slot then s1
  else match s1.quire vat slot with
    | some q => s1.setQuire vat slot { q with wait := .run }
    | none => s1

/-- A wait ends with a status (R284). -/
def State.endWait (s : State) (w : Wait) (st : Nat) : State :=
  let s1 := s.setWaits (s.sync.waits.filter (fun x => x.id ≠ w.id))
  match w.who with
  | .cmd id => s1.setResult id st
  | .lane vat slot lane dst =>
    match s1.quire vat slot with
    | some q => (s1.setQuire vat slot (q.putReg dst lane st)).quireResume vat slot (statusOk st)
    | none => s1
  | .remote src tag => s1.feltCpl 4 src tag w.p st (toLe 8 0)

/-- End every wait on an object that satisfies a test, with a status, at once (R279, R280). -/
def State.endWaits (s : State) (f : Wait → Bool) (st : Nat) : State :=
  (s.sync.waits.filter f).foldl (fun s w => s.endWait w st) s

/-- SYN.ARRIVE of one lane (R279): it is counted; at EXPECTED the phase moves on and every lane waiting at it ends;
otherwise the lane waits. Answers whether the lane waits. -/
def State.arrive (s : State) (h : Nat) (who : Waiter) (p : Nat) : State × Bool :=
  let phase := s.objValue h / 2 ^ 32
  let arrived := s.objValue h % 2 ^ 32 + 1
  if arrived = s.rd .SYN_OBJ_AUX h % 2 ^ 32 then
    ((s.wr .SYN_OBJ_VALUE ((phase + 1) % 2 ^ 32 * 2 ^ 32) h).endWaits (fun w => w.obj = h) stOk, false)
  else
    ((s.wr .SYN_OBJ_VALUE (phase * 2 ^ 32 + arrived) h).addWait h phase 0 who p, true)

end Sys2Proof.Machine
end

