-- ==== Sys2Proof/Machine/Cmds.lean ====
section
/-!
DEFINITION. Commands of queues and graph nodes: finding them, completing them with a status (R247), the count of completed
slots (R269), running graph launches (R257 to R259), and the frames of watched streams (R319 to R322).
-/

namespace Sys2Proof.Machine

/-- Every queue's commands in one list. -/
def State.allCmds (s : State) : List Cmd := s.hb.queues.flatMap (·.2)

/-- A command by its number. -/
def State.cmd (s : State) (id : Nat) : Option Cmd := s.allCmds.find? (fun c => c.id = id)

/-- Change a command. -/
def State.modCmd (s : State) (id : Nat) (f : Cmd → Cmd) : State :=
  { s with hb := { s.hb with queues := s.hb.queues.map (fun e => (e.1, e.2.map (fun c => if c.id = id then f c else c))) } }

/-- A word of a packet. -/
def Cmd.word (c : Cmd) (k : Nat) : Nat := (c.words.getD k 0).toNat
/-- Two words, least significant first. -/
def Cmd.dword (c : Cmd) (k : Nat) : Nat := c.word k + c.word (k + 1) * 2 ^ 32
/-- FLAGS bit 31: BARRIER (R238). -/
def Cmd.barrier (c : Cmd) : Bool := bitAt c.flags 11
/-- FLAGS bit 30: QUIET. -/
def Cmd.quiet (c : Cmd) : Bool := bitAt c.flags 10

/-- The engine of an opcode (R239, R264): 0 vats, 1 geometry, 2 pulper, 3 baler, 4 copy, 5 sync unit. -/
def engineOf (op : Nat) : Nat :=
  if op = 0x10 || op = 0x11 || op = 0x12 then 1
  else if op = 0x20 then 2
  else if op = 0x28 || op = 0x29 then 3
  else if op = 0x30 || op = 0x31 then 4
  else if op = 0x40 || op = 0x41 || op = 0x42 then 5
  else 0

/-! ### Queues -/

/-- DONE counts the leading slots whose commands have all completed (R269); completed commands leave the list. -/
def State.trimQueue (s : State) (p q : Nat) : State :=
  let l := (s.queue p q).filter (fun c => c.phase ≠ .done || c.slots ≠ 0)
  let lead := l.takeWhile (fun c => c.phase = .done)
  let n := (lead.map (·.slots)).sum
  (s.setQueue p q (l.drop lead.length)).wr .HB_Q_DONE_INDEX (s.rd .HB_Q_DONE_INDEX p q + n) p q

/-- The first error of a queue, or MORE (R247). -/
def State.queueErr (s : State) (p q st slot : Nat) : State :=
  if s.rd .HB_Q_ERR_STATUS p q = 0 then
    (s.wr .HB_Q_ERR_STATUS st p q).wr .HB_Q_ERR_AT_SLOT (slot % 2 ^ 24) p q
  else s.count .HB_Q_ERR_AT_MORE 1 p q

/-- Report a status that is not class OK (R247, R295): the queue's error and, unless QUIET or ended by a destruction,
a CMD record. -/
def State.reportCmd (s : State) (c : Cmd) (st : Nat) (post : Bool) : State :=
  if statusOk st then s
  else
    let s1 := s.queueErr c.p c.q st c.slot
    if post && !c.quiet then
      s1.raisePart c.p { kind := 0x01, src := c.p, status := st, detail := c.q * 2 ^ 28 + c.slot % 2 ^ 24 }
    else s1

/-! ### Graph launches -/

/-- Change a running graph launch. -/
def State.modRun (s : State) (id : Nat) (f : GraphRun → GraphRun) : State :=
  { s with hb := { s.hb with runs := s.hb.runs.map (fun r => if r.id = id then f r else r) } }

/-- The predecessors of a node (R254). -/
def nodePreds (bs : List Byte) : List Nat :=
  ((List.range 4).map (fun i => leAt bs (32 + 2 * i) 2)).filter (fun x => x ≠ 0xFFFF)

/-- The lowest predecessor that completed with a status that is not OK. -/
def failedPred (nodes : List RunNode) (n : RunNode) : Option Nat :=
  (nodePreds n.bytes).find? (fun i => match nodes[i]? with
    | some m => m.phase = .done && !statusOk m.status
    | none => false)

/-- The node that made a predecessor fail: itself, or the one its SKIPPED status names (R264). -/
def rootFailure (nodes : List RunNode) (i : Nat) : Nat :=
  match nodes[i]? with
  | some m => if m.status / 65536 = 0x1325 then m.status % 65536 else i
  | none => i

/-- One sweep in ascending index: a node that waits and has a failed predecessor completes with SKIPPED (R259). -/
def skipSweep (nodes : List RunNode) : List RunNode :=
  (List.range nodes.length).foldl (fun ns i =>
    match ns[i]? with
    | some n =>
      if n.phase = .fetched then
        match failedPred ns n with
        | some j => ns.set i { n with phase := .done, status := stCmd 0x25 (rootFailure ns j) }
        | none => ns
      else ns
    | none => ns) nodes

/-- The launch's status: that of the lowest-indexed failed node, or OK (R259). -/
def runStatus (nodes : List RunNode) : Nat :=
  match nodes.find? (fun n => !statusOk n.status) with
  | some n => n.status
  | none => stOk

/-- When every node of a run has completed, its GRAPH_LAUNCH reaches the run's status. -/
def State.runCheck (s : State) (id : Nat) : State :=
  match s.hb.runs.find? (fun r => r.id = id) with
  | none => s
  | some r => if r.nodes.all (fun n => n.phase = .done) then s.setResult r.cmd (runStatus r.nodes) else s

/-- The nodes with one node done with a status, and what that skips (R259). -/
def nodesDone (nodes : List RunNode) (i st : Nat) : List RunNode :=
  match nodes[i]? with
  | some n => skipSweep (nodes.set i { n with phase := .done, status := st })
  | none => nodes

/-- A node completes with a status: its dependents may be skipped, and the run may end (R259). -/
def State.nodeDone (s : State) (run i st : Nat) : State :=
  (s.modRun run (fun r => { r with nodes := nodesDone r.nodes i st })).runCheck run

/-- Versions that are neither current nor bound to an incomplete launch retire (R258). -/
def State.retireVersions (s : State) : State :=
  { s with hb := { s.hb with versions := s.hb.versions.filter (fun v =>
      v.current || s.hb.runs.any (fun r => r.p = v.p && r.graph = v.graph && r.ver = v.ver)) } }

/-! ### Frames of watched streams -/

/-- A FALLBACK frame on time: ONTIME counts to 8 and the entry returns to MAIN (R322). -/
def State.dlOnTime (s : State) (e : Nat) : State :=
  if s.rd .SCH_DL_STATE_FALLBACK e = 0 then s
  else if s.rd .SCH_DL_STATE_ONTIME e + 1 ≥ 8 then (s.wr .SCH_DL_STATE_FALLBACK 0 e).wr .SCH_DL_STATE_ONTIME 0 e
  else s.wr .SCH_DL_STATE_ONTIME (s.rd .SCH_DL_STATE_ONTIME e + 1) e

/-- A frame ends (R320, R322): on time when it completes with class OK within BUDGET cycles. Whether the cycles were
within BUDGET is a free value, since the model counts no cycles. -/
def State.frameEnd (s : State) (fr : Frame) (st : Nat) : State :=
  let (n, s1) := s.takeFree
  let s2 := { s1 with sched := { s1.sched with frames := s1.sched.frames.filter (fun f => f.id ≠ fr.id) } }
  let inTime := bitAt (Config.undefinedWord n).toNat 0
  if statusOk st && inTime then
    if fr.fallback then s2.dlOnTime fr.entry else s2
  else
    let s3 := s2.count .SCH_DL_STATE_LATE 1 fr.entry
    if fr.fallback then s3.wr .SCH_DL_STATE_ONTIME 0 fr.entry else s3

/-- The frames of a run end with its launch. -/
def State.framesEnd (s : State) (run st : Nat) : State :=
  (s.sched.frames.filter (fun f => f.run = run)).foldl (fun s f => s.frameEnd f st) s

/-! ### Completion -/

/-- A GRAPH_LAUNCH completes: its run ends, its frames end, and versions may retire. -/
def State.launchGraphDone (s : State) (id st : Nat) : State :=
  match s.hb.runs.find? (fun r => r.cmd = id) with
  | none => s
  | some r =>
    let s1 := s.framesEnd r.id st
    ({ s1 with hb := { s1.hb with runs := s1.hb.runs.filter (fun x => x.id ≠ r.id) } }).retireVersions

/-- A command completes with a status (R247): marks, errors, records, a halt after a WAIT (R245), graph nodes, DONE, and
the pending-release records that have passed. -/
def State.finishCmd (s : State) (id st : Nat) (post : Bool) : State :=
  match s.cmd id with
  | none => s
  | some c =>
    if c.phase = .done then s
    else
      let s1 := (s.modCmd id (fun c => { c with phase := .done, result := some st })).reportCmd c st post
      let s2 := if c.op = 0x41 && !statusOk st then s1.wr .HB_Q_CTRL_HALTED 1 c.p c.q else s1
      let s3 := if c.op = 0x03 then s2.launchGraphDone id st else s2
      let s4 := match c.node with
        | some (run, i) => s3.nodeDone run i st
        | none => s3
      (s4.trimQueue c.p c.q).passRecords

/-- A launch by its number. -/
def State.launch (s : State) (id : Nat) : Option Launch := storeFind s.launches id

/-- The state with a launch put. -/
def State.setLaunch (s : State) (id : Nat) (l : Launch) : State := { s with launches := storePut id l s.launches }

/-- The linear indices of the blocks of a gated launch's tiles (R205): in MODE 1, block (x, y) for y below the PRIMS of
tile x, tile by tile. -/
def Launch.gatedBlocks (l : Launch) : List Nat :=
  (indexed l.tiles).flatMap (fun e => (List.range e.2.2).map (fun y => e.1 + l.gx * y))

/-- The (BLOCK.X, BLOCK.Y) index of a launch's k-th block or column (R205, R250, R437). -/
def Launch.gridIndex (l : Launch) (k : Nat) : Nat :=
  if l.tiles = [] || (l.gy = 1 && l.total = l.gx) then k else l.gatedBlocks.getD k 0

/-- The number of the command that a launch serves: its LAUNCH, DRAW or BIN_END; none for another chip's column. -/
def Launch.cmdId (l : Launch) : Option Nat :=
  match l.use with
  | .compute c => some c
  | .vertex _ d => some d
  | .fragment _ c => some c
  | .column _ _ => none

/-- Partition p's newest render pass: the open one, if it has one. -/
def State.pass (s : State) (p : Nat) : Option Pass := (s.geo.passes.filter (fun x => x.p = p)).getLast?

/-- Bytes of the pool in use (R192). -/
def Pass.used (x : Pass) : Nat := (x.regions.map (fun r => (r.up - r.base) + (r.top - r.down))).sum

/-- The code of GEO_PASS.STATE. -/
def PassPhase.code : PassPhase → Nat
  | .binning => 1
  | .growWait => 2
  | .broke => 3
  | .rendering => 4

/-- GEO_PASS and GEO_POOL_USE.NOW of partition p show its newest pass. -/
def State.showPass (s : State) (p : Nat) : State :=
  match s.pass p with
  | none =>
    ((((s.wr .GEO_PASS_STATE 0 p).wr .GEO_PASS_CHUNKS 0 p).wr .GEO_PASS_SEGMENTS 0 p).wr .GEO_PASS_DRAWS 0 p).wr
      .GEO_POOL_USE_NOW 0 p
  | some x =>
    ((((s.wr .GEO_PASS_STATE x.phase.code p).wr .GEO_PASS_CHUNKS x.chunks p).wr .GEO_PASS_SEGMENTS (min 255 x.segments) p).wr
      .GEO_PASS_DRAWS (min 4095 (x.draws.filter (fun d => d.verts.isSome && decide (primsOf d ≤ d.binned))).length) p).wr
      .GEO_POOL_USE_NOW ((x.used + 65535) / 65536) p
where
  /-- Primitives of a draw. -/
  primsOf (d : DrawRec) : Nat := primCount (dsTopo d.desc) (dsCount d.desc)

/-- The state with a pass replaced. -/
def State.setPass (s : State) (x : Pass) : State :=
  { s with geo := { s.geo with passes := s.geo.passes.map (fun y => if y.cmd = x.cmd then x else y) } }

/-- The state without a pass. -/
def State.dropPass (s : State) (cmd : Nat) : State :=
  { s with geo := { s.geo with passes := s.geo.passes.filter (fun y => y.cmd ≠ cmd) } }

end Sys2Proof.Machine
end

