-- ==== Sys2Proof/Machine/Columns.lean ====
section
/-!
DEFINITION. Launches of spanning partitions (R437 to R439): columns, their grants to the chips of the span, and their ends.
A column granted to chip c is listed in `Ring.columns` under launch × 2^48 + index as (c, 0), and as (c, 1 + status) when
it is done.
-/

namespace Sys2Proof.Machine

/-- The key of a column. -/
def columnKey (launch col : Nat) : Nat := launch * 2 ^ 48 + col

/-- The live chips of a partition's span, ascending. -/
def State.spanChips (s : State) (p : Nat) : List Nat :=
  (List.range 16).filter (fun c => (bitAt (s.rd .FLT_MEMBERS_LIVE) c || c = s.pos) &&
    (s.partVats p).any (fun v => v.1 = c))

/-- Columns of every launch that a chip holds without COLUMN_DONE. -/
def State.columnsOut (s : State) (chip : Nat) : Nat := (s.ring.columns.filter (fun e => e.2 = (chip, 0))).length

/-- The chip of the span with the fewest outstanding columns, the lower position on a tie (R437). -/
def State.columnChip (s : State) (p : Nat) : Option Nat :=
  (s.spanChips p).foldl (fun b c => match b with
    | none => some c
    | some x => if s.columnsOut c < s.columnsOut x then some c else some x) none

/-- The state with a column's entry put. -/
def State.putColumn (s : State) (launch col : Nat) (v : Nat × Nat) : State :=
  { s with ring := { s.ring with columns := storePut (columnKey launch col) v s.ring.columns } }

/-- The body of COLUMN after SUB (R423): partition, descriptor address, column index. -/
def columnBody (p addr col : Nat) : List Byte := [0x0C, 0, 0, 0] ++ toLe 4 p ++ toLe 8 addr ++ toLe 8 col

/-- The body of COLUMN_DONE (R423): partition, column index, status. -/
def columnDoneBody (p col status : Nat) : List Byte := [0x0D, 0, 0, 0] ++ toLe 4 p ++ toLe 8 col ++ toLe 4 status

/-- Grant a column to a chip: by message, or as a launch of this chip's own (R437). -/
def State.sendColumn (s : State) (l : Launch) (addr col chip : Nat) : State :=
  let s1 := s.putColumn l.id col (chip, 0)
  if chip = s.pos then
    let (id, s2) := s1.takeId
    s2.setLaunch id { l with id := id, use := .column s.pos col, total := l.gz, next := 0, retired := 0 }
  else s1.feltReq chip 7 l.p (columnBody l.p addr col) .ctl

/-- The descriptor address of a launch's command. -/
def State.launchAddr (s : State) (l : Launch) : Nat :=
  match l.cmdId with
  | some id => match s.cmd id with
    | some c => c.dword 1
    | none => 0
  | none => 0

/-- A launch's columns may be granted: its partition is neither torn down nor reclaimed, and its command's queue is not being
destroyed. -/
def State.mayGrant (s : State) (l : Launch) : Bool :=
  s.rd .SCH_FAULT_CTRL_FAULTED l.p = 0 && s.rd .HB_RECLAIM_RUNNING l.p = 0 &&
    (match l.cmdId.bind s.cmd with
    | some c => s.rd .HB_Q_CTRL_DESTROYING c.p c.q = 0
    | none => false)

/-- Grant the launch's next columns while fewer than 1,024 are outstanding (R425, R437). -/
def State.grantColumns (s : State) (id : Nat) : Nat → State
  | 0 => s
  | fuel + 1 =>
    match s.launch id with
    | none => s
    | some l =>
      if l.total ≤ l.next || !s.mayGrant l || decide (1024 ≤ (s.ring.columns.filter (fun e => e.2.2 = 0)).length) then s
      else match s.columnChip l.p with
        | none => s
        | some chip =>
          ((s.sendColumn l (s.launchAddr l) (l.gridIndex l.next) chip).setLaunch id { l with next := l.next + 1 }).grantColumns id fuel

/-- Grant again, in ascending index, the columns of chips that are not live (R439). -/
def State.regrantColumns (s : State) : State :=
  (s.ring.columns.filter (fun e => e.2.2 = 0 && e.2.1 ≠ s.pos && !bitAt (s.rd .FLT_MEMBERS_LIVE) e.2.1)).foldl
    (fun s e => match s.launch (e.1 / 2 ^ 48) with
      | some l => (match s.columnChip l.p with
        | some chip => s.sendColumn l (s.launchAddr l) (e.1 % 2 ^ 48) chip
        | none => s)
      | none => s) s

/-- The status of a launch whose columns are all done: that of its lowest failed column, or OK. -/
def State.columnsStatus (s : State) (id : Nat) : Nat :=
  match s.ring.columns.find? (fun e => e.1 / 2 ^ 48 = id && decide (1 < e.2.2)) with
  | some e => e.2.2 - 1
  | none => stOk

/-- The command that a launch serves, also through a column of this chip's own. -/
def State.cmdOf (s : State) (l : Launch) : Option Nat :=
  match l.use with
  | .column src col =>
    if src ≠ s.pos then none
    else match s.ring.columns.find? (fun e => e.1 % 2 ^ 48 = col && e.2 = (s.pos, 0) && (match s.launch (e.1 / 2 ^ 48) with
        | some x => x.p = l.p
        | none => false)) with
      | some e => (s.launch (e.1 / 2 ^ 48)).bind (·.cmdId)
      | none => none
  | _ => l.cmdId

/-- A column of partition p is done (R438, R439): the first report of it counts. The launch completes with its last
column; otherwise more columns are granted. -/
def State.columnDone (s : State) (p col status : Nat) : State :=
  match s.ring.columns.find? (fun e => e.1 % 2 ^ 48 = col && e.2.2 = 0 && (match s.launch (e.1 / 2 ^ 48) with
      | some l => l.p = p
      | none => false)) with
  | none => s
  | some e =>
    let id := e.1 / 2 ^ 48
    match s.launch id with
    | none => s
    | some l =>
      let s1 := (s.putColumn id col (e.2.1, 1 + status)).setLaunch id { l with retired := l.retired + 1 }
      if l.retired + 1 = l.total then
        let st := s1.columnsStatus id
        let s2 : State := { s1 with
          launches := storeErase s1.launches id
          ring := { s1.ring with columns := s1.ring.columns.filter (fun x => x.1 / 2 ^ 48 ≠ id) } }
        match l.use with
        | .compute c => s2.setResult c st
        | _ => s2
      else s1.grantColumns id 1024

/-- Writes of a partition that other chips have not acknowledged. -/
def State.writesOut (s : State) (p : Nat) : Bool :=
  s.ring.reqs.any (fun r => r.p = p && (match r.owner with
    | .store _ _ => true
    | .beater _ => true
    | .cmd _ => true
    | .geo _ => true
    | _ => false))

/-- A column whose last block has retired ends once its writes have reached their points of coherence (R438): the master
is told, or the column is done here. -/
def State.columnEnd (s : State) (id : Nat) (status : Nat) : State :=
  match s.launch id with
  | none => s
  | some l =>
    match l.use with
    | .column src col =>
      if l.retired = l.total && !s.writesOut l.p then
        let s1 : State := { s with launches := storeErase s.launches id }
        if src = s.pos then s1.columnDone l.p col status
        else s1.feltReq src 7 l.p (columnDoneBody l.p col status) .ctl
      else s
    | _ => s

/-- Every column that waits for its writes is looked at again. -/
def State.columnEnds (s : State) : State := s.launches.foldl (fun s e => s.columnEnd e.1 stOk) s

end Sys2Proof.Machine
end

