-- ==== Sys2Proof/Machine/Stops.lean ====
section
/-!
DEFINITION. Stops of engines and what follows their last acknowledgement: the destruction of a queue (R285, R286), the
teardown of a partition by a fault (R315, R316), and its reclaim (R287, R288).
-/

namespace Sys2Proof.Machine

/-! ### Work leaving a vat -/

/-- The quire slot of a tensor instruction. -/
def BeatOp.slot : BeatOp → Nat
  | .tld slot _ _ _ => slot
  | .tmma slot _ _ _ _ _ => slot
  | .tst slot _ _ _ _ _ => slot
  | .tcvt slot _ _ _ => slot

/-- Remove a block from a vat with its quires, sets, requests and beater instructions (R64, R150); a pooled vat without
blocks is free to be granted (R306). -/
def Vat.removeBlock (v : Vat) (b : Nat) : Vat :=
  let mine (slot : Nat) : Bool := match storeFind v.quires slot with
    | some q => q.block = b
    | none => false
  { v with
    blocks := storeErase v.blocks b
    holder := if storeErase v.blocks b = [] then none else v.holder
    quires := v.quires.filter (fun e => e.2.block ≠ b)
    sets := v.sets.filter (fun e => match e.2.owner with
      | some (slot, _) => !mine slot
      | none => true)
    acqq := v.acqq.filter (fun a => !mine a.slot)
    ops := v.ops.filter (fun o => !mine o.slot) }

/-- The quires' waits that a removed block leaves behind end without effect. -/
def State.dropLaneWaits (s : State) (vat : Nat) (slots : List Nat) : State :=
  let gone (v q : Nat) : Bool := v = vat && slots.contains q
  { s with
    sync := { s.sync with
      waits := s.sync.waits.filter (fun w => match w.who with
        | .lane v q _ _ => !gone v q
        | _ => true)
      lockq := s.sync.lockq.filter (fun w => !(w.chip = s.pos && gone w.vat w.slot)) }
    xlt := { s.xlt with
      waits := s.xlt.waits.filter (fun w => match w.who with
        | .quire v q => !gone v q
        | _ => true) } }

/-- Remove a block of a vat. -/
def State.removeBlock (s : State) (vat b : Nat) : State :=
  let v := s.vat vat
  let slots := (v.quires.filter (fun e => e.2.block = b)).map (·.1)
  let v1 := v.removeBlock b
  let v2 : Vat := if s.anyTile vat then { v1 with holder := v.holder } else v1
  ((s.dropLaneWaits vat slots).setVat vat v2).returnLent

/-- Partition p has a block or a tile in flight on the vat. -/
def State.hasBlock (s : State) (vat p : Nat) : Bool :=
  s.hasTile vat p || (s.vat vat).blocks.any (fun b => match s.launch b.2.launch with
    | some l => l.p = p
    | none => false)

/-- A vat's pre-emptions that name partitions without a block on it end (R314). -/
def State.dropPreempt (s : State) (vat : Nat) : State :=
  s.setVat vat { s.vat vat with preempt := (s.vat vat).preempt.filter (s.hasBlock vat) }

/-- Pre-emptions whose partition's last block has left the vat end, and each counts (R309 step 5, R312). -/
def State.settlePreempt (s : State) (vat : Nat) : State :=
  ((s.vat vat).preempt.filter (fun p => !s.hasBlock vat p)).foldl (fun (s : State) p => s.count .SCH_PREEMPTS_COUNT 1 p)
    (s.dropPreempt vat)

/-! ### The scope of a stop and the engines that hold its work -/

/-- The launch belongs to what a stop ends. -/
def State.inScope (s : State) (c : StopCause) (l : Launch) : Bool :=
  match c with
  | .queue p q => l.p = p && (match s.cmdOf l with
      | some id => (s.queue p q).any (fun x => x.id = id)
      | none => false)
  | .reclaim p => l.p = p
  | .fault p => l.p = p
  | .func _ _ => false

/-- The command belongs to what a stop ends. -/
def cmdInScope (c : StopCause) (x : Cmd) : Bool :=
  match c with
  | .queue p q => x.p = p && x.q = q
  | .reclaim p => x.p = p
  | .fault p => x.p = p
  | .func _ _ => false

/-- The partition of a stop, when it has one. -/
def StopCause.part : StopCause → Nat
  | .queue p _ => p
  | .reclaim p => p
  | .fault p => p
  | .func k _ => k

/-- The vats with blocks in scope. -/
def State.scopeVats (s : State) (c : StopCause) : List Nat :=
  (List.range 64).filter (fun n => (s.vat n).blocks.any (fun b => match s.launch b.2.launch with
    | some l => s.inScope c l
    | none => false))

/-- Handed commands without a status, in scope. -/
def State.scopeHanded (s : State) (c : StopCause) : List Cmd :=
  s.allCmds.filter (fun x => cmdInScope c x && x.phase = .handed && x.result.isNone)

/-- A render pass is in scope. -/
def passInScope (c : StopCause) (x : Pass) : Bool :=
  match c with
  | .queue p q => x.p = p && x.q = q
  | .reclaim p => x.p = p
  | .fault p => x.p = p
  | .func _ _ => false

/-- The member chips that hold work of a spanning partition (R315): for a queue, those with columns of its launches. -/
def State.scopeMembers (s : State) (c : StopCause) : List Nat :=
  if s.spanning c.part && s.homed c.part then
    (List.range 16).filter (fun m => m ≠ s.pos && bitAt (s.rd .FLT_MEMBERS_LIVE) m &&
      (match c with
        | .queue _ _ => s.ring.columns.any (fun e => e.2 = (m, 0) && (match s.launch (e.1 / 2 ^ 48) with
          | some l => s.inScope c l
          | none => false))
        | _ => (s.partVats c.part).any (fun v => v.1 = m)))
  else []

/-- The engines that hold work in scope and still have to acknowledge. -/
def State.holders (s : State) (c : StopCause) : List EngineUnit :=
  let handed := s.scopeHanded c
  (s.scopeVats c).map (fun n => .vat (Fin.ofNat 64 n)) ++
  (if s.geo.passes.any (fun e => passInScope c e) then [.geo] else []) ++
  ((List.range 4).filter (fun e => (storeGet [] s.codec.engines e).any (fun id => handed.any (fun x => x.id = id)))).map
    (fun e => .plp (Fin.ofNat 4 e)) ++
  (if s.codec.baler.any (fun id => handed.any (fun x => x.id = id)) then [.bal] else []) ++
  (if handed.any (fun x => engineOf x.op = 4) then [.copy] else []) ++
  (s.scopeMembers c).map (fun m => .member (Fin.ofNat 16 m))

/-- The teardown stop goes to every member (R315, R423): RINGCTL FUNC with the partition's identifier. Byte 0 of the
body is the mode: 1, 2 and 3 as GLB_FUNC_CTRL.OP has them, 4 for the teardown stop. -/
def State.tellMembers (s : State) (c : StopCause) : State :=
  (s.scopeMembers c).foldl (fun s m =>
    s.feltReq m 7 c.part ([0x09, 0, 0, 0] ++ [4, 0] ++ toLe 2 (funcIdent m c.part)) .ctl) s

/-- The status that a stop's commands complete with. -/
def StopCause.status : StopCause → Nat
  | .queue p q => stQueueDestroyed p q
  | c => stReclaimed c.part

/-- The commands of an engine complete with the stop's status; a teardown by fault completes none (R285, R315). -/
def State.stopCmds (s : State) (c : StopCause) (f : Cmd → Bool) : State :=
  match c with
  | .fault _ => s
  | .func _ _ => s
  | _ => ((s.scopeHanded c).filter f).foldl (fun s x => s.finishCmd x.id c.status false) s

/-- Launches in scope that no vat holds any block of, and that will dispatch none. -/
def State.idleLaunches (s : State) (c : StopCause) : List Nat :=
  (s.launches.filter (fun e => s.inScope c e.2 &&
    !s.vats.any (fun v => v.2.blocks.any (fun b => b.2.launch = e.1)))).map (·.1)

/-- Discard an engine's work in scope (R170, R201, R285 step 3, R315 step 2). -/
def State.discardWork (s : State) (c : StopCause) : EngineUnit → State
  | .vat n =>
    ((s.vat n).blocks.foldl (fun s b => match s.launch b.2.launch with
      | some l => if s.inScope c l then s.removeBlock n b.1 else s
      | none => s) s).dropPreempt n
  | .geo =>
    let s1 := { s with geo := { s.geo with passes := s.geo.passes.filter (fun e => !passInScope c e) } }
    ((s1.wr .GEO_GROW_CTRL_REQ 0 c.part).wr .GEO_GROW_WANT_BYTES 0 c.part).showPass c.part |>.stopCmds c (fun x => engineOf x.op = 1)
  | .plp e =>
    let ids := storeGet [] s.codec.engines e
    let gone := (s.scopeHanded c).map (·.id)
    ({ s with codec := { s.codec with engines := storeSet [] s.codec.engines e (ids.filter (fun i => !gone.contains i)) } }
      ).stopCmds c (fun x => ids.contains x.id)
  | .bal =>
    let gone := (s.scopeHanded c).map (·.id)
    ({ s with codec := { s.codec with baler := s.codec.baler.filter (fun i => !gone.contains i) } }).stopCmds c
      (fun x => engineOf x.op = 3)
  | .copy => s.stopCmds c (fun x => engineOf x.op = 4)
  | .member _ => s

/-- Drop the launches in scope that hold nothing, with their saved blocks and columns. -/
def State.dropLaunches (s : State) (c : StopCause) : State :=
  let ids := s.idleLaunches c
  { s with
    launches := s.launches.filter (fun e => !ids.contains e.1)
    sched := { s.sched with saved := s.sched.saved.filter (fun x => !ids.contains x.block.launch) }
    ring := { s.ring with columns := s.ring.columns.filter (fun e => !ids.contains (e.1 / 2 ^ 48)) } }

/-- Empty the preload slots that hold a launch in scope (R285, R287 step 1). -/
def State.emptyPreloads (s : State) (c : StopCause) : State :=
  { s with vats := s.vats.map (fun e => match e.2.preload with
      | some id => (match s.launch id with
        | some l => if s.inScope c l then (e.1, { e.2 with preload := none }) else e
        | none => (e.1, { e.2 with preload := none }))
      | none => e) }

/-- Commands not handed off, unsequenced graph nodes and WAIT commands in scope complete with the stop's status (R285
step 2). -/
def State.abortWaiting (s : State) (c : StopCause) : State :=
  let inRun (r : GraphRun) : Bool := s.allCmds.any (fun x => x.id = r.cmd && cmdInScope c x)
  let stopNode (n : RunNode) : RunNode := if n.phase = .fetched then { n with phase := .done, status := c.status } else n
  let stopRun (r : GraphRun) : GraphRun := if inRun r then { r with nodes := r.nodes.map stopNode } else r
  let s1 : State := { s with hb := { s.hb with runs := s.hb.runs.map stopRun } }
  let ws := s1.allCmds.filter (fun x => cmdInScope c x && (x.phase = .fetched || (x.op = 0x41 && x.phase = .handed)))
  let s2 := s1.setWaits (s1.sync.waits.filter (fun w => match w.who with
    | .cmd id => !ws.any (fun x => x.id = id)
    | _ => true))
  ws.foldl (fun s x => s.finishCmd x.id c.status false) s2

/-- Everything of a queue that is still there completes (R285): what an engine had finished with its own status. -/
def State.flushQueue (s : State) (c : StopCause) : State :=
  (s.allCmds.filter (cmdInScope c)).foldl (fun s x => s.finishCmd x.id (x.result.getD c.status) false) s

/-- The state without a stop. -/
def State.dropStops (s : State) (f : Stop → Bool) : State :=
  { s with hb := { s.hb with stops := s.hb.stops.filter (fun x => !f x) } }

/-- The fences bound to a queue that are LIVE become ABORTED (R285 step 4). -/
def State.abortFences (s : State) (p q : Nat) : State :=
  ((List.range 16384).filter (fun h => s.objType h = 1 && s.rd .SYN_OBJ_OWNER h = p && s.rd .SYN_OBJ_QBOUND h = 1 &&
    s.rd .SYN_OBJ_QUEUE h = q && s.objState h = 0)).foldl
    (fun s h => s.terminate h 1 (fun _ => true) (stQueueDestroyed p q)) s

/-- Steps 4 to 6 of a queue's destruction (R285); `record` says whether a DESTROYED record is posted. -/
def State.finishQueue (s : State) (p q : Nat) (c : StopCause) (record : Bool) : State :=
  let s0 : State := { s with geo := { s.geo with refusing := s.geo.refusing.filter (fun k => k ≠ p * 16 + q) } }
  let s1 := (s0.flushQueue c).dropLaunches c
  let s2 := ((s1.abortFences p q).wr .HB_Q_CTRL_DESTROYING 0 p q).passRecords
  if record then s2.raisePart p { kind := 0x04, src := p, detail := q } else s2

/-! ### The reclaim -/

/-- The enabled or dying queues of a partition. -/
def State.liveQueues (s : State) (p : Nat) : List Nat :=
  (List.range 16).filter (fun q => s.rd .HB_Q_CTRL_EN p q = 1 || s.rd .HB_Q_CTRL_DESTROYING p q = 1)

/-- Objects of a partition by a test. -/
def State.objsOf (s : State) (p : Nat) (f : Nat → Bool) : List Nat :=
  (List.range 16384).filter (fun h => s.objType h ≠ 0 && s.rd .SYN_OBJ_OWNER h = p && f h)

/-- Take one record for each partition of a mask; records that are not free are waited for (R280, R287, R288). -/
def State.takeRecords (s : State) (obj : Nat) (parts : List Nat) : State :=
  parts.foldl (fun s p =>
    if s.freeRecords = 0 then { s with hb := { s.hb with reclaimWait := s.hb.reclaimWait ++ [obj * 32 + p] } }
    else s.takeRecord false obj p) s

/-- Records that a reclaim waits for are taken as soon as records are free (R288), and what has passed is released. -/
def State.serveWaits (s : State) : State :=
  let ws := s.hb.reclaimWait.take s.freeRecords
  (ws.foldl (fun (s : State) w => s.takeRecord false (w / 32) (w % 32))
    { s with hb := { s.hb with reclaimWait := s.hb.reclaimWait.drop s.freeRecords } }).passRecords

/-- The locks that a partition's lanes own are freed (R278, R287 step 5); no lane waits on them any more. -/
def State.freeLocks (s : State) (p : Nat) : State :=
  (s.objsOf p (fun h => s.objType h = 2)).foldl (fun (s : State) h => s.wr .SYN_OBJ_AUX 0 h)
    { s with sync := { s.sync with lockq := s.sync.lockq.filter (fun w => s.rd .SYN_OBJ_OWNER w.obj ≠ p) } }

/-- A reclaim empties the decoder slots of its partition (R380). -/
def State.emptySlots (s : State) (p : Nat) : State :=
  { s with codec := { s.codec with slots := s.codec.slots.filter (fun x => s.rd .PLP_SLOT_OWNER x.1 ≠ p) } }

/-- The objects of a reclaimed partition (R287 step 5). -/
def State.reclaimObjs (s : State) (p : Nat) : State :=
  let s := s.freeLocks p
  let s1 := (s.objsOf p (fun h => s.rd .SYN_OBJ_EXPORT h = 0)).foldl (fun s h => (s.destroyObj h).freeSync h) s
  let s2 := (s1.objsOf p (fun h => s1.objState h = 2)).foldl (fun s h =>
    (s.destroyObj h).takeRecords h (bitIdx 32 (s.rd .SYN_OBJ_EXPORT h))) s1
  let s3 := (s2.hb.releases.filter (fun r => r.p = p)).foldl (fun s r => s.dropRecord r) s2
  let s4 := (List.range 4096).foldl (fun s h =>
    if s.rd .HB_MO_STATE h = 1 && bitAt (s.rd .HB_MO_HOLDERS h) p then
      let left := clearBit (s.rd .HB_MO_HOLDERS h) p
      let s' := s.wr .HB_MO_HOLDERS left h
      if left ≠ 0 then s'
      else if s'.rd .HB_MO_PENDING h = 0 then s'.releaseMem h else s'.wr .HB_MO_STATE 2 h
    else s) s3
  s4.serveWaits

/-- The event queue of a reclaimed partition is emptied (R522). -/
def State.reclaimEvents (s : State) (p : Nat) : State :=
  if s.vfEnabled p && s.vfExposed p then
    let s1 := (s.wr .EVQ_READ_INDEX (s.rd .EVQ_WRITE_INDEX p) p).wr .EVQ_CTRL_OVF 0 p
    { s1 with owed := storeErase s1.owed p }
  else s

/-- Free a partition's migration entries, without a record, and drop its waits (R347). -/
def State.dropMigrations (s : State) (p : Nat) : State :=
  let s1 := ((List.range 64).filter (fun e => s.rd .XLT_MIG_USED e = 1 && s.rd .XLT_MIG_PART e = p)).foldl
    (fun (s : State) e => s.wr .XLT_MIG_USED 0 e) s
  { s1 with xlt := { s1.xlt with waits := s1.xlt.waits.filter (fun w => w.p ≠ p) } }

/-- Drop a partition's translations, migration entries and waits (R287 step 4, R347, R350). -/
def State.dropTranslations (s : State) (p : Nat) : State :=
  let s1 := (s.wr .XLT_ROOT_EN 0 p).dropMigrations p
  { s1 with xlt := { s1.xlt with tlb := s1.xlt.tlb.filter (fun e => e.1 / 2 ^ 36 ≠ p), walked := [] } }

/-- An FLR's last step (R232 step 4), or the RECLAIMED record of a reclaim that no FLR started (R287 step 6). -/
def State.reclaimRecord (s : State) (p : Nat) : State :=
  if bitAt (s.rd .GLB_FLR_STATUS_RUNNING) p then
    let s1 := s.wr .GLB_FLR_STATUS_RUNNING (clearBit (s.rd .GLB_FLR_STATUS_RUNNING) p)
    let s2 := if s1.funcState p = fnStopping then s1.setFunc p fnStopped else s1
    s2.raise 32 { kind := 0x07, src := p }
  else s.raise 32 { kind := 0x06, src := p }

/-- Steps 4 to 6 of a reclaim (R287). -/
def State.finishReclaim (s : State) (p : Nat) : State :=
  let c := StopCause.reclaim p
  let s1 := (s.liveQueues p).foldl (fun s q => s.finishQueue p q c false) s
  let s2 := (((s1.dropLaunches c).dropTranslations p).reclaimObjs p).emptySlots p
  let s3 := { s2 with
    heaps := storeErase s2.heaps p
    hb := { s2.hb with
      versions := s2.hb.versions.filter (fun v => v.p ≠ p)
      runs := s2.hb.runs.filter (fun r => r.p ≠ p) }
    sched := { s2.sched with saved := s2.sched.saved.filter (fun x => x.p ≠ p) } }
  let s4 := (s3.reclaimEvents p).wr .HB_RECLAIM_RUNNING 0 p
  let s5 := ((s4.wr .SCH_FAULT_CTRL_FAULTED 0 p).wr .SCH_FAULT_CTRL_STOPPED 0 p).wr .SCH_FAULT_CTRL_MORE 0 p
  s5.reclaimRecord p

/-- The waits of a reclaimed partition are removed, and its exported fences and counters are ABANDONED (R287 step 2). -/
def State.abandon (s : State) (p : Nat) : State :=
  let s1 := (s.objsOf p (fun h => (s.objType h = 1 || s.objType h = 4) && s.rd .SYN_OBJ_EXPORT h ≠ 0 &&
    s.objState h ≠ 3)).foldl (fun s h => s.terminate h 2 (fun w => w.p ≠ p) (stAbandoned p)) s
  s1.setWaits (s1.sync.waits.filter (fun w => w.p ≠ p || (match w.who with | .cmd _ => true | _ => false)))

/-- Start a reclaim (R287 steps 1 to 3); with no engine to wait for, it finishes at once. A GO while RUNNING = 1 starts
nothing (R288). -/
def State.startReclaim (s : State) (p : Nat) : State :=
  if s.rd .HB_RECLAIM_RUNNING p = 1 then s
  else
    let c := StopCause.reclaim p
    let s1 := ((s.wr .HB_RECLAIM_RUNNING 1 p).emptyPreloads c).wr .GEO_GROW_CTRL_REQ 0 p
    let s2 := (s1.wr .GEO_GROW_WANT_BYTES 0 p).abandon p
    let s3 := (s2.liveQueues p).foldl (fun s q => (s.wr .HB_Q_CTRL_EN 0 p q).wr .HB_Q_CTRL_DESTROYING 1 p q) s2
    let s4 := (s3.dropStops (fun x => x.cause.part = p && (match x.cause with | .func _ _ => false | _ => true))
      ).abortWaiting c
    let ws := s4.holders c
    if ws = [] then s4.finishReclaim p
    else
      let (id, s5) := (s4.tellMembers c).takeId
      { s5 with hb := { s5.hb with stops := s5.hb.stops ++ [⟨id, c, ws⟩] } }

/-! ### Teardown by fault -/

/-- The last acknowledgement of a teardown by fault (R315 steps 3 and 4); on a member chip it is answered to the home
chip. -/
def State.finishFault (s : State) (p : Nat) : State :=
  let s0 := s.dropLaunches (.fault p)
  if !s.homed p then s0 else
  let s1 := s0.wr .SCH_FAULT_CTRL_STOPPED 1 p
  if s1.rd .SCH_FAULT_CTRL_AUTO p = 1 then s1.startReclaim p else s1

/-- Start a teardown by a fault on the home chip (R315, R316): `e` is the FAULT record. -/
def State.tearDownHome (s : State) (p : Nat) (e : Ev) : State :=
  if s.rd .HB_RECLAIM_RUNNING p = 1 then s
  else if s.rd .SCH_FAULT_CTRL_FAULTED p = 1 then s.count .SCH_FAULT_CTRL_MORE 1 p
  else
    let c := StopCause.fault p
    let s1 := ((s.wr .SCH_FAULT_STATUS e.status p).wr .SCH_FAULT_CTRL_FAULTED 1 p).raisePart p e
    let s2 : State := { s1.emptyPreloads c with sched := { s1.sched with saved := s1.sched.saved.filter (fun x => x.p ≠ p) } }
    let s3 : State := { s2 with vats := s2.vats.map (fun (v : Nat × Vat) => (v.1, { v.2 with preempt := v.2.preempt.filter (fun x => x ≠ p) })) }
    let s3 := s3.dropMigrations p
    let ws := s3.holders c
    if ws = [] then s3.finishFault p
    else
      let (id, s4) := (s3.tellMembers c).takeId
      { s4 with hb := { s4.hb with stops := s4.hb.stops ++ [⟨id, c, ws⟩] } }

/-- The FAULT record of a teardown (R317). -/
def faultEv (pos p source status vat queue p0 p1 : Nat) : Ev where
  kind := 0x0C
  src := p
  status := status
  detail := source * 2 ^ 28 + pos * 2 ^ 24 + vat * 2 ^ 16 + queue
  p0 := p0
  p1 := p1

/-- A fault tears partition p down (R315): on its home chip, or by a message to it. -/
def State.tearDown (s : State) (p source status vat queue p0 p1 : Nat) : State :=
  let e := faultEv s.pos p source status vat queue p0 p1
  match s.part p with
  | some r =>
    if r.home = s.pos then s.tearDownHome p e
    else s.feltReq r.home 5 p (evRecord e.kind 0 e.src 0 e.status e.detail e.p0 e.p1) .ctl
  | none => s.tearDownHome p e

/-- A failing access of an engine's tile tears the partition down (R340, R369); a stalled one changes nothing more. -/
def State.failTile (s : State) (p vat tag : Nat) : Fail → State
  | .stall => s
  | .fault source status va => s.tearDown p source status vat 0 va tag

/-- The partition's work may be dispatched: it is neither torn down nor reclaimed, and it runs, or it stops by DRAIN (R36). -/
def State.partRuns (s : State) (p : Nat) : Bool :=
  s.rd .SCH_FAULT_CTRL_FAULTED p = 0 && s.rd .HB_RECLAIM_RUNNING p = 0 &&
    (s.funcState p = fnRunning ||
      (s.funcState p = fnStopping && s.hb.stops.any (fun x => x.cause = .func p true)))

/-! ### Acknowledgements -/

/-- What follows a stop's last acknowledgement. -/
def State.finishStop (s : State) (c : StopCause) : State :=
  match c with
  | .queue p q => s.finishQueue p q c true
  | .reclaim p => s.finishReclaim p
  | .fault p => s.finishFault p
  | .func k drain =>
    let s0 := if k = 32 || k = 33 then s.endLead (k - 32) else s
    let s1 := (s0.setFunc k fnStopped).wr .GLB_FUNC_STATE_DRAINED (b2n drain) k
    let e : Ev := { kind := 0x08, detail := b2n drain * 2 ^ 16 + funcIdent s.pos k }
    if k < 32 then s1.raisePart k e else s1.raise 32 e

/-- Start the destruction of a queue (R285 steps 1 to 3). -/
def State.destroyQueue (s : State) (p q : Nat) : State :=
  let c := StopCause.queue p q
  let s1 := ((s.wr .HB_Q_CTRL_EN 0 p q).wr .HB_Q_CTRL_DESTROYING 1 p q).emptyPreloads c
  let s2 := s1.abortWaiting c
  let ws := s2.holders c
  if ws = [] then s2.finishQueue p q c true
  else
    let (id, s3) := s2.takeId
    { s3 with hb := { s3.hb with stops := s3.hb.stops ++ [⟨id, c, ws⟩] } }

end Sys2Proof.Machine
end

