-- ==== Sys2Proof/Machine/Claims.lean ====
section
/-!
DEFINITION. Run-time claims of shared resources (R41 to R47): CLAIM and RELEASE. One command is one request at
GLB_CLAIM_CTRL, or the same request by the management controller.
-/

namespace Sys2Proof.Machine

/-- The number of a requester in a BUSY status (R47). -/
def whoNumber : Requester → Nat
  | .mgc => 0
  | .pf => 1

/-- What a request selects (R45): the resources of the feature, the one that GPIO_SW names, or none: BAD_VALUE. -/
def claimTargets (f r : Nat) : Option (List Nat) :=
  let all := featureRes f
  if all = [] then none
  else if f = gpioSw then (if all.contains r then some [r] else none)
  else if r = 0xFF || all.contains r then some all
  else none

/-- The claim of a resource. -/
def State.claimOf (s : State) (r : Nat) : Option Claim := storeFind s.furn.claims r

/-- The first of a list of resources whose claim satisfies a test. -/
def State.heldBy (s : State) (rs : List Nat) (f : Claim → Bool) : Option (Nat × Claim) :=
  rs.findSome? (fun r => match s.claimOf r with
    | some c => if f c then some (r, c) else none
    | none => none)

/-- The status of a request that meets a held resource (R47). -/
def busyOf (x : Nat × Claim) : Nat := stBusy x.1 x.2.feature x.2.who

/-- The answer of a request: GLB_CLAIM_RESULT shows the PF's (R45). -/
def State.claimAnswer (s : State) (who : Requester) (st : Nat) : State :=
  match who with
  | .pf => s.wr .GLB_CLAIM_RESULT_STATUS st
  | .mgc => s

/-- The status of a claim (R44, R45), OK when nothing selected is held. -/
def State.claimStatus (s : State) (f r : Nat) : Nat :=
  match claimTargets f r with
  | none => stBadValue
  | some rs => match s.heldBy rs (fun _ => true) with
    | some x => busyOf x
    | none => stOk

/-- A claim takes every selected resource, or none of them (R45). -/
def State.claimReq (s : State) (who : Requester) (f r : Nat) : State :=
  let st := s.claimStatus f r
  let s1 := s.claimAnswer who st
  if st = stOk then
    { s1 with furn := { s1.furn with
        claims := ((claimTargets f r).getD []).foldl (fun m x => storePut x ⟨f, whoNumber who⟩ m) s1.furn.claims } }
  else s1

/-- The status of a release (R44, R45). -/
def State.releaseStatus (s : State) (who : Requester) (f r : Nat) : Nat :=
  match claimTargets f r with
  | none => stBadValue
  | some rs =>
    match s.heldBy rs (fun c => c.feature ≠ f) with
    | some x => busyOf x
    | none => match s.heldBy rs (fun _ => true) with
      | none => stFurnish 0x0B (f * 256)
      | some x =>
        if x.2.who = 0xFE then stFurnish 0x16 0
        else if x.2.who ≠ whoNumber who then busyOf x
        else stOk

/-- A released resource: a pin is a high-impedance input again, a timer stands (R45, R502). -/
def State.unclaim (s : State) (r : Nat) : State :=
  let s1 : State := { s with furn := { s.furn with claims := storeErase s.furn.claims r } }
  if r < 16 then
    (s1.wr .GLB_GPIO_OUT_OE (clearBit (s1.rd .GLB_GPIO_OUT_OE) r)).wr .GLB_GPIO_OUT_OUT
      (clearBit (s1.rd .GLB_GPIO_OUT_OUT) r)
  else if r = 0x12 then s1.wr .GLB_ZT2_COUNT 0
  else s1

/-- What stopping a feature ends beside its pins (R45): HOST_WDOG's pulse. -/
def State.stopFeature (s : State) (f : Nat) : State :=
  if f = 0x09 then { s with pins := { s.pins with wdogLow := false } }
  else s

/-- A release stops the feature and frees what was selected (R45). -/
def State.releaseReq (s : State) (who : Requester) (f r : Nat) : State :=
  let st := s.releaseStatus who f r
  let s1 := s.claimAnswer who st
  if st = stOk then (((claimTargets f r).getD []).foldl State.unclaim s1).stopFeature f else s1

/-- The requester can ask: the PF writes GLB_CLAIM_CTRL, whose fields take the request; the MGC runs. -/
def State.claimAsk (s : State) (who : Requester) (op f r : Nat) (act : State → State) : State :=
  match who with
  | .mgc => if s.live && s.mgc.booted then act s else s
  | .pf =>
    if s.pfWrites then
      act (((s.wr .GLB_CLAIM_CTRL_OP op).wr .GLB_CLAIM_CTRL_FEATURE f).wr .GLB_CLAIM_CTRL_RESOURCE r)
    else s

/-- CLAIM (R45). -/
def execClaim (who : Requester) (feature resource : BitVec 8) (s : State) : Host.Outcome State Fault Refusal :=
  .next (s.claimAsk who 1 feature.toNat resource.toNat (fun s => s.claimReq who feature.toNat resource.toNat))

/-- RELEASE (R45). -/
def execRelease (who : Requester) (feature resource : BitVec 8) (s : State) : Host.Outcome State Fault Refusal :=
  .next (s.claimAsk who 2 feature.toNat resource.toNat (fun s => s.releaseReq who feature.toNat resource.toNat))

/-- Every selected resource of the feature is held by it: the feature works (R44). -/
def State.featureOn (s : State) (f : Nat) : Bool :=
  featureRes f ≠ [] && (featureRes f).all (fun r => match s.claimOf r with
    | some c => c.feature = f
    | none => false)

end Sys2Proof.Machine
end

