-- ==== Sys2Proof/Machine/Operands.lean ====
section
/-!
DEFINITION. The instruction word of BPC and its operands (R90 to R101, R520, R521): decoding a word, which forms, modifiers
and operands an opcode takes, and reading and writing operands of a quire.
-/

namespace Sys2Proof.Machine

/-- An instruction: its fields (R90), the second word of a long form, and its size in words. -/
structure BInst where
  pc : Nat
  op : Nat
  fmt : Nat
  gneg : Bool
  gpred : Nat
  d : Nat
  a : Nat
  b : Nat
  c : Nat
  mod : Nat
  x : Nat
  size : Nat
deriving DecidableEq, Repr

/-- A first word whose FMT takes a second word (R91). -/
def isLong (w : Nat) : Bool := let f := bits w 55 53; f = 1 || f = 2 || f = 3

/-- The instruction at word index `pc`, if the code holds one there. -/
def decodeInst (code : List Dword) (pc : Nat) : Option BInst :=
  match code[pc]? with
  | none => none
  | some w64 =>
    let w := w64.toNat
    some ⟨pc, bits w 63 56, bits w 55 53, bitAt w 52, bits w 51 49, bits w 48 40, bits w 39 31, bits w 30 22,
      bits w 21 13, bits w 12 0, (code.getD (pc + 1) 0).toNat, if isLong w then 2 else 1⟩

/-- Word index `n` is an instruction start (R88); `second` says that the head is a long form's second word. -/
def isStart : List Dword → Bool → Nat → Bool
  | [], _, _ => false
  | _ :: _, second, 0 => !second
  | w :: ws, second, n + 1 => isStart ws (!second && isLong w.toNat) n

/-- The word index after an instruction. -/
def BInst.next (i : BInst) : Nat := i.pc + i.size

/-- The target of a displacement, signed in words, from the first word (R105); one below 0 lies past any code. -/
def BInst.target (i : BInst) : Nat :=
  let t : Int := i.pc + sext 64 i.x
  if t < 0 then 2 ^ 64 else t.toNat

/-! ### Modifier fields (R100) -/

/-- TYPE or DTYPE. -/
def BInst.ty (i : BInst) : Nat := bits i.mod 12 10
/-- ROUND of the ALU layout. -/
def BInst.round (i : BInst) : Nat := bits i.mod 9 8
/-- ABS_B, NEG_B, ABS_A, NEG_A, SAT. -/
def BInst.absB (i : BInst) : Bool := bitAt i.mod 7
/-- NEG_B. -/
def BInst.negB (i : BInst) : Bool := bitAt i.mod 6
/-- ABS_A. -/
def BInst.absA (i : BInst) : Bool := bitAt i.mod 5
/-- NEG_A. -/
def BInst.negA (i : BInst) : Bool := bitAt i.mod 4
/-- SAT. -/
def BInst.sat (i : BInst) : Bool := bitAt i.mod 3
/-- COND of the CMP layout: [9:8] and [7:6] together. -/
def BInst.cond (i : BInst) : Nat := bits i.mod 9 6
/-- COMBINE. -/
def BInst.combine (i : BInst) : Nat := bits i.mod 5 4
/-- STYPE. -/
def BInst.sty (i : BInst) : Nat := bits i.mod 9 7
/-- ROUND of the CVT layout. -/
def BInst.cvtRound (i : BInst) : Nat := bits i.mod 6 5
/-- ALT. -/
def BInst.alt (i : BInst) : Bool := bitAt i.mod 4
/-- FMT of the CVT layout. -/
def BInst.cfmt (i : BInst) : Bool := bitAt i.mod 3
/-- SPACE of the MEM and ATM layouts: 0 global, 1 local, 2 tile, 3 constant. -/
def BInst.space (i : BInst) : Nat := bits i.mod 12 11
/-- SIGN of the MEM layout; NORET of the ATM layout. -/
def BInst.bit10 (i : BInst) : Bool := bitAt i.mod 10
/-- SIZE of the MEM layout. -/
def BInst.size3 (i : BInst) : Nat := bits i.mod 9 7
/-- CACHE of the MEM layout. -/
def BInst.cache (i : BInst) : Nat := bits i.mod 6 5
/-- ORDER of the MEM layout. -/
def BInst.memOrder (i : BInst) : Nat := bits i.mod 4 3
/-- SIZE of the ATM layout. -/
def BInst.size2 (i : BInst) : Nat := bits i.mod 9 8
/-- ORDER of the ATM layout. -/
def BInst.atmOrder (i : BInst) : Nat := bits i.mod 5 4
/-- KEEP (R99). -/
def BInst.keep (i : BInst) : Nat := bits i.mod 2 0

/-- The modifier layouts (R100), with the TYPEs that an opcode lists. -/
inductive Layout
  | alu (types : List Nat)
  | cmp (types : List Nat)
  | cvt
  | mem
  | atm
  | own
  | none
deriving DecidableEq, Repr

/-- TYPE sets of the opcode map. -/
def tI : List Nat := [0, 1, 2, 3]
/-- U32 and S32. -/
def tI32 : List Nat := [0, 1]
/-- S32 and S64. -/
def tS : List Nat := [1, 3]
/-- U32 and U64. -/
def tU : List Nat := [0, 2]
/-- F32, F16X2, BF16X2. -/
def tF : List Nat := [4, 5, 6]
/-- F32. -/
def tF32 : List Nat := [4]
/-- Every TYPE but 7. -/
def tAll : List Nat := [0, 1, 2, 3, 4, 5, 6]

/-- What an opcode takes: forms (by FMT), modifier layout, and which of the operand fields D, A, B, C it uses. -/
structure OpSpec where
  forms : List Nat
  lay : Layout
  d : Bool
  a : Bool
  b : Bool
  c : Bool
deriving DecidableEq, Repr

/-- The opcode map (R102 to R105). -/
def opSpec (op : Nat) : Option OpSpec :=
  if [0x01, 0x02, 0x03, 0x04, 0x06, 0x07, 0x08, 0x09, 0x0C, 0x0D, 0x0E, 0x10, 0x11].contains op then
    some ⟨[0, 1], .alu tI, true, true, true, false⟩
  else if [0x05, 0x17].contains op then some ⟨[0, 1, 2], .alu tI, true, true, true, true⟩
  else if op = 0x0A then some ⟨[0], .alu tS, true, true, false, false⟩
  else if [0x0B, 0x0F].contains op then some ⟨[0], .alu tI, true, true, false, false⟩
  else if op = 0x12 then some ⟨[0, 1], .alu tI32, true, true, true, false⟩
  else if [0x13, 0x18].contains op then some ⟨[0, 1, 2], .alu tI32, true, true, true, true⟩
  else if [0x14, 0x15, 0x16].contains op then some ⟨[0], .alu tU, true, true, false, false⟩
  else if [0x20, 0x21, 0x22, 0x24, 0x25].contains op then some ⟨[0, 1], .alu tF, true, true, true, false⟩
  else if op = 0x23 then some ⟨[0, 1, 2], .alu tF, true, true, true, true⟩
  else if op = 0x26 then some ⟨[0], .alu tF, true, true, false, false⟩
  else if [0x27, 0x2F].contains op then some ⟨[0, 1], .alu tF32, true, true, true, false⟩
  else if [0x28, 0x29, 0x2A, 0x2B, 0x2C, 0x2D, 0x2E, 0x56].contains op then
    some ⟨[0], .alu tF32, true, true, false, false⟩
  else if [0x40, 0x41, 0x42, 0x44, 0x45].contains op then some ⟨[0], .cvt, true, true, false, false⟩
  else if op = 0x43 then some ⟨[0, 1], .cvt, true, true, true, false⟩
  else if op = 0x50 then some ⟨[0, 1], .cmp tI, true, true, true, true⟩
  else if op = 0x51 then some ⟨[0, 1], .cmp tF, true, true, true, true⟩
  else if op = 0x52 then some ⟨[0, 1], .cmp tI32, true, true, true, false⟩
  else if op = 0x53 then some ⟨[0, 1], .cmp tF32, true, true, true, false⟩
  else if op = 0x54 then some ⟨[0, 1], .alu tAll, true, true, true, true⟩
  else if op = 0x55 then some ⟨[0], .own, true, true, true, true⟩
  else if op = 0x57 then some ⟨[0, 1], .alu tAll, true, false, true, false⟩
  else if op = 0x58 then some ⟨[0], .alu tAll, true, false, false, false⟩
  else if op = 0x59 then some ⟨[0, 1], .alu tAll, false, true, true, false⟩
  else if [0x60, 0x61, 0x62].contains op then some ⟨[0], .alu tAll, true, false, false, true⟩
  else if [0x63, 0x64, 0x65, 0x66].contains op then some ⟨[0, 1], .alu tAll, true, true, true, false⟩
  else if op = 0x67 then some ⟨[0], .alu tAll, true, true, false, false⟩
  else if [0x70, 0x76, 0x77, 0x78, 0x79, 0x7A, 0x94, 0xD2, 0xD3].contains op then
    some ⟨[0], .none, false, false, false, false⟩
  else if [0x71, 0x75].contains op then some ⟨[3], .none, false, false, false, false⟩
  else if [0x72, 0x74, 0x80, 0x81, 0xB5, 0xC9, 0xD1].contains op then some ⟨[0], .none, false, true, false, false⟩
  else if op = 0x73 then some ⟨[3], .none, true, false, false, false⟩
  else if op = 0x7B then some ⟨[0, 3], .none, false, false, false, false⟩
  else if op = 0x82 then some ⟨[0], .own, true, true, false, true⟩
  else if op = 0x90 then some ⟨[0, 3], .mem, true, true, false, false⟩
  else if op = 0x91 then some ⟨[0, 3], .mem, false, true, true, false⟩
  else if [0x92, 0xD0].contains op then some ⟨[0], .own, false, false, false, false⟩
  else if op = 0x93 then some ⟨[0, 3], .mem, false, true, false, false⟩
  else if [0xA0, 0xA1, 0xA2, 0xA3, 0xA4, 0xA5, 0xA6, 0xA8, 0xA9, 0xAA].contains op then
    some ⟨[0, 3], .atm, true, true, true, false⟩
  else if op = 0xA7 then some ⟨[0, 3], .atm, true, true, true, true⟩
  else if [0xB0, 0xB7].contains op then some ⟨[0], .none, false, op = 0xB0, true, false⟩
  else if op = 0xB1 then some ⟨[0, 1], .none, true, true, true, false⟩
  else if op = 0xB2 then some ⟨[0, 3], .none, true, true, true, false⟩
  else if [0xB3, 0xB4, 0xB6, 0xC8].contains op then some ⟨[0], .none, true, true, false, false⟩
  else if op = 0xC0 then some ⟨[0, 3], .none, true, true, false, false⟩
  else if [0xC1, 0xC3].contains op then some ⟨[0], .own, true, true, true, false⟩
  else if op = 0xC2 then some ⟨[0, 3], .own, false, true, true, false⟩
  else none

/-- TLD, TMMA, TST, TCVT. -/
def isTensor (op : Nat) : Bool := op = 0xC0 || op = 0xC1 || op = 0xC2 || op = 0xC3

/-! ### Which encodings are legal -/

/-- The MOD bits that an opcode with a layout of its own uses. -/
def ownMask (op : Nat) : Nat :=
  if op = 0x55 then 0x1E30
  else if op = 0x82 then 0x18
  else if op = 0x92 then 0x3
  else if op = 0xD0 then 0x1FFF
  else if op = 0xC1 then 0x1C
  else if op = 0xC2 then 0x1
  else if op = 0xC3 then 0x1F00
  else 0

/-- The CVT layout's fields by opcode (R520). -/
def cvtOk (i : BInst) : Bool :=
  if i.op = 0x40 then i.ty ≠ 7 && i.sty ≠ 7 && !i.alt && !i.cfmt
  else if i.op = 0x41 then i.ty = 0 && i.sty = 0 && i.cvtRound = 0
  else if i.op = 0x42 then i.ty = 0 && i.sty = 0 && i.cvtRound = 0 && !i.alt
  else if i.op = 0x43 then (i.ty = 5 || i.ty = 6) && i.sty = 0 && !i.alt && !i.cfmt
  else if i.op = 0x44 then (i.sty = 5 || i.sty = 6) && i.ty = 0 && i.cvtRound = 0 && !i.cfmt
  else i.ty < 2 && i.sty < 2 && i.cvtRound = 0 && !i.alt

/-- ALU modifiers (R100, R109). -/
def aluOk (i : BInst) (types : List Nat) : Bool :=
  types.contains i.ty &&
  (if i.ty < 4 then i.round = 0 && !i.absA && !i.absB && !i.negA && !i.negB &&
      (!i.sat || [0x01, 0x02, 0x17, 0x05, 0x0A].contains i.op)
   else !(i.op = 0x2F && (i.absB || i.negB)) &&
      !([0x27, 0x28, 0x29, 0x2A, 0x2B, 0x2C, 0x2D, 0x2E].contains i.op && i.round ≠ 0))

/-- MEM modifiers (R100, R105, R111). -/
def memOk (i : BInst) : Bool :=
  i.size3 < 5 && i.cache < 3 && i.memOrder < 2 &&
  (if i.op = 0x91 then i.space ≠ 3 && !i.bit10
   else if i.op = 0x93 then i.space = 0 && !i.bit10 && i.size3 = 0 && i.cache < 2 && i.memOrder = 0
   else true)

/-- ATM modifiers (R100, R112). -/
def atmOk (i : BInst) : Bool :=
  i.space < 2 && 2 ≤ i.size2 && !(i.op = 0xAA && i.size2 = 3) &&
  (!bitAt i.mod 3 || [0xA4, 0xA5, 0xA8, 0xA9].contains i.op)

/-- Modifiers by layout (R100). -/
def modOk (i : BInst) (l : Layout) : Bool :=
  match l with
  | .alu types => aluOk i types
  | .cmp types => types.contains i.ty && i.cond < 8 && i.combine < 3 && !bitAt i.mod 3 &&
      !((i.op = 0x52 || i.op = 0x53) && i.combine ≠ 0)
  | .cvt => cvtOk i
  | .mem => memOk i
  | .atm => atmOk i
  | .own => i.mod &&& (0x1FFF - ownMask i.op) = 0 &&
      (i.op ≠ 0x55 || i.combine < 3) && (i.op ≠ 0x82 || bits i.mod 4 3 < 3) && (i.op ≠ 0xC1 || bits i.mod 4 3 < 3)
  | .none => i.mod = 0

/-- Operand kinds (R93). -/
inductive OKind | v | s | p | t | special | const
deriving DecidableEq, Repr

/-- The kind of an operand field (R93). -/
def okind (f : Nat) : OKind :=
  if f < 256 then .v else if f < 320 then .s else if f < 328 then .p else if f < 336 then .t
  else if f < 352 then .special else .const

/-- A source that a uniform instruction may read (R96): s registers, quire-wide special values, constants. -/
def uniformSrc (f : Nat) : Bool :=
  match okind f with
  | .s => true
  | .t => true
  | .special => 341 ≤ f
  | .const => true
  | _ => false

/-- Words of D, A, B and C: 1, 2 or 4 (R95, R102 to R112, R118). -/
def widths (i : BInst) : Nat × Nat × Nat × Nat :=
  let w := if i.ty = 2 || i.ty = 3 then 2 else 1
  match (opSpec i.op).map OpSpec.lay with
  | some (.alu _) =>
    if i.op = 0x54 then (w, w, w, 1)
    else if [0x60, 0x61, 0x62, 0x58, 0x59].contains i.op then (1, 1, 1, 1)
    else if [0x63, 0x64, 0x65, 0x66].contains i.op then (w, w, 1, 1)
    else (w, w, w, w)
  | some (.cmp _) => (1, w, w, 1)
  | some .cvt =>
    if i.op = 0x40 then (w, if i.sty = 2 || i.sty = 3 then 2 else 1, 1, 1) else (1, 1, 1, 1)
  | some .mem =>
    let d := if i.size3 = 4 then 4 else if i.size3 = 3 then 2 else 1
    (d, if i.space = 0 then 2 else 1, d, 1)
  | some .atm =>
    let d := if i.size2 = 3 then 2 else 1
    (d, if i.space = 0 then 2 else 1, d, d)
  | _ =>
    if i.op = 0xB0 || i.op = 0xB2 || i.op = 0xB7 then (1, 1, 2, 1)
    else if i.op = 0xB1 || i.op = 0xB3 || i.op = 0xC8 then (2, 1, 1, 1)
    else if i.op = 0xC9 then (1, 2, 1, 1)
    else (1, 1, 1, 1)

/-- An operand group is aligned and lies in one register kind (R95). -/
def groupOk (f k : Nat) : Bool :=
  match okind f with
  | .v => f % k = 0
  | .s => (f - 256) % k = 0
  | .p => k = 1
  | .t => k = 1
  | _ => true

/-- The destination kinds (R94, R521). -/
def destOk (i : BInst) (o : OpSpec) : Bool :=
  if !o.d || (o.lay = .atm && i.bit10) then i.d = 0
  else
    let k := okind i.d
    if [0x50, 0x51, 0x55, 0x60, 0x61].contains i.op then k = .p
    else if i.op = 0x82 then if bits i.mod 4 3 < 2 then k = .p else k = .v || k = .s
    else if i.op = 0x67 || i.op = 0x73 then k = .s
    else k = .v || k = .s

/-- The sources that the instruction reads from operand fields: (field, words). -/
def sources (i : BInst) (o : OpSpec) : List (Nat × Nat) :=
  let w := widths i
  (if o.a then [(i.a, w.2.1)] else []) ++
  (if o.b && i.fmt ≠ 1 then [(i.b, w.2.2.1)] else []) ++
  (if o.c && i.fmt ≠ 2 && !([0x50, 0x51, 0x55].contains i.op && i.combine = 0) then [(i.c, w.2.2.2)] else [])

/-- Predicate operands where the opcode reads predicates (R521). -/
def predsOk (i : BInst) : Bool :=
  if [0x50, 0x51, 0x55].contains i.op then
    (if i.combine = 0 then i.c = 0 else okind i.c = .p) &&
      (i.op ≠ 0x55 || (okind i.a = .p && okind i.b = .p))
  else if [0x60, 0x61, 0x62, 0x54, 0x82].contains i.op then okind i.c = .p
  else if [0x72, 0x74, 0xD1].contains i.op then okind i.a = .s
  else true

/-- Tensor operand kinds (R152, R106). -/
def tensorOk (i : BInst) : Bool :=
  if i.op = 0xC0 then okind i.d = .t && okind i.a = .s && i.b = 0 && i.c = 0 && (i.a - 256) % 2 = 0
  else if i.op = 0xC1 then okind i.d = .t && okind i.a = .t && okind i.b = .t && i.c = 0 &&
    !(bits i.mod 4 3 = 2 && i.d = 335)
  else if i.op = 0xC2 then i.d = 0 && okind i.a = .t && okind i.b = .s && i.c = 0 && (i.b - 256) % 2 = 0
  else okind i.d = .t && okind i.a = .t && okind i.b = .s && i.c = 0

/-- The instruction is legal: opcode, form, modifiers, operands (R91, R94 to R96, R100, R101, R520, R521). PGET reads
predicates, which are per-thread registers, so it takes no s destination (R96). -/
def legal (i : BInst) : Bool :=
  match opSpec i.op with
  | none => false
  | some o =>
    o.forms.contains i.fmt && (i.fmt ≠ 1 || i.b = 0) && (i.fmt ≠ 2 || i.c = 0) && modOk i o.lay &&
    (if isTensor i.op then tensorOk i
     else destOk i o && predsOk i && (sources i o).all (fun x => groupOk x.1 x.2) &&
      (!o.d || groupOk i.d (if okind i.d = .p then 1 else (widths i).1)) &&
      (okind i.d ≠ .s || !o.d || [0x67, 0x62, 0x82].contains i.op ||
        (i.op ≠ 0x58 && (sources i o).all (fun x => uniformSrc x.1))))

/-- The first v operand at or above V (R94): A, B, C, then D; a group that reaches V counts. -/
def rangeFault (i : BInst) (vmax : Nat) : Option Nat :=
  match opSpec i.op with
  | none => none
  | some o =>
    let dst := if o.d && !(o.lay = .atm && i.bit10) then [(i.d, (widths i).1)] else []
    ((sources i o ++ dst).find? (fun x => okind x.1 = .v && decide (vmax < x.1 + x.2))).map (·.1)

/-! ### Reading and writing -/

/-- A lane of a v register: its value, or the value that nothing has written: 0 after a restore (R121), otherwise a free
value. -/
def Quire.vreg (q : Quire) (r lane : Nat) : Nat :=
  match storeFind q.v (32 * r + lane) with
  | some x => x.toNat
  | none => match q.seed with
    | some n => (Config.newReg n (32 * r + lane)).toNat
    | none => 0

/-- An s register. -/
def Quire.sreg (q : Quire) (r : Nat) : Nat :=
  match storeFind q.s r with
  | some x => x.toNat
  | none => match q.seed with
    | some n => (Config.newSreg n r).toNat
    | none => 0

/-- A predicate register as a mask of lanes; p0 is always true (R93). -/
def Quire.preg (q : Quire) (k : Nat) : Nat :=
  if k = 0 then 2 ^ 32 - 1
  else match storeFind q.pr k with
    | some x => x.toNat
    | none => match q.seed with
      | some n => (Config.newPred n k).toNat
      | none => 0

/-- Where an instruction runs: its place, quire, block, launch, and the instruction. -/
structure BCtx where
  vat : Nat
  slot : Nat
  q : Quire
  blk : Block
  l : Launch
  i : BInst
deriving DecidableEq, Repr

/-- BLOCK.X, BLOCK.Y, BLOCK.Z: X fastest (R250). -/
def Launch.coord (l : Launch) (idx : Nat) : Nat × Nat × Nat :=
  (idx % l.gx, idx / l.gx % l.gy, idx / (l.gx * l.gy))

/-- Threads of a block (R56). -/
def Launch.threads (l : Launch) : Nat := l.bx * l.by' * l.bz

/-- A special value (R93). -/
def BCtx.special (c : BCtx) (f lane : Nat) : Nat :=
  let t := 32 * c.q.idx + lane
  let (x, y, z) := c.l.coord c.blk.index
  match f with
  | 336 => t % c.l.bx
  | 337 => t / c.l.bx % c.l.by'
  | 338 => t / (c.l.bx * c.l.by')
  | 339 => lane
  | 340 => 2 ^ lane - 1
  | 341 => c.q.idx
  | 342 => x
  | 343 => y
  | 344 => z
  | 345 => c.l.gx
  | 346 => c.l.gy
  | 347 => c.l.gz
  | 348 => c.l.threads
  | 349 => c.q.active.toNat
  | 350 => (c.l.tiles[x]?.map (·.1)).getD 0xFFFFFFFF
  | _ => (c.l.tiles[x]?.map (·.2)).getD 0

/-- A constant operand's 32-bit pattern (R93). -/
def constVal (f : Nat) : Nat :=
  if f < 416 then f - 352
  else if f < 448 then wrapN 32 ((f : Int) - 448)
  else if f < 480 then (f - 464 + 127) * 2 ^ 23
  else 2 ^ 31 + (f - 496 + 127) * 2 ^ 23

/-- A constant of `k` words: an integer is sign-extended, an FP32 constant zero-extended (R93). -/
def constWide (f k : Nat) : Nat :=
  if f < 448 then wrapN (32 * k) (sext 32 (constVal f)) else constVal f

/-- An operand of `k` words in a lane (R93, R95). A predicate reads as 1 or 0; a tile handle's value is not stated and is
free. -/
def BCtx.read (c : BCtx) (f k lane : Nat) : Nat :=
  match okind f with
  | .v => ((List.range k).map (fun j => c.q.vreg (f + j) lane * 2 ^ (32 * j))).sum
  | .s => ((List.range k).map (fun j => c.q.sreg (f - 256 + j) * 2 ^ (32 * j))).sum
  | .p => b2n (bitAt (c.q.preg (f - 320)) lane)
  | .t => (Config.undefinedWord f).toNat
  | .special => c.special f lane
  | .const => constWide f k

/-- Operand A, B or C of an instruction, with the immediate of forms B and C (R91, R92). -/
def BCtx.opA (c : BCtx) (lane : Nat) : Nat := c.read c.i.a (widths c.i).2.1 lane
/-- Operand B. -/
def BCtx.opB (c : BCtx) (lane : Nat) : Nat :=
  let k := (widths c.i).2.2.1
  if c.i.fmt = 1 then c.i.x % 2 ^ (32 * k) else c.read c.i.b k lane
/-- Operand C. -/
def BCtx.opC (c : BCtx) (lane : Nat) : Nat :=
  let k := (widths c.i).2.2.2
  if c.i.fmt = 2 then c.i.x % 2 ^ (32 * k) else c.read c.i.c k lane

/-- The lanes of a quire that execute an instruction (R97). -/
def execLanes (q : Quire) (i : BInst) : Nat :=
  let g := q.preg i.gpred
  q.active.toNat &&& (if i.gneg then 2 ^ 32 - 1 - g else g)

/-- The executing lanes, ascending. -/
def BCtx.lanes (c : BCtx) : List Nat := bitIdx 32 (execLanes c.q c.i)

/-- The lanes that compute: one for a uniform instruction (R96). -/
def BCtx.doers (c : BCtx) : List Nat := if okind c.i.d = .s then c.lanes.take 1 else c.lanes

/-- Write a register group in a lane: v lanes, or the quire's s registers (R93, R95). -/
def Quire.putGroup (q : Quire) (f k lane x : Nat) : Quire :=
  (List.range k).foldl (fun q j => q.putReg (f + j) lane (x / 2 ^ (32 * j) % 2 ^ 32)) q

/-- Write predicate bits: lanes of `mask` take the bits of `x`; writes to p0 are discarded (R94). -/
def Quire.putPred (q : Quire) (k mask x : Nat) : Quire :=
  if k = 0 then q
  else { q with pr := storePut k (BitVec.ofNat 32 (andNot (q.preg k) mask ||| (x &&& mask))) q.pr }

/-- Write D in each of the lanes with its value (R93 to R96). -/
def BCtx.writeD (c : BCtx) (vals : List (Nat × Nat)) : Quire :=
  if okind c.i.d = .p then
    c.q.putPred (c.i.d - 320) (maskOf (vals.map (·.1))) (maskOf ((vals.filter (fun x => x.2 % 2 = 1)).map (·.1)))
  else vals.foldl (fun q x => q.putGroup c.i.d (widths c.i).1 x.1 x.2) c.q

/-- The quire that goes on at the next instruction. -/
def Quire.goTo (q : Quire) (pc : Nat) : Quire := { q with pc := pc }

/-- Put a quire back. -/
def BCtx.put (c : BCtx) (s : State) (q : Quire) : State := s.setQuire c.vat c.slot q

/-! ### The register cache (R52, R53, R99) -/

/-- The v registers that an instruction reads: (letter mask of KEEP, register). -/
def srcRows (i : BInst) (o : OpSpec) : List (Nat × Nat) :=
  let w := widths i
  let rows (bit f k : Nat) : List (Nat × Nat) := if f < 256 then (List.range k).map (fun j => (bit, f + j)) else []
  (if o.a then rows 1 i.a w.2.1 else []) ++ (if o.b && i.fmt ≠ 1 then rows 2 i.b w.2.2.1 else []) ++
    (if o.c && i.fmt ≠ 2 then rows 4 i.c w.2.2.2 else [])

/-- The sources that a keep code names, as a letter mask: 1 A, 2 B, 4 C (R99). -/
def keepMask (k : Nat) : Nat := [0, 1, 2, 4, 3, 5, 6, 7].getD k 0

/-- Touch a row: it becomes the most recently used of 32. -/
def rcTouch (l : List Nat) (row : Nat) : List Nat := (row :: l.filter (fun x => x ≠ row)).take 32

/-- The counts and the cache after an instruction's reads and writes (R52, R53). -/
def State.rcStep (s : State) (c : BCtx) : State :=
  match opSpec c.i.op with
  | none => s
  | some o =>
    let l := storeGet [] (s.vat c.vat).rc c.q.sched
    let rows := srcRows c.i o
    let hit := rows.filter (fun r => l.contains (256 * c.slot + r.2))
    let miss := (rows.filter (fun r => !l.contains (256 * c.slot + r.2))).map (·.2) |>.eraseDups
    let stalls := miss.length - ((miss.map (· % 4)).eraseDups).length
    let hasKeep := match o.lay with
      | .own => false
      | .none => false
      | _ => true
    let kept := rows.filter (fun r => hasKeep && r.1 &&& keepMask c.i.keep ≠ 0)
    let dst := if o.d && c.i.d < 256 && !(isTensor c.i.op) then (List.range (widths c.i).1).map (fun j => c.i.d + j) else []
    let l1 := (hit.map (·.2) ++ kept.map (·.2) ++ dst).foldl (fun l r => rcTouch l (256 * c.slot + r)) l
    let v := s.vat c.vat
    ((s.setVat c.vat { v with rc := storePut c.q.sched l1 v.rc }).count .VAT_RC_HITS_COUNT hit.length c.vat).count
      .VAT_BANK_STALLS_COUNT stalls c.vat

end Sys2Proof.Machine
end

