-- ==== Sys2Proof/Machine/Raster.lean ====
section
/-!
DEFINITION. Clipping and set-up (R181, R182), coverage (R183) and interpolation (R184) of primitives. Window coordinates are
integers in 1/256 pixel; row 0 is the top row, so y grows downward.
-/

namespace Sys2Proof.Machine

/-- 1.0 in FP32. -/
def f32One : Nat := 0x3F800000
/-- 0.5 in FP32. -/
def f32Half : Nat := 0x3F000000
/-- The value of an FP32 pattern. -/
def fv (x : Nat) : FVal := fF32.decode x
/-- An integer as a value. -/
def fvInt (x : Int) : FVal := .fin (decide (x < 0)) x.natAbs 0
/-- a − b, exact. -/
def fvSub (a b : FVal) : FVal := fvAdd .ne a b.negate

/-! ### Clipping (R181) -/

/-- Coordinate k of a vertex: x, y, z, w, then the varyings. -/
def vget (v : Vertex) (k : Nat) : Nat := v.getD k 0

/-- The distances to the planes in the order in which they clip: z = 0, z = w, then the guard band's left, right, top and
bottom, for a target of `wd` by `ht` pixels. Inside is 0 or more. -/
def clipDist (wd ht : Nat) (v : Vertex) : Nat → FVal
  | 0 => fv (vget v 2)
  | 1 => fvSub (fv (vget v 3)) (fv (vget v 2))
  | 2 => fvAdd .ne (edge wd 0) (fvMul (fvInt 32768) (fv (vget v 3)))
  | 3 => fvSub (fvMul (fvInt 32766) (fv (vget v 3))) (edge wd 0)
  | 4 => fvAdd .ne (edge ht 1) (fvMul (fvInt 32768) (fv (vget v 3)))
  | _ => fvSub (fvMul (fvInt 32766) (fv (vget v 3))) (edge ht 1)
where
  /-- (c + w) × size: twice the window coordinate times w. -/
  edge (size k : Nat) : FVal := fvMul (fvAdd .ne (fv (vget v k)) (fv (vget v 3))) (fvInt size)

/-- A vertex between a and b at t = d_a ÷ (d_a − d_b): each value is v_a + t × (v_b − v_a), rounded once. -/
def clipMid (da db : FVal) (a b : Vertex) : Vertex :=
  (a.zip b).map (fun x =>
    let n := fvSub (fvMul da (fv x.2)) (fvMul db (fv x.1))
    if n.isZero then 0 else fF32.encode .ne (fvDiv n (fvSub da db)))

/-- A vertex lies outside a plane. -/
def outside (d : FVal) : Bool := fvLt d (.fin false 0 0)

/-- What an edge from a to b adds to a polygon clipped against a plane. -/
def clipEdge (da db : FVal) (a b : Vertex) : List Vertex :=
  if outside da then (if outside db then [] else [clipMid da db a b, b])
  else (if outside db then [clipMid da db a b] else [b])

/-- Clip a closed polygon against one plane. -/
def clipPlane (wd ht k : Nat) (vs : List Vertex) : List Vertex :=
  match vs with
  | [] => []
  | v0 :: _ =>
    let next := vs.drop 1 ++ [v0]
    let es := (vs.zip next).flatMap (fun x => clipEdge (clipDist wd ht x.1 k) (clipDist wd ht x.2 k) x.1 x.2)
    if outside (clipDist wd ht v0 k) then es else (es.getLast?.toList ++ es.dropLast)

/-- Clip a line against one plane. -/
def clipLine (wd ht k : Nat) : List Vertex → List Vertex
  | [a, b] =>
    let da := clipDist wd ht a k
    let db := clipDist wd ht b k
    if outside da then (if outside db then [] else [clipMid da db a b, b])
    else (if outside db then [a, clipMid da db a b] else [a, b])
  | vs => vs.filter (fun v => !outside (clipDist wd ht v k))

/-- Clip a primitive of a kind against every plane. -/
def clipPrim (wd ht kind : Nat) (vs : List Vertex) : List Vertex :=
  (List.range 6).foldl (fun vs k => if kind = 2 then clipPlane wd ht k vs else clipLine wd ht k vs) vs

/-! ### Window coordinates (R181) -/

/-- (c ÷ w + 1) × size × 0.5, each step rounded. -/
def windowCoord (c w size : Nat) : Nat := f32Mul (f32Mul (f32Add (f32Div c w) f32One) (f32OfInt size)) f32Half

/-- A window coordinate in 1/256 pixel, to nearest even. -/
def snapCoord (x : Nat) : Int :=
  match fv x with
  | .fin n m e => signed n (roundInt .ne n m (e + 8))
  | _ => (Config.lostCoord x).toInt

/-- The window coordinate lies outside −16,384 to 16,383. -/
def coordOut (x : Nat) : Bool := fvLt (fv x) (fvInt (-16384)) || fvLt (fvInt 16383) (fv x)

/-- A vertex makes its primitive go to the clipper. -/
def needsClip (wd ht : Nat) (v : Vertex) : Bool :=
  let z := fv (vget v 2)
  let w := fv (vget v 3)
  let zero : FVal := .fin false 0 0
  !fvLt zero w && !w.isNan || fvLt z zero || fvLt w z ||
    coordOut (windowCoord (vget v 0) (vget v 3) wd) || coordOut (windowCoord (vget v 1) (vget v 3) ht)

/-- Set-up of a vertex. -/
def setupVertex (wd ht : Nat) (v : Vertex) : SetVertex :=
  ⟨snapCoord (windowCoord (vget v 0) (vget v 3) wd), snapCoord (windowCoord (vget v 1) (vget v 3) ht),
    f32Div (vget v 2) (vget v 3), vget v 3, v.drop 4⟩

/-- A QUAD's vertex: window x and y, depth; w is 1. -/
def quadVertex (v : Vertex) : SetVertex := ⟨vget v 0, vget v 1, vget v 2, f32One, v.drop 4⟩

/-- (b − a) × (c − a) (R182): positive for a triangle that runs clockwise on the screen. -/
def cross (a b c : Int × Int) : Int := (b.1 - a.1) * (c.2 - a.2) - (c.1 - a.1) * (b.2 - a.2)

/-- The position of a set-up vertex. -/
def SetVertex.pos (v : SetVertex) : Int × Int := (v.x, v.y)

/-- The signed area of a triangle, twice. -/
def triArea (vs : List SetVertex) : Int :=
  match vs with
  | [a, b, c] => cross a.pos b.pos c.pos
  | _ => 0

/-- A triangle faces back: its direction is not FRONT's. -/
def triBack (d : List Byte) (area : Int) : Bool := if dsFront d = 0 then decide (0 < area) else decide (area < 0)

/-- A fan of a polygon from its first vertex. -/
def fanOf : List Vertex → List (List Vertex)
  | v0 :: rest => (rest.zip (rest.drop 1)).map (fun x => [v0, x.1, x.2])
  | [] => []

/-- The primitives that remain of one assembled primitive (R181, R182), with its draw's class. -/
def setupPrim (pd d : List Byte) (id draw : Nat) (vs : List Vertex) : List Prim :=
  let wd := pdWidth pd
  let ht := pdHeight pd
  let kind := primKind (dsTopo d)
  let mk (back : Bool) (sv : List SetVertex) : Prim :=
    { id := id, draw := draw, kind := kind, cls := drawClass pd d, back := back, verts := sv, flat := (vs.headD []).drop 4 }
  if kind = 3 then [mk false (vs.map quadVertex)]
  else
    let cs := if vs.any (needsClip wd ht) then clipPrim wd ht kind vs else vs
    if kind = 2 then
      (fanOf cs).filterMap (fun t =>
        let sv := t.map (setupVertex wd ht)
        let area := triArea sv
        let back := triBack d area
        if area = 0 || (dsCull d = 1 && back) || (dsCull d = 2 && !back) then none else some (mk back sv))
    else if cs.length = kind + 1 then [mk false (cs.map (setupVertex wd ht))]
    else []

/-! ### Coverage (R183) -/

/-- The sample positions in 1/16 pixel. -/
def samplePos (samples k : Nat) : Nat × Nat :=
  ((match samples with
    | 1 => [(8, 8)]
    | 2 => [(4, 4), (12, 12)]
    | _ => [(6, 2), (14, 6), (2, 10), (10, 14)]).getD k (8, 8))

/-- A value 0 on an edge counts inside when the edge is a left edge or a top edge: by the gradient (gx, gy) of the value. -/
def edgeIn (e gx gy : Int) : Bool := decide (0 < e) || (e = 0 && (decide (0 < gx) || (gx = 0 && decide (0 < gy))))

/-- The edge value opposite each vertex of a triangle at a point, positive inside. -/
def triEdges (vs : List SetVertex) (p : Int × Int) : List Int :=
  match vs with
  | [a, b, c] =>
    let s : Int := if triArea vs < 0 then -1 else 1
    [s * cross b.pos c.pos p, s * cross c.pos a.pos p, s * cross a.pos b.pos p]
  | _ => []

/-- A triangle covers a point. -/
def triCovers (vs : List SetVertex) (p : Int × Int) : Bool :=
  match vs with
  | [a, b, c] =>
    let s : Int := if triArea vs < 0 then -1 else 1
    let side (u v : Int × Int) : Bool := edgeIn (s * cross u v p) (s * (u.2 - v.2)) (s * (v.1 - u.1))
    side b.pos c.pos && side c.pos a.pos && side a.pos b.pos
  | _ => false

/-- The dot product (b − a) · (p − a). -/
def dotAlong (a b p : Int × Int) : Int := (b.1 - a.1) * (p.1 - a.1) + (b.2 - a.2) * (p.2 - a.2)

/-- A value c + 128 √l compared with 0, exactly: its sign. -/
def rootSide (c : Int) (l : Nat) : Int :=
  if 0 ≤ c then (if c = 0 ∧ l = 0 then 0 else 1)
  else let t : Int := 16384 * l - c * c
    if t < 0 then -1 else if t = 0 then 0 else 1

/-- A line covers a point: a rectangle one pixel wide about it, half a pixel longer at each end along the major axis; a line
of no length covers a square pixel about its point. -/
def lineCovers (a b p : Int × Int) : Bool :=
  let dx := b.1 - a.1
  let dy := b.2 - a.2
  let l := (dx * dx + dy * dy).natAbs
  if l = 0 then
    edgeIn (p.1 - a.1 + 128) 1 0 && edgeIn (a.1 + 128 - p.1) (-1) 0 &&
      edgeIn (p.2 - a.2 + 128) 0 1 && edgeIn (a.2 + 128 - p.2) 0 (-1)
  else
    let c := cross a b p
    let m : Int := max dx.natAbs dy.natAbs
    let t := dotAlong a b p
    edgeIn (rootSide c l) (-dy) dx && edgeIn (rootSide (-c) l) dy (-dx) &&
      edgeIn (t * m + 128 * l) dx dy && edgeIn ((l - t) * m + 128 * l) (-dx) (-dy)

/-- A QUAD covers a point in 1/256 pixel: its corners are FP32 window coordinates, in either order. -/
def quadCovers (a b : SetVertex) (p : Int × Int) : Bool :=
  let c (v : Int) : FVal := fv v.toNat
  let q (v : Int) : FVal := .fin (decide (v < 0)) v.natAbs (-8)
  let within (u v : Int) (z : Int) : Bool :=
    !fvLt (q z) (fvMin (c u) (c v)) && fvLt (q z) (fvMax (c u) (c v))
  within a.x b.x p.1 && within a.y b.y p.2

/-- A primitive covers a point (before scissor and bounds). -/
def Prim.covers (x : Prim) (p : Int × Int) : Bool :=
  match x.kind, x.verts with
  | 0, [a] => a.x / 256 = p.1 / 256 && a.y / 256 = p.2 / 256
  | 1, [a, b] => lineCovers a.pos b.pos p
  | 2, vs => triCovers vs p
  | 3, [a, b] => quadCovers a b p
  | _, _ => false

/-- The pixel lies in the scissor rectangle and the target. -/
def pixelIn (pd d : List Byte) (x y : Nat) : Bool :=
  decide (x < pdWidth pd) && decide (y < pdHeight pd) && decide (dsScissor d 0 ≤ x) && decide (x < dsScissor d 2) &&
    decide (dsScissor d 1 ≤ y) && decide (y < dsScissor d 3)

/-- The point of sample k of a pixel, in 1/256 pixel. -/
def samplePoint (samples x y k : Nat) : Int × Int :=
  let s := samplePos samples k
  ((256 * x + 16 * s.1 : Nat), (256 * y + 16 * s.2 : Nat))

/-- The pixel at index i of a tile. -/
def tilePixel (pd : List Byte) (tile i : Nat) : Nat × Nat :=
  let gx := (pdGrid pd).1
  (32 * (tile % gx) + i % 32, 32 * (tile / gx) + i / 32)

/-- The samples of pixel i of a tile that a primitive covers, as a mask. -/
def coverMask (pd d : List Byte) (tile : Nat) (x : Prim) (i : Nat) : Nat :=
  let (px, py) := tilePixel pd tile i
  if pixelIn pd d px py then
    maskOf ((List.range (pdSamples pd)).filter (fun k => x.covers (samplePoint (pdSamples pd) px py k)))
  else 0

/-- The pixels of the bounding box of a primitive: x0, y0, x1, y1, inclusive. -/
def Prim.box (x : Prim) : Int × Int × Int × Int :=
  let lo (l : List Int) : Int := l.foldl min (l.headD 0)
  let hi (l : List Int) : Int := l.foldl max (l.headD 0)
  let flr (v : Int) : Int := match fv v.toNat with
    | .fin n m e => signed n (roundInt .dn n m e)
    | .inf n => if n then -(2 ^ 20) else 2 ^ 20
    | .nan => 0
  let xs := x.verts.map (fun v => if x.kind = 3 then flr v.x * 256 else v.x)
  let ys := x.verts.map (fun v => if x.kind = 3 then flr v.y * 256 else v.y)
  let m : Int := if x.kind = 1 then 256 else 0
  ((lo xs - m) / 256, (lo ys - m) / 256, (hi xs + m) / 256, (hi ys + m) / 256)

/-- The tiles that a primitive's bounding box touches after the scissor (R193), ascending. -/
def primTiles (pd d : List Byte) (x : Prim) : List Nat :=
  let (bx0, by0, bx1, by1) := x.box
  let x0 := max bx0 (dsScissor d 0)
  let y0 := max by0 (dsScissor d 1)
  let x1 := min bx1 (min (pdWidth pd) (dsScissor d 2) - 1 : Int)
  let y1 := min by1 (min (pdHeight pd) (dsScissor d 3) - 1 : Int)
  let (gx, gy) := pdGrid pd
  if x1 < x0 || y1 < y0 || x1 < 0 || y1 < 0 then []
  else
    (List.range gy).flatMap (fun ty => if decide ((y0 / 32).toNat ≤ ty) && decide (ty ≤ (y1 / 32).toNat) then
      ((List.range gx).filter (fun tx => decide ((x0 / 32).toNat ≤ tx) && decide (tx ≤ (x1 / 32).toNat))).map
        (fun tx => ty * gx + tx)
      else [])

/-! ### Interpolation (R184) -/

/-- The edge values of a primitive at a point; none where R184 gives none (a QUAD). -/
def Prim.edges (x : Prim) (p : Int × Int) : Option (List Int) :=
  match x.kind, x.verts with
  | 1, [a, b] =>
    if a.pos = b.pos then some [1, 0] else some [dotAlong b.pos a.pos p, dotAlong a.pos b.pos p]
  | 2, vs => some (triEdges vs p)
  | 3, _ => none
  | _, _ => some [1]

/-- (v_0 + v_1) + v_2 in FP32. -/
def f32Sum : List Nat → Nat
  | [] => 0
  | x :: xs => xs.foldl f32Add x

/-- A free value for a QUAD at a point. -/
def Prim.quadAt (x : Prim) (p : Int × Int) (vals : List Nat) : Nat :=
  (Config.quadValue (x.verts.flatMap (fun v => [v.x.toNat, v.y.toNat]) ++ vals ++ [wrapN 32 p.1, wrapN 32 p.2])).toNat

/-- Depth clamped to [0, 1]; a NaN gives 0. -/
def clampDepth (z : Nat) : Nat :=
  fF32.encode .ne (fvMin (fvMax (fv z) (.fin false 0 0)) (.fin false 1 0))

/-- The depth of a primitive at a point, clamped. -/
def Prim.depthAt (x : Prim) (p : Int × Int) : Nat :=
  clampDepth (match x.edges p with
    | none => x.quadAt p (x.verts.map (·.z))
    | some es =>
      match x.verts with
      | [v] => v.z
      | vs =>
        let fs := es.map f32OfInt
        f32Div (f32Sum ((fs.zip vs).map (fun y => f32Mul y.1 y.2.z))) (f32Sum fs))

/-- Varying `k` of a primitive at a point. -/
def Prim.varyAt (x : Prim) (d : List Byte) (p : Int × Int) (k : Nat) : Nat :=
  if Config.flatVarying d k then x.flat.getD k 0
  else match x.edges p with
    | none => x.quadAt p (x.verts.map (fun v => v.vary.getD k 0))
    | some es =>
      match x.verts with
      | [v] => v.vary.getD k 0
      | vs =>
        let qs := (es.zip vs).map (fun y => f32Div (f32OfInt y.1) y.2.w)
        f32Div (f32Sum ((qs.zip vs).map (fun y => f32Mul y.1 (y.2.vary.getD k 0)))) (f32Sum qs)

/-- What a fragment's lane holds at dispatch (R187): x, y, PRIM_ID, the mask of samples, the varyings at the pixel centre. -/
def fragPayload (pd d : List Byte) (tile : Nat) (x : Prim) (i mask : Nat) : List Word :=
  let (px, py) := tilePixel pd tile i
  let c : Int × Int := ((256 * px + 128 : Nat), (256 * py + 128 : Nat))
  ([px, py, x.id, mask] ++ (List.range (dsVary d)).map (x.varyAt d c)).map (BitVec.ofNat 32)

end Sys2Proof.Machine
end

