-- ==== Sys2Proof/Machine/Tiles.lean ====
section
/-!
DEFINITION. What happens to the samples of one tile: attachment formats and conversions (R175, R189), hidden-surface removal
and the ordered late path (R186), stencil and depth tests (R188), blending (R189), resolves (R191), gate masks (R202), and
the rows of memory that a tile loads and stores (R174, R190).
-/

namespace Sys2Proof.Machine

/-! ### Formats -/

/-- A colour channel of a format: its place (0 R, 1 G, 2 B, 3 A), lowest bit, width; FP16 when `float`. -/
structure Chan where
  ch : Nat
  lsb : Nat
  width : Nat
  float : Bool
deriving DecidableEq, Repr

/-- The channels of a colour format (R175); none for U32. -/
def fmtChans (f : Nat) : List Chan :=
  match f with
  | 0 => [⟨0, 0, 8, false⟩, ⟨1, 8, 8, false⟩, ⟨2, 16, 8, false⟩, ⟨3, 24, 8, false⟩]
  | 1 => [⟨2, 0, 8, false⟩, ⟨1, 8, 8, false⟩, ⟨0, 16, 8, false⟩, ⟨3, 24, 8, false⟩]
  | 2 => [⟨0, 0, 10, false⟩, ⟨1, 10, 10, false⟩, ⟨2, 20, 10, false⟩, ⟨3, 30, 2, false⟩]
  | 3 => [⟨0, 0, 16, true⟩, ⟨1, 16, 16, true⟩]
  | _ => []

/-- An FP32 value as an unsigned normalised channel of n bits: clamped to [0, 1], NaN 0, scaled, to nearest even. -/
def toUnorm (n x : Nat) : Nat :=
  let v := fv x
  if v.isNan then 0
  else
    let c := fvMin (fvMax v (.fin false 0 0)) (.fin false 1 0)
    (fvToInt .ne 0 ((2 ^ n - 1 : Nat) : Int) (fvMul c (fvInt ((2 ^ n - 1 : Nat) : Int)))).toNat

/-- A channel's stored bits as FP32. -/
def Chan.read (c : Chan) (v : Nat) : Nat :=
  let x := bits v (c.lsb + c.width - 1) c.lsb
  if c.float then fF32.encode .ne (fF16.decode x) else f32Div (f32OfInt x) (f32OfInt ((2 ^ c.width - 1 : Nat) : Int))

/-- FP32 as a channel's stored bits. -/
def Chan.conv (c : Chan) (x : Nat) : Nat := if c.float then fF16.encode .ne (fv x) else toUnorm c.width x

/-- Replace a channel's bits. -/
def Chan.put (c : Chan) (old x : Nat) : Nat :=
  old - bits old (c.lsb + c.width - 1) c.lsb * 2 ^ c.lsb + x % 2 ^ c.width * 2 ^ c.lsb

/-- A colour (four FP32 patterns) in a format, for the channels of a write mask; U32 takes the first pattern. -/
def putColor (f mask old : Nat) (rgba : List Nat) : Nat :=
  if f = 4 then (if bitAt mask 0 then rgba.getD 0 0 % 2 ^ 32 else old)
  else (fmtChans f).foldl (fun v c => if bitAt mask c.ch then c.put v (c.conv (rgba.getD c.ch 0)) else v) old

/-- Depth as a DS format stores it (R184): FP32, or 24 bits. -/
def convDepth (f z : Nat) : Nat := if f = 6 then toUnorm 24 z else z

/-- The stored depth of a DS value. -/
def depthOf (f v : Nat) : Nat := if f = 6 then v % 2 ^ 24 else v
/-- The stored stencil of a DS value. -/
def stencilOf (f v : Nat) : Nat := if f = 6 then v / 2 ^ 24 else if f = 7 then v else 0
/-- A DS value of depth and stencil. -/
def dsValue (f depth st : Nat) : Nat := if f = 6 then depth + st * 2 ^ 24 else if f = 7 then st else depth

/-! ### Tests (R188) -/

/-- A comparison function on ordered numbers: new against stored. -/
def cmpFn (fn : Nat) (lt eq : Bool) (ordered : Bool) : Bool :=
  match fn with
  | 0 => false
  | 1 => lt
  | 2 => eq
  | 3 => lt || eq
  | 4 => ordered && !lt && !eq
  | 5 => !eq
  | 6 => ordered && !lt
  | _ => true

/-- The depth test: stored representations compared. -/
def depthPass (f fn new old : Nat) : Bool :=
  if f = 6 then cmpFn fn (decide (new < old)) (new = old) true
  else cmpFn fn (fvLt (fv new) (fv old)) (fvEq (fv new) (fv old)) (!(fv new).isNan && !(fv old).isNan)

/-- A stencil operation's value. -/
def stencilOp (op st ref : Nat) : Nat :=
  match op with
  | 0 => st
  | 1 => 0
  | 2 => ref
  | 3 => min 255 (st + 1)
  | 4 => st - 1
  | 5 => 255 - st
  | 6 => (st + 1) % 256
  | _ => (st + 255) % 256

/-! ### Blending (R189) -/

/-- A blend factor of channel `ch`: codes of R178. -/
def blendFactor (code ch : Nat) (s d : List Nat) : Nat :=
  let sc := s.getD ch 0
  let dc := d.getD ch 0
  let sa := s.getD 3 0
  let da := d.getD 3 0
  match code with
  | 0 => 0
  | 1 => f32One
  | 2 => sc
  | 3 => f32Sub f32One sc
  | 4 => sa
  | 5 => f32Sub f32One sa
  | 6 => dc
  | 7 => f32Sub f32One dc
  | 8 => da
  | _ => f32Sub f32One da

/-- One blended channel. -/
def blendChan (op sf df ch : Nat) (s d : List Nat) : Nat :=
  let x := s.getD ch 0
  let y := d.getD ch 0
  let a := f32Mul x (blendFactor sf ch s d)
  let b := f32Mul y (blendFactor df ch s d)
  match op with
  | 0 => f32Add a b
  | 1 => f32Sub a b
  | 2 => f32Sub b a
  | 3 => fF32.encode .ne (fvMin (fv x) (fv y))
  | _ => fF32.encode .ne (fvMax (fv x) (fv y))

/-- The destination's four channels as FP32. -/
def destColor (f v : Nat) : List Nat :=
  (List.range 4).map (fun ch => match (fmtChans f).find? (fun c => c.ch = ch) with
    | some c => c.read v
    | none => (Config.absentChannel ch).toNat)

/-- A colour attachment's new value (R189): blended or written through the mask. A U32 attachment is written only with
BLEND off. -/
def blendColor (d : List Byte) (f i old : Nat) (s : List Nat) : Nat :=
  let mask := dsBlend d i 3
  if !dsBlends d i then putColor f mask old s
  else if f = 4 then old
  else
    let dst := destColor f old
    let op := dsBlend d i 0 % 8
    let chan (ch : Nat) : Nat :=
      let k := if ch = 3 then 2 else 1
      blendChan op (dsBlend d i k % 16) (dsBlend d i k / 16) ch s dst
    putColor f mask old ((List.range 4).map chan)

/-! ### One sample -/

/-- The number of the DS value among a sample's values. -/
def dsSlot (pd : List Byte) : Nat := pdColors pd

/-- The colours of a sample written from a fragment's outputs. -/
def writeColors (pd d : List Byte) (vals outs : List Nat) : List Nat :=
  (indexed vals).map (fun x =>
    if x.1 < pdColors pd then blendColor d (arFmt (pdRec pd x.1)) x.1 x.2 ((outs.drop (4 * x.1)).take 4) else x.2)

/-- One sample of the late path (R186, R188): stencil, depth, then colour. `outs` are the fragment's outputs, if it was
shaded. -/
def lateSample (pd d : List Byte) (z : Nat) (outs : Option (List Nat)) (vals : List Nat) : List Nat :=
  let f := pdDsFmt pd
  let ds := vals.getD (dsSlot pd) 0
  let st := stencilOf f ds
  let zc := convDepth f z
  let stOk := !dsStTest pd d ||
    (let a := dsStRef d &&& dsStMask d
     let b := st &&& dsStMask d
     cmpFn (dsStFn d) (decide (a < b)) (a = b) true)
  let zOk := !dsDepthTest pd d || depthPass f (dsDepthFn d) zc (depthOf f ds)
  let op := dsStOp d (if !stOk then 0 else if !zOk then 1 else 2)
  let st1 := (st &&& (255 - dsStWmask d)) ||| (stencilOp op st (dsStRef d) &&& dsStWmask d)
  let z1 := if stOk && zOk && dsDepthWrite pd d then zc else depthOf f ds
  let v1 := if pdHasDs pd then vals.set (dsSlot pd) (dsValue f z1 st1) else vals
  match stOk && zOk, outs with
  | true, some o => writeColors pd d v1 o
  | _, _ => v1

/-- The FP32 depth of a fragment's sample: the kernel's when it writes depth, otherwise interpolated. -/
def fragDepth (d : List Byte) (x : Prim) (p : Int × Int) (outs : Option (List Nat)) : Nat :=
  match outs with
  | some o => if dsDepthOut d then clampDepth (o.getD 16 0) else x.depthAt p
  | none => x.depthAt p

/-! ### One tile -/

/-- The point of sample index k of a tile, in 1/256 pixel. -/
def tilePoint (pd : List Byte) (tile k : Nat) : Int × Int :=
  let (x, y) := tilePixel pd tile (k % 1024)
  samplePoint (pdSamples pd) x y (k / 1024)

/-- A primitive covers sample k of a tile, inside scissor and target. -/
def coversAt (pd d : List Byte) (tile : Nat) (x : Prim) (k : Nat) : Bool :=
  let (px, py) := tilePixel pd tile (k % 1024)
  pixelIn pd d px py && x.covers (tilePoint pd tile k)

/-- The lanes that a primitive needs in a tile: the pixels with samples in `keep`. -/
def fragLanes (samples : Nat) (x : Prim) (keep : Nat → Bool) : List (Prim × Nat × Nat) :=
  (List.range 1024).filterMap (fun i =>
    let m := maskOf ((List.range samples).filter (fun s => keep (s * 1024 + i)))
    if m = 0 then none else some (x, i, m))

/-- The late path's effect of one primitive on a tile (R186): `shade` gives a pixel's outputs; a pixel without them was
discarded, unless the draw shades nothing. -/
def drawLate (pd d : List Byte) (tile : Nat) (x : Prim) (shade : Option (List (Nat × List Nat))) (px : List (List Nat)) :
    List (List Nat) :=
  (indexed px).map (fun e =>
    if coversAt pd d tile x e.1 then
      let p := tilePoint pd tile e.1
      match shade with
      | none => lateSample pd d (fragDepth d x p none) none e.2
      | some l => (match storeFind l (e.1 % 1024) with
        | some o => lateSample pd d (fragDepth d x p (some o)) (some o) e.2
        | none => e.2)
    else e.2)

/-- HSR of one primitive (R186 stage 1): the number of the last primitive that passed at each sample, and the samples with
its depth. -/
def hsrPrim (pd d : List Byte) (tile n : Nat) (x : Prim) (acc : List (Option Nat × List Nat)) :
    List (Option Nat × List Nat) :=
  let f := pdDsFmt pd
  (indexed acc).map (fun e =>
    if coversAt pd d tile x e.1 then
      let z := convDepth f (x.depthAt (tilePoint pd tile e.1))
      let ds := e.2.2.getD (dsSlot pd) 0
      if depthPass f (dsDepthFn d) z (depthOf f ds) then
        (some n, e.2.2.set (dsSlot pd) (dsValue f z (stencilOf f ds)))
      else e.2
    else e.2)

/-- HSR of a run's OPAQUE primitives: the samples with depth resolved, and the lanes to shade, by draw. -/
def hsr (pd : List Byte) (descOf : Nat → List Byte) (tile : Nat) (xs : List Prim) (px : List (List Nat)) :
    List (List Nat) × List (Nat × List (Prim × Nat × Nat)) :=
  let acc := (indexed xs).foldl (fun acc e => hsrPrim pd (descOf e.2.draw) tile e.1 e.2 acc) (px.map (fun v => (none, v)))
  let lanesOf (e : Nat × Prim) : List (Prim × Nat × Nat) :=
    fragLanes (pdSamples pd) e.2 (fun k => match acc[k]? with
      | some (some n, _) => n = e.1
      | _ => false)
  let draws := (xs.map (·.draw)).eraseDups
  (acc.map (fun (e : Option Nat × List Nat) => e.2),
    (draws.map (fun dr => (dr, ((indexed xs).filter (fun (e : Nat × Prim) => e.2.draw = dr)).flatMap lanesOf))).filter
      (fun (g : Nat × List (Prim × Nat × Nat)) => g.2 ≠ []))

/-- The outputs of the lanes of a job, by the lane's number; a discarded lane has none. -/
def laneOuts (outs : List (Nat × List Nat)) (n : Nat) : Option (List Nat) :=
  (outs.find? (fun (o : Nat × List Nat) => o.1 = n)).map (fun o => o.2)

/-- The colours of shaded OPAQUE lanes written to the samples that they keep. -/
def drawOpaque (pd d : List Byte) (lanes : List (Prim × Nat × Nat)) (outs : List (Nat × List Nat)) (px : List (List Nat)) :
    List (List Nat) :=
  (indexed px).map (fun e =>
    match (indexed lanes).find? (fun (l : Nat × (Prim × Nat × Nat)) =>
        l.2.2.1 = e.1 % 1024 && bitAt l.2.2.2 (e.1 / 1024)) with
    | some l => (match laneOuts outs l.1 with
      | some o => writeColors pd d e.2 o
      | none => e.2)
    | none => e.2)

/-! ### Gate masks (R202) -/

/-- The pixels of a tile that a primitive covers with any sample. -/
def coverPixels (pd d : List Byte) (tile : Nat) (x : Prim) : Nat :=
  maskOf ((List.range 1024).filter (fun i =>
    (List.range (pdSamples pd)).any (fun s => coversAt pd d tile x (s * 1024 + i))))

/-- The gate masks of a tile with one more primitive. -/
def gateAdd (pd d : List Byte) (tile : Nat) (x : Prim) (g : Nat × Nat × List Nat) : Nat × Nat × List Nat :=
  let c := dsGateCls d
  if c = 0 then g
  else
    let m := coverPixels pd d tile x
    if m = 0 then g
    else (if bitAt c 0 then g.1 ||| m else g.1, if bitAt c 1 then g.2.1 ||| m else g.2.1,
      if g.2.2.contains x.id then g.2.2 else g.2.2 ++ [x.id])

/-! ### Loads and stores of a tile -/

/-- The rows of a tile inside the target: (row within the tile, first x, y, pixels). -/
def tileRows (pd : List Byte) (tile : Nat) : List (Nat × Nat × Nat × Nat) :=
  let (x0, y0) := tilePixel pd tile 0
  let w := min 32 (pdWidth pd - x0)
  (List.range (min 32 (pdHeight pd - y0))).map (fun r => (r, x0, y0 + r, w))

/-- The address of pixel (x, y) of sample plane s of an attachment. -/
def attAddr (r : List Byte) (s x y : Nat) : Nat :=
  leAt r 0 8 + s * leAt r 12 4 + y * leAt r 8 4 + x * attBytes (arFmt r)

/-- The address of pixel (x, y) of an attachment's resolve target. -/
def resAddr (r : List Byte) (x y : Nat) : Nat := leAt r 20 8 + y * leAt r 28 4 + x * attBytes (arFmt r)

/-- The value that LOAD CLEAR or ZERO gives the samples of attachment record i. -/
def clearVal (pd : List Byte) (i : Nat) : Nat :=
  let r := pdRec pd i
  let f := arFmt r
  if leAt r 17 1 = 2 then 0
  else if i = 4 then dsValue f (convDepth f (leAt pd 232 4)) (leAt pd 236 1)
  else putColor f 15 0 ((List.range 4).map (fun k => leAt pd (168 + 16 * i + 4 * k) 4))

/-- The samples of a tile before any load: CLEAR and ZERO values, and 0 where LOAD reads memory. -/
def startPx (pd : List Byte) : List (List Nat) :=
  let v := (pdAtts pd).map (fun i => if leAt (pdRec pd i) 17 1 = 0 then 0 else clearVal pd i)
  List.replicate (1024 * pdSamples pd) v

/-- Values of `size` bytes of a row. -/
def rowVals (size : Nat) (bs : List Byte) : List Nat :=
  (List.range (bs.length / size)).map (fun i => leAt bs (i * size) size)

/-- Put a row's values into attachment a of a tile, from sample index k on. -/
def putRow (a k : Nat) (vals : List Nat) (px : List (List Nat)) : List (List Nat) :=
  (indexed px).map (fun e =>
    if k ≤ e.1 && e.1 < k + vals.length then e.2.set a (vals.getD (e.1 - k) 0) else e.2)

/-- The bytes of a row of attachment a, `w` pixels from sample index k on. -/
def rowBytes (size a k w : Nat) (px : List (List Nat)) : List Byte :=
  (List.range w).flatMap (fun i => toLe size ((px.getD (k + i) []).getD a 0))

/-- The resolved value of a pixel (R191). -/
def resolveVal (f samples : Nat) (vals : List Nat) : Nat :=
  if 4 ≤ f then vals.getD 0 0
  else
    let inv := f32Div f32One (f32OfInt samples)
    let rgba := (List.range 4).map (fun ch => match (fmtChans f).find? (fun c => c.ch = ch) with
      | some c => f32Mul (f32Sum (vals.map c.read)) inv
      | none => 0)
    putColor f 15 0 rgba

/-- What the couch writes of a tile (R191): (address, bytes) rows, attachment by attachment. -/
def couchRows (pd : List Byte) (tile : Nat) (px : List (List Nat)) : List (Nat × List Byte) :=
  (indexed (pdAtts pd)).flatMap (fun e =>
    let r := pdRec pd e.2
    let f := arFmt r
    let n := attBytes f
    let rows := tileRows pd tile
    (if leAt r 18 1 = 0 then
      (List.range (pdSamples pd)).flatMap (fun s => rows.map (fun w =>
        (attAddr r s w.2.1 w.2.2.1, rowBytes n e.1 (s * 1024 + 32 * w.1) w.2.2.2 px)))
    else []) ++
    (if leAt r 20 8 ≠ 0 then
      rows.map (fun w => (resAddr r w.2.1 w.2.2.1, (List.range w.2.2.2).flatMap (fun i =>
        toLe n (resolveVal f (pdSamples pd) ((List.range (pdSamples pd)).map (fun s =>
          (px.getD (s * 1024 + 32 * w.1 + i) []).getD e.1 0))))))
    else []))

/-- What a tile's LOADs read: (attachment number, sample index, address, bytes). -/
def loadRows (pd : List Byte) (tile : Nat) : List (Nat × Nat × Nat × Nat) :=
  (indexed (pdAtts pd)).flatMap (fun e =>
    let r := pdRec pd e.2
    if leAt r 17 1 = 0 then
      (List.range (pdSamples pd)).flatMap (fun s => (tileRows pd tile).map (fun w =>
        (e.1, s * 1024 + 32 * w.1, attAddr r s w.2.1 w.2.2.1, w.2.2.2 * attBytes (arFmt r))))
    else [])

/-! ### The gate (R202, R203) -/

/-- Gate tiles across and down. -/
def gateGrid (pd : List Byte) : Nat × Nat :=
  let n := 32 * 2 ^ pdScale pd
  ((pdWidth pd + n - 1) / n, (pdHeight pd + n - 1) / n)

/-- The render tiles of a gate tile. -/
def gateMembers (pd : List Byte) (g : Nat) : List Nat :=
  let (gx, _) := gateGrid pd
  let (tx, ty) := pdGrid pd
  let k := 2 ^ pdScale pd
  (List.range k).flatMap (fun j => (List.range k).filterMap (fun i =>
    let x := g % gx * k + i
    let y := g / gx * k + j
    if x < tx && y < ty then some (y * tx + x) else none))

/-- The counts and list of one gate tile: COVER0, COVER1, BOTH, PRIM_IDs ascending. -/
def gateTile (pd : List Byte) (masks : List (Nat × (Nat × Nat × List Nat))) (g : Nat) : Nat × Nat × Nat × List Nat :=
  let ms := (gateMembers pd g).map (fun t => (storeFind masks t).getD (0, 0, []))
  let ids := sortBy (fun (x y : Nat) => x ≤ y) ((ms.flatMap (fun (m : Nat × Nat × List Nat) => m.2.2)).eraseDups)
  ((ms.map (fun m => popCount 1024 m.1)).sum, (ms.map (fun m => popCount 1024 m.2.1)).sum,
    (ms.map (fun m => popCount 1024 (m.1 &&& m.2.1))).sum, ids)

/-- The tile records and the list of a gate: records in index order with LISTED so far and DROPPED. -/
def gateRecords (pd : List Byte) (masks : List (Nat × (Nat × Nat × List Nat))) : List (List Byte) × List Nat × Nat :=
  let (gx, gy) := gateGrid pd
  (List.range (gx * gy)).foldl (fun acc g =>
    let (c0, c1, cb, ids) := gateTile pd masks g
    let kept := ids.take (min 255 (pdCap pd - acc.2.1.length))
    let cut := ids.length - kept.length
    let r := toLe 2 c0 ++ toLe 2 c1 ++ toLe 2 cb ++ toLe 1 kept.length ++ toLe 1 (b2n (cut ≠ 0)) ++ toLe 4 acc.2.1.length ++
      toLe 4 0
    (acc.1 ++ [r], acc.2.1 ++ kept, acc.2.2 + cut)) ([], [], 0)

/-- The header of a gate (R202). -/
def gateHeader (pd : List Byte) (state listed dropped : Nat) : List Byte :=
  let (gx, gy) := gateGrid pd
  toLe 4 0x45544147 ++ toLe 1 state ++ toLe 1 (pdScale pd) ++ toLe 2 gx ++ toLe 2 gy ++ toLe 2 0 ++ toLe 4 listed ++
    toLe 4 dropped ++ toLe 4 0 ++ slice pd 264 8 ++ List.replicate 32 0

end Sys2Proof.Machine
end

