-- ==== Sys2Proof/Machine/GeoPass.lean ====
section
/-!
DEFINITION. A render pass as it runs (R177 to R201): the binning pool, the binning of draws whose vertices are back, pool
overflow, and the work of a tile between its fragment launches. What an event cannot do because an access waits is done
when the wait ends (`geoStep`).
-/

namespace Sys2Proof.Machine

/-- The geometry pipeline as a requester (kind 3). -/
def geoAsker (p : Nat) : Asker := ⟨.geo, 3, p⟩

/-- The vat count of a partition (R26). -/
def State.vatCount (s : State) (p : Nat) : Nat := (s.partVats p).length

/-- A pass by its BIN_BEGIN. -/
def State.passOf (s : State) (cmd : Nat) : Option Pass := s.geo.passes.find? (fun x => x.cmd = cmd)

/-- Put a pass, with its peak use, and show it. -/
def State.putPass (s : State) (x : Pass) : State :=
  (s.setPass { x with peak := max x.peak x.used }).showPass x.p

/-- Write runs of bytes for a pass: the footprint of all of them is translated first (R340). -/
def State.geoWrites (s : State) (p : Nat) (ws : List (Nat × List Byte)) : State × Except Fail Unit :=
  match s.footprints (geoAsker p) (.geo p) p (ws.map (fun w => (w.1, w.2.length, rightW))) with
  | (s1, .error f) => (s1, .error f)
  | (s1, .ok _) => ws.foldl (fun acc w => match acc with
      | (s2, .ok _) => s2.vWrite (geoAsker p) (.geo p) p w.1 w.2
      | r => r) (s1, .ok ())

/-- Bytes of a list of rows read for a pass; on a wait the bytes that completions brought are kept. -/
def State.geoReads (s : State) (p : Nat) (rs : List (Nat × Nat)) : State × Except Fail (List (List Byte)) :=
  let out := rs.foldl (fun (acc : State × Except Fail (List (List Byte))) r => match acc with
      | (s2, .ok l) => (match s2.vRead (geoAsker p) (.geo p) p r.1 r.2 with
        | (s3, .ok bs) => (s3, .ok (l ++ [bs]))
        | (s3, .error f) => (s3, .error f))
      | r => r) (s, .ok [])
  match out with
  | (s1, .error .stall) => ({ s1 with xlt := { s1.xlt with fetched := s.xlt.fetched } }, .error .stall)
  | r => r

/-! ### The pool (R192 to R194) -/

/-- Take a list block of 128 bytes upward, from the first part of the pool that has room. -/
def takeBlock : List PoolRegion → Option (Nat × List PoolRegion)
  | [] => none
  | r :: rs =>
    if r.up + 128 ≤ r.down then some (r.up, { r with up := r.up + 128 } :: rs)
    else (takeBlock rs).map (fun x => (x.1, r :: x.2))

/-- Take a record of a multiple of 64 bytes downward. -/
def takeRoom (n : Nat) : List PoolRegion → Option (Nat × List PoolRegion)
  | [] => none
  | r :: rs =>
    if r.up + n ≤ r.down then some (r.down - n, { r with down := r.down - n } :: rs)
    else (takeRoom n rs).map (fun x => (x.1, r :: x.2))

/-- The bytes of a primitive record (R194). -/
def recordSize (n vary : Nat) : Nat := roundUp (16 + n * (16 + 4 * vary)) 64

/-- A window coordinate as FP32. -/
def coordF32 (x : Prim) (v : Int) : Nat :=
  if x.kind = 3 then v.toNat else fF32.encode .ne (.fin (decide (v < 0)) v.natAbs (-8))

/-- A primitive record (R194); bytes up to its rounded size are 0. -/
def recordBytes (dr : DrawRec) (x : Prim) : List Byte :=
  let vary := dsVary dr.desc
  let head := toLe 4 x.id ++ toLe 1 x.verts.length ++ toLe 1 vary ++
    toLe 1 (b2n x.back + 2 * x.cls + 8 * dsGateCls dr.desc) ++ toLe 1 0 ++ toLe 8 dr.addr
  let verts := x.verts.flatMap (fun v =>
    toLe 4 (coordF32 x v.x) ++ toLe 4 (coordF32 x v.y) ++ toLe 4 v.z ++ toLe 4 (f32Div f32One v.w) ++
      (List.range vary).flatMap (fun k => toLe 4 (v.vary.getD k 0)))
  slice (head ++ verts) 0 (recordSize x.verts.length vary)

/-- A PRIM entry (R193). -/
def primEntry (cls addr : Nat) : List Byte := toLe 8 (cls * 2 ^ 60 + addr / 64)
/-- A LINK entry. -/
def linkEntry (addr : Nat) : List Byte := toLe 8 (2 * 2 ^ 62 + addr / 64)
/-- An END entry. -/
def endEntry (n : Nat) : List Byte := toLe 8 (3 * 2 ^ 62 + n)

/-- The base of a pass's pool: that of its first part. -/
def Pass.poolBase (x : Pass) : Nat := (x.regions.head?.map (·.base)).getD 0

/-- Enter a primitive's record in a tile's list: the pass with the entry, and what is written. None: overflow. -/
def Pass.enter (x : Pass) (prim : Prim) (addr tile : Nat) : Option (Pass × List (Nat × List Byte)) :=
  let e := primEntry prim.cls addr
  match storeFind x.lists tile with
  | some t =>
    if t.fill < 15 then
      some ({ x with lists := storePut tile { t with prims := t.prims ++ [prim], fill := t.fill + 1 } x.lists },
        [(t.cur + 8 * t.fill, e)])
    else (takeBlock x.regions).map (fun b =>
      ({ x with regions := b.2, lists := storePut tile { t with prims := t.prims ++ [prim], cur := b.1, fill := 1 } x.lists },
        [(t.cur + 120, linkEntry b.1), (b.1, e)]))
  | none => (takeBlock x.regions).map (fun b =>
      ({ x with regions := b.2, lists := storePut tile ⟨[prim], b.1, b.1, 1⟩ x.lists },
        [(x.poolBase + 8 * tile, toLe 8 (b.1 / 128)), (b.1, e)]))

/-- Allocate and enter one part of a primitive in its tiles. -/
def Pass.placePart (x : Pass) (dr : DrawRec) (prim : Prim) (tiles : List Nat) : Option (Pass × List (Nat × List Byte)) :=
  if tiles = [] then some (x, [])
  else (takeRoom (recordSize prim.verts.length (dsVary dr.desc)) x.regions).bind (fun r =>
    tiles.foldl (fun (acc : Option (Pass × List (Nat × List Byte))) t =>
      acc.bind (fun a => (a.1.enter prim r.1 t).map (fun b => (b.1, a.2 ++ b.2))))
      (some ({ x with regions := r.2 }, [(r.1, recordBytes dr prim)])))

/-- Allocate and enter a whole primitive: all of it or nothing (R195). -/
def Pass.place (x : Pass) (dr : DrawRec) (parts : List (Prim × List Nat)) : Option (Pass × List (Nat × List Byte)) :=
  parts.foldl (fun (acc : Option (Pass × List (Nat × List Byte))) e =>
    acc.bind (fun a => (a.1.placePart dr e.1 e.2).map (fun b => (b.1, a.2 ++ b.2)))) (some (x, []))

/-- The bytes that a primitive needs: its records, and a block for each list that needs one. -/
def Pass.wants (x : Pass) (dr : DrawRec) (parts : List (Prim × List Nat)) : Nat :=
  let ps := parts.filter (fun e => e.2 ≠ [])
  let tiles := (ps.flatMap (·.2)).eraseDups
  (ps.map (fun e => recordSize e.1.verts.length (dsVary dr.desc))).sum +
    128 * (tiles.filter (fun t => match storeFind x.lists t with
      | some l => decide (15 ≤ l.fill)
      | none => true)).length

/-- The parts that primitive k of a draw is binned as, with their tiles. -/
def Pass.partsOf (x : Pass) (n k : Nat) (dr : DrawRec) : List (Prim × List Nat) :=
  let vs := (primVerts (dsTopo dr.desc) k).map (fun i => ((dr.verts.getD []).getD i []))
  ((setupPrim x.desc dr.desc (n * 2 ^ 20 + k) n vs).map (fun p => (p, primTiles x.desc dr.desc p)))

/-! ### Refusals (R207) -/

/-- A geometry command is refused: its status, and the record when it is free. -/
def State.geoRefuse (s : State) (p op cmd reason : Nat) : State :=
  let s1 := s.setResult cmd (stRefused 1 reason)
  if s1.rd .GEO_REFUSE_VALID p = 1 then s1
  else ((s1.wr .GEO_REFUSE_VALID 1 p).wr .GEO_REFUSE_OP op p).wr .GEO_REFUSE_REASON reason p

/-- Launches of a pass that no vat holds a block of. -/
def State.passLaunches (s : State) (x : Pass) : List Nat :=
  (s.launches.filter (fun e => (match e.2.use with
      | .vertex _ d => x.draws.any (fun r => r.cmd = d && r.launch = some e.1)
      | _ => false) && !s.vats.any (fun v => v.2.blocks.any (fun b => b.2.launch = e.1)))).map (·.1)

/-- A pass aborts with POOL_EXHAUSTED (R200): the draw that holds the primitive is refused with it, what follows of the pass
with NESTING, and the gate is left ABORTED. -/
def State.abortPass (s : State) (x : Pass) (draw : Nat) : State :=
  let ids := s.passLaunches x
  let s0 : State := { s with launches := s.launches.filter (fun e => !ids.contains e.1) }
  let s1 := s0.geoRefuse x.p 0x11 draw 10
  let s2 := x.draws.foldl (fun (s : State) d => s.setResult d.cmd (stRefused 1 9)) s1
  let s3 := match x.ended with
    | some c => s2.setResult c (stRefused 1 9)
    | none => s2
  let s4 := if pdGate x.desc = 0 then s3 else (s3.geoWrites x.p [(pdGate x.desc + 4, [2])]).1
  (s4.dropPass x.cmd).showPass x.p

/-! ### Overflow (R195 to R198) -/

/-- A broke pass starts (R196 steps 1 to 3): the tiles with entries are rendered. -/
def State.startBroke (s : State) (x : Pass) (want : Nat) : State :=
  s.putPass { x with
    phase := .broke
    held := some want
    todo := (tileOrder x.desc).filter (fun t => (storeFind x.lists t).isSome) }

/-- A grow fault falls back to a broke pass with a CAUSE (R197, R198). -/
def State.fallBack (s : State) (x : Pass) (want cause : Nat) : State :=
  ((((s.wr .GEO_GROW_CTRL_REQ 0 x.p).wr .GEO_GROW_WANT_BYTES 0 x.p).count .GEO_COUNTS_FALLBACK 1 x.p).wr
    .GEO_COUNTS_CAUSE cause x.p).startBroke x want

/-- The pool has overflowed (R195, R197, R198, R200). -/
def State.overflow (s : State) (x : Pass) (draw want : Nat) : State :=
  if x.lists = [] && x.segments ≠ 0 then s.abortPass x draw
  else if s.vatCount x.p < 16 then (s.count .GEO_COUNTS_BROKE 1 x.p).startBroke x want
  else if 16 ≤ x.chunks then s.fallBack x want 3
  else
    let s1 := (s.wr .GEO_GROW_CTRL_REQ 1 x.p).wr .GEO_GROW_WANT_BYTES want x.p
    (s1.putPass { x with phase := .growWait, held := some want }).raisePart x.p { kind := 0x03, src := x.p, p0 := want }

/-! ### Binning -/

/-- The first draw that is not wholly binned: its index and record. -/
def Pass.nextDraw (x : Pass) : Option (Nat × DrawRec) :=
  (indexed x.draws).find? (fun (e : Nat × DrawRec) =>
    e.2.verts.isNone || decide (e.2.binned < primCount (dsTopo e.2.desc) (dsCount e.2.desc)))

/-- Bin what can be binned, in submission order (R193); `fuel` bounds the primitives. A draw is complete when its last
primitive is binned; when the last draw of an ended pass is, its tiles are to be rendered (R190). -/
def State.binFrom (s : State) (cmd : Nat) : Nat → State
  | 0 => s
  | fuel + 1 =>
    match s.passOf cmd with
    | none => s
    | some x =>
      if x.phase ≠ .binning || x.away || !s.partRuns x.p then s
      else match x.nextDraw with
        | none =>
          if x.ended.isSome then s.putPass { x with phase := .rendering, todo := tileOrder x.desc } else s
        | some (n, dr) =>
          if dr.verts.isNone then s
          else
            let parts := x.partsOf n dr.binned dr
            match x.place dr parts with
            | none => s.overflow x dr.cmd (x.wants dr parts)
            | some (x1, ws) =>
              match s.geoWrites x.p ws with
              | (s1, .error f) => s1.failTile x.p 0 0 f
              | (s1, .ok _) =>
                let k := dr.binned + 1
                let x2 : Pass := { x1 with draws := x1.draws.set n { dr with binned := k }, held := none }
                let s2 := s1.putPass x2
                let s3 := if k = primCount (dsTopo dr.desc) (dsCount dr.desc) then s2.setResult dr.cmd stOk else s2
                s3.binFrom cmd fuel

/-- Primitives that a pass still has to bin, and steps between them. -/
def Pass.binFuel (x : Pass) : Nat :=
  (x.draws.map (fun d => primCount (dsTopo d.desc) (dsCount d.desc) - d.binned)).sum + 2

/-- A pass goes on with its binning as far as it can. -/
def State.binPass (s : State) (cmd : Nat) : State :=
  match s.passOf cmd with
  | some x => s.binFrom cmd x.binFuel
  | none => s

/-! ### Rendering a tile (R186, R187, R190) -/

/-- The command for which a pass's fragments are shaded: its BIN_END, or in a broke pass the draw that holds. -/
def Pass.workCmd (x : Pass) : Nat :=
  match x.phase, x.nextDraw with
  | .broke, some (_, dr) => dr.cmd
  | _, _ => x.ended.getD x.cmd

/-- The draw-state descriptor of a draw of a pass. -/
def Pass.descOf (x : Pass) (n : Nat) : List Byte := (x.draws[n]?.map (·.desc)).getD []

/-- Replace a tile in flight. -/
def Pass.setTile (x : Pass) (t : TileRun) : Pass :=
  { x with inflight := x.inflight.map (fun y => if y.tile = t.tile then t else y) }

/-- Start the shading of lanes of a draw for a tile (R187): one launch. -/
def State.startFrags (s : State) (x : Pass) (t : TileRun) (dr : Nat) (lanes : List (Prim × Nat × Nat)) (l : Launch) :
    State × TileRun :=
  let (id, s1) := s.takeId
  let n := (lanes.length + l.threads - 1) / l.threads
  let d := x.descOf dr
  let l1 : Launch := { l with
    id := id
    use := .fragment x.p x.workCmd
    gx := n
    gy := 1
    gz := 1
    total := n
    payload := lanes.map (fun e => fragPayload x.desc d t.tile e.1 e.2.1 e.2.2) }
  (s1.setLaunch id l1, { t with job := some ⟨id, dr, lanes⟩ })

/-- Draw what can be drawn of a tile until fragments must be shaded (R186); `fuel` bounds the stages. -/
def State.advanceTile (s : State) (x : Pass) : Nat → TileRun → State × TileRun
  | 0, t => (s, t)
  | fuel + 1, t =>
    if t.job.isSome then (s, t)
    else match t.groups with
      | (dr, lanes) :: gs =>
        (match (x.draws[dr]?).bind (·.frag) with
        | some l => s.startFrags x { t with groups := gs } dr lanes l
        | none => s.advanceTile x fuel { t with groups := gs })
      | [] =>
        match t.todo with
        | [] => (s, t)
        | e :: rest =>
          if e.cls = 0 then
            let run := t.todo.takeWhile (fun p => p.cls = 0)
            let (px, gs) := hsr x.desc x.descOf t.tile run t.px
            s.advanceTile x fuel { t with px := px, groups := gs, todo := t.todo.drop run.length }
          else
            let d := x.descOf e.draw
            match (x.draws[e.draw]?).bind (·.frag) with
            | none => s.advanceTile x fuel { t with px := drawLate x.desc d t.tile e none t.px, todo := rest }
            | some l =>
              let lanes := fragLanes (pdSamples x.desc) e (coversAt x.desc d t.tile e)
              if lanes = [] then s.advanceTile x fuel { t with todo := rest }
              else s.startFrags x { t with todo := rest } e.draw lanes l

/-- Stages that a tile may still need. -/
def TileRun.fuel (t : TileRun) : Nat := 2 * t.todo.length + t.groups.length + 4

/-- The samples of a tile after its fragments have been shaded. -/
def Pass.shaded (x : Pass) (t : TileRun) (j : FragJob) (outs : List (Nat × List Nat)) : List (List Nat) :=
  let d := x.descOf j.draw
  match j.lanes.head? with
  | none => t.px
  | some (e, _, _) =>
    if e.cls = 0 then drawOpaque x.desc d j.lanes outs t.px
    else drawLate x.desc d t.tile e (some ((indexed j.lanes).filterMap (fun l =>
      (laneOuts outs l.1).map (fun o => (l.2.2.1, o))))) t.px

/-- The fragments of a tile are shaded: the launch goes, and the tile goes on. -/
def State.fragsDone (s : State) (l : Launch) : State :=
  let s0 : State := { s with launches := storeErase s.launches l.id }
  match s0.geo.passes.find? (fun x => x.inflight.any (fun t => match t.job with
      | some j => j.launch = l.id
      | none => false)) with
  | none => s0
  | some x =>
    match x.inflight.find? (fun t => match t.job with
        | some j => j.launch = l.id
        | none => false) with
    | none => s0
    | some t =>
      match t.job with
      | none => s0
      | some j =>
        let t1 : TileRun := { t with px := x.shaded t j l.outs, job := none }
        let (s1, t2) := s0.advanceTile x t1.fuel t1
        s1.setPass (x.setTile t2)

/-- A draw's vertices as its launch returned them, in vertex order (R179). -/
def vertsOf (d : List Byte) (outs : List (Nat × List Nat)) : List Vertex :=
  (List.range (dsCount d)).map (fun n => ((laneOuts outs n).getD []).take (4 + dsVary d))

/-- The vertices of a draw are back: the launch goes, and binning goes on. -/
def State.vertsDone (s : State) (l : Launch) : State :=
  let s0 : State := { s with launches := storeErase s.launches l.id }
  match s0.geo.passes.find? (fun x => x.draws.any (fun d => d.launch = some l.id)) with
  | none => s0
  | some x =>
    let f (d : DrawRec) : DrawRec :=
      if d.launch = some l.id then { d with verts := some (vertsOf d.desc l.outs), launch := none } else d
    let none' := x.draws.filter (fun d => d.launch = some l.id && primCount (dsTopo d.desc) (dsCount d.desc) = 0)
    let s1 := none'.foldl (fun (s : State) d => s.setResult d.cmd stOk) (s0.setPass { x with draws := x.draws.map f })
    s1.binPass x.cmd

/-! ### The end of a pass -/

/-- A rendering pass whose tiles are couched and whose writes have reached L2 completes (R191). -/
def State.endPass (s : State) (x : Pass) : State :=
  if x.phase = .rendering && x.todo = [] && x.inflight = [] &&
      !s.ring.reqs.any (fun r => r.owner = .geo x.p) then
    let s1 := s.wr .GEO_POOL_USE_PEAK ((x.peak + 65535) / 65536) x.p
    let s2 := match x.ended with
      | some c => s1.setResult c stOk
      | none => s1
    (s2.dropPass x.cmd).showPass x.p
  else s

/-- Every pass of a partition goes on as far as it can. -/
def State.geoStep (s : State) (p : Nat) : State :=
  (s.geo.passes.filter (fun x => x.p = p)).foldl (fun (s : State) x =>
    let s1 := s.binPass x.cmd
    match s1.passOf x.cmd with
    | some y => s1.endPass y
    | none => s1) s

end Sys2Proof.Machine
end

