-- ==== Sys2Proof/Machine/Vat.lean ====
section
/-!
DEFINITION. Quires and blocks in a vat: masks, stacks and parked paths (R63 to R68), barriers (R69), faults and traps (R79 to
R84, R122, R123), the retirement of blocks (R64, R75), and the prelude that every instruction shares (R97, R98).
-/

namespace Sys2Proof.Machine

/-! ### The mask stack (R63, R64) -/

/-- Pop until a path has lanes: its mask, address and what is left of the stack. -/
def unwindFrom (exited : Word) (next : Nat) : List StackEntry → Option (Word × Nat × List StackEntry)
  | [] => none
  | e :: r =>
    let m := if e.pending then e.mask else e.mask &&& ~~~exited
    if m ≠ 0 then some (m, if e.pending then e.addr else next, r) else unwindFrom exited next r

/-- Nothing left of the running path: only parked paths remain, or the quire is finished (R63, R64). -/
def Quire.noPath (q : Quire) : Quire :=
  { q with active := 0, stack := [], wait := if q.parked = [] then .finished else .idle }

/-- unwind() of R63. -/
def Quire.unwind (q : Quire) (next : Nat) : Quire :=
  match unwindFrom q.exited next q.stack with
  | some (m, pc, st) => { q with active := m, pc := pc, stack := st }
  | none => q.noPath

/-- Remove the PENDING entry with lanes that is nearest the top; entries above it stay, emptied PENDING entries above it
go (R63, R67). -/
def takePending : List StackEntry → Option (StackEntry × List StackEntry)
  | [] => none
  | e :: r =>
    if e.pending && e.mask ≠ 0 then some (e, r)
    else (takePending r).map (fun x => (x.1, if e.pending then x.2 else e :: x.2))

/-- Run the PENDING entry nearest the top, or idle (R67). -/
def Quire.runPending (q : Quire) : Quire :=
  match takePending q.stack with
  | some (e, st) => { q with active := e.mask, pc := e.addr, stack := st, wait := .run }
  | none => { q with active := 0, wait := if q.parked = [] && q.stack = [] then .finished else .idle }

/-- Exchange the running path with the PENDING entry nearest the top (R73). -/
def Quire.yieldPath (q : Quire) (next : Nat) : Quire :=
  let rec swap : List StackEntry → Option (StackEntry × List StackEntry)
    | [] => none
    | e :: r =>
      if e.pending then some (e, ⟨true, q.active, next⟩ :: r)
      else (swap r).map (fun x => (x.1, e :: x.2))
  match swap q.stack with
  | some (e, st) => { q with active := e.mask, pc := e.addr, stack := st }
  | none => { q with pc := next }

/-- Lanes leave a quire (R63 exit_lanes, R98). -/
def Quire.exitLanes (q : Quire) (lanes : Word) (next : Nat) : Quire :=
  let ex := q.exited ||| lanes
  let st := q.stack.map (fun e => { e with mask := e.mask &&& ~~~ex })
  let act := q.active &&& ~~~lanes
  let q1 := { q with exited := ex, stack := st, active := act }
  if act ≠ 0 then { q1 with pc := next } else if st ≠ [] then q1.unwind next else q1.noPath

/-- Park lanes at an identifier (R67); none: a fifth record. -/
def Quire.park (q : Quire) (ident : Nat) (lanes : Word) (next : Nat) : Option Quire :=
  match q.parked.find? (fun r => r.ident = ident && r.addr = next) with
  | some _ =>
    some { q with parked := q.parked.map (fun r =>
      if r.ident = ident && r.addr = next then { r with mask := r.mask ||| lanes } else r) }
  | none => if q.parked.length < 4 then some { q with parked := q.parked ++ [⟨ident, lanes, next⟩] } else none

/-! ### Blocks -/

/-- The quires of block `b` in slot order: (slot, quire). -/
def Vat.quiresOf (v : Vat) (b : Nat) : List (Nat × Quire) := v.quires.filter (fun e => e.2.block = b)

/-- The quires of a block by quire index. -/
def Vat.byIndex (v : Vat) (b : Nat) : List (Nat × Quire) :=
  sortBy (fun x y => x.2.idx ≤ y.2.idx) (v.quiresOf b)

/-- The quire is live: it has not finished. -/
def Quire.live (q : Quire) : Bool := q.wait ≠ .finished

/-- The lowest-numbered live quire of a block (R81). -/
def Vat.firstLive (v : Vat) (b : Nat) : Option (Nat × Quire) := (v.byIndex b).find? (fun e => e.2.live)

/-- Apply a function to every quire of a block. -/
def Vat.mapQuires (v : Vat) (b : Nat) (f : Nat → Quire → Quire) : Vat :=
  { v with quires := v.quires.map (fun e => if e.2.block = b then (e.1, f e.1 e.2) else e) }

/-- Reset a block's patience (R76, R77). -/
def State.resetPatience (s : State) (vat b : Nat) : State :=
  match s.block vat b with
  | some x => s.setBlock vat b { x with patience := 0, lockWait := false }
  | none => s

/-! ### Faults and traps -/

/-- Faults of block scope (R80). -/
def blockScope (status : Nat) : Bool := let r := status / 65536 % 256; r = 3 || r = 4 || r = 5
/-- Faults that a handler takes (R80). -/
def trappable (status : Nat) : Bool := let r := status / 65536 % 256; r ≠ 0x0C && r ≠ 0x0D

/-- Record a fault in the vat's registers (R83, R84). -/
def State.recordFault (s : State) (vat slot b part status pc lanes : Nat) : State :=
  if s.rd .VAT_FAULT_WHO_VALID vat = 1 then s.count .VAT_FAULT_WHO_MORE 1 vat
  else
    (((((((s.wr .VAT_FAULT_WHO_VALID 1 vat).wr .VAT_FAULT_WHO_PART part vat).wr .VAT_FAULT_WHO_QUIRE slot vat).wr
      .VAT_FAULT_WHO_BLOCK b vat).wr .VAT_FAULT_STATUS_STATUS status vat).wrAddr .VAT_FAULT_PC_PC pc vat).wr
      .VAT_FAULT_LANES_LANES lanes vat)

/-- The virtual address of a word index in the native image (R85, R89). -/
def Launch.nativePc (l : Launch) (w : Nat) : Nat :=
  (l.code + Config.nativeOffset l.mod.bytes w) % 2 ^ 48

/-- Report a fault to the partition's fault path (R79): the quire or the block is held (R81), the record is taken, and the
partition is torn down (R315). -/
def State.reportFault (s : State) (vat slot : Nat) (q : Quire) (l : Launch) (status word lanes : Nat) : State :=
  let v := s.vat vat
  let v1 := if blockScope status then v.mapQuires q.block (fun _ x => if x.live then { x with wait := .held } else x)
    else { v with quires := storePut slot { q with wait := .held } v.quires }
  let pc := l.nativePc word
  ((s.setVat vat v1).recordFault vat slot q.block l.p status pc lanes).tearDown l.p 0 status vat 0 pc l.tag

/-- The mask of a block's live quires by quire index (R122). -/
def Vat.liveQuires (v : Vat) (b : Nat) : Nat :=
  maskOf (((v.quiresOf b).filter (fun e => e.2.live)).map (fun e => e.2.idx))

/-- Enter the trap handler in a quire (R122). A handler quire whose lanes are all parked runs with its live lanes. -/
def Quire.enterTrap (q : Quire) (status handler next live : Nat) : Quire :=
  let save : TrapSave :=
    { s56 := (List.range 6).map (fun k => BitVec.ofNat 32 (q.sreg (56 + k)))
      active := q.active
      depth := q.stack.length
      status := status
      blockScope := blockScope status
      pc := q.pc }
  let vals := [status, q.active.toNat, q.pc, next, b2n (blockScope status), if blockScope status then live else 0]
  let q1 := (indexed vals).foldl (fun (q : Quire) x => q.putReg (256 + 56 + x.1) 0 x.2) q
  { q1 with trap := some save, pc := handler, wait := .run, active := if q.active = 0 then ~~~q.exited else q.active }

/-- Raise a fault of a quire (R79 to R82): the trap handler, or the partition's fault path. -/
def State.raiseFault (s : State) (vat slot status : Nat) : State :=
  match s.quire vat slot with
  | none => s
  | some q0 =>
    let v := s.vat vat
    let (hs, h) := if blockScope status then (v.firstLive q0.block).getD (slot, q0) else (slot, q0)
    match storeFind v.blocks q0.block with
    | none => s
    | some b =>
      match s.launch b.launch with
      | none => s
      | some l =>
        let next := match decodeInst l.mod.code h.pc with
          | some i => i.next
          | none => h.pc
        match l.mod.handler with
        | some hd =>
          if l.trap && trappable status && q0.trap.isNone && h.trap.isNone && h.live then
            let s1 := s.setQuire vat hs (h.enterTrap status hd next (v.liveQuires q0.block))
            if blockScope status then s1.setBlock vat q0.block { b with handler := some hs } else s1
          else s.reportFault vat hs h l status h.pc h.active.toNat
        | none => s.reportFault vat hs h l status h.pc h.active.toNat

/-! ### Barriers (R66 to R69) -/

/-- The reduction of a BRED at release (R105): over the threads that arrived by it; MOD[4:3] 0 AND, 1 OR, 2 count. -/
def bredValue (entries : List (List Nat)) (mode : Nat) : Nat :=
  let t := (entries.map (fun e => popCount 32 (e.getD 0 0))).sum
  let n := (entries.map (fun e => popCount 32 (e.getD 1 0))).sum
  if mode = 0 then b2n (t = n) else if mode = 1 then b2n (0 < t) else t

/-- Write a BRED's result in the lanes of a parked record: D and MOD are those of the instruction before its address. -/
def Quire.bredWrite (q : Quire) (code : List Dword) (entries : List (List Nat)) (r : Parked) : Quire :=
  match decodeInst code (r.addr - 1) with
  | some i =>
    if i.op = 0x82 then
      let x := bredValue entries (bits i.mod 4 3)
      if okind i.d = .p then q.putPred (i.d - 320) r.mask.toNat (if x = 1 then 2 ^ 32 - 1 else 0)
      else (bitIdx 32 r.mask.toNat).foldl (fun q lane => q.putReg i.d lane x) q
    else q
  | none => q

/-- Release a quire's records of an identifier (R68): pushed as PENDING entries; an idle quire starts at once. The flag
says that a push met depth 32. -/
def Quire.release (q : Quire) (code : List Dword) (entries : List (List Nat)) (ident : Nat) : Quire × Bool :=
  let rs := q.parked.filter (fun r => r.ident = ident)
  let room := 32 - q.stack.length
  let q1 := (rs.take room).foldl (fun q r => q.bredWrite code entries r) q
  let q2 : Quire := { q1 with
    stack := (rs.take room).foldl (fun st r => ⟨true, r.mask, r.addr⟩ :: st) q1.stack
    parked := q1.parked.filter (fun r => !(rs.take room).contains r) }
  (if q2.wait = .idle then q2.runPending else q2, decide (room < rs.length))

/-- Every live thread of the block has arrived at an identifier (R66), and some arrival is there. -/
def Vat.barrierMet (v : Vat) (b : Nat) (blk : Block) (ident : Nat) : Bool :=
  let arr (q : Quire) : Word := storeGet 0 blk.arrived (32 * ident + q.idx)
  (v.quiresOf b).any (fun e => arr e.2 ≠ 0) && (v.quiresOf b).all (fun e => ~~~e.2.exited &&& ~~~(arr e.2) = 0)

/-- Release one identifier of a block (R68, R76). -/
def State.releaseBarrier (s : State) (vat b ident : Nat) : State :=
  match s.block vat b with
  | none => s
  | some blk =>
    let code := match s.launch blk.launch with
      | some l => l.mod.code
      | none => []
    let entries := (blk.bred.filter (fun e => e.1 / 32 = ident)).map (·.2)
    let v := s.vat vat
    let v1 := v.mapQuires b (fun _ q => (q.release code entries ident).1)
    let arrived := blk.arrived.filter (fun e => e.1 / 32 ≠ ident)
    let bred := blk.bred.filter (fun e => e.1 / 32 ≠ ident)
    let blk1 : Block := { blk with arrived := arrived, bred := bred, patience := 0, lockWait := false }
    let s1 := s.setVat vat { v1 with blocks := storePut b blk1 v1.blocks }
    match (v.byIndex b).find? (fun e => (e.2.release code entries ident).2) with
    | some (slot, _) => s1.raiseFault vat slot (stExec 2 slot)
    | none => s1

/-- The identifiers at which threads of a block are parked, ascending. -/
def Vat.parkedIds (v : Vat) (b : Nat) : List Nat :=
  (List.range 16).filter (fun n => (v.quiresOf b).any (fun e => e.2.parked.any (fun r => r.ident = n)))

/-- Every live thread is parked (R69 step 3). -/
def Vat.allParked (v : Vat) (b : Nat) : Bool :=
  (v.quiresOf b).all (fun e => ~~~e.2.exited &&& ~~~(e.2.parked.foldl (fun m r => m ||| r.mask) 0) = 0)

/-- The end-of-cycle evaluation of a block (R69): releases, then a mismatch. -/
def State.evalBarriers (s : State) (vat b : Nat) : State :=
  let s1 := (List.range 16).foldl (fun (s : State) ident =>
    match s.block vat b with
    | some blk => if (s.vat vat).barrierMet b blk ident then s.releaseBarrier vat b ident else s
    | none => s) s
  let v := s1.vat vat
  match v.parkedIds b with
  | lo :: hi :: _ =>
    if v.allParked b then
      match v.firstLive b with
      | some (slot, _) => s1.raiseFault vat slot (stExec 3 (lo * 256 + hi))
      | none => s1
    else s1
  | _ => s1

/-- Clear every arrival of a block and release every parked record (R82). -/
def State.releaseAll (s : State) (vat b : Nat) : State :=
  let s1 := ((s.vat vat).parkedIds b).foldl (fun (s : State) ident => s.releaseBarrier vat b ident) s
  match s1.block vat b with
  | some blk => s1.setBlock vat b { blk with arrived := [], bred := [], patience := 0, lockWait := false }
  | none => s1

/-! ### Retirement -/

/-- What a thread ends with: v0 to v35, for the geometry pipeline (R179, R189). -/
def Quire.outputs (q : Quire) (lane : Nat) : List Nat := (List.range 36).map (fun r => q.vreg r lane)

/-- The threads that a block of a launch has: a draw's vertices and a tile's fragments may leave its last block short. -/
def Launch.blockThreads (l : Launch) (index : Nat) : Nat :=
  match l.use with
  | .vertex _ _ => min l.threads (l.payload.length - index * l.threads)
  | .fragment _ _ => min l.threads (l.payload.length - index * l.threads)
  | _ => l.threads

/-- A launch with a block retired; a vertex launch keeps what each thread ended with, a fragment launch what each thread
that was not discarded ended with (R179, R187). -/
def Launch.retire (l : Launch) (blk : Block) (qs : List (Nat × Quire)) : Launch :=
  let keep (q : Quire) (n : Nat) : Bool := match l.use with
    | .vertex _ _ => true
    | .fragment _ _ => !bitAt q.discarded.toNat n
    | _ => false
  let outs := qs.flatMap (fun e =>
      ((List.range 32).filter (fun n => 32 * e.2.idx + n < l.blockThreads blk.index && keep e.2 n)).map
        (fun n => (blk.index * l.threads + 32 * e.2.idx + n, e.2.outputs n)))
  { l with retired := l.retired + 1, outs := l.outs ++ outs }

/-- A compute launch whose last block has retired completes; its command reaches OK (R250). A column ends (R438). The
vertices of a draw and the fragments of a tile go back to their pass. -/
def State.launchDone (s : State) (id : Nat) : State :=
  match s.launch id with
  | none => s
  | some l =>
    if l.retired = l.total then
      match l.use with
      | .compute c => ({ s with launches := storeErase s.launches id }).setResult c stOk
      | .column _ _ => s.columnEnd id stOk
      | .vertex _ _ => s.vertsDone l
      | .fragment _ _ => s.fragsDone l
    else s

/-- A block retires (R64, R75): with a lock still owned it faults, and the fault is not trapped, since no quire of it is
live; otherwise it leaves the vat. -/
def State.retireBlock (s : State) (vat b : Nat) : State :=
  let v := s.vat vat
  let qs := v.byIndex b
  match storeFind v.blocks b with
  | none => s
  | some blk =>
    match s.launch blk.launch with
    | none => s
    | some l =>
      match sortBy (fun (x y : Nat) => x ≤ y) (qs.flatMap (fun e => s.ownedLocks vat e.1)) with
      | h :: _ =>
        match qs with
        | (slot, q) :: _ => s.reportFault vat slot q l (stExec 5 h) q.pc q.active.toNat
        | [] => s
      | [] =>
        ((s.setLaunch blk.launch (l.retire blk qs)).removeBlock vat b).settlePreempt vat |>.launchDone blk.launch

/-- A finished quire's sets are released (R150). -/
def Vat.releaseSets (v : Vat) (slot : Nat) : Vat :=
  { v with sets := v.sets.filter (fun e => match e.2.owner with
      | some (o, _) => o ≠ slot
      | none => true) }

/-- A quire slot has tensor instructions in the beater. -/
def Vat.inBeater (v : Vat) (slot : Nat) : Bool := v.ops.any (fun o => o.slot = slot)

/-- What follows an instruction that may end lanes, park them or arrive them: the barriers of the block (R69), the sets of
a finished quire, and the block's retirement when every quire has finished (R64). A finished quire's tensor instructions
complete first: their results are as if each were performed whole in beater order (R165). -/
def State.settle (s : State) (vat b : Nat) : State :=
  let v := s.vat vat
  let v1 := (v.quiresOf b).foldl (fun (v : Vat) e => if e.2.live || v.inBeater e.1 then v else v.releaseSets e.1) v
  let s1 := (s.setVat vat v1).evalBarriers vat b
  let v2 := s1.vat vat
  let qs := v2.quiresOf b
  if qs ≠ [] && qs.all (fun e => !e.2.live && !v2.inBeater e.1) then s1.retireBlock vat b else s1

end Sys2Proof.Machine
end

