-- ==== Sys2Proof/Machine/Preempt.lean ====
section
/-!
DEFINITION. Saving blocks (R309 to R312): which quires have yielded, the save slot, and the start of a block's save.
-/

namespace Sys2Proof.Machine

/-- A quire has yielded (R310). -/
def Quire.yielded (q : Quire) : Bool :=
  match q.wait with
  | .saved => true
  | .finished => true
  | .idle => true
  | .sync => true
  | .acq _ => true
  | _ => false

/-- Rows of a quire: V rounded up to a multiple of 8 (R56). -/
def Launch.vr (l : Launch) : Nat := roundUp l.vregs 8
/-- Quires of a block (R56). -/
def Launch.quires (l : Launch) : Nat := (l.threads + 31) / 32

/-- The size of a save slot (R311). -/
def Launch.saveSize (l : Launch) : Nat :=
  roundUp (4096 + l.quires * (1024 + 128 * l.vr) + l.lbytes + l.mbytes + l.bbytes + (if 0 < l.bbytes then 65536 else 0)) 4096

/-- The save slots in use or reserved by partition p: (address, bytes). -/
def State.saveSlots (s : State) (p : Nat) : List (Nat × Nat) :=
  ((s.sched.saved.filter (fun x => x.p = p)).map (fun x => (x.addr, x.size))) ++
  s.vats.flatMap (fun v => v.2.blocks.filterMap (fun b => match b.2.saving, s.launch b.2.launch with
    | some a, some l => if l.p = p then some (a, l.saveSize) else none
    | _, _ => none))

/-- The lowest free slot of a size in partition p's save area (R311); `fuel` bounds the slots passed over. -/
def freeSlot (used : List (Nat × Nat)) (top size : Nat) : Nat → Nat → Option Nat
  | 0, _ => none
  | fuel + 1, a =>
    if top < a + size then none
    else match used.find? (fun u => decide (a < u.1 + u.2) && decide (u.1 < a + size)) with
      | none => some a
      | some u => freeSlot used top size fuel (u.1 + u.2)

/-- The slot for a block of a launch. -/
def State.saveSlot (s : State) (l : Launch) : Option Nat :=
  let base := s.addrOf .SCH_SAVE_BASE_ADDR l.p
  let used := s.saveSlots l.p
  freeSlot used (base + s.rd .SCH_SAVE_SIZE_UNITS l.p * 65536) l.saveSize (used.length + 1) base

/-- When every quire of a block has yielded to a pre-emption of its partition and its tensor instructions have
completed, the save starts in the lowest free slot; with
no slot the block goes on running and FULL counts (R309 step 4, R312). -/
def State.trySave (s : State) (vat b : Nat) : State :=
  let v := s.vat vat
  match storeFind v.blocks b with
  | none => s
  | some blk =>
    match s.launch blk.launch with
    | none => s
    | some l =>
      if v.preempt.contains l.p && blk.saving.isNone && (v.quiresOf b).all (fun e => e.2.yielded) &&
          !v.ops.any (fun o => (v.quiresOf b).any (fun e => e.1 = o.slot)) then
        match s.saveSlot l with
        | some a => s.setBlock vat b { blk with saving := some a }
        | none =>
          let v1 := v.mapQuires b (fun _ q => if q.wait = .saved then { q with wait := .run, savedLive := none } else q)
          (s.setVat vat v1).count .SCH_SAVE_USE_FULL 1 l.p
      else s

/-- Request the pre-emption of a vat for a partition (R309 steps 1 to 3): its preload slot empties when it holds the
partition's launch, a pending request merges, and blocks whose quires have all yielded are saved. -/
def State.preempt (s : State) (vat p : Nat) : State :=
  let v := s.vat vat
  let mine (id : Nat) : Bool := match s.launch id with
    | some l => l.p = p
    | none => false
  let v1 := { v with
    preload := match v.preload with
      | some id => if mine id then none else some id
      | none => none
    preempt := if v.preempt.contains p || !s.hasBlock vat p then v.preempt else v.preempt ++ [p] }
  (v1.blocks.map (·.1)).foldl (fun (s : State) b => s.trySave vat b) (s.setVat vat v1)

end Sys2Proof.Machine
end

