-- ==== Sys2Proof/Machine/Issue.lean ====
section
/-!
DEFINITION. The prelude that every instruction of a vat shares (R97, R98, R309): which quire may issue, the checks, and
what follows.
-/

namespace Sys2Proof.Machine

/-- The quire of a vat slot with its block and launch, when it may issue (R49, R81): not while its block is
saved, nor while another quire of it runs the handler. -/
def State.ready (s : State) (vat slot : Nat) : Option (Quire × Block × Launch) :=
  match s.quire vat slot with
  | none => none
  | some q =>
    if q.wait ≠ .run then none
    else match s.block vat q.block with
      | none => none
      | some b =>
        if b.saving.isSome || (b.handler.isSome && b.handler ≠ some slot) then none
        else (s.launch b.launch).map (fun l => (q, b, l))

/-- Issue the instruction at the quire's pc when its opcode is `op` (R97, R98): with no executing lane it only moves on;
an illegal encoding or an operand out of range faults; otherwise `k` runs. A block whose quires have all
yielded by it may start to be saved (R309). -/
def State.issue (s : State) (vat slot op : Nat) (k : State → BCtx → State) : State :=
  if !s.live then s
  else match s.ready vat slot with
    | none => s
    | some (q, b, l) =>
      match decodeInst l.mod.code q.pc with
      | none => s
      | some i =>
        if i.op ≠ op then s
        else
          let c : BCtx := ⟨vat, slot, q, b, l, i⟩
          let s0 := s.count .VAT_ISSUED_COUNT 1 vat
          let s1 :=
            if execLanes q i = 0 then s0.setQuire vat slot { q with pc := i.next }
            else if !legal i then s0.raiseFault vat slot (stIllegal i.op)
            else match rangeFault i l.vregs with
              | some f => s0.raiseFault vat slot (stExec 8 f)
              | none => k (s0.rcStep c) c
          s1.trySave vat q.block

/-- Finish a plain instruction: the quire's new registers, at the next instruction. -/
def BCtx.done (c : BCtx) (s : State) (q : Quire) : State := c.put s { q with pc := c.i.next }

/-- An instruction that writes D in each computing lane by a function of the lane. -/
def State.perLane (s : State) (vat slot op : Nat) (f : BCtx → Nat → Nat) : State :=
  s.issue vat slot op (fun s c => c.done s (c.writeD (c.doers.map (fun n => (n, f c n)))))

end Sys2Proof.Machine
end

