-- ==== Sys2Proof/Machine/BpcMem.lean ====
section
/-!
DEFINITION. The memory instructions of BPC (R105, R111 to R117): LD, ST, MORDER, PREFETCH, L1INV and the atomics. An
instruction whose access has to wait leaves its quire at the instruction; it is issued again when the wait is over.
-/

namespace Sys2Proof.Machine

/-! ### Waiting and failing -/

/-- Requests of a quire, its stores included, are outstanding outside the chip. -/
def State.asksOut (s : State) (vat slot : Nat) : Bool :=
  let mine (o : Owner) : Bool := o = .quire vat slot || o = .store vat slot
  s.ring.reqs.any (fun r => mine r.owner) || s.pcie.reqs.any (fun r => mine r.owner)

/-- The quire waits: for a migration, or for answers from outside the chip (R340, R341). A quire whose access a stuff box
holds asks again (R327). -/
def State.waitOn (s : State) (vat slot : Nat) : State :=
  match s.quire vat slot with
  | none => s
  | some q =>
    let mig := s.xlt.waits.any (fun w => w.who = .quire vat slot)
    if q.wait ≠ .run then s
    else if mig then s.setQuire vat slot { q with wait := .migration }
    else if s.asksOut vat slot then s.setQuire vat slot { q with wait := .remote [] }
    else s

/-- The issue counters and the register cache as they were before an attempt that has to wait. -/
def State.uncount (s2 s : State) (vat : Nat) : State :=
  let s3 := [Field.VAT_ISSUED_COUNT, .VAT_RC_HITS_COUNT, .VAT_BANK_STALLS_COUNT].foldl
    (fun (x : State) f => x.wr f (s.rd f vat) vat) s2
  s3.setVat vat { s3.vat vat with rc := (s.vat vat).rc }

/-- Issue an instruction that may have to wait: `k` answers whether it is done. -/
def State.issueMem (s : State) (vat slot op : Nat) (k : State → BCtx → State × Bool) : State :=
  s.issue vat slot op (fun s1 c =>
    match k s1 c with
    | (s2, true) => s2
    | (s2, false) => (s2.uncount s vat).waitOn vat slot)

/-- Drop the fetched bytes of a quire's finished access. -/
def State.dropFetched (s : State) (who : Owner) : State :=
  { s with xlt := { s.xlt with fetched := s.xlt.fetched.filter (fun f => f.owner ≠ who) } }

/-- The work of this quire, as the owner of an access. -/
def BCtx.owner (c : BCtx) : Owner := .quire c.vat c.slot

/-- A vat as a requester. -/
def vatAsker (vat p : Nat) : Asker := ⟨.vat (Fin.ofNat 64 vat), 0, p⟩

/-- How an access that does not complete ends: it waits, or the quire is held and the partition torn down (R340, R369). -/
def BCtx.fail (c : BCtx) (s : State) : Fail → State × Bool
  | .stall => (s, false)
  | f => ((c.put s { c.q with wait := .held }).failTile c.l.p c.vat c.l.tag f, true)

/-! ### Press -/

/-- A byte of press that nothing has written is free (log entry 4). -/
def pressByte (seed : Option Nat) (space : Nat) (m : Mem) (a : Nat) : Byte :=
  match storeFind m a with
  | some b => b
  | none => match seed with
    | some n => Config.newPress n (space * 2 ^ 32 + a)
    | none => 0

/-- Write bytes of press. -/
def pressPut (m : Mem) (a : Nat) (bs : List Byte) : Mem :=
  (indexed bs).foldl (fun m x => storePut (a + x.1) x.2 m) m

/-- Bytes of a block's press: 1 local store, 2 tile memory, 3 beater buffer. -/
def Block.press (b : Block) (space a n : Nat) : List Byte :=
  let m := if space = 1 then b.loc else if space = 2 then b.tile else b.buf
  (List.range n).map (fun i => pressByte b.seed space m (a + i))

/-- A block with press bytes written. -/
def Block.setPress (b : Block) (space a : Nat) (bs : List Byte) : Block :=
  if space = 1 then { b with loc := pressPut b.loc a bs }
  else if space = 2 then { b with tile := pressPut b.tile a bs }
  else { b with buf := pressPut b.buf a bs }

/-! ### L1 -/

/-- Drop the vat's clean L1 lines (R115, L1INV): L1 is write-through, so every line is clean. -/
def State.dropL1 (s : State) (vat : Nat) : State := s.setVat vat { s.vat vat with l1 := [] }

/-- The bytes of a local physical range that the vat's L1 holds, when it holds all of them. -/
def State.l1Bytes (s : State) (vat pa n : Nat) : Option (List Byte) :=
  (List.range n).mapM (fun i => storeFind (s.vat vat).l1 (pa + i))

/-- Put bytes into a vat's L1. -/
def State.l1Put (s : State) (vat pa : Nat) (bs : List Byte) : State :=
  s.setVat vat { s.vat vat with l1 := pressPut (s.vat vat).l1 pa bs }

/-- Bring the line of an address into L1: the sectors that can be read (log entry 9). -/
def State.l1Fill (s : State) (vat pa : Nat) : State :=
  let base := pa / 128 * 128
  [0, 32, 64, 96].foldl (fun (x : State) o =>
    if s.sectorBad (base + o) = 0 then x.l1Put vat (base + o) (s.sectorView (base + o)) else x) s

/-- The vat's L1 takes new bytes where it holds the line (the preamble of R114). -/
def State.l1Update (s : State) (vat pa : Nat) (bs : List Byte) : State :=
  match (s.vat vat).l1 with
  | [] => s
  | m => s.setVat vat { s.vat vat with
      l1 := m.map (fun e => if pa ≤ e.1 && e.1 < pa + bs.length then (e.1, bs.getD (e.1 - pa) e.2) else e) }

/-- Read local bytes for a vat through L1 and L2 (R333, R100 CACHE: 0 by the page's policy, 1 streaming, 2 bypass). Where
L1's bytes differ from the L2's, a weak load may return either (R115, R117). -/
def State.cachedRead (s : State) (vat p : Nat) (x : Xlat) (cache pa n : Nat) : State × Option (List Byte) :=
  let below (s : State) : State × Option (List Byte) :=
    match s.l2Read (vatAsker vat p) (policyOf x.cache) pa n with
    | (s1, none) => (s1, none)
    | (s1, some bs) =>
      (if cache = 0 && x.cache = 0 then s1.l1Fill vat pa else s1.l1Update vat pa bs, some bs)
  if cache = 2 then below s
  else match s.l1Bytes vat pa n with
    | none => below s
    | some bs =>
      if bs = s.physBytes pa n then (s, some bs)
      else
        let (k, s1) := s.takeFree
        if Config.useStaleL1 k then (s1, some bs) else below s1

/-! ### Global accesses -/

/-- Read bytes of one page for a quire (R336, R338): local through the caches; from outside the chip once they have come. -/
def BCtx.readPage (c : BCtx) (s : State) (x : Xlat) (cache va n : Nat) : State × Except Fail (List Byte) :=
  let a := x.pfn * 4096 + va % 4096
  let come (addr : Nat) : Option (List Byte) := (s.takeFetched c.owner addr n).map (·.1)
  if x.loc then
    match come (hostTag + a) with
    | some bs => (s, .ok bs)
    | none =>
      if (s.fnCfg (s.fnOf c.l.p)).sends then (s.readHost c.owner c.l.p (hostTag + a) n va, .error .stall)
      else (s, .error (.fault 3 stHostError va))
  else if a / 2 ^ 44 % 16 = s.pos then
    match s.cachedRead c.vat c.l.p x cache (a % 2 ^ 44) n with
    | (s1, some bs) => (s1, .ok bs)
    | (s1, none) => (s1, .error (.fault 3 (stMem 1 (s1.memDetail (a % 2 ^ 44))) va))
  else
    match come a with
    | some bs => (s, .ok bs)
    | none =>
      if s.reachable (a / 2 ^ 44 % 16) then (s.readRemote c.owner c.l.p a n va, .error .stall)
      else (s, .error (.fault 3 (stUnreachable (a / 2 ^ 44 % 16)) va))

/-- An access of a lane: lane, virtual address, bytes. -/
structure LaneAcc where
  lane : Nat
  va : Nat
  n : Nat
deriving DecidableEq, Repr

/-- The footprints of a list of accesses in ascending address order (R340). -/
def laneRanges (l : List LaneAcc) (rights : Nat) : List (Nat × Nat × Nat) :=
  sortBy (fun x y => x.1 ≤ y.1) (l.map (fun a => (a.va, a.n, rights)))

/-- The first failure of a list of outcomes that is not a wait; otherwise a wait, if there is one. -/
def worse (x y : Except Fail Unit) : Except Fail Unit :=
  match x, y with
  | .error (.fault a b d), _ => .error (.fault a b d)
  | _, .error f => .error f
  | e, .ok _ => e

/-- Run accesses lane by lane; a failure that is not a wait ends them. -/
def runLanes (f : State → LaneAcc → State × Except Fail Nat) (s : State) (l : List LaneAcc) :
    State × Except Fail Unit × List (Nat × Nat) :=
  l.foldl (fun (acc : State × Except Fail Unit × List (Nat × Nat)) a =>
    match acc.2.1 with
    | .error (.fault _ _ _) => acc
    | e =>
      match f acc.1 a with
      | (s1, .ok v) => (s1, e, acc.2.2 ++ [(a.lane, v)])
      | (s1, .error x) => (s1, worse e (.error x), acc.2.2)) (s, .ok (), [])

/-- Translate the footprints of accesses and run them; answers the lanes' values. -/
def BCtx.globally (c : BCtx) (s : State) (rights : Nat) (l : List LaneAcc)
    (f : State → Xlat → LaneAcc → State × Except Fail Nat) : State × Except Fail (List (Nat × Nat)) :=
  let asker := vatAsker c.vat c.l.p
  match s.footprints asker c.owner c.l.p (laneRanges l rights) with
  | (s1, .error e) => (s1, .error e)
  | (s1, .ok _) =>
    match runLanes (fun s a =>
        match s.translate asker c.owner c.l.p a.va rights with
        | (s2, .error e) => (s2, .error e)
        | (s2, .ok x) => f s2 x a) s1 l with
    | (s2, .ok _, vals) => (s2.dropFetched c.owner, .ok vals)
    | (s2, .error e, _) => (s2, .error e)

/-- Read a value in each lane. -/
def BCtx.readLanes (c : BCtx) (s : State) (cache : Nat) (l : List LaneAcc) : State × Except Fail (List (Nat × Nat)) :=
  c.globally s rightR l (fun s x a =>
    match c.readPage s x cache a.va a.n with
    | (s1, .ok bs) => (s1, .ok (ofLe bs))
    | (s1, .error e) => (s1, .error e))

/-- Store bytes at a lane's address: through to the L2, and into a matching L1 line. -/
def BCtx.storeOne (c : BCtx) (s : State) (x : Xlat) (va : Nat) (bs : List Byte) : State × Except Fail Nat :=
  match s.writePage (vatAsker c.vat c.l.p) c.owner c.l.p x va bs with
  | (s1, .error e) => (s1, .error e)
  | (s1, .ok _) =>
    let a := x.pfn * 4096 + va % 4096
    (if !x.loc && a / 2 ^ 44 % 16 = s.pos then s1.l1Update c.vat (a % 2 ^ 44) bs else s1, .ok 0)

/-! ### Addresses (R111) -/

/-- The offset: the X word, or 0 in form S. -/
def BCtx.offset (c : BCtx) : Nat := if c.i.fmt = 3 then c.i.x else 0

/-- A lane's address. -/
def BCtx.addr (c : BCtx) (lane : Nat) : Nat := (c.opA lane + c.offset) % 2 ^ 64

/-- The checks of one lane's address: alignment, then the range of its space. -/
def BCtx.addrFault (c : BCtx) (n lane : Nat) : Option Nat :=
  let a := c.addr lane
  if a % n ≠ 0 then some (stExec 6 c.i.space)
  else if c.i.space = 1 && c.l.lbytes < a + n then some (stExec 9 0)
  else if c.i.space = 2 && c.l.mbytes < a + n then some (stExec 0x0A 0)
  else none

/-- The fault of an access, if it has one (R61, R80, R111). -/
def BCtx.memFault (c : BCtx) (n : Nat) : Option Nat :=
  if c.i.space = 2 && c.l.mn3 then some (stExec 7 (c.i.op * 256)) else c.doers.findSome? (c.addrFault n)

/-- The global accesses of the lanes. -/
def BCtx.accs (c : BCtx) (n : Nat) : List LaneAcc := c.doers.map (fun k => ⟨k, c.addr k, n⟩)

/-! ### Loads and stores -/

/-- What a load of `n` bytes puts into its register group (R112). -/
def loadValue (n : Nat) (sign : Bool) (x : Nat) : Nat :=
  if sign && decide (n < 4) then wrapN 32 (sext (8 * n) x) else x

/-- A load's accesses of the constant bank (R111, R113): the bytes inside the bank. -/
def BCtx.constAccs (c : BCtx) (n : Nat) : List LaneAcc :=
  (c.doers.map (fun k => (⟨k, (c.l.const + c.addr k) % 2 ^ 64, min n (c.l.csize - c.addr k)⟩ : LaneAcc))).filter
    (fun a => a.n ≠ 0)

/-- End a load with the lanes' values. -/
def BCtx.loaded (c : BCtx) (s : State) (n : Nat) (vals : List (Nat × Nat)) : State :=
  c.done s (c.writeD (c.doers.map (fun k =>
    (k, loadValue n c.i.bit10 (((vals.find? (fun v => v.1 = k)).map (·.2)).getD 0)))))

/-- LD. -/
def BCtx.load (c : BCtx) (s : State) : State × Bool :=
  let n := 2 ^ c.i.size3
  match c.memFault n with
  | some f => (s.raiseFault c.vat c.slot f, true)
  | none =>
    if c.i.space = 1 || c.i.space = 2 then
      (c.loaded s n (c.doers.map (fun k => (k, ofLe (c.blk.press c.i.space (c.addr k) n)))), true)
    else
      let s0 := if c.i.memOrder = 1 then s.dropL1 c.vat else s
      let r := if c.i.space = 3 then c.readLanes s0 2 (c.constAccs n) else c.readLanes s0 c.i.cache (c.accs n)
      match r with
      | (s1, .ok vals) => (c.loaded s1 n vals, true)
      | (s1, .error f) => c.fail s1 f

/-- ST. -/
def BCtx.store (c : BCtx) (s : State) : State × Bool :=
  let n := 2 ^ c.i.size3
  match c.memFault n with
  | some f => (s.raiseFault c.vat c.slot f, true)
  | none =>
    if c.i.space ≠ 0 then
      let b := c.doers.foldl (fun (b : Block) k => b.setPress c.i.space (c.addr k) (toLe n (c.opB k))) c.blk
      (c.done (s.setBlock c.vat c.q.block b) c.q, true)
    else
      match c.globally s rightW (c.accs n) (fun s x a => c.storeOne s x a.va (toLe n (c.opB a.lane))) with
      | (s1, .ok _) => (c.done s1 c.q, true)
      | (s1, .error f) => c.fail s1 f

/-- LD (R105, R111 to R115). -/
def execLd (vat slot : Fin 64) (s : State) : Host.Outcome State Fault Refusal :=
  .next (s.issueMem vat slot 0x90 (fun s c => c.load s))

/-- ST (R105, R111 to R117): the highest-numbered lane's value remains. -/
def execSt (vat slot : Fin 64) (s : State) : Host.Outcome State Fault Refusal :=
  .next (s.issueMem vat slot 0x91 (fun s c => c.store s))

/-! ### Ordering -/

/-- Remote stores of a quire whose completions are outstanding (R424). -/
def State.storesOut (s : State) (vat slot : Nat) : Bool := s.ring.reqs.any (fun r => r.owner = .store vat slot)

/-- MORDER (R115, R166): waits for the quire's tensor instructions, and from RING scope on for its remote stores. -/
def BCtx.morder (c : BCtx) (s : State) : State × Bool :=
  let scope := bits c.i.mod 1 0
  if (s.vat c.vat).inBeater c.slot then (c.put s { c.q with wait := .order }, false)
  else if 2 ≤ scope && s.storesOut c.vat c.slot then (s, false)
  else (c.done (if 1 ≤ scope then s.dropL1 c.vat else s) c.q, true)

/-- MORDER (R105, R115). -/
def execMorder (vat slot : Fin 64) (s : State) : Host.Outcome State Fault Refusal :=
  .next (s.issueMem vat slot 0x92 (fun s c => c.morder s))

/-- One lane's prefetch: a line that translates to local DRAM comes into L2, and with CACHE 0 into L1 (R105, R341). -/
def BCtx.prefetchOne (c : BCtx) (s : State) (lane : Nat) : State :=
  let va := c.addr lane
  let asker := vatAsker c.vat c.l.p
  if 2 ^ 48 ≤ va then s
  else match s.walk asker c.l.p va with
    | (s1, .ok x) =>
      let a := (x.pfn * 4096 + va % 4096) / 128 * 128
      if x.loc || a / 2 ^ 44 % 16 ≠ s.pos || !x.r || (s.paBad a).isSome then s
      else
        let s2 := (s1.l2ReadSectors asker (policyOf x.cache) 4 (a % 2 ^ 44)).1
        if c.i.cache = 0 && x.cache = 0 then s2.l1Fill c.vat (a % 2 ^ 44) else s2
    | _ => s

/-- PREFETCH (R105): never fails. -/
def execPrefetch (vat slot : Fin 64) (s : State) : Host.Outcome State Fault Refusal :=
  .next (s.issue vat slot 0x93 (fun s c => c.done (c.lanes.foldl (fun s k => c.prefetchOne s k) s) c.q))

/-- L1INV (R105). -/
def execL1inv (vat slot : Fin 64) (s : State) : Host.Outcome State Fault Refusal :=
  .next (s.issue vat slot 0x94 (fun s c => c.done (s.dropL1 c.vat) c.q))

/-! ### Atomics -/

/-- The tag under which a lane's atomic on another chip is answered. -/
def atomTag (lane : Nat) : Nat := 2 ^ 61 + lane

/-- Send a lane's atomic to another chip, unless it is outstanding (R336, R422, R424). -/
def BCtx.sendAtom (c : BCtx) (s : State) (lane a va : Nat) : State :=
  if s.ring.reqs.any (fun r => r.owner = c.owner && r.addr = atomTag lane) then s
  else
    let dst := a / 2 ^ 44 % 16
    let opn := c.i.op + 256 * b2n (bitAt c.i.mod 3) + 512 * b2n (c.i.size2 = 3) + 1024 * c.i.atmOrder
    let tag := s.ring.tagNext
    let m := feltMsg 3 s.pos dst tag c.l.p (toLe 8 a ++ toLe 4 opn ++ toLe 8 (c.opB lane) ++ toLe 8 (c.opC lane))
    let r : Req := ⟨tag, 0, some dst, c.l.p, atomTag lane, 8, m, c.owner, va⟩
    ({ s with ring := { s.ring with reqs := s.ring.reqs ++ [r], tagNext := (tag + 1) % 65536 } }).feltSend dst m

/-- Where a lane's atomic is performed. -/
def atomOutside (s : State) (x : Xlat) (a : Nat) : Bool := x.loc || a / 2 ^ 44 % 16 ≠ s.pos

/-- What a lane's atomic outside the chip still needs: its answer, or the host's old value (R116, R338). -/
def BCtx.atomAsk (c : BCtx) (s : State) (x : Xlat) (acc : LaneAcc) : State × Except Fail Nat :=
  let a := x.pfn * 4096 + acc.va % 4096
  if x.loc then
    if (s.takeFetched c.owner (hostTag + a) acc.n).isSome then (s, .ok 0)
    else if (s.fnCfg (s.fnOf c.l.p)).sends then (s.readHost c.owner c.l.p (hostTag + a) acc.n acc.va, .error .stall)
    else (s, .error (.fault 3 stHostError acc.va))
  else if a / 2 ^ 44 % 16 = s.pos then (s, .ok 0)
  else if (s.takeFetched c.owner (atomTag acc.lane) 8).isSome then (s, .ok 0)
  else if s.reachable (a / 2 ^ 44 % 16) then (c.sendAtom s acc.lane a acc.va, .error .stall)
  else (s, .error (.fault 3 (stUnreachable (a / 2 ^ 44 % 16)) acc.va))

/-- The host's value at an address for this instruction: what the completion brought, or what an earlier lane left. -/
def State.hostOld (s : State) (who : Owner) (a n : Nat) (done : List (Nat × Nat)) : Nat :=
  match done.find? (fun d => d.1 = a) with
  | some d => d.2
  | none => match s.takeFetched who (hostTag + a) n with
    | some (bs, _) => ofLe bs
    | none => 0

/-- Perform one lane's atomic; the answer carries the host's values left so far. -/
def BCtx.atomOne (c : BCtx) (s : State) (x : Xlat) (acc : LaneAcc) : State × Except Fail Nat :=
  let a := x.pfn * 4096 + acc.va % 4096
  let sgn := bitAt c.i.mod 3
  if x.loc then
    let old := s.hostOld c.owner a acc.n []
    let new := atomNew c.i.op (8 * acc.n) sgn old (c.opB acc.lane) (c.opC acc.lane)
    let s1 := s.hostWrite a (toLe acc.n new)
    ({ s1 with xlt := { s1.xlt with fetched := s1.xlt.fetched.map (fun f =>
        if f.owner = c.owner && f.addr = hostTag + a then { f with bytes := toLe acc.n new } else f) } }, .ok old)
  else if a / 2 ^ 44 % 16 = s.pos then
    match s.l2Atomic (vatAsker c.vat c.l.p) (policyOf x.cache) c.i.op sgn (acc.n = 8) (a % 2 ^ 44) (c.opB acc.lane)
        (c.opC acc.lane) with
    | (s1, some old) => (s1.l1Update c.vat (a % 2 ^ 44) (s1.physBytes (a % 2 ^ 44) acc.n), .ok old)
    | (s1, none) => (s1, .error (.fault 3 (stMem 1 (s1.memDetail (a % 2 ^ 44))) acc.va))
  else
    match s.takeFetched c.owner (atomTag acc.lane) 8 with
    | some (bs, _) => (s, .ok (ofLe bs % 2 ^ (8 * acc.n)))
    | none => (s, .error .stall)

/-- End an atomic: D takes each lane's old value unless NORET is set. -/
def BCtx.atomDone (c : BCtx) (s : State) (vals : List (Nat × Nat)) : State :=
  c.done s (if c.i.bit10 then c.q else c.writeD vals)

/-- Atomics on the local store, in ascending lane order (R117). -/
def BCtx.atomLocal (c : BCtx) (s : State) (n : Nat) : State :=
  let r := c.doers.foldl (fun (acc : Block × List (Nat × Nat)) k =>
    let old := ofLe (acc.1.press 1 (c.addr k) n)
    let new := atomNew c.i.op (8 * n) (bitAt c.i.mod 3) old (c.opB k) (c.opC k)
    (acc.1.setPress 1 (c.addr k) (toLe n new), acc.2 ++ [(k, old)])) (c.blk, [])
  c.atomDone (s.setBlock c.vat c.q.block r.1) r.2

/-- An atomic (R112, R114 to R117). A release at RING or HOST scope waits for the thread's remote stores. -/
def BCtx.atomic (c : BCtx) (s : State) : State × Bool :=
  let n := if c.i.size2 = 3 then 8 else 4
  let scope := bits c.i.mod 7 6
  match c.memFault n with
  | some f => (s.raiseFault c.vat c.slot f, true)
  | none =>
    if c.i.space = 1 then (c.atomLocal s n, true)
    else if c.i.atmOrder ≠ 0 && 2 ≤ scope && s.storesOut c.vat c.slot then (s, false)
    else
      let s0 := if c.i.atmOrder ≠ 0 && 1 ≤ scope then s.dropL1 c.vat else s
      let asker := vatAsker c.vat c.l.p
      let rw := rightR + rightW
      match s0.footprints asker c.owner c.l.p (laneRanges (c.accs n) rw) with
      | (s1, .error f) => c.fail s1 f
      | (s1, .ok _) =>
        match runLanes (fun s a =>
            match s.translate asker c.owner c.l.p a.va rw with
            | (s2, .error e) => (s2, .error e)
            | (s2, .ok x) => c.atomAsk s2 x a) s1 (c.accs n) with
        | (s2, .error f, _) => c.fail s2 f
        | (s2, .ok _, _) =>
          match c.globally s2 rw (c.accs n) (fun s x a => c.atomOne s x a) with
          | (s3, .ok vals) => (c.atomDone s3 vals, true)
          | (s3, .error f) => c.fail s3 f

/-- ATOM.ADD: memory = old + B (R105). -/
def execAtomAdd (vat slot : Fin 64) (s : State) : Host.Outcome State Fault Refusal :=
  .next (s.issueMem vat slot 0xA0 (fun s c => c.atomic s))

/-- ATOM.AND: memory = old AND B (R105). -/
def execAtomAnd (vat slot : Fin 64) (s : State) : Host.Outcome State Fault Refusal :=
  .next (s.issueMem vat slot 0xA1 (fun s c => c.atomic s))

/-- ATOM.OR: memory = old OR B (R105). -/
def execAtomOr (vat slot : Fin 64) (s : State) : Host.Outcome State Fault Refusal :=
  .next (s.issueMem vat slot 0xA2 (fun s c => c.atomic s))

/-- ATOM.XOR: memory = old XOR B (R105). -/
def execAtomXor (vat slot : Fin 64) (s : State) : Host.Outcome State Fault Refusal :=
  .next (s.issueMem vat slot 0xA3 (fun s c => c.atomic s))

/-- ATOM.MIN: memory = min(old, B) (R105). -/
def execAtomMin (vat slot : Fin 64) (s : State) : Host.Outcome State Fault Refusal :=
  .next (s.issueMem vat slot 0xA4 (fun s c => c.atomic s))

/-- ATOM.MAX: memory = max(old, B) (R105). -/
def execAtomMax (vat slot : Fin 64) (s : State) : Host.Outcome State Fault Refusal :=
  .next (s.issueMem vat slot 0xA5 (fun s c => c.atomic s))

/-- ATOM.EXCH: memory = B (R105). -/
def execAtomExch (vat slot : Fin 64) (s : State) : Host.Outcome State Fault Refusal :=
  .next (s.issueMem vat slot 0xA6 (fun s c => c.atomic s))

/-- ATOM.CAS: if old = B then memory = C (R105). -/
def execAtomCas (vat slot : Fin 64) (s : State) : Host.Outcome State Fault Refusal :=
  .next (s.issueMem vat slot 0xA7 (fun s c => c.atomic s))

/-- ATOM.INC: counts up to the ceiling B (R105). -/
def execAtomInc (vat slot : Fin 64) (s : State) : Host.Outcome State Fault Refusal :=
  .next (s.issueMem vat slot 0xA8 (fun s c => c.atomic s))

/-- ATOM.DEC: counts down to the floor B (R105). -/
def execAtomDec (vat slot : Fin 64) (s : State) : Host.Outcome State Fault Refusal :=
  .next (s.issueMem vat slot 0xA9 (fun s c => c.atomic s))

/-- ATOM.FADD: memory = old + B in FP32 (R105). -/
def execAtomFadd (vat slot : Fin 64) (s : State) : Host.Outcome State Fault Refusal :=
  .next (s.issueMem vat slot 0xAA (fun s c => c.atomic s))

end Sys2Proof.Machine
end

