-- ==== Sys2Proof/Machine/BpcSync.lean ====
section
/-!
DEFINITION. The sync-object instructions of BPC (R118, R276 to R284, R70 to R75): what the sync unit does for a request of
a lane, of this chip or of another (R422), and the instructions SYN.SIGNAL to SYN.EVENT.
-/

namespace Sys2Proof.Machine

/-! ### The sync unit's service of one request -/

/-- What the sync unit answers: the operation is not for this object, done with a status and a value, or it waits. -/
inductive SynOut
  | illegal
  | done (status data : Nat)
  | waits
deriving DecidableEq, Repr

/-- The operation may act on the object for partition p (R277). -/
def State.synMay (s : State) (p op h : Nat) : Bool :=
  let t := s.objType h
  if op = 0xB0 || op = 0x40 then s.owns p h && t = 1
  else if op = 0xB1 then s.owns p h && t = 4
  else if op = 0xB2 || op = 0x41 then s.holds p h && (t = 1 || t = 4)
  else if op = 0xB3 then s.holds p h
  else if op = 0xB4 || op = 0xB5 then s.owns p h && t = 2
  else if op = 0xB6 then s.owns p h && t = 3
  else false

/-- A request: partition, operation, object, owner identity, value, threshold or addend, timeout, tag of its message. -/
structure SynReq where
  p : Nat
  op : Nat
  h : Nat
  ident : Nat
  value : Nat
  arg : Nat
  timeout : Nat := 0
  tag : Nat := 0
deriving DecidableEq, Repr

/-- Serve a request (R277 to R279, R284). -/
def State.synServe (s : State) (r : SynReq) (who : Waiter) : State × SynOut :=
  if !s.synMay r.p r.op r.h then (s, .illegal)
  else if r.op = 0xB0 || r.op = 0x40 then (s.signal r.h r.value, .done stOk 0)
  else if r.op = 0xB1 then (s.counterAdd r.h (r.arg % 2 ^ 32), .done stOk (s.objValue r.h))
  else if r.op = 0xB2 || r.op = 0x41 then
    match s.waitStart r.h r.arg with
    | some st => (s, .done st 0)
    | none => (s.addWait r.h r.arg r.timeout who r.p, .waits)
  else if r.op = 0xB3 then (s, .done stOk (if s.objType r.h = 2 then s.lockAux r.h else s.objValue r.h))
  else if r.op = 0xB4 then
    match s.lockTry r.h r.ident with
    | (s1, some x) => (s1, .done stOk x)
    | (s1, none) =>
      let w : LockWaiter := ⟨r.h, r.ident / 2 ^ 17, r.ident / 2 ^ 11 % 64, r.ident / 2 ^ 5 % 64, r.ident % 32, r.tag⟩
      ({ s1 with sync := { s1.sync with lockq := s1.sync.lockq ++ [w] } }, .waits)
  else if r.op = 0xB5 then (if s.lockOwner r.h = some r.ident then s.lockFree r.h else s, .done stOk 0)
  else
    match s.arrive r.h who r.p with
    | (s1, true) => (s1, .waits)
    | (s1, false) => (s1, .done stOk 0)

/-! ### Lanes -/

/-- A lane's request: A names the object; B is the value, addend or threshold. -/
def BCtx.synReq (c : BCtx) (pos lane : Nat) : SynReq where
  p := c.l.p
  op := c.i.op
  h := c.opA lane
  ident := lockIdent pos c.vat c.slot lane
  value := if c.i.op = 0xB0 then c.opB lane else 0
  arg := if c.i.op = 0xB1 || c.i.op = 0xB2 then c.opB lane else 0
  timeout := if c.i.op = 0xB2 && c.i.fmt = 3 then c.i.x else 0

/-- The instruction writes D, and how many words. -/
def synWords (op : Nat) : Nat := if op = 0xB1 || op = 0xB3 then 2 else if op = 0xB2 || op = 0xB6 then 1 else 0

/-- A lane's result goes to D. -/
def State.synWrite (s : State) (c : BCtx) (lane status data : Nat) : State :=
  let k := synWords c.i.op
  match s.quire c.vat c.slot with
  | some q => if k = 0 then s else s.setQuire c.vat c.slot (q.putGroup c.i.d k lane (if k = 2 then data else status))
  | none => s

/-- The instruction acquires at RING scope when a lane is satisfied (R115). -/
def synAcquires (op status : Nat) : Bool := (op = 0xB2 || op = 0xB6) && statusOk status

/-- Start the lanes of an instruction that may wait: its pc moves on and its wait is set. -/
def BCtx.synStart (c : BCtx) (s : State) : State :=
  let w : QWait := if c.i.op = 0xB4 then .lock (BitVec.ofNat 32 (maskOf c.doers)) c.i.d [] else .sync
  c.put s { c.q with pc := c.i.next, wait := w }

/-- The lanes of a LOCK.ACQ that wait make the block's patience counter advance (R77). -/
def State.noteLockWait (s : State) (vat slot : Nat) : State :=
  match s.quire vat slot with
  | some q => match q.wait with
    | .lock _ _ _ => match s.block vat q.block with
      | some b => s.setBlock vat q.block { b with lockWait := true }
      | none => s
    | _ => s
  | none => s

/-- One lane served by this chip's sync unit. -/
def BCtx.synLane (c : BCtx) (s : State) (lane : Nat) : State :=
  match s.synServe (c.synReq s.pos lane) (.lane c.vat c.slot lane c.i.d) with
  | (s1, .done st data) =>
    if c.i.op = 0xB4 then s1.lockLane c.vat c.slot lane data
    else (if synAcquires c.i.op st then s1.dropL1 c.vat else s1).synWrite c lane st data
  | (s1, _) => s1

/-- The lanes served here, in ascending order (R118); an object that the operation may not act on faults before any
effect. -/
def BCtx.synHere (c : BCtx) (s : State) : State :=
  if c.doers.any (fun n => !s.synMay c.l.p c.i.op (c.opA n)) then s.raiseFault c.vat c.slot (stIllegal c.i.op)
  else
    let s0 := if c.i.op = 0xB5 then s.resetPatience c.vat c.q.block else s
    let s1 := c.doers.foldl (fun s n => c.synLane s n) (c.synStart s0)
    if c.i.op = 0xB4 then s1.noteLockWait c.vat c.slot else s1.quireResume c.vat c.slot false

/-! ### Objects of a partition homed on another chip (R266, R422) -/

/-- The home position of a partition. -/
def State.homeOf (s : State) (p : Nat) : Nat :=
  match s.part p with
  | some r => r.home
  | none => s.pos

/-- The tag under which a lane's sync request is answered. -/
def synTag (lane : Nat) : Nat := 2 ^ 62 + lane

/-- The operations that wait at the home chip. -/
def synWaits (op : Nat) : Bool := op = 0xB2 || op = 0xB4 || op = 0xB6

/-- Send a lane's request home; `n` of the request record keeps the instruction's word index. -/
def BCtx.synSend (c : BCtx) (s : State) (lane : Nat) : State :=
  if s.ring.reqs.any (fun r => r.owner = c.owner && r.addr = synTag lane) then s
  else
    let dst := s.homeOf c.l.p
    let r := c.synReq s.pos lane
    let tag := s.ring.tagNext
    let m := feltMsg 4 s.pos dst tag c.l.p (toLe 2 r.h ++ toLe 1 r.op ++ [0] ++ toLe 4 r.ident ++ toLe 8 r.value ++
      toLe 8 r.arg)
    let q : Req := ⟨tag, 0, some dst, c.l.p, synTag lane, c.i.pc, m, c.owner, 0⟩
    ({ s with ring := { s.ring with reqs := s.ring.reqs ++ [q], tagNext := (tag + 1) % 65536 } }).feltSend dst m

/-- A lane's answer: status and value. -/
def BCtx.synAnswer (c : BCtx) (s : State) (lane : Nat) : Option (Nat × Nat) :=
  (s.takeFetched c.owner (synTag lane) 12).map (fun x => (leAt x.1 0 4, leAt x.1 4 8))

/-- The waits of a remote instruction, with the waiting vat's own timers (R266): the object's number lies past the table,
so that nothing here evaluates them. -/
def BCtx.synRemoteWait (c : BCtx) (s : State) (lane : Nat) : State :=
  if c.i.op = 0xB4 then s
  else
    let r := c.synReq s.pos lane
    let (id, s1) := s.takeId
    s1.setWaits (s1.sync.waits ++
      [⟨id, 16384 + r.h % 16384, r.arg, r.timeout, .lane c.vat c.slot lane c.i.d, c.l.p, true, none⟩])

/-- An instruction on objects of another chip: waiting operations go on when their completions come; the others wait for
them at the instruction. -/
def BCtx.synAway (c : BCtx) (s : State) : State × Bool :=
  let dst := s.homeOf c.l.p
  if c.doers.any (fun n => 16384 ≤ c.opA n) then (s.raiseFault c.vat c.slot (stIllegal c.i.op), true)
  else if !s.reachable dst then c.fail s (.fault 3 (stUnreachable dst) 0)
  else if synWaits c.i.op then
    let s1 := c.doers.foldl (fun s n => (c.synRemoteWait (c.synSend s n) n)) (c.synStart s)
    (if c.i.op = 0xB4 then s1.noteLockWait c.vat c.slot else s1, true)
  else
    let as := c.doers.map (fun n => (n, c.synAnswer s n))
    if as.any (fun a => a.2.isNone) then
      (c.doers.foldl (fun s n => if (c.synAnswer s n).isSome then s else c.synSend s n) s, false)
    else
      let s0 := s.dropFetched c.owner
      if as.any (fun a => match a.2 with
          | some (st, _) => !statusOk st
          | none => false) then
        (s0.raiseFault c.vat c.slot (stIllegal c.i.op), true)
      else
        let s1 := if c.i.op = 0xB5 then s0.resetPatience c.vat c.q.block else s0
        let s2 := c.put s1 { c.q with pc := c.i.next }
        (as.foldl (fun (s : State) a => match a.2 with
          | some (st, data) => s.synWrite c a.1 st data
          | none => s) s2, true)

/-- The operations that release at RING scope (R115). -/
def synReleases (op : Nat) : Bool := op = 0xB0 || op = 0xB1 || op = 0xB5 || op = 0xB6 || op = 0xB7

/-- A sync instruction: a release waits for the thread's remote stores (R424). -/
def BCtx.syn (c : BCtx) (s : State) : State × Bool :=
  if synReleases c.i.op && s.storesOut c.vat c.slot then (s, false)
  else if s.homeOf c.l.p = s.pos then (c.synHere s, true)
  else c.synAway s

/-- SYN.SIGNAL (R105, R277). -/
def execSynSignal (vat slot : Fin 64) (s : State) : Host.Outcome State Fault Refusal :=
  .next (s.issueMem vat slot 0xB0 (fun s c => c.syn s))

/-- SYN.ADD (R105, R277). -/
def execSynAdd (vat slot : Fin 64) (s : State) : Host.Outcome State Fault Refusal :=
  .next (s.issueMem vat slot 0xB1 (fun s c => c.syn s))

/-- SYN.WAIT (R105, R277, R284). -/
def execSynWait (vat slot : Fin 64) (s : State) : Host.Outcome State Fault Refusal :=
  .next (s.issueMem vat slot 0xB2 (fun s c => c.syn s))

/-- SYN.READ (R105, R277). -/
def execSynRead (vat slot : Fin 64) (s : State) : Host.Outcome State Fault Refusal :=
  .next (s.issueMem vat slot 0xB3 (fun s c => c.syn s))

/-- LOCK.ACQ (R70 to R72). -/
def execLockAcq (vat slot : Fin 64) (s : State) : Host.Outcome State Fault Refusal :=
  .next (s.issueMem vat slot 0xB4 (fun s c => c.syn s))

/-- LOCK.REL (R278). -/
def execLockRel (vat slot : Fin 64) (s : State) : Host.Outcome State Fault Refusal :=
  .next (s.issueMem vat slot 0xB5 (fun s c => c.syn s))

/-- SYN.ARRIVE (R279). -/
def execSynArrive (vat slot : Fin 64) (s : State) : Host.Outcome State Fault Refusal :=
  .next (s.issueMem vat slot 0xB6 (fun s c => c.syn s))

/-- The EVENT record of a SYN.EVENT (R282, R295). -/
def synEventEv (p pos vat slot cookie : Nat) : Ev where
  kind := 0x02
  src := p
  detail := 2 ^ 31 + pos * 4096 + vat * 64 + slot
  p0 := cookie

/-- SYN.EVENT of every executing lane, in ascending order. -/
def BCtx.synEvent (c : BCtx) (s : State) : State × Bool :=
  if s.storesOut c.vat c.slot then (s, false)
  else
    let s1 := c.lanes.foldl (fun (s : State) n =>
      s.raisePart c.l.p (synEventEv c.l.p s.pos c.vat c.slot (c.opB n))) s
    (c.done s1 c.q, true)

/-- SYN.EVENT (R105, R282). -/
def execSynEvent (vat slot : Fin 64) (s : State) : Host.Outcome State Fault Refusal :=
  .next (s.issueMem vat slot 0xB7 (fun s c => c.synEvent s))

end Sys2Proof.Machine
end

