-- ==== Sys2Proof/Machine/BpcInt.lean ====
section
/-!
DEFINITION. The integer instructions of BPC (R102, R107).
-/

namespace Sys2Proof.Machine

/-- The width of a TYPE in bits (R100). -/
def tyBits (t : Nat) : Nat := if t = 2 || t = 3 then 64 else 32
/-- A TYPE is signed. -/
def tySigned (t : Nat) : Bool := t = 1 || t = 3

/-- A pattern as an integer of a TYPE. -/
def tyInt (t x : Nat) : Int := if tySigned t then sext (tyBits t) x else ((x % 2 ^ tyBits t : Nat) : Int)
/-- The least value of a TYPE. -/
def tyMin (t : Nat) : Int := if tySigned t then -(2 ^ (tyBits t - 1) : Nat) else 0
/-- The greatest value of a TYPE. -/
def tyMax (t : Nat) : Int := if tySigned t then (2 ^ (tyBits t - 1) : Nat) - 1 else (2 ^ tyBits t : Nat) - 1

/-- Operand A as an integer of TYPE. -/
def BCtx.ia (c : BCtx) (n : Nat) : Int := tyInt c.i.ty (c.opA n)
/-- Operand B. -/
def BCtx.ib (c : BCtx) (n : Nat) : Int := tyInt c.i.ty (c.opB n)
/-- Operand C. -/
def BCtx.ic (c : BCtx) (n : Nat) : Int := tyInt c.i.ty (c.opC n)

/-- An exact result wrapped to TYPE (R107). -/
def BCtx.wrap (c : BCtx) (r : Int) : Nat := wrapN (tyBits c.i.ty) r
/-- An exact result, saturated with SAT to the nearest bound, otherwise wrapped (R107). -/
def BCtx.satWrap (c : BCtx) (r : Int) : Nat :=
  c.wrap (if c.i.sat then max (tyMin c.i.ty) (min (tyMax c.i.ty) r) else r)

/-- IDIV (R102, R107): truncated toward zero, with the cases of B = 0 and of the most negative value by −1. -/
def idivVal (t : Nat) (a b : Int) : Int :=
  if b = 0 then if tySigned t then (if 0 ≤ a then -1 else 1) else tyMax t
  else Int.tdiv a b
/-- IREM (R107). -/
def iremVal (a b : Int) : Int := if b = 0 then a else Int.tmod a b

/-- A shift count: the operand read as unsigned (R107). -/
def BCtx.count (c : BCtx) (n : Nat) : Nat := c.opB n % 2 ^ tyBits c.i.ty
/-- SHL (R107). -/
def shlVal (w a k : Nat) : Nat := if w ≤ k then 0 else a * 2 ^ k % 2 ^ w
/-- SHR (R102, R107): the floor of the typed value divided by 2^k, which fills with the sign. -/
def shrVal (w : Nat) (a : Int) (k : Nat) : Int := a / (2 ^ min k w : Nat)

/-- The bits below 32 of a field at an offset (R107). -/
def fieldWidth (ctl : Nat) : Nat := min (bits ctl 15 8) (32 - bits ctl 7 0)
/-- FEXT (R102, R107). -/
def fextVal (signed : Bool) (a ctl : Nat) : Nat :=
  let w := fieldWidth ctl
  if w = 0 then 0
  else
    let f := a / 2 ^ bits ctl 7 0 % 2 ^ w
    if signed then wrapN 32 (sext w f) else f
/-- FINS (R102, R107). -/
def finsVal (a b ctl : Nat) : Nat :=
  let w := fieldWidth ctl
  if w = 0 then a % 2 ^ 32
  else
    let m := (2 ^ w - 1) * 2 ^ bits ctl 7 0
    andNot (a % 2 ^ 32) m ||| (b * 2 ^ bits ctl 7 0 &&& m)

/-- CLZ (R102). -/
def clzVal (w a : Nat) : Nat := if a % 2 ^ w = 0 then w else w - 1 - log2 (a % 2 ^ w)
/-- RVRS (R102). -/
def rvrsVal (w a : Nat) : Nat := maskOf ((bitIdx w a).map (fun k => w - 1 - k))
/-- The products of BDOT (R102). -/
def bdotVal (signed : Bool) (a b : Nat) : Int :=
  ((List.range 4).map (fun k =>
    let x := a / 2 ^ (8 * k) % 256
    let y := b / 2 ^ (8 * k) % 256
    if signed then sext 8 x * sext 8 y else ((x * y : Nat) : Int))).sum

/-- IADD (R102): D = A + B. -/
def execIadd (vat slot : Fin 64) (s : State) : Host.Outcome State Fault Refusal :=
  .next (s.perLane vat slot 0x01 (fun c n => c.satWrap (c.ia n + c.ib n)))

/-- ISUB (R102): D = A − B. -/
def execIsub (vat slot : Fin 64) (s : State) : Host.Outcome State Fault Refusal :=
  .next (s.perLane vat slot 0x02 (fun c n => c.satWrap (c.ia n - c.ib n)))

/-- IMUL (R102): the low half of A × B. -/
def execImul (vat slot : Fin 64) (s : State) : Host.Outcome State Fault Refusal :=
  .next (s.perLane vat slot 0x03 (fun c n => c.wrap (c.ia n * c.ib n)))

/-- IMULHI (R102): the high half of the double-width product. -/
def execImulhi (vat slot : Fin 64) (s : State) : Host.Outcome State Fault Refusal :=
  .next (s.perLane vat slot 0x04 (fun c n => c.wrap (c.ia n * c.ib n / (2 ^ tyBits c.i.ty : Nat))))

/-- IMAD (R102): D = A × B + C. -/
def execImad (vat slot : Fin 64) (s : State) : Host.Outcome State Fault Refusal :=
  .next (s.perLane vat slot 0x05 (fun c n => c.satWrap (c.ia n * c.ib n + c.ic n)))

/-- IDIV (R102). -/
def execIdiv (vat slot : Fin 64) (s : State) : Host.Outcome State Fault Refusal :=
  .next (s.perLane vat slot 0x06 (fun c n => c.wrap (idivVal c.i.ty (c.ia n) (c.ib n))))

/-- IREM (R102): D = A − B × IDIV(A, B). -/
def execIrem (vat slot : Fin 64) (s : State) : Host.Outcome State Fault Refusal :=
  .next (s.perLane vat slot 0x07 (fun c n => c.wrap (iremVal (c.ia n) (c.ib n))))

/-- IMIN (R102): the lesser by TYPE. -/
def execImin (vat slot : Fin 64) (s : State) : Host.Outcome State Fault Refusal :=
  .next (s.perLane vat slot 0x08 (fun c n => c.wrap (min (c.ia n) (c.ib n))))

/-- IMAX (R102): the greater by TYPE. -/
def execImax (vat slot : Fin 64) (s : State) : Host.Outcome State Fault Refusal :=
  .next (s.perLane vat slot 0x09 (fun c n => c.wrap (max (c.ia n) (c.ib n))))

/-- IABS (R102, R107): the most negative value stays, or saturates with SAT. -/
def execIabs (vat slot : Fin 64) (s : State) : Host.Outcome State Fault Refusal :=
  .next (s.perLane vat slot 0x0A (fun c n => c.satWrap ((c.ia n).natAbs : Int)))

/-- INEG (R102): D = 0 − A. -/
def execIneg (vat slot : Fin 64) (s : State) : Host.Outcome State Fault Refusal :=
  .next (s.perLane vat slot 0x0B (fun c n => c.wrap (-(c.ia n))))

/-- AND (R102). -/
def execBpcAnd (vat slot : Fin 64) (s : State) : Host.Outcome State Fault Refusal :=
  .next (s.perLane vat slot 0x0C (fun c n => c.opA n &&& c.opB n))

/-- OR (R102). -/
def execBpcOr (vat slot : Fin 64) (s : State) : Host.Outcome State Fault Refusal :=
  .next (s.perLane vat slot 0x0D (fun c n => c.opA n ||| c.opB n))

/-- XOR (R102). -/
def execBpcXor (vat slot : Fin 64) (s : State) : Host.Outcome State Fault Refusal :=
  .next (s.perLane vat slot 0x0E (fun c n => c.opA n ^^^ c.opB n))

/-- NOT (R102). -/
def execBpcNot (vat slot : Fin 64) (s : State) : Host.Outcome State Fault Refusal :=
  .next (s.perLane vat slot 0x0F (fun c n => 2 ^ tyBits c.i.ty - 1 - c.opA n % 2 ^ tyBits c.i.ty))

/-- SHL (R102). -/
def execShl (vat slot : Fin 64) (s : State) : Host.Outcome State Fault Refusal :=
  .next (s.perLane vat slot 0x10 (fun c n => shlVal (tyBits c.i.ty) (c.opA n) (c.count n)))

/-- SHR (R102): logical for unsigned, arithmetic for signed. -/
def execShr (vat slot : Fin 64) (s : State) : Host.Outcome State Fault Refusal :=
  .next (s.perLane vat slot 0x11 (fun c n => c.wrap (shrVal (tyBits c.i.ty) (c.ia n) (c.count n))))

/-- FEXT (R102): a bit field of A, sign-extended for S32. -/
def execFext (vat slot : Fin 64) (s : State) : Host.Outcome State Fault Refusal :=
  .next (s.perLane vat slot 0x12 (fun c n => fextVal (c.i.ty = 1) (c.opA n) (c.opB n)))

/-- FINS (R102): A with a bit field replaced by the low bits of B. -/
def execFins (vat slot : Fin 64) (s : State) : Host.Outcome State Fault Refusal :=
  .next (s.perLane vat slot 0x13 (fun c n => finsVal (c.opA n) (c.opB n) (c.opC n)))

/-- ONES (R102): the number of 1 bits. -/
def execOnes (vat slot : Fin 64) (s : State) : Host.Outcome State Fault Refusal :=
  .next (s.perLane vat slot 0x14 (fun c n => popCount (tyBits c.i.ty) (c.opA n)))

/-- CLZ (R102): leading zero bits. -/
def execClz (vat slot : Fin 64) (s : State) : Host.Outcome State Fault Refusal :=
  .next (s.perLane vat slot 0x15 (fun c n => clzVal (tyBits c.i.ty) (c.opA n)))

/-- RVRS (R102): the bit order reversed. -/
def execRvrs (vat slot : Fin 64) (s : State) : Host.Outcome State Fault Refusal :=
  .next (s.perLane vat slot 0x16 (fun c n => rvrsVal (tyBits c.i.ty) (c.opA n)))

/-- ISUM (R102): D = A + B + C. -/
def execIsum (vat slot : Fin 64) (s : State) : Host.Outcome State Fault Refusal :=
  .next (s.perLane vat slot 0x17 (fun c n => c.satWrap (c.ia n + c.ib n + c.ic n)))

/-- BDOT (R102): the byte dot product added to C. -/
def execBdot (vat slot : Fin 64) (s : State) : Host.Outcome State Fault Refusal :=
  .next (s.perLane vat slot 0x18 (fun c n => c.wrap (c.ic n + bdotVal (c.i.ty = 1) (c.opA n) (c.opB n))))

end Sys2Proof.Machine
end

