-- ==== Sys2Proof/Machine/BpcFloat.lean ====
section
/-!
DEFINITION. The float instructions of BPC (R103, R108, R109) and FKIND (R104).
-/

namespace Sys2Proof.Machine

/-- The format of a float TYPE (R100, R108). -/
def tyFmt (t : Nat) : FFmt := if t = 5 then fF16 else if t = 6 then fBF16 else fF32

/-- The sign changes of a source before the operation (R108). -/
def fvMods (neg abs : Bool) (x : FVal) : FVal :=
  let y := if abs then x.absolute else x
  if neg then y.negate else y

/-- SAT (R108): the rounded result clamped to [+0, 1.0], with NaN giving +0. -/
def satFloat (f : FFmt) (x : Nat) : Nat :=
  match f.decode x with
  | .nan => 0
  | .inf n => if n then 0 else f.bias * 2 ^ f.fb
  | .fin n m e =>
    if n then 0
    else if fvLt (.fin false 1 0) (.fin false m e) then f.bias * 2 ^ f.fb else x

/-- Apply a function to a 32-bit value, or to each half (R108). -/
def halves (t : Nat) (f : Nat → Nat → Nat → Nat) (a b c : Nat) : Nat :=
  if t = 4 then f (a % 2 ^ 32) (b % 2 ^ 32) (c % 2 ^ 32)
  else f (a % 2 ^ 16) (b % 2 ^ 16) (c % 2 ^ 16) +
    2 ^ 16 * f (a / 2 ^ 16 % 2 ^ 16) (b / 2 ^ 16 % 2 ^ 16) (c / 2 ^ 16 % 2 ^ 16)

/-- A float operation of TYPE on exact values, rounded once by a mode, with NEG, ABS and SAT (R108). -/
def BCtx.float (c : BCtx) (n : Nat) (r : Round) (f : FVal → FVal → FVal → FVal) : Nat :=
  let fm := tyFmt c.i.ty
  let one (a b x : Nat) : Nat :=
    let y := fm.encode r (f (fvMods c.i.negA c.i.absA (fm.decode a)) (fvMods c.i.negB c.i.absB (fm.decode b)) (fm.decode x))
    if c.i.sat then satFloat fm y else y
  halves c.i.ty one (c.opA n) (c.opB n) (c.opC n)

/-- ROUND as a mode (R100). -/
def BCtx.rnd (c : BCtx) : Round := roundOf c.i.round

/-- FKIND's class bit (R104). -/
def kindBitOf (x : Nat) (neg abs : Bool) : Nat :=
  match fvMods neg abs (fF32.decode x) with
  | .nan => if bitAt x 22 then 2 ^ 8 else 2 ^ 9
  | .inf s => 2 ^ (6 + b2n s)
  | .fin s m _ => if m = 0 then 2 ^ b2n s else if m < 2 ^ 23 then 2 ^ (2 + b2n s) else 2 ^ (4 + b2n s)

/-- FADD (R103). -/
def execFadd (vat slot : Fin 64) (s : State) : Host.Outcome State Fault Refusal :=
  .next (s.perLane vat slot 0x20 (fun c n => c.float n c.rnd (fun a b _ => fvAdd c.rnd a b)))

/-- FSUB (R103). -/
def execFsub (vat slot : Fin 64) (s : State) : Host.Outcome State Fault Refusal :=
  .next (s.perLane vat slot 0x21 (fun c n => c.float n c.rnd (fun a b _ => fvAdd c.rnd a b.negate)))

/-- FMUL (R103). -/
def execFmul (vat slot : Fin 64) (s : State) : Host.Outcome State Fault Refusal :=
  .next (s.perLane vat slot 0x22 (fun c n => c.float n c.rnd (fun a b _ => fvMul a b)))

/-- FMA (R103): rounded once. -/
def execFma (vat slot : Fin 64) (s : State) : Host.Outcome State Fault Refusal :=
  .next (s.perLane vat slot 0x23 (fun c n => c.float n c.rnd (fun a b x => fvAdd c.rnd (fvMul a b) x)))

/-- FMIN (R103, R108). -/
def execFmin (vat slot : Fin 64) (s : State) : Host.Outcome State Fault Refusal :=
  .next (s.perLane vat slot 0x24 (fun c n => c.float n c.rnd (fun a b _ => fvMin a b)))

/-- FMAX (R103, R108). -/
def execFmax (vat slot : Fin 64) (s : State) : Host.Outcome State Fault Refusal :=
  .next (s.perLane vat slot 0x25 (fun c n => c.float n c.rnd (fun a b _ => fvMax a b)))

/-- FRND (R103). -/
def execFrnd (vat slot : Fin 64) (s : State) : Host.Outcome State Fault Refusal :=
  .next (s.perLane vat slot 0x26 (fun c n => c.float n c.rnd (fun a _ _ => fvRint c.rnd a)))

/-- FDIV (R103, R109). -/
def execFdiv (vat slot : Fin 64) (s : State) : Host.Outcome State Fault Refusal :=
  .next (s.perLane vat slot 0x27 (fun c n => c.float n .ne (fun a b _ => fvDiv a b)))

/-- FRCP (R103, R109). -/
def execFrcp (vat slot : Fin 64) (s : State) : Host.Outcome State Fault Refusal :=
  .next (s.perLane vat slot 0x28 (fun c n => c.float n .ne (fun a _ _ => fvDiv (.fin false 1 0) a)))

/-- FSQRT (R103, R109). -/
def execFsqrt (vat slot : Fin 64) (s : State) : Host.Outcome State Fault Refusal :=
  .next (s.perLane vat slot 0x29 (fun c n => c.float n .ne (fun a _ _ => fvSqrt a)))

/-- FRSQ (R103, R109). -/
def execFrsq (vat slot : Fin 64) (s : State) : Host.Outcome State Fault Refusal :=
  .next (s.perLane vat slot 0x2A (fun c n => c.float n .ne (fun a _ _ => fvRsqrt a)))

/-- FEXP2 (R103, R109). -/
def execFexp2 (vat slot : Fin 64) (s : State) : Host.Outcome State Fault Refusal :=
  .next (s.perLane vat slot 0x2B (fun c n => c.float n .ne (fun a _ _ => fvExp2 a)))

/-- FLOG2 (R103, R109). -/
def execFlog2 (vat slot : Fin 64) (s : State) : Host.Outcome State Fault Refusal :=
  .next (s.perLane vat slot 0x2C (fun c n => c.float n .ne (fun a _ _ => fvLog2 a)))

/-- FSIN (R103, R109): A in turns. -/
def execFsin (vat slot : Fin 64) (s : State) : Host.Outcome State Fault Refusal :=
  .next (s.perLane vat slot 0x2D (fun c n => c.float n .ne (fun a _ _ => fvSin a)))

/-- FCOS (R103, R109). -/
def execFcos (vat slot : Fin 64) (s : State) : Host.Outcome State Fault Refusal :=
  .next (s.perLane vat slot 0x2E (fun c n => c.float n .ne (fun a _ _ => fvCos a)))

/-- FSCALE (R103): A × 2^B, B read as S32. -/
def execFscale (vat slot : Fin 64) (s : State) : Host.Outcome State Fault Refusal :=
  .next (s.perLane vat slot 0x2F (fun c n => c.float n c.rnd (fun a _ _ => fvScale (max (-1024) (min 1024 (sext 32 (c.opB n)))) a)))

/-- FKIND (R104). -/
def execFkind (vat slot : Fin 64) (s : State) : Host.Outcome State Fault Refusal :=
  .next (s.perLane vat slot 0x56 (fun c n => kindBitOf (c.opA n) c.i.negA c.i.absA))

end Sys2Proof.Machine
end

