-- ==== Sys2Proof/Machine/BpcConvert.lean ====
section
/-!
DEFINITION. The conversion, compare, select, predicate and lane instructions of BPC (R104 to R106, R110), and the converter
of R129 to R132 that they share with the tensor units.
-/

namespace Sys2Proof.Machine

/-! ### The converter -/

/-- What an overflow or an infinity becomes (R130). -/
def cvtOver (f : FFmt) (ovf neg : Bool) : Nat :=
  match f.inf with
  | some i => if ovf && f ≠ fF32 then f.withSign neg f.maxFin else f.withSign neg i
  | none => if ovf then f.nan else f.withSign neg f.maxFin

/-- cvt(x, fmt, ovf) to a floating format (R129, R130). -/
def cvtFloat (f : FFmt) (ovf : Bool) : FVal → Nat
  | .nan => f.nan
  | .inf n => cvtOver f ovf n
  | .fin n m e =>
    if m = 0 then f.withSign n 0
    else
      let p := f.roundMag .ne n m e
      if f.maxFin < p then cvtOver f ovf n else f.withSign n p

/-- The FP8 format of FMT (R104). -/
def fp8 (b : Bool) : FFmt := if b then fE5M2 else fE4M3

/-! ### Conversions -/

/-- A source of STYPE as an exact value. -/
def cvtSource (t x : Nat) : FVal :=
  if t < 4 then .fin (decide (tyInt t x < 0)) (tyInt t x).natAbs 0
  else (tyFmt t).decode (if t = 4 then x % 2 ^ 32 else x % 2 ^ 16)

/-- CVT (R104, R110). -/
def cvtVal (dt st : Nat) (r : Round) (x : Nat) : Nat :=
  if dt < 4 then
    if st < 4 then wrapN (tyBits dt) (tyInt st x)
    else wrapN (tyBits dt) (fvToInt r (tyMin dt) (tyMax dt) (cvtSource st x))
  else (tyFmt dt).encode r (cvtSource st x)

/-- CVT. -/
def execCvt (vat slot : Fin 64) (s : State) : Host.Outcome State Fault Refusal :=
  .next (s.perLane vat slot 0x40 (fun c n => cvtVal c.i.ty c.i.sty (roundOf c.i.cvtRound) (c.opA n)))

/-- F2F8 (R104, R110). -/
def execF2f8 (vat slot : Fin 64) (s : State) : Host.Outcome State Fault Refusal :=
  .next (s.perLane vat slot 0x41 (fun c n => cvtFloat (fp8 c.i.cfmt) c.i.alt (fF32.decode (c.opA n % 2 ^ 32))))

/-- F82F (R104): exact. -/
def execF82f (vat slot : Fin 64) (s : State) : Host.Outcome State Fault Refusal :=
  .next (s.perLane vat slot 0x42 (fun c n => cvtFloat fF32 false ((fp8 c.i.cfmt).decode (c.opA n % 256))))

/-- PK2H (R104). -/
def execPk2h (vat slot : Fin 64) (s : State) : Host.Outcome State Fault Refusal :=
  .next (s.perLane vat slot 0x43 (fun c n =>
    let h (x : Nat) : Nat := (tyFmt c.i.ty).encode (roundOf c.i.cvtRound) (fF32.decode (x % 2 ^ 32))
    h (c.opA n) + 2 ^ 16 * h (c.opB n)))

/-- UPK2H (R104): exact. -/
def execUpk2h (vat slot : Fin 64) (s : State) : Host.Outcome State Fault Refusal :=
  .next (s.perLane vat slot 0x44 (fun c n =>
    cvtFloat fF32 false ((tyFmt c.i.sty).decode (c.opA n / 2 ^ (16 * b2n c.i.alt) % 2 ^ 16))))

/-- INRW (R104): saturated to 8 or 16 bits, then extended. -/
def inrwVal (dt st : Nat) (wide : Bool) (x : Nat) : Nat :=
  let k := if wide then 16 else 8
  let lo : Int := if dt = 1 then -(2 ^ (k - 1) : Nat) else 0
  let hi : Int := if dt = 1 then (2 ^ (k - 1) : Nat) - 1 else (2 ^ k : Nat) - 1
  wrapN 32 (max lo (min hi (tyInt st x)))

/-- INRW. -/
def execInrw (vat slot : Fin 64) (s : State) : Host.Outcome State Fault Refusal :=
  .next (s.perLane vat slot 0x45 (fun c n => inrwVal c.i.ty c.i.sty c.i.cfmt (c.opA n)))

/-! ### Compares -/

/-- COND on an order (R100, R108). On integers NUM holds and NAN does not. -/
def condVal (cond : Nat) (lt eq nan : Bool) : Bool :=
  match cond with
  | 0 => eq && !nan
  | 1 => !eq || nan
  | 2 => lt && !nan
  | 3 => (lt || eq) && !nan
  | 4 => !lt && !eq && !nan
  | 5 => !lt && !nan
  | 6 => !nan
  | _ => nan

/-- COMBINE with a predicate (R100). -/
def combineVal (k : Nat) (r c : Bool) : Bool := if k = 1 then r && c else if k = 2 then r || c else r

/-- A COND B on integers of TYPE. -/
def BCtx.icmp (c : BCtx) (n : Nat) : Bool :=
  condVal c.i.cond (decide (c.ia n < c.ib n)) (decide (c.ia n = c.ib n)) false

/-- A COND B on two values of a format. -/
def fcmpVal (f : FFmt) (cond a b : Nat) : Bool :=
  let x := f.decode a
  let y := f.decode b
  condVal cond (fvLt x y) (fvEq x y) (x.isNan || y.isNan)

/-- A COND B on floats of TYPE. On a pair of halves the spec states no combination: where the halves agree, that; where
they differ, a free value. -/
def BCtx.fcmp (c : BCtx) (n : Nat) : Bool :=
  let a := c.opA n
  let b := c.opB n
  let f := tyFmt c.i.ty
  if c.i.ty = 4 then fcmpVal f c.i.cond (a % 2 ^ 32) (b % 2 ^ 32)
  else
    let lo := fcmpVal f c.i.cond (a % 2 ^ 16) (b % 2 ^ 16)
    let hi := fcmpVal f c.i.cond (a / 2 ^ 16 % 2 ^ 16) (b / 2 ^ 16 % 2 ^ 16)
    if lo = hi then lo else bitAt (Config.undefinedWord (c.i.cond * 2 ^ 64 + a * 2 ^ 32 + b)).toNat 0

/-- A compare's predicate, combined with predicate C. -/
def BCtx.combined (c : BCtx) (n : Nat) (r : Bool) : Nat := b2n (combineVal c.i.combine r (c.opC n % 2 = 1))

/-- ICMPP (R104). -/
def execIcmpp (vat slot : Fin 64) (s : State) : Host.Outcome State Fault Refusal :=
  .next (s.perLane vat slot 0x50 (fun c n => c.combined n (c.icmp n)))

/-- FCMPP (R104). -/
def execFcmpp (vat slot : Fin 64) (s : State) : Host.Outcome State Fault Refusal :=
  .next (s.perLane vat slot 0x51 (fun c n => c.combined n (c.fcmp n)))

/-- ICMPM (R104). -/
def execIcmpm (vat slot : Fin 64) (s : State) : Host.Outcome State Fault Refusal :=
  .next (s.perLane vat slot 0x52 (fun c n => if c.icmp n then 0xFFFFFFFF else 0))

/-- FCMPM (R104). -/
def execFcmpm (vat slot : Fin 64) (s : State) : Host.Outcome State Fault Refusal :=
  .next (s.perLane vat slot 0x53 (fun c n => if c.fcmp n then 0xFFFFFFFF else 0))

/-! ### Select, move and predicates -/

/-- A moved source with NEG and ABS of a float TYPE (R100, R108). -/
def moveSrc (t : Nat) (neg abs : Bool) (x : Nat) : Nat :=
  if t < 4 then x
  else
    let f := tyFmt t
    let one (y _ _ : Nat) : Nat :=
      let z := if abs then clearBit y f.signBit else y
      if neg then z ^^^ 2 ^ f.signBit else z
    halves t one x 0 0

/-- A moved result with SAT of a float TYPE. -/
def moveOut (t : Nat) (sat : Bool) (x : Nat) : Nat :=
  if t < 4 || !sat then x else halves t (fun y _ _ => satFloat (tyFmt t) y) x 0 0

/-- Source A as a moved value. -/
def BCtx.movA (c : BCtx) (n : Nat) : Nat := moveSrc c.i.ty c.i.negA c.i.absA (c.opA n)
/-- Source B as a moved value. -/
def BCtx.movB (c : BCtx) (n : Nat) : Nat := moveSrc c.i.ty c.i.negB c.i.absB (c.opB n)

/-- SEL (R104). -/
def execSel (vat slot : Fin 64) (s : State) : Host.Outcome State Fault Refusal :=
  .next (s.perLane vat slot 0x54 (fun c n =>
    moveOut c.i.ty c.i.sat (if c.opC n % 2 = 1 then c.movA n else c.movB n)))

/-- PLOG (R104): bit 2A + B of MOD[12:9], combined with predicate C. -/
def execPlog (vat slot : Fin 64) (s : State) : Host.Outcome State Fault Refusal :=
  .next (s.perLane vat slot 0x55 (fun c n =>
    c.combined n (bitAt (bits c.i.mod 12 9) (2 * (c.opA n % 2) + c.opB n % 2))))

/-- MOV (R104). -/
def execMov (vat slot : Fin 64) (s : State) : Host.Outcome State Fault Refusal :=
  .next (s.perLane vat slot 0x57 (fun c n => moveOut c.i.ty c.i.sat (c.movB n)))

/-- PGET (R104). -/
def execPget (vat slot : Fin 64) (s : State) : Host.Outcome State Fault Refusal :=
  .next (s.perLane vat slot 0x58 (fun c n => maskOf ((List.range 8).filter (fun k => bitAt (c.q.preg k) n))))

/-- PSET (R104): for each k = 1–7 with B[k] = 1, pk = A[k]. -/
def execPset (vat slot : Fin 64) (s : State) : Host.Outcome State Fault Refusal :=
  .next (s.issue vat slot 0x59 (fun s c =>
    c.done s ((List.range 8).foldl (fun q k =>
      q.putPred k (maskOf (c.lanes.filter (fun n => bitAt (c.opB n) k)))
        (maskOf (c.lanes.filter (fun n => bitAt (c.opA n) k)))) c.q)))

/-! ### Votes and lane moves (R105, R106) -/

/-- The executing lanes in which predicate C is true. -/
def BCtx.voters (c : BCtx) : List Nat := c.lanes.filter (fun n => c.opC n % 2 = 1)

/-- A vote writes predicate D in every active lane (R105). -/
def BCtx.vote (c : BCtx) (s : State) (r : Bool) : State :=
  c.done s (c.q.putPred (c.i.d - 320) c.q.active.toNat (if r then 2 ^ 32 - 1 else 0))

/-- PANY (R105). -/
def execPany (vat slot : Fin 64) (s : State) : Host.Outcome State Fault Refusal :=
  .next (s.issue vat slot 0x60 (fun s c => c.vote s (c.voters ≠ [])))

/-- PALL (R105). -/
def execPall (vat slot : Fin 64) (s : State) : Host.Outcome State Fault Refusal :=
  .next (s.issue vat slot 0x61 (fun s c => c.vote s (c.voters = c.lanes)))

/-- PMASK (R105). -/
def execPmask (vat slot : Fin 64) (s : State) : Host.Outcome State Fault Refusal :=
  .next (s.perLane vat slot 0x62 (fun c _ => maskOf c.voters))

/-- A lane move: A of the source lane, or the lane's own when the source is not executing (R106). -/
def BCtx.laneMove (c : BCtx) (n src : Nat) : Nat :=
  moveOut c.i.ty c.i.sat (c.movA (if c.lanes.contains src then src else n))

/-- LGET (R105). -/
def execLget (vat slot : Fin 64) (s : State) : Host.Outcome State Fault Refusal :=
  .next (s.perLane vat slot 0x63 (fun c n => c.laneMove n (c.opB n % 32)))

/-- LUP (R105). -/
def execLup (vat slot : Fin 64) (s : State) : Host.Outcome State Fault Refusal :=
  .next (s.perLane vat slot 0x64 (fun c n => c.laneMove n ((n + 32 - c.opB n % 32) % 32)))

/-- LDOWN (R105). -/
def execLdown (vat slot : Fin 64) (s : State) : Host.Outcome State Fault Refusal :=
  .next (s.perLane vat slot 0x65 (fun c n => c.laneMove n ((n + c.opB n % 32) % 32)))

/-- LFLIP (R105). -/
def execLflip (vat slot : Fin 64) (s : State) : Host.Outcome State Fault Refusal :=
  .next (s.perLane vat slot 0x66 (fun c n => c.laneMove n (n ^^^ c.opB n % 32)))

/-- RDUNI (R105): A of the lowest executing lane. -/
def execRduni (vat slot : Fin 64) (s : State) : Host.Outcome State Fault Refusal :=
  .next (s.perLane vat slot 0x67 (fun c n => moveOut c.i.ty c.i.sat (c.movA n)))

/-- NOP (R105). -/
def execNop (vat slot : Fin 64) (s : State) : Host.Outcome State Fault Refusal :=
  .next (s.issue vat slot 0x70 (fun s c => c.done s c.q))

end Sys2Proof.Machine
end

