-- ==== Sys2Proof/Machine/Tensor.lean ====
section
/-!
DEFINITION. Tensor number formats, the converter, the defined dot product, the store path and its histogram (R125 to R146).
-/

namespace Sys2Proof.Machine

/-- Bits of an element (R125). -/
def fmtBits (f : Nat) : Nat := [4, 8, 8, 16, 32, 8, 8, 16, 16, 32].getD f 0
/-- An integer format. -/
def fmtInt (f : Nat) : Bool := decide (f ≤ 4)
/-- An operand format: the eight that the array multiplies. -/
def fmtOperand (f : Nat) : Bool := decide (f < 9) && f ≠ 4
/-- The floating format of a code (R127). -/
def fmtFloat (f : Nat) : FFmt := if f = 5 then fE4M3 else if f = 6 then fE5M2 else if f = 7 then fF16
  else if f = 8 then fBF16 else fF32
/-- The bounds of an integer format. -/
def fmtLo (f : Nat) : Int := if f = 1 then 0 else -(2 ^ (fmtBits f - 1) : Nat)
/-- Upper bound. -/
def fmtHi (f : Nat) : Int := if f = 1 then 255 else (2 ^ (fmtBits f - 1) : Nat) - 1
/-- Bytes of `n` elements, rounded up. -/
def fmtBytes (f n : Nat) : Nat := (n * fmtBits f + 7) / 8

/-- The load path accepts a conversion (R133). -/
def loadOk (src dst : Nat) : Bool := fmtOperand dst && fmtInt src == fmtInt dst

/-- The integer that an element's pattern holds. -/
def elemInt (f x : Nat) : Int := if f = 1 then (x % 256 : Nat) else sext (fmtBits f) x

/-- Saturation to an integer format (R132), as a pattern. -/
def satInt (f : Nat) (x : Int) : Nat := wrapN (fmtBits f) (max (fmtLo f) (min (fmtHi f) x))

/-- The load-path conversion of one element (R133). -/
def loadConv (src dst : Nat) (ovf : Bool) (x : Nat) : Nat :=
  if src = dst then x
  else if fmtInt src then satInt dst (elemInt src x)
  else cvtFloat (fmtFloat dst) ovf ((fmtFloat src).decode x)

/-- An operand's exact value on a floating path; an operand zero of integer format is +0 (R134). -/
def elemVal (f x : Nat) : FVal :=
  if fmtInt f then let v := elemInt f x; .fin (decide (v < 0)) v.natAbs 0 else (fmtFloat f).decode x

/-! ### Packing (R126) -/

/-- Element `i` of packed bytes. -/
def elemAt (f : Nat) (bs : List Byte) (i : Nat) : Nat :=
  if f = 0 then let b := leAt bs (i / 2) 1; if i % 2 = 0 then b % 16 else b / 16
  else leAt bs (i * (fmtBits f / 8)) (fmtBits f / 8)

/-- Nibbles packed low first. -/
def packNibbles : List Nat → List Byte
  | [] => []
  | [a] => [BitVec.ofNat 8 (a % 16)]
  | a :: b :: r => BitVec.ofNat 8 (a % 16 + 16 * (b % 16)) :: packNibbles r

/-- Elements packed in ascending order. -/
def packElems (f : Nat) (xs : List Nat) : List Byte :=
  if f = 0 then packNibbles xs else xs.flatMap (toLe (fmtBits f / 8))

/-! ### The dot product (R137, R138) -/

/-- floor(log2 |p|) of a product m × 2^e. -/
def magLog (m : Nat) (e : Int) : Int := (log2 m : Int) + e

/-- floor(m × 2^d), toward zero. -/
def shiftMag (m : Nat) (d : Int) : Nat := if 0 ≤ d then m * 2 ^ d.toNat else m / 2 ^ (-d).toNat

/-- What the products of a group hold: NaN, an infinity of each sign, and the finite products. -/
structure GroupAcc where
  nan : Bool := false
  pinf : Bool := false
  ninf : Bool := false
  allNeg0 : Bool := true
  prods : List (Bool × Nat × Int) := []
deriving DecidableEq, Repr

/-- One pair of a group. -/
def groupStep (g : GroupAcc) (a b : FVal) : GroupAcc :=
  if a.isNan || b.isNan || (a.isInf && b.isZero) || (b.isInf && a.isZero) then { g with nan := true }
  else if a.isInf || b.isInf then
    if a.sign != b.sign then { g with ninf := true } else { g with pinf := true }
  else match a, b with
    | .fin n1 m1 e1, .fin n2 m2 e2 =>
      let neg := n1 != n2
      if m1 * m2 = 0 then { g with allNeg0 := g.allNeg0 && neg }
      else { g with allNeg0 := false, prods := g.prods ++ [(neg, m1 * m2, e1 + e2)] }
    | _, _ => g

/-- group_sum of R138: one FP32 pattern for at most 16 pairs. -/
def groupSum (ps : List (FVal × FVal)) : Nat :=
  let g := ps.foldl (fun g p => groupStep g p.1 p.2) {}
  if g.nan || (g.pinf && g.ninf) then fF32.nan
  else if g.pinf then 0x7F800000
  else if g.ninf then 0xFF800000
  else match g.prods with
    | [] => if g.allNeg0 then 0x80000000 else 0
    | p :: r =>
      let e := r.foldl (fun (m : Int) q => max m (magLog q.2.1 q.2.2)) (magLog p.2.1 p.2.2)
      let s : Int := ((p :: r).map (fun q => signed q.1 (shiftMag q.2.1 (q.2.2 - (e - 47))))).sum
      if s = 0 then 0 else fF32.encode .ne (.fin (decide (s < 0)) s.natAbs (e - 47))

/-- Groups of 16 in ascending order; `fuel` bounds them. -/
def groupsOf : Nat → List (FVal × FVal) → List (List (FVal × FVal))
  | 0, _ => []
  | fuel + 1, l => if l.isEmpty then [] else l.take 16 :: groupsOf fuel (l.drop 16)

/-- A floating accumulator after pairs (R138). -/
def accFloat (acc : Nat) (ps : List (FVal × FVal)) : Nat :=
  (groupsOf ps.length ps).foldl (fun a g => f32Add a (groupSum g)) acc

/-- An integer accumulator after pairs: modulo 2^48 (R137). -/
def accInt (acc : Nat) (ps : List (Int × Int)) : Nat :=
  wrapN 48 (sext 48 acc + (ps.map (fun p => p.1 * p.2)).sum)

/-- Both operands are integers: the I8 and I16 paths (R135). -/
def intPath (fa fb : Nat) : Bool := fmtInt fa && fmtInt fb

/-! ### The store path (R142 to R146) -/

/-- An output element's value x before the converter (R143). -/
def storeX (int : Bool) (acc : Nat) (scale : Option Nat) (clamp : Option (Nat × Nat)) : Nat :=
  let x0 := match scale with
    | some k =>
      let a : FVal := if int then let v := sext 48 acc; .fin (decide (v < 0)) v.natAbs 0 else fF32.decode acc
      fF32.encode .ne (fvMul a (fF32.decode k))
    | none => if int then f32OfInt (sext 48 acc) else acc
  match clamp with
  | some (lo, hi) => fF32.encode .ne (fvMin (fvMax (fF32.decode x0) (fF32.decode lo)) (fF32.decode hi))
  | none => x0

/-- cvt of the store path (R129 to R131). -/
def storeCvt (out : Nat) (ovf : Bool) (x : Nat) : Nat :=
  if fmtInt out then wrapN (fmtBits out) (fvToInt .ne (fmtLo out) (fmtHi out) (fF32.decode x))
  else cvtFloat (fmtFloat out) ovf (fF32.decode x)

/-- store_element of R143: the pattern written, and x where the histogram counts it. -/
def storeElement (int : Bool) (acc : Nat) (scale : Option Nat) (clamp : Option (Nat × Nat)) (out : Nat) (ovf : Bool) :
    Nat × Option Nat :=
  if int && scale.isNone && clamp.isNone && fmtInt out then (satInt out (sext 48 acc), none)
  else
    let x := storeX int acc scale clamp
    (storeCvt out ovf x, if fmtInt out then none else some x)

/-- The exponent field of an FP32 pattern. -/
def f32Exp (x : Nat) : Nat := bits x 30 23
/-- A finite pattern. -/
def f32Finite (x : Nat) : Bool := f32Exp x ≠ 255
/-- The bin of a normal pattern (R145): the unbiased exponent plus 32, limited to 0 to 63. -/
def f32Bin (x : Nat) : Nat := min 63 (f32Exp x - 95)
/-- A normal pattern. -/
def f32Normal (x : Nat) : Bool := 0 < f32Exp x && f32Exp x < 255

/-- SAT of R145. -/
def satEvent (out : Nat) (ovf : Bool) (x : Nat) : Bool :=
  let f := fmtFloat out
  match fF32.decode x with
  | .nan => false
  | .inf _ => match f.decode (cvtFloat f ovf (fF32.decode x)) with
    | .inf _ => false
    | _ => true
  | .fin n m e => m ≠ 0 && decide (f.maxFin < f.roundMag .ne n m e)

/-- UFZ of R145. -/
def ufzEvent (out : Nat) (ovf : Bool) (x : Nat) : Bool :=
  let f := fmtFloat out
  f32Finite x && x % 2 ^ 31 ≠ 0 && (f.decode (cvtFloat f ovf (fF32.decode x))).isZero

/-- Count by a test, as a 16-bit field. -/
def countBy (xs : List Nat) (t : Nat → Bool) : List Byte := toLe 2 (xs.filter t).length

/-- The histogram record (R146) of the values x of a TST's elements. -/
def histRecord (out : Nat) (ovf : Bool) (flags tag : Nat) (xs : List Nat) : List Byte :=
  (List.range 64).flatMap (fun b => countBy xs (fun x => f32Normal x && f32Bin x = b)) ++
  countBy xs (fun x => x % 2 ^ 31 = 0) ++
  countBy xs (fun x => f32Exp x = 0 && x % 2 ^ 31 ≠ 0) ++
  countBy xs (fun x => 0x7F800000 < x % 2 ^ 31) ++
  countBy xs (fun x => x = 0x7F800000) ++
  countBy xs (fun x => x = 0xFF800000) ++
  countBy xs (satEvent out ovf) ++
  countBy xs (ufzEvent out ovf) ++
  toLe 2 xs.length ++ toLe 1 out ++ toLe 1 flags ++ toLe 2 0 ++
  toLe 4 (((xs.filter f32Finite).map (· % 2 ^ 31)).foldl max 0) ++ toLe 8 tag ++ List.replicate 96 0

/-- Split-K partials combined in ascending index (R140). -/
def combinePartials (int : Bool) : List Nat → Nat
  | [] => 0
  | p :: r => r.foldl (fun a b => if int then wrapN 48 (sext 48 a + sext 48 b) else f32Add a b) p

end Sys2Proof.Machine
end

