-- ==== Sys2Proof/Machine/BpcTensor.lean ====
section
/-!
DEFINITION. The tensor instructions and the beater (R147 to R172): TLD, TMMA, TST and TCVT enter the beater at issue with
what they capture; the events TLD_DATA_ARRIVAL, TMMA_PASS_START and TST_SET_READ perform the oldest one, in beater order;
ACC_SET_GRANT serves the acquisition queue. A TCVT is performed when it is the oldest.
-/

namespace Sys2Proof.Machine

/-! ### Refusals (R171, R172) -/

/-- Refuse a tensor instruction: VAT_TERR keeps the first refusal, and EXEC_ILLEGAL is raised. -/
def BCtx.refuse (c : BCtx) (s : State) (reason : Nat) : State × Bool :=
  let s1 := if s.rd .VAT_TERR_VALID c.vat = 1 then s
    else (((s.wr .VAT_TERR_VALID 1 c.vat).wr .VAT_TERR_OP c.i.op c.vat).wr .VAT_TERR_QUIRE c.slot c.vat).wr
      .VAT_TERR_REASON reason c.vat
  (s1.raiseFault c.vat c.slot (stIllegal c.i.op), true)

/-- The first refusal of a list of (reason, holds), in the list's order. -/
def firstRefusal (l : List (Nat × Bool)) : Option Nat := (l.find? (fun x => x.2)).map (·.1)

/-- The beater as a requester (kind 1). -/
def beaterAsker (vat p : Nat) : Asker := ⟨.vat (Fin.ofNat 64 vat), 1, p⟩

/-- A tile handle. -/
def Quire.handle (q : Quire) (h : Nat) : Handle := (storeFind q.t h).getD .empty
/-- The quire with a handle bound. -/
def Quire.bind (q : Quire) (h : Nat) (x : Handle) : Quire := { q with t := storePut h x q.t }
/-- The handle holds an accumulator set. -/
def Handle.isAcc : Handle → Bool
  | .acc _ => true
  | _ => false

/-- A tile: role, format, K extent, buffer offset. -/
structure Tile where
  role : Nat
  fmt : Nat
  k : Nat
  buf : Nat
deriving DecidableEq, Repr

/-- The tile that a handle holds. -/
def Handle.asTile : Handle → Option Tile
  | .tile r f k b => some ⟨r, f, k, b⟩
  | _ => none

/-- The bytes of a staged tile (R156). -/
def tileBytes (f k : Nat) : Nat := fmtBytes f (64 * k)

/-! ### The descriptor (R154) -/

/-- A field of a descriptor. -/
def dF (d : List Byte) (off n : Nat) : Nat := leAt d off n
/-- ovf, scale_en, clamp_en, PARTIAL, COMBINE: bits 0 to 4 of FLAGS. -/
def dFlag (d : List Byte) (k : Nat) : Bool := bitAt (leAt d 27 1) k

/-- Bytes 96 to 127 are 0, and the sizes are in their ranges. -/
def dReserved (d : List Byte) (sizes : Bool) : Bool :=
  leAt d 96 32 ≠ 0 || (sizes && (dF d 8 4 = 0 || dF d 12 4 = 0 || decide (dF d 16 8 < fmtBytes (dF d 24 1) (dF d 12 4))))

/-- A misaligned BASE or STRIDE (R157). -/
def dMisaligned (d : List Byte) : Bool :=
  let e := max 1 (fmtBits (dF d 24 1) / 8)
  dF d 0 8 % e ≠ 0 || dF d 16 8 % e ≠ 0

/-- Read the descriptor at a virtual address: 128 bytes. -/
def BCtx.descriptor (c : BCtx) (s : State) (va : Nat) : State × Except Fail (List Byte) :=
  s.vRead (beaterAsker c.vat c.l.p) c.owner c.l.p va 128

/-- The origin of an instruction: row and column (R152). -/
def BCtx.origin (c : BCtx) : Nat × Nat := (c.offset % 2 ^ 32, c.offset / 2 ^ 32)

/-- An s register pair. -/
def Quire.spair (q : Quire) (r : Nat) : Nat := q.sreg r + q.sreg (r + 1) * 2 ^ 32

/-- What every tensor instruction checks first (R61, R171): EXEC_MODE in MN-3 mode or without beater-buffer granules. -/
def BCtx.tensorMode (c : BCtx) : Bool := c.l.mn3 || c.l.split.getD 3 0 = 0

/-- Put an instruction into the beater, with the quire at the next instruction. -/
def BCtx.enter (c : BCtx) (s : State) (q : Quire) (o : BeatOp) : State :=
  let s1 := c.put s { q with pc := c.i.next }
  s1.setVat c.vat { s1.vat c.vat with ops := (s1.vat c.vat).ops ++ [o] }

/-! ### TLD -/

/-- The refusals of a TLD, in ascending reason (R171). -/
def tldRefusal (d : List Byte) (col bbytes : Nat) (h : Handle) : Option Nat :=
  let mf := dF d 24 1
  let off := dF d 25 1
  let k := dF d 28 4
  let buf := dF d 32 4
  firstRefusal [
    (1, decide (9 < mf) || !fmtOperand off),
    (2, !loadOk mf off),
    (3, decide (1 < dF d 26 1)),
    (4, k % 64 ≠ 0 || decide (k < 64) || decide (2048 < k)),
    (5, buf % 256 ≠ 0 || decide (bbytes < buf + tileBytes off k)),
    (6, h.isAcc),
    (11, (mf = 0 || off = 0) && col % 2 = 1),
    (12, dF d 27 1 / 32 ≠ 0),
    (13, dReserved d true)]

/-- TLD at issue (R155 to R157). -/
def BCtx.tldIssue (c : BCtx) (s : State) : State × Bool :=
  let va := c.q.spair (c.i.a - 256)
  let h := c.i.d - 328
  if c.tensorMode then (s.raiseFault c.vat c.slot (stExec 7 (c.i.op * 256)), true)
  else if va % 128 ≠ 0 then (s.raiseFault c.vat c.slot (stExec 6 0), true)
  else match c.descriptor s va with
    | (s1, .error f) => c.fail s1 f
    | (s1, .ok d) =>
      let (row, col) := c.origin
      match tldRefusal d col c.l.bbytes (c.q.handle h) with
      | some r => c.refuse s1 r
      | none =>
        if dMisaligned d then (s1.raiseFault c.vat c.slot (stExec 6 0), true)
        else
          let q := c.q.bind h (.tile (dF d 26 1) (dF d 25 1) (dF d 28 4) (dF d 32 4))
          (c.enter s1 q (.tld c.slot d row col), true)

/-! ### TMMA and the sets -/

/-- The set of a number. -/
def Vat.set (v : Vat) (k : Nat) : AccSet := (storeFind v.sets k).getD {}
/-- The sets that are free. -/
def Vat.freeSets (v : Vat) : List Nat := [0, 1].filter (fun k => (storeFind v.sets k).isNone)

/-- Both tiles of a TMMA are integer. -/
def pairInt (a b : Handle) : Bool :=
  match a.asTile, b.asTile with
  | some x, some y => intPath x.fmt y.fmt
  | _, _ => false

/-- The kind that a set has for an instruction that enters now (R151): integer, floating, or none yet. -/
def Vat.kindAt (v : Vat) (set : Nat) : Option Bool :=
  v.ops.foldl (fun (k : Option Bool) o => match o with
    | .tmma _ st a b clear _ =>
      if st ≠ set then k else if clear || k.isNone then some (pairInt a b) else k
    | _ => k) (if (v.set set).els.isEmpty then none else some (v.set set).int)

/-- The ACQ field. -/
def BInst.acq (i : BInst) : Nat := bits i.mod 4 3

/-- Grant the request at the head of the acquisition queue when enough sets are free (R149): the quire's handles are
bound, the sets are cleared, and its TMMA enters the beater. -/
def State.grantHead (s : State) (vat : Nat) : State :=
  let v := s.vat vat
  match v.acqq with
  | [] => s
  | r :: rest =>
    let free := v.freeSets
    if free.length < r.n then s
    else match s.quire vat r.slot with
      | none => s.setVat vat { v with acqq := rest }
      | some q =>
        match (s.block vat q.block).bind (fun b => s.launch b.launch) with
        | none => s.setVat vat { v with acqq := rest }
        | some l =>
          match decodeInst l.mod.code q.pc with
          | none => s.setVat vat { v with acqq := rest }
          | some i =>
            let take := (indexed (free.take r.n))
            let q1 := take.foldl (fun (q : Quire) x => q.bind (r.h + x.1) (.acc x.2)) q
            let q2 : Quire := { q1 with wait := .run, pc := i.next }
            let sets := take.foldl (fun (m : List (Nat × AccSet)) x =>
              storePut x.2 ({ owner := some (r.slot, r.h + x.1) } : AccSet) m) v.sets
            let o : BeatOp := .tmma r.slot (free.getD 0 0) (q.handle (i.a - 328)) (q.handle (i.b - 328)) (bitAt i.mod 2) 0
            let v1 : Vat := { v with acqq := rest, sets := sets, ops := v.ops ++ [o] }
            (s.setVat vat v1).setQuire vat r.slot q2

/-- TMMA at issue (R148, R149, R151, R158). -/
def BCtx.tmmaIssue (c : BCtx) (s : State) : State × Bool :=
  let h := c.i.d - 328
  let a := c.q.handle (c.i.a - 328)
  let b := c.q.handle (c.i.b - 328)
  let acq := c.i.acq
  let clear := bitAt c.i.mod 2
  let v := s.vat c.vat
  if c.tensorMode then (s.raiseFault c.vat c.slot (stExec 7 (c.i.op * 256)), true)
  else match a.asTile, b.asTile with
    | some x, some y =>
      let set := match c.q.handle h with
        | .acc k => some k
        | _ => none
      match firstRefusal [
          (6, x.role ≠ 0 || y.role ≠ 1 || (acq = 0 && set.isNone)),
          (7, x.k ≠ y.k),
          (8, acq ≠ 0 && c.q.t.any (fun e => e.2.isAcc)),
          (9, acq = 0 && !clear && (match set.bind v.kindAt with
            | some k => k != intPath x.fmt y.fmt
            | none => false))] with
      | some r => c.refuse s r
      | none =>
        if acq = 0 then (c.enter s c.q (.tmma c.slot (set.getD 0) a b clear 0), true)
        else
          let s1 := c.put s { c.q with wait := .acq acq }
          let v1 := s1.vat c.vat
          let s2 := s1.setVat c.vat { v1 with acqq := v1.acqq ++ [⟨c.slot, h, acq⟩] }
          (if v1.acqq.isEmpty then s2.grantHead c.vat else s2, true)
    | _, _ => c.refuse s 6

/-! ### TST -/

/-- The bytes of a partial (R162). -/
def partialBytes (int : Bool) : Nat := if int then 32768 else 16384

/-- The refusals of a TST, in ascending reason; `int` is the kind of its set. -/
def tstRefusal (d : List Byte) (col : Nat) (int : Bool) : Option Nat :=
  let out := dF d 24 1
  let part := dFlag d 3
  let comb := dFlag d 4
  let hist := dF d 72 8
  firstRefusal [
    (1, decide (9 < out) || dF d 25 1 ≠ 0),
    (3, dF d 26 1 ≠ 2),
    (10, (part || comb) && (dF d 36 2 = 0 || decide (64 < dF d 36 2) || decide (dF d 36 2 ≤ dF d 38 2) ||
      dF d 56 8 % 4096 ≠ 0 || dF d 64 8 % 4096 ≠ 0 || decide (dF d 64 8 < partialBytes int))),
    (11, !part && out = 0 && col % 2 = 1),
    (12, dF d 27 1 / 32 ≠ 0 || (part && comb)),
    (13, dReserved d (!part)),
    (14, (!fmtInt out || (part && !int)) && (hist = 0 || hist % 256 ≠ 0))]

/-- TST at issue (R160, R171). A set without a pass counts as floating. -/
def BCtx.tstIssue (c : BCtx) (s : State) : State × Bool :=
  let h := c.i.a - 328
  if c.tensorMode then (s.raiseFault c.vat c.slot (stExec 7 (c.i.op * 256)), true)
  else match c.q.handle h with
    | .acc set =>
      let va := c.q.spair (c.i.b - 256)
      if va % 128 ≠ 0 then (s.raiseFault c.vat c.slot (stExec 6 0), true)
      else match c.descriptor s va with
        | (s1, .error f) => c.fail s1 f
        | (s1, .ok d) =>
          let (row, col) := c.origin
          match tstRefusal d col (((s1.vat c.vat).kindAt set).getD false) with
          | some r => c.refuse s1 r
          | none =>
            if !dFlag d 3 && (dMisaligned d || (dFlag d 1 && dF d 40 8 % 4 ≠ 0)) then
              (s1.raiseFault c.vat c.slot (stExec 6 0), true)
            else
              let rel := bitAt c.i.mod 0
              (c.enter s1 (if rel then c.q.bind h .empty else c.q) (.tst c.slot set d row col rel), true)
    | _ => c.refuse s 6

/-! ### TCVT -/

/-- Two byte ranges meet. -/
def meets (a n b m : Nat) : Bool := decide (a < b + m) && decide (b < a + n)

/-- TCVT at issue (R164). -/
def BCtx.tcvtIssue (c : BCtx) (s : State) : State × Bool :=
  let dst := c.i.d - 328
  let src := c.q.handle (c.i.a - 328)
  let fmt := bits c.i.mod 12 9
  let buf := c.q.sreg (c.i.b - 256)
  if c.tensorMode then (s.raiseFault c.vat c.slot (stExec 7 (c.i.op * 256)), true)
  else match src.asTile with
    | none => c.refuse s 6
    | some x =>
      let n := tileBytes fmt x.k
      match firstRefusal [
          (1, !fmtOperand fmt),
          (2, !loadOk x.fmt fmt),
          (5, buf % 256 ≠ 0 || decide (c.l.bbytes < buf + n) ||
            (meets buf n x.buf (tileBytes x.fmt x.k) && !(buf = x.buf && decide (fmtBits fmt ≤ fmtBits x.fmt)))),
          (6, (c.q.handle dst).isAcc)] with
      | some r => c.refuse s r
      | none =>
        let t := Handle.tile x.role fmt x.k buf
        (c.enter s (c.q.bind dst t) (.tcvt c.slot src t (bitAt c.i.mod 8)), true)

/-! ### The beater's work -/

/-- The block of a quire slot. -/
def State.slotBlock (s : State) (vat slot : Nat) : Option (Nat × Block × Launch) :=
  match s.quire vat slot with
  | none => none
  | some q => match s.block vat q.block with
    | none => none
    | some b => (s.launch b.launch).map (fun l => (q.block, b, l))

/-- The quires that wait in MORDER run again when they have no tensor instruction left (R166). -/
def State.wakeOrder (s : State) (vat : Nat) : State :=
  let v := s.vat vat
  s.setVat vat { v with quires := v.quires.map (fun e =>
    if e.2.wait = .order && !v.inBeater e.1 then (e.1, { e.2 with wait := .run }) else e) }

/-- The oldest tensor instruction has completed: it leaves the beater, and what waited for it goes on (R64, R166, R309). -/
def State.beatPop (s : State) (vat slot : Nat) : State :=
  let v := s.vat vat
  let s1 := (s.setVat vat { v with ops := v.ops.drop 1 }).wakeOrder vat
  match s1.quire vat slot with
  | some q => (s1.settle vat q.block).trySave vat q.block
  | none => s1

/-- A tile's elements, from the block's beater buffer. -/
def Block.tileElems (b : Block) (t : Tile) : List Nat :=
  let bs := b.press 3 t.buf (tileBytes t.fmt t.k)
  (List.range (64 * t.k)).map (elemAt t.fmt bs)

/-- A TCVT is performed: the tile's elements are converted into the buffer (R164). -/
def State.tcvtRun (s : State) (vat slot : Nat) (src dst : Handle) (ovf : Bool) : State :=
  match s.slotBlock vat slot, src.asTile, dst.asTile with
  | some (bi, b, _), some x, some y =>
    let els := (b.tileElems x).map (loadConv x.fmt y.fmt ovf)
    (s.setBlock vat bi (b.setPress 3 y.buf (packElems y.fmt els))).beatPop vat slot
  | _, _, _ => s.beatPop vat slot

/-- Perform the TCVTs that are oldest; `fuel` bounds them. -/
def State.beatDrain (s : State) (vat : Nat) : Nat → State
  | 0 => s
  | fuel + 1 =>
    match (s.vat vat).ops with
    | .tcvt slot src dst ovf :: _ => (s.tcvtRun vat slot src dst ovf).beatDrain vat fuel
    | _ => s

/-- Drain after a change of the queue. -/
def State.beatNext (s : State) (vat : Nat) : State := s.beatDrain vat (s.vat vat).ops.length

/-- Keep what completions brought when the work has to wait: it is done again as a whole. -/
def State.refund (s1 s : State) : State := { s1 with xlt := { s1.xlt with fetched := s.xlt.fetched } }

/-- End an event of the beater whose access failed: it waits, or the partition is torn down and the instruction dropped. -/
def State.beatFail (s1 s : State) (vat slot : Nat) (l : Launch) : Fail → State
  | .stall => s1.refund s
  | f => (s1.failTile l.p vat l.tag f).beatPop vat slot

/-- One row of a tile in memory: address and bytes of columns c0 to c0 + n − 1. -/
def rowSpan (d : List Byte) (row c0 n : Nat) : Nat × Nat :=
  let w := fmtBits (dF d 24 1)
  let first := c0 * w / 8
  ((dF d 0 8 + row * dF d 16 8 + first) % 2 ^ 64, ((c0 + n) * w + 7) / 8 - first)

/-- Ascending order of ranges. -/
def sortRanges (l : List (Nat × Nat × Nat)) : List (Nat × Nat × Nat) := sortBy (fun x y => x.1 ≤ y.1) l

/-- Read a list of ranges, one after another. -/
def State.vReadList (s : State) (asker : Asker) (who : Owner) (p : Nat) : List (Nat × Nat) →
    State × Except Fail (List (List Byte))
  | [] => (s, .ok [])
  | (va, n) :: rest =>
    match s.vRead asker who p va n with
    | (s1, .error f) => (s1, .error f)
    | (s1, .ok bs) =>
      match s1.vReadList asker who p rest with
      | (s2, .error f) => (s2, .error f)
      | (s2, .ok bss) => (s2, .ok (bs :: bss))

/-- Write a list of ranges, one after another. -/
def State.vWriteList (s : State) (asker : Asker) (who : Owner) (p : Nat) : List (Nat × List Byte) →
    State × Except Fail Unit
  | [] => (s, .ok ())
  | (va, bs) :: rest =>
    match s.vWrite asker who p va bs with
    | (s1, .error f) => (s1, .error f)
    | (s1, .ok _) => s1.vWriteList asker who p rest

/-- The rows and columns of a TLD's tile that lie inside the tensor (R155): (tile rows, tile columns, rows inside, columns
inside). -/
def tldShape (d : List Byte) (row col : Nat) : Nat × Nat × Nat × Nat :=
  let k := dF d 28 4
  let nr := if dF d 26 1 = 0 then 64 else k
  let nc := if dF d 26 1 = 0 then k else 64
  (nr, nc, min nr (dF d 8 4 - row), min nc (dF d 12 4 - col))

/-- TLD_DATA_ARRIVAL: the oldest instruction, a TLD, reads its elements, converts and stages them (R155 to R157). -/
def State.tldRun (s : State) (vat slot : Nat) (d : List Byte) (row col : Nat) : State :=
  match s.slotBlock vat slot with
  | none => s.beatPop vat slot
  | some (bi, b, l) =>
    let (nr, nc, rows, cols) := tldShape d row col
    let spans := if cols = 0 then [] else (List.range rows).map (fun r => rowSpan d (row + r) col cols)
    let asker := beaterAsker vat l.p
    match s.footprints asker (.beater vat) l.p (sortRanges (spans.map (fun x => (x.1, x.2, rightR)))) with
    | (s1, .error f) => s1.beatFail s vat slot l f
    | (s1, .ok _) =>
      match s1.vReadList asker (.beater vat) l.p spans with
      | (s2, .error f) => s2.beatFail s vat slot l f
      | (s2, .ok bss) =>
        let mf := dF d 24 1
        let off := dF d 25 1
        let el (r c : Nat) : Nat :=
          if r < rows && c < cols then loadConv mf off (dFlag d 0) (elemAt mf (bss.getD r []) c) else 0
        let els := (List.range nr).flatMap (fun r => (List.range nc).map (fun c => el r c))
        (s2.setBlock vat bi (b.setPress 3 (dF d 32 4) (packElems off els))).beatPop vat slot

/-- A pass over K indices 64 p to 64 p + 63 of both tiles (R158): the set's elements after it. -/
def passEls (x y : Tile) (xs ys : List Nat) (els : List Nat) (pass : Nat) : List Nat :=
  (List.range 4096).map (fun i =>
    let r := i / 64
    let c := i % 64
    let ks := (List.range 64).map (fun k => 64 * pass + k)
    let acc := els.getD i 0
    if intPath x.fmt y.fmt then
      accInt acc (ks.map (fun k => (elemInt x.fmt (xs.getD (r * x.k + k) 0), elemInt y.fmt (ys.getD (k * 64 + c) 0))))
    else
      accFloat acc (ks.map (fun k => (elemVal x.fmt (xs.getD (r * x.k + k) 0), elemVal y.fmt (ys.getD (k * 64 + c) 0)))))

/-- ACLK cycles of a pass (R167): 64 on the I8 and F8 paths, 256 on the I16 and F16 paths (R135). -/
def passClocks (fa fb : Nat) : Nat :=
  let narrow (f : Nat) : Bool := decide (f < 3)
  let fp8 (f : Nat) : Bool := f = 5 || f = 6
  if (narrow fa && narrow fb) || (fp8 fa && fp8 fb) then 64 else 256

/-- HB_USE's BEATER counter on the home chip (R289): 4,096 × the cycles of passes. -/
def State.useBeater (s : State) (p clocks : Nat) : State :=
  if s.homed p then s.wr .HB_USE_BEATER (s.rd .HB_USE_BEATER p + 4096 * clocks) p else s

/-- TMMA_PASS_START: the next pass of the oldest instruction, a TMMA (R158, R159). -/
def State.tmmaRun (s : State) (vat slot set : Nat) (a b : Handle) (clear : Bool) (pass : Nat) : State :=
  match s.slotBlock vat slot, a.asTile, b.asTile with
  | some (_, blk, l), some x, some y =>
    let v := s.vat vat
    let old := v.set set
    let fresh := clear && pass = 0
    let els := if fresh then [] else old.els
    let new : AccSet := { old with
      int := intPath x.fmt y.fmt
      els := passEls x y (blk.tileElems x) (blk.tileElems y) els pass }
    let s0 := (s.setVat vat { v with sets := storePut set new v.sets }).count .VAT_TPASSES_COUNT 1 vat
    let s1 := s0.useBeater l.p (passClocks x.fmt y.fmt)
    if x.k ≤ 64 * (pass + 1) then s1.beatPop vat slot
    else
      let v1 := s1.vat vat
      s1.setVat vat { v1 with ops := .tmma slot set a b clear (pass + 1) :: v1.ops.drop 1 }
  | _, _, _ => s.beatPop vat slot

/-- Release a set after the TST that releases it (R150). -/
def Vat.freeSet (v : Vat) (rel : Bool) (set : Nat) : Vat := if rel then { v with sets := storeErase v.sets set } else v

/-- The runs of consecutive columns of a list, ascending: (first, count). -/
def runsOf : List Nat → List (Nat × Nat)
  | [] => []
  | c :: r => match runsOf r with
    | (c', n) :: t => if c' = c + 1 then (c, n + 1) :: t else (c, 1) :: (c', n) :: t
    | [] => [(c, 1)]

/-- The set's elements as partial bytes (R162). -/
def partialOf (int : Bool) (els : List Nat) : List Byte :=
  (List.range 4096).flatMap (fun i => if int then toLe 8 (wrapN 64 (sext 48 (els.getD i 0))) else toLe 4 (els.getD i 0))

/-- The elements of a partial's bytes. -/
def partialEls (int : Bool) (bs : List Byte) : List Nat :=
  (List.range 4096).map (fun i => if int then leAt bs (8 * i) 6 else leAt bs (4 * i) 4)

/-- The histogram flags of a descriptor (R146). -/
def histFlags (d : List Byte) : Nat := dF d 27 1 % 8 + 8 * b2n (dFlag d 3)

/-- The address of partial j. -/
def partialAddr (d : List Byte) (j : Nat) : Nat := (dF d 56 8 + j * dF d 64 8) % 2 ^ 64

/-- The written rows and column runs of a TST (R160): rows, columns, runs. -/
def tstShape (d : List Byte) (row col : Nat) : List Nat × List Nat :=
  ((List.range 64).filter (fun r => decide (row + r < dF d 8 4)),
    (List.range 64).filter (fun c => decide (col + c < dF d 12 4) && bitAt (dF d 88 8) c))

/-- The bytes of a run: packed, and for INT4 merged into the bytes that are there (R126). -/
def runBytes (out c0 : Nat) (old : List Byte) (xs : List Nat) : List Byte :=
  if out ≠ 0 then packElems out xs
  else
    let all := (List.range (2 * old.length)).map (fun i =>
      let lo := c0 % 2
      if lo ≤ i && i < lo + xs.length then xs.getD (i - lo) 0 else elemAt 0 old i)
    packNibbles all

/-- What a TST writes: (address, bytes) in order, the histogram last. -/
def tstWrites (d : List Byte) (row col : Nat) (int : Bool) (vals : List Nat) (scales : List Nat) (olds : List (List Byte)) :
    List (Nat × List Byte) :=
  let out := dF d 24 1
  let (rows, cols) := tstShape d row col
  let runs := runsOf cols
  let clamp := if dFlag d 2 then some (dF d 48 4, dF d 52 4) else none
  let elem (r c : Nat) : Nat × Option Nat :=
    storeElement int (vals.getD (64 * r + c) 0) (if dFlag d 1 then some (scales.getD c 0) else none) clamp out (dFlag d 0)
  let spans := rows.flatMap (fun r => runs.map (fun x => (r, x.1, x.2)))
  let data := (indexed spans).map (fun e =>
    let (r, c0, n) := e.2
    ((rowSpan d (row + r) (col + c0) n).1,
      runBytes out (col + c0) (olds.getD e.1 []) ((List.range n).map (fun k => (elem r (c0 + k)).1))))
  let xs := rows.flatMap (fun r => cols.filterMap (fun c => (elem r c).2))
  if fmtInt out then data else data ++ [(dF d 72 8, histRecord out (dFlag d 0) (histFlags d) (dF d 80 8) xs)]

/-- The ranges that a TST reads before it writes: the other partials, the scales, and for INT4 the bytes it merges into. -/
def tstReads (d : List Byte) (row col : Nat) (int : Bool) : List (Nat × Nat) × List (Nat × Nat) × List (Nat × Nat) :=
  let (rows, cols) := tstShape d row col
  let parts := if dFlag d 4 then
      ((List.range (dF d 36 2)).filter (fun j => j ≠ dF d 38 2)).map (fun j => (partialAddr d j, partialBytes int))
    else []
  let scales := if dFlag d 1 then cols.map (fun c => ((dF d 40 8 + 4 * (col + c)) % 2 ^ 64, 4)) else []
  let olds := if dF d 24 1 = 0 then
      rows.flatMap (fun r => (runsOf cols).map (fun x => rowSpan d (row + r) (col + x.1) x.2))
    else []
  (parts, scales, olds)

/-- The write ranges of a TST's footprint. -/
def tstSpans (d : List Byte) (row col : Nat) : List (Nat × Nat) :=
  let (rows, cols) := tstShape d row col
  rows.flatMap (fun r => (runsOf cols).map (fun x => rowSpan d (row + r) (col + x.1) x.2)) ++
    (if fmtInt (dF d 24 1) then [] else [(dF d 72 8, 256)])

/-- The 64 scales by tile column, from those read for the written columns. -/
def scalesOf (cols : List Nat) (bss : List (List Byte)) : List Nat :=
  (List.range 64).map (fun c => match (cols.zip bss).find? (fun x => x.1 = c) with
    | some (_, bs) => ofLe bs
    | none => 0)

/-- The values of a set combined with the other partials (R140, R160). -/
def tstValues (d : List Byte) (int : Bool) (els : List Nat) (parts : List (List Nat)) : List Nat :=
  if dFlag d 4 then
    let j := dF d 38 2
    let all := parts.take j ++ [els] ++ parts.drop j
    (List.range 4096).map (fun i => combinePartials int (all.map (fun p => p.getD i 0)))
  else els

/-- TST_SET_READ: the oldest instruction, a TST, reads its set and writes its results (R160 to R163, R143 to R146). -/
def State.tstRun (s : State) (vat slot set : Nat) (d : List Byte) (row col : Nat) (rel : Bool) : State :=
  match s.slotBlock vat slot with
  | none => s.beatPop vat slot
  | some (_, _, l) =>
    let acc := (s.vat vat).set set
    let els := (List.range 4096).map (fun i => acc.els.getD i 0)
    let asker := beaterAsker vat l.p
    let who := Owner.beater vat
    let finish (s : State) : State := (s.setVat vat ((s.vat vat).freeSet rel set)).beatPop vat slot
    if dFlag d 3 then
      let ws := [(partialAddr d (dF d 38 2), partialOf acc.int els)] ++
        (if acc.int then [] else [(dF d 72 8, histRecord 9 (dFlag d 0) (histFlags d) (dF d 80 8) els)])
      match s.footprints asker who l.p (sortRanges (ws.map (fun x => (x.1, x.2.length, rightW)))) with
      | (s1, .error f) => s1.beatFail s vat slot l f
      | (s1, .ok _) =>
        match s1.vWriteList asker who l.p ws with
        | (s2, .error f) => s2.beatFail s vat slot l f
        | (s2, .ok _) => finish s2
    else
      let (parts, scales, olds) := tstReads d row col acc.int
      let rs := sortRanges ((parts ++ scales).map (fun x => (x.1, x.2, rightR)) ++
        olds.map (fun x => (x.1, x.2, rightR + rightW)) ++ (tstSpans d row col).map (fun x => (x.1, x.2, rightW)))
      match s.footprints asker who l.p rs with
      | (s1, .error f) => s1.beatFail s vat slot l f
      | (s1, .ok _) =>
        match s1.vReadList asker who l.p (parts ++ scales ++ olds) with
        | (s2, .error f) => s2.beatFail s vat slot l f
        | (s2, .ok bss) =>
          let ps := (bss.take parts.length).map (partialEls acc.int)
          let ss := scalesOf (tstShape d row col).2 ((bss.drop parts.length).take scales.length)
          let vals := tstValues d acc.int els ps
          match s2.vWriteList asker who l.p
              (tstWrites d row col acc.int vals ss (bss.drop (parts.length + scales.length))) with
          | (s3, .error f) => s3.beatFail s vat slot l f
          | (s3, .ok _) => finish s3

/-! ### The instructions and the events -/

/-- TLD (R155). -/
def execTld (vat slot : Fin 64) (s : State) : Host.Outcome State Fault Refusal :=
  .next (s.issueMem vat slot 0xC0 (fun s c => c.tldIssue s))

/-- TMMA (R158). -/
def execTmma (vat slot : Fin 64) (s : State) : Host.Outcome State Fault Refusal :=
  .next (s.issueMem vat slot 0xC1 (fun s c => c.tmmaIssue s))

/-- TST (R160). -/
def execTst (vat slot : Fin 64) (s : State) : Host.Outcome State Fault Refusal :=
  .next (s.issueMem vat slot 0xC2 (fun s c => c.tstIssue s))

/-- TCVT (R164): performed at once when nothing is before it. -/
def execTcvt (vat slot : Fin 64) (s : State) : Host.Outcome State Fault Refusal :=
  .next (if s.live then (s.issueMem vat slot 0xC3 (fun s c => c.tcvtIssue s)).beatNext vat else s)

/-- ACC_SET_GRANT (R149). -/
def execAccSetGrant (vat : Fin 64) (s : State) : Host.Outcome State Fault Refusal :=
  .next (if s.live then s.grantHead vat else s)

/-- TMMA_PASS_START (R159). -/
def execTmmaPassStart (vat : Fin 64) (s : State) : Host.Outcome State Fault Refusal :=
  .next (if !s.live then s
    else match (s.vat vat).ops with
      | .tmma slot set a b clear pass :: _ => (s.tmmaRun vat slot set a b clear pass).beatNext vat
      | _ => s)

/-- TLD_DATA_ARRIVAL (R155). -/
def execTldDataArrival (vat : Fin 64) (s : State) : Host.Outcome State Fault Refusal :=
  .next (if !s.live then s
    else match (s.vat vat).ops with
      | .tld slot d row col :: _ => (s.tldRun vat slot d row col).beatNext vat
      | _ => s)

/-- TST_SET_READ (R160). -/
def execTstSetRead (vat : Fin 64) (s : State) : Host.Outcome State Fault Refusal :=
  .next (if !s.live then s
    else match (s.vat vat).ops with
      | .tst slot set d row col rel :: _ => (s.tstRun vat slot set d row col rel).beatNext vat
      | _ => s)

end Sys2Proof.Machine
end

