-- ==== Sys2Proof/Machine/Native.lean ====
section
/-!
DEFINITION. Modules and native images (R85 to R89): the finaliser's structure checks, the bytes of an image, and which module
an image in memory is of.
-/

namespace Sys2Proof.Machine

/-- The results of a finalisation that fails (R87). -/
inductive ModErr
  | badMagic
  | badVersion
  | badHeader (off : Nat)
  | badTarget (word : Nat)
  | splitLong (word : Nat)
deriving DecidableEq, Repr

/-- RESULT and DETAIL of a failure (R87). -/
def ModErr.code : ModErr → Nat × Nat
  | .badMagic => (1, 0)
  | .badVersion => (2, 0)
  | .badHeader off => (3, off)
  | .badTarget w => (4, w)
  | .splitLong w => (5, w)

/-- The code words of a module's bytes. -/
def codeWords (bs : List Byte) (words : Nat) : List Dword :=
  (List.range words).map (fun i => BitVec.ofNat 64 (leAt bs (32 + 8 * i) 8))

/-- The header's own fields, in ascending offset, before ENTRY (R85, R88). -/
def headerErr (h : List Byte) : Option ModErr :=
  if leAt h 0 4 ≠ 0x31435042 then some .badMagic
  else if leAt h 5 1 ≠ 1 then some .badVersion
  else if 1 < leAt h 6 2 then some (.badHeader 6)
  else if leAt h 8 4 = 0 || decide (1048576 < leAt h 8 4) then some (.badHeader 8)
  else none

/-- The fields from ENTRY on (R85, R88). -/
def entryErr (h : List Byte) (code : List Dword) : Option ModErr :=
  let handler := leAt h 16 4
  if !isStart code false (leAt h 12 4) then some (.badHeader 12)
  else if handler ≠ 0xFFFFFFFF && !isStart code false handler then some (.badHeader 16)
  else if leAt h 20 2 = 0 || decide (256 < leAt h 20 2) then some (.badHeader 20)
  else if leAt h 22 10 ≠ 0 then some (.badHeader 22)
  else none

/-- The instruction checks in ascending word index (R88); `fuel` bounds the words. -/
def instErr (code : List Dword) : Nat → Nat → Option ModErr
  | 0, _ => none
  | fuel + 1, pc =>
    match decodeInst code pc with
    | none => none
    | some i =>
      if i.size = 2 && decide (code.length ≤ pc + 1) then some (.splitLong pc)
      else if i.fmt = 3 && (i.op = 0x71 || i.op = 0x73 || i.op = 0x75) && !isStart code false i.target then
        some (.badTarget pc)
      else instErr code fuel i.next

/-- A module's bytes checked (R88 steps 1 and 2). -/
def parseModule (bs : List Byte) : Except ModErr Module :=
  match headerErr bs with
  | some e => .error e
  | none =>
    let code := codeWords bs (leAt bs 8 4)
    match entryErr bs code with
    | some e => .error e
    | none =>
      match instErr code code.length 0 with
      | some e => .error e
      | none =>
        .ok {
          bytes := slice bs 0 (32 + 8 * leAt bs 8 4)
          entry := leAt bs 12 4
          handler := if leAt bs 16 4 = 0xFFFFFFFF then none else some (leAt bs 16 4)
          vregs := leAt bs 20 2
          mn3 := bitAt (leAt bs 6 2) 0
          code := code }

/-- The size of a native image (R87): at most 16 × WORDS + 4,096. -/
def imageSize (v : Nat) (m : Module) : Nat := min (Config.nativeSize v m.bytes) (16 * m.code.length + 4096)

/-- The bytes of a native image (R89). -/
def imageBytes (v : Nat) (m : Module) : List Byte := (List.range (imageSize v m)).map (Config.nativeByte v m.bytes)

/-- The finaliser version that the running firmware reports (R89). -/
def State.finaliser (s : State) : Nat :=
  match s.mgc.image with
  | some i => i.finaliser
  | none => 0

/-- The module whose native image begins at a virtual address of partition p (R89): one that the management firmware
finalised, or one of the driver's library. -/
def State.moduleAt (s : State) (p code : Nat) : Option Module :=
  let v := s.finaliser
  match s.mgc.modules.find? (fun m => s.vBytes p code (imageSize v m) = some (imageBytes v m)) with
  | some m => some m
  | none =>
    match parseModule (Config.foreignModule v ((s.vBytes p code 4096).getD [])) with
    | .ok m => some m
    | .error _ => none

end Sys2Proof.Machine
end

