-- ==== Sys2Proof/Machine/Launches.lean ====
section
/-!
DEFINITION. Launches (R248 to R252): reading a launch descriptor, room in the vats (R56 to R60), the dispatch of blocks
(R48, R250) and the restore of saved ones (R169, R313).
-/

namespace Sys2Proof.Machine

/-- The headbox as a requester (kind 2). -/
def headboxAsker (p : Nat) : Asker := ⟨.unit, 2, p⟩

/-! ### Descriptors -/

/-- The split of a descriptor: its own, the partition's, or MN-3's (R57, R60). -/
def State.splitOf (s : State) (p : Nat) (d : List Byte) : List Nat :=
  if leAt d 60 1 = 1 then [8, 8, 0, 0]
  else if leAt d 52 4 = 0 then
    match s.part p with
    | some r => r.split
    | none => [0, 0, 0, 0]
  else (List.range 4).map (fun i => leAt d (52 + i) 1)

/-- The refusals of a launch descriptor that need no module, in ascending reason (R248, R264). -/
def descRefusal (d : List Byte) : Option Nat :=
  let csize := leAt d 16 4
  let t := leAt d 32 2 * leAt d 34 2 * leAt d 36 2
  let gridBad (off top : Nat) : Bool := leAt d off 4 = 0 || decide (top < leAt d off 4)
  firstRefusal [
    (1, leAt d 0 8 % 4096 ≠ 0 || leAt d 8 8 % 256 ≠ 0 || decide (65536 < csize) || csize % 4 ≠ 0 ||
      (csize = 0 && leAt d 8 8 ≠ 0)),
    (2, gridBad 20 0x7FFFFFFF || gridBad 24 65535 || gridBad 28 65535),
    (3, t = 0 || decide (1024 < t)),
    (4, leAt d 38 2 = 0 || decide (256 < leAt d 38 2))]

/-- The refusals from reason 5 on, with the module found at CODE. -/
def descRefusal2 (d : List Byte) (m : Option Module) : Option Nat :=
  let mode := leAt d 60 1
  let trap := bitAt (leAt d 61 1) 0
  firstRefusal [
    (4, match m with
      | some m => decide (m.vregs < leAt d 38 2)
      | none => false),
    (5, decide (1 < mode) || (mode = 1 && leAt d 52 4 ≠ 0)),
    (6, leAt d 61 1 / 2 ≠ 0 || leAt d 62 2 ≠ 0 || leAt d 72 56 ≠ 0),
    (7, trap && (match m with
      | some m => m.handler.isNone
      | none => false)),
    (8, match m with
      | some m => m.mn3 != (mode == 1)
      | none => false),
    (9, m.isNone)]

/-- The launch that a descriptor describes (R56, R57, R60, R248). -/
def launchOf (id p : Nat) (use : LaunchUse) (m : Module) (d : List Byte) (split : List Nat) (total : Nat) : Launch where
  id := id
  p := p
  use := use
  mod := m
  code := leAt d 0 8
  const := leAt d 8 8
  csize := leAt d 16 4
  gx := leAt d 20 4
  gy := leAt d 24 4
  gz := leAt d 28 4
  bx := leAt d 32 2
  by' := leAt d 34 2
  bz := leAt d 36 2
  vregs := leAt d 38 2
  lbytes := if leAt d 60 1 = 1 then roundUp (leAt d 40 4) 1024 else roundUp (leAt d 40 4) 256
  mbytes := roundUp (leAt d 44 4) 256
  bbytes := roundUp (leAt d 48 4) 256
  split := split
  mn3 := leAt d 60 1 = 1
  patience := if leAt d 56 4 = 0 then 2 ^ 32 else leAt d 56 4
  trap := bitAt (leAt d 61 1) 0
  tag := leAt d 64 8
  total := total
  next := 0
  retired := 0
  tiles := []
  payload := []

/-- R57: the split is valid. -/
def splitOk (split : List Nat) : Bool := 1 ≤ split.getD 0 0 && split.sum = 16

/-- A need of bytes fits the granules of a use, once. -/
def granulesFit (split : List Nat) (k need used : Nat) : Bool := need = 0 || decide (used + need ≤ split.getD k 0 * 131072)

/-- A block of the launch can be resident once on an empty vat (R58, R60, R62). -/
def Launch.fitsOnce (l : Launch) : Bool :=
  decide (l.quires ≤ 4 * (512 / l.vr)) && decide (l.quires ≤ 64) && granulesFit l.split 1 l.lbytes 0 &&
    granulesFit l.split 2 l.mbytes 0 && granulesFit l.split 3 l.bbytes 0

/-- What reading a launch gives: it waits or fails, it is refused with a status, or it is a launch. -/
inductive LaunchRead
  | fail (f : Fail)
  | refused (status : Nat)
  | ok (l : Launch)
deriving DecidableEq, Repr

/-- Read a launch descriptor and its image's header (R249, R62): refusals name reasons of R264. -/
def State.readLaunch (s : State) (p : Nat) (who : Owner) (addr id : Nat) (use : LaunchUse) : State × LaunchRead :=
  match s.vRead (headboxAsker p) who p addr 128 with
  | (s1, .error f) => (s1, .fail f)
  | (s1, .ok d) =>
    match descRefusal d with
    | some r => (s1, .refused (stRefused 0 r))
    | none =>
      match s1.vRead (headboxAsker p) who p (leAt d 0 8) 64 with
      | (s2, .error f) => (s2, .fail f)
      | (s2, .ok _) =>
        let m := s2.moduleAt p (leAt d 0 8)
        match descRefusal2 d m, m with
        | some r, _ => (s2, .refused (stRefused 0 r))
        | none, none => (s2, .refused (stRefused 0 9))
        | none, some m =>
          let split := s2.splitOf p d
          let l := launchOf id p use m d split (leAt d 20 4 * leAt d 24 4 * leAt d 28 4)
          if !l.mn3 && !splitOk split then (s2, .refused (stNoFit 0))
          else if !l.fitsOnce then (s2, .refused (stNoFit 1))
          else (s2, .ok l)

/-! ### Room -/

/-- The launches of a vat's resident blocks. -/
def State.resident (s : State) (vat : Nat) : List Launch := (s.vat vat).blocks.filterMap (fun b => s.launch b.2.launch)

/-- Partition p may use the vat (R250, R306, R323): beneath its root, granted to it, or lent to the calender partition. -/
def State.mayUse (s : State) (p vat : Nat) : Bool :=
  let v := s.vat vat
  if s.pooledVats.contains vat then
    (v.lent && s.calPart = some p) || (!v.lent && v.holder = some p)
  else (s.localVats p).contains vat

/-- Free main-file rows of each scheduler (R48): 512 less those of its quires. -/
def State.freeRows (s : State) (vat : Nat) : List Nat :=
  (List.range 4).map (fun k =>
    512 - ((s.vat vat).quires.map (fun e =>
      if e.2.sched = k then
        (match s.slotBlock vat e.1 with
          | some (_, _, l) => l.vr
          | none => 0)
      else 0)).sum)

/-- The scheduler with the most free rows, the lowest on a tie. -/
def bestSched (free : List Nat) : Nat :=
  (List.range 4).foldl (fun b k => if free.getD b 0 < free.getD k 0 then k else b) 0

/-- Place `n` quires of `vr` rows one at a time (R48). -/
def placeQuires (vr : Nat) : Nat → List Nat → Option (List Nat)
  | 0, _ => some []
  | n + 1, free =>
    let k := bestSched free
    if free.getD k 0 < vr then none
    else (placeQuires vr n (free.set k (free.getD k 0 - vr))).map (fun r => k :: r)

/-- The lowest free numbers of 64. -/
def freeSlots (used : List Nat) (n : Nat) : List Nat := ((List.range 64).filter (fun k => !used.contains k)).take n

/-- The tile of a render pass whose fragments a launch shades. -/
def State.tileOf (s : State) (id : Nat) : Option (Pass × TileRun) :=
  s.geo.passes.findSome? (fun x => (x.inflight.find? (fun t => match t.job with
    | some j => j.launch = id
    | none => false)).map (fun t => (x, t)))

/-- Tile memory of a vat that tiles in flight hold (R190). -/
def State.tileBytes (s : State) (vat : Nat) : Nat :=
  (s.geo.passes.map (fun x => (x.inflight.filter (fun t => t.vat = some vat)).length * pdFoot x.desc)).sum

/-- The vat has F bytes of tile memory free for a tile of partition p (R190). -/
def State.tileFits (s : State) (vat p foot : Nat) : Bool :=
  let ls := s.resident vat
  let split := match s.part p with
    | some r => r.split
    | none => []
  s.mayUse p vat && !(s.vat vat).preempt.contains p && ls.all (fun x => x.p = p && !x.mn3 && x.split = split) &&
    !s.geo.passes.any (fun x => x.p ≠ p && x.inflight.any (fun t => t.vat = some vat)) &&
    granulesFit split 2 foot ((ls.map Launch.mbytes).sum + s.tileBytes vat)

/-- A fragment launch runs on the vat that holds its tile; where the tile's block was saved, on any vat with tile memory
free (R201). Other launches run anywhere. A vertex launch pauses while its pass is broke (R196). -/
def State.geoVat (s : State) (l : Launch) (vat : Nat) : Bool :=
  match l.use with
  | .fragment _ _ => (match s.tileOf l.id with
    | some (x, t) => (match t.vat with
      | some v => v = vat
      | none => s.tileFits vat l.p (pdFoot x.desc))
    | none => false)
  | .vertex _ d => !s.geo.passes.any (fun x => x.phase = .broke && x.draws.any (fun r => r.cmd = d))
  | _ => true

/-- A tile whose saved block goes on at a vat is held by that vat. -/
def State.attachTile (s : State) (l : Launch) (vat : Nat) : State :=
  match l.use, s.tileOf l.id with
  | .fragment _ _, some (x, t) => s.setPass (x.setTile { t with vat := some vat })
  | _, _ => s

/-- The launch shades fragments. -/
def Launch.shades (l : Launch) : Bool :=
  match l.use with
  | .fragment _ _ => true
  | _ => false

/-- The vat has room for a block of the launch (R58 to R60): the schedulers of its quires. A pre-emption takes effect at
the end of the tiles in flight (R201). -/
def State.room (s : State) (vat : Nat) (l : Launch) : Option (List Nat) :=
  let ls := s.resident vat
  let v := s.vat vat
  let same := ls.all (fun x => x.p = l.p && x.mn3 == l.mn3 && x.split = l.split)
  let sum (f : Launch → Nat) : Nat := (ls.map f).sum
  if !s.mayUse l.p vat || (v.preempt.contains l.p && !l.shades) || !same || !s.geoVat l vat ||
      s.geo.passes.any (fun x => x.p ≠ l.p && x.inflight.any (fun t => t.vat = some vat)) then none
  else if 64 < v.quires.length + l.quires || (l.mn3 && decide (32 ≤ ls.length)) || decide (64 ≤ ls.length) then none
  else if !granulesFit l.split 1 l.lbytes (sum Launch.lbytes) || !granulesFit l.split 2 l.mbytes (sum Launch.mbytes + s.tileBytes vat) ||
      !granulesFit l.split 3 l.bbytes (sum Launch.bbytes) then none
  else placeQuires l.vr l.quires (s.freeRows vat)

/-- The lowest vat with room that passes a test, and the schedulers. -/
def State.findRoom (s : State) (l : Launch) (ok : Nat → Bool) : Option (Nat × List Nat) :=
  (List.range 64).findSome? (fun n => if ok n then (s.room n l).map (fun r => (n, r)) else none)

/-! ### Dispatch -/

/-- The launch's own command still stands, and its queue is not being destroyed (R285). -/
def State.launchStands (s : State) (l : Launch) : Bool :=
  match l.cmdId with
  | none => true
  | some id => match s.cmd id with
    | some c => s.rd .HB_Q_CTRL_DESTROYING c.p c.q = 0
    | none => false

/-- The linear index of a launch's k-th block: a column's blocks share X and Y (R437). -/
def Launch.blockIndex (l : Launch) (k : Nat) : Nat :=
  match l.use with
  | .column _ col => col + l.gx * l.gy * k
  | _ => l.gridIndex k

/-- A thread's payload registers v0 on (R179, R189). -/
def payloadRegs (l : Launch) (index q : Nat) : List (Nat × Word) :=
  (List.range 32).foldl (fun m lane =>
    (indexed (l.payload.getD (index * l.threads + 32 * q + lane) [])).foldl
      (fun m x => storePut (32 * x.1 + lane) x.2 m) m) []

/-- The lanes of quire q that hold threads. -/
def threadMask (t q : Nat) : Nat := 2 ^ min 32 (t - 32 * q) - 1

/-- A new quire of a block (R56, R147). -/
def newQuire (l : Launch) (blk q sched seed index : Nat) : Quire where
  block := blk
  idx := q
  sched := sched
  active := BitVec.ofNat 32 (threadMask (l.blockThreads index) q)
  exited := ~~~(BitVec.ofNat 32 (threadMask (l.blockThreads index) q))
  pc := l.mod.entry
  v := payloadRegs l index q
  seed := some seed

/-- The lowest free block slot. -/
def Vat.freeBlock (v : Vat) : Nat := (freeSlots (v.blocks.map (·.1)) 1).getD 0 0

/-- The preload slots that hold a launch whose last block has been dispatched empty (R251). -/
def State.clearPreloads (s : State) (id : Nat) : State :=
  { s with vats := s.vats.map (fun e => if e.2.preload = some id then (e.1, { e.2 with preload := none }) else e) }

/-- The footprint of a block's dispatch (R339): code and constants, and the save slot of a restored block. -/
def State.dispatchRanges (s : State) (l : Launch) (save : List (Nat × Nat)) : List (Nat × Nat × Nat) :=
  sortRanges ([(l.code, imageSize s.finaliser l.mod, rightX)] ++
    (if l.csize = 0 then [] else [(l.const, l.csize, rightR)]) ++ save.map (fun x => (x.1, x.2, rightR)))

/-- A new block of a launch on a vat; the dispatch wakes the vat (R446). -/
def State.placeBlock (s : State) (l : Launch) (id vat : Nat) (scheds : List Nat) : State :=
  let (seed, s1) := (s.wakeNow vat).takeFree
  let v := s1.vat vat
  let b := v.freeBlock
  let index := l.blockIndex l.next
  let slots := freeSlots (v.quires.map (·.1)) l.quires
  let qs := (indexed slots).foldl (fun (m : List (Nat × Quire)) x =>
    storePut x.2 (newQuire l b x.1 (scheds.getD x.1 0) seed index) m) v.quires
  let blk : Block := { launch := id, index := index, seed := some seed }
  let l1 : Launch := { l with next := l.next + 1 }
  let s2 := (s1.setVat vat { v with quires := qs, blocks := storePut b blk v.blocks }).setLaunch id l1
  if l1.next = l1.total then s2.clearPreloads id else s2

/-! ### Restore -/

/-- The number under which the requests of a saved block's quires stand while it is saved. -/
def savedVat (p addr : Nat) : Nat := 64 + p * 2 ^ 48 + addr

/-- Move a quire's requests, fetched data and migration waits from one place to another. -/
def State.moveOwner (s : State) (v1 q1 v2 q2 : Nat) : State :=
  let f (o : Owner) : Owner := match o with
    | .quire v q => if v = v1 && q = q1 then .quire v2 q2 else o
    | .store v q => if v = v1 && q = q1 then .store v2 q2 else o
    | _ => o
  { s with
    ring := { s.ring with reqs := s.ring.reqs.map (fun r => { r with owner := f r.owner }) }
    pcie := { s.pcie with reqs := s.pcie.reqs.map (fun r => { r with owner := f r.owner }) }
    xlt := { s.xlt with fetched := s.xlt.fetched.map (fun x => { x with owner := f x.owner }) } }

/-- What a saved wait finds at its restore (R310): a SYN.ARRIVE is released when PHASE has moved on; a SYN.WAIT starts
again with what is left of its timeout. -/
def State.restoreWait (s : State) (w : Wait) : State :=
  let (id, s1) := s.takeId
  let w1 : Wait := { w with id := id, registered := decide (s.registeredWaits < 8192) || decide (16384 ≤ w.obj) }
  let s2 := s1.setWaits (s1.sync.waits ++ [w1])
  if 16384 ≤ w.obj then
    match w.notice with
    | some st => s2.endWait w1 st
    | none => s2
  else if s.objType w.obj = 3 && s.objState w.obj ≠ 3 then
    if s.objValue w.obj / 2 ^ 32 = w.threshold then s2 else s2.endWait w1 stOk
  else match s.waitStart w.obj w.threshold with
    | some st => s2.endWait w1 st
    | none => s2

/-- The waiter of a saved wait at a new place. -/
def Waiter.place (vat : Nat) (slots : List Nat) : Waiter → Waiter
  | .lane _ q n dst => .lane vat (slots.getD q 0) n dst
  | w => w

/-- Sets that a saved block needs (R169). -/
def Saved.needs (x : Saved) : Nat := x.sets.length

/-- The sets of a restored block acquired again, in handle order. -/
def restoreSets (free : List Nat) (slots : List Nat) (x : Saved) : List (Nat × (Nat × AccSet)) :=
  (indexed x.sets).map (fun e =>
    (e.2.1, (free.getD e.1 0, { e.2.2 with owner := e.2.2.owner.map (fun o => (slots.getD o.1 0, o.2)) })))

/-- A restored quire: its scheduler, block, and the numbers of its sets. -/
def restoreQuire (b sched : Nat) (sets : List (Nat × (Nat × AccSet))) (q : Quire) : Quire :=
  { q with
    block := b
    sched := sched
    t := q.t.map (fun h => match h.2 with
      | .acc k => (h.1, .acc ((sets.find? (fun x => x.1 = k)).map (fun x => x.2.1) |>.getD k))
      | _ => h)
    wait := if q.wait = .saved then .run else q.wait
    savedLive := none }

/-- Restore a saved block on a vat (R169, R313), which it wakes (R446). -/
def State.restoreBlock (s : State) (x : Saved) (vat : Nat) (scheds : List Nat) : State :=
  let s := s.wakeNow vat
  let v := s.vat vat
  let b := v.freeBlock
  let slots := freeSlots (v.quires.map (·.1)) x.quires.length
  let sets := restoreSets v.freeSets slots x
  let qs := (indexed (x.quires.zip slots)).foldl (fun (m : List (Nat × Quire)) e =>
    storePut e.2.2 (restoreQuire b (scheds.getD e.1 0) sets e.2.1) m) v.quires
  let blk : Block := { x.block with saving := none, handler := x.block.handler.map (fun i => slots.getD i 0) }
  let reqs := x.pendingAcq.map (fun r => ({ r with slot := slots.getD r.slot 0 } : AcqReq))
  let v1 : Vat := { v with
    quires := qs
    blocks := storePut b blk v.blocks
    sets := sets.foldl (fun m e => storePut e.2.1 e.2.2 m) v.sets
    acqq := v.acqq ++ reqs }
  let s1 : State := { s.setVat vat v1 with sched := { s.sched with saved := s.sched.saved.filter (fun y => y ≠ x) } }
  let s2 := (indexed slots).foldl (fun (s : State) e => s.moveOwner (savedVat x.p x.addr) e.1 vat e.2) s1
  let s3 := x.locks.foldl (fun (s : State) k =>
    s.wr .SYN_OBJ_AUX (lockHeld (lockIdent s.pos vat (slots.getD (k.2 / 32) 0) (k.2 % 32))) k.1) s2
  let s4 := x.waits.foldl (fun (s : State) w => s.restoreWait { w with who := w.who.place vat slots }) s3
  if v.acqq.isEmpty then s4.grantHead vat else s4

/-- A failing dispatch: it waits, or the partition is torn down. -/
def State.dispatchFail (s : State) (l : Launch) (vat : Nat) (f : Fail) : State := s.failTile l.p vat l.tag f

/-- BLOCK_DISPATCH (R250, R313): the launch's saved blocks first, then its next block, to the lowest vat with room. -/
def State.dispatch (s : State) (id : Nat) : State :=
  match s.launch id with
  | none => s
  | some l =>
    let spanningMaster := s.spanning l.p && (match l.use with
      | .compute _ => true
      | _ => false)
    let drains := l.shades && s.funcState l.p = fnStopping && s.rd .SCH_FAULT_CTRL_FAULTED l.p = 0
    if !(s.partRuns l.p || drains) || !s.launchStands l || spanningMaster then s
    else match (if s.partRuns l.p then s.sched.saved.find? (fun x => x.p = l.p && x.block.launch = id) else none) with
      | some x =>
        match s.findRoom l (fun n => decide (x.needs ≤ (s.vat n).freeSets.length) && (s.vat n).acqq.isEmpty) with
        | none => s
        | some (vat, scheds) =>
          match s.footprints (vatAsker vat l.p) (.launch id) l.p (s.dispatchRanges l [(x.addr, x.size)]) with
          | (s1, .error f) => s1.dispatchFail l vat f
          | (s1, .ok _) => (s1.restoreBlock x vat scheds).attachTile l vat
      | none =>
        if l.total ≤ l.next then s
        else match s.findRoom l (fun _ => true) with
          | none => s
          | some (vat, scheds) =>
            match s.footprints (vatAsker vat l.p) (.launch id) l.p (s.dispatchRanges l []) with
            | (s1, .error f) => s1.dispatchFail l vat f
            | (s1, .ok _) => (s1.placeBlock l id vat scheds).attachTile l vat

/-- BLOCK_DISPATCH (R250). -/
def execBlockDispatch (launch : Nat) (s : State) : Host.Outcome State Fault Refusal :=
  .next (if s.live then s.dispatch launch else s)

end Sys2Proof.Machine
end

