-- ==== Sys2Proof/Machine/Intake.lean ====
section
/-!
DEFINITION. Packet intake (R235 to R242): fetching a packet's slots, the structure checks, and what a failure does.
-/

namespace Sys2Proof.Machine

/-- The LENGTH of an opcode is as listed (R239); none: no such opcode. -/
def lengthOk (op len : Nat) : Option Bool :=
  match op with
  | 0x00 => some (1 ≤ len && decide (len ≤ 4095))
  | 0x01 => some (len = 3)
  | 0x02 => some (len = 5)
  | 0x03 => some (len = 4)
  | 0x04 => some (len = 5)
  | 0x05 => some (len = 3)
  | 0x10 => some (len = 3)
  | 0x11 => some (len = 3)
  | 0x12 => some (len = 1)
  | 0x20 => some (len = 3)
  | 0x28 => some (len = 3)
  | 0x29 => some (len = 3)
  | 0x30 => some (len = 7)
  | 0x31 => some (len = 6)
  | 0x40 => some (len = 4)
  | 0x41 => some (len = 5)
  | 0x42 => some (len = 3)
  | 0x43 => some (len = 3)
  | _ => none

/-- MODE of a GRAPH_PATCH (R240). -/
def patchMode (ws : List Word) : Nat := bits (ws.getD 1 0).toNat 9 8

/-- The addresses of a packet: low word and alignment (R240). -/
def packetAddrs (op : Nat) (ws : List Word) : List (Nat × Nat) :=
  if op = 0x01 || op = 0x05 then [(1, 128)]
  else if op = 0x02 then [(1, 128), (3, 32)]
  else if op = 0x03 then [(2, 64)]
  else if op = 0x04 then [(2, if patchMode ws = 1 then 8 else if patchMode ws = 2 then 1 else 64)]
  else if op = 0x10 || op = 0x11 || op = 0x20 || op = 0x28 || op = 0x29 then [(1, 64)]
  else if op = 0x30 then [(1, 1), (3, 1)]
  else if op = 0x31 then [(1, 4)]
  else []

/-- The words with bits that must be 0 (R240, R256): a word and whether it breaks the rule. -/
def packetZeros (op : Nat) (ws : List Word) : List (Nat × Bool) :=
  let w (k : Nat) : Nat := (ws.getD k 0).toNat
  if op = 0x03 then [(1, w 1 / 256 ≠ 0)]
  else if op = 0x04 then
    [(1, w 1 / 1024 ≠ 0 || patchMode ws = 3), (2, patchMode ws = 2 && w 2 ≠ 0), (3, patchMode ws = 2 && w 3 ≠ 0),
      (4, patchMode ws = 2 && w 4 ≠ 0)]
  else if op = 0x40 || op = 0x41 then [(1, w 1 / 16384 ≠ 0)]
  else []

/-- The checks of R241 on a packet of a known opcode and LENGTH: FLAGS, unused bits, address bits, alignments. -/
def packetErr (op flags : Nat) (ws : List Word) : Option Nat :=
  let w (k : Nat) : Nat := (ws.getD k 0).toNat
  if flags % 1024 ≠ 0 then some (stCmd 4 flags)
  else match (packetZeros op ws).find? (·.2) with
    | some (k, _) => some (stCmd 5 k)
    | none =>
      match (packetAddrs op ws).find? (fun a => decide (65536 ≤ w (a.1 + 1))) with
      | some (k, _) => some (stCmd 5 (k + 1))
      | none =>
        match (packetAddrs op ws ++ (if op = 0x31 then [(3, 4)] else [])).find? (fun (a : Nat × Nat) => w a.1 % a.2 ≠ 0) with
        | some (k, _) => some (stCmd 3 k)
        | none => none

/-- The header's fields (R237): OP, LENGTH, FLAGS. -/
def headerOf (w : Nat) : Nat × Nat × Nat := (w % 256, w / 256 % 4096, w / 2 ^ 20 % 4096)

/-- The 32-bit words of bytes. -/
def wordsOf (bs : List Byte) (n : Nat) : List Word := (List.range n).map (fun i => BitVec.ofNat 32 (leAt bs (4 * i) 4))

/-- The queue takes packets in (R235, R241): enabled, its partition running and not torn down, and it holds work. -/
def State.takesIn (s : State) (p q : Nat) : Bool :=
  s.rd .HB_Q_CTRL_EN p q = 1 && s.rd .SCH_FAULT_CTRL_FAULTED p = 0 && s.rd .HB_RECLAIM_RUNNING p = 0 &&
    s.funcState p = fnRunning && s.rd .HB_Q_READ_INDEX p q ≠ s.bell p q

/-- An intake failure (R242): recorded, and the partition is torn down. -/
def State.intakeFail (s : State) (p q st : Nat) : State :=
  let slot := s.rd .HB_Q_READ_INDEX p q
  let s1 := ((s.wr .HB_PART_FAULT_STATUS st p).wr .HB_PART_FAULT_AT_QUEUE q p).wr .HB_PART_FAULT_AT_SLOT (slot % 2 ^ 24) p
  s1.tearDown p 1 st 0 q slot 0

/-- What intake finds at the read index: nothing to take yet, a failed or waiting access, a refusal, or a packet. -/
inductive Taken
  | none
  | fail (f : Fail)
  | bad (status : Nat)
  | packet (words : List Word) (slots : Nat)
deriving DecidableEq, Repr

/-- Fetch the packet at the read index and check it (R235 to R241). -/
def State.fetchPacket (s : State) (p q : Nat) : State × Taken :=
  let size := s.rd .HB_Q_CTRL_SIZE p q
  let rd := s.rd .HB_Q_READ_INDEX p q
  let fill := sub32 (s.bell p q) rd
  let at' := s.addrOf .HB_Q_BASE_ADDR p q + 32 * (rd % 2 ^ size)
  if decide (2 ^ size < fill) then (s, .bad (stCmd 6 q))
  else match s.vRead (headboxAsker p) (.queue p q) p at' 32 with
    | (s1, .error f) => (s1, .fail f)
    | (s1, .ok hd) =>
      let (op, len, flags) := headerOf (leAt hd 0 4)
      match lengthOk op len with
      | none => (s1, .bad (stCmd 1 op))
      | some false => (s1, .bad (stCmd 2 len))
      | some true =>
        let n := (len + 7) / 8
        if decide (2 ^ size < rd % 2 ^ size + n) then (s1, .bad (stCmd 2 len))
        else if fill < n then (s1, .none)
        else match (if n = 1 then (s1, .ok hd) else s1.vRead (headboxAsker p) (.queue p q) p at' (32 * n)) with
          | (s2, .error .stall) => ({ s2 with xlt := { s2.xlt with fetched := s.xlt.fetched } }, .fail .stall)
          | (s2, .error f) => (s2, .fail f)
          | (s2, .ok bs) =>
            let ws := wordsOf bs len
            match packetErr op flags ws with
            | some st => (s2, .bad st)
            | none => (s2, .packet ws n)

/-- A packet passes intake: it becomes a command of its queue; a NOP is done at once (R269). -/
def State.takePacket (s : State) (p q : Nat) (ws : List Word) (slots : Nat) : State :=
  let (op, _, flags) := headerOf (ws.headD 0).toNat
  let (id, s1) := s.takeId
  let rd := s1.rd .HB_Q_READ_INDEX p q
  let c : Cmd := { id := id, p := p, q := q, op := op, flags := flags, words := ws, slot := rd, slots := slots
                   phase := if op = 0 then .done else .fetched, result := if op = 0 then some stOk else none }
  let s2 := (s1.setQueue p q (s1.queue p q ++ [c])).wr .HB_Q_READ_INDEX (rd + slots) p q
  if op = 0 then (s2.trimQueue p q).passRecords else s2

/-- Intake of one packet of a queue (R241, R242). -/
def State.intake (s : State) (p q : Nat) : State :=
  if !s.takesIn p q then s
  else match s.fetchPacket p q with
    | (s1, .none) => s1
    | (s1, .fail .stall) => s1
    | (s1, .fail (.fault source st va)) => s1.tearDown p source st 0 0 va 0
    | (s1, .bad st) => s1.intakeFail p q st
    | (s1, .packet ws n) => s1.takePacket p q ws n

/-- Intake of a NOP: nothing happens unless a NOP is at the read index. -/
def State.intakeNop (s : State) (p q : Nat) : State :=
  if !s.takesIn p q then s
  else match s.fetchPacket p q with
    | (s1, .packet ws n) => if (ws.headD 0).toNat % 256 = 0 then s1.takePacket p q ws n else s
    | _ => s

/-- PACKET_INTAKE (R241). -/
def execPacketIntake (p : Fin 32) (q : Fin 16) (s : State) : Host.Outcome State Fault Refusal :=
  .next (if s.live then s.intake p q else s)

/-- NOP_PACKET (R239, R269): a NOP counts when it passes intake. -/
def execNopPacket (p : Fin 32) (q : Fin 16) (s : State) : Host.Outcome State Fault Refusal :=
  .next (if s.live then s.intakeNop p q else s)

end Sys2Proof.Machine
end

