-- ==== Sys2Proof/Machine/Handoff.lean ====
section
/-!
DEFINITION. The shared parser and the hand-off of commands (R243 to R247): which command of a queue or which node of a
graph may be handed to its engine, the commands that the headbox and the vats take (R248 to R252), and completion.
-/

namespace Sys2Proof.Machine

/-! ### Which command -/

/-- Work of the partition that has not reached its point of coherence on other chips: what a release at RING scope waits
for (R115, R244). -/
def State.releaseWaits (s : State) (p : Nat) : Bool := s.writesOut p

/-- A command of the list before `c` keeps it from being handed off (R243 to R245): one not handed off yet, a WAIT that
has not completed, or, for a command that acts after all earlier ones, any that has not completed. A node's own
GRAPH_LAUNCH does not count. -/
def cmdBlocks (own : Option Nat) (after : Bool) (x : Cmd) : Bool :=
  x.phase = .fetched || (x.op = 0x41 && x.phase ≠ .done) || (after && x.phase ≠ .done && own ≠ some x.id)

/-- The command acts only after all earlier commands of its queue have completed (R238, R244). -/
def Cmd.actsAfter (c : Cmd) : Bool := c.barrier || c.op = 0x40 || c.op = 0x42 || c.op = 0x43

/-- The GRAPH_LAUNCH whose node a command is. -/
def State.ownLaunch (s : State) (c : Cmd) : Option Nat :=
  match c.node with
  | none => none
  | some (run, _) => (s.hb.runs.find? (fun r => r.id = run)).map (·.cmd)

/-- A command that has not been handed off may be (R243, R244, R245, R327). -/
def State.eligible (s : State) (c : Cmd) : Bool :=
  c.phase = .fetched && s.partRuns c.p && s.rd .HB_Q_CTRL_EN c.p c.q = 1 && s.rd .HB_Q_CTRL_HALTED c.p c.q = 0 &&
    (s.unlimited c.p 0 || s.rd .SCH_SB_CREDIT_DRAM c.p ≠ 0) &&
    !((s.queue c.p c.q).takeWhile (fun x => x.id ≠ c.id)).any (cmdBlocks (s.ownLaunch c) c.actsAfter) &&
    !((c.op = 0x40 || c.op = 0x42) && s.releaseWaits c.p)

/-- The queue's command at the parser's head, when `want` takes its opcode: a command in progress (a copy resumes), or the
first that has not been handed off. -/
def State.headCmd (s : State) (p q : Nat) (want : Cmd → Bool) : Option Cmd :=
  match (s.queue p q).find? (fun c => c.phase = .handed && c.result.isNone && engineOf c.op = 4 && want c) with
  | some c => some c
  | none =>
    match (s.queue p q).find? (fun c => c.phase = .fetched) with
    | some c => if c.node.isNone && want c && s.eligible c then some c else none
    | none => none

/-- A node is ready: it waits and all its predecessors have completed with class OK (R259). -/
def nodeReady (nodes : List RunNode) (n : RunNode) : Bool :=
  n.phase = .fetched && (nodePreds n.bytes).all (fun i => match nodes[i]? with
    | some m => m.phase = .done && statusOk m.status
    | none => false)

/-- The lowest ready node of a run. -/
def GraphRun.nextNode (r : GraphRun) : Option Nat :=
  (List.range r.nodes.length).find? (fun i => match r.nodes[i]? with
    | some n => nodeReady r.nodes n
    | none => false)

/-- Insert a node's command behind its GRAPH_LAUNCH and the launch's earlier nodes. -/
def insertNode (cmd run : Nat) (c : Cmd) (l : List Cmd) : List Cmd :=
  let mine (x : Cmd) : Bool := x.id = cmd || (match x.node with | some (r, _) => r = run | none => false)
  let tail := (l.reverse.takeWhile (fun x => !mine x)).reverse
  l.take (l.length - tail.length) ++ [c] ++ tail

/-- The argument words of a node's packet: (packet word, argument word) (R254). -/
def nodeArgs (bs : List Byte) (len : Nat) : List (Nat × Nat) :=
  ((List.range 7).map (fun k => (k + 1, leAt bs (40 + k) 1))).filter (fun x => x.2 ≠ 0xFF && x.1 < len)

/-- The packet of a node with its argument words put in; `from'` is the first argument word that was read. -/
def nodeWords (bs : List Byte) (len from' : Nat) (argBytes : List Byte) : List Word :=
  (nodeArgs bs len).foldl (fun ws x => ws.set x.1 (BitVec.ofNat 32 (leAt argBytes (4 * (x.2 - from')) 4))) (wordsOf bs len)

/-- Sequence node `i` of a run (R259): its command, with argument words, joins the launch's queue; without an argument
block a node that needs one completes with NO_ARGS. Answers the command. -/
def State.sequenceNode (s : State) (r : GraphRun) (i : Nat) (n : RunNode) : State × Option Cmd :=
  let (op, len, flags) := headerOf (leAt n.bytes 0 4)
  let slot := match s.cmd r.cmd with | some c => c.slot | none => 0
  let as := (nodeArgs n.bytes len).map (·.2)
  let lo := as.foldl min 63
  let hi := as.foldl max 0
  let put (s : State) (ws : List Word) : State × Cmd :=
    let (id, s1) := s.takeId
    let c : Cmd := { id := id, p := r.p, q := r.q, op := op, flags := flags, words := ws, slot := slot, slots := 0
                     phase := .fetched, node := some (r.id, i) }
    let s2 := s1.modRun r.id (fun r => { r with nodes := r.nodes.modify i (fun n => { n with phase := .handed }) })
    (s2.setQueue r.p r.q (insertNode r.cmd r.id c (s2.queue r.p r.q)), c)
  if as = [] then
    let (s1, c) := put s (wordsOf n.bytes len)
    (s1, some c)
  else if r.args = 0 then
    let (s1, c) := put s (wordsOf n.bytes len)
    (s1.finishCmd c.id (stCmd 0x26 i) true, none)
  else match s.vRead (headboxAsker r.p) (.cmd r.cmd) r.p (r.args + 4 * lo) (4 * (hi + 1 - lo)) with
    | (s1, .error f) => (s1.failTile r.p 0 0 f, none)
    | (s1, .ok bs) =>
      let (s2, c) := put s1 (nodeWords n.bytes len lo bs)
      (s2, some c)

/-- The command that a reference names, when `want` takes it and it may be handed off: a queue's head, or a node of a
running graph launch, which is sequenced first. -/
def State.takeCmd (s : State) (r : CmdRef) (want : Cmd → Bool) : State × Option Cmd :=
  match r with
  | .queue p q => (s, s.headCmd p.val q.val want)
  | .node run i =>
    match s.allCmds.find? (fun c => c.node = some (run, i)) with
    | some c =>
      (s, if want c && (s.eligible c || (c.phase = .handed && c.result.isNone && engineOf c.op = 4)) then some c else none)
    | none =>
      match s.hb.runs.find? (fun x => x.id = run) with
      | none => (s, none)
      | some g =>
        match g.nodes[i]? with
        | none => (s, none)
        | some n =>
          let (op, len, flags) := headerOf (leAt n.bytes 0 4)
          let probe : Cmd := { id := s.nextId, p := g.p, q := g.q, op := op, flags := flags, words := wordsOf n.bytes len
                               slot := 0, slots := 0, phase := .fetched, node := some (run, i) }
          let before := insertNode g.cmd g.id probe (s.queue g.p g.q)
          let s' := s.setQueue g.p g.q before
          if g.nextNode = some i && want probe && s'.eligible probe then s.sequenceNode g i n else (s, none)

/-- Run the hand-off of a referenced command by `k`. -/
def State.withCmd (s : State) (r : CmdRef) (want : Cmd → Bool) (k : State → Cmd → State) : State :=
  if !s.live then s
  else match s.takeCmd r want with
    | (s1, some c) => k s1 c
    | (s1, none) => s1

/-- The domain that a hand-off to GEO or BAL wakes (R446). -/
def State.wakeEngine (s : State) (id : Nat) : State :=
  match s.cmd id with
  | some c => if c.op = 0x10 then s.wakeNow domGeo else if engineOf c.op = 3 then s.wakeNow domBal else s
  | none => s

/-- The command has been handed to its engine. -/
def State.hand (s : State) (id : Nat) : State := (s.wakeEngine id).modCmd id (fun c => { c with phase := .handed })

/-- Handed off, and its engine has reached a status. -/
def State.handDone (s : State) (id st : Nat) : State := (s.hand id).setResult id st

/-- A hand-off whose access fails: the command waits, or its partition is torn down (R340). -/
def State.cmdFail (s : State) (c : Cmd) (f : Fail) : State := s.failTile c.p 0 0 f

/-! ### Pooled vats (R306, R307) -/

/-- Partition p is pooled (R25). -/
def State.pooled (s : State) (p : Nat) : Bool :=
  match s.part p with
  | some r => r.pooled
  | none => false

/-- A pooled partition waits (R306): blocks to dispatch, or saved blocks to restore. -/
def State.poolWaits (s : State) (p : Nat) : Bool :=
  s.pooled p && s.partRuns p &&
    (s.launches.any (fun e => e.2.p = p && decide (e.2.next < e.2.total) && s.launchStands e.2) ||
      s.sched.saved.any (fun x => x.p = p) || s.geo.passes.any (fun x => x.p = p && x.todo ≠ []))

/-- PRIO of a partition. -/
def State.prio (s : State) (p : Nat) : Nat :=
  match s.part p with
  | some r => r.prio
  | none => 0

/-- A pooled vat is free (R306). -/
def State.poolFree (s : State) (n : Nat) : Bool := (s.vat n).blocks = [] && !s.anyTile n && !(s.vat n).lent

/-- The waiting partitions, those that have waited longest first (R306). -/
def State.updateWaiting (s : State) : State :=
  let old := s.sched.waiting.filter s.poolWaits
  let new := (List.range 32).filter (fun p => s.poolWaits p && !old.contains p)
  { s with sched := { s.sched with waiting := old ++ new } }

/-- R307: while a pooled partition waits and no pooled vat is free, the vats held at a lower PRIO are pre-empted. -/
def State.poolStep (s : State) : State :=
  let s1 := s.updateWaiting
  if s1.pooledVats.any s1.poolFree then s1
  else
    let top := s1.sched.waiting.foldl (fun m p => max m (s1.prio p)) 0
    if s1.sched.waiting = [] then s1
    else s1.pooledVats.foldl (fun s n => match (s.vat n).holder with
      | some h => if s.prio h < top then s.preempt n h else s
      | none => s) s1

/-! ### Launches (R248 to R252) -/

/-- A preload slot that a PRELOAD filled for the same code and constants holds the launch (R252). -/
def State.adoptPreloads (s : State) (l : Launch) : State :=
  let same (id : Nat) : Bool := match s.launch id with
    | some x => x.total = 0 && x.p = l.p && x.code = l.code && x.const = l.const
    | none => false
  let vats := s.vats.map (fun e => match e.2.preload with
    | some id => if same id then (e.1, { e.2 with preload := some l.id }) else e
    | none => e)
  { s with vats := vats, launches := s.launches.filter (fun e => !same e.1) }

/-- The blocks of a node's launch are noted for its frame (R320). -/
def State.noteTiles (s : State) (c : Cmd) (n : Nat) : State :=
  match c.node with
  | some (run, i) => s.modRun run (fun r => { r with nodes := r.nodes.modify i (fun x => { x with tiles := n }) })
  | none => s

/-- A launch is handed to the vats (R249, R250): a spanning partition's is divided into columns (R437). -/
def State.startLaunch (s : State) (c : Cmd) (l : Launch) : State :=
  let s1 := (s.hand c.id).noteTiles c l.total
  if s1.spanning l.p then
    (s1.setLaunch l.id { l with total := if l.tiles = [] then l.gx * l.gy else l.total }).grantColumns l.id 1024
  else ((s1.adoptPreloads l).setLaunch l.id l).poolStep

/-- The hand-off of a LAUNCH (R248, R249). -/
def State.launchCmd (s : State) (c : Cmd) : State :=
  let (id, s0) := s.takeId
  match s0.readLaunch c.p (.cmd c.id) (c.dword 1) id (.compute c.id) with
  | (s1, .fail f) => s1.cmdFail c f
  | (s1, .refused st) => s1.handDone c.id st
  | (s1, .ok l) => s1.startLaunch c l

/-- LAUNCH (R248). -/
def execLaunch (cmd : CmdRef) (s : State) : Host.Outcome State Fault Refusal :=
  .next (s.withCmd cmd (fun c => c.op = 0x01) State.launchCmd)

/-- Warm a launch's code into L2 and its translations into the cache, as far as they can be read (R251, R252). -/
def State.warm (s : State) (l : Launch) (bytes : Nat) : State :=
  let n := min bytes (imageSize s.finaliser l.mod)
  let s1 := (s.prefetchRange (headboxAsker l.p) l.p l.code n).prefetchRange (headboxAsker l.p) l.p l.const l.csize
  match s1.vRead (headboxAsker l.p) (.post l.p) l.p l.code n with
  | (s2, .ok _) => s2
  | (_, .error _) => s1

/-- The hand-off of a PRELOAD (R252): it fills the empty preload slots beneath the partition's root, warms the code, and
completes; a descriptor that is unmapped or malformed is ignored. -/
def State.preloadCmd (s : State) (c : Cmd) : State :=
  let (id, s0) := s.takeId
  let finish (s : State) : State := (s.hand c.id).finishCmd c.id stOk true
  match s0.readLaunch c.p (.cmd c.id) (c.dword 1) id (.compute c.id) with
  | (s1, .fail .stall) => s1
  | (_, .fail _) => finish s
  | (s1, .refused _) => finish s1
  | (s1, .ok l) =>
    let free := (List.range 64).filter (fun n => s1.mayUse c.p n && (s1.vat n).preload.isNone)
    let s2 := free.foldl (fun (s : State) n => (s.wakeNow n).setVat n { (s.wakeNow n).vat n with preload := some id }) s1
    let s3 := if free = [] then s2 else s2.setLaunch id { l with total := 0 }
    finish (s3.warm l (imageSize s3.finaliser l.mod))

/-- PRELOAD (R252). -/
def execPreload (cmd : CmdRef) (s : State) : Host.Outcome State Fault Refusal :=
  .next (s.withCmd cmd (fun c => c.op = 0x05) State.preloadCmd)

/-- Fill a vat's preload slot (R251): the oldest launch handed to the vats, of the partition whose blocks the vat runs,
that has blocks to dispatch and is not resident on the vat. -/
def State.preloadFill (s : State) (vat : Nat) : State :=
  match (s.resident vat).head?, (s.vat vat).preload with
  | some r, none =>
    match s.launches.find? (fun e => e.2.p = r.p && decide (e.2.next < e.2.total) && s.mayUse r.p vat &&
        !(s.vat vat).preempt.contains r.p && !(s.vat vat).blocks.any (fun b => b.2.launch = e.1)) with
    | some (id, l) => ((s.wakeNow vat).setVat vat { (s.wakeNow vat).vat vat with preload := some id }).warm l 16384
    | none => s
  | _, _ => s

/-- PRELOAD_FILL (R251). -/
def execPreloadFill (vat : Fin 64) (s : State) : Host.Outcome State Fault Refusal :=
  .next (if s.live then s.preloadFill vat else s)

/-! ### The sync unit's commands and MARK (R244, R245, R277, R282, R284) -/

/-- The hand-off of a SIGNAL (R277). -/
def State.signalHand (s : State) (c : Cmd) : State :=
  let h := c.word 1 % 16384
  match s.synServe ⟨c.p, 0x40, h, 0, c.dword 2, 0, 0, 0⟩ (.cmd c.id) with
  | (s1, .done st _) => s1.handDone c.id st
  | (s1, _) => s1.handDone c.id (stRefused 5 1)

/-- SIGNAL (R277). -/
def execSignalCmd (cmd : CmdRef) (s : State) : Host.Outcome State Fault Refusal :=
  .next (s.withCmd cmd (fun c => c.op = 0x40) State.signalHand)

/-- The hand-off of a WAIT (R245, R284). -/
def State.waitHand (s : State) (c : Cmd) : State :=
  let h := c.word 1 % 16384
  let s0 := s.hand c.id
  match s0.synServe ⟨c.p, 0x41, h, 0, 0, c.dword 2, c.word 4, 0⟩ (.cmd c.id) with
  | (s1, .done st _) => s1.setResult c.id st
  | (s1, .waits) => s1
  | (s1, .illegal) => s1.setResult c.id (stRefused 5 1)

/-- WAIT (R245). -/
def execWaitCmd (cmd : CmdRef) (s : State) : Host.Outcome State Fault Refusal :=
  .next (s.withCmd cmd (fun c => c.op = 0x41) State.waitHand)

/-- The hand-off of an EVENT (R282, R295). -/
def State.eventHand (s : State) (c : Cmd) : State :=
  (s.raisePart c.p { kind := 0x02, src := c.p, detail := c.q, p0 := c.dword 1 }).handDone c.id stOk

/-- EVENT (R282). -/
def execEventCmd (cmd : CmdRef) (s : State) : Host.Outcome State Fault Refusal :=
  .next (s.withCmd cmd (fun c => c.op = 0x42) State.eventHand)

/-- The hand-off of a MARK (R244). -/
def State.markHand (s : State) (c : Cmd) : State :=
  (s.wr .HB_Q_MARK_VALUE (c.dword 1) c.p c.q).handDone c.id stOk

/-- MARK (R244). -/
def execMarkCmd (cmd : CmdRef) (s : State) : Host.Outcome State Fault Refusal :=
  .next (s.withCmd cmd (fun c => c.op = 0x43) State.markHand)

/-! ### Copies (R246, R339) -/

/-- The copy engine as a requester (kind 6). -/
def copyAsker (p : Nat) : Asker := ⟨.copy, 6, p⟩

/-- A copy whose bytes are all moved completes when its writes have reached their points of coherence (R424). -/
def State.copyCheck (s : State) (id total : Nat) : State :=
  match s.cmd id with
  | some c =>
    if c.phase = .handed && c.progress = total && !s.ring.reqs.any (fun r => r.owner = .cmd id) then s.setResult id stOk
    else s
  | none => s

/-- Move chunks of a COPY or FILL from `pos` on: each chunk's footprint is translated whole, then it is read and written;
`src` is none for a FILL. -/
def State.copyFrom (s : State) (c : Cmd) (src : Option Nat) (dst count : Nat) : Nat → Nat → State
  | 0, _ => s
  | fuel + 1, pos =>
    let s0 := s.modCmd c.id (fun c => { c with progress := pos })
    if count ≤ pos then s0.copyCheck c.id count
    else
      let d := dst + pos
      let n0 := min (count - pos) (4096 - d % 4096)
      let n := match src with
        | some a => min n0 (4096 - (a + pos) % 4096)
        | none => n0
      let ranges := sortRanges ((match src with
        | some a => [(a + pos, n, rightR)]
        | none => []) ++ [(d, n, rightW)])
      match s0.footprints (copyAsker c.p) (.cmd c.id) c.p ranges with
      | (s1, .error f) => s1.failTile c.p 0 0 f
      | (s1, .ok _) =>
        let got := match src with
          | some a => s1.vRead (copyAsker c.p) (.cmd c.id) c.p (a + pos) n
          | none => (s1, .ok ((List.range n).map (fun i => BitVec.ofNat 8 (c.word 5 / 2 ^ (8 * (i % 4))))))
        match got with
        | (s2, .error f) => s2.failTile c.p 0 0 f
        | (s2, .ok bs) =>
          match s2.vWrite (copyAsker c.p) (.cmd c.id) c.p d bs with
          | (s3, .error f) => s3.failTile c.p 0 0 f
          | (s3, .ok _) => s3.copyFrom c src dst count fuel (pos + n)

/-- The hand-off of a COPY, or its continuation. -/
def State.copyHand (s : State) (c : Cmd) : State :=
  let src := c.dword 1
  let dst := c.dword 3
  let n := c.dword 5
  if n = 0 then s.handDone c.id stOk
  else if src < dst + n && dst < src + n then s.handDone c.id (stCmd 0x27 0)
  else (s.hand c.id).copyFrom c (some src) dst n (2 * (n / 4096) + 4) c.progress

/-- COPY (R246). -/
def execCopy (cmd : CmdRef) (s : State) : Host.Outcome State Fault Refusal :=
  .next (s.withCmd cmd (fun c => c.op = 0x30) State.copyHand)

/-- The hand-off of a FILL, or its continuation. -/
def State.fillHand (s : State) (c : Cmd) : State :=
  let n := c.dword 3
  if n = 0 then s.handDone c.id stOk
  else (s.hand c.id).copyFrom c none (c.dword 1) n (n / 4096 + 3) c.progress

/-- FILL (R246). -/
def execFill (cmd : CmdRef) (s : State) : Host.Outcome State Fault Refusal :=
  .next (s.withCmd cmd (fun c => c.op = 0x31) State.fillHand)

/-! ### Completion -/

/-- COMMAND_COMPLETE (R247): the status that the command's engine has reached is reported. -/
def execCommandComplete (id : Nat) (s : State) : Host.Outcome State Fault Refusal :=
  .next (if s.live then
    match s.cmd id with
    | some c => (match c.phase, c.result with
      | .handed, some st => (s.finishCmd id st true).updateWaiting
      | _, _ => s)
    | none => s
  else s)

end Sys2Proof.Machine
end

