-- ==== Sys2Proof/Machine/Funcs.lean ====
section
/-!
DEFINITION. Functions stopped and started (R15, R36, R37): GLB_FUNC_CTRL's requests, when a function has stopped, and the
ring function, which stops and starts the spanning partitions of every member.
-/

namespace Sys2Proof.Machine

/-- The function on this chip that KIND and INDEX name (R15, R37). -/
def funcIndex (kind index : Nat) : Option Nat :=
  if kind = 0 then (if index < 32 then some index else none)
  else if kind = 1 then (if index < 2 then some (32 + index) else none)
  else if kind = 2 then (if index < 4 then some (34 + index) else none)
  else if kind = 3 then (if index = 0 then some 38 else none)
  else none

/-- This chip is the ring's master by the RING record (R18, R429). -/
def State.isMaster (s : State) : Bool :=
  match ringRec s.furn.recs with
  | some r => r.master = s.pos
  | none => false

/-- The other live members. -/
def State.otherMembers (s : State) : List Nat :=
  (List.range 16).filter (fun m => m ≠ s.pos && bitAt (s.rd .FLT_MEMBERS_LIVE) m)

/-- The spanning partitions with a part on this chip. -/
def State.spanParts (s : State) : List Nat := s.partsHere.filter s.spanning

/-! ### Stops -/

/-- The vats that hold blocks of a partition. -/
def State.vatsOf (s : State) (p : Nat) : List Nat := s.scopeVats (.reclaim p)

/-- Begin the stop of a function that runs (R36): STOPPING; a PREEMPT asks the partition's vats to yield. -/
def State.beginStop (s : State) (k : Nat) (drain : Bool) : State :=
  if s.funcState k ≠ fnRunning then s
  else
    let (id, s1) := (s.setFunc k fnStopping).takeId
    let s2 : State := { s1 with hb := { s1.hb with stops := s1.hb.stops ++ [⟨id, .func k drain, []⟩] } }
    if k < 32 && !drain then (s2.vatsOf k).foldl (fun (s : State) n => s.preempt n k) s2 else s2

/-- The commands of a partition that its engines hold, the registered WAITs apart (R36). -/
def State.engineCmds (s : State) (p : Nat) : List Cmd :=
  s.allCmds.filter (fun c => c.p = p && c.phase = .handed && c.op ≠ 0x41 && c.op ≠ 0x03)

/-- A tile in flight whose fragment block has stopped at SAVEPT and is saved (R201), or that waits for its couch. -/
def State.stopped (s : State) (t : TileRun) : Bool :=
  match t.job with
  | some j => s.sched.saved.any (fun x => x.block.launch = j.launch)
  | none => false

/-- The engines of a partition have reached their tile boundaries and saved (R36): no block is resident, no tile of a render
pass is in flight, and no picture or baler job has been started. -/
def State.atBoundary (s : State) (p : Nat) : Bool :=
  s.vatsOf p = [] && !s.geo.passes.any (fun x => x.p = p && x.inflight.any (fun t => !s.stopped t)) &&
    !(s.engineCmds p).any (fun c => (engineOf c.op = 2 || engineOf c.op = 3) && c.progress ≠ 0 && c.result.isNone)

/-- A DRAIN has ended (R36): every command that has passed intake has been handed off, unless a hold of R244 keeps it, and
has run to completion. -/
def State.drained (s : State) (p : Nat) : Bool :=
  s.engineCmds p = [] && !s.allCmds.any (fun c => c.p = p && s.eligible c) && s.vatsOf p = []

/-- The function has stopped: what its STOPPED waits for (R36). -/
def State.quiet (s : State) (k : Nat) (drain : Bool) : Bool :=
  if k < 32 then (if drain then s.drained k else s.atBoundary k)
  else if k < 34 then true
  else if k < 38 then
    !(storeGet [] s.codec.engines (k - 34)).any (fun id => match s.cmd id with
      | some c => c.progress ≠ 0 && c.result.isNone
      | none => false)
  else s.spanParts.all (fun p => s.funcState p = fnStopped) &&
    !s.ring.reqs.any (fun r => leAt r.msg 0 1 = 7 && leAt r.msg 8 1 = 0x09 && leAt r.msg 12 1 ≠ 4)

/-- The body of FUNC after SUB: mode and function identifier (R423). -/
def funcBody (mode ident : Nat) : List Byte := [0x09, 0, 0, 0] ++ toLe 2 mode ++ toLe 2 ident

/-- Send a FUNC of the ring function to every other live member (R36). -/
def State.tellRing (s : State) (mode : Nat) : State :=
  s.otherMembers.foldl (fun s m => s.feltReq m 7 0 (funcBody mode (funcIdent m 38)) .ctl) s

/-- The status of a request to a function (R37). -/
def State.funcStatus (s : State) (op kind index : Nat) : Nat :=
  match funcIndex kind index with
  | none => stBadValue
  | some k =>
    if k = 38 && !s.isMaster then stFurnish 0x15 0
    else if op = 3 && s.funcState k = fnStaged then
      stBusy 0x80 0 (0x10 + s.rd .GLB_FURNISH_STATUS_MASTER)
    else stOk

/-- A request at GLB_FUNC_CTRL by the PF: the fields, then what it does. -/
def State.funcAsk (s : State) (op kind index : Nat) (act : State → State) : State :=
  if s.pfWrites then
    act (((s.wr .GLB_FUNC_CTRL_OP op).wr .GLB_FUNC_CTRL_KIND kind).wr .GLB_FUNC_CTRL_INDEX index)
  else s

/-- A STOP request (R36, R37): a function that is not RUNNING stays as it is. -/
def State.stopReq (s : State) (kind index : Nat) (drain : Bool) : State :=
  let st := s.funcStatus 1 kind index
  let s1 := s.wr .GLB_FUNC_RESULT_STATUS st
  match funcIndex kind index with
  | some k =>
    if st ≠ stOk || s.funcState k ≠ fnRunning then s1
    else
      let s2 := s1.beginStop k drain
      if k = 38 then (s2.spanParts.foldl (fun (s : State) p => s.beginStop p drain) s2).tellRing (if drain then 2 else 1)
      else s2
  | none => s1

/-- STOP_PREEMPT (R36). -/
def execStopPreempt (kind : BitVec 4) (index : BitVec 8) (s : State) : Host.Outcome State Fault Refusal :=
  .next (s.funcAsk 1 kind.toNat index.toNat (fun s => s.stopReq kind.toNat index.toNat false))

/-- STOP_DRAIN (R36). -/
def execStopDrain (kind : BitVec 4) (index : BitVec 8) (s : State) : Host.Outcome State Fault Refusal :=
  .next (s.funcAsk 2 kind.toNat index.toNat (fun s => s.stopReq kind.toNat index.toNat true))

/-! ### Starts -/

/-- A head's PCLK and timing are ones that a START takes (R209 and the calender's registers). -/
def State.headOk (s : State) (h : Nat) : Bool :=
  let khz := s.rd .CAL_HEAD_CTRL_KHZ h
  let line (act start stop total : Nat) : Bool :=
    1 ≤ act && decide (act ≤ 4096) && decide (act < start) && decide (start < stop) && decide (stop < total)
  25000 ≤ khz && decide (khz ≤ 600000) &&
    line (s.rd .CAL_TIMING_HACTIVE h) (s.rd .CAL_TIMING_HSYNC_START h) (s.rd .CAL_TIMING_HSYNC_END h)
      (s.rd .CAL_TIMING_HTOTAL h) &&
    line (s.rd .CAL_TIMING_VACTIVE h) (s.rd .CAL_TIMING_VSYNC_START h) (s.rd .CAL_TIMING_VSYNC_END h)
      (s.rd .CAL_TIMING_VTOTAL h)

/-- A stopped function starts (R37). A head's START wakes the calender (R446) and clears FAIL; a PCLK or timing out of
range sets FAIL, and the head stays STOPPED. -/
def State.beginStart (s : State) (k : Nat) : State :=
  if s.funcState k = fnStopped then
    if k = 32 || k = 33 then
      let s1 := s.wakeNow domCal
      let ok := s1.headOk (k - 32)
      let s2 := s1.wr .CAL_HEAD_CTRL_FAIL (b2n (!ok)) (k - 32)
      if ok then s2.setFunc k fnStarting else s2
    else s.setFunc k fnStarting
  else s

/-- A START request (R37). -/
def State.startReq (s : State) (kind index : Nat) : State :=
  let st := s.funcStatus 3 kind index
  let s1 := s.wr .GLB_FUNC_RESULT_STATUS st
  match funcIndex kind index with
  | some k =>
    if st ≠ stOk || s.funcState k ≠ fnStopped then s1
    else
      let s2 := s1.beginStart k
      if k = 38 then (s2.spanParts.foldl State.beginStart s2).tellRing 3 else s2
  | none => s1

/-- START (R37). -/
def execStart (kind : BitVec 4) (index : BitVec 8) (s : State) : Host.Outcome State Fault Refusal :=
  .next (s.funcAsk 3 kind.toNat index.toNat (fun s => s.startReq kind.toNat index.toNat))

/-! ### Answers to the ring's master -/

/-- A request of another chip has been carried out here (mode 5: an invalidation, R349). -/
def State.funcReqDone (s : State) (r : FuncReq) : Bool :=
  if r.mode = 4 then !s.hb.stops.any (fun x => x.cause = .fault r.p)
  else if r.mode = 5 then
    !s.xlt.inval.any (fun x => x.1 = r.p) && !s.xlt.pendInval.any (fun x => x.1 = r.p)
  else if r.mode = 3 then s.spanParts.all (fun p => s.funcState p ≠ fnStarting)
  else s.spanParts.all (fun p => s.funcState p ≠ fnStopping)

/-- Answer the FUNC requests that have been carried out. -/
def State.answerFuncs (s : State) : State :=
  (s.ring.funcs.filter s.funcReqDone).foldl (fun (s : State) r =>
    ({ s with ring := { s.ring with funcs := s.ring.funcs.filter (fun x => x ≠ r) } }).feltCpl 7 r.src r.tag r.p stOk [])
    s

/-- The stop of a function, if one runs. -/
def State.funcStop (s : State) (k : Nat) : Option (Stop × Bool) :=
  s.hb.stops.findSome? (fun x => match x.cause with
    | .func j d => if j = k then some (x, d) else none
    | _ => none)

/-- FUNCTION_STOPPED (R36): the function's last engine has acknowledged. -/
def State.funcStopped (s : State) (k : Nat) : State :=
  match s.funcStop k with
  | none => s
  | some (x, drain) =>
    if s.quiet k drain then ((s.dropStops (fun y => y.id = x.id)).finishStop x.cause).answerFuncs else s

/-- FUNCTION_STOPPED (R36). -/
def execFunctionStopped (k : Fin 39) (s : State) : Host.Outcome State Fault Refusal :=
  .next (if s.live then s.funcStopped k else s)

/-- The body of ROOT after SUB: partition and XLT_ROOT value (R423). -/
def State.rootBody (s : State) (p : Nat) : List Byte :=
  [0x0A, 0, 0, 0] ++ toLe 4 p ++ toLe 8 (s.addrOf .XLT_ROOT_ADDR p + s.rd .XLT_ROOT_EN p)

/-- The home chip sends a spanning partition's root to each member (R335). -/
def State.tellRoot (s : State) (p : Nat) : State :=
  if s.spanning p && s.homed p then
    ((s.spanChips p).filter (fun m => m ≠ s.pos)).foldl (fun s m => s.feltReq m 7 p (s.rootBody p) .ctl) s
  else s

/-- A starting function runs (R37): a partition or decode engine when its engines accept work, the ring when every live
member has started its spanning partitions. A head leaves STARTING at the end of its training. -/
def State.funcStarted (s : State) (k : Nat) : State :=
  if s.funcState k ≠ fnStarting || k = 32 || k = 33 then s
  else if k = 38 then
    if s.spanParts.all (fun p => s.funcState p = fnRunning) &&
        !s.ring.reqs.any (fun r => leAt r.msg 0 1 = 7 && leAt r.msg 8 1 = 0x09 && leAt r.msg 12 1 = 3)
    then s.setFunc k fnRunning else s
  else ((((s.setFunc k fnRunning).tellRoot k).poolStep).geoStep k).answerFuncs

/-- FUNCTION_STARTED (R37). -/
def execFunctionStarted (k : Fin 39) (s : State) : Host.Outcome State Fault Refusal :=
  .next (if s.live then s.funcStarted k else s)

end Sys2Proof.Machine
end

