-- ==== Sys2Proof/Machine/Delta.lean ====
section
/-!
DEFINITION. Full loads through GLB_LOAD_CTRL (R33) and deltas (R38 to R40): the checks, the two phases at the master, and what
a member does at PREPARE and COMMIT.
-/

namespace Sys2Proof.Machine

/-! ### The source of a load (R33) -/

/-- How many bytes from a local address can be read: none of them beyond the addressable DRAM or inside a carve-out, up to
the most a bit-stream has. -/
def State.loadAvail (s : State) (a : Nat) : Nat :=
  let lim := (List.range 16).foldl (fun m r =>
    let g := s.region r
    if g.carve = 0 then m
    else if a < g.base + g.size then min m (g.base + g.size)
    else if a < g.base + g.size + g.carve then min m a
    else m) s.dramSize
  min 262144 (lim - a)

/-- The bytes of a bit-stream at an address; an unreadable header has no bytes to check. -/
def State.loadBytes (s : State) (a : Nat) : List Byte := s.physBytes a (s.loadAvail a)

/-- The bit-stream that GLB_LOAD_ADDR names, or why it cannot be read (R33). -/
def State.loadSource (s : State) : Except LoadErr (List Byte) :=
  let a := s.addrOf .GLB_LOAD_ADDR_ADDR
  if a / 2 ^ 44 % 16 ≠ 0 then .error (furnErr 7 0xFFFF)
  else if s.loadAvail a < 64 then .error (furnErr 3 0)
  else .ok (s.loadBytes a)

/-- What follows the installation of a furnish on a running chip: the strap check (R428), and the FELT_ALIVE pins (R409) of a
chip with other members, whose ports begin to detect (R411). -/
def State.enablePorts (s : State) : State :=
  let s1 := s.strapCheck
  if s1.rd .FLT_STATUS_STRAP_ERR = 0 && s1.rd .FLT_CTRL_WITHDRAW = 0 &&
      (match ringRec s1.furn.recs with | some r => decide (1 < r.members) | none => false) then
    [0, 1].foldl (fun (s : State) k => (s.wr .FLT_PORT_ALIVE 1 k).wr .FLT_PORT_STATE 1 k) s1
  else s1

/-- FULL_LOAD (R33). -/
def State.fullLoad (s : State) : State :=
  if s.rd .GLB_LOAD_CTRL_PENDING = 1 then s
  else if s.rd .GLB_FURNISH_STATUS_LOCKED = 1 then s.loadFailed (furnErr 0x16 0)
  else match s.loadSource with
    | .error e => s.loadFailed e
    | .ok bs => match s.readFurnish bs bs.length s.settingsCore.2 with
      | .error e => s.loadFailed e
      | .ok recs => (s.installFurnish (bs.take (furnLength bs)) recs 2).enablePorts

/-- FULL_LOAD (R33). -/
def execFullLoad (s : State) : Host.Outcome State Fault Refusal := 
  .next (if s.pfWrites then (s.wr .GLB_LOAD_CTRL_KIND 0).fullLoad else s)

/-! ### The records of a delta -/

/-- One record of a delta applied to the running records (R16): a header-only record deletes, any other replaces or adds. -/
def mergeRec (recs : List FRec) (r : FRec) : List FRec :=
  let same (x : FRec) : Bool := x.type = r.type && x.key = r.key
  if r.body = [] then recs.filter (fun x => !same x)
  else if recs.any same then recs.map (fun x => if same x then r else x)
  else recs ++ [r]

/-- The records in force after a delta. -/
def mergeRecs (recs : List FRec) (delta : List (Nat × FRec)) : List FRec := delta.foldl (fun m e => mergeRec m e.2) recs

/-- The merged records with their index in the delta, or 0xFFFF. -/
def mergedIx (delta : List (Nat × FRec)) (recs : List FRec) : List (Nat × FRec) :=
  recs.map (fun r => match delta.find? (fun e => e.2 = r) with
    | some e => (e.1, r)
    | none => (0xFFFF, r))

/-- The known records of a delta with their indices, or why the walk fails. -/
def State.deltaRecs (s : State) (bs : List Byte) : Except LoadErr (List (Nat × FRec)) :=
  match walkRecs s.pins.gradeB true s.pos bs 32768 64 [] with
  | .error e => .error e
  | .ok l => .ok (l.filter (fun e => e.2.type < 0x8000))

/-- Partition p is listed: a function identifier of kind 0 with its index (R15). -/
def listedPart (fs : List Nat) (p : Nat) : Bool := fs.any (fun f => f / 4096 = 0 && f % 256 = p)

/-- The partition with a vat beneath its root. -/
def vatOwner (recs : List FRec) (v : Nat × Nat) : Option Nat :=
  ((partRecs recs).find? (fun p => (vatsUnder recs p.root).contains v)).map (·.part)

/-- A partition's vats, split, pool class or heap differ (R38). -/
def partChanged (old new : List FRec) (p : Nat) : Bool :=
  let get (l : List FRec) : Option (List (Nat × Nat) × List Nat × Nat × Nat) :=
    ((partRecs l).find? (fun r => r.part = p)).map (fun r => (vatsUnder l r.root, r.split, r.poolClass, r.heap))
  get old ≠ get new

/-- The function on its chip that a claiming feature belongs to (R15, R42): head 1 for CAL_SCALE1, decode engine 3 for
PLP_DS3; the others belong to none (log entry 40). -/
def featureFunc (f : Nat) : Option (Nat × Nat) :=
  if f = 0x0A then some (1, 1) else if f = 0x0B then some (2, 3) else none

/-- A record of a delta falls within its scope (R39). -/
def inDeltaScope (fs : List Nat) (old new : List FRec) (r : FRec) : Bool :=
  let was := old.find? (fun x => x.type = r.type && x.key = r.key)
  let listed (kind chip idx : Nat) : Bool := fs.contains (kind * 4096 + chip * 256 + idx)
  if r.type = 3 then listedPart fs (r.key % 256)
  else if r.type = 5 then
    let a := r.key % 256
    let c := r.key / 256 % 16
    if a < 32 then listed 0 c a else if a < 36 then listed 2 c (a - 0x20) else false
  else if r.type = 2 then
    let vs := (vatsUnder old r.key ++ vatsUnder new r.key).eraseDups
    vs.all (fun v =>
      (match vatOwner old v with | some p => listedPart fs p | none => true) &&
        (match vatOwner new v with | some p => listedPart fs p | none => true))
  else if r.type = 7 then
    let c := r.key / 65536 % 16
    let res := r.key / 256 % 256
    let claimants := ([old, new].flatMap (fun l => (recsOf l 7).filter (fun x =>
      leAt x.body 0 1 = res && leAt x.body 2 1 = c))).map (fun x => leAt x.body 1 1)
    claimants.all (fun f => match featureFunc f with
      | some (k, i) => listed k c i
      | none => true)
  else if r.type = 1 then fs.any (fun f => f / 4096 = 3)
  else if r.type = 6 || r.type = 8 then false
  else was = some r

/-- The listed functions of this chip: their index (R15). -/
def State.listedHere (s : State) (fs : List Nat) : List Nat :=
  fs.filterMap (fun f => if f / 256 % 16 = s.pos then funcIndex (f / 4096) (f % 256) else none)

/-- The checks of R38 and R39 that come after the walk. -/
def State.deltaErr (s : State) (bs : List Byte) (delta : List (Nat × FRec)) : Option LoadErr :=
  let fs := furnFunctions bs
  let here := s.listedHere fs
  let new := mergeRecs s.furn.recs delta
  let run := here.find? (fun k => s.funcState k ≠ fnStopped && s.funcState k ≠ fnAbsent)
  let undrained := here.find? (fun k => k < 32 && s.funcState k = fnStopped && s.rd .GLB_FUNC_STATE_DRAINED k = 0 &&
    partChanged s.furn.recs new k)
  firstErr [
    run.map (fun k => furnErr 0x0F (funcIdent s.pos k)),
    undrained.map (fun k => furnErr 0x10 (funcIdent s.pos k)),
    if 32 ≤ s.furn.deltas.length then some (furnErr 0x14 0) else none,
    (delta.find? (fun e => !inDeltaScope fs s.furn.recs new e.2)).map (fun e => furnErr 0x11 e.1 e.1),
    crossErr s.pos s.dramSize (mergedIx delta new)]

/-- Every check of a delta (R38, R39, R519): its records, or why it fails. -/
def State.checkDelta (s : State) (bs : List Byte) (avail : Nat) : Except LoadErr (List (Nat × FRec)) :=
  match furnHeaderErr bs avail true with
  | some e => .error e
  | none =>
    let bs := bs.take (furnLength bs)
    match furnMarkErr s.mgc.fuses bs with
    | some e => .error e
    | none =>
      if furnBase bs ≠ s.rd .GLB_FURNISH_GEN_GENERATION || decide (furnGen bs ≤ furnBase bs) then .error (furnErr 0x12 0)
      else match s.deltaRecs bs with
        | .error e => .error e
        | .ok delta => match s.deltaErr bs delta with
          | some e => .error e
          | none => .ok delta

/-! ### Staging, applying, taking back -/

/-- Set the listed functions of this chip. -/
def State.setListed (s : State) (fs : List Nat) (v : Nat) : State := (s.listedHere fs).foldl (fun s k => s.setFunc k v) s

/-- A delta is staged: its listed functions are STAGED (R40). -/
def State.stageDelta (s : State) (bs : List Byte) : State :=
  ({ s with furn := { s.furn with staged := some bs } }).setListed (furnFunctions bs) fnStaged

/-- The listed functions return to STOPPED (R40); a partition that has no part here is ABSENT. -/
def State.unstage (s : State) (bs : List Byte) : State :=
  (s.listedHere (furnFunctions bs)).foldl (fun (s : State) k =>
    s.setFunc k (if k < 32 && !s.partsHere.contains k then fnAbsent else fnStopped)) s

/-- The power state of vats that a delta assigns or no longer assigns (R24, R448). -/
def State.moveVats (s : State) (before : List Nat) : State :=
  (List.range 64).foldl (fun (s : State) n =>
    match before.contains n, s.assignedVats.contains n with
    | false, true => s.wr .PWR_DOM_STATE_STATE 0 n
    | true, false => s.wr .PWR_DOM_STATE_STATE 3 n
    | _, _ => s) s

/-- Put a set of records in force after a delta: claims of the furnish, budgets that the delta changes, vats. -/
def State.putRecs (s : State) (recs : List FRec) (changed : List FRec) : State :=
  let before := s.assignedVats
  let own := s.furn.claims.filter (fun e => e.2.who ≠ 0xFE)
  let s1 : State := { s with furn := { s.furn with
    recs := recs
    claims := own.foldl (fun m e => storePut e.1 e.2 m) (furnClaims recs s.pos) } }
  let s2 := (changed.filter (fun r => r.type = 5 && r.key / 256 = s.pos)).foldl (fun (s : State) r =>
    match recs.find? (fun x => x.type = 5 && x.key = r.key) with
    | some x => s.setBudget x
    | none => s.setBudget { r with body := toLe 1 r.key ++ List.replicate 7 0 ++ List.replicate 16 0xFF }) s1
  (s2.moveVats before).wr .GLB_FURNISH_STATUS_RECORDS recs.length

/-- Apply the staged delta (R40): all records at once, its GENERATION, and the listed functions back to STOPPED. -/
def State.applyDelta (s : State) (bs : List Byte) : State :=
  match s.deltaRecs bs with
  | .error _ => s
  | .ok delta =>
    let s1 := s.putRecs (mergeRecs s.furn.recs delta) (delta.map (·.2))
    let s2 : State := { s1 with furn := { s1.furn with deltas := s1.furn.deltas ++ [bs], staged := none } }
    let s3 := (s2.wr .GLB_FURNISH_GEN_GENERATION (furnGen bs)).count .GLB_FURNISH_STATUS_DELTAS
    (s3.unstage bs).poolStep

/-- The records of the base furnish with the first deltas applied. -/
def State.rebuiltRecs (s : State) (deltas : List (List Byte)) : List FRec :=
  let base := match walkRecs s.pins.gradeB false s.pos s.furn.base 32768 64 [] with
    | .ok l => (l.filter (fun e => e.2.type < 0x8000)).map (·.2)
    | .error _ => []
  deltas.foldl (fun m d => match s.deltaRecs d with
    | .ok l => mergeRecs m l
    | .error _ => m) base

/-- A delta that failed in its second phase is taken back where it had been applied (R40). -/
def State.revertDelta (s : State) : State :=
  match s.furn.deltas.getLast? with
  | none => s
  | some bs =>
    let left := s.furn.deltas.dropLast
    let changed := match s.deltaRecs bs with
      | .ok l => l.map (·.2)
      | .error _ => []
    let s1 := s.putRecs (s.rebuiltRecs left) changed
    let s2 : State := { s1 with furn := { s1.furn with deltas := left } }
    (s2.wr .GLB_FURNISH_GEN_GENERATION (furnBase bs)).wr .GLB_FURNISH_STATUS_DELTAS left.length

/-! ### The master's phases (R40) -/

/-- A bit-stream in pieces of at most 192 bytes: offset and bytes. -/
def piecesOf : Nat → Nat → List Byte → List (Nat × List Byte)
  | 0, _, _ => []
  | fuel + 1, off, bs => if bs.isEmpty then [] else (off, bs.take 192) :: piecesOf fuel (off + 192) (bs.drop 192)

/-- The body of PREPARE or DELTA_REPLAY after SUB: offset, total, data. -/
def pieceBody (sub total : Nat) (x : Nat × List Byte) : List Byte :=
  [BitVec.ofNat 8 sub, 0, 0, 0] ++ toLe 4 x.1 ++ toLe 4 total ++ x.2

/-- Send a bit-stream in pieces to a member. -/
def State.sendPieces (s : State) (m sub : Nat) (bs : List Byte) : State :=
  (piecesOf (bs.length / 192 + 1) 0 bs).foldl (fun s x => s.feltReq m 7 0 (pieceBody sub bs.length x) .ctl) s

/-- The body of COMMIT after SUB: the outcome, OK or the status the delta fails with, and its GENERATION. -/
def commitBody (st gen : Nat) : List Byte := [7, 0, 0, 0] ++ toLe 4 st ++ toLe 8 gen

/-- Send COMMIT to every other live member. -/
def State.sendCommit (s : State) (st gen : Nat) : State :=
  s.otherMembers.foldl (fun s m => s.feltReq m 7 0 (commitBody st gen) .ctl) s

/-- A delta ends at the master with a status. -/
def State.endDelta (s : State) (st : Nat) : State :=
  let s1 : State := { s with furn := { s.furn with delta := none } }
  if st = stOk then
    ((s1.wr .GLB_LOAD_CTRL_PENDING 0).wr .GLB_LOAD_RESULT_STATUS 0).wr .GLB_LOAD_AUX_RECORD 0xFFFF
      |>.wr .GLB_LOAD_AUX_RESOURCE 0
  else (s1.wr .GLB_LOAD_CTRL_PENDING 0).loadFailed ⟨st, 0, 0xFFFF⟩

/-- Every member has answered READY: COMMIT goes out and the master applies the delta (R40). -/
def State.commitDelta (s : State) (d : DeltaRun) : State :=
  let s1 := (s.sendCommit stOk (furnGen d.bytes)).applyDelta d.bytes
  if s.otherMembers = [] then s1.endDelta stOk
  else { s1 with furn := { s1.furn with delta := some { d with waiting := s.otherMembers, committed := true } } }

/-- The delta fails on every member (R40), naming the first failing position. -/
def State.failDelta (s : State) (d : DeltaRun) (who : Nat) : State :=
  let st := stFurnish 0x13 who
  let s1 := s.sendCommit st (furnGen d.bytes)
  let s2 := if d.committed then s1.revertDelta
    else ({ s1 with furn := { s1.furn with staged := none } }).unstage d.bytes
  s2.endDelta st

/-- A member has answered the phase that runs (R40). -/
def State.deltaAnswer (s : State) (m st : Nat) : State :=
  match s.furn.delta with
  | none => s
  | some d =>
    if !d.waiting.contains m then s
    else if !statusOk st then s.failDelta d m
    else
      let d1 : DeltaRun := { d with waiting := d.waiting.filter (fun x => x ≠ m) }
      let s1 : State := { s with furn := { s.furn with delta := some d1 } }
      if d1.waiting ≠ [] then s1
      else if d.committed then s1.endDelta stOk
      else s1.commitDelta d1

/-- DELTA_LOAD (R38, R40): the checks at the master, then PREPARE to every member. -/
def State.deltaLoad (s : State) : State :=
  if s.rd .GLB_LOAD_CTRL_PENDING = 1 then s
  else if !s.isMaster then s.loadFailed (furnErr 0x15 0)
  else match s.loadSource with
    | .error e => s.loadFailed e
    | .ok bs => match s.checkDelta bs bs.length with
      | .error e => s.loadFailed e
      | .ok _ =>
        let bs := bs.take (furnLength bs)
        let s1 := (s.stageDelta bs).wr .GLB_LOAD_CTRL_PENDING 1
        let d : DeltaRun := ⟨bs, s1.otherMembers, false⟩
        let s2 : State := { s1 with furn := { s1.furn with delta := some d } }
        if d.waiting = [] then s2.commitDelta d
        else d.waiting.foldl (fun s m => s.sendPieces m 6 bs) s2

/-- DELTA_LOAD (R38). -/
def execDeltaLoad (s : State) : Host.Outcome State Fault Refusal := 
  .next (if s.pfWrites then (s.wr .GLB_LOAD_CTRL_KIND 1).deltaLoad else s)

/-- DELTA_TIMEOUT (R40): the first position that has not answered READY fails the delta. -/
def State.deltaTimeout (s : State) : State :=
  match s.furn.delta with
  | some d => if d.committed then s else s.failDelta d (d.waiting.headD s.pos)
  | none => s

/-- DELTA_TIMEOUT (R40). -/
def execDeltaTimeout (s : State) : Host.Outcome State Fault Refusal := .next (if s.live then s.deltaTimeout else s)

/-! ### At a member -/

/-- A piece of a bit-stream arrives in order; the last one answers the whole. -/
def State.rxPiece (s : State) (body : List Byte) : State × Option (List Byte) :=
  let off := leAt body 4 4
  let total := leAt body 8 4
  let have' := if off = 0 then [] else s.furn.rx
  let got := if have'.length = off then have' ++ (body.drop 12).take (total - off) else have'
  if got.length = total && have'.length = off then ({ s with furn := { s.furn with rx := [] } }, some got)
  else ({ s with furn := { s.furn with rx := got } }, none)

/-- PREPARE's last piece (R40): the member verifies and stages, or refuses. -/
def State.prepareDelta (s : State) (bs : List Byte) : State × Nat :=
  match s.checkDelta bs bs.length with
  | .error e => (s, e.status)
  | .ok _ => (s.stageDelta bs, stOk)

/-- COMMIT (R40): apply the staged delta, or drop or take back one that has failed. -/
def State.commitHere (s : State) (st gen : Nat) : State :=
  if st = stOk then
    match s.furn.staged with
    | some bs => if furnGen bs = gen then s.applyDelta bs else s
    | none => s
  else
    let s1 := match s.furn.staged with
      | some bs => ({ s with furn := { s.furn with staged := none } }).unstage bs
      | none =>
        if s.rd .GLB_FURNISH_GEN_GENERATION = gen && s.furn.deltas ≠ [] then s.revertDelta else s
    s1.loadFailed ⟨st, 0, 0xFFFF⟩

/-- DELTA_REPLAY's last piece (R35): a retained delta of the master is applied to a joining chip. -/
def State.replayDelta (s : State) (bs : List Byte) : State :=
  if furnBase bs = s.rd .GLB_FURNISH_GEN_GENERATION then s.applyDelta bs else s

end Sys2Proof.Machine
end

