-- ==== Sys2Proof/Machine/Wake.lean ====
section
/-!
DEFINITION. How work goes on, or ends, when an answer from outside the chip arrives (R229, R337, R369, R434): completions of
the felt ring and of host memory, and the ends of migration waits (R346).
-/

namespace Sys2Proof.Machine

/-- An owner still has requests outstanding outside the chip. -/
def State.outstanding (s : State) (f : Owner → Bool) : Bool :=
  s.ring.reqs.any (fun r => f r.owner) || s.pcie.reqs.any (fun r => f r.owner)

/-- The work of one quire slot, its stores included. -/
def Owner.ofQuire (v q : Nat) (o : Owner) : Bool := o = .quire v q || o = .store v q

/-- A quire whose requests have all been answered runs again (R341). -/
def State.wakeQuire (s : State) (v q : Nat) : State :=
  match s.quire v q with
  | some x =>
    (match x.wait with
    | .remote _ =>
      if s.outstanding (Owner.ofQuire v q) || s.xlt.waits.any (fun w => w.who = .quire v q) then s
      else s.setQuire v q { x with wait := .run }
    | .migration =>
      if s.xlt.waits.any (fun w => w.who = .quire v q) then s else s.setQuire v q { x with wait := .run }
    | _ => s)
  | none => s

/-- The bytes that a COPY or FILL moves. -/
def Cmd.total (c : Cmd) : Nat := if c.op = 0x30 then c.dword 5 else c.dword 3

/-- An owner whose request has been answered goes on; the commands that asked are sent again by their own events. -/
def State.wake (s : State) (o : Owner) : State :=
  match o with
  | .quire v q => s.wakeQuire v q
  | .store v q => (s.wakeQuire v q).columnEnds
  | .cmd id =>
    (match s.cmd id with
    | some c => if engineOf c.op = 4 then (s.copyCheck id c.total).columnEnds else s
    | none => s)
  | .beater _ => s.columnEnds
  | .geo p => s.columnEnds.geoStep p
  | _ => s

/-- The launch of a quire slot's block: its tag goes into a FAULT record (R317). -/
def State.quireTag (s : State) (v q : Nat) : Nat :=
  match s.quire v q with
  | some x => (match s.block v x.block with
    | some b => (match s.launch b.launch with
      | some l => l.tag
      | none => 0)
    | none => 0)
  | none => 0

/-- The address of the mark that a failed read leaves for an engine whose job it only spoils (R369, R383). -/
def failMark : Nat := 2 ^ 63

/-- Leave the mark of a failed read, with its status. -/
def State.markFail (s : State) (o : Owner) (st : Nat) : State :=
  { s with xlt := { s.xlt with fetched := s.xlt.fetched ++ [⟨o, failMark, toLe 4 st⟩] } }

/-- The FAULT source of a status that came back (R317): 2 for translation, 3 for memory and unreachable chips. -/
def faultSource (st : Nat) : Nat := if statusClass st = 0x10 || statusClass st = 0x03 then 2 else 3

/-- Drop an owner's remaining requests and fetched bytes. -/
def State.dropAsks (s : State) (f : Owner → Bool) : State :=
  { s with
    ring := { s.ring with reqs := s.ring.reqs.filter (fun r => !f r.owner) }
    pcie := { s.pcie with reqs := s.pcie.reqs.filter (fun r => !f r.owner) }
    xlt := { s.xlt with
      fetched := s.xlt.fetched.filter (fun x => !f x.owner)
      waits := s.xlt.waits.filter (fun w => !f w.who) } }

/-- A quire whose access has failed is held, and its partition is torn down (R369). -/
def State.failQuire (s : State) (v q p st va : Nat) : State :=
  let tag := s.quireTag v q
  let s1 := match s.quire v q with
    | some x => s.setQuire v q { x with wait := .held }
    | none => s
  (s1.dropAsks (Owner.ofQuire v q)).tearDown p (faultSource st) st (if v < 64 then v else 0) 0 va tag

/-- An owner's work ends with a status that an answer carried (R369, R434). -/
def State.failOwner (s : State) (o : Owner) (p st va : Nat) : State :=
  match o with
  | .quire v q => s.failQuire v q p st va
  | .store v q => s.failQuire v q p st va
  | .beater v => s.tearDown p (faultSource st) st v 0 va 0
  | .launch _ => s.tearDown p (faultSource st) st 0 0 va 0
  | .cmd id =>
    (match s.cmd id with
    | some c => if engineOf c.op = 2 || engineOf c.op = 3 then s.markFail o st
      else s.tearDown p (faultSource st) st 0 0 va 0
    | none => s)
  | .queue _ q => s.tearDown p (faultSource st) st 0 q va 0
  | .geo _ => s.tearDown p (faultSource st) st 0 0 va 0
  | .post _ => s
  | .ctl => s
  | .remote _ _ => s

/-- Keep bytes that a completion brought. -/
def State.keep (s : State) (o : Owner) (addr : Nat) (bs : List Byte) : State :=
  { s with xlt := { s.xlt with fetched := s.xlt.fetched ++ [⟨o, addr, bs⟩] } }

/-! ### Migration waits (R344, R346, R347) -/

/-- The state without a migration wait. -/
def State.dropMig (s : State) (id : Nat) : State :=
  { s with xlt := { s.xlt with waits := s.xlt.waits.filter (fun w => w.id ≠ id) } }

/-- A waiting tile goes on: it translates its whole footprint again when its work runs next (R346); another chip's tile is
told by the completion of its request. -/
def State.endMig (s : State) (w : MigWait) : State :=
  let s1 := s.dropMig w.id
  match w.who with
  | .remote src tag => s1.feltCpl 5 src tag w.p stOk []
  | o => s1.wake o

/-- A waiting tile ends with a failure: its partition is torn down here, or the chip that asked is told. -/
def State.failMig (s : State) (w : MigWait) (st : Nat) : State :=
  let s1 := s.dropMig w.id
  match w.who with
  | .remote src tag => s1.feltCpl 5 src tag w.p st []
  | o => s1.failOwner o w.p st w.va

end Sys2Proof.Machine
end

