-- ==== Sys2Proof/Machine/Pulper.lean ====
section
/-!
DEFINITION. The pulper (R380 to R394, R404, R405): stream slots, DECODE, and the end of a picture. What a stream decodes to is
the standards' matter, not the spec's: the facts about a picture and its samples are free values (log entry 12); what the
spec says is done with them is modelled.
-/

namespace Sys2Proof.Machine

/-! ### Descriptors (R384) -/

/-- FLAGS of a decode descriptor. -/
def dFlags (d : List Byte) : Nat := leAt d 57 1
/-- DS_EN. -/
def dDs (d : List Byte) : Bool := bitAt (dFlags d) 0
/-- P010. -/
def dP010 (d : List Byte) : Bool := bitAt (dFlags d) 1
/-- SLOT. -/
def dSlot (d : List Byte) : Nat := leAt d 56 1
/-- Bytes of a pixel of a downscaled row (R384). -/
def dsBytes (d : List Byte) : Nat := if leAt d 58 1 = 1 then 4 else 1

/-- The engine of a slot (R380). -/
def slotEngine (slot : Nat) : Nat := slot / 12

/-- The pulper as a requester (kind 4). -/
def plpAsker (e p : Nat) : Asker := ⟨.plp (Fin.ofNat 4 e), 4, p⟩

/-- The commands of a slot that are handed off and incomplete. -/
def State.slotCmds (s : State) (slot : Nat) : List Cmd :=
  s.codec.descs.filterMap (fun e => if e.2.length = 64 && dSlot e.2 = slot && (storeGet [] s.codec.engines (slotEngine slot)).contains e.1
    then s.cmd e.1 else none)

/-- The refusal of a DECODE, if any (R404). -/
def State.decodeRefusal (s : State) (p q : Nat) (d : List Byte) : Option Nat :=
  let slot := dSlot d
  let dim (off : Nat) : Bool := leAt d off 2 < 16 || decide (4096 < leAt d off 2) || leAt d off 2 % 2 = 1
  firstRefusal [
    (1, decide (47 < slot) || s.rd .PLP_SLOT_EN slot = 0 || s.rd .PLP_SLOT_OWNER slot ≠ p),
    (2, (s.slotCmds slot).any (fun c => c.q ≠ q)),
    (3, leAt d 16 8 % 4096 ≠ 0 || leAt d 24 8 % 4096 ≠ 0 || (dDs d && leAt d 32 8 % 256 ≠ 0) || leAt d 48 8 % 128 ≠ 0),
    (4, leAt d 8 4 = 0 || decide (16777216 < leAt d 8 4)),
    (5, dDs d && (dim 44 || dim 46 || leAt d 40 4 % 64 ≠ 0 || decide (leAt d 40 4 < leAt d 44 2 * dsBytes d) ||
      decide (2 < leAt d 58 1))),
    (6, 16 ≤ dFlags d || leAt d 59 5 ≠ 0)]

/-- What DS_EN on engine 3 meets without PLP_DS3 (R388, R44). -/
def State.ds3Status (s : State) (d : List Byte) : Option Nat :=
  if dDs d && slotEngine (dSlot d) = 3 && !s.featureOn 0x0B then
    match s.heldBy [0x20] (fun _ => true) with
    | some x => some (busyOf x)
    | none => some (stFurnish 0x0B (0x0B * 256))
  else none

/-- The engine may start a picture of the command: it runs, and so does the partition (R36, R394). -/
def State.pictureMayStart (s : State) (e : Nat) (c : Cmd) : Bool :=
  s.funcState (34 + e) = fnRunning && s.partRuns c.p && s.rd .HB_Q_CTRL_DESTROYING c.p c.q = 0

/-- An engine starts the picture at the front of its list (R381). -/
def State.startPicture (s : State) (e : Nat) : State :=
  match (storeGet [] s.codec.engines e).head? with
  | some id => match s.cmd id with
    | some c => if c.progress = 0 && s.pictureMayStart e c then s.modCmd id (fun c => { c with progress := 1 }) else s
    | none => s
  | none => s

/-- The hand-off of a DECODE (R381, R404). -/
def State.decodeHand (s : State) (c : Cmd) : State :=
  match s.vRead ⟨.unit, 4, c.p⟩ (.cmd c.id) c.p (c.dword 1) 64 with
  | (s1, .error f) => s1.cmdFail c f
  | (s0, .ok d) =>
    let s1 := if dSlot d < 48 then s0.wakeNow (domPlp (slotEngine (dSlot d))) else s0
    match s1.decodeRefusal c.p c.q d, s1.ds3Status d with
    | some r, _ => s1.handDone c.id (stRefused 2 r)
    | none, some st => s1.handDone c.id st
    | none, none =>
      let e := slotEngine (dSlot d)
      let s2 : State := { s1 with codec := { s1.codec with
        engines := storeSet [] s1.codec.engines e (storeGet [] s1.codec.engines e ++ [c.id])
        descs := storePut c.id d s1.codec.descs } }
      (s2.hand c.id).startPicture e

/-- DECODE (R383). -/
def execDecode (cmd : CmdRef) (s : State) : Host.Outcome State Fault Refusal :=
  .next (s.withCmd cmd (fun c => c.op = 0x20) State.decodeHand)

/-! ### Pictures (R385 to R387) -/

/-- A decoded picture: the use counter and input that its free values hang on, its depth and size. -/
structure Picture where
  n : Nat
  input : List Byte
  ten : Bool
  w : Nat
  h : Nat
deriving DecidableEq, Repr

/-- The value of a sample: plane 0 Y, 1 Cb, 2 Cr. -/
def Picture.sample (x : Picture) (plane col row : Nat) : Nat :=
  let key := plane * 2 ^ 40 + row * 2 ^ 16 + col
  let lo := (Config.pictureByte x.n x.input key).toNat
  if x.ten then lo + 256 * ((Config.pictureByte x.n x.input (2 ^ 44 + key)).toNat % 4) else lo

/-- A sample as the main output writes it (R385, R386). -/
def Picture.store (x : Picture) (p010 : Bool) (plane col row : Nat) : List Byte :=
  let v := x.sample plane col row
  if p010 then toLe 2 (if x.ten then v * 64 else v * 256) else toLe 1 v

/-- Blocks across and down (R385). -/
def Picture.blocks (x : Picture) : Nat × Nat := ((x.w + 63) / 64, (x.h + 63) / 64)

/-- The luma plane, block by block (R385). -/
def Picture.luma (x : Picture) (p010 : Bool) : List Byte :=
  let (bw, bh) := x.blocks
  (List.range (bw * bh)).flatMap (fun b => (List.range 4096).flatMap (fun i =>
    x.store p010 0 (64 * (b % bw) + i % 64) (64 * (b / bw) + i / 64)))

/-- The chroma plane: CbCr pairs (R385). -/
def Picture.chroma (x : Picture) (p010 : Bool) : List Byte :=
  let (bw, bh) := x.blocks
  (List.range (bw * bh)).flatMap (fun b => (List.range 1024).flatMap (fun i =>
    let col := 32 * (b % bw) + i % 32
    let row := 32 * (b / bw) + i / 32
    x.store p010 1 col row ++ x.store p010 2 col row))

/-- The motion area: internal bytes (log entry 6). -/
def Picture.motion (x : Picture) (p010 : Bool) : List Byte :=
  let (bw, bh) := x.blocks
  (List.range ((if p010 then 512 else 256) * bw * bh)).map (Config.internalByte x.n)

/-- The crop window of a plane: first column and row, width and height. -/
structure Crop where
  x0 : Nat
  y0 : Nat
  w : Nat
  h : Nat
deriving DecidableEq, Repr

/-- The position of output index `i` of `n` in `c` source samples, in 1/64 (R387). -/
def dsPos (i c n : Nat) : Nat :=
  let v := (2 * i + 1) * c * 64 / (2 * n)
  min (v - 32) (64 * (c - 1))

/-- One filtered sample of a plane (R387), as 8 bits. -/
def Picture.filtered (x : Picture) (plane : Nat) (c : Crop) (dw dh col row : Nat) : Nat :=
  let sx := dsPos col c.w dw
  let sy := dsPos row c.h dh
  let at' (i j : Nat) : Nat := x.sample plane (c.x0 + min (sx / 64 + i) (c.w - 1)) (c.y0 + min (sy / 64 + j) (c.h - 1))
  let f := sx % 64
  let g := sy % 64
  let v := (at' 0 0 * (64 - f) * (64 - g) + at' 1 0 * f * (64 - g) + at' 0 1 * (64 - f) * g + at' 1 1 * f * g + 2048) / 4096
  if x.ten then min ((v + 2) / 4) 255 else v

/-- Clamp to 0 to 255. -/
def clamp255 (v : Int) : Nat := (max 0 (min 255 v)).toNat

/-- R, G and B of a pixel (R387). -/
def yuvRgb (bt601 : Bool) (y cb cr : Nat) : List Nat :=
  let k : Int := 1192 * ((y : Int) - 16)
  let u : Int := (cb : Int) - 128
  let v : Int := (cr : Int) - 128
  let (c1, c2, c3, c4) : Int × Int × Int × Int := if bt601 then (1634, 401, 833, 2066) else (1836, 218, 546, 2163)
  [k + c1 * v, k - c2 * u - c3 * v, k + c4 * u].map (fun t => clamp255 ((t + 512) / 1024))

/-- A row of bytes padded to the pitch: bytes between the row and its pitch are not written. -/
structure DsRow where
  off : Nat
  bytes : List Byte
deriving DecidableEq, Repr

/-- The rows of the downscaled output (R387). -/
def Picture.dsRows (x : Picture) (d : List Byte) (c : Crop) : List DsRow :=
  let dw := leAt d 44 2
  let dh := leAt d 46 2
  let pitch := leAt d 40 4
  let cc : Crop := ⟨c.x0 / 2, c.y0 / 2, c.w / 2, c.h / 2⟩
  let y (i j : Nat) : Nat := x.filtered 0 c dw dh i j
  let b8 (n : Nat) : Byte := BitVec.ofNat 8 n
  if leAt d 58 1 = 0 then
    (List.range dh).map (fun j => ⟨j * pitch, (List.range dw).map (fun i => b8 (y i j))⟩) ++
    (List.range (dh / 2)).map (fun j => ⟨(dh + j) * pitch, (List.range (dw / 2)).flatMap (fun i =>
      [b8 (x.filtered 1 cc (dw / 2) (dh / 2) i j), b8 (x.filtered 2 cc (dw / 2) (dh / 2) i j)])⟩)
  else
    let rgb (i j : Nat) : List Nat := yuvRgb (bitAt (dFlags d) 3) (y i j) (x.filtered 1 cc dw dh i j) (x.filtered 2 cc dw dh i j)
    if leAt d 58 1 = 1 then
      (List.range dh).map (fun j => ⟨j * pitch, (List.range dw).flatMap (fun i => (rgb i j).map b8 ++ [255])⟩)
    else
      (List.range 3).flatMap (fun k => (List.range dh).map (fun j =>
        ⟨(k * dh + j) * pitch, (List.range dw).map (fun i => b8 ((rgb i j).getD k 0))⟩))

/-! ### The end of a picture (R389 to R393) -/

/-- The completion record's fields (R389). -/
structure PlpRec where
  status : Nat
  flags : Nat := 0
  tags : List Nat
  refs : Nat
  poc : Nat := 0
  conceal : Nat := 0
  w : Nat := 0
  h : Nat := 0
  crop : List Nat := [0, 0, 0, 0]
  units : Nat := 0
deriving DecidableEq, Repr

/-- Its 128 bytes. -/
def PlpRec.bytes (r : PlpRec) : List Byte :=
  toLe 4 r.status ++ toLe 2 r.flags ++ toLe 1 r.tags.length ++ toLe 1 r.refs ++ toLe 4 r.poc ++ toLe 4 r.conceal ++
    toLe 2 r.w ++ toLe 2 r.h ++ r.crop.flatMap (toLe 2) ++ toLe 4 r.units ++ List.replicate 28 0 ++
    slice (r.tags.flatMap (toLe 4)) 0 68

/-- A decoder slot. -/
def State.plpSlot (s : State) (slot : Nat) : PlpSlot := storeGet {} s.codec.slots slot

/-- The engine drops a command that has ended, and starts the next (R381). -/
def State.plpNext (s : State) (e id : Nat) : State :=
  ({ s with codec := { s.codec with
    engines := storeSet [] s.codec.engines e ((storeGet [] s.codec.engines e).filter (fun i => i ≠ id))
    descs := storeErase s.codec.descs id } }).startPicture e

/-- The work of a DECODE command as the owner of its accesses. -/
def Cmd.owner (c : Cmd) : Owner := .cmd c.id

/-- A failed access of a picture: it waits, or its partition is torn down and the command counts as not started. -/
def State.plpFault (s : State) (c : Cmd) : Fail → State
  | .stall => s
  | f => (s.modCmd c.id (fun c => { c with progress := 0 })).failTile c.p 0 0 f

/-- End a command: its record, then its status (R389). A record whose write has to wait leaves the command as it was. -/
def State.plpEnd (s0 s : State) (e : Nat) (c : Cmd) (d : List Byte) (r : PlpRec) (slot : PlpSlot) : State :=
  match s.vWrite (plpAsker e c.p) c.owner c.p (leAt d 48 8) r.bytes with
  | (s1, .error .stall) => { s0 with xlt := s1.xlt, ring := s1.ring, pcie := s1.pcie, regs := s1.regs }
  | (s1, .error f) => s1.plpFault c f
  | (s1, .ok _) =>
    let s2 : State := { s1 with codec := { s1.codec with slots := storeSet {} s1.codec.slots (dSlot d) slot } }
    let s3 := if bitAt r.flags 2 || bitAt r.flags 5 then s2.count .PLP_ENGINE_CONCEALED 1 e else s2
    (s3.setResult c.id r.status).plpNext e c.id

/-- The facts about what the input decodes to: one free value by index (log entry 12). -/
def plpFact (n : Nat) (slot : PlpSlot) (input : List Byte) (k : Nat) : Nat := Config.pictureInfo n (slot.params ++ input) k

/-- A picture's size within R382's limits. -/
def plpSize (x : Nat) : Nat := 16 + x % 4081

/-- The write of rows and planes. -/
def State.vWrites (s : State) (asker : Asker) (who : Owner) (p : Nat) : List (Nat × List Byte) → State × Except Fail Unit
  | [] => (s, .ok ())
  | (a, bs) :: r => match s.vWrite asker who p a bs with
    | (s1, .error f) => (s1, .error f)
    | (s1, .ok _) => s1.vWrites asker who p r

/-- The bytes of a picture's planes and motion area as ranges (R385). -/
def planeRanges (luma chroma w h : Nat) (p010 : Bool) (rights : Nat) : List (Nat × Nat × Nat) :=
  let n := (w + 63) / 64 * ((h + 63) / 64) * (if p010 then 2 else 1)
  [(luma, 4096 * n, rights), (chroma, 2048 * n + 256 * n, rights)]

/-- A DPB entry's planes. -/
def Pic.ranges (x : Pic) : List (Nat × Nat × Nat) := planeRanges x.luma x.chroma x.w x.h x.p010 rightR

/-- What a picture does (R383 to R393), once its input has been read; `bad` says that input or references could not be
read. -/
def State.decodePicture (s0 s : State) (e : Nat) (c : Cmd) (d input : List Byte) (bad : Bool) : State :=
  let (n, s1) := s.takeFree
  let slot0 := s1.plpSlot (dSlot d)
  let flush := bitAt (dFlags d) 2
  let slot : PlpSlot := if flush then { slot0 with dpb := [] } else slot0
  let flushed := if flush then slot0.dpb.map (·.tag) else []
  let tag := leAt d 12 4
  let fact := plpFact n slot input
  let kind := fact 0 % 5
  let w := plpSize (fact 2)
  let h := plpSize (fact 3)
  let ten := bitAt (fact 5) 4
  let p010 := dP010 d
  let odd := slot.dpb.any (fun x => x.p010 != p010) || (ten && !p010)
  let none' (st : Nat) (sl : PlpSlot) : State := s1.plpEnd s0 e c d { status := st, tags := flushed ++ [tag], refs := sl.dpb.length } sl
  if kind = 1 then none' stOk { slot with params := slot.params ++ input }
  else if kind = 2 then s1.plpEnd s0 e c d { status := stPlp 1 (1 + fact 1 % 7), tags := [tag], refs := slot0.dpb.length } slot0
  else if kind = 3 then
    s1.plpEnd s0 e c d { status := stPlp 2 (fact 1 % 2 * 32768 + fact 1 / 2 % 256), tags := [tag], refs := slot0.dpb.length } slot0
  else if kind = 4 then s1.plpEnd s0 e c d { status := stPlp 5 0, tags := [tag], refs := slot0.dpb.length } slot0
  else if 8912896 < w * h then s1.plpEnd s0 e c d { status := stPlp 1 5, tags := [tag], refs := slot0.dpb.length } slot0
  else if odd then s1.plpEnd s0 e c d { status := stPlp 1 7, tags := [tag], refs := slot0.dpb.length } slot0
  else
    let pic : Picture := ⟨n, input, ten, w, h⟩
    let crop : Crop := ⟨fact 7 % (w / 4), fact 9 % (h / 4), w - fact 7 % (w / 4) - fact 8 % (w / 4),
      h - fact 9 % (h / 4) - fact 10 % (h / 4)⟩
    let dw := leAt d 44 2
    let dh := leAt d 46 2
    let dsBad := dDs d && (crop.w < dw || dw < crop.w / 16 || crop.h < dh || dh < crop.h / 16)
    let rows := if dDs d && !dsBad then pic.dsRows d crop else []
    let used := (indexed slot.dpb).filter (fun x => bitAt (fact 13) x.1)
    let outs := planeRanges (leAt d 16 8) (leAt d 24 8) w h p010 rightW
    let ranges := sortRanges (outs ++ rows.map (fun r => (leAt d 32 8 + r.off, r.bytes.length, rightW)) ++
      used.flatMap (fun x => x.2.ranges))
    match s1.footprints (plpAsker e c.p) c.owner c.p ranges with
    | (s2, .error .stall) => { s0 with xlt := s2.xlt, ring := s2.ring, pcie := s2.pcie, regs := s2.regs }
    | (s2, .error f) => s2.plpFault c f
    | (s2, .ok _) =>
      match s2.vWrites (plpAsker e c.p) c.owner c.p
          ([(leAt d 16 8, pic.luma p010), (leAt d 24 8, pic.chroma p010 ++ pic.motion p010)] ++
            rows.map (fun r => (leAt d 32 8 + r.off, r.bytes))) with
      | (s3, .error f) => s3.plpFault c f
      | (s3, .ok _) =>
        let irap := bitAt (fact 5) 0
        let concealed := bitAt (fact 5) 1
        let refCorrupt := !irap && used.any (fun x => x.2.corrupt)
        let isRef := bitAt (fact 12) 0
        let gone := (indexed slot.dpb).filter (fun x => bitAt (fact 11) x.1)
        let kept := (slot.dpb.filter (fun x => !(gone.map (·.2)).contains x))
        let me : Pic := ⟨tag, fact 4 % 2 ^ 32, bad || refCorrupt, p010, leAt d 16 8, leAt d 24 8, w, h⟩
        let all := if isRef then kept ++ [me] else kept
        let late := all.take (all.length - 16)
        let dpb := all.drop (all.length - 16)
        let tags := flushed ++ gone.map (fun x => x.2.tag) ++ late.map (·.tag) ++ (if isRef then [] else [tag])
        let units := (w * h + 255) / 256
        let r : PlpRec := {
          status := if bad then stPlp 3 0 else if dsBad then stPlp 4 0 else stOk
          flags := 1 + 2 * b2n irap + 4 * b2n concealed + 8 * b2n (bitAt (fact 5) 2) + 16 * b2n refCorrupt +
            32 * b2n (bad || refCorrupt) + 64 * b2n ten + 128 * b2n (bitAt (fact 5) 3)
          tags := tags.take 17
          refs := dpb.length
          poc := fact 4 % 2 ^ 32
          conceal := if concealed then 1 + fact 6 % ((w + 15) / 16 * ((h + 15) / 16)) else 0
          w := w
          h := h
          crop := [crop.x0, w - crop.x0 - crop.w, crop.y0, h - crop.y0 - crop.h]
          units := units }
        let s4 := ((s3.charge (0x20 + e) 3 units).charge c.p 3 units).wr .PLP_SLOT_CODEC (1 + fact 14 % 2) (dSlot d)
        s4.plpEnd s0 e c d r { slot with dpb := dpb, params := slot.params ++ input }

/-- The read of the input: what it gives, and whether it is unreadable (R392); a stalled or torn-down read answers none. -/
def State.plpInput (s : State) (e : Nat) (c : Cmd) (d : List Byte) : State × Option (List Byte × Bool) :=
  if s.xlt.fetched.any (fun f => f.owner = c.owner && f.addr = failMark) then
    ({ s with xlt := { s.xlt with fetched := s.xlt.fetched.filter (fun f => f.owner ≠ c.owner) } },
      some (List.replicate (leAt d 8 4) 0, true))
  else
    match s.footprints (plpAsker e c.p) c.owner c.p
        (sortRanges [(leAt d 0 8, leAt d 8 4, rightR), (leAt d 48 8, 128, rightW)]) with
    | (s1, .error .stall) => (s1, none)
    | (s1, .error f) => (s1.plpFault c f, none)
    | (s1, .ok _) =>
      match s1.vRead (plpAsker e c.p) c.owner c.p (leAt d 0 8) (leAt d 8 4) with
      | (s2, .ok bs) => (s2, some (bs, false))
      | (s2, .error .stall) => (s2, none)
      | (s2, .error (.fault source st va)) =>
        if source = 3 then (s2, some (List.replicate (leAt d 8 4) 0, true))
        else (s2.plpFault c (.fault source st va), none)

/-- PICTURE_DONE (R389): the picture at the front of the engine's list ends, unless its stuff boxes hold it (R393). -/
def State.pictureDone (s : State) (e : Nat) : State :=
  let s0 := s.startPicture e
  match (storeGet [] s0.codec.engines e).head? with
  | none => s
  | some id =>
    match s0.cmd id, storeFind s0.codec.descs id with
    | some c, some d =>
      if c.progress = 0 || !s0.admits (0x20 + e) 3 || !s0.admits c.p 3 then s
      else match s0.plpInput e c d with
        | (s1, some (bs, bad)) => s1.decodePicture s1 e c d bs bad
        | (s1, none) => s1
    | _, _ => s

/-- PICTURE_DONE (R389). -/
def execPictureDone (engine : Fin 4) (s : State) : Host.Outcome State Fault Refusal :=
  .next (if s.live then s.pictureDone engine else s)

/-- A teardown stop of an engine (R394): commands that have not started complete with the stop's status and their records are
written, with their own BUFTAG returned. -/
def State.plpAbort (s : State) (e : Nat) (ids : List Nat) (st : Nat) : State :=
  ids.foldl (fun (s : State) id => match s.cmd id, storeFind s.codec.descs id with
    | some c, some d =>
      let slot := s.plpSlot (dSlot d)
      let r : PlpRec := { status := st, tags := [leAt d 12 4], refs := slot.dpb.length }
      let s1 := (s.vWrite (plpAsker e c.p) (.post c.p) c.p (leAt d 48 8) r.bytes).1
      { s1 with codec := { s1.codec with
        engines := storeSet [] s1.codec.engines e ((storeGet [] s1.codec.engines e).filter (fun i => i ≠ id))
        descs := storeErase s1.codec.descs id } }
    | _, _ => s) s

/-! ### Slots -/

/-- PLP_SLOT_ENABLE (R380): the slot's state is empty. OWNER is written with it; a slot that is enabled already keeps its
state. -/
def State.plpSlotEnable (s : State) (slot owner : Nat) : State :=
  if s.rd .PLP_SLOT_EN slot = 1 then s
  else
    let s1 := ((s.wr .PLP_SLOT_EN 1 slot).wr .PLP_SLOT_OWNER owner slot).wr .PLP_SLOT_CODEC 0 slot
    { s1 with codec := { s1.codec with slots := storeErase s1.codec.slots slot } }

/-- PLP_SLOT_ENABLE (R380). -/
def execPlpSlotEnable (slot : Fin 48) (owner : BitVec 5) (s : State) : Host.Outcome State Fault Refusal :=
  .next (if s.pfWrites && s.domState (domPlp (slotEngine slot)) = 0 then s.plpSlotEnable slot owner.toNat else s)

end Sys2Proof.Machine
end

