-- ==== Sys2Proof/Machine/Baler.lean ====
section
/-!
DEFINITION. The baler (R395 to R404, R406): BALE and UNBALE, their blocks, results and state blocks. The bytes of a DEFLATE
block that BALE writes are a free value of what the spec says they depend on (log entry 11).
-/

namespace Sys2Proof.Machine

/-! ### Descriptors (R396) -/

/-- SRCLEN. -/
def bSrcLen (d : List Byte) : Nat := leAt d 16 4
/-- DSTLEN. -/
def bDstLen (d : List Byte) : Nat := leAt d 20 4
/-- STATE. -/
def bState (d : List Byte) : Nat := leAt d 24 8
/-- DICTLEN. -/
def bDictLen (d : List Byte) : Nat := leAt d 40 2
/-- RESUME. -/
def bResume (d : List Byte) : Bool := bitAt (leAt d 44 1) 0
/-- FINAL. -/
def bFinal (d : List Byte) : Bool := bitAt (leAt d 44 1) 1

/-- BAL_STATUS.DIR of a command: 1 BALE, 2 UNBALE. -/
def balDir (c : Cmd) : Nat := if c.op = 0x28 then 1 else 2

/-- The job of a state block. -/
def State.balJob (s : State) (p addr : Nat) : Option BalJob := s.codec.jobs.find? (fun j => j.p = p && j.addr = addr)

/-- A reserved byte or MODE bit is not 0. -/
def balReserved (d : List Byte) : Bool := 4 ≤ leAt d 44 1 || leAt d 45 3 ≠ 0 || leAt d 56 8 ≠ 0

/-- The refusal of a BALE or UNBALE, if any (R404). -/
def State.balRefusal (s : State) (c : Cmd) (d : List Byte) : Option Nat :=
  let fresh := !bResume d
  let frame := leAt d 42 1
  let effort := leAt d 43 1
  let noJob := match s.balJob c.p (bState d) with
    | some j => j.dir ≠ balDir c
    | none => true
  firstRefusal [
    (1, fresh && decide (2 < frame)),
    (2, fresh && (decide (4 < effort) || (balDir c = 2 && effort ≠ 0))),
    (3, fresh && (decide (32768 < bDictLen d) || (leAt d 32 8 == 0) != (bDictLen d == 0) || (frame = 2 && bDictLen d ≠ 0))),
    (4, bState d % 4096 ≠ 0 || leAt d 48 8 % 64 ≠ 0),
    (5, bResume d && noJob),
    (6, balReserved d)]

/-- The baler as a requester (kind 5). -/
def balAsker (p : Nat) : Asker := ⟨.bal, 5, p⟩

/-- The baler starts the command at the front of its list when its partition runs (R395). -/
def State.startBaler (s : State) : State :=
  match s.codec.baler.head? with
  | some id => match s.cmd id with
    | some c => if c.progress = 0 && s.partRuns c.p && s.rd .HB_Q_CTRL_DESTROYING c.p c.q = 0 then s.modCmd id (fun c => { c with progress := 1 }) else s
    | none => s
  | none => s

/-- The hand-off of a BALE or UNBALE (R404). A command that resumes a job which an earlier command still runs finds its
state block when it is checked here. -/
def State.balHand (s : State) (c : Cmd) : State :=
  match s.vRead ⟨.unit, 5, c.p⟩ (.cmd c.id) c.p (c.dword 1) 64 with
  | (s1, .error f) => s1.cmdFail c f
  | (s1, .ok d) =>
    match s1.balRefusal c d with
    | some r => s1.handDone c.id (stRefused 3 r)
    | none =>
      let s2 : State := { s1 with codec := { s1.codec with
        baler := s1.codec.baler ++ [c.id]
        descs := storePut c.id d s1.codec.descs } }
      (s2.hand c.id).startBaler

/-- BALE (R398). -/
def execBale (cmd : CmdRef) (s : State) : Host.Outcome State Fault Refusal :=
  .next (s.withCmd cmd (fun c => c.op = 0x28) State.balHand)

/-- UNBALE (R401). -/
def execUnbale (cmd : CmdRef) (s : State) : Host.Outcome State Fault Refusal :=
  .next (s.withCmd cmd (fun c => c.op = 0x29) State.balHand)

/-! ### Framing (R399) -/

/-- FLEVEL of an EFFORT. -/
def flevel (effort : Nat) : Nat := if effort ≤ 1 then effort else if effort ≤ 3 then 2 else 3

/-- The header that BALE writes. -/
def baleHeader (j : BalJob) : List Byte :=
  if j.frame = 0 then []
  else if j.frame = 1 then
    let flg := if j.dict = [] then [0x01, 0x5E, 0x9C, 0xDA] else [0x20, 0x7D, 0xBB, 0xF9]
    [0x78, BitVec.ofNat 8 (flg.getD (flevel j.effort) 0)] ++ (if j.dict = [] then [] else toBe 4 (adler32 1 j.dict))
  else
    [0x1F, 0x8B, 0x08, 0, 0, 0, 0, 0, if j.effort = 0 then 4 else if j.effort = 4 then 2 else 0, 0xFF]

/-- The trailer that BALE writes after the last block. -/
def baleTrailer (frame : Nat) (input : List Byte) : List Byte :=
  if frame = 0 then []
  else if frame = 1 then toBe 4 (adler32 1 input)
  else toLe 4 (crc32 0 input) ++ toLe 4 (input.length % 2 ^ 32)

/-- The number that stands for what a block's bytes depend on besides the data: effort, dictionary bytes, whether the block
is the last, and the ends of non-FINAL inputs (R400). -/
def baleCode (j : BalJob) (last : Bool) : Nat :=
  j.ends.foldl (fun m e => m * 2 ^ 40 + e + 1) (j.effort + 8 * b2n last + 16 * j.dict.length)

/-! ### Blocks (R403) -/

/-- How a baler command stands: its job, the input consumed and the output written by this command. -/
structure BalRun where
  job : BalJob
  used : Nat
  made : Nat
deriving DecidableEq, Repr

/-- What a block comes to: its access waits or tears the partition down, the next block follows, or the command ends with
END, a status, ERR_AT and TRAILING. -/
inductive BalOut
  | stall
  | torn
  | more (r : BalRun)
  | done (r : BalRun) (fin status errAt : Nat) (trailing : Bool)
deriving DecidableEq, Repr

/-- Read the input of a block after its whole footprint has been translated (R339, R403). -/
def State.balRead (s : State) (c : Cmd) (d : List Byte) (r : BalRun) (n room : Nat) : State × Except Fail (List Byte) :=
  let src := leAt d 0 8
  let dst := leAt d 8 8
  let hist := if r.job.dir = 1 then (src + r.used - min r.used 32768, min r.used 32768, rightR)
    else (dst + r.made - min r.made 32768, min r.made 32768, rightR)
  let ranges := [(src + r.used, n, rightR), (dst + r.made, room, rightW), hist, (bState d, 4096, rightW),
    (leAt d 48 8, 64, rightW)] ++ (if bResume d then [] else [(leAt d 32 8, bDictLen d, rightR)])
  match s.footprints (balAsker c.p) (.cmd c.id) c.p (sortRanges ranges) with
  | (s1, .error f) => (s1, .error f)
  | (s1, .ok _) => s1.vRead (balAsker c.p) (.cmd c.id) c.p (src + r.used) n

/-- A failed access of a block: an uncorrectable read ends the job (R369). -/
def State.balFail (s : State) (c : Cmd) (r : BalRun) : Fail → State × BalOut
  | .stall => (s, .stall)
  | .fault source st va =>
    if source = 3 then (s, .done r 3 st 0 false) else (s.failTile c.p 0 0 (.fault source st va), .torn)

/-- Write a block's output. -/
def State.balWrite (s : State) (c : Cmd) (r : BalRun) (a : Nat) (bs : List Byte) (out : BalOut) : State × BalOut :=
  match s.vWrite (balAsker c.p) (.cmd c.id) c.p a bs with
  | (s1, .ok _) => (s1, out)
  | (s1, .error f) => s1.balFail c r f

/-- One block of a BALE (R398, R400). -/
def State.baleBlock (s : State) (c : Cmd) (d : List Byte) (r : BalRun) : State × BalOut :=
  let rest := bSrcLen d - r.used
  let room := bDstLen d - r.made
  let j := r.job
  if rest = 0 && !bFinal d then
    (s, .done { r with job := { j with ends := j.ends ++ [j.input.length] } } 2 stOk 0 false)
  else
    let n := min rest (32768 - j.input.length % 32768)
    let last := bFinal d && n = rest
    match s.balRead c d r n (min 40960 room) with
    | (s1, .error f) => s1.balFail c r f
    | (s1, .ok bs) =>
      let input := j.input ++ bs
      let head := if j.out = 0 then baleHeader j else []
      let tail := if last then baleTrailer j.frame input else []
      let body := (Config.deflate (baleCode j last) (j.dict ++ input)).take (32800 - head.length - tail.length)
      let out := head ++ body ++ tail
      if room < out.length then (s1, .done r 1 stOk 0 false)
      else
        let j1 : BalJob := { j with input := input, out := j.out + out.length }
        let r1 : BalRun := ⟨j1, r.used + n, r.made + out.length⟩
        s1.balWrite c r (leAt d 8 8 + r.made) out (if last then .done r1 0 stOk 0 false else .more r1)

/-- What stops a decompression with all the block's input: the rest of the table of R401. -/
def unbaleEnd (d : List Byte) (x : InfOut) (r r1 : BalRun) (moreIn moreOut : Bool) : BalOut :=
  match x.stop with
  | none => .done r1 0 stOk 0 (bFinal d && decide (r1.used < bSrcLen d))
  | some .full => if moreOut then .more r1 else .done r1 1 stOk 0 false
  | some (.input stored) =>
    if moreIn then .more r1
    else if bFinal d then
      .done r1 3 (stBal (if stored then 6 else 8) 0) (8 * (r.job.input.length + (bSrcLen d - r.used))) false
    else .done r1 2 stOk 0 false
  | some (.err reason detail a) => .done r1 3 (stBal reason detail) a false

/-- One block of an UNBALE (R401, R403). -/
def State.unbaleBlock (s : State) (c : Cmd) (d : List Byte) (r : BalRun) : State × BalOut :=
  let rest := bSrcLen d - r.used
  let room := bDstLen d - r.made
  let n := min rest 65536
  let m := min room 65536
  let j := r.job
  match s.balRead c d r n m with
  | (s1, .error f) => s1.balFail c r f
  | (s1, .ok bs) =>
    let all := j.input ++ bs
    let x := inflateJob j.frame all j.dict (j.out + m)
    let fresh := x.out.drop j.out
    let took := x.used - j.input.length
    let j1 : BalJob := { j with input := all.take (max x.used j.input.length), out := j.out + fresh.length }
    let r1 : BalRun := ⟨j1, r.used + took, r.made + fresh.length⟩
    s1.balWrite c r (leAt d 8 8 + r.made) fresh (unbaleEnd d x r r1 (decide (n < rest)) (decide (m < room)))

/-- The blocks of a command, until one ends it; `fuel` bounds them. -/
def State.balBlocks (s : State) (c : Cmd) (d : List Byte) : Nat → BalRun → State × BalOut
  | 0, r => (s, .done r 2 stOk 0 false)
  | fuel + 1, r =>
    match (if r.job.dir = 1 then s.baleBlock c d r else s.unbaleBlock c d r) with
    | (s1, .more r1) => s1.balBlocks c d fuel r1
    | o => o

/-! ### The end of a command (R397) -/

/-- The uncompressed data of a job so far: BALE's input; for UNBALE its output, decoded again. -/
def BalJob.plain (j : BalJob) : List Byte :=
  if j.dir = 1 then j.input else (inflateJob j.frame j.input j.dict j.out).out

/-- The result record's 64 bytes. -/
def balRecord (r : BalRun) (fin st errAt : Nat) (trailing : Bool) : List Byte :=
  toLe 4 st ++ toLe 1 fin ++ toLe 1 (b2n trailing) ++ toLe 2 0 ++ toLe 4 r.used ++ toLe 4 r.made ++
    toLe 8 r.job.input.length ++ toLe 8 r.job.out ++ toLe 4 (checkOf r.job.frame r.job.plain) ++ toLe 4 0 ++
    toLe 8 errAt ++ List.replicate 16 0

/-- The job of a command that starts or resumes (R396, R402). -/
def State.balStart (s : State) (c : Cmd) (d dict : List Byte) : BalJob :=
  let fresh : BalJob := ⟨c.p, bState d, balDir c, leAt d 42 1, leAt d 43 1, dict, [], [], 0⟩
  if bResume d then (s.balJob c.p (bState d)).getD fresh else fresh

/-- A command ends: state block, result record, status, and the next command (R395, R397, R402). -/
def State.balEnd (s : State) (c : Cmd) (d : List Byte) (r : BalRun) (fin st errAt : Nat) (trailing : Bool) : State :=
  let (n, s1) := s.takeFree
  let block := (List.range 4096).map (Config.internalByte n)
  let (s2, _) := s1.vWrite (balAsker c.p) (.cmd c.id) c.p (bState d) block
  match s2.vWrite (balAsker c.p) (.cmd c.id) c.p (leAt d 48 8) (balRecord r fin st errAt trailing) with
  | (s3, .error f) => s3.failTile c.p 0 0 f
  | (s3, .ok _) =>
    let others := s3.codec.jobs.filter (fun j => !(j.p = c.p && j.addr = bState d))
    let jobs := if fin = 1 || fin = 2 then others ++ [r.job] else others
    let s4 : State := { s3 with codec := { s3.codec with
      jobs := jobs
      baler := s3.codec.baler.filter (fun i => i ≠ c.id)
      descs := storeErase s3.codec.descs c.id } }
    let s5 := if fin = 3 then s4.count .BAL_STATUS_ERRORS else s4
    (s5.setResult c.id st).startBaler

/-- The state that keeps only what a waiting block has asked for. -/
def State.keepAsks (s0 s : State) : State :=
  { s0 with
    xlt := { s.xlt with fetched := s0.xlt.fetched }
    ring := s.ring
    pcie := s.pcie
    regs := s.regs
    nextId := s.nextId
    free := s.free }

/-- The status that a failed read has left for a command (R369). -/
def State.failedRead (s : State) (o : Owner) : Option Nat :=
  (s.xlt.fetched.find? (fun f => f.owner = o && f.addr = failMark)).map (fun f => leAt f.bytes 0 4)

/-- Run the command at the front of the list from its start. -/
def State.balRun (s : State) (c : Cmd) (d : List Byte) : State :=
  let dictAsk : State × Except Fail (List Byte) := if bResume d then (s, .ok [])
    else s.vRead (balAsker c.p) (.cmd c.id) c.p (leAt d 32 8) (bDictLen d)
  match dictAsk with
  | (s1, .error .stall) => s.keepAsks s1
  | (s1, .error f) =>
    let r : BalRun := ⟨s.balStart c d [], 0, 0⟩
    match s1.balFail c r f with
    | (s2, .done r fin st a t) => s2.balEnd c d r fin st a t
    | (s2, _) => s2
  | (s1, .ok dict) =>
    let r : BalRun := ⟨s1.balStart c d dict, 0, 0⟩
    match s1.failedRead (.cmd c.id) with
    | some st => (s1.dropAsks (fun o => o = .cmd c.id)).balEnd c d r 3 st 0 false
    | none =>
      match s1.balBlocks c d (bSrcLen d / 32768 + bDstLen d / 65536 + 4) r with
      | (s2, .done r fin st a t) => s2.balEnd c d r fin st a t
      | (s2, .torn) => s2
      | (s2, _) => s.keepAsks s2

/-- BALER_DONE (R397): the command at the front of the list ends. -/
def State.balerDone (s : State) : State :=
  let s0 := s.startBaler
  match s0.codec.baler.head? with
  | none => s
  | some id =>
    match s0.cmd id, storeFind s0.codec.descs id with
    | some c, some d => if c.progress = 0 then s else s0.balRun c d
    | _, _ => s

/-- BALER_DONE (R397). -/
def execBalerDone (s : State) : Host.Outcome State Fault Refusal := .next (if s.live then s.balerDone else s)

end Sys2Proof.Machine
end

