-- ==== Sys2Proof/Machine/BpcHeap.lean ====
section
/-!
DEFINITION. The device heap (R119, R273 to R275): HALLOC and HFREE.
-/

namespace Sys2Proof.Machine

/-- Partition p's heap. -/
def State.heap (s : State) (p : Nat) : Heap := storeGet {} s.heaps p

/-- The state with a heap changed. -/
def State.setHeap (s : State) (p : Nat) (h : Heap) : State := { s with heaps := storeSet {} s.heaps p h }

/-- Slabs of 1 MiB (R274): HEAP of the partition record. -/
def State.heapSlabs (s : State) (p : Nat) : Nat :=
  match s.part p with
  | some r => r.heap
  | none => 0

/-- The size class that holds `n` bytes (R119). -/
def heapClass (n : Nat) : Option Nat := if n = 0 then none else (List.range 15).find? (fun k => decide (n ≤ 64 * 2 ^ k))

/-- The bytes of a class's blocks. -/
def classSize (k : Nat) : Nat := 64 * 2 ^ k

/-- The free blocks of class `k` in slab `i` of a heap at `base`. -/
def Heap.freeIn (h : Heap) (base i k : Nat) : List Nat :=
  ((List.range (2 ^ 20 / classSize k)).map (fun j => base + i * 2 ^ 20 + j * classSize k)).filter
    (fun a => (storeFind h.live a).isNone)

/-- The free blocks of a class. -/
def Heap.freeBlocks (h : Heap) (base k : Nat) : List Nat :=
  (h.slabs.filter (fun x => x.2 = k)).flatMap (fun x => h.freeIn base x.1 k)

/-- The slabs that no class has. -/
def Heap.unassigned (h : Heap) (slabs : Nat) : List Nat :=
  (List.range slabs).filter (fun i => (storeFind h.slabs i).isNone)

/-- An element of a list that the spec leaves open which (log entry 10). -/
def State.pick (s : State) (l : List Nat) : State × Nat :=
  let (n, s1) := s.takeFree
  (s1, l.getD ((Config.undefinedWord n).toNat % l.length) 0)

/-- A block of class `k`: from the free blocks, or from a slab that the class is given (R274). -/
def State.heapTake (s : State) (p k : Nat) : State × Option Nat :=
  let h := s.heap p
  let base := s.addrOf .HB_HEAP_BASE_ADDR p
  match h.freeBlocks base k with
  | a :: l =>
    let (s1, x) := s.pick (a :: l)
    (s1.setHeap p { h with live := storePut x k h.live }, some x)
  | [] =>
    match h.unassigned (s.heapSlabs p) with
    | [] => (s, none)
    | i :: l =>
      let (s1, slab) := s.pick (i :: l)
      let h1 : Heap := { h with slabs := storePut slab k h.slabs }
      let (s2, x) := s1.pick (h1.freeBlocks base k)
      (s2.setHeap p { h1 with live := storePut x k h1.live }, some x)

/-- HALLOC of one lane: the block's address, or 0 and FAILED (R119, R275). -/
def State.halloc (s : State) (p n : Nat) : State × Nat :=
  match heapClass n with
  | none => (s.count .HB_HEAP_STAT_FAILED 1 p, 0)
  | some k =>
    match s.heapTake p k with
    | (s1, some a) => (s1, a)
    | (s1, none) => (s1.count .HB_HEAP_STAT_FAILED 1 p, 0)

/-- HFREE of one lane (R119, R275): a live block is freed, and its slab returns when that was its last. -/
def State.hfree (s : State) (p a : Nat) : State :=
  if a = 0 then s
  else
    let h := s.heap p
    match storeFind h.live a with
    | none => s.count .HB_HEAP_STAT_BADFREE 1 p
    | some _ =>
      let live := storeErase h.live a
      let slab := (a - s.addrOf .HB_HEAP_BASE_ADDR p) / 2 ^ 20
      let used := live.any (fun x => (x.1 - s.addrOf .HB_HEAP_BASE_ADDR p) / 2 ^ 20 = slab)
      s.setHeap p { h with live := live, slabs := if used then h.slabs else storeErase h.slabs slab }

/-- HALLOC (R119). -/
def execHalloc (vat slot : Fin 64) (s : State) : Host.Outcome State Fault Refusal :=
  .next (s.issue vat slot 0xC8 (fun s c =>
    let r := c.doers.foldl (fun (acc : State × List (Nat × Nat)) n =>
      let (s1, a) := acc.1.halloc c.l.p (c.opA n)
      (s1, acc.2 ++ [(n, a)])) (s, [])
    c.done r.1 (c.writeD r.2)))

/-- HFREE (R119, R275). -/
def execHfree (vat slot : Fin 64) (s : State) : Host.Outcome State Fault Refusal :=
  .next (s.issue vat slot 0xC9 (fun s c => c.done (c.lanes.foldl (fun s n => s.hfree c.l.p (c.opA n)) s) c.q))

end Sys2Proof.Machine
end

