-- ==== Sys2Proof/Machine/StopAck.lean ====
section
/-!
DEFINITION. Acknowledgements of stops (R285 step 3, R315 steps 2 and 3, R394) and the reclaim that the driver starts (R287).
-/

namespace Sys2Proof.Machine

/-- Commands of a decode engine that are in scope of a stop. -/
def State.plpScope (s : State) (c : StopCause) (e : Nat) : List Cmd :=
  (storeGet [] s.codec.engines e).filterMap (fun id => match s.cmd id with
    | some x => if cmdInScope c x && x.result.isNone then some x else none
    | none => none)

/-- The engine is at its boundary: a decode engine ends the picture in decode first (R394). -/
def State.atStopBoundary (s : State) (c : StopCause) : EngineUnit → Bool
  | .plp e => !(s.plpScope c e).any (fun x => x.progress ≠ 0)
  | .member _ => false
  | _ => true

/-- The engine discards its work in scope; a decode engine returns the buffers of what it had not started (R394). -/
def State.stopEngine (s : State) (c : StopCause) : EngineUnit → State
  | .plp e =>
    let ids := (s.plpScope c e).map (·.id)
    ((s.plpAbort e ids c.status).stopCmds c (fun x => ids.contains x.id)).startPicture e
  | .bal => (s.discardWork c .bal).startBaler
  | u => s.discardWork c u

/-- The acknowledgement is counted; after the last one the stop ends. -/
def State.ackStop (s : State) (id : Nat) (u : EngineUnit) : State :=
  match s.hb.stops.find? (fun x => x.id = id) with
  | none => s
  | some x =>
    let left := x.waiting.filter (fun y => y ≠ u)
    if left = [] then ((s.dropStops (fun y => y.id = id)).finishStop x.cause).answerFuncs
    else { s with hb := { s.hb with stops := s.hb.stops.map (fun y => if y.id = id then { y with waiting := left } else y) } }

/-- An engine acknowledges a stop request at its boundary (R285 step 3). -/
def State.stopAck (s : State) (id : Nat) (u : EngineUnit) : State :=
  match s.hb.stops.find? (fun x => x.id = id) with
  | none => s
  | some x =>
    if x.waiting.contains u && s.atStopBoundary x.cause u then ((s.stopEngine x.cause u).ackStop id u).poolStep else s

/-- ENGINE_STOP_ACK (R285); a member chip acknowledges by its completion. -/
def execEngineStopAck (stop : Nat) (engine : EngineUnit) (s : State) : Host.Outcome State Fault Refusal :=
  .next (if s.live then s.stopAck stop engine else s)

/-- The members that no longer hold columns of a destroyed queue's launches, or are not live, count as having acknowledged
(R315, R439). -/
def State.settleStop (s : State) (x : Stop) : State :=
  (x.waiting.filter (fun u => match u with
    | .member m => (match x.cause with
      | .queue _ _ => !(s.scopeMembers x.cause).contains m.val
      | _ => !bitAt (s.rd .FLT_MEMBERS_LIVE) m)
    | _ => false)).foldl (fun (s : State) u => s.ackStop x.id u) s

/-- Every stop is looked at. -/
def State.settleStops (s : State) : State := s.hb.stops.foldl (fun (s : State) x => s.settleStop x) s

/-- The teardown stop that a member has carried out is acknowledged by its completion. -/
def State.memberAck (s : State) (p m : Nat) : State :=
  (s.hb.stops.filter (fun x => x.cause = .fault p || x.cause = .reclaim p)).foldl
    (fun (s : State) x => s.ackStop x.id (.member (Fin.ofNat 16 m))) s

/-- RECLAIM (R287). -/
def execReclaim (fn : Fin 33) (p : Fin 32) (s : State) : Host.Outcome State Fault Refusal :=
  .next (if s.mayWrite fn p then s.startReclaim p else s)

end Sys2Proof.Machine
end

