-- ==== Sys2Proof/Machine/XltCmds.lean ====
section
/-!
DEFINITION. The driver's side of translation: migration replies, retries and patience (R344 to R347), invalidations (R348 to
R350) and page-table roots.
-/

namespace Sys2Proof.Machine

/-! ### Migration -/

/-- What a translation of a page that lacks nothing gives a wait that repeats: it goes on, or an error's status. -/
def State.pageStatus (s : State) (w : MigWait) (x : Xlat) : Nat :=
  let m := missing x w.rights
  if m ≠ 0 then stXlt 2 w.kind m
  else if x.loc then stOk
  else match s.paBad (x.pfn * 4096) with
    | some d => stXlt 4 w.kind d
    | none => stOk

/-- A wait without an entry translates its page again (R344). -/
def State.migRetry (s : State) (w : MigWait) : State :=
  let asker : Asker := ⟨.unit, w.kind, w.p⟩
  let set (s : State) (a : Nat) (e : Option Nat) : State :=
    { s with xlt := { s.xlt with waits := s.xlt.waits.map (fun x => if x.id = w.id then { x with va := a, entry := e } else x) } }
  match s.lookup asker w.p w.va with
  | (s1, .ok x) =>
    let st := s1.pageStatus w x
    if st = stOk then s1.endMig w else s1.failMig w st
  | (s1, .migrate l a) =>
    (match s1.migEntry w.p a l with
    | some e => set s1 a (some e)
    | none =>
      match (List.range 64).find? (fun e => s1.rd .XLT_MIG_USED e = 0) with
      | some e => set (s1.takeEntry (s1.chipOf w.who) e w.p a l w.rights w.kind) a (some e)
      | none => s1)
  | (s1, .err r d) => s1.failMig w (stXlt r w.kind d)
  | (s1, .bad pa) => s1.failMig w (stMem 1 (s1.memDetail pa))
  | (s1, .remote a) =>
    if s1.reachable (a / 2 ^ 44 % 16) then s1.readWalk w.who w.p a w.va else s1.failMig w (stUnreachable (a / 2 ^ 44 % 16))

/-- A migration wait by its number, on the partition's home chip. -/
def State.homeWait (s : State) (id : Nat) : Option MigWait := s.xlt.waits.find? (fun w => w.id = id && s.homed w.p)

/-- MIGRATION_RETRY (R344). -/
def execMigrationRetry (wait : Nat) (s : State) : Host.Outcome State Fault Refusal :=
  .next (if s.live then
    match s.homeWait wait with
    | some w => if w.entry.isNone then s.migRetry w else s
    | none => s
  else s)

/-- MIGRATION_PATIENCE_EXPIRY (R347); the counter pauses while the partition is STOPPED. -/
def execMigrationPatienceExpiry (wait : Nat) (s : State) : Host.Outcome State Fault Refusal :=
  .next (if s.live then
    match s.homeWait wait with
    | some w =>
      if s.funcState w.p = fnStopped then s
      else s.failMig w (stTimeoutMigration (match w.entry with | some e => e | none => 64))
    | none => s
  else s)

/-- A write of XLT_MIG_CTRL with GO: the fields, and what is done with the entry's waits (R346, R347). -/
def State.migReply (s : State) (p e op : Nat) (act : State → MigWait → State) : State :=
  let s1 := (s.wr .XLT_MIG_CTRL_OP op p).wr .XLT_MIG_CTRL_INDEX e p
  if s.rd .XLT_MIG_USED e = 0 || s.rd .XLT_MIG_PART e ≠ p then s1.wr .XLT_MIG_CTRL_RESULT 2 p
  else
    let s2 := (s1.wr .XLT_MIG_CTRL_RESULT 1 p).wr .XLT_MIG_USED 0 e
    (s.xlt.waits.filter (fun w => w.entry = some e && w.p = p)).foldl
      (fun (s : State) w => if s.xlt.waits.any (fun x => x.id = w.id) then act s w else s) s2

/-- REPLAY (R346). -/
def execReplay (fn : Fin 33) (p : Fin 32) (entry : BitVec 6) (s : State) : Host.Outcome State Fault Refusal :=
  .next (if s.mayWrite fn p then s.migReply p entry.toNat 1 State.endMig else s)

/-- FAIL (R346). -/
def execMigFail (fn : Fin 33) (p : Fin 32) (entry : BitVec 6) (s : State) : Host.Outcome State Fault Refusal :=
  .next (if s.mayWrite fn p then
    s.migReply p entry.toNat 2 (fun s w => s.failMig w (stXlt 5 w.kind entry.toNat))
  else s)

/-! ### Invalidation (R348 to R350) -/

/-- The translation caches of the chip (R349 step 2). -/
def localCaches : List XltCache :=
  (List.range 64).flatMap (fun n => [XltCache.vat (Fin.ofNat 64 n), .beater (Fin.ofNat 64 n)]) ++
    [.headbox, .geo, .plp 0, .plp 1, .plp 2, .plp 3, .bal, .copy, .sched, .cal, .shared, .walk, .prefetch]

/-- The body of INVALIDATE after SUB: partition, doorbell value, first address (R423). -/
def invalBody (p word addr : Nat) : List Byte := [0x0B, 0, 0, 0] ++ toLe 4 p ++ toLe 4 word ++ toLe 8 addr

/-- Steps 1 and 2 of an invalidation (R349); `word` at 2^32 and above reports no SEQ. -/
def State.startInval (s : State) (p word addr : Nat) : State :=
  let ms := if s.spanning p && s.homed p then (s.spanChips p).filter (fun m => m ≠ s.pos) else []
  let x : Inval := ⟨word % 2 ^ 32, addr, localCaches ++ ms.map (fun m => XltCache.member (Fin.ofNat 16 m)), decide (2 ^ 32 ≤ word)⟩
  let s1 : State := { s.wr .XLT_INV_DONE_BUSY 1 p with xlt := { s.xlt with inval := storePut p x s.xlt.inval } }
  ms.foldl (fun (s : State) m => s.feltReq m 7 p (invalBody p (word % 2 ^ 32) addr) .ctl) s1

/-- A request for an invalidation: it starts, or is latched as pending; one that meets a pending one makes it PARTITION
(R350). -/
def State.invalRequest (s : State) (p word : Nat) : State :=
  if !s.xlt.inval.any (fun x => x.1 = p) then s.startInval p word (s.addrOf .XLT_INV_ADDR_ADDR p)
  else
    let put (s : State) (w : Nat) : State := { s with xlt := { s.xlt with pendInval := storePut p w s.xlt.pendInval } }
    match storeFind s.xlt.pendInval p with
    | none => put s word
    | some old =>
      let bell (w : Nat) : Bool := decide (w < 2 ^ 32)
      if bell word then
        let s1 := if bell old then s.count .XLT_INV_DONE_MERGED 1 p else s
        put s1 (word % 65536)
      else put s (if bell old then old % 65536 else 2 ^ 32)

/-- The cached pages that an invalidation removes (R348): a RANGE by page, WALK none, the others all of the partition. -/
def invalHits (p : Nat) (x : Inval) (key : Nat) : Bool :=
  let scope := x.word / 2 ^ 30 % 4
  let page := key % 2 ^ 36
  key / 2 ^ 36 = p &&
    (if scope = 1 then
      decide (x.addr / 4096 ≤ page) && decide (page ≤ x.addr / 4096 + bits x.word 27 16)
    else scope ≠ 2)

/-- Step 4 of an invalidation (R349), and the pending one starts. -/
def State.endInval (s : State) (p : Nat) (x : Inval) : State :=
  let s1 : State := { s with xlt := { s.xlt with
    inval := storeErase s.xlt.inval p
    tlb := s.xlt.tlb.filter (fun e => !invalHits p x e.1)
    walked := [] } }
  let s2 := if x.silent then s1 else s1.wr .XLT_INV_DONE_SEQ x.word p
  match storeFind s2.xlt.pendInval p with
  | some w =>
    ({ s2 with xlt := { s2.xlt with pendInval := storeErase s2.xlt.pendInval p } }).startInval p w
      (s2.addrOf .XLT_INV_ADDR_ADDR p)
  | none => (s2.wr .XLT_INV_DONE_BUSY 0 p).answerFuncs

/-- A translation cache acknowledges (R349 steps 3 and 4). -/
def State.invalAck (s : State) (p : Nat) (c : XltCache) : State :=
  match storeFind s.xlt.inval p with
  | none => s
  | some x =>
    let x1 : Inval := { x with waiting := x.waiting.filter (fun y => y ≠ c) }
    let s1 : State := { s with xlt := { s.xlt with inval := storePut p x1 s.xlt.inval } }
    if x1.waiting = [] then s1.endInval p x1 else s1

/-- INVALIDATE_ACK (R349); a member chip acknowledges by its completion. -/
def execInvalidateAck (p : Fin 32) (cache : XltCache) (s : State) : Host.Outcome State Fault Refusal :=
  .next (if s.live then
    match cache with
    | .member _ => s
    | c => s.invalAck p c
  else s)

/-- INVALIDATE_DOORBELL (R219, R348); one during a reclaim is ignored (R350). -/
def execInvalidateDoorbell (fn : Fin 33) (p : Fin 32) (bytes : Nat) (value : Word) (s : State) :
    Host.Outcome State Fault Refusal :=
  .next (if bytes = 4 && s.bellOk fn p && s.rd .HB_RECLAIM_RUNNING p = 0 then s.invalRequest p value.toNat else s)

/-! ### Roots -/

/-- XLT_ROOT.ADDR takes writes: the partition is STOPPED or has no queue enabled. -/
def State.rootFree (s : State) (p : Nat) : Bool :=
  s.funcState p = fnStopped || (List.range 16).all (fun q => s.rd .HB_Q_CTRL_EN p q = 0)

/-- A write of a word of XLT_ROOT (R335, R350): the fields, an implicit invalidation, and the root for the members. -/
def State.rootWrite (s : State) (p word data : Nat) : State :=
  let old := s.rd .XLT_ROOT_ADDR p
  let s1 := if s.rootFree p then
      (if word = 0 then s.wr .XLT_ROOT_ADDR (old / 2 ^ 20 * 2 ^ 20 + data / 4096) p
       else s.wr .XLT_ROOT_ADDR (data % 65536 * 2 ^ 20 + old % 2 ^ 20) p)
    else s
  let s2 := if word = 0 then s1.wr .XLT_ROOT_EN (data % 2) p else s1
  (s2.invalRequest p (2 ^ 32)).tellRoot p

/-- XLT_ROOT_WRITE (R350). -/
def execXltRootWrite (fn : Fin 33) (p : Fin 32) (word : Fin 2) (data : Word) (s : State) :
    Host.Outcome State Fault Refusal :=
  .next (if s.mayWrite fn p then s.rootWrite p word data.toNat else s)

end Sys2Proof.Machine
end

