-- ==== Sys2Proof/Machine/Answers.lean ====
section
/-!
DEFINITION. What the answer of a request to another chip does (R422, R424, R434): reads, writes and atomics, sync operations,
event records, and the ring's own protocols. An install ends requests to chips that are not live in the same way (R433).
-/

namespace Sys2Proof.Machine

/-! ### Sync operations -/

/-- The waits of a quire's lanes on objects of another chip are dropped, and it runs again at a word index. -/
def State.unwait (s : State) (v q pc : Nat) : State :=
  let mine (w : Wait) : Bool := match w.who with
    | .lane v' q' _ _ => v' = v && q' = q && decide (16384 ≤ w.obj)
    | _ => false
  let s1 := s.setWaits (s.sync.waits.filter (fun w => !mine w))
  match s1.quire v q with
  | some x => s1.setQuire v q { x with wait := .run, pc := pc }
  | none => s1

/-- The wait of a lane on an object of another chip. -/
def State.laneWait (s : State) (v q lane : Nat) : Option Wait :=
  s.sync.waits.find? (fun w => match w.who with
    | .lane v' q' n _ => v' = v && q' = q && n = lane && decide (16384 ≤ w.obj)
    | _ => false)

/-- A saved block's wait takes its notice (R310). -/
def State.savedNotice (s : State) (v q lane st : Nat) : State :=
  let mine (w : Wait) : Bool := match w.who with
    | .lane _ q' n _ => q' = q && n = lane && decide (16384 ≤ w.obj)
    | _ => false
  { s with sched := { s.sched with saved := s.sched.saved.map (fun x =>
      if savedVat x.p x.addr = v then
        { x with waits := x.waits.map (fun w => if mine w then { w with notice := some st } else w) }
      else x) } }

/-- The answer of a lane's sync operation (R422). -/
def State.synAnswered (s : State) (r : Req) (v q st : Nat) (data : List Byte) : State :=
  let op := leAt r.msg 10 1
  let lane := r.addr - synTag 0
  if statusClass st = 0x14 then s.failOwner r.owner r.p st 0
  else if synWaits op then
    if statusClass st = 0x12 then (s.unwait v q r.n).raiseFault v q (stIllegal op)
    else if op = 0xB4 then s.lockLane v q lane (ofLe data)
    else if 64 ≤ v then s.savedNotice v q lane st
    else match s.laneWait v q lane with
      | some w => s.endWait w st
      | none => s
  else (s.keep r.owner r.addr (toLe 4 st ++ slice data 0 8)).wake r.owner

/-! ### Memory -/

/-- The data of a read: an entry for a walk, or bytes for the work that asked (R335, R336). -/
def State.gotRead (s : State) (r : Req) (data : List Byte) : State :=
  if walkTag ≤ r.addr && decide (r.addr < hostTag) then
    { s with xlt := { s.xlt with walked := storePut (r.addr - walkTag) (ofLe (data.take 8)) s.xlt.walked } }
  else s.keep r.owner r.addr (data.take r.n)

/-- The answer of an access: the work goes on, or ends as an uncorrectable read ends it (R369, R434). -/
def State.accessAnswered (s : State) (r : Req) (st : Nat) (act : State → State) : State :=
  if statusOk st then (act s).wake r.owner else s.failOwner r.owner r.p st r.va

/-- The answer of a migration fault that was sent to the home chip (R344, R346). -/
def State.migAnswered (s : State) (r : Req) (st : Nat) : State :=
  match s.xlt.waits.find? (fun w => w.who = r.owner && w.p = r.p) with
  | none => s
  | some w =>
    let s1 := s.dropMig w.id
    if statusOk st then s1.wake r.owner else s1.failOwner r.owner r.p st w.va

/-! ### The ring's protocols -/

/-- A delta's bytes that a measurement leaves out: how many of the retained deltas a chip has applied, by the measurement it
answers (R35). -/
def State.measuredAt (s : State) (m : List Byte) : Option Nat :=
  (List.range (s.furn.deltas.length + 1)).find? (fun n => sha512 (s.furn.base ++ (s.furn.deltas.take n).flatten) = m)

/-- A request of this subcode to this chip is unanswered. -/
def State.asked (s : State) (dst sub : Nat) : Bool :=
  s.ring.reqs.any (fun r => leAt r.msg 0 1 = 7 && leAt r.msg 8 1 = sub && r.dst = some dst)

/-- The port by which the last discovery met a position (R430). -/
def State.tokenPort (s : State) (dst : Nat) : Nat :=
  match s.ring.entries.find? (fun e => e.1 = dst) with
  | some e => e.2 / 256 % 2
  | none => s.routePort dst

/-- Send a request by a given port, whatever is held (R430, R431). -/
def State.feltReqBy (s : State) (k dst op part : Nat) (body : List Byte) : State :=
  let tag := s.ring.tagNext
  let m := feltMsg op s.pos dst tag part body
  let r : Req := ⟨tag, 0, some dst, part, 0, 0, m, .ctl, 0⟩
  ({ s with ring := { s.ring with reqs := s.ring.reqs ++ [r], tagNext := (tag + 1) % 65536 } }).feltQueue k (feltVc op) m

/-- A position has been measured equal. -/
def State.addMeasured (s : State) (dst : Nat) : State :=
  { s with ring := { s.ring with measured := if s.ring.measured.contains dst then s.ring.measured else s.ring.measured ++ [dst] } }

/-- The answer of MEASURE (R35, R431): equal; behind by retained deltas, which are replayed; or different. -/
def State.measureAnswered (s : State) (dst : Nat) (data : List Byte) : State :=
  match s.measuredAt (data.take 64) with
  | none => s
  | some n =>
    let left := s.furn.deltas.drop n
    if left = [] then s.addMeasured dst
    else left.foldl (fun (s : State) bs => (piecesOf (bs.length / 192 + 1) 0 bs).foldl
      (fun (s : State) x => s.feltReqBy (s.tokenPort dst) dst 7 0 (pieceBody 8 bs.length x)) s) s

/-- The answer of a RINGCTL request (R423). -/
def State.ctlAnswered (s : State) (r : Req) (dst st : Nat) (data : List Byte) : State :=
  let sub := leAt r.msg 8 1
  if sub = 2 then (if statusOk st then s.measureAnswered dst data else s)
  else if sub = 6 then
    if statusOk st && s.asked dst 6 then s else s.deltaAnswer dst st
  else if sub = 7 then s.deltaAnswer dst st
  else if sub = 8 then (if statusOk st && !s.asked dst 8 then s.addMeasured dst else s)
  else if sub = 9 && leAt r.msg 12 1 = 4 then s.memberAck r.p dst
  else if sub = 0x0B then s.invalAck r.p (.member (Fin.ofNat 16 dst))
  else s

/-- A request is answered with a status and data. -/
def State.endReq (s : State) (r : Req) (st : Nat) (data : List Byte) : State :=
  let s0 : State := { s with ring := { s.ring with reqs := s.ring.reqs.filter (fun x => x.id ≠ r.id) } }
  let dst := r.dst.getD 0
  let op := leAt r.msg 0 1
  if op = 1 then s0.accessAnswered r st (fun s => s.gotRead r data)
  else if op = 2 then s0.accessAnswered r st (fun s => s)
  else if op = 3 then s0.accessAnswered r st (fun s => s.keep r.owner r.addr (data.take 8))
  else if op = 4 then
    match r.owner with
    | .quire v q => s0.synAnswered r v q st data
    | _ => s0
  else if op = 5 then (if r.owner = .ctl then s0 else s0.migAnswered r st)
  else if op = 7 then s0.ctlAnswered r dst st data
  else s0

end Sys2Proof.Machine
end

