-- ==== Sys2Proof/Machine/Firmware.lean ====
section
/-!
DEFINITION. Boot flash, images, recovery log, slot states and settings (R466 to R473, R483 to R486), and the start of a slot
(R474, R475).
-/

namespace Sys2Proof.Machine

/-! ### Causes (R471) -/

/-- Causes by name. -/
def cOk : Nat := 0
/-- BAD_MAGIC. -/
def cMagic : Nat := 1
/-- BAD_VERSION. -/
def cVersion : Nat := 2
/-- BAD_LENGTH. -/
def cLength : Nat := 3
/-- BAD_SIGNATURE. -/
def cSignature : Nat := 4
/-- KEY_REVOKED. -/
def cRevoked : Nat := 5
/-- ROLLBACK. -/
def cRollback : Nat := 6
/-- BAD_TAG. -/
def cTag : Nat := 7
/-- BAD_COMPONENTS. -/
def cComponents : Nat := 8
/-- BUSY. -/
def cBusy : Nat := 10
/-- NO_TRIAL. -/
def cNoTrial : Nat := 11
/-- BAD_REQUEST. -/
def cRequest : Nat := 12
/-- SETTINGS. -/
def cSettings : Nat := 13
/-- NOT_MASTER. -/
def cNotMaster : Nat := 14
/-- WATCHDOG. -/
def cWatchdog : Nat := 15

/-! ### Recovery log (R472, R473) -/

/-- Append a record without regard to sectors. -/
def State.pushLog (s : State) (r : LogRec) : State :=
  let seq := match s.mgc.log.head? with
    | some h => h.seq + 1
    | none => 0
  { s with mgc := { s.mgc with log := { r with seq := seq } :: s.mgc.log } }

/-- Append a record (R472); a new sector begins with a SNAPSHOT, whose VALUE encodes the derived state in a way that the
spec does not give. -/
def State.appendLog (s : State) (r : LogRec) : State :=
  let next := match s.mgc.log.head? with
    | some h => h.seq + 1
    | none => 0
  if next % 1024 = 0 && next ≠ 0 then
    let (n, s1) := s.takeFree
    (s1.pushLog { seq := 0, event := 12, slot := 0, cause := 0, fwver := 0, value := (Config.undefinedWord n).toNat }).pushLog r
  else s.pushLog r

/-- A record of an event of a slot. -/
def logEv (event slot : Nat) (cause : Nat := 0) (img : Option Image := none) : LogRec where
  seq := 0
  event := event
  slot := slot
  cause := cause
  fwver := match img with | some i => i.fwver | none => 0
  svn := match img with | some i => i.svn | none => 0

/-- The 64 bytes of a record (R472). -/
def LogRec.bytes (r : LogRec) : List Byte :=
  let b := toLe 4 r.seq ++ toLe 1 r.event ++ toLe 1 r.slot ++ toLe 1 r.cause ++ [0] ++ toLe 8 r.fwver ++ toLe 4 r.svn ++
    toLe 4 0 ++ toLe 8 r.value ++ toLe 8 r.value2 ++ List.replicate 16 0
  b ++ (sha512 b).drop 56

/-- Slot states (R473): 0 EMPTY, 1 TRIAL, 2 GOOD, 3 BAD. -/
def slotState (log : List LogRec) (slot : Nat) : Nat :=
  match log.find? (fun r => r.slot = slot && (r.event = 4 || r.event = 5 || r.event = 6 || r.event = 7)) with
  | none => 0
  | some r => if r.event = 4 then 0 else if r.event = 5 then 1 else if r.event = 6 then 2 else 3

/-- The active slot (R473). -/
def activeSlot (log : List LogRec) : Nat :=
  match log.find? (fun r => r.event = 6 || r.event = 8) with
  | some r => r.slot
  | none => 0

/-- The TRIAL slot, if there is one. -/
def trialSlot (log : List LogRec) : Option Nat := [0, 1].find? (fun k => slotState log k = 1)

/-- ATTEMPT records of a slot, newest first, back to one of the given events of the slot. -/
def attempts (log : List LogRec) (slot : Nat) (stop : LogRec → Bool) : Nat :=
  ((log.takeWhile (fun r => !(r.slot = slot && stop r))).filter (fun r => r.event = 1 && r.slot = slot)).length

/-- trial_attempts (R473). -/
def trialAttempts (log : List LogRec) (slot : Nat) : Nat := attempts log slot (fun r => r.event = 5)
/-- active_fails (R473). -/
def activeFails (log : List LogRec) (slot : Nat) : Nat := attempts log slot (fun r => r.event = 2 || r.event = 5)

/-! ### Images (R468 to R470) -/

/-- A component entry of the table. -/
structure CompEnt where
  id : Nat
  off : Nat
  size : Nat
  entry : Nat
  rest : Nat
deriving DecidableEq, Repr

/-- Component entry `i` of a header. -/
def compEnt (h : List Byte) (i : Nat) : CompEnt :=
  let b := slice h (64 + 32 * i) 32
  ⟨leAt b 0 1, leAt b 4 4, leAt b 8 4, leAt b 12 4, leAt b 1 3 + leAt b 16 16⟩

/-- The memory size under a component's ID (R469); optional IDs have none. -/
def compLimit (id : Nat) : Option Nat :=
  match id with
  | 0 => some 4194304
  | 1 => some 524288
  | 2 => some 262144
  | 3 => some 262144
  | 4 => some 262144
  | 5 => some 2097152
  | _ => none

/-- One component entry obeys R469, given the plaintext's length. -/
def compOk (text : Nat) (c : CompEnt) : Bool :=
  if c.id < 6 then
    c.rest = 0 && c.off % 16 = 0 && 1 ≤ c.size && decide (c.size ≤ (compLimit c.id).getD 0) && decide (c.entry < c.size) &&
      decide (c.off + c.size ≤ text)
  else decide (0x80 ≤ c.id) && decide (c.off + c.size ≤ text)

/-- The component table obeys R468 and R469. -/
def compsOk (h : List Byte) (text : Nat) : Bool :=
  let n := leAt h 32 1
  let cs := (List.range n).map (compEnt h)
  let apart (a b : CompEnt) : Bool := decide (a.off + a.size ≤ b.off) || decide (b.off + b.size ≤ a.off)
  6 ≤ n && decide (n ≤ 16) && (slice h (64 + 32 * n) (512 - 32 * n)).all (fun b => b = 0) && cs.all (compOk text) &&
    (List.range 6).all (fun i => (cs.filter (fun c => c.id = i)).length = 1) &&
    (indexed cs).all (fun x => (indexed cs).all (fun y => decide (y.1 ≤ x.1) || apart x.2 y.2))

/-- Step 2 of R475: the header's checks, with `avail` bytes supplied. -/
def imageHeaderCause (f : Nat) (h : List Byte) (avail : Nat) : Nat :=
  let len := leAt h 8 4
  if leAt h 0 4 ≠ 0x494D5254 then cMagic
  else if leAt h 5 1 ≠ 1 || leAt h 6 2 ≠ 0 then cVersion
  else if len % 8 ≠ 0 || decide (len < 2232) || decide (8388608 < len) || decide (avail < len) then cLength
  else if 32 < leAt h 12 4 then cVersion
  else if leAt h 12 4 < f then cRollback
  else if leAt h 24 4 = 0 || leAt h 33 1 / 64 ≠ 0 || !compsOk h (len - 1632) then cComponents
  else cOk

/-- Step 3 of R475: the watermark (R470). -/
def imageMarkCause (f : Fuses) (bs : List Byte) : Nat :=
  let m := leAt bs 8 4 - 1040
  let key := leAt bs (m + 4) 4
  let modulus := slice bs (m + 8) 512
  let exponent := slice bs (m + 520) 4
  if leAt bs m 2 ≠ 0x7FFF || leAt bs (m + 2) 2 ≠ 1040 || decide (3 < key) then cSignature
  else if f.imgKeys.getD key 0 = 0 || bitAt f.imgRevoke key then cRevoked
  else if f.imgKeys.getD key 0 ≠ ofBe (sha512 (modulus ++ exponent)) then cSignature
  else if rsaVerify modulus exponent (slice bs (m + 528) 512) (sha512 (bs.take (m + 528))) then cOk
  else cSignature

/-- Step 4 of R475: the tag (R470). -/
def imageTagOk (f : Fuses) (bs : List Byte) : Bool :=
  let n := leAt bs 8 4 - 1632
  gcmTag (toBe 32 f.productKey.toNat) (slice bs 40 12) (bs.take 576) (slice bs 576 n) = slice bs (576 + n) 16

/-- The plaintext of an image. -/
def imageText (f : Fuses) (bs : List Byte) : List Byte :=
  gcmText (toBe 32 f.productKey.toNat) (slice bs 40 12) (slice bs 576 (leAt bs 8 4 - 1632))

/-- What an image holds once it is checked: its header and the measurements of its components (R475 step 4). -/
def imageOf (f : Fuses) (bs : List Byte) (slot : Nat) : Image :=
  let text := imageText f bs
  { fwver := leAt bs 16 8
    svn := leAt bs 12 4
    finaliser := leAt bs 28 4
    fmt := leAt bs 24 4
    keySlot := leAt bs (leAt bs 8 4 - 1036) 4
    slot := slot
    revoke := leAt bs 33 1
    meas := ((List.range (leAt bs 32 1)).map (fun i =>
      let c := compEnt bs i
      (c.id, ofBe (sha512 (slice text c.off c.size))))) }

/-- Steps 2 to 4 of R475 on the bytes supplied: the image, or its cause. -/
def checkImage (f : Fuses) (bs : List Byte) (avail slot : Nat) : Except Nat Image :=
  let c := imageHeaderCause f.svn bs avail
  if c ≠ cOk then .error c
  else
    let c := imageMarkCause f bs
    if c ≠ cOk then .error c
    else if imageTagOk f bs then .ok (imageOf f bs slot) else .error cTag

/-- Bytes of the boot flash; erased bytes read 0xFF. -/
def State.flashBytes (s : State) (a n : Nat) : List Byte := memRead 0xFF s.mgc.flash a n

/-- Write bytes of the boot flash. -/
def State.setFlash (s : State) (a : Nat) (bs : List Byte) : State :=
  { s with mgc := { s.mgc with flash := memWrite 0xFF s.mgc.flash a bs } }

/-- Where a slot starts (R467). -/
def slotBase (slot : Nat) : Nat := slot * 0x1800000

/-- The bytes of an image that a source can give: the header, and LENGTH bytes when that is in range. -/
def imageRead (read : Nat → Nat → List Byte) : List Byte :=
  let h := read 0 576
  let len := leAt h 8 4
  if 2232 ≤ len && len ≤ 8388608 then read 0 len else h

/-- Load a slot (R475 steps 2 to 4). -/
def State.loadSlot (s : State) (slot : Nat) : Except Nat Image :=
  checkImage s.mgc.fuses (imageRead (fun o n => s.flashBytes (slotBase slot + o) n)) 0x1800000 slot

/-! ### Settings (R483 to R486) -/

/-- SETTINGS_FMT of the running image. -/
def State.fmt (s : State) : Nat :=
  match s.mgc.image with
  | some i => i.fmt
  | none => 0

/-- The SAVEALL entries of the core. -/
def State.settingsSaveall (s : State) : List (Nat × Nat) :=
  match newestCopy s.mgc.settings (fun _ => true) with
  | some c => c.saveall
  | none => []

/-- The copy that a write goes to (R484 to R486): a pending one, one whose FORMAT the firmware does not know, otherwise the
lower GENERATION. -/
def State.settingsTarget (s : State) : Nat :=
  match s.mgc.settings.find? (fun c => c.pendingMig), s.mgc.settings.find? (fun c => s.fmt < c.fmt) with
  | some c, _ => c.copy
  | none, some c => c.copy
  | none, none =>
    match newestCopy s.mgc.settings (fun _ => true) with
    | some c => 1 - c.copy
    | none => 0

/-- Put a settings copy. -/
def State.putSettings (s : State) (c : Settings) : State :=
  { s with mgc := { s.mgc with settings := s.mgc.settings.filter (fun x => x.copy ≠ c.copy) ++ [c] } }

/-- The highest GENERATION of the copies. -/
def State.settingsGen (s : State) : Nat := s.mgc.settings.foldl (fun m c => max m c.gen) 0

/-- The valid SAVEALL entries as the settings record them: 8 × controller + entry, and block (R483). -/
def State.saveallNow (s : State) : List (Nat × Nat) :=
  (List.range 96).filterMap (fun k =>
    if s.rd .MEM_SAVEALL_VALID (k / 8) (k % 8) = 1 then some (k, s.rd .MEM_SAVEALL_BLOCK (k / 8) (k % 8)) else none)

/-- Write the settings (R484), with a SETTINGS record. -/
def State.writeSettings (s : State) (wear minGen : Nat) (pending : Bool) (copy : Nat) : State :=
  let s1 := s.putSettings ⟨copy, s.settingsGen + 1, s.fmt, pending, wear, minGen, s.saveallNow⟩
  let s2 : State := { s1 with mgc := { s1.mgc with migDone := false } }
  s2.appendLog { seq := 0, event := 10, slot := 0, cause := 0, fwver := 0, value := wear, value2 := minGen }

/-- An ordinary write of the settings: PENDING stays until a COMMIT has cleared it (R486). -/
def State.saveSettings (s : State) (wear minGen : Nat) : State :=
  let pend := s.mgc.settings.any (fun c => c.pendingMig) && !s.mgc.migDone
  s.writeSettings wear minGen pend s.settingsTarget

/-- Step 6 of R475: the settings are read; no copy verifies: cause SETTINGS is logged. The body migrates to a newer FORMAT
(R486). -/
def State.readSettings (s : State) : State :=
  let s1 := if s.mgc.settings = [] then s.appendLog (logEv 3 0 cSettings) else s
  let (w, g) := s1.settingsCore
  match newestCopy s1.mgc.settings (fun c => c.fmt ≤ s1.fmt) with
  | some c => if c.fmt < s1.fmt then s1.writeSettings w g true (1 - c.copy) else s1
  | none => s1

/-! ### The furnish store (R31) -/

/-- Where a furnish copy starts. -/
def furnBaseAddr (copy : Nat) : Nat := 0x3000000 + copy * 0x80000

/-- A furnish copy's bytes as a load needs them. -/
def State.furnCopy (s : State) (copy : Nat) : List Byte :=
  let h := s.flashBytes (furnBaseAddr copy) 64
  let len := furnLength h
  if 1104 ≤ len && len ≤ 262144 then s.flashBytes (furnBaseAddr copy) len else h

/-- The copy that ranks first (R31 step 1). -/
def State.furnFirst (s : State) : Nat :=
  let h0 := s.flashBytes (furnBaseAddr 0) 64
  let h1 := s.flashBytes (furnBaseAddr 1) 64
  let ok (h : List Byte) : Bool := leAt h 0 4 = 0x48534E46
  if ok h1 && (!ok h0 || decide (furnGen h0 < furnGen h1)) then 1 else 0

/-- CARD_ID's pins are sampled at a furnish load (R503). -/
def State.sampleCard (s : State) : State :=
  if s.featureOn 0x08 then
    let (n, s1) := s.takeFree
    { s1 with pins := { s1.pins with cardId := maskOf ((List.range 4).filter (fun k => Config.boardLevel (16 * n + 3 + k))) } }
  else s

/-- Both copies failed: the null furnish (R31, R32). -/
def State.nullFurnish (s : State) (e0 e1 : LoadErr) : State :=
  let reason (e : LoadErr) : Nat := e.status / 65536 % 256
  let s1 := s.loadFailed ⟨stFurnish 0x18 (reason e0 * 256 + reason e1), e0.resource, e0.record⟩
  (s1.wr .GLB_FURNISH_STATUS_NULL 1).wr .GLB_FURNISH_STATUS_SOURCE 3

/-- Load the furnish from the store (R31). -/
def State.loadStore (s : State) : State :=
  let a := s.furnFirst
  let minGen := s.settingsCore.2
  let try' (c : Nat) : Except LoadErr (List FRec) := s.readFurnish (s.furnCopy c) 524288 minGen
  let put (c : Nat) (recs : List FRec) : State :=
    let bs := s.furnCopy c
    ((s.installFurnish (bs.take (furnLength bs)) recs c).sampleCard).enablePorts
  match try' a with
  | .ok recs => put a recs
  | .error e0 => match try' (1 - a) with
    | .ok recs => put (1 - a) recs
    | .error e1 => s.nullFurnish e0 e1

/-! ### Starts (R474, R475) -/

/-- MGC_FW_INFO's slot fields and fuses. -/
def State.showFw (s : State) : State :=
  let f := s.mgc.fuses
  let log := s.mgc.log
  let s1 := ((s.wr .MGC_FW_INFO_F f.svn).wr .MGC_FW_INFO_IMG_REVOKE f.imgRevoke).wr .MGC_FW_INFO_FNS_REVOKE f.fnsRevoke
  let s2 := ((s1.wr .MGC_FW_INFO_ACTIVE (activeSlot log)).wr .MGC_FW_INFO_STATE_A (slotState log 0)).wr
    .MGC_FW_INFO_STATE_B (slotState log 1)
  match s.mgc.image with
  | none => s2
  | some i =>
    (((s2.wr .MGC_FW_VERSION_SETTINGS_FMT i.fmt).wr .MGC_FW_VERSION_FINALISER i.finaliser).wr .MGC_FW_VERSION_FWVER
      i.fwver).wr .MGC_FW_INFO_SVN i.svn

/-- Recovery mode (R482). -/
def State.recovery (s : State) : State :=
  let s1 := (s.appendLog (logEv 9 0)).wr .MGC_BOOT_STATUS_STAGE 6
  let s2 : State := { s1 with mgc := { s1.mgc with booted := true, svcState := 1 } }
  s2.showFw

/-- The save-all entries of the settings are inserted at a cold reset (R372, R475 step 6). -/
def State.insertSaveall (s : State) : State :=
  s.settingsSaveall.foldl (fun (s : State) e =>
    (s.wr .MEM_SAVEALL_VALID 1 (e.1 / 8) (e.1 % 8)).wr .MEM_SAVEALL_BLOCK e.2 (e.1 / 8) (e.1 % 8)) s

/-- The last step of a device reset (R262 step 5). -/
def State.devResetDone (s : State) : State :=
  if !s.mgc.devReset then s
  else
    let s1 : State := { s with mgc := { s.mgc with devReset := false } }
    let fns := 0 :: ((List.range 32).filter s.vfEnabled).map (· + 1)
    fns.foldl (fun (s : State) fn => s.msix fn) (s1.wr .GLB_DEVRESET_CTRL_DONE 1)

/-- Steps 5 to 8 of R475 with a checked image; `cold` says that the save-all entries are inserted, `dramOk` that the
controllers trained. Without DRAM no byte of it is addressable. -/
def State.runImage (s : State) (i : Image) (cold dramOk : Bool) : State :=
  let s1 : State := { s with mgc := { s.mgc with image := some i, booted := true, svcState := 0 } }
  let s2 := s1.wr .MEM_DRAM_SIZE_BYTES (if dramOk then s1.pins.dram - 27648 else 0)
  let s3 := (s2.readSettings).wr .MEM_SELFTEST_DONE 1
  let s4 := (if cold then s3.insertSaveall else s3).wr .PWR_WEAR_SECONDS s3.settingsCore.1
  let s5 := s4.wr .PWR_STATUS_WORN (b2n s4.mgc.fuses.peakWorn)
  let s6 := (s5.loadStore).appendLog (logEv 2 i.slot 0 (some i))
  let s7 := ((s6.wr .MGC_BOOT_STATUS_STAGE 5).wr .MGC_BOOT_STATUS_SLOT i.slot).wr .MGC_BOOT_STATUS_TRIAL
    (b2n (i.slot < 2 && slotState s6.mgc.log i.slot = 1))
  let s8 := if s7.mgc.fuses.peakWorn then s7.raiseShared .power (stPwr 0x0B 0) 0 0 0 else s7
  (s8.showFw).devResetDone

/-- Try the candidates in order (R474). -/
def State.tryStarts (s : State) (cold dramOk : Bool) : List Nat → State
  | [] => s.recovery
  | slot :: rest =>
    let s1 := (s.appendLog (logEv 1 slot)).wr .MGC_BOOT_STATUS_TRIES (s.rd .MGC_BOOT_STATUS_TRIES + 1)
    match s1.loadSlot slot with
    | .ok i => s1.runImage i cold dramOk
    | .error c => ((s1.appendLog (logEv 3 slot c)).wr .MGC_BOOT_STATUS_CAUSE c).tryStarts cold dramOk rest

/-- A start that ended before BOOT_OK is logged (R477). -/
def State.logLost (s : State) : State :=
  match s.mgc.log.find? (fun r => r.event = 1 || r.event = 2 || r.event = 3 || r.event = 9) with
  | some r => if r.event = 1 then s.appendLog (logEv 3 r.slot cWatchdog) else s
  | none => s

/-- SWITCH and ABANDON before the attempts (R474). -/
def State.preStart (s : State) : State :=
  let log := s.mgc.log
  let a := activeSlot log
  let s1 := if slotState log a = 2 && decide (3 ≤ activeFails log a) && slotState log (1 - a) = 2 then
      s.appendLog (logEv 8 (1 - a)) else s
  match trialSlot s1.mgc.log with
  | some t => if 3 ≤ trialAttempts s1.mgc.log t then s1.appendLog (logEv 7 t) else s1
  | none => s1

/-- The candidates of R474. -/
def candidates (log : List LogRec) : List Nat :=
  let a := activeSlot log
  let t := trialSlot log
  t.toList ++ [a] ++ (if slotState log (1 - a) = 2 && t ≠ some (1 - a) then [1 - a] else [])

/-- BOOT_START (R474, R475): the start after a reset; a freeze has stopped the ROM's clock (R491). -/
def State.bootStart (s : State) (dramOk : Bool) : State :=
  if s.mgc.booted || !s.live then s
  else
    let cold := s.mgc.starts = 0
    let s1 : State := { s with mgc := { s.mgc with starts := s.mgc.starts + 1 } }
    let s2 := ((s1.wr .MGC_BOOT_STATUS_STARTS (min 255 s1.mgc.starts)).wr .MGC_BOOT_STATUS_SVC_MODE
      (b2n s1.pins.straps.svcMode)).logLost
    if s2.pins.straps.svcMode then s2.recovery
    else
      let s3 := s2.preStart
      s3.tryStarts cold dramOk (candidates s3.mgc.log)

/-- BOOT_START (R475). -/
def execBootStart (dramOk : Bool) (s : State) : Host.Outcome State Fault Refusal := .next (s.bootStart dramOk)

end Sys2Proof.Machine
end

