-- ==== Sys2Proof/Machine/Mailbox.lean ====
section
/-!
DEFINITION. The management controller's mailbox (R86 to R88, R478 to R480, R487 to R490), flash slot writes (R478), the
sending of an image to the other members (R441, R443), and the service port (R481, R482).
-/

namespace Sys2Proof.Machine

/-! ### Requests -/

/-- The MGC as a requester of DRAM: records of the device's own. -/
def mgcAsker : Asker := ⟨.unit, 12, 0⟩

/-- A mailbox command completes (R489). -/
def State.mboxDone (s : State) (cause : Nat) (detail : Nat := 0) : State :=
  ((s.wr .MGC_MBOX_CTRL_PENDING 0).wr .MGC_MBOX_RESULT_CAUSE cause).wr .MGC_MBOX_RESULT_DETAIL (detail % 2 ^ 28)

/-- The MGC reads bytes of the chip's DRAM; none where they are not all addressable or cannot be read. -/
def State.mgcRead (s : State) (a n : Nat) : State × Option (List Byte) :=
  if s.usableRange a n then s.l2Read mgcAsker .wb a n else (s, none)

/-- Run a mailbox command: ignored while one runs (R490), or while the MGC does not run (R475). -/
def State.mbox (s : State) (cmd : Nat) (k : State → State) : State :=
  if s.pfWrites && s.mgc.booted && s.rd .MGC_BOOT_STATUS_STAGE = 5 && s.rd .MGC_MBOX_CTRL_PENDING = 0 then
    k (s.wr .MGC_MBOX_CTRL_CMD cmd) else s

/-- Run a mailbox command with its request record of `n` bytes. -/
def State.mboxRec (s : State) (cmd n : Nat) (k : State → List Byte → State) : State :=
  s.mbox cmd (fun s =>
    let a := s.addrOf .MGC_MBOX_ARG_ADDR
    match s.mgcRead a n with
    | (s1, some r) => k s1 r
    | (s1, none) => s1.mboxDone cRequest)

/-! ### FINALISE (R86 to R88) -/

/-- Write the result record (R87). -/
def State.finResult (s : State) (a result detail size : Nat) : State :=
  (s.physWrite a (toLe 2 result ++ [0, 0] ++ toLe 4 detail ++ toLe 4 size ++ toLe 4 s.finaliser)).mboxDone cOk

/-- Finalise a module whose bytes have been read. -/
def State.finModule (s : State) (bs : List Byte) (out cap res : Nat) : State :=
  match parseModule bs with
  | .error e => s.finResult res e.code.1 e.code.2 0
  | .ok m =>
    let n := imageSize s.finaliser m
    if cap < n then s.finResult res 6 n 0
    else
      let s1 := s.physWrite out (imageBytes s.finaliser m)
      let s2 : State := { s1 with mgc := { s1.mgc with modules := m :: s1.mgc.modules.filter (fun x => x ≠ m) } }
      s2.finResult res 0 0 n

/-- The hand of FINALISE (R86). -/
def State.finalise (s : State) (r : List Byte) : State :=
  let modA := leAt r 0 8
  let out := leAt r 8 8
  let cap := leAt r 16 4
  let res := leAt r 24 8
  if modA % 8 ≠ 0 || out % 4096 ≠ 0 || res % 16 ≠ 0 || leAt r 20 4 ≠ 0 || !s.usableRange res 16 ||
      !s.usableRange modA 32 || !s.usableRange out cap then s.mboxDone cRequest
  else match s.mgcRead modA 32 with
    | (s1, none) => s1.mboxDone cRequest
    | (s1, some h) =>
      let n := 32 + 8 * leAt h 8 4
      match headerErr h with
      | some e => s1.finResult res e.code.1 e.code.2 0
      | none =>
        if !s1.usableRange modA n then s1.finResult res 3 8 0
        else match s1.mgcRead modA n with
          | (s2, none) => s2.mboxDone cRequest
          | (s2, some bs) => s2.finModule bs out cap res

/-- FINALISE (R86). -/
def execFinalise (s : State) : Host.Outcome State Fault Refusal := .next (s.mboxRec 1 32 State.finalise)

/-! ### Slot writes (R478) -/

/-- The activity FLASH with a target (R376): 0 and 1 slots, 2 and 3 furnish copies; ARG says whose write it is: 0 the
mailbox's, 1 an image that was forwarded here, 2 the service port's. -/
def State.startFlash (s : State) (target arg : Nat) : State :=
  { s with maint := { s.maint with running := s.maint.running ++ [⟨8, target, arg⟩] } }

/-- Begin writing a checked image to a slot: ERASE, then the bytes; UPDATE follows the read-back. -/
def State.writeSlot (s : State) (slot arg : Nat) (bs : List Byte) (i : Image) : State :=
  (((s.appendLog (logEv 4 slot 0 (some i))).setFlash (slotBase slot) (bs.take (leAt bs 8 4))).startFlash slot arg).showFw

/-- A slot write or a forwarding runs. -/
def State.flashBusy (s : State) : Bool :=
  s.maint.running.any (fun a => a.act = 8 && a.target < 2) || s.maint.waiting.any (fun a => a.act = 8 && a.target < 2)

/-- The chip runs from a TRIAL slot. -/
def State.onTrial (s : State) : Bool :=
  match s.mgc.image with
  | some i => i.slot < 2 && slotState s.mgc.log i.slot = 1
  | none => false

/-- An image may be staged (R479). -/
def State.stageBusy (s : State) : Bool :=
  s.flashBusy || s.ring.fw.isSome || s.onTrial || slotState s.mgc.log (activeSlot s.mgc.log) ≠ 2

/-- The bytes of the staging area. -/
def State.staged (s : State) (o n : Nat) : List Byte :=
  let a := s.addrOf .FLT_FW_STAGE_ADDR + o
  if s.usableRange a n then s.physBytes a n else []

/-- Check the image in the staging area, with `total` bytes supplied. -/
def State.checkStaged (s : State) (total slot : Nat) : Except Nat Image :=
  checkImage s.mgc.fuses (imageRead s.staged) total slot

/-! ### Forwarding (R441, R443) -/

/-- Chunks that a hop has not answered. -/
def State.chunksOut (s : State) (k : Nat) : Nat :=
  (s.ring.reqs.filter (fun r => leAt r.msg 0 1 = 6 && r.dst = some (s.rd .FLT_PORT_PEER k))).length

/-- The next offset that a port sends. -/
def FwFwd.next (f : FwFwd) (k : Nat) : Nat := if k = 0 then f.nextE else f.nextW
/-- With it moved. -/
def FwFwd.setNext (f : FwFwd) (k v : Nat) : FwFwd := if k = 0 then { f with nextE := v } else { f with nextW := v }

/-- The body of FWCHUNK (R422). -/
def chunkBody (image off total : Nat) (data : List Byte) : List Byte := toLe 4 image ++ toLe 4 off ++ toLe 4 total ++ data

/-- Send chunks from the staging area on a port while fewer than 64 are unanswered (R441); the chip that faces the master
sends none on. -/
def State.fwPump (s : State) (k : Nat) : Nat → State
  | 0 => s
  | fuel + 1 =>
    match s.ring.fw with
    | none => s
    | some f =>
      let off := f.next k
      let n := min 192 (f.total - off)
      if !s.portActive k || s.rd .FLT_PORT_PEER k = s.rd .GLB_FURNISH_STATUS_MASTER || f.got < off + n || n = 0 ||
          decide (64 ≤ s.chunksOut k) then s
      else
        let s1 : State := { s with ring := { s.ring with fw := some (f.setNext k (off + n)) } }
        (s1.feltReqOn k 6 0 (chunkBody f.image off f.total (s.staged off n))).fwPump k fuel

/-- The ports that the master sends an image from: E, and on a line W as well (R441). -/
def State.fwPorts (s : State) : List Nat := if s.ring.brk.isSome then [0, 1] else [0]

/-- Start forwarding the staged image (R441). -/
def State.fwStart (s : State) (total : Nat) : State :=
  let image := s.ring.fwImage + 1
  let s1 : State := { s with ring := { s.ring with fwImage := image, fw := some { image := image, total := total, got := total } } }
  let s2 := (s1.wr .FLT_FW_STATUS_DONE 0).wr .FLT_FW_STATUS_FAILED 0
  s2.fwPorts.foldl (fun (s : State) k => s.fwPump k 64) s2

/-- The ring has other members. -/
def State.ringed (s : State) : Bool :=
  match ringRec s.furn.recs with
  | some r => decide (1 < r.members)
  | none => false

/-- The hand of FW_STAGE (R478, R479). -/
def State.fwStage (s : State) (r : List Byte) : State :=
  let stage := s.addrOf .FLT_FW_STAGE_ADDR
  let total := leAt r 8 4
  if leAt r 12 4 ≠ 0 || leAt r 0 8 ≠ stage || stage = 0 || decide (0x1800000 < total) then s.mboxDone cRequest
  else if s.ringed && !s.isMaster then s.mboxDone cNotMaster
  else if s.stageBusy then s.mboxDone cBusy
  else
    let s1 := if s.ringed && s.otherMembers ≠ [] then s.fwStart total else s
    let slot := 1 - activeSlot s1.mgc.log
    match s1.checkStaged total slot with
    | .error c =>
      let s2 := if s1.ringed then (s1.wr .FLT_FW_STATUS_FAILED (setBit (s1.rd .FLT_FW_STATUS_FAILED) s1.pos)).raiseRing
          (stRing 9 (c * 256 + s1.pos)) else s1
      s2.mboxDone c
    | .ok i => (s1.wr .MGC_MBOX_CTRL_PENDING 1).writeSlot slot 0 (imageRead s1.staged) i

/-- FW_STAGE (R478). -/
def execFwStage (s : State) : Host.Outcome State Fault Refusal := .next (s.mboxRec 2 16 State.fwStage)

/-! ### COMMIT and REVERT (R480) -/

/-- The bits of a mask of width n that are set in neither of two others. -/
def newBits (n have' want : Nat) : Nat := (List.range n).foldl (fun m i =>
  if bitAt want i && !bitAt have' i then setBit m i else m) have'

/-- FW_COMMIT's steps (R480). -/
def State.fwCommit (s : State) : State :=
  match s.mgc.image with
  | none => s.mboxDone cNoTrial
  | some i =>
    if !s.onTrial then s.mboxDone cNoTrial
    else
      let f := s.mgc.fuses
      let s1 := if f.svn < i.svn then
          ({ s with mgc := { s.mgc with fuses := { f with svn := i.svn } } }).appendLog
            { logEv 11 i.slot 0 (some i) with value := i.svn }
        else s
      let rev := clearBit (i.revoke % 16) i.keySlot
      let s2 : State := { s1 with mgc := { s1.mgc with fuses := { s1.mgc.fuses with
        imgRevoke := newBits 4 f.imgRevoke rev
        fnsRevoke := newBits 2 f.fnsRevoke (i.revoke / 16 % 4) } } }
      let s3 := s2.appendLog (logEv 6 i.slot 0 (some i))
      let s4 : State := { s3 with mgc := { s3.mgc with migDone := true } }
      ((s4.wr .MGC_BOOT_STATUS_TRIAL 0).showFw).mboxDone cOk

/-- FW_COMMIT takes ARG = 0 (R489). -/
def execFwCommit (s : State) : Host.Outcome State Fault Refusal :=
  .next (s.mbox 3 (fun s => if s.rd .MGC_MBOX_ARG_ADDR ≠ 0 then s.mboxDone cRequest else s.fwCommit))

/-- FW_REVERT's step (R480). -/
def State.fwRevert (s : State) : State :=
  match trialSlot s.mgc.log with
  | none => s.mboxDone cNoTrial
  | some t => ((s.appendLog (logEv 7 t)).showFw).mboxDone cOk

/-- FW_REVERT (R480). -/
def execFwRevert (s : State) : Host.Outcome State Fault Refusal :=
  .next (s.mbox 4 (fun s => if s.rd .MGC_MBOX_ARG_ADDR ≠ 0 then s.mboxDone cRequest else s.fwRevert))

/-! ### ATTEST and IDENTITY (R487, R488) -/

/-- One measurement entry: ID, 7 bytes 0, digest. -/
def measEntry (id : Nat) (digest : List Byte) : List Byte := toLe 1 id ++ List.replicate 7 0 ++ digest

/-- The measurement entries of a report: the components, the furnish, the ROM. -/
def State.measEntries (s : State) : List (List Byte) :=
  (match s.mgc.image with
    | some i => i.meas.map (fun m => measEntry m.1 (toBe 64 m.2))
    | none => []) ++
  [measEntry 0x40 s.furnMeasure, measEntry 0x41 ((List.range 64).map Config.romByte)]

/-- The report's bytes before the signature (R487). -/
def State.report (s : State) (nonce : List Byte) : List Byte :=
  let es := s.measEntries
  let f := s.mgc.fuses
  let (ver, svn, slot) := match s.mgc.image with
    | some i => (i.fwver, i.svn, i.slot)
    | none => (0, 0, 0)
  let flags := b2n s.onTrial + 2 * b2n s.pins.straps.master + 4 * s.rd .PWR_STATUS_WORN + 8 * s.rd .PWR_STATUS_TRIPPED
  toLe 4 0x54535441 ++ toLe 2 0x0100 ++ toLe 2 es.length ++ toLe 8 ver ++ toLe 4 svn ++ toLe 4 f.svn ++ toLe 1 slot ++
    toLe 1 flags ++ toLe 1 s.pos ++ toLe 1 (f.imgRevoke + 16 * f.fnsRevoke) ++ toLe 4 0 ++ toLe 16 f.deviceId.toNat ++
    nonce ++ toLe 8 (s.rd .GLB_FURNISH_GEN_GENERATION) ++ slice es.flatten 0 1296 ++ toLe 8 0

/-- The hand of ATTEST; the signature's bytes are free values. -/
def State.attest (s : State) (r : List Byte) : State :=
  let out := leAt r 0 8
  if out % 64 ≠ 0 || leAt r 8 4 < 1904 || leAt r 12 4 ≠ 0 || !s.usableRange out 1904 then s.mboxDone cRequest
  else
    let (n, s1) := s.takeFree
    (s1.physWrite out (s.report (slice r 16 32) ++ (List.range 512).map (Config.mgcByte n))).mboxDone cOk

/-- ATTEST (R487). -/
def execAttest (s : State) : Host.Outcome State Fault Refusal := .next (s.mboxRec 5 48 State.attest)

/-- The hand of IDENTITY (R488). -/
def State.identityCmd (s : State) (r : List Byte) : State :=
  let out := leAt r 0 8
  let f := s.mgc.fuses
  let bs := slice f.identity 0 516 ++ toLe 4 0 ++ toLe 4 (min 4096 f.cert.length) ++ toLe 4 0 ++ f.cert.take 4096
  if leAt r 8 4 < 4624 || leAt r 12 4 ≠ 0 || !s.usableRange out bs.length then s.mboxDone cRequest
  else (s.physWrite out bs).mboxDone cOk

/-- IDENTITY (R488). -/
def execIdentity (s : State) : Host.Outcome State Fault Refusal := .next (s.mboxRec 6 16 State.identityCmd)

/-! ### FURNISH_WRITE (R489) -/

/-- Steps 2 to 4 of R31 on a bit-stream. -/
def State.furnWriteErr (s : State) (bs : List Byte) : Option LoadErr :=
  match furnHeaderErr bs bs.length false with
  | some e => some e
  | none =>
    let b := bs.take (furnLength bs)
    match furnMarkErr s.mgc.fuses b with
    | some e => some e
    | none => if furnGen b < s.settingsCore.2 then some (furnErr 5 0) else none

/-- The hand of FURNISH_WRITE: the lower-ranking copy is rewritten; the command completes with the flash write. -/
def State.furnishWrite (s : State) (r : List Byte) : State :=
  let a := leAt r 0 8
  if a % 8 ≠ 0 || 2 ^ 44 ≤ a || 1 < leAt r 8 4 then s.mboxDone cRequest
  else
    let bs := s.loadBytes a
    match (if bs.length < 64 then some (furnErr 3 0) else s.furnWriteErr bs) with
    | some e => s.mboxDone cRequest e.status
    | none =>
      let copy := 1 - s.furnFirst
      ((s.wr .MGC_MBOX_CTRL_PENDING 1).setFlash (furnBaseAddr copy) (bs.take (furnLength bs))).startFlash (2 + copy)
        (16 * (leAt r 8 4 % 2))

/-- FURNISH_WRITE (R489). -/
def execFurnishWrite (s : State) : Host.Outcome State Fault Refusal := .next (s.mboxRec 7 16 State.furnishWrite)

/-! ### The end of a flash write -/

/-- The status that a member reports of an image (R442). -/
def State.fwReport (s : State) (image st : Nat) : State :=
  let m := s.rd .GLB_FURNISH_STATUS_MASTER
  s.feltReq m 7 0 ([0x0E, 0, 0, 0] ++ toLe 4 image ++ toLe 4 st) .ctl

/-- The image of a slot that has been written and read back. -/
def State.slotImage (s : State) (slot : Nat) : Option Image :=
  match s.loadSlot slot with
  | .ok i => some i
  | .error _ => none

/-- The master's own result (R442). -/
def State.fwOwnDone (s : State) : State :=
  if s.ringed && s.isMaster then s.wr .FLT_FW_STATUS_DONE (setBit (s.rd .FLT_FW_STATUS_DONE) s.pos) else s

/-- A flash write is complete (R478, R489): UPDATE and the command or report it serves; a furnish copy may raise the
minimum generation; a download boots. -/
def State.flashDone (s : State) (a : Act) : State :=
  if a.target < 2 then
    let s1 := (s.appendLog (logEv 5 a.target 0 (s.slotImage a.target))).showFw
    if a.arg = 0 then (s1.fwOwnDone).mboxDone cOk
    else if a.arg = 1 then s1.fwReport (match s1.ring.fw with | some f => f.image | none => s1.ring.fwImage) stOk
    else match s1.slotImage a.target with
      | some i => s1.runImage { i with slot := 2 } (s1.mgc.starts = 1) true
      | none => s1
  else
    let g := furnGen (s.flashBytes (furnBaseAddr (a.target - 2)) 64)
    let s1 := if a.arg = 16 then s.saveSettings s.settingsCore.1 g else s
    s1.mboxDone cOk

/-! ### The service port (R481, R482) -/

/-- The service port answers: no reset is held, and no freeze has stopped the MGC's clock (R491, R493). -/
def State.svcLive (s : State) : Bool := s.live

/-- STATUS (R481). -/
def execSvcStatus (s : State) : Host.Outcome State Fault Refusal :=
  .next (if s.svcLive then
    { s with reply := .data (toLe 1 s.mgc.svcState ++ toLe 1 s.mgc.svcCause ++ [0, 0] ++ toLe 4 s.mgc.received) }
  else s)

/-- The records that the log's 64 sectors hold (R472). -/
def State.logHeld (s : State) : List LogRec :=
  match s.mgc.log.head? with
  | some h => s.mgc.log.take (63 * 1024 + h.seq % 1024 + 1)
  | none => []

/-- READ_LOG (R481): a record that is not there reads erased. -/
def execReadLog (n : BitVec 16) (s : State) : Host.Outcome State Fault Refusal :=
  .next (if s.svcLive then
    match s.logHeld[n.toNat]? with
    | some r => { s with reply := .data r.bytes }
    | none => { s with reply := .data (List.replicate 64 0xFF) }
  else s)

/-- The state of the service port. -/
def State.setSvc (s : State) (st cause : Nat) : State := { s with mgc := { s.mgc with svcState := st, svcCause := cause } }

/-- WRITE (R482). -/
def State.svcWrite (s : State) (off : Nat) (bs : List Byte) : State :=
  if 8388608 < off + bs.length then s.setSvc 6 cLength
  else
    let s1 : State := { s with mgc := { s.mgc with
      download := memWrite 0 s.mgc.download off bs
      received := max s.mgc.received (off + bs.length) } }
    s1.setSvc 2 s1.mgc.svcCause

/-- SVC_WRITE (R482). -/
def execSvcWrite (off : BitVec 24) (bytes : List Byte) (s : State) : Host.Outcome State Fault Refusal :=
  .next (if s.svcLive && s.inRecovery && 1 ≤ bytes.length && decide (bytes.length ≤ 4096) then
    s.svcWrite off.toNat bytes else s)

/-- The slot that a download is written to (R482). -/
def svcSlot (log : List LogRec) : Nat :=
  match [0, 1].find? (fun k => slotState log k = 0 || slotState log k = 3) with
  | some k => k
  | none => 1 - activeSlot log

/-- GO (R482). -/
def State.svcGo (s : State) (option : Nat) : State :=
  let read (o n : Nat) : List Byte := memRead 0 s.mgc.download o n
  match checkImage s.mgc.fuses (imageRead read) s.mgc.received 2 with
  | .error c => s.setSvc 6 c
  | .ok i =>
    if option % 2 = 1 then (s.setSvc 4 0).writeSlot (svcSlot s.mgc.log) 2 (imageRead read) i
    else (s.setSvc 5 0).runImage i (s.mgc.starts = 1) true

/-- SVC_GO (R482); option bits [7:1] are 0. -/
def execSvcGo (option : Byte) (s : State) : Host.Outcome State Fault Refusal :=
  .next (if s.svcLive && s.inRecovery && !s.flashBusy then s.svcGo option.toNat else s)

/-- CLEAR (R482). -/
def execClear (s : State) : Host.Outcome State Fault Refusal :=
  .next (if s.svcLive && s.inRecovery then
    ({ s with mgc := { s.mgc with download := [], received := 0 } }).setSvc 1 0
  else s)

end Sys2Proof.Machine
end

