-- ==== Sys2Proof/Machine/Membership.lean ====
section
/-!
DEFINITION. Discovery and membership (R430 to R436, R439, R443): tokens, admission at the master, and the install of a
membership on every chip. A token's entries are kept as (position, flags + 256 × direction).
-/

namespace Sys2Proof.Machine

/-- A message leaves a receive buffer; with the last message of its flit the credit goes back. -/
def State.leaveRx (s : State) (k : Nat) (m : Msg) : State :=
  let f := s.port k
  let rx := f.rx.erase m
  let f1 : FPort := { f with rx := rx }
  if rx.any (fun x => x.flit = m.flit) then s.setPort k f1
  else
    let f2 : FPort := { f1 with owed := f1.owed.modify (2 * m.vc + m.cls) (fun x => x + 1) }
    let s1 := s.setPort k (f2.sendBare 0)
    s1.pump k (s1.port k).tx.length

/-! ### What the tokens found -/

/-- The entries of a direction (0 E, 1 W). -/
def State.tokenList (s : State) (dir : Nat) : List Nat := (s.ring.entries.filter (fun e => e.2 / 256 = dir)).map (·.1)

/-- The positions that the tokens list, and the master's own. -/
def State.reachNow (s : State) : List Nat :=
  (List.range 16).filter (fun n => n = s.pos || s.ring.entries.any (fun e => e.1 = n))

/-- The position is held by more than one chip (R431): listed twice by one token, by both on a line, or the master's own. -/
def State.dupPos (s : State) (n : Nat) : Bool :=
  let e := (s.tokenList 0).count n
  let w := (s.tokenList 1).count n
  decide (2 ≤ e) || decide (2 ≤ w) || (s.ring.brk.isSome && decide (2 ≤ e + w)) || (n = s.pos && decide (1 ≤ e + w))

/-- MEMBERS of the RING record. -/
def State.members (s : State) : Nat :=
  match ringRec s.furn.recs with
  | some r => r.members
  | none => 1

/-- The other reached positions that may be members. -/
def State.candidates (s : State) : List Nat :=
  s.reachNow.filter (fun n => n ≠ s.pos && !s.dupPos n && decide (n < s.members))

/-- POSITION records of a discovery (R431, R445): duplicates, and positions beyond MEMBERS. -/
def State.positionRecords (s : State) : State :=
  s.reachNow.foldl (fun (s : State) n =>
    let s1 := if s.dupPos n then s.raiseRing (stRing 5 n) else s
    if s.members ≤ n && n ≠ s.pos then s1.raiseRing (stRing 5 (16 + n)) else s1) s

/-- The positions that the master admits (R431). -/
def State.admitted (s : State) : Nat :=
  maskOf (s.pos :: s.candidates.filter (fun n => s.ring.measured.contains n &&
    (bitAt (s.rd .FLT_MEMBERS_LIVE) n || s.ring.ready.contains n)))

/-! ### The install of a membership (R432, R433) -/

/-- Requests to a chip end with RING_UNREACHABLE. -/
def State.endUnreachable (s : State) (f : Req → Bool) : State :=
  (s.ring.reqs.filter f).foldl (fun (s : State) r =>
    if s.ring.reqs.any (fun x => x.id = r.id) then s.endReq r (stUnreachable (r.dst.getD 0)) [] else s) s

/-- The chip's own requests leave the send queues; its answers and what it forwards stay, unless their destination is not
live. -/
def State.clearSends (s : State) (live : Nat) : State :=
  { s with ring := { s.ring with ports := s.ring.ports.map (fun e => (e.1, { e.2 with
      tx := e.2.tx.filter (fun m => bitAt live (msgDst m.bytes) && (msgSrc m.bytes ≠ s.pos || leAt m.bytes 0 1 = 8)) })) } }

/-- Forwarded messages that cannot be delivered any more leave the receive buffers. -/
def State.dropForwards (s : State) (live : Nat) : State :=
  [0, 1].foldl (fun (s : State) k =>
    ((s.port k).rx.filter (fun m => msgDst m.bytes ≠ s.pos &&
      (!bitAt live (msgDst m.bytes) || !s.portActive (1 - k)))).foldl (fun (s : State) m => s.leaveRx k m) s) s

/-- Requests whose destination is live are sent again with their tags (R433). -/
def State.resend (s : State) : State :=
  s.ring.reqs.foldl (fun (s : State) r => s.feltQueue (s.routePort (r.dst.getD 0)) (feltVc (leAt r.msg 0 1)) r.msg) s

/-- What the protocols that count members take as acknowledged when a member is gone (R433). -/
def State.settleMembers (s : State) (live : Nat) : State :=
  let s1 := s.settleStops
  let gone := s1.xlt.inval.flatMap (fun e => e.2.waiting.filterMap (fun c => match c with
    | .member m => if bitAt live m then none else some (e.1, c)
    | _ => none))
  let s2 := gone.foldl (fun (s : State) x => s.invalAck x.1 x.2) s1
  match s2.furn.delta with
  | some d => (match (bitIdx 16 (s2.ring.prevLive - (s2.ring.prevLive &&& live))).head? with
    | some m => s2.failDelta d m
    | none => s2.failDelta d (d.waiting.headD s2.pos))
  | none => s2

/-- Install a membership (R432): EPOCH, LIVE and REACH; requests end or are sent again; columns are granted again (R439);
forwarding resumes (R443); one MEMBERSHIP record. -/
def State.installMembers (s : State) (epoch live reach : Nat) : State :=
  let prev := s.rd .FLT_MEMBERS_LIVE
  let me := bitAt live s.pos
  let s1 := (((s.wr .FLT_MEMBERS_LIVE live).wr .FLT_MEMBERS_REACH reach).wr .FLT_STATUS_EPOCH epoch).wr .FLT_STATUS_LIVE (b2n me)
  let s2 := (if me then s1.wr .FLT_STATUS_ORPHAN 0 else s1).wr .FLT_STATUS_CHANGING 0
  let s3 : State := { s2.clearSends live with ring := { (s2.clearSends live).ring with
    prevLive := prev
    measured := s2.ring.measured.filter (bitAt live)
    ready := s2.ring.ready.filter (bitAt live)
    fw := s2.ring.fw.map (fun f => { f with again := f.again || decide (live - (live &&& prev) ≠ 0) }) } }
  let s4 := ((s3.dropForwards live).endUnreachable (fun r => !bitAt live (r.dst.getD 0))).resend
  let s5 := (s4.regrantColumns).settleMembers live
  let s6 := (s5.fwPump 0 64).fwPump 1 64
  let s7 := if !me && bitAt reach s.pos && s.rd .GLB_FURNISH_STATUS_MASTER ≠ s.pos then
      s6.loadFailed (furnErr 0x17 (s.rd .GLB_FURNISH_STATUS_MASTER))
    else s6
  (s7.raiseRing (stRing 2 epoch) prev).pumpAll

/-- The body of MEMBERSHIP after SUB (R423). -/
def memberBody (epoch live reach : Nat) : List Byte := [3, 0, 0, 0] ++ toLe 2 epoch ++ toLe 2 live ++ toLe 2 reach

/-- The master installs a membership and sends it to every reached chip (R432). -/
def State.sendMembership (s : State) : State :=
  let reach := maskOf s.reachNow
  let live := s.admitted
  let epoch := (s.rd .FLT_STATUS_EPOCH + 1) % 65536
  let s1 := (s.reachNow.filter (fun n => n ≠ s.pos)).foldl (fun (s : State) n =>
    s.feltReqBy (s.tokenPort n) n 7 0 (memberBody epoch live reach)) s
  let sent := s1.ring.reqs.filter (fun r => leAt r.msg 0 1 = 7 && leAt r.msg 8 1 = 3)
  let s2 : State := { s1 with ring := { s1.ring with reqs := s1.ring.reqs.filter (fun r => !sent.contains r) } }
  let s3 := s2.installMembers epoch live reach
  { s3 with ring := { s3.ring with reqs := sent ++ s3.ring.reqs } }

/-- Chips that the master waits for before it installs: unanswered measurements and replays (R431, R436). -/
def State.measuring (s : State) : Bool := s.candidates.any (fun n => s.asked n 2 || s.asked n 8)

/-- The master installs when no measurement is outstanding, if anything changes (R430, R431). -/
def State.admitStep (s : State) : State :=
  if !s.isMaster || s.ring.tokens ≠ 0 || s.measuring then s
  else if s.rd .FLT_STATUS_CHANGING = 1 || s.admitted ≠ s.rd .FLT_MEMBERS_LIVE then s.sendMembership
  else s

/-- The tokens have all returned: POSITION records, and MEASURE to the chips not measured yet (R431). -/
def State.tokensDone (s : State) : State :=
  let s1 := s.positionRecords
  (s1.candidates.foldl (fun (s : State) n =>
    if s.ring.measured.contains n || s.asked n 2 || s.asked n 8 then s
    else s.feltReqBy (s.tokenPort n) n 7 0 [2, 0, 0, 0]) s1).admitStep

/-- The body of TOKEN after SUB: direction (0 E, 1 W), entry count, entries of position and flags (R423). -/
def tokenBody (dir : Nat) (es : List (Nat × Nat)) : List Byte :=
  [1, 0, 0, 0] ++ toLe 1 dir ++ toLe 1 es.length ++ es.flatMap (fun e => toLe 1 e.1 ++ toLe 1 e.2)

/-- Discovery starts at the master (R430): CHANGING, and one TOKEN from each ACTIVE port. -/
def State.discover (s : State) : State :=
  let ports := [0, 1].filter s.portActive
  let s1 : State := { s.wr .FLT_STATUS_CHANGING 1 with ring := { s.ring with entries := [], tokens := ports.length, brk := none } }
  if ports = [] then s1.tokensDone
  else ports.foldl (fun (s : State) k => s.feltReqOn k 7 0 (tokenBody k [])) s1

end Sys2Proof.Machine
end

