-- ==== Sys2Proof/Machine/Felt.lean ====
section
/-!
DEFINITION. The felt link layer as a receiver (R413 to R418, R422), forwarding (R426, R427), and the memory, sync and event
requests of other chips (R336, R337, R422 to R425).
-/

namespace Sys2Proof.Machine

/-! ### What a flit carries -/

/-- The header word of a flit. -/
def flitHead (fl : List Byte) : Nat := leAt fl 0 4
/-- SEQ. -/
def flitSeq (fl : List Byte) : Nat := bits (flitHead fl) 31 24
/-- ACK. -/
def flitAck (fl : List Byte) : Nat := bits (flitHead fl) 23 16
/-- The place of the returned credits: 2 VC + class. -/
def flitCredIx (fl : List Byte) : Nat := bits (flitHead fl) 15 13
/-- CREDITS. -/
def flitCredits (fl : List Byte) : Nat := bits (flitHead fl) 12 8
/-- KIND. -/
def flitKind (fl : List Byte) : Nat := bits (flitHead fl) 1 0

/-- The CRC is good (R414). -/
def flitCrcOk (fl : List Byte) : Bool := leAt fl 248 8 = crc64 (fl.take 248)

/-- The messages of a payload (R421, R422); none: a protocol error. `fuel` bounds them. -/
def parseMsgs : Nat → List Byte → Option (List (List Byte))
  | 0, _ => some []
  | fuel + 1, bs =>
    let op := leAt bs 0 1
    if bs.length < 8 || op = 0 then (if bs.all (fun b => b = 0) then some [] else none)
    else
      let n := 8 + 4 * leAt bs 4 1
      if 8 < op || 59 < leAt bs 4 1 || decide (bs.length < n) then none
      else (parseMsgs fuel (bs.drop n)).map (fun r => bs.take n :: r)

/-- The messages of a flit. -/
def flitMsgs (fl : List Byte) : Option (List (List Byte)) :=
  if flitKind fl = 1 then parseMsgs 31 ((fl.drop 4).take 244) else some []

/-! ### Acknowledgements and replays (R415) -/

/-- Drop what the peer has acknowledged. -/
def FPort.acked (f : FPort) (ack : Nat) : FPort :=
  match f.replay.head? with
  | none => f
  | some (first, _) =>
    let n := (ack + 257 - first) % 256
    if 1 ≤ n && decide (n ≤ f.replay.length) then { f with replay := f.replay.drop n, replays := 0 } else f

/-- Take returned credits. -/
def FPort.addCredits (f : FPort) (i n : Nat) : FPort := { f with credits := f.credits.modify i (fun x => x + n) }

/-- What a port loses at a link-down or reset: its buffers, sequence numbers and credits (R411, R417). -/
def FPort.down (f : FPort) : FPort :=
  { everActive := f.everActive, failed := f.failed, wire := f.wire }

/-- The body of LINK_CHANGE after SUB: port, new state, peer position. -/
def linkBody (k st peer : Nat) : List Byte := [5, 0, 0, 0] ++ toLe 1 k ++ toLe 1 st ++ toLe 1 peer

/-- A link of this chip went down or came up: the master discovers again, another chip tells it (R430), whatever is held. -/
def State.linkChanged (s : State) (k : Nat) : State :=
  let m := s.rd .GLB_FURNISH_STATUS_MASTER
  if s.pos = m then s.discover
  else
    let st := s.rd .FLT_PORT_STATE k
    let out := if st = 5 then s.routePort m else 1 - k
    if s.portActive out then s.feltReqBy out m 7 0 (linkBody k st (s.rd .FLT_PORT_PEER k)) else s

/-- A link-down (R417): the record, the buffers, CHANGING, and the port detects again while its pin is high; the master is
told. -/
def State.portDown (s : State) (k cause : Nat) : State :=
  let peer := s.rd .FLT_PORT_PEER k
  let s1 := s.setPort k (s.port k).down
  let s2 := ((s1.wr .FLT_PORT_STATE (s.rd .FLT_PORT_ALIVE k) k).wr .FLT_PORT_WIDTH 0 k).count .FLT_PORT_RETRAINS 1 k
  ((s2.raiseRing (stRing 3 (k * 256 + cause * 16 + peer))).wr .FLT_STATUS_CHANGING 1).linkChanged k

/-- Send every unacknowledged flit again (R415); the eighth replay of one SEQ declares the link down (R417). Answers whether
it did. -/
def State.replayPort (s : State) (k : Nat) : State × Bool :=
  let f := s.port k
  if f.replay = [] then (s, false)
  else if 8 ≤ f.replays + 1 then ((s.count .FLT_PORT_ERR_REPLAYS 1 k).portDown k 1, true)
  else
    let f1 : FPort := { f with replays := f.replays + 1, wire := (f.replay.map (·.2)).reverse ++ f.wire }
    ((s.setPort k f1).count .FLT_PORT_ERR_REPLAYS 1 k, false)

/-- One NAK until an in-order flit arrives (R415). -/
def State.nakPort (s : State) (k : Nat) : State :=
  let f := s.port k
  if f.nakOut then s else s.setPort k { f.sendBare 2 with nakOut := true }

/-! ### Leaving the receive buffer (R418, R427) -/

/-- Send on the messages of a port that are for other chips, in order, while the felt forwarding budget admits them and
the other port is ACTIVE (R427). -/
def State.forward (s : State) (k : Nat) : Nat → State
  | 0 => s
  | fuel + 1 =>
    match (s.port k).rx.find? (fun m => msgDst m.bytes ≠ s.pos) with
    | none => s
    | some m =>
      if !s.portActive (1 - k) || !s.admits 0x26 2 then s
      else
        let s1 := (s.leaveRx k m).count .FLT_TRANSIT_COUNT
        ((s1.charge 0x26 2 4).feltPut (1 - k) m.vc m.cls m.bytes).forward k fuel

/-- Both ports send on what they can. -/
def State.forwardAll (s : State) : State :=
  let s1 := s.forward 0 (s.port 0).rx.length
  s1.forward 1 (s1.port 1).rx.length

/-! ### FLIT_RECEIVE -/

/-- A flit that is no good (R415, R422): counted, and one NAK. -/
def State.badFlit (s : State) (k : Nat) : State := (s.count .FLT_PORT_ERR_CRC 1 k).nakPort k

/-- The messages of an accepted flit enter the receive buffer. -/
def State.acceptFlit (s : State) (k : Nat) (fl : List Byte) (ms : List (List Byte)) : State :=
  let (id, s1) := s.takeId
  let f := s1.port k
  let vc := bits (flitHead fl) 5 4
  let cls := bits (flitHead fl) 6 6
  let f1 : FPort := { f with
    rxSeq := flitSeq fl
    nakOut := false
    rx := f.rx ++ ms.map (fun m => (⟨vc, cls, m, id⟩ : Msg)) }
  let f2 : FPort := if ms = [] then { f1 with owed := f1.owed.modify (2 * vc + cls) (fun x => x + 1) } else f1
  (s1.setPort k (f2.sendBare 0)).forward k ms.length

/-- A flit with a good CRC and payload: its header fields, then what its KIND says (R415). -/
def State.goodFlit (s : State) (k : Nat) (fl : List Byte) (ms : List (List Byte)) : State :=
  let f := ((s.port k).acked (flitAck fl)).addCredits (flitCredIx fl) (flitCredits fl)
  let s1 := s.setPort k f
  let next := (f.rxSeq + 1) % 256
  let late := (f.rxSeq + 256 - flitSeq fl) % 256 < 128
  let s2 :=
    if flitKind fl = 2 then (s1.replayPort k).1
    else if flitKind fl = 1 then
      if flitSeq fl = next then s1.acceptFlit k fl ms
      else if late then s1
      else s1.nakPort k
    else if flitSeq fl = next then s1.setPort k { f with nakOut := false }
    else if late then s1
    else s1.nakPort k
  s2.pump k (s2.port k).tx.length

/-- FLIT_RECEIVE (R415). -/
def State.flitReceive (s : State) (k : Nat) (fl : List Byte) : State :=
  if !s.portActive k || fl.length ≠ 256 then s
  else match flitMsgs fl with
    | none => s.badFlit k
    | some ms => if flitCrcOk fl && flitKind fl ≠ 3 then s.goodFlit k fl ms else s.badFlit k

/-- FLIT_RECEIVE (R415). -/
def execFlitReceive (port : Fin 2) (flit : List Byte) (s : State) : Host.Outcome State Fault Refusal :=
  .next (if s.live then s.flitReceive port flit else s)

/-- ACK_TIMEOUT (R415): every unacknowledged flit is sent again. -/
def execAckTimeout (port : Fin 2) (s : State) : Host.Outcome State Fault Refusal :=
  .next (if s.live && s.portActive port then (s.replayPort port).1 else s)

/-! ### Requests of other chips -/

/-- The next message of a port for this chip that `want` takes: the oldest of its VC (R416). -/
def State.rxHead (s : State) (k : Nat) (want : List Byte → Bool) : Option Msg :=
  let own := (s.port k).rx.filter (fun m => msgDst m.bytes = s.pos)
  [0, 1, 2, 3].findSome? (fun v => match own.find? (fun m => m.vc = v) with
    | some m => if want m.bytes then some m else none
    | none => none)

/-- Take that message and act on it. -/
def State.takeMsg (s : State) (k : Nat) (want : List Byte → Bool) (act : State → List Byte → State) : State :=
  if !s.live then s
  else match s.rxHead k want with
    | some m => act (s.leaveRx k m) m.bytes
    | none => s

/-- The request's opcode. -/
def msgOp (m : List Byte) : Nat := leAt m 0 1
/-- SUB of a RINGCTL message. -/
def msgSub (m : List Byte) : Nat := leAt m 8 1

/-- A request of this source and tag is still being carried out. -/
def State.inProgress (s : State) (src tag : Nat) : Bool :=
  s.sync.waits.any (fun w => w.who = .remote src tag) ||
    s.sync.lockq.any (fun w => w.chip = src && w.tag = tag && src ≠ s.pos) ||
    s.ring.funcs.any (fun r => r.src = src && r.tag = tag) ||
    s.xlt.waits.any (fun w => w.who = .remote src tag)

/-- Perform a request once (R425): a tag among those performed is answered with its recorded completion. -/
def State.serve (s : State) (m : List Byte) (act : State → State) : State :=
  let src := msgSrc m
  let tag := msgTag m
  match s.ring.performed.find? (fun x => x.1 = (src, tag)) with
  | some x =>
    if msgOp m = 1 then act s
    else s.feltQueue (s.routePort src) (if msgOp m ≤ 3 then 1 else feltVc (msgOp m)) x.2
  | none => if s.inProgress src tag then s else act s

/-- Answer a request. -/
def State.replyTo (s : State) (m : List Byte) (st : Nat) (data : List Byte) : State :=
  s.feltCpl (msgOp m) (msgSrc m) (msgTag m) (msgPart m) st data

/-- The felt port as an L2 requester (kind 10). -/
def feltAsker (k p : Nat) : Asker := ⟨if k = 0 then .feltE else .feltW, 10, p⟩

/-- The address and size of a memory request. -/
def msgAddr (m : List Byte) : Nat := leAt m 8 8 % 2 ^ 44
/-- SIZE. -/
def msgSize (m : List Byte) : Nat := leAt m 16 4

/-- BAD_PA for an address that this chip does not have (R337), or none. -/
def State.badPa (s : State) (a n : Nat) : Option Nat :=
  if s.usableRange a n then none
  else some (stXlt 4 0 (if s.dramSize < a + n then 0 else 1))

/-- A request with this address and size lies in one line (R422). -/
def oneLine (a n : Nat) : Bool := 1 ≤ n && decide (a % 128 + n ≤ 128)

/-- RD (R422). -/
def State.serveRd (s : State) (k : Nat) (m : List Byte) : State :=
  let a := msgAddr m
  let n := msgSize m
  if !oneLine a n then s.replyTo m (stXlt 4 0 0) []
  else match s.badPa a n with
    | some st => s.replyTo m st []
    | none => match s.l2Read (feltAsker k (msgPart m)) .wb a n with
      | (s1, some bs) => s1.replyTo m stOk bs
      | (s1, none) => s1.replyTo m (stMem 1 (s1.memDetail a)) []

/-- FELT_RD (R422, R424). -/
def execFeltRd (port : Fin 2) (s : State) : Host.Outcome State Fault Refusal :=
  .next (s.takeMsg port (fun m => msgOp m = 1) (fun s m => s.serve m (fun s => s.serveRd port m)))

/-- WR (R422). -/
def State.serveWr (s : State) (k : Nat) (m : List Byte) : State :=
  let a := msgAddr m
  let n := msgSize m
  if !oneLine a n then s.replyTo m (stXlt 4 0 0) []
  else match s.badPa a n with
    | some st => s.replyTo m st []
    | none => match s.l2Write (feltAsker k (msgPart m)) .wb a (slice m 20 n) with
      | (s1, true) => s1.replyTo m stOk []
      | (s1, false) => s1.replyTo m (stMem 1 (s1.memDetail a)) []

/-- FELT_WR (R422, R424). -/
def execFeltWr (port : Fin 2) (s : State) : Host.Outcome State Fault Refusal :=
  .next (s.takeMsg port (fun m => msgOp m = 2) (fun s m => s.serve m (fun s => s.serveWr port m)))

/-- ATOM (R422). -/
def State.serveAtom (s : State) (k : Nat) (m : List Byte) : State :=
  let a := msgAddr m
  let opn := leAt m 16 4
  let wide := bitAt opn 9
  let n := if wide then 8 else 4
  if a % n ≠ 0 then s.replyTo m (stXlt 4 0 0) []
  else match s.badPa a n with
    | some st => s.replyTo m st []
    | none => match s.l2Atomic (feltAsker k (msgPart m)) .wb (opn % 256) (bitAt opn 8) wide a (leAt m 20 8) (leAt m 28 8) with
      | (s1, some old) => s1.replyTo m stOk (toLe 8 old)
      | (s1, none) => s1.replyTo m (stMem 1 (s1.memDetail a)) []

/-- FELT_ATOM (R422, R424). -/
def execFeltAtom (port : Fin 2) (s : State) : Host.Outcome State Fault Refusal :=
  .next (s.takeMsg port (fun m => msgOp m = 3) (fun s m => s.serve m (fun s => s.serveAtom port m)))

/-- SIGNAL (R422): the sync unit's service of a lane of another chip. -/
def State.serveSignal (s : State) (m : List Byte) : State :=
  let src := msgSrc m
  let tag := msgTag m
  let r : SynReq := ⟨msgPart m, leAt m 10 1, leAt m 8 2, leAt m 12 4, leAt m 16 8, leAt m 24 8, 0, tag⟩
  if r.op = 0xB7 then
    (s.raisePart r.p { kind := 0x02, src := r.p, detail := 2 ^ 31 + r.ident / 2 ^ 5 % 65536, p0 := r.value }).replyTo m stOk
      (toLe 8 0)
  else match s.synServe r (.remote src tag) with
    | (s1, .done st data) => s1.replyTo m st (toLe 8 data)
    | (s1, .waits) => s1
    | (s1, .illegal) => s1.replyTo m (stIllegal r.op) (toLe 8 0)

/-- FELT_SIGNAL (R422). -/
def execFeltSignal (port : Fin 2) (s : State) : Host.Outcome State Fault Refusal :=
  .next (s.takeMsg port (fun m => msgOp m = 4) (fun s m => s.serve m (fun s => s.serveSignal m)))

/-- A record's fields. -/
def evOf (bs : List Byte) : Ev where
  kind := leAt bs 0 1
  src := leAt bs 2 2
  status := leAt bs 8 4
  detail := leAt bs 12 4
  p0 := leAt bs 16 8
  p1 := leAt bs 24 8

/-- EVT (R422): a migration fault waits for its replay; a fault tears its partition down; any other record is posted. -/
def State.serveEvt (s : State) (m : List Byte) : State :=
  let e := evOf (m.drop 8)
  if e.kind = 0x0D then
    s.migFault (.remote (msgSrc m) (msgTag m)) (msgPart m) e.p0 (e.detail / 256 % 16) (e.p1 % 8) (e.detail / 2 ^ 28)
  else if e.kind = 0x0C then (s.tearDownHome (msgPart m) e).replyTo m stOk []
  else (s.raise (s.driverTarget (msgPart m)) e).replyTo m stOk []

/-- FELT_EVT (R422). -/
def execFeltEvt (port : Fin 2) (s : State) : Host.Outcome State Fault Refusal :=
  .next (s.takeMsg port (fun m => msgOp m = 5) (fun s m => s.serve m (fun s => s.serveEvt m)))

end Sys2Proof.Machine
end

