-- ==== Sys2Proof/Machine/Graphs.lean ====
section
/-!
DEFINITION. Stored graphs (R253 to R259): the checks of a node array, versions, GRAPH_PATCH in its three modes,
GRAPH_LAUNCH, and the frames of watched streams (R318, R319).
-/

namespace Sys2Proof.Machine

/-! ### Checks of a version (R254, R255) -/

/-- The commands of a render pass. -/
def isGeoOp (op : Nat) : Bool := op = 0x10 || op = 0x11 || op = 0x12

/-- The previous command of the open render pass before node `i`: a BIN_BEGIN or DRAW that no BIN_END follows. -/
def openPass (nodes : List (List Byte)) (i : Nat) : Option Nat :=
  (List.range i).foldl (fun last j =>
    let op := leAt (nodes.getD j []) 0 1
    if op = 0x10 || op = 0x11 then some j else if op = 0x12 then none else last) none

/-- Node `i` obeys R254 and R255. -/
def nodeOk (nodes : List (List Byte)) (i : Nat) : Bool :=
  let n := nodes.getD i []
  let (op, len, flags) := headerOf (leAt n 0 4)
  let preds := nodePreds n
  lengthOk op len = some true && decide (len ≤ 8) && !(op = 0x00 || op = 0x03 || op = 0x04 || op = 0x05) &&
    packetErr op flags (wordsOf n len) = none && preds.all (fun j => decide (j < i)) &&
    (List.range 7).all (fun k => decide (leAt n (40 + k) 1 < 64) || leAt n (40 + k) 1 = 0xFF) && leAt n 47 17 = 0 &&
    (if op = 0x11 || op = 0x12 then (match openPass nodes i with
      | some j => preds.contains j
      | none => false)
    else true)

/-- The lowest node that fails a check. -/
def badNode (nodes : List (List Byte)) : Option Nat := (List.range nodes.length).find? (fun i => !nodeOk nodes i)

/-! ### Versions (R257, R258) -/

/-- The live versions of a graph, oldest first. -/
def State.liveVersions (s : State) (p graph : Nat) : List GraphVer :=
  s.hb.versions.filter (fun v => v.p = p && v.graph = graph)

/-- The current version of a graph. -/
def State.currentVersion (s : State) (p graph : Nat) : Option GraphVer :=
  (s.liveVersions p graph).find? (·.current)

/-- Bytes of node arrays that partition p's store holds. -/
def State.storeUsed (s : State) (p : Nat) : Nat :=
  ((s.hb.versions.filter (fun v => v.p = p)).map (fun v => 64 * v.nodes.length)).sum

/-- Bytes for node arrays in the store: its size less the graph table (R253). -/
def State.storeRoom (s : State) (p : Nat) : Nat := s.rd .HB_GRAPH_SIZE_UNITS p * 65536 - 16384

/-- A patch that would create a fifth live version waits for the oldest one to retire (R258): the version it waits for is
kept in the command. -/
def State.patchWaits (s : State) (c : Cmd) (graph : Nat) : Option Nat :=
  let live := s.liveVersions c.p graph
  if c.progress ≠ 0 && live.any (fun v => v.ver + 1 = c.progress) then some c.progress
  else if c.progress = 0 && decide (4 ≤ live.length) then (live.head?).map (fun v => v.ver + 1)
  else none

/-- Commit a version (R257): the store's own bytes change to values the spec keeps internal (R253), the new version is
current, and an older one retires when nothing is bound to it. -/
def State.commitVersion (s : State) (c : Cmd) (graph : Nat) (nodes : List (List Byte)) : State :=
  let store := s.addrOf .HB_GRAPH_STORE_ADDR c.p
  let off := store + 16384 + s.storeUsed c.p
  let (k, s0) := s.takeFree
  let bytes (n from' : Nat) : List Byte := (List.range n).map (fun i => Config.internalByte k (from' + i))
  match s0.footprints (headboxAsker c.p) (.cmd c.id) c.p [(store + 64 * graph, 64, rightW), (off, 64 * nodes.length, rightW)] with
  | (s1, .error f) => s1.cmdFail c f
  | (s1, .ok _) =>
    let s2 := (s1.vWrite (headboxAsker c.p) (.cmd c.id) c.p (store + 64 * graph) (bytes 64 0)).1
    let s3 := (s2.vWrite (headboxAsker c.p) (.cmd c.id) c.p off (bytes (64 * nodes.length) 64)).1
    let ver := match (s3.liveVersions c.p graph).getLast? with
      | some v => (v.ver + 1) % 2 ^ 32
      | none => 1
    let old := s3.hb.versions.map (fun v => if v.p = c.p && v.graph = graph then { v with current := false } else v)
    let s4 : State := { s3 with hb := { s3.hb with versions := old ++ [⟨c.p, graph, ver, true, nodes⟩] } }
    s4.retireVersions.handDone c.id stOk

/-- A version that has been built is checked and committed, refused, or waits (R255, R257, R258). -/
def State.offerVersion (s : State) (c : Cmd) (graph : Nat) (nodes : List (List Byte)) : State :=
  match badNode nodes with
  | some i => s.handDone c.id (stCmd 0x23 i)
  | none =>
    match s.patchWaits c graph with
    | some v => s.modCmd c.id (fun x => { x with progress := v })
    | none =>
      if s.storeRoom c.p < s.storeUsed c.p + 64 * nodes.length then s.handDone c.id (stCmd 0x22 graph)
      else s.commitVersion c graph nodes

/-- Chunks of n bytes. -/
def chunksOf (n : Nat) : Nat → List Byte → List (List Byte)
  | 0, _ => []
  | k + 1, bs => bs.take n :: chunksOf n k (bs.drop n)

/-- The hand-off of a GRAPH_PATCH REPLACE (R255). A COUNT outside 1 to 4,096 names the first node that is missing or too
many. -/
def State.patchReplace (s : State) (c : Cmd) : State :=
  let graph := c.word 1 % 256
  let count := c.word 4
  if s.rd .HB_GRAPH_SIZE_UNITS c.p = 0 then s.handDone c.id (stCmd 0x22 graph)
  else if count = 0 || decide (4096 < count) then s.handDone c.id (stCmd 0x23 (min count 4096))
  else match s.vRead (headboxAsker c.p) (.cmd c.id) c.p (c.dword 2) (64 * count) with
    | (s1, .error f) => s1.cmdFail c f
    | (s1, .ok bs) => s1.offerVersion c graph (chunksOf 64 count bs)

/-- GRAPH_PATCH_REPLACE (R255). -/
def execGraphPatchReplace (cmd : CmdRef) (s : State) : Host.Outcome State Fault Refusal :=
  .next (s.withCmd cmd (fun c => c.op = 0x04 && patchMode c.words = 0) State.patchReplace)

/-- Apply the entries of an EDIT in order (R256): the nodes, or the index of an entry out of range. -/
def applyEdits (nodes : List (List Byte)) : List (List Byte) → Nat → Except Nat (List (List Byte))
  | [], _ => .ok nodes
  | e :: es, i =>
    let n := leAt e 0 2
    let k := leAt e 2 2
    if nodes.length ≤ n || k = 0 || decide (7 < k) then .error i
    else applyEdits (nodes.modify n (fun b => mergeBytes b (4 * k) (slice e 4 4))) es (i + 1)

/-- The hand-off of a GRAPH_PATCH EDIT (R256). -/
def State.patchEdit (s : State) (c : Cmd) : State :=
  let graph := c.word 1 % 256
  let count := c.word 4
  if s.rd .HB_GRAPH_SIZE_UNITS c.p = 0 then s.handDone c.id (stCmd 0x22 graph)
  else match s.currentVersion c.p graph with
    | none => s.handDone c.id (stCmd 0x21 graph)
    | some v =>
      if count = 0 || decide (65536 < count) then s.handDone c.id (stCmd 0x24 (min count 0xFFFF))
      else match s.vRead (headboxAsker c.p) (.cmd c.id) c.p (c.dword 2) (8 * count) with
        | (s1, .error f) => s1.cmdFail c f
        | (s1, .ok bs) =>
          match applyEdits v.nodes (chunksOf 8 count bs) 0 with
          | .error i => s1.handDone c.id (stCmd 0x24 (min i 0xFFFF))
          | .ok nodes => s1.offerVersion c graph nodes

/-- GRAPH_PATCH_EDIT (R256). -/
def execGraphPatchEdit (cmd : CmdRef) (s : State) : Host.Outcome State Fault Refusal :=
  .next (s.withCmd cmd (fun c => c.op = 0x04 && patchMode c.words = 1) State.patchEdit)

/-- The hand-off of a GRAPH_PATCH DELETE (R256): the graph has no current version any more. -/
def State.patchDelete (s : State) (c : Cmd) : State :=
  let graph := c.word 1 % 256
  if s.rd .HB_GRAPH_SIZE_UNITS c.p = 0 then s.handDone c.id (stCmd 0x22 graph)
  else
    let vs := s.hb.versions.map (fun v => if v.p = c.p && v.graph = graph then { v with current := false } else v)
    ({ s with hb := { s.hb with versions := vs } }).retireVersions.handDone c.id stOk

/-- GRAPH_PATCH_DELETE (R256). -/
def execGraphPatchDelete (cmd : CmdRef) (s : State) : Host.Outcome State Fault Refusal :=
  .next (s.withCmd cmd (fun c => c.op = 0x04 && patchMode c.words = 2) State.patchDelete)

/-! ### Launching a graph (R257, R259, R319) -/

/-- The enabled stream entry that watches a graph launch (R318, R319). -/
def State.watchedBy (s : State) (p q graph : Nat) : Option Nat :=
  (List.range 64).find? (fun e => s.rd .SCH_DL_CFG_EN e = 1 && s.rd .SCH_DL_CFG_PART e = p &&
    s.rd .SCH_DL_CFG_QUEUE e = q && s.rd .SCH_DL_CFG_MAIN e = graph)

/-- The hand-off of a GRAPH_LAUNCH: a watched entry in FALLBACK launches its FALLBACK graph (R319); the current version is
bound, and its nodes wait to be sequenced; without one the launch completes with NO_GRAPH. -/
def State.graphLaunchCmd (s : State) (c : Cmd) : State :=
  let graph0 := c.word 1 % 256
  let entry := s.watchedBy c.p c.q graph0
  let fallback : Bool := match entry with
    | some e => s.rd .SCH_DL_STATE_FALLBACK e = 1
    | none => false
  let graph := match entry with
    | some e => if fallback then s.rd .SCH_DL_CFG_FALLBACK e else graph0
    | none => graph0
  let (run, s1) := s.takeId
  let ver := s1.currentVersion c.p graph
  let nodes : List RunNode := match ver with
    | some v => v.nodes.map (fun b => { bytes := b, phase := .fetched, status := 0 })
    | none => []
  let vnum := match ver with
    | some v => v.ver
    | none => 0
  let r : GraphRun := ⟨run, c.id, c.p, c.q, graph, vnum, c.dword 2, nodes⟩
  let s2 : State := { s1 with hb := { s1.hb with runs := s1.hb.runs ++ [r] } }
  let s3 : State := match entry with
    | some e =>
      let (fid, s') := s2.takeId
      { s' with sched := { s'.sched with frames := s'.sched.frames ++ [(⟨fid, e, run, fallback, false⟩ : Frame)] } }
    | none => s2
  match ver with
  | some _ => s3.hand c.id
  | none => s3.handDone c.id (stCmd 0x21 graph)

/-- GRAPH_LAUNCH (R259). -/
def execGraphLaunch (cmd : CmdRef) (s : State) : Host.Outcome State Fault Refusal :=
  .next (s.withCmd cmd (fun c => c.op = 0x03) State.graphLaunchCmd)

/-- The blocks that a LAUNCH node's descriptor names, when it can be read; otherwise 1. -/
def State.nodeGrid (s : State) (r : GraphRun) (n : RunNode) : Nat :=
  let arg (k : Nat) : Nat :=
    let a := leAt n.bytes (40 + k - 1) 1
    if a = 0xFF then leAt n.bytes (4 * k) 4
    else match s.vBytes r.p (r.args + 4 * a) 4 with
      | some bs => ofLe bs
      | none => 0
  match s.vBytes r.p (arg 1 + arg 2 * 2 ^ 32) 128 with
  | some d => leAt d 20 4 * leAt d 24 4 * leAt d 28 4
  | none => 1

/-- Tiles of one node (R320): (done, total). A LAUNCH node counts its blocks, a GATED_LAUNCH node 1 until its scan ends
and then its blocks, every other node 1; all are done when the node completes. -/
def State.nodeTiles (s : State) (r : GraphRun) (i : Nat) (n : RunNode) : Nat × Nat :=
  let total := if n.tiles ≠ 0 then n.tiles else if leAt n.bytes 0 1 = 0x01 then s.nodeGrid r n else 1
  let mine (l : Launch) : Bool := match l.cmdId with
    | some c => (match s.cmd c with
      | some x => x.node = some (r.id, i)
      | none => false)
    | none => false
  if n.phase = .done then (total, total)
  else match s.launches.find? (fun e => mine e.2) with
    | some (_, l) => (if s.spanning l.p then l.retired * l.gz else l.retired, total)
    | none => (0, total)

/-- Tiles of a frame (R320): (done, total). -/
def State.frameTiles (s : State) (r : GraphRun) : Nat × Nat :=
  (indexed r.nodes).foldl (fun a e =>
    let x := s.nodeTiles r e.1 e.2
    (a.1 + x.1, a.2 + x.2)) (0, 0)

end Sys2Proof.Machine
end

