-- ==== Sys2Proof/Machine/Sched.lean ====
section
/-!
DEFINITION. The scheduler (R306 to R313): pool grants, slices, the end of a block's save; the deadline monitor (R318 to R322);
lending for a display deadline (R323); the reload of the stuff boxes (R326, R327).
-/

namespace Sys2Proof.Machine

/-! ### The pool (R306 to R308) -/

/-- A pooled vat that a grant can take: no block, not lent, and not held already for a partition that waits. -/
def State.grantable (s : State) (n : Nat) : Bool :=
  s.poolFree n && (match (s.vat n).holder with
    | some h => !s.sched.waiting.contains h
    | none => true)

/-- The waiting partition to be served (R306): highest PRIO, then the longest wait, then the lower number. -/
def State.nextWaiting (s : State) : Option Nat :=
  let top := s.sched.waiting.foldl (fun m p => max m (s.prio p)) 0
  s.sched.waiting.find? (fun p => s.prio p = top)

/-- POOL_GRANT (R306): the lowest free pooled vat goes to the partition that is served first. -/
def State.poolGrant (s : State) : State :=
  let s1 := s.poolStep
  match s1.pooledVats.find? s1.grantable, s1.nextWaiting with
  | some n, some p => s1.setVat n { s1.vat n with holder := some p }
  | _, _ => s1

/-- POOL_GRANT (R306). -/
def execPoolGrant (s : State) : Host.Outcome State Fault Refusal := .next (if s.live then s.poolGrant else s)

/-- The pooled vats that a partition holds. -/
def State.heldVats (s : State) (p : Nat) : List Nat := s.pooledVats.filter (fun n => (s.vat n).holder = some p)

/-- SLICE_EXPIRY (R308): the counter runs while a pooled partition of equal PRIO waits. -/
def State.sliceExpiry (s : State) (p : Nat) : State :=
  let s1 := s.updateWaiting
  if s1.rd .SCH_POOL_SLICE_UNITS ≠ 0 && s1.sched.waiting.any (fun w => w ≠ p && s1.prio w = s1.prio p) then
    (s1.heldVats p).foldl (fun (s : State) n => s.preempt n p) s1
  else s1

/-- SLICE_EXPIRY (R308). -/
def execSliceExpiry (p : Fin 32) (s : State) : Host.Outcome State Fault Refusal :=
  .next (if s.live then s.sliceExpiry p else s)

/-! ### The save of a block (R309 to R311) -/

/-- The quires of a block in quire order, with their slots. -/
def Vat.ordered (v : Vat) (b : Nat) : List (Nat × Quire) :=
  (List.range 32).filterMap (fun i => v.quires.find? (fun e => e.2.block = b && e.2.idx = i))

/-- The v registers outside a live mask read 0 after a restore (R121). -/
def deadRegs (mask n : Nat) (v : List (Nat × Word)) : List (Nat × Word) :=
  ((List.range n).filter (fun r => !bitAt mask (r / 4))).foldl (fun (m : List (Nat × Word)) r =>
    (List.range 32).foldl (fun (m : List (Nat × Word)) lane => storePut (32 * r + lane) 0 m) m) v

/-- What a save keeps of a block (R121, R168, R310): the quires without dead registers, their sets in handle order, acquisition
requests, waits and locks; places are quire numbers. -/
def State.savedOf (s : State) (vat : Nat) (blk : Block) (l : Launch) (addr : Nat) (qs : List (Nat × Quire)) : Saved :=
  let v := s.vat vat
  let at' (slot : Nat) : Nat := ((qs.find? (fun e => e.1 = slot)).map (fun e => e.2.idx)).getD 0
  let mine (slot : Nat) : Bool := qs.any (fun e => e.1 = slot)
  let live (q : Quire) : Quire := match q.savedLive with
    | some mask => { q with v := deadRegs mask l.vregs q.v }
    | none => q
  { p := l.p
    addr := addr
    size := l.saveSize
    block := blk
    quires := qs.map (fun e => live e.2)
    sets := qs.flatMap (fun e => (List.range 8).filterMap (fun h =>
      (v.sets.find? (fun x => x.2.owner = some (e.1, h))).map (fun x =>
        (x.1, { x.2 with owner := some (e.2.idx, h) }))))
    pendingAcq := (v.acqq.filter (fun a => mine a.slot)).map (fun a => { a with slot := at' a.slot })
    waits := s.sync.waits.filterMap (fun w => match w.who with
      | .lane n slot lane dst =>
        if n = vat && mine slot then some { w with who := .lane n (at' slot) lane dst } else none
      | _ => none)
    locks := qs.flatMap (fun e => (s.ownedLocks vat e.1).map (fun h =>
      (h, 32 * e.2.idx + ((s.lockOwner h).getD 0) % 32))) }

/-- The tile of a saved fragment block leaves the vat with it (R201), unless other blocks of the launch stay. -/
def State.detachTile (s : State) (vat launch : Nat) : State :=
  match s.tileOf launch with
  | some (x, t) =>
    if t.vat = some vat && !(s.vat vat).blocks.any (fun b => b.2.launch = launch) then s.setPass (x.setTile { t with vat := none })
    else s
  | none => s

/-- A pooled vat without blocks and tiles is held by no partition. -/
def State.freeVat (s : State) (vat : Nat) : State :=
  if (s.vat vat).blocks.isEmpty && !s.anyTile vat then (s.setVat vat { s.vat vat with holder := none }).returnLent else s

/-- The block leaves the vat (R309 step 5): its place in the queue of saved blocks is the last, and its locks' owners are
marked as saved. -/
def State.leaveVat (s : State) (vat b : Nat) (x : Saved) (qs : List (Nat × Quire)) : State :=
  let s1 := qs.foldl (fun (s : State) e => s.moveOwner vat e.1 (savedVat x.p x.addr) e.2.idx) s
  let s2 := x.locks.foldl (fun (s : State) k =>
    s.wr .SYN_OBJ_AUX (s.rd .SYN_OBJ_AUX k.1 + 2 ^ 40) k.1) s1
  let s3 : State := { s2 with sched := { s2.sched with saved := s2.sched.saved ++ [x] } }
  (((s3.removeBlock vat b).detachTile vat x.block.launch).settlePreempt vat).freeVat vat |>.poolStep

/-- The scheduler as a requester, with its writes at the vat's port. -/
def saveAsker (vat p : Nat) : Asker := ⟨.vat (Fin.ofNat 64 vat), 7, p⟩

/-- BLOCK_SAVE_DONE (R309 to R311): the slot takes internal bytes; an unmapped save page is handled as an unmapped access. -/
def State.saveDone (s : State) (vat b : Nat) : State :=
  match s.block vat b with
  | none => s
  | some blk =>
    match blk.saving, s.launch blk.launch with
    | some addr, some l =>
      let qs := (s.vat vat).ordered b
      let (n, s0) := s.takeFree
      match s0.vWrite (saveAsker vat l.p) (.launch blk.launch) l.p addr
          ((List.range l.saveSize).map (Config.internalByte n)) with
      | (s1, .error f) => s1.failTile l.p vat l.tag f
      | (s1, .ok _) => s1.leaveVat vat b (s1.savedOf vat { blk with saving := none } l addr qs) qs
    | _, _ => s

/-- BLOCK_SAVE_DONE (R309). -/
def execBlockSaveDone (vat : Fin 64) (block : Fin 64) (s : State) : Host.Outcome State Fault Refusal :=
  .next (if s.live then s.saveDone vat block else s)

/-! ### The deadline monitor (R318 to R322) -/

/-- An enabled entry names the same partition, queue and MAIN graph (R318). -/
def State.dlTwin (s : State) (e : Nat) : Bool :=
  (List.range 64).any (fun k => k ≠ e && s.rd .SCH_DL_CFG_EN k = 1 && s.rd .SCH_DL_CFG_PART k = s.rd .SCH_DL_CFG_PART e &&
    s.rd .SCH_DL_CFG_QUEUE k = s.rd .SCH_DL_CFG_QUEUE e && s.rd .SCH_DL_CFG_MAIN k = s.rd .SCH_DL_CFG_MAIN e)

/-- Set or clear EN of a stream entry (R318, R320): a twin, or a CHECK that is not below BUDGET, leaves EN at 0; clearing it
returns the entry to MAIN and forgets its frames. -/
def State.dlEnable (s : State) (e : Nat) (en : Bool) : State :=
  if en then
    if s.dlTwin e || decide (s.rd .SCH_DL_CFG_BUDGET e ≤ s.rd .SCH_DL_CFG_CHECK e) then s else s.wr .SCH_DL_CFG_EN 1 e
  else
    let s1 := ((s.wr .SCH_DL_CFG_EN 0 e).wr .SCH_DL_STATE_FALLBACK 0 e).wr .SCH_DL_STATE_ONTIME 0 e
    { s1 with sched := { s1.sched with frames := s1.sched.frames.filter (fun f => f.entry ≠ e) } }

/-- DL_ENTRY_ENABLE (R318). -/
def execDlEntryEnable (entry : Fin 64) (en : Bool) (s : State) : Host.Outcome State Fault Refusal :=
  .next (if s.pfWrites then s.dlEnable entry en else s)

/-- The nodes of a behind frame that are not sequenced complete with SKIPPED, detail 0xFFFF (R321). -/
def State.abortFrame (s : State) (run : Nat) : State :=
  (s.modRun run (fun r => { r with nodes := r.nodes.map (fun n =>
    if n.phase = .fetched then { n with phase := .done, status := stCmd 0x25 0xFFFF } else n) })).runCheck run

/-- A frame is behind at its checkpoint (R321). -/
def State.frameBehind (s : State) (fr : Frame) : State :=
  let s1 := ((s.wr .SCH_DL_STATE_FALLBACK 1 fr.entry).wr .SCH_DL_STATE_ONTIME 0 fr.entry).count .SCH_DL_STATE_BEHIND 1
    fr.entry
  if s.rd .SCH_DL_CFG_ABORT fr.entry = 1 then s1.abortFrame fr.run else s1

/-- A frame's CHECK cycles are over (R320): `frame` is its number among the entry's frames in flight, oldest 0. -/
def State.dlCheckpoint (s : State) (e frame : Nat) : State :=
  match (s.sched.frames.filter (fun f => f.entry = e))[frame]? with
  | none => s
  | some fr =>
    if fr.checked then s
    else
      let s1 : State := { s with sched := { s.sched with frames := s.sched.frames.map (fun f =>
        if f.id = fr.id then { f with checked := true } else f) } }
      match s1.hb.runs.find? (fun r => r.id = fr.run) with
      | none => s1
      | some r =>
        let (done, total) := s1.frameTiles r
        if done * 256 < s1.rd .SCH_DL_CFG_THRESH e * total then s1.frameBehind fr else s1

/-- DL_CHECKPOINT (R320). -/
def execDlCheckpoint (entry : Fin 64) (frame : Nat) (s : State) : Host.Outcome State Fault Refusal :=
  .next (if s.live then s.dlCheckpoint entry frame else s)

/-! ### Lending (R323) -/

/-- The pooled vats in the order of R323: free ones first, then by the holder's PRIO, lowest first, the higher index first
among equals. -/
def State.lendOrder (s : State) : List Nat :=
  let cands := (s.pooledVats.filter (fun n => !(s.vat n).lent && !s.sched.chosen.contains n)).reverse
  let rank (n : Nat) : Nat := if s.poolFree n then 0 else match (s.vat n).holder with
    | some h => 1 + s.prio h
    | none => 1
  (List.range 258).flatMap (fun r => cands.filter (fun n => rank n = r))

/-- A deadline request (R323): vats are chosen up to LEND, those that are held are pre-empted, and free ones are lent. -/
def State.deadlineRequest (s : State) : State :=
  let lend := min 64 (s.rd .SCH_DEADLINE_LEND)
  if lend = 0 || s.pooledVats = [] then s.count .SCH_DEADLINE_NOLEND
  else
    let now := (s.pooledVats.filter (fun n => (s.vat n).lent)).length + s.sched.chosen.length
    let pick := s.lendOrder.take (lend - now)
    let s1 := pick.foldl (fun (s : State) n => match (s.vat n).holder with
      | some h => if s.poolFree n then s else s.preempt n h
      | none => s) s
    ({ s1 with sched := { s1.sched with chosen := s1.sched.chosen ++ pick } }).lendChosen

/-! ### Stuff boxes (R326, R327) -/

/-- The credit of an activity's resource at the start of a period (R326). -/
def State.reload (s : State) (a r : Nat) : State :=
  let (credit, limit) := budgetFields r
  if s.unlimited a r then s
  else s.wr credit (min 0xFFFFFFFE (s.rd limit a + min (s.rd credit a) (s.rd limit a))) a

/-- STUFF_BOX_PERIOD (R326, R327): every credit reloads, and what was held goes on. -/
def State.stuffPeriod (s : State) : State :=
  let s1 := (List.range 40).foldl (fun (s : State) a =>
    (((s.reload a 0).reload a 1).reload a 2).reload a 3) s
  let s2 := (List.range 32).foldl (fun (s : State) p => s.geoStep p) ({ s1 with sched := { s1.sched with taken := [] } })
  s2.forwardAll.pumpAll

/-- STUFF_BOX_PERIOD (R326). -/
def execStuffBoxPeriod (s : State) : Host.Outcome State Fault Refusal := .next (if s.live then s.stuffPeriod else s)

end Sys2Proof.Machine
end

