-- ==== Sys2Proof/Machine/Calender.lean ====
section
/-!
DEFINITION. The calender (R208 to R215): arming and latching planes, the wall fence, held frames, the deadline lead, link
training and hot plug, scan-out failures, and the composition of a pixel.
-/

namespace Sys2Proof.Machine

/-- Head h runs. -/
def State.headRuns (s : State) (h : Nat) : Bool := s.funcState (32 + h) = fnRunning

/-- Post a record of the calender to the calender partition's driver (R292, R295). -/
def State.raiseCal (s : State) (e : Ev) : State :=
  match s.calPart with
  | some p => s.raisePart p e
  | none => s.raise 32 e

/-- Function `fn` writes the calender's registers: the PF, or the calender partition's VF (R223, R224). -/
def State.calWrites (s : State) (fn : Nat) : Bool :=
  s.pfWrites && fn = 0 || (match s.calPart with
    | some p => fn = p + 1 && s.mayWrite fn p
    | none => false)

/-! ### Arming (R211, R212, R214) -/

/-- A scale factor lies in 1/4 to 4. -/
def scaleOk (src dst : Nat) : Bool := src ≠ 0 && dst ≠ 0 && decide (src ≤ 4 * dst) && decide (dst ≤ 4 * src)

/-- A plane's format, destination and scale are ones that the head takes (R212). -/
def State.planeOk (s : State) (h k : Nat) : Bool :=
  s.rd .CAL_PLANE_CTRL_FMT h k ≠ 3 &&
    decide (s.rd .CAL_PLANE_DST_X h k + s.rd .CAL_PLANE_DST_W h k ≤ s.rd .CAL_TIMING_HACTIVE h) &&
    decide (s.rd .CAL_PLANE_DST_Y h k + s.rd .CAL_PLANE_DST_H h k ≤ s.rd .CAL_TIMING_VACTIVE h) &&
    scaleOk (s.rd .CAL_PLANE_SRC_W h k) (s.rd .CAL_PLANE_DST_W h k) &&
    scaleOk (s.rd .CAL_PLANE_SRC_H h k) (s.rd .CAL_PLANE_DST_H h k)

/-- The plane is scaled. -/
def State.planeScaled (s : State) (h k : Nat) : Bool :=
  s.rd .CAL_PLANE_SRC_W h k ≠ s.rd .CAL_PLANE_DST_W h k || s.rd .CAL_PLANE_SRC_H h k ≠ s.rd .CAL_PLANE_DST_H h k

/-- What CAL_RESULT holds when a scaled plane of head 1 finds SCALER_LS not held by CAL_SCALE1 (R44, R47, R212). -/
def State.scalerStatus (s : State) : Nat :=
  match s.heldBy (featureRes 0x0A) (fun _ => true) with
  | some x => busyOf x
  | none => stFurnish 0x0B (0x0A * 256)

/-- The wall object of a head can be waited on (R214): a FENCE that the calender partition owns or holds by EXPORT, neither
FREE nor DESTROYING. -/
def State.wallOk (s : State) (h : Nat) : Bool :=
  let o := s.rd .CAL_WALL_HANDLE h
  s.objType o = 1 && s.objState o ≠ 3 && (match s.calPart with
    | some p => s.rd .SYN_OBJ_OWNER o = p || bitAt (s.rd .SYN_OBJ_EXPORT o) p
    | none => false)

/-- The head refuses an arm: ARM clears and ERR says why. -/
def State.refuseArm (s : State) (h k err : Nat) : State :=
  let s1 := (s.wr .CAL_PLANE_CTRL_ARM 0 h k).wr .CAL_PLANE_CTRL_ERR err h k
  if k = 0 then s1.endLead h else s1

/-- Setting ARM (R211, R212, R214, R215): a pending arm of plane 0 is replaced; the plane and the wall object are checked; a
wall fence that has ended below its threshold cancels the arm at once. -/
def State.armPlane (s : State) (h k : Nat) : State :=
  let s0 := if k = 0 && s.rd .CAL_PLANE_CTRL_ARM h k = 1 then s.count .CAL_COUNTS_REPLACED 1 h else s
  if !s0.planeOk h k then s0.refuseArm h k 1
  else if h = 1 && s0.planeScaled h k && !s0.featureOn 0x0A then
    (s0.wr .CAL_RESULT_STATUS s0.scalerStatus).refuseArm h k 2
  else if k = 0 && !s0.wallOk h then s0.refuseArm h k 1
  else
    let s1 := s0.wr .CAL_PLANE_CTRL_ARM 1 h k
    if k = 0 then s1.wallHook (s1.rd .CAL_WALL_HANDLE h) else s1

/-- A write of CAL_PLANE_CTRL: the shadowed fields, ERR by its 1 bits, and ARM. -/
def State.writePlaneCtrl (s : State) (h k data : Nat) : State :=
  let s1 := (((s.wr .CAL_PLANE_CTRL_EN (bits data 30 30) h k).wr .CAL_PLANE_CTRL_FMT (bits data 29 28) h k).wr
    .CAL_PLANE_CTRL_ALPHA (bits data 27 20) h k).wr .CAL_PLANE_CTRL_ERR
      (andNot (s.rd .CAL_PLANE_CTRL_ERR h k) (data % 4)) h k
  if bitAt data 31 then s1.armPlane h k else s1

/-- PLANE_ARM (R211). -/
def execPlaneArm (fn : Fin 33) (head : Fin 2) (plane : Fin 4) (data : Word) (s : State) : Host.Outcome State Fault Refusal :=
  .next (if s.calWrites fn && s.domState domCal = 0 then s.writePlaneCtrl head plane data.toNat else s)

/-! ### Vertical blank (R211, R214, R215) -/

/-- The shadow of a plane: source size and place, destination, and control. -/
def State.shadow (s : State) (h k : Nat) : List Nat :=
  [s.rd .CAL_PLANE_CTRL_EN h k, s.rd .CAL_PLANE_CTRL_FMT h k, s.rd .CAL_PLANE_CTRL_ALPHA h k,
    s.addrOf .CAL_PLANE_BASE h k, s.rd .CAL_PLANE_STRIDE h k, s.rd .CAL_PLANE_SRC_W h k, s.rd .CAL_PLANE_SRC_H h k,
    s.rd .CAL_PLANE_DST_X h k, s.rd .CAL_PLANE_DST_Y h k, s.rd .CAL_PLANE_DST_W h k, s.rd .CAL_PLANE_DST_H h k]

/-- The number of a plane. -/
def planeKey (h k : Nat) : Nat := 4 * h + k

/-- A plane's shadow becomes its active copy, and ARM clears. -/
def State.latchPlane (s : State) (h k : Nat) : State :=
  ({ s with cal := { s.cal with active := storePut (planeKey h k) (s.shadow h k) s.cal.active } }).wr
    .CAL_PLANE_CTRL_ARM 0 h k

/-- The wall fence of a head has reached its value (R214). -/
def State.wallMet (s : State) (h : Nat) : Bool := decide (s.rd .CAL_WALL_VALUE h ≤ s.objValue (s.rd .CAL_WALL_HANDLE h))

/-- The head holds its wall frame (R215). -/
def State.holdFrame (s : State) (h : Nat) : State :=
  let s1 := s.count .CAL_COUNTS_HELD 1 h
  s1.raiseCal { kind := 0x0A, src := h, detail := s1.rd .CAL_COUNTS_HELD h, p0 := s1.rd .CAL_WALL_VALUE h }

/-- A pending arm at the vertical blank start. -/
def State.blankPlane (s : State) (h k : Nat) : State :=
  if s.rd .CAL_PLANE_CTRL_ARM h k = 0 then s
  else if k = 0 && !s.wallMet h then s.holdFrame h
  else
    let s1 := s.latchPlane h k
    if k = 0 then s1.endLead h else s1

/-- The vertical blank starts: a failed plane shows again, and armed planes latch. -/
def State.blank (s : State) (h : Nat) : State :=
  [0, 1, 2, 3].foldl (fun s k => s.blankPlane h k)
    { s with cal := { s.cal with black := s.cal.black.filter (fun x => x / 4 ≠ h) } }

/-- VBLANK_START (R211). -/
def execVblankStart (head : Fin 2) (s : State) : Host.Outcome State Fault Refusal :=
  .next (if s.live && s.headRuns head then s.blank head else s)

/-- The lead of a head is reached with its fence unreached (R215, R323). -/
def State.leadNow (s : State) (h : Nat) : State :=
  if s.rd .CAL_PLANE_CTRL_ARM h 0 = 1 && !s.wallMet h && s.rd .CAL_LEAD_CYCLES h ≠ 0 && !s.cal.lead.contains h then
    ({ s with cal := { s.cal with lead := s.cal.lead ++ [h] } }).deadlineRequest
  else s

/-- LEAD_REACHED (R215). -/
def execLeadReached (head : Fin 2) (s : State) : Host.Outcome State Fault Refusal :=
  .next (if s.live && s.headRuns head then s.leadNow head else s)

/-! ### The link (R208, R209) -/

/-- Megabits per second that a trained link carries: 8b/10b over the lanes at a rate code. -/
def linkMbps (rate lanes : Nat) : Nat := [1620, 2700, 5400, 8100].getD rate 0 * 2 ^ lanes * 8 / 10

/-- The trained link carries the mode, within the request: RATE and LANES, three components of 8 or 10 bits. -/
def State.linkCarries (s : State) (h rate lanes : Nat) : Bool :=
  decide (rate ≤ s.rd .CAL_HEAD_CTRL_RATE h) && s.rd .CAL_HEAD_CTRL_LANES h ≠ 3 &&
    decide (lanes ≤ s.rd .CAL_HEAD_CTRL_LANES h) &&
    decide (s.rd .CAL_HEAD_CTRL_KHZ h * (if s.rd .CAL_HEAD_CTRL_BPC10 h = 1 then 30 else 24) ≤ linkMbps rate lanes * 1000)

/-- Link training ends (R209): with a link that carries the mode the head runs, otherwise it stops with FAIL. -/
def State.trained (s : State) (h : Nat) (link : Option (Fin 4 × Fin 3)) : State :=
  if s.funcState (32 + h) ≠ fnStarting then s
  else
    let ok := match link with
      | some (r, l) => s.linkCarries h r l
      | none => false
    ((s.wr .CAL_HEAD_CTRL_TRAINED (b2n ok) h).wr .CAL_HEAD_CTRL_FAIL (b2n (!ok)) h).setFunc (32 + h)
      (if ok then fnRunning else fnStopped)

/-- HEAD_TRAINING_DONE (R209). -/
def execHeadTrainingDone (head : Fin 2) (link : Option (Fin 4 × Fin 3)) (s : State) : Host.Outcome State Fault Refusal :=
  .next (if s.live then s.trained head link else s)

/-- An HPD record (R295): 0 unplug, 1 plug, 2 IRQ_HPD. -/
def State.raiseHpd (s : State) (h what : Nat) : State := s.raiseCal { kind := 0x09, src := h, detail := what }

/-- An unplug (R209). -/
def State.unplug (s : State) (h : Nat) : State :=
  if s.rd .CAL_HEAD_CTRL_HPD h = 0 then s
  else
    let s1 := s.wr .CAL_HEAD_CTRL_HPD 0 h
    let s2 := if s1.headRuns h then ((s1.wr .CAL_HEAD_CTRL_TRAINED 0 h).endLead h).setFunc (32 + h) fnStopped else s1
    s2.raiseHpd h 0

/-- HPD_UNPLUG (R209). -/
def execHpdUnplug (head : Fin 2) (s : State) : Host.Outcome State Fault Refusal :=
  .next (if s.live then s.unplug head else s)

/-- HPD_PLUG (R209). -/
def execHpdPlug (head : Fin 2) (s : State) : Host.Outcome State Fault Refusal :=
  .next (if s.live && s.rd .CAL_HEAD_CTRL_HPD head = 0 then (s.wr .CAL_HEAD_CTRL_HPD 1 head).raiseHpd head 1 else s)

/-- IRQ_HPD (R209). -/
def execIrqHpd (head : Fin 2) (s : State) : Host.Outcome State Fault Refusal :=
  .next (if s.live && s.rd .CAL_HEAD_CTRL_HPD head = 1 then s.raiseHpd head 2 else s)

/-! ### Scan-out (R213, R340) -/

/-- The plane's active copy is enabled. -/
def State.planeShown (s : State) (h k : Nat) : Bool :=
  ((storeFind s.cal.active (planeKey h k)).getD []).getD 0 0 = 1

/-- A scan-out line of a plane fails: it shows black for the rest of the frame, and ERR is 1. -/
def State.lineFail (s : State) (h k : Nat) : State :=
  let black := if s.cal.black.contains (planeKey h k) then s.cal.black else s.cal.black ++ [planeKey h k]
  ({ s with cal := { s.cal with black := black } }).wr .CAL_PLANE_CTRL_ERR 1 h k

/-- SCANOUT_LINE_FAIL (R340): nothing is torn down and no migration is asked for. -/
def execScanoutLineFail (head : Fin 2) (plane : Fin 4) (s : State) : Host.Outcome State Fault Refusal :=
  .next (if s.live && s.headRuns head && s.planeShown head plane then s.lineFail head plane else s)

/-- The format of a plane as an attachment format (R175): RGBA8, BGRA8, RGB10A2. -/
def planeChans (fmt : Nat) : List Chan := fmtChans fmt

/-- One plane over what lies below it (R213): a = ALPHA ÷ 255 × source alpha, out = src × a + out × (1 − a), in FP32. -/
def composeOver (alpha : Nat) (src out : List Nat) : List Nat :=
  let a := f32Mul (f32Div (f32OfInt alpha) (f32OfInt 255)) (src.getD 3 0)
  (List.range 3).map (fun c => f32Add (f32Mul (src.getD c 0) a) (f32Mul (out.getD c 0) (f32Sub f32One a)))

/-- The composed pixel at the link depth of `bpc` bits (R213, R189). -/
def linkPixel (bpc : Nat) (out : List Nat) : List Nat := (List.range 3).map (fun c => toUnorm bpc (out.getD c 0))

/-- A plane's colour at a pixel of the head, R, G, B and A in FP32, where it shows there: read from memory when the plane is
not scaled; of a scaled plane the filter's result is a free value. -/
def State.planeColor (s : State) (p h k x y : Nat) : Option (List Nat) :=
  match storeFind s.cal.active (planeKey h k) with
  | some [en, fmt, _, base, stride, sw, sh, dx, dy, dw, dh] =>
    if en = 0 || decide (x < dx) || decide (dx + dw ≤ x) || decide (y < dy) || decide (dy + dh ≤ y) then none
    else if s.cal.black.contains (planeKey h k) then some [0, 0, 0, f32One]
    else if sw = dw && sh = dh then
      match s.vBytes p (base + (y - dy) * stride + 4 * (x - dx)) 4 with
      | some bs => some ((List.range 4).map (fun c => match (planeChans fmt).find? (fun e => e.ch = c) with
          | some e => e.read (ofLe bs)
          | none => 0))
      | none => some [0, 0, 0, f32One]
    else some ((List.range 4).map (fun c => (Config.scaledPixel [h, k, x, y, c, base, stride, sw, sh, dw, dh]).toNat))
  | _ => none

/-- The pixel that a head puts out (R213): its planes bottom to top over black, at the link depth. -/
def State.headPixel (s : State) (h x y : Nat) : List Nat :=
  let p := s.calPart.getD 0
  let out := [0, 1, 2, 3].foldl (fun out k => match s.planeColor p h k x y with
    | some c => composeOver (((storeFind s.cal.active (planeKey h k)).getD []).getD 2 0) c out
    | none => out) [0, 0, 0]
  linkPixel (if s.rd .CAL_HEAD_CTRL_BPC10 h = 1 then 10 else 8) out

end Sys2Proof.Machine
end

