-- ==== Sys2Proof/Machine/Geometry.lean ====
section
/-!
DEFINITION. The geometry commands and events (R173 to R206): BIN_BEGIN, DRAW, BIN_END, the dispatch and the couch of tiles,
broke passes, grow grants and denials, and GATED_LAUNCH.
-/

namespace Sys2Proof.Machine

/-! ### BIN_BEGIN (R173 to R177, R192, R203) -/

/-- The pool's bytes by POOLCLASS (R18). -/
def poolBytes (cls : Nat) : Nat := if cls = 1 then 8 * 2 ^ 20 else if cls = 2 then 32 * 2 ^ 20 else 128 * 2 ^ 20

/-- The key of a queue among those whose followers are refused. -/
def queueKey (p q : Nat) : Nat := p * 16 + q

/-- The followers of a queue's refused BIN_BEGIN are refused, or no longer (R173). -/
def State.setRefusing (s : State) (key : Nat) (on : Bool) : State :=
  let l := s.geo.refusing.filter (fun k => k ≠ key)
  { s with geo := { s.geo with refusing := if on then l ++ [key] else l } }

/-- A geometry command is refused at its hand-off. -/
def State.refuseHand (s : State) (c : Cmd) (reason : Nat) : State :=
  let s1 := (s.hand c.id).geoRefuse c.p c.op c.id reason
  if c.op = 0x10 then s1.setRefusing (queueKey c.p c.q) true else s1

/-- The open pass of a queue: no BIN_END has been handed off for it. -/
def State.openPassOf (s : State) (p q : Nat) : Option Pass :=
  s.geo.passes.find? (fun x => x.p = p && x.q = q && x.ended.isNone)

/-- The chip that a pass names (R174, R177). -/
def State.passChip (s : State) (p : Nat) (d : List Byte) : Nat :=
  if leAt d 7 1 = 0xFF then (match s.part p with
    | some r => r.home
    | none => s.pos) else leAt d 7 1

/-- The pass that a descriptor opens: its pool is empty behind the head table (R192). -/
def State.newPass (s : State) (c : Cmd) (d : List Byte) (pool : Nat) (away : Bool) : Pass where
  cmd := c.id
  p := c.p
  q := c.q
  desc := d
  addr := c.dword 1
  away := away
  regions :=
    let base := s.addrOf .GEO_POOL_BASE_ADDR c.p
    [⟨base, base + pool, base + roundUp (8 * pdTiles d) 4096, base + pool⟩]

/-- What opening a pass writes: an empty head table, and the gate's STATE (R192, R203). -/
def Pass.openWrites (x : Pass) : List (Nat × List Byte) :=
  [(x.poolBase, List.replicate (8 * pdTiles x.desc) 0)] ++
    (if pdGate x.desc = 0 then [] else [(pdGate x.desc + 4, [0])])

/-- The pass opens. -/
def State.openPass (s : State) (c : Cmd) (x : Pass) : State :=
  let s1 := (s.hand c.id).setRefusing (queueKey c.p c.q) false
  let s2 : State := { s1 with geo := { s1.geo with passes := s1.geo.passes ++ [x] } }
  (s2.showPass x.p).setResult c.id stOk

/-- The hand-off of a BIN_BEGIN. -/
def State.beginHand (s : State) (c : Cmd) : State :=
  if (s.openPassOf c.p c.q).isSome then s.refuseHand c 9
  else if s.geo.passes.any (fun x => x.p = c.p && x.phase ≠ .rendering) then s
  else match s.part c.p with
    | none => s
    | some r =>
      if r.poolClass = 0 || s.rd .GEO_POOL_BASE_ADDR c.p = 0 then s.refuseHand c 1
      else match s.vRead (geoAsker c.p) (.cmd c.id) c.p (c.dword 1) 320 with
        | (s1, .error f) => s1.cmdFail c f
        | (s1, .ok d) =>
          let chip := s1.passChip c.p d
          match passRefusal d (r.split.getD 2 0 * 131072) ((s1.partVats c.p).any (fun v => v.1 = chip)) with
          | some reason => s1.refuseHand c reason
          | none =>
            let x := s1.newPass c d (poolBytes r.poolClass) (chip ≠ s1.pos)
            if x.away then s1.openPass c x
            else match s1.geoWrites c.p x.openWrites with
              | (s2, .error f) => s2.cmdFail c f
              | (s2, .ok _) => s2.openPass c x

/-- BIN_BEGIN (R174). -/
def execBinBegin (cmd : CmdRef) (s : State) : Host.Outcome State Fault Refusal :=
  .next (s.withCmd cmd (fun c => c.op = 0x10) State.beginHand)

/-! ### DRAW (R178 to R180) -/

/-- The vertex indices of a draw: sequential, or read from its index buffer. -/
def State.readIndices (s : State) (c : Cmd) (d : List Byte) : State × Except Fail (List Nat) :=
  if dsIndex d = 0 then (s, .ok (List.range (dsCount d)))
  else match s.vRead (geoAsker c.p) (.cmd c.id) c.p (dsIndex d) (dsCount d * dsIsize d) with
    | (s1, .error f) => (s1, .error f)
    | (s1, .ok bs) => (s1, .ok (rowVals (dsIsize d) bs))

/-- The launch of a draw's vertices: one thread for each, v0 its index (R179). -/
def vertexLaunch (l : Launch) (ids : List Nat) : Launch :=
  let n := (ids.length + l.threads - 1) / l.threads
  { l with gx := n, gy := 1, gz := 1, total := n, payload := ids.map (fun i => [BitVec.ofNat 32 i]) }

/-- A draw joins its pass; without vertices it is binned at once. -/
def State.addDraw (s : State) (c : Cmd) (x : Pass) (d : List Byte) (v : Launch) (fr : Option Launch) (ids : List Nat) :
    State :=
  let dr : DrawRec :=
    { cmd := c.id, addr := c.dword 1, desc := d, verts := if ids = [] then some [] else none
      launch := if ids = [] then none else some v.id, frag := fr, binned := 0 }
  let s1 := (s.hand c.id).putPass { x with draws := x.draws ++ [dr] }
  let s2 := if ids = [] then s1 else s1.setLaunch v.id (vertexLaunch v ids)
  let s3 := if primCount (dsTopo d) (dsCount d) = 0 && ids = [] then s2.setResult c.id stOk else s2
  (s3.binPass x.cmd).poolStep

/-- What the launch descriptor of a draw gives: it waits or fails, the draw is refused, or a launch. -/
def State.drawLaunch (s : State) (c : Cmd) (addr : Nat) (use : LaunchUse) : State × Except State Launch :=
  let (id, s0) := s.takeId
  match s0.readLaunch c.p (.cmd c.id) addr id use with
  | (s1, .fail f) => (s1, .error (s1.cmdFail c f))
  | (s1, .refused st) =>
    (s1, .error (if statusClass st = 0x13 then s1.refuseHand c 7 else s1.handDone c.id st))
  | (s1, .ok l) => (s1, .ok l)

/-- The hand-off of a DRAW whose descriptor is in order: its launches and indices are read. -/
def State.drawRead (s : State) (c : Cmd) (x : Pass) (d : List Byte) : State :=
  match s.drawLaunch c (dsVlaunch d) (.vertex c.p c.id) with
  | (_, .error r) => r
  | (s1, .ok v) =>
    match s1.readIndices c d with
    | (s2, .error f) => s2.cmdFail c f
    | (s2, .ok ids) =>
      if dsFlaunch d = 0 then s2.addDraw c x d v none ids
      else match s2.drawLaunch c (dsFlaunch d) (.fragment c.p c.id) with
        | (_, .error r) => r
        | (s3, .ok l) => s3.addDraw c x d v (some l) ids

/-- The hand-off of a DRAW. -/
def State.drawHand (s : State) (c : Cmd) : State :=
  if s.geo.refusing.contains (queueKey c.p c.q) then s.refuseHand c 9
  else match s.openPassOf c.p c.q with
    | none => s.refuseHand c 9
    | some x =>
      if x.away then s.handDone c.id stOk
      else match s.vRead (geoAsker c.p) (.cmd c.id) c.p (c.dword 1) 128 with
        | (s1, .error f) => s1.cmdFail c f
        | (s1, .ok d) =>
          if !drawOk d then s1.refuseHand c 7
          else if decide (4096 ≤ x.draws.length) || decide (2 ^ 20 < primCount (dsTopo d) (dsCount d)) then s1.refuseHand c 8
          else
            let r := s1.drawRead c x d
            match r.cmd c.id with
            | some c' =>
              if c'.phase = .fetched then { r with xlt := { r.xlt with fetched := s.xlt.fetched } } else r
            | none => r

/-- DRAW (R178). -/
def execDraw (cmd : CmdRef) (s : State) : Host.Outcome State Fault Refusal :=
  .next (s.withCmd cmd (fun c => c.op = 0x11) State.drawHand)

/-! ### BIN_END (R190) -/

/-- The hand-off of a BIN_END. A pass that another chip runs ends there, with a status that the spec brings back by no
message: a free choice of OK and POOL_EXHAUSTED. -/
def State.endHand (s : State) (c : Cmd) : State :=
  let key := queueKey c.p c.q
  if s.geo.refusing.contains key then (s.refuseHand c 9).setRefusing key false
  else match s.openPassOf c.p c.q with
    | none => s.refuseHand c 9
    | some x =>
      if x.away then
        let (n, s1) := s.takeFree
        let st := if bitAt (Config.undefinedWord n).toNat 0 then stOk else stRefused 1 10
        ((s1.dropPass x.cmd).showPass x.p).handDone c.id st
      else
        let s1 := (s.hand c.id).setPass { x with ended := some c.id }
        (s1.binPass x.cmd).poolStep

/-- BIN_END (R190). -/
def execBinEnd (cmd : CmdRef) (s : State) : Host.Outcome State Fault Refusal :=
  .next (s.withCmd cmd (fun c => c.op = 0x12) State.endHand)

/-! ### Tiles (R190, R191) -/

/-- The END entries that close a pass's lists (R193, R196 step 2). -/
def Pass.endWrites (x : Pass) : List (Nat × List Byte) :=
  x.lists.map (fun e => (e.2.cur + 8 * e.2.fill, endEntry e.2.prims.length))

/-- The oldest pass of a partition with tiles to dispatch. -/
def State.tilePass (s : State) (p : Nat) : Option Pass :=
  s.geo.passes.find? (fun x => x.p = p && (x.phase = .rendering || x.phase = .broke) && x.todo ≠ [])

/-- The samples of a tile at its start (R190): spilled ones from the spill area, otherwise each attachment's LOAD. -/
def State.loadTile (s : State) (x : Pass) (tile : Nat) : State × Except Fail (List (List Nat)) :=
  match storeFind x.spilled tile with
  | some px =>
    (match s.vRead (geoAsker x.p) (.geo x.p) x.p (pdSpill x.desc + tile * pdFoot x.desc) (pdFoot x.desc) with
    | (s1, .ok _) => (s1, .ok px)
    | (s1, .error f) => (s1, .error f))
  | none =>
    let rows := loadRows x.desc tile
    match s.geoReads x.p (rows.map (fun r => (r.2.2.1, r.2.2.2))) with
    | (s1, .error f) => (s1, .error f)
    | (s1, .ok bs) =>
      (s1, .ok ((rows.zip bs).foldl (fun px e =>
        putRow e.1.1 e.1.2.1 (rowVals (attBytes (arFmt (pdRec x.desc ((pdAtts x.desc).getD e.1.1 0)))) e.2) px)
        (startPx x.desc)))

/-- The gate masks of a tile with its primitives (R202). -/
def Pass.maskTile (x : Pass) (tile : Nat) (prims : List Prim) : Pass :=
  if pdGate x.desc = 0 then x
  else
    let g := (storeFind x.masks tile).getD (0, 0, [])
    { x with masks := storePut tile (prims.foldl (fun g e => gateAdd x.desc (x.descOf e.draw) tile e g) g) x.masks }

/-- A loaded tile starts on a vat. -/
def State.startTile (s : State) (x : Pass) (tile : Nat) (vat : Option Nat) (px : List (List Nat)) : State :=
  let prims := ((storeFind x.lists tile).map (·.prims)).getD []
  let x1 := x.maskTile tile prims
  let s1 := match vat with
    | some v => s.wakeNow v
    | none => s
  let t : TileRun := { tile := tile, vat := vat, px := px, todo := prims, groups := [], job := none }
  let (s2, t1) := s1.advanceTile x1 t.fuel t
  s2.putPass { x1 with todo := x.todo.drop 1, inflight := x.inflight ++ [t1] }

/-- TILE_DISPATCH (R190): the next tile goes to the lowest eligible vat with F bytes of tile memory free; a tile without
entries needs none. -/
def State.tileDispatch (s : State) (p : Nat) : State :=
  match s.tilePass p with
  | none => s
  | some x =>
    match x.todo with
    | [] => s
    | tile :: _ =>
      let empty := (storeFind x.lists tile).isNone
      let vat := if empty then none else (List.range 64).find? (fun n => s.tileFits n p (pdFoot x.desc))
      if !s.partRuns p || (!empty && vat.isNone) then s
      else match s.geoWrites p x.endWrites with
        | (s1, .error f) => s1.failTile p 0 0 f
        | (s1, .ok _) =>
          match s1.loadTile x tile with
          | (s2, .error f) => s2.failTile p 0 0 f
          | (s2, .ok px) => s2.startTile x tile vat px

/-- TILE_DISPATCH (R190). -/
def execTileDispatch (p : Fin 32) (s : State) : Host.Outcome State Fault Refusal :=
  .next (if s.live then (s.tileDispatch p).poolStep else s)

/-- The tile's fragments have all been shaded and drawn. -/
def TileRun.drawn (t : TileRun) : Bool := t.todo = [] && t.groups = [] && t.job.isNone

/-- What the couch writes of a tile: the attachments, or in a broke pass the spill area, whose contents are internal. -/
def State.couchWrites (s : State) (x : Pass) (t : TileRun) : State × List (Nat × List Byte) :=
  if x.phase = .broke then
    let (n, s1) := s.takeFree
    (s1, [(pdSpill x.desc + t.tile * pdFoot x.desc, (List.range (pdFoot x.desc)).map (Config.internalByte n))])
  else (s, couchRows x.desc t.tile t.px)

/-- What the gate writer writes after the last couch (R203): records and list, then the header. -/
def Pass.gateWrites (x : Pass) : List (Nat × List Byte) :=
  if pdGate x.desc = 0 then []
  else
    let (recs, ids, dropped) := gateRecords x.desc x.masks
    let g := pdGate x.desc
    [(g + 64, recs.flatten), (g + 64 + 16 * recs.length, ids.flatMap (toLe 4)),
      (g, gateHeader x.desc 1 ids.length dropped)]

/-- The tile leaves its vat (R190, R201, R306). -/
def State.leaveTile (s : State) (t : TileRun) : State :=
  match t.vat with
  | some v => (s.settlePreempt v).freeVat v
  | none => s

/-- COUCH_COMPLETE (R191): the tile's writes reach L2; after the last one the gate is written and the pass completes. -/
def State.couch (s : State) (p tile : Nat) : State :=
  match s.geo.passes.findSome? (fun x => (x.inflight.find? (fun t => x.p = p && t.tile = tile && t.drawn)).map
      (fun t => (x, t))) with
  | none => s
  | some (x, t) =>
    let (s0, ws) := s.couchWrites x t
    let last := x.phase = .rendering && x.todo = [] && x.inflight.length = 1
    match s0.geoWrites p (ws ++ (if last then x.gateWrites else [])) with
    | (s1, .error f) => s1.failTile p 0 0 f
    | (s1, .ok _) =>
      let x1 : Pass := { x with
        inflight := x.inflight.filter (fun y => y.tile ≠ t.tile)
        spilled := if x.phase = .broke then storePut t.tile t.px x.spilled else x.spilled }
      ((s1.putPass x1).leaveTile t).endPass x1

/-- COUCH_COMPLETE (R191). -/
def execCouchComplete (p : Fin 32) (tile : Nat) (s : State) : Host.Outcome State Fault Refusal :=
  .next (if s.live then (s.couch p tile).poolStep else s)

/-! ### Overflow (R195 to R200) -/

/-- The pool of a pass emptied (R196 step 4): granted chunks stay. -/
def Pass.emptyPool (x : Pass) : List PoolRegion :=
  match x.regions with
  | [] => []
  | r :: rs => { r with up := r.base + roundUp (8 * pdTiles x.desc) 4096, down := r.top } ::
      rs.map (fun c => { c with up := c.base, down := c.top })

/-- BROKE_PASS_SPILLED (R196 steps 4 and 5): when the last spill write has reached L2, the pool is emptied and the held
primitive is binned again. -/
def State.brokeSpilled (s : State) (p : Nat) : State :=
  match s.geo.passes.find? (fun x => x.p = p && x.phase = .broke && x.todo = [] && x.inflight = []) with
  | none => s
  | some x =>
    if s.ring.reqs.any (fun r => r.owner = .geo p) then s
    else match s.geoWrites p [(x.poolBase, List.replicate (8 * pdTiles x.desc) 0)] with
      | (s1, .error f) => s1.failTile p 0 0 f
      | (s1, .ok _) =>
        (s1.putPass { x with
          phase := .binning
          lists := []
          regions := x.emptyPool
          segments := x.segments + 1 }).binPass x.cmd

/-- BROKE_PASS_SPILLED (R196). -/
def execBrokePassSpilled (p : Fin 32) (s : State) : Host.Outcome State Fault Refusal :=
  .next (if s.live then s.brokeSpilled p else s)

/-- The pass of a partition whose grow request waits. -/
def State.growing (s : State) (p : Nat) : Option Pass :=
  s.geo.passes.find? (fun x => x.p = p && x.phase = .growWait)

/-- GRANT (R197, R198): a chunk joins the pool; LATE with no request, BAD_CHUNK with a size out of range. -/
def State.growGrant (s : State) (p size : Nat) : State :=
  let s0 := s.wr .GEO_GROW_CTRL_SIZE size p
  match s0.growing p with
  | none => s0.wr .GEO_GROW_CTRL_RESULT 3 p
  | some x =>
    if size = 0 || decide (32 < size) then s0.wr .GEO_GROW_CTRL_RESULT 4 p
    else
      let a := s0.addrOf .GEO_GROW_ADDR_ADDR p
      let top := a + size * 2 ^ 21
      let s1 := (((s0.wr .GEO_GROW_CTRL_RESULT 1 p).wr .GEO_GROW_CTRL_REQ 0 p).wr .GEO_GROW_WANT_BYTES 0 p).count
        .GEO_COUNTS_GROWN 1 p
      (s1.putPass { x with
        phase := .binning
        chunks := x.chunks + 1
        regions := x.regions ++ [⟨a, top, a, top⟩] }).binPass x.cmd

/-- GRANT (R197). -/
def execGrant (fn : Fin 33) (p : Fin 32) (size : BitVec 6) (s : State) : Host.Outcome State Fault Refusal :=
  .next (if s.mayWrite fn p then (s.wakeNow domGeo).growGrant p size.toNat else s)

/-- The request ends with a broke pass. -/
def State.growEnd (s : State) (p cause : Nat) : State :=
  match s.growing p with
  | none => s
  | some x => (s.fallBack x (x.held.getD 0) cause).poolStep

/-- DENY (R197, R198). -/
def execDeny (fn : Fin 33) (p : Fin 32) (s : State) : Host.Outcome State Fault Refusal :=
  .next (if s.mayWrite fn p then
    let s0 := s.wakeNow domGeo
    match s0.growing p with
    | none => s0.wr .GEO_GROW_CTRL_RESULT 3 p
    | some _ => (s0.wr .GEO_GROW_CTRL_RESULT 2 p).growEnd p 1
  else s)

/-- GROW_PATIENCE_EXPIRY (R197): the counter pauses while the partition is stopped. -/
def execGrowPatienceExpiry (p : Fin 32) (s : State) : Host.Outcome State Fault Refusal :=
  .next (if s.live && s.partRuns p then s.growEnd p 2 else s)

/-! ### GATED_LAUNCH (R204 to R206) -/

/-- A gate selector obeys R204. -/
def selectorOk (d : List Byte) : Bool :=
  leAt d 0 8 % 256 = 0 && decide (leAt d 8 1 ≤ 3) && decide (leAt d 9 1 ≤ 1) && leAt d 10 2 = 0 &&
    leAt d 12 4 ≠ 0 && leAt d 16 16 = 0

/-- The value that MEASURE takes of a tile record (R204). -/
def measureOf (k : Nat) (r : List Byte) : Nat :=
  match k with
  | 0 => leAt r 0 2
  | 1 => leAt r 2 2
  | 2 => leAt r 4 2
  | _ => leAt r 0 2 + leAt r 2 2

/-- The selected tiles of a gate with their PRIMS, ascending (R205). -/
def selectTiles (sel recs : List Byte) (n : Nat) : List (Nat × Nat) :=
  (List.range n).filterMap (fun i =>
    let r := slice recs (16 * i) 16
    if leAt sel 12 4 ≤ measureOf (leAt sel 8 1) r then some (i, leAt r 6 1) else none)

/-- The launch over the selected tiles (R205). -/
def gatedLaunch (l : Launch) (mode : Nat) (tiles : List (Nat × Nat)) : Launch :=
  let prims := tiles.map (fun (t : Nat × Nat) => t.2)
  { l with
    gx := tiles.length
    gy := if mode = 0 then 1 else prims.foldl max 0
    gz := 1
    total := if mode = 0 then tiles.length else prims.sum
    tiles := tiles }

/-- An earlier pass of the queue has not completed (R206). -/
def State.passesBefore (s : State) (c : Cmd) : Bool :=
  ((s.queue c.p c.q).takeWhile (fun x => x.id ≠ c.id)).any (fun x =>
    engineOf x.op = 1 && x.phase = .handed) || s.geo.passes.any (fun x => x.p = c.p && x.q = c.q && x.ended.isSome)

/-- The scan of a gate: its selected tiles; a gate that is not COMPLETE gives none. -/
def State.scanGate (s : State) (c : Cmd) (sel : List Byte) : State × Except Fail (Option (List (Nat × Nat))) :=
  match s.vRead (headboxAsker c.p) (.cmd c.id) c.p (leAt sel 0 8) 64 with
  | (s1, .error f) => (s1, .error f)
  | (s1, .ok h) =>
    if leAt h 4 1 ≠ 1 then (s1, .ok none)
    else
      let n := leAt h 6 2 * leAt h 8 2
      match s1.vRead (headboxAsker c.p) (.cmd c.id) c.p (leAt sel 0 8 + 64) (16 * n) with
      | (s2, .error f) => (s2, .error f)
      | (s2, .ok recs) => (s2, .ok (some (selectTiles sel recs n)))

/-- The selector and the scan of a GATED_LAUNCH whose launch descriptor is in order. -/
def State.gatedRead (s : State) (c : Cmd) (l : Launch) : State :=
  match s.vRead (headboxAsker c.p) (.cmd c.id) c.p (c.dword 3) 32 with
  | (s1, .error f) => s1.cmdFail c f
  | (s1, .ok sel) =>
    if !selectorOk sel then s1.refuseHand c 6
    else match s1.scanGate c sel with
      | (s2, .error f) => s2.cmdFail c f
      | (s2, .ok none) => s2.refuseHand c 11
      | (s2, .ok (some tiles)) =>
        let g := gatedLaunch l (leAt sel 9 1) tiles
        if g.total = 0 then s2.handDone c.id stOk else s2.startLaunch c g

/-- The hand-off of a GATED_LAUNCH. -/
def State.gatedHand (s : State) (c : Cmd) : State :=
  if s.passesBefore c then s
  else
    let (id, s0) := s.takeId
    match s0.readLaunch c.p (.cmd c.id) (c.dword 1) id (.compute c.id) with
    | (s1, .fail f) => s1.cmdFail c f
    | (s1, .refused st) => s1.handDone c.id st
    | (s1, .ok l) =>
      let r := s1.gatedRead c l
      match r.cmd c.id with
      | some c' => if c'.phase = .fetched then { r with xlt := { r.xlt with fetched := s.xlt.fetched } } else r
      | none => r

/-- GATED_LAUNCH (R205). -/
def execGatedLaunch (cmd : CmdRef) (s : State) : Host.Outcome State Fault Refusal :=
  .next (s.withCmd cmd (fun c => c.op = 0x02) State.gatedHand)

end Sys2Proof.Machine
end

