-- ==== Sys2Proof/Machine/Objects.lean ====
section
/-!
DEFINITION. Requests of HB_OBJ_CTRL (R266 to R272, R280), host writes of VALUE (R281), and the waits' retries, notices and
timeouts (R283, R284).
-/

namespace Sys2Proof.Machine

/-! ### Requests -/

/-- What a request of HB_OBJ_CTRL comes to: it is refused with a status, or it changes the state. -/
abbrev ObjOut := Except Nat State

/-- Run an object request (R267): the request's fields, its effect, and HB_OBJ_RESULT. A refused request changes nothing
else. A request for a partition that is not homed here is refused. -/
def State.objRequest (s : State) (fn p op type handle : Nat) (act : State → ObjOut) : State :=
  if !s.mayWrite fn p then s
  else
    let s1 := ((s.wr .HB_OBJ_CTRL_OP op p).wr .HB_OBJ_CTRL_TYPE type p).wr .HB_OBJ_CTRL_HANDLE handle p
    match (if s1.homed p then act s1 else .error stBadValue) with
    | .error st => s1.wr .HB_OBJ_RESULT_STATUS st p
    | .ok s2 => s2.wr .HB_OBJ_RESULT_STATUS stOk p

/-- An EXPORT that is allowed (R267): not the owner's bit, and only partitions with the same HOME. -/
def State.exportOk (s : State) (p e : Nat) : Bool :=
  (bitIdx 32 e).all (fun k => k ≠ p && s.homed k)

/-- BUSY for an object request: 0x90 sync objects, 0x91 memory objects, 0x92 records (R268, R269). -/
def objBusy (res : Nat) : Nat := stBusy res 0 1

/-- Sync objects that a partition owns. -/
def State.ownedSync (s : State) (p : Nat) : Nat := (s.objsOf p (fun _ => true)).length

/-- Memory objects that a partition owns. -/
def State.ownedMem (s : State) (p : Nat) : Nat :=
  ((List.range 4096).filter (fun h => s.rd .HB_MO_STATE h ≠ 0 && s.rd .HB_MO_OWNER h = p)).length

/-- The state with the latch of a sync object's low word empty: it follows VALUE (R281). -/
def State.clearLatch (s : State) (h : Nat) : State :=
  { s with sync := { s.sync with latch := storeErase s.sync.latch h } }

/-- SYN_CREATE (R267, R268). -/
def State.createSync (s : State) (p type : Nat) : ObjOut :=
  let a0 := s.rd .HB_OBJ_ARG_ARG0 p
  let a1 := s.rd .HB_OBJ_ARG_ARG1 p
  let e := a1 % 2 ^ 32
  let qb := bits a1 36 36
  if type = 0 || 4 < type || (type = 3 && a0 % 2 ^ 32 = 0) || (type = 2 && a0 ≠ 0) || !s.exportOk p e ||
      (e ≠ 0 && (type = 2 || type = 3)) || (qb = 1 && type ≠ 1) then .error stBadValue
  else if s.rd .GLB_OBJ_QUOTA_SYN p ≤ s.ownedSync p then .error (objBusy 0x90)
  else match (List.range 16384).find? (fun h => s.objType h = 0) with
    | none => .error (objBusy 0x90)
    | some h =>
      let s1 := ((s.wr .SYN_OBJ_TYPE type h).wr .SYN_OBJ_STATE 0 h).wr .SYN_OBJ_OWNER p h
      let s2 := ((s1.wr .SYN_OBJ_EXPORT e h).wr .SYN_OBJ_QBOUND qb h).wr .SYN_OBJ_QUEUE (bits a1 35 32) h
      let s3 := (s2.wr .SYN_OBJ_VALUE (if type = 1 || type = 4 then a0 else 0) h).wr .SYN_OBJ_AUX
        (if type = 3 then a0 % 2 ^ 32 else 0) h
      .ok ((s3.clearLatch h).wr .HB_OBJ_HANDLE_HANDLE h p)

/-- SYN_CREATE (R267). -/
def execSynCreate (fn : Fin 33) (p : Fin 32) (type : BitVec 3) (handle : BitVec 14) (s : State) :
    Host.Outcome State Fault Refusal :=
  .next (s.objRequest fn p 1 type.toNat handle.toNat (fun s => s.createSync p type.toNat))

/-- A lock is freed without waking its lanes (R278, R280). -/
def State.dropLock (s : State) (h : Nat) : State :=
  if s.objType h = 2 then
    ({ s with sync := { s.sync with lockq := s.sync.lockq.filter (fun w => w.obj ≠ h) } }).wr .SYN_OBJ_AUX 0 h
  else s

/-- SYN_DESTROY (R280): one record for the owner and one for each partition of EXPORT. -/
def State.destroySync (s : State) (p h : Nat) : ObjOut :=
  if !s.owns p h then .error stBadValue
  else
    let ps := p :: bitIdx 32 (s.rd .SYN_OBJ_EXPORT h)
    if s.freeRecords < ps.length then .error (objBusy 0x92)
    else
      let s1 := (s.dropLock h).destroyObj h
      .ok ((ps.foldl (fun (s : State) k => s.takeRecord false h k) s1).passRecords)

/-- SYN_DESTROY (R280). -/
def execSynDestroy (fn : Fin 33) (p : Fin 32) (type : BitVec 3) (handle : BitVec 14) (s : State) :
    Host.Outcome State Fault Refusal :=
  .next (s.objRequest fn p 2 type.toNat handle.toNat (fun s => s.destroySync p handle.toNat))

/-- SYN_RESET (R280), by type. -/
def State.resetSync (s : State) (p h : Nat) : ObjOut :=
  if !s.owns p h || s.objState h = 2 then .error stBadValue
  else if s.objType h = 2 then .ok (s.lockFree h)
  else if s.objType h = 3 then
    .ok ((s.wr .SYN_OBJ_VALUE (s.objValue h / 2 ^ 32 * 2 ^ 32) h).endWaits (fun w => w.obj = h) (stObjectReset h))
  else .ok (((s.wr .SYN_OBJ_STATE 0 h).setValue h (s.rd .HB_OBJ_ARG_ARG0 p)))

/-- SYN_RESET (R280). -/
def execSynReset (fn : Fin 33) (p : Fin 32) (type : BitVec 3) (handle : BitVec 14) (s : State) :
    Host.Outcome State Fault Refusal :=
  .next (s.objRequest fn p 3 type.toNat handle.toNat (fun s => s.resetSync p handle.toNat))

/-- SYN_EXPORT (R267). -/
def State.exportSync (s : State) (p h : Nat) : ObjOut :=
  let e := s.rd .HB_OBJ_ARG_ARG1 p % 2 ^ 32
  if !s.owns p h || !s.exportOk p e || (e ≠ 0 && (s.objType h = 2 || s.objType h = 3)) then .error stBadValue
  else .ok (s.wr .SYN_OBJ_EXPORT e h)

/-- SYN_EXPORT (R267). -/
def execSynExport (fn : Fin 33) (p : Fin 32) (type : BitVec 3) (handle : BitVec 14) (s : State) :
    Host.Outcome State Fault Refusal :=
  .next (s.objRequest fn p 4 type.toNat handle.toNat (fun s => s.exportSync p handle.toNat))

/-! ### Memory objects -/

/-- MO_CREATE (R267, R268). -/
def State.createMem (s : State) (p : Nat) : ObjOut :=
  let base := s.rd .HB_OBJ_ARG_ARG0 p
  let size := s.rd .HB_OBJ_ARG_ARG1 p
  let e := s.rd .HB_OBJ_ARG_ARG3 p % 2 ^ 32
  if base % 4096 ≠ 0 || size % 4096 ≠ 0 || size = 0 || decide (2 ^ 48 < base + size) || !s.exportOk p e then
    .error stBadValue
  else if s.rd .GLB_OBJ_QUOTA_MO p ≤ s.ownedMem p then .error (objBusy 0x91)
  else match (List.range 4096).find? (fun h => s.rd .HB_MO_STATE h = 0) with
    | none => .error (objBusy 0x91)
    | some h =>
      let s1 := ((s.wr .HB_MO_STATE 1 h).wr .HB_MO_OWNER p h).wrAddr .HB_MO_BASE base h
      let s2 := ((s1.wr .HB_MO_SIZE size h).wr .HB_MO_TAG (s.rd .HB_OBJ_ARG_ARG2 p) h).wr .HB_MO_EXPORT e h
      .ok ((s2.wr .HB_MO_HOLDERS (2 ^ p) h).wr .HB_OBJ_HANDLE_HANDLE h p)

/-- MO_CREATE (R267). -/
def execMoCreate (fn : Fin 33) (p : Fin 32) (type : BitVec 3) (handle : BitVec 14) (s : State) :
    Host.Outcome State Fault Refusal :=
  .next (s.objRequest fn p 5 type.toNat handle.toNat (fun s => s.createMem p))

/-- MO_IMPORT (R267). -/
def State.importMem (s : State) (p h : Nat) : ObjOut :=
  if s.rd .HB_MO_STATE h ≠ 1 || !bitAt (s.rd .HB_MO_EXPORT h) p then .error stBadValue
  else .ok (s.wr .HB_MO_HOLDERS (setBit (s.rd .HB_MO_HOLDERS h) p) h)

/-- MO_IMPORT (R267). -/
def execMoImport (fn : Fin 33) (p : Fin 32) (type : BitVec 3) (handle : BitVec 14) (s : State) :
    Host.Outcome State Fault Refusal :=
  .next (s.objRequest fn p 6 type.toNat handle.toNat (fun s => s.importMem p (handle.toNat % 4096)))

/-- MO_FREE (R267, R269, R270). -/
def State.freeMem (s : State) (p h : Nat) : ObjOut :=
  let holders := s.rd .HB_MO_HOLDERS h
  if s.rd .HB_MO_STATE h ≠ 1 || !bitAt holders p then .error stBadValue
  else if s.freeRecords = 0 then .error (objBusy 0x92)
  else
    let s1 := (s.wr .HB_MO_HOLDERS (clearBit holders p) h).takeRecord true h p
    let s2 := if clearBit holders p = 0 then s1.wr .HB_MO_STATE 2 h else s1
    .ok s2.passRecords

/-- MO_FREE (R267). -/
def execMoFree (fn : Fin 33) (p : Fin 32) (type : BitVec 3) (handle : BitVec 14) (s : State) :
    Host.Outcome State Fault Refusal :=
  .next (s.objRequest fn p 7 type.toNat handle.toNat (fun s => s.freeMem p (handle.toNat % 4096)))

/-- MO_EXPORT (R267). -/
def State.exportMem (s : State) (p h : Nat) : ObjOut :=
  let e := s.rd .HB_OBJ_ARG_ARG3 p % 2 ^ 32
  if s.rd .HB_MO_STATE h ≠ 1 || s.rd .HB_MO_OWNER h ≠ p || !s.exportOk p e then .error stBadValue
  else .ok (s.wr .HB_MO_EXPORT e h)

/-- MO_EXPORT (R267). -/
def execMoExport (fn : Fin 33) (p : Fin 32) (type : BitVec 3) (handle : BitVec 14) (s : State) :
    Host.Outcome State Fault Refusal :=
  .next (s.objRequest fn p 8 type.toNat handle.toNat (fun s => s.exportMem p (handle.toNat % 4096)))

/-! ### Writes of VALUE (R281) -/

/-- Function `fn` may write object h's VALUE: a LIVE FENCE or COUNTER of a partition whose registers it writes. -/
def State.valueWritable (s : State) (fn h : Nat) : Bool :=
  s.mayWrite fn (s.rd .SYN_OBJ_OWNER h) && (s.objType h = 1 || s.objType h = 4) && s.objState h = 0

/-- SYN_VALUE_LOW_WRITE (R281): the latch only. -/
def execSynValueLowWrite (fn : Fin 33) (obj : Fin 16384) (data : Word) (s : State) : Host.Outcome State Fault Refusal :=
  .next (if s.valueWritable fn obj then
    { s with sync := { s.sync with latch := storePut obj data s.sync.latch } }
  else s)

/-- SYN_VALUE_HIGH_WRITE (R281): a SIGNAL of a FENCE, a new VALUE of a COUNTER. -/
def State.valueWrite (s : State) (h : Nat) (low : Option Word) (high : Word) : State :=
  let lo : Nat := match low, storeFind s.sync.latch h with
    | some x, _ => x.toNat
    | none, some x => x.toNat
    | none, none => s.objValue h % 2 ^ 32
  let v := high.toNat * 2 ^ 32 + lo
  let s1 := s.clearLatch h
  if s.objType h = 1 then s1.signal h v else s1.setValue h v

/-- SYN_VALUE_HIGH_WRITE (R281); `low` is the other word of a single 64-bit write. -/
def execSynValueHighWrite (fn : Fin 33) (obj : Fin 16384) (low : Option Word) (data : Word) (s : State) :
    Host.Outcome State Fault Refusal :=
  .next (if s.valueWritable fn obj then s.valueWrite obj low data else s)

/-! ### Waits (R283, R284) -/

/-- A wait by its number. -/
def State.waitBy (s : State) (id : Nat) : Option Wait := s.sync.waits.find? (fun w => w.id = id)

/-- What a registration finds: a status whose notice then goes to the waiter. -/
def State.registerFinds (s : State) (w : Wait) : Option Nat :=
  if s.objType w.obj = 3 then s.terminal w.obj else s.waitStart w.obj w.threshold

/-- WAIT_REGISTER_RETRY (R283). -/
def State.waitRetry (s : State) (w : Wait) : State :=
  if w.registered || decide (8192 ≤ s.registeredWaits) then s
  else
    let w1 : Wait := { w with registered := true, notice := s.registerFinds w }
    s.setWaits (s.sync.waits.map (fun x => if x.id = w.id then w1 else x))

/-- WAIT_REGISTER_RETRY (R283). -/
def execWaitRegisterRetry (wait : Nat) (s : State) : Host.Outcome State Fault Refusal :=
  .next (if s.live then
    match s.waitBy wait with
    | some w => if w.obj < 16384 then s.waitRetry w else s
    | none => s
  else s)

/-- A notice reaches its waiter (R284). A satisfied wait with a timeout is LATE when its timer expires in that cycle; the
model counts no cycles, so that is a free value. -/
def State.waitNotice (s : State) (w : Wait) (st : Nat) : State :=
  if st = stOk && w.timeout ≠ 0 then
    let (n, s1) := s.takeFree
    s1.endWait w (if bitAt (Config.undefinedWord n).toNat 0 then stLate else stOk)
  else s.endWait w st

/-- WAIT_NOTICE (R283, R284). -/
def execWaitNotice (wait : Nat) (s : State) : Host.Outcome State Fault Refusal :=
  .next (if s.live then
    match s.waitBy wait with
    | some w => (match w.notice with
      | some st => s.waitNotice w st
      | none => s)
    | none => s
  else s)

/-- WAIT_TIMEOUT (R284): the waiter's own timer; another chip's waiter counts there. -/
def execWaitTimeout (wait : Nat) (s : State) : Host.Outcome State Fault Refusal :=
  .next (if s.live then
    match s.waitBy wait with
    | some w => (match w.who with
      | .remote _ _ => s
      | _ => if w.timeout = 0 then s else s.endWait w stTimeoutWait)
    | none => s
  else s)

end Sys2Proof.Machine
end

