-- ==== Sys2Proof/Machine/Events.lean ====
section
/-!
DEFINITION. The event queues' registers (R296 to R302): enabling, disabling, the read index, the mask, and owed OVERFLOW
records.
-/

namespace Sys2Proof.Machine

/-- Function `fn` writes the registers of target t (R224): VF k sees target k, the PF all of them. -/
def State.targetWrite (s : State) (fn t : Nat) : Bool :=
  if t < 32 then s.mayWrite fn t else fn = 0 && s.pfWrites

/-- The record that a thermal trip owes is posted when the routed target's queue is first enabled (R462). -/
def State.tripRecord (s : State) (t : Nat) : State :=
  match s.pwr.tripOwed with
  | none => s
  | some sensor =>
    if s.sharedTarget .thermal = t then
      ({ s with pwr := { s.pwr with tripOwed := none } }).raiseShared .thermal (stPwr 0x0A sensor) s.powerDetail s.avgPower
        (s.pwr.reserve / 1000)
    else s

/-- Set EVQ_CTRL.EN (R296): the indices and the drop count become 0; a SIZE outside 6 to 16 leaves EN = 0. -/
def State.evqOn (s : State) (t size : Nat) : State :=
  if s.rd .EVQ_CTRL_EN t = 1 then s
  else
    let s1 := s.wr .EVQ_CTRL_SIZE size t
    if size < 6 || 16 < size then s1
    else
      let s2 := (((s1.wr .EVQ_WRITE_INDEX 0 t).wr .EVQ_READ_INDEX 0 t).wr .EVQ_DROPPED_COUNT 0 t).wr .EVQ_CTRL_OVF 0 t
      (({ s2 with owed := storeErase s2.owed t }).wr .EVQ_CTRL_EN 1 t).tripRecord t

/-- EVQ_ENABLE (R296). -/
def execEvqEnable (fn : Fin 33) (t : Fin 34) (size : BitVec 5) (s : State) : Host.Outcome State Fault Refusal :=
  .next (if s.targetWrite fn t then s.evqOn t size.toNat else s)

/-- EVQ_DISABLE (R296): an owed OVERFLOW record is discarded. -/
def execEvqDisable (fn : Fin 33) (t : Fin 34) (s : State) : Host.Outcome State Fault Refusal :=
  .next (if s.targetWrite fn t then
    ({ s with owed := storeErase s.owed t }).wr .EVQ_CTRL_EN 0 t
  else s)

/-- A write of EVQ_READ (R298): ignored when it would leave more than the queue holds; one that leaves the condition true
sends the message again. -/
def State.evqConsume (s : State) (t v : Nat) : State :=
  if 2 ^ s.rd .EVQ_CTRL_SIZE t < sub32 (s.rd .EVQ_WRITE_INDEX t) v then s
  else
    let s1 := s.wr .EVQ_READ_INDEX v t
    if s1.evqCond t && t ≠ 33 then s1.msix (fnOfTarget t) else s1

/-- EVQ_READ_WRITE (R298). -/
def execEvqReadWrite (fn : Fin 33) (t : Fin 34) (data : Word) (s : State) : Host.Outcome State Fault Refusal :=
  .next (if s.targetWrite fn t then s.evqConsume t data.toNat else s)

/-- The bit of kind k acts in target t's bank (R301): never 0x0B, and a shared source's kind only where it is routed. -/
def State.kindActs (s : State) (t k : Nat) : Bool :=
  if k = 0x0B || k = 0x0E || k = 0x0F then false
  else if 0x10 ≤ k then [Shared.thermal, .ring, .dramError, .power].any (fun x => x.kind = k && s.sharedTarget x = t)
  else true

/-- A write of EVQ_MASK (R301): a kind that is unmasked while it is pending writes one DEFERRED record. -/
def State.evqUnmask (s : State) (t mask : Nat) : State :=
  let old := s.rd .EVQ_MASK_MASK t
  let pend := s.rd .EVQ_PEND_PEND t
  let s1 := s.wr .EVQ_MASK_MASK mask t
  (((List.range 20).drop 1).filter (fun k => kindBit old k && !kindBit mask k && kindBit pend k && s.kindActs t k)).foldl
    (fun (s : State) k => s.evPost t { kind := k, deferred := true }) s1

/-- EVQ_MASK_WRITE (R301): bits 19 to 1 of the word are the mask. -/
def execEvqMaskWrite (fn : Fin 33) (t : Fin 34) (data : Word) (s : State) : Host.Outcome State Fault Refusal :=
  .next (if s.targetWrite fn t then s.evqUnmask t (bits data.toNat 19 1) else s)

/-- OVERFLOW_RECORD (R300). -/
def execOverflowRecord (t : Fin 34) (s : State) : Host.Outcome State Fault Refusal :=
  .next (if s.live then s.evOwed t else s)

end Sys2Proof.Machine
end

