-- ==== Sys2Proof/Machine/Resets.lean ====
section
/-!
DEFINITION. The resets of the chip (R262, R263, R499, R505 to R507): cold, warm and device, and the rail detector.
-/

namespace Sys2Proof.Machine

/-- The fields that a warm and a device reset keep (R263): field and array indices. -/
def keptFields : List (Field × Nat × Nat) :=
  [(Field.GLB_DEVRESET_STATUS_STATUS, 0, 0), (.GLB_DEVRESET_CTRL_COUNT, 0, 0), (.GLB_DEVRESET_CTRL_MERGED, 0, 0),
    (.PWR_STATUS_TRIPPED, 0, 0), (.PWR_STATUS_WORN, 0, 0), (.PWR_WEAR_SECONDS, 0, 0)] ++
  (List.range 12).flatMap (fun c => (List.range 8).flatMap (fun e =>
    [(Field.MEM_SAVEALL_VALID, c, e), (Field.MEM_SAVEALL_BLOCK, c, e)]))

/-- The registers after a warm or device reset. -/
def State.keptRegs (s : State) : State :=
  keptFields.foldl (fun (r : State) x => r.wr x.1 (s.rd x.1 x.2.1 x.2.2) x.2.1 x.2.2) State.reset

/-- The management controller before its start: flash, fuses, log and starts stay. -/
def Mgc.stopped (m : Mgc) : Mgc :=
  { m with image := none, svcState := 0, svcCause := 0, received := 0, download := [], booted := false, devReset := false }

/-- What a warm and a device reset have in common (R263, R499): every register but those that are kept, every engine, queue,
object and cache; DRAM, the host's memory, flash and straps stay, TRACE_BUF while CRASH_LOG holds it. -/
def State.resetChip (s : State) : State :=
  { State.reset with
    pending := s.pending
    regs := s.keptRegs.regs
    mem := { dram := s.mem.dram, host := s.mem.host, trace := if s.featureOn 0x0D then s.mem.trace else [] }
    mgc := s.mgc.stopped
    pwr := { tripOwed := s.pwr.tripOwed }
    pcie := { s.pcie with reqs := [] }
    pins := { s.pins with wdogLow := false, cardId := 0 }
    tap := s.tap
    reply := s.reply
    sent := s.sent
    free := s.free
    nextId := s.nextId }

/-- PCIe after a fundamental reset: configuration space at its defaults, the link down. -/
def State.pcieReset (s : State) : State := { s with pcie := {} }

/-- PCIe after an FLR of the PF (R234): configuration space at its defaults; what belongs to the link stays. -/
def State.pcieFlr (s : State) : State :=
  { s with pcie := { speed := s.pcie.speed, width := s.pcie.width, up := s.pcie.up, aer := s.pcie.aer } }

/-! ### Device reset (R262) -/

/-- A cause of a device reset (R262): recorded and counted; one that meets a running device reset counts in MERGED. -/
def State.deviceReset (s : State) (st : Nat) : State :=
  if s.mgc.devReset && !s.mgc.booted then s.count .GLB_DEVRESET_CTRL_MERGED
  else
    let lost := s.rd .MGC_MBOX_CTRL_PENDING
    let s1 := (s.resetChip.wr .GLB_DEVRESET_STATUS_STATUS st).count .GLB_DEVRESET_CTRL_COUNT
    let s2 : State := { s1 with mgc := { s1.mgc with devReset := true } }
    s2.wr .MGC_MBOX_CTRL_LOST lost

/-- The chip is powered and no cold or warm reset is held: what raises a device reset can act. -/
def State.powered (s : State) : Bool := s.pins.pwrok && s.pins.resetN && s.pins.perstN

/-- HOST_REQUEST (R262, R493): GLB takes this write while a device reset runs, and during a freeze. -/
def execHostRequest (s : State) : Host.Outcome State Fault Refusal :=
  .next (if s.powered && !(s.fnCfg 0).d3hot && !s.inRecovery then s.deviceReset (stDevice 3 0) else s)

/-- PARSER_WATCHDOG (R260): the detail names the parser's head. -/
def execParserWatchdog (p : Fin 32) (q : Fin 16) (s : State) : Host.Outcome State Fault Refusal :=
  .next (if s.live then s.deviceReset (stDevice 1 (p.val * 256 + q.val)) else s)

/-- PARSER_FAULT (R261): the detail is the number of the check. -/
def execParserFault (check : BitVec 16) (s : State) : Host.Outcome State Fault Refusal :=
  .next (if s.live then s.deviceReset (stDevice 2 check.toNat) else s)

/-- MGC_WATCHDOG (R477): MGC_FAULT 1. -/
def execMgcWatchdog (s : State) : Host.Outcome State Fault Refusal :=
  .next (if s.live && s.mgc.booted then s.deviceReset (stDevice 7 1) else s)

/-- MGC_EXCEPTION (R477): MGC_FAULT 2. -/
def execMgcException (s : State) : Host.Outcome State Fault Refusal :=
  .next (if s.live && s.mgc.booted then s.deviceReset (stDevice 7 2) else s)

/-- PF_FLR (R234, R494): a device reset that also returns the configuration space to its defaults. -/
def execPfFlr (s : State) : Host.Outcome State Fault Refusal :=
  .next (if s.powered then (s.deviceReset (stDevice 4 0)).pcieFlr else s)

/-! ### Cold and warm resets -/

/-- Everything but fuses and flash (R499); DRAM contents are undefined afterwards (R367). -/
def State.coldReset (s : State) : State :=
  { State.reset with
    pending := s.pending
    mem := { host := s.mem.host }
    mgc := { s.mgc.stopped with starts := 0, modules := [] }
    pins := { s.pins with pwrok := false, thermTrip := false, wdogLow := false, smbAlert := false, cardId := 0 }
    reply := s.reply
    sent := s.sent
    free := s.free
    nextId := s.nextId }

/-- COLD_RESET (R499, R506): PWROK falls. -/
def execColdReset (s : State) : Host.Outcome State Fault Refusal := .next s.coldReset

/-- PWROK_RISE (R505): the straps latch; the ROM starts with BOOT_START. -/
def execPwrokRise (straps : Straps) (s : State) : Host.Outcome State Fault Refusal :=
  .next (if s.pins.pwrok then s else { s with pins := { s.pins with pwrok := true, straps := straps } })

/-- A reset pin falls (R506): one warm reset covers both pins. -/
def State.warmReset (s : State) (pin : ResetPin) : State :=
  let s1 := if s.powered then s.resetChip.pcieReset else s
  match pin with
  | .resetN => { s1 with pins := { s1.pins with resetN := false } }
  | .perstN => { s1 with pins := { s1.pins with perstN := false } }

/-- WARM_RESET (R506); ignored while PWROK is low. -/
def execWarmReset (pin : ResetPin) (s : State) : Host.Outcome State Fault Refusal :=
  .next (if s.pins.pwrok then s.warmReset pin else s)

/-- WARM_RESET_END (R505, R506): both pins are high again, and the straps latch. -/
def execWarmResetEnd (straps : Straps) (s : State) : Host.Outcome State Fault Refusal :=
  .next (if s.pins.pwrok && !s.powered then
    { s with pins := { s.pins with resetN := true, perstN := true, straps := straps } }
  else s)

/-- RAIL_UNDERVOLTAGE (R507): both FELT_ALIVE pins go low, and ports in training stop. -/
def State.feltLow (s : State) : State :=
  [0, 1].foldl (fun (s : State) k =>
    let s1 := s.wr .FLT_PORT_ALIVE 0 k
    if s1.portActive k then s1 else s1.wr .FLT_PORT_STATE 0 k) s

/-- RAIL_UNDERVOLTAGE (R507): any of the three rails acts alike. -/
def execRailUndervoltage (_rail : Fin 3) (s : State) : Host.Outcome State Fault Refusal := .next s.feltLow

end Sys2Proof.Machine
end

