-- ==== Sys2Proof/Machine/Ring.lean ====
section
/-!
DEFINITION. Ports, and the ring's management (R409 to R412, R417, R423, R429 to R443): training, membership, deltas, functions,
roots, invalidations, columns and firmware as a chip receives them.
-/

namespace Sys2Proof.Machine

/-! ### Training (R409 to R412) -/

/-- A chip that joins says so to the master (R436): position and firmware version. -/
def State.readyBody (s : State) : List Byte :=
  [0x0F, 0, 0, 0] ++ toLe 4 s.pos ++ toLe 8 (s.rd .MGC_FW_VERSION_FWVER)

/-- The receive buffer's places by 2 VC + class that a port offers after training (R418). -/
def startCredits : List Nat := [32, 32, 32, 32, 8, 8, 4, 4]

/-- Forwarding on a port whose peer has changed starts again from OFFSET 0 (R443). -/
def State.fwPeer (s : State) (k old : Nat) : State :=
  let chunk (r : Req) : Bool := leAt r.msg 0 1 = 6 && r.dst = some old
  { s with ring := { s.ring with
    fw := s.ring.fw.map (fun f => f.setNext k 0)
    reqs := s.ring.reqs.filter (fun r => !chunk r) } }

/-- A port becomes ACTIVE (R411): its link layer starts anew, the master hears of it, and a chip that is not live says that it
is ready (R436). -/
def State.portUp (s : State) (k peer : Nat) (wide : Bool) : State :=
  let old := s.rd .FLT_PORT_PEER k
  let f : FPort := { (s.port k).down with credits := startCredits, everActive := true, failed := false }
  let s1 := s.setPort k f
  let s2 := ((s1.wr .FLT_PORT_STATE 5 k).wr .FLT_PORT_WIDTH (if wide then 8 else 4) k).wr .FLT_PORT_PEER peer k
  let s3 := if old ≠ peer then s2.fwPeer k old else s2
  let s4 := s3.linkChanged k
  let m := s4.rd .GLB_FURNISH_STATUS_MASTER
  if m ≠ s4.pos && s4.rd .FLT_STATUS_LIVE = 0 then s4.feltReqBy k m 7 0 s4.readyBody else s4

/-- TRAINING_COMPLETE (R411). -/
def execTrainingComplete (port : Fin 2) (peer : Fin 16) (wide : Bool) (s : State) : Host.Outcome State Fault Refusal :=
  .next (
    let st := s.rd .FLT_PORT_STATE port
    if s.live && s.rd .FLT_PORT_ALIVE port = 1 && 1 ≤ st && decide (st < 5) then s.portUp port peer wide else s)

/-- TRAIN_FAIL (R412): the port waits; the first failure since the port was last ACTIVE is recorded. -/
def State.trainFail (s : State) (k cause : Nat) : State :=
  let f := s.port k
  let s1 := ((s.wr .FLT_PORT_STATE 0 k).count .FLT_PORT_RETRAINS 1 k).setPort k { f with failed := true }
  if f.failed then s1 else s1.raiseRing (stRing 4 (k * 256 + cause * 16))

/-- TRAIN_FAIL (R412). -/
def execTrainFail (port : Fin 2) (cause : Fin 3) (s : State) : Host.Outcome State Fault Refusal :=
  .next (
    let st := s.rd .FLT_PORT_STATE port
    if s.live && 1 ≤ st && decide (st < 5) then s.trainFail port cause else s)

/-- TRAIN_RETRY (R412). -/
def execTrainRetry (port : Fin 2) (s : State) : Host.Outcome State Fault Refusal :=
  .next (if s.live && s.rd .FLT_PORT_ALIVE port = 1 && s.rd .FLT_PORT_STATE port = 0 then
    s.wr .FLT_PORT_STATE 1 port else s)

/-- LINK_DOWN (R417). -/
def execLinkDown (port : Fin 2) (cause : Fin 3) (s : State) : Host.Outcome State Fault Refusal :=
  .next (if s.live && s.portActive port then s.portDown port cause else s)

/-- LOCK_LOSS (R417): a link-down of cause 0. -/
def execLockLoss (port : Fin 2) (s : State) : Host.Outcome State Fault Refusal :=
  .next (if s.live && s.portActive port then s.portDown port 0 else s)

/-- SILENCE_TIMEOUT (R417): a link-down of cause 2. -/
def execSilenceTimeout (port : Fin 2) (s : State) : Host.Outcome State Fault Refusal :=
  .next (if s.live && s.portActive port then s.portDown port 2 else s)

/-- FLT_CTRL.WITHDRAW (R409): the pins go low, or rise again and the ports detect. -/
def State.withdraw (s : State) (v : Bool) : State :=
  let s1 := s.wr .FLT_CTRL_WITHDRAW (b2n v)
  if v then
    [0, 1].foldl (fun (s : State) k =>
      let s2 := s.wr .FLT_PORT_ALIVE 0 k
      if s2.portActive k then s2 else s2.wr .FLT_PORT_STATE 0 k) s1
  else if s1.ringed && s1.rd .FLT_STATUS_STRAP_ERR = 0 then
    [0, 1].foldl (fun (s : State) k =>
      let s2 := (s.wakeNow (domFelt k)).wr .FLT_PORT_ALIVE 1 k
      if s2.rd .FLT_PORT_STATE k = 0 then s2.wr .FLT_PORT_STATE 1 k else s2) s1
  else s1

/-- WITHDRAW (R409). -/
def execWithdraw (value : Bool) (s : State) : Host.Outcome State Fault Refusal :=
  .next (if s.pfWrites then s.withdraw value else s)

/-- REDISCOVER (R430). -/
def execRediscover (s : State) : Host.Outcome State Fault Refusal :=
  .next (if s.pfWrites && s.isMaster then s.discover else s)

/-- HEARTBEAT_SEND (R429): to every other live member. -/
def execHeartbeatSend (s : State) : Host.Outcome State Fault Refusal :=
  .next (if s.live && s.isMaster then
    s.otherMembers.foldl (fun (s : State) m => s.feltReq m 7 0 ([4, 0, 0, 0] ++ toLe 2 (s.rd .FLT_STATUS_EPOCH)) .ctl) s
  else s)

/-! ### Orphans (R435) -/

/-- The chip's work of a spanning partition is discarded, with what it holds for it. -/
def State.discardSpan (s : State) (p : Nat) : State :=
  let c := StopCause.fault p
  let s1 := s.emptyPreloads c
  let s2 := (s1.holders c).foldl (fun (s : State) u => s.discardWork c u) s1
  let s3 := (s2.dropLaunches c).dropStops (fun x => x.cause = c)
  { s3 with sched := { s3.sched with saved := s3.sched.saved.filter (fun x => x.p ≠ p) } }

/-- ORPHANED (R435): the record, spanning work discarded, requests to other chips ended. -/
def State.orphan (s : State) : State :=
  let s1 := (s.wr .FLT_STATUS_ORPHAN 1).raiseRing (stRing 7 0)
  let s2 := s1.spanParts.foldl State.discardSpan s1
  let s3 : State := { s2 with ring := { s2.ring with funcs := [] } }
  s3.endUnreachable (fun _ => true)

/-- ORPHANED (R435). -/
def execOrphaned (s : State) : Host.Outcome State Fault Refusal :=
  .next (if s.live && s.ringed && !s.isMaster && s.rd .FLT_STATUS_ORPHAN = 0 then s.orphan else s)

/-! ### RINGCTL (R423) -/

/-- Answer a request by the port it came from, whatever the way to its sender is. -/
def State.replyBy (s : State) (k : Nat) (m : List Byte) (st : Nat) (data : List Byte) : State :=
  s.feltCplBy k (msgOp m) (msgSrc m) (msgTag m) (msgPart m) st data

/-- Take the next RINGCTL message of a subcode and perform it once (R425); `act` gets the message and answers it. -/
def State.ringctl (s : State) (k sub : Nat) (act : State → List Byte → State) : State :=
  s.takeMsg k (fun m => msgOp m = 7 && msgSub m = sub) (fun s m => s.serve m (fun s => act s m))

/-- The body of a RINGCTL message after SUB. -/
def ctlBody (m : List Byte) : List Byte := m.drop 12

/-- The entries of a TOKEN: position and flags. -/
def tokenEntries (b : List Byte) : List (Nat × Nat) :=
  (List.range (leAt b 1 1)).map (fun i => (leAt b (2 + 2 * i) 1, leAt b (3 + 2 * i) 1))

/-- The chip is a warm spare by the RING record (R18). -/
def State.spare (s : State) : Bool :=
  match ringRec s.furn.recs with
  | some r => bitAt r.spares s.pos
  | none => false

/-- A TOKEN comes back to the master (R430): its entries are collected; on the other port it closes the ring. -/
def State.tokenBack (s : State) (k : Nat) (b : List Byte) : State :=
  if s.ring.tokens = 0 then s
  else
    let dir := leAt b 0 1 % 2
    let es := tokenEntries b
    let brk := if k = dir then (es.getLast?).map (fun e => (e.1, decide (dir = 0))) else s.ring.brk
    let s1 : State := { s with ring := { s.ring with
      entries := s.ring.entries ++ es.map (fun e => (e.1, e.2 % 256 + 256 * dir))
      tokens := s.ring.tokens - 1
      brk := brk } }
    if s1.ring.tokens = 0 then s1.tokensDone else s1

/-- A TOKEN at another chip (R430): on its way back it passes on; otherwise the chip adds its entry, and it goes on, or back
where the far port is down. -/
def State.tokenOn (s : State) (k : Nat) (b : List Byte) : State :=
  let dir := leAt b 0 1
  let es := tokenEntries b
  let back : Bool := match es.getLast? with
    | some e => bitAt e.2 2
    | none => false
  if back then (if s.portActive (1 - k) then s.feltReqOn (1 - k) 7 0 (tokenBody dir es) else s)
  else
    let s1 := s.wr .FLT_STATUS_CHANGING 1
    let far := s1.portActive (1 - k)
    let flags := b2n s1.pins.straps.master + 2 * b2n s1.spare + 4 * b2n !far
    s1.feltReqOn (if far then 1 - k else k) 7 0 (tokenBody dir (es ++ [(s1.pos, flags)]))

/-- TOKEN (R430). -/
def execToken (port : Fin 2) (s : State) : Host.Outcome State Fault Refusal :=
  .next (s.ringctl port 1 (fun s m =>
    let s1 := s.replyBy port m stOk []
    if s1.isMaster then s1.tokenBack port (ctlBody m) else s1.tokenOn port (ctlBody m)))

/-- MEASURE (R423): the answer carries the furnish measurement. -/
def execMeasure (port : Fin 2) (s : State) : Host.Outcome State Fault Refusal :=
  .next (s.ringctl port 2 (fun s m => s.replyBy port m stOk s.furnMeasure))

/-- MEMBERSHIP (R432). -/
def execMembership (port : Fin 2) (s : State) : Host.Outcome State Fault Refusal :=
  .next (s.ringctl port 3 (fun s m =>
    let b := ctlBody m
    (s.replyBy port m stOk []).installMembers (leAt b 0 2) (leAt b 2 2) (leAt b 4 2)))

/-- HEARTBEAT (R429): it is answered. -/
def execHeartbeat (port : Fin 2) (s : State) : Host.Outcome State Fault Refusal :=
  .next (s.ringctl port 4 (fun s m => s.replyBy port m stOk []))

/-- LINK_CHANGE (R430): the master discovers again. -/
def execLinkChange (port : Fin 2) (s : State) : Host.Outcome State Fault Refusal :=
  .next (s.ringctl port 5 (fun s m =>
    let s1 := s.replyBy port m stOk []
    if s1.isMaster then s1.discover else s1))

/-- PREPARE (R40): the pieces are collected; the last one verifies and stages the delta. -/
def execPrepare (port : Fin 2) (s : State) : Host.Outcome State Fault Refusal :=
  .next (s.ringctl port 6 (fun s m =>
    match s.rxPiece (m.drop 8) with
    | (s1, none) => s1.replyTo m stOk []
    | (s1, some bs) => let (s2, st) := s1.prepareDelta bs; s2.replyTo m st []))

/-- The answer to COMMIT: a member whose staged delta is gone (R233) makes the delta fail. -/
def State.commitStatus (s : State) (st gen : Nat) : Nat :=
  if st ≠ stOk || (match s.furn.staged with
    | some bs => furnGen bs = gen
    | none => false) then stOk
  else stFurnish 0x13 s.pos

/-- COMMIT (R40). -/
def execCommit (port : Fin 2) (s : State) : Host.Outcome State Fault Refusal :=
  .next (s.ringctl port 7 (fun s m =>
    let b := ctlBody m
    (s.commitHere (leAt b 0 4) (leAt b 4 8)).replyBy port m (s.commitStatus (leAt b 0 4) (leAt b 4 8)) []))

/-- DELTA_REPLAY (R35). -/
def execDeltaReplay (port : Fin 2) (s : State) : Host.Outcome State Fault Refusal :=
  .next (s.ringctl port 8 (fun s m =>
    match s.rxPiece (m.drop 8) with
    | (s1, none) => s1.replyBy port m stOk []
    | (s1, some bs) => (s1.replayDelta bs).replyBy port m stOk []))

/-- A teardown stop at a member (R315): its waits and saved blocks of the partition are dropped, and its engines are asked. -/
def State.memberTeardown (s : State) (p src tag : Nat) : State :=
  let c := StopCause.fault p
  let s1 := (s.dropMigrations p).emptyPreloads c
  let s2 : State := { s1 with
    sched := { s1.sched with saved := s1.sched.saved.filter (fun x => x.p ≠ p) }
    vats := s1.vats.map (fun (v : Nat × Vat) => (v.1, { v.2 with preempt := v.2.preempt.filter (fun x => x ≠ p) }))
    ring := { s1.ring with
      reqs := s1.ring.reqs.filter (fun r => !(r.p = p && leAt r.msg 0 1 = 5 && r.owner ≠ .ctl))
      funcs := s1.ring.funcs ++ [⟨src, tag, 4, p⟩] } }
  let ws := s2.holders c
  if s2.hb.stops.any (fun x => x.cause = c) then s2
  else if ws = [] then (s2.dropLaunches c).answerFuncs
  else
    let (id, s3) := s2.takeId
    { s3 with hb := { s3.hb with stops := s3.hb.stops ++ [⟨id, c, ws⟩] } }

/-- FUNC (R36, R315): a teardown stop, or a stop or start of the spanning partitions here. -/
def State.serveFunc (s : State) (m : List Byte) : State :=
  let b := ctlBody m
  let mode := leAt b 0 2
  let src := msgSrc m
  let tag := msgTag m
  if mode = 4 then s.memberTeardown (leAt b 2 2 % 32) src tag
  else
    let s1 : State := { s with ring := { s.ring with funcs := s.ring.funcs ++ [⟨src, tag, mode, 0⟩] } }
    let s2 := if mode = 3 then s1.spanParts.foldl State.beginStart s1
      else s1.spanParts.foldl (fun (s : State) p => s.beginStop p (decide (mode = 2))) s1
    s2.answerFuncs

/-- FUNC (R36, R315). -/
def execFunc (port : Fin 2) (s : State) : Host.Outcome State Fault Refusal :=
  .next (s.ringctl port 9 State.serveFunc)

/-- ROOT (R335): the home chip's root of a spanning partition. -/
def execRoot (port : Fin 2) (s : State) : Host.Outcome State Fault Refusal :=
  .next (s.ringctl port 0x0A (fun s m =>
    let b := ctlBody m
    let p := leAt b 0 4 % 32
    ((s.wrAddr .XLT_ROOT_ADDR (leAt b 4 8) p).wr .XLT_ROOT_EN (leAt b 4 8) p).replyTo m stOk []))

/-- INVALIDATE (R349): the member's caches drop the scope; the answer follows the last of them. -/
def execInvalidate (port : Fin 2) (s : State) : Host.Outcome State Fault Refusal :=
  .next (s.ringctl port 0x0B (fun s m =>
    let b := ctlBody m
    let p := leAt b 0 4 % 32
    let s1 := (s.wrAddr .XLT_INV_ADDR_ADDR (leAt b 8 8) p).invalRequest p (2 ^ 32 + leAt b 4 4)
    { s1 with ring := { s1.ring with funcs := s1.ring.funcs ++ [⟨msgSrc m, msgTag m, 5, p⟩] } }))

/-- A column arrives (R437): its launch is read and dispatches here; a refusal ends the column with its status. -/
def State.serveColumn (s : State) (m : List Byte) : State × Bool :=
  let b := ctlBody m
  let p := leAt b 0 4 % 32
  let col := leAt b 12 8
  let src := msgSrc m
  let (id, s1) := s.takeId
  match s1.readLaunch p (.remote src (msgTag m)) (leAt b 4 8) id (.column src col) with
  | (s2, .fail .stall) => (s2, false)
  | (s2, .fail f) => ((s2.failTile p 0 0 f).replyTo m stOk [], true)
  | (s2, .refused st) => ((s2.replyTo m stOk []).feltReq src 7 p (columnDoneBody p col st) .ctl, true)
  | (s2, .ok l) => ((s2.setLaunch id { l with total := l.gz }).replyTo m stOk [], true)

/-- COLUMN (R437): the message stays while its reads wait. -/
def State.column (s : State) (k : Nat) : State :=
  if !s.live then s
  else match s.rxHead k (fun m => msgOp m = 7 && msgSub m = 0x0C) with
    | none => s
    | some x =>
      let m := x.bytes
      if s.ring.performed.any (fun y => y.1 = (msgSrc m, msgTag m)) then (s.leaveRx k x).serve m (fun s => s)
      else match s.serveColumn m with
        | (s1, true) => s1.leaveRx k x
        | (s1, false) => s1

/-- COLUMN (R437). -/
def execColumn (port : Fin 2) (s : State) : Host.Outcome State Fault Refusal := .next (s.column port)

/-- COLUMN_DONE (R438). -/
def execColumnDone (port : Fin 2) (s : State) : Host.Outcome State Fault Refusal :=
  .next (s.ringctl port 0x0D (fun s m =>
    let b := ctlBody m
    ((s.replyTo m stOk []).columnDone (leAt b 0 4 % 32) (leAt b 4 8) (leAt b 12 4)).settleStops))

/-- A member's result of the image being forwarded (R442). -/
def State.fwResult (s : State) (image st src : Nat) : State :=
  if !s.isMaster || image ≠ s.ring.fwImage then s
  else if statusOk st then s.wr .FLT_FW_STATUS_DONE (setBit (s.rd .FLT_FW_STATUS_DONE) src)
  else s.wr .FLT_FW_STATUS_FAILED (setBit (s.rd .FLT_FW_STATUS_FAILED) src)

/-- FW_RESULT (R442). -/
def execFwResult (port : Fin 2) (s : State) : Host.Outcome State Fault Refusal :=
  .next (s.ringctl port 0x0E (fun s m =>
    let b := ctlBody m
    (s.replyTo m stOk []).fwResult (leAt b 0 4) (leAt b 4 4) (msgSrc m)))

/-- READY (R436). -/
def execReady (port : Fin 2) (s : State) : Host.Outcome State Fault Refusal :=
  .next (s.ringctl port 0x0F (fun s m =>
    let n := leAt (ctlBody m) 0 4 % 16
    let s1 := s.replyBy port m stOk []
    let s2 : State := { s1 with ring := { s1.ring with
      ready := if s1.ring.ready.contains n then s1.ring.ready else s1.ring.ready ++ [n] } }
    s2.admitStep))

/-- BAD_SUB (R423): any other subcode. -/
def execBadSub (port : Fin 2) (s : State) : Host.Outcome State Fault Refusal :=
  .next (s.takeMsg port (fun m => msgOp m = 7 && (msgSub m = 0 || 0x0F < msgSub m))
    (fun s m => s.serve m (fun s => s.replyTo m (stRing 0x0A (msgSub m)) [])))

/-! ### FWCHUNK (R441 to R443) -/

/-- The staging area can hold an image. -/
def State.canStage (s : State) (total : Nat) : Bool :=
  let a := s.addrOf .FLT_FW_STAGE_ADDR
  a ≠ 0 && decide (total ≤ 0x1800000) && s.usableRange a total

/-- The chip holds every byte (R442): it checks the image and writes it to the inactive slot, or reports why not. -/
def State.fwComplete (s : State) (image total : Nat) : State :=
  let s1 : State := { s with ring := { s.ring with fwImage := image } }
  let fail (c : Nat) : State :=
    let st := stRing 9 (c * 256 + s1.pos)
    (s1.fwReport image st).raiseRing st
  if s1.flashBusy || s1.onTrial || slotState s1.mgc.log (activeSlot s1.mgc.log) ≠ 2 then fail cBusy
  else
    let slot := 1 - activeSlot s1.mgc.log
    match s1.checkStaged total slot with
    | .error c => fail c
    | .ok i => s1.writeSlot slot 1 (imageRead s1.staged) i

/-- Forward a chunk as it came, on a chip that cannot store it. -/
def State.fwRelay (s : State) (k image off total : Nat) (data : List Byte) : State :=
  let s1 := if s.portActive (1 - k) && s.rd .FLT_PORT_PEER (1 - k) ≠ s.rd .GLB_FURNISH_STATUS_MASTER then
      s.feltReqOn (1 - k) 6 0 (chunkBody image off total data) else s
  if off + data.length = total then s1.fwReport image (stRing 0x0B s1.pos) else s1

/-- A chunk is stored when it continues what is here, and goes on from the other port. -/
def State.fwStore (s : State) (k image off total : Nat) (data : List Byte) : State :=
  let f : FwFwd := match s.ring.fw with
    | some f => if f.image = image then f else { image := image, total := total, got := 0 }
    | none => { image := image, total := total, got := if s.ring.fwImage = image then total else 0 }
  let s1 : State := { s with ring := { s.ring with fw := some f } }
  let s2 := if off = f.got && off < total then
      let s3 := s1.physWrite (s1.addrOf .FLT_FW_STAGE_ADDR + off) data
      let s4 : State := { s3 with ring := { s3.ring with fw := some { f with got := off + data.length } } }
      if off + data.length = total then s4.fwComplete image total else s4
    else s1
  s2.fwPump (1 - k) 64

/-- A chunk at a member. -/
def State.serveChunk (s : State) (k : Nat) (m : List Byte) : State :=
  let b := m.drop 8
  let image := leAt b 0 4
  let off := leAt b 4 4
  let total := leAt b 8 4
  let data := (b.drop 12).take (min 192 (total - off))
  let s1 := s.replyBy k m stOk []
  if s1.canStage total then s1.fwStore k image off total data else s1.fwRelay k image off total data

/-- FWCHUNK (R441). -/
def execFwchunk (port : Fin 2) (s : State) : Host.Outcome State Fault Refusal :=
  .next (s.takeMsg port (fun m => msgOp m = 6) (fun s m => s.serve m (fun s => s.serveChunk port m)))

/-- Forwarding ends when every port has sent all, and all is answered; a chip that joined meanwhile gets the image from OFFSET
0 (R443). -/
def State.fwEnd (s : State) : State :=
  match s.ring.fw with
  | none => s
  | some f =>
    let ports := if s.isMaster then s.fwPorts
      else [0, 1].filter (fun k => s.portActive k && s.rd .FLT_PORT_PEER k ≠ s.rd .GLB_FURNISH_STATUS_MASTER && f.next k ≠ 0)
    let ended : Bool := f.got = f.total && ports.all (fun k => f.next k = f.total && s.chunksOut k = 0)
    if !ended then s
    else if f.again && s.isMaster then
      let s1 : State := { s with ring := { s.ring with fw := some { f with nextE := 0, nextW := 0, again := false } } }
      s1.fwPorts.foldl (fun (s : State) k => s.fwPump k 64) s1
    else { s with ring := { s.ring with fw := none } }

/-! ### CPL (R422, R424) -/

/-- A completion ends its request; then what it lets go on (R431, R437, R441). -/
def State.takeCpl (s : State) (m : List Byte) : State :=
  match s.ring.reqs.find? (fun r => r.id = msgTag m && r.dst = some (msgSrc m)) with
  | none => s
  | some r =>
    let b := msgBody m
    let s1 := (s.endReq r (leAt b 0 4) (b.drop 4)).admitStep
    (((s1.fwPump 0 64).fwPump 1 64).fwEnd).columnEnds

/-- CPL (R422, R424). -/
def execCpl (port : Fin 2) (s : State) : Host.Outcome State Fault Refusal :=
  .next (s.takeMsg port (fun m => msgOp m = 8) State.takeCpl)

end Sys2Proof.Machine
end

