-- ==== Sys2Proof/Machine/Pci.lean ====
section
/-!
DEFINITION. The PCIe attachment (R216 to R234, R298, R300, R516): doorbells, the memory window, completions of host-memory
requests, power states and interrupts of the functions, function level resets of VFs, and the link.
-/

namespace Sys2Proof.Machine

/-- A read from outside answers Unsupported Request, which AER logs (R231). -/
def State.unsupported (s : State) : State := { s.aer 0 with reply := .unsupported }

/-- A read from outside answers Completer Abort, which AER logs (R226, R231). -/
def State.completerAbort (s : State) : State := { s.aer 1 with reply := .abort }

/-! ### Doorbells (R219 to R221) -/

/-- DOORBELL_WRITE (R219): only a 32-bit write takes effect. -/
def execDoorbellWrite (fn : Fin 33) (p : Fin 32) (q : Fin 16) (bytes : Nat) (value : Word) (s : State) :
    Host.Outcome State Fault Refusal :=
  .next (if bytes = 4 && s.bellOk fn p then s.setBell p q value.toNat else s)

/-! ### The memory window (R225 to R227) -/

/-- The size S of BAR4. -/
def State.winSize (s : State) : Nat := 2 ^ (28 + s.pcie.bar4)

/-- The local address of a window offset: the bits of ADDR below log2(S) are 0. -/
def State.winAddr (s : State) (off : Nat) : Nat := s.addrOf .GLB_WIN_BASE_ADDR / s.winSize * s.winSize + off

/-- The PCIe window as a requester (kind 11). -/
def winAsker : Asker := ⟨.pcie, 11, 0⟩

/-- The window reaches the range: inside S, installed DRAM, no carve-out, and the PF takes accesses (R225, R226, R230). -/
def State.winOk (s : State) (off n : Nat) : Bool :=
  s.fnUp 0 && decide (off + n ≤ s.winSize) && s.usableRange (s.winAddr off) n

/-- A read through the window. -/
def State.winRead (s : State) (off n : Nat) : State :=
  if !s.winOk off n then s.unsupported
  else match s.l2Read winAsker .wb (s.winAddr off) n with
    | (s1, some bs) => { s1 with reply := .data bs }
    | (s1, none) => s1.completerAbort

/-- BAR4_READ (R225, R226). While the chip's clocks do not run nothing answers. -/
def execBar4Read (off : BitVec 36) (len : Nat) (s : State) : Host.Outcome State Fault Refusal :=
  .next (if s.live then s.winRead off.toNat len else s)

/-- BAR4_WRITE (R225, R226): a write out of reach is discarded. -/
def execBar4Write (off : BitVec 36) (bytes : List Byte) (s : State) : Host.Outcome State Fault Refusal :=
  .next (if !s.live then s
    else if s.winOk off.toNat bytes.length then (s.l2Write winAsker .wb (s.winAddr off.toNat) bytes).1
    else s.aer 0)

/-- BAR4_RESIZE (R227): GLB_WIN_BASE is not changed. -/
def execBar4Resize (size : Fin 9) (s : State) : Host.Outcome State Fault Refusal :=
  .next (if s.powered then { s with pcie := { s.pcie with bar4 := size } } else s)

/-! ### Host-memory requests (R229) -/

/-- The outstanding request of a number. -/
def State.hostReq (s : State) (id : Nat) : Option Req := s.pcie.reqs.find? (fun r => r.id = id)

/-- The state without a request. -/
def State.dropHostReq (s : State) (id : Nat) : State :=
  { s with pcie := { s.pcie with reqs := s.pcie.reqs.filter (fun r => r.id ≠ id) } }

/-- A request ends in error: its work ends as an uncorrectable read ends it. -/
def State.hostFail (s : State) (r : Req) : State := (s.dropHostReq r.id).failOwner r.owner r.p stHostError r.va

/-- A completion arrives: its bytes go to the work that asked, or the request ends in error. -/
def State.hostAnswer (s : State) (id : Nat) (status : HostCpl) (bytes : List Byte) : State :=
  match s.hostReq id with
  | none => s
  | some r =>
    match status with
    | .ok => if bytes.length = r.n then ((s.dropHostReq id).keep r.owner r.addr bytes).wake r.owner else s
    | .poisoned => (s.aer 3).hostFail r
    | .ur => s.hostFail r
    | .ca => s.hostFail r

/-- HOST_COMPLETION (R229). -/
def execHostCompletion (req : Nat) (status : HostCpl) (bytes : List Byte) (s : State) : Host.Outcome State Fault Refusal :=
  .next (if s.live then s.hostAnswer req status bytes else s)

/-- COMPLETION_TIMEOUT (R229). -/
def execCompletionTimeout (req : Nat) (s : State) : Host.Outcome State Fault Refusal :=
  .next (if s.live then
    match s.hostReq req with
    | some r => (s.aer 2).hostFail r
    | none => s
  else s)

/-! ### Functions: power states and interrupts (R230, R298, R300) -/

/-- The event target of a function. -/
def targetOfFn (fn : Nat) : Nat := if fn = 0 then 32 else fn - 1

/-- The function exists: the PF, or an enabled VF. -/
def State.fnExists (s : State) (fn : Nat) : Bool := s.powered && (fn = 0 || s.vfEnabled (fn - 1))

/-- A pending message of a function that can send is sent if the interrupt condition still holds (R298). -/
def State.sendPending (s : State) (fn : Nat) : State :=
  let c := s.fnCfg fn
  if c.pending && c.sends && !c.mask then
    let s1 := s.setFn fn { c with pending := false }
    if s.evqCond (targetOfFn fn) then { s1 with sent := fn :: s1.sent } else s1
  else s

/-- The function can send again: its pending message, then an owed OVERFLOW record. -/
def State.fnSends (s : State) (fn : Nat) : State :=
  let s1 := s.sendPending fn
  if s1.live then s1.evOwed (targetOfFn fn) else s1

/-- D3HOT_ENTRY (R230). -/
def execD3hotEntry (fn : Fin 33) (s : State) : Host.Outcome State Fault Refusal :=
  .next (if s.fnExists fn then s.setFn fn { s.fnCfg fn with d3hot := true } else s)

/-- D0_RETURN (R230, R300). -/
def execD0Return (fn : Fin 33) (s : State) : Host.Outcome State Fault Refusal :=
  .next (if s.fnExists fn then (s.setFn fn { s.fnCfg fn with d3hot := false }).fnSends fn else s)

/-- BUS_MASTER_ENABLE (R298, R300). -/
def execBusMasterEnable (fn : Fin 33) (s : State) : Host.Outcome State Fault Refusal :=
  .next (if s.fnExists fn then (s.setFn fn { s.fnCfg fn with busMaster := true }).fnSends fn else s)

/-- MSIX_VECTOR_UNMASK (R298). -/
def execMsixVectorUnmask (fn : Fin 33) (s : State) : Host.Outcome State Fault Refusal :=
  .next (if s.fnExists fn then (s.setFn fn { s.fnCfg fn with mask := false }).sendPending fn else s)

/-! ### Function level reset of a VF (R232, R233, R494) -/

/-- An FLR of a STAGED partition makes the pending delta fail (R233): at the master at once; a member's answer to COMMIT
fails it. -/
def State.flrStaged (s : State) (p : Nat) : State :=
  if s.funcState p ≠ fnStaged then s
  else match s.furn.delta, s.furn.staged with
    | some d, _ => s.failDelta d s.pos
    | none, some bs => ({ s with furn := { s.furn with staged := none } }).unstage bs
    | none, none => s

/-- Initiate FLR of VF k: its configuration space returns to its defaults and its pending completions are discarded; the
teardown runs on the home chip, and not in a freeze. -/
def State.flrVf (s : State) (k : Nat) : State :=
  let s0 := s.setFn (k + 1) {}
  let s1 : State := { s0 with pcie := { s0.pcie with reqs := s0.pcie.reqs.filter (fun r => r.fn ≠ k + 1) } }
  if (s1.part k).isSome && !s1.homed k then s1
  else if s1.flrRuns k then s1
  else
    let s2 := s1.wr .GLB_FLR_STATUS_RUNNING (setBit (s1.rd .GLB_FLR_STATUS_RUNNING) k)
    if s2.live then (s2.flrStaged k).startReclaim k else s2

/-- VF_FLR (R232). -/
def execVfFlr (vf : Fin 32) (s : State) : Host.Outcome State Fault Refusal :=
  .next (if s.fnExists (vf.val + 1) then s.flrVf vf else s)

/-- VF_ENABLE_CLEAR (R233): every enabled VF at once. -/
def execVfEnableClear (s : State) : Host.Outcome State Fault Refusal :=
  .next (if s.powered then
    let s1 := ((List.range 32).filter s.vfEnabled).foldl (fun (s : State) k => s.flrVf k) s
    { s1 with pcie := { s1.pcie with vfEnable := false } }
  else s)

/-! ### The link (R516) -/

/-- PCIE_LINK_UP (R516): a link that trains has a speed of 1 to 5 and 1, 2, 4 or 8 lanes. -/
def execPcieLinkUp (speed : Fin 6) (width : Nat) (s : State) : Host.Outcome State Fault Refusal :=
  .next (if s.powered && speed ≠ 0 && [1, 2, 4, 8].contains width then
    { s with pcie := { s.pcie with up := true, speed := speed, width := width } }
  else s)

end Sys2Proof.Machine
end

