-- ==== Sys2Proof/Machine/RegView.lean ====
section
/-!
DEFINITION. What a register read returns (R4 to R9): fields that the register file holds, and fields that show the state of a
unit. Counters of clock cycles read a free value (log entry 20).
-/

namespace Sys2Proof.Machine

/-- A count of clock cycles as it reads now, below 2^`n`; `k` says which counter. -/
def State.clock (s : State) (k n : Nat) : Nat := (Config.clockCount s.free k).toNat % 2 ^ n

/-! ### Vats (spec/02, spec/05) -/

/-- The domain of a vat is ON. -/
def State.vatOn (s : State) (n : Nat) : Bool := s.domState n = 0

/-- VAT_STATUS.STATE: 0 OFF, 1 IDLE, 2 RUNNING, 3 DRAINING, 4 SAVING, 5 FAULT_HOLD. -/
def State.vatState (s : State) (n : Nat) : Nat :=
  let v := s.vat n
  if !s.vatOn n then 0
  else if v.quires.any (fun e => e.2.wait = .held) then 5
  else if v.blocks.any (fun b => b.2.saving.isSome) then 4
  else if v.preempt ≠ [] then 3
  else if v.blocks ≠ [] || s.anyTile n then 2
  else 1

/-- The split in force on a vat: that of its resident blocks, or the whole press as L1 (R57, VAT_SPLIT's reset value). -/
def State.vatSplit (s : State) (n : Nat) : List Nat :=
  match (s.resident n).head? with
  | some l => l.split
  | none => [16, 0, 0, 0]

/-- The partition of a vat's blocks or of its tile; 0 without one. -/
def State.vatPart (s : State) (n : Nat) : Nat :=
  match (s.resident n).head? with
  | some l => l.p
  | none => ((s.geo.passes.find? (fun x => x.inflight.any (fun t => t.vat = some n))).map (·.p)).getD 0

/-- Owner and kind of an accumulator set: held, integer, quire slot. -/
def State.setShown (s : State) (n j : Nat) : Nat × Nat × Nat :=
  match storeFind (s.vat n).sets j with
  | some x => (match x.owner with
    | some o => (1, b2n x.int, o.1)
    | none => (0, 0, 0))
  | none => (0, 0, 0)

/-- The fields that show a vat's state. -/
def State.showVat (s : State) (f : Field) (n : Nat) : Option Nat :=
  let v := s.vat n
  match f with
  | .VAT_STATUS_STATE => some (s.vatState n)
  | .VAT_STATUS_MODE => some (b2n ((s.resident n).any (·.mn3)))
  | .VAT_STATUS_PART => some (s.vatPart n)
  | .VAT_STATUS_POOLED => some (b2n (s.pooledVats.contains n))
  | .VAT_STATUS_QUIRES => some v.quires.length
  | .VAT_STATUS_BLOCKS => some v.blocks.length
  | .VAT_SPLIT_L1 => some ((s.vatSplit n).getD 0 0)
  | .VAT_SPLIT_LOCAL => some ((s.vatSplit n).getD 1 0)
  | .VAT_SPLIT_TILE => some ((s.vatSplit n).getD 2 0)
  | .VAT_SPLIT_BEATER => some ((s.vatSplit n).getD 3 0)
  | .VAT_BEATER_SET1_HELD => some (s.setShown n 1).1
  | .VAT_BEATER_SET1_INT => some (s.setShown n 1).2.1
  | .VAT_BEATER_SET1_QUIRE => some (s.setShown n 1).2.2
  | .VAT_BEATER_SET0_HELD => some (s.setShown n 0).1
  | .VAT_BEATER_SET0_INT => some (s.setShown n 0).2.1
  | .VAT_BEATER_SET0_QUIRE => some (s.setShown n 0).2.2
  | .VAT_BEATER_WAITING => some v.acqq.length
  | .VAT_BEATER_BUSY => some (b2n (v.ops ≠ []))
  | .VAT_BEATER_QUEUED => some (min 255 v.ops.length)
  | .VAT_ACQ_WAIT_COUNT => some (s.clock (64 + n) 32)
  | _ => none

/-! ### Geometry, pulper, baler (spec/06, spec/15) -/

/-- The pass that the binner works on. -/
def State.binPass? (s : State) : Option Pass := s.geo.passes.find? (fun x => x.phase ≠ .rendering && !x.away)

/-- The command that an engine of the pulper runs, and its slot. -/
def State.plpNow (s : State) (e : Nat) : Option (Nat × Nat) :=
  (storeGet [] s.codec.engines e).head?.map (fun id => (id, dSlot (storeGet [] s.codec.descs id)))

/-- The command that the baler runs. -/
def State.balNow (s : State) : Option Cmd := s.codec.baler.head?.bind s.cmd

/-- The fields of the geometry pipeline, the pulper and the baler that show their state. -/
def State.showEngines (s : State) (f : Field) (i : Nat) : Option Nat :=
  match f with
  | .GEO_STATUS_BINNING => some (b2n s.binPass?.isSome)
  | .GEO_STATUS_BIN_PART => some ((s.binPass?.map (·.p)).getD 0)
  | .GEO_STATUS_TILES => some (s.geo.passes.map (fun x => x.inflight.length)).sum
  | .PLP_ENGINE_BUSY => some (b2n (s.plpNow i).isSome)
  | .PLP_ENGINE_SLOT => some (((s.plpNow i).map (·.2)).getD 0)
  | .PLP_SLOT_BUSY => some (b2n (s.slotCmds i ≠ []))
  | .PLP_SLOT_QUEUE => some (((s.slotCmds i).head?.map (·.q)).getD 0)
  | .PLP_SLOT_REFS => some (storeGet {} s.codec.slots i).dpb.length
  | .BAL_STATUS_BUSY => some (b2n s.balNow.isSome)
  | .BAL_STATUS_DIR => some ((s.balNow.map (fun c => if c.op = 0x28 then 1 else 2)).getD 0)
  | .BAL_STATUS_PART => some ((s.balNow.map (·.p)).getD 0)
  | _ => none

/-! ### Shared objects and use (spec/10) -/

/-- A counter of R289 as it reads: 0 on another chip than the home chip of a spanning partition; there, what the other chips
contribute is not held (log entry 20). -/
def State.useShown (s : State) (p v k : Nat) : Nat :=
  if !s.spanning p then v
  else if s.homed p then (v + s.clock k 64) % 2 ^ 64
  else 0

/-- The bytes of the memory objects that a partition holds. -/
def State.residentBytes (s : State) (p : Nat) : Nat :=
  (((List.range 4096).filter (fun h => s.rd .HB_MO_STATE h ≠ 0 && bitAt (s.rd .HB_MO_HOLDERS h) p)).map
    (fun h => s.rd .HB_MO_SIZE h)).sum

/-- The bytes of the binning pool and of the chunks granted, while GEO_POOL_BASE is not 0. -/
def State.poolUse (s : State) (p : Nat) : Nat :=
  match s.part p with
  | some r =>
    if r.poolClass = 0 || s.rd .GEO_POOL_BASE_ADDR p = 0 then 0
    else poolBytes r.poolClass +
      ((s.geo.passes.filter (fun x => x.p = p)).map (fun x => ((x.regions.drop 1).map (fun g => g.top - g.base)).sum)).sum
  | none => 0

/-- The fields of spec/10 and spec/12 that show the state of a unit. -/
def State.showHeadbox (s : State) (f : Field) (i : Nat) : Option Nat :=
  match f with
  | .HB_PARSER_WDOG => some (s.clock 1 24)
  | .HB_PARSER_ROUNDS => some (s.clock 2 8)
  | .SYN_OBJ_WAITERS => some (min 65535 (s.sync.waits.filter (fun w => w.obj = i && w.registered)).length)
  | .SYN_OBJ_AUX => some (if s.objType i = 2 then s.lockAux i else s.rd .SYN_OBJ_AUX i)
  | .HB_USE_VAT => some (if s.spanning i && !s.homed i then 0 else s.clock (256 + i) 64)
  | .HB_USE_BEATER => some (s.useShown i (s.rd .HB_USE_BEATER i) (512 + i))
  | .HB_USE_DRAM => some (s.useShown i (s.rd .HB_USE_DRAM i) (768 + i))
  | .HB_USE_FELT => some (s.useShown i (s.rd .HB_USE_FELT i) (1024 + i))
  | .HB_MEM_RESIDENT => some (s.residentBytes i)
  | .HB_MEM_HEAP => some ((s.heap i).live.map (fun x => classSize x.2)).sum
  | .HB_MEM_POOL => some (s.poolUse i)
  | .SCH_DEADLINE_ACTIVE => some (b2n (s.cal.lead ≠ []))
  | .SCH_DEADLINE_LENT => some ((List.range 64).filter (fun n => (s.vat n).lent)).length
  | .SCH_SAVE_USE_BLOCKS => some (s.sched.saved.filter (fun x => x.p = i)).length
  | .SCH_SB_HELD_COUNT => some (s.clock (1280 + i) 32)
  | _ => none

/-! ### Capacities (R328) -/

/-- FCLK in MHz at a point of the FAB rail (R454). -/
def fclkMhz (point : Nat) : Nat := if point = 0 then 400 else if point = 1 then 700 else 1000

/-- The capacities per period of 8,000 FCLK at the current clocks: DRAM's 409.6 GB/s, and 0.8 samples per FCLK on each of four
decode engines (R381); the others are not given (log entry 21). -/
def State.showCap (s : State) (f : Field) : Option Nat :=
  let point := s.rd .PWR_STATUS_FAB
  match f with
  | .SCH_CAP_DRAM => some (51200000 / fclkMhz point)
  | .SCH_CAP_PIXELS => some 100
  | .SCH_CAP_L2 => some (Config.capacity 1 point).toNat
  | .SCH_CAP_FELT => some (Config.capacity 2 point).toNat
  | _ => none

/-! ### Translation, maintenance, power (spec/13, spec/14, spec/17) -/

/-- The table reads that are outstanding outside the chip: walks in progress. -/
def State.walksNow (s : State) : Nat :=
  min 16 ((s.ring.reqs.filter (fun r => decide (walkTag ≤ r.addr))).length)

/-- The activities of a list as the bits of MEM_MAINT_STATE, from bit 1. -/
def actBits (l : List Act) : Nat := maskOf ((List.range 9).filter (fun k => l.any (fun a => a.act = k + 1)))

/-- The fields of the translation unit, the maintenance sequencer and the power unit that show their state. -/
def State.showUnits (s : State) (f : Field) (i : Nat) : Option Nat :=
  match f with
  | .XLT_STATUS_MIG_USED => some ((List.range 64).filter (fun e => s.rd .XLT_MIG_USED e = 1)).length
  | .XLT_STATUS_WALKS => some s.walksNow
  | .XLT_MIG_WAITERS => some (min 65535 (s.xlt.waits.filter (fun w => w.entry = some i)).length)
  | .XLT_MIG_AGE => some (if s.rd .XLT_MIG_USED i = 1 then s.clock (1536 + i) 32 else 0)
  | .MEM_MAINT_STATE_RUNNING => some (actBits s.maint.running)
  | .MEM_MAINT_STATE_WAITING => some (actBits (s.maint.waiting ++ s.maint.paused))
  | .PWR_DVFS_BUSY => some (b2n ((storeFind s.pwr.change i).isSome || (storeFind s.pwr.latched i).isSome))
  | _ => none

/-! ### Pins, link, ring, functions (spec/08, spec/16, spec/19, spec/20) -/

/-- GPIO_SW holds a resource: a pin, or ZT2 (0x12). -/
def State.softHolds (s : State) (r : Nat) : Bool :=
  match s.claimOf r with
  | some c => c.feature = gpioSw
  | none => false

/-- The level of GPIO n (R502 to R504): a software pin that is driven, HOST_WDOG's pulse, the lit status LED, the inputs that
VR_HOT and PWR_BRAKE name, and otherwise what the board or the firmware drives (log entry 16). -/
def State.pinLevel (s : State) (n : Nat) : Bool :=
  if s.softHolds n && bitAt (s.rd .GLB_GPIO_OUT_OE) n then bitAt (s.rd .GLB_GPIO_OUT_OUT) n
  else if n = 9 && s.featureOn 0x09 && s.pins.wdogLow then false
  else if n = 2 && s.featureOn 0x0C && s.rd .MGC_BOOT_STATUS_STAGE = 5 then false
  else if n = 7 || n = 8 then bitAt s.pins.gpioIn n
  else Config.boardLevel (16 * s.free + n)

/-- The pins that GPIO_SW holds, as a mask. -/
def State.softPins (s : State) : Nat := maskOf ((List.range 16).filter s.softHolds)

/-- The fields of the global block, the ring and the debug block that show pins and the link. -/
def State.showChip (s : State) (f : Field) (i : Nat) : Option Nat :=
  match f with
  | .GLB_PCIE_LINK_SPEED => some (if s.pcie.up then s.pcie.speed else 0)
  | .GLB_PCIE_LINK_WIDTH => some (if s.pcie.up then s.pcie.width else 0)
  | .GLB_PCIE_LINK_VF_EN => some (b2n s.pcie.vfEnable)
  | .GLB_PCIE_LINK_NUMVFS => some s.pcie.numVfs
  | .GLB_PCIE_LINK_BAR4 => some s.pcie.bar4
  | .GLB_VF_STATUS_READY => some (b2n (s.vfShows i))
  | .GLB_VF_STATUS_STATE => some (s.funcState i)
  | .GLB_VF_STATUS_HOME => some ((s.part i).map (·.home) |>.getD 0)
  | .GLB_VF_STATUS_PART => some i
  | .GLB_ID_GRADE => some (b2n s.pins.gradeB)
  | .GLB_GPIO_IN_LEVEL => some (maskOf ((List.range 16).filter s.pinLevel))
  | .GLB_GPIO_OUT_OE => some (andN (s.rd .GLB_GPIO_OUT_OE) s.softPins)
  | .GLB_GPIO_OUT_OUT => some (andN (s.rd .GLB_GPIO_OUT_OUT) s.softPins)
  | .GLB_ZT2_COUNT => some (if s.softHolds 0x12 then s.clock 3 64 % (s.rd .GLB_ZT2_COUNT + 1) else 0)
  | .FLT_STATUS_MASTER => some (b2n s.pins.straps.master)
  | .FLT_STATUS_POS => some s.pos
  | .DBG_FREEZE_STATUS_PIN => some (b2n s.pins.freezeN)
  | _ => none

/-! ### A field, a register, a word -/

/-- The units whose fields show their state, in turn. -/
def State.showLive (s : State) (f : Field) (i : Nat) : Option Nat :=
  (s.showVat f i).or ((s.showEngines f i).or ((s.showHeadbox f i).or ((s.showCap f).or
    ((s.showUnits f i).or (s.showChip f i)))))

/-- The value of a field as a read returns it: a WO field reads 0 (R8). -/
def State.shown (s : State) (f : Field) (i j : Nat) : Nat :=
  if f.spec.ty = .wo then 0 else (s.showLive f i).getD (s.rd f i j)

/-- The value of a whole register; reserved bits read 0 (R9). -/
def State.regValue (s : State) (r : Reg) (i j : Nat) : Nat :=
  (r.fields.map (fun f => s.shown f i j % 2 ^ f.width * 2 ^ f.spec.lo)).sum

/-- A word of a register. -/
def State.wordValue (s : State) (a : RegAt) : Nat := bits (s.regValue a.reg a.i a.j) (32 * a.w + 31) (32 * a.w)

/-- The power domain of a register, and whether an access to the register wakes it (R446). -/
def regDomain (a : RegAt) : Option (Nat × Bool) :=
  match a.reg with
  | .VAT_STATUS | .VAT_SPLIT | .VAT_FAULT_WHO | .VAT_FAULT_STATUS | .VAT_FAULT_PC | .VAT_FAULT_LANES | .VAT_ISSUED
  | .VAT_RC_HITS | .VAT_BANK_STALLS | .VAT_BEATER | .VAT_TERR | .VAT_TPASSES | .VAT_ACQ_WAIT => some (a.i, true)
  | .GEO_STATUS | .GEO_POOL_BASE | .GEO_PASS | .GEO_POOL_USE | .GEO_GROW_ADDR | .GEO_GROW_CTRL | .GEO_GROW_WANT | .GEO_COUNTS
  | .GEO_REFUSE => some (domGeo, true)
  | .PLP_ENGINE => some (domPlp a.i, false)
  | .PLP_SLOT => some (domPlp (a.i / 12), false)
  | .BAL_STATUS => some (domBal, false)
  | .CAL_RESULT | .CAL_HEAD_CTRL | .CAL_TIMING | .CAL_LEAD | .CAL_WALL | .CAL_COUNTS | .CAL_PLANE | .CAL_PLANE_CTRL =>
    some (domCal, false)
  | .FLT_PORT | .FLT_PORT_ERR => some (domFelt a.i, false)
  | .MEM_ECC_COUNT => some (domMc a.i, false)
  | _ => none

/-- The register's domain is ON. -/
def State.regOn (s : State) (a : RegAt) : Bool :=
  match regDomain a with
  | some d => s.domState d.1 = 0
  | none => true

/-- A register word as a read shows it, without side effects: a register of a domain that is not ON reads 0 (R496). -/
def State.peekWord (s : State) (a : RegAt) : Nat := if s.regOn a then s.wordValue a else 0

/-- An access wakes the register's domain where R446 says so. -/
def State.wakeReg (s : State) (a : RegAt) : State :=
  match regDomain a with
  | some (d, true) => if s.domAssigned d then s.wakeNow d else s
  | _ => s

/-! ### Reads with their side effects (R8, R290) -/

/-- Bits [hi:lo] of a field that lie in word `w` of its register: the word's bits b to a, and the field's bit at a; none where
the field has no bit in the word. -/
def Field.inWord (f : Field) (w : Nat) : Option (Nat × Nat × Nat) :=
  let a := max f.spec.lo (32 * w)
  let b := min f.spec.hi (32 * w + 31)
  if a ≤ b then some (b - 32 * w, a - 32 * w, a - f.spec.lo) else none

/-- A field with its bits in word `w` replaced by those of `data`. -/
def Field.merge (f : Field) (w old data : Nat) : Nat :=
  match f.inWord w with
  | none => old
  | some (b, a, k) => old - bits old (k + (b - a)) k * 2 ^ k + bits data b a * 2 ^ k

/-- A read of a word sets its RC fields' bits in the word to 0 (R8, log entry 22). -/
def State.clearRc (s : State) (a : RegAt) : State :=
  (a.reg.fields.filter (fun f => f.spec.ty = .rc)).foldl
    (fun (s : State) f => s.wr f (f.merge a.w (s.rd f a.i a.j) 0) a.i a.j) s

/-- What a read does beside its RC fields: HB_Q_ERR's read clears MORE; GLB_ZT2 has fallen to what was read. -/
def State.readEffect (s : State) (a : RegAt) (v : Nat) : State :=
  match a.reg with
  | .HB_Q_ERR => s.wr .HB_Q_ERR_AT_MORE 0 a.i a.j
  | .GLB_ZT2 => s.wr .GLB_ZT2_COUNT v
  | _ => s

/-- The multi-word registers of spec/10 (R290). -/
def latchedRegs : List Reg := [.SYN_OBJ, .HB_MO, .HB_OBJ_ARG, .HB_HEAP_BASE, .HB_USE, .HB_MEM]

/-- The key of a latched word. -/
def latchKey (a : RegAt) (w : Nat) : Nat := (latchedRegs.idxOf a.reg * 65536 + a.i) * 16 + w

/-- Latch the words of a register above the lowest. -/
def State.latchWords (s : State) (a : RegAt) : State :=
  ((List.range a.reg.spec.words).drop 1).foldl (fun (r : State) w =>
    { r with sync := { r.sync with words := storePut (latchKey a w) (s.peekWord { a with w := w }) r.sync.words } }) s

/-- Read a register word: what it returns, and the state after the read. -/
def State.readWord (s : State) (a : RegAt) : State × Nat :=
  let s0 := s.wakeReg a
  let v := s0.peekWord a
  if latchedRegs.contains a.reg then
    if a.w = 0 then ((s0.latchWords a).takeFree.2, v)
    else (s0.takeFree.2, storeGet v s0.sync.words (latchKey a a.w))
  else ((s0.takeFree.2.clearRc a).readEffect a v, v)

end Sys2Proof.Machine
end

