-- ==== Sys2Proof/Machine/Board.lean ====
section
/-!
DEFINITION. The board's side: SMBus reads (R509), the host watchdog pin (R503) and the software timer (R504).
-/

namespace Sys2Proof.Machine

/-! ### SMBus (R509) -/

/-- A block read of `n` bytes; it is served through freezes and resets. -/
def State.smbRead (s : State) (n v : Nat) : State := s.takeFree.2.answer n v

/-- SMB_TEMP (R509): command 0x01. -/
def execSmbTemp (s : State) : Host.Outcome State Fault Refusal := .next (s.smbRead 1 (s.rd .PWR_TEMP_TEMP))

/-- SMB_AVG (R509): command 0x02. -/
def execSmbAvg (s : State) : Host.Outcome State Fault Refusal := .next (s.smbRead 2 (s.rd .PWR_RESERVE_AVG))

/-- SMB_PWR_STATUS (R509): command 0x03. -/
def execSmbPwrStatus (s : State) : Host.Outcome State Fault Refusal := .next (s.smbRead 4 (s.regValue .PWR_STATUS 0 0))

/-- SMB_BOOT_STATUS (R509): command 0x04. -/
def execSmbBootStatus (s : State) : Host.Outcome State Fault Refusal :=
  .next (s.smbRead 4 (s.regValue .MGC_BOOT_STATUS 0 0))

/-- SMB_DEVRESET_STATUS (R509): command 0x05. -/
def execSmbDevresetStatus (s : State) : Host.Outcome State Fault Refusal :=
  .next (s.smbRead 4 (s.rd .GLB_DEVRESET_STATUS_STATUS))

/-- DEVICE_ID as SMBus serves it: 0 until the ROM has sensed the fuses (R475 step 1). -/
def State.deviceId (s : State) : Nat := if s.mgc.starts = 0 then 0 else s.mgc.fuses.deviceId.toNat

/-- SMB_DEVICE_ID (R509): command 0x06. -/
def execSmbDeviceId (s : State) : Host.Outcome State Fault Refusal := .next (s.smbRead 16 s.deviceId)

/-- SMB_CARD_ID (R509): command 0x07. -/
def execSmbCardId (s : State) : Host.Outcome State Fault Refusal :=
  .next (s.smbRead 1 (128 * b2n (s.featureOn 0x08) + s.pins.cardId % 16))

/-- SMB_FWVER (R509): command 0x08. -/
def execSmbFwver (s : State) : Host.Outcome State Fault Refusal := .next (s.smbRead 8 (s.rd .MGC_FW_VERSION_FWVER))

/-- SMB_UNKNOWN (R509): an unknown command byte or any write is not acknowledged. -/
def execSmbUnknown (write : Bool) (code : Byte) (s : State) : Host.Outcome State Fault Refusal :=
  .next (if write || code.toNat = 0 || decide (8 < code.toNat) then { s with reply := .nack } else s)

/-- The chip's SMBus address. -/
def State.smbAddr (s : State) : Nat := 0x60 + s.pos

/-- ALERT_RESPONSE (R509): a chip that drives SMB_ALERT_N low answers its address and releases the pin. -/
def execAlertResponse (s : State) : Host.Outcome State Fault Refusal :=
  .next (if s.pins.smbAlert then
    { s with pins := { s.pins with smbAlert := false }, reply := .data [BitVec.ofNat 8 s.smbAddr] }
  else { s with reply := .nack })

/-! ### HOST_WDOG and ZT2 (R503, R504) -/

/-- HOST_WDOG_EXPIRY (R503): the pin goes low while the feature holds GPIO9 and ZT1. -/
def execHostWdogExpiry (s : State) : Host.Outcome State Fault Refusal :=
  .next (if s.powered && s.featureOn 0x09 then { s with pins := { s.pins with wdogLow := true } } else s)

/-- HOST_WDOG_PULSE_END (R503). -/
def execHostWdogPulseEnd (s : State) : Host.Outcome State Fault Refusal :=
  .next { s with pins := { s.pins with wdogLow := false } }

/-- GLB_ZT2_WRITE (R504): it acts only while GPIO_SW holds ZT2. -/
def execGlbZt2Write (value : Word) (s : State) : Host.Outcome State Fault Refusal :=
  .next (if s.pfWrites && s.softHolds 0x12 then s.wr .GLB_ZT2_COUNT value.toNat else s)

end Sys2Proof.Machine
end

