-- ==== Sys2Proof/Machine/BpcFlow.lean ====
section
/-!
DEFINITION. The control, barrier and trap instructions of BPC (R63, R66, R73, R98, R105, R106, R120, R123), and the events
ILLEGAL_INSTRUCTION, CODE_END_OVERRUN and BLOCK_PATIENCE_EXPIRY.
-/

namespace Sys2Proof.Machine

/-- The executing lanes as a mask. -/
def BCtx.mask (c : BCtx) : Word := BitVec.ofNat 32 (execLanes c.q c.i)

/-- A mask-stack fault of this quire (R80): 0 overflow, 1 underflow, 2 park. -/
def BCtx.stackFault (c : BCtx) (s : State) (k : Nat) : State := s.raiseFault c.vat c.slot (stExec 2 (k * 256 + c.slot))

/-- Put a quire back and settle its block. -/
def BCtx.putSettle (c : BCtx) (s : State) (q : Quire) : State := (c.put s q).settle c.vat c.q.block

/-! ### Branches -/

/-- branch() of R63. -/
def BCtx.branch (c : BCtx) (s : State) : State :=
  if c.mask = c.q.active then c.put s { c.q with pc := c.i.target }
  else if 32 ≤ c.q.stack.length then c.stackFault s 0
  else c.put s { c.q with
    stack := ⟨true, c.q.active &&& ~~~c.mask, c.i.next⟩ :: c.q.stack
    active := c.mask
    pc := c.i.target }

/-- BRA (R63, R98). -/
def execBra (vat slot : Fin 64) (s : State) : Host.Outcome State Fault Refusal :=
  .next (s.issue vat slot 0x71 (fun s c => c.branch s))

/-- Jump to the word index in s register A (R105, R106). -/
def BCtx.jump (c : BCtx) (s : State) : State :=
  let t := c.q.sreg (c.i.a - 256)
  if isStart c.l.mod.code false t then c.put s { c.q with pc := t } else s.raiseFault c.vat c.slot (stIllegal c.i.op)

/-- JMP (R105). -/
def execJmp (vat slot : Fin 64) (s : State) : Host.Outcome State Fault Refusal :=
  .next (s.issue vat slot 0x72 (fun s c => c.jump s))

/-- RET (R105). -/
def execRet (vat slot : Fin 64) (s : State) : Host.Outcome State Fault Refusal :=
  .next (s.issue vat slot 0x74 (fun s c => c.jump s))

/-- CALL (R98, R105): quire-level; D takes the next word index, and the quire branches. -/
def execCall (vat slot : Fin 64) (s : State) : Host.Outcome State Fault Refusal :=
  .next (s.issue vat slot 0x73 (fun s c => c.put s { c.q.putReg c.i.d 0 c.i.next with pc := c.i.target }))

/-! ### The mask stack -/

/-- PUSHM (R63). -/
def execPushm (vat slot : Fin 64) (s : State) : Host.Outcome State Fault Refusal :=
  .next (s.issue vat slot 0x75 (fun s c =>
    if 32 ≤ c.q.stack.length then c.stackFault s 0
    else c.done s { c.q with stack := ⟨false, c.q.active, c.i.target⟩ :: c.q.stack }))

/-- POPM (R63). -/
def execPopm (vat slot : Fin 64) (s : State) : Host.Outcome State Fault Refusal :=
  .next (s.issue vat slot 0x76 (fun s c =>
    if c.q.stack = [] then c.stackFault s 1 else c.done s { c.q with stack := c.q.stack.tail }))

/-- JOIN (R63). -/
def execJoin (vat slot : Fin 64) (s : State) : Host.Outcome State Fault Refusal :=
  .next (s.issue vat slot 0x77 (fun s c =>
    if c.q.stack = [] then c.stackFault s 1 else c.putSettle s (c.q.unwind c.i.next)))

/-- YIELD (R73). -/
def execYield (vat slot : Fin 64) (s : State) : Host.Outcome State Fault Refusal :=
  .next (s.issue vat slot 0x79 (fun s c => c.put s (c.q.yieldPath c.i.next)))

/-- The lanes of a handler that an exit leaves: running, or on its own stack entries (R123). -/
def Quire.handlerLeft (q : Quire) (lanes : Word) : Bool :=
  match q.trap with
  | none => true
  | some t => (q.active &&& ~~~lanes) ≠ 0 ||
      (q.stack.take (q.stack.length - t.depth)).any (fun e => (e.mask &&& ~~~(q.exited ||| lanes)) ≠ 0)

/-- The executing lanes exit (R63, R98); a handler's last lanes retire the block (R123). -/
def BCtx.exitNow (c : BCtx) (s : State) (q : Quire) : State :=
  if q.handlerLeft c.mask then c.putSettle s (q.exitLanes c.mask c.i.next)
  else (c.put s (q.exitLanes c.mask c.i.next)).retireBlock c.vat q.block

/-- EXIT (R63, R98). -/
def execExit (vat slot : Fin 64) (s : State) : Host.Outcome State Fault Refusal :=
  .next (s.issue vat slot 0x78 (fun s c => c.exitNow s c.q))

/-- The launch shades fragments (R189). -/
def Launch.isFragment (l : Launch) : Bool :=
  match l.use with
  | .fragment _ _ => true
  | _ => false

/-- DISCARD (R105): in a fragment launch the lanes' samples are discarded; the lanes exit. -/
def execDiscard (vat slot : Fin 64) (s : State) : Host.Outcome State Fault Refusal :=
  .next (s.issue vat slot 0x7A (fun s c =>
    c.exitNow s (if c.l.isFragment then { c.q with discarded := c.q.discarded ||| c.mask } else c.q)))

/-! ### Pre-emption points -/

/-- SAVEPT (R120, R121): with a request visible and outside a handler, the quire stops, and the block is saved when all its
quires have yielded. -/
def execSavept (vat slot : Fin 64) (s : State) : Host.Outcome State Fault Refusal :=
  .next (s.issue vat slot 0x7B (fun s c =>
    if (s.vat c.vat).preempt.contains c.l.p && c.q.trap.isNone then
      let live := if c.i.fmt = 3 then c.i.x else 2 ^ 64 - 1
      (c.put s { c.q with pc := c.i.next, wait := .saved, savedLive := some live })
    else c.done s c.q))

/-! ### Barriers -/

/-- The barrier identifier: operand A. When the executing lanes do not all give one value from 0 to 15 the spec names no
identifier, and it is a free value. -/
def BCtx.barrier (c : BCtx) : Nat :=
  match c.lanes.map c.opA with
  | [] => 0
  | x :: xs => if x < 16 && xs.all (· = x) then x else (Config.undefinedWord (c.i.pc * 2 ^ 32 + x)).toNat % 16

/-- Mark the executing lanes as arrived (R66); `pred` are those whose predicate C a BRED counts. -/
def BCtx.arriveAt (c : BCtx) (s : State) (n : Nat) (pred : Option Nat) : State :=
  match s.block c.vat c.q.block with
  | none => s
  | some b =>
    let k := 32 * n + c.q.idx
    let bred := match pred with
      | some m =>
        let e := storeGet [] b.bred k
        storePut k [e.getD 0 0 ||| m, e.getD 1 0 ||| c.mask.toNat] b.bred
      | none => b.bred
    s.setBlock c.vat c.q.block { b with arrived := storePut k (storeGet 0 b.arrived k ||| c.mask) b.arrived, bred := bred }

/-- Arrive and park (R66, R67); a fifth record faults and nothing else happens. -/
def BCtx.parkAt (c : BCtx) (s : State) (n : Nat) (pred : Option Nat) : State :=
  match c.q.park n c.mask c.i.next with
  | none => c.stackFault s 2
  | some q1 =>
    let q2 := { q1 with active := q1.active &&& ~~~c.mask, pc := c.i.next }
    c.putSettle (c.arriveAt s n pred) (if q2.active = 0 then q2.runPending else q2)

/-- BWAIT (R66). -/
def execBwait (vat slot : Fin 64) (s : State) : Host.Outcome State Fault Refusal :=
  .next (s.issue vat slot 0x80 (fun s c => c.parkAt s c.barrier none))

/-- BPASS (R66). -/
def execBpass (vat slot : Fin 64) (s : State) : Host.Outcome State Fault Refusal :=
  .next (s.issue vat slot 0x81 (fun s c =>
    c.putSettle (c.arriveAt s c.barrier none) { c.q with pc := c.i.next }))

/-- BRED (R105). -/
def execBred (vat slot : Fin 64) (s : State) : Host.Outcome State Fault Refusal :=
  .next (s.issue vat slot 0x82 (fun s c => c.parkAt s c.barrier (some (maskOf c.voters))))

/-! ### Traps -/

/-- TRAP (R105): EXEC_TRAP with MOD in the detail. -/
def execTrap (vat slot : Fin 64) (s : State) : Host.Outcome State Fault Refusal :=
  .next (s.issue vat slot 0xD0 (fun s c => s.raiseFault c.vat c.slot (stExec 0x0B c.i.mod)))

/-- What TRET restores of a quire (R123): s56 to s61, the active mask without the lanes that have exited, the stack depth. -/
def Quire.leaveTrap (q : Quire) (t : TrapSave) (pc : Nat) : Quire :=
  let q1 := (indexed t.s56).foldl (fun (q : Quire) x => q.putReg (256 + 56 + x.1) 0 x.2.toNat) q
  let q2 := { q1 with
    active := t.active &&& ~~~q.exited
    stack := q.stack.drop (q.stack.length - t.depth)
    pc := pc
    trap := none
    wait := .run }
  if q2.active = 0 then q2.runPending else q2

/-- TRET (R123): outside a handler, or to no instruction start, it is illegal. -/
def execTret (vat slot : Fin 64) (s : State) : Host.Outcome State Fault Refusal :=
  .next (s.issue vat slot 0xD1 (fun s c =>
    let pc := c.q.sreg (c.i.a - 256)
    match c.q.trap with
    | none => s.raiseFault c.vat c.slot (stIllegal 0xD1)
    | some t =>
      if !isStart c.l.mod.code false pc then s.raiseFault c.vat c.slot (stIllegal 0xD1)
      else
        let s1 := (c.put s (c.q.leaveTrap t pc)).setBlock c.vat c.q.block { c.blk with handler := none }
        let r := t.status / 65536 % 256
        if r = 3 || r = 4 then s1.releaseAll c.vat c.q.block else s1))

/-- TRETIRE (R123). -/
def execTretire (vat slot : Fin 64) (s : State) : Host.Outcome State Fault Refusal :=
  .next (s.issue vat slot 0xD2 (fun s c =>
    match c.q.trap with
    | none => s.raiseFault c.vat c.slot (stIllegal 0xD2)
    | some _ => s.retireBlock c.vat c.q.block))

/-- TESC (R123): the status of the entry goes to the partition's fault path. -/
def execTesc (vat slot : Fin 64) (s : State) : Host.Outcome State Fault Refusal :=
  .next (s.issue vat slot 0xD3 (fun s c =>
    match c.q.trap with
    | none => s.raiseFault c.vat c.slot (stIllegal 0xD3)
    | some t => s.reportFault c.vat c.slot c.q c.l t.status t.pc t.active.toNat))

/-! ### Events -/

/-- ILLEGAL_INSTRUCTION (R101): the instruction at the pc is illegal; with no executing lane it only moves on (R97). -/
def execIllegalInstruction (vat slot : Fin 64) (s : State) : Host.Outcome State Fault Refusal :=
  .next (
    if !s.live then s
    else match s.ready vat slot with
      | none => s
      | some (q, _, l) =>
        match decodeInst l.mod.code q.pc with
        | none => s
        | some i =>
          if legal i then s
          else
            let s0 := s.count .VAT_ISSUED_COUNT 1 vat
            if execLanes q i = 0 then s0.setQuire vat slot { q with pc := i.next }
            else s0.raiseFault vat slot (stIllegal i.op))

/-- CODE_END_OVERRUN (R106). -/
def execCodeEndOverrun (vat slot : Fin 64) (s : State) : Host.Outcome State Fault Refusal :=
  .next (
    if !s.live then s
    else match s.ready vat slot with
      | none => s
      | some (q, _, l) => if l.mod.code.length ≤ q.pc then s.raiseFault vat slot (stIllegal 0) else s)

/-- BLOCK_PATIENCE_EXPIRY (R77, R78): the counter of a block with a parked thread or a lock wait reaches its limit. -/
def execBlockPatienceExpiry (vat block : Fin 64) (s : State) : Host.Outcome State Fault Refusal :=
  .next (
    if !s.live then s
    else match s.block vat block with
      | none => s
      | some b =>
        let v := s.vat vat
        let ids := v.parkedIds block
        if ids = [] && !b.lockWait then s
        else match s.launch b.launch, v.firstLive block with
          | some l, some (slot, _) =>
            let limit := if l.patience = 0 then 2 ^ 32 else l.patience
            let cause := if ids = [] then 1 else 0
            (s.setBlock vat block { b with patience := limit }).raiseFault vat slot
              (stExec 4 (cause * 256 + ids.headD 0xFF))
          | _, _ => s)

end Sys2Proof.Machine
end

