-- ==== Sys2Proof/Machine/Freeze.lean ====
section
/-!
DEFINITION. The freeze (R491 to R494), the read-back aperture (R495, R496) and JTAG (R508).
-/

namespace Sys2Proof.Machine

/-! ### The freeze (R491) -/

/-- A freeze is in force. -/
def State.frozen (s : State) : Bool := s.rd .DBG_FREEZE_STATUS_STATE ≠ 0

/-- Each vat writes back its dirty register-cache entries (R54). -/
def State.flushCaches (s : State) : State :=
  (s.vats.map (·.1)).foldl (fun (s : State) n => s.setVat n { s.vat n with rc := [] }) s

/-- Every clock domain stops (R491); `source` is 0 for FREEZE_N, 1 for DBG_FREEZE. -/
def State.freeze (s : State) (source : Nat) : State :=
  (((s.feltLow.flushCaches).wr .DBG_FREEZE_STATUS_STATE 2).wr .DBG_FREEZE_STATUS_SOURCE source).wr
    .DBG_FREEZE_STATUS_STOPPED 0x3F

/-- A freeze trigger (R491, R494): counted, and nothing else, during a freeze or a device reset. -/
def State.freezeTrigger (s : State) (source : Nat) : State :=
  if s.frozen || s.inReset then s.count .DBG_FREEZE_STATUS_IGNORED else s.freeze source

/-- FREEZE_N_FALL (R491, R506): ignored while PWROK, RESET_N or PERST_N is low. -/
def execFreezeNFall (s : State) : Host.Outcome State Fault Refusal :=
  let s1 : State := { s with pins := { s.pins with freezeN := false } }
  .next (if s1.powered then s1.freezeTrigger 0 else s1)

/-- The key of DBG_FREEZE. -/
def freezeKey : Nat := 0x465A

/-- A write of DBG_FREEZE with GO. -/
def State.freezeGo (s : State) (key : Nat) : State :=
  if s.powered && key = freezeKey then s.freezeTrigger 1 else s

/-- DBG_FREEZE_GO (R491): a write by the PF. -/
def execDbgFreezeGo (key : BitVec 16) (s : State) : Host.Outcome State Fault Refusal :=
  .next (if !(s.fnCfg 0).d3hot && !s.inRecovery then s.freezeGo key.toNat else s)

/-! ### The aperture (R495, R496) -/

/-- A PF BAR0 offset that reads do not return 0 for: in a freeze (R493), in recovery mode (R482), until STAGE = READY
(R262, R516). -/
def State.bar0Open (s : State) (off : Nat) : Bool :=
  if s.frozen then
    decide (0xF00000 ≤ off ∧ off < 0x1000000) || off = 0x3000 || off = 0x3004 || decide (0x2000000 ≤ off)
  else if s.inRecovery then off = 0xE00020
  else if s.rd .MGC_BOOT_STATUS_STAGE ≠ 5 || s.inReset then decide (off < 0x100000) || off = 0xE00020
  else true

/-- The units of a space; none for a space that is not there. -/
def spaceUnits (space : Nat) : Nat :=
  if space < 5 then 64
  else if space = 5 then 16
  else if space = 6 || space = 8 then 1
  else if space = 7 then 9
  else if space = 9 then 2
  else if space = 10 then 12
  else 0

/-- The power domain of a unit of a space (R446, R495): the microcontrollers are in their engines' domains. -/
def spaceDomain (space unit : Nat) : Nat :=
  if space < 5 then unit
  else if space = 5 then domL2 unit
  else if space = 7 then
    (if unit = 2 then domPlp 0 else if unit = 3 then domCal else if unit = 4 then domFelt 0
    else if 6 ≤ unit then domPlp (unit - 5) else 102)
  else if space = 8 then 104
  else if space = 9 then domFelt unit
  else if space = 10 then domMc unit
  else 102

/-- A space that may be read while the chip runs. -/
def spaceLive (space : Nat) : Bool := space = 0 || space = 8 || space = 10

/-- The outcome of a banked read (DBG_AP_STATUS.ERR): 0 OK, 1 NOT_ON, 2 TRANSITION, 3 LIVE_DENIED, 4 NO_UNIT. -/
def State.bankErr (s : State) (space unit : Nat) : Nat :=
  let d := s.domState (spaceDomain space unit)
  if spaceUnits space ≤ unit then 4
  else if s.frozen && (d = 1 || d = 4) then 2
  else if d ≠ 0 then 1
  else if !spaceLive space && !s.frozen then 3
  else 0

/-- A byte of a space: the vat windows' registers; an accumulator set's elements in 8 bytes each (R162); elsewhere the layout
is internal and the byte is a free value (log entry 14). -/
def State.bankByte (s : State) (space unit off : Nat) : Byte :=
  let free := Config.apertureByte s.free ((space * 256 + unit) * 2 ^ 24 + off)
  if space = 0 then
    (if off < 0x40000 then
      match Reg.decode (0x1000000 + 0x40000 * unit + off / 4 * 4) with
      | some a => BitVec.ofNat 8 (s.peekWord a / 2 ^ (8 * (off % 4)))
      | none => 0
    else 0)
  else if space = 4 && off < 0x10000 then
    match storeFind (s.vat unit).sets (off / 0x8000) with
    | some x =>
      (match x.els[off % 0x8000 / 8]? with
      | some e => BitVec.ofNat 8 ((if x.int then wrapN 64 (sext 48 e) else e) / 2 ^ (8 * (off % 8)))
      | none => free)
    | none => free
  else free

/-- A read of the bank's window sets ERR; one that is not OK reads 0. -/
def State.bankRead (s : State) (off n : Nat) : State × List Byte :=
  let space := s.rd .DBG_AP_BANK_SPACE
  let unit := s.rd .DBG_AP_BANK_UNIT
  let err := s.bankErr space unit
  ((s.wr .DBG_AP_STATUS_ERR err).takeFree.2,
    (List.range n).map (fun k => if err = 0 then s.bankByte space unit (off + k) else 0))

/-- A mirror read: what a register read would return, without its side effects. -/
def State.mirrorRead (s : State) (off n : Nat) : List Byte :=
  (List.range (n / 4)).flatMap (fun k =>
    toLe 4 (match Reg.decode (off + 4 * k) with
      | some a => s.peekWord a
      | none => 0))

/-- A read of the aperture at its offset. -/
def State.apRead (s : State) (off n : Nat) : State × List Byte :=
  if off < 0x1000000 then (s.takeFree.2, s.mirrorRead off n) else s.bankRead (off - 0x1000000) n

/-- APERTURE_READ (R495): only aligned 32-bit and 64-bit reads return data. -/
def execApertureRead (off : BitVec 25) (bytes : Nat) (s : State) : Host.Outcome State Fault Refusal :=
  .next (
    if !s.powered || (bytes ≠ 4 && bytes ≠ 8) || off.toNat % bytes ≠ 0 then s
    else if (s.fnCfg 0).d3hot then s.unsupported
    else if s.bar0Open (0x2000000 + off.toNat) then
      { (s.apRead off.toNat bytes).1 with reply := .data (s.apRead off.toNat bytes).2 }
    else s.answer bytes 0)

/-! ### JTAG (R508) -/

/-- The offset lies in the DBG block. -/
def inDbg (off : Nat) : Bool := decide (0xF00000 ≤ off ∧ off < 0x1000000)

/-- The state with the TAP's instruction register set. -/
def State.setIr (s : State) (ir : Nat) : State := { s with tap := { s.tap with ir := ir } }

/-- The bypass register is captured: one bit, 0 (IEEE 1149.1). -/
def State.tapBypass (s : State) (ir : Nat) : State :=
  { s with tap := { s.tap with ir := ir, bypass := false }, reply := .data [0] }

/-- A boundary scan (R508): the cells take what is shifted in, and what was captured is shifted out; it acts only while
RESET_N is low. The bits that pins capture are not held (log entry 15). -/
def State.boundary (s : State) (ir : Nat) (scan : List Bool) : State :=
  if s.pins.resetN then s.tapBypass ir
  else
    let (n, s1) := s.takeFree
    { s1 with
      tap := { s1.tap with ir := ir, cells := scan }
      reply := .data ((List.range scan.length).map (fun k => if Config.scanBit n k then 1 else 0)) }

/-- EXTEST (R508). -/
def execExtest (scan : List Bool) (s : State) : Host.Outcome State Fault Refusal := .next (s.boundary 0x00 scan)

/-- SAMPLE_PRELOAD (R508). -/
def execSamplePreload (scan : List Bool) (s : State) : Host.Outcome State Fault Refusal := .next (s.boundary 0x01 scan)

/-- The IDCODE register: stepping, 0x6448, JEP106 code, 1. -/
def State.idcodeValue (s : State) : Nat :=
  s.rd .GLB_ID_STEPPING * 2 ^ 28 + 0x6448 * 2 ^ 12 + Config.jep106 % 2048 * 2 + 1

/-- IDCODE (R508). -/
def execIdcode (s : State) : Host.Outcome State Fault Refusal := .next ((s.setIr 2).answer 4 s.idcodeValue)

/-- AP_ADDR (R508): bits [2:0] are ignored. -/
def execApAddr (addr : BitVec 32) (s : State) : Host.Outcome State Fault Refusal :=
  .next { s with tap := { s.tap with ir := 0x10, apAddr := addr.toNat / 8 * 8 } }

/-- What AP_DATA captures at a BAR0 offset: the aperture, a register of the DBG block, or 0. -/
def State.apCapture (s : State) (off : Nat) : State × List Byte :=
  if 0x2000000 ≤ off && off < 0x4000000 then s.apRead (off - 0x2000000) 8
  else if inDbg off then
    [0, 1].foldl (fun (x : State × List Byte) k =>
      match Reg.decode (off + 4 * k) with
      | some a => ((x.1.readWord a).1, x.2 ++ toLe 4 (x.1.readWord a).2)
      | none => (x.1, x.2 ++ toLe 4 0)) (s, [])
  else (s, toLe 8 0)

/-- AP_DATA_CAPTURE (R508): AP_ADDR advances by 8. -/
def execApDataCapture (s : State) : Host.Outcome State Fault Refusal :=
  let r := s.apCapture s.tap.apAddr
  .next { r.1 with
    tap := { r.1.tap with ir := 0x11, apAddr := (s.tap.apAddr + 8) % 2 ^ 32, apData := ofLe r.2 }
    reply := .data r.2 }

/-- A write of a word in the DBG block (R493, R508): DBG_FREEZE and DBG_AP_BANK take it. -/
def State.dbgWrite (s : State) (off data : Nat) : State :=
  if off = 0xF00000 then (if bitAt data 31 then s.freezeGo (bits data 15 0) else s)
  else if off = 0xF00010 && s.powered then
    (s.wr .DBG_AP_BANK_SPACE (bits data 31 24)).wr .DBG_AP_BANK_UNIT (bits data 7 0)
  else s

/-- AP_DATA_UPDATE (R508): the low 32 bits go to AP_ADDR when it lies in the DBG block. -/
def execApDataUpdate (data : Dword) (s : State) : Host.Outcome State Fault Refusal :=
  let s1 : State := { s with tap := { s.tap with ir := 0x11, apData := data.toNat } }
  .next (if inDbg s.tap.apAddr then s1.dbgWrite s.tap.apAddr (data.toNat % 2 ^ 32) else s1)

/-- BYPASS (R508). -/
def execBypass (s : State) : Host.Outcome State Fault Refusal := .next (s.tapBypass 0xFF)

/-- TEST_LOGIC_RESET (R508): IDCODE is selected. -/
def execTestLogicReset (s : State) : Host.Outcome State Fault Refusal :=
  .next { s with tap := { s.tap with ir := 2, bypass := false } }

end Sys2Proof.Machine
end

