-- ==== Sys2Proof/Machine/Maint.lean ====
section
/-!
DEFINITION. The maintenance sequencer (R373 to R378): requests, activities that run, wait and pause, L2 flushes, the
save-all, the scrub; the L2's enable (R357), accesses at the L2 as a requester makes them (R355, R361), and reads that
return from DRAM with cells flipped (R366 to R369).
-/

namespace Sys2Proof.Machine

/-! ### Which activities overlap (R376, R377) -/

/-- The domains of an activity: RETENTION (7) names its domain, FELT (9) its port. -/
def Act.domains (a : Act) : List Nat :=
  if a.act = 1 then (List.range 12).map domMc
  else if a.act = 2 || a.act = 4 || a.act = 5 then [domMc a.target]
  else if a.act = 3 then (List.range 16).map domL2
  else if a.act = 7 then [a.target]
  else if a.act = 9 then [domFelt a.target]
  else []

/-- Two activities overlap: they share a domain, or are one activity with one target. -/
def Act.overlaps (a b : Act) : Bool := a.domains.any b.domains.contains || (a.act = b.act && a.target = b.target)

/-- What a request meets at a running activity: it runs beside it, waits, makes it pause, or is refused. -/
inductive Meet | beside | waits | pauses | refused
deriving DecidableEq, Repr

/-- The table of R377: running, requested. -/
def meet (run req : Nat) : Meet :=
  match run, req with
  | 1, 1 => .refused
  | 1, 2 => .pauses
  | 1, 4 => .pauses
  | 1, 5 => .pauses
  | 1, 7 => .refused
  | 2, 1 => .waits
  | 2, 2 => .refused
  | 2, 4 => .waits
  | 2, 5 => .waits
  | 2, 7 => .refused
  | 3, 3 => .refused
  | 3, 7 => .refused
  | 4, 1 => .waits
  | 4, 2 => .waits
  | 4, 4 => .waits
  | 4, 5 => .waits
  | 4, 7 => .refused
  | 5, 1 => .waits
  | 5, 2 => .waits
  | 5, 4 => .waits
  | 5, 5 => .refused
  | 5, 7 => .refused
  | 6, 6 => .waits
  | 6, 7 => .refused
  | 7, 7 => .refused
  | 7, 8 => .beside
  | 7, _ => .waits
  | 8, 8 => .refused
  | 9, 7 => .refused
  | _, _ => .beside

/-- Every activity that runs or is paused, those that other units hold included: invalidations (6), transitions of
domains (7), trainings of felt ports (9). -/
def State.acts (s : State) : List Act :=
  s.maint.running ++ s.maint.paused ++ s.xlt.inval.map (fun (x : Nat × Inval) => (⟨6, x.1, 0⟩ : Act)) ++
    s.pwr.doms.map (fun (x : Nat × DomRun) => (⟨7, x.1, 0⟩ : Act)) ++
    (([0, 1].filter (fun k => decide (1 ≤ s.rd .FLT_PORT_STATE k) && decide (s.rd .FLT_PORT_STATE k ≤ 4))).map
      (fun k => (⟨9, k, 0⟩ : Act)))

/-- The running activities that a request overlaps and meets in a given way. -/
def State.meets (s : State) (a : Act) (m : Meet) : List Act :=
  s.acts.filter (fun r => r.overlaps a && meet r.act a.act = m)

/-! ### The L2 and flushes (R357, R358) -/

/-- The maintenance sequencer as a requester: activity 0x27. -/
def maintAsker : Asker := ⟨.unit, 9, 0⟩

/-- Write a dirty sector back to DRAM. -/
def State.l2WriteBack (s : State) (sec : Nat) (x : Sector) : State :=
  let pa := 32 * sec
  if x.dirty then ((s.wakeCtrl pa).writeSector pa x.bytes).useDram maintAsker 32 else s

/-- Write back every dirty sector; lines stay valid and clean (R358). -/
def State.flushWb (s : State) : State :=
  let s1 := s.mem.l2.foldl (fun (s : State) e => s.l2WriteBack e.1 e.2) s
  { s1 with mem := { s1.mem with l2 := s1.mem.l2.map (fun e => (e.1, { e.2 with dirty := false })) } }

/-- Drop every line (R358). -/
def State.flushInv (s : State) : State := { s with mem := { s.mem with l2 := [] } }

/-- The lines of a slice that leaves ON are written back and dropped (R360). -/
def State.flushSlice (s : State) (slice : Nat) : State :=
  let mine (e : Nat × Sector) : Bool := sliceOf (32 * e.1) = slice
  let s1 := (s.mem.l2.filter mine).foldl (fun (s : State) e => s.l2WriteBack e.1 e.2) s
  { s1 with mem := { s1.mem with l2 := s1.mem.l2.filter (fun e => !mine e) } }

/-- L2_ENABLE_WRITE (R357): the lines stay as they are. -/
def execL2EnableWrite (en : Bool) (s : State) : Host.Outcome State Fault Refusal :=
  .next (if s.pfWrites then s.wr .L2_CTRL_EN (b2n en) else s)

/-! ### The save-all (R372, R373) -/

/-- The lowest entry of a controller that is not valid. -/
def State.freeEntry (s : State) (c : Nat) : Option Nat := (List.range 8).find? (fun e => s.rd .MEM_SAVEALL_VALID c e = 0)

/-- What refuses a save-all of the block at `pa`: the block remapped already, or no entry free. -/
def State.saveallErr (s : State) (pa : Nat) : Option Nat :=
  let c := ctrlOf pa
  match s.saveallEntry c (blockOf pa), s.freeEntry c with
  | some e, _ => some (stMem 5 (c * 256 + e))
  | none, none => some (stMem 4 (c * 256))
  | none, some _ => none

/-- The insertion: the 256 stored bytes are copied raw to the spare block, and the entry becomes valid. -/
def State.saveall (s : State) (pa : Nat) : State :=
  let c := ctrlOf pa
  match s.saveallErr pa, s.freeEntry c with
  | some st, _ => s.wr .MEM_MAINT_RESULT_STATUS st
  | none, none => s
  | none, some e =>
    let base := pa / 256 * 256
    let bs := s.rawBytes base 256
    let s1 := ((s.wr .MEM_SAVEALL_BLOCK (blockOf pa) c e).wr .MEM_SAVEALL_VALID 1 c e).setRaws base bs
    s1.useDram maintAsker 512

/-! ### Requests, starts and completions (R376 to R378) -/

/-- What an activity does when it starts. A SAVEALL that was refused meanwhile does not run. -/
def State.actStart (s : State) (a : Act) : State :=
  let s1 : State := { s with maint := { s.maint with
    running := s.maint.running ++ [a]
    paused := s.maint.paused ++ s.maint.running.filter (fun r => r.overlaps a && meet r.act a.act = .pauses) } }
  let s2 : State := { s1 with maint := { s1.maint with
    running := s1.maint.running.filter (fun r => r = a || !s1.maint.paused.contains r) } }
  match a.act with
  | 2 => s2.wr .MEM_SELFTEST_DONE 0
  | 3 => if a.arg = 1 then s2.flushWb else if a.arg = 2 then s2.flushInv else s2.flushWb.flushInv
  | 4 => if (s.saveallErr a.arg).isSome then s.saveall a.arg else s2.saveall a.arg
  | _ => s2

/-- Start the first waiting activity that meets nothing it would wait for. -/
def State.startWaiting (s : State) : Nat → State
  | 0 => s
  | fuel + 1 =>
    match s.maint.waiting.find? (fun a => s.meets a .waits = [] && s.meets a .refused = []) with
    | none => s
    | some a =>
      (({ s with maint := { s.maint with waiting := s.maint.waiting.erase a } }).actStart a).startWaiting fuel

/-- Resume the paused activities that nothing keeps paused. -/
def State.resumePaused (s : State) : State :=
  let back := s.maint.paused.filter (fun r => !s.maint.running.any (fun a => r.overlaps a && meet r.act a.act = .pauses))
  { s with maint := { s.maint with
    running := s.maint.running ++ back
    paused := s.maint.paused.filter (fun r => !back.contains r) } }

/-- After an activity has ended: waiting ones start in arrival order, paused ones go on (R377, R378). -/
def State.maintSettle (s : State) : State := (s.startWaiting (s.maint.waiting.length + 1)).resumePaused

/-- A transition of a domain has ended: what waits behind it and needs the domain ON is refused (R377). -/
def State.maintDomain (s : State) (d : Nat) : State :=
  if s.domState d = 0 then s.maintSettle
  else
    let gone := s.maint.waiting.filter (fun a => (a.act = 2 || a.act = 4 || a.act = 5) && a.domains.contains d)
    let s1 : State := { s with maint := { s.maint with waiting := s.maint.waiting.filter (fun a => !gone.contains a) } }
    (gone.foldl (fun (s : State) a =>
      if a.act = 5 && a.arg = 1 then s else s.wr .MEM_MAINT_RESULT_STATUS (stMem 7 (a.act * 256 + a.target))) s1).maintSettle

/-- A request for an activity (R377): the state and its status. A SELFTEST, a RETRAIN and an insertion wake their controller
(R446, R452) and wait for it. -/
def State.actAsk (s : State) (a : Act) : State × Nat :=
  match s.meets a .refused with
  | r :: _ => (s, stMem 6 (a.act * 256 + r.act))
  | [] =>
    let s1 := if a.act = 2 || a.act = 5 then a.domains.foldl State.domWake s
      else if a.act = 4 then a.domains.foldl (fun (s : State) d => if s.domState d = 1 then s else s.domWake d) s
      else s
    if s1.meets a .waits = [] then (s1.actStart a, stOk)
    else ({ s1 with maint := { s1.maint with waiting := s1.maint.waiting ++ [a] } }, stOk)

/-- A request at MEM_MAINT_CTRL: the fields, the status, and the activity. -/
def State.maintAsk (s : State) (op act arg : Nat) (k : State → State × Nat) : State :=
  if s.pfWrites && s.rd .MEM_MAINT_CTRL_PENDING = 0 then
    let (s1, st) := k (((s.wr .MEM_MAINT_CTRL_OP op).wr .MEM_MAINT_CTRL_ACT act).wr .MEM_MAINT_CTRL_ARG arg)
    s1.wr .MEM_MAINT_RESULT_STATUS st
  else s

/-- SCRUB_START (R375). -/
def execScrubStart (s : State) : Host.Outcome State Fault Refusal :=
  .next (s.maintAsk 1 1 0 (fun s => s.actAsk ⟨1, 0, 0⟩))

/-- SCRUB stops, whether it runs, is paused or waits. -/
def State.scrubStop (s : State) : State :=
  let keep (l : List Act) : List Act := l.filter (fun a => a.act ≠ 1)
  ({ s with maint := { s.maint with
    running := keep s.maint.running
    paused := keep s.maint.paused
    waiting := keep s.maint.waiting } }).maintSettle

/-- SCRUB_STOP (R376). -/
def execScrubStop (s : State) : Host.Outcome State Fault Refusal :=
  .next (s.maintAsk 2 1 0 (fun s => (s.scrubStop, stOk)))

/-- A request for a controller's activity; a controller above 11 is refused. -/
def State.ctrlAsk (s : State) (act c : Nat) : State :=
  s.maintAsk 1 act c (fun s => if 12 ≤ c then (s, stBadValue) else s.actAsk ⟨act, c, 0⟩)

/-- SELFTEST (R374). -/
def execSelftest (arg : BitVec 4) (s : State) : Host.Outcome State Fault Refusal := .next (s.ctrlAsk 2 arg.toNat)

/-- RETRAIN (R376). -/
def execRetrain (arg : BitVec 4) (s : State) : Host.Outcome State Fault Refusal := .next (s.ctrlAsk 5 arg.toNat)

/-- L2FLUSH with an argument. -/
def State.l2flush (s : State) (arg : Nat) : State := s.maintAsk 1 3 arg (fun s => s.actAsk ⟨3, 0, arg⟩)

/-- L2FLUSH_WB (R358). -/
def execL2flushWb (s : State) : Host.Outcome State Fault Refusal := .next (s.l2flush 1)

/-- L2FLUSH_INV (R358). -/
def execL2flushInv (s : State) : Host.Outcome State Fault Refusal := .next (s.l2flush 2)

/-- L2FLUSH_WBINV (R358). -/
def execL2flushWbinv (s : State) : Host.Outcome State Fault Refusal := .next (s.l2flush 3)

/-- The checks and the request of an insertion (R373). -/
def State.saveallAsk (s : State) (pa : Nat) : State × Nat :=
  if s.dramSize ≤ pa then (s, stBadValue)
  else match s.saveallErr pa with
    | some st => (s, st)
    | none => s.actAsk ⟨4, ctrlOf pa, pa⟩

/-- SAVEALL (R373). -/
def execSaveall (s : State) : Host.Outcome State Fault Refusal :=
  .next (s.maintAsk 1 4 (s.rd .MEM_MAINT_CTRL_ARG) (fun s => s.saveallAsk (s.addrOf .MEM_MAINT_ADDR_ADDR)))

/-- RETRAIN_DRIFT (R376, R377): a controller's own request; a refusal drops it, and nothing is reported. -/
def execRetrainDrift (ctrl : Fin 12) (s : State) : Host.Outcome State Fault Refusal :=
  .next (if s.live && s.domState (domMc ctrl) = 0 then (s.actAsk ⟨5, ctrl, 1⟩).1 else s)

/-- A checker's first mismatch (R374): its bit, the first mismatch of all, and a record. -/
def State.selftestFail (s : State) (c v : Nat) : State :=
  let fail := s.rd .MEM_SELFTEST_FAIL
  let s1 := s.wr .MEM_SELFTEST_FAIL (setBit fail c)
  let s2 := if fail = 0 then (s1.wr .MEM_SELFTEST_CTRL c).wr .MEM_SELFTEST_VECTOR v else s1
  s2.raiseShared .dramError (stMem 3 (c * 256 + v)) (9 * 2 ^ 28 + s.pos * 2 ^ 24) 0 0

/-- What the end of an activity does. -/
def State.actEnd (s : State) (a : Act) (mismatch : Option (Fin 56)) : State :=
  if a.act = 2 then
    let s1 := match mismatch with
      | some v => s.selftestFail a.target v
      | none => s
    if s1.maint.running.any (fun r => r.act = 2) || s1.maint.waiting.any (fun r => r.act = 2) then s1
    else s1.wr .MEM_SELFTEST_DONE 1
  else if a.act = 8 then s.flashDone a
  else s

/-- MAINT_COMPLETE (R377): the activities of this sequencer. SCRUB runs until it is stopped; invalidations, transitions of
domains and trainings complete by events of their own. -/
def State.maintComplete (s : State) (act target : Nat) (mismatch : Option (Fin 56)) : State :=
  match s.maint.running.find? (fun a => a.act = act && a.target = target) with
  | none => s
  | some a =>
    if act = 1 then s
    else
      let s1 : State := { s with maint := { s.maint with running := s.maint.running.erase a } }
      (s1.actEnd a mismatch).maintSettle

/-- MAINT_COMPLETE (R377). -/
def execMaintComplete (act : Fin 10) (target : Nat) (mismatch : Option (Fin 56)) (s : State) :
    Host.Outcome State Fault Refusal :=
  .next (if s.live then s.maintComplete act target mismatch else s)

/-! ### The scrub (R375) -/

/-- Region r is walked: STRONG with SCRUB = 1. -/
def State.scrubs (s : State) (r : Nat) : Bool :=
  (s.region r).code = 2 && s.rd .MEM_REGION_STATE_SCRUB r = 1 && decide (32 ≤ (s.region r).size)

/-- A place of the scrub: region × 2^40 + sector of the region. -/
def scrubPlace (r o : Nat) : Nat := r * 2 ^ 40 + o

/-- The sector to scrub from place `x` on in index and address order; none: the walk is complete. -/
def State.scrubFrom (s : State) (x : Nat) : Option (Nat × Nat) :=
  let r := x / 2 ^ 40
  let o := x % 2 ^ 40
  if s.scrubs r && decide (32 * o < (s.region r).size) then some (r, o)
  else ((List.range 16).find? (fun k => decide (r < k) && s.scrubs k)).map (fun k => (k, 0))

/-- Go to the next sector; past the last one a pass is counted and the walk wraps. -/
def State.scrubNext (s : State) (r o : Nat) : State :=
  let x := scrubPlace r (o + 1)
  if (s.scrubFrom x).isSome then { s with maint := { s.maint with scrubPos := x } }
  else ({ s with maint := { s.maint with scrubPos := 0 } }).count .MEM_SCRUB_STAT_PASSES

/-- Invert stored bits: 32 data bytes, and the check bits of the sector's region. -/
def State.flipCells (s : State) (pa : Nat) (data check : Nat) : State :=
  let s1 := s.setRaws pa (toLe 32 (ofLe (s.rawBytes pa 32) ^^^ data))
  match s.regionOf pa with
  | none => s1
  | some r =>
    let g := s.region r
    let n := if g.code = 1 then 4 else 32
    let a := g.checkAddr pa
    s1.setRaws a (toLe n (ofLe (s1.rawBytes a n) ^^^ (check % 2 ^ (8 * n))))

/-- Read one sector and write it back corrected (R375). -/
def State.scrubSector (s : State) (pa : Nat) : State :=
  let r := s.readSector pa
  let s1 := s.useDram maintAsker 64
  if r.bad ≠ 0 then s1.noteBad maintAsker pa r.bad
  else if r.corrected then
    let s2 := s1.noteCorrected maintAsker pa
    match storeFind s.mem.l2 (sectorOf pa) with
    | some x => if x.dirty then s2 else s2.writeSector pa r.bytes
    | none => s2.writeSector pa r.bytes
  else s1

/-- The next sector of the walk, with the cells that have flipped; a controller that is not ON is skipped. -/
def State.scrubStep (s : State) (data check : Nat) : State :=
  let at' := match s.scrubFrom s.maint.scrubPos with
    | some x => some x
    | none => s.scrubFrom 0
  match at' with
  | none => s
  | some (r, o) =>
    let pa := (s.region r).base + 32 * o
    if s.domState (domMc (ctrlOf pa)) ≠ 0 then s.scrubNext r o
    else ((s.flipCells pa data check).scrubSector pa).scrubNext r o

/-- SCRUB_SECTOR (R375): while SCRUB runs; a read that the stuff box holds waits (R327). -/
def execScrubSector (dataFlip checkFlip : BitVec 256) (s : State) : Host.Outcome State Fault Refusal :=
  .next (if s.live && s.maint.running.any (fun a => a.act = 1) && s.admitsMem maintAsker then
    s.scrubStep dataFlip.toNat checkFlip.toNat else s)

/-! ### Requests at the L2 and reads that return from DRAM -/

/-- The requester kind of a port (R351, R371). -/
def portKind : L2Port → Nat
  | .vat _ => 0
  | .geo => 3
  | .plp _ => 4
  | .bal => 5
  | .copy => 6
  | .cal => 8
  | .feltE => 10
  | .feltW => 10
  | .pcie => 11
  | .unit => 2

/-- The partition whose work a port carries now: that of the vat's blocks, of the rendering pass, of the calender; none where
the state does not say. -/
def State.portPart (s : State) : L2Port → Option Nat
  | .vat n => (s.resident n).head?.map Launch.p
  | .geo => (s.geo.passes.head?).map (fun (x : Pass) => x.p)
  | .cal => s.calPart
  | _ => none

/-- The end of the work that met an uncorrectable read (R369). The virtual address of the FAULT record is not among an
access's operands: a free value. -/
def State.badEnd (s : State) (port : L2Port) (part : Option Nat) (pa : Nat) : State :=
  let st := stMem 1 (s.memDetail pa)
  let (n, s1) := s.takeFree
  let va := (Config.undefinedWord n).toNat
  let down (vat tag : Nat) : State := match part with
    | some p => s1.tearDown p 3 st vat 0 va tag
    | none => s
  match port with
  | .vat v => down v (((s.resident v).head?.map Launch.tag).getD 0)
  | .geo => down 0 0
  | .copy => down 0 0
  | .unit => down 0 0
  | .plp e => match (storeGet [] s.codec.engines e).head? with
    | some id => s.markFail (.cmd id) st
    | none => s
  | .bal => match s.codec.baler.head? with
    | some id => s.markFail (.cmd id) st
    | none => s
  | .pcie => { s with reply := .abort }
  | _ => s

/-- DRAM_READ_RETURN (R366 to R369): cells of the sector have flipped, and a read that misses L2 meets them. -/
def State.dramReadReturn (s : State) (port : L2Port) (part : Option Nat) (pa data check : Nat) : State :=
  let who : Asker := ⟨port, portKind port, part.getD 0⟩
  let s1 := s.flipCells pa data check
  match s1.l2ReadSector who .wb pa with
  | (s2, some _) => s2
  | (s2, none) => s2.badEnd port part pa

/-- DRAM_READ_RETURN (R366). -/
def execDramReadReturn (port : L2Port) (part : Option (Fin 32)) (addr : BitVec 44) (dataFlip checkFlip : BitVec 256)
    (s : State) : Host.Outcome State Fault Refusal :=
  let pa := addr.toNat / 32 * 32
  .next (if s.live && s.usable pa && (s.l2Hit pa).isNone then
    s.dramReadReturn port (part.map Fin.val) pa dataFlip.toNat checkFlip.toNat else s)

/-- A parity error of a clean sector (R361): the sector is dropped and counted, and fetched again by the access. -/
def State.parityClean (s : State) (pa : Nat) : State :=
  match s.l2Hit pa with
  | some x =>
    if x.dirty then s
    else ({ s with mem := { s.mem with l2 := storeErase s.mem.l2 (sectorOf pa) } }).count .L2_PARITY_CLEAN
  | none => s

/-- The access of a request (R355); what a read or an atomic returns goes to the requester. -/
def State.l2Serve (s : State) (port : L2Port) (pol : CachePolicy) (op : L2Op) (pa : Nat) : State :=
  let part := s.portPart port
  let who : Asker := ⟨port, portKind port, part.getD 0⟩
  match op with
  | .read n => match s.l2Read who pol pa n with
    | (s1, some bs) => { s1 with reply := .data bs }
    | (s1, none) => s1.badEnd port part pa
  | .write bs => match s.l2Write who pol pa bs with
    | (s1, true) => s1
    | (s1, false) => s1.badEnd port part pa
  | .atomic opc sgn wide b c => match s.l2Atomic who pol opc.toNat sgn wide pa b.toNat c.toNat with
    | (s1, some old) => { s1 with reply := .data (toLe (if wide then 8 else 4) old) }
    | (s1, none) => s1.badEnd port part pa

/-- The bytes of a request at the L2. -/
def l2OpSize : L2Op → Nat
  | .read n => n
  | .write bs => bs.length
  | .atomic _ _ wide _ _ => if wide then 8 else 4

/-- L2_ACCESS (R355, R361): a request lies in one line; one that misses waits while a stuff box holds it (R327); a dirty sector's, tag's or line state's parity error resets the
device. -/
def execL2Access (port : L2Port) (policy : CachePolicy) (op : L2Op) (addr : BitVec 44) (parity : Option ParityKind)
    (s : State) : Host.Outcome State Fault Refusal :=
  let pa := addr.toNat
  .next (if s.live && oneLine pa (l2OpSize op) && s.usableRange pa (l2OpSize op) &&
      ((s.l2Hit pa).isSome || s.admitsMem ⟨port, portKind port, (s.portPart port).getD 0⟩) then
    match parity with
    | some .dirty => if s.rd .L2_CTRL_EN = 1 then s.deviceReset (stDevice 5 (sliceOf pa)) else s.l2Serve port policy op pa
    | some .clean => (s.parityClean pa).l2Serve port policy op pa
    | none => s.l2Serve port policy op pa
  else s)

end Sys2Proof.Machine
end

