-- ==== Sys2Proof/Machine/PowerCmds.lean ====
section
/-!
DEFINITION. Power (R449 to R464, R503): requests to the power domains and their transitions, operating points, and the power,
current, thermal and wear limits.
-/

namespace Sys2Proof.Machine

/-! ### Domains (R449 to R453) -/

/-- The requester can write PWR_DOM_CTRL. -/
def State.powerAsk (s : State) : Requester → Bool
  | .mgc => s.live && s.mgc.booted
  | .pf => s.pfWrites

/-- Engine busy (R450). -/
def State.domBusy (s : State) (d : Nat) : Bool :=
  if d < 64 then !(s.vat d).blocks.isEmpty || s.anyTile d || (s.vat d).preload.isSome || (s.vat d).lent
  else if d < 92 then false
  else if d = 92 then !s.geo.passes.isEmpty
  else if d < 97 then storeGet [] s.codec.engines (d - 93) ≠ []
  else if d = 97 then s.codec.baler ≠ []
  else if d = 98 then [32, 33].any (fun k => s.funcState k ≠ fnStopped && s.funcState k ≠ fnAbsent)
  else s.ringed && s.rd .FLT_CTRL_WITHDRAW = 0

/-- The first refuser of a RET or OFF request that applies (R450). A request of the domain that a stuff box holds, and a wake
cause that waits, do not stand in the state: what they are for has not happened yet. -/
def State.domRefuser (s : State) (d : Nat) : Option Nat :=
  if s.rd .DBG_FREEZE_STATUS_STATE ≠ 0 then some 3
  else if s.meets ⟨7, d, 0⟩ .refused ≠ [] || s.domState d = 1 || s.domState d = 4 then some 2
  else if s.domBusy d then some 1
  else none

/-- Entry starts (R451). -/
def State.domEnter (s : State) (d target : Nat) : State :=
  ({ s with pwr := { s.pwr with doms := storePut d ⟨false, target⟩ s.pwr.doms } }).wr .PWR_DOM_STATE_STATE 1 d

/-- PWR_DOM_RESULT. -/
def State.domResult (s : State) (d st : Nat) : State := s.wr .PWR_DOM_RESULT_STATUS st d

/-- A request for RET (2) or OFF (3) (R450, R453): the state, or the refuser. -/
def State.domDown (s : State) (d target : Nat) : State ⊕ Nat :=
  let st := s.domState d
  if st = target then .inl (s.domResult d stOk)
  else if st = 3 then .inl (s.domResult d stOk)
  else if st = 2 then .inl ((({ (s.domLost d) with pwr := { s.pwr with ret := storeErase s.pwr.ret d } }).wr
    .PWR_DOM_STATE_STATE 3 d).domResult d stOk)
  else match s.domRefuser d with
    | some r => .inr r
    | none => .inl ((s.domEnter d target).domResult d stOk)

/-- A RET or OFF request; a refusal is counted and reported. -/
def State.domAsk (s : State) (d target : Nat) : State :=
  if 101 ≤ d then s.domResult d (stPwr 1 d)
  else match s.domDown d target with
    | .inl s1 => s1
    | .inr r => ((s.count .PWR_DOM_COUNT_REFUSED 1 d).wr .PWR_DOM_STATE_REFUSER r d).domResult d (stPwr 3 (r * 256 + d))

/-- TARGET_ON (R452, R453): a wake cause; a VAT domain without a VAT post stays OFF (R448). -/
def execTargetOn (who : Requester) (dom : Fin 105) (s : State) : Host.Outcome State Fault Refusal :=
  .next (if s.powerAsk who then
    let s1 := s.wr .PWR_DOM_CTRL_TARGET 0 dom
    if s1.domAssigned dom then (s1.domWake dom).domResult dom stOk else s1.domResult dom (stPwr 2 dom)
  else s)

/-- TARGET_RET (R450). -/
def execTargetRet (who : Requester) (dom : Fin 105) (s : State) : Host.Outcome State Fault Refusal :=
  .next (if s.powerAsk who then (s.wr .PWR_DOM_CTRL_TARGET 1 dom).domAsk dom 2 else s)

/-- TARGET_OFF (R450). -/
def execTargetOff (who : Requester) (dom : Fin 105) (s : State) : Host.Outcome State Fault Refusal :=
  .next (if s.powerAsk who then (s.wr .PWR_DOM_CTRL_TARGET 2 dom).domAsk dom 3 else s)

/-- DOMAIN_IDLE_EXPIRY (R449): a request of the domain's own, whose refusal is neither counted nor reported. -/
def State.idleExpiry (s : State) (d : Nat) : State :=
  let t := s.rd .PWR_DOM_CTRL_TARGET d
  if s.rd .PWR_DOM_CTRL_AUTO d = 0 || t = 0 || t = 3 || decide (101 ≤ d) then s
  else match s.domDown d (t + 1) with
    | .inl s1 => s1
    | .inr _ => s

/-- DOMAIN_IDLE_EXPIRY (R449). -/
def execDomainIdleExpiry (dom : Fin 105) (s : State) : Host.Outcome State Fault Refusal :=
  .next (if s.live then s.idleExpiry dom else s)

/-- The drain, the commit and the save (R451). -/
def State.entryDone (s : State) (d : Nat) : State :=
  match storeFind s.pwr.doms d with
  | some r =>
    if r.exit then s
    else
      let s1 := if 64 ≤ d && d < 80 then s.flushSlice (d - 64) else s
      let s2 := (s1.domDrained d).domSave d r.at'
      let s3 : State := { s2 with pwr := { s2.pwr with doms := storeErase s2.pwr.doms d } }
      ((s3.wr .PWR_DOM_STATE_STATE r.at' d).count .PWR_DOM_STATE_ENTRIES 1 d).maintDomain d
  | none => s

/-- DOMAIN_ENTRY_DONE (R451). -/
def execDomainEntryDone (dom : Fin 105) (s : State) : Host.Outcome State Fault Refusal :=
  .next (if s.live then s.entryDone dom else s)

/-- DOMAIN_WAKE (R452). -/
def execDomainWake (dom : Fin 105) (s : State) : Host.Outcome State Fault Refusal :=
  .next (if s.live then s.domWake dom else s)

/-- DOMAIN_EXIT_DONE (R452): what waits for the domain goes on. -/
def State.exitDone (s : State) (d : Nat) : State :=
  match storeFind s.pwr.doms d with
  | some r => if r.exit then (s.domOn d).maintDomain d else s
  | none => s

/-- DOMAIN_EXIT_DONE (R452). -/
def execDomainExitDone (dom : Fin 105) (s : State) : Host.Outcome State Fault Refusal :=
  .next (if s.live then s.exitDone dom else s)

/-! ### Operating points (R455 to R457) -/

/-- A PWR_DVFS write is carried out, or held where VOP would be below FOP (R455). -/
def State.dvfsApply (s : State) (r vop fop : Nat) : State :=
  if min vop (railTop r) < min fop (railTop r) then s.wr .PWR_DVFS_RESULT_STATUS (stPwr 5 (r * 256)) r
  else
    let s1 := ((s.wr .PWR_DVFS_VOP vop r).wr .PWR_DVFS_FOP fop r).wr .PWR_DVFS_RESULT_STATUS stOk r
    ({ s1 with pwr := { s1.pwr with failed := storeErase s1.pwr.failed r } }).repoint

/-- DVFS_WRITE (R455, R457): latched while a change of the rail runs. -/
def execDvfsWrite (rail : Fin 3) (vop fop : BitVec 4) (s : State) : Host.Outcome State Fault Refusal :=
  .next (if s.pfWrites then
    if (storeFind s.pwr.change rail).isSome then
      { s with pwr := { s.pwr with latched := storePut rail (vop.toNat, fop.toNat) s.pwr.latched } }
    else s.dvfsApply rail vop.toNat fop.toNat
  else s)

/-- A rail's change has ended: a latched write is carried out. -/
def State.changeEnd (s : State) (r : Nat) : State :=
  match storeFind s.pwr.latched r with
  | some w => ({ s with pwr := { s.pwr with latched := storeErase s.pwr.latched r } }).dvfsApply r w.1 w.2
  | none => s.repoint

/-- AVS_READBACK (R455): the voltage stands; the effective point is reached. -/
def State.avsReadback (s : State) (r : Nat) : State :=
  match storeFind s.pwr.change r with
  | some t => (({ s with pwr := { s.pwr with change := storeErase s.pwr.change r } }).wr (railField r) t).changeEnd r
  | none => s

/-- AVS_READBACK (R455). -/
def execAvsReadback (rail : Fin 3) (s : State) : Host.Outcome State Fault Refusal :=
  .next (if s.live then s.avsReadback rail else s)

/-- AVS_TIMEOUT (R457): the effective point stays, and a POWER record is posted. -/
def State.avsTimeout (s : State) (r : Nat) : State :=
  match storeFind s.pwr.change r with
  | some t =>
    let s1 : State := { s with pwr := { s.pwr with
      change := storeErase s.pwr.change r
      failed := storePut r t s.pwr.failed } }
    let st := stPwr 6 (r * 256)
    ((s1.wr .PWR_DVFS_RESULT_STATUS st r).raiseShared .power st s.powerDetail s.avgPower (s.pwr.reserve / 1000)).changeEnd r
  | none => s

/-- AVS_TIMEOUT (R457). -/
def execAvsTimeout (rail : Fin 3) (s : State) : Host.Outcome State Fault Refusal :=
  .next (if s.live then s.avsTimeout rail else s)

/-! ### Limits (R459 to R463, R503) -/

/-- A record of the power unit (R464). In a freeze the limiters run on (R493), but the event queues' clock is stopped and no
record is posted. -/
def State.powerRecord (s : State) (src : Shared) (st : Nat) : State :=
  if s.live then s.raiseShared src st s.powerDetail s.avgPower (s.pwr.reserve / 1000) else s

/-- A cap has crossed the request: it was at or above it and is below, or the other way round. -/
def crossed (before after request : Nat) : Bool := decide (before < request) != decide (after < request)

/-- The thermal cap takes a value: THERMAL records at its crossings of the request (R461). -/
def State.setThermal (s : State) (cap : Nat) : State :=
  let req := max s.coreRequest (s.railVop 2)
  let s1 := (s.wr .PWR_LIMIT_THERMAL cap).repoint
  if crossed (s.rd .PWR_LIMIT_THERMAL) cap req then s1.powerRecord .thermal (stPwr 9 cap) else s1

/-- The bin's power joins the window, and the reserve moves by P_c − P_bin over 1 ms (R459). -/
def State.addBin (s : State) (p : Nat) : State :=
  let s1 : State := { s with pwr := { s.pwr with
    bins := p :: s.pwr.bins.take 9
    reserve := min 6250000 (s.pwr.reserve + s.classPower - p)
    sinceDown := min 10 (s.pwr.sinceDown + 1)
    sinceUp := min 10 (s.pwr.sinceUp + 1)
    thermSince := min 10 (s.pwr.thermSince + 1)
    curSince := min 10 (s.pwr.curSince + 1) } }
  (s1.wr .PWR_RESERVE_RESERVE (s1.pwr.reserve / 1000)).wr .PWR_RESERVE_AVG (min 65535 (s1.avgPower / 100))

/-- The power cap after a bin (R459): −1, +1 or 0. -/
def State.capStep (s : State) : Int :=
  let n := s.pwr.bins.length
  let sum := s.pwr.bins.sum
  let cap := s.rd .PWR_LIMIT_POWER
  if s.pwr.reserve = 0 && decide (s.classPower * n < sum) && s.pwr.sinceDown = 10 && decide (0 < cap) then -1
  else if decide (cap < s.coreRequest) && s.pwr.sinceUp = 10 &&
      (decide (1250000 ≤ s.pwr.reserve) || decide (10 * sum ≤ 9 * s.classPower * n)) then 1
  else 0

/-- The power limiter's step, with its records. -/
def State.powerLimit (s : State) (before : Nat) : State :=
  let cap := s.rd .PWR_LIMIT_POWER
  let step := s.capStep
  let cap' := (cap + step).toNat
  let s1 : State := { s with pwr := { s.pwr with
    sinceDown := if step < 0 then 0 else s.pwr.sinceDown
    sinceUp := if 0 < step then 0 else s.pwr.sinceUp } }
  let s2 := (s1.wr .PWR_LIMIT_POWER cap').repoint
  let s3 := if 0 < before && s.pwr.reserve = 0 then s2.powerRecord .power (stPwr 0x0C 0) else s2
  if crossed cap cap' s.coreRequest then s3.powerRecord .power (stPwr 7 cap') else s3

/-- The current cap rises by one point after a bin below 115 A (R460). -/
def State.currentRise (s : State) (low : Bool) : State :=
  if low then (s.wr .PWR_LIMIT_CURRENT (min 4 (s.rd .PWR_LIMIT_CURRENT + 1))).repoint else s

/-- The most that the held pins let the thermal cap be (R503). -/
def State.thermTop (s : State) : Nat :=
  if s.featureOn 0x06 && !bitAt s.pins.gpioIn 8 then 0 else if s.featureOn 0x07 && !bitAt s.pins.gpioIn 7 then 2 else 4

/-- The thermal limiter's step (R461). -/
def State.thermalLimit (s : State) (t : Int) : State :=
  let cap := s.rd .PWR_LIMIT_THERMAL
  if 105 ≤ t then (if cap = 0 then s else s.setThermal (min (cap - 1) s.thermTop))
  else if s.thermTop < cap then s.setThermal s.thermTop
  else if t < 100 && cap < s.thermTop && s.pwr.thermSince = 10 then
    ({ s with pwr := { s.pwr with thermSince := 0 } }).setThermal (cap + 1)
  else s

/-- The temperature registers. -/
def State.setTemp (s : State) (t : Int) (sensor : Nat) : State :=
  (s.wr .PWR_TEMP_TEMP (wrapN 8 t)).wr .PWR_TEMP_SENSOR sensor

/-- LIMITER_BIN (R459 to R461), also in a freeze (R446, R493): `power` is P_bin in mW, `temp` and `sensor` the hottest junction, `currentLow` says that the
current stayed below 115 A. -/
def execLimiterBin (power : Nat) (temp : Int) (sensor : Fin 16) (currentLow : Bool) (s : State) :
    Host.Outcome State Fault Refusal :=
  .next (if s.powered then
    (((((s.setTemp temp sensor).addBin power).powerLimit s.pwr.reserve).currentRise currentLow).thermalLimit temp)
  else s)

/-- CURRENT_TRIP (R460): one point below the effective ACLK point; at most one record in 10 bins. -/
def State.currentTrip (s : State) : State :=
  let cap := min (s.railFop 0) (s.rd .PWR_STATUS_ARR) - 1
  let s1 := ((s.count .PWR_LIMIT_TRIPS).wr .PWR_LIMIT_CURRENT cap).repoint
  if s.pwr.curSince = 10 then
    ({ s1 with pwr := { s1.pwr with curSince := 0 } }).powerRecord .power (stPwr 8 cap)
  else s1

/-- CURRENT_TRIP (R460), also in a freeze (R446, R493). -/
def execCurrentTrip (s : State) : Host.Outcome State Fault Refusal := .next (if s.powered then s.currentTrip else s)

/-- THERMAL_TRIP (R462): the pin, the device reset, TRIPPED, and a record that is owed until a queue is enabled. -/
def State.thermalTrip (s : State) (sensor : Nat) : State :=
  let first := s.rd .PWR_STATUS_TRIPPED = 0
  let s1 := (s.deviceReset (stDevice 6 0)).wr .PWR_STATUS_TRIPPED 1
  { s1 with
    pins := { s1.pins with thermTrip := true, smbAlert := s1.pins.smbAlert || first }
    pwr := { s1.pwr with tripOwed := some sensor } }

/-- THERMAL_TRIP (R462): below 115 °C there is none. -/
def execThermalTrip (temp : Int) (sensor : Fin 16) (s : State) : Host.Outcome State Fault Refusal :=
  .next (if s.powered && decide (115 ≤ temp) then s.thermalTrip sensor else s)

/-- WEAR_HOUR (R463): an hour at point 4 goes to the settings store; at 20,000 hours PEAK_WORN is blown. -/
def State.wearHour (s : State) : State :=
  let t := min 72000000 (s.rd .PWR_WEAR_SECONDS + 3600)
  let s1 := (s.wr .PWR_WEAR_SECONDS t).saveSettings t s.settingsCore.2
  if t = 72000000 then
    (({ s1 with mgc := { s1.mgc with fuses := { s1.mgc.fuses with peakWorn := true } } }).wr .PWR_STATUS_WORN 1).repoint
  else s1

/-- WEAR_HOUR (R463). -/
def execWearHour (s : State) : Host.Outcome State Fault Refusal :=
  .next (if s.live && s.mgc.booted && s.rd .PWR_STATUS_ARR = 4 then s.wearHour else s)

/-- A hold begins or ends (R503): at its begin the cap falls to what the held pins allow. -/
def State.thermHold (s : State) : State :=
  let cap := s.rd .PWR_LIMIT_THERMAL
  if s.thermTop < cap then s.setThermal s.thermTop else s

/-- A GPIO's level changes at the board (R504). -/
def State.setPin (s : State) (n : Nat) (low : Bool) : State :=
  { s with pins := { s.pins with gpioIn := if low then clearBit s.pins.gpioIn n else setBit s.pins.gpioIn n } }

/-- VR_HOT (R503): the pin acts while its feature holds GPIO7. -/
def execVrHot (low : Bool) (s : State) : Host.Outcome State Fault Refusal :=
  let s := s.setPin 7 low
  .next (if s.powered then s.thermHold else s)

/-- PWR_BRAKE (R503): the pin acts while its feature holds GPIO8. -/
def execPwrBrake (low : Bool) (s : State) : Host.Outcome State Fault Refusal :=
  let s := s.setPin 8 low
  .next (if s.powered then s.thermHold else s)

end Sys2Proof.Machine
end

