-- ==== Sys2Proof/Machine/Queues.lean ====
section
/-!
DEFINITION. The driver's control of a queue (R236, R245, R285, R286): HB_Q_CTRL's EN and RESUME.
-/

namespace Sys2Proof.Machine

/-- Set HB_Q_CTRL.EN (R236): the indices, the doorbell and DONE become 0, and the partition's intake fault is cleared; with a
SIZE outside 7 to 20 EN stays 0 and BAD_SIZE is recorded. A queue that is enabled or dying does not change (R286). -/
def State.enableQueue (s : State) (p q size : Nat) : State :=
  if s.rd .HB_Q_CTRL_EN p q = 1 || s.rd .HB_Q_CTRL_DESTROYING p q = 1 then s
  else
    let s1 := s.wr .HB_Q_CTRL_SIZE size p q
    if size < 7 || 20 < size then s1.queueErr p q (stCmd 0x28 size) (s.rd .HB_Q_READ_INDEX p q)
    else
      let s2 := ((s1.wr .HB_Q_READ_INDEX 0 p q).wr .HB_Q_DONE_INDEX 0 p q).setBell p q 0
      (s2.wr .HB_PART_FAULT_STATUS 0 p).wr .HB_Q_CTRL_EN 1 p q

/-- QUEUE_ENABLE (R236). -/
def execQueueEnable (fn : Fin 33) (p : Fin 32) (q : Fin 16) (size : BitVec 5) (s : State) :
    Host.Outcome State Fault Refusal :=
  .next (if s.mayWrite fn p then s.enableQueue p q size.toNat else s)

/-- QUEUE_DESTROY (R285): clearing EN. -/
def execQueueDestroy (fn : Fin 33) (p : Fin 32) (q : Fin 16) (s : State) : Host.Outcome State Fault Refusal :=
  .next (if s.mayWrite fn p && s.rd .HB_Q_CTRL_EN p q = 1 then s.destroyQueue p q else s)

/-- RESUME (R245): HALTED clears, and the queue goes on with the command after the WAIT. -/
def execResume (fn : Fin 33) (p : Fin 32) (q : Fin 16) (s : State) : Host.Outcome State Fault Refusal :=
  .next (if s.mayWrite fn p then s.wr .HB_Q_CTRL_HALTED 0 p q else s)

end Sys2Proof.Machine
end

