-- ==== Sys2Proof/Machine/Registers.lean ====
section
/-!
DEFINITION. Register accesses of the host through BAR0 (R3 to R9, R34, R222 to R224, R290, R493): which register an offset
names in a function's view, reads with their side effects, and writes of the fields that have no behaviour of their own. A
field whose writing is a command of its own keeps its value here.
-/

namespace Sys2Proof.Machine

/-! ### What an offset names -/

/-- What an access reaches: a register word, a word of the function's MSI-X structures (0 to 3 the table entry, 4 the PBA),
the aperture, or nothing. -/
inductive BarPlace
  | reg (a : RegAt)
  | msix (k : Nat)
  | aperture (off : Nat)
  | nothing
deriving DecidableEq, Repr

/-- The word of a per-partition register that lies at offset `o` of its block, for partition or target `k` (R224). -/
def Reg.partAt (base k o : Nat) : List Reg → Option RegAt
  | [] => none
  | r :: rs =>
    if r.spec.view = .part ∧ base ≤ r.spec.base ∧ r.spec.base < base + 0x10000 ∧ r.spec.base - base ≤ o ∧
        o - (r.spec.base - base) < r.spec.s1 ∧ k < r.spec.n1 then
      match r.locate (k * r.spec.s1 + (o - (r.spec.base - base))) with
      | some a => if a.i = k then some a else Reg.partAt base k o rs
      | none => Reg.partAt base k o rs
    else Reg.partAt base k o rs

/-- A register word, or nothing. -/
def BarPlace.ofReg (a : Option RegAt) : BarPlace :=
  match a with
  | some x => .reg x
  | none => .nothing

/-- VF k's view (R222, R223). -/
def State.vfPlace (s : State) (k off : Nat) : BarPlace :=
  let o := off % 0x10000
  let w := off / 0x10000
  if off = 0 then .reg ⟨.GLB_VF_STATUS, k, 0, 0⟩
  else if !s.vfShows k then .nothing
  else if w = 0 then
    (if 0xE000 ≤ off ∧ off < 0xE010 then .msix ((off - 0xE000) / 4)
    else if off = 0xF000 then .msix 4 else .nothing)
  else if w = 1 then .ofReg (Reg.partAt 0x100000 k o Reg.all)
  else if w = 2 then .ofReg (Reg.partAt 0x200000 k o Reg.all)
  else if w = 3 then .ofReg (Reg.partAt 0x400000 k o Reg.all)
  else if w = 4 then .ofReg (Reg.partAt 0x500000 k o Reg.all)
  else if w = 5 then .ofReg (Reg.partAt 0x800000 k o Reg.all)
  else if w = 6 then (if s.calPart = some k then .ofReg (Reg.decode (0xB00000 + o)) else .nothing)
  else if w < 8 then .nothing
  else
    let i := (off - 0x80000) / 32
    if s.owns k i then .ofReg (Reg.decode (0x300000 + (off - 0x80000))) else .nothing

/-- What function `fn`'s BAR0 offset names (R3, R6, R223). -/
def State.place (s : State) (fn off : Nat) : BarPlace :=
  if off % 4 ≠ 0 then .nothing
  else if fn = 0 then (if 0x2000000 ≤ off then .aperture (off - 0x2000000) else .ofReg (Reg.decode off))
  else if s.vfExposed (fn - 1) && decide (off < 0x100000) then s.vfPlace (fn - 1) off
  else .nothing

/-- Function `fn` answers at its BAR0: it exists and is in D0 (R230); a VF's BAR0 has 1 MiB. -/
def State.barUp (s : State) (fn off : Nat) : Bool :=
  !(s.fnCfg fn).d3hot && (fn = 0 || (s.vfEnabled (fn - 1) && decide (off < 0x100000)))

/-! ### Reads -/

/-- A word of a function's MSI-X structures (R222). -/
def FnCfg.word (c : FnCfg) (k : Nat) : Nat :=
  if k = 0 then c.addr % 2 ^ 32
  else if k = 1 then c.addr / 2 ^ 32
  else if k = 2 then c.data
  else if k = 3 then b2n c.mask
  else b2n c.pending

/-- A 32-bit read of a place: the value and the state after it. -/
def State.readPlace (s : State) (fn : Nat) : BarPlace → State × Nat
  | .reg a => s.readWord a
  | .msix k => (s, (s.fnCfg fn).word k)
  | .aperture off => ((s.apRead off 4).1, ofLe (s.apRead off 4).2)
  | .nothing => (s, 0)

/-- Reads of function `fn` at an offset return what they name (R232, R482, R493, R516): VF BARs read 0 until STAGE = READY and
in a freeze. -/
def State.readOpen (s : State) (fn off : Nat) : Bool :=
  if fn = 0 then s.bar0Open off else !s.frozen && s.rd .MGC_BOOT_STATUS_STAGE = 5 && s.enginesUp

/-- A 32-bit register read from outside. A read with partial byte enables returns the whole register (R5). -/
def State.hostRead (s : State) (fn off : Nat) : State :=
  if !s.powered then s
  else if !s.barUp fn off then s.unsupported
  else if s.readOpen fn off then
    (s.readPlace fn (s.place fn off)).1.answer 4 (s.readPlace fn (s.place fn off)).2
  else s.answer 4 0

/-- READ_CLEAR (R8): the RC fields of the word read become 0. -/
def execReadClear (fn : Fin 33) (off : BitVec 26) (s : State) : Host.Outcome State Fault Refusal :=
  .next (s.hostRead fn off.toNat)

/-- LATCHED_READ (R290): the lowest word's read latches the others, and their reads return what was latched. -/
def execLatchedRead (fn : Fin 33) (off : BitVec 26) (s : State) : Host.Outcome State Fault Refusal :=
  .next (s.hostRead fn (off.toNat / 4 * 4))

/-! ### Writes -/

/-- A field whose writing is a command of the table: it keeps its value in a REGISTER_WRITE. -/
def Field.ownRow (f : Field) : Bool :=
  [Field.HB_Q_CTRL_EN, .EVQ_CTRL_EN, .EVQ_READ_INDEX, .EVQ_MASK_MASK, .CAL_PLANE_CTRL_ARM, .SYN_OBJ_VALUE, .XLT_ROOT_ADDR,
    .XLT_ROOT_EN, .L2_CTRL_EN, .PWR_DVFS_VOP, .PWR_DVFS_FOP, .GLB_ZT2_COUNT, .FLT_CTRL_WITHDRAW, .SCH_DL_CFG_EN].contains f

/-- The state in which a field takes a write, where its table or a rule names one: `v` is the value it would take, `data` the
word written (R210, R236, R253, R293, R297, R318, R375). -/
def State.fieldOpen (s : State) (f : Field) (a : RegAt) (v data : Nat) : Bool :=
  let i := a.i
  match f.spec.reg with
  | .CAL_HEAD_CTRL | .CAL_TIMING => s.funcState (32 + i) = fnStopped
  | .GEO_POOL_BASE => s.rd .GEO_PASS_STATE i = 0
  | .HB_Q_BASE | .HB_Q_CTRL => s.rd .HB_Q_CTRL_EN i a.j = 0 && s.rd .HB_Q_CTRL_DESTROYING i a.j = 0
  | .HB_GRAPH_STORE | .HB_GRAPH_SIZE => s.funcState i = fnStopped && s.hb.versions.all (fun x => x.p ≠ i)
  | .HB_HEAP_BASE => s.funcState i = fnStopped && (s.heap i).live = []
  | .EVQ_BASE => s.rd .EVQ_CTRL_EN i = 0 && !(i = 33 && a.w = 1 && bits data 31 12 ≠ 0)
  | .EVQ_CTRL => f = .EVQ_CTRL_OVF || s.rd .EVQ_CTRL_EN i = 0
  | .EVQ_ROUTE => v = 32 || v = 33
  | .SCH_SAVE_BASE | .SCH_SAVE_SIZE => s.shown .SCH_SAVE_USE_BLOCKS i 0 = 0
  | .SCH_DL_CFG => s.rd .SCH_DL_CFG_EN i = 0
  | .MEM_REGION_STATE => s.rd .MEM_REGION_CODE i = 2
  | .PLP_SLOT => if f = .PLP_SLOT_EN then v = 0 else s.rd .PLP_SLOT_EN i = 0 && !bitAt data 31
  | _ => true

/-- A field's value after a write of a word, by its type (R8); GLB_GPIO_OUT only at the pins of GPIO_SW (R504). -/
def State.written (s : State) (f : Field) (a : RegAt) (data : Nat) : Nat :=
  let old := s.rd f a.i a.j
  let new := f.merge a.w old data
  match f.spec.ty with
  | .rw =>
    if f.spec.reg = .GLB_GPIO_OUT then andN new s.softPins + andNot old s.softPins else new
  | .rwl => if s.rd .GLB_FURNISH_STATUS_LOCKED = 1 then old else new
  | .w1s => f.merge a.w old (data ||| (bits (old * 2 ^ f.spec.lo) (32 * a.w + 31) (32 * a.w)))
  | .w1c => andNot old (f.merge a.w 0 data)
  | _ => old

/-- Write the fields of a word that take it. -/
def State.writeFields (s : State) (a : RegAt) (data : Nat) : State :=
  (a.reg.fields.filter (fun f => !f.ownRow && (f.inWord a.w).isSome)).foldl (fun (r : State) f =>
    if s.fieldOpen f a (s.written f a data) data then r.wr f (s.written f a data) a.i a.j else r) s

/-- The other fields of a record that clearing its VALID clears (VAT_FAULT_WHO, R84; VAT_TERR, R172; GEO_REFUSE, R207;
MEM_ERR_LOG). -/
def recordFields (r : Reg) : List Field :=
  match r with
  | .VAT_FAULT_WHO => [.VAT_FAULT_WHO_PART, .VAT_FAULT_WHO_QUIRE, .VAT_FAULT_WHO_BLOCK, .VAT_FAULT_WHO_MORE,
      .VAT_FAULT_STATUS_STATUS, .VAT_FAULT_PC_PC, .VAT_FAULT_LANES_LANES]
  | .VAT_TERR => [.VAT_TERR_OP, .VAT_TERR_QUIRE, .VAT_TERR_REASON]
  | .GEO_REFUSE => [.GEO_REFUSE_OP, .GEO_REFUSE_REASON]
  | .MEM_ERR_LOG => [.MEM_ERR_LOG_STATUS, .MEM_ERR_LOG_MASK, .MEM_ERR_LOG_SECTOR]
  | _ => []

/-- Clear a record whose VALID is written 1. -/
def State.clearRecord (s : State) (a : RegAt) (data : Nat) : State :=
  if bitAt data 31 && (a.reg ≠ .MEM_ERR_LOG || a.w = 1) then
    (recordFields a.reg).foldl (fun (r : State) f => r.wr f 0 a.i a.j) s
  else s

/-- A MEM_MAINT_CTRL request that no activity takes (its table; R376). -/
def badMaint (op act arg : Nat) : Bool :=
  !((op = 1 && 1 ≤ act && act ≤ 5 && !(act = 3 && arg % 4 = 0)) || (op = 2 && act = 1))

/-- A request with GO that its register's table refuses, and that is no command of its own: the status says why. -/
def State.refuseGo (s : State) (a : RegAt) (data : Nat) : State :=
  match a.reg with
  | .GLB_CLAIM_CTRL =>
    if bitAt data 31 && (bits data 29 28 = 0 || bits data 29 28 = 3) then s.wr .GLB_CLAIM_RESULT_STATUS stBadValue else s
  | .HB_OBJ_CTRL =>
    if bitAt data 31 && (bits data 29 26 = 0 || decide (8 < bits data 29 26)) then
      s.wr .HB_OBJ_RESULT_STATUS stBadValue a.i else s
  | .MEM_MAINT_CTRL =>
    if bitAt data 31 && s.rd .MEM_MAINT_CTRL_PENDING = 0 && badMaint (bits data 29 28) (bits data 27 24) (bits data 15 0) then
      s.wr .MEM_MAINT_RESULT_STATUS stBadValue else s
  | .MGC_MBOX_CTRL =>
    if bitAt data 31 && (bits data 7 0 = 0 || decide (7 < bits data 7 0)) then
      s.mbox (bits data 7 0) (fun s => s.mboxDone cRequest) else s
  | .PWR_DOM_CTRL => if bits data 31 30 = 3 then s.domResult a.i (stPwr 1 a.i) else s
  | _ => s

/-- A write of a register word: fields, records, refusals. A register of a domain that is not ON takes none (log entry 22). -/
def State.writeWord (s : State) (a : RegAt) (data : Nat) : State :=
  let s0 := s.wakeReg a
  if s0.regOn a then ((s0.writeFields a data).clearRecord a data).refuseGo a data else s0

/-- A write of a word of a function's MSI-X table entry (R222): unmasking with a message pending is a command of its own. -/
def State.writeMsix (s : State) (fn k data : Nat) : State :=
  let c := s.fnCfg fn
  if k = 0 then s.setFn fn { c with addr := c.addr / 2 ^ 32 * 2 ^ 32 + data }
  else if k = 1 then s.setFn fn { c with addr := c.addr % 2 ^ 32 + data * 2 ^ 32 }
  else if k = 2 then s.setFn fn { c with data := data }
  else if k = 3 && !(c.mask && c.pending && !bitAt data 0) then s.setFn fn { c with mask := bitAt data 0 }
  else s

/-- A 32-bit write of a place; the aperture is read-only (R495). -/
def State.writePlace (s : State) (fn data : Nat) : BarPlace → State
  | .reg a => s.writeWord a data
  | .msix k => s.writeMsix fn k data
  | .aperture _ => s
  | .nothing => s

/-- Writes of function `fn` at an offset act (R262, R482, R493): in a freeze only the PF's to the DBG block; in a device reset
only those to the GLB block. -/
def State.writeOpen (s : State) (fn off : Nat) : Bool :=
  if s.frozen then fn = 0 && inDbg off
  else if s.inRecovery then false
  else if s.inReset then fn = 0 && decide (off < 0x100000)
  else true

/-- A register write from outside; one with partial byte enables is discarded (R5). -/
def State.hostWriteReg (s : State) (fn off be data : Nat) : State :=
  if !s.powered || be ≠ 15 then s
  else if !s.barUp fn off then s.aer 0
  else if s.writeOpen fn off then s.writePlace fn data (s.place fn off)
  else s

/-- REGISTER_WRITE (R8). -/
def execRegisterWrite (fn : Fin 33) (off : BitVec 26) (be : BitVec 4) (data : Word) (s : State) :
    Host.Outcome State Fault Refusal :=
  .next (s.hostWriteReg fn off.toNat be.toNat data.toNat)

end Sys2Proof.Machine
end

