-- ==== Sys2Proof/Machine/Dispatch.lean ====
section
/-!
DEFINITION. exec: one arm per command, each a direct call of the command's meaning.
-/

namespace Sys2Proof.Machine

/-- The effect of a command on everything but the queue of waiting commands. -/
def exec (i : Instr) (s : State) : Host.Outcome State Fault Refusal :=
  match i with
  | .registerWrite fn off be data => Sys2Proof.Machine.execRegisterWrite fn off be data s
  | .readClear fn off => Sys2Proof.Machine.execReadClear fn off s
  | .latchedRead fn off => Sys2Proof.Machine.execLatchedRead fn off s
  | .fullLoad => Sys2Proof.Machine.execFullLoad s
  | .deltaLoad => Sys2Proof.Machine.execDeltaLoad s
  | .deltaTimeout => Sys2Proof.Machine.execDeltaTimeout s
  | .stopPreempt kind index => Sys2Proof.Machine.execStopPreempt kind index s
  | .stopDrain kind index => Sys2Proof.Machine.execStopDrain kind index s
  | .start kind index => Sys2Proof.Machine.execStart kind index s
  | .functionStopped k => Sys2Proof.Machine.execFunctionStopped k s
  | .functionStarted k => Sys2Proof.Machine.execFunctionStarted k s
  | .claim who feature resource => Sys2Proof.Machine.execClaim who feature resource s
  | .release who feature resource => Sys2Proof.Machine.execRelease who feature resource s
  | .blockDispatch launch => Sys2Proof.Machine.execBlockDispatch launch s
  | .blockPatienceExpiry vat block => Sys2Proof.Machine.execBlockPatienceExpiry vat block s
  | .illegalInstruction vat slot => Sys2Proof.Machine.execIllegalInstruction vat slot s
  | .codeEndOverrun vat slot => Sys2Proof.Machine.execCodeEndOverrun vat slot s
  | .iadd vat slot => Sys2Proof.Machine.execIadd vat slot s
  | .isub vat slot => Sys2Proof.Machine.execIsub vat slot s
  | .imul vat slot => Sys2Proof.Machine.execImul vat slot s
  | .imulhi vat slot => Sys2Proof.Machine.execImulhi vat slot s
  | .imad vat slot => Sys2Proof.Machine.execImad vat slot s
  | .idiv vat slot => Sys2Proof.Machine.execIdiv vat slot s
  | .irem vat slot => Sys2Proof.Machine.execIrem vat slot s
  | .imin vat slot => Sys2Proof.Machine.execImin vat slot s
  | .imax vat slot => Sys2Proof.Machine.execImax vat slot s
  | .iabs vat slot => Sys2Proof.Machine.execIabs vat slot s
  | .ineg vat slot => Sys2Proof.Machine.execIneg vat slot s
  | .bpcAnd vat slot => Sys2Proof.Machine.execBpcAnd vat slot s
  | .bpcOr vat slot => Sys2Proof.Machine.execBpcOr vat slot s
  | .bpcXor vat slot => Sys2Proof.Machine.execBpcXor vat slot s
  | .bpcNot vat slot => Sys2Proof.Machine.execBpcNot vat slot s
  | .shl vat slot => Sys2Proof.Machine.execShl vat slot s
  | .shr vat slot => Sys2Proof.Machine.execShr vat slot s
  | .fext vat slot => Sys2Proof.Machine.execFext vat slot s
  | .fins vat slot => Sys2Proof.Machine.execFins vat slot s
  | .ones vat slot => Sys2Proof.Machine.execOnes vat slot s
  | .clz vat slot => Sys2Proof.Machine.execClz vat slot s
  | .rvrs vat slot => Sys2Proof.Machine.execRvrs vat slot s
  | .isum vat slot => Sys2Proof.Machine.execIsum vat slot s
  | .bdot vat slot => Sys2Proof.Machine.execBdot vat slot s
  | .fadd vat slot => Sys2Proof.Machine.execFadd vat slot s
  | .fsub vat slot => Sys2Proof.Machine.execFsub vat slot s
  | .fmul vat slot => Sys2Proof.Machine.execFmul vat slot s
  | .fma vat slot => Sys2Proof.Machine.execFma vat slot s
  | .fmin vat slot => Sys2Proof.Machine.execFmin vat slot s
  | .fmax vat slot => Sys2Proof.Machine.execFmax vat slot s
  | .frnd vat slot => Sys2Proof.Machine.execFrnd vat slot s
  | .fdiv vat slot => Sys2Proof.Machine.execFdiv vat slot s
  | .frcp vat slot => Sys2Proof.Machine.execFrcp vat slot s
  | .fsqrt vat slot => Sys2Proof.Machine.execFsqrt vat slot s
  | .frsq vat slot => Sys2Proof.Machine.execFrsq vat slot s
  | .fexp2 vat slot => Sys2Proof.Machine.execFexp2 vat slot s
  | .flog2 vat slot => Sys2Proof.Machine.execFlog2 vat slot s
  | .fsin vat slot => Sys2Proof.Machine.execFsin vat slot s
  | .fcos vat slot => Sys2Proof.Machine.execFcos vat slot s
  | .fscale vat slot => Sys2Proof.Machine.execFscale vat slot s
  | .cvt vat slot => Sys2Proof.Machine.execCvt vat slot s
  | .f2f8 vat slot => Sys2Proof.Machine.execF2f8 vat slot s
  | .f82f vat slot => Sys2Proof.Machine.execF82f vat slot s
  | .pk2h vat slot => Sys2Proof.Machine.execPk2h vat slot s
  | .upk2h vat slot => Sys2Proof.Machine.execUpk2h vat slot s
  | .inrw vat slot => Sys2Proof.Machine.execInrw vat slot s
  | .icmpp vat slot => Sys2Proof.Machine.execIcmpp vat slot s
  | .fcmpp vat slot => Sys2Proof.Machine.execFcmpp vat slot s
  | .icmpm vat slot => Sys2Proof.Machine.execIcmpm vat slot s
  | .fcmpm vat slot => Sys2Proof.Machine.execFcmpm vat slot s
  | .sel vat slot => Sys2Proof.Machine.execSel vat slot s
  | .plog vat slot => Sys2Proof.Machine.execPlog vat slot s
  | .fkind vat slot => Sys2Proof.Machine.execFkind vat slot s
  | .mov vat slot => Sys2Proof.Machine.execMov vat slot s
  | .pget vat slot => Sys2Proof.Machine.execPget vat slot s
  | .pset vat slot => Sys2Proof.Machine.execPset vat slot s
  | .pany vat slot => Sys2Proof.Machine.execPany vat slot s
  | .pall vat slot => Sys2Proof.Machine.execPall vat slot s
  | .pmask vat slot => Sys2Proof.Machine.execPmask vat slot s
  | .lget vat slot => Sys2Proof.Machine.execLget vat slot s
  | .lup vat slot => Sys2Proof.Machine.execLup vat slot s
  | .ldown vat slot => Sys2Proof.Machine.execLdown vat slot s
  | .lflip vat slot => Sys2Proof.Machine.execLflip vat slot s
  | .rduni vat slot => Sys2Proof.Machine.execRduni vat slot s
  | .nop vat slot => Sys2Proof.Machine.execNop vat slot s
  | .bra vat slot => Sys2Proof.Machine.execBra vat slot s
  | .jmp vat slot => Sys2Proof.Machine.execJmp vat slot s
  | .call vat slot => Sys2Proof.Machine.execCall vat slot s
  | .ret vat slot => Sys2Proof.Machine.execRet vat slot s
  | .pushm vat slot => Sys2Proof.Machine.execPushm vat slot s
  | .popm vat slot => Sys2Proof.Machine.execPopm vat slot s
  | .join vat slot => Sys2Proof.Machine.execJoin vat slot s
  | .exit vat slot => Sys2Proof.Machine.execExit vat slot s
  | .yield vat slot => Sys2Proof.Machine.execYield vat slot s
  | .discard vat slot => Sys2Proof.Machine.execDiscard vat slot s
  | .savept vat slot => Sys2Proof.Machine.execSavept vat slot s
  | .bwait vat slot => Sys2Proof.Machine.execBwait vat slot s
  | .bpass vat slot => Sys2Proof.Machine.execBpass vat slot s
  | .bred vat slot => Sys2Proof.Machine.execBred vat slot s
  | .ld vat slot => Sys2Proof.Machine.execLd vat slot s
  | .st vat slot => Sys2Proof.Machine.execSt vat slot s
  | .morder vat slot => Sys2Proof.Machine.execMorder vat slot s
  | .prefetch vat slot => Sys2Proof.Machine.execPrefetch vat slot s
  | .l1inv vat slot => Sys2Proof.Machine.execL1inv vat slot s
  | .atomAdd vat slot => Sys2Proof.Machine.execAtomAdd vat slot s
  | .atomAnd vat slot => Sys2Proof.Machine.execAtomAnd vat slot s
  | .atomOr vat slot => Sys2Proof.Machine.execAtomOr vat slot s
  | .atomXor vat slot => Sys2Proof.Machine.execAtomXor vat slot s
  | .atomMin vat slot => Sys2Proof.Machine.execAtomMin vat slot s
  | .atomMax vat slot => Sys2Proof.Machine.execAtomMax vat slot s
  | .atomExch vat slot => Sys2Proof.Machine.execAtomExch vat slot s
  | .atomCas vat slot => Sys2Proof.Machine.execAtomCas vat slot s
  | .atomInc vat slot => Sys2Proof.Machine.execAtomInc vat slot s
  | .atomDec vat slot => Sys2Proof.Machine.execAtomDec vat slot s
  | .atomFadd vat slot => Sys2Proof.Machine.execAtomFadd vat slot s
  | .synSignal vat slot => Sys2Proof.Machine.execSynSignal vat slot s
  | .synAdd vat slot => Sys2Proof.Machine.execSynAdd vat slot s
  | .synWait vat slot => Sys2Proof.Machine.execSynWait vat slot s
  | .synRead vat slot => Sys2Proof.Machine.execSynRead vat slot s
  | .lockAcq vat slot => Sys2Proof.Machine.execLockAcq vat slot s
  | .lockRel vat slot => Sys2Proof.Machine.execLockRel vat slot s
  | .synArrive vat slot => Sys2Proof.Machine.execSynArrive vat slot s
  | .synEvent vat slot => Sys2Proof.Machine.execSynEvent vat slot s
  | .tld vat slot => Sys2Proof.Machine.execTld vat slot s
  | .tmma vat slot => Sys2Proof.Machine.execTmma vat slot s
  | .tst vat slot => Sys2Proof.Machine.execTst vat slot s
  | .tcvt vat slot => Sys2Proof.Machine.execTcvt vat slot s
  | .halloc vat slot => Sys2Proof.Machine.execHalloc vat slot s
  | .hfree vat slot => Sys2Proof.Machine.execHfree vat slot s
  | .trap vat slot => Sys2Proof.Machine.execTrap vat slot s
  | .tret vat slot => Sys2Proof.Machine.execTret vat slot s
  | .tretire vat slot => Sys2Proof.Machine.execTretire vat slot s
  | .tesc vat slot => Sys2Proof.Machine.execTesc vat slot s
  | .accSetGrant vat => Sys2Proof.Machine.execAccSetGrant vat s
  | .tmmaPassStart vat => Sys2Proof.Machine.execTmmaPassStart vat s
  | .tldDataArrival vat => Sys2Proof.Machine.execTldDataArrival vat s
  | .tstSetRead vat => Sys2Proof.Machine.execTstSetRead vat s
  | .binBegin cmd => Sys2Proof.Machine.execBinBegin cmd s
  | .draw cmd => Sys2Proof.Machine.execDraw cmd s
  | .binEnd cmd => Sys2Proof.Machine.execBinEnd cmd s
  | .brokePassSpilled p => Sys2Proof.Machine.execBrokePassSpilled p s
  | .grant fn p size => Sys2Proof.Machine.execGrant fn p size s
  | .deny fn p => Sys2Proof.Machine.execDeny fn p s
  | .growPatienceExpiry p => Sys2Proof.Machine.execGrowPatienceExpiry p s
  | .tileDispatch p => Sys2Proof.Machine.execTileDispatch p s
  | .couchComplete p tile => Sys2Proof.Machine.execCouchComplete p tile s
  | .planeArm fn head plane data => Sys2Proof.Machine.execPlaneArm fn head plane data s
  | .vblankStart head => Sys2Proof.Machine.execVblankStart head s
  | .leadReached head => Sys2Proof.Machine.execLeadReached head s
  | .headTrainingDone head link => Sys2Proof.Machine.execHeadTrainingDone head link s
  | .hpdUnplug head => Sys2Proof.Machine.execHpdUnplug head s
  | .hpdPlug head => Sys2Proof.Machine.execHpdPlug head s
  | .irqHpd head => Sys2Proof.Machine.execIrqHpd head s
  | .scanoutLineFail head plane => Sys2Proof.Machine.execScanoutLineFail head plane s
  | .doorbellWrite fn p q bytes value => Sys2Proof.Machine.execDoorbellWrite fn p q bytes value s
  | .invalidateDoorbell fn p bytes value => Sys2Proof.Machine.execInvalidateDoorbell fn p bytes value s
  | .bar4Read off len => Sys2Proof.Machine.execBar4Read off len s
  | .bar4Write off bytes => Sys2Proof.Machine.execBar4Write off bytes s
  | .bar4Resize size => Sys2Proof.Machine.execBar4Resize size s
  | .hostCompletion req status bytes => Sys2Proof.Machine.execHostCompletion req status bytes s
  | .completionTimeout req => Sys2Proof.Machine.execCompletionTimeout req s
  | .d3hotEntry fn => Sys2Proof.Machine.execD3hotEntry fn s
  | .d0Return fn => Sys2Proof.Machine.execD0Return fn s
  | .busMasterEnable fn => Sys2Proof.Machine.execBusMasterEnable fn s
  | .vfFlr vf => Sys2Proof.Machine.execVfFlr vf s
  | .pfFlr => Sys2Proof.Machine.execPfFlr s
  | .vfEnableClear => Sys2Proof.Machine.execVfEnableClear s
  | .packetIntake p q => Sys2Proof.Machine.execPacketIntake p q s
  | .nopPacket p q => Sys2Proof.Machine.execNopPacket p q s
  | .launch cmd => Sys2Proof.Machine.execLaunch cmd s
  | .gatedLaunch cmd => Sys2Proof.Machine.execGatedLaunch cmd s
  | .graphLaunch cmd => Sys2Proof.Machine.execGraphLaunch cmd s
  | .graphPatchReplace cmd => Sys2Proof.Machine.execGraphPatchReplace cmd s
  | .graphPatchEdit cmd => Sys2Proof.Machine.execGraphPatchEdit cmd s
  | .graphPatchDelete cmd => Sys2Proof.Machine.execGraphPatchDelete cmd s
  | .preload cmd => Sys2Proof.Machine.execPreload cmd s
  | .preloadFill vat => Sys2Proof.Machine.execPreloadFill vat s
  | .decode cmd => Sys2Proof.Machine.execDecode cmd s
  | .bale cmd => Sys2Proof.Machine.execBale cmd s
  | .unbale cmd => Sys2Proof.Machine.execUnbale cmd s
  | .copy cmd => Sys2Proof.Machine.execCopy cmd s
  | .fill cmd => Sys2Proof.Machine.execFill cmd s
  | .signalCmd cmd => Sys2Proof.Machine.execSignalCmd cmd s
  | .waitCmd cmd => Sys2Proof.Machine.execWaitCmd cmd s
  | .eventCmd cmd => Sys2Proof.Machine.execEventCmd cmd s
  | .markCmd cmd => Sys2Proof.Machine.execMarkCmd cmd s
  | .commandComplete id => Sys2Proof.Machine.execCommandComplete id s
  | .queueEnable fn p q size => Sys2Proof.Machine.execQueueEnable fn p q size s
  | .queueDestroy fn p q => Sys2Proof.Machine.execQueueDestroy fn p q s
  | .resume fn p q => Sys2Proof.Machine.execResume fn p q s
  | .parserWatchdog p q => Sys2Proof.Machine.execParserWatchdog p q s
  | .parserFault check => Sys2Proof.Machine.execParserFault check s
  | .hostRequest => Sys2Proof.Machine.execHostRequest s
  | .synCreate fn p type handle => Sys2Proof.Machine.execSynCreate fn p type handle s
  | .synDestroy fn p type handle => Sys2Proof.Machine.execSynDestroy fn p type handle s
  | .synReset fn p type handle => Sys2Proof.Machine.execSynReset fn p type handle s
  | .synExport fn p type handle => Sys2Proof.Machine.execSynExport fn p type handle s
  | .moCreate fn p type handle => Sys2Proof.Machine.execMoCreate fn p type handle s
  | .moImport fn p type handle => Sys2Proof.Machine.execMoImport fn p type handle s
  | .moFree fn p type handle => Sys2Proof.Machine.execMoFree fn p type handle s
  | .moExport fn p type handle => Sys2Proof.Machine.execMoExport fn p type handle s
  | .synValueLowWrite fn obj data => Sys2Proof.Machine.execSynValueLowWrite fn obj data s
  | .synValueHighWrite fn obj low data => Sys2Proof.Machine.execSynValueHighWrite fn obj low data s
  | .waitRegisterRetry wait => Sys2Proof.Machine.execWaitRegisterRetry wait s
  | .waitNotice wait => Sys2Proof.Machine.execWaitNotice wait s
  | .waitTimeout wait => Sys2Proof.Machine.execWaitTimeout wait s
  | .engineStopAck stop engine => Sys2Proof.Machine.execEngineStopAck stop engine s
  | .reclaim fn p => Sys2Proof.Machine.execReclaim fn p s
  | .evqEnable fn t size => Sys2Proof.Machine.execEvqEnable fn t size s
  | .evqDisable fn t => Sys2Proof.Machine.execEvqDisable fn t s
  | .evqReadWrite fn t data => Sys2Proof.Machine.execEvqReadWrite fn t data s
  | .evqMaskWrite fn t data => Sys2Proof.Machine.execEvqMaskWrite fn t data s
  | .overflowRecord t => Sys2Proof.Machine.execOverflowRecord t s
  | .poolGrant => Sys2Proof.Machine.execPoolGrant s
  | .sliceExpiry p => Sys2Proof.Machine.execSliceExpiry p s
  | .blockSaveDone vat block => Sys2Proof.Machine.execBlockSaveDone vat block s
  | .dlEntryEnable entry en => Sys2Proof.Machine.execDlEntryEnable entry en s
  | .dlCheckpoint entry frame => Sys2Proof.Machine.execDlCheckpoint entry frame s
  | .stuffBoxPeriod => Sys2Proof.Machine.execStuffBoxPeriod s
  | .migrationRetry wait => Sys2Proof.Machine.execMigrationRetry wait s
  | .replay fn p entry => Sys2Proof.Machine.execReplay fn p entry s
  | .migFail fn p entry => Sys2Proof.Machine.execMigFail fn p entry s
  | .migrationPatienceExpiry wait => Sys2Proof.Machine.execMigrationPatienceExpiry wait s
  | .invalidateAck p cache => Sys2Proof.Machine.execInvalidateAck p cache s
  | .xltRootWrite fn p word data => Sys2Proof.Machine.execXltRootWrite fn p word data s
  | .l2Access port policy op addr parity => Sys2Proof.Machine.execL2Access port policy op addr parity s
  | .dramReadReturn port part addr dataFlip checkFlip => Sys2Proof.Machine.execDramReadReturn port part addr dataFlip checkFlip s
  | .l2EnableWrite en => Sys2Proof.Machine.execL2EnableWrite en s
  | .scrubStart => Sys2Proof.Machine.execScrubStart s
  | .scrubStop => Sys2Proof.Machine.execScrubStop s
  | .selftest arg => Sys2Proof.Machine.execSelftest arg s
  | .l2flushWb => Sys2Proof.Machine.execL2flushWb s
  | .l2flushInv => Sys2Proof.Machine.execL2flushInv s
  | .l2flushWbinv => Sys2Proof.Machine.execL2flushWbinv s
  | .saveall => Sys2Proof.Machine.execSaveall s
  | .retrain arg => Sys2Proof.Machine.execRetrain arg s
  | .retrainDrift ctrl => Sys2Proof.Machine.execRetrainDrift ctrl s
  | .scrubSector dataFlip checkFlip => Sys2Proof.Machine.execScrubSector dataFlip checkFlip s
  | .maintComplete act target mismatch => Sys2Proof.Machine.execMaintComplete act target mismatch s
  | .plpSlotEnable slot owner => Sys2Proof.Machine.execPlpSlotEnable slot owner s
  | .pictureDone engine => Sys2Proof.Machine.execPictureDone engine s
  | .balerDone => Sys2Proof.Machine.execBalerDone s
  | .trainingComplete port peer wide => Sys2Proof.Machine.execTrainingComplete port peer wide s
  | .trainFail port cause => Sys2Proof.Machine.execTrainFail port cause s
  | .trainRetry port => Sys2Proof.Machine.execTrainRetry port s
  | .flitReceive port flit => Sys2Proof.Machine.execFlitReceive port flit s
  | .ackTimeout port => Sys2Proof.Machine.execAckTimeout port s
  | .linkDown port cause => Sys2Proof.Machine.execLinkDown port cause s
  | .lockLoss port => Sys2Proof.Machine.execLockLoss port s
  | .silenceTimeout port => Sys2Proof.Machine.execSilenceTimeout port s
  | .feltRd port => Sys2Proof.Machine.execFeltRd port s
  | .feltWr port => Sys2Proof.Machine.execFeltWr port s
  | .feltAtom port => Sys2Proof.Machine.execFeltAtom port s
  | .feltSignal port => Sys2Proof.Machine.execFeltSignal port s
  | .feltEvt port => Sys2Proof.Machine.execFeltEvt port s
  | .fwchunk port => Sys2Proof.Machine.execFwchunk port s
  | .cpl port => Sys2Proof.Machine.execCpl port s
  | .token port => Sys2Proof.Machine.execToken port s
  | .measure port => Sys2Proof.Machine.execMeasure port s
  | .membership port => Sys2Proof.Machine.execMembership port s
  | .heartbeat port => Sys2Proof.Machine.execHeartbeat port s
  | .linkChange port => Sys2Proof.Machine.execLinkChange port s
  | .prepare port => Sys2Proof.Machine.execPrepare port s
  | .commit port => Sys2Proof.Machine.execCommit port s
  | .deltaReplay port => Sys2Proof.Machine.execDeltaReplay port s
  | .func port => Sys2Proof.Machine.execFunc port s
  | .root port => Sys2Proof.Machine.execRoot port s
  | .invalidate port => Sys2Proof.Machine.execInvalidate port s
  | .column port => Sys2Proof.Machine.execColumn port s
  | .columnDone port => Sys2Proof.Machine.execColumnDone port s
  | .fwResult port => Sys2Proof.Machine.execFwResult port s
  | .ready port => Sys2Proof.Machine.execReady port s
  | .badSub port => Sys2Proof.Machine.execBadSub port s
  | .heartbeatSend => Sys2Proof.Machine.execHeartbeatSend s
  | .orphaned => Sys2Proof.Machine.execOrphaned s
  | .withdraw value => Sys2Proof.Machine.execWithdraw value s
  | .rediscover => Sys2Proof.Machine.execRediscover s
  | .targetOn who dom => Sys2Proof.Machine.execTargetOn who dom s
  | .targetRet who dom => Sys2Proof.Machine.execTargetRet who dom s
  | .targetOff who dom => Sys2Proof.Machine.execTargetOff who dom s
  | .domainIdleExpiry dom => Sys2Proof.Machine.execDomainIdleExpiry dom s
  | .domainEntryDone dom => Sys2Proof.Machine.execDomainEntryDone dom s
  | .domainWake dom => Sys2Proof.Machine.execDomainWake dom s
  | .domainExitDone dom => Sys2Proof.Machine.execDomainExitDone dom s
  | .dvfsWrite rail vop fop => Sys2Proof.Machine.execDvfsWrite rail vop fop s
  | .avsReadback rail => Sys2Proof.Machine.execAvsReadback rail s
  | .avsTimeout rail => Sys2Proof.Machine.execAvsTimeout rail s
  | .limiterBin power temp sensor currentLow => Sys2Proof.Machine.execLimiterBin power temp sensor currentLow s
  | .currentTrip => Sys2Proof.Machine.execCurrentTrip s
  | .thermalTrip temp sensor => Sys2Proof.Machine.execThermalTrip temp sensor s
  | .wearHour => Sys2Proof.Machine.execWearHour s
  | .vrHot low => Sys2Proof.Machine.execVrHot low s
  | .pwrBrake low => Sys2Proof.Machine.execPwrBrake low s
  | .bootStart dramOk => Sys2Proof.Machine.execBootStart dramOk s
  | .mgcWatchdog => Sys2Proof.Machine.execMgcWatchdog s
  | .mgcException => Sys2Proof.Machine.execMgcException s
  | .finalise => Sys2Proof.Machine.execFinalise s
  | .fwStage => Sys2Proof.Machine.execFwStage s
  | .fwCommit => Sys2Proof.Machine.execFwCommit s
  | .fwRevert => Sys2Proof.Machine.execFwRevert s
  | .attest => Sys2Proof.Machine.execAttest s
  | .identity => Sys2Proof.Machine.execIdentity s
  | .furnishWrite => Sys2Proof.Machine.execFurnishWrite s
  | .svcStatus => Sys2Proof.Machine.execSvcStatus s
  | .readLog n => Sys2Proof.Machine.execReadLog n s
  | .svcWrite off bytes => Sys2Proof.Machine.execSvcWrite off bytes s
  | .svcGo option => Sys2Proof.Machine.execSvcGo option s
  | .clear => Sys2Proof.Machine.execClear s
  | .freezeNFall => Sys2Proof.Machine.execFreezeNFall s
  | .dbgFreezeGo key => Sys2Proof.Machine.execDbgFreezeGo key s
  | .apertureRead off bytes => Sys2Proof.Machine.execApertureRead off bytes s
  | .extest scan => Sys2Proof.Machine.execExtest scan s
  | .samplePreload scan => Sys2Proof.Machine.execSamplePreload scan s
  | .idcode => Sys2Proof.Machine.execIdcode s
  | .apAddr addr => Sys2Proof.Machine.execApAddr addr s
  | .apDataCapture => Sys2Proof.Machine.execApDataCapture s
  | .apDataUpdate data => Sys2Proof.Machine.execApDataUpdate data s
  | .bypass => Sys2Proof.Machine.execBypass s
  | .coldReset => Sys2Proof.Machine.execColdReset s
  | .pwrokRise straps => Sys2Proof.Machine.execPwrokRise straps s
  | .warmReset pin => Sys2Proof.Machine.execWarmReset pin s
  | .warmResetEnd straps => Sys2Proof.Machine.execWarmResetEnd straps s
  | .railUndervoltage rail => Sys2Proof.Machine.execRailUndervoltage rail s
  | .smbTemp => Sys2Proof.Machine.execSmbTemp s
  | .smbAvg => Sys2Proof.Machine.execSmbAvg s
  | .smbPwrStatus => Sys2Proof.Machine.execSmbPwrStatus s
  | .smbBootStatus => Sys2Proof.Machine.execSmbBootStatus s
  | .smbDevresetStatus => Sys2Proof.Machine.execSmbDevresetStatus s
  | .smbDeviceId => Sys2Proof.Machine.execSmbDeviceId s
  | .smbCardId => Sys2Proof.Machine.execSmbCardId s
  | .smbFwver => Sys2Proof.Machine.execSmbFwver s
  | .smbUnknown write code => Sys2Proof.Machine.execSmbUnknown write code s
  | .alertResponse => Sys2Proof.Machine.execAlertResponse s
  | .hostWdogExpiry => Sys2Proof.Machine.execHostWdogExpiry s
  | .glbZt2Write value => Sys2Proof.Machine.execGlbZt2Write value s
  | .msixVectorUnmask fn => Sys2Proof.Machine.execMsixVectorUnmask fn s
  | .hostWdogPulseEnd => Sys2Proof.Machine.execHostWdogPulseEnd s
  | .testLogicReset => Sys2Proof.Machine.execTestLogicReset s
  | .pcieLinkUp speed width => Sys2Proof.Machine.execPcieLinkUp speed width s

end Sys2Proof.Machine
end

