-- ==== Sys2Proof/Safety.lean ====
section
/-!
DEFINITION. What counts as a safe run: the block never stops, since every event of the spec has an effect or none, and
what the spec refuses it reports in a register, a record or a status.
-/

namespace Sys2Proof.Machine

/-- A step that answers a next state. -/
def Advances (s : State) : Prop := ∃ t, step s = .next t

/-- Every memory of the state has its canonical form. -/
def MemoriesWf (s : State) : Prop :=
  Mem.wf 0 s.mem.dram = true ∧ Mem.wf 0 s.mem.host = true ∧ Mem.wf 0 s.mem.trace = true ∧
    Mem.wf 0xFF s.mgc.flash = true ∧ Mem.wf 0 s.mgc.download = true

end Sys2Proof.Machine
end

