-- ==== Sys2Proof/Certificates/Slice0/Obligations.lean ====
section
/-!
DEFINITION. The statements for the provers. Each says what a command does in terms of the registers, queues, memories
and units that the spec's rules name; the helpers of `Sys2Proof.Claims` say what is left unchanged.
-/

namespace Sys2Proof.Claims

open Sys2Proof.Machine

/-- Every register element outside the list reads as before (array indices lie below 65,536). -/
def RegsKept (s t : State) (l : List (Field × Nat × Nat)) : Prop :=
  ∀ (f : Field) (i j : Nat), i < 65536 → j < 65536 → (f, i, j) ∉ l → t.rd f i j = s.rd f i j

/-- Nothing but the listed register elements changes. -/
def OnlyRegs (s t : State) (l : List (Field × Nat × Nat)) : Prop :=
  RegsKept s t l ∧ t = { s with regs := t.regs }

/-- Every byte of the host's memory is as before but for `bs`, which stands at `a`. -/
def HostHolds (s t : State) (a : Nat) (bs : List Byte) : Prop :=
  ∀ x, memByte 0 t.mem.host x = if a ≤ x ∧ x < a + bs.length then bs.getD (x - a) 0 else memByte 0 s.mem.host x

/-- A command of class OK: it is handed off and its engine has reached OK. -/
def HandedOk (t : State) (c : Cmd) : Prop := t.cmd c.id = some { c with phase := .handed, result := some stOk }

/-- The queue's command at the parser's head is `c`, of opcode `op`, with no status yet. -/
def AtHead (s : State) (p : Fin 32) (q : Fin 16) (op : Nat) (c : Cmd) : Prop :=
  s.live = true ∧ s.headCmd p q (fun c => c.op = op) = some c ∧ s.cmd c.id = some c ∧ c.result = none

end Sys2Proof.Claims

open Sys2Proof Sys2Proof.Machine Sys2Proof.Claims

/-! ### Steps, reset, and what holds of every command -/

/-- A step takes the command at the front of the queue and runs it on the state with the queue's rest. -/
def Obligations.StepRunsTheFrontCommand : Prop :=
  ∀ (c : Instr) (rest : List Instr) (s : State),
    step { s with pending := c :: rest } = exec c { s with pending := rest }

/-- With no command waiting the block idles (the model's choice, log entry 1). -/
def Obligations.StepIdlesOnAnEmptyQueue : Prop :=
  ∀ s : State, s.pending = [] → step s = .next s

/-- What reset leaves: nothing queued, resident or outstanding, memories empty, the null furnish from source 3, ports down,
no freeze, every VAT domain OFF and the FAB rail at its point 2. -/
def Obligations.ResetLeavesNothingRunning : Prop :=
  State.reset.pending = [] ∧ State.reset.vats = [] ∧ State.reset.launches = [] ∧ State.reset.hb = {} ∧
  State.reset.mem.dram = [] ∧ State.reset.mem.l2 = [] ∧ State.reset.live = true ∧
  State.reset.rd .GLB_FURNISH_STATUS_NULL = 1 ∧ State.reset.rd .GLB_FURNISH_STATUS_SOURCE = 3 ∧
  State.reset.rd .DBG_FREEZE_STATUS_STATE = 0 ∧ State.reset.rd .FLT_PORT_STATE 0 = 0 ∧ State.reset.rd .FLT_PORT_STATE 1 = 0 ∧
  State.reset.rd .PWR_DVFS_VOP 2 = 2 ∧ State.reset.rd .PWR_DVFS_FOP 2 = 2 ∧
  ∀ n : Fin 64, State.reset.rd .PWR_DOM_STATE_STATE n = 3

/-- At reset every memory has its canonical form. -/
def Obligations.ResetMemoriesAreCanonical : Prop := MemoriesWf State.reset

/-- Every step keeps every memory in its canonical form, whatever command runs and whatever the state. -/
def Obligations.EveryStepKeepsMemoriesCanonical : Prop :=
  ∀ s t : State, MemoriesWf s → step s = .next t → MemoriesWf t

/-- No command touches the queue of waiting commands: a step only takes its front. -/
def Obligations.NoCommandChangesTheQueue : Prop :=
  ∀ (c : Instr) (s t : State), exec c s = .next t → t.pending = s.pending

/-- The board never changes under the chip, and fuses are only ever burnt: whatever step runs, the installed DRAM, the grade,
the keys and the identity stay, the security version never falls and a worn peak stays worn. -/
def Obligations.FusesAreOnlyBurnt : Prop :=
  ∀ s t : State, step s = .next t →
    t.pins.dram = s.pins.dram ∧ t.pins.gradeB = s.pins.gradeB ∧
    t.mgc.fuses.productKey = s.mgc.fuses.productKey ∧ t.mgc.fuses.settingsKey = s.mgc.fuses.settingsKey ∧
    t.mgc.fuses.imgKeys = s.mgc.fuses.imgKeys ∧ t.mgc.fuses.fnsKeys = s.mgc.fuses.fnsKeys ∧
    t.mgc.fuses.deviceId = s.mgc.fuses.deviceId ∧ t.mgc.fuses.identity = s.mgc.fuses.identity ∧
    s.mgc.fuses.svn ≤ t.mgc.fuses.svn ∧ (s.mgc.fuses.peakWorn = true → t.mgc.fuses.peakWorn = true)

/-- A command that needs a running clock: all but those of the pins, of PCIe, of JTAG and SMBus, of the resets, of the limiters
(which run on ZCLK), and the register accesses, which a freeze lets through in part. -/
def Sys2Proof.Claims.Clocked : Instr → Bool
  | .smbTemp | .smbAvg | .smbPwrStatus | .smbBootStatus | .smbDevresetStatus | .smbDeviceId | .smbCardId | .smbFwver
  | .smbUnknown _ _ | .alertResponse | .hostWdogExpiry | .hostWdogPulseEnd | .freezeNFall | .dbgFreezeGo _
  | .apertureRead _ _ | .extest _ | .samplePreload _ | .idcode | .apAddr _ | .apDataCapture | .apDataUpdate _ | .bypass
  | .testLogicReset | .hostRequest | .pfFlr | .coldReset | .pwrokRise _ | .warmReset _ | .warmResetEnd _
  | .railUndervoltage _ | .registerWrite _ _ _ _ | .readClear _ _ | .latchedRead _ _ | .bar4Resize _ | .d3hotEntry _
  | .d0Return _ | .busMasterEnable _ | .vfFlr _ | .vfEnableClear | .msixVectorUnmask _ | .pcieLinkUp _ _
  | .limiterBin _ _ _ _ | .currentTrip | .thermalTrip _ _ | .vrHot _ | .pwrBrake _ => false
  | _ => true

/-- In a freeze and while a reset is held no clock runs: every other command leaves the chip as it is. -/
def Obligations.NothingRunsWithoutAClock : Prop :=
  ∀ (c : Instr) (s : State), Clocked c = true → s.live = false → exec c s = .next s

/-! ### Event queues -/

/-- Setting EVQ_CTRL.EN with a SIZE of 6 to 16 clears both indices and the drop count and enables the queue; another SIZE
leaves EN at 0. -/
def Sys2Proof.Claims.EventQueueEnables : Prop :=
  ∀ (s : State) (fn : Fin 33) (t : Fin 34) (size : BitVec 5),
    s.targetWrite fn t = true → s.rd .EVQ_CTRL_EN t = 0 →
    (6 ≤ size.toNat → size.toNat ≤ 16 → s.pwr.tripOwed = none →
      ∃ u, exec (.evqEnable fn t size) s = .next u ∧ u.rd .EVQ_CTRL_EN t = 1 ∧ u.rd .EVQ_CTRL_SIZE t = size.toNat ∧
        u.rd .EVQ_WRITE_INDEX t = 0 ∧ u.rd .EVQ_READ_INDEX t = 0 ∧ u.rd .EVQ_DROPPED_COUNT t = 0 ∧
        u.rd .EVQ_CTRL_OVF t = 0 ∧ storeFind u.owed t = none ∧
        (∀ k, k ≠ t.val → storeFind u.owed k = storeFind s.owed k) ∧
        RegsKept s u [(.EVQ_CTRL_EN, t, 0), (.EVQ_CTRL_SIZE, t, 0), (.EVQ_WRITE_INDEX, t, 0), (.EVQ_READ_INDEX, t, 0),
          (.EVQ_DROPPED_COUNT, t, 0), (.EVQ_CTRL_OVF, t, 0)] ∧
        u = { s with regs := u.regs, owed := u.owed }) ∧
    (size.toNat < 6 ∨ 16 < size.toNat →
      ∃ u, exec (.evqEnable fn t size) s = .next u ∧ u.rd .EVQ_CTRL_EN t = 0 ∧ OnlyRegs s u [(.EVQ_CTRL_SIZE, t, 0)])

/-- Clearing EN discards an owed OVERFLOW record; a write of EVQ_READ frees slots, is ignored when it would leave more
records than the queue holds, and sends the interrupt message again while records remain; EVQ_MASK takes bits 19 to 1. -/
def Sys2Proof.Claims.EventQueueIsConsumedAndMasked : Prop :=
  ∀ (s : State) (fn : Fin 33) (t : Fin 34) (data : Word), s.targetWrite fn t = true →
    (∃ u, exec (.evqDisable fn t) s = .next u ∧ u.rd .EVQ_CTRL_EN t = 0 ∧ storeFind u.owed t = none ∧
      RegsKept s u [(.EVQ_CTRL_EN, t, 0)] ∧ u = { s with regs := u.regs, owed := u.owed }) ∧
    (2 ^ s.rd .EVQ_CTRL_SIZE t < sub32 (s.rd .EVQ_WRITE_INDEX t) data.toNat → exec (.evqReadWrite fn t data) s = .next s) ∧
    (sub32 (s.rd .EVQ_WRITE_INDEX t) data.toNat ≤ 2 ^ s.rd .EVQ_CTRL_SIZE t →
      ∃ u, exec (.evqReadWrite fn t data) s = .next u ∧ u.rd .EVQ_READ_INDEX t = data.toNat ∧
        RegsKept s u [(.EVQ_READ_INDEX, t, 0)] ∧ u = { s with regs := u.regs, sent := u.sent, pcie := u.pcie } ∧
        (s.rd .EVQ_CTRL_EN t = 1 → s.rd .EVQ_WRITE_INDEX t ≠ data.toNat → t.val ≠ 33 →
          (s.fnCfg (fnOfTarget t)).sends = true → (s.fnCfg (fnOfTarget t)).mask = false →
          u.sent = fnOfTarget t :: s.sent)) ∧
    (s.rd .EVQ_PEND_PEND t = 0 →
      ∃ u, exec (.evqMaskWrite fn t data) s = .next u ∧ u.rd .EVQ_MASK_MASK t = data.toNat / 2 % 2 ^ 19 ∧
        OnlyRegs s u [(.EVQ_MASK_MASK, t, 0)])

/-- An owed OVERFLOW record goes out when a slot of the enabled queue is writable: 32 bytes at the queue's write index, with
the kind and sequence number of the first dropped record and the drop count; the write index moves on by one. -/
def Sys2Proof.Claims.OwedOverflowRecordIsWritten : Prop :=
  ∀ (s : State) (t : Fin 34) (o : Owed), s.live = true → storeFind s.owed t = some o → s.rd .EVQ_CTRL_EN t = 1 →
    s.evqWritable t = true → t.val < 33 →
    ∃ u, exec (.overflowRecord t) s = .next u ∧ u.rd .EVQ_WRITE_INDEX t = (s.rd .EVQ_WRITE_INDEX t + 1) % 2 ^ 32 ∧
      storeFind u.owed t = none ∧
      HostHolds s u (s.addrOf .EVQ_BASE_ADDR t + 32 * (s.rd .EVQ_WRITE_INDEX t % 2 ^ s.rd .EVQ_CTRL_SIZE t))
        (evRecord 0x0B (128 * b2n (bitAt (s.rd .EVQ_WRITE_INDEX t) (s.rd .EVQ_CTRL_SIZE t))) 0
          ((s.rd .EVQ_WRITE_INDEX t + s.rd .EVQ_DROPPED_COUNT t) % 2 ^ 32) 0 o.kind (s.rd .EVQ_DROPPED_COUNT t) o.seq) ∧
      u.mem.dram = s.mem.dram ∧ RegsKept s u [(.EVQ_WRITE_INDEX, t, 0)] ∧
      u = { s with regs := u.regs, mem := u.mem, owed := u.owed, sent := u.sent, pcie := u.pcie }

/-- The event queues: enabling, consuming, masking and the owed overflow record. -/
def Obligations.EventQueuesAct : Prop := EventQueueEnables ∧ EventQueueIsConsumedAndMasked ∧ OwedOverflowRecordIsWritten

/-! ### Queues, intake, commands of the sync unit -/

/-- Setting HB_Q_CTRL.EN with a SIZE of 7 to 20 starts the queue at index 0 with its doorbell and DONE at 0 and clears the
partition's intake fault; RESUME clears HALTED; an allowed doorbell write sets the doorbell. -/
def Sys2Proof.Claims.QueueEnableResumeAndDoorbell : Prop :=
  ∀ (s : State) (fn : Fin 33) (p : Fin 32) (q : Fin 16) (size : BitVec 5) (value : Word),
    (s.mayWrite fn p = true → s.rd .HB_Q_CTRL_EN p q = 0 → s.rd .HB_Q_CTRL_DESTROYING p q = 0 → 7 ≤ size.toNat →
      size.toNat ≤ 20 →
      ∃ u, exec (.queueEnable fn p q size) s = .next u ∧ u.rd .HB_Q_CTRL_EN p q = 1 ∧
        u.rd .HB_Q_CTRL_SIZE p q = size.toNat ∧ u.rd .HB_Q_READ_INDEX p q = 0 ∧ u.rd .HB_Q_DONE_INDEX p q = 0 ∧
        u.bell p q = 0 ∧ u.rd .HB_PART_FAULT_STATUS p = 0 ∧
        RegsKept s u [(.HB_Q_CTRL_EN, p, q), (.HB_Q_CTRL_SIZE, p, q), (.HB_Q_READ_INDEX, p, q), (.HB_Q_DONE_INDEX, p, q),
          (.HB_PART_FAULT_STATUS, p, 0)] ∧
        u = { s with regs := u.regs, hb := { s.hb with bells := u.hb.bells } }) ∧
    (s.mayWrite fn p = true →
      ∃ u, exec (.resume fn p q) s = .next u ∧ u.rd .HB_Q_CTRL_HALTED p q = 0 ∧ OnlyRegs s u [(.HB_Q_CTRL_HALTED, p, q)]) ∧
    (s.bellOk fn p = true →
      ∃ u, exec (.doorbellWrite fn p q 4 value) s = .next u ∧ u.bell p q = value.toNat ∧
        (∀ k, k ≠ p.val * 16 + q.val → storeGet 0 u.hb.bells k = storeGet 0 s.hb.bells k) ∧
        u = { s with hb := { s.hb with bells := u.hb.bells } })

/-- A queue of a partition that holds no work is destroyed at once: EN and DESTROYING are 0, and the DESTROYED kind is
pending at the driver's target. -/
def Sys2Proof.Claims.IdleQueueIsDestroyed : Prop :=
  ∀ (s : State) (fn : Fin 33) (p : Fin 32) (q : Fin 16),
    s.mayWrite fn p = true → s.homed p = true → s.spanning p = false → s.rd .HB_Q_CTRL_EN p q = 1 → s.hb.queues = [] →
    s.hb.runs = [] → s.hb.releases = [] → s.launches = [] → s.geo.passes = [] →
    (∀ h, h < 16384 → s.rd .SYN_OBJ_TYPE h ≠ 1) → s.rd .EVQ_CTRL_EN (s.driverTarget p) = 0 →
    ∃ u, exec (.queueDestroy fn p q) s = .next u ∧ u.rd .HB_Q_CTRL_EN p q = 0 ∧ u.rd .HB_Q_CTRL_DESTROYING p q = 0 ∧
      kindBit (u.rd .EVQ_PEND_PEND (s.driverTarget p)) 4 = true ∧ u.mem = s.mem ∧
      RegsKept s u [(.HB_Q_CTRL_EN, p, q), (.HB_Q_CTRL_DESTROYING, p, q), (.EVQ_PEND_PEND, s.driverTarget p, 0)]

/-- A packet that passes intake becomes the newest command of its queue and its slots leave the ring; a NOP is complete at
once, so on an idle queue DONE counts its slots too. -/
def Obligations.PacketBecomesACommand : Prop :=
  ∀ (s s1 : State) (p : Fin 32) (q : Fin 16) (ws : List Word) (n : Nat),
    s.live = true → s.takesIn p q = true → s.fetchPacket p q = (s1, .packet ws n) →
    ((ws.headD 0).toNat % 256 ≠ 0 →
      ∃ u, exec (.packetIntake p q) s = .next u ∧
        u.queue p q = s1.queue p q ++ [
          { id := s1.nextId, p := p, q := q
            op := (ws.headD 0).toNat % 256
            flags := (ws.headD 0).toNat / 2 ^ 20 % 4096
            words := ws, slot := s1.rd .HB_Q_READ_INDEX p q, slots := n, phase := .fetched }] ∧
        u.rd .HB_Q_READ_INDEX p q = (s1.rd .HB_Q_READ_INDEX p q + n) % 2 ^ 32 ∧
        RegsKept s1 u [(.HB_Q_READ_INDEX, p, q)] ∧ u = { s1 with regs := u.regs, hb := u.hb, nextId := s1.nextId + 1 }) ∧
    ((ws.headD 0).toNat % 256 = 0 → s1.queue p q = [] → s1.hb.releases = [] →
      ∃ u, exec (.nopPacket p q) s = .next u ∧ u.queue p q = [] ∧
        u.rd .HB_Q_READ_INDEX p q = (s1.rd .HB_Q_READ_INDEX p q + n) % 2 ^ 32 ∧
        u.rd .HB_Q_DONE_INDEX p q = (s1.rd .HB_Q_DONE_INDEX p q + n) % 2 ^ 32 ∧
        RegsKept s1 u [(.HB_Q_READ_INDEX, p, q), (.HB_Q_DONE_INDEX, p, q)])

/-- MARK writes HB_Q_MARK; SIGNAL raises a fence of its partition to the greater value; EVENT posts the USER kind; a WAIT
whose threshold is reached is satisfied, and one whose threshold is not waits with a number of its own. -/
def Obligations.SyncUnitCommandsAct : Prop :=
  ∀ (s : State) (p : Fin 32) (q : Fin 16) (c : Cmd),
    (AtHead s p q 0x43 c →
      ∃ u, exec (.markCmd (.queue p q)) s = .next u ∧ u.rd .HB_Q_MARK_VALUE c.p c.q = c.dword 1 ∧ HandedOk u c ∧
        RegsKept s u [(.HB_Q_MARK_VALUE, c.p, c.q)] ∧ u = { s with regs := u.regs, hb := u.hb }) ∧
    (AtHead s p q 0x40 c → s.synMay c.p 0x40 (c.word 1 % 16384) = true → s.rd .CAL_PLANE_CTRL_ARM 0 0 = 0 →
      s.rd .CAL_PLANE_CTRL_ARM 1 0 = 0 →
      ∃ u, exec (.signalCmd (.queue p q)) s = .next u ∧
        u.rd .SYN_OBJ_VALUE (c.word 1 % 16384) = max (s.rd .SYN_OBJ_VALUE (c.word 1 % 16384)) (c.dword 2) % 2 ^ 64 ∧
        HandedOk u c ∧ RegsKept s u [(.SYN_OBJ_VALUE, c.word 1 % 16384, 0)] ∧
        u = { s with regs := u.regs, hb := u.hb, sync := u.sync }) ∧
    (AtHead s p q 0x42 c → c.p < 32 → s.homed c.p = true →
      ∃ u, exec (.eventCmd (.queue p q)) s = .next u ∧ kindBit (u.rd .EVQ_PEND_PEND (s.driverTarget c.p)) 2 = true ∧
        HandedOk u c ∧ u.mem.dram = s.mem.dram) ∧
    (AtHead s p q 0x41 c → s.synMay c.p 0x41 (c.word 1 % 16384) = true →
      (c.dword 2 ≤ s.rd .SYN_OBJ_VALUE (c.word 1 % 16384) →
        ∃ u, exec (.waitCmd (.queue p q)) s = .next u ∧ HandedOk u c ∧ u = { s with hb := u.hb }) ∧
      (s.rd .SYN_OBJ_VALUE (c.word 1 % 16384) < c.dword 2 → s.rd .SYN_OBJ_STATE (c.word 1 % 16384) = 0 →
        ∃ u, exec (.waitCmd (.queue p q)) s = .next u ∧ u.cmd c.id = some { c with phase := .handed } ∧
          (∃ w ∈ u.sync.waits, w.id = s.nextId ∧ w.obj = c.word 1 % 16384 ∧ w.threshold = c.dword 2 ∧
            w.timeout = c.word 4 ∧ w.who = .cmd c.id ∧ w.notice = none) ∧ u.regs = s.regs ∧ u.mem = s.mem))

/-- A command whose engine has reached a status completes: alone in its queue, its slots count in DONE; a status that is
not of class OK is the queue's first error, with the command's slot. -/
def Obligations.CommandCompletes : Prop :=
  ∀ (s : State) (c : Cmd) (st : Nat), s.live = true → s.cmd c.id = some c → c.phase = .handed → c.result = some st →
    c.op ≠ 0x41 → c.op ≠ 0x03 → c.node = none → s.queue c.p c.q = [c] → s.hb.releases = [] →
    (statusOk st = true →
      ∃ u, exec (.commandComplete c.id) s = .next u ∧ u.queue c.p c.q = [] ∧
        u.rd .HB_Q_DONE_INDEX c.p c.q = (s.rd .HB_Q_DONE_INDEX c.p c.q + c.slots) % 2 ^ 32 ∧
        RegsKept s u [(.HB_Q_DONE_INDEX, c.p, c.q)] ∧ u.mem = s.mem) ∧
    (statusOk st = false → st < 2 ^ 32 → c.quiet = true → s.rd .HB_Q_ERR_STATUS c.p c.q = 0 →
      ∃ u, exec (.commandComplete c.id) s = .next u ∧ u.queue c.p c.q = [] ∧ u.rd .HB_Q_ERR_STATUS c.p c.q = st ∧
        u.rd .HB_Q_ERR_AT_SLOT c.p c.q = c.slot % 2 ^ 24 ∧ u.mem = s.mem ∧
        RegsKept s u [(.HB_Q_DONE_INDEX, c.p, c.q), (.HB_Q_ERR_STATUS, c.p, c.q), (.HB_Q_ERR_AT_SLOT, c.p, c.q)])

/-- Queues are enabled, rung and destroyed. -/
def Obligations.QueuesStartRingAndEnd : Prop := QueueEnableResumeAndDoorbell ∧ IdleQueueIsDestroyed

/-! ### Launches, copies, graphs -/

/-- A LAUNCH whose descriptor can be read and is accepted is handed to the vats as a launch of its own number; one that is
refused completes with the refusal; a PRELOAD of an accepted descriptor fills the empty preload slots its partition may use. -/
def Sys2Proof.Claims.LaunchAndPreloadAreHanded : Prop :=
  ∀ (s s1 : State) (p : Fin 32) (q : Fin 16) (c : Cmd) (l : Launch) (st : Nat),
    s1.cmd c.id = some c → c.node = none →
    (AtHead s p q 0x01 c → ({ s with nextId := s.nextId + 1 }).readLaunch c.p (.cmd c.id) (c.dword 1) s.nextId (.compute c.id) =
        (s1, .ok l) → s1.spanning l.p = false →
      ∃ u, exec (.launch (.queue p q)) s = .next u ∧ u.cmd c.id = some { c with phase := .handed } ∧
        u.launch l.id = some l ∧ u.mem = s1.mem) ∧
    (AtHead s p q 0x01 c → ({ s with nextId := s.nextId + 1 }).readLaunch c.p (.cmd c.id) (c.dword 1) s.nextId (.compute c.id) =
        (s1, .refused st) →
      ∃ u, exec (.launch (.queue p q)) s = .next u ∧ u.cmd c.id = some { c with phase := .handed, result := some st } ∧
        u = { s1 with hb := u.hb }) ∧
    (AtHead s p q 0x05 c → ({ s with nextId := s.nextId + 1 }).readLaunch c.p (.cmd c.id) (c.dword 1) s.nextId (.compute c.id) =
        (s1, .ok l) → s1.hb.releases = [] →
      ∃ u, exec (.preload (.queue p q)) s = .next u ∧
        ∀ n, n < 64 → s1.mayUse c.p n = true → (s1.vat n).preload = none → (u.vat n).preload = some s.nextId)

/-- A vat whose preload slot is empty takes the oldest launch that still has blocks for its partition; a dispatched block of
a compute launch becomes resident on the vat with room, its quires at the module's entry with their threads active, and the
launch counts it. -/
def Sys2Proof.Claims.BlocksReachTheVats : Prop :=
  ∀ (s s1 : State) (vat : Fin 64) (r l : Launch) (id c v : Nat) (scheds : List Nat),
    (s.live = true → (s.resident vat).head? = some r → (s.vat vat).preload = none →
      s.launches.find? (fun e => e.2.p = r.p && decide (e.2.next < e.2.total) && s.mayUse r.p vat &&
        !(s.vat vat).preempt.contains r.p && !(s.vat vat).blocks.any (fun b => b.2.launch = e.1)) = some (id, l) →
      ∃ u, exec (.preloadFill vat) s = .next u ∧ (u.vat vat).preload = some id) ∧
    (s.live = true → s.launch id = some l → l.use = .compute c → s.partRuns l.p = true → s.launchStands l = true →
      s.spanning l.p = false → s.sched.saved = [] → l.next < l.total → s.findRoom l (fun _ => true) = some (v, scheds) →
      s.footprints (vatAsker v l.p) (.launch id) l.p (s.dispatchRanges l []) = (s1, .ok ()) → s1.vat v = {} →
      ∃ u, exec (.blockDispatch id) s = .next u ∧ u.launch id = some { l with next := l.next + 1 } ∧
        (∃ b, u.block v 0 = some b ∧ b.launch = id ∧ b.index = l.blockIndex l.next ∧ b.arrived = [] ∧ b.loc = []) ∧
        (∀ i, i < l.quires → i < 64 → ∃ x, u.quire v i = some x ∧ x.block = 0 ∧ x.idx = i ∧ x.pc = l.mod.entry ∧
          x.active = BitVec.ofNat 32 (threadMask (l.blockThreads (l.blockIndex l.next)) i) ∧ x.wait = .run ∧ x.stack = []) ∧
        u.mem = s1.mem)

/-- A COPY or FILL of no bytes is OK; overlapping ranges end with OVERLAP; bytes of one page are read through the source's
translation, written through the destination's, and then the command is OK. -/
def Obligations.CopyAndFillMoveBytes : Prop :=
  ∀ (s s1 s2 s3 : State) (p : Fin 32) (q : Fin 16) (c : Cmd) (bs : List Byte),
    (AtHead s p q 0x30 c → c.dword 5 = 0 →
      ∃ u, exec (.copy (.queue p q)) s = .next u ∧ HandedOk u c ∧ u = { s with hb := u.hb }) ∧
    (AtHead s p q 0x30 c → c.dword 5 ≠ 0 → c.dword 1 < c.dword 3 + c.dword 5 → c.dword 3 < c.dword 1 + c.dword 5 →
      ∃ u, exec (.copy (.queue p q)) s = .next u ∧
        u.cmd c.id = some { c with phase := .handed, result := some (stCmd 0x27 0) } ∧ u = { s with hb := u.hb }) ∧
    (AtHead s p q 0x30 c → c.phase = .fetched → c.progress = 0 → c.dword 5 ≠ 0 →
      (c.dword 3 + c.dword 5 ≤ c.dword 1 ∨ c.dword 1 + c.dword 5 ≤ c.dword 3) →
      c.dword 1 % 4096 + c.dword 5 ≤ 4096 → c.dword 3 % 4096 + c.dword 5 ≤ 4096 →
      ((s.hand c.id).modCmd c.id (fun c => { c with progress := 0 })).footprints (copyAsker c.p) (.cmd c.id) c.p
        (sortRanges [(c.dword 1, c.dword 5, rightR), (c.dword 3, c.dword 5, rightW)]) = (s1, .ok ()) →
      s1.vRead (copyAsker c.p) (.cmd c.id) c.p (c.dword 1) (c.dword 5) = (s2, .ok bs) →
      s2.vWrite (copyAsker c.p) (.cmd c.id) c.p (c.dword 3) bs = (s3, .ok ()) →
      s3.ring.reqs.any (fun r => r.owner = .cmd c.id) = false → s3.cmd c.id = some { c with phase := .handed } →
      ∃ u, exec (.copy (.queue p q)) s = .next u ∧
        u.cmd c.id = some { c with phase := .handed, progress := c.dword 5, result := some stOk } ∧ u = { s3 with hb := u.hb }) ∧
    (AtHead s p q 0x31 c → c.dword 3 = 0 →
      ∃ u, exec (.fill (.queue p q)) s = .next u ∧ HandedOk u c ∧ u = { s with hb := u.hb }) ∧
    (AtHead s p q 0x31 c → c.phase = .fetched → c.progress = 0 → c.dword 3 ≠ 0 → c.dword 1 % 4096 + c.dword 3 ≤ 4096 →
      ((s.hand c.id).modCmd c.id (fun c => { c with progress := 0 })).footprints (copyAsker c.p) (.cmd c.id) c.p
        (sortRanges [(c.dword 1, c.dword 3, rightW)]) = (s1, .ok ()) →
      s1.vWrite (copyAsker c.p) (.cmd c.id) c.p (c.dword 1)
        ((List.range (c.dword 3)).map (fun i => BitVec.ofNat 8 (c.word 5 / 2 ^ (8 * (i % 4))))) = (s3, .ok ()) →
      s3.ring.reqs.any (fun r => r.owner = .cmd c.id) = false → s3.cmd c.id = some { c with phase := .handed } →
      ∃ u, exec (.fill (.queue p q)) s = .next u ∧
        u.cmd c.id = some { c with phase := .handed, progress := c.dword 3, result := some stOk } ∧ u = { s3 with hb := u.hb })

/-- GRAPH_PATCH in each mode on a partition with a store: REPLACE and EDIT make the checked nodes the graph's current version,
DELETE leaves none. -/
def Sys2Proof.Claims.GraphPatchesCommit : Prop :=
  ∀ (s s1 s2 : State) (p : Fin 32) (q : Fin 16) (c : Cmd) (bs : List Byte) (v : GraphVer) (nodes : List (List Byte)),
    s.live = true → s.cmd c.id = some c → s1.cmd c.id = some c → s2.cmd c.id = some c → c.result = none →
    s.rd .HB_GRAPH_SIZE_UNITS c.p ≠ 0 →
    (s.headCmd p q (fun c => c.op = 0x04 && patchMode c.words = 0) = some c → 0 < c.word 4 → c.word 4 ≤ 4096 →
      s.vRead (headboxAsker c.p) (.cmd c.id) c.p (c.dword 2) (64 * c.word 4) = (s1, .ok bs) →
      nodes = chunksOf 64 (c.word 4) bs → badNode nodes = none → s1.patchWaits c (c.word 1 % 256) = none →
      s1.storeUsed c.p + 64 * nodes.length ≤ s1.storeRoom c.p →
      ({ s1 with free := s1.free + 1 }).footprints (headboxAsker c.p) (.cmd c.id) c.p
        [(s1.addrOf .HB_GRAPH_STORE_ADDR c.p + 64 * (c.word 1 % 256), 64, rightW),
          (s1.addrOf .HB_GRAPH_STORE_ADDR c.p + 16384 + s1.storeUsed c.p, 64 * nodes.length, rightW)] = (s2, .ok ()) →
      ∃ u x, exec (.graphPatchReplace (.queue p q)) s = .next u ∧ HandedOk u c ∧
        u.currentVersion c.p (c.word 1 % 256) = some x ∧ x.nodes = nodes) ∧
    (s.headCmd p q (fun c => c.op = 0x04 && patchMode c.words = 1) = some c → 0 < c.word 4 → c.word 4 ≤ 65536 →
      s.currentVersion c.p (c.word 1 % 256) = some v →
      s.vRead (headboxAsker c.p) (.cmd c.id) c.p (c.dword 2) (8 * c.word 4) = (s1, .ok bs) →
      applyEdits v.nodes (chunksOf 8 (c.word 4) bs) 0 = .ok nodes → badNode nodes = none →
      s1.patchWaits c (c.word 1 % 256) = none → s1.storeUsed c.p + 64 * nodes.length ≤ s1.storeRoom c.p →
      ({ s1 with free := s1.free + 1 }).footprints (headboxAsker c.p) (.cmd c.id) c.p
        [(s1.addrOf .HB_GRAPH_STORE_ADDR c.p + 64 * (c.word 1 % 256), 64, rightW),
          (s1.addrOf .HB_GRAPH_STORE_ADDR c.p + 16384 + s1.storeUsed c.p, 64 * nodes.length, rightW)] = (s2, .ok ()) →
      ∃ u x, exec (.graphPatchEdit (.queue p q)) s = .next u ∧ HandedOk u c ∧
        u.currentVersion c.p (c.word 1 % 256) = some x ∧ x.nodes = nodes) ∧
    (s.headCmd p q (fun c => c.op = 0x04 && patchMode c.words = 2) = some c →
      ∃ u, exec (.graphPatchDelete (.queue p q)) s = .next u ∧ HandedOk u c ∧
        u.currentVersion c.p (c.word 1 % 256) = none ∧ u = { s with hb := u.hb })

/-- A GRAPH_LAUNCH that no stream entry watches binds the graph's current version: a run with every node waiting; without a
current version it completes with NO_GRAPH. -/
def Sys2Proof.Claims.GraphLaunchBindsTheCurrentVersion : Prop :=
  ∀ (s : State) (p : Fin 32) (q : Fin 16) (c : Cmd), AtHead s p q 0x03 c → s.watchedBy c.p c.q (c.word 1 % 256) = none →
    (∀ v, s.currentVersion c.p (c.word 1 % 256) = some v →
      ∃ u r, exec (.graphLaunch (.queue p q)) s = .next u ∧ u.cmd c.id = some { c with phase := .handed } ∧ r ∈ u.hb.runs ∧
        r.id = s.nextId ∧ r.cmd = c.id ∧ r.graph = c.word 1 % 256 ∧ r.ver = v.ver ∧ r.args = c.dword 2 ∧
        r.nodes = v.nodes.map (fun b => { bytes := b, phase := .fetched, status := 0 }) ∧
        u = { s with hb := u.hb, nextId := s.nextId + 1 }) ∧
    (s.currentVersion c.p (c.word 1 % 256) = none →
      ∃ u, exec (.graphLaunch (.queue p q)) s = .next u ∧
        u.cmd c.id = some { c with phase := .handed, result := some (stCmd 0x21 (c.word 1 % 256)) })

/-- Launches are handed off and their blocks dispatched. -/
def Obligations.LaunchesReachTheVats : Prop := LaunchAndPreloadAreHanded ∧ BlocksReachTheVats

/-- Graphs are patched and launched. -/
def Obligations.GraphsCommitAndLaunch : Prop := GraphPatchesCommit ∧ GraphLaunchBindsTheCurrentVersion

/-! ### Sync and memory objects, waits -/

/-- No plane 0 arm of the calender is pending, so a change of a sync object moves no arm. -/
def Sys2Proof.Claims.NoArms (s : State) : Prop := s.rd .CAL_PLANE_CTRL_ARM 0 0 = 0 ∧ s.rd .CAL_PLANE_CTRL_ARM 1 0 = 0

/-- CREATE of a sync object within its quota takes the lowest free handle, with the type's VALUE and AUX; EXPORT sets the
export mask of a fence or counter; RESET of one writes its VALUE and makes it LIVE. -/
def Obligations.SyncObjectsAreCreatedExportedReset : Prop :=
  ∀ (s : State) (fn : Fin 33) (p : Fin 32) (type : BitVec 3) (handle : BitVec 14) (h : Nat),
    s.mayWrite fn p = true → s.homed p = true →
    (1 ≤ type.toNat → type.toNat ≤ 4 → s.rd .HB_OBJ_ARG_ARG1 p = 0 → s.rd .HB_OBJ_ARG_ARG0 p < 2 ^ 64 →
      (type.toNat = 3 → s.rd .HB_OBJ_ARG_ARG0 p % 2 ^ 32 ≠ 0) → (type.toNat = 2 → s.rd .HB_OBJ_ARG_ARG0 p = 0) →
      s.ownedSync p < s.rd .GLB_OBJ_QUOTA_SYN p → (List.range 16384).find? (fun h => s.objType h = 0) = some h →
      ∃ u, exec (.synCreate fn p type handle) s = .next u ∧ u.rd .HB_OBJ_RESULT_STATUS p = 0 ∧
        u.rd .HB_OBJ_HANDLE_HANDLE p = h ∧ u.rd .SYN_OBJ_TYPE h = type.toNat ∧ u.rd .SYN_OBJ_STATE h = 0 ∧
        u.rd .SYN_OBJ_OWNER h = p ∧ u.rd .SYN_OBJ_EXPORT h = 0 ∧
        u.rd .SYN_OBJ_VALUE h = (if type.toNat = 1 ∨ type.toNat = 4 then s.rd .HB_OBJ_ARG_ARG0 p else 0) ∧
        u.rd .SYN_OBJ_AUX h = (if type.toNat = 3 then s.rd .HB_OBJ_ARG_ARG0 p % 2 ^ 32 else 0) ∧
        (∀ h' < 16384, h' ≠ h → u.rd .SYN_OBJ_TYPE h' = s.rd .SYN_OBJ_TYPE h' ∧ u.rd .SYN_OBJ_VALUE h' = s.rd .SYN_OBJ_VALUE h') ∧
        u = { s with regs := u.regs, sync := u.sync }) ∧
    (s.owns p handle.toNat = true → s.exportOk p (s.rd .HB_OBJ_ARG_ARG1 p % 2 ^ 32) = true →
      (s.rd .SYN_OBJ_TYPE handle.toNat = 1 ∨ s.rd .SYN_OBJ_TYPE handle.toNat = 4) →
      ∃ u, exec (.synExport fn p type handle) s = .next u ∧ u.rd .HB_OBJ_RESULT_STATUS p = 0 ∧
        u.rd .SYN_OBJ_EXPORT handle.toNat = s.rd .HB_OBJ_ARG_ARG1 p % 2 ^ 32 ∧
        OnlyRegs s u [(.SYN_OBJ_EXPORT, handle.toNat, 0), (.HB_OBJ_RESULT_STATUS, p, 0), (.HB_OBJ_CTRL_OP, p, 0),
          (.HB_OBJ_CTRL_TYPE, p, 0), (.HB_OBJ_CTRL_HANDLE, p, 0)]) ∧
    (s.owns p handle.toNat = true → s.rd .SYN_OBJ_STATE handle.toNat ≠ 2 → NoArms s → s.rd .HB_OBJ_ARG_ARG0 p < 2 ^ 64 →
      (s.rd .SYN_OBJ_TYPE handle.toNat = 1 ∨ s.rd .SYN_OBJ_TYPE handle.toNat = 4) →
      ∃ u, exec (.synReset fn p type handle) s = .next u ∧ u.rd .HB_OBJ_RESULT_STATUS p = 0 ∧
        u.rd .SYN_OBJ_VALUE handle.toNat = s.rd .HB_OBJ_ARG_ARG0 p ∧ u.rd .SYN_OBJ_STATE handle.toNat = 0 ∧
        RegsKept s u [(.SYN_OBJ_VALUE, handle.toNat, 0), (.SYN_OBJ_STATE, handle.toNat, 0), (.HB_OBJ_RESULT_STATUS, p, 0),
          (.HB_OBJ_CTRL_OP, p, 0), (.HB_OBJ_CTRL_TYPE, p, 0), (.HB_OBJ_CTRL_HANDLE, p, 0)] ∧
        u = { s with regs := u.regs, sync := u.sync })

/-- DESTROY of an unexported object whose partition has work in its queues moves it to DESTROYING under one pending-release
record stamped with those queues; FREE of a memory object does the same for a holder's share. -/
def Sys2Proof.Claims.ReleasesWaitForTheQueues : Prop :=
  ∀ (s : State) (fn : Fin 33) (p : Fin 32) (type : BitVec 3) (handle : BitVec 14),
    s.mayWrite fn p = true → s.homed p = true → s.hb.releases = [] → (s.stamps p).all (s.stampPassed p) = false →
    (s.owns p handle.toNat = true → s.rd .SYN_OBJ_TYPE handle.toNat ≠ 2 → s.rd .SYN_OBJ_EXPORT handle.toNat = 0 → NoArms s →
      ∃ u, exec (.synDestroy fn p type handle) s = .next u ∧ u.rd .HB_OBJ_RESULT_STATUS p = 0 ∧
        u.rd .SYN_OBJ_STATE handle.toNat = 3 ∧ u.hb.releases = [⟨false, handle.toNat, p, s.stamps p⟩] ∧ u.mem = s.mem ∧
        (∀ w ∈ u.sync.waits, w.obj = handle.toNat → w.registered = true → w.notice ≠ none)) ∧
    (s.rd .HB_MO_STATE (handle.toNat % 4096) = 1 → bitAt (s.rd .HB_MO_HOLDERS (handle.toNat % 4096)) p = true →
      ∃ u, exec (.moFree fn p type handle) s = .next u ∧ u.rd .HB_OBJ_RESULT_STATUS p = 0 ∧
        bitAt (u.rd .HB_MO_HOLDERS (handle.toNat % 4096)) p = false ∧
        u.hb.releases = [⟨true, handle.toNat % 4096, p, s.stamps p⟩] ∧ u.mem = s.mem)

/-- CREATE of a memory object records its page-aligned range, tag and owner as its one holder; IMPORT by a partition in its
EXPORT adds a holder; EXPORT sets the mask. -/
def Sys2Proof.Claims.MemoryObjectsAreCreatedImportedExported : Prop :=
  ∀ (s : State) (fn : Fin 33) (p : Fin 32) (type : BitVec 3) (handle : BitVec 14) (h : Nat),
    s.mayWrite fn p = true → s.homed p = true →
    (s.rd .HB_OBJ_ARG_ARG0 p % 4096 = 0 → s.rd .HB_OBJ_ARG_ARG1 p % 4096 = 0 → s.rd .HB_OBJ_ARG_ARG1 p ≠ 0 →
      s.rd .HB_OBJ_ARG_ARG0 p + s.rd .HB_OBJ_ARG_ARG1 p ≤ 2 ^ 48 → s.rd .HB_OBJ_ARG_ARG3 p = 0 →
      s.ownedMem p < s.rd .GLB_OBJ_QUOTA_MO p → (List.range 4096).find? (fun h => s.rd .HB_MO_STATE h = 0) = some h →
      ∃ u, exec (.moCreate fn p type handle) s = .next u ∧ u.rd .HB_OBJ_RESULT_STATUS p = 0 ∧
        u.rd .HB_OBJ_HANDLE_HANDLE p = h ∧ u.rd .HB_MO_STATE h = 1 ∧ u.rd .HB_MO_OWNER h = p ∧
        u.addrOf .HB_MO_BASE h = s.rd .HB_OBJ_ARG_ARG0 p ∧ u.rd .HB_MO_SIZE h = s.rd .HB_OBJ_ARG_ARG1 p ∧
        u.rd .HB_MO_TAG h = s.rd .HB_OBJ_ARG_ARG2 p % 2 ^ 64 ∧ u.rd .HB_MO_HOLDERS h = 2 ^ p.val ∧
        u.rd .HB_MO_EXPORT h = 0 ∧ u = { s with regs := u.regs }) ∧
    (s.rd .HB_MO_STATE (handle.toNat % 4096) = 1 → bitAt (s.rd .HB_MO_EXPORT (handle.toNat % 4096)) p = true →
      ∃ u, exec (.moImport fn p type handle) s = .next u ∧ u.rd .HB_OBJ_RESULT_STATUS p = 0 ∧
        bitAt (u.rd .HB_MO_HOLDERS (handle.toNat % 4096)) p = true ∧
        OnlyRegs s u [(.HB_MO_HOLDERS, handle.toNat % 4096, 0), (.HB_OBJ_RESULT_STATUS, p, 0), (.HB_OBJ_CTRL_OP, p, 0),
          (.HB_OBJ_CTRL_TYPE, p, 0), (.HB_OBJ_CTRL_HANDLE, p, 0)]) ∧
    (s.rd .HB_MO_STATE (handle.toNat % 4096) = 1 → s.rd .HB_MO_OWNER (handle.toNat % 4096) = p →
      s.exportOk p (s.rd .HB_OBJ_ARG_ARG3 p % 2 ^ 32) = true →
      ∃ u, exec (.moExport fn p type handle) s = .next u ∧ u.rd .HB_OBJ_RESULT_STATUS p = 0 ∧
        u.rd .HB_MO_EXPORT (handle.toNat % 4096) = s.rd .HB_OBJ_ARG_ARG3 p % 2 ^ 32 ∧
        OnlyRegs s u [(.HB_MO_EXPORT, handle.toNat % 4096, 0), (.HB_OBJ_RESULT_STATUS, p, 0), (.HB_OBJ_CTRL_OP, p, 0),
          (.HB_OBJ_CTRL_TYPE, p, 0), (.HB_OBJ_CTRL_HANDLE, p, 0)])

/-- The low word of a VALUE only fills the latch; the high word acts, with that low word: a fence takes the greater value, a
counter the new one. -/
def Sys2Proof.Claims.HostWritesOfValue : Prop :=
  ∀ (s : State) (fn : Fin 33) (obj : Fin 16384) (low data : Word), s.valueWritable fn obj = true → NoArms s →
    (∃ u, exec (.synValueLowWrite fn obj data) s = .next u ∧ storeFind u.sync.latch obj = some data ∧
      u = { s with sync := { s.sync with latch := u.sync.latch } }) ∧
    (s.rd .SYN_OBJ_TYPE obj = 1 →
      ∃ u, exec (.synValueHighWrite fn obj (some low) data) s = .next u ∧
        u.rd .SYN_OBJ_VALUE obj = max (s.rd .SYN_OBJ_VALUE obj) (data.toNat * 2 ^ 32 + low.toNat) % 2 ^ 64 ∧
        storeFind u.sync.latch obj = none ∧ RegsKept s u [(.SYN_OBJ_VALUE, obj, 0)] ∧
        u = { s with regs := u.regs, sync := u.sync }) ∧
    (s.rd .SYN_OBJ_TYPE obj = 4 → storeFind s.sync.latch obj = some low →
      ∃ u, exec (.synValueHighWrite fn obj none data) s = .next u ∧
        u.rd .SYN_OBJ_VALUE obj = data.toNat * 2 ^ 32 + low.toNat ∧ RegsKept s u [(.SYN_OBJ_VALUE, obj, 0)] ∧
        u = { s with regs := u.regs, sync := u.sync })

/-- A WAIT command's wait registers when a place is free, ends with the status of its notice, and ends with TIMEOUT when its
timer expires; the wait is then gone. -/
def Sys2Proof.Claims.WaitsRegisterAndEnd : Prop :=
  ∀ (s : State) (w : Wait) (c : Cmd) (st : Nat), s.live = true → s.waitBy w.id = some w → w.who = .cmd c.id →
    s.cmd c.id = some c → c.phase = .handed → c.result = none →
    (w.obj < 16384 → w.registered = false → s.registeredWaits < 8192 →
      ∃ u, exec (.waitRegisterRetry w.id) s = .next u ∧
        u.waitBy w.id = some { w with registered := true, notice := s.registerFinds w } ∧
        u = { s with sync := { s.sync with waits := u.sync.waits } }) ∧
    (w.notice = some st → (st ≠ stOk ∨ w.timeout = 0) →
      ∃ u, exec (.waitNotice w.id) s = .next u ∧ u.waitBy w.id = none ∧ u.cmd c.id = some { c with result := some st } ∧
        u = { s with sync := u.sync, hb := u.hb }) ∧
    (w.timeout ≠ 0 →
      ∃ u, exec (.waitTimeout w.id) s = .next u ∧ u.waitBy w.id = none ∧
        u.cmd c.id = some { c with result := some stTimeoutWait } ∧ u = { s with sync := u.sync, hb := u.hb })

/-- Memory objects, and releases that wait for the queues. -/
def Obligations.MemoryObjectsAndReleases : Prop := ReleasesWaitForTheQueues ∧ MemoryObjectsAreCreatedImportedExported

/-- Values of sync objects are written, and waits on them end. -/
def Obligations.ValuesAreWrittenAndAwaited : Prop := HostWritesOfValue ∧ WaitsRegisterAndEnd

/-! ### Stops, device resets, functions, claims, furnishes -/

/-- The last engine of a fault's teardown acknowledges: the partition is STOPPED and the stop is gone; an engine that is not
the last is only taken off the list. -/
def Sys2Proof.Claims.StopsEndWithTheLastEngine : Prop :=
  ∀ (s : State) (p : Fin 32) (x : Stop), s.live = true → s.hb.stops = [x] → x.cause = .fault p →
    x.waiting.contains .copy = true → s.sched.waiting = [] → (∀ n, s.poolWaits n = false) →
    (x.waiting.filter (fun y => y ≠ EngineUnit.copy) = [] → s.ring.funcs = [] → s.homed p = true →
      s.rd .SCH_FAULT_CTRL_AUTO p = 0 → s.launches = [] →
      ∃ u, exec (.engineStopAck x.id .copy) s = .next u ∧ u.hb.stops = [] ∧ u.rd .SCH_FAULT_CTRL_STOPPED p = 1 ∧
        u.mem = s.mem ∧ RegsKept s u [(.SCH_FAULT_CTRL_STOPPED, p, 0)]) ∧
    (x.waiting.filter (fun y => y ≠ EngineUnit.copy) ≠ [] →
      ∃ u, exec (.engineStopAck x.id .copy) s = .next u ∧
        u.hb.stops = [{ x with waiting := x.waiting.filter (fun y => y ≠ EngineUnit.copy) }] ∧ u.regs = s.regs ∧ u.mem = s.mem)

/-- A reclaim of a partition without objects, work, events or an FLR ends at once: its queues are off, its fault state is
cleared, its translations are dropped, and RECLAIMED is pending at the PF's target. -/
def Sys2Proof.Claims.IdlePartitionIsReclaimed : Prop :=
  ∀ (s : State) (fn : Fin 33) (p : Fin 32),
    s.mayWrite fn p = true → (∀ q : Fin 16, s.rd .HB_Q_CTRL_EN p q ≤ 1) → s.rd .HB_RECLAIM_RUNNING p = 0 → s.hb = {} → s.launches = [] → s.geo.passes = [] →
    s.vats = [] → s.codec = {} → s.sync = {} → s.xlt = {} → (∀ h, h < 16384 → s.rd .SYN_OBJ_TYPE h = 0) → (∀ h, h < 4096 → s.rd .HB_MO_STATE h = 0) →
    s.spanning p = false → s.vfEnabled p = false → s.rd .GLB_FLR_STATUS_RUNNING = 0 → s.rd .EVQ_CTRL_EN 32 = 0 →
    ∃ u, exec (.reclaim fn p) s = .next u ∧ u.rd .HB_RECLAIM_RUNNING p = 0 ∧ (∀ q : Fin 16, u.rd .HB_Q_CTRL_EN p q = 0) ∧
      u.rd .SCH_FAULT_CTRL_FAULTED p = 0 ∧ u.rd .SCH_FAULT_CTRL_STOPPED p = 0 ∧ u.rd .XLT_ROOT_EN p = 0 ∧
      kindBit (u.rd .EVQ_PEND_PEND 32) 6 = true ∧ u.mem = s.mem ∧
      (∀ p' : Fin 32, p' ≠ p → ∀ q : Fin 16, u.rd .HB_Q_CTRL_EN p' q = s.rd .HB_Q_CTRL_EN p' q)

/-- `u` is the chip that a device reset of status `st` leaves: the cause recorded and counted, every queue, vat, launch and
object gone, DRAM, host memory, flash and fuses kept, the management controller waiting to start again. -/
def Sys2Proof.Claims.DeviceResetTo (s u : State) (st : Nat) : Prop :=
  u.rd .GLB_DEVRESET_STATUS_STATUS = st ∧
  u.rd .GLB_DEVRESET_CTRL_COUNT = min 255 (s.rd .GLB_DEVRESET_CTRL_COUNT + 1) ∧
  u.rd .MGC_MBOX_CTRL_LOST = s.rd .MGC_MBOX_CTRL_PENDING ∧ u.rd .PWR_WEAR_SECONDS = s.rd .PWR_WEAR_SECONDS ∧
  u.hb = {} ∧ u.vats = [] ∧ u.launches = [] ∧ u.geo = {} ∧ u.sync = {} ∧ u.furn = {} ∧ u.mem.dram = s.mem.dram ∧
  u.mem.host = s.mem.host ∧ u.mem.l2 = [] ∧ u.mgc.flash = s.mgc.flash ∧ u.mgc.fuses = s.mgc.fuses ∧
  u.mgc.booted = false ∧ u.mgc.devReset = true ∧ u.pending = s.pending ∧ u.rd .DBG_FREEZE_STATUS_STATE = 0 ∧
  (∀ (p : Fin 32) (q : Fin 16), u.rd .HB_Q_CTRL_EN p q = 0) ∧ ∀ n : Fin 64, u.rd .PWR_DOM_STATE_STATE n = 3

/-- Each cause of a device reset records its own status; while one runs, another cause only counts in MERGED. -/
def Obligations.DeviceResets : Prop :=
  ∀ (s : State) (p : Fin 32) (q : Fin 16) (check : BitVec 16), s.rd .MGC_MBOX_CTRL_PENDING ≤ 1 →
    s.rd .PWR_WEAR_SECONDS < 2 ^ 32 → s.rd .GLB_DEVRESET_CTRL_COUNT < 256 →
    (s.inReset = false → s.live = true →
      (∃ u, exec (.parserWatchdog p q) s = .next u ∧ DeviceResetTo s u (0x1F010000 + p.val * 256 + q.val)) ∧
      (∃ u, exec (.parserFault check) s = .next u ∧ DeviceResetTo s u (0x1F020000 + check.toNat)) ∧
      (s.mgc.booted = true → ∃ u, exec .mgcWatchdog s = .next u ∧ DeviceResetTo s u 0x1F070001) ∧
      (s.mgc.booted = true → ∃ u, exec .mgcException s = .next u ∧ DeviceResetTo s u 0x1F070002)) ∧
    (s.inReset = false → s.powered = true →
      ((s.fnCfg 0).d3hot = false → s.inRecovery = false →
        ∃ u, exec .hostRequest s = .next u ∧ DeviceResetTo s u 0x1F030000) ∧
      (∃ u, exec .pfFlr s = .next u ∧ DeviceResetTo s u 0x1F040000 ∧ (u.fnCfg 0).busMaster = false ∧
        u.pcie.up = s.pcie.up)) ∧
    (s.inReset = true → s.live = true →
      ∃ u, exec (.parserFault check) s = .next u ∧
        u.rd .GLB_DEVRESET_CTRL_MERGED = min 255 (s.rd .GLB_DEVRESET_CTRL_MERGED + 1) ∧
        OnlyRegs s u [(.GLB_DEVRESET_CTRL_MERGED, 0, 0)])

/-- A STOP of a running function that holds no blocks makes it STOPPING in the mode given, a START of a stopped partition or
decode engine makes it STARTING, and both report OK; a STOP of a function that does not run changes no state. -/
def Sys2Proof.Claims.FunctionsStopAndStart : Prop :=
  ∀ (s : State) (kind : BitVec 4) (index : BitVec 8) (k : Nat), s.pfWrites = true →
    funcIndex kind.toNat index.toNat = some k → k < 38 →
    (s.funcState k = fnRunning → s.vatsOf k = [] →
      (∃ u, exec (.stopPreempt kind index) s = .next u ∧ u.funcState k = fnStopping ∧
        u.rd .GLB_FUNC_RESULT_STATUS = 0 ∧ u.hb.stops = s.hb.stops ++ [⟨s.nextId, .func k false, []⟩] ∧ u.mem = s.mem ∧
        (∀ j < 39, j ≠ k → u.funcState j = s.funcState j)) ∧
      (∃ u, exec (.stopDrain kind index) s = .next u ∧ u.funcState k = fnStopping ∧
        u.rd .GLB_FUNC_RESULT_STATUS = 0 ∧ u.hb.stops = s.hb.stops ++ [⟨s.nextId, .func k true, []⟩] ∧ u.mem = s.mem ∧
        (∀ j < 39, j ≠ k → u.funcState j = s.funcState j))) ∧
    (s.funcState k ≠ fnRunning →
      ∃ u, exec (.stopDrain kind index) s = .next u ∧ u.rd .GLB_FUNC_RESULT_STATUS = 0 ∧
        OnlyRegs s u [(.GLB_FUNC_RESULT_STATUS, 0, 0), (.GLB_FUNC_CTRL_OP, 0, 0), (.GLB_FUNC_CTRL_KIND, 0, 0),
          (.GLB_FUNC_CTRL_INDEX, 0, 0)]) ∧
    (s.funcState k = fnStopped → k ≠ 32 → k ≠ 33 →
      ∃ u, exec (.start kind index) s = .next u ∧ u.funcState k = fnStarting ∧ u.rd .GLB_FUNC_RESULT_STATUS = 0 ∧
        u = { s with regs := u.regs } ∧ (∀ j < 39, j ≠ k → u.funcState j = s.funcState j))

/-- The last engine of a stopping function has acknowledged: the function is STOPPED with its mode in DRAINED, and STOPPED
is pending, at the partition's driver or at the PF's target. A starting function runs when its engines accept work. -/
def Sys2Proof.Claims.FunctionsReachStoppedAndRunning : Prop :=
  ∀ (s : State) (k : Fin 39) (x : Stop) (drain : Bool), s.live = true → s.ring.funcs = [] →
    (s.funcStop k = some (x, drain) → s.quiet k drain = true → s.cal.lead = [] →
      s.rd .EVQ_CTRL_EN (if k.val < 32 then s.driverTarget k else 32) = 0 → (k.val < 32 → s.homed k = true) →
      ∃ u, exec (.functionStopped k) s = .next u ∧ u.funcState k = fnStopped ∧ u.rd .GLB_FUNC_STATE_DRAINED k = b2n drain ∧
        kindBit (u.rd .EVQ_PEND_PEND (if k.val < 32 then s.driverTarget k else 32)) 8 = true ∧
        (∀ y ∈ u.hb.stops, y.id ≠ x.id) ∧ u.mem = s.mem) ∧
    (s.funcState k = fnStarting → k.val ≠ 32 → k.val ≠ 33 → k.val ≠ 38 → s.spanning k = false → s.vats = [] →
      s.geo.passes = [] →
      ∃ u, exec (.functionStarted k) s = .next u ∧ u.funcState k = fnRunning ∧ u.mem = s.mem ∧
        ∀ j < 39, j ≠ k.val → u.funcState j = s.funcState j)

/-- A claim whose resources are free takes all of them; one that meets a held resource is BUSY and takes none; the requester
releases them all, and a released pin is an input again. -/
def Obligations.ClaimsTakeAllOrNone : Prop :=
  ∀ (s : State) (feature resource : BitVec 8) (rs : List Nat), s.pfWrites = true →
    claimTargets feature.toNat resource.toNat = some rs →
    ((∀ r ∈ rs, s.claimOf r = none) →
      ∃ u, exec (.claim .pf feature resource) s = .next u ∧ u.rd .GLB_CLAIM_RESULT_STATUS = 0 ∧
        (∀ r, u.claimOf r = if r ∈ rs then some ⟨feature.toNat, 1⟩ else s.claimOf r) ∧
        u = { s with regs := u.regs, furn := { s.furn with claims := u.furn.claims } }) ∧
    (s.live = true → s.mgc.booted = true → (∀ r ∈ rs, s.claimOf r = none) →
      ∃ u, exec (.claim .mgc feature resource) s = .next u ∧ (∀ r, u.claimOf r = if r ∈ rs then some ⟨feature.toNat, 0⟩ else
        s.claimOf r) ∧ u = { s with furn := { s.furn with claims := u.furn.claims } }) ∧
    (∀ (r : Nat) (c : Claim), s.heldBy rs (fun _ => true) = some (r, c) →
      ∃ u, exec (.claim .pf feature resource) s = .next u ∧ u.rd .GLB_CLAIM_RESULT_STATUS = stBusy r c.feature c.who % 2 ^ 32 ∧
        u = { s with regs := u.regs }) ∧
    ((∀ r ∈ rs, s.claimOf r = some ⟨feature.toNat, 1⟩) →
      ∃ u, exec (.release .pf feature resource) s = .next u ∧ u.rd .GLB_CLAIM_RESULT_STATUS = 0 ∧
        (∀ r, u.claimOf r = if r ∈ rs then none else s.claimOf r) ∧
        (∀ r ∈ rs, r < 16 → bitAt (u.rd .GLB_GPIO_OUT_OE) r = false))

/-- A full furnish is taken only while none is locked, from bytes that pass every check: it is then in force and locked,
with SOURCE 2; a locked chip answers LOCKED. A delta off the ring's master answers NOT_MASTER. A delta that a member has
not answered in time fails on every member, and the records in force stay. -/
def Obligations.FurnishLoads : Prop :=
  ∀ (s : State) (bs : List Byte) (recs : List FRec) (d : DeltaRun), s.pfWrites = true → s.rd .GLB_LOAD_CTRL_PENDING = 0 →
    (s.rd .GLB_FURNISH_STATUS_LOCKED = 0 → s.loadSource = .ok bs → s.readFurnish bs bs.length 0 = .ok recs →
      ∃ u, exec .fullLoad s = .next u ∧ u.rd .GLB_FURNISH_STATUS_LOCKED = 1 ∧ u.rd .GLB_FURNISH_STATUS_SOURCE = 2 ∧
        u.rd .GLB_FURNISH_STATUS_NULL = 0 ∧ u.rd .GLB_LOAD_RESULT_STATUS = 0 ∧ u.furn.recs = recs ∧
        u.furn.base = bs.take (furnLength bs) ∧ u.furn.deltas = []) ∧
    (s.rd .GLB_FURNISH_STATUS_LOCKED = 1 →
      ∃ u, exec .fullLoad s = .next u ∧ u.rd .GLB_LOAD_RESULT_STATUS = stFurnish 0x16 0 ∧ u = { s with regs := u.regs }) ∧
    (s.isMaster = false →
      ∃ u, exec .deltaLoad s = .next u ∧ u.rd .GLB_LOAD_RESULT_STATUS = stFurnish 0x15 0 ∧ u = { s with regs := u.regs }) ∧
    (s.isMaster = true → s.otherMembers ≠ [] → s.loadSource = .ok bs → (∃ r, s.checkDelta bs bs.length = .ok r) →
      ∃ u, exec .deltaLoad s = .next u ∧ u.rd .GLB_LOAD_CTRL_PENDING = 1 ∧
        u.furn.staged = some (bs.take (furnLength bs)) ∧ u.furn.recs = s.furn.recs) ∧
    (s.furn.delta = some d → d.committed = false →
      ∃ u, exec .deltaTimeout s = .next u ∧ u.rd .GLB_LOAD_CTRL_PENDING = 0 ∧
        u.rd .GLB_LOAD_RESULT_STATUS = stFurnish 0x13 (d.waiting.headD s.pos) % 2 ^ 32 ∧ u.furn.delta = none ∧
        u.furn.staged = none ∧ u.furn.recs = s.furn.recs)

/-- Stops and reclaims end. -/
def Obligations.StopsAndReclaimsEnd : Prop := StopsEndWithTheLastEngine ∧ IdlePartitionIsReclaimed

/-- Functions are stopped and started. -/
def Obligations.FunctionsStartAndStop : Prop := FunctionsStopAndStart ∧ FunctionsReachStoppedAndRunning

/-! ### BPC: what every instruction shares -/

namespace Sys2Proof.Claims

/-- The quire in a slot may issue, its instruction is of opcode `op`, at least one lane executes it, it is legal and its
registers are in range, and no pre-emption asks the vat for its blocks. -/
structure Issues (s : State) (vat slot : Fin 64) (op : Nat) (c : BCtx) : Prop where
  live : s.live = true
  ready : s.ready vat slot = some (c.q, c.blk, c.l)
  inst : decodeInst c.l.mod.code c.q.pc = some c.i
  code : c.i.op = op
  place : c.vat = vat ∧ c.slot = slot
  lanes : execLanes c.q c.i ≠ 0
  legal : legal c.i = true
  range : rangeFault c.i c.l.vregs = none
  calm : (s.vat vat).preempt = []

/-- Of the registers, only the vat's issue counters change. -/
def CountersOnly (s t : State) (vat : Nat) : Prop :=
  RegsKept s t [(.VAT_ISSUED_COUNT, vat, 0), (.VAT_RC_HITS_COUNT, vat, 0), (.VAT_BANK_STALLS_COUNT, vat, 0)]

/-- Every other quire, every block, every accumulator set and beater queue stays. -/
def OthersKept (s t : State) (vat slot : Nat) : Prop :=
  (∀ v n, ¬(v = vat ∧ n = slot) → t.quire v n = s.quire v n) ∧ (∀ v b, t.block v b = s.block v b) ∧
  ∀ v, (t.vat v).sets = (s.vat v).sets ∧ (t.vat v).ops = (s.vat v).ops ∧ (t.vat v).acqq = (s.vat v).acqq ∧
    (t.vat v).l1 = (s.vat v).l1 ∧ (t.vat v).preempt = (s.vat v).preempt ∧ (t.vat v).preload = (s.vat v).preload

/-- Nothing changes but the issue counters, the register cache and the quire of the instruction. -/
def OnlyQuire (s t : State) (c : BCtx) : Prop :=
  CountersOnly s t c.vat ∧ OthersKept s t c.vat c.slot ∧ t = { s with regs := t.regs, vats := t.vats }

/-- `q` is the instruction's quire at the next instruction with D written in the computing lanes: in lane n the words of
`f n`. Every other register and lane is as before. -/
def DWritten (c : BCtx) (q : Quire) (f : Nat → Nat) : Prop :=
  (okind c.i.d = .v → ∀ n ∈ c.doers, ∀ j < (widths c.i).1, q.vreg (c.i.d + j) n = f n / 2 ^ (32 * j) % 2 ^ 32) ∧
  (okind c.i.d = .s → ∀ n ∈ c.doers, ∀ j < (widths c.i).1, q.sreg (c.i.d - 256 + j) = f n / 2 ^ (32 * j) % 2 ^ 32) ∧
  (∀ r n, n < 32 → ¬(c.i.d ≤ r ∧ r < c.i.d + (widths c.i).1 ∧ n ∈ c.doers) → q.vreg r n = c.q.vreg r n) ∧
  (∀ r, ¬(c.i.d ≤ 256 + r ∧ 256 + r < c.i.d + (widths c.i).1) → q.sreg r = c.q.sreg r) ∧
  q = { c.q with pc := c.i.next, v := q.v, s := q.s }

/-- The predicate D takes `f n` in each lane of `lanes`; writes to p0 are discarded; nothing else of the quire changes but
the pc. -/
def PredWritten (c : BCtx) (lanes : List Nat) (q : Quire) (f : Nat → Bool) : Prop :=
  (∀ n < 32, bitAt (q.preg (c.i.d - 320)) n =
    if c.i.d ≠ 320 ∧ n ∈ lanes then f n else bitAt (c.q.preg (c.i.d - 320)) n) ∧
  (∀ k, k ≠ c.i.d - 320 → q.preg k = c.q.preg k) ∧ q = { c.q with pc := c.i.next, pr := q.pr }

/-- An instruction answers a next state in which D holds `f n` in each computing lane, and nothing else has changed. -/
def WritesD (cmd : Instr) (s : State) (c : BCtx) (f : Nat → Nat) : Prop :=
  ∃ u q, exec cmd s = .next u ∧ u.quire c.vat c.slot = some q ∧ DWritten c q f ∧ OnlyQuire s u c

/-- An instruction answers a next state in which the predicate D holds `f n` in each lane of `lanes`, and nothing else has
changed. -/
def WritesPred (cmd : Instr) (s : State) (c : BCtx) (lanes : List Nat) (f : Nat → Bool) : Prop :=
  ∃ u q, exec cmd s = .next u ∧ u.quire c.vat c.slot = some q ∧ PredWritten c lanes q f ∧ OnlyQuire s u c

/-- An instruction answers a next state in which its quire is `q`, and nothing else has changed. -/
def QuireBecomes (cmd : Instr) (s : State) (c : BCtx) (q : Quire) : Prop :=
  ∃ u, exec cmd s = .next u ∧ u.quire c.vat c.slot = some q ∧ OnlyQuire s u c

/-- The opcode of the BPC instruction that a command issues, with its vat and quire slot; TCVT apart. -/
def bpcOp : Instr → Option (Fin 64 × Fin 64 × Nat)
  | .iadd vat slot => some (vat, slot, 0x01)
  | .isub vat slot => some (vat, slot, 0x02)
  | .imul vat slot => some (vat, slot, 0x03)
  | .imulhi vat slot => some (vat, slot, 0x04)
  | .imad vat slot => some (vat, slot, 0x05)
  | .idiv vat slot => some (vat, slot, 0x06)
  | .irem vat slot => some (vat, slot, 0x07)
  | .imin vat slot => some (vat, slot, 0x08)
  | .imax vat slot => some (vat, slot, 0x09)
  | .iabs vat slot => some (vat, slot, 0x0A)
  | .ineg vat slot => some (vat, slot, 0x0B)
  | .bpcAnd vat slot => some (vat, slot, 0x0C)
  | .bpcOr vat slot => some (vat, slot, 0x0D)
  | .bpcXor vat slot => some (vat, slot, 0x0E)
  | .bpcNot vat slot => some (vat, slot, 0x0F)
  | .shl vat slot => some (vat, slot, 0x10)
  | .shr vat slot => some (vat, slot, 0x11)
  | .fext vat slot => some (vat, slot, 0x12)
  | .fins vat slot => some (vat, slot, 0x13)
  | .ones vat slot => some (vat, slot, 0x14)
  | .clz vat slot => some (vat, slot, 0x15)
  | .rvrs vat slot => some (vat, slot, 0x16)
  | .isum vat slot => some (vat, slot, 0x17)
  | .bdot vat slot => some (vat, slot, 0x18)
  | .fadd vat slot => some (vat, slot, 0x20)
  | .fsub vat slot => some (vat, slot, 0x21)
  | .fmul vat slot => some (vat, slot, 0x22)
  | .fma vat slot => some (vat, slot, 0x23)
  | .fmin vat slot => some (vat, slot, 0x24)
  | .fmax vat slot => some (vat, slot, 0x25)
  | .frnd vat slot => some (vat, slot, 0x26)
  | .fdiv vat slot => some (vat, slot, 0x27)
  | .frcp vat slot => some (vat, slot, 0x28)
  | .fsqrt vat slot => some (vat, slot, 0x29)
  | .frsq vat slot => some (vat, slot, 0x2A)
  | .fexp2 vat slot => some (vat, slot, 0x2B)
  | .flog2 vat slot => some (vat, slot, 0x2C)
  | .fsin vat slot => some (vat, slot, 0x2D)
  | .fcos vat slot => some (vat, slot, 0x2E)
  | .fscale vat slot => some (vat, slot, 0x2F)
  | .fkind vat slot => some (vat, slot, 0x56)
  | .cvt vat slot => some (vat, slot, 0x40)
  | .f2f8 vat slot => some (vat, slot, 0x41)
  | .f82f vat slot => some (vat, slot, 0x42)
  | .pk2h vat slot => some (vat, slot, 0x43)
  | .upk2h vat slot => some (vat, slot, 0x44)
  | .inrw vat slot => some (vat, slot, 0x45)
  | .icmpp vat slot => some (vat, slot, 0x50)
  | .fcmpp vat slot => some (vat, slot, 0x51)
  | .icmpm vat slot => some (vat, slot, 0x52)
  | .fcmpm vat slot => some (vat, slot, 0x53)
  | .sel vat slot => some (vat, slot, 0x54)
  | .plog vat slot => some (vat, slot, 0x55)
  | .mov vat slot => some (vat, slot, 0x57)
  | .pget vat slot => some (vat, slot, 0x58)
  | .pset vat slot => some (vat, slot, 0x59)
  | .pany vat slot => some (vat, slot, 0x60)
  | .pall vat slot => some (vat, slot, 0x61)
  | .pmask vat slot => some (vat, slot, 0x62)
  | .lget vat slot => some (vat, slot, 0x63)
  | .lup vat slot => some (vat, slot, 0x64)
  | .ldown vat slot => some (vat, slot, 0x65)
  | .lflip vat slot => some (vat, slot, 0x66)
  | .rduni vat slot => some (vat, slot, 0x67)
  | .nop vat slot => some (vat, slot, 0x70)
  | .bra vat slot => some (vat, slot, 0x71)
  | .jmp vat slot => some (vat, slot, 0x72)
  | .ret vat slot => some (vat, slot, 0x74)
  | .call vat slot => some (vat, slot, 0x73)
  | .pushm vat slot => some (vat, slot, 0x75)
  | .popm vat slot => some (vat, slot, 0x76)
  | .join vat slot => some (vat, slot, 0x77)
  | .yield vat slot => some (vat, slot, 0x79)
  | .exit vat slot => some (vat, slot, 0x78)
  | .discard vat slot => some (vat, slot, 0x7A)
  | .savept vat slot => some (vat, slot, 0x7B)
  | .bwait vat slot => some (vat, slot, 0x80)
  | .bpass vat slot => some (vat, slot, 0x81)
  | .bred vat slot => some (vat, slot, 0x82)
  | .trap vat slot => some (vat, slot, 0xD0)
  | .tret vat slot => some (vat, slot, 0xD1)
  | .tretire vat slot => some (vat, slot, 0xD2)
  | .tesc vat slot => some (vat, slot, 0xD3)
  | .ld vat slot => some (vat, slot, 0x90)
  | .st vat slot => some (vat, slot, 0x91)
  | .morder vat slot => some (vat, slot, 0x92)
  | .prefetch vat slot => some (vat, slot, 0x93)
  | .l1inv vat slot => some (vat, slot, 0x94)
  | .atomAdd vat slot => some (vat, slot, 0xA0)
  | .atomAnd vat slot => some (vat, slot, 0xA1)
  | .atomOr vat slot => some (vat, slot, 0xA2)
  | .atomXor vat slot => some (vat, slot, 0xA3)
  | .atomMin vat slot => some (vat, slot, 0xA4)
  | .atomMax vat slot => some (vat, slot, 0xA5)
  | .atomExch vat slot => some (vat, slot, 0xA6)
  | .atomCas vat slot => some (vat, slot, 0xA7)
  | .atomInc vat slot => some (vat, slot, 0xA8)
  | .atomDec vat slot => some (vat, slot, 0xA9)
  | .atomFadd vat slot => some (vat, slot, 0xAA)
  | .synSignal vat slot => some (vat, slot, 0xB0)
  | .synAdd vat slot => some (vat, slot, 0xB1)
  | .synWait vat slot => some (vat, slot, 0xB2)
  | .synRead vat slot => some (vat, slot, 0xB3)
  | .lockAcq vat slot => some (vat, slot, 0xB4)
  | .lockRel vat slot => some (vat, slot, 0xB5)
  | .synArrive vat slot => some (vat, slot, 0xB6)
  | .synEvent vat slot => some (vat, slot, 0xB7)
  | .tld vat slot => some (vat, slot, 0xC0)
  | .tmma vat slot => some (vat, slot, 0xC1)
  | .tst vat slot => some (vat, slot, 0xC2)
  | .halloc vat slot => some (vat, slot, 0xC8)
  | .hfree vat slot => some (vat, slot, 0xC9)
  | _ => none

end Sys2Proof.Claims

/-- Every BPC instruction begins alike: without a ready quire at an instruction of its opcode nothing happens; with no
executing lane the quire only moves on; an illegal instruction raises EXEC_ILLEGAL with its opcode; a v register at or
above V raises EXEC 8. -/
def Obligations.EveryInstructionBeginsAlike : Prop :=
  ∀ (cmd : Instr) (vat slot : Fin 64) (op : Nat) (s : State), bpcOp cmd = some (vat, slot, op) →
    (s.live = false → exec cmd s = .next s) ∧
    (s.ready vat slot = none → exec cmd s = .next s) ∧
    (∀ q b l, s.ready vat slot = some (q, b, l) →
      (∀ i, decodeInst l.mod.code q.pc = some i → i.op ≠ op) → exec cmd s = .next s) ∧
    (∀ q b l i, s.live = true → s.ready vat slot = some (q, b, l) → decodeInst l.mod.code q.pc = some i → i.op = op →
      (s.vat vat).preempt = [] →
      (execLanes q i = 0 →
        exec cmd s = .next ((s.count .VAT_ISSUED_COUNT 1 vat).setQuire vat slot { q with pc := i.next })) ∧
      (execLanes q i ≠ 0 → legal i = false → exec cmd s =
        .next (((s.count .VAT_ISSUED_COUNT 1 vat).raiseFault vat slot (0x12010000 + op * 256)).trySave vat q.block)) ∧
      (∀ r, execLanes q i ≠ 0 → legal i = true → rangeFault i l.vregs = some r → exec cmd s =
        .next (((s.count .VAT_ISSUED_COUNT 1 vat).raiseFault vat slot (0x12080000 + r % 65536)).trySave vat q.block)))

/-- The integer arithmetic instructions write their result by TYPE in each computing lane, wrapped, or with SAT saturated;
only D, the pc, the issue counters and the register cache change. -/
def Sys2Proof.Claims.IntegerArithmeticWritesD : Prop :=
  ∀ (s : State) (vat slot : Fin 64) (c : BCtx),
    (Issues s vat slot 0x01 c → WritesD (.iadd vat slot) s c (fun n => c.satWrap (c.ia n + c.ib n))) ∧
    (Issues s vat slot 0x02 c → WritesD (.isub vat slot) s c (fun n => c.satWrap (c.ia n - c.ib n))) ∧
    (Issues s vat slot 0x03 c → WritesD (.imul vat slot) s c (fun n => wrapN (tyBits c.i.ty) (c.ia n * c.ib n))) ∧
    (Issues s vat slot 0x04 c → WritesD (.imulhi vat slot) s c (fun n => wrapN (tyBits c.i.ty) (c.ia n * c.ib n / (2 ^ tyBits c.i.ty : Nat)))) ∧
    (Issues s vat slot 0x05 c → WritesD (.imad vat slot) s c (fun n => c.satWrap (c.ia n * c.ib n + c.ic n))) ∧
    (Issues s vat slot 0x17 c → WritesD (.isum vat slot) s c (fun n => c.satWrap (c.ia n + c.ib n + c.ic n))) ∧
    (Issues s vat slot 0x08 c → WritesD (.imin vat slot) s c (fun n => wrapN (tyBits c.i.ty) (if c.ia n ≤ c.ib n then c.ia n else c.ib n))) ∧
    (Issues s vat slot 0x09 c → WritesD (.imax vat slot) s c (fun n => wrapN (tyBits c.i.ty) (if c.ia n ≤ c.ib n then c.ib n else c.ia n))) ∧
    (Issues s vat slot 0x0A c → WritesD (.iabs vat slot) s c (fun n => c.satWrap (if 0 ≤ c.ia n then c.ia n else -(c.ia n)))) ∧
    (Issues s vat slot 0x0B c → WritesD (.ineg vat slot) s c (fun n => wrapN (tyBits c.i.ty) (0 - c.ia n))) ∧
    (Issues s vat slot 0x06 c → WritesD (.idiv vat slot) s c (fun n => wrapN (tyBits c.i.ty) (idivVal c.i.ty (c.ia n) (c.ib n)))) ∧
    (Issues s vat slot 0x07 c → WritesD (.irem vat slot) s c (fun n => wrapN (tyBits c.i.ty) (iremVal (c.ia n) (c.ib n)))) ∧
    (Issues s vat slot 0x18 c → WritesD (.bdot vat slot) s c (fun n => wrapN (tyBits c.i.ty) (c.ic n + bdotVal (c.i.ty = 1) (c.opA n) (c.opB n))))

/-- The logic, shift, field and count instructions write D in each computing lane and change nothing else of the quire. -/
def Sys2Proof.Claims.LogicShiftsAndFieldsWriteD : Prop :=
  ∀ (s : State) (vat slot : Fin 64) (c : BCtx),
    (Issues s vat slot 0x0C c → WritesD (.bpcAnd vat slot) s c (fun n => c.opA n &&& c.opB n)) ∧
    (Issues s vat slot 0x0D c → WritesD (.bpcOr vat slot) s c (fun n => c.opA n ||| c.opB n)) ∧
    (Issues s vat slot 0x0E c → WritesD (.bpcXor vat slot) s c (fun n => c.opA n ^^^ c.opB n)) ∧
    (Issues s vat slot 0x0F c → WritesD (.bpcNot vat slot) s c (fun n => 2 ^ tyBits c.i.ty - 1 - c.opA n % 2 ^ tyBits c.i.ty)) ∧
    (Issues s vat slot 0x10 c → WritesD (.shl vat slot) s c (fun n => if tyBits c.i.ty ≤ c.count n then 0 else c.opA n * 2 ^ c.count n % 2 ^ tyBits c.i.ty)) ∧
    (Issues s vat slot 0x11 c → WritesD (.shr vat slot) s c (fun n => wrapN (tyBits c.i.ty) (c.ia n / (2 ^ min (c.count n) (tyBits c.i.ty) : Nat)))) ∧
    (Issues s vat slot 0x12 c → WritesD (.fext vat slot) s c (fun n => fextVal (c.i.ty = 1) (c.opA n) (c.opB n))) ∧
    (Issues s vat slot 0x13 c → WritesD (.fins vat slot) s c (fun n => finsVal (c.opA n) (c.opB n) (c.opC n))) ∧
    (Issues s vat slot 0x14 c → WritesD (.ones vat slot) s c (fun n => popCount (tyBits c.i.ty) (c.opA n))) ∧
    (Issues s vat slot 0x15 c → WritesD (.clz vat slot) s c (fun n => clzVal (tyBits c.i.ty) (c.opA n))) ∧
    (Issues s vat slot 0x16 c → WritesD (.rvrs vat slot) s c (fun n => rvrsVal (tyBits c.i.ty) (c.opA n)))

/-- The float instructions round the exact result once, by TYPE, in each computing lane, with the sign modifiers before and
SAT after, and change nothing else. -/
def Obligations.FloatInstructionsWriteD : Prop :=
  ∀ (s : State) (vat slot : Fin 64) (c : BCtx),
    (Issues s vat slot 0x20 c → WritesD (.fadd vat slot) s c (fun n => c.float n c.rnd (fun a b _ => fvAdd c.rnd a b))) ∧
    (Issues s vat slot 0x21 c → WritesD (.fsub vat slot) s c (fun n => c.float n c.rnd (fun a b _ => fvAdd c.rnd a b.negate))) ∧
    (Issues s vat slot 0x22 c → WritesD (.fmul vat slot) s c (fun n => c.float n c.rnd (fun a b _ => fvMul a b))) ∧
    (Issues s vat slot 0x23 c → WritesD (.fma vat slot) s c (fun n => c.float n c.rnd (fun a b x => fvAdd c.rnd (fvMul a b) x))) ∧
    (Issues s vat slot 0x24 c → WritesD (.fmin vat slot) s c (fun n => c.float n c.rnd (fun a b _ => fvMin a b))) ∧
    (Issues s vat slot 0x25 c → WritesD (.fmax vat slot) s c (fun n => c.float n c.rnd (fun a b _ => fvMax a b))) ∧
    (Issues s vat slot 0x26 c → WritesD (.frnd vat slot) s c (fun n => c.float n c.rnd (fun a _ _ => fvRint c.rnd a))) ∧
    (Issues s vat slot 0x27 c → WritesD (.fdiv vat slot) s c (fun n => c.float n .ne (fun a b _ => fvDiv a b))) ∧
    (Issues s vat slot 0x28 c → WritesD (.frcp vat slot) s c (fun n => c.float n .ne (fun a _ _ => fvDiv (.fin false 1 0) a))) ∧
    (Issues s vat slot 0x29 c → WritesD (.fsqrt vat slot) s c (fun n => c.float n .ne (fun a _ _ => fvSqrt a))) ∧
    (Issues s vat slot 0x2A c → WritesD (.frsq vat slot) s c (fun n => c.float n .ne (fun a _ _ => fvRsqrt a))) ∧
    (Issues s vat slot 0x2B c → WritesD (.fexp2 vat slot) s c (fun n => c.float n .ne (fun a _ _ => fvExp2 a))) ∧
    (Issues s vat slot 0x2C c → WritesD (.flog2 vat slot) s c (fun n => c.float n .ne (fun a _ _ => fvLog2 a))) ∧
    (Issues s vat slot 0x2D c → WritesD (.fsin vat slot) s c (fun n => c.float n .ne (fun a _ _ => fvSin a))) ∧
    (Issues s vat slot 0x2E c → WritesD (.fcos vat slot) s c (fun n => c.float n .ne (fun a _ _ => fvCos a))) ∧
    (Issues s vat slot 0x2F c → WritesD (.fscale vat slot) s c (fun n => c.float n c.rnd (fun a _ _ => fvScale (max (-1024) (min 1024 (sext 32 (c.opB n)))) a))) ∧
    (Issues s vat slot 0x56 c → WritesD (.fkind vat slot) s c (fun n => kindBitOf (c.opA n) c.i.negA c.i.absA))

/-- The conversions, mask compares, moves and lane moves write D in each computing lane and change nothing else. -/
def Obligations.ConversionsMovesAndLaneMovesWriteD : Prop :=
  ∀ (s : State) (vat slot : Fin 64) (c : BCtx),
    (Issues s vat slot 0x40 c → WritesD (.cvt vat slot) s c (fun n => cvtVal c.i.ty c.i.sty (roundOf c.i.cvtRound) (c.opA n))) ∧
    (Issues s vat slot 0x41 c → WritesD (.f2f8 vat slot) s c (fun n => cvtFloat (fp8 c.i.cfmt) c.i.alt (fF32.decode (c.opA n % 2 ^ 32)))) ∧
    (Issues s vat slot 0x42 c → WritesD (.f82f vat slot) s c (fun n => cvtFloat fF32 false ((fp8 c.i.cfmt).decode (c.opA n % 256)))) ∧
    (Issues s vat slot 0x43 c → WritesD (.pk2h vat slot) s c (fun n => (tyFmt c.i.ty).encode (roundOf c.i.cvtRound) (fF32.decode (c.opA n % 2 ^ 32)) +
        2 ^ 16 * (tyFmt c.i.ty).encode (roundOf c.i.cvtRound) (fF32.decode (c.opB n % 2 ^ 32)))) ∧
    (Issues s vat slot 0x44 c → WritesD (.upk2h vat slot) s c (fun n => cvtFloat fF32 false ((tyFmt c.i.sty).decode (c.opA n / 2 ^ (16 * b2n c.i.alt) % 2 ^ 16)))) ∧
    (Issues s vat slot 0x45 c → WritesD (.inrw vat slot) s c (fun n => inrwVal c.i.ty c.i.sty c.i.cfmt (c.opA n))) ∧
    (Issues s vat slot 0x52 c → WritesD (.icmpm vat slot) s c (fun n => if c.icmp n then 2 ^ 32 - 1 else 0)) ∧
    (Issues s vat slot 0x53 c → WritesD (.fcmpm vat slot) s c (fun n => if c.fcmp n then 2 ^ 32 - 1 else 0)) ∧
    (Issues s vat slot 0x54 c → WritesD (.sel vat slot) s c (fun n => moveOut c.i.ty c.i.sat (if c.opC n % 2 = 1 then c.movA n else c.movB n))) ∧
    (Issues s vat slot 0x57 c → WritesD (.mov vat slot) s c (fun n => moveOut c.i.ty c.i.sat (c.movB n))) ∧
    (Issues s vat slot 0x67 c → WritesD (.rduni vat slot) s c (fun n => moveOut c.i.ty c.i.sat (c.movA n))) ∧
    (Issues s vat slot 0x58 c → WritesD (.pget vat slot) s c (fun n => maskOf ((List.range 8).filter (fun k => bitAt (c.q.preg k) n)))) ∧
    (Issues s vat slot 0x62 c → WritesD (.pmask vat slot) s c (fun _ => maskOf (c.lanes.filter (fun k => c.opC k % 2 = 1)))) ∧
    (Issues s vat slot 0x63 c → WritesD (.lget vat slot) s c (fun n => c.laneMove n (c.opB n % 32))) ∧
    (Issues s vat slot 0x64 c → WritesD (.lup vat slot) s c (fun n => c.laneMove n ((n + 32 - c.opB n % 32) % 32))) ∧
    (Issues s vat slot 0x65 c → WritesD (.ldown vat slot) s c (fun n => c.laneMove n ((n + c.opB n % 32) % 32))) ∧
    (Issues s vat slot 0x66 c → WritesD (.lflip vat slot) s c (fun n => c.laneMove n (n ^^^ c.opB n % 32)))

/-- The compares, the predicate logic and the votes write predicate D (a vote in every active lane), PSET writes p1 to p7 by
mask, and writes to p0 are discarded; nothing else changes. -/
def Obligations.ComparesAndVotesWritePredicates : Prop :=
  ∀ (s : State) (vat slot : Fin 64) (c : BCtx),
    (Issues s vat slot 0x50 c → WritesPred (.icmpp vat slot) s c c.lanes (fun n => combineVal c.i.combine (c.icmp n) (c.opC n % 2 = 1))) ∧
    (Issues s vat slot 0x51 c → WritesPred (.fcmpp vat slot) s c c.lanes (fun n => combineVal c.i.combine (c.fcmp n) (c.opC n % 2 = 1))) ∧
    (Issues s vat slot 0x55 c → WritesPred (.plog vat slot) s c c.lanes (fun n =>
        combineVal c.i.combine (bitAt (bits c.i.mod 12 9) (2 * (c.opA n % 2) + c.opB n % 2)) (c.opC n % 2 = 1))) ∧
    (Issues s vat slot 0x60 c → WritesPred (.pany vat slot) s c (bitIdx 32 c.q.active.toNat) (fun _ => c.lanes.any (fun k => c.opC k % 2 = 1))) ∧
    (Issues s vat slot 0x61 c → WritesPred (.pall vat slot) s c (bitIdx 32 c.q.active.toNat) (fun _ => c.lanes.all (fun k => c.opC k % 2 = 1))) ∧
    (Issues s vat slot 0x59 c → ∃ u q, exec (.pset vat slot) s = .next u ∧ u.quire c.vat c.slot = some q ∧ OnlyQuire s u c ∧
      (∀ k n, 0 < k → k < 8 → n < 32 → bitAt (q.preg k) n =
        if n ∈ c.lanes ∧ bitAt (c.opB n) k = true then bitAt (c.opA n) k else bitAt (c.q.preg k) n) ∧
      q = { c.q with pc := c.i.next, pr := q.pr })

/-- Control flow: NOP and a SAVEPT without a request move on; a branch of every active lane jumps, one of some lanes also
pushes the others; JMP and RET take the address of an s register, CALL leaves the next one in D; PUSHM and POPM move the
mask stack; YIELD exchanges the running path with the nearest pending one. -/
def Obligations.ControlFlowMovesTheQuire : Prop :=
  ∀ (s : State) (vat slot : Fin 64) (c : BCtx),
    (Issues s vat slot 0x70 c → QuireBecomes (.nop vat slot) s c { c.q with pc := c.i.next }) ∧
    (Issues s vat slot 0x71 c → ((c.mask = c.q.active → QuireBecomes (.bra vat slot) s c { c.q with pc := c.i.target }) ∧
      (c.mask ≠ c.q.active → c.q.stack.length < 32 → QuireBecomes (.bra vat slot) s c { c.q with
        stack := ⟨true, c.q.active &&& ~~~c.mask, c.i.next⟩ :: c.q.stack
        active := c.mask
        pc := c.i.target }))) ∧
    (Issues s vat slot 0x72 c → isStart c.l.mod.code false (c.q.sreg (c.i.a - 256)) = true →
      QuireBecomes (.jmp vat slot) s c { c.q with pc := c.q.sreg (c.i.a - 256) }) ∧
    (Issues s vat slot 0x74 c → isStart c.l.mod.code false (c.q.sreg (c.i.a - 256)) = true →
      QuireBecomes (.ret vat slot) s c { c.q with pc := c.q.sreg (c.i.a - 256) }) ∧
    (Issues s vat slot 0x73 c → ∃ u q, exec (.call vat slot) s = .next u ∧ u.quire c.vat c.slot = some q ∧ OnlyQuire s u c ∧ q.pc = c.i.target ∧
      q.sreg (c.i.d - 256) = c.i.next % 2 ^ 32 ∧ (∀ r, r ≠ c.i.d - 256 → q.sreg r = c.q.sreg r) ∧
      q = { c.q with pc := q.pc, s := q.s }) ∧
    (Issues s vat slot 0x75 c → c.q.stack.length < 32 → QuireBecomes (.pushm vat slot) s c { c.q with
      stack := ⟨false, c.q.active, c.i.target⟩ :: c.q.stack
      pc := c.i.next }) ∧
    (Issues s vat slot 0x76 c → c.q.stack ≠ [] → QuireBecomes (.popm vat slot) s c { c.q with stack := c.q.stack.tail, pc := c.i.next }) ∧
    (Issues s vat slot 0x79 c →
      (∀ top m a rest, c.q.stack = top ++ ⟨true, m, a⟩ :: rest → (∀ e ∈ top, e.pending = false) →
        QuireBecomes (.yield vat slot) s c
          { c.q with active := m, pc := a, stack := top ++ ⟨true, c.q.active, c.i.next⟩ :: rest }) ∧
      ((∀ e ∈ c.q.stack, e.pending = false) → QuireBecomes (.yield vat slot) s c { c.q with pc := c.i.next })) ∧
    (Issues s vat slot 0x7B c → QuireBecomes (.savept vat slot) s c { c.q with pc := c.i.next })

/-- Integer instructions. -/
def Obligations.IntegerInstructionsWriteD : Prop := IntegerArithmeticWritesD ∧ LogicShiftsAndFieldsWriteD

/-! ### BPC: lanes that end or wait, barriers, traps -/

namespace Sys2Proof.Claims

/-- A block whose quires are all live and hold no parked path, and that no thread has arrived in. -/
def Quiet (s : State) (vat b : Nat) : Prop :=
  (∀ blk, s.block vat b = some blk → blk.arrived = []) ∧
  ∀ e ∈ (s.vat vat).quiresOf b, e.2.live = true ∧ e.2.parked = []

/-- The only quire of its block, with every live lane on its one path. -/
def Alone (s : State) (c : BCtx) : Prop :=
  (s.vat c.vat).quiresOf c.q.block = [(c.slot, c.q)] ∧ c.q.parked = [] ∧ c.q.stack = [] ∧ c.q.trap = none ∧
  c.blk.arrived = [] ∧ c.blk.bred = [] ∧ c.q.active &&& c.q.exited = 0 ∧ c.q.idx < 32

/-- The block is gone from the vat with its quires, and its launch counts it as retired. -/
def BlockRetires (s u : State) (c : BCtx) : Prop :=
  u.block c.vat c.q.block = none ∧ (∀ n x, u.quire c.vat n = some x → x.block ≠ c.q.block) ∧
  (∀ n, (∀ x, s.quire c.vat n = some x → x.block ≠ c.q.block) → u.quire c.vat n = s.quire c.vat n) ∧
  (∃ l, u.launch c.blk.launch = some l ∧ l.retired = c.l.retired + 1 ∧ l.next = c.l.next ∧ l.total = c.l.total)

/-- What the handler of a quire's fault finds (R122): the quire at the handler, its s56 to s61 set, its place kept. -/
def EntersHandler (cmd : Instr) (s : State) (c : BCtx) (status next hd : Nat) : Prop :=
  QuireBecomes cmd s c (c.q.enterTrap status hd next ((s.vat c.vat).liveQuires c.q.block))

end Sys2Proof.Claims

/-- JOIN resumes the path that the stack holds; EXIT and DISCARD remove their lanes and the rest run on; the last lanes of a
block's only quire retire the block. -/
def Sys2Proof.Claims.LanesJoinAndExit : Prop :=
  ∀ (s : State) (vat slot : Fin 64) (c : BCtx),
    (Issues s vat slot 0x77 c → Quiet s vat c.q.block → unwindFrom c.q.exited c.i.next c.q.stack ≠ none →
      QuireBecomes (.join vat slot) s c (c.q.unwind c.i.next)) ∧
    (Issues s vat slot 0x78 c → Quiet s vat c.q.block → c.q.trap = none → c.q.active &&& ~~~c.mask ≠ 0 →
      QuireBecomes (.exit vat slot) s c { c.q with
        exited := c.q.exited ||| c.mask
        stack := c.q.stack.map (fun e => { e with mask := e.mask &&& ~~~(c.q.exited ||| c.mask) })
        active := c.q.active &&& ~~~c.mask
        pc := c.i.next }) ∧
    (Issues s vat slot 0x7A c → Quiet s vat c.q.block → c.q.trap = none → c.q.active &&& ~~~c.mask ≠ 0 →
      QuireBecomes (.discard vat slot) s c { c.q with
        exited := c.q.exited ||| c.mask
        stack := c.q.stack.map (fun e => { e with mask := e.mask &&& ~~~(c.q.exited ||| c.mask) })
        active := c.q.active &&& ~~~c.mask
        pc := c.i.next
        discarded := if c.l.isFragment then c.q.discarded ||| c.mask else c.q.discarded }) ∧
    (Issues s vat slot 0x78 c → Alone s c → c.mask = c.q.active → (s.vat vat).ops = [] → s.ownedLocks vat slot = [] →
      c.l.retired + 1 < c.l.total →
      ∃ u, exec (.exit vat slot) s = .next u ∧ BlockRetires s u c ∧ u.mem = s.mem)

/-- A barrier instruction records the arrival of its lanes: BWAIT and BRED park them, BPASS goes on; when every live thread
of the block has arrived they run on after it, and a BRED's count has reached D. -/
def Sys2Proof.Claims.BarriersArriveAndRelease : Prop :=
  ∀ (s : State) (vat slot : Fin 64) (c : BCtx), Alone s c →
    (Issues s vat slot 0x80 c → c.q.active &&& ~~~c.mask ≠ 0 →
      ∃ u, exec (.bwait vat slot) s = .next u ∧
        u.quire vat slot = some { c.q with
          parked := [⟨c.barrier, c.mask, c.i.next⟩], active := c.q.active &&& ~~~c.mask, pc := c.i.next } ∧
        u.block vat c.q.block = some { c.blk with arrived := [(32 * c.barrier + c.q.idx, c.mask)] } ∧
        CountersOnly s u vat) ∧
    (Issues s vat slot 0x80 c → c.mask = c.q.active → c.q.active = ~~~c.q.exited →
      ∃ u, exec (.bwait vat slot) s = .next u ∧ u.quire vat slot = some { c.q with pc := c.i.next } ∧
        (∃ b, u.block vat c.q.block = some b ∧ b.arrived = [] ∧ b.patience = 0) ∧ CountersOnly s u vat) ∧
    (Issues s vat slot 0x81 c → c.q.active ≠ ~~~c.q.exited →
      ∃ u, exec (.bpass vat slot) s = .next u ∧ u.quire vat slot = some { c.q with pc := c.i.next } ∧
        u.block vat c.q.block = some { c.blk with arrived := [(32 * c.barrier + c.q.idx, c.mask)] } ∧
        CountersOnly s u vat) ∧
    (Issues s vat slot 0x82 c → c.mask = c.q.active → c.q.active = ~~~c.q.exited → okind c.i.d = .v →
      ∃ u q, exec (.bred vat slot) s = .next u ∧ u.quire vat slot = some q ∧ q.pc = c.i.next ∧ q.active = c.q.active ∧
        q.parked = [] ∧ q.stack = [] ∧
        (∀ n ∈ c.lanes, q.vreg c.i.d n = popCount 32 (maskOf (c.lanes.filter (fun k => c.opC k % 2 = 1)))) ∧
        (∀ r n, n < 32 → ¬(r = c.i.d ∧ n ∈ c.lanes) → q.vreg r n = c.q.vreg r n))

/-- A fault of a quire whose launch takes traps enters its handler, with the status, the active lanes, the address and the
next address in s56 to s59; TRET returns to the address in s register A with what the entry kept. -/
def Sys2Proof.Claims.FaultsEnterTheHandler : Prop :=
  ∀ (s : State) (vat slot : Fin 64) (c : BCtx) (hd : Nat),
    (c.l.mod.handler = some hd → c.l.trap = true → c.q.trap = none →
      (Issues s vat slot 0xD0 c → EntersHandler (.trap vat slot) s c (0x120B0000 + c.i.mod % 65536) c.i.next hd) ∧
      (s.live = true → s.ready vat slot = some (c.q, c.blk, c.l) → decodeInst c.l.mod.code c.q.pc = some c.i →
        c.vat = vat → c.slot = slot → execLanes c.q c.i ≠ 0 → legal c.i = false → (s.vat vat).preempt = [] →
        EntersHandler (.illegalInstruction vat slot) s c (0x12010000 + c.i.op % 256 * 256) c.i.next hd) ∧
      (s.live = true → s.ready vat slot = some (c.q, c.blk, c.l) → c.l.mod.code.length ≤ c.q.pc →
        c.vat = vat → c.slot = slot →
        EntersHandler (.codeEndOverrun vat slot) s c 0x12010000 c.q.pc hd)) ∧
    (∀ status next live, let q := c.q.enterTrap status hd next live
      q.pc = hd ∧ q.sreg 56 = status % 2 ^ 32 ∧ q.sreg 57 = c.q.active.toNat ∧ q.sreg 58 = c.q.pc % 2 ^ 32 ∧
        q.sreg 59 = next % 2 ^ 32) ∧
    (∀ t, Issues s vat slot 0xD1 c → c.q.trap = some t → isStart c.l.mod.code false (c.q.sreg (c.i.a - 256)) = true →
      t.status / 65536 % 256 ≠ 3 → t.status / 65536 % 256 ≠ 4 →
      ∃ u, exec (.tret vat slot) s = .next u ∧
        u.quire vat slot = some (c.q.leaveTrap t (c.q.sreg (c.i.a - 256))) ∧
        u.block vat c.q.block = some { c.blk with handler := none } ∧ CountersOnly s u vat)

/-- A handler's TRETIRE retires its block; its TESC, or a fault that no handler takes, is recorded in the vat's fault
registers, holds the quire and tears the partition down. A block whose patience ends with a parked thread faults with
the lowest identifier. -/
def Sys2Proof.Claims.HandlersEndAndFaultsTearDown : Prop :=
  ∀ (s : State) (vat slot : Fin 64) (c : BCtx) (t : TrapSave),
    (Issues s vat slot 0xD2 c → c.q.trap = some t → (∀ e ∈ (s.vat vat).quires, s.ownedLocks vat e.1 = []) →
      c.l.retired + 1 < c.l.total →
      ∃ u, exec (.tretire vat slot) s = .next u ∧ BlockRetires s u c ∧ u.mem = s.mem) ∧
    (c.l.p < 32 → (∀ r, s.part c.l.p = some r → r.home = s.pos) → s.homed c.l.p = true →
      s.rd .VAT_FAULT_WHO_VALID vat = 0 →
      s.rd .SCH_FAULT_CTRL_FAULTED c.l.p = 0 → s.rd .HB_RECLAIM_RUNNING c.l.p = 0 →
      (Issues s vat slot 0xD3 c → c.q.trap = some t → blockScope t.status = false → t.status < 2 ^ 32 →
        ∃ u, exec (.tesc vat slot) s = .next u ∧ u.quire vat slot = some { c.q with wait := .held } ∧
          u.rd .VAT_FAULT_WHO_VALID vat = 1 ∧ u.rd .VAT_FAULT_STATUS_STATUS vat = t.status ∧
          u.rd .SCH_FAULT_CTRL_FAULTED c.l.p = 1 ∧ u.rd .SCH_FAULT_STATUS c.l.p = t.status ∧
          ∃ x ∈ u.hb.stops, x.cause = .fault c.l.p) ∧
      (Issues s vat slot 0xD0 c → c.l.mod.handler = none →
        ∃ u, exec (.trap vat slot) s = .next u ∧ u.quire vat slot = some { c.q with wait := .held } ∧
          u.rd .VAT_FAULT_WHO_VALID vat = 1 ∧ u.rd .VAT_FAULT_STATUS_STATUS vat = 0x120B0000 + c.i.mod % 65536 ∧
          u.rd .SCH_FAULT_CTRL_FAULTED c.l.p = 1 ∧ ∃ x ∈ u.hb.stops, x.cause = .fault c.l.p)) ∧
    (∀ (block : Fin 64) (b : Block) (l : Launch) (q : Quire) (hd id : Nat), s.live = true → s.block vat block = some b →
      s.launch b.launch = some l → l.mod.handler = some hd → l.trap = true →
      ((s.vat vat).parkedIds block).head? = some id → (s.vat vat).firstLive block = some (slot.val, q) →
      s.quire vat slot = some q → q.block = block → q.trap = none →
      ∃ u q', exec (.blockPatienceExpiry vat block) s = .next u ∧ u.quire vat slot = some q' ∧ q'.pc = hd ∧
        q'.sreg 56 = 0x12040000 + id ∧ (∃ b', u.block vat block = some b' ∧ b'.handler = some slot.val) ∧
        u.regs = s.regs ∧ u.mem = s.mem)

/-- Lanes join, exit and meet at barriers. -/
def Obligations.LanesJoinExitAndMeet : Prop := LanesJoinAndExit ∧ BarriersArriveAndRelease

/-- Faults, handlers and teardown. -/
def Obligations.FaultsAndHandlers : Prop := FaultsEnterTheHandler ∧ HandlersEndAndFaultsTearDown

/-! ### BPC: memory, atomics, sync objects, heap, tensors -/

namespace Sys2Proof.Claims

/-- The state in which an issued instruction acts: its issue is counted and the register cache has seen its registers. -/
def Counted (s : State) (c : BCtx) : State := (s.count .VAT_ISSUED_COUNT 1 c.vat).rcStep c

/-- The order of two patterns, signed or unsigned. -/
def typedLt (sgn : Bool) (w x y : Nat) : Bool := if sgn then decide (sext w x < sext w y) else decide (x < y)

/-- An atomic of one lane k on its block's local store: the bytes at its address become `f old B C` of its width, D takes
the old value unless NORET is set, and nothing else changes. -/
def AtomicLocal (cmd : Instr) (s : State) (c : BCtx) (f : Nat → Nat → Nat → Nat) : Prop :=
  ∀ k, let w := if c.i.size2 = 3 then 64 else 32
    c.doers = [k] → c.i.space = 1 → c.memFault (w / 8) = none →
    let old := ofLe (c.blk.press 1 (c.addr k) (w / 8))
    ∃ u q b, exec cmd s = .next u ∧ u.quire c.vat c.slot = some q ∧ u.block c.vat c.q.block = some b ∧
      (c.i.bit10 = false → DWritten c q (fun _ => old)) ∧ (c.i.bit10 = true → q = { c.q with pc := c.i.next }) ∧
      (∀ a, b.press 1 a 1 = if c.addr k ≤ a ∧ a < c.addr k + w / 8
        then [(toLe (w / 8) (f old (c.opB k) (c.opC k) % 2 ^ w)).getD (a - c.addr k) 0] else c.blk.press 1 a 1) ∧
      b = { c.blk with loc := b.loc } ∧ CountersOnly s u c.vat ∧ u.mem = s.mem

/-- A sync instruction of one lane k on an object of this chip that the partition may use, with no wait registered. -/
structure SyncLane (s : State) (vat slot : Fin 64) (op : Nat) (c : BCtx) (k h : Nat) : Prop where
  issues : Issues s vat slot op c
  one : c.doers = [k]
  obj : c.opA k = h
  small : h < 16384
  may : s.synMay c.l.p op h = true
  here : s.homeOf c.l.p = s.pos
  stores : s.storesOut vat slot = false
  noWaits : s.sync.waits = [] ∧ s.sync.lockq = []
  noArms : NoArms s

end Sys2Proof.Claims

/-- LD writes D with the loaded value, zero- or sign-extended: from the block's press, or from global memory or the
constant bank once every byte has been read; ST writes its bytes to the block's press, or to global memory. -/
def Obligations.LoadsAndStores : Prop :=
  ∀ (s s1 : State) (vat slot : Fin 64) (c : BCtx) (vals : List (Nat × Nat)) (k : Nat),
    (Issues s vat slot 0x90 c → c.i.space = 1 ∨ c.i.space = 2 → c.memFault (2 ^ c.i.size3) = none →
      WritesD (.ld vat slot) s c (fun n =>
        loadValue (2 ^ c.i.size3) c.i.bit10 (ofLe (c.blk.press c.i.space (c.addr n) (2 ^ c.i.size3))))) ∧
    (Issues s vat slot 0x90 c → c.i.space = 0 ∨ c.i.space = 3 → c.memFault (2 ^ c.i.size3) = none →
      c.readLanes (if c.i.memOrder = 1 then (Counted s c).dropL1 vat else Counted s c)
        (if c.i.space = 3 then 2 else c.i.cache)
        (if c.i.space = 3 then c.constAccs (2 ^ c.i.size3) else c.accs (2 ^ c.i.size3)) = (s1, .ok vals) →
      (s1.vat vat).preempt = [] →
      ∃ q, exec (.ld vat slot) s = .next (s1.setQuire vat slot q) ∧ DWritten c q (fun n =>
        loadValue (2 ^ c.i.size3) c.i.bit10 (((vals.find? (fun v => v.1 = n)).map (·.2)).getD 0))) ∧
    (Issues s vat slot 0x91 c → c.i.space = 1 ∨ c.i.space = 2 → c.memFault (2 ^ c.i.size3) = none → c.doers = [k] →
      ∃ u b, exec (.st vat slot) s = .next u ∧ u.quire vat slot = some { c.q with pc := c.i.next } ∧
        u.block vat c.q.block = some b ∧
        (∀ a, b.press c.i.space a 1 = if c.addr k ≤ a ∧ a < c.addr k + 2 ^ c.i.size3
          then [(toLe (2 ^ c.i.size3) (c.opB k)).getD (a - c.addr k) 0] else c.blk.press c.i.space a 1) ∧
        (∀ sp a, 1 ≤ sp → sp ≤ 3 → sp ≠ c.i.space → b.press sp a 1 = c.blk.press sp a 1) ∧
        CountersOnly s u vat ∧ u.mem = s.mem) ∧
    (Issues s vat slot 0x91 c → c.i.space = 0 → c.memFault (2 ^ c.i.size3) = none →
      c.globally (Counted s c) rightW (c.accs (2 ^ c.i.size3))
        (fun s x a => c.storeOne s x a.va (toLe (2 ^ c.i.size3) (c.opB a.lane))) = (s1, .ok vals) →
      (s1.vat vat).preempt = [] →
      exec (.st vat slot) s = .next (s1.setQuire vat slot { c.q with pc := c.i.next }))

/-- MORDER waits for the quire's tensor instructions; without any it moves on, and from scope VAT up it drops the vat's L1
lines, as L1INV does; PREFETCH moves on and changes no work. -/
def Obligations.OrderingAndPrefetch : Prop :=
  ∀ (s : State) (vat slot : Fin 64) (c : BCtx),
    (Issues s vat slot 0x92 c → (s.vat vat).inBeater slot = true →
      ∃ u, exec (.morder vat slot) s = .next u ∧ u.quire vat slot = some { c.q with wait := .order } ∧ u.mem = s.mem) ∧
    (Issues s vat slot 0x92 c → (s.vat vat).inBeater slot = false → bits c.i.mod 1 0 = 0 →
      QuireBecomes (.morder vat slot) s c { c.q with pc := c.i.next }) ∧
    (Issues s vat slot 0x92 c → (s.vat vat).inBeater slot = false → 1 ≤ bits c.i.mod 1 0 →
      s.storesOut vat slot = false →
      ∃ u, exec (.morder vat slot) s = .next u ∧ u.quire vat slot = some { c.q with pc := c.i.next } ∧
        (u.vat vat).l1 = [] ∧ CountersOnly s u vat ∧ u.mem = s.mem) ∧
    (Issues s vat slot 0x94 c →
      ∃ u, exec (.l1inv vat slot) s = .next u ∧ u.quire vat slot = some { c.q with pc := c.i.next } ∧
        (u.vat vat).l1 = [] ∧ (∀ v, v ≠ vat.val → u.vat v = s.vat v) ∧ CountersOnly s u vat ∧ u.mem = s.mem) ∧
    (Issues s vat slot 0x93 c →
      ∃ u, exec (.prefetch vat slot) s = .next u ∧ u.quire vat slot = some { c.q with pc := c.i.next } ∧
        u.launches = s.launches ∧ u.hb = s.hb ∧ u.sync = s.sync)

/-- Each atomic of one lane on the local store leaves its own function of the old value and its operands, and returns the
old value; one on global memory ends with D holding each lane's old value when its accesses are done. -/
def Obligations.AtomicsReturnTheOldValue : Prop :=
  ∀ (s s1 s2 s3 : State) (vat slot : Fin 64) (c : BCtx) (vals : List (Nat × Nat)) (cmd : Instr) (op : Nat),
    let sgn := bitAt c.i.mod 3
    let w := if c.i.size2 = 3 then 64 else 32
    (Issues s vat slot 0xA0 c → AtomicLocal (.atomAdd vat slot) s c (fun old b _ => old + b)) ∧
    (Issues s vat slot 0xA1 c → AtomicLocal (.atomAnd vat slot) s c (fun old b _ => old &&& b)) ∧
    (Issues s vat slot 0xA2 c → AtomicLocal (.atomOr vat slot) s c (fun old b _ => old ||| b)) ∧
    (Issues s vat slot 0xA3 c → AtomicLocal (.atomXor vat slot) s c (fun old b _ => old ^^^ b)) ∧
    (Issues s vat slot 0xA4 c → AtomicLocal (.atomMin vat slot) s c (fun old b _ => if typedLt sgn w b old then b else old)) ∧
    (Issues s vat slot 0xA5 c → AtomicLocal (.atomMax vat slot) s c (fun old b _ => if typedLt sgn w old b then b else old)) ∧
    (Issues s vat slot 0xA6 c → AtomicLocal (.atomExch vat slot) s c (fun _ b _ => b)) ∧
    (Issues s vat slot 0xA7 c → AtomicLocal (.atomCas vat slot) s c (fun old b x => if old = b then x else old)) ∧
    (Issues s vat slot 0xA8 c → AtomicLocal (.atomInc vat slot) s c (fun old b _ => if typedLt sgn w old b then old + 1 else b)) ∧
    (Issues s vat slot 0xA9 c → AtomicLocal (.atomDec vat slot) s c (fun old b _ => if typedLt sgn w b old then old + 2 ^ w - 1 else b)) ∧
    (Issues s vat slot 0xAA c → AtomicLocal (.atomFadd vat slot) s c (fun old b _ => f32Add old b)) ∧
    (bpcOp cmd = some (vat, slot, op) → 0xA0 ≤ op → op ≤ 0xAA → Issues s vat slot op c → c.i.space = 0 →
      c.i.atmOrder = 0 → c.memFault (w / 8) = none →
      (Counted s c).footprints (vatAsker vat c.l.p) c.owner c.l.p (laneRanges (c.accs (w / 8)) (rightR + rightW)) =
        (s1, .ok ()) →
      (∃ x, runLanes (fun s a => match s.translate (vatAsker vat c.l.p) c.owner c.l.p a.va (rightR + rightW) with
        | (s2, .error e) => (s2, .error e)
        | (s2, .ok x) => c.atomAsk s2 x a) s1 (c.accs (w / 8)) = (s2, .ok (), x)) →
      c.globally s2 (rightR + rightW) (c.accs (w / 8)) (fun s x a => c.atomOne s x a) = (s3, .ok vals) →
      (s3.vat vat).preempt = [] →
      exec cmd s = .next (s3.setQuire vat slot { (if c.i.bit10 then c.q else c.writeD vals) with pc := c.i.next }))

/-- The sync instructions of a lane on an object of this chip: SIGNAL raises a fence, ADD adds a signed addend to a counter
and returns its old value, READ returns the value, WAIT is satisfied or waits, a free lock is acquired and an owned one
freed, and an arrival is counted, the last one moving the phase on. -/
def Obligations.SyncInstructionsAct : Prop :=
  ∀ (s : State) (vat slot : Fin 64) (c : BCtx) (k h : Nat),
    (SyncLane s vat slot 0xB0 c k h →
      ∃ u, exec (.synSignal vat slot) s = .next u ∧ u.quire vat slot = some { c.q with pc := c.i.next } ∧
        u.rd .SYN_OBJ_VALUE h = max (s.rd .SYN_OBJ_VALUE h) (c.opB k) % 2 ^ 64 ∧ u.mem = s.mem) ∧
    (SyncLane s vat slot 0xB1 c k h →
      ∃ u q, exec (.synAdd vat slot) s = .next u ∧ u.quire vat slot = some q ∧
        DWritten c q (fun _ => s.rd .SYN_OBJ_VALUE h) ∧
        u.rd .SYN_OBJ_VALUE h = wrapN 64 (s.rd .SYN_OBJ_VALUE h + sext 32 (c.opB k % 2 ^ 32)) ∧ u.mem = s.mem) ∧
    (SyncLane s vat slot 0xB2 c k h → s.rd .SYN_OBJ_STATE h = 0 → c.opB k ≤ s.rd .SYN_OBJ_VALUE h →
      ∃ u q, exec (.synWait vat slot) s = .next u ∧ u.quire vat slot = some q ∧ DWritten c q (fun _ => 0) ∧
        (u.vat vat).l1 = [] ∧ CountersOnly s u vat ∧ u.mem = s.mem) ∧
    (SyncLane s vat slot 0xB2 c k h → s.rd .SYN_OBJ_STATE h = 0 → s.rd .SYN_OBJ_VALUE h < c.opB k →
      ∃ u, exec (.synWait vat slot) s = .next u ∧ u.quire vat slot = some { c.q with pc := c.i.next, wait := .sync } ∧
        (∃ w, u.sync.waits = [w] ∧ w.obj = h ∧ w.threshold = c.opB k ∧ w.who = .lane vat slot k c.i.d ∧ w.notice = none) ∧
        u.mem = s.mem) ∧
    (SyncLane s vat slot 0xB3 c k h → s.rd .SYN_OBJ_TYPE h ≠ 2 →
      WritesD (.synRead vat slot) s c (fun _ => s.rd .SYN_OBJ_VALUE h)) ∧
    (SyncLane s vat slot 0xB4 c k h → s.lockOwner h = none →
      ∃ u q, exec (.lockAcq vat slot) s = .next u ∧ u.quire vat slot = some q ∧ DWritten c q (fun _ => 0) ∧
        u.lockOwner h = some (s.pos * 2 ^ 17 + vat.val * 2 ^ 11 + slot.val * 2 ^ 5 + k) ∧ (u.vat vat).l1 = [] ∧
        u.mem = s.mem) ∧
    (SyncLane s vat slot 0xB5 c k h → s.lockOwner h = some (s.pos * 2 ^ 17 + vat.val * 2 ^ 11 + slot.val * 2 ^ 5 + k) →
      ∃ u, exec (.lockRel vat slot) s = .next u ∧ u.quire vat slot = some { c.q with pc := c.i.next } ∧
        u.lockOwner h = none ∧ u.mem = s.mem) ∧
    (SyncLane s vat slot 0xB6 c k h → s.rd .SYN_OBJ_VALUE h < 2 ^ 64 → s.rd .SYN_OBJ_AUX h < 2 ^ 32 →
      (s.rd .SYN_OBJ_VALUE h % 2 ^ 32 + 1 < s.rd .SYN_OBJ_AUX h →
        ∃ u, exec (.synArrive vat slot) s = .next u ∧ u.quire vat slot = some { c.q with pc := c.i.next, wait := .sync } ∧
          u.rd .SYN_OBJ_VALUE h = s.rd .SYN_OBJ_VALUE h + 1 ∧ u.mem = s.mem) ∧
      (s.rd .SYN_OBJ_VALUE h % 2 ^ 32 + 1 = s.rd .SYN_OBJ_AUX h →
        ∃ u q, exec (.synArrive vat slot) s = .next u ∧ u.quire vat slot = some q ∧ DWritten c q (fun _ => 0) ∧
          u.rd .SYN_OBJ_VALUE h = (s.rd .SYN_OBJ_VALUE h / 2 ^ 32 + 1) % 2 ^ 32 * 2 ^ 32 ∧ u.mem = s.mem)) ∧
    (Issues s vat slot 0xB7 c → s.storesOut vat slot = false → c.l.p < 32 → s.homed c.l.p = true →
      s.rd .EVQ_CTRL_EN (s.driverTarget c.l.p) = 0 →
      ∃ u, exec (.synEvent vat slot) s = .next u ∧ u.quire vat slot = some { c.q with pc := c.i.next } ∧
        kindBit (u.rd .EVQ_PEND_PEND (s.driverTarget c.l.p)) 2 = true ∧ u.mem = s.mem)

/-- HALLOC of one lane returns the address of a block that was free, which is then live in its class; a size that no class
holds, or an exhausted heap, returns 0 and counts FAILED. HFREE of a live block frees it; of address 0 it does nothing. -/
def Obligations.HeapBlocks : Prop :=
  ∀ (s : State) (vat slot : Fin 64) (c : BCtx) (k n : Nat), c.l.p < 32 →
    (Issues s vat slot 0xC8 c → c.doers = [k] → heapClass (c.opA k) = some n →
      (s.heap c.l.p).freeBlocks (s.addrOf .HB_HEAP_BASE_ADDR c.l.p) n ≠ [] →
      ∃ u q a, exec (.halloc vat slot) s = .next u ∧ u.quire vat slot = some q ∧ DWritten c q (fun _ => a) ∧
        a ∈ (s.heap c.l.p).freeBlocks (s.addrOf .HB_HEAP_BASE_ADDR c.l.p) n ∧
        (∀ x, storeFind (u.heap c.l.p).live x = if x = a then some n else storeFind (s.heap c.l.p).live x) ∧
        (u.heap c.l.p).slabs = (s.heap c.l.p).slabs ∧ CountersOnly s u vat ∧ u.mem = s.mem) ∧
    (Issues s vat slot 0xC8 c → c.doers = [k] → heapClass (c.opA k) = none →
      ∃ u q, exec (.halloc vat slot) s = .next u ∧ u.quire vat slot = some q ∧ DWritten c q (fun _ => 0) ∧
        u.rd .HB_HEAP_STAT_FAILED c.l.p = (s.count .HB_HEAP_STAT_FAILED 1 c.l.p).rd .HB_HEAP_STAT_FAILED c.l.p ∧
        u.heaps = s.heaps ∧ u.mem = s.mem) ∧
    (Issues s vat slot 0xC9 c → c.lanes = [k] → c.opA k ≠ 0 → storeFind (s.heap c.l.p).live (c.opA k) = some n →
      ∃ u, exec (.hfree vat slot) s = .next u ∧ u.quire vat slot = some { c.q with pc := c.i.next } ∧
        (∀ x, storeFind (u.heap c.l.p).live x = if x = c.opA k then none else storeFind (s.heap c.l.p).live x) ∧
        CountersOnly s u vat ∧ u.mem = s.mem) ∧
    (Issues s vat slot 0xC9 c → c.lanes = [k] → c.opA k = 0 →
      QuireBecomes (.hfree vat slot) s c { c.q with pc := c.i.next })

/-- Tensor instructions enter the beater in issue order: a TLD binds its tile and enters with its descriptor, a TMMA on a
held set and a TST enter, a TCVT behind other work enters; an acquisition with free sets is granted in order, binding
the sets to the quire's handles. -/
def Sys2Proof.Claims.TensorInstructionsEnterTheBeater : Prop :=
  ∀ (s s1 : State) (vat slot : Fin 64) (c : BCtx) (d : List Byte) (x y : Tile) (set : Nat) (o : BeatOp) (os : List BeatOp),
    c.tensorMode = false → (s1.vat vat).preempt = [] →
    (Issues s vat slot 0xC0 c → c.q.spair (c.i.a - 256) % 128 = 0 →
      c.descriptor (Counted s c) (c.q.spair (c.i.a - 256)) = (s1, .ok d) →
      tldRefusal d c.origin.2 c.l.bbytes (c.q.handle (c.i.d - 328)) = none → dMisaligned d = false →
      ∃ u, exec (.tld vat slot) s = .next u ∧
        (u.vat vat).ops = (s1.vat vat).ops ++ [.tld slot d c.origin.1 c.origin.2] ∧
        (∃ q, u.quire vat slot = some q ∧ q.pc = c.i.next ∧
          q.handle (c.i.d - 328) = .tile (dF d 26 1) (dF d 25 1) (dF d 28 4) (dF d 32 4) ∧
          ∀ h, h ≠ c.i.d - 328 → q.handle h = c.q.handle h) ∧ u.mem = s1.mem) ∧
    (Issues s vat slot 0xC1 c → c.i.acq = 0 → (c.q.handle (c.i.a - 328)).asTile = some x →
      (c.q.handle (c.i.b - 328)).asTile = some y → x.role = 0 → y.role = 1 → x.k = y.k →
      c.q.handle (c.i.d - 328) = .acc set → bitAt c.i.mod 2 = true →
      ∃ u, exec (.tmma vat slot) s = .next u ∧ u.quire vat slot = some { c.q with pc := c.i.next } ∧
        (u.vat vat).ops = (s.vat vat).ops ++
          [.tmma slot set (c.q.handle (c.i.a - 328)) (c.q.handle (c.i.b - 328)) true 0] ∧ CountersOnly s u vat) ∧
    (Issues s vat slot 0xC1 c → c.i.acq = 1 → (c.q.handle (c.i.a - 328)).asTile = some x →
      (c.q.handle (c.i.b - 328)).asTile = some y → x.role = 0 → y.role = 1 → x.k = y.k →
      c.q.t.any (fun e => e.2.isAcc) = false → (s.vat vat).acqq ≠ [] →
      ∃ u, exec (.tmma vat slot) s = .next u ∧ u.quire vat slot = some { c.q with wait := .acq 1 } ∧
        (u.vat vat).acqq = (s.vat vat).acqq ++ [⟨slot, c.i.d - 328, 1⟩] ∧ (u.vat vat).ops = (s.vat vat).ops) ∧
    (Issues s vat slot 0xC2 c → c.q.handle (c.i.a - 328) = .acc set → c.q.spair (c.i.b - 256) % 128 = 0 →
      c.descriptor (Counted s c) (c.q.spair (c.i.b - 256)) = (s1, .ok d) →
      tstRefusal d c.origin.2 (((s1.vat vat).kindAt set).getD false) = none →
      (dFlag d 3 = true ∨ (dMisaligned d = false ∧ (dFlag d 1 = false ∨ dF d 40 8 % 4 = 0))) → bitAt c.i.mod 0 = false →
      ∃ u, exec (.tst vat slot) s = .next u ∧ u.quire vat slot = some { c.q with pc := c.i.next } ∧
        (u.vat vat).ops = (s1.vat vat).ops ++ [.tst slot set d c.origin.1 c.origin.2 false] ∧ u.mem = s1.mem) ∧
    (Issues s vat slot 0xC3 c → (c.q.handle (c.i.a - 328)).asTile = some x → fmtOperand (bits c.i.mod 12 9) = true →
      loadOk x.fmt (bits c.i.mod 12 9) = true → c.q.sreg (c.i.b - 256) % 256 = 0 →
      c.q.sreg (c.i.b - 256) + tileBytes (bits c.i.mod 12 9) x.k ≤ c.l.bbytes →
      x.buf + tileBytes x.fmt x.k ≤ c.q.sreg (c.i.b - 256) → (c.q.handle (c.i.d - 328)).isAcc = false →
      (s.vat vat).ops = o :: os → (∀ a b d e, o ≠ .tcvt a b d e) →
      ∃ u, exec (.tcvt vat slot) s = .next u ∧
        (u.vat vat).ops = (o :: os) ++ [.tcvt slot (c.q.handle (c.i.a - 328))
          (.tile x.role (bits c.i.mod 12 9) x.k (c.q.sreg (c.i.b - 256))) (bitAt c.i.mod 8)] ∧ CountersOnly s u vat) ∧
    (∀ (r : AcqReq) (q : Quire) (b : Block) (l : Launch) (i : BInst), s.live = true → (s.vat vat).acqq = [r] → r.n = 1 →
      (s.vat vat).freeSets = [0, 1] → s.quire vat r.slot = some q → s.block vat q.block = some b →
      s.launch b.launch = some l → decodeInst l.mod.code q.pc = some i →
      ∃ u q', exec (.accSetGrant vat) s = .next u ∧ (u.vat vat).acqq = [] ∧ u.quire vat r.slot = some q' ∧
        q'.handle r.h = .acc 0 ∧ q'.pc = i.next ∧ q'.wait = .run ∧
        ((u.vat vat).set 0).owner = some (r.slot, r.h) ∧ ((u.vat vat).set 0).els = [] ∧ u.mem = s.mem ∧ u.regs = s.regs)

/-- The beater performs its oldest instruction: a TMMA pass accumulates 64 products of K into every element and the next
pass follows; a TLD whose rows have been read stages the converted elements; a TST whose reads and writes have
succeeded leaves the beater, and its releasing form frees the set. -/
def Sys2Proof.Claims.BeaterPerformsTheOldest : Prop :=
  ∀ (s s1 s2 s3 : State) (vat slot : Fin 64) (b : Block) (bi : Nat) (l : Launch) (q : Quire) (rest : List BeatOp),
    s.live = true → s.quire vat slot = some q → s.block vat q.block = some b → s.launch b.launch = some l → bi = q.block → l.p < 32 →
    (∀ set ha hb clear pass x y, (s.vat vat).ops = .tmma slot set ha hb clear pass :: rest → ha.asTile = some x →
      hb.asTile = some y → 64 * (pass + 1) < x.k →
      ∃ u, exec (.tmmaPassStart vat) s = .next u ∧
        (u.vat vat).ops = .tmma slot set ha hb clear (pass + 1) :: rest ∧
        ((u.vat vat).set set).els = passEls x y (b.tileElems x) (b.tileElems y)
          (if clear ∧ pass = 0 then [] else ((s.vat vat).set set).els) pass ∧
        ((u.vat vat).set set).int = intPath x.fmt y.fmt ∧ u.mem = s.mem ∧ u.block vat bi = some b ∧
        u.rd .VAT_TPASSES_COUNT vat = (s.count .VAT_TPASSES_COUNT 1 vat).rd .VAT_TPASSES_COUNT vat) ∧
    (∀ d row col bss, (s.vat vat).ops = [.tld slot d row col] → 0 < (tldShape d row col).2.2.2 →
      s.footprints (beaterAsker vat l.p) (.beater vat) l.p (sortRanges (((List.range (tldShape d row col).2.2.1).map
        (fun r => rowSpan d (row + r) col (tldShape d row col).2.2.2)).map (fun x => (x.1, x.2, rightR)))) = (s1, .ok ()) →
      s1.vReadList (beaterAsker vat l.p) (.beater vat) l.p ((List.range (tldShape d row col).2.2.1).map
        (fun r => rowSpan d (row + r) col (tldShape d row col).2.2.2)) = (s2, .ok bss) →
      Quiet s2 vat bi → (s2.vat vat).preempt = [] → (s2.vat vat).ops = [.tld slot d row col] →
      s2.quire vat slot = some q → s2.block vat bi = some b →
      ∃ u b', exec (.tldDataArrival vat) s = .next u ∧ (u.vat vat).ops = [] ∧ u.mem = s2.mem ∧ u.regs = s2.regs ∧
        u.block vat bi = some b' ∧ b' = b.setPress 3 (dF d 32 4) (packElems (dF d 25 1)
          ((List.range (tldShape d row col).1).flatMap (fun r => (List.range (tldShape d row col).2.1).map (fun c =>
            if r < (tldShape d row col).2.2.1 ∧ c < (tldShape d row col).2.2.2 then
              loadConv (dF d 24 1) (dF d 25 1) (dFlag d 0) (elemAt (dF d 24 1) (bss.getD r []) c) else 0))))) ∧
    (∀ set d row col rel, (s.vat vat).ops = [.tst slot set d row col rel] → dFlag d 1 = false → dFlag d 3 = false →
      dFlag d 4 = false → dF d 24 1 ≠ 0 →
      s.footprints (beaterAsker vat l.p) (.beater vat) l.p
        (sortRanges ((tstSpans d row col).map (fun x => (x.1, x.2, rightW)))) = (s1, .ok ()) →
      s1.vWriteList (beaterAsker vat l.p) (.beater vat) l.p (tstWrites d row col ((s.vat vat).set set).int
        ((List.range 4096).map (fun i => ((s.vat vat).set set).els.getD i 0)) (scalesOf (tstShape d row col).2 []) []) =
        (s3, .ok ()) →
      Quiet s3 vat bi → (s3.vat vat).preempt = [] → (s3.vat vat).ops = [.tst slot set d row col rel] →
      s3.quire vat slot = some q → s3.block vat bi = some b →
      ∃ u, exec (.tstSetRead vat) s = .next u ∧ (u.vat vat).ops = [] ∧ u.mem = s3.mem ∧ u.regs = s3.regs ∧
        (rel = true → storeFind (u.vat vat).sets set = none) ∧ (rel = false → (u.vat vat).sets = (s3.vat vat).sets))

/-- Tensor instructions enter the beater, which performs them in order. -/
def Obligations.TensorInstructionsRun : Prop := TensorInstructionsEnterTheBeater ∧ BeaterPerformsTheOldest

/-! ### Geometry and calender -/

/-- BIN_BEGIN inside an open pass is refused with NESTING and shown in GEO_REFUSE; one that is in order opens a pass whose
head table is empty. A DRAW without a pass is refused; one with vertices joins its pass with a launch of one thread for
each vertex. A BIN_END of a pass that has nothing left to bin sends its tiles to rendering. -/
def Sys2Proof.Claims.PassesOpenDrawAndEnd : Prop :=
  ∀ (s s1 s2 s3 : State) (p : Fin 32) (q : Fin 16) (c : Cmd) (x : Pass) (r : PartRec) (d : List Byte) (v : Launch)
    (ids : List Nat), c.p < 32 →
    (AtHead s p q 0x10 c → (s.openPassOf c.p c.q).isSome = true →
      ∃ u, exec (.binBegin (.queue p q)) s = .next u ∧
        u.cmd c.id = some { c with phase := .handed, result := some 0x13200109 } ∧ u.rd .GEO_REFUSE_VALID c.p = 1 ∧
        u.geo.passes = s.geo.passes ∧ u.mem = s.mem) ∧
    (AtHead s p q 0x10 c → s.openPassOf c.p c.q = none → s.geo.passes.any (fun x => x.p = c.p && x.phase ≠ .rendering) = false →
      s.part c.p = some r → r.poolClass ≠ 0 → s.rd .GEO_POOL_BASE_ADDR c.p ≠ 0 →
      s.vRead (geoAsker c.p) (.cmd c.id) c.p (c.dword 1) 320 = (s1, .ok d) →
      passRefusal d (r.split.getD 2 0 * 131072) ((s1.partVats c.p).any (fun v => v.1 = s1.passChip c.p d)) = none →
      s1.passChip c.p d = s1.pos →
      s1.geoWrites c.p (s1.newPass c d (poolBytes r.poolClass) false).openWrites = (s2, .ok ()) → s2.cmd c.id = some c →
      ∃ u y, exec (.binBegin (.queue p q)) s = .next u ∧ HandedOk u c ∧ u.geo.passes = s2.geo.passes ++ [y] ∧
        y.cmd = c.id ∧ y.p = c.p ∧ y.q = c.q ∧ y.desc = d ∧ y.phase = .binning ∧ y.draws = [] ∧ y.lists = [] ∧
        y.ended = none ∧ y.poolBase = s1.addrOf .GEO_POOL_BASE_ADDR c.p ∧ u.mem = s2.mem) ∧
    (AtHead s p q 0x11 c → s.openPassOf c.p c.q = none →
      ∃ u, exec (.draw (.queue p q)) s = .next u ∧
        u.cmd c.id = some { c with phase := .handed, result := some 0x13200109 } ∧ u.rd .GEO_REFUSE_VALID c.p = 1 ∧
        u.mem = s.mem) ∧
    (AtHead s p q 0x11 c → s.geo.refusing.contains (queueKey c.p c.q) = false → s.openPassOf c.p c.q = some x →
      x.away = false → x.draws = [] → s.vRead (geoAsker c.p) (.cmd c.id) c.p (c.dword 1) 128 = (s1, .ok d) →
      drawOk d = true → primCount (dsTopo d) (dsCount d) ≤ 2 ^ 20 → dsFlaunch d = 0 →
      s1.drawLaunch c (dsVlaunch d) (.vertex c.p c.id) = (s2, .ok v) → s2.readIndices c d = (s3, .ok ids) → ids ≠ [] →
      s3.cmd c.id = some c → s3.passOf x.cmd = some x →
      ∃ u y dr, exec (.draw (.queue p q)) s = .next u ∧ u.cmd c.id = some { c with phase := .handed } ∧
        u.passOf x.cmd = some y ∧ y.draws = [dr] ∧ dr.cmd = c.id ∧ dr.desc = d ∧ dr.launch = some v.id ∧ dr.binned = 0 ∧
        u.launch v.id = some (vertexLaunch v ids) ∧ (vertexLaunch v ids).payload = ids.map (fun i => [BitVec.ofNat 32 i]) ∧
        u.mem = s3.mem) ∧
    (AtHead s p q 0x12 c → s.geo.refusing.contains (queueKey c.p c.q) = false → s.openPassOf c.p c.q = some x →
      x.away = false → x.draws = [] → x.phase = .binning → s.partRuns x.p = true → s.passOf x.cmd = some x → x.p < 32 →
      ∃ u y, exec (.binEnd (.queue p q)) s = .next u ∧ u.cmd c.id = some { c with phase := .handed } ∧
        u.passOf x.cmd = some y ∧ y.phase = .rendering ∧ y.todo = tileOrder x.desc ∧ y.ended = some c.id ∧ u.mem = s.mem)

/-- A tile of a rendering pass goes in flight, on a vat with room when it has entries; the couch of a pass's last tile ends
the pass, and its BIN_END is OK. -/
def Obligations.TilesAreDispatchedAndCouched : Prop :=
  ∀ (s s1 s2 : State) (p : Fin 32) (x : Pass) (t : TileRun) (c : Cmd) (tile : Nat) (rest : List Nat)
    (px : List (List Nat)), s.live = true → s.geo.passes = [x] → x.p = p → x.phase = .rendering →
    (s.partRuns p = true → x.todo = tile :: rest →
      ((storeFind x.lists tile).isNone = true ∨
        ((List.range 64).find? (fun n => s.tileFits n p (pdFoot x.desc))).isSome = true) →
      s.geoWrites p x.endWrites = (s1, .ok ()) → s1.loadTile x tile = (s2, .ok px) → s2.geo.passes = [x] →
      ∃ u y r, exec (.tileDispatch p) s = .next u ∧ u.passOf x.cmd = some y ∧ y.todo = rest ∧ y.inflight = x.inflight ++ [r] ∧
        r.tile = tile ∧ r.vat = (if (storeFind x.lists tile).isNone then none
          else (List.range 64).find? (fun n => s.tileFits n p (pdFoot x.desc))) ∧ u.mem = s2.mem) ∧
    (x.todo = [] → x.inflight = [t] → t.drawn = true → x.ended = some c.id →
      s.geoWrites p (couchRows x.desc t.tile t.px ++ x.gateWrites) = (s1, .ok ()) → s1.geo.passes = [x] →
      s1.ring.reqs.any (fun r => r.owner = .geo p) = false → s1.cmd c.id = some c → c.phase = .handed → c.result = none →
      ∃ u, exec (.couchComplete p t.tile) s = .next u ∧ u.geo.passes = [] ∧
        u.cmd c.id = some { c with result := some stOk } ∧ u.mem = s1.mem)

/-- A grow request is answered once: a GRANT in range adds its chunk to the pool and binning goes on, a DENY and the end of
patience fall back to a broke pass with their causes, and an answer without a request is LATE. When a broke pass has
been spilled, its pool is emptied and binning goes on. -/
def Sys2Proof.Claims.PoolsGrowOrBreak : Prop :=
  ∀ (s s1 : State) (fn : Fin 33) (p : Fin 32) (size : BitVec 6) (x : Pass), x.p = p →
    (s.mayWrite fn p = true → s.domState domGeo = 0 → s.growing p = none →
      (∃ u, exec (.grant fn p size) s = .next u ∧ u.rd .GEO_GROW_CTRL_RESULT p = 3 ∧
        OnlyRegs s u [(.GEO_GROW_CTRL_RESULT, p, 0), (.GEO_GROW_CTRL_SIZE, p, 0)]) ∧
      (∃ u, exec (.deny fn p) s = .next u ∧ u.rd .GEO_GROW_CTRL_RESULT p = 3 ∧
        OnlyRegs s u [(.GEO_GROW_CTRL_RESULT, p, 0)])) ∧
    (s.mayWrite fn p = true → s.domState domGeo = 0 → s.growing p = some x → 1 ≤ size.toNat → size.toNat ≤ 32 →
      ∃ a : State, exec (.grant fn p size) s = .next (a.binPass x.cmd) ∧ a.rd .GEO_GROW_CTRL_RESULT p = 1 ∧
        a.rd .GEO_GROW_CTRL_REQ p = 0 ∧ a.rd .GEO_GROW_WANT_BYTES p = 0 ∧ a.mem = s.mem ∧
        (s.passOf x.cmd = some x → ∃ y, a.passOf x.cmd = some y ∧ y.phase = .binning ∧ y.chunks = x.chunks + 1 ∧
          y.regions = x.regions ++ [⟨s.addrOf .GEO_GROW_ADDR_ADDR p, s.addrOf .GEO_GROW_ADDR_ADDR p + size.toNat * 2 ^ 21,
            s.addrOf .GEO_GROW_ADDR_ADDR p, s.addrOf .GEO_GROW_ADDR_ADDR p + size.toNat * 2 ^ 21⟩])) ∧
    (s.growing p = some x → s.passOf x.cmd = some x →
      (s.mayWrite fn p = true → s.domState domGeo = 0 →
        ∃ u y, exec (.deny fn p) s = .next u ∧ u.rd .GEO_GROW_CTRL_RESULT p = 2 ∧ u.rd .GEO_GROW_CTRL_REQ p = 0 ∧
          u.rd .GEO_COUNTS_CAUSE p = 1 ∧ u.passOf x.cmd = some y ∧ y.phase = .broke ∧ u.mem = s.mem) ∧
      (s.live = true → s.partRuns p = true →
        ∃ u y, exec (.growPatienceExpiry p) s = .next u ∧ u.rd .GEO_GROW_CTRL_REQ p = 0 ∧ u.rd .GEO_COUNTS_CAUSE p = 2 ∧
          u.passOf x.cmd = some y ∧ y.phase = .broke ∧ u.mem = s.mem)) ∧
    (s.live = true → s.geo.passes = [x] → x.phase = .broke → x.todo = [] → x.inflight = [] →
      s.ring.reqs.any (fun r => r.owner = .geo p) = false →
      s.geoWrites p [(x.poolBase, List.replicate (8 * pdTiles x.desc) 0)] = (s1, .ok ()) → s1.geo.passes = [x] →
      ∃ (a : State) (y : Pass), exec (.brokePassSpilled p) s = .next (a.binPass x.cmd) ∧ a.passOf x.cmd = some y ∧ y.phase = .binning ∧
        y.lists = [] ∧ y.regions = x.emptyPool ∧ y.segments = x.segments + 1 ∧ a.mem = s1.mem)

/-- A GATED_LAUNCH whose gate is not COMPLETE is refused; one that selects no tile is OK without a launch; otherwise its
launch has a block for each selected tile. -/
def Obligations.GatedLaunchRunsTheSelectedTiles : Prop :=
  ∀ (s s1 s2 s3 : State) (p : Fin 32) (q : Fin 16) (c : Cmd) (l : Launch) (sel : List Byte) (tiles : List (Nat × Nat)),
    AtHead s p q 0x02 c → c.p < 32 → c.node = none → s.passesBefore c = false →
    ({ s with nextId := s.nextId + 1 }).readLaunch c.p (.cmd c.id) (c.dword 1) s.nextId (.compute c.id) = (s1, .ok l) →
    s1.vRead (headboxAsker c.p) (.cmd c.id) c.p (c.dword 3) 32 = (s2, .ok sel) → selectorOk sel = true →
    s3.cmd c.id = some c →
    (s2.scanGate c sel = (s3, .ok none) →
      ∃ u, exec (.gatedLaunch (.queue p q)) s = .next u ∧
        u.cmd c.id = some { c with phase := .handed, result := some 0x1320010B } ∧ u.rd .GEO_REFUSE_VALID c.p = 1) ∧
    (s2.scanGate c sel = (s3, .ok (some [])) →
      ∃ u, exec (.gatedLaunch (.queue p q)) s = .next u ∧ HandedOk u c ∧ u.launches = s3.launches ∧ u.mem = s3.mem) ∧
    (s2.scanGate c sel = (s3, .ok (some tiles)) → leAt sel 9 1 = 0 → tiles ≠ [] → s3.spanning l.p = false →
      ∃ u, exec (.gatedLaunch (.queue p q)) s = .next u ∧ u.cmd c.id = some { c with phase := .handed } ∧
        u.launch l.id = some { l with gx := tiles.length, gy := 1, gz := 1, total := tiles.length, tiles := tiles } ∧
        u.mem = s3.mem)

/-- A plane's ARM is taken when the head can show it, and refused with ERR 1 when its format, place or scale is out of
range; the control fields only fill the shadow. At the vertical blank start an armed plane latches its shadow; plane 0
waits for its wall fence and counts the held frame; its lead asks for a deadline. -/
def Sys2Proof.Claims.PlanesArmAndLatch : Prop :=
  ∀ (s : State) (fn : Fin 33) (h : Fin 2) (k : Fin 4) (data : Word),
    (s.calWrites fn = true → s.domState domCal = 0 → bitAt data.toNat 31 = false →
      ∃ u, exec (.planeArm fn h k data) s = .next u ∧ u.rd .CAL_PLANE_CTRL_EN h k = bits data.toNat 30 30 ∧
        u.rd .CAL_PLANE_CTRL_FMT h k = bits data.toNat 29 28 ∧ u.rd .CAL_PLANE_CTRL_ALPHA h k = bits data.toNat 27 20 ∧
        OnlyRegs s u [(.CAL_PLANE_CTRL_EN, h, k), (.CAL_PLANE_CTRL_FMT, h, k), (.CAL_PLANE_CTRL_ALPHA, h, k),
          (.CAL_PLANE_CTRL_ERR, h, k)]) ∧
    (s.calWrites fn = true → s.domState domCal = 0 → bitAt data.toNat 31 = true → k.val ≠ 0 →
      ((s.wr .CAL_PLANE_CTRL_FMT (bits data.toNat 29 28) h k).planeOk h k = true → h.val = 0 →
        ∃ u, exec (.planeArm fn h k data) s = .next u ∧ u.rd .CAL_PLANE_CTRL_ARM h k = 1 ∧
          OnlyRegs s u [(.CAL_PLANE_CTRL_EN, h, k), (.CAL_PLANE_CTRL_FMT, h, k), (.CAL_PLANE_CTRL_ALPHA, h, k),
            (.CAL_PLANE_CTRL_ERR, h, k), (.CAL_PLANE_CTRL_ARM, h, k)]) ∧
      ((s.wr .CAL_PLANE_CTRL_FMT (bits data.toNat 29 28) h k).planeOk h k = false →
        ∃ u, exec (.planeArm fn h k data) s = .next u ∧ u.rd .CAL_PLANE_CTRL_ARM h k = 0 ∧ u.rd .CAL_PLANE_CTRL_ERR h k = 1 ∧
          OnlyRegs s u [(.CAL_PLANE_CTRL_EN, h, k), (.CAL_PLANE_CTRL_FMT, h, k), (.CAL_PLANE_CTRL_ALPHA, h, k),
            (.CAL_PLANE_CTRL_ERR, h, k), (.CAL_PLANE_CTRL_ARM, h, k)])) ∧
    (s.live = true → s.headRuns h = true → s.rd .CAL_PLANE_CTRL_ARM h k = 1 → (k.val = 0 → s.wallMet h = true) →
      ∃ u, exec (.vblankStart h) s = .next u ∧ u.rd .CAL_PLANE_CTRL_ARM h k = 0 ∧
        storeFind u.cal.active (4 * h.val + k.val) = some (s.shadow h k)) ∧
    (s.live = true → s.headRuns h = true → s.rd .CAL_PLANE_CTRL_ARM h 0 = 1 → s.wallMet h = false →
      ∃ u, exec (.vblankStart h) s = .next u ∧ u.rd .CAL_PLANE_CTRL_ARM h 0 = 1 ∧
        u.rd .CAL_COUNTS_HELD h = (s.count .CAL_COUNTS_HELD 1 h).rd .CAL_COUNTS_HELD h ∧
        storeFind u.cal.active (4 * h.val) = storeFind s.cal.active (4 * h.val)) ∧
    (s.live = true → s.headRuns h = true → s.rd .CAL_PLANE_CTRL_ARM h 0 = 1 → s.wallMet h = false →
      s.rd .CAL_LEAD_CYCLES h ≠ 0 → s.cal.lead.contains h.val = false →
      ∃ u, exec (.leadReached h) s = .next u ∧ u.cal.lead = s.cal.lead ++ [h.val] ∧ u.mem = s.mem)

/-- Training that ends on a link carrying the mode runs the head, any other end stops it with FAIL; plugging, unplugging and
IRQ_HPD post HPD to the calender partition's driver, an unplug stopping a running head; a failing scan-out line blacks
its plane out for the frame. -/
def Sys2Proof.Claims.HeadsTrainAndPlug : Prop :=
  ∀ (s : State) (h : Fin 2) (k : Fin 4) (link : Option (Fin 4 × Fin 3)) (p : Fin 32), s.live = true → s.cal.lead = [] →
    (s.funcState (32 + h) = fnStarting →
      ((∃ r l, link = some (r, l) ∧ s.linkCarries h r l = true) →
        ∃ u, exec (.headTrainingDone h link) s = .next u ∧ u.funcState (32 + h) = fnRunning ∧
          u.rd .CAL_HEAD_CTRL_TRAINED h = 1 ∧ u.rd .CAL_HEAD_CTRL_FAIL h = 0 ∧ u = { s with regs := u.regs }) ∧
      (link = none →
        ∃ u, exec (.headTrainingDone h link) s = .next u ∧ u.funcState (32 + h) = fnStopped ∧
          u.rd .CAL_HEAD_CTRL_TRAINED h = 0 ∧ u.rd .CAL_HEAD_CTRL_FAIL h = 1 ∧ u = { s with regs := u.regs })) ∧
    (s.calPart = some p.val → s.homed p = true → s.rd .EVQ_CTRL_EN (s.driverTarget p) = 0 →
      (s.rd .CAL_HEAD_CTRL_HPD h = 0 →
        ∃ u, exec (.hpdPlug h) s = .next u ∧ u.rd .CAL_HEAD_CTRL_HPD h = 1 ∧
          kindBit (u.rd .EVQ_PEND_PEND (s.driverTarget p)) 9 = true ∧ u.mem = s.mem) ∧
      (s.rd .CAL_HEAD_CTRL_HPD h = 1 →
        (∃ u, exec (.irqHpd h) s = .next u ∧ u.rd .CAL_HEAD_CTRL_HPD h = 1 ∧
          kindBit (u.rd .EVQ_PEND_PEND (s.driverTarget p)) 9 = true ∧ u.mem = s.mem) ∧
        (∃ u, exec (.hpdUnplug h) s = .next u ∧ u.rd .CAL_HEAD_CTRL_HPD h = 0 ∧
          (s.headRuns h = true → u.funcState (32 + h) = fnStopped ∧ u.rd .CAL_HEAD_CTRL_TRAINED h = 0) ∧
          kindBit (u.rd .EVQ_PEND_PEND (s.driverTarget p)) 9 = true ∧ u.mem = s.mem))) ∧
    (s.headRuns h = true → s.planeShown h k = true →
      ∃ u, exec (.scanoutLineFail h k) s = .next u ∧ u.rd .CAL_PLANE_CTRL_ERR h k = 1 ∧
        u.cal.black.contains (4 * h.val + k.val) = true ∧ u = { s with regs := u.regs, cal := { s.cal with black := u.cal.black } } ∧
        RegsKept s u [(.CAL_PLANE_CTRL_ERR, h, k)])

/-- Geometry passes and their pools. -/
def Obligations.PassesAndPools : Prop := PassesOpenDrawAndEnd ∧ PoolsGrowOrBreak

/-- Planes and heads of the calender. -/
def Obligations.DisplayArmsTrainsAndPlugs : Prop := PlanesArmAndLatch ∧ HeadsTrainAndPlug

/-! ### The PCIe attachment -/

/-- The memory window reaches local memory through L2: a read of a sector held there gives its bytes, a write changes exactly
the bytes it names, an access out of reach is answered Unsupported Request or discarded and logged in AER. A resize keeps
GLB_WIN_BASE. -/
def Sys2Proof.Claims.TheWindowReachesLocalMemory : Prop :=
  ∀ (s : State) (off : BitVec 36) (x : Sector), s.live = true → s.rd .L2_CTRL_EN = 1 →
    (∀ len, 0 < len → s.winAddr off.toNat % 32 + len ≤ 32 → s.winOk off.toNat len = true →
      s.l2Hit (s.winAddr off.toNat / 32 * 32) = some x → s.domState (domL2 (sliceOf (s.winAddr off.toNat / 32 * 32))) = 0 →
      exec (.bar4Read off len) s = .next { s with reply := .data ((x.bytes.drop (s.winAddr off.toNat % 32)).take len) }) ∧
    (∀ bytes : List Byte, bytes ≠ [] → s.winAddr off.toNat % 32 + bytes.length ≤ 32 →
      s.winOk off.toNat bytes.length = true →
      s.l2Hit (s.winAddr off.toNat / 32 * 32) = some x → s.domState (domL2 (sliceOf (s.winAddr off.toNat / 32 * 32))) = 0 →
      ∃ u, exec (.bar4Write off bytes) s = .next u ∧ u = { s with mem := u.mem } ∧ u.mem.dram = s.mem.dram ∧
        u.mem.host = s.mem.host ∧
        ∀ a, u.physByte a = if s.winAddr off.toNat ≤ a ∧ a < s.winAddr off.toNat + bytes.length then
          bytes.getD (a - s.winAddr off.toNat) 0 else s.physByte a) ∧
    (∀ len, s.winOk off.toNat len = false →
      exec (.bar4Read off len) s = .next { s with reply := .unsupported, pcie := { s.pcie with aer := 0 :: s.pcie.aer } }) ∧
    (∀ bytes : List Byte, s.winOk off.toNat bytes.length = false →
      exec (.bar4Write off bytes) s = .next { s with pcie := { s.pcie with aer := 0 :: s.pcie.aer } }) ∧
    (∀ size : Fin 9, exec (.bar4Resize size) s = .next { s with pcie := { s.pcie with bar4 := size } })

/-- A completion brings its bytes to the work that asked, and the last one lets a waiting quire run; a completion in error and
a completion timeout spoil a decode job with the host's error status, and AER logs the poisoned and the missing one. -/
def Sys2Proof.Claims.HostRequestsComplete : Prop :=
  ∀ (s : State) (id : Nat) (r : Req), s.live = true → s.hostReq id = some r →
    (∀ (v q : Nat) (x : Quire) (l : List Nat) (bytes : List Byte), r.owner = .quire v q → s.quire v q = some x →
      x.wait = .remote l → bytes.length = r.n → (∀ y ∈ s.pcie.reqs, y.id ≠ id → Owner.ofQuire v q y.owner = false) →
      (∀ y ∈ s.ring.reqs, Owner.ofQuire v q y.owner = false) → (∀ w ∈ s.xlt.waits, w.who ≠ .quire v q) →
      ∃ u, exec (.hostCompletion id .ok bytes) s = .next u ∧ u.quire v q = some { x with wait := .run } ∧
        (∀ n k : Nat, (n, k) ≠ (v, q) → u.quire n k = s.quire n k) ∧
        u.xlt = { s.xlt with fetched := s.xlt.fetched ++ [⟨r.owner, r.addr, bytes⟩] } ∧
        u = { s with vats := u.vats, xlt := u.xlt,
                     pcie := { s.pcie with reqs := s.pcie.reqs.filter (fun y => y.id ≠ id) } }) ∧
    (∀ (cid : Nat) (c : Cmd) (bytes : List Byte), r.owner = .cmd cid → s.cmd cid = some c → engineOf c.op = 2 →
      let spoiled (log : List Nat) : State :=
        { s with
          xlt := { s.xlt with fetched := s.xlt.fetched ++ [⟨.cmd cid, failMark, toLe 4 stHostError⟩] }
          pcie := { s.pcie with aer := log ++ s.pcie.aer, reqs := s.pcie.reqs.filter (fun y => y.id ≠ r.id) } }
      exec (.hostCompletion id .ur bytes) s = .next (spoiled []) ∧
      exec (.hostCompletion id .ca bytes) s = .next (spoiled []) ∧
      exec (.hostCompletion id .poisoned bytes) s = .next (spoiled [3]) ∧
      exec (.completionTimeout id) s = .next (spoiled [2]))

/-- `u` is `s` with function `fn`'s configuration `c`; a message that was pending and can now be sent is sent while the
interrupt condition holds (R298). -/
def Sys2Proof.Claims.FnBecomes (s u : State) (fn : Nat) (c : FnCfg) : Prop :=
  let go := c.pending && c.sends && !c.mask
  u.fnCfg fn = { c with pending := c.pending && !go } ∧ (∀ j, j ≠ fn → u.fnCfg j = s.fnCfg j) ∧
  u.sent = (if go && s.evqCond (targetOfFn fn) then fn :: s.sent else s.sent) ∧
  u = { s with pcie := { s.pcie with fns := u.pcie.fns }, sent := u.sent }

/-- A function that exists enters D3hot and returns to D0, is made bus master, and has its vector unmasked: state is kept,
and a message that waited is sent as soon as the function can send it. A link that trains takes its speed and width. -/
def Sys2Proof.Claims.FunctionsSendWhatWaited : Prop :=
  ∀ (s : State) (fn : Fin 33), s.powered = true →
    ((s.fnCfg fn).d3hot = true → ∀ (off : BitVec 26) (data : Word) (p : Fin 32) (q : Fin 16) (n : Nat) (w : BitVec 36),
      exec (.readClear fn off) s = .next { s with reply := .unsupported, pcie := { s.pcie with aer := 0 :: s.pcie.aer } } ∧
      exec (.registerWrite fn off 15 data) s = .next { s with pcie := { s.pcie with aer := 0 :: s.pcie.aer } } ∧
      exec (.doorbellWrite fn p q 4 data) s = .next s ∧ exec (.invalidateDoorbell fn p 4 data) s = .next s ∧
      (fn = 0 → s.live = true → exec (.bar4Read w n) s =
        .next { s with reply := .unsupported, pcie := { s.pcie with aer := 0 :: s.pcie.aer } })) ∧
    (s.fnExists fn = true →
      (∃ u, exec (.d3hotEntry fn) s = .next u ∧ u.fnCfg fn = { s.fnCfg fn with d3hot := true } ∧
        (∀ j, j ≠ fn.val → u.fnCfg j = s.fnCfg j) ∧ u = { s with pcie := { s.pcie with fns := u.pcie.fns } }) ∧
      (∃ u, exec (.msixVectorUnmask fn) s = .next u ∧ FnBecomes s u fn { s.fnCfg fn with mask := false }) ∧
      (storeFind s.owed (targetOfFn fn) = none →
        (∃ u, exec (.d0Return fn) s = .next u ∧ FnBecomes s u fn { s.fnCfg fn with d3hot := false }) ∧
        (∃ u, exec (.busMasterEnable fn) s = .next u ∧ FnBecomes s u fn { s.fnCfg fn with busMaster := true }))) ∧
    (∀ (speed : Fin 6) (width : Nat), speed ≠ 0 → width ∈ [1, 2, 4, 8] →
      exec (.pcieLinkUp speed width) s = .next { s with pcie := { s.pcie with up := true, speed := speed, width := width } })

/-- An FLR of an enabled VF returns its configuration space to the defaults and discards its completions. On the home chip
of an idle partition the teardown ends at once, with the FLR record pending at the PF's target and the status bit clear; a second
FLR while one runs starts no teardown. Clearing VF Enable resets the enabled VF and disables it. -/
def Sys2Proof.Claims.VfResetsTearDown : Prop :=
  ∀ (s : State) (vf : Fin 32), s.powered = true → s.vfEnabled vf = true →
    (s.flrRuns vf = true →
      ∃ u, exec (.vfFlr vf) s = .next u ∧ u.fnCfg (vf.val + 1) = {} ∧ (∀ j, j ≠ vf.val + 1 → u.fnCfg j = s.fnCfg j) ∧
        u = { s with pcie := { s.pcie with fns := u.pcie.fns,
                                           reqs := s.pcie.reqs.filter (fun r => r.fn ≠ vf.val + 1) } }) ∧
    (s.live = true → ((s.part vf).isSome = true → s.homed vf = true) → s.spanning vf = false → s.funcState vf = fnRunning →
      s.rd .GLB_FLR_STATUS_RUNNING = 0 → s.rd .HB_RECLAIM_RUNNING vf = 0 → s.hb = {} → s.launches = [] →
      s.geo.passes = [] → s.vats = [] → s.codec = {} → s.sync = {} → s.xlt = {} → (∀ h, h < 16384 → s.rd .SYN_OBJ_TYPE h = 0) →
      (∀ h, h < 4096 → s.rd .HB_MO_STATE h = 0) → s.rd .EVQ_CTRL_EN 32 = 0 → (∀ q : Fin 16, s.rd .HB_Q_CTRL_EN vf q ≤ 1) →
      ∃ u, exec (.vfFlr vf) s = .next u ∧ u.fnCfg (vf.val + 1) = {} ∧ u.rd .GLB_FLR_STATUS_RUNNING = 0 ∧
        u.rd .HB_RECLAIM_RUNNING vf = 0 ∧ (∀ q : Fin 16, u.rd .HB_Q_CTRL_EN vf q = 0) ∧ u.rd .XLT_ROOT_EN vf = 0 ∧
        kindBit (u.rd .EVQ_PEND_PEND 32) 7 = true ∧ u.mem = s.mem ∧ u.funcState vf = fnRunning) ∧
    (s.pcie.numVfs = 1 →
      ∃ u, exec (.vfFlr 0) s = .next u ∧
        exec .vfEnableClear s = .next { u with pcie := { u.pcie with vfEnable := false } })

/-- The memory window and requests to the host. -/
def Obligations.TheHostReachesTheChip : Prop := TheWindowReachesLocalMemory ∧ HostRequestsComplete

/-- Functions of the PCIe attachment. -/
def Obligations.FunctionsSendAndReset : Prop := FunctionsSendWhatWaited ∧ VfResetsTearDown

/-! ### Scheduling -/

/-- A grant gives the lowest pooled vat that can be granted to the waiting partition of the highest PRIO; a slice expiry asks
for every pooled vat that the partition holds while another of equal PRIO waits; a block whose save is written leaves its vat
and joins the end of the saved blocks. -/
def Sys2Proof.Claims.PooledVatsAreSharedOut : Prop :=
  ∀ s : State, s.live = true →
    (∀ n p : Nat, s.updateWaiting.pooledVats.find? s.updateWaiting.grantable = some n → s.updateWaiting.nextWaiting = some p →
      ∃ u, exec .poolGrant s = .next u ∧ u.vat n = { s.vat n with holder := some p } ∧ (∀ m, m ≠ n → u.vat m = s.vat m) ∧
        (∀ m ∈ s.pooledVats, s.updateWaiting.grantable m = true → n ≤ m) ∧ s.poolWaits p = true ∧
        (∀ w ∈ s.updateWaiting.sched.waiting, s.prio w ≤ s.prio p) ∧
        u = { s with vats := u.vats, sched := s.updateWaiting.sched }) ∧
    (s.updateWaiting.sched.waiting = [] → exec .poolGrant s = .next s.updateWaiting) ∧
    (∀ p : Fin 32, s.rd .SCH_POOL_SLICE_UNITS ≠ 0 → (∀ e ∈ s.launches, e.2.p < 32) →
      (∃ w ∈ s.updateWaiting.sched.waiting, w ≠ p.val ∧ s.prio w = s.prio p) →
      ∃ u, exec (.sliceExpiry p) s = .next u ∧
        (∀ n ∈ s.heldVats p, s.hasBlock n p = true → (u.vat n).preempt.contains p.val = true) ∧
        (∀ n, n ∉ s.heldVats p → u.vat n = s.vat n) ∧ u.mem = s.mem ∧ u.hb = s.hb ∧ u.launches = s.launches ∧
        ∀ (f : Field) (i j : Nat), f ≠ .SCH_SAVE_USE_FULL → i < 65536 → j < 65536 → u.rd f i j = s.rd f i j) ∧
    (∀ p : Fin 32, s.rd .SCH_POOL_SLICE_UNITS = 0 → exec (.sliceExpiry p) s = .next s.updateWaiting) ∧
    (∀ (vat b : Fin 64) (blk : Block) (l : Launch) (a : Nat) (s1 : State), s.block vat b = some blk → blk.saving = some a →
      s.launch blk.launch = some l →
      s.takeFree.2.vWrite (saveAsker vat l.p) (.launch blk.launch) l.p a
        ((List.range l.saveSize).map (Config.internalByte s.free)) = (s1, .ok ()) →
      ∃ u, exec (.blockSaveDone vat b) s = .next u ∧ u.block vat b = none ∧
        (∀ (slot : Nat) (q : Quire), u.quire vat slot = some q → q.block ≠ b.val) ∧ u.mem = s1.mem ∧
        u.sched.saved = s1.sched.saved ++
          [s1.savedOf vat { blk with saving := none } l a ((s.vat vat).ordered b)])

/-- A stream entry is enabled only with its checkpoint before its budget and without a twin; disabling it forgets its
frames. At its checkpoint a frame with too few completed tiles sends the entry to FALLBACK and counts, any other is only marked. A
period of the stuff boxes reloads every credit that has a limit, up to two limits, and nothing else when nothing is held. -/
def Sys2Proof.Claims.StreamsAndBudgets : Prop :=
  ∀ (s : State) (e : Fin 64),
    (s.pfWrites = true → s.dlTwin e = false → s.rd .SCH_DL_CFG_CHECK e < s.rd .SCH_DL_CFG_BUDGET e →
      ∃ u, exec (.dlEntryEnable e true) s = .next u ∧ u.rd .SCH_DL_CFG_EN e = 1 ∧ OnlyRegs s u [(.SCH_DL_CFG_EN, e, 0)]) ∧
    (s.pfWrites = true → (s.dlTwin e = true ∨ s.rd .SCH_DL_CFG_BUDGET e ≤ s.rd .SCH_DL_CFG_CHECK e) →
      exec (.dlEntryEnable e true) s = .next s) ∧
    (s.pfWrites = true →
      ∃ u, exec (.dlEntryEnable e false) s = .next u ∧ u.rd .SCH_DL_CFG_EN e = 0 ∧ u.rd .SCH_DL_STATE_FALLBACK e = 0 ∧
        u.rd .SCH_DL_STATE_ONTIME e = 0 ∧ u.sched.frames = s.sched.frames.filter (fun f => f.entry ≠ e.val) ∧
        RegsKept s u [(.SCH_DL_CFG_EN, e, 0), (.SCH_DL_STATE_FALLBACK, e, 0), (.SCH_DL_STATE_ONTIME, e, 0)] ∧
        u = { s with regs := u.regs, sched := { s.sched with frames := u.sched.frames } }) ∧
    (∀ (n : Nat) (fr : Frame) (r : GraphRun), s.live = true →
      (s.sched.frames.filter (fun f => f.entry = e.val))[n]? = some fr → fr.checked = false →
      s.hb.runs.find? (fun x => x.id = fr.run) = some r →
      let marked := s.sched.frames.map (fun f => if f.id = fr.id then { f with checked := true } else f)
      (s.rd .SCH_DL_CFG_THRESH e * (s.frameTiles r).2 ≤ (s.frameTiles r).1 * 256 →
        exec (.dlCheckpoint e n) s = .next { s with sched := { s.sched with frames := marked } }) ∧
      ((s.frameTiles r).1 * 256 < s.rd .SCH_DL_CFG_THRESH e * (s.frameTiles r).2 → s.rd .SCH_DL_CFG_ABORT e ≠ 1 →
        ∃ u, exec (.dlCheckpoint e n) s = .next u ∧ u.rd .SCH_DL_STATE_FALLBACK e = 1 ∧ u.rd .SCH_DL_STATE_ONTIME e = 0 ∧
          u.rd .SCH_DL_STATE_BEHIND e = min (2 ^ Field.width .SCH_DL_STATE_BEHIND - 1) (s.rd .SCH_DL_STATE_BEHIND e + 1) ∧
          RegsKept s u [(.SCH_DL_STATE_FALLBACK, e, 0), (.SCH_DL_STATE_ONTIME, e, 0), (.SCH_DL_STATE_BEHIND, e, 0)] ∧
          u = { s with regs := u.regs, sched := { s.sched with frames := marked } })) ∧
    (s.live = true → s.geo.passes = [] → (∀ k < 2, (s.port k).rx = [] ∧ (s.port k).tx = []) →
      ∃ u, exec .stuffBoxPeriod s = .next u ∧
        (∀ a < 40, ∀ r < 4, u.rd (budgetFields r).1 a = if s.rd (budgetFields r).2 a = 0xFFFFFFFF then s.rd (budgetFields r).1 a
          else min 0xFFFFFFFE (s.rd (budgetFields r).2 a + min (s.rd (budgetFields r).1 a) (s.rd (budgetFields r).2 a))) ∧
        (∀ (f : Field) (i j : Nat), (∀ r < 4, f ≠ (budgetFields r).1) → i < 65536 → j < 65536 → u.rd f i j = s.rd f i j) ∧
        u = { s with regs := u.regs, sched := { s.sched with taken := [] } })

/-! ### Translation -/

/-- A waiting tile of a quire goes on when its page is found or its entry is replayed, and an entry that is failed, or a wait
whose patience runs out, spoils a decode job with its status; a reply to an entry that the partition does not hold has RESULT 2
and no other effect; a stopped partition's patience does not run. -/
def Sys2Proof.Claims.MigrationWaitsEnd : Prop :=
  ∀ (s : State) (w : MigWait) (v q : Nat) (x : Quire) (fn : Fin 33) (p : Fin 32) (entry : BitVec 6),
    (s.live = true → s.homeWait w.id = some w → w.entry = none → w.who = .quire v q →
      ∀ (s1 : State) (t : Xlat), s.lookup ⟨.unit, w.kind, w.p⟩ w.p w.va = (s1, .ok t) → s1.pageStatus w t = stOk →
      s1.quire v q = some x → x.wait = .migration → (∀ y ∈ s1.xlt.waits, y.id ≠ w.id → y.who ≠ .quire v q) →
      ∃ u, exec (.migrationRetry w.id) s = .next u ∧ u.quire v q = some { x with wait := .run } ∧
        u.xlt = { s1.xlt with waits := s1.xlt.waits.filter (fun y => y.id ≠ w.id) } ∧
        u = { s1 with vats := u.vats, xlt := u.xlt } ∧ ∀ n k, (n, k) ≠ (v, q) → u.quire n k = s1.quire n k) ∧
    (s.mayWrite fn p = true → s.rd .XLT_MIG_USED entry.toNat = 1 → s.rd .XLT_MIG_PART entry.toNat = p.val →
      s.xlt.waits.filter (fun y => y.entry = some entry.toNat && y.p = p.val) = [w] →
      let done (op : Nat) (u : State) : Prop :=
        u.rd .XLT_MIG_CTRL_OP p = op ∧ u.rd .XLT_MIG_CTRL_INDEX p = entry.toNat ∧ u.rd .XLT_MIG_CTRL_RESULT p = 1 ∧
        u.rd .XLT_MIG_USED entry.toNat = 0 ∧ u.xlt.waits = s.xlt.waits.filter (fun y => y.id ≠ w.id) ∧
        RegsKept s u [(.XLT_MIG_CTRL_OP, p, 0), (.XLT_MIG_CTRL_INDEX, p, 0), (.XLT_MIG_CTRL_RESULT, p, 0),
          (.XLT_MIG_USED, entry.toNat, 0)]
      (w.who = .quire v q → s.quire v q = some x → x.wait = .migration →
        (∀ y ∈ s.xlt.waits, y.id ≠ w.id → y.who ≠ .quire v q) →
        ∃ u, exec (.replay fn p entry) s = .next u ∧ done 1 u ∧ u.quire v q = some { x with wait := .run } ∧ u.mem = s.mem) ∧
      (∀ (cid : Nat) (c : Cmd), w.who = .cmd cid → s.cmd cid = some c → engineOf c.op = 2 →
        ∃ u, exec (.migFail fn p entry) s = .next u ∧ done 2 u ∧ u.mem = s.mem ∧
          u.xlt.fetched = s.xlt.fetched ++ [⟨.cmd cid, failMark, toLe 4 (stXlt 5 w.kind entry.toNat)⟩])) ∧
    (s.mayWrite fn p = true → (s.rd .XLT_MIG_USED entry.toNat = 0 ∨ s.rd .XLT_MIG_PART entry.toNat ≠ p.val) →
      ∃ a b : State, exec (.replay fn p entry) s = .next a ∧ exec (.migFail fn p entry) s = .next b ∧
        a.rd .XLT_MIG_CTRL_RESULT p = 2 ∧ b.rd .XLT_MIG_CTRL_RESULT p = 2 ∧
        OnlyRegs s a [(.XLT_MIG_CTRL_OP, p, 0), (.XLT_MIG_CTRL_INDEX, p, 0), (.XLT_MIG_CTRL_RESULT, p, 0)] ∧
        OnlyRegs s b [(.XLT_MIG_CTRL_OP, p, 0), (.XLT_MIG_CTRL_INDEX, p, 0), (.XLT_MIG_CTRL_RESULT, p, 0)]) ∧
    (s.live = true → s.homeWait w.id = some w →
      (s.funcState w.p = fnStopped → exec (.migrationPatienceExpiry w.id) s = .next s) ∧
      (∀ (cid : Nat) (c : Cmd), s.funcState w.p ≠ fnStopped → w.who = .cmd cid → s.cmd cid = some c → engineOf c.op = 2 →
        exec (.migrationPatienceExpiry w.id) s = .next { s with xlt := { s.xlt with
          waits := s.xlt.waits.filter (fun y => y.id ≠ w.id)
          fetched := s.xlt.fetched ++ [⟨.cmd cid, failMark, toLe 4 (stTimeoutMigration (w.entry.getD 64))⟩] } }))

/-- An invalidation starts at its doorbell, is BUSY until the last translation cache has acknowledged, then drops exactly the
pages of its scope and reports its SEQ; a second one waits, a third makes the waiting one PARTITION. A root's write starts one
that reports nothing, and the root's address changes only while the partition is stopped or without queues. -/
def Sys2Proof.Claims.InvalidationsRun : Prop :=
  ∀ (s : State) (fn : Fin 33) (p : Fin 32) (value : Word),
    (s.bellOk fn p = true → s.rd .HB_RECLAIM_RUNNING p = 0 → s.spanning p = false → s.xlt.inval.any (fun x => x.1 = p.val) = false →
      ∃ u, exec (.invalidateDoorbell fn p 4 value) s = .next u ∧ u.rd .XLT_INV_DONE_BUSY p = 1 ∧
        storeFind u.xlt.inval p = some ⟨value.toNat, s.addrOf .XLT_INV_ADDR_ADDR p, localCaches, false⟩ ∧
        (∀ k, k ≠ p.val → storeFind u.xlt.inval k = storeFind s.xlt.inval k) ∧ RegsKept s u [(.XLT_INV_DONE_BUSY, p, 0)] ∧
        u = { s with regs := u.regs, xlt := { s.xlt with inval := u.xlt.inval } }) ∧
    (s.bellOk fn p = true → s.rd .HB_RECLAIM_RUNNING p = 0 → s.xlt.inval.any (fun x => x.1 = p.val) = true →
      (storeFind s.xlt.pendInval p = none →
        exec (.invalidateDoorbell fn p 4 value) s = .next { s with xlt := { s.xlt with
          pendInval := storePut p value.toNat s.xlt.pendInval } }) ∧
      (∀ old, storeFind s.xlt.pendInval p = some old → old < 2 ^ 32 →
        ∃ u, exec (.invalidateDoorbell fn p 4 value) s = .next u ∧
          u.rd .XLT_INV_DONE_MERGED p = min 255 (s.rd .XLT_INV_DONE_MERGED p + 1) ∧
          RegsKept s u [(.XLT_INV_DONE_MERGED, p, 0)] ∧
          u = { s with regs := u.regs, xlt := { s.xlt with
            pendInval := storePut p (value.toNat % 65536) s.xlt.pendInval } })) ∧
    (∀ (c : XltCache) (x : Inval), s.live = true → (∀ m, c ≠ .member m) → storeFind s.xlt.inval p = some x →
      (x.waiting.filter (fun y => y ≠ c) ≠ [] →
        exec (.invalidateAck p c) s = .next { s with xlt := { s.xlt with
          inval := storePut p { x with waiting := x.waiting.filter (fun y => y ≠ c) } s.xlt.inval } }) ∧
      (x.waiting.filter (fun y => y ≠ c) = [] → storeFind s.xlt.pendInval p = none → s.ring.funcs = [] →
        ∃ u, exec (.invalidateAck p c) s = .next u ∧ u.rd .XLT_INV_DONE_BUSY p = 0 ∧
          u.rd .XLT_INV_DONE_SEQ p = (if x.silent then s.rd .XLT_INV_DONE_SEQ p else x.word % 65536) ∧
          storeFind u.xlt.inval p = none ∧ u.xlt.tlb = s.xlt.tlb.filter (fun e => !invalHits p x e.1) ∧
          RegsKept s u [(.XLT_INV_DONE_BUSY, p, 0), (.XLT_INV_DONE_SEQ, p, 0)] ∧ u.mem = s.mem)) ∧
    (∀ (word : Fin 2) (data : Word), s.mayWrite fn p = true → s.spanning p = false →
      s.xlt.inval.any (fun x => x.1 = p.val) = false → s.rd .XLT_ROOT_ADDR p < 2 ^ 36 →
      ∃ u, exec (.xltRootWrite fn p word data) s = .next u ∧
        storeFind u.xlt.inval p = some ⟨0, s.addrOf .XLT_INV_ADDR_ADDR p, localCaches, true⟩ ∧
        u.rd .XLT_INV_DONE_BUSY p = 1 ∧
        u.rd .XLT_ROOT_EN p = (if word = 0 then data.toNat % 2 else s.rd .XLT_ROOT_EN p) ∧
        u.addrOf .XLT_ROOT_ADDR p = (if s.rootFree p = false then s.addrOf .XLT_ROOT_ADDR p
          else if word = 0 then bits (s.addrOf .XLT_ROOT_ADDR p) 47 32 * 2 ^ 32 + bits data.toNat 31 12 * 2 ^ 12
          else bits data.toNat 15 0 * 2 ^ 32 + bits (s.addrOf .XLT_ROOT_ADDR p) 31 0) ∧
        RegsKept s u [(.XLT_ROOT_ADDR, p, 0), (.XLT_ROOT_EN, p, 0), (.XLT_INV_DONE_BUSY, p, 0)] ∧ u.mem = s.mem)

/-- Pooled vats, deadline streams and budgets. -/
def Obligations.SchedulingSharesTheVats : Prop := PooledVatsAreSharedOut ∧ StreamsAndBudgets

/-- Migration waits and invalidations. -/
def Obligations.TranslationEventsEnd : Prop := MigrationWaitsEnd ∧ InvalidationsRun

/-! ### L2, DRAM and maintenance -/

/-- An access at L2 that hits one sector reads its bytes, changes exactly the bytes it writes, or adds in the slice and
returns the old value; a parity error of a clean sector is counted and the bytes come from DRAM, one of a dirty sector resets the
device; EN is written by the PF. -/
def Obligations.L2ServesRequests : Prop :=
  ∀ (s : State) (port : L2Port) (pol : CachePolicy) (addr : BitVec 44) (x : Sector),
    let pa := addr.toNat
    let sec := pa / 32 * 32
    let kept (u : State) (n : Nat) (bs : List Byte) : Prop := u.mem.dram = s.mem.dram ∧ u.mem.host = s.mem.host ∧
      ∀ b, u.physByte b = if pa ≤ b ∧ b < pa + n then bs.getD (b - pa) 0 else s.physByte b
    (∀ en : Bool, s.pfWrites = true →
      ∃ u, exec (.l2EnableWrite en) s = .next u ∧ u.rd .L2_CTRL_EN = b2n en ∧ OnlyRegs s u [(.L2_CTRL_EN, 0, 0)]) ∧
    (s.live = true → s.rd .L2_CTRL_EN = 1 → s.l2Hit sec = some x → s.domState (domL2 (sliceOf sec)) = 0 →
      (∀ n, 0 < n → pa % 32 + n ≤ 32 → s.usableRange pa n = true →
        exec (.l2Access port pol (.read n) addr none) s = .next { s with reply := .data ((x.bytes.drop (pa % 32)).take n) }) ∧
      (∀ bs : List Byte, bs ≠ [] → pa % 32 + bs.length ≤ 32 → s.usableRange pa bs.length = true →
        ∃ u, exec (.l2Access port pol (.write bs) addr none) s = .next u ∧ u = { s with mem := u.mem } ∧ kept u bs.length bs) ∧
      (∀ (opc : Byte) (sgn wide : Bool) (b c : Dword), pa % 32 + (if wide then 8 else 4) ≤ 32 →
        s.usableRange pa (if wide then 8 else 4) = true →
        let n := if wide then 8 else 4
        let old := ofLe ((x.bytes.drop (pa % 32)).take n)
        ∃ u, exec (.l2Access port pol (.atomic opc sgn wide b c) addr none) s = .next u ∧
          u = { s with mem := u.mem, reply := .data (toLe n old) } ∧
          kept u n (toLe n (atomNew opc.toNat (8 * n) sgn old (b.toNat % 2 ^ (8 * n)) (c.toNat % 2 ^ (8 * n))))) ∧
      (∀ n, 0 < n → pa % 32 + n ≤ 32 → s.usableRange pa n = true → x.dirty = false → (s.portPart port).getD 0 < 32 →
        (s.readSector sec).bad = 0 → (s.readSector sec).corrected = false → s.domState (domMc (ctrlOf sec)) = 0 →
        ∃ u, exec (.l2Access port pol (.read n) addr (some .clean)) s = .next u ∧
          u.rd .L2_PARITY_CLEAN = min 65535 (s.rd .L2_PARITY_CLEAN + 1) ∧ u.mem.dram = s.mem.dram ∧
          u.reply = .data (((s.readSector sec).bytes.drop (pa % 32)).take n)) ∧
      (∀ n, 0 < n → pa % 32 + n ≤ 32 → s.usableRange pa n = true → s.inReset = false → s.rd .MGC_MBOX_CTRL_PENDING ≤ 1 →
        s.rd .PWR_WEAR_SECONDS < 2 ^ 32 → s.rd .GLB_DEVRESET_CTRL_COUNT < 256 →
        ∃ u, exec (.l2Access port pol (.read n) addr (some .dirty)) s = .next u ∧
          DeviceResetTo s u (0x1F050000 + sliceOf pa)))

/-- What a read of the sector at `pa` counts, its cells having flipped to `f`: nothing, a corrected or an uncorrectable
read (R368, R369). -/
def Sys2Proof.Claims.EccCounted (s f u : State) (pa : Nat) : Prop :=
  let c := ctrlOf pa
  let r := f.readSector pa
  u.rd .MEM_ECC_COUNT_CE c = (if r.bad = 0 ∧ r.corrected then min (2 ^ 32 - 1) (s.rd .MEM_ECC_COUNT_CE c + 1)
    else s.rd .MEM_ECC_COUNT_CE c) ∧
  u.rd .MEM_ECC_COUNT_UE c = (if r.bad ≠ 0 then min (2 ^ 32 - 1) (s.rd .MEM_ECC_COUNT_UE c + 1)
    else s.rd .MEM_ECC_COUNT_UE c) ∧
  (r.bad ≠ 0 → s.rd .MEM_ERR_LOG_VALID = 0 → u.rd .MEM_ERR_LOG_VALID = 1 ∧ u.rd .MEM_ERR_LOG_MASK = r.bad ∧
    u.rd .MEM_ERR_LOG_STATUS = stMem 1 (s.memDetail pa) ∧ u.rd .MEM_ERR_LOG_SECTOR = pa / 32)

/-- Data that returns from DRAM with flipped cells is checked: corrected reads and uncorrectable ones are counted, the first
uncorrectable one is logged, and a read of the memory window that meets one is answered Completer Abort. The scrub reads its next
sector the same way, and counts a pass when its walk ends. -/
def Obligations.DramErrorsAreCounted : Prop :=
  ∀ (s : State) (addr : BitVec 44) (part : Option (Fin 32)) (data check : BitVec 256) (r o : Nat),
    s.live = true → s.rd .MEM_ERR_CTRL_CE_STEP = 0 → (∀ c : Fin 12, s.domState (domMc c) = 0) →
    (∀ n : Fin 16, s.domState (domL2 n) = 0) → s.rd .EVQ_ROUTE_DRAM_ERROR ≤ 33 → r < 16 →
    (let pa := addr.toNat / 32 * 32
     let f := s.flipCells pa data.toNat check.toNat
     s.usable pa = true → s.l2Hit pa = none →
      ∃ u, exec (.dramReadReturn .pcie part addr data check) s = .next u ∧ EccCounted s f u pa ∧
        ((f.readSector pa).bad ≠ 0 → u.reply = .abort) ∧
        ((f.readSector pa).bad = 0 → u.reply = s.reply ∧ u.mem.dram = f.mem.dram ∧
          (s.rd .L2_CTRL_EN = 1 → u.sectorView pa = (f.readSector pa).bytes))) ∧
    (let pa := (s.region r).base + 32 * o
     let next := scrubPlace r (o + 1)
     s.maint.running.any (fun a => a.act = 1) = true → s.admitsMem maintAsker = true →
      s.scrubFrom s.maint.scrubPos = some (r, o) → pa < 2 ^ 44 →
      ∃ u, exec (.scrubSector data check) s = .next u ∧ EccCounted s (s.flipCells pa data.toNat check.toNat) u pa ∧
        u.maint = { s.maint with scrubPos := if (s.scrubFrom next).isSome then next else 0 } ∧
        u.rd .MEM_SCRUB_STAT_PASSES = (if (s.scrubFrom next).isSome then s.rd .MEM_SCRUB_STAT_PASSES
          else min 65535 (s.rd .MEM_SCRUB_STAT_PASSES + 1))) ∧
    ((∀ k, k < 16 → s.scrubs k = false) → s.maint.scrubPos < 2 ^ 44 → exec (.scrubSector data check) s = .next s)

/-- A request of the PF to an idle sequencer runs `a` and reports OK (R377). -/
def Sys2Proof.Claims.ActRuns (u : State) (op : Nat) (a : Act) : Prop :=
  u.maint.running = [a] ∧ u.maint.waiting = [] ∧ u.rd .MEM_MAINT_RESULT_STATUS = 0 ∧ u.rd .MEM_MAINT_CTRL_OP = op ∧
  u.rd .MEM_MAINT_CTRL_ACT = a.act

/-- No activity runs or waits, and every DRAM controller is ON. -/
def Sys2Proof.Claims.MaintIdle (s : State) : Prop :=
  s.acts = [] ∧ s.maint.waiting = [] ∧ ∀ c : Fin 12, s.domState (domMc c) = 0

/-- An idle sequencer starts what it is asked: a scrub, a self-test or a retraining of a controller that exists, a flush, an
insertion into the save-all, which keeps the block's stored bytes. A flush writes dirty sectors to DRAM, drops them, or both. A
self-test pauses a scrub; a second scrub is refused. -/
def Sys2Proof.Claims.MaintenanceStarts : Prop :=
  ∀ (s : State) (arg : BitVec 4), s.pfWrites = true → s.rd .MEM_MAINT_CTRL_PENDING = 0 →
    (MaintIdle s →
      (∃ u, exec .scrubStart s = .next u ∧ ActRuns u 1 ⟨1, 0, 0⟩ ∧ u = { s with regs := u.regs, maint := u.maint }) ∧
      (arg.toNat < 12 →
        (∃ u, exec (.selftest arg) s = .next u ∧ ActRuns u 1 ⟨2, arg.toNat, 0⟩ ∧ u.rd .MEM_SELFTEST_DONE = 0 ∧
          u = { s with regs := u.regs, maint := u.maint }) ∧
        (∃ u, exec (.retrain arg) s = .next u ∧ ActRuns u 1 ⟨5, arg.toNat, 0⟩ ∧ u = { s with regs := u.regs, maint := u.maint })) ∧
      (∀ ctrl : Fin 12,
        exec (.retrainDrift ctrl) s = .next { s with maint := { s.maint with running := [⟨5, ctrl, 1⟩], paused := [] } }) ∧
      (∀ (sec : Nat) (x : Sector), s.mem.l2 = [(sec, x)] → x.dirty = true → s.regionOf (32 * sec) = none →
        (∃ u, exec .l2flushWb s = .next u ∧ ActRuns u 1 ⟨3, 0, 1⟩ ∧ u.mem.l2 = [(sec, { x with dirty := false })] ∧
          u.rawBytes (32 * sec) 32 = x.bytes) ∧
        (∃ u, exec .l2flushInv s = .next u ∧ ActRuns u 1 ⟨3, 0, 2⟩ ∧ u.mem = { s.mem with l2 := [] }) ∧
        (∃ u, exec .l2flushWbinv s = .next u ∧ ActRuns u 1 ⟨3, 0, 3⟩ ∧ u.mem.l2 = [] ∧ u.rawBytes (32 * sec) 32 = x.bytes)) ∧
      (∀ e, let pa := s.addrOf .MEM_MAINT_ADDR_ADDR
        pa < s.dramSize → s.saveallErr pa = none → s.freeEntry (ctrlOf pa) = some e → blockOf pa < 2 ^ 28 →
        ∃ u, exec .saveall s = .next u ∧ ActRuns u 1 ⟨4, ctrlOf pa, pa⟩ ∧ u.rd .MEM_SAVEALL_VALID (ctrlOf pa) e = 1 ∧
          u.rd .MEM_SAVEALL_BLOCK (ctrlOf pa) e = blockOf pa ∧ u.mem.l2 = s.mem.l2 ∧
          ∀ i < 256, u.rawByte (pa / 256 * 256 + i) = s.rawByte (pa / 256 * 256 + i) ∧
            u.storedAt (pa / 256 * 256 + i) = placeOf (ctrlOf pa) (s.spareBlock e) + i)) ∧
    (12 ≤ arg.toNat →
      ∃ a b : State, exec (.selftest arg) s = .next a ∧ exec (.retrain arg) s = .next b ∧
        a.rd .MEM_MAINT_RESULT_STATUS = stBadValue ∧ b.rd .MEM_MAINT_RESULT_STATUS = stBadValue ∧
        a = { s with regs := a.regs } ∧ b = { s with regs := b.regs }) ∧
    (s.maint.running = [⟨1, 0, 0⟩] → s.maint.paused = [] → s.maint.waiting = [] → s.xlt.inval = [] → s.pwr.doms = [] →
      (∀ k < 2, s.rd .FLT_PORT_STATE k = 0) → (∀ c : Fin 12, s.domState (domMc c) = 0) →
      (∃ u, exec .scrubStop s = .next u ∧ u.maint = { s.maint with running := [] } ∧ u.rd .MEM_MAINT_RESULT_STATUS = 0 ∧
        u = { s with regs := u.regs, maint := u.maint }) ∧
      (∃ u, exec .scrubStart s = .next u ∧ u.rd .MEM_MAINT_RESULT_STATUS = stMem 6 0x101 ∧ u = { s with regs := u.regs }) ∧
      (arg.toNat < 12 →
        ∃ u, exec (.selftest arg) s = .next u ∧ ActRuns u 1 ⟨2, arg.toNat, 0⟩ ∧ u.maint.paused = [⟨1, 0, 0⟩]))

/-- A self-test that ends reports DONE, with the first mismatch's controller and vector, and the paused scrub goes on; a
flush, an insertion or a retraining that ends changes no register; what does not run does not end. -/
def Sys2Proof.Claims.MaintenanceEnds : Prop :=
  ∀ (s : State) (act : Fin 10) (c : Fin 12) (target : Nat) (v : Fin 56), s.live = true →
    (s.maint.running.find? (fun a => a.act = act.val && a.target = target) = none →
      exec (.maintComplete act target none) s = .next s) ∧
    (s.maint.running = [⟨2, c, 0⟩] → s.maint.paused = [⟨1, 0, 0⟩] → s.maint.waiting = [] →
      (∃ u, exec (.maintComplete 2 c none) s = .next u ∧ u.rd .MEM_SELFTEST_DONE = 1 ∧
        u.maint = { s.maint with running := [⟨1, 0, 0⟩], paused := [] } ∧ RegsKept s u [(.MEM_SELFTEST_DONE, 0, 0)]) ∧
      (s.rd .MEM_SELFTEST_FAIL = 0 → s.rd .EVQ_ROUTE_DRAM_ERROR ≤ 33 →
        ∃ u, exec (.maintComplete 2 c (some v)) s = .next u ∧ u.rd .MEM_SELFTEST_DONE = 1 ∧
          u.rd .MEM_SELFTEST_FAIL = 2 ^ c.val ∧ u.rd .MEM_SELFTEST_CTRL = c ∧ u.rd .MEM_SELFTEST_VECTOR = v ∧
          u.maint = { s.maint with running := [⟨1, 0, 0⟩], paused := [] })) ∧
    (∀ a : Act, a.act = 3 ∨ a.act = 4 ∨ a.act = 5 → a.act = act.val → s.maint.running = [a] → s.maint.paused = [] →
      s.maint.waiting = [] →
      exec (.maintComplete act a.target none) s = .next { s with maint := { s.maint with running := [] } })

/-- Maintenance activities start and end. -/
def Obligations.MaintenanceRuns : Prop := MaintenanceStarts ∧ MaintenanceEnds

/-! ### The pulper and the baler -/

/-- A stream slot is enabled empty for its owner. A DECODE, a BALE and an UNBALE whose descriptors are accepted join the end of
their engine's list and are handed off; one that is refused completes with its engine's lowest reason. -/
def Sys2Proof.Claims.CodecCommandsAreTaken : Prop :=
  ∀ (s s1 : State) (p : Fin 32) (q : Fin 16) (c : Cmd) (d : List Byte) (r : Nat),
    (∀ (slot : Fin 48) (owner : BitVec 5), s.pfWrites = true → s.domState (domPlp (slotEngine slot)) = 0 →
      (s.rd .PLP_SLOT_EN slot ≠ 1 →
        ∃ u, exec (.plpSlotEnable slot owner) s = .next u ∧ u.rd .PLP_SLOT_EN slot = 1 ∧
          u.rd .PLP_SLOT_OWNER slot = owner.toNat ∧ u.rd .PLP_SLOT_CODEC slot = 0 ∧ u.plpSlot slot = {} ∧
          (∀ k, k ≠ slot.val → u.plpSlot k = s.plpSlot k) ∧
          RegsKept s u [(.PLP_SLOT_EN, slot, 0), (.PLP_SLOT_OWNER, slot, 0), (.PLP_SLOT_CODEC, slot, 0)] ∧
          u = { s with regs := u.regs, codec := { s.codec with slots := u.codec.slots } }) ∧
      (s.rd .PLP_SLOT_EN slot = 1 → exec (.plpSlotEnable slot owner) s = .next s)) ∧
    (AtHead s p q 0x20 c → s.vRead ⟨.unit, 4, c.p⟩ (.cmd c.id) c.p (c.dword 1) 64 = (s1, .ok d) → s1.cmd c.id = some c →
      s1.domState (domPlp (slotEngine (dSlot d))) = 0 →
      (s1.decodeRefusal c.p c.q d = some r →
        ∃ u, exec (.decode (.queue p q)) s = .next u ∧
          u.cmd c.id = some { c with phase := .handed, result := some (stRefused 2 r) } ∧ u = { s1 with hb := u.hb }) ∧
      (s1.decodeRefusal c.p c.q d = none → s1.ds3Status d = none →
        storeGet [] s1.codec.engines (slotEngine (dSlot d)) ≠ [] →
        ∃ u, exec (.decode (.queue p q)) s = .next u ∧
          storeGet [] u.codec.engines (slotEngine (dSlot d)) = storeGet [] s1.codec.engines (slotEngine (dSlot d)) ++ [c.id] ∧
          storeFind u.codec.descs c.id = some d ∧ (∃ y, u.cmd c.id = some y ∧ y.phase = .handed ∧ y.result = none) ∧
          u = { s1 with hb := u.hb, codec := u.codec })) ∧
    (s.domState domBal = 0 → s1.domState domBal = 0 → c.id ∉ s1.codec.baler → s1.codec.baler ≠ [] → s1.cmd c.id = some c →
      s.vRead ⟨.unit, 5, c.p⟩ (.cmd c.id) c.p (c.dword 1) 64 = (s1, .ok d) →
      let answers (u : State) : Prop :=
        (s1.balRefusal c d = some r → u.cmd c.id = some { c with phase := .handed, result := some (stRefused 3 r) } ∧
          u = { s1 with hb := u.hb }) ∧
        (s1.balRefusal c d = none → u.codec.baler = s1.codec.baler ++ [c.id] ∧ storeFind u.codec.descs c.id = some d ∧
          u.cmd c.id = some { c with phase := .handed } ∧ u = { s1 with hb := u.hb, codec := u.codec })
      (AtHead s p q 0x28 c → ∃ u, exec (.bale (.queue p q)) s = .next u ∧ answers u) ∧
      (AtHead s p q 0x29 c → ∃ u, exec (.unbale (.queue p q)) s = .next u ∧ answers u))

/-- The picture at the front of an engine's list ends by what its input is (a free value): parameter sets complete OK and
stay with the slot, a bad stream or one without a picture reports its error, and in each case the completion record stands at RESULT
before the command's status. A job that consumes nothing and is not FINAL ends with OK and can be resumed; an UNBALE whose input
is a whole stream writes its bytes and ends. -/
def Sys2Proof.Claims.CodecCommandsEnd : Prop :=
  ∀ (s s1 : State) (e : Fin 4) (id : Nat) (c : Cmd) (d bs : List Byte), s.live = true → s.cmd id = some c → c.id = id →
    storeFind s.codec.descs id = some d → c.progress = 1 → c.phase = .handed → c.result = none →
    ((storeGet [] s.codec.engines e).head? = some id → s.admits (0x20 + e) 3 = true → s.admits c.p 3 = true →
      s.plpInput e c d = (s1, some (bs, false)) → s1.cmd id = some c →
      let slot0 := s1.plpSlot (dSlot d)
      let slot : PlpSlot := if bitAt (dFlags d) 2 then { slot0 with dpb := [] } else slot0
      let flushed := if bitAt (dFlags d) 2 then slot0.dpb.map (·.tag) else []
      let fact := plpFact s1.free slot bs
      let wrote (r : PlpRec) : State × Except Fail Unit :=
        s1.takeFree.2.vWrite (plpAsker e c.p) (.cmd id) c.p (leAt d 48 8) r.bytes
      let ends (u : State) (r : PlpRec) (sl : PlpSlot) : Prop :=
        (wrote r).2 = .ok () → (wrote r).1.cmd id = some c →
          u.cmd id = some { c with result := some r.status } ∧ u.plpSlot (dSlot d) = sl ∧
          id ∉ storeGet [] u.codec.engines e ∧ u.mem = (wrote r).1.mem
      ∃ u, exec (.pictureDone e) s = .next u ∧
        (fact 0 % 5 = 1 → ends u { status := stOk, tags := flushed ++ [leAt d 12 4], refs := slot.dpb.length }
          { slot with params := slot.params ++ bs }) ∧
        (fact 0 % 5 = 2 → ends u { status := stPlp 1 (1 + fact 1 % 7), tags := [leAt d 12 4], refs := slot0.dpb.length } slot0) ∧
        (fact 0 % 5 = 3 →
          ends u { status := stPlp 2 (fact 1 % 2 * 32768 + fact 1 / 2 % 256), tags := [leAt d 12 4], refs := slot0.dpb.length }
            slot0) ∧
        (fact 0 % 5 = 4 → ends u { status := stPlp 5 0, tags := [leAt d 12 4], refs := slot0.dpb.length } slot0)) ∧
    (s.codec.baler.head? = some id → bResume d = false → bDictLen d = 0 → s.failedRead (.cmd id) = none →
      let job : BalJob := ⟨c.p, bState d, balDir c, leAt d 42 1, leAt d 43 1, [], [], [], 0⟩
      let block := (List.range 4096).map (Config.internalByte s1.free)
      let t := (s1.takeFree.2.vWrite (balAsker c.p) (.cmd id) c.p (bState d) block).1
      let record (fin used made : Nat) (j : BalJob) : State × Except Fail Unit :=
        t.vWrite (balAsker c.p) (.cmd id) c.p (leAt d 48 8) (balRecord ⟨j, used, made⟩ fin stOk 0 false)
      (s1 = s → c.op = 0x28 → bSrcLen d = 0 → bFinal d = false →
        let j1 : BalJob := { job with ends := [0] }
        (record 2 0 0 j1).2 = .ok () → (record 2 0 0 j1).1.cmd id = some c →
        ∃ u, exec .balerDone s = .next u ∧ u.cmd id = some { c with result := some stOk } ∧ id ∉ u.codec.baler ∧
          u.balJob c.p (bState d) = some j1 ∧ u.mem = (record 2 0 0 j1).1.mem) ∧
      (∀ (s2 : State) (x : InfOut), c.op = 0x29 → bSrcLen d ≤ 65536 → bDstLen d ≤ 65536 →
        s.balRead c d ⟨job, 0, 0⟩ (bSrcLen d) (bDstLen d) = (s2, .ok bs) → inflateJob job.frame bs [] (bDstLen d) = x →
        x.stop = none → (bFinal d = false ∨ x.used = bSrcLen d) →
        s2.vWrite (balAsker c.p) (.cmd id) c.p (leAt d 8 8) x.out = (s1, .ok ()) →
        let j1 : BalJob := { job with input := bs.take x.used, out := x.out.length }
        (record 0 x.used x.out.length j1).2 = .ok () → (record 0 x.used x.out.length j1).1.cmd id = some c →
        ∃ u, exec .balerDone s = .next u ∧ u.cmd id = some { c with result := some stOk } ∧ id ∉ u.codec.baler ∧
          u.balJob c.p (bState d) = none ∧ u.mem = (record 0 x.used x.out.length j1).1.mem))

/-- Decode and bale commands. -/
def Obligations.CodecCommandsRun : Prop := CodecCommandsAreTaken ∧ CodecCommandsEnd

/-! ### The felt ring -/

/-- A message leaves by one of the ports: it waits to be sent, or a flit on the wire carries it. -/
def Sys2Proof.Claims.Sends (u : State) (m : List Byte) : Prop :=
  ∃ k < 2, (∃ x ∈ (u.port k).tx, x.bytes = m) ∨ ∃ fl ∈ (u.port k).wire, slice fl 4 244 = slice m 0 244

/-- A message from another chip is the next of its opcode at port `k`, and no request of its source and tag was performed. -/
def Sys2Proof.Claims.Arrives (s : State) (k : Fin 2) (want : List Byte → Bool) (x : Msg) : Prop :=
  s.live = true ∧ s.rxHead k want = some x ∧
  s.ring.performed.find? (fun y => y.1 = (msgSrc x.bytes, msgTag x.bytes)) = none ∧
  s.inProgress (msgSrc x.bytes) (msgTag x.bytes) = false

/-- The message has left the receive buffer and is answered with a status and data. -/
def Sys2Proof.Claims.Answered (s u : State) (k : Fin 2) (x : Msg) (st : Nat) (data : List Byte) : Prop :=
  (u.port k).rx = (s.port k).rx.erase x ∧
  Sends u (feltMsg 8 s.pos (msgSrc x.bytes) (msgTag x.bytes) (msgPart x.bytes) (toLe 4 st ++ data))

/-- A port that completes training is ACTIVE with the peer and width found and an empty link layer; a failed training and every
link-down are counted, a link-down empties the port's buffers and marks the ring as changing; a withdrawn chip lowers its pins. The
master's REDISCOVER sends a token from each active port. -/
def Sys2Proof.Claims.PortsTrainAndGoDown : Prop :=
  ∀ (s : State) (k : Fin 2) (peer : Fin 16) (wide : Bool) (cause : Fin 3),
    (s.live = true → s.rd .FLT_PORT_ALIVE k = 1 → 1 ≤ s.rd .FLT_PORT_STATE k → s.rd .FLT_PORT_STATE k < 5 →
      (∃ u, exec (.trainingComplete k peer wide) s = .next u ∧ u.rd .FLT_PORT_STATE k = 5 ∧ u.rd .FLT_PORT_PEER k = peer ∧
        u.rd .FLT_PORT_WIDTH k = (if wide then 8 else 4) ∧ (u.port k).rx = [] ∧ u.mem = s.mem) ∧
      (∀ fails : Nat, fails = s.rd .FLT_PORT_RETRAINS k → s.rd .EVQ_ROUTE_RING ≤ 33 →
        ∃ u, exec (.trainFail k cause) s = .next u ∧ u.rd .FLT_PORT_STATE k = 0 ∧
          u.rd .FLT_PORT_RETRAINS k = min 65535 (fails + 1) ∧ (u.port k).failed = true ∧
          ((s.port k).failed = false → kindBit (u.rd .EVQ_PEND_PEND (s.rd .EVQ_ROUTE_RING)) 0x11 = true))) ∧
    (s.live = true → s.rd .FLT_PORT_ALIVE k = 1 → s.rd .FLT_PORT_STATE k = 0 →
      ∃ u, exec (.trainRetry k) s = .next u ∧ u.rd .FLT_PORT_STATE k = 1 ∧ OnlyRegs s u [(.FLT_PORT_STATE, k, 0)]) ∧
    (s.live = true → s.portActive k = true → s.rd .FLT_PORT_ALIVE k ≤ 1 → s.pos ≠ s.rd .GLB_FURNISH_STATUS_MASTER →
      s.rd .EVQ_ROUTE_RING ≤ 33 →
      let down (u : State) : Prop := u.rd .FLT_PORT_STATE k = s.rd .FLT_PORT_ALIVE k ∧ u.rd .FLT_PORT_WIDTH k = 0 ∧
        u.rd .FLT_PORT_RETRAINS k = min 65535 (s.rd .FLT_PORT_RETRAINS k + 1) ∧ u.rd .FLT_STATUS_CHANGING = 1 ∧
        (u.port k).rx = [] ∧ (u.port k).tx = [] ∧ (u.port k).replay = [] ∧ u.hb = s.hb ∧ u.ring.performed = s.ring.performed
      (∃ u, exec (.linkDown k cause) s = .next u ∧ down u) ∧ (∃ u, exec (.lockLoss k) s = .next u ∧ down u) ∧
      (∃ u, exec (.silenceTimeout k) s = .next u ∧ down u)) ∧
    (s.pfWrites = true →
      (∃ u, exec (.withdraw true) s = .next u ∧ u.rd .FLT_CTRL_WITHDRAW = 1 ∧
        (∀ j : Fin 2, u.rd .FLT_PORT_ALIVE j = 0 ∧
          u.rd .FLT_PORT_STATE j = (if s.portActive j then s.rd .FLT_PORT_STATE j else 0)) ∧
        OnlyRegs s u [(.FLT_CTRL_WITHDRAW, 0, 0), (.FLT_PORT_ALIVE, 0, 0), (.FLT_PORT_ALIVE, 1, 0), (.FLT_PORT_STATE, 0, 0),
          (.FLT_PORT_STATE, 1, 0)]) ∧
      (s.ringed = true → s.rd .FLT_STATUS_STRAP_ERR = 0 → (∀ j : Fin 2, s.domState (domFelt j) = 0) →
        ∃ u, exec (.withdraw false) s = .next u ∧ u.rd .FLT_CTRL_WITHDRAW = 0 ∧
          (∀ j : Fin 2, u.rd .FLT_PORT_ALIVE j = 1 ∧
            u.rd .FLT_PORT_STATE j = (if s.rd .FLT_PORT_STATE j = 0 then 1 else s.rd .FLT_PORT_STATE j)) ∧
          OnlyRegs s u [(.FLT_CTRL_WITHDRAW, 0, 0), (.FLT_PORT_ALIVE, 0, 0), (.FLT_PORT_ALIVE, 1, 0), (.FLT_PORT_STATE, 0, 0),
            (.FLT_PORT_STATE, 1, 0)]) ∧
      (s.isMaster = true → s.portActive 0 = true → s.portActive 1 = true →
        ∃ u, exec .rediscover s = .next u ∧ u.rd .FLT_STATUS_CHANGING = 1 ∧ u.ring.tokens = 2 ∧ u.ring.entries = [] ∧
          Sends u (feltMsg 7 s.pos (s.rd .FLT_PORT_PEER 0) s.ring.tagNext 0 (tokenBody 0 [])) ∧
          Sends u (feltMsg 7 s.pos (s.rd .FLT_PORT_PEER 1) ((s.ring.tagNext + 1) % 65536) 0 (tokenBody 1 []))))

/-- The next flit in order is taken and its messages for this chip enter the receive buffer; a bad or unexpected flit is
answered with one NAK and a late one is dropped; a NAK and an acknowledge timeout send every unacknowledged flit again, which is
counted. -/
def Sys2Proof.Claims.FlitsArriveInOrder : Prop :=
  ∀ (s : State) (k : Fin 2) (fl : List Byte) (ms : List (List Byte)), s.live = true → s.portActive k = true →
    s.rd .FLT_PORT_ERR_CRC k < 65536 →
    (fl.length = 256 → flitMsgs fl = some ms → flitCrcOk fl = true → flitKind fl = 1 →
      (flitSeq fl = ((s.port k).rxSeq + 1) % 256 → (∀ m ∈ (s.port k).rx, msgDst m.bytes = s.pos) →
        (∀ m ∈ ms, msgDst m = s.pos) →
        ∃ u, exec (.flitReceive k fl) s = .next u ∧ (u.port k).rxSeq = flitSeq fl ∧ (u.port k).nakOut = false ∧
          (u.port k).rx = (s.port k).rx ++ ms.map (fun m => ⟨bits (flitHead fl) 5 4, bits (flitHead fl) 6 6, m, s.nextId⟩) ∧
          u.rd .FLT_PORT_ERR_CRC k = s.rd .FLT_PORT_ERR_CRC k ∧ u.mem = s.mem ∧ u.hb = s.hb) ∧
      (flitSeq fl ≠ ((s.port k).rxSeq + 1) % 256 →
        ∃ u, exec (.flitReceive k fl) s = .next u ∧ (u.port k).rxSeq = (s.port k).rxSeq ∧ (u.port k).rx = (s.port k).rx ∧
          (u.port k).nakOut = ((s.port k).nakOut || decide (128 ≤ ((s.port k).rxSeq + 256 - flitSeq fl) % 256)) ∧
          u.mem = s.mem ∧ u.hb = s.hb)) ∧
    (fl.length = 256 → flitCrcOk fl = false →
      ∃ u, exec (.flitReceive k fl) s = .next u ∧ (u.port k).nakOut = true ∧ (u.port k).rx = (s.port k).rx ∧
        (u.port k).rxSeq = (s.port k).rxSeq ∧ u.rd .FLT_PORT_ERR_CRC k = min 65535 (s.rd .FLT_PORT_ERR_CRC k + 1) ∧
        RegsKept s u [(.FLT_PORT_ERR_CRC, k, 0)] ∧ u.mem = s.mem ∧
        (u.port k).wire.length = (s.port k).wire.length + (if (s.port k).nakOut then 0 else 1)) ∧
    (((s.port k).replay = [] → exec (.ackTimeout k) s = .next s) ∧
      ((s.port k).replay ≠ [] → (s.port k).replays < 7 →
        ∃ u, exec (.ackTimeout k) s = .next u ∧ (u.port k).wire = ((s.port k).replay.map (·.2)).reverse ++ (s.port k).wire ∧
          (u.port k).replays = (s.port k).replays + 1 ∧
          u.rd .FLT_PORT_ERR_REPLAYS k = min 65535 (s.rd .FLT_PORT_ERR_REPLAYS k + 1) ∧
          RegsKept s u [(.FLT_PORT_ERR_REPLAYS, k, 0)] ∧ u.mem = s.mem))

/-- The memory requests of other chips: a read of a sector in L2 is answered with its bytes, a write changes exactly its
bytes, an atomic adds in the slice and answers the old value; an address that this chip does not have is answered BAD_PA and
changes nothing; a request performed before is not performed again. -/
def Sys2Proof.Claims.OtherChipsReachMemory : Prop :=
  ∀ (s : State) (k : Fin 2) (x : Msg) (y : Sector),
    let m := x.bytes
    let a := msgAddr m
    let n := msgSize m
    let w := if bitAt (leAt m 16 4) 9 then 8 else 4
    let old := ofLe ((y.bytes.drop (a % 32)).take w)
    let holds (u : State) (n : Nat) (bs : List Byte) : Prop := u.mem.dram = s.mem.dram ∧ u.mem.host = s.mem.host ∧
      ∀ b, u.physByte b = if a ≤ b ∧ b < a + n then bs.getD (b - a) 0 else s.physByte b
    (s.rd .L2_CTRL_EN = 1 → s.l2Hit (a / 32 * 32) = some y → s.domState (domL2 (sliceOf (a / 32 * 32))) = 0 →
      (Arrives s k (fun m => msgOp m = 1) x → 0 < n → a % 32 + n ≤ 32 → s.usableRange a n = true →
        ∃ u, exec (.feltRd k) s = .next u ∧ Answered s u k x stOk ((y.bytes.drop (a % 32)).take n) ∧ u.mem = s.mem) ∧
      (Arrives s k (fun m => msgOp m = 2) x → 0 < n → a % 32 + n ≤ 32 → s.usableRange a n = true →
        ∃ u, exec (.feltWr k) s = .next u ∧ Answered s u k x stOk [] ∧ holds u n (slice m 20 n)) ∧
      (Arrives s k (fun m => msgOp m = 3) x → a % w = 0 → s.usableRange a w = true →
        ∃ u, exec (.feltAtom k) s = .next u ∧ Answered s u k x stOk (toLe 8 old) ∧
          holds u w (toLe w (atomNew (leAt m 16 4 % 256) (8 * w) (bitAt (leAt m 16 4) 8) old (leAt m 20 8 % 2 ^ (8 * w))
            (leAt m 28 8 % 2 ^ (8 * w)))))) ∧
    (oneLine a n = true → s.usableRange a n = false →
      let st := stXlt 4 0 (if s.dramSize < a + n then 0 else 1)
      (Arrives s k (fun m => msgOp m = 1) x → ∃ u, exec (.feltRd k) s = .next u ∧ Answered s u k x st [] ∧ u.mem = s.mem) ∧
      (Arrives s k (fun m => msgOp m = 2) x → ∃ u, exec (.feltWr k) s = .next u ∧ Answered s u k x st [] ∧ u.mem = s.mem)) ∧
    (∀ done : (Nat × Nat) × List Byte, s.live = true → s.rxHead k (fun m => msgOp m = 2) = some x →
      s.ring.performed.find? (fun z => z.1 = (msgSrc m, msgTag m)) = some done →
      ∃ u, exec (.feltWr k) s = .next u ∧ Sends u done.2 ∧ (u.port k).rx = (s.port k).rx.erase x ∧ u.mem = s.mem)

/-- A sync operation of another chip's lane is answered with what the sync unit does, an event record is raised at its
partition's target, a completion brings a waiting quire its bytes and lets it run, and the first chunk of a firmware image is
staged. -/
def Sys2Proof.Claims.OtherChipsSignalAndAnswer : Prop :=
  ∀ (s s1 : State) (k : Fin 2) (x : Msg),
    let m := x.bytes
    (∀ (st data : Nat), Arrives s k (fun m => msgOp m = 4) x → leAt m 10 1 ≠ 0xB7 →
      (s.leaveRx k x).synServe ⟨msgPart m, leAt m 10 1, leAt m 8 2, leAt m 12 4, leAt m 16 8, leAt m 24 8, 0, msgTag m⟩
        (.remote (msgSrc m) (msgTag m)) = (s1, .done st data) →
      ∃ u, exec (.feltSignal k) s = .next u ∧
        Sends u (feltMsg 8 s1.pos (msgSrc m) (msgTag m) (msgPart m) (toLe 4 st ++ toLe 8 data)) ∧ u.sync = s1.sync ∧
        u.mem = s1.mem ∧ u.hb = s1.hb) ∧
    (Arrives s k (fun m => msgOp m = 5) x → leAt m 8 1 ≠ 0x0C → leAt m 8 1 ≠ 0x0D → 1 ≤ leAt m 8 1 → leAt m 8 1 < 32 →
      s.rd .EVQ_CTRL_EN (s.driverTarget (msgPart m)) = 0 →
      ∃ u, exec (.feltEvt k) s = .next u ∧ Answered s u k x stOk [] ∧
        kindBit (u.rd .EVQ_PEND_PEND (s.driverTarget (msgPart m))) (leAt m 8 1) = true ∧ u.mem = s.mem) ∧
    (∀ (r : Req) (v q : Nat) (z : Quire) (l : List Nat), s.live = true → s.rxHead k (fun m => msgOp m = 8) = some x →
      s.ring.reqs.find? (fun r => r.id = msgTag m && r.dst = some (msgSrc m)) = some r → leAt r.msg 0 1 = 1 →
      r.owner = .quire v q → r.addr < walkTag → leAt (msgBody m) 0 4 = 0 → s.quire v q = some z → z.wait = .remote l →
      s.isMaster = false → s.ring.fw = none → (∀ e ∈ s.launches, ∃ c, e.2.use = .compute c) →
      (∀ y ∈ s.ring.reqs, y.id ≠ r.id → Owner.ofQuire v q y.owner = false) →
      (∀ y ∈ s.pcie.reqs, Owner.ofQuire v q y.owner = false) → (∀ w ∈ s.xlt.waits, w.who ≠ .quire v q) →
      ∃ u, exec (.cpl k) s = .next u ∧ u.quire v q = some { z with wait := .run } ∧
        u.xlt.fetched = s.xlt.fetched ++ [⟨.quire v q, r.addr, ((msgBody m).drop 4).take r.n⟩] ∧
        u.ring.reqs = s.ring.reqs.filter (fun y => y.id ≠ r.id) ∧ (u.port k).rx = (s.port k).rx.erase x ∧ u.mem = s.mem) ∧
    (let image := leAt (m.drop 8) 0 4
     let total := leAt (m.drop 8) 8 4
     let data := ((m.drop 8).drop 12).take (min 192 total)
     Arrives s k (fun m => msgOp m = 6) x → leAt (m.drop 8) 4 4 = 0 → s.canStage total = true → s.ring.fw = none →
      s.ring.fwImage ≠ image → data.length < total → s.portActive (1 - k.val) = false →
      ∃ u, exec (.fwchunk k) s = .next u ∧ Answered s u k x stOk [] ∧
        u.ring.fw = some { image := image, total := total, got := data.length } ∧
        u.mem = (s.physWrite (s.addrOf .FLT_FW_STAGE_ADDR) data).mem)

/-- Felt ports and flits. -/
def Obligations.FeltPortsRun : Prop := PortsTrainAndGoDown ∧ FlitsArriveInOrder

/-- Messages of other chips. -/
def Obligations.OtherChipsAreServed : Prop := OtherChipsReachMemory ∧ OtherChipsSignalAndAnswer

/-- A RINGCTL message of subcode `sub` is the next at port `k`, and was not performed. -/
def Sys2Proof.Claims.ArrivesCtl (s : State) (k : Fin 2) (sub : Nat) (x : Msg) : Prop :=
  Arrives s k (fun m => msgOp m = 7 && msgSub m = sub) x

/-- Nothing of the ring, of a stop or of an invalidation is under way. -/
def Sys2Proof.Claims.RingQuiet (s : State) : Prop :=
  s.ring.reqs = [] ∧ s.ring.columns = [] ∧ s.ring.fw = none ∧ s.furn.delta = none ∧ s.hb.stops = [] ∧ s.xlt.inval = [] ∧
  s.ring.funcs = [] ∧ s.launches = []

/-- Discovery and membership: a token at a member goes on with its entry, the master collects a returned one, a measurement
answers the furnish's SHA-512, a membership is installed, a heartbeat and a link change are answered, a chip that is ready is noted; a
bad subcode is answered as such. The master beats; an orphaned chip says so once. -/
def Sys2Proof.Claims.RingMembershipIsKept : Prop :=
  ∀ (s : State) (k : Fin 2) (x : Msg),
    let b := ctlBody x.bytes
    (ArrivesCtl s k 1 x → s.isMaster = false → s.portActive (1 - k.val) = true → leAt b 1 1 = 0 →
      let flags := b2n s.pins.straps.master + 2 * b2n s.spare
      ∃ u, exec (.token k) s = .next u ∧ Answered s u k x stOk [] ∧ u.rd .FLT_STATUS_CHANGING = 1 ∧
        Sends u (feltMsg 7 s.pos (s.rd .FLT_PORT_PEER (1 - k.val)) s.ring.tagNext 0 (tokenBody (leAt b 0 1) [(s.pos, flags)]))) ∧
    (ArrivesCtl s k 1 x → s.isMaster = true → 2 ≤ s.ring.tokens →
      ∃ u, exec (.token k) s = .next u ∧ Answered s u k x stOk [] ∧ u.ring.tokens = s.ring.tokens - 1 ∧
        u.ring.entries = s.ring.entries ++ (tokenEntries b).map (fun e => (e.1, e.2 % 256 + 256 * (leAt b 0 1 % 2))) ∧
        u.mem = s.mem) ∧
    (ArrivesCtl s k 2 x → ∃ u, exec (.measure k) s = .next u ∧
      Answered s u k x stOk (sha512 (s.furn.base ++ s.furn.deltas.flatten)) ∧ u.mem = s.mem) ∧
    (ArrivesCtl s k 3 x → RingQuiet s → s.rd .EVQ_ROUTE_RING ≤ 33 → bitAt (leAt b 2 2) s.pos = true →
      ∃ u, exec (.membership k) s = .next u ∧ u.rd .FLT_STATUS_EPOCH = leAt b 0 2 ∧ u.rd .FLT_MEMBERS_LIVE = leAt b 2 2 ∧
        u.rd .FLT_MEMBERS_REACH = leAt b 4 2 ∧ u.rd .FLT_STATUS_LIVE = 1 ∧ u.rd .FLT_STATUS_ORPHAN = 0 ∧
        u.rd .FLT_STATUS_CHANGING = 0 ∧ kindBit (u.rd .EVQ_PEND_PEND (s.rd .EVQ_ROUTE_RING)) 0x11 = true) ∧
    (ArrivesCtl s k 4 x → ∃ u, exec (.heartbeat k) s = .next u ∧ Answered s u k x stOk [] ∧ u.mem = s.mem) ∧
    (ArrivesCtl s k 5 x → s.isMaster = false →
      ∃ u, exec (.linkChange k) s = .next u ∧ Answered s u k x stOk [] ∧ u.mem = s.mem) ∧
    (ArrivesCtl s k 0x0F x → (s.isMaster = false ∨ s.ring.tokens ≠ 0) →
      ∃ u, exec (.ready k) s = .next u ∧ Answered s u k x stOk [] ∧ u.ring.ready.contains (leAt b 0 4 % 16) = true ∧
        u.mem = s.mem) ∧
    (Arrives s k (fun m => msgOp m = 7 && (msgSub m = 0 || 0x0F < msgSub m)) x →
      ∃ u, exec (.badSub k) s = .next u ∧ Answered s u k x (stRing 0x0A (msgSub x.bytes)) [] ∧ u.mem = s.mem) ∧
    (∀ n : Nat, s.live = true → s.isMaster = true → s.otherMembers = [n] → s.rd .FLT_STATUS_CHANGING = 0 →
      s.rd .FLT_STATUS_ORPHAN = 0 →
      ∃ u, exec .heartbeatSend s = .next u ∧ u.mem = s.mem ∧
        Sends u (feltMsg 7 s.pos n s.ring.tagNext 0 ([4, 0, 0, 0] ++ toLe 2 (s.rd .FLT_STATUS_EPOCH)))) ∧
    (s.live = true → s.ringed = true → s.isMaster = false → s.rd .FLT_STATUS_ORPHAN = 0 → s.spanParts = [] → RingQuiet s →
      s.rd .EVQ_ROUTE_RING ≤ 33 →
      ∃ u, exec .orphaned s = .next u ∧ u.rd .FLT_STATUS_ORPHAN = 1 ∧ u.hb = s.hb ∧ u.vats = s.vats ∧
        kindBit (u.rd .EVQ_PEND_PEND (s.rd .EVQ_ROUTE_RING)) 0x11 = true)

/-- What the ring's other messages do at a chip: pieces of a delta are collected and the last one is verified and staged; a
failed COMMIT drops the staged delta; a replayed delta that does not follow is ignored; a teardown stop that meets no work is answered
at once; a root is taken; an invalidation starts and is answered later; a column's launch starts; the last column ends its command;
a firmware result is noted. -/
def Sys2Proof.Claims.RingRequestsAreCarriedOut : Prop :=
  ∀ (s : State) (k : Fin 2) (x : Msg),
    let m := x.bytes
    let b := ctlBody m
    let total := leAt (m.drop 8) 8 4
    let data := ((m.drop 8).drop 12).take (total - leAt (m.drop 8) 4 4)
    let got := (if leAt (m.drop 8) 4 4 = 0 then [] else s.furn.rx) ++ data
    let next := (if leAt (m.drop 8) 4 4 = 0 then [] else s.furn.rx).length = leAt (m.drop 8) 4 4
    (next → got.length ≠ total →
      (ArrivesCtl s k 6 x → ∃ u, exec (.prepare k) s = .next u ∧ Answered s u k x stOk [] ∧ u.furn = { s.furn with rx := got }) ∧
      (ArrivesCtl s k 8 x → ∃ u, exec (.deltaReplay k) s = .next u ∧ Answered s u k x stOk [] ∧
        u.furn = { s.furn with rx := got })) ∧
    (next → got.length = total →
      (ArrivesCtl s k 6 x → (∃ r, s.checkDelta got got.length = .ok r) →
        ∃ u, exec (.prepare k) s = .next u ∧ Answered s u k x stOk [] ∧ u.furn = { s.furn with rx := [], staged := some got } ∧
          ∀ j ∈ s.listedHere (furnFunctions got), u.funcState j = fnStaged) ∧
      (ArrivesCtl s k 6 x → (∀ e, s.checkDelta got got.length = .error e →
        ∃ u, exec (.prepare k) s = .next u ∧ Answered s u k x e.status [] ∧ u.furn = { s.furn with rx := [] })) ∧
      (ArrivesCtl s k 8 x → furnBase got ≠ s.rd .GLB_FURNISH_GEN_GENERATION →
        ∃ u, exec (.deltaReplay k) s = .next u ∧ Answered s u k x stOk [] ∧ u.furn = { s.furn with rx := [] })) ∧
    (∀ bs, ArrivesCtl s k 7 x → leAt b 0 4 ≠ 0 → s.furn.staged = some bs →
      ∃ u, exec (.commit k) s = .next u ∧ Answered s u k x stOk [] ∧ u.furn = { s.furn with staged := none } ∧
        u.rd .GLB_LOAD_RESULT_STATUS = leAt b 0 4 ∧
        ∀ j ∈ s.listedHere (furnFunctions bs), u.funcState j = fnStopped ∨ u.funcState j = fnAbsent) ∧
    (ArrivesCtl s k 9 x → leAt b 0 2 = 4 → msgPart m = leAt b 2 2 % 32 → s.hb.stops = [] → s.vats = [] → s.geo.passes = [] → s.codec = {} → s.launches = [] →
      s.hb.queues = [] → s.ring.funcs = [] → s.spanning (leAt b 2 2 % 32) = false →
      ∃ u, exec (.func k) s = .next u ∧ Answered s u k x stOk [] ∧ u.ring.funcs = [] ∧ u.mem = s.mem ∧
        ∀ w ∈ u.xlt.waits, w.p ≠ leAt b 2 2 % 32) ∧
    (ArrivesCtl s k 0x0A x →
      ∃ u, exec (.root k) s = .next u ∧ Answered s u k x stOk [] ∧ u.mem = s.mem ∧
        u.addrOf .XLT_ROOT_ADDR (leAt b 0 4 % 32) = leAt b 4 8 / 4096 % 2 ^ 36 * 4096 ∧
        u.rd .XLT_ROOT_EN (leAt b 0 4 % 32) = leAt b 4 8 % 2) ∧
    (let p := leAt b 0 4 % 32
     ArrivesCtl s k 0x0B x → s.spanning p = false → s.xlt.inval.any (fun y => y.1 = p) = false →
      ∃ u, exec (.invalidate k) s = .next u ∧ (u.port k).rx = (s.port k).rx.erase x ∧ u.rd .XLT_INV_DONE_BUSY p = 1 ∧
        storeFind u.xlt.inval p = some ⟨leAt b 4 4, leAt b 8 8 / 4096 % 2 ^ 36 * 4096, localCaches, true⟩ ∧
        u.ring.funcs = s.ring.funcs ++ [⟨msgSrc m, msgTag m, 5, p⟩] ∧ u.mem = s.mem) ∧
    (∀ (s2 : State) (l : Launch), ArrivesCtl s k 0x0C x →
      ({ s with nextId := s.nextId + 1 }).readLaunch (leAt b 0 4 % 32) (.remote (msgSrc m) (msgTag m)) (leAt b 4 8) s.nextId
        (.column (msgSrc m) (leAt b 12 8)) = (s2, .ok l) →
      ∃ u, exec (.column k) s = .next u ∧ u.launch s.nextId = some { l with total := l.gz } ∧
        Sends u (feltMsg 8 s2.pos (msgSrc m) (msgTag m) (msgPart m) (toLe 4 stOk)) ∧ u.mem = s2.mem) ∧
    (∀ (id c chip : Nat) (l : Launch) (y : Cmd), ArrivesCtl s k 0x0D x → leAt b 4 8 < 2 ^ 48 → s.hb.stops = [] →
      s.ring.columns = [(id * 2 ^ 48 + leAt b 4 8, (chip, 0))] → s.launch id = some l → l.p = leAt b 0 4 % 32 →
      l.retired + 1 = l.total → l.use = .compute c → s.cmd c = some y → y.phase = .handed → y.result = none →
      ∃ u, exec (.columnDone k) s = .next u ∧ Answered s u k x stOk [] ∧ u.launch id = none ∧ u.ring.columns = [] ∧
        u.cmd c = some { y with result := some (leAt b 12 4) } ∧ u.mem = s.mem) ∧
    (ArrivesCtl s k 0x0E x → s.isMaster = true → leAt b 0 4 = s.ring.fwImage →
      ∃ u, exec (.fwResult k) s = .next u ∧ Answered s u k x stOk [] ∧ u.mem = s.mem ∧
        (statusOk (leAt b 4 4) = true → bitAt (u.rd .FLT_FW_STATUS_DONE) (msgSrc m) = true) ∧
        (statusOk (leAt b 4 4) = false → bitAt (u.rd .FLT_FW_STATUS_FAILED) (msgSrc m) = true))

/-- Ring control. -/
def Obligations.RingControlActs : Prop := RingMembershipIsKept ∧ RingRequestsAreCarriedOut

/-! ### Power -/

/-- A request for RET or OFF of an ON domain enters it, or is refused by the first refuser and counted; OFF drops what RET
keeps at once; ON lets a sleeping domain exit; a domain that is only ON, and a VAT domain without a vat assigned, refuse with their
status and change no state. -/
def Sys2Proof.Claims.DomainRequests : Prop :=
  ∀ (s : State) (who : Requester) (dom : Fin 105), s.powerAsk who = true →
    (101 ≤ dom.val →
      (∃ u, exec (.targetRet who dom) s = .next u ∧ u.rd .PWR_DOM_RESULT_STATUS dom = stPwr 1 dom ∧
        OnlyRegs s u [(.PWR_DOM_CTRL_TARGET, dom, 0), (.PWR_DOM_RESULT_STATUS, dom, 0)]) ∧
      (∃ u, exec (.targetOff who dom) s = .next u ∧ u.rd .PWR_DOM_RESULT_STATUS dom = stPwr 1 dom ∧
        OnlyRegs s u [(.PWR_DOM_CTRL_TARGET, dom, 0), (.PWR_DOM_RESULT_STATUS, dom, 0)])) ∧
    (s.domAssigned dom = false →
      ∃ u, exec (.targetOn who dom) s = .next u ∧ u.rd .PWR_DOM_RESULT_STATUS dom = stPwr 2 dom ∧
        OnlyRegs s u [(.PWR_DOM_CTRL_TARGET, dom, 0), (.PWR_DOM_RESULT_STATUS, dom, 0)]) ∧
    (∀ st : Nat, s.domAssigned dom = true → s.domState dom = st → st = 2 ∨ st = 3 →
      ∃ u, exec (.targetOn who dom) s = .next u ∧ u.domState dom = 4 ∧ u.rd .PWR_DOM_RESULT_STATUS dom = 0 ∧
        storeFind u.pwr.doms dom = some ⟨true, st⟩ ∧
        RegsKept s u [(.PWR_DOM_CTRL_TARGET, dom, 0), (.PWR_DOM_RESULT_STATUS, dom, 0), (.PWR_DOM_STATE_STATE, dom, 0)] ∧
        u = { s with regs := u.regs, pwr := { s.pwr with doms := u.pwr.doms } }) ∧
    (dom.val < 101 → s.domState dom = 0 → s.domRefuser dom = none →
      (∃ u, exec (.targetRet who dom) s = .next u ∧ u.domState dom = 1 ∧ u.rd .PWR_DOM_RESULT_STATUS dom = 0 ∧
        u.rd .PWR_DOM_CTRL_TARGET dom = 1 ∧ storeFind u.pwr.doms dom = some ⟨false, 2⟩ ∧ u.mem = s.mem ∧ u.vats = s.vats) ∧
      (∃ u, exec (.targetOff who dom) s = .next u ∧ u.domState dom = 1 ∧ u.rd .PWR_DOM_RESULT_STATUS dom = 0 ∧
        u.rd .PWR_DOM_CTRL_TARGET dom = 2 ∧ storeFind u.pwr.doms dom = some ⟨false, 3⟩ ∧ u.mem = s.mem ∧ u.vats = s.vats)) ∧
    (∀ r : Nat, dom.val < 101 → s.domState dom = 0 → s.domRefuser dom = some r →
      ∃ u, exec (.targetOff who dom) s = .next u ∧ u.domState dom = 0 ∧ u.rd .PWR_DOM_STATE_REFUSER dom = r ∧
        u.rd .PWR_DOM_RESULT_STATUS dom = stPwr 3 (r * 256 + dom) ∧
        u.rd .PWR_DOM_COUNT_REFUSED dom = min 65535 (s.rd .PWR_DOM_COUNT_REFUSED dom + 1) ∧ u = { s with regs := u.regs }) ∧
    (dom.val < 101 → s.domState dom = 2 →
      ∃ u, exec (.targetOff who dom) s = .next u ∧ u.domState dom = 3 ∧ storeFind u.pwr.ret dom = none ∧
        u.rd .PWR_DOM_RESULT_STATUS dom = 0 ∧ u.mem = s.mem)

/-- A domain's own request after its idle time is like one, but its refusal is silent. At the end of its entry a domain is in RET
or OFF, its registers read their reset values, a slice's lines are gone and a vat keeps no register cache; a wake aborts an entry,
which is counted, or starts the exit; at its end the domain is ON with what RET kept. -/
def Sys2Proof.Claims.DomainTransitionsEnd : Prop :=
  ∀ (s : State) (dom : Fin 105), s.live = true →
    (s.rd .PWR_DOM_CTRL_AUTO dom = 0 → exec (.domainIdleExpiry dom) s = .next s) ∧
    (s.rd .PWR_DOM_CTRL_AUTO dom ≠ 0 → s.rd .PWR_DOM_CTRL_TARGET dom = 1 → dom.val < 101 → s.domState dom = 0 →
      (s.domRefuser dom = none → ∃ u, exec (.domainIdleExpiry dom) s = .next u ∧ u.domState dom = 1 ∧
        storeFind u.pwr.doms dom = some ⟨false, 2⟩ ∧ u.mem = s.mem) ∧
      (∀ r, s.domRefuser dom = some r → exec (.domainIdleExpiry dom) s = .next s)) ∧
    (∀ t : Nat, storeFind s.pwr.doms dom = some ⟨false, t⟩ → t = 2 ∨ t = 3 → s.maint = {} → dom.val < 101 →
      (∀ c : Fin 12, s.domState (domMc c) = 0 ∨ dom.val < 64 ∨ 80 ≤ dom.val) →
      ∃ u, exec (.domainEntryDone dom) s = .next u ∧ u.domState dom = t ∧ storeFind u.pwr.doms dom = none ∧
        u.rd .PWR_DOM_STATE_ENTRIES dom = min 65535 (s.rd .PWR_DOM_STATE_ENTRIES dom + 1) ∧
        (∀ (f : Field) (i j : Nat), inDomain dom (f.key i j) = true → u.rd f i j = f.spec.reset) ∧
        (t = 2 → ∃ l, storeFind u.pwr.ret dom = some l) ∧
        (dom.val < 64 → (u.vat dom).rc = [] ∧ (u.vat dom).l1 = []) ∧
        (64 ≤ dom.val → dom.val < 80 → ∀ e ∈ u.mem.l2, sliceOf (32 * e.1) ≠ dom.val - 64)) ∧
    (s.domAssigned dom = true →
      (s.domState dom = 0 → exec (.domainWake dom) s = .next s) ∧
      (s.domState dom = 2 ∨ s.domState dom = 3 →
        ∃ u, exec (.domainWake dom) s = .next u ∧ u.domState dom = 4 ∧
          storeFind u.pwr.doms dom = some ⟨true, s.domState dom⟩ ∧ RegsKept s u [(.PWR_DOM_STATE_STATE, dom, 0)]) ∧
      (s.domState dom = 1 →
        ∃ u, exec (.domainWake dom) s = .next u ∧ u.domState dom = 4 ∧ storeFind u.pwr.doms dom = some ⟨true, 0⟩ ∧
          u.rd .PWR_DOM_COUNT_ABORTED dom = min 65535 (s.rd .PWR_DOM_COUNT_ABORTED dom + 1) ∧
          u.rd .PWR_DOM_RESULT_STATUS dom = stPwr 4 dom ∧ u.mem = s.mem)) ∧
    (∀ (x : Nat) (f : Field) (i j v : Nat), storeFind s.pwr.doms dom = some ⟨true, x⟩ → s.maint = {} → dom.val < 101 →
      (storeFind s.pwr.ret dom = none →
        ∃ u, exec (.domainExitDone dom) s = .next u ∧ u.domState dom = 0 ∧ storeFind u.pwr.doms dom = none ∧
          RegsKept s u [(.PWR_DOM_STATE_STATE, dom, 0)] ∧ u.mem = s.mem) ∧
      (storeFind s.pwr.ret dom = some [(f.key i j, v)] → i < 65536 → j < 65536 → inDomain dom (f.key i j) = true →
        ∃ u, exec (.domainExitDone dom) s = .next u ∧ u.domState dom = 0 ∧ storeFind u.pwr.ret dom = none ∧ u.rd f i j = v))

/-- A rail's points are written unless the voltage would be too low for the frequency, or latched while a change runs. A
rail that is asked for less falls at once; one that is asked for more goes there when its regulator reads back, and stays, with a POWER
record, when it does not. -/
def Sys2Proof.Claims.OperatingPoints : Prop :=
  ∀ (s : State) (rail : Fin 3) (vop fop : BitVec 4),
    (s.pfWrites = true → storeFind s.pwr.change rail = none →
      (min vop.toNat (railTop rail) < min fop.toNat (railTop rail) →
        ∃ u, exec (.dvfsWrite rail vop fop) s = .next u ∧ u.rd .PWR_DVFS_RESULT_STATUS rail = stPwr 5 (rail * 256) ∧
          OnlyRegs s u [(.PWR_DVFS_RESULT_STATUS, rail, 0)]) ∧
      (min fop.toNat (railTop rail) ≤ min vop.toNat (railTop rail) →
        ∃ u, exec (.dvfsWrite rail vop fop) s = .next u ∧ u.rd .PWR_DVFS_VOP rail = vop.toNat ∧
          u.rd .PWR_DVFS_FOP rail = fop.toNat ∧ u.rd .PWR_DVFS_RESULT_STATUS rail = 0 ∧
          u.rd (railField rail) = min (s.rd (railField rail)) (u.railPoint rail) ∧
          (s.rd (railField rail) < u.railPoint rail → storeFind u.pwr.change rail = some (u.railPoint rail)) ∧
          u.rd .PWR_STATUS_LIMITED = u.limitedBits ∧ u.mem = s.mem)) ∧
    (∀ t, s.pfWrites = true → storeFind s.pwr.change rail = some t →
      ∃ u, exec (.dvfsWrite rail vop fop) s = .next u ∧ storeFind u.pwr.latched rail = some (vop.toNat, fop.toNat) ∧
        u = { s with pwr := { s.pwr with latched := u.pwr.latched } }) ∧
    (s.live = true → storeFind s.pwr.change rail = some (s.railPoint rail) → storeFind s.pwr.latched rail = none →
      (∃ u, exec (.avsReadback rail) s = .next u ∧ u.rd (railField rail) = s.railPoint rail ∧
        storeFind u.pwr.change rail = none ∧ u.mem = s.mem) ∧
      (s.rd (railField rail) < s.railPoint rail → s.rd .EVQ_ROUTE_POWER ≤ 33 →
        ∃ u, exec (.avsTimeout rail) s = .next u ∧ u.rd (railField rail) = s.rd (railField rail) ∧
          storeFind u.pwr.change rail = none ∧ u.rd .PWR_DVFS_RESULT_STATUS rail = stPwr 6 (rail * 256) ∧
          kindBit (u.rd .EVQ_PEND_PEND (s.rd .EVQ_ROUTE_POWER)) 0x13 = true))

/-- A bin moves the reserve, the window and the caps; a current trip sets the current cap below the effective point; a thermal
trip resets the device; an hour at point 4 is counted, and the last blows the fuse; the two pins hold the thermal cap down while their
features have them. -/
def Sys2Proof.Claims.LimitsAct : Prop :=
  ∀ (s : State) (power : Nat) (temp : Int) (sensor : Fin 16) (low : Bool), s.powered = true →
    s.rd .EVQ_ROUTE_POWER ≤ 33 → s.rd .EVQ_ROUTE_THERMAL ≤ 33 → s.rd .PWR_LIMIT_POWER ≤ 4 →
    (let b := (s.setTemp temp sensor).addBin power
     let cap := s.rd .PWR_LIMIT_THERMAL
     ∃ u, exec (.limiterBin power temp sensor low) s = .next u ∧ u.rd .PWR_TEMP_TEMP = wrapN 8 temp ∧
        u.rd .PWR_TEMP_SENSOR = sensor ∧ u.pwr.bins = power :: s.pwr.bins.take 9 ∧
        u.pwr.reserve = min 6250000 (s.pwr.reserve + s.classPower - power) ∧
        u.rd .PWR_LIMIT_POWER = ((s.rd .PWR_LIMIT_POWER : Int) + b.capStep).toNat ∧
        u.rd .PWR_LIMIT_CURRENT = (if low then min 4 (s.rd .PWR_LIMIT_CURRENT + 1) else s.rd .PWR_LIMIT_CURRENT) ∧
        (105 ≤ temp → 0 < cap → u.rd .PWR_LIMIT_THERMAL = min (cap - 1) s.thermTop) ∧
        (100 ≤ temp → temp < 105 → u.rd .PWR_LIMIT_THERMAL = min cap s.thermTop)) ∧
    (∃ u, exec .currentTrip s = .next u ∧ u.rd .PWR_LIMIT_CURRENT = min (s.railFop 0) (s.rd .PWR_STATUS_ARR) - 1 ∧
        u.rd .PWR_LIMIT_TRIPS = min (2 ^ Field.width .PWR_LIMIT_TRIPS - 1) (s.rd .PWR_LIMIT_TRIPS + 1) ∧
        (s.live = true → s.pwr.curSince = 10 →
          kindBit (u.rd .EVQ_PEND_PEND (s.rd .EVQ_ROUTE_POWER)) 0x13 = true ∧ u.pwr.curSince = 0)) ∧
    (temp < 115 → exec (.thermalTrip temp sensor) s = .next s) ∧
    (115 ≤ temp → s.inReset = false → s.rd .MGC_MBOX_CTRL_PENDING ≤ 1 → s.rd .PWR_WEAR_SECONDS < 2 ^ 32 →
      s.rd .GLB_DEVRESET_CTRL_COUNT < 256 →
      ∃ u, exec (.thermalTrip temp sensor) s = .next u ∧ DeviceResetTo s u 0x1F060000 ∧ u.rd .PWR_STATUS_TRIPPED = 1 ∧
        u.pins.thermTrip = true ∧ u.pwr.tripOwed = some sensor.val) ∧
    (s.live = true → s.mgc.booted = true → s.rd .PWR_STATUS_ARR = 4 →
      ∃ u, exec .wearHour s = .next u ∧ u.rd .PWR_WEAR_SECONDS = min 72000000 (s.rd .PWR_WEAR_SECONDS + 3600) ∧
        u.mgc.fuses = (if 72000000 ≤ s.rd .PWR_WEAR_SECONDS + 3600 then { s.mgc.fuses with peakWorn := true }
          else s.mgc.fuses) ∧
        (72000000 ≤ s.rd .PWR_WEAR_SECONDS + 3600 → u.rd .PWR_STATUS_WORN = 1)) ∧
    (∃ u, exec (.vrHot low) s = .next u ∧ bitAt u.pins.gpioIn 7 = !low ∧
        u.rd .PWR_LIMIT_THERMAL = min (s.rd .PWR_LIMIT_THERMAL) u.thermTop ∧
        (low = true → s.featureOn 0x07 = true → u.rd .PWR_LIMIT_THERMAL ≤ 2) ∧ u.hb = s.hb) ∧
    (∃ u, exec (.pwrBrake low) s = .next u ∧ bitAt u.pins.gpioIn 8 = !low ∧
        u.rd .PWR_LIMIT_THERMAL = min (s.rd .PWR_LIMIT_THERMAL) u.thermTop ∧
        (low = true → s.featureOn 0x06 = true → u.rd .PWR_LIMIT_THERMAL = 0) ∧ u.hb = s.hb)

/-- Power domains. -/
def Obligations.DomainsTakePowerRequests : Prop := DomainRequests ∧ DomainTransitionsEnd

/-- Operating points and limits. -/
def Obligations.PointsAndLimitsAct : Prop := OperatingPoints ∧ LimitsAct

/-! ### The management controller -/

/-- The mailbox takes a command: the PF may write, the MGC runs, and no command is pending (R489, R490). -/
def Sys2Proof.Claims.MboxTakes (s : State) : Prop :=
  s.pfWrites = true ∧ s.mgc.booted = true ∧ s.rd .MGC_BOOT_STATUS_STAGE = 5 ∧ s.rd .MGC_MBOX_CTRL_PENDING = 0

/-- The mailbox takes command `cmd`, and reading its request record of `n` bytes leaves `s1` and gives `r`. -/
def Sys2Proof.Claims.MboxReads (s s1 : State) (cmd n : Nat) (r : List Byte) : Prop :=
  MboxTakes s ∧ (s.wr .MGC_MBOX_CTRL_CMD cmd).mgcRead (s.addrOf .MGC_MBOX_ARG_ADDR) n = (s1, some r)

/-- The command completes with a cause and a detail (R489). -/
def Sys2Proof.Claims.MboxEnds (u : State) (cause detail : Nat) : Prop :=
  u.rd .MGC_MBOX_CTRL_PENDING = 0 ∧ u.rd .MGC_MBOX_RESULT_CAUSE = cause ∧ u.rd .MGC_MBOX_RESULT_DETAIL = detail

/-- FINALISE: a record that breaks its table completes with BAD_REQUEST and writes nothing; otherwise the result record is
written, and the native image before it when RESULT is 0 and it fits. -/
def Sys2Proof.Claims.FinaliseWritesItsResult : Prop :=
  ∀ (s s1 : State) (r : List Byte), MboxReads s s1 1 32 r →
    let modA := leAt r 0 8
    let out := leAt r 8 8
    let cap := leAt r 16 4
    let res := leAt r 24 8
    let rec' (s : State) (result detail size : Nat) : List Byte :=
      toLe 2 result ++ [0, 0] ++ toLe 4 detail ++ toLe 4 size ++ toLe 4 s.finaliser
    (∀ s' : State, s1.usableRange modA 32 = true → s1.mgcRead modA 32 = (s', none) →
      ∃ u, exec .finalise s = .next u ∧ MboxEnds u 12 0 ∧ (u.mem = s1.mem ∨ u.mem = s'.mem)) ∧
    (modA % 8 ≠ 0 ∨ out % 4096 ≠ 0 ∨ res % 16 ≠ 0 ∨ s1.usableRange res 16 = false ∨ s1.usableRange modA 32 = false ∨
        s1.usableRange out cap = false →
      ∃ u, exec .finalise s = .next u ∧ MboxEnds u 12 0 ∧ u.mem = s1.mem ∧ u.mgc = s1.mgc) ∧
    (∀ (s2 s3 : State) (h bs : List Byte), modA % 8 = 0 → out % 4096 = 0 → res % 16 = 0 → leAt r 20 4 = 0 →
      s1.usableRange res 16 = true → s1.usableRange modA 32 = true → s1.usableRange out cap = true →
      s1.mgcRead modA 32 = (s2, some h) →
      (∀ e, headerErr h = some e → ∃ u, exec .finalise s = .next u ∧ MboxEnds u 0 0 ∧
        u.mem = (s2.physWrite res (rec' s2 e.code.1 e.code.2 0)).mem) ∧
      (headerErr h = none → s2.usableRange modA (32 + 8 * leAt h 8 4) = false →
        ∃ u, exec .finalise s = .next u ∧ MboxEnds u 0 0 ∧ u.mem = (s2.physWrite res (rec' s2 3 8 0)).mem) ∧
      (headerErr h = none → s2.usableRange modA (32 + 8 * leAt h 8 4) = true →
        s2.mgcRead modA (32 + 8 * leAt h 8 4) = (s3, some bs) →
        (∀ e, parseModule bs = .error e → ∃ u, exec .finalise s = .next u ∧ MboxEnds u 0 0 ∧
          u.mem = (s3.physWrite res (rec' s3 e.code.1 e.code.2 0)).mem) ∧
        (∀ m, parseModule bs = .ok m →
          let n := imageSize s3.finaliser m
          (cap < n → ∃ u, exec .finalise s = .next u ∧ MboxEnds u 0 0 ∧ u.mem = (s3.physWrite res (rec' s3 6 n 0)).mem) ∧
          (n ≤ cap → ∃ u, exec .finalise s = .next u ∧ MboxEnds u 0 0 ∧ m ∈ u.mgc.modules ∧
            u.mem = ((s3.physWrite out (imageBytes s3.finaliser m)).physWrite res (rec' s3 0 0 n)).mem))))

/-- Updates: FW_STAGE of an image that fails its checks completes with the cause and leaves the slot untouched; one that
passes appends ERASE and writes the slot that is not active. FW_COMMIT outside a trial completes with NO_TRIAL; in one it raises F,
blows the revocations but that of its own key, and appends COMMIT. FW_REVERT appends ABANDON. FURNISH_WRITE reports a bad bit-stream
by its FURNISH status, and rewrites the copy that ranks lower. -/
def Sys2Proof.Claims.UpdatesAreCheckedAndLogged : Prop :=
  (∀ (s s1 : State) (r : List Byte), MboxReads s s1 2 16 r → leAt r 0 8 = s1.addrOf .FLT_FW_STAGE_ADDR →
    leAt r 0 8 ≠ 0 → leAt r 8 4 ≤ 0x1800000 → leAt r 12 4 = 0 → s1.ringed = false →
    let slot := 1 - activeSlot s1.mgc.log
    (s1.stageBusy = true → ∃ u, exec .fwStage s = .next u ∧ MboxEnds u 10 0 ∧ u.mgc = s1.mgc ∧ u.maint = s1.maint) ∧
    (s1.stageBusy = false → ∃ u, exec .fwStage s = .next u ∧
      (∀ c, s1.checkStaged (leAt r 8 4) slot = .error c → MboxEnds u c 0 ∧ u.mgc = s1.mgc ∧ u.maint = s1.maint) ∧
      (∀ i, s1.checkStaged (leAt r 8 4) slot = .ok i → u.rd .MGC_MBOX_CTRL_PENDING = 1 ∧
        slotState u.mgc.log slot = 0 ∧ u.mgc.image = s1.mgc.image ∧ u.maint.running = s1.maint.running ++ [⟨8, slot, 0⟩]))) ∧
  (∀ s : State, MboxTakes s → s.rd .MGC_MBOX_ARG_ADDR = 0 →
    (s.onTrial = false → ∃ u, exec .fwCommit s = .next u ∧ MboxEnds u 11 0 ∧ u.mgc = s.mgc) ∧
    (∀ i, s.onTrial = true → s.mgc.image = some i →
      ∃ u, exec .fwCommit s = .next u ∧ MboxEnds u 0 0 ∧ u.mgc.fuses.svn = max s.mgc.fuses.svn i.svn ∧
        (∀ k, k < 4 → bitAt u.mgc.fuses.imgRevoke k =
          (bitAt s.mgc.fuses.imgRevoke k || (bitAt i.revoke k && decide (k ≠ i.keySlot)))) ∧
        (∀ k, k < 2 → bitAt u.mgc.fuses.fnsRevoke k = (bitAt s.mgc.fuses.fnsRevoke k || bitAt i.revoke (4 + k))) ∧
        slotState u.mgc.log i.slot = 2 ∧ activeSlot u.mgc.log = i.slot ∧ u.rd .MGC_BOOT_STATUS_TRIAL = 0 ∧ u.mem = s.mem) ∧
    (trialSlot s.mgc.log = none → ∃ u, exec .fwRevert s = .next u ∧ MboxEnds u 11 0 ∧ u.mgc = s.mgc) ∧
    (∀ t, trialSlot s.mgc.log = some t →
      ∃ u, exec .fwRevert s = .next u ∧ MboxEnds u 0 0 ∧ slotState u.mgc.log t = 3 ∧ u.mgc.image = s.mgc.image ∧
        u.mem = s.mem)) ∧
  (∀ (s s1 : State) (r : List Byte), MboxReads s s1 7 16 r →
    let a := leAt r 0 8
    let bs := s1.loadBytes a
    (a % 8 ≠ 0 → ∃ u, exec .furnishWrite s = .next u ∧ MboxEnds u 12 0 ∧ u.mgc = s1.mgc) ∧
    (a % 8 = 0 → a < 2 ^ 44 → leAt r 8 4 ≤ 1 → 64 ≤ bs.length → ∃ u, exec .furnishWrite s = .next u ∧ u.furn = s1.furn ∧
      (∀ e, s1.furnWriteErr bs = some e → MboxEnds u 12 (e.status % 2 ^ 28) ∧ u.mgc = s1.mgc) ∧
      (s1.furnWriteErr bs = none → u.rd .MGC_MBOX_CTRL_PENDING = 1 ∧
        u.flashBytes (furnBaseAddr (1 - s1.furnFirst)) (furnLength bs) = bs.take (furnLength bs) ∧
        u.maint.running = s1.maint.running ++ [⟨8, 3 - s1.furnFirst, 16 * leAt r 8 4⟩])))

/-- ATTEST writes the report of 1,392 bytes and a signature of 512; IDENTITY writes the public key and its certificate; a
record that breaks their table completes with BAD_REQUEST. -/
def Sys2Proof.Claims.ReportsAreWritten : Prop :=
  ∀ (s s1 : State) (r : List Byte),
    let out := leAt r 0 8
    let cap := leAt r 8 4
    (MboxReads s s1 5 48 r →
      (out % 64 ≠ 0 ∨ cap < 1904 ∨ s1.usableRange out 1904 = false →
        ∃ u, exec .attest s = .next u ∧ MboxEnds u 12 0 ∧ u.mem = s1.mem) ∧
      (out % 64 = 0 → 1904 ≤ cap → leAt r 12 4 = 0 → s1.usableRange out 1904 = true →
        ∃ (u : State) (sig : List Byte), exec .attest s = .next u ∧ MboxEnds u 0 0 ∧ sig.length = 512 ∧
          u.mem = (s1.takeFree.2.physWrite out (s1.report (slice r 16 32) ++ sig)).mem)) ∧
    (MboxReads s s1 6 16 r →
      let f := s1.mgc.fuses
      let bs := slice f.identity 0 516 ++ toLe 4 0 ++ toLe 4 (min 4096 f.cert.length) ++ toLe 4 0 ++ f.cert.take 4096
      (cap < 4624 → ∃ u, exec .identity s = .next u ∧ MboxEnds u 12 0 ∧ u.mem = s1.mem) ∧
      (4624 ≤ cap → leAt r 12 4 = 0 → s1.usableRange out bs.length = true →
        ∃ u, exec .identity s = .next u ∧ MboxEnds u 0 0 ∧ u.mem = (s1.physWrite out bs).mem))

/-- A start: with SVC_MODE, and when no slot loads, the chip enters recovery mode; otherwise the first candidate that loads
runs, and BOOT_OK is its newest start. An MGC that runs does not start again. -/
def Sys2Proof.Claims.StartsPickASlot : Prop :=
  ∀ (s : State) (dramOk : Bool),
    (s.mgc.booted = true → exec (.bootStart dramOk) s = .next s) ∧
    (s.live = true → s.mgc.booted = false →
      (s.pins.straps.svcMode = true → ∃ u, exec (.bootStart dramOk) s = .next u ∧ u.rd .MGC_BOOT_STATUS_STAGE = 6 ∧
        u.inRecovery = true ∧ (u.mgc.log.head?.map (·.event)) = some 9 ∧ u.mgc.svcState = 1 ∧
        u.mgc.starts = s.mgc.starts + 1 ∧ u.mem = s.mem ∧ u.mgc.fuses = s.mgc.fuses) ∧
      (∀ c0 c1 : Nat, s.pins.straps.svcMode = false → activeSlot s.mgc.log < 2 →
        s.loadSlot 0 = .error c0 → s.loadSlot 1 = .error c1 →
        ∃ u, exec (.bootStart dramOk) s = .next u ∧ u.rd .MGC_BOOT_STATUS_STAGE = 6 ∧ u.inRecovery = true ∧
          (u.mgc.log.head?.map (·.event)) = some 9 ∧ (u.rd .MGC_BOOT_STATUS_CAUSE = c0 ∨ u.rd .MGC_BOOT_STATUS_CAUSE = c1) ∧
          u.mem = s.mem) ∧
      (s.pins.straps.svcMode = false → trialSlot s.mgc.log = none → activeFails s.mgc.log (activeSlot s.mgc.log) < 2 →
        activeSlot s.mgc.log < 2 → s.pins.dram < 2 ^ 44 →
        ∃ u, exec (.bootStart dramOk) s = .next u ∧ u.mgc.booted = true ∧ u.mgc.starts = s.mgc.starts + 1 ∧
          ∀ i, s.loadSlot (activeSlot s.mgc.log) = .ok i →
            u.mgc.image = some i ∧ u.rd .MGC_BOOT_STATUS_STAGE = 5 ∧ u.rd .MGC_BOOT_STATUS_SLOT = activeSlot s.mgc.log ∧
            u.rd .MEM_DRAM_SIZE_BYTES = (if dramOk then s.pins.dram - 27648 else 0) ∧
            (u.mgc.log.find? (fun r => r.event ≤ 3)).map (·.event) = some 2))

/-- The service port: STATUS and READ_LOG answer while the chip is powered; outside recovery mode the other opcodes are
ignored; in it WRITE fills the buffer, or fails past its end, CLEAR empties it, and GO of a buffer that fails its checks keeps it. -/
def Sys2Proof.Claims.ServicePortActs : Prop :=
  ∀ (s : State), s.svcLive = true →
    (let status := toLe 1 s.mgc.svcState ++ toLe 1 s.mgc.svcCause ++ [0, 0] ++ toLe 4 s.mgc.received
     exec .svcStatus s = .next { s with reply := .data status }) ∧
    (∀ (n : BitVec 16) (x : LogRec), s.logHeld[n.toNat]? = some x →
      exec (.readLog n) s = .next { s with reply := .data x.bytes }) ∧
    (∀ n : BitVec 16, s.logHeld.length ≤ n.toNat →
      exec (.readLog n) s = .next { s with reply := .data (List.replicate 64 0xFF) }) ∧
    (∀ (off : BitVec 24) (bytes : List Byte) (opt : Byte), s.inRecovery = false →
      exec (.svcWrite off bytes) s = .next s ∧ exec (.svcGo opt) s = .next s ∧ exec .clear s = .next s) ∧
    (∀ (off : BitVec 24) (bytes : List Byte), s.inRecovery = true → 1 ≤ bytes.length → bytes.length ≤ 4096 →
      (8388608 < off.toNat + bytes.length → ∃ u, exec (.svcWrite off bytes) s = .next u ∧ u.mgc.svcState = 6 ∧
        u.mgc.svcCause = 3 ∧ u.mgc.download = s.mgc.download ∧ u.mgc.received = s.mgc.received) ∧
      (off.toNat + bytes.length ≤ 8388608 → ∃ u, exec (.svcWrite off bytes) s = .next u ∧ u.mgc.svcState = 2 ∧
        (∀ a, memByte 0 u.mgc.download a = if off.toNat ≤ a ∧ a < off.toNat + bytes.length then
          bytes.getD (a - off.toNat) 0 else memByte 0 s.mgc.download a) ∧
        u.mgc.received = max s.mgc.received (off.toNat + bytes.length))) ∧
    (s.inRecovery = true → ∃ u, exec .clear s = .next u ∧ u.mgc.download = [] ∧ u.mgc.received = 0 ∧ u.mgc.svcState = 1 ∧
      u.mgc.svcCause = 0 ∧ u.mgc.flash = s.mgc.flash ∧ u.regs = s.regs) ∧
    (∀ opt : Byte, s.inRecovery = true → s.flashBusy = false → s.mgc.received < 2232 →
      ∃ u, exec (.svcGo opt) s = .next u ∧ u.mgc.svcState = 6 ∧ 0 < u.mgc.svcCause ∧ u.mgc.svcCause ≤ 3 ∧
        u.mgc.download = s.mgc.download ∧ u.mgc.log = s.mgc.log ∧ u.mgc.flash = s.mgc.flash)

/-- A command whose request record cannot be read completes with BAD_REQUEST; one that comes while another is pending is
ignored. -/
def Sys2Proof.Claims.TheMailboxTakesOne : Prop :=
  ∀ s : State,
    (s.rd .MGC_MBOX_CTRL_PENDING ≠ 0 →
      ∀ c ∈ [Instr.finalise, .fwStage, .fwCommit, .fwRevert, .attest, .identity, .furnishWrite], exec c s = .next s) ∧
    (∀ s1 : State, MboxTakes s → (s.wr .MGC_MBOX_CTRL_CMD 1).mgcRead (s.addrOf .MGC_MBOX_ARG_ADDR) 32 = (s1, none) →
      ∃ u, exec .finalise s = .next u ∧ MboxEnds u 12 0 ∧ u.mem = s1.mem)

/-- FINALISE, updates and reports through the mailbox. -/
def Obligations.MailboxCommandsComplete : Prop :=
  TheMailboxTakesOne ∧ FinaliseWritesItsResult ∧ UpdatesAreCheckedAndLogged ∧ ReportsAreWritten

/-- Starts and the service port. -/
def Obligations.StartsAndTheServicePort : Prop := StartsPickASlot ∧ ServicePortActs
/-! ### Registers, freeze, JTAG, SMBus, pins and resets -/

/-- A read of a register of BAR0 by the PF answers the field's value and clears its RC fields; a read of the lowest word of a
multi-word register latches the others, and a read of one of those answers what was latched. -/
def Sys2Proof.Claims.RegisterReadsAnswer : Prop :=
  ∀ (s : State) (off : BitVec 26) (a : RegAt), s.powered = true → (s.fnCfg 0).d3hot = false →
    s.bar0Open off.toNat = true → s.place 0 off.toNat = .reg a → regDomain a = none →
    (latchedRegs.contains a.reg = false → a.reg ≠ .HB_Q_ERR → a.reg ≠ .GLB_ZT2 →
      ∃ u, exec (.readClear 0 off) s = .next u ∧ u.reply = .data (toLe 4 (s.wordValue a)) ∧
        (∀ f ∈ a.reg.fields, f.spec.ty = .rc → f.spec.lo / 32 = a.w → f.spec.hi / 32 = a.w → u.rd f a.i a.j = 0) ∧
        ((∀ f ∈ a.reg.fields, f.spec.ty ≠ .rc) → u.regs = s.regs) ∧ u.mem = s.mem ∧ u.hb = s.hb) ∧
    (latchedRegs.contains a.reg = true → off.toNat % 4 = 0 →
      (a.w = 0 → ∃ u, exec (.latchedRead 0 off) s = .next u ∧ u.reply = .data (toLe 4 (s.wordValue a)) ∧
        (∀ w, 0 < w → w < a.reg.spec.words → w < 16 → a.i < 65536 →
          storeFind u.sync.words (latchKey a w) = some (s.wordValue { a with w := w })) ∧ u.regs = s.regs ∧ u.mem = s.mem) ∧
      (∀ v, 0 < a.w → storeFind s.sync.words (latchKey a a.w) = some v →
        ∃ u, exec (.latchedRead 0 off) s = .next u ∧ u.reply = .data (toLe 4 v) ∧ u.regs = s.regs ∧ u.sync = s.sync))

/-- A register write sets its RW fields, clears the W1C bits that it names, leaves RO, RC and WO fields, and is discarded with
partial byte enables, while the chip is frozen outside the debug block, and in recovery mode. -/
def Sys2Proof.Claims.RegisterWritesAct : Prop :=
  ∀ (s : State) (off : BitVec 26) (a : RegAt) (data : Word), s.powered = true → (s.fnCfg 0).d3hot = false →
    s.place 0 off.toNat = .reg a → regDomain a = none →
    (∀ be : BitVec 4, be ≠ 15 → exec (.registerWrite 0 off be data) s = .next s) ∧
    (s.frozen = true → inDbg off.toNat = false → exec (.registerWrite 0 off 15 data) s = .next s) ∧
    (s.frozen = false → s.inRecovery = true → exec (.registerWrite 0 off 15 data) s = .next s) ∧
    (s.writeOpen 0 off.toNat = true → a.i < 65536 → a.j < 65536 →
      ∃ u, exec (.registerWrite 0 off 15 data) s = .next u ∧ u.mem = s.mem ∧ u.hb = s.hb ∧ u.vats = s.vats ∧
        (∀ f ∈ a.reg.fields, f.ownRow = false → f.spec.lo / 32 = a.w → f.spec.hi / 32 = a.w →
          s.fieldOpen f a (s.written f a data.toNat) data.toNat = true →
          (f.spec.ty = .rw → a.reg ≠ .GLB_GPIO_OUT → (s.rd f a.i a.j < 2 ^ f.width →
            u.rd f a.i a.j = bits data.toNat (f.spec.hi - 32 * a.w) (f.spec.lo - 32 * a.w)))) ∧
        (∀ f ∈ a.reg.fields, f.ownRow = true → recordFields a.reg = [] → u.rd f a.i a.j = s.rd f a.i a.j))

/-- An offset of the PF's BAR0 at which no register is defined, and one of a VF's BAR0 at which its view has none, reads 0;
writes to it are ignored. -/
def Sys2Proof.Claims.UndefinedOffsetsReadZero : Prop :=
  ∀ (s : State) (fn : Fin 33) (off : BitVec 26) (be : BitVec 4) (data : Word), s.powered = true → s.barUp fn off.toNat = true →
    (fn = 0 ∧ off.toNat < 0x2000000 ∧ Reg.decode off.toNat = none) ∨ (fn ≠ 0 ∧ s.place fn off.toNat = .nothing) →
    exec (.readClear fn off) s = .next { s with reply := .data [0, 0, 0, 0] } ∧
    exec (.registerWrite fn off be data) s = .next s

/-- GLB_GPIO_OUT shows and takes bits only of the pins that GPIO_SW holds; GLB_ZT2 reads 0 while GPIO_SW does not hold it, and
ignores writes; GLB_GPIO_IN shows the level of every pin. -/
def Sys2Proof.Claims.SoftwarePinsOnly : Prop :=
  ∀ (s : State) (n : Nat) (data value : Word), n < 16 →
    bitAt (s.shown .GLB_GPIO_IN_LEVEL 0 0) n = s.pinLevel n ∧
    (s.softHolds n = false →
      bitAt (s.shown .GLB_GPIO_OUT_OUT 0 0) n = false ∧ bitAt (s.shown .GLB_GPIO_OUT_OE 0 0) n = false ∧
      (s.powered = true → (s.fnCfg 0).d3hot = false → s.writeOpen 0 0x5004 = true →
        ∃ u, exec (.registerWrite 0 0x5004 15 data) s = .next u ∧
          bitAt (u.rd .GLB_GPIO_OUT_OUT) n = bitAt (s.rd .GLB_GPIO_OUT_OUT) n ∧
          bitAt (u.rd .GLB_GPIO_OUT_OE) n = bitAt (s.rd .GLB_GPIO_OUT_OE) n)) ∧
    (s.softHolds n = true → s.powered = true → (s.fnCfg 0).d3hot = false → s.writeOpen 0 0x5004 = true →
      ∃ u, exec (.registerWrite 0 0x5004 15 data) s = .next u ∧
        bitAt (u.rd .GLB_GPIO_OUT_OUT) n = bitAt data.toNat n ∧ bitAt (u.rd .GLB_GPIO_OUT_OE) n = bitAt data.toNat (16 + n) ∧
        bitAt (u.shown .GLB_GPIO_OUT_OUT 0 0) n = bitAt data.toNat n) ∧
    (s.softHolds 0x12 = false → s.shown .GLB_ZT2_COUNT 0 0 = 0 ∧ (s.pfWrites = true → exec (.glbZt2Write value) s = .next s))

/-- A freeze trigger stops every clock: the chip is FROZEN by its source, both FELT_ALIVE pins are low and memory is kept; in a
freeze or a device reset it only counts in IGNORED. FREEZE_N is ignored while a reset pin is low. -/
def Sys2Proof.Claims.FreezesStopTheClocks : Prop :=
  ∀ (s : State) (key : BitVec 16) (n : Fin 64),
    let frozenBy (u : State) (source : Nat) : Prop := u.rd .DBG_FREEZE_STATUS_STATE = 2 ∧
      u.rd .DBG_FREEZE_STATUS_SOURCE = source ∧ u.rd .DBG_FREEZE_STATUS_STOPPED = 0x3F ∧ u.live = false ∧
      u.rd .FLT_PORT_ALIVE 0 = 0 ∧ u.rd .FLT_PORT_ALIVE 1 = 0 ∧ u.mem = s.mem ∧ u.hb = s.hb ∧ (u.vat n).quires = (s.vat n).quires
    (s.powered = false → exec .freezeNFall s = .next { s with pins := { s.pins with freezeN := false } }) ∧
    (s.powered = true → s.frozen = false → s.inReset = false →
      (∃ u, exec .freezeNFall s = .next u ∧ frozenBy u 0 ∧ u.pins = { s.pins with freezeN := false }) ∧
      ((s.fnCfg 0).d3hot = false → s.inRecovery = false →
        (key = 0x465A → ∃ u, exec (.dbgFreezeGo key) s = .next u ∧ frozenBy u 1) ∧
        (key ≠ 0x465A → exec (.dbgFreezeGo key) s = .next s))) ∧
    (s.powered = true → s.frozen = true ∨ s.inReset = true →
      ∃ u, exec .freezeNFall s = .next u ∧ u.rd .DBG_FREEZE_STATUS_IGNORED =
          min (2 ^ Field.width .DBG_FREEZE_STATUS_IGNORED - 1) (s.rd .DBG_FREEZE_STATUS_IGNORED + 1) ∧
        RegsKept s u [(.DBG_FREEZE_STATUS_IGNORED, 0, 0)] ∧ u.mem = s.mem ∧ u.vats = s.vats)

/-- The aperture mirrors the registers without the reads' side effects and reads 0 outside its windows; of a bank it answers
only a unit that is ON, in a space that may be read while the chip runs, and ERR answers why not. -/
def Sys2Proof.Claims.TheApertureMirrors : Prop :=
  ∀ (s : State) (off : BitVec 25), s.powered = true → (s.fnCfg 0).d3hot = false → s.frozen = true → off.toNat % 4 = 0 →
    (off.toNat < 0x1000000 → ∃ u, exec (.apertureRead off 4) s = .next u ∧
      u.reply = .data (toLe 4 (match Reg.decode off.toNat with
        | some a => s.peekWord a
        | none => 0)) ∧ u.regs = s.regs ∧ u.mem = s.mem) ∧
    (0x1000000 ≤ off.toNat → ∃ u, exec (.apertureRead off 4) s = .next u ∧
      u.rd .DBG_AP_STATUS_ERR = s.bankErr (s.rd .DBG_AP_BANK_SPACE) (s.rd .DBG_AP_BANK_UNIT) ∧
      (u.rd .DBG_AP_STATUS_ERR ≠ 0 → u.reply = .data [0, 0, 0, 0]) ∧ OnlyRegs { s with reply := u.reply, free := u.free } u
        [(.DBG_AP_STATUS_ERR, 0, 0)]) ∧
    (∀ n, n ≠ 4 → n ≠ 8 → exec (.apertureRead off n) s = .next s)

/-- JTAG: IDCODE is shifted out; AP_ADDR holds an 8-byte-aligned address; a capture answers the aperture's 8 bytes and steps
the address; an update outside the debug block writes nothing, and one of DBG_FREEZE freezes the chip; boundary scans act while RESET_N
is low; Test-Logic-Reset selects IDCODE. -/
def Sys2Proof.Claims.JtagReachesTheAperture : Prop :=
  ∀ (s : State) (addr : BitVec 32) (data : Dword) (scan : List Bool),
    (exec .idcode s = .next { s with tap := { s.tap with ir := 2 }, reply := .data (toLe 4 s.idcodeValue) } ∧
      s.idcodeValue % 2 = 1 ∧ s.idcodeValue / 2 ^ 12 % 2 ^ 16 = 0x6448) ∧
    exec (.apAddr addr) s = .next { s with tap := { s.tap with ir := 0x10, apAddr := addr.toNat / 8 * 8 } } ∧
    (0x2000000 ≤ s.tap.apAddr → s.tap.apAddr < 0x3000000 →
      ∃ u, exec .apDataCapture s = .next u ∧ u.reply = .data (s.mirrorRead (s.tap.apAddr - 0x2000000) 8) ∧
        u.tap.apAddr = s.tap.apAddr + 8 ∧ u.tap.ir = 0x11 ∧
        u.tap.apData = ofLe (s.mirrorRead (s.tap.apAddr - 0x2000000) 8) ∧ u.regs = s.regs ∧ u.mem = s.mem) ∧
    (inDbg s.tap.apAddr = false →
      exec (.apDataUpdate data) s = .next { s with tap := { s.tap with ir := 0x11, apData := data.toNat } }) ∧
    (s.tap.apAddr = 0xF00000 → data = 0x8000465A → s.powered = true → s.frozen = false → s.inReset = false →
      ∃ u, exec (.apDataUpdate data) s = .next u ∧ u.rd .DBG_FREEZE_STATUS_STATE = 2 ∧ u.rd .DBG_FREEZE_STATUS_SOURCE = 1) ∧
    exec .bypass s = .next { s with tap := { s.tap with ir := 0xFF, bypass := false }, reply := .data [0] } ∧
    exec .testLogicReset s = .next { s with tap := { s.tap with ir := 2, bypass := false } } ∧
    (s.pins.resetN = true →
      exec (.extest scan) s = .next { s with tap := { s.tap with ir := 0, bypass := false }, reply := .data [0] } ∧
      exec (.samplePreload scan) s = .next { s with tap := { s.tap with ir := 1, bypass := false }, reply := .data [0] }) ∧
    (s.pins.resetN = false →
      (∃ (u : State) (l : List Byte), exec (.extest scan) s = .next u ∧ u.tap.cells = scan ∧ u.tap.ir = 0 ∧
        u.reply = .data l ∧ l.length = scan.length ∧ u.regs = s.regs) ∧
      (∃ (u : State) (l : List Byte), exec (.samplePreload scan) s = .next u ∧ u.tap.cells = scan ∧ u.tap.ir = 1 ∧
        u.reply = .data l ∧ l.length = scan.length ∧ u.regs = s.regs))

/-- SMBus reads answer their registers little-endian, whatever the chip does; other commands are not acknowledged; a chip that
alerts answers its address to an alert response and releases the pin. -/
def Sys2Proof.Claims.SmbusAnswers : Prop :=
  ∀ (s : State),
    let answers (c : Instr) (n v : Nat) : Prop := exec c s = .next { s with reply := .data (toLe n v), free := s.free + 1 }
    answers .smbTemp 1 (s.rd .PWR_TEMP_TEMP) ∧ answers .smbAvg 2 (s.rd .PWR_RESERVE_AVG) ∧
    answers .smbPwrStatus 4 (s.regValue .PWR_STATUS 0 0) ∧ answers .smbBootStatus 4 (s.regValue .MGC_BOOT_STATUS 0 0) ∧
    answers .smbDevresetStatus 4 (s.rd .GLB_DEVRESET_STATUS_STATUS) ∧
    answers .smbDeviceId 16 (if s.mgc.starts = 0 then 0 else s.mgc.fuses.deviceId.toNat) ∧
    answers .smbCardId 1 ((if s.featureOn 0x08 then 128 else 0) + s.pins.cardId % 16) ∧
    answers .smbFwver 8 (s.rd .MGC_FW_VERSION_FWVER) ∧
    (∀ (w : Bool) (code : Byte), w = true ∨ code = 0 ∨ 8 < code.toNat →
      exec (.smbUnknown w code) s = .next { s with reply := .nack }) ∧
    (s.pins.smbAlert = false → exec .alertResponse s = .next { s with reply := .nack }) ∧
    (s.pins.smbAlert = true → exec .alertResponse s = .next
      { s with pins := { s.pins with smbAlert := false }, reply := .data [BitVec.ofNat 8 (0x60 + s.pos)] })

/-- Resets: a fall of PWROK clears everything but fuses and flash and the installed board; a reset pin resets the chip once
and clears PCIe; the straps latch when the resets end. An undervoltage drives both FELT_ALIVE pins low. The watchdog's pin goes low for
its pulse, and the software timer takes a count while the software holds it. -/
def Sys2Proof.Claims.ResetsClearTheChip : Prop :=
  ∀ (s : State) (straps : Straps) (pin : ResetPin) (rail : Fin 3) (value : Word) (f : Field) (i j : Nat),
    (∃ u, exec .coldReset s = .next u ∧ u.pins.pwrok = false ∧ u.pins.thermTrip = false ∧ u.live = false ∧
      u.rd f i j = State.reset.rd f i j ∧ u.hb = {} ∧ u.vats = [] ∧ u.launches = [] ∧ u.sync = {} ∧ u.furn = {} ∧
      u.mem.l2 = [] ∧ u.mem.host = s.mem.host ∧ u.pcie = {} ∧ u.mgc.flash = s.mgc.flash ∧ u.mgc.fuses = s.mgc.fuses ∧
      u.mgc.log = s.mgc.log ∧ u.mgc.settings = s.mgc.settings ∧ u.mgc.booted = false ∧ u.mgc.starts = 0 ∧
      u.pins.dram = s.pins.dram) ∧
    (s.pins.pwrok = false → exec (.pwrokRise straps) s = .next { s with pins := { s.pins with pwrok := true, straps := straps } } ∧
      exec (.warmReset pin) s = .next s) ∧
    (s.powered = true → s.rd .PWR_WEAR_SECONDS < 2 ^ 32 →
      ∃ u, exec (.warmReset pin) s = .next u ∧ u.powered = false ∧ u.hb = {} ∧ u.vats = [] ∧ u.sync = {} ∧ u.furn = {} ∧
        u.mem.dram = s.mem.dram ∧ u.mem.host = s.mem.host ∧ u.mem.l2 = [] ∧ u.pcie = {} ∧ u.mgc.flash = s.mgc.flash ∧
        u.mgc.fuses = s.mgc.fuses ∧ u.mgc.booted = false ∧ u.rd .PWR_WEAR_SECONDS = s.rd .PWR_WEAR_SECONDS ∧
        u.rd .DBG_FREEZE_STATUS_STATE = 0 ∧ u.pins.straps = s.pins.straps ∧
        (pin = .resetN → u.pins.resetN = false ∧ u.pins.perstN = true) ∧
        (pin = .perstN → u.pins.perstN = false ∧ u.pins.resetN = true)) ∧
    (s.pins.pwrok = true → s.powered = false → ∃ u, exec (.warmResetEnd straps) s = .next u ∧ u.powered = true ∧
      u.pins.straps = straps ∧ u = { s with pins := u.pins }) ∧
    (∃ u, exec (.railUndervoltage rail) s = .next u ∧ u.rd .FLT_PORT_ALIVE 0 = 0 ∧ u.rd .FLT_PORT_ALIVE 1 = 0 ∧
      OnlyRegs s u [(.FLT_PORT_ALIVE, 0, 0), (.FLT_PORT_ALIVE, 1, 0), (.FLT_PORT_STATE, 0, 0), (.FLT_PORT_STATE, 1, 0)]) ∧
    (s.powered = true →
      (s.featureOn 0x09 = true → exec .hostWdogExpiry s = .next { s with pins := { s.pins with wdogLow := true } }) ∧
      (s.featureOn 0x09 = false → exec .hostWdogExpiry s = .next s)) ∧
    exec .hostWdogPulseEnd s = .next { s with pins := { s.pins with wdogLow := false } } ∧
    (s.pfWrites = true →
      (s.softHolds 0x12 = true → ∃ u, exec (.glbZt2Write value) s = .next u ∧ u.rd .GLB_ZT2_COUNT = value.toNat ∧
        OnlyRegs s u [(.GLB_ZT2_COUNT, 0, 0)]) ∧
      (s.softHolds 0x12 = false → exec (.glbZt2Write value) s = .next s))

/-- Register reads and writes from outside. -/
def Obligations.RegistersAreReadAndWritten : Prop := RegisterReadsAnswer ∧ RegisterWritesAct ∧ UndefinedOffsetsReadZero

/-- The freeze, the aperture and JTAG. -/
def Obligations.FreezeAndReadBack : Prop := FreezesStopTheClocks ∧ TheApertureMirrors ∧ JtagReachesTheAperture

/-- The board's side: SMBus, resets and pins. -/
def Obligations.BoardAndResets : Prop := SmbusAnswers ∧ ResetsClearTheChip ∧ SoftwarePinsOnly
end

