-- ==== Sys2Proof/Laws/Reads.lean ====
section
/-!
SUPPORT. Little-endian bytes read back, and reads that hit the L2: what they answer, and that they leave the chip as it is.
-/

namespace Sys2Proof.Machine

theorem length_toLe (n x : Nat) : (toLe n x).length = n := by
  induction n generalizing x with
  | zero => rfl
  | succ n ih => simp [toLe, ih]

theorem ofLe_lt (bs : List Byte) : ofLe bs < 256 ^ bs.length := by
  induction bs with
  | nil => simp [ofLe]
  | cons b r ih =>
    have hb := b.isLt
    simp only [ofLe, List.length_cons, pow_succ]
    omega

/-- The bytes of a list's little-endian value are the list. -/
theorem toLe_ofLe (bs : List Byte) : toLe bs.length (ofLe bs) = bs := by
  induction bs with
  | nil => rfl
  | cons b r ih =>
    have hb := b.isLt
    have h1 : (b.toNat + 256 * ofLe r) / 256 = ofLe r := by omega
    have h2 : BitVec.ofNat 8 (b.toNat + 256 * ofLe r) = b := by
      apply BitVec.eq_of_toNat_eq
      rw [BitVec.toNat_ofNat]
      omega
    simp only [ofLe, List.length_cons, toLe, h1, h2, ih]

/-- A sector that holds 32 given bytes gives them back. -/
theorem sector_bytes (bs : List Byte) (dirty : Bool) (h : bs.length = 32) :
    (Sector.mk (BitVec.ofNat 256 (ofLe bs)) dirty).bytes = bs := by
  have h1 : ofLe bs < 2 ^ 256 := by
    have := ofLe_lt bs
    rw [h] at this
    exact this
  simp only [Sector.bytes, BitVec.toNat_ofNat, Nat.mod_eq_of_lt h1]
  rw [← h]
  exact toLe_ofLe bs

/-- Sectors that all hit are read without any effect. -/
theorem l2ReadSectors_hits (s : State) (who : Asker) (pol : CachePolicy) (xs : List Byte) (n pa : Nat)
    (h : ∀ j, j < n → s.l2ReadSector who pol (pa + 32 * j) = (s, some ((xs.drop (32 * j)).take 32))) :
    s.l2ReadSectors who pol n pa = (s, some (xs.take (32 * n))) := by
  induction n generalizing pa xs with
  | zero => simp [State.l2ReadSectors]
  | succ n ih =>
    have h0 := h 0 (by omega)
    have hr := ih (xs.drop 32) (pa + 32) (by
      intro j hj
      have := h (j + 1) (by omega)
      rw [List.drop_drop]
      rw [show 32 + 32 * j = 32 * (j + 1) by ring, show pa + 32 + 32 * j = pa + 32 * (j + 1) by ring]
      exact this)
    simp only [Nat.mul_zero, Nat.add_zero, List.drop_zero] at h0
    simp only [State.l2ReadSectors, h0, hr]
    rw [← List.take_add, show 32 + 32 * n = 32 * (n + 1) by ring]

/-- A read whose sectors all hit gives the bytes they hold and has no effect. -/
theorem l2Read_hits (s : State) (who : Asker) (pol : CachePolicy) (xs : List Byte) (pa n : Nat) (ha : pa % 32 = 0)
    (h : ∀ j, j < sectorsOf pa n → s.l2ReadSector who pol (pa + 32 * j) = (s, some ((xs.drop (32 * j)).take 32))) :
    s.l2Read who pol pa n = (s, some (xs.take n)) := by
  have hpa : pa / 32 * 32 = pa := by omega
  have hs := l2ReadSectors_hits s who pol xs (sectorsOf pa n) pa h
  have hn : n ≤ 32 * sectorsOf pa n := by
    unfold sectorsOf
    split <;> omega
  simp only [State.l2Read, hpa, hs, ha, List.drop_zero, List.take_take, Nat.min_eq_left hn]

/-- A sector of the bytes of a list, by its number in the list. -/
def sectorAt (xs : List Byte) (i : Nat) : Sector := ⟨BitVec.ofNat 256 (ofLe ((xs.drop (32 * i)).take 32)), false⟩

theorem storeFind_append {α : Type} (a b : List (Nat × α)) (k : Nat) (h : storeFind a k = none) :
    storeFind (a ++ b) k = storeFind b k := by
  induction a with
  | nil => rfl
  | cons e r ih =>
    obtain ⟨k', v⟩ := e
    simp only [storeFind, List.cons_append] at h ⊢
    split at h
    · exact absurd h (by simp)
    · rename_i hne
      rw [if_neg hne]
      exact ih h

/-- What a store holds is found there with more stored behind it. -/
theorem storeFind_hit {α : Type} (a b : List (Nat × α)) (k : Nat) (v : α) (h : storeFind a k = some v) :
    storeFind (a ++ b) k = some v := by
  induction a with
  | nil => simp [storeFind] at h
  | cons e r ih =>
    obtain ⟨k', v'⟩ := e
    simp only [storeFind, List.cons_append] at h ⊢
    split at h
    · rename_i hk
      rw [if_pos hk]
      exact h
    · rename_i hk
      rw [if_neg hk]
      exact ih h

theorem storeFind_map_range {α : Type} (f : Nat → α) (key n j : Nat) (h : j < n) :
    storeFind ((List.range n).map (fun i => (key + i, f i))) (key + j) = some (f j) := by
  have miss : ∀ m, m ≤ j → storeFind ((List.range m).map (fun i => (key + i, f i))) (key + j) = none := by
    intro m
    induction m with
    | zero => simp [storeFind]
    | succ m ih =>
      intro hm
      rw [List.range_succ, List.map_append, storeFind_append _ _ _ (ih (by omega))]
      simp only [List.map_cons, List.map_nil, storeFind]
      rw [if_neg (by omega)]
  induction n with
  | zero => omega
  | succ n ih =>
    rw [List.range_succ, List.map_append]
    by_cases hj : j < n
    · exact storeFind_hit _ _ _ _ (ih hj)
    · have : j = n := by omega
      subst this
      rw [storeFind_append _ _ _ (miss j (by omega))]
      simp [storeFind]

/-- Bytes whose sectors all stand in the L2 read back. -/
theorem physBytes_hits (s : State) (xs : List Byte) (key n : Nat) (hl : xs.length = 32 * n)
    (h : ∀ j, j < n → s.l2Hit (32 * (key + j)) = some (sectorAt xs j)) : s.physBytes (32 * key) (32 * n) = xs := by
  apply List.ext_getElem
  · simp [State.physBytes, hl]
  · intro i h1 h2
    have hi : i < 32 * n := by omega
    have e1 : (32 * key + i) / 32 * 32 = 32 * (key + i / 32) := by omega
    have e2 : (32 * key + i) % 32 = i % 32 := by omega
    have hs := h (i / 32) (by omega)
    have hb : (sectorAt xs (i / 32)).bytes = (xs.drop (32 * (i / 32))).take 32 :=
      sector_bytes _ _ (by rw [List.length_take, List.length_drop]; omega)
    simp only [State.physBytes, List.getElem_map, List.getElem_range, State.physByte, e1, e2, State.sectorView, hs, hb]
    rw [List.getD_eq_getElem _ _ (by rw [List.length_take, List.length_drop]; omega), List.getElem_take, List.getElem_drop]
    congr 1
    omega

end Sys2Proof.Machine
end

