-- ==== Sys2Proof/Laws/Store.lean ====
section
/-!
SUPPORT. Laws of the sparse stores: a read after a write, and the canonical form, which every operation keeps.
-/

namespace Sys2Proof.Machine

variable {α : Type}

/-! ### Reads after writes -/

theorem storeGet_put (d v : α) (l : List (Nat × α)) (k k' : Nat) :
    storeGet d (storePut k v l) k' = if k' = k then v else storeGet d l k' := by
  induction l with
  | nil => simp [storePut, storeGet]
  | cons e r ih =>
    obtain ⟨a, b⟩ := e
    simp only [storePut]
    split
    · simp [storeGet]
    · split
      · subst_vars; simp only [storeGet]; split <;> simp_all
      · simp only [storeGet, ih]; split <;> split <;> simp_all

theorem storeGet_erase (d : α) (l : List (Nat × α)) (k k' : Nat) :
    storeGet d (storeErase l k) k' = if k' = k then d else storeGet d l k' := by
  induction l with
  | nil => simp [storeErase, storeGet]
  | cons e r ih =>
    obtain ⟨a, b⟩ := e
    simp only [storeErase] at ih ⊢
    by_cases h : a = k
    · subst h
      rw [List.filter_cons_of_neg (by simp), ih]
      simp only [storeGet]; split <;> simp_all
    · rw [List.filter_cons_of_pos (by simpa using h)]
      simp only [storeGet, ih]; split <;> split <;> simp_all

/-- A read after a write gives the value written at its key and the old value elsewhere. -/
theorem storeGet_set [DecidableEq α] (d v : α) (l : List (Nat × α)) (k k' : Nat) :
    storeGet d (storeSet d l k v) k' = if k' = k then v else storeGet d l k' := by
  unfold storeSet
  split
  · subst_vars; rw [storeGet_erase]
  · rw [storeGet_put]

theorem storeFind_put (v : α) (l : List (Nat × α)) (k k' : Nat) :
    storeFind (storePut k v l) k' = if k' = k then some v else storeFind l k' := by
  induction l with
  | nil => simp [storePut, storeFind]
  | cons e r ih =>
    obtain ⟨a, b⟩ := e
    simp only [storePut]
    split
    · simp [storeFind]
    · split
      · subst_vars; simp only [storeFind]; split <;> simp_all
      · simp only [storeFind, ih]; split <;> split <;> simp_all

theorem storeFind_erase (l : List (Nat × α)) (k k' : Nat) :
    storeFind (storeErase l k) k' = if k' = k then none else storeFind l k' := by
  induction l with
  | nil => simp [storeErase, storeFind]
  | cons e r ih =>
    obtain ⟨a, b⟩ := e
    simp only [storeErase] at ih ⊢
    by_cases h : a = k
    · subst h
      rw [List.filter_cons_of_neg (by simp), ih]
      simp only [storeFind]; split <;> simp_all
    · rw [List.filter_cons_of_pos (by simpa using h)]
      simp only [storeFind, ih]; split <;> split <;> simp_all

/-! ### The canonical form -/

/-- A lower bound of a rising list can be lowered. -/
theorem storeRising_weaken {lo lo' : Nat} {l : List (Nat × α)} (h : lo' ≤ lo) (w : storeRising (some lo) l = true) :
    storeRising (some lo') l = true := by
  cases l with
  | nil => rfl
  | cons e r =>
    obtain ⟨a, b⟩ := e
    simp only [storeRising, Bool.and_eq_true, decide_eq_true_eq] at w ⊢
    exact ⟨by omega, w.2⟩

theorem storeRising_none {lo : Nat} {l : List (Nat × α)} (w : storeRising (some lo) l = true) :
    storeRising none l = true := by
  cases l with
  | nil => rfl
  | cons e r =>
    obtain ⟨a, b⟩ := e
    simp only [storeRising, Bool.and_eq_true] at w ⊢
    exact w.2

theorem storeRising_put_some (v : α) (l : List (Nat × α)) (lo k : Nat) (h : lo < k)
    (w : storeRising (some lo) l = true) : storeRising (some lo) (storePut k v l) = true := by
  induction l generalizing lo with
  | nil => simp [storePut, storeRising, h]
  | cons e r ih =>
    obtain ⟨a, b⟩ := e
    simp only [storeRising, Bool.and_eq_true, decide_eq_true_eq] at w
    simp only [storePut]
    split
    · simp only [storeRising, Bool.and_eq_true, decide_eq_true_eq]
      exact ⟨h, by assumption, w.2⟩
    · split
      · subst_vars; simp only [storeRising, Bool.and_eq_true, decide_eq_true_eq]; exact w
      · simp only [storeRising, Bool.and_eq_true, decide_eq_true_eq]
        exact ⟨w.1, ih a (by omega) w.2⟩

/-- Putting a value keeps the keys rising. -/
theorem storeRising_put (v : α) (l : List (Nat × α)) (k : Nat) (w : storeRising none l = true) :
    storeRising none (storePut k v l) = true := by
  cases l with
  | nil => rfl
  | cons e r =>
    obtain ⟨a, b⟩ := e
    simp only [storeRising] at w
    simp only [storePut]
    split
    · simp only [storeRising, Bool.and_eq_true, decide_eq_true_eq]; exact ⟨by assumption, w⟩
    · split
      · subst_vars; simpa only [storeRising] using w
      · simp only [storeRising]; exact storeRising_put_some v r a k (by omega) w

theorem storeRising_filter_some (f : Nat × α → Bool) (l : List (Nat × α)) (lo : Nat)
    (w : storeRising (some lo) l = true) : storeRising (some lo) (l.filter f) = true := by
  induction l generalizing lo with
  | nil => rfl
  | cons e r ih =>
    obtain ⟨a, b⟩ := e
    simp only [storeRising, Bool.and_eq_true, decide_eq_true_eq] at w
    rw [List.filter_cons]
    split
    · simp only [storeRising, Bool.and_eq_true, decide_eq_true_eq]; exact ⟨w.1, ih a w.2⟩
    · exact storeRising_weaken (by omega : lo ≤ a) (ih a w.2)

/-- Dropping entries keeps the keys rising. -/
theorem storeRising_filter (f : Nat × α → Bool) (l : List (Nat × α)) (w : storeRising none l = true) :
    storeRising none (l.filter f) = true := by
  cases l with
  | nil => rfl
  | cons e r =>
    obtain ⟨a, b⟩ := e
    simp only [storeRising] at w
    rw [List.filter_cons]
    split
    · simp only [storeRising]; exact storeRising_filter_some f r a w
    · exact storeRising_none (storeRising_filter_some f r a w)

theorem all_put (p : Nat × α → Bool) (v : α) (l : List (Nat × α)) (k : Nat) (hv : p (k, v) = true)
    (h : l.all p = true) : (storePut k v l).all p = true := by
  induction l with
  | nil => simp [storePut, hv]
  | cons e r ih =>
    obtain ⟨a, b⟩ := e
    simp only [List.all_cons, Bool.and_eq_true] at h
    simp only [storePut]
    split
    · simp only [List.all_cons, Bool.and_eq_true]; exact ⟨hv, h.1, h.2⟩
    · split
      · simp only [List.all_cons, Bool.and_eq_true]; exact ⟨hv, h.2⟩
      · simp only [List.all_cons, Bool.and_eq_true]; exact ⟨h.1, ih h.2⟩

theorem storeWf_nil [DecidableEq α] (d : α) : storeWf d ([] : List (Nat × α)) = true := rfl

/-- Dropping entries keeps the canonical form. -/
theorem storeWf_filter [DecidableEq α] (d : α) (f : Nat × α → Bool) (l : List (Nat × α)) (w : storeWf d l = true) :
    storeWf d (l.filter f) = true := by
  simp only [storeWf, Bool.and_eq_true, List.all_eq_true] at w ⊢
  exact ⟨storeRising_filter f l w.1, fun x hx => w.2 x (List.mem_of_mem_filter hx)⟩

/-- A write keeps the canonical form. -/
theorem storeWf_set [DecidableEq α] (d v : α) (l : List (Nat × α)) (k : Nat) (w : storeWf d l = true) :
    storeWf d (storeSet d l k v) = true := by
  unfold storeSet
  split
  · exact storeWf_filter d _ l w
  · simp only [storeWf, Bool.and_eq_true] at w ⊢
    exact ⟨storeRising_put v l k w.1, all_put _ v l k (by simpa using by assumption) w.2⟩

/-- A run of writes keeps the canonical form. -/
theorem storeWf_setMany [DecidableEq α] (d : α) (l : List (Nat × α)) (k : Nat) (vs : List α) (w : storeWf d l = true) :
    storeWf d (storeSetMany d l k vs) = true := by
  induction vs generalizing l k with
  | nil => exact w
  | cons v vs ih => exact ih _ _ (storeWf_set d v l k w)

/-- Every memory operation keeps the canonical form: one byte. -/
theorem Mem.wf_set (d : Byte) (m : Mem) (a : Nat) (b : Byte) (w : Mem.wf d m = true) : Mem.wf d (memSet d m a b) = true :=
  storeWf_set d b m a w

/-- Every memory operation keeps the canonical form: a run of bytes. -/
theorem Mem.wf_write (d : Byte) (m : Mem) (a : Nat) (bs : List Byte) (w : Mem.wf d m = true) :
    Mem.wf d (memWrite d m a bs) = true :=
  storeWf_setMany d m a bs w

/-- A byte read after a byte is written. -/
theorem memByte_set (d : Byte) (m : Mem) (a a' : Nat) (b : Byte) :
    memByte d (memSet d m a b) a' = if a' = a then b else memByte d m a' :=
  storeGet_set d b m a a'

/-- A byte read after a run of bytes is written. -/
theorem memByte_write (d : Byte) (m : Mem) (a a' : Nat) (bs : List Byte) :
    memByte d (memWrite d m a bs) a' =
      if a ≤ a' ∧ a' < a + bs.length then bs.getD (a' - a) d else memByte d m a' := by
  unfold memByte memWrite
  induction bs generalizing m a with
  | nil => simp [storeSetMany]
  | cons b bs ih =>
    rw [storeSetMany, ih]
    by_cases h1 : a' = a
    · subst h1; simp [storeGet_set]
    · by_cases h2 : a + 1 ≤ a' ∧ a' < a + 1 + bs.length
      · have : a ≤ a' ∧ a' < a + (b :: bs).length := by simp only [List.length_cons]; omega
        have e : a' - a = (a' - (a + 1)) + 1 := by omega
        rw [if_pos h2, if_pos this, e, List.getD_cons_succ]
      · have : ¬(a ≤ a' ∧ a' < a + (b :: bs).length) := by simp only [List.length_cons]; omega
        rw [if_neg h2, if_neg this, storeGet_set, if_neg h1]

end Sys2Proof.Machine
end

