-- ==== Sys2Proof/Laws/State.lean ====
section
/-!
SUPPORT. Laws of the state: what each named update leaves unchanged, field by field, and what a read gives after a write.
-/

namespace Sys2Proof.Machine

variable (s : State)

/-! ### wr -/

@[simp] theorem State.wr_pending (f : Field) (v i j : Nat) : (s.wr f v i j).pending = s.pending := rfl
@[simp] theorem State.wr_mem (f : Field) (v i j : Nat) : (s.wr f v i j).mem = s.mem := rfl
@[simp] theorem State.wr_furn (f : Field) (v i j : Nat) : (s.wr f v i j).furn = s.furn := rfl
@[simp] theorem State.wr_hb (f : Field) (v i j : Nat) : (s.wr f v i j).hb = s.hb := rfl
@[simp] theorem State.wr_launches (f : Field) (v i j : Nat) : (s.wr f v i j).launches = s.launches := rfl
@[simp] theorem State.wr_vats (f : Field) (v i j : Nat) : (s.wr f v i j).vats = s.vats := rfl
@[simp] theorem State.wr_sync (f : Field) (v i j : Nat) : (s.wr f v i j).sync = s.sync := rfl
@[simp] theorem State.wr_heaps (f : Field) (v i j : Nat) : (s.wr f v i j).heaps = s.heaps := rfl
@[simp] theorem State.wr_owed (f : Field) (v i j : Nat) : (s.wr f v i j).owed = s.owed := rfl
@[simp] theorem State.wr_sched (f : Field) (v i j : Nat) : (s.wr f v i j).sched = s.sched := rfl
@[simp] theorem State.wr_xlt (f : Field) (v i j : Nat) : (s.wr f v i j).xlt = s.xlt := rfl
@[simp] theorem State.wr_maint (f : Field) (v i j : Nat) : (s.wr f v i j).maint = s.maint := rfl
@[simp] theorem State.wr_geo (f : Field) (v i j : Nat) : (s.wr f v i j).geo = s.geo := rfl
@[simp] theorem State.wr_cal (f : Field) (v i j : Nat) : (s.wr f v i j).cal = s.cal := rfl
@[simp] theorem State.wr_codec (f : Field) (v i j : Nat) : (s.wr f v i j).codec = s.codec := rfl
@[simp] theorem State.wr_ring (f : Field) (v i j : Nat) : (s.wr f v i j).ring = s.ring := rfl
@[simp] theorem State.wr_pwr (f : Field) (v i j : Nat) : (s.wr f v i j).pwr = s.pwr := rfl
@[simp] theorem State.wr_mgc (f : Field) (v i j : Nat) : (s.wr f v i j).mgc = s.mgc := rfl
@[simp] theorem State.wr_pcie (f : Field) (v i j : Nat) : (s.wr f v i j).pcie = s.pcie := rfl
@[simp] theorem State.wr_pins (f : Field) (v i j : Nat) : (s.wr f v i j).pins = s.pins := rfl
@[simp] theorem State.wr_tap (f : Field) (v i j : Nat) : (s.wr f v i j).tap = s.tap := rfl
@[simp] theorem State.wr_reply (f : Field) (v i j : Nat) : (s.wr f v i j).reply = s.reply := rfl
@[simp] theorem State.wr_sent (f : Field) (v i j : Nat) : (s.wr f v i j).sent = s.sent := rfl
@[simp] theorem State.wr_free (f : Field) (v i j : Nat) : (s.wr f v i j).free = s.free := rfl
@[simp] theorem State.wr_nextId (f : Field) (v i j : Nat) : (s.wr f v i j).nextId = s.nextId := rfl

/-! ### wrAddr -/

@[simp] theorem State.wrAddr_pending (f : Field) (v i j : Nat) : (s.wrAddr f v i j).pending = s.pending := rfl
@[simp] theorem State.wrAddr_mem (f : Field) (v i j : Nat) : (s.wrAddr f v i j).mem = s.mem := rfl
@[simp] theorem State.wrAddr_furn (f : Field) (v i j : Nat) : (s.wrAddr f v i j).furn = s.furn := rfl
@[simp] theorem State.wrAddr_hb (f : Field) (v i j : Nat) : (s.wrAddr f v i j).hb = s.hb := rfl
@[simp] theorem State.wrAddr_launches (f : Field) (v i j : Nat) : (s.wrAddr f v i j).launches = s.launches := rfl
@[simp] theorem State.wrAddr_vats (f : Field) (v i j : Nat) : (s.wrAddr f v i j).vats = s.vats := rfl
@[simp] theorem State.wrAddr_sync (f : Field) (v i j : Nat) : (s.wrAddr f v i j).sync = s.sync := rfl
@[simp] theorem State.wrAddr_heaps (f : Field) (v i j : Nat) : (s.wrAddr f v i j).heaps = s.heaps := rfl
@[simp] theorem State.wrAddr_owed (f : Field) (v i j : Nat) : (s.wrAddr f v i j).owed = s.owed := rfl
@[simp] theorem State.wrAddr_sched (f : Field) (v i j : Nat) : (s.wrAddr f v i j).sched = s.sched := rfl
@[simp] theorem State.wrAddr_xlt (f : Field) (v i j : Nat) : (s.wrAddr f v i j).xlt = s.xlt := rfl
@[simp] theorem State.wrAddr_maint (f : Field) (v i j : Nat) : (s.wrAddr f v i j).maint = s.maint := rfl
@[simp] theorem State.wrAddr_geo (f : Field) (v i j : Nat) : (s.wrAddr f v i j).geo = s.geo := rfl
@[simp] theorem State.wrAddr_cal (f : Field) (v i j : Nat) : (s.wrAddr f v i j).cal = s.cal := rfl
@[simp] theorem State.wrAddr_codec (f : Field) (v i j : Nat) : (s.wrAddr f v i j).codec = s.codec := rfl
@[simp] theorem State.wrAddr_ring (f : Field) (v i j : Nat) : (s.wrAddr f v i j).ring = s.ring := rfl
@[simp] theorem State.wrAddr_pwr (f : Field) (v i j : Nat) : (s.wrAddr f v i j).pwr = s.pwr := rfl
@[simp] theorem State.wrAddr_mgc (f : Field) (v i j : Nat) : (s.wrAddr f v i j).mgc = s.mgc := rfl
@[simp] theorem State.wrAddr_pcie (f : Field) (v i j : Nat) : (s.wrAddr f v i j).pcie = s.pcie := rfl
@[simp] theorem State.wrAddr_pins (f : Field) (v i j : Nat) : (s.wrAddr f v i j).pins = s.pins := rfl
@[simp] theorem State.wrAddr_tap (f : Field) (v i j : Nat) : (s.wrAddr f v i j).tap = s.tap := rfl
@[simp] theorem State.wrAddr_reply (f : Field) (v i j : Nat) : (s.wrAddr f v i j).reply = s.reply := rfl
@[simp] theorem State.wrAddr_sent (f : Field) (v i j : Nat) : (s.wrAddr f v i j).sent = s.sent := rfl
@[simp] theorem State.wrAddr_free (f : Field) (v i j : Nat) : (s.wrAddr f v i j).free = s.free := rfl
@[simp] theorem State.wrAddr_nextId (f : Field) (v i j : Nat) : (s.wrAddr f v i j).nextId = s.nextId := rfl

/-! ### count -/

@[simp] theorem State.count_pending (f : Field) (k i j : Nat) : (s.count f k i j).pending = s.pending := rfl
@[simp] theorem State.count_mem (f : Field) (k i j : Nat) : (s.count f k i j).mem = s.mem := rfl
@[simp] theorem State.count_furn (f : Field) (k i j : Nat) : (s.count f k i j).furn = s.furn := rfl
@[simp] theorem State.count_hb (f : Field) (k i j : Nat) : (s.count f k i j).hb = s.hb := rfl
@[simp] theorem State.count_launches (f : Field) (k i j : Nat) : (s.count f k i j).launches = s.launches := rfl
@[simp] theorem State.count_vats (f : Field) (k i j : Nat) : (s.count f k i j).vats = s.vats := rfl
@[simp] theorem State.count_sync (f : Field) (k i j : Nat) : (s.count f k i j).sync = s.sync := rfl
@[simp] theorem State.count_heaps (f : Field) (k i j : Nat) : (s.count f k i j).heaps = s.heaps := rfl
@[simp] theorem State.count_owed (f : Field) (k i j : Nat) : (s.count f k i j).owed = s.owed := rfl
@[simp] theorem State.count_sched (f : Field) (k i j : Nat) : (s.count f k i j).sched = s.sched := rfl
@[simp] theorem State.count_xlt (f : Field) (k i j : Nat) : (s.count f k i j).xlt = s.xlt := rfl
@[simp] theorem State.count_maint (f : Field) (k i j : Nat) : (s.count f k i j).maint = s.maint := rfl
@[simp] theorem State.count_geo (f : Field) (k i j : Nat) : (s.count f k i j).geo = s.geo := rfl
@[simp] theorem State.count_cal (f : Field) (k i j : Nat) : (s.count f k i j).cal = s.cal := rfl
@[simp] theorem State.count_codec (f : Field) (k i j : Nat) : (s.count f k i j).codec = s.codec := rfl
@[simp] theorem State.count_ring (f : Field) (k i j : Nat) : (s.count f k i j).ring = s.ring := rfl
@[simp] theorem State.count_pwr (f : Field) (k i j : Nat) : (s.count f k i j).pwr = s.pwr := rfl
@[simp] theorem State.count_mgc (f : Field) (k i j : Nat) : (s.count f k i j).mgc = s.mgc := rfl
@[simp] theorem State.count_pcie (f : Field) (k i j : Nat) : (s.count f k i j).pcie = s.pcie := rfl
@[simp] theorem State.count_pins (f : Field) (k i j : Nat) : (s.count f k i j).pins = s.pins := rfl
@[simp] theorem State.count_tap (f : Field) (k i j : Nat) : (s.count f k i j).tap = s.tap := rfl
@[simp] theorem State.count_reply (f : Field) (k i j : Nat) : (s.count f k i j).reply = s.reply := rfl
@[simp] theorem State.count_sent (f : Field) (k i j : Nat) : (s.count f k i j).sent = s.sent := rfl
@[simp] theorem State.count_free (f : Field) (k i j : Nat) : (s.count f k i j).free = s.free := rfl
@[simp] theorem State.count_nextId (f : Field) (k i j : Nat) : (s.count f k i j).nextId = s.nextId := rfl

/-! ### resetField -/

@[simp] theorem State.resetField_pending (f : Field) (i j : Nat) : (s.resetField f i j).pending = s.pending := rfl
@[simp] theorem State.resetField_mem (f : Field) (i j : Nat) : (s.resetField f i j).mem = s.mem := rfl
@[simp] theorem State.resetField_furn (f : Field) (i j : Nat) : (s.resetField f i j).furn = s.furn := rfl
@[simp] theorem State.resetField_hb (f : Field) (i j : Nat) : (s.resetField f i j).hb = s.hb := rfl
@[simp] theorem State.resetField_launches (f : Field) (i j : Nat) : (s.resetField f i j).launches = s.launches := rfl
@[simp] theorem State.resetField_vats (f : Field) (i j : Nat) : (s.resetField f i j).vats = s.vats := rfl
@[simp] theorem State.resetField_sync (f : Field) (i j : Nat) : (s.resetField f i j).sync = s.sync := rfl
@[simp] theorem State.resetField_heaps (f : Field) (i j : Nat) : (s.resetField f i j).heaps = s.heaps := rfl
@[simp] theorem State.resetField_owed (f : Field) (i j : Nat) : (s.resetField f i j).owed = s.owed := rfl
@[simp] theorem State.resetField_sched (f : Field) (i j : Nat) : (s.resetField f i j).sched = s.sched := rfl
@[simp] theorem State.resetField_xlt (f : Field) (i j : Nat) : (s.resetField f i j).xlt = s.xlt := rfl
@[simp] theorem State.resetField_maint (f : Field) (i j : Nat) : (s.resetField f i j).maint = s.maint := rfl
@[simp] theorem State.resetField_geo (f : Field) (i j : Nat) : (s.resetField f i j).geo = s.geo := rfl
@[simp] theorem State.resetField_cal (f : Field) (i j : Nat) : (s.resetField f i j).cal = s.cal := rfl
@[simp] theorem State.resetField_codec (f : Field) (i j : Nat) : (s.resetField f i j).codec = s.codec := rfl
@[simp] theorem State.resetField_ring (f : Field) (i j : Nat) : (s.resetField f i j).ring = s.ring := rfl
@[simp] theorem State.resetField_pwr (f : Field) (i j : Nat) : (s.resetField f i j).pwr = s.pwr := rfl
@[simp] theorem State.resetField_mgc (f : Field) (i j : Nat) : (s.resetField f i j).mgc = s.mgc := rfl
@[simp] theorem State.resetField_pcie (f : Field) (i j : Nat) : (s.resetField f i j).pcie = s.pcie := rfl
@[simp] theorem State.resetField_pins (f : Field) (i j : Nat) : (s.resetField f i j).pins = s.pins := rfl
@[simp] theorem State.resetField_tap (f : Field) (i j : Nat) : (s.resetField f i j).tap = s.tap := rfl
@[simp] theorem State.resetField_reply (f : Field) (i j : Nat) : (s.resetField f i j).reply = s.reply := rfl
@[simp] theorem State.resetField_sent (f : Field) (i j : Nat) : (s.resetField f i j).sent = s.sent := rfl
@[simp] theorem State.resetField_free (f : Field) (i j : Nat) : (s.resetField f i j).free = s.free := rfl
@[simp] theorem State.resetField_nextId (f : Field) (i j : Nat) : (s.resetField f i j).nextId = s.nextId := rfl

/-! ### setFunc -/

@[simp] theorem State.setFunc_pending (k v : Nat) : (s.setFunc k v).pending = s.pending := rfl
@[simp] theorem State.setFunc_mem (k v : Nat) : (s.setFunc k v).mem = s.mem := rfl
@[simp] theorem State.setFunc_furn (k v : Nat) : (s.setFunc k v).furn = s.furn := rfl
@[simp] theorem State.setFunc_hb (k v : Nat) : (s.setFunc k v).hb = s.hb := rfl
@[simp] theorem State.setFunc_launches (k v : Nat) : (s.setFunc k v).launches = s.launches := rfl
@[simp] theorem State.setFunc_vats (k v : Nat) : (s.setFunc k v).vats = s.vats := rfl
@[simp] theorem State.setFunc_sync (k v : Nat) : (s.setFunc k v).sync = s.sync := rfl
@[simp] theorem State.setFunc_heaps (k v : Nat) : (s.setFunc k v).heaps = s.heaps := rfl
@[simp] theorem State.setFunc_owed (k v : Nat) : (s.setFunc k v).owed = s.owed := rfl
@[simp] theorem State.setFunc_sched (k v : Nat) : (s.setFunc k v).sched = s.sched := rfl
@[simp] theorem State.setFunc_xlt (k v : Nat) : (s.setFunc k v).xlt = s.xlt := rfl
@[simp] theorem State.setFunc_maint (k v : Nat) : (s.setFunc k v).maint = s.maint := rfl
@[simp] theorem State.setFunc_geo (k v : Nat) : (s.setFunc k v).geo = s.geo := rfl
@[simp] theorem State.setFunc_cal (k v : Nat) : (s.setFunc k v).cal = s.cal := rfl
@[simp] theorem State.setFunc_codec (k v : Nat) : (s.setFunc k v).codec = s.codec := rfl
@[simp] theorem State.setFunc_ring (k v : Nat) : (s.setFunc k v).ring = s.ring := rfl
@[simp] theorem State.setFunc_pwr (k v : Nat) : (s.setFunc k v).pwr = s.pwr := rfl
@[simp] theorem State.setFunc_mgc (k v : Nat) : (s.setFunc k v).mgc = s.mgc := rfl
@[simp] theorem State.setFunc_pcie (k v : Nat) : (s.setFunc k v).pcie = s.pcie := rfl
@[simp] theorem State.setFunc_pins (k v : Nat) : (s.setFunc k v).pins = s.pins := rfl
@[simp] theorem State.setFunc_tap (k v : Nat) : (s.setFunc k v).tap = s.tap := rfl
@[simp] theorem State.setFunc_reply (k v : Nat) : (s.setFunc k v).reply = s.reply := rfl
@[simp] theorem State.setFunc_sent (k v : Nat) : (s.setFunc k v).sent = s.sent := rfl
@[simp] theorem State.setFunc_free (k v : Nat) : (s.setFunc k v).free = s.free := rfl
@[simp] theorem State.setFunc_nextId (k v : Nat) : (s.setFunc k v).nextId = s.nextId := rfl

/-! ### setVat -/

@[simp] theorem State.setVat_pending (n : Nat) (v : Vat) : (s.setVat n v).pending = s.pending := rfl
@[simp] theorem State.setVat_regs (n : Nat) (v : Vat) : (s.setVat n v).regs = s.regs := rfl
@[simp] theorem State.setVat_mem (n : Nat) (v : Vat) : (s.setVat n v).mem = s.mem := rfl
@[simp] theorem State.setVat_furn (n : Nat) (v : Vat) : (s.setVat n v).furn = s.furn := rfl
@[simp] theorem State.setVat_hb (n : Nat) (v : Vat) : (s.setVat n v).hb = s.hb := rfl
@[simp] theorem State.setVat_launches (n : Nat) (v : Vat) : (s.setVat n v).launches = s.launches := rfl
@[simp] theorem State.setVat_sync (n : Nat) (v : Vat) : (s.setVat n v).sync = s.sync := rfl
@[simp] theorem State.setVat_heaps (n : Nat) (v : Vat) : (s.setVat n v).heaps = s.heaps := rfl
@[simp] theorem State.setVat_owed (n : Nat) (v : Vat) : (s.setVat n v).owed = s.owed := rfl
@[simp] theorem State.setVat_sched (n : Nat) (v : Vat) : (s.setVat n v).sched = s.sched := rfl
@[simp] theorem State.setVat_xlt (n : Nat) (v : Vat) : (s.setVat n v).xlt = s.xlt := rfl
@[simp] theorem State.setVat_maint (n : Nat) (v : Vat) : (s.setVat n v).maint = s.maint := rfl
@[simp] theorem State.setVat_geo (n : Nat) (v : Vat) : (s.setVat n v).geo = s.geo := rfl
@[simp] theorem State.setVat_cal (n : Nat) (v : Vat) : (s.setVat n v).cal = s.cal := rfl
@[simp] theorem State.setVat_codec (n : Nat) (v : Vat) : (s.setVat n v).codec = s.codec := rfl
@[simp] theorem State.setVat_ring (n : Nat) (v : Vat) : (s.setVat n v).ring = s.ring := rfl
@[simp] theorem State.setVat_pwr (n : Nat) (v : Vat) : (s.setVat n v).pwr = s.pwr := rfl
@[simp] theorem State.setVat_mgc (n : Nat) (v : Vat) : (s.setVat n v).mgc = s.mgc := rfl
@[simp] theorem State.setVat_pcie (n : Nat) (v : Vat) : (s.setVat n v).pcie = s.pcie := rfl
@[simp] theorem State.setVat_pins (n : Nat) (v : Vat) : (s.setVat n v).pins = s.pins := rfl
@[simp] theorem State.setVat_tap (n : Nat) (v : Vat) : (s.setVat n v).tap = s.tap := rfl
@[simp] theorem State.setVat_reply (n : Nat) (v : Vat) : (s.setVat n v).reply = s.reply := rfl
@[simp] theorem State.setVat_sent (n : Nat) (v : Vat) : (s.setVat n v).sent = s.sent := rfl
@[simp] theorem State.setVat_free (n : Nat) (v : Vat) : (s.setVat n v).free = s.free := rfl
@[simp] theorem State.setVat_nextId (n : Nat) (v : Vat) : (s.setVat n v).nextId = s.nextId := rfl

/-! ### setQuire -/

@[simp] theorem State.setQuire_pending (n k : Nat) (q : Quire) : (s.setQuire n k q).pending = s.pending := rfl
@[simp] theorem State.setQuire_regs (n k : Nat) (q : Quire) : (s.setQuire n k q).regs = s.regs := rfl
@[simp] theorem State.setQuire_mem (n k : Nat) (q : Quire) : (s.setQuire n k q).mem = s.mem := rfl
@[simp] theorem State.setQuire_furn (n k : Nat) (q : Quire) : (s.setQuire n k q).furn = s.furn := rfl
@[simp] theorem State.setQuire_hb (n k : Nat) (q : Quire) : (s.setQuire n k q).hb = s.hb := rfl
@[simp] theorem State.setQuire_launches (n k : Nat) (q : Quire) : (s.setQuire n k q).launches = s.launches := rfl
@[simp] theorem State.setQuire_sync (n k : Nat) (q : Quire) : (s.setQuire n k q).sync = s.sync := rfl
@[simp] theorem State.setQuire_heaps (n k : Nat) (q : Quire) : (s.setQuire n k q).heaps = s.heaps := rfl
@[simp] theorem State.setQuire_owed (n k : Nat) (q : Quire) : (s.setQuire n k q).owed = s.owed := rfl
@[simp] theorem State.setQuire_sched (n k : Nat) (q : Quire) : (s.setQuire n k q).sched = s.sched := rfl
@[simp] theorem State.setQuire_xlt (n k : Nat) (q : Quire) : (s.setQuire n k q).xlt = s.xlt := rfl
@[simp] theorem State.setQuire_maint (n k : Nat) (q : Quire) : (s.setQuire n k q).maint = s.maint := rfl
@[simp] theorem State.setQuire_geo (n k : Nat) (q : Quire) : (s.setQuire n k q).geo = s.geo := rfl
@[simp] theorem State.setQuire_cal (n k : Nat) (q : Quire) : (s.setQuire n k q).cal = s.cal := rfl
@[simp] theorem State.setQuire_codec (n k : Nat) (q : Quire) : (s.setQuire n k q).codec = s.codec := rfl
@[simp] theorem State.setQuire_ring (n k : Nat) (q : Quire) : (s.setQuire n k q).ring = s.ring := rfl
@[simp] theorem State.setQuire_pwr (n k : Nat) (q : Quire) : (s.setQuire n k q).pwr = s.pwr := rfl
@[simp] theorem State.setQuire_mgc (n k : Nat) (q : Quire) : (s.setQuire n k q).mgc = s.mgc := rfl
@[simp] theorem State.setQuire_pcie (n k : Nat) (q : Quire) : (s.setQuire n k q).pcie = s.pcie := rfl
@[simp] theorem State.setQuire_pins (n k : Nat) (q : Quire) : (s.setQuire n k q).pins = s.pins := rfl
@[simp] theorem State.setQuire_tap (n k : Nat) (q : Quire) : (s.setQuire n k q).tap = s.tap := rfl
@[simp] theorem State.setQuire_reply (n k : Nat) (q : Quire) : (s.setQuire n k q).reply = s.reply := rfl
@[simp] theorem State.setQuire_sent (n k : Nat) (q : Quire) : (s.setQuire n k q).sent = s.sent := rfl
@[simp] theorem State.setQuire_free (n k : Nat) (q : Quire) : (s.setQuire n k q).free = s.free := rfl
@[simp] theorem State.setQuire_nextId (n k : Nat) (q : Quire) : (s.setQuire n k q).nextId = s.nextId := rfl

/-! ### setBlock -/

@[simp] theorem State.setBlock_pending (n k : Nat) (b : Block) : (s.setBlock n k b).pending = s.pending := rfl
@[simp] theorem State.setBlock_regs (n k : Nat) (b : Block) : (s.setBlock n k b).regs = s.regs := rfl
@[simp] theorem State.setBlock_mem (n k : Nat) (b : Block) : (s.setBlock n k b).mem = s.mem := rfl
@[simp] theorem State.setBlock_furn (n k : Nat) (b : Block) : (s.setBlock n k b).furn = s.furn := rfl
@[simp] theorem State.setBlock_hb (n k : Nat) (b : Block) : (s.setBlock n k b).hb = s.hb := rfl
@[simp] theorem State.setBlock_launches (n k : Nat) (b : Block) : (s.setBlock n k b).launches = s.launches := rfl
@[simp] theorem State.setBlock_sync (n k : Nat) (b : Block) : (s.setBlock n k b).sync = s.sync := rfl
@[simp] theorem State.setBlock_heaps (n k : Nat) (b : Block) : (s.setBlock n k b).heaps = s.heaps := rfl
@[simp] theorem State.setBlock_owed (n k : Nat) (b : Block) : (s.setBlock n k b).owed = s.owed := rfl
@[simp] theorem State.setBlock_sched (n k : Nat) (b : Block) : (s.setBlock n k b).sched = s.sched := rfl
@[simp] theorem State.setBlock_xlt (n k : Nat) (b : Block) : (s.setBlock n k b).xlt = s.xlt := rfl
@[simp] theorem State.setBlock_maint (n k : Nat) (b : Block) : (s.setBlock n k b).maint = s.maint := rfl
@[simp] theorem State.setBlock_geo (n k : Nat) (b : Block) : (s.setBlock n k b).geo = s.geo := rfl
@[simp] theorem State.setBlock_cal (n k : Nat) (b : Block) : (s.setBlock n k b).cal = s.cal := rfl
@[simp] theorem State.setBlock_codec (n k : Nat) (b : Block) : (s.setBlock n k b).codec = s.codec := rfl
@[simp] theorem State.setBlock_ring (n k : Nat) (b : Block) : (s.setBlock n k b).ring = s.ring := rfl
@[simp] theorem State.setBlock_pwr (n k : Nat) (b : Block) : (s.setBlock n k b).pwr = s.pwr := rfl
@[simp] theorem State.setBlock_mgc (n k : Nat) (b : Block) : (s.setBlock n k b).mgc = s.mgc := rfl
@[simp] theorem State.setBlock_pcie (n k : Nat) (b : Block) : (s.setBlock n k b).pcie = s.pcie := rfl
@[simp] theorem State.setBlock_pins (n k : Nat) (b : Block) : (s.setBlock n k b).pins = s.pins := rfl
@[simp] theorem State.setBlock_tap (n k : Nat) (b : Block) : (s.setBlock n k b).tap = s.tap := rfl
@[simp] theorem State.setBlock_reply (n k : Nat) (b : Block) : (s.setBlock n k b).reply = s.reply := rfl
@[simp] theorem State.setBlock_sent (n k : Nat) (b : Block) : (s.setBlock n k b).sent = s.sent := rfl
@[simp] theorem State.setBlock_free (n k : Nat) (b : Block) : (s.setBlock n k b).free = s.free := rfl
@[simp] theorem State.setBlock_nextId (n k : Nat) (b : Block) : (s.setBlock n k b).nextId = s.nextId := rfl

/-! ### setQueue -/

@[simp] theorem State.setQueue_pending (p q : Nat) (l : List Cmd) : (s.setQueue p q l).pending = s.pending := rfl
@[simp] theorem State.setQueue_regs (p q : Nat) (l : List Cmd) : (s.setQueue p q l).regs = s.regs := rfl
@[simp] theorem State.setQueue_mem (p q : Nat) (l : List Cmd) : (s.setQueue p q l).mem = s.mem := rfl
@[simp] theorem State.setQueue_furn (p q : Nat) (l : List Cmd) : (s.setQueue p q l).furn = s.furn := rfl
@[simp] theorem State.setQueue_launches (p q : Nat) (l : List Cmd) : (s.setQueue p q l).launches = s.launches := rfl
@[simp] theorem State.setQueue_vats (p q : Nat) (l : List Cmd) : (s.setQueue p q l).vats = s.vats := rfl
@[simp] theorem State.setQueue_sync (p q : Nat) (l : List Cmd) : (s.setQueue p q l).sync = s.sync := rfl
@[simp] theorem State.setQueue_heaps (p q : Nat) (l : List Cmd) : (s.setQueue p q l).heaps = s.heaps := rfl
@[simp] theorem State.setQueue_owed (p q : Nat) (l : List Cmd) : (s.setQueue p q l).owed = s.owed := rfl
@[simp] theorem State.setQueue_sched (p q : Nat) (l : List Cmd) : (s.setQueue p q l).sched = s.sched := rfl
@[simp] theorem State.setQueue_xlt (p q : Nat) (l : List Cmd) : (s.setQueue p q l).xlt = s.xlt := rfl
@[simp] theorem State.setQueue_maint (p q : Nat) (l : List Cmd) : (s.setQueue p q l).maint = s.maint := rfl
@[simp] theorem State.setQueue_geo (p q : Nat) (l : List Cmd) : (s.setQueue p q l).geo = s.geo := rfl
@[simp] theorem State.setQueue_cal (p q : Nat) (l : List Cmd) : (s.setQueue p q l).cal = s.cal := rfl
@[simp] theorem State.setQueue_codec (p q : Nat) (l : List Cmd) : (s.setQueue p q l).codec = s.codec := rfl
@[simp] theorem State.setQueue_ring (p q : Nat) (l : List Cmd) : (s.setQueue p q l).ring = s.ring := rfl
@[simp] theorem State.setQueue_pwr (p q : Nat) (l : List Cmd) : (s.setQueue p q l).pwr = s.pwr := rfl
@[simp] theorem State.setQueue_mgc (p q : Nat) (l : List Cmd) : (s.setQueue p q l).mgc = s.mgc := rfl
@[simp] theorem State.setQueue_pcie (p q : Nat) (l : List Cmd) : (s.setQueue p q l).pcie = s.pcie := rfl
@[simp] theorem State.setQueue_pins (p q : Nat) (l : List Cmd) : (s.setQueue p q l).pins = s.pins := rfl
@[simp] theorem State.setQueue_tap (p q : Nat) (l : List Cmd) : (s.setQueue p q l).tap = s.tap := rfl
@[simp] theorem State.setQueue_reply (p q : Nat) (l : List Cmd) : (s.setQueue p q l).reply = s.reply := rfl
@[simp] theorem State.setQueue_sent (p q : Nat) (l : List Cmd) : (s.setQueue p q l).sent = s.sent := rfl
@[simp] theorem State.setQueue_free (p q : Nat) (l : List Cmd) : (s.setQueue p q l).free = s.free := rfl
@[simp] theorem State.setQueue_nextId (p q : Nat) (l : List Cmd) : (s.setQueue p q l).nextId = s.nextId := rfl

/-! ### setBell -/

@[simp] theorem State.setBell_pending (p q v : Nat) : (s.setBell p q v).pending = s.pending := rfl
@[simp] theorem State.setBell_regs (p q v : Nat) : (s.setBell p q v).regs = s.regs := rfl
@[simp] theorem State.setBell_mem (p q v : Nat) : (s.setBell p q v).mem = s.mem := rfl
@[simp] theorem State.setBell_furn (p q v : Nat) : (s.setBell p q v).furn = s.furn := rfl
@[simp] theorem State.setBell_launches (p q v : Nat) : (s.setBell p q v).launches = s.launches := rfl
@[simp] theorem State.setBell_vats (p q v : Nat) : (s.setBell p q v).vats = s.vats := rfl
@[simp] theorem State.setBell_sync (p q v : Nat) : (s.setBell p q v).sync = s.sync := rfl
@[simp] theorem State.setBell_heaps (p q v : Nat) : (s.setBell p q v).heaps = s.heaps := rfl
@[simp] theorem State.setBell_owed (p q v : Nat) : (s.setBell p q v).owed = s.owed := rfl
@[simp] theorem State.setBell_sched (p q v : Nat) : (s.setBell p q v).sched = s.sched := rfl
@[simp] theorem State.setBell_xlt (p q v : Nat) : (s.setBell p q v).xlt = s.xlt := rfl
@[simp] theorem State.setBell_maint (p q v : Nat) : (s.setBell p q v).maint = s.maint := rfl
@[simp] theorem State.setBell_geo (p q v : Nat) : (s.setBell p q v).geo = s.geo := rfl
@[simp] theorem State.setBell_cal (p q v : Nat) : (s.setBell p q v).cal = s.cal := rfl
@[simp] theorem State.setBell_codec (p q v : Nat) : (s.setBell p q v).codec = s.codec := rfl
@[simp] theorem State.setBell_ring (p q v : Nat) : (s.setBell p q v).ring = s.ring := rfl
@[simp] theorem State.setBell_pwr (p q v : Nat) : (s.setBell p q v).pwr = s.pwr := rfl
@[simp] theorem State.setBell_mgc (p q v : Nat) : (s.setBell p q v).mgc = s.mgc := rfl
@[simp] theorem State.setBell_pcie (p q v : Nat) : (s.setBell p q v).pcie = s.pcie := rfl
@[simp] theorem State.setBell_pins (p q v : Nat) : (s.setBell p q v).pins = s.pins := rfl
@[simp] theorem State.setBell_tap (p q v : Nat) : (s.setBell p q v).tap = s.tap := rfl
@[simp] theorem State.setBell_reply (p q v : Nat) : (s.setBell p q v).reply = s.reply := rfl
@[simp] theorem State.setBell_sent (p q v : Nat) : (s.setBell p q v).sent = s.sent := rfl
@[simp] theorem State.setBell_free (p q v : Nat) : (s.setBell p q v).free = s.free := rfl
@[simp] theorem State.setBell_nextId (p q v : Nat) : (s.setBell p q v).nextId = s.nextId := rfl

/-! ### setFn -/

@[simp] theorem State.setFn_pending (fn : Nat) (c : FnCfg) : (s.setFn fn c).pending = s.pending := rfl
@[simp] theorem State.setFn_regs (fn : Nat) (c : FnCfg) : (s.setFn fn c).regs = s.regs := rfl
@[simp] theorem State.setFn_mem (fn : Nat) (c : FnCfg) : (s.setFn fn c).mem = s.mem := rfl
@[simp] theorem State.setFn_furn (fn : Nat) (c : FnCfg) : (s.setFn fn c).furn = s.furn := rfl
@[simp] theorem State.setFn_hb (fn : Nat) (c : FnCfg) : (s.setFn fn c).hb = s.hb := rfl
@[simp] theorem State.setFn_launches (fn : Nat) (c : FnCfg) : (s.setFn fn c).launches = s.launches := rfl
@[simp] theorem State.setFn_vats (fn : Nat) (c : FnCfg) : (s.setFn fn c).vats = s.vats := rfl
@[simp] theorem State.setFn_sync (fn : Nat) (c : FnCfg) : (s.setFn fn c).sync = s.sync := rfl
@[simp] theorem State.setFn_heaps (fn : Nat) (c : FnCfg) : (s.setFn fn c).heaps = s.heaps := rfl
@[simp] theorem State.setFn_owed (fn : Nat) (c : FnCfg) : (s.setFn fn c).owed = s.owed := rfl
@[simp] theorem State.setFn_sched (fn : Nat) (c : FnCfg) : (s.setFn fn c).sched = s.sched := rfl
@[simp] theorem State.setFn_xlt (fn : Nat) (c : FnCfg) : (s.setFn fn c).xlt = s.xlt := rfl
@[simp] theorem State.setFn_maint (fn : Nat) (c : FnCfg) : (s.setFn fn c).maint = s.maint := rfl
@[simp] theorem State.setFn_geo (fn : Nat) (c : FnCfg) : (s.setFn fn c).geo = s.geo := rfl
@[simp] theorem State.setFn_cal (fn : Nat) (c : FnCfg) : (s.setFn fn c).cal = s.cal := rfl
@[simp] theorem State.setFn_codec (fn : Nat) (c : FnCfg) : (s.setFn fn c).codec = s.codec := rfl
@[simp] theorem State.setFn_ring (fn : Nat) (c : FnCfg) : (s.setFn fn c).ring = s.ring := rfl
@[simp] theorem State.setFn_pwr (fn : Nat) (c : FnCfg) : (s.setFn fn c).pwr = s.pwr := rfl
@[simp] theorem State.setFn_mgc (fn : Nat) (c : FnCfg) : (s.setFn fn c).mgc = s.mgc := rfl
@[simp] theorem State.setFn_pins (fn : Nat) (c : FnCfg) : (s.setFn fn c).pins = s.pins := rfl
@[simp] theorem State.setFn_tap (fn : Nat) (c : FnCfg) : (s.setFn fn c).tap = s.tap := rfl
@[simp] theorem State.setFn_reply (fn : Nat) (c : FnCfg) : (s.setFn fn c).reply = s.reply := rfl
@[simp] theorem State.setFn_sent (fn : Nat) (c : FnCfg) : (s.setFn fn c).sent = s.sent := rfl
@[simp] theorem State.setFn_free (fn : Nat) (c : FnCfg) : (s.setFn fn c).free = s.free := rfl
@[simp] theorem State.setFn_nextId (fn : Nat) (c : FnCfg) : (s.setFn fn c).nextId = s.nextId := rfl

/-! ### aer -/

@[simp] theorem State.aer_pending (e : Nat) : (s.aer e).pending = s.pending := rfl
@[simp] theorem State.aer_regs (e : Nat) : (s.aer e).regs = s.regs := rfl
@[simp] theorem State.aer_mem (e : Nat) : (s.aer e).mem = s.mem := rfl
@[simp] theorem State.aer_furn (e : Nat) : (s.aer e).furn = s.furn := rfl
@[simp] theorem State.aer_hb (e : Nat) : (s.aer e).hb = s.hb := rfl
@[simp] theorem State.aer_launches (e : Nat) : (s.aer e).launches = s.launches := rfl
@[simp] theorem State.aer_vats (e : Nat) : (s.aer e).vats = s.vats := rfl
@[simp] theorem State.aer_sync (e : Nat) : (s.aer e).sync = s.sync := rfl
@[simp] theorem State.aer_heaps (e : Nat) : (s.aer e).heaps = s.heaps := rfl
@[simp] theorem State.aer_owed (e : Nat) : (s.aer e).owed = s.owed := rfl
@[simp] theorem State.aer_sched (e : Nat) : (s.aer e).sched = s.sched := rfl
@[simp] theorem State.aer_xlt (e : Nat) : (s.aer e).xlt = s.xlt := rfl
@[simp] theorem State.aer_maint (e : Nat) : (s.aer e).maint = s.maint := rfl
@[simp] theorem State.aer_geo (e : Nat) : (s.aer e).geo = s.geo := rfl
@[simp] theorem State.aer_cal (e : Nat) : (s.aer e).cal = s.cal := rfl
@[simp] theorem State.aer_codec (e : Nat) : (s.aer e).codec = s.codec := rfl
@[simp] theorem State.aer_ring (e : Nat) : (s.aer e).ring = s.ring := rfl
@[simp] theorem State.aer_pwr (e : Nat) : (s.aer e).pwr = s.pwr := rfl
@[simp] theorem State.aer_mgc (e : Nat) : (s.aer e).mgc = s.mgc := rfl
@[simp] theorem State.aer_pins (e : Nat) : (s.aer e).pins = s.pins := rfl
@[simp] theorem State.aer_tap (e : Nat) : (s.aer e).tap = s.tap := rfl
@[simp] theorem State.aer_reply (e : Nat) : (s.aer e).reply = s.reply := rfl
@[simp] theorem State.aer_sent (e : Nat) : (s.aer e).sent = s.sent := rfl
@[simp] theorem State.aer_free (e : Nat) : (s.aer e).free = s.free := rfl
@[simp] theorem State.aer_nextId (e : Nat) : (s.aer e).nextId = s.nextId := rfl

/-! ### setPort -/

@[simp] theorem State.setPort_pending (k : Nat) (f : FPort) : (s.setPort k f).pending = s.pending := rfl
@[simp] theorem State.setPort_regs (k : Nat) (f : FPort) : (s.setPort k f).regs = s.regs := rfl
@[simp] theorem State.setPort_mem (k : Nat) (f : FPort) : (s.setPort k f).mem = s.mem := rfl
@[simp] theorem State.setPort_furn (k : Nat) (f : FPort) : (s.setPort k f).furn = s.furn := rfl
@[simp] theorem State.setPort_hb (k : Nat) (f : FPort) : (s.setPort k f).hb = s.hb := rfl
@[simp] theorem State.setPort_launches (k : Nat) (f : FPort) : (s.setPort k f).launches = s.launches := rfl
@[simp] theorem State.setPort_vats (k : Nat) (f : FPort) : (s.setPort k f).vats = s.vats := rfl
@[simp] theorem State.setPort_sync (k : Nat) (f : FPort) : (s.setPort k f).sync = s.sync := rfl
@[simp] theorem State.setPort_heaps (k : Nat) (f : FPort) : (s.setPort k f).heaps = s.heaps := rfl
@[simp] theorem State.setPort_owed (k : Nat) (f : FPort) : (s.setPort k f).owed = s.owed := rfl
@[simp] theorem State.setPort_sched (k : Nat) (f : FPort) : (s.setPort k f).sched = s.sched := rfl
@[simp] theorem State.setPort_xlt (k : Nat) (f : FPort) : (s.setPort k f).xlt = s.xlt := rfl
@[simp] theorem State.setPort_maint (k : Nat) (f : FPort) : (s.setPort k f).maint = s.maint := rfl
@[simp] theorem State.setPort_geo (k : Nat) (f : FPort) : (s.setPort k f).geo = s.geo := rfl
@[simp] theorem State.setPort_cal (k : Nat) (f : FPort) : (s.setPort k f).cal = s.cal := rfl
@[simp] theorem State.setPort_codec (k : Nat) (f : FPort) : (s.setPort k f).codec = s.codec := rfl
@[simp] theorem State.setPort_pwr (k : Nat) (f : FPort) : (s.setPort k f).pwr = s.pwr := rfl
@[simp] theorem State.setPort_mgc (k : Nat) (f : FPort) : (s.setPort k f).mgc = s.mgc := rfl
@[simp] theorem State.setPort_pcie (k : Nat) (f : FPort) : (s.setPort k f).pcie = s.pcie := rfl
@[simp] theorem State.setPort_pins (k : Nat) (f : FPort) : (s.setPort k f).pins = s.pins := rfl
@[simp] theorem State.setPort_tap (k : Nat) (f : FPort) : (s.setPort k f).tap = s.tap := rfl
@[simp] theorem State.setPort_reply (k : Nat) (f : FPort) : (s.setPort k f).reply = s.reply := rfl
@[simp] theorem State.setPort_sent (k : Nat) (f : FPort) : (s.setPort k f).sent = s.sent := rfl
@[simp] theorem State.setPort_free (k : Nat) (f : FPort) : (s.setPort k f).free = s.free := rfl
@[simp] theorem State.setPort_nextId (k : Nat) (f : FPort) : (s.setPort k f).nextId = s.nextId := rfl

/-! ### answer -/

@[simp] theorem State.answer_pending (n v : Nat) : (s.answer n v).pending = s.pending := rfl
@[simp] theorem State.answer_regs (n v : Nat) : (s.answer n v).regs = s.regs := rfl
@[simp] theorem State.answer_mem (n v : Nat) : (s.answer n v).mem = s.mem := rfl
@[simp] theorem State.answer_furn (n v : Nat) : (s.answer n v).furn = s.furn := rfl
@[simp] theorem State.answer_hb (n v : Nat) : (s.answer n v).hb = s.hb := rfl
@[simp] theorem State.answer_launches (n v : Nat) : (s.answer n v).launches = s.launches := rfl
@[simp] theorem State.answer_vats (n v : Nat) : (s.answer n v).vats = s.vats := rfl
@[simp] theorem State.answer_sync (n v : Nat) : (s.answer n v).sync = s.sync := rfl
@[simp] theorem State.answer_heaps (n v : Nat) : (s.answer n v).heaps = s.heaps := rfl
@[simp] theorem State.answer_owed (n v : Nat) : (s.answer n v).owed = s.owed := rfl
@[simp] theorem State.answer_sched (n v : Nat) : (s.answer n v).sched = s.sched := rfl
@[simp] theorem State.answer_xlt (n v : Nat) : (s.answer n v).xlt = s.xlt := rfl
@[simp] theorem State.answer_maint (n v : Nat) : (s.answer n v).maint = s.maint := rfl
@[simp] theorem State.answer_geo (n v : Nat) : (s.answer n v).geo = s.geo := rfl
@[simp] theorem State.answer_cal (n v : Nat) : (s.answer n v).cal = s.cal := rfl
@[simp] theorem State.answer_codec (n v : Nat) : (s.answer n v).codec = s.codec := rfl
@[simp] theorem State.answer_ring (n v : Nat) : (s.answer n v).ring = s.ring := rfl
@[simp] theorem State.answer_pwr (n v : Nat) : (s.answer n v).pwr = s.pwr := rfl
@[simp] theorem State.answer_mgc (n v : Nat) : (s.answer n v).mgc = s.mgc := rfl
@[simp] theorem State.answer_pcie (n v : Nat) : (s.answer n v).pcie = s.pcie := rfl
@[simp] theorem State.answer_pins (n v : Nat) : (s.answer n v).pins = s.pins := rfl
@[simp] theorem State.answer_tap (n v : Nat) : (s.answer n v).tap = s.tap := rfl
@[simp] theorem State.answer_sent (n v : Nat) : (s.answer n v).sent = s.sent := rfl
@[simp] theorem State.answer_free (n v : Nat) : (s.answer n v).free = s.free := rfl
@[simp] theorem State.answer_nextId (n v : Nat) : (s.answer n v).nextId = s.nextId := rfl

/-! ### hostWrite -/

@[simp] theorem State.hostWrite_pending (a : Nat) (bs : List Byte) : (s.hostWrite a bs).pending = s.pending := rfl
@[simp] theorem State.hostWrite_regs (a : Nat) (bs : List Byte) : (s.hostWrite a bs).regs = s.regs := rfl
@[simp] theorem State.hostWrite_furn (a : Nat) (bs : List Byte) : (s.hostWrite a bs).furn = s.furn := rfl
@[simp] theorem State.hostWrite_hb (a : Nat) (bs : List Byte) : (s.hostWrite a bs).hb = s.hb := rfl
@[simp] theorem State.hostWrite_launches (a : Nat) (bs : List Byte) : (s.hostWrite a bs).launches = s.launches := rfl
@[simp] theorem State.hostWrite_vats (a : Nat) (bs : List Byte) : (s.hostWrite a bs).vats = s.vats := rfl
@[simp] theorem State.hostWrite_sync (a : Nat) (bs : List Byte) : (s.hostWrite a bs).sync = s.sync := rfl
@[simp] theorem State.hostWrite_heaps (a : Nat) (bs : List Byte) : (s.hostWrite a bs).heaps = s.heaps := rfl
@[simp] theorem State.hostWrite_owed (a : Nat) (bs : List Byte) : (s.hostWrite a bs).owed = s.owed := rfl
@[simp] theorem State.hostWrite_sched (a : Nat) (bs : List Byte) : (s.hostWrite a bs).sched = s.sched := rfl
@[simp] theorem State.hostWrite_xlt (a : Nat) (bs : List Byte) : (s.hostWrite a bs).xlt = s.xlt := rfl
@[simp] theorem State.hostWrite_maint (a : Nat) (bs : List Byte) : (s.hostWrite a bs).maint = s.maint := rfl
@[simp] theorem State.hostWrite_geo (a : Nat) (bs : List Byte) : (s.hostWrite a bs).geo = s.geo := rfl
@[simp] theorem State.hostWrite_cal (a : Nat) (bs : List Byte) : (s.hostWrite a bs).cal = s.cal := rfl
@[simp] theorem State.hostWrite_codec (a : Nat) (bs : List Byte) : (s.hostWrite a bs).codec = s.codec := rfl
@[simp] theorem State.hostWrite_ring (a : Nat) (bs : List Byte) : (s.hostWrite a bs).ring = s.ring := rfl
@[simp] theorem State.hostWrite_pwr (a : Nat) (bs : List Byte) : (s.hostWrite a bs).pwr = s.pwr := rfl
@[simp] theorem State.hostWrite_mgc (a : Nat) (bs : List Byte) : (s.hostWrite a bs).mgc = s.mgc := rfl
@[simp] theorem State.hostWrite_pcie (a : Nat) (bs : List Byte) : (s.hostWrite a bs).pcie = s.pcie := rfl
@[simp] theorem State.hostWrite_pins (a : Nat) (bs : List Byte) : (s.hostWrite a bs).pins = s.pins := rfl
@[simp] theorem State.hostWrite_tap (a : Nat) (bs : List Byte) : (s.hostWrite a bs).tap = s.tap := rfl
@[simp] theorem State.hostWrite_reply (a : Nat) (bs : List Byte) : (s.hostWrite a bs).reply = s.reply := rfl
@[simp] theorem State.hostWrite_sent (a : Nat) (bs : List Byte) : (s.hostWrite a bs).sent = s.sent := rfl
@[simp] theorem State.hostWrite_free (a : Nat) (bs : List Byte) : (s.hostWrite a bs).free = s.free := rfl
@[simp] theorem State.hostWrite_nextId (a : Nat) (bs : List Byte) : (s.hostWrite a bs).nextId = s.nextId := rfl

/-! ### The register file -/

/-- Field elements have different keys, below the bound of their indices. -/
theorem Field.key_inj {f g : Field} {i j i' j' : Nat} (hi : i < 65536) (hj : j < 65536) (hi' : i' < 65536)
    (hj' : j' < 65536) (h : f.key i j = g.key i' j') : f = g ∧ i = i' ∧ j = j' := by
  unfold Field.key at h
  have e : f.ctorIdx = g.ctorIdx ∧ i = i' ∧ j = j' := by omega
  refine ⟨?_, e.2⟩
  have := congrArg (fun n => Field.ofNat n) e.1
  simpa [Field.ofNat_ctorIdx] using this

/-- A read of any element after a write. -/
theorem State.rd_wr_key (f g : Field) (v i j i' j' : Nat) :
    (s.wr f v i j).rd g i' j' =
      if g.key i' j' = f.key i j then (if g.spec.reset = f.spec.reset then v % 2 ^ f.width else
        storeGet g.spec.reset (storeSet f.spec.reset s.regs (f.key i j) (v % 2 ^ f.width)) (g.key i' j'))
      else s.rd g i' j' := by
  unfold State.rd State.wr
  split
  · split
    · simp only [*]; rw [storeGet_set, if_pos rfl]
    · rfl
  · rename_i h
    simp only
    unfold storeSet
    split
    · rw [storeGet_erase, if_neg h]
    · rw [storeGet_put, if_neg h]

/-- A read of the element that was written. -/
@[simp] theorem State.rd_wr_same (f : Field) (v i j : Nat) : (s.wr f v i j).rd f i j = v % 2 ^ f.width := by
  rw [State.rd_wr_key, if_pos rfl, if_pos rfl]

/-- A read of another element of the same or another field. -/
theorem State.rd_wr_ne {f g : Field} {v i j i' j' : Nat} (h : g.key i' j' ≠ f.key i j) :
    (s.wr f v i j).rd g i' j' = s.rd g i' j' := by
  rw [State.rd_wr_key, if_neg h]

/-- A read of another field. -/
theorem State.rd_wr_field {f g : Field} {v i j i' j' : Nat} (hi : i < 65536) (hj : j < 65536) (hi' : i' < 65536)
    (hj' : j' < 65536) (h : g ≠ f) : (s.wr f v i j).rd g i' j' = s.rd g i' j' :=
  s.rd_wr_ne (fun e => h (Field.key_inj hi' hj' hi hj e).1)

/-- A read depends on the register file only. -/
theorem State.rd_congr {s t : State} (h : t.regs = s.regs) (f : Field) (i j : Nat) : t.rd f i j = s.rd f i j := by
  unfold State.rd; rw [h]

/-- The chip's being live depends on the pins and the register file only. -/
theorem State.live_congr {s t : State} (h : t.regs = s.regs) (p : t.pins = s.pins) : t.live = s.live := by
  unfold State.live State.rd; rw [h, p]

/-! ### Vats, quires and blocks -/

@[simp] theorem State.vat_setVat_same (n : Nat) (v : Vat) : (s.setVat n v).vat n = v := by
  unfold State.vat State.setVat; simp only; rw [storeGet_set, if_pos rfl]

theorem State.vat_setVat_ne {n m : Nat} (v : Vat) (h : m ≠ n) : (s.setVat n v).vat m = s.vat m := by
  unfold State.vat State.setVat; simp only; rw [storeGet_set, if_neg h]

@[simp] theorem State.quire_setQuire_same (n k : Nat) (q : Quire) : (s.setQuire n k q).quire n k = some q := by
  unfold State.quire State.setQuire; simp only [State.vat_setVat_same]; rw [storeFind_put, if_pos rfl]

theorem State.quire_setQuire_ne {n k n' k' : Nat} (q : Quire) (h : ¬(n' = n ∧ k' = k)) :
    (s.setQuire n k q).quire n' k' = s.quire n' k' := by
  unfold State.quire State.setQuire
  by_cases e : n' = n
  · subst e
    have : k' ≠ k := fun x => h ⟨rfl, x⟩
    simp only [State.vat_setVat_same]; rw [storeFind_put, if_neg this]
  · rw [State.vat_setVat_ne _ _ e]

@[simp] theorem State.block_setQuire (n k n' b : Nat) (q : Quire) : (s.setQuire n k q).block n' b = s.block n' b := by
  unfold State.block State.setQuire
  by_cases e : n' = n
  · subst e; simp only [State.vat_setVat_same]
  · rw [State.vat_setVat_ne _ _ e]

@[simp] theorem State.vat_wr (f : Field) (v i j n : Nat) : (s.wr f v i j).vat n = s.vat n := rfl
@[simp] theorem State.quire_wr (f : Field) (v i j n k : Nat) : (s.wr f v i j).quire n k = s.quire n k := rfl
@[simp] theorem State.block_wr (f : Field) (v i j n k : Nat) : (s.wr f v i j).block n k = s.block n k := rfl

/-! ### Queues, doorbells, functions -/

@[simp] theorem State.queue_setQueue_same (p q : Nat) (l : List Cmd) : (s.setQueue p q l).queue p q = l := by
  unfold State.queue State.setQueue; simp only; rw [storeGet_set, if_pos rfl]

@[simp] theorem State.bell_setBell_same (p q v : Nat) : (s.setBell p q v).bell p q = v % 2 ^ 32 := by
  unfold State.bell State.setBell; simp only; rw [storeGet_set, if_pos rfl]

@[simp] theorem State.fnCfg_setFn_same (fn : Nat) (c : FnCfg) : (s.setFn fn c).fnCfg fn = c := by
  unfold State.fnCfg State.setFn; simp only; rw [storeGet_set, if_pos rfl]

theorem State.fnCfg_setFn_ne {fn fn' : Nat} (c : FnCfg) (h : fn' ≠ fn) : (s.setFn fn c).fnCfg fn' = s.fnCfg fn' := by
  unfold State.fnCfg State.setFn; simp only; rw [storeGet_set, if_neg h]

@[simp] theorem State.port_setPort_same (k : Nat) (f : FPort) : (s.setPort k f).port k = f := by
  unfold State.port State.setPort; simp only; rw [storeGet_set, if_pos rfl]

end Sys2Proof.Machine
end

