-- ==== Sys2Proof/WellFormed.lean ====
section
/-!
DEFINITION. Which commands are well formed: the widths and lengths that the spec lets a sender use. The indices that the
spec bounds (a vat, a queue, a partition) are bounded by their types in Sys2Proof/Syntax.lean; what stays to be checked
here are byte counts and alignments. A command that is not well formed has no effect when it runs (log entry 8).
-/

namespace Sys2Proof

/-- The command is one that a sender of the spec can send. -/
def wellFormed : Instr → Bool
  | .registerWrite _ off _ _ => off.toNat % 4 == 0                                -- R4
  | .readClear _ off => off.toNat % 4 == 0
  | .latchedRead _ off => off.toNat % 4 == 0
  | .doorbellWrite _ _ _ bytes _ => bytes == 4                                     -- R219
  | .invalidateDoorbell _ _ bytes _ => bytes == 4
  | .bar4Read _ len => 1 ≤ len && len ≤ 512                                        -- R216: payload of at most 512 bytes
  | .bar4Write _ bytes => 1 ≤ bytes.length && bytes.length ≤ 512
  | .l2Access _ _ (.read n) addr _ => 1 ≤ n && addr.toNat % 32 + n ≤ 32            -- one sector (R354)
  | .l2Access _ _ (.write bytes) addr _ => 1 ≤ bytes.length && addr.toNat % 32 + bytes.length ≤ 32
  | .l2Access _ _ (.atomic op _ wide _ _) addr _ =>
    0xA0 ≤ op.toNat && op.toNat ≤ 0xAA && addr.toNat % (if wide then 8 else 4) == 0
  | .dramReadReturn _ _ addr _ _ => addr.toNat % 32 == 0
  | .flitReceive _ flit => flit.length == 256                                      -- R413
  | .svcWrite _ bytes => 1 ≤ bytes.length && bytes.length ≤ 4096                   -- R481
  | .apertureRead off bytes => (bytes == 4 || bytes == 8) && off.toNat % bytes == 0 -- R495
  | .smbUnknown write code => write || code.toNat == 0 || 8 < code.toNat            -- R509
  | .pcieLinkUp speed width => 1 ≤ speed.val && (width == 1 || width == 2 || width == 4 || width == 8)
  | .hostCompletion _ .ok _ => true
  | .hostCompletion _ _ bytes => bytes.isEmpty                                     -- R229: an error brings no data
  | _ => true

end Sys2Proof
end

