-- ==== Sys2Proof/Tests/Slice0.lean ====
section
/-!
SUPPORT. The model's own tests: a term that each check of `wellFormed` refuses; small steps whose results are the spec's; and for
every statement states and operands that meet its hypotheses, one for each of its cases.
-/

namespace Sys2Proof.Tests

set_option Elab.async false

open Sys2Proof Sys2Proof.Machine Sys2Proof.Claims

/-! ### Ill-formed commands -/

/-- Each check of `wellFormed` refuses a term. -/
theorem test_ill_formed_commands_are_refused :
    (wellFormed (.registerWrite 0 2 15 0) || wellFormed (.readClear 0 1) || wellFormed (.latchedRead 0 3) ||
      wellFormed (.doorbellWrite 0 0 0 2 0) || wellFormed (.invalidateDoorbell 0 0 8 0) || wellFormed (.bar4Read 0 0) ||
      wellFormed (.bar4Read 0 513) || wellFormed (.bar4Write 0 []) || wellFormed (.l2Access .cal .wb (.read 0) 0 none) ||
      wellFormed (.l2Access .cal .wb (.write []) 0 none) || wellFormed (.dramReadReturn .pcie none 1 0 0) ||
      wellFormed (.l2Access .cal .wb (.atomic 0x9F false false 0 0) 0 none) || wellFormed (.flitReceive 0 []) ||
      wellFormed (.svcWrite 0 []) || wellFormed (.apertureRead 2 4) || wellFormed (.apertureRead 0 2) ||
      wellFormed (.smbUnknown false 8) || wellFormed (.pcieLinkUp 0 1) || wellFormed (.pcieLinkUp 1 3) ||
      wellFormed (.hostCompletion 0 .ur [0])) = false := by decide +kernel

/-- The edges of the checks are accepted. -/
theorem test_edges_are_well_formed :
    wellFormed (.bar4Read 0 512) && wellFormed (.l2Access .cal .wb (.read 32) 0 none) &&
      wellFormed (.l2Access .cal .wb (.atomic 0xAA false true 0 0) 8 none) && wellFormed (.apertureRead 8 8) &&
      wellFormed (.smbUnknown false 9) && wellFormed (.smbUnknown true 1) && wellFormed (.pcieLinkUp 5 8) &&
      wellFormed (.hostCompletion 0 .ok [0]) = true := by decide +kernel

/-! ### Small states -/

/-- A POST record: id, parent, kind, chip 0, vat. -/
def post (id parent kind vat : Nat) : FRec := ⟨2, id, toLe 2 id ++ toLe 2 parent ++ toLe 1 kind ++ [0] ++ toLe 1 vat ++ [0]⟩

/-- A PARTITION record: number, pooled, root, pool class, VF_EXPOSED, heap. -/
def partition (p : Nat) (pooled : Nat) (root : Nat) (cls : Nat := 0) (vf : Nat := 0) (heap : Nat := 0) : FRec :=
  ⟨3, p, toLe 1 p ++ toLe 1 pooled ++ toLe 2 root ++ [0, 4, 4, 4, 4, 4] ++ toLe 1 cls ++ toLe 1 vf ++ toLe 2 heap ++
    [0, 0] ++ toLe 4 0⟩

/-- A chip that runs: partition 0 owns vat 0, partition 1 is pooled with vat 1; 24 GiB of DRAM. -/
def chip : State :=
  { ((((((State.reset.wr .MGC_BOOT_STATUS_STAGE 5).wr .MEM_DRAM_SIZE_BYTES (24 * 2 ^ 30 - 27648)).wr .PWR_DOM_STATE_STATE 0 0).wr
      .PWR_DOM_STATE_STATE 0 1).wr .GLB_FUNC_STATE_STATE 0 0).wr .GLB_FUNC_STATE_STATE 0 1) with
    mgc := { State.reset.mgc with booted := true, starts := 1 }
    furn := { recs := [post 1 0 0 0, post 2 0 5 0, post 3 2 0 1, partition 0 0 1, partition 1 1 2] } }

/-- The running chip, in a freeze. -/
def frozenChip : State := chip.wr .DBG_FREEZE_STATUS_STATE 2

/-- What the reset leaves is as stated. -/
theorem test_reset : State.reset.live = true ∧ chip.live = true ∧ chip.localVats 0 = [0] ∧ chip.pooledVats = [1] ∧
    chip.homed 0 = true ∧ chip.dramSize = 25769776128 ∧ frozenChip.live = false := by decide +kernel

/-- A reset register that is not in the list of exceptions reads its field's reset value. -/
theorem storeGet_default {α : Type} (d : α) (l : List (Nat × α)) (k : Nat) (h : ∀ e ∈ l, e.1 ≠ k) : storeGet d l k = d := by
  induction l with
  | nil => rfl
  | cons e r ih =>
    obtain ⟨a, v⟩ := e
    have h1 : a ≠ k := h _ (List.mem_cons_self ..)
    simp only [storeGet]
    rw [if_neg (Ne.symm h1)]
    exact ih (fun x hx => h x (List.mem_cons_of_mem _ hx))

/-- A sector of L2 with the little-endian bytes of a number. -/
def State.put (s : State) (pa : Nat) (data : BitVec 256) : State :=
  { s with mem := { s.mem with l2 := storePut (pa / 32) ⟨data, false⟩ s.mem.l2 } }

/-- L2 sectors with the bytes of a list, from a sector number on. -/
def sectors (key n : Nat) (xs : List Byte) : List (Nat × Sector) := (List.range n).map (fun i => (key + i, sectorAt xs i))

/-- The running chip with partition 0's page tables at 0x1000: its first 2 MiB map to the chip's first 2 MiB. -/
def paged : State :=
  State.put (State.put (State.put ((chip.wr .XLT_ROOT_EN 1 0).wrAddr .XLT_ROOT_ADDR 0x1000 0) 0x1000 0x2001) 0x2000 0x3001) 0x3000 0x20F

/-- A command of queue 0 of partition 0, in the slot 3 of its ring, taken in. -/
def command (op : Nat) (words : List Word) : Cmd :=
  { id := 7, p := 0, q := 0, op := op, flags := 0, words := words, slot := 3, slots := 1, phase := .fetched }

/-- The paged chip with a command at the head of queue 0 of partition 0. -/
def withCmd (s : State) (c : Cmd) : State := { (s.setQueue 0 0 [c]).wr .HB_Q_CTRL_EN 1 0 0 with nextId := 100 }

/-- A field that no listed register belongs to reads its reset value. -/
theorem rd_reset (s : State) (f : Field) (i j : Nat) (hi : i < 65536) (hj : j < 65536)
    (h : s.regs.all (fun e => e.1 / 65536 / 65536 != f.ctorIdx) = true) : s.rd f i j = f.spec.reset := by
  unfold State.rd
  apply storeGet_default
  intro e he hk
  have := List.all_eq_true.mp h e he
  rw [hk] at this
  unfold Field.key at this
  simp at this
  omega



/-! ### Event queues and command queues: states that meet the statements' hypotheses -/

/-- Event queue 0 enabled with 64 slots, at write index `w`. -/
def evq (w : Nat) : State :=
  { (((chip.wr .EVQ_CTRL_EN 1 0).wr .EVQ_CTRL_SIZE 6 0).wr .EVQ_WRITE_INDEX w 0) with
    pcie := { chip.pcie with fns := [(1, { busMaster := true, mask := false })] }, owed := [(0, ⟨1, 0⟩)] }

theorem test_has_EventQueuesAct :
    (chip.targetWrite 0 0 = true ∧ chip.rd .EVQ_CTRL_EN 0 = 0 ∧ chip.pwr.tripOwed = none ∧ 6 ≤ (16 : BitVec 5).toNat ∧
      16 < (17 : BitVec 5).toNat ∧ (5 : BitVec 5).toNat < 6) ∧
    ((evq 65).targetWrite 0 0 = true ∧ 2 ^ (evq 65).rd .EVQ_CTRL_SIZE 0 < sub32 ((evq 65).rd .EVQ_WRITE_INDEX 0) 0) ∧
    (sub32 ((evq 64).rd .EVQ_WRITE_INDEX 0) 0 ≤ 2 ^ (evq 64).rd .EVQ_CTRL_SIZE 0 ∧ (evq 64).rd .EVQ_CTRL_EN 0 = 1 ∧
      (evq 64).rd .EVQ_WRITE_INDEX 0 ≠ 0 ∧ ((evq 64).fnCfg (fnOfTarget 0)).sends = true ∧
      ((evq 64).fnCfg (fnOfTarget 0)).mask = false ∧ (evq 64).rd .EVQ_PEND_PEND 0 = 0) ∧
    ((evq 63).live = true ∧ storeFind (evq 63).owed 0 = some ⟨1, 0⟩ ∧ (evq 63).evqWritable 0 = true) := by decide +kernel

/-- Queue 0 of partition 0 rung at index 1, with a packet's first words in its ring at 0x4000. -/
def rung (w : BitVec 256) : State :=
  State.put ((((paged.wr .HB_Q_CTRL_EN 1 0 0).wr .HB_Q_CTRL_SIZE 7 0 0).wrAddr .HB_Q_BASE_ADDR 0x4000 0 0).setBell 0 0 1) 0x4000 w

theorem test_has_QueuesStartRingAndEnd :
    (chip.mayWrite 0 0 = true ∧ chip.rd .HB_Q_CTRL_EN 0 0 = 0 ∧ chip.rd .HB_Q_CTRL_DESTROYING 0 0 = 0 ∧
      chip.bellOk 0 0 = true) ∧
    (let s := chip.wr .HB_Q_CTRL_EN 1 0 0
     s.mayWrite 0 0 = true ∧ s.homed 0 = true ∧ s.spanning 0 = false ∧ s.rd .HB_Q_CTRL_EN 0 0 = 1 ∧ s.hb.queues = [] ∧
       s.rd .EVQ_CTRL_EN (s.driverTarget 0) = 0) := by decide +kernel

theorem test_has_PacketBecomesACommand :
    ((rung 0x12300000343).takesIn 0 0 = true ∧
      ((rung 0x12300000343).fetchPacket 0 0).2 = .packet [0x343, 0x123, 0] 1) ∧
    ((rung 0x100).takesIn 0 0 = true ∧ ((rung 0x100).fetchPacket 0 0).2 = .packet [0x100] 1 ∧
      ((rung 0x100).fetchPacket 0 0).1.queue 0 0 = []) := by decide +kernel

/-- Sync object 5, a fence of partition 0 with value 9. -/
def fence : State := ((chip.wr .SYN_OBJ_TYPE 1 5).wr .SYN_OBJ_STATE 0 5).wr .SYN_OBJ_VALUE 9 5

theorem test_has_SyncUnitCommandsAct :
    (let c := command 0x43 [0x343, 1, 0]
     AtHead (withCmd fence c) 0 0 0x43 c) ∧
    (let c := command 0x40 [0x440, 5, 10, 0]
     AtHead (withCmd fence c) 0 0 0x40 c ∧ (withCmd fence c).synMay 0 0x40 (c.word 1 % 16384) = true) ∧
    (let c := command 0x42 [0x342, 1, 0]
     AtHead (withCmd fence c) 0 0 0x42 c ∧ (withCmd fence c).homed 0 = true) ∧
    (let c := command 0x41 [0x541, 5, 9, 0, 0]
     AtHead (withCmd fence c) 0 0 0x41 c ∧ (withCmd fence c).synMay 0 0x41 (c.word 1 % 16384) = true ∧
       c.dword 2 ≤ (withCmd fence c).rd .SYN_OBJ_VALUE (c.word 1 % 16384)) ∧
    (let c := command 0x41 [0x541, 5, 10, 0, 0]
     AtHead (withCmd fence c) 0 0 0x41 c ∧ (withCmd fence c).rd .SYN_OBJ_VALUE (c.word 1 % 16384) < c.dword 2 ∧
       (withCmd fence c).rd .SYN_OBJ_STATE (c.word 1 % 16384) = 0) := by unfold AtHead; decide +kernel

theorem test_has_CommandCompletes :
    (let c : Cmd := { command 0x30 [0x730] with phase := .handed, result := some 0 }
     let s := withCmd chip c
     s.live = true ∧ s.cmd c.id = some c ∧ s.queue 0 0 = [c] ∧ statusOk 0 = true) ∧
    (let c : Cmd := { command 0x30 [0x730] with phase := .handed, result := some 0x01010000, flags := 0x400 }
     let s := withCmd chip c
     s.live = true ∧ s.cmd c.id = some c ∧ s.queue 0 0 = [c] ∧ statusOk 0x01010000 = false ∧ c.quiet = true ∧
       s.rd .HB_Q_ERR_STATUS 0 0 = 0) := by decide +kernel


/-! ### Launches, copies and graphs -/

/-- A launch of partition 0 for command 7, of two blocks of 32 threads. -/
def kernel (code : List Dword) : Launch where
  id := 9
  p := 0
  use := .compute 7
  mod := { bytes := [], entry := 0, handler := none, vregs := 32, mn3 := false, code := code }
  code := 0x8000
  const := 0
  csize := 0
  gx := 2
  gy := 1
  gz := 1
  bx := 32
  by' := 1
  bz := 1
  vregs := 32
  lbytes := 0
  mbytes := 0
  bbytes := 0
  split := [4, 4, 4, 4]
  mn3 := false
  patience := 2 ^ 32
  trap := false
  tag := 0
  total := 2
  next := 0
  retired := 0
  tiles := []
  payload := []

/-- The paged chip with that launch handed to the vats. -/
def launched (code : List Dword) : State :=
  { withCmd paged { command 0x01 [0x301, 0x5000, 0] with phase := .handed } with launches := [(9, kernel code)] }

/-- A quire at word 0 of its block's code with all 32 lanes. -/
def quire0 : Quire := { block := 0, idx := 0, sched := 0, active := 0xFFFFFFFF, exited := 0, pc := 0 }

/-- A launch's first block resident on vat 0, with one quire. -/
def runningAs (l : Launch) (b : Block) (q : Quire) : State :=
  { launched l.mod.code with
    launches := [(9, { l with next := 1 })]
    vats := [(0, { quires := [(0, q)], blocks := [(0, b)] })] }

/-- The launch's first block resident on vat 0, with one quire. -/
def running (code : List Dword) (q : Quire) : State := runningAs (kernel code) { launch := 9, index := 0 } q

/-! A launch whose image the driver's library finalised: the image's bytes, whatever they are, stand at 0x8000. -/

/-- A module of one EXIT. -/
def module0 : Module := { bytes := [], entry := 0, handler := none, vregs := 32, mn3 := false, code := [0x70] }

/-- The module's image, and zeros behind it. -/
def image0 : List Byte := slice (imageBytes 0 module0) 0 4128

/-- A launch descriptor for it: two blocks of 32 threads. -/
def desc0 : List Byte :=
  slice (toLe 8 0x8000 ++ toLe 8 0 ++ toLe 4 0 ++ toLe 4 2 ++ toLe 4 1 ++ toLe 4 1 ++ toLe 2 32 ++ toLe 2 1 ++ toLe 2 1 ++
    toLe 2 32) 0 128

/-- A draw-state descriptor: three vertices of one triangle, whose launch is that descriptor's. -/
def draw0 : List Byte := slice (toLe 8 0x5000 ++ toLe 8 0 ++ toLe 4 3 ++ toLe 4 3) 0 128

/-- A selector of the gate at an address: CONTACT of at least one primitive. -/
def selector (gate : Nat) : List Byte := slice (toLe 8 gate ++ [0, 0, 0, 0] ++ toLe 4 1) 0 32

/-- A gate's header and record: one tile with the given STATE, counts and primitives. -/
def gate0 (state prims : Nat) : List Byte :=
  slice (toLe 4 0 ++ toLe 1 state ++ [0] ++ toLe 2 1 ++ toLe 2 1) 0 64 ++ slice (toLe 2 prims ++ toLe 2 prims ++ toLe 2 prims ++ toLe 2 prims) 0 192

/-- The page at 0x5000: a launch descriptor, a draw's, three selectors and their gates at 0x5200, 0x5300 and 0x5400. -/
def page5 : List Byte :=
  desc0 ++ draw0 ++ slice (selector 0x5200 ++ selector 0x5300 ++ selector 0x5400) 0 256 ++ gate0 1 1 ++ gate0 0 1 ++ gate0 1 0

/-- A chip with that page, the image at 0x8000 and a command at the head of a queue; their pages' translations are cached. -/
def imaged (c : Cmd) (g : Geo) (n : Nat) (r : Ring := {}) : State :=
  let s := withCmd paged c
  { s with
    mem := { s.mem with l2 := s.mem.l2 ++ sectors 0x280 40 page5 ++ sectors 0x400 129 image0 }
    xlt := { s.xlt with tlb := [(5, ⟨5, true, true, true, false, 0⟩), (8, ⟨8, true, true, true, false, 0⟩),
      (9, ⟨9, true, true, true, false, 0⟩)] }
    mgc := { s.mgc with modules := [module0] }
    geo := g
    ring := r
    nextId := n }

theorem image0_length : image0.length = 4128 := by
  simp only [image0, slice, List.length_append, List.length_take, List.length_drop, List.length_replicate]
  omega

theorem image0_size : (imageBytes 0 module0).length = imageSize 0 module0 ∧ imageSize 0 module0 ≤ 4112 := by
  simp only [imageBytes, List.length_map, List.length_range, imageSize, module0]
  refine ⟨trivial, ?_⟩
  exact Nat.min_le_right _ _

theorem image0_take : image0.take (imageSize 0 module0) = imageBytes 0 module0 := by
  have h := image0_size
  have h1 : (imageBytes 0 module0).take 4128 = imageBytes 0 module0 := List.take_of_length_le (by omega)
  simp only [image0, slice, List.drop_zero, h1]
  rw [List.take_append_of_le_length (by omega)]
  exact List.take_of_length_le (by omega)


/-- What of that chip does not depend on the command. -/
theorem imaged_same (c : Cmd) (g : Geo) (n : Nat) (r : Ring) :
    (∀ i, (imaged c g n r).domState i = (paged.wr .HB_Q_CTRL_EN 1 0 0).domState i) ∧
      (∀ f i j, (imaged c g n r).rd f i j = (paged.wr .HB_Q_CTRL_EN 1 0 0).rd f i j) ∧
      (∀ f i j, (imaged c g n r).addrOf f i j = (paged.wr .HB_Q_CTRL_EN 1 0 0).addrOf f i j) ∧
      (∀ a, (imaged c g n r).paBad a = (paged.wr .HB_Q_CTRL_EN 1 0 0).paBad a) ∧
      (∀ l v e, checkEntry (imaged c g n r) l v e = checkEntry (paged.wr .HB_Q_CTRL_EN 1 0 0) l v e) ∧
      (imaged c g n r).pos = paged.pos ∧ (∀ a, (imaged c g n r).admitsMem a = (paged.wr .HB_Q_CTRL_EN 1 0 0).admitsMem a) := by
  refine ⟨?_, ?_, ?_, ?_, ?_, ?_, ?_⟩
  · intro i; rfl
  · intro f i j; rfl
  · intro f i j; rfl
  · intro f; rfl
  · intro l v e; rfl
  · rfl
  · intro a; rfl

/-- An id is taken. -/
theorem imaged_next (c : Cmd) (g : Geo) (n m : Nat) (r : Ring) : { imaged c g n r with nextId := m } = imaged c g m r := by
  simp only [imaged]

/-- Those of whom that is asked: the chip itself, the headbox and the geometry pipeline for partition 0. -/
def asks (who : Asker) : Prop := who = ⟨.unit, 0, 0⟩ ∨ who = ⟨.unit, 2, 0⟩ ∨ who = ⟨.geo, 3, 0⟩

/-- Every sector of the image and of the page at 0x5000 hits. -/
theorem imaged_sector (c : Cmd) (g : Geo) (n : Nat) (r : Ring) (who : Asker) (pa k m : Nat) (xs : List Byte) (j : Nat)
    (hx : (pa, k, m, xs) = (0x8000, 0x400, 129, image0) ∨ (pa, k, m, xs) = (0x5000, 0x280, 40, page5)) (h : j < m)
    (hlen : 32 * m ≤ xs.length) :
    (imaged c g n r).l2ReadSector who .wb (pa + 32 * j) = (imaged c g n r, some ((xs.drop (32 * j)).take 32)) := by
  have hd : ∀ j : Fin 129, (paged.wr .HB_Q_CTRL_EN 1 0 0).domState (domL2 (sliceOf (0x8000 + 32 * j.val))) = 0 := by decide +kernel
  have hd5 : ∀ j : Fin 40, (paged.wr .HB_Q_CTRL_EN 1 0 0).domState (domL2 (sliceOf (0x5000 + 32 * j.val))) = 0 := by decide +kernel
  obtain ⟨i1, i2, -⟩ := imaged_same c g n r
  have hw : (imaged c g n r).wakeSlice (pa + 32 * j) = imaged c g n r := by
    unfold State.wakeSlice State.wakeNow
    rw [i1]
    rcases hx with hx | hx <;> simp only [Prod.mk.injEq] at hx <;> obtain ⟨rfl, rfl, rfl, rfl⟩ := hx
    · rw [if_pos (hd ⟨j, h⟩)]
    · rw [if_pos (hd5 ⟨j, h⟩)]
  have hhit : (imaged c g n r).l2Hit (pa + 32 * j) = some (sectorAt xs j) := by
    have h0 : ∀ j : Fin 40, storeFind paged.mem.l2 (0x280 + j.val) = none := by decide +kernel
    have h1 : ∀ j : Fin 129, storeFind paged.mem.l2 (0x400 + j.val) = none := by decide +kernel
    have h2 : ∀ j : Fin 129, storeFind (sectors 0x280 40 page5) (0x400 + j.val) = none := by decide +kernel
    have he : (paged.wr .HB_Q_CTRL_EN 1 0 0).rd .L2_CTRL_EN = 1 := by decide +kernel
    unfold State.l2Hit sectorOf
    rw [i2, if_pos he]
    show storeFind ((paged.mem.l2 ++ sectors 0x280 40 page5) ++ sectors 0x400 129 image0) _ = _
    rcases hx with hx | hx <;> simp only [Prod.mk.injEq] at hx <;> obtain ⟨rfl, rfl, rfl, rfl⟩ := hx
    · rw [show (0x8000 + 32 * j) / 32 = 0x400 + j by omega, List.append_assoc, storeFind_append _ _ _ (h1 ⟨j, h⟩),
        storeFind_append _ _ _ (h2 ⟨j, h⟩)]
      exact storeFind_map_range _ _ _ _ h
    · rw [show (0x5000 + 32 * j) / 32 = 0x280 + j by omega, List.append_assoc, storeFind_append _ _ _ (h0 ⟨j, h⟩)]
      exact storeFind_hit _ _ _ _ (storeFind_map_range _ _ _ _ h)
  simp only [State.l2ReadSector, hw, hhit, sectorAt]
  rw [sector_bytes]
  simp only [List.length_take, List.length_drop]
  omega

/-- What the walk of the tables reads and checks. -/
theorem imaged_tables :
    let b := paged.wr .HB_Q_CTRL_EN 1 0 0
    b.rd .XLT_ROOT_EN 0 ≠ 0 ∧ b.addrOf .XLT_ROOT_ADDR 0 = 0x1000 ∧ b.paBad 0x1000 = none ∧
      (checkEntry b 4 0 8193 = none ∧ checkEntry b 3 0 12289 = none ∧ checkEntry b 2 0 527 = none) := by decide +kernel

/-- The check of an entry that is valid does not depend on the address. -/
theorem checkEntry_valid (s : State) (l va e : Nat) (h : bitAt e 0 = true) : checkEntry s l va e = checkEntry s l 0 e := by
  simp [checkEntry, h]

/-- The first 2 MiB are mapped to themselves, and walking their tables changes nothing. -/
theorem imaged_walk (c : Cmd) (g : Geo) (n : Nat) (r : Ring) (who : Asker) (va : Nat) (hp : va < 65536) :
    (imaged c g n r).walk who 0 va = (imaged c g n r, .ok ⟨va / 4096, true, true, true, false, 0⟩) := by
  have h1 : (imaged c g n r).readEntry who 0x1000 = (imaged c g n r, .inl 0x2001) := rfl
  have h2 : (imaged c g n r).readEntry who 0x2000 = (imaged c g n r, .inl 0x3001) := rfl
  have h3 : (imaged c g n r).readEntry who 0x3000 = (imaged c g n r, .inl 0x20F) := rfl
  obtain ⟨f0, f1, f2, f3, f4, f5⟩ := imaged_tables
  obtain ⟨-, i2, i3, i4, i5, -⟩ := imaged_same c g n r
  have g0 : (imaged c g n r).rd .XLT_ROOT_EN 0 ≠ 0 := by rw [i2]; exact f0
  have g1 : (imaged c g n r).addrOf .XLT_ROOT_ADDR 0 = 0x1000 := by rw [i3]; exact f1
  have g2 : (imaged c g n r).paBad 0x1000 = none := by rw [i4]; exact f2
  have g3 : checkEntry (imaged c g n r) 4 va 8193 = none := by
    rw [i5, checkEntry_valid _ _ _ _ (by decide)]; exact f3
  have g4 : checkEntry (imaged c g n r) 3 va 12289 = none := by
    rw [i5, checkEntry_valid _ _ _ _ (by decide)]; exact f4
  have g5 : checkEntry (imaged c g n r) 2 va 527 = none := by
    rw [i5, checkEntry_valid _ _ _ _ (by decide)]; exact f5
  have v1 : va / 549755813888 % 512 = 0 := by omega
  have v2 : va / 1073741824 % 512 = 0 := by omega
  have v3 : va / 2097152 % 512 = 0 := by omega
  have v4 : ¬ 281474976710656 ≤ va := by omega
  have v5 : va / 4096 % 512 = va / 4096 := by omega
  simp [State.walk, State.walkFrom, g0, g1, g2, v1, v2, v3, v4, v5, h1, h2, h3, g3, g4, g5, bits, bitAt, leafXlat]

/-- A page is translated without any effect. -/
theorem imaged_translate (c : Cmd) (g : Geo) (n : Nat) (r : Ring) (a : Asker) (ha : asks a) (who : Owner) (va pg : Nat)
    (hva : va / 4096 = pg) (hp : pg = 5 ∨ pg = 8 ∨ pg = 9) :
    (imaged c g n r).translate a who 0 va rightR = (imaged c g n r, .ok ⟨pg, true, true, true, false, 0⟩) := by
  obtain ⟨-, -, -, i4, -, -, i7⟩ := imaged_same c g n r
  have h1 : (imaged c g n r).admitsMem a = true := by
    rw [i7]
    rcases ha with rfl | rfl | rfl <;> decide +kernel
  have h2 : storeFind (imaged c g n r).xlt.tlb (tlbKey 0 va) = some ⟨pg, true, true, true, false, 0⟩ := by
    unfold tlbKey
    rw [hva]
    rcases hp with rfl | rfl | rfl <;> rfl
  have h3 : ¬ 281474976710656 ≤ va := by omega
  have h5 : (imaged c g n r).paBad (pg * 4096 + va % 4096) = none := by
    have hd : (paged.wr .HB_Q_CTRL_EN 1 0 0).dramSize = 25769776128 ∧ (paged.wr .HB_Q_CTRL_EN 1 0 0).pos = 0 ∧
        ∀ r ∈ List.range 16, ((paged.wr .HB_Q_CTRL_EN 1 0 0).region r).carve = 0 := by decide +kernel
    have hc : (paged.wr .HB_Q_CTRL_EN 1 0 0).inCarve (pg * 4096 + va % 4096) = false := by
      unfold State.inCarve
      rw [List.any_eq_false]
      intro r hr
      have := hd.2.2 r hr
      simp only [this, Bool.and_eq_true, decide_eq_true_eq]
      omega
    rw [i4]
    unfold State.paBad
    have e1 : (pg * 4096 + va % 4096) / 2 ^ 44 % 16 = 0 := by omega
    have e2 : (pg * 4096 + va % 4096) % 2 ^ 44 = pg * 4096 + va % 4096 := by omega
    rw [e1, e2, hd.1, hd.2.1, hc]
    simp
    omega
  have hw := imaged_walk c g n r a va (by omega)
  rw [hva] at hw
  simp [State.translate, h1, State.lookup, h3, h2, hw, missing, rightR, bitAt, h5]

theorem page5_length : page5.length = 1280 := by decide +kernel

/-- A run within the page at 0x5000 reads back. -/
theorem imaged_page5 (c : Cmd) (g : Geo) (n : Nat) (r : Ring) (a : Asker) (ha : asks a) (who : Owner) (k len : Nat)
    (h0 : 0 < len) (hk : 32 * k + len ≤ 1280) :
    (imaged c g n r).vRead a who 0 (0x5000 + 32 * k) len = (imaged c g n r, .ok ((page5.drop (32 * k)).take len)) := by
  have t5 := imaged_translate c g n r a ha who (0x5000 + 32 * k) 5 (by omega) (by simp)
  have t5' := imaged_translate c g n r a ha who (5 * 4096) 5 (by omega) (by simp)
  obtain ⟨-, -, -, -, -, i6, -⟩ := imaged_same c g n r
  have hpos : (imaged c g n r).pos = 0 := by
    rw [i6]
    decide +kernel
  have r5 : (imaged c g n r).l2Read a .wb (0x5000 + 32 * k) len = (imaged c g n r, some ((page5.drop (32 * k)).take len)) := by
    refine l2Read_hits (imaged c g n r) a .wb (page5.drop (32 * k)) (0x5000 + 32 * k) len (by omega) ?_
    intro j hj
    have hj2 : k + j < 40 := by
      unfold sectorsOf at hj
      split at hj <;> omega
    have := imaged_sector c g n r a 0x5000 0x280 40 page5 (k + j) (Or.inr rfl) hj2 (by rw [page5_length])
    rw [List.drop_drop]
    rw [show 0x5000 + 32 * (k + j) = 0x5000 + 32 * k + 32 * j by omega] at this
    rw [show 32 * (k + j) = 32 * k + 32 * j by omega] at this
    exact this
  have hl : len ≠ 0 := by omega
  have hp : pagesOf (0x5000 + 32 * k) len = 1 := by
    unfold pagesOf
    rw [if_neg hl]
    omega
  have e0 : (0x5000 + 32 * k) / 4096 = 5 := by omega
  have e1 : pageRun (0x5000 + 32 * k) len = len := by
    unfold pageRun
    omega
  have e2 : (0x5000 + 32 * k) % 4096 = 32 * k := by omega
  have hr : (imaged c g n r).readPage a who 0 ⟨5, true, true, true, false, 0⟩ (0x5000 + 32 * k) len =
      (imaged c g n r, .ok ((page5.drop (32 * k)).take len)) := by
    have e3 : 5 * 4096 + (0x5000 + 32 * k) % 4096 = 0x5000 + 32 * k := by omega
    have e4 : (0x5000 + 32 * k) / 2 ^ 44 % 16 = 0 := by omega
    have e5 : (0x5000 + 32 * k) % 2 ^ 44 = 0x5000 + 32 * k := by omega
    simp only [State.readPage, hpos, policyOf, e3, e4, e5, if_neg Bool.false_ne_true, if_true, r5]
  simp only [State.vRead, State.footprint, hp, e0, State.translatePages, State.vReadFrom, if_neg hl, t5, t5', e1, hr,
    List.append_nil]

/-- The image reads back, from any start that the headbox or the chip itself asks for. -/
theorem imaged_reads (c : Cmd) (g : Geo) (m : Nat) (r : Ring) (a : Asker) (ha : asks a) (who : Owner) (n : Nat) (hn : n ≤ 4112) :
    (imaged c g m r).vRead a who 0 0x8000 n = (imaged c g m r, .ok (image0.take n)) := by
  have t8 := imaged_translate c g m r a ha who (8 * 4096) 8 (by omega) (by simp)
  have t9 := imaged_translate c g m r a ha who (9 * 4096) 9 (by omega) (by simp)
  obtain ⟨-, -, -, -, -, i6, -⟩ := imaged_same c g m r
  have hlen := image0_length
  have hpos : (imaged c g m r).pos = 0 := by
    rw [i6]
    decide +kernel
  have r8 : ∀ k, k ≤ 4096 → (imaged c g m r).readPage a who 0 ⟨8, true, true, true, false, 0⟩ 0x8000 k =
      (imaged c g m r, .ok (image0.take k)) := by
    intro k hkk
    have := l2Read_hits (imaged c g m r) a .wb image0 0x8000 k (by omega) (by
      intro j hj
      refine imaged_sector c g m r a 0x8000 0x400 129 image0 j (Or.inl rfl) ?_ (by omega)
      unfold sectorsOf at hj
      split at hj <;> omega)
    simp [State.readPage, hpos, policyOf, this]
  have r9 : ∀ k, k ≤ 16 → (imaged c g m r).readPage a who 0 ⟨9, true, true, true, false, 0⟩ 0x9000 k =
      (imaged c g m r, .ok ((image0.drop 4096).take k)) := by
    intro k hkk
    have := l2Read_hits (imaged c g m r) a .wb (image0.drop 4096) 0x9000 k (by omega) (by
      intro j hj
      have hj1 : j = 0 := by
        unfold sectorsOf at hj
        split at hj <;> omega
      subst hj1
      have := imaged_sector c g m r a 0x8000 0x400 129 image0 128 (Or.inl rfl) (by omega) (by omega)
      simpa using this)
    simp [State.readPage, hpos, policyOf, this]
  by_cases h0 : n = 0
  · subst h0
    simp [State.vRead, State.footprint, pagesOf, State.translatePages, State.vReadFrom]
  · by_cases h1 : n ≤ 4096
    · have hp : pagesOf 0x8000 n = 1 := by
        unfold pagesOf
        rw [if_neg h0]
        omega
      simp [State.vRead, State.footprint, hp, State.translatePages, State.vReadFrom, h0, t8, pageRun, r8 n h1,
        Nat.min_eq_left h1]
    · have hp : pagesOf 0x8000 n = 2 := by
        unfold pagesOf
        rw [if_neg h0]
        omega
      have h2 : min n 4096 = 4096 := by omega
      have h3 : ¬ n - 4096 = 0 := by omega
      have h4 : min (n - 4096) 4096 = n - 4096 := by omega
      have r8 := r8 4096 (by omega)
      have r9 := r9 (n - 4096) (by omega)
      have h5 := (List.take_add (l := image0) (i := 4096) (j := n - 4096)).symm
      rw [show 4096 + (n - 4096) = n by omega] at h5
      generalize image0.take 4096 = xa at r8 h5
      generalize (image0.drop 4096).take (n - 4096) = xb at r9 h5
      have e1 : (0x8000 : Nat) / 4096 = 8 := by omega
      have e2 : pageRun 0x8000 n = 4096 := by unfold pageRun; omega
      have e3 : pageRun 0x9000 (n - 4096) = n - 4096 := by unfold pageRun; omega
      have e4 : n - 4096 - (n - 4096) = 0 := by omega
      have e5 : (0x8000 : Nat) + 4096 = 0x9000 := by omega
      have t8' := imaged_translate c g m r a ha who (8 * 4096) 8 (by omega) (by simp)
      have t9' := imaged_translate c g m r a ha who (9 * 4096) 9 (by omega) (by simp)
      rw [show 8 * 4096 = 0x8000 by omega] at t8'
      rw [show 9 * 4096 = 0x9000 by omega] at t9'
      have f1 : (imaged c g m r).footprint a who 0 0x8000 n rightR =
          (imaged c g m r, .ok [⟨8, true, true, true, false, 0⟩, ⟨9, true, true, true, false, 0⟩]) := by
        simp only [State.footprint, hp, e1, State.translatePages, t8, t9]
      have f2 : (imaged c g m r).vReadFrom a who 0 2 0x8000 n = (imaged c g m r, .ok (xa ++ xb)) := by
        simp only [State.vReadFrom, if_neg h0, t8', e2, r8, e5, if_neg h3, t9', e3, r9, List.append_nil]
      simp only [State.vRead, f1, hp, f2, h5]

/-- The module is found at its image. -/
theorem imaged_module (c : Cmd) (g : Geo) (n : Nat) (r : Ring) : (imaged c g n r).moduleAt 0 0x8000 = some module0 := by
  have hv : (imaged c g n r).finaliser = 0 := rfl
  have hm : (imaged c g n r).mgc.modules = [module0] := rfl
  have h := imaged_reads c g n r ⟨.unit, 0, 0⟩ (Or.inl rfl) (.post 0) (imageSize 0 module0) image0_size.2
  have hb : (imaged c g n r).vBytes 0 0x8000 (imageSize 0 module0) = some (imageBytes 0 module0) := by
    simp only [State.vBytes, h, image0_take]
  simp only [State.moduleAt, hv, hm, List.find?_cons, hb, decide_true]

/-- The launch that the descriptor describes. -/
def launch0 (id : Nat) (use : LaunchUse) : Launch := launchOf id 0 use module0 desc0 [4, 4, 4, 4] 2

/-- The descriptor is accepted. -/
theorem imaged_launch (c : Cmd) (g : Geo) (n id : Nat) (r : Ring) (who : Owner) (use : LaunchUse) :
    (imaged c g n r).readLaunch 0 who 0x5000 id use = (imaged c g n r, .ok (launch0 id use)) := by
  have h1 := imaged_page5 c g n r ⟨.unit, 2, 0⟩ (Or.inr (Or.inl rfl)) who 0 128 (by omega) (by omega)
  have h0 : (page5.drop (32 * 0)).take 128 = desc0 := by decide +kernel
  rw [h0] at h1
  have h2 : descRefusal desc0 = none := by decide +kernel
  have h3 : leAt desc0 0 8 = 0x8000 := by decide +kernel
  have h4 := imaged_reads c g n r ⟨.unit, 2, 0⟩ (Or.inr (Or.inl rfl)) who 64 (by omega)
  have h5 : descRefusal2 desc0 (some module0) = none := by decide +kernel
  have h6 : (imaged c g n r).splitOf 0 desc0 = [4, 4, 4, 4] := by
    have : (imaged c g n r).splitOf 0 desc0 = paged.splitOf 0 desc0 := rfl
    rw [this]
    decide +kernel
  have h7 : launchOf id 0 use module0 desc0 [4, 4, 4, 4] (leAt desc0 20 4 * leAt desc0 24 4 * leAt desc0 28 4) =
    launch0 id use := by
    have : leAt desc0 20 4 * leAt desc0 24 4 * leAt desc0 28 4 = 2 := by decide +kernel
    rw [this]
    rfl
  have h8 : (launch0 id use).fitsOnce = true := by
    have : (launch0 id use).fitsOnce = (launch0 0 (.compute 0)).fitsOnce := rfl
    rw [this]
    decide +kernel
  have h9 : splitOk [4, 4, 4, 4] = true := by decide +kernel
  simp only [Nat.mul_zero, Nat.add_zero] at h1
  simp [State.readLaunch, headboxAsker, h1, h2, h3, h4, imaged_module c g n r, h5, h6, h7, h8, h9]

/-- The commands LAUNCH and PRELOAD of an accepted descriptor. -/
theorem test_has_LaunchAndPreloadAreHanded (op : Nat) (ho : op = 1 ∨ op = 5) :
    let c := command op [0x300 + op, 0x5000, 0]
    let s := imaged c {} 100
    AtHead s 0 0 op c ∧ c.node = none ∧ (imaged c {} 101).cmd c.id = some c ∧
      ({ s with nextId := s.nextId + 1 }).readLaunch c.p (.cmd c.id) (c.dword 1) s.nextId (.compute c.id) =
        (imaged c {} 101, .ok (launch0 100 (.compute 7))) ∧
      (imaged c {} 101).spanning (launch0 100 (.compute 7)).p = false ∧ (imaged c {} 101).hb.releases = [] := by
  intro c s
  have h := imaged_launch c {} 101 100 {} (.cmd 7) (.compute 7)
  refine ⟨?_, rfl, ?_, ?_, ?_, ?_⟩
  · unfold AtHead
    rcases ho with rfl | rfl <;> decide +kernel
  · rcases ho with rfl | rfl <;> decide +kernel
  · have hw : c.dword 1 = 0x5000 := by rcases ho with rfl | rfl <;> decide +kernel
    have hs : ({ s with nextId := s.nextId + 1 } : State) = imaged c {} 101 := imaged_next c {} 100 101 {}
    have hn : s.nextId = 100 := rfl
    have hc : c.p = 0 ∧ c.id = 7 := ⟨rfl, rfl⟩
    rw [hw, hs, hn, hc.1, hc.2]
    exact h
  · rcases ho with rfl | rfl <;> decide +kernel
  · rcases ho with rfl | rfl <;> decide +kernel

theorem test_has_LaunchesReachTheVats :
    (let c := command 0x01 [0x301, 0x5000, 0]
     let s := withCmd paged c
     let r := ({ s with nextId := s.nextId + 1 }).readLaunch c.p (.cmd c.id) (c.dword 1) s.nextId (.compute c.id)
     AtHead s 0 0 0x01 c ∧ r.2 = .refused (stRefused 0 2) ∧ r.1.cmd c.id = some c) ∧
    (let s := running [] quire0
     s.live = true ∧ ((s.resident 0).head?.map (·.id)) = some 9 ∧ (s.vat 0).preload = none ∧
       (s.launches.find? (fun e => e.2.p = 0 && decide (e.2.next < e.2.total) && s.mayUse 0 0 &&
         !(s.vat 0).preempt.contains 0 && !(s.vat 0).blocks.any (fun b => b.2.launch = e.1))) = none) ∧
    (let s := running [] quire0
     let s := { s with launches := s.launches ++ [(10, { kernel [] with id := 10 })] }
     (s.launches.find? (fun e => e.2.p = 0 && decide (e.2.next < e.2.total) && s.mayUse 0 0 &&
         !(s.vat 0).preempt.contains 0 && !(s.vat 0).blocks.any (fun b => b.2.launch = e.1))).map (·.1) = some 10) ∧
    (let s := launched [0x70]
     let l := kernel [0x70]
     s.live = true ∧ s.launch 9 = some l ∧ l.use = .compute 7 ∧ s.partRuns l.p = true ∧ s.launchStands l = true ∧
       s.spanning l.p = false ∧ s.sched.saved = [] ∧ l.next < l.total ∧ (s.findRoom l (fun _ => true)).map (·.1) = some 0 ∧
       s.finaliser = 0 ∧
       ∀ k ∈ [0, 1, 2], (s.translatePages (vatAsker 0 l.p) (.launch 9) l.p rightX k 8).2.isOk = true ∧
         (s.translatePages (vatAsker 0 l.p) (.launch 9) l.p rightX k 8).1.vat 0 = {}) := by
  unfold AtHead; decide +kernel

/-- Of any size that its image has, a dispatch's footprint translates. -/
theorem test_has_BlockDispatch :
    let s := launched [0x70]
    let l := kernel [0x70]
    (s.footprints (vatAsker 0 l.p) (.launch 9) l.p (s.dispatchRanges l [])).2.isOk = true ∧
      (s.footprints (vatAsker 0 l.p) (.launch 9) l.p (s.dispatchRanges l [])).1.vat 0 = {} := by
  intro s l
  have h := test_has_LaunchesReachTheVats.2.2.2.2.2.2.2.2.2.2.2.2.2
  have hr : s.dispatchRanges l [] = [(0x8000, imageSize 0 (kernel [0x70]).mod, rightX)] := rfl
  have hs : imageSize 0 (kernel [0x70]).mod ≤ 4112 := by
    simp only [imageSize, kernel]
    exact Nat.min_le_right _ _
  have hk : pagesOf 0x8000 (imageSize 0 (kernel [0x70]).mod) ∈ [0, 1, 2] := by
    unfold pagesOf
    split
    · simp
    · simp only [List.mem_cons, List.not_mem_nil, or_false]
      omega
  have h1 := h _ hk
  rw [hr]
  simp only [State.footprints, State.footprint]
  rw [show (0x8000 : Nat) / 4096 = 8 by omega]
  generalize hx : s.translatePages (vatAsker 0 l.p) (.launch 9) l.p rightX (pagesOf 0x8000 (imageSize 0 (kernel [0x70]).mod)) 8 = x at h1
  obtain ⟨s1, r⟩ := x
  cases r with
  | error f => exact absurd h1.1 (by simp [Except.isOk, Except.toBool])
  | ok xs => exact ⟨rfl, h1.2⟩

theorem test_has_CopyAndFillMoveBytes :
    (let c := command 0x30 [0x730, 0x6000, 0, 0x6000, 0, 0, 0]
     AtHead (withCmd paged c) 0 0 0x30 c ∧ c.dword 5 = 0) ∧
    (let c := command 0x30 [0x730, 0x6000, 0, 0x6003, 0, 4, 0]
     AtHead (withCmd paged c) 0 0 0x30 c ∧ c.dword 1 < c.dword 3 + c.dword 5 ∧ c.dword 3 < c.dword 1 + c.dword 5) ∧
    (let c := command 0x30 [0x730, 0x6000, 0, 0x6004, 0, 4, 0]
     let s := withCmd paged c
     let r1 := ((s.hand c.id).modCmd c.id (fun c => { c with progress := 0 })).footprints (copyAsker c.p) (.cmd c.id) c.p
        (sortRanges [(c.dword 1, c.dword 5, rightR), (c.dword 3, c.dword 5, rightW)])
     let r2 := r1.1.vRead (copyAsker c.p) (.cmd c.id) c.p (c.dword 1) (c.dword 5)
     let r3 := r2.1.vWrite (copyAsker c.p) (.cmd c.id) c.p (c.dword 3) [0, 0, 0, 0]
     AtHead s 0 0 0x30 c ∧ c.dword 1 + c.dword 5 ≤ c.dword 3 ∧ r1.2.isOk = true ∧ r2.2.toOption = some [0, 0, 0, 0] ∧
       r3.2.isOk = true ∧ r3.1.ring.reqs.any (fun r => r.owner = .cmd c.id) = false ∧
       r3.1.cmd c.id = some { c with phase := .handed }) ∧
    (let c := command 0x31 [0x631, 0x6000, 0, 0, 0, 5]
     AtHead (withCmd paged c) 0 0 0x31 c ∧ c.dword 3 = 0) ∧
    (let c := command 0x31 [0x631, 0x6FFC, 0, 4, 0, 5]
     let s := withCmd paged c
     let r1 := ((s.hand c.id).modCmd c.id (fun c => { c with progress := 0 })).footprints (copyAsker c.p) (.cmd c.id) c.p
        (sortRanges [(c.dword 1, c.dword 3, rightW)])
     let r3 := r1.1.vWrite (copyAsker c.p) (.cmd c.id) c.p (c.dword 1)
        ((List.range (c.dword 3)).map (fun i => BitVec.ofNat 8 (c.word 5 / 2 ^ (8 * (i % 4)))))
     AtHead s 0 0 0x31 c ∧ c.dword 1 % 4096 + c.dword 3 ≤ 4096 ∧ r1.2.isOk = true ∧ r3.2.isOk = true ∧
       r3.1.ring.reqs.any (fun r => r.owner = .cmd c.id) = false ∧ r3.1.cmd c.id = some { c with phase := .handed }) := by
  unfold AtHead; decide +kernel

/-- The bytes of a node that marks 5 and depends on nothing. -/
def markNode : List Byte := slice (toLe 4 0x343 ++ toLe 4 5) 0 32 ++ List.replicate 15 0xFF ++ List.replicate 17 0

/-- The paged chip with a graph store of one mebibyte at 0x10000, a graph 2 of that node, and in memory the node at 0x7000
and an edit of its word 1 at 0x7040. -/
def stored : State :=
  let s := (paged.wrAddr .HB_GRAPH_STORE_ADDR 0x10000 0).wr .HB_GRAPH_SIZE_UNITS 4 0
  let s := State.put s 0x7000 (BitVec.ofNat 256 (leAt markNode 0 32))
  let s := State.put s 0x7020 (BitVec.ofNat 256 (leAt markNode 32 32))
  { State.put s 0x7040 0x0000000600010000 with hb := { versions := [⟨0, 2, 1, true, [markNode]⟩] } }

theorem test_has_GraphsCommitAndLaunch :
    (let c := command 0x04 [0x504, 0x002, 0x7000, 0, 1]
     let s := withCmd stored c
     let r := s.vRead (headboxAsker c.p) (.cmd c.id) c.p (c.dword 2) (64 * c.word 4)
     let nodes := chunksOf 64 (c.word 4) (r.2.toOption.getD [])
     let f := ({ r.1 with free := r.1.free + 1 }).footprints (headboxAsker c.p) (.cmd c.id) c.p
        [(r.1.addrOf .HB_GRAPH_STORE_ADDR c.p + 64 * (c.word 1 % 256), 64, rightW),
          (r.1.addrOf .HB_GRAPH_STORE_ADDR c.p + 16384 + r.1.storeUsed c.p, 64 * nodes.length, rightW)]
     s.live = true ∧ s.cmd c.id = some c ∧ r.1.cmd c.id = some c ∧ s.rd .HB_GRAPH_SIZE_UNITS c.p ≠ 0 ∧
       s.headCmd 0 0 (fun c => c.op = 0x04 && patchMode c.words = 0) = some c ∧ r.2.isOk = true ∧ badNode nodes = none ∧
       r.1.patchWaits c (c.word 1 % 256) = none ∧ r.1.storeUsed c.p + 64 * nodes.length ≤ r.1.storeRoom c.p ∧
       f.2.isOk = true ∧ f.1.cmd c.id = some c) ∧
    (let c := command 0x04 [0x504, 0x102, 0x7040, 0, 1]
     let s := withCmd stored c
     let r := s.vRead (headboxAsker c.p) (.cmd c.id) c.p (c.dword 2) (8 * c.word 4)
     s.headCmd 0 0 (fun c => c.op = 0x04 && patchMode c.words = 1) = some c ∧ r.2.isOk = true ∧
       (s.currentVersion c.p (c.word 1 % 256)).isSome = true ∧
       (let nodes := (applyEdits [markNode] (chunksOf 8 (c.word 4) (r.2.toOption.getD [])) 0).toOption.getD []
        let f := ({ r.1 with free := r.1.free + 1 }).footprints (headboxAsker c.p) (.cmd c.id) c.p
          [(r.1.addrOf .HB_GRAPH_STORE_ADDR c.p + 64 * (c.word 1 % 256), 64, rightW),
            (r.1.addrOf .HB_GRAPH_STORE_ADDR c.p + 16384 + r.1.storeUsed c.p, 64 * nodes.length, rightW)]
        nodes.length = 1 ∧ badNode nodes = none ∧ r.1.patchWaits c (c.word 1 % 256) = none ∧
          r.1.storeUsed c.p + 64 * nodes.length ≤ r.1.storeRoom c.p ∧ r.1.cmd c.id = some c ∧ f.2.isOk = true ∧
          f.1.cmd c.id = some c)) ∧
    (let c := command 0x04 [0x504, 0x202, 0, 0, 0]
     let s := withCmd stored c
     s.headCmd 0 0 (fun c => c.op = 0x04 && patchMode c.words = 2) = some c ∧ s.cmd c.id = some c) ∧
    (let c := command 0x03 [0x403, 2, 0x7000, 0]
     let s := withCmd stored c
     AtHead s 0 0 0x03 c ∧ s.watchedBy c.p c.q (c.word 1 % 256) = none ∧
       (s.currentVersion c.p (c.word 1 % 256)).isSome = true) ∧
    (let c := command 0x03 [0x403, 3, 0x7000, 0]
     let s := withCmd stored c
     AtHead s 0 0 0x03 c ∧ s.currentVersion c.p (c.word 1 % 256) = none) := by
  unfold AtHead; decide +kernel


/-! ### Sync and memory objects -/

/-- Partition 0's quotas allow objects; its argument block is as given; memory object 3 is its own, exported to 0 and 1. -/
def objects (a0 a1 a2 a3 : Nat) : State :=
  ((((((((((chip.wr .GLB_OBJ_QUOTA_SYN 0xFFFF 0).wr .GLB_OBJ_QUOTA_MO 0x1FFF 0).wr .HB_OBJ_ARG_ARG0 a0 0).wr .HB_OBJ_ARG_ARG1 a1 0).wr
    .HB_OBJ_ARG_ARG2 a2 0).wr .HB_OBJ_ARG_ARG3 a3 0).wr .HB_MO_STATE 1 3).wr .HB_MO_HOLDERS 3 3).wr .HB_MO_EXPORT 3 3).wr
    .HB_Q_CTRL_EN 1 0 0)

/-- Fence 5 and counter 6 of partition 0, lock 7 and barrier 8 beside them. -/
def synced (a0 a1 : Nat) : State :=
  ((((((objects a0 a1 0 0).wr .SYN_OBJ_TYPE 1 5).wr .SYN_OBJ_VALUE 9 5).wr .SYN_OBJ_TYPE 4 6).wr .SYN_OBJ_VALUE 3 6).wr
    .SYN_OBJ_TYPE 2 7).wr .SYN_OBJ_TYPE 3 8

/-- The state with a command in queue 0 that has not passed. -/
def busyQueue (s : State) : State := (s.setQueue 0 0 [command 0x43 [0x343, 1, 0]]).setBell 0 0 4

/-- A partition never owns more objects than there are, so a quota above that number admits one more. -/
theorem owned_le (s : State) (p : Nat) : s.ownedSync p ≤ 16384 ∧ s.ownedMem p ≤ 4096 := by
  refine ⟨?_, ?_⟩
  · unfold State.ownedSync State.objsOf
    exact le_trans (List.length_filter_le _ _) (by rw [List.length_range])
  · unfold State.ownedMem
    exact le_trans (List.length_filter_le _ _) (by rw [List.length_range])

theorem test_has_SyncObjectsAreCreatedExportedReset :
    (∀ a ∈ [(1, 2 ^ 64 - 1), (4, 5), (2, 0), (3, 0x100000001)],
      let s := objects a.2 0 0 0
      s.mayWrite (0 : Fin 33) (0 : Fin 32) = true ∧ s.homed (0 : Fin 32) = true ∧ s.rd .HB_OBJ_ARG_ARG1 (0 : Fin 32) = 0 ∧
        s.rd .HB_OBJ_ARG_ARG0 0 < 2 ^ 64 ∧ (a.1 = 3 → s.rd .HB_OBJ_ARG_ARG0 0 % 2 ^ 32 ≠ 0) ∧
        (a.1 = 2 → s.rd .HB_OBJ_ARG_ARG0 0 = 0) ∧ 16384 < s.rd .GLB_OBJ_QUOTA_SYN 0 ∧
        (List.range 16384).find? (fun h => s.objType h = 0) = some 0) ∧
    (∀ h ∈ [5, 6],
      let s := synced 9 2
      s.mayWrite (0 : Fin 33) (0 : Fin 32) = true ∧ s.owns 0 h = true ∧
        s.exportOk 0 (s.rd .HB_OBJ_ARG_ARG1 0 % 2 ^ 32) = true ∧ (s.rd .SYN_OBJ_TYPE h = 1 ∨ s.rd .SYN_OBJ_TYPE h = 4) ∧
        s.rd .SYN_OBJ_STATE h ≠ 2 ∧ NoArms s ∧ s.rd .HB_OBJ_ARG_ARG0 0 < 2 ^ 64) := by
  unfold NoArms; decide +kernel

theorem test_has_MemoryObjectsAndReleases :
    (let s := busyQueue (synced 0 0)
     s.mayWrite (0 : Fin 33) (0 : Fin 32) = true ∧ s.homed (0 : Fin 32) = true ∧ s.hb.releases = [] ∧
       (s.stamps 0).all (s.stampPassed 0) = false ∧ s.owns 0 5 = true ∧ s.rd .SYN_OBJ_TYPE 5 ≠ 2 ∧
       s.rd .SYN_OBJ_EXPORT 5 = 0 ∧ NoArms s ∧ s.rd .HB_MO_STATE (3 % 4096) = 1 ∧
       bitAt (s.rd .HB_MO_HOLDERS (3 % 4096)) 0 = true) ∧
    (let s := objects 0xFFFFFFFFF000 0x1000 9 0
     s.rd .HB_OBJ_ARG_ARG0 0 % 4096 = 0 ∧ s.rd .HB_OBJ_ARG_ARG1 0 % 4096 = 0 ∧ s.rd .HB_OBJ_ARG_ARG1 0 ≠ 0 ∧
       s.rd .HB_OBJ_ARG_ARG0 0 + s.rd .HB_OBJ_ARG_ARG1 0 ≤ 2 ^ 48 ∧ s.rd .HB_OBJ_ARG_ARG3 0 = 0 ∧
       4096 < s.rd .GLB_OBJ_QUOTA_MO 0 ∧ (List.range 4096).find? (fun h => s.rd .HB_MO_STATE h = 0) = some 0) ∧
    (let s := objects 0 0 0 2
     s.rd .HB_MO_STATE 3 = 1 ∧ bitAt (s.rd .HB_MO_EXPORT 3) 0 = true ∧ s.rd .HB_MO_OWNER 3 = 0 ∧
       s.exportOk 0 (s.rd .HB_OBJ_ARG_ARG3 0 % 2 ^ 32) = true) := by unfold NoArms; decide +kernel

/-- A wait of command 7 on fence 5 for 10. -/
def waitFor (registered : Bool) (notice : Option Nat) (timeout : Word) : State :=
  let c : Cmd := { command 0x41 [0x541, 5, 10, 0, timeout] with phase := .handed }
  let s := withCmd (synced 0 0) c
  { s with sync := { s.sync with waits := [⟨50, 5, 10, timeout.toNat, .cmd 7, 0, registered, notice⟩] } }

theorem test_has_ValuesAreWrittenAndAwaited :
    (let s := synced 0 0
     let t := { s with sync := { s.sync with latch := [(6, 0xFFFFFFFF)] } }
     s.valueWritable (0 : Fin 33) (5 : Fin 16384) = true ∧ NoArms s ∧ s.rd .SYN_OBJ_TYPE 5 = 1 ∧
       t.valueWritable (0 : Fin 33) (6 : Fin 16384) = true ∧ NoArms t ∧ t.rd .SYN_OBJ_TYPE 6 = 4 ∧
       storeFind t.sync.latch 6 = some 0xFFFFFFFF) ∧
    (∀ x ∈ [(waitFor false none 0, false, none, (0 : Word)), (waitFor true (some stOk) 0, true, some stOk, 0),
        (waitFor true (some 5) 8, true, some 5, 8), (waitFor true none 8, true, none, 8)],
      let c : Cmd := { command 0x41 [0x541, 5, 10, 0, x.2.2.2] with phase := .handed }
      x.1.live = true ∧ x.1.waitBy 50 = some ⟨50, 5, 10, BitVec.toNat x.2.2.2, .cmd 7, 0, x.2.1, x.2.2.1⟩ ∧ x.1.cmd 7 = some c ∧
        c.result = none ∧ x.1.registeredWaits < 8192) := by unfold NoArms; decide +kernel


/-! ### Stops, resets, functions, claims, furnishes -/

/-- The chip whose partition 0 is torn down after a fault. -/
def faulting (units : List EngineUnit) : State := { chip with hb := { stops := [⟨40, .fault 0, units⟩] } }

theorem test_has_StopsEndWithTheLastEngine :
    (∀ units ∈ [[EngineUnit.copy], [EngineUnit.copy, EngineUnit.geo]],
      let s := faulting units
      s.live = true ∧ units.contains .copy = true ∧ s.sched.waiting = [] ∧ s.ring.funcs = [] ∧ s.homed 0 = true ∧
        s.rd .SCH_FAULT_CTRL_AUTO 0 = 0 ∧ s.launches = [] ∧ s.sched.saved = [] ∧ s.geo.passes = []) ∧
    [EngineUnit.copy, EngineUnit.geo].filter (fun y => y ≠ EngineUnit.copy) ≠ [] := by decide +kernel

/-- Without launches, saved blocks or passes no partition waits for the pool. -/
theorem no_pool_waits (s : State) (h1 : s.launches = []) (h2 : s.sched.saved = []) (h3 : s.geo.passes = []) (n : Nat) :
    s.poolWaits n = false := by simp [State.poolWaits, h1, h2, h3]

theorem test_has_IdlePartitionIsReclaimed :
    (let s := chip
     s.mayWrite (0 : Fin 33) (1 : Fin 32) = true ∧ (∀ q : Fin 16, s.rd .HB_Q_CTRL_EN (1 : Fin 32) q ≤ 1) ∧
       s.rd .HB_RECLAIM_RUNNING 1 = 0 ∧ s.hb = {} ∧ s.launches = [] ∧ s.geo.passes = [] ∧ s.vats = [] ∧ s.codec = {} ∧
       s.sync = {} ∧ s.xlt = {} ∧ s.spanning 1 = false ∧ s.vfEnabled 1 = false ∧ s.rd .GLB_FLR_STATUS_RUNNING = 0 ∧
       s.rd .EVQ_CTRL_EN 32 = 0 ∧ s.homed 1 = true) := by decide +kernel

theorem test_has_IdlePartitionIsReclaimed_objects :
    (∀ h, h < 16384 → chip.rd .SYN_OBJ_TYPE h = 0) ∧ (∀ h, h < 4096 → chip.rd .HB_MO_STATE h = 0) :=
  ⟨fun h _ => rd_reset chip .SYN_OBJ_TYPE h 0 (by omega) (by omega) (by decide +kernel),
    fun h _ => rd_reset chip .HB_MO_STATE h 0 (by omega) (by omega) (by decide +kernel)⟩

/-- The chip while a device reset runs. -/
def resetting : State := { chip with mgc := { chip.mgc with booted := false, devReset := true } }

theorem test_has_DeviceResets :
    (let s := chip
     s.rd .MGC_MBOX_CTRL_PENDING ≤ 1 ∧ s.rd .PWR_WEAR_SECONDS < 2 ^ 32 ∧ s.rd .GLB_DEVRESET_CTRL_COUNT < 256 ∧
       s.inReset = false ∧ s.live = true ∧ s.mgc.booted = true ∧ s.powered = true ∧ (s.fnCfg 0).d3hot = false ∧
       s.inRecovery = false) ∧
    (let s := chip.wr .GLB_DEVRESET_CTRL_COUNT 255
     s.rd .GLB_DEVRESET_CTRL_COUNT < 256 ∧ s.inReset = false) ∧
    (resetting.inReset = true ∧ resetting.live = true ∧ resetting.rd .MGC_MBOX_CTRL_PENDING ≤ 1) := by decide +kernel

/-- Partition 0 stopping, everything quiet. -/
def stopping (k : Nat) (drain : Bool) : State := { chip.setFunc k 1 with hb := { stops := [⟨40, .func k drain, []⟩] } }

theorem test_has_FunctionsStartAndStop :
    (chip.pfWrites = true ∧ funcIndex (0 : BitVec 4).toNat (0 : BitVec 8).toNat = some 0 ∧ chip.funcState 0 = fnRunning ∧
      chip.vatsOf 0 = [] ∧ funcIndex (2 : BitVec 4).toNat (3 : BitVec 8).toNat = some 37 ∧ chip.funcState 37 ≠ fnRunning) ∧
    ((chip.setFunc 0 2).pfWrites = true ∧ (chip.setFunc 0 2).funcState 0 = fnStopped ∧
      (chip.setFunc 37 2).funcState 37 = fnStopped) ∧
    (∀ x ∈ [(0, true), (0, false), (37, false)],
      let s := stopping x.1 x.2
      s.live = true ∧ s.ring.funcs = [] ∧ s.funcStop x.1 = some (⟨40, .func x.1 x.2, []⟩, x.2) ∧ s.quiet x.1 x.2 = true ∧
        s.cal.lead = [] ∧ s.rd .EVQ_CTRL_EN (if x.1 < 32 then s.driverTarget x.1 else 32) = 0 ∧
        (x.1 < 32 → s.homed x.1 = true)) ∧
    (∀ k ∈ [0, 31, 34, 37],
      let s := chip.setFunc k 3
      s.funcState k = fnStarting ∧ s.spanning k = false ∧ s.vats = [] ∧ s.geo.passes = [] ∧ s.ring.funcs = []) := by
  decide +kernel

/-- The chip with resources 0, 1 and 0x10 held by feature 1 of a requester. -/
def claimed (who : Nat) : State :=
  { chip with furn := { chip.furn with claims := [(0, ⟨1, who⟩), (1, ⟨1, who⟩), (0x10, ⟨1, who⟩)] } }

theorem test_has_ClaimsTakeAllOrNone :
    (claimTargets (1 : BitVec 8).toNat (0xFF : BitVec 8).toNat = some [0, 1, 0x10] ∧
      claimTargets (0x0E : BitVec 8).toNat (15 : BitVec 8).toNat = some [15]) ∧
    (chip.pfWrites = true ∧ (∀ r ∈ [0, 1, 0x10], chip.claimOf r = none) ∧ chip.live = true ∧ chip.mgc.booted = true) ∧
    ((claimed 0).pfWrites = true ∧ (claimed 0).heldBy [0, 1, 0x10] (fun _ => true) = some (0, ⟨1, 0⟩)) ∧
    ((claimed 1).pfWrites = true ∧ ∀ r ∈ [0, 1, 0x10], (claimed 1).claimOf r = some ⟨(1 : BitVec 8).toNat, 1⟩) := by
  decide +kernel

/-! A furnish that is signed: with a public exponent of 1 the signature is the encoded message itself. -/

/-- The test's key: a modulus of 4,096 ones and the exponent 1. -/
def testKey : List Byte := List.replicate 512 0xFF ++ toBe 4 1

/-- The digest of the key. -/
def testDigest : Nat :=
  0xe813b11ac2cca0d934fb3551c1d9858e1e08bffa8b3566951f38b10b7343c3b6a784fc41de6691f2ab24a9e31cd4437ca9a2fc0a25ba2e3bb9d6f5c4a047f4a2

/-- A furnish with its watermark, given the signature. -/
def marked (bs sig : List Byte) : List Byte := bs ++ toLe 2 0x7FFF ++ toLe 2 1040 ++ toLe 4 0 ++ testKey ++ toLe 4 0 ++ sig

/-- A header: flags, length, records, generation, base. -/
def furnHeader (flags len count gen base : Nat) : List Byte :=
  slice (toLe 4 0x48534E46 ++ [0, 1] ++ toLe 2 flags ++ toLe 4 len ++ toLe 2 count ++ toLe 2 0 ++ toLe 8 gen ++ toLe 8 base) 0 48 ++
    List.replicate 16 0xFF

/-- A record's type, length, key and body. -/
def furnRec (r : FRec) : List Byte := toLe 2 r.type ++ toLe 2 (8 + r.body.length) ++ toLe 4 r.key ++ r.body

/-- RING: members, master. -/
def ringOf (members master : Nat) : FRec := ⟨1, 0, [BitVec.ofNat 8 members, BitVec.ofNat 8 master, 0, 0, 0, 0, 0, 0]⟩

/-- EMSA-PSS of the full furnish, with a salt of 64 zero bytes (RFC 8017). -/
def fullSig : List Byte :=
  toBe 64 0x3e1e8632cb6e7fa1e347f20de0a7a02e53a0f507b7fca3f2807968f4fda43f60a3acbfab2196a3d28343067a0e52f202173778becb1bb456ad820125b9a942c5 ++
  toBe 64 0x6a6b634adf2c4af8412bdee3015fa8c0272d8423ed71cb8fe78c52cee8f441d3162a3e6acd01beb853bc058af56ac7d500ec799d9c9558abb55a676bbb9ea002 ++
  toBe 64 0x4e0bd2523861ead37cd697397420a3bd106f107966a29d9e095a609b059406e63313e6160f9031a1aad4c3a384d078192514db73ff1deff5dea21532b8e3bb34 ++
  toBe 64 0x3f94489be2529b6bb9f47e4be5ed824709c9994c06f87b0822898516d9cef7bd531aa9df14c255958f17c6c099efd9bf472377cbc3780bae8362db843d46a3f7 ++
  toBe 64 0xf5ff26d4a5d6217b23e895adf60c1c883c65915227c331dea8da2f208967be0a7fc04d4c95bf3a2ca772ab5f0c6f10f88e4c3973b9bf5bcc5f03b2ceb5b8d39d ++
  toBe 64 0xa5152c736359d23d207bb2eefea372fb72beb42378fb9971d26ecdfba22458eb2f511f7dd1838f89f03ec516b863a04f03888e91b6a5f1f8929749553f7c6ed5 ++
  toBe 64 0x007c03b156831bc1869f1226f2f993b24bf35be98f50bf1e9b3e058711d43a578779ecde78e9b7ff8cf7b76f7a964efc6b1af7e4a3950856df6817c522a50203 ++
  toBe 64 0x894af7cc33481c087499ad11c93d944a44c70def733077d3e69ef3d228b00e68e82481e8c722c95404fbc4c4cb85bc0d2d7d7e885fb0b1037b1ddde1386040bc

/-- EMSA-PSS of the delta. -/
def deltaSig : List Byte :=
  toBe 64 0x0ef66fc77654dddfdad7dceda2b8a0a2ce1bee567aaff447545d8cd7a764751ecca7c7f8fa329358805b8c75754e55b1a76c78b93a31a26275d64ff6c85941eb ++
  toBe 64 0x75bed61af69c04abb8098dd6e2269dd10738b63a2a82812de880330fe2800da4b751f545d634d658d783591eacb638fbae1460c19ecb47fa4cb1fde06762edb6 ++
  toBe 64 0xb4fecb649ba53cca7e44e1b05cc4005afd8c2d82c51b1d7d78e8625aa695ae3b677836ce9d8b0ea5767fd705c5f99040c09cf224e7abdf2825f650075b2b2457 ++
  toBe 64 0x3720e1e40d9e893538522759767bdc706f52d1687bcd98542fc9cc02e2fbe08ed801fa9e9c1ac5c31563954d201d4f03f9224c0a533bf4226e3b5fc8985a8833 ++
  toBe 64 0x2ab8a7fd1786f645abd0314e49cd19683d356ed97da5c9506693ef065335c9ebb092fbd99c97f4e59585831eaae2b0320b73fb8431ca30c31ad880f3ff72b505 ++
  toBe 64 0xcd7fd567620f087364bcd3c20181ec2bb3a3090c3e543baeaad891fb291257b66c4157b2b3f012c9ddc73d0ca5c733a761688252dd92a8c122e67e5e18d4955b ++
  toBe 64 0x2c8c3b0554180973fe4e2fceb730435e382e4e777ed8b8e60449e307243afe032afe94031e456e5c8d05974b59496a24e397110603098a7a82ba6477479c3b1a ++
  toBe 64 0x8bf95c108bf881a927273e8df1170107b97b1f43790c0ee9f452f4c76d5b263e0dc0d957e98cac4000e26a7d8106754f6e5d4755592ef8e4f5f5ba0a9c57dfbc

/-- A furnish of one chip and no partition, and zeros behind it. -/
def fullBytes : List Byte := marked (furnHeader 0 1120 2 1 0 ++ furnRec (ringOf 1 0)) fullSig ++ List.replicate 32 0

/-- A delta of no records on generation 1, and zeros behind it. -/
def deltaBytes : List Byte := marked (furnHeader 1 1104 1 2 1) deltaSig ++ List.replicate 48 0

/-- A chip of two members at position 0, whose DRAM ends 1,152 bytes behind the load address; a bit-stream there. -/
def loading (bs : List Byte) (members master : Nat) : State :=
  let s := ((chip.wr .MEM_DRAM_SIZE_BYTES (0x100000 + 1152)).wrAddr .GLB_LOAD_ADDR_ADDR 0x100000).wr .GLB_FURNISH_GEN_GENERATION 1
  let s := s.wr .FLT_MEMBERS_LIVE 3
  { s with
    mem := { s.mem with l2 := sectors 0x8000 36 bs }
    mgc := { s.mgc with fuses := { s.mgc.fuses with fnsKeys := [testDigest] } }
    furn := { recs := [ringOf members master] } }

/-- The bit-stream is read from the load address. -/
theorem loading_source (bs : List Byte) (members master : Nat) (h : bs.length = 1152) :
    (loading bs members master).loadSource = .ok bs := by
  have hr : (loading bs members master).regs = (loading [] 1 0).regs := rfl
  have ha : (loading bs members master).addrOf .GLB_LOAD_ADDR_ADDR = 0x100000 := by
    have : (loading [] 1 0).addrOf .GLB_LOAD_ADDR_ADDR = 0x100000 := by decide +kernel
    simpa only [State.addrOf, State.rd, hr] using this
  have hn : (loading bs members master).loadAvail 0x100000 = 1152 := by
    have : (loading [] 1 0).loadAvail 0x100000 = 1152 := by decide +kernel
    rw [← this]
    have hd : (loading bs members master).dramSize = (loading [] 1 0).dramSize := by simp only [State.dramSize, State.rd, hr]
    have hg : (loading bs members master).region = (loading [] 1 0).region := by
      funext r
      simp only [State.region, State.addrOf, State.rd, hr]
    unfold State.loadAvail
    rw [hd, hg]
  have he : (loading bs members master).rd .L2_CTRL_EN = 1 := by
    have : (loading [] 1 0).rd .L2_CTRL_EN = 1 := by decide +kernel
    simpa only [State.rd, hr] using this
  have hb : (loading bs members master).physBytes (32 * 0x8000) (32 * 36) = bs := by
    apply physBytes_hits _ _ _ _ h
    intro j hj
    unfold State.l2Hit sectorOf
    rw [if_pos he, show 32 * (0x8000 + j) / 32 = 0x8000 + j by omega]
    exact storeFind_map_range _ _ _ _ hj
  have e1 : 32 * 0x8000 = 0x100000 := by norm_num
  have e2 : 32 * 36 = 1152 := by norm_num
  rw [e1, e2] at hb
  simp [State.loadSource, ha, hn, State.loadBytes, hb]

theorem test_has_FurnishLoads_source :
    (loading fullBytes 1 0).loadSource = .ok fullBytes ∧ (loading deltaBytes 2 0).loadSource = .ok deltaBytes :=
  ⟨loading_source _ _ _ (by decide +kernel), loading_source _ _ _ (by decide +kernel)⟩

theorem test_has_FurnishLoads :
    (let s := loading fullBytes 1 0
     s.pfWrites = true ∧ s.rd .GLB_LOAD_CTRL_PENDING = 0 ∧ s.rd .GLB_FURNISH_STATUS_LOCKED = 0 ∧
       (s.readFurnish fullBytes fullBytes.length 0).toOption = some [ringOf 1 0]) ∧
    ((chip.wr .GLB_FURNISH_STATUS_LOCKED 1).pfWrites = true ∧ (chip.wr .GLB_FURNISH_STATUS_LOCKED 1).rd .GLB_FURNISH_STATUS_LOCKED = 1) ∧
    ((loading [] 2 1).pfWrites = true ∧ (loading [] 2 1).isMaster = false) ∧
    (let s := { chip with furn := { recs := [ringOf 2 0], delta := some ⟨[], [1], false⟩ } }
     s.pfWrites = true ∧ s.rd .GLB_LOAD_CTRL_PENDING = 0) ∧
    (let s := loading deltaBytes 2 0
     s.pfWrites = true ∧ s.rd .GLB_LOAD_CTRL_PENDING = 0 ∧ s.isMaster = true ∧ s.otherMembers = [1] ∧
       (s.checkDelta deltaBytes deltaBytes.length).isOk = true) := by decide +kernel


/-! ### BPC instructions: for each a word of it and a quire at it -/

/-- An instruction word from its fields (R90). -/
def bw (op fmt d a b c mod : Nat) (pred : Nat := 0) : Dword :=
  BitVec.ofNat 64 (((((((op * 8 + fmt) * 2) * 8 + pred) * 512 + d) * 512 + a) * 512 + b) * 512 + c) * 8192 + BitVec.ofNat 64 mod

/-- The context of the quire's instruction. -/
def ctxAs (l : Launch) (b : Block) (q : Quire) : BCtx :=
  ⟨0, 0, q, b, { l with next := 1 }, (decodeInst l.mod.code q.pc).getD ⟨0, 0, 0, false, 0, 0, 0, 0, 0, 0, 0, 1⟩⟩

/-- The context of the quire's instruction, in its launch's first block. -/
def ctx (code : List Dword) (q : Quire) : BCtx := ctxAs (kernel code) { launch := 9, index := 0 } q

/-- What `Issues` says, as a test. -/
def issuesB (s : State) (vat slot : Fin 64) (op : Nat) (c : BCtx) : Bool :=
  s.live && s.ready vat slot = some (c.q, c.blk, c.l) && decodeInst c.l.mod.code c.q.pc = some c.i && c.i.op = op &&
    c.vat = vat && c.slot = slot && execLanes c.q c.i ≠ 0 && legal c.i && rangeFault c.i c.l.vregs = none &&
    (s.vat vat).preempt = []

theorem issues_of (s : State) (vat slot : Fin 64) (op : Nat) (c : BCtx) (h : issuesB s vat slot op c = true) :
    Issues s vat slot op c := by
  simp only [issuesB, Bool.and_eq_true, decide_eq_true_eq] at h
  obtain ⟨⟨⟨⟨⟨⟨⟨⟨⟨h1, h2⟩, h3⟩, h4⟩, h5⟩, h6⟩, h7⟩, h8⟩, h9⟩, h10⟩ := h
  exact ⟨h1, h2, h3, h4, ⟨h5, h6⟩, h7, h8, h9, h10⟩

/-- A quire with distinct values in v0 to v31, s0 to s15 and the predicates. -/
def regs0 : Quire :=
  { quire0 with
    v := (List.range 1024).map (fun k => (k, BitVec.ofNat 32 (0x41200000 + 0x10003 * k)))
    s := (List.range 16).map (fun k => (k, BitVec.ofNat 32 (2 * k)))
    pr := [(1, 0xAAAA), (2, 0x0FF0)] }

/-- A word of each instruction that writes D or predicates. -/
def dWords : List (Nat × Dword) :=
  ([0x01, 0x02, 0x03, 0x04, 0x06, 0x07, 0x08, 0x09, 0x0C, 0x0D, 0x0E, 0x10, 0x11, 0x12, 0x0B, 0x0F, 0x14, 0x15, 0x16].map
      (fun op => (op, bw op 0 1 2 (if [0x0B, 0x0F, 0x14, 0x15, 0x16].contains op then 0 else 3) 0 0))) ++
  ([0x05, 0x17, 0x13, 0x18].map (fun op => (op, bw op 0 1 2 3 4 0))) ++ [(0x0A, bw 0x0A 0 1 2 0 0 0x400)] ++
  ([0x20, 0x21, 0x22, 0x24, 0x25, 0x27, 0x2F].map (fun op => (op, bw op 0 1 2 3 0 0x1000))) ++
  [(0x23, bw 0x23 0 1 2 3 4 0x1000), (0x26, bw 0x26 0 1 2 0 0 0x1000)] ++
  ([0x28, 0x29, 0x2A, 0x2B, 0x2C, 0x2D, 0x2E, 0x56].map (fun op => (op, bw op 0 1 2 0 0 0x1000))) ++
  [(0x40, bw 0x40 0 1 2 0 0 0x200), (0x41, bw 0x41 0 1 2 0 0 0), (0x42, bw 0x42 0 1 2 0 0 0), (0x43, bw 0x43 0 1 2 3 0 0x1400),
    (0x44, bw 0x44 0 1 2 0 0 0x280), (0x45, bw 0x45 0 1 2 0 0 0), (0x52, bw 0x52 0 1 2 3 0 0), (0x53, bw 0x53 0 1 2 3 0 0x1000),
    (0x54, bw 0x54 0 1 2 3 321 0), (0x57, bw 0x57 0 1 0 3 0 0), (0x67, bw 0x67 0 257 2 0 0 0), (0x58, bw 0x58 0 1 0 0 0 0),
    (0x62, bw 0x62 0 257 0 0 321 0)] ++
  ([0x63, 0x64, 0x65, 0x66].map (fun op => (op, bw op 0 1 2 3 0 0))) ++
  [(0x50, bw 0x50 0 321 2 3 0 0), (0x51, bw 0x51 0 321 2 3 0 0x1000), (0x55, bw 0x55 0 322 321 320 0 0x1000),
    (0x60, bw 0x60 0 322 0 0 321 0), (0x61, bw 0x61 0 320 0 0 321 0), (0x59, bw 0x59 0 0 2 3 0 0)]

theorem test_has_InstructionsThatWriteD :
    ∀ x ∈ dWords, issuesB (running [x.2] regs0) 0 0 x.1 (ctx [x.2] regs0) = true := by decide +kernel

/-- A quire with a pending path below a mask. -/
def stacked : Quire := { regs0 with active := 0xFF, stack := [⟨false, 0xFF, 9⟩, ⟨true, 0xFF00, 1⟩] }

/-- A word with a target three words on. -/
def far (op d : Nat) (pred : Nat := 0) : List Dword := [bw op 3 d 0 0 0 0 pred, 3, bw 0x70 0 0 0 0 0 0, bw 0x70 0 0 0 0 0 0]

theorem test_has_ControlFlowMovesTheQuire :
    issuesB (running [bw 0x70 0 0 0 0 0 0] regs0) 0 0 0x70 (ctx [bw 0x70 0 0 0 0 0 0] regs0) = true ∧
    (issuesB (running (far 0x71 0) regs0) 0 0 0x71 (ctx (far 0x71 0) regs0) = true ∧
      (ctx (far 0x71 0) regs0).mask = regs0.active) ∧
    (issuesB (running (far 0x71 0 1) regs0) 0 0 0x71 (ctx (far 0x71 0 1) regs0) = true ∧
      (ctx (far 0x71 0 1) regs0).mask ≠ regs0.active ∧ regs0.stack.length < 32) ∧
    (∀ op ∈ [0x72, 0x74], let code := [bw op 0 0 257 0 0 0, bw 0x70 0 0 0 0 0 0, bw 0x70 0 0 0 0 0 0]
      issuesB (running code regs0) 0 0 op (ctx code regs0) = true ∧ isStart code false (regs0.sreg (257 - 256)) = true) ∧
    issuesB (running (far 0x73 258) regs0) 0 0 0x73 (ctx (far 0x73 258) regs0) = true ∧
    issuesB (running (far 0x75 0) regs0) 0 0 0x75 (ctx (far 0x75 0) regs0) = true ∧
    (∀ op ∈ [0x76, 0x79], issuesB (running [bw op 0 0 0 0 0 0] stacked) 0 0 op (ctx [bw op 0 0 0 0 0 0] stacked) = true) ∧
    (stacked.stack = [⟨false, 0xFF, 9⟩] ++ ⟨true, 0xFF00, 1⟩ :: [] ∧ ∀ e ∈ [(⟨false, 0xFF, 9⟩ : StackEntry)], e.pending = false) ∧
    (issuesB (running [bw 0x79 0 0 0 0 0 0] regs0) 0 0 0x79 (ctx [bw 0x79 0 0 0 0 0 0] regs0) = true ∧ regs0.stack = []) ∧
    issuesB (running [bw 0x7B 0 0 0 0 0 0] regs0) 0 0 0x7B (ctx [bw 0x7B 0 0 0 0 0 0] regs0) = true := by decide +kernel

/-- How every instruction begins: no clock, no quire, another opcode, no lane, an illegal form, a register out of range. -/
theorem test_has_EveryInstructionBeginsAlike :
    bpcOp (.iadd 0 0) = some (0, 0, 0x01) ∧ (frozenChip.live = false) ∧ chip.ready 0 0 = none ∧
    (decodeInst [bw 0x02 0 1 2 3 0 0] 0).map (·.op) = some 0x02 ∧
    ([(bw 0x01 0 1 2 3 0 0 1, true, true, true), (bw 0x01 0 1 2 3 0 0x1C00, false, false, true),
        (bw 0x01 0 40 2 3 0 0, false, true, false)].all (fun x =>
      let q := { regs0 with pr := [(1, 0)] }
      let s := running [x.1] q
      s.live && s.ready 0 0 = some (q, { launch := 9, index := 0 }, { kernel [x.1] with next := 1 }) &&
        (s.vat 0).preempt = [] && decide (execLanes q (ctx [x.1] q).i = 0) = x.2.1 && legal (ctx [x.1] q).i = x.2.2.1 &&
        decide (rangeFault (ctx [x.1] q).i 32 = none) = x.2.2.2)) = true := by decide +kernel

/-! ### BPC: lanes, barriers, traps -/

/-- A launch that takes traps at word 2. -/
def trapping (code : List Dword) : Launch :=
  let l := kernel (code ++ List.replicate 3 (bw 0x70 0 0 0 0 0 0))
  { l with trap := true, mod := { l.mod with handler := some 2 } }

/-- A quire in its handler, after a fault of its own. -/
def trapped (status : Nat) : Quire :=
  { regs0 with trap := some ⟨List.replicate 6 7, 0xFFFFFFFF, 0, status, blockScope status, 0⟩ }

/-- Its block. -/
def held : Block := { launch := 9, index := 0, handler := some 0 }

/-- What `Quiet` and `Alone` say, as tests. -/
def quietB (s : State) (b : Nat) : Bool :=
  (match s.block 0 b with
    | some x => x.arrived = []
    | none => true) && ((s.vat 0).quiresOf b).all (fun e => e.2.live && e.2.parked = [])

/-- The only quire of its block. -/
def aloneB (s : State) (c : BCtx) : Bool :=
  (s.vat c.vat).quiresOf c.q.block = [(c.slot, c.q)] && c.q.parked = [] && c.q.stack = [] && c.q.trap = none &&
    c.blk.arrived = [] && c.blk.bred = [] && c.q.active &&& c.q.exited = 0 && decide (c.q.idx < 32)

theorem quiet_of (s : State) (b : Nat) (h : quietB s b = true) : Quiet s 0 b := by
  simp only [quietB, Bool.and_eq_true, List.all_eq_true, decide_eq_true_eq] at h
  refine ⟨fun blk hb => ?_, fun e he => h.2 e he⟩
  have := h.1
  rw [hb] at this
  simpa using this

theorem alone_of (s : State) (c : BCtx) (h : aloneB s c = true) : Alone s c := by
  simp only [aloneB, Bool.and_eq_true, decide_eq_true_eq] at h
  obtain ⟨⟨⟨⟨⟨⟨⟨h1, h2⟩, h3⟩, h4⟩, h5⟩, h6⟩, h7⟩, h8⟩ := h
  exact ⟨h1, h2, h3, h4, h5, h6, h7, h8⟩

/-- Without sync objects no lane owns a lock. -/
theorem no_locks (s : State) (vat slot : Nat) (h : s.regs.all (fun e => e.1 / 65536 / 65536 != Field.SYN_OBJ_TYPE.ctorIdx) = true) :
    s.ownedLocks vat slot = [] := by
  unfold State.ownedLocks
  rw [List.filter_eq_nil_iff]
  intro k hk
  have hk := List.mem_range.mp hk
  have : s.rd .SYN_OBJ_TYPE k = 0 := rd_reset s .SYN_OBJ_TYPE k 0 (by omega) (by omega) h
  simp [State.objType, this]

/-- The quire of the tests with a reconvergence entry. -/
def forked : Quire := { regs0 with active := 0xFF, stack := [⟨false, 0xFFFF, 9⟩] }

theorem test_has_LanesJoinExitAndMeet :
    (let code := [bw 0x77 0 0 0 0 0 0]
     issuesB (running code forked) 0 0 0x77 (ctx code forked) = true ∧ quietB (running code forked) 0 = true ∧
       unwindFrom forked.exited 1 forked.stack ≠ none) ∧
    (∀ op ∈ [0x78, 0x7A], let code := [bw op 0 0 0 0 0 0 1]
      issuesB (running code regs0) 0 0 op (ctx code regs0) = true ∧ quietB (running code regs0) 0 = true ∧
        regs0.trap = none ∧ regs0.active &&& ~~~(ctx code regs0).mask ≠ 0) ∧
    (let code := [bw 0x78 0 0 0 0 0 0]
     issuesB (running code regs0) 0 0 0x78 (ctx code regs0) = true ∧ aloneB (running code regs0) (ctx code regs0) = true ∧
       (ctx code regs0).mask = regs0.active ∧ ((running code regs0).vat 0).ops = [] ∧
       (running code regs0).regs.all (fun e => e.1 / 65536 / 65536 != Field.SYN_OBJ_TYPE.ctorIdx) = true ∧
       (ctx code regs0).l.retired + 1 < (ctx code regs0).l.total) ∧
    (let code := [bw 0x80 0 0 367 0 0 0 1]
     aloneB (running code regs0) (ctx code regs0) = true ∧ issuesB (running code regs0) 0 0 0x80 (ctx code regs0) = true ∧
       regs0.active &&& ~~~(ctx code regs0).mask ≠ 0) ∧
    (∀ x ∈ [(0x80, bw 0x80 0 0 352 0 0 0), (0x82, bw 0x82 0 1 367 0 321 0x10)],
      aloneB (running [x.2] regs0) (ctx [x.2] regs0) = true ∧ issuesB (running [x.2] regs0) 0 0 x.1 (ctx [x.2] regs0) = true ∧
        (ctx [x.2] regs0).mask = regs0.active ∧ regs0.active = ~~~regs0.exited ∧
        (x.1 = 0x82 → okind (ctx [x.2] regs0).i.d = .v)) ∧
    (let code := [bw 0x81 0 0 352 0 0 0]
     let q := { regs0 with active := 0xFF }
     aloneB (running code q) (ctx code q) = true ∧ issuesB (running code q) 0 0 0x81 (ctx code q) = true ∧
       q.active ≠ ~~~q.exited) := by decide +kernel

/-- A block whose quire waits at barrier 5 with all its lanes. -/
def parkedQuire : Quire := { regs0 with active := 0, wait := .idle, parked := [⟨5, 0xFFFFFFFF, 1⟩] }

theorem test_has_FaultsAndHandlers :
    (let l := trapping [bw 0xD0 0 0 0 0 0 0x1FFF]
     let c := ctxAs l { launch := 9, index := 0 } regs0
     c.l.mod.handler = some 2 ∧ c.l.trap = true ∧ c.q.trap = none ∧
       issuesB (runningAs l { launch := 9, index := 0 } regs0) 0 0 0xD0 c = true) ∧
    (let l := trapping [bw 0xFF 0 0 0 0 0 0]
     let c := ctxAs l { launch := 9, index := 0 } regs0
     let s := runningAs l { launch := 9, index := 0 } regs0
     s.live = true ∧ s.ready 0 0 = some (c.q, c.blk, c.l) ∧ decodeInst c.l.mod.code c.q.pc = some c.i ∧
       execLanes c.q c.i ≠ 0 ∧ legal c.i = false ∧ (s.vat 0).preempt = []) ∧
    (let l := trapping []
     let q := { regs0 with pc := 3 }
     let s := runningAs l { launch := 9, index := 0 } q
     s.live = true ∧ s.ready 0 0 = some (q, { launch := 9, index := 0 }, { l with next := 1 }) ∧ l.mod.code.length ≤ q.pc) ∧
    (let l := trapping [bw 0xD1 0 0 257 0 0 0]
     let c := ctxAs l held (trapped 0x12010000)
     issuesB (runningAs l held (trapped 0x12010000)) 0 0 0xD1 c = true ∧ c.q.trap.isSome = true ∧
       isStart l.mod.code false (c.q.sreg (c.i.a - 256)) = true ∧ c.q.trap.map (·.status) = some 0x12010000) ∧
    (let l := trapping [bw 0xD2 0 0 0 0 0 0]
     let c := ctxAs l held (trapped 0x12010000)
     let s := runningAs l held (trapped 0x12010000)
     issuesB s 0 0 0xD2 c = true ∧ c.q.trap.isSome = true ∧ c.l.retired + 1 < c.l.total ∧ (s.vat 0).quires.map (·.1) = [0] ∧
       s.regs.all (fun e => e.1 / 65536 / 65536 != Field.SYN_OBJ_TYPE.ctorIdx) = true) ∧
    (let l := trapping [bw 0xD3 0 0 0 0 0 0]
     let c := ctxAs l held (trapped 0x12010000)
     let s := runningAs l held (trapped 0x12010000)
     issuesB s 0 0 0xD3 c = true ∧ c.q.trap.isSome = true ∧ blockScope 0x12010000 = false ∧ c.l.p = 0 ∧ s.homed 0 = true ∧
       (s.part 0).map (·.home) = some s.pos ∧ s.rd .VAT_FAULT_WHO_VALID 0 = 0 ∧ s.rd .SCH_FAULT_CTRL_FAULTED 0 = 0 ∧
       s.rd .HB_RECLAIM_RUNNING 0 = 0) ∧
    (let code := [bw 0xD0 0 0 0 0 0 1]
     let s := running code regs0
     issuesB s 0 0 0xD0 (ctx code regs0) = true ∧ (ctx code regs0).l.mod.handler = none ∧ s.homed 0 = true ∧
       s.rd .VAT_FAULT_WHO_VALID 0 = 0 ∧ s.rd .SCH_FAULT_CTRL_FAULTED 0 = 0 ∧ s.rd .HB_RECLAIM_RUNNING 0 = 0) ∧
    (let l := trapping []
     let s := runningAs l { launch := 9, index := 0 } parkedQuire
     s.live = true ∧ s.block 0 0 = some { launch := 9, index := 0 } ∧ s.launch 9 = some { l with next := 1 } ∧
       ((s.vat 0).parkedIds 0).head? = some 5 ∧ (s.vat 0).firstLive 0 = some (0, parkedQuire) ∧
       s.quire 0 0 = some parkedQuire ∧ parkedQuire.trap = none) := by decide +kernel


/-! ### BPC: memory, atomics, sync objects, the heap, tensors -/

/-- A launch with local store, tile memory, beater buffer and a constant bank. -/
def memk (code : List Dword) : Launch :=
  { kernel code with lbytes := 4096, mbytes := 4096, bbytes := 65536, const := 0x6000, csize := 64 }

/-- A quire whose lane k has the address 0x6000 + 16 k in v0 and v1, 16 k in v2, k in v4, and in v5 0; p3 is lane 4 alone. -/
def memq : Quire :=
  { quire0 with
    v := (List.range 192).map (fun k => (k, BitVec.ofNat 32 (
      if k < 32 then 0x6000 + 16 * k else if k < 64 then 0 else if k < 96 then 16 * (k - 64) else if k < 128 then 0
      else if k < 160 then k - 128 else 0)))
    s := [(2, 0x5000), (3, 0), (4, 0)]
    pr := [(3, 0x10)] }

/-- The block of the memory tests. -/
def memb : Block := { launch := 9, index := 0 }

/-- The state and the context of one instruction of the memory tests. -/
def memS (w : Dword) : State := runningAs (memk [w]) memb memq
/-- The context. -/
def memC (w : Dword) : BCtx := ctxAs (memk [w]) memb memq

/-- The MOD of a memory instruction: space and size; and of an atomic. -/
def mm (space size : Nat) : Nat := space * 2048 + size * 128
/-- The MOD of an atomic. -/
def ma (space size : Nat) : Nat := space * 2048 + size * 256

theorem test_has_LoadsAndStores :
    (∀ x ∈ [(1, 2), (2, 0), (1, 4)], let w := bw 0x90 0 8 2 0 0 (mm x.1 x.2)
      issuesB (memS w) 0 0 0x90 (memC w) = true ∧ (memC w).i.space = x.1 ∧ (memC w).memFault (2 ^ (memC w).i.size3) = none) ∧
    (∀ x ∈ [(0, 2, 0), (3, 2, 2)], let w := bw 0x90 0 8 x.2.2 0 0 (mm x.1 x.2.1) 3
      let c := memC w
      let r := c.readLanes (Counted (memS w) c) (if c.i.space = 3 then 2 else c.i.cache)
        (if c.i.space = 3 then c.constAccs (2 ^ c.i.size3) else c.accs (2 ^ c.i.size3))
      issuesB (memS w) 0 0 0x90 c = true ∧ c.i.space = x.1 ∧ c.memFault (2 ^ c.i.size3) = none ∧ c.i.memOrder = 0 ∧
        r.2.isOk = true ∧ (r.1.vat 0).preempt = []) ∧
    (∀ sp ∈ [1, 2], let w := bw 0x91 0 0 2 4 0 (mm sp 3) 3
      issuesB (memS w) 0 0 0x91 (memC w) = true ∧ (memC w).i.space = sp ∧ (memC w).memFault (2 ^ (memC w).i.size3) = none ∧
        (memC w).doers = [4]) ∧
    (let w := bw 0x91 0 0 0 4 0 (mm 0 2) 3
     let c := memC w
     let r := c.globally (Counted (memS w) c) rightW (c.accs (2 ^ c.i.size3))
       (fun s x a => c.storeOne s x a.va (toLe (2 ^ c.i.size3) (c.opB a.lane)))
     issuesB (memS w) 0 0 0x91 c = true ∧ c.i.space = 0 ∧ c.memFault (2 ^ c.i.size3) = none ∧ r.2.isOk = true ∧
       (r.1.vat 0).preempt = []) := by decide +kernel

/-- The block's beater works for its quire. -/
def beaterBusy (w : Dword) : State :=
  let s := memS w
  s.setVat 0 { s.vat 0 with ops := [.tst 0 0 [] 0 0 false] }

theorem test_has_OrderingAndPrefetch :
    (let w := bw 0x92 0 0 0 0 0 1
     issuesB (beaterBusy w) 0 0 0x92 (memC w) = true ∧ ((beaterBusy w).vat 0).inBeater 0 = true) ∧
    (∀ m ∈ [0, 1, 3], let w := bw 0x92 0 0 0 0 0 m
      issuesB (memS w) 0 0 0x92 (memC w) = true ∧ ((memS w).vat 0).inBeater 0 = false ∧ bits (memC w).i.mod 1 0 = m ∧
        (memS w).storesOut 0 0 = false) ∧
    issuesB (memS (bw 0x94 0 0 0 0 0 0)) 0 0 0x94 (memC (bw 0x94 0 0 0 0 0 0)) = true ∧
    issuesB (memS (bw 0x93 0 0 0 0 0 0)) 0 0 0x93 (memC (bw 0x93 0 0 0 0 0 0)) = true := by decide +kernel

theorem test_has_AtomicsReturnTheOldValue :
    (∀ op ∈ [0xA0, 0xA1, 0xA2, 0xA3, 0xA4, 0xA5, 0xA6, 0xA7, 0xA8, 0xA9, 0xAA],
      let w := bw op 0 8 2 4 (if op = 0xA7 then 4 else 0) (ma 1 2) 3
      issuesB (memS w) 0 0 op (memC w) = true ∧ (memC w).doers = [4] ∧ (memC w).i.space = 1 ∧ (memC w).memFault 4 = none) ∧
    (∀ x ∈ [(0xA0, 2), (0xA7, 3), (0xAA, 2)],
      let w := bw x.1 0 8 0 4 (if x.1 = 0xA7 then 4 else 0) (ma 0 x.2) 3
      let n := if x.2 = 3 then 8 else 4
      let c := memC w
      let s := memS w
      let s1 := (Counted s c).footprints (vatAsker 0 c.l.p) c.owner c.l.p (laneRanges (c.accs n) (rightR + rightW))
      let r2 := runLanes (fun s a => match s.translate (vatAsker 0 c.l.p) c.owner c.l.p a.va (rightR + rightW) with
        | (s2, .error e) => (s2, .error e)
        | (s2, .ok x) => c.atomAsk s2 x a) s1.1 (c.accs n)
      let r3 := c.globally r2.1 (rightR + rightW) (c.accs n) (fun s x a => c.atomOne s x a)
      issuesB s 0 0 x.1 c = true ∧ c.i.space = 0 ∧ c.i.atmOrder = 0 ∧ c.memFault n = none ∧ s1.2.isOk = true ∧
        r2.2.1.isOk = true ∧ r3.2.isOk = true ∧ (r3.1.vat 0).preempt = []) ∧
    bpcOp (.atomCas 0 0) = some (0, 0, 0xA7) := by decide +kernel

/-- The memory tests' state with fence 5, counter 6, lock 7 (held by an identity or free) and barrier 8 of two threads. -/
def syncS (w : Dword) (owner : Nat := 0) (arrived : Nat := 0) : State :=
  (((((((((memS w).wr .SYN_OBJ_TYPE 1 5).wr .SYN_OBJ_VALUE 9 5).wr .SYN_OBJ_TYPE 4 6).wr .SYN_OBJ_VALUE 3 6).wr
    .SYN_OBJ_TYPE 2 7).wr .SYN_OBJ_AUX owner 7).wr .SYN_OBJ_TYPE 3 8).wr .SYN_OBJ_AUX 2 8).wr .SYN_OBJ_VALUE arrived 8

/-- What `SyncLane` says, as a test. -/
def syncLaneB (s : State) (op : Nat) (c : BCtx) (k h : Nat) : Bool :=
  issuesB s 0 0 op c && c.doers = [k] && c.opA k = h && decide (h < 16384) && s.synMay c.l.p op h && s.homeOf c.l.p = s.pos &&
    s.storesOut 0 0 = false && s.sync.waits = [] && s.sync.lockq = [] && s.rd .CAL_PLANE_CTRL_ARM 0 0 = 0 &&
    s.rd .CAL_PLANE_CTRL_ARM 1 0 = 0

theorem syncLane_of (s : State) (op : Nat) (c : BCtx) (k h : Nat) (hb : syncLaneB s op c k h = true) : SyncLane s 0 0 op c k h := by
  simp only [syncLaneB, Bool.and_eq_true, decide_eq_true_eq] at hb
  obtain ⟨⟨⟨⟨⟨⟨⟨⟨⟨⟨h1, h2⟩, h3⟩, h4⟩, h5⟩, h6⟩, h7⟩, h8⟩, h9⟩, h10⟩, h11⟩ := hb
  exact ⟨issues_of _ _ _ _ _ h1, h2, h3, h4, h5, h6, h7, ⟨h8, h9⟩, ⟨h10, h11⟩⟩

theorem test_has_SyncInstructionsAct :
    (∀ x ∈ [(0xB0, bw 0xB0 0 0 357 4 0 0 3, 5), (0xB1, bw 0xB1 0 8 358 4 0 0 3, 6), (0xB3, bw 0xB3 0 8 357 0 0 0 3, 5),
        (0xB4, bw 0xB4 0 8 359 0 0 0 3, 7)],
      syncLaneB (syncS x.2.1) x.1 (memC x.2.1) 4 x.2.2 = true) ∧
    (∀ y ∈ [(5, 4), (6, 0)], let w := bw 0xB2 0 8 (352 + y.1) y.2 0 0 3
      syncLaneB (syncS w) 0xB2 (memC w) 4 y.1 = true ∧ (syncS w).rd .SYN_OBJ_STATE y.1 = 0 ∧
        decide ((memC w).opB 4 ≤ (syncS w).rd .SYN_OBJ_VALUE y.1) = (y.1 = 5)) ∧
    (syncS (bw 0xB3 0 8 357 0 0 0 3)).rd .SYN_OBJ_TYPE 5 ≠ 2 ∧ (syncS (bw 0xB4 0 8 359 0 0 0 3)).lockOwner 7 = none ∧
    (let w := bw 0xB5 0 0 359 0 0 0 3
     let s := syncS w (2 ^ 63 + 4)
     syncLaneB s 0xB5 (memC w) 4 7 = true ∧ s.lockOwner 7 = some (s.pos * 2 ^ 17 + 0 * 2 ^ 11 + 0 * 2 ^ 5 + 4)) ∧
    (∀ n ∈ [0, 1], let w := bw 0xB6 0 8 360 0 0 0 3
      let s := syncS w 0 n
      syncLaneB s 0xB6 (memC w) 4 8 = true ∧ s.rd .SYN_OBJ_VALUE 8 < 2 ^ 64 ∧ s.rd .SYN_OBJ_AUX 8 < 2 ^ 32 ∧
        decide (s.rd .SYN_OBJ_VALUE 8 % 2 ^ 32 + 1 < s.rd .SYN_OBJ_AUX 8) = (n = 0) ∧
        decide (s.rd .SYN_OBJ_VALUE 8 % 2 ^ 32 + 1 = s.rd .SYN_OBJ_AUX 8) = (n = 1)) ∧
    (let w := bw 0xB7 0 0 0 4 0 0 3
     issuesB (memS w) 0 0 0xB7 (memC w) = true ∧ (memS w).storesOut 0 0 = false ∧ (memC w).l.p < 32 ∧ (memS w).homed 0 = true ∧
       (memS w).rd .EVQ_CTRL_EN ((memS w).driverTarget 0) = 0) := by decide +kernel

/-- The memory tests' state with a heap of one slab of 1 MiB blocks at 0x40000000, and a size or an address in v6 and v7. -/
def heapS (w : Dword) (live : List (Nat × Nat)) (x : Nat) : State :=
  let q := { memq with v := memq.v ++ (List.range 64).map (fun k => (192 + k, if k < 32 then BitVec.ofNat 32 x else 0)) }
  { (runningAs (memk [w]) memb q).wrAddr .HB_HEAP_BASE_ADDR 0x40000000 0 with heaps := [(0, ⟨[(0, 14)], live⟩)] }

/-- Its context. -/
def heapC (w : Dword) (x : Nat) : BCtx :=
  ctxAs (memk [w]) memb
    { memq with v := memq.v ++ (List.range 64).map (fun k => (192 + k, if k < 32 then BitVec.ofNat 32 x else 0)) }

theorem test_has_HeapBlocks :
    (let w := bw 0xC8 0 8 6 0 0 0 3
     let s := heapS w [] 0x100000
     let c := heapC w 0x100000
     issuesB s 0 0 0xC8 c = true ∧ c.doers = [4] ∧ heapClass (c.opA 4) = some 14 ∧
       (s.heap c.l.p).freeBlocks (s.addrOf .HB_HEAP_BASE_ADDR c.l.p) 14 = [0x40000000]) ∧
    (∀ x ∈ [0, 0x100001], let w := bw 0xC8 0 8 6 0 0 0 3
     issuesB (heapS w [] x) 0 0 0xC8 (heapC w x) = true ∧ (heapC w x).doers = [4] ∧ heapClass ((heapC w x).opA 4) = none) ∧
    (let w := bw 0xC9 0 0 6 0 0 0 3
     let s := heapS w [(0x40000000, 14)] 0x40000000
     let c := heapC w 0x40000000
     issuesB s 0 0 0xC9 c = true ∧ c.lanes = [4] ∧ c.opA 4 ≠ 0 ∧ storeFind (s.heap c.l.p).live (c.opA 4) = some 14) ∧
    (let w := bw 0xC9 0 0 6 0 0 0 3
     issuesB (heapS w [] 0) 0 0 0xC9 (heapC w 0) = true ∧ (heapC w 0).lanes = [4] ∧ (heapC w 0).opA 4 = 0) := by decide +kernel

/-- A tensor descriptor at 0x5000: one row of two columns at 0x6000, of a memory format, an operand format, a role and flags. -/
def tdesc (mf off role flags : Nat) : List Byte :=
  slice (slice (toLe 8 0x6000 ++ toLe 4 1 ++ toLe 4 2 ++ toLe 8 64 ++ toLe 1 mf ++ toLe 1 off ++ toLe 1 role ++ toLe 1 flags ++
    toLe 4 64 ++ toLe 4 0) 0 88 ++ toLe 8 3) 0 128

/-- A quire with an A tile in t0, a B tile in t1 and set 0 in t2, the descriptor's address in s2 and s3. -/
def tenq : Quire := { memq with t := [(0, .tile 0 5 64 0), (1, .tile 1 5 64 4096), (2, .acc 0)] }

/-- Its state, with the descriptor in memory. -/
def tenS (w : Dword) (d : List Byte) (q : Quire := tenq) : State :=
  let s := runningAs (memk [w]) memb q
  let s := { s with mem := { s.mem with l2 := s.mem.l2 ++ sectors 0x280 4 d } }
  s.setVat 0 { s.vat 0 with sets := [(0, { owner := some (0, 2) })] }

/-- Its context. -/
def tenC (w : Dword) (q : Quire := tenq) : BCtx := ctxAs (memk [w]) memb q

theorem test_has_TensorInstructionsEnterTheBeater :
    (let w := bw 0xC0 0 331 258 0 0 0
     let d := tdesc 5 5 0 0
     let c := tenC w
     let r := c.descriptor (Counted (tenS w d) c) (c.q.spair (c.i.a - 256))
     c.tensorMode = false ∧ (r.1.vat 0).preempt = [] ∧ issuesB (tenS w d) 0 0 0xC0 c = true ∧
       c.q.spair (c.i.a - 256) % 128 = 0 ∧ r.2.toOption = some d ∧
       tldRefusal d c.origin.2 c.l.bbytes (c.q.handle (c.i.d - 328)) = none ∧ dMisaligned d = false) ∧
    (let w := bw 0xC1 0 330 328 329 0 4
     let c := tenC w
     issuesB (tenS w []) 0 0 0xC1 c = true ∧ c.i.acq = 0 ∧ (c.q.handle (c.i.a - 328)).asTile = some ⟨0, 5, 64, 0⟩ ∧
       (c.q.handle (c.i.b - 328)).asTile = some ⟨1, 5, 64, 4096⟩ ∧ c.q.handle (c.i.d - 328) = .acc 0 ∧ bitAt c.i.mod 2 = true) ∧
    (let w := bw 0xC1 0 330 328 329 0 12
     let q := { memq with t := [(0, .tile 0 5 64 0), (1, .tile 1 5 64 4096)] }
     let c := tenC w q
     let s := tenS w [] q
     let s := s.setVat 0 { s.vat 0 with acqq := [⟨1, 2, 1⟩] }
     issuesB s 0 0 0xC1 c = true ∧ c.i.acq = 1 ∧ (c.q.handle (c.i.a - 328)).asTile = some ⟨0, 5, 64, 0⟩ ∧
       (c.q.handle (c.i.b - 328)).asTile = some ⟨1, 5, 64, 4096⟩ ∧ c.q.t.any (fun e => e.2.isAcc) = false ∧
       (s.vat 0).acqq ≠ []) ∧
    (let w := bw 0xC2 0 0 330 258 0 0
     let d := tdesc 1 0 2 0
     let c := tenC w
     let r := c.descriptor (Counted (tenS w d) c) (c.q.spair (c.i.b - 256))
     issuesB (tenS w d) 0 0 0xC2 c = true ∧ c.q.handle (c.i.a - 328) = .acc 0 ∧ c.q.spair (c.i.b - 256) % 128 = 0 ∧
       r.2.toOption = some d ∧ (r.1.vat 0).preempt = [] ∧ tstRefusal d c.origin.2 (((r.1.vat 0).kindAt 0).getD false) = none ∧
       dMisaligned d = false ∧ dFlag d 1 = false ∧ bitAt c.i.mod 0 = false) ∧
    (let w := bw 0xC3 0 331 328 260 0 (8 * 512)
     let q := { tenq with s := [(4, 0x2000)] }
     let c := tenC w q
     let s := tenS w [] q
     let s := s.setVat 0 { s.vat 0 with ops := [.tst 0 0 [] 0 0 false] }
     issuesB s 0 0 0xC3 c = true ∧ (c.q.handle (c.i.a - 328)).asTile = some ⟨0, 5, 64, 0⟩ ∧
       fmtOperand (bits c.i.mod 12 9) = true ∧ loadOk 5 (bits c.i.mod 12 9) = true ∧ c.q.sreg (c.i.b - 256) % 256 = 0 ∧
       c.q.sreg (c.i.b - 256) + tileBytes (bits c.i.mod 12 9) 64 ≤ c.l.bbytes ∧ 0 + tileBytes 5 64 ≤ c.q.sreg (c.i.b - 256) ∧
       (c.q.handle (c.i.d - 328)).isAcc = false) ∧
    (let w := bw 0xC1 0 330 328 329 0 12
     let s := runningAs (memk [w]) memb { tenq with wait := .acq 1 }
     let s := s.setVat 0 { s.vat 0 with acqq := [⟨0, 2, 1⟩] }
     s.live = true ∧ (s.vat 0).acqq = [⟨0, 2, 1⟩] ∧ (s.vat 0).freeSets = [0, 1] ∧ (s.quire 0 0).isSome = true ∧
       s.block 0 0 = some memb ∧ (s.launch memb.launch).isSome = true ∧ (decodeInst [w] 0).isSome = true) := by decide +kernel

/-- The beater of vat 0 with one instruction. -/
def beating (o : BeatOp) (int : Bool) : State :=
  let s := tenS (bw 0x70 0 0 0 0 0 0) []
  s.setVat 0 { s.vat 0 with ops := [o], sets := [(0, { owner := some (0, 2), int := int, els := [7, 8] })] }

theorem test_has_BeaterPerformsTheOldest :
    (let s := beating (.tmma 0 0 (.tile 0 5 128 0) (.tile 1 5 128 8192) true 0) false
     s.live = true ∧ s.quire 0 0 = some tenq ∧ s.block 0 0 = some memb ∧ (s.launch 9).map (·.p) = some 0 ∧
       (Handle.tile 0 5 128 0).asTile = some ⟨0, 5, 128, 0⟩ ∧ (Handle.tile 1 5 128 8192).asTile = some ⟨1, 5, 128, 8192⟩ ∧
       64 * (0 + 1) < 128) ∧
    (let d := tdesc 5 5 0 0
     let s := beating (.tld 0 d 0 0) false
     let spans := (List.range (tldShape d 0 0).2.2.1).map (fun r => rowSpan d (0 + r) 0 (tldShape d 0 0).2.2.2)
     let r1 := s.footprints (beaterAsker 0 0) (.beater 0) 0 (sortRanges (spans.map (fun x => (x.1, x.2, rightR))))
     let r2 := r1.1.vReadList (beaterAsker 0 0) (.beater 0) 0 spans
     0 < (tldShape d 0 0).2.2.2 ∧ r1.2.isOk = true ∧ r2.2.isOk = true ∧ quietB r2.1 0 = true ∧ (r2.1.vat 0).preempt = [] ∧
       (r2.1.vat 0).ops = [.tld 0 d 0 0] ∧ r2.1.quire 0 0 = some tenq ∧ r2.1.block 0 0 = some memb) ∧
    (let d := tdesc 1 0 2 0
     let s := beating (.tst 0 0 d 0 0 true) true
     let r1 := s.footprints (beaterAsker 0 0) (.beater 0) 0 (sortRanges ((tstSpans d 0 0).map (fun x => (x.1, x.2, rightW))))
     let r3 := r1.1.vWriteList (beaterAsker 0 0) (.beater 0) 0 (tstWrites d 0 0 ((s.vat 0).set 0).int
       ((List.range 4096).map (fun i => ((s.vat 0).set 0).els.getD i 0)) (scalesOf (tstShape d 0 0).2 []) [])
     dFlag d 1 = false ∧ dFlag d 3 = false ∧ dFlag d 4 = false ∧ dF d 24 1 ≠ 0 ∧ r1.2.isOk = true ∧ r3.2.isOk = true ∧
       quietB r3.1 0 = true ∧ (r3.1.vat 0).preempt = [] ∧ (r3.1.vat 0).ops = [.tst 0 0 d 0 0 true] ∧
       r3.1.quire 0 0 = some tenq ∧ r3.1.block 0 0 = some memb) := by decide +kernel

/-! ### Geometry and the calender -/

/-- A render-pass descriptor: 4 × 4 pixels, one sample, one colour attachment at 0x6000, spilling at 0x10000. -/
def pdesc : List Byte :=
  slice (toLe 2 4 ++ toLe 2 4 ++ [1, 1, 0, 0xFF] ++ toLe 8 0x6000 ++ toLe 4 16 ++ toLe 4 0 ++ [1, 1, 0, 0]) 0 152 ++ [0xFF] ++
    slice (List.replicate 87 0 ++ toLe 8 0x10000) 0 167

/-- The paged chip whose partition 0 has a pool of class 1 at 0x200000, with a command and passes; what it touches is in L2. -/
def geoChip (c : Cmd) (g : Geo) : State :=
  let s := withCmd (State.put ((paged.wrAddr .GEO_POOL_BASE_ADDR 0x200000 0).wr .PWR_DOM_STATE_STATE 0 domGeo) 0x3000
    (0x20F + 0x20020F * 2 ^ 64)) c
  { s with
    mem := { s.mem with l2 := s.mem.l2 ++ sectors 0x300 4 [] ++ sectors 0x400 10 pdesc ++ sectors 0x10000 1 [] ++ sectors 0x10080 1 [] }
    furn := { recs := [post 1 0 0 0, post 2 0 5 0, post 3 2 0 1, partition 0 0 1 1, partition 1 1 2] }
    geo := g }

/-- A pass of command 7's queue, opened by command 5. -/
def pass0 : Pass where
  cmd := 5
  p := 0
  q := 0
  desc := pdesc
  addr := 0x8000
  regions := [⟨0x200000, 0xA00000, 0x201000, 0xA00000⟩]

/-- The state after a read or a write that succeeds, else the state at reset. -/
def okState {α : Type} (r : State × Except Fail α) : State := match r with
  | (s, .ok _) => s
  | _ => State.reset

theorem test_has_PassesOpenDrawAndEnd :
    (let c := command 0x10 [0x310, 0x8000, 0]
     AtHead (geoChip c { passes := [pass0] }) 0 0 0x10 c ∧ ((geoChip c { passes := [pass0] }).openPassOf c.p c.q).isSome = true) ∧
    (let c := command 0x10 [0x310, 0x8000, 0]
     let s := geoChip c {}
     let s1 := okState (s.vRead (geoAsker c.p) (.cmd c.id) c.p (c.dword 1) 320)
     AtHead s 0 0 0x10 c ∧ s.openPassOf c.p c.q = none ∧ s.geo.passes.any (fun x => x.p = c.p && x.phase ≠ .rendering) = false ∧
       (s.part c.p).isSome = true ∧ (((s.part c.p).map (·.poolClass)).getD 0) ≠ 0 ∧ s.rd .GEO_POOL_BASE_ADDR c.p ≠ 0 ∧
       (s.vRead (geoAsker c.p) (.cmd c.id) c.p (c.dword 1) 320).2.toOption = some pdesc ∧
       passRefusal pdesc ((((s.part c.p).map (·.split)).getD []).getD 2 0 * 131072)
         ((s1.partVats c.p).any (fun v => v.1 = s1.passChip c.p pdesc)) = none ∧ s1.passChip c.p pdesc = s1.pos ∧
       (s1.geoWrites c.p (s1.newPass c pdesc (poolBytes 1) false).openWrites).2.isOk = true ∧
       (s1.geoWrites c.p (s1.newPass c pdesc (poolBytes 1) false).openWrites).1.cmd c.id = some c) ∧
    (let c := command 0x11 [0x311, 0x5080, 0]
     AtHead (geoChip c {}) 0 0 0x11 c ∧ (geoChip c {}).openPassOf c.p c.q = none) ∧
    (let c := command 0x12 [0x112]
     let s := geoChip c { passes := [pass0] }
     AtHead s 0 0 0x12 c ∧ s.geo.refusing.contains (queueKey c.p c.q) = false ∧ s.openPassOf c.p c.q = some pass0 ∧
       s.partRuns pass0.p = true ∧ s.passOf pass0.cmd = some pass0) := by
  unfold AtHead; decide +kernel

/-- A DRAW whose descriptors are in order. -/
theorem test_has_PassesOpenDrawAndEnd_draw :
    let c := command 0x11 [0x311, 0x5080, 0]
    let g : Geo := { passes := [pass0] }
    let s := imaged c g 100
    let s2 := imaged c g 101
    AtHead s 0 0 0x11 c ∧ s.geo.refusing.contains (queueKey c.p c.q) = false ∧ s.openPassOf c.p c.q = some pass0 ∧
      pass0.away = false ∧ pass0.draws = [] ∧ s.vRead (geoAsker c.p) (.cmd c.id) c.p (c.dword 1) 128 = (s, .ok draw0) ∧
      drawOk draw0 = true ∧ primCount (dsTopo draw0) (dsCount draw0) ≤ 2 ^ 20 ∧ dsFlaunch draw0 = 0 ∧
      s.drawLaunch c (dsVlaunch draw0) (.vertex c.p c.id) = (s2, .ok (launch0 100 (.vertex 0 7))) ∧
      s2.readIndices c draw0 = (s2, .ok [0, 1, 2]) ∧ s2.cmd c.id = some c ∧ s2.passOf pass0.cmd = some pass0 := by
  intro c g s s2
  have hc : c.p = 0 ∧ c.id = 7 ∧ c.dword 1 = 0x5080 ∧ dsVlaunch draw0 = 0x5000 := by decide +kernel
  have hd : (page5.drop (32 * 4)).take 128 = draw0 := by decide +kernel
  have h1 := imaged_page5 c g 100 {} ⟨.geo, 3, 0⟩ (Or.inr (Or.inr rfl)) (.cmd 7) 4 128 (by omega) (by omega)
  rw [hd] at h1
  refine ⟨?_, ?_, ?_, ?_, ?_, ?_, ?_, ?_, ?_, ?_, ?_, ?_, ?_⟩
  · unfold AtHead
    decide +kernel
  · decide +kernel
  · decide +kernel
  · decide +kernel
  · decide +kernel
  · rw [hc.1, hc.2.1, hc.2.2.1]
    exact h1
  · decide +kernel
  · decide +kernel
  · decide +kernel
  · have h := imaged_launch c g 101 100 {} (.cmd 7) (.vertex 0 7)
    have hs := imaged_next c g 100 101 {}
    rw [hc.1, hc.2.1, hc.2.2.2]
    have ht : s.takeId = (100, imaged c g 101) := by
      unfold State.takeId
      rw [← hs]
      rfl
    simp only [State.drawLaunch, ht, hc.1, hc.2.1, h]
    rfl
  · unfold State.readIndices
    rw [if_pos (by decide +kernel)]
    have : List.range (dsCount draw0) = [0, 1, 2] := by decide +kernel
    rw [this]
  · decide +kernel
  · decide +kernel

/-- A rendering pass of one tile, whose list has a primitive of its one draw. -/
def rendering (lists : List (Nat × TileList)) : Pass :=
  { pass0 with
    phase := .rendering
    ended := some 7
    draws := [⟨6, 0x5080, draw0, some [], none, none, 1⟩]
    todo := [0]
    lists := lists }

/-- The tile's list. -/
def list0 : TileList := ⟨[⟨0, 0, 2, 1, false, [], []⟩], 0x201000, 0x201000, 1⟩

/-- The tile in flight, drawn. -/
def tile0 : TileRun := { tile := 0, vat := some 0, px := startPx pdesc, todo := [], groups := [], job := none }

theorem test_has_TilesAreDispatchedAndCouched :
    (∀ l ∈ [[], [(0, list0)]],
      let x := rendering l
      let s := geoChip (command 0x12 [0x112]) { passes := [x] }
      let s1 := okState (s.geoWrites 0 x.endWrites)
      s.live = true ∧ x.p = 0 ∧ x.phase = .rendering ∧ s.partRuns 0 = true ∧ x.todo = [0] ∧
        ((storeFind x.lists 0).isNone = true ∨
          ((List.range 64).find? (fun n => s.tileFits n 0 (pdFoot x.desc))).isSome = true) ∧
        (s.geoWrites 0 x.endWrites).2.isOk = true ∧ (s1.loadTile x 0).2.isOk = true ∧ (s1.loadTile x 0).1.geo.passes = [x]) ∧
    (let c := { command 0x12 [0x112] with phase := .handed }
     let x := { rendering [] with todo := [], inflight := [tile0] }
     let s := geoChip c { passes := [x] }
     let r := s.geoWrites 0 (couchRows x.desc tile0.tile tile0.px ++ x.gateWrites)
     s.live = true ∧ tile0.drawn = true ∧ x.ended = some c.id ∧ r.2.isOk = true ∧ r.1.geo.passes = [x] ∧
       r.1.ring.reqs.any (fun r => r.owner = .geo 0) = false ∧ r.1.cmd c.id = some c) := by decide +kernel

theorem test_has_PoolsGrowOrBreak :
    (let s := geoChip (command 0x12 [0x112]) {}
     s.mayWrite 0 0 = true ∧ s.domState domGeo = 0 ∧ s.growing 0 = none) ∧
    (let x := { pass0 with phase := .growWait, held := some 128 }
     let s := geoChip (command 0x12 [0x112]) { passes := [x] }
     s.mayWrite 0 0 = true ∧ s.domState domGeo = 0 ∧ s.growing 0 = some x ∧ 1 ≤ (1 : BitVec 6).toNat ∧
       (32 : BitVec 6).toNat ≤ 32 ∧ s.passOf x.cmd = some x ∧ s.live = true ∧ s.partRuns 0 = true) ∧
    (let x := { pass0 with phase := .broke, held := some 128 }
     let s := geoChip (command 0x12 [0x112]) { passes := [x] }
     let r := s.geoWrites 0 [(x.poolBase, List.replicate (8 * pdTiles x.desc) 0)]
     s.live = true ∧ s.ring.reqs.any (fun r => r.owner = .geo 0) = false ∧ r.2.isOk = true ∧ r.1.geo.passes = [x]) := by
  decide +kernel

/-- GATED_LAUNCH of a gate that is not COMPLETE, of one without a selected tile, and of one with a tile. -/
theorem test_has_GatedLaunchRunsTheSelectedTiles (k : Nat) (hk : k = 8 ∨ k = 9 ∨ k = 10) :
    let c := command 0x02 [0x502, 0x5000, 0, 0x5000 + 32 * k, 0]
    let s := imaged c {} 100
    let s1 := imaged c {} 101
    let sel := selector (if k = 8 then 0x5200 else if k = 9 then 0x5300 else 0x5400)
    AtHead s 0 0 0x02 c ∧ c.p < 32 ∧ c.node = none ∧ s.passesBefore c = false ∧
      ({ s with nextId := s.nextId + 1 }).readLaunch c.p (.cmd c.id) (c.dword 1) s.nextId (.compute c.id) =
        (s1, .ok (launch0 100 (.compute 7))) ∧
      s1.vRead (headboxAsker c.p) (.cmd c.id) c.p (c.dword 3) 32 = (s1, .ok sel) ∧ selectorOk sel = true ∧
      s1.cmd c.id = some c ∧ leAt sel 9 1 = 0 ∧ s1.spanning (launch0 100 (.compute 7)).p = false ∧
      s1.scanGate c sel = (s1, .ok (if k = 8 then some [(0, 1)] else if k = 9 then none else some [])) := by
  intro c s s1 sel
  have hc : c.p = 0 ∧ c.id = 7 ∧ c.node = none := ⟨rfl, rfl, rfl⟩
  have hw : c.dword 1 = 0x5000 ∧ c.dword 3 = 0x5000 + 32 * k := by rcases hk with rfl | rfl | rfl <;> decide +kernel
  have ha : asks ⟨.unit, 2, 0⟩ := Or.inr (Or.inl rfl)
  have hs : ({ s with nextId := s.nextId + 1 } : State) = s1 := imaged_next c {} 100 101 {}
  have hn : s.nextId = 100 := rfl
  have hl := imaged_launch c {} 101 100 {} (.cmd 7) (.compute 7)
  refine ⟨?_, ?_, rfl, ?_, ?_, ?_, ?_, ?_, ?_, ?_, ?_⟩
  · unfold AtHead
    rcases hk with rfl | rfl | rfl <;> decide +kernel
  · rw [hc.1]
    omega
  · rcases hk with rfl | rfl | rfl <;> decide +kernel
  · rw [hw.1, hs, hn, hc.1, hc.2.1]
    exact hl
  · rw [hw.2, hc.1, hc.2.1]
    have h := imaged_page5 c {} 101 {} _ ha (.cmd 7) k 32 (by omega) (by omega)
    have hd : (page5.drop (32 * k)).take 32 = sel := by rcases hk with rfl | rfl | rfl <;> decide +kernel
    rw [hd] at h
    exact h
  · rcases hk with rfl | rfl | rfl <;> decide +kernel
  · rcases hk with rfl | rfl | rfl <;> decide +kernel
  · rcases hk with rfl | rfl | rfl <;> decide +kernel
  · rcases hk with rfl | rfl | rfl <;> decide +kernel
  · rcases hk with rfl | rfl | rfl
    · have h1 := imaged_page5 c {} 101 {} _ ha (.cmd 7) 16 64 (by omega) (by omega)
      have h2 := imaged_page5 c {} 101 {} _ ha (.cmd 7) 18 16 (by omega) (by omega)
      have d : leAt sel 0 8 = 0x5200 ∧ leAt ((page5.drop (32 * 16)).take 64) 4 1 = 1 ∧
        leAt ((page5.drop (32 * 16)).take 64) 6 2 * leAt ((page5.drop (32 * 16)).take 64) 8 2 = 1 ∧
        selectTiles sel ((page5.drop (32 * 18)).take 16) 1 = [(0, 1)] := by decide +kernel
      simp only [State.scanGate, d.1, hc.1, hc.2.1, headboxAsker, show 0x5200 = 0x5000 + 32 * 16 by omega, s1, h1]
      rw [d.2.1, d.2.2.1, if_neg (by omega), show 0x5000 + 32 * 16 + 64 = 0x5000 + 32 * 18 by omega, h2]
      simp only [d.2.2.2]
      rfl
    · have h1 := imaged_page5 c {} 101 {} _ ha (.cmd 7) 24 64 (by omega) (by omega)
      have d : leAt sel 0 8 = 0x5300 ∧ leAt ((page5.drop (32 * 24)).take 64) 4 1 = 0 := by decide +kernel
      simp only [State.scanGate, d.1, hc.1, hc.2.1, headboxAsker, show 0x5300 = 0x5000 + 32 * 24 by omega, s1, h1]
      rw [d.2, if_pos (by omega)]
      rfl
    · have h1 := imaged_page5 c {} 101 {} _ ha (.cmd 7) 32 64 (by omega) (by omega)
      have h2 := imaged_page5 c {} 101 {} _ ha (.cmd 7) 34 16 (by omega) (by omega)
      have d : leAt sel 0 8 = 0x5400 ∧ leAt ((page5.drop (32 * 32)).take 64) 4 1 = 1 ∧
        leAt ((page5.drop (32 * 32)).take 64) 6 2 * leAt ((page5.drop (32 * 32)).take 64) 8 2 = 1 ∧
        selectTiles sel ((page5.drop (32 * 34)).take 16) 1 = [] := by decide +kernel
      simp only [State.scanGate, d.1, hc.1, hc.2.1, headboxAsker, show 0x5400 = 0x5000 + 32 * 32 by omega, s1, h1]
      rw [d.2.1, d.2.2.1, if_neg (by omega), show 0x5000 + 32 * 32 + 64 = 0x5000 + 32 * 34 by omega, h2]
      simp only [d.2.2.2]
      rfl

/-- The chip with partition 0 as calender partition, head 0 in a state, its timing 8 × 8 and planes 0 and 1 of 4 × 4. -/
def heads (state armed wall : Nat) : State :=
  let s := (((chip.wr .PWR_DOM_STATE_STATE 0 domCal).wr .GLB_FUNC_STATE_STATE state 32).wr .CAL_TIMING_HACTIVE 8 0).wr
    .CAL_TIMING_VACTIVE 8 0
  let s := [0, 1].foldl (fun (s : State) k => [(.CAL_PLANE_DST_W, 4), (.CAL_PLANE_DST_H, 4), (.CAL_PLANE_SRC_W, 4),
    (.CAL_PLANE_SRC_H, 4), (.CAL_PLANE_CTRL_ARM, armed)].foldl (fun (s : State) (e : Field × Nat) => s.wr e.1 e.2 0 k) s) s
  let s := ((fence.regs.foldl (fun (s : State) e => { s with regs := storePut e.1 e.2 s.regs }) s).wr .CAL_WALL_HANDLE 5 0).wr
    .CAL_WALL_VALUE wall 0
  let s := s.wr .CAL_LEAD_CYCLES 1 0
  { s with
    furn := { recs := chip.furn.recs ++ [⟨4, 0, [0, 0, 0, 0, 0, 0, 0, 0]⟩] }
    cal := { s.cal with active := [(0, [1, 0, 255, 0, 16, 4, 4, 0, 0, 4, 4])] } }

theorem test_has_PlanesArmAndLatch :
    (let s := heads fnRunning 0 0
     s.calWrites 0 = true ∧ s.calWrites 1 = false ∧ s.domState domCal = 0 ∧ bitAt (0x7FFFFFFF : Word).toNat 31 = false ∧
       bitAt (0x80000000 : Word).toNat 31 = true ∧
       (s.wr .CAL_PLANE_CTRL_FMT (bits (0x80000000 : Word).toNat 29 28) 0 1).planeOk 0 1 = true ∧
       (s.wr .CAL_PLANE_CTRL_FMT (bits (0xB0000000 : Word).toNat 29 28) 0 1).planeOk 0 1 = false) ∧
    (let s := heads fnRunning 1 9
     s.live = true ∧ s.headRuns 0 = true ∧ s.rd .CAL_PLANE_CTRL_ARM 0 0 = 1 ∧ s.rd .CAL_PLANE_CTRL_ARM 0 1 = 1 ∧
       s.wallMet 0 = true) ∧
    (let s := heads fnRunning 1 10
     s.live = true ∧ s.headRuns 0 = true ∧ s.rd .CAL_PLANE_CTRL_ARM 0 0 = 1 ∧ s.wallMet 0 = false ∧
       s.rd .CAL_LEAD_CYCLES 0 ≠ 0 ∧ s.cal.lead.contains 0 = false) := by decide +kernel

theorem test_has_HeadsTrainAndPlug :
    (let s := (heads fnStarting 0 0).wr .CAL_HEAD_CTRL_KHZ 54000 0
     s.live = true ∧ s.cal.lead = [] ∧ s.funcState 32 = fnStarting ∧ s.linkCarries 0 0 0 = true ∧
       (s.wr .CAL_HEAD_CTRL_KHZ 54001 0).linkCarries 0 0 0 = false) ∧
    (let s := heads fnRunning 0 0
     s.calPart = some 0 ∧ s.homed 0 = true ∧ s.rd .EVQ_CTRL_EN (s.driverTarget 0) = 0 ∧ s.rd .CAL_HEAD_CTRL_HPD 0 = 0 ∧
       (s.wr .CAL_HEAD_CTRL_HPD 1 0).rd .CAL_HEAD_CTRL_HPD 0 = 1 ∧ s.headRuns 0 = true ∧ s.planeShown 0 0 = true) := by
  decide +kernel
/-! ### The PCIe attachment -/

theorem test_has_TheWindowReachesLocalMemory :
    (let s := State.put chip 0x4000 0x1234
     s.live = true ∧ s.rd .L2_CTRL_EN = 1 ∧ s.winAddr 0x4000 = 0x4000 ∧
       s.l2Hit (s.winAddr 0x4000 / 32 * 32) = some ⟨0x1234, false⟩ ∧
       s.domState (domL2 (sliceOf (s.winAddr 0x4000 / 32 * 32))) = 0 ∧
       ∀ len ∈ [1, 32], s.winAddr 0x4000 % 32 + len ≤ 32 ∧ s.winOk 0x4000 len = true) ∧
    (let s := State.put chip 0x4000 0x1234
     s.winAddr 0x401F % 32 + 1 ≤ 32 ∧ s.winOk 0x401F 1 = true ∧ s.l2Hit (s.winAddr 0x401F / 32 * 32) = some ⟨0x1234, false⟩) ∧
    chip.winOk chip.winSize 1 = false ∧ chip.winSize < 2 ^ 36 ∧ chip.winOk (chip.winSize - 1) 1 = true := by decide +kernel

/-- A request for 16 bytes of the host's memory. -/
def hostReq0 (owner : Owner) : Req := ⟨7, 0, none, 0, 0x1000, 16, [], owner, 0⟩

theorem test_has_HostRequestsComplete :
    (let q := { quire0 with wait := .remote [3] }
     let s := running [0x70] q
     let s := { s with pcie := { s.pcie with reqs := [hostReq0 (.quire 0 0)] } }
     s.live = true ∧ s.hostReq 7 = some (hostReq0 (.quire 0 0)) ∧ s.quire 0 0 = some q ∧ s.ring.reqs = [] ∧ s.xlt.waits = [] ∧
       (hostReq0 (.quire 0 0)).n = 16 ∧ (∀ y ∈ s.pcie.reqs, y.id ≠ 7 → Owner.ofQuire 0 0 y.owner = false)) ∧
    (let c := { command 0x20 [0x320, 0x5000, 0] with phase := .handed }
     let s := withCmd paged c
     let s := { s with pcie := { s.pcie with reqs := [hostReq0 (.cmd 7)] } }
     s.live = true ∧ s.hostReq 7 = some (hostReq0 (.cmd 7)) ∧ s.cmd 7 = some c ∧ engineOf c.op = 2) := by decide +kernel

/-- The chip with two VFs, of which function 1's vector is masked with a message pending at an event queue that is not empty. -/
def vfs : State :=
  let s := evq 65
  { s with pcie := { s.pcie with vfEnable := true, numVfs := 2, fns := [(1, { d3hot := true, mask := true, pending := true })] }, owed := [] }

theorem test_has_FunctionsSendWhatWaited :
    (vfs.powered = true ∧ (vfs.fnCfg 1).d3hot = true ∧ (∀ fn ∈ [0, 1, 2], vfs.fnExists fn = true) ∧ vfs.fnExists 3 = false ∧
      (∀ fn ∈ [0, 1, 2], storeFind vfs.owed (targetOfFn fn) = none) ∧ (vfs.fnCfg 1).pending = true ∧ vfs.evqCond 0 = true) ∧
    (let s := vfs.setFn 0 { d3hot := true }
     s.powered = true ∧ (s.fnCfg 0).d3hot = true ∧ s.live = true) ∧
    (let s := vfs.setFn 1 { busMaster := true, mask := true, pending := true }
     let c : FnCfg := { s.fnCfg 1 with mask := false }
     s.fnExists 1 = true ∧ (c.pending && c.sends && !c.mask) = true ∧ s.evqCond (targetOfFn 1) = true) ∧
    (5 : Fin 6) ≠ 0 ∧ (1 : Fin 6) ≠ 0 ∧ 8 ∈ [1, 2, 4, 8] := by decide +kernel

/-- The chip with one VF. -/
def vf1 : State := { chip with pcie := { chip.pcie with vfEnable := true, numVfs := 1 } }

theorem test_has_VfResetsTearDown :
    (vf1.powered = true ∧ vf1.vfEnabled 0 = true ∧ vf1.vfEnabled 1 = false ∧
      (vf1.wr .GLB_FLR_STATUS_RUNNING 1).flrRuns 0 = true ∧ vf1.live = true ∧ (vf1.part 0).isSome = true ∧
      vf1.homed 0 = true ∧ vf1.spanning 0 = false ∧ vf1.funcState 0 = fnRunning ∧ vf1.rd .GLB_FLR_STATUS_RUNNING = 0 ∧
      vf1.rd .HB_RECLAIM_RUNNING 0 = 0 ∧ vf1.hb = {} ∧ vf1.launches = [] ∧ vf1.geo.passes = [] ∧ vf1.vats = [] ∧
      vf1.codec = {} ∧ vf1.sync = {} ∧ vf1.xlt = {} ∧ vf1.rd .EVQ_CTRL_EN 32 = 0 ∧
      (∀ q : Fin 16, vf1.rd .HB_Q_CTRL_EN 0 q ≤ 1) ∧ vf1.pcie.numVfs = 1) := by decide +kernel

theorem test_has_VfResetsTearDown_objects :
    (∀ h, h < 16384 → vf1.rd .SYN_OBJ_TYPE h = 0) ∧ (∀ h, h < 4096 → vf1.rd .HB_MO_STATE h = 0) :=
  ⟨fun h _ => rd_reset vf1 .SYN_OBJ_TYPE h 0 (by omega) (by omega) (by decide +kernel),
    fun h _ => rd_reset vf1 .HB_MO_STATE h 0 (by omega) (by omega) (by decide +kernel)⟩
/-! ### Scheduling and translation -/

/-- The running chip with a pooled partition 2 beside partition 1, of equal PRIO, and a launch of partition 1 to be placed. -/
def pool : State :=
  { (((chip.setQueue 1 0 [{ command 0x01 [0x301, 0x5000, 0] with p := 1, phase := .handed }]).setQueue 2 0
      [{ command 0x01 [0x301, 0x5000, 0] with id := 8, p := 2, phase := .handed }]).wr .GLB_FUNC_STATE_STATE 0 2).wr .SCH_POOL_SLICE_UNITS 1 with
    furn := { recs := chip.furn.recs ++ [partition 2 1 2] }
    launches := [(9, { kernel [0x70] with p := 1 })] }

/-- Partition 1 holds the pooled vat with a block, and partition 2 waits. -/
def sliced : State :=
  { pool with
    launches := [(9, { kernel [0x70] with p := 1, next := 1, total := 1 }), (10, { kernel [0x70] with id := 10, p := 2, use := .compute 8 })]
    vats := [(1, { holder := some 1, blocks := [(0, { launch := 9, index := 0 })] })] }

/-- A block of partition 0 that is being saved at 0x10000. -/
def saving : State :=
  { running [0x70] quire0 with
    launches := [(9, { kernel [0x70] with next := 1, vregs := 8 })]
    vats := [(0, { quires := [(0, quire0)], blocks := [(0, { launch := 9, index := 0, saving := some 0x10000 })] })] }

theorem test_has_PooledVatsAreSharedOut :
    (pool.live = true ∧ pool.updateWaiting.pooledVats.find? pool.updateWaiting.grantable = some 1 ∧
      pool.updateWaiting.nextWaiting = some 1 ∧ chip.live = true ∧ chip.updateWaiting.sched.waiting = []) ∧
    (sliced.live = true ∧ sliced.rd .SCH_POOL_SLICE_UNITS ≠ 0 ∧ (∀ e ∈ sliced.launches, e.2.p < 32) ∧
      (∃ w ∈ sliced.updateWaiting.sched.waiting, w ≠ 1 ∧ sliced.prio w = sliced.prio 1) ∧ sliced.heldVats 1 = [1] ∧
      sliced.hasBlock 1 1 = true ∧ (sliced.wr .SCH_POOL_SLICE_UNITS 0).rd .SCH_POOL_SLICE_UNITS = 0) ∧
    (let s := saving
     let blk : Block := { launch := 9, index := 0, saving := some 0x10000 }
     let l := { kernel [0x70] with next := 1, vregs := 8 }
     s.live = true ∧ s.block 0 0 = some blk ∧ blk.saving = some 0x10000 ∧ s.launch blk.launch = some l) := by decide +kernel

theorem test_has_BlockSave :
    let s := saving
    let l := { kernel [0x70] with next := 1, vregs := 8 }
    (s.takeFree.2.vWrite (saveAsker 0 l.p) (.launch 9) l.p 0x10000 ((List.range l.saveSize).map (Config.internalByte s.free))).2.isOk =
      true := by
  decide +kernel

/-- A stream entry 3 with its budget, and a frame of a graph of one node, which runs. -/
def stream (en budget check thresh : Nat) (done : Bool) : State :=
  let s := (((chip.wr .SCH_DL_CFG_EN en 3).wr .SCH_DL_CFG_BUDGET budget 3).wr .SCH_DL_CFG_CHECK check 3).wr .SCH_DL_CFG_THRESH thresh 3
  { s with
    sched := { s.sched with frames := [⟨1, 3, 8, false, false⟩] }
    hb := { s.hb with runs := [{ id := 8, cmd := 7, p := 0, q := 0, graph := 0, ver := 0, args := 0
                                 nodes := [⟨[], if done then .done else .fetched, 0, 4⟩] }] } }

theorem test_has_StreamsAndBudgets :
    (let s := stream 0 11 10 128 true
     s.pfWrites = true ∧ s.dlTwin 3 = false ∧ s.rd .SCH_DL_CFG_CHECK 3 < s.rd .SCH_DL_CFG_BUDGET 3) ∧
    (let s := stream 0 10 10 128 true
     s.pfWrites = true ∧ s.rd .SCH_DL_CFG_BUDGET 3 ≤ s.rd .SCH_DL_CFG_CHECK 3) ∧
    ((stream 0 11 10 128 true).wr .SCH_DL_CFG_EN 1 4).dlTwin 3 = true ∧
    (∀ done ∈ [true, false], let s := stream 1 11 10 128 done
      s.live = true ∧ ((s.sched.frames.filter (fun f => f.entry = 3))[0]?).map (·.checked) = some false ∧
        (s.hb.runs.find? (fun x => x.id = 8)).map s.frameTiles = some (if done then (4, 4) else (0, 4)) ∧
        s.rd .SCH_DL_CFG_THRESH 3 = 128 ∧ s.rd .SCH_DL_CFG_ABORT 3 ≠ 1) ∧
    (chip.live = true ∧ chip.geo.passes = [] ∧ ∀ k < 2, (chip.port k).rx = [] ∧ (chip.port k).tx = []) := by decide +kernel

/-- A quire of partition 0 that waits for a page, with or without a migration entry, and entry 5 in use. -/
def waitingFor (entry : Option Nat) (who : Owner) : State :=
  let s := running [0x70] { quire0 with wait := .migration }
  let s := (s.wr .XLT_MIG_USED 1 5).wr .XLT_MIG_PART 0 5
  { s with xlt := { s.xlt with waits := [⟨4, 0, 0x6000, 1, 0, entry, who⟩] } }

theorem test_has_MigrationWaitsEnd :
    (let s := waitingFor none (.quire 0 0)
     let w : MigWait := ⟨4, 0, 0x6000, 1, 0, none, .quire 0 0⟩
     let t : Xlat := ⟨6, true, true, true, false, 0⟩
     let r := s.lookup ⟨.unit, w.kind, w.p⟩ w.p w.va
     s.live = true ∧ s.homeWait w.id = some w ∧ w.entry = none ∧ w.who = .quire 0 0 ∧
       (match r.2 with | .ok y => y | _ => ⟨0, false, false, false, false, 0⟩) = t ∧ r.1.pageStatus w t = stOk ∧
       r.1.quire 0 0 = some { quire0 with wait := .migration } ∧ (∀ y ∈ r.1.xlt.waits, y.id ≠ w.id → y.who ≠ .quire 0 0)) ∧
    (let s := waitingFor (some 5) (.quire 0 0)
     let w : MigWait := ⟨4, 0, 0x6000, 1, 0, some 5, .quire 0 0⟩
     s.mayWrite 0 0 = true ∧ s.rd .XLT_MIG_USED 5 = 1 ∧ s.rd .XLT_MIG_PART 5 = 0 ∧
       s.xlt.waits.filter (fun y => y.entry = some 5 && y.p = 0) = [w] ∧
       s.quire 0 0 = some { quire0 with wait := .migration } ∧ (∀ y ∈ s.xlt.waits, y.id ≠ w.id → y.who ≠ .quire 0 0) ∧
       s.rd .XLT_MIG_USED 6 = 0) ∧
    (let c := { command 0x20 [0x320, 0x5000, 0] with phase := .handed }
     let s := { waitingFor (some 5) (.cmd 7) with hb := (withCmd paged c).hb }
     let w : MigWait := ⟨4, 0, 0x6000, 1, 0, some 5, .cmd 7⟩
     s.mayWrite 0 0 = true ∧ s.xlt.waits.filter (fun y => y.entry = some 5 && y.p = 0) = [w] ∧ s.cmd 7 = some c ∧
       engineOf c.op = 2 ∧ s.live = true ∧ s.homeWait 4 = some w ∧ s.funcState w.p ≠ fnStopped ∧
       (s.wr .GLB_FUNC_STATE_STATE fnStopped 0).funcState w.p = fnStopped) := by decide +kernel

/-- Partition 0 with an invalidation that waits for a list of caches. -/
def invalidating (l : List XltCache) : State :=
  { paged with xlt := { paged.xlt with inval := [(0, ⟨0x8000, 0, l, false⟩)], tlb := [(5, ⟨5, true, true, true, false, 0⟩)] } }

theorem test_has_InvalidationsRun :
    (let s := paged
     s.bellOk 0 0 = true ∧ s.rd .HB_RECLAIM_RUNNING 0 = 0 ∧ s.spanning 0 = false ∧ s.xlt.inval.any (fun x => x.1 = 0) = false ∧
       s.mayWrite 0 0 = true ∧ s.rd .XLT_ROOT_ADDR 0 < 2 ^ 36 ∧ s.rootFree 0 = true ∧
       (s.wr .HB_Q_CTRL_EN 1 0 0).rootFree 0 = false) ∧
    (let s := invalidating [.headbox]
     s.bellOk 0 0 = true ∧ s.xlt.inval.any (fun x => x.1 = 0) = true ∧ storeFind s.xlt.pendInval 0 = none ∧ s.live = true ∧
       (∀ m, XltCache.headbox ≠ .member m) ∧ storeFind s.xlt.inval 0 = some ⟨0x8000, 0, [.headbox], false⟩ ∧
       [XltCache.headbox].filter (fun y => y ≠ .headbox) = [] ∧ s.ring.funcs = []) ∧
    (let s := { invalidating [.headbox, .copy] with xlt := { (invalidating [.headbox, .copy]).xlt with pendInval := [(0, 9)] } }
     s.bellOk 0 0 = true ∧ storeFind s.xlt.pendInval 0 = some 9 ∧ s.live = true ∧
       [XltCache.headbox, .copy].filter (fun y => y ≠ .headbox) ≠ []) := by
  decide +kernel
/-! ### L2, DRAM and maintenance -/

/-- The running chip with one sector in L2. -/
def cached (dirty : Bool) : State := { chip with mem := { chip.mem with l2 := [(0x200, ⟨0x1234, dirty⟩)] } }

theorem test_has_L2ServesRequests :
    (∀ dirty ∈ [true, false],
      let s := cached dirty
      s.pfWrites = true ∧ s.live = true ∧ s.rd .L2_CTRL_EN = 1 ∧ s.l2Hit (0x401F / 32 * 32) = some ⟨0x1234, dirty⟩ ∧
        s.domState (domL2 (sliceOf (0x401F / 32 * 32))) = 0 ∧ 0x4000 % 32 + 32 ≤ 32 ∧ 0x401F % 32 + 1 ≤ 32 ∧
        0x4018 % 32 + 8 ≤ 32 ∧ 0x401C % 32 + 4 ≤ 32 ∧ s.usableRange 0x4000 32 = true ∧ s.usableRange 0x401F 1 = true ∧
        s.usableRange 0x4018 8 = true ∧ s.usableRange 0x401C 4 = true ∧ (s.portPart .pcie).getD 0 < 32 ∧
        (s.readSector 0x4000).bad = 0 ∧ (s.readSector 0x4000).corrected = false ∧ s.domState (domMc (ctrlOf 0x4000)) = 0 ∧
        s.inReset = false ∧ s.rd .MGC_MBOX_CTRL_PENDING ≤ 1 ∧ s.rd .PWR_WEAR_SECONDS < 2 ^ 32 ∧
        s.rd .GLB_DEVRESET_CTRL_COUNT < 256) := by decide +kernel

/-- The running chip without records of corrected reads. -/
def quiet : State := chip.wr .MEM_ERR_CTRL_CE_STEP 0

/-- Region 3 protects 64 bytes at 0x200000 with the stronger code and is scrubbed; the scrub stands at one of its sectors. -/
def scrubbing (o : Nat) : State :=
  let s := [(Field.MEM_REGION_CODE, 2), (.MEM_REGION_SIZE, 64), (.MEM_REGION_STATE_SCRUB, 1)].foldl
    (fun (s : State) (e : Field × Nat) => s.wr e.1 e.2 3) (quiet.wrAddr .MEM_REGION_BASE 0x200000 3)
  { s with maint := { s.maint with running := [⟨1, 0, 0⟩], scrubPos := scrubPlace 3 o } }

theorem test_has_DramErrorsAreCounted :
    (quiet.live = true ∧ quiet.rd .MEM_ERR_CTRL_CE_STEP = 0 ∧ (∀ c : Fin 12, quiet.domState (domMc c) = 0) ∧
      (∀ n : Fin 16, quiet.domState (domL2 n) = 0) ∧ quiet.rd .EVQ_ROUTE_DRAM_ERROR ≤ 33 ∧ quiet.usable 0x4000 = true ∧
      quiet.l2Hit 0x4000 = none ∧ (∀ k : Fin 16, quiet.scrubs k = false) ∧ quiet.maint.scrubPos < 2 ^ 44) ∧
    (∀ o ∈ [0, 1],
      let s := scrubbing o
      s.live = true ∧ s.rd .MEM_ERR_CTRL_CE_STEP = 0 ∧ (∀ c : Fin 12, s.domState (domMc c) = 0) ∧
        (∀ n : Fin 16, s.domState (domL2 n) = 0) ∧ s.rd .EVQ_ROUTE_DRAM_ERROR ≤ 33 ∧
        s.maint.running.any (fun a => a.act = 1) = true ∧ s.admitsMem maintAsker = true ∧
        s.scrubFrom s.maint.scrubPos = some (3, o) ∧ (s.region 3).base + 32 * o < 2 ^ 44 ∧
        (s.scrubFrom (scrubPlace 3 (o + 1))).isSome = decide (o = 0)) ∧
    (let s := scrubbing 0
     let f := s.flipCells 0x200000 3 0
     (f.readSector 0x200000).bad ≠ 0 ∧ s.usable 0x200000 = true ∧ s.l2Hit 0x200000 = none ∧
       ((s.flipCells 0x200000 1 0).readSector 0x200000).corrected = true) := by
  decide +kernel

theorem test_has_MaintenanceStarts :
    (let s := chip.wrAddr .MEM_MAINT_ADDR_ADDR 0x4000
     let pa := s.addrOf .MEM_MAINT_ADDR_ADDR
     s.pfWrites = true ∧ s.rd .MEM_MAINT_CTRL_PENDING = 0 ∧ MaintIdle s ∧ pa = 0x4000 ∧ pa < s.dramSize ∧ s.saveallErr pa = none ∧
       s.freeEntry (ctrlOf pa) = some 0 ∧ blockOf pa < 2 ^ 28) ∧
    (let s := cached true
     s.pfWrites = true ∧ s.rd .MEM_MAINT_CTRL_PENDING = 0 ∧ MaintIdle s ∧ s.mem.l2 = [(0x200, ⟨0x1234, true⟩)] ∧
       s.regionOf (32 * 0x200) = none) ∧
    (let s := { chip with maint := { chip.maint with running := [⟨1, 0, 0⟩] } }
     s.pfWrites = true ∧ s.rd .MEM_MAINT_CTRL_PENDING = 0 ∧ s.maint.paused = [] ∧ s.maint.waiting = [] ∧ s.xlt.inval = [] ∧
       s.pwr.doms = [] ∧ (∀ k < 2, s.rd .FLT_PORT_STATE k = 0) ∧ (∀ c : Fin 12, s.domState (domMc c) = 0)) ∧
    12 ≤ (12 : BitVec 4).toNat ∧ (11 : BitVec 4).toNat < 12 := by
  unfold MaintIdle; decide +kernel

theorem test_has_MaintenanceEnds :
    (chip.live = true ∧ chip.maint.running.find? (fun a => a.act = 2 && a.target = 3) = none) ∧
    (let s := { chip with maint := { chip.maint with running := [⟨2, 3, 0⟩], paused := [⟨1, 0, 0⟩] } }
     s.live = true ∧ s.maint.waiting = [] ∧ s.rd .MEM_SELFTEST_FAIL = 0 ∧ s.rd .EVQ_ROUTE_DRAM_ERROR ≤ 33) ∧
    (∀ a ∈ [(⟨3, 0, 1⟩ : Act), ⟨4, 3, 0x4000⟩, ⟨5, 3, 0⟩],
      let s := { chip with maint := { chip.maint with running := [a] } }
      s.live = true ∧ s.maint.paused = [] ∧ s.maint.waiting = [] ∧ (a.act = 3 ∨ a.act = 4 ∨ a.act = 5)) := by
  decide +kernel
/-! ### The pulper and the baler -/

/-- A DECODE descriptor of 64 bytes at 0x6000 for a stream slot. -/
def decDesc (slot : Nat) : List Byte :=
  slice (toLe 8 0x6000 ++ toLe 4 64 ++ toLe 4 5 ++ toLe 8 0x10000 ++ toLe 8 0x11000 ++ toLe 8 0 ++ toLe 8 0 ++ toLe 8 0x7000 ++
    [BitVec.ofNat 8 slot, 0]) 0 64

/-- A BALE or UNBALE descriptor: `n` bytes at 0x6000, room for 64 at 0x6800, STATE at 0x9000, RESULT at 0x7000. -/
def balDesc (n frame : Nat) : List Byte :=
  slice (toLe 8 0x6000 ++ toLe 8 0x6800 ++ toLe 4 n ++ toLe 4 64 ++ toLe 8 0x9000 ++ toLe 8 0 ++ toLe 2 0 ++
    [BitVec.ofNat 8 frame, 0, 0, 0, 0, 0] ++ toLe 8 0x7000) 0 64

/-- The paged chip with the pulper and the baler ON, slot 2 partition 0's, a command, and its descriptor at 0x5000. -/
def codecChip (c : Cmd) (d : List Byte) : State :=
  let s := withCmd ((((paged.wr .PWR_DOM_STATE_STATE 0 (domPlp 0)).wr .PWR_DOM_STATE_STATE 0 domBal).wr .PLP_SLOT_EN 1 2).wr
    .PLP_SLOT_OWNER 0 2) c
  { s with
    mem := { s.mem with l2 := s.mem.l2 ++ sectors 0x280 2 d ++ sectors 0x300 2 [0x01, 1, 0, 0xFE, 0xFF, 0x41] ++ sectors 0x340 2 [] }
    codec := { s.codec with engines := [(0, [99])], baler := [99] } }

theorem test_has_CodecCommandsAreTaken :
    (let s := codecChip (command 0x20 [0x320, 0x5000, 0]) []
     s.pfWrites = true ∧ s.domState (domPlp (slotEngine 1)) = 0 ∧ s.rd .PLP_SLOT_EN 1 ≠ 1 ∧ s.rd .PLP_SLOT_EN 2 = 1) ∧
    (∀ slot ∈ [2, 3],
      let c := command 0x20 [0x320, 0x5000, 0]
      let s := codecChip c (decDesc slot)
      let r := s.vRead ⟨.unit, 4, c.p⟩ (.cmd c.id) c.p (c.dword 1) 64
      AtHead s 0 0 0x20 c ∧ r.2.toOption = some (decDesc slot) ∧ r.1.cmd c.id = some c ∧
        r.1.domState (domPlp (slotEngine (dSlot (decDesc slot)))) = 0 ∧
        r.1.decodeRefusal c.p c.q (decDesc slot) = (if slot = 2 then none else some 1) ∧
        r.1.ds3Status (decDesc slot) = none ∧ storeGet [] r.1.codec.engines (slotEngine (dSlot (decDesc slot))) ≠ []) ∧
    (∀ op ∈ [0x28, 0x29], ∀ frame ∈ [0, 3],
      let c := command op [0x300 + op, 0x5000, 0]
      let s := codecChip c (balDesc 6 frame)
      let r := s.vRead ⟨.unit, 5, c.p⟩ (.cmd c.id) c.p (c.dword 1) 64
      AtHead s 0 0 op c ∧ s.domState domBal = 0 ∧ r.2.toOption = some (balDesc 6 frame) ∧ r.1.cmd c.id = some c ∧
        r.1.domState domBal = 0 ∧ c.id ∉ r.1.codec.baler ∧ r.1.codec.baler ≠ [] ∧
        r.1.balRefusal c (balDesc 6 frame) = (if frame = 0 then none else some 1)) := by
  unfold AtHead; decide +kernel

/-- A command that its engine has started. -/
def started (op : Nat) : Cmd := { command op [0x300 + op, 0x5000, 0] with phase := .handed, progress := 1 }

/-- The engine's list begins with that command. -/
def coding (op : Nat) (d : List Byte) : State :=
  let s := codecChip (started op) d
  { s with codec := { s.codec with
      engines := if op = 0x20 then [(0, [7])] else []
      baler := if op = 0x20 then [] else [7]
      descs := [(7, d)] } }

theorem test_has_CodecCommandsEnd_decode :
    (let s := coding 0x20 (decDesc 2)
     let c := started 0x20
     let r := s.plpInput 0 c (decDesc 2)
     s.live = true ∧ s.cmd 7 = some c ∧ c.id = 7 ∧ storeFind s.codec.descs 7 = some (decDesc 2) ∧ c.progress = 1 ∧
       c.phase = .handed ∧ c.result = none ∧ (storeGet [] s.codec.engines 0).head? = some 7 ∧ s.admits 0x20 3 = true ∧
       s.admits c.p 3 = true ∧ (r.2.map (fun x => (x.1.length, x.2))) = some (64, false) ∧ r.1.cmd 7 = some c) := by
  decide +kernel

theorem test_has_CodecCommandsEnd_bale :
    (let d := balDesc 0 0
     let s := coding 0x28 d
     let c := started 0x28
     let job : BalJob := ⟨c.p, bState d, balDir c, leAt d 42 1, leAt d 43 1, [], [], [], 0⟩
     let block := (List.range 4096).map (Config.internalByte s.free)
     let t := (s.takeFree.2.vWrite (balAsker c.p) (.cmd 7) c.p (bState d) block).1
     let j1 : BalJob := { job with ends := [0] }
     let r := t.vWrite (balAsker c.p) (.cmd 7) c.p (leAt d 48 8) (balRecord ⟨j1, 0, 0⟩ 2 stOk 0 false)
     s.live = true ∧ s.cmd 7 = some c ∧ storeFind s.codec.descs 7 = some d ∧ s.codec.baler.head? = some 7 ∧ bResume d = false ∧
       bDictLen d = 0 ∧ s.failedRead (.cmd 7) = none ∧ c.op = 0x28 ∧ bSrcLen d = 0 ∧ bFinal d = false ∧ r.2.isOk = true ∧
       r.1.cmd 7 = some c) := by decide +kernel

theorem test_has_CodecCommandsEnd_unbale :
    (let d := balDesc 6 0
     let s := coding 0x29 d
     let c := started 0x29
     let job : BalJob := ⟨c.p, bState d, balDir c, leAt d 42 1, leAt d 43 1, [], [], [], 0⟩
     let in' := s.balRead c d ⟨job, 0, 0⟩ (bSrcLen d) (bDstLen d)
     let bs := (in'.2.toOption).getD []
     let x := inflateJob job.frame bs [] (bDstLen d)
     let s1 := (in'.1.vWrite (balAsker c.p) (.cmd 7) c.p (leAt d 8 8) x.out).1
     let block := (List.range 4096).map (Config.internalByte s1.free)
     let t := (s1.takeFree.2.vWrite (balAsker c.p) (.cmd 7) c.p (bState d) block).1
     let j1 : BalJob := { job with input := bs.take x.used, out := x.out.length }
     let r := t.vWrite (balAsker c.p) (.cmd 7) c.p (leAt d 48 8) (balRecord ⟨j1, x.used, x.out.length⟩ 0 stOk 0 false)
     s.live = true ∧ s.cmd 7 = some c ∧ storeFind s.codec.descs 7 = some d ∧ s.codec.baler.head? = some 7 ∧ bResume d = false ∧
       bDictLen d = 0 ∧ s.failedRead (.cmd 7) = none ∧ c.op = 0x29 ∧ bSrcLen d ≤ 65536 ∧ bDstLen d ≤ 65536 ∧
       in'.2.toOption = some [0x01, 1, 0, 0xFE, 0xFF, 0x41] ∧ x.stop = none ∧ x.used = bSrcLen d ∧ x.out = [0x41] ∧
       (in'.1.vWrite (balAsker c.p) (.cmd 7) c.p (leAt d 8 8) x.out).2.isOk = true ∧ r.2.isOk = true ∧ r.1.cmd 7 = some c) := by
  decide +kernel
/-! ### The felt ring -/

/-- The running chip as member 0 of a ring of two whose master is given; both ports are ACTIVE towards chip 1. -/
def ring (master : Nat) : State :=
  let s := [(Field.FLT_PORT_STATE, 5), (.FLT_PORT_ALIVE, 1), (.FLT_PORT_PEER, 1)].foldl (fun (s : State) (e : Field × Nat) =>
    (s.wr e.1 e.2 0).wr e.1 e.2 1) chip
  let s := (((s.wr .FLT_MEMBERS_LIVE 3).wr .FLT_MEMBERS_REACH 3).wr .GLB_FURNISH_STATUS_MASTER master).wr .FLT_STATUS_LIVE 1
  let s := (s.wr .PWR_DOM_STATE_STATE 0 (domFelt 0)).wr .PWR_DOM_STATE_STATE 0 (domFelt 1)
  { s with
    furn := { recs := chip.furn.recs ++ [⟨1, 0, [2, BitVec.ofNat 8 master, 0, 0, 0, 0, 0, 0]⟩] }
    mem := { s.mem with l2 := [(0x200, ⟨0x1234, false⟩)] }
    ring := { s.ring with ports := [(0, { credits := List.replicate 8 8 }), (1, { credits := List.replicate 8 8 })] } }

/-- A message of chip 1 with tag 9, partition 0. -/
def from1 (op : Nat) (body : List Byte) : List Byte := feltMsg op 1 0 9 0 body

/-- That message received at port 0. -/
def inbox (s : State) (m : List Byte) : State :=
  { s with ring := { s.ring with ports := [(0, { s.port 0 with rx := [⟨feltVc (msgOp m), 0, m, 0⟩] }), (1, s.port 1)] } }

theorem test_has_PortsTrainAndGoDown :
    (∀ st ∈ [1, 4],
      let s := (ring 1).wr .FLT_PORT_STATE st 0
      s.live = true ∧ s.rd .FLT_PORT_ALIVE 0 = 1 ∧ 1 ≤ s.rd .FLT_PORT_STATE 0 ∧ s.rd .FLT_PORT_STATE 0 < 5 ∧
        s.rd .EVQ_ROUTE_RING ≤ 33 ∧ (s.port 0).failed = false) ∧
    (let s := (ring 1).wr .FLT_PORT_STATE 0 0
     s.live = true ∧ s.rd .FLT_PORT_ALIVE 0 = 1 ∧ s.rd .FLT_PORT_STATE 0 = 0) ∧
    (let s := ring 1
     s.live = true ∧ s.portActive 0 = true ∧ s.rd .FLT_PORT_ALIVE 0 ≤ 1 ∧ s.pos ≠ s.rd .GLB_FURNISH_STATUS_MASTER ∧
       s.rd .EVQ_ROUTE_RING ≤ 33) ∧
    (let s := ring 0
     s.pfWrites = true ∧ s.ringed = true ∧ s.rd .FLT_STATUS_STRAP_ERR = 0 ∧ (∀ j : Fin 2, s.domState (domFelt j) = 0) ∧
       s.isMaster = true ∧ s.portActive 0 = true ∧ s.portActive 1 = true) := by decide +kernel

/-- The CRC of a flit, evaluated byte by byte. -/
def crcRun : List Byte → Nat → Nat
  | [], c => c
  | b :: r, c => match crc64Byte c b with
    | 0 => crcRun r 0
    | n + 1 => crcRun r (n + 1)

theorem crcRun_eq (l : List Byte) (c : Nat) : crcRun l c = l.foldl crc64Byte c := by
  induction l generalizing c with
  | nil => rfl
  | cons b r ih =>
    rw [List.foldl_cons, ← ih]
    show (match crc64Byte c b with
      | 0 => crcRun r 0
      | n + 1 => crcRun r (n + 1)) = _
    generalize crc64Byte c b = x
    cases x <;> rfl

theorem crc64_eq (bs : List Byte) : crc64 bs = crcRun bs (2 ^ 64 - 1) ^^^ (2 ^ 64 - 1) := by rw [crcRun_eq, crc64]

/-- A payload flit with a sequence number and a message, its CRC good or not. -/
def flit0 (seq : Nat) (m : List Byte) (good : Bool) : List Byte :=
  let b := slice (toLe 4 (seq * 2 ^ 24 + 1) ++ m) 0 248
  b ++ toLe 8 ((crcRun b (2 ^ 64 - 1) ^^^ (2 ^ 64 - 1)) + b2n (!good))

/-- A HEARTBEAT. -/
def beat : List Byte := from1 7 [4, 0, 0, 0, 0, 0]

theorem test_flit_crc : (∀ seq ∈ [255, 0, 1], flitCrcOk (flit0 seq beat true) = true) ∧ flitCrcOk (flit0 0 [] false) = false := by
  simp only [flitCrcOk, crc64_eq]
  decide +kernel

theorem test_has_FlitsArriveInOrder :
    (let s := ring 1
     let fl := flit0 0 beat true
     s.live = true ∧ s.portActive 0 = true ∧ s.rd .FLT_PORT_ERR_CRC 0 < 65536 ∧ fl.length = 256 ∧ flitMsgs fl = some [beat] ∧
       flitKind fl = 1 ∧ flitSeq fl = ((s.port 0).rxSeq + 1) % 256 ∧ (∀ m ∈ (s.port 0).rx, msgDst m.bytes = s.pos) ∧
       msgDst beat = s.pos) ∧
    (∀ seq ∈ [255, 1],
      let fl := flit0 seq beat true
      fl.length = 256 ∧ flitMsgs fl ≠ none ∧ flitKind fl = 1 ∧ flitSeq fl ≠ (((ring 1).port 0).rxSeq + 1) % 256) ∧
    (flit0 0 [] false).length = 256 ∧ ((ring 1).port 0).replay = [] ∧
    (let s := ring 1
     let s := { s with ring := { s.ring with ports := [(0, { s.port 0 with replay := [(0, [])], replays := 6 })] } }
     s.live = true ∧ s.portActive 0 = true ∧ s.rd .FLT_PORT_ERR_CRC 0 < 65536 ∧ (s.port 0).replay ≠ [] ∧
       (s.port 0).replays < 7) := by decide +kernel

/-- A request for memory: address, length or operation, and data. -/
def memReq (op a n : Nat) (data : List Byte) : List Byte := from1 op (toLe 8 a ++ toLe 4 n ++ data)

theorem test_has_OtherChipsReachMemory :
    (∀ e ∈ [(1, 0x4000, 32, 32), (2, 0x401F, 1, 1), (3, 0x4018, 0x2A0, 8), (3, 0x4004, 0xA0, 4)],
      let x : Msg := ⟨0, 0, memReq e.1 e.2.1 e.2.2.1 (toLe 8 7 ++ toLe 8 0), 0⟩
      let s := inbox (ring 1) x.bytes
      s.rd .L2_CTRL_EN = 1 ∧ Arrives s 0 (fun m => msgOp m = e.1) x ∧ msgAddr x.bytes = e.2.1 ∧ msgSize x.bytes = e.2.2.1 ∧
        s.l2Hit (e.2.1 / 32 * 32) = some ⟨0x1234, false⟩ ∧ s.domState (domL2 (sliceOf (e.2.1 / 32 * 32))) = 0 ∧
        s.usableRange e.2.1 e.2.2.2 = true) ∧
    (let m := memReq 2 0x4000 1 [7]
     let s := inbox (ring 1) m
     let s := { s with ring := { s.ring with performed := [((1, 9), feltMsg 8 0 1 9 0 (toLe 4 stOk))] } }
     s.live = true ∧ s.rxHead 0 (fun m => msgOp m = 2) = some ⟨0, 0, m, 0⟩ ∧
       (s.ring.performed.find? (fun z => z.1 = (msgSrc m, msgTag m))).isSome = true) := by
  unfold Arrives; decide +kernel

theorem test_has_OtherChipsReachMemory_bad :
    ∀ op ∈ [1, 2],
      let x : Msg := ⟨0, 0, memReq op 0x10000000000 4 (toLe 4 7), 0⟩
      let s := inbox (ring 1) x.bytes
      Arrives s 0 (fun m => msgOp m = op) x ∧ oneLine (msgAddr x.bytes) (msgSize x.bytes) = true ∧
        s.usableRange (msgAddr x.bytes) (msgSize x.bytes) = false := by
  unfold Arrives; decide +kernel

/-- The ring chip with the fence 5 of partition 0. -/
def fenced : State := (((ring 1).wr .SYN_OBJ_TYPE 1 5).wr .SYN_OBJ_STATE 0 5).wr .SYN_OBJ_VALUE 9 5

/-- A chunk of a firmware image. -/
def chunk (image off total : Nat) (data : List Byte) : List Byte := from1 6 (toLe 4 image ++ toLe 4 off ++ toLe 4 total ++ data)

theorem test_has_OtherChipsSignalAndAnswer :
    (let m := from1 4 (toLe 2 5 ++ [0xB0, 0] ++ toLe 4 0 ++ toLe 8 10 ++ toLe 8 0)
     let s := inbox fenced m
     let x : Msg := ⟨2, 0, m, 0⟩
     let r := (s.leaveRx 0 x).synServe ⟨msgPart m, leAt m 10 1, leAt m 8 2, leAt m 12 4, leAt m 16 8, leAt m 24 8, 0, msgTag m⟩
       (.remote (msgSrc m) (msgTag m))
     Arrives s 0 (fun m => msgOp m = 4) x ∧ leAt m 10 1 ≠ 0xB7 ∧ leAt m 8 2 = 5 ∧ r.2 = .done stOk 0) ∧
    (∀ kind ∈ [1, 31],
      let m := from1 5 (toLe 1 kind ++ List.replicate 31 0)
      let s := inbox (ring 1) m
      Arrives s 0 (fun m => msgOp m = 5) ⟨2, 0, m, 0⟩ ∧ leAt m 8 1 = kind ∧ s.rd .EVQ_CTRL_EN (s.driverTarget (msgPart m)) = 0) ∧
    (let m := from1 8 (toLe 4 0 ++ toLe 8 77)
     let r : Req := ⟨9, 0, some 1, 0, 0x100000000000, 8, memReq 1 0 8 [], .quire 0 0, 0⟩
     let z := { quire0 with wait := .remote [3] }
     let s := inbox (ring 1) m
     let s := { s with
       ring := { s.ring with reqs := [r] }
       launches := [(9, { kernel [0x70] with next := 1 })]
       vats := [(0, { quires := [(0, z)], blocks := [(0, { launch := 9, index := 0 })] })] }
     s.live = true ∧ s.rxHead 0 (fun m => msgOp m = 8) = some ⟨3, 0, m, 0⟩ ∧
       s.ring.reqs.find? (fun r => r.id = msgTag m && r.dst = some (msgSrc m)) = some r ∧ leAt r.msg 0 1 = 1 ∧
       r.addr < walkTag ∧ leAt (msgBody m) 0 4 = 0 ∧ s.quire 0 0 = some z ∧ s.isMaster = false ∧ s.ring.fw = none ∧
       (∀ e ∈ s.launches, e.2.use = .compute 7) ∧ (∀ y ∈ s.ring.reqs, y.id ≠ r.id → Owner.ofQuire 0 0 y.owner = false) ∧
       s.pcie.reqs = [] ∧ s.xlt.waits = []) ∧
    (let m := chunk 3 0 300 (List.replicate 192 5)
     let s := (inbox (ring 1) m).wrAddr .FLT_FW_STAGE_ADDR 0x1000000
     let s := s.wr .FLT_PORT_STATE 0 1
     let data := ((m.drop 8).drop 12).take (min 192 300)
     Arrives s 0 (fun m => msgOp m = 6) ⟨3, 0, m, 0⟩ ∧ leAt (m.drop 8) 8 4 = 300 ∧ leAt (m.drop 8) 4 4 = 0 ∧ s.canStage 300 = true ∧
       s.ring.fw = none ∧ s.ring.fwImage ≠ leAt (m.drop 8) 0 4 ∧ data.length < 300 ∧ s.portActive 1 = false) := by
  unfold Arrives; decide +kernel
/-! ### Ring control -/

/-- A RINGCTL message of a subcode. -/
def ctl (sub : Nat) (body : List Byte) : List Byte := from1 7 ([BitVec.ofNat 8 sub, 0, 0, 0] ++ body)

/-- That message at port 0 of a chip. -/
def ctlBox (s : State) (sub : Nat) (body : List Byte) : State := inbox s (ctl sub body)

/-- The message as it stands there. -/
def ctlMsg (sub : Nat) (body : List Byte) : Msg := ⟨3, 0, ctl sub body, 0⟩

theorem test_has_RingMembershipIsKept :
    (ArrivesCtl (ctlBox (ring 1) 1 [0, 0]) 0 1 (ctlMsg 1 [0, 0]) ∧ (ctlBox (ring 1) 1 [0, 0]).isMaster = false ∧
      (ctlBox (ring 1) 1 [0, 0]).portActive 1 = true ∧ leAt (ctlBody (ctl 1 [0, 0])) 1 1 = 0) ∧
    (let s := ctlBox { ring 0 with ring := { (ring 0).ring with tokens := 2 } } 1 [1, 1, 1, 0]
     ArrivesCtl s 0 1 (ctlMsg 1 [1, 1, 1, 0]) ∧ s.isMaster = true ∧ 2 ≤ s.ring.tokens) ∧
    ArrivesCtl (ctlBox (ring 1) 2 []) 0 2 (ctlMsg 2 []) ∧
    (let b := toLe 2 4 ++ toLe 2 3 ++ toLe 2 3
     let s := ctlBox (ring 1) 3 b
     ArrivesCtl s 0 3 (ctlMsg 3 b) ∧ RingQuiet s ∧ s.rd .EVQ_ROUTE_RING ≤ 33 ∧ bitAt (leAt (ctlBody (ctl 3 b)) 2 2) s.pos = true) := by
  unfold ArrivesCtl Arrives RingQuiet; decide +kernel

theorem test_has_RingMembershipIsKept_rest :
    ArrivesCtl (ctlBox (ring 1) 4 (toLe 2 4)) 0 4 (ctlMsg 4 (toLe 2 4)) ∧
    (ArrivesCtl (ctlBox (ring 1) 5 []) 0 5 (ctlMsg 5 []) ∧ (ctlBox (ring 1) 5 []).isMaster = false) ∧
    ArrivesCtl (ctlBox (ring 1) 0x0F (toLe 4 1)) 0 0x0F (ctlMsg 0x0F (toLe 4 1)) ∧
    (∀ sub ∈ [0, 0x10],
      Arrives (ctlBox (ring 1) sub []) 0 (fun m => msgOp m = 7 && (msgSub m = 0 || 0x0F < msgSub m)) (ctlMsg sub [])) ∧
    (let s := ring 0
     s.live = true ∧ s.isMaster = true ∧ s.otherMembers = [1] ∧ s.rd .FLT_STATUS_CHANGING = 0 ∧ s.rd .FLT_STATUS_ORPHAN = 0) ∧
    (let s := ring 1
     s.live = true ∧ s.ringed = true ∧ s.isMaster = false ∧ s.rd .FLT_STATUS_ORPHAN = 0 ∧ s.spanParts = [] ∧ RingQuiet s ∧
       s.rd .EVQ_ROUTE_RING ≤ 33) := by
  unfold ArrivesCtl Arrives RingQuiet; decide +kernel

/-- The ring chip at generation 1, with the test's key, that has received all but the last 64 bytes of a bit-stream. -/
def receiving (bs : List Byte) : State :=
  let s := (ring 1).wr .GLB_FURNISH_GEN_GENERATION 1
  { s with
    mgc := { s.mgc with fuses := { s.mgc.fuses with fnsKeys := [testDigest] } }
    furn := { s.furn with recs := [ringOf 2 1], rx := bs.take 1040 } }

/-- A piece of a bit-stream. -/
def piece (off total : Nat) (data : List Byte) : List Byte := toLe 4 off ++ toLe 4 total ++ data

theorem test_has_RingRequestsAreCarriedOut_pieces :
    (∀ sub ∈ [6, 8],
      let b := piece 0 1104 (List.replicate 64 5)
      let s := ctlBox (receiving []) sub b
      let m := ctl sub b
      let data := ((m.drop 8).drop 12).take (leAt (m.drop 8) 8 4 - leAt (m.drop 8) 4 4)
      ArrivesCtl s 0 sub (ctlMsg sub b) ∧ leAt (m.drop 8) 4 4 = 0 ∧ data.length ≠ leAt (m.drop 8) 8 4) ∧
    (let bs := deltaBytes.take 1104
     let b := piece 1040 1104 (bs.drop 1040)
     let s := ctlBox (receiving bs) 6 b
     let m := ctl 6 b
     let data := ((m.drop 8).drop 12).take (leAt (m.drop 8) 8 4 - leAt (m.drop 8) 4 4)
     let got := s.furn.rx ++ data
     ArrivesCtl s 0 6 (ctlMsg 6 b) ∧ s.furn.rx.length = leAt (m.drop 8) 4 4 ∧ leAt (m.drop 8) 4 4 ≠ 0 ∧
       got.length = leAt (m.drop 8) 8 4 ∧ (s.checkDelta got got.length).isOk = true) ∧
    (∀ sub ∈ [6, 8],
      let bs := List.replicate 1104 0
      let b := piece 1040 1104 (bs.drop 1040)
      let s := ctlBox (receiving bs) sub b
      let m := ctl sub b
      let data := ((m.drop 8).drop 12).take (leAt (m.drop 8) 8 4 - leAt (m.drop 8) 4 4)
      let got := s.furn.rx ++ data
      ArrivesCtl s 0 sub (ctlMsg sub b) ∧ s.furn.rx.length = leAt (m.drop 8) 4 4 ∧ leAt (m.drop 8) 4 4 ≠ 0 ∧
        got.length = leAt (m.drop 8) 8 4 ∧ (s.checkDelta got got.length).isOk = false ∧
        furnBase got ≠ s.rd .GLB_FURNISH_GEN_GENERATION) := by
  unfold ArrivesCtl Arrives; decide +kernel

theorem test_has_RingRequestsAreCarriedOut :
    (let b := toLe 4 0x17000000 ++ toLe 8 2
     let s := ctlBox { ring 1 with furn := { (ring 1).furn with staged := some deltaBytes } } 7 b
     ArrivesCtl s 0 7 (ctlMsg 7 b) ∧ leAt (ctlBody (ctl 7 b)) 0 4 ≠ 0 ∧ s.furn.staged = some deltaBytes) ∧
    (let b := toLe 2 4 ++ toLe 2 0
     let s := ctlBox (ring 1) 9 b
     ArrivesCtl s 0 9 (ctlMsg 9 b) ∧ leAt (ctlBody (ctl 9 b)) 0 2 = 4 ∧
       msgPart (ctl 9 b) = leAt (ctlBody (ctl 9 b)) 2 2 % 32 ∧ s.hb.stops = [] ∧ s.vats = [] ∧ s.geo.passes = [] ∧ s.codec = {} ∧
       s.launches = [] ∧ s.hb.queues = [] ∧ s.ring.funcs = [] ∧ s.spanning 0 = false) ∧
    (let b := toLe 4 0 ++ toLe 8 0x5001
     ArrivesCtl (ctlBox (ring 1) 0x0A b) 0 0x0A (ctlMsg 0x0A b)) ∧
    (let b := toLe 4 0 ++ toLe 4 9 ++ toLe 8 0x5000
     let s := ctlBox (ring 1) 0x0B b
     ArrivesCtl s 0 0x0B (ctlMsg 0x0B b) ∧ leAt (ctlBody (ctl 0x0B b)) 0 4 % 32 = 0 ∧ s.spanning 0 = false ∧
       s.xlt.inval.any (fun y => y.1 = 0) = false) ∧
    (let b := toLe 4 0 ++ toLe 8 1 ++ toLe 4 stOk
     let l := { kernel [0x70] with total := 1, gx := 1, next := 1 }
     let c := { command 0x01 [0x301, 0x5000, 0] with phase := .handed }
     let s := ctlBox (ring 1) 0x0D b
     let s := { s with
       hb := (withCmd paged c).hb
       launches := [(9, l)]
       ring := { s.ring with columns := [(9 * 2 ^ 48 + 1, (1, 0))] } }
     ArrivesCtl s 0 0x0D (ctlMsg 0x0D b) ∧ leAt (ctlBody (ctl 0x0D b)) 4 8 = 1 ∧ s.hb.stops = [] ∧ s.launch 9 = some l ∧
       l.p = leAt (ctlBody (ctl 0x0D b)) 0 4 % 32 ∧ l.retired + 1 = l.total ∧ l.use = .compute 7 ∧ s.cmd 7 = some c) ∧
    (∀ st ∈ [0, 0x10000001],
      let b := toLe 4 0 ++ toLe 4 st
      let s := ctlBox (ring 0) 0x0E b
      ArrivesCtl s 0 0x0E (ctlMsg 0x0E b) ∧ s.isMaster = true ∧ leAt (ctlBody (ctl 0x0E b)) 0 4 = s.ring.fwImage ∧
        statusOk (leAt (ctlBody (ctl 0x0E b)) 4 4) = decide (st = 0)) := by
  unfold ArrivesCtl Arrives; decide +kernel

/-- A column whose launch is accepted. -/
theorem test_has_RingRequestsAreCarriedOut_column :
    let b := toLe 4 0 ++ toLe 8 0x5000 ++ toLe 8 1
    let m := ctl 0x0C b
    let c := command 0x01 [0x301, 0x6000, 0]
    let r := (ctlBox (ring 1) 0x0C b).ring
    let s := imaged c {} 100 r
    ArrivesCtl s 0 0x0C (ctlMsg 0x0C b) ∧
      ({ s with nextId := s.nextId + 1 }).readLaunch (leAt (ctlBody m) 0 4 % 32) (.remote (msgSrc m) (msgTag m))
        (leAt (ctlBody m) 4 8) s.nextId (.column (msgSrc m) (leAt (ctlBody m) 12 8)) =
        (imaged c {} 101 r, .ok (launch0 100 (.column 1 1))) := by
  intro b m c r s
  have h := imaged_launch c {} 101 100 r (.remote 1 9) (.column 1 1)
  have hs : ({ s with nextId := s.nextId + 1 } : State) = imaged c {} 101 r := imaged_next c {} 100 101 r
  have hn : s.nextId = 100 := rfl
  have hm : leAt (ctlBody m) 0 4 % 32 = 0 ∧ msgSrc m = 1 ∧ msgTag m = 9 ∧ leAt (ctlBody m) 4 8 = 0x5000 ∧
    leAt (ctlBody m) 12 8 = 1 := by decide +kernel
  refine ⟨?_, ?_⟩
  · unfold ArrivesCtl Arrives
    decide +kernel
  · rw [hs, hn, hm.1, hm.2.1, hm.2.2.1, hm.2.2.2.1, hm.2.2.2.2]
    exact h
/-! ### Power -/

/-- The running chip with a domain in a state, its transition, and what it keeps. -/
def inState (d st : Nat) (run : Option DomRun := none) (keep : Option (List (Nat × Nat)) := none) : State :=
  let s := chip.wr .PWR_DOM_STATE_STATE st d
  { s with pwr := { s.pwr with
      doms := (match run with | some r => [(d, r)] | none => [])
      ret := (match keep with | some l => [(d, l)] | none => []) } }

/-- The running chip whose vat 0 runs a block. -/
def busyVat : State :=
  let s := inState 0 0
  { s with vats := [(0, { holder := some 0, blocks := [(0, { launch := 9, index := 0 })] })] }

theorem test_has_DomainRequests :
    (∀ who ∈ [Requester.mgc, .pf], chip.powerAsk who = true) ∧
    (101 ≤ (104 : Fin 105).val ∧ chip.domAssigned 2 = false) ∧
    (∀ st ∈ [2, 3], (inState 92 st).powerAsk .pf = true ∧ (inState 92 st).domAssigned 92 = true ∧ (inState 92 st).domState 92 = st) ∧
    (∀ d ∈ [(0 : Fin 105), 100], (inState d 0).powerAsk .mgc = true ∧ d.val < 101 ∧ (inState d 0).domState d = 0 ∧
      (inState d 0).domRefuser d = none) ∧
    (busyVat.powerAsk .pf = true ∧ busyVat.domState 0 = 0 ∧ busyVat.domRefuser 0 = some 1) ∧
    ((inState 100 2).powerAsk .pf = true ∧ (inState 100 2).domState 100 = 2) := by decide +kernel

theorem test_has_DomainTransitionsEnd :
    (chip.live = true ∧ chip.rd .PWR_DOM_CTRL_AUTO 0 = 0) ∧
    (let s := ((inState 92 0).wr .PWR_DOM_CTRL_AUTO 1 92).wr .PWR_DOM_CTRL_TARGET 1 92
     s.live = true ∧ s.rd .PWR_DOM_CTRL_AUTO 92 ≠ 0 ∧ s.rd .PWR_DOM_CTRL_TARGET 92 = 1 ∧ s.domState 92 = 0 ∧ s.domRefuser 92 = none) ∧
    (let s := (busyVat.wr .PWR_DOM_CTRL_AUTO 1 0).wr .PWR_DOM_CTRL_TARGET 1 0
     s.live = true ∧ s.rd .PWR_DOM_CTRL_AUTO 0 ≠ 0 ∧ s.rd .PWR_DOM_CTRL_TARGET 0 = 1 ∧ s.domState 0 = 0 ∧ s.domRefuser 0 = some 1) ∧
    (∀ t ∈ [2, 3], ∀ d ∈ [(0 : Fin 105), 64, 100], let s := inState d 1 (some ⟨false, t⟩)
      s.live = true ∧ storeFind s.pwr.doms d = some ⟨false, t⟩ ∧ s.maint = {} ∧ d.val < 101 ∧
        ∀ c : Fin 12, s.domState (domMc c) = 0) ∧
    (∀ st ∈ [0, 1, 2, 3], let s := inState 92 st
      s.live = true ∧ s.domAssigned 92 = true ∧ s.domState 92 = st) ∧
    (let s := inState 92 4 (some ⟨true, 3⟩)
     s.live = true ∧ storeFind s.pwr.doms 92 = some ⟨true, 3⟩ ∧ s.maint = {} ∧ storeFind s.pwr.ret 92 = none) ∧
    (let k := Field.key .GEO_PASS_DRAWS 0 0
     let s := inState 92 4 (some ⟨true, 2⟩) (some [(k, 5)])
     s.live = true ∧ storeFind s.pwr.doms 92 = some ⟨true, 2⟩ ∧ s.maint = {} ∧ storeFind s.pwr.ret 92 = some [(k, 5)] ∧
      inDomain 92 k = true) := by decide +kernel

/-- The running chip with a change of a rail to its point. -/
def rising (r : Nat) : State :=
  let s := chip.wr (railField r) 1
  { s with pwr := { s.pwr with change := [(r, s.railPoint r)] } }

theorem test_has_OperatingPoints :
    (chip.pfWrites = true ∧ storeFind chip.pwr.change 2 = none ∧ min (1#4).toNat (railTop 2) < min (15#4).toNat (railTop 2) ∧
      min (2#4).toNat (railTop 2) ≤ min (15#4).toNat (railTop 2)) ∧
    (let s := ((chip.wr .PWR_CLASS_PEAK 1).wr .PWR_CLASS_CLASS 2)
     s.pfWrites = true ∧ storeFind s.pwr.change 0 = none ∧ min (4#4).toNat (railTop 0) ≤ min (4#4).toNat (railTop 0)) ∧
    (∀ r : Fin 3, let s := rising r
      s.pfWrites = true ∧ storeFind s.pwr.change r = some (s.railPoint r) ∧ s.live = true ∧ storeFind s.pwr.latched r = none ∧
        s.rd (railField r) < s.railPoint r ∧ s.rd .EVQ_ROUTE_POWER ≤ 33) := by decide +kernel

/-- The running chip whose feature f has GPIO r. -/
def featured (f r : Nat) : State := { chip with furn := { chip.furn with claims := [(r, ⟨f, 1⟩)] } }

theorem test_has_LimitsAct :
    (chip.powered = true ∧ chip.rd .EVQ_ROUTE_POWER ≤ 33 ∧ chip.rd .EVQ_ROUTE_THERMAL ≤ 33 ∧ chip.rd .PWR_LIMIT_POWER ≤ 4 ∧
      0 < chip.rd .PWR_LIMIT_THERMAL ∧ chip.live = true ∧ chip.inReset = false ∧ chip.rd .MGC_MBOX_CTRL_PENDING ≤ 1 ∧
      chip.rd .PWR_WEAR_SECONDS < 2 ^ 32 ∧ chip.rd .GLB_DEVRESET_CTRL_COUNT < 256) ∧
    (let s : State := { chip with pwr := { chip.pwr with curSince := 10 } }
     s.powered = true ∧ s.live = true ∧ s.pwr.curSince = 10) ∧
    (∀ t ∈ [0, 72000000 - 3601, 72000000 - 3600], let s := (chip.wr .PWR_STATUS_ARR 4).wr .PWR_WEAR_SECONDS t
      s.powered = true ∧ s.live = true ∧ s.mgc.booted = true ∧ s.rd .PWR_STATUS_ARR = 4 ∧ s.rd .PWR_WEAR_SECONDS = t) ∧
    (let s := featured 0x07 7
     s.powered = true ∧ s.featureOn 0x07 = true ∧ s.thermTop = 4 ∧ s.rd .EVQ_ROUTE_THERMAL ≤ 33) ∧
    (let s := featured 0x06 8
     s.powered = true ∧ s.featureOn 0x06 = true) := by decide +kernel
/-! ### The management controller -/

/-- The running chip after a start of the MGC, with a request record at 0x8000 and other bytes at 0x9000. -/
def mailbox (r : List Byte) (bs : List Byte) : State :=
  let s := chip.wrAddr .MGC_MBOX_ARG_ADDR 0x8000
  { s with mem := { s.mem with l2 := sectors 0x400 2 (slice r 0 64) ++ sectors 0x480 (bs.length / 32) bs } }

/-- The record of FINALISE: the module, the image's place, its capacity, the result's place. -/
def finRec (modA out cap res : Nat) : List Byte := toLe 8 modA ++ toLe 8 out ++ toLe 4 cap ++ toLe 4 0 ++ toLe 8 res

/-- A module of one word. -/
def moduleBytes (words entry code : Nat) : List Byte :=
  toLe 4 0x31435042 ++ [0, 1, 0, 0] ++ toLe 4 words ++ toLe 4 entry ++ toLe 4 0xFFFFFFFF ++ toLe 2 32 ++ List.replicate 10 0 ++
    toLe 8 code ++ List.replicate 24 0

/-- DRAM with a code whose sector 0x200000 has a byte that cannot be corrected; the record of FINALISE is there, or names it. -/
def broken (arg : Nat) : State :=
  let s := (scrubbing 0).flipCells 0x200000 3 0
  { s.wrAddr .MGC_MBOX_ARG_ADDR arg with mem := { s.mem with l2 := sectors 0x400 2 (slice (finRec 0x200000 0xA000 0 0xC000) 0 64) } }

theorem test_has_TheMailboxTakesOne :
    (chip.wr .MGC_MBOX_CTRL_PENDING 1).rd .MGC_MBOX_CTRL_PENDING ≠ 0 ∧ MboxTakes (broken 0x200000) ∧
    (((broken 0x200000).wr .MGC_MBOX_CTRL_CMD 1).mgcRead 0x200000 32).2 = none := by
  unfold MboxTakes; decide +kernel

theorem test_has_FinaliseWritesItsResult_requests :
    (let s := broken 0x8000
     let x := (s.wr .MGC_MBOX_CTRL_CMD 1).mgcRead (s.addrOf .MGC_MBOX_ARG_ADDR) 32
     MboxTakes s ∧ x.2 = some (finRec 0x200000 0xA000 0 0xC000) ∧ x.1.usableRange 0x200000 32 = true ∧
       (x.1.mgcRead 0x200000 32).2 = none) ∧
    (∀ r ∈ [finRec 4 0x1000 0 0x10, finRec 8 0x1800 0 0x10, finRec 8 0x1000 0 0x18, finRec 8 0x1000 0 25769776128,
        finRec 25769776104 0x1000 0 0x10, finRec 8 25769775104 1025 0x10],
      let s := mailbox r []
      let x := (s.wr .MGC_MBOX_CTRL_CMD 1).mgcRead (s.addrOf .MGC_MBOX_ARG_ADDR) 32
      MboxTakes s ∧ x.2 = some r ∧ (leAt r 0 8 % 8 ≠ 0 ∨ leAt r 8 8 % 4096 ≠ 0 ∨ leAt r 24 8 % 16 ≠ 0 ∨
        x.1.usableRange (leAt r 24 8) 16 = false ∨ x.1.usableRange (leAt r 0 8) 32 = false ∨
        x.1.usableRange (leAt r 8 8) (leAt r 16 4) = false)) := by
  unfold MboxTakes; decide +kernel

theorem test_has_FinaliseWritesItsResult_modules :
    (∀ y ∈ [(moduleBytes 1 0 0x70, 8192), (moduleBytes 1 0 0x70, 0), (moduleBytes 1 1 0x70, 0), (moduleBytes 0 0 0x70, 0)],
      let r := finRec 0x9000 0xA000 y.2 0xC000
      let s := mailbox r y.1
      let x := (s.wr .MGC_MBOX_CTRL_CMD 1).mgcRead (s.addrOf .MGC_MBOX_ARG_ADDR) 32
      let z := x.1.mgcRead 0x9000 32
      MboxTakes s ∧ x.2 = some r ∧ leAt r 0 8 = 0x9000 ∧ leAt r 8 8 = 0xA000 ∧ leAt r 24 8 = 0xC000 ∧ leAt r 20 4 = 0 ∧
        x.1.usableRange 0xC000 16 = true ∧ x.1.usableRange 0x9000 32 = true ∧ x.1.usableRange 0xA000 (leAt r 16 4) = true ∧
        z.2 = some (y.1.take 32)) ∧
    headerErr ((moduleBytes 0 0 0x70).take 32) = some (.badHeader 8) ∧
    headerErr ((moduleBytes 1 0 0x70).take 32) = none ∧
    (∀ y ∈ [(moduleBytes 1 0 0x70, true), (moduleBytes 1 1 0x70, false)],
      let s := mailbox (finRec 0x9000 0xA000 0 0xC000) y.1
      s.usableRange 0x9000 40 = true ∧ (s.mgcRead 0x9000 40).2 = some (y.1.take 40) ∧
        (parseModule (y.1.take 40)).isOk = y.2) ∧
    (let r := finRec 25769776096 0xA000 0 0xC000
     let s := mailbox r []
     let s := { s with mem := { s.mem with l2 := s.mem.l2 ++ sectors (25769776096 / 32) 1 (moduleBytes 1 0 0x70) } }
     let x := (s.wr .MGC_MBOX_CTRL_CMD 1).mgcRead (s.addrOf .MGC_MBOX_ARG_ADDR) 32
     let z := x.1.mgcRead 25769776096 32
     MboxTakes s ∧ x.2 = some r ∧ x.1.usableRange 25769776096 32 = true ∧ z.2 = some ((moduleBytes 1 0 0x70).take 32) ∧
       z.1.usableRange 25769776096 40 = false) := by
  unfold MboxTakes; decide +kernel

/-! An image that is signed and sealed: six components of 16 zero bytes, in a plaintext of 600. -/

/-- The ciphertext of 600 zero bytes under the key 0 and the IV 0, and the tag of header and text (SP 800-38D). -/
def sealed : List Byte :=
  toBe 56 0xcea7403d4d606b6e074ec5d3baf39d18726003ca37a62a74d1a2f58e7506358edd4ab1284d4ae17b41e85924470c36f74741cbe181bb7f30 ++
  toBe 56 0x617c1de3ab0c3a1fd0c48f7321a82d376095ace0419167a0bcaf49b0c0cea62de6bc1c66545e1dadabfa77cd6e85da245fb0bdc5e52cfc29 ++
  toBe 56 0xba0ae1ab2837e0f36387b70e931760124362c2bb66d8f4b137fce8342c9cd386a1144296e27268a8e50df537a805d579bb21ebbdf357ed34 ++
  toBe 56 0xbf58b5837150ddcaf362225e620a6070ac5ef529fb522466768b78c04b54e51ef5fa07e506a35fc6b0b710249c8626e1a96ad57828d7be2e ++
  toBe 56 0x1490a05a7cee43bde98b56e309dc01264ed6df6e82c1bfc72a59ad53a9c0e4347d6c5278507940a7def6ba93e8b6af1e46537276611bc766 ++
  toBe 56 0x955c587d301ba847acc9dda78a438e2c0a69d514744c72d34f326b9b7ef34286ca0ef8a7eae06ebe669c537212402dcb5feae99d76c7f4a7 ++
  toBe 56 0x6abdb79c0dfaa038a0e2282c730ed48b869dac2f168ecf3ea610e61fac512c8e95fb8c06de62bc76695551358adb864cc268f914b49ab3aa ++
  toBe 56 0x20edfdb2d172798137b4b3d8ddd17522eb2cbfe4dc47cf9fb0fa1ccd23dedb5693d1f50ae4eddee70820b0f7c6e073089e2d1dfd97b06c32 ++
  toBe 56 0xa50036d8284dbf3468292ee0b62ec87c887cb1eb76b46720104130dbf1966387482dc43f2388ef25d24144e144bd834e448e7da3bfa6eaf9 ++
  toBe 56 0xbcda215cba500cf3b95cb432d195129fc3945f87d1862ca4d6ea8ff1201034dc4d328ff5fd73a9096234d379e4cfbf9c36f6589a8a2ce98a ++
  toBe 56 0x5fe4d97103bc15c5c4021d3396c1932b375036141acaf69d3f03b779c9e61a031f52d7ea9c6ddd5c16a3eb40a5c4c531f5185d379eb9b32c

/-- EMSA-PSS of the image, with a salt of 64 zero bytes (RFC 8017). -/
def imageSig : List Byte :=
  toBe 64 0x2e3a9bfc2abbb6b0458da00986f6e98cdd18878f8856ab39280d96a6e07cb0ededec9d0613420cee98eef60c952a1747125f226b25b07fef50fb6979c77f66a7 ++
  toBe 64 0xf1db3e6785b5d88b9104647e4701d86a3e70495f5e6989d8e71655c3c7c69efdd964a326f4c9111b6b0d7db3b2da3babd7cf6480ba777f3674b144a6e9c7fe0c ++
  toBe 64 0xe7b593e771b69b0a70637ff67b0961bb6de17bdf10d679f700e4cacb524ca1cb43daee6b3934b4425d39ad74b8fb9b8c107fae208a913b840dc1c1f1d001dded ++
  toBe 64 0x89203a65ed380cd9fefcc4053e556b108ec6846e5eba778e6465fe2c17d03fc400539ee5c69829d3e593eb284c31a6cc66b2aef00a4c02efedba0eef543df2f9 ++
  toBe 64 0x9324c7fbf6dd511941409fa183275d8d65b9cc7cb6d31749699a458a995fd7bebbb097a4f204b95bde927904b7c7413afcc11a98178c01fba77137916a902787 ++
  toBe 64 0x84240fdb4412d5aaafb71a75273b4294ebd63195d132d22c791ffc84e5a6071a731e6f73c437a8b080d3b336152a519ec9ec38241ec9349c63b0d38ae1bf9a5f ++
  toBe 64 0xeb001f70205145428414dcf588a39b2210e04b5df0534a489dcec62f808394df3bd50e2f17a32ae8ff219dfcc080b504c25f448e4211f6c57e017f5f5e28cb7b ++
  toBe 64 0xfa33cbaf882d43543e69f33e22be425a1e72e3fecdee4fe7c41b007c2cc9c70c31005d15804b7a1a3b40ba07a0ba7ee4458906c9e2430b65160deb6cb03470bc

/-- The image's header. -/
def imageHeader : List Byte :=
  slice (toLe 4 0x494D5254 ++ [0, 1, 0, 0] ++ toLe 4 2232 ++ toLe 4 1 ++ toLe 8 5 ++ toLe 4 1 ++ toLe 4 7 ++ [6, 0] ++ toLe 30 0 ++
    (List.range 6).flatMap (fun i => toLe 4 i ++ toLe 4 (16 * i) ++ toLe 4 16 ++ toLe 20 0) ++ toLe 320 0) 0 576

/-- The image. -/
def imageFile : List Byte :=
  imageHeader ++ sealed ++ toLe 2 0x7FFF ++ toLe 2 1040 ++ toLe 4 0 ++ testKey ++ toLe 4 0 ++ imageSig

/-- Fuses that take it. -/
def keyed : Fuses := { imgKeys := [testDigest] }

/-- An image whose three checks pass is taken. -/
theorem image_taken (f : Fuses) (bs : List Byte) (avail slot : Nat) (h1 : imageHeaderCause f.svn bs avail = cOk)
    (h2 : imageMarkCause f bs = cOk) (h3 : imageTagOk f bs = true) : (checkImage f bs avail slot).isOk = true := by
  simp [checkImage, h1, h2, h3, Except.isOk, Except.toBool]

/-- The image passes its checks. -/
theorem test_image_header : imageHeaderCause keyed.svn imageFile 0x1800000 = cOk ∧ imageHeaderCause keyed.svn imageFile 2232 = cOk := by
  decide +kernel
theorem test_image_mark : imageMarkCause keyed imageFile = cOk := by decide +kernel
theorem test_image_tag : imageTagOk keyed imageFile = true := by decide +kernel

/-- An image of a slot, and a log's records. -/
def runs (slot : Nat) : Image := ⟨5, 1, 0, 1, 2, slot, 0x34, []⟩

/-- Slot 0 is active: its COMMIT. -/
def committed : LogRec := ⟨1, 6, 0, 0, 5, 0, 0, 0⟩

/-- Slot 1 is on trial. -/
def staged : LogRec := ⟨2, 5, 1, 0, 5, 0, 0, 0⟩

theorem test_has_UpdatesAreCheckedAndLogged_stage :
    (∀ log ∈ [[], [committed]],
      let r := toLe 8 0x200000 ++ toLe 4 0x1800000 ++ toLe 4 0
      let s := (mailbox r []).wrAddr .FLT_FW_STAGE_ADDR 0x200000
      let s := { s with mgc := { s.mgc with log := log } }
      let x := (s.wr .MGC_MBOX_CTRL_CMD 2).mgcRead (s.addrOf .MGC_MBOX_ARG_ADDR) 16
      MboxTakes s ∧ x.2 = some r ∧ leAt r 0 8 = x.1.addrOf .FLT_FW_STAGE_ADDR ∧ leAt r 8 4 ≤ 0x1800000 ∧
        x.1.ringed = false ∧ x.1.stageBusy = decide (log = [])) ∧
    ((mailbox [] []).wrAddr .FLT_FW_STAGE_ADDR 0x200000 |>.checkStaged 0x1800000 1).isOk = false := by
  unfold MboxTakes; decide +kernel

theorem test_has_UpdatesAreCheckedAndLogged_commit :
    (let s : State := { chip with mgc := { chip.mgc with log := [committed], image := some (runs 0) } }
     MboxTakes s ∧ s.rd .MGC_MBOX_ARG_ADDR = 0 ∧ s.onTrial = false ∧ trialSlot s.mgc.log = none) ∧
    (let s : State := { chip with mgc := { chip.mgc with log := [staged, committed], image := some (runs 1) } }
     MboxTakes s ∧ s.rd .MGC_MBOX_ARG_ADDR = 0 ∧ s.onTrial = true ∧ trialSlot s.mgc.log = some 1) := by
  unfold MboxTakes; decide +kernel

theorem test_has_UpdatesAreCheckedAndLogged_furnish :
    (∀ a ∈ [0x9004, 0x9000],
      let r := toLe 8 a ++ toLe 4 1 ++ toLe 4 0
      let s := (mailbox r []).wr .MEM_DRAM_SIZE_BYTES (0x9000 + 64)
      let x := (s.wr .MGC_MBOX_CTRL_CMD 7).mgcRead (s.addrOf .MGC_MBOX_ARG_ADDR) 16
      MboxTakes s ∧ x.2 = some r ∧ (a % 8 = 0 → 64 ≤ (x.1.loadBytes a).length)) := by
  unfold MboxTakes; decide +kernel

theorem test_has_ReportsAreWritten :
    (∀ y ∈ [(0x9020, 1904), (0x9040, 1903), (25769776128 - 64, 1904), (0x9040, 1904)],
      let r := toLe 8 y.1 ++ toLe 4 y.2 ++ toLe 4 0 ++ List.replicate 32 7
      let s := mailbox r []
      let x := (s.wr .MGC_MBOX_CTRL_CMD 5).mgcRead (s.addrOf .MGC_MBOX_ARG_ADDR) 48
      MboxTakes s ∧ x.2 = some r ∧ x.1.usableRange y.1 1904 = decide (y.1 < 25769776128 - 64)) ∧
    (∀ y ∈ [(0x9020, 4623), (0x9020, 4624)],
      let r := toLe 8 y.1 ++ toLe 4 y.2 ++ toLe 4 0
      let s := mailbox r []
      let s := { s with mgc := { s.mgc with fuses := { s.mgc.fuses with identity := List.replicate 516 5, cert := List.replicate 9 6 } } }
      let x := (s.wr .MGC_MBOX_CTRL_CMD 6).mgcRead (s.addrOf .MGC_MBOX_ARG_ADDR) 16
      MboxTakes s ∧ x.2 = some r ∧ x.1.usableRange y.1 537 = true) := by
  unfold MboxTakes; decide +kernel

/-- The chip before a start of the MGC, with a log. -/
def starting (log : List LogRec) (svc : Bool) : State :=
  { (chip.wr .MGC_BOOT_STATUS_STAGE 0) with
    mgc := { chip.mgc with booted := false, log := log }
    pins := { chip.pins with straps := { chip.pins.straps with svcMode := svc }, dram := 24 * 2 ^ 30 } }

/-- A flash that holds a run of bytes reads them. -/
theorem storeGet_run (d : Byte) (f : Nat → Byte) (n : Nat) : ∀ a k : Nat,
    storeGet d ((List.range' a n).map (fun i => (i, f i))) k = if a ≤ k ∧ k < a + n then f k else d := by
  induction n with
  | zero => intro a k; rw [if_neg (by omega)]; rfl
  | succ n ih =>
    intro a k
    simp only [List.range'_succ, List.map_cons, storeGet]
    by_cases h : k = a
    · subst h; rw [if_pos rfl, if_pos (by omega)]
    · rw [if_neg h, ih]
      by_cases h2 : a + 1 ≤ k ∧ k < a + 1 + n
      · rw [if_pos h2, if_pos (by omega)]
      · rw [if_neg h2, if_neg (by omega)]

/-- A boot flash that holds the image in slot 0. -/
def flashed : State :=
  let s := starting [committed] false
  { s with mgc := { s.mgc with flash := (List.range' 0 2232).map (fun i => (i, imageFile.getD i 0)), fuses := keyed } }

/-- What a start reads of the flash. -/
theorem flashed_reads (n : Nat) (h : n ≤ 2232) : flashed.flashBytes (slotBase 0 + 0) n = imageFile.take n := by
  have hl : imageFile.length = 2232 := by decide +kernel
  unfold State.flashBytes memRead storeGetMany
  apply List.ext_getElem
  · simp [hl, h]
  · intro i h1 h2
    simp only [List.length_map, List.length_range] at h1
    have hf : flashed.mgc.flash = (List.range' 0 2232).map (fun i => (i, imageFile.getD i 0)) := rfl
    simp only [List.getElem_map, List.getElem_range, List.getElem_take, hf, storeGet_run]
    simp only [slotBase, Nat.zero_mul, Nat.zero_add]
    rw [if_pos (by omega)]
    simp [List.getD, hl, show i < 2232 by omega]

theorem test_has_StartsPickASlot_loads :
    flashed.live = true ∧ flashed.mgc.booted = false ∧ flashed.pins.straps.svcMode = false ∧
      trialSlot flashed.mgc.log = none ∧ activeFails flashed.mgc.log (activeSlot flashed.mgc.log) < 2 ∧
      activeSlot flashed.mgc.log = 0 ∧ flashed.pins.dram < 2 ^ 44 ∧ (flashed.loadSlot 0).isOk = true := by
  refine ⟨?_, ?_, ?_, ?_, ?_, ?_, ?_, ?_⟩
  iterate 7 decide +kernel
  have h1 : leAt (imageFile.take 576) 8 4 = 2232 ∧ imageFile.length = 2232 := by decide +kernel
  have h : imageRead (fun o n => flashed.flashBytes (slotBase 0 + o) n) = imageFile := by
    simp only [imageRead, flashed_reads 576 (by omega), h1.1, flashed_reads 2232 (by omega)]
    exact List.take_of_length_le (by omega)
  have hf : flashed.mgc.fuses = keyed := rfl
  rw [State.loadSlot, h, hf]
  exact image_taken _ _ _ _ test_image_header.1 test_image_mark test_image_tag

theorem test_has_StartsPickASlot :
    chip.mgc.booted = true ∧
    (let s := starting [] true
     s.live = true ∧ s.mgc.booted = false ∧ s.pins.straps.svcMode = true) ∧
    (let s := starting [staged, committed] false
     s.live = true ∧ s.mgc.booted = false ∧ s.pins.straps.svcMode = false ∧ activeSlot s.mgc.log < 2 ∧
       (s.loadSlot 0).isOk = false ∧ (s.loadSlot 1).isOk = false) ∧
    (let s := starting [committed] false
     s.live = true ∧ s.mgc.booted = false ∧ s.pins.straps.svcMode = false ∧ trialSlot s.mgc.log = none ∧
       activeFails s.mgc.log (activeSlot s.mgc.log) < 2 ∧ activeSlot s.mgc.log < 2 ∧ s.pins.dram < 2 ^ 44) := by
  decide +kernel

theorem test_has_ServicePortActs :
    (let s : State := { chip with mgc := { chip.mgc with log := [committed] } }
     s.svcLive = true ∧ s.inRecovery = false ∧ s.logHeld[0]? = some committed ∧ s.logHeld.length ≤ (1 : BitVec 16).toNat) ∧
    (let s := chip.wr .MGC_BOOT_STATUS_STAGE 6
     s.svcLive = true ∧ s.inRecovery = true ∧ s.flashBusy = false ∧ s.mgc.received < 2232 ∧
       8388608 < (8388600 : BitVec 24).toNat + [(1 : Byte), 2, 3, 4, 5, 6, 7, 8, 9].length ∧
       (8388600 : BitVec 24).toNat + [(1 : Byte), 2, 3, 4, 5, 6, 7, 8].length ≤ 8388608) := by decide +kernel
/-! ### Registers, freeze, JTAG, SMBus, pins and resets -/

/-- The register that an offset of the PF's BAR0 names. -/
def registerAt (s : State) (off : Nat) : Option RegAt :=
  match s.place 0 off with
  | .reg a => some a
  | _ => none

theorem test_has_RegisterReadsAnswer :
    (chip.powered = true ∧ (chip.fnCfg 0).d3hot = false ∧ chip.bar0Open 0xD01688 = true ∧
      registerAt chip 0xD01688 = some ⟨.PWR_DOM_COUNT, 104, 0, 0⟩ ∧ regDomain ⟨.PWR_DOM_COUNT, 104, 0, 0⟩ = none ∧
      latchedRegs.contains .PWR_DOM_COUNT = false ∧ Field.spec .PWR_DOM_COUNT_REFUSED = ⟨.PWR_DOM_COUNT, 31, 16, .rc, 0⟩) ∧
    (chip.bar0Open 0x200000 = true ∧ registerAt chip 0x200000 = some ⟨.SCH_POOL_SLICE, 0, 0, 0⟩ ∧
      regDomain ⟨.SCH_POOL_SLICE, 0, 0, 0⟩ = none ∧ ∀ f ∈ Reg.fields .SCH_POOL_SLICE, f.spec.ty ≠ .rc) ∧
    (let s : State := { chip with sync := { chip.sync with words := [(latchKey ⟨.HB_MO, 4095, 0, 7⟩ 7, 5)] } }
     s.powered = true ∧ (s.fnCfg 0).d3hot = false ∧ s.bar0Open 0x12FFE0 = true ∧ registerAt s 0x12FFE0 = some ⟨.HB_MO, 4095, 0, 0⟩ ∧
      regDomain ⟨.HB_MO, 4095, 0, 0⟩ = none ∧ latchedRegs.contains .HB_MO = true ∧ registerAt s 0x12FFFC = some ⟨.HB_MO, 4095, 0, 7⟩ ∧
      s.bar0Open 0x12FFFC = true ∧ Reg.spec .HB_MO = ⟨0x110000, 8, 4096, 0x20, 1, 0, .pfOnly⟩ ∧
      storeFind s.sync.words (latchKey ⟨.HB_MO, 4095, 0, 7⟩ 7) = some 5) := by decide +kernel

theorem test_has_RegisterWritesAct :
    (let a : RegAt := ⟨.SCH_POOL_SLICE, 0, 0, 0⟩
     chip.powered = true ∧ (chip.fnCfg 0).d3hot = false ∧ registerAt chip 0x200000 = some a ∧ regDomain a = none ∧
       (14 : BitVec 4) ≠ 15 ∧ chip.writeOpen 0 0x200000 = true ∧ Field.ownRow .SCH_POOL_SLICE_UNITS = false ∧
       Field.spec .SCH_POOL_SLICE_UNITS = ⟨.SCH_POOL_SLICE, 23, 0, .rw, 1000⟩ ∧
       chip.fieldOpen .SCH_POOL_SLICE_UNITS a (chip.written .SCH_POOL_SLICE_UNITS a 9) 9 = true ∧
       chip.rd .SCH_POOL_SLICE_UNITS < 2 ^ Field.width .SCH_POOL_SLICE_UNITS) ∧
    (frozenChip.frozen = true ∧ frozenChip.powered = true ∧ inDbg 0x200000 = false ∧
      registerAt frozenChip 0x200000 = some ⟨.SCH_POOL_SLICE, 0, 0, 0⟩) ∧
    (let s := chip.wr .MGC_BOOT_STATUS_STAGE 6
     s.frozen = false ∧ s.inRecovery = true ∧ s.powered = true ∧ registerAt s 0x200000 = some ⟨.SCH_POOL_SLICE, 0, 0, 0⟩) ∧
    (registerAt chip 0xD00010 = some ⟨.PWR_DVFS, 0, 0, 0⟩ ∧ regDomain ⟨.PWR_DVFS, 0, 0, 0⟩ = none ∧ chip.writeOpen 0 0xD00010 = true ∧
      Field.ownRow .PWR_DVFS_VOP = true ∧ recordFields .PWR_DVFS = []) := by decide +kernel

theorem test_has_UndefinedOffsetsReadZero :
    (∀ off ∈ [0x7FFC, 0x1FFFFFC], chip.powered = true ∧ chip.barUp 0 off = true ∧ off < 2 ^ 26 ∧ off < 0x2000000 ∧
      Reg.decode off = none) ∧
    (let s : State := { chip with pcie := { chip.pcie with vfEnable := true, numVfs := 1 } }
     s.powered = true ∧ s.barUp 1 0xFFFFC = true ∧
       (match s.place 1 0xFFFFC with | .nothing => true | _ => false) = true) := by decide +kernel

/-- The running chip whose software has GPIO 3 and ZT2. -/
def software : State := { chip with furn := { chip.furn with claims := [(3, ⟨0x0E, 1⟩), (0x12, ⟨0x0E, 1⟩)] } }

theorem test_has_SoftwarePinsOnly :
    software.powered = true ∧ (software.fnCfg 0).d3hot = false ∧ software.writeOpen 0 0x5004 = true ∧
      software.softHolds 3 = true ∧ software.softHolds 15 = false ∧ software.softHolds 0 = false ∧ software.softHolds 0x12 = true ∧
      chip.softHolds 0x12 = false ∧ chip.pfWrites = true ∧ software.pfWrites = true := by decide +kernel

theorem test_has_FreezesStopTheClocks :
    (let s : State := { chip with pins := { chip.pins with resetN := false } }
     s.powered = false) ∧
    (chip.powered = true ∧ chip.frozen = false ∧ chip.inReset = false ∧ (chip.fnCfg 0).d3hot = false ∧
      chip.inRecovery = false ∧ (0x465A : BitVec 16) ≠ 0x465B) ∧
    (frozenChip.powered = true ∧ frozenChip.frozen = true) ∧
    (let s : State := { chip with mgc := { chip.mgc with devReset := true, booted := false } }
     s.powered = true ∧ s.inReset = true) := by decide +kernel

theorem test_has_TheApertureMirrors :
    frozenChip.powered = true ∧ (frozenChip.fnCfg 0).d3hot = false ∧ frozenChip.frozen = true ∧
      (∀ off ∈ [0, 0xFFFFFC, 0x1000000, 0x1FFFFFC], off < 2 ^ 25 ∧ off % 4 = 0) ∧
      (0xFFFFFC : BitVec 25).toNat < 0x1000000 := by decide +kernel

theorem test_has_JtagReachesTheAperture :
    (∀ a ∈ [0x2000000, 0x2FFFFF8], let s : State := { chip with tap := { chip.tap with apAddr := a } }
      0x2000000 ≤ s.tap.apAddr ∧ s.tap.apAddr < 0x3000000 ∧ inDbg s.tap.apAddr = false) ∧
    (let s : State := { chip with tap := { chip.tap with apAddr := 0xF00000 } }
     s.tap.apAddr = 0xF00000 ∧ s.powered = true ∧ s.frozen = false ∧ s.inReset = false) ∧
    (chip.pins.resetN = true ∧ ({ chip with pins := { chip.pins with resetN := false } } : State).pins.resetN = false) := by
  decide +kernel

theorem test_has_SmbusAnswers :
    8 < (9 : Byte).toNat ∧ chip.pins.smbAlert = false ∧
      ({ chip with pins := { chip.pins with smbAlert := true } } : State).pins.smbAlert = true := by decide +kernel

theorem test_has_ResetsClearTheChip :
    ({ chip with pins := { chip.pins with pwrok := false } } : State).pins.pwrok = false ∧ chip.powered = true ∧
    chip.rd .PWR_WEAR_SECONDS < 2 ^ 32 ∧
    (let s : State := { chip with pins := { chip.pins with perstN := false } }
     s.pins.pwrok = true ∧ s.powered = false) ∧
    (let s : State := { chip with furn := { chip.furn with claims := [(9, ⟨9, 0xFE⟩), (0x11, ⟨9, 0xFE⟩)] } }
     s.powered = true ∧ s.featureOn 0x09 = true ∧ chip.featureOn 0x09 = false) ∧
    (software.pfWrites = true ∧ software.softHolds 0x12 = true ∧ chip.pfWrites = true ∧ chip.softHolds 0x12 = false) := by
  decide +kernel
end Sys2Proof.Tests
end

