-- ==== Sys2Proof/Proofs/Issue.lean ====
section
/-!
PROOF. What an instruction that issues does: the state it acts in, what the issue counters and the register cache leave
unchanged, and the frame of putting its quire back.
-/

namespace Sys2Proof.Machine

/-! ### Vats, quires and counters -/

/-- Of every vat, `setQuire` changes the quires only. -/
theorem State.vat_setQuire (s : State) (n k m : Nat) (q : Quire) :
    (s.setQuire n k q).vat m = { s.vat m with quires := ((s.setQuire n k q).vat m).quires } := by
  unfold State.setQuire
  by_cases e : m = n
  · subst e
    simp only [State.vat_setVat_same]
  · rw [State.vat_setVat_ne _ _ e]

/-- A count leaves every other register element as it was. -/
theorem State.rd_count_ne (s : State) {f g : Field} {i j i' j' : Nat} (k : Nat) (hi : i < 65536) (hj : j < 65536)
    (hi' : i' < 65536) (hj' : j' < 65536) (h : (g, i', j') ≠ (f, i, j)) :
    (s.count f k i j).rd g i' j' = s.rd g i' j' := by
  refine State.rd_wr_ne s fun e => h ?_
  obtain ⟨rfl, rfl, rfl⟩ := Field.key_inj hi' hj' hi hj e
  rfl

/-- Without a pending pre-emption of the vat no block is saved (R309). -/
theorem State.trySave_of_calm {s : State} {vat : Nat} (b : Nat) (h : (s.vat vat).preempt = []) : s.trySave vat b = s := by
  simp only [State.trySave, h, List.contains_nil, Bool.false_and, Bool.false_eq_true, if_false]
  split
  · rfl
  · split <;> rfl

/-! ### The register cache -/

/-- What the register cache's step can be: nothing, or a new row list of the vat with the two counts (R52, R53). -/
theorem State.rcStep_cases (s : State) (c : BCtx) :
    s.rcStep c = s ∨ ∃ rc hits stalls, s.rcStep c =
      ((s.setVat c.vat { s.vat c.vat with rc := rc }).count .VAT_RC_HITS_COUNT hits c.vat).count
        .VAT_BANK_STALLS_COUNT stalls c.vat := by
  unfold State.rcStep
  split
  · exact .inl rfl
  · exact .inr ⟨_, _, _, rfl⟩

/-- Of every vat, the register cache's step changes the cache only. -/
theorem State.vat_rcStep (s : State) (c : BCtx) (n : Nat) :
    (s.rcStep c).vat n = { s.vat n with rc := ((s.rcStep c).vat n).rc } := by
  obtain h | ⟨rc, hits, stalls, h⟩ := s.rcStep_cases c
  · rw [h]
  · rw [h]
    simp only [State.count, State.vat_wr]
    by_cases e : n = c.vat
    · subst e
      simp only [State.vat_setVat_same]
    · rw [State.vat_setVat_ne _ _ e]

/-- The register cache's step changes registers and vats only. -/
theorem State.rcStep_frame (s : State) (c : BCtx) :
    s.rcStep c = { s with regs := (s.rcStep c).regs, vats := (s.rcStep c).vats } := by
  obtain h | ⟨rc, hits, stalls, h⟩ := s.rcStep_cases c
  · rw [h]
  · rw [h]
    rfl

/-- Of the registers, the register cache's step changes its two counters only. -/
theorem State.rd_rcStep (s : State) (c : BCtx) (hc : c.vat < 65536) {f : Field} {i j : Nat} (hi : i < 65536)
    (hj : j < 65536) (hh : (f, i, j) ≠ (.VAT_RC_HITS_COUNT, c.vat, 0))
    (hb : (f, i, j) ≠ (.VAT_BANK_STALLS_COUNT, c.vat, 0)) : (s.rcStep c).rd f i j = s.rd f i j := by
  obtain h | ⟨rc, hits, stalls, h⟩ := s.rcStep_cases c
  · rw [h]
  · rw [h, State.rd_count_ne _ _ hc (by decide) hi hj hb, State.rd_count_ne _ _ hc (by decide) hi hj hh]
    exact State.rd_congr (State.setVat_regs _ _ _) f i j

/-! ### Registers of a quire -/

/-- A write of an s register operand changes the s registers only. -/
theorem Quire.putReg_of_s (q : Quire) {d : Nat} (lane x : Nat) (h : okind d = .s) :
    q.putReg d lane x = { q with s := storePut (d - 256) (BitVec.ofNat 32 x) q.s } := by
  unfold okind at h
  unfold Quire.putReg
  by_cases hv : d < 256
  · simp [hv] at h
  · by_cases hs : d < 320
    · rw [if_neg hv, if_pos hs]
    · rw [if_neg hv, if_neg hs] at h
      split_ifs at h

/-- An s register after a write of one. -/
theorem Quire.sreg_storePut (q : Quire) (r x r' pc : Nat) :
    Quire.sreg { q with s := storePut r (BitVec.ofNat 32 x) q.s, pc := pc } r' =
      if r' = r then x % 2 ^ 32 else q.sreg r' := by
  unfold Quire.sreg
  simp only [storeFind_put]
  by_cases e : r' = r
  · rw [if_pos e, if_pos e]
    exact BitVec.toNat_ofNat x 32
  · rw [if_neg e, if_neg e]

end Sys2Proof.Machine

namespace Sys2Proof.Claims
open Sys2Proof.Machine

/-! ### The state in which an issued instruction acts -/

/-- Counting an instruction changes registers and vats only. -/
theorem counted_frame (s : State) (c : BCtx) :
    Counted s c = { s with regs := (Counted s c).regs, vats := (Counted s c).vats } :=
  State.rcStep_frame _ c

/-- Of every vat, counting an instruction changes the register cache only. -/
theorem vat_counted (s : State) (c : BCtx) (n : Nat) :
    (Counted s c).vat n = { s.vat n with rc := ((Counted s c).vat n).rc } :=
  State.vat_rcStep _ c n

/-- Of the registers, counting an instruction changes the issue counters of its vat only. -/
theorem countersOnly_counted (s : State) (c : BCtx) (hc : c.vat < 65536) : CountersOnly s (Counted s c) c.vat := by
  intro f i j hi hj hmem
  simp only [List.mem_cons, List.not_mem_nil, or_false, not_or] at hmem
  obtain ⟨hissued, hhits, hstalls⟩ := hmem
  exact (State.rd_rcStep _ c hc hi hj hhits hstalls).trans (State.rd_count_ne s 1 hc (by decide) hi hj hissued)

/-- Putting back the quire of a counted instruction changes nothing else. -/
theorem onlyQuire_put_counted (s : State) (c : BCtx) (q : Quire) (hc : c.vat < 65536) :
    OnlyQuire s (c.put (Counted s c) q) c := by
  have hvat (n : Nat) : (c.put (Counted s c) q).vat n = { s.vat n with
      quires := ((c.put (Counted s c) q).vat n).quires, rc := ((Counted s c).vat n).rc } := by
    unfold BCtx.put
    rw [State.vat_setQuire, vat_counted]
  refine ⟨fun f i j hi hj hmem => ?_, ⟨fun v n hne => ?_, fun v b => ?_, fun v => ?_⟩, ?_⟩
  · exact (State.rd_congr rfl f i j).trans (countersOnly_counted s c hc f i j hi hj hmem)
  · calc (c.put (Counted s c) q).quire v n = (Counted s c).quire v n := State.quire_setQuire_ne _ q hne
      _ = s.quire v n := by unfold State.quire; rw [vat_counted]
  · unfold State.block
    rw [hvat]
  · rw [hvat]
    exact ⟨rfl, rfl, rfl, rfl, rfl, rfl⟩
  · conv_lhs => unfold BCtx.put; rw [counted_frame]
    rfl

/-! ### Instructions that issue -/

section
variable {s : State} {vat slot : Fin 64} {op : Nat} {c : BCtx} {cmd : Instr} {q : Quire}

/-- An instruction that issues acts on the counted state, and then its block may be saved (R97, R98, R309). -/
theorem Issues.issue_eq (h : Issues s vat slot op c) (k : State → BCtx → State) :
    s.issue vat slot op k = (k (Counted s c) c).trySave vat c.q.block := by
  obtain ⟨hlive, hready, hinst, hcode, ⟨hvat, hslot⟩, hlanes, hlegal, hrange, -⟩ := h
  have hc : (⟨vat, slot, c.q, c.blk, c.l, c.i⟩ : BCtx) = c := by rw [← hvat, ← hslot]
  unfold State.issue Counted
  simp only [hlive, hready, hinst, hcode, hlanes, hlegal, hrange, hc, hvat, Bool.not_true, Bool.false_eq_true, if_false,
    ne_eq, not_true_eq_false]

/-- An instruction that only puts a quire back makes that its quire and changes nothing else. -/
theorem Issues.quireBecomes (h : Issues s vat slot op c) {k : State → BCtx → State}
    (hexec : exec cmd s = .next (s.issue vat slot op k)) (hk : k (Counted s c) c = c.put (Counted s c) q) :
    QuireBecomes cmd s c q := by
  have hlt : c.vat < 65536 := by
    have := vat.isLt
    have := h.place.1
    omega
  have hcalm : ((c.put (Counted s c) q).vat vat).preempt = [] := by
    unfold BCtx.put
    rw [State.vat_setQuire, vat_counted]
    exact h.calm
  refine ⟨c.put (Counted s c) q, ?_, State.quire_setQuire_same _ _ _ _, onlyQuire_put_counted s c q hlt⟩
  rw [hexec, h.issue_eq, hk, State.trySave_of_calm _ hcalm]

end

end Sys2Proof.Claims
end

