-- ==== Sys2Proof/Proofs/ControlFlow.lean ====
section
/-!
PROOF. The control instructions: what each puts back as its quire (R63, R65, R73, R98, R105, R120), and O29.
-/

namespace Sys2Proof.Machine

/-! ### The exchange of YIELD -/

section
variable (q : Quire) (next : Nat)

/-- YIELD's exchange takes the PENDING entry nearest the top; the running path takes its place (R73). -/
theorem Quire.yieldPath_swap_pending {top rest : List StackEntry} {m : Word} {a : Nat}
    (htop : ∀ e ∈ top, e.pending = false) :
    Quire.yieldPath.swap q next (top ++ ⟨true, m, a⟩ :: rest) =
      some (⟨true, m, a⟩, top ++ ⟨true, q.active, next⟩ :: rest) := by
  induction top with
  | nil => rfl
  | cons e top ih =>
    obtain ⟨he, htop⟩ := List.forall_mem_cons.mp htop
    simp only [List.cons_append, Quire.yieldPath.swap, he, ih htop, Bool.false_eq_true, if_false, Option.map_some]

/-- Without a PENDING entry YIELD exchanges nothing. -/
theorem Quire.yieldPath_swap_none {st : List StackEntry} (h : ∀ e ∈ st, e.pending = false) :
    Quire.yieldPath.swap q next st = none := by
  induction st with
  | nil => rfl
  | cons e st ih =>
    obtain ⟨he, hst⟩ := List.forall_mem_cons.mp h
    simp only [Quire.yieldPath.swap, he, ih hst, Bool.false_eq_true, if_false, Option.map_none]

variable {q}

/-- The running path and the PENDING entry nearest the top change places. -/
theorem Quire.yieldPath_of_pending {top rest : List StackEntry} {m : Word} {a : Nat}
    (hq : q.stack = top ++ ⟨true, m, a⟩ :: rest) (htop : ∀ e ∈ top, e.pending = false) :
    q.yieldPath next = { q with active := m, pc := a, stack := top ++ ⟨true, q.active, next⟩ :: rest } := by
  simp only [Quire.yieldPath, hq, Quire.yieldPath_swap_pending q next htop]

/-- Without a PENDING entry the running path goes on. -/
theorem Quire.yieldPath_of_none (h : ∀ e ∈ q.stack, e.pending = false) : q.yieldPath next = { q with pc := next } := by
  simp only [Quire.yieldPath, Quire.yieldPath_swap_none q next h]

end

/-! ### Branches and jumps -/

section
variable {c : BCtx} (s : State)

/-- A branch of every active lane jumps and pushes nothing (R65). -/
theorem BCtx.branch_of_uniform (h : c.mask = c.q.active) : c.branch s = c.put s { c.q with pc := c.i.target } :=
  if_pos h

/-- A branch of some lanes pushes the others as a PENDING entry at the next instruction (R63). -/
theorem BCtx.branch_of_divergent (h : c.mask ≠ c.q.active) (hroom : c.q.stack.length < 32) :
    c.branch s = c.put s { c.q with
      stack := ⟨true, c.q.active &&& ~~~c.mask, c.i.next⟩ :: c.q.stack
      active := c.mask
      pc := c.i.target } :=
  (if_neg h).trans (if_neg (by omega))

/-- A jump to an instruction start goes there. -/
theorem BCtx.jump_of_isStart (h : isStart c.l.mod.code false (c.q.sreg (c.i.a - 256)) = true) :
    c.jump s = c.put s { c.q with pc := c.q.sreg (c.i.a - 256) } :=
  if_pos h

end

/-- A legal CALL names an s register as D (R106). -/
theorem okind_d_of_legal_call {i : BInst} (hop : i.op = 0x73) (h : legal i = true) : okind i.d = .s := by
  have hdest : destOk i ⟨[3], .none, true, false, false, false⟩ = true := by
    simp only [legal, hop, show opSpec 0x73 = some ⟨[3], .none, true, false, false, false⟩ from rfl,
      show isTensor 0x73 = false from rfl, Bool.false_eq_true, if_false, Bool.and_eq_true] at h
    tauto
  simpa [destOk, hop] using hdest

end Sys2Proof.Machine

namespace Sys2Proof.Claims
open Sys2Proof.Machine

section
variable {s : State} {vat slot : Fin 64} {c : BCtx}

theorem nop_movesOn (h : Issues s vat slot 0x70 c) : QuireBecomes (.nop vat slot) s c { c.q with pc := c.i.next } :=
  h.quireBecomes rfl rfl

theorem bra_uniform_jumps (h : Issues s vat slot 0x71 c) (hm : c.mask = c.q.active) :
    QuireBecomes (.bra vat slot) s c { c.q with pc := c.i.target } :=
  h.quireBecomes rfl (c.branch_of_uniform _ hm)

theorem bra_divergent_pushes (h : Issues s vat slot 0x71 c) (hm : c.mask ≠ c.q.active) (hroom : c.q.stack.length < 32) :
    QuireBecomes (.bra vat slot) s c { c.q with
      stack := ⟨true, c.q.active &&& ~~~c.mask, c.i.next⟩ :: c.q.stack
      active := c.mask
      pc := c.i.target } :=
  h.quireBecomes rfl (c.branch_of_divergent _ hm hroom)

theorem jmp_goesToRegister (h : Issues s vat slot 0x72 c)
    (hs : isStart c.l.mod.code false (c.q.sreg (c.i.a - 256)) = true) :
    QuireBecomes (.jmp vat slot) s c { c.q with pc := c.q.sreg (c.i.a - 256) } :=
  h.quireBecomes rfl (c.jump_of_isStart _ hs)

theorem ret_goesToRegister (h : Issues s vat slot 0x74 c)
    (hs : isStart c.l.mod.code false (c.q.sreg (c.i.a - 256)) = true) :
    QuireBecomes (.ret vat slot) s c { c.q with pc := c.q.sreg (c.i.a - 256) } :=
  h.quireBecomes rfl (c.jump_of_isStart _ hs)

/-- CALL writes the next word index to its s register and branches. -/
theorem call_writesReturnAddress (h : Issues s vat slot 0x73 c) :
    QuireBecomes (.call vat slot) s c { c.q with
      s := storePut (c.i.d - 256) (BitVec.ofNat 32 c.i.next) c.q.s
      pc := c.i.target } := by
  refine h.quireBecomes rfl ?_
  rw [Quire.putReg_of_s _ _ _ (okind_d_of_legal_call h.code h.legal)]

theorem pushm_pushes (h : Issues s vat slot 0x75 c) (hroom : c.q.stack.length < 32) :
    QuireBecomes (.pushm vat slot) s c { c.q with
      stack := ⟨false, c.q.active, c.i.target⟩ :: c.q.stack
      pc := c.i.next } :=
  h.quireBecomes rfl (if_neg (by omega))

theorem popm_pops (h : Issues s vat slot 0x76 c) (hst : c.q.stack ≠ []) :
    QuireBecomes (.popm vat slot) s c { c.q with stack := c.q.stack.tail, pc := c.i.next } :=
  h.quireBecomes rfl (if_neg hst)

theorem yield_exchangesPending (h : Issues s vat slot 0x79 c) {top rest : List StackEntry} {m : Word} {a : Nat}
    (hst : c.q.stack = top ++ ⟨true, m, a⟩ :: rest) (htop : ∀ e ∈ top, e.pending = false) :
    QuireBecomes (.yield vat slot) s c
      { c.q with active := m, pc := a, stack := top ++ ⟨true, c.q.active, c.i.next⟩ :: rest } :=
  h.quireBecomes rfl (congrArg (c.put _) (Quire.yieldPath_of_pending _ hst htop))

theorem yield_movesOn (h : Issues s vat slot 0x79 c) (hst : ∀ e ∈ c.q.stack, e.pending = false) :
    QuireBecomes (.yield vat slot) s c { c.q with pc := c.i.next } :=
  h.quireBecomes rfl (congrArg (c.put _) (Quire.yieldPath_of_none _ hst))

/-- Without a pre-emption request of the vat a SAVEPT only moves on (R120). -/
theorem savept_movesOn (h : Issues s vat slot 0x7B c) : QuireBecomes (.savept vat slot) s c { c.q with pc := c.i.next } := by
  have hcalm : ((Counted s c).vat c.vat).preempt = [] := by
    rw [vat_counted, h.place.1]
    exact h.calm
  exact h.quireBecomes rfl (if_neg (by simp [hcalm]))

end

/-- Settles O29: each instruction puts back one quire on the counted state, YIELD's by induction on the mask stack. -/
theorem controlFlowMovesTheQuire : Obligations.ControlFlowMovesTheQuire := by
  intro s vat slot c
  refine ⟨nop_movesOn, fun h => ⟨bra_uniform_jumps h, bra_divergent_pushes h⟩, jmp_goesToRegister, ret_goesToRegister,
    fun h => ?call, pushm_pushes, popm_pops,
    fun h => ⟨fun _ _ _ _ hst htop => yield_exchangesPending h hst htop, yield_movesOn h⟩, savept_movesOn⟩
  case call =>
    obtain ⟨u, hexec, hquire, honly⟩ := call_writesReturnAddress h
    refine ⟨u, _, hexec, hquire, honly, rfl, ?_, fun r hr => ?_, rfl⟩
    · rw [Quire.sreg_storePut, if_pos rfl]
    · rw [Quire.sreg_storePut, if_neg hr]

end Sys2Proof.Claims
end

