-- ==== Sys2Proof/Proofs/Records.lean ====
section
/-!
PROOF. Writes of the device's own records to memory neither read nor change what the management controller holds.
-/

namespace Sys2Proof.Machine

/-- The state with another management controller. -/
def State.setMgc (s : State) (m : Mgc) : State := { s with mgc := m }

section
variable (s : State) (m : Mgc)

@[simp] theorem State.setMgc_mgc : (s.setMgc m).mgc = m := rfl

/-! ### What a write to memory reads -/

@[simp] theorem State.rd_setMgc (f : Field) (i j : Nat) : (s.setMgc m).rd f i j = s.rd f i j := rfl
@[simp] theorem State.domState_setMgc (d : Nat) : (s.setMgc m).domState d = s.domState d := rfl
@[simp] theorem State.regionOf_setMgc (pa : Nat) : (s.setMgc m).regionOf pa = s.regionOf pa := rfl
@[simp] theorem State.region_setMgc (r : Nat) : (s.setMgc m).region r = s.region r := rfl
@[simp] theorem State.readSector_setMgc (pa : Nat) : (s.setMgc m).readSector pa = s.readSector pa := rfl
@[simp] theorem State.l2Hit_setMgc (pa : Nat) : (s.setMgc m).l2Hit pa = s.l2Hit pa := rfl
@[simp] theorem State.evqCond_setMgc (t : Nat) : (s.setMgc m).evqCond t = s.evqCond t := rfl
@[simp] theorem State.evqWritable_setMgc (t : Nat) : (s.setMgc m).evqWritable t = s.evqWritable t := rfl
@[simp] theorem State.fnCfg_setMgc (fn : Nat) : (s.setMgc m).fnCfg fn = s.fnCfg fn := rfl
@[simp] theorem State.owed_setMgc : (s.setMgc m).owed = s.owed := rfl

/-! ### Single updates -/

@[simp] theorem State.wr_setMgc (f : Field) (v i j : Nat) : (s.setMgc m).wr f v i j = (s.wr f v i j).setMgc m := rfl
@[simp] theorem State.count_setMgc (f : Field) (k i j : Nat) :
    (s.setMgc m).count f k i j = (s.count f k i j).setMgc m := rfl
@[simp] theorem State.l2Put_setMgc (pa : Nat) (bs : List Byte) (d : Bool) :
    (s.setMgc m).l2Put pa bs d = (s.l2Put pa bs d).setMgc m := rfl
@[simp] theorem State.setRaw_setMgc (pa : Nat) (b : Byte) : (s.setMgc m).setRaw pa b = (s.setRaw pa b).setMgc m := rfl
@[simp] theorem State.hostWrite_setMgc (a : Nat) (bs : List Byte) :
    (s.setMgc m).hostWrite a bs = (s.hostWrite a bs).setMgc m := rfl

/-! ### Domains that an access wakes -/

theorem State.domRestore_setMgc (d : Nat) : (s.setMgc m).domRestore d = (s.domRestore d).setMgc m := by
  have hpwr : (s.setMgc m).pwr = s.pwr := rfl
  unfold State.domRestore
  rw [hpwr]
  cases storeFind s.pwr.ret d <;> rfl

theorem State.domOn_setMgc (d : Nat) : (s.setMgc m).domOn d = (s.domOn d).setMgc m := by
  unfold State.domOn
  rw [State.domRestore_setMgc]
  rfl

@[simp] theorem State.wakeNow_setMgc (d : Nat) : (s.setMgc m).wakeNow d = (s.wakeNow d).setMgc m := by
  have habort : (s.setMgc m).domAbort d = (s.domAbort d).setMgc m := rfl
  simp only [State.wakeNow, State.domState_setMgc, habort, State.domOn_setMgc, apply_ite (State.setMgc · m)]

/-! ### DRAM -/

@[simp] theorem State.setRaws_setMgc (pa : Nat) (bs : List Byte) :
    (s.setMgc m).setRaws pa bs = (s.setRaws pa bs).setMgc m := by
  induction bs generalizing s pa with
  | nil => rfl
  | cons b bs ih => exact ih (s.setRaw pa b) (pa + 1)

@[simp] theorem State.writeSector_setMgc (pa : Nat) (bs : List Byte) :
    (s.setMgc m).writeSector pa bs = (s.writeSector pa bs).setMgc m := by
  unfold State.writeSector
  rw [State.regionOf_setMgc]
  cases s.regionOf pa with
  | none => simp only [State.setRaws_setMgc]
  | some r => simp only [State.region_setMgc, State.setRaws_setMgc, apply_ite (State.setMgc · m)]

@[simp] theorem State.putSector_setMgc (pa : Nat) (bs : List Byte) :
    (s.setMgc m).putSector pa bs = (s.putSector pa bs).setMgc m := by
  simp only [State.putSector, State.rd_setMgc, State.l2Put_setMgc, State.writeSector_setMgc, apply_ite (State.setMgc · m)]

/-! ### Event records -/

@[simp] theorem State.msix_setMgc (fn : Nat) : (s.setMgc m).msix fn = (s.msix fn).setMgc m := by
  unfold State.msix
  simp only [State.fnCfg_setMgc, apply_ite (State.setMgc · m)]
  rfl

@[simp] theorem State.evWrite_setMgc (t : Nat) (e : Ev) : (s.setMgc m).evWrite t e = (s.evWrite t e).setMgc m := by
  have haddr : (s.setMgc m).addrOf .EVQ_BASE_ADDR t = s.addrOf .EVQ_BASE_ADDR t := rfl
  unfold State.evWrite
  simp only [haddr, State.rd_setMgc, State.putSector_setMgc, State.hostWrite_setMgc, ← apply_ite (State.setMgc · m),
    State.wr_setMgc, State.evqCond_setMgc, State.msix_setMgc]

@[simp] theorem State.evDrop_setMgc (t : Nat) (e : Ev) : (s.setMgc m).evDrop t e = (s.evDrop t e).setMgc m := by
  unfold State.evDrop
  simp only [State.rd_setMgc, apply_ite (State.setMgc · m)]
  rfl

@[simp] theorem State.evOwed_setMgc (t : Nat) : (s.setMgc m).evOwed t = (s.evOwed t).setMgc m := by
  unfold State.evOwed
  rw [State.owed_setMgc]
  cases storeFind s.owed t with
  | none => rfl
  | some o =>
    have hset : ({ s.setMgc m with owed := storeErase s.owed t } : State) =
      State.setMgc { s with owed := storeErase s.owed t } m := rfl
    simp only [Bool.and_eq_true, decide_eq_true_eq]
    simp only [hset, State.rd_setMgc, State.evqWritable_setMgc, State.evWrite_setMgc, apply_ite (State.setMgc · m)]

@[simp] theorem State.evPost_setMgc (t : Nat) (e : Ev) : (s.setMgc m).evPost t e = (s.evPost t e).setMgc m := by
  unfold State.evPost
  simp only [State.rd_setMgc, State.evOwed_setMgc, State.evqWritable_setMgc, State.evWrite_setMgc, State.evDrop_setMgc,
    apply_ite (State.setMgc · m)]

@[simp] theorem State.raise_setMgc (t : Nat) (e : Ev) : (s.setMgc m).raise t e = (s.raise t e).setMgc m := by
  unfold State.raise
  simp only [State.rd_setMgc, State.wr_setMgc, State.evPost_setMgc, apply_ite (State.setMgc · m)]

/-! ### Errors of the DRAM coder -/

@[simp] theorem State.memRecord_setMgc (who : Asker) (reason pa mask : Nat) :
    (s.setMgc m).memRecord who reason pa mask = (s.memRecord who reason pa mask).setMgc m :=
  State.raise_setMgc s m _ _

@[simp] theorem State.noteCorrected_setMgc (who : Asker) (pa : Nat) :
    (s.setMgc m).noteCorrected who pa = (s.noteCorrected who pa).setMgc m := by
  unfold State.noteCorrected
  simp only [State.rd_setMgc, State.count_setMgc, State.memRecord_setMgc, apply_ite (State.setMgc · m)]

@[simp] theorem State.noteBad_setMgc (who : Asker) (pa mask : Nat) :
    (s.setMgc m).noteBad who pa mask = (s.noteBad who pa mask).setMgc m := by
  have hdetail : (s.setMgc m).memDetail pa = s.memDetail pa := rfl
  unfold State.noteBad
  simp only [hdetail, State.rd_setMgc, State.count_setMgc, State.wr_setMgc, ← apply_ite (State.setMgc · m),
    State.memRecord_setMgc]

/-! ### The device's own records: they are charged to no activity (R325) -/

@[simp] theorem State.chargeMiss_mgcAsker : s.chargeMiss mgcAsker = s := rfl
@[simp] theorem State.useDram_mgcAsker (n : Nat) : s.useDram mgcAsker n = s := rfl

theorem State.l2WriteSector_setMgc (pa off : Nat) (bs : List Byte) :
    (s.setMgc m).l2WriteSector mgcAsker .wb false pa off bs =
      ((s.l2WriteSector mgcAsker .wb false pa off bs).1.setMgc m, (s.l2WriteSector mgcAsker .wb false pa off bs).2) := by
  unfold State.l2WriteSector State.wakeSlice State.wakeCtrl
  dsimp only
  rw [State.wakeNow_setMgc, State.l2Hit_setMgc, State.rd_setMgc]
  generalize s.wakeNow (domL2 (sliceOf pa)) = t
  cases t.l2Hit pa with
  | some x => rfl
  | none =>
    rw [State.wakeNow_setMgc]
    generalize (decide (t.rd .L2_CTRL_EN = 1) && polAllocs .wb && !false) = alloc
    by_cases hlen : bs.length = 32
    · cases alloc <;> simp [hlen]
    · by_cases hbad : ((t.wakeNow (domMc (ctrlOf pa))).readSector pa).bad = 0
      · cases hcor : ((t.wakeNow (domMc (ctrlOf pa))).readSector pa).corrected <;> cases alloc <;> simp [hlen, hbad, hcor]
      · simp [hlen, hbad]

theorem State.l2WriteFrom_setMgc (fuel pa : Nat) (bs : List Byte) :
    (s.setMgc m).l2WriteFrom mgcAsker .wb fuel pa bs =
      ((s.l2WriteFrom mgcAsker .wb fuel pa bs).1.setMgc m, (s.l2WriteFrom mgcAsker .wb fuel pa bs).2) := by
  induction fuel generalizing s pa bs with
  | zero => rfl
  | succ fuel ih =>
    have hdetect (t : State) : t.detect mgcAsker .wb pa = (t, false) := rfl
    simp only [State.l2WriteFrom, hdetect, State.l2WriteSector_setMgc, ih]
    split_ifs <;> rfl

/-- A record is written alike whatever the management controller holds. -/
theorem State.physWrite_setMgc (a : Nat) (bs : List Byte) :
    (s.setMgc m).physWrite a bs = (s.physWrite a bs).setMgc m :=
  congrArg Prod.fst (s.l2WriteFrom_setMgc m _ a bs)

/-- Writing a record leaves the management controller as it was. -/
@[simp] theorem State.physWrite_mgc (a : Nat) (bs : List Byte) : (s.physWrite a bs).mgc = s.mgc :=
  (congrArg State.mgc (s.physWrite_setMgc s.mgc a bs) :)

end

end Sys2Proof.Machine
end

