-- ==== Sys2Proof/Proofs/Firmware.lean ====
section
/-!
PROOF. Bit masks, the recovery log and the slot states it gives (R472, R473), the registers that show the firmware, the
causes of a refused image (R471), and the boot flash.
-/

namespace Sys2Proof.Machine

/-! ### Bit masks -/

theorem bitAt_eq_testBit (x n : Nat) : bitAt x n = x.testBit n :=
  (Nat.testBit_eq_decide_div_mod_eq).symm

/-- Adding a power of two whose bit is clear sets that bit and no other. -/
theorem testBit_add_two_pow {x n : Nat} (h : x.testBit n = false) (k : Nat) :
    (x + 2 ^ n).testBit k = (x.testBit k || decide (k = n)) := by
  induction n generalizing x k with
  | zero =>
    have heven : x % 2 = 0 := by simpa using h
    cases k with
    | zero => simp; omega
    | succ k => simp [Nat.testBit_succ, show (x + 1) / 2 = x / 2 by omega]
  | succ n ih =>
    rw [Nat.testBit_succ] at h
    have hhalf : (x + 2 ^ (n + 1)) / 2 = x / 2 + 2 ^ n := by omega
    cases k with
    | zero => simp [pow_succ]
    | succ k => simp [Nat.testBit_succ, hhalf, ih h]

theorem bitAt_setBit (x n k : Nat) : bitAt (setBit x n) k = (bitAt x k || decide (k = n)) := by
  unfold setBit
  split
  next h =>
    by_cases e : k = n
    · simp [e, h]
    · simp [e]
  next h =>
    rw [bitAt_eq_testBit, Bool.not_eq_true] at h
    simp only [bitAt_eq_testBit, testBit_add_two_pow h]

theorem bitAt_clearBit (x n k : Nat) : bitAt (clearBit x n) k = (bitAt x k && decide (k ≠ n)) := by
  unfold clearBit
  split
  next h =>
    rw [bitAt_eq_testBit] at h
    obtain ⟨y, rfl⟩ := Nat.exists_eq_add_of_le (Nat.ge_two_pow_of_testBit h)
    have hy : y.testBit n = false := by simpa [Nat.testBit_two_pow_add_eq] using h
    rw [Nat.add_sub_cancel_left, Nat.add_comm, bitAt_eq_testBit, bitAt_eq_testBit, testBit_add_two_pow hy]
    by_cases e : k = n
    · simp [e, hy]
    · simp [e]
  next h =>
    by_cases e : k = n
    · simpa [e] using h
    · simp [e]

/-- `newBits` adds the low n bits of a mask to another. -/
theorem bitAt_newBits (n x y k : Nat) : bitAt (newBits n x y) k = (bitAt x k || (decide (k < n) && bitAt y k)) := by
  induction n with
  | zero => simp [newBits]
  | succ n ih =>
    have hstep : newBits (n + 1) x y =
        if bitAt y n && !bitAt x n then setBit (newBits n x y) n else newBits n x y := by
      simp [newBits, List.range_succ]
    have hlt : decide (k < n + 1) = (decide (k < n) || decide (k = n)) := by
      rw [← Bool.decide_or]
      exact decide_eq_decide.mpr Nat.lt_succ_iff_lt_or_eq
    rw [hstep, hlt]
    by_cases e : k = n
    · subst e
      cases hy : bitAt y k <;> cases hx : bitAt x k <;> simp [hy, hx, bitAt_setBit, ih]
    · split <;> simp [bitAt_setBit, ih, e]

/-! ### The recovery log -/

/-- Appending a record puts it, numbered, at the head of the log, and otherwise may use a free value (R472). -/
theorem State.appendLog_eq (s : State) (r : LogRec) : ∃ seq rest free,
    s.appendLog r = { s with free := free, mgc := { s.mgc with log := { r with seq := seq } :: rest } } := by
  unfold State.appendLog
  extract_lets next
  split <;> exact ⟨_, _, _, rfl⟩

/-- The newest slot event of a slot gives its state (R473): ERASE 0, UPDATE 1, COMMIT 2, ABANDON 3. -/
theorem slotState_cons {r : LogRec} (hlo : 4 ≤ r.event) (hhi : r.event ≤ 7) (log : List LogRec) :
    slotState (r :: log) r.slot = r.event - 4 := by
  have h : r.event = 4 ∨ r.event = 5 ∨ r.event = 6 ∨ r.event = 7 := by omega
  obtain h | h | h | h := h <;> simp [slotState, h]

/-- The newest COMMIT names the active slot (R473). -/
theorem activeSlot_cons_commit {r : LogRec} (h : r.event = 6) (log : List LogRec) : activeSlot (r :: log) = r.slot := by
  simp [activeSlot, h]

/-! ### The registers that show the firmware -/

/-- The fields that show the firmware (R489). -/
def fwFields : List Field :=
  [.MGC_FW_INFO_F, .MGC_FW_INFO_IMG_REVOKE, .MGC_FW_INFO_FNS_REVOKE, .MGC_FW_INFO_ACTIVE, .MGC_FW_INFO_STATE_A,
    .MGC_FW_INFO_STATE_B, .MGC_FW_VERSION_SETTINGS_FMT, .MGC_FW_VERSION_FINALISER, .MGC_FW_VERSION_FWVER, .MGC_FW_INFO_SVN]

section
variable (s : State)

@[simp] theorem State.showFw_mgc : s.showFw.mgc = s.mgc := by
  unfold State.showFw
  cases s.mgc.image <;> simp

@[simp] theorem State.showFw_mem : s.showFw.mem = s.mem := by
  unfold State.showFw
  cases s.mgc.image <;> simp

@[simp] theorem State.showFw_maint : s.showFw.maint = s.maint := by
  unfold State.showFw
  cases s.mgc.image <;> simp

/-- Of the registers, showing the firmware changes those that show it. -/
theorem State.rd_showFw {f : Field} (hf : f ∉ fwFields) : s.showFw.rd f = s.rd f := by
  simp only [fwFields, List.mem_cons, List.not_mem_nil, or_false, not_or] at hf
  unfold State.showFw
  cases s.mgc.image <;> simp [State.rd_wr_field, hf]

end

/-! ### Causes of a refused image -/

theorem imageHeaderCause_lt (f : Nat) (h : List Byte) (avail : Nat) : imageHeaderCause f h avail < 16 := by
  unfold imageHeaderCause
  dsimp only
  split_ifs <;> decide

theorem imageMarkCause_lt (f : Fuses) (bs : List Byte) : imageMarkCause f bs < 16 := by
  unfold imageMarkCause
  dsimp only
  split_ifs <;> decide

/-- A refused image has one of the causes of R471. -/
theorem checkImage_error_lt {f : Fuses} {bs : List Byte} {avail slot c : Nat}
    (h : checkImage f bs avail slot = .error c) : c < 16 := by
  unfold checkImage at h
  dsimp only at h
  split_ifs at h
  · exact Except.error.inj h ▸ imageHeaderCause_lt _ _ _
  · exact Except.error.inj h ▸ imageMarkCause_lt _ _
  · exact Except.error.inj h ▸ (by decide : cTag < 16)

/-! ### The boot flash -/

/-- What is written to the boot flash reads back. -/
theorem State.flashBytes_setFlash (s : State) (a : Nat) (bs : List Byte) :
    (s.setFlash a bs).flashBytes a bs.length = bs := by
  apply List.ext_getElem
  · simp [State.flashBytes, memRead, storeGetMany]
  · intro i h1 h2
    have hbyte := memByte_write 0xFF s.mgc.flash a (a + i) bs
    rw [if_pos ⟨by omega, by omega⟩, Nat.add_sub_cancel_left, List.getD_eq_getElem _ _ h2] at hbyte
    simpa [State.flashBytes, State.setFlash, memRead, storeGetMany, memByte] using hbyte

/-- A bit-stream whose header passes its checks is supplied whole (R519). -/
theorem furnLength_le_of_headerErr_none {bs : List Byte} {avail : Nat} {delta : Bool}
    (h : furnHeaderErr bs avail delta = none) : furnLength bs ≤ avail := by
  by_contra hlt
  simp [furnHeaderErr, show avail < furnLength bs by omega] at h
  split_ifs at h

end Sys2Proof.Machine
end

