-- ==== Sys2Proof/Proofs/Mailbox.lean ====
section
/-!
PROOF. The mailbox: which commands it takes and how they complete (R489, R490), and O56: FINALISE (R86, R87), the updates
(R478 to R480), FURNISH_WRITE (R489), ATTEST and IDENTITY (R487, R488).
-/

namespace Sys2Proof.Machine

/-! ### Taking and completing a command -/

@[simp] theorem State.mboxDone_mem (s : State) (c d : Nat) : (s.mboxDone c d).mem = s.mem := rfl
@[simp] theorem State.mboxDone_mgc (s : State) (c d : Nat) : (s.mboxDone c d).mgc = s.mgc := rfl

/-- Completing a command writes the mailbox's registers only. -/
theorem State.rd_mboxDone (s : State) {f : Field} (c d : Nat)
    (hf : f ∉ [Field.MGC_MBOX_CTRL_PENDING, .MGC_MBOX_RESULT_CAUSE, .MGC_MBOX_RESULT_DETAIL]) :
    (s.mboxDone c d).rd f = s.rd f := by
  simp only [List.mem_cons, List.not_mem_nil, or_false, not_or] at hf
  simp [State.mboxDone, State.rd_wr_field, hf]

section
variable {s : State} (h : s.rd .MGC_MBOX_CTRL_PENDING ≠ 0) (cmd : Nat)
include h

/-- While a command is pending the mailbox takes none (R490). -/
theorem State.mbox_of_pending (k : State → State) : s.mbox cmd k = s := by
  simp [State.mbox, h]

theorem State.mboxRec_of_pending (n : Nat) (k : State → List Byte → State) : s.mboxRec cmd n k = s :=
  State.mbox_of_pending h cmd _

end

end Sys2Proof.Machine

namespace Sys2Proof.Claims
open Sys2Proof.Machine

/-- A completed command shows its cause and its detail. -/
theorem mboxDone_ends (s : State) {c : Nat} (hc : c < 16) (d : Nat) : MboxEnds (s.mboxDone c d) c (d % 2 ^ 28) := by
  have hcause : 2 ^ Field.width .MGC_MBOX_RESULT_CAUSE = 16 := rfl
  have hdetail : 2 ^ Field.width .MGC_MBOX_RESULT_DETAIL = 2 ^ 28 := rfl
  refine ⟨?_, ?_, ?_⟩
  · simp [State.mboxDone, State.rd_wr_field]
  · simp [State.mboxDone, State.rd_wr_field, hcause, Nat.mod_eq_of_lt hc]
  · simp only [State.mboxDone, State.rd_wr_same, hdetail, Nat.mod_mod]

/-- A command that the mailbox takes runs with CMD written. -/
theorem MboxTakes.mbox_eq {s : State} (h : MboxTakes s) (cmd : Nat) (k : State → State) :
    s.mbox cmd k = k (s.wr .MGC_MBOX_CTRL_CMD cmd) := by
  obtain ⟨hwrites, hbooted, hstage, hpending⟩ := h
  simp [State.mbox, hwrites, hbooted, hstage, hpending]

/-- CMD does not change where the request record stands. -/
theorem addrOf_arg_wr_cmd (s : State) (cmd : Nat) :
    (s.wr .MGC_MBOX_CTRL_CMD cmd).addrOf .MGC_MBOX_ARG_ADDR = s.addrOf .MGC_MBOX_ARG_ADDR := by
  simp [State.addrOf, State.rd_wr_field]

/-- A command whose request record is read runs on the state after the read. -/
theorem MboxReads.mboxRec_eq {s s1 : State} {cmd n : Nat} {r : List Byte} (h : MboxReads s s1 cmd n r)
    (k : State → List Byte → State) : s.mboxRec cmd n k = k s1 r := by
  obtain ⟨htakes, hread⟩ := h
  simp only [State.mboxRec, htakes.mbox_eq, addrOf_arg_wr_cmd, hread]

/-- A command whose request record cannot be read is a bad request. -/
theorem MboxTakes.mboxRec_of_unread {s s1 : State} {cmd n : Nat} (h : MboxTakes s)
    (hread : (s.wr .MGC_MBOX_CTRL_CMD cmd).mgcRead (s.addrOf .MGC_MBOX_ARG_ADDR) n = (s1, none))
    (k : State → List Byte → State) : s.mboxRec cmd n k = s1.mboxDone cRequest := by
  simp only [State.mboxRec, h.mbox_eq, addrOf_arg_wr_cmd, hread]

theorem theMailboxTakesOne : TheMailboxTakesOne := by
  intro s
  refine ⟨fun hpending => ?pending, fun s1 htakes hread => ?unread⟩
  case pending =>
    have hnext {t : State} (ht : t = s) : (.next t : Host.Outcome State Fault Refusal) = .next s := congrArg _ ht
    have hmbox := State.mbox_of_pending hpending
    have hrec := State.mboxRec_of_pending hpending
    simp only [List.forall_mem_cons, List.not_mem_nil, false_implies, implies_true, and_true]
    exact ⟨hnext (hrec _ _ _), hnext (hrec _ _ _), hnext (hmbox _ _), hnext (hmbox _ _), hnext (hrec _ _ _),
      hnext (hrec _ _ _), hnext (hrec _ _ _)⟩
  case unread =>
    exact ⟨s1.mboxDone cRequest, congrArg Host.Outcome.next (htakes.mboxRec_of_unread hread _),
      mboxDone_ends s1 (by decide) 0, rfl⟩

end Sys2Proof.Claims

/-! ### FINALISE (R86, R87) -/

namespace Sys2Proof.Machine

/-- A request record of FINALISE obeys its table (R86). -/
def State.FinaliseRequest (s : State) (r : List Byte) : Prop :=
  leAt r 0 8 % 8 = 0 ∧ leAt r 8 8 % 4096 = 0 ∧ leAt r 24 8 % 16 = 0 ∧ leAt r 20 4 = 0 ∧
    s.usableRange (leAt r 24 8) 16 = true ∧ s.usableRange (leAt r 0 8) 32 = true ∧
    s.usableRange (leAt r 8 8) (leAt r 16 4) = true

/-- The result record of FINALISE (R87). -/
def State.finRecord (s : State) (result detail size : Nat) : List Byte :=
  toLe 2 result ++ [0, 0] ++ toLe 4 detail ++ toLe 4 size ++ toLe 4 s.finaliser

section
variable {s : State} {r : List Byte}

theorem State.finalise_of_not_request (h : ¬ s.FinaliseRequest r) : s.finalise r = s.mboxDone cRequest := by
  refine if_pos (by_contra fun hn => h ?_)
  simpa [State.FinaliseRequest, and_assoc] using hn

section
variable (h : s.FinaliseRequest r)
include h

theorem State.finalise_of_unread {s1 : State} (hread : s.mgcRead (leAt r 0 8) 32 = (s1, none)) :
    s.finalise r = s1.mboxDone cRequest := by
  obtain ⟨hmod, hout, hres, hzero, hures, humod, huout⟩ := h
  simp [State.finalise, hmod, hout, hres, hzero, hures, humod, huout, hread]

variable {s2 s3 : State} {hd bs : List Byte} (hread : s.mgcRead (leAt r 0 8) 32 = (s2, some hd))
include hread

theorem State.finalise_of_headerErr {e : ModErr} (he : headerErr hd = some e) :
    s.finalise r = s2.finResult (leAt r 24 8) e.code.1 e.code.2 0 := by
  obtain ⟨hmod, hout, hres, hzero, hures, humod, huout⟩ := h
  simp [State.finalise, hmod, hout, hres, hzero, hures, humod, huout, hread, he]

theorem State.finalise_of_unusable (he : headerErr hd = none)
    (hu : s2.usableRange (leAt r 0 8) (32 + 8 * leAt hd 8 4) = false) :
    s.finalise r = s2.finResult (leAt r 24 8) 3 8 0 := by
  obtain ⟨hmod, hout, hres, hzero, hures, humod, huout⟩ := h
  simp [State.finalise, hmod, hout, hres, hzero, hures, humod, huout, hread, he, hu]

theorem State.finalise_of_module (he : headerErr hd = none)
    (hu : s2.usableRange (leAt r 0 8) (32 + 8 * leAt hd 8 4) = true)
    (hmodule : s2.mgcRead (leAt r 0 8) (32 + 8 * leAt hd 8 4) = (s3, some bs)) :
    s.finalise r = s3.finModule bs (leAt r 8 8) (leAt r 16 4) (leAt r 24 8) := by
  obtain ⟨hmod, hout, hres, hzero, hures, humod, huout⟩ := h
  simp [State.finalise, hmod, hout, hres, hzero, hures, humod, huout, hread, he, hu, hmodule]

end

end

section
variable {s : State} {bs : List Byte} {m : Module} (out cap res : Nat)

theorem State.finModule_of_error {e : ModErr} (h : parseModule bs = .error e) :
    s.finModule bs out cap res = s.finResult res e.code.1 e.code.2 0 := by
  simp only [State.finModule, h]

theorem State.finModule_of_noRoom (h : parseModule bs = .ok m) (hcap : cap < imageSize s.finaliser m) :
    s.finModule bs out cap res = s.finResult res 6 (imageSize s.finaliser m) 0 := by
  simp only [State.finModule, h, hcap, if_true]

/-- An image that fits is written with the module kept, before the result record. -/
theorem State.finModule_of_fits (h : parseModule bs = .ok m) (hcap : imageSize s.finaliser m ≤ cap) :
    s.finModule bs out cap res =
      ((s.physWrite out (imageBytes s.finaliser m)).setMgc
        { s.mgc with modules := m :: s.mgc.modules.filter (fun x => x ≠ m) }).finResult res 0 0
          (imageSize s.finaliser m) := by
  simp only [State.finModule, h, Nat.not_lt.mpr hcap, if_false, State.physWrite_mgc]
  rfl

end

end Sys2Proof.Machine

namespace Sys2Proof.Claims
open Sys2Proof.Machine

/-- A result record ends FINALISE with cause OK and the record in memory. -/
theorem finResult_spec (s : State) (a result detail size : Nat) :
    MboxEnds (s.finResult a result detail size) 0 0 ∧
      (s.finResult a result detail size).mem = (s.physWrite a (s.finRecord result detail size)).mem :=
  ⟨mboxDone_ends _ (by decide) 0, State.mboxDone_mem _ _ _⟩

/-- A module that fits leaves its image and then its result record in memory. -/
theorem finModule_mem_of_fits {s : State} {bs : List Byte} {m : Module} (out cap res : Nat) (h : parseModule bs = .ok m)
    (hcap : imageSize s.finaliser m ≤ cap) :
    (s.finModule bs out cap res).mem = ((s.physWrite out (imageBytes s.finaliser m)).physWrite res
      (s.finRecord 0 0 (imageSize s.finaliser m))).mem := by
  rw [State.finModule_of_fits out cap res h hcap, (finResult_spec _ _ _ _ _).2, State.physWrite_setMgc]
  rfl

theorem finaliseWritesItsResult : FinaliseWritesItsResult := by
  intro s s1 r hreads modA out cap res rec'
  have hexec {t : State} (ht : s1.finalise r = t) : exec .finalise s = .next t :=
    congrArg Host.Outcome.next ((hreads.mboxRec_eq _).trans ht)
  have hbad (t : State) : MboxEnds (t.mboxDone cRequest) 12 0 := mboxDone_ends t (by decide) 0
  refine ⟨fun s' _ hread => ?unread, fun hbreaks => ?breaks,
    fun s2 s3 h bs hmod hout hres hzero hures humod huout hread => ?request⟩
  case unread =>
    by_cases hreq : s1.FinaliseRequest r
    · exact ⟨_, hexec (State.finalise_of_unread hreq hread), hbad _, .inr rfl⟩
    · exact ⟨_, hexec (State.finalise_of_not_request hreq), hbad _, .inl rfl⟩
  case breaks =>
    have hreq : ¬ s1.FinaliseRequest r := by
      rintro ⟨hmod, hout, hres, -, hures, humod, huout⟩
      obtain h | h | h | h | h | h := hbreaks
      exacts [h hmod, h hout, h hres, Bool.false_ne_true (h.symm.trans hures), Bool.false_ne_true (h.symm.trans humod),
        Bool.false_ne_true (h.symm.trans huout)]
    exact ⟨_, hexec (State.finalise_of_not_request hreq), hbad _, rfl, rfl⟩
  case request =>
    have hreq : s1.FinaliseRequest r := ⟨hmod, hout, hres, hzero, hures, humod, huout⟩
    refine ⟨fun e he => ⟨_, hexec (State.finalise_of_headerErr hreq hread he), finResult_spec _ _ _ _ _⟩,
      fun he hu => ⟨_, hexec (State.finalise_of_unusable hreq hread he hu), finResult_spec _ _ _ _ _⟩,
      fun he hu hmodule => ?_⟩
    have hfin := State.finalise_of_module hreq hread he hu hmodule
    refine ⟨fun e hp => ⟨_, hexec (hfin.trans (State.finModule_of_error _ _ _ hp)), finResult_spec _ _ _ _ _⟩,
      fun m hp => ⟨fun hcap => ?_, fun hcap => ?_⟩⟩
    · exact ⟨_, hexec (hfin.trans (State.finModule_of_noRoom _ _ _ hp hcap)), finResult_spec _ _ _ _ _⟩
    · refine ⟨_, hexec hfin, ?_, ?_, finModule_mem_of_fits _ _ _ hp hcap⟩
      · rw [State.finModule_of_fits _ _ _ hp hcap]
        exact (finResult_spec _ _ _ _ _).1
      · rw [State.finModule_of_fits _ _ _ hp hcap]
        simp [State.finResult]

end Sys2Proof.Claims

/-! ### FW_STAGE (R478, R479) -/

namespace Sys2Proof.Machine

/-- A request record of FW_STAGE obeys its table, on a chip without other members (R478). -/
structure StagesAlone (s : State) (r : List Byte) : Prop where
  addr : leAt r 0 8 = s.addrOf .FLT_FW_STAGE_ADDR
  given : leAt r 0 8 ≠ 0
  total : leAt r 8 4 ≤ 0x1800000
  reserved : leAt r 12 4 = 0
  alone : s.ringed = false

section
variable {s : State} {r : List Byte} (h : StagesAlone s r)
include h

theorem StagesAlone.fwStage_of_busy (hbusy : s.stageBusy = true) : s.fwStage r = s.mboxDone cBusy := by
  obtain ⟨haddr, hgiven, htotal, hreserved, halone⟩ := h
  simp [State.fwStage, ← haddr, hgiven, hreserved, Nat.not_lt.mpr htotal, halone, hbusy]

theorem StagesAlone.fwStage_of_error (hbusy : s.stageBusy = false) {c : Nat}
    (hc : s.checkStaged (leAt r 8 4) (1 - activeSlot s.mgc.log) = .error c) : s.fwStage r = s.mboxDone c := by
  obtain ⟨haddr, hgiven, htotal, hreserved, halone⟩ := h
  simp [State.fwStage, ← haddr, hgiven, hreserved, Nat.not_lt.mpr htotal, halone, hbusy, hc]

theorem StagesAlone.fwStage_of_ok (hbusy : s.stageBusy = false) {i : Image}
    (hi : s.checkStaged (leAt r 8 4) (1 - activeSlot s.mgc.log) = .ok i) :
    s.fwStage r =
      (s.wr .MGC_MBOX_CTRL_PENDING 1).writeSlot (1 - activeSlot s.mgc.log) 0 (imageRead s.staged) i := by
  obtain ⟨haddr, hgiven, htotal, hreserved, halone⟩ := h
  simp [State.fwStage, ← haddr, hgiven, hreserved, Nat.not_lt.mpr htotal, halone, hbusy, hi]

end

/-- Beginning to write a slot logs its ERASE and starts the activity FLASH; the running image and the registers but those
that show the firmware stay (R478). -/
theorem State.writeSlot_spec (s : State) (slot arg : Nat) (bs : List Byte) (i : Image) :
    slotState (s.writeSlot slot arg bs i).mgc.log slot = 0 ∧ (s.writeSlot slot arg bs i).mgc.image = s.mgc.image ∧
      (s.writeSlot slot arg bs i).maint.running = s.maint.running ++ [⟨8, slot, arg⟩] ∧
      ∀ f ∉ fwFields, (s.writeSlot slot arg bs i).rd f = s.rd f := by
  obtain ⟨seq, rest, free, happend⟩ := s.appendLog_eq (logEv 4 slot 0 (some i))
  unfold State.writeSlot
  rw [happend]
  refine ⟨?_, ?_, ?_, fun f hf => State.rd_showFw _ hf⟩
  · rw [State.showFw_mgc]
    exact slotState_cons (r := { logEv 4 slot 0 (some i) with seq := seq }) (by decide : 4 ≤ 4) (by decide : 4 ≤ 7) rest
  · rw [State.showFw_mgc]
    rfl
  · rw [State.showFw_maint]
    rfl

end Sys2Proof.Machine

namespace Sys2Proof.Claims
open Sys2Proof.Machine

theorem fwStage_checksItsImage {s s1 : State} {r : List Byte} (hreads : MboxReads s s1 2 16 r) (h : StagesAlone s1 r) :
    (s1.stageBusy = true → ∃ u, exec .fwStage s = .next u ∧ MboxEnds u 10 0 ∧ u.mgc = s1.mgc ∧ u.maint = s1.maint) ∧
    (s1.stageBusy = false → ∃ u, exec .fwStage s = .next u ∧
      (∀ c, s1.checkStaged (leAt r 8 4) (1 - activeSlot s1.mgc.log) = .error c →
        MboxEnds u c 0 ∧ u.mgc = s1.mgc ∧ u.maint = s1.maint) ∧
      (∀ i, s1.checkStaged (leAt r 8 4) (1 - activeSlot s1.mgc.log) = .ok i → u.rd .MGC_MBOX_CTRL_PENDING = 1 ∧
        slotState u.mgc.log (1 - activeSlot s1.mgc.log) = 0 ∧ u.mgc.image = s1.mgc.image ∧
        u.maint.running = s1.maint.running ++ [⟨8, 1 - activeSlot s1.mgc.log, 0⟩])) := by
  have hexec : exec .fwStage s = .next (s1.fwStage r) := congrArg Host.Outcome.next (hreads.mboxRec_eq _)
  refine ⟨fun hbusy => ⟨_, hexec, ?_⟩, fun hbusy => ⟨_, hexec, fun c hc => ?_, fun i hi => ?_⟩⟩
  · rw [h.fwStage_of_busy hbusy]
    exact ⟨mboxDone_ends s1 (by decide) 0, rfl, rfl⟩
  · rw [h.fwStage_of_error hbusy hc]
    exact ⟨mboxDone_ends s1 (checkImage_error_lt hc) 0, rfl, rfl⟩
  · rw [h.fwStage_of_ok hbusy hi]
    obtain ⟨hlog, himage, hrunning, hrd⟩ := (s1.wr .MGC_MBOX_CTRL_PENDING 1).writeSlot_spec
      (1 - activeSlot s1.mgc.log) 0 (imageRead s1.staged) i
    exact ⟨(hrd _ (by decide)).trans (State.rd_wr_same _ _ _ _ _), hlog, himage, hrunning⟩

end Sys2Proof.Claims

/-! ### FW_COMMIT and FW_REVERT (R480) -/

namespace Sys2Proof.Machine

section
variable {s : State}

theorem State.fwCommit_of_not_onTrial (h : s.onTrial = false) : s.fwCommit = s.mboxDone cNoTrial := by
  unfold State.fwCommit
  cases s.mgc.image with
  | none => rfl
  | some i => simp [h]

/-- F is raised to an image's SVN, with a record in the log, when it lies below (R480). -/
def State.raiseSvn (s : State) (i : Image) : State :=
  if s.mgc.fuses.svn < i.svn then
    (s.setMgc { s.mgc with fuses := { s.mgc.fuses with svn := i.svn } }).appendLog
      { logEv 11 i.slot 0 (some i) with value := i.svn }
  else s

/-- Raising F changes no other fuse and no memory. -/
theorem State.raiseSvn_spec (s : State) (i : Image) :
    (s.raiseSvn i).mgc.fuses = { s.mgc.fuses with svn := max s.mgc.fuses.svn i.svn } ∧ (s.raiseSvn i).mem = s.mem := by
  unfold State.raiseSvn
  split
  next h =>
    obtain ⟨seq, rest, free, happend⟩ := (s.setMgc { s.mgc with fuses := { s.mgc.fuses with svn := i.svn } }).appendLog_eq
      { logEv 11 i.slot 0 (some i) with value := i.svn }
    rw [happend, Nat.max_eq_right h.le]
    exact ⟨rfl, rfl⟩
  next h =>
    rw [Nat.max_eq_left (Nat.not_lt.mp h)]
    exact ⟨rfl, rfl⟩

/-- The fuses with an image's revocations blown but that of its own key (R480). -/
def Fuses.blow (f : Fuses) (i : Image) : Fuses :=
  { f with
    imgRevoke := newBits 4 f.imgRevoke (clearBit (i.revoke % 16) i.keySlot)
    fnsRevoke := newBits 2 f.fnsRevoke (i.revoke / 16 % 4) }

theorem Fuses.bitAt_blow_imgRevoke (f : Fuses) (i : Image) {k : Nat} (hk : k < 4) :
    bitAt (f.blow i).imgRevoke k = (bitAt f.imgRevoke k || (bitAt i.revoke k && decide (k ≠ i.keySlot))) := by
  have hlow : bitAt (i.revoke % 16) k = bitAt i.revoke k := by
    rw [bitAt_eq_testBit, bitAt_eq_testBit, show 16 = 2 ^ 4 from rfl, Nat.testBit_mod_two_pow]
    simp [hk]
  simp only [Fuses.blow, bitAt_newBits, bitAt_clearBit, hlow, hk, decide_true, Bool.true_and]

theorem Fuses.bitAt_blow_fnsRevoke (f : Fuses) (i : Image) {k : Nat} (hk : k < 2) :
    bitAt (f.blow i).fnsRevoke k = (bitAt f.fnsRevoke k || bitAt i.revoke (4 + k)) := by
  have hhigh : bitAt (i.revoke / 16 % 4) k = bitAt i.revoke (4 + k) := by
    rw [bitAt_eq_testBit, bitAt_eq_testBit, show i.revoke / 16 % 4 = i.revoke / 2 ^ 4 % 2 ^ 2 from rfl,
      Nat.testBit_mod_two_pow, Nat.testBit_div_two_pow, Nat.add_comm k]
    simp [hk]
  simp only [Fuses.blow, bitAt_newBits, hhigh, hk, decide_true, Bool.true_and]

/-- The end of FW_COMMIT: COMMIT is logged, the settings' migration is done, and TRIAL is cleared (R480, R486). -/
def State.logCommit (s : State) (i : Image) : State :=
  let s1 := s.appendLog (logEv 6 i.slot 0 (some i))
  ((s1.setMgc { s1.mgc with migDone := true }).wr .MGC_BOOT_STATUS_TRIAL 0).showFw

/-- The end of FW_COMMIT leaves the slot GOOD and active. -/
theorem State.logCommit_spec (s : State) (i : Image) :
    (s.logCommit i).rd .MGC_BOOT_STATUS_TRIAL = 0 ∧ (s.logCommit i).mem = s.mem ∧
      (s.logCommit i).mgc.fuses = s.mgc.fuses ∧ slotState (s.logCommit i).mgc.log i.slot = 2 ∧
      activeSlot (s.logCommit i).mgc.log = i.slot := by
  obtain ⟨seq, rest, free, happend⟩ := s.appendLog_eq (logEv 6 i.slot 0 (some i))
  have hlog : (s.logCommit i).mgc.log = { logEv 6 i.slot 0 (some i) with seq := seq } :: rest := by
    rw [State.logCommit, State.showFw_mgc, happend]
    rfl
  refine ⟨?_, ?_, ?_, ?_, ?_⟩
  · rw [State.logCommit, State.rd_showFw _ (by decide), State.rd_wr_same]
    rfl
  · rw [State.logCommit, State.showFw_mem, happend]
    rfl
  · rw [State.logCommit, State.showFw_mgc, happend]
    rfl
  · rw [hlog]
    exact slotState_cons (r := { logEv 6 i.slot 0 (some i) with seq := seq }) (by decide : 4 ≤ 6) (by decide : 6 ≤ 7) rest
  · rw [hlog]
    exact activeSlot_cons_commit (r := { logEv 6 i.slot 0 (some i) with seq := seq }) rfl rest

/-- The steps of FW_COMMIT in a trial (R480). -/
theorem State.fwCommit_of_onTrial {i : Image} (htrial : s.onTrial = true) (hi : s.mgc.image = some i) :
    s.fwCommit = (((s.raiseSvn i).setMgc { (s.raiseSvn i).mgc with
      fuses := Fuses.blow { s.mgc.fuses with svn := max s.mgc.fuses.svn i.svn } i }).logCommit i).mboxDone cOk := by
  have hsteps : s.fwCommit = (((s.raiseSvn i).setMgc { (s.raiseSvn i).mgc with
      fuses := { (s.raiseSvn i).mgc.fuses with
        imgRevoke := newBits 4 s.mgc.fuses.imgRevoke (clearBit (i.revoke % 16) i.keySlot)
        fnsRevoke := newBits 2 s.mgc.fuses.fnsRevoke (i.revoke / 16 % 4) } }).logCommit i).mboxDone cOk := by
    unfold State.fwCommit
    split
    next hnone => simp [hi] at hnone
    next j hj =>
      obtain rfl := Option.some.inj (hi.symm.trans hj)
      exact if_neg (by simp [htrial])
  rw [hsteps, (s.raiseSvn_spec i).1]
  rfl

/-- FW_REVERT outside a trial (R480). -/
theorem State.fwRevert_of_no_trial (h : trialSlot s.mgc.log = none) : s.fwRevert = s.mboxDone cNoTrial := by
  simp only [State.fwRevert, h]

/-- FW_REVERT leaves the TRIAL slot BAD (R480). -/
theorem State.fwRevert_of_trial {k : Nat} (h : trialSlot s.mgc.log = some k) :
    ∃ t : State, s.fwRevert = t.mboxDone cOk ∧ slotState t.mgc.log k = 3 ∧ t.mgc.image = s.mgc.image ∧
      t.mem = s.mem := by
  obtain ⟨seq, rest, free, happend⟩ := s.appendLog_eq (logEv 7 k)
  refine ⟨(s.appendLog (logEv 7 k)).showFw, by simp only [State.fwRevert, h], ?_, ?_, ?_⟩
  · rw [State.showFw_mgc, happend]
    exact slotState_cons (r := { logEv 7 k with seq := seq }) (by decide : 4 ≤ 7) (by decide : 7 ≤ 7) rest
  · rw [State.showFw_mgc, happend]
  · rw [State.showFw_mem, happend]

end

end Sys2Proof.Machine

namespace Sys2Proof.Claims
open Sys2Proof.Machine

section
variable {s : State} (htakes : MboxTakes s) (harg : s.rd .MGC_MBOX_ARG_ADDR = 0)
include htakes harg

/-- FW_COMMIT with ARG 0 runs its steps. -/
theorem exec_fwCommit : exec .fwCommit s = .next (s.wr .MGC_MBOX_CTRL_CMD 3).fwCommit := by
  refine congrArg Host.Outcome.next ((htakes.mbox_eq 3 _).trans (if_neg ?_))
  simp [State.rd_wr_field, harg]

/-- FW_REVERT with ARG 0 runs its step. -/
theorem exec_fwRevert : exec .fwRevert s = .next (s.wr .MGC_MBOX_CTRL_CMD 4).fwRevert := by
  refine congrArg Host.Outcome.next ((htakes.mbox_eq 4 _).trans (if_neg ?_))
  simp [State.rd_wr_field, harg]

theorem fwCommit_outsideTrial (h : s.onTrial = false) :
    ∃ u, exec .fwCommit s = .next u ∧ MboxEnds u 11 0 ∧ u.mgc = s.mgc := by
  refine ⟨_, exec_fwCommit htakes harg, ?_⟩
  rw [State.fwCommit_of_not_onTrial (s := s.wr .MGC_MBOX_CTRL_CMD 3) h]
  exact ⟨mboxDone_ends _ (by decide) 0, rfl⟩

theorem fwCommit_inTrial {i : Image} (htrial : s.onTrial = true) (hi : s.mgc.image = some i) :
    ∃ u, exec .fwCommit s = .next u ∧ MboxEnds u 0 0 ∧ u.mgc.fuses.svn = max s.mgc.fuses.svn i.svn ∧
      (∀ k, k < 4 → bitAt u.mgc.fuses.imgRevoke k =
        (bitAt s.mgc.fuses.imgRevoke k || (bitAt i.revoke k && decide (k ≠ i.keySlot)))) ∧
      (∀ k, k < 2 → bitAt u.mgc.fuses.fnsRevoke k = (bitAt s.mgc.fuses.fnsRevoke k || bitAt i.revoke (4 + k))) ∧
      slotState u.mgc.log i.slot = 2 ∧ activeSlot u.mgc.log = i.slot ∧ u.rd .MGC_BOOT_STATUS_TRIAL = 0 ∧
      u.mem = s.mem := by
  refine ⟨_, exec_fwCommit htakes harg, ?_⟩
  rw [State.fwCommit_of_onTrial (s := s.wr .MGC_MBOX_CTRL_CMD 3) htrial hi]
  obtain ⟨-, hmem⟩ := (s.wr .MGC_MBOX_CTRL_CMD 3).raiseSvn_spec i
  obtain ⟨htrial', hmem', hfuses, hstate, hactive⟩ :=
    (((s.wr .MGC_MBOX_CTRL_CMD 3).raiseSvn i).setMgc { ((s.wr .MGC_MBOX_CTRL_CMD 3).raiseSvn i).mgc with
      fuses := Fuses.blow { s.mgc.fuses with svn := max s.mgc.fuses.svn i.svn } i }).logCommit_spec i
  refine ⟨mboxDone_ends _ (by decide) 0, congrArg Fuses.svn hfuses, fun k hk => ?_, fun k hk => ?_, hstate, hactive,
    (State.rd_mboxDone _ _ _ (by decide)).trans htrial', hmem'.trans hmem⟩
  · exact (congrArg (fun f : Fuses => bitAt f.imgRevoke k) hfuses).trans (Fuses.bitAt_blow_imgRevoke _ i hk)
  · exact (congrArg (fun f : Fuses => bitAt f.fnsRevoke k) hfuses).trans (Fuses.bitAt_blow_fnsRevoke _ i hk)

theorem fwRevert_outsideTrial (h : trialSlot s.mgc.log = none) :
    ∃ u, exec .fwRevert s = .next u ∧ MboxEnds u 11 0 ∧ u.mgc = s.mgc := by
  refine ⟨_, exec_fwRevert htakes harg, ?_⟩
  rw [State.fwRevert_of_no_trial (s := s.wr .MGC_MBOX_CTRL_CMD 4) h]
  exact ⟨mboxDone_ends _ (by decide) 0, rfl⟩

theorem fwRevert_inTrial {k : Nat} (h : trialSlot s.mgc.log = some k) :
    ∃ u, exec .fwRevert s = .next u ∧ MboxEnds u 0 0 ∧ slotState u.mgc.log k = 3 ∧ u.mgc.image = s.mgc.image ∧
      u.mem = s.mem := by
  obtain ⟨t, hrevert, hstate, himage, hmem⟩ := State.fwRevert_of_trial (s := s.wr .MGC_MBOX_CTRL_CMD 4) h
  refine ⟨_, exec_fwRevert htakes harg, ?_⟩
  rw [hrevert]
  exact ⟨mboxDone_ends t (by decide) 0, hstate, himage, hmem⟩

end

end Sys2Proof.Claims

/-! ### FURNISH_WRITE (R489) -/

namespace Sys2Proof.Machine

/-- Of the two furnish copies one ranks first (R31). -/
theorem State.furnFirst_le_one (s : State) : s.furnFirst ≤ 1 := by
  unfold State.furnFirst
  dsimp only
  split <;> decide

/-- A bit-stream that FURNISH_WRITE takes is supplied whole. -/
theorem State.furnLength_le_of_furnWriteErr_none {s : State} {bs : List Byte} (h : s.furnWriteErr bs = none) :
    furnLength bs ≤ bs.length := by
  refine furnLength_le_of_headerErr_none (delta := false) ?_
  by_contra hheader
  obtain ⟨e, he⟩ := Option.ne_none_iff_exists'.mp hheader
  simp [State.furnWriteErr, he] at h

section
variable {s : State} {r : List Byte}

theorem State.furnishWrite_of_misaligned (h : leAt r 0 8 % 8 ≠ 0) : s.furnishWrite r = s.mboxDone cRequest := by
  simp [State.furnishWrite, h]

variable (halign : leAt r 0 8 % 8 = 0) (hlow : leAt r 0 8 < 2 ^ 44) (hraise : leAt r 8 4 ≤ 1)
  (hlen : 64 ≤ (s.loadBytes (leAt r 0 8)).length)
include halign hlow hraise hlen

theorem State.furnishWrite_of_error {e : LoadErr} (he : s.furnWriteErr (s.loadBytes (leAt r 0 8)) = some e) :
    s.furnishWrite r = s.mboxDone cRequest e.status := by
  simp [State.furnishWrite, halign, Nat.not_le.mpr (show leAt r 0 8 < 17592186044416 from hlow),
     Nat.not_lt.mpr hraise, Nat.not_lt.mpr hlen, he]

theorem State.furnishWrite_of_ok (he : s.furnWriteErr (s.loadBytes (leAt r 0 8)) = none) :
    s.furnishWrite r = ((s.wr .MGC_MBOX_CTRL_PENDING 1).setFlash (furnBaseAddr (1 - s.furnFirst))
      ((s.loadBytes (leAt r 0 8)).take (furnLength (s.loadBytes (leAt r 0 8))))).startFlash (3 - s.furnFirst)
        (16 * leAt r 8 4) := by
  have hfirst := s.furnFirst_le_one
  have htarget : 2 + (1 - s.furnFirst) = 3 - s.furnFirst := by omega
  have harg : leAt r 8 4 % 2 = leAt r 8 4 := by omega
  simp [State.furnishWrite, halign, Nat.not_le.mpr (show leAt r 0 8 < 17592186044416 from hlow),
     Nat.not_lt.mpr hraise, Nat.not_lt.mpr hlen, he, htarget, harg]

end

end Sys2Proof.Machine

namespace Sys2Proof.Claims
open Sys2Proof.Machine

theorem furnishWrite_rewritesACopy {s s1 : State} {r : List Byte} (hreads : MboxReads s s1 7 16 r) :
    let a := leAt r 0 8
    let bs := s1.loadBytes a
    (a % 8 ≠ 0 → ∃ u, exec .furnishWrite s = .next u ∧ MboxEnds u 12 0 ∧ u.mgc = s1.mgc) ∧
    (a % 8 = 0 → a < 2 ^ 44 → leAt r 8 4 ≤ 1 → 64 ≤ bs.length → ∃ u, exec .furnishWrite s = .next u ∧ u.furn = s1.furn ∧
      (∀ e, s1.furnWriteErr bs = some e → MboxEnds u 12 (e.status % 2 ^ 28) ∧ u.mgc = s1.mgc) ∧
      (s1.furnWriteErr bs = none → u.rd .MGC_MBOX_CTRL_PENDING = 1 ∧
        u.flashBytes (furnBaseAddr (1 - s1.furnFirst)) (furnLength bs) = bs.take (furnLength bs) ∧
        u.maint.running = s1.maint.running ++ [⟨8, 3 - s1.furnFirst, 16 * leAt r 8 4⟩])) := by
  intro a bs
  have hexec : exec .furnishWrite s = .next (s1.furnishWrite r) := congrArg Host.Outcome.next (hreads.mboxRec_eq _)
  refine ⟨fun halign => ⟨_, hexec, ?_⟩, fun halign hlow hraise hlen => ⟨_, hexec, ?_⟩⟩
  · rw [State.furnishWrite_of_misaligned halign]
    exact ⟨mboxDone_ends _ (by decide) 0, rfl⟩
  · cases he : s1.furnWriteErr bs with
    | some e =>
      rw [State.furnishWrite_of_error halign hlow hraise hlen he]
      refine ⟨rfl, fun e' he' => ?_, nofun⟩
      obtain rfl := Option.some.inj he'
      exact ⟨mboxDone_ends _ (by decide) _, rfl⟩
    | none =>
      rw [State.furnishWrite_of_ok halign hlow hraise hlen he]
      refine ⟨rfl, nofun, fun _ => ⟨State.rd_wr_same s1 .MGC_MBOX_CTRL_PENDING 1 0 0, ?_, rfl⟩⟩
      have hwhole : (bs.take (furnLength bs)).length = furnLength bs :=
        List.length_take_of_le (State.furnLength_le_of_furnWriteErr_none he)
      have hflash := State.flashBytes_setFlash (s1.wr .MGC_MBOX_CTRL_PENDING 1) (furnBaseAddr (1 - s1.furnFirst))
        (bs.take (furnLength bs))
      rw [hwhole] at hflash
      exact hflash

theorem updatesAreCheckedAndLogged : UpdatesAreCheckedAndLogged :=
  ⟨fun _ _ _ hreads haddr hgiven htotal hreserved halone =>
      fwStage_checksItsImage hreads ⟨haddr, hgiven, htotal, hreserved, halone⟩,
    fun _ htakes harg => ⟨fwCommit_outsideTrial htakes harg, fun _ => fwCommit_inTrial htakes harg,
      fwRevert_outsideTrial htakes harg, fun _ => fwRevert_inTrial htakes harg⟩,
    fun _ _ _ => furnishWrite_rewritesACopy⟩

end Sys2Proof.Claims

/-! ### ATTEST and IDENTITY (R487, R488) -/

namespace Sys2Proof.Machine

/-- The public key and its certificate as IDENTITY writes them (R488). -/
def Fuses.identityRecord (f : Fuses) : List Byte :=
  slice f.identity 0 516 ++ toLe 4 0 ++ toLe 4 (min 4096 f.cert.length) ++ toLe 4 0 ++ f.cert.take 4096

section
variable {s : State} {r : List Byte}

theorem State.attest_of_badRequest
    (h : leAt r 0 8 % 64 ≠ 0 ∨ leAt r 8 4 < 1904 ∨ s.usableRange (leAt r 0 8) 1904 = false) :
    s.attest r = s.mboxDone cRequest := by
  unfold State.attest
  obtain h | h | h := h <;> simp [h]

theorem State.attest_of_request (halign : leAt r 0 8 % 64 = 0) (hcap : 1904 ≤ leAt r 8 4) (hzero : leAt r 12 4 = 0)
    (huse : s.usableRange (leAt r 0 8) 1904 = true) :
    s.attest r = (s.takeFree.2.physWrite (leAt r 0 8)
      (s.report (slice r 16 32) ++ (List.range 512).map (Config.mgcByte s.takeFree.1))).mboxDone cOk := by
  simp [State.attest, halign, Nat.not_lt.mpr hcap, hzero, huse]

theorem State.identityCmd_of_noRoom (h : leAt r 8 4 < 4624) : s.identityCmd r = s.mboxDone cRequest := by
  simp [State.identityCmd, h]

theorem State.identityCmd_of_request (hcap : 4624 ≤ leAt r 8 4) (hzero : leAt r 12 4 = 0)
    (huse : s.usableRange (leAt r 0 8) s.mgc.fuses.identityRecord.length = true) :
    s.identityCmd r = (s.physWrite (leAt r 0 8) s.mgc.fuses.identityRecord).mboxDone cOk :=
  if_neg (by simpa [Nat.not_lt.mpr hcap, hzero, Fuses.identityRecord] using huse)

end

end Sys2Proof.Machine

namespace Sys2Proof.Claims
open Sys2Proof.Machine

theorem reportsAreWritten : ReportsAreWritten := by
  intro s s1 r out cap
  refine ⟨fun hreads => ?attest, fun hreads => ?identity⟩
  case attest =>
    have hexec : exec .attest s = .next (s1.attest r) := congrArg Host.Outcome.next (hreads.mboxRec_eq _)
    refine ⟨fun hbreaks => ⟨_, hexec, ?_⟩,
      fun halign hcap hzero huse => ⟨_, (List.range 512).map (Config.mgcByte s1.takeFree.1), hexec, ?_⟩⟩
    · rw [State.attest_of_badRequest hbreaks]
      exact ⟨mboxDone_ends s1 (by decide) 0, rfl⟩
    · rw [State.attest_of_request halign hcap hzero huse]
      exact ⟨mboxDone_ends _ (by decide) 0, by simp, State.mboxDone_mem _ _ _⟩
  case identity =>
    have hexec : exec .identity s = .next (s1.identityCmd r) := congrArg Host.Outcome.next (hreads.mboxRec_eq _)
    refine ⟨fun hcap => ⟨_, hexec, ?_⟩, fun hcap hzero huse => ⟨_, hexec, ?_⟩⟩
    · rw [State.identityCmd_of_noRoom hcap]
      exact ⟨mboxDone_ends s1 (by decide) 0, rfl⟩
    · rw [State.identityCmd_of_request hcap hzero huse]
      exact ⟨mboxDone_ends _ (by decide) 0, State.mboxDone_mem _ _ _⟩

/-- Settles O56: each command runs on the state that reading its request record leaves, and its own equation says how it
ends; that FINALISE's two writes do not depend on the module it keeps between them is `State.physWrite_setMgc`. -/
theorem mailboxCommandsComplete : Obligations.MailboxCommandsComplete :=
  ⟨theMailboxTakesOne, finaliseWritesItsResult, updatesAreCheckedAndLogged, reportsAreWritten⟩

end Sys2Proof.Claims
end

