-- ==== Sys2Proof/Proofs/Teardown.lean ====
section
/-!
PROOF. The reclaim of an idle partition (R287): no engine holds any of its work, so that the teardown ends at once; what it
writes to the registers, and what it leaves unchanged.
-/

namespace Sys2Proof.Machine

/-! ### States that agree but for some register fields -/

/-- `u` agrees with `s` on the memory, the functions, the furnish and every unit that can hold work, and on every register
field outside `fs`. -/
structure State.AgreesBut (s : State) (fs : List Field) (u : State) : Prop where
  mem : u.mem = s.mem
  pcie : u.pcie = s.pcie
  furn : u.furn = s.furn
  hb : u.hb = s.hb
  launches : u.launches = s.launches
  passes : u.geo.passes = s.geo.passes
  vats : u.vats = s.vats
  codec : u.codec = s.codec
  sync : u.sync = s.sync
  xlt : u.xlt = s.xlt
  rd : ∀ f ∉ fs, ∀ i j : Nat, i < 65536 → j < 65536 → u.rd f i j = s.rd f i j

section
variable {s t u : State} {fs gs : List Field}

theorem State.AgreesBut.refl (s : State) (fs : List Field) : s.AgreesBut fs s :=
  ⟨rfl, rfl, rfl, rfl, rfl, rfl, rfl, rfl, rfl, rfl, fun _ _ _ _ _ _ => rfl⟩

theorem State.AgreesBut.trans (h : s.AgreesBut fs t) (k : t.AgreesBut gs u) : s.AgreesBut (fs ++ gs) u where
  mem := k.mem.trans h.mem
  pcie := k.pcie.trans h.pcie
  furn := k.furn.trans h.furn
  hb := k.hb.trans h.hb
  launches := k.launches.trans h.launches
  passes := k.passes.trans h.passes
  vats := k.vats.trans h.vats
  codec := k.codec.trans h.codec
  sync := k.sync.trans h.sync
  xlt := k.xlt.trans h.xlt
  rd f hf i j hi hj := by
    rw [List.mem_append, not_or] at hf
    exact (k.rd f hf.2 i j hi hj).trans (h.rd f hf.1 i j hi hj)

theorem State.AgreesBut.mono (h : s.AgreesBut fs u) (hsub : fs ⊆ gs) : s.AgreesBut gs u :=
  { h with rd := fun f hf => h.rd f fun hmem => hf (hsub hmem) }

/-- A further register write. -/
theorem State.AgreesBut.wr (h : s.AgreesBut fs u) (f : Field) (v : Nat) {i j : Nat} (hi : i < 65536) (hj : j < 65536) :
    s.AgreesBut (fs ++ [f]) (u.wr f v i j) :=
  h.trans { State.AgreesBut.refl u [f] with
    rd := fun _ hg _ _ hi' hj' => u.rd_wr_field hi hj hi' hj' fun e => hg (List.mem_singleton.mpr e) }

/-- A run of operations that each keep the agreement keeps it. -/
theorem State.AgreesBut.foldl {α : Type} {l : List α} {op : State → α → State}
    (hop : ∀ u, s.AgreesBut fs u → ∀ a ∈ l, u.AgreesBut fs (op u a)) : s.AgreesBut fs (l.foldl op s) :=
  List.foldlRecOn l op (.refl s fs) fun u hu a ha =>
    (hu.trans (hop u hu a ha)).mono (List.append_subset.mpr ⟨List.Subset.refl _, List.Subset.refl _⟩)

end

/-! ### A partition with nothing to tear down -/

/-- No unit holds any work, partition `p` has no part on another chip, and no sync or memory object lives. -/
structure State.IdlePart (s : State) (p : Nat) : Prop where
  alone : s.spanning p = false
  hb : s.hb = {}
  launches : s.launches = []
  passes : s.geo.passes = []
  vats : s.vats = []
  codec : s.codec = {}
  sync : s.sync = {}
  xlt : s.xlt = {}
  objs : ∀ h < 16384, s.rd .SYN_OBJ_TYPE h = 0
  memObjs : ∀ h < 4096, s.rd .HB_MO_STATE h = 0

section
variable {s u : State} {p : Nat} {fs : List Field}

theorem State.AgreesBut.idlePart (h : s.AgreesBut fs u) (hidle : s.IdlePart p) (hsyn : .SYN_OBJ_TYPE ∉ fs)
    (hmo : .HB_MO_STATE ∉ fs) : u.IdlePart p where
  alone := by
    rw [← hidle.alone]
    unfold State.spanning State.part
    rw [h.furn]
  hb := h.hb.trans hidle.hb
  launches := h.launches.trans hidle.launches
  passes := h.passes.trans hidle.passes
  vats := h.vats.trans hidle.vats
  codec := h.codec.trans hidle.codec
  sync := h.sync.trans hidle.sync
  xlt := h.xlt.trans hidle.xlt
  objs k hk := (h.rd _ hsyn k 0 (by omega) (by omega)).trans (hidle.objs k hk)
  memObjs k hk := (h.rd _ hmo k 0 (by omega) (by omega)).trans (hidle.memObjs k hk)

/-- An idle partition owns no sync object. -/
theorem State.IdlePart.objsOf_eq (hidle : s.IdlePart p) (q : Nat) (f : Nat → Bool) : s.objsOf q f = [] :=
  List.filter_eq_nil_iff.mpr fun h hh => by
    have htype : s.objType h = 0 := hidle.objs h (List.mem_range.mp hh)
    simp [htype]

theorem State.IdlePart.allCmds_eq (hidle : s.IdlePart p) : s.allCmds = [] := by
  simp [State.allCmds, hidle.hb]

/-! ### What the steps of the reclaim find -/

section
variable (hidle : s.IdlePart p)
include hidle

theorem State.IdlePart.emptyPreloads_eq (c : StopCause) : s.emptyPreloads c = s := by
  unfold State.emptyPreloads
  rw [hidle.vats, List.map_nil, ← hidle.vats]

theorem State.IdlePart.setWaits_filter (f : Wait → Bool) : s.setWaits (s.sync.waits.filter f) = s := by
  have hwaits : s.sync.waits = [] := by rw [hidle.sync]
  unfold State.setWaits
  rw [hwaits, List.filter_nil, ← hwaits]

theorem State.IdlePart.abandon_eq (q : Nat) : s.abandon q = s := by
  unfold State.abandon
  rw [hidle.objsOf_eq]
  exact hidle.setWaits_filter _

theorem State.IdlePart.dropStops_eq (f : Stop → Bool) : s.dropStops f = s := by
  have hstops : s.hb.stops = [] := by rw [hidle.hb]
  unfold State.dropStops
  rw [hstops, List.filter_nil, ← hstops]

theorem State.IdlePart.abortWaiting_eq (c : StopCause) : s.abortWaiting c = s := by
  have hruns : s.hb.runs = [] := by rw [hidle.hb]
  have hcmds := hidle.allCmds_eq
  unfold State.abortWaiting
  simp only [hruns, List.map_nil]
  rw [← hruns]
  simp only [hcmds, List.filter_nil, List.foldl_nil]
  exact hidle.setWaits_filter _

/-- No engine holds work, and no member chip does. -/
theorem State.IdlePart.holders_reclaim : s.holders (.reclaim p) = [] := by
  have hhanded : s.scopeHanded (.reclaim p) = [] := by simp [State.scopeHanded, hidle.allCmds_eq]
  have hvats : s.scopeVats (.reclaim p) = [] := by simp [State.scopeVats, State.vat, hidle.vats, storeGet]
  have hmembers : s.scopeMembers (.reclaim p) = [] := by simp [State.scopeMembers, StopCause.part, hidle.alone]
  simp [State.holders, hhanded, hvats, hmembers, hidle.passes]

theorem State.IdlePart.passRecords_eq : s.passRecords = s := by
  simp [State.passRecords, hidle.hb]

theorem State.IdlePart.flushQueue_eq (c : StopCause) : s.flushQueue c = s := by
  simp [State.flushQueue, hidle.allCmds_eq]

theorem State.IdlePart.abortFences_eq (q k : Nat) : s.abortFences q k = s := by
  have hnone : ∀ h ∈ List.range 16384, ¬(s.objType h = 1) := fun h hh htype => by
    have hfree : s.objType h = 0 := hidle.objs h (List.mem_range.mp hh)
    omega
  unfold State.abortFences
  rw [List.filter_eq_nil_iff.mpr fun h hh => by simp [hnone h hh]]
  rfl

theorem State.IdlePart.freeLocks_eq (q : Nat) : s.freeLocks q = s := by
  have hlockq : s.sync.lockq = [] := by rw [hidle.sync]
  unfold State.freeLocks
  rw [hidle.objsOf_eq, hlockq, List.filter_nil, ← hlockq]
  rfl

theorem State.IdlePart.serveWaits_eq : s.serveWaits = s := by
  have hwait : s.hb.reclaimWait = [] := by rw [hidle.hb]
  unfold State.serveWaits
  simp only [hwait, List.take_nil, List.drop_nil, List.foldl_nil]
  rw [← hwait]
  exact hidle.passRecords_eq

theorem State.IdlePart.reclaimObjs_eq (q : Nat) : s.reclaimObjs q = s := by
  have hreleases : s.hb.releases = [] := by rw [hidle.hb]
  unfold State.reclaimObjs
  simp only [hidle.freeLocks_eq, hidle.objsOf_eq, hreleases, List.filter_nil, List.foldl_nil]
  refine (congrArg State.serveWaits ?memObjs).trans hidle.serveWaits_eq
  refine List.foldlRecOn (motive := (· = s)) _ _ rfl fun u hu h hh => ?_
  subst hu
  simp [hidle.memObjs h (List.mem_range.mp hh)]

theorem State.IdlePart.emptySlots_eq (q : Nat) : s.emptySlots q = s := by
  have hslots : s.codec.slots = [] := by rw [hidle.codec]
  unfold State.emptySlots
  rw [hslots, List.filter_nil, ← hslots]

end

/-! ### What the steps of the reclaim change -/

theorem State.IdlePart.agrees_dropLaunches (hidle : s.IdlePart p) (c : StopCause) : s.AgreesBut [] (s.dropLaunches c) :=
  { State.AgreesBut.refl s [] with
    launches := by
      show s.launches.filter _ = s.launches
      rw [hidle.launches, List.filter_nil] }

/-- The state in which no command of queue q is refused for a refused BIN_BEGIN (R173). -/
def State.unrefuse (s : State) (p q : Nat) : State :=
  { s with geo := { s.geo with refusing := s.geo.refusing.filter (fun k => k ≠ p * 16 + q) } }

theorem State.agrees_unrefuse (s : State) (p q : Nat) : s.AgreesBut [] (s.unrefuse p q) :=
  { State.AgreesBut.refl s [] with }

theorem State.finishQueue_eq (s : State) (p q : Nat) (c : StopCause) :
    s.finishQueue p q c false = ((((((s.unrefuse p q).flushQueue c).dropLaunches c).abortFences p q).wr
      .HB_Q_CTRL_DESTROYING 0 p q).passRecords) := by
  unfold State.finishQueue State.unrefuse
  simp only [Bool.false_eq_true, if_false]

/-- A queue's destruction clears its DESTROYING (R285). -/
theorem State.IdlePart.agrees_finishQueue (hidle : s.IdlePart p) (c : StopCause) (hp : p < 65536) {q : Nat} (hq : q < 65536) :
    s.AgreesBut [.HB_Q_CTRL_DESTROYING] (s.finishQueue p q c false) := by
  have hunrefuse := s.agrees_unrefuse p q
  have hidle0 := hunrefuse.idlePart hidle (by simp) (by simp)
  have hlaunches := hidle0.agrees_dropLaunches c
  have hidle1 := hlaunches.idlePart hidle0 (by simp) (by simp)
  have hcleared := (hunrefuse.trans hlaunches).wr .HB_Q_CTRL_DESTROYING 0 hp hq
  have hidle2 := hcleared.idlePart hidle (by simp) (by simp)
  rw [State.finishQueue_eq, hidle0.flushQueue_eq, hidle1.abortFences_eq, hidle2.passRecords_eq]
  exact hcleared

theorem State.lt_of_mem_liveQueues {q : Nat} (h : q ∈ s.liveQueues p) : q < 16 :=
  List.mem_range.mp (List.mem_filter.mp h).1

/-- The end of the partition's queues in its reclaim (R287 step 4). -/
def State.finishQueues (s : State) (p : Nat) : State :=
  (s.liveQueues p).foldl (fun s q => s.finishQueue p q (.reclaim p) false) s

/-- The queues that end keep their EN. -/
theorem State.IdlePart.agrees_finishQueues (hidle : s.IdlePart p) (hp : p < 65536) :
    s.AgreesBut [.HB_Q_CTRL_DESTROYING] (s.finishQueues p) :=
  .foldl fun _ hu _ hq => (hu.idlePart hidle (by simp) (by simp)).agrees_finishQueue _ hp
    (Nat.lt_trans (State.lt_of_mem_liveQueues hq) (by decide))

/-- The partition's migration entries are freed; no wait on one is there (R347). -/
theorem State.IdlePart.agrees_dropMigrations (hidle : s.IdlePart p) (k : Nat) :
    s.AgreesBut [.XLT_MIG_USED] (s.dropMigrations k) := by
  have hfree : s.AgreesBut [.XLT_MIG_USED]
      (((List.range 64).filter (fun e => s.rd .XLT_MIG_USED e = 1 && s.rd .XLT_MIG_PART e = k)).foldl
        (fun (s : State) e => s.wr .XLT_MIG_USED 0 e) s) :=
    .foldl fun u _ e he => by
      have he64 : e < 64 := List.mem_range.mp (List.mem_filter.mp he).1
      exact (State.AgreesBut.refl u []).wr _ _ (by omega) (by omega)
  exact { hfree with xlt := by simp [State.dropMigrations, hfree.xlt, hidle.xlt] }

/-- The partition's root is disabled; no translation is there to be dropped (R287 step 4, R350). -/
theorem State.IdlePart.agrees_dropTranslations (hidle : s.IdlePart p) (hp : p < 65536) :
    s.AgreesBut [.XLT_ROOT_EN, .XLT_MIG_USED] (s.dropTranslations p) ∧ (s.dropTranslations p).rd .XLT_ROOT_EN p = 0 := by
  have hj : 0 < 65536 := by decide
  have hroot := (State.AgreesBut.refl s []).wr .XLT_ROOT_EN 0 hp hj
  have hmig := (hroot.idlePart hidle (by simp) (by simp)).agrees_dropMigrations p
  have hdrop : ((s.wr .XLT_ROOT_EN 0 p).dropMigrations p).AgreesBut [] (s.dropTranslations p) :=
    { State.AgreesBut.refl _ [] with xlt := by simp [State.dropTranslations, hmig.xlt, hidle.xlt] }
  refine ⟨(hroot.trans hmig).trans hdrop, ?_⟩
  rw [hdrop.rd _ (by simp) p 0 hp hj, hmig.rd _ (by simp) p 0 hp hj]
  exact State.rd_wr_same _ _ _ _ _

theorem State.agrees_reclaimEvents (s : State) (hp : p < 65536) :
    s.AgreesBut [.EVQ_READ_INDEX, .EVQ_CTRL_OVF] (s.reclaimEvents p) := by
  unfold State.reclaimEvents
  split
  · have hwrites := ((State.AgreesBut.refl s []).wr .EVQ_READ_INDEX (s.rd .EVQ_WRITE_INDEX p) hp (by omega : 0 < 65536)).wr
      .EVQ_CTRL_OVF 0 hp (by omega : 0 < 65536)
    exact { hwrites with }
  · exact .refl _ _

/-! ### The reclaim's last record -/

/-- An event of a kind at a target without an enabled queue is only pending (R296, R301). -/
theorem State.raise_of_disabled {t : Nat} (ht : t < 65536) (h : s.rd .EVQ_CTRL_EN t = 0) (e : Ev) :
    s.raise t e = s.wr .EVQ_PEND_PEND (setBit (s.rd .EVQ_PEND_PEND t) (e.kind - 1)) t := by
  unfold State.raise
  split
  · rfl
  · refine if_pos ?_
    rw [State.rd_wr_field _ ht (by omega) ht (by omega) (by decide)]
    exact h

/-- With partition p's FLR the only one that runs, its end clears the status and raises the FLR record at the PF's target, and
a partition that runs keeps its state (R232 step 4). -/
theorem State.reclaimRecord_of_flr (hp : p < 32) (hflr : s.rd .GLB_FLR_STATUS_RUNNING = 2 ^ p)
    (hrun : s.funcState p = fnRunning) (hoff : s.rd .EVQ_CTRL_EN 32 = 0) :
    s.AgreesBut [.GLB_FLR_STATUS_RUNNING, .EVQ_PEND_PEND] (s.reclaimRecord p) ∧
      (s.reclaimRecord p).rd .GLB_FLR_STATUS_RUNNING = 0 ∧ kindBit ((s.reclaimRecord p).rd .EVQ_PEND_PEND 32) 7 = true := by
  have hbit : bitAt (2 ^ p) p = true := by simp [bitAt]
  have hclear : clearBit (2 ^ p) p = 0 := by simp [clearBit, hbit]
  have hended := (State.AgreesBut.refl s []).wr .GLB_FLR_STATUS_RUNNING 0 (by decide : 0 < 65536) (by decide : 0 < 65536)
  have hrun1 : (s.wr .GLB_FLR_STATUS_RUNNING 0).funcState p = 0 :=
    (hended.rd _ (by decide) p 0 (by omega) (by decide)).trans hrun
  have hoff1 := (hended.rd _ (by decide) 32 0 (by decide) (by decide)).trans hoff
  have hrecord : s.reclaimRecord p = (s.wr .GLB_FLR_STATUS_RUNNING 0).raise 32 { kind := 0x07, src := p } := by
    simp [State.reclaimRecord, hflr, hbit, hclear, hrun1, fnStopping]
  rw [hrecord, State.raise_of_disabled (by decide) hoff1]
  refine ⟨hended.wr .EVQ_PEND_PEND _ (by decide) (by decide), ?_, ?_⟩
  · rw [State.rd_wr_field _ (by decide) (by decide) (by decide) (by decide) (by decide)]
    exact State.rd_wr_same _ _ _ _ _
  · have hwidth : 6 < Field.width .EVQ_PEND_PEND := by decide
    rw [State.rd_wr_same, kindBit, bitAt_eq_testBit, Nat.testBit_mod_two_pow, ← bitAt_eq_testBit, bitAt_setBit]
    simp [hwidth]

/-! ### The whole reclaim -/

/-- What a reclaim forgets of a partition besides its commands: its heap, its graphs and its saved blocks (R287 step 5). -/
def State.forgetPart (s : State) (p : Nat) : State :=
  { s with
    heaps := storeErase s.heaps p
    hb := { s.hb with
      versions := s.hb.versions.filter (fun v => v.p ≠ p)
      runs := s.hb.runs.filter (fun r => r.p ≠ p) }
    sched := { s.sched with saved := s.sched.saved.filter (fun x => x.p ≠ p) } }

/-- The reclaim no longer runs, and the partition is no longer torn down (R287 step 6). -/
def State.clearReclaim (s : State) (p : Nat) : State :=
  (((s.wr .HB_RECLAIM_RUNNING 0 p).wr .SCH_FAULT_CTRL_FAULTED 0 p).wr .SCH_FAULT_CTRL_STOPPED 0 p).wr .SCH_FAULT_CTRL_MORE 0 p

theorem State.finishReclaim_eq (s : State) (p : Nat) :
    s.finishReclaim p = ((((((((s.finishQueues p).dropLaunches (.reclaim p)).dropTranslations p).reclaimObjs p).emptySlots
      p).forgetPart p).reclaimEvents p).clearReclaim p).reclaimRecord p := by
  simp only [State.finishReclaim, State.finishQueues, State.forgetPart, State.clearReclaim]

theorem State.IdlePart.agrees_forgetPart (hidle : s.IdlePart p) (k : Nat) : s.AgreesBut [] (s.forgetPart k) :=
  { State.AgreesBut.refl s [] with
    hb := by
      unfold State.forgetPart
      rw [hidle.hb]
      rfl }

theorem State.agrees_clearReclaim (s : State) (hp : p < 65536) :
    s.AgreesBut [.HB_RECLAIM_RUNNING, .SCH_FAULT_CTRL_FAULTED, .SCH_FAULT_CTRL_STOPPED, .SCH_FAULT_CTRL_MORE]
      (s.clearReclaim p) ∧ (s.clearReclaim p).rd .HB_RECLAIM_RUNNING p = 0 := by
  have hj : 0 < 65536 := by decide
  have hreclaim := (State.AgreesBut.refl s []).wr .HB_RECLAIM_RUNNING 0 hp hj
  have hfault := (((State.AgreesBut.refl (s.wr .HB_RECLAIM_RUNNING 0 p) []).wr .SCH_FAULT_CTRL_FAULTED 0 hp hj).wr
    .SCH_FAULT_CTRL_STOPPED 0 hp hj).wr .SCH_FAULT_CTRL_MORE 0 hp hj
  refine ⟨hreclaim.trans hfault, ?_⟩
  rw [State.clearReclaim, hfault.rd _ (by decide) p 0 hp hj]
  exact State.rd_wr_same _ _ _ _ _

/-- Steps 4 to 6 of an idle partition's reclaim: the root is disabled and the reclaim no longer runs when its record is
written. -/
theorem State.IdlePart.finishReclaim_spec (hidle : s.IdlePart p) (hp : p < 65536) :
    ∃ t, s.finishReclaim p = t.reclaimRecord p ∧
      s.AgreesBut [.HB_Q_CTRL_DESTROYING, .XLT_ROOT_EN, .XLT_MIG_USED, .EVQ_READ_INDEX, .EVQ_CTRL_OVF, .HB_RECLAIM_RUNNING,
        .SCH_FAULT_CTRL_FAULTED, .SCH_FAULT_CTRL_STOPPED, .SCH_FAULT_CTRL_MORE] t ∧
      t.rd .XLT_ROOT_EN p = 0 ∧ t.rd .HB_RECLAIM_RUNNING p = 0 := by
  have hj : 0 < 65536 := by decide
  let lost := ((s.finishQueues p).dropLaunches (.reclaim p)).dropTranslations p
  have hqueues := hidle.agrees_finishQueues hp
  have hidle1 := hqueues.idlePart hidle (by decide) (by decide)
  have hlaunches := hidle1.agrees_dropLaunches (.reclaim p)
  have hidle2 := hlaunches.idlePart hidle1 (by decide) (by decide)
  obtain ⟨htranslations, hroot⟩ := hidle2.agrees_dropTranslations hp
  have hidle3 : lost.IdlePart p := htranslations.idlePart hidle2 (by decide) (by decide)
  have hforget := hidle3.agrees_forgetPart p
  have hevents := (lost.forgetPart p).agrees_reclaimEvents hp
  obtain ⟨hclear, hreclaim⟩ := ((lost.forgetPart p).reclaimEvents p).agrees_clearReclaim hp
  rw [State.finishReclaim_eq, hidle3.reclaimObjs_eq, hidle3.emptySlots_eq]
  refine ⟨_, rfl, ((((hqueues.trans hlaunches).trans htranslations).trans hforget).trans hevents).trans hclear, ?_,
    hreclaim⟩
  rw [hclear.rd _ (by decide) p 0 hp hj, hevents.rd _ (by decide) p 0 hp hj, hforget.rd _ (by decide) p 0 hp hj, hroot]

/-- What a reclaim writes when it starts, the queues aside (R287 step 1). -/
def State.beginReclaim (s : State) (p : Nat) : State :=
  ((s.wr .HB_RECLAIM_RUNNING 1 p).wr .GEO_GROW_CTRL_REQ 0 p).wr .GEO_GROW_WANT_BYTES 0 p

/-- Every enabled or dying queue of the partition is disabled and dies (R287 step 1). -/
def State.stopQueues (s : State) (p : Nat) : State :=
  (s.liveQueues p).foldl (fun s q => (s.wr .HB_Q_CTRL_EN 0 p q).wr .HB_Q_CTRL_DESTROYING 1 p q) s

theorem State.agrees_beginReclaim (s : State) (hp : p < 65536) :
    s.AgreesBut [.HB_RECLAIM_RUNNING, .GEO_GROW_CTRL_REQ, .GEO_GROW_WANT_BYTES] (s.beginReclaim p) :=
  have hj : 0 < 65536 := by decide
  (((State.AgreesBut.refl s []).wr .HB_RECLAIM_RUNNING 1 hp hj).wr .GEO_GROW_CTRL_REQ 0 hp hj).wr .GEO_GROW_WANT_BYTES 0 hp hj

theorem State.agrees_stopQueues (s : State) (hp : p < 65536) :
    s.AgreesBut [.HB_Q_CTRL_EN, .HB_Q_CTRL_DESTROYING] (s.stopQueues p) :=
  .foldl fun u _ q hq => by
    have hq16 : q < 16 := State.lt_of_mem_liveQueues hq
    exact ((State.AgreesBut.refl u []).wr .HB_Q_CTRL_EN 0 hp (by omega)).wr .HB_Q_CTRL_DESTROYING 1 hp (by omega)

/-- Of the EN bits, a run of stopped queues clears its own. -/
theorem State.rd_en_stop (hp : p < 65536) {l : List Nat} (hl : ∀ q ∈ l, q < 65536) {k : Nat} (hk : k < 65536) :
    (l.foldl (fun s q => (s.wr .HB_Q_CTRL_EN 0 p q).wr .HB_Q_CTRL_DESTROYING 1 p q) s).rd .HB_Q_CTRL_EN p k =
      if k ∈ l then 0 else s.rd .HB_Q_CTRL_EN p k := by
  induction l generalizing s with
  | nil => rfl
  | cons q l ih =>
    have hq : q < 65536 := hl q List.mem_cons_self
    rw [List.foldl_cons, ih fun x hx => hl x (List.mem_cons_of_mem q hx), State.rd_wr_field _ hp hq hp hk (by decide)]
    by_cases e : k = q
    · subst e
      simp
    · have hkey : Field.key .HB_Q_CTRL_EN p k ≠ Field.key .HB_Q_CTRL_EN p q := fun hkeys =>
        e (Field.key_inj hp hk hp hq hkeys).2.2
      rw [State.rd_wr_ne _ hkey]
      simp [e]

/-- No queue of the partition is enabled any more. -/
theorem State.rd_en_stopQueues (s : State) (hp : p < 65536) {q : Nat} (hq : q < 16) (hen : s.rd .HB_Q_CTRL_EN p q ≤ 1) :
    (s.stopQueues p).rd .HB_Q_CTRL_EN p q = 0 := by
  have hlt : ∀ k ∈ s.liveQueues p, k < 65536 := fun k hk => by
    have hk16 : k < 16 := State.lt_of_mem_liveQueues hk
    omega
  rw [State.stopQueues, State.rd_en_stop hp hlt (by omega)]
  split
  next => rfl
  next hdead =>
    have hne : s.rd .HB_Q_CTRL_EN p q ≠ 1 := fun h1 =>
      hdead (List.mem_filter.mpr ⟨List.mem_range.mpr hq, by simp [h1]⟩)
    omega

/-- A reclaim of an idle partition finishes as soon as it has stopped the queues (R287 steps 1 to 3). -/
theorem State.IdlePart.startReclaim_eq (hidle : s.IdlePart p) (hp : p < 65536) (hnone : s.rd .HB_RECLAIM_RUNNING p = 0) :
    s.startReclaim p = ((s.beginReclaim p).stopQueues p).finishReclaim p := by
  have hj : 0 < 65536 := by decide
  have hrunning := ((State.AgreesBut.refl s []).wr .HB_RECLAIM_RUNNING 1 hp hj).idlePart hidle (by decide) (by decide)
  have hbegun := (s.agrees_beginReclaim hp).idlePart hidle (by decide) (by decide)
  have hstopped := (State.agrees_stopQueues _ hp).idlePart hbegun (by decide) (by decide)
  have hqueues : (s.beginReclaim p).abandon p = s.beginReclaim p := hbegun.abandon_eq p
  unfold State.startReclaim
  simp only [hnone, Nat.zero_ne_one, if_false]
  rw [hrunning.emptyPreloads_eq, ← State.beginReclaim, hqueues, ← State.stopQueues, hstopped.dropStops_eq,
    hstopped.abortWaiting_eq, if_pos hstopped.holders_reclaim]

/-- The fields that a reclaim writes, its record aside. -/
def reclaimFields : List Field :=
  [.HB_RECLAIM_RUNNING, .GEO_GROW_CTRL_REQ, .GEO_GROW_WANT_BYTES, .HB_Q_CTRL_EN, .HB_Q_CTRL_DESTROYING, .XLT_ROOT_EN,
    .XLT_MIG_USED, .EVQ_READ_INDEX, .EVQ_CTRL_OVF, .SCH_FAULT_CTRL_FAULTED, .SCH_FAULT_CTRL_STOPPED, .SCH_FAULT_CTRL_MORE]

/-- When the reclaim of an idle partition writes its record, no queue and no root of it is enabled, and nothing but
`reclaimFields` has changed. -/
theorem State.IdlePart.startReclaim_spec (hidle : s.IdlePart p) (hp : p < 65536) (hnone : s.rd .HB_RECLAIM_RUNNING p = 0)
    (hen : ∀ q : Fin 16, s.rd .HB_Q_CTRL_EN p q ≤ 1) :
    ∃ t, s.startReclaim p = t.reclaimRecord p ∧ s.AgreesBut reclaimFields t ∧
      (∀ q : Fin 16, t.rd .HB_Q_CTRL_EN p q = 0) ∧ t.rd .XLT_ROOT_EN p = 0 ∧ t.rd .HB_RECLAIM_RUNNING p = 0 := by
  have hbegin := s.agrees_beginReclaim hp
  have hstop := (s.beginReclaim p).agrees_stopQueues hp
  have hidle1 := (hbegin.trans hstop).idlePart hidle (by decide) (by decide)
  obtain ⟨t, hfinish, hagrees, hroot, hreclaim⟩ := hidle1.finishReclaim_spec hp
  refine ⟨t, (hidle.startReclaim_eq hp hnone).trans hfinish, ((hbegin.trans hstop).trans hagrees).mono (by decide),
    fun q => ?_, hroot, hreclaim⟩
  have hq : q.val < 65536 := by omega
  rw [hagrees.rd _ (by decide) p q hp hq]
  exact State.rd_en_stopQueues _ hp q.isLt ((hbegin.rd _ (by decide) p q hp hq).trans_le (hen q))

end

end Sys2Proof.Machine
end

