-- ==== Sys2Proof/Proofs/HostLink.lean ====
section
/-!
PROOF. The functions of the PCIe attachment (R230, R298, R516) and the function level resets of VFs (R232, R233).
-/

namespace Sys2Proof.Machine

/-! ### Power states and interrupts -/

section
variable {s : State} {fn : Nat}

/-- A function in D3hot takes no accesses at its BARs, and no doorbell of it acts (R230). -/
theorem State.fnUp_of_d3hot (h : (s.fnCfg fn).d3hot = true) : s.fnUp fn = false := by
  simp [State.fnUp, h]

theorem State.barUp_of_d3hot (h : (s.fnCfg fn).d3hot = true) (off : Nat) : s.barUp fn off = false := by
  simp [State.barUp, h]

theorem State.bellOk_of_d3hot (h : (s.fnCfg fn).d3hot = true) (p : Nat) : s.bellOk fn p = false := by
  simp [State.bellOk, State.fnUp_of_d3hot h]

theorem State.winOk_of_d3hot (h : (s.fnCfg 0).d3hot = true) (off n : Nat) : s.winOk off n = false := by
  simp [State.winOk, State.fnUp_of_d3hot h]

/-- A function that cannot send, or has nothing to send, sends nothing (R298). -/
theorem State.sendPending_of_not (h : ((s.fnCfg fn).pending && (s.fnCfg fn).sends && !(s.fnCfg fn).mask) = false) :
    s.sendPending fn = s :=
  if_neg (by simp [h])

/-- A function that can send a message that waited sends it if the interrupt condition holds (R298). -/
theorem State.sendPending_of_go (h : ((s.fnCfg fn).pending && (s.fnCfg fn).sends && !(s.fnCfg fn).mask) = true) :
    s.sendPending fn = { s.setFn fn { s.fnCfg fn with pending := false } with
      sent := if s.evqCond (targetOfFn fn) then fn :: s.sent else s.sent } := by
  refine (if_pos h).trans ?_
  cases s.evqCond (targetOfFn fn) <;> rfl

theorem State.sendPending_owed (s : State) (fn : Nat) : (s.sendPending fn).owed = s.owed := by
  cases h : (s.fnCfg fn).pending && (s.fnCfg fn).sends && !(s.fnCfg fn).mask
  case false => rw [State.sendPending_of_not h]
  case true => rw [State.sendPending_of_go h]; rfl

/-- With no OVERFLOW record owed to its target, a function that can send again sends its pending message only (R300). -/
theorem State.fnSends_of_none (h : storeFind s.owed (targetOfFn fn) = none) : s.fnSends fn = s.sendPending fn := by
  simp [State.fnSends, State.evOwed, State.sendPending_owed, h]

end

/-! ### The reset of a VF's configuration space -/

/-- The state in which VF k's configuration space has its defaults and its pending completions are discarded (R232). -/
def State.resetVf (s : State) (k : Nat) : State :=
  { s.setFn (k + 1) {} with pcie := { (s.setFn (k + 1) {}).pcie with reqs := s.pcie.reqs.filter (fun r => r.fn ≠ k + 1) } }

section
variable {s : State} {k : Nat}

theorem State.fnExists_of_vfEnabled (hpow : s.powered = true) (h : s.vfEnabled k = true) : s.fnExists (k + 1) = true := by
  simp [State.fnExists, hpow, h]

theorem State.fnCfg_resetVf_same (s : State) (k : Nat) : (s.resetVf k).fnCfg (k + 1) = {} :=
  s.fnCfg_setFn_same (k + 1) {}

theorem State.fnCfg_resetVf_ne (s : State) {k j : Nat} (h : j ≠ k + 1) : (s.resetVf k).fnCfg j = s.fnCfg j :=
  s.fnCfg_setFn_ne {} h

/-- The reset of a configuration space changes no unit that could hold work. -/
theorem State.IdlePart.resetVf {p : Nat} (h : s.IdlePart p) (k : Nat) : (s.resetVf k).IdlePart p :=
  ⟨h.alone, h.hb, h.launches, h.passes, h.vats, h.codec, h.sync, h.xlt, h.objs, h.memObjs⟩

theorem State.flrVf_eq (s : State) (k : Nat) :
    s.flrVf k =
      if (s.part k).isSome && !s.homed k then s.resetVf k
      else if s.flrRuns k then s.resetVf k
      else
        let s2 := (s.resetVf k).wr .GLB_FLR_STATUS_RUNNING (setBit (s.rd .GLB_FLR_STATUS_RUNNING) k)
        if s2.live then (s2.flrStaged k).startReclaim k else s2 := rfl

/-- A second FLR while one runs resets the configuration space only. -/
theorem State.flrVf_of_runs (h : s.flrRuns k = true) : s.flrVf k = s.resetVf k := by
  rw [State.flrVf_eq, if_pos h, ite_self]

/-- An FLR of a partition that is not staged starts its reclaim on its home chip (R232, R233). -/
theorem State.flrVf_of_home (hlive : s.live = true) (hhome : (s.part k).isSome = true → s.homed k = true)
    (hstate : s.funcState k ≠ fnStaged) (hnone : s.rd .GLB_FLR_STATUS_RUNNING = 0) (hk : k < 65536) :
    s.flrVf k = ((s.resetVf k).wr .GLB_FLR_STATUS_RUNNING (2 ^ k)).startReclaim k := by
  have hset : setBit 0 k = 2 ^ k := by simp [setBit, bitAt]
  have hruns : s.flrRuns k = false := by simp [State.flrRuns, hnone, bitAt]
  have haway : ((s.part k).isSome && !s.homed k) = false := by
    cases h : (s.part k).isSome
    case false => rfl
    case true => simp [hhome h]
  let s2 := (s.resetVf k).wr .GLB_FLR_STATUS_RUNNING (2 ^ k)
  have hrd : ∀ f ≠ Field.GLB_FLR_STATUS_RUNNING, ∀ i < 65536, s2.rd f i = s.rd f i := fun f hf i hi =>
    State.rd_wr_field _ (by decide) (by decide) hi (by decide) hf
  have hlive2 : s2.live = true := by
    rw [← hlive]
    unfold State.live
    rw [hrd _ (by decide) 0 (by decide)]
    rfl
  have hstaged : s2.flrStaged k = s2 := if_pos (by rwa [State.funcState, hrd _ (by decide) k hk])
  rw [State.flrVf_eq, if_neg (by simp [haway]), if_neg (by simp [hruns]), hnone, hset]
  exact (if_pos hlive2).trans (congrArg (State.startReclaim · k) hstaged)

end

end Sys2Proof.Machine

namespace Sys2Proof.Claims
open Sys2Proof.Machine

/-! ### What a function does in D3hot and at its ends -/

section
variable {s : State} {fn : Nat}

/-- A changed function that then sends what waited becomes what the change gives it. -/
theorem fnBecomes_sendPending (s : State) (fn : Nat) (c : FnCfg) : FnBecomes s ((s.setFn fn c).sendPending fn) fn c := by
  have hcfg : (s.setFn fn c).fnCfg fn = c := s.fnCfg_setFn_same fn c
  have hne : ∀ j, j ≠ fn → (s.setFn fn c).fnCfg j = s.fnCfg j := fun j hj => s.fnCfg_setFn_ne c hj
  cases hgo : c.pending && c.sends && !c.mask
  case false =>
    rw [State.sendPending_of_not (by rw [hcfg, hgo])]
    refine ⟨?_, hne, ?_, rfl⟩
    · simp [hcfg, hgo]
    · simp [hgo]
  case true =>
    rw [State.sendPending_of_go (by rw [hcfg, hgo]), hcfg]
    refine ⟨?_, fun j hj => ?_, ?_, rfl⟩
    · simp only [hgo, Bool.not_true, Bool.and_false]
      exact (s.setFn fn c).fnCfg_setFn_same fn _
    · exact ((s.setFn fn c).fnCfg_setFn_ne _ hj).trans (hne j hj)
    · rw [hgo, Bool.true_and]
      rfl

end

theorem functionsSendWhatWaited : FunctionsSendWhatWaited := by
  intro s fn hpow
  refine ⟨fun hd3 off data p q n w => ⟨congrArg Host.Outcome.next ?read, congrArg Host.Outcome.next ?write,
      congrArg Host.Outcome.next ?doorbell, congrArg Host.Outcome.next ?invalidate,
      fun hfn hlive => congrArg Host.Outcome.next ?window⟩,
    fun hfn => ⟨⟨_, congrArg Host.Outcome.next (if_pos hfn), ?d3hot⟩,
      ⟨_, congrArg Host.Outcome.next (if_pos hfn), fnBecomes_sendPending s fn _⟩,
      fun hnone => ⟨⟨_, congrArg Host.Outcome.next (if_pos hfn), ?d0⟩,
        ⟨_, congrArg Host.Outcome.next (if_pos hfn), ?master⟩⟩⟩,
    fun speed width hspeed hwidth => congrArg Host.Outcome.next (if_pos ?trains)⟩
  case read => simp [State.hostRead, hpow, State.barUp_of_d3hot hd3, State.unsupported, State.aer]
  case write => simp [State.hostWriteReg, hpow, State.barUp_of_d3hot hd3, State.aer]
  case doorbell => simp [State.bellOk_of_d3hot hd3]
  case invalidate => simp [State.bellOk_of_d3hot hd3]
  case window =>
    subst hfn
    simp [hlive, State.winRead, State.winOk_of_d3hot hd3, State.unsupported, State.aer]
  case d3hot => exact ⟨s.fnCfg_setFn_same _ _, fun j hj => s.fnCfg_setFn_ne _ hj, rfl⟩
  case d0 => exact State.fnSends_of_none (s := s.setFn _ _) hnone ▸ fnBecomes_sendPending s fn _
  case master => exact State.fnSends_of_none (s := s.setFn _ _) hnone ▸ fnBecomes_sendPending s fn _
  case trains =>
    have hmem : [1, 2, 4, 8].contains width = true := List.contains_iff_mem.mpr hwidth
    rw [hpow, hmem]
    simpa using hspeed

/-! ### The reset of a VF -/

/-- An FLR of an idle partition on its home chip tears it down at once (R232). -/
theorem flrVf_tearsDown {s : State} {k : Nat} (hidle : s.IdlePart k) (hk : k < 32) (hlive : s.live = true)
    (hhome : (s.part k).isSome = true → s.homed k = true) (hstate : s.funcState k = fnRunning)
    (hnone : s.rd .GLB_FLR_STATUS_RUNNING = 0) (hreclaim : s.rd .HB_RECLAIM_RUNNING k = 0) (hevq : s.rd .EVQ_CTRL_EN 32 = 0)
    (hen : ∀ q : Fin 16, s.rd .HB_Q_CTRL_EN k q ≤ 1) :
    (s.flrVf k).fnCfg (k + 1) = {} ∧ (s.flrVf k).rd .GLB_FLR_STATUS_RUNNING = 0 ∧
      (s.flrVf k).rd .HB_RECLAIM_RUNNING k = 0 ∧ (∀ q : Fin 16, (s.flrVf k).rd .HB_Q_CTRL_EN k q = 0) ∧
      (s.flrVf k).rd .XLT_ROOT_EN k = 0 ∧ kindBit ((s.flrVf k).rd .EVQ_PEND_PEND 32) 7 = true ∧ (s.flrVf k).mem = s.mem ∧
      (s.flrVf k).funcState k = fnRunning := by
  have hk' : k < 65536 := by omega
  have hbegin := (State.AgreesBut.refl (s.resetVf k) []).wr .GLB_FLR_STATUS_RUNNING (2 ^ k) (by decide : 0 < 65536)
    (by decide : 0 < 65536)
  obtain ⟨t, hstart, hagrees, hdisabled, hroot, hdone⟩ :=
    (hbegin.idlePart (hidle.resetVf k) (by decide) (by decide)).startReclaim_spec hk'
      ((hbegin.rd _ (by decide) k 0 hk' (by decide)).trans hreclaim)
      fun q => (hbegin.rd _ (by decide) k q hk' (by omega)).trans_le (hen q)
  have hall := hbegin.trans hagrees
  have hend : s.flrVf k = t.reclaimRecord k := by
    rw [State.flrVf_of_home hlive hhome (by rw [hstate]; decide) hnone hk', hstart]
  have hrun : t.funcState k = fnRunning := (hall.rd _ (by decide) k 0 hk' (by decide)).trans hstate
  have hoff : t.rd .EVQ_CTRL_EN 32 = 0 := (hall.rd _ (by decide) 32 0 (by decide) (by decide)).trans hevq
  have hflr : t.rd .GLB_FLR_STATUS_RUNNING = 2 ^ k := by
    rw [hagrees.rd _ (by decide) 0 0 (by decide) (by decide), State.rd_wr_same]
    exact Nat.mod_eq_of_lt (Nat.pow_lt_pow_right (by decide) hk)
  obtain ⟨hlast, hended, hpend⟩ := State.reclaimRecord_of_flr hk hflr hrun hoff
  rw [hend]
  refine ⟨?_, hended, (hlast.rd _ (by decide) k 0 hk' (by decide)).trans hdone,
    fun q => (hlast.rd _ (by decide) k q hk' (by omega)).trans (hdisabled q),
    (hlast.rd _ (by decide) k 0 hk' (by decide)).trans hroot, hpend, hlast.mem.trans hall.mem,
    (hlast.rd _ (by decide) k 0 hk' (by decide)).trans hrun⟩
  rw [State.fnCfg, hlast.pcie.trans hall.pcie]
  exact s.fnCfg_resetVf_same k

theorem vfResetsTearDown : VfResetsTearDown := by
  intro s vf hpow hvf
  have hexec : ∀ u, s.flrVf vf = u → exec (.vfFlr vf) s = .next u := fun u hu =>
    congrArg Host.Outcome.next ((if_pos (State.fnExists_of_vfEnabled hpow hvf)).trans hu)
  refine ⟨fun hruns => ⟨_, hexec _ (State.flrVf_of_runs hruns), s.fnCfg_resetVf_same vf,
      fun j hj => s.fnCfg_resetVf_ne hj, rfl⟩,
    fun hlive hhome halone hstate hnone hreclaim hhb hlaunches hpasses hvats hcodec hsync hxlt hobjs hmemObjs hevq hen =>
      ⟨_, hexec _ rfl, flrVf_tearsDown ⟨halone, hhb, hlaunches, hpasses, hvats, hcodec, hsync, hxlt, hobjs, hmemObjs⟩
        vf.isLt hlive hhome hstate hnone hreclaim hevq hen⟩,
    fun hone => ?clear⟩
  case clear =>
    have hen : s.pcie.vfEnable = true := (Bool.and_eq_true_iff.mp hvf).1
    have hfirst : s.vfEnabled 0 = true := by simp [State.vfEnabled, hen, hone]
    have honly : (List.range 32).filter s.vfEnabled = [0] := by
      have h : s.vfEnabled = fun p => decide (p < 1) := by
        funext p
        simp [State.vfEnabled, hen, hone]
      rw [h]
      decide
    refine ⟨s.flrVf 0, congrArg Host.Outcome.next (if_pos (State.fnExists_of_vfEnabled hpow hfirst)),
      congrArg Host.Outcome.next ((if_pos hpow).trans ?_)⟩
    rw [honly]
    rfl

/-- Settles O44: in D3hot the BAR guards fail; a function that may send again ends in `State.sendPending`; an FLR of an idle
partition runs the reclaim through its steps, each of which keeps the partition idle (`State.AgreesBut.idlePart`). That AER logs
the accesses in D3hot, and what an FLR of an absent partition does, are the model's reading (log entry 36). -/
theorem functionsSendAndReset : Obligations.FunctionsSendAndReset :=
  ⟨functionsSendWhatWaited, vfResetsTearDown⟩

end Sys2Proof.Claims
end

