-- ==== Sys2Proof/Proofs/Board.lean ====
section
/-!
PROOF. The board's side: masks of pins and their software writes (R504), what the resets keep of the registers (R263, R499),
the rail detector (R507), and the SMBus target (R509).
-/

namespace Sys2Proof.Machine

/-! ### Selecting bits by a mask -/

/-- The lowest bit of a bitwise AND. -/
theorem land_mod_two (x m : Nat) : (x &&& m) % 2 = if m % 2 = 1 then x % 2 else 0 := by
  have h := Nat.and_mod_two_pow (a := x) (b := m) (n := 1)
  rw [pow_one] at h
  rw [h]
  rcases Nat.mod_two_eq_zero_or_one x with hx | hx <;> rcases Nat.mod_two_eq_zero_or_one m with hm | hm <;> simp [hx, hm]

/-- The bits of `x` under a mask and those of `y` outside it share no position, so that their sum has no carries: its bit 0. -/
theorem land_add_sub_mod_two (x y m : Nat) :
    ((x &&& m) + (y - (y &&& m))) % 2 = if m % 2 = 1 then x % 2 else y % 2 := by
  have hx := land_mod_two x m
  have hy := land_mod_two y m
  have hle : y &&& m ≤ y := Nat.and_le_left
  split_ifs at hx hy ⊢ <;> omega

/-- The same sum's other bits are the sum of the halves. -/
theorem land_add_sub_div_two (x y m : Nat) :
    ((x &&& m) + (y - (y &&& m))) / 2 = (x / 2 &&& m / 2) + (y / 2 - (y / 2 &&& m / 2)) := by
  have hx := land_mod_two x m
  have hy := land_mod_two y m
  have hle : y &&& m ≤ y := Nat.and_le_left
  rw [← Nat.and_div_two, ← Nat.and_div_two]
  split_ifs at hx hy <;> omega

theorem testBit_land_add_sub (x y m n : Nat) :
    ((x &&& m) + (y - (y &&& m))).testBit n = if m.testBit n then x.testBit n else y.testBit n := by
  induction n generalizing x y m with
  | zero =>
    simp only [Nat.testBit_zero, land_add_sub_mod_two, decide_eq_true_eq]
    split_ifs <;> rfl
  | succ n ih => simp only [Nat.testBit_succ, land_add_sub_div_two, ih]

theorem bitAt_andN (x y n : Nat) : bitAt (andN x y) n = (bitAt x n && bitAt y n) := by
  simp only [bitAt_eq_testBit, andN, Nat.testBit_and]

/-- `x` under a mask and `y` outside it. -/
theorem bitAt_andN_add_andNot (x y m n : Nat) :
    bitAt (andN x m + andNot y m) n = if bitAt m n then bitAt x n else bitAt y n := by
  simp only [bitAt_eq_testBit, andN, andNot, testBit_land_add_sub]

theorem bitAt_foldl_setBit (l : List Nat) (x n : Nat) : bitAt (l.foldl setBit x) n = (bitAt x n || decide (n ∈ l)) := by
  induction l generalizing x with
  | nil => simp
  | cons k r ih => simp [ih, bitAt_setBit, Bool.or_assoc]

/-- The mask of the indices below `k` that pass a test. -/
theorem bitAt_maskOf_filter {k n : Nat} (hn : n < k) (f : Nat → Bool) : bitAt (maskOf ((List.range k).filter f)) n = f n := by
  have hzero : bitAt 0 n = false := by simp [bitAt]
  simp [maskOf, bitAt_foldl_setBit, hzero, hn]

/-- Cutting a value to its field's width keeps the bits of the field. -/
theorem bitAt_rd_wr_same (s : State) {f : Field} (v : Nat) {i j n : Nat} (hn : n < f.width) :
    bitAt ((s.wr f v i j).rd f i j) n = bitAt v n := by
  rw [State.rd_wr_same, bitAt_eq_testBit, bitAt_eq_testBit, Nat.testBit_mod_two_pow, decide_eq_true hn, Bool.true_and]

/-- A field whose lowest bit stands at bit `a` of word `w` takes the word's bits from there. -/
theorem Field.bitAt_merge {f : Field} {w a b n : Nat} (h : f.inWord w = some (b, a, 0)) (hn : a + n ≤ b) (old data : Nat) :
    bitAt (f.merge w old data) n = bitAt data (a + n) := by
  have hcut : bits data b a < 2 ^ (b + 1 - a) := Nat.mod_lt _ (Nat.two_pow_pos _)
  have hkeep : old - bits old (0 + (b - a)) 0 * 2 ^ 0 = 2 ^ (b + 1 - a) * (old / 2 ^ (b + 1 - a)) := by
    have hdiv := Nat.div_add_mod old (2 ^ (b + 1 - a))
    simp only [bits, pow_zero, Nat.div_one, mul_one, show 0 + (b - a) + 1 - 0 = b + 1 - a by omega]
    omega
  have hbit : n < b + 1 - a := by omega
  simp only [Field.merge, h]
  rw [hkeep, pow_zero, mul_one, bitAt_eq_testBit, Nat.testBit_two_pow_mul_add _ hcut, if_pos hbit, bits,
    Nat.testBit_mod_two_pow, decide_eq_true hbit, Bool.true_and, Nat.testBit_div_two_pow, bitAt_eq_testBit, Nat.add_comm n a]

/-! ### The software's pins (R504) -/

/-- The register word that GLB_GPIO_OUT's offset names (`State.place_gpioOut`). -/
def gpioOutAt : RegAt := ⟨.GLB_GPIO_OUT, 0, 0, 0⟩

/-- The state in which both fields of GLB_GPIO_OUT have taken a word. -/
def State.writeGpioOut (s : State) (data : Nat) : State :=
  (s.wr .GLB_GPIO_OUT_OE (s.written .GLB_GPIO_OUT_OE gpioOutAt data)).wr .GLB_GPIO_OUT_OUT
    (s.written .GLB_GPIO_OUT_OUT gpioOutAt data)

section
variable (s : State) {n : Nat}

theorem State.bitAt_softPins (hn : n < 16) : bitAt s.softPins n = s.softHolds n :=
  bitAt_maskOf_filter hn s.softHolds

theorem State.place_gpioOut : s.place 0 0x5004 = .reg gpioOutAt := by
  have h : Reg.decode 0x5004 = some gpioOutAt := by decide
  simp [State.place, h, BarPlace.ofReg]

/-- GLB_GPIO_OUT lies in no power domain and holds no record, and its two fields take every write. -/
theorem State.writeWord_gpioOut (data : Nat) : s.writeWord gpioOutAt data = s.writeGpioOut data := by
  have hfields : (gpioOutAt.reg.fields.filter (fun f => !f.ownRow && (f.inWord gpioOutAt.w).isSome)) =
      [.GLB_GPIO_OUT_OE, .GLB_GPIO_OUT_OUT] := by decide
  have hwrite : s.writeFields gpioOutAt data = s.writeGpioOut data := by
    rw [State.writeFields, hfields]
    rfl
  have hrecord (t : State) : t.clearRecord gpioOutAt data = t := by
    simp [State.clearRecord, gpioOutAt, recordFields]
  calc s.writeWord gpioOutAt data
      = ((s.writeFields gpioOutAt data).clearRecord gpioOutAt data).refuseGo gpioOutAt data := rfl
    _ = (s.writeFields gpioOutAt data).clearRecord gpioOutAt data := rfl
    _ = s.writeGpioOut data := by rw [hrecord, hwrite]

theorem State.exec_registerWrite_gpioOut (hpow : s.powered = true) (hd0 : (s.fnCfg 0).d3hot = false)
    (hopen : s.writeOpen 0 0x5004 = true) (data : Word) :
    exec (.registerWrite 0 0x5004 15 data) s = .next (s.writeGpioOut data.toNat) := by
  have hbar : s.barUp 0 0x5004 = true := by simp [State.barUp, hd0]
  refine congrArg Host.Outcome.next ?_
  calc s.hostWriteReg 0 0x5004 15 data.toNat
      = s.writePlace 0 data.toNat (s.place 0 0x5004) := by simp [State.hostWriteReg, hpow, hbar, hopen]
    _ = s.writeWord gpioOutAt data.toNat := by rw [s.place_gpioOut]; rfl
    _ = s.writeGpioOut data.toNat := s.writeWord_gpioOut _

/-- The bit of a pin that GPIO_SW holds comes from the word written, and that of another pin stays. -/
theorem State.bitAt_writeGpioOut_out (hn : n < 16) (data : Nat) :
    bitAt ((s.writeGpioOut data).rd .GLB_GPIO_OUT_OUT) n =
      if s.softHolds n then bitAt data n else bitAt (s.rd .GLB_GPIO_OUT_OUT) n := by
  have hword : Field.inWord .GLB_GPIO_OUT_OUT 0 = some (15, 0, 0) := by decide
  rw [State.writeGpioOut, bitAt_rd_wr_same _ _ hn, ← s.bitAt_softPins hn, ← zero_add n,
    ← Field.bitAt_merge hword (by omega) (s.rd .GLB_GPIO_OUT_OUT) data, zero_add]
  exact bitAt_andN_add_andNot _ _ _ _

theorem State.bitAt_writeGpioOut_oe (hn : n < 16) (data : Nat) :
    bitAt ((s.writeGpioOut data).rd .GLB_GPIO_OUT_OE) n =
      if s.softHolds n then bitAt data (16 + n) else bitAt (s.rd .GLB_GPIO_OUT_OE) n := by
  have hword : Field.inWord .GLB_GPIO_OUT_OE 0 = some (31, 16, 0) := by decide
  rw [State.writeGpioOut, State.rd_wr_field _ (by decide) (by decide) (by decide) (by decide) (by decide),
    bitAt_rd_wr_same _ _ hn, ← s.bitAt_softPins hn,
    ← Field.bitAt_merge hword (by omega) (s.rd .GLB_GPIO_OUT_OE) data]
  exact bitAt_andN_add_andNot _ _ _ _

/-- A read of GLB_GPIO_OUT shows the bits of the pins that GPIO_SW holds. -/
theorem State.bitAt_shown_gpioOut_out (hn : n < 16) :
    bitAt (s.shown .GLB_GPIO_OUT_OUT 0 0) n = (bitAt (s.rd .GLB_GPIO_OUT_OUT) n && s.softHolds n) := by
  rw [← s.bitAt_softPins hn]
  exact bitAt_andN _ _ _

theorem State.bitAt_shown_gpioOut_oe (hn : n < 16) :
    bitAt (s.shown .GLB_GPIO_OUT_OE 0 0) n = (bitAt (s.rd .GLB_GPIO_OUT_OE) n && s.softHolds n) := by
  rw [← s.bitAt_softPins hn]
  exact bitAt_andN _ _ _

theorem State.bitAt_shown_gpioIn (hn : n < 16) : bitAt (s.shown .GLB_GPIO_IN_LEVEL 0 0) n = s.pinLevel n :=
  bitAt_maskOf_filter hn s.pinLevel

theorem State.shown_zt2_of_not_held (h : s.softHolds 0x12 = false) : s.shown .GLB_ZT2_COUNT 0 0 = 0 := by
  change (if s.softHolds 0x12 then s.clock 3 64 % (s.rd .GLB_ZT2_COUNT + 1) else 0) = 0
  rw [h]
  rfl

theorem exec_glbZt2Write_of_not_held (h : s.softHolds 0x12 = false) (value : Word) :
    exec (.glbZt2Write value) s = .next s :=
  congrArg Host.Outcome.next (if_neg (by simp [h]))

end

/-! ### What the resets keep of the registers -/

/-- Copying register elements of `s` into `t` gives those elements their value in `s`, cut to the width, and no other. -/
theorem State.rd_foldl_copy (s t : State) {l : List (Field × Nat × Nat)} (hl : ∀ x ∈ l, x.2.1 < 65536 ∧ x.2.2 < 65536)
    {f : Field} {i j : Nat} (hi : i < 65536) (hj : j < 65536) :
    (l.foldl (fun (r : State) x => r.wr x.1 (s.rd x.1 x.2.1 x.2.2) x.2.1 x.2.2) t).rd f i j =
      if (f, i, j) ∈ l then s.rd f i j % 2 ^ f.width else t.rd f i j := by
  induction l generalizing t with
  | nil => simp
  | cons x l ih =>
    obtain ⟨hx, hl⟩ := List.forall_mem_cons.mp hl
    rw [List.foldl_cons, ih _ hl]
    by_cases hmem : (f, i, j) ∈ l
    · simp [hmem]
    · by_cases he : (f, i, j) = x
      · subst he
        simp [hmem]
      · have hkey : f.key i j ≠ x.1.key x.2.1 x.2.2 := fun h => he <| by
          obtain ⟨rfl, rfl, rfl⟩ := Field.key_inj hi hj hx.1 hx.2 h
          rfl
        simp [hmem, he, State.rd_wr_ne _ hkey]

theorem keptFields_bounds : ∀ x ∈ keptFields, x.2.1 < 65536 ∧ x.2.2 < 65536 := by
  simp only [keptFields, List.mem_append, List.mem_cons, List.not_mem_nil, or_false, List.mem_flatMap, List.mem_range]
  rintro x (h | ⟨c, hc, e, he, h⟩)
  · obtain rfl | rfl | rfl | rfl | rfl | rfl := h <;> decide
  · obtain rfl | rfl := h <;> exact ⟨hc.trans (by decide), he.trans (by decide)⟩

theorem State.rd_keptRegs (s : State) {f : Field} {i j : Nat} (hi : i < 65536) (hj : j < 65536) :
    s.keptRegs.rd f i j = if (f, i, j) ∈ keptFields then s.rd f i j % 2 ^ f.width else State.reset.rd f i j :=
  by rw [State.keptRegs, State.rd_foldl_copy s .reset keptFields_bounds hi hj]

theorem State.resetChip_regs (s : State) : s.resetChip.regs = s.keptRegs.regs := rfl

/-- Of the registers, the reset of the chip keeps those of R263 alone. -/
theorem State.rd_resetChip (s : State) {f : Field} {i j : Nat} (hi : i < 65536) (hj : j < 65536) :
    s.resetChip.rd f i j = if (f, i, j) ∈ keptFields then s.rd f i j % 2 ^ f.width else State.reset.rd f i j :=
  (State.rd_congr s.resetChip_regs f i j).trans (s.rd_keptRegs hi hj)

/-- The pins with a reset pin low. -/
def Pins.lower (p : Pins) : ResetPin → Pins
  | .resetN => { p with resetN := false }
  | .perstN => { p with perstN := false }

/-- A low reset pin holds the chip in reset (R506). -/
theorem State.powered_of_lower (s : State) {p : Pins} {pin : ResetPin} (h : s.pins = p.lower pin) : s.powered = false := by
  cases pin <;> simp [State.powered, h, Pins.lower]

theorem Pins.lower_straps (p : Pins) (pin : ResetPin) : (p.lower pin).straps = p.straps := by
  cases pin <;> rfl

/-- A powered chip after the fall of a reset pin: reset, PCIe too, with that pin low. -/
def State.warmed (s : State) (pin : ResetPin) : State :=
  { s.resetChip.pcieReset with pins := s.resetChip.pins.lower pin }

theorem State.warmed_regs (s : State) (pin : ResetPin) : (s.warmed pin).regs = s.resetChip.regs := rfl

/-- A reset pin that falls in a powered chip resets it and PCIe. -/
theorem State.exec_warmReset_of_powered (s : State) (hpow : s.powered = true) (pin : ResetPin) :
    exec (.warmReset pin) s = .next (s.warmed pin) := by
  have hpwrok : s.pins.pwrok = true := by
    simp only [State.powered, Bool.and_eq_true] at hpow
    exact hpow.1.1
  refine congrArg Host.Outcome.next ((if_pos hpwrok).trans ?_)
  unfold State.warmReset
  rw [if_pos hpow]
  cases pin <;> rfl

/-! ### The rail detector (R507) -/

/-- Port `k`'s FELT_ALIVE pin goes low, and its training stops. -/
def State.portLow (s : State) (k : Nat) : State :=
  if (s.wr .FLT_PORT_ALIVE 0 k).portActive k then s.wr .FLT_PORT_ALIVE 0 k
  else (s.wr .FLT_PORT_ALIVE 0 k).wr .FLT_PORT_STATE 0 k

theorem State.feltLow_eq (s : State) : s.feltLow = (s.portLow 0).portLow 1 := rfl

theorem State.rd_alive_portLow (s : State) {k : Nat} (hk : k < 65536) : (s.portLow k).rd .FLT_PORT_ALIVE k = 0 := by
  unfold State.portLow
  split
  · exact State.rd_wr_same _ _ _ _ _
  · rw [State.rd_wr_field _ hk (by decide) hk (by decide) (by decide), State.rd_wr_same]
    rfl

end Sys2Proof.Machine

namespace Sys2Proof.Claims
open Sys2Proof.Machine

/-! ### Frames of register writes -/

section
variable {s t u : State} {l m : List (Field × Nat × Nat)}

theorem onlyRegs_trans (h : OnlyRegs s t l) (k : OnlyRegs t u m) : OnlyRegs s u (l ++ m) := by
  obtain ⟨hkept, ht⟩ := h
  obtain ⟨kkept, hu⟩ := k
  refine ⟨fun f i j hi hj hmem => ?_, ?_⟩
  · rw [List.mem_append, not_or] at hmem
    exact (kkept f i j hi hj hmem.2).trans (hkept f i j hi hj hmem.1)
  · rw [hu, ht]

theorem onlyRegs_mono (h : OnlyRegs s t l) (hsub : l ⊆ m) : OnlyRegs s t m :=
  ⟨fun f i j hi hj hmem => h.1 f i j hi hj fun e => hmem (hsub e), h.2⟩

theorem onlyRegs_wr (s : State) (f : Field) (v : Nat) {i j : Nat} (hi : i < 65536) (hj : j < 65536) :
    OnlyRegs s (s.wr f v i j) [(f, i, j)] := by
  refine ⟨fun g i' j' hi' hj' hmem => State.rd_wr_ne _ fun e => hmem ?_, rfl⟩
  obtain ⟨rfl, rfl, rfl⟩ := Field.key_inj hi' hj' hi hj e
  exact List.mem_singleton_self _

theorem onlyRegs_portLow (s : State) {k : Nat} (hk : k < 65536) :
    OnlyRegs s (s.portLow k) [(.FLT_PORT_ALIVE, k, 0), (.FLT_PORT_STATE, k, 0)] := by
  have halive := onlyRegs_wr s .FLT_PORT_ALIVE 0 hk (by decide : 0 < 65536)
  unfold State.portLow
  split
  · exact onlyRegs_mono halive (by simp)
  · exact onlyRegs_trans halive (onlyRegs_wr _ .FLT_PORT_STATE 0 hk (by decide))

end

/-! ### O60 -/

theorem smbusAnswers : SmbusAnswers := by
  intro s
  refine ⟨rfl, rfl, rfl, rfl, rfl, rfl, ?card, rfl, fun w code h => congrArg Host.Outcome.next (if_pos ?unknown),
    fun h => congrArg Host.Outcome.next (if_neg ?quiet), fun h => congrArg Host.Outcome.next (if_pos h)⟩
  case card =>
    have hbit : 128 * b2n (s.featureOn 0x08) = if s.featureOn 0x08 then 128 else 0 := by
      cases s.featureOn 0x08 <;> rfl
    rw [← hbit]
    rfl
  case unknown =>
    obtain rfl | rfl | h := h
    · rfl
    · simp
    · simp [h]
  case quiet => simp [h]

theorem resetsClearTheChip : ResetsClearTheChip := by
  intro s straps pin rail value f i j
  refine ⟨⟨s.coldReset, rfl, rfl, rfl, rfl, rfl, rfl, rfl, rfl, rfl, rfl, rfl, rfl, rfl, rfl, rfl, rfl, rfl, rfl, rfl, rfl⟩,
    fun hoff => ⟨congrArg Host.Outcome.next (if_neg (by simp [hoff])), congrArg Host.Outcome.next (if_neg (by simp [hoff]))⟩,
    fun hpow hwear => ?warm,
    fun hok hlow => ⟨_, congrArg Host.Outcome.next (if_pos (by simp [hok, hlow])), ?ends, rfl, rfl⟩,
    ⟨s.feltLow, rfl, ?east, (s.portLow 0).rd_alive_portLow (by decide), ?frame⟩,
    fun hpow => ⟨fun hon => congrArg Host.Outcome.next (if_pos (by simp [hpow, hon])),
      fun hoff => congrArg Host.Outcome.next (if_neg (by simp [hoff]))⟩,
    rfl,
    fun hwrites => ⟨fun hheld => ⟨_, congrArg Host.Outcome.next (if_pos (by simp [hwrites, hheld])), ?count,
      onlyRegs_wr s .GLB_ZT2_COUNT value.toNat (by decide) (by decide)⟩,
      fun hfree => exec_glbZt2Write_of_not_held s hfree value⟩⟩
  case warm =>
    have hseconds : s.resetChip.rd .PWR_WEAR_SECONDS = s.rd .PWR_WEAR_SECONDS := by
      rw [State.rd_resetChip s (by decide) (by decide), if_pos (by simp [keptFields])]
      exact Nat.mod_eq_of_lt hwear
    have hfreeze : s.resetChip.rd .DBG_FREEZE_STATUS_STATE = 0 := by
      rw [State.rd_resetChip s (by decide) (by decide), if_neg (by simp [keptFields])]
      decide
    have hpins : s.pins.resetN = true ∧ s.pins.perstN = true := by
      simp only [State.powered, Bool.and_eq_true] at hpow
      exact ⟨hpow.1.2, hpow.2⟩
    refine ⟨s.warmed pin, s.exec_warmReset_of_powered hpow pin, State.powered_of_lower _ rfl, rfl, rfl, rfl, rfl, rfl, rfl,
      rfl, rfl, rfl, rfl, rfl, (State.rd_congr (s.warmed_regs pin) _ _ _).trans hseconds,
      (State.rd_congr (s.warmed_regs pin) _ _ _).trans hfreeze, Pins.lower_straps _ pin, ?reset, ?perst⟩
    case reset => rintro rfl; exact ⟨rfl, hpins.2⟩
    case perst => rintro rfl; exact ⟨rfl, hpins.1⟩
  case ends => simp [State.powered, hok]
  case east =>
    rw [State.feltLow_eq, (onlyRegs_portLow _ (by decide)).1 _ _ _ (by decide) (by decide) (by decide)]
    exact s.rd_alive_portLow (by decide)
  case frame =>
    exact onlyRegs_mono (onlyRegs_trans (onlyRegs_portLow s (by decide)) (onlyRegs_portLow _ (by decide))) (by decide)
  case count =>
    rw [State.rd_wr_same]
    exact Nat.mod_eq_of_lt value.isLt

theorem softwarePinsOnly : SoftwarePinsOnly := by
  intro s n data value hn
  refine ⟨s.bitAt_shown_gpioIn hn, fun hfree => ⟨?out, ?oe, fun hpow hd0 hopen =>
      ⟨_, s.exec_registerWrite_gpioOut hpow hd0 hopen data, ?keepOut, ?keepOe⟩⟩,
    fun hheld hpow hd0 hopen => ⟨_, s.exec_registerWrite_gpioOut hpow hd0 hopen data, ?takeOut, ?takeOe, ?shown⟩,
    fun hfree => ⟨s.shown_zt2_of_not_held hfree, fun _ => exec_glbZt2Write_of_not_held s hfree value⟩⟩
  case out => rw [s.bitAt_shown_gpioOut_out hn, hfree, Bool.and_false]
  case oe => rw [s.bitAt_shown_gpioOut_oe hn, hfree, Bool.and_false]
  case keepOut => simp [s.bitAt_writeGpioOut_out hn, hfree]
  case keepOe => simp [s.bitAt_writeGpioOut_oe hn, hfree]
  case takeOut => simp [s.bitAt_writeGpioOut_out hn, hheld]
  case takeOe => simp [s.bitAt_writeGpioOut_oe hn, hheld]
  case shown =>
    have hheld' : (s.writeGpioOut data.toNat).softHolds n = true := hheld
    simp [State.bitAt_shown_gpioOut_out _ hn, s.bitAt_writeGpioOut_out hn, hheld, hheld']

/-- Settles O60: the SMBus reads are the model's arms; the cold reset is a state written out, and a warm reset copies back the
elements of `keptFields` (`State.rd_resetChip`); a write of GLB_GPIO_OUT takes its bits from the word where GPIO_SW holds the pin
and from the register elsewhere (`bitAt_andN_add_andNot`). The alert response byte, its NACK and the reset pins are the model's
reading (log entry 45). -/
theorem boardAndResets : Obligations.BoardAndResets :=
  ⟨smbusAnswers, resetsClearTheChip, softwarePinsOnly⟩

end Sys2Proof.Claims
end
-- ==== Sys2Proof/Proofs/Keeps.lean ====
section
/-!
PROOF. What no command touches: the queue of waiting commands, the board and the fuses that are not burnt; and what every
command preserves: the canonical form of the memories. `Keeps` says both of a state and its successor. The files that follow
prove one lemma for each function of the model that returns a state, in the model's order, and `exec_keeps` is their sum.
-/

namespace Sys2Proof.Machine

/-- What a step of fuses can be: the keys and the identity stay, the security version never falls, a worn peak stays worn. -/
structure FusesKept (f g : Fuses) : Prop where
  productKey : g.productKey = f.productKey
  settingsKey : g.settingsKey = f.settingsKey
  imgKeys : g.imgKeys = f.imgKeys
  fnsKeys : g.fnsKeys = f.fnsKeys
  deviceId : g.deviceId = f.deviceId
  identity : g.identity = f.identity
  svn : f.svn ≤ g.svn
  peakWorn : f.peakWorn = true → g.peakWorn = true

/-- What an access to memory leaves as it was: every unit but the registers, the memories, the translation unit, the links and
the power domains. -/
structure WorkKept (s t : State) : Prop where
  furn : t.furn = s.furn
  hb : t.hb = s.hb
  launches : t.launches = s.launches
  vats : t.vats = s.vats
  sync : t.sync = s.sync
  heaps : t.heaps = s.heaps
  sched : t.sched = { s.sched with taken := t.sched.taken }
  maint : t.maint = s.maint
  geo : t.geo = s.geo
  cal : t.cal = s.cal
  codec : t.codec = s.codec
  mgc : t.mgc = s.mgc
  pins : t.pins = s.pins
  tap : t.tap = s.tap
  reply : t.reply = s.reply

/-- What every command keeps: the queue of waiting commands, the board, the fuses that are not burnt, and the canonical form
of every memory. What only accesses memory keeps the units too: it keeps this for every `W`. -/
structure Keeps (W : Prop) (s t : State) : Prop where
  pending : t.pending = s.pending
  dram : t.pins.dram = s.pins.dram
  gradeB : t.pins.gradeB = s.pins.gradeB
  fuses : FusesKept s.mgc.fuses t.mgc.fuses
  memories : MemoriesWf s → MemoriesWf t
  work : W → WorkKept s t

theorem FusesKept.refl (f : Fuses) : FusesKept f f := ⟨rfl, rfl, rfl, rfl, rfl, rfl, Nat.le_refl _, id⟩

theorem FusesKept.trans {f g h : Fuses} (hg : FusesKept f g) (hh : FusesKept g h) : FusesKept f h where
  productKey := hh.productKey.trans hg.productKey
  settingsKey := hh.settingsKey.trans hg.settingsKey
  imgKeys := hh.imgKeys.trans hg.imgKeys
  fnsKeys := hh.fnsKeys.trans hg.fnsKeys
  deviceId := hh.deviceId.trans hg.deviceId
  identity := hh.identity.trans hg.identity
  svn := hg.svn.trans hh.svn
  peakWorn := hh.peakWorn ∘ hg.peakWorn

theorem WorkKept.refl (s : State) : WorkKept s s :=
  ⟨rfl, rfl, rfl, rfl, rfl, rfl, rfl, rfl, rfl, rfl, rfl, rfl, rfl, rfl, rfl⟩

theorem WorkKept.trans {a s t : State} (h : WorkKept a s) (k : WorkKept s t) : WorkKept a t where
  furn := k.furn.trans h.furn
  hb := k.hb.trans h.hb
  launches := k.launches.trans h.launches
  vats := k.vats.trans h.vats
  sync := k.sync.trans h.sync
  heaps := k.heaps.trans h.heaps
  sched := k.sched.trans (by rw [h.sched])
  maint := k.maint.trans h.maint
  geo := k.geo.trans h.geo
  cal := k.cal.trans h.cal
  codec := k.codec.trans h.codec
  mgc := k.mgc.trans h.mgc
  pins := k.pins.trans h.pins
  tap := k.tap.trans h.tap
  reply := k.reply.trans h.reply

theorem WorkKept.of_mem (s : State) (mem : Memory) : WorkKept s { s with mem } :=
  ⟨rfl, rfl, rfl, rfl, rfl, rfl, rfl, rfl, rfl, rfl, rfl, rfl, rfl, rfl, rfl⟩

theorem Keeps.refl (W : Prop) (s : State) : Keeps W s s := ⟨rfl, rfl, rfl, FusesKept.refl _, id, fun _ => WorkKept.refl s⟩

section
variable {W : Prop} {a s t : State}

theorem Keeps.trans (h : Keeps W a s) (k : Keeps W s t) : Keeps W a t where
  pending := k.pending.trans h.pending
  dram := k.dram.trans h.dram
  gradeB := k.gradeB.trans h.gradeB
  fuses := h.fuses.trans k.fuses
  memories := k.memories ∘ h.memories
  work w := (h.work w).trans (k.work w)

section
variable {regs : List (Nat × Nat)} {l2 : List (Nat × Sector)} {trackers : List (Nat × List Tracker)} {furn : Furnish}
  {hb : Headbox} {launches : List (Nat × Launch)} {vats : List (Nat × Vat)} {sync : Sync} {heaps : List (Nat × Heap)}
  {owed : List (Nat × Owed)} {sched : Sched} {xlt : Xlt} {maint : Maint} {geo : Geo} {cal : Cal} {codec : Codec}
  {ring : Ring} {pwr : Power} {settings : List Settings} {log : List LogRec} {image : Option Image} {modules : List Module}
  {svcState svcCause received starts : Nat} {booted devReset migDone : Bool} {pcie : Pcie}
  {pwrok resetN perstN freezeN thermTrip smbAlert wdogLow : Bool} {gpioIn cardId : Nat} {straps : Straps}
  {tap : Tap} {reply : Reply} {sent taken : List Nat} {free nextId : Nat}

/-- An update that an access to memory can make. -/
theorem Keeps.access (h : Keeps W a s) : Keeps W a
    { s with regs, owed, xlt, ring, pwr, pcie, sent, free, nextId, sched := { s.sched with taken } } :=
  ⟨h.pending, h.dram, h.gradeB, h.fuses, h.memories, fun w => (h.work w).trans
    ⟨rfl, rfl, rfl, rfl, rfl, rfl, rfl, rfl, rfl, rfl, rfl, rfl, rfl, rfl, rfl⟩⟩

/-- An update of the parts of memory that `Keeps` does not speak of. -/
theorem Keeps.accessMem (h : Keeps W a s) : Keeps W a { s with mem := { s.mem with l2, trackers } } :=
  ⟨h.pending, h.dram, h.gradeB, h.fuses, h.memories, fun w => (h.work w).trans
    ⟨rfl, rfl, rfl, rfl, rfl, rfl, rfl, rfl, rfl, rfl, rfl, rfl, rfl, rfl, rfl⟩⟩

/-- An update of units that `Keeps` does not speak of. -/
theorem Keeps.same (h : Keeps False a s) : Keeps False a
    { s with
      regs, furn, hb, launches, vats, sync, heaps, owed, sched, xlt, maint, geo, cal, codec, ring, pwr, pcie, tap, reply,
      sent, free, nextId } :=
  ⟨h.pending, h.dram, h.gradeB, h.fuses, h.memories, False.elim⟩

/-- An update of the parts of memory, of the MGC and of the pins that `Keeps` does not speak of. -/
theorem Keeps.sameUnits (h : Keeps False a s) : Keeps False a
    { s with
      regs, furn, hb, launches, vats, sync, heaps, owed, sched, xlt, maint, geo, cal, codec, ring, pwr, pcie, tap, reply,
      sent, free, nextId
      mem := { s.mem with l2, trackers }
      mgc := { s.mgc with
        settings, log, image, modules, svcState, svcCause, received, starts, booted, devReset, migDone }
      pins := { s.pins with
        pwrok, resetN, perstN, freezeN, thermTrip, smbAlert, gpioIn, wdogLow, straps, cardId } } :=
  ⟨h.pending, h.dram, h.gradeB, h.fuses, h.memories, False.elim⟩

end

theorem Keeps.ite {c : Prop} [Decidable c] (ht : Keeps W a s) (he : Keeps W a t) : Keeps W a (if c then s else t) := by
  split
  · exact ht
  · exact he

/-- The state that a pair holds. -/
theorem Keeps.of_fst {α : Type} {p : State × α} {x : α} (h : Keeps W a p.1) (e : p = (s, x)) : Keeps W a s := by
  subst e
  exact h

theorem Keeps.of_snd {α : Type} {p : α × State} {x : α} (h : Keeps W a p.2) (e : p = (x, s)) : Keeps W a s := by
  subst e
  exact h

theorem Keeps.foldl {α : Type} {f : State → α → State} {l : List α} (h : Keeps W a s)
    (hf : ∀ {s x}, Keeps W a s → Keeps W a (f s x)) : Keeps W a (l.foldl f s) := by
  induction l generalizing s with
  | nil => exact h
  | cons x l ih => exact ih (hf h)

/-- A fold that carries something beside the state. -/
theorem Keeps.foldl_fst {α β : Type} {f : State × β → α → State × β} {l : List α} {p : State × β} (h : Keeps W a p.1)
    (hf : ∀ {p x}, Keeps W a p.1 → Keeps W a (f p x).1) : Keeps W a (l.foldl f p).1 := by
  induction l generalizing p with
  | nil => exact h
  | cons x l ih => exact ih (hf h)

end
end Sys2Proof.Machine
end

