-- ==== Sys2Proof/Proofs/KeepsUnits.lean ====
section
/-!
PROOF. What the step rules of the units keep (memory, link, translation, synchronisation, teardown, vats) (`Keeps`).
-/

namespace Sys2Proof.Machine

variable {W : Prop} {s₀ s : State}

/-! ### Furn -/

theorem Keeps.wr {f : Field} {v i j : Nat} (hs : Keeps W s₀ s) : Keeps W s₀ (s.wr f v i j) :=
  hs.access

theorem Keeps.wrAddr {f : Field} {a i j : Nat} (hs : Keeps W s₀ s) : Keeps W s₀ (s.wrAddr f a i j) :=
  hs.wr

theorem Keeps.count {f : Field} {k i j : Nat} (hs : Keeps W s₀ s) : Keeps W s₀ (s.count f k i j) :=
  hs.wr

theorem Keeps.resetField {f : Field} {i j : Nat} (hs : Keeps W s₀ s) : Keeps W s₀ (s.resetField f i j) :=
  hs.wr

theorem Keeps.takeFree (hs : Keeps W s₀ s) : Keeps W s₀ s.takeFree.2 :=
  hs.access

theorem Keeps.takeId (hs : Keeps W s₀ s) : Keeps W s₀ s.takeId.2 :=
  hs.access

theorem Keeps.setFn {fn : Nat} {c : FnCfg} (hs : Keeps W s₀ s) : Keeps W s₀ (s.setFn fn c) :=
  hs.access

theorem Keeps.setVat {n : Nat} {v : Vat} (hs : Keeps False s₀ s) : Keeps False s₀ (s.setVat n v) :=
  hs.same

theorem Keeps.setQuire {vat slot : Nat} {q : Quire} (hs : Keeps False s₀ s) : Keeps False s₀ (s.setQuire vat slot q) :=
  hs.setVat

theorem Keeps.setBlock {vat slot : Nat} {b : Block} (hs : Keeps False s₀ s) : Keeps False s₀ (s.setBlock vat slot b) :=
  hs.setVat

theorem Keeps.setQueue {p q : Nat} {l : List Cmd} (hs : Keeps False s₀ s) : Keeps False s₀ (s.setQueue p q l) :=
  hs.same

theorem Keeps.setBell {p q v : Nat} (hs : Keeps False s₀ s) : Keeps False s₀ (s.setBell p q v) :=
  hs.same

/-! ### Domains -/

theorem Keeps.domLost {d : Nat} (hs : Keeps False s₀ s) : Keeps False s₀ (s.domLost d) :=
  Keeps.ite hs.same (Keeps.ite hs.same hs)

theorem Keeps.domDrained {d : Nat} (hs : Keeps False s₀ s) : Keeps False s₀ (s.domDrained d) :=
  Keeps.ite hs.setVat hs

theorem Keeps.domSave {d target : Nat} (hs : Keeps False s₀ s) : Keeps False s₀ (s.domSave d target) :=
  Keeps.ite hs.same hs.same.domLost

theorem Keeps.domRestore {d : Nat} (hs : Keeps W s₀ s) : Keeps W s₀ (s.domRestore d) := by
  unfold State.domRestore
  dsimp only
  split
  · exact hs.access
  · exact hs

theorem Keeps.domOn {d : Nat} (hs : Keeps W s₀ s) : Keeps W s₀ (s.domOn d) :=
  hs.domRestore.access.wr

theorem Keeps.domAbort {d : Nat} (hs : Keeps W s₀ s) : Keeps W s₀ (s.domAbort d) :=
  hs.count.wr.wr

theorem Keeps.domWake {d : Nat} (hs : Keeps W s₀ s) : Keeps W s₀ (s.domWake d) :=
  Keeps.ite hs (Keeps.ite hs.domAbort hs).access.wr

theorem Keeps.wakeNow {d : Nat} (hs : Keeps W s₀ s) : Keeps W s₀ (s.wakeNow d) :=
  Keeps.ite hs (Keeps.ite hs.domAbort.domOn hs.domOn)

/-! ### Dram -/

/-- A byte written keeps the canonical form. -/
theorem Keeps.setRaw {pa : Nat} {b : Byte} (hs : Keeps W s₀ s) : Keeps W s₀ (s.setRaw pa b) :=
  { hs with
    memories := fun w => by
      obtain ⟨hdram, hrest⟩ := hs.memories w
      exact ⟨Mem.wf_set 0 _ _ b hdram, hrest⟩
    work := fun w => (hs.work w).trans (WorkKept.of_mem _ _) }

theorem Keeps.setRaws {pa : Nat} {bs : List Byte} (hs : Keeps W s₀ s) : Keeps W s₀ (s.setRaws pa bs) := by
  induction bs generalizing s pa with
  | nil => exact hs
  | cons b bs ih => exact ih hs.setRaw

theorem Keeps.writeSector {pa : Nat} {bs : List Byte} (hs : Keeps W s₀ s) : Keeps W s₀ (s.writeSector pa bs) := by
  unfold State.writeSector
  dsimp only
  split
  · exact hs.setRaws
  · exact Keeps.ite hs.setRaws.setRaws hs.setRaws.setRaws

theorem Keeps.l2Put {pa : Nat} {bs : List Byte} {dirty : Bool} (hs : Keeps W s₀ s) : Keeps W s₀ (s.l2Put pa bs dirty) :=
  hs.accessMem

theorem Keeps.putSector {pa : Nat} {bs : List Byte} (hs : Keeps W s₀ s) : Keeps W s₀ (s.putSector pa bs) :=
  Keeps.ite hs.l2Put hs.writeSector

/-! ### Link -/

theorem Keeps.charge {a r units : Nat} (hs : Keeps W s₀ s) : Keeps W s₀ (s.charge a r units) :=
  Keeps.ite hs (Keeps.ite (Keeps.ite hs.wr.count hs.wr) (Keeps.ite hs.wr.count hs.wr).access)

theorem Keeps.setPort {k : Nat} {f : FPort} (hs : Keeps W s₀ s) : Keeps W s₀ (s.setPort k f) :=
  hs.access

theorem Keeps.sendMsg {k : Nat} {m : Msg} (hs : Keeps W s₀ s) : Keeps W s₀ (s.sendMsg k m) :=
  Keeps.ite hs.setPort (Keeps.ite hs.setPort.wr hs.setPort).charge

theorem Keeps.pump {k fuel : Nat} (hs : Keeps W s₀ s) : Keeps W s₀ (s.pump k fuel) := by
  induction fuel generalizing s with
  | zero => exact hs
  | succ fuel ih =>
    rw [State.pump]
    split
    · exact hs
    · split
      · exact hs
      · exact ih hs.sendMsg

theorem Keeps.pumpAll (hs : Keeps W s₀ s) : Keeps W s₀ s.pumpAll :=
  hs.pump.pump

theorem Keeps.feltPut {k vc cls : Nat} {m : List Byte} (hs : Keeps W s₀ s) : Keeps W s₀ (s.feltPut k vc cls m) :=
  hs.setPort.pump

theorem Keeps.feltQueue {k vc : Nat} {m : List Byte} (hs : Keeps W s₀ s) : Keeps W s₀ (s.feltQueue k vc m) :=
  hs.feltPut

/-! ### Ops -/

theorem Keeps.msix {fn : Nat} (hs : Keeps W s₀ s) : Keeps W s₀ (s.msix fn) :=
  Keeps.ite hs.access hs.setFn

/-- A posted write keeps the canonical form. -/
theorem Keeps.hostWrite {addr : Nat} {bs : List Byte} (hs : Keeps W s₀ s) : Keeps W s₀ (s.hostWrite addr bs) :=
  { hs with
    memories := fun w => by
      obtain ⟨hdram, hhost, hrest⟩ := hs.memories w
      exact ⟨hdram, Mem.wf_write 0 _ addr bs hhost, hrest⟩
    work := fun w => (hs.work w).trans (WorkKept.of_mem _ _) }

theorem Keeps.evWrite {t : Nat} {e : Ev} (hs : Keeps W s₀ s) : Keeps W s₀ (s.evWrite t e) :=
  Keeps.ite (Keeps.ite hs.putSector hs.hostWrite).wr.msix (Keeps.ite hs.putSector hs.hostWrite).wr

theorem Keeps.evDrop {t : Nat} {e : Ev} (hs : Keeps W s₀ s) : Keeps W s₀ (s.evDrop t e) :=
  Keeps.ite hs.access hs.wr

theorem Keeps.evOwed {t : Nat} (hs : Keeps W s₀ s) : Keeps W s₀ (s.evOwed t) := by
  unfold State.evOwed
  split
  · exact hs
  · exact Keeps.ite hs.access.evWrite hs

theorem Keeps.evPost {t : Nat} {e : Ev} (hs : Keeps W s₀ s) : Keeps W s₀ (s.evPost t e) :=
  Keeps.ite hs (Keeps.ite hs.evOwed.evWrite hs.evOwed.evDrop)

theorem Keeps.raise {t : Nat} {e : Ev} (hs : Keeps W s₀ s) : Keeps W s₀ (s.raise t e) :=
  Keeps.ite hs.wr hs.wr.evPost

theorem Keeps.feltSend {dst : Nat} {m : List Byte} (hs : Keeps W s₀ s) : Keeps W s₀ (s.feltSend dst m) :=
  Keeps.ite hs hs.feltQueue

theorem Keeps.feltReq {dst op part : Nat} {body : List Byte} {owner : Owner} {va : Nat} (hs : Keeps W s₀ s) :
    Keeps W s₀ (s.feltReq dst op part body owner va) :=
  Keeps.ite hs hs.access.feltSend

theorem Keeps.feltReqOn {k op part : Nat} {body : List Byte} (hs : Keeps W s₀ s) :
    Keeps W s₀ (s.feltReqOn k op part body) :=
  hs.access.feltQueue

theorem Keeps.feltCplBy {k op dst tag part status : Nat} {data : List Byte} (hs : Keeps W s₀ s) :
    Keeps W s₀ (s.feltCplBy k op dst tag part status data) :=
  (Keeps.ite hs hs.access).feltQueue

theorem Keeps.feltCpl {op dst tag part status : Nat} {data : List Byte} (hs : Keeps W s₀ s) :
    Keeps W s₀ (s.feltCpl op dst tag part status data) :=
  hs.feltCplBy

theorem Keeps.raisePart {p : Nat} {e : Ev} (hs : Keeps W s₀ s) : Keeps W s₀ (s.raisePart p e) := by
  unfold State.raisePart
  split
  · exact Keeps.ite hs.feltReq hs.raise
  · exact hs.raise

theorem Keeps.raiseShared {src : Shared} {status detail p0 p1 : Nat} (hs : Keeps W s₀ s) :
    Keeps W s₀ (s.raiseShared src status detail p0 p1) :=
  hs.raise

theorem Keeps.raiseRing {status before : Nat} (hs : Keeps W s₀ s) : Keeps W s₀ (s.raiseRing status before) :=
  hs.raiseShared

theorem Keeps.setFunc {k v : Nat} (hs : Keeps W s₀ s) : Keeps W s₀ (s.setFunc k v) :=
  hs.wr

theorem Keeps.answer {n v : Nat} (hs : Keeps False s₀ s) : Keeps False s₀ (s.answer n v) :=
  hs.same

theorem Keeps.aer {e : Nat} (hs : Keeps W s₀ s) : Keeps W s₀ (s.aer e) :=
  hs.access

/-! ### L2 -/

theorem Keeps.memRecord {who : Asker} {reason pa mask : Nat} (hs : Keeps W s₀ s) :
    Keeps W s₀ (s.memRecord who reason pa mask) :=
  hs.raiseShared

theorem Keeps.noteCorrected {who : Asker} {pa : Nat} (hs : Keeps W s₀ s) : Keeps W s₀ (s.noteCorrected who pa) :=
  Keeps.ite hs.count.memRecord hs.count

theorem Keeps.noteBad {who : Asker} {pa mask : Nat} (hs : Keeps W s₀ s) : Keeps W s₀ (s.noteBad who pa mask) :=
  (Keeps.ite hs.count.wr.wr.wr.wr hs.count).memRecord

theorem Keeps.chargeMiss {who : Asker} (hs : Keeps W s₀ s) : Keeps W s₀ (s.chargeMiss who) := by
  unfold State.chargeMiss
  split
  · exact hs
  · exact hs.charge

theorem Keeps.chargeDram {who : Asker} {n : Nat} (hs : Keeps W s₀ s) : Keeps W s₀ (s.chargeDram who n) := by
  unfold State.chargeDram
  split
  · exact hs
  · split
    · exact hs
    · split
      next e1 => exact (hs.takeFree.of_snd e1).charge

theorem Keeps.useDram {who : Asker} {n : Nat} (hs : Keeps W s₀ s) : Keeps W s₀ (s.useDram who n) :=
  (Keeps.ite hs.wr hs).chargeDram

theorem Keeps.wakeSlice {pa : Nat} (hs : Keeps W s₀ s) : Keeps W s₀ (s.wakeSlice pa) :=
  hs.wakeNow

theorem Keeps.wakeCtrl {pa : Nat} (hs : Keeps W s₀ s) : Keeps W s₀ (s.wakeCtrl pa) :=
  hs.wakeNow

theorem Keeps.l2ReadSector {who : Asker} {pol : CachePolicy} {pa : Nat} (hs : Keeps W s₀ s) :
    Keeps W s₀ (s.l2ReadSector who pol pa).1 := by
  unfold State.l2ReadSector
  dsimp only
  split
  · exact hs.wakeSlice
  · split
    · exact hs.wakeSlice.wakeCtrl.chargeMiss.useDram.noteBad
    · exact Keeps.ite (Keeps.ite hs.wakeSlice.wakeCtrl.chargeMiss.useDram.noteCorrected
        hs.wakeSlice.wakeCtrl.chargeMiss.useDram).l2Put (Keeps.ite
        hs.wakeSlice.wakeCtrl.chargeMiss.useDram.noteCorrected hs.wakeSlice.wakeCtrl.chargeMiss.useDram)

theorem Keeps.l2ReadSectors {who : Asker} {pol : CachePolicy} {n pa : Nat} (hs : Keeps W s₀ s) :
    Keeps W s₀ (s.l2ReadSectors who pol n pa).1 := by
  induction n generalizing s pa with
  | zero => exact hs
  | succ n ih =>
    rw [State.l2ReadSectors]
    split
    next e => exact hs.l2ReadSector.of_fst e
    next e =>
      have h1 := hs.l2ReadSector.of_fst e
      split
      next e1 => exact (ih h1).of_fst e1
      next e1 => exact (ih h1).of_fst e1

theorem Keeps.l2Read {who : Asker} {pol : CachePolicy} {pa n : Nat} (hs : Keeps W s₀ s) :
    Keeps W s₀ (s.l2Read who pol pa n).1 := by
  unfold State.l2Read
  split
  next e => exact hs.l2ReadSectors.of_fst e
  next e => exact hs.l2ReadSectors.of_fst e

theorem Keeps.detect {who : Asker} {pol : CachePolicy} {pa : Nat} (hs : Keeps W s₀ s) :
    Keeps W s₀ (s.detect who pol pa).1 := by
  unfold State.detect
  dsimp only
  split
  · exact hs
  · split
    · exact hs.accessMem
    · exact hs

theorem Keeps.l2WriteSector {who : Asker} {pol : CachePolicy} {bypass : Bool} {pa off : Nat} {bs : List Byte}
    (hs : Keeps W s₀ s) :
    Keeps W s₀ (s.l2WriteSector who pol bypass pa off bs).1 := by
  unfold State.l2WriteSector
  dsimp only
  split
  · exact hs.wakeSlice.l2Put
  · split
    · exact Keeps.ite (Keeps.ite hs.wakeSlice.wakeCtrl.chargeMiss.count hs.wakeSlice.wakeCtrl.chargeMiss).l2Put
        (Keeps.ite hs.wakeSlice.wakeCtrl.chargeMiss.count hs.wakeSlice.wakeCtrl.chargeMiss).writeSector.useDram
    · split
      · split
        · exact hs.wakeSlice.wakeCtrl.chargeMiss.count.useDram.noteBad
        · exact Keeps.ite (Keeps.ite hs.wakeSlice.wakeCtrl.chargeMiss.count.useDram.noteCorrected
            hs.wakeSlice.wakeCtrl.chargeMiss.count.useDram).l2Put
            (Keeps.ite hs.wakeSlice.wakeCtrl.chargeMiss.count.useDram.noteCorrected
            hs.wakeSlice.wakeCtrl.chargeMiss.count.useDram).writeSector.useDram
      · split
        · exact hs.wakeSlice.wakeCtrl.chargeMiss.useDram.noteBad
        · exact Keeps.ite (Keeps.ite hs.wakeSlice.wakeCtrl.chargeMiss.useDram.noteCorrected
            hs.wakeSlice.wakeCtrl.chargeMiss.useDram).l2Put (Keeps.ite
            hs.wakeSlice.wakeCtrl.chargeMiss.useDram.noteCorrected
            hs.wakeSlice.wakeCtrl.chargeMiss.useDram).writeSector.useDram

theorem Keeps.l2WriteFrom {who : Asker} {pol : CachePolicy} {fuel pa : Nat} {bs : List Byte} (hs : Keeps W s₀ s) :
    Keeps W s₀ (s.l2WriteFrom who pol fuel pa bs).1 := by
  induction fuel generalizing s pa bs with
  | zero => exact hs
  | succ fuel ih =>
    rw [State.l2WriteFrom]
    split
    · exact hs
    · dsimp only
      split
      · exact ih hs.detect.l2WriteSector
      · exact hs.detect.l2WriteSector

theorem Keeps.l2Write {who : Asker} {pol : CachePolicy} {pa : Nat} {bs : List Byte} (hs : Keeps W s₀ s) :
    Keeps W s₀ (s.l2Write who pol pa bs).1 :=
  hs.l2WriteFrom

theorem Keeps.l2Atomic {who : Asker} {pol : CachePolicy} {opcode : Nat} {sgn wide : Bool} {pa b c : Nat}
    (hs : Keeps W s₀ s) :
    Keeps W s₀ (s.l2Atomic who pol opcode sgn wide pa b c).1 := by
  unfold State.l2Atomic
  dsimp only
  split
  next e => exact hs.l2Read.of_fst e
  next e => exact (hs.l2Read.of_fst e).l2Write

theorem Keeps.physWrite {pa : Nat} {bs : List Byte} (hs : Keeps W s₀ s) : Keeps W s₀ (s.physWrite pa bs) :=
  hs.l2Write

/-! ### Points -/

theorem Keeps.moveRail {r : Nat} (hs : Keeps False s₀ s) : Keeps False s₀ (s.moveRail r) := by
  unfold State.moveRail
  dsimp only
  split
  · exact Keeps.ite hs hs.same
  · split
    · exact hs.same.wr
    · split
      · exact Keeps.ite hs hs.same
      · exact hs

theorem Keeps.showPower (hs : Keeps False s₀ s) : Keeps False s₀ s.showPower :=
  (Keeps.ite hs.sameUnits hs).wr.wr.wr

theorem Keeps.repoint (hs : Keeps False s₀ s) : Keeps False s₀ s.repoint :=
  hs.moveRail.moveRail.moveRail.showPower

/-! ### FurnLoad -/

theorem Keeps.setBudget {b : FRec} (hs : Keeps False s₀ s) : Keeps False s₀ (s.setBudget b) :=
  (hs.foldl fun hs1 => hs1.wr).foldl fun hs1 => hs1.wr.wr

theorem Keeps.clearSettings (hs : Keeps False s₀ s) : Keeps False s₀ s.clearSettings :=
  ((hs.foldl fun hs1 => hs1.foldl fun hs2 => hs2.resetField).foldl fun hs1 =>
    hs1.resetField.resetField.resetField).resetField.resetField

theorem Keeps.applySettings {recs : List FRec} (hs : Keeps False s₀ s) : Keeps False s₀ (s.applySettings recs) :=
  (((hs.clearSettings.foldl fun hs1 => hs1.setBudget).foldl fun hs1 => hs1.wr.wrAddr.wr).foldl fun hs1 =>
    hs1.wr.wr).repoint

theorem Keeps.initFuncs (hs : Keeps False s₀ s) : Keeps False s₀ s.initFuncs :=
  hs.foldl fun hs1 => hs1.setFunc.wr

theorem Keeps.initVats (hs : Keeps False s₀ s) : Keeps False s₀ s.initVats :=
  hs.foldl fun hs1 => hs1.wr

theorem Keeps.installFurnish {bs : List Byte} {recs : List FRec} {source : Nat} (hs : Keeps False s₀ s) :
    Keeps False s₀ (s.installFurnish bs recs source) :=
  hs.same.applySettings.initFuncs.initVats.wr.wr.wr.wr.wr.wr.wr.wr.wr.wr

theorem Keeps.loadFailed {e : LoadErr} (hs : Keeps False s₀ s) : Keeps False s₀ (s.loadFailed e) :=
  hs.wr.wr.wr

theorem Keeps.strapCheck (hs : Keeps False s₀ s) : Keeps False s₀ s.strapCheck :=
  Keeps.ite hs.wr hs.wr.raiseRing

/-! ### Xlate -/

theorem Keeps.readEntry {who : Asker} {pa : Nat} (hs : Keeps W s₀ s) : Keeps W s₀ (s.readEntry who pa).1 := by
  unfold State.readEntry
  split
  · split
    next e1 => exact hs.l2Read.of_fst e1
    next e1 => exact hs.l2Read.of_fst e1
  · split
    · exact hs
    · exact hs

theorem Keeps.walkFrom {who : Asker} {l tbl va : Nat} (hs : Keeps W s₀ s) : Keeps W s₀ (s.walkFrom who l tbl va).1 := by
  induction l generalizing s tbl with
  | zero => exact hs
  | succ l ih =>
    rw [State.walkFrom]
    split
    next e => exact hs.readEntry.of_fst e
    next e =>
      have h1 := hs.readEntry.of_fst e
      split
      · exact h1
      · split
        · exact h1
        · exact ih h1

theorem Keeps.walk {who : Asker} {p va : Nat} (hs : Keeps W s₀ s) : Keeps W s₀ (s.walk who p va).1 := by
  unfold State.walk
  dsimp only
  split
  · exact hs
  · split
    · exact hs
    · split
      · exact hs
      · exact hs.walkFrom

theorem Keeps.lookup {who : Asker} {p va : Nat} (hs : Keeps W s₀ s) : Keeps W s₀ (s.lookup who p va).1 := by
  unfold State.lookup
  dsimp only
  split
  · exact hs
  · split
    next e' => exact (hs.walk.of_fst e').access
    · exact hs.walk
    next e' =>
      split
      · exact hs.walk.of_fst e'
      · exact (hs.walk.of_fst e').takeFree
    next e' =>
      split
      · exact (hs.walk.of_fst e').takeFree
      · exact (hs.walk.of_fst e').takeFree

theorem Keeps.takeEntry {chip e p va level rights kind : Nat} (hs : Keeps W s₀ s) :
    Keeps W s₀ (s.takeEntry chip e p va level rights kind) :=
  hs.wr.wr.wr.wr.wrAddr.wr.count.raisePart

theorem Keeps.migFault {who : Owner} {p va level rights kind : Nat} (hs : Keeps W s₀ s) :
    Keeps W s₀ (s.migFault who p va level rights kind) := by
  unfold State.migFault
  dsimp only
  split
  · exact hs
  · split
    · split
      · exact hs.takeId.feltReq.access
      · exact hs
    · split
      · exact hs.takeId.access
      · split
        · exact hs.takeId.takeEntry.access
        · exact hs.takeId.access

theorem Keeps.readAway {who : Owner} {p key addr n va : Nat} (hs : Keeps W s₀ s) :
    Keeps W s₀ (s.readAway who p key addr n va) :=
  Keeps.ite hs hs.access.feltSend

theorem Keeps.readRemote {who : Owner} {p addr n va : Nat} (hs : Keeps W s₀ s) :
    Keeps W s₀ (s.readRemote who p addr n va) :=
  hs.readAway

theorem Keeps.readWalk {who : Owner} {p addr va : Nat} (hs : Keeps W s₀ s) : Keeps W s₀ (s.readWalk who p addr va) :=
  hs.readAway

theorem Keeps.translate {asker : Asker} {who : Owner} {p va rights : Nat} (hs : Keeps W s₀ s) :
    Keeps W s₀ (s.translate asker who p va rights).1 := by
  unfold State.translate
  dsimp only
  split
  · exact hs
  · split
    next e =>
      split
      · exact hs.lookup.of_fst e
      · split
        · exact hs.lookup.of_fst e
        · split
          · exact hs.lookup.of_fst e
          · exact hs.lookup.of_fst e
    next e => exact (hs.lookup.of_fst e).migFault
    next e => exact hs.lookup.of_fst e
    next e => exact hs.lookup.of_fst e
    next e =>
      split
      · exact (hs.lookup.of_fst e).readWalk
      · exact hs.lookup.of_fst e

theorem Keeps.translatePages {asker : Asker} {who : Owner} {p rights n pg : Nat} (hs : Keeps W s₀ s) :
    Keeps W s₀ (s.translatePages asker who p rights n pg).1 := by
  induction n generalizing s pg with
  | zero => exact hs
  | succ n ih =>
    rw [State.translatePages]
    split
    next e => exact hs.translate.of_fst e
    next e =>
      have h1 := hs.translate.of_fst e
      split
      next e1 => exact (ih h1).of_fst e1
      next e1 => exact (ih h1).of_fst e1

theorem Keeps.footprint {asker : Asker} {who : Owner} {p va n rights : Nat} (hs : Keeps W s₀ s) :
    Keeps W s₀ (s.footprint asker who p va n rights).1 :=
  hs.translatePages

theorem Keeps.footprints {asker : Asker} {who : Owner} {p : Nat} {ranges : List (Nat × Nat × Nat)} (hs : Keeps W s₀ s) :
    Keeps W s₀ (s.footprints asker who p ranges).1 := by
  induction ranges generalizing s with
  | nil => exact hs
  | cons r ranges ih =>
    rw [State.footprints]
    split
    next e => exact hs.footprint.of_fst e
    next e => exact ih (hs.footprint.of_fst e)

theorem Keeps.prefetchRange {asker : Asker} {p va n : Nat} (hs : Keeps W s₀ s) :
    Keeps W s₀ (s.prefetchRange asker p va n) := by
  unfold State.prefetchRange
  dsimp only
  refine hs.foldl fun hs1 => ?_
  split
  next e => exact (hs1.walk.of_fst e).access
  · exact hs1.count

theorem Keeps.readHost {who : Owner} {p addr n va : Nat} (hs : Keeps W s₀ s) : Keeps W s₀ (s.readHost who p addr n va) := by
  unfold State.readHost
  dsimp only
  exact Keeps.ite hs hs.takeId.access

/-- Taking fetched bytes changes the translation unit only. -/
theorem Keeps.takeFetched {who : Owner} {addr n : Nat} {bs : List Byte} {t : State} (hs : Keeps W s₀ s)
    (e : s.takeFetched who addr n = some (bs, t)) : Keeps W s₀ t := by
  unfold State.takeFetched at e
  split at e
  · exact absurd e (by simp)
  · simp only [Option.some.injEq, Prod.mk.injEq] at e
    exact e.2 ▸ hs.access

theorem Keeps.readPage {asker : Asker} {who : Owner} {p : Nat} {x : Xlat} {va n : Nat} (hs : Keeps W s₀ s) :
    Keeps W s₀ (s.readPage asker who p x va n).1 := by
  unfold State.readPage
  extract_lets pa ls
  split
  · split
    next e => exact hs.takeFetched e
    · split
      · exact hs.readHost
      · exact hs
  · split
    · split
      next e => exact hs.l2Read.of_fst e
      next e => exact hs.l2Read.of_fst e
    · split
      · refine Keeps.foldl_fst (p := (s, [])) hs fun h => ?_
        split
        next e => exact h.takeFetched e
        · exact h
      · split
        · exact hs.foldl fun h => .ite h h.readRemote
        · exact hs

theorem Keeps.writePage {asker : Asker} {who : Owner} {p : Nat} {x : Xlat} {va : Nat} {bs : List Byte}
    (hs : Keeps W s₀ s) :
    Keeps W s₀ (s.writePage asker who p x va bs).1 := by
  unfold State.writePage
  dsimp only
  split
  · split
    · exact hs.hostWrite
    · exact hs
  · split
    · split
      next e1 => exact hs.l2Write.of_fst e1
      next e1 => exact hs.l2Write.of_fst e1
    · split
      · exact hs.foldl fun hs1 => hs1.feltReq
      · exact hs

theorem Keeps.vReadFrom {asker : Asker} {who : Owner} {p fuel va n : Nat} (hs : Keeps W s₀ s) :
    Keeps W s₀ (s.vReadFrom asker who p fuel va n).1 := by
  induction fuel generalizing s va n with
  | zero => exact hs
  | succ fuel ih =>
    rw [State.vReadFrom]
    split
    · exact hs
    · split
      next e => exact hs.translate.of_fst e
      next e =>
        have h1 := hs.translate.of_fst e
        dsimp only
        split
        next e1 => exact h1.readPage.of_fst e1
        next e1 =>
          have h2 := h1.readPage.of_fst e1
          split
          next e2 => exact (ih h2).of_fst e2
          next e2 => exact (ih h2).of_fst e2

theorem Keeps.vRead {asker : Asker} {who : Owner} {p va n : Nat} (hs : Keeps W s₀ s) :
    Keeps W s₀ (s.vRead asker who p va n).1 := by
  unfold State.vRead
  dsimp only
  split
  next e => exact hs.footprint.of_fst e
  next e =>
    split
    next e1 => exact ((hs.footprint.of_fst e).vReadFrom.of_fst e1).access
    · exact (hs.footprint.of_fst e).vReadFrom

theorem Keeps.vWriteFrom {asker : Asker} {who : Owner} {p fuel va : Nat} {bs : List Byte} (hs : Keeps W s₀ s) :
    Keeps W s₀ (s.vWriteFrom asker who p fuel va bs).1 := by
  induction fuel generalizing s va bs with
  | zero => exact hs
  | succ fuel ih =>
    rw [State.vWriteFrom]
    split
    · exact hs
    · split
      next e => exact hs.translate.of_fst e
      next e =>
        have h1 := hs.translate.of_fst e
        dsimp only
        split
        next e1 => exact h1.writePage.of_fst e1
        next e1 => exact ih (h1.writePage.of_fst e1)

theorem Keeps.vWrite {asker : Asker} {who : Owner} {p va : Nat} {bs : List Byte} (hs : Keeps W s₀ s) :
    Keeps W s₀ (s.vWrite asker who p va bs).1 := by
  unfold State.vWrite
  split
  next e => exact hs.footprint.of_fst e
  next e => exact (hs.footprint.of_fst e).vWriteFrom

/-! ### Sync -/

theorem Keeps.setWaits {l : List Wait} (hs : Keeps False s₀ s) : Keeps False s₀ (s.setWaits l) :=
  hs.same

theorem Keeps.notify {h : Nat} {f : Wait → Option Nat} (hs : Keeps False s₀ s) : Keeps False s₀ (s.notify h f) :=
  hs.setWaits

theorem Keeps.evalWaits {h : Nat} (hs : Keeps False s₀ s) : Keeps False s₀ (s.evalWaits h) :=
  hs.notify

theorem Keeps.lendChosen (hs : Keeps False s₀ s) : Keeps False s₀ s.lendChosen :=
  hs.same.foldl fun hs1 => hs1.setVat

theorem Keeps.returnLent (hs : Keeps False s₀ s) : Keeps False s₀ s.returnLent :=
  Keeps.ite hs.lendChosen hs.same

theorem Keeps.endLead {head : Nat} (hs : Keeps False s₀ s) : Keeps False s₀ (s.endLead head) :=
  Keeps.ite hs.same.returnLent hs

theorem Keeps.cancelArm {head : Nat} (hs : Keeps False s₀ s) : Keeps False s₀ (s.cancelArm head) :=
  hs.wr.wr.endLead

theorem Keeps.wallHook {h : Nat} (hs : Keeps False s₀ s) : Keeps False s₀ (s.wallHook h) :=
  hs.foldl fun hs1 => Keeps.ite (Keeps.ite hs1.cancelArm (Keeps.ite hs1.endLead hs1)) hs1

theorem Keeps.setValue {h v : Nat} (hs : Keeps False s₀ s) : Keeps False s₀ (s.setValue h v) :=
  hs.wr.evalWaits.wallHook

theorem Keeps.signal {h v : Nat} (hs : Keeps False s₀ s) : Keeps False s₀ (s.signal h v) :=
  hs.setValue

theorem Keeps.counterAdd {h b : Nat} (hs : Keeps False s₀ s) : Keeps False s₀ (s.counterAdd h b) :=
  hs.setValue

theorem Keeps.addWait {h threshold timeout : Nat} {who : Waiter} {p : Nat} (hs : Keeps False s₀ s) :
    Keeps False s₀ (s.addWait h threshold timeout who p) := by
  unfold State.addWait
  split
  next e => exact (hs.takeId.of_snd e).setWaits

theorem Keeps.lockTry {h ident : Nat} (hs : Keeps False s₀ s) : Keeps False s₀ (s.lockTry h ident).1 := by
  unfold State.lockTry
  split
  · exact hs.wr
  · split
    · exact hs
    · split
      · exact hs
      · exact hs

theorem Keeps.lockRetire {vat slot : Nat} (hs : Keeps False s₀ s) : Keeps False s₀ (s.lockRetire vat slot) := by
  unfold State.lockRetire
  dsimp only
  split
  · exact hs
  · split
    · split
      · exact hs
      · split
        · refine Keeps.setVat ?_
          split
          · exact hs.setQuire.setBlock
          · exact hs.setQuire
        · split
          · exact hs.setQuire.setBlock
          · exact hs.setQuire
    · exact hs

theorem Keeps.lockLane {vat slot lane r : Nat} (hs : Keeps False s₀ s) : Keeps False s₀ (s.lockLane vat slot lane r) := by
  unfold State.lockLane
  split
  · exact hs.setQuire.lockRetire
  · exact hs

theorem Keeps.lockTell {w : LockWaiter} {r : Nat} (hs : Keeps False s₀ s) : Keeps False s₀ (s.lockTell w r) :=
  Keeps.ite hs.lockLane hs.feltCpl

theorem Keeps.lockFree {h : Nat} (hs : Keeps False s₀ s) : Keeps False s₀ (s.lockFree h) := by
  unfold State.lockFree
  split
  · exact hs.wr
  · extract_lets sib s1 _ s2
    have h2 : Keeps False s₀ s2 := hs.wr.same
    exact h2.foldl fun h => h.lockTell

theorem Keeps.takeRecord {mem : Bool} {obj p : Nat} (hs : Keeps False s₀ s) : Keeps False s₀ (s.takeRecord mem obj p) :=
  Keeps.ite hs.same.wr hs.same

theorem Keeps.releaseMem {h : Nat} (hs : Keeps False s₀ s) : Keeps False s₀ (s.releaseMem h) :=
  Keeps.ite (hs.foldl fun hs1 => hs1.wr).raise (hs.foldl fun hs1 => hs1.wr).raisePart

theorem Keeps.freeSync {h : Nat} (hs : Keeps False s₀ s) : Keeps False s₀ (s.freeSync h) :=
  hs.foldl fun hs1 => hs1.wr

theorem Keeps.dropRecord {r : Release} (hs : Keeps False s₀ s) : Keeps False s₀ (s.dropRecord r) :=
  Keeps.ite (Keeps.ite hs.same.wr.releaseMem hs.same.wr) (Keeps.ite hs.same.freeSync hs.same)

theorem Keeps.passRecords (hs : Keeps False s₀ s) : Keeps False s₀ s.passRecords :=
  hs.foldl fun hs1 => Keeps.ite hs1.dropRecord hs1

theorem Keeps.destroyObj {h : Nat} (hs : Keeps False s₀ s) : Keeps False s₀ (s.destroyObj h) :=
  hs.wr.notify.wallHook

theorem Keeps.terminate {h st : Nat} {f : Wait → Bool} {status : Nat} (hs : Keeps False s₀ s) :
    Keeps False s₀ (s.terminate h st f status) :=
  hs.wr.notify.wallHook

theorem Keeps.setResult {id st : Nat} (hs : Keeps False s₀ s) : Keeps False s₀ (s.setResult id st) :=
  hs.same

theorem Keeps.quireResume {vat slot : Nat} {acquired : Bool} (hs : Keeps False s₀ s) :
    Keeps False s₀ (s.quireResume vat slot acquired) := by
  unfold State.quireResume
  dsimp only
  split
  · split
    · exact hs.setVat
    · split
      · exact hs.setVat.setQuire
      · exact hs.setVat
  · split
    · exact hs
    · split
      · exact hs.setQuire
      · exact hs

theorem Keeps.endWait {w : Wait} {st : Nat} (hs : Keeps False s₀ s) : Keeps False s₀ (s.endWait w st) := by
  unfold State.endWait
  dsimp only
  split
  · exact hs.setWaits.setResult
  · split
    · exact hs.setWaits.setQuire.quireResume
    · exact hs.setWaits
  · exact hs.setWaits.feltCpl

theorem Keeps.endWaits {f : Wait → Bool} {st : Nat} (hs : Keeps False s₀ s) : Keeps False s₀ (s.endWaits f st) :=
  hs.foldl fun hs1 => hs1.endWait

theorem Keeps.arrive {h : Nat} {who : Waiter} {p : Nat} (hs : Keeps False s₀ s) : Keeps False s₀ (s.arrive h who p).1 := by
  unfold State.arrive
  dsimp only
  split
  · exact hs.wr.endWaits
  · exact hs.wr.addWait

/-! ### Cmds -/

theorem Keeps.modCmd {id : Nat} {f : Cmd → Cmd} (hs : Keeps False s₀ s) : Keeps False s₀ (s.modCmd id f) :=
  hs.same

theorem Keeps.trimQueue {p q : Nat} (hs : Keeps False s₀ s) : Keeps False s₀ (s.trimQueue p q) :=
  hs.setQueue.wr

theorem Keeps.queueErr {p q st slot : Nat} (hs : Keeps False s₀ s) : Keeps False s₀ (s.queueErr p q st slot) :=
  Keeps.ite hs.wr.wr hs.count

theorem Keeps.reportCmd {c : Cmd} {st : Nat} {post : Bool} (hs : Keeps False s₀ s) : Keeps False s₀ (s.reportCmd c st post) :=
  Keeps.ite hs (Keeps.ite hs.queueErr.raisePart hs.queueErr)

theorem Keeps.modRun {id : Nat} {f : GraphRun → GraphRun} (hs : Keeps False s₀ s) : Keeps False s₀ (s.modRun id f) :=
  hs.same

theorem Keeps.runCheck {id : Nat} (hs : Keeps False s₀ s) : Keeps False s₀ (s.runCheck id) := by
  unfold State.runCheck
  split
  · exact hs
  · exact Keeps.ite hs.setResult hs

theorem Keeps.nodeDone {run i st : Nat} (hs : Keeps False s₀ s) : Keeps False s₀ (s.nodeDone run i st) :=
  hs.modRun.runCheck

theorem Keeps.retireVersions (hs : Keeps False s₀ s) : Keeps False s₀ s.retireVersions :=
  hs.same

theorem Keeps.dlOnTime {e : Nat} (hs : Keeps False s₀ s) : Keeps False s₀ (s.dlOnTime e) :=
  Keeps.ite hs (Keeps.ite hs.wr.wr hs.wr)

theorem Keeps.frameEnd {fr : Frame} {st : Nat} (hs : Keeps False s₀ s) : Keeps False s₀ (s.frameEnd fr st) := by
  unfold State.frameEnd
  dsimp only
  exact Keeps.ite (Keeps.ite hs.takeFree.same.dlOnTime hs.takeFree.same)
    (Keeps.ite hs.takeFree.same.count.wr hs.takeFree.same.count)

theorem Keeps.framesEnd {run st : Nat} (hs : Keeps False s₀ s) : Keeps False s₀ (s.framesEnd run st) :=
  hs.foldl fun hs1 => hs1.frameEnd

theorem Keeps.launchGraphDone {id st : Nat} (hs : Keeps False s₀ s) : Keeps False s₀ (s.launchGraphDone id st) := by
  unfold State.launchGraphDone
  dsimp only
  split
  · exact hs
  · exact hs.framesEnd.same.retireVersions

theorem Keeps.finishCmd {id st : Nat} {post : Bool} (hs : Keeps False s₀ s) : Keeps False s₀ (s.finishCmd id st post) := by
  unfold State.finishCmd
  dsimp only
  split
  · exact hs
  · split
    · exact hs
    · refine Keeps.passRecords ?_
      refine Keeps.trimQueue ?_
      split
      · exact (Keeps.ite (Keeps.ite hs.modCmd.reportCmd.wr hs.modCmd.reportCmd).launchGraphDone
          (Keeps.ite hs.modCmd.reportCmd.wr hs.modCmd.reportCmd)).nodeDone
      · exact Keeps.ite (Keeps.ite hs.modCmd.reportCmd.wr hs.modCmd.reportCmd).launchGraphDone
          (Keeps.ite hs.modCmd.reportCmd.wr hs.modCmd.reportCmd)

theorem Keeps.setLaunch {id : Nat} {l : Launch} (hs : Keeps False s₀ s) : Keeps False s₀ (s.setLaunch id l) :=
  hs.same

theorem Keeps.showPass {p : Nat} (hs : Keeps False s₀ s) : Keeps False s₀ (s.showPass p) := by
  unfold State.showPass
  split
  · exact hs.wr.wr.wr.wr.wr
  · exact hs.wr.wr.wr.wr.wr

theorem Keeps.setPass {x : Pass} (hs : Keeps False s₀ s) : Keeps False s₀ (s.setPass x) :=
  hs.same

theorem Keeps.dropPass {cmd : Nat} (hs : Keeps False s₀ s) : Keeps False s₀ (s.dropPass cmd) :=
  hs.same

/-! ### Columns -/

theorem Keeps.putColumn {launch col : Nat} {v : Nat × Nat} (hs : Keeps False s₀ s) : Keeps False s₀ (s.putColumn launch col v) :=
  hs.same

theorem Keeps.sendColumn {l : Launch} {addr col chip : Nat} (hs : Keeps False s₀ s) :
    Keeps False s₀ (s.sendColumn l addr col chip) := by
  unfold State.sendColumn
  dsimp only
  exact Keeps.ite hs.putColumn.takeId.setLaunch hs.putColumn.feltReq

theorem Keeps.grantColumns {id fuel : Nat} (hs : Keeps False s₀ s) : Keeps False s₀ (s.grantColumns id fuel) := by
  induction fuel generalizing s with
  | zero => exact hs
  | succ fuel ih =>
    rw [State.grantColumns]
    split
    · exact hs
    · split
      · exact hs
      · split
        · exact hs
        · exact ih hs.sendColumn.setLaunch

theorem Keeps.regrantColumns (hs : Keeps False s₀ s) : Keeps False s₀ s.regrantColumns := by
  unfold State.regrantColumns
  refine hs.foldl fun hs1 => ?_
  split
  · split
    · exact hs1.sendColumn
    · exact hs1
  · exact hs1

theorem Keeps.columnDone {p col status : Nat} (hs : Keeps False s₀ s) : Keeps False s₀ (s.columnDone p col status) := by
  unfold State.columnDone
  dsimp only
  split
  · exact hs
  · split
    · exact hs
    · split
      · split
        · exact hs.same.setResult
        · exact hs.same
      · exact hs.putColumn.setLaunch.grantColumns

theorem Keeps.columnEnd {id status : Nat} (hs : Keeps False s₀ s) : Keeps False s₀ (s.columnEnd id status) := by
  unfold State.columnEnd
  dsimp only
  split
  · exact hs
  · split
    · exact Keeps.ite (Keeps.ite hs.same.columnDone hs.same.feltReq) hs
    · exact hs

theorem Keeps.columnEnds (hs : Keeps False s₀ s) : Keeps False s₀ s.columnEnds :=
  hs.foldl fun hs1 => hs1.columnEnd

/-! ### Stops -/

theorem Keeps.dropLaneWaits {vat : Nat} {slots : List Nat} (hs : Keeps False s₀ s) : Keeps False s₀ (s.dropLaneWaits vat slots) :=
  hs.same

theorem Keeps.removeBlock {vat b : Nat} (hs : Keeps False s₀ s) : Keeps False s₀ (s.removeBlock vat b) :=
  hs.dropLaneWaits.setVat.returnLent

theorem Keeps.dropPreempt {vat : Nat} (hs : Keeps False s₀ s) : Keeps False s₀ (s.dropPreempt vat) :=
  hs.setVat

theorem Keeps.settlePreempt {vat : Nat} (hs : Keeps False s₀ s) : Keeps False s₀ (s.settlePreempt vat) :=
  hs.dropPreempt.foldl fun hs1 => hs1.count

theorem Keeps.tellMembers {c : StopCause} (hs : Keeps False s₀ s) : Keeps False s₀ (s.tellMembers c) :=
  hs.foldl fun hs1 => hs1.feltReq

theorem Keeps.stopCmds {c : StopCause} {f : Cmd → Bool} (hs : Keeps False s₀ s) : Keeps False s₀ (s.stopCmds c f) := by
  unfold State.stopCmds
  split
  · exact hs
  · exact hs
  · exact hs.foldl fun hs1 => hs1.finishCmd

theorem Keeps.discardWork {c : StopCause} {x2 : EngineUnit} (hs : Keeps False s₀ s) : Keeps False s₀ (s.discardWork c x2) := by
  unfold State.discardWork
  dsimp only
  split
  · refine Keeps.dropPreempt ?_
    refine hs.foldl fun hs1 => ?_
    split
    · exact Keeps.ite hs1.removeBlock hs1
    · exact hs1
  · exact hs.same.wr.wr.showPass.stopCmds
  · exact hs.same.stopCmds
  · exact hs.same.stopCmds
  · exact hs.stopCmds
  · exact hs

theorem Keeps.dropLaunches {c : StopCause} (hs : Keeps False s₀ s) : Keeps False s₀ (s.dropLaunches c) :=
  hs.same

theorem Keeps.emptyPreloads {c : StopCause} (hs : Keeps False s₀ s) : Keeps False s₀ (s.emptyPreloads c) :=
  hs.same

theorem Keeps.abortWaiting {c : StopCause} (hs : Keeps False s₀ s) : Keeps False s₀ (s.abortWaiting c) :=
  hs.same.setWaits.foldl fun hs1 => hs1.finishCmd

theorem Keeps.flushQueue {c : StopCause} (hs : Keeps False s₀ s) : Keeps False s₀ (s.flushQueue c) :=
  hs.foldl fun hs1 => hs1.finishCmd

theorem Keeps.dropStops {f : Stop → Bool} (hs : Keeps False s₀ s) : Keeps False s₀ (s.dropStops f) :=
  hs.same

theorem Keeps.abortFences {p q : Nat} (hs : Keeps False s₀ s) : Keeps False s₀ (s.abortFences p q) :=
  hs.foldl fun hs1 => hs1.terminate

theorem Keeps.finishQueue {p q : Nat} {c : StopCause} {record : Bool} (hs : Keeps False s₀ s) :
    Keeps False s₀ (s.finishQueue p q c record) :=
  Keeps.ite hs.same.flushQueue.dropLaunches.abortFences.wr.passRecords.raisePart
    hs.same.flushQueue.dropLaunches.abortFences.wr.passRecords

theorem Keeps.takeRecords {obj : Nat} {parts : List Nat} (hs : Keeps False s₀ s) : Keeps False s₀ (s.takeRecords obj parts) :=
  hs.foldl fun hs1 => Keeps.ite hs1.same hs1.takeRecord

theorem Keeps.serveWaits (hs : Keeps False s₀ s) : Keeps False s₀ s.serveWaits :=
  (hs.same.foldl fun hs1 => hs1.takeRecord).passRecords

theorem Keeps.freeLocks {p : Nat} (hs : Keeps False s₀ s) : Keeps False s₀ (s.freeLocks p) :=
  hs.same.foldl fun hs1 => hs1.wr

theorem Keeps.emptySlots {p : Nat} (hs : Keeps False s₀ s) : Keeps False s₀ (s.emptySlots p) :=
  hs.same

theorem Keeps.reclaimObjs {p : Nat} (hs : Keeps False s₀ s) : Keeps False s₀ (s.reclaimObjs p) := by
  unfold State.reclaimObjs
  extract_lets s' s1 s2 s3 s4
  have h1 : Keeps False s₀ s1 := Keeps.foldl hs.freeLocks fun h => h.destroyObj.freeSync
  have h2 : Keeps False s₀ s2 := Keeps.foldl h1 fun h => h.destroyObj.takeRecords
  have h3 : Keeps False s₀ s3 := Keeps.foldl h2 fun h => h.dropRecord
  have h4 : Keeps False s₀ s4 := Keeps.foldl h3 fun h => .ite (.ite h.wr (.ite h.wr.releaseMem h.wr.wr)) h
  exact h4.serveWaits

theorem Keeps.reclaimEvents {p : Nat} (hs : Keeps False s₀ s) : Keeps False s₀ (s.reclaimEvents p) :=
  Keeps.ite hs.same hs

theorem Keeps.dropMigrations {p : Nat} (hs : Keeps False s₀ s) : Keeps False s₀ (s.dropMigrations p) :=
  (hs.foldl fun hs1 => hs1.wr).same

theorem Keeps.dropTranslations {p : Nat} (hs : Keeps False s₀ s) : Keeps False s₀ (s.dropTranslations p) :=
  hs.wr.dropMigrations.same

theorem Keeps.reclaimRecord {p : Nat} (hs : Keeps False s₀ s) : Keeps False s₀ (s.reclaimRecord p) :=
  Keeps.ite (Keeps.ite hs.wr.setFunc hs.wr).raise hs.raise

theorem Keeps.finishReclaim {p : Nat} (hs : Keeps False s₀ s) : Keeps False s₀ (s.finishReclaim p) := by
  unfold State.finishReclaim
  extract_lets c s1 s2 _ _ s3 s4 s5
  have h1 : Keeps False s₀ s1 := Keeps.foldl hs fun h => h.finishQueue
  have h2 : Keeps False s₀ s2 := h1.dropLaunches.dropTranslations.reclaimObjs.emptySlots
  have h3 : Keeps False s₀ s3 := h2.same
  have h5 : Keeps False s₀ s5 := h3.reclaimEvents.wr.wr.wr.wr
  exact h5.reclaimRecord

theorem Keeps.abandon {p : Nat} (hs : Keeps False s₀ s) : Keeps False s₀ (s.abandon p) :=
  (hs.foldl fun hs1 => hs1.terminate).setWaits

theorem Keeps.startReclaim {p : Nat} (hs : Keeps False s₀ s) : Keeps False s₀ (s.startReclaim p) := by
  unfold State.startReclaim
  extract_lets c s1 s2 s3 s4 ws
  have h2 : Keeps False s₀ s2 := hs.wr.emptyPreloads.wr.wr.abandon
  have h3 : Keeps False s₀ s3 := Keeps.foldl h2 fun h => h.wr.wr
  have h4 : Keeps False s₀ s4 := h3.dropStops.abortWaiting
  refine .ite hs ?_
  exact .ite h4.finishReclaim (Keeps.same h4.tellMembers.takeId)

theorem Keeps.finishFault {p : Nat} (hs : Keeps False s₀ s) : Keeps False s₀ (s.finishFault p) :=
  Keeps.ite hs.dropLaunches (Keeps.ite hs.dropLaunches.wr.startReclaim hs.dropLaunches.wr)

theorem Keeps.tearDownHome {p : Nat} {e : Ev} (hs : Keeps False s₀ s) : Keeps False s₀ (s.tearDownHome p e) := by
  unfold State.tearDownHome
  extract_lets c s1 _ _ s2 s3 s4 ws
  have h1 : Keeps False s₀ s1 := hs.wr.wr.raisePart
  have h2 : Keeps False s₀ s2 := Keeps.same h1.emptyPreloads
  have h3 : Keeps False s₀ s3 := h2.same
  have h4 : Keeps False s₀ s4 := h3.dropMigrations
  exact .ite hs (.ite hs.count (.ite h4.finishFault (Keeps.same h4.tellMembers.takeId)))

theorem Keeps.tearDown {p source status vat queue p0 p1 : Nat} (hs : Keeps False s₀ s) :
    Keeps False s₀ (s.tearDown p source status vat queue p0 p1) := by
  unfold State.tearDown
  dsimp only
  split
  · exact Keeps.ite hs.tearDownHome hs.feltReq
  · exact hs.tearDownHome

theorem Keeps.failTile {p vat tag : Nat} {x4 : Fail} (hs : Keeps False s₀ s) : Keeps False s₀ (s.failTile p vat tag x4) := by
  unfold State.failTile
  split
  · exact hs
  · exact hs.tearDown

theorem Keeps.finishStop {c : StopCause} (hs : Keeps False s₀ s) : Keeps False s₀ (s.finishStop c) := by
  unfold State.finishStop
  dsimp only
  split
  · exact hs.finishQueue
  · exact hs.finishReclaim
  · exact hs.finishFault
  · exact Keeps.ite (Keeps.ite hs.endLead hs).setFunc.wr.raisePart (Keeps.ite hs.endLead hs).setFunc.wr.raise

theorem Keeps.destroyQueue {p q : Nat} (hs : Keeps False s₀ s) : Keeps False s₀ (s.destroyQueue p q) := by
  unfold State.destroyQueue
  dsimp only
  exact Keeps.ite hs.wr.wr.emptyPreloads.abortWaiting.finishQueue hs.wr.wr.emptyPreloads.abortWaiting.takeId.same

/-! ### Claims -/

theorem Keeps.claimAnswer {who : Requester} {st : Nat} (hs : Keeps False s₀ s) : Keeps False s₀ (s.claimAnswer who st) := by
  unfold State.claimAnswer
  split
  · exact hs.wr
  · exact hs

theorem Keeps.claimReq {who : Requester} {f r : Nat} (hs : Keeps False s₀ s) : Keeps False s₀ (s.claimReq who f r) :=
  Keeps.ite hs.claimAnswer.same hs.claimAnswer

theorem Keeps.unclaim {r : Nat} (hs : Keeps False s₀ s) : Keeps False s₀ (s.unclaim r) :=
  Keeps.ite hs.same.wr.wr (Keeps.ite hs.same.wr hs.same)

theorem Keeps.stopFeature {f : Nat} (hs : Keeps False s₀ s) : Keeps False s₀ (s.stopFeature f) :=
  Keeps.ite hs.sameUnits hs

theorem Keeps.releaseReq {who : Requester} {f r : Nat} (hs : Keeps False s₀ s) : Keeps False s₀ (s.releaseReq who f r) :=
  Keeps.ite (hs.claimAnswer.foldl fun hs1 => hs1.unclaim).stopFeature hs.claimAnswer

theorem Keeps.claimAsk {who : Requester} {op f r : Nat} {act : State → State}
    (hs : Keeps False s₀ s) (hk : ∀ {s}, Keeps False s₀ s → Keeps False s₀ (act s)) :
    Keeps False s₀ (s.claimAsk who op f r act) := by
  unfold State.claimAsk
  split
  · exact Keeps.ite (hk hs) hs
  · exact Keeps.ite (hk hs.wr.wr.wr) hs

/-! ### Operands -/

theorem Keeps.put {c : BCtx} {q : Quire} (hs : Keeps False s₀ s) : Keeps False s₀ (c.put s q) :=
  hs.setQuire

theorem Keeps.rcStep {c : BCtx} (hs : Keeps False s₀ s) : Keeps False s₀ (s.rcStep c) := by
  unfold State.rcStep
  dsimp only
  split
  · exact hs
  · exact hs.setVat.count.count

/-! ### GeoPass -/

theorem Keeps.putPass {x : Pass} (hs : Keeps False s₀ s) : Keeps False s₀ (s.putPass x) :=
  hs.setPass.showPass

theorem Keeps.geoWrites {p : Nat} {ws : List (Nat × List Byte)} (hs : Keeps False s₀ s) :
    Keeps False s₀ (s.geoWrites p ws).1 := by
  unfold State.geoWrites
  split
  next e => exact hs.footprints.of_fst e
  next e =>
    refine Keeps.foldl_fst (hs.footprints.of_fst e) fun h => ?_
    split
    · exact Keeps.vWrite h
    · exact h

theorem Keeps.geoReads {p : Nat} {rs : List (Nat × Nat)} (hs : Keeps False s₀ s) : Keeps False s₀ (s.geoReads p rs).1 := by
  unfold State.geoReads
  extract_lets out
  have hout : Keeps False s₀ out.1 := by
    refine Keeps.foldl_fst hs fun h => ?_
    split
    · split
      next e => exact Keeps.of_fst (Keeps.vRead h) e
      next e => exact Keeps.of_fst (Keeps.vRead h) e
    · exact h
  clear_value out
  split
  · exact Keeps.same hout
  · exact hout

theorem Keeps.geoRefuse {p op cmd reason : Nat} (hs : Keeps False s₀ s) : Keeps False s₀ (s.geoRefuse p op cmd reason) :=
  Keeps.ite hs.setResult hs.setResult.wr.wr.wr

theorem Keeps.abortPass {x : Pass} {draw : Nat} (hs : Keeps False s₀ s) : Keeps False s₀ (s.abortPass x draw) := by
  unfold State.abortPass
  dsimp only
  refine Keeps.showPass ?_
  refine Keeps.dropPass ?_
  split
  · split
    · exact (hs.same.geoRefuse.foldl fun hs1 => hs1.setResult).setResult
    · exact hs.same.geoRefuse.foldl fun hs1 => hs1.setResult
  · refine Keeps.geoWrites ?_
    split
    · exact (hs.same.geoRefuse.foldl fun hs1 => hs1.setResult).setResult
    · exact hs.same.geoRefuse.foldl fun hs1 => hs1.setResult

theorem Keeps.startBroke {x : Pass} {want : Nat} (hs : Keeps False s₀ s) : Keeps False s₀ (s.startBroke x want) :=
  hs.putPass

theorem Keeps.fallBack {x : Pass} {want cause : Nat} (hs : Keeps False s₀ s) : Keeps False s₀ (s.fallBack x want cause) :=
  hs.wr.wr.count.wr.startBroke

theorem Keeps.overflow {x : Pass} {draw want : Nat} (hs : Keeps False s₀ s) : Keeps False s₀ (s.overflow x draw want) :=
  Keeps.ite hs.abortPass (Keeps.ite hs.count.startBroke (Keeps.ite hs.fallBack hs.wr.wr.putPass.raisePart))

theorem Keeps.binFrom {cmd fuel : Nat} (hs : Keeps False s₀ s) : Keeps False s₀ (s.binFrom cmd fuel) := by
  induction fuel generalizing s with
  | zero => exact hs
  | succ fuel ih =>
    rw [State.binFrom]
    split
    · exact hs
    · split
      · exact hs
      · split
        · exact .ite hs.putPass hs
        · split
          · exact hs
          · dsimp only
            split
            · exact hs.overflow
            · split
              next e => exact (hs.geoWrites.of_fst e).failTile
              next e =>
                have h1 := hs.geoWrites.of_fst e
                exact ih (.ite h1.putPass.setResult h1.putPass)

theorem Keeps.binPass {cmd : Nat} (hs : Keeps False s₀ s) : Keeps False s₀ (s.binPass cmd) := by
  unfold State.binPass
  split
  · exact hs.binFrom
  · exact hs

theorem Keeps.startFrags {x : Pass} {t : TileRun} {dr : Nat} {lanes : List (Prim × Nat × Nat)} {l : Launch}
    (hs : Keeps False s₀ s) :
    Keeps False s₀ (s.startFrags x t dr lanes l).1 := by
  unfold State.startFrags
  dsimp only
  exact hs.takeId.setLaunch

theorem Keeps.advanceTile {x : Pass} {fuel : Nat} {t : TileRun} (hs : Keeps False s₀ s) :
    Keeps False s₀ (s.advanceTile x fuel t).1 := by
  induction fuel generalizing s t with
  | zero => exact hs
  | succ fuel ih =>
    rw [State.advanceTile]
    split
    · exact hs
    · split
      · split
        · exact hs.startFrags
        · exact ih hs
      · split
        · exact hs
        · split
          · exact ih hs
          · dsimp only
            split
            · exact ih hs
            · split
              · exact ih hs
              · exact hs.startFrags

theorem Keeps.fragsDone {l : Launch} (hs : Keeps False s₀ s) : Keeps False s₀ (s.fragsDone l) := by
  unfold State.fragsDone
  dsimp only
  split
  · exact hs.same
  · split
    · exact hs.same
    · split
      · exact hs.same
      · exact hs.same.advanceTile.setPass

theorem Keeps.vertsDone {l : Launch} (hs : Keeps False s₀ s) : Keeps False s₀ (s.vertsDone l) := by
  unfold State.vertsDone
  dsimp only
  split
  · exact hs.same
  · exact (hs.same.setPass.foldl fun hs1 => hs1.setResult).binPass

theorem Keeps.endPass {x : Pass} (hs : Keeps False s₀ s) : Keeps False s₀ (s.endPass x) := by
  unfold State.endPass
  dsimp only
  split
  · refine Keeps.showPass ?_
    refine Keeps.dropPass ?_
    split
    · exact hs.wr.setResult
    · exact hs.wr
  · exact hs

theorem Keeps.geoStep {p : Nat} (hs : Keeps False s₀ s) : Keeps False s₀ (s.geoStep p) := by
  unfold State.geoStep
  dsimp only
  refine hs.foldl fun hs1 => ?_
  split
  · exact hs1.binPass.endPass
  · exact hs1.binPass

/-! ### Vat -/

theorem Keeps.resetPatience {vat b : Nat} (hs : Keeps False s₀ s) : Keeps False s₀ (s.resetPatience vat b) := by
  unfold State.resetPatience
  split
  · exact hs.setBlock
  · exact hs

theorem Keeps.recordFault {vat slot b part status pc lanes : Nat} (hs : Keeps False s₀ s) :
    Keeps False s₀ (s.recordFault vat slot b part status pc lanes) :=
  Keeps.ite hs.count hs.wr.wr.wr.wr.wr.wrAddr.wr

theorem Keeps.reportFault {vat slot : Nat} {q : Quire} {l : Launch} {status word lanes : Nat} (hs : Keeps False s₀ s) :
    Keeps False s₀ (s.reportFault vat slot q l status word lanes) :=
  hs.setVat.recordFault.tearDown

theorem Keeps.raiseFault {vat slot status : Nat} (hs : Keeps False s₀ s) : Keeps False s₀ (s.raiseFault vat slot status) := by
  unfold State.raiseFault
  dsimp only
  split
  · exact hs
  · split
    · exact hs
    · split
      · exact hs
      · split
        · exact Keeps.ite (Keeps.ite hs.setQuire.setBlock hs.setQuire) hs.reportFault
        · exact hs.reportFault

theorem Keeps.releaseBarrier {vat b ident : Nat} (hs : Keeps False s₀ s) : Keeps False s₀ (s.releaseBarrier vat b ident) := by
  unfold State.releaseBarrier
  dsimp only
  split
  · exact hs
  · split
    · exact hs.setVat.raiseFault
    · exact hs.setVat

theorem Keeps.evalBarriers {vat b : Nat} (hs : Keeps False s₀ s) : Keeps False s₀ (s.evalBarriers vat b) := by
  unfold State.evalBarriers
  dsimp only
  split
  · split
    · split
      · refine Keeps.raiseFault ?_
        refine hs.foldl fun hs1 => ?_
        split
        · exact Keeps.ite hs1.releaseBarrier hs1
        · exact hs1
      · refine hs.foldl fun hs1 => ?_
        split
        · exact Keeps.ite hs1.releaseBarrier hs1
        · exact hs1
    · refine hs.foldl fun hs1 => ?_
      split
      · exact Keeps.ite hs1.releaseBarrier hs1
      · exact hs1
  · refine hs.foldl fun hs1 => ?_
    split
    · exact Keeps.ite hs1.releaseBarrier hs1
    · exact hs1

theorem Keeps.releaseAll {vat b : Nat} (hs : Keeps False s₀ s) : Keeps False s₀ (s.releaseAll vat b) := by
  unfold State.releaseAll
  dsimp only
  split
  · exact (hs.foldl fun hs1 => hs1.releaseBarrier).setBlock
  · exact hs.foldl fun hs1 => hs1.releaseBarrier

theorem Keeps.launchDone {id : Nat} (hs : Keeps False s₀ s) : Keeps False s₀ (s.launchDone id) := by
  unfold State.launchDone
  split
  · exact hs
  · split
    · split
      · exact hs.same.setResult
      · exact hs.columnEnd
      · exact hs.vertsDone
      · exact hs.fragsDone
    · exact hs

theorem Keeps.retireBlock {vat b : Nat} (hs : Keeps False s₀ s) : Keeps False s₀ (s.retireBlock vat b) := by
  unfold State.retireBlock
  dsimp only
  split
  · exact hs
  · split
    · exact hs
    · split
      · split
        · exact hs.reportFault
        · exact hs
      · exact hs.setLaunch.removeBlock.settlePreempt.launchDone

theorem Keeps.settle {vat b : Nat} (hs : Keeps False s₀ s) : Keeps False s₀ (s.settle vat b) := by
  unfold State.settle
  extract_lets v v1 s1 v2 qs
  have h1 : Keeps False s₀ s1 := hs.setVat.evalBarriers
  exact .ite h1.retireBlock h1

/-! ### Preempt -/

/-- The search for a slot stands as a function of its own: opened here, the kernel would run it. -/
theorem Keeps.trySave {vat b : Nat} (hs : Keeps False s₀ s) : Keeps False s₀ (s.trySave vat b) := by
  obtain ⟨slot, hdef⟩ : ∃ f, @State.saveSlot = f := ⟨_, rfl⟩
  conv in State.trySave => delta State.trySave
  rw [hdef]
  extract_lets v
  split
  · exact hs
  · split
    · exact hs
    · refine .ite ?_ hs
      split
      · exact hs.setBlock
      · exact hs.setVat.count

theorem Keeps.preempt {vat p : Nat} (hs : Keeps False s₀ s) : Keeps False s₀ (s.preempt vat p) :=
  hs.setVat.foldl fun hs1 => hs1.trySave

end Sys2Proof.Machine
end

