-- ==== Sys2Proof/Proofs/KeepsBpc.lean ====
section
/-!
PROOF. What the BPC instructions keep (`Keeps`).
-/

namespace Sys2Proof.Machine

variable {s₀ s : State}

/-! ### Issue -/

theorem Keeps.issue {vat slot op : Nat} {k : State → BCtx → State}
    (hs : Keeps False s₀ s) (hk : ∀ {s x1}, Keeps False s₀ s → Keeps False s₀ (k s x1)) :
    Keeps False s₀ (s.issue vat slot op k) := by
  unfold State.issue
  dsimp only
  split
  · exact hs
  · split
    · exact hs
    · split
      · exact hs
      · split
        · exact hs
        · refine Keeps.trySave ?_
          split
          · exact hs.count.setQuire
          · split
            · exact hs.count.raiseFault
            · split
              · exact hs.count.raiseFault
              · exact hk hs.count.rcStep

theorem Keeps.done {c : BCtx} {q : Quire} (hs : Keeps False s₀ s) : Keeps False s₀ (c.done s q) :=
  hs.put

theorem Keeps.perLane {vat slot op : Nat} {f : BCtx → Nat → Nat} (hs : Keeps False s₀ s) :
    Keeps False s₀ (s.perLane vat slot op f) :=
  hs.issue (fun hs1 => hs1.done)

/-! ### BpcMem -/

theorem Keeps.waitOn {vat slot : Nat} (hs : Keeps False s₀ s) : Keeps False s₀ (s.waitOn vat slot) := by
  unfold State.waitOn
  dsimp only
  split
  · exact hs
  · exact Keeps.ite hs (Keeps.ite hs.setQuire (Keeps.ite hs.setQuire hs))

theorem Keeps.uncount {t : State} {vat : Nat} (ht : Keeps False s₀ t) : Keeps False s₀ (t.uncount s vat) :=
  (ht.foldl fun h => h.wr).setVat

theorem Keeps.issueMem {vat slot op : Nat} {k : State → BCtx → State × Bool}
    (hs : Keeps False s₀ s) (hk : ∀ {s x1}, Keeps False s₀ s → Keeps False s₀ (k s x1).1) :
    Keeps False s₀ (s.issueMem vat slot op k) := by
  unfold State.issueMem
  refine hs.issue (fun hs1 => ?_)
  split
  next e => exact (hk hs1).of_fst e
  next e => exact ((hk hs1).of_fst e).uncount.waitOn

theorem Keeps.dropFetched {who : Owner} (hs : Keeps False s₀ s) : Keeps False s₀ (s.dropFetched who) :=
  hs.same

theorem Keeps.fail {c : BCtx} {x2 : Fail} (hs : Keeps False s₀ s) : Keeps False s₀ (c.fail s x2).1 := by
  unfold BCtx.fail
  dsimp only
  split
  · exact hs
  · exact hs.put.failTile

theorem Keeps.dropL1 {vat : Nat} (hs : Keeps False s₀ s) : Keeps False s₀ (s.dropL1 vat) :=
  hs.setVat

theorem Keeps.l1Put {vat pa : Nat} {bs : List Byte} (hs : Keeps False s₀ s) : Keeps False s₀ (s.l1Put vat pa bs) :=
  hs.setVat

theorem Keeps.l1Fill {vat pa : Nat} (hs : Keeps False s₀ s) : Keeps False s₀ (s.l1Fill vat pa) :=
  hs.foldl fun hs1 => Keeps.ite hs1.l1Put hs1

theorem Keeps.l1Update {vat pa : Nat} {bs : List Byte} (hs : Keeps False s₀ s) : Keeps False s₀ (s.l1Update vat pa bs) := by
  unfold State.l1Update
  dsimp only
  split
  · exact hs
  · exact hs.setVat

theorem Keeps.cachedRead {vat p : Nat} {x : Xlat} {cache pa n : Nat} (hs : Keeps False s₀ s) :
    Keeps False s₀ (s.cachedRead vat p x cache pa n).1 := by
  unfold State.cachedRead
  extract_lets below
  have hbelow {t : State} (ht : Keeps False s₀ t) : Keeps False s₀ (below t).1 := by
    unfold below
    split
    next e => exact ht.l2Read.of_fst e
    next e => exact .ite (ht.l2Read.of_fst e).l1Fill (ht.l2Read.of_fst e).l1Update
  split
  · exact hbelow hs
  · split
    · exact hbelow hs
    · split
      · exact hs
      · dsimp only
        split
        · exact hs.takeFree
        · exact hbelow hs.takeFree

theorem Keeps.readPage' {c : BCtx} {x : Xlat} {cache va n : Nat} (hs : Keeps False s₀ s) :
    Keeps False s₀ (c.readPage s x cache va n).1 := by
  unfold BCtx.readPage
  dsimp only
  split
  · split
    · exact hs
    · split
      · exact hs.readHost
      · exact hs
  · split
    · split
      next e1 => exact hs.cachedRead.of_fst e1
      next e1 => exact hs.cachedRead.of_fst e1
    · split
      · exact hs
      · split
        · exact hs.readRemote
        · exact hs

theorem Keeps.runLanes {f : State → LaneAcc → State × Except Fail Nat} {l : List LaneAcc} (hs : Keeps False s₀ s)
    (hk : ∀ {s x1}, Keeps False s₀ s → Keeps False s₀ (f s x1).1) : Keeps False s₀ (runLanes f s l).1 := by
  refine Keeps.foldl_fst hs fun h => ?_
  split
  · exact h
  · split
    next e => exact (hk h).of_fst e
    next e => exact (hk h).of_fst e

theorem Keeps.globally {c : BCtx} {rights : Nat} {l : List LaneAcc} {f : State → Xlat → LaneAcc → State × Except Fail Nat}
    (hs : Keeps False s₀ s) (hk : ∀ {s x1 x2}, Keeps False s₀ s → Keeps False s₀ (f s x1 x2).1) :
    Keeps False s₀ (c.globally s rights l f).1 := by
  unfold BCtx.globally
  extract_lets asker
  split
  next e => exact hs.footprints.of_fst e
  next e =>
    have hlanes := (hs.footprints.of_fst e).runLanes (l := l) (f := fun s a =>
        match s.translate asker c.owner c.l.p a.va rights with
        | (s2, .error e) => (s2, .error e)
        | (s2, .ok x) => f s2 x a) fun h => by
      split
      next e => exact h.translate.of_fst e
      next e => exact hk (h.translate.of_fst e)
    split
    next e1 => exact (hlanes.of_fst e1).dropFetched
    next e1 => exact hlanes.of_fst e1

theorem Keeps.readLanes {c : BCtx} {cache : Nat} {l : List LaneAcc} (hs : Keeps False s₀ s) :
    Keeps False s₀ (c.readLanes s cache l).1 := by
  unfold BCtx.readLanes
  refine hs.globally (fun hs1 => ?_)
  split
  next e => exact hs1.readPage'.of_fst e
  next e => exact hs1.readPage'.of_fst e

theorem Keeps.storeOne {c : BCtx} {x : Xlat} {va : Nat} {bs : List Byte} (hs : Keeps False s₀ s) :
    Keeps False s₀ (c.storeOne s x va bs).1 := by
  unfold BCtx.storeOne
  dsimp only
  split
  next e => exact hs.writePage.of_fst e
  next e => exact Keeps.ite (hs.writePage.of_fst e).l1Update (hs.writePage.of_fst e)

theorem Keeps.loaded {c : BCtx} {n : Nat} {vals : List (Nat × Nat)} (hs : Keeps False s₀ s) : Keeps False s₀ (c.loaded s n vals) :=
  hs.done

theorem Keeps.load {c : BCtx} (hs : Keeps False s₀ s) : Keeps False s₀ (c.load s).1 := by
  unfold BCtx.load
  extract_lets n s1 r
  split
  · exact hs.raiseFault
  · split
    · exact hs.loaded
    · have hr : Keeps False s₀ r.1 := by
        have h1 : Keeps False s₀ s1 := .ite hs.dropL1 hs
        unfold r
        split
        · exact h1.readLanes
        · exact h1.readLanes
      clear_value r
      split
      · exact Keeps.loaded hr
      · exact Keeps.fail hr

theorem Keeps.store {c : BCtx} (hs : Keeps False s₀ s) : Keeps False s₀ (c.store s).1 := by
  unfold BCtx.store
  dsimp only
  split
  · exact hs.raiseFault
  · split
    · exact hs.setBlock.done
    · split
      next e1 => exact ((hs.globally (fun hs1 => hs1.storeOne)).of_fst e1).done
      next e1 => exact ((hs.globally (fun hs1 => hs1.storeOne)).of_fst e1).fail

theorem Keeps.morder {c : BCtx} (hs : Keeps False s₀ s) : Keeps False s₀ (c.morder s).1 := by
  unfold BCtx.morder
  dsimp only
  split
  · exact hs.put
  · split
    · exact hs
    · exact (Keeps.ite hs.dropL1 hs).done

theorem Keeps.prefetchOne {c : BCtx} {lane : Nat} (hs : Keeps False s₀ s) : Keeps False s₀ (c.prefetchOne s lane) := by
  unfold BCtx.prefetchOne
  dsimp only
  split
  · exact hs
  · split
    next e => exact Keeps.ite hs (Keeps.ite (hs.walk.of_fst e).l2ReadSectors.l1Fill (hs.walk.of_fst e).l2ReadSectors)
    · exact hs

theorem Keeps.sendAtom {c : BCtx} {lane a va : Nat} (hs : Keeps False s₀ s) : Keeps False s₀ (c.sendAtom s lane a va) :=
  Keeps.ite hs hs.same.feltSend

theorem Keeps.atomAsk {c : BCtx} {x : Xlat} {acc : LaneAcc} (hs : Keeps False s₀ s) : Keeps False s₀ (c.atomAsk s x acc).1 := by
  unfold BCtx.atomAsk
  dsimp only
  split
  · split
    · exact hs
    · split
      · exact hs.readHost
      · exact hs
  · split
    · exact hs
    · split
      · exact hs
      · split
        · exact hs.sendAtom
        · exact hs

theorem Keeps.atomOne {c : BCtx} {x : Xlat} {acc : LaneAcc} (hs : Keeps False s₀ s) : Keeps False s₀ (c.atomOne s x acc).1 := by
  unfold BCtx.atomOne
  dsimp only
  split
  · exact hs.hostWrite.same
  · split
    · split
      next e1 => exact (hs.l2Atomic.of_fst e1).l1Update
      next e1 => exact hs.l2Atomic.of_fst e1
    · split
      · exact hs
      · exact hs

theorem Keeps.atomDone {c : BCtx} {vals : List (Nat × Nat)} (hs : Keeps False s₀ s) : Keeps False s₀ (c.atomDone s vals) :=
  hs.done

theorem Keeps.atomLocal {c : BCtx} {n : Nat} (hs : Keeps False s₀ s) : Keeps False s₀ (c.atomLocal s n) :=
  hs.setBlock.atomDone

theorem Keeps.atomic {c : BCtx} (hs : Keeps False s₀ s) : Keeps False s₀ (c.atomic s).1 := by
  unfold BCtx.atomic
  extract_lets n scope s1 asker rw
  split
  · exact hs.raiseFault
  · split
    · exact hs.atomLocal
    · split
      · exact hs
      · have h1 : Keeps False s₀ s1 := .ite hs.dropL1 hs
        split
        next e => exact (h1.footprints.of_fst e).fail
        next e =>
          have h2 := (h1.footprints.of_fst e).runLanes (l := c.accs n) (f := fun s a =>
              match s.translate asker c.owner c.l.p a.va rw with
              | (s2, .error e) => (s2, .error e)
              | (s2, .ok x) => c.atomAsk s2 x a) fun h => by
            split
            next e => exact h.translate.of_fst e
            next e => exact (h.translate.of_fst e).atomAsk
          split
          next e1 => exact (h2.of_fst e1).fail
          next e1 =>
            have h3 := (h2.of_fst e1).globally (c := c) (rights := rw) (l := c.accs n)
              (f := fun s x a => c.atomOne s x a) fun h => h.atomOne
            split
            next e2 => exact (h3.of_fst e2).atomDone
            next e2 => exact (h3.of_fst e2).fail

/-! ### BpcSync -/

theorem Keeps.synServe {r : SynReq} {who : Waiter} (hs : Keeps False s₀ s) : Keeps False s₀ (s.synServe r who).1 := by
  unfold State.synServe
  dsimp only
  split
  · exact hs
  · split
    · exact hs.signal
    · split
      · exact hs.counterAdd
      · split
        · split
          · exact hs
          · exact hs.addWait
        · split
          · exact hs
          · split
            · split
              next e1 => exact hs.lockTry.of_fst e1
              next e1 => exact (hs.lockTry.of_fst e1).same
            · split
              · exact Keeps.ite hs.lockFree hs
              · split
                next e => exact hs.arrive.of_fst e
                next e => exact hs.arrive.of_fst e

theorem Keeps.synWrite {c : BCtx} {lane status data : Nat} (hs : Keeps False s₀ s) :
    Keeps False s₀ (s.synWrite c lane status data) := by
  unfold State.synWrite
  dsimp only
  split
  · exact Keeps.ite hs hs.setQuire
  · exact hs

theorem Keeps.synStart {c : BCtx} (hs : Keeps False s₀ s) : Keeps False s₀ (c.synStart s) :=
  hs.put

theorem Keeps.noteLockWait {vat slot : Nat} (hs : Keeps False s₀ s) : Keeps False s₀ (s.noteLockWait vat slot) := by
  unfold State.noteLockWait
  split
  · split
    · split
      · exact hs.setBlock
      · exact hs
    · exact hs
  · exact hs

theorem Keeps.synLane {c : BCtx} {lane : Nat} (hs : Keeps False s₀ s) : Keeps False s₀ (c.synLane s lane) := by
  unfold BCtx.synLane
  split
  next e =>
    exact Keeps.ite (hs.synServe.of_fst e).lockLane (Keeps.ite (hs.synServe.of_fst e).dropL1
      (hs.synServe.of_fst e)).synWrite
  next e => exact hs.synServe.of_fst e

theorem Keeps.synHere {c : BCtx} (hs : Keeps False s₀ s) : Keeps False s₀ (c.synHere s) :=
  Keeps.ite hs.raiseFault (Keeps.ite ((Keeps.ite hs.resetPatience hs).synStart.foldl fun hs1 =>
    hs1.synLane).noteLockWait ((Keeps.ite hs.resetPatience hs).synStart.foldl fun hs1 => hs1.synLane).quireResume)

theorem Keeps.synSend {c : BCtx} {lane : Nat} (hs : Keeps False s₀ s) : Keeps False s₀ (c.synSend s lane) :=
  Keeps.ite hs hs.same.feltSend

theorem Keeps.synRemoteWait {c : BCtx} {lane : Nat} (hs : Keeps False s₀ s) : Keeps False s₀ (c.synRemoteWait s lane) := by
  unfold BCtx.synRemoteWait
  dsimp only
  exact Keeps.ite hs hs.takeId.setWaits

theorem Keeps.synAway {c : BCtx} (hs : Keeps False s₀ s) : Keeps False s₀ (c.synAway s).1 := by
  unfold BCtx.synAway
  dsimp only
  split
  · exact hs.raiseFault
  · split
    · exact hs.fail
    · split
      · exact Keeps.ite (hs.synStart.foldl fun hs1 => hs1.synSend.synRemoteWait).noteLockWait
          (hs.synStart.foldl fun hs1 => hs1.synSend.synRemoteWait)
      · split
        · exact hs.foldl fun hs1 => Keeps.ite hs1 hs1.synSend
        · split
          · exact hs.dropFetched.raiseFault
          · refine (Keeps.ite hs.dropFetched.resetPatience hs.dropFetched).put.foldl fun hs1 => ?_
            split
            · exact hs1.synWrite
            · exact hs1

theorem Keeps.syn {c : BCtx} (hs : Keeps False s₀ s) : Keeps False s₀ (c.syn s).1 := by
  unfold BCtx.syn
  split
  · exact hs
  · split
    · exact hs.synHere
    · exact hs.synAway

theorem Keeps.synEvent {c : BCtx} (hs : Keeps False s₀ s) : Keeps False s₀ (c.synEvent s).1 := by
  unfold BCtx.synEvent
  dsimp only
  split
  · exact hs
  · exact (hs.foldl fun hs1 => hs1.raisePart).done

/-! ### BpcConvert -/

theorem Keeps.vote {c : BCtx} {r : Bool} (hs : Keeps False s₀ s) : Keeps False s₀ (c.vote s r) :=
  hs.done

/-! ### BpcTensor -/

theorem Keeps.refuse {c : BCtx} {reason : Nat} (hs : Keeps False s₀ s) : Keeps False s₀ (c.refuse s reason).1 :=
  (Keeps.ite hs hs.wr.wr.wr.wr).raiseFault

theorem Keeps.descriptor {c : BCtx} {va : Nat} (hs : Keeps False s₀ s) : Keeps False s₀ (c.descriptor s va).1 :=
  hs.vRead

theorem Keeps.enter {c : BCtx} {q : Quire} {o : BeatOp} (hs : Keeps False s₀ s) : Keeps False s₀ (c.enter s q o) :=
  hs.put.setVat

theorem Keeps.tldIssue {c : BCtx} (hs : Keeps False s₀ s) : Keeps False s₀ (c.tldIssue s).1 := by
  unfold BCtx.tldIssue
  extract_lets
  split
  · exact hs.raiseFault
  · split
    · exact hs.raiseFault
    · split
      next e => exact (hs.descriptor.of_fst e).fail
      next e =>
        split
        · split
          · exact (hs.descriptor.of_fst e).refuse
          · split
            · exact (hs.descriptor.of_fst e).raiseFault
            · exact (hs.descriptor.of_fst e).enter

theorem Keeps.grantHead {vat : Nat} (hs : Keeps False s₀ s) : Keeps False s₀ (s.grantHead vat) := by
  unfold State.grantHead
  dsimp only
  split
  · exact hs
  · split
    · exact hs
    · split
      · exact hs.setVat
      · split
        · exact hs.setVat
        · split
          · exact hs.setVat
          · exact hs.setVat.setQuire

theorem Keeps.tmmaIssue {c : BCtx} (hs : Keeps False s₀ s) : Keeps False s₀ (c.tmmaIssue s).1 := by
  unfold BCtx.tmmaIssue
  dsimp only
  split
  · exact hs.raiseFault
  · split
    · split
      · exact hs.refuse
      · split
        · exact hs.enter
        · exact Keeps.ite hs.put.setVat.grantHead hs.put.setVat
    · exact hs.refuse

theorem Keeps.tstIssue {c : BCtx} (hs : Keeps False s₀ s) : Keeps False s₀ (c.tstIssue s).1 := by
  obtain ⟨read, hdef, hread⟩ : ∃ f, @BCtx.descriptor = f ∧ ∀ {c s va}, Keeps False s₀ s → Keeps False s₀ (f c s va).1 :=
    ⟨_, rfl, Keeps.descriptor⟩
  conv in BCtx.tstIssue => delta BCtx.tstIssue
  rw [hdef]
  extract_lets h
  split
  · exact hs.raiseFault
  · split
    · split
      · exact hs.raiseFault
      · split
        next e => exact ((hread hs).of_fst e).fail
        next e =>
          have h1 := (hread hs).of_fst e
          dsimp only
          split
          · exact h1.refuse
          · split
            · exact h1.raiseFault
            · exact h1.enter
    · exact hs.refuse

theorem Keeps.tcvtIssue {c : BCtx} (hs : Keeps False s₀ s) : Keeps False s₀ (c.tcvtIssue s).1 := by
  unfold BCtx.tcvtIssue
  dsimp only
  split
  · exact hs.raiseFault
  · split
    · exact hs.refuse
    · split
      · exact hs.refuse
      · exact hs.enter

theorem Keeps.wakeOrder {vat : Nat} (hs : Keeps False s₀ s) : Keeps False s₀ (s.wakeOrder vat) :=
  hs.setVat

theorem Keeps.beatPop {vat slot : Nat} (hs : Keeps False s₀ s) : Keeps False s₀ (s.beatPop vat slot) := by
  unfold State.beatPop
  dsimp only
  split
  · exact hs.setVat.wakeOrder.settle.trySave
  · exact hs.setVat.wakeOrder

theorem Keeps.tcvtRun {vat slot : Nat} {src dst : Handle} {ovf : Bool} (hs : Keeps False s₀ s) :
    Keeps False s₀ (s.tcvtRun vat slot src dst ovf) := by
  unfold State.tcvtRun
  dsimp only
  split
  · exact hs.setBlock.beatPop
  · exact hs.beatPop

theorem Keeps.beatDrain {vat fuel : Nat} (hs : Keeps False s₀ s) : Keeps False s₀ (s.beatDrain vat fuel) := by
  induction fuel generalizing s with
  | zero => exact hs
  | succ fuel ih =>
    rw [State.beatDrain]
    split
    · exact ih hs.tcvtRun
    · exact hs

theorem Keeps.beatNext {vat : Nat} (hs : Keeps False s₀ s) : Keeps False s₀ (s.beatNext vat) :=
  hs.beatDrain

theorem Keeps.refund {t : State} (ht : Keeps False s₀ t) : Keeps False s₀ (t.refund s) := ht.same

theorem Keeps.beatFail {t : State} {vat slot : Nat} {l : Launch} {f : Fail} (ht : Keeps False s₀ t) :
    Keeps False s₀ (t.beatFail s vat slot l f) := by
  unfold State.beatFail
  split
  · exact ht.refund
  · exact ht.failTile.beatPop

theorem Keeps.vReadList {asker : Asker} {who : Owner} {p : Nat} {ranges : List (Nat × Nat)} (hs : Keeps False s₀ s) :
    Keeps False s₀ (s.vReadList asker who p ranges).1 := by
  induction ranges generalizing s with
  | nil => exact hs
  | cons r ranges ih =>
    rw [State.vReadList]
    split
    next e => exact hs.vRead.of_fst e
    next e =>
      have h1 := hs.vRead.of_fst e
      split
      next e1 => exact (ih h1).of_fst e1
      next e1 => exact (ih h1).of_fst e1

theorem Keeps.vWriteList {asker : Asker} {who : Owner} {p : Nat} {writes : List (Nat × List Byte)} (hs : Keeps False s₀ s) :
    Keeps False s₀ (s.vWriteList asker who p writes).1 := by
  induction writes generalizing s with
  | nil => exact hs
  | cons w writes ih =>
    rw [State.vWriteList]
    split
    next e => exact hs.vWrite.of_fst e
    next e => exact ih (hs.vWrite.of_fst e)

theorem Keeps.tldRun {vat slot : Nat} {d : List Byte} {row col : Nat} (hs : Keeps False s₀ s) :
    Keeps False s₀ (s.tldRun vat slot d row col) := by
  unfold State.tldRun
  dsimp only
  split
  · exact hs.beatPop
  · split
    next e1 => exact (hs.footprints.of_fst e1).beatFail
    next e1 =>
      split
      next e2 => exact ((hs.footprints.of_fst e1).vReadList.of_fst e2).beatFail
      next e2 => exact ((hs.footprints.of_fst e1).vReadList.of_fst e2).setBlock.beatPop

theorem Keeps.useBeater {p clocks : Nat} (hs : Keeps False s₀ s) : Keeps False s₀ (s.useBeater p clocks) :=
  Keeps.ite hs.wr hs

theorem Keeps.tmmaRun {vat slot set : Nat} {a b : Handle} {clear : Bool} {pass : Nat} (hs : Keeps False s₀ s) :
    Keeps False s₀ (s.tmmaRun vat slot set a b clear pass) := by
  unfold State.tmmaRun
  dsimp only
  split
  · exact Keeps.ite hs.setVat.count.useBeater.beatPop hs.setVat.count.useBeater.setVat
  · exact hs.beatPop

theorem Keeps.tstRun {vat slot set : Nat} {d : List Byte} {row col : Nat} {rel : Bool} (hs : Keeps False s₀ s) :
    Keeps False s₀ (s.tstRun vat slot set d row col rel) := by
  unfold State.tstRun
  dsimp only
  split
  · exact hs.beatPop
  · split
    · split
      next e2 => exact (hs.footprints.of_fst e2).beatFail
      next e2 =>
        split
        next e3 => exact ((hs.footprints.of_fst e2).vWriteList.of_fst e3).beatFail
        next e3 => exact ((hs.footprints.of_fst e2).vWriteList.of_fst e3).setVat.beatPop
    · split
      next e1 => exact (hs.footprints.of_fst e1).beatFail
      next e1 =>
        split
        next e2 => exact ((hs.footprints.of_fst e1).vReadList.of_fst e2).beatFail
        next e2 =>
          split
          next e3 => exact (((hs.footprints.of_fst e1).vReadList.of_fst e2).vWriteList.of_fst e3).beatFail
          next e3 => exact (((hs.footprints.of_fst e1).vReadList.of_fst e2).vWriteList.of_fst e3).setVat.beatPop

end Sys2Proof.Machine
end

