-- ==== Sys2Proof/Proofs/KeepsHeadbox.lean ====
section
/-!
PROOF. What the headbox, the codecs and their stops keep (`Keeps`).
-/

namespace Sys2Proof.Machine

variable {s₀ s : State}

/-! ### Launches -/

theorem Keeps.readLaunch {p : Nat} {who : Owner} {addr id : Nat} {use : LaunchUse} (hs : Keeps False s₀ s) :
    Keeps False s₀ (s.readLaunch p who addr id use).1 := by
  obtain ⟨read, hdef, hread⟩ : ∃ f, @State.vRead = f ∧ ∀ {s a who p va n}, Keeps False s₀ s →
      Keeps False s₀ (f s a who p va n).1 := ⟨_, rfl, Keeps.vRead⟩
  conv in State.readLaunch => delta State.readLaunch
  rw [hdef]
  split
  next e => exact (hread hs).of_fst e
  next e =>
    have h1 := (hread hs).of_fst e
    split
    · exact h1
    · split
      next e1 => exact (hread h1).of_fst e1
      next e1 =>
        have h2 := (hread h1).of_fst e1
        extract_lets m
        split
        · exact h2
        · exact h2
        · extract_lets
          split
          · exact h2
          · split
            · exact h2
            · exact h2

theorem Keeps.attachTile {l : Launch} {vat : Nat} (hs : Keeps False s₀ s) : Keeps False s₀ (s.attachTile l vat) := by
  unfold State.attachTile
  split
  · exact hs.setPass
  · exact hs

theorem Keeps.clearPreloads {id : Nat} (hs : Keeps False s₀ s) : Keeps False s₀ (s.clearPreloads id) :=
  hs.same

theorem Keeps.placeBlock {l : Launch} {id vat : Nat} {scheds : List Nat} (hs : Keeps False s₀ s) :
    Keeps False s₀ (s.placeBlock l id vat scheds) := by
  unfold State.placeBlock
  dsimp only
  exact Keeps.ite hs.wakeNow.takeFree.setVat.setLaunch.clearPreloads hs.wakeNow.takeFree.setVat.setLaunch

theorem Keeps.moveOwner {v1 q1 v2 q2 : Nat} (hs : Keeps False s₀ s) : Keeps False s₀ (s.moveOwner v1 q1 v2 q2) :=
  hs.same

theorem Keeps.restoreWait {w : Wait} (hs : Keeps False s₀ s) : Keeps False s₀ (s.restoreWait w) := by
  unfold State.restoreWait
  dsimp only
  split
  · split
    · exact hs.takeId.setWaits.endWait
    · exact hs.takeId.setWaits
  · split
    · exact Keeps.ite hs.takeId.setWaits hs.takeId.setWaits.endWait
    · split
      · exact hs.takeId.setWaits.endWait
      · exact hs.takeId.setWaits

theorem Keeps.restoreBlock {x : Saved} {vat : Nat} {scheds : List Nat} (hs : Keeps False s₀ s) :
    Keeps False s₀ (s.restoreBlock x vat scheds) :=
  Keeps.ite (((hs.wakeNow.same.foldl fun hs1 => hs1.moveOwner).foldl fun hs1 => hs1.wr).foldl fun hs1 =>
    hs1.restoreWait).grantHead (((hs.wakeNow.same.foldl fun hs1 => hs1.moveOwner).foldl fun hs1 => hs1.wr).foldl fun
    hs1 => hs1.restoreWait)

theorem Keeps.dispatchFail {l : Launch} {vat : Nat} {f : Fail} (hs : Keeps False s₀ s) : Keeps False s₀ (s.dispatchFail l vat f) :=
  hs.failTile

theorem Keeps.dispatch {id : Nat} (hs : Keeps False s₀ s) : Keeps False s₀ (s.dispatch id) := by
  unfold State.dispatch
  dsimp only
  split
  · exact hs
  · split
    · split
      · exact hs
      · split
        · split
          · exact hs
          · split
            next e4 => exact (hs.footprints.of_fst e4).dispatchFail
            next e4 => exact (hs.footprints.of_fst e4).restoreBlock.attachTile
        · split
          · exact hs
          · split
            · exact hs
            · split
              next e4 => exact (hs.footprints.of_fst e4).dispatchFail
              next e4 => exact (hs.footprints.of_fst e4).placeBlock.attachTile
    · split
      · exact hs
      · split
        · split
          · exact hs
          · split
            next e3 => exact (hs.footprints.of_fst e3).dispatchFail
            next e3 => exact (hs.footprints.of_fst e3).restoreBlock.attachTile
        · split
          · exact hs
          · split
            · exact hs
            · split
              next e3 => exact (hs.footprints.of_fst e3).dispatchFail
              next e3 => exact (hs.footprints.of_fst e3).placeBlock.attachTile

/-! ### Intake -/

theorem Keeps.intakeFail {p q st : Nat} (hs : Keeps False s₀ s) : Keeps False s₀ (s.intakeFail p q st) :=
  hs.wr.wr.wr.tearDown

theorem Keeps.fetchPacket {p q : Nat} (hs : Keeps False s₀ s) : Keeps False s₀ (s.fetchPacket p q).1 := by
  unfold State.fetchPacket
  extract_lets size rd fill at'
  split
  · exact hs
  · split
    next e => exact hs.vRead.of_fst e
    next s1 hd e =>
      have h1 := hs.vRead.of_fst e
      split
      next len _ _ =>
      split
      · exact h1
      · exact h1
      · extract_lets n
        split
        · exact h1
        · split
          · exact h1
          · have hbytes : Keeps False s₀ (if n = 1 then (s1, Except.ok hd) else
                s1.vRead (headboxAsker p) (.queue p q) p at' (32 * (n))).1 := by
              split
              · exact h1
              · exact h1.vRead
            split
            next e1 => exact (hbytes.of_fst e1).same
            next e1 => exact hbytes.of_fst e1
            next e1 =>
              dsimp only
              split
              · exact hbytes.of_fst e1
              · exact hbytes.of_fst e1

theorem Keeps.takePacket {p q : Nat} {ws : List Word} {slots : Nat} (hs : Keeps False s₀ s) :
    Keeps False s₀ (s.takePacket p q ws slots) := by
  unfold State.takePacket
  dsimp only
  exact Keeps.ite hs.takeId.setQueue.wr.trimQueue.passRecords hs.takeId.setQueue.wr

theorem Keeps.intake {p q : Nat} (hs : Keeps False s₀ s) : Keeps False s₀ (s.intake p q) := by
  unfold State.intake
  split
  · exact hs
  · split
    next e => exact hs.fetchPacket.of_fst e
    next e => exact hs.fetchPacket.of_fst e
    next e => exact (hs.fetchPacket.of_fst e).tearDown
    next e => exact (hs.fetchPacket.of_fst e).intakeFail
    next e => exact (hs.fetchPacket.of_fst e).takePacket

theorem Keeps.intakeNop {p q : Nat} (hs : Keeps False s₀ s) : Keeps False s₀ (s.intakeNop p q) := by
  unfold State.intakeNop
  split
  · exact hs
  · split
    next e => exact Keeps.ite (hs.fetchPacket.of_fst e).takePacket hs
    · exact hs

/-! ### Handoff -/

theorem Keeps.sequenceNode {r : GraphRun} {i : Nat} {n : RunNode} (hs : Keeps False s₀ s) :
    Keeps False s₀ (s.sequenceNode r i n).1 := by
  unfold State.sequenceNode
  split
  next op len flags _ =>
    extract_lets slot as lo hi put
    have hput {t : State} {ws : List Word} (ht : Keeps False s₀ t) : Keeps False s₀ (put t ws).1 := by
      unfold put
      dsimp only
      exact ht.takeId.modRun.setQueue
    split
    · split
      next e => exact (hput hs).of_fst e
    · split
      · split
        next e => exact ((hput hs).of_fst e).finishCmd
      · split
        next e => exact (hs.vRead.of_fst e).failTile
        next e =>
          split
          next e1 => exact (hput (hs.vRead.of_fst e)).of_fst e1

theorem Keeps.takeCmd {r : CmdRef} {want : Cmd → Bool} (hs : Keeps False s₀ s) : Keeps False s₀ (s.takeCmd r want).1 := by
  unfold State.takeCmd
  dsimp only
  split
  · exact hs
  · split
    · exact hs
    · split
      · exact hs
      · split
        · exact hs
        · split
          · exact hs.sequenceNode
          · exact hs

theorem Keeps.withCmd {r : CmdRef} {want : Cmd → Bool} {k : State → Cmd → State}
    (hs : Keeps False s₀ s) (hk : ∀ {s x1}, Keeps False s₀ s → Keeps False s₀ (k s x1)) :
    Keeps False s₀ (s.withCmd r want k) := by
  unfold State.withCmd
  split
  · exact hs
  · split
    next e => exact hk (hs.takeCmd.of_fst e)
    next e => exact hs.takeCmd.of_fst e

theorem Keeps.wakeEngine {id : Nat} (hs : Keeps False s₀ s) : Keeps False s₀ (s.wakeEngine id) := by
  unfold State.wakeEngine
  split
  · exact Keeps.ite hs.wakeNow (Keeps.ite hs.wakeNow hs)
  · exact hs

theorem Keeps.hand {id : Nat} (hs : Keeps False s₀ s) : Keeps False s₀ (s.hand id) :=
  hs.wakeEngine.modCmd

theorem Keeps.handDone {id st : Nat} (hs : Keeps False s₀ s) : Keeps False s₀ (s.handDone id st) :=
  hs.hand.setResult

theorem Keeps.cmdFail {c : Cmd} {f : Fail} (hs : Keeps False s₀ s) : Keeps False s₀ (s.cmdFail c f) :=
  hs.failTile

theorem Keeps.updateWaiting (hs : Keeps False s₀ s) : Keeps False s₀ s.updateWaiting :=
  hs.same

theorem Keeps.poolStep (hs : Keeps False s₀ s) : Keeps False s₀ s.poolStep := by
  unfold State.poolStep
  dsimp only
  split
  · exact hs.updateWaiting
  · split
    · exact hs.updateWaiting
    · refine hs.updateWaiting.foldl fun hs1 => ?_
      split
      · exact Keeps.ite hs1.preempt hs1
      · exact hs1

theorem Keeps.adoptPreloads {l : Launch} (hs : Keeps False s₀ s) : Keeps False s₀ (s.adoptPreloads l) :=
  hs.same

theorem Keeps.noteTiles {c : Cmd} {n : Nat} (hs : Keeps False s₀ s) : Keeps False s₀ (s.noteTiles c n) := by
  unfold State.noteTiles
  split
  · exact hs.modRun
  · exact hs

theorem Keeps.startLaunch {c : Cmd} {l : Launch} (hs : Keeps False s₀ s) : Keeps False s₀ (s.startLaunch c l) :=
  Keeps.ite hs.hand.noteTiles.setLaunch.grantColumns hs.hand.noteTiles.adoptPreloads.setLaunch.poolStep

/-- The descriptor's read stands as one function of its own: opened here, the kernel would run it. -/
theorem Keeps.launchCmd {c : Cmd} (hs : Keeps False s₀ s) : Keeps False s₀ (s.launchCmd c) := by
  obtain ⟨read, hdef, hread⟩ : ∃ f, @State.readLaunch = f ∧ ∀ {s p who addr id use}, Keeps False s₀ s →
      Keeps False s₀ (f s p who addr id use).1 := ⟨_, rfl, Keeps.readLaunch⟩
  conv in State.launchCmd => delta State.launchCmd
  rw [hdef]
  split
  next e =>
    have h0 := hs.takeId.of_snd e
    split
    next e1 => exact ((hread h0).of_fst e1).cmdFail
    next e1 => exact ((hread h0).of_fst e1).handDone
    next e1 => exact ((hread h0).of_fst e1).startLaunch

theorem Keeps.warm {l : Launch} {bytes : Nat} (hs : Keeps False s₀ s) : Keeps False s₀ (s.warm l bytes) := by
  unfold State.warm
  dsimp only
  split
  next e => exact hs.prefetchRange.prefetchRange.vRead.of_fst e
  · exact hs.prefetchRange.prefetchRange

theorem Keeps.preloadCmd {c : Cmd} (hs : Keeps False s₀ s) : Keeps False s₀ (s.preloadCmd c) := by
  obtain ⟨read, hdef, hread⟩ : ∃ f, @State.readLaunch = f ∧ ∀ {s p who addr id use}, Keeps False s₀ s →
      Keeps False s₀ (f s p who addr id use).1 := ⟨_, rfl, Keeps.readLaunch⟩
  conv in State.preloadCmd => delta State.preloadCmd
  rw [hdef]
  split
  next e =>
    have h0 := hs.takeId.of_snd e
    extract_lets finish
    have hfinish {t : State} (ht : Keeps False s₀ t) : Keeps False s₀ (finish t) := ht.hand.finishCmd
    split
    next e1 => exact (hread h0).of_fst e1
    · exact hfinish hs
    next e1 => exact hfinish ((hread h0).of_fst e1)
    next e1 =>
      have h1 := (hread h0).of_fst e1
      extract_lets free s2 s3
      have h2 : Keeps False s₀ s2 := h1.foldl fun h => h.wakeNow.setVat
      have h3 : Keeps False s₀ s3 := .ite h2 h2.setLaunch
      exact hfinish h3.warm

theorem Keeps.preloadFill {vat : Nat} (hs : Keeps False s₀ s) : Keeps False s₀ (s.preloadFill vat) := by
  unfold State.preloadFill
  dsimp only
  split
  · split
    · exact hs.wakeNow.setVat.warm
    · exact hs
  · exact hs

theorem Keeps.signalHand {c : Cmd} (hs : Keeps False s₀ s) : Keeps False s₀ (s.signalHand c) := by
  unfold State.signalHand
  dsimp only
  split
  next e => exact (hs.synServe.of_fst e).handDone
  next e => exact (hs.synServe.of_fst e).handDone

theorem Keeps.waitHand {c : Cmd} (hs : Keeps False s₀ s) : Keeps False s₀ (s.waitHand c) := by
  unfold State.waitHand
  dsimp only
  split
  next e => exact (hs.hand.synServe.of_fst e).setResult
  next e => exact hs.hand.synServe.of_fst e
  next e => exact (hs.hand.synServe.of_fst e).setResult

theorem Keeps.eventHand {c : Cmd} (hs : Keeps False s₀ s) : Keeps False s₀ (s.eventHand c) :=
  hs.raisePart.handDone

theorem Keeps.markHand {c : Cmd} (hs : Keeps False s₀ s) : Keeps False s₀ (s.markHand c) :=
  hs.wr.handDone

theorem Keeps.copyCheck {id total : Nat} (hs : Keeps False s₀ s) : Keeps False s₀ (s.copyCheck id total) := by
  unfold State.copyCheck
  split
  · exact Keeps.ite hs.setResult hs
  · exact hs

theorem Keeps.copyFrom {c : Cmd} {src : Option Nat} {dst count fuel pos : Nat} (hs : Keeps False s₀ s) :
    Keeps False s₀ (s.copyFrom c src dst count fuel pos) := by
  induction fuel generalizing s pos with
  | zero => exact hs
  | succ fuel ih =>
    rw [State.copyFrom]
    extract_lets d n0 n ranges
    have h0 := hs.modCmd (id := c.id) (f := fun c => { c with progress := pos })
    split
    · exact h0.copyCheck
    · split
      next e => exact (h0.footprints.of_fst e).failTile
      next e =>
        have h1 := h0.footprints.of_fst e
        extract_lets got
        have hgot : Keeps False s₀ got.1 := by
          unfold got
          split
          · exact h1.vRead
          · exact h1
        clear_value got
        split
        · exact Keeps.failTile hgot
        · split
          next e1 => exact ((Keeps.vWrite hgot).of_fst e1).failTile
          next e1 => exact ih ((Keeps.vWrite hgot).of_fst e1)

theorem Keeps.copyHand {c : Cmd} (hs : Keeps False s₀ s) : Keeps False s₀ (s.copyHand c) :=
  Keeps.ite hs.handDone (Keeps.ite hs.handDone hs.hand.copyFrom)

theorem Keeps.fillHand {c : Cmd} (hs : Keeps False s₀ s) : Keeps False s₀ (s.fillHand c) :=
  Keeps.ite hs.handDone hs.hand.copyFrom

/-! ### Funcs -/

theorem Keeps.beginStop {k : Nat} {drain : Bool} (hs : Keeps False s₀ s) : Keeps False s₀ (s.beginStop k drain) := by
  unfold State.beginStop
  refine .ite hs ?_
  have h1 : Keeps False s₀ (s.setFunc k fnStopping).takeId.2 := hs.setFunc.takeId
  exact .ite (Keeps.foldl (Keeps.same h1) fun h => h.preempt) (Keeps.same h1)

theorem Keeps.tellRing {mode : Nat} (hs : Keeps False s₀ s) : Keeps False s₀ (s.tellRing mode) :=
  hs.foldl fun hs1 => hs1.feltReq

theorem Keeps.funcAsk {op kind index : Nat} {act : State → State}
    (hs : Keeps False s₀ s) (hk : ∀ {s}, Keeps False s₀ s → Keeps False s₀ (act s)) :
    Keeps False s₀ (s.funcAsk op kind index act) :=
  Keeps.ite (hk hs.wr.wr.wr) hs

theorem Keeps.stopReq {kind index : Nat} {drain : Bool} (hs : Keeps False s₀ s) : Keeps False s₀ (s.stopReq kind index drain) := by
  unfold State.stopReq
  dsimp only
  split
  · exact Keeps.ite hs.wr (Keeps.ite (hs.wr.beginStop.foldl fun hs1 => hs1.beginStop).tellRing hs.wr.beginStop)
  · exact hs.wr

theorem Keeps.beginStart {k : Nat} (hs : Keeps False s₀ s) : Keeps False s₀ (s.beginStart k) :=
  Keeps.ite (Keeps.ite (Keeps.ite hs.wakeNow.wr.setFunc hs.wakeNow.wr) hs.setFunc) hs

theorem Keeps.startReq {kind index : Nat} (hs : Keeps False s₀ s) : Keeps False s₀ (s.startReq kind index) := by
  unfold State.startReq
  dsimp only
  split
  · exact Keeps.ite hs.wr (Keeps.ite (hs.wr.beginStart.foldl fun hs1 => hs1.beginStart).tellRing hs.wr.beginStart)
  · exact hs.wr

theorem Keeps.answerFuncs (hs : Keeps False s₀ s) : Keeps False s₀ s.answerFuncs :=
  hs.foldl fun hs1 => hs1.same.feltCpl

theorem Keeps.funcStopped {k : Nat} (hs : Keeps False s₀ s) : Keeps False s₀ (s.funcStopped k) := by
  unfold State.funcStopped
  split
  · exact hs
  · exact Keeps.ite hs.dropStops.finishStop.answerFuncs hs

theorem Keeps.tellRoot {p : Nat} (hs : Keeps False s₀ s) : Keeps False s₀ (s.tellRoot p) :=
  Keeps.ite (hs.foldl fun hs1 => hs1.feltReq) hs

theorem Keeps.funcStarted {k : Nat} (hs : Keeps False s₀ s) : Keeps False s₀ (s.funcStarted k) :=
  Keeps.ite hs (Keeps.ite (Keeps.ite hs.setFunc hs) hs.setFunc.tellRoot.poolStep.geoStep.answerFuncs)

/-! ### Delta -/

theorem Keeps.enablePorts (hs : Keeps False s₀ s) : Keeps False s₀ s.enablePorts :=
  Keeps.ite (hs.strapCheck.foldl fun hs1 => hs1.wr.wr) hs.strapCheck

theorem Keeps.fullLoad (hs : Keeps False s₀ s) : Keeps False s₀ s.fullLoad := by
  unfold State.fullLoad
  split
  · exact hs
  · split
    · exact hs.loadFailed
    · split
      · exact hs.loadFailed
      · split
        · exact hs.loadFailed
        · exact hs.installFurnish.enablePorts

theorem Keeps.setListed {fs : List Nat} {v : Nat} (hs : Keeps False s₀ s) : Keeps False s₀ (s.setListed fs v) :=
  hs.foldl fun hs1 => hs1.setFunc

theorem Keeps.stageDelta {bs : List Byte} (hs : Keeps False s₀ s) : Keeps False s₀ (s.stageDelta bs) :=
  hs.same.setListed

theorem Keeps.unstage {bs : List Byte} (hs : Keeps False s₀ s) : Keeps False s₀ (s.unstage bs) :=
  hs.foldl fun hs1 => hs1.setFunc

theorem Keeps.moveVats {before : List Nat} (hs : Keeps False s₀ s) : Keeps False s₀ (s.moveVats before) := by
  unfold State.moveVats
  refine hs.foldl fun hs1 => ?_
  split
  · exact hs1.wr
  · exact hs1.wr
  · exact hs1

theorem Keeps.putRecs {recs changed : List FRec} (hs : Keeps False s₀ s) : Keeps False s₀ (s.putRecs recs changed) := by
  unfold State.putRecs
  dsimp only
  refine Keeps.wr ?_
  refine Keeps.moveVats ?_
  refine hs.same.foldl fun hs1 => ?_
  split
  · exact hs1.setBudget
  · exact hs1.setBudget

theorem Keeps.applyDelta {bs : List Byte} (hs : Keeps False s₀ s) : Keeps False s₀ (s.applyDelta bs) := by
  unfold State.applyDelta
  dsimp only
  split
  · exact hs
  · exact hs.putRecs.same.wr.count.unstage.poolStep

theorem Keeps.revertDelta (hs : Keeps False s₀ s) : Keeps False s₀ s.revertDelta := by
  unfold State.revertDelta
  dsimp only
  split
  · exact hs
  · exact hs.putRecs.same.wr.wr

theorem Keeps.sendPieces {m sub : Nat} {bs : List Byte} (hs : Keeps False s₀ s) : Keeps False s₀ (s.sendPieces m sub bs) :=
  hs.foldl fun hs1 => hs1.feltReq

theorem Keeps.sendCommit {st gen : Nat} (hs : Keeps False s₀ s) : Keeps False s₀ (s.sendCommit st gen) :=
  hs.foldl fun hs1 => hs1.feltReq

theorem Keeps.endDelta {st : Nat} (hs : Keeps False s₀ s) : Keeps False s₀ (s.endDelta st) :=
  Keeps.ite hs.same.wr.wr.wr.wr hs.same.wr.loadFailed

theorem Keeps.commitDelta {d : DeltaRun} (hs : Keeps False s₀ s) : Keeps False s₀ (s.commitDelta d) := by
  unfold State.commitDelta
  extract_lets s1
  have h1 : Keeps False s₀ s1 := hs.sendCommit.applyDelta
  exact .ite h1.endDelta (Keeps.same h1)

theorem Keeps.failDelta {d : DeltaRun} {who : Nat} (hs : Keeps False s₀ s) : Keeps False s₀ (s.failDelta d who) :=
  (Keeps.ite hs.sendCommit.revertDelta hs.sendCommit.same.unstage).endDelta

theorem Keeps.deltaAnswer {m st : Nat} (hs : Keeps False s₀ s) : Keeps False s₀ (s.deltaAnswer m st) := by
  unfold State.deltaAnswer
  dsimp only
  split
  · exact hs
  · exact Keeps.ite hs (Keeps.ite hs.failDelta (Keeps.ite hs.same (Keeps.ite hs.same.endDelta hs.same.commitDelta)))

theorem Keeps.deltaLoad (hs : Keeps False s₀ s) : Keeps False s₀ s.deltaLoad := by
  unfold State.deltaLoad
  split
  · exact hs
  · split
    · exact hs.loadFailed
    · split
      · exact hs.loadFailed
      · split
        · exact hs.loadFailed
        · extract_lets bs s1 d _ s2
          have h1 : Keeps False s₀ s1 := hs.stageDelta.wr
          have h2 : Keeps False s₀ s2 := h1.same
          exact .ite h2.commitDelta (Keeps.foldl h2 fun h => h.sendPieces)

theorem Keeps.deltaTimeout (hs : Keeps False s₀ s) : Keeps False s₀ s.deltaTimeout := by
  unfold State.deltaTimeout
  split
  · exact Keeps.ite hs hs.failDelta
  · exact hs

theorem Keeps.rxPiece {body : List Byte} (hs : Keeps False s₀ s) : Keeps False s₀ (s.rxPiece body).1 := by
  unfold State.rxPiece
  dsimp only
  split
  · split
    · split
      · exact hs.same
      · exact hs.same
    · split
      · exact hs.same
      · exact hs.same
  · split
    · split
      · exact hs.same
      · exact hs.same
    · split
      · exact hs.same
      · exact hs.same

theorem Keeps.prepareDelta {bs : List Byte} (hs : Keeps False s₀ s) : Keeps False s₀ (s.prepareDelta bs).1 := by
  unfold State.prepareDelta
  split
  · exact hs
  · exact hs.stageDelta

theorem Keeps.commitHere {st gen : Nat} (hs : Keeps False s₀ s) : Keeps False s₀ (s.commitHere st gen) := by
  unfold State.commitHere
  dsimp only
  split
  · split
    · exact Keeps.ite hs.applyDelta hs
    · exact hs
  · refine Keeps.loadFailed ?_
    split
    · exact hs.same.unstage
    · exact Keeps.ite hs.revertDelta hs

theorem Keeps.replayDelta {bs : List Byte} (hs : Keeps False s₀ s) : Keeps False s₀ (s.replayDelta bs) :=
  Keeps.ite hs.applyDelta hs

/-! ### Wake -/

theorem Keeps.wakeQuire {v q : Nat} (hs : Keeps False s₀ s) : Keeps False s₀ (s.wakeQuire v q) := by
  unfold State.wakeQuire
  split
  · split
    · exact Keeps.ite hs hs.setQuire
    · exact Keeps.ite hs hs.setQuire
    · exact hs
  · exact hs

theorem Keeps.wake {o : Owner} (hs : Keeps False s₀ s) : Keeps False s₀ (s.wake o) := by
  unfold State.wake
  split
  · exact hs.wakeQuire
  · exact hs.wakeQuire.columnEnds
  · split
    · exact Keeps.ite hs.copyCheck.columnEnds hs
    · exact hs
  · exact hs.columnEnds
  · exact hs.columnEnds.geoStep
  · exact hs

theorem Keeps.markFail {o : Owner} {st : Nat} (hs : Keeps False s₀ s) : Keeps False s₀ (s.markFail o st) :=
  hs.same

theorem Keeps.dropAsks {f : Owner → Bool} (hs : Keeps False s₀ s) : Keeps False s₀ (s.dropAsks f) :=
  hs.same

theorem Keeps.failQuire {v q p st va : Nat} (hs : Keeps False s₀ s) : Keeps False s₀ (s.failQuire v q p st va) := by
  unfold State.failQuire
  dsimp only
  refine Keeps.tearDown ?_
  refine Keeps.dropAsks ?_
  split
  · exact hs.setQuire
  · exact hs

theorem Keeps.failOwner {o : Owner} {p st va : Nat} (hs : Keeps False s₀ s) : Keeps False s₀ (s.failOwner o p st va) := by
  unfold State.failOwner
  split
  · exact hs.failQuire
  · exact hs.failQuire
  · exact hs.tearDown
  · exact hs.tearDown
  · split
    · exact Keeps.ite hs.markFail hs.tearDown
    · exact hs
  · exact hs.tearDown
  · exact hs.tearDown
  · exact hs
  · exact hs
  · exact hs

theorem Keeps.keep {o : Owner} {addr : Nat} {bs : List Byte} (hs : Keeps False s₀ s) : Keeps False s₀ (s.keep o addr bs) :=
  hs.same

theorem Keeps.dropMig {id : Nat} (hs : Keeps False s₀ s) : Keeps False s₀ (s.dropMig id) :=
  hs.same

theorem Keeps.endMig {w : MigWait} (hs : Keeps False s₀ s) : Keeps False s₀ (s.endMig w) := by
  unfold State.endMig
  dsimp only
  split
  · exact hs.dropMig.feltCpl
  · exact hs.dropMig.wake

theorem Keeps.failMig {w : MigWait} {st : Nat} (hs : Keeps False s₀ s) : Keeps False s₀ (s.failMig w st) := by
  unfold State.failMig
  dsimp only
  split
  · exact hs.dropMig.feltCpl
  · exact hs.dropMig.failOwner

/-! ### Pulper -/

theorem Keeps.startPicture {e : Nat} (hs : Keeps False s₀ s) : Keeps False s₀ (s.startPicture e) := by
  unfold State.startPicture
  split
  · split
    · exact Keeps.ite hs.modCmd hs
    · exact hs
  · exact hs

theorem Keeps.decodeHand {c : Cmd} (hs : Keeps False s₀ s) : Keeps False s₀ (s.decodeHand c) := by
  obtain ⟨read, hdef, hread⟩ : ∃ f, @State.vRead = f ∧ ∀ {s a who p va n}, Keeps False s₀ s →
      Keeps False s₀ (f s a who p va n).1 := ⟨_, rfl, Keeps.vRead⟩
  conv in State.decodeHand => delta State.decodeHand
  rw [hdef]
  split
  next e => exact ((hread hs).of_fst e).cmdFail
  next e =>
    have h0 := (hread hs).of_fst e
    extract_lets s1
    have h1 : Keeps False s₀ s1 := .ite h0.wakeNow h0
    split
    · exact h1.handDone
    · exact h1.handDone
    · exact Keeps.startPicture (Keeps.hand (Keeps.same h1))

theorem Keeps.plpNext {e id : Nat} (hs : Keeps False s₀ s) : Keeps False s₀ (s.plpNext e id) :=
  hs.same.startPicture

theorem Keeps.plpFault {c : Cmd} {x2 : Fail} (hs : Keeps False s₀ s) : Keeps False s₀ (s.plpFault c x2) := by
  unfold State.plpFault
  split
  · exact hs
  · exact hs.modCmd.failTile

theorem Keeps.plpEnd {t : State} {e : Nat} {c : Cmd} {d : List Byte} {r : PlpRec} {slot : PlpSlot} (ht : Keeps False s₀ t)
    (hs : Keeps False s₀ s) : Keeps False s₀ (t.plpEnd s e c d r slot) := by
  obtain ⟨write, hdef, hwrite⟩ : ∃ f, @State.vWrite = f ∧ ∀ {s a who p va bs}, Keeps False s₀ s →
      Keeps False s₀ (f s a who p va bs).1 := ⟨_, rfl, Keeps.vWrite⟩
  conv in State.plpEnd => delta State.plpEnd
  rw [hdef]
  split
  · exact ht.same
  next e1 => exact ((hwrite hs).of_fst e1).plpFault
  next e1 =>
    have h1 := (hwrite hs).of_fst e1
    dsimp only
    exact (Keeps.ite h1.same.count h1.same).setResult.plpNext

theorem Keeps.vWrites {asker : Asker} {who : Owner} {p : Nat} {writes : List (Nat × List Byte)} (hs : Keeps False s₀ s) :
    Keeps False s₀ (s.vWrites asker who p writes).1 := by
  induction writes generalizing s with
  | nil => exact hs
  | cons w writes ih =>
    rw [State.vWrites]
    split
    next e => exact hs.vWrite.of_fst e
    next e => exact ih (hs.vWrite.of_fst e)

theorem Keeps.decodePicture {t : State} {e : Nat} {c : Cmd} {d input : List Byte} {bad : Bool} (ht : Keeps False s₀ t)
    (hs : Keeps False s₀ s) : Keeps False s₀ (t.decodePicture s e c d input bad) := by
  obtain ⟨put, hdef, hput⟩ : ∃ f, @State.plpEnd = f ∧ ∀ {t s e c d r slot}, Keeps False s₀ t → Keeps False s₀ s →
      Keeps False s₀ (f t s e c d r slot) := ⟨_, rfl, Keeps.plpEnd⟩
  conv in State.decodePicture => delta State.decodePicture
  rw [hdef]
  split
  next n s1 e0 =>
    have h1 : Keeps False s₀ s1 := hs.takeFree.of_snd e0
    extract_lets
    refine .ite (hput h1 ht) (.ite (hput h1 ht) (.ite (hput h1 ht) (.ite (hput h1 ht) (.ite (hput h1 ht)
      (.ite (hput h1 ht) ?_)))))
    extract_lets
    split
    · exact ht.same
    next e1 => exact (h1.footprints.of_fst e1).plpFault
    next e1 =>
      have h2 := h1.footprints.of_fst e1
      split
      next e2 => exact (h2.vWrites.of_fst e2).plpFault
      next e2 => exact hput (h2.vWrites.of_fst e2).charge.charge.wr ht

theorem Keeps.plpInput {e : Nat} {c : Cmd} {d : List Byte} (hs : Keeps False s₀ s) : Keeps False s₀ (s.plpInput e c d).1 := by
  unfold State.plpInput
  split
  · exact hs.same
  · split
    next e1 => exact hs.footprints.of_fst e1
    next e1 => exact (hs.footprints.of_fst e1).plpFault
    next e1 =>
      have h1 := hs.footprints.of_fst e1
      split
      next e2 => exact h1.vRead.of_fst e2
      next e2 => exact h1.vRead.of_fst e2
      next e2 =>
        split
        · exact h1.vRead.of_fst e2
        · dsimp only
          exact (h1.vRead.of_fst e2).plpFault

theorem Keeps.pictureDone {e : Nat} (hs : Keeps False s₀ s) : Keeps False s₀ (s.pictureDone e) := by
  unfold State.pictureDone
  extract_lets s0
  have h0 : Keeps False s₀ s0 := hs.startPicture
  clear_value s0
  split
  · exact hs
  · split
    · split
      · exact hs
      · split
        next e1 => exact Keeps.decodePicture (h0.plpInput.of_fst e1) (h0.plpInput.of_fst e1)
        next e1 => exact h0.plpInput.of_fst e1
    · exact hs

theorem Keeps.plpAbort {e : Nat} {ids : List Nat} {st : Nat} (hs : Keeps False s₀ s) : Keeps False s₀ (s.plpAbort e ids st) := by
  unfold State.plpAbort
  refine hs.foldl fun h => ?_
  split
  · extract_lets slot r s1
    have h1 : Keeps False s₀ s1 := h.vWrite
    clear_value s1
    exact h1.same
  · exact h

theorem Keeps.plpSlotEnable {slot owner : Nat} (hs : Keeps False s₀ s) : Keeps False s₀ (s.plpSlotEnable slot owner) :=
  Keeps.ite hs hs.same

/-! ### Baler -/

theorem Keeps.startBaler (hs : Keeps False s₀ s) : Keeps False s₀ s.startBaler := by
  unfold State.startBaler
  split
  · split
    · exact Keeps.ite hs.modCmd hs
    · exact hs
  · exact hs

theorem Keeps.balHand {c : Cmd} (hs : Keeps False s₀ s) : Keeps False s₀ (s.balHand c) := by
  obtain ⟨read, hdef, hread⟩ : ∃ f, @State.vRead = f ∧ ∀ {s a who p va n}, Keeps False s₀ s →
      Keeps False s₀ (f s a who p va n).1 := ⟨_, rfl, Keeps.vRead⟩
  conv in State.balHand => delta State.balHand
  rw [hdef]
  split
  next e => exact ((hread hs).of_fst e).cmdFail
  next e =>
    have h1 := (hread hs).of_fst e
    split
    · exact h1.handDone
    · exact h1.same.hand.startBaler

theorem Keeps.balRead {c : Cmd} {d : List Byte} {r : BalRun} {n room : Nat} (hs : Keeps False s₀ s) :
    Keeps False s₀ (s.balRead c d r n room).1 := by
  unfold State.balRead
  dsimp only
  split
  next e => exact hs.footprints.of_fst e
  next e => exact (hs.footprints.of_fst e).vRead

theorem Keeps.balFail {c : Cmd} {r : BalRun} {f : Fail} (hs : Keeps False s₀ s) : Keeps False s₀ (s.balFail c r f).1 := by
  cases f with
  | stall => exact hs
  | fault source st va =>
    rw [State.balFail]
    split
    · exact hs
    · dsimp only
      exact hs.failTile

theorem Keeps.balWrite {c : Cmd} {r : BalRun} {a : Nat} {bs : List Byte} {out : BalOut} (hs : Keeps False s₀ s) :
    Keeps False s₀ (s.balWrite c r a bs out).1 := by
  unfold State.balWrite
  split
  next e => exact hs.vWrite.of_fst e
  next e => exact (hs.vWrite.of_fst e).balFail

theorem Keeps.baleBlock {c : Cmd} {d : List Byte} {r : BalRun} (hs : Keeps False s₀ s) : Keeps False s₀ (s.baleBlock c d r).1 := by
  unfold State.baleBlock
  dsimp only
  split
  · exact hs
  · split
    next e => exact (hs.balRead.of_fst e).balFail
    next e =>
      split
      · split
        · split
          · exact hs.balRead.of_fst e
          · exact (hs.balRead.of_fst e).balWrite
        · split
          · exact hs.balRead.of_fst e
          · exact (hs.balRead.of_fst e).balWrite
      · split
        · split
          · exact hs.balRead.of_fst e
          · exact (hs.balRead.of_fst e).balWrite
        · split
          · exact hs.balRead.of_fst e
          · exact (hs.balRead.of_fst e).balWrite

theorem Keeps.unbaleBlock {c : Cmd} {d : List Byte} {r : BalRun} (hs : Keeps False s₀ s) :
    Keeps False s₀ (s.unbaleBlock c d r).1 := by
  unfold State.unbaleBlock
  dsimp only
  split
  next e => exact (hs.balRead.of_fst e).balFail
  next e => exact (hs.balRead.of_fst e).balWrite

theorem Keeps.balBlocks {c : Cmd} {d : List Byte} {fuel : Nat} {r : BalRun} (hs : Keeps False s₀ s) :
    Keeps False s₀ (s.balBlocks c d fuel r).1 := by
  induction fuel generalizing s r with
  | zero => exact hs
  | succ fuel ih =>
    have hblock : Keeps False s₀ (if r.job.dir = 1 then s.baleBlock c d r else s.unbaleBlock c d r).1 := by
      split
      · exact hs.baleBlock
      · exact hs.unbaleBlock
    rw [State.balBlocks]
    split
    next e => exact ih (hblock.of_fst e)
    · exact hblock

theorem Keeps.balEnd {c : Cmd} {d : List Byte} {r : BalRun} {fin st errAt : Nat} {trailing : Bool} (hs : Keeps False s₀ s) :
    Keeps False s₀ (s.balEnd c d r fin st errAt trailing) := by
  obtain ⟨write, hdef, hwrite⟩ : ∃ f, @State.vWrite = f ∧ ∀ {s a who p va bs}, Keeps False s₀ s →
      Keeps False s₀ (f s a who p va bs).1 := ⟨_, rfl, Keeps.vWrite⟩
  conv in State.balEnd => delta State.balEnd
  rw [hdef]
  split
  next e =>
    have h1 := hs.takeFree.of_snd e
    extract_lets block
    split
    next e1 =>
      have h2 := (hwrite h1).of_fst e1
      split
      next e2 => exact ((hwrite h2).of_fst e2).failTile
      next e2 =>
        have h3 := (hwrite h2).of_fst e2
        dsimp only
        exact (Keeps.ite h3.same.count h3.same).setResult.startBaler

theorem Keeps.keepAsks {t : State} (hs : Keeps False s₀ s) : Keeps False s₀ (s.keepAsks t) := hs.same

theorem Keeps.balRun {c : Cmd} {d : List Byte} (hs : Keeps False s₀ s) : Keeps False s₀ (s.balRun c d) := by
  unfold State.balRun
  extract_lets dictAsk
  have hdict : Keeps False s₀ dictAsk.1 := by
    unfold dictAsk
    split
    · exact hs
    · exact hs.vRead
  clear_value dictAsk
  split
  next e => exact hs.keepAsks
  next s1 f _ =>
    have h1 : Keeps False s₀ s1 := hdict
    split
    next e1 => exact (h1.balFail.of_fst e1).balEnd
    next e1 => exact h1.balFail.of_fst e1
  next s1 dict =>
    have h1 : Keeps False s₀ s1 := hdict
    extract_lets r
    split
    · exact h1.dropAsks.balEnd
    · split
      next e1 => exact (h1.balBlocks.of_fst e1).balEnd
      next e1 => exact h1.balBlocks.of_fst e1
      next e1 => exact hs.keepAsks

theorem Keeps.balerDone (hs : Keeps False s₀ s) : Keeps False s₀ s.balerDone := by
  unfold State.balerDone
  dsimp only
  split
  · exact hs
  · split
    · exact Keeps.ite hs hs.startBaler.balRun
    · exact hs

/-! ### BpcHeap -/

theorem Keeps.setHeap {p : Nat} {h : Heap} (hs : Keeps False s₀ s) : Keeps False s₀ (s.setHeap p h) :=
  hs.same

theorem Keeps.pick {l : List Nat} (hs : Keeps False s₀ s) : Keeps False s₀ (s.pick l).1 := by
  unfold State.pick
  split
  next e => exact hs.takeFree.of_snd e

theorem Keeps.heapTake {p k : Nat} (hs : Keeps False s₀ s) : Keeps False s₀ (s.heapTake p k).1 := by
  unfold State.heapTake
  dsimp only
  split
  · exact hs.pick.setHeap
  · split
    · exact hs
    · exact hs.pick.pick.setHeap

theorem Keeps.halloc {p n : Nat} (hs : Keeps False s₀ s) : Keeps False s₀ (s.halloc p n).1 := by
  unfold State.halloc
  split
  · exact hs.count
  · split
    next e1 => exact hs.heapTake.of_fst e1
    next e1 => exact (hs.heapTake.of_fst e1).count

theorem Keeps.hfree {p a : Nat} (hs : Keeps False s₀ s) : Keeps False s₀ (s.hfree p a) := by
  unfold State.hfree
  dsimp only
  split
  · exact hs
  · split
    · exact hs.count
    · exact hs.setHeap

/-! ### StopAck -/

theorem Keeps.stopEngine {c : StopCause} {x2 : EngineUnit} (hs : Keeps False s₀ s) : Keeps False s₀ (s.stopEngine c x2) := by
  unfold State.stopEngine
  dsimp only
  split
  · exact hs.plpAbort.stopCmds.startPicture
  · exact hs.discardWork.startBaler
  · exact hs.discardWork

theorem Keeps.ackStop {id : Nat} {u : EngineUnit} (hs : Keeps False s₀ s) : Keeps False s₀ (s.ackStop id u) := by
  unfold State.ackStop
  dsimp only
  split
  · exact hs
  · exact Keeps.ite hs.dropStops.finishStop.answerFuncs hs.same

theorem Keeps.stopAck {id : Nat} {u : EngineUnit} (hs : Keeps False s₀ s) : Keeps False s₀ (s.stopAck id u) := by
  unfold State.stopAck
  split
  · exact hs
  · exact Keeps.ite hs.stopEngine.ackStop.poolStep hs

theorem Keeps.settleStop {x : Stop} (hs : Keeps False s₀ s) : Keeps False s₀ (s.settleStop x) :=
  hs.foldl fun hs1 => hs1.ackStop

theorem Keeps.settleStops (hs : Keeps False s₀ s) : Keeps False s₀ s.settleStops :=
  hs.foldl fun hs1 => hs1.settleStop

theorem Keeps.memberAck {p m : Nat} (hs : Keeps False s₀ s) : Keeps False s₀ (s.memberAck p m) :=
  hs.foldl fun hs1 => hs1.ackStop

/-! ### XltCmds -/

theorem Keeps.migRetry {w : MigWait} (hs : Keeps False s₀ s) : Keeps False s₀ (s.migRetry w) := by
  unfold State.migRetry
  dsimp only
  split
  next e => exact Keeps.ite (hs.lookup.of_fst e).endMig (hs.lookup.of_fst e).failMig
  next e =>
    split
    · exact (hs.lookup.of_fst e).same
    · split
      · exact (hs.lookup.of_fst e).takeEntry.same
      · exact hs.lookup.of_fst e
  next e => exact (hs.lookup.of_fst e).failMig
  next e => exact (hs.lookup.of_fst e).failMig
  next e => exact Keeps.ite (hs.lookup.of_fst e).readWalk (hs.lookup.of_fst e).failMig

theorem Keeps.migReply {p e op : Nat} {act : State → MigWait → State}
    (hs : Keeps False s₀ s) (hk : ∀ {s x1}, Keeps False s₀ s → Keeps False s₀ (act s x1)) :
    Keeps False s₀ (s.migReply p e op act) :=
  Keeps.ite hs.wr.wr.wr (hs.wr.wr.wr.wr.foldl fun hs1 => Keeps.ite (hk hs1) hs1)

theorem Keeps.startInval {p word addr : Nat} (hs : Keeps False s₀ s) : Keeps False s₀ (s.startInval p word addr) :=
  hs.same.foldl fun hs1 => hs1.feltReq

theorem Keeps.invalRequest {p word : Nat} (hs : Keeps False s₀ s) : Keeps False s₀ (s.invalRequest p word) := by
  unfold State.invalRequest
  dsimp only
  split
  · exact hs.startInval
  · split
    · exact hs.same
    · exact Keeps.ite (Keeps.ite hs.count hs).same hs.same

theorem Keeps.endInval {p : Nat} {x : Inval} (hs : Keeps False s₀ s) : Keeps False s₀ (s.endInval p x) := by
  unfold State.endInval
  extract_lets _ s1 s2 _
  have h1 : Keeps False s₀ s1 := hs.same
  have h2 : Keeps False s₀ s2 := .ite h1 h1.wr
  split
  · exact Keeps.startInval (Keeps.same h2)
  · exact h2.wr.answerFuncs

theorem Keeps.invalAck {p : Nat} {c : XltCache} (hs : Keeps False s₀ s) : Keeps False s₀ (s.invalAck p c) := by
  unfold State.invalAck
  dsimp only
  split
  · exact hs
  · exact Keeps.ite hs.same.endInval hs.same

theorem Keeps.rootWrite {p word data : Nat} (hs : Keeps False s₀ s) : Keeps False s₀ (s.rootWrite p word data) :=
  (Keeps.ite (Keeps.ite (Keeps.ite hs.wr hs.wr) hs).wr (Keeps.ite (Keeps.ite hs.wr hs.wr) hs)).invalRequest.tellRoot

/-! ### Answers -/

theorem Keeps.unwait {v q pc : Nat} (hs : Keeps False s₀ s) : Keeps False s₀ (s.unwait v q pc) := by
  unfold State.unwait
  dsimp only
  split
  · exact hs.setWaits.setQuire
  · exact hs.setWaits

theorem Keeps.savedNotice {v q lane st : Nat} (hs : Keeps False s₀ s) : Keeps False s₀ (s.savedNotice v q lane st) :=
  hs.same

theorem Keeps.synAnswered {r : Req} {v q st : Nat} {data : List Byte} (hs : Keeps False s₀ s) :
    Keeps False s₀ (s.synAnswered r v q st data) := by
  unfold State.synAnswered
  dsimp only
  split
  · exact hs.failOwner
  · split
    · split
      · exact hs.unwait.raiseFault
      · split
        · exact hs.lockLane
        · split
          · exact hs.savedNotice
          · split
            · exact hs.endWait
            · exact hs
    · exact hs.keep.wake

theorem Keeps.gotRead {r : Req} {data : List Byte} (hs : Keeps False s₀ s) : Keeps False s₀ (s.gotRead r data) :=
  Keeps.ite hs.same hs.keep

theorem Keeps.accessAnswered {r : Req} {st : Nat} {act : State → State}
    (hs : Keeps False s₀ s) (hk : ∀ {s}, Keeps False s₀ s → Keeps False s₀ (act s)) :
    Keeps False s₀ (s.accessAnswered r st act) :=
  Keeps.ite (hk hs).wake hs.failOwner

theorem Keeps.migAnswered {r : Req} {st : Nat} (hs : Keeps False s₀ s) : Keeps False s₀ (s.migAnswered r st) := by
  unfold State.migAnswered
  dsimp only
  split
  · exact hs
  · exact Keeps.ite hs.dropMig.wake hs.dropMig.failOwner

theorem Keeps.feltReqBy {k dst op part : Nat} {body : List Byte} (hs : Keeps False s₀ s) :
    Keeps False s₀ (s.feltReqBy k dst op part body) :=
  hs.same.feltQueue

theorem Keeps.addMeasured {dst : Nat} (hs : Keeps False s₀ s) : Keeps False s₀ (s.addMeasured dst) :=
  hs.same

theorem Keeps.measureAnswered {dst : Nat} {data : List Byte} (hs : Keeps False s₀ s) :
    Keeps False s₀ (s.measureAnswered dst data) := by
  unfold State.measureAnswered
  dsimp only
  split
  · exact hs
  · exact Keeps.ite hs.addMeasured (hs.foldl fun hs1 => hs1.foldl fun hs2 => hs2.feltReqBy)

theorem Keeps.ctlAnswered {r : Req} {dst st : Nat} {data : List Byte} (hs : Keeps False s₀ s) :
    Keeps False s₀ (s.ctlAnswered r dst st data) :=
  Keeps.ite (Keeps.ite hs.measureAnswered hs) (Keeps.ite (Keeps.ite hs hs.deltaAnswer) (Keeps.ite hs.deltaAnswer
    (Keeps.ite (Keeps.ite hs.addMeasured hs) (Keeps.ite hs.memberAck (Keeps.ite hs.invalAck hs)))))

theorem Keeps.endReq {r : Req} {st : Nat} {data : List Byte} (hs : Keeps False s₀ s) : Keeps False s₀ (s.endReq r st data) := by
  unfold State.endReq
  dsimp only
  split
  · exact hs.same.accessAnswered (fun hs1 => hs1.gotRead)
  · split
    · exact hs.same.accessAnswered (fun hs1 => hs1)
    · split
      · exact hs.same.accessAnswered (fun hs1 => hs1.keep)
      · split
        · split
          · exact hs.same.synAnswered
          · exact hs.same
        · exact Keeps.ite (Keeps.ite hs.same hs.same.migAnswered) (Keeps.ite hs.same.ctlAnswered hs.same)

end Sys2Proof.Machine
end

