-- ==== Sys2Proof/Proofs/KeepsFirmware.lean ====
section
/-!
PROOF. What the firmware, the mailbox, the graphs, the streams and the objects keep (`Keeps`).
-/

namespace Sys2Proof.Machine

variable {s₀ s : State}

/-! ### Firmware -/

theorem Keeps.pushLog {r : LogRec} (hs : Keeps False s₀ s) : Keeps False s₀ (s.pushLog r) :=
  hs.sameUnits

theorem Keeps.appendLog {r : LogRec} (hs : Keeps False s₀ s) : Keeps False s₀ (s.appendLog r) := by
  unfold State.appendLog
  dsimp only
  exact Keeps.ite hs.takeFree.pushLog.pushLog hs.pushLog

/-- A write to the boot flash keeps the canonical form. -/
theorem Keeps.setFlash {addr : Nat} {bs : List Byte} (hs : Keeps False s₀ s) : Keeps False s₀ (s.setFlash addr bs) :=
  { hs with
    memories := fun w => by
      obtain ⟨hdram, hhost, htrace, hflash, hdownload⟩ := hs.memories w
      exact ⟨hdram, hhost, htrace, Mem.wf_write 0xFF _ addr bs hflash, hdownload⟩
    work := False.elim }

theorem Keeps.writeSettings {wear minGen : Nat} {pending : Bool} {copy : Nat} (hs : Keeps False s₀ s) :
    Keeps False s₀ (s.writeSettings wear minGen pending copy) :=
  hs.sameUnits.appendLog

theorem Keeps.saveSettings {wear minGen : Nat} (hs : Keeps False s₀ s) : Keeps False s₀ (s.saveSettings wear minGen) :=
  hs.writeSettings

theorem Keeps.readSettings (hs : Keeps False s₀ s) : Keeps False s₀ s.readSettings := by
  unfold State.readSettings
  dsimp only
  split
  · exact Keeps.ite (Keeps.ite hs.appendLog hs).writeSettings (Keeps.ite hs.appendLog hs)
  · exact Keeps.ite hs.appendLog hs

theorem Keeps.sampleCard (hs : Keeps False s₀ s) : Keeps False s₀ s.sampleCard := by
  unfold State.sampleCard
  dsimp only
  exact Keeps.ite hs.takeFree.sameUnits hs

theorem Keeps.nullFurnish {e0 e1 : LoadErr} (hs : Keeps False s₀ s) : Keeps False s₀ (s.nullFurnish e0 e1) :=
  hs.loadFailed.wr.wr

theorem Keeps.loadStore (hs : Keeps False s₀ s) : Keeps False s₀ s.loadStore := by
  unfold State.loadStore
  dsimp only
  split
  · exact hs.installFurnish.sampleCard.enablePorts
  · split
    · exact hs.installFurnish.sampleCard.enablePorts
    · exact hs.nullFurnish

theorem Keeps.showFw (hs : Keeps False s₀ s) : Keeps False s₀ s.showFw := by
  unfold State.showFw
  dsimp only
  split
  · exact hs.wr.wr.wr.wr.wr.wr
  · exact hs.wr.wr.wr.wr.wr.wr.wr.wr.wr.wr

theorem Keeps.recovery (hs : Keeps False s₀ s) : Keeps False s₀ s.recovery :=
  hs.appendLog.sameUnits.showFw

theorem Keeps.insertSaveall (hs : Keeps False s₀ s) : Keeps False s₀ s.insertSaveall :=
  hs.foldl fun hs1 => hs1.wr.wr

theorem Keeps.devResetDone (hs : Keeps False s₀ s) : Keeps False s₀ s.devResetDone :=
  Keeps.ite hs (hs.sameUnits.wr.foldl fun hs1 => hs1.msix)

theorem Keeps.runImage {i : Image} {cold dramOk : Bool} (hs : Keeps False s₀ s) : Keeps False s₀ (s.runImage i cold dramOk) := by
  unfold State.runImage
  extract_lets _ s1 s2 s3 s4 s5 s6 s7 s8
  have h1 : Keeps False s₀ s1 := hs.sameUnits
  have h3 : Keeps False s₀ s3 := h1.wr.readSettings.wr
  have h4 : Keeps False s₀ s4 := (Keeps.ite h3.insertSaveall h3).wr
  have h6 : Keeps False s₀ s6 := h4.wr.loadStore.appendLog
  have h7 : Keeps False s₀ s7 := h6.wr.wr.wr
  have h8 : Keeps False s₀ s8 := .ite h7.raiseShared h7
  exact h8.showFw.devResetDone

/-- The check of an image stands as a function of its own: opened here, `simp` and `split` would run it. -/
theorem Keeps.tryStarts {cold dramOk : Bool} {slots : List Nat} (hs : Keeps False s₀ s) :
    Keeps False s₀ (s.tryStarts cold dramOk slots) := by
  obtain ⟨load, hload⟩ : ∃ f, @State.loadSlot = f := ⟨_, rfl⟩
  obtain ⟨run, hdef, hrun⟩ : ∃ f, @State.runImage = f ∧ ∀ {s i c d}, Keeps False s₀ s → Keeps False s₀ (f s i c d) :=
    ⟨_, rfl, Keeps.runImage⟩
  delta State.tryStarts State.tryStarts._f
  rw [hload, hdef]
  induction slots generalizing s with
  | nil => exact hs.recovery
  | cons slot slots ih =>
    have h1 : Keeps False s₀ ((s.appendLog (logEv 1 slot)).wr .MGC_BOOT_STATUS_TRIES (s.rd .MGC_BOOT_STATUS_TRIES + 1)) :=
      hs.appendLog.wr
    change Keeps False s₀ (match load _ slot with | .ok i => _ | .error c => _)
    split
    · exact hrun h1
    · exact ih h1.appendLog.wr

theorem Keeps.logLost (hs : Keeps False s₀ s) : Keeps False s₀ s.logLost := by
  unfold State.logLost
  split
  · exact Keeps.ite hs.appendLog hs
  · exact hs

theorem Keeps.preStart (hs : Keeps False s₀ s) : Keeps False s₀ s.preStart := by
  unfold State.preStart
  dsimp only
  split
  · exact Keeps.ite (Keeps.ite hs.appendLog hs).appendLog (Keeps.ite hs.appendLog hs)
  · exact Keeps.ite hs.appendLog hs

theorem Keeps.bootStart {dramOk : Bool} (hs : Keeps False s₀ s) : Keeps False s₀ (s.bootStart dramOk) :=
  Keeps.ite hs (Keeps.ite hs.sameUnits.wr.wr.logLost.recovery hs.sameUnits.wr.wr.logLost.preStart.tryStarts)

/-! ### Mailbox -/

theorem Keeps.mboxDone {cause detail : Nat} (hs : Keeps False s₀ s) : Keeps False s₀ (s.mboxDone cause detail) :=
  hs.wr.wr.wr

theorem Keeps.mgcRead {a n : Nat} (hs : Keeps False s₀ s) : Keeps False s₀ (s.mgcRead a n).1 := by
  unfold State.mgcRead
  split
  · exact hs.l2Read
  · exact hs

theorem Keeps.mbox {cmd : Nat} {k : State → State} (hs : Keeps False s₀ s) (hk : ∀ {s}, Keeps False s₀ s → Keeps False s₀ (k s)) :
    Keeps False s₀ (s.mbox cmd k) :=
  Keeps.ite (hk hs.wr) hs

theorem Keeps.mboxRec {cmd n : Nat} {k : State → List Byte → State}
    (hs : Keeps False s₀ s) (hk : ∀ {s x1}, Keeps False s₀ s → Keeps False s₀ (k s x1)) :
    Keeps False s₀ (s.mboxRec cmd n k) := by
  unfold State.mboxRec
  dsimp only
  refine hs.mbox (fun hs1 => ?_)
  split
  next e => exact hk (hs1.mgcRead.of_fst e)
  next e => exact (hs1.mgcRead.of_fst e).mboxDone

theorem Keeps.finResult {a result detail size : Nat} (hs : Keeps False s₀ s) : Keeps False s₀ (s.finResult a result detail size) :=
  hs.physWrite.mboxDone

theorem Keeps.finModule {bs : List Byte} {out cap res : Nat} (hs : Keeps False s₀ s) :
    Keeps False s₀ (s.finModule bs out cap res) := by
  unfold State.finModule
  dsimp only
  split
  · exact hs.finResult
  · exact Keeps.ite hs.finResult hs.physWrite.sameUnits.finResult

theorem Keeps.finalise {r : List Byte} (hs : Keeps False s₀ s) : Keeps False s₀ (s.finalise r) := by
  unfold State.finalise
  dsimp only
  split
  · exact hs.mboxDone
  · split
    next e => exact (hs.mgcRead.of_fst e).mboxDone
    next e =>
      split
      · exact (hs.mgcRead.of_fst e).finResult
      · split
        · exact (hs.mgcRead.of_fst e).finResult
        · split
          next e2 => exact ((hs.mgcRead.of_fst e).mgcRead.of_fst e2).mboxDone
          next e2 => exact ((hs.mgcRead.of_fst e).mgcRead.of_fst e2).finModule

theorem Keeps.startFlash {target arg : Nat} (hs : Keeps False s₀ s) : Keeps False s₀ (s.startFlash target arg) :=
  hs.same

theorem Keeps.writeSlot {slot arg : Nat} {bs : List Byte} {i : Image} (hs : Keeps False s₀ s) :
    Keeps False s₀ (s.writeSlot slot arg bs i) :=
  hs.appendLog.setFlash.startFlash.showFw

theorem Keeps.fwPump {k fuel : Nat} (hs : Keeps False s₀ s) : Keeps False s₀ (s.fwPump k fuel) := by
  induction fuel generalizing s with
  | zero => exact hs
  | succ fuel ih =>
    rw [State.fwPump]
    split
    · exact hs
    · dsimp only
      split
      · exact hs
      · exact ih hs.same.feltReqOn

theorem Keeps.fwStart {total : Nat} (hs : Keeps False s₀ s) : Keeps False s₀ (s.fwStart total) :=
  hs.same.wr.wr.foldl fun hs1 => hs1.fwPump

theorem Keeps.fwStage {r : List Byte} (hs : Keeps False s₀ s) : Keeps False s₀ (s.fwStage r) := by
  unfold State.fwStage
  extract_lets
  split
  · exact hs.mboxDone
  · split
    · exact hs.mboxDone
    · split
      · exact hs.mboxDone
      · split
        · exact (Keeps.ite (Keeps.ite hs.fwStart hs).wr.raiseRing (Keeps.ite hs.fwStart hs)).mboxDone
        · exact (Keeps.ite hs.fwStart hs).wr.writeSlot

/-- A COMMIT raises the security version or leaves it, and revokes; it burns no other fuse. -/
theorem Keeps.fwCommit (hs : Keeps False s₀ s) : Keeps False s₀ s.fwCommit := by
  unfold State.fwCommit
  split
  · exact hs.mboxDone
  next i _ =>
    split
    · exact hs.mboxDone
    · extract_lets f _ _ s1 rev _ _ s2 s3 _ s4
      have h1 : Keeps False s₀ s1 := by
        unfold s1
        split
        next hlt =>
          have hraise : Keeps False s₀ { s with mgc := { s.mgc with fuses := { f with svn := i.svn } } } :=
            { hs with fuses := { hs.fuses with svn := hs.fuses.svn.trans hlt.le }, work := False.elim }
          exact hraise.appendLog
        · exact hs
      have h2 : Keeps False s₀ s2 := { h1 with fuses := { h1.fuses with }, work := False.elim }
      have h4 : Keeps False s₀ s4 := h2.appendLog.sameUnits
      exact h4.wr.showFw.mboxDone

theorem Keeps.fwRevert (hs : Keeps False s₀ s) : Keeps False s₀ s.fwRevert := by
  unfold State.fwRevert
  split
  · exact hs.mboxDone
  · exact hs.appendLog.showFw.mboxDone

theorem Keeps.attest {r : List Byte} (hs : Keeps False s₀ s) : Keeps False s₀ (s.attest r) := by
  unfold State.attest
  dsimp only
  exact Keeps.ite hs.mboxDone hs.takeFree.physWrite.mboxDone

theorem Keeps.identityCmd {r : List Byte} (hs : Keeps False s₀ s) : Keeps False s₀ (s.identityCmd r) :=
  Keeps.ite hs.mboxDone hs.physWrite.mboxDone

theorem Keeps.furnishWrite {r : List Byte} (hs : Keeps False s₀ s) : Keeps False s₀ (s.furnishWrite r) := by
  unfold State.furnishWrite
  dsimp only
  split
  · exact hs.mboxDone
  · split
    · exact hs.mboxDone
    · exact hs.wr.setFlash.startFlash

theorem Keeps.fwReport {image st : Nat} (hs : Keeps False s₀ s) : Keeps False s₀ (s.fwReport image st) :=
  hs.feltReq

theorem Keeps.fwOwnDone (hs : Keeps False s₀ s) : Keeps False s₀ s.fwOwnDone :=
  Keeps.ite hs.wr hs

theorem Keeps.flashDone {a : Act} (hs : Keeps False s₀ s) : Keeps False s₀ (s.flashDone a) := by
  unfold State.flashDone
  dsimp only
  split
  · split
    · exact hs.appendLog.showFw.fwOwnDone.mboxDone
    · split
      · exact hs.appendLog.showFw.fwReport
      · split
        · exact hs.appendLog.showFw.runImage
        · exact hs.appendLog.showFw
  · exact (Keeps.ite hs.saveSettings hs).mboxDone

theorem Keeps.setSvc {st cause : Nat} (hs : Keeps False s₀ s) : Keeps False s₀ (s.setSvc st cause) :=
  hs.sameUnits

/-- A download keeps the canonical form of its buffer. -/
theorem Keeps.svcWrite {off : Nat} {bs : List Byte} (hs : Keeps False s₀ s) : Keeps False s₀ (s.svcWrite off bs) := by
  unfold State.svcWrite
  refine .ite hs.setSvc (Keeps.setSvc { hs with memories := fun w => ?_, work := False.elim })
  obtain ⟨hdram, hhost, htrace, hflash, hdownload⟩ := hs.memories w
  exact ⟨hdram, hhost, htrace, hflash, Mem.wf_write 0 _ off bs hdownload⟩

theorem Keeps.svcGo {option : Nat} (hs : Keeps False s₀ s) : Keeps False s₀ (s.svcGo option) := by
  unfold State.svcGo
  dsimp only
  split
  · exact hs.setSvc
  · exact Keeps.ite hs.setSvc.writeSlot hs.setSvc.runImage

/-! ### Membership -/

theorem Keeps.leaveRx {k : Nat} {m : Msg} (hs : Keeps False s₀ s) : Keeps False s₀ (s.leaveRx k m) :=
  Keeps.ite hs.setPort hs.setPort.pump

theorem Keeps.positionRecords (hs : Keeps False s₀ s) : Keeps False s₀ s.positionRecords :=
  hs.foldl fun hs1 => Keeps.ite (Keeps.ite hs1.raiseRing hs1).raiseRing (Keeps.ite hs1.raiseRing hs1)

theorem Keeps.endUnreachable {f : Req → Bool} (hs : Keeps False s₀ s) : Keeps False s₀ (s.endUnreachable f) :=
  hs.foldl fun hs1 => Keeps.ite hs1.endReq hs1

theorem Keeps.dropForwards {live : Nat} (hs : Keeps False s₀ s) : Keeps False s₀ (s.dropForwards live) :=
  hs.foldl fun hs1 => hs1.foldl fun hs2 => hs2.leaveRx

theorem Keeps.resend (hs : Keeps False s₀ s) : Keeps False s₀ s.resend :=
  hs.foldl fun hs1 => hs1.feltQueue

theorem Keeps.settleMembers {live : Nat} (hs : Keeps False s₀ s) : Keeps False s₀ (s.settleMembers live) := by
  unfold State.settleMembers
  dsimp only
  split
  · split
    · exact (hs.settleStops.foldl fun hs1 => hs1.invalAck).failDelta
    · exact (hs.settleStops.foldl fun hs1 => hs1.invalAck).failDelta
  · exact hs.settleStops.foldl fun hs1 => hs1.invalAck

theorem Keeps.installMembers {epoch live reach : Nat} (hs : Keeps False s₀ s) :
    Keeps False s₀ (s.installMembers epoch live reach) :=
  (Keeps.ite (Keeps.ite hs.wr.wr.wr.wr.wr
    hs.wr.wr.wr.wr).same.dropForwards.endUnreachable.resend.regrantColumns.settleMembers.fwPump.fwPump.loadFailed
    (Keeps.ite hs.wr.wr.wr.wr.wr
    hs.wr.wr.wr.wr).same.dropForwards.endUnreachable.resend.regrantColumns.settleMembers.fwPump.fwPump).raiseRing.pumpAll

theorem Keeps.sendMembership (hs : Keeps False s₀ s) : Keeps False s₀ s.sendMembership := by
  unfold State.sendMembership
  extract_lets reach live epoch s1 sent _ s2 s3
  have h1 : Keeps False s₀ s1 := Keeps.foldl hs fun h => h.feltReqBy
  have h2 : Keeps False s₀ s2 := h1.same
  have h3 : Keeps False s₀ s3 := h2.installMembers
  exact h3.same

theorem Keeps.admitStep (hs : Keeps False s₀ s) : Keeps False s₀ s.admitStep :=
  Keeps.ite hs (Keeps.ite hs.sendMembership hs)

theorem Keeps.tokensDone (hs : Keeps False s₀ s) : Keeps False s₀ s.tokensDone :=
  (hs.positionRecords.foldl fun hs1 => Keeps.ite hs1 hs1.feltReqBy).admitStep

theorem Keeps.discover (hs : Keeps False s₀ s) : Keeps False s₀ s.discover :=
  Keeps.ite hs.same.tokensDone (hs.same.foldl fun hs1 => hs1.feltReqOn)

/-! ### Felt -/

theorem Keeps.linkChanged {k : Nat} (hs : Keeps False s₀ s) : Keeps False s₀ (s.linkChanged k) :=
  Keeps.ite hs.discover (Keeps.ite hs.feltReqBy hs)

theorem Keeps.portDown {k cause : Nat} (hs : Keeps False s₀ s) : Keeps False s₀ (s.portDown k cause) :=
  hs.setPort.wr.wr.count.raiseRing.wr.linkChanged

theorem Keeps.replayPort {k : Nat} (hs : Keeps False s₀ s) : Keeps False s₀ (s.replayPort k).1 := by
  unfold State.replayPort
  dsimp only
  split
  · exact hs
  · split
    · exact hs.count.portDown
    · exact hs.setPort.count

theorem Keeps.nakPort {k : Nat} (hs : Keeps False s₀ s) : Keeps False s₀ (s.nakPort k) :=
  Keeps.ite hs hs.setPort

theorem Keeps.forward {k fuel : Nat} (hs : Keeps False s₀ s) : Keeps False s₀ (s.forward k fuel) := by
  induction fuel generalizing s with
  | zero => exact hs
  | succ fuel ih =>
    rw [State.forward]
    split
    · exact hs
    · split
      · exact hs
      · exact ih hs.leaveRx.count.charge.feltPut

theorem Keeps.forwardAll (hs : Keeps False s₀ s) : Keeps False s₀ s.forwardAll :=
  hs.forward.forward

theorem Keeps.badFlit {k : Nat} (hs : Keeps False s₀ s) : Keeps False s₀ (s.badFlit k) :=
  hs.count.nakPort

theorem Keeps.acceptFlit {k : Nat} {fl : List Byte} {ms : List (List Byte)} (hs : Keeps False s₀ s) :
    Keeps False s₀ (s.acceptFlit k fl ms) := by
  unfold State.acceptFlit
  dsimp only
  exact hs.takeId.setPort.forward

theorem Keeps.goodFlit {k : Nat} {fl : List Byte} {ms : List (List Byte)} (hs : Keeps False s₀ s) :
    Keeps False s₀ (s.goodFlit k fl ms) :=
  (Keeps.ite hs.setPort.replayPort (Keeps.ite (Keeps.ite hs.setPort.acceptFlit
    (Keeps.ite hs.setPort hs.setPort.nakPort)) (Keeps.ite hs.setPort.setPort
    (Keeps.ite hs.setPort hs.setPort.nakPort)))).pump

theorem Keeps.flitReceive {k : Nat} {fl : List Byte} (hs : Keeps False s₀ s) : Keeps False s₀ (s.flitReceive k fl) := by
  unfold State.flitReceive
  split
  · exact hs
  · split
    · exact hs.badFlit
    · exact Keeps.ite hs.goodFlit hs.badFlit

theorem Keeps.takeMsg {k : Nat} {want : List Byte → Bool} {act : State → List Byte → State}
    (hs : Keeps False s₀ s) (hk : ∀ {s x1}, Keeps False s₀ s → Keeps False s₀ (act s x1)) :
    Keeps False s₀ (s.takeMsg k want act) := by
  unfold State.takeMsg
  split
  · exact hs
  · split
    · exact hk hs.leaveRx
    · exact hs

theorem Keeps.serve {m : List Byte} {act : State → State}
    (hs : Keeps False s₀ s) (hk : ∀ {s}, Keeps False s₀ s → Keeps False s₀ (act s)) :
    Keeps False s₀ (s.serve m act) := by
  unfold State.serve
  dsimp only
  split
  · exact Keeps.ite (hk hs) hs.feltQueue
  · exact Keeps.ite hs (hk hs)

theorem Keeps.replyTo {m : List Byte} {st : Nat} {data : List Byte} (hs : Keeps False s₀ s) :
    Keeps False s₀ (s.replyTo m st data) :=
  hs.feltCpl

theorem Keeps.serveRd {k : Nat} {m : List Byte} (hs : Keeps False s₀ s) : Keeps False s₀ (s.serveRd k m) := by
  unfold State.serveRd
  dsimp only
  split
  · exact hs.replyTo
  · split
    · exact hs.replyTo
    · split
      next e1 => exact (hs.l2Read.of_fst e1).replyTo
      next e1 => exact (hs.l2Read.of_fst e1).replyTo

theorem Keeps.serveWr {k : Nat} {m : List Byte} (hs : Keeps False s₀ s) : Keeps False s₀ (s.serveWr k m) := by
  unfold State.serveWr
  dsimp only
  split
  · exact hs.replyTo
  · split
    · exact hs.replyTo
    · split
      next e1 => exact (hs.l2Write.of_fst e1).replyTo
      next e1 => exact (hs.l2Write.of_fst e1).replyTo

theorem Keeps.serveAtom {k : Nat} {m : List Byte} (hs : Keeps False s₀ s) : Keeps False s₀ (s.serveAtom k m) := by
  unfold State.serveAtom
  dsimp only
  split
  · split
    · exact hs.replyTo
    · split
      · exact hs.replyTo
      · split
        next e2 => exact (hs.l2Atomic.of_fst e2).replyTo
        next e2 => exact (hs.l2Atomic.of_fst e2).replyTo
  · split
    · exact hs.replyTo
    · split
      · exact hs.replyTo
      · split
        next e1 => exact (hs.l2Atomic.of_fst e1).replyTo
        next e1 => exact (hs.l2Atomic.of_fst e1).replyTo

theorem Keeps.serveSignal {m : List Byte} (hs : Keeps False s₀ s) : Keeps False s₀ (s.serveSignal m) := by
  unfold State.serveSignal
  dsimp only
  split
  · exact hs.raisePart.replyTo
  · split
    next e => exact (hs.synServe.of_fst e).replyTo
    next e => exact hs.synServe.of_fst e
    next e => exact (hs.synServe.of_fst e).replyTo

theorem Keeps.serveEvt {m : List Byte} (hs : Keeps False s₀ s) : Keeps False s₀ (s.serveEvt m) :=
  Keeps.ite hs.migFault (Keeps.ite hs.tearDownHome.replyTo hs.raise.replyTo)

/-! ### Graphs -/

theorem Keeps.commitVersion {c : Cmd} {graph : Nat} {nodes : List (List Byte)} (hs : Keeps False s₀ s) :
    Keeps False s₀ (s.commitVersion c graph nodes) := by
  obtain ⟨write, hdef, hwrite⟩ : ∃ f, @State.vWrite = f ∧ ∀ {s a who p va bs}, Keeps False s₀ s →
      Keeps False s₀ (f s a who p va bs).1 := ⟨_, rfl, Keeps.vWrite⟩
  obtain ⟨foot, hdef', hfoot⟩ : ∃ f, @State.footprints = f ∧ ∀ {s a who p rs}, Keeps False s₀ s →
      Keeps False s₀ (f s a who p rs).1 := ⟨_, rfl, Keeps.footprints⟩
  conv in State.commitVersion => delta State.commitVersion
  rw [hdef, hdef']
  extract_lets store off
  split
  next e =>
    have h0 := hs.takeFree.of_snd e
    extract_lets bytes
    split
    next e1 => exact ((hfoot h0).of_fst e1).cmdFail
    next e1 =>
      have h1 := (hfoot h0).of_fst e1
      extract_lets s2 s3 ver old _ s4
      have h3 : Keeps False s₀ s3 := hwrite (hwrite h1)
      have h4 : Keeps False s₀ s4 := h3.same
      exact h4.retireVersions.handDone

theorem Keeps.offerVersion {c : Cmd} {graph : Nat} {nodes : List (List Byte)} (hs : Keeps False s₀ s) :
    Keeps False s₀ (s.offerVersion c graph nodes) := by
  unfold State.offerVersion
  split
  · exact hs.handDone
  · split
    · exact hs.modCmd
    · exact Keeps.ite hs.handDone hs.commitVersion

theorem Keeps.patchReplace {c : Cmd} (hs : Keeps False s₀ s) : Keeps False s₀ (s.patchReplace c) := by
  unfold State.patchReplace
  dsimp only
  split
  · exact hs.handDone
  · split
    · exact hs.handDone
    · split
      next e => exact (hs.vRead.of_fst e).cmdFail
      next e => exact (hs.vRead.of_fst e).offerVersion

theorem Keeps.patchEdit {c : Cmd} (hs : Keeps False s₀ s) : Keeps False s₀ (s.patchEdit c) := by
  unfold State.patchEdit
  dsimp only
  split
  · exact hs.handDone
  · split
    · exact hs.handDone
    · split
      · exact hs.handDone
      · split
        next e1 => exact (hs.vRead.of_fst e1).cmdFail
        next e1 =>
          split
          · exact (hs.vRead.of_fst e1).handDone
          · exact (hs.vRead.of_fst e1).offerVersion

theorem Keeps.patchDelete {c : Cmd} (hs : Keeps False s₀ s) : Keeps False s₀ (s.patchDelete c) :=
  Keeps.ite hs.handDone hs.same.retireVersions.handDone

theorem Keeps.graphLaunchCmd {c : Cmd} (hs : Keeps False s₀ s) : Keeps False s₀ (s.graphLaunchCmd c) := by
  unfold State.graphLaunchCmd
  dsimp only
  split
  · refine Keeps.hand ?_
    split
    · exact hs.takeId.same.takeId.same
    · exact hs.takeId.same
  · refine Keeps.handDone ?_
    split
    · exact hs.takeId.same.takeId.same
    · exact hs.takeId.same

/-! ### Sched -/

theorem Keeps.poolGrant (hs : Keeps False s₀ s) : Keeps False s₀ s.poolGrant := by
  unfold State.poolGrant
  dsimp only
  split
  · exact hs.poolStep.setVat
  · exact hs.poolStep

theorem Keeps.sliceExpiry {p : Nat} (hs : Keeps False s₀ s) : Keeps False s₀ (s.sliceExpiry p) :=
  Keeps.ite (hs.updateWaiting.foldl fun hs1 => hs1.preempt) hs.updateWaiting

theorem Keeps.detachTile {vat launch : Nat} (hs : Keeps False s₀ s) : Keeps False s₀ (s.detachTile vat launch) := by
  unfold State.detachTile
  split
  · exact Keeps.ite hs.setPass hs
  · exact hs

theorem Keeps.freeVat {vat : Nat} (hs : Keeps False s₀ s) : Keeps False s₀ (s.freeVat vat) :=
  Keeps.ite hs.setVat.returnLent hs

theorem Keeps.leaveVat {vat b : Nat} {x : Saved} {qs : List (Nat × Quire)} (hs : Keeps False s₀ s) :
    Keeps False s₀ (s.leaveVat vat b x qs) :=
  ((hs.foldl fun hs1 => hs1.moveOwner).foldl fun hs1 =>
    hs1.wr).same.removeBlock.detachTile.settlePreempt.freeVat.poolStep

theorem Keeps.saveDone {vat b : Nat} (hs : Keeps False s₀ s) : Keeps False s₀ (s.saveDone vat b) := by
  unfold State.saveDone
  dsimp only
  split
  · exact hs
  · split
    · split
      next e2 => exact (hs.takeFree.vWrite.of_fst e2).failTile
      next e2 => exact (hs.takeFree.vWrite.of_fst e2).leaveVat
    · exact hs

theorem Keeps.dlEnable {e : Nat} {en : Bool} (hs : Keeps False s₀ s) : Keeps False s₀ (s.dlEnable e en) :=
  Keeps.ite (Keeps.ite hs hs.wr) hs.same

theorem Keeps.abortFrame {run : Nat} (hs : Keeps False s₀ s) : Keeps False s₀ (s.abortFrame run) :=
  hs.modRun.runCheck

theorem Keeps.frameBehind {fr : Frame} (hs : Keeps False s₀ s) : Keeps False s₀ (s.frameBehind fr) :=
  Keeps.ite hs.wr.wr.count.abortFrame hs.wr.wr.count

theorem Keeps.dlCheckpoint {e frame : Nat} (hs : Keeps False s₀ s) : Keeps False s₀ (s.dlCheckpoint e frame) := by
  unfold State.dlCheckpoint
  dsimp only
  split
  · exact hs
  · split
    · exact hs
    · split
      · exact hs.same
      · exact Keeps.ite hs.same.frameBehind hs.same

theorem Keeps.deadlineRequest (hs : Keeps False s₀ s) : Keeps False s₀ s.deadlineRequest := by
  unfold State.deadlineRequest
  extract_lets lend now pick s1
  have h1 : Keeps False s₀ s1 := Keeps.foldl hs fun h => by
    split
    · exact .ite h h.preempt
    · exact h
  exact .ite hs.count h1.same.lendChosen

theorem Keeps.reload {a r : Nat} (hs : Keeps False s₀ s) : Keeps False s₀ (s.reload a r) := by
  unfold State.reload
  split
  · exact Keeps.ite hs hs.wr

theorem Keeps.stuffPeriod (hs : Keeps False s₀ s) : Keeps False s₀ s.stuffPeriod := by
  unfold State.stuffPeriod
  extract_lets s1 _ s2
  have h1 : Keeps False s₀ s1 := Keeps.foldl hs fun h => h.reload.reload.reload.reload
  have h2 : Keeps False s₀ s2 := Keeps.foldl h1.same fun h => h.geoStep
  exact h2.forwardAll.pumpAll

/-! ### Calender -/

theorem Keeps.raiseCal {e : Ev} (hs : Keeps False s₀ s) : Keeps False s₀ (s.raiseCal e) := by
  unfold State.raiseCal
  split
  · exact hs.raisePart
  · exact hs.raise

theorem Keeps.refuseArm {h k err : Nat} (hs : Keeps False s₀ s) : Keeps False s₀ (s.refuseArm h k err) :=
  Keeps.ite hs.wr.wr.endLead hs.wr.wr

theorem Keeps.armPlane {h k : Nat} (hs : Keeps False s₀ s) : Keeps False s₀ (s.armPlane h k) :=
  Keeps.ite (Keeps.ite hs.count hs).refuseArm (Keeps.ite (Keeps.ite hs.count hs).wr.refuseArm (Keeps.ite
    (Keeps.ite hs.count hs).refuseArm (Keeps.ite (Keeps.ite hs.count hs).wr.wallHook (Keeps.ite hs.count hs).wr)))

theorem Keeps.writePlaneCtrl {h k data : Nat} (hs : Keeps False s₀ s) : Keeps False s₀ (s.writePlaneCtrl h k data) :=
  Keeps.ite hs.wr.wr.wr.wr.armPlane hs.wr.wr.wr.wr

theorem Keeps.latchPlane {h k : Nat} (hs : Keeps False s₀ s) : Keeps False s₀ (s.latchPlane h k) :=
  hs.same.wr

theorem Keeps.holdFrame {h : Nat} (hs : Keeps False s₀ s) : Keeps False s₀ (s.holdFrame h) :=
  hs.count.raiseCal

theorem Keeps.blankPlane {h k : Nat} (hs : Keeps False s₀ s) : Keeps False s₀ (s.blankPlane h k) :=
  Keeps.ite hs (Keeps.ite hs.holdFrame (Keeps.ite hs.latchPlane.endLead hs.latchPlane))

theorem Keeps.blank {h : Nat} (hs : Keeps False s₀ s) : Keeps False s₀ (s.blank h) :=
  hs.same.foldl fun hs1 => hs1.blankPlane

theorem Keeps.leadNow {h : Nat} (hs : Keeps False s₀ s) : Keeps False s₀ (s.leadNow h) :=
  Keeps.ite hs.same.deadlineRequest hs

theorem Keeps.trained {h : Nat} {link : Option (Fin 4 × Fin 3)} (hs : Keeps False s₀ s) : Keeps False s₀ (s.trained h link) :=
  Keeps.ite hs hs.wr.wr.setFunc

theorem Keeps.raiseHpd {h what : Nat} (hs : Keeps False s₀ s) : Keeps False s₀ (s.raiseHpd h what) :=
  hs.raiseCal

theorem Keeps.unplug {h : Nat} (hs : Keeps False s₀ s) : Keeps False s₀ (s.unplug h) :=
  Keeps.ite hs (Keeps.ite hs.wr.wr.endLead.setFunc hs.wr).raiseHpd

theorem Keeps.lineFail {h k : Nat} (hs : Keeps False s₀ s) : Keeps False s₀ (s.lineFail h k) :=
  hs.same.wr

/-! ### Geometry -/

theorem Keeps.setRefusing {key : Nat} {on : Bool} (hs : Keeps False s₀ s) : Keeps False s₀ (s.setRefusing key on) :=
  hs.same

theorem Keeps.refuseHand {c : Cmd} {reason : Nat} (hs : Keeps False s₀ s) : Keeps False s₀ (s.refuseHand c reason) :=
  Keeps.ite hs.hand.geoRefuse.setRefusing hs.hand.geoRefuse

theorem Keeps.openPass {c : Cmd} {x : Pass} (hs : Keeps False s₀ s) : Keeps False s₀ (s.openPass c x) :=
  hs.hand.same.showPass.setResult

theorem Keeps.beginHand {c : Cmd} (hs : Keeps False s₀ s) : Keeps False s₀ (s.beginHand c) := by
  unfold State.beginHand
  split
  · exact hs.refuseHand
  · split
    · exact hs
    · split
      · exact hs
      · split
        · exact hs.refuseHand
        · split
          next e1 => exact (hs.vRead.of_fst e1).cmdFail
          next e1 =>
            extract_lets
            split
            · exact (hs.vRead.of_fst e1).refuseHand
            · split
              · exact (hs.vRead.of_fst e1).openPass
              · split
                next e3 => exact ((hs.vRead.of_fst e1).geoWrites.of_fst e3).cmdFail
                next e3 => exact ((hs.vRead.of_fst e1).geoWrites.of_fst e3).openPass

theorem Keeps.readIndices {c : Cmd} {d : List Byte} (hs : Keeps False s₀ s) : Keeps False s₀ (s.readIndices c d).1 := by
  unfold State.readIndices
  split
  · exact hs
  · split
    next e => exact hs.vRead.of_fst e
    next e => exact hs.vRead.of_fst e

theorem Keeps.addDraw {c : Cmd} {x : Pass} {d : List Byte} {v : Launch} {fr : Option Launch} {ids : List Nat}
    (hs : Keeps False s₀ s) :
    Keeps False s₀ (s.addDraw c x d v fr ids) :=
  (Keeps.ite (Keeps.ite hs.hand.putPass hs.hand.putPass.setLaunch).setResult
    (Keeps.ite hs.hand.putPass hs.hand.putPass.setLaunch)).binPass.poolStep

theorem Keeps.drawLaunch {c : Cmd} {addr : Nat} {use : LaunchUse} (hs : Keeps False s₀ s) :
    Keeps False s₀ (s.drawLaunch c addr use).1 := by
  obtain ⟨read, hdef, hread⟩ : ∃ f, @State.readLaunch = f ∧ ∀ {s p who addr id use}, Keeps False s₀ s →
      Keeps False s₀ (f s p who addr id use).1 := ⟨_, rfl, Keeps.readLaunch⟩
  conv in State.drawLaunch => delta State.drawLaunch
  rw [hdef]
  split
  next e =>
    have h0 := hs.takeId.of_snd e
    split
    next e1 => exact (hread h0).of_fst e1
    next e1 => exact (hread h0).of_fst e1
    next e1 => exact (hread h0).of_fst e1

/-- The state that a refused or failed launch of a draw ends with. -/
theorem Keeps.drawLaunch_error {c : Cmd} {addr : Nat} {use : LaunchUse} {t : State} (hs : Keeps False s₀ s)
    (e : (s.drawLaunch c addr use).2 = .error t) : Keeps False s₀ t := by
  obtain ⟨read, hdef, hread⟩ : ∃ f, @State.readLaunch = f ∧ ∀ {s p who addr id use}, Keeps False s₀ s →
      Keeps False s₀ (f s p who addr id use).1 := ⟨_, rfl, Keeps.readLaunch⟩
  conv at e in State.drawLaunch => delta State.drawLaunch
  rw [hdef] at e
  split at e
  next e0 =>
    have h0 := hs.takeId.of_snd e0
    split at e
    next e1 => exact Except.error.inj e ▸ ((hread h0).of_fst e1).cmdFail
    next e1 =>
      have h1 := (hread h0).of_fst e1
      exact Except.error.inj e ▸ .ite h1.refuseHand h1.handDone
    · cases e

theorem Keeps.drawRead {c : Cmd} {x : Pass} {d : List Byte} (hs : Keeps False s₀ s) : Keeps False s₀ (s.drawRead c x d) := by
  obtain ⟨read, hdef, hread, herror⟩ : ∃ f, @State.drawLaunch = f ∧
      (∀ {s c addr use}, Keeps False s₀ s → Keeps False s₀ (f s c addr use).1) ∧
      ∀ {s c addr use t}, Keeps False s₀ s → (f s c addr use).2 = .error t → Keeps False s₀ t :=
    ⟨_, rfl, Keeps.drawLaunch, Keeps.drawLaunch_error⟩
  conv in State.drawRead => delta State.drawRead
  rw [hdef]
  split
  next e => exact herror hs (congrArg Prod.snd e)
  next e =>
    have h1 := (hread hs).of_fst e
    split
    next e1 => exact (h1.readIndices.of_fst e1).cmdFail
    next e1 =>
      have h2 := h1.readIndices.of_fst e1
      split
      · exact h2.addDraw
      · split
        next e2 => exact herror h2 (congrArg Prod.snd e2)
        next e2 => exact ((hread h2).of_fst e2).addDraw

theorem Keeps.drawHand {c : Cmd} (hs : Keeps False s₀ s) : Keeps False s₀ (s.drawHand c) := by
  obtain ⟨read, hdef, hread⟩ : ∃ f, @State.vRead = f ∧ ∀ {s a who p va n}, Keeps False s₀ s →
      Keeps False s₀ (f s a who p va n).1 := ⟨_, rfl, Keeps.vRead⟩
  obtain ⟨draw, hdef', hdraw⟩ : ∃ f, @State.drawRead = f ∧ ∀ {s c x d}, Keeps False s₀ s → Keeps False s₀ (f s c x d) :=
    ⟨_, rfl, Keeps.drawRead⟩
  conv in State.drawHand => delta State.drawHand
  rw [hdef, hdef']
  refine .ite hs.refuseHand ?_
  split
  · exact hs.refuseHand
  · refine .ite hs.handDone ?_
    split
    next e => exact ((hread hs).of_fst e).cmdFail
    next e =>
      have h1 := (hread hs).of_fst e
      refine .ite h1.refuseHand (.ite h1.refuseHand ?_)
      extract_lets r
      have hr : Keeps False s₀ r := hdraw h1
      clear_value r
      split
      · exact .ite hr.same hr
      · exact hr

theorem Keeps.endHand {c : Cmd} (hs : Keeps False s₀ s) : Keeps False s₀ (s.endHand c) := by
  unfold State.endHand
  dsimp only
  split
  · exact hs.refuseHand.setRefusing
  · split
    · exact hs.refuseHand
    · exact Keeps.ite hs.takeFree.dropPass.showPass.handDone hs.hand.setPass.binPass.poolStep

theorem Keeps.loadTile {x : Pass} {tile : Nat} (hs : Keeps False s₀ s) : Keeps False s₀ (s.loadTile x tile).1 := by
  unfold State.loadTile
  dsimp only
  split
  · split
    next e1 => exact hs.vRead.of_fst e1
    next e1 => exact hs.vRead.of_fst e1
  · split
    next e1 => exact hs.geoReads.of_fst e1
    next e1 => exact hs.geoReads.of_fst e1

theorem Keeps.startTile {x : Pass} {tile : Nat} {vat : Option Nat} {px : List (List Nat)} (hs : Keeps False s₀ s) :
    Keeps False s₀ (s.startTile x tile vat px) := by
  unfold State.startTile
  extract_lets prims x1 s1 t
  have h1 : Keeps False s₀ s1 := by
    unfold s1
    split
    · exact hs.wakeNow
    · exact hs
  split
  next e => exact (h1.advanceTile.of_fst e).putPass

theorem Keeps.tileDispatch {p : Nat} (hs : Keeps False s₀ s) : Keeps False s₀ (s.tileDispatch p) := by
  unfold State.tileDispatch
  dsimp only
  split
  · exact hs
  · split
    · exact hs
    · split
      · split
        · exact hs
        · split
          next e3 => exact (hs.geoWrites.of_fst e3).failTile
          next e3 =>
            split
            next e4 => exact ((hs.geoWrites.of_fst e3).loadTile.of_fst e4).failTile
            next e4 => exact ((hs.geoWrites.of_fst e3).loadTile.of_fst e4).startTile
      · split
        · exact hs
        · split
          next e2 => exact (hs.geoWrites.of_fst e2).failTile
          next e2 =>
            split
            next e3 => exact ((hs.geoWrites.of_fst e2).loadTile.of_fst e3).failTile
            next e3 => exact ((hs.geoWrites.of_fst e2).loadTile.of_fst e3).startTile

theorem Keeps.couchWrites {x : Pass} {t : TileRun} (hs : Keeps False s₀ s) : Keeps False s₀ (s.couchWrites x t).1 := by
  unfold State.couchWrites
  split
  · split
    next e1 => exact hs.takeFree.of_snd e1
  · exact hs

theorem Keeps.leaveTile {t : TileRun} (hs : Keeps False s₀ s) : Keeps False s₀ (s.leaveTile t) := by
  unfold State.leaveTile
  split
  · exact hs.settlePreempt.freeVat
  · exact hs

theorem Keeps.couch {p tile : Nat} (hs : Keeps False s₀ s) : Keeps False s₀ (s.couch p tile) := by
  unfold State.couch
  dsimp only
  split
  · exact hs
  · split
    next e1 => exact (hs.couchWrites.geoWrites.of_fst e1).failTile
    next e1 => exact (hs.couchWrites.geoWrites.of_fst e1).putPass.leaveTile.endPass

theorem Keeps.brokeSpilled {p : Nat} (hs : Keeps False s₀ s) : Keeps False s₀ (s.brokeSpilled p) := by
  unfold State.brokeSpilled
  split
  · exact hs
  · split
    · exact hs
    · split
      next e1 => exact (hs.geoWrites.of_fst e1).failTile
      next e1 => exact (hs.geoWrites.of_fst e1).putPass.binPass

theorem Keeps.growGrant {p size : Nat} (hs : Keeps False s₀ s) : Keeps False s₀ (s.growGrant p size) := by
  unfold State.growGrant
  dsimp only
  split
  · exact hs.wr.wr
  · exact Keeps.ite hs.wr.wr hs.wr.wr.wr.wr.count.putPass.binPass

theorem Keeps.growEnd {p cause : Nat} (hs : Keeps False s₀ s) : Keeps False s₀ (s.growEnd p cause) := by
  unfold State.growEnd
  split
  · exact hs
  · exact hs.fallBack.poolStep

theorem Keeps.scanGate {c : Cmd} {sel : List Byte} (hs : Keeps False s₀ s) : Keeps False s₀ (s.scanGate c sel).1 := by
  obtain ⟨read, hdef, hread⟩ : ∃ f, @State.vRead = f ∧ ∀ {s a who p va n}, Keeps False s₀ s →
      Keeps False s₀ (f s a who p va n).1 := ⟨_, rfl, Keeps.vRead⟩
  conv in State.scanGate => delta State.scanGate
  rw [hdef]
  split
  next e => exact (hread hs).of_fst e
  next e =>
    have h1 := (hread hs).of_fst e
    split
    · exact h1
    · extract_lets n
      split
      next e1 => exact (hread h1).of_fst e1
      next e1 => exact (hread h1).of_fst e1

theorem Keeps.gatedRead {c : Cmd} {l : Launch} (hs : Keeps False s₀ s) : Keeps False s₀ (s.gatedRead c l) := by
  obtain ⟨read, hdef, hread⟩ : ∃ f, @State.vRead = f ∧ ∀ {s a who p va n}, Keeps False s₀ s →
      Keeps False s₀ (f s a who p va n).1 := ⟨_, rfl, Keeps.vRead⟩
  obtain ⟨scan, hdef', hscan⟩ : ∃ f, @State.scanGate = f ∧ ∀ {s c sel}, Keeps False s₀ s → Keeps False s₀ (f s c sel).1 :=
    ⟨_, rfl, Keeps.scanGate⟩
  conv in State.gatedRead => delta State.gatedRead
  rw [hdef, hdef']
  split
  next e => exact ((hread hs).of_fst e).cmdFail
  next e =>
    have h1 := (hread hs).of_fst e
    refine .ite h1.refuseHand ?_
    split
    next e1 => exact ((hscan h1).of_fst e1).cmdFail
    next e1 => exact ((hscan h1).of_fst e1).refuseHand
    next e1 =>
      have h2 := (hscan h1).of_fst e1
      exact .ite h2.handDone h2.startLaunch

theorem Keeps.gatedHand {c : Cmd} (hs : Keeps False s₀ s) : Keeps False s₀ (s.gatedHand c) := by
  obtain ⟨read, hdef, hread⟩ : ∃ f, @State.readLaunch = f ∧ ∀ {s p who addr id use}, Keeps False s₀ s →
      Keeps False s₀ (f s p who addr id use).1 := ⟨_, rfl, Keeps.readLaunch⟩
  obtain ⟨gate, hdef', hgate⟩ : ∃ f, @State.gatedRead = f ∧ ∀ {s c l}, Keeps False s₀ s → Keeps False s₀ (f s c l) :=
    ⟨_, rfl, Keeps.gatedRead⟩
  conv in State.gatedHand => delta State.gatedHand
  rw [hdef, hdef']
  refine .ite hs ?_
  split
  next e =>
    have h0 := hs.takeId.of_snd e
    split
    next e1 => exact ((hread h0).of_fst e1).cmdFail
    next e1 => exact ((hread h0).of_fst e1).handDone
    next e1 =>
      have h1 := (hread h0).of_fst e1
      extract_lets r
      have hr : Keeps False s₀ r := hgate h1
      clear_value r
      split
      · exact .ite hr.same hr
      · exact hr

/-! ### Objects -/

theorem Keeps.objRequest {fn p op type handle : Nat} {act : State → ObjOut} (hs : Keeps False s₀ s)
    (hk : ∀ {s t}, Keeps False s₀ s → act s = .ok t → Keeps False s₀ t) : Keeps False s₀ (s.objRequest fn p op type handle act) := by
  unfold State.objRequest
  extract_lets s1
  have h1 : Keeps False s₀ s1 := hs.wr.wr.wr
  refine .ite hs ?_
  split
  · exact h1.wr
  next e =>
    split at e
    · exact (hk h1 e).wr
    · exact absurd e (by simp)

theorem Keeps.clearLatch {h : Nat} (hs : Keeps False s₀ s) : Keeps False s₀ (s.clearLatch h) :=
  hs.same

theorem Keeps.dropLock {h : Nat} (hs : Keeps False s₀ s) : Keeps False s₀ (s.dropLock h) :=
  Keeps.ite hs.same.wr hs

theorem Keeps.valueWrite {h : Nat} {low : Option Word} {high : Word} (hs : Keeps False s₀ s) :
    Keeps False s₀ (s.valueWrite h low high) :=
  Keeps.ite hs.clearLatch.signal hs.clearLatch.setValue

theorem Keeps.waitRetry {w : Wait} (hs : Keeps False s₀ s) : Keeps False s₀ (s.waitRetry w) :=
  Keeps.ite hs hs.setWaits

theorem Keeps.waitNotice {w : Wait} {st : Nat} (hs : Keeps False s₀ s) : Keeps False s₀ (s.waitNotice w st) := by
  unfold State.waitNotice
  split
  · split
    next e1 => exact (hs.takeFree.of_snd e1).endWait
  · exact hs.endWait

/-! ### Events -/

theorem Keeps.tripRecord {t : Nat} (hs : Keeps False s₀ s) : Keeps False s₀ (s.tripRecord t) := by
  unfold State.tripRecord
  dsimp only
  split
  · exact hs
  · exact Keeps.ite hs.same.raiseShared hs

theorem Keeps.evqOn {t size : Nat} (hs : Keeps False s₀ s) : Keeps False s₀ (s.evqOn t size) :=
  Keeps.ite hs (Keeps.ite hs.wr hs.same.wr.tripRecord)

theorem Keeps.evqConsume {t v : Nat} (hs : Keeps False s₀ s) : Keeps False s₀ (s.evqConsume t v) :=
  Keeps.ite hs (Keeps.ite hs.wr.msix hs.wr)

theorem Keeps.evqUnmask {t mask : Nat} (hs : Keeps False s₀ s) : Keeps False s₀ (s.evqUnmask t mask) :=
  hs.wr.foldl fun hs1 => hs1.evPost

/-! ### Resets -/

/-- A warm or device reset keeps DRAM, the host's memory and flash, and empties the rest or keeps it. -/
theorem Keeps.resetChip (hs : Keeps False s₀ s) : Keeps False s₀ s.resetChip where
  work := False.elim
  pending := by
    unfold State.resetChip
    exact hs.pending
  dram := hs.dram
  gradeB := hs.gradeB
  fuses := hs.fuses
  memories w := by
    obtain ⟨hdram, hhost, htrace, hflash, -⟩ := hs.memories w
    refine ⟨hdram, hhost, ?_, hflash, rfl⟩
    show Mem.wf 0 (if s.featureOn 0x0D then s.mem.trace else []) = true
    split
    · exact htrace
    · rfl

theorem Keeps.pcieReset (hs : Keeps False s₀ s) : Keeps False s₀ s.pcieReset :=
  hs.same

theorem Keeps.pcieFlr (hs : Keeps False s₀ s) : Keeps False s₀ s.pcieFlr :=
  hs.same

theorem Keeps.deviceReset {st : Nat} (hs : Keeps False s₀ s) : Keeps False s₀ (s.deviceReset st) := by
  unfold State.deviceReset
  extract_lets lost s1 _ s2
  have h1 : Keeps False s₀ s1 := hs.resetChip.wr.count
  have h2 : Keeps False s₀ s2 := h1.sameUnits
  exact .ite hs.count h2.wr

/-- A cold reset keeps the host's memory and flash, and empties the rest. -/
theorem Keeps.coldReset (hs : Keeps False s₀ s) : Keeps False s₀ s.coldReset where
  work := False.elim
  pending := hs.pending
  dram := hs.dram
  gradeB := hs.gradeB
  fuses := hs.fuses
  memories w := by
    obtain ⟨-, hhost, -, hflash, -⟩ := hs.memories w
    exact ⟨rfl, hhost, rfl, hflash, rfl⟩

theorem Keeps.warmReset {pin : ResetPin} (hs : Keeps False s₀ s) : Keeps False s₀ (s.warmReset pin) := by
  unfold State.warmReset
  dsimp only
  split
  · exact (Keeps.ite hs.resetChip.pcieReset hs).sameUnits
  · exact (Keeps.ite hs.resetChip.pcieReset hs).sameUnits

theorem Keeps.feltLow (hs : Keeps False s₀ s) : Keeps False s₀ s.feltLow :=
  hs.foldl fun hs1 => Keeps.ite hs1.wr hs1.wr.wr

end Sys2Proof.Machine
end

