-- ==== Sys2Proof/Proofs/KeepsRing.lean ====
section
/-!
PROOF. What the ring, the host link, maintenance and power keep (`Keeps`).
-/

namespace Sys2Proof.Machine

variable {s₀ s : State}

/-! ### Ring -/

theorem Keeps.fwPeer {k old : Nat} (hs : Keeps False s₀ s) : Keeps False s₀ (s.fwPeer k old) :=
  hs.same

theorem Keeps.portUp {k peer : Nat} {wide : Bool} (hs : Keeps False s₀ s) : Keeps False s₀ (s.portUp k peer wide) :=
  Keeps.ite (Keeps.ite hs.setPort.wr.wr.wr.fwPeer hs.setPort.wr.wr.wr).linkChanged.feltReqBy
    (Keeps.ite hs.setPort.wr.wr.wr.fwPeer hs.setPort.wr.wr.wr).linkChanged

theorem Keeps.trainFail {k cause : Nat} (hs : Keeps False s₀ s) : Keeps False s₀ (s.trainFail k cause) :=
  Keeps.ite hs.wr.count.setPort hs.wr.count.setPort.raiseRing

theorem Keeps.withdraw {v : Bool} (hs : Keeps False s₀ s) : Keeps False s₀ (s.withdraw v) :=
  Keeps.ite (hs.wr.foldl fun hs1 => Keeps.ite hs1.wr hs1.wr.wr) (Keeps.ite
    (hs.wr.foldl fun hs1 => Keeps.ite hs1.wakeNow.wr.wr hs1.wakeNow.wr) hs.wr)

theorem Keeps.discardSpan {p : Nat} (hs : Keeps False s₀ s) : Keeps False s₀ (s.discardSpan p) := by
  unfold State.discardSpan
  extract_lets c s1 s2 s3
  have h2 : Keeps False s₀ s2 := Keeps.foldl hs.emptyPreloads fun h => h.discardWork
  have h3 : Keeps False s₀ s3 := h2.dropLaunches.dropStops
  exact h3.same

theorem Keeps.orphan (hs : Keeps False s₀ s) : Keeps False s₀ s.orphan :=
  (hs.wr.raiseRing.foldl fun hs1 => hs1.discardSpan).same.endUnreachable

theorem Keeps.replyBy {k : Nat} {m : List Byte} {st : Nat} {data : List Byte} (hs : Keeps False s₀ s) :
    Keeps False s₀ (s.replyBy k m st data) :=
  hs.feltCplBy

theorem Keeps.ringctl {k sub : Nat} {act : State → List Byte → State}
    (hs : Keeps False s₀ s) (hk : ∀ {s x1}, Keeps False s₀ s → Keeps False s₀ (act s x1)) :
    Keeps False s₀ (s.ringctl k sub act) :=
  hs.takeMsg (fun hs1 => hs1.serve (fun hs2 => hk hs2))

theorem Keeps.tokenBack {k : Nat} {b : List Byte} (hs : Keeps False s₀ s) : Keeps False s₀ (s.tokenBack k b) :=
  Keeps.ite hs (Keeps.ite hs.same.tokensDone hs.same)

theorem Keeps.tokenOn {k : Nat} {b : List Byte} (hs : Keeps False s₀ s) : Keeps False s₀ (s.tokenOn k b) :=
  Keeps.ite (Keeps.ite hs.feltReqOn hs) hs.wr.feltReqOn

theorem Keeps.memberTeardown {p src tag : Nat} (hs : Keeps False s₀ s) : Keeps False s₀ (s.memberTeardown p src tag) := by
  unfold State.memberTeardown
  dsimp only
  exact Keeps.ite hs.dropMigrations.same (Keeps.ite hs.dropMigrations.same.dropLaunches.answerFuncs
    hs.dropMigrations.same.takeId.same)

theorem Keeps.serveFunc {m : List Byte} (hs : Keeps False s₀ s) : Keeps False s₀ (s.serveFunc m) :=
  Keeps.ite hs.memberTeardown (Keeps.ite (hs.same.foldl fun hs1 => hs1.beginStart)
    (hs.same.foldl fun hs1 => hs1.beginStop)).answerFuncs

theorem Keeps.serveColumn {m : List Byte} (hs : Keeps False s₀ s) : Keeps False s₀ (s.serveColumn m).1 := by
  obtain ⟨read, hdef, hread⟩ : ∃ f, @State.readLaunch = f ∧ ∀ {s p who addr id use}, Keeps False s₀ s →
      Keeps False s₀ (f s p who addr id use).1 := ⟨_, rfl, Keeps.readLaunch⟩
  conv in State.serveColumn => delta State.serveColumn
  rw [hdef]
  extract_lets b p col src
  split
  next e =>
    have h1 := hs.takeId.of_snd e
    split
    next e1 => exact (hread h1).of_fst e1
    next e1 => exact ((hread h1).of_fst e1).failTile.replyTo
    next e1 => exact ((hread h1).of_fst e1).replyTo.feltReq
    next e1 => exact ((hread h1).of_fst e1).setLaunch.replyTo

theorem Keeps.column {k : Nat} (hs : Keeps False s₀ s) : Keeps False s₀ (s.column k) := by
  unfold State.column
  dsimp only
  split
  · exact hs
  · split
    · exact hs
    · split
      · exact hs.leaveRx.serve (fun hs1 => hs1)
      · split
        next e1 => exact (hs.serveColumn.of_fst e1).leaveRx
        next e1 => exact hs.serveColumn.of_fst e1

theorem Keeps.fwResult {image st src : Nat} (hs : Keeps False s₀ s) : Keeps False s₀ (s.fwResult image st src) :=
  Keeps.ite hs (Keeps.ite hs.wr hs.wr)

theorem Keeps.fwComplete {image total : Nat} (hs : Keeps False s₀ s) : Keeps False s₀ (s.fwComplete image total) := by
  obtain ⟨check, hdef⟩ : ∃ f, @State.checkStaged = f := ⟨_, rfl⟩
  conv in State.fwComplete => delta State.fwComplete
  rw [hdef]
  extract_lets _ s1 fail slot
  have h1 : Keeps False s₀ s1 := hs.same
  have hfail {c : Nat} : Keeps False s₀ (fail c) := h1.fwReport.raiseRing
  refine .ite hfail ?_
  split
  · exact hfail
  · exact h1.writeSlot

theorem Keeps.fwRelay {k image off total : Nat} {data : List Byte} (hs : Keeps False s₀ s) :
    Keeps False s₀ (s.fwRelay k image off total data) :=
  Keeps.ite (Keeps.ite hs.feltReqOn hs).fwReport (Keeps.ite hs.feltReqOn hs)

theorem Keeps.fwStore {k image off total : Nat} {data : List Byte} (hs : Keeps False s₀ s) :
    Keeps False s₀ (s.fwStore k image off total data) := by
  unfold State.fwStore
  extract_lets f _ s1 s3 _ s4 s2
  have h1 : Keeps False s₀ s1 := hs.same
  have h3 : Keeps False s₀ s3 := h1.physWrite
  have h4 : Keeps False s₀ s4 := h3.same
  have h2 : Keeps False s₀ s2 := .ite (.ite h4.fwComplete h4) h1
  exact h2.fwPump

theorem Keeps.serveChunk {k : Nat} {m : List Byte} (hs : Keeps False s₀ s) : Keeps False s₀ (s.serveChunk k m) :=
  Keeps.ite hs.replyBy.fwStore hs.replyBy.fwRelay

theorem Keeps.fwEnd (hs : Keeps False s₀ s) : Keeps False s₀ s.fwEnd := by
  unfold State.fwEnd
  dsimp only
  split
  · exact hs
  · exact Keeps.ite hs (Keeps.ite (hs.same.foldl fun hs1 => hs1.fwPump) hs.same)

theorem Keeps.takeCpl {m : List Byte} (hs : Keeps False s₀ s) : Keeps False s₀ (s.takeCpl m) := by
  unfold State.takeCpl
  dsimp only
  split
  · exact hs
  · exact hs.endReq.admitStep.fwPump.fwPump.fwEnd.columnEnds

/-! ### Pci -/

theorem Keeps.unsupported (hs : Keeps False s₀ s) : Keeps False s₀ s.unsupported :=
  hs.same

theorem Keeps.completerAbort (hs : Keeps False s₀ s) : Keeps False s₀ s.completerAbort :=
  hs.same

theorem Keeps.winRead {off n : Nat} (hs : Keeps False s₀ s) : Keeps False s₀ (s.winRead off n) := by
  unfold State.winRead
  split
  · exact hs.unsupported
  · split
    next e => exact (hs.l2Read.of_fst e).same
    next e => exact (hs.l2Read.of_fst e).completerAbort

theorem Keeps.dropHostReq {id : Nat} (hs : Keeps False s₀ s) : Keeps False s₀ (s.dropHostReq id) :=
  hs.same

theorem Keeps.hostFail {r : Req} (hs : Keeps False s₀ s) : Keeps False s₀ (s.hostFail r) :=
  hs.dropHostReq.failOwner

theorem Keeps.hostAnswer {id : Nat} {status : HostCpl} {bytes : List Byte} (hs : Keeps False s₀ s) :
    Keeps False s₀ (s.hostAnswer id status bytes) := by
  unfold State.hostAnswer
  split
  · exact hs
  · split
    · exact Keeps.ite hs.dropHostReq.keep.wake hs
    · exact hs.aer.hostFail
    · exact hs.hostFail
    · exact hs.hostFail

theorem Keeps.sendPending {fn : Nat} (hs : Keeps False s₀ s) : Keeps False s₀ (s.sendPending fn) :=
  Keeps.ite (Keeps.ite hs.same hs.setFn) hs

theorem Keeps.fnSends {fn : Nat} (hs : Keeps False s₀ s) : Keeps False s₀ (s.fnSends fn) :=
  Keeps.ite hs.sendPending.evOwed hs.sendPending

theorem Keeps.flrStaged {p : Nat} (hs : Keeps False s₀ s) : Keeps False s₀ (s.flrStaged p) := by
  unfold State.flrStaged
  dsimp only
  split
  · exact hs
  · split
    · exact hs.failDelta
    · exact hs.same.unstage
    · exact hs

theorem Keeps.flrVf {k : Nat} (hs : Keeps False s₀ s) : Keeps False s₀ (s.flrVf k) :=
  Keeps.ite hs.same (Keeps.ite hs.same (Keeps.ite hs.same.wr.flrStaged.startReclaim hs.same.wr))

/-! ### RegView -/

theorem Keeps.wakeReg {a : RegAt} (hs : Keeps False s₀ s) : Keeps False s₀ (s.wakeReg a) := by
  unfold State.wakeReg
  split
  · exact Keeps.ite hs.wakeNow hs
  · exact hs

theorem Keeps.clearRc {a : RegAt} (hs : Keeps False s₀ s) : Keeps False s₀ (s.clearRc a) :=
  hs.foldl fun hs1 => hs1.wr

theorem Keeps.readEffect {a : RegAt} {v : Nat} (hs : Keeps False s₀ s) : Keeps False s₀ (s.readEffect a v) := by
  unfold State.readEffect
  split
  · exact hs.wr
  · exact hs.wr
  · exact hs

theorem Keeps.latchWords {a : RegAt} (hs : Keeps False s₀ s) : Keeps False s₀ (s.latchWords a) :=
  hs.foldl fun hs1 => hs1.same

theorem Keeps.readWord {a : RegAt} (hs : Keeps False s₀ s) : Keeps False s₀ (s.readWord a).1 := by
  unfold State.readWord
  dsimp only
  split
  · split
    · exact hs.wakeReg.latchWords.takeFree
    · exact hs.wakeReg.takeFree
  · exact hs.wakeReg.takeFree.clearRc.readEffect

/-! ### Board -/

theorem Keeps.smbRead {n v : Nat} (hs : Keeps False s₀ s) : Keeps False s₀ (s.smbRead n v) :=
  hs.takeFree.answer

/-! ### BpcFlow -/

theorem Keeps.stackFault {c : BCtx} {k : Nat} (hs : Keeps False s₀ s) : Keeps False s₀ (c.stackFault s k) :=
  hs.raiseFault

theorem Keeps.putSettle {c : BCtx} {q : Quire} (hs : Keeps False s₀ s) : Keeps False s₀ (c.putSettle s q) :=
  hs.put.settle

theorem Keeps.branch {c : BCtx} (hs : Keeps False s₀ s) : Keeps False s₀ (c.branch s) :=
  Keeps.ite hs.put (Keeps.ite hs.stackFault hs.put)

theorem Keeps.jump {c : BCtx} (hs : Keeps False s₀ s) : Keeps False s₀ (c.jump s) :=
  Keeps.ite hs.put hs.raiseFault

theorem Keeps.exitNow {c : BCtx} {q : Quire} (hs : Keeps False s₀ s) : Keeps False s₀ (c.exitNow s q) :=
  Keeps.ite hs.putSettle hs.put.retireBlock

theorem Keeps.arriveAt {c : BCtx} {n : Nat} {pred : Option Nat} (hs : Keeps False s₀ s) : Keeps False s₀ (c.arriveAt s n pred) := by
  unfold BCtx.arriveAt
  dsimp only
  split
  · exact hs
  · exact hs.setBlock

theorem Keeps.parkAt {c : BCtx} {n : Nat} {pred : Option Nat} (hs : Keeps False s₀ s) : Keeps False s₀ (c.parkAt s n pred) := by
  unfold BCtx.parkAt
  dsimp only
  split
  · exact hs.stackFault
  · exact hs.arriveAt.putSettle

/-! ### Freeze -/

theorem Keeps.flushCaches (hs : Keeps False s₀ s) : Keeps False s₀ s.flushCaches :=
  hs.foldl fun hs1 => hs1.setVat

theorem Keeps.freeze {source : Nat} (hs : Keeps False s₀ s) : Keeps False s₀ (s.freeze source) :=
  hs.feltLow.flushCaches.wr.wr.wr

theorem Keeps.freezeTrigger {source : Nat} (hs : Keeps False s₀ s) : Keeps False s₀ (s.freezeTrigger source) :=
  Keeps.ite hs.count hs.freeze

theorem Keeps.freezeGo {key : Nat} (hs : Keeps False s₀ s) : Keeps False s₀ (s.freezeGo key) :=
  Keeps.ite hs.freezeTrigger hs

theorem Keeps.bankRead {off n : Nat} (hs : Keeps False s₀ s) : Keeps False s₀ (s.bankRead off n).1 :=
  hs.wr.takeFree

theorem Keeps.apRead {off n : Nat} (hs : Keeps False s₀ s) : Keeps False s₀ (s.apRead off n).1 := by
  unfold State.apRead
  split
  · exact hs.takeFree
  · exact hs.bankRead

theorem Keeps.setIr {ir : Nat} (hs : Keeps False s₀ s) : Keeps False s₀ (s.setIr ir) :=
  hs.same

theorem Keeps.tapBypass {ir : Nat} (hs : Keeps False s₀ s) : Keeps False s₀ (s.tapBypass ir) :=
  hs.same

theorem Keeps.boundary {ir : Nat} {scan : List Bool} (hs : Keeps False s₀ s) : Keeps False s₀ (s.boundary ir scan) := by
  unfold State.boundary
  dsimp only
  exact Keeps.ite hs.tapBypass hs.takeFree.same

theorem Keeps.apCapture {off : Nat} (hs : Keeps False s₀ s) : Keeps False s₀ (s.apCapture off).1 := by
  unfold State.apCapture
  split
  · exact hs.apRead
  · split
    · refine Keeps.foldl_fst hs fun h => ?_
      split
      · exact h.readWord
      · exact h
    · exact hs

theorem Keeps.dbgWrite {off data : Nat} (hs : Keeps False s₀ s) : Keeps False s₀ (s.dbgWrite off data) :=
  Keeps.ite (Keeps.ite hs.freezeGo hs) (Keeps.ite hs.wr.wr hs)

/-! ### Maint -/

theorem Keeps.l2WriteBack {sec : Nat} {x : Sector} (hs : Keeps False s₀ s) : Keeps False s₀ (s.l2WriteBack sec x) :=
  Keeps.ite hs.wakeCtrl.writeSector.useDram hs

theorem Keeps.flushWb (hs : Keeps False s₀ s) : Keeps False s₀ s.flushWb :=
  (hs.foldl fun hs1 => hs1.l2WriteBack).sameUnits

theorem Keeps.flushInv (hs : Keeps False s₀ s) : Keeps False s₀ s.flushInv :=
  hs.sameUnits

theorem Keeps.flushSlice {slice : Nat} (hs : Keeps False s₀ s) : Keeps False s₀ (s.flushSlice slice) :=
  (hs.foldl fun hs1 => hs1.l2WriteBack).sameUnits

theorem Keeps.saveall {pa : Nat} (hs : Keeps False s₀ s) : Keeps False s₀ (s.saveall pa) := by
  unfold State.saveall
  dsimp only
  split
  · exact hs.wr
  · exact hs
  · exact hs.wr.wr.setRaws.useDram

theorem Keeps.actStart {a : Act} (hs : Keeps False s₀ s) : Keeps False s₀ (s.actStart a) := by
  unfold State.actStart
  dsimp only
  split
  · exact hs.same.wr
  · exact Keeps.ite hs.same.flushWb (Keeps.ite hs.same.flushInv hs.same.flushWb.flushInv)
  · exact Keeps.ite hs.saveall hs.same.saveall
  · exact hs.same

theorem Keeps.startWaiting {fuel : Nat} (hs : Keeps False s₀ s) : Keeps False s₀ (s.startWaiting fuel) := by
  induction fuel generalizing s with
  | zero => exact hs
  | succ fuel ih =>
    rw [State.startWaiting]
    split
    · exact hs
    · exact ih hs.same.actStart

theorem Keeps.resumePaused (hs : Keeps False s₀ s) : Keeps False s₀ s.resumePaused :=
  hs.same

theorem Keeps.maintSettle (hs : Keeps False s₀ s) : Keeps False s₀ s.maintSettle :=
  hs.startWaiting.resumePaused

theorem Keeps.maintDomain {d : Nat} (hs : Keeps False s₀ s) : Keeps False s₀ (s.maintDomain d) :=
  Keeps.ite hs.maintSettle (hs.same.foldl fun hs1 => Keeps.ite hs1 hs1.wr).maintSettle

theorem Keeps.actAsk {a : Act} (hs : Keeps False s₀ s) : Keeps False s₀ (s.actAsk a).1 := by
  unfold State.actAsk
  dsimp only
  split
  · exact hs
  · split
    · split
      · exact (hs.foldl fun hs1 => hs1.domWake).actStart
      · exact (hs.foldl fun hs1 => hs1.domWake).same
    · split
      · split
        · exact (hs.foldl fun hs1 => Keeps.ite hs1 hs1.domWake).actStart
        · exact (hs.foldl fun hs1 => Keeps.ite hs1 hs1.domWake).same
      · split
        · exact hs.actStart
        · exact hs.same

theorem Keeps.maintAsk {op act arg : Nat} {k : State → State × Nat}
    (hs : Keeps False s₀ s) (hk : ∀ {s}, Keeps False s₀ s → Keeps False s₀ (k s).1) :
    Keeps False s₀ (s.maintAsk op act arg k) := by
  unfold State.maintAsk
  split
  · split
    next e1 => exact ((hk hs.wr.wr.wr).of_fst e1).wr
  · exact hs

theorem Keeps.scrubStop (hs : Keeps False s₀ s) : Keeps False s₀ s.scrubStop :=
  hs.same.maintSettle

theorem Keeps.ctrlAsk {act c : Nat} (hs : Keeps False s₀ s) : Keeps False s₀ (s.ctrlAsk act c) := by
  unfold State.ctrlAsk
  refine hs.maintAsk (fun hs1 => ?_)
  split
  · exact hs1
  · exact hs1.actAsk

theorem Keeps.l2flush {arg : Nat} (hs : Keeps False s₀ s) : Keeps False s₀ (s.l2flush arg) :=
  hs.maintAsk (fun hs1 => hs1.actAsk)

theorem Keeps.saveallAsk {pa : Nat} (hs : Keeps False s₀ s) : Keeps False s₀ (s.saveallAsk pa).1 := by
  unfold State.saveallAsk
  split
  · exact hs
  · split
    · exact hs
    · exact hs.actAsk

theorem Keeps.selftestFail {c v : Nat} (hs : Keeps False s₀ s) : Keeps False s₀ (s.selftestFail c v) :=
  (Keeps.ite hs.wr.wr.wr hs.wr).raiseShared

theorem Keeps.actEnd {a : Act} {mismatch : Option (Fin 56)} (hs : Keeps False s₀ s) : Keeps False s₀ (s.actEnd a mismatch) := by
  unfold State.actEnd
  dsimp only
  split
  · split
    · exact Keeps.ite hs.selftestFail hs.selftestFail.wr
    · exact Keeps.ite hs hs.wr
  · exact Keeps.ite hs.flashDone hs

theorem Keeps.maintComplete {act target : Nat} {mismatch : Option (Fin 56)} (hs : Keeps False s₀ s) :
    Keeps False s₀ (s.maintComplete act target mismatch) := by
  unfold State.maintComplete
  dsimp only
  split
  · exact hs
  · exact Keeps.ite hs hs.same.actEnd.maintSettle

theorem Keeps.scrubNext {r o : Nat} (hs : Keeps False s₀ s) : Keeps False s₀ (s.scrubNext r o) :=
  Keeps.ite hs.same hs.same.count

theorem Keeps.flipCells {pa data check : Nat} (hs : Keeps False s₀ s) : Keeps False s₀ (s.flipCells pa data check) := by
  unfold State.flipCells
  dsimp only
  split
  · exact hs.setRaws
  · exact hs.setRaws.setRaws

theorem Keeps.scrubSector {pa : Nat} (hs : Keeps False s₀ s) : Keeps False s₀ (s.scrubSector pa) := by
  unfold State.scrubSector
  dsimp only
  split
  · exact hs.useDram.noteBad
  · split
    · split
      · exact Keeps.ite hs.useDram.noteCorrected hs.useDram.noteCorrected.writeSector
      · exact hs.useDram.noteCorrected.writeSector
    · exact hs.useDram

theorem Keeps.scrubStep {data check : Nat} (hs : Keeps False s₀ s) : Keeps False s₀ (s.scrubStep data check) := by
  unfold State.scrubStep
  dsimp only
  split
  · exact hs
  · exact Keeps.ite hs.scrubNext hs.flipCells.scrubSector.scrubNext

theorem Keeps.badEnd {port : L2Port} {part : Option Nat} {pa : Nat} (hs : Keeps False s₀ s) :
    Keeps False s₀ (s.badEnd port part pa) := by
  unfold State.badEnd
  dsimp only
  split
  · split
    · exact hs.takeFree.tearDown
    · exact hs
  · split
    · exact hs.takeFree.tearDown
    · exact hs
  · split
    · exact hs.takeFree.tearDown
    · exact hs
  · split
    · exact hs.takeFree.tearDown
    · exact hs
  · split
    · exact hs.markFail
    · exact hs
  · split
    · exact hs.markFail
    · exact hs
  · exact hs.same
  · exact hs

theorem Keeps.dramReadReturn {port : L2Port} {part : Option Nat} {pa data check : Nat} (hs : Keeps False s₀ s) :
    Keeps False s₀ (s.dramReadReturn port part pa data check) := by
  unfold State.dramReadReturn
  dsimp only
  split
  next e => exact hs.flipCells.l2ReadSector.of_fst e
  next e => exact (hs.flipCells.l2ReadSector.of_fst e).badEnd

theorem Keeps.parityClean {pa : Nat} (hs : Keeps False s₀ s) : Keeps False s₀ (s.parityClean pa) := by
  unfold State.parityClean
  dsimp only
  split
  · exact Keeps.ite hs hs.sameUnits.count
  · exact hs

theorem Keeps.l2Serve {port : L2Port} {pol : CachePolicy} {op : L2Op} {pa : Nat} (hs : Keeps False s₀ s) :
    Keeps False s₀ (s.l2Serve port pol op pa) := by
  unfold State.l2Serve
  dsimp only
  split
  · split
    next e => exact (hs.l2Read.of_fst e).same
    next e => exact (hs.l2Read.of_fst e).badEnd
  · split
    next e => exact hs.l2Write.of_fst e
    next e => exact (hs.l2Write.of_fst e).badEnd
  · split
    next e => exact (hs.l2Atomic.of_fst e).same
    next e => exact (hs.l2Atomic.of_fst e).badEnd

/-! ### PowerCmds -/

theorem Keeps.domEnter {d target : Nat} (hs : Keeps False s₀ s) : Keeps False s₀ (s.domEnter d target) :=
  hs.same.wr

theorem Keeps.domResult {d st : Nat} (hs : Keeps False s₀ s) : Keeps False s₀ (s.domResult d st) :=
  hs.wr

/-- A domain that goes down changes its registers and its unit only. -/
theorem Keeps.domDown {d target : Nat} {t : State} (hs : Keeps False s₀ s) (e : s.domDown d target = .inl t) : Keeps False s₀ t := by
  unfold State.domDown at e
  dsimp only at e
  split_ifs at e
  · exact Sum.inl.inj e ▸ hs.domResult
  · exact Sum.inl.inj e ▸ hs.domResult
  · exact Sum.inl.inj e ▸ hs.domLost.same.wr.domResult
  · split at e
    · exact absurd e (by simp)
    · exact Sum.inl.inj e ▸ hs.domEnter.domResult

theorem Keeps.domAsk {d target : Nat} (hs : Keeps False s₀ s) : Keeps False s₀ (s.domAsk d target) := by
  unfold State.domAsk
  split
  · exact hs.domResult
  · split
    next e => exact hs.domDown e
    · exact hs.count.wr.domResult

theorem Keeps.idleExpiry {d : Nat} (hs : Keeps False s₀ s) : Keeps False s₀ (s.idleExpiry d) := by
  unfold State.idleExpiry
  dsimp only
  split
  · exact hs
  · split
    next e => exact hs.domDown e
    · exact hs

theorem Keeps.entryDone {d : Nat} (hs : Keeps False s₀ s) : Keeps False s₀ (s.entryDone d) := by
  unfold State.entryDone
  dsimp only
  split
  · exact Keeps.ite hs (Keeps.ite hs.flushSlice hs).domDrained.domSave.same.wr.count.maintDomain
  · exact hs

theorem Keeps.exitDone {d : Nat} (hs : Keeps False s₀ s) : Keeps False s₀ (s.exitDone d) := by
  unfold State.exitDone
  split
  · exact Keeps.ite hs.domOn.maintDomain hs
  · exact hs

theorem Keeps.dvfsApply {r vop fop : Nat} (hs : Keeps False s₀ s) : Keeps False s₀ (s.dvfsApply r vop fop) :=
  Keeps.ite hs.wr hs.same.repoint

theorem Keeps.changeEnd {r : Nat} (hs : Keeps False s₀ s) : Keeps False s₀ (s.changeEnd r) := by
  unfold State.changeEnd
  dsimp only
  split
  · exact hs.same.dvfsApply
  · exact hs.repoint

theorem Keeps.avsReadback {r : Nat} (hs : Keeps False s₀ s) : Keeps False s₀ (s.avsReadback r) := by
  unfold State.avsReadback
  dsimp only
  split
  · exact hs.same.wr.changeEnd
  · exact hs

theorem Keeps.avsTimeout {r : Nat} (hs : Keeps False s₀ s) : Keeps False s₀ (s.avsTimeout r) := by
  unfold State.avsTimeout
  dsimp only
  split
  · exact hs.same.wr.raiseShared.changeEnd
  · exact hs

theorem Keeps.powerRecord {src : Shared} {st : Nat} (hs : Keeps False s₀ s) : Keeps False s₀ (s.powerRecord src st) :=
  Keeps.ite hs.raiseShared hs

theorem Keeps.setThermal {cap : Nat} (hs : Keeps False s₀ s) : Keeps False s₀ (s.setThermal cap) :=
  Keeps.ite hs.wr.repoint.powerRecord hs.wr.repoint

theorem Keeps.addBin {p : Nat} (hs : Keeps False s₀ s) : Keeps False s₀ (s.addBin p) :=
  hs.same.wr.wr

theorem Keeps.powerLimit {before : Nat} (hs : Keeps False s₀ s) : Keeps False s₀ (s.powerLimit before) :=
  Keeps.ite (Keeps.ite hs.same.wr.repoint.powerRecord hs.same.wr.repoint).powerRecord
    (Keeps.ite hs.same.wr.repoint.powerRecord hs.same.wr.repoint)

theorem Keeps.currentRise {low : Bool} (hs : Keeps False s₀ s) : Keeps False s₀ (s.currentRise low) :=
  Keeps.ite hs.wr.repoint hs

theorem Keeps.thermalLimit {t : ℤ} (hs : Keeps False s₀ s) : Keeps False s₀ (s.thermalLimit t) :=
  Keeps.ite (Keeps.ite hs hs.setThermal) (Keeps.ite hs.setThermal (Keeps.ite hs.same.setThermal hs))

theorem Keeps.setTemp {t : ℤ} {sensor : Nat} (hs : Keeps False s₀ s) : Keeps False s₀ (s.setTemp t sensor) :=
  hs.wr.wr

theorem Keeps.currentTrip (hs : Keeps False s₀ s) : Keeps False s₀ s.currentTrip := by
  unfold State.currentTrip
  extract_lets cap s1
  have h1 : Keeps False s₀ s1 := hs.count.wr.repoint
  exact .ite (Keeps.powerRecord (Keeps.same h1)) h1

theorem Keeps.thermalTrip {sensor : Nat} (hs : Keeps False s₀ s) : Keeps False s₀ (s.thermalTrip sensor) :=
  hs.deviceReset.sameUnits

/-- The hour that blows PEAK_WORN burns no other fuse. -/
theorem Keeps.wearHour (hs : Keeps False s₀ s) : Keeps False s₀ s.wearHour := by
  unfold State.wearHour
  extract_lets t s1
  have h1 : Keeps False s₀ s1 := hs.wr.saveSettings
  have hworn : Keeps False s₀ { s1 with mgc := { s1.mgc with fuses := { s1.mgc.fuses with peakWorn := true } } } :=
    { h1 with fuses := { h1.fuses with peakWorn := fun _ => rfl }, work := False.elim }
  exact .ite hworn.wr.repoint h1

theorem Keeps.thermHold (hs : Keeps False s₀ s) : Keeps False s₀ s.thermHold :=
  Keeps.ite hs.setThermal hs

theorem Keeps.setPin {n : Nat} {low : Bool} (hs : Keeps False s₀ s) : Keeps False s₀ (s.setPin n low) :=
  hs.sameUnits

/-! ### Queues -/

theorem Keeps.enableQueue {p q size : Nat} (hs : Keeps False s₀ s) : Keeps False s₀ (s.enableQueue p q size) :=
  Keeps.ite hs (Keeps.ite hs.wr.queueErr hs.wr.wr.wr.setBell.wr.wr)

/-! ### Registers -/

theorem Keeps.readPlace {fn : Nat} {x2 : BarPlace} (hs : Keeps False s₀ s) : Keeps False s₀ (s.readPlace fn x2).1 := by
  unfold State.readPlace
  split
  · exact hs.readWord
  · exact hs
  · exact hs.apRead
  · exact hs

theorem Keeps.hostRead {fn off : Nat} (hs : Keeps False s₀ s) : Keeps False s₀ (s.hostRead fn off) :=
  Keeps.ite hs (Keeps.ite hs.unsupported (Keeps.ite hs.readPlace.answer hs.answer))

theorem Keeps.writeFields {a : RegAt} {data : Nat} (hs : Keeps False s₀ s) : Keeps False s₀ (s.writeFields a data) :=
  hs.foldl fun hs1 => Keeps.ite hs1.wr hs1

theorem Keeps.clearRecord {a : RegAt} {data : Nat} (hs : Keeps False s₀ s) : Keeps False s₀ (s.clearRecord a data) :=
  Keeps.ite (hs.foldl fun hs1 => hs1.wr) hs

theorem Keeps.refuseGo {a : RegAt} {data : Nat} (hs : Keeps False s₀ s) : Keeps False s₀ (s.refuseGo a data) := by
  unfold State.refuseGo
  split
  · exact Keeps.ite hs.wr hs
  · exact Keeps.ite hs.wr hs
  · exact Keeps.ite hs.wr hs
  · exact Keeps.ite (hs.mbox (fun hs1 => hs1.mboxDone)) hs
  · exact Keeps.ite hs.domResult hs
  · exact hs

theorem Keeps.writeWord {a : RegAt} {data : Nat} (hs : Keeps False s₀ s) : Keeps False s₀ (s.writeWord a data) :=
  Keeps.ite hs.wakeReg.writeFields.clearRecord.refuseGo hs.wakeReg

theorem Keeps.writeMsix {fn k data : Nat} (hs : Keeps False s₀ s) : Keeps False s₀ (s.writeMsix fn k data) :=
  Keeps.ite hs.setFn (Keeps.ite hs.setFn (Keeps.ite hs.setFn (Keeps.ite hs.setFn hs)))

theorem Keeps.writePlace {fn data : Nat} {x3 : BarPlace} (hs : Keeps False s₀ s) : Keeps False s₀ (s.writePlace fn data x3) := by
  unfold State.writePlace
  split
  · exact hs.writeWord
  · exact hs.writeMsix
  · exact hs
  · exact hs

theorem Keeps.hostWriteReg {fn off be data : Nat} (hs : Keeps False s₀ s) : Keeps False s₀ (s.hostWriteReg fn off be data) :=
  Keeps.ite hs (Keeps.ite hs.aer (Keeps.ite hs.writePlace hs))

/-! ### Shared objects -/

theorem Keeps.createSync {p type : Nat} {t : State} (hs : Keeps False s₀ s) (e : s.createSync p type = .ok t) :
    Keeps False s₀ t := by
  unfold State.createSync at e
  dsimp only at e
  split at e
  · cases e
  · split at e
    · cases e
    · split at e
      · cases e
      · exact Except.ok.inj e ▸ hs.wr.wr.wr.wr.wr.wr.wr.wr.clearLatch.wr

theorem Keeps.destroySync {p h : Nat} {t : State} (hs : Keeps False s₀ s) (e : s.destroySync p h = .ok t) : Keeps False s₀ t := by
  unfold State.destroySync at e
  dsimp only at e
  split_ifs at e
  exact Except.ok.inj e ▸ (Keeps.foldl hs.dropLock.destroyObj fun h1 => h1.takeRecord).passRecords

theorem Keeps.resetSync {p h : Nat} {t : State} (hs : Keeps False s₀ s) (e : s.resetSync p h = .ok t) : Keeps False s₀ t := by
  unfold State.resetSync at e
  split_ifs at e
  · exact Except.ok.inj e ▸ hs.lockFree
  · exact Except.ok.inj e ▸ hs.wr.endWaits
  · exact Except.ok.inj e ▸ hs.wr.setValue

theorem Keeps.exportSync {p h : Nat} {t : State} (hs : Keeps False s₀ s) (e : s.exportSync p h = .ok t) : Keeps False s₀ t := by
  unfold State.exportSync at e
  dsimp only at e
  split_ifs at e
  exact Except.ok.inj e ▸ hs.wr

theorem Keeps.createMem {p : Nat} {t : State} (hs : Keeps False s₀ s) (e : s.createMem p = .ok t) : Keeps False s₀ t := by
  unfold State.createMem at e
  dsimp only at e
  split_ifs at e
  split at e
  · exact absurd e (by simp)
  · exact Except.ok.inj e ▸ hs.wr.wr.wrAddr.wr.wr.wr.wr.wr

theorem Keeps.importMem {p h : Nat} {t : State} (hs : Keeps False s₀ s) (e : s.importMem p h = .ok t) : Keeps False s₀ t := by
  unfold State.importMem at e
  split_ifs at e
  exact Except.ok.inj e ▸ hs.wr

theorem Keeps.freeMem {p h : Nat} {t : State} (hs : Keeps False s₀ s) (e : s.freeMem p h = .ok t) : Keeps False s₀ t := by
  unfold State.freeMem at e
  dsimp only at e
  split_ifs at e
  · exact Except.ok.inj e ▸ hs.wr.takeRecord.wr.passRecords
  · exact Except.ok.inj e ▸ hs.wr.takeRecord.passRecords

theorem Keeps.exportMem {p h : Nat} {t : State} (hs : Keeps False s₀ s) (e : s.exportMem p h = .ok t) : Keeps False s₀ t := by
  unfold State.exportMem at e
  dsimp only at e
  split_ifs at e
  exact Except.ok.inj e ▸ hs.wr

end Sys2Proof.Machine
end

