-- ==== Sys2Proof/Proofs/Invariants.lean ====
section
/-!
PROOF. Every command keeps what `Keeps` says; the statements about every step.
-/

namespace Sys2Proof.Machine

/-- Every command keeps the queue, the board, the fuses that are not burnt and the canonical memories. -/
theorem exec_keeps (c : Instr) (s : State) : ∃ t, exec c s = .next t ∧ Keeps False s t := by
  have hs := Keeps.refl False s
  cases c with
  | registerWrite fn off be data => exact ⟨_, rfl, hs.hostWriteReg⟩
  | readClear fn off => exact ⟨_, rfl, hs.hostRead⟩
  | latchedRead fn off => exact ⟨_, rfl, hs.hostRead⟩
  | fullLoad => exact ⟨_, rfl, Keeps.ite hs.wr.fullLoad hs⟩
  | deltaLoad => exact ⟨_, rfl, Keeps.ite hs.wr.deltaLoad hs⟩
  | deltaTimeout => exact ⟨_, rfl, Keeps.ite hs.deltaTimeout hs⟩
  | stopPreempt kind index => exact ⟨_, rfl, hs.funcAsk (fun hs1 => hs1.stopReq)⟩
  | stopDrain kind index => exact ⟨_, rfl, hs.funcAsk (fun hs1 => hs1.stopReq)⟩
  | start kind index => exact ⟨_, rfl, hs.funcAsk (fun hs1 => hs1.startReq)⟩
  | functionStopped k => exact ⟨_, rfl, Keeps.ite hs.funcStopped hs⟩
  | functionStarted k => exact ⟨_, rfl, Keeps.ite hs.funcStarted hs⟩
  | claim who feature resource => exact ⟨_, rfl, hs.claimAsk (fun hs1 => hs1.claimReq)⟩
  | release who feature resource => exact ⟨_, rfl, hs.claimAsk (fun hs1 => hs1.releaseReq)⟩
  | blockDispatch launch => exact ⟨_, rfl, Keeps.ite hs.dispatch hs⟩
  | blockPatienceExpiry vat block =>
    refine ⟨_, rfl, ?_⟩
    dsimp only
    split
    · exact hs
    · split
      · exact hs
      · split
        · exact hs
        · split
          · exact hs.setBlock.raiseFault
          · exact hs
  | illegalInstruction vat slot =>
    refine ⟨_, rfl, ?_⟩
    dsimp only
    split
    · exact hs
    · split
      · exact hs
      · split
        · exact hs
        · exact Keeps.ite hs (Keeps.ite hs.count.setQuire hs.count.raiseFault)
  | codeEndOverrun vat slot =>
    refine ⟨_, rfl, ?_⟩
    split
    · exact hs
    · split
      · exact hs
      · exact Keeps.ite hs.raiseFault hs
  | iadd vat slot => exact ⟨_, rfl, hs.perLane⟩
  | isub vat slot => exact ⟨_, rfl, hs.perLane⟩
  | imul vat slot => exact ⟨_, rfl, hs.perLane⟩
  | imulhi vat slot => exact ⟨_, rfl, hs.perLane⟩
  | imad vat slot => exact ⟨_, rfl, hs.perLane⟩
  | idiv vat slot => exact ⟨_, rfl, hs.perLane⟩
  | irem vat slot => exact ⟨_, rfl, hs.perLane⟩
  | imin vat slot => exact ⟨_, rfl, hs.perLane⟩
  | imax vat slot => exact ⟨_, rfl, hs.perLane⟩
  | iabs vat slot => exact ⟨_, rfl, hs.perLane⟩
  | ineg vat slot => exact ⟨_, rfl, hs.perLane⟩
  | bpcAnd vat slot => exact ⟨_, rfl, hs.perLane⟩
  | bpcOr vat slot => exact ⟨_, rfl, hs.perLane⟩
  | bpcXor vat slot => exact ⟨_, rfl, hs.perLane⟩
  | bpcNot vat slot => exact ⟨_, rfl, hs.perLane⟩
  | shl vat slot => exact ⟨_, rfl, hs.perLane⟩
  | shr vat slot => exact ⟨_, rfl, hs.perLane⟩
  | fext vat slot => exact ⟨_, rfl, hs.perLane⟩
  | fins vat slot => exact ⟨_, rfl, hs.perLane⟩
  | ones vat slot => exact ⟨_, rfl, hs.perLane⟩
  | clz vat slot => exact ⟨_, rfl, hs.perLane⟩
  | rvrs vat slot => exact ⟨_, rfl, hs.perLane⟩
  | isum vat slot => exact ⟨_, rfl, hs.perLane⟩
  | bdot vat slot => exact ⟨_, rfl, hs.perLane⟩
  | fadd vat slot => exact ⟨_, rfl, hs.perLane⟩
  | fsub vat slot => exact ⟨_, rfl, hs.perLane⟩
  | fmul vat slot => exact ⟨_, rfl, hs.perLane⟩
  | fma vat slot => exact ⟨_, rfl, hs.perLane⟩
  | fmin vat slot => exact ⟨_, rfl, hs.perLane⟩
  | fmax vat slot => exact ⟨_, rfl, hs.perLane⟩
  | frnd vat slot => exact ⟨_, rfl, hs.perLane⟩
  | fdiv vat slot => exact ⟨_, rfl, hs.perLane⟩
  | frcp vat slot => exact ⟨_, rfl, hs.perLane⟩
  | fsqrt vat slot => exact ⟨_, rfl, hs.perLane⟩
  | frsq vat slot => exact ⟨_, rfl, hs.perLane⟩
  | fexp2 vat slot => exact ⟨_, rfl, hs.perLane⟩
  | flog2 vat slot => exact ⟨_, rfl, hs.perLane⟩
  | fsin vat slot => exact ⟨_, rfl, hs.perLane⟩
  | fcos vat slot => exact ⟨_, rfl, hs.perLane⟩
  | fscale vat slot => exact ⟨_, rfl, hs.perLane⟩
  | cvt vat slot => exact ⟨_, rfl, hs.perLane⟩
  | f2f8 vat slot => exact ⟨_, rfl, hs.perLane⟩
  | f82f vat slot => exact ⟨_, rfl, hs.perLane⟩
  | pk2h vat slot => exact ⟨_, rfl, hs.perLane⟩
  | upk2h vat slot => exact ⟨_, rfl, hs.perLane⟩
  | inrw vat slot => exact ⟨_, rfl, hs.perLane⟩
  | icmpp vat slot => exact ⟨_, rfl, hs.perLane⟩
  | fcmpp vat slot => exact ⟨_, rfl, hs.perLane⟩
  | icmpm vat slot => exact ⟨_, rfl, hs.perLane⟩
  | fcmpm vat slot => exact ⟨_, rfl, hs.perLane⟩
  | sel vat slot => exact ⟨_, rfl, hs.perLane⟩
  | plog vat slot => exact ⟨_, rfl, hs.perLane⟩
  | fkind vat slot => exact ⟨_, rfl, hs.perLane⟩
  | mov vat slot => exact ⟨_, rfl, hs.perLane⟩
  | pget vat slot => exact ⟨_, rfl, hs.perLane⟩
  | pset vat slot => exact ⟨_, rfl, hs.issue (fun hs1 => hs1.done)⟩
  | pany vat slot => exact ⟨_, rfl, hs.issue (fun hs1 => hs1.vote)⟩
  | pall vat slot => exact ⟨_, rfl, hs.issue (fun hs1 => hs1.vote)⟩
  | pmask vat slot => exact ⟨_, rfl, hs.perLane⟩
  | lget vat slot => exact ⟨_, rfl, hs.perLane⟩
  | lup vat slot => exact ⟨_, rfl, hs.perLane⟩
  | ldown vat slot => exact ⟨_, rfl, hs.perLane⟩
  | lflip vat slot => exact ⟨_, rfl, hs.perLane⟩
  | rduni vat slot => exact ⟨_, rfl, hs.perLane⟩
  | nop vat slot => exact ⟨_, rfl, hs.issue (fun hs1 => hs1.done)⟩
  | bra vat slot => exact ⟨_, rfl, hs.issue (fun hs1 => hs1.branch)⟩
  | jmp vat slot => exact ⟨_, rfl, hs.issue (fun hs1 => hs1.jump)⟩
  | call vat slot => exact ⟨_, rfl, hs.issue (fun hs1 => hs1.put)⟩
  | ret vat slot => exact ⟨_, rfl, hs.issue (fun hs1 => hs1.jump)⟩
  | pushm vat slot => exact ⟨_, rfl, hs.issue (fun hs1 => Keeps.ite hs1.stackFault hs1.done)⟩
  | popm vat slot => exact ⟨_, rfl, hs.issue (fun hs1 => Keeps.ite hs1.stackFault hs1.done)⟩
  | join vat slot => exact ⟨_, rfl, hs.issue (fun hs1 => Keeps.ite hs1.stackFault hs1.putSettle)⟩
  | exit vat slot => exact ⟨_, rfl, hs.issue (fun hs1 => hs1.exitNow)⟩
  | yield vat slot => exact ⟨_, rfl, hs.issue (fun hs1 => hs1.put)⟩
  | discard vat slot => exact ⟨_, rfl, hs.issue (fun hs1 => hs1.exitNow)⟩
  | savept vat slot => exact ⟨_, rfl, hs.issue (fun hs1 => Keeps.ite hs1.put hs1.done)⟩
  | bwait vat slot => exact ⟨_, rfl, hs.issue (fun hs1 => hs1.parkAt)⟩
  | bpass vat slot => exact ⟨_, rfl, hs.issue (fun hs1 => hs1.arriveAt.putSettle)⟩
  | bred vat slot => exact ⟨_, rfl, hs.issue (fun hs1 => hs1.parkAt)⟩
  | ld vat slot => exact ⟨_, rfl, hs.issueMem (fun hs1 => hs1.load)⟩
  | st vat slot => exact ⟨_, rfl, hs.issueMem (fun hs1 => hs1.store)⟩
  | morder vat slot => exact ⟨_, rfl, hs.issueMem (fun hs1 => hs1.morder)⟩
  | prefetch vat slot => exact ⟨_, rfl, hs.issue (fun hs1 => (hs1.foldl fun hs2 => hs2.prefetchOne).done)⟩
  | l1inv vat slot => exact ⟨_, rfl, hs.issue (fun hs1 => hs1.dropL1.done)⟩
  | atomAdd vat slot => exact ⟨_, rfl, hs.issueMem (fun hs1 => hs1.atomic)⟩
  | atomAnd vat slot => exact ⟨_, rfl, hs.issueMem (fun hs1 => hs1.atomic)⟩
  | atomOr vat slot => exact ⟨_, rfl, hs.issueMem (fun hs1 => hs1.atomic)⟩
  | atomXor vat slot => exact ⟨_, rfl, hs.issueMem (fun hs1 => hs1.atomic)⟩
  | atomMin vat slot => exact ⟨_, rfl, hs.issueMem (fun hs1 => hs1.atomic)⟩
  | atomMax vat slot => exact ⟨_, rfl, hs.issueMem (fun hs1 => hs1.atomic)⟩
  | atomExch vat slot => exact ⟨_, rfl, hs.issueMem (fun hs1 => hs1.atomic)⟩
  | atomCas vat slot => exact ⟨_, rfl, hs.issueMem (fun hs1 => hs1.atomic)⟩
  | atomInc vat slot => exact ⟨_, rfl, hs.issueMem (fun hs1 => hs1.atomic)⟩
  | atomDec vat slot => exact ⟨_, rfl, hs.issueMem (fun hs1 => hs1.atomic)⟩
  | atomFadd vat slot => exact ⟨_, rfl, hs.issueMem (fun hs1 => hs1.atomic)⟩
  | synSignal vat slot => exact ⟨_, rfl, hs.issueMem (fun hs1 => hs1.syn)⟩
  | synAdd vat slot => exact ⟨_, rfl, hs.issueMem (fun hs1 => hs1.syn)⟩
  | synWait vat slot => exact ⟨_, rfl, hs.issueMem (fun hs1 => hs1.syn)⟩
  | synRead vat slot => exact ⟨_, rfl, hs.issueMem (fun hs1 => hs1.syn)⟩
  | lockAcq vat slot => exact ⟨_, rfl, hs.issueMem (fun hs1 => hs1.syn)⟩
  | lockRel vat slot => exact ⟨_, rfl, hs.issueMem (fun hs1 => hs1.syn)⟩
  | synArrive vat slot => exact ⟨_, rfl, hs.issueMem (fun hs1 => hs1.syn)⟩
  | synEvent vat slot => exact ⟨_, rfl, hs.issueMem (fun hs1 => hs1.synEvent)⟩
  | tld vat slot => exact ⟨_, rfl, hs.issueMem (fun hs1 => hs1.tldIssue)⟩
  | tmma vat slot => exact ⟨_, rfl, hs.issueMem (fun hs1 => hs1.tmmaIssue)⟩
  | tst vat slot => exact ⟨_, rfl, hs.issueMem (fun hs1 => hs1.tstIssue)⟩
  | tcvt vat slot => exact ⟨_, rfl, Keeps.ite (hs.issueMem (fun hs1 => hs1.tcvtIssue)).beatNext hs⟩
  | halloc vat slot =>
    refine ⟨_, rfl, hs.issue fun h => Keeps.done ?_⟩
    exact Keeps.foldl_fst h fun h => h.halloc
  | hfree vat slot => exact ⟨_, rfl, hs.issue (fun hs1 => (hs1.foldl fun hs2 => hs2.hfree).done)⟩
  | trap vat slot => exact ⟨_, rfl, hs.issue (fun hs1 => hs1.raiseFault)⟩
  | tret vat slot =>
    refine ⟨_, rfl, ?_⟩
    dsimp only
    refine hs.issue (fun hs1 => ?_)
    split
    · exact hs1.raiseFault
    · exact Keeps.ite hs1.raiseFault (Keeps.ite hs1.put.setBlock.releaseAll hs1.put.setBlock)
  | tretire vat slot =>
    refine ⟨_, rfl, ?_⟩
    refine hs.issue (fun hs1 => ?_)
    split
    · exact hs1.raiseFault
    · exact hs1.retireBlock
  | tesc vat slot =>
    refine ⟨_, rfl, ?_⟩
    refine hs.issue (fun hs1 => ?_)
    split
    · exact hs1.raiseFault
    · exact hs1.reportFault
  | accSetGrant vat => exact ⟨_, rfl, Keeps.ite hs.grantHead hs⟩
  | tmmaPassStart vat =>
    refine ⟨_, rfl, ?_⟩
    split
    · exact hs
    · split
      · exact hs.tmmaRun.beatNext
      · exact hs
  | tldDataArrival vat =>
    refine ⟨_, rfl, ?_⟩
    split
    · exact hs
    · split
      · exact hs.tldRun.beatNext
      · exact hs
  | tstSetRead vat =>
    refine ⟨_, rfl, ?_⟩
    split
    · exact hs
    · split
      · exact hs.tstRun.beatNext
      · exact hs
  | binBegin cmd => exact ⟨_, rfl, hs.withCmd (fun hs1 => hs1.beginHand)⟩
  | draw cmd => exact ⟨_, rfl, hs.withCmd (fun hs1 => hs1.drawHand)⟩
  | binEnd cmd => exact ⟨_, rfl, hs.withCmd (fun hs1 => hs1.endHand)⟩
  | brokePassSpilled p => exact ⟨_, rfl, Keeps.ite hs.brokeSpilled hs⟩
  | grant fn p size => exact ⟨_, rfl, Keeps.ite hs.wakeNow.growGrant hs⟩
  | deny fn p =>
    refine ⟨_, rfl, ?_⟩
    dsimp only
    split
    · split
      · exact hs.wakeNow.wr
      · exact hs.wakeNow.wr.growEnd
    · exact hs
  | growPatienceExpiry p => exact ⟨_, rfl, Keeps.ite hs.growEnd hs⟩
  | tileDispatch p => exact ⟨_, rfl, Keeps.ite hs.tileDispatch.poolStep hs⟩
  | couchComplete p tile => exact ⟨_, rfl, Keeps.ite hs.couch.poolStep hs⟩
  | planeArm fn head plane data => exact ⟨_, rfl, Keeps.ite hs.writePlaneCtrl hs⟩
  | vblankStart head => exact ⟨_, rfl, Keeps.ite hs.blank hs⟩
  | leadReached head => exact ⟨_, rfl, Keeps.ite hs.leadNow hs⟩
  | headTrainingDone head link => exact ⟨_, rfl, Keeps.ite hs.trained hs⟩
  | hpdUnplug head => exact ⟨_, rfl, Keeps.ite hs.unplug hs⟩
  | hpdPlug head => exact ⟨_, rfl, Keeps.ite hs.wr.raiseHpd hs⟩
  | irqHpd head => exact ⟨_, rfl, Keeps.ite hs.raiseHpd hs⟩
  | scanoutLineFail head plane => exact ⟨_, rfl, Keeps.ite hs.lineFail hs⟩
  | doorbellWrite fn p q bytes value => exact ⟨_, rfl, Keeps.ite hs.setBell hs⟩
  | invalidateDoorbell fn p bytes value => exact ⟨_, rfl, Keeps.ite hs.invalRequest hs⟩
  | bar4Read off len => exact ⟨_, rfl, Keeps.ite hs.winRead hs⟩
  | bar4Write off bytes => exact ⟨_, rfl, Keeps.ite hs (Keeps.ite hs.l2Write hs.aer)⟩
  | bar4Resize size => exact ⟨_, rfl, Keeps.ite hs.same hs⟩
  | hostCompletion req status bytes => exact ⟨_, rfl, Keeps.ite hs.hostAnswer hs⟩
  | completionTimeout req =>
    refine ⟨_, rfl, ?_⟩
    split
    · split
      · exact hs.aer.hostFail
      · exact hs
    · exact hs
  | d3hotEntry fn => exact ⟨_, rfl, Keeps.ite hs.setFn hs⟩
  | d0Return fn => exact ⟨_, rfl, Keeps.ite hs.setFn.fnSends hs⟩
  | busMasterEnable fn => exact ⟨_, rfl, Keeps.ite hs.setFn.fnSends hs⟩
  | vfFlr vf => exact ⟨_, rfl, Keeps.ite hs.flrVf hs⟩
  | pfFlr => exact ⟨_, rfl, Keeps.ite hs.deviceReset.pcieFlr hs⟩
  | vfEnableClear => exact ⟨_, rfl, Keeps.ite (hs.foldl fun hs1 => hs1.flrVf).same hs⟩
  | packetIntake p q => exact ⟨_, rfl, Keeps.ite hs.intake hs⟩
  | nopPacket p q => exact ⟨_, rfl, Keeps.ite hs.intakeNop hs⟩
  | launch cmd => exact ⟨_, rfl, hs.withCmd (fun hs1 => hs1.launchCmd)⟩
  | gatedLaunch cmd => exact ⟨_, rfl, hs.withCmd (fun hs1 => hs1.gatedHand)⟩
  | graphLaunch cmd => exact ⟨_, rfl, hs.withCmd (fun hs1 => hs1.graphLaunchCmd)⟩
  | graphPatchReplace cmd => exact ⟨_, rfl, hs.withCmd (fun hs1 => hs1.patchReplace)⟩
  | graphPatchEdit cmd => exact ⟨_, rfl, hs.withCmd (fun hs1 => hs1.patchEdit)⟩
  | graphPatchDelete cmd => exact ⟨_, rfl, hs.withCmd (fun hs1 => hs1.patchDelete)⟩
  | preload cmd => exact ⟨_, rfl, hs.withCmd (fun hs1 => hs1.preloadCmd)⟩
  | preloadFill vat => exact ⟨_, rfl, Keeps.ite hs.preloadFill hs⟩
  | decode cmd => exact ⟨_, rfl, hs.withCmd (fun hs1 => hs1.decodeHand)⟩
  | bale cmd => exact ⟨_, rfl, hs.withCmd (fun hs1 => hs1.balHand)⟩
  | unbale cmd => exact ⟨_, rfl, hs.withCmd (fun hs1 => hs1.balHand)⟩
  | copy cmd => exact ⟨_, rfl, hs.withCmd (fun hs1 => hs1.copyHand)⟩
  | fill cmd => exact ⟨_, rfl, hs.withCmd (fun hs1 => hs1.fillHand)⟩
  | signalCmd cmd => exact ⟨_, rfl, hs.withCmd (fun hs1 => hs1.signalHand)⟩
  | waitCmd cmd => exact ⟨_, rfl, hs.withCmd (fun hs1 => hs1.waitHand)⟩
  | eventCmd cmd => exact ⟨_, rfl, hs.withCmd (fun hs1 => hs1.eventHand)⟩
  | markCmd cmd => exact ⟨_, rfl, hs.withCmd (fun hs1 => hs1.markHand)⟩
  | commandComplete id =>
    refine ⟨_, rfl, ?_⟩
    split
    · split
      · split
        · exact hs.finishCmd.updateWaiting
        · exact hs
      · exact hs
    · exact hs
  | queueEnable fn p q size => exact ⟨_, rfl, Keeps.ite hs.enableQueue hs⟩
  | queueDestroy fn p q => exact ⟨_, rfl, Keeps.ite hs.destroyQueue hs⟩
  | resume fn p q => exact ⟨_, rfl, Keeps.ite hs.wr hs⟩
  | parserWatchdog p q => exact ⟨_, rfl, Keeps.ite hs.deviceReset hs⟩
  | parserFault check => exact ⟨_, rfl, Keeps.ite hs.deviceReset hs⟩
  | hostRequest => exact ⟨_, rfl, Keeps.ite hs.deviceReset hs⟩
  | synCreate fn p type handle => exact ⟨_, rfl, hs.objRequest fun h e => h.createSync e⟩
  | synDestroy fn p type handle => exact ⟨_, rfl, hs.objRequest fun h e => h.destroySync e⟩
  | synReset fn p type handle => exact ⟨_, rfl, hs.objRequest fun h e => h.resetSync e⟩
  | synExport fn p type handle => exact ⟨_, rfl, hs.objRequest fun h e => h.exportSync e⟩
  | moCreate fn p type handle => exact ⟨_, rfl, hs.objRequest fun h e => h.createMem e⟩
  | moImport fn p type handle => exact ⟨_, rfl, hs.objRequest fun h e => h.importMem e⟩
  | moFree fn p type handle => exact ⟨_, rfl, hs.objRequest fun h e => h.freeMem e⟩
  | moExport fn p type handle => exact ⟨_, rfl, hs.objRequest fun h e => h.exportMem e⟩
  | synValueLowWrite fn obj data => exact ⟨_, rfl, Keeps.ite hs.same hs⟩
  | synValueHighWrite fn obj low data => exact ⟨_, rfl, Keeps.ite hs.valueWrite hs⟩
  | waitRegisterRetry wait =>
    refine ⟨_, rfl, ?_⟩
    split
    · split
      · exact Keeps.ite hs.waitRetry hs
      · exact hs
    · exact hs
  | waitNotice wait =>
    refine ⟨_, rfl, ?_⟩
    split
    · split
      · split
        · exact hs.waitNotice
        · exact hs
      · exact hs
    · exact hs
  | waitTimeout wait =>
    refine ⟨_, rfl, ?_⟩
    split
    · split
      · split
        · exact hs
        · exact Keeps.ite hs hs.endWait
      · exact hs
    · exact hs
  | engineStopAck stop engine => exact ⟨_, rfl, Keeps.ite hs.stopAck hs⟩
  | reclaim fn p => exact ⟨_, rfl, Keeps.ite hs.startReclaim hs⟩
  | evqEnable fn t size => exact ⟨_, rfl, Keeps.ite hs.evqOn hs⟩
  | evqDisable fn t => exact ⟨_, rfl, Keeps.ite hs.same.wr hs⟩
  | evqReadWrite fn t data => exact ⟨_, rfl, Keeps.ite hs.evqConsume hs⟩
  | evqMaskWrite fn t data => exact ⟨_, rfl, Keeps.ite hs.evqUnmask hs⟩
  | overflowRecord t => exact ⟨_, rfl, Keeps.ite hs.evOwed hs⟩
  | poolGrant => exact ⟨_, rfl, Keeps.ite hs.poolGrant hs⟩
  | sliceExpiry p => exact ⟨_, rfl, Keeps.ite hs.sliceExpiry hs⟩
  | blockSaveDone vat block => exact ⟨_, rfl, Keeps.ite hs.saveDone hs⟩
  | dlEntryEnable entry en => exact ⟨_, rfl, Keeps.ite hs.dlEnable hs⟩
  | dlCheckpoint entry frame => exact ⟨_, rfl, Keeps.ite hs.dlCheckpoint hs⟩
  | stuffBoxPeriod => exact ⟨_, rfl, Keeps.ite hs.stuffPeriod hs⟩
  | migrationRetry wait =>
    refine ⟨_, rfl, ?_⟩
    split
    · split
      · exact Keeps.ite hs.migRetry hs
      · exact hs
    · exact hs
  | replay fn p entry => exact ⟨_, rfl, Keeps.ite (hs.migReply (fun hs1 => hs1.endMig)) hs⟩
  | migFail fn p entry => exact ⟨_, rfl, Keeps.ite (hs.migReply (fun hs1 => hs1.failMig)) hs⟩
  | migrationPatienceExpiry wait =>
    refine ⟨_, rfl, ?_⟩
    split
    · split
      · exact Keeps.ite hs hs.failMig
      · exact hs
    · exact hs
  | invalidateAck p cache =>
    refine ⟨_, rfl, ?_⟩
    split
    · split
      · exact hs
      · exact hs.invalAck
    · exact hs
  | xltRootWrite fn p word data => exact ⟨_, rfl, Keeps.ite hs.rootWrite hs⟩
  | l2Access port policy op addr parity =>
    refine ⟨_, rfl, ?_⟩
    split
    · split
      · exact Keeps.ite hs.deviceReset hs.l2Serve
      · exact hs.parityClean.l2Serve
      · exact hs.l2Serve
    · exact hs
  | dramReadReturn port part addr dataFlip checkFlip => exact ⟨_, rfl, Keeps.ite hs.dramReadReturn hs⟩
  | l2EnableWrite en => exact ⟨_, rfl, Keeps.ite hs.wr hs⟩
  | scrubStart => exact ⟨_, rfl, hs.maintAsk (fun hs1 => hs1.actAsk)⟩
  | scrubStop => exact ⟨_, rfl, hs.maintAsk (fun hs1 => hs1.scrubStop)⟩
  | selftest arg => exact ⟨_, rfl, hs.ctrlAsk⟩
  | l2flushWb => exact ⟨_, rfl, hs.l2flush⟩
  | l2flushInv => exact ⟨_, rfl, hs.l2flush⟩
  | l2flushWbinv => exact ⟨_, rfl, hs.l2flush⟩
  | saveall => exact ⟨_, rfl, hs.maintAsk (fun hs1 => hs1.saveallAsk)⟩
  | retrain arg => exact ⟨_, rfl, hs.ctrlAsk⟩
  | retrainDrift ctrl => exact ⟨_, rfl, Keeps.ite hs.actAsk hs⟩
  | scrubSector dataFlip checkFlip => exact ⟨_, rfl, Keeps.ite hs.scrubStep hs⟩
  | maintComplete act target mismatch => exact ⟨_, rfl, Keeps.ite hs.maintComplete hs⟩
  | plpSlotEnable slot owner => exact ⟨_, rfl, Keeps.ite hs.plpSlotEnable hs⟩
  | pictureDone engine => exact ⟨_, rfl, Keeps.ite hs.pictureDone hs⟩
  | balerDone => exact ⟨_, rfl, Keeps.ite hs.balerDone hs⟩
  | trainingComplete port peer wide => exact ⟨_, rfl, Keeps.ite hs.portUp hs⟩
  | trainFail port cause => exact ⟨_, rfl, Keeps.ite hs.trainFail hs⟩
  | trainRetry port => exact ⟨_, rfl, Keeps.ite hs.wr hs⟩
  | flitReceive port flit => exact ⟨_, rfl, Keeps.ite hs.flitReceive hs⟩
  | ackTimeout port => exact ⟨_, rfl, Keeps.ite hs.replayPort hs⟩
  | linkDown port cause => exact ⟨_, rfl, Keeps.ite hs.portDown hs⟩
  | lockLoss port => exact ⟨_, rfl, Keeps.ite hs.portDown hs⟩
  | silenceTimeout port => exact ⟨_, rfl, Keeps.ite hs.portDown hs⟩
  | feltRd port => exact ⟨_, rfl, hs.takeMsg (fun hs1 => hs1.serve (fun hs2 => hs2.serveRd))⟩
  | feltWr port => exact ⟨_, rfl, hs.takeMsg (fun hs1 => hs1.serve (fun hs2 => hs2.serveWr))⟩
  | feltAtom port => exact ⟨_, rfl, hs.takeMsg (fun hs1 => hs1.serve (fun hs2 => hs2.serveAtom))⟩
  | feltSignal port => exact ⟨_, rfl, hs.takeMsg (fun hs1 => hs1.serve (fun hs2 => hs2.serveSignal))⟩
  | feltEvt port => exact ⟨_, rfl, hs.takeMsg (fun hs1 => hs1.serve (fun hs2 => hs2.serveEvt))⟩
  | fwchunk port => exact ⟨_, rfl, hs.takeMsg (fun hs1 => hs1.serve (fun hs2 => hs2.serveChunk))⟩
  | cpl port => exact ⟨_, rfl, hs.takeMsg (fun hs1 => hs1.takeCpl)⟩
  | token port => exact ⟨_, rfl, hs.ringctl (fun hs1 => Keeps.ite hs1.replyBy.tokenBack hs1.replyBy.tokenOn)⟩
  | measure port => exact ⟨_, rfl, hs.ringctl (fun hs1 => hs1.replyBy)⟩
  | membership port => exact ⟨_, rfl, hs.ringctl (fun hs1 => hs1.replyBy.installMembers)⟩
  | heartbeat port => exact ⟨_, rfl, hs.ringctl (fun hs1 => hs1.replyBy)⟩
  | linkChange port => exact ⟨_, rfl, hs.ringctl (fun hs1 => Keeps.ite hs1.replyBy.discover hs1.replyBy)⟩
  | prepare port =>
    refine ⟨_, rfl, ?_⟩
    refine hs.ringctl (fun hs1 => ?_)
    split
    next e => exact (hs1.rxPiece.of_fst e).replyTo
    next e =>
      split
      next e1 => exact ((hs1.rxPiece.of_fst e).prepareDelta.of_fst e1).replyTo
  | commit port => exact ⟨_, rfl, hs.ringctl (fun hs1 => hs1.commitHere.replyBy)⟩
  | deltaReplay port =>
    refine ⟨_, rfl, ?_⟩
    refine hs.ringctl (fun hs1 => ?_)
    split
    next e => exact (hs1.rxPiece.of_fst e).replyBy
    next e => exact (hs1.rxPiece.of_fst e).replayDelta.replyBy
  | func port => exact ⟨_, rfl, hs.ringctl (fun hs1 => hs1.serveFunc)⟩
  | root port => exact ⟨_, rfl, hs.ringctl (fun hs1 => hs1.wrAddr.wr.replyTo)⟩
  | invalidate port => exact ⟨_, rfl, hs.ringctl (fun hs1 => hs1.wrAddr.invalRequest.same)⟩
  | column port => exact ⟨_, rfl, hs.column⟩
  | columnDone port => exact ⟨_, rfl, hs.ringctl (fun hs1 => hs1.replyTo.columnDone.settleStops)⟩
  | fwResult port => exact ⟨_, rfl, hs.ringctl (fun hs1 => hs1.replyTo.fwResult)⟩
  | ready port => exact ⟨_, rfl, hs.ringctl (fun hs1 => hs1.replyBy.same.admitStep)⟩
  | badSub port => exact ⟨_, rfl, hs.takeMsg (fun hs1 => hs1.serve (fun hs2 => hs2.replyTo))⟩
  | heartbeatSend => exact ⟨_, rfl, Keeps.ite (hs.foldl fun hs1 => hs1.feltReq) hs⟩
  | orphaned => exact ⟨_, rfl, Keeps.ite hs.orphan hs⟩
  | withdraw value => exact ⟨_, rfl, Keeps.ite hs.withdraw hs⟩
  | rediscover => exact ⟨_, rfl, Keeps.ite hs.discover hs⟩
  | targetOn who dom => exact ⟨_, rfl, Keeps.ite (Keeps.ite hs.wr.domWake.domResult hs.wr.domResult) hs⟩
  | targetRet who dom => exact ⟨_, rfl, Keeps.ite hs.wr.domAsk hs⟩
  | targetOff who dom => exact ⟨_, rfl, Keeps.ite hs.wr.domAsk hs⟩
  | domainIdleExpiry dom => exact ⟨_, rfl, Keeps.ite hs.idleExpiry hs⟩
  | domainEntryDone dom => exact ⟨_, rfl, Keeps.ite hs.entryDone hs⟩
  | domainWake dom => exact ⟨_, rfl, Keeps.ite hs.domWake hs⟩
  | domainExitDone dom => exact ⟨_, rfl, Keeps.ite hs.exitDone hs⟩
  | dvfsWrite rail vop fop => exact ⟨_, rfl, Keeps.ite (Keeps.ite hs.same hs.dvfsApply) hs⟩
  | avsReadback rail => exact ⟨_, rfl, Keeps.ite hs.avsReadback hs⟩
  | avsTimeout rail => exact ⟨_, rfl, Keeps.ite hs.avsTimeout hs⟩
  | limiterBin power temp sensor currentLow =>
    exact ⟨_, rfl, Keeps.ite hs.setTemp.addBin.powerLimit.currentRise.thermalLimit hs⟩
  | currentTrip => exact ⟨_, rfl, Keeps.ite hs.currentTrip hs⟩
  | thermalTrip temp sensor => exact ⟨_, rfl, Keeps.ite hs.thermalTrip hs⟩
  | wearHour => exact ⟨_, rfl, Keeps.ite hs.wearHour hs⟩
  | vrHot low => exact ⟨_, rfl, Keeps.ite hs.setPin.thermHold hs.setPin⟩
  | pwrBrake low => exact ⟨_, rfl, Keeps.ite hs.setPin.thermHold hs.setPin⟩
  | bootStart dramOk => exact ⟨_, rfl, hs.bootStart⟩
  | mgcWatchdog => exact ⟨_, rfl, Keeps.ite hs.deviceReset hs⟩
  | mgcException => exact ⟨_, rfl, Keeps.ite hs.deviceReset hs⟩
  | finalise => exact ⟨_, rfl, hs.mboxRec (fun hs1 => hs1.finalise)⟩
  | fwStage => exact ⟨_, rfl, hs.mboxRec (fun hs1 => hs1.fwStage)⟩
  | fwCommit => exact ⟨_, rfl, hs.mbox (fun hs1 => Keeps.ite hs1.mboxDone hs1.fwCommit)⟩
  | fwRevert => exact ⟨_, rfl, hs.mbox (fun hs1 => Keeps.ite hs1.mboxDone hs1.fwRevert)⟩
  | attest => exact ⟨_, rfl, hs.mboxRec (fun hs1 => hs1.attest)⟩
  | identity => exact ⟨_, rfl, hs.mboxRec (fun hs1 => hs1.identityCmd)⟩
  | furnishWrite => exact ⟨_, rfl, hs.mboxRec (fun hs1 => hs1.furnishWrite)⟩
  | svcStatus => exact ⟨_, rfl, Keeps.ite hs.same hs⟩
  | readLog n =>
    refine ⟨_, rfl, ?_⟩
    split
    · split
      · exact hs.same
      · exact hs.same
    · exact hs
  | svcWrite off bytes => exact ⟨_, rfl, Keeps.ite hs.svcWrite hs⟩
  | svcGo option => exact ⟨_, rfl, Keeps.ite hs.svcGo hs⟩
  | clear =>
    refine ⟨_, rfl, .ite (Keeps.setSvc { hs with memories := fun w => ?_, work := False.elim }) hs⟩
    obtain ⟨hdram, hhost, htrace, hflash, -⟩ := w
    exact ⟨hdram, hhost, htrace, hflash, rfl⟩
  | freezeNFall => exact ⟨_, rfl, Keeps.ite hs.sameUnits.freezeTrigger hs.sameUnits⟩
  | dbgFreezeGo key => exact ⟨_, rfl, Keeps.ite hs.freezeGo hs⟩
  | apertureRead off bytes =>
    exact ⟨_, rfl, Keeps.ite hs (Keeps.ite hs.unsupported (Keeps.ite hs.apRead.same hs.answer))⟩
  | extest scan => exact ⟨_, rfl, hs.boundary⟩
  | samplePreload scan => exact ⟨_, rfl, hs.boundary⟩
  | idcode => exact ⟨_, rfl, hs.setIr.answer⟩
  | apAddr addr => exact ⟨_, rfl, hs.same⟩
  | apDataCapture => exact ⟨_, rfl, hs.apCapture.same⟩
  | apDataUpdate data => exact ⟨_, rfl, Keeps.ite hs.same.dbgWrite hs.same⟩
  | bypass => exact ⟨_, rfl, hs.tapBypass⟩
  | coldReset => exact ⟨_, rfl, hs.coldReset⟩
  | pwrokRise straps => exact ⟨_, rfl, Keeps.ite hs hs.sameUnits⟩
  | warmReset pin => exact ⟨_, rfl, Keeps.ite hs.warmReset hs⟩
  | warmResetEnd straps => exact ⟨_, rfl, Keeps.ite hs.sameUnits hs⟩
  | railUndervoltage rail => exact ⟨_, rfl, hs.feltLow⟩
  | smbTemp => exact ⟨_, rfl, hs.smbRead⟩
  | smbAvg => exact ⟨_, rfl, hs.smbRead⟩
  | smbPwrStatus => exact ⟨_, rfl, hs.smbRead⟩
  | smbBootStatus => exact ⟨_, rfl, hs.smbRead⟩
  | smbDevresetStatus => exact ⟨_, rfl, hs.smbRead⟩
  | smbDeviceId => exact ⟨_, rfl, hs.smbRead⟩
  | smbCardId => exact ⟨_, rfl, hs.smbRead⟩
  | smbFwver => exact ⟨_, rfl, hs.smbRead⟩
  | smbUnknown write code => exact ⟨_, rfl, Keeps.ite hs.same hs⟩
  | alertResponse => exact ⟨_, rfl, Keeps.ite hs.sameUnits hs.same⟩
  | hostWdogExpiry => exact ⟨_, rfl, Keeps.ite hs.sameUnits hs⟩
  | glbZt2Write value => exact ⟨_, rfl, Keeps.ite hs.wr hs⟩
  | msixVectorUnmask fn => exact ⟨_, rfl, Keeps.ite hs.setFn.sendPending hs⟩
  | hostWdogPulseEnd => exact ⟨_, rfl, hs.sameUnits⟩
  | testLogicReset => exact ⟨_, rfl, hs.same⟩
  | pcieLinkUp speed width => exact ⟨_, rfl, Keeps.ite hs.same hs⟩

theorem exec_keeps_of_next {c : Instr} {s t : State} (h : exec c s = .next t) : Keeps False s t := by
  obtain ⟨u, hu, hkeeps⟩ := exec_keeps c s
  rw [hu, Host.Outcome.next.injEq] at h
  exact h ▸ hkeeps

/-- What a step keeps is what its command keeps, on the state with the queue's rest. -/
theorem step_keeps {s t : State} (h : step s = .next t) : ∃ rest, Keeps False { s with pending := rest } t := by
  unfold step at h
  split at h
  · rw [Host.Outcome.next.injEq] at h
    exact ⟨s.pending, h ▸ Keeps.refl False s⟩
  next c rest _ => exact ⟨rest, exec_keeps_of_next h⟩

end Sys2Proof.Machine

open Sys2Proof Sys2Proof.Machine Sys2Proof.Claims

/-- Settles O1, by the definition of `step`. -/
theorem stepRunsTheFrontCommand : Obligations.StepRunsTheFrontCommand := fun _ _ _ => rfl

/-- Settles O2, by the definition of `step`. -/
theorem stepIdlesOnAnEmptyQueue : Obligations.StepIdlesOnAnEmptyQueue := by
  intro s h
  rw [step, h]

/-- Settles O4: at reset every memory is empty. -/
theorem resetMemoriesAreCanonical : Obligations.ResetMemoriesAreCanonical := ⟨rfl, rfl, rfl, rfl, rfl⟩

/-- Settles O5, by `step_keeps`: each write of a memory in the model goes through `Mem.set` or `Mem.write`, which keep the
canonical form, and a reset empties a memory or keeps it. -/
theorem everyStepKeepsMemoriesCanonical : Obligations.EveryStepKeepsMemoriesCanonical := by
  intro s t hs h
  obtain ⟨rest, hkeeps⟩ := step_keeps h
  exact hkeeps.memories hs

/-- Settles O6, by `exec_keeps`. -/
theorem noCommandChangesTheQueue : Obligations.NoCommandChangesTheQueue :=
  fun _ _ _ h => (exec_keeps_of_next h).pending

/-- Settles O7, by `step_keeps`: only FW_COMMIT and WEAR_HOUR write a fuse that the statement names. -/
theorem fusesAreOnlyBurnt : Obligations.FusesAreOnlyBurnt := by
  intro s t h
  obtain ⟨rest, hkeeps⟩ := step_keeps h
  obtain ⟨hproduct, hsettings, himg, hfns, hdevice, hidentity, hsvn, hworn⟩ := hkeeps.fuses
  exact ⟨hkeeps.dram, hkeeps.gradeB, hproduct, hsettings, himg, hfns, hdevice, hidentity, hsvn, hworn⟩
end

