-- ==== Sys2Proof/Proofs/Clock.lean ====
section
/-!
PROOF. What needs a running clock (R491, R492, R508): a state that is not live gives no function a say, and every clocked
command asks for one or the other first.
-/

namespace Sys2Proof.Machine

section
variable {s : State} (hlive : s.live = false)
include hlive

theorem State.fnUp_of_not_live (fn : Nat) : s.fnUp fn = false := by
  rw [State.fnUp, hlive]
  rfl

theorem State.pfWrites_of_not_live : s.pfWrites = false := by
  rw [State.pfWrites, s.fnUp_of_not_live hlive]
  rfl

theorem State.mayWrite_of_not_live (fn p : Nat) : s.mayWrite fn p = false := by
  rw [State.mayWrite, s.fnUp_of_not_live hlive]
  rfl

theorem State.bellOk_of_not_live (fn p : Nat) : s.bellOk fn p = false := by
  rw [State.bellOk, s.fnUp_of_not_live hlive]
  rfl

theorem State.calWrites_of_not_live (fn : Nat) : s.calWrites fn = false := by
  rw [State.calWrites, s.pfWrites_of_not_live hlive]
  split
  · rw [s.mayWrite_of_not_live hlive]
    simp
  · rfl

theorem State.valueWritable_of_not_live (fn h : Nat) : s.valueWritable fn h = false := by
  rw [State.valueWritable, s.mayWrite_of_not_live hlive]
  rfl

theorem State.targetWrite_of_not_live (fn t : Nat) : s.targetWrite fn t = false := by
  simp [State.targetWrite, s.mayWrite_of_not_live hlive, s.pfWrites_of_not_live hlive]

theorem State.powerAsk_of_not_live (who : Requester) : s.powerAsk who = false := by
  cases who with
  | mgc => simp [State.powerAsk, hlive]
  | pf => exact s.pfWrites_of_not_live hlive

theorem State.claimAsk_of_not_live (who : Requester) (op f r : Nat) (act : State → State) :
    s.claimAsk who op f r act = s := by
  cases who with
  | mgc => exact if_neg (by simp [hlive])
  | pf => exact if_neg (by simp [s.pfWrites_of_not_live hlive])

end

end Sys2Proof.Machine

open Sys2Proof Sys2Proof.Machine Sys2Proof.Claims

/-- Settles O8: the first group of commands runs under a condition that asks for a live chip; the second, most of all the
instructions of a vat, the units' own events and the messages of other chips, ends at once on one that is not live. -/
theorem nothingRunsWithoutAClock : Obligations.NothingRunsWithoutAClock := by
  intro c s hclocked hlive
  have hpf := s.pfWrites_of_not_live hlive
  have hwrite := s.mayWrite_of_not_live hlive
  have hbell := s.bellOk_of_not_live hlive
  have hcal := s.calWrites_of_not_live hlive
  have hvalue := s.valueWritable_of_not_live hlive
  have htarget := s.targetWrite_of_not_live hlive
  have hpower := s.powerAsk_of_not_live hlive
  cases c
  case fullLoad | deltaLoad | deltaTimeout | stopPreempt | stopDrain | start | functionStopped | functionStarted |
    blockDispatch | tcvt | accSetGrant | brokePassSpilled | grant | deny | growPatienceExpiry | tileDispatch |
    couchComplete | planeArm | vblankStart | leadReached | headTrainingDone | hpdUnplug | hpdPlug | irqHpd |
    scanoutLineFail | doorbellWrite | invalidateDoorbell | bar4Read | hostCompletion | completionTimeout |
    packetIntake | nopPacket | preloadFill | commandComplete | queueEnable | queueDestroy | resume | parserWatchdog |
    parserFault | synValueLowWrite | synValueHighWrite | waitRegisterRetry | waitNotice | waitTimeout |
    engineStopAck | reclaim | evqEnable | evqDisable | evqReadWrite | evqMaskWrite | overflowRecord | poolGrant |
    sliceExpiry | blockSaveDone | dlEntryEnable | dlCheckpoint | stuffBoxPeriod | migrationRetry | replay | migFail |
    migrationPatienceExpiry | invalidateAck | xltRootWrite | l2EnableWrite | scrubStart | scrubStop | selftest |
    l2flushWb | l2flushInv | l2flushWbinv | saveall | retrain | retrainDrift | scrubSector | maintComplete |
    plpSlotEnable | pictureDone | balerDone | trainRetry | flitReceive | ackTimeout | linkDown | lockLoss |
    silenceTimeout | heartbeatSend | orphaned | withdraw | rediscover | targetOn | targetRet | targetOff |
    domainIdleExpiry | domainEntryDone | domainWake | domainExitDone | dvfsWrite | avsReadback | avsTimeout |
    wearHour | mgcWatchdog | mgcException | finalise | fwStage | fwCommit | fwRevert | attest | identity |
    furnishWrite | svcStatus | readLog | svcWrite | svcGo | clear | glbZt2Write | l2Access | dramReadReturn |
    trainingComplete | trainFail =>
    exact congrArg Host.Outcome.next
      (if_neg (by simp [hlive, State.svcLive, hpf, hwrite, hbell, hcal, hvalue, htarget, hpower]))
  case iadd | isub | imul | imulhi | imad | idiv | irem | imin | imax | iabs | ineg | bpcAnd | bpcOr | bpcXor |
    bpcNot | shl | shr | fext | fins | ones | clz | rvrs | isum | bdot | fadd | fsub | fmul | fma | fmin | fmax |
    frnd | fdiv | frcp | fsqrt | frsq | fexp2 | flog2 | fsin | fcos | fscale | cvt | f2f8 | f82f | pk2h | upk2h |
    inrw | icmpp | fcmpp | icmpm | fcmpm | sel | plog | fkind | mov | pget | pset | pany | pall | pmask | lget |
    lup | ldown | lflip | rduni | nop | bra | jmp | call | ret | pushm | popm | join | exit | yield | discard |
    savept | bwait | bpass | bred | ld | st | morder | prefetch | l1inv | atomAdd | atomAnd | atomOr | atomXor |
    atomMin | atomMax | atomExch | atomCas | atomInc | atomDec | atomFadd | synSignal | synAdd | synWait | synRead |
    lockAcq | lockRel | synArrive | synEvent | tld | tmma | tst | halloc | hfree | trap | tret | tretire | tesc |
    tmmaPassStart | tldDataArrival | tstSetRead | binBegin | draw | binEnd | bar4Write | launch | gatedLaunch |
    graphLaunch | graphPatchReplace | graphPatchEdit | graphPatchDelete | preload | decode | bale | unbale | copy |
    fill | signalCmd | waitCmd | eventCmd | markCmd | synCreate | synDestroy | synReset | synExport | moCreate |
    moImport | moFree | moExport | feltRd | feltWr | feltAtom | feltSignal | feltEvt | fwchunk | cpl | token |
    measure | membership | heartbeat | linkChange | prepare | commit | deltaReplay | func | root | invalidate |
    column | columnDone | fwResult | ready | badSub | bootStart | blockPatienceExpiry | illegalInstruction |
    codeEndOverrun =>
    exact congrArg Host.Outcome.next (if_pos (by simp [hlive, hwrite]))
  case claim | release => exact congrArg Host.Outcome.next (s.claimAsk_of_not_live hlive _ _ _ _ _)
  all_goals exact absurd hclocked Bool.false_ne_true
end

