-- ==== Sys2Proof/Proofs/Operands.lean ====
section
/-!
PROOF. What an instruction writes: the v, s and predicate registers of a quire after a write, the operands that a legal
destination names (R94, R95), and the registers of the lanes that compute.
-/

namespace Sys2Proof.Machine

/-! ### Bits of masks -/

theorem bitAt_andNot (x m n : Nat) : bitAt (andNot x m) n = (bitAt x n && !bitAt m n) := by
  have hsum := bitAt_andN_add_andNot 0 x m n
  rw [show andN 0 m = 0 from Nat.zero_and m, Nat.zero_add] at hsum
  rw [hsum]
  cases bitAt m n <;> simp [bitAt]

theorem bitAt_maskOf (l : List Nat) (n : Nat) : bitAt (maskOf l) n = decide (n ∈ l) := by
  rw [maskOf, bitAt_foldl_setBit]
  simp [bitAt]

theorem bitAt_mod_word (x : Nat) {n : Nat} (hn : n < 32) : bitAt (x % 2 ^ 32) n = bitAt x n := by
  rw [bitAt_eq_testBit, bitAt_eq_testBit, Nat.testBit_mod_two_pow, decide_eq_true hn, Bool.true_and]

/-- A full word's bits are all set. -/
theorem bitAt_fullWord {n : Nat} (hn : n < 32) : bitAt (2 ^ 32 - 1) n = true := by
  rw [bitAt_eq_testBit, Nat.testBit_two_pow_sub_one, decide_eq_true hn]

theorem mem_bitIdx {w x n : Nat} : n ∈ bitIdx w x ↔ n < w ∧ bitAt x n = true := by
  rw [bitIdx, List.mem_filter, List.mem_range]

/-! ### One register of a quire -/

section
variable (q : Quire) {d lane n : Nat} (x r : Nat)

theorem Quire.vreg_putReg (hd : d < 256) (hlane : lane < 32) (hn : n < 32) :
    (q.putReg d lane x).vreg r n = if r = d ∧ n = lane then x % 2 ^ 32 else q.vreg r n := by
  have hkey : 32 * r + n = 32 * d + lane ↔ r = d ∧ n = lane := by omega
  simp only [Quire.putReg, if_pos hd, Quire.vreg, storeFind_put, hkey]
  by_cases h : r = d ∧ n = lane
  · simp only [if_pos h]
    exact BitVec.toNat_ofNat x 32
  · simp only [if_neg h]

theorem Quire.sreg_putReg (hd : 256 ≤ d) (hs : d < 320) :
    (q.putReg d lane x).sreg r = if 256 + r = d then x % 2 ^ 32 else q.sreg r := by
  have hkey : r = d - 256 ↔ 256 + r = d := by omega
  simp only [Quire.putReg, if_neg (show ¬d < 256 by omega), if_pos hs, Quire.sreg, storeFind_put, hkey]
  by_cases h : 256 + r = d
  · simp only [if_pos h]
    exact BitVec.toNat_ofNat x 32
  · simp only [if_neg h]

theorem Quire.s_putReg_of_v (hd : d < 256) : (q.putReg d lane x).s = q.s := by
  rw [Quire.putReg, if_pos hd]

theorem Quire.v_putReg_of_s (hd : 256 ≤ d) : (q.putReg d lane x).v = q.v := by
  rw [Quire.putReg, if_neg (by omega)]
  split <;> rfl

/-- Two updates of the v and s registers are one. -/
theorem Quire.frame_trans {q q' q'' : Quire} (h : q' = { q with v := q'.v, s := q'.s })
    (k : q'' = { q' with v := q''.v, s := q''.s }) : q'' = { q with v := q''.v, s := q''.s } :=
  k.trans (by rw [h])

/-- A register write changes the v and s registers only. -/
theorem Quire.putReg_frame (d lane : Nat) :
    q.putReg d lane x = { q with v := (q.putReg d lane x).v, s := (q.putReg d lane x).s } := by
  unfold Quire.putReg
  split
  · rfl
  · split <;> rfl

end

/-! ### A register group, and one in every computing lane -/

section
variable (q : Quire) {f k lane n : Nat} (x r : Nat)

theorem Quire.putGroup_succ (f k lane : Nat) :
    q.putGroup f (k + 1) lane x = (q.putGroup f k lane x).putReg (f + k) lane (x / 2 ^ (32 * k) % 2 ^ 32) := by
  rw [Quire.putGroup, List.range_succ, List.foldl_append]
  rfl

theorem Quire.vreg_putGroup (hf : f + k ≤ 256) (hlane : lane < 32) (hn : n < 32) :
    (q.putGroup f k lane x).vreg r n =
      if f ≤ r ∧ r < f + k ∧ n = lane then x / 2 ^ (32 * (r - f)) % 2 ^ 32 else q.vreg r n := by
  induction k with
  | zero => exact (if_neg (by omega)).symm
  | succ k ih =>
    rw [Quire.putGroup_succ, Quire.vreg_putReg _ _ _ (by omega) hlane hn, ih (by omega)]
    by_cases hr : r = f + k ∧ n = lane
    · rw [if_pos hr, if_pos (by omega), Nat.mod_mod, hr.1, Nat.add_sub_cancel_left]
    · rw [if_neg hr]
      exact if_congr (by omega) rfl rfl

theorem Quire.sreg_putGroup (hf : 256 ≤ f) (hk : f + k ≤ 320) :
    (q.putGroup f k lane x).sreg r =
      if f ≤ 256 + r ∧ 256 + r < f + k then x / 2 ^ (32 * (256 + r - f)) % 2 ^ 32 else q.sreg r := by
  induction k with
  | zero => exact (if_neg (by omega)).symm
  | succ k ih =>
    rw [Quire.putGroup_succ, Quire.sreg_putReg _ _ _ (by omega) (by omega), ih (by omega)]
    by_cases hr : 256 + r = f + k
    · rw [if_pos hr, if_pos (by omega), Nat.mod_mod, hr, Nat.add_sub_cancel_left]
    · rw [if_neg hr]
      exact if_congr (by omega) rfl rfl

theorem Quire.s_putGroup_of_v (hf : f + k ≤ 256) : (q.putGroup f k lane x).s = q.s := by
  induction k with
  | zero => rfl
  | succ k ih => rw [Quire.putGroup_succ, Quire.s_putReg_of_v _ _ (by omega), ih (by omega)]

theorem Quire.v_putGroup_of_s (hf : 256 ≤ f) : (q.putGroup f k lane x).v = q.v := by
  induction k with
  | zero => rfl
  | succ k ih => rw [Quire.putGroup_succ, Quire.v_putReg_of_s _ _ (by omega), ih]

theorem Quire.putGroup_frame (f k lane : Nat) :
    q.putGroup f k lane x = { q with v := (q.putGroup f k lane x).v, s := (q.putGroup f k lane x).s } := by
  induction k with
  | zero => rfl
  | succ k ih =>
    rw [Quire.putGroup_succ]
    exact Quire.frame_trans ih (Quire.putReg_frame _ _ _ _)

end

/-- D's group written in each of a list of lanes. -/
def Quire.putLanes (q : Quire) (d k : Nat) (vals : List (Nat × Nat)) : Quire :=
  vals.foldl (fun q x => q.putGroup d k x.1 x.2) q

section
variable {d k : Nat} (q : Quire)

theorem Quire.putLanes_frame (d k : Nat) (vals : List (Nat × Nat)) :
    q.putLanes d k vals = { q with v := (q.putLanes d k vals).v, s := (q.putLanes d k vals).s } := by
  induction vals generalizing q with
  | nil => rfl
  | cons x vals ih => exact Quire.frame_trans (q.putGroup_frame x.2 d k x.1) (ih _)

theorem Quire.vreg_putLanes (hd : d + k ≤ 256) (lanes : List Nat) (hlanes : ∀ m ∈ lanes, m < 32) (f : Nat → Nat) (r : Nat)
    {n : Nat} (hn : n < 32) : (q.putLanes d k (lanes.map fun m => (m, f m))).vreg r n =
      if d ≤ r ∧ r < d + k ∧ n ∈ lanes then f n / 2 ^ (32 * (r - d)) % 2 ^ 32 else q.vreg r n := by
  induction lanes generalizing q with
  | nil => simp [Quire.putLanes]
  | cons m lanes ih =>
    obtain ⟨hm, hlanes⟩ := List.forall_mem_cons.mp hlanes
    refine (ih (q.putGroup d k m (f m)) hlanes).trans ?_
    rw [Quire.vreg_putGroup q _ _ hd hm hn]
    by_cases hr : d ≤ r ∧ r < d + k
    · by_cases hmem : n ∈ lanes
      · simp [hr, hmem]
      · by_cases hnm : n = m
        · simp [hr, hnm]
        · simp [hmem, hnm]
    · rw [if_neg (by tauto), if_neg (by tauto), if_neg (by tauto)]

theorem Quire.s_putLanes_of_v (hd : d + k ≤ 256) (vals : List (Nat × Nat)) : (q.putLanes d k vals).s = q.s := by
  induction vals generalizing q with
  | nil => rfl
  | cons x vals ih => exact (ih _).trans (q.s_putGroup_of_v _ hd)

theorem Quire.v_putLanes_of_s (hd : 256 ≤ d) (vals : List (Nat × Nat)) : (q.putLanes d k vals).v = q.v := by
  induction vals generalizing q with
  | nil => rfl
  | cons x vals ih => exact (ih _).trans (q.v_putGroup_of_s _ hd)

end

/-! ### Predicates -/

@[simp] theorem Quire.preg_atPc (q : Quire) (pc k : Nat) : Quire.preg { q with pc := pc } k = q.preg k := by
  unfold Quire.preg
  rfl

theorem Quire.bitAt_preg_putPred (q : Quire) {k n : Nat} (mask x : Nat) (hk : k ≠ 0) (hn : n < 32) :
    bitAt ((q.putPred k mask x).preg k) n = if bitAt mask n then bitAt x n else bitAt (q.preg k) n := by
  have hget : (q.putPred k mask x).preg k = (andNot (q.preg k) mask ||| (x &&& mask)) % 2 ^ 32 := by
    simp only [Quire.putPred, if_neg hk, Quire.preg, storeFind_put]
    exact BitVec.toNat_ofNat _ 32
  rw [hget, bitAt_mod_word _ hn, bitAt_eq_testBit, Nat.testBit_or, Nat.testBit_and]
  simp only [← bitAt_eq_testBit, bitAt_andNot]
  cases bitAt mask n <;> simp

theorem Quire.preg_putPred_ne (q : Quire) {k j : Nat} (mask x : Nat) (h : j ≠ k) : (q.putPred k mask x).preg j = q.preg j := by
  unfold Quire.putPred
  split
  · rfl
  · simp only [Quire.preg, storeFind_put, if_neg h]

/-- A write of a predicate changes the predicates only; one of p0 changes nothing (R94). -/
theorem Quire.putPred_frame (q : Quire) (k mask x : Nat) : q.putPred k mask x = { q with pr := (q.putPred k mask x).pr } := by
  unfold Quire.putPred
  split <;> rfl

/-- The predicates below k written in turn, each under its own mask. -/
def Quire.putPreds (q : Quire) (k : Nat) (mask x : Nat → Nat) : Quire :=
  (List.range k).foldl (fun q j => q.putPred j (mask j) (x j)) q

theorem Quire.putPreds_succ (q : Quire) (k : Nat) (mask x : Nat → Nat) :
    q.putPreds (k + 1) mask x = (q.putPreds k mask x).putPred k (mask k) (x k) := by
  rw [Quire.putPreds, List.range_succ, List.foldl_append]
  rfl

theorem Quire.bitAt_preg_putPreds (q : Quire) (mask x : Nat → Nat) {k j n : Nat} (hj : 0 < j) (hn : n < 32) :
    bitAt ((q.putPreds k mask x).preg j) n =
      if j < k ∧ bitAt (mask j) n = true then bitAt (x j) n else bitAt (q.preg j) n := by
  induction k with
  | zero => simp [Quire.putPreds]
  | succ k ih =>
    rw [Quire.putPreds_succ]
    by_cases hjk : j = k
    · subst hjk
      rw [Quire.bitAt_preg_putPred _ _ _ (by omega) hn, ih]
      simp
    · rw [Quire.preg_putPred_ne _ _ _ hjk, ih]
      exact if_congr (and_congr_left fun _ => by omega) rfl rfl

theorem Quire.putPreds_frame (q : Quire) (k : Nat) (mask x : Nat → Nat) :
    q.putPreds k mask x = { q with pr := (q.putPreds k mask x).pr } := by
  induction k with
  | zero => rfl
  | succ k ih =>
    rw [Quire.putPreds_succ]
    exact (Quire.putPred_frame _ _ _ _).trans (by rw [ih])

/-! ### The destination of a legal instruction -/

theorem widths_cases (i : BInst) : (widths i).1 = 1 ∨ (widths i).1 = 2 ∨ (widths i).1 = 4 := by
  unfold widths
  dsimp only
  split
  all_goals split_ifs <;> simp

/-- An opcode whose D is a v or s register group in every form (R94): none of a tensor, and neither a compare to predicates, a
vote, BRED nor an atomic. -/
def NamesReg (op : Nat) : Bool :=
  !isTensor op && !([0x50, 0x51, 0x55, 0x60, 0x61, 0x82].contains op) &&
    (opSpec op).any (fun o => o.d && !decide (o.lay = .atm))

/-- An opcode whose D is a predicate (R94). -/
def NamesPred (op : Nat) : Bool :=
  !isTensor op && [0x50, 0x51, 0x55, 0x60, 0x61].contains op && (opSpec op).any (fun o => o.d && !decide (o.lay = .atm))

/-- D of an instruction with one: its kind is in order and its group is aligned (R94, R95). -/
theorem dest_of_legal {i : BInst} (h : legal i = true) (htensor : isTensor i.op = false)
    (hspec : (opSpec i.op).any (fun o => o.d && !(decide (o.lay = .atm) && i.bit10)) = true) :
    ∃ o, o.d = true ∧ (decide (o.lay = .atm) && i.bit10) = false ∧ destOk i o = true ∧
      groupOk i.d (if okind i.d = .p then 1 else (widths i).1) = true := by
  unfold legal at h
  cases hop : opSpec i.op with
  | none => simp [hop] at hspec
  | some o =>
    simp only [hop, Option.any_some, Bool.and_eq_true, Bool.not_eq_true'] at hspec
    obtain ⟨hd, hlay⟩ := hspec
    simp only [hop, htensor, hd, Bool.false_eq_true, if_false, Bool.not_true, Bool.false_or, Bool.and_eq_true] at h
    obtain ⟨-, ⟨⟨⟨hdest, -⟩, -⟩, hgroup⟩, -⟩ := h
    exact ⟨o, hd, hlay, hdest, hgroup⟩

/-- An opcode with a D in every form has one. -/
theorem opSpec_any_of_every {i : BInst} (h : (opSpec i.op).any (fun o => o.d && !decide (o.lay = .atm)) = true) :
    (opSpec i.op).any (fun o => o.d && !(decide (o.lay = .atm) && i.bit10)) = true := by
  rw [Option.any_eq_true] at h ⊢
  obtain ⟨o, ho, hd⟩ := h
  rw [Bool.and_eq_true, Bool.not_eq_true'] at hd
  exact ⟨o, ho, by simp [hd]⟩

/-- D's group lies in the v registers or in the s registers, unless it is a predicate. -/
theorem destGroup_of_dest {i : BInst} (h : legal i = true) (htensor : isTensor i.op = false)
    (hpred : [0x50, 0x51, 0x55, 0x60, 0x61, 0x82].contains i.op = false)
    (hspec : (opSpec i.op).any (fun o => o.d && !(decide (o.lay = .atm) && i.bit10)) = true) :
    (okind i.d = .v ∧ i.d + (widths i).1 ≤ 256) ∨ (okind i.d = .s ∧ 256 ≤ i.d ∧ i.d + (widths i).1 ≤ 320) := by
  obtain ⟨o, hd, hlay, hdest, hgroup⟩ := dest_of_legal h htensor hspec
  have hbred : i.op ≠ 0x82 := by
    rintro heq
    simp [heq] at hpred
  have hpred' : [0x50, 0x51, 0x55, 0x60, 0x61].contains i.op = false := by
    simp only [List.contains_eq_mem, decide_eq_false_iff_not, List.mem_cons, not_or] at hpred ⊢
    tauto
  have hkind : okind i.d = .v ∨ okind i.d = .s := by
    simp only [destOk, hd, hlay, hpred', hbred, Bool.not_true, Bool.or_self, Bool.false_eq_true, if_false] at hdest
    split at hdest
    · exact .inr (by simpa using hdest)
    · simpa using hdest
  have hw := widths_cases i
  unfold groupOk at hgroup
  obtain hv | hs := hkind
  · have hlt : i.d < 256 := by
      unfold okind at hv
      split_ifs at hv
      assumption
    simp only [hv, reduceCtorEq, if_false, decide_eq_true_eq] at hgroup
    refine .inl ⟨hv, ?_⟩
    obtain hw | hw | hw := hw <;> rw [hw] at hgroup ⊢ <;> omega
  · have hlt : 256 ≤ i.d ∧ i.d < 320 := by
      unfold okind at hs
      split_ifs at hs
      omega
    simp only [hs, reduceCtorEq, if_false, decide_eq_true_eq] at hgroup
    refine .inr ⟨hs, hlt.1, ?_⟩
    obtain hw | hw | hw := hw <;> rw [hw] at hgroup ⊢ <;> omega

theorem destGroup_of_legal {i : BInst} (h : legal i = true) (hop : NamesReg i.op = true) :
    (okind i.d = .v ∧ i.d + (widths i).1 ≤ 256) ∨ (okind i.d = .s ∧ 256 ≤ i.d ∧ i.d + (widths i).1 ≤ 320) := by
  simp only [NamesReg, Bool.and_eq_true, Bool.not_eq_true'] at hop
  obtain ⟨⟨htensor, hpred⟩, hspec⟩ := hop
  exact destGroup_of_dest h htensor hpred (opSpec_any_of_every hspec)

theorem destPred_of_legal {i : BInst} (h : legal i = true) (hop : NamesPred i.op = true) : okind i.d = .p := by
  simp only [NamesPred, Bool.and_eq_true, Bool.not_eq_true'] at hop
  obtain ⟨⟨htensor, hpred⟩, hspec⟩ := hop
  obtain ⟨o, hd, hlay, hdest, -⟩ := dest_of_legal h htensor (opSpec_any_of_every hspec)
  simpa only [destOk, hd, hlay, hpred, Bool.not_true, Bool.or_self, Bool.false_eq_true,
    if_false, if_true, decide_eq_true_eq] using hdest

end Sys2Proof.Machine
end

