-- ==== Sys2Proof/Proofs/Instructions.lean ====
section
/-!
PROOF. What every instruction begins with (R97, R98), and the instructions that write their results to D or to a predicate in
each computing lane: one rule for each kind, by the destination that a legal instruction names.
-/

namespace Sys2Proof.Claims
open Sys2Proof.Machine

/-! ### Lanes -/

theorem lt_of_mem_lanes {c : BCtx} {n : Nat} (h : n ∈ c.lanes) : n < 32 := (mem_bitIdx.mp h).1

theorem lt_of_mem_doers {c : BCtx} {n : Nat} (h : n ∈ c.doers) : n < 32 := by
  unfold BCtx.doers at h
  split at h
  · exact lt_of_mem_lanes (List.mem_of_mem_take h)
  · exact lt_of_mem_lanes h

/-- An s destination is written by one lane at most (R96). -/
theorem doers_of_s {c : BCtx} (h : okind c.i.d = .s) : c.doers = [] ∨ ∃ m, c.doers = [m] := by
  rw [BCtx.doers, if_pos h]
  cases c.lanes with
  | nil => exact .inl rfl
  | cons m l => exact .inr ⟨m, rfl⟩

/-! ### A result in D -/

/-- The quire with a result in D, for a destination in the v registers. -/
theorem dWritten_of_v {c : BCtx} (hd : c.i.d + (widths c.i).1 ≤ 256) (hkind : okind c.i.d = .v) (f : Nat → Nat) :
    DWritten c { c.writeD (c.doers.map fun n => (n, f n)) with pc := c.i.next } f := by
  have hq : c.writeD (c.doers.map fun n => (n, f n)) =
      c.q.putLanes c.i.d (widths c.i).1 (c.doers.map fun n => (n, f n)) := if_neg (by simp [hkind])
  have hvreg (r : Nat) {n : Nat} (hn : n < 32) := c.q.vreg_putLanes hd c.doers (fun _ => lt_of_mem_doers) f r hn
  rw [hq]
  refine ⟨fun _ n hmem j hj => ?_, fun hs => ?_, fun r n hn hout => ?_, fun r _ => ?_, ?_⟩
  · refine (hvreg (c.i.d + j) (lt_of_mem_doers hmem)).trans ?_
    rw [if_pos ⟨by omega, by omega, hmem⟩, Nat.add_sub_cancel_left]
  · simp [hkind] at hs
  · exact (hvreg r hn).trans (if_neg hout)
  · simp only [Quire.sreg, Quire.s_putLanes_of_v c.q hd]
    rw [c.q.putLanes_frame]
  · rw [c.q.putLanes_frame]

/-- The quire with a result in D, for a destination in the s registers, which one lane writes. -/
theorem dWritten_of_s {c : BCtx} (hlo : 256 ≤ c.i.d) (hd : c.i.d + (widths c.i).1 ≤ 320) (hkind : okind c.i.d = .s)
    (f : Nat → Nat) : DWritten c { c.writeD (c.doers.map fun n => (n, f n)) with pc := c.i.next } f := by
  have hq : c.writeD (c.doers.map fun n => (n, f n)) =
      c.q.putLanes c.i.d (widths c.i).1 (c.doers.map fun n => (n, f n)) := if_neg (by simp [hkind])
  have hsreg {m : Nat} (hm : c.doers = [m]) (r : Nat) :
      (c.q.putLanes c.i.d (widths c.i).1 (c.doers.map fun n => (n, f n))).sreg r =
        if c.i.d ≤ 256 + r ∧ 256 + r < c.i.d + (widths c.i).1 then f m / 2 ^ (32 * (256 + r - c.i.d)) % 2 ^ 32
        else c.q.sreg r := by
    rw [hm]
    exact c.q.sreg_putGroup _ r hlo hd
  rw [hq]
  refine ⟨fun hv => ?_, fun _ n hmem j hj => ?_, fun r n _ _ => ?_, fun r hout => ?_, ?_⟩
  · simp [hkind] at hv
  · obtain hnone | ⟨m, hm⟩ := doers_of_s hkind
    · simp [hnone] at hmem
    · obtain rfl : n = m := by simpa [hm] using hmem
      refine (hsreg hm _).trans ?_
      rw [if_pos (by omega), show 256 + (c.i.d - 256 + j) - c.i.d = j by omega]
  · simp only [Quire.vreg, Quire.v_putLanes_of_s c.q hlo]
    rw [c.q.putLanes_frame]
  · obtain hnone | ⟨m, hm⟩ := doers_of_s hkind
    · rw [hnone]
      rfl
    · exact (hsreg hm r).trans (if_neg hout)
  · rw [c.q.putLanes_frame]

theorem dWritten_of_group {c : BCtx} (h : (okind c.i.d = .v ∧ c.i.d + (widths c.i).1 ≤ 256) ∨
    (okind c.i.d = .s ∧ 256 ≤ c.i.d ∧ c.i.d + (widths c.i).1 ≤ 320)) (f : Nat → Nat) :
    DWritten c { c.writeD (c.doers.map fun n => (n, f n)) with pc := c.i.next } f := by
  obtain ⟨hkind, hd⟩ | ⟨hkind, hlo, hd⟩ := h
  · exact dWritten_of_v hd hkind f
  · exact dWritten_of_s hlo hd hkind f

theorem dWritten_writeD {c : BCtx} (h : legal c.i = true) (hop : NamesReg c.i.op = true) (f : Nat → Nat) :
    DWritten c { c.writeD (c.doers.map fun n => (n, f n)) with pc := c.i.next } f :=
  dWritten_of_group (destGroup_of_legal h hop) f

section
variable {s : State} {vat slot : Fin 64} {op : Nat} {c : BCtx} {cmd : Instr}

/-- An instruction that computes a value for each lane writes it to D and changes nothing else (R98). -/
theorem Issues.writesD (h : Issues s vat slot op c) {f : BCtx → Nat → Nat} {g : Nat → Nat}
    (hexec : exec cmd s = .next (s.perLane vat slot op f)) (hf : f c = g) (hop : NamesReg op = true) :
    WritesD cmd s c g := by
  subst hf
  obtain ⟨u, hu, hquire, honly⟩ := h.quireBecomes (k := fun s c => c.done s (c.writeD (c.doers.map fun n => (n, f c n))))
    hexec rfl
  exact ⟨u, _, hu, hquire, dWritten_writeD h.legal (h.code ▸ hop) (f c), honly⟩

/-! ### A result in a predicate -/

/-- The quire with a predicate written under a mask of lanes. -/
theorem predWritten_putPred (lanes : List Nat) (mask x : Nat) (f : Nat → Bool) (hd : 320 ≤ c.i.d)
    (hmask : ∀ n < 32, bitAt mask n = decide (n ∈ lanes)) (hx : ∀ n ∈ lanes, n < 32 → bitAt x n = f n) :
    PredWritten c lanes { c.q.putPred (c.i.d - 320) mask x with pc := c.i.next } f := by
  simp only [PredWritten, Quire.preg_atPc]
  refine ⟨fun n hn => ?_, fun k hk => c.q.preg_putPred_ne mask x hk, ?_⟩
  · by_cases hzero : c.i.d = 320
    · have hp0 : c.q.putPred (c.i.d - 320) mask x = c.q := if_pos (by omega)
      rw [if_neg (by simp [hzero]), hp0]
    · refine (c.q.bitAt_preg_putPred mask x (by omega) hn).trans ?_
      rw [hmask n hn]
      by_cases hmem : n ∈ lanes
      · simp [hmem, hzero, hx n hmem hn]
      · simp [hmem]
  · rw [c.q.putPred_frame]

/-- A compare writes its predicate in the computing lanes. -/
theorem predWritten_writeD (hkind : okind c.i.d = .p) (f : Nat → Bool) :
    PredWritten c c.lanes { c.writeD (c.doers.map fun n => (n, b2n (f n))) with pc := c.i.next } f := by
  have hd : 320 ≤ c.i.d := by
    unfold okind at hkind
    split_ifs at hkind
    omega
  have hdoers : c.doers = c.lanes := if_neg (by simp [hkind])
  rw [BCtx.writeD, if_pos hkind, hdoers]
  refine predWritten_putPred c.lanes _ _ f hd (fun n hn => ?_) fun n hmem hn => ?_
  · rw [bitAt_maskOf]
    simp
  · rw [bitAt_maskOf]
    cases hf : f n <;> simp [hmem, hf, b2n]

theorem Issues.writesPred (h : Issues s vat slot op c) {f : BCtx → Nat → Bool} {g : Nat → Bool}
    (hexec : exec cmd s = .next (s.perLane vat slot op fun c n => c.combined n (f c n)))
    (hg : ∀ n, combineVal c.i.combine (f c n) (c.opC n % 2 = 1) = g n) (hop : NamesPred op = true) :
    WritesPred cmd s c c.lanes g := by
  obtain rfl : (fun n => combineVal c.i.combine (f c n) (c.opC n % 2 = 1)) = g := funext hg
  obtain ⟨u, hu, hquire, honly⟩ := h.quireBecomes
    (k := fun s c => c.done s (c.writeD (c.doers.map fun n => (n, c.combined n (f c n))))) hexec rfl
  exact ⟨u, _, hu, hquire, predWritten_writeD (destPred_of_legal h.legal (h.code ▸ hop)) _, honly⟩

/-- A vote writes its predicate in every active lane. -/
theorem Issues.writesVote (h : Issues s vat slot op c) (r : BCtx → Bool)
    (hexec : exec cmd s = .next (s.issue vat slot op fun s c => c.vote s (r c))) (hop : NamesPred op = true) :
    WritesPred cmd s c (bitIdx 32 c.q.active.toNat) (fun _ => r c) := by
  have hd : 320 ≤ c.i.d := by
    have hkind := destPred_of_legal h.legal (h.code ▸ hop)
    unfold okind at hkind
    split_ifs at hkind
    omega
  obtain ⟨u, hu, hquire, honly⟩ := h.quireBecomes (k := fun s c => c.vote s (r c)) hexec rfl
  refine ⟨u, _, hu, hquire, predWritten_putPred _ _ _ _ hd (fun n hn => ?_) fun n _ hn => ?_, honly⟩
  · cases hbit : bitAt c.q.active.toNat n <;> simp [mem_bitIdx, hn, hbit]
  · split
    next hr => rw [hr, bitAt_fullWord hn]
    next hr => simp [hr, bitAt]

end
end Sys2Proof.Claims

open Sys2Proof Sys2Proof.Machine Sys2Proof.Claims

/-- Settles O26: each writes its value to D; the values are the model's. -/
theorem floatInstructionsWriteD : Obligations.FloatInstructionsWriteD := by
  intro s vat slot c
  and_intros
  all_goals exact fun h => h.writesD rfl rfl rfl

/-- Settles O27: each writes its value to D; the values are the model's. -/
theorem conversionsMovesAndLaneMovesWriteD : Obligations.ConversionsMovesAndLaneMovesWriteD := by
  intro s vat slot c
  and_intros
  all_goals exact fun h => h.writesD rfl rfl rfl

/-- The order of the lanes' values decides a vote of all: the voters are then the lanes. -/
theorem voters_eq_lanes (c : BCtx) : decide (c.voters = c.lanes) = c.lanes.all fun k => c.opC k % 2 = 1 := by
  rw [Bool.eq_iff_iff, decide_eq_true_eq, List.all_eq_true]
  exact List.filter_eq_self

theorem voters_ne_nil (c : BCtx) : decide (c.voters ≠ []) = c.lanes.any fun k => c.opC k % 2 = 1 := by
  rw [Bool.eq_iff_iff, decide_eq_true_eq, List.any_eq_true, ne_eq, BCtx.voters, List.filter_eq_nil_iff]
  simp

/-- PSET writes p1 to p7 by mask. -/
theorem Sys2Proof.Claims.pset_writesPredicates {s : State} {vat slot : Fin 64} {c : BCtx} (h : Issues s vat slot 0x59 c) :
    ∃ u q, exec (.pset vat slot) s = .next u ∧ u.quire c.vat c.slot = some q ∧ OnlyQuire s u c ∧
      (∀ k n, 0 < k → k < 8 → n < 32 → bitAt (q.preg k) n =
        if n ∈ c.lanes ∧ bitAt (c.opB n) k = true then bitAt (c.opA n) k else bitAt (c.q.preg k) n) ∧
      q = { c.q with pc := c.i.next, pr := q.pr } := by
  let q := c.q.putPreds 8 (fun k => maskOf (c.lanes.filter fun n => bitAt (c.opB n) k))
    fun k => maskOf (c.lanes.filter fun n => bitAt (c.opA n) k)
  obtain ⟨u, hu, hquire, honly⟩ : QuireBecomes (.pset vat slot) s c { q with pc := c.i.next } := h.quireBecomes rfl rfl
  refine ⟨u, _, hu, hquire, honly, fun k n hk hk8 hn => ?_, ?_⟩
  · rw [Quire.preg_atPc, Quire.bitAt_preg_putPreds _ _ _ hk hn]
    by_cases hmem : n ∈ c.lanes
    · cases hbit : bitAt (c.opB n) k <;> simp [bitAt_maskOf, hmem, hbit, hk8]
    · simp [bitAt_maskOf, hmem]
  · exact congrArg (fun q : Quire => { q with pc := c.i.next }) (c.q.putPreds_frame 8 _ _)

/-- Settles O28: the compares write their predicate in the computing lanes, the votes in every active one. -/
theorem comparesAndVotesWritePredicates : Obligations.ComparesAndVotesWritePredicates := by
  intro s vat slot c
  refine ⟨?_, ?_, ?_, fun h => ?any, fun h => ?all, pset_writesPredicates⟩
  case any =>
    rw [← voters_ne_nil]
    exact h.writesVote (fun c => decide (c.voters ≠ [])) rfl rfl
  case all =>
    rw [← voters_eq_lanes]
    exact h.writesVote (fun c => decide (c.voters = c.lanes)) rfl rfl
  all_goals exact fun h => h.writesPred rfl (fun _ => rfl) rfl

/-- Settles O30: each writes its value to D; ABS and NEG read the same integer in the model's words. -/
theorem integerInstructionsWriteD : Obligations.IntegerInstructionsWriteD := by
  have habs (x : Int) : (if 0 ≤ x then x else -x) = (x.natAbs : Int) := by split <;> omega
  constructor
  · intro s vat slot c
    simp only [habs, Int.zero_sub]
    and_intros
    all_goals exact fun h => h.writesD rfl rfl rfl
  · intro s vat slot c
    and_intros
    all_goals exact fun h => h.writesD rfl rfl rfl
end

