-- ==== Sys2Proof/Proofs/Begins.lean ====
section
/-!
PROOF. What every BPC instruction begins with (R63, R91, R98): one lemma on `State.issue`, through which each of them runs.
-/

namespace Sys2Proof.Claims
open Sys2Proof.Machine

/-- Every BPC instruction runs through `State.issue`. -/
theorem exec_of_bpcOp {cmd : Instr} {vat slot : Fin 64} {op : Nat} (h : bpcOp cmd = some (vat, slot, op)) (s : State) :
    ∃ k, exec cmd s = .next (s.issue vat slot op k) := by
  unfold bpcOp at h
  split at h
  all_goals cases h
  all_goals exact ⟨_, rfl⟩

theorem lt_of_bpcOp {cmd : Instr} {vat slot : Fin 64} {op : Nat} (h : bpcOp cmd = some (vat, slot, op)) : op < 256 := by
  unfold bpcOp at h
  split at h
  all_goals cases h
  all_goals decide

section
variable {s : State} {vat slot op : Nat} (k : State → BCtx → State)

theorem issue_of_not_live (h : s.live = false) : s.issue vat slot op k = s := if_pos (by simp [h])

/-- Without a ready quire nothing issues. -/
theorem issue_of_not_ready (h : s.ready vat slot = none) : s.issue vat slot op k = s := by
  simp [State.issue, h]

/-- A ready quire that stands at another instruction does not issue. -/
theorem issue_of_other {q : Quire} {b : Block} {l : Launch} (h : s.ready vat slot = some (q, b, l))
    (hop : ∀ i, decodeInst l.mod.code q.pc = some i → i.op ≠ op) : s.issue vat slot op k = s := by
  unfold State.issue
  simp only [h]
  cases hi : decodeInst l.mod.code q.pc with
  | none => simp
  | some i => simp [hop i hi]

section
variable {q : Quire} {b : Block} {l : Launch} {i : BInst}

/-- A ready quire at an instruction of the opcode issues: it is counted, and then moves on, faults or acts. -/
theorem issue_of_ready (hlive : s.live = true) (h : s.ready vat slot = some (q, b, l))
    (hi : decodeInst l.mod.code q.pc = some i) (hop : i.op = op) : s.issue vat slot op k =
      (if execLanes q i = 0 then (s.count .VAT_ISSUED_COUNT 1 vat).setQuire vat slot { q with pc := i.next }
      else if !legal i then (s.count .VAT_ISSUED_COUNT 1 vat).raiseFault vat slot (stIllegal i.op)
      else match rangeFault i l.vregs with
        | some f => (s.count .VAT_ISSUED_COUNT 1 vat).raiseFault vat slot (stExec 8 f)
        | none => k ((s.count .VAT_ISSUED_COUNT 1 vat).rcStep ⟨vat, slot, q, b, l, i⟩) ⟨vat, slot, q, b, l, i⟩).trySave vat
          q.block := by
  unfold State.issue
  simp only [hlive, h, hi, hop, Bool.not_true, Bool.false_eq_true, if_false, ne_eq, not_true_eq_false] <;> rfl

end

theorem stIllegal_eq {op : Nat} (h : op < 256) : stIllegal op = 0x12010000 + op * 256 := by
  rw [stIllegal, stExec, statusWord, Nat.mod_eq_of_lt (show op * 256 < 65536 by omega)]
  rfl

end

end Sys2Proof.Claims

open Sys2Proof Sys2Proof.Machine Sys2Proof.Claims

/-- Settles O25: each instruction runs through `State.issue` (`exec_of_bpcOp`), whose cases are the statement's. -/
theorem everyInstructionBeginsAlike : Obligations.EveryInstructionBeginsAlike := by
  intro cmd vat slot op s hcmd
  obtain ⟨k, hexec⟩ := exec_of_bpcOp hcmd s
  rw [hexec]
  refine ⟨fun h => congrArg _ (issue_of_not_live k h), fun h => congrArg _ (issue_of_not_ready k h),
    fun q b l h hop => congrArg _ (issue_of_other k h hop), fun q b l i hlive h hi hop hcalm => ?_⟩
  rw [issue_of_ready k hlive h hi hop]
  refine ⟨fun hnone => ?none, fun hlanes hillegal => ?illegal, fun r hlanes hlegal hrange => ?range⟩
  case none =>
    rw [if_pos hnone, State.trySave_of_calm]
    rw [State.vat_setQuire]
    exact hcalm
  case illegal =>
    rw [if_neg hlanes, if_pos (by simp [hillegal]), hop, stIllegal_eq (lt_of_bpcOp hcmd)]
  case range => simp only [if_neg hlanes, hlegal, hrange, Bool.not_true, Bool.false_eq_true, if_false]; rfl
end

