-- ==== Sys2Proof/Proofs/Registers.lean ====
section
/-!
PROOF. Reads after writes of the register file: what a chain of register writes leaves at an element it wrote, at another
element, and at every element that it does not name.
-/

namespace Sys2Proof.Machine

open Sys2Proof.Claims

/-! ### Bounds of array indices -/

@[simp] theorem fin_lt_indexBound {n : Nat} (h : n ≤ 65536) (i : Fin n) : i.val < 65536 := i.isLt.trans_le h

@[simp] theorem toNat_lt_indexBound {w : Nat} (h : 2 ^ w ≤ 65536) (x : BitVec w) : x.toNat < 65536 := x.isLt.trans_le h

section

/-! ### Reads -/

/-- A read of another element of the same field. -/
theorem State.rd_wr_index (s : State) {f : Field} {v i j i' j' : Nat} (hi : i < 65536) (hj : j < 65536) (hi' : i' < 65536)
    (hj' : j' < 65536) (h : ¬(i' = i ∧ j' = j)) : (s.wr f v i j).rd f i' j' = s.rd f i' j' :=
  s.rd_wr_ne fun e => h (Field.key_inj hi' hj' hi hj e).2

/-- A written value that fits its field is read back. -/
theorem State.rd_wr_of_lt (s : State) {f : Field} {v : Nat} (h : v < 2 ^ f.width) (i j : Nat) :
    (s.wr f v i j).rd f i j = v := by
  rw [State.rd_wr_same, Nat.mod_eq_of_lt h]

/-- A change of another part of the state changes no register. -/
@[simp] theorem State.rd_mk (s : State) (pending : List Instr) (mem : Memory) (furn : Furnish) (hb : Headbox)
    (launches : List (Nat × Launch)) (vats : List (Nat × Vat)) (sync : Sync) (heaps : List (Nat × Heap))
    (owed : List (Nat × Owed)) (sched : Sched) (xlt : Xlt) (maint : Maint) (geo : Geo) (cal : Cal) (codec : Codec)
    (ring : Ring) (pwr : Power) (mgc : Mgc) (pcie : Pcie) (pins : Pins) (tap : Tap) (reply : Reply) (sent : List Nat)
    (free nextId : Nat) (f : Field) (i j : Nat) :
    (State.mk pending s.regs mem furn hb launches vats sync heaps owed sched xlt maint geo cal codec ring pwr mgc pcie pins
      tap reply sent free nextId).rd f i j = s.rd f i j := rfl

@[simp] theorem State.rd_setVat (s : State) (n : Nat) (v : Vat) (f' : Field) (i j : Nat) :
    (s.setVat n v).rd f' i j = s.rd f' i j := rfl
@[simp] theorem State.rd_setQuire (s : State) (n k : Nat) (q : Quire) (f' : Field) (i j : Nat) :
    (s.setQuire n k q).rd f' i j = s.rd f' i j := rfl
@[simp] theorem State.rd_setBlock (s : State) (n k : Nat) (b : Block) (f' : Field) (i j : Nat) :
    (s.setBlock n k b).rd f' i j = s.rd f' i j := rfl
@[simp] theorem State.rd_setQueue (s : State) (p q : Nat) (c : List Cmd) (f' : Field) (i j : Nat) :
    (s.setQueue p q c).rd f' i j = s.rd f' i j := rfl
@[simp] theorem State.rd_setBell (s : State) (p q v : Nat) (f' : Field) (i j : Nat) :
    (s.setBell p q v).rd f' i j = s.rd f' i j := rfl
@[simp] theorem State.rd_setFn (s : State) (fn : Nat) (c : FnCfg) (f' : Field) (i j : Nat) :
    (s.setFn fn c).rd f' i j = s.rd f' i j := rfl
@[simp] theorem State.rd_aer (s : State) (e : Nat) (f' : Field) (i j : Nat) :
    (s.aer e).rd f' i j = s.rd f' i j := rfl
@[simp] theorem State.rd_setPort (s : State) (k : Nat) (f : FPort) (f' : Field) (i j : Nat) :
    (s.setPort k f).rd f' i j = s.rd f' i j := rfl
@[simp] theorem State.rd_answer (s : State) (n v : Nat) (f' : Field) (i j : Nat) :
    (s.answer n v).rd f' i j = s.rd f' i j := rfl
@[simp] theorem State.rd_hostWrite (s : State) (a : Nat) (bs : List Byte) (f' : Field) (i j : Nat) :
    (s.hostWrite a bs).rd f' i j = s.rd f' i j := rfl
@[simp] theorem State.rd_modCmd (s : State) (id : Nat) (f : Cmd → Cmd) (f' : Field) (i j : Nat) :
    (s.modCmd id f).rd f' i j = s.rd f' i j := rfl
@[simp] theorem State.rd_setResult (s : State) (id st : Nat) (f' : Field) (i j : Nat) :
    (s.setResult id st).rd f' i j = s.rd f' i j := rfl
@[simp] theorem State.rd_setWaits (s : State) (ws : List Wait) (f' : Field) (i j : Nat) :
    (s.setWaits ws).rd f' i j = s.rd f' i j := rfl

end

end Sys2Proof.Machine

namespace Sys2Proof.Claims

open Sys2Proof.Machine

section
variable {s t u : State} {l m : List (Field × Nat × Nat)}

/-! ### Frames -/

@[simp] theorem RegsKept.refl (s : State) (l : List (Field × Nat × Nat)) : RegsKept s s l := fun _ _ _ _ _ _ => rfl

theorem RegsKept.of_regs (h : u.regs = t.regs) (k : RegsKept s t l) : RegsKept s u l := fun f i j hi hj hmem =>
  (State.rd_congr h f i j).trans (k f i j hi hj hmem)

theorem RegsKept.trans (h : RegsKept s t l) (k : RegsKept t u l) : RegsKept s u l := fun f i j hi hj hmem =>
  (k f i j hi hj hmem).trans (h f i j hi hj hmem)

theorem RegsKept.mono (h : RegsKept s t l) (hsub : l ⊆ m) : RegsKept s t m := fun f i j hi hj hmem =>
  h f i j hi hj fun e => hmem (hsub e)

/-- A write of a listed element is of no account. -/
@[simp] theorem regsKept_wr {f : Field} {v i j : Nat} (hmem : (f, i, j) ∈ l) (hi : i < 65536) (hj : j < 65536) :
    RegsKept s (t.wr f v i j) l ↔ RegsKept s t l := by
  have hother : ∀ (g : Field) (i' j' : Nat), i' < 65536 → j' < 65536 → (g, i', j') ∉ l →
      (t.wr f v i j).rd g i' j' = t.rd g i' j' := fun g i' j' hi' hj' hg => t.rd_wr_ne fun e => hg (by
    obtain ⟨rfl, rfl, rfl⟩ := Field.key_inj hi' hj' hi hj e
    exact hmem)
  exact ⟨fun h g i' j' hi' hj' hg => (hother g i' j' hi' hj' hg).symm.trans (h g i' j' hi' hj' hg),
    fun h g i' j' hi' hj' hg => (hother g i' j' hi' hj' hg).trans (h g i' j' hi' hj' hg)⟩

theorem regsKept_congr (h : u.regs = t.regs) : RegsKept s u l ↔ RegsKept s t l :=
  ⟨RegsKept.of_regs h.symm, RegsKept.of_regs h⟩

/-- A change of another part of the state is of no account. -/
@[simp] theorem regsKept_mk (pending : List Instr) (mem : Memory) (furn : Furnish) (hb : Headbox)
    (launches : List (Nat × Launch)) (vats : List (Nat × Vat)) (sync : Sync) (heaps : List (Nat × Heap))
    (owed : List (Nat × Owed)) (sched : Sched) (xlt : Xlt) (maint : Maint) (geo : Geo) (cal : Cal) (codec : Codec)
    (ring : Ring) (pwr : Power) (mgc : Mgc) (pcie : Pcie) (pins : Pins) (tap : Tap) (reply : Reply) (sent : List Nat)
    (free nextId : Nat) :
    RegsKept s (State.mk pending t.regs mem furn hb launches vats sync heaps owed sched xlt maint geo cal codec ring pwr mgc
      pcie pins tap reply sent free nextId) l ↔ RegsKept s t l := Iff.rfl

@[simp] theorem regsKept_setVat (n : Nat) (v : Vat) :
    RegsKept s (t.setVat n v) l ↔ RegsKept s t l := Iff.rfl
@[simp] theorem regsKept_setQuire (n k : Nat) (q : Quire) :
    RegsKept s (t.setQuire n k q) l ↔ RegsKept s t l := Iff.rfl
@[simp] theorem regsKept_setBlock (n k : Nat) (b : Block) :
    RegsKept s (t.setBlock n k b) l ↔ RegsKept s t l := Iff.rfl
@[simp] theorem regsKept_setQueue (p q : Nat) (c : List Cmd) :
    RegsKept s (t.setQueue p q c) l ↔ RegsKept s t l := Iff.rfl
@[simp] theorem regsKept_setBell (p q v : Nat) :
    RegsKept s (t.setBell p q v) l ↔ RegsKept s t l := Iff.rfl
@[simp] theorem regsKept_setFn (fn : Nat) (c : FnCfg) :
    RegsKept s (t.setFn fn c) l ↔ RegsKept s t l := Iff.rfl
@[simp] theorem regsKept_aer (e : Nat) :
    RegsKept s (t.aer e) l ↔ RegsKept s t l := Iff.rfl
@[simp] theorem regsKept_setPort (k : Nat) (f : FPort) :
    RegsKept s (t.setPort k f) l ↔ RegsKept s t l := Iff.rfl
@[simp] theorem regsKept_answer (n v : Nat) :
    RegsKept s (t.answer n v) l ↔ RegsKept s t l := Iff.rfl
@[simp] theorem regsKept_hostWrite (a : Nat) (bs : List Byte) :
    RegsKept s (t.hostWrite a bs) l ↔ RegsKept s t l := Iff.rfl
@[simp] theorem regsKept_modCmd (id : Nat) (f : Cmd → Cmd) :
    RegsKept s (t.modCmd id f) l ↔ RegsKept s t l := Iff.rfl
@[simp] theorem regsKept_setResult (id st : Nat) :
    RegsKept s (t.setResult id st) l ↔ RegsKept s t l := Iff.rfl
@[simp] theorem regsKept_setWaits (ws : List Wait) :
    RegsKept s (t.setWaits ws) l ↔ RegsKept s t l := Iff.rfl

/-- States with the same registers read alike. -/
theorem regsKept_of_regs (h : t.regs = s.regs) (l : List (Field × Nat × Nat)) : RegsKept s t l :=
  RegsKept.of_regs h (RegsKept.refl s l)

end

end Sys2Proof.Claims
end

