-- ==== Sys2Proof/Proofs/EventQueues.lean ====
section
/-!
PROOF. The event queues (spec/11): enabling, consuming, masking, and the record that goes out.
-/

namespace Sys2Proof.Machine

open Sys2Proof.Claims

section
variable (s : State) (t : Nat)

/-! ### The operations -/

theorem State.tripRecord_of_none (h : s.pwr.tripOwed = none) : s.tripRecord t = s := by
  unfold State.tripRecord
  rw [h]

/-- The state whose event queue t is empty, of the size given (R236). -/
def State.evqEmptied (s : State) (t size : Nat) : State :=
  ((((s.wr .EVQ_CTRL_SIZE size t).wr .EVQ_WRITE_INDEX 0 t).wr .EVQ_READ_INDEX 0 t).wr .EVQ_DROPPED_COUNT 0 t).wr
    .EVQ_CTRL_OVF 0 t

/-- The state whose event queue t starts (R236). -/
def State.evqStart (s : State) (t size : Nat) : State :=
  ({ s.evqEmptied t size with owed := storeErase s.owed t }).wr .EVQ_CTRL_EN 1 t

theorem State.evqOn_of_size {size : Nat} (hoff : s.rd .EVQ_CTRL_EN t = 0) (hlo : 6 ≤ size) (hhi : size ≤ 16)
    (htrip : s.pwr.tripOwed = none) : s.evqOn t size = s.evqStart t size := by
  unfold State.evqOn
  rw [if_neg (by omega)]
  dsimp only
  rw [if_neg (by simp; omega), State.tripRecord_of_none _ _ (by exact htrip)]
  rfl

theorem State.evqOn_of_badSize {size : Nat} (hoff : s.rd .EVQ_CTRL_EN t = 0) (h : size < 6 ∨ 16 < size) :
    s.evqOn t size = s.wr .EVQ_CTRL_SIZE size t := by
  unfold State.evqOn
  rw [if_neg (by omega)]
  exact if_pos (by simpa using h)

theorem State.evqConsume_of_past {v : Nat} (h : 2 ^ s.rd .EVQ_CTRL_SIZE t < sub32 (s.rd .EVQ_WRITE_INDEX t) v) :
    s.evqConsume t v = s := if_pos h

theorem State.evqConsume_of_fits {v : Nat} (h : sub32 (s.rd .EVQ_WRITE_INDEX t) v ≤ 2 ^ s.rd .EVQ_CTRL_SIZE t) :
    s.evqConsume t v = if (s.wr .EVQ_READ_INDEX v t).evqCond t && t ≠ 33
      then (s.wr .EVQ_READ_INDEX v t).msix (fnOfTarget t) else s.wr .EVQ_READ_INDEX v t :=
  if_neg (Nat.not_lt.mpr h)

theorem State.evqUnmask_of_none {mask : Nat} (h : s.rd .EVQ_PEND_PEND t = 0) :
    s.evqUnmask t mask = s.wr .EVQ_MASK_MASK mask t := by
  unfold State.evqUnmask
  have hnone : ∀ k, kindBit 0 k = false := fun k => by simp [kindBit, bitAt]
  simp [h, hnone]

/-! ### An interrupt message -/

theorem State.msix_frame (fn : Nat) : s.msix fn = { s with sent := (s.msix fn).sent, pcie := (s.msix fn).pcie } := by
  unfold State.msix
  dsimp only
  split <;> rfl

@[simp] theorem State.msix_regs (fn : Nat) : (s.msix fn).regs = s.regs := by rw [State.msix_frame]
@[simp] theorem State.msix_mem (fn : Nat) : (s.msix fn).mem = s.mem := by rw [State.msix_frame]
@[simp] theorem State.msix_owed (fn : Nat) : (s.msix fn).owed = s.owed := by rw [State.msix_frame]
@[simp] theorem State.rd_msix (fn : Nat) (f : Field) (i j : Nat) : (s.msix fn).rd f i j = s.rd f i j :=
  State.rd_congr (s.msix_regs fn) f i j

@[simp] theorem regsKept_msix {t : State} {l : List (Field × Nat × Nat)} (fn : Nat) :
    RegsKept t (s.msix fn) l ↔ RegsKept t s l := regsKept_congr (s.msix_regs fn)

/-! ### A record -/

theorem length_evRecord (kind flags src seq status detail p0 p1 : Nat) :
    (evRecord kind flags src seq status detail p0 p1).length = 32 := by
  simp [evRecord, length_toLe]

/-- The record of an owed OVERFLOW (R297). -/
def State.overflowEv (s : State) (t : Nat) (o : Owed) : Ev :=
  { kind := 0x0B, detail := o.kind, p0 := s.rd .EVQ_DROPPED_COUNT t, p1 := o.seq }

theorem State.evOwed_of_writable {o : Owed} (ho : storeFind s.owed t = some o) (hen : s.rd .EVQ_CTRL_EN t = 1)
    (hwritable : s.evqWritable t = true) :
    s.evOwed t = ({ s with owed := storeErase s.owed t }).evWrite t (s.overflowEv t o) := by
  unfold State.evOwed
  rw [ho]
  exact if_pos (by simp [hen, hwritable])

/-- The address of the next record of target t's queue. -/
def State.evSlot (s : State) (t : Nat) : Nat :=
  s.addrOf .EVQ_BASE_ADDR t + 32 * (s.rd .EVQ_WRITE_INDEX t % 2 ^ s.rd .EVQ_CTRL_SIZE t)

/-- The bytes of a record at the write index of target t's queue. -/
def State.evBytes (s : State) (t : Nat) (e : Ev) : List Byte :=
  evRecord e.kind (b2n e.deferred + 128 * b2n (bitAt (s.rd .EVQ_WRITE_INDEX t) (s.rd .EVQ_CTRL_SIZE t))) e.src
    ((s.rd .EVQ_WRITE_INDEX t + s.rd .EVQ_DROPPED_COUNT t) % 2 ^ 32) e.status e.detail e.p0 e.p1

/-- `u` is the state in which the record stands at the write index of a host queue, the index one on. -/
structure EvWritten (s : State) (t : Nat) (e : Ev) (u : State) : Prop where
  index : u.rd .EVQ_WRITE_INDEX t = (s.rd .EVQ_WRITE_INDEX t + 1) % 2 ^ 32
  bytes : HostHolds s u (s.evSlot t) (s.evBytes t e)
  dram : u.mem.dram = s.mem.dram
  kept : RegsKept s u [(.EVQ_WRITE_INDEX, t, 0)]
  frame : u = { s with regs := u.regs, mem := u.mem, sent := u.sent, pcie := u.pcie }

/-- The state with the record written and no message sent. -/
def State.evStored (s : State) (t : Nat) (e : Ev) : State :=
  (s.hostWrite (s.evSlot t) (s.evBytes t e)).wr .EVQ_WRITE_INDEX (s.rd .EVQ_WRITE_INDEX t + 1) t

theorem evWritten_evStored (hlt : t < 65536) (e : Ev) : EvWritten s t e (s.evStored t e) where
  index := State.rd_wr_same ..
  bytes x := memByte_write 0 s.mem.host (s.evSlot t) x (s.evBytes t e)
  dram := rfl
  kept := (regsKept_wr (List.mem_singleton_self _) hlt (by decide)).mpr (regsKept_of_regs rfl _)
  frame := rfl

/-- The condition's rise sends the interrupt message. -/
theorem EvWritten.msix {s u : State} {t : Nat} {e : Ev} (h : EvWritten s t e u) (fn : Nat) : EvWritten s t e (u.msix fn) where
  index := (u.rd_msix fn _ _ _).trans h.index
  bytes x := by
    rw [State.msix_mem]
    exact h.bytes x
  dram := by rw [State.msix_mem, h.dram]
  kept := (regsKept_msix u fn).mpr h.kept
  frame := by
    rw [State.msix_frame, h.frame]

theorem evWritten_evWrite (ht : t < 33) (e : Ev) : EvWritten s t e (s.evWrite t e) := by
  have hstored := evWritten_evStored s t (by omega) e
  unfold State.evWrite
  dsimp only
  rw [if_neg (by omega : ¬ t = 33)]
  split
  · exact hstored.msix _
  · exact hstored

/-! ### Where an event goes -/

/-- An event of a partition homed here is raised at its driver's target. -/
theorem State.raisePart_of_homed {p : Nat} (h : s.homed p = true) (e : Ev) : s.raisePart p e = s.raise (s.driverTarget p) e := by
  unfold State.homed at h
  unfold State.raisePart
  split
  next r hr =>
    rw [hr] at h
    exact if_neg fun hfar => hfar.1 (of_decide_eq_true h)
  next hr =>
    rw [hr] at h
    exact absurd h Bool.false_ne_true

theorem State.driverTarget_congr {s u : State} (hpcie : u.pcie = s.pcie) (hfurn : u.furn = s.furn)
    (hflr : u.rd .GLB_FLR_STATUS_RUNNING = s.rd .GLB_FLR_STATUS_RUNNING) (p : Nat) : u.driverTarget p = s.driverTarget p := by
  unfold State.driverTarget State.vfEnabled State.vfExposed State.part
  rw [hpcie, hfurn, hflr]

theorem State.homed_congr {s u : State} (hpins : u.pins = s.pins) (hfurn : u.furn = s.furn) (p : Nat) :
    u.homed p = s.homed p := by
  unfold State.homed State.part State.pos
  rw [hpins, hfurn]

theorem State.driverTarget_le (s : State) {p : Nat} (h : p < 32) : s.driverTarget p ≤ 32 := by
  unfold State.driverTarget
  split <;> omega

/-- The mask bit of a kind that an event sets stands after it. -/
theorem kindBit_setBit (x : Nat) {k : Nat} : kindBit (setBit x (k - 1)) k = true := by
  simp [kindBit, bitAt_setBit]

theorem State.msix_of_unmasked {fn : Nat} (hsends : (s.fnCfg fn).sends = true) (hmask : (s.fnCfg fn).mask = false) :
    (s.msix fn).sent = fn :: s.sent := by
  unfold State.msix
  simp [hsends, hmask]

end

end Sys2Proof.Machine

namespace Sys2Proof.Claims

open Sys2Proof Sys2Proof.Machine

theorem eventQueueEnables : EventQueueEnables := by
  intro s fn t size hmay hoff
  have hwidth : size.toNat < 2 ^ Field.EVQ_CTRL_SIZE.width := size.isLt
  have hexec : exec (.evqEnable fn t size) s = .next (s.evqOn t size.toNat) := congrArg Host.Outcome.next (if_pos hmay)
  refine ⟨fun hlo hhi htrip => ⟨s.evqStart t size.toNat, ?_, ?_, ?_, ?_, ?_, ?_, ?_, ?_, ?_, ?_, rfl⟩, fun hbad =>
    ⟨s.wr .EVQ_CTRL_SIZE size.toNat t, ?_, ?_, by simp, rfl⟩⟩
  · rw [hexec, State.evqOn_of_size _ _ hoff hlo hhi htrip]
  · exact State.rd_wr_same ..
  · simp [State.evqStart, State.evqEmptied, State.rd_wr_field, Nat.mod_eq_of_lt hwidth]
  · simp [State.evqStart, State.evqEmptied, State.rd_wr_field]
  · simp [State.evqStart, State.evqEmptied, State.rd_wr_field]
  · simp [State.evqStart, State.evqEmptied, State.rd_wr_field]
  · simp [State.evqStart, State.evqEmptied, State.rd_wr_field]
  · simp [State.evqStart, State.evqEmptied, storeFind_erase]
  · intro k hk
    simp [State.evqStart, State.evqEmptied, storeFind_erase, hk]
  · simp [State.evqStart, State.evqEmptied]
  · rw [hexec, State.evqOn_of_badSize _ _ hoff hbad]
  · simpa [State.rd_wr_field] using hoff

theorem eventQueueIsConsumedAndMasked : EventQueueIsConsumedAndMasked := by
  intro s fn t data hmay
  have hword : data.toNat < 2 ^ Field.EVQ_READ_INDEX.width := data.isLt
  have hread : exec (.evqReadWrite fn t data) s = .next (s.evqConsume t data.toNat) :=
    congrArg Host.Outcome.next (if_pos hmay)
  have hdisable : exec (.evqDisable fn t) s = .next (({ s with owed := storeErase s.owed t }).wr .EVQ_CTRL_EN 0 t) :=
    congrArg Host.Outcome.next (if_pos hmay)
  have hmask : exec (.evqMaskWrite fn t data) s = .next (s.evqUnmask t (bits data.toNat 19 1)) :=
    congrArg Host.Outcome.next (if_pos hmay)
  refine ⟨⟨_, hdisable, ?_, ?_, ?_, rfl⟩, fun hpast => ?_, fun hfits => ⟨_, hread, ?_, ?_, ?_, ?_⟩, fun hpend => ⟨_, hmask, ?_⟩⟩
  · exact State.rd_wr_same ..
  · simp [storeFind_erase]
  · simp
  · rw [hread, State.evqConsume_of_past _ _ hpast]
  · rw [State.evqConsume_of_fits _ _ hfits]
    split <;> simp [Nat.mod_eq_of_lt hword]
  · rw [State.evqConsume_of_fits _ _ hfits]
    split <;> simp
  · rw [State.evqConsume_of_fits _ _ hfits]
    split
    · rw [State.msix_frame]; rfl
    · rfl
  · intro hen hne ht hsends hunmasked
    have hcond : (s.wr .EVQ_READ_INDEX data.toNat t).evqCond t = true := by
      simp [State.evqCond, State.rd_wr_field, hen, Nat.mod_eq_of_lt hword, hne]
    rw [State.evqConsume_of_fits _ _ hfits, if_pos (by simp [hcond, ht]), State.msix_of_unmasked _ (by exact hsends) (by exact hunmasked)]
    rfl
  · rw [State.evqUnmask_of_none _ _ hpend]
    refine ⟨?_, by simp, rfl⟩
    rw [State.rd_wr_same]
    exact Nat.mod_mod _ _

theorem owedOverflowRecordIsWritten : OwedOverflowRecordIsWritten := by
  intro s t o hlive ho hen hwritable ht
  have hexec : exec (.overflowRecord t) s = .next (({ s with owed := storeErase s.owed t }).evWrite t (s.overflowEv t o)) :=
    congrArg Host.Outcome.next ((if_pos hlive).trans (s.evOwed_of_writable t ho hen hwritable))
  obtain ⟨hindex, hbytes, hdram, hkept, hframe⟩ :=
    evWritten_evWrite ({ s with owed := storeErase s.owed t }) t ht (s.overflowEv t o)
  refine ⟨_, hexec, hindex, ?_, ?_, hdram, hkept, ?_⟩
  · rw [hframe]
    simp [storeFind_erase]
  · rw [← Nat.zero_add (128 * b2n _)]
    exact hbytes
  · rw [hframe]

/-- Settles O9: the operations of spec/11 on one target's registers. -/
theorem eventQueuesAct : Obligations.EventQueuesAct :=
  ⟨eventQueueEnables, eventQueueIsConsumedAndMasked, owedOverflowRecordIsWritten⟩

end Sys2Proof.Claims
end

