-- ==== Sys2Proof/Proofs/Commands.lean ====
section
/-!
PROOF. Queues and the commands in them (spec/09): what enabling, intake and destruction do, and two statements that a command
record with a queue number out of range refutes.
-/

namespace Sys2Proof.Machine

/-- A command record that names a queue number beyond the 16 of its partition: the register elements of queue 65,536 of
partition 0 are those of queue 0 of partition 1. -/
def strayCmd (op : Nat) : Cmd :=
  { id := 1, p := 0, q := 65536, op := op, flags := 0, words := List.replicate 4 1, slot := 0, slots := 1, phase := .fetched }

/-- A chip whose partition 0 runs, with the stray command in queue 0 of it. -/
def strayChip : State :=
  { (State.reset.wr .GLB_FUNC_STATE_STATE 0 0).wr .HB_Q_CTRL_EN 1 1 0 with
    hb := { queues := [(0, [strayCmd 0x43])] } }

/-- A chip whose only command is a stray one that its engine has ended. -/
def strayEndChip : State :=
  { State.reset with hb := { queues := [(65536, [{ strayCmd 0x43 with phase := .handed, result := some stOk }])] } }

section
variable (s : State) (p q : Nat)

/-! ### Intake -/

/-- The command that a packet of queue q becomes. -/
def State.packetCmd (s : State) (p q : Nat) (ws : List Word) (n : Nat) : Cmd :=
  { id := s.nextId, p := p, q := q, op := (ws.headD 0).toNat % 256, flags := (ws.headD 0).toNat / 2 ^ 20 % 4096, words := ws
    slot := s.rd .HB_Q_READ_INDEX p q, slots := n, phase := .fetched }

/-- The state with the packet's command in its queue and its slots out of the ring. -/
def State.packetTaken (s : State) (p q n : Nat) (c : Cmd) : State :=
  (({ s with nextId := s.nextId + 1 }).setQueue p q (s.queue p q ++ [c])).wr .HB_Q_READ_INDEX
    (s.rd .HB_Q_READ_INDEX p q + n) p q

theorem State.takePacket_of_op {ws : List Word} (n : Nat) (hop : (ws.headD 0).toNat % 256 ≠ 0) :
    s.takePacket p q ws n = s.packetTaken p q n (s.packetCmd p q ws n) := by
  unfold State.takePacket headerOf
  simp only [State.takeId, if_neg hop]
  rfl

theorem State.takePacket_of_nop {ws : List Word} (n : Nat) (hop : (ws.headD 0).toNat % 256 = 0) :
    s.takePacket p q ws n =
      ((s.packetTaken p q n { s.packetCmd p q ws n with phase := .done, result := some stOk }).trimQueue p q).passRecords := by
  unfold State.takePacket headerOf
  simp only [State.takeId, if_pos hop]
  rfl

variable {s p q}

theorem State.intake_of_packet {s1 : State} {ws : List Word} {n : Nat} (htakes : s.takesIn p q = true)
    (hfetch : s.fetchPacket p q = (s1, .packet ws n)) : s.intake p q = s1.takePacket p q ws n := by
  unfold State.intake
  rw [htakes, hfetch]
  rfl

theorem State.intakeNop_of_packet {s1 : State} {ws : List Word} {n : Nat} (htakes : s.takesIn p q = true)
    (hfetch : s.fetchPacket p q = (s1, .packet ws n)) (hop : (ws.headD 0).toNat % 256 = 0) :
    s.intakeNop p q = s1.takePacket p q ws n := by
  unfold State.intakeNop
  rw [htakes, hfetch]
  exact if_pos hop

theorem State.passRecords_of_none (h : s.hb.releases = []) : s.passRecords = s := by
  unfold State.passRecords
  rw [h]
  rfl

/-- A queue that holds one command that is done becomes empty, and DONE counts its slots. -/
theorem State.trimQueue_of_done {c : Cmd} (hq : s.queue p q = [c]) (hdone : c.phase = .done) :
    s.trimQueue p q = (s.setQueue p q []).wr .HB_Q_DONE_INDEX (s.rd .HB_Q_DONE_INDEX p q + c.slots) p q := by
  unfold State.trimQueue
  rw [hq]
  by_cases hslots : c.slots = 0
  · simp [hdone, hslots]
  · simp [hdone, hslots]

end

end Sys2Proof.Machine

namespace Sys2Proof.Claims

open Sys2Proof Sys2Proof.Machine

/-- Refutes O11: MARK of the stray command also writes HB_Q_MARK of partition 1's queue 0, as that is the same element. -/
theorem not_syncUnitCommandsAct : ¬ Obligations.SyncUnitCommandsAct := by
  intro h
  have hhead : AtHead strayChip 0 0 0x43 (strayCmd 0x43) := by unfold AtHead; decide +kernel
  obtain ⟨u, -, hmark, -, hkept, -⟩ := (h strayChip 0 0 (strayCmd 0x43)).1 hhead
  have hother : u.rd .HB_Q_MARK_VALUE 1 0 = strayChip.rd .HB_Q_MARK_VALUE 1 0 :=
    hkept _ _ _ (by decide) (by decide) (by decide)
  have hsame : u.rd .HB_Q_MARK_VALUE 1 0 = u.rd .HB_Q_MARK_VALUE 0 65536 := rfl
  have hbefore : strayChip.rd .HB_Q_MARK_VALUE 1 0 ≠ (strayCmd 0x43).dword 1 := by decide +kernel
  exact hbefore (hother.symm.trans (hsame.trans hmark))

/-- Refutes O12: the completion of the stray command also moves the DONE index of partition 1's queue 0. -/
theorem not_commandCompletes : ¬ Obligations.CommandCompletes := by
  intro h
  obtain ⟨u, -, -, hdone, hkept, -⟩ := (h strayEndChip { strayCmd 0x43 with phase := .handed, result := some stOk } stOk
    (by decide +kernel) (by decide +kernel) rfl rfl (by decide) (by decide) rfl (by decide +kernel) rfl).1 (by decide +kernel)
  have hother : u.rd .HB_Q_DONE_INDEX 1 0 = strayEndChip.rd .HB_Q_DONE_INDEX 1 0 :=
    hkept _ _ _ (by decide) (by decide) (by decide)
  have hsame : u.rd .HB_Q_DONE_INDEX 1 0 = u.rd .HB_Q_DONE_INDEX 0 65536 := rfl
  have hbefore : strayEndChip.rd .HB_Q_DONE_INDEX 1 0 ≠ (strayEndChip.rd .HB_Q_DONE_INDEX 0 65536 + 1) % 2 ^ 32 := by
    decide +kernel
  exact hbefore (hother.symm.trans (hsame.trans hdone))

/-- Settles O10: a packet that passes intake is `takePacket` on what the fetch left. -/
theorem packetBecomesACommand : Obligations.PacketBecomesACommand := by
  intro s s1 p q ws n hlive htakes hfetch
  refine ⟨fun hop => ⟨s1.packetTaken p q n (s1.packetCmd p q ws n), ?_, ?_, ?_, ?_, rfl⟩, fun hop hempty hnone => ?_⟩
  · refine congrArg Host.Outcome.next ((if_pos hlive).trans ?_)
    rw [State.intake_of_packet htakes hfetch, State.takePacket_of_op _ _ _ _ hop]
  · exact State.queue_setQueue_same ..
  · exact State.rd_wr_same ..
  · simp [State.packetTaken]
  · let c := { s1.packetCmd p q ws n with phase := .done, result := some stOk }
    have hone : (s1.packetTaken p q n c).queue p q = [c] := by
      refine (State.queue_setQueue_same ..).trans ?_
      rw [hempty]
      rfl
    refine ⟨((s1.packetTaken p q n c).setQueue p q []).wr .HB_Q_DONE_INDEX
      ((s1.packetTaken p q n c).rd .HB_Q_DONE_INDEX p q + n) p q, ?_, ?_, ?_, ?_, ?_⟩
    · refine congrArg Host.Outcome.next ((if_pos hlive).trans ?_)
      rw [State.intakeNop_of_packet htakes hfetch hop, State.takePacket_of_nop _ _ _ _ hop, State.trimQueue_of_done hone rfl]
      exact State.passRecords_of_none hnone
    · exact State.queue_setQueue_same ..
    · have hwidth : Field.HB_Q_READ_INDEX.width = 32 := rfl
      simp [State.packetTaken, State.rd_wr_field, hwidth]
    · have hwidth : Field.HB_Q_DONE_INDEX.width = 32 := rfl
      simp [State.packetTaken, State.rd_wr_field, hwidth]
    · simp [State.packetTaken]

end Sys2Proof.Claims
end

