-- ==== Sys2Proof/Proofs/QueueLife.lean ====
section
/-!
PROOF. The life of a queue (spec/09): it is enabled, resumed, rung by its doorbell, and destroyed when it holds no work.
-/

namespace Sys2Proof.Machine

open Sys2Proof.Claims

section
variable {s : State} {p q : Nat}

/-! ### Enabling -/

/-- The state whose queue starts empty (R285). -/
def State.queueStart (s : State) (p q size : Nat) : State :=
  (((((s.wr .HB_Q_CTRL_SIZE size p q).wr .HB_Q_READ_INDEX 0 p q).wr .HB_Q_DONE_INDEX 0 p q).setBell p q 0).wr
    .HB_PART_FAULT_STATUS 0 p).wr .HB_Q_CTRL_EN 1 p q

theorem State.enableQueue_of_size {size : Nat} (hen : s.rd .HB_Q_CTRL_EN p q = 0) (hdes : s.rd .HB_Q_CTRL_DESTROYING p q = 0)
    (hlo : 7 ≤ size) (hhi : size ≤ 20) : s.enableQueue p q size = s.queueStart p q size := by
  unfold State.enableQueue
  rw [if_neg (by simp [hen, hdes])]
  exact if_neg (by simp; omega)

@[simp] theorem State.bell_wr (s : State) (f : Field) (v i j p q : Nat) : (s.wr f v i j).bell p q = s.bell p q := rfl

theorem State.bell_setBell_ne (v : Nat) {k : Nat} (h : k ≠ p * 16 + q) :
    storeGet 0 (s.setBell p q v).hb.bells k = storeGet 0 s.hb.bells k := by
  unfold State.setBell
  dsimp only
  rw [storeGet_set, if_neg h]

/-! ### A chip without work -/

theorem State.setWaits_filter_of_all {f : Wait → Bool} (h : ∀ w, f w = true) : s.setWaits (s.sync.waits.filter f) = s := by
  unfold State.setWaits
  rw [List.filter_eq_self.mpr fun w _ => h w]

/-- No command, graph run, pending release, launch, pass or fence: nothing that a queue's destruction ends. -/
structure State.NoWork (s : State) : Prop where
  queues : s.hb.queues = []
  runs : s.hb.runs = []
  releases : s.hb.releases = []
  launches : s.launches = []
  passes : s.geo.passes = []
  fences : ∀ h < 16384, s.rd .SYN_OBJ_TYPE h ≠ 1

variable (hidle : s.NoWork)
include hidle

theorem State.NoWork.allCmds_eq : s.allCmds = [] := by
  simp [State.allCmds, hidle.queues]

theorem State.NoWork.launch_eq (id : Nat) : s.launch id = none := by
  simp [State.launch, hidle.launches, storeFind]

theorem State.NoWork.abortWaiting_eq (c : StopCause) : s.abortWaiting c = s := by
  have hruns := hidle.runs
  have hcmds := hidle.allCmds_eq
  unfold State.abortWaiting
  simp only [hruns, List.map_nil]
  rw [← hruns]
  simp only [hcmds, List.filter_nil, List.foldl_nil]
  refine State.setWaits_filter_of_all fun w => ?_
  cases w.who <;> rfl

/-- No engine holds work of the queue. -/
theorem State.NoWork.holders_queue (halone : s.spanning p = false) : s.holders (.queue p q) = [] := by
  have hhanded : s.scopeHanded (.queue p q) = [] := by simp [State.scopeHanded, hidle.allCmds_eq]
  have hvats : s.scopeVats (.queue p q) = [] := by simp [State.scopeVats, hidle.launch_eq]
  have hmembers : s.scopeMembers (.queue p q) = [] := by simp [State.scopeMembers, StopCause.part, halone]
  simp [State.holders, hhanded, hvats, hmembers, hidle.passes]

theorem State.NoWork.flushQueue_eq (c : StopCause) : s.flushQueue c = s := by
  simp [State.flushQueue, hidle.allCmds_eq]

theorem State.NoWork.abortFences_eq : s.abortFences p q = s := by
  have hnone : ∀ h ∈ List.range 16384, ¬(s.objType h = 1) := fun h hh => hidle.fences h (List.mem_range.mp hh)
  unfold State.abortFences
  rw [List.filter_eq_nil_iff.mpr fun h hh => by simp [hnone h hh]]
  rfl

theorem State.NoWork.passRecords_eq : s.passRecords = s := State.passRecords_of_none hidle.releases

end

section
variable {s : State} {p q : Nat}

/-! ### Destruction -/

/-- The state in which the destruction of queue q of a partition without work has begun: no preload slot, saved block or
column is left of it. -/
def State.queueCleared (s : State) (p q : Nat) : State :=
  ((((s.wr .HB_Q_CTRL_EN 0 p q).wr .HB_Q_CTRL_DESTROYING 1 p q).emptyPreloads (.queue p q)).unrefuse p q).dropLaunches
    (.queue p q)

@[simp] theorem State.rd_emptyPreloads (s : State) (c : StopCause) (f : Field) (i j : Nat) :
    (s.emptyPreloads c).rd f i j = s.rd f i j := rfl

@[simp] theorem State.rd_unrefuse (s : State) (p q : Nat) (f : Field) (i j : Nat) :
    (s.unrefuse p q).rd f i j = s.rd f i j := rfl

@[simp] theorem State.rd_dropLaunches (s : State) (c : StopCause) (f : Field) (i j : Nat) :
    (s.dropLaunches c).rd f i j = s.rd f i j := rfl

@[simp] theorem regsKept_emptyPreloads {t : State} {l : List (Field × Nat × Nat)} (c : StopCause) :
    RegsKept s (t.emptyPreloads c) l ↔ RegsKept s t l := Iff.rfl

@[simp] theorem regsKept_unrefuse {t : State} {l : List (Field × Nat × Nat)} (p q : Nat) :
    RegsKept s (t.unrefuse p q) l ↔ RegsKept s t l := Iff.rfl

@[simp] theorem regsKept_dropLaunches {t : State} {l : List (Field × Nat × Nat)} (c : StopCause) :
    RegsKept s (t.dropLaunches c) l ↔ RegsKept s t l := Iff.rfl

theorem State.NoWork.dropLaunches (h : s.NoWork) (c : StopCause) : (s.dropLaunches c).NoWork :=
  { h with
    launches := by
      show s.launches.filter _ = []
      rw [h.launches, List.filter_nil] }

theorem State.NoWork.wr (h : s.NoWork) {f : Field} (v i j : Nat) (hi : i < 65536) (hj : j < 65536)
    (hf : Field.SYN_OBJ_TYPE ≠ f) : (s.wr f v i j).NoWork :=
  { h with
    fences := fun k hk => by
      rw [State.rd_wr_field _ hi hj (by omega) (by omega) hf]
      exact h.fences k hk }

theorem State.finishQueue_record_eq (s : State) (p q : Nat) (c : StopCause) :
    s.finishQueue p q c true = ((((((s.unrefuse p q).flushQueue c).dropLaunches c).abortFences p q).wr
      .HB_Q_CTRL_DESTROYING 0 p q).passRecords).raisePart p { kind := 0x04, src := p, detail := q } := by
  unfold State.finishQueue State.unrefuse
  simp only [if_true]

/-- The destruction of a queue of a partition without work ends at once. -/
theorem State.NoWork.destroyQueue_eq (h : s.NoWork) (halone : s.spanning p = false) (hp : p < 65536) (hq : q < 65536) :
    s.destroyQueue p q = ((s.queueCleared p q).wr .HB_Q_CTRL_DESTROYING 0 p q).raisePart p
      { kind := 0x04, src := p, detail := q } := by
  have hoff : ((s.wr .HB_Q_CTRL_EN 0 p q).wr .HB_Q_CTRL_DESTROYING 1 p q).NoWork :=
    (h.wr 0 p q hp hq (by decide)).wr 1 p q hp hq (by decide)
  have hslots : (((s.wr .HB_Q_CTRL_EN 0 p q).wr .HB_Q_CTRL_DESTROYING 1 p q).emptyPreloads (.queue p q)).NoWork :=
    { hoff with }
  have hunrefused : ((((s.wr .HB_Q_CTRL_EN 0 p q).wr .HB_Q_CTRL_DESTROYING 1 p q).emptyPreloads (.queue p q)).unrefuse p
    q).NoWork := { hslots with }
  have hcleared : (s.queueCleared p q).NoWork := hunrefused.dropLaunches _
  unfold State.destroyQueue
  dsimp only
  rw [hslots.abortWaiting_eq, if_pos (hslots.holders_queue (by exact halone))]
  rw [State.finishQueue_record_eq, hunrefused.flushQueue_eq]
  change ((State.abortFences (s.queueCleared p q) p q).wr _ _ _ _).passRecords.raisePart _ _ = _
  rw [hcleared.abortFences_eq, (hcleared.wr 0 p q hp hq (by decide)).passRecords_eq]

end

end Sys2Proof.Machine

namespace Sys2Proof.Claims

open Sys2Proof Sys2Proof.Machine

theorem queueEnableResumeAndDoorbell : QueueEnableResumeAndDoorbell := by
  intro s fn p q size value
  have hsize : size.toNat < 2 ^ Field.HB_Q_CTRL_SIZE.width := size.isLt
  refine ⟨fun hmay hen hdes hlo hhi => ⟨s.queueStart p q size.toNat, ?_, ?_, ?_, ?_, ?_, ?_, ?_, ?_, rfl⟩,
    fun hmay => ⟨s.wr .HB_Q_CTRL_HALTED 0 p q, congrArg Host.Outcome.next (if_pos hmay), ?_, by simp, rfl⟩,
    fun hbell => ⟨s.setBell p q value.toNat, congrArg Host.Outcome.next (if_pos (by simp [hbell])), ?_, ?_, rfl⟩⟩
  · refine congrArg Host.Outcome.next ((if_pos hmay).trans ?_)
    exact State.enableQueue_of_size hen hdes hlo hhi
  · exact State.rd_wr_same ..
  · simp [State.queueStart, State.rd_wr_field, Nat.mod_eq_of_lt hsize]
  · simp [State.queueStart, State.rd_wr_field]
  · simp [State.queueStart, State.rd_wr_field]
  · simp [State.queueStart]
  · simp [State.queueStart, State.rd_wr_field]
  · simp [State.queueStart]
  · exact State.rd_wr_same ..
  · rw [State.bell_setBell_same, Nat.mod_eq_of_lt value.isLt]
  · intro k hk
    exact State.bell_setBell_ne _ hk

theorem idleQueueIsDestroyed : IdleQueueIsDestroyed := by
  intro s fn p q hmay hhome halone hen hqueues hruns hreleases hlaunches hpasses hfences htarget
  have hidle : s.NoWork := ⟨hqueues, hruns, hreleases, hlaunches, hpasses, hfences⟩
  have hle := s.driverTarget_le p.isLt
  have hlt : s.driverTarget p < 65536 := by omega
  have hdriver : ((s.queueCleared p q).wr .HB_Q_CTRL_DESTROYING 0 p q).driverTarget p = s.driverTarget p := by
    refine State.driverTarget_congr (s := s) (u := (s.queueCleared p q).wr .HB_Q_CTRL_DESTROYING 0 p q) rfl rfl ?_ _
    simp [State.queueCleared, State.rd_wr_field]
  have hhomed : ((s.queueCleared p q).wr .HB_Q_CTRL_DESTROYING 0 p q).homed p = true := hhome
  have hexec : exec (.queueDestroy fn p q) s = .next (((s.queueCleared p q).wr .HB_Q_CTRL_DESTROYING 0 p q).wr .EVQ_PEND_PEND
      (setBit (s.rd .EVQ_PEND_PEND (s.driverTarget p)) 3) (s.driverTarget p)) := by
    refine congrArg Host.Outcome.next ((if_pos (by simp [hmay, hen])).trans ?_)
    rw [hidle.destroyQueue_eq halone (by simp) (by simp), State.raisePart_of_homed _ hhomed, hdriver,
      State.raise_of_disabled hlt]
    · simp [State.queueCleared, State.rd_wr_field, hlt]
    · simp [State.queueCleared, State.rd_wr_field, hlt, htarget]
  refine ⟨_, hexec, ?_, ?_, ?_, rfl, ?_⟩
  · simp [State.queueCleared, State.rd_wr_field, hlt]
  · simp [State.queueCleared, State.rd_wr_field, hlt]
  · exact (bitAt_rd_wr_same _ _ (by decide)).trans (kindBit_setBit _ (k := 4))
  · simp [State.queueCleared, hlt]

/-- Settles O13: enabling, RESUME and the doorbell by their register writes, the destruction by `NoWork.destroyQueue_eq`. -/
theorem queuesStartRingAndEnd : Obligations.QueuesStartRingAndEnd := ⟨queueEnableResumeAndDoorbell, idleQueueIsDestroyed⟩

end Sys2Proof.Claims
end

