-- ==== Sys2Proof/Proofs/HandOff.lean ====
section
/-!
PROOF. The hand-off of a command and its status (spec/09): what a read of a command gives after its record changed, and the
commands of the copy engine.
-/

namespace Sys2Proof.Machine

open Sys2Proof.Claims

section
variable {s : State}

/-! ### A command's record -/

/-- The commands of all queues, in order, under a change of each record. -/
theorem flatMap_map_snd {α : Type} (f : Cmd → Cmd) (l : List (α × List Cmd)) :
    (l.map (fun e => (e.1, e.2.map f))).flatMap (·.2) = (l.flatMap (·.2)).map f := by
  induction l with
  | nil => rfl
  | cons e es ih => simp [ih]

theorem find?_map_id {f : Cmd → Cmd} (h : ∀ c, (f c).id = c.id) (l : List Cmd) (id : Nat) :
    (l.map f).find? (fun c => c.id = id) = (l.find? (fun c => c.id = id)).map f := by
  simp [List.find?_map, h]

/-- A change of one command's record that keeps its id. -/
theorem State.cmd_modCmd {f : Cmd → Cmd} (id : Nat) (h : ∀ c, (f c).id = c.id) {c : Cmd} (hc : s.cmd id = some c) :
    (s.modCmd id f).cmd id = some (f c) := by
  have hid : c.id = id := by simpa using List.find?_some hc
  unfold State.modCmd State.cmd State.allCmds
  dsimp only
  rw [flatMap_map_snd, find?_map_id (fun x => by split <;> simp [h])]
  have hfind : (s.hb.queues.flatMap (·.2)).find? (fun c => c.id = id) = some c := hc
  rw [hfind]
  simp [hid]

/-- The status of a command that is handed off. -/
theorem State.cmd_setResult {id : Nat} {c : Cmd} (st : Nat) (hc : s.cmd id = some c) (hphase : c.phase = .handed)
    (hnone : c.result = none) : (s.setResult id st).cmd id = some { c with result := some st } := by
  have hid : c.id = id := by simpa using List.find?_some hc
  unfold State.setResult State.cmd State.allCmds
  dsimp only
  rw [flatMap_map_snd, find?_map_id (fun x => by split <;> rfl)]
  have hfind : (s.hb.queues.flatMap (·.2)).find? (fun c => c.id = id) = some c := hc
  rw [hfind]
  simp [hid, hphase, hnone]

/-! ### Hand-off -/

/-- The hand-off wakes no engine but the geometry engine and the baler. -/
theorem State.hand_eq {id : Nat} {c : Cmd} (hc : s.cmd id = some c) (hgeo : c.op ≠ 0x10) (hbal : engineOf c.op ≠ 3) :
    s.hand id = s.modCmd id (fun c => { c with phase := .handed }) := by
  unfold State.hand State.wakeEngine
  rw [hc]
  simp [hgeo, hbal]

theorem State.cmd_hand {id : Nat} {c : Cmd} (hc : s.cmd id = some c) (hgeo : c.op ≠ 0x10) (hbal : engineOf c.op ≠ 3) :
    (s.hand id).cmd id = some { c with phase := .handed } := by
  rw [State.hand_eq hc hgeo hbal]
  exact State.cmd_modCmd (f := fun c => { c with phase := .handed }) id (fun _ => rfl) hc

/-- A command that is handed off with its status at once. -/
theorem State.handDone_spec {id : Nat} {c : Cmd} (st : Nat) (hc : s.cmd id = some c) (hgeo : c.op ≠ 0x10)
    (hbal : engineOf c.op ≠ 3) (hnone : c.result = none) :
    (s.handDone id st).cmd id = some { c with phase := .handed, result := some st } ∧
      s.handDone id st = { s with hb := (s.handDone id st).hb } := by
  refine ⟨State.cmd_setResult st (State.cmd_hand hc hgeo hbal) rfl hnone, ?_⟩
  unfold State.handDone
  rw [State.hand_eq hc hgeo hbal]
  rfl

/-- The command at the parser's head is of the kind asked for. -/
theorem State.want_of_headCmd {p q : Nat} {want : Cmd → Bool} {c : Cmd} (h : s.headCmd p q want = some c) :
    want c = true := by
  unfold State.headCmd at h
  split at h
  next x hx =>
    obtain rfl := Option.some.inj h
    have := List.find?_some hx
    simp_all
  next =>
    split at h
    next x hx =>
      split at h
      next hok =>
        obtain rfl := Option.some.inj h
        simp_all
      next => exact absurd h (by simp)
    next => exact absurd h (by simp)

/-- A command of a queue runs on the command at the parser's head. -/
theorem State.withCmd_of_head {p : Fin 32} {q : Fin 16} {want : Cmd → Bool} {c : Cmd} (hlive : s.live = true)
    (h : s.headCmd p q want = some c) (k : State → Cmd → State) : s.withCmd (.queue p q) want k = k s c := by
  unfold State.withCmd State.takeCmd
  dsimp only
  rw [hlive, h]
  rfl

end

section
variable {s : State} {p : Fin 32} {q : Fin 16} {op : Nat} {c : Cmd}

theorem atHead_op (h : AtHead s p q op c) : c.op = op := by
  obtain ⟨-, hhead, -, -⟩ := h
  simpa using State.want_of_headCmd hhead

theorem atHead_run (h : AtHead s p q op c) (k : State → Cmd → State) :
    s.withCmd (.queue p q) (fun c => c.op = op) k = k s c := State.withCmd_of_head h.1 h.2.1 k

/-- A command with its status at once: what it leaves. -/
theorem atHead_handDone (h : AtHead s p q op c) (hgeo : op ≠ 0x10) (hbal : engineOf op ≠ 3) (st : Nat) :
    (s.handDone c.id st).cmd c.id = some { c with phase := .handed, result := some st } ∧
      s.handDone c.id st = { s with hb := (s.handDone c.id st).hb } := by
  have hop := atHead_op h
  obtain ⟨-, -, hc, hnone⟩ := h
  exact State.handDone_spec st hc (hop ▸ hgeo) (hop ▸ hbal) hnone

/-! ### The copy engine -/

/-- A COPY that lies in one page of each range takes one chunk. -/
theorem State.copyFrom_one {s s1 s2 s3 : State} {c : Cmd} {a d n k : Nat} {bs : List Byte} (hne : n ≠ 0)
    (hsrc : a % 4096 + n ≤ 4096) (hdst : d % 4096 + n ≤ 4096)
    (hfoot : (s.modCmd c.id (fun c => { c with progress := 0 })).footprints (copyAsker c.p) (.cmd c.id) c.p
      (sortRanges [(a, n, rightR), (d, n, rightW)]) = (s1, .ok ()))
    (hread : s1.vRead (copyAsker c.p) (.cmd c.id) c.p a n = (s2, .ok bs))
    (hwrite : s2.vWrite (copyAsker c.p) (.cmd c.id) c.p d bs = (s3, .ok ())) :
    s.copyFrom c (some a) d n (k + 1) 0 = s3.copyFrom c (some a) d n k n := by
  have hmin : min (min n (4096 - d % 4096)) (4096 - a % 4096) = n := by omega
  have hbound : ¬ n ≤ 0 := by omega
  obtain ⟨foot, hfootdef, hfoot⟩ : ∃ f, @State.footprints = f ∧ f (s.modCmd c.id (fun c => { c with progress := 0 }))
    (copyAsker c.p) (.cmd c.id) c.p (sortRanges [(a, n, rightR), (d, n, rightW)]) = (s1, .ok ()) := ⟨_, rfl, hfoot⟩
  obtain ⟨read, hreaddef, hread⟩ : ∃ f, @State.vRead = f ∧ f s1 (copyAsker c.p) (.cmd c.id) c.p a n = (s2, .ok bs) :=
    ⟨_, rfl, hread⟩
  obtain ⟨write, hwritedef, hwrite⟩ : ∃ f, @State.vWrite = f ∧ f s2 (copyAsker c.p) (.cmd c.id) c.p d bs = (s3, .ok ()) :=
    ⟨_, rfl, hwrite⟩
  rw [State.copyFrom, hfootdef, hreaddef, hwritedef]
  dsimp only
  rw [if_neg hbound]
  simp only [Nat.sub_zero, Nat.add_zero, hmin, List.singleton_append, hfoot, hread, hwrite, Nat.zero_add]

/-- A FILL that lies in one page takes one chunk. -/
theorem State.fillFrom_one {s s1 s3 : State} {c : Cmd} {d n k : Nat} (hne : n ≠ 0) (hdst : d % 4096 + n ≤ 4096)
    (hfoot : (s.modCmd c.id (fun c => { c with progress := 0 })).footprints (copyAsker c.p) (.cmd c.id) c.p
      (sortRanges [(d, n, rightW)]) = (s1, .ok ()))
    (hwrite : s1.vWrite (copyAsker c.p) (.cmd c.id) c.p d
      ((List.range n).map (fun i => BitVec.ofNat 8 (c.word 5 / 2 ^ (8 * (i % 4))))) = (s3, .ok ())) :
    s.copyFrom c none d n (k + 1) 0 = s3.copyFrom c none d n k n := by
  have hmin : min n (4096 - d % 4096) = n := by omega
  have hbound : ¬ n ≤ 0 := by omega
  obtain ⟨foot, hfootdef, hfoot⟩ : ∃ f, @State.footprints = f ∧ f (s.modCmd c.id (fun c => { c with progress := 0 }))
    (copyAsker c.p) (.cmd c.id) c.p (sortRanges [(d, n, rightW)]) = (s1, .ok ()) := ⟨_, rfl, hfoot⟩
  obtain ⟨write, hwritedef, hwrite⟩ : ∃ f, @State.vWrite = f ∧ f s1 (copyAsker c.p) (.cmd c.id) c.p d
    ((List.range n).map (fun i => BitVec.ofNat 8 (c.word 5 / 2 ^ (8 * (i % 4))))) = (s3, .ok ()) := ⟨_, rfl, hwrite⟩
  rw [State.copyFrom, hfootdef, hwritedef]
  dsimp only
  rw [if_neg hbound]
  simp only [Nat.sub_zero, Nat.add_zero, hmin, List.nil_append, hfoot, hwrite, Nat.zero_add]

/-- The end of a copy whose bytes are all moved. -/
theorem State.copyFrom_end {s : State} {c x : Cmd} {src : Option Nat} {dst n fuel : Nat} (hfuel : fuel ≠ 0)
    (hx : s.cmd c.id = some x) (hphase : x.phase = .handed) (hnone : x.result = none)
    (hreqs : s.ring.reqs.any (fun r => r.owner = .cmd c.id) = false) :
    (s.copyFrom c src dst n fuel n).cmd c.id = some { x with progress := n, result := some stOk } ∧
      s.copyFrom c src dst n fuel n = { s with hb := (s.copyFrom c src dst n fuel n).hb } := by
  obtain ⟨k, rfl⟩ := Nat.exists_eq_succ_of_ne_zero hfuel
  have hmoved : (s.modCmd c.id (fun c => { c with progress := n })).cmd c.id = some { x with progress := n } :=
    State.cmd_modCmd (f := fun c => { c with progress := n }) c.id (fun _ => rfl) hx
  have hend : s.copyFrom c src dst n (k + 1) n = (s.modCmd c.id (fun c => { c with progress := n })).setResult c.id stOk := by
    rw [State.copyFrom]
    dsimp only
    rw [if_pos (Nat.le_refl n)]
    unfold State.copyCheck
    rw [hmoved]
    exact if_pos (by simpa [hphase, State.modCmd] using hreqs)
  rw [hend]
  exact ⟨State.cmd_setResult stOk hmoved hphase hnone, rfl⟩

end

end Sys2Proof.Machine

namespace Sys2Proof.Claims

open Sys2Proof Sys2Proof.Machine

/-- Settles O14: the copy engine's loop takes one chunk when the ranges lie in one page, and ends. -/
theorem copyAndFillMoveBytes : Obligations.CopyAndFillMoveBytes := by
  intro s s1 s2 s3 p q c bs
  refine ⟨fun h hzero => ?_, fun h hne hlo hhi => ?_, ?_, fun h hzero => ?_, ?_⟩
  · obtain ⟨hcmd, hframe⟩ := atHead_handDone h (by decide) (by decide) stOk
    exact ⟨_, congrArg Host.Outcome.next ((atHead_run h _).trans (if_pos hzero)), hcmd, hframe⟩
  · obtain ⟨hcmd, hframe⟩ := atHead_handDone h (by decide) (by decide) (stCmd 0x27 0)
    exact ⟨_, congrArg Host.Outcome.next ((atHead_run h _).trans ((if_neg hne).trans (if_pos (by simp [hlo, hhi])))), hcmd,
      hframe⟩
  · intro h hphase hprogress hne hapart hsrc hdst hfoot hread hwrite hreqs hcmd
    have hnone := h.2.2.2
    obtain ⟨hend, hframe⟩ := State.copyFrom_end (src := some (c.dword 1)) (dst := c.dword 3) (n := c.dword 5)
      (fuel := 2 * (c.dword 5 / 4096) + 3) (by omega) hcmd rfl hnone hreqs
    refine ⟨_, congrArg Host.Outcome.next ((atHead_run h _).trans ?_), hend, hframe⟩
    unfold State.copyHand
    dsimp only
    rw [if_neg hne, if_neg (by simp; omega), hprogress]
    exact State.copyFrom_one hne hsrc hdst hfoot hread hwrite
  · obtain ⟨hcmd, hframe⟩ := atHead_handDone h (by decide) (by decide) stOk
    exact ⟨_, congrArg Host.Outcome.next ((atHead_run h _).trans (if_pos hzero)), hcmd, hframe⟩
  · intro h hphase hprogress hne hdst hfoot hwrite hreqs hcmd
    have hnone := h.2.2.2
    obtain ⟨hend, hframe⟩ := State.copyFrom_end (src := none) (dst := c.dword 1) (n := c.dword 3)
      (fuel := c.dword 3 / 4096 + 2) (by omega) hcmd rfl hnone hreqs
    refine ⟨_, congrArg Host.Outcome.next ((atHead_run h _).trans ?_), hend, hframe⟩
    unfold State.fillHand
    dsimp only
    rw [if_neg hne, hprogress]
    exact State.fillFrom_one hne hdst hfoot hwrite

end Sys2Proof.Claims
end

