-- ==== Sys2Proof/Proofs/Objects.lean ====
section
/-!
PROOF. Shared objects (spec/10): requests of HB_OBJ_CTRL for sync and memory objects, host writes of VALUE, and the ends of
waits.
-/

namespace Sys2Proof.Machine

open Sys2Proof.Claims

section
variable {s u : State} {p h : Nat}

/-! ### Arms and waits -/

/-- Without a pending plane arm a change of an object moves none. -/
theorem State.wallHook_of_noArms (harms : NoArms s) (k : Nat) : s.wallHook k = s := by
  obtain ⟨h0, h1⟩ := harms
  simp [State.wallHook, h0, h1]

theorem noArms_congr (h : ∀ k < 2, u.rd .CAL_PLANE_CTRL_ARM k 0 = s.rd .CAL_PLANE_CTRL_ARM k 0) (harms : NoArms s) :
    NoArms u := ⟨(h 0 (by decide)).trans harms.1, (h 1 (by decide)).trans harms.2⟩

@[simp] theorem State.rd_notify (s : State) (k : Nat) (g : Wait → Option Nat) (f : Field) (i j : Nat) :
    (s.notify k g).rd f i j = s.rd f i j := rfl

@[simp] theorem State.rd_evalWaits (s : State) (k : Nat) (f : Field) (i j : Nat) : (s.evalWaits k).rd f i j = s.rd f i j := rfl

@[simp] theorem regsKept_evalWaits {l : List (Field × Nat × Nat)} (k : Nat) : RegsKept s (u.evalWaits k) l ↔ RegsKept s u l :=
  Iff.rfl

/-- A new value with no plane arm pending: the register and the waits. -/
theorem State.setValue_of_noArms (harms : NoArms s) (hk : h < 65536) (v : Nat) :
    s.setValue h v = (s.wr .SYN_OBJ_VALUE v h).evalWaits h := by
  refine State.wallHook_of_noArms (noArms_congr (s := s) (fun k hlt => ?_) harms) h
  have hlt' : k < 65536 := by omega
  simp [State.rd_wr_field, hk, hlt']

/-! ### Requests -/

/-- The state with the request's fields in HB_OBJ_CTRL. -/
def State.objAsked (s : State) (p op type handle : Nat) : State :=
  ((s.wr .HB_OBJ_CTRL_OP op p).wr .HB_OBJ_CTRL_TYPE type p).wr .HB_OBJ_CTRL_HANDLE handle p

/-- The fields of HB_OBJ_CTRL. -/
def objCtrlFields : List Field := [.HB_OBJ_CTRL_OP, .HB_OBJ_CTRL_TYPE, .HB_OBJ_CTRL_HANDLE]

theorem State.rd_objAsked (hp : p < 65536) (op type handle : Nat) {f : Field} {i j : Nat} (hf : f ∉ objCtrlFields)
    (hi : i < 65536) (hj : j < 65536) : (s.objAsked p op type handle).rd f i j = s.rd f i j := by
  simp only [objCtrlFields, List.mem_cons, List.not_mem_nil, or_false, not_or] at hf
  obtain ⟨hop, htype, hhandle⟩ := hf
  simp [State.objAsked, State.rd_wr_field, hp, hi, hj, hop, htype, hhandle]

/-- A request of a partition homed here that is granted. -/
theorem State.objRequest_of_ok {fn op type handle : Nat} {act : State → ObjOut} (hmay : s.mayWrite fn p = true)
    (hhome : s.homed p = true) (hact : act (s.objAsked p op type handle) = .ok u) :
    s.objRequest fn p op type handle act = u.wr .HB_OBJ_RESULT_STATUS stOk p := by
  unfold State.objRequest
  dsimp only
  have hhome' : (s.objAsked p op type handle).homed p = true := hhome
  rw [if_neg (by simp [hmay])]
  change (match (if (s.objAsked p op type handle).homed p then act (s.objAsked p op type handle) else _) with
    | .error _ => _
    | .ok _ => _) = _
  rw [if_pos hhome', hact]

/-! ### What a request finds -/

/-- States that agree on the objects' registers own the same objects. -/
theorem State.objsOf_congr (h : ∀ f ∈ [Field.SYN_OBJ_TYPE, .SYN_OBJ_OWNER], ∀ k < 16384, u.rd f k = s.rd f k) (p : Nat)
    (f : Nat → Bool) : u.objsOf p f = s.objsOf p f := by
  refine List.filter_congr fun k hk => ?_
  have hlt := List.mem_range.mp hk
  have htype : u.objType k = s.objType k := h _ (by simp) k hlt
  have hown : u.rd .SYN_OBJ_OWNER k = s.rd .SYN_OBJ_OWNER k := h _ (by simp) k hlt
  simp only [htype, hown]

theorem bitIdx_zero (n : Nat) : bitIdx n 0 = [] := by
  simp [bitIdx, bitAt]

theorem State.exportOk_zero (s : State) (p : Nat) : s.exportOk p 0 = true := by
  simp [State.exportOk, bitIdx_zero]

end

section
variable {s : State} {p op type handle k : Nat} (hp : p < 65536) (hk : k < 16384)
include hp hk

theorem State.objType_objAsked : (s.objAsked p op type handle).objType k = s.objType k :=
  State.rd_objAsked hp op type handle (by decide) (by omega) (by decide)

theorem State.objState_objAsked : (s.objAsked p op type handle).objState k = s.objState k :=
  State.rd_objAsked hp op type handle (by decide) (by omega) (by decide)

theorem State.owns_objAsked (p' : Nat) : (s.objAsked p op type handle).owns p' k = s.owns p' k := by
  unfold State.owns
  rw [State.objType_objAsked hp hk, State.objState_objAsked hp hk,
    State.rd_objAsked hp op type handle (by decide) (by omega) (by decide)]

end

/-! ### Sync objects -/

/-- The state with a new sync object of partition p, exported to none and bound to no queue. -/
def State.syncCreated (s : State) (p type h : Nat) : State :=
  ((((((((((s.wr .SYN_OBJ_TYPE type h).wr .SYN_OBJ_STATE 0 h).wr .SYN_OBJ_OWNER p h).wr .SYN_OBJ_EXPORT 0 h).wr
    .SYN_OBJ_QBOUND 0 h).wr .SYN_OBJ_QUEUE 0 h).wr .SYN_OBJ_VALUE
    (if type = 1 ∨ type = 4 then s.rd .HB_OBJ_ARG_ARG0 p else 0) h).wr .SYN_OBJ_AUX
    (if type = 3 then s.rd .HB_OBJ_ARG_ARG0 p % 2 ^ 32 else 0) h).clearLatch h).wr .HB_OBJ_HANDLE_HANDLE h p)

section
variable {s : State} {p h : Nat}

@[simp] theorem State.rd_clearLatch (s : State) (k : Nat) (f : Field) (i j : Nat) : (s.clearLatch k).rd f i j = s.rd f i j :=
  rfl

theorem State.createSync_of_room {type : Nat} (hlo : 1 ≤ type) (hhi : type ≤ 4) (harg1 : s.rd .HB_OBJ_ARG_ARG1 p = 0)
    (hbarrier : type = 3 → s.rd .HB_OBJ_ARG_ARG0 p % 2 ^ 32 ≠ 0) (hlock : type = 2 → s.rd .HB_OBJ_ARG_ARG0 p = 0)
    (hquota : s.ownedSync p < s.rd .GLB_OBJ_QUOTA_SYN p)
    (hfree : (List.range 16384).find? (fun h => s.objType h = 0) = some h) :
    s.createSync p type = .ok (s.syncCreated p type h) := by
  unfold State.createSync
  dsimp only
  rw [harg1, if_neg, if_neg (by omega), hfree]
  · simp [State.syncCreated, bits]
  · simp only [Nat.zero_mod, State.exportOk_zero, bits]
    simp
    omega

theorem State.exportSync_of_ok (howns : s.owns p h = true) (hok : s.exportOk p (s.rd .HB_OBJ_ARG_ARG1 p % 2 ^ 32) = true)
    (htype : s.objType h = 1 ∨ s.objType h = 4) :
    s.exportSync p h = .ok (s.wr .SYN_OBJ_EXPORT (s.rd .HB_OBJ_ARG_ARG1 p % 2 ^ 32) h) := by
  unfold State.exportSync
  dsimp only
  rw [howns, hok, if_neg]
  obtain htype | htype := htype <;> simp [htype]

theorem State.resetSync_of_value (howns : s.owns p h = true) (hstate : s.objState h ≠ 2)
    (htype : s.objType h = 1 ∨ s.objType h = 4) :
    s.resetSync p h = .ok ((s.wr .SYN_OBJ_STATE 0 h).setValue h (s.rd .HB_OBJ_ARG_ARG0 p)) := by
  unfold State.resetSync
  rw [if_neg (by simp [howns, hstate]), if_neg (by omega), if_neg (by omega)]

theorem State.lt_of_owns (howns : s.owns p h = true) : h < 16384 := by
  simp only [State.owns, Bool.and_eq_true, decide_eq_true_eq] at howns
  exact howns.1.1.1

end

end Sys2Proof.Machine

namespace Sys2Proof.Claims

open Sys2Proof Sys2Proof.Machine

/-- Settles O17: each request by what it comes to on the state with its fields in HB_OBJ_CTRL. -/
theorem syncObjectsAreCreatedExportedReset : Obligations.SyncObjectsAreCreatedExportedReset := by
  intro s fn p type handle h hmay hhome
  have hp : p.val < 65536 := by simp
  have hrd : ∀ (op : Nat) (f : Field) (i : Nat), f ∉ objCtrlFields → i < 65536 →
      (s.objAsked p op type.toNat handle.toNat).rd f i = s.rd f i := fun op f i hf hi =>
    State.rd_objAsked hp _ _ _ hf hi (by decide)
  refine ⟨fun hlo hhi harg1 harg0 hbarrier hlock hquota hfree => ?created, fun howns hok htype => ?exported,
    fun howns hstate harms harg0 htype => ?wasReset⟩
  case created =>
    have hh : h < 16384 := List.mem_range.mp (List.mem_of_find?_eq_some hfree)
    have hh' : h < 65536 := by omega
    have hwidth : type.toNat % 2 ^ Field.SYN_OBJ_TYPE.width = type.toNat := Nat.mod_eq_of_lt (by
      have hw : Field.SYN_OBJ_TYPE.width = 4 := rfl
      rw [hw]
      omega)
    have hact : (s.objAsked p 1 type.toNat handle.toNat).createSync p type.toNat =
        .ok ((s.objAsked p 1 type.toNat handle.toNat).syncCreated p type.toNat h) := by
      have hrd1 := hrd 1
      have hobjs : (s.objAsked p 1 type.toNat handle.toNat).ownedSync p = s.ownedSync p :=
        congrArg List.length (State.objsOf_congr (fun f hf k hk => hrd 1 f k (by
          simp only [List.mem_cons, List.not_mem_nil, or_false] at hf
          obtain rfl | rfl := hf <;> decide) (by omega)) _ _)
      have hfirst : (List.range 16384).find? (fun k => (s.objAsked p 1 type.toNat handle.toNat).objType k = 0) = some h := by
        rw [← hfree]
        exact List.find?_congr fun k hk => by rw [State.objType_objAsked hp (List.mem_range.mp hk)]
      generalize s.objAsked p 1 type.toNat handle.toNat = a at hfirst hobjs hrd1 ⊢
      rw [← hrd1 _ _ (by decide) hp] at harg1 hbarrier hlock hquota
      rw [← hobjs] at hquota
      exact State.createSync_of_room hlo hhi harg1 hbarrier hlock hquota hfirst
    refine ⟨_, congrArg Host.Outcome.next (State.objRequest_of_ok hmay hhome hact), ?_⟩
    have harg : (s.objAsked p 1 type.toNat handle.toNat).rd .HB_OBJ_ARG_ARG0 p = s.rd .HB_OBJ_ARG_ARG0 p :=
      hrd 1 _ _ (by decide) hp
    have hkept : ∀ k < 16384, k ≠ h → ∀ f ∈ [Field.SYN_OBJ_TYPE, .SYN_OBJ_VALUE],
        (((s.objAsked p 1 type.toNat handle.toNat).syncCreated p type.toNat h).wr .HB_OBJ_RESULT_STATUS stOk p).rd f k =
          s.rd f k := by
      intro k hk hne f hf
      have hk' : k < 65536 := by omega
      have hf' : f ∉ objCtrlFields := by
        simp only [List.mem_cons, List.not_mem_nil, or_false] at hf
        obtain rfl | rfl := hf <;> decide
      rw [← hrd 1 f k hf' hk']
      simp only [List.mem_cons, List.not_mem_nil, or_false] at hf
      obtain rfl | rfl := hf <;> simp [State.syncCreated, State.rd_wr_field, State.rd_wr_index, hh', hk', hne]
    refine ⟨?_, ?_, ?_, ?_, ?_, ?_, ?_, ?_, fun k hk hne => ⟨hkept k hk hne _ (by simp), hkept k hk hne _ (by simp)⟩,
      by simp only [State.syncCreated, State.objAsked, State.wr, State.clearLatch]⟩
    · exact State.rd_wr_same ..
    · have hw : h % 2 ^ Field.HB_OBJ_HANDLE_HANDLE.width = h := Nat.mod_eq_of_lt hh
      simp [State.syncCreated, State.rd_wr_field, hw]
    · simp [State.syncCreated, State.rd_wr_field, hh', hwidth]
    · simp [State.syncCreated, State.rd_wr_field, hh']
    · have hw : p.val % 2 ^ Field.SYN_OBJ_OWNER.width = p := Nat.mod_eq_of_lt p.isLt
      simp [State.syncCreated, State.rd_wr_field, hh', hw]
    · simp [State.syncCreated, State.rd_wr_field, hh']
    · have hw : (if type.toNat = 1 ∨ type.toNat = 4 then s.rd .HB_OBJ_ARG_ARG0 p else 0) % 2 ^ Field.SYN_OBJ_VALUE.width =
          if type.toNat = 1 ∨ type.toNat = 4 then s.rd .HB_OBJ_ARG_ARG0 p else 0 := Nat.mod_eq_of_lt (by
        split
        · exact harg0
        · decide)
      rw [← harg] at hw ⊢
      simpa [State.syncCreated, State.rd_wr_field, hh'] using hw
    · have hw : (if type.toNat = 3 then s.rd .HB_OBJ_ARG_ARG0 p % 2 ^ 32 else 0) % 2 ^ Field.SYN_OBJ_AUX.width =
          if type.toNat = 3 then s.rd .HB_OBJ_ARG_ARG0 p % 2 ^ 32 else 0 := Nat.mod_eq_of_lt (by
        split
        · exact (Nat.mod_lt _ (Nat.two_pow_pos 32)).trans (by decide)
        · decide)
      rw [← harg] at hw ⊢
      simpa [State.syncCreated, State.rd_wr_field, hh'] using hw
  case exported =>
    have hh := State.lt_of_owns howns
    have hh' : handle.toNat < 65536 := by simp
    have harg := hrd 4 .HB_OBJ_ARG_ARG1 p (by decide) hp
    have hact := State.exportSync_of_ok (s := s.objAsked p 4 type.toNat handle.toNat)
      ((State.owns_objAsked hp hh _).trans howns) (by rw [harg]; exact hok) ((State.objType_objAsked hp hh).symm ▸ htype)
    have hw : s.rd .HB_OBJ_ARG_ARG1 p % 2 ^ 32 % 2 ^ Field.SYN_OBJ_EXPORT.width = s.rd .HB_OBJ_ARG_ARG1 p % 2 ^ 32 :=
      Nat.mod_mod _ _
    refine ⟨_, congrArg Host.Outcome.next (State.objRequest_of_ok hmay hhome hact), ?_, ?_, ?_, ?_⟩
    · exact State.rd_wr_same ..
    · simpa [State.rd_wr_field, harg] using hw
    · simp [State.objAsked]
    · simp only [State.objAsked, State.wr]
  case wasReset =>
    have hh := State.lt_of_owns howns
    have hh' : handle.toNat < 65536 := by simp
    have harg := hrd 3 .HB_OBJ_ARG_ARG0 p (by decide) hp
    have hact := State.resetSync_of_value (s := s.objAsked p 3 type.toNat handle.toNat)
      ((State.owns_objAsked hp hh _).trans howns) (by rw [State.objState_objAsked hp hh]; exact hstate)
      ((State.objType_objAsked hp hh).symm ▸ htype)
    have harms' : NoArms ((s.objAsked p 3 type.toNat handle.toNat).wr .SYN_OBJ_STATE 0 handle.toNat) :=
      noArms_congr (s := s) (fun k hk => by
        have hk' : k < 65536 := by omega
        simp [State.rd_wr_field, hk', hrd 3 .CAL_PLANE_CTRL_ARM k (by decide) hk']) harms
    rw [State.setValue_of_noArms harms' hh', harg] at hact
    have hw : s.rd .HB_OBJ_ARG_ARG0 p % 2 ^ Field.SYN_OBJ_VALUE.width = s.rd .HB_OBJ_ARG_ARG0 p := Nat.mod_eq_of_lt harg0
    refine ⟨_, congrArg Host.Outcome.next (State.objRequest_of_ok hmay hhome hact), ?_, ?_, ?_, ?_, ?_⟩
    · exact State.rd_wr_same ..
    · simp [State.rd_wr_field, hw]
    · simp [State.rd_wr_field]
    · simp [State.objAsked]
    · simp only [State.objAsked, State.wr, State.evalWaits, State.notify, State.setWaits]

end Sys2Proof.Claims
end

