-- ==== Sys2Proof/Proofs/Releases.lean ====
section
/-!
PROOF. Pending releases and memory objects (spec/10): what a destruction and a free leave, and the requests for memory objects.
-/

namespace Sys2Proof.Machine

open Sys2Proof.Claims

section
variable {s u : State} {p h : Nat}

/-! ### Pending releases -/

/-- What a release is stamped with, and whether a stamp has passed, depends on the queues' registers and doorbells. -/
structure State.SameQueues (s u : State) : Prop where
  bells : u.hb.bells = s.hb.bells
  rd : ∀ f ∈ [Field.HB_Q_CTRL_EN, .HB_Q_CTRL_DESTROYING, .HB_Q_DONE_INDEX], ∀ i j : Nat, i < 32 → j < 16 →
    u.rd f i j = s.rd f i j

theorem State.SameQueues.stamps_eq (h : s.SameQueues u) (hp : p < 32) : u.stamps p = s.stamps p := by
  have hbell : ∀ q, u.bell p q = s.bell p q := fun q => by unfold State.bell; rw [h.bells]
  unfold State.stamps
  rw [List.filter_congr fun q hq => by
    have hq := List.mem_range.mp hq
    rw [h.rd .HB_Q_CTRL_EN (by simp) p q hp hq, h.rd .HB_Q_CTRL_DESTROYING (by simp) p q hp hq]]
  simp only [hbell]

theorem State.lt_of_mem_stamps {x : Nat × Nat} (h : x ∈ s.stamps p) : x.1 < 16 := by
  obtain ⟨q, hq, rfl⟩ := List.mem_map.mp h
  exact List.mem_range.mp (List.mem_filter.mp hq).1

theorem State.SameQueues.stampsPassed_eq (h : s.SameQueues u) (hp : p < 32) :
    (s.stamps p).all (u.stampPassed p) = (s.stamps p).all (s.stampPassed p) := by
  have heach : ∀ x ∈ s.stamps p, u.stampPassed p x = s.stampPassed p x := fun x hx => by
    have hq := State.lt_of_mem_stamps hx
    unfold State.stampPassed
    rw [h.rd .HB_Q_CTRL_EN (by simp) p x.1 hp hq, h.rd .HB_Q_CTRL_DESTROYING (by simp) p x.1 hp hq,
      h.rd .HB_Q_DONE_INDEX (by simp) p x.1 hp hq]
  rw [Bool.eq_iff_iff, List.all_eq_true, List.all_eq_true]
  exact forall₂_congr fun x hx => by rw [heach x hx]

/-- A release whose stamps have not passed stays. -/
theorem State.passRecords_of_one {r : Release} (hone : s.hb.releases = [r]) (h : r.stamps.all (s.stampPassed r.p) = false) :
    s.passRecords = s := by
  unfold State.passRecords
  rw [hone, List.foldl_cons, List.foldl_nil, h]
  rfl

theorem State.SameQueues.wr (h : s.SameQueues u) {f : Field} (v : Nat) {i j : Nat}
    (hf : f ∉ [Field.HB_Q_CTRL_EN, .HB_Q_CTRL_DESTROYING, .HB_Q_DONE_INDEX]) (hi : i < 65536 := by simp)
    (hj : j < 65536 := by simp) : s.SameQueues (u.wr f v i j) :=
  ⟨h.bells, fun g hg i' j' hi' hj' => by
    have hne : g ≠ f := by
      rintro rfl
      exact hf hg
    rw [u.rd_wr_field hi hj (by omega) (by omega) hne, h.rd g hg i' j' hi' hj']⟩

theorem State.SameQueues.refl (s : State) : s.SameQueues s := ⟨rfl, fun _ _ _ _ _ _ => rfl⟩

theorem State.sameQueues_objAsked (s : State) (hp : p < 65536) (op type handle : Nat) :
    s.SameQueues (s.objAsked p op type handle) :=
  (((State.SameQueues.refl s).wr op (by decide) hp).wr type (by decide) hp).wr handle (by decide) hp

/-! ### The destruction of a sync object -/

/-- The state in which a sync object is DESTROYING under one release of partition p. -/
def State.syncDestroyed (s : State) (p h : Nat) : State :=
  ((s.wr .SYN_OBJ_STATE 3 h).notify h (fun _ => some (stObjectDestroyed h))).takeRecord false h p

theorem State.destroyObj_of_noArms (harms : NoArms s) (hh : h < 65536) :
    s.destroyObj h = (s.wr .SYN_OBJ_STATE 3 h).notify h (fun _ => some (stObjectDestroyed h)) := by
  refine State.wallHook_of_noArms (noArms_congr (s := s) (fun k hlt => ?_) harms) h
  have hlt' : k < 65536 := by omega
  simp [State.rd_wr_field, hh, hlt']

theorem State.destroySync_of_waiting (howns : s.owns p h = true) (htype : s.objType h ≠ 2)
    (hexport : s.rd .SYN_OBJ_EXPORT h = 0) (harms : NoArms s) (hnone : s.hb.releases = []) (hp : p < 32)
    (hwaiting : (s.stamps p).all (s.stampPassed p) = false) :
    s.destroySync p h = .ok (s.syncDestroyed p h) ∧
      (s.syncDestroyed p h).hb.releases = [⟨false, h, p, s.stamps p⟩] := by
  have hh : h < 65536 := (State.lt_of_owns howns).trans (by decide)
  have hsame : s.SameQueues ((s.wr .SYN_OBJ_STATE 3 h).notify h (fun _ => some (stObjectDestroyed h))) :=
    { (State.SameQueues.refl s).wr (f := .SYN_OBJ_STATE) 3 (by decide) hh with }
  have hreleases : (s.syncDestroyed p h).hb.releases = [⟨false, h, p, s.stamps p⟩] := by
    show s.hb.releases ++ [⟨false, h, p, _⟩] = _
    rw [hnone, hsame.stamps_eq hp, List.nil_append]
  have hpassed : (s.syncDestroyed p h).passRecords = s.syncDestroyed p h := by
    refine State.passRecords_of_one hreleases ?_
    exact (State.SameQueues.stampsPassed_eq { hsame with } hp).trans hwaiting
  refine ⟨?_, hreleases⟩
  unfold State.destroySync
  dsimp only
  rw [hexport, bitIdx_zero, if_neg (by simp [howns]), if_neg (by simp [State.freeRecords, hnone])]
  have hdrop : s.dropLock h = s := if_neg htype
  rw [hdrop, State.destroyObj_of_noArms harms hh]
  exact congrArg Except.ok hpassed

/-! ### Memory objects -/

/-- The state with a new memory object of partition p, exported to none. -/
def State.memCreated (s : State) (p h : Nat) : State :=
  (((((((s.wr .HB_MO_STATE 1 h).wr .HB_MO_OWNER p h).wrAddr .HB_MO_BASE (s.rd .HB_OBJ_ARG_ARG0 p) h).wr .HB_MO_SIZE
    (s.rd .HB_OBJ_ARG_ARG1 p) h).wr .HB_MO_TAG (s.rd .HB_OBJ_ARG_ARG2 p) h).wr .HB_MO_EXPORT 0 h).wr .HB_MO_HOLDERS (2 ^ p)
    h).wr .HB_OBJ_HANDLE_HANDLE h p

theorem State.createMem_of_room (hbase : s.rd .HB_OBJ_ARG_ARG0 p % 4096 = 0) (hsize : s.rd .HB_OBJ_ARG_ARG1 p % 4096 = 0)
    (hne : s.rd .HB_OBJ_ARG_ARG1 p ≠ 0) (hend : s.rd .HB_OBJ_ARG_ARG0 p + s.rd .HB_OBJ_ARG_ARG1 p ≤ 2 ^ 48)
    (hexport : s.rd .HB_OBJ_ARG_ARG3 p = 0) (hquota : s.ownedMem p < s.rd .GLB_OBJ_QUOTA_MO p)
    (hfree : (List.range 4096).find? (fun h => s.rd .HB_MO_STATE h = 0) = some h) :
    s.createMem p = .ok (s.memCreated p h) := by
  unfold State.createMem
  dsimp only
  rw [hexport, Nat.zero_mod, State.exportOk_zero, if_neg, if_neg (by omega), hfree]
  · rfl
  · simp [hbase, hsize, hne]
    omega

/-- The state in which partition p's share of a memory object waits for the queues. -/
def State.memFreed (s : State) (p h : Nat) : State :=
  let s1 := (s.wr .HB_MO_HOLDERS (clearBit (s.rd .HB_MO_HOLDERS h) p) h).takeRecord true h p
  if clearBit (s.rd .HB_MO_HOLDERS h) p = 0 then s1.wr .HB_MO_STATE 2 h else s1

theorem State.freeMem_of_waiting (hstate : s.rd .HB_MO_STATE h = 1) (hholds : bitAt (s.rd .HB_MO_HOLDERS h) p = true)
    (hh : h < 65536) (hnone : s.hb.releases = []) (hp : p < 32)
    (hwaiting : (s.stamps p).all (s.stampPassed p) = false) :
    s.freeMem p h = .ok (s.memFreed p h) ∧ (s.memFreed p h).hb.releases = [⟨true, h, p, s.stamps p⟩] := by
  have hheld : s.SameQueues (s.wr .HB_MO_HOLDERS (clearBit (s.rd .HB_MO_HOLDERS h) p) h) :=
    (State.SameQueues.refl s).wr _ (by decide) hh
  have hrecord : s.SameQueues ((s.wr .HB_MO_HOLDERS (clearBit (s.rd .HB_MO_HOLDERS h) p) h).takeRecord true h p) :=
    (State.SameQueues.wr (u := { s.wr .HB_MO_HOLDERS (clearBit (s.rd .HB_MO_HOLDERS h) p) h with
      hb := { s.hb with releases := s.hb.releases ++
        [⟨true, h, p, (s.wr .HB_MO_HOLDERS (clearBit (s.rd .HB_MO_HOLDERS h) p) h).stamps p⟩] } }) { hheld with } _
      (by decide) hh)
  have hone : ((s.wr .HB_MO_HOLDERS (clearBit (s.rd .HB_MO_HOLDERS h) p) h).takeRecord true h p).hb.releases =
      [⟨true, h, p, s.stamps p⟩] := by
    show s.hb.releases ++ [⟨true, h, p, _⟩] = _
    rw [hnone, hheld.stamps_eq hp, List.nil_append]
  have hsame : s.SameQueues (s.memFreed p h) := by
    unfold State.memFreed
    dsimp only
    split
    · exact hrecord.wr _ (by decide) hh
    · exact hrecord
  have hreleases : (s.memFreed p h).hb.releases = [⟨true, h, p, s.stamps p⟩] := by
    unfold State.memFreed
    dsimp only
    split <;> exact hone
  refine ⟨?_, hreleases⟩
  have hpassed : (s.memFreed p h).passRecords = s.memFreed p h :=
    State.passRecords_of_one hreleases ((hsame.stampsPassed_eq hp).trans hwaiting)
  unfold State.freeMem
  dsimp only
  rw [if_neg (by simp [hstate, hholds]), if_neg (by simp [State.freeRecords, hnone])]
  exact congrArg Except.ok hpassed

end

section
variable {s : State} {p : Nat} (hp : p < 65536)
include hp

theorem noArms_objAsked (op type handle : Nat) (h : NoArms s) : NoArms (s.objAsked p op type handle) :=
  noArms_congr (fun k hk => State.rd_objAsked hp op type handle (by decide) (by omega) (by decide)) h

theorem State.ownedMem_objAsked (op type handle : Nat) : (s.objAsked p op type handle).ownedMem p = s.ownedMem p := by
  refine congrArg List.length (List.filter_congr fun k hk => ?_)
  have hk := List.mem_range.mp hk
  rw [State.rd_objAsked hp op type handle (f := .HB_MO_STATE) (by decide) (by omega) (by decide),
    State.rd_objAsked hp op type handle (f := .HB_MO_OWNER) (by decide) (by omega) (by decide)]

end

end Sys2Proof.Machine

namespace Sys2Proof.Claims

open Sys2Proof Sys2Proof.Machine

theorem releasesWaitForTheQueues : ReleasesWaitForTheQueues := by
  intro s fn p type handle hmay hhome hnone hwaiting
  have hp : p.val < 65536 := by simp
  have hasked := fun op => s.sameQueues_objAsked hp op type.toNat handle.toNat
  have hstamps : ∀ op, (s.objAsked p op type.toNat handle.toNat).stamps p = s.stamps p := fun op =>
    (hasked op).stamps_eq p.isLt
  have hwaits : ∀ op, ((s.objAsked p op type.toNat handle.toNat).stamps p).all
      ((s.objAsked p op type.toNat handle.toNat).stampPassed p) = false := fun op => by
    rw [hstamps, (hasked op).stampsPassed_eq p.isLt, hwaiting]
  refine ⟨fun howns htype hexport harms => ?destroyed, fun hstate hholds => ?freed⟩
  case destroyed =>
    have hh := State.lt_of_owns howns
    have hh' : handle.toNat < 65536 := by simp
    obtain ⟨hact, hreleases⟩ := State.destroySync_of_waiting (s := s.objAsked p 2 type.toNat handle.toNat)
      ((State.owns_objAsked hp hh _).trans howns) (by rw [State.objType_objAsked hp hh]; exact htype)
      ((State.rd_objAsked hp _ _ _ (by decide) hh' (by decide)).trans hexport) (noArms_objAsked hp _ _ _ harms) hnone p.isLt
      (hwaits 2)
    refine ⟨_, congrArg Host.Outcome.next (State.objRequest_of_ok hmay hhome hact), ?_, ?_, ?_, rfl, ?_⟩
    · exact State.rd_wr_same ..
    · have hw : 3 % 2 ^ Field.SYN_OBJ_STATE.width = 3 := rfl
      simp [State.syncDestroyed, State.takeRecord, State.rd_wr_field, hw]
    · rw [State.wr_hb, hreleases, hstamps]
    · intro w hw hobj hreg
      obtain ⟨x, -, rfl⟩ := List.mem_map.mp hw
      by_cases hx : (x.obj = handle.toNat && x.registered && x.notice.isNone) = true
      · simp [hx]
      · rw [if_neg hx] at hobj hreg ⊢
        simpa [hobj, hreg] using hx
  case freed =>
    have hh' : handle.toNat % 4096 < 65536 := by omega
    have hholders : (s.objAsked p 7 type.toNat handle.toNat).rd .HB_MO_HOLDERS (handle.toNat % 4096) =
        s.rd .HB_MO_HOLDERS (handle.toNat % 4096) := State.rd_objAsked hp _ _ _ (by decide) hh' (by decide)
    obtain ⟨hact, hreleases⟩ := State.freeMem_of_waiting (s := s.objAsked p 7 type.toNat handle.toNat)
      ((State.rd_objAsked hp _ _ _ (by decide) hh' (by decide)).trans hstate) (hholders ▸ hholds) hh' hnone p.isLt (hwaits 7)
    have hbit : bitAt (clearBit (s.rd .HB_MO_HOLDERS (handle.toNat % 4096)) p) p = false := by
      simp [bitAt_clearBit]
    refine ⟨_, congrArg Host.Outcome.next (State.objRequest_of_ok hmay hhome hact), ?_, ?_, ?_, ?_⟩
    · exact State.rd_wr_same ..
    · rw [← hbit, ← hholders]
      have hwritten := bitAt_rd_wr_same (s.objAsked p 7 type.toNat handle.toNat) (f := .HB_MO_HOLDERS)
        (clearBit ((s.objAsked p 7 type.toNat handle.toNat).rd .HB_MO_HOLDERS (handle.toNat % 4096)) p)
        (i := handle.toNat % 4096) (j := 0) (n := p) p.isLt
      rw [← hwritten]
      unfold State.memFreed
      dsimp only
      split <;> simp [State.takeRecord, State.rd_wr_field, hh']
    · rw [State.wr_hb, hreleases, hstamps]
    · unfold State.memFreed
      dsimp only
      split <;> rfl

theorem memoryObjectsAreCreatedImportedExported : MemoryObjectsAreCreatedImportedExported := by
  intro s fn p type handle h hmay hhome
  have hp : p.val < 65536 := by simp
  have hrd : ∀ (op : Nat) (f : Field) (i : Nat), f ∉ objCtrlFields → i < 65536 →
      (s.objAsked p op type.toNat handle.toNat).rd f i = s.rd f i := fun op f i hf hi =>
    State.rd_objAsked hp _ _ _ hf hi (by decide)
  have hmo : handle.toNat % 4096 < 65536 := by omega
  refine ⟨fun hbase hsize hne hend hexport hquota hfree => ?created, fun hstate hbit => ?imported,
    fun hstate hown hok => ?exported⟩
  case created =>
    have hh : h < 4096 := List.mem_range.mp (List.mem_of_find?_eq_some hfree)
    have hh' : h < 65536 := by omega
    have hact : (s.objAsked p 5 type.toNat handle.toNat).createMem p =
        .ok ((s.objAsked p 5 type.toNat handle.toNat).memCreated p h) := by
      have howned := State.ownedMem_objAsked hp (s := s) 5 type.toNat handle.toNat
      have hrd5 := hrd 5
      have hfirst : (List.range 4096).find? (fun k => (s.objAsked p 5 type.toNat handle.toNat).rd .HB_MO_STATE k = 0) =
          some h := by
        rw [← hfree]
        exact List.find?_congr fun k hk => by
          have hk := List.mem_range.mp hk
          rw [hrd 5 _ k (by decide) (by omega)]
      generalize s.objAsked p 5 type.toNat handle.toNat = a at hfirst howned hrd5 ⊢
      rw [← hrd5 _ _ (by decide) hp] at hbase hsize hne hend hexport hquota
      rw [← hrd5 .HB_OBJ_ARG_ARG1 _ (by decide) hp] at hend
      rw [← howned] at hquota
      exact State.createMem_of_room hbase hsize hne hend hexport hquota hfirst
    have harg0 := hrd 5 .HB_OBJ_ARG_ARG0 p (by decide) hp
    have harg1 := hrd 5 .HB_OBJ_ARG_ARG1 p (by decide) hp
    have harg2 := hrd 5 .HB_OBJ_ARG_ARG2 p (by decide) hp
    refine ⟨_, congrArg Host.Outcome.next (State.objRequest_of_ok hmay hhome hact), ?_⟩
    refine ⟨?_, ?_, ?_, ?_, ?_, ?_, ?_, ?_, ?_, by simp only [State.memCreated, State.objAsked, State.wrAddr, State.wr]⟩
    · exact State.rd_wr_same ..
    · have hw : h % 2 ^ Field.HB_OBJ_HANDLE_HANDLE.width = h := Nat.mod_eq_of_lt (hh.trans (by decide))
      simp [State.memCreated, State.rd_wr_field, hw]
    · have hw : 1 % 2 ^ Field.HB_MO_STATE.width = 1 := rfl
      simp only [State.memCreated, State.wrAddr]
      simp [State.rd_wr_field, hh', hw]
    · have hw : p.val % 2 ^ Field.HB_MO_OWNER.width = p := Nat.mod_eq_of_lt p.isLt
      simp [State.memCreated, State.wrAddr, State.rd_wr_field, hh', hw]
    · have hw : s.rd .HB_OBJ_ARG_ARG0 p / 2 ^ Field.HB_MO_BASE.spec.lo % 2 ^ Field.HB_MO_BASE.width *
          2 ^ Field.HB_MO_BASE.spec.lo = s.rd .HB_OBJ_ARG_ARG0 p := by
        show s.rd .HB_OBJ_ARG_ARG0 p / 2 ^ 12 % 2 ^ 36 * 2 ^ 12 = _
        omega
      simp [State.addrOf, State.memCreated, State.wrAddr, State.rd_wr_field, hh', harg0, hw]
    · have hw : s.rd .HB_OBJ_ARG_ARG1 p % 2 ^ Field.HB_MO_SIZE.width = s.rd .HB_OBJ_ARG_ARG1 p := Nat.mod_eq_of_lt (by
        show s.rd .HB_OBJ_ARG_ARG1 p < 2 ^ 64
        omega)
      simp [State.memCreated, State.wrAddr, State.rd_wr_field, hh', harg1, hw]
    · have hw : Field.HB_MO_TAG.width = 64 := rfl
      simp [State.memCreated, State.wrAddr, State.rd_wr_field, hh', harg2, hw]
    · have hw : 2 ^ p.val % 2 ^ Field.HB_MO_HOLDERS.width = 2 ^ p.val :=
        Nat.mod_eq_of_lt (Nat.pow_lt_pow_right (by decide) p.isLt)
      simp [State.memCreated, State.rd_wr_field, hh', hw]
    · simp [State.memCreated, State.rd_wr_field, hh']
  case imported =>
    have hheld := hrd 6 .HB_MO_HOLDERS _ (by decide) hmo
    have hact : (s.objAsked p 6 type.toNat handle.toNat).importMem p (handle.toNat % 4096) = .ok _ :=
      if_neg (by simp [hrd 6 .HB_MO_STATE _ (by decide) hmo, hrd 6 .HB_MO_EXPORT _ (by decide) hmo, hstate, hbit])
    refine ⟨_, congrArg Host.Outcome.next (State.objRequest_of_ok hmay hhome hact), ?_, ?_, ?_, ?_⟩
    · exact State.rd_wr_same ..
    · rw [State.rd_wr_field _ hp (by decide) hmo (by decide) (by decide), bitAt_rd_wr_same _ _ (by exact p.isLt)]
      simp [bitAt_setBit]
    · simp [State.objAsked, hmo]
    · simp only [State.objAsked, State.wr]
  case exported =>
    have harg := hrd 8 .HB_OBJ_ARG_ARG3 p (by decide) hp
    have hact : (s.objAsked p 8 type.toNat handle.toNat).exportMem p (handle.toNat % 4096) = .ok _ :=
      if_neg (by
        rw [hrd 8 .HB_MO_STATE _ (by decide) hmo, hrd 8 .HB_MO_OWNER _ (by decide) hmo, hstate, hown, harg,
          show (s.objAsked p 8 type.toNat handle.toNat).exportOk = s.exportOk from rfl, hok]
        simp)
    have hw : s.rd .HB_OBJ_ARG_ARG3 p % 2 ^ 32 % 2 ^ Field.HB_MO_EXPORT.width = s.rd .HB_OBJ_ARG_ARG3 p % 2 ^ 32 :=
      Nat.mod_mod _ _
    refine ⟨_, congrArg Host.Outcome.next (State.objRequest_of_ok hmay hhome hact), ?_, ?_, ?_, ?_⟩
    · exact State.rd_wr_same ..
    · simpa [State.rd_wr_field, hmo, harg] using hw
    · simp [State.objAsked, hmo]
    · simp only [State.objAsked, State.wr]

/-- Settles O18: a release that waits is the only record; a memory object's registers by the writes of its request. -/
theorem memoryObjectsAndReleases : Obligations.MemoryObjectsAndReleases :=
  ⟨releasesWaitForTheQueues, memoryObjectsAreCreatedImportedExported⟩

end Sys2Proof.Claims
end

