-- ==== Sys2Proof/Proofs/Values.lean ====
section
/-!
PROOF. Host writes of VALUE and the ends of waits (R281, R283, R284).
-/

namespace Sys2Proof.Machine

open Sys2Proof.Claims

section
variable {s : State}

theorem State.signal_of_noArms (harms : NoArms s) {h : Nat} (hh : h < 65536) (v : Nat) :
    s.signal h v = (s.wr .SYN_OBJ_VALUE (max (s.objValue h) v) h).evalWaits h :=
  State.setValue_of_noArms harms hh _

/-- A host write of a fence's VALUE is a SIGNAL. -/
theorem State.valueWrite_of_fence {h : Nat} (htype : s.objType h = 1) (low data : Word) :
    s.valueWrite h (some low) data = (s.clearLatch h).signal h (data.toNat * 2 ^ 32 + low.toNat) := by
  unfold State.valueWrite
  dsimp only
  rw [if_pos htype]

/-- A host write of a counter's VALUE takes the low word from the latch. -/
theorem State.valueWrite_of_counter {h : Nat} {low : Word} (htype : s.objType h = 4)
    (hlatch : storeFind s.sync.latch h = some low) (data : Word) :
    s.valueWrite h none data = (s.clearLatch h).setValue h (data.toNat * 2 ^ 32 + low.toNat) := by
  unfold State.valueWrite
  rw [hlatch]
  dsimp only
  rw [if_neg (by omega)]

/-- A new VALUE changes registers and the sync unit alone. -/
theorem State.valueWritten_frame (s : State) (h v : Nat) : ((s.clearLatch h).wr .SYN_OBJ_VALUE v h).evalWaits h =
    { s with regs := (((s.clearLatch h).wr .SYN_OBJ_VALUE v h).evalWaits h).regs
             sync := (((s.clearLatch h).wr .SYN_OBJ_VALUE v h).evalWaits h).sync } := rfl

/-! ### Waits by their numbers -/

/-- A wait that is dropped is found no more. -/
theorem State.waitBy_filter_ne (s : State) (id : Nat) : (s.setWaits (s.sync.waits.filter (fun x => x.id ≠ id))).waitBy id = none := by
  simp [State.waitBy, State.setWaits]

theorem State.id_of_waitBy {id : Nat} {w : Wait} (h : s.waitBy id = some w) : w.id = id := by
  simpa using List.find?_some h

/-- A wait that is replaced by one of the same number is found as that one. -/
theorem State.waitBy_replace {w x : Wait} (h : s.waitBy w.id = some w) (hx : x.id = w.id) :
    (s.setWaits (s.sync.waits.map (fun y => if y.id = w.id then x else y))).waitBy w.id = some x := by
  have hfind : s.sync.waits.find? (fun y => y.id = w.id) = some w := h
  have hsame : ((fun y : Wait => decide (y.id = w.id)) ∘ fun y => if y.id = w.id then x else y) = fun y => decide (y.id = w.id) := by
    funext y
    by_cases hy : y.id = w.id <;> simp [hy, hx]
  unfold State.waitBy State.setWaits
  dsimp only
  rw [List.find?_map, hsame, hfind]
  simp

/-- The end of a command's wait: it is gone and its status is the command's. -/
theorem State.endWait_cmd {w : Wait} {c : Cmd} (st : Nat) (hwho : w.who = .cmd c.id) (hc : s.cmd c.id = some c)
    (hphase : c.phase = .handed) (hnone : c.result = none) :
    (s.endWait w st).waitBy w.id = none ∧ (s.endWait w st).cmd c.id = some { c with result := some st } ∧
      s.endWait w st = { s with sync := (s.endWait w st).sync, hb := (s.endWait w st).hb } := by
  have hend : s.endWait w st = (s.setWaits (s.sync.waits.filter (fun x => x.id ≠ w.id))).setResult c.id st := by
    unfold State.endWait
    rw [hwho]
  rw [hend]
  exact ⟨s.waitBy_filter_ne w.id, State.cmd_setResult st (by exact hc) hphase hnone, rfl⟩

end

end Sys2Proof.Machine

namespace Sys2Proof.Claims

open Sys2Proof Sys2Proof.Machine

theorem hostWritesOfValue : HostWritesOfValue := by
  intro s fn obj low data hmay harms
  have hobj : obj.val < 65536 := by simp
  have harms' : NoArms (s.clearLatch obj) := harms
  have hexec : ∀ low, exec (.synValueHighWrite fn obj low data) s = .next (s.valueWrite obj low data) := fun low =>
    congrArg Host.Outcome.next (if_pos hmay)
  refine ⟨⟨_, congrArg Host.Outcome.next (if_pos hmay), ?_, rfl⟩, fun hfence => ?_, fun hcounter hlatch => ?_⟩
  · simp [storeFind_put]
  · have hwrite : s.valueWrite obj (some low) data = ((s.clearLatch obj).wr .SYN_OBJ_VALUE
        (max ((s.clearLatch obj).objValue obj) (data.toNat * 2 ^ 32 + low.toNat)) obj).evalWaits obj := by
      rw [← State.signal_of_noArms harms' hobj, State.valueWrite_of_fence hfence]
    refine ⟨_, hexec _, ?_⟩
    rw [hwrite]
    refine ⟨?_, ?_, ?_, State.valueWritten_frame ..⟩
    · exact State.rd_wr_same ..
    · simp [State.clearLatch, State.evalWaits, State.notify, State.setWaits, storeFind_erase]
    · simp [State.clearLatch]
  · have hwrite : s.valueWrite obj none data =
        ((s.clearLatch obj).wr .SYN_OBJ_VALUE (data.toNat * 2 ^ 32 + low.toNat) obj).evalWaits obj := by
      rw [← State.setValue_of_noArms harms' hobj, State.valueWrite_of_counter hcounter hlatch]
    have hword : data.toNat * 2 ^ 32 + low.toNat < 2 ^ 64 := by
      have := data.isLt
      have := low.isLt
      omega
    refine ⟨_, hexec _, ?_⟩
    rw [hwrite]
    refine ⟨?_, ?_, State.valueWritten_frame ..⟩
    · exact (State.rd_wr_same ..).trans (Nat.mod_eq_of_lt hword)
    · simp [State.clearLatch]

theorem waitsRegisterAndEnd : WaitsRegisterAndEnd := by
  intro s w c st hlive hw hwho hc hphase hnone
  refine ⟨fun hobj hreg hroom => ⟨s.setWaits (s.sync.waits.map (fun x => if x.id = w.id
      then { w with registered := true, notice := s.registerFinds w } else x)), ?_, ?_, rfl⟩, fun hnotice hplain => ⟨s.endWait w st, ?_, ?_⟩,
    fun htimeout => ⟨s.endWait w stTimeoutWait, ?_, ?_⟩⟩
  · refine congrArg Host.Outcome.next ((if_pos hlive).trans ?_)
    rw [hw]
    dsimp only
    rw [if_pos hobj]
    exact if_neg (by simp [hreg, hroom])
  · exact State.waitBy_replace hw rfl
  · refine congrArg Host.Outcome.next ((if_pos hlive).trans ?_)
    rw [hw]
    dsimp only
    rw [hnotice]
    refine if_neg ?_
    obtain h | h := hplain <;> simp [h]
  · exact State.endWait_cmd st hwho hc hphase hnone
  · refine congrArg Host.Outcome.next ((if_pos hlive).trans ?_)
    rw [hw]
    dsimp only
    rw [hwho]
    exact if_neg htimeout
  · exact State.endWait_cmd _ hwho hc hphase hnone

/-- Settles O19: VALUE by `setValue_of_noArms`, a command's wait by `endWait_cmd`. -/
theorem valuesAreWrittenAndAwaited : Obligations.ValuesAreWrittenAndAwaited := ⟨hostWritesOfValue, waitsRegisterAndEnd⟩

end Sys2Proof.Claims
end

