-- ==== Sys2Proof/Proofs/DeviceReset.lean ====
section
/-!
PROOF. The device reset (R262, R263): what every cause leaves, and what a cause during a reset does.
-/

namespace Sys2Proof.Machine

open Sys2Proof.Claims

section
variable {s : State}

/-- The fields that a reset of the chip keeps. -/
def keptNames : List Field :=
  [.GLB_DEVRESET_STATUS_STATUS, .GLB_DEVRESET_CTRL_COUNT, .GLB_DEVRESET_CTRL_MERGED, .PWR_STATUS_TRIPPED, .PWR_STATUS_WORN,
    .PWR_WEAR_SECONDS, .MEM_SAVEALL_VALID, .MEM_SAVEALL_BLOCK]

theorem mem_keptNames {x : Field × Nat × Nat} (h : x ∈ keptFields) : x.1 ∈ keptNames := by
  simp only [keptFields, List.mem_append, List.mem_cons, List.not_mem_nil, or_false, List.mem_flatMap, List.mem_range] at h
  obtain h | ⟨c, -, e, -, h⟩ := h
  · obtain rfl | rfl | rfl | rfl | rfl | rfl := h <;> decide
  · obtain rfl | rfl := h <;> simp [keptNames]

/-- A register that a reset of the chip does not keep. -/
theorem State.rd_resetChip_of_not_kept (s : State) {f : Field} {i j : Nat} (hi : i < 65536) (hj : j < 65536)
    (hf : f ∉ keptNames) : s.resetChip.rd f i j = State.reset.rd f i j := by
  rw [State.rd_resetChip s hi hj, if_neg fun h => hf (mem_keptNames h)]

/-- The chip that a device reset of status `st` leaves. -/
def State.deviceDown (s : State) (st : Nat) : State :=
  let s1 := (s.resetChip.wr .GLB_DEVRESET_STATUS_STATUS st).count .GLB_DEVRESET_CTRL_COUNT
  ({ s1 with mgc := { s1.mgc with devReset := true } }).wr .MGC_MBOX_CTRL_LOST (s.rd .MGC_MBOX_CTRL_PENDING)

theorem State.deviceReset_of_up (h : s.inReset = false) (st : Nat) : s.deviceReset st = s.deviceDown st :=
  if_neg (Bool.eq_false_iff.mp h)

theorem State.deviceReset_of_inReset (h : s.inReset = true) (st : Nat) :
    s.deviceReset st = s.count .GLB_DEVRESET_CTRL_MERGED := if_pos h

/-- A saturated count that is read back. -/
theorem State.rd_count_same (s : State) (f : Field) (k i j : Nat) :
    (s.count f k i j).rd f i j = min (2 ^ f.width - 1) (s.rd f i j + k) := by
  unfold State.count satAdd
  rw [State.rd_wr_same]
  refine Nat.mod_eq_of_lt ?_
  have := Nat.two_pow_pos f.width
  omega

@[simp] theorem regsKept_count {t : State} {l : List (Field × Nat × Nat)} {f : Field} {k i j : Nat} (hmem : (f, i, j) ∈ l)
    (hi : i < 65536) (hj : j < 65536) : RegsKept s (t.count f k i j) l ↔ RegsKept s t l := regsKept_wr hmem hi hj

theorem reset_rd_queueEn : ∀ (p : Fin 32) (q : Fin 16), State.reset.rd .HB_Q_CTRL_EN p q = 0 := by decide +kernel

theorem reset_rd_domState : ∀ n : Fin 64, State.reset.rd .PWR_DOM_STATE_STATE n = 3 := by decide +kernel

theorem State.rd_deviceDown_other (st : Nat) {f : Field} {i j : Nat} (hi : i < 65536) (hj : j < 65536) (hf : f ∉ keptNames)
    (hlost : f ≠ .MGC_MBOX_CTRL_LOST) : (s.deviceDown st).rd f i j = State.reset.rd f i j := by
  have hstatus : f ≠ .GLB_DEVRESET_STATUS_STATUS := fun e => hf (e ▸ by decide)
  have hcount : f ≠ .GLB_DEVRESET_CTRL_COUNT := fun e => hf (e ▸ by decide)
  rw [← s.rd_resetChip_of_not_kept hi hj hf]
  simp [State.deviceDown, State.count, State.rd_wr_field, hi, hj, hlost, hstatus, hcount]

theorem deviceResetTo_deviceDown {st : Nat} (hst : st < 2 ^ 32) (hpending : s.rd .MGC_MBOX_CTRL_PENDING ≤ 1)
    (hwear : s.rd .PWR_WEAR_SECONDS < 2 ^ 32) (hcount : s.rd .GLB_DEVRESET_CTRL_COUNT < 256) :
    DeviceResetTo s (s.deviceDown st) st := by
  have hkept : ∀ f : Field, (f, 0, 0) ∈ keptFields → s.resetChip.rd f = s.rd f % 2 ^ f.width := fun f hf => by
    rw [State.rd_resetChip s (by decide) (by decide), if_pos hf]
  refine ⟨?_, ?_, ?_, ?_, rfl, rfl, rfl, rfl, rfl, rfl, rfl, rfl, rfl, rfl, rfl, rfl, rfl, ?_, ?_, fun p q => ?_, fun n => ?_⟩
  · have hw : st % 2 ^ Field.GLB_DEVRESET_STATUS_STATUS.width = st := Nat.mod_eq_of_lt hst
    simp [State.deviceDown, State.count, State.rd_wr_field, hw]
  · have hread : (s.resetChip.wr .GLB_DEVRESET_STATUS_STATUS st).rd .GLB_DEVRESET_CTRL_COUNT =
        s.rd .GLB_DEVRESET_CTRL_COUNT := by
      rw [State.rd_wr_field _ (by decide) (by decide) (by decide) (by decide) (by decide), hkept _ (by decide)]
      exact Nat.mod_eq_of_lt hcount
    have hcounted := State.rd_count_same (s.resetChip.wr .GLB_DEVRESET_STATUS_STATUS st) .GLB_DEVRESET_CTRL_COUNT 1 0 0
    have hw : 2 ^ Field.GLB_DEVRESET_CTRL_COUNT.width - 1 = 255 := rfl
    rw [hread, hw] at hcounted
    simp only [State.deviceDown]
    rw [State.rd_wr_field _ (by decide) (by decide) (by decide) (by decide) (by decide)]
    rw [State.rd_mk]
    exact hcounted
  · have hw : s.rd .MGC_MBOX_CTRL_PENDING % 2 ^ Field.MGC_MBOX_CTRL_LOST.width = s.rd .MGC_MBOX_CTRL_PENDING :=
      Nat.mod_eq_of_lt (Nat.lt_succ_of_le hpending)
    simp [State.deviceDown, hw]
  · have hw : s.rd .PWR_WEAR_SECONDS % 2 ^ Field.PWR_WEAR_SECONDS.width = s.rd .PWR_WEAR_SECONDS := Nat.mod_eq_of_lt hwear
    simp [State.deviceDown, State.count, State.rd_wr_field, hkept .PWR_WEAR_SECONDS (by decide), hw]
  · simp only [State.deviceDown, State.wr_pending, State.count_pending, State.resetChip]
  · exact State.rd_deviceDown_other st (by decide) (by decide) (by decide) (by decide)
  · exact (State.rd_deviceDown_other st (by simp) (by simp) (by decide) (by decide)).trans (reset_rd_queueEn p q)
  · exact (State.rd_deviceDown_other st (by simp) (by decide) (by decide) (by decide)).trans (reset_rd_domState n)

/-- A reset of the PCIe configuration is no part of what a device reset leaves. -/
theorem deviceResetTo_pcieFlr {u : State} {st : Nat} (h : DeviceResetTo s u st) : DeviceResetTo s u.pcieFlr st := h

end

end Sys2Proof.Machine

namespace Sys2Proof.Claims

open Sys2Proof Sys2Proof.Machine

/-- Settles O20: every cause leaves `deviceDown` of its status; during a reset it only counts. -/
theorem deviceResets : Obligations.DeviceResets := by
  intro s p q check hpending hwear hcount
  have hdown : ∀ st, st < 2 ^ 32 → DeviceResetTo s (s.deviceDown st) st := fun st hst =>
    deviceResetTo_deviceDown hst hpending hwear hcount
  have hcause : ∀ {c : Bool} (st : Nat), s.inReset = false → c = true →
      (Host.Outcome.next (if c then s.deviceReset st else s) : Host.Outcome State Fault Refusal) = .next (s.deviceDown st) :=
    fun st hup hc => congrArg Host.Outcome.next ((if_pos hc).trans (State.deviceReset_of_up hup st))
  refine ⟨fun hup hlive => ⟨?_, ?_, fun hboot => ?_, fun hboot => ?_⟩, fun hup hpow => ⟨fun hd0 hrec => ?_, ?_⟩,
    fun hin hlive => ⟨s.count .GLB_DEVRESET_CTRL_MERGED, ?_, State.rd_count_same .., by simp, rfl⟩⟩
  · have hst : stDevice 1 (p.val * 256 + q.val) = 0x1F010000 + p.val * 256 + q.val := by
      simp only [stDevice, statusWord]
      omega
    exact hst ▸ ⟨_, hcause _ hup hlive, hdown _ (by omega)⟩
  · have hst : stDevice 2 check.toNat = 0x1F020000 + check.toNat := by
      simp only [stDevice, statusWord]
      omega
    exact hst ▸ ⟨_, hcause _ hup hlive, hdown _ (by omega)⟩
  · exact ⟨_, hcause 0x1F070001 hup (by simp [hlive, hboot]), hdown _ (by decide)⟩
  · exact ⟨_, hcause 0x1F070002 hup (by simp [hlive, hboot]), hdown _ (by decide)⟩
  · exact ⟨_, hcause 0x1F030000 hup (by simp [hpow, hd0, hrec]), hdown _ (by decide)⟩
  · have hexec : exec .pfFlr s = .next (s.deviceDown 0x1F040000).pcieFlr :=
      congrArg Host.Outcome.next ((if_pos hpow).trans (congrArg State.pcieFlr (State.deviceReset_of_up hup _)))
    exact ⟨_, hexec, deviceResetTo_pcieFlr (hdown _ (by decide)), rfl, rfl⟩
  · exact congrArg Host.Outcome.next ((if_pos hlive).trans (State.deviceReset_of_inReset hin _))

end Sys2Proof.Claims
end

