-- ==== Sys2Proof/Proofs/ClaimTable.lean ====
section
/-!
PROOF. Claims of pins, timers and the rest (R44, R45): a request selects resources, and takes or frees all of them.
-/

namespace Sys2Proof.Machine

open Sys2Proof.Claims

section
variable {s : State}

/-! ### The table -/

/-- A run of entries of one value in a store. -/
theorem storeFind_foldl_put {α : Type} (v : α) (rs : List Nat) (m : List (Nat × α)) (k : Nat) :
    storeFind (rs.foldl (fun m x => storePut x v m) m) k = if k ∈ rs then some v else storeFind m k := by
  induction rs generalizing m with
  | nil => simp
  | cons r rs ih =>
    rw [List.foldl_cons, ih, storeFind_put]
    by_cases hk : k ∈ rs
    · simp [hk]
    · by_cases hr : k = r <;> simp [hk, hr]

/-- The claims are in the furnish alone. -/
theorem State.heldBy_congr {t : State} (h : t.furn.claims = s.furn.claims) (rs : List Nat) (f : Claim → Bool) :
    t.heldBy rs f = s.heldBy rs f := by
  unfold State.heldBy State.claimOf
  rw [h]

/-- The claim of a resource, where the table holds one that passes the test. -/
def State.heldAt (s : State) (f : Claim → Bool) (r : Nat) : Option (Nat × Claim) :=
  (s.claimOf r).bind fun c => if f c then some (r, c) else none

theorem State.heldBy_eq (rs : List Nat) (f : Claim → Bool) : s.heldBy rs f = rs.findSome? (s.heldAt f) := by
  unfold State.heldBy State.heldAt
  congr 1
  funext r
  cases s.claimOf r <;> rfl

theorem State.heldBy_of_free {rs : List Nat} (h : ∀ r ∈ rs, s.claimOf r = none) (f : Claim → Bool) : s.heldBy rs f = none := by
  rw [State.heldBy_eq, List.findSome?_eq_none_iff]
  intro r hr
  simp [State.heldAt, h r hr]

theorem State.heldBy_of_test_false {rs : List Nat} {c : Claim} {f : Claim → Bool} (h : ∀ r ∈ rs, s.claimOf r = some c)
    (hf : f c = false) : s.heldBy rs f = none := by
  rw [State.heldBy_eq, List.findSome?_eq_none_iff]
  intro r hr
  simp [State.heldAt, h r hr, hf]

theorem State.heldBy_cons_of_test {r : Nat} {rs : List Nat} {c : Claim} {f : Claim → Bool} (h : s.claimOf r = some c)
    (hf : f c = true) : s.heldBy (r :: rs) f = some (r, c) := by
  rw [State.heldBy_eq]
  simp [State.heldAt, h, hf]

/-- A request that selects anything selects at least one resource. -/
theorem claimTargets_ne_nil {f r : Nat} {rs : List Nat} (h : claimTargets f r = some rs) : rs ≠ [] := by
  unfold claimTargets at h
  dsimp only at h
  rintro rfl
  split at h
  · exact absurd h (by simp)
  next hall =>
    split at h
    · split at h <;> simp at h
    · split at h
      · exact hall (Option.some.inj h)
      · exact absurd h (by simp)

/-! ### Requests -/

/-- The state with a request of the PF in GLB_CLAIM_CTRL. -/
def State.claimAsked (s : State) (op f r : Nat) : State :=
  ((s.wr .GLB_CLAIM_CTRL_OP op).wr .GLB_CLAIM_CTRL_FEATURE f).wr .GLB_CLAIM_CTRL_RESOURCE r

theorem State.claimAsk_pf (h : s.pfWrites = true) (op f r : Nat) (act : State → State) :
    s.claimAsk .pf op f r act = act (s.claimAsked op f r) := if_pos h

theorem State.claimAsk_mgc (hlive : s.live = true) (hboot : s.mgc.booted = true) (op f r : Nat) (act : State → State) :
    s.claimAsk .mgc op f r act = act s := if_pos (by simp [hlive, hboot])

/-- The state with resources taken by a feature for a requester. -/
def State.taken (s : State) (rs : List Nat) (c : Claim) : State :=
  { s with furn := { s.furn with claims := rs.foldl (fun m x => storePut x c m) s.furn.claims } }

theorem State.claimOf_taken (rs : List Nat) (c : Claim) (r : Nat) :
    (s.taken rs c).claimOf r = if r ∈ rs then some c else s.claimOf r := storeFind_foldl_put c rs _ r

theorem State.claimReq_of_free {f r : Nat} {rs : List Nat} (who : Requester) (hrs : claimTargets f r = some rs)
    (hfree : ∀ x ∈ rs, s.claimOf x = none) : s.claimReq who f r = (s.claimAnswer who stOk).taken rs ⟨f, whoNumber who⟩ := by
  have hst : s.claimStatus f r = stOk := by
    unfold State.claimStatus
    rw [hrs]
    dsimp only
    rw [State.heldBy_of_free hfree]
  unfold State.claimReq
  dsimp only
  rw [hst, if_pos rfl, hrs]
  rfl

theorem State.claimReq_of_held {f r : Nat} {rs : List Nat} {x : Nat × Claim} (who : Requester)
    (hrs : claimTargets f r = some rs) (hheld : s.heldBy rs (fun _ => true) = some x) :
    s.claimReq who f r = s.claimAnswer who (busyOf x) := by
  have hst : s.claimStatus f r = busyOf x := by
    unfold State.claimStatus
    rw [hrs]
    dsimp only
    rw [hheld]
  have hbusy : busyOf x ≠ stOk := by
    simp only [busyOf, stBusy, statusWord, stOk]
    omega
  unfold State.claimReq
  dsimp only
  rw [hst, if_neg hbusy]

theorem State.releaseReq_of_own {f r : Nat} {rs : List Nat} (hrs : claimTargets f r = some rs)
    (hown : ∀ x ∈ rs, s.claimOf x = some ⟨f, 1⟩) :
    s.releaseReq .pf f r = (rs.foldl State.unclaim (s.wr .GLB_CLAIM_RESULT_STATUS stOk)).stopFeature f := by
  obtain ⟨y, ys, rfl⟩ := List.exists_cons_of_ne_nil (claimTargets_ne_nil hrs)
  have hfirst : s.heldBy (y :: ys) (fun _ => true) = some (y, ⟨f, 1⟩) :=
    State.heldBy_cons_of_test (hown y (List.mem_cons_self ..)) rfl
  have hst : s.releaseStatus .pf f r = stOk := by
    unfold State.releaseStatus
    rw [hrs]
    dsimp only
    rw [State.heldBy_of_test_false hown (by simp), hfirst]
    rfl
  unfold State.releaseReq
  dsimp only
  rw [hst, if_pos rfl, hrs]
  rfl

/-! ### Released resources -/

theorem State.claimOf_unclaim (r k : Nat) : (s.unclaim r).claimOf k = if k = r then none else s.claimOf k := by
  have herase : ∀ t : State, t.furn.claims = storeErase s.furn.claims r → t.claimOf k = if k = r then none else s.claimOf k :=
    fun t ht => by
      unfold State.claimOf
      rw [ht, storeFind_erase]
  refine herase _ ?_
  unfold State.unclaim
  dsimp only
  split
  · rfl
  · split <;> rfl

theorem State.claimOf_foldl_unclaim (rs : List Nat) (t : State) (k : Nat) :
    (rs.foldl State.unclaim t).claimOf k = if k ∈ rs then none else t.claimOf k := by
  induction rs generalizing t with
  | nil => simp
  | cons r rs ih =>
    rw [List.foldl_cons, ih, State.claimOf_unclaim]
    by_cases hk : k ∈ rs
    · simp [hk]
    · by_cases hr : k = r <;> simp [hk, hr]

/-- A release keeps the registers but those of the pins and ZT2. -/
theorem State.rd_unclaim_other (r : Nat) {f : Field} (hf : f ∉ [Field.GLB_GPIO_OUT_OE, .GLB_GPIO_OUT_OUT, .GLB_ZT2_COUNT]) :
    (s.unclaim r).rd f = s.rd f := by
  simp only [List.mem_cons, List.not_mem_nil, or_false, not_or] at hf
  obtain ⟨hoe, hout, hzt⟩ := hf
  unfold State.unclaim
  dsimp only
  split
  · simp [State.rd_wr_field, hoe, hout]
  · split
    · simp [State.rd_wr_field, hzt]
    · rfl

theorem State.rd_foldl_unclaim_other (rs : List Nat) (t : State) {f : Field}
    (hf : f ∉ [Field.GLB_GPIO_OUT_OE, .GLB_GPIO_OUT_OUT, .GLB_ZT2_COUNT]) : (rs.foldl State.unclaim t).rd f = t.rd f := by
  induction rs generalizing t with
  | nil => rfl
  | cons r rs ih => rw [List.foldl_cons, ih, State.rd_unclaim_other r hf]

/-- Output enables of the pins after one release: the released pin's is clear, the others stand. -/
theorem State.bitAt_oe_unclaim (r : Nat) {k : Nat} (hk : k < 16) :
    bitAt ((s.unclaim r).rd .GLB_GPIO_OUT_OE) k = (bitAt (s.rd .GLB_GPIO_OUT_OE) k && decide (k ≠ r)) := by
  unfold State.unclaim
  dsimp only
  split
  next hr =>
    rw [State.rd_wr_field _ (by decide) (by decide) (by decide) (by decide) (by decide), bitAt_rd_wr_same _ _ (by exact hk),
      bitAt_clearBit, State.rd_mk]
  next hr =>
    have hne : k ≠ r := by omega
    split <;> simp [State.rd_wr_field, hne]

theorem State.bitAt_oe_foldl_unclaim (rs : List Nat) (t : State) {k : Nat} (hk : k < 16) :
    bitAt ((rs.foldl State.unclaim t).rd .GLB_GPIO_OUT_OE) k = (bitAt (t.rd .GLB_GPIO_OUT_OE) k && decide (k ∉ rs)) := by
  induction rs generalizing t with
  | nil => simp
  | cons r rs ih =>
    rw [List.foldl_cons, ih, State.bitAt_oe_unclaim r hk]
    by_cases hr : k = r <;> simp [hr]

theorem State.stopFeature_frame (f : Nat) : s.stopFeature f = { s with pins := (s.stopFeature f).pins } := by
  unfold State.stopFeature
  split <;> rfl

end

end Sys2Proof.Machine

namespace Sys2Proof.Claims

open Sys2Proof Sys2Proof.Machine

/-- Settles O21: what a request selects is taken whole by `claimReq_of_free` and freed whole by `releaseReq_of_own`. -/
theorem claimsTakeAllOrNone : Obligations.ClaimsTakeAllOrNone := by
  intro s feature resource rs hpf hrs
  have hask : ∀ op act, s.claimAsk .pf op feature.toNat resource.toNat act =
      act (s.claimAsked op feature.toNat resource.toNat) := fun op act => s.claimAsk_pf hpf op _ _ act
  refine ⟨fun hfree => ⟨_, congrArg Host.Outcome.next ((hask _ _).trans (State.claimReq_of_free .pf hrs hfree)), ?_, ?_, ?_⟩,
    fun hlive hboot hfree => ⟨_, congrArg Host.Outcome.next ((State.claimAsk_mgc hlive hboot ..).trans
      (State.claimReq_of_free .mgc hrs hfree)), ?_, rfl⟩,
    fun r c hheld => ⟨_, congrArg Host.Outcome.next ((hask _ _).trans (State.claimReq_of_held .pf hrs hheld)), ?_, ?_⟩,
    fun hown => ⟨_, congrArg Host.Outcome.next ((hask _ _).trans (State.releaseReq_of_own hrs hown)), ?_, ?_, ?_⟩⟩
  · exact ((s.claimAsked 1 feature.toNat resource.toNat).rd_wr_same .GLB_CLAIM_RESULT_STATUS stOk 0 0)
  · exact fun r => State.claimOf_taken rs _ r
  · simp only [State.taken, State.claimAnswer, State.claimAsked, State.wr]
  · exact fun r => State.claimOf_taken rs _ r
  · exact State.rd_wr_same ..
  · simp only [State.claimAnswer, State.claimAsked, State.wr]
  · rw [State.stopFeature_frame, State.rd_mk, State.rd_foldl_unclaim_other _ _ (by decide)]
    exact State.rd_wr_same ..
  · intro r
    rw [State.stopFeature_frame]
    exact State.claimOf_foldl_unclaim rs _ r
  · intro r hr hlt
    rw [State.stopFeature_frame, State.rd_mk, State.bitAt_oe_foldl_unclaim _ _ hlt]
    simp [hr]

end Sys2Proof.Claims
end

