-- ==== Sys2Proof/Proofs/Functions.lean ====
section
/-!
PROOF. Functions stop and start (R36, R37).
-/

namespace Sys2Proof.Machine

open Sys2Proof.Claims

section
variable {s : State} {k : Nat}

theorem funcIndex_lt {kind index : Nat} (h : funcIndex kind index = some k) : k < 39 := by
  unfold funcIndex at h
  repeat' split at h
  all_goals simp at h <;> omega

@[simp] theorem State.rd_setFunc {v i j : Nat} {f : Field} (hk : k < 65536) (hi : i < 65536) (hj : j < 65536)
    (hf : f ≠ .GLB_FUNC_STATE_STATE) : (s.setFunc k v).rd f i j = s.rd f i j :=
  State.rd_wr_field _ hk (by decide) hi hj hf

/-- What a function's state reads after it is set: the states are 0 to 5. -/
theorem State.funcState_setFunc_same {v : Nat} (hv : v < 8) : (s.setFunc k v).funcState k = v :=
  (State.rd_wr_same ..).trans (Nat.mod_eq_of_lt hv)

theorem State.funcState_setFunc_ne {v j : Nat} (hk : k < 65536) (hj : j < 65536) (h : j ≠ k) :
    (s.setFunc k v).funcState j = s.funcState j := by
  refine State.rd_wr_ne _ fun e => h ?_
  exact (Field.key_inj hj (by decide) hk (by decide) e).2.1

theorem State.funcState_wr {f : Field} {v i j : Nat} (hk : k < 65536) (hi : i < 65536) (hj : j < 65536)
    (hf : Field.GLB_FUNC_STATE_STATE ≠ f) : (s.wr f v i j).funcState k = s.funcState k :=
  State.rd_wr_field _ hi hj hk (by decide) hf

/-! ### Requests -/

/-- A request's fields in GLB_FUNC_CTRL. -/
def State.funcAsked (s : State) (op kind index : Nat) : State :=
  ((s.wr .GLB_FUNC_CTRL_OP op).wr .GLB_FUNC_CTRL_KIND kind).wr .GLB_FUNC_CTRL_INDEX index

theorem State.funcAsk_of_pfWrites (h : s.pfWrites = true) (op kind index : Nat) (act : State → State) :
    s.funcAsk op kind index act = act (s.funcAsked op kind index) := if_pos h

theorem State.funcState_funcAsked (op kind index : Nat) (hk : k < 65536) :
    (s.funcAsked op kind index).funcState k = s.funcState k := by
  unfold State.funcAsked
  rw [State.funcState_wr hk (by decide) (by decide) (by decide), State.funcState_wr hk (by decide) (by decide) (by decide),
    State.funcState_wr hk (by decide) (by decide) (by decide)]

/-- A request to a function of this chip below the ring that is not STAGED is taken. -/
theorem State.funcStatus_ok {op kind index : Nat} (h : funcIndex kind index = some k) (hk : k < 38)
    (hop : op ≠ 3 ∨ s.funcState k ≠ fnStaged) : s.funcStatus op kind index = stOk := by
  unfold State.funcStatus
  rw [h]
  dsimp only
  rw [if_neg (by simp; omega), if_neg ?_]
  simpa [imp_iff_not_or] using hop

/-- The state in which a stop of function k has begun. -/
def State.stopping (s : State) (k : Nat) (drain : Bool) : State :=
  let s1 := s.setFunc k fnStopping
  { s1 with nextId := s.nextId + 1, hb := { s.hb with stops := s.hb.stops ++ [⟨s.nextId, .func k drain, []⟩] } }

theorem State.rd_stopping (s : State) (k : Nat) (drain : Bool) (f : Field) (i j : Nat) :
    (s.stopping k drain).rd f i j = (s.setFunc k fnStopping).rd f i j := rfl

theorem State.funcState_stopping (s : State) (k : Nat) (drain : Bool) (j : Nat) :
    (s.stopping k drain).funcState j = (s.setFunc k fnStopping).funcState j := rfl

theorem State.vatsOf_congr {u : State} (hv : u.vats = s.vats) (hl : u.launches = s.launches) (p : Nat) :
    u.vatsOf p = s.vatsOf p := by
  unfold State.vatsOf State.scopeVats State.vat State.launch
  rw [hv, hl]
  rfl

theorem State.beginStop_of_running (hrun : s.funcState k = fnRunning) (hvats : s.vatsOf k = []) (drain : Bool) :
    s.beginStop k drain = s.stopping k drain := by
  have hnone : (s.stopping k drain).vatsOf k = [] := (State.vatsOf_congr rfl rfl k).trans hvats
  refine (if_neg fun h => h hrun).trans ?_
  change (if k < 32 && !drain then ((s.stopping k drain).vatsOf k).foldl (fun (s : State) n => s.preempt n k)
    (s.stopping k drain) else s.stopping k drain) = s.stopping k drain
  rw [hnone]
  exact ite_self _

theorem State.stopReq_of_running {kind index : Nat} (h : funcIndex kind index = some k) (hk : k < 38)
    (hrun : s.funcState k = fnRunning) (hvats : s.vatsOf k = []) (drain : Bool) :
    s.stopReq kind index drain = (s.wr .GLB_FUNC_RESULT_STATUS stOk).stopping k drain := by
  have hrun' : (s.wr .GLB_FUNC_RESULT_STATUS stOk).funcState k = fnRunning :=
    (State.funcState_wr (by omega) (by decide) (by decide) (by decide)).trans hrun
  unfold State.stopReq
  rw [State.funcStatus_ok h hk (.inl (by decide)), h]
  dsimp only
  rw [if_neg (by simp [hrun]), State.beginStop_of_running hrun' ((State.vatsOf_congr rfl rfl k).trans hvats),
    if_neg (by omega)]

theorem State.stopReq_of_not_running {kind index : Nat} (h : funcIndex kind index = some k) (hk : k < 38)
    (hrun : s.funcState k ≠ fnRunning) (drain : Bool) :
    s.stopReq kind index drain = s.wr .GLB_FUNC_RESULT_STATUS stOk := by
  unfold State.stopReq
  rw [State.funcStatus_ok h hk (.inl (by decide)), h]
  exact if_pos (by simp [hrun])

theorem State.startReq_of_stopped {kind index : Nat} (h : funcIndex kind index = some k) (hk : k < 38)
    (hstopped : s.funcState k = fnStopped) (h32 : k ≠ 32) (h33 : k ≠ 33) :
    s.startReq kind index = (s.wr .GLB_FUNC_RESULT_STATUS stOk).setFunc k fnStarting := by
  have hstopped' : (s.wr .GLB_FUNC_RESULT_STATUS stOk).funcState k = fnStopped :=
    (State.funcState_wr (by omega) (by decide) (by decide) (by decide)).trans hstopped
  unfold State.startReq
  rw [State.funcStatus_ok h hk (.inr (by simp [hstopped, fnStopped, fnStaged])), h]
  dsimp only
  rw [if_neg (by simp [hstopped]), if_neg (by omega)]
  unfold State.beginStart
  rw [if_pos hstopped', if_neg (by simp [h32, h33])]

/-! ### The ends -/

theorem State.answerFuncs_of_none (h : s.ring.funcs = []) : s.answerFuncs = s := by
  unfold State.answerFuncs
  rw [h]
  rfl

theorem State.endLead_of_none (h : s.cal.lead = []) (head : Nat) : s.endLead head = s := by
  unfold State.endLead
  rw [h]
  rfl

/-- The state in which function k has stopped, its mode in DRAINED. -/
def State.funcDown (s : State) (k : Nat) (drain : Bool) : State :=
  (s.setFunc k fnStopped).wr .GLB_FUNC_STATE_DRAINED (b2n drain) k

/-- Where the STOPPED of function k is raised. -/
def State.funcTarget (s : State) (k : Nat) : Nat := if k < 32 then s.driverTarget k else 32

theorem State.funcTarget_lt (s : State) (k : Nat) : s.funcTarget k < 65536 := by
  unfold State.funcTarget
  split
  · next h =>
    have := s.driverTarget_le h
    omega
  · decide

/-- The state in which STOPPED of function k is pending at a target. -/
def State.funcEnded (s : State) (k : Nat) (drain : Bool) (t : Nat) : State :=
  (s.funcDown k drain).wr .EVQ_PEND_PEND (setBit ((s.funcDown k drain).rd .EVQ_PEND_PEND t) 7) t

theorem State.funcEnded_frame (s : State) (k : Nat) (drain : Bool) (t : Nat) :
    s.funcEnded k drain t = { s with regs := (s.funcEnded k drain t).regs } := rfl

theorem State.funcState_funcEnded (s : State) (hk : k < 65536) {t : Nat} (ht : t < 65536) (drain : Bool) :
    (s.funcEnded k drain t).funcState k = fnStopped := by
  rw [State.funcEnded, State.funcState_wr hk ht (by decide) (by decide), State.funcDown,
    State.funcState_wr hk hk (by decide) (by decide)]
  exact State.funcState_setFunc_same (by decide)

theorem State.rd_drained_funcEnded (s : State) (hk : k < 65536) {t : Nat} (ht : t < 65536) (drain : Bool) :
    (s.funcEnded k drain t).rd .GLB_FUNC_STATE_DRAINED k = b2n drain := by
  rw [State.funcEnded, State.rd_wr_field _ ht (by decide) hk (by decide) (by decide), State.funcDown, State.rd_wr_same]
  cases drain <;> rfl

theorem State.kindBit_funcEnded (s : State) (k : Nat) (drain : Bool) (t : Nat) :
    kindBit ((s.funcEnded k drain t).rd .EVQ_PEND_PEND t) 8 = true :=
  (bitAt_rd_wr_same _ _ (by decide)).trans (kindBit_setBit _ (k := 8))

/-- The end of a function's stop, its event queue disabled: the state, and the mask bit of STOPPED. -/
theorem State.finishStop_func (hk : k < 39) (hlead : s.cal.lead = []) (hoff : s.rd .EVQ_CTRL_EN (s.funcTarget k) = 0)
    (hhome : k < 32 → s.homed k = true) (drain : Bool) :
    s.finishStop (.func k drain) = s.funcEnded k drain (s.funcTarget k) := by
  have hlead' : (if k = 32 || k = 33 then s.endLead (k - 32) else s) = s := by
    rw [State.endLead_of_none hlead]
    exact ite_self _
  have hoff' : (s.funcDown k drain).rd .EVQ_CTRL_EN (s.funcTarget k) = 0 := by
    have ht := s.funcTarget_lt k
    rw [State.funcDown, State.rd_wr_field _ (by omega) (by decide) ht (by decide) (by decide),
      State.rd_setFunc (by omega) ht (by decide) (by decide)]
    exact hoff
  have hraise := fun e => State.raise_of_disabled (s.funcTarget_lt k) hoff' e
  have hflr : (s.funcDown k drain).rd .GLB_FLR_STATUS_RUNNING = s.rd .GLB_FLR_STATUS_RUNNING := by
    rw [State.funcDown, State.rd_wr_field _ (by omega) (by decide) (by decide) (by decide) (by decide),
      State.rd_setFunc (by omega) (by decide) (by decide) (by decide)]
  simp only [State.finishStop, hlead']
  change (if k < 32 then (s.funcDown k drain).raisePart k _ else (s.funcDown k drain).raise 32 _) = _
  split
  · next hlt =>
    rw [State.raisePart_of_homed _ ((State.homed_congr (s := s) (u := s.funcDown k drain) rfl rfl k).trans (hhome hlt)),
      State.driverTarget_congr (s := s) (u := s.funcDown k drain) rfl rfl hflr]
    rw [show s.funcTarget k = s.driverTarget k from if_pos hlt] at hraise ⊢
    exact hraise _
  · next hge =>
    rw [show s.funcTarget k = 32 from if_neg hge] at hraise ⊢
    exact hraise _

theorem State.funcStop_cause {x : Stop} {drain : Bool} (h : s.funcStop k = some (x, drain)) : x.cause = .func k drain := by
  obtain ⟨y, -, hy⟩ := List.exists_of_findSome?_eq_some h
  split at hy
  next j d hcause =>
    split at hy
    next hj =>
      obtain ⟨rfl, rfl⟩ := Prod.mk.injEq .. ▸ Option.some.inj hy
      rw [hcause, hj]
    next => exact absurd hy (by simp)
  next => exact absurd hy (by simp)

theorem storeGet_nil {α : Type} (d : α) (n : Nat) : storeGet d [] n = d := rfl

theorem State.funcState_updateWaiting (s : State) (k : Nat) : s.updateWaiting.funcState k = s.funcState k := rfl

/-- With no vat in use, no pooled vat is asked for. -/
theorem State.poolStep_of_no_vats (h : s.vats = []) : s.poolStep = s.updateWaiting := by
  have hnone : ∀ n, (s.updateWaiting.vat n).holder = none := fun n => by
    have hvats : s.updateWaiting.vats = [] := h
    unfold State.vat
    rw [hvats]
    rfl
  unfold State.poolStep
  dsimp only
  split
  · rfl
  split
  · rfl
  · refine List.foldlRecOn (motive := fun u => u = s.updateWaiting) _ _ rfl fun u hu n _ => ?_
    subst hu
    rw [hnone]

theorem State.geoStep_of_no_passes (h : s.geo.passes = []) (p : Nat) : s.geoStep p = s := by
  unfold State.geoStep
  rw [h]
  rfl

/-- A starting function without tiles, blocks and members to tell runs. -/
theorem State.funcStarted_eq (hstarting : s.funcState k = fnStarting) (h32 : k ≠ 32) (h33 : k ≠ 33) (h38 : k ≠ 38)
    (hspan : s.spanning k = false) (hvats : s.vats = []) (hpasses : s.geo.passes = []) (hfuncs : s.ring.funcs = []) :
    s.funcStarted k = (s.setFunc k fnRunning).updateWaiting := by
  have htell : (s.setFunc k fnRunning).tellRoot k = s.setFunc k fnRunning := by
    have hspan' : (s.setFunc k fnRunning).spanning k = false := hspan
    unfold State.tellRoot
    rw [hspan']
    rfl
  unfold State.funcStarted
  rw [if_neg (by simp [hstarting, h32, h33]), if_neg h38, htell,
    State.poolStep_of_no_vats (s := s.setFunc k fnRunning) hvats,
    State.geoStep_of_no_passes (s := (s.setFunc k fnRunning).updateWaiting) hpasses,
    State.answerFuncs_of_none (s := (s.setFunc k fnRunning).updateWaiting) hfuncs]

end

end Sys2Proof.Machine

namespace Sys2Proof.Claims

open Sys2Proof Sys2Proof.Machine

theorem functionsStopAndStart : FunctionsStopAndStart := by
  intro s kind index k hpf hindex hk
  have hasked : ∀ op, (s.funcAsked op kind.toNat index.toNat).funcState k = s.funcState k := fun op =>
    State.funcState_funcAsked _ _ _ (by omega)
  have hstop : ∀ op drain, s.funcState k = fnRunning → s.vatsOf k = [] →
      ∃ u, (s.funcAsked op kind.toNat index.toNat).stopReq kind.toNat index.toNat drain = u ∧ u.funcState k = fnStopping ∧
        u.rd .GLB_FUNC_RESULT_STATUS = 0 ∧ u.hb.stops = s.hb.stops ++ [⟨s.nextId, .func k drain, []⟩] ∧ u.mem = s.mem ∧
        (∀ j < 39, j ≠ k → u.funcState j = s.funcState j) := by
    intro op drain hrun hvats
    refine ⟨_, State.stopReq_of_running hindex hk ((hasked op).trans hrun) ((State.vatsOf_congr rfl rfl k).trans hvats) drain,
      (State.funcState_stopping ..).trans (State.funcState_setFunc_same (by decide)), ?_, rfl, rfl, fun j hj hne => ?_⟩
    · rw [State.rd_stopping, State.rd_setFunc (by omega) (by decide) (by decide) (by decide)]
      exact State.rd_wr_same ..
    · rw [State.funcState_stopping, State.funcState_setFunc_ne (by omega) (by omega) hne,
        State.funcState_wr (by omega) (by decide) (by decide) (by decide), State.funcState_funcAsked _ _ _ (by omega)]
  refine ⟨fun hrun hvats => ⟨?_, ?_⟩, fun hrun => ?_, fun hstopped h32 h33 => ?_⟩
  · obtain ⟨u, hu, h⟩ := hstop 1 false hrun hvats
    exact ⟨u, congrArg Host.Outcome.next ((State.funcAsk_of_pfWrites hpf ..).trans hu), h⟩
  · obtain ⟨u, hu, h⟩ := hstop 2 true hrun hvats
    exact ⟨u, congrArg Host.Outcome.next ((State.funcAsk_of_pfWrites hpf ..).trans hu), h⟩
  · refine ⟨_, congrArg Host.Outcome.next ((State.funcAsk_of_pfWrites hpf ..).trans
      (State.stopReq_of_not_running hindex hk (fun h => hrun ((hasked 2).symm.trans h)) true)), State.rd_wr_same .., ?_, rfl⟩
    simp [State.funcAsked, RegsKept.refl]
  · refine ⟨_, congrArg Host.Outcome.next ((State.funcAsk_of_pfWrites hpf ..).trans
      (State.startReq_of_stopped hindex hk ((hasked 3).trans hstopped) h32 h33)), State.funcState_setFunc_same (by decide), ?_,
      rfl, fun j hj hne => ?_⟩
    · refine (State.rd_setFunc (by omega) (by decide) (by decide) (by decide)).trans ?_
      exact State.rd_wr_same ..
    · refine (State.funcState_setFunc_ne (by omega) (by omega) hne).trans ?_
      rw [State.funcState_wr (by omega) (by decide) (by decide) (by decide), State.funcState_funcAsked _ _ _ (by omega)]

theorem functionsReachStoppedAndRunning : FunctionsReachStoppedAndRunning := by
  intro s k x drain hlive hfuncs
  have hk := k.isLt
  refine ⟨fun hstop hquiet hlead hoff hhome => ?_, fun hstarting h32 h33 h38 hspan hvats hpasses => ?_⟩
  · let t := s.dropStops (fun y => y.id = x.id)
    have hfinish : t.finishStop (.func k drain) = t.funcEnded k drain (s.funcTarget k) :=
      State.finishStop_func (s := t) hk hlead hoff hhome drain
    have hends : s.funcStopped k = t.finishStop (.func k drain) := by
      have hnone : (t.finishStop (.func k drain)).ring.funcs = [] := by
        rw [hfinish, State.funcEnded_frame]
        exact hfuncs
      unfold State.funcStopped
      rw [hstop]
      dsimp only
      rw [if_pos hquiet, State.funcStop_cause hstop, State.answerFuncs_of_none hnone]
    have ht := s.funcTarget_lt k
    refine ⟨_, congrArg Host.Outcome.next ((if_pos hlive).trans (hends.trans hfinish)),
      t.funcState_funcEnded (by omega) ht drain, t.rd_drained_funcEnded (by omega) ht drain, t.kindBit_funcEnded .., fun y hy => ?_,
      (congrArg State.mem (t.funcEnded_frame ..)).trans rfl⟩
    have hkept : y ∈ s.hb.stops.filter (fun y => !decide (y.id = x.id)) := hy
    simpa using (List.mem_filter.mp hkept).2
  · refine ⟨_, congrArg Host.Outcome.next ((if_pos hlive).trans
      (State.funcStarted_eq hstarting h32 h33 h38 hspan hvats hpasses hfuncs)),
      (State.funcState_updateWaiting ..).trans (State.funcState_setFunc_same (by decide)), rfl, fun j hj hne =>
      (State.funcState_updateWaiting ..).trans (State.funcState_setFunc_ne (by omega) (by omega) hne)⟩

/-- Settles O24: a request sets the function's state and RESULT; a stop adds its record, and its end drops it and raises
STOPPED at a disabled queue. -/
theorem functionsStartAndStop : Obligations.FunctionsStartAndStop :=
  ⟨functionsStopAndStart, functionsReachStoppedAndRunning⟩

end Sys2Proof.Claims

end

