-- ==== Sys2Proof/Proofs/StopsEnd.lean ====
section
/-!
PROOF. The end of a fault's teardown (R291) and the reclaim of an idle partition (R287).
-/

namespace Sys2Proof.Machine

open Sys2Proof.Claims

section
variable {s : State} {p n : Nat}

/-! ### A stop's last engine -/

theorem State.dropLaunches_of_none (h : s.launches = []) (c : StopCause) : s.dropLaunches c = s := by
  have hids : s.idleLaunches c = [] := by
    unfold State.idleLaunches
    rw [h]
    rfl
  have hkeep : ∀ {α : Type} (l : List α) (f : α → Nat), l.filter (fun x => !([] : List Nat).contains (f x)) = l :=
    fun l f => List.filter_eq_self.mpr fun x _ => by simp
  unfold State.dropLaunches
  simp only [hids, hkeep]

/-- The state with other stops. -/
def State.withStops (s : State) (stops : List Stop) : State := { s with hb := { s.hb with stops } }

/-- A partition waits for the pool as before when stops of faults take the place of stops of faults. -/
theorem State.poolWaits_withStops {stops : List Stop} (hold : ∀ y ∈ s.hb.stops, ∃ q, y.cause = .fault q)
    (hnew : ∀ y ∈ stops, ∃ q, y.cause = .fault q) : (s.withStops stops).poolWaits n = s.poolWaits n := by
  have hnone : ∀ {l : List Stop}, (∀ y ∈ l, ∃ q, y.cause = .fault q) → l.any (fun y => y.cause = .func n true) = false :=
    fun h => List.any_eq_false.mpr fun y hy => by
      obtain ⟨q, hq⟩ := h y hy
      simp [hq]
  have hruns : (s.withStops stops).partRuns n = s.partRuns n := by
    unfold State.partRuns
    rw [hnone hold, State.withStops, hnone hnew]
    rfl
  unfold State.poolWaits
  rw [hruns]
  rfl

/-- A write of another field, without launches, changes nothing of which partitions wait for the pool. -/
theorem State.poolWaits_wr (hlaunches : s.launches = []) {f : Field} {v i j : Nat} (hi : i < 65536) (hj : j < 65536)
    (hn : n < 65536) (hf : f ∉ [Field.SCH_FAULT_CTRL_FAULTED, .HB_RECLAIM_RUNNING, .GLB_FUNC_STATE_STATE]) :
    (s.wr f v i j).poolWaits n = s.poolWaits n := by
  have hrd : ∀ g ∈ [Field.SCH_FAULT_CTRL_FAULTED, .HB_RECLAIM_RUNNING, .GLB_FUNC_STATE_STATE],
      (s.wr f v i j).rd g n = s.rd g n := fun g hg =>
    State.rd_wr_field _ hi hj hn (by decide) fun e => hf (e ▸ hg)
  have hruns : (s.wr f v i j).partRuns n = s.partRuns n := by
    unfold State.partRuns State.funcState
    rw [hrd _ (by simp), hrd _ (by simp), hrd _ (by simp)]
    rfl
  unfold State.poolWaits
  rw [hruns]
  simp only [State.wr_launches, hlaunches, List.any_nil]
  rfl

/-- With no partition that waits for the pool, nothing is asked for. -/
theorem State.poolStep_of_none (hwaiting : s.sched.waiting = []) (h : ∀ n < 32, s.poolWaits n = false) : s.poolStep = s := by
  have hnew : (List.range 32).filter (fun p => s.poolWaits p && !([] : List Nat).contains p) = [] :=
    List.filter_eq_nil_iff.mpr fun n hn => by simp [h n (List.mem_range.mp hn)]
  have hupdate : s.updateWaiting = s := by
    unfold State.updateWaiting
    simp only [hwaiting, List.filter_nil, List.nil_append, hnew]
    rw [← hwaiting]
  unfold State.poolStep
  simp only [hupdate, hwaiting, List.foldl_nil, if_true, ite_self]

/-- COPY's acknowledgement of a fault's stop takes it off the list. -/
theorem State.stopAck_copy {x : Stop} (hstops : s.hb.stops = [x]) (hcause : x.cause = .fault p)
    (hwait : x.waiting.contains .copy = true) : s.stopAck x.id .copy = (s.ackStop x.id .copy).poolStep := by
  have hfind : s.hb.stops.find? (fun y => y.id = x.id) = some x := by simp [hstops]
  have hstop : s.stopEngine x.cause .copy = s := by
    rw [hcause]
    rfl
  unfold State.stopAck
  rw [hfind]
  dsimp only
  rw [if_pos (by rw [hwait]; rfl), hstop]

theorem State.ackStop_of_more {x : Stop} {e : EngineUnit} (hstops : s.hb.stops = [x])
    (hleft : x.waiting.filter (fun y => y ≠ e) ≠ []) :
    s.ackStop x.id e = s.withStops [{ x with waiting := x.waiting.filter (fun y => y ≠ e) }] := by
  have hfind : s.hb.stops.find? (fun y => y.id = x.id) = some x := by simp [hstops]
  unfold State.ackStop
  rw [hfind]
  dsimp only
  rw [if_neg hleft, hstops]
  simp [State.withStops]

theorem State.finishFault_of_homed (hlaunches : s.launches = []) (hhome : s.homed p = true) (hp : p < 65536)
    (hauto : s.rd .SCH_FAULT_CTRL_AUTO p = 0) : s.finishFault p = s.wr .SCH_FAULT_CTRL_STOPPED 1 p := by
  have hauto' : (s.wr .SCH_FAULT_CTRL_STOPPED 1 p).rd .SCH_FAULT_CTRL_AUTO p = 0 := by
    rw [State.rd_wr_field _ hp (by decide) hp (by decide) (by decide)]
    exact hauto
  unfold State.finishFault
  rw [State.dropLaunches_of_none hlaunches]
  simp [hhome, hauto']

theorem State.ackStop_of_last {x : Stop} {e : EngineUnit} (hstops : s.hb.stops = [x]) (hcause : x.cause = .fault p)
    (hleft : x.waiting.filter (fun y => y ≠ e) = []) (hfuncs : s.ring.funcs = []) (hlaunches : s.launches = [])
    (hhome : s.homed p = true) (hp : p < 65536) (hauto : s.rd .SCH_FAULT_CTRL_AUTO p = 0) :
    s.ackStop x.id e = (s.withStops []).wr .SCH_FAULT_CTRL_STOPPED 1 p := by
  have hfind : s.hb.stops.find? (fun y => y.id = x.id) = some x := by simp [hstops]
  have hdrop : s.dropStops (fun y => y.id = x.id) = s.withStops [] := by simp [State.dropStops, State.withStops, hstops]
  have hfinish : (s.withStops []).finishStop (.fault p) = (s.withStops []).wr .SCH_FAULT_CTRL_STOPPED 1 p :=
    State.finishFault_of_homed (s := s.withStops []) hlaunches hhome hp hauto
  unfold State.ackStop
  rw [hfind]
  dsimp only
  rw [if_pos hleft, hdrop, hcause, hfinish, State.answerFuncs_of_none (s := (s.withStops []).wr .SCH_FAULT_CTRL_STOPPED 1 p)
    hfuncs]

/-! ### The reclaim's registers -/

/-- The end of an idle partition's reclaim is its last register writes and its record. -/
theorem State.IdlePart.finishReclaim_clear (hidle : s.IdlePart p) (hp : p < 65536) :
    ∃ t, s.finishReclaim p = (t.clearReclaim p).reclaimRecord p ∧
      s.AgreesBut [.HB_Q_CTRL_DESTROYING, .XLT_ROOT_EN, .XLT_MIG_USED, .EVQ_READ_INDEX, .EVQ_CTRL_OVF] t ∧
      t.rd .XLT_ROOT_EN p = 0 := by
  have hj : 0 < 65536 := by decide
  have hqueues := hidle.agrees_finishQueues hp
  have hidle1 := hqueues.idlePart hidle (by decide) (by decide)
  have hlaunches := hidle1.agrees_dropLaunches (.reclaim p)
  have hidle2 := hlaunches.idlePart hidle1 (by decide) (by decide)
  obtain ⟨htranslations, hroot⟩ := hidle2.agrees_dropTranslations hp
  have hidle3 := htranslations.idlePart hidle2 (by decide) (by decide)
  have hforget := hidle3.agrees_forgetPart p
  have hevents := State.agrees_reclaimEvents
    ((((s.finishQueues p).dropLaunches (.reclaim p)).dropTranslations p).forgetPart p) hp
  rw [State.finishReclaim_eq, hidle3.reclaimObjs_eq, hidle3.emptySlots_eq]
  refine ⟨_, rfl, (((hqueues.trans hlaunches).trans htranslations).trans hforget).trans hevents, ?_⟩
  rw [hevents.rd _ (by decide) p 0 hp hj, hforget.rd _ (by decide) p 0 hp hj, hroot]

/-- A reclaim that ends clears the partition's fault state. -/
theorem State.rd_clearReclaim (s : State) (hp : p < 65536) {f : Field}
    (hf : f ∈ [Field.HB_RECLAIM_RUNNING, .SCH_FAULT_CTRL_FAULTED, .SCH_FAULT_CTRL_STOPPED]) :
    (s.clearReclaim p).rd f p = 0 := by
  simp only [List.mem_cons, List.not_mem_nil, or_false] at hf
  unfold State.clearReclaim
  obtain rfl | rfl | rfl := hf <;> simp [State.rd_wr_field, hp]

/-- Outside an FLR the record of a reclaim, at a disabled queue, is RECLAIMED's mask bit. -/
theorem State.reclaimRecord_of_no_flr (hflr : s.rd .GLB_FLR_STATUS_RUNNING = 0) (hoff : s.rd .EVQ_CTRL_EN 32 = 0) :
    s.reclaimRecord p = s.wr .EVQ_PEND_PEND (setBit (s.rd .EVQ_PEND_PEND 32) 5) 32 := by
  unfold State.reclaimRecord
  rw [hflr, if_neg (by simp [bitAt])]
  exact State.raise_of_disabled (by decide) hoff _

/-- The queues of the other partitions keep their EN. -/
theorem State.rd_en_stopQueues_ne (s : State) {p' q : Nat} (hp : p < 65536) (hp' : p' < 65536) (hq : q < 65536) (hne : p' ≠ p) :
    (s.stopQueues p).rd .HB_Q_CTRL_EN p' q = s.rd .HB_Q_CTRL_EN p' q := by
  refine List.foldlRecOn (motive := fun (u : State) => u.rd .HB_Q_CTRL_EN p' q = s.rd .HB_Q_CTRL_EN p' q) _ _ rfl fun u hu k hk => ?_
  have hk16 : k < 16 := State.lt_of_mem_liveQueues hk
  rw [State.rd_wr_field _ hp (by omega) hp' hq (by decide), State.rd_wr_ne _ fun e => hne ?_]
  · exact hu
  · exact (Field.key_inj hp' hq hp (by omega) e).2.1

end

end Sys2Proof.Machine

namespace Sys2Proof.Claims

open Sys2Proof Sys2Proof.Machine

theorem stopsEndWithTheLastEngine : StopsEndWithTheLastEngine := by
  intro s p x hlive hstops hcause hwait hwaiting hpool
  have hp : p.val < 65536 := by omega
  have hexec : exec (.engineStopAck x.id .copy) s = .next ((s.ackStop x.id .copy).poolStep) :=
    congrArg Host.Outcome.next ((if_pos hlive).trans (State.stopAck_copy hstops hcause hwait))
  have hold : ∀ y ∈ s.hb.stops, ∃ q, y.cause = .fault q := by simp [hstops, hcause]
  refine ⟨fun hleft hfuncs hhome hauto hlaunches => ?_, fun hleft => ?_⟩
  · have hack := State.ackStop_of_last hstops hcause hleft hfuncs hlaunches hhome hp hauto
    have hnone : ∀ n < 32, ((s.withStops []).wr .SCH_FAULT_CTRL_STOPPED 1 p).poolWaits n = false := fun n hn => by
      rw [State.poolWaits_wr (s := s.withStops []) hlaunches hp (by decide) (by omega) (by decide),
        State.poolWaits_withStops hold (by simp)]
      exact hpool n
    rw [hack, State.poolStep_of_none (s := (s.withStops []).wr .SCH_FAULT_CTRL_STOPPED 1 p) hwaiting hnone] at hexec
    exact ⟨_, hexec, rfl, State.rd_wr_same .., rfl, by simp [hp, State.withStops, RegsKept.refl]⟩
  · have hnone : ∀ n < 32, (s.withStops [{ x with waiting := x.waiting.filter (fun y => y ≠ EngineUnit.copy) }]).poolWaits n =
        false := fun n _ => by
      rw [State.poolWaits_withStops hold (by simp [hcause])]
      exact hpool n
    rw [State.ackStop_of_more hstops hleft, 
      State.poolStep_of_none (s := s.withStops [_]) hwaiting hnone] at hexec
    exact ⟨_, hexec, rfl, rfl, rfl⟩

theorem idlePartitionIsReclaimed : IdlePartitionIsReclaimed := by
  intro s fn p hmay hen hnone hhb hlaunches hpasses hvats hcodec hsync hxlt hobjs hmo hspan hvf hflr hoff
  have hp : p.val < 65536 := by omega
  have hidle : s.IdlePart p := ⟨hspan, hhb, hlaunches, hpasses, hvats, hcodec, hsync, hxlt, hobjs, hmo⟩
  have hbegin := s.agrees_beginReclaim hp
  have hstop := (s.beginReclaim p).agrees_stopQueues hp
  have hidle1 := (hbegin.trans hstop).idlePart hidle (by decide) (by decide)
  obtain ⟨t, hfinish, hagrees, hroot⟩ := hidle1.finishReclaim_clear hp
  obtain ⟨hclear, -⟩ := t.agrees_clearReclaim hp
  have hall := (hbegin.trans hstop).trans (hagrees.trans hclear)
  have hflr' := (hall.rd .GLB_FLR_STATUS_RUNNING (by decide) 0 0 (by decide) (by decide)).trans hflr
  have hoff' := (hall.rd .EVQ_CTRL_EN (by decide) 32 0 (by decide) (by decide)).trans hoff
  have hexec : exec (.reclaim fn p) s = .next ((t.clearReclaim p).wr .EVQ_PEND_PEND
      (setBit ((t.clearReclaim p).rd .EVQ_PEND_PEND 32) 5) 32) :=
    congrArg Host.Outcome.next ((if_pos hmay).trans (((hidle.startReclaim_eq hp hnone).trans hfinish).trans
      (State.reclaimRecord_of_no_flr hflr' hoff')))
  have hread : ∀ {f : Field} {i j : Nat}, i < 65536 → j < 65536 → f ≠ .EVQ_PEND_PEND →
      ((t.clearReclaim p).wr .EVQ_PEND_PEND (setBit ((t.clearReclaim p).rd .EVQ_PEND_PEND 32) 5) 32).rd f i j =
        (t.clearReclaim p).rd f i j := fun hi hj hf => State.rd_wr_field _ (by decide) (by decide) hi hj hf
  have hqueues : ∀ (p' : Fin 32) (q : Fin 16), (t.clearReclaim p).rd .HB_Q_CTRL_EN p' q =
      ((s.beginReclaim p).stopQueues p).rd .HB_Q_CTRL_EN p' q := fun p' q => by
    rw [hclear.rd _ (by decide) p' q (by omega) (by omega), hagrees.rd _ (by decide) p' q (by omega) (by omega)]
  have hbegun : ∀ (p' : Fin 32) (q : Fin 16), (s.beginReclaim p).rd .HB_Q_CTRL_EN p' q = s.rd .HB_Q_CTRL_EN p' q :=
    fun p' q => hbegin.rd _ (by decide) p' q (by omega) (by omega)
  refine ⟨_, hexec, ?_, fun q => ?_, ?_, ?_, ?_, (bitAt_rd_wr_same _ _ (by decide)).trans (kindBit_setBit _ (k := 6)), ?_,
    fun p' hne q => ?_⟩
  · rw [hread hp (by decide) (by decide), State.rd_clearReclaim _ hp (by simp)]
  · rw [hread hp (by omega) (by decide), hqueues]
    exact State.rd_en_stopQueues _ hp q.isLt ((hbegun p q).trans_le (hen q))
  · rw [hread hp (by decide) (by decide), State.rd_clearReclaim _ hp (by simp)]
  · rw [hread hp (by decide) (by decide), State.rd_clearReclaim _ hp (by simp)]
  · rw [hread hp (by decide) (by decide), hclear.rd _ (by decide) p 0 hp (by decide), hroot]
  · exact (State.wr_mem ..).trans hall.mem
  · rw [hread (by omega) (by omega) (by decide), hqueues,
      State.rd_en_stopQueues_ne _ hp (by omega) (by omega) fun e => hne (Fin.ext e), hbegun]

/-- Settles O23: a fault's last engine leaves STOPPED and no stop; an idle partition's reclaim runs to its record at once. -/
theorem stopsAndReclaimsEnd : Obligations.StopsAndReclaimsEnd := ⟨stopsEndWithTheLastEngine, idlePartitionIsReclaimed⟩

end Sys2Proof.Claims

end

