-- ==== Sys2Proof/Proofs/FurnishRefuted.lean ====
section
/-!
PROOF. A full furnish whose GENERATION is below the floor of the settings is refused (R31 step 4): bytes that pass every check
but that one refute the statement that the chip takes them.
-/

namespace Sys2Proof.Machine

section

/-- A furnish that is in L2 at the load address, up to the end of the DRAM, is what a load reads. -/
theorem State.loadSource_of_l2 {s : State} {xs : List Byte} {key n : Nat} (haddr : s.addrOf .GLB_LOAD_ADDR_ADDR = 32 * key)
    (hlocal : 32 * key / 2 ^ 44 % 16 = 0) (havail : s.loadAvail (32 * key) = 32 * n) (hn : 2 ≤ n) (hlen : xs.length = 32 * n)
    (hen : s.rd .L2_CTRL_EN = 1) (hl2 : s.mem.l2 = (List.range n).map (fun i => (key + i, sectorAt xs i))) :
    s.loadSource = .ok xs := by
  have hbytes : s.physBytes (32 * key) (32 * n) = xs := by
    refine physBytes_hits _ _ _ _ hlen fun j hj => ?_
    unfold State.l2Hit sectorOf
    rw [if_pos hen, Nat.mul_div_cancel_left _ (by decide), hl2]
    exact storeFind_map_range _ _ _ _ hj
  unfold State.loadSource
  simp only [haddr, hlocal, havail, State.loadBytes, hbytes, ne_eq, not_true, if_false]
  exact if_neg (by omega)

/-- A furnish that passes every check with a floor of 0 fails the check of its GENERATION with a higher one. -/
theorem State.readFurnish_of_old {s : State} {bs : List Byte} {avail floor : Nat} {recs : List FRec}
    (h : s.readFurnish bs avail 0 = .ok recs) (hold : furnGen (bs.take (furnLength bs)) < floor) :
    s.readFurnish bs avail floor = .error (furnErr 5 0) := by
  unfold State.readFurnish at h ⊢
  split at h
  next => exact absurd h (by simp)
  next =>
    dsimp only at h ⊢
    split at h
    next => exact absurd h (by simp)
    next => exact if_pos hold

theorem State.rd_locked_loadFailed (s : State) (e : LoadErr) :
    (s.loadFailed e).rd .GLB_FURNISH_STATUS_LOCKED = s.rd .GLB_FURNISH_STATUS_LOCKED := by
  simp [State.loadFailed, State.rd_wr_field]

/-- A full load of an old furnish leaves the chip unlocked. -/
theorem State.fullLoad_of_old {s : State} {bs : List Byte} {recs : List FRec} (hpending : s.rd .GLB_LOAD_CTRL_PENDING = 0)
    (hlocked : s.rd .GLB_FURNISH_STATUS_LOCKED = 0) (hsource : s.loadSource = .ok bs)
    (hread : s.readFurnish bs bs.length 0 = .ok recs) (hold : furnGen (bs.take (furnLength bs)) < s.settingsCore.2) :
    s.fullLoad.rd .GLB_FURNISH_STATUS_LOCKED = 0 := by
  unfold State.fullLoad
  rw [if_neg (by simp [hpending]), if_neg (by simp [hlocked]), hsource]
  dsimp only
  rw [State.readFurnish_of_old hread hold]
  exact (State.rd_locked_loadFailed ..).trans hlocked

/-! ### The counterexample -/

/-- A key: a modulus of 4,096 ones and the exponent 1, under which a signature is the encoded message itself. -/
def onesKey : List Byte := List.replicate 512 0xFF ++ toBe 4 1

/-- The digest of the key, as a fuse slot holds it. -/
def onesDigest : Nat :=
  0xe813b11ac2cca0d934fb3551c1d9858e1e08bffa8b3566951f38b10b7343c3b6a784fc41de6691f2ab24a9e31cd4437ca9a2fc0a25ba2e3bb9d6f5c4a047f4a2

/-- The furnish's encoded message (EMSA-PSS with a salt of 64 zero bytes). -/
def onesSig : List Byte :=
  toBe 512 (List.foldl (fun n d => n * 2 ^ 512 + d) 0
    [0x3e1e8632cb6e7fa1e347f20de0a7a02e53a0f507b7fca3f2807968f4fda43f60a3acbfab2196a3d28343067a0e52f202173778becb1bb456ad820125b9a942c5,
      0x6a6b634adf2c4af8412bdee3015fa8c0272d8423ed71cb8fe78c52cee8f441d3162a3e6acd01beb853bc058af56ac7d500ec799d9c9558abb55a676bbb9ea002,
      0x4e0bd2523861ead37cd697397420a3bd106f107966a29d9e095a609b059406e63313e6160f9031a1aad4c3a384d078192514db73ff1deff5dea21532b8e3bb34,
      0x3f94489be2529b6bb9f47e4be5ed824709c9994c06f87b0822898516d9cef7bd531aa9df14c255958f17c6c099efd9bf472377cbc3780bae8362db843d46a3f7,
      0xf5ff26d4a5d6217b23e895adf60c1c883c65915227c331dea8da2f208967be0a7fc04d4c95bf3a2ca772ab5f0c6f10f88e4c3973b9bf5bcc5f03b2ceb5b8d39d,
      0xa5152c736359d23d207bb2eefea372fb72beb42378fb9971d26ecdfba22458eb2f511f7dd1838f89f03ec516b863a04f03888e91b6a5f1f8929749553f7c6ed5,
      0x007c03b156831bc1869f1226f2f993b24bf35be98f50bf1e9b3e058711d43a578779ecde78e9b7ff8cf7b76f7a964efc6b1af7e4a3950856df6817c522a50203,
      0x894af7cc33481c087499ad11c93d944a44c70def733077d3e69ef3d228b00e68e82481e8c722c95404fbc4c4cb85bc0d2d7d7e885fb0b1037b1ddde1386040bc])

/-- The one record: a ring of one chip, this one its master. -/
def loneRing : FRec := ⟨1, 0, [1, 0, 0, 0, 0, 0, 0, 0]⟩

/-- A signed furnish of GENERATION 1, the lone ring in it, and zeros up to the next 128 bytes. -/
def oldFurnish : List Byte :=
  toLe 4 0x48534E46 ++ [0, 1] ++ toLe 2 0 ++ toLe 4 1120 ++ toLe 2 2 ++ toLe 2 0 ++ toLe 8 1 ++ toLe 8 0 ++
    List.replicate 16 0 ++ List.replicate 16 0xFF ++
    (toLe 2 1 ++ toLe 2 16 ++ toLe 4 0 ++ loneRing.body) ++
    (toLe 2 0x7FFF ++ toLe 2 1040 ++ toLe 4 0 ++ onesKey ++ toLe 4 0 ++ onesSig) ++ List.replicate 32 0

/-- A chip that runs, the furnish in L2 at the end of its DRAM, whose settings ask for GENERATION 2 at least. -/
def flooredChip : State :=
  let s := (State.reset.wr .MEM_DRAM_SIZE_BYTES (0x100000 + 1152)).wrAddr .GLB_LOAD_ADDR_ADDR 0x100000
  { s with
    mem := { s.mem with l2 := (List.range 36).map (fun i => (0x8000 + i, sectorAt oldFurnish i)) }
    mgc := { s.mgc with
      booted := true
      fuses := { s.mgc.fuses with fnsKeys := [onesDigest] }
      settings := [⟨0, 1, 0, false, 0, 2, []⟩] } }

theorem length_oldFurnish : oldFurnish.length = 1152 := by decide +kernel

/-- The chip once the request stands in LOAD_CTRL. -/
def flooredAsked : State := flooredChip.wr .GLB_LOAD_CTRL_KIND 0

theorem flooredChip_runs : flooredChip.pfWrites = true ∧ flooredChip.rd .GLB_LOAD_CTRL_PENDING = 0 ∧
    flooredChip.rd .GLB_FURNISH_STATUS_LOCKED = 0 := by decide +kernel

theorem flooredAsked_runs : flooredAsked.rd .GLB_LOAD_CTRL_PENDING = 0 ∧ flooredAsked.rd .GLB_FURNISH_STATUS_LOCKED = 0 ∧
    furnGen (oldFurnish.take (furnLength oldFurnish)) < flooredAsked.settingsCore.2 := by decide +kernel

theorem flooredChip_reads :
    (flooredChip.readFurnish oldFurnish oldFurnish.length 0).toOption = some [loneRing] := by decide +kernel

/-- Checking a furnish reads the fuses, the pins and the size of the DRAM. -/
theorem State.readFurnish_congr {s u : State} (hpins : u.pins = s.pins) (hfuses : u.mgc.fuses = s.mgc.fuses)
    (hdram : u.dramSize = s.dramSize) (bs : List Byte) (avail floor : Nat) :
    u.readFurnish bs avail floor = s.readFurnish bs avail floor := by
  unfold State.readFurnish State.pos
  rw [hpins, hfuses, hdram]

theorem flooredAsked_reads : flooredAsked.readFurnish oldFurnish oldFurnish.length 0 =
    flooredChip.readFurnish oldFurnish oldFurnish.length 0 :=
  State.readFurnish_congr (s := flooredChip) (u := flooredAsked) rfl rfl
    (State.rd_wr_field flooredChip (by decide) (by decide) (by decide) (by decide) (by decide)) _ _ _

theorem flooredChip_address : ∀ s ∈ [flooredChip, flooredAsked], s.addrOf .GLB_LOAD_ADDR_ADDR = 32 * 0x8000 ∧
    s.loadAvail (32 * 0x8000) = 32 * 36 ∧ s.rd .L2_CTRL_EN = 1 := by decide +kernel

theorem flooredChip_source {s : State} (hs : s ∈ [flooredChip, flooredAsked])
    (hl2 : s.mem.l2 = (List.range 36).map (fun i => (0x8000 + i, sectorAt oldFurnish i))) : s.loadSource = .ok oldFurnish := by
  obtain ⟨haddr, havail, hen⟩ := flooredChip_address s hs
  exact State.loadSource_of_l2 haddr (by decide) havail (by decide) length_oldFurnish hen hl2

end

end Sys2Proof.Machine

namespace Sys2Proof.Claims

open Sys2Proof Sys2Proof.Machine

/-- Refutes O22: its first clause checks the bytes with a floor of GENERATION 0, but a full load takes the floor of the settings
(R31 step 4); on `flooredChip` the bytes pass, the load fails, and the chip stays unlocked. -/
theorem not_furnishLoads : ¬ Obligations.FurnishLoads := by
  intro h
  obtain ⟨hpf, hpending, hlocked⟩ := flooredChip_runs
  obtain ⟨hpending', hlocked', hold⟩ := flooredAsked_runs
  cases hread : flooredChip.readFurnish oldFurnish oldFurnish.length 0 with
  | error e =>
    have hreads := flooredChip_reads
    rw [hread] at hreads
    exact absurd hreads (by simp [Except.toOption])
  | ok recs =>
    obtain ⟨hfull, -⟩ := h flooredChip oldFurnish recs ⟨[], [], false⟩ hpf hpending
    obtain ⟨u, hu, htaken, -⟩ := hfull hlocked (flooredChip_source (by simp) rfl) hread
    have hexec : exec .fullLoad flooredChip = .next flooredAsked.fullLoad := congrArg Host.Outcome.next (if_pos hpf)
    have hout : u = flooredAsked.fullLoad := (Host.Outcome.next.inj (hexec.symm.trans hu)).symm
    have hstays := State.fullLoad_of_old hpending' hlocked' (flooredChip_source (by simp) rfl)
      (flooredAsked_reads.trans hread) hold
    rw [hout, hstays] at htaken
    exact absurd htaken (by decide)

end Sys2Proof.Claims

end

