-- ==== Sys2Proof/Proofs/MemoryInstructions.lean ====
section
/-!
PROOF. What the memory instructions have in common (R111 to R115): an access keeps the units that hold work, and an instruction
that is done puts its quire back.
-/

namespace Sys2Proof.Machine

section
variable {s : State}

/-! ### What an access to memory keeps -/

theorem State.vRead_keeps (s : State) (asker : Asker) (who : Owner) (p va n : Nat) :
    WorkKept s (s.vRead asker who p va n).1 := ((Keeps.refl True s).vRead).work trivial

theorem State.vWrite_keeps (s : State) (asker : Asker) (who : Owner) (p va : Nat) (bs : List Byte) :
    WorkKept s (s.vWrite asker who p va bs).1 := ((Keeps.refl True s).vWrite).work trivial

theorem State.walk_keeps (s : State) (who : Asker) (p va : Nat) : WorkKept s (s.walk who p va).1 :=
  ((Keeps.refl True s).walk).work trivial

theorem State.l2ReadSectors_keeps (s : State) (who : Asker) (pol : CachePolicy) (n pa : Nat) :
    WorkKept s (s.l2ReadSectors who pol n pa).1 := ((Keeps.refl True s).l2ReadSectors).work trivial

/-- The vat, by the list of vats. -/
theorem State.vat_congr {u : State} (h : u.vats = s.vats) (n : Nat) : u.vat n = s.vat n := by
  unfold State.vat
  rw [h]

/-! ### L1 lines and what a prefetch leaves -/

/-- What a prefetch leaves as it was. -/
structure PrefetchKept (s u : State) : Prop where
  launches : u.launches = s.launches
  hb : u.hb = s.hb
  sync : u.sync = s.sync
  preempt : ∀ n, (u.vat n).preempt = (s.vat n).preempt

theorem PrefetchKept.refl (s : State) : PrefetchKept s s := ⟨rfl, rfl, rfl, fun _ => rfl⟩

theorem PrefetchKept.trans {t u : State} (h : PrefetchKept s t) (k : PrefetchKept t u) : PrefetchKept s u :=
  ⟨k.launches.trans h.launches, k.hb.trans h.hb, k.sync.trans h.sync, fun n => (k.preempt n).trans (h.preempt n)⟩

theorem WorkKept.prefetchKept {u : State} (h : WorkKept s u) : PrefetchKept s u :=
  ⟨h.launches, h.hb, h.sync, fun n => congrArg Vat.preempt (State.vat_congr h.vats n)⟩

theorem PrefetchKept.foldl {α : Type} {f : State → α → State} (hf : ∀ s x, PrefetchKept s (f s x)) (l : List α) (s : State) :
    PrefetchKept s (l.foldl f s) :=
  List.foldlRecOn l f (.refl s) fun t ht x _ => ht.trans (hf t x)

theorem prefetchKept_setVat {n : Nat} {v : Vat} (h : v.preempt = (s.vat n).preempt) : PrefetchKept s (s.setVat n v) := by
  refine ⟨rfl, rfl, rfl, fun m => ?_⟩
  by_cases e : m = n
  · subst e
    rw [State.vat_setVat_same, h]
  · rw [State.vat_setVat_ne _ _ e]

theorem prefetchKept_l1Fill (s : State) (vat pa : Nat) : PrefetchKept s (s.l1Fill vat pa) := by
  refine PrefetchKept.foldl (fun t o => ?_) _ s
  split
  · exact prefetchKept_setVat rfl
  · exact .refl t

theorem BCtx.prefetchKept_prefetchOne (c : BCtx) (s : State) (lane : Nat) : PrefetchKept s (c.prefetchOne s lane) := by
  have hwalk := (s.walk_keeps (vatAsker c.vat c.l.p) c.l.p (c.addr lane)).prefetchKept
  unfold BCtx.prefetchOne
  dsimp only
  split
  · exact .refl s
  · split
    next s1 x hx =>
      rw [hx] at hwalk
      split
      · exact .refl s
      · have hread := fun pa =>
          hwalk.trans (s1.l2ReadSectors_keeps (vatAsker c.vat c.l.p) (policyOf x.cache) 4 pa).prefetchKept
        split
        · exact (hread _).trans (prefetchKept_l1Fill ..)
        · exact hread _
    next => exact .refl s

end

end Sys2Proof.Machine

namespace Sys2Proof.Claims

open Sys2Proof Sys2Proof.Machine

section
variable {s u : State} {vat slot : Fin 64} {op : Nat} {c : BCtx} {cmd : Instr} {q : Quire}

theorem Issues.vat_lt (h : Issues s vat slot op c) : c.vat < 65536 := by
  have := vat.isLt
  have := h.place.1
  omega

/-- Counting an instruction keeps the units apart from the vats. -/
theorem launches_counted (s : State) (c : BCtx) : (Counted s c).launches = s.launches := by rw [counted_frame]
theorem hb_counted (s : State) (c : BCtx) : (Counted s c).hb = s.hb := by rw [counted_frame]
theorem sync_counted (s : State) (c : BCtx) : (Counted s c).sync = s.sync := by rw [counted_frame]
theorem mem_counted (s : State) (c : BCtx) : (Counted s c).mem = s.mem := by rw [counted_frame]
theorem ring_counted (s : State) (c : BCtx) : (Counted s c).ring = s.ring := by rw [counted_frame]

theorem preempt_counted (s : State) (c : BCtx) (n : Nat) : ((Counted s c).vat n).preempt = (s.vat n).preempt := by
  rw [vat_counted]

theorem preempt_put (s : State) (c : BCtx) (q : Quire) (n : Nat) : ((c.put s q).vat n).preempt = (s.vat n).preempt := by
  unfold BCtx.put
  rw [State.vat_setQuire]

/-- The other vats are not touched by counting an instruction. -/
theorem vat_counted_ne (s : State) (c : BCtx) {n : Nat} (h : n ≠ c.vat) : (Counted s c).vat n = s.vat n := by
  unfold Counted
  obtain hrc | ⟨rc, hits, stalls, hrc⟩ := (s.count .VAT_ISSUED_COUNT 1 c.vat).rcStep_cases c
  · rw [hrc]
    rfl
  · rw [hrc]
    exact State.vat_setVat_ne _ _ h

/-- A memory instruction that is done is an instruction that issues. -/
theorem Issues.issueMem_eq (h : Issues s vat slot op c) {k : State → BCtx → State × Bool} {t : State}
    (hk : k (Counted s c) c = (t, true)) (hcalm : (t.vat vat).preempt = []) : s.issueMem vat slot op k = t := by
  unfold State.issueMem
  rw [h.issue_eq, hk]
  exact State.trySave_of_calm _ hcalm

/-- A memory instruction that only puts its quire back. -/
theorem Issues.quireBecomes_mem (h : Issues s vat slot op c) {k : State → BCtx → State × Bool}
    (hexec : exec cmd s = .next (s.issueMem vat slot op k)) (hk : k (Counted s c) c = (c.put (Counted s c) q, true)) :
    QuireBecomes cmd s c q :=
  h.quireBecomes hexec (by rw [hk])

/-! ### Ordering -/

theorem inBeater_counted (s : State) (c : BCtx) (n slot : Nat) :
    ((Counted s c).vat n).inBeater slot = (s.vat n).inBeater slot := by rw [vat_counted]; rfl

theorem storesOut_counted (s : State) (c : BCtx) (vat slot : Nat) :
    (Counted s c).storesOut vat slot = s.storesOut vat slot := by rw [counted_frame]; rfl

/-- What an instruction that drops its vat's L1 lines and moves on leaves. -/
theorem Issues.dropL1_spec (h : Issues s vat slot op c) :
    let u := c.done ((Counted s c).dropL1 c.vat) c.q
    (u.vat vat).preempt = [] ∧ u.quire vat slot = some { c.q with pc := c.i.next } ∧ (u.vat vat).l1 = [] ∧
      (∀ v, v ≠ vat.val → u.vat v = s.vat v) ∧ CountersOnly s u vat ∧ u.mem = s.mem := by
  obtain ⟨hvat, hslot⟩ := h.place
  have hl1 : (((Counted s c).dropL1 c.vat).vat c.vat) = { (Counted s c).vat c.vat with l1 := [] } :=
    State.vat_setVat_same _ _ _
  refine ⟨?_, ?_, ?_, fun v hv => ?_, ?_, ?_⟩
  · rw [BCtx.done, preempt_put, ← hvat, hl1]
    exact (preempt_counted ..).trans (hvat ▸ h.calm)
  · rw [← hvat, ← hslot]
    exact State.quire_setQuire_same ..
  · rw [BCtx.done, BCtx.put, State.vat_setQuire, ← hvat, hl1]
  · have hne : v ≠ c.vat := hvat ▸ hv
    exact (State.vat_setVat_ne _ _ hne).trans ((State.vat_setVat_ne _ _ hne).trans (vat_counted_ne s c hne))
  · exact hvat ▸ countersOnly_counted s c h.vat_lt
  · exact mem_counted s c

theorem BCtx.morder_of_beater (s : State) (h : (s.vat c.vat).inBeater c.slot = true) :
    c.morder s = (c.put s { c.q with wait := .order }, false) := if_pos h

theorem BCtx.morder_of_low (s : State) (h : (s.vat c.vat).inBeater c.slot = false) (hscope : bits c.i.mod 1 0 = 0) :
    c.morder s = (c.done s c.q, true) := by
  unfold BCtx.morder
  simp [h, hscope]

theorem BCtx.morder_of_high (s : State) (h : (s.vat c.vat).inBeater c.slot = false) (hscope : 1 ≤ bits c.i.mod 1 0)
    (hstores : s.storesOut c.vat c.slot = false) : c.morder s = (c.done (s.dropL1 c.vat) c.q, true) := by
  unfold BCtx.morder
  simp [h, hscope, hstores]

/-- A quire that waits for its tensor instructions: the issue is not counted. -/
theorem Issues.morder_waits (h : Issues s vat slot 0x92 c) (hbeater : (s.vat vat).inBeater slot = true) :
    ∃ u, exec (.morder vat slot) s = .next u ∧ u.quire vat slot = some { c.q with wait := .order } ∧ u.mem = s.mem := by
  obtain ⟨hvat, hslot⟩ := h.place
  let t := (c.put (Counted s c) { c.q with wait := .order }).uncount s vat
  have hvats : t.vat vat = { (c.put (Counted s c) { c.q with wait := .order }).vat vat with rc := (s.vat vat).rc } :=
    State.vat_setVat_same _ _ _
  have hquire : t.quire vat slot = some { c.q with wait := .order } := by
    unfold State.quire
    rw [hvats, ← hvat, ← hslot]
    exact State.quire_setQuire_same ..
  have hwait : t.waitOn vat slot = t := by
    unfold State.waitOn
    rw [hquire]
    rfl
  have hcalm : (t.vat vat).preempt = [] := by
    rw [hvats]
    exact (preempt_put ..).trans ((preempt_counted ..).trans h.calm)
  have hbeater' : ((Counted s c).vat c.vat).inBeater c.slot = true := by
    rw [inBeater_counted, hvat, hslot]
    exact hbeater
  refine ⟨t, congrArg Host.Outcome.next ?_, hquire, mem_counted s c⟩
  unfold State.issueMem
  rw [h.issue_eq]
  dsimp only
  rw [BCtx.morder_of_beater _ hbeater']
  change (t.waitOn vat slot).trySave vat c.q.block = t
  rw [hwait, State.trySave_of_calm _ hcalm]

theorem Issues.prefetch_movesOn (h : Issues s vat slot 0x93 c) :
    ∃ u, exec (.prefetch vat slot) s = .next u ∧ u.quire vat slot = some { c.q with pc := c.i.next } ∧
      u.launches = s.launches ∧ u.hb = s.hb ∧ u.sync = s.sync := by
  obtain ⟨hvat, hslot⟩ := h.place
  have hkept := PrefetchKept.foldl (fun s k => c.prefetchKept_prefetchOne s k) c.lanes (Counted s c)
  have hcalm : ((c.done (c.lanes.foldl (fun s k => c.prefetchOne s k) (Counted s c)) c.q).vat vat).preempt = [] :=
    (preempt_put ..).trans ((hkept.preempt vat).trans ((preempt_counted ..).trans h.calm))
  refine ⟨c.done (c.lanes.foldl (fun s k => c.prefetchOne s k) (Counted s c)) c.q, congrArg Host.Outcome.next ?_, ?_,
    hkept.launches.trans (launches_counted s c), hkept.hb.trans (hb_counted s c), hkept.sync.trans (sync_counted s c)⟩
  · rw [h.issue_eq, State.trySave_of_calm _ hcalm]
  · rw [← hvat, ← hslot]
    exact State.quire_setQuire_same ..

end

/-- Settles O34: MORDER by its three cases, L1INV by what dropping the lines leaves, PREFETCH by what its walk and its reads
keep. -/
theorem orderingAndPrefetch : Obligations.OrderingAndPrefetch := by
  intro s vat slot c
  refine ⟨fun h hbeater => h.morder_waits hbeater, fun h hbeater hscope => ?_, fun h hbeater hscope hstores => ?_, fun h => ?_,
    fun h => h.prefetch_movesOn⟩
  · refine h.quireBecomes_mem rfl (BCtx.morder_of_low _ ?_ hscope)
    rw [inBeater_counted, h.place.1, h.place.2]
    exact hbeater
  · obtain ⟨hcalm, hquire, hl1, -, hcounters, hmem⟩ := h.dropL1_spec
    refine ⟨_, congrArg Host.Outcome.next (h.issueMem_eq (BCtx.morder_of_high _ ?_ hscope ?_) hcalm), hquire, hl1, hcounters,
      hmem⟩
    · rw [inBeater_counted, h.place.1, h.place.2]
      exact hbeater
    · rw [storesOut_counted, h.place.1, h.place.2]
      exact hstores
  · obtain ⟨hcalm, hquire, hl1, hothers, hcounters, hmem⟩ := h.dropL1_spec
    refine ⟨_, congrArg Host.Outcome.next ?_, hquire, hl1, hothers, hcounters, hmem⟩
    rw [h.issue_eq, State.trySave_of_calm _ hcalm]

end Sys2Proof.Claims

end

