-- ==== Sys2Proof/Proofs/LoadsAndStores.lean ====
section
/-!
PROOF. Loads, stores and atomics (R111 to R117): bytes of a block's press, and what an instruction on them leaves.
-/

namespace Sys2Proof.Machine

/-! ### Bytes of press -/

section
variable {b : Block} {sp sp' a x : Nat} {bs : List Byte}

theorem indexed_concat {α : Type} (l : List α) (x : α) : indexed (l ++ [x]) = indexed l ++ [(l.length, x)] := by
  unfold indexed
  rw [List.length_append, List.length_singleton, List.range_succ, List.zip_append List.length_range]
  rfl

theorem storeFind_pressPut (m : Mem) (a : Nat) (bs : List Byte) (x : Nat) :
    storeFind (pressPut m a bs) x = if a ≤ x ∧ x < a + bs.length then some (bs.getD (x - a) 0) else storeFind m x := by
  induction bs using List.reverseRecOn with
  | nil => exact (if_neg (by simp)).symm
  | append_singleton bs b ih =>
    have hput : pressPut m a (bs ++ [b]) = storePut (a + bs.length) b (pressPut m a bs) := by
      unfold pressPut
      rw [indexed_concat, List.foldl_append]
      rfl
    rw [hput, storeFind_put, ih, List.length_append, List.length_singleton]
    by_cases hx : x = a + bs.length
    · subst hx
      simp
    · by_cases hin : a ≤ x ∧ x < a + bs.length
      · rw [if_neg hx, if_pos hin, if_pos (by omega), List.getD_append _ _ _ _ (by omega)]
      · rw [if_neg hx, if_neg hin, if_neg (by omega)]

/-- The memory of a space of press. -/
def Block.pressMem (b : Block) (sp : Nat) : Mem := if sp = 1 then b.loc else if sp = 2 then b.tile else b.buf

theorem Block.press_one (b : Block) (sp a : Nat) : b.press sp a 1 = [pressByte b.seed sp (b.pressMem sp) a] := by
  simp [Block.press, Block.pressMem]

theorem Block.seed_setPress : (b.setPress sp a bs).seed = b.seed := by
  unfold Block.setPress
  split_ifs <;> rfl

theorem Block.pressMem_setPress_same : (b.setPress sp a bs).pressMem sp = pressPut (b.pressMem sp) a bs := by
  unfold Block.setPress Block.pressMem
  split_ifs <;> rfl

theorem Block.pressMem_setPress_ne (h : 1 ≤ sp) (h3 : sp ≤ 3) (h' : 1 ≤ sp') (h3' : sp' ≤ 3) (hne : sp' ≠ sp) :
    (b.setPress sp a bs).pressMem sp' = b.pressMem sp' := by
  have hsp : sp = 1 ∨ sp = 2 ∨ sp = 3 := by omega
  have hsp' : sp' = 1 ∨ sp' = 2 ∨ sp' = 3 := by omega
  obtain rfl | rfl | rfl := hsp <;> obtain rfl | rfl | rfl := hsp' <;> simp [Block.setPress, Block.pressMem] at hne ⊢

/-- A byte of press after a write: one of the bytes written, or the one before. -/
theorem Block.press_setPress_same (b : Block) (sp a : Nat) (bs : List Byte) (x : Nat) :
    (b.setPress sp a bs).press sp x 1 =
      if a ≤ x ∧ x < a + bs.length then [bs.getD (x - a) 0] else b.press sp x 1 := by
  rw [Block.press_one, Block.press_one, Block.seed_setPress, Block.pressMem_setPress_same]
  unfold pressByte
  rw [storeFind_pressPut]
  by_cases hin : a ≤ x ∧ x < a + bs.length
  · rw [if_pos hin, if_pos hin]
  · rw [if_neg hin, if_neg hin]

theorem Block.press_setPress_ne (h : 1 ≤ sp) (h3 : sp ≤ 3) (h' : 1 ≤ sp') (h3' : sp' ≤ 3) (hne : sp' ≠ sp) (x : Nat) :
    (b.setPress sp a bs).press sp' x 1 = b.press sp' x 1 := by
  rw [Block.press_one, Block.press_one, Block.seed_setPress, Block.pressMem_setPress_ne h h3 h' h3' hne]

end

/-! ### A block put back -/

section
variable {s : State} {n k : Nat} {b : Block}

theorem State.block_setBlock_same (s : State) (n k : Nat) (b : Block) : (s.setBlock n k b).block n k = some b := by
  unfold State.block State.setBlock
  rw [State.vat_setVat_same, storeFind_put, if_pos rfl]

/-- Of every vat, `setBlock` changes the blocks only. -/
theorem State.vat_setBlock (s : State) (n k m : Nat) (b : Block) :
    (s.setBlock n k b).vat m = { s.vat m with blocks := ((s.setBlock n k b).vat m).blocks } := by
  unfold State.setBlock
  by_cases e : m = n
  · subst e
    simp only [State.vat_setVat_same]
  · rw [State.vat_setVat_ne _ _ e]

/-- The value of a lane among those of a list of lanes. -/
theorem find?_lane_map (l : List Nat) (f : Nat → Nat) {n : Nat} (h : n ∈ l) :
    (l.map (fun k => (k, f k))).find? (fun v => v.1 = n) = some (n, f n) := by
  induction l with
  | nil => exact absurd h List.not_mem_nil
  | cons m l ih =>
    by_cases e : m = n
    · subst e
      simp
    · rw [List.map_cons, List.find?_cons_of_neg (by simpa using e)]
      exact ih ((List.mem_cons.mp h).resolve_left fun hm => e hm.symm)

end

/-! ### What a load leaves -/

/-- What a load puts into D. -/
def BCtx.loadedQuire (c : BCtx) (vals : List (Nat × Nat)) : Quire :=
  { c.writeD (c.doers.map fun n =>
      (n, loadValue (2 ^ c.i.size3) c.i.bit10 (((vals.find? (fun v => v.1 = n)).map (·.2)).getD 0))) with pc := c.i.next }

theorem BCtx.loaded_eq (c : BCtx) (s : State) (vals : List (Nat × Nat)) :
    c.loaded s (2 ^ c.i.size3) vals = c.put s (c.loadedQuire vals) := rfl

end Sys2Proof.Machine

namespace Sys2Proof.Claims

open Sys2Proof Sys2Proof.Machine

section
variable {s s1 : State} {vat slot : Fin 64} {op : Nat} {c : BCtx} {cmd : Instr} {b : Block} {q : Quire}

/-- What an instruction leaves that puts its block and its quire back. -/
theorem Issues.putBlock_spec (h : Issues s vat slot op c) (b : Block) (q : Quire) :
    let u := c.put ((Counted s c).setBlock c.vat c.q.block b) q
    (u.vat vat).preempt = [] ∧ u.quire c.vat c.slot = some q ∧ u.block c.vat c.q.block = some b ∧ CountersOnly s u c.vat ∧
      u.mem = s.mem := by
  refine ⟨?_, State.quire_setQuire_same .., ?_, countersOnly_counted s c h.vat_lt, mem_counted s c⟩
  · rw [preempt_put, State.vat_setBlock]
    exact (preempt_counted ..).trans h.calm
  · rw [BCtx.put, State.block_setQuire, State.block_setBlock_same]

/-! ### Loads -/

theorem Issues.loaded_written (h : Issues s vat slot 0x90 c) (vals : List (Nat × Nat)) :
    DWritten c (c.loadedQuire vals) fun n =>
      loadValue (2 ^ c.i.size3) c.i.bit10 (((vals.find? (fun v => v.1 = n)).map (·.2)).getD 0) :=
  dWritten_writeD h.legal (h.code ▸ rfl) _

/-- A load of press puts the lanes' bytes into D. -/
theorem Issues.load_press (h : Issues s vat slot 0x90 c) (hspace : c.i.space = 1 ∨ c.i.space = 2)
    (hfault : c.memFault (2 ^ c.i.size3) = none) :
    WritesD (.ld vat slot) s c (fun n =>
      loadValue (2 ^ c.i.size3) c.i.bit10 (ofLe (c.blk.press c.i.space (c.addr n) (2 ^ c.i.size3)))) := by
  let vals := c.doers.map (fun k => (k, ofLe (c.blk.press c.i.space (c.addr k) (2 ^ c.i.size3))))
  have hload : c.load (Counted s c) = (c.put (Counted s c) (c.loadedQuire vals), true) := by
    unfold BCtx.load
    dsimp only
    rw [hfault]
    exact if_pos (by simpa using hspace)
  obtain ⟨u, hu, hquire, honly⟩ := h.quireBecomes_mem (cmd := .ld vat slot) rfl hload
  have hvals : c.loadedQuire vals = { c.writeD (c.doers.map fun n => (n, loadValue (2 ^ c.i.size3) c.i.bit10
      (ofLe (c.blk.press c.i.space (c.addr n) (2 ^ c.i.size3))))) with pc := c.i.next } := by
    have hmap : ∀ n ∈ c.doers, ((vals.find? (fun v => v.1 = n)).map (·.2)).getD 0 =
        ofLe (c.blk.press c.i.space (c.addr n) (2 ^ c.i.size3)) := fun n hn => by
      rw [find?_lane_map c.doers _ hn]
      rfl
    unfold BCtx.loadedQuire
    rw [List.map_congr_left fun n hn => by rw [hmap n hn]]
  refine ⟨u, _, hu, hquire, ?_, honly⟩
  rw [hvals]
  exact dWritten_writeD h.legal (h.code ▸ rfl) _

/-- A global load: every byte has been read. -/
theorem Issues.load_global {vals : List (Nat × Nat)} (h : Issues s vat slot 0x90 c) (hspace : c.i.space = 0 ∨ c.i.space = 3)
    (hfault : c.memFault (2 ^ c.i.size3) = none)
    (hread : c.readLanes (if c.i.memOrder = 1 then (Counted s c).dropL1 vat else Counted s c)
      (if c.i.space = 3 then 2 else c.i.cache)
      (if c.i.space = 3 then c.constAccs (2 ^ c.i.size3) else c.accs (2 ^ c.i.size3)) = (s1, .ok vals))
    (hcalm : (s1.vat vat).preempt = []) :
    exec (.ld vat slot) s = .next (s1.setQuire vat slot (c.loadedQuire vals)) := by
  obtain ⟨hvat, hslot⟩ := h.place
  rw [← hvat] at hread
  have hread' : (if c.i.space = 3 then
      c.readLanes (if c.i.memOrder = 1 then (Counted s c).dropL1 c.vat else Counted s c) 2 (c.constAccs (2 ^ c.i.size3))
      else c.readLanes (if c.i.memOrder = 1 then (Counted s c).dropL1 c.vat else Counted s c) c.i.cache
        (c.accs (2 ^ c.i.size3))) = (s1, .ok vals) := by
    rw [← hread]
    split <;> rfl
  have hload : c.load (Counted s c) = (s1.setQuire vat slot (c.loadedQuire vals), true) := by
    unfold BCtx.load
    dsimp only
    rw [hfault]
    dsimp only
    rw [if_neg (by obtain e | e := hspace <;> simp [e]), hread', ← hvat, ← hslot]
    rfl
  refine congrArg Host.Outcome.next (h.issueMem_eq hload ?_)
  rw [State.vat_setQuire]
  exact hcalm

/-! ### Stores -/

theorem Issues.store_press {k : Nat} (h : Issues s vat slot 0x91 c) (hspace : c.i.space = 1 ∨ c.i.space = 2)
    (hfault : c.memFault (2 ^ c.i.size3) = none) (hone : c.doers = [k]) :
    exec (.st vat slot) s = .next (c.put ((Counted s c).setBlock c.vat c.q.block
      (c.blk.setPress c.i.space (c.addr k) (toLe (2 ^ c.i.size3) (c.opB k)))) { c.q with pc := c.i.next }) := by
  have hstore : c.store (Counted s c) = (c.put ((Counted s c).setBlock c.vat c.q.block
      (c.blk.setPress c.i.space (c.addr k) (toLe (2 ^ c.i.size3) (c.opB k)))) { c.q with pc := c.i.next }, true) := by
    unfold BCtx.store
    dsimp only
    rw [hfault]
    dsimp only
    rw [if_pos (by omega), hone]
    rfl
  exact congrArg Host.Outcome.next (h.issueMem_eq hstore (h.putBlock_spec _ _).1)

theorem Issues.store_global {vals : List (Nat × Nat)} (h : Issues s vat slot 0x91 c) (hspace : c.i.space = 0)
    (hfault : c.memFault (2 ^ c.i.size3) = none)
    (hwrite : c.globally (Counted s c) rightW (c.accs (2 ^ c.i.size3))
      (fun s x a => c.storeOne s x a.va (toLe (2 ^ c.i.size3) (c.opB a.lane))) = (s1, .ok vals))
    (hcalm : (s1.vat vat).preempt = []) :
    exec (.st vat slot) s = .next (s1.setQuire vat slot { c.q with pc := c.i.next }) := by
  obtain ⟨hvat, hslot⟩ := h.place
  have hstore : c.store (Counted s c) = (s1.setQuire vat slot { c.q with pc := c.i.next }, true) := by
    unfold BCtx.store
    dsimp only
    rw [hfault]
    dsimp only
    rw [if_neg (by omega), hwrite, ← hvat, ← hslot]
    rfl
  refine congrArg Host.Outcome.next (h.issueMem_eq hstore ?_)
  rw [State.vat_setQuire]
  exact hcalm

end

/-- Settles O33: loads put the lanes' values into D, stores put bytes into the block's press; a global access is the model's
own, once it has succeeded. -/
theorem loadsAndStores : Obligations.LoadsAndStores := by
  intro s s1 vat slot c vals k
  refine ⟨fun h hspace hfault => h.load_press hspace hfault, fun h hspace hfault hread hcalm =>
    ⟨_, h.load_global hspace hfault hread hcalm, h.loaded_written vals⟩, fun h hspace hfault hone => ?_,
    fun h hspace hfault hwrite hcalm => h.store_global hspace hfault hwrite hcalm⟩
  obtain ⟨-, hquire, hblock, hcounters, hmem⟩ :=
    h.putBlock_spec (c.blk.setPress c.i.space (c.addr k) (toLe (2 ^ c.i.size3) (c.opB k))) { c.q with pc := c.i.next }
  obtain ⟨hvat, hslot⟩ := h.place
  refine ⟨_, c.blk.setPress c.i.space (c.addr k) (toLe (2 ^ c.i.size3) (c.opB k)), h.store_press hspace hfault hone, ?_, ?_, fun a => ?_,
    fun sp a hlo hhi hne => Block.press_setPress_ne (by omega) (by omega) hlo hhi hne a, ?_, hmem⟩
  · rw [← hvat, ← hslot]
    exact hquire
  · rw [← hvat]
    exact hblock
  · rw [Block.press_setPress_same, length_toLe]
  · rw [← hvat]
    exact hcounters

end Sys2Proof.Claims

end

