-- ==== Sys2Proof/Proofs/Atomics.lean ====
section
/-!
PROOF. Atomics (R105, R114 to R117): one lane on its block's press, and the lanes' accesses of global memory.
-/

namespace Sys2Proof.Claims

open Sys2Proof Sys2Proof.Machine

/-- Every atomic runs the same operation. -/
theorem exec_of_atomic {cmd : Instr} {vat slot : Fin 64} {op : Nat} (h : bpcOp cmd = some (vat, slot, op)) (hlo : 0xA0 ≤ op)
    (hhi : op ≤ 0xAA) (s : State) : exec cmd s = .next (s.issueMem vat slot op (fun s c => c.atomic s)) := by
  unfold bpcOp at h
  split at h
  all_goals cases h
  all_goals simp only [Nat.reduceLeDiff] at hlo hhi
  all_goals rfl

/-- An atomic's layout: D is there unless NORET is set (R112). -/
theorem opSpec_of_atomic {op : Nat} (hlo : 0xA0 ≤ op) (hhi : op ≤ 0xAA) :
    isTensor op = false ∧ [0x50, 0x51, 0x55, 0x60, 0x61, 0x82].contains op = false ∧
      (opSpec op).any (fun o => o.d && decide (o.lay = .atm)) = true := by
  interval_cases op <;> decide

section
variable {s s1 s2 s3 : State} {vat slot : Fin 64} {op : Nat} {c : BCtx} {cmd : Instr}

/-- D of an atomic without NORET is a register group. -/
theorem Issues.atomic_group (h : Issues s vat slot op c) (hlo : 0xA0 ≤ op) (hhi : op ≤ 0xAA) (hret : c.i.bit10 = false) :
    (okind c.i.d = .v ∧ c.i.d + (widths c.i).1 ≤ 256) ∨ (okind c.i.d = .s ∧ 256 ≤ c.i.d ∧ c.i.d + (widths c.i).1 ≤ 320) := by
  obtain ⟨htensor, hpred, hspec⟩ := opSpec_of_atomic hlo hhi
  rw [← h.code] at htensor hpred hspec
  refine destGroup_of_dest h.legal htensor hpred ?_
  rw [Option.any_eq_true] at hspec ⊢
  obtain ⟨o, ho, hd⟩ := hspec
  rw [Bool.and_eq_true] at hd
  exact ⟨o, ho, by simp [hd, hret]⟩

/-- The bytes of an atomic's operand. -/
def atomBytes (c : BCtx) : Nat := if c.i.size2 = 3 then 8 else 4

/-- One lane's atomic on its block's press. -/
theorem Issues.atomic_press (h : Issues s vat slot op c) (hcmd : bpcOp cmd = some (vat, slot, op)) (hlo : 0xA0 ≤ op)
    (hhi : op ≤ 0xAA) {k : Nat} (hone : c.doers = [k]) (hspace : c.i.space = 1) (hfault : c.memFault (atomBytes c) = none) :
    exec cmd s = .next (c.put ((Counted s c).setBlock c.vat c.q.block (c.blk.setPress 1 (c.addr k)
        (toLe (atomBytes c) (atomNew c.i.op (8 * atomBytes c) (bitAt c.i.mod 3) (ofLe (c.blk.press 1 (c.addr k) (atomBytes c)))
          (c.opB k) (c.opC k)))))
      { (if c.i.bit10 then c.q else c.writeD [(k, ofLe (c.blk.press 1 (c.addr k) (atomBytes c)))]) with pc := c.i.next }) := by
  rw [exec_of_atomic hcmd hlo hhi s]
  refine congrArg Host.Outcome.next (h.issueMem_eq ?_ (h.putBlock_spec _ _).1)
  unfold BCtx.atomic
  rw [← atomBytes]
  dsimp only
  rw [hfault]
  dsimp only
  rw [if_pos hspace]
  unfold BCtx.atomLocal
  rw [hone]
  rfl

/-- An atomic on the press leaves its own function of the old value and its operands. -/
theorem Issues.atomicLocal (h : Issues s vat slot op c) (hcmd : bpcOp cmd = some (vat, slot, op)) (hlo : 0xA0 ≤ op)
    (hhi : op ≤ 0xAA) {f : Nat → Nat → Nat → Nat}
    (hf : ∀ old b x, atomNew op (8 * atomBytes c) (bitAt c.i.mod 3) old b x = f old b x % 2 ^ (8 * atomBytes c)) :
    AtomicLocal cmd s c f := by
  intro k w hone hspace hfault old
  have hw : w = 8 * atomBytes c := by
    unfold atomBytes w
    split <;> rfl
  have hbytes : w / 8 = atomBytes c := by omega
  rw [hbytes] at hfault
  have hold : old = ofLe (c.blk.press 1 (c.addr k) (atomBytes c)) := by
    unfold old
    rw [hbytes]
  rw [hbytes, hw, hold]
  rw [← h.code] at hf
  obtain ⟨-, hquire, hblock, hcounters, hmem⟩ := h.putBlock_spec (c.blk.setPress 1 (c.addr k)
    (toLe (atomBytes c) (atomNew c.i.op (8 * atomBytes c) (bitAt c.i.mod 3) (ofLe (c.blk.press 1 (c.addr k) (atomBytes c)))
      (c.opB k) (c.opC k))))
    { (if c.i.bit10 then c.q else c.writeD [(k, ofLe (c.blk.press 1 (c.addr k) (atomBytes c)))]) with pc := c.i.next }
  refine ⟨_, _, _, h.atomic_press hcmd hlo hhi hone hspace hfault, hquire, hblock, fun hret => ?_, fun hret => by rw [hret]; rfl,
    fun a => ?_, rfl, hcounters, hmem⟩
  · have hwritten := dWritten_of_group (h.atomic_group hlo hhi hret) (fun _ => ofLe (c.blk.press 1 (c.addr k) (atomBytes c)))
    rw [hone] at hwritten
    rw [hret]
    exact hwritten
  · rw [Block.press_setPress_same, length_toLe, hf]

/-- Global atomics, once every access has succeeded. -/
theorem Issues.atomic_global {vals : List (Nat × Nat)} (h : Issues s vat slot op c) (hcmd : bpcOp cmd = some (vat, slot, op))
    (hlo : 0xA0 ≤ op) (hhi : op ≤ 0xAA) (hspace : c.i.space = 0) (horder : c.i.atmOrder = 0)
    (hfault : c.memFault (atomBytes c) = none)
    (hfoot : (Counted s c).footprints (vatAsker vat c.l.p) c.owner c.l.p (laneRanges (c.accs (atomBytes c)) (rightR + rightW)) =
      (s1, .ok ()))
    (hask : ∃ x, runLanes (fun s a => match s.translate (vatAsker vat c.l.p) c.owner c.l.p a.va (rightR + rightW) with
      | (s2, .error e) => (s2, .error e)
      | (s2, .ok x) => c.atomAsk s2 x a) s1 (c.accs (atomBytes c)) = (s2, .ok (), x))
    (hrun : c.globally s2 (rightR + rightW) (c.accs (atomBytes c)) (fun s x a => c.atomOne s x a) = (s3, .ok vals))
    (hcalm : (s3.vat vat).preempt = []) :
    exec cmd s = .next (s3.setQuire vat slot { (if c.i.bit10 then c.q else c.writeD vals) with pc := c.i.next }) := by
  obtain ⟨hvat, hslot⟩ := h.place
  obtain ⟨x, hask⟩ := hask
  rw [← hvat] at hfoot hask
  rw [exec_of_atomic hcmd hlo hhi s]
  refine congrArg Host.Outcome.next (h.issueMem_eq ?_ ?_)
  · unfold BCtx.atomic
    rw [← atomBytes]
    dsimp only
    rw [hfault]
    dsimp only
    rw [if_neg (by omega), if_neg (by simp [horder]), if_neg (by simp [horder]), hfoot]
    dsimp only
    split
    next heq => exact absurd (heq.symm.trans hask) (by simp)
    next s2' _ heq =>
      obtain ⟨rfl, -⟩ := Prod.mk.inj (heq.symm.trans hask)
      rw [hrun, ← hvat, ← hslot]
      rfl
  · rw [State.vat_setQuire]
    exact hcalm

end

/-- Settles O35: each atomic is `atomNew` of its opcode. -/
theorem atomicsReturnTheOldValue : Obligations.AtomicsReturnTheOldValue := by
  intro s s1 s2 s3 vat slot c vals cmd op sgn w
  have hw : w = 8 * atomBytes c := by
    unfold atomBytes w
    split <;> rfl
  have hbytes : w / 8 = atomBytes c := by omega
  have hlt : ∀ x y, typedLt sgn w x y = typedLt (bitAt c.i.mod 3) (8 * atomBytes c) x y := fun x y => by rw [hw]
  refine ⟨fun h => h.atomicLocal rfl (by decide) (by decide) fun _ _ _ => rfl,
    fun h => h.atomicLocal rfl (by decide) (by decide) fun _ _ _ => rfl,
    fun h => h.atomicLocal rfl (by decide) (by decide) fun _ _ _ => rfl,
    fun h => h.atomicLocal rfl (by decide) (by decide) fun _ _ _ => rfl,
    fun h => h.atomicLocal rfl (by decide) (by decide) fun _ _ _ => by rw [hlt]; rfl,
    fun h => h.atomicLocal rfl (by decide) (by decide) fun _ _ _ => by rw [hlt]; rfl,
    fun h => h.atomicLocal rfl (by decide) (by decide) fun _ _ _ => rfl,
    fun h => h.atomicLocal rfl (by decide) (by decide) fun _ _ _ => rfl,
    fun h => h.atomicLocal rfl (by decide) (by decide) fun _ _ _ => by rw [hlt]; rfl,
    fun h => h.atomicLocal rfl (by decide) (by decide) fun _ _ _ => by rw [hlt, hw]; rfl,
    fun h => h.atomicLocal rfl (by decide) (by decide) fun _ _ _ => rfl, ?_⟩
  rw [hbytes]
  exact fun hcmd hlo hhi h hspace horder hfault hfoot hask hrun hcalm =>
    h.atomic_global hcmd hlo hhi hspace horder hfault hfoot hask hrun hcalm

end Sys2Proof.Claims

end

