-- ==== Sys2Proof/Proofs/SyncInstructions.lean ====
section
/-!
PROOF. The sync instructions of one lane on an object of this chip (R70 to R72, R118, R276 to R284): the sync unit serves the
lane in a state whose registers the issue has not touched, and its answer goes to the quire.
-/

namespace Sys2Proof.Machine

open Sys2Proof.Claims

section
variable (q : Quire) {f n lane x pc : Nat} {w : QWait}

/-! ### A quire's registers and its pc -/

theorem Quire.putReg_with (d : Nat) : Quire.putReg { q with pc := pc, wait := w } d lane x =
    { q.putReg d lane x with pc := pc, wait := w } := by
  unfold Quire.putReg
  split_ifs <;> rfl

theorem Quire.putGroup_with : Quire.putGroup { q with pc := pc, wait := w } f n lane x =
    { q.putGroup f n lane x with pc := pc, wait := w } := by
  induction n with
  | zero => rfl
  | succ n ih => rw [Quire.putGroup_succ, Quire.putGroup_succ, ih, Quire.putReg_with]

theorem Quire.putReg_wait (d : Nat) : Quire.putReg { q with wait := w } d lane x = { q.putReg d lane x with wait := w } := by
  unfold Quire.putReg
  split_ifs <;> rfl

theorem Quire.putGroup_one : q.putGroup f 1 lane x = q.putReg f lane (x % 2 ^ 32) := by
  simp [Quire.putGroup]

end

/-! ### What the sync unit reads -/

section
variable {s u : State} {p op h : Nat}

/-- The fields of an object that the sync unit reads. -/
def synFields : List Field := [.SYN_OBJ_TYPE, .SYN_OBJ_STATE, .SYN_OBJ_OWNER, .SYN_OBJ_EXPORT, .SYN_OBJ_VALUE, .SYN_OBJ_AUX]

theorem State.synMay_congr (hrd : ∀ f ∈ synFields, u.rd f h = s.rd f h) : u.synMay p op h = s.synMay p op h := by
  unfold State.synMay State.owns State.holds State.objType State.objState
  rw [hrd .SYN_OBJ_TYPE (by decide), hrd .SYN_OBJ_STATE (by decide), hrd .SYN_OBJ_OWNER (by decide),
    hrd .SYN_OBJ_EXPORT (by decide)]

/-- A live object is no reason to end a wait. -/
theorem State.waitStart_of_live (htype : s.objType h ≠ 0) (hstate : s.objState h = 0) (threshold : Nat) :
    s.waitStart h threshold = if threshold ≤ s.objValue h then some stOk else none := by
  unfold State.waitStart State.terminal
  simp [htype, hstate]

theorem State.evalWaits_of_none (hwaits : s.sync.waits = []) : s.evalWaits h = s := by
  unfold State.evalWaits State.notify State.setWaits
  rw [hwaits, List.map_nil, ← hwaits]

theorem State.endWaits_of_none (hwaits : s.sync.waits = []) (f : Wait → Bool) (st : Nat) : s.endWaits f st = s := by
  unfold State.endWaits
  rw [hwaits]
  rfl

section
variable {r : SynReq} {who : Waiter} (hmay : s.synMay r.p r.op r.h = true)
include hmay

theorem State.synServe_signal (hop : r.op = 0xB0) : s.synServe r who = (s.signal r.h r.value, .done stOk 0) := by
  rw [hop] at hmay
  simp [State.synServe, hmay, hop]

theorem State.synServe_add (hop : r.op = 0xB1) :
    s.synServe r who = (s.counterAdd r.h (r.arg % 2 ^ 32), .done stOk (s.objValue r.h)) := by
  rw [hop] at hmay
  simp [State.synServe, hmay, hop]

theorem State.synServe_wait_met (hop : r.op = 0xB2) {st : Nat} (hstart : s.waitStart r.h r.arg = some st) :
    s.synServe r who = (s, .done st 0) := by
  rw [hop] at hmay
  simp [State.synServe, hmay, hop, hstart]

theorem State.synServe_wait_not (hop : r.op = 0xB2) (hstart : s.waitStart r.h r.arg = none) :
    s.synServe r who = (s.addWait r.h r.arg r.timeout who r.p, .waits) := by
  rw [hop] at hmay
  simp [State.synServe, hmay, hop, hstart]

theorem State.synServe_read (hop : r.op = 0xB3) (htype : s.objType r.h ≠ 2) :
    s.synServe r who = (s, .done stOk (s.objValue r.h)) := by
  rw [hop] at hmay
  simp [State.synServe, hmay, hop, htype]

theorem State.synServe_acquire (hop : r.op = 0xB4) (howner : s.lockOwner r.h = none) :
    s.synServe r who = (s.wr .SYN_OBJ_AUX (lockHeld r.ident) r.h, .done stOk 0) := by
  rw [hop] at hmay
  simp [State.synServe, hmay, hop, State.lockTry, howner]

theorem State.synServe_release (hop : r.op = 0xB5) (howner : s.lockOwner r.h = some r.ident) (hnone : s.sync.lockq = []) :
    s.synServe r who = (s.wr .SYN_OBJ_AUX 0 r.h, .done stOk 0) := by
  rw [hop] at hmay
  simp [State.synServe, hmay, hop, State.lockFree, howner, hnone]

/-- The last arrival moves the phase on. -/
theorem State.synServe_arrive_last (hop : r.op = 0xB6) (hwaits : s.sync.waits = []) {v : Nat}
    (hv : (s.objValue r.h / 2 ^ 32 + 1) % 2 ^ 32 * 2 ^ 32 = v)
    (hlast : s.objValue r.h % 2 ^ 32 + 1 = s.rd .SYN_OBJ_AUX r.h % 2 ^ 32) :
    s.synServe r who = (s.wr .SYN_OBJ_VALUE v r.h, .done stOk 0) := by
  have hends : (s.wr .SYN_OBJ_VALUE v r.h).endWaits (fun w => w.obj = r.h) stOk = s.wr .SYN_OBJ_VALUE v r.h :=
    State.endWaits_of_none (s := s.wr .SYN_OBJ_VALUE v r.h) hwaits _ _
  have harrive : s.arrive r.h who r.p = (s.wr .SYN_OBJ_VALUE v r.h, false) := by
    unfold State.arrive
    dsimp only
    rw [if_pos hlast, hv, hends]
  rw [hop] at hmay
  simp [State.synServe, hmay, hop, harrive]

theorem State.synServe_arrive_other (hop : r.op = 0xB6) {v : Nat}
    (hv : s.objValue r.h / 2 ^ 32 * 2 ^ 32 + (s.objValue r.h % 2 ^ 32 + 1) = v)
    (hother : s.objValue r.h % 2 ^ 32 + 1 ≠ s.rd .SYN_OBJ_AUX r.h % 2 ^ 32) :
    s.synServe r who = ((s.wr .SYN_OBJ_VALUE v r.h).addWait r.h (s.objValue r.h / 2 ^ 32) 0 who r.p, .waits) := by
  have harrive : s.arrive r.h who r.p = ((s.wr .SYN_OBJ_VALUE v r.h).addWait r.h (s.objValue r.h / 2 ^ 32) 0 who r.p, true) := by
    unfold State.arrive
    dsimp only
    rw [if_neg hother, hv]
  rw [hop] at hmay
  simp [State.synServe, hmay, hop, harrive]

end

theorem State.setValue_of_quiet (harms : NoArms s) (hwaits : s.sync.waits = []) (hh : h < 65536) (v : Nat) :
    s.setValue h v = s.wr .SYN_OBJ_VALUE v h := by
  rw [State.setValue_of_noArms harms hh, State.evalWaits_of_none (s := s.wr .SYN_OBJ_VALUE v h) hwaits]

end

end Sys2Proof.Machine

namespace Sys2Proof.Claims

open Sys2Proof Sys2Proof.Machine

/-! ### The state in which a lane is served -/

/-- What the sync unit finds when it serves the lane: the objects, the waits and the vat as they were, the quire at the next
instruction. -/
structure SynServed (s t : State) (c : BCtx) : Prop where
  regs : CountersOnly s t c.vat
  rest : t = { s with regs := t.regs, vats := t.vats }
  quire : ∃ w, t.quire c.vat c.slot = some { c.q with pc := c.i.next, wait := w }
  preempt : (t.vat c.vat).preempt = []
  l1 : (t.vat c.vat).l1 = (s.vat c.vat).l1

section
variable {s t u : State} {vat slot : Fin 64} {op k h : Nat} {c : BCtx}

theorem synServed_synStart {t0 : State} (hi : Issues s vat slot op c)
    (h0 : ∀ v, t0.vat v = { s.vat v with rc := (t0.vat v).rc, blocks := (t0.vat v).blocks }) (hregs : CountersOnly s t0 c.vat)
    (hrest : t0 = { s with regs := t0.regs, vats := t0.vats }) : SynServed s (c.synStart t0) c where
  regs := hregs
  rest := by
    conv_lhs => unfold BCtx.synStart BCtx.put; rw [hrest]
    rfl
  quire := ⟨_, State.quire_setQuire_same ..⟩
  preempt := by
    unfold BCtx.synStart
    dsimp only
    rw [preempt_put, h0]
    exact hi.place.1 ▸ hi.calm
  l1 := by
    unfold BCtx.synStart BCtx.put
    dsimp only
    rw [State.vat_setQuire, h0]

theorem SynServed.of_counted (hi : Issues s vat slot op c) : SynServed s (c.synStart (Counted s c)) c :=
  synServed_synStart hi (fun v => by rw [vat_counted]) (countersOnly_counted s c hi.vat_lt) (counted_frame s c)

theorem SynServed.rd (ht : SynServed s t c) {f : Field} {j : Nat} (hf : f ∈ synFields) (hj : j < 65536) :
    t.rd f j = s.rd f j := by
  refine ht.regs f j 0 hj (by decide) fun hmem => ?_
  simp only [List.mem_cons, Prod.mk.injEq, List.not_mem_nil, or_false] at hmem
  obtain ⟨rfl, -⟩ | ⟨rfl, -⟩ | ⟨rfl, -⟩ := hmem <;> exact absurd hf (by decide)

theorem SynServed.sync (ht : SynServed s t c) : t.sync = s.sync := by rw [ht.rest]
theorem SynServed.mem (ht : SynServed s t c) : t.mem = s.mem := by rw [ht.rest]
theorem SynServed.pos (ht : SynServed s t c) : t.pos = s.pos := by rw [ht.rest]; rfl

theorem SynServed.noArms (ht : SynServed s t c) (harms : NoArms s) : NoArms t :=
  noArms_congr (fun k hk => ht.regs _ _ _ (by omega) (by decide) (by simp)) harms

/-- The lane's request may act. -/
theorem SynServed.may (ht : SynServed s t c) (hl : SyncLane s vat slot op c k h) : t.synMay c.l.p op h = true := by
  have hsmall := hl.small
  rw [State.synMay_congr fun f hf => ht.rd hf (by omega)]
  exact hl.may

theorem SyncLane.synReq_eq (hl : SyncLane s vat slot op c k h) (pos : Nat) : c.synReq pos k =
    { p := c.l.p, op := op, h := h, ident := lockIdent pos c.vat c.slot k
      value := if op = 0xB0 then c.opB k else 0
      arg := if op = 0xB1 || op = 0xB2 then c.opB k else 0
      timeout := if op = 0xB2 && c.i.fmt = 3 then c.i.x else 0 } := by
  unfold BCtx.synReq
  rw [hl.issues.code, hl.obj]

theorem OthersKept.refl (s : State) (vat slot : Nat) : OthersKept s s vat slot :=
  ⟨fun _ _ _ => rfl, fun _ _ => rfl, fun _ => ⟨rfl, rfl, rfl, rfl, rfl, rfl⟩⟩

theorem OthersKept.trans {vat slot : Nat} (h : OthersKept s t vat slot) (k : OthersKept t u vat slot) :
    OthersKept s u vat slot := by
  obtain ⟨hquire, hblock, hvat⟩ := h
  obtain ⟨kquire, kblock, kvat⟩ := k
  refine ⟨fun v n hne => (kquire v n hne).trans (hquire v n hne), fun v b => (kblock v b).trans (hblock v b), fun v => ?_⟩
  obtain ⟨h1, h2, h3, h4, h5, h6⟩ := hvat v
  obtain ⟨k1, k2, k3, k4, k5, k6⟩ := kvat v
  exact ⟨k1.trans h1, k2.trans h2, k3.trans h3, k4.trans h4, k5.trans h5, k6.trans h6⟩

theorem OthersKept.setQuire {vat slot : Nat} (h : OthersKept s t vat slot) (q : Quire) :
    OthersKept s (t.setQuire vat slot q) vat slot := by
  obtain ⟨hquire, hblock, hvat⟩ := h
  refine ⟨fun v n hne => (State.quire_setQuire_ne _ q hne).trans (hquire v n hne), fun v b => ?_, fun v => ?_⟩
  · refine Eq.trans ?_ (hblock v b)
    unfold State.block
    rw [State.vat_setQuire]
  · rw [State.vat_setQuire]
    exact hvat v

/-! ### What the lane's answer leaves -/

/-- The lane's answer stands in D, and the quire runs. -/
def answered (c : BCtx) (k status data : Nat) : Quire :=
  { (if synWords c.i.op = 0 then c.q else c.q.putGroup c.i.d (synWords c.i.op) k (if synWords c.i.op = 2 then data else status)) with
    pc := c.i.next, wait := .run }

/-- What a served lane leaves: the state in which it is served, and the quire with its answer. -/
structure SynDone (t u : State) (c : BCtx) (q : Quire) (acquired : Bool) : Prop where
  quire : u.quire c.vat c.slot = some q
  rest : u = { t with vats := u.vats }
  others : acquired = false → OthersKept t u c.vat c.slot
  preempt : (u.vat c.vat).preempt = (t.vat c.vat).preempt
  l1 : (u.vat c.vat).l1 = if acquired then [] else (t.vat c.vat).l1

theorem SynDone.regs {q : Quire} {acquired : Bool} (h : SynDone t u c q acquired) : u.regs = t.regs := by rw [h.rest]
theorem SynDone.mem {q : Quire} {acquired : Bool} (h : SynDone t u c q acquired) : u.mem = t.mem := by rw [h.rest]

theorem synDone_answer {w : QWait} (hquire : t.quire c.vat c.slot = some { c.q with pc := c.i.next, wait := w })
    (hwaits : t.sync.waits = []) (acquired : Bool) (status data : Nat) :
    SynDone t (((if acquired then t.dropL1 c.vat else t).synWrite c k status data).quireResume c.vat c.slot false) c
      (answered c k status data) acquired := by
  let t1 := if acquired then t.dropL1 c.vat else t
  have hvat1 : t1.vat c.vat = { t.vat c.vat with l1 := if acquired then [] else (t.vat c.vat).l1 } := by
    unfold t1
    cases acquired
    · rfl
    · exact State.vat_setVat_same _ _ _
  have hrest1 : t1 = { t with vats := t1.vats } := by
    unfold t1
    cases acquired <;> rfl
  have hquire1 : t1.quire c.vat c.slot = some { c.q with pc := c.i.next, wait := w } := by
    unfold State.quire
    rw [hvat1]
    exact hquire
  let t2 := t1.synWrite c k status data
  have hwrite : ∃ q2, t2.quire c.vat c.slot = some q2 ∧ { q2 with wait := .run } = answered c k status data ∧
      t2 = { t1 with vats := t2.vats } ∧ t2.vat c.vat = { t1.vat c.vat with quires := (t2.vat c.vat).quires } ∧
      OthersKept t1 t2 c.vat c.slot := by
    unfold t2 State.synWrite
    rw [hquire1]
    dsimp only
    by_cases hk : synWords c.i.op = 0
    · rw [if_pos hk]
      exact ⟨_, hquire1, by rw [answered, if_pos hk], rfl, rfl, OthersKept.refl ..⟩
    · rw [if_neg hk]
      refine ⟨_, State.quire_setQuire_same .., ?_, rfl, State.vat_setQuire .., (OthersKept.refl ..).setQuire _⟩
      rw [answered, if_neg hk, Quire.putGroup_with]
  obtain ⟨q2, hquire2, hq2, hrest2, hvat2, hothers⟩ := hwrite
  have hsync2 : t2.sync = t.sync := by rw [hrest2, hrest1]
  have hresume : t2.quireResume c.vat c.slot false = t2.setQuire c.vat c.slot (answered c k status data) := by
    have hnone : t2.laneWaits c.vat c.slot = false := by
      unfold State.laneWaits
      rw [hsync2, hwaits]
      rfl
    unfold State.quireResume
    simp only [Bool.false_eq_true, if_false, hnone, hquire2, hq2]
  change SynDone t (t2.quireResume c.vat c.slot false) c _ acquired
  rw [hresume]
  constructor
  case quire => exact State.quire_setQuire_same ..
  case rest =>
    conv_lhs => unfold State.setQuire State.setVat; rw [hrest2, hrest1]
    rfl
  case others =>
    intro hacq
    subst hacq
    exact hothers.setQuire _
  case preempt => rw [State.vat_setQuire, hvat2, hvat1]
  case l1 => rw [State.vat_setQuire, hvat2, hvat1]

/-! ### The instruction -/

/-- A sync instruction of a lane on this chip is served here. -/
theorem SyncLane.syn_eq (hl : SyncLane s vat slot op c k h) : c.syn (Counted s c) = (c.synHere (Counted s c), true) := by
  have hstores : (Counted s c).storesOut c.vat c.slot = false := by
    rw [storesOut_counted, hl.issues.place.1, hl.issues.place.2]
    exact hl.stores
  have hhome : (Counted s c).homeOf c.l.p = (Counted s c).pos := by
    rw [counted_frame]
    exact hl.here
  unfold BCtx.syn
  rw [hstores, Bool.and_false, if_neg (by simp), if_pos hhome]

/-- The one lane is served after the instruction has started. -/
theorem SyncLane.synHere_eq (hl : SyncLane s vat slot op c k h) (hlock : op ≠ 0xB4) (hfree : op ≠ 0xB5) :
    c.synHere (Counted s c) = (c.synLane (c.synStart (Counted s c)) k).quireResume c.vat c.slot false := by
  have hmay : (Counted s c).synMay c.l.p op h = true := (SynServed.of_counted hl.issues).may hl
  unfold BCtx.synHere
  rw [hl.one]
  simp only [List.any_cons, List.any_nil, hl.obj, hmay, hl.issues.code, hlock, hfree, Bool.not_true, Bool.or_self, Bool.false_eq_true,
    if_false, List.foldl_cons, List.foldl_nil]

theorem BCtx.synLane_of_done {t1 : State} {st data : Nat} (hop : c.i.op ≠ 0xB4)
    (hserve : t.synServe (c.synReq t.pos k) (.lane c.vat c.slot k c.i.d) = (t1, .done st data)) :
    c.synLane t k = (if synAcquires c.i.op st then t1.dropL1 c.vat else t1).synWrite c k st data := by
  unfold BCtx.synLane
  rw [hserve]
  exact if_neg hop

/-- An instruction whose lane is done at once, in the state t in which it is served. -/
theorem SyncLane.done (hl : SyncLane s vat slot op c k h) (ht : SynServed s t c) (hlock : op ≠ 0xB4)
    (hhere : c.synHere (Counted s c) = (c.synLane t k).quireResume c.vat c.slot false) {t1 : State} {st data : Nat}
    (hserve : t.synServe (c.synReq t.pos k) (.lane c.vat c.slot k c.i.d) = (t1, .done st data))
    (hrest : t1 = { t with regs := t1.regs }) :
    ∃ u, s.issueMem vat slot op (fun s c => c.syn s) = u ∧ SynDone t1 u c (answered c k st data) (synAcquires op st) := by
  obtain rfl := hl.issues.code
  obtain ⟨w, hquire⟩ := ht.quire
  have hvats : t1.vats = t.vats := by rw [hrest]
  have hquire1 : t1.quire c.vat c.slot = some { c.q with pc := c.i.next, wait := w } := by
    unfold State.quire
    rw [State.vat_congr hvats]
    exact hquire
  have hwaits : t1.sync.waits = [] := by
    rw [hrest]
    exact (congrArg Sync.waits ht.sync).trans hl.noWaits.1
  have hdone := synDone_answer (k := k) hquire1 hwaits (synAcquires c.i.op st) st data
  refine ⟨_, hl.issues.issueMem_eq (k := fun s c => c.syn s) (hl.syn_eq.trans (congrArg (·, true) (hhere.trans (congrArg
    (State.quireResume · c.vat c.slot false) (BCtx.synLane_of_done hlock hserve))))) ?_, hdone⟩
  rw [← hl.issues.place.1, hdone.preempt, State.vat_congr hvats]
  exact ht.preempt

/-- A quire that may issue runs. -/
theorem Issues.wait_eq (hi : Issues s vat slot op c) : c.q.wait = .run := by
  have hready := hi.ready
  unfold State.ready at hready
  split at hready
  next => exact absurd hready (by simp)
  next q hq =>
    split at hready
    next => exact absurd hready (by simp)
    next hwait =>
      split at hready
      next => exact absurd hready (by simp)
      next =>
        split at hready
        next => exact absurd hready (by simp)
        next =>
          obtain ⟨l, -, hl⟩ := Option.map_eq_some_iff.mp hready
          rw [← (Prod.mk.inj hl).1]
          exact not_not.mp hwait

/-- A value in D of the one lane. -/
theorem SyncLane.dWritten_put (hl : SyncLane s vat slot op c k h) (hop : NamesReg op = true) (x : Nat) :
    DWritten c { c.q.putGroup c.i.d (widths c.i).1 k x with pc := c.i.next, wait := .run } fun _ => x := by
  have hgroup := destGroup_of_legal hl.issues.legal (hl.issues.code ▸ hop)
  have hpred : okind c.i.d ≠ .p := by
    obtain ⟨hkind, -⟩ | ⟨hkind, -, -⟩ := hgroup <;> simp [hkind]
  have hwritten := dWritten_of_group hgroup fun _ => x
  have hwait : (c.q.putGroup c.i.d (widths c.i).1 k x).wait = .run := by
    rw [c.q.putGroup_frame]
    exact hl.issues.wait_eq
  rw [hl.one, BCtx.writeD, if_neg hpred] at hwritten
  rw [← hwait]
  exact hwritten

/-- The answer in D, for the operations that have one. -/
theorem SyncLane.dWritten (hl : SyncLane s vat slot op c k h) (hop : NamesReg op = true) (hwords : synWords op = (widths c.i).1)
    (st data : Nat) : DWritten c (answered c k st data) fun _ => if synWords op = 2 then data else st := by
  have hpos : (widths c.i).1 ≠ 0 := by
    obtain hw | hw | hw := widths_cases c.i <;> omega
  unfold answered
  rw [hl.issues.code, hwords, if_neg hpos]
  exact hl.dWritten_put hop _

/-- The quire of an operation without D. -/
theorem SyncLane.answered_none (hl : SyncLane s vat slot op c k h) (hwords : synWords op = 0) (st data : Nat) :
    answered c k st data = { c.q with pc := c.i.next } := by
  unfold answered
  rw [hl.issues.code, if_pos hwords, ← hl.issues.wait_eq]

/-! ### Lanes that wait -/

theorem quire_synStart (c : BCtx) (s : State) (hlock : c.i.op ≠ 0xB4) :
    (c.synStart s).quire c.vat c.slot = some { c.q with pc := c.i.next, wait := .sync } := by
  unfold BCtx.synStart
  rw [if_neg hlock]
  exact State.quire_setQuire_same ..

/-- An instruction whose lane waits. -/
theorem SyncLane.waits (hl : SyncLane s vat slot op c k h) (hlock : op ≠ 0xB4) (hfree : op ≠ 0xB5) {t1 : State}
    (hserve : (c.synStart (Counted s c)).synServe (c.synReq (c.synStart (Counted s c)).pos k) (.lane c.vat c.slot k c.i.d) =
      (t1, .waits)) (hvats : t1.vats = (c.synStart (Counted s c)).vats) (hwaits : t1.laneWaits c.vat c.slot = true) :
    s.issueMem vat slot op (fun s c => c.syn s) = t1 ∧
      t1.quire vat slot = some { c.q with pc := c.i.next, wait := .sync } := by
  have hlane : c.synLane (c.synStart (Counted s c)) k = t1 := by
    unfold BCtx.synLane
    rw [hserve]
  have hresume : t1.quireResume c.vat c.slot false = t1 := by
    unfold State.quireResume
    simp only [Bool.false_eq_true, if_false, hwaits, if_true]
  refine ⟨hl.issues.issueMem_eq (k := fun s c => c.syn s) ?_ ?_, ?_⟩
  · rw [hl.syn_eq, hl.synHere_eq hlock hfree, hlane, hresume]
  · rw [State.vat_congr hvats, ← hl.issues.place.1]
    exact (SynServed.of_counted hl.issues).preempt
  · have hquire := quire_synStart c (Counted s c) (hl.issues.code ▸ hlock)
    unfold State.quire at hquire ⊢
    rw [← hl.issues.place.1, ← hl.issues.place.2, State.vat_congr hvats]
    exact hquire

/-! ### Locks -/

/-- The one lane of a lock instruction, taken out of the lanes that wait. -/
theorem lockLanes_one (hk : k < 32) : BitVec.ofNat 32 (clearBit (BitVec.ofNat 32 (maskOf [k])).toNat k) = 0 := by
  interval_cases k <;> rfl

/-- The lane that has acquired its lock: D holds 0, the vat's L1 lines are dropped, and the quire runs. -/
theorem State.lockLane_acquired {s : State} {vat slot : Nat} {q : Quire} {d : Nat} (hk : k < 32)
    (hquire : s.quire vat slot = some { q with wait := .lock (BitVec.ofNat 32 (maskOf [k])) d [] }) :
    let u := s.lockLane vat slot k 0
    u.quire vat slot = some { q.putReg d k 0 with wait := .run } ∧ u.regs = s.regs ∧ u.mem = s.mem ∧
      (u.vat vat).preempt = (s.vat vat).preempt ∧ (u.vat vat).l1 = [] := by
  let t := (s.setQuire vat slot { q with wait := .lock 0 d [(k, 0)] }).setQuire vat slot { q.putReg d k 0 with wait := .run }
  have hvat : t.vat vat = { s.vat vat with quires := (t.vat vat).quires } := by
    unfold t
    rw [State.vat_setQuire, State.vat_setQuire]
  have hresult : s.lockLane vat slot k 0 = (s.setQuire vat slot { q with wait := .lock 0 d [(k, 0)] }).lockRetire vat slot := by
    unfold State.lockLane
    rw [hquire]
    dsimp only
    rw [QWait.lockResult, lockLanes_one hk]
  have hretire : ∃ b : State, s.lockLane vat slot k 0 = b.setVat vat { b.vat vat with l1 := [] } ∧ b.regs = t.regs ∧
      b.mem = t.mem ∧ b.vat vat = { t.vat vat with blocks := (b.vat vat).blocks } := by
    rw [hresult]
    unfold State.lockRetire
    rw [State.quire_setQuire_same]
    simp only [List.foldl_cons, List.foldl_nil, Quire.putReg_wait, ne_eq, not_true, if_false, List.any_cons, List.any_nil,
      decide_true, Bool.true_or, if_true]
    refine ⟨_, rfl, ?_⟩
    split
    · exact ⟨rfl, rfl, State.vat_setBlock ..⟩
    · exact ⟨rfl, rfl, rfl⟩
  obtain ⟨b, hb, hregs, hmem, hbvat⟩ := hretire
  dsimp only
  rw [hb]
  have hquire' : t.quire vat slot = some { q.putReg d k 0 with wait := .run } := State.quire_setQuire_same ..
  refine ⟨?_, hregs, hmem, ?_, ?_⟩
  · unfold State.quire at hquire' ⊢
    rw [State.vat_setVat_same, hbvat]
    exact hquire'
  · rw [State.vat_setVat_same, hbvat, hvat]
  · rw [State.vat_setVat_same]

/-- A lock instruction whose lane acquires. -/
theorem SyncLane.acquires (hl : SyncLane s vat slot 0xB4 c k h) {t1 : State}
    (hserve : (c.synStart (Counted s c)).synServe (c.synReq (c.synStart (Counted s c)).pos k) (.lane c.vat c.slot k c.i.d) =
      (t1, .done stOk 0)) (hvats : t1.vats = (c.synStart (Counted s c)).vats) :
    ∃ u, s.issueMem vat slot 0xB4 (fun s c => c.syn s) = u ∧
      u.quire vat slot = some { c.q.putReg c.i.d k 0 with pc := c.i.next, wait := .run } ∧ u.regs = t1.regs ∧ u.mem = t1.mem ∧
      (u.vat vat).l1 = [] := by
  obtain ⟨hvat, hslot⟩ := hl.issues.place
  have hk : k < 32 := lt_of_mem_doers (c := c) (hl.one ▸ List.mem_singleton_self k)
  have hstart : (c.synStart (Counted s c)).quire c.vat c.slot = some { c.q with
      pc := c.i.next, wait := .lock (BitVec.ofNat 32 (maskOf [k])) c.i.d [] } := by
    unfold BCtx.synStart
    rw [if_pos hl.issues.code, hl.one]
    exact State.quire_setQuire_same ..
  have hquire1 : t1.quire c.vat c.slot = some { c.q with
      pc := c.i.next, wait := .lock (BitVec.ofNat 32 (maskOf [k])) c.i.d [] } := by
    unfold State.quire at hstart ⊢
    rw [State.vat_congr hvats]
    exact hstart
  obtain ⟨hquire, hregs, hmem, hpreempt, hl1⟩ :=
    State.lockLane_acquired (s := t1) (q := { c.q with pc := c.i.next }) (d := c.i.d) hk hquire1
  have hlane : c.synLane (c.synStart (Counted s c)) k = t1.lockLane c.vat c.slot k 0 := by
    unfold BCtx.synLane
    rw [hserve]
    exact if_pos hl.issues.code
  have hnote : (t1.lockLane c.vat c.slot k 0).noteLockWait c.vat c.slot = t1.lockLane c.vat c.slot k 0 := by
    unfold State.noteLockWait
    rw [hquire]
  have hmay : (Counted s c).synMay c.l.p 0xB4 h = true := (SynServed.of_counted hl.issues).may hl
  have hhere : c.synHere (Counted s c) = t1.lockLane c.vat c.slot k 0 := by
    unfold BCtx.synHere
    rw [hl.one]
    simp only [List.any_cons, List.any_nil, hl.obj, hmay, hl.issues.code, Bool.not_true, Bool.or_self, Bool.false_eq_true,
      if_false, List.foldl_cons, List.foldl_nil, if_true, Nat.reduceEqDiff, hlane, hnote]
  refine ⟨_, hl.issues.issueMem_eq (k := fun s c => c.syn s) (hl.syn_eq.trans (congrArg (·, true) hhere)) ?_, ?_, hregs, hmem, ?_⟩
  · rw [← hvat, hpreempt, State.vat_congr hvats]
    exact (SynServed.of_counted hl.issues).preempt
  · rw [← hvat, ← hslot, hquire, Quire.putReg_with c.q (w := c.q.wait)]
  · rw [← hvat]
    exact hl1

/-- The release of a lock starts the block's patience again. -/
theorem SynServed.of_release (hi : Issues s vat slot op c) :
    SynServed s (c.synStart ((Counted s c).resetPatience c.vat c.q.block)) c := by
  have hreset : ∃ vats, (Counted s c).resetPatience c.vat c.q.block = { Counted s c with vats := vats } ∧
      ∀ v, ((Counted s c).resetPatience c.vat c.q.block).vat v = { (Counted s c).vat v with
        blocks := (((Counted s c).resetPatience c.vat c.q.block).vat v).blocks } := by
    unfold State.resetPatience
    split
    · exact ⟨_, rfl, fun v => State.vat_setBlock ..⟩
    · exact ⟨_, rfl, fun v => rfl⟩
  obtain ⟨vats, hvats, hblocks⟩ := hreset
  refine synServed_synStart hi (fun v => ?_) ?_ ?_
  · rw [hblocks, vat_counted]
  · rw [hvats]
    exact countersOnly_counted s c hi.vat_lt
  · rw [hvats, counted_frame]

theorem SyncLane.synHere_release (hl : SyncLane s vat slot 0xB5 c k h) : c.synHere (Counted s c) =
    (c.synLane (c.synStart ((Counted s c).resetPatience c.vat c.q.block)) k).quireResume c.vat c.slot false := by
  have hmay : (Counted s c).synMay c.l.p 0xB5 h = true := (SynServed.of_counted hl.issues).may hl
  unfold BCtx.synHere
  rw [hl.one]
  simp only [List.any_cons, List.any_nil, hl.obj, hmay, hl.issues.code, Bool.not_true, Bool.or_self, Bool.false_eq_true,
    if_false, List.foldl_cons, List.foldl_nil, if_true, Nat.reduceEqDiff]

/-! ### The lock's owner -/

theorem lockIdent_lt (s : State) (vat slot : Fin 64) (hk : k < 32) : lockIdent s.pos vat slot k < 2 ^ 63 := by
  have hpos : s.pos < 16 := s.pins.straps.pos.isLt
  unfold lockIdent
  omega

theorem State.lockOwner_congr (hrd : u.rd .SYN_OBJ_AUX h = t.rd .SYN_OBJ_AUX h) : u.lockOwner h = t.lockOwner h := by
  unfold State.lockOwner
  rw [hrd]

theorem State.lockOwner_wr_held {ident : Nat} (hident : ident < 2 ^ 63) :
    (t.wr .SYN_OBJ_AUX (lockHeld ident) h).lockOwner h = some ident := by
  have hread : (t.wr .SYN_OBJ_AUX (lockHeld ident) h).rd .SYN_OBJ_AUX h = 2 ^ 63 + ident :=
    (State.rd_wr_same ..).trans (Nat.mod_eq_of_lt (by
      have hw : Field.SYN_OBJ_AUX.width = 64 := rfl
      rw [hw, lockHeld]
      omega))
  unfold State.lockOwner
  rw [hread]
  have hbit : bitAt (2 ^ 63 + ident) 63 = true := by
    simp only [bitAt, beq_iff_eq]
    omega
  simp only [hbit, if_true]
  congr 1
  omega

theorem State.lockOwner_wr_free : (t.wr .SYN_OBJ_AUX 0 h).lockOwner h = none := by
  have hread : (t.wr .SYN_OBJ_AUX 0 h).rd .SYN_OBJ_AUX h = 0 := State.rd_wr_same ..
  unfold State.lockOwner
  rw [hread]
  rfl

/-! ### Events -/

/-- The USER records of a list of lanes, at a disabled queue: the kind is pending. -/
theorem State.raisePart_foldl {p : Nat} {e : State → Nat → Ev} (he : ∀ s n, (e s n).kind = 2) (hp : p < 32) (l : List Nat)
    (hhome : s.homed p = true) (hoff : s.rd .EVQ_CTRL_EN (s.driverTarget p) = 0) :
    let u := l.foldl (fun s n => s.raisePart p (e s n)) s
    u = { s with regs := u.regs } ∧ ((l ≠ [] ∨ kindBit (s.rd .EVQ_PEND_PEND (s.driverTarget p)) 2 = true) →
      kindBit (u.rd .EVQ_PEND_PEND (s.driverTarget p)) 2 = true) := by
  induction l generalizing s with
  | nil => exact ⟨rfl, fun h => h.resolve_left fun hne => hne rfl⟩
  | cons n l ih =>
    have ht : s.driverTarget p < 65536 := by
      have := s.driverTarget_le hp
      omega
    let v := setBit (s.rd .EVQ_PEND_PEND (s.driverTarget p)) 1
    let s1 := s.wr .EVQ_PEND_PEND v (s.driverTarget p)
    have hraise : s.raisePart p (e s n) = s1 := by
      rw [State.raisePart_of_homed _ hhome, State.raise_of_disabled ht hoff, he]
    have htarget : s1.driverTarget p = s.driverTarget p := State.driverTarget_congr (s := s) (u := s1) rfl rfl
      (State.rd_wr_field _ ht (by decide) (by decide) (by decide) (by decide)) p
    have hoff1 : s1.rd .EVQ_CTRL_EN (s1.driverTarget p) = 0 := by
      rw [htarget, State.rd_wr_field _ ht (by decide) ht (by decide) (by decide)]
      exact hoff
    have hbit : kindBit (s1.rd .EVQ_PEND_PEND (s1.driverTarget p)) 2 = true := by
      rw [htarget]
      exact (bitAt_rd_wr_same _ _ (by decide)).trans (kindBit_setBit _ (k := 2))
    obtain ⟨hrest, hpend⟩ := ih ((State.homed_congr (s := s) (u := s1) rfl rfl p).trans hhome) hoff1
    rw [List.foldl_cons, hraise]
    exact ⟨hrest, fun _ => htarget ▸ hpend (.inr hbit)⟩

theorem Issues.lanes_ne_nil (hi : Issues s vat slot op c) : c.lanes ≠ [] := by
  intro hnil
  refine hi.lanes (Nat.eq_of_testBit_eq fun n => ?_)
  rw [Nat.zero_testBit, ← bitAt_eq_testBit]
  by_cases hn : n < 32
  · have hnot : n ∉ c.lanes := by simp [hnil]
    simpa [BCtx.lanes, mem_bitIdx, hn] using hnot
  · rw [bitAt_eq_testBit]
    refine Nat.testBit_lt_two_pow (lt_of_lt_of_le (lt_of_le_of_lt Nat.and_le_left c.q.active.isLt) ?_)
    exact Nat.pow_le_pow_right (by decide) (by omega)

theorem Issues.event (hi : Issues s vat slot 0xB7 c) (hstores : s.storesOut vat slot = false) (hp : c.l.p < 32)
    (hhome : s.homed c.l.p = true) (hoff : s.rd .EVQ_CTRL_EN (s.driverTarget c.l.p) = 0) :
    ∃ u, exec (.synEvent vat slot) s = .next u ∧ u.quire vat slot = some { c.q with pc := c.i.next } ∧
      kindBit (u.rd .EVQ_PEND_PEND (s.driverTarget c.l.p)) 2 = true ∧ u.mem = s.mem := by
  obtain ⟨hvat, hslot⟩ := hi.place
  let t := Counted s c
  have hread : ∀ f ∈ [Field.GLB_FLR_STATUS_RUNNING, .EVQ_CTRL_EN], ∀ j < 65536, t.rd f j = s.rd f j := fun f hf j hj => by
    refine countersOnly_counted s c hi.vat_lt f j 0 hj (by decide) fun hmem => ?_
    simp only [List.mem_cons, Prod.mk.injEq, List.not_mem_nil, or_false] at hmem
    obtain ⟨rfl, -⟩ | ⟨rfl, -⟩ | ⟨rfl, -⟩ := hmem <;> exact absurd hf (by decide)
  have hframe : t = { s with regs := t.regs, vats := t.vats } := counted_frame s c
  have htarget : t.driverTarget c.l.p = s.driverTarget c.l.p :=
    State.driverTarget_congr (s := s) (u := t) (by rw [hframe]) (by rw [hframe]) (hread _ (by simp) 0 (by decide)) _
  have hlt := s.driverTarget_le hp
  have hhome' : t.homed c.l.p = true :=
    (State.homed_congr (s := s) (u := t) (by rw [hframe]) (by rw [hframe]) _).trans hhome
  have hoff' : t.rd .EVQ_CTRL_EN (t.driverTarget c.l.p) = 0 := by
    rw [htarget, hread _ (by simp) _ (by omega)]
    exact hoff
  obtain ⟨hrest, hpend⟩ := State.raisePart_foldl (e := fun s n => synEventEv c.l.p s.pos c.vat c.slot (c.opB n))
    (fun _ _ => rfl) hp c.lanes hhome' hoff'
  have hstores' : t.storesOut c.vat c.slot = false := by
    rw [storesOut_counted, hvat, hslot]
    exact hstores
  refine ⟨_, congrArg Host.Outcome.next (hi.issueMem_eq (k := fun s c => c.synEvent s) (if_neg (by simp [t, hstores'])) ?_), ?_,
    ?_, ?_⟩
  · rw [BCtx.done, preempt_put, hrest]
    exact (preempt_counted ..).trans hi.calm
  · rw [← hvat, ← hslot]
    exact State.quire_setQuire_same ..
  · exact htarget ▸ hpend (.inl hi.lanes_ne_nil)
  · exact (congrArg State.mem hrest).trans (mem_counted s c)

end

/-! ### O36 -/

section
variable {s : State} {vat slot : Fin 64} {op k h : Nat} {c : BCtx}

/-- The state in which the sync unit serves the lane. -/
def served (s : State) (c : BCtx) : State := c.synStart (Counted s c)

theorem SyncLane.synServed (hl : SyncLane s vat slot op c k h) : SynServed s (served s c) c := SynServed.of_counted hl.issues

theorem SyncLane.served_rd (hl : SyncLane s vat slot op c k h) {f : Field} (hf : f ∈ synFields) :
    (served s c).rd f h = s.rd f h :=
  hl.synServed.rd hf (Nat.lt_trans hl.small (by decide))

theorem SyncLane.served_may (hl : SyncLane s vat slot op c k h) {t : State} (ht : SynServed s t c) :
    t.synMay (c.synReq t.pos k).p (c.synReq t.pos k).op (c.synReq t.pos k).h = true := by
  rw [hl.synReq_eq]
  exact ht.may hl

theorem SyncLane.served_noWaits (hl : SyncLane s vat slot op c k h) {t : State} (ht : SynServed s t c) : t.sync.waits = [] := by
  rw [ht.sync]
  exact hl.noWaits.1

theorem SyncLane.op_eq (hl : SyncLane s vat slot op c k h) (pos : Nat) : (c.synReq pos k).op = op := by rw [hl.synReq_eq]
theorem SyncLane.h_eq (hl : SyncLane s vat slot op c k h) (pos : Nat) : (c.synReq pos k).h = h := by rw [hl.synReq_eq]

theorem SyncLane.quire_eq (hl : SyncLane s vat slot op c k h) {u : State} {q : Quire} (hq : u.quire c.vat c.slot = some q) :
    u.quire vat slot = some q := by
  rw [← hl.issues.place.1, ← hl.issues.place.2]
  exact hq

theorem SyncLane.served_lockOwner (hl : SyncLane s vat slot op c k h) {t : State} (ht : SynServed s t c) :
    t.lockOwner h = s.lockOwner h :=
  State.lockOwner_congr (ht.rd (by decide) (Nat.lt_trans hl.small (by decide)))

/-- A write of the object's VALUE in the state in which the lane is served. -/
theorem SyncLane.served_setValue (hl : SyncLane s vat slot op c k h) (v : Nat) :
    (served s c).setValue h v = (served s c).wr .SYN_OBJ_VALUE v h :=
  State.setValue_of_quiet (hl.synServed.noArms hl.noArms) (hl.served_noWaits hl.synServed) (Nat.lt_trans hl.small (by decide)) v

/-- An operation that is done at once leaves the answer in the quire. -/
theorem SyncLane.done_here (hl : SyncLane s vat slot op c k h) (hlock : op ≠ 0xB4) (hfree : op ≠ 0xB5) {t1 : State} {st data : Nat}
    (hserve : (served s c).synServe (c.synReq (served s c).pos k) (.lane c.vat c.slot k c.i.d) = (t1, .done st data))
    (hrest : t1 = { served s c with regs := t1.regs }) :
    ∃ u, s.issueMem vat slot op (fun s c => c.syn s) = u ∧ SynDone t1 u c (answered c k st data) (synAcquires op st) ∧
      u.mem = s.mem := by
  obtain ⟨u, hu, hd⟩ := hl.done hl.synServed hlock (hl.synHere_eq hlock hfree) hserve hrest
  refine ⟨u, hu, hd, hd.mem.trans ?_⟩
  rw [hrest]
  exact hl.synServed.mem

theorem wrapN_lt (n : Nat) (x : Int) : wrapN n x < 2 ^ n := by
  have hpos : (0 : Int) < (2 ^ n : Nat) := by exact_mod_cast Nat.two_pow_pos n
  have hlt := Int.emod_lt_of_pos x hpos
  have hnonneg := Int.emod_nonneg x hpos.ne'
  unfold wrapN
  omega

theorem SyncLane.signal (hl : SyncLane s vat slot 0xB0 c k h) :
    ∃ u, exec (.synSignal vat slot) s = .next u ∧ u.quire vat slot = some { c.q with pc := c.i.next } ∧
      u.rd .SYN_OBJ_VALUE h = max (s.rd .SYN_OBJ_VALUE h) (c.opB k) % 2 ^ 64 ∧ u.mem = s.mem := by
  have hserve : (served s c).synServe (c.synReq (served s c).pos k) (.lane c.vat c.slot k c.i.d) =
      ((served s c).wr .SYN_OBJ_VALUE (max (s.rd .SYN_OBJ_VALUE h) (c.opB k)) h, .done stOk 0) := by
    rw [State.synServe_signal (hl.served_may hl.synServed) (hl.op_eq _), State.signal, hl.h_eq,
      hl.served_setValue, State.objValue, hl.served_rd (by decide), hl.synReq_eq]
    rfl
  obtain ⟨u, hu, hd, hmem⟩ := hl.done_here (by decide) (by decide) hserve rfl
  refine ⟨u, congrArg Host.Outcome.next hu, hl.quire_eq (hd.quire.trans (congrArg some (hl.answered_none rfl _ _))), ?_, hmem⟩
  exact (State.rd_congr hd.regs ..).trans (State.rd_wr_same ..)

theorem SyncLane.add (hl : SyncLane s vat slot 0xB1 c k h) :
    ∃ u q, exec (.synAdd vat slot) s = .next u ∧ u.quire vat slot = some q ∧ DWritten c q (fun _ => s.rd .SYN_OBJ_VALUE h) ∧
      u.rd .SYN_OBJ_VALUE h = wrapN 64 (s.rd .SYN_OBJ_VALUE h + sext 32 (c.opB k % 2 ^ 32)) ∧ u.mem = s.mem := by
  have hserve : (served s c).synServe (c.synReq (served s c).pos k) (.lane c.vat c.slot k c.i.d) =
      ((served s c).wr .SYN_OBJ_VALUE (wrapN 64 (s.rd .SYN_OBJ_VALUE h + sext 32 (c.opB k % 2 ^ 32))) h,
        .done stOk (s.rd .SYN_OBJ_VALUE h)) := by
    rw [State.synServe_add (hl.served_may hl.synServed) (hl.op_eq _), State.counterAdd, hl.h_eq,
      hl.served_setValue, State.objValue, hl.served_rd (by decide), hl.synReq_eq]
    rfl
  obtain ⟨u, hu, hd, hmem⟩ := hl.done_here (by decide) (by decide) hserve rfl
  have hwords : synWords 0xB1 = (widths c.i).1 := by simp [widths, opSpec, hl.issues.code, synWords]
  refine ⟨u, _, congrArg Host.Outcome.next hu, hl.quire_eq hd.quire, hl.dWritten rfl hwords _ _, ?_, hmem⟩
  exact (State.rd_congr hd.regs ..).trans ((State.rd_wr_same ..).trans (Nat.mod_eq_of_lt (wrapN_lt 64 _)))

/-- The threshold of a lane's wait, at a live object. -/
theorem SyncLane.waitStart_eq (hl : SyncLane s vat slot 0xB2 c k h) (hstate : s.rd .SYN_OBJ_STATE h = 0) :
    (served s c).waitStart (c.synReq (served s c).pos k).h (c.synReq (served s c).pos k).arg =
      if c.opB k ≤ s.rd .SYN_OBJ_VALUE h then some stOk else none := by
  have htype : (served s c).objType h ≠ 0 := by
    intro hfree
    have hmay := hl.synServed.may hl
    simp [State.synMay, hfree] at hmay
  have hlive : (served s c).objState h = 0 := (hl.served_rd (by decide)).trans hstate
  have hvalue : (served s c).objValue h = s.rd .SYN_OBJ_VALUE h := hl.served_rd (by decide)
  rw [hl.synReq_eq, State.waitStart_of_live htype hlive, hvalue]
  rfl

theorem SyncLane.wait_met (hl : SyncLane s vat slot 0xB2 c k h) (hstate : s.rd .SYN_OBJ_STATE h = 0)
    (hmet : c.opB k ≤ s.rd .SYN_OBJ_VALUE h) :
    ∃ u q, exec (.synWait vat slot) s = .next u ∧ u.quire vat slot = some q ∧ DWritten c q (fun _ => 0) ∧
      (u.vat vat).l1 = [] ∧ CountersOnly s u vat ∧ u.mem = s.mem := by
  have hserve := State.synServe_wait_met (who := .lane c.vat c.slot k c.i.d) (hl.served_may hl.synServed) (hl.op_eq _)
    ((hl.waitStart_eq hstate).trans (if_pos hmet))
  obtain ⟨u, hu, hd, hmem⟩ := hl.done_here (by decide) (by decide) hserve rfl
  have hwords : synWords 0xB2 = (widths c.i).1 := by simp [widths, opSpec, hl.issues.code, synWords]
  refine ⟨u, _, congrArg Host.Outcome.next hu, hl.quire_eq hd.quire, hl.dWritten rfl hwords _ _, ?_, ?_, hmem⟩
  · rw [← hl.issues.place.1]
    exact hd.l1
  · rw [← hl.issues.place.1]
    exact RegsKept.of_regs hd.regs hl.synServed.regs

theorem SyncLane.wait_not (hl : SyncLane s vat slot 0xB2 c k h) (hstate : s.rd .SYN_OBJ_STATE h = 0)
    (hnot : s.rd .SYN_OBJ_VALUE h < c.opB k) :
    ∃ u, exec (.synWait vat slot) s = .next u ∧ u.quire vat slot = some { c.q with pc := c.i.next, wait := .sync } ∧
      (∃ w, u.sync.waits = [w] ∧ w.obj = h ∧ w.threshold = c.opB k ∧ w.who = .lane vat slot k c.i.d ∧ w.notice = none) ∧
      u.mem = s.mem := by
  have hserve : (served s c).synServe (c.synReq (served s c).pos k) (.lane c.vat c.slot k c.i.d) =
      ((served s c).addWait h (c.opB k) (c.synReq (served s c).pos k).timeout (.lane c.vat c.slot k c.i.d) c.l.p, .waits) := by
    rw [State.synServe_wait_not (hl.served_may hl.synServed) (hl.op_eq _)
      ((hl.waitStart_eq hstate).trans (if_neg (by omega))), hl.synReq_eq]
    rfl
  have hnone : (served s c).sync.waits = [] := hl.served_noWaits hl.synServed
  obtain ⟨hu, hquire⟩ := hl.waits (by decide) (by decide) hserve rfl (by
    change List.any ((served s c).sync.waits ++ [_]) _ = true
    simp)
  refine ⟨_, congrArg Host.Outcome.next hu, hquire, ⟨_, congrArg (· ++ _) hnone, rfl, rfl, ?_, rfl⟩, hl.synServed.mem⟩
  rw [hl.issues.place.1, hl.issues.place.2]

theorem SyncLane.read (hl : SyncLane s vat slot 0xB3 c k h) (htype : s.rd .SYN_OBJ_TYPE h ≠ 2) :
    WritesD (.synRead vat slot) s c (fun _ => s.rd .SYN_OBJ_VALUE h) := by
  have hserve : (served s c).synServe (c.synReq (served s c).pos k) (.lane c.vat c.slot k c.i.d) =
      (served s c, .done stOk (s.rd .SYN_OBJ_VALUE h)) := by
    rw [State.synServe_read (hl.served_may hl.synServed) (hl.op_eq _), State.objValue, hl.h_eq, hl.served_rd (by decide)]
    rw [hl.h_eq, State.objType, hl.served_rd (by decide)]
    exact htype
  obtain ⟨u, hu, hd, -⟩ := hl.done_here (by decide) (by decide) hserve rfl
  have hwords : synWords 0xB3 = (widths c.i).1 := by simp [widths, opSpec, hl.issues.code, synWords]
  refine ⟨u, _, congrArg Host.Outcome.next hu, hd.quire, hl.dWritten rfl hwords _ _, ?_⟩
  have hothers : OthersKept s (served s c) c.vat c.slot := (onlyQuire_put_counted s c _ hl.issues.vat_lt).2.1
  refine ⟨RegsKept.of_regs hd.regs hl.synServed.regs, hothers.trans (hd.others rfl), ?_⟩
  · rw [hd.regs]
    conv_lhs => rw [hd.rest, hl.synServed.rest]

theorem SyncLane.acquire (hl : SyncLane s vat slot 0xB4 c k h) (howner : s.lockOwner h = none) :
    ∃ u q, exec (.lockAcq vat slot) s = .next u ∧ u.quire vat slot = some q ∧ DWritten c q (fun _ => 0) ∧
      u.lockOwner h = some (s.pos * 2 ^ 17 + vat.val * 2 ^ 11 + slot.val * 2 ^ 5 + k) ∧ (u.vat vat).l1 = [] ∧
      u.mem = s.mem := by
  have hident : lockIdent s.pos c.vat c.slot k = s.pos * 2 ^ 17 + vat.val * 2 ^ 11 + slot.val * 2 ^ 5 + k := by
    rw [← hl.issues.place.1, ← hl.issues.place.2]
    rfl
  have hserve : (served s c).synServe (c.synReq (served s c).pos k) (.lane c.vat c.slot k c.i.d) =
      ((served s c).wr .SYN_OBJ_AUX (lockHeld (lockIdent s.pos c.vat c.slot k)) h, .done stOk 0) := by
    rw [State.synServe_acquire (hl.served_may hl.synServed) (hl.op_eq _), hl.h_eq, hl.synReq_eq, hl.synServed.pos]
    rw [hl.h_eq, hl.served_lockOwner hl.synServed]
    exact howner
  obtain ⟨u, hu, hquire, hregs, hmem, hl1⟩ := hl.acquires hserve rfl
  refine ⟨u, _, congrArg Host.Outcome.next hu, hquire, ?_, ?_, hl1, hmem.trans hl.synServed.mem⟩
  · have hwords : 1 = (widths c.i).1 := by simp [widths, opSpec, hl.issues.code]
    have hput := hl.dWritten_put rfl 0
    rw [← hwords, Quire.putGroup_one] at hput
    exact hput
  · rw [← hident, State.lockOwner_congr (h := h) (State.rd_congr hregs ..), hl.issues.place.1, hl.issues.place.2]
    exact State.lockOwner_wr_held (lockIdent_lt s vat slot (lt_of_mem_doers (c := c) (hl.one ▸ List.mem_singleton_self k)))

theorem SyncLane.release (hl : SyncLane s vat slot 0xB5 c k h)
    (howner : s.lockOwner h = some (s.pos * 2 ^ 17 + vat.val * 2 ^ 11 + slot.val * 2 ^ 5 + k)) :
    ∃ u, exec (.lockRel vat slot) s = .next u ∧ u.quire vat slot = some { c.q with pc := c.i.next } ∧
      u.lockOwner h = none ∧ u.mem = s.mem := by
  have ht := SynServed.of_release hl.issues
  have hident : lockIdent s.pos c.vat c.slot k = s.pos * 2 ^ 17 + vat.val * 2 ^ 11 + slot.val * 2 ^ 5 + k := by
    rw [← hl.issues.place.1, ← hl.issues.place.2]
    rfl
  have hserve := State.synServe_release (who := .lane c.vat c.slot k c.i.d) (hl.served_may ht) (hl.op_eq _)
    (by rw [hl.synReq_eq, hl.served_lockOwner ht, howner, ht.pos, hident])
    (by rw [ht.sync]; exact hl.noWaits.2)
  obtain ⟨u, hu, hd⟩ := hl.done ht (by decide) hl.synHere_release hserve rfl
  refine ⟨u, congrArg Host.Outcome.next hu, hl.quire_eq (hd.quire.trans (congrArg some (hl.answered_none rfl _ _))), ?_,
    hd.mem.trans ht.mem⟩
  rw [State.lockOwner_congr (State.rd_congr hd.regs ..), hl.h_eq]
  exact State.lockOwner_wr_free

theorem SyncLane.arrive_other (hl : SyncLane s vat slot 0xB6 c k h) (haux : s.rd .SYN_OBJ_AUX h < 2 ^ 32) {v : Nat}
    (hv : s.rd .SYN_OBJ_VALUE h / 2 ^ 32 * 2 ^ 32 + (s.rd .SYN_OBJ_VALUE h % 2 ^ 32 + 1) = v) (hsmall : v < 2 ^ 64)
    (hless : s.rd .SYN_OBJ_VALUE h % 2 ^ 32 + 1 < s.rd .SYN_OBJ_AUX h) :
    ∃ u, exec (.synArrive vat slot) s = .next u ∧ u.quire vat slot = some { c.q with pc := c.i.next, wait := .sync } ∧
      u.rd .SYN_OBJ_VALUE h = v ∧ u.mem = s.mem := by
  have hvalue : (served s c).objValue h = s.rd .SYN_OBJ_VALUE h := hl.served_rd (by decide)
  have hparts : (served s c).rd .SYN_OBJ_AUX h = s.rd .SYN_OBJ_AUX h := hl.served_rd (by decide)
  have hserve := State.synServe_arrive_other (who := .lane c.vat c.slot k c.i.d) (hl.served_may hl.synServed) (hl.op_eq _)
    (v := v) (by rw [hl.h_eq, hvalue, hv]) (by rw [hl.h_eq, hvalue, hparts, Nat.mod_eq_of_lt haux]; omega)
  rw [hl.h_eq] at hserve
  obtain ⟨hu, hquire⟩ := hl.waits (by decide) (by decide) hserve rfl (by
    change List.any ((served s c).sync.waits ++ [_]) _ = true
    simp)
  refine ⟨_, congrArg Host.Outcome.next hu, hquire, ?_, hl.synServed.mem⟩
  exact (State.rd_wr_same ..).trans (Nat.mod_eq_of_lt hsmall)

theorem SyncLane.arrive_last (hl : SyncLane s vat slot 0xB6 c k h) (haux : s.rd .SYN_OBJ_AUX h < 2 ^ 32) {v : Nat}
    (hv : (s.rd .SYN_OBJ_VALUE h / 2 ^ 32 + 1) % 2 ^ 32 * 2 ^ 32 = v) (hsmall : v < 2 ^ 64)
    (hlast : s.rd .SYN_OBJ_VALUE h % 2 ^ 32 + 1 = s.rd .SYN_OBJ_AUX h) :
    ∃ u q, exec (.synArrive vat slot) s = .next u ∧ u.quire vat slot = some q ∧ DWritten c q (fun _ => 0) ∧
      u.rd .SYN_OBJ_VALUE h = v ∧ u.mem = s.mem := by
  have hvalue : (served s c).objValue h = s.rd .SYN_OBJ_VALUE h := hl.served_rd (by decide)
  have hparts : (served s c).rd .SYN_OBJ_AUX h = s.rd .SYN_OBJ_AUX h := hl.served_rd (by decide)
  have hserve := State.synServe_arrive_last (v := v) (who := .lane c.vat c.slot k c.i.d) (hl.served_may hl.synServed) (hl.op_eq _)
    (hl.served_noWaits hl.synServed) (by rw [hl.h_eq, hvalue, hv])
    (by rw [hl.h_eq, hvalue, hparts, Nat.mod_eq_of_lt haux, hlast])
  rw [hl.h_eq] at hserve
  obtain ⟨u, hu, hd, hmem⟩ := hl.done_here (by decide) (by decide) hserve rfl
  have hwords : synWords 0xB6 = (widths c.i).1 := by simp [widths, opSpec, hl.issues.code, synWords]
  refine ⟨u, _, congrArg Host.Outcome.next hu, hl.quire_eq hd.quire, hl.dWritten rfl hwords _ _, ?_, hmem⟩
  exact (State.rd_congr hd.regs ..).trans ((State.rd_wr_same ..).trans (Nat.mod_eq_of_lt hsmall))

end

/-- Settles O36. -/
theorem syncInstructionsAct : Obligations.SyncInstructionsAct := by
  intro s vat slot c k h
  refine ⟨fun hl => hl.signal, fun hl => hl.add, fun hl hstate hmet => hl.wait_met hstate hmet,
    fun hl hstate hnot => hl.wait_not hstate hnot, fun hl htype => hl.read htype, fun hl howner => hl.acquire howner,
    fun hl howner => hl.release howner, fun hl hvalue haux => ⟨fun hless => ?_, fun hlast => ?_⟩,
    fun hi hstores hp hhome hoff => hi.event hstores hp hhome hoff⟩
  · exact hl.arrive_other haux (by omega) (by omega) hless
  · exact hl.arrive_last haux rfl (by omega) hlast

end Sys2Proof.Claims

end

