-- ==== Sys2Proof/Proofs/DeviceHeap.lean ====
section
/-!
PROOF. HALLOC and HFREE of one lane (R119, R273 to R275).
-/

namespace Sys2Proof.Machine

section
variable {s : State} {p n k a : Nat}

theorem State.heap_setHeap_same (h : Heap) : (s.setHeap p h).heap p = h := by
  unfold State.heap State.setHeap
  rw [storeGet_set, if_pos rfl]

/-- What is taken from a list with elements is one of them. -/
theorem State.pick_mem {l : List Nat} (h : l ≠ []) : (s.pick l).2 ∈ l := by
  have hlt : (Config.undefinedWord s.free).toNat % l.length < l.length := Nat.mod_lt _ (List.length_pos_of_ne_nil h)
  have hget : (s.pick l).2 = l.getD ((Config.undefinedWord s.free).toNat % l.length) 0 := rfl
  rw [hget, List.getD_eq_getElem _ _ hlt]
  exact List.getElem_mem hlt

/-- An allocation from a slab of the class: one of its free blocks becomes live. -/
theorem State.halloc_of_free (hclass : heapClass n = some k)
    (hfree : (s.heap p).freeBlocks (s.addrOf .HB_HEAP_BASE_ADDR p) k ≠ []) :
    ∃ x t, s.halloc p n = (t, x) ∧ x ∈ (s.heap p).freeBlocks (s.addrOf .HB_HEAP_BASE_ADDR p) k ∧
      t.heap p = { s.heap p with live := storePut x k (s.heap p).live } ∧ t = { s with free := t.free, heaps := t.heaps } := by
  obtain ⟨a, l, hl⟩ := List.exists_cons_of_ne_nil hfree
  refine ⟨(s.pick (a :: l)).2, (s.pick (a :: l)).1.setHeap p
    { s.heap p with live := storePut (s.pick (a :: l)).2 k (s.heap p).live }, ?_, ?_, State.heap_setHeap_same _, rfl⟩
  · unfold State.halloc State.heapTake
    rw [hclass]
    dsimp only
    rw [hl]
  · rw [hl]
    exact State.pick_mem (List.cons_ne_nil a l)

theorem State.halloc_of_no_class (hclass : heapClass n = none) : s.halloc p n = (s.count .HB_HEAP_STAT_FAILED 1 p, 0) := by
  unfold State.halloc
  rw [hclass]

/-- A live block that is freed is live no more. -/
theorem State.hfree_of_live (ha : a ≠ 0) (hlive : storeFind (s.heap p).live a = some k) :
    ∃ h, s.hfree p a = s.setHeap p h ∧ h.live = storeErase (s.heap p).live a := by
  unfold State.hfree
  rw [if_neg ha]
  dsimp only
  rw [hlive]
  exact ⟨_, rfl, rfl⟩

/-- What HALLOC does in its lanes. -/
def BCtx.hallocLanes (s : State) (c : BCtx) : State :=
  let r := c.doers.foldl (fun (acc : State × List (Nat × Nat)) n =>
    let (s1, a) := acc.1.halloc c.l.p (c.opA n)
    (s1, acc.2 ++ [(n, a)])) (s, [])
  c.done r.1 (c.writeD r.2)

/-- What HFREE does in its lanes. -/
def BCtx.hfreeLanes (s : State) (c : BCtx) : State := c.done (c.lanes.foldl (fun s n => s.hfree c.l.p (c.opA n)) s) c.q

theorem exec_halloc (vat slot : Fin 64) : exec (.halloc vat slot) s = .next (s.issue vat slot 0xC8 BCtx.hallocLanes) := rfl
theorem exec_hfree (vat slot : Fin 64) : exec (.hfree vat slot) s = .next (s.issue vat slot 0xC9 BCtx.hfreeLanes) := rfl

end

end Sys2Proof.Machine

namespace Sys2Proof.Claims

open Sys2Proof Sys2Proof.Machine

section
variable {s t : State} {vat slot : Fin 64} {op k n : Nat} {c : BCtx} {q : Quire}

theorem heaps_counted (s : State) (c : BCtx) : (Counted s c).heaps = s.heaps := by rw [counted_frame]

/-- An instruction that changes no vat and then puts its quire. -/
theorem Issues.issue_done (hi : Issues s vat slot op c) {k : State → BCtx → State} (hk : k (Counted s c) c = c.done t q)
    (hvats : t.vats = (Counted s c).vats) :
    ∃ u, s.issue vat slot op k = u ∧ u.quire vat slot = some { q with pc := c.i.next } ∧ u = { t with vats := u.vats } := by
  have hcalm : ((c.done t q).vat vat).preempt = [] := by
    rw [BCtx.done, preempt_put, State.vat_congr hvats, preempt_counted]
    exact hi.calm
  refine ⟨c.done t q, by rw [hi.issue_eq, hk, State.trySave_of_calm _ hcalm], ?_, rfl⟩
  rw [← hi.place.1, ← hi.place.2]
  exact State.quire_setQuire_same ..

/-- Counting the instruction keeps the registers of the heap. -/
theorem Issues.rd_counted_heap (hi : Issues s vat slot op c) {f : Field} (hf : f ∈ [Field.HB_HEAP_BASE_ADDR, .HB_HEAP_STAT_FAILED])
    {p : Nat} (hp : p < 32) : (Counted s c).rd f p = s.rd f p := by
  refine countersOnly_counted s c hi.vat_lt f p 0 (by omega) (by decide) fun hmem => ?_
  simp only [List.mem_cons, Prod.mk.injEq, List.not_mem_nil, or_false] at hmem
  obtain ⟨rfl, -⟩ | ⟨rfl, -⟩ | ⟨rfl, -⟩ := hmem <;> exact absurd hf (by decide)

theorem heap_counted (s : State) (c : BCtx) (p : Nat) : (Counted s c).heap p = s.heap p := by
  unfold State.heap
  rw [heaps_counted]

/-- HALLOC of the one lane k, whose block is at x. -/
theorem Issues.halloc (hi : Issues s vat slot 0xC8 c) (hone : c.doers = [k]) {x : Nat}
    (htake : (Counted s c).halloc c.l.p (c.opA k) = (t, x)) (hvats : t.vats = (Counted s c).vats) :
    ∃ u q, exec (.halloc vat slot) s = .next u ∧ u.quire vat slot = some q ∧ DWritten c q (fun _ => x) ∧
      u = { t with vats := u.vats } := by
  have hk : BCtx.hallocLanes (Counted s c) c = c.done t (c.writeD [(k, x)]) := by
    unfold BCtx.hallocLanes
    rw [hone, List.foldl_cons, List.foldl_nil]
    dsimp only
    rw [htake]
    rfl
  obtain ⟨u, hu, hquire, hrest⟩ := hi.issue_done hk hvats
  refine ⟨u, _, congrArg Host.Outcome.next hu, hquire, ?_, hrest⟩
  have hgroup := destGroup_of_legal hi.legal (by rw [hi.code]; rfl)
  have hwritten := dWritten_of_group hgroup fun _ => x
  rw [hone] at hwritten
  exact hwritten

theorem Issues.halloc_free (hi : Issues s vat slot 0xC8 c) (hp : c.l.p < 32) (hone : c.doers = [k])
    (hclass : heapClass (c.opA k) = some n)
    (hfree : (s.heap c.l.p).freeBlocks (s.addrOf .HB_HEAP_BASE_ADDR c.l.p) n ≠ []) :
    ∃ u q a, exec (.halloc vat slot) s = .next u ∧ u.quire vat slot = some q ∧ DWritten c q (fun _ => a) ∧
      a ∈ (s.heap c.l.p).freeBlocks (s.addrOf .HB_HEAP_BASE_ADDR c.l.p) n ∧
      (∀ x, storeFind (u.heap c.l.p).live x = if x = a then some n else storeFind (s.heap c.l.p).live x) ∧
      (u.heap c.l.p).slabs = (s.heap c.l.p).slabs ∧ CountersOnly s u vat ∧ u.mem = s.mem := by
  have hbase : (Counted s c).addrOf .HB_HEAP_BASE_ADDR c.l.p = s.addrOf .HB_HEAP_BASE_ADDR c.l.p :=
    congrArg (· * _) (hi.rd_counted_heap (by decide) hp)
  obtain ⟨a, t, htake, hmem, hheap, ht⟩ := State.halloc_of_free (s := Counted s c) (p := c.l.p) hclass
    (by rw [hbase, heap_counted]; exact hfree)
  rw [hbase, heap_counted] at hmem
  rw [heap_counted] at hheap
  obtain ⟨u, q, hu, hquire, hwritten, hrest⟩ := hi.halloc hone htake (by rw [ht])
  have huheap : u.heap c.l.p = { s.heap c.l.p with live := storePut a n (s.heap c.l.p).live } := by
    rw [← hheap, hrest]
    rfl
  refine ⟨u, q, a, hu, hquire, hwritten, hmem, fun x => ?_, by rw [huheap], ?_, ?_⟩
  · rw [huheap]
    exact storeFind_put ..
  · rw [← hi.place.1]
    exact RegsKept.of_regs (by rw [hrest, ht]) (countersOnly_counted s c hi.vat_lt)
  · rw [hrest, ht]
    exact mem_counted s c

theorem Issues.halloc_no_class (hi : Issues s vat slot 0xC8 c) (hp : c.l.p < 32) (hone : c.doers = [k])
    (hclass : heapClass (c.opA k) = none) :
    ∃ u q, exec (.halloc vat slot) s = .next u ∧ u.quire vat slot = some q ∧ DWritten c q (fun _ => 0) ∧
      u.rd .HB_HEAP_STAT_FAILED c.l.p = (s.count .HB_HEAP_STAT_FAILED 1 c.l.p).rd .HB_HEAP_STAT_FAILED c.l.p ∧
      u.heaps = s.heaps ∧ u.mem = s.mem := by
  obtain ⟨u, q, hu, hquire, hwritten, hrest⟩ := hi.halloc hone (State.halloc_of_no_class hclass) rfl
  refine ⟨u, q, hu, hquire, hwritten, ?_, ?_, ?_⟩
  · have hregs : u.regs = ((Counted s c).count .HB_HEAP_STAT_FAILED 1 c.l.p).regs := by rw [hrest]
    rw [State.rd_congr hregs, State.rd_count_same, State.rd_count_same, hi.rd_counted_heap (by decide) hp]
  · rw [hrest]
    exact heaps_counted s c
  · rw [hrest]
    exact mem_counted s c

theorem Issues.hfree_live (hi : Issues s vat slot 0xC9 c) (hone : c.lanes = [k]) (hne : c.opA k ≠ 0)
    (hlive : storeFind (s.heap c.l.p).live (c.opA k) = some n) :
    ∃ u, exec (.hfree vat slot) s = .next u ∧ u.quire vat slot = some { c.q with pc := c.i.next } ∧
      (∀ x, storeFind (u.heap c.l.p).live x = if x = c.opA k then none else storeFind (s.heap c.l.p).live x) ∧
      CountersOnly s u vat ∧ u.mem = s.mem := by
  obtain ⟨h, hfree, herase⟩ := State.hfree_of_live (s := Counted s c) (p := c.l.p) hne (by rw [heap_counted]; exact hlive)
  have hk : BCtx.hfreeLanes (Counted s c) c = c.done ((Counted s c).setHeap c.l.p h) c.q := by
    unfold BCtx.hfreeLanes
    rw [hone, List.foldl_cons, List.foldl_nil, hfree]
  obtain ⟨u, hu, hquire, hrest⟩ := hi.issue_done hk rfl
  refine ⟨u, congrArg Host.Outcome.next hu, hquire, fun x => ?_, ?_, ?_⟩
  · have hheap : u.heap c.l.p = h := by
      rw [hrest]
      exact State.heap_setHeap_same (s := Counted s c) h
    rw [hheap, herase, heap_counted]
    exact storeFind_erase ..
  · rw [← hi.place.1]
    exact RegsKept.of_regs (by rw [hrest]; rfl) (countersOnly_counted s c hi.vat_lt)
  · rw [hrest]
    exact mem_counted s c

theorem Issues.hfree_zero (hi : Issues s vat slot 0xC9 c) (hone : c.lanes = [k]) (hzero : c.opA k = 0) :
    QuireBecomes (.hfree vat slot) s c { c.q with pc := c.i.next } := by
  refine hi.quireBecomes (k := BCtx.hfreeLanes) rfl ?_
  unfold BCtx.hfreeLanes
  rw [hone, List.foldl_cons, List.foldl_nil, State.hfree, if_pos hzero]
  rfl

end

/-- Settles O37. -/
theorem heapBlocks : Obligations.HeapBlocks := fun _ _ _ _ _ _ hp =>
  ⟨fun hi hone hclass hfree => hi.halloc_free hp hone hclass hfree, fun hi hone hclass => hi.halloc_no_class hp hone hclass,
    fun hi hone hne hlive => hi.hfree_live hone hne hlive, fun hi hone hzero => hi.hfree_zero hone hzero⟩

end Sys2Proof.Claims

end

