-- ==== Sys2Proof/Proofs/Graphs.lean ====
section
/-!
PROOF. Graphs: GRAPH_PATCH commits a version (R254 to R258) and GRAPH_LAUNCH binds the current one (R259).
-/

namespace Sys2Proof.Machine

section
variable {s s1 s2 t : State} {p g : Nat} {c : Cmd} {nodes : List (List Byte)}

/-- A command that is handed off with its status: only the queues change. -/
theorem State.handDone_queues {id : Nat} (st : Nat) (hc : s.cmd id = some c) (hgeo : c.op ≠ 0x10) (hbal : engineOf c.op ≠ 3) :
    ∃ qs, s.handDone id st = { s with hb := { s.hb with queues := qs } } := by
  unfold State.handDone
  rw [State.hand_eq hc hgeo hbal]
  exact ⟨_, rfl⟩

/-! ### Versions -/

/-- The versions of the store, those of one graph no more current. -/
def oldVersions (vs : List GraphVer) (p g : Nat) : List GraphVer :=
  vs.map (fun v => if v.p = p && v.graph = g then { v with current := false } else v)

/-- The current version in a list of versions. -/
def currentIn (vs : List GraphVer) (p g : Nat) : Option GraphVer := (vs.filter (fun v => v.p = p && v.graph = g)).find? (·.current)

theorem State.currentVersion_eq (s : State) (p g : Nat) : s.currentVersion p g = currentIn s.hb.versions p g := rfl

theorem State.currentVersion_congr (h : t.hb.versions = s.hb.versions) : t.currentVersion p g = s.currentVersion p g := by
  rw [State.currentVersion_eq, State.currentVersion_eq, h]

theorem currentIn_append (vs ws : List GraphVer) : currentIn (vs ++ ws) p g = (currentIn vs p g).or (currentIn ws p g) := by
  unfold currentIn
  rw [List.filter_append, List.find?_append]

theorem currentIn_oldVersions (vs : List GraphVer) : currentIn (oldVersions vs p g) p g = none := by
  unfold currentIn oldVersions
  simp only [List.find?_eq_none, List.mem_filter, List.mem_map]
  rintro x ⟨⟨v, -, rfl⟩, hx⟩
  split at hx
  next hv => simp [hv]
  next hv => exact absurd hx hv

/-- A version that is current does not retire. -/
theorem State.currentVersion_retireVersions (s : State) : s.retireVersions.currentVersion p g = s.currentVersion p g := by
  unfold State.currentVersion State.liveVersions State.retireVersions
  simp only [List.filter_filter, List.find?_filter]
  congr 1
  funext v
  cases v.current <;> simp

/-! ### GRAPH_PATCH -/

theorem State.cmd_congr {id : Nat} (h : t.hb.queues = s.hb.queues) : t.cmd id = s.cmd id := by
  unfold State.cmd State.allCmds
  rw [h]

/-- A version whose nodes are in order and that has room in the store is committed. -/
theorem State.offerVersion_eq (hbad : badNode nodes = none) (hwaits : s.patchWaits c g = none)
    (hroom : s.storeUsed c.p + 64 * nodes.length ≤ s.storeRoom c.p) : s.offerVersion c g nodes = s.commitVersion c g nodes := by
  unfold State.offerVersion
  simp only [hbad, hwaits, Nat.not_lt.mpr hroom, if_false]

/-- The store with a version that has been written: it is the graph's current one, and the command is OK. -/
def State.committed (s : State) (c : Cmd) (g : Nat) (x : GraphVer) : State :=
  State.handDone (State.retireVersions { s with hb := { s.hb with versions := oldVersions s.hb.versions c.p g ++ [x] } }) c.id stOk

theorem State.commitVersion_eq
    (hprints : ({ s1 with free := s1.free + 1 }).footprints (headboxAsker c.p) (.cmd c.id) c.p
      [(s1.addrOf .HB_GRAPH_STORE_ADDR c.p + 64 * g, 64, rightW),
        (s1.addrOf .HB_GRAPH_STORE_ADDR c.p + 16384 + s1.storeUsed c.p, 64 * nodes.length, rightW)] = (s2, .ok ())) :
    ∃ (t : State) (ver : Nat), s1.commitVersion c g nodes = t.committed c g ⟨c.p, g, ver, true, nodes⟩ ∧ t.hb = s2.hb := by
  obtain ⟨write, hdef, hwrite⟩ : ∃ f, @State.vWrite = f ∧ ∀ s a who p va bs, (f s a who p va bs).1.hb = s.hb :=
    ⟨_, rfl, fun s a who p va bs => (State.vWrite_keeps s a who p va bs).hb⟩
  obtain ⟨foot, hdef'⟩ : ∃ f, @State.footprints = f := ⟨_, rfl⟩
  rw [hdef'] at hprints
  conv in State.commitVersion => delta State.commitVersion
  rw [hdef, hdef']
  extract_lets store off
  simp only [State.takeFree]
  split
  next e => exact absurd (e.symm.trans hprints) (by simp)
  next e =>
    obtain ⟨rfl, -⟩ := Prod.mk.inj (e.symm.trans hprints)
    exact ⟨_, _, rfl, (hwrite ..).trans (hwrite ..)⟩

theorem State.commitVersion_spec (hop : c.op = 0x04) (hc : s2.cmd c.id = some c) (hnone : c.result = none)
    (hprints : ({ s1 with free := s1.free + 1 }).footprints (headboxAsker c.p) (.cmd c.id) c.p
      [(s1.addrOf .HB_GRAPH_STORE_ADDR c.p + 64 * g, 64, rightW),
        (s1.addrOf .HB_GRAPH_STORE_ADDR c.p + 16384 + s1.storeUsed c.p, 64 * nodes.length, rightW)] = (s2, .ok ())) :
    let u := s1.commitVersion c g nodes
    u.cmd c.id = some { c with phase := .handed, result := some stOk } ∧ ∃ x, u.currentVersion c.p g = some x ∧ x.nodes = nodes := by
  have hbal : engineOf c.op ≠ 3 := by rw [hop]; decide
  have hgeo : c.op ≠ 0x10 := by rw [hop]; decide
  obtain ⟨t, ver, heq, hhb⟩ := State.commitVersion_eq hprints
  let x : GraphVer := ⟨c.p, g, ver, true, nodes⟩
  let w : State := { t with hb := { t.hb with versions := oldVersions t.hb.versions c.p g ++ [x] } }
  have hcmd : w.retireVersions.cmd c.id = some c := (State.cmd_congr (congrArg Headbox.queues hhb)).trans hc
  obtain ⟨qs, hqs⟩ := State.handDone_queues stOk hcmd hgeo hbal
  have hcurrent : currentIn [x] c.p g = some x := by simp [currentIn, x]
  dsimp only
  rw [heq]
  refine ⟨(State.handDone_spec stOk hcmd hgeo hbal hnone).1, x, ?_, rfl⟩
  calc (w.retireVersions.handDone c.id stOk).currentVersion c.p g
      = w.retireVersions.currentVersion c.p g := State.currentVersion_congr (by rw [hqs])
    _ = currentIn (oldVersions t.hb.versions c.p g ++ [x]) c.p g := State.currentVersion_retireVersions w
    _ = some x := by rw [currentIn_append, currentIn_oldVersions, hcurrent]; rfl

theorem State.patchDelete_spec (hop : c.op = 0x04) (hc : s.cmd c.id = some c) (hnone : c.result = none)
    (hunits : s.rd .HB_GRAPH_SIZE_UNITS c.p ≠ 0) :
    (s.patchDelete c).cmd c.id = some { c with phase := .handed, result := some stOk } ∧
      (s.patchDelete c).currentVersion c.p (c.word 1 % 256) = none ∧ s.patchDelete c = { s with hb := (s.patchDelete c).hb } := by
  have hbal : engineOf c.op ≠ 3 := by rw [hop]; decide
  have hgeo : c.op ≠ 0x10 := by rw [hop]; decide
  let w : State := { s with hb := { s.hb with versions := oldVersions s.hb.versions c.p (c.word 1 % 256) } }
  have heq : s.patchDelete c = w.retireVersions.handDone c.id stOk := by
    unfold State.patchDelete
    exact if_neg hunits
  have hcmd : w.retireVersions.cmd c.id = some c := hc
  obtain ⟨qs, hqs⟩ := State.handDone_queues stOk hcmd hgeo hbal
  refine ⟨heq ▸ (State.handDone_spec stOk hcmd hgeo hbal hnone).1, ?_, ?_⟩
  · calc (s.patchDelete c).currentVersion c.p (c.word 1 % 256)
        = w.retireVersions.currentVersion c.p (c.word 1 % 256) := State.currentVersion_congr (by rw [heq, hqs])
      _ = currentIn (oldVersions s.hb.versions c.p (c.word 1 % 256)) c.p (c.word 1 % 256) :=
          State.currentVersion_retireVersions w
      _ = none := currentIn_oldVersions _
  · rw [heq, hqs]
    rfl

end

end Sys2Proof.Machine

namespace Sys2Proof.Claims

open Sys2Proof Sys2Proof.Machine

theorem graphPatchesCommit : GraphPatchesCommit := by
  intro s s1 s2 p q c bs v nodes hlive hc hc1 hc2 hnone hunits
  refine ⟨fun hhead hpos hle hread hnodes hbad hwaits hroom hprints => ?replace,
    fun hhead hpos hle hver hread hedits hbad hwaits hroom hprints => ?edit, fun hhead => ?delete⟩
  case replace =>
    have hop : c.op = 0x04 := by
      have := State.want_of_headCmd hhead
      simp_all
    have heq : s.patchReplace c = s1.commitVersion c (c.word 1 % 256) nodes := by
      unfold State.patchReplace
      dsimp only
      rw [if_neg hunits, if_neg (by simp only [Bool.or_eq_true, decide_eq_true_eq]; omega), hread]
      dsimp only
      rw [← hnodes]
      exact State.offerVersion_eq hbad hwaits hroom
    obtain ⟨hcmd, x, hx, hxn⟩ := State.commitVersion_spec hop hc2 hnone hprints
    rw [← heq] at hcmd hx
    exact ⟨s.patchReplace c, x, congrArg Host.Outcome.next (State.withCmd_of_head hlive hhead _), hcmd, hx, hxn⟩
  case edit =>
    have hop : c.op = 0x04 := by
      have := State.want_of_headCmd hhead
      simp_all
    have heq : s.patchEdit c = s1.commitVersion c (c.word 1 % 256) nodes := by
      unfold State.patchEdit
      dsimp only
      rw [if_neg hunits, hver]
      dsimp only
      rw [if_neg (by simp only [Bool.or_eq_true, decide_eq_true_eq]; omega), hread]
      dsimp only
      rw [hedits]
      exact State.offerVersion_eq hbad hwaits hroom
    obtain ⟨hcmd, x, hx, hxn⟩ := State.commitVersion_spec hop hc2 hnone hprints
    rw [← heq] at hcmd hx
    exact ⟨s.patchEdit c, x, congrArg Host.Outcome.next (State.withCmd_of_head hlive hhead _), hcmd, hx, hxn⟩
  case delete =>
    have hop : c.op = 0x04 := by
      have := State.want_of_headCmd hhead
      simp_all
    obtain ⟨hcmd, hver, hrest⟩ := State.patchDelete_spec hop hc hnone hunits
    exact ⟨s.patchDelete c, congrArg Host.Outcome.next (State.withCmd_of_head hlive hhead _), hcmd, hver, hrest⟩

section
variable {s : State} {p : Fin 32} {q : Fin 16} {c : Cmd}

/-- A run of a version, with every node waiting. -/
def boundRun (s : State) (c : Cmd) (v : GraphVer) : GraphRun where
  id := s.nextId
  cmd := c.id
  p := c.p
  q := c.q
  graph := c.word 1 % 256
  ver := v.ver
  args := c.dword 2
  nodes := v.nodes.map (fun b => { bytes := b, phase := .fetched, status := 0 })

theorem State.graphLaunchCmd_of_version {v : GraphVer} (hwatch : s.watchedBy c.p c.q (c.word 1 % 256) = none)
    (hver : s.currentVersion c.p (c.word 1 % 256) = some v) :
    s.graphLaunchCmd c =
      ({ s with hb := { s.hb with runs := s.hb.runs ++ [boundRun s c v] }, nextId := s.nextId + 1 } : State).hand c.id := by
  have hver' : ({ s with nextId := s.nextId + 1 } : State).currentVersion c.p (c.word 1 % 256) = some v := hver
  unfold State.graphLaunchCmd State.takeId
  simp only [hwatch, hver']
  rfl

theorem State.graphLaunchCmd_of_none (hwatch : s.watchedBy c.p c.q (c.word 1 % 256) = none)
    (hver : s.currentVersion c.p (c.word 1 % 256) = none) :
    ∃ t : State, s.graphLaunchCmd c = t.handDone c.id (stCmd 0x21 (c.word 1 % 256)) ∧ t.hb.queues = s.hb.queues := by
  have hver' : ({ s with nextId := s.nextId + 1 } : State).currentVersion c.p (c.word 1 % 256) = none := hver
  unfold State.graphLaunchCmd State.takeId
  simp only [hwatch, hver']
  exact ⟨_, rfl, rfl⟩

end

theorem graphLaunchBindsTheCurrentVersion : GraphLaunchBindsTheCurrentVersion := by
  intro s p q c hhead hwatch
  have hop := atHead_op hhead
  have hbal : engineOf c.op ≠ 3 := by rw [hop]; decide
  have hgeo : c.op ≠ 0x10 := by rw [hop]; decide
  have hexec : exec (.graphLaunch (.queue p q)) s = .next (s.graphLaunchCmd c) :=
    congrArg Host.Outcome.next (atHead_run hhead State.graphLaunchCmd)
  obtain ⟨-, -, hc, hnone⟩ := hhead
  constructor
  · intro v hver
    let t : State := { s with hb := { s.hb with runs := s.hb.runs ++ [boundRun s c v] }, nextId := s.nextId + 1 }
    have hct : t.cmd c.id = some c := hc
    have heq : s.graphLaunchCmd c = t.hand c.id := State.graphLaunchCmd_of_version hwatch hver
    have hhand := State.hand_eq hct hgeo hbal
    refine ⟨_, boundRun s c v, hexec.trans (congrArg _ heq), State.cmd_hand hct hgeo hbal, ?_, rfl, rfl, rfl, rfl, rfl, rfl, ?_⟩
    · rw [hhand]
      exact List.mem_append_right _ (List.mem_singleton_self _)
    · rw [hhand]
      rfl
  · intro hver
    obtain ⟨t, heq, hqueues⟩ := State.graphLaunchCmd_of_none hwatch hver
    exact ⟨_, hexec.trans (congrArg _ heq), (State.handDone_spec _ ((State.cmd_congr hqueues).trans hc) hgeo hbal hnone).1⟩

/-- Settles O16. -/
theorem graphsCommitAndLaunch : Obligations.GraphsCommitAndLaunch := ⟨graphPatchesCommit, graphLaunchBindsTheCurrentVersion⟩

end Sys2Proof.Claims

end

