-- ==== Sys2Proof/Proofs/Launches.lean ====
section
/-!
PROOF. Launches: their hand-off and preloads (R248 to R252), and the dispatch of their blocks to the vats (R250, R56).
-/

namespace Sys2Proof.Machine

section
variable {s t : State} {n p d id : Nat} {c : Cmd} {l : Launch}

/-! ### What pre-emption and a wake keep -/

/-- A pre-emption changes vats and counters. -/
structure VatsOnly (s t : State) : Prop where
  hb : t.hb = s.hb
  mem : t.mem = s.mem
  launches : t.launches = s.launches
  geo : t.geo = s.geo
  cal : t.cal = s.cal

theorem VatsOnly.refl (s : State) : VatsOnly s s := ⟨rfl, rfl, rfl, rfl, rfl⟩

theorem VatsOnly.trans {u : State} (h : VatsOnly s t) (k : VatsOnly t u) : VatsOnly s u :=
  ⟨k.hb.trans h.hb, k.mem.trans h.mem, k.launches.trans h.launches, k.geo.trans h.geo, k.cal.trans h.cal⟩

theorem VatsOnly.foldl {α : Type} {f : State → α → State} (hf : ∀ s x, VatsOnly s (f s x)) (xs : List α) (s : State) :
    VatsOnly s (xs.foldl f s) :=
  List.foldlRecOn xs f (.refl s) fun t ht x _ => ht.trans (hf t x)

theorem vatsOnly_trySave (s : State) (vat b : Nat) : VatsOnly s (s.trySave vat b) := by
  obtain ⟨slot, hdef⟩ : ∃ f, @State.saveSlot = f := ⟨_, rfl⟩
  conv in State.trySave => delta State.trySave
  rw [hdef]
  extract_lets v
  split
  · exact .refl s
  · split
    · exact .refl s
    · split_ifs
      · split <;> exact ⟨rfl, rfl, rfl, rfl, rfl⟩
      · exact .refl s

theorem vatsOnly_preempt (s : State) (vat p : Nat) : VatsOnly s (s.preempt vat p) := by
  unfold State.preempt
  extract_lets v mine v1
  exact .trans (t := s.setVat vat v1) ⟨rfl, rfl, rfl, rfl, rfl⟩ (.foldl (fun s b => vatsOnly_trySave s vat b) _ _)

theorem vatsOnly_poolStep (s : State) : VatsOnly s s.poolStep := by
  have hwaiting : VatsOnly s s.updateWaiting := ⟨rfl, rfl, rfl, rfl, rfl⟩
  unfold State.poolStep
  dsimp only
  split_ifs
  · exact hwaiting
  · exact hwaiting
  · refine hwaiting.trans (.foldl (fun s n => ?_) _ _)
    split
    · split_ifs
      · exact vatsOnly_preempt ..
      · exact .refl s
    · exact .refl s

/-- Waking a domain changes registers and what the domains keep. -/
theorem State.wakeNow_frame (s : State) (d : Nat) :
    s.wakeNow d = { s with regs := (s.wakeNow d).regs, pwr := (s.wakeNow d).pwr } := by
  have hrestore (s : State) : s.domRestore d = { s with regs := (s.domRestore d).regs, pwr := (s.domRestore d).pwr } := by
    unfold State.domRestore
    split <;> rfl
  have hon (s : State) : s.domOn d = { s with regs := (s.domOn d).regs, pwr := (s.domOn d).pwr } := by
    conv_lhs => unfold State.domOn; rw [hrestore]
    rfl
  unfold State.wakeNow
  split_ifs
  · rfl
  · rw [hon]
    rfl
  · rw [hon]

theorem State.wakeNow_vat (s : State) (d n : Nat) : (s.wakeNow d).vat n = s.vat n := by
  rw [State.wakeNow_frame]
  rfl

theorem State.trimQueue_passRecords_vats {p q : Nat} (hnone : s.hb.releases = []) :
    (s.trimQueue p q).passRecords.vats = s.vats := by
  have htrim : (s.trimQueue p q).hb.releases = [] := hnone
  rw [State.passRecords_of_none htrim]
  rfl

/-- A command that ends OK at once: without a node, a graph or records waiting for queues no vat is touched. -/
theorem State.finishCmd_vats {st : Nat} {post : Bool} (hc : s.cmd id = some c) (hop : c.op ≠ 0x03) (hnode : c.node = none)
    (hok : statusOk st = true) (hnone : s.hb.releases = []) : (s.finishCmd id st post).vats = s.vats := by
  unfold State.finishCmd
  rw [hc]
  dsimp only
  split_ifs
  · rfl
  · next h => simp [hok] at h
  · rw [hnode, State.reportCmd, if_pos hok]
    dsimp only
    exact State.trimQueue_passRecords_vats hnone

/-! ### The hand-off -/

/-- The launch that a LAUNCH or PRELOAD command names, under the next number. -/
def State.named (s : State) (c : Cmd) : State × LaunchRead :=
  State.readLaunch { s with nextId := s.nextId + 1 } c.p (.cmd c.id) (c.dword 1) s.nextId (.compute c.id)

theorem State.launchCmd_of_ok {s1 : State} (hread : s.named c = (s1, .ok l)) : s.launchCmd c = s1.startLaunch c l := by
  unfold State.named at hread
  obtain ⟨read, hdef⟩ : ∃ f, @State.readLaunch = f := ⟨_, rfl⟩
  rw [hdef] at hread
  conv in State.launchCmd => delta State.launchCmd
  rw [hdef]
  unfold State.takeId
  split
  next e =>
    obtain ⟨rfl, rfl⟩ := Prod.mk.inj e
    split
    next e1 => exact absurd (e1.symm.trans hread) (by simp)
    next e1 => exact absurd (e1.symm.trans hread) (by simp)
    next e1 =>
      cases e1.symm.trans hread
      rfl

theorem State.launchCmd_of_refused {s1 : State} {st : Nat} (hread : s.named c = (s1, .refused st)) :
    s.launchCmd c = s1.handDone c.id st := by
  unfold State.named at hread
  obtain ⟨read, hdef⟩ : ∃ f, @State.readLaunch = f := ⟨_, rfl⟩
  rw [hdef] at hread
  conv in State.launchCmd => delta State.launchCmd
  rw [hdef]
  unfold State.takeId
  split
  next e =>
    obtain ⟨rfl, rfl⟩ := Prod.mk.inj e
    split
    next e1 => exact absurd (e1.symm.trans hread) (by simp)
    next e1 =>
      cases e1.symm.trans hread
      rfl
    next e1 => exact absurd (e1.symm.trans hread) (by simp)

/-- A launch that is handed to the vats. -/
theorem State.startLaunch_spec (hc : s.cmd c.id = some c) (hgeo : c.op ≠ 0x10) (hbal : engineOf c.op ≠ 3)
    (hnode : c.node = none) (hspan : s.spanning l.p = false) :
    (s.startLaunch c l).cmd c.id = some { c with phase := .handed } ∧ (s.startLaunch c l).launch l.id = some l ∧
      (s.startLaunch c l).mem = s.mem := by
  have hhand := State.hand_eq hc hgeo hbal
  have hspan' : (s.hand c.id).spanning l.p = false := by
    rw [hhand]
    exact hspan
  have heq : s.startLaunch c l = (((s.hand c.id).adoptPreloads l).setLaunch l.id l).poolStep := by
    unfold State.startLaunch State.noteTiles
    simp only [hnode, hspan', Bool.false_eq_true, if_false]
  obtain ⟨hhb, hmem, hlaunches, -, -⟩ := vatsOnly_poolStep (((s.hand c.id).adoptPreloads l).setLaunch l.id l)
  rw [heq]
  refine ⟨?_, ?_, ?_⟩
  · exact (State.cmd_congr (congrArg Headbox.queues hhb)).trans (State.cmd_hand hc hgeo hbal)
  · unfold State.launch
    rw [hlaunches]
    exact (storeFind_put ..).trans (if_pos rfl)
  · rw [hmem]
    change (s.hand c.id).mem = s.mem
    rw [hhand]
    rfl

/-- The preload slots of a list of vats filled with a launch. -/
def State.fillPreloads (s : State) (id : Nat) (ns : List Nat) : State :=
  ns.foldl (fun (s : State) n => (s.wakeNow n).setVat n { (s.wakeNow n).vat n with preload := some id }) s

theorem State.fillPreloads_spec (s : State) (id : Nat) (ns : List Nat) :
    (s.fillPreloads id ns).hb = s.hb ∧ ∀ n, ((s.fillPreloads id ns).vat n).preload = if n ∈ ns then some id else (s.vat n).preload := by
  induction ns generalizing s with
  | nil => exact ⟨rfl, fun n => by simp [State.fillPreloads]⟩
  | cons m ns ih =>
    obtain ⟨hhb, hvat⟩ := ih ((s.wakeNow m).setVat m { (s.wakeNow m).vat m with preload := some id })
    refine ⟨hhb.trans ?_, fun n => (hvat n).trans ?_⟩
    · change (s.wakeNow m).hb = s.hb
      rw [State.wakeNow_frame]
    · by_cases hn : n = m
      · subst hn
        rw [State.vat_setVat_same]
        simp
      · rw [State.vat_setVat_ne _ _ hn, State.wakeNow_vat]
        simp [hn]

theorem State.warm_keeps (s : State) (l : Launch) (n : Nat) : WorkKept s (s.warm l n) := by
  have hprefetch := ((((Keeps.refl True s).prefetchRange (asker := headboxAsker l.p) (p := l.p) (va := l.code)
    (n := min n (imageSize s.finaliser l.mod))).prefetchRange (asker := headboxAsker l.p) (p := l.p) (va := l.const) (n := l.csize)))
  obtain ⟨read, hdef, hread⟩ : ∃ f, @State.vRead = f ∧ ∀ {s₀ s a who p va n}, Keeps True s₀ s → Keeps True s₀ (f s a who p va n).1 :=
    ⟨_, rfl, Keeps.vRead⟩
  conv in State.warm => delta State.warm
  rw [hdef]
  extract_lets m s1
  split
  next e => exact ((hread hprefetch).of_fst e).work trivial
  · exact hprefetch.work trivial

/-- The preload slots that a partition may fill. -/
def State.freePreloads (s : State) (p : Nat) : List Nat :=
  (List.range 64).filter (fun n => s.mayUse p n && (s.vat n).preload.isNone)

/-- The state whose free preload slots a PRELOAD has filled. -/
def State.preloaded (s : State) (id p : Nat) (l : Launch) : State :=
  if s.freePreloads p = [] then s.fillPreloads id (s.freePreloads p)
  else (s.fillPreloads id (s.freePreloads p)).setLaunch id { l with total := 0 }

theorem State.preloadCmd_of_ok {s1 : State} (hread : s.named c = (s1, .ok l)) :
    s.preloadCmd c = (((s1.preloaded s.nextId c.p l).warm l (imageSize (s1.preloaded s.nextId c.p l).finaliser l.mod)).hand
      c.id).finishCmd c.id stOk true := by
  unfold State.named at hread
  obtain ⟨read, hdef⟩ : ∃ f, @State.readLaunch = f := ⟨_, rfl⟩
  rw [hdef] at hread
  conv in State.preloadCmd => delta State.preloadCmd
  rw [hdef]
  unfold State.takeId
  split
  next e =>
    obtain ⟨rfl, rfl⟩ := Prod.mk.inj e
    extract_lets finish
    split
    next e1 => exact absurd (e1.symm.trans hread) (by simp)
    next e1 => exact absurd (e1.symm.trans hread) (by simp)
    next e1 => exact absurd (e1.symm.trans hread) (by simp)
    next e1 =>
      cases e1.symm.trans hread
      rfl

/-- A PRELOAD fills the empty preload slots that its partition may use. -/
theorem State.preloadCmd_spec {s1 : State} (hread : s.named c = (s1, .ok l))
    (hc : s1.cmd c.id = some c) (hop : c.op = 0x05) (hnode : c.node = none) (hnone : s1.hb.releases = []) (hn : n < 64)
    (huse : s1.mayUse c.p n = true) (hempty : (s1.vat n).preload = none) : ((s.preloadCmd c).vat n).preload = some s.nextId := by
  let s2 := s1.fillPreloads s.nextId (s1.freePreloads c.p)
  let s3 := s1.preloaded s.nextId c.p l
  let s4 := s3.warm l (imageSize s3.finaliser l.mod)
  have heq : s.preloadCmd c = (s4.hand c.id).finishCmd c.id stOk true := State.preloadCmd_of_ok hread
  have hkeeps : WorkKept s3 s4 := State.warm_keeps ..
  have hvats3 : s3.vats = s2.vats := by
    unfold s3 State.preloaded
    split_ifs <;> rfl
  have hhb3 : s3.hb = s2.hb := by
    unfold s3 State.preloaded
    split_ifs <;> rfl
  obtain ⟨hhb2, hvat2⟩ := State.fillPreloads_spec s1 s.nextId (s1.freePreloads c.p)
  have hhb4 : s4.hb = s1.hb := hkeeps.hb.trans (hhb3.trans hhb2)
  have hc4 : s4.cmd c.id = some c := (State.cmd_congr (congrArg Headbox.queues hhb4)).trans hc
  have hgeo : c.op ≠ 0x10 := by rw [hop]; decide
  have hbal : engineOf c.op ≠ 3 := by rw [hop]; decide
  have hhand := State.hand_eq hc4 hgeo hbal
  have hfinish : ((s4.hand c.id).finishCmd c.id stOk true).vats = (s4.hand c.id).vats :=
    State.finishCmd_vats (State.cmd_hand hc4 hgeo hbal) (by rw [hop]; decide) hnode rfl (by
      rw [hhand]
      exact (congrArg Headbox.releases hhb4).trans hnone)
  have hvats : (s.preloadCmd c).vats = s2.vats := by
    rw [heq, hfinish, hhand]
    exact hkeeps.vats.trans hvats3
  have hmem : n ∈ s1.freePreloads c.p := by simp [State.freePreloads, hn, huse, hempty]
  rw [State.vat_congr hvats, hvat2, if_pos hmem]

end

/-! ### Dispatch -/

section
variable {s : State} {l : Launch}

theorem freeSlots_nil (n : Nat) : freeSlots [] n = List.range (min n 64) := by
  unfold freeSlots
  simp [List.take_range]

theorem indexed_range (n : Nat) : indexed (List.range n) = (List.range n).map fun i => (i, i) := by
  unfold indexed
  rw [List.length_range, List.zip_eq_zipWith, List.zipWith_self]

/-- Entries put under the numbers below n. -/
theorem storeFind_foldl_range {α : Type} (f : Nat → α) {n i : Nat} (h : i < n) :
    storeFind ((List.range n).foldl (fun m x => storePut x (f x) m) []) i = some (f i) := by
  induction n with
  | zero => omega
  | succ n ih =>
    rw [List.range_succ, List.foldl_append, List.foldl_cons, List.foldl_nil, storeFind_put]
    by_cases hi : i = n
    · rw [if_pos hi, hi]
    · rw [if_neg hi, ih (by omega)]

theorem State.vat_clearPreloads (s : State) (id n : Nat) : ∃ p, (s.clearPreloads id).vat n = { s.vat n with preload := p } := by
  unfold State.vat State.clearPreloads
  dsimp only
  induction s.vats with
  | nil => exact ⟨_, rfl⟩
  | cons e r ih =>
    rw [List.map_cons]
    by_cases hid : e.2.preload = some id
    · rw [if_pos hid]
      by_cases hn : n = e.1
      · exact ⟨none, by simp [storeGet, hn]⟩
      · simpa only [storeGet, hn, if_false] using ih
    · rw [if_neg hid]
      by_cases hn : n = e.1
      · exact ⟨e.2.preload, by simp [storeGet, hn]⟩
      · simpa only [storeGet, hn, if_false] using ih

/-- A block placed on an empty vat. -/
theorem State.placeBlock_spec {v id : Nat} {scheds : List Nat} (hempty : s.vat v = {}) :
    let u := s.placeBlock l id v scheds
    u.launch id = some { l with next := l.next + 1 } ∧ u.mem = s.mem ∧
      ∃ seed, u.block v 0 = some { launch := id, index := l.blockIndex l.next, seed := some seed } ∧
        ∀ i, i < l.quires → i < 64 →
          u.quire v i = some (newQuire l 0 i (scheds.getD i 0) seed (l.blockIndex l.next)) := by
  let w : State := (s.wakeNow v).takeFree.2
  let seed := (s.wakeNow v).takeFree.1
  let index := l.blockIndex l.next
  let qs := (List.range (min l.quires 64)).foldl
    (fun (m : List (Nat × Quire)) x => storePut x (newQuire l 0 x (scheds.getD x 0) seed index) m) []
  let blk : Block := { launch := id, index := index, seed := some seed }
  let l1 : Launch := { l with next := l.next + 1 }
  let s2 := (w.setVat v { quires := qs, blocks := [(0, blk)] }).setLaunch id l1
  have hwvat : w.vat v = {} := (State.wakeNow_vat s v v).trans hempty
  have heq : s.placeBlock l id v scheds = if l1.next = l1.total then s2.clearPreloads id else s2 := by
    unfold State.placeBlock
    dsimp only
    rw [show ((s.wakeNow v).takeFree.2).vat v = {} from hwvat]
    simp only [List.map_nil, freeSlots_nil, indexed_range, List.foldl_map]
    rfl
  have hvat : ∃ p, (s.placeBlock l id v scheds).vat v = { quires := qs, blocks := [(0, blk)], preload := p } := by
    have hs2 : s2.vat v = { quires := qs, blocks := [(0, blk)] } := State.vat_setVat_same ..
    rw [heq]
    split_ifs
    · obtain ⟨p, hp⟩ := State.vat_clearPreloads s2 id v
      exact ⟨p, by rw [hp, hs2]⟩
    · exact ⟨none, hs2⟩
  obtain ⟨p, hp⟩ := hvat
  refine ⟨?_, ?_, seed, ?_, fun i hi h64 => ?_⟩
  · have hlaunches : (s.placeBlock l id v scheds).launches = s2.launches := by
      rw [heq]
      split_ifs <;> rfl
    unfold State.launch
    rw [hlaunches]
    exact (storeFind_put ..).trans (if_pos rfl)
  · have hmem : (s.placeBlock l id v scheds).mem = (s.wakeNow v).mem := by
      rw [heq]
      split_ifs <;> rfl
    rw [hmem, State.wakeNow_frame]
  · unfold State.block
    rw [hp]
    rfl
  · unfold State.quire
    rw [hp]
    exact storeFind_foldl_range (fun x => newQuire l 0 x (scheds.getD x 0) seed index) (by omega)

/-- The next block of a launch of a running partition, on the vat with room. -/
theorem State.dispatch_eq {s1 : State} {id c v : Nat} {scheds : List Nat} (hl : s.launch id = some l) (huse : l.use = .compute c)
    (hruns : s.partRuns l.p = true) (hstands : s.launchStands l = true) (hspan : s.spanning l.p = false)
    (hsaved : s.sched.saved = []) (hnext : l.next < l.total) (hroom : s.findRoom l (fun _ => true) = some (v, scheds))
    (hprints : s.footprints (vatAsker v l.p) (.launch id) l.p (s.dispatchRanges l []) = (s1, .ok ())) :
    s.dispatch id = s1.placeBlock l id v scheds := by
  obtain ⟨foot, hdef⟩ : ∃ f, @State.footprints = f := ⟨_, rfl⟩
  rw [hdef] at hprints
  conv_lhs => delta State.dispatch
  rw [hdef]
  dsimp only
  rw [hl]
  dsimp only
  rw [if_neg (by simp [hruns, hstands, hspan]), if_pos hruns, hsaved, List.find?_nil]
  dsimp only
  rw [if_neg (by omega), hroom]
  dsimp only
  rw [hprints]
  dsimp only
  unfold State.attachTile
  rw [huse]

end

end Sys2Proof.Machine

namespace Sys2Proof.Claims

open Sys2Proof Sys2Proof.Machine

theorem launchAndPreloadAreHanded : LaunchAndPreloadAreHanded := by
  intro s s1 p q c l st hc hnode
  refine ⟨fun hhead hread hspan => ?launch, fun hhead hread => ?refused, fun hhead hread hnone => ?preload⟩
  case launch =>
    have hexec : exec (.launch (.queue p q)) s = .next (s.launchCmd c) :=
      congrArg Host.Outcome.next (atHead_run hhead State.launchCmd)
    obtain ⟨hcmd, hlaunch, hmem⟩ := State.startLaunch_spec hc (by rw [atHead_op hhead]; decide) (by rw [atHead_op hhead]; decide) hnode hspan
    exact ⟨_, hexec.trans (congrArg _ (State.launchCmd_of_ok hread)), hcmd, hlaunch, hmem⟩
  case refused =>
    have hop := atHead_op hhead
    have hexec : exec (.launch (.queue p q)) s = .next (s.launchCmd c) :=
      congrArg Host.Outcome.next (atHead_run hhead State.launchCmd)
    have hspec := State.handDone_spec st hc (by rw [hop]; decide) (by rw [hop]; decide) hhead.2.2.2
    exact ⟨_, hexec.trans (congrArg _ (State.launchCmd_of_refused hread)), hspec.1, hspec.2⟩
  case preload =>
    have hexec : exec (.preload (.queue p q)) s = .next (s.preloadCmd c) :=
      congrArg Host.Outcome.next (atHead_run hhead State.preloadCmd)
    refine ⟨_, hexec, fun n hn huse hempty => ?_⟩
    exact State.preloadCmd_spec hread hc (atHead_op hhead) hnode hnone hn huse hempty

theorem blocksReachTheVats : BlocksReachTheVats := by
  intro s s1 vat r l id c v scheds
  refine ⟨fun hlive hhead hempty hfind => ?fill, fun hlive hl huse hruns hstands hspan hsaved hnext hroom hprints hempty => ?dispatch⟩
  case fill =>
    have heq : s.preloadFill vat = ((s.wakeNow vat).setVat vat { (s.wakeNow vat).vat vat with preload := some id }).warm l 16384 := by
      unfold State.preloadFill
      rw [hhead, hempty]
      dsimp only
      rw [hfind]
    refine ⟨s.preloadFill vat, congrArg Host.Outcome.next (if_pos hlive), ?_⟩
    rw [heq, State.vat_congr (State.warm_keeps ..).vats, State.vat_setVat_same]
  case dispatch =>
    obtain ⟨hlaunch, hmem, seed, hblock, hquire⟩ := State.placeBlock_spec (l := l) (id := id) (scheds := scheds) hempty
    have heq := State.dispatch_eq hl huse hruns hstands hspan hsaved hnext hroom hprints
    refine ⟨_, congrArg Host.Outcome.next ((if_pos hlive).trans heq), hlaunch, ⟨_, hblock, rfl, rfl, rfl, rfl⟩, fun i hi h64 => ?_, hmem⟩
    exact ⟨_, hquire i hi h64, rfl, rfl, rfl, rfl, rfl, rfl⟩

/-- Settles O15. -/
theorem launchesReachTheVats : Obligations.LaunchesReachTheVats := ⟨launchAndPreloadAreHanded, blocksReachTheVats⟩

end Sys2Proof.Claims

end

