-- ==== Sys2Proof/Proofs/RaisedFields.lean ====
section
/-!
PROOF. The registers that an event record may change wherever it goes (R292 to R302, R422): the queue's own, and the credits and
use of the ring. Every other register keeps its value.
-/

namespace Sys2Proof.Machine

/-- The registers of fields outside a list keep their values. -/
structure FieldsKept (l : List Field) (s t : State) : Prop where
  rd : ∀ f ∉ l, ∀ i < 65536, ∀ j < 65536, t.rd f i j = s.rd f i j

section
variable {s t u : State} {l : List Field} {f : Field} {v i j : Nat}

theorem FieldsKept.refl (l : List Field) (s : State) : FieldsKept l s s := ⟨fun _ _ _ _ _ _ => rfl⟩

theorem FieldsKept.trans (h : FieldsKept l s t) (k : FieldsKept l t u) : FieldsKept l s u :=
  ⟨fun f hf i hi j hj => (k.rd f hf i hi j hj).trans (h.rd f hf i hi j hj)⟩

theorem FieldsKept.mono {m : List Field} (h : FieldsKept l s t) (hsub : l ⊆ m) : FieldsKept m s t :=
  ⟨fun f hf => h.rd f fun hmem => hf (hsub hmem)⟩

theorem FieldsKept.of_regs (h : u.regs = t.regs) (k : FieldsKept l s t) : FieldsKept l s u :=
  ⟨fun f hf i hi j hj => (State.rd_congr h f i j).trans (k.rd f hf i hi j hj)⟩

theorem fieldsKept_of_regs (h : t.regs = s.regs) : FieldsKept l s t := (FieldsKept.refl l s).of_regs h

theorem FieldsKept.wr (h : FieldsKept l s t) (hf : f ∈ l) (hi : i < 65536) (hj : j < 65536) : FieldsKept l s (t.wr f v i j) :=
  ⟨fun g hg i' hi' j' hj' => by
    have hne : g ≠ f := fun e => hg (e ▸ hf)
    exact (State.rd_wr_field _ hi hj hi' hj' hne).trans (h.rd g hg i' hi' j' hj')⟩

theorem FieldsKept.count {k : Nat} (h : FieldsKept l s t) (hf : f ∈ l) (hi : i < 65536) (hj : j < 65536) :
    FieldsKept l s (t.count f k i j) := h.wr hf hi hj

theorem FieldsKept.ite {p : Prop} [Decidable p] (ht : FieldsKept l s t) (hu : FieldsKept l s u) :
    FieldsKept l s (if p then t else u) := by
  split_ifs
  · exact ht
  · exact hu

theorem FieldsKept.foldl {α : Type} {f : State → α → State} (hf : ∀ s x, FieldsKept l s (f s x)) (xs : List α) (s : State) :
    FieldsKept l s (xs.foldl f s) :=
  List.foldlRecOn xs f (.refl l s) fun t ht x _ => ht.trans (hf t x)

end

/-- The fields of a queue that a record posted to it may change. -/
def postFields : List Field := [.EVQ_WRITE_INDEX, .EVQ_DROPPED_COUNT, .EVQ_CTRL_OVF]

/-- The fields that an event record may change. -/
def raiseFields : List Field :=
  [.EVQ_PEND_PEND, .EVQ_WRITE_INDEX, .EVQ_DROPPED_COUNT, .EVQ_CTRL_OVF, .HB_USE_FELT, .SCH_SB_CREDIT_DRAM, .SCH_SB_CREDIT_L2,
    .SCH_SB_CREDIT_FELT, .SCH_SB_CREDIT_PIXELS, .SCH_SB_OVER_UNITS]

section
variable {s : State} {t p k : Nat} {e : Ev} {bs : List Byte}

/-! ### Messages to other chips -/

theorem fieldsKept_charge {a r units : Nat} (ha : a < 65536) : FieldsKept raiseFields s (s.charge a r units) := by
  have hcredit : (budgetFields r).1 ∈ raiseFields := by
    unfold budgetFields
    split_ifs <;> decide
  unfold State.charge
  refine .ite (.refl ..) ?_
  extract_lets credit s1 s2
  have hspent : FieldsKept raiseFields s s1 := (FieldsKept.refl ..).wr hcredit ha (by decide)
  have hover : FieldsKept raiseFields s s2 := .ite (hspent.count (by decide) ha (by decide)) hspent
  exact .ite hover (.of_regs (t := s2) rfl hover)

theorem msgPart_lt (m : List Byte) : msgPart m < 32 := Nat.mod_lt _ (by decide)

theorem fieldsKept_sendMsg (m : Msg) : FieldsKept raiseFields s (s.sendMsg k m) := by
  have hpart : msgPart m.bytes < 65536 := Nat.lt_trans (msgPart_lt _) (by decide)
  have hport (f : FPort) : FieldsKept raiseFields s (s.setPort k f) := fieldsKept_of_regs rfl
  unfold State.sendMsg
  dsimp only
  exact .ite (hport _) ((FieldsKept.ite ((hport _).wr (by decide) hpart (by decide)) (hport _)).trans (fieldsKept_charge hpart))

theorem fieldsKept_pump (fuel : Nat) : FieldsKept raiseFields s (s.pump k fuel) := by
  induction fuel generalizing s with
  | zero => exact .refl ..
  | succ fuel ih =>
    rw [State.pump]
    split
    · exact .refl ..
    · split
      · exact .refl ..
      · exact (fieldsKept_sendMsg _).trans ih

theorem fieldsKept_feltPut {vc cls : Nat} : FieldsKept raiseFields s (s.feltPut k vc cls bs) := by
  unfold State.feltPut
  extract_lets f x fwd tx s1
  have hport : FieldsKept raiseFields s s1 := fieldsKept_of_regs rfl
  exact hport.trans (fieldsKept_pump _)

theorem fieldsKept_feltReq {dst op part va : Nat} {owner : Owner} :
    FieldsKept raiseFields s (s.feltReq dst op part bs owner va) := by
  unfold State.feltReq
  refine .ite (.refl ..) ?_
  extract_lets tag m r ring s1
  have hreq : FieldsKept raiseFields s s1 := fieldsKept_of_regs rfl
  exact .ite hreq (hreq.trans fieldsKept_feltPut)

/-! ### Records -/

theorem State.regs_setRaws (s : State) (pa : Nat) (bs : List Byte) : (s.setRaws pa bs).regs = s.regs := by
  induction bs generalizing s pa with
  | nil => rfl
  | cons b bs ih => exact ih ..

theorem State.regs_writeSector (s : State) (pa : Nat) (bs : List Byte) : (s.writeSector pa bs).regs = s.regs := by
  unfold State.writeSector
  dsimp only
  split
  · exact State.regs_setRaws ..
  · split_ifs <;> exact (State.regs_setRaws ..).trans (State.regs_setRaws ..)

theorem State.regs_putSector (s : State) (pa : Nat) (bs : List Byte) : (s.putSector pa bs).regs = s.regs := by
  unfold State.putSector
  split_ifs
  · rfl
  · exact State.regs_writeSector ..

theorem fieldsKept_evWrite (ht : t < 65536) : FieldsKept postFields s (s.evWrite t e) := by
  unfold State.evWrite
  dsimp only
  have hstored (a : Nat) (bs : List Byte) : FieldsKept postFields s (if t = 33 then s.putSector a bs else s.hostWrite a bs) :=
    .ite (fieldsKept_of_regs (State.regs_putSector ..)) (fieldsKept_of_regs rfl)
  refine .ite ?_ ((hstored _ _).wr (by decide) ht (by decide))
  exact ((hstored _ _).wr (by decide) ht (by decide)).trans ⟨fun f _ i _ j _ => State.rd_msix ..⟩

theorem fieldsKept_evOwed (ht : t < 65536) : FieldsKept postFields s (s.evOwed t) := by
  unfold State.evOwed
  split
  · exact .refl ..
  · refine .ite (.trans ?_ (fieldsKept_evWrite ht)) (.refl ..)
    exact fieldsKept_of_regs rfl

theorem fieldsKept_evDrop (ht : t < 65536) : FieldsKept postFields s (s.evDrop t e) := by
  unfold State.evDrop
  extract_lets seq s1
  have hcount : FieldsKept postFields s s1 := (FieldsKept.refl ..).wr (by decide) ht (by decide)
  have howed : FieldsKept postFields s (s1.wr .EVQ_CTRL_OVF 1 t) := hcount.wr (by decide) ht (by decide)
  exact .ite (.of_regs (t := s1.wr .EVQ_CTRL_OVF 1 t) rfl howed) hcount

theorem fieldsKept_evPost (ht : t < 65536) : FieldsKept postFields s (s.evPost t e) :=
  .ite (.refl ..) (.ite ((fieldsKept_evOwed ht).trans (fieldsKept_evWrite ht)) ((fieldsKept_evOwed ht).trans (fieldsKept_evDrop ht)))

theorem fieldsKept_raise (ht : t < 65536) : FieldsKept raiseFields s (s.raise t e) :=
  .ite ((FieldsKept.refl ..).wr (by decide) ht (by decide))
    (((FieldsKept.refl ..).wr (by decide) ht (by decide)).trans ((fieldsKept_evPost ht).mono (by decide)))

/-- A record that is raised is pending, whether its queue takes it or not. -/
theorem State.kindBit_raise (s : State) (ht : t < 65536) (hk : 1 ≤ e.kind) (hk' : e.kind ≤ 19) :
    kindBit ((s.raise t e).rd .EVQ_PEND_PEND t) e.kind = true := by
  let s1 := s.wr .EVQ_PEND_PEND (setBit (s.rd .EVQ_PEND_PEND t) (e.kind - 1)) t
  have hbit : kindBit (s1.rd .EVQ_PEND_PEND t) e.kind = true := by
    have hb := bitAt_rd_wr_same s (f := .EVQ_PEND_PEND) (setBit (s.rd .EVQ_PEND_PEND t) (e.kind - 1)) (i := t) (j := 0)
      (n := e.kind - 1) (by
          have : Field.EVQ_PEND_PEND.width = 19 := rfl
          omega)
    exact hb.trans (kindBit_setBit _ (k := e.kind))
  unfold State.raise
  split_ifs
  · exact hbit
  · rw [(fieldsKept_evPost ht).rd _ (by decide) _ ht _ (by decide)]
    exact hbit

theorem State.setRaws_frame (s : State) (pa : Nat) (bs : List Byte) :
    s.setRaws pa bs = { s with mem := { s.mem with dram := (s.setRaws pa bs).mem.dram } } := by
  induction bs generalizing s pa with
  | nil => rfl
  | cons b bs ih =>
    unfold State.setRaws
    rw [ih]
    rfl

theorem State.writeSector_frame (s : State) (pa : Nat) (bs : List Byte) :
    s.writeSector pa bs = { s with mem := { s.mem with dram := (s.writeSector pa bs).mem.dram } } := by
  unfold State.writeSector
  dsimp only
  split
  · exact State.setRaws_frame ..
  · split_ifs <;> rw [State.setRaws_frame, State.setRaws_frame]

theorem State.putSector_frame (s : State) (pa : Nat) (bs : List Byte) :
    s.putSector pa bs = { s with mem := (s.putSector pa bs).mem } := by
  unfold State.putSector
  split_ifs
  · rfl
  · rw [State.writeSector_frame]

theorem State.evWrite_frame (s : State) (t : Nat) (e : Ev) : s.evWrite t e =
    { s with
      regs := (s.evWrite t e).regs, mem := (s.evWrite t e).mem
      sent := (s.evWrite t e).sent, pcie := (s.evWrite t e).pcie } := by
  unfold State.evWrite
  extract_lets w size seq flags a rec_ s1 s2
  have hstored : s1 = { s with mem := s1.mem } := by
    by_cases ht : t = 33
    · rw [show s1 = s.putSector a rec_ from if_pos ht, State.putSector_frame]
    · rw [show s1 = s.hostWrite a rec_ from if_neg ht]
      rfl
  have hmoved : s2 = { s with regs := s2.regs, mem := s2.mem } := by
    rw [show s2 = s1.wr .EVQ_WRITE_INDEX (w + 1) t from rfl, hstored]
    rfl
  generalize s2 = s2 at hmoved ⊢
  rw [hmoved]
  split_ifs
  · rw [State.msix_frame]
  · rfl

theorem State.evOwed_frame (s : State) (t : Nat) : s.evOwed t =
    { s with
      regs := (s.evOwed t).regs, mem := (s.evOwed t).mem, sent := (s.evOwed t).sent, pcie := (s.evOwed t).pcie
      owed := (s.evOwed t).owed } := by
  unfold State.evOwed
  split
  · rfl
  · split_ifs
    · rw [State.evWrite_frame]
    · rfl

/-- What a record changes of the chip it is raised on. -/
theorem State.raise_frame (s : State) (t : Nat) (e : Ev) : s.raise t e =
    { s with
      regs := (s.raise t e).regs, mem := (s.raise t e).mem, sent := (s.raise t e).sent, pcie := (s.raise t e).pcie
      owed := (s.raise t e).owed } := by
  unfold State.raise State.evPost
  extract_lets s1 s2
  have howed : s2 = { s with regs := s2.regs, mem := s2.mem, sent := s2.sent, pcie := s2.pcie, owed := s2.owed } := by
    rw [show s2 = s1.evOwed t from rfl, State.evOwed_frame]
    rfl
  generalize s2 = s2 at howed ⊢
  rw [howed]
  split_ifs
  · rfl
  · rfl
  · rw [State.evWrite_frame]
  · unfold State.evDrop
    dsimp only
    split_ifs <;> rfl

theorem State.raise_pwr (s : State) (t : Nat) (e : Ev) : (s.raise t e).pwr = s.pwr := by rw [State.raise_frame]

theorem State.raise_pins (s : State) (t : Nat) (e : Ev) : (s.raise t e).pins = s.pins := by rw [State.raise_frame]

theorem fieldsKept_raisePart (hp : p < 65536) : FieldsKept raiseFields s (s.raisePart p e) := by
  have htarget : s.driverTarget p < 65536 := by
    unfold State.driverTarget
    split_ifs <;> omega
  unfold State.raisePart
  split
  · exact .ite fieldsKept_feltReq (fieldsKept_raise htarget)
  · exact fieldsKept_raise (by decide)

/-! ### The calender's records -/

theorem leAt_byte_lt (bs : List Byte) (o : Nat) : leAt bs o 1 < 256 := by
  have hlen : (slice bs o 1).length = 1 := by
    unfold slice
    simp only [List.length_append, List.length_replicate, List.length_take]
    omega
  have h := ofLe_lt (slice bs o 1)
  rwa [hlen] at h

theorem State.calPart_lt (h : s.calPart = some p) : p < 256 := by
  unfold State.calPart calRec at h
  obtain ⟨x, hx, rfl⟩ := Option.map_eq_some_iff.mp h
  obtain ⟨r, -, rfl⟩ := Option.map_eq_some_iff.mp hx
  exact leAt_byte_lt ..

theorem fieldsKept_raiseCal (e : Ev) : FieldsKept raiseFields s (s.raiseCal e) := by
  unfold State.raiseCal
  split
  next p hp =>
    have := State.calPart_lt hp
    exact fieldsKept_raisePart (by omega)
  · exact fieldsKept_raise (by decide)

theorem State.raiseCal_keeps (s : State) (e : Ev) : WorkKept s (s.raiseCal e) := by
  unfold State.raiseCal
  split
  · exact (Keeps.refl True s).raisePart.work trivial
  · exact (Keeps.refl True s).raise.work trivial

end

end Sys2Proof.Machine

end

