-- ==== Sys2Proof/Proofs/Calender.lean ====
section
/-!
PROOF. The calender: arming and latching planes (R211 to R215), link training and hot plug (R209), scan-out failures (R340).
-/

namespace Sys2Proof.Machine

open Sys2Proof.Claims

section
variable {s t : State} {h k data : Nat}

/-! ### The control word of a plane -/

/-- The fields of a plane's control word, with what a write leaves in them. -/
def State.planeFields (s : State) (h k data : Nat) : State :=
  (((s.wr .CAL_PLANE_CTRL_EN (bits data 30 30) h k).wr .CAL_PLANE_CTRL_FMT (bits data 29 28) h k).wr
    .CAL_PLANE_CTRL_ALPHA (bits data 27 20) h k).wr .CAL_PLANE_CTRL_ERR (andNot (s.rd .CAL_PLANE_CTRL_ERR h k) (data % 4)) h k

theorem bits_lt (x hi lo : Nat) : bits x hi lo < 2 ^ (hi + 1 - lo) := Nat.mod_lt _ (Nat.two_pow_pos _)

theorem State.planeFields_rd (hh : h < 65536) (hk : k < 65536) :
    (s.planeFields h k data).rd .CAL_PLANE_CTRL_EN h k = bits data 30 30 ∧
      (s.planeFields h k data).rd .CAL_PLANE_CTRL_FMT h k = bits data 29 28 ∧
      (s.planeFields h k data).rd .CAL_PLANE_CTRL_ALPHA h k = bits data 27 20 := by
  unfold State.planeFields
  refine ⟨?_, ?_, ?_⟩
  · rw [State.rd_wr_field _ hh hk hh hk (by decide), State.rd_wr_field _ hh hk hh hk (by decide),
      State.rd_wr_field _ hh hk hh hk (by decide)]
    exact State.rd_wr_of_lt _ (bits_lt data 30 30) ..
  · rw [State.rd_wr_field _ hh hk hh hk (by decide), State.rd_wr_field _ hh hk hh hk (by decide)]
    exact State.rd_wr_of_lt _ (bits_lt data 29 28) ..
  · rw [State.rd_wr_field _ hh hk hh hk (by decide)]
    exact State.rd_wr_of_lt _ (bits_lt data 27 20) ..

/-- The control words of a plane. -/
def planeCtrl (h k : Nat) : List (Field × Nat × Nat) :=
  [(.CAL_PLANE_CTRL_EN, h, k), (.CAL_PLANE_CTRL_FMT, h, k), (.CAL_PLANE_CTRL_ALPHA, h, k), (.CAL_PLANE_CTRL_ERR, h, k)]

theorem State.onlyRegs_planeFields (hh : h < 65536) (hk : k < 65536) : OnlyRegs s (s.planeFields h k data) (planeCtrl h k) := by
  refine ⟨?_, rfl⟩
  unfold State.planeFields
  rw [regsKept_wr (by simp [planeCtrl]) hh hk, regsKept_wr (by simp [planeCtrl]) hh hk, regsKept_wr (by simp [planeCtrl]) hh hk,
    regsKept_wr (by simp [planeCtrl]) hh hk]
  exact RegsKept.refl _ _

theorem State.writePlaneCtrl_eq (s : State) (h k data : Nat) : s.writePlaneCtrl h k data =
    if bitAt data 31 then (s.planeFields h k data).armPlane h k else s.planeFields h k data := rfl

/-- An arm of a plane other than plane 0 on head 0, which needs no scaler of its own. -/
theorem State.armPlane_of_ok (hk : k ≠ 0) (hok : s.planeOk 0 k = true) : s.armPlane 0 k = s.wr .CAL_PLANE_CTRL_ARM 1 0 k := by
  unfold State.armPlane
  simp only [hk, hok, decide_false, Bool.false_and, Bool.false_eq_true, if_false, Bool.not_true, Nat.zero_ne_one]

theorem State.armPlane_of_bad (hk : k ≠ 0) (hbad : s.planeOk h k = false) :
    s.armPlane h k = (s.wr .CAL_PLANE_CTRL_ARM 0 h k).wr .CAL_PLANE_CTRL_ERR 1 h k := by
  unfold State.armPlane State.refuseArm
  simp only [hk, hbad, decide_false, Bool.false_and, Bool.false_eq_true, if_false, Bool.not_false, if_true]

/-- The checks of an arm read the written format and nothing else of the control word. -/
theorem State.planeOk_planeFields (hh : h < 65536) (hk : k < 65536) :
    (s.planeFields h k data).planeOk h k = (s.wr .CAL_PLANE_CTRL_FMT (bits data 29 28) h k).planeOk h k := by
  have hfmt : (s.planeFields h k data).rd .CAL_PLANE_CTRL_FMT h k = bits data 29 28 := (State.planeFields_rd hh hk).2.1
  have hfmt' : (s.wr .CAL_PLANE_CTRL_FMT (bits data 29 28) h k).rd .CAL_PLANE_CTRL_FMT h k = bits data 29 28 :=
    State.rd_wr_of_lt _ (bits_lt data 29 28) ..
  have hother {f : Field} {j : Nat} (hj : j < 65536)
      (hf : f ∉ [Field.CAL_PLANE_CTRL_EN, .CAL_PLANE_CTRL_FMT, .CAL_PLANE_CTRL_ALPHA, .CAL_PLANE_CTRL_ERR]) :
      (s.planeFields h k data).rd f h j = (s.wr .CAL_PLANE_CTRL_FMT (bits data 29 28) h k).rd f h j := by
    simp only [List.mem_cons, List.not_mem_nil, or_false, not_or] at hf
    obtain ⟨h1, h2, h3, h4⟩ := hf
    unfold State.planeFields
    rw [State.rd_wr_field _ hh hk hh hj h4, State.rd_wr_field _ hh hk hh hj h3, State.rd_wr_field _ hh hk hh hj h2,
      State.rd_wr_field _ hh hk hh hj h1, State.rd_wr_field _ hh hk hh hj h2]
  unfold State.planeOk
  rw [hfmt, hfmt', hother (f := .CAL_PLANE_DST_X) hk (by decide), hother (f := .CAL_PLANE_DST_W) hk (by decide),
    hother (f := .CAL_PLANE_DST_Y) hk (by decide), hother (f := .CAL_PLANE_DST_H) hk (by decide),
    hother (f := .CAL_PLANE_SRC_W) hk (by decide), hother (f := .CAL_PLANE_SRC_H) hk (by decide),
    hother (f := .CAL_TIMING_HACTIVE) (by decide) (by decide), hother (f := .CAL_TIMING_VACTIVE) (by decide) (by decide)]

/-! ### Vertical blank -/

/-- The registers of a plane that latch. -/
def shadowFields : List Field :=
  [.CAL_PLANE_CTRL_EN, .CAL_PLANE_CTRL_FMT, .CAL_PLANE_CTRL_ALPHA, .CAL_PLANE_BASE, .CAL_PLANE_STRIDE, .CAL_PLANE_SRC_W,
    .CAL_PLANE_SRC_H, .CAL_PLANE_DST_X, .CAL_PLANE_DST_Y, .CAL_PLANE_DST_W, .CAL_PLANE_DST_H]

/-- Plane k of a head as it was: its arm, its shadow and its active copy. -/
structure PlaneKept (h k : Nat) (s t : State) : Prop where
  arm : t.rd .CAL_PLANE_CTRL_ARM h k = s.rd .CAL_PLANE_CTRL_ARM h k
  shadow : ∀ f ∈ shadowFields, t.rd f h k = s.rd f h k
  active : storeFind t.cal.active (planeKey h k) = storeFind s.cal.active (planeKey h k)

theorem PlaneKept.refl (h k : Nat) (s : State) : PlaneKept h k s s := ⟨rfl, fun _ _ => rfl, rfl⟩

theorem PlaneKept.trans {u : State} (a : PlaneKept h k s t) (b : PlaneKept h k t u) : PlaneKept h k s u :=
  ⟨b.arm.trans a.arm, fun f hf => (b.shadow f hf).trans (a.shadow f hf), b.active.trans a.active⟩

theorem PlaneKept.shadow_eq (a : PlaneKept h k s t) : t.shadow h k = s.shadow h k := by
  have hrd := a.shadow
  unfold State.shadow State.addrOf
  rw [hrd .CAL_PLANE_CTRL_EN (by decide), hrd .CAL_PLANE_CTRL_FMT (by decide), hrd .CAL_PLANE_CTRL_ALPHA (by decide),
    hrd .CAL_PLANE_BASE (by decide), hrd .CAL_PLANE_STRIDE (by decide), hrd .CAL_PLANE_SRC_W (by decide),
    hrd .CAL_PLANE_SRC_H (by decide), hrd .CAL_PLANE_DST_X (by decide), hrd .CAL_PLANE_DST_Y (by decide),
    hrd .CAL_PLANE_DST_W (by decide), hrd .CAL_PLANE_DST_H (by decide)]

/-- The end of a lead changes no register and no active copy. -/
theorem State.endLead_frame (s : State) (h : Nat) :
    (s.endLead h).regs = s.regs ∧ (s.endLead h).cal.active = s.cal.active := by
  have hlend (s : State) : s.lendChosen.regs = s.regs ∧ s.lendChosen.cal = s.cal := by
    unfold State.lendChosen
    exact List.foldlRecOn (motive := fun (t : State) => t.regs = s.regs ∧ t.cal = s.cal) _ _ ⟨rfl, rfl⟩ fun t ht n _ => ht
  unfold State.endLead State.returnLent
  split_ifs
  · refine ⟨(hlend _).1, ?_⟩
    rw [(hlend _).2]
  · exact ⟨rfl, rfl⟩
  · exact ⟨rfl, rfl⟩

theorem planeKept_endLead (s : State) (h' : Nat) : PlaneKept h k s (s.endLead h') := by
  obtain ⟨hregs, hactive⟩ := s.endLead_frame h'
  exact ⟨State.rd_congr hregs .., fun f _ => State.rd_congr hregs .., by rw [hactive]⟩

/-- Another plane of the head latches. -/
theorem planeKept_latchPlane {j : Nat} (hj : j ≠ k) (hh : h < 65536) (hk : k < 65536) (hj' : j < 65536) :
    PlaneKept h k s (s.latchPlane h j) := by
  have hne {f : Field} : f.key h k ≠ Field.CAL_PLANE_CTRL_ARM.key h j := fun e => hj (Field.key_inj hh hk hh hj' e).2.2.symm
  refine ⟨State.rd_wr_ne _ hne, fun f _ => State.rd_wr_ne _ hne, (storeFind_put ..).trans (if_neg ?_)⟩
  unfold planeKey
  omega

/-- A held frame changes its count and the registers of its record. -/
theorem fieldsKept_holdFrame (hh : h < 65536) : FieldsKept (.CAL_COUNTS_HELD :: raiseFields) s (s.holdFrame h) :=
  ((FieldsKept.refl ..).count (List.mem_cons_self ..) hh (by decide)).trans
    ((fieldsKept_raiseCal _).mono (List.subset_cons_self ..))

theorem State.cal_holdFrame (s : State) (h : Nat) : (s.holdFrame h).cal = s.cal := (State.raiseCal_keeps ..).cal

theorem planeKept_holdFrame (hh : h < 65536) (hk : k < 65536) : PlaneKept h k s (s.holdFrame h) := by
  have hkept := fieldsKept_holdFrame (s := s) hh
  refine ⟨hkept.rd _ (by decide) h hh k hk, fun f hf => hkept.rd _ ?_ h hh k hk, by rw [State.cal_holdFrame]⟩
  simp only [shadowFields, List.mem_cons, List.not_mem_nil, or_false] at hf
  obtain rfl | rfl | rfl | rfl | rfl | rfl | rfl | rfl | rfl | rfl | rfl := hf <;> decide

theorem State.rd_held_holdFrame (hh : h < 65536) :
    (s.holdFrame h).rd .CAL_COUNTS_HELD h = (s.count .CAL_COUNTS_HELD 1 h).rd .CAL_COUNTS_HELD h :=
  (fieldsKept_raiseCal _).rd _ (by decide) h hh 0 (by decide)

/-- Another plane's part of the vertical blank leaves the plane as it was. -/
theorem planeKept_blankPlane {j : Nat} (hj : j ≠ k) (hh : h < 65536) (hk : k < 65536) (hj' : j < 65536) :
    PlaneKept h k s (s.blankPlane h j) := by
  unfold State.blankPlane
  split_ifs
  · exact .refl ..
  · exact planeKept_holdFrame hh hk
  · exact (planeKept_latchPlane hj hh hk hj').trans (planeKept_endLead ..)
  · exact planeKept_latchPlane hj hh hk hj'

theorem planeKept_blankPlanes {l : List Nat} (hl : ∀ j ∈ l, j ≠ k ∧ j < 65536) (hh : h < 65536) (hk : k < 65536) :
    PlaneKept h k s (l.foldl (fun s k => s.blankPlane h k) s) :=
  List.foldlRecOn l _ (.refl ..) fun _ ht j hmem => ht.trans (planeKept_blankPlane (hl j hmem).1 hh hk (hl j hmem).2)

/-- The plane shows what its shadow held, and its arm is clear. -/
structure Latched (h k : Nat) (v : List Nat) (t : State) : Prop where
  arm : t.rd .CAL_PLANE_CTRL_ARM h k = 0
  active : storeFind t.cal.active (planeKey h k) = some v

theorem Latched.of_kept {v : List Nat} (a : Latched h k v s) (b : PlaneKept h k s t) : Latched h k v t :=
  ⟨b.arm.trans a.arm, b.active.trans a.active⟩

theorem latched_blankPlane (harm : s.rd .CAL_PLANE_CTRL_ARM h k = 1) (hmet : k = 0 → s.wallMet h = true) :
    Latched h k (s.shadow h k) (s.blankPlane h k) := by
  have hlatch : Latched h k (s.shadow h k) (s.latchPlane h k) := ⟨State.rd_wr_same .., (storeFind_put ..).trans (if_pos rfl)⟩
  unfold State.blankPlane
  rw [if_neg (by omega), if_neg (by simpa using hmet)]
  dsimp only
  split_ifs
  · exact hlatch.of_kept (planeKept_endLead ..)
  · exact hlatch

/-- The state at a vertical blank with the black planes shown again. -/
def State.unblacked (s : State) (h : Nat) : State :=
  { s with cal := { s.cal with black := s.cal.black.filter (fun x => x / 4 ≠ h) } }

theorem State.blank_eq (s : State) (h : Nat) :
    s.blank h = [1, 2, 3].foldl (fun s k => s.blankPlane h k) ((s.unblacked h).blankPlane h 0) := rfl

theorem latched_blank (hh : h < 65536) (hk : k < 4) (harm : s.rd .CAL_PLANE_CTRL_ARM h k = 1)
    (hmet : k = 0 → s.wallMet h = true) : Latched h k (s.shadow h k) (s.blank h) := by
  obtain ⟨l1, l2, hl⟩ := List.append_of_mem (a := k) (l := [0, 1, 2, 3]) (by simp; omega)
  have hnodup : (l1 ++ k :: l2).Nodup := hl ▸ by decide
  have hall : ∀ j ∈ l1 ++ k :: l2, j < 65536 := hl ▸ by decide
  have hne : ∀ j ∈ l1 ++ l2, j ≠ k := fun j hj e =>
    (List.nodup_cons.mp (List.perm_middle.nodup_iff.mp hnodup)).1 (e ▸ hj)
  let s1 := l1.foldl (fun s k => s.blankPlane h k) (s.unblacked h)
  have hbefore : PlaneKept h k s s1 := PlaneKept.trans (t := s.unblacked h) ⟨rfl, fun _ _ => rfl, rfl⟩
    (planeKept_blankPlanes (fun j hj => ⟨hne j (by simp [hj]), hall j (by simp [hj])⟩) hh (by omega))
  have hmet1 : k = 0 → s1.wallMet h = true := fun h0 => by
    have hfirst : l1 = [] := by
      cases l1 with
      | nil => rfl
      | cons x l1 =>
        have hx : x = 0 := (List.cons.inj hl).1.symm
        exact absurd (hx.trans h0.symm) (hne x (by simp))
    have hs1 : s1 = s.unblacked h := by
      unfold s1
      rw [hfirst]
      rfl
    rw [hs1]
    exact hmet h0
  have hstep := latched_blankPlane (hbefore.arm.trans harm) hmet1
  rw [hbefore.shadow_eq] at hstep
  have hafter : s.blank h = l2.foldl (fun s k => s.blankPlane h k) (s1.blankPlane h k) := by
    change [0, 1, 2, 3].foldl _ (s.unblacked h) = _
    rw [hl, List.foldl_append, List.foldl_cons]
  rw [hafter]
  exact hstep.of_kept (planeKept_blankPlanes (fun j hj => ⟨hne j (by simp [hj]), hall j (by simp [hj])⟩) hh (by omega))

/-- Planes 1 to 3 change no count of held frames. -/
theorem State.rd_held_blankPlanes {l : List Nat} (hl : ∀ j ∈ l, j ≠ 0 ∧ j < 65536) (hh : h < 65536) :
    (l.foldl (fun s k => s.blankPlane h k) s).rd .CAL_COUNTS_HELD h = s.rd .CAL_COUNTS_HELD h := by
  refine List.foldlRecOn (motive := fun (t : State) => t.rd .CAL_COUNTS_HELD h = s.rd .CAL_COUNTS_HELD h) l _ rfl
    fun t ht j hj => Eq.trans ?_ ht
  unfold State.blankPlane
  simp only [(hl j hj).1, decide_false, Bool.false_and, Bool.false_eq_true, if_false]
  split_ifs
  · rfl
  · exact State.rd_wr_field _ hh (hl j hj).2 hh (by decide) (by decide)

/-- Plane 0's arm at a vertical blank whose wall fence is not reached. -/
theorem held_blank (hh : h < 65536) (harm : s.rd .CAL_PLANE_CTRL_ARM h 0 = 1) (hnot : s.wallMet h = false) :
    (s.blank h).rd .CAL_PLANE_CTRL_ARM h 0 = 1 ∧
      (s.blank h).rd .CAL_COUNTS_HELD h = (s.count .CAL_COUNTS_HELD 1 h).rd .CAL_COUNTS_HELD h ∧
      storeFind (s.blank h).cal.active (planeKey h 0) = storeFind s.cal.active (planeKey h 0) := by
  have hhold : (s.unblacked h).blankPlane h 0 = (s.unblacked h).holdFrame h := by
    have harm' : (s.unblacked h).rd .CAL_PLANE_CTRL_ARM h 0 = 1 := harm
    have hnot' : (s.unblacked h).wallMet h = false := hnot
    unfold State.blankPlane
    rw [if_neg (by omega), if_pos (by simp [hnot'])]
  have hothers : ∀ j ∈ [1, 2, 3], j ≠ 0 ∧ j < 65536 := by decide
  have hkept : PlaneKept h 0 s (s.blank h) := by
    rw [State.blank_eq, hhold]
    exact .trans (t := s.unblacked h) ⟨rfl, fun _ _ => rfl, rfl⟩
      ((planeKept_holdFrame hh (by decide)).trans (planeKept_blankPlanes hothers hh (by decide)))
  refine ⟨hkept.arm.trans harm, ?_, hkept.active⟩
  rw [State.blank_eq, hhold, State.rd_held_blankPlanes hothers hh, State.rd_held_holdFrame hh]
  rfl

/-! ### The lead -/

theorem vatsOnly_lendChosen (s : State) : VatsOnly s s.lendChosen := by
  unfold State.lendChosen
  exact List.foldlRecOn (motive := VatsOnly s) _ _ ⟨rfl, rfl, rfl, rfl, rfl⟩ fun t ht n _ => ht.trans ⟨rfl, rfl, rfl, rfl, rfl⟩

/-- A request for vats by the deadline takes vats and counters. -/
theorem vatsOnly_deadlineRequest (s : State) : VatsOnly s s.deadlineRequest := by
  unfold State.deadlineRequest
  extract_lets lend now pick s1
  have hpick : VatsOnly s s1 := by
    refine .foldl (fun s n => ?_) pick s
    split
    · split_ifs
      · exact .refl s
      · exact vatsOnly_preempt ..
    · exact .refl s
  split_ifs
  · exact ⟨rfl, rfl, rfl, rfl, rfl⟩
  · obtain ⟨hhb, hmem, hlaunches, hgeo, hcal⟩ :=
      vatsOnly_lendChosen { s1 with sched := { s1.sched with chosen := s1.sched.chosen ++ pick } }
    exact hpick.trans ⟨hhb, hmem, hlaunches, hgeo, hcal⟩

theorem State.leadNow_eq (harm : s.rd .CAL_PLANE_CTRL_ARM h 0 = 1) (hnot : s.wallMet h = false)
    (hlead : s.rd .CAL_LEAD_CYCLES h ≠ 0) (hnew : s.cal.lead.contains h = false) :
    s.leadNow h = State.deadlineRequest { s with cal := { s.cal with lead := s.cal.lead ++ [h] } } := by
  unfold State.leadNow
  simp only [harm, hnot, hnew, hlead, ne_eq, not_false_eq_true, decide_true, Bool.not_false, Bool.and_self, if_true]

/-! ### Training and hot plug -/

/-- A head whose training has ended, with or without a link that carries the mode. -/
theorem State.trained_spec {link : Option (Fin 4 × Fin 3)} (hh : h < 65504) (hstart : s.funcState (32 + h) = fnStarting) (ok : Bool)
    (hok : (match link with | some (r, l) => s.linkCarries h r l | none => false) = ok) :
    (s.trained h link).funcState (32 + h) = (if ok then fnRunning else fnStopped) ∧
      (s.trained h link).rd .CAL_HEAD_CTRL_TRAINED h = b2n ok ∧ (s.trained h link).rd .CAL_HEAD_CTRL_FAIL h = b2n (!ok) ∧
      s.trained h link = { s with regs := (s.trained h link).regs } := by
  have heq : s.trained h link = ((s.wr .CAL_HEAD_CTRL_TRAINED (b2n ok) h).wr .CAL_HEAD_CTRL_FAIL (b2n (!ok)) h).setFunc (32 + h)
      (if ok then fnRunning else fnStopped) := by
    unfold State.trained
    rw [if_neg (not_not.mpr hstart)]
    subst hok
    cases link <;> rfl
  rw [heq]
  refine ⟨State.funcState_setFunc_same (by cases ok <;> decide), ?_, ?_, rfl⟩
  · rw [State.rd_setFunc (by omega) (by omega) (by decide) (by decide),
      State.rd_wr_field _ (by omega) (by decide) (by omega) (by decide) (by decide)]
    cases ok <;> exact State.rd_wr_same ..
  · rw [State.rd_setFunc (by omega) (by omega) (by decide) (by decide)]
    cases ok <;> exact State.rd_wr_same ..

/-- A head that is unplugged, before its record: one that runs stops. -/
def State.unplugged (s : State) (h : Nat) : State :=
  if s.headRuns h then ((s.wr .CAL_HEAD_CTRL_HPD 0 h).wr .CAL_HEAD_CTRL_TRAINED 0 h).setFunc (32 + h) fnStopped
  else s.wr .CAL_HEAD_CTRL_HPD 0 h

theorem State.unplugged_spec (hh : h < 65504) :
    (s.unplugged h).rd .CAL_HEAD_CTRL_HPD h = 0 ∧
      (s.headRuns h = true → (s.unplugged h).funcState (32 + h) = fnStopped ∧ (s.unplugged h).rd .CAL_HEAD_CTRL_TRAINED h = 0) ∧
      s.unplugged h = { s with regs := (s.unplugged h).regs } ∧
      ∀ f i, f ∉ [Field.CAL_HEAD_CTRL_HPD, .CAL_HEAD_CTRL_TRAINED, .GLB_FUNC_STATE_STATE] → i < 65536 →
        (s.unplugged h).rd f i = s.rd f i := by
  have hhpd : (s.wr .CAL_HEAD_CTRL_HPD 0 h).rd .CAL_HEAD_CTRL_HPD h = 0 := State.rd_wr_same ..
  unfold State.unplugged
  split_ifs with hruns
  · refine ⟨?_, fun _ => ⟨State.funcState_setFunc_same (by decide), ?_⟩, rfl, fun f i hf hi => ?_⟩
    · rw [State.rd_setFunc (by omega) (by omega) (by decide) (by decide),
        State.rd_wr_field _ (by omega) (by decide) (by omega) (by decide) (by decide)]
      exact hhpd
    · rw [State.rd_setFunc (by omega) (by omega) (by decide) (by decide)]
      exact State.rd_wr_same ..
    · simp only [List.mem_cons, List.not_mem_nil, or_false, not_or] at hf
      obtain ⟨h1, h2, h3⟩ := hf
      rw [State.rd_setFunc (by omega) hi (by decide) h3, State.rd_wr_field _ (by omega) (by decide) hi (by decide) h2,
        State.rd_wr_field _ (by omega) (by decide) hi (by decide) h1]
  · refine ⟨hhpd, fun h => absurd h hruns, rfl, fun f i hf hi => ?_⟩
    exact State.rd_wr_field _ (by omega) (by decide) hi (by decide) fun e => hf (by simp [e])

theorem State.unplug_eq (hh : h < 65504) (hpd : s.rd .CAL_HEAD_CTRL_HPD h = 1) (hlead : s.cal.lead = []) :
    s.unplug h = (s.unplugged h).raiseHpd h 0 := by
  have hruns : (s.wr .CAL_HEAD_CTRL_HPD 0 h).headRuns h = s.headRuns h := by
    unfold State.headRuns
    rw [State.funcState_wr (by omega) (by omega) (by decide) (by decide)]
  have hend : ((s.wr .CAL_HEAD_CTRL_HPD 0 h).wr .CAL_HEAD_CTRL_TRAINED 0 h).endLead h =
      (s.wr .CAL_HEAD_CTRL_HPD 0 h).wr .CAL_HEAD_CTRL_TRAINED 0 h :=
    State.endLead_of_none (s := (s.wr .CAL_HEAD_CTRL_HPD 0 h).wr .CAL_HEAD_CTRL_TRAINED 0 h) hlead h
  unfold State.unplug State.unplugged
  rw [if_neg (by omega)]
  simp only [hruns, hend]

/-- The HPD record of a disabled queue: its kind is pending. -/
theorem State.raiseHpd_spec {p : Nat} (hp : p < 32) (hcal : s.calPart = some p) (hhome : s.homed p = true)
    (hoff : s.rd .EVQ_CTRL_EN (s.driverTarget p) = 0) (what : Nat) :
    kindBit ((s.raiseHpd h what).rd .EVQ_PEND_PEND (s.driverTarget p)) 9 = true ∧ (s.raiseHpd h what).mem = s.mem ∧
      ∀ f i, f ≠ .EVQ_PEND_PEND → i < 65536 → (s.raiseHpd h what).rd f i = s.rd f i := by
  have ht : s.driverTarget p < 65536 := by
    have := s.driverTarget_le hp
    omega
  have heq : s.raiseHpd h what = s.wr .EVQ_PEND_PEND (setBit (s.rd .EVQ_PEND_PEND (s.driverTarget p)) 8) (s.driverTarget p) := by
    unfold State.raiseHpd State.raiseCal
    rw [hcal]
    exact (State.raisePart_of_homed s hhome _).trans (State.raise_of_disabled ht hoff _)
  rw [heq]
  refine ⟨(bitAt_rd_wr_same _ _ (by decide)).trans (kindBit_setBit _ (k := 9)), rfl, fun f i hf hi => ?_⟩
  exact State.rd_wr_field _ ht (by decide) hi (by decide) hf

end

end Sys2Proof.Machine

namespace Sys2Proof.Claims

open Sys2Proof Sys2Proof.Machine

/-- A control word written by a function that may write the calender's registers. -/
theorem exec_planeArm {s : State} {fn : Fin 33} {h : Fin 2} {k : Fin 4} {data : Word} (hmay : s.calWrites fn = true)
    (hon : s.domState domCal = 0) : exec (.planeArm fn h k data) s = .next (s.writePlaneCtrl h k data.toNat) :=
  congrArg Host.Outcome.next (if_pos (by simp [hmay, hon]))

theorem planesArmAndLatch : PlanesArmAndLatch := by
  intro s fn h k data
  have hh : h.val < 65536 := by omega
  have hk : k.val < 65536 := by omega
  refine ⟨fun hmay hon hbit => ?fields, fun hmay hon hbit hk0 => ⟨fun hok hh0 => ?armed, fun hbad => ?refused⟩,
    fun hlive hruns harm hmet => ?latch, fun hlive hruns harm hnot => ?held, fun hlive hruns harm hnot hlead hnew => ?lead⟩
  case fields =>
    obtain ⟨hen, hfmt, halpha⟩ := State.planeFields_rd (s := s) (data := data.toNat) hh hk
    have heq : s.writePlaneCtrl h k data.toNat = s.planeFields h k data.toNat := by
      rw [State.writePlaneCtrl_eq, hbit]
      rfl
    exact ⟨_, (exec_planeArm hmay hon).trans (congrArg _ heq), hen, hfmt, halpha, State.onlyRegs_planeFields hh hk⟩
  case armed =>
    obtain rfl : h = 0 := Fin.ext hh0
    have hok' : (s.planeFields 0 k data.toNat).planeOk 0 k = true := (State.planeOk_planeFields (by decide) hk).trans hok
    have heq : s.writePlaneCtrl 0 k data.toNat = (s.planeFields 0 k data.toNat).wr .CAL_PLANE_CTRL_ARM 1 0 k := by
      rw [State.writePlaneCtrl_eq, hbit, if_pos rfl, State.armPlane_of_ok hk0 hok']
    obtain ⟨hkept, hrest⟩ := State.onlyRegs_planeFields (s := s) (data := data.toNat) (h := 0) (by decide) hk
    refine ⟨_, (exec_planeArm hmay hon).trans (congrArg _ heq), State.rd_wr_same .., ?_, rfl⟩
    refine (regsKept_wr (by simp) (by decide) hk).mpr (hkept.mono ?_)
    simp [planeCtrl]
  case refused =>
    have hbad' : (s.planeFields h k data.toNat).planeOk h k = false := (State.planeOk_planeFields hh hk).trans hbad
    have heq : s.writePlaneCtrl h k data.toNat =
        ((s.planeFields h k data.toNat).wr .CAL_PLANE_CTRL_ARM 0 h k).wr .CAL_PLANE_CTRL_ERR 1 h k := by
      rw [State.writePlaneCtrl_eq, hbit, if_pos rfl, State.armPlane_of_bad hk0 hbad']
    obtain ⟨hkept, hrest⟩ := State.onlyRegs_planeFields (s := s) (data := data.toNat) hh hk
    refine ⟨_, (exec_planeArm hmay hon).trans (congrArg _ heq), ?_, State.rd_wr_same .., ?_, rfl⟩
    · rw [State.rd_wr_field _ hh hk hh hk (by decide)]
      exact State.rd_wr_same ..
    · refine (regsKept_wr (by simp) hh hk).mpr ((regsKept_wr (by simp) hh hk).mpr (hkept.mono ?_))
      simp [planeCtrl]
  case latch =>
    have hlatched := latched_blank hh k.isLt harm hmet
    exact ⟨s.blank h, congrArg Host.Outcome.next (if_pos (by simp [hlive, hruns])), hlatched.arm, hlatched.active⟩
  case held =>
    exact ⟨s.blank h, congrArg Host.Outcome.next (if_pos (by simp [hlive, hruns])), held_blank hh harm hnot⟩
  case lead =>
    have hkept := vatsOnly_deadlineRequest { s with cal := { s.cal with lead := s.cal.lead ++ [h.val] } }
    have heq := State.leadNow_eq harm hnot hlead hnew
    refine ⟨_, congrArg Host.Outcome.next ((if_pos (by simp [hlive, hruns])).trans heq), ?_, hkept.mem⟩
    rw [hkept.cal]

theorem headsTrainAndPlug : HeadsTrainAndPlug := by
  intro s h k link p hlive hlead
  have hh : h.val < 65504 := by omega
  have hp : p.val < 32 := p.isLt
  have hraise (u : State) (hu : u = { s with regs := u.regs })
      (hrd : ∀ f i, f ∉ [Field.CAL_HEAD_CTRL_HPD, .CAL_HEAD_CTRL_TRAINED, .GLB_FUNC_STATE_STATE] → i < 65536 → u.rd f i = s.rd f i)
      (hcal : s.calPart = some p.val) (hhome : s.homed p = true) (hoff : s.rd .EVQ_CTRL_EN (s.driverTarget p) = 0) (what : Nat) :
      kindBit ((u.raiseHpd h what).rd .EVQ_PEND_PEND (s.driverTarget p)) 9 = true ∧ (u.raiseHpd h what).mem = s.mem ∧
        ∀ f i, f ≠ .EVQ_PEND_PEND → i < 65536 → (u.raiseHpd h what).rd f i = u.rd f i := by
    have ht : s.driverTarget p < 65536 := by
      have := s.driverTarget_le hp
      omega
    have htarget : u.driverTarget p = s.driverTarget p := State.driverTarget_congr (s := s) (u := u) (by rw [hu]) (by rw [hu])
      (hrd _ 0 (by decide) (by decide)) p
    obtain ⟨hpend, hmem, hother⟩ := State.raiseHpd_spec (s := u) (h := h) hp (by rw [hu]; exact hcal)
      ((State.homed_congr (s := s) (u := u) (by rw [hu]) (by rw [hu]) p).trans hhome)
      (by rw [htarget, hrd _ _ (by decide) ht]; exact hoff) what
    exact ⟨htarget ▸ hpend, hmem.trans (by rw [hu]), hother⟩
  refine ⟨fun hstart => ⟨fun hlink => ?trained, fun hlink => ?failed⟩,
    fun hcal hhome hoff => ⟨fun hpd => ?plug, fun hpd => ⟨?irq, ?unplug⟩⟩, fun hruns hshown => ?line⟩
  case trained =>
    obtain ⟨r, l, rfl, hcarries⟩ := hlink
    obtain ⟨hrun, htrained, hfail, hrest⟩ := State.trained_spec (link := some (r, l)) hh hstart true hcarries
    exact ⟨s.trained h (some (r, l)), congrArg Host.Outcome.next (if_pos hlive), hrun, htrained, hfail, hrest⟩
  case failed =>
    subst hlink
    obtain ⟨hstop, htrained, hfail, hrest⟩ := State.trained_spec (link := none) hh hstart false rfl
    exact ⟨s.trained h none, congrArg Host.Outcome.next (if_pos hlive), hstop, htrained, hfail, hrest⟩
  case plug =>
    let s1 := s.wr .CAL_HEAD_CTRL_HPD 1 h
    obtain ⟨hpend, hmem, hother⟩ := hraise s1 rfl (fun f i hf hi => State.rd_wr_field _ (by omega) (by decide) hi (by decide)
      fun e => hf (by simp [e])) hcal hhome hoff 1
    refine ⟨s1.raiseHpd h 1, congrArg Host.Outcome.next (if_pos (by simp [hlive, hpd])), ?_, hpend, hmem⟩
    rw [hother _ _ (by decide) (by omega)]
    exact State.rd_wr_same ..
  case irq =>
    obtain ⟨hpend, hmem, hother⟩ := State.raiseHpd_spec (s := s) (h := h) hp hcal hhome hoff 2
    refine ⟨s.raiseHpd h 2, congrArg Host.Outcome.next (if_pos (by simp [hlive, hpd])), ?_, hpend, hmem⟩
    rw [hother _ _ (by decide) (by omega)]
    exact hpd
  case unplug =>
    obtain ⟨hzero, hstop, hrest, hrd⟩ := State.unplugged_spec (s := s) hh
    obtain ⟨hpend, hmem, hother⟩ := hraise _ hrest hrd hcal hhome hoff 0
    refine ⟨_, congrArg Host.Outcome.next ((if_pos hlive).trans (State.unplug_eq hh hpd hlead)), ?_, fun hruns => ?_, hpend, hmem⟩
    · rw [hother _ _ (by decide) (by omega)]
      exact hzero
    · obtain ⟨hfunc, htrained⟩ := hstop hruns
      exact ⟨(hother _ _ (by decide) (by omega)).trans hfunc, (hother _ _ (by decide) (by omega)).trans htrained⟩
  case line =>
    refine ⟨s.lineFail h k, congrArg Host.Outcome.next (if_pos (by simp [hlive, hruns, hshown])), State.rd_wr_same .., ?_, rfl, ?_⟩
    · change List.contains (if s.cal.black.contains (planeKey h k) then s.cal.black else s.cal.black ++ [planeKey h k])
        (planeKey h k) = true
      split_ifs with hblack
      · exact hblack
      · simp
    · exact (regsKept_wr (List.mem_singleton_self _) (by omega) (by omega)).mpr (regsKept_of_regs rfl _)

/-- Settles O42. -/
theorem displayArmsTrainsAndPlugs : Obligations.DisplayArmsTrainsAndPlugs := ⟨planesArmAndLatch, headsTrainAndPlug⟩

end Sys2Proof.Claims

end

