-- ==== Sys2Proof/Proofs/Sectors.lean ====
section
/-!
PROOF. What a read of DRAM depends on (R353, R366, R372), and an access at L2 that hits the one sector it touches (R355).
-/

namespace Sys2Proof.Machine

section
variable {s u : State}

/-! ### What a read of DRAM depends on -/

/-- The registers that a read of DRAM reads: the regions and the save-all. -/
def dramFields : List Field :=
  [.MEM_REGION_CODE, .MEM_REGION_BASE, .MEM_REGION_SIZE, .MEM_SAVEALL_VALID, .MEM_SAVEALL_BLOCK]

/-- The stored cells and the registers that a read of DRAM reads are the same. -/
structure SameDram (s u : State) : Prop where
  rd : ∀ f ∈ dramFields, ∀ i < 16, ∀ j < 8, u.rd f i j = s.rd f i j
  installed : u.pins.dram = s.pins.dram
  dram : u.mem.dram = s.mem.dram

theorem SameDram.refl (s : State) : SameDram s s := ⟨fun _ _ _ _ _ _ => rfl, rfl, rfl⟩

theorem SameDram.trans {t : State} (h : SameDram s t) (k : SameDram t u) : SameDram s u :=
  ⟨fun f hf i hi j hj => (k.rd f hf i hi j hj).trans (h.rd f hf i hi j hj), k.installed.trans h.installed, k.dram.trans h.dram⟩

theorem FieldsKept.sameDram {l : List Field} (h : FieldsKept l s u) (hl : ∀ f ∈ dramFields, f ∉ l)
    (hpins : u.pins.dram = s.pins.dram) (hdram : u.mem.dram = s.mem.dram) : SameDram s u :=
  ⟨fun f hf i hi j hj => h.rd f (hl f hf) i (by omega) j (by omega), hpins, hdram⟩

theorem sameDram_of_regs (hregs : u.regs = s.regs) (hpins : u.pins.dram = s.pins.dram) (hdram : u.mem.dram = s.mem.dram) :
    SameDram s u := ⟨fun _ _ _ _ _ _ => State.rd_congr hregs .., hpins, hdram⟩

theorem ctrlOf_lt (pa : Nat) : ctrlOf pa < 12 := Nat.mod_lt _ (by decide)

section
variable (h : SameDram s u)
include h

theorem SameDram.storedAt (pa : Nat) : u.storedAt pa = s.storedAt pa := by
  have hctrl := ctrlOf_lt pa
  have hentry : u.saveallEntry (ctrlOf pa) (blockOf pa) = s.saveallEntry (ctrlOf pa) (blockOf pa) := by
    unfold State.saveallEntry
    refine List.find?_congr fun e he => ?_
    have he8 : e < 8 := List.mem_range.mp he
    rw [h.rd .MEM_SAVEALL_VALID (by decide) _ (by omega) e he8, h.rd .MEM_SAVEALL_BLOCK (by decide) _ (by omega) e he8]
  unfold State.storedAt State.spareBlock
  dsimp only
  rw [hentry, h.installed]

theorem SameDram.rawByte (pa : Nat) : u.rawByte pa = s.rawByte pa := by
  unfold State.rawByte
  rw [h.storedAt, h.dram]

theorem SameDram.region {r : Nat} (hr : r < 16) : u.region r = s.region r := by
  unfold State.region State.addrOf
  rw [h.rd .MEM_REGION_CODE (by decide) r hr 0 (by decide), h.rd .MEM_REGION_BASE (by decide) r hr 0 (by decide),
    h.rd .MEM_REGION_SIZE (by decide) r hr 0 (by decide)]

theorem SameDram.regionOf (pa : Nat) : u.regionOf pa = s.regionOf pa := by
  unfold State.regionOf
  refine List.find?_congr fun r hr => ?_
  rw [h.region (List.mem_range.mp hr)]

theorem SameDram.decodeByte (pa : Nat) : u.decodeByte pa = s.decodeByte pa := by
  unfold State.decodeByte
  rw [h.regionOf]
  split
  · rw [h.rawByte]
  · next r hr =>
    have hlt : r < 16 := List.mem_range.mp (List.mem_of_find?_eq_some hr)
    dsimp only
    rw [h.region hlt, h.rawByte, h.rawByte]

theorem SameDram.readSector (pa : Nat) : u.readSector pa = s.readSector pa := by
  unfold State.readSector
  simp only [h.decodeByte]

end

/-! ### Sectors -/

theorem sectorOf_aligned (pa : Nat) : sectorOf (pa / 32 * 32) = sectorOf pa := by
  unfold sectorOf
  omega

theorem sliceOf_aligned (pa : Nat) : sliceOf (pa / 32 * 32) = sliceOf pa := by
  have h7 : pa / 32 * 32 / 2 ^ 7 = pa / 2 ^ 7 := by omega
  have h11 : pa / 32 * 32 / 2 ^ 11 = pa / 2 ^ 11 := by omega
  have h15 : pa / 32 * 32 / 2 ^ 15 = pa / 2 ^ 15 := by omega
  have h19 : pa / 32 * 32 / 2 ^ 19 = pa / 2 ^ 19 := by omega
  unfold sliceOf bits
  rw [h7, h11, h15, h19]

theorem sliceOf_lt (pa : Nat) : sliceOf pa < 16 := by
  have hbits (hi lo : Nat) (h : hi + 1 - lo = 4) : bits pa hi lo < 2 ^ 4 := by
    unfold bits
    rw [h]
    exact Nat.mod_lt _ (by decide)
  exact Nat.xor_lt_two_pow (Nat.xor_lt_two_pow (hbits 10 7 rfl) (hbits 14 11 rfl))
    (Nat.xor_lt_two_pow (hbits 18 15 rfl) (hbits 22 19 rfl))

theorem State.l2Hit_aligned (s : State) (pa : Nat) : s.l2Hit (pa / 32 * 32) = s.l2Hit pa := by
  unfold State.l2Hit
  rw [sectorOf_aligned]

theorem Sector.bytes_length (x : Sector) : x.bytes.length = 32 := length_toLe ..

/-- The bytes of a sector that holds a list of 32. -/
theorem Sector.bytes_of {bs : List Byte} (hlen : bs.length = 32) (dirty : Bool) :
    Sector.bytes ⟨BitVec.ofNat 256 (ofLe bs), dirty⟩ = bs := by
  have hlt : ofLe bs < 2 ^ 256 := by
    have := ofLe_lt bs
    rwa [hlen] at this
  unfold Sector.bytes
  rw [BitVec.toNat_ofNat, Nat.mod_eq_of_lt hlt, ← hlen, toLe_ofLe]

theorem mergeBytes_length {old bs : List Byte} {off : Nat} (h : off + bs.length ≤ old.length) :
    (mergeBytes old off bs).length = old.length := by
  simp only [mergeBytes, List.length_append, List.length_take, List.length_drop]
  omega

/-- A byte of merged bytes is one of the new ones or an old one. -/
theorem getD_mergeBytes {old bs : List Byte} {off i : Nat} (h : off + bs.length ≤ old.length) :
    (mergeBytes old off bs).getD i 0 = if off ≤ i ∧ i < off + bs.length then bs.getD (i - off) 0 else old.getD i 0 := by
  have htake : (old.take off).length = off := by
    rw [List.length_take]
    omega
  simp only [mergeBytes, List.getD_eq_getElem?_getD]
  by_cases h1 : i < off
  · rw [List.append_assoc, List.getElem?_append_left (by omega), List.getElem?_take_of_lt h1, if_neg (by omega)]
  · rw [List.append_assoc, List.getElem?_append_right (by omega), htake]
    by_cases h2 : i < off + bs.length
    · rw [List.getElem?_append_left (by omega), if_pos ⟨by omega, h2⟩]
    · rw [List.getElem?_append_right (by omega), List.getElem?_drop, if_neg (by omega)]
      congr 2
      omega

/-! ### Accesses at L2 -/

variable {who : Asker} {pol : CachePolicy} {pa n : Nat} {x : Sector} {bs : List Byte}

theorem State.wakeNow_of_on {d : Nat} (h : s.domState d = 0) : s.wakeNow d = s := if_pos h

theorem State.l2ReadSector_of_hit (hhit : s.l2Hit pa = some x) (hon : s.domState (domL2 (sliceOf pa)) = 0) :
    s.l2ReadSector who pol pa = (s, some x.bytes) := by
  unfold State.l2ReadSector State.wakeSlice
  rw [State.wakeNow_of_on hon]
  dsimp only
  rw [hhit]

theorem sectorsOf_one (hn : 0 < n) (hle : pa % 32 + n ≤ 32) : sectorsOf pa n = 1 := by
  unfold sectorsOf
  rw [if_neg (by omega)]
  omega

/-- A read within one sector. -/
theorem State.l2Read_of_sector {t : State} (hn : 0 < n) (hle : pa % 32 + n ≤ 32)
    (hread : s.l2ReadSector who pol (pa / 32 * 32) = (t, some bs)) :
    s.l2Read who pol pa n = (t, some ((bs.drop (pa % 32)).take n)) := by
  have hsectors : s.l2ReadSectors who pol 1 (pa / 32 * 32) = (t, some bs) := by
    unfold State.l2ReadSectors
    rw [hread]
    simp only [State.l2ReadSectors, List.append_nil]
  unfold State.l2Read
  rw [sectorsOf_one hn hle, hsectors]

/-- A write within one sector that L2 holds: its bytes are merged into the sector. -/
theorem State.l2Write_of_hit (hhit : s.l2Hit pa = some x) (hon : s.domState (domL2 (sliceOf pa)) = 0) (hne : bs ≠ [])
    (hle : pa % 32 + bs.length ≤ 32) :
    ∃ ts, s.l2Write who pol pa bs =
      (State.l2Put { s with mem := { s.mem with trackers := ts } } (pa / 32 * 32) (mergeBytes x.bytes (pa % 32) bs) true, true) := by
  have hpos : 0 < bs.length := List.length_pos_of_ne_nil hne
  obtain ⟨ts, b, hdetect⟩ : ∃ ts b, s.detect who pol pa = ({ s with mem := { s.mem with trackers := ts } }, b) := by
    unfold State.detect
    split
    · exact ⟨_, _, rfl⟩
    · split_ifs
      · exact ⟨_, _, rfl⟩
      · exact ⟨_, _, rfl⟩
  refine ⟨ts, ?_⟩
  let t : State := { s with mem := { s.mem with trackers := ts } }
  have hoff : pa - pa % 32 = pa / 32 * 32 := by omega
  have hhit' : t.l2Hit (pa / 32 * 32) = some x := (State.l2Hit_aligned t pa).trans hhit
  have hon' : t.domState (domL2 (sliceOf (pa / 32 * 32))) = 0 := by
    rw [sliceOf_aligned]
    exact hon
  have hsector : t.l2WriteSector who pol b (pa / 32 * 32) (pa % 32) bs =
      (t.l2Put (pa / 32 * 32) (mergeBytes x.bytes (pa % 32) bs) true, true) := by
    unfold State.l2WriteSector State.wakeSlice
    rw [State.wakeNow_of_on hon']
    dsimp only
    rw [hhit']
  unfold State.l2Write
  rw [sectorsOf_one hpos hle]
  unfold State.l2WriteFrom
  rw [if_neg (by simpa using hne)]
  dsimp only
  rw [hdetect, List.take_of_length_le (by omega), hoff]
  dsimp only
  rw [hsector]
  simp only [if_true, State.l2WriteFrom]
  rfl

/-- The bytes that the memory shows after a write into a sector that L2 holds. -/
theorem State.physByte_l2Put (hen : s.rd .L2_CTRL_EN = 1) (hhit : s.l2Hit pa = some x) (hle : pa % 32 + bs.length ≤ 32)
    (ts : List (Nat × List Tracker)) (b : Nat) :
    (State.l2Put { s with mem := { s.mem with trackers := ts } } (pa / 32 * 32) (mergeBytes x.bytes (pa % 32) bs) true).physByte b =
      if pa ≤ b ∧ b < pa + bs.length then bs.getD (b - pa) 0 else s.physByte b := by
  let u := State.l2Put { s with mem := { s.mem with trackers := ts } } (pa / 32 * 32) (mergeBytes x.bytes (pa % 32) bs) true
  have hlen : (mergeBytes x.bytes (pa % 32) bs).length = 32 := (mergeBytes_length (by rw [x.bytes_length]; exact hle)).trans x.bytes_length
  have hsame : SameDram s u := sameDram_of_regs rfl rfl rfl
  have hfind : storeFind u.mem.l2 (b / 32) = if b / 32 = pa / 32 then
      some ⟨BitVec.ofNat 256 (ofLe (mergeBytes x.bytes (pa % 32) bs)), true⟩ else storeFind s.mem.l2 (b / 32) := by
    have hkey : sectorOf (pa / 32 * 32) = pa / 32 := sectorOf_aligned pa
    change storeFind (storePut (sectorOf (pa / 32 * 32)) _ s.mem.l2) (b / 32) = _
    rw [hkey, storeFind_put]
  have hhitb (t : State) (ht : t.rd .L2_CTRL_EN = 1) : t.l2Hit (b / 32 * 32) = storeFind t.mem.l2 (b / 32) := by
    unfold State.l2Hit
    rw [if_pos ht, sectorOf_aligned]
    rfl
  change u.physByte b = _
  unfold State.physByte State.sectorView
  rw [hhitb u hen, hhitb s hen, hfind]
  by_cases hb : b / 32 = pa / 32
  · have hx : storeFind s.mem.l2 (b / 32) = some x := by
      rw [hb, ← hhit]
      unfold State.l2Hit
      rw [if_pos hen]
      rfl
    rw [if_pos hb, hx]
    dsimp only
    rw [Sector.bytes_of hlen, getD_mergeBytes (by rw [x.bytes_length]; exact hle)]
    by_cases hin : pa ≤ b ∧ b < pa + bs.length
    · rw [if_pos hin, if_pos (by omega)]
      congr 1
      omega
    · rw [if_neg hin, if_neg (by omega)]
  · rw [if_neg hb, if_neg (by omega)]
    split
    · rfl
    · rw [hsame.readSector]

end

end Sys2Proof.Machine

end

