-- ==== Sys2Proof/Proofs/L2Requests.lean ====
section
/-!
PROOF. Requests at the L2 (R355, R356, R361): hits, the atomics of the slice, and parity errors.
-/

namespace Sys2Proof.Machine

section
variable {s u : State} {who : Asker} {pol : CachePolicy} {pa n : Nat} {x : Sector} {bs : List Byte}

/-! ### What the use of DRAM counts -/

/-- The registers that the use of DRAM counts in. -/
def useFields : List Field := .HB_USE_DRAM :: raiseFields

theorem Asker.activity_lt {a : Nat} (hpart : who.part < 32) (ha : who.activity = some a) : a < 64 := by
  unfold Asker.activity at ha
  split at ha <;> simp only [Option.some.injEq, reduceCtorEq] at ha <;> omega

theorem fieldsKept_chargeMiss (hpart : who.part < 32) : FieldsKept raiseFields s (s.chargeMiss who) := by
  unfold State.chargeMiss
  split
  · exact .refl ..
  · next a ha =>
    have := Asker.activity_lt hpart ha
    exact fieldsKept_charge (by omega)

theorem fieldsKept_chargeDram (hpart : who.part < 32) : FieldsKept raiseFields s (s.chargeDram who n) := by
  unfold State.chargeDram
  split
  · exact .refl ..
  · next a ha =>
    have := Asker.activity_lt hpart ha
    refine .ite (.refl ..) (.trans ?_ (fieldsKept_charge (by omega)))
    exact fieldsKept_of_regs rfl

theorem fieldsKept_useDram (hpart : who.part < 32) : FieldsKept useFields s (s.useDram who n) := by
  unfold State.useDram
  extract_lets s1
  have hcount : FieldsKept useFields s s1 :=
    .ite ((FieldsKept.refl ..).wr (List.mem_cons_self ..) (by omega) (by decide)) (.refl ..)
  exact hcount.trans ((fieldsKept_chargeDram hpart).mono (List.subset_cons_self ..))

/-- A charge changes registers and what the period has taken. -/
theorem State.charge_frame (s : State) (a r units : Nat) :
    s.charge a r units = { s with regs := (s.charge a r units).regs, sched := (s.charge a r units).sched } := by
  unfold State.charge
  split
  · rfl
  · by_cases ha : a = 0x25
    · simp only [ha, if_true]
      split <;> rfl
    · simp only [ha, if_false]
      split <;> rfl

theorem State.chargeMiss_frame (s : State) (who : Asker) :
    s.chargeMiss who = { s with regs := (s.chargeMiss who).regs, sched := (s.chargeMiss who).sched } := by
  unfold State.chargeMiss
  split
  · rfl
  · exact State.charge_frame ..

theorem State.useDram_frame (s : State) (who : Asker) (n : Nat) :
    s.useDram who n = { s with regs := (s.useDram who n).regs, sched := (s.useDram who n).sched, free := (s.useDram who n).free } := by
  have hcharge (s : State) : s.chargeDram who n =
      { s with regs := (s.chargeDram who n).regs, sched := (s.chargeDram who n).sched, free := (s.chargeDram who n).free } := by
    unfold State.chargeDram
    split
    · rfl
    · split
      · rfl
      · dsimp only [State.takeFree]
        rw [State.charge_frame]
  unfold State.useDram
  dsimp only
  split
  · exact hcharge (s.wr .HB_USE_DRAM (s.rd .HB_USE_DRAM who.part + n) who.part)
  · exact hcharge s

/-- A read that misses and whose cells are clean. -/
theorem State.l2ReadSector_of_clean (hmiss : s.l2Hit pa = none) (hslice : s.domState (domL2 (sliceOf pa)) = 0)
    (hctrl : s.domState (domMc (ctrlOf pa)) = 0) (hgood : (s.readSector pa).bad = 0) (hclean : (s.readSector pa).corrected = false) :
    ∃ t, s.l2ReadSector who pol pa = (t, some (s.readSector pa).bytes) ∧ t.regs = ((s.chargeMiss who).useDram who 32).regs ∧
      t.mem.dram = s.mem.dram := by
  have hmem : ((s.chargeMiss who).useDram who 32).mem.dram = s.mem.dram := by
    rw [State.useDram_frame, State.chargeMiss_frame]
  unfold State.l2ReadSector State.wakeSlice State.wakeCtrl
  rw [State.wakeNow_of_on hslice]
  dsimp only
  rw [hmiss]
  dsimp only
  rw [if_neg (not_not.mpr hgood), hclean, if_neg Bool.false_ne_true, State.wakeNow_of_on hctrl]
  refine ⟨_, rfl, ?_, ?_⟩
  · split_ifs <;> rfl
  · split_ifs
    · exact hmem
    · exact hmem

/-! ### Requests -/

/-- A request that L2 serves at once. -/
theorem State.l2Access_eq {port : L2Port} {op : L2Op} {addr : BitVec 44} {parity : Option ParityKind} (hlive : s.live = true)
    (hhit : s.l2Hit addr.toNat = some x) (hpos : 0 < l2OpSize op) (hle : addr.toNat % 32 + l2OpSize op ≤ 32)
    (husable : s.usableRange addr.toNat (l2OpSize op) = true) :
    exec (.l2Access port pol op addr parity) s = .next (match parity with
      | some .dirty => if s.rd .L2_CTRL_EN = 1 then s.deviceReset (stDevice 5 (sliceOf addr.toNat)) else s.l2Serve port pol op addr.toNat
      | some .clean => (s.parityClean addr.toNat).l2Serve port pol op addr.toNat
      | none => s.l2Serve port pol op addr.toNat) := by
  have hline : oneLine addr.toNat (l2OpSize op) = true := by
    unfold oneLine
    simp only [Bool.and_eq_true, decide_eq_true_eq]
    omega
  refine (congrArg Host.Outcome.next (if_pos ?_)).trans ?_
  · simp [hlive, hline, husable, hhit]
  · cases parity with
    | none => rfl
    | some k => cases k <;> rfl

end

end Sys2Proof.Machine

namespace Sys2Proof.Claims

open Sys2Proof Sys2Proof.Machine

/-- Settles O47. -/
theorem l2ServesRequests : Obligations.L2ServesRequests := by
  intro s port pol addr x pa sec kept
  refine ⟨fun en hmay => ?enable, fun hlive hen hhit hon => ?_⟩
  case enable =>
    refine ⟨s.wr .L2_CTRL_EN (b2n en), congrArg Host.Outcome.next (if_pos hmay), ?_, ?_, rfl⟩
    · cases en <;> exact State.rd_wr_same ..
    · exact (regsKept_wr (List.mem_singleton_self _) (by decide) (by decide)).mpr (RegsKept.refl _ _)
  have hhit' : s.l2Hit pa = some x := (s.l2Hit_aligned pa).symm.trans hhit
  have hon' : s.domState (domL2 (sliceOf pa)) = 0 := by
    rw [← sliceOf_aligned]
    exact hon
  let who : Asker := ⟨port, portKind port, (s.portPart port).getD 0⟩
  have hread {n : Nat} (hn : 0 < n) (hle : pa % 32 + n ≤ 32) :
      s.l2Read who pol pa n = (s, some ((x.bytes.drop (pa % 32)).take n)) :=
    State.l2Read_of_sector hn hle (State.l2ReadSector_of_hit hhit hon)
  refine ⟨fun n hn hle husable => ?read, fun bs hne hle husable => ?write, fun opc sgn wide b c hle husable => ?atomic,
    fun n hn hle husable hclean hpart hgood hcorr hctrl => ?clean, fun n hn hle husable hup hpending hwear hcount => ?dirty⟩
  case read =>
    refine (State.l2Access_eq (op := .read n) hlive hhit' hn hle husable).trans (congrArg Host.Outcome.next ?_)
    change s.l2Serve port pol (.read n) pa = _
    unfold State.l2Serve
    dsimp only
    rw [hread hn hle]
  case write =>
    obtain ⟨ts, hwrite⟩ := State.l2Write_of_hit (who := who) (pol := pol) hhit' hon' hne hle
    let u := State.l2Put { s with mem := { s.mem with trackers := ts } } (pa / 32 * 32) (mergeBytes x.bytes (pa % 32) bs) true
    refine ⟨u, ?_, rfl, rfl, rfl, State.physByte_l2Put hen hhit' hle ts⟩
    refine (State.l2Access_eq (op := .write bs) hlive hhit' (List.length_pos_of_ne_nil hne) hle husable).trans (congrArg Host.Outcome.next ?_)
    change s.l2Serve port pol (.write bs) pa = _
    unfold State.l2Serve
    dsimp only
    rw [hwrite]
  case atomic =>
    let n := if wide then 8 else 4
    let old := ofLe ((x.bytes.drop (pa % 32)).take n)
    let new := toLe n (atomNew opc.toNat (8 * n) sgn old (b.toNat % 2 ^ (8 * n)) (c.toNat % 2 ^ (8 * n)))
    have hlen : new.length = n := length_toLe ..
    have hpos : 0 < n := by
      unfold n
      split <;> decide
    have hle' : pa % 32 + n ≤ 32 := hle
    obtain ⟨ts, hwrite⟩ := State.l2Write_of_hit (who := who) (pol := pol) (bs := new) hhit' hon'
      (List.ne_nil_of_length_pos (hlen ▸ hpos)) (hlen ▸ hle')
    let u := State.l2Put { s with mem := { s.mem with trackers := ts } } (pa / 32 * 32) (mergeBytes x.bytes (pa % 32) new) true
    have hatomic : s.l2Atomic who pol opc.toNat sgn wide pa b.toNat c.toNat = (u, some old) := by
      unfold State.l2Atomic
      dsimp only
      rw [hread hpos hle']
      dsimp only
      rw [hwrite]
    refine ⟨{ u with reply := .data (toLe n old) }, ?_, rfl, rfl, rfl, fun b => ?_⟩
    · refine (State.l2Access_eq (op := .atomic opc sgn wide b c) hlive hhit' hpos hle' husable).trans (congrArg Host.Outcome.next ?_)
      change s.l2Serve port pol (.atomic opc sgn wide b c) pa = _
      unfold State.l2Serve
      dsimp only
      rw [hatomic]
    · have hbyte := State.physByte_l2Put hen hhit' (hlen ▸ hle') ts b
      rw [hlen] at hbyte
      exact hbyte
  case clean =>
    let s1 : State := State.count { s with mem := { s.mem with l2 := storeErase s.mem.l2 (sectorOf pa) } } .L2_PARITY_CLEAN
    have hkept : FieldsKept [.L2_PARITY_CLEAN] s s1 :=
      FieldsKept.count (s := s) (fieldsKept_of_regs rfl) (List.mem_singleton_self _) (by decide) (by decide)
    have hsame : SameDram s s1 := hkept.sameDram (by decide) rfl rfl
    have hdrop : s.parityClean pa = s1 := by
      unfold State.parityClean
      rw [hhit']
      dsimp only
      rw [hclean, if_neg Bool.false_ne_true]
    have hmiss : s1.l2Hit sec = none := by
      have hfind : storeFind s1.mem.l2 (sectorOf sec) = none := by
        rw [sectorOf_aligned]
        exact (storeFind_erase ..).trans (if_pos rfl)
      unfold State.l2Hit
      split
      · exact hfind
      · rfl
    have hdom {d : Nat} (hd : d < 65536) : s1.domState d = s.domState d := hkept.rd _ (by decide) d hd 0 (by decide)
    have hslice := sliceOf_lt sec
    have hctrl' := ctrlOf_lt sec
    obtain ⟨t, hsector, hregs, hdram⟩ := State.l2ReadSector_of_clean (s := s1) (who := who) (pol := pol) hmiss
      ((hdom (by unfold domL2; omega)).trans hon) ((hdom (by unfold domMc; omega)).trans hctrl)
      (by rw [hsame.readSector]; exact hgood) (by rw [hsame.readSector]; exact hcorr)
    have hserve : s1.l2Serve port pol (.read n) pa = { t with reply := .data (((s.readSector sec).bytes.drop (pa % 32)).take n) } := by
      have hpart' : s1.portPart port = s.portPart port := rfl
      unfold State.l2Serve
      dsimp only
      rw [hpart', State.l2Read_of_sector hn hle hsector, hsame.readSector]
    refine ⟨_, (State.l2Access_eq (op := .read n) hlive hhit' hn hle husable).trans (congrArg Host.Outcome.next
      ((congrArg (State.l2Serve · port pol (.read n) pa) hdrop).trans hserve)), ?_, hdram, rfl⟩
    have huse : FieldsKept useFields s1 ((s1.chargeMiss who).useDram who 32) :=
      ((fieldsKept_chargeMiss hpart).mono (List.subset_cons_self ..)).trans (fieldsKept_useDram hpart)
    change t.rd .L2_PARITY_CLEAN = _
    rw [State.rd_congr hregs, huse.rd _ (by decide) 0 (by decide) 0 (by decide)]
    exact State.rd_count_same ..
  case dirty =>
    have hslice := sliceOf_lt pa
    have hst : 0x1F050000 + sliceOf pa = stDevice 5 (sliceOf pa) := by
      unfold stDevice statusWord
      omega
    refine ⟨s.deviceDown (0x1F050000 + sliceOf pa), ?_, deviceResetTo_deviceDown (by omega) hpending hwear hcount⟩
    rw [State.l2Access_eq (op := .read n) hlive hhit' hn hle husable, hst, ← State.deviceReset_of_up hup]
    exact congrArg Host.Outcome.next (if_pos hen)

end Sys2Proof.Claims

end

