-- ==== Sys2Proof/Proofs/DramErrors.lean ====
section
/-!
PROOF. Reads of DRAM whose cells have flipped: what is counted and logged (R366 to R371), and the scrub's walk (R375).
-/

namespace Sys2Proof.Machine

section
variable {s t u : State} {who : Asker} {pa n mask : Nat}

/-! ### Flipped cells -/

theorem State.flipCells_frame (s : State) (pa data check : Nat) :
    s.flipCells pa data check = { s with mem := { s.mem with dram := (s.flipCells pa data check).mem.dram } } := by
  unfold State.flipCells
  dsimp only
  split
  · exact State.setRaws_frame ..
  · rw [State.setRaws_frame, State.setRaws_frame]

theorem maskOf_lt {l : List Nat} (h : ∀ k ∈ l, k < n) : maskOf l < 2 ^ n := by
  refine Nat.lt_pow_two_of_testBit _ fun i hi => ?_
  rw [← bitAt_eq_testBit, bitAt_maskOf]
  simp only [decide_eq_false_iff_not]
  intro hmem
  have := h i hmem
  omega

/-- The mask of the bytes that a read could not correct. -/
theorem State.readSector_bad_lt (s : State) (pa : Nat) : (s.readSector pa).bad < 2 ^ 32 := by
  refine maskOf_lt fun k hk => ?_
  obtain ⟨e, he, hk⟩ := List.mem_filterMap.mp hk
  have hlt : e.1 < 32 := by
    have hmem := (List.of_mem_zip (a := e.1) (b := e.2) he).1
    rw [List.length_map, List.length_range] at hmem
    exact List.mem_range.mp hmem
  split_ifs at hk
  obtain rfl := Option.some.inj hk
  exact hlt

theorem State.readSector_length (s : State) (pa : Nat) : (s.readSector pa).bytes.length = 32 := by
  unfold State.readSector
  simp

/-! ### What a checked read counts -/

/-- The registers that a checked read counts and logs in. -/
def eccFields : List Field :=
  [.MEM_ECC_COUNT_CE, .MEM_ECC_COUNT_UE, .MEM_ERR_LOG_VALID, .MEM_ERR_LOG_STATUS, .MEM_ERR_LOG_MASK, .MEM_ERR_LOG_SECTOR] ++
    useFields

theorem raise_subset_ecc : raiseFields ⊆ eccFields := by decide

theorem SameDram.memDetail (h : SameDram s u) (pa : Nat) : u.memDetail pa = s.memDetail pa := by
  unfold State.memDetail
  rw [h.regionOf]
  split
  · rfl
  · next r hr => rw [h.region (List.mem_range.mp (List.mem_of_find?_eq_some hr))]

theorem State.noteCorrected_of_quiet (hquiet : s.rd .MEM_ERR_CTRL_CE_STEP = 0) :
    s.noteCorrected who pa = s.count .MEM_ECC_COUNT_CE 1 (ctrlOf pa) := by
  unfold State.noteCorrected
  simp only [hquiet, ne_eq, not_true_eq_false, false_and, if_false]

/-- The log of the first uncorrectable read. -/
def State.logBad (s : State) (detail pa mask : Nat) : State :=
  (((s.wr .MEM_ERR_LOG_VALID 1).wr .MEM_ERR_LOG_STATUS (stMem 1 detail)).wr .MEM_ERR_LOG_MASK mask).wr
    .MEM_ERR_LOG_SECTOR (pa / 32)

theorem stMem_lt (reason detail : Nat) : stMem reason detail < 2 ^ 32 := by
  unfold stMem statusWord
  omega

theorem State.rd_logBad {detail : Nat} (hmask : mask < 2 ^ 32) (hpa : pa < 2 ^ 44) :
    (s.logBad detail pa mask).rd .MEM_ERR_LOG_VALID = 1 ∧ (s.logBad detail pa mask).rd .MEM_ERR_LOG_MASK = mask ∧
      (s.logBad detail pa mask).rd .MEM_ERR_LOG_STATUS = stMem 1 detail ∧ (s.logBad detail pa mask).rd .MEM_ERR_LOG_SECTOR = pa / 32 := by
  have hst := stMem_lt 1 detail
  have hsec : pa / 32 < 2 ^ 43 := by omega
  unfold State.logBad
  refine ⟨?_, ?_, ?_, State.rd_wr_of_lt _ hsec ..⟩
  · rw [State.rd_wr_field _ (by decide) (by decide) (by decide) (by decide) (by decide),
      State.rd_wr_field _ (by decide) (by decide) (by decide) (by decide) (by decide),
      State.rd_wr_field _ (by decide) (by decide) (by decide) (by decide) (by decide)]
    exact State.rd_wr_same ..
  · rw [State.rd_wr_field _ (by decide) (by decide) (by decide) (by decide) (by decide)]
    exact State.rd_wr_of_lt _ hmask ..
  · rw [State.rd_wr_field _ (by decide) (by decide) (by decide) (by decide) (by decide),
      State.rd_wr_field _ (by decide) (by decide) (by decide) (by decide) (by decide)]
    exact State.rd_wr_of_lt _ hst ..

theorem fieldsKept_logBad {detail : Nat} : FieldsKept eccFields s (s.logBad detail pa mask) :=
  ((((FieldsKept.refl ..).wr (by decide) (by decide) (by decide)).wr (by decide) (by decide) (by decide)).wr (by decide) (by decide)
    (by decide)).wr (by decide) (by decide) (by decide)

theorem fieldsKept_memRecord {reason : Nat} (hroute : s.rd .EVQ_ROUTE_DRAM_ERROR ≤ 33) :
    FieldsKept raiseFields s (s.memRecord who reason pa mask) := by
  have htarget : s.sharedTarget .dramError < 65536 := by
    change s.rd .EVQ_ROUTE_DRAM_ERROR < 65536
    omega
  exact fieldsKept_raise htarget

/-- An uncorrectable read before its record: counted, and logged when it is the first. -/
def State.countBad (s : State) (pa mask : Nat) : State :=
  let s1 := s.count .MEM_ECC_COUNT_UE 1 (ctrlOf pa)
  if s1.rd .MEM_ERR_LOG_VALID = 0 then s1.logBad (s.memDetail pa) pa mask else s1

theorem State.noteBad_eq (s : State) (who : Asker) (pa mask : Nat) :
    s.noteBad who pa mask = (s.countBad pa mask).memRecord who 1 pa mask := rfl

theorem fieldsKept_noteBad (hroute : s.rd .EVQ_ROUTE_DRAM_ERROR ≤ 33) : FieldsKept eccFields s (s.noteBad who pa mask) := by
  have hctrl := ctrlOf_lt pa
  have hcount : FieldsKept eccFields s (s.count .MEM_ECC_COUNT_UE 1 (ctrlOf pa)) :=
    (FieldsKept.refl ..).count (by decide) (by omega) (by decide)
  have hbad : FieldsKept eccFields s (s.countBad pa mask) := .ite (hcount.trans fieldsKept_logBad) hcount
  rw [State.noteBad_eq]
  refine hbad.trans ((fieldsKept_memRecord ?_).mono raise_subset_ecc)
  rw [hbad.rd _ (by decide) 0 (by decide) 0 (by decide)]
  exact hroute

/-- What an uncorrectable read counts and logs. -/
structure BadCounted (s u : State) (pa mask : Nat) : Prop where
  ue : u.rd .MEM_ECC_COUNT_UE (ctrlOf pa) = min (2 ^ 32 - 1) (s.rd .MEM_ECC_COUNT_UE (ctrlOf pa) + 1)
  ce : u.rd .MEM_ECC_COUNT_CE (ctrlOf pa) = s.rd .MEM_ECC_COUNT_CE (ctrlOf pa)
  log : s.rd .MEM_ERR_LOG_VALID = 0 → u.rd .MEM_ERR_LOG_VALID = 1 ∧ u.rd .MEM_ERR_LOG_MASK = mask ∧
    u.rd .MEM_ERR_LOG_STATUS = stMem 1 (s.memDetail pa) ∧ u.rd .MEM_ERR_LOG_SECTOR = pa / 32

theorem badCounted_countBad (hmask : mask < 2 ^ 32) (hpa : pa < 2 ^ 44) : BadCounted s (s.countBad pa mask) pa mask := by
  have hctrl : ctrlOf pa < 65536 := Nat.lt_trans (ctrlOf_lt pa) (by decide)
  let s1 := s.count .MEM_ECC_COUNT_UE 1 (ctrlOf pa)
  have hvalid : s1.rd .MEM_ERR_LOG_VALID = s.rd .MEM_ERR_LOG_VALID :=
    State.rd_wr_field _ hctrl (by decide) (by decide) (by decide) (by decide)
  have hue : s1.rd .MEM_ECC_COUNT_UE (ctrlOf pa) = min (2 ^ 32 - 1) (s.rd .MEM_ECC_COUNT_UE (ctrlOf pa) + 1) :=
    State.rd_count_same ..
  have hce : s1.rd .MEM_ECC_COUNT_CE (ctrlOf pa) = s.rd .MEM_ECC_COUNT_CE (ctrlOf pa) :=
    State.rd_wr_field _ hctrl (by decide) hctrl (by decide) (by decide)
  have hlogged {f : Field} (hf : f ∉ [Field.MEM_ERR_LOG_VALID, .MEM_ERR_LOG_STATUS, .MEM_ERR_LOG_MASK, .MEM_ERR_LOG_SECTOR]) :
      (s1.logBad (s.memDetail pa) pa mask).rd f (ctrlOf pa) = s1.rd f (ctrlOf pa) := by
    simp only [List.mem_cons, List.not_mem_nil, or_false, not_or] at hf
    obtain ⟨h1, h2, h3, h4⟩ := hf
    unfold State.logBad
    rw [State.rd_wr_field _ (by decide) (by decide) hctrl (by decide) h4,
      State.rd_wr_field _ (by decide) (by decide) hctrl (by decide) h3,
      State.rd_wr_field _ (by decide) (by decide) hctrl (by decide) h2,
      State.rd_wr_field _ (by decide) (by decide) hctrl (by decide) h1]
  have heq : s.countBad pa mask = if s.rd .MEM_ERR_LOG_VALID = 0 then s1.logBad (s.memDetail pa) pa mask else s1 := by
    rw [← hvalid]
    rfl
  rw [heq]
  split_ifs with hfree
  · refine ⟨(hlogged (by decide)).trans hue, (hlogged (by decide)).trans hce, fun _ => ?_⟩
    exact State.rd_logBad hmask hpa
  · exact ⟨hue, hce, fun h => absurd h hfree⟩

theorem badCounted_noteBad (hroute : s.rd .EVQ_ROUTE_DRAM_ERROR ≤ 33) (hmask : mask < 2 ^ 32) (hpa : pa < 2 ^ 44) :
    BadCounted s (s.noteBad who pa mask) pa mask := by
  have hctrl : ctrlOf pa < 65536 := Nat.lt_trans (ctrlOf_lt pa) (by decide)
  obtain ⟨hue, hce, hlog⟩ := badCounted_countBad (s := s) hmask hpa
  have hroute' : (s.countBad pa mask).rd .EVQ_ROUTE_DRAM_ERROR ≤ 33 := by
    have hcount : FieldsKept eccFields s (s.count .MEM_ECC_COUNT_UE 1 (ctrlOf pa)) :=
      (FieldsKept.refl ..).count (by decide) hctrl (by decide)
    have hbad : FieldsKept eccFields s (s.countBad pa mask) := .ite (hcount.trans fieldsKept_logBad) hcount
    rw [hbad.rd _ (by decide) 0 (by decide) 0 (by decide)]
    exact hroute
  have hrec := fieldsKept_memRecord (who := who) (reason := 1) (pa := pa) (mask := mask) hroute'
  rw [State.noteBad_eq]
  refine ⟨(hrec.rd _ (by decide) _ hctrl 0 (by decide)).trans hue, (hrec.rd _ (by decide) _ hctrl 0 (by decide)).trans hce, fun h => ?_⟩
  obtain ⟨h1, h2, h3, h4⟩ := hlog h
  exact ⟨(hrec.rd _ (by decide) 0 (by decide) 0 (by decide)).trans h1, (hrec.rd _ (by decide) 0 (by decide) 0 (by decide)).trans h2,
    (hrec.rd _ (by decide) 0 (by decide) 0 (by decide)).trans h3, (hrec.rd _ (by decide) 0 (by decide) 0 (by decide)).trans h4⟩

/-! ### The read of a request -/

/-- The use of DRAM by a request, before its read is checked. -/
def State.used (s : State) (who : Asker) : State := (s.chargeMiss who).useDram who 32

theorem fieldsKept_used (hpart : who.part < 32) : FieldsKept useFields s (s.used who) :=
  ((fieldsKept_chargeMiss hpart).mono (List.subset_cons_self ..)).trans (fieldsKept_useDram hpart)

theorem State.used_frame (s : State) (who : Asker) :
    s.used who = { s with regs := (s.used who).regs, sched := (s.used who).sched, free := (s.used who).free } := by
  unfold State.used
  rw [State.useDram_frame, State.chargeMiss_frame]

theorem State.l2ReadSector_of_bad {pol : CachePolicy} (hmiss : s.l2Hit pa = none) (hslice : s.domState (domL2 (sliceOf pa)) = 0)
    (hctrl : s.domState (domMc (ctrlOf pa)) = 0) (hbad : (s.readSector pa).bad ≠ 0) :
    s.l2ReadSector who pol pa = ((s.used who).noteBad who pa (s.readSector pa).bad, none) := by
  unfold State.l2ReadSector State.wakeSlice State.wakeCtrl
  rw [State.wakeNow_of_on hslice]
  dsimp only
  rw [hmiss]
  dsimp only
  rw [if_pos hbad, State.wakeNow_of_on hctrl]
  rfl

theorem State.l2ReadSector_of_good (hmiss : s.l2Hit pa = none) (hslice : s.domState (domL2 (sliceOf pa)) = 0)
    (hctrl : s.domState (domMc (ctrlOf pa)) = 0) (hgood : (s.readSector pa).bad = 0) :
    s.l2ReadSector who .wb pa = (
      let t := if (s.readSector pa).corrected then (s.used who).noteCorrected who pa else s.used who
      if s.rd .L2_CTRL_EN = 1 then t.l2Put pa (s.readSector pa).bytes false else t, some (s.readSector pa).bytes) := by
  have halloc : polAllocs .wb = true := rfl
  unfold State.l2ReadSector State.wakeSlice State.wakeCtrl
  rw [State.wakeNow_of_on hslice]
  dsimp only
  rw [hmiss]
  dsimp only
  rw [if_neg (not_not.mpr hgood), State.wakeNow_of_on hctrl, halloc]
  simp only [Bool.and_true, decide_eq_true_eq]
  rfl

/-- A read of the memory window that returns from DRAM. -/
theorem State.dramReadReturn_of_some {part : Option Nat} {data check : Nat} {bs : List Byte}
    (h : (s.flipCells pa data check).l2ReadSector ⟨.pcie, 11, part.getD 0⟩ .wb pa = (t, some bs)) :
    s.dramReadReturn .pcie part pa data check = t := by
  have hkind : portKind .pcie = 11 := rfl
  unfold State.dramReadReturn
  dsimp only
  rw [hkind, h]

theorem State.dramReadReturn_of_none {part : Option Nat} {data check : Nat}
    (h : (s.flipCells pa data check).l2ReadSector ⟨.pcie, 11, part.getD 0⟩ .wb pa = (t, none)) :
    s.dramReadReturn .pcie part pa data check = { t with reply := .abort } := by
  have hkind : portKind .pcie = 11 := rfl
  unfold State.dramReadReturn
  dsimp only
  rw [hkind, h]
  rfl

/-- The sector that an access has brought into L2. -/
theorem State.sectorView_l2Put {bs : List Byte} (hen : s.rd .L2_CTRL_EN = 1) (hlen : bs.length = 32) (dirty : Bool) :
    (s.l2Put pa bs dirty).sectorView pa = bs := by
  have hhit : (s.l2Put pa bs dirty).l2Hit pa = some ⟨BitVec.ofNat 256 (ofLe bs), dirty⟩ :=
    (if_pos hen).trans ((storeFind_put ..).trans (if_pos rfl))
  unfold State.sectorView
  rw [hhit]
  exact Sector.bytes_of hlen dirty

/-! ### The scrub -/

theorem FieldsKept.region {l : List Field} (h : FieldsKept l s u) (hl : ∀ f ∈ dramFields, f ∉ l) {r : Nat} (hr : r < 65536) :
    u.region r = s.region r := by
  unfold State.region State.addrOf
  rw [h.rd .MEM_REGION_CODE (hl _ (by decide)) r hr 0 (by decide), h.rd .MEM_REGION_BASE (hl _ (by decide)) r hr 0 (by decide),
    h.rd .MEM_REGION_SIZE (hl _ (by decide)) r hr 0 (by decide)]

theorem ecc_disjoint_dram : ∀ f ∈ dramFields, f ∉ eccFields := by decide

/-- The next sector of the walk does not depend on what reads count. -/
theorem FieldsKept.scrubFrom {x : Nat} (h : FieldsKept eccFields s u) (hx : x / 2 ^ 40 < 65536) : u.scrubFrom x = s.scrubFrom x := by
  have hscrubs {r : Nat} (hr : r < 65536) : u.scrubs r = s.scrubs r := by
    unfold State.scrubs
    rw [h.region ecc_disjoint_dram hr, h.rd .MEM_REGION_STATE_SCRUB (by decide) r hr 0 (by decide)]
  have hfind : (List.range 16).find? (fun k => decide (x / 2 ^ 40 < k) && u.scrubs k) =
      (List.range 16).find? (fun k => decide (x / 2 ^ 40 < k) && s.scrubs k) := by
    refine List.find?_congr fun k hk => ?_
    have := List.mem_range.mp hk
    rw [hscrubs (by omega)]
  unfold State.scrubFrom
  dsimp only
  rw [hscrubs hx, h.region ecc_disjoint_dram hx, hfind]

/-- The walk's next place, after a sector has been read. -/
theorem State.scrubNext_spec {r o : Nat} (h : FieldsKept eccFields s u) (hmaint : u.maint = s.maint)
    (hx : scrubPlace r (o + 1) / 2 ^ 40 < 65536) :
    let next := scrubPlace r (o + 1)
    (u.scrubNext r o).maint = { s.maint with scrubPos := if (s.scrubFrom next).isSome then next else 0 } ∧
      (u.scrubNext r o).rd .MEM_SCRUB_STAT_PASSES = (if (s.scrubFrom next).isSome then s.rd .MEM_SCRUB_STAT_PASSES
        else min 65535 (s.rd .MEM_SCRUB_STAT_PASSES + 1)) ∧
      ∀ f, f ≠ .MEM_SCRUB_STAT_PASSES → ∀ i < 65536, (u.scrubNext r o).rd f i = u.rd f i := by
  have hpasses : u.rd .MEM_SCRUB_STAT_PASSES = s.rd .MEM_SCRUB_STAT_PASSES := h.rd _ (by decide) 0 (by decide) 0 (by decide)
  dsimp only
  unfold State.scrubNext
  dsimp only
  rw [h.scrubFrom hx]
  split
  · exact ⟨by rw [hmaint], hpasses, fun _ _ _ _ => rfl⟩
  · refine ⟨?_, ?_, fun f hf i hi => State.rd_wr_field _ (by decide) (by decide) hi (by decide) hf⟩
    · change { u.maint with scrubPos := 0 } = _
      rw [hmaint]
    · refine (State.rd_count_same ..).trans ?_
      change min _ (u.rd .MEM_SCRUB_STAT_PASSES + 1) = _
      rw [hpasses]
      rfl

theorem BadCounted.congr (h : BadCounted t u pa mask) (hkept : FieldsKept useFields s t)
    (hdetail : t.memDetail pa = s.memDetail pa) : BadCounted s u pa mask := by
  have hctrl : ctrlOf pa < 65536 := Nat.lt_trans (ctrlOf_lt pa) (by decide)
  obtain ⟨hue, hce, hlog⟩ := h
  rw [hkept.rd _ (by decide) _ hctrl 0 (by decide)] at hue hce
  rw [hkept.rd _ (by decide) 0 (by decide) 0 (by decide), hdetail] at hlog
  exact ⟨hue, hce, hlog⟩

/-- What a scrub of one sector does, after the use of DRAM. -/
theorem State.scrubSector_of_bad (hbad : (s.readSector pa).bad ≠ 0) :
    s.scrubSector pa = (s.useDram maintAsker 64).noteBad maintAsker pa (s.readSector pa).bad := by
  unfold State.scrubSector
  exact if_pos hbad

theorem State.scrubSector_of_good (hgood : (s.readSector pa).bad = 0) :
    let t := if (s.readSector pa).corrected then (s.useDram maintAsker 64).noteCorrected maintAsker pa else s.useDram maintAsker 64
    (s.scrubSector pa).regs = t.regs ∧ (s.scrubSector pa).maint = t.maint := by
  have hwrite (s : State) (bs : List Byte) : (s.writeSector pa bs).regs = s.regs ∧ (s.writeSector pa bs).maint = s.maint :=
    ⟨State.regs_writeSector .., ((Keeps.refl True s).writeSector.work trivial).maint⟩
  unfold State.scrubSector
  dsimp only
  rw [if_neg (not_not.mpr hgood)]
  split
  · split
    · split
      · exact ⟨rfl, rfl⟩
      · exact hwrite ..
    · exact hwrite ..
  · exact ⟨rfl, rfl⟩

end

end Sys2Proof.Machine

namespace Sys2Proof.Claims

open Sys2Proof Sys2Proof.Machine

section
variable {s f t u : State} {pa : Nat}

/-- A read that could not be corrected, in a state that counts as s does. -/
theorem eccCounted_of_bad (hbad : (f.readSector pa).bad ≠ 0) (h : BadCounted s u pa (f.readSector pa).bad) : EccCounted s f u pa := by
  obtain ⟨hue, hce, hlog⟩ := h
  refine ⟨?_, ?_, fun _ => hlog⟩
  · rw [if_neg fun h => hbad h.1]
    exact hce
  · rw [if_pos hbad]
    exact hue

theorem eccCounted_of_good (hgood : (f.readSector pa).bad = 0)
    (hue : u.rd .MEM_ECC_COUNT_UE (ctrlOf pa) = s.rd .MEM_ECC_COUNT_UE (ctrlOf pa))
    (hce : u.rd .MEM_ECC_COUNT_CE (ctrlOf pa) = if (f.readSector pa).corrected then
      min (2 ^ 32 - 1) (s.rd .MEM_ECC_COUNT_CE (ctrlOf pa) + 1) else s.rd .MEM_ECC_COUNT_CE (ctrlOf pa)) : EccCounted s f u pa := by
  refine ⟨?_, ?_, fun h => absurd hgood h⟩
  · rw [hce]
    simp only [hgood, true_and]
  · rw [if_neg (not_not.mpr hgood)]
    exact hue

/-- A corrected read, or one that needed no correction. -/
theorem eccCounted_corrected {who : Asker} (hgood : (f.readSector pa).bad = 0) (hkept : FieldsKept useFields s t)
    (hquiet : s.rd .MEM_ERR_CTRL_CE_STEP = 0)
    (hregs : u.regs = (if (f.readSector pa).corrected then t.noteCorrected who pa else t).regs) : EccCounted s f u pa := by
  have hctrl : ctrlOf pa < 65536 := Nat.lt_trans (ctrlOf_lt pa) (by decide)
  have hquiet' : t.rd .MEM_ERR_CTRL_CE_STEP = 0 := (hkept.rd _ (by decide) 0 (by decide) 0 (by decide)).trans hquiet
  rw [State.noteCorrected_of_quiet hquiet'] at hregs
  refine eccCounted_of_good hgood ?_ ?_
  · rw [State.rd_congr hregs]
    split_ifs
    · exact (State.rd_wr_field _ hctrl (by decide) hctrl (by decide) (by decide)).trans (hkept.rd _ (by decide) _ hctrl 0 (by decide))
    · exact hkept.rd _ (by decide) _ hctrl 0 (by decide)
  · rw [State.rd_congr hregs]
    split_ifs
    · refine (State.rd_count_same ..).trans ?_
      rw [hkept.rd _ (by decide) _ hctrl 0 (by decide)]
      rfl
    · exact hkept.rd _ (by decide) _ hctrl 0 (by decide)

theorem EccCounted.congr (h : EccCounted s f t pa)
    (hrd : ∀ f, f ≠ .MEM_SCRUB_STAT_PASSES → ∀ i < 65536, u.rd f i = t.rd f i) : EccCounted s f u pa := by
  have hctrl : ctrlOf pa < 65536 := Nat.lt_trans (ctrlOf_lt pa) (by decide)
  obtain ⟨hce, hue, hlog⟩ := h
  refine ⟨(hrd _ (by decide) _ hctrl).trans hce, (hrd _ (by decide) _ hctrl).trans hue, fun hbad hfree => ?_⟩
  obtain ⟨h1, h2, h3, h4⟩ := hlog hbad hfree
  exact ⟨(hrd _ (by decide) 0 (by decide)).trans h1, (hrd _ (by decide) 0 (by decide)).trans h2,
    (hrd _ (by decide) 0 (by decide)).trans h3, (hrd _ (by decide) 0 (by decide)).trans h4⟩

/-- A scrubbed sector counts like any other read, and the sequencer goes on. -/
theorem scrubSector_spec {data check : Nat} (hquiet : s.rd .MEM_ERR_CTRL_CE_STEP = 0) (hroute : s.rd .EVQ_ROUTE_DRAM_ERROR ≤ 33)
    (hpa : pa < 2 ^ 44) :
    let f := s.flipCells pa data check
    EccCounted s f (f.scrubSector pa) pa ∧ FieldsKept eccFields s (f.scrubSector pa) ∧ (f.scrubSector pa).maint = s.maint := by
  intro f
  have hf : f = { s with mem := { s.mem with dram := f.mem.dram } } := State.flipCells_frame ..
  let t := f.useDram maintAsker 64
  have hframe : t = { f with regs := t.regs, sched := t.sched, free := t.free } := f.useDram_frame maintAsker 64
  have huse : FieldsKept useFields f t := fieldsKept_useDram (by decide)
  have hfkept : FieldsKept useFields s f := fieldsKept_of_regs (by rw [hf])
  have hkept : FieldsKept useFields s t := hfkept.trans huse
  have hsame : SameDram f t := huse.sameDram (by decide) (by rw [hframe]) (by rw [hframe])
  have hmaint : t.maint = s.maint := by
    have ht : t.maint = f.maint := by rw [hframe]
    rw [ht, hf]
  have hroute' : t.rd .EVQ_ROUTE_DRAM_ERROR ≤ 33 := by
    rw [hkept.rd _ (by decide) 0 (by decide) 0 (by decide)]
    exact hroute
  have hquiet' : t.rd .MEM_ERR_CTRL_CE_STEP = 0 := (hkept.rd _ (by decide) 0 (by decide) 0 (by decide)).trans hquiet
  have hsub : FieldsKept eccFields s t := hkept.mono (by decide)
  by_cases hbad : (f.readSector pa).bad = 0
  · obtain ⟨hregs, hwork⟩ := State.scrubSector_of_good hbad
    have hcount : FieldsKept eccFields s (t.noteCorrected maintAsker pa) ∧ (t.noteCorrected maintAsker pa).maint = t.maint := by
      have hctrl := ctrlOf_lt pa
      rw [State.noteCorrected_of_quiet hquiet']
      exact ⟨hsub.count (by decide) (by omega) (by decide), rfl⟩
    refine ⟨eccCounted_corrected hbad hkept hquiet hregs, .of_regs hregs (.ite hcount.1 hsub), hwork.trans ?_⟩
    split_ifs
    · exact hcount.2.trans hmaint
    · exact hmaint
  · rw [State.scrubSector_of_bad hbad]
    have hfdetail : f.memDetail pa = s.memDetail pa := by
      rw [hf]
      rfl
    have hcounted : BadCounted t (t.noteBad maintAsker pa (f.readSector pa).bad) pa (f.readSector pa).bad :=
      badCounted_noteBad hroute' (f.readSector_bad_lt pa) hpa
    refine ⟨eccCounted_of_bad hbad (hcounted.congr hkept ((hsame.memDetail pa).trans hfdetail)),
      hsub.trans (fieldsKept_noteBad hroute'), ?_⟩
    exact ((Keeps.refl True t).noteBad.work trivial).maint.trans hmaint

end

/-- Settles O48. -/
theorem dramErrorsAreCounted : Obligations.DramErrorsAreCounted := by
  intro s addr part data check r o hlive hquiet hctrl hslice hroute hr
  refine ⟨?read, ?scrub, ?idle⟩
  case read =>
    intro pa f husable hmiss
    have hf : f = { s with mem := { s.mem with dram := f.mem.dram } } := State.flipCells_frame ..
    let who : Asker := ⟨.pcie, 11, (part.map Fin.val).getD 0⟩
    have hpart : who.part < 32 := by
      cases part with
      | none => exact Nat.zero_lt_succ _
      | some p => exact p.isLt
    have hfkept : FieldsKept useFields s f := fieldsKept_of_regs (by rw [hf])
    have hkept : FieldsKept useFields s (f.used who) := hfkept.trans (fieldsKept_used hpart)
    have hframe := f.used_frame who
    have hsame : SameDram f (f.used who) := (fieldsKept_used hpart).sameDram (by decide) (by rw [hframe]) (by rw [hframe])
    have hfdetail : f.memDetail pa = s.memDetail pa := by
      rw [hf]
      rfl
    have hmiss' : f.l2Hit pa = none := by
      rw [hf]
      exact hmiss
    have hdom (d : Nat) : f.domState d = s.domState d := State.rd_congr (by rw [hf]) ..
    have hslice' : f.domState (domL2 (sliceOf pa)) = 0 := (hdom _).trans (hslice ⟨_, sliceOf_lt pa⟩)
    have hctrl' : f.domState (domMc (ctrlOf pa)) = 0 := (hdom _).trans (hctrl ⟨_, ctrlOf_lt pa⟩)
    have hexec : exec (.dramReadReturn .pcie part addr data check) s =
        .next (s.dramReadReturn .pcie (part.map Fin.val) pa data.toNat check.toNat) :=
      congrArg Host.Outcome.next (if_pos (by simp [hlive, pa, hmiss, husable]))
    by_cases hbad : (f.readSector pa).bad = 0
    · let t := if (f.readSector pa).corrected then (f.used who).noteCorrected who pa else f.used who
      let u := if f.rd .L2_CTRL_EN = 1 then t.l2Put pa (f.readSector pa).bytes false else t
      have hdone : s.dramReadReturn .pcie (part.map Fin.val) pa data.toNat check.toNat = u :=
        State.dramReadReturn_of_some (State.l2ReadSector_of_good hmiss' hslice' hctrl' hbad)
      have hu : u.regs = t.regs := by
        unfold u
        split_ifs <;> rfl
      have ht : t = { f with regs := t.regs, sched := t.sched, free := t.free } := by
        unfold t
        split_ifs
        · rw [State.noteCorrected_of_quiet ((hkept.rd _ (by decide) 0 (by decide) 0 (by decide)).trans hquiet), hframe]
          rfl
        · exact hframe
      have hureply : u.reply = t.reply ∧ u.mem.dram = t.mem.dram := by
        unfold u
        split_ifs <;> exact ⟨rfl, rfl⟩
      refine ⟨u, hexec.trans (congrArg _ hdone), eccCounted_corrected hbad hkept hquiet hu, fun h => absurd hbad h,
        fun _ => ⟨?_, ?_, fun hen => ?_⟩⟩
      · rw [hureply.1, ht, hf]
      · rw [hureply.2, ht]
      · have hen' : f.rd .L2_CTRL_EN = 1 := (State.rd_congr (by rw [hf]) ..).trans hen
        have ht' : t.rd .L2_CTRL_EN = 1 := by
          have hused : (f.used who).rd .L2_CTRL_EN = 1 := (hkept.rd _ (by decide) 0 (by decide) 0 (by decide)).trans hen
          unfold t
          split_ifs
          · have hctrl := ctrlOf_lt pa
            rw [State.noteCorrected_of_quiet ((hkept.rd _ (by decide) 0 (by decide) 0 (by decide)).trans hquiet)]
            exact (State.rd_wr_field _ (by omega) (by decide) (by decide) (by decide) (by decide)).trans hused
          · exact hused
        have hu' : u = t.l2Put pa (f.readSector pa).bytes false := if_pos hen'
        rw [hu']
        exact State.sectorView_l2Put ht' (State.readSector_length ..) false
    · let u : State := { (f.used who).noteBad who pa (f.readSector pa).bad with reply := .abort }
      have hdone : s.dramReadReturn .pcie (part.map Fin.val) pa data.toNat check.toNat = u :=
        State.dramReadReturn_of_none (State.l2ReadSector_of_bad hmiss' hslice' hctrl' hbad)
      have hroute' : (f.used who).rd .EVQ_ROUTE_DRAM_ERROR ≤ 33 := by
        rw [hkept.rd _ (by decide) 0 (by decide) 0 (by decide)]
        exact hroute
      have hcounted : BadCounted (f.used who) ((f.used who).noteBad who pa (f.readSector pa).bad) pa (f.readSector pa).bad :=
        badCounted_noteBad hroute' (f.readSector_bad_lt pa) (by have := addr.isLt; omega)
      have hu : BadCounted (f.used who) u pa (f.readSector pa).bad := ⟨hcounted.ue, hcounted.ce, hcounted.log⟩
      exact ⟨u, hexec.trans (congrArg _ hdone), eccCounted_of_bad hbad (hu.congr hkept ((hsame.memDetail pa).trans hfdetail)),
        fun _ => rfl, fun h => absurd h hbad⟩
  case scrub =>
    intro pa next hruns hadmits hfrom hpa
    let f := s.flipCells pa data.toNat check.toNat
    have ho : o < 2 ^ 40 := by
      have : (s.region r).base + 32 * o < 2 ^ 44 := hpa
      omega
    have hplace : scrubPlace r (o + 1) / 2 ^ 40 < 65536 := by
      unfold scrubPlace
      omega
    have hstep : s.scrubStep data.toNat check.toNat = (f.scrubSector pa).scrubNext r o := by
      unfold State.scrubStep
      rw [hfrom]
      dsimp only
      rw [if_neg (not_not.mpr (hctrl ⟨_, ctrlOf_lt pa⟩))]
    obtain ⟨hcounted, hkept, hmaint⟩ := scrubSector_spec (data := data.toNat) (check := check.toNat) hquiet hroute hpa
    obtain ⟨hpos, hpasses, hrd⟩ := State.scrubNext_spec hkept hmaint hplace
    refine ⟨_, congrArg Host.Outcome.next ((if_pos (by simp [hlive, hruns, hadmits])).trans hstep), hcounted.congr hrd, hpos, hpasses⟩
  case idle =>
    intro hnone hpos
    have hfrom (x : Nat) (hx : x < 2 ^ 44) : s.scrubFrom x = none := by
      have hx16 : x / 2 ^ 40 < 16 := by omega
      have hfind : (List.range 16).find? (fun k => decide (x / 2 ^ 40 < k) && s.scrubs k) = none :=
        List.find?_eq_none.mpr fun k hk => by simp [hnone k (List.mem_range.mp hk)]
      unfold State.scrubFrom
      dsimp only
      rw [hnone _ hx16, hfind]
      rfl
    have hstep : s.scrubStep data.toNat check.toNat = s := by
      unfold State.scrubStep
      rw [hfrom _ hpos, hfrom 0 (by decide)]
    refine congrArg Host.Outcome.next ?_
    rw [hstep, ite_self]

end Sys2Proof.Claims

end

