-- ==== Sys2Proof/Proofs/Freezes.lean ====
section
/-!
PROOF. The freeze (R491 to R494), the read-back aperture (R495) and JTAG (R508).
-/

namespace Sys2Proof.Machine
open Sys2Proof.Claims

section
variable {s : State}

/-! ### The freeze -/

theorem State.flushCaches_frame (s : State) : s.flushCaches = { s with vats := s.flushCaches.vats } := by
  unfold State.flushCaches
  generalize s.vats.map (·.1) = l
  induction l generalizing s with
  | nil => rfl
  | cons n l ih =>
    rw [List.foldl_cons, ih]
    rfl

/-- What a vat writes back before the clocks stop is its register cache, never its quires. -/
theorem State.quires_flushCaches (s : State) (n : Nat) : (s.flushCaches.vat n).quires = (s.vat n).quires := by
  unfold State.flushCaches
  generalize s.vats.map (·.1) = l
  induction l generalizing s with
  | nil => rfl
  | cons m l ih =>
    rw [List.foldl_cons, ih]
    by_cases h : n = m
    · subst h
      rw [State.vat_setVat_same]
    · rw [State.vat_setVat_ne _ _ h]

/-- The state of a chip that source `source` has frozen: what DBG_FREEZE_STATUS and the pins show, and what is kept. -/
structure Freezes (s u : State) (source : Nat) : Prop where
  state : u.rd .DBG_FREEZE_STATUS_STATE = 2
  source : u.rd .DBG_FREEZE_STATUS_SOURCE = source
  stopped : u.rd .DBG_FREEZE_STATUS_STOPPED = 0x3F
  live : u.live = false
  alive0 : u.rd .FLT_PORT_ALIVE 0 = 0
  alive1 : u.rd .FLT_PORT_ALIVE 1 = 0
  frame : u = { s with regs := u.regs, vats := u.vats }
  quires : ∀ n, (u.vat n).quires = (s.vat n).quires

theorem State.feltLow_frame (s : State) : s.feltLow = { s with regs := s.feltLow.regs } :=
  (onlyRegs_trans (onlyRegs_portLow s (k := 0) (by decide)) (onlyRegs_portLow _ (k := 1) (by decide))).2

theorem State.rd_feltLow_alive (s : State) : s.feltLow.rd .FLT_PORT_ALIVE 0 = 0 ∧ s.feltLow.rd .FLT_PORT_ALIVE 1 = 0 := by
  rw [State.feltLow_eq]
  refine ⟨?_, (s.portLow 0).rd_alive_portLow (by decide)⟩
  rw [(onlyRegs_portLow _ (by decide)).1 _ _ _ (by decide) (by decide) (by decide)]
  exact s.rd_alive_portLow (by decide)

theorem State.freezes_freeze (s : State) {source : Nat} (h : source < 2) : Freezes s (s.freeze source) source := by
  have hregs : s.feltLow.flushCaches.regs = s.feltLow.regs := by rw [State.flushCaches_frame]
  have hrd (f : Field) (i : Nat) (hi : i < 65536) (h1 : f ≠ .DBG_FREEZE_STATUS_STATE) (h2 : f ≠ .DBG_FREEZE_STATUS_SOURCE)
      (h3 : f ≠ .DBG_FREEZE_STATUS_STOPPED) : (s.freeze source).rd f i = s.feltLow.rd f i := by
    unfold State.freeze
    rw [State.rd_wr_field _ (by decide) (by decide) hi (by decide) h3,
      State.rd_wr_field _ (by decide) (by decide) hi (by decide) h2,
      State.rd_wr_field _ (by decide) (by decide) hi (by decide) h1, State.rd_congr hregs]
  have hstate : (s.freeze source).rd .DBG_FREEZE_STATUS_STATE = 2 := by
    unfold State.freeze
    rw [State.rd_wr_field _ (by decide) (by decide) (by decide) (by decide) (by decide),
      State.rd_wr_field _ (by decide) (by decide) (by decide) (by decide) (by decide), State.rd_wr_same]
    rfl
  refine ⟨hstate, ?source, ?stopped, ?live, ?alive0, ?alive1, ?frame, ?quires⟩
  case source =>
    unfold State.freeze
    rw [State.rd_wr_field _ (by decide) (by decide) (by decide) (by decide) (by decide), State.rd_wr_same]
    exact Nat.mod_eq_of_lt (h.trans_le (by decide))
  case stopped => exact State.rd_wr_same ..
  case live => simp [State.live, hstate]
  case alive0 =>
    rw [hrd _ _ (by decide) (by decide) (by decide) (by decide)]
    exact s.rd_feltLow_alive.1
  case alive1 =>
    rw [hrd _ _ (by decide) (by decide) (by decide) (by decide)]
    exact s.rd_feltLow_alive.2
  case frame =>
    unfold State.freeze
    rw [State.flushCaches_frame, State.feltLow_frame]
    rfl
  case quires =>
    intro n
    refine (State.quires_flushCaches s.feltLow n).trans ?_
    rw [State.feltLow_frame]
    rfl

theorem State.freezeTrigger_of_running (hfrozen : s.frozen = false) (hreset : s.inReset = false) (source : Nat) :
    s.freezeTrigger source = s.freeze source := if_neg (by simp [hfrozen, hreset])

theorem State.freezeTrigger_of_stopped (h : s.frozen = true ∨ s.inReset = true) (source : Nat) :
    s.freezeTrigger source = s.count .DBG_FREEZE_STATUS_IGNORED := if_pos (by simpa using h)

theorem State.freezeGo_of_running (hpow : s.powered = true) (hfrozen : s.frozen = false) (hreset : s.inReset = false) :
    s.freezeGo freezeKey = s.freeze 1 := by
  rw [← State.freezeTrigger_of_running hfrozen hreset]
  exact if_pos (by simp [hpow])

/-! ### The aperture -/

theorem State.exec_apertureRead {off : BitVec 25} (hpow : s.powered = true) (hd0 : (s.fnCfg 0).d3hot = false)
    (hfrozen : s.frozen = true) (hoff : off.toNat % 4 = 0) :
    exec (.apertureRead off 4) s = .next { (s.apRead off.toNat 4).1 with reply := .data (s.apRead off.toNat 4).2 } := by
  have hopen : s.bar0Open (0x2000000 + off.toNat) = true := by simp [State.bar0Open, hfrozen]
  refine congrArg Host.Outcome.next ?_
  simp [hpow, hd0, hoff, hopen]

theorem State.mirrorRead_four (s : State) (off : Nat) : s.mirrorRead off 4 = toLe 4 (match Reg.decode off with
    | some a => s.peekWord a
    | none => 0) := List.append_nil _

/-- The register that a banked read sets, and the bytes of one that is refused. -/
theorem State.bankErr_lt (s : State) (space unit : Nat) : s.bankErr space unit < 2 ^ Field.DBG_AP_STATUS_ERR.width := by
  unfold State.bankErr
  dsimp only
  split_ifs <;> decide

end

end Sys2Proof.Machine

namespace Sys2Proof.Claims
open Sys2Proof Sys2Proof.Machine

/-! ### O59 -/

theorem freezesStopTheClocks : FreezesStopTheClocks := by
  intro s key n frozenBy
  have hby {u t : State} {source : Nat} (h : Freezes t u source) (hmem : t.mem = s.mem) (hhb : t.hb = s.hb)
      (hvats : t.vats = s.vats) : frozenBy u source :=
    ⟨h.state, h.source, h.stopped, h.live, h.alive0, h.alive1, (congrArg State.mem h.frame).trans hmem,
      (congrArg State.hb h.frame).trans hhb, (h.quires n).trans (congrArg Vat.quires (State.vat_congr hvats n))⟩
  refine ⟨fun hoff => ?off, fun hpow hfrozen hreset => ⟨?pin, fun hd0 hrec => ⟨?go, ?key⟩⟩, fun hpow hstopped => ?counted⟩
  case off => exact congrArg Host.Outcome.next (if_neg (by simpa [State.powered] using hoff))
  case pin =>
    let t : State := { s with pins := { s.pins with freezeN := false } }
    have h : Freezes t (t.freeze 0) 0 := t.freezes_freeze (by decide)
    refine ⟨t.freeze 0, congrArg Host.Outcome.next ((if_pos hpow).trans ?_), hby h rfl rfl rfl, congrArg State.pins h.frame⟩
    exact State.freezeTrigger_of_running (s := t) hfrozen hreset 0
  case go =>
    rintro rfl
    refine ⟨s.freeze 1, congrArg Host.Outcome.next ((if_pos (by simp [hd0, hrec])).trans ?_),
      hby (s.freezes_freeze (by decide)) rfl rfl rfl⟩
    exact State.freezeGo_of_running hpow hfrozen hreset
  case key =>
    intro hkey
    refine congrArg Host.Outcome.next ((if_pos (by simp [hd0, hrec])).trans (if_neg ?_))
    have hne : key.toNat ≠ freezeKey := fun e => hkey (BitVec.eq_of_toNat_eq e)
    simp [hne]
  case counted =>
    let t : State := { s with pins := { s.pins with freezeN := false } }
    refine ⟨t.count .DBG_FREEZE_STATUS_IGNORED, congrArg Host.Outcome.next ((if_pos hpow).trans ?_),
      State.rd_count_same .., ?_, rfl, rfl⟩
    · exact State.freezeTrigger_of_stopped (s := t) hstopped 0
    · exact (regsKept_wr (List.mem_singleton_self _) (by decide) (by decide)).mpr (regsKept_of_regs rfl _)

theorem theApertureMirrors : TheApertureMirrors := by
  intro s off hpow hd0 hfrozen halign
  refine ⟨fun hoff => ⟨_, State.exec_apertureRead hpow hd0 hfrozen halign, ?mirror, ?mirrorRegs, ?mirrorMem⟩,
    fun hoff => ⟨_, State.exec_apertureRead hpow hd0 hfrozen halign, ?bank, ?denied, ?kept⟩, fun k h4 h8 => ?size⟩
  case mirror =>
    rw [State.apRead, if_pos hoff]
    exact congrArg Reply.data (State.mirrorRead_four s off.toNat)
  case mirrorRegs => rw [State.apRead, if_pos hoff]; rfl
  case mirrorMem => rw [State.apRead, if_pos hoff]; rfl
  case bank =>
    rw [State.apRead, if_neg (Nat.not_lt.mpr hoff)]
    exact (State.rd_wr_same ..).trans (Nat.mod_eq_of_lt (State.bankErr_lt ..))
  case denied =>
    rw [State.apRead, if_neg (Nat.not_lt.mpr hoff)]
    intro herr
    have herr : s.bankErr (s.rd .DBG_AP_BANK_SPACE) (s.rd .DBG_AP_BANK_UNIT) ≠ 0 := fun e =>
      herr ((State.rd_wr_same ..).trans (by rw [e]; rfl))
    simp [State.bankRead, herr, List.range_succ]
  case kept =>
    rw [State.apRead, if_neg (Nat.not_lt.mpr hoff)]
    exact ⟨(onlyRegs_wr s .DBG_AP_STATUS_ERR _ (by decide) (by decide)).1, rfl⟩
  case size => exact congrArg Host.Outcome.next (if_pos (by simp [h4, h8]))

theorem jtagReachesTheAperture : JtagReachesTheAperture := by
  intro s addr data scan
  refine ⟨⟨rfl, ?low, ?part⟩, rfl, fun hlo hhi => ?capture, fun hout => ?outside, fun haddr hdata hpow hfrozen hreset => ?freeze,
    rfl, rfl, fun hhigh => ⟨?extestHigh, ?sampleHigh⟩, fun hlow => ⟨?extest, ?sample⟩⟩
  case low =>
    unfold State.idcodeValue
    omega
  case part =>
    unfold State.idcodeValue
    omega
  case capture =>
    have hcap : s.apCapture s.tap.apAddr = (s.takeFree.2, s.mirrorRead (s.tap.apAddr - 0x2000000) 8) := by
      rw [State.apCapture, if_pos (by simp; omega), State.apRead, if_pos (by omega)]
    refine ⟨_, rfl, ?_⟩
    rw [hcap]
    exact ⟨rfl, Nat.mod_eq_of_lt (by omega), rfl, rfl, rfl, rfl⟩
  case outside => exact congrArg Host.Outcome.next (if_neg (by simp [hout]))
  case freeze =>
    let t : State := { s with tap := { s.tap with ir := 0x11, apData := data.toNat } }
    have hf : Freezes t (t.freeze 1) 1 := t.freezes_freeze (by decide)
    have hgo : t.dbgWrite 0xF00000 (data.toNat % 2 ^ 32) = t.freeze 1 := by
      subst hdata
      exact State.freezeGo_of_running (s := t) hpow hfrozen hreset
    refine ⟨t.freeze 1, congrArg Host.Outcome.next ?_, hf.state, hf.source⟩
    rw [if_pos (by rw [haddr]; decide), haddr]
    exact hgo
  case extestHigh => exact congrArg Host.Outcome.next (if_pos hhigh)
  case sampleHigh => exact congrArg Host.Outcome.next (if_pos hhigh)
  case extest =>
    exact ⟨_, _, congrArg Host.Outcome.next (if_neg (by simp [hlow])), rfl, rfl, rfl, by simp, rfl⟩
  case sample =>
    exact ⟨_, _, congrArg Host.Outcome.next (if_neg (by simp [hlow])), rfl, rfl, rfl, by simp, rfl⟩

/-- Settles O59: the freeze, the aperture and JTAG one command at a time. -/
theorem freezeAndReadBack : Obligations.FreezeAndReadBack :=
  ⟨freezesStopTheClocks, theApertureMirrors, jtagReachesTheAperture⟩

end Sys2Proof.Claims
end

