-- ==== Sys2Proof/Proofs/OperatingPoints.lean ====
section
/-!
PROOF. The effective points of the rails (R454 to R457) and the limiters that move their caps (R458 to R464, R503).
-/

namespace Sys2Proof.Machine

section
variable {s t u : State} {k r : Nat}

/-! ### Where the rails' points are shown -/

/-- What PWR_STATUS shows of the rails. -/
def pointFields : List Field :=
  [.PWR_STATUS_ARR, .PWR_STATUS_VAT, .PWR_STATUS_FAB, .PWR_STATUS_LIMITED, .PWR_STATUS_PEAK, .PWR_STATUS_CLASS]

/-- What moving rails and the records of the power unit change. -/
def limitFields : List Field := .PWR_DVFS_RESULT_STATUS :: pointFields ++ raiseFields

theorem FieldsKept.limits (h : FieldsKept pointFields s t) : FieldsKept limitFields s t := h.mono (by decide)

theorem FieldsKept.limits_of_raise (h : FieldsKept raiseFields s t) : FieldsKept limitFields s t := h.mono (by decide)

theorem railField_mem (r : Nat) : railField r ∈ pointFields := by
  unfold railField
  split_ifs <;> decide

theorem railField_width (r : Nat) : 2 ^ (railField r).width = 16 := by
  unfold railField
  split_ifs <;> rfl

theorem railField_inj (hk : k < 3) (hr : r < 3) (h : r ≠ k) : railField k ≠ railField r := by
  unfold railField
  split_ifs <;> simp_all
  omega

theorem State.railPoint_le (s : State) (r : Nat) : s.railPoint r ≤ 4 := by
  have htop : s.railVop r ≤ 4 := (Nat.min_le_right ..).trans (by unfold railTop; split_ifs <;> decide)
  unfold State.railPoint
  dsimp only
  split_ifs <;> omega

/-! ### What a rail's point depends on -/

theorem FieldsKept.railVop (h : FieldsKept limitFields s t) (hr : r < 3) : t.railVop r = s.railVop r :=
  congrArg (min · _) (h.rd .PWR_DVFS_VOP (by decide) r (by omega) 0 (by decide))

theorem FieldsKept.classNow (h : FieldsKept limitFields s t) : t.classNow = s.classNow := by
  simp only [State.classNow, h.rd .PWR_CLASS_CLASS (by decide) 0 (by decide) 0 (by decide),
    h.rd .PWR_STATUS_TRIPPED (by decide) 0 (by decide) 0 (by decide)]

theorem FieldsKept.classTop (h : FieldsKept limitFields s t) : t.classTop = s.classTop := by
  unfold State.classTop State.peakOk
  rw [h.classNow, h.rd .PWR_CLASS_PEAK (by decide) 0 (by decide) 0 (by decide),
    h.rd .PWR_STATUS_WORN (by decide) 0 (by decide) 0 (by decide),
    h.rd .PWR_STATUS_TRIPPED (by decide) 0 (by decide) 0 (by decide)]

theorem FieldsKept.coreRequest (h : FieldsKept limitFields s t) : t.coreRequest = s.coreRequest := by
  simp only [State.coreRequest, h.railVop (r := 0) (by decide), h.railVop (r := 1) (by decide)]

theorem FieldsKept.railPoint (h : FieldsKept limitFields s t) (hr : r < 3) : t.railPoint r = s.railPoint r := by
  simp only [State.railPoint, h.railVop hr, h.railVop (r := 2) (by decide), h.classTop,
    h.rd .PWR_LIMIT_THERMAL (by decide) 0 (by decide) 0 (by decide),
    h.rd .PWR_LIMIT_POWER (by decide) 0 (by decide) 0 (by decide),
    h.rd .PWR_LIMIT_CURRENT (by decide) 0 (by decide) 0 (by decide)]

theorem FieldsKept.limitedBits (h : FieldsKept limitFields s t) : t.limitedBits = s.limitedBits := by
  simp only [State.limitedBits, h.railVop (r := 0) (by decide), h.railVop (r := 2) (by decide), h.classTop, h.coreRequest,
    h.rd .PWR_LIMIT_THERMAL (by decide) 0 (by decide) 0 (by decide),
    h.rd .PWR_LIMIT_POWER (by decide) 0 (by decide) 0 (by decide),
    h.rd .PWR_LIMIT_CURRENT (by decide) 0 (by decide) 0 (by decide)]

theorem State.limitedBits_lt (s : State) : s.limitedBits < 16 := by
  have hb (p : Bool) : b2n p ≤ 1 := by cases p <;> decide
  unfold State.limitedBits
  have h1 := hb (s.classTop < s.coreRequest)
  have h2 := hb (s.rd .PWR_LIMIT_POWER < s.coreRequest)
  have h3 := hb (s.rd .PWR_LIMIT_THERMAL < max s.coreRequest (s.railVop 2))
  have h4 := hb (s.rd .PWR_LIMIT_CURRENT < s.railVop 0)
  omega

/-! ### One rail -/

/-- Rail `k` is as before: its effective point, its change, and the point that was not confirmed. -/
structure RailKept (k : Nat) (s t : State) : Prop where
  fields : FieldsKept pointFields s t
  point : t.rd (railField k) = s.rd (railField k)
  change : storeFind t.pwr.change k = storeFind s.pwr.change k
  failed : storeFind t.pwr.failed k = storeFind s.pwr.failed k

theorem RailKept.refl (k : Nat) (s : State) : RailKept k s s := ⟨.refl .., rfl, rfl, rfl⟩

theorem RailKept.trans (h : RailKept k s t) (i : RailKept k t u) : RailKept k s u :=
  ⟨h.fields.trans i.fields, i.point.trans h.point, i.change.trans h.change, i.failed.trans h.failed⟩

/-- A rail's change towards point `p` has begun. -/
def State.railGo (s : State) (r p : Nat) : State :=
  { s with pwr := { s.pwr with change := storePut r p s.pwr.change, failed := storeErase s.pwr.failed r } }

/-- What becomes of a rail whose point is above, below or at its effective point. -/
theorem State.moveRail_cases (s : State) (r : Nat) :
    (s.rd (railField r) < s.railPoint r ∧ storeFind s.pwr.failed r = some (s.railPoint r) ∧ s.moveRail r = s) ∨
    (s.rd (railField r) < s.railPoint r ∧ storeFind s.pwr.failed r ≠ some (s.railPoint r) ∧
      s.moveRail r = s.railGo r (s.railPoint r)) ∨
    (s.railPoint r < s.rd (railField r) ∧ s.moveRail r = (s.railGo r (s.railPoint r)).wr (railField r) (s.railPoint r)) ∨
    (s.rd (railField r) = s.railPoint r ∧
      (s.moveRail r = s ∨
        (storeFind s.pwr.change r ≠ none ∧ s.moveRail r = s.railGo r (s.railPoint r)))) := by
  unfold State.moveRail State.railGo
  dsimp only
  split_ifs with hrise hfailed hfall
  · exact .inl ⟨hrise, hfailed, rfl⟩
  · exact .inr (.inl ⟨hrise, hfailed, rfl⟩)
  · exact .inr (.inr (.inl ⟨hfall, rfl⟩))
  · refine .inr (.inr (.inr ⟨by omega, ?_⟩))
    split
    next t' ht' =>
      split_ifs
      · exact .inl rfl
      · exact .inr ⟨by simp [ht'], rfl⟩
    · exact .inl rfl

theorem railKept_railGo (hne : r ≠ k) (p : Nat) : RailKept k s (s.railGo r p) where
  fields := fieldsKept_of_regs rfl
  point := rfl
  change := by simp [State.railGo, storeFind_put, Ne.symm hne]
  failed := by simp [State.railGo, storeFind_erase, Ne.symm hne]

theorem RailKept.wr {f : Field} {v : Nat} (hf : f ∈ pointFields) (hne : railField k ≠ f) : RailKept k s (s.wr f v) where
  fields := (FieldsKept.refl ..).wr hf (by decide) (by decide)
  point := State.rd_wr_field _ (by decide) (by decide) (by decide) (by decide) hne
  change := rfl
  failed := rfl

theorem railKept_moveRail (hk : k < 3) (hr : r < 3) (hne : r ≠ k) : RailKept k s (s.moveRail r) := by
  obtain ⟨-, -, h⟩ | ⟨-, -, h⟩ | ⟨-, h⟩ | ⟨-, h | ⟨-, h⟩⟩ := s.moveRail_cases r <;> rw [h]
  · exact .refl ..
  · exact railKept_railGo hne _
  · exact (railKept_railGo hne _).trans (.wr (railField_mem r) (railField_inj hk hr hne))
  · exact .refl ..
  · exact railKept_railGo hne _

/-- Rail `k` has gone towards its point: down to it at once, or up by a change that waits for the regulator. -/
structure RailMoved (k : Nat) (s u : State) : Prop where
  fields : FieldsKept pointFields s u
  point : u.rd (railField k) = min (s.rd (railField k)) (s.railPoint k)
  rises : s.rd (railField k) < s.railPoint k → storeFind s.pwr.failed k ≠ some (s.railPoint k) →
    storeFind u.pwr.change k = some (s.railPoint k)
  stays : (s.rd (railField k) = s.railPoint k ∧ storeFind s.pwr.change k = none) ∨
      (s.rd (railField k) < s.railPoint k ∧ storeFind s.pwr.failed k = some (s.railPoint k)) →
    storeFind u.pwr.change k = storeFind s.pwr.change k

theorem fieldsKept_moveRail (r : Nat) : FieldsKept pointFields s (s.moveRail r) := by
  have hgo (p : Nat) : FieldsKept pointFields s (s.railGo r p) := fieldsKept_of_regs rfl
  obtain ⟨-, -, h⟩ | ⟨-, -, h⟩ | ⟨-, h⟩ | ⟨-, h | ⟨-, h⟩⟩ := s.moveRail_cases r <;> rw [h]
  · exact .refl ..
  · exact hgo _
  · exact (hgo _).wr (railField_mem r) (by decide) (by decide)
  · exact .refl ..
  · exact hgo _

theorem railMoved_moveRail (s : State) (r : Nat) : RailMoved r s (s.moveRail r) := by
  have hgo (p : Nat) : storeFind (s.railGo r p).pwr.change r = some p := by simp [State.railGo, storeFind_put]
  have hle := s.railPoint_le r
  have hw : s.railPoint r % 2 ^ (railField r).width = s.railPoint r := by
    rw [railField_width]
    omega
  refine ⟨fieldsKept_moveRail r, ?point, fun hrise hne => ?rises, fun hstay => ?stays⟩
  case point =>
    obtain ⟨hlt, -, h⟩ | ⟨hlt, -, h⟩ | ⟨hlt, h⟩ | ⟨heq, h | ⟨-, h⟩⟩ := s.moveRail_cases r <;> rw [h]
    · omega
    · exact (Nat.min_eq_left hlt.le).symm
    · rw [State.rd_wr_same, hw, Nat.min_eq_right hlt.le]
    · omega
    · exact (Nat.min_eq_left heq.le).symm
  case rises =>
    obtain ⟨-, hfailed, h⟩ | ⟨hlt, -, h⟩ | ⟨hlt, h⟩ | ⟨heq, -⟩ := s.moveRail_cases r
    · exact absurd hfailed hne
    · rw [h, hgo]
    · omega
    · omega
  case stays =>
    obtain ⟨-, -, h⟩ | ⟨hlt, hne, h⟩ | ⟨hlt, h⟩ | ⟨heq, h | ⟨hsome, h⟩⟩ := s.moveRail_cases r
    · rw [h]
    · obtain ⟨heq, -⟩ | ⟨-, hfailed⟩ := hstay
      · omega
      · exact absurd hfailed hne
    · omega
    · rw [h]
    · obtain ⟨-, hnone⟩ | ⟨hlt, -⟩ := hstay
      · exact absurd hnone hsome
      · omega

/-- SMB_ALERT_N, and the fields of PWR_STATUS. -/
theorem State.showPower_eq (s : State) : ∃ alert : Bool,
    s.showPower = ((({ s with pins := { s.pins with smbAlert := alert } } : State).wr .PWR_STATUS_LIMITED s.limitedBits).wr
      .PWR_STATUS_PEAK (b2n (s.classTop = 4))).wr .PWR_STATUS_CLASS s.classNow := by
  unfold State.showPower
  dsimp only
  split_ifs
  · exact ⟨true, rfl⟩
  · exact ⟨s.pins.smbAlert, rfl⟩

theorem railKept_showPower (k : Nat) : RailKept k s s.showPower := by
  have hne : railField k ≠ .PWR_STATUS_LIMITED ∧ railField k ≠ .PWR_STATUS_PEAK ∧ railField k ≠ .PWR_STATUS_CLASS := by
    unfold railField
    split_ifs <;> decide
  obtain ⟨alert, h⟩ := s.showPower_eq
  have hpins : RailKept k s { s with pins := { s.pins with smbAlert := alert } } := ⟨fieldsKept_of_regs rfl, rfl, rfl, rfl⟩
  rw [h]
  exact ((hpins.trans (.wr (by decide) hne.1)).trans (.wr (by decide) hne.2.1)).trans (.wr (by decide) hne.2.2)

/-! ### All rails -/

/-- What moving rails changes of the chip. -/
def OnlyPoints (s t : State) : Prop :=
  t = { s with
    regs := t.regs
    pwr := { s.pwr with change := t.pwr.change, failed := t.pwr.failed }
    pins := { s.pins with smbAlert := t.pins.smbAlert } }

theorem OnlyPoints.trans (h : OnlyPoints s t) (i : OnlyPoints t u) : OnlyPoints s u := by
  unfold OnlyPoints at *
  rw [i, h]

theorem OnlyPoints.mem (h : OnlyPoints s t) : t.mem = s.mem := by rw [h]

theorem onlyPoints_moveRail (s : State) (r : Nat) : OnlyPoints s (s.moveRail r) := by
  obtain ⟨-, -, h⟩ | ⟨-, -, h⟩ | ⟨-, h⟩ | ⟨-, h | ⟨-, h⟩⟩ := s.moveRail_cases r <;> rw [h] <;> rfl

theorem onlyPoints_repoint (s : State) : OnlyPoints s s.repoint := by
  have hshow (t : State) : OnlyPoints t t.showPower := by
    obtain ⟨alert, h⟩ := t.showPower_eq
    rw [h]
    rfl
  exact (((onlyPoints_moveRail s 0).trans (onlyPoints_moveRail _ 1)).trans (onlyPoints_moveRail _ 2)).trans (hshow _)

theorem RailMoved.of_kept {s' u' : State} (hk : k < 3) (h : RailKept k s s') (m : RailMoved k s' u') (h' : RailKept k u' u) :
    RailMoved k s u := by
  have hpoint := h.fields.limits.railPoint hk
  refine ⟨h.fields.trans (m.fields.trans h'.fields), ?_, fun hrise hne => ?_, fun hstay => ?_⟩
  · rw [h'.point, m.point, h.point, hpoint]
  · rw [h'.change, ← hpoint]
    exact m.rises (by rwa [h.point, hpoint]) (by rwa [h.failed, hpoint])
  · rw [h'.change, ← h.change]
    exact m.stays (by rwa [h.point, hpoint, h.change, h.failed])

/-- Every rail goes towards its point (R456). -/
theorem State.railMoved_repoint (s : State) (hk : k < 3) : RailMoved k s s.repoint := by
  have hshow {t : State} : RailKept k t t.showPower := railKept_showPower k
  have h : k = 0 ∨ k = 1 ∨ k = 2 := by omega
  obtain rfl | rfl | rfl := h
  · exact .of_kept hk (.refl ..) (railMoved_moveRail s 0)
      (((railKept_moveRail hk (r := 1) (by decide) (by decide)).trans (railKept_moveRail hk (r := 2) (by decide) (by decide))).trans
        hshow)
  · exact .of_kept hk (railKept_moveRail hk (r := 0) (by decide) (by decide)) (railMoved_moveRail _ 1)
      ((railKept_moveRail hk (r := 2) (by decide) (by decide)).trans hshow)
  · exact .of_kept hk ((railKept_moveRail hk (r := 0) (by decide) (by decide)).trans
      (railKept_moveRail hk (r := 1) (by decide) (by decide))) (railMoved_moveRail _ 2) hshow

theorem fieldsKept_repoint (s : State) : FieldsKept pointFields s s.repoint := (s.railMoved_repoint (k := 0) (by decide)).fields

theorem State.limited_repoint (s : State) : s.repoint.rd .PWR_STATUS_LIMITED = s.repoint.limitedBits := by
  let t := ((s.moveRail 0).moveRail 1).moveRail 2
  have hbits : s.repoint.limitedBits = t.limitedBits := (railKept_showPower (s := t) 0).fields.limits.limitedBits
  obtain ⟨alert, h⟩ := t.showPower_eq
  have hw : t.limitedBits % 2 ^ Field.PWR_STATUS_LIMITED.width = t.limitedBits := Nat.mod_eq_of_lt t.limitedBits_lt
  rw [hbits, show s.repoint = t.showPower from rfl, h]
  simp [State.rd_wr_field, hw]

/-! ### Records of the power unit (R464) -/

theorem State.kindBit_raiseShared (s : State) (src : Shared) (status detail p0 p1 : Nat) (h : s.sharedTarget src < 65536) :
    kindBit ((s.raiseShared src status detail p0 p1).rd .EVQ_PEND_PEND (s.sharedTarget src)) src.kind = true := by
  have hkind : 1 ≤ src.kind ∧ src.kind ≤ 19 := by cases src <;> decide
  exact s.kindBit_raise (e := { kind := src.kind, status := status, detail := detail, p0 := p0, p1 := p1 }) h hkind.1 hkind.2

/-! ### Requests for points (R455 to R457) -/

theorem State.dvfsApply_spec (s : State) (hr : r < 3) {vop fop : Nat} (hvop : vop < 16) (hfop : fop < 16)
    (h : min fop (railTop r) ≤ min vop (railTop r)) :
    let u := s.dvfsApply r vop fop
    u.rd .PWR_DVFS_VOP r = vop ∧ u.rd .PWR_DVFS_FOP r = fop ∧ u.rd .PWR_DVFS_RESULT_STATUS r = 0 ∧
    u.rd (railField r) = min (s.rd (railField r)) (u.railPoint r) ∧
    (s.rd (railField r) < u.railPoint r → storeFind u.pwr.change r = some (u.railPoint r)) ∧
    u.rd .PWR_STATUS_LIMITED = u.limitedBits ∧ u.mem = s.mem := by
  let s1 := ((s.wr .PWR_DVFS_VOP vop r).wr .PWR_DVFS_FOP fop r).wr .PWR_DVFS_RESULT_STATUS stOk r
  let s2 : State := { s1 with pwr := { s1.pwr with failed := storeErase s1.pwr.failed r } }
  have heq : s.dvfsApply r vop fop = s2.repoint := if_neg (Nat.not_lt.mpr h)
  have hm := s2.railMoved_repoint hr
  have hr' : r < 65536 := by omega
  have hkept {f : Field} (hf : f ∉ pointFields) : s2.repoint.rd f r = s1.rd f r := hm.fields.rd f hf r hr' 0 (by decide)
  have hshown : s2.rd (railField r) = s.rd (railField r) := by
    have hne : railField r ≠ .PWR_DVFS_RESULT_STATUS ∧ railField r ≠ .PWR_DVFS_FOP ∧ railField r ≠ .PWR_DVFS_VOP := by
      unfold railField
      split_ifs <;> decide
    change s1.rd (railField r) = s.rd (railField r)
    simp [s1, State.rd_wr_field, hr', hne]
  have hpoint : s2.repoint.railPoint r = s2.railPoint r := hm.fields.limits.railPoint hr
  dsimp only
  rw [heq]
  refine ⟨?vop, ?fop, ?result, ?point, fun hrise => ?rises, s2.limited_repoint, (onlyPoints_repoint s2).mem⟩
  case vop =>
    rw [hkept (by decide)]
    have hw : vop % 2 ^ Field.PWR_DVFS_VOP.width = vop := Nat.mod_eq_of_lt hvop
    simp [s1, State.rd_wr_field, hr', hw]
  case fop =>
    rw [hkept (by decide)]
    have hw : fop % 2 ^ Field.PWR_DVFS_FOP.width = fop := Nat.mod_eq_of_lt hfop
    simp [s1, State.rd_wr_field, hr', hw]
  case result =>
    rw [hkept (by decide)]
    simp [s1, stOk]
  case point => rw [hm.point, hshown, hpoint]
  case rises =>
    rw [hpoint] at hrise ⊢
    refine hm.rises (hshown ▸ hrise) ?_
    have hnone : storeFind s2.pwr.failed r = none := by simp [s2, storeFind_erase]
    simp [hnone]


end

end Sys2Proof.Machine

namespace Sys2Proof.Claims
open Sys2Proof Sys2Proof.Machine

theorem operatingPoints : OperatingPoints := by
  intro s rail vop fop
  have hr : rail.val < 65536 := by omega
  refine ⟨fun hwrites hidle => ⟨fun hlow => ?low, fun hok => ?taken⟩, fun p hwrites hbusy => ?latched,
    fun hlive hchange hlatched => ⟨?readback, fun hrise hroute => ?timeout⟩⟩
  case low =>
    refine ⟨s.wr .PWR_DVFS_RESULT_STATUS (stPwr 5 (rail * 256)) rail, congrArg Host.Outcome.next ((if_pos hwrites).trans
      ((if_neg (by simp [hidle])).trans (if_pos hlow))), ?_, onlyRegs_wr s _ _ hr (by decide)⟩
    rw [State.rd_wr_same]
    refine Nat.mod_eq_of_lt ?_
    change _ < 2 ^ 32
    simp only [stPwr, statusWord]
    omega
  case taken =>
    refine ⟨s.dvfsApply rail vop.toNat fop.toNat, congrArg Host.Outcome.next ((if_pos hwrites).trans (if_neg (by simp [hidle]))),
      s.dvfsApply_spec rail.isLt vop.isLt fop.isLt hok⟩
  case latched =>
    exact ⟨_, congrArg Host.Outcome.next ((if_pos hwrites).trans (if_pos (by simp [hbusy]))), by simp [storeFind_put], rfl⟩
  case readback =>
    let s1 : State := ({ s with pwr := { s.pwr with change := storeErase s.pwr.change rail } } : State).wr (railField rail) (s.railPoint rail)
    have hexec : exec (.avsReadback rail) s = .next s1.repoint := by
      refine congrArg Host.Outcome.next ((if_pos hlive).trans ?_)
      simp [State.avsReadback, State.changeEnd, hchange, hlatched, s1]
    have hsame : s1.railPoint rail = s.railPoint rail := by
      have hk : FieldsKept pointFields s s1 := FieldsKept.wr (fieldsKept_of_regs rfl) (railField_mem _) (by decide) (by decide)
      exact hk.limits.railPoint rail.isLt
    have hshown : s1.rd (railField rail) = s.railPoint rail := by
      have hle := s.railPoint_le rail
      refine (State.rd_wr_same ..).trans (Nat.mod_eq_of_lt ?_)
      rw [railField_width]
      omega
    have hnone : storeFind s1.pwr.change rail = none := by simp [s1, storeFind_erase]
    have hm := s1.railMoved_repoint rail.isLt
    refine ⟨s1.repoint, hexec, ?_, ?_, (onlyPoints_repoint s1).mem⟩
    · rw [hm.point, hshown, hsame, Nat.min_self]
    · exact (hm.stays (.inl ⟨hshown.trans hsame.symm, hnone⟩)).trans hnone
  case timeout =>
    let st := stPwr 6 (rail * 256)
    let s1 : State := ({ s with pwr := { s.pwr with
      change := storeErase s.pwr.change rail, failed := storePut rail (s.railPoint rail) s.pwr.failed } } : State).wr
        .PWR_DVFS_RESULT_STATUS st rail
    let s2 : State := s1.raiseShared .power st s.powerDetail s.avgPower (s.pwr.reserve / 1000)
    have hroute1 : s1.rd .EVQ_ROUTE_POWER = s.rd .EVQ_ROUTE_POWER :=
      State.rd_wr_field _ hr (by decide) (by decide) (by decide) (by decide)
    have hlt : s1.sharedTarget .power < 65536 := by
      change s1.rd .EVQ_ROUTE_POWER < 65536
      omega
    have hraised : FieldsKept raiseFields s1 s2 := fieldsKept_raise hlt
    have hpwr : s2.pwr = s1.pwr := State.raise_pwr ..
    have hexec : exec (.avsTimeout rail) s = .next s2.repoint := by
      have hnone : storeFind s2.pwr.latched rail = none := by rw [hpwr]; exact hlatched
      refine congrArg Host.Outcome.next ((if_pos hlive).trans ?_)
      simp only [State.avsTimeout, State.changeEnd, hchange]
      change (match storeFind s2.pwr.latched rail with | some w => _ | none => _) = _
      rw [hnone]
    have hm := s2.railMoved_repoint rail.isLt
    have hwritten : FieldsKept limitFields s s1 := FieldsKept.wr (fieldsKept_of_regs rfl) (by decide) hr (by decide)
    have hpoint : s2.railPoint rail = s.railPoint rail := (hwritten.trans hraised.limits_of_raise).railPoint rail.isLt
    have hfield : railField rail ∉ raiseFields ∧ railField rail ≠ .PWR_DVFS_RESULT_STATUS := by
      unfold railField
      split_ifs <;> decide
    have hshown : s2.rd (railField rail) = s.rd (railField rail) :=
      (hraised.rd _ hfield.1 0 (by decide) 0 (by decide)).trans
        (State.rd_wr_field _ hr (by decide) (by decide) (by decide) hfield.2)
    have hnone : storeFind s2.pwr.change rail = none := by
      rw [hpwr]
      simp [s1, storeFind_erase]
    have hfailed : storeFind s2.pwr.failed rail = some (s.railPoint rail) := by
      rw [hpwr]
      simp [s1, storeFind_put]
    have hpend : kindBit (s2.rd .EVQ_PEND_PEND (s.rd .EVQ_ROUTE_POWER)) 0x13 = true := by
      rw [← hroute1]
      exact s1.kindBit_raiseShared .power _ _ _ _ hlt
    refine ⟨s2.repoint, hexec, ?_, ?_, ?_, ?_⟩
    · rw [hm.point, hshown, hpoint, Nat.min_eq_left hrise.le]
    · refine (hm.stays (.inr ⟨?_, ?_⟩)).trans hnone
      · rwa [hshown, hpoint]
      · rw [hfailed, hpoint]
    · rw [(fieldsKept_repoint s2).rd _ (by decide) _ hr _ (by decide), hraised.rd _ (by decide) _ hr _ (by decide)]
      refine (State.rd_wr_same ..).trans (Nat.mod_eq_of_lt ?_)
      change _ < 2 ^ 32
      simp only [st, stPwr, statusWord]
      omega
    · rw [(fieldsKept_repoint s2).rd _ (by decide) _ (by omega) _ (by decide)]
      exact hpend

end Sys2Proof.Claims
end

