-- ==== Sys2Proof/Proofs/Limiters.lean ====
section
/-!
PROOF. The power, current, thermal and wear limiters (R459 to R464, R503).
-/

namespace Sys2Proof.Machine
open Sys2Proof.Claims

section
variable {s t u : State} {cap : Field}

/-! ### What the limiters leave alone -/

/-- What a limiter's step changes of the chip, beside its cap. -/
def OnlyLimits (s t : State) : Prop :=
  t = { s with
    regs := t.regs, mem := t.mem, sent := t.sent, pcie := t.pcie, owed := t.owed
    pwr := { t.pwr with bins := s.pwr.bins, reserve := s.pwr.reserve }
    pins := { s.pins with smbAlert := t.pins.smbAlert } }

theorem OnlyLimits.trans (h : OnlyLimits s t) (i : OnlyLimits t u) : OnlyLimits s u := by
  unfold OnlyLimits at *
  rw [i, h]

theorem OnlyPoints.onlyLimits (h : OnlyPoints s t) : OnlyLimits s t := by
  unfold OnlyLimits
  rw [h]

theorem OnlyPoints.mgc (h : OnlyPoints s t) : t.mgc = s.mgc := by rw [h]

theorem OnlyLimits.bins (h : OnlyLimits s t) : t.pwr.bins = s.pwr.bins := by rw [h]
theorem OnlyLimits.reserve (h : OnlyLimits s t) : t.pwr.reserve = s.pwr.reserve := by rw [h]
theorem OnlyLimits.hb (h : OnlyLimits s t) : t.hb = s.hb := by rw [h]
theorem OnlyLimits.gpioIn (h : OnlyLimits s t) : t.pins.gpioIn = s.pins.gpioIn := by rw [h]
theorem OnlyLimits.thermTop (h : OnlyLimits s t) : t.thermTop = s.thermTop := by
  rw [h]
  rfl

theorem OnlyLimits.live (h : OnlyLimits s t) {r : State} (hr : t.rd .DBG_FREEZE_STATUS_STATE = r.rd .DBG_FREEZE_STATUS_STATE)
    (hpins : s.pins = r.pins) : t.live = r.live := by
  have hp : t.pins.pwrok = r.pins.pwrok ∧ t.pins.resetN = r.pins.resetN ∧ t.pins.perstN = r.pins.perstN := by
    rw [h, ← hpins]
    exact ⟨rfl, rfl, rfl⟩
  unfold State.live
  rw [hr, hp.1, hp.2.1, hp.2.2]

theorem onlyLimits_raise (s : State) (target : Nat) (e : Ev) : OnlyLimits s (s.raise target e) := by
  unfold OnlyLimits
  rw [State.raise_frame]

theorem State.powerRecord_pwr (s : State) (src : Shared) (st : Nat) : (s.powerRecord src st).pwr = s.pwr := by
  unfold State.powerRecord
  split_ifs
  · exact State.raise_pwr ..
  · rfl

/-! ### The records of a step -/

/-- The routes of the power unit's records name event queues. -/
structure RoutesOk (s : State) : Prop where
  power : s.rd .EVQ_ROUTE_POWER < 65536
  thermal : s.rd .EVQ_ROUTE_THERMAL < 65536

/-- A limiter's step that changes cap `cap`: the other registers but those of the points and the records are as before. -/
structure Limited (cap : Field) (s t : State) : Prop where
  fields : FieldsKept (cap :: limitFields) s t
  only : OnlyLimits s t
  routes : RoutesOk t

theorem Limited.refl (cap : Field) (hs : RoutesOk s) : Limited cap s s := ⟨.refl .., rfl, hs⟩

theorem Limited.trans (h : Limited cap s t) (i : Limited cap t u) : Limited cap s u :=
  ⟨h.fields.trans i.fields, h.only.trans i.only, i.routes⟩

theorem limited_pwr (hs : RoutesOk s) {p : Power} (hbins : p.bins = s.pwr.bins) (hreserve : p.reserve = s.pwr.reserve) :
    Limited cap s { s with pwr := p } := by
  refine ⟨fieldsKept_of_regs rfl, ?_, ⟨hs.power, hs.thermal⟩⟩
  unfold OnlyLimits
  rw [← hbins, ← hreserve]

theorem Limited.repoint (h : Limited cap s t) : Limited cap s t.repoint := by
  have hk := fieldsKept_repoint t
  refine ⟨h.fields.trans (hk.mono fun f hf => List.mem_cons_of_mem _ ?_), h.only.trans (onlyPoints_repoint t).onlyLimits, ?_, ?_⟩
  · exact (by decide : pointFields ⊆ limitFields) hf
  · rw [hk.rd _ (by decide) _ (by decide) _ (by decide)]
    exact h.routes.power
  · rw [hk.rd _ (by decide) _ (by decide) _ (by decide)]
    exact h.routes.thermal

theorem fieldsKept_powerRecord (hs : RoutesOk s) {src : Shared} (hsrc : src = .power ∨ src = .thermal) (st : Nat) :
    FieldsKept raiseFields s (s.powerRecord src st) := by
  have hlt : s.sharedTarget src < 65536 := by
    obtain rfl | rfl := hsrc
    · exact hs.power
    · exact hs.thermal
  exact .ite (fieldsKept_raise hlt) (.refl ..)

theorem State.kindBit_powerRecord (hlive : s.live = true) (hs : RoutesOk s) {route : Nat}
    (hroute : s.rd .EVQ_ROUTE_POWER = route) (st : Nat) :
    kindBit ((s.powerRecord .power st).rd .EVQ_PEND_PEND route) 0x13 = true := by
  subst hroute
  rw [State.powerRecord, if_pos hlive]
  exact s.kindBit_raiseShared .power st s.powerDetail s.avgPower (s.pwr.reserve / 1000) hs.power

theorem Limited.powerRecord (h : Limited cap s t) {src : Shared} (hsrc : src = .power ∨ src = .thermal) (st : Nat) :
    Limited cap s (t.powerRecord src st) := by
  have hk := fieldsKept_powerRecord h.routes hsrc st
  have honly : OnlyLimits t (t.powerRecord src st) := by
    unfold State.powerRecord
    split_ifs
    · exact onlyLimits_raise ..
    · rfl
  refine ⟨h.fields.trans (hk.mono fun f hf => List.mem_cons_of_mem _ ?_), h.only.trans honly, ?_, ?_⟩
  · exact (by decide : raiseFields ⊆ limitFields) hf
  · rw [hk.rd _ (by decide) _ (by decide) _ (by decide)]
    exact h.routes.power
  · rw [hk.rd _ (by decide) _ (by decide) _ (by decide)]
    exact h.routes.thermal

theorem Limited.recordIf (h : Limited cap s t) (p : Prop) [Decidable p] {src : Shared} (hsrc : src = .power ∨ src = .thermal)
    (st : Nat) : Limited cap s (if p then t.powerRecord src st else t) := by
  split_ifs
  · exact h.powerRecord hsrc st
  · exact h

/-- The three caps. -/
def capFields : List Field := [.PWR_LIMIT_POWER, .PWR_LIMIT_THERMAL, .PWR_LIMIT_CURRENT]

theorem Limited.wr (hs : RoutesOk s) (hcap : cap ∈ capFields) (v : Nat) : Limited cap s (s.wr cap v) := by
  have hne : Field.EVQ_ROUTE_POWER ≠ cap ∧ Field.EVQ_ROUTE_THERMAL ≠ cap := by
    constructor <;> (rintro rfl; revert hcap; decide)
  refine ⟨FieldsKept.wr (.refl ..) List.mem_cons_self (by decide) (by decide), rfl, ?_, ?_⟩
  · rw [State.rd_wr_field _ (by decide) (by decide) (by decide) (by decide) hne.1]
    exact hs.power
  · rw [State.rd_wr_field _ (by decide) (by decide) (by decide) (by decide) hne.2]
    exact hs.thermal

/-- A cap that has been set keeps its value while the rails move and records go out. -/
def CapSet (cap : Field) (v : Nat) (s t : State) : Prop := Limited cap s t ∧ t.rd cap = v

theorem cap_width (hcap : cap ∈ capFields) : 2 ^ cap.width = 16 := by
  simp only [capFields, List.mem_cons, List.not_mem_nil, or_false] at hcap
  obtain rfl | rfl | rfl := hcap <;> rfl

theorem cap_not_limited (hcap : cap ∈ capFields) : cap ∉ pointFields ∧ cap ∉ raiseFields := by
  revert hcap
  revert cap
  decide

theorem CapSet.repoint {v : Nat} (hcap : cap ∈ capFields) (h : CapSet cap v s t) : CapSet cap v s t.repoint :=
  ⟨h.1.repoint, ((fieldsKept_repoint t).rd _ (cap_not_limited hcap).1 _ (by decide) _ (by decide)).trans h.2⟩

theorem CapSet.pwr {v : Nat} (h : CapSet cap v s t) {p : Power} (hbins : p.bins = t.pwr.bins)
    (hreserve : p.reserve = t.pwr.reserve) : CapSet cap v s { t with pwr := p } :=
  ⟨h.1.trans (limited_pwr h.1.routes hbins hreserve), h.2⟩

theorem CapSet.recordIf {v : Nat} (hcap : cap ∈ capFields) (h : CapSet cap v s t) (p : Prop) [Decidable p] {src : Shared}
    (hsrc : src = .power ∨ src = .thermal) (st : Nat) : CapSet cap v s (if p then t.powerRecord src st else t) := by
  refine ⟨h.1.recordIf p hsrc st, ?_⟩
  split_ifs
  · exact ((fieldsKept_powerRecord h.1.routes hsrc st).rd _ (cap_not_limited hcap).2 _ (by decide) _ (by decide)).trans h.2
  · exact h.2

theorem capSet_wr (hs : RoutesOk s) (hcap : cap ∈ capFields) {v : Nat} (hv : v < 16) : CapSet cap v s (s.wr cap v) :=
  ⟨.wr hs hcap v, (State.rd_wr_same ..).trans (Nat.mod_eq_of_lt (by rwa [cap_width hcap]))⟩

/-! ### The limiters -/

theorem State.thermTop_le (s : State) : s.thermTop ≤ 4 := by
  unfold State.thermTop
  split_ifs <;> decide

theorem capSet_setThermal (hs : RoutesOk s) {v : Nat} (hv : v < 16) : CapSet .PWR_LIMIT_THERMAL v s (s.setThermal v) :=
  ((capSet_wr hs (by decide) hv).repoint (by decide)).recordIf (by decide) _ (.inr rfl) _

/-- A hold, and the limiter below 105 degrees, let the thermal cap fall to what the held pins allow. -/
theorem capSet_hold (hs : RoutesOk s) :
    CapSet .PWR_LIMIT_THERMAL (min (s.rd .PWR_LIMIT_THERMAL) s.thermTop) s s.thermHold := by
  have htop := s.thermTop_le
  unfold State.thermHold
  dsimp only
  split_ifs with h
  · rw [Nat.min_eq_right h.le]
    exact capSet_setThermal hs (by omega)
  · rw [Nat.min_eq_left (Nat.not_lt.mp h)]
    exact ⟨.refl _ hs, rfl⟩

theorem State.capStep_bounds (s : State) (h : s.rd .PWR_LIMIT_POWER ≤ 4) :
    ((s.rd .PWR_LIMIT_POWER : Int) + s.capStep).toNat < 16 := by
  have hstep : s.capStep ≤ 1 := by
    unfold State.capStep
    dsimp only
    split_ifs <;> decide
  omega

theorem capSet_powerLimit (hs : RoutesOk s) (hle : s.rd .PWR_LIMIT_POWER ≤ 4) (before : Nat) :
    CapSet .PWR_LIMIT_POWER ((s.rd .PWR_LIMIT_POWER : Int) + s.capStep).toNat s (s.powerLimit before) := by
  let s1 : State := { s with pwr := { s.pwr with
    sinceDown := if s.capStep < 0 then 0 else s.pwr.sinceDown
    sinceUp := if 0 < s.capStep then 0 else s.pwr.sinceUp } }
  have hsteps : Limited .PWR_LIMIT_POWER s s1 := limited_pwr hs rfl rfl
  have hset := capSet_wr (cap := .PWR_LIMIT_POWER) hsteps.routes (by decide) (s.capStep_bounds hle)
  exact (CapSet.recordIf (by decide) (CapSet.recordIf (by decide) (CapSet.repoint (by decide) ⟨hsteps.trans hset.1, hset.2⟩)
    _ (.inl rfl) _) _ (.inl rfl) _)

theorem capSet_currentRise (hs : RoutesOk s) (low : Bool) :
    CapSet .PWR_LIMIT_CURRENT (if low then min 4 (s.rd .PWR_LIMIT_CURRENT + 1) else s.rd .PWR_LIMIT_CURRENT) s
      (s.currentRise low) := by
  cases low with
  | true =>
    have hlt : min 4 (s.rd .PWR_LIMIT_CURRENT + 1) < 16 := by omega
    exact (capSet_wr hs (by decide) hlt).repoint (by decide)
  | false => exact ⟨.refl _ hs, rfl⟩

theorem limited_thermalLimit (hs : RoutesOk s) (temp : Int) : Limited .PWR_LIMIT_THERMAL s (s.thermalLimit temp) := by
  have htop := s.thermTop_le
  unfold State.thermalLimit
  dsimp only
  split_ifs with hhot hzero hheld hcold
  · exact .refl _ hs
  · exact (capSet_setThermal hs (by omega)).1
  · exact (capSet_setThermal hs (by omega)).1
  · simp only [Bool.and_eq_true, decide_eq_true_eq] at hcold
    have hpwr : Limited .PWR_LIMIT_THERMAL s { s with pwr := { s.pwr with thermSince := 0 } } := limited_pwr hs rfl rfl
    exact hpwr.trans (capSet_setThermal hpwr.routes (by omega)).1
  · exact .refl _ hs

theorem State.rd_thermalLimit_hot (hs : RoutesOk s) {temp : Int} (h : 105 ≤ temp) (hcap : 0 < s.rd .PWR_LIMIT_THERMAL) :
    (s.thermalLimit temp).rd .PWR_LIMIT_THERMAL = min (s.rd .PWR_LIMIT_THERMAL - 1) s.thermTop := by
  have htop := s.thermTop_le
  have heq : s.thermalLimit temp = s.setThermal (min (s.rd .PWR_LIMIT_THERMAL - 1) s.thermTop) :=
    (if_pos h).trans (if_neg (by omega))
  rw [heq]
  exact (capSet_setThermal hs (by omega)).2

theorem State.rd_thermalLimit_warm (hs : RoutesOk s) {temp : Int} (h : temp < 105) (hlow : 100 ≤ temp) :
    (s.thermalLimit temp).rd .PWR_LIMIT_THERMAL = min (s.rd .PWR_LIMIT_THERMAL) s.thermTop := by
  have heq : s.thermalLimit temp = s.thermHold := by
    unfold State.thermalLimit State.thermHold
    dsimp only
    rw [if_neg (by omega), if_neg (c := (_ && _) = true) (by simp; omega)]
  rw [heq]
  exact (capSet_hold hs).2

theorem State.bitAt_setPin (s : State) (n : Nat) (low : Bool) : bitAt (s.setPin n low).pins.gpioIn n = !low := by
  cases low with
  | true => simp [State.setPin, bitAt_clearBit]
  | false => simp [State.setPin, bitAt_setBit]

/-! ### Wear (R463) -/

theorem State.saveSettings_eq (s : State) (wear minGen : Nat) : ∃ free settings log migDone,
    s.saveSettings wear minGen =
      { s with free := free, mgc := { s.mgc with settings := settings, log := log, migDone := migDone } } := by
  let pend := s.mgc.settings.any (fun c => c.pendingMig) && !s.mgc.migDone
  let s1 := s.putSettings ⟨s.settingsTarget, s.settingsGen + 1, s.fmt, pend, wear, minGen, s.saveallNow⟩
  obtain ⟨seq, rest, free, h⟩ := State.appendLog_eq { s1 with mgc := { s1.mgc with migDone := false } }
    { seq := 0, event := 10, slot := 0, cause := 0, fwver := 0, value := wear, value2 := minGen }
  exact ⟨_, _, _, _, h⟩

/-! ### Thermal trips (R462) -/

/-- What a thermal trip shows beside the reset. -/
theorem deviceResetTo_tripped {st : Nat} (h : DeviceResetTo s t st) (pins : Pins) (pwr : Power) :
    DeviceResetTo s { t.wr .PWR_STATUS_TRIPPED 1 with pins := pins, pwr := pwr } st := by
  have hwr : DeviceResetTo s (t.wr .PWR_STATUS_TRIPPED 1) st := by
    unfold DeviceResetTo at *
    simpa [State.rd_wr_field] using h
  exact hwr

/-! ### The limiters' steps -/

theorem fieldsKept_setTemp (s : State) (temp : Int) (sensor : Nat) :
    FieldsKept [.PWR_TEMP_TEMP, .PWR_TEMP_SENSOR] s (s.setTemp temp sensor) := by
  unfold State.setTemp
  exact ((FieldsKept.refl ..).wr (by decide) (by decide) (by decide)).wr (by decide) (by decide) (by decide)

theorem fieldsKept_addBin (s : State) (power : Nat) :
    FieldsKept [.PWR_RESERVE_RESERVE, .PWR_RESERVE_AVG] s (s.addBin power) := by
  have hpwr (p : Power) : FieldsKept [.PWR_RESERVE_RESERVE, .PWR_RESERVE_AVG] s { s with pwr := p } := fieldsKept_of_regs rfl
  exact ((hpwr _).wr (by decide) (by decide) (by decide)).wr (by decide) (by decide) (by decide)

/-- A bin moves the reserve, the window and the caps. -/
theorem State.limiterBin_spec (s : State) (power : Nat) (temp : Int) (sensor : Fin 16) (low : Bool) (hpow : s.powered = true)
    (hs : RoutesOk s) (hcap : s.rd .PWR_LIMIT_POWER ≤ 4) :
    let b := (s.setTemp temp sensor).addBin power
    let cap := s.rd .PWR_LIMIT_THERMAL
    ∃ u : State, exec (.limiterBin power temp sensor low) s = .next u ∧ u.rd .PWR_TEMP_TEMP = wrapN 8 temp ∧
      u.rd .PWR_TEMP_SENSOR = sensor ∧ u.pwr.bins = power :: s.pwr.bins.take 9 ∧
      u.pwr.reserve = min 6250000 (s.pwr.reserve + s.classPower - power) ∧
      u.rd .PWR_LIMIT_POWER = ((s.rd .PWR_LIMIT_POWER : Int) + b.capStep).toNat ∧
      u.rd .PWR_LIMIT_CURRENT = (if low then min 4 (s.rd .PWR_LIMIT_CURRENT + 1) else s.rd .PWR_LIMIT_CURRENT) ∧
      (105 ≤ temp → 0 < cap → u.rd .PWR_LIMIT_THERMAL = min (cap - 1) s.thermTop) ∧
      (100 ≤ temp → temp < 105 → u.rd .PWR_LIMIT_THERMAL = min cap s.thermTop) := by
  let s0 := s.setTemp temp sensor
  let b := s0.addBin power
  let s1 := b.powerLimit s.pwr.reserve
  let s2 := s1.currentRise low
  have hset : FieldsKept [.PWR_TEMP_TEMP, .PWR_TEMP_SENSOR] s s0 := fieldsKept_setTemp ..
  have hadd : FieldsKept [.PWR_RESERVE_RESERVE, .PWR_RESERVE_AVG] s0 b := fieldsKept_addBin ..
  have hb {f : Field} (h1 : f ∉ [Field.PWR_TEMP_TEMP, .PWR_TEMP_SENSOR]) (h2 : f ∉ [Field.PWR_RESERVE_RESERVE, .PWR_RESERVE_AVG]) :
      b.rd f = s.rd f :=
    (hadd.rd f h2 0 (by decide) 0 (by decide)).trans (hset.rd f h1 0 (by decide) 0 (by decide))
  have hbs : RoutesOk b := ⟨by rw [hb (by decide) (by decide)]; exact hs.power, by rw [hb (by decide) (by decide)]; exact hs.thermal⟩
  obtain ⟨hpowered, hpowerCap⟩ := capSet_powerLimit hbs (by rw [hb (by decide) (by decide)]; exact hcap) s.pwr.reserve
  obtain ⟨hrisen, hcurrentCap⟩ := capSet_currentRise hpowered.routes low
  have hcooled := limited_thermalLimit hrisen.routes temp
  have hcold : b.rd .PWR_LIMIT_THERMAL = s.rd .PWR_LIMIT_THERMAL := hb (by decide) (by decide)
  have hthermal : s2.rd .PWR_LIMIT_THERMAL = s.rd .PWR_LIMIT_THERMAL := by
    rw [hrisen.fields.rd _ (by decide) _ (by decide) _ (by decide), hpowered.fields.rd _ (by decide) _ (by decide) _ (by decide),
      hcold]
  have htop : s2.thermTop = s.thermTop := (hpowered.only.trans hrisen.only).thermTop
  have hall {f : Field} (h1 : f ∉ Field.PWR_LIMIT_POWER :: limitFields) (h2 : f ∉ Field.PWR_LIMIT_CURRENT :: limitFields)
      (h3 : f ∉ Field.PWR_LIMIT_THERMAL :: limitFields) : (s2.thermalLimit temp).rd f = b.rd f := by
    rw [hcooled.fields.rd f h3 _ (by decide) _ (by decide), hrisen.fields.rd f h2 _ (by decide) _ (by decide),
      hpowered.fields.rd f h1 _ (by decide) _ (by decide)]
  refine ⟨s2.thermalLimit temp, congrArg Host.Outcome.next (if_pos hpow), ?_, ?_, ?_, ?_, ?_, ?_, fun hhot hpos => ?_,
    fun hwarm hlt => ?_⟩
  · rw [hall (by decide) (by decide) (by decide), hadd.rd _ (by decide) _ (by decide) _ (by decide)]
    refine (State.rd_wr_field _ (by decide) (by decide) (by decide) (by decide) (by decide)).trans ((State.rd_wr_same ..).trans ?_)
    exact Nat.mod_eq_of_lt (wrapN_lt ..)
  · rw [hall (by decide) (by decide) (by decide), hadd.rd _ (by decide) _ (by decide) _ (by decide)]
    exact (State.rd_wr_same ..).trans (Nat.mod_eq_of_lt sensor.isLt)
  · exact ((hpowered.only.trans hrisen.only).trans hcooled.only).bins
  · refine ((hpowered.only.trans hrisen.only).trans hcooled.only).reserve.trans ?_
    have hclass : s0.classPower = s.classPower := by
      unfold State.classPower State.classNow
      rw [hset.rd .PWR_CLASS_CLASS (by decide) 0 (by decide) 0 (by decide),
        hset.rd .PWR_STATUS_TRIPPED (by decide) 0 (by decide) 0 (by decide)]
    rw [← hclass]
    rfl
  · rw [hcooled.fields.rd _ (by decide) _ (by decide) _ (by decide), hrisen.fields.rd _ (by decide) _ (by decide) _ (by decide),
      hpowerCap, hb (by decide) (by decide)]
  · rw [hcooled.fields.rd _ (by decide) _ (by decide) _ (by decide), hcurrentCap,
      hpowered.fields.rd _ (by decide) _ (by decide) _ (by decide), hb (by decide) (by decide)]
  · rw [State.rd_thermalLimit_hot hrisen.routes hhot (by rw [hthermal]; exact hpos), hthermal, htop]
  · rw [State.rd_thermalLimit_warm hrisen.routes hlt hwarm, hthermal, htop]

/-- A current trip sets the current cap below the effective point (R460). -/
theorem State.currentTrip_spec (s : State) (hpow : s.powered = true) (hs : RoutesOk s) :
    ∃ u : State, exec .currentTrip s = .next u ∧
      u.rd .PWR_LIMIT_CURRENT = min (s.railFop 0) (s.rd .PWR_STATUS_ARR) - 1 ∧
      u.rd .PWR_LIMIT_TRIPS = min (2 ^ Field.width .PWR_LIMIT_TRIPS - 1) (s.rd .PWR_LIMIT_TRIPS + 1) ∧
      (s.live = true → s.pwr.curSince = 10 →
        kindBit (u.rd .EVQ_PEND_PEND (s.rd .EVQ_ROUTE_POWER)) 0x13 = true ∧ u.pwr.curSince = 0) := by
  refine ⟨s.currentTrip, congrArg Host.Outcome.next (if_pos hpow), ?_⟩
  unfold State.currentTrip
  extract_lets v s1
  have hcount : FieldsKept [.PWR_LIMIT_TRIPS] s (s.count .PWR_LIMIT_TRIPS) :=
    (FieldsKept.refl ..).wr (by decide) (by decide) (by decide)
  have hcs : RoutesOk (s.count .PWR_LIMIT_TRIPS) :=
    ⟨by rw [hcount.rd _ (by decide) _ (by decide) _ (by decide)]; exact hs.power,
      by rw [hcount.rd _ (by decide) _ (by decide) _ (by decide)]; exact hs.thermal⟩
  have hv : v < 16 := by
    have hle : s.railFop 0 ≤ 4 := Nat.min_le_right ..
    omega
  have hset : CapSet .PWR_LIMIT_CURRENT v (s.count .PWR_LIMIT_TRIPS) s1 := (capSet_wr hcs (by decide) hv).repoint (by decide)
  clear_value s1
  have htrips : s1.rd .PWR_LIMIT_TRIPS = min (2 ^ Field.width .PWR_LIMIT_TRIPS - 1) (s.rd .PWR_LIMIT_TRIPS + 1) :=
    (hset.1.fields.rd _ (by decide) _ (by decide) _ (by decide)).trans (State.rd_count_same ..)
  have hkept {f : Field} (h1 : f ≠ .PWR_LIMIT_TRIPS) (h2 : f ∉ Field.PWR_LIMIT_CURRENT :: limitFields) : s1.rd f = s.rd f :=
    (hset.1.fields.rd f h2 _ (by decide) _ (by decide)).trans
      (hcount.rd f (by simpa using h1) _ (by decide) _ (by decide))
  split_ifs with hten
  · let s2 : State := { s1 with pwr := { s1.pwr with curSince := 0 } }
    have hquiet : CapSet .PWR_LIMIT_CURRENT v (s.count .PWR_LIMIT_TRIPS) s2 := hset.pwr rfl rfl
    have hlive (h : s.live = true) : s1.live = true :=
      (hset.1.only.live (hkept (f := .DBG_FREEZE_STATUS_STATE) (by decide) (by decide)) rfl).trans h
    have hroute : s1.rd .EVQ_ROUTE_POWER = s.rd .EVQ_ROUTE_POWER := hkept (by decide) (by decide)
    have hrec := fieldsKept_powerRecord hquiet.1.routes (src := .power) (.inl rfl) (stPwr 8 v)
    refine ⟨?_, ?_, fun h _ => ⟨State.kindBit_powerRecord (s := s2) (hlive h) hquiet.1.routes hroute _, ?_⟩⟩
    · exact (hrec.rd _ (by decide) _ (by decide) _ (by decide)).trans hquiet.2
    · exact (hrec.rd _ (by decide) _ (by decide) _ (by decide)).trans htrips
    · rw [State.powerRecord_pwr]
  · exact ⟨hset.2, htrips, fun _ h => absurd h hten⟩

/-- An hour at point 4 is counted, and the last blows the fuse (R463). -/
theorem State.wearHour_spec (s : State) (hlive : s.live = true) (hboot : s.mgc.booted = true)
    (hpoint : s.rd .PWR_STATUS_ARR = 4) :
    ∃ u : State, exec .wearHour s = .next u ∧ u.rd .PWR_WEAR_SECONDS = min 72000000 (s.rd .PWR_WEAR_SECONDS + 3600) ∧
      u.mgc.fuses = (if 72000000 ≤ s.rd .PWR_WEAR_SECONDS + 3600 then { s.mgc.fuses with peakWorn := true }
        else s.mgc.fuses) ∧
      (72000000 ≤ s.rd .PWR_WEAR_SECONDS + 3600 → u.rd .PWR_STATUS_WORN = 1) := by
  generalize hw : min 72000000 (s.rd .PWR_WEAR_SECONDS + 3600) = w
  let s1 := s.wr .PWR_WEAR_SECONDS w
  let k := s1.saveSettings w s.settingsCore.2
  obtain ⟨free, settings, log, migDone, hsaved⟩ := s1.saveSettings_eq w s.settingsCore.2
  have hregs : k.regs = s1.regs := by rw [show k = _ from hsaved]
  have hfuses : k.mgc.fuses = s.mgc.fuses := by rw [show k = _ from hsaved]; rfl
  have hseconds : k.rd .PWR_WEAR_SECONDS = w := by
    refine (State.rd_congr hregs _ _ _).trans ((State.rd_wr_same ..).trans (Nat.mod_eq_of_lt ?_))
    change w < 2 ^ 32
    omega
  have hexec : exec .wearHour s = .next s.wearHour := congrArg Host.Outcome.next (if_pos (by simp [hlive, hboot, hpoint]))
  have hhour : s.wearHour = if w = 72000000 then
      (({ k with mgc := { k.mgc with fuses := { k.mgc.fuses with peakWorn := true } } }).wr .PWR_STATUS_WORN 1).repoint
      else k := by
    unfold State.wearHour
    rw [hw]
  refine ⟨s.wearHour, hexec, ?_⟩
  by_cases hworn : 72000000 ≤ s.rd .PWR_WEAR_SECONDS + 3600
  · rw [hhour, if_pos (by omega), if_pos hworn]
    have hk := fieldsKept_repoint
      (({ k with mgc := { k.mgc with fuses := { k.mgc.fuses with peakWorn := true } } } : State).wr .PWR_STATUS_WORN 1)
    refine ⟨?_, ?_, fun _ => ?_⟩
    · rw [hk.rd _ (by decide) _ (by decide) _ (by decide), State.rd_wr_field _ (by decide) (by decide) (by decide) (by decide)
        (by decide)]
      exact hseconds
    · rw [(onlyPoints_repoint _).mgc, ← hfuses]
      rfl
    · rw [hk.rd _ (by decide) _ (by decide) _ (by decide)]
      exact State.rd_wr_same ..
  · rw [hhour, if_neg (by omega), if_neg hworn]
    exact ⟨hseconds, hfuses, fun h => absurd h hworn⟩

end

end Sys2Proof.Machine

namespace Sys2Proof.Claims
open Sys2Proof Sys2Proof.Machine

theorem limitsAct : LimitsAct := by
  intro s power temp sensor low hpow hroute1 hroute2 hcap
  have hs : RoutesOk s := ⟨by omega, by omega⟩
  refine ⟨?bin, ?trip, fun hcool => ?cool, fun hhot hreset hpend hwear hcount => ?thermal, fun hlive hboot hpoint => ?hour,
    ?hot, ?brake⟩
  case bin => exact s.limiterBin_spec power temp sensor low hpow hs hcap
  case trip => exact s.currentTrip_spec hpow hs
  case cool => exact congrArg Host.Outcome.next (if_neg (by simp; omega))
  case thermal =>
    have hdown : DeviceResetTo s (s.deviceDown 0x1F060000) 0x1F060000 := deviceResetTo_deviceDown (by decide) hpend hwear hcount
    have hexec : exec (.thermalTrip temp sensor) s = .next (s.thermalTrip sensor) :=
      congrArg Host.Outcome.next (if_pos (by simp [hpow, hhot]))
    have heq : s.deviceReset (stDevice 6 0) = s.deviceDown 0x1F060000 := State.deviceReset_of_up hreset _
    refine ⟨s.thermalTrip sensor, hexec, ?_, ?_, rfl, rfl⟩
    · unfold State.thermalTrip
      dsimp only
      rw [heq]
      exact deviceResetTo_tripped hdown _ _
    · exact State.rd_wr_same (s.deviceReset (stDevice 6 0)) .PWR_STATUS_TRIPPED 1 0 0
  case hour => exact s.wearHour_spec hlive hboot hpoint
  case hot =>
    let t := s.setPin 7 low
    obtain ⟨hheld, hvalue⟩ := capSet_hold (s := t) ⟨hs.power, hs.thermal⟩
    have hpin : bitAt t.pins.gpioIn 7 = !low := State.bitAt_setPin ..
    refine ⟨t.thermHold, congrArg Host.Outcome.next (if_pos hpow), hheld.only.gpioIn ▸ hpin, ?_, fun hlow hon => ?_, hheld.only.hb⟩
    · rw [hheld.only.thermTop]
      exact hvalue
    · subst hlow
      have htop : t.thermTop ≤ 2 := by
        have hon' : t.featureOn 0x07 = true := hon
        unfold State.thermTop
        rw [hpin, hon']
        split_ifs <;> simp_all
      exact hvalue.trans_le (by omega)
  case brake =>
    let t := s.setPin 8 low
    obtain ⟨hheld, hvalue⟩ := capSet_hold (s := t) ⟨hs.power, hs.thermal⟩
    have hpin : bitAt t.pins.gpioIn 8 = !low := State.bitAt_setPin ..
    refine ⟨t.thermHold, congrArg Host.Outcome.next (if_pos hpow), hheld.only.gpioIn ▸ hpin, ?_, fun hlow hon => ?_, hheld.only.hb⟩
    · rw [hheld.only.thermTop]
      exact hvalue
    · subst hlow
      have htop : t.thermTop = 0 := by
        have hon' : t.featureOn 0x06 = true := hon
        unfold State.thermTop
        rw [hpin, hon']
        rfl
      rw [hvalue, htop, Nat.min_zero]

/-- Settles O55: a rail's request by its point, and a limiter's step by the cap it sets. -/
theorem pointsAndLimitsAct : Obligations.PointsAndLimitsAct := ⟨operatingPoints, limitsAct⟩

end Sys2Proof.Claims
end

