-- ==== Sys2Proof/Proofs/PowerDomains.lean ====
section
/-!
PROOF. The power domains (R446 to R453): requests, and the ends of their transitions.
-/

namespace Sys2Proof.Machine
open Sys2Proof.Claims

section
variable {s t u : State} {d : Nat}

/-! ### The registers of a domain -/

/-- The state registers of the domains lie in no domain. -/
theorem inDomain_of_domState {f : Field} {i : Nat} (hf : f.spec.reg = .PWR_DOM_STATE)
    (hall : Field.all.getD f.ctorIdx .GLB_ZT2_COUNT = f) (hi : i < 65536) : inDomain d (f.key i 0) = false := by
  have hkey : f.key i 0 / 2 ^ 32 = f.ctorIdx := by
    unfold Field.key
    omega
  have hnot : (domRegs d).contains Reg.PWR_DOM_STATE = false := by
    unfold domRegs
    split_ifs <;> decide
  unfold inDomain
  dsimp only
  rw [hkey, hall, hf, hnot, Bool.false_and]

theorem inDomain_state {i : Nat} (hi : i < 65536) : inDomain d (Field.key .PWR_DOM_STATE_STATE i 0) = false :=
  inDomain_of_domState rfl (by decide +kernel) hi

theorem inDomain_entries {i : Nat} (hi : i < 65536) : inDomain d (Field.key .PWR_DOM_STATE_ENTRIES i 0) = false :=
  inDomain_of_domState rfl (by decide +kernel) hi

theorem storeGet_filter {α : Type} (dflt : α) (p : Nat → Bool) (l : List (Nat × α)) (k : Nat) :
    storeGet dflt (l.filter (fun e => p e.1)) k = if p k then storeGet dflt l k else dflt := by
  induction l with
  | nil => simp [storeGet]
  | cons e l ih =>
    obtain ⟨k', v⟩ := e
    by_cases hp : p k'
    · rw [List.filter_cons_of_pos (by exact hp), storeGet, storeGet, ih]
      split_ifs <;> simp_all
    · rw [List.filter_cons_of_neg (by exact hp), storeGet, ih]
      split_ifs <;> simp_all

/-- A field outside the domain keeps its value when the domain's registers are saved. -/
theorem State.rd_domSave (s : State) (d target : Nat) (f : Field) (i j : Nat) :
    (s.domSave d target).rd f i j = if inDomain d (f.key i j) then f.spec.reset else s.rd f i j := by
  have hregs : (s.domSave d target).regs = s.regs.filter (fun e => !inDomain d e.1) := by
    unfold State.domSave State.domLost
    dsimp only
    split_ifs <;> rfl
  unfold State.rd
  rw [hregs, storeGet_filter (p := fun k => !inDomain d k)]
  cases inDomain d (f.key i j) <;> rfl

theorem State.domLost_frame (s : State) (d : Nat) :
    s.domLost d = { s with codec := (s.domLost d).codec, cal := (s.domLost d).cal } := by
  unfold State.domLost
  split_ifs <;> rfl

/-! ### Requests (R450, R453) -/

theorem State.domRefuser_le {r : Nat} (h : s.domRefuser d = some r) : r ≤ 3 := by
  unfold State.domRefuser at h
  split_ifs at h <;> simp_all <;> omega

/-- Writing a domain's request does not change who refuses it. -/
theorem State.domRefuser_target (s : State) (d v : Nat) (hd : d < 65536) :
    (s.wr .PWR_DOM_CTRL_TARGET v d).domRefuser d = s.domRefuser d := by
  have hrd {f : Field} {i : Nat} (hi : i < 65536) (hf : f ≠ .PWR_DOM_CTRL_TARGET) :
      (s.wr .PWR_DOM_CTRL_TARGET v d).rd f i = s.rd f i := State.rd_wr_field _ hd (by decide) hi (by decide) hf
  have hacts : (s.wr .PWR_DOM_CTRL_TARGET v d).acts = s.acts := by
    unfold State.acts
    simp [List.filter, hrd (f := .FLT_PORT_STATE) (i := 0) (by decide) (by decide),
      hrd (f := .FLT_PORT_STATE) (i := 1) (by decide) (by decide)]
  have hbusy : (s.wr .PWR_DOM_CTRL_TARGET v d).domBusy d = s.domBusy d := by
    unfold State.domBusy State.funcState
    simp only [List.any_cons, List.any_nil, hrd (f := .GLB_FUNC_STATE_STATE) (i := 32) (by decide) (by decide),
      hrd (f := .GLB_FUNC_STATE_STATE) (i := 33) (by decide) (by decide),
      hrd (f := .FLT_CTRL_WITHDRAW) (i := 0) (by decide) (by decide)]
    rfl
  unfold State.domRefuser State.meets State.domState
  rw [hacts, hbusy, hrd (by decide) (by decide), hrd hd (by decide)]

/-- A domain in retention or off starts its exit. -/
theorem State.domWake_of_asleep (hassigned : s.domAssigned d = true) (hst : s.domState d = 2 ∨ s.domState d = 3) :
    s.domWake d = ({ s with pwr := { s.pwr with doms := storePut d ⟨true, s.domState d⟩ s.pwr.doms } } : State).wr
      .PWR_DOM_STATE_STATE 4 d := by
  have h1 : s.domState d ≠ 1 := by omega
  unfold State.domWake
  dsimp only
  rw [if_neg (by simp [hassigned]; omega), if_neg h1, if_neg h1]

/-- A domain that enters RET or OFF turns back: the entry is aborted (R452). -/
theorem State.domWake_of_entering (hassigned : s.domAssigned d = true) (hst : s.domState d = 1) :
    s.domWake d = ({ s.domAbort d with pwr := { (s.domAbort d).pwr with
      doms := storePut d ⟨true, 0⟩ (s.domAbort d).pwr.doms } } : State).wr .PWR_DOM_STATE_STATE 4 d := by
  unfold State.domWake
  dsimp only
  rw [if_neg (by simp [hassigned]; omega), if_pos hst, if_pos hst]

theorem State.domDown_of_on {target : Nat} (hon : s.domState d = 0) (htarget : target = 2 ∨ target = 3)
    (hnone : s.domRefuser d = none) : s.domDown d target = .inl ((s.domEnter d target).domResult d stOk) := by
  unfold State.domDown
  dsimp only
  rw [if_neg (by omega), if_neg (by omega), if_neg (by omega), hnone]

theorem State.domDown_of_refused {target r : Nat} (hon : s.domState d = 0) (htarget : target = 2 ∨ target = 3)
    (hr : s.domRefuser d = some r) : s.domDown d target = .inr r := by
  unfold State.domDown
  dsimp only
  rw [if_neg (by omega), if_neg (by omega), if_neg (by omega), hr]

/-- A domain whose entry has started. -/
theorem State.domEnter_spec (s : State) (hd : d < 65536) (target : Nat) :
    let u := (s.domEnter d target).domResult d stOk
    u.domState d = 1 ∧ u.rd .PWR_DOM_RESULT_STATUS d = 0 ∧ storeFind u.pwr.doms d = some ⟨false, target⟩ ∧
    u.mem = s.mem ∧ u.vats = s.vats ∧
    FieldsKept [.PWR_DOM_STATE_STATE, .PWR_DOM_RESULT_STATUS] s u := by
  have hstate : FieldsKept [.PWR_DOM_STATE_STATE, .PWR_DOM_RESULT_STATUS] s (s.domEnter d target) :=
    FieldsKept.wr (f := .PWR_DOM_STATE_STATE) (i := d) (j := 0) (fieldsKept_of_regs rfl) (by decide) hd (by decide)
  refine ⟨?_, State.rd_wr_same .., by simp [State.domResult, State.domEnter, storeFind_put], rfl, rfl,
    hstate.wr (f := .PWR_DOM_RESULT_STATUS) (i := d) (j := 0) (by decide) hd (by decide)⟩
  exact (State.rd_wr_field _ hd (by decide) hd (by decide) (by decide)).trans (State.rd_wr_same ..)

theorem stPwr_lt (reason detail : Nat) : stPwr reason detail < 2 ^ Field.PWR_DOM_RESULT_STATUS.width := by
  change _ < 2 ^ 32
  simp only [stPwr, statusWord]
  omega

theorem State.rd_domResult (s : State) (d reason detail : Nat) :
    (s.domResult d (stPwr reason detail)).rd .PWR_DOM_RESULT_STATUS d = stPwr reason detail :=
  (State.rd_wr_same ..).trans (Nat.mod_eq_of_lt (stPwr_lt ..))

/-! ### The ends of transitions (R451, R452) -/

/-- Without maintenance work the sequencer has nothing to go on with. -/
theorem State.maintSettle_of_idle (h : s.maint = {}) : s.maintSettle = s := by
  have hstart : s.startWaiting 1 = s := by
    unfold State.startWaiting
    rw [h]
    rfl
  unfold State.maintSettle
  rw [h]
  change (s.startWaiting 1).resumePaused = s
  rw [hstart]
  unfold State.resumePaused
  rw [h]
  change { s with maint := {} } = s
  rw [← h]

theorem State.maintDomain_of_idle (h : s.maint = {}) (d : Nat) : s.maintDomain d = s := by
  unfold State.maintDomain
  split_ifs
  · exact State.maintSettle_of_idle h
  · have hgone : s.maint.waiting.filter (fun a => (a.act = 2 || a.act = 4 || a.act = 5) && a.domains.contains d) = [] := by
      rw [h]
      rfl
    dsimp only
    rw [hgone]
    have hsame : ({ s with maint := { s.maint with waiting := s.maint.waiting.filter (fun a => !([] : List Act).contains a) } } : State) = s := by
      rw [h]
      change { s with maint := {} } = s
      rw [← h]
    rw [List.foldl_nil, hsame]
    exact State.maintSettle_of_idle h

/-- What the write-back of a sector changes beside DRAM, while the controllers are on. -/
structure CommitKept (s t : State) : Prop where
  fields : FieldsKept useFields s t
  pwr : t.pwr = s.pwr
  maint : t.maint = s.maint

theorem CommitKept.refl (s : State) : CommitKept s s := ⟨.refl .., rfl, rfl⟩

theorem CommitKept.trans (h : CommitKept s t) (i : CommitKept t u) : CommitKept s u :=
  ⟨h.fields.trans i.fields, i.pwr.trans h.pwr, i.maint.trans h.maint⟩

theorem commitKept_l2WriteBack (hon : ∀ c < 12, s.domState (domMc c) = 0) (sec : Nat) (x : Sector) :
    CommitKept s (s.l2WriteBack sec x) := by
  unfold State.l2WriteBack
  dsimp only
  split_ifs
  · rw [State.wakeCtrl, State.wakeNow_of_on (hon _ (ctrlOf_lt _))]
    have hwrite : FieldsKept useFields s (s.writeSector (32 * sec) x.bytes) := fieldsKept_of_regs (State.regs_writeSector ..)
    refine ⟨hwrite.trans (fieldsKept_useDram (by decide)), ?_, ?_⟩ <;> rw [State.useDram_frame, State.writeSector_frame]
  · exact .refl s

theorem CommitKept.domMc (h : CommitKept s t) (hon : ∀ c < 12, s.domState (domMc c) = 0) :
    ∀ c < 12, t.domState (domMc c) = 0 := fun c hc =>
  (h.fields.rd .PWR_DOM_STATE_STATE (by decide) _ (by unfold Machine.domMc; omega) _ (by decide)).trans (hon c hc)

theorem commitKept_flushSlice (hon : ∀ c < 12, s.domState (domMc c) = 0) (slice : Nat) : CommitKept s (s.flushSlice slice) := by
  have hfold : ∀ (l : List (Nat × Sector)) (s : State), (∀ c < 12, s.domState (domMc c) = 0) →
      CommitKept s (l.foldl (fun (s : State) e => s.l2WriteBack e.1 e.2) s) := by
    intro l
    induction l with
    | nil => exact fun s _ => .refl s
    | cons e l ih =>
      intro s hs
      have h := commitKept_l2WriteBack hs e.1 e.2
      exact h.trans (ih _ (h.domMc hs))
  unfold State.flushSlice
  dsimp only
  have h := hfold (s.mem.l2.filter (fun e => decide (sliceOf (32 * e.1) = slice))) s hon
  exact ⟨.of_regs (t := List.foldl _ s _) rfl h.fields, h.pwr, h.maint⟩

/-- The state of an entry once its data is written back and its registers are saved or dropped. -/
def State.entrySaved (s : State) (d target : Nat) : State :=
  ((if 64 ≤ d && d < 80 then s.flushSlice (d - 64) else s).domDrained d).domSave d target

theorem State.domDrained_frame (s : State) (d : Nat) : s.domDrained d = { s with vats := (s.domDrained d).vats } := by
  unfold State.domDrained
  split_ifs <;> rfl

/-- What saving a domain's registers changes beside them. -/
theorem State.domSave_frame (s : State) (d target : Nat) : s.domSave d target =
    { s with
      regs := (s.domSave d target).regs, codec := (s.domSave d target).codec, cal := (s.domSave d target).cal
      pwr := { s.pwr with ret := (s.domSave d target).pwr.ret } } := by
  unfold State.domSave
  dsimp only
  split_ifs
  · rfl
  · rw [State.domLost_frame]

theorem State.entryDone_eq {target : Nat} (h : storeFind s.pwr.doms d = some ⟨false, target⟩) :
    let t := s.entrySaved d target
    s.entryDone d = ((({ t with pwr := { t.pwr with doms := storeErase t.pwr.doms d } } : State).wr
      .PWR_DOM_STATE_STATE target d).count .PWR_DOM_STATE_ENTRIES 1 d).maintDomain d := by
  unfold State.entryDone
  rw [h]
  rfl

/-- The slice's data is written back, or nothing is. -/
theorem commitKept_commit (hon : (∀ c < 12, s.domState (domMc c) = 0) ∨ d < 64 ∨ 80 ≤ d) :
    CommitKept s (if 64 ≤ d && d < 80 then s.flushSlice (d - 64) else s) := by
  split_ifs with h
  · simp only [Bool.and_eq_true, decide_eq_true_eq] at h
    obtain hon | hlo | hhi := hon
    · exact commitKept_flushSlice hon _
    · omega
    · omega
  · exact .refl s

/-- The end of an entry. -/
theorem State.entryDone_spec {target : Nat} (hd : d < 101) (h : storeFind s.pwr.doms d = some ⟨false, target⟩)
    (htarget : target = 2 ∨ target = 3) (hmaint : s.maint = {})
    (hon : (∀ c < 12, s.domState (domMc c) = 0) ∨ d < 64 ∨ 80 ≤ d) :
    let u := s.entryDone d
    u.domState d = target ∧ storeFind u.pwr.doms d = none ∧
    u.rd .PWR_DOM_STATE_ENTRIES d = min 65535 (s.rd .PWR_DOM_STATE_ENTRIES d + 1) ∧
    (∀ (f : Field) (i j : Nat), inDomain d (f.key i j) = true → u.rd f i j = f.spec.reset) ∧
    (target = 2 → ∃ l, storeFind u.pwr.ret d = some l) ∧
    (d < 64 → (u.vat d).rc = [] ∧ (u.vat d).l1 = []) ∧
    (64 ≤ d → d < 80 → ∀ e ∈ u.mem.l2, sliceOf (32 * e.1) ≠ d - 64) := by
  let c := if 64 ≤ d && d < 80 then s.flushSlice (d - 64) else s
  let t := s.entrySaved d target
  let v := (({ t with pwr := { t.pwr with doms := storeErase t.pwr.doms d } } : State).wr
      .PWR_DOM_STATE_STATE target d).count .PWR_DOM_STATE_ENTRIES 1 d
  have hd' : d < 65536 := by omega
  have hcommit : CommitKept s c := commitKept_commit hon
  have hsaved : t = (c.domDrained d).domSave d target := rfl
  have hkept (f : Field) (i j : Nat) : t.rd f i j = if inDomain d (f.key i j) then f.spec.reset else c.rd f i j := by
    rw [hsaved, State.rd_domSave, State.domDrained_frame, State.rd_mk]
  have hmaint' : v.maint = {} := by
    have : t.maint = c.maint := by rw [hsaved, State.domSave_frame, State.domDrained_frame]
    exact (this.trans hcommit.maint).trans hmaint
  have hentries : t.rd .PWR_DOM_STATE_ENTRIES d = s.rd .PWR_DOM_STATE_ENTRIES d := by
    rw [hkept, inDomain_entries hd', if_neg (by decide)]
    exact hcommit.fields.rd _ (by decide) _ hd' _ (by decide)
  have heq : s.entryDone d = v := (State.entryDone_eq h).trans (State.maintDomain_of_idle hmaint' d)
  intro u
  have hu : u = v := heq
  clear_value u
  subst hu
  refine ⟨?_, by simp [v, storeFind_erase], ?_, fun f i j hf => ?_, fun h2 => ?_, fun hlt => ?_, fun hlo hhi e he => ?_⟩
  · refine (State.rd_wr_field _ hd' (by decide) hd' (by decide) (by decide)).trans ((State.rd_wr_same ..).trans ?_)
    exact Nat.mod_eq_of_lt (by change target < 8; omega)
  · refine (State.rd_count_same ..).trans ?_
    rw [State.rd_wr_field _ hd' (by decide) hd' (by decide) (by decide), State.rd_mk]
    exact congrArg (min 65535 <| · + 1) hentries
  · have hne {g : Field} (hg : inDomain d (g.key d 0) = false) : f.key i j ≠ g.key d 0 := fun e => by
      rw [e, hg] at hf
      exact absurd hf (by decide)
    refine (State.rd_wr_ne _ (hne (inDomain_entries hd'))).trans ((State.rd_wr_ne _ (hne (inDomain_state hd'))).trans ?_)
    exact (hkept f i j).trans (if_pos hf)
  · subst h2
    refine ⟨c.regs.filter (fun e => inDomain d e.1), ?_⟩
    change storeFind t.pwr.ret d = _
    rw [hsaved, State.domDrained_frame]
    exact (storeFind_put ..).trans (if_pos rfl)
  · have hvats : v.vats = (c.domDrained d).vats := by
      change t.vats = _
      rw [hsaved, State.domSave_frame]
    rw [State.vat_congr hvats, State.domDrained, if_pos hlt, State.vat_setVat_same]
    exact ⟨rfl, rfl⟩
  · have hmem : v.mem = c.mem := by
      change t.mem = _
      rw [hsaved, State.domSave_frame, State.domDrained_frame]
    rw [hmem, show c = s.flushSlice (d - 64) from if_pos (by simp [hlo, hhi])] at he
    simpa using (List.mem_filter.mp he).2

/-- A domain's exit without saved registers, and one that has kept a register. -/
theorem State.exitDone_eq {x : Nat} (h : storeFind s.pwr.doms d = some ⟨true, x⟩) (hmaint : s.maint = {}) :
    s.exitDone d = s.domOn d := by
  have hrest : (s.domOn d).maint = {} := by
    have : (s.domRestore d).maint = s.maint := by
      unfold State.domRestore
      split <;> rfl
    exact this.trans hmaint
  unfold State.exitDone
  rw [h]
  exact State.maintDomain_of_idle hrest d

end

end Sys2Proof.Machine

namespace Sys2Proof.Claims
open Sys2Proof Sys2Proof.Machine

theorem domainRequests : DomainRequests := by
  intro s who dom hask
  have hd : dom.val < 65536 := by omega
  have hret : exec (.targetRet who dom) s = .next ((s.wr .PWR_DOM_CTRL_TARGET 1 dom).domAsk dom 2) :=
    congrArg Host.Outcome.next (if_pos hask)
  have hoff : exec (.targetOff who dom) s = .next ((s.wr .PWR_DOM_CTRL_TARGET 2 dom).domAsk dom 3) :=
    congrArg Host.Outcome.next (if_pos hask)
  have hresult (v st : Nat) : OnlyRegs s ((s.wr .PWR_DOM_CTRL_TARGET v dom).domResult dom st)
      [(.PWR_DOM_CTRL_TARGET, dom, 0), (.PWR_DOM_RESULT_STATUS, dom, 0)] :=
    onlyRegs_trans (onlyRegs_wr s _ _ hd (by decide)) (onlyRegs_wr _ _ _ hd (by decide))
  have hother {f : Field} (v : Nat) (hf : f ≠ .PWR_DOM_CTRL_TARGET) : (s.wr .PWR_DOM_CTRL_TARGET v dom).rd f dom = s.rd f dom :=
    State.rd_wr_field _ hd (by decide) hd (by decide) hf
  have hentry (v target : Nat) (hlt : dom.val < 101) (hon : s.domState dom = 0) (hnone : s.domRefuser dom = none)
      (htarget : target = 2 ∨ target = 3) :
      let t := s.wr .PWR_DOM_CTRL_TARGET v dom
      let u := (t.domEnter dom target).domResult dom stOk
      t.domAsk dom target = u ∧ (v < 4 → u.domState dom = 1 ∧ u.rd .PWR_DOM_RESULT_STATUS dom = 0 ∧
        u.rd .PWR_DOM_CTRL_TARGET dom = v ∧ storeFind u.pwr.doms dom = some ⟨false, target⟩ ∧ u.mem = s.mem ∧ u.vats = s.vats) := by
    intro t u
    have hdown : t.domDown dom target = .inl u :=
      State.domDown_of_on ((hother v (by decide)).trans hon) htarget ((s.domRefuser_target dom v hd).trans hnone)
    obtain ⟨hstate, hresult, hdoms, hmem, hvats, hkept⟩ := t.domEnter_spec hd target
    refine ⟨by rw [State.domAsk, if_neg (by omega), hdown], fun hv => ⟨hstate, hresult, ?_, hdoms, hmem, hvats⟩⟩
    rw [hkept.rd _ (by decide) _ hd _ (by decide)]
    exact (State.rd_wr_same ..).trans (Nat.mod_eq_of_lt hv)
  refine ⟨fun hpll => ⟨?pllRet, ?pllOff⟩, fun hfree => ?free, fun st hassigned hst hsleep => ?exit,
    fun hlt hon hnone => ⟨?enterRet, ?enterOff⟩, fun r hlt hon hr => ?refused, fun hlt hasleep => ?drop⟩
  case pllRet =>
    rw [State.domAsk, if_pos hpll] at hret
    exact ⟨_, hret, State.rd_domResult .., hresult 1 _⟩
  case pllOff =>
    rw [State.domAsk, if_pos hpll] at hoff
    exact ⟨_, hoff, State.rd_domResult .., hresult 2 _⟩
  case free =>
    refine ⟨_, congrArg Host.Outcome.next ((if_pos hask).trans (if_neg ?_)), State.rd_domResult .., hresult 0 _⟩
    change ¬ s.domAssigned dom = true
    simp [hfree]
  case exit =>
    let t := s.wr .PWR_DOM_CTRL_TARGET 0 dom
    have hstate : t.domState dom = s.domState dom := hother 0 (by decide)
    have hwake := State.domWake_of_asleep (s := t) hassigned (by rw [hstate, hst]; exact hsleep)
    rw [hstate, hst] at hwake
    refine ⟨(t.domWake dom).domResult dom stOk, congrArg Host.Outcome.next ((if_pos hask).trans (if_pos hassigned)), ?_⟩
    rw [hwake]
    refine ⟨?_, State.rd_wr_same .., by simp [State.domResult, storeFind_put], ?_, rfl⟩
    · refine (State.rd_wr_field _ hd (by decide) hd (by decide) (by decide)).trans ((State.rd_wr_same ..).trans ?_)
      rfl
    · refine (regsKept_wr (by simp) hd (by decide)).mpr ((regsKept_wr (by simp) hd (by decide)).mpr ?_)
      exact RegsKept.of_regs (t := t) rfl ((regsKept_wr (by simp) hd (by decide)).mpr (RegsKept.refl _ _))
  case enterRet =>
    exact ⟨_, hret.trans (congrArg Host.Outcome.next (hentry 1 2 hlt hon hnone (.inl rfl)).1), (hentry 1 2 hlt hon hnone (.inl rfl)).2 (by decide)⟩
  case enterOff =>
    exact ⟨_, hoff.trans (congrArg Host.Outcome.next (hentry 2 3 hlt hon hnone (.inr rfl)).1), (hentry 2 3 hlt hon hnone (.inr rfl)).2 (by decide)⟩
  case refused =>
    let t := s.wr .PWR_DOM_CTRL_TARGET 2 dom
    have hdown : t.domDown dom 3 = .inr r :=
      State.domDown_of_refused ((hother 2 (by decide)).trans hon) (.inr rfl) ((s.domRefuser_target dom 2 hd).trans hr)
    have hle := State.domRefuser_le hr
    rw [State.domAsk, if_neg (by omega), hdown] at hoff
    refine ⟨_, hoff, ?_, ?_, State.rd_domResult .., ?_, rfl⟩
    · refine (State.rd_wr_field _ hd (by decide) hd (by decide) (by decide)).trans ?_
      refine (State.rd_wr_field _ hd (by decide) hd (by decide) (by decide)).trans ?_
      exact (State.rd_wr_field _ hd (by decide) hd (by decide) (by decide)).trans ((hother 2 (by decide)).trans hon)
    · refine (State.rd_wr_field _ hd (by decide) hd (by decide) (by decide)).trans ((State.rd_wr_same ..).trans ?_)
      exact Nat.mod_eq_of_lt (hle.trans_lt (by decide))
    · refine (State.rd_wr_field _ hd (by decide) hd (by decide) (by decide)).trans ?_
      refine (State.rd_wr_field _ hd (by decide) hd (by decide) (by decide)).trans ?_
      rw [State.rd_count_same, hother 2 (by decide)]
      rfl
  case drop =>
    let t := s.wr .PWR_DOM_CTRL_TARGET 2 dom
    let l := t.domLost dom
    have hstate : t.domState dom = 2 := (hother 2 (by decide)).trans hasleep
    have hlost : l = { t with codec := l.codec, cal := l.cal } := t.domLost_frame dom
    have hdown : t.domDown dom 3 = .inl ((({ l with pwr := { t.pwr with ret := storeErase t.pwr.ret dom } } : State).wr
        .PWR_DOM_STATE_STATE 3 dom).domResult dom stOk) := by
      unfold State.domDown
      dsimp only
      rw [hstate]
      rfl
    rw [State.domAsk, if_neg (by omega), hdown] at hoff
    refine ⟨_, hoff, ?_, ?_, State.rd_wr_same .., ?_⟩
    · exact (State.rd_wr_field _ hd (by decide) hd (by decide) (by decide)).trans (State.rd_wr_same ..)
    · simp [State.domResult, storeFind_erase]
    · change l.mem = s.mem
      rw [hlost]
      rfl

theorem domainTransitionsEnd : DomainTransitionsEnd := by
  intro s dom hlive
  have hd : dom.val < 65536 := by omega
  refine ⟨fun hauto => ?auto, fun hauto htarget hlt hon => ⟨fun hnone => ?enter, fun r hr => ?silent⟩,
    fun t hrun ht hmaint hlt hctrl => ?done, fun hassigned => ⟨fun hon => ?awake, fun hasleep => ?asleep, fun hentering => ?abort⟩,
    fun x f i j v hrun hmaint hlt => ⟨fun hnone => ?off, fun hret hi hj hin => ?kept⟩⟩
  case auto => exact congrArg Host.Outcome.next ((if_pos hlive).trans (if_pos (by simp [hauto])))
  case enter =>
    obtain ⟨hstate, -, hdoms, hmem, -⟩ := s.domEnter_spec hd 2
    refine ⟨_, congrArg Host.Outcome.next ((if_pos hlive).trans ?_), hstate, hdoms, hmem⟩
    unfold State.idleExpiry
    dsimp only
    rw [htarget, if_neg (by simp [hauto]; omega), State.domDown_of_on hon (.inl rfl) hnone]
  case silent =>
    refine congrArg Host.Outcome.next ((if_pos hlive).trans ?_)
    unfold State.idleExpiry
    dsimp only
    rw [htarget, if_neg (by simp [hauto]; omega), State.domDown_of_refused hon (.inl rfl) hr]
  case done =>
    refine ⟨s.entryDone dom, congrArg Host.Outcome.next (if_pos hlive), State.entryDone_spec hlt hrun ht hmaint ?_⟩
    by_cases h : dom.val < 64 ∨ 80 ≤ dom.val
    · exact .inr h
    · exact .inl fun c hc => (hctrl ⟨c, hc⟩).resolve_right h
  case awake =>
    refine congrArg Host.Outcome.next ((if_pos hlive).trans ?_)
    unfold State.domWake
    exact if_pos (by simp [hon])
  case asleep =>
    refine ⟨_, congrArg Host.Outcome.next ((if_pos hlive).trans (State.domWake_of_asleep hassigned hasleep)), State.rd_wr_same ..,
      by simp [storeFind_put], ?_⟩
    exact (regsKept_wr (List.mem_singleton_self _) hd (by decide)).mpr (regsKept_of_regs rfl _)
  case abort =>
    refine ⟨_, congrArg Host.Outcome.next ((if_pos hlive).trans (State.domWake_of_entering hassigned hentering)),
      State.rd_wr_same .., by simp [storeFind_put], ?_, ?_, rfl⟩
    · refine (State.rd_wr_field _ hd (by decide) hd (by decide) (by decide)).trans ?_
      refine (State.rd_wr_field _ hd (by decide) hd (by decide) (by decide)).trans ?_
      exact (State.rd_wr_field _ hd (by decide) hd (by decide) (by decide)).trans (State.rd_count_same ..)
    · refine (State.rd_wr_field _ hd (by decide) hd (by decide) (by decide)).trans ((State.rd_wr_same ..).trans ?_)
      exact Nat.mod_eq_of_lt (stPwr_lt ..)
  case off =>
    have hrestore : s.domRestore dom = s := by
      unfold State.domRestore
      rw [hnone]
    have hexec : exec (.domainExitDone dom) s = .next (s.domOn dom) :=
      congrArg Host.Outcome.next ((if_pos hlive).trans (State.exitDone_eq hrun hmaint))
    unfold State.domOn at hexec
    rw [hrestore] at hexec
    refine ⟨_, hexec, State.rd_wr_same .., by simp [storeFind_erase], ?_, rfl⟩
    exact (regsKept_wr (List.mem_singleton_self _) hd (by decide)).mpr (regsKept_of_regs rfl _)
  case kept =>
    have hrestore : s.domRestore dom = { s with
        regs := storePut (f.key i j) v s.regs
        pwr := { s.pwr with ret := storeErase s.pwr.ret dom } } := by
      unfold State.domRestore
      rw [hret]
      rfl
    have hexec : exec (.domainExitDone dom) s = .next (s.domOn dom) :=
      congrArg Host.Outcome.next ((if_pos hlive).trans (State.exitDone_eq hrun hmaint))
    unfold State.domOn at hexec
    rw [hrestore] at hexec
    have hne : f.key i j ≠ Field.key .PWR_DOM_STATE_STATE dom 0 := fun e => by
      rw [e, inDomain_state hd] at hin
      exact absurd hin (by decide)
    refine ⟨_, hexec, State.rd_wr_same .., by simp [storeFind_erase], (State.rd_wr_ne _ hne).trans ?_⟩
    exact (storeGet_put ..).trans (if_pos rfl)

/-- Settles O54: requests by the domain's state, and the ends of its transitions. -/
theorem domainsTakePowerRequests : Obligations.DomainsTakePowerRequests := ⟨domainRequests, domainTransitionsEnd⟩

end Sys2Proof.Claims
end

