-- ==== Sys2Proof/Proofs/GatedLaunches.lean ====
section
/-!
PROOF. GATED_LAUNCH (R204 to R206): what the gate's scan leads to.
-/

namespace Sys2Proof.Machine
open Sys2Proof.Claims

section
variable {s s1 s2 s3 : State} {c : Cmd} {l : Launch} {sel : List Byte} {tiles : List (Nat × Nat)} {r : Option (List (Nat × Nat))}

/-- What a GATED_LAUNCH does with the result of its gate's scan. -/
def State.gatedScanned (s : State) (c : Cmd) (l : Launch) (sel : List Byte) : Option (List (Nat × Nat)) → State
  | none => s.refuseHand c 11
  | some tiles =>
    if (gatedLaunch l (leAt sel 9 1) tiles).total = 0 then s.handDone c.id stOk
    else s.startLaunch c (gatedLaunch l (leAt sel 9 1) tiles)

theorem State.gatedRead_of_scan (hsel : s.vRead (headboxAsker c.p) (.cmd c.id) c.p (c.dword 3) 32 = (s1, .ok sel))
    (hok : selectorOk sel = true) (hscan : s1.scanGate c sel = (s2, .ok r)) : s.gatedRead c l = s2.gatedScanned c l sel r := by
  obtain ⟨read, hdef⟩ : ∃ f, @State.vRead = f := ⟨_, rfl⟩
  obtain ⟨scan, hsdef⟩ : ∃ f, @State.scanGate = f := ⟨_, rfl⟩
  rw [hdef] at hsel
  rw [hsdef] at hscan
  conv in State.gatedRead => delta State.gatedRead
  rw [hdef, hsdef]
  split
  next e => exact absurd (e.symm.trans hsel) (by simp)
  next e =>
    cases e.symm.trans hsel
    rw [hok]
    dsimp only [Bool.not_true]
    rw [if_neg (by decide)]
    split
    next e => exact absurd (e.symm.trans hscan) (by simp)
    next e =>
      cases e.symm.trans hscan
      rfl
    next e =>
      cases e.symm.trans hscan
      rfl

/-- A GATED_LAUNCH that has been handed off leaves nothing else behind. -/
theorem State.gatedHand_of_ok {c' : Cmd} (hbefore : s.passesBefore c = false) (hread : s.named c = (s1, .ok l))
    (hc : (s1.gatedRead c l).cmd c.id = some c') (hphase : c'.phase ≠ .fetched) : s.gatedHand c = s1.gatedRead c l := by
  unfold State.named at hread
  obtain ⟨read, hdef⟩ : ∃ f, @State.readLaunch = f := ⟨_, rfl⟩
  obtain ⟨gated, hgdef⟩ : ∃ f, @State.gatedRead = f := ⟨_, rfl⟩
  rw [hdef] at hread
  rw [hgdef] at hc ⊢
  conv in State.gatedHand => delta State.gatedHand
  rw [hdef, hgdef]
  rw [if_neg (by simp [hbefore])]
  unfold State.takeId
  split
  next e =>
    obtain ⟨rfl, rfl⟩ := Prod.mk.inj e
    split
    next e1 => exact absurd (e1.symm.trans hread) (by simp)
    next e1 => exact absurd (e1.symm.trans hread) (by simp)
    next e1 =>
      cases e1.symm.trans hread
      extract_lets r
      rw [show r.cmd c.id = some c' from hc]
      exact if_neg hphase

theorem State.refuseHand_spec {c : Cmd} {reason : Nat} (hc : s.cmd c.id = some c) (hgeo : c.op ≠ 0x10) (hbal : engineOf c.op ≠ 3)
    (hnone : c.result = none) (hp : c.p < 32) :
    (s.refuseHand c reason).cmd c.id = some { c with phase := .handed, result := some (stRefused 1 reason) } ∧
      (s.refuseHand c reason).rd .GEO_REFUSE_VALID c.p = 1 := by
  obtain ⟨hcmd, -⟩ := State.handDone_spec (stRefused 1 reason) hc hgeo hbal hnone
  have hp' : c.p < 65536 := by omega
  have hrefuse : s.refuseHand c reason = (s.hand c.id).geoRefuse c.p c.op c.id reason := if_neg hgeo
  rw [hrefuse]
  unfold State.geoRefuse
  dsimp only
  split_ifs with hvalid
  · exact ⟨hcmd, hvalid⟩
  · refine ⟨hcmd, ?_⟩
    rw [State.rd_wr_field _ hp' (by decide) hp' (by decide) (by decide),
      State.rd_wr_field _ hp' (by decide) hp' (by decide) (by decide), State.rd_wr_same]
    rfl

end

end Sys2Proof.Machine

namespace Sys2Proof.Claims
open Sys2Proof Sys2Proof.Machine

/-- Settles O40: the three results of a gate's scan. -/
theorem gatedLaunchRunsTheSelectedTiles : Obligations.GatedLaunchRunsTheSelectedTiles := by
  intro s s1 s2 s3 p q c l sel tiles hhead hp hnode hbefore hread hsel hok hc
  have hop := atHead_op hhead
  have hgeo : c.op ≠ 0x10 := by rw [hop]; decide
  have hbal : engineOf c.op ≠ 3 := by rw [hop]; decide
  have hnone : c.result = none := hhead.2.2.2
  have hexec {u : State} {c' : Cmd} {r : Option (List (Nat × Nat))} (hscan : s2.scanGate c sel = (s3, .ok r))
      (hu : s3.gatedScanned c l sel r = u) (hcmd : u.cmd c.id = some c') (hphase : c'.phase ≠ .fetched) :
      exec (.gatedLaunch (.queue p q)) s = .next u := by
    have hr : s1.gatedRead c l = u := (State.gatedRead_of_scan hsel hok hscan).trans hu
    refine congrArg Host.Outcome.next ((atHead_run hhead State.gatedHand).trans ?_)
    rw [State.gatedHand_of_ok hbefore hread (hr ▸ hcmd) hphase, hr]
  refine ⟨fun hscan => ?refused, fun hscan => ?empty, fun hscan hmode hne hspan => ?launched⟩
  case refused =>
    obtain ⟨hcmd, hvalid⟩ := State.refuseHand_spec (reason := 11) hc hgeo hbal hnone hp
    exact ⟨_, hexec hscan rfl hcmd (by simp), hcmd, hvalid⟩
  case empty =>
    obtain ⟨hcmd, hframe⟩ := State.handDone_spec stOk hc hgeo hbal hnone
    have htotal : (gatedLaunch l (leAt sel 9 1) []).total = 0 := by
      unfold gatedLaunch
      dsimp only
      split_ifs <;> rfl
    refine ⟨_, hexec hscan (if_pos htotal) hcmd (by simp), hcmd, ?_, ?_⟩ <;> rw [hframe]
  case launched =>
    have hlaunch : gatedLaunch l (leAt sel 9 1) tiles =
        { l with gx := tiles.length, gy := 1, gz := 1, total := tiles.length, tiles := tiles } := by
      unfold gatedLaunch
      dsimp only
      rw [if_pos hmode, if_pos hmode]
    have htotal : (gatedLaunch l (leAt sel 9 1) tiles).total ≠ 0 := by
      rw [hlaunch]
      simpa using hne
    obtain ⟨hcmd, hl, hmem⟩ := State.startLaunch_spec (l := gatedLaunch l (leAt sel 9 1) tiles) hc hgeo hbal hnode hspan
    refine ⟨_, hexec hscan (if_neg htotal) hcmd (by simp), hcmd, ?_, hmem⟩
    rw [← hlaunch]
    exact hl

end Sys2Proof.Claims
end

