-- ==== Sys2Proof/Proofs/Maintenance.lean ====
section
/-!
PROOF. The maintenance sequencer (R358, R372 to R378): requests, starts and ends of its activities.
-/

namespace Sys2Proof.Machine

open Sys2Proof.Claims

section
variable {s t u : State}

/-! ### Stored bytes of one block (R352, R372) -/

theorem State.rawByte_setRaw (s : State) (pa q : Nat) (b : Byte) :
    (s.setRaw pa b).rawByte q = if s.storedAt q = s.storedAt pa then b else s.rawByte q := memByte_set ..

/-- Bytes of one 256-byte block are stored one after the other. -/
theorem State.storedAt_block (s : State) {pa q : Nat} (h : q / 256 = pa / 256) :
    s.storedAt q + pa % 256 = s.storedAt pa + q % 256 := by
  have hc : ctrlOf q = ctrlOf pa := by rw [ctrlOf, h, ctrlOf]
  have hb : blockOf q = blockOf pa := by rw [blockOf, h, blockOf]
  unfold State.storedAt
  rw [hc, hb]
  dsimp only
  split <;> omega

/-- Bytes written raw into one block read back. -/
theorem State.rawByte_setRaws {pa : Nat} {bs : List Byte} (hfit : pa % 256 + bs.length ≤ 256) {q : Nat} (hq : q / 256 = pa / 256) :
    (s.setRaws pa bs).rawByte q =
      if pa % 256 ≤ q % 256 ∧ q % 256 < pa % 256 + bs.length then bs.getD (q % 256 - pa % 256) 0 else s.rawByte q := by
  induction bs generalizing s pa with
  | nil => exact (if_neg (by simp)).symm
  | cons b bs ih =>
    rw [List.length_cons] at hfit ⊢
    have hhere : (s.setRaw pa b).rawByte q = if q % 256 = pa % 256 then b else s.rawByte q := by
      have hblock := s.storedAt_block hq
      rw [State.rawByte_setRaw]
      congr 1
      exact propext ⟨fun _ => by omega, fun _ => by omega⟩
    unfold State.setRaws
    cases hempty : bs with
    | nil =>
      refine hhere.trans ?_
      by_cases h : q % 256 = pa % 256
      · rw [if_pos h, if_pos (by simp; omega), h, Nat.sub_self]
        rfl
      · exact (if_neg h).trans (if_neg (by simp; omega)).symm
    | cons b' bs' =>
      rw [← hempty]
      have hlen : bs.length = bs'.length + 1 := by rw [hempty, List.length_cons]
      rw [ih (by omega) (by omega), hhere]
      by_cases h : (pa + 1) % 256 ≤ q % 256 ∧ q % 256 < (pa + 1) % 256 + bs.length
      · have hsub : q % 256 - pa % 256 = (q % 256 - (pa + 1) % 256) + 1 := by omega
        rw [if_pos h, if_pos (by omega), hsub]
        rfl
      · rw [if_neg h]
        by_cases he : q % 256 = pa % 256
        · rw [if_pos he, if_pos (by omega), he, Nat.sub_self]
          rfl
        · exact (if_neg he).trans (if_neg (by omega)).symm

theorem State.rawBytes_setRaws {pa : Nat} {bs : List Byte} (hfit : pa % 256 + bs.length ≤ 256) :
    (s.setRaws pa bs).rawBytes pa bs.length = bs := by
  refine List.ext_getElem (by simp [State.rawBytes]) fun i h1 h2 => ?_
  have hread : (s.setRaws pa bs).rawByte (pa + i) = bs[i] := by
    rw [State.rawByte_setRaws hfit (by omega), if_pos (by omega), show (pa + i) % 256 - pa % 256 = i by omega]
    exact List.getD_eq_getElem _ _ h2
  simpa [State.rawBytes] using hread

theorem SameDram.rawBytes (h : SameDram s u) (pa n : Nat) : u.rawBytes pa n = s.rawBytes pa n := by
  unfold State.rawBytes
  simp only [h.rawByte]

/-! ### Requests (R377) -/

/-- The state with a request's fields in MEM_MAINT_CTRL. -/
def State.maintMarked (s : State) (op act arg : Nat) : State :=
  ((s.wr .MEM_MAINT_CTRL_OP op).wr .MEM_MAINT_CTRL_ACT act).wr .MEM_MAINT_CTRL_ARG arg

/-- The fields that a request writes. -/
def askFields : List Field := [.MEM_MAINT_CTRL_OP, .MEM_MAINT_CTRL_ACT, .MEM_MAINT_CTRL_ARG]

theorem fieldsKept_maintMarked (op act arg : Nat) : FieldsKept askFields s (s.maintMarked op act arg) :=
  (((FieldsKept.refl ..).wr (by decide) (by decide) (by decide)).wr (by decide) (by decide) (by decide)).wr (by decide)
    (by decide) (by decide)

/-- The state with the registers and the sequencer of another is that other with its own registers. -/
theorem State.maintAsk_of (hpf : s.pfWrites = true) (hpend : s.rd .MEM_MAINT_CTRL_PENDING = 0) (op act arg : Nat)
    (k : State → State × Nat) :
    s.maintAsk op act arg k =
      (k (s.maintMarked op act arg)).1.wr .MEM_MAINT_RESULT_STATUS (k (s.maintMarked op act arg)).2 := by
  unfold State.maintAsk
  rw [if_pos (by simp [hpf, hpend])]
  rfl

theorem State.maintMarked_frame (s : State) (op act arg : Nat) :
    s.maintMarked op act arg = { s with regs := (s.maintMarked op act arg).regs } := rfl

theorem State.acts_congr (hkept : FieldsKept askFields s t) (hmaint : t.maint = s.maint) (hinval : t.xlt.inval = s.xlt.inval)
    (hdoms : t.pwr.doms = s.pwr.doms) : t.acts = s.acts := by
  have hfilter : [0, 1].filter (fun k => decide (1 ≤ t.rd .FLT_PORT_STATE k) && decide (t.rd .FLT_PORT_STATE k ≤ 4)) =
      [0, 1].filter (fun k => decide (1 ≤ s.rd .FLT_PORT_STATE k) && decide (s.rd .FLT_PORT_STATE k ≤ 4)) :=
    List.filter_congr fun k hk => by
      have hlt : k < 2 := by
        simp only [List.mem_cons, List.not_mem_nil, or_false] at hk
        omega
      rw [hkept.rd .FLT_PORT_STATE (by decide) k (by omega) 0 (by decide)]
  unfold State.acts
  rw [hmaint, hinval, hdoms, hfilter]

/-- A request that finds `t` with the fields kept reports OK and shows the request. -/
theorem actRuns_of {l : List Field} {op arg : Nat} {a : Act} (hkept : FieldsKept l (s.maintMarked op a.act arg) t)
    (hop : .MEM_MAINT_CTRL_OP ∉ l) (hact : .MEM_MAINT_CTRL_ACT ∉ l) (hopw : op < 4) (hactw : a.act < 16)
    (hrun : t.maint.running = [a]) (hwait : t.maint.waiting = []) :
    ActRuns (t.wr .MEM_MAINT_RESULT_STATUS stOk) op a := by
  have hw : Field.MEM_MAINT_CTRL_OP.width = 2 := rfl
  have hw' : Field.MEM_MAINT_CTRL_ACT.width = 4 := rfl
  refine ⟨hrun, hwait, State.rd_wr_same .., ?_, ?_⟩
  · rw [State.rd_wr_field _ (by decide) (by decide) (by decide) (by decide) (by decide),
      hkept.rd _ hop 0 (by decide) 0 (by decide)]
    simp [State.maintMarked, State.rd_wr_field, hw, Nat.mod_eq_of_lt hopw]
  · rw [State.rd_wr_field _ (by decide) (by decide) (by decide) (by decide) (by decide),
      hkept.rd _ hact 0 (by decide) 0 (by decide)]
    simp [State.maintMarked, State.rd_wr_field, hw', Nat.mod_eq_of_lt hactw]

theorem State.meets_of_none (h : s.acts = []) (a : Act) (m : Meet) : s.meets a m = [] := by
  unfold State.meets
  rw [h]
  rfl

theorem State.domWake_of_on {d : Nat} (h : s.domState d = 0) : s.domWake d = s := by
  unfold State.domWake
  exact if_pos (by simp [h])

theorem Act.domains_of_ctrl {a : Act} (h : a.act = 2 ∨ a.act = 4 ∨ a.act = 5) : a.domains = [domMc a.target] := by
  unfold Act.domains
  rw [if_neg (by omega), if_pos (by simpa using or_assoc.mpr h)]

/-- A request that meets nothing, its controller ON, starts. -/
theorem State.actAsk_of_free {a : Act} (hon : a.act = 2 ∨ a.act = 4 ∨ a.act = 5 → s.domState (domMc a.target) = 0)
    (hrefused : s.meets a .refused = []) (hwaits : s.meets a .waits = []) : s.actAsk a = (s.actStart a, stOk) := by
  unfold State.actAsk
  rw [hrefused]
  dsimp only
  have hwake : (if (a.act = 2 || a.act = 5) = true then a.domains.foldl State.domWake s
      else if a.act = 4 then a.domains.foldl (fun (s : State) d => if s.domState d = 1 then s else s.domWake d) s
      else s) = s := by
    split_ifs with h25 h4
    · simp only [Bool.or_eq_true, decide_eq_true_eq] at h25
      rw [Act.domains_of_ctrl (by omega)]
      exact State.domWake_of_on (hon (by omega))
    · rw [Act.domains_of_ctrl (by omega), List.foldl_cons, List.foldl_nil, State.domWake_of_on (hon (by omega)), ite_self]
    · rfl
  rw [hwake, if_pos hwaits]

/-- The state in which nothing but `a` runs. -/
def State.onlyAct (s : State) (a : Act) : State := { s with maint := { s.maint with running := [a], paused := [] } }

/-! ### What starts on an idle sequencer -/

section
variable (h : s.acts = [])
include h

theorem State.actStart_of_idle (a : Act) : s.actStart a =
    match a.act with
    | 2 => (s.onlyAct a).wr .MEM_SELFTEST_DONE 0
    | 3 => if a.arg = 1 then (s.onlyAct a).flushWb else if a.arg = 2 then (s.onlyAct a).flushInv
      else (s.onlyAct a).flushWb.flushInv
    | 4 => if (s.saveallErr a.arg).isSome then s.saveall a.arg else (s.onlyAct a).saveall a.arg
    | _ => s.onlyAct a := by
  unfold State.acts at h
  simp only [List.append_eq_nil_iff] at h
  obtain ⟨⟨⟨⟨hrun, hpaused⟩, -⟩, -⟩, -⟩ := h
  unfold State.actStart
  extract_lets m1 s1 m2 s2
  have hs2 : s2 = s.onlyAct a := by simp [s2, m2, s1, m1, hrun, hpaused, State.onlyAct]
  clear_value s2
  rw [hs2] <;> rfl

theorem State.actStart_saveall {a : Act} (ha : a.act = 4) (herr : s.saveallErr a.arg = none) :
    s.actStart a = (s.onlyAct a).saveall a.arg := by
  rw [State.actStart_of_idle h, ha, herr]
  rfl

end

/-! ### A flush of one dirty sector (R358) -/

section
variable {sec : Nat} {x : Sector} (hl2 : s.mem.l2 = [(sec, x)]) (hdirty : x.dirty = true) (hregion : s.regionOf (32 * sec) = none)
  (hon : ∀ c < 12, s.domState (domMc c) = 0)
include hl2 hdirty hregion hon

theorem State.flushWb_one : s.flushWb.mem.l2 = [(sec, { x with dirty := false })] ∧
    s.flushWb.rawBytes (32 * sec) 32 = x.bytes ∧ FieldsKept useFields s s.flushWb ∧ s.flushWb.maint = s.maint := by
  have hback : s.l2WriteBack sec x = (s.setRaws (32 * sec) x.bytes).useDram maintAsker 32 := by
    unfold State.l2WriteBack State.writeSector
    dsimp only
    rw [if_pos hdirty, State.wakeCtrl, State.wakeNow_of_on (hon _ (ctrlOf_lt _)), hregion]
  have hflush : s.flushWb = ({ s.l2WriteBack sec x with mem := { (s.l2WriteBack sec x).mem with
      l2 := (s.l2WriteBack sec x).mem.l2.map (fun e => (e.1, { e.2 with dirty := false })) } } : State) := by
    unfold State.flushWb
    rw [hl2]
    rfl
  obtain ⟨w, hw⟩ : ∃ w, w = s.setRaws (32 * sec) x.bytes := ⟨_, rfl⟩
  have hwf : w = { s with mem := { s.mem with dram := w.mem.dram } } := hw ▸ State.setRaws_frame ..
  rw [hflush, hback, ← hw]
  have huse : FieldsKept useFields w (w.useDram maintAsker 32) := fieldsKept_useDram (by decide)
  have hframe := State.useDram_frame w maintAsker 32
  generalize w.useDram maintAsker 32 = d at huse hframe
  have hsame : SameDram w d := huse.sameDram (by decide) (by rw [hframe]) (by rw [hframe])
  refine ⟨?_, ?_, ?_, ?_⟩
  · rw [hframe, hwf]
    change s.mem.l2.map _ = _
    rw [hl2]
    rfl
  · refine ((hsame.trans (sameDram_of_regs rfl rfl rfl)).rawBytes _ _).trans ?_
    rw [hw]
    conv_lhs => rw [← x.bytes_length]
    refine State.rawBytes_setRaws ?_
    rw [x.bytes_length]
    omega
  · refine FieldsKept.of_regs (t := d) rfl ((fieldsKept_of_regs ?_).trans huse)
    rw [hwf]
  · change d.maint = _
    rw [hframe, hwf]

end

/-! ### An insertion into the save-all (R372, R373) -/

theorem State.freeEntry_spec {c e : Nat} (h : s.freeEntry c = some e) : e < 8 ∧ s.rd .MEM_SAVEALL_VALID c e = 0 ∧
    ∀ k < e, s.rd .MEM_SAVEALL_VALID c k ≠ 0 := by
  unfold State.freeEntry at h
  obtain ⟨hfree, hmem, hlow⟩ := List.find?_range_eq_some.mp h
  exact ⟨List.mem_range.mp hmem, by simpa using hfree, fun k hk => by simpa using hlow k hk⟩

theorem State.saveallErr_eq_none {pa : Nat} (h : s.saveallErr pa = none) : s.saveallEntry (ctrlOf pa) (blockOf pa) = none := by
  unfold State.saveallErr at h
  dsimp only at h
  split at h
  · exact absurd h (by simp)
  · exact absurd h (by simp)
  · assumption

/-- The state with an entry made valid for the block at `pa`. -/
def State.entryMade (s : State) (pa e : Nat) : State :=
  (s.wr .MEM_SAVEALL_BLOCK (blockOf pa) (ctrlOf pa) e).wr .MEM_SAVEALL_VALID 1 (ctrlOf pa) e

section
variable {pa e : Nat} (herr : s.saveallErr pa = none) (hfree : s.freeEntry (ctrlOf pa) = some e) (hblock : blockOf pa < 2 ^ 28)
include hfree

theorem State.entryMade_rd (hblock : blockOf pa < 2 ^ 28) : (s.entryMade pa e).rd .MEM_SAVEALL_VALID (ctrlOf pa) e = 1 ∧
    (s.entryMade pa e).rd .MEM_SAVEALL_BLOCK (ctrlOf pa) e = blockOf pa := by
  have hc := ctrlOf_lt pa
  obtain ⟨he, -, -⟩ := State.freeEntry_spec hfree
  refine ⟨State.rd_wr_same .., ?_⟩
  refine (State.rd_wr_field _ (by omega) (by omega) (by omega) (by omega) (by decide)).trans ?_
  exact (State.rd_wr_same ..).trans (Nat.mod_eq_of_lt hblock)

include herr

theorem State.saveall_eq : s.saveall pa =
    ((s.entryMade pa e).setRaws (pa / 256 * 256) (s.rawBytes (pa / 256 * 256) 256)).useDram maintAsker 512 := by
  unfold State.saveall
  dsimp only
  rw [herr, hfree]
  rfl

include hblock

theorem State.saveallEntry_entryMade : (s.entryMade pa e).saveallEntry (ctrlOf pa) (blockOf pa) = some e := by
  have hc := ctrlOf_lt pa
  obtain ⟨he, -, -⟩ := State.freeEntry_spec hfree
  obtain ⟨hvalid, hnum⟩ := State.entryMade_rd hfree hblock
  have hmiss := State.saveallErr_eq_none herr
  unfold State.saveallEntry at hmiss ⊢
  refine List.find?_range_eq_some.mpr ⟨by simp [hvalid, hnum], List.mem_range.mpr he, fun k hk => ?_⟩
  have hkept : RegsKept s (s.entryMade pa e) [(.MEM_SAVEALL_BLOCK, ctrlOf pa, e), (.MEM_SAVEALL_VALID, ctrlOf pa, e)] :=
    (regsKept_wr (by simp) (by omega) (by omega)).mpr ((regsKept_wr (by simp) (by omega) (by omega)).mpr (.refl _ _))
  have hold := List.find?_eq_none.mp hmiss k (List.mem_range.mpr (by omega))
  have hne : k ≠ e := by omega
  rw [hkept .MEM_SAVEALL_VALID (ctrlOf pa) k (by omega) (by omega) (by simp [hne]),
    hkept .MEM_SAVEALL_BLOCK (ctrlOf pa) k (by omega) (by omega) (by simp [hne])]
  simpa [Decidable.imp_iff_not_or] using hold

theorem State.saveall_spec : (s.saveall pa).rd .MEM_SAVEALL_VALID (ctrlOf pa) e = 1 ∧
    (s.saveall pa).rd .MEM_SAVEALL_BLOCK (ctrlOf pa) e = blockOf pa ∧ (s.saveall pa).mem.l2 = s.mem.l2 ∧
    (∀ i < 256, (s.saveall pa).rawByte (pa / 256 * 256 + i) = s.rawByte (pa / 256 * 256 + i) ∧
      (s.saveall pa).storedAt (pa / 256 * 256 + i) = placeOf (ctrlOf pa) (s.spareBlock e) + i) ∧
    FieldsKept (.MEM_SAVEALL_VALID :: .MEM_SAVEALL_BLOCK :: useFields) s (s.saveall pa) ∧ (s.saveall pa).maint = s.maint := by
  have hc := ctrlOf_lt pa
  obtain ⟨he, -, -⟩ := State.freeEntry_spec hfree
  obtain ⟨hvalid, hnum⟩ := State.entryMade_rd hfree hblock
  have hentry := State.saveallEntry_entryMade herr hfree hblock
  have hmade : FieldsKept (.MEM_SAVEALL_VALID :: .MEM_SAVEALL_BLOCK :: useFields) s (s.entryMade pa e) :=
    ((FieldsKept.refl ..).wr (by decide) (by omega) (by omega)).wr (by decide) (by omega) (by omega)
  have hmf : s.entryMade pa e = { s with regs := (s.entryMade pa e).regs } := rfl
  rw [State.saveall_eq herr hfree]
  generalize s.entryMade pa e = m at hvalid hnum hentry hmade hmf
  obtain ⟨w, hw⟩ : ∃ w, w = m.setRaws (pa / 256 * 256) (s.rawBytes (pa / 256 * 256) 256) := ⟨_, rfl⟩
  have hwf : w = { m with mem := { m.mem with dram := w.mem.dram } } := hw ▸ State.setRaws_frame ..
  rw [← hw]
  have huse : FieldsKept useFields w (w.useDram maintAsker 512) := fieldsKept_useDram (by decide)
  have hframe := State.useDram_frame w maintAsker 512
  generalize w.useDram maintAsker 512 = d at huse hframe
  have hkept : FieldsKept useFields m d := (fieldsKept_of_regs (by rw [hwf])).trans huse
  have hsame : SameDram w d := huse.sameDram (by decide) (by rw [hframe]) (by rw [hframe])
  refine ⟨?_, ?_, ?_, fun i hi => ⟨?_, ?_⟩, hmade.trans (hkept.mono (fun f hf => by simp [hf])), ?_⟩
  · exact (hkept.rd _ (by decide) _ (by omega) _ (by omega)).trans hvalid
  · exact (hkept.rd _ (by decide) _ (by omega) _ (by omega)).trans hnum
  · rw [hframe, hwf, hmf]
  · have hlen : (s.rawBytes (pa / 256 * 256) 256).length = 256 := by simp [State.rawBytes]
    rw [hsame.rawByte, hw, State.rawByte_setRaws (by omega) (by omega), if_pos (by omega),
      show (pa / 256 * 256 + i) % 256 - pa / 256 * 256 % 256 = i by omega, List.getD_eq_getElem _ _ (by omega)]
    simp [State.rawBytes]
  · have hctrl : ctrlOf (pa / 256 * 256 + i) = ctrlOf pa := by
      unfold ctrlOf
      omega
    have hblk : blockOf (pa / 256 * 256 + i) = blockOf pa := by
      unfold blockOf
      omega
    have hspare : m.spareBlock e = s.spareBlock e := by rw [hmf]; rfl
    have hwm : w.storedAt (pa / 256 * 256 + i) = m.storedAt (pa / 256 * 256 + i) := by rw [hwf]; rfl
    rw [hsame.storedAt, hwm]
    unfold State.storedAt
    rw [hctrl, hblk]
    dsimp only
    rw [hentry]
    dsimp only
    rw [hspare]
    omega
  · rw [hframe, hwf, hmf]

end

/-! ### Ends (R377, R378) -/

theorem State.startWaiting_of_none (h : s.maint.waiting = []) (n : Nat) : s.startWaiting n = s := by
  cases n with
  | zero => rfl
  | succ n =>
    unfold State.startWaiting
    rw [h]
    rfl

theorem State.maintSettle_of_none (h : s.maint.waiting = []) : s.maintSettle = s.resumePaused := by
  unfold State.maintSettle
  rw [State.startWaiting_of_none h]

theorem State.resumePaused_of_none (h : s.maint.paused = []) : s.resumePaused = s := by
  have hmaint : s.maint = { s.maint with running := s.maint.running, paused := [] } := by rw [← h]
  unfold State.resumePaused
  rw [h]
  dsimp only
  rw [List.filter_nil, List.filter_nil, List.append_nil, ← hmaint]

/-- A scrub that a self-test paused goes on when nothing else runs. -/
theorem State.maintSettle_of_paused {m : Maint} (h : s.maint = { m with running := [], paused := [⟨1, 0, 0⟩], waiting := [] }) :
    s.maintSettle = { s with maint := { m with running := [⟨1, 0, 0⟩], paused := [], waiting := [] } } := by
  rw [State.maintSettle_of_none (by rw [h])]
  unfold State.resumePaused
  rw [h]
  rfl

/-- The state in which nothing runs. -/
def State.noneRuns (s : State) : State := { s with maint := { s.maint with running := [] } }

theorem State.maintComplete_of_one {a : Act} (hrun : s.maint.running = [a]) (ha : a.act ≠ 1) (mis : Option (Fin 56)) :
    s.maintComplete a.act a.target mis = (s.noneRuns.actEnd a mis).maintSettle := by
  unfold State.maintComplete
  rw [hrun]
  simp [ha, State.noneRuns]

/-- The state with a self-test's first mismatch. -/
def State.mismatched (s : State) (c : Nat) (mis : Option (Fin 56)) : State :=
  match mis with
  | some v => s.selftestFail c v
  | none => s

theorem State.actEnd_selftest {c : Nat} {mis : Option (Fin 56)} (hrun : (s.mismatched c mis).maint.running = [])
    (hwait : (s.mismatched c mis).maint.waiting = []) :
    s.actEnd ⟨2, c, 0⟩ mis = (s.mismatched c mis).wr .MEM_SELFTEST_DONE 1 := by
  unfold State.actEnd
  rw [if_pos rfl]
  change (if ((s.mismatched c mis).maint.running.any (fun r => r.act = 2) ||
    (s.mismatched c mis).maint.waiting.any (fun r => r.act = 2)) = true then _ else _) = _
  rw [hrun, hwait]
  rfl

end

end Sys2Proof.Machine

namespace Sys2Proof.Claims

open Sys2Proof Sys2Proof.Machine

section
variable {s : State} (hpf : s.pfWrites = true) (hpend : s.rd .MEM_MAINT_CTRL_PENDING = 0)
include hpf hpend

section
variable (hidle : MaintIdle s)
include hidle

/-- A request on an idle sequencer starts its activity. -/
theorem maintAsk_of_idle (op arg : Nat) {a : Act} (k : State → State × Nat)
    (hk : k (s.maintMarked op a.act arg) = (s.maintMarked op a.act arg).actAsk a)
    (htarget : a.act = 2 ∨ a.act = 4 ∨ a.act = 5 → a.target < 12) :
    (s.maintMarked op a.act arg).acts = [] ∧ s.maintAsk op a.act arg k =
      ((s.maintMarked op a.act arg).actStart a).wr .MEM_MAINT_RESULT_STATUS stOk := by
  obtain ⟨hacts, -, hon⟩ := hidle
  have hkept := fieldsKept_maintMarked (s := s) op a.act arg
  have hm : (s.maintMarked op a.act arg).acts = [] := (State.acts_congr hkept rfl rfl rfl).trans hacts
  refine ⟨hm, ?_⟩
  rw [State.maintAsk_of hpf hpend, hk, State.actAsk_of_free (fun hctrl => ?_) (State.meets_of_none hm _ _)
    (State.meets_of_none hm _ _)]
  have hlt := htarget hctrl
  exact (hkept.rd .PWR_DOM_STATE_STATE (by decide) _ (by unfold domMc; omega) _ (by decide)).trans (hon ⟨_, hlt⟩)

theorem scrubStarts : ∃ u, exec .scrubStart s = .next u ∧ ActRuns u 1 ⟨1, 0, 0⟩ ∧
    u = { s with regs := u.regs, maint := u.maint } := by
  obtain ⟨hm, hask⟩ := maintAsk_of_idle hpf hpend hidle 1 0 (a := ⟨1, 0, 0⟩) (fun s => s.actAsk ⟨1, 0, 0⟩) rfl (by simp)
  have hstart : (s.maintMarked 1 1 0).actStart ⟨1, 0, 0⟩ = (s.maintMarked 1 1 0).onlyAct ⟨1, 0, 0⟩ :=
    State.actStart_of_idle hm _
  rw [hstart] at hask
  exact ⟨_, congrArg Host.Outcome.next hask, actRuns_of (s := s) (arg := 0) (l := []) (fieldsKept_of_regs rfl) (by simp)
    (by simp) (by decide) (by decide) rfl hidle.2.1, rfl⟩

theorem selftestStarts {arg : BitVec 4} (harg : arg.toNat < 12) :
    ∃ u, exec (.selftest arg) s = .next u ∧ ActRuns u 1 ⟨2, arg.toNat, 0⟩ ∧ u.rd .MEM_SELFTEST_DONE = 0 ∧
      u = { s with regs := u.regs, maint := u.maint } := by
  obtain ⟨hm, hask⟩ := maintAsk_of_idle hpf hpend hidle 1 arg.toNat (a := ⟨2, arg.toNat, 0⟩)
    (fun s => if 12 ≤ arg.toNat then (s, stBadValue) else s.actAsk ⟨2, arg.toNat, 0⟩) (if_neg (by omega)) (fun _ => harg)
  have hstart : (s.maintMarked 1 2 arg.toNat).actStart ⟨2, arg.toNat, 0⟩ = ((s.maintMarked 1 2 arg.toNat).onlyAct ⟨2, arg.toNat, 0⟩).wr
      .MEM_SELFTEST_DONE 0 :=
    State.actStart_of_idle hm _
  rw [hstart] at hask
  refine ⟨_, congrArg Host.Outcome.next hask, ?_, ?_, rfl⟩
  · have hkept := (fieldsKept_of_regs rfl : FieldsKept [.MEM_SELFTEST_DONE] (s.maintMarked 1 2 arg.toNat)
      ((s.maintMarked 1 2 arg.toNat).onlyAct ⟨2, arg.toNat, 0⟩)).wr (f := .MEM_SELFTEST_DONE) (v := 0) (i := 0) (j := 0)
      (by simp) (by decide) (by decide)
    exact actRuns_of hkept (by decide) (by decide) (by decide) (show 2 < 16 by decide) rfl hidle.2.1
  · exact (State.rd_wr_field _ (by decide) (by decide) (by decide) (by decide) (by decide)).trans (State.rd_wr_same ..)

theorem retrainStarts {arg : BitVec 4} (harg : arg.toNat < 12) :
    ∃ u, exec (.retrain arg) s = .next u ∧ ActRuns u 1 ⟨5, arg.toNat, 0⟩ ∧ u = { s with regs := u.regs, maint := u.maint } := by
  obtain ⟨hm, hask⟩ := maintAsk_of_idle hpf hpend hidle 1 arg.toNat (a := ⟨5, arg.toNat, 0⟩)
    (fun s => if 12 ≤ arg.toNat then (s, stBadValue) else s.actAsk ⟨5, arg.toNat, 0⟩) (if_neg (by omega)) (fun _ => harg)
  have hstart : (s.maintMarked 1 5 arg.toNat).actStart ⟨5, arg.toNat, 0⟩ = (s.maintMarked 1 5 arg.toNat).onlyAct ⟨5, arg.toNat, 0⟩ :=
    State.actStart_of_idle hm _
  rw [hstart] at hask
  exact ⟨_, congrArg Host.Outcome.next hask, actRuns_of (s := s) (arg := arg.toNat) (l := []) (fieldsKept_of_regs rfl)
    (by simp) (by simp) (by decide) (show 5 < 16 by decide) rfl hidle.2.1, rfl⟩

omit hpend in
theorem driftRetrains (ctrl : Fin 12) :
    exec (.retrainDrift ctrl) s = .next { s with maint := { s.maint with running := [⟨5, ctrl, 1⟩], paused := [] } } := by
  obtain ⟨hacts, -, hon⟩ := hidle
  have hlive : s.live = true := by
    simp only [State.pfWrites, State.fnUp, Bool.and_eq_true] at hpf
    exact hpf.1.1.1
  have hstart : s.actStart ⟨5, ctrl, 1⟩ = s.onlyAct ⟨5, ctrl, 1⟩ := State.actStart_of_idle hacts _
  have hask := State.actAsk_of_free (a := ⟨5, ctrl, 1⟩) (fun _ => hon ctrl) (State.meets_of_none hacts _ _)
    (State.meets_of_none hacts _ _)
  refine congrArg Host.Outcome.next ((if_pos (by simp [hlive, hon ctrl])).trans ?_)
  rw [hask, hstart]
  rfl

section
variable {sec : Nat} {x : Sector} (hl2 : s.mem.l2 = [(sec, x)]) (hdirty : x.dirty = true)
  (hregion : s.regionOf (32 * sec) = none)
include hl2

omit hl2 in
theorem flushDrops : ∃ u, exec .l2flushInv s = .next u ∧ ActRuns u 1 ⟨3, 0, 2⟩ ∧ u.mem = { s.mem with l2 := [] } := by
  obtain ⟨hm, hask⟩ := maintAsk_of_idle hpf hpend hidle 1 2 (a := ⟨3, 0, 2⟩) (fun s => s.actAsk ⟨3, 0, 2⟩) rfl
    (by simp)
  have hstart : (s.maintMarked 1 3 2).actStart ⟨3, 0, 2⟩ = ((s.maintMarked 1 3 2).onlyAct ⟨3, 0, 2⟩).flushInv :=
    State.actStart_of_idle hm _
  rw [hstart] at hask
  refine ⟨_, congrArg Host.Outcome.next hask, actRuns_of (s := s) (arg := 2) (l := []) (fieldsKept_of_regs rfl)
    (by simp) (by simp) (by decide) (by decide) rfl hidle.2.1, rfl⟩

omit hpf hpend in
include hdirty hregion in
/-- What the write-back leaves of a request's state. -/
theorem flushWb_marked (arg : Nat) :
    let t := (s.maintMarked 1 3 arg).onlyAct ⟨3, 0, arg⟩
    t.flushWb.mem.l2 = [(sec, { x with dirty := false })] ∧ t.flushWb.rawBytes (32 * sec) 32 = x.bytes ∧
      FieldsKept useFields (s.maintMarked 1 3 arg) t.flushWb ∧ t.flushWb.maint = t.maint := by
  obtain ⟨-, -, hon⟩ := hidle
  have hkept := fieldsKept_maintMarked (s := s) 1 3 arg
  have hmark : SameDram s (s.maintMarked 1 3 arg) := hkept.sameDram (by decide) rfl rfl
  intro t
  have hsame : SameDram s t := hmark.trans (sameDram_of_regs rfl rfl rfl)
  obtain ⟨hclean, hbytes, hregs, hmaint⟩ := State.flushWb_one (s := t) hl2 hdirty ((hsame.regionOf _).trans hregion)
    (fun c hc => (hkept.rd .PWR_DOM_STATE_STATE (by decide) _ (by unfold domMc; omega) _ (by decide)).trans (hon ⟨c, hc⟩))
  exact ⟨hclean, hbytes, FieldsKept.trans (t := t) (fieldsKept_of_regs rfl) hregs, hmaint⟩

include hdirty hregion

theorem flushWritesBack : ∃ u, exec .l2flushWb s = .next u ∧ ActRuns u 1 ⟨3, 0, 1⟩ ∧
    u.mem.l2 = [(sec, { x with dirty := false })] ∧ u.rawBytes (32 * sec) 32 = x.bytes := by
  obtain ⟨hclean, hbytes, hkept, hmaint⟩ := flushWb_marked hidle hl2 hdirty hregion 1
  obtain ⟨hm, hask⟩ := maintAsk_of_idle hpf hpend hidle 1 1 (a := ⟨3, 0, 1⟩) (fun s => s.actAsk ⟨3, 0, 1⟩) rfl
    (by simp)
  have hstart : (s.maintMarked 1 3 1).actStart ⟨3, 0, 1⟩ = ((s.maintMarked 1 3 1).onlyAct ⟨3, 0, 1⟩).flushWb :=
    State.actStart_of_idle hm _
  rw [hstart] at hask
  refine ⟨_, congrArg Host.Outcome.next hask, actRuns_of hkept (by decide) (by decide) (by decide) (by decide) ?_ ?_, hclean, ?_⟩
  · exact congrArg Maint.running hmaint
  · exact (congrArg Maint.waiting hmaint).trans hidle.2.1
  · refine (SameDram.rawBytes ?_ _ _).trans hbytes
    exact ((FieldsKept.refl [.MEM_MAINT_RESULT_STATUS] _).wr (by simp) (by decide) (by decide)).sameDram (by decide) rfl rfl

theorem flushWritesBackAndDrops : ∃ u, exec .l2flushWbinv s = .next u ∧ ActRuns u 1 ⟨3, 0, 3⟩ ∧ u.mem.l2 = [] ∧
    u.rawBytes (32 * sec) 32 = x.bytes := by
  obtain ⟨-, hbytes, hkept, hmaint⟩ := flushWb_marked hidle hl2 hdirty hregion 3
  obtain ⟨hm, hask⟩ := maintAsk_of_idle hpf hpend hidle 1 3 (a := ⟨3, 0, 3⟩) (fun s => s.actAsk ⟨3, 0, 3⟩) rfl
    (by simp)
  have hstart : (s.maintMarked 1 3 3).actStart ⟨3, 0, 3⟩ = ((s.maintMarked 1 3 3).onlyAct ⟨3, 0, 3⟩).flushWb.flushInv :=
    State.actStart_of_idle hm _
  rw [hstart] at hask
  refine ⟨_, congrArg Host.Outcome.next hask, actRuns_of (.of_regs (t := ((s.maintMarked 1 3 3).onlyAct
    ⟨3, 0, 3⟩).flushWb) rfl hkept) (by decide) (by decide) (by decide) (by decide)
    ?_ ?_, rfl, ?_⟩
  · exact congrArg Maint.running hmaint
  · exact (congrArg Maint.waiting hmaint).trans hidle.2.1
  · refine (SameDram.rawBytes ?_ _ _).trans hbytes
    have hlast := FieldsKept.wr (t := ((s.maintMarked 1 3 3).onlyAct ⟨3, 0, 3⟩).flushWb.flushInv) (v := stOk)
      (f := .MEM_MAINT_RESULT_STATUS) (l := [.MEM_MAINT_RESULT_STATUS]) (i := 0) (j := 0)
      (fieldsKept_of_regs (s := ((s.maintMarked 1 3 3).onlyAct ⟨3, 0, 3⟩).flushWb) rfl) (by simp) (by decide) (by decide)
    exact hlast.sameDram (by decide) rfl rfl

end

theorem saveallInserts {e pa : Nat} (haddr : s.addrOf .MEM_MAINT_ADDR_ADDR = pa) (hsize : pa < s.dramSize)
    (herr : s.saveallErr pa = none) (hfree : s.freeEntry (ctrlOf pa) = some e) (hblock : blockOf pa < 2 ^ 28) :
    ∃ u, exec .saveall s = .next u ∧ ActRuns u 1 ⟨4, ctrlOf pa, pa⟩ ∧ u.rd .MEM_SAVEALL_VALID (ctrlOf pa) e = 1 ∧
      u.rd .MEM_SAVEALL_BLOCK (ctrlOf pa) e = blockOf pa ∧ u.mem.l2 = s.mem.l2 ∧
      ∀ i < 256, u.rawByte (pa / 256 * 256 + i) = s.rawByte (pa / 256 * 256 + i) ∧
        u.storedAt (pa / 256 * 256 + i) = placeOf (ctrlOf pa) (s.spareBlock e) + i := by
  have hc := ctrlOf_lt pa
  obtain ⟨he, -, -⟩ := State.freeEntry_spec hfree
  obtain ⟨arg, harg⟩ : ∃ arg, s.rd .MEM_MAINT_CTRL_ARG = arg := ⟨_, rfl⟩
  have hkept := fieldsKept_maintMarked (s := s) 1 4 arg
  have herr_of (t : State) (h : FieldsKept askFields s t) : t.saveallErr pa = none ∧ t.freeEntry (ctrlOf pa) = some e := by
    have hrd (f : Field) (hf : f ∉ askFields) (k : Nat) (hk : k ∈ List.range 8) : t.rd f (ctrlOf pa) k = s.rd f (ctrlOf pa) k :=
      h.rd f hf _ (by omega) _ (by have := List.mem_range.mp hk; omega)
    have hf : t.freeEntry (ctrlOf pa) = s.freeEntry (ctrlOf pa) := by
      unfold State.freeEntry
      exact List.find?_congr fun k hk => by rw [hrd _ (by decide) k hk]
    have hentry : t.saveallEntry (ctrlOf pa) (blockOf pa) = s.saveallEntry (ctrlOf pa) (blockOf pa) := by
      unfold State.saveallEntry
      exact List.find?_congr fun k hk => by rw [hrd _ (by decide) k hk, hrd .MEM_SAVEALL_BLOCK (by decide) k hk]
    refine ⟨?_, hf.trans hfree⟩
    unfold State.saveallErr
    dsimp only
    rw [hentry, State.saveallErr_eq_none herr, hf, hfree]
  obtain ⟨hmerr, -⟩ := herr_of _ hkept
  have hk : (s.maintMarked 1 4 arg).saveallAsk ((s.maintMarked 1 4 arg).addrOf .MEM_MAINT_ADDR_ADDR) =
      (s.maintMarked 1 4 arg).actAsk ⟨4, ctrlOf pa, pa⟩ := by
    have haddr' : (s.maintMarked 1 4 arg).addrOf .MEM_MAINT_ADDR_ADDR = pa := by
      refine Eq.trans ?_ haddr
      unfold State.addrOf
      rw [hkept.rd .MEM_MAINT_ADDR_ADDR (by decide) 0 (by decide) 0 (by decide)]
    have hsize' : (s.maintMarked 1 4 arg).dramSize = s.dramSize :=
      hkept.rd .MEM_DRAM_SIZE_BYTES (by decide) 0 (by decide) 0 (by decide)
    unfold State.saveallAsk
    rw [haddr', hsize', if_neg (by omega), hmerr]
  obtain ⟨hm, hask⟩ := maintAsk_of_idle hpf hpend hidle 1 arg (a := ⟨4, ctrlOf pa, pa⟩)
    (fun s => s.saveallAsk (s.addrOf .MEM_MAINT_ADDR_ADDR)) hk (fun _ => hc)
  rw [State.actStart_saveall (a := ⟨4, ctrlOf pa, pa⟩) hm rfl hmerr] at hask
  have hexec : exec .saveall s = .next ((((s.maintMarked 1 4 arg).onlyAct ⟨4, ctrlOf pa, pa⟩).saveall pa).wr
      .MEM_MAINT_RESULT_STATUS stOk) := by
    refine congrArg Host.Outcome.next ?_
    rw [harg]
    exact hask
  have honly : FieldsKept askFields s ((s.maintMarked 1 4 arg).onlyAct ⟨4, ctrlOf pa, pa⟩) :=
    .of_regs (t := s.maintMarked 1 4 arg) rfl hkept
  have hspare : ((s.maintMarked 1 4 arg).onlyAct ⟨4, ctrlOf pa, pa⟩).spareBlock e = s.spareBlock e := rfl
  have hsame : SameDram s ((s.maintMarked 1 4 arg).onlyAct ⟨4, ctrlOf pa, pa⟩) := honly.sameDram (by decide) rfl rfl
  obtain ⟨herr', hfree'⟩ := herr_of _ honly
  obtain ⟨hvalid, hnum, hl2, hraw, hfields, hmaint⟩ := State.saveall_spec herr' hfree' hblock
  generalize hu : ((s.maintMarked 1 4 arg).onlyAct ⟨4, ctrlOf pa, pa⟩).saveall pa = u at hexec hvalid hnum hl2 hraw hfields hmaint
  have hlast : FieldsKept [.MEM_MAINT_RESULT_STATUS] u (u.wr .MEM_MAINT_RESULT_STATUS stOk) :=
    (FieldsKept.refl ..).wr (by simp) (by decide) (by decide)
  have hsame' : SameDram u (u.wr .MEM_MAINT_RESULT_STATUS stOk) := hlast.sameDram (by decide) rfl rfl
  have hrest : FieldsKept (.MEM_SAVEALL_VALID :: .MEM_SAVEALL_BLOCK :: useFields) (s.maintMarked 1 4 arg) u :=
    FieldsKept.trans (t := (s.maintMarked 1 4 arg).onlyAct ⟨4, ctrlOf pa, pa⟩) (fieldsKept_of_regs rfl) hfields
  refine ⟨_, hexec, actRuns_of hrest (by decide) (by decide) (by decide) (show 4 < 16 by decide) ?_ ?_,
    ?_, ?_, hl2, fun i hi => ?_⟩
  · exact congrArg Maint.running hmaint
  · exact (congrArg Maint.waiting hmaint).trans hidle.2.1
  · exact (hlast.rd _ (by decide) _ (by omega) _ (by omega)).trans hvalid
  · exact (hlast.rd _ (by decide) _ (by omega) _ (by omega)).trans hnum
  · obtain ⟨hbyte, hplace⟩ := hraw i hi
    exact ⟨(hsame'.rawByte _).trans (hbyte.trans (hsame.rawByte _)), (hsame'.storedAt _).trans (hplace.trans (by rw [hspare]))⟩

end

theorem badController {arg : BitVec 4} (harg : 12 ≤ arg.toNat) :
    ∃ a b : State, exec (.selftest arg) s = .next a ∧ exec (.retrain arg) s = .next b ∧
      a.rd .MEM_MAINT_RESULT_STATUS = stBadValue ∧ b.rd .MEM_MAINT_RESULT_STATUS = stBadValue ∧
      a = { s with regs := a.regs } ∧ b = { s with regs := b.regs } := by
  have hask (act : Nat) : s.ctrlAsk act arg.toNat =
      (s.maintMarked 1 act arg.toNat).wr .MEM_MAINT_RESULT_STATUS stBadValue := by
    unfold State.ctrlAsk
    rw [State.maintAsk_of hpf hpend, if_pos harg]
  exact ⟨_, _, congrArg Host.Outcome.next (hask 2), congrArg Host.Outcome.next (hask 5), State.rd_wr_same ..,
    State.rd_wr_same .., rfl, rfl⟩

/-! ### Beside a scrub that runs -/

section
variable (hrun : s.maint.running = [⟨1, 0, 0⟩]) (hpaused : s.maint.paused = []) (hwait : s.maint.waiting = [])
include hrun hpaused hwait

theorem scrubStops : ∃ u, exec .scrubStop s = .next u ∧ u.maint = { s.maint with running := [] } ∧
    u.rd .MEM_MAINT_RESULT_STATUS = 0 ∧ u = { s with regs := u.regs, maint := u.maint } := by
  let m := s.maintMarked 2 1 0
  let t : State := { m with maint := { s.maint with running := [] } }
  have hstop : m.scrubStop = t := by
    have hkeep : ({ m with maint := { m.maint with
        running := m.maint.running.filter (fun a => a.act ≠ 1)
        paused := m.maint.paused.filter (fun a => a.act ≠ 1)
        waiting := m.maint.waiting.filter (fun a => a.act ≠ 1) } } : State) = t := by
      simp only [show m.maint = s.maint from rfl, hrun, hpaused, hwait, t]
      rfl
    refine (congrArg State.maintSettle hkeep).trans ?_
    rw [State.maintSettle_of_none (s := t) hwait, State.resumePaused_of_none (s := t) hpaused]
  have hexec : exec .scrubStop s = .next (m.scrubStop.wr .MEM_MAINT_RESULT_STATUS stOk) :=
    congrArg Host.Outcome.next (State.maintAsk_of hpf hpend ..)
  rw [hstop] at hexec
  exact ⟨_, hexec, rfl, State.rd_wr_same .., rfl⟩

variable (hinval : s.xlt.inval = []) (hdoms : s.pwr.doms = []) (hports : ∀ k < 2, s.rd .FLT_PORT_STATE k = 0)
include hinval hdoms hports

omit hpf hpend hwait in
theorem acts_scrub (op act arg : Nat) : (s.maintMarked op act arg).acts = [⟨1, 0, 0⟩] := by
  refine (State.acts_congr (fieldsKept_maintMarked op act arg) rfl rfl rfl).trans ?_
  unfold State.acts
  rw [hrun, hpaused, hinval, hdoms]
  simp [hports 0 (by decide), hports 1 (by decide)]

omit hwait in
theorem secondScrubRefused : ∃ u, exec .scrubStart s = .next u ∧ u.rd .MEM_MAINT_RESULT_STATUS = stMem 6 0x101 ∧
    u = { s with regs := u.regs } := by
  have hrefused : (s.maintMarked 1 1 0).actAsk ⟨1, 0, 0⟩ = (s.maintMarked 1 1 0, stMem 6 0x101) := by
    have hmeets : (s.maintMarked 1 1 0).meets ⟨1, 0, 0⟩ .refused = [⟨1, 0, 0⟩] := by
      unfold State.meets
      rw [acts_scrub hrun hpaused hinval hdoms hports]
      decide
    unfold State.actAsk
    rw [hmeets]
    rfl
  have hexec : exec .scrubStart s = .next (((s.maintMarked 1 1 0).actAsk ⟨1, 0, 0⟩).1.wr .MEM_MAINT_RESULT_STATUS
      ((s.maintMarked 1 1 0).actAsk ⟨1, 0, 0⟩).2) := congrArg Host.Outcome.next (State.maintAsk_of hpf hpend ..)
  rw [hrefused] at hexec
  exact ⟨_, hexec, State.rd_wr_same .., rfl⟩

theorem selftestPausesScrub (hon : ∀ c : Fin 12, s.domState (domMc c) = 0) {arg : BitVec 4} (harg : arg.toNat < 12) :
    ∃ u, exec (.selftest arg) s = .next u ∧ ActRuns u 1 ⟨2, arg.toNat, 0⟩ ∧ u.maint.paused = [⟨1, 0, 0⟩] := by
  obtain ⟨c, hc⟩ : ∃ c : Fin 12, arg.toNat = c := ⟨⟨_, harg⟩, rfl⟩
  have hpauses (c : Fin 12) : ((⟨1, 0, 0⟩ : Act).overlaps ⟨2, c, 0⟩ && meet 1 2 = .pauses) = true := by
    revert c
    decide
  rw [hc]
  let m := s.maintMarked 1 2 c
  have hkept : FieldsKept askFields s m := fieldsKept_maintMarked ..
  have hmeets (k : Meet) (hk : meet 1 2 ≠ k) : m.meets ⟨2, c, 0⟩ k = [] := by
    unfold State.meets
    rw [acts_scrub hrun hpaused hinval hdoms hports]
    simp [hk]
  have hask : m.actAsk ⟨2, c, 0⟩ = (m.actStart ⟨2, c, 0⟩, stOk) := by
    refine State.actAsk_of_free (fun _ => ?_) (hmeets _ (by decide)) (hmeets _ (by decide))
    exact (hkept.rd .PWR_DOM_STATE_STATE (by decide) _ (by change 80 + c.val < 65536; omega) _ (by decide)).trans (hon c)
  have hstart : m.actStart ⟨2, c, 0⟩ = ({ m with maint := { m.maint with
      running := [⟨2, c, 0⟩], paused := [⟨1, 0, 0⟩] } } : State).wr .MEM_SELFTEST_DONE 0 := by
    have hrun' : m.maint.running = [⟨1, 0, 0⟩] := hrun
    have hpaused' : m.maint.paused = [] := hpaused
    unfold State.actStart
    extract_lets m1 s1 m2 s2
    have hs2 : s2 = { m with maint := { m.maint with running := [⟨2, c, 0⟩], paused := [⟨1, 0, 0⟩] } } := by
      have hp := hpauses c
      simp only [Bool.and_eq_true] at hp
      simp [s2, m2, s1, m1, hrun', hpaused', hp.1, hp.2]
    rw [hs2]
    rfl
  have hexec : exec (.selftest arg) s = .next ((m.actStart ⟨2, c, 0⟩).wr .MEM_MAINT_RESULT_STATUS stOk) := by
    refine congrArg Host.Outcome.next ?_
    rw [hc]
    unfold State.ctrlAsk
    rw [State.maintAsk_of hpf hpend, if_neg (by omega), hask]
  rw [hstart] at hexec
  have hdone : FieldsKept [.MEM_SELFTEST_DONE] m (({ m with maint := { m.maint with
      running := [⟨2, c, 0⟩], paused := [⟨1, 0, 0⟩] } } : State).wr .MEM_SELFTEST_DONE 0) :=
    .wr (fieldsKept_of_regs rfl) (by simp) (by decide) (by decide)
  exact ⟨_, hexec, actRuns_of hdone (by decide) (by decide) (by decide) (show 2 < 16 by decide) rfl hwait, rfl⟩

end
end

theorem maintenanceStarts : MaintenanceStarts := by
  intro s arg hpf hpend
  refine ⟨fun hidle => ⟨scrubStarts hpf hpend hidle, fun harg => ⟨selftestStarts hpf hpend hidle harg,
      retrainStarts hpf hpend hidle harg⟩, driftRetrains hpf hidle, fun sec x hl2 hdirty hregion =>
      ⟨flushWritesBack hpf hpend hidle hl2 hdirty hregion, flushDrops hpf hpend hidle,
        flushWritesBackAndDrops hpf hpend hidle hl2 hdirty hregion⟩,
      fun e hsize herr hfree hblock => saveallInserts hpf hpend hidle rfl hsize herr hfree hblock⟩,
    badController hpf hpend, fun hrun hpaused hwait hinval hdoms hports hon => ?_⟩
  exact ⟨scrubStops hpf hpend hrun hpaused hwait,
    secondScrubRefused hpf hpend hrun hpaused hinval hdoms hports,
    selftestPausesScrub hpf hpend hrun hpaused hwait hinval hdoms hports hon⟩

/-! ### Ends -/

/-- The end of a self-test with its first mismatch (R374). -/
theorem selftestFail_spec {s : State} {c v : Nat} (hc : c < 12) (hv : v < 56) (hfail : s.rd .MEM_SELFTEST_FAIL = 0)
    (hroute : s.rd .EVQ_ROUTE_DRAM_ERROR ≤ 33) :
    (s.selftestFail c v).rd .MEM_SELFTEST_FAIL = 2 ^ c ∧ (s.selftestFail c v).rd .MEM_SELFTEST_CTRL = c ∧
      (s.selftestFail c v).rd .MEM_SELFTEST_VECTOR = v ∧ (s.selftestFail c v).maint = s.maint := by
  have hw : Field.MEM_SELFTEST_FAIL.width = 12 ∧ Field.MEM_SELFTEST_CTRL.width = 4 ∧ Field.MEM_SELFTEST_VECTOR.width = 6 :=
    ⟨rfl, rfl, rfl⟩
  have hbit : setBit 0 c = 2 ^ c := by simp [setBit, bitAt]
  have hpow : 2 ^ c < 2 ^ 12 := Nat.pow_lt_pow_right (by decide) hc
  unfold State.selftestFail
  extract_lets fail s1 s2
  have hs2 : s2 = (s1.wr .MEM_SELFTEST_CTRL c).wr .MEM_SELFTEST_VECTOR v := if_pos hfail
  have htarget : s2.rd .EVQ_ROUTE_DRAM_ERROR = s.rd .EVQ_ROUTE_DRAM_ERROR := by
    rw [hs2]
    simp [s1, State.rd_wr_field]
  have hraised : FieldsKept raiseFields s2 (s2.raiseShared .dramError (stMem 3 (c * 256 + v))
      (9 * 2 ^ 28 + s.pos * 2 ^ 24) 0 0) := fieldsKept_raise (by change s2.rd _ < _; omega)
  refine ⟨?_, ?_, ?_, ?_⟩
  · rw [hraised.rd _ (by decide) 0 (by decide) 0 (by decide), hs2]
    simp [s1, fail, hfail, State.rd_wr_field, hw, hbit]
    exact hpow
  · rw [hraised.rd _ (by decide) 0 (by decide) 0 (by decide), hs2]
    simp [s1, State.rd_wr_field, hw]
    omega
  · rw [hraised.rd _ (by decide) 0 (by decide) 0 (by decide), hs2]
    simp [hw]
    omega
  · refine (congrArg State.maint (State.raise_frame ..)).trans ?_
    change s2.maint = _
    rw [hs2]
    rfl

section
variable {s : State} (hlive : s.live = true) {c : Fin 12} (hrun : s.maint.running = [⟨2, c, 0⟩])
  (hpaused : s.maint.paused = [⟨1, 0, 0⟩]) (hwait : s.maint.waiting = [])
include hlive hrun hpaused hwait

/-- The end of the only self-test, the scrub paused behind it. -/
theorem selftestEnds {mis : Option (Fin 56)} (hmis : (s.noneRuns.mismatched c mis).maint = s.noneRuns.maint) :
    ∃ u, exec (.maintComplete 2 c mis) s = .next u ∧
      u.regs = ((s.noneRuns.mismatched c mis).wr .MEM_SELFTEST_DONE 1).regs ∧
      u.maint = { s.maint with running := [⟨1, 0, 0⟩], paused := [] } := by
  have hmaint : ((s.noneRuns.mismatched c mis).wr .MEM_SELFTEST_DONE 1).maint =
      { s.maint with running := [], paused := [⟨1, 0, 0⟩], waiting := [] } := by
    refine Eq.trans hmis ?_
    unfold State.noneRuns
    simp only [hpaused, hwait]
  have hend := State.actEnd_selftest (congrArg Maint.running hmis) ((congrArg Maint.waiting hmis).trans hwait)
  have hcomplete := State.maintComplete_of_one hrun (show 2 ≠ 1 by decide) mis
  rw [hend, State.maintSettle_of_paused hmaint] at hcomplete
  refine ⟨_, congrArg Host.Outcome.next ((if_pos hlive).trans hcomplete), rfl, ?_⟩
  simp only [hwait]

theorem selftestPasses : ∃ u, exec (.maintComplete 2 c none) s = .next u ∧ u.rd .MEM_SELFTEST_DONE = 1 ∧
    u.maint = { s.maint with running := [⟨1, 0, 0⟩], paused := [] } ∧ RegsKept s u [(.MEM_SELFTEST_DONE, 0, 0)] := by
  obtain ⟨u, hexec, hregs, hmaint⟩ := selftestEnds hlive hrun hpaused hwait (mis := none) rfl
  refine ⟨u, hexec, (State.rd_congr hregs ..).trans (State.rd_wr_same ..), hmaint, .of_regs hregs ?_⟩
  exact (regsKept_wr (List.mem_singleton_self _) (by decide) (by decide)).mpr (regsKept_of_regs rfl _)

theorem selftestFails (v : Fin 56) (hfail : s.rd .MEM_SELFTEST_FAIL = 0) (hroute : s.rd .EVQ_ROUTE_DRAM_ERROR ≤ 33) :
    ∃ u, exec (.maintComplete 2 c (some v)) s = .next u ∧ u.rd .MEM_SELFTEST_DONE = 1 ∧
      u.rd .MEM_SELFTEST_FAIL = 2 ^ c.val ∧ u.rd .MEM_SELFTEST_CTRL = c ∧ u.rd .MEM_SELFTEST_VECTOR = v ∧
      u.maint = { s.maint with running := [⟨1, 0, 0⟩], paused := [] } := by
  obtain ⟨hbit, hctrl, hvector, hmaint⟩ := selftestFail_spec (s := s.noneRuns) c.isLt v.isLt hfail hroute
  obtain ⟨u, hexec, hregs, hended⟩ := selftestEnds hlive hrun hpaused hwait (mis := some v) hmaint
  have hother {f : Field} (hf : f ≠ .MEM_SELFTEST_DONE) : u.rd f = (s.noneRuns.selftestFail c v).rd f :=
    (State.rd_congr hregs ..).trans (State.rd_wr_field _ (by decide) (by decide) (by decide) (by decide) hf)
  exact ⟨u, hexec, (State.rd_congr hregs ..).trans (State.rd_wr_same ..), (hother (by decide)).trans hbit,
    (hother (by decide)).trans hctrl, (hother (by decide)).trans hvector, hended⟩

end

theorem maintenanceEnds : MaintenanceEnds := by
  intro s act c target v hlive
  refine ⟨fun hnone => ?_, fun hrun hpaused hwait => ⟨selftestPasses hlive hrun hpaused hwait,
    selftestFails hlive hrun hpaused hwait v⟩, fun a ha hact hrun hpaused hwait => ?_⟩
  · refine congrArg Host.Outcome.next ((if_pos hlive).trans ?_)
    unfold State.maintComplete
    rw [hnone]
  · refine congrArg Host.Outcome.next ((if_pos hlive).trans ?_)
    have hend : s.noneRuns.actEnd a none = s.noneRuns := by
      unfold State.actEnd
      rw [if_neg (by omega), if_neg (by omega)]
    rw [← hact, State.maintComplete_of_one hrun (by omega), hend, State.maintSettle_of_none (s := s.noneRuns) hwait,
      State.resumePaused_of_none (s := s.noneRuns) hpaused]
    rfl

/-- Settles O49: the requests on an idle sequencer and beside a scrub, and the ends of activities. -/
theorem maintenanceRuns : Obligations.MaintenanceRuns := ⟨maintenanceStarts, maintenanceEnds⟩

end Sys2Proof.Claims
end

