-- ==== Sys2Proof/Proofs/HostWindow.lean ====
section
/-!
PROOF. The memory window (R225 to R227) and the completions of requests to the host (R229).
-/

namespace Sys2Proof.Claims

open Sys2Proof Sys2Proof.Machine

/-! ### The memory window -/

/-- A read in reach of a sector that L2 holds. -/
theorem windowReads {s : State} {off : BitVec 36} {x : Sector} {len : Nat} (hlive : s.live = true) (hpos : 0 < len)
    (hfit : s.winAddr off.toNat % 32 + len ≤ 32) (hok : s.winOk off.toNat len = true)
    (hhit : s.l2Hit (s.winAddr off.toNat / 32 * 32) = some x)
    (hon : s.domState (domL2 (sliceOf (s.winAddr off.toNat / 32 * 32))) = 0) :
    exec (.bar4Read off len) s = .next { s with reply := .data ((x.bytes.drop (s.winAddr off.toNat % 32)).take len) } := by
  refine congrArg Host.Outcome.next ((if_pos hlive).trans ?_)
  unfold State.winRead
  rw [if_neg (by simp [hok]), State.l2Read_of_sector hpos hfit (State.l2ReadSector_of_hit hhit hon)]

/-- A write in reach into a sector that L2 holds. -/
theorem windowWrites {s : State} {off : BitVec 36} {x : Sector} {bytes : List Byte} (hlive : s.live = true)
    (hen : s.rd .L2_CTRL_EN = 1) (hne : bytes ≠ []) (hfit : s.winAddr off.toNat % 32 + bytes.length ≤ 32)
    (hok : s.winOk off.toNat bytes.length = true) (hhit : s.l2Hit (s.winAddr off.toNat / 32 * 32) = some x)
    (hon : s.domState (domL2 (sliceOf (s.winAddr off.toNat / 32 * 32))) = 0) :
    ∃ u, exec (.bar4Write off bytes) s = .next u ∧ u = { s with mem := u.mem } ∧ u.mem.dram = s.mem.dram ∧
      u.mem.host = s.mem.host ∧
      ∀ a, u.physByte a = if s.winAddr off.toNat ≤ a ∧ a < s.winAddr off.toNat + bytes.length then
        bytes.getD (a - s.winAddr off.toNat) 0 else s.physByte a := by
  rw [State.l2Hit_aligned] at hhit
  rw [sliceOf_aligned] at hon
  obtain ⟨ts, hwrite⟩ := State.l2Write_of_hit (who := winAsker) (pol := .wb) hhit hon hne hfit
  refine ⟨_, congrArg Host.Outcome.next ((if_neg (by simp [hlive])).trans ((if_pos hok).trans (congrArg Prod.fst hwrite))),
    rfl, rfl, rfl, State.physByte_l2Put hen hhit hfit ts⟩

theorem powered_of_live {s : State} (h : s.live = true) : s.powered = true := by
  simp only [State.live, Bool.and_eq_true] at h
  obtain ⟨h, -⟩ := h
  simp only [State.powered, Bool.and_eq_true]
  exact h

theorem theWindowReachesLocalMemory : TheWindowReachesLocalMemory := by
  intro s off x hlive hen
  refine ⟨fun len hpos hfit hok hhit hon => windowReads hlive hpos hfit hok hhit hon,
    fun bytes hne hfit hok hhit hon => windowWrites hlive hen hne hfit hok hhit hon, fun len hbad => ?_, fun bytes hbad => ?_,
    fun size => congrArg Host.Outcome.next (if_pos (powered_of_live hlive))⟩
  · refine congrArg Host.Outcome.next ((if_pos hlive).trans ?_)
    unfold State.winRead
    exact if_pos (by simp [hbad])
  · exact congrArg Host.Outcome.next ((if_neg (by simp [hlive])).trans (if_neg (by simp [hbad])))

/-! ### Completions -/

section
variable {s : State} {id : Nat} {r : Req} (hlive : s.live = true) (hreq : s.hostReq id = some r)
include hlive hreq

/-- The last completion of a quire's reads lets it run. -/
theorem completionWakes {v q : Nat} {x : Quire} {l : List Nat} {bytes : List Byte} (howner : r.owner = .quire v q)
    (hquire : s.quire v q = some x) (hwait : x.wait = .remote l) (hlen : bytes.length = r.n)
    (hhost : ∀ y ∈ s.pcie.reqs, y.id ≠ id → Owner.ofQuire v q y.owner = false)
    (hring : ∀ y ∈ s.ring.reqs, Owner.ofQuire v q y.owner = false) (hmig : ∀ w ∈ s.xlt.waits, w.who ≠ .quire v q) :
    ∃ u, exec (.hostCompletion id .ok bytes) s = .next u ∧ u.quire v q = some { x with wait := .run } ∧
      (∀ n k : Nat, (n, k) ≠ (v, q) → u.quire n k = s.quire n k) ∧
      u.xlt = { s.xlt with fetched := s.xlt.fetched ++ [⟨r.owner, r.addr, bytes⟩] } ∧
      u = { s with vats := u.vats, xlt := u.xlt,
                   pcie := { s.pcie with reqs := s.pcie.reqs.filter (fun y => y.id ≠ id) } } := by
  let t := (s.dropHostReq id).keep r.owner r.addr bytes
  have hquiet : (t.outstanding (Owner.ofQuire v q) || t.xlt.waits.any (fun w => w.who = .quire v q)) = false := by
    simp only [State.outstanding, Bool.or_eq_false_iff, List.any_eq_false, decide_eq_true_eq, Bool.not_eq_true]
    refine ⟨⟨hring, fun y hy => ?_⟩, hmig⟩
    obtain ⟨hmem, hne⟩ := List.mem_filter.mp hy
    exact hhost y hmem (by simpa using hne)
  have hwake : t.wakeQuire v q = t.setQuire v q { x with wait := .run } := by
    unfold State.wakeQuire
    rw [show t.quire v q = some x from hquire]
    dsimp only
    rw [hwait]
    dsimp only
    rw [if_neg (by simp [hquiet])]
  have hanswer : s.hostAnswer id .ok bytes = t.setQuire v q { x with wait := .run } := by
    unfold State.hostAnswer
    rw [hreq]
    dsimp only
    rw [if_pos hlen, howner]
    unfold State.wake
    dsimp only
    rw [← hwake, ← howner]
  refine ⟨_, congrArg Host.Outcome.next ((if_pos hlive).trans hanswer), State.quire_setQuire_same .., fun n k hne => ?_, rfl, rfl⟩
  exact State.quire_setQuire_ne t _ (by simpa using hne)

omit hlive hreq in
/-- A request of a decode job that ends in error only marks the job. -/
theorem hostFail_of_decode {cid : Nat} {c : Cmd} (howner : r.owner = .cmd cid) (hcmd : s.cmd cid = some c)
    (hengine : engineOf c.op = 2) {t : State} (ht : t.hb = s.hb) :
    t.hostFail r = { t with
      xlt := { t.xlt with fetched := t.xlt.fetched ++ [⟨.cmd cid, failMark, toLe 4 stHostError⟩] }
      pcie := { t.pcie with reqs := t.pcie.reqs.filter (fun y => y.id ≠ r.id) } } := by
  have hcmd' : (t.dropHostReq r.id).cmd cid = some c := by
    refine Eq.trans ?_ hcmd
    unfold State.cmd State.allCmds
    rw [show (t.dropHostReq r.id).hb = s.hb from ht]
  unfold State.hostFail State.failOwner
  rw [howner]
  dsimp only
  rw [hcmd']
  dsimp only
  rw [if_pos (by simp [hengine])]
  rfl

end

theorem hostRequestsComplete : HostRequestsComplete := by
  intro s id r hlive hreq
  refine ⟨fun v q x l bytes howner hquire hwait hlen hhost hring hmig =>
    completionWakes hlive hreq howner hquire hwait hlen hhost hring hmig, fun cid c bytes howner hcmd hengine => ?_⟩
  have hfail {t : State} (ht : t.hb = s.hb) := hostFail_of_decode howner hcmd hengine ht
  have hanswer (status : HostCpl) (t : State) (ht : s.hostAnswer id status bytes = t) :
      exec (.hostCompletion id status bytes) s = .next t := congrArg Host.Outcome.next ((if_pos hlive).trans ht)
  refine ⟨hanswer _ _ ?_, hanswer _ _ ?_, hanswer _ _ ?_, congrArg Host.Outcome.next ((if_pos hlive).trans ?_)⟩
  case refine_4 =>
    rw [hreq]
    exact hfail (t := s.aer 2) rfl
  all_goals
    unfold State.hostAnswer
    rw [hreq]
  · exact hfail rfl
  · exact hfail rfl
  · exact hfail (t := s.aer 3) rfl

/-- Settles O43: the window's accesses, and the completions by their status. -/
theorem theHostReachesTheChip : Obligations.TheHostReachesTheChip := ⟨theWindowReachesLocalMemory, hostRequestsComplete⟩

end Sys2Proof.Claims
end

