-- ==== Sys2Proof/Proofs/EventKindRefuted.lean ====
section
/-!
PROOF. A record of another chip whose kind no bit of EVQ_PEND stands for (R298): the register has one bit for each of the 19
kinds, so a record of kind 20 leaves no bit pending.
-/

namespace Sys2Proof.Machine

/-- An EVT message of chip 1 for chip 0, with a record of kind 20. -/
def oddRecord : Msg := ⟨2, 0, feltMsg 5 1 0 7 0 (20 :: List.replicate 31 0), 0⟩

/-- A chip whose port 0 has received that message, with another of the same flit behind it. -/
def oddChip : State :=
  { State.reset with ring := { State.reset.ring with ports := [(0, { rx := [oddRecord, oddRecord] })] } }

end Sys2Proof.Machine

namespace Sys2Proof.Claims

open Sys2Proof Sys2Proof.Machine

theorem oddRecord_arrives : Arrives oddChip 0 (fun m => msgOp m = 5) oddRecord := by
  unfold Arrives
  decide +kernel

theorem oddRecord_leaves_no_bit : ∀ u, exec (.feltEvt 0) oddChip = .next u → kindBit (u.rd .EVQ_PEND_PEND 32) 20 = false := by
  have hrun : (match exec (.feltEvt 0) oddChip with
      | .next u => kindBit (u.rd .EVQ_PEND_PEND 32) 20
      | _ => false) = false := by decide +kernel
  intro u hu
  rwa [hu] at hrun

/-- Refutes O52: a record of kind 20, below 32, leaves no bit of EVQ_PEND pending, as the register has a bit for each of the 19
kinds only. -/
theorem not_otherChipsAreServed : ¬ Obligations.OtherChipsAreServed := by
  intro h
  obtain ⟨-, hevt, -, -⟩ := h.2 oddChip oddChip 0 oddRecord
  have hkind : leAt oddRecord.bytes 8 1 = 20 := by decide +kernel
  have hpart : oddChip.driverTarget (msgPart oddRecord.bytes) = 32 := by decide +kernel
  obtain ⟨u, hu, -, hbit, -⟩ := hevt oddRecord_arrives (by rw [hkind]; decide) (by rw [hkind]; decide) (by rw [hkind]; decide)
    (by rw [hkind]; decide) (by rw [hpart]; decide +kernel)
  rw [hkind, hpart, oddRecord_leaves_no_bit u hu] at hbit
  exact absurd hbit (by decide)

end Sys2Proof.Claims
end

