-- ==== Sys2Proof/Proofs/Tiles.lean ====
section
/-!
PROOF. Tiles of a render pass: their dispatch (R190) and the couch of the last one (R191).
-/

namespace Sys2Proof.Machine

section
variable {s s1 s2 t u : State} {x y : Pass} {p cmd : Nat}

/-! ### What a tile's vat does when the tile leaves it -/

/-- Nothing but registers, vats and the shares of vats changes. -/
def SharesOnly (s t : State) : Prop := t = { s with regs := t.regs, vats := t.vats, sched := t.sched }

theorem SharesOnly.trans (h : SharesOnly s t) (k : SharesOnly t u) : SharesOnly s u := by
  unfold SharesOnly at h k ⊢
  rw [k, h]

theorem SharesOnly.foldl {α : Type} {f : State → α → State} (hf : ∀ s x, SharesOnly s (f s x)) (xs : List α) (s : State) :
    SharesOnly s (xs.foldl f s) :=
  List.foldlRecOn xs f rfl fun _ ht x _ => ht.trans (hf _ x)

theorem sharesOnly_settlePreempt (s : State) (vat : Nat) : SharesOnly s (s.settlePreempt vat) := by
  unfold State.settlePreempt
  exact .trans (t := s.dropPreempt vat) rfl (.foldl (f := fun s p => s.count .SCH_PREEMPTS_COUNT 1 p) (fun _ _ => rfl) _ _)

theorem sharesOnly_returnLent (s : State) : SharesOnly s s.returnLent := by
  unfold State.returnLent State.lendChosen
  split_ifs
  · extract_lets free
    exact List.foldlRecOn (motive := SharesOnly s) _ _ rfl fun _ ht _ _ => ht.trans rfl
  · rfl

theorem sharesOnly_freeVat (s : State) (vat : Nat) : SharesOnly s (s.freeVat vat) := by
  unfold State.freeVat
  split_ifs
  · exact .trans (t := s.setVat vat { s.vat vat with holder := none }) rfl (sharesOnly_returnLent _)
  · rfl

theorem sharesOnly_leaveTile (s : State) (t : TileRun) : SharesOnly s (s.leaveTile t) := by
  unfold State.leaveTile
  split
  · exact (sharesOnly_settlePreempt ..).trans (sharesOnly_freeVat ..)
  · rfl

/-! ### The record of the only pass -/

theorem State.putPass_frame (s : State) (x : Pass) :
    s.putPass x = { s with regs := (s.putPass x).regs, geo := (s.setPass { x with peak := max x.peak x.used }).geo } := by
  unfold State.putPass State.showPass
  split <;> rfl

theorem State.showPass_frame (s : State) (p : Nat) : s.showPass p = { s with regs := (s.showPass p).regs } := by
  unfold State.showPass
  split <;> rfl

/-- The only pass, with a new record. -/
theorem State.passes_putPass (h : s.geo.passes = [x]) (hcmd : y.cmd = x.cmd) :
    (s.putPass y).geo.passes = [{ y with peak := max y.peak y.used }] := by
  rw [State.putPass_frame]
  change (s.setPass { y with peak := max y.peak y.used }).geo.passes = _
  unfold State.setPass
  dsimp only
  rw [h]
  simp [hcmd]

theorem State.passOf_one (h : s.geo.passes = [x]) : s.passOf x.cmd = some x := by
  unfold State.passOf
  rw [h]
  simp

/-! ### Dispatch (R190) -/

/-- A tile that advances stays the same tile on the same vat, and the state keeps all but its launches and their numbers. -/
theorem State.advanceTile_spec (s : State) (x : Pass) (fuel : Nat) (t : TileRun) :
    (s.advanceTile x fuel t).2.tile = t.tile ∧ (s.advanceTile x fuel t).2.vat = t.vat ∧
      (s.advanceTile x fuel t).1 = { s with
        launches := (s.advanceTile x fuel t).1.launches, nextId := (s.advanceTile x fuel t).1.nextId } := by
  induction fuel generalizing t with
  | zero => exact ⟨rfl, rfl, rfl⟩
  | succ fuel ih =>
    unfold State.advanceTile
    split_ifs
    · exact ⟨rfl, rfl, rfl⟩
    · split
      · split
        · exact ⟨rfl, rfl, rfl⟩
        · exact ih _
      · split
        · exact ⟨rfl, rfl, rfl⟩
        · split_ifs
          · exact ih _
          · extract_lets d
            split
            · exact ih _
            · split_ifs
              · exact ih _
              · exact ⟨rfl, rfl, rfl⟩

theorem Pass.maskTile_cmd (x : Pass) (tile : Nat) (prims : List Prim) : (x.maskTile tile prims).cmd = x.cmd := by
  unfold Pass.maskTile
  split_ifs <;> rfl

/-- What the start of a loaded tile leaves of the only pass. -/
theorem State.startTile_spec (h : s.geo.passes = [x]) (tile : Nat) (vat : Option Nat) (px : List (List Nat)) :
    ∃ y r, (s.startTile x tile vat px).geo.passes = [y] ∧ y.cmd = x.cmd ∧ y.todo = x.todo.drop 1 ∧
      y.inflight = x.inflight ++ [r] ∧ r.tile = tile ∧ r.vat = vat ∧ (s.startTile x tile vat px).mem = s.mem := by
  unfold State.startTile
  extract_lets prims x1 s1 t
  have hwake : s1.geo = s.geo ∧ s1.mem = s.mem := by
    unfold s1
    split
    · rw [State.wakeNow_frame]
      exact ⟨rfl, rfl⟩
    · exact ⟨rfl, rfl⟩
  obtain ⟨htile, hvat, hframe⟩ := State.advanceTile_spec s1 x1 t.fuel t
  have hcmd : x1.cmd = x.cmd := Pass.maskTile_cmd ..
  generalize s1.advanceTile x1 t.fuel t = a at htile hvat hframe
  obtain ⟨s2, t1⟩ := a
  dsimp only at htile hvat hframe ⊢
  have hpasses : s2.geo.passes = [x] := by
    rw [hframe]
    change s1.geo.passes = _
    rw [hwake.1, h]
  refine ⟨_, t1, State.passes_putPass hpasses hcmd, hcmd, rfl, rfl, htile, hvat, ?_⟩
  rw [State.putPass_frame]
  change s2.mem = _
  rw [hframe]
  exact hwake.2

theorem State.tilePass_one (h : s.geo.passes = [x]) (hp : x.p = p) (hphase : x.phase = .rendering) (htodo : x.todo ≠ []) :
    s.tilePass p = some x := by
  unfold State.tilePass
  rw [h]
  simp [hp, hphase, htodo]

/-- The next tile of the only pass, its lists ended and its samples loaded, starts. -/
theorem State.tileDispatch_of_loaded {tile : Nat} {rest : List Nat} {px : List (List Nat)} (htile : s.tilePass p = some x)
    (hruns : s.partRuns p = true) (htodo : x.todo = tile :: rest)
    (hroom : (storeFind x.lists tile).isNone = true ∨
      ((List.range 64).find? (fun n => s.tileFits n p (pdFoot x.desc))).isSome = true)
    (hends : s.geoWrites p x.endWrites = (s1, .ok ())) (hload : s1.loadTile x tile = (s2, .ok px)) :
    s.tileDispatch p = s2.startTile x tile (if (storeFind x.lists tile).isNone then none
      else (List.range 64).find? (fun n => s.tileFits n p (pdFoot x.desc))) px := by
  obtain ⟨writes, hdef⟩ : ∃ f, @State.geoWrites = f := ⟨_, rfl⟩
  obtain ⟨load, hldef⟩ : ∃ f, @State.loadTile = f := ⟨_, rfl⟩
  obtain ⟨start, hsdef⟩ : ∃ f, @State.startTile = f := ⟨_, rfl⟩
  rw [hdef] at hends
  rw [hldef] at hload
  rw [hsdef]
  conv in State.tileDispatch => delta State.tileDispatch
  rw [hdef, hldef, hsdef]
  dsimp only
  rw [htile]
  dsimp only
  rw [htodo]
  dsimp only
  rw [if_neg, hends]
  · dsimp only
    rw [hload]
  · obtain h | h := hroom
    · simp [hruns, h]
    · by_cases hnone : (storeFind x.lists tile).isNone = true
      · simp [hruns, hnone]
      · rw [if_neg hnone]
        simp [hruns, hnone, Option.isSome_iff_ne_none.mp h]

/-! ### The couch of the last tile (R191) -/

/-- The couch of the last tile in flight of the only pass. -/
theorem State.couch_of_written {r : TileRun} (h : s.geo.passes = [x]) (hp : x.p = p) (hphase : x.phase = .rendering)
    (htodo : x.todo = []) (hflight : x.inflight = [r]) (hdrawn : r.drawn = true)
    (hwrites : s.geoWrites p (couchRows x.desc r.tile r.px ++ x.gateWrites) = (s1, .ok ())) :
    s.couch p r.tile = ((s1.putPass { x with inflight := [] }).leaveTile r).endPass { x with inflight := [] } := by
  have hfind : s.geo.passes.findSome? (fun x => (x.inflight.find? (fun t => x.p = p && t.tile = r.tile && t.drawn)).map
      (fun t => (x, t))) = some (x, r) := by
    rw [h, List.findSome?_cons, hflight]
    simp [hp, hdrawn]
  have hcouch : s.couchWrites x r = (s, couchRows x.desc r.tile r.px) := by
    unfold State.couchWrites
    exact if_neg (by simp [hphase])
  obtain ⟨writes, hdef⟩ : ∃ f, @State.geoWrites = f := ⟨_, rfl⟩
  rw [hdef] at hwrites
  conv in State.couch => delta State.couch
  rw [hdef]
  dsimp only
  rw [hfind]
  dsimp only
  rw [hcouch]
  dsimp only
  rw [if_pos (by simp [hphase, htodo, hflight]), hwrites]
  dsimp only
  rw [if_neg (by simp [hphase]), hflight]
  simp

/-- A rendering pass with nothing left ends, and its BIN_END is OK. -/
theorem State.endPass_spec {c : Cmd} (h : s.geo.passes = [y]) (hcmd : y.cmd = x.cmd) (hphase : x.phase = .rendering)
    (htodo : x.todo = []) (hflight : x.inflight = []) (hreqs : s.ring.reqs.any (fun r => r.owner = .geo x.p) = false)
    (hended : x.ended = some c.id) (hc : s.cmd c.id = some c) (hhanded : c.phase = .handed) (hnone : c.result = none) :
    (s.endPass x).geo.passes = [] ∧ (s.endPass x).cmd c.id = some { c with result := some stOk } ∧
      (s.endPass x).mem = s.mem := by
  unfold State.endPass
  rw [if_pos (by simp [hphase, htodo, hflight, hreqs]), hended]
  extract_lets s1 s2
  have hs2 : s2 = s1.setResult c.id stOk := rfl
  rw [State.showPass_frame]
  refine ⟨?_, ?_, ?_⟩
  · change s2.geo.passes.filter _ = []
    rw [hs2]
    change s.geo.passes.filter _ = []
    rw [h]
    simp [hcmd]
  · refine (State.cmd_congr (t := _) (s := s2) rfl).trans ?_
    rw [hs2]
    exact State.cmd_setResult _ ((State.cmd_congr rfl).trans hc) hhanded hnone
  · rfl

end

end Sys2Proof.Machine

namespace Sys2Proof.Claims

open Sys2Proof Sys2Proof.Machine

/-- Settles O39: a dispatch ends the pass's lists, loads the tile and starts it; the couch of the last tile ends the pass. -/
theorem tilesAreDispatchedAndCouched : Obligations.TilesAreDispatchedAndCouched := by
  intro s s1 s2 p x t c tile rest px hlive hpasses hp hphase
  refine ⟨fun hruns htodo hroom hends hload hpasses2 => ?_, fun htodo hflight hdrawn hended hwrites hpasses1 hreqs hc hhanded
    hnone => ?_⟩
  · have hdispatch := State.tileDispatch_of_loaded (State.tilePass_one hpasses hp hphase (by simp [htodo])) hruns htodo hroom
      hends hload
    generalize (if (storeFind x.lists tile).isNone then none
      else (List.range 64).find? (fun n => s.tileFits n p (pdFoot x.desc))) = vat at hdispatch
    obtain ⟨y, r, hone, hcmd, hrest, hmore, htile, hvat, hmem⟩ := State.startTile_spec hpasses2 tile vat px
    rw [← hdispatch] at hone hmem
    have hpool := vatsOnly_poolStep (s.tileDispatch p)
    refine ⟨_, y, r, congrArg Host.Outcome.next (if_pos hlive), ?_, ?_, hmore, htile, hvat, hpool.mem.trans hmem⟩
    · rw [← hcmd]
      exact State.passOf_one ((congrArg Geo.passes hpool.geo).trans hone)
    · rw [hrest, htodo]
      rfl
  · have hcouch := State.couch_of_written hpasses hp hphase htodo hflight hdrawn hwrites
    have hput := State.passes_putPass (y := { x with inflight := [] }) hpasses1 rfl
    have hframe := State.putPass_frame s1 { x with inflight := [] }
    have hleave := sharesOnly_leaveTile (s1.putPass { x with inflight := [] }) t
    generalize s1.putPass { x with inflight := [] } = a at hcouch hput hframe hleave
    generalize a.leaveTile t = b at hcouch hleave
    have hb : b.hb = s1.hb ∧ b.ring = s1.ring ∧ b.mem = s1.mem ∧ b.geo = a.geo := by
      rw [hleave, hframe]
      exact ⟨rfl, rfl, rfl, rfl⟩
    obtain ⟨hhb, hring, hmem, hgeo⟩ := hb
    obtain ⟨hgone, hcmd, hsame⟩ := State.endPass_spec (s := b) (x := { x with inflight := [] }) (c := c)
      ((congrArg Geo.passes hgeo).trans hput) rfl hphase htodo rfl (by rw [hring, hp]; exact hreqs) hended
      ((State.cmd_congr (congrArg Headbox.queues hhb)).trans hc) hhanded hnone
    rw [← hcouch] at hgone hcmd hsame
    have hpool := vatsOnly_poolStep (s.couch p t.tile)
    refine ⟨_, congrArg Host.Outcome.next (if_pos hlive), (congrArg Geo.passes hpool.geo).trans hgone,
      (State.cmd_congr (congrArg Headbox.queues hpool.hb)).trans hcmd, hpool.mem.trans (hsame.trans hmem)⟩

end Sys2Proof.Claims
end

