-- ==== Sys2Proof/Proofs/Passes.lean ====
section
/-!
PROOF. Geometry passes (R173 to R198): BIN_BEGIN, DRAW and BIN_END at their hand-off, and what ends a grow request.
-/

namespace Sys2Proof.Machine
open Sys2Proof.Claims

section
variable {s s1 s2 t u : State} {x y : Pass} {c : Cmd} {d : List Byte} {v : Launch} {p n : Nat}

/-! ### The registers that show a pass -/

/-- The registers that show a partition's pass. -/
def showFields : List Field := [.GEO_PASS_STATE, .GEO_PASS_CHUNKS, .GEO_PASS_SEGMENTS, .GEO_PASS_DRAWS, .GEO_POOL_USE_NOW]

theorem fieldsKept_showPass (s : State) (hp : p < 65536) : FieldsKept showFields s (s.showPass p) := by
  have hz : 0 < 65536 := by decide
  unfold State.showPass
  split <;>
    exact (((((FieldsKept.refl ..).wr (by decide) hp hz).wr (by decide) hp hz).wr (by decide) hp hz).wr (by decide) hp hz).wr
      (by decide) hp hz

theorem fieldsKept_putPass (s : State) (hp : y.p < 65536) : FieldsKept showFields s (s.putPass y) := by
  unfold State.putPass
  exact .trans (t := s.setPass { y with peak := max y.peak y.used }) (fieldsKept_of_regs rfl) (fieldsKept_showPass _ hp)

theorem State.passOf_setPass (h : s.passOf x.cmd = some x) (hcmd : y.cmd = x.cmd) : (s.setPass y).passOf x.cmd = some y := by
  unfold State.passOf at h
  have hkeep : ((fun z : Pass => decide (z.cmd = x.cmd)) ∘ fun z => if z.cmd = y.cmd then y else z) =
      fun z => decide (z.cmd = x.cmd) := by
    funext z
    by_cases hz : z.cmd = x.cmd <;> simp [hz, hcmd]
  unfold State.passOf State.setPass
  dsimp only
  rw [List.find?_map, hkeep, h]
  simp [hcmd]

/-- A pass's record once the peak of its pool's use is kept. -/
def Pass.peaked (x : Pass) : Pass := { x with peak := max x.peak x.used }

/-- The record of a pass after a change of it. -/
theorem State.passOf_putPass (h : s.passOf x.cmd = some x) (hcmd : y.cmd = x.cmd) :
    (s.putPass y).passOf x.cmd = some y.peaked := by
  have hset := State.passOf_setPass (y := y.peaked) h hcmd
  rw [State.putPass_frame]
  exact hset

theorem State.mem_putPass (s : State) (y : Pass) : (s.putPass y).mem = s.mem := by
  rw [State.putPass_frame]

/-- The fields below those of the saves of preempted blocks keep their values. -/
structure FieldsBelowSaves (s t : State) : Prop where
  rd : ∀ f : Field, f.ctorIdx < Field.SCH_SAVE_USE_FULL.ctorIdx → ∀ i < 65536, ∀ j < 65536, t.rd f i j = s.rd f i j

theorem FieldsBelowSaves.trans (h : FieldsBelowSaves s t) (k : FieldsBelowSaves t u) : FieldsBelowSaves s u :=
  ⟨fun f hf i hi j hj => (k.rd f hf i hi j hj).trans (h.rd f hf i hi j hj)⟩

theorem fieldsBelowSaves_of_regs (h : t.regs = s.regs) : FieldsBelowSaves s t :=
  ⟨fun f _ i _ j _ => State.rd_congr h f i j⟩

theorem FieldsBelowSaves.foldl {α : Type} {f : State → α → State} (hf : ∀ s x, FieldsBelowSaves s (f s x)) (xs : List α)
    (s : State) : FieldsBelowSaves s (xs.foldl f s) :=
  List.foldlRecOn xs f (fieldsBelowSaves_of_regs rfl) fun t ht x _ => ht.trans (hf t x)

/-- A save that finds no room is counted, whichever the partition's number. -/
theorem fieldsBelowSaves_count (s : State) (k n : Nat) : FieldsBelowSaves s (s.count .SCH_SAVE_USE_FULL k n) :=
  ⟨fun f hf i hi j hj => State.rd_wr_ne _ (by
    unfold Field.key
    omega)⟩

theorem fieldsBelowSaves_trySave (s : State) (vat b : Nat) : FieldsBelowSaves s (s.trySave vat b) := by
  obtain ⟨slot, hdef⟩ : ∃ f, @State.saveSlot = f := ⟨_, rfl⟩
  conv in State.trySave => delta State.trySave
  rw [hdef]
  extract_lets v
  split
  · exact fieldsBelowSaves_of_regs rfl
  · split
    · exact fieldsBelowSaves_of_regs rfl
    · split_ifs
      · split
        · exact fieldsBelowSaves_of_regs rfl
        · exact .trans (t := s.setVat vat _) (fieldsBelowSaves_of_regs rfl) (fieldsBelowSaves_count ..)
      · exact fieldsBelowSaves_of_regs rfl

theorem fieldsBelowSaves_preempt (s : State) (vat p : Nat) : FieldsBelowSaves s (s.preempt vat p) := by
  unfold State.preempt
  extract_lets v mine v1
  exact .trans (t := s.setVat vat v1) (fieldsBelowSaves_of_regs rfl) (.foldl (fun s b => fieldsBelowSaves_trySave s vat b) _ _)

theorem fieldsBelowSaves_poolStep (s : State) : FieldsBelowSaves s s.poolStep := by
  have hwaiting : FieldsBelowSaves s s.updateWaiting := fieldsBelowSaves_of_regs rfl
  unfold State.poolStep
  dsimp only
  split_ifs
  · exact hwaiting
  · exact hwaiting
  · refine hwaiting.trans (.foldl (fun s n => ?_) _ _)
    split
    · split_ifs
      · exact fieldsBelowSaves_preempt ..
      · exact fieldsBelowSaves_of_regs rfl
    · exact fieldsBelowSaves_of_regs rfl

/-! ### What binning does when nothing can be binned -/

/-- Binning stops at a draw without its vertices. -/
theorem State.binPass_of_waiting {dr : DrawRec} (h : s.passOf n = some y) (hdraws : y.draws = [dr]) (hverts : dr.verts = none) :
    s.binPass n = s := by
  have hnext : y.nextDraw = some (0, dr) := by
    unfold Pass.nextDraw indexed
    rw [hdraws]
    simp [hverts]
  unfold State.binPass
  rw [h]
  dsimp only
  unfold Pass.binFuel State.binFrom
  rw [h]
  dsimp only
  rw [hnext]
  dsimp only
  rw [hverts]
  simp

/-- An ended pass without draws goes on to its tiles. -/
theorem State.binPass_of_ended (h : s.passOf n = some y) (hdraws : y.draws = []) (hphase : y.phase = .binning)
    (haway : y.away = false) (hruns : s.partRuns y.p = true) (hended : y.ended.isSome = true) :
    s.binPass n = s.putPass { y with phase := .rendering, todo := tileOrder y.desc } := by
  have hnext : y.nextDraw = none := by
    unfold Pass.nextDraw indexed
    rw [hdraws]
    rfl
  unfold State.binPass
  rw [h]
  dsimp only
  unfold Pass.binFuel State.binFrom
  rw [h]
  dsimp only
  rw [hnext]
  simp [hphase, haway, hruns, hended]

/-! ### BIN_BEGIN -/

theorem State.wakeEngine_of_begin (hc : s.cmd c.id = some c) (hop : c.op = 0x10) : s.wakeEngine c.id = s.wakeNow domGeo := by
  unfold State.wakeEngine
  rw [hc]
  exact if_pos hop

/-- What a hand-off of a BIN_BEGIN leaves. -/
theorem State.hand_begin (hc : s.cmd c.id = some c) (hop : c.op = 0x10) :
    (s.hand c.id).cmd c.id = some { c with phase := .handed } ∧ (s.hand c.id).geo = s.geo ∧ (s.hand c.id).mem = s.mem := by
  unfold State.hand
  rw [State.wakeEngine_of_begin hc hop, State.wakeNow_frame]
  exact ⟨State.cmd_modCmd (f := fun c => { c with phase := .handed }) c.id (fun _ => rfl) ((State.cmd_congr rfl).trans hc), rfl, rfl⟩

/-- What a refusal that has been handed off leaves. -/
theorem State.geoRefuse_spec {reason : Nat} (hc : s.cmd c.id = some { c with phase := .handed }) (hnone : c.result = none)
    (hp : c.p < 32) : (s.geoRefuse c.p c.op c.id reason).cmd c.id =
        some { c with phase := .handed, result := some (stRefused 1 reason) } ∧
      (s.geoRefuse c.p c.op c.id reason).rd .GEO_REFUSE_VALID c.p = 1 ∧
      (s.geoRefuse c.p c.op c.id reason).geo = s.geo ∧ (s.geoRefuse c.p c.op c.id reason).mem = s.mem := by
  have hp' : c.p < 65536 := by omega
  have hcmd : (s.setResult c.id (stRefused 1 reason)).cmd c.id =
      some { c with phase := .handed, result := some (stRefused 1 reason) } := State.cmd_setResult _ hc rfl hnone
  unfold State.geoRefuse
  dsimp only
  split_ifs with hvalid
  · exact ⟨hcmd, hvalid, rfl, rfl⟩
  · refine ⟨hcmd, ?_, rfl, rfl⟩
    rw [State.rd_wr_field _ hp' (by decide) hp' (by decide) (by decide),
      State.rd_wr_field _ hp' (by decide) hp' (by decide) (by decide), State.rd_wr_same]
    rfl

/-- A refused BIN_BEGIN. -/
theorem State.refuseHand_begin {reason : Nat} (hc : s.cmd c.id = some c) (hop : c.op = 0x10) (hnone : c.result = none)
    (hp : c.p < 32) : (s.refuseHand c reason).cmd c.id = some { c with phase := .handed, result := some (stRefused 1 reason) } ∧
      (s.refuseHand c reason).rd .GEO_REFUSE_VALID c.p = 1 ∧ (s.refuseHand c reason).geo.passes = s.geo.passes ∧
      (s.refuseHand c reason).mem = s.mem := by
  obtain ⟨hcmd, hgeo, hmem⟩ := State.hand_begin hc hop
  obtain ⟨hrefused, hvalid, hgeo', hmem'⟩ := State.geoRefuse_spec (reason := reason) hcmd hnone hp
  have hrefuse : s.refuseHand c reason =
      ((s.hand c.id).geoRefuse c.p c.op c.id reason).setRefusing (queueKey c.p c.q) true := if_pos hop
  rw [hrefuse]
  exact ⟨hrefused, hvalid, (congrArg Geo.passes hgeo').trans (congrArg Geo.passes hgeo), hmem'.trans hmem⟩

/-- What an opened pass leaves. -/
theorem State.openPass_spec (hc : s.cmd c.id = some c) (hop : c.op = 0x10) (hnone : c.result = none) :
    HandedOk (s.openPass c x) c ∧ (s.openPass c x).geo.passes = s.geo.passes ++ [x] ∧ (s.openPass c x).mem = s.mem := by
  obtain ⟨hcmd, hgeo, hmem⟩ := State.hand_begin hc hop
  have hframe (a : State) : (a.showPass x.p).hb = a.hb ∧ (a.showPass x.p).geo = a.geo ∧ (a.showPass x.p).mem = a.mem := by
    rw [State.showPass_frame]
    exact ⟨rfl, rfl, rfl⟩
  unfold State.openPass
  extract_lets a g b
  obtain ⟨hhb, hgeo', hmem'⟩ := hframe b
  refine ⟨State.cmd_setResult _ (Eq.trans (State.cmd_congr (congrArg Headbox.queues hhb)) hcmd) rfl hnone, ?_, hmem'.trans hmem⟩
  refine (congrArg Geo.passes hgeo').trans ?_
  change (s.hand c.id).geo.passes ++ [x] = _
  rw [hgeo]

/-- A BIN_BEGIN in order, whose pass this chip runs, opens it. -/
theorem State.beginHand_of_read {r : PartRec} (hopen : s.openPassOf c.p c.q = none)
    (hbusy : s.geo.passes.any (fun x => x.p = c.p && x.phase ≠ .rendering) = false) (hpart : s.part c.p = some r)
    (hclass : r.poolClass ≠ 0) (hbase : s.rd .GEO_POOL_BASE_ADDR c.p ≠ 0)
    (hread : s.vRead (geoAsker c.p) (.cmd c.id) c.p (c.dword 1) 320 = (s1, .ok d))
    (hok : passRefusal d (r.split.getD 2 0 * 131072) ((s1.partVats c.p).any (fun v => v.1 = s1.passChip c.p d)) = none)
    (hhere : s1.passChip c.p d = s1.pos)
    (hwrites : s1.geoWrites c.p (s1.newPass c d (poolBytes r.poolClass) false).openWrites = (s2, .ok ())) :
    s.beginHand c = s2.openPass c (s1.newPass c d (poolBytes r.poolClass) false) := by
  obtain ⟨read, hdef⟩ : ∃ f, @State.vRead = f := ⟨_, rfl⟩
  obtain ⟨writes, hwdef⟩ : ∃ f, @State.geoWrites = f := ⟨_, rfl⟩
  rw [hdef] at hread
  rw [hwdef] at hwrites
  conv in State.beginHand => delta State.beginHand
  rw [hdef, hwdef]
  dsimp only
  rw [hopen, if_neg (by simp), if_neg (Bool.eq_false_iff.mp hbusy), hpart]
  dsimp only
  rw [if_neg (by simp [hclass, hbase]), hread]
  dsimp only
  rw [hok]
  dsimp only
  rw [hhere]
  simp only [ne_eq, not_true_eq_false, decide_false]
  rw [if_neg (show ¬ (s1.newPass c d (poolBytes r.poolClass) false).away = true from Bool.false_ne_true), hwrites]

/-! ### DRAW -/

/-- A draw with vertices. -/
def drawRec (c : Cmd) (d : List Byte) (v : Launch) (fr : Option Launch) : DrawRec where
  cmd := c.id
  addr := c.dword 1
  desc := d
  verts := none
  launch := some v.id
  frag := fr
  binned := 0

/-- A draw with vertices, the first of its pass, joins it; its vertices are launched. -/
theorem State.addDraw_spec {ids : List Nat} {fr : Option Launch} (hc : s.cmd c.id = some c) (hop : c.op = 0x11)
    (hx : s.passOf x.cmd = some x) (hdraws : x.draws = []) (hids : ids ≠ []) :
    ∃ y, (s.addDraw c x d v fr ids).cmd c.id = some { c with phase := .handed } ∧
      (s.addDraw c x d v fr ids).passOf x.cmd = some y ∧ y.draws = [drawRec c d v fr] ∧
      (s.addDraw c x d v fr ids).launch v.id = some (vertexLaunch v ids) ∧ (s.addDraw c x d v fr ids).mem = s.mem := by
  have hgeo : c.op ≠ 0x10 := by rw [hop]; decide
  have hbal : engineOf c.op ≠ 3 := by rw [hop]; decide
  have hadd : s.addDraw c x d v fr ids =
      ((((s.hand c.id).putPass { x with draws := [drawRec c d v fr] }).setLaunch v.id (vertexLaunch v ids)).binPass x.cmd).poolStep := by
    unfold State.addDraw
    simp [hids, hdraws, drawRec]
  have hcmd := State.cmd_hand hc hgeo hbal
  have hhand : (s.hand c.id).geo = s.geo ∧ (s.hand c.id).mem = s.mem := by
    rw [State.hand_eq hc hgeo hbal]
    exact ⟨rfl, rfl⟩
  obtain ⟨hgeo', hmem⟩ := hhand
  rw [hadd]
  generalize s.hand c.id = a at hcmd hgeo' hmem
  have hy := State.passOf_putPass (s := a) (x := x) (y := { x with draws := [drawRec c d v fr] })
    (by unfold State.passOf; rw [hgeo']; exact hx) rfl
  have hframe := State.putPass_frame a { x with draws := [drawRec c d v fr] }
  generalize a.putPass { x with draws := [drawRec c d v fr] } = b at hy hframe
  have hwait : (b.setLaunch v.id (vertexLaunch v ids)).binPass x.cmd = b.setLaunch v.id (vertexLaunch v ids) :=
    State.binPass_of_waiting hy rfl rfl
  have hpool := vatsOnly_poolStep (b.setLaunch v.id (vertexLaunch v ids))
  rw [hwait]
  refine ⟨Pass.peaked { x with draws := [drawRec c d v fr] }, (State.cmd_congr (congrArg Headbox.queues hpool.hb)).trans ?_, ?_,
    rfl, ?_, hpool.mem.trans ?_⟩
  · refine (State.cmd_congr (s := a) ?_).trans hcmd
    rw [hframe]
    rfl
  · unfold State.passOf
    rw [hpool.geo]
    exact hy
  · unfold State.launch
    rw [hpool.launches]
    exact (storeFind_put ..).trans (if_pos rfl)
  · refine Eq.trans ?_ hmem
    rw [hframe]
    rfl

/-- A DRAW without a fragment launch, whose launch and indices are read, joins its pass. -/
theorem State.drawRead_of_read {ids : List Nat} (hfrag : dsFlaunch d = 0)
    (hlaunch : s.drawLaunch c (dsVlaunch d) (.vertex c.p c.id) = (s1, .ok v)) (hids : s1.readIndices c d = (t, .ok ids)) :
    s.drawRead c x d = t.addDraw c x d v none ids := by
  obtain ⟨launch, hldef⟩ : ∃ f, @State.drawLaunch = f := ⟨_, rfl⟩
  obtain ⟨indices, hidef⟩ : ∃ f, @State.readIndices = f := ⟨_, rfl⟩
  rw [hldef] at hlaunch
  rw [hidef] at hids
  conv in State.drawRead => delta State.drawRead
  rw [hldef, hidef, hlaunch]
  dsimp only
  rw [hids]
  exact if_pos hfrag

/-- The hand-off of a DRAW in order without a fragment launch. -/
theorem State.drawHand_of_read {c' : Cmd} (hrefusing : s.geo.refusing.contains (queueKey c.p c.q) = false)
    (hopen : s.openPassOf c.p c.q = some x) (haway : x.away = false) (hdraws : x.draws = [])
    (hread : s.vRead (geoAsker c.p) (.cmd c.id) c.p (c.dword 1) 128 = (s1, .ok d)) (hok : drawOk d = true)
    (hprims : primCount (dsTopo d) (dsCount d) ≤ 2 ^ 20) (hr : s1.drawRead c x d = t) (hc : t.cmd c.id = some c')
    (hphase : c'.phase ≠ .fetched) : s.drawHand c = t := by
  obtain ⟨read, hdef⟩ : ∃ f, @State.vRead = f := ⟨_, rfl⟩
  rw [hdef] at hread
  have hfew : decide (4096 ≤ x.draws.length) = false := by
    rw [hdraws]
    rfl
  conv in State.drawHand => delta State.drawHand
  rw [hdef]
  rw [if_neg (Bool.eq_false_iff.mp hrefusing), hopen]
  dsimp -zeta only
  rw [if_neg (Bool.eq_false_iff.mp haway), hread]
  dsimp -zeta only
  rw [if_neg (by simp [hok]), hfew, decide_eq_false (Nat.not_lt.mpr hprims), if_neg (by decide), hr]
  extract_lets r
  rw [show r.cmd c.id = some c' from hc]
  exact if_neg hphase

/-! ### BIN_END -/

/-- A BIN_END of a pass of this chip that has no draw. -/
theorem State.endHand_spec (hop : c.op = 0x12) (hc : s.cmd c.id = some c)
    (hrefusing : s.geo.refusing.contains (queueKey c.p c.q) = false) (hopen : s.openPassOf c.p c.q = some x)
    (haway : x.away = false) (hdraws : x.draws = []) (hphase : x.phase = .binning) (hruns : s.partRuns x.p = true)
    (hx : s.passOf x.cmd = some x) :
    ∃ y, (s.endHand c).cmd c.id = some { c with phase := .handed } ∧ (s.endHand c).passOf x.cmd = some y ∧
      y.phase = .rendering ∧ y.todo = tileOrder x.desc ∧ y.ended = some c.id ∧ (s.endHand c).mem = s.mem := by
  have hgeo : c.op ≠ 0x10 := by rw [hop]; decide
  have hbal : engineOf c.op ≠ 3 := by rw [hop]; decide
  have hcmd := State.cmd_hand hc hgeo hbal
  have hhand := State.hand_eq hc hgeo hbal
  have hset := State.passOf_setPass (s := s.hand c.id) (x := x) (y := { x with ended := some c.id })
    (by rw [hhand]; exact hx) rfl
  have hframe : ((s.hand c.id).setPass { x with ended := some c.id }).mem = s.mem ∧
      ((s.hand c.id).setPass { x with ended := some c.id }).partRuns x.p = true := by
    rw [hhand]
    exact ⟨rfl, hruns⟩
  have hend : s.endHand c = (((s.hand c.id).setPass { x with ended := some c.id }).binPass x.cmd).poolStep := by
    unfold State.endHand
    dsimp only
    rw [if_neg (Bool.eq_false_iff.mp hrefusing), hopen]
    exact if_neg (Bool.eq_false_iff.mp haway)
  have hcmd' : ((s.hand c.id).setPass { x with ended := some c.id }).cmd c.id = some { c with phase := .handed } := hcmd
  rw [hend]
  generalize (s.hand c.id).setPass { x with ended := some c.id } = a at hset hframe hcmd'
  obtain ⟨hmem, hruns'⟩ := hframe
  rw [State.binPass_of_ended hset hdraws hphase haway hruns' rfl]
  have hput := State.passOf_putPass (s := a) (x := { x with ended := some c.id })
    (y := { x with ended := some c.id, phase := .rendering, todo := tileOrder x.desc }) hset rfl
  have hkept := State.putPass_frame a { x with ended := some c.id, phase := .rendering, todo := tileOrder x.desc }
  have hputMem := State.mem_putPass a { x with ended := some c.id, phase := .rendering, todo := tileOrder x.desc }
  generalize a.putPass { x with ended := some c.id, phase := .rendering, todo := tileOrder x.desc } = b at hput hkept hputMem
  have hpool := vatsOnly_poolStep b
  refine ⟨Pass.peaked { x with ended := some c.id, phase := .rendering, todo := tileOrder x.desc },
    (State.cmd_congr (congrArg Headbox.queues hpool.hb)).trans ?_, ?_, rfl, rfl, rfl, hpool.mem.trans ?_⟩
  · refine (State.cmd_congr (s := a) ?_).trans hcmd'
    rw [hkept]
  · unfold State.passOf
    rw [hpool.geo]
    exact hput
  · exact hputMem.trans hmem

/-! ### Grow requests -/

theorem State.growing_congr (h : t.geo = s.geo) : t.growing p = s.growing p := by
  unfold State.growing
  rw [h]

/-- The record of a pass whose broke pass starts (R196 steps 1 to 3). -/
def Pass.broken (x : Pass) (want : Nat) : Pass :=
  { x with
    phase := .broke
    held := some want
    todo := (tileOrder x.desc).filter (fun t => (storeFind x.lists t).isSome) }

theorem State.startBroke_eq (s : State) (x : Pass) (want : Nat) : s.startBroke x want = s.putPass (x.broken want) := rfl

/-- A request that ends with a broke pass. -/
theorem State.growEnd_spec {cause : Nat} (hgrowing : s.growing p = some x) (hx : s.passOf x.cmd = some x) (hp : x.p = p)
    (hlt : p < 32) (hcause : cause < 4) :
    ∃ y, (s.growEnd p cause).rd .GEO_GROW_CTRL_RESULT p = s.rd .GEO_GROW_CTRL_RESULT p ∧
      (s.growEnd p cause).rd .GEO_GROW_CTRL_REQ p = 0 ∧ (s.growEnd p cause).rd .GEO_COUNTS_CAUSE p = cause ∧
      (s.growEnd p cause).passOf x.cmd = some y ∧ y.phase = .broke ∧ (s.growEnd p cause).mem = s.mem := by
  subst hp
  have hi : x.p < 65536 := by omega
  have hz : 0 < 65536 := by decide
  have hend : s.growEnd x.p cause = (s.fallBack x (x.held.getD 0) cause).poolStep := by
    unfold State.growEnd
    rw [hgrowing]
  rw [hend]
  unfold State.fallBack
  generalize ha : (((s.wr .GEO_GROW_CTRL_REQ 0 x.p).wr .GEO_GROW_WANT_BYTES 0 x.p).count .GEO_COUNTS_FALLBACK 1 x.p).wr
    .GEO_COUNTS_CAUSE cause x.p = a
  have hframe : a.geo = s.geo ∧ a.mem = s.mem := by
    rw [← ha]
    exact ⟨rfl, rfl⟩
  have hresult : a.rd .GEO_GROW_CTRL_RESULT x.p = s.rd .GEO_GROW_CTRL_RESULT x.p := by
    rw [← ha]
    exact (((((FieldsKept.refl [.GEO_GROW_CTRL_REQ, .GEO_GROW_WANT_BYTES, .GEO_COUNTS_FALLBACK, .GEO_COUNTS_CAUSE] s).wr
      (by decide) hi hz).wr (by decide) hi hz).count (by decide) hi hz).wr (by decide) hi hz).rd _ (by decide) _ hi _ hz
  have hreq : a.rd .GEO_GROW_CTRL_REQ x.p = 0 := by
    rw [← ha]
    refine (((((FieldsKept.refl [.GEO_GROW_WANT_BYTES, .GEO_COUNTS_FALLBACK, .GEO_COUNTS_CAUSE] _).wr
      (by decide) hi hz).count (by decide) hi hz).wr (by decide) hi hz).rd _ (by decide) _ hi _ hz).trans ?_
    exact State.rd_wr_same ..
  have hcauseOf : a.rd .GEO_COUNTS_CAUSE x.p = cause := by
    rw [← ha]
    exact State.rd_wr_of_lt _ hcause _ _
  obtain ⟨hgeo, hmem⟩ := hframe
  rw [State.startBroke_eq]
  generalize hy : x.broken (x.held.getD 0) = y
  have hphase : y.phase = .broke := by
    rw [← hy]
    rfl
  have hyp : y.p = x.p ∧ y.cmd = x.cmd := by
    rw [← hy]
    exact ⟨rfl, rfl⟩
  have hput := State.passOf_putPass (s := a) (x := x) (y := y) (by unfold State.passOf; rw [hgeo]; exact hx) hyp.2
  have hkept := fieldsKept_putPass (y := y) a (hyp.1 ▸ hi)
  have hbelow := fieldsBelowSaves_poolStep (a.putPass y)
  have hpool := vatsOnly_poolStep (a.putPass y)
  have hread {f : Field} (hlow : f.ctorIdx < Field.SCH_SAVE_USE_FULL.ctorIdx) (hf : f ∉ showFields) :
      (a.putPass y).poolStep.rd f x.p = a.rd f x.p :=
    (hbelow.rd f hlow _ hi _ hz).trans (hkept.rd f hf _ hi _ hz)
  refine ⟨y.peaked, (hread (by decide) (by decide)).trans hresult, (hread (by decide) (by decide)).trans hreq,
    (hread (by decide) (by decide)).trans hcauseOf, ?_, hphase, hpool.mem.trans ((State.mem_putPass ..).trans hmem)⟩
  unfold State.passOf
  rw [hpool.geo]
  exact hput

/-- The record of a pass whose pool has a further chunk (R197). -/
def Pass.grown (x : Pass) (a size : Nat) : Pass :=
  { x with
    phase := .binning
    chunks := x.chunks + 1
    regions := x.regions ++ [⟨a, a + size * 2 ^ 21, a, a + size * 2 ^ 21⟩] }

/-- A chunk that is granted joins the pool, and binning goes on. -/
theorem State.growGrant_spec {size : Nat} (hgrowing : s.growing p = some x) (hlo : 1 ≤ size) (hhi : size ≤ 32) (hp : x.p = p)
    (hlt : p < 32) :
    ∃ a : State, s.growGrant p size = a.binPass x.cmd ∧ a.rd .GEO_GROW_CTRL_RESULT p = 1 ∧
      a.rd .GEO_GROW_CTRL_REQ p = 0 ∧ a.rd .GEO_GROW_WANT_BYTES p = 0 ∧ a.mem = s.mem ∧
      (s.passOf x.cmd = some x → ∃ y, a.passOf x.cmd = some y ∧ y.phase = .binning ∧ y.chunks = x.chunks + 1 ∧
        y.regions = x.regions ++ [⟨s.addrOf .GEO_GROW_ADDR_ADDR p, s.addrOf .GEO_GROW_ADDR_ADDR p + size * 2 ^ 21,
          s.addrOf .GEO_GROW_ADDR_ADDR p, s.addrOf .GEO_GROW_ADDR_ADDR p + size * 2 ^ 21⟩]) := by
  have hi : p < 65536 := by omega
  have hz : 0 < 65536 := by decide
  have hgrowing' : (s.wr .GEO_GROW_CTRL_SIZE size p).growing p = some x := hgrowing
  have haddr : (s.wr .GEO_GROW_CTRL_SIZE size p).addrOf .GEO_GROW_ADDR_ADDR p = s.addrOf .GEO_GROW_ADDR_ADDR p := by
    unfold State.addrOf
    rw [State.rd_wr_field _ hi hz hi hz (by decide)]
  unfold State.growGrant
  dsimp only
  rw [hgrowing', haddr]
  dsimp only
  rw [if_neg (by simp; omega)]
  generalize ha : (((((s.wr .GEO_GROW_CTRL_SIZE size p).wr .GEO_GROW_CTRL_RESULT 1 p).wr .GEO_GROW_CTRL_REQ 0 p).wr
    .GEO_GROW_WANT_BYTES 0 p).count .GEO_COUNTS_GROWN 1 p) = a
  have hresult : a.rd .GEO_GROW_CTRL_RESULT p = 1 := by
    rw [← ha]
    refine (((((FieldsKept.refl [.GEO_GROW_CTRL_REQ, .GEO_GROW_WANT_BYTES, .GEO_COUNTS_GROWN] _).wr
      (by decide) hi hz).wr (by decide) hi hz).count (by decide) hi hz).rd _ (by decide) _ hi _ hz).trans ?_
    exact State.rd_wr_same ..
  have hreq : a.rd .GEO_GROW_CTRL_REQ p = 0 := by
    rw [← ha]
    refine ((((FieldsKept.refl [.GEO_GROW_WANT_BYTES, .GEO_COUNTS_GROWN] _).wr
      (by decide) hi hz).count (by decide) hi hz).rd _ (by decide) _ hi _ hz).trans ?_
    exact State.rd_wr_same ..
  have hwant : a.rd .GEO_GROW_WANT_BYTES p = 0 := by
    rw [← ha]
    refine (((FieldsKept.refl [.GEO_COUNTS_GROWN] _).count (by decide) hi hz).rd _ (by decide) _ hi _ hz).trans ?_
    exact State.rd_wr_same ..
  have hframe : a.geo = s.geo ∧ a.mem = s.mem := by
    rw [← ha]
    exact ⟨rfl, rfl⟩
  obtain ⟨hgeo, hmem⟩ := hframe
  change ∃ b : State, (a.putPass (x.grown (s.addrOf .GEO_GROW_ADDR_ADDR p) size)).binPass x.cmd = b.binPass x.cmd ∧ _
  generalize hy : x.grown (s.addrOf .GEO_GROW_ADDR_ADDR p) size = y
  have hyp : y.p = p ∧ y.cmd = x.cmd := by
    rw [← hy]
    exact ⟨hp, rfl⟩
  have hkept := fieldsKept_putPass (y := y) a (hyp.1 ▸ hi)
  refine ⟨a.putPass y, rfl, (hkept.rd _ (by decide) _ hi _ hz).trans hresult, (hkept.rd _ (by decide) _ hi _ hz).trans hreq,
    (hkept.rd _ (by decide) _ hi _ hz).trans hwant, (State.mem_putPass ..).trans hmem, fun hx => ⟨y.peaked, ?_, ?_⟩⟩
  · exact State.passOf_putPass (by unfold State.passOf; rw [hgeo]; exact hx) hyp.2
  · rw [← hy]
    exact ⟨rfl, rfl, rfl⟩

/-! ### A broke pass that has been spilled -/

theorem State.brokeSpilled_of_written (h : s.geo.passes = [x]) (hp : x.p = p) (hphase : x.phase = .broke) (htodo : x.todo = [])
    (hflight : x.inflight = []) (hreqs : s.ring.reqs.any (fun r => r.owner = .geo p) = false)
    (hwrites : s.geoWrites p [(x.poolBase, List.replicate (8 * pdTiles x.desc) 0)] = (s1, .ok ())) :
    s.brokeSpilled p = (s1.putPass
      { x with phase := .binning, lists := [], regions := x.emptyPool, segments := x.segments + 1 }).binPass x.cmd := by
  have hfind : s.geo.passes.find? (fun x => x.p = p && x.phase = .broke && x.todo = [] && x.inflight = []) = some x := by
    rw [h]
    simp [hp, hphase, htodo, hflight]
  obtain ⟨writes, hdef⟩ : ∃ f, @State.geoWrites = f := ⟨_, rfl⟩
  rw [hdef] at hwrites
  conv in State.brokeSpilled => delta State.brokeSpilled
  rw [hdef, hfind]
  dsimp only
  rw [if_neg (Bool.eq_false_iff.mp hreqs), hwrites]

end

end Sys2Proof.Machine

namespace Sys2Proof.Claims

open Sys2Proof Sys2Proof.Machine

theorem passesOpenDrawAndEnd : PassesOpenDrawAndEnd := by
  intro s s1 s2 s3 p q c x r d v ids hp
  refine ⟨fun hhead hopen => ?nested, fun hhead hopen hbusy hpart hclass hbase hread hok hhere hwrites hc => ?opened,
    fun hhead hopen => ?refused, fun hhead hrefusing hopen haway hdraws hread hok hprims hfrag hlaunch hids hne hc hx => ?drawn,
    fun hhead hrefusing hopen haway hdraws hphase hruns hx _ => ?ended⟩
  case nested =>
    have hop := atHead_op hhead
    have hrun := atHead_run hhead State.beginHand
    have hrefuse : s.beginHand c = s.refuseHand c 9 := if_pos hopen
    obtain ⟨-, -, hc, hnone⟩ := hhead
    exact ⟨_, congrArg Host.Outcome.next (hrun.trans hrefuse), State.refuseHand_begin hc hop hnone hp⟩
  case opened =>
    have hop := atHead_op hhead
    have hrun := atHead_run hhead State.beginHand
    have hnone : c.result = none := hhead.2.2.2
    rw [State.beginHand_of_read hopen hbusy hpart hclass hbase hread hok hhere hwrites] at hrun
    obtain ⟨hdone, hpasses, hmem⟩ := State.openPass_spec (x := s1.newPass c d (poolBytes r.poolClass) false) hc hop hnone
    exact ⟨_, _, congrArg Host.Outcome.next hrun, hdone, hpasses, rfl, rfl, rfl, rfl, rfl, rfl, rfl, rfl, rfl, hmem⟩
  case refused =>
    have hop := atHead_op hhead
    have hrun := atHead_run hhead State.drawHand
    have hrefuse : s.drawHand c = s.refuseHand c 9 := by
      unfold State.drawHand
      rw [hopen]
      exact ite_self _
    obtain ⟨-, -, hc, hnone⟩ := hhead
    have hgeo : c.op ≠ 0x10 := by rw [hop]; decide
    have hbal : engineOf c.op ≠ 3 := by rw [hop]; decide
    obtain ⟨hcmd, hvalid⟩ := State.refuseHand_spec (reason := 9) hc hgeo hbal hnone hp
    refine ⟨_, congrArg Host.Outcome.next (hrun.trans hrefuse), hcmd, hvalid, ?_⟩
    have hgeoRefuse : s.refuseHand c 9 = (s.hand c.id).geoRefuse c.p c.op c.id 9 := if_neg hgeo
    rw [hgeoRefuse, State.hand_eq hc hgeo hbal]
    unfold State.geoRefuse
    dsimp only
    split_ifs <;> rfl
  case drawn =>
    obtain ⟨y, hcmd, hy, hdr, hl, hmem⟩ := State.addDraw_spec (d := d) (v := v) (fr := none) hc (atHead_op hhead) hx hdraws hne
    have hdraw := State.drawHand_of_read hrefusing hopen haway hdraws hread hok hprims
      (State.drawRead_of_read hfrag hlaunch hids) hcmd (by simp)
    exact ⟨_, y, drawRec c d v none, congrArg Host.Outcome.next ((atHead_run hhead State.drawHand).trans hdraw), hcmd, hy, hdr,
      rfl, rfl, rfl, rfl, hl, rfl, hmem⟩
  case ended =>
    obtain ⟨y, hcmd, hy, hspec⟩ := State.endHand_spec (atHead_op hhead) hhead.2.2.1 hrefusing hopen haway hdraws hphase hruns hx
    exact ⟨_, y, congrArg Host.Outcome.next (atHead_run hhead State.endHand), hcmd, hy, hspec⟩

theorem poolsGrowOrBreak : PoolsGrowOrBreak := by
  intro s s1 fn p size x hp
  have hi : p.val < 65536 := by omega
  have hz : 0 < 65536 := by decide
  refine ⟨fun hmay hon hnone => ⟨?lateGrant, ?lateDeny⟩, fun hmay hon hgrowing hlo hhi => ?granted,
    fun hgrowing hx => ⟨fun hmay hon => ?denied, fun hlive hruns => ?patience⟩,
    fun hlive hpasses hphase htodo hflight hreqs hwrites hpasses1 => ?spilled⟩
  case lateGrant =>
    have hlate : s.growGrant p size.toNat = (s.wr .GEO_GROW_CTRL_SIZE size.toNat p).wr .GEO_GROW_CTRL_RESULT 3 p := by
      have hnone' : (s.wr .GEO_GROW_CTRL_SIZE size.toNat p).growing p = none := hnone
      unfold State.growGrant
      dsimp only
      rw [hnone']
    refine ⟨_, congrArg Host.Outcome.next ((if_pos hmay).trans ((congrArg (State.growGrant · p size.toNat)
      (State.wakeNow_of_on hon)).trans hlate)), State.rd_wr_same .., ?_⟩
    exact onlyRegs_mono (onlyRegs_trans (onlyRegs_wr s .GEO_GROW_CTRL_SIZE size.toNat hi hz)
      (onlyRegs_wr _ .GEO_GROW_CTRL_RESULT 3 hi hz)) (by simp)
  case lateDeny =>
    refine ⟨_, congrArg Host.Outcome.next ((if_pos hmay).trans ?_), State.rd_wr_same .., onlyRegs_wr s _ 3 hi hz⟩
    dsimp only
    rw [State.wakeNow_of_on hon, hnone]
  case granted =>
    obtain ⟨a, hgrant, hspec⟩ := State.growGrant_spec hgrowing hlo hhi hp p.isLt
    exact ⟨a, congrArg Host.Outcome.next ((if_pos hmay).trans ((congrArg (State.growGrant · p size.toNat)
      (State.wakeNow_of_on hon)).trans hgrant)), hspec⟩
  case denied =>
    obtain ⟨y, hresult, hreq, hcause, hy, hphase, hmem⟩ := State.growEnd_spec (s := s.wr .GEO_GROW_CTRL_RESULT 2 p) (cause := 1)
      hgrowing hx hp p.isLt (by decide)
    refine ⟨_, y, congrArg Host.Outcome.next ((if_pos hmay).trans ?_), hresult.trans (State.rd_wr_same ..), hreq, hcause, hy,
      hphase, hmem⟩
    dsimp only
    rw [State.wakeNow_of_on hon, hgrowing]
  case patience =>
    obtain ⟨y, -, hspec⟩ := State.growEnd_spec (cause := 2) hgrowing hx hp p.isLt (by decide)
    exact ⟨_, y, congrArg Host.Outcome.next (if_pos (by simp [hlive, hruns])), hspec⟩
  case spilled =>
    have hput := State.passOf_putPass (s := s1) (x := x)
      (y := { x with phase := .binning, lists := [], regions := x.emptyPool, segments := x.segments + 1 })
      (State.passOf_one hpasses1) rfl
    exact ⟨_, _, congrArg Host.Outcome.next ((if_pos hlive).trans
      (State.brokeSpilled_of_written hpasses hp hphase htodo hflight hreqs hwrites)), hput, rfl, rfl, rfl, rfl,
      State.mem_putPass ..⟩

/-- Settles O41: the hand-offs of the three geometry commands, and the ends of a grow request and of a broke pass. -/
theorem passesAndPools : Obligations.PassesAndPools := ⟨passesOpenDrawAndEnd, poolsGrowOrBreak⟩

end Sys2Proof.Claims
end

