-- ==== Sys2Proof/Proofs/ExitRefuted.lean ====
section
/-!
PROOF. An EXIT in a vat whose store of quires is not in ascending order of slots: putting the quire back leaves its earlier
record behind a quire of a higher slot, so the block still has a live quire and stays in the vat.
-/

namespace Sys2Proof.Machine
open Sys2Proof.Claims

/-- A launch of two blocks whose code is one EXIT. -/
def exitLaunch : Launch where
  id := 0
  p := 0
  use := .compute 0
  mod := { bytes := [], entry := 0, handler := none, vregs := 8, mn3 := false, code := [0x7800000000000000#64] }
  code := 0
  const := 0
  csize := 0
  gx := 2
  gy := 1
  gz := 1
  bx := 32
  by' := 1
  bz := 1
  vregs := 8
  lbytes := 0
  mbytes := 0
  bbytes := 0
  split := []
  mn3 := false
  patience := 0
  trap := false
  tag := 0
  total := 2
  next := 2
  retired := 0
  tiles := []
  payload := []

/-- A quire of a block at the launch's EXIT with its lane 0 active. -/
def exitQuire (block : Nat) : Quire where
  block := block
  idx := 0
  sched := 0
  active := 1
  exited := 0
  pc := 0

/-- A vat with two blocks of that launch, of one quire each, the quire of slot 1 first in the store. -/
def exitVat : Vat where
  quires := [(1, exitQuire 1), (0, exitQuire 0)]
  blocks := [(0, { launch := 0, index := 0 }), (1, { launch := 0, index := 1 })]

/-- A chip whose vat 0 is that vat. -/
def exitChip : State := { State.reset with regs := [], vats := [(0, exitVat)], launches := [(0, exitLaunch)] }

theorem exitChip_ownsNoLock (vat slot : Nat) : exitChip.ownedLocks vat slot = [] :=
  List.filter_eq_nil_iff.mpr fun h _ => by
    have htype : exitChip.objType h = 0 := rfl
    simp [htype]

/-- The EXIT that the quire of slot 0 is at. -/
def exitCtx : BCtx where
  vat := 0
  slot := 0
  q := exitQuire 0
  blk := { launch := 0, index := 0 }
  l := exitLaunch
  i := ⟨0, 0x78, 0, false, 0, 0, 0, 0, 0, 0, 0, 1⟩

end Sys2Proof.Machine

namespace Sys2Proof.Claims

open Sys2Proof Sys2Proof.Machine

theorem exitChip_issues : Issues exitChip 0 0 0x78 exitCtx where
  live := by decide +kernel
  ready := by decide +kernel
  inst := by decide +kernel
  code := rfl
  place := ⟨rfl, rfl⟩
  lanes := by decide +kernel
  legal := by decide +kernel
  range := by decide +kernel
  calm := by decide +kernel

theorem exitChip_alone : Alone exitChip exitCtx := by
  unfold Alone
  decide +kernel

theorem exitChip_keeps_its_block : ∀ u, exec (.exit 0 0) exitChip = .next u → u.block 0 0 ≠ none := by
  have hrun : (match exec (.exit 0 0) exitChip with
      | .next u => (u.block 0 0).isSome
      | _ => false) = true := by decide +kernel
  intro u hu hnone
  rw [hu] at hrun
  dsimp only at hrun
  rw [hnone] at hrun
  exact absurd hrun (by decide)

/-- Refutes O31: with the store of a vat's quires out of order, the exit of the last lanes of a block's only quire does not
retire the block. -/
theorem not_lanesJoinExitAndMeet : ¬ Obligations.LanesJoinExitAndMeet := by
  intro h
  obtain ⟨-, -, -, hlast⟩ := h.1 exitChip 0 0 exitCtx
  obtain ⟨u, hu, ⟨hgone, -⟩, -⟩ := hlast exitChip_issues exitChip_alone (by decide +kernel) (by decide +kernel)
    (exitChip_ownsNoLock 0 0) (by decide)
  exact exitChip_keeps_its_block u hu hgone

end Sys2Proof.Claims
end

