-- ==== Sys2Proof/Proofs/Faults.lean ====
section
/-!
PROOF. Faults of quires (R79 to R84, R122, R123): the entry into a handler, its ends, and the teardown of a fault that no handler
takes (R315).
-/

namespace Sys2Proof.Machine
open Sys2Proof.Claims

section
variable {s t u : State} {vat slot : Nat} {q : Quire} {b : Block} {l : Launch} {hd next p n : Nat} {e : Ev}

/-! ### Entries of a store -/

theorem mem_of_storeFind {α : Type} {m : List (Nat × α)} {k : Nat} {x : α} (h : storeFind m k = some x) : (k, x) ∈ m := by
  induction m with
  | nil => cases h
  | cons e r ih =>
    rw [storeFind] at h
    split_ifs at h with hk
    · cases h
      rw [hk]
      exact List.mem_cons_self ..
    · exact List.mem_cons_of_mem _ (ih h)

/-- A vat after a change of every vat that keeps their numbers and their quires and blocks. -/
theorem storeGet_map_vats {f : Nat × Vat → Nat × Vat} {P : Vat → Vat → Prop} (hkey : ∀ e, (f e).1 = e.1)
    (hval : ∀ e, P e.2 (f e).2) (hnone : P {} {}) (vats : List (Nat × Vat)) (n : Nat) :
    P (storeGet {} vats n) (storeGet {} (vats.map f) n) := by
  induction vats with
  | nil => exact hnone
  | cons e r ih =>
    rw [List.map_cons]
    simp only [storeGet, hkey]
    split_ifs
    · exact hval e
    · exact ih

/-! ### A quire that may issue -/

/-- What a quire that may issue belongs to. -/
theorem State.of_ready (h : s.ready vat slot = some (q, b, l)) :
    s.quire vat slot = some q ∧ q.wait = .run ∧ s.block vat q.block = some b ∧ s.launch b.launch = some l := by
  unfold State.ready at h
  split at h
  next => cases h
  next q' hq =>
    split at h
    next => cases h
    next hwait =>
      split at h
      next => cases h
      next b' hb =>
        split at h
        next => cases h
        next =>
          obtain ⟨l', hl, he⟩ := Option.map_eq_some_iff.mp h
          cases he
          exact ⟨hq, not_not.mp hwait, hb, hl⟩

theorem Quire.live_of_run (h : q.wait = .run) : q.live = true := by
  unfold Quire.live
  rw [h]
  rfl

/-! ### The entry into a handler (R122) -/

theorem indexed_six (a b c d e f : Nat) : indexed [a, b, c, d, e, f] = [(0, a), (1, b), (2, c), (3, d), (4, e), (5, f)] := rfl

theorem Quire.enterTrap_spec (q : Quire) (status hd next live : Nat) :
    let x := q.enterTrap status hd next live
    x.pc = hd ∧ x.sreg 56 = status % 2 ^ 32 ∧ x.sreg 57 = q.active.toNat ∧ x.sreg 58 = q.pc % 2 ^ 32 ∧
      x.sreg 59 = next % 2 ^ 32 := by
  have hs {r : Nat} : (q.enterTrap status hd next live).sreg r =
      ((indexed [status, q.active.toNat, q.pc, next, b2n (blockScope status), if blockScope status then live else 0]).foldl
        (fun (q : Quire) x => q.putReg (256 + 56 + x.1) 0 x.2) q).sreg r := by
    unfold Quire.enterTrap
    extract_lets save vals q1
    change _ = q1.sreg r
    generalize q1 = x
    rfl
  have hactive : q.active.toNat % 2 ^ 32 = q.active.toNat := Nat.mod_eq_of_lt q.active.isLt
  rw [indexed_six] at hs
  simp only [List.foldl_cons, List.foldl_nil] at hs
  have hput {q : Quire} {r k x : Nat} (hk : k < 8) :
      (q.putReg (256 + 56 + k) 0 x).sreg r = if 256 + r = 256 + 56 + k then x % 2 ^ 32 else q.sreg r :=
    Quire.sreg_putReg _ _ _ (by omega) (by omega)
  refine ⟨rfl, ?_, ?_, ?_, ?_⟩
  · rw [hs, hput (by decide), if_neg (by decide), hput (by decide), if_neg (by decide), hput (by decide), if_neg (by decide),
      hput (by decide), if_neg (by decide), hput (by decide), if_neg (by decide), hput (by decide), if_pos (by decide)]
  · rw [hs, hput (by decide), if_neg (by decide), hput (by decide), if_neg (by decide), hput (by decide), if_neg (by decide),
      hput (by decide), if_neg (by decide), hput (by decide), if_pos (by decide), hactive]
  · rw [hs, hput (by decide), if_neg (by decide), hput (by decide), if_neg (by decide), hput (by decide), if_neg (by decide),
      hput (by decide), if_pos (by decide)]
  · rw [hs, hput (by decide), if_neg (by decide), hput (by decide), if_neg (by decide), hput (by decide), if_pos (by decide)]

/-- A fault of one quire that its launch's handler takes. -/
theorem State.raiseFault_of_handler {status : Nat} (hq : s.quire vat slot = some q) (hlive : q.live = true)
    (hb : s.block vat q.block = some b) (hl : s.launch b.launch = some l) (hscope : blockScope status = false)
    (htake : trappable status = true) (hhandler : l.mod.handler = some hd) (htrap : l.trap = true) (hnone : q.trap = none) :
    s.raiseFault vat slot status = s.setQuire vat slot (q.enterTrap status hd ((decodeInst l.mod.code q.pc).elim q.pc BInst.next)
      ((s.vat vat).liveQuires q.block)) := by
  have hb' : storeFind (s.vat vat).blocks q.block = some b := hb
  unfold State.raiseFault
  rw [hq]
  dsimp only
  rw [hscope, if_neg Bool.false_ne_true]
  dsimp only
  rw [hb']
  dsimp only
  rw [hl]
  dsimp only
  rw [hhandler]
  dsimp only
  rw [if_pos (by simp [htrap, htake, hnone, hlive])]
  cases decodeInst l.mod.code q.pc <;> rfl

/-- A fault of a whole block that its launch's handler takes in its first live quire. -/
theorem State.raiseFault_of_blockHandler {status : Nat} (hq : s.quire vat slot = some q) (hlive : q.live = true)
    (hfirst : (s.vat vat).firstLive q.block = some (slot, q)) (hb : s.block vat q.block = some b)
    (hl : s.launch b.launch = some l) (hscope : blockScope status = true) (htake : trappable status = true)
    (hhandler : l.mod.handler = some hd) (htrap : l.trap = true) (hnone : q.trap = none) :
    s.raiseFault vat slot status = (s.setQuire vat slot (q.enterTrap status hd
      ((decodeInst l.mod.code q.pc).elim q.pc BInst.next) ((s.vat vat).liveQuires q.block))).setBlock vat q.block
        { b with handler := some slot } := by
  have hb' : storeFind (s.vat vat).blocks q.block = some b := hb
  unfold State.raiseFault
  rw [hq]
  dsimp only
  rw [hscope, if_pos rfl, hfirst]
  dsimp only [Option.getD]
  rw [hb']
  dsimp only
  rw [hl]
  dsimp only
  rw [hhandler]
  dsimp only
  rw [if_pos (by simp [htrap, htake, hnone, hlive])]
  cases decodeInst l.mod.code q.pc <;> rfl

end

/-! ### The teardown of a fault (R315) -/

section
variable {s t u : State} {vat slot : Nat} {q : Quire} {b : Block} {l : Launch} {p n : Nat} {e : Ev}

/-- What a change of the vats keeps of every vat: its quires and its blocks; of the pre-emptions it keeps none that was not. -/
structure QuiresKept (s t : State) : Prop where
  quires : ∀ n, (t.vat n).quires = (s.vat n).quires
  blocks : ∀ n, (t.vat n).blocks = (s.vat n).blocks
  preempt : ∀ n, (s.vat n).preempt = [] → (t.vat n).preempt = []

theorem QuiresKept.trans (h : QuiresKept s t) (k : QuiresKept t u) : QuiresKept s u where
  quires n := (k.quires n).trans (h.quires n)
  blocks n := (k.blocks n).trans (h.blocks n)
  preempt n hn := k.preempt n (h.preempt n hn)

theorem quiresKept_of_vats (h : t.vats = s.vats) : QuiresKept s t where
  quires n := by rw [State.vat_congr h]
  blocks n := by rw [State.vat_congr h]
  preempt n hn := by rwa [State.vat_congr h]

theorem quiresKept_emptyPreloads (s : State) (c : StopCause) : QuiresKept s (s.emptyPreloads c) := by
  have h (n : Nat) : let v := s.vat n; let w := (s.emptyPreloads c).vat n
      w.quires = v.quires ∧ w.blocks = v.blocks ∧ w.preempt = v.preempt := by
    unfold State.vat State.emptyPreloads
    refine storeGet_map_vats (P := fun v w => w.quires = v.quires ∧ w.blocks = v.blocks ∧ w.preempt = v.preempt) (fun e => ?_)
      (fun e => ?_) ⟨rfl, rfl, rfl⟩ s.vats n
    · split
      · split
        · split_ifs <;> rfl
        · rfl
      · rfl
    · split
      · split
        · split_ifs <;> exact ⟨rfl, rfl, rfl⟩
        · exact ⟨rfl, rfl, rfl⟩
      · exact ⟨rfl, rfl, rfl⟩
  exact ⟨fun n => (h n).1, fun n => (h n).2.1, fun n hn => (h n).2.2.trans hn⟩

/-- The pre-emptions of a partition's blocks are forgotten. -/
def State.forgetPreempts (s : State) (p : Nat) : State :=
  { s with vats := s.vats.map (fun (v : Nat × Vat) => (v.1, { v.2 with preempt := v.2.preempt.filter (fun x => x ≠ p) })) }

theorem quiresKept_forgetPreempts (s : State) (p : Nat) : QuiresKept s (s.forgetPreempts p) := by
  have h (n : Nat) : let v := s.vat n; let w := (s.forgetPreempts p).vat n
      w.quires = v.quires ∧ w.blocks = v.blocks ∧ w.preempt = v.preempt.filter (fun x => x ≠ p) := by
    unfold State.vat State.forgetPreempts
    exact storeGet_map_vats (f := fun v => (v.1, { v.2 with preempt := v.2.preempt.filter (fun x => x ≠ p) }))
      (P := fun v w => w.quires = v.quires ∧ w.blocks = v.blocks ∧ w.preempt = v.preempt.filter (fun x => x ≠ p))
      (fun _ => rfl) (fun _ => ⟨rfl, rfl, rfl⟩) ⟨rfl, rfl, rfl⟩ s.vats n
  exact ⟨fun n => (h n).1, fun n => (h n).2.1, fun n hn => (h n).2.2.trans (by rw [hn]; rfl)⟩

/-- The registers that a teardown may change beside the partition's fault registers. -/
def tearFields : List Field := .XLT_MIG_USED :: raiseFields

theorem fieldsKept_dropMigrations (s : State) (p : Nat) : FieldsKept tearFields s (s.dropMigrations p) := by
  unfold State.dropMigrations
  refine .of_regs (t := ((List.range 64).filter (fun e => s.rd .XLT_MIG_USED e = 1 && s.rd .XLT_MIG_PART e = p)).foldl
    (fun (s : State) e => s.wr .XLT_MIG_USED 0 e) s) rfl ?_
  refine List.foldlRecOn _ _ (.refl ..) fun t ht n hn => ht.wr (by decide) ?_ (by decide)
  have := List.mem_range.mp (List.mem_filter.mp hn).1
  omega

theorem State.dropMigrations_frame (s : State) (p : Nat) : s.dropMigrations p =
    { s with regs := (s.dropMigrations p).regs, xlt := (s.dropMigrations p).xlt } := by
  have h : ∀ l : List Nat, l.foldl (fun (s : State) e => s.wr .XLT_MIG_USED 0 e) s =
      { s with regs := (l.foldl (fun (s : State) e => s.wr .XLT_MIG_USED 0 e) s).regs } := fun l =>
    List.foldlRecOn (motive := fun t : State => t = { s with regs := t.regs }) l _ rfl fun t ht n _ => by
      rw [ht]
      rfl
  unfold State.dropMigrations
  dsimp only
  rw [h]

theorem State.tellMembers_spec (s : State) (c : StopCause) :
    WorkKept s (s.tellMembers c) ∧ FieldsKept raiseFields s (s.tellMembers c) := by
  unfold State.tellMembers
  refine ⟨((Keeps.refl True s).foldl fun ht => ht.feltReq).work trivial, ?_⟩
  exact .foldl (f := fun (s : State) m => s.feltReq m 7 c.part ([0x09, 0, 0, 0] ++ [4, 0] ++ toLe 2 (funcIdent m c.part)) .ctl)
    (fun s m => fieldsKept_feltReq) _ s

/-- A partition with a block in a vat has an engine to wait for. -/
theorem State.holders_ne_nil (hn : n < 64) (hb : s.block n slot = some b) (hl : s.launch b.launch = some l) (hp : l.p = p) :
    s.holders (.fault p) ≠ [] := by
  have hmem : n ∈ s.scopeVats (.fault p) := by
    refine List.mem_filter.mpr ⟨List.mem_range.mpr hn, List.any_eq_true.mpr ⟨(slot, b), mem_of_storeFind hb, ?_⟩⟩
    dsimp only
    rw [hl]
    simp [State.inScope, hp]
  have hvat : EngineUnit.vat (Fin.ofNat 64 n) ∈ s.holders (.fault p) := by
    unfold State.holders
    simp only [List.append_assoc]
    exact List.mem_append_left _ (List.mem_map_of_mem hmem)
  exact List.ne_nil_of_mem hvat

/-- A partition's preloads, saved blocks, pre-emptions and migrations are forgotten. -/
def State.forgetWork (s : State) (p : Nat) : State :=
  (({ s.emptyPreloads (.fault p) with sched := { s.sched with saved := s.sched.saved.filter (fun x => x.p ≠ p) } } :
    State).forgetPreempts p).dropMigrations p

theorem State.forgetWork_spec (s : State) (p : Nat) :
    QuiresKept s (s.forgetWork p) ∧ FieldsKept tearFields s (s.forgetWork p) ∧ (s.forgetWork p).launches = s.launches := by
  have hpreloads : QuiresKept s ({ s.emptyPreloads (.fault p) with
      sched := { s.sched with saved := s.sched.saved.filter (fun x => x.p ≠ p) } } : State) :=
    (quiresKept_emptyPreloads s (.fault p)).trans (quiresKept_of_vats rfl)
  have hforget := hpreloads.trans (quiresKept_forgetPreempts _ p)
  have hkeep : (({ s.emptyPreloads (.fault p) with
      sched := { s.sched with saved := s.sched.saved.filter (fun x => x.p ≠ p) } } : State).forgetPreempts p).regs = s.regs ∧
    (({ s.emptyPreloads (.fault p) with
      sched := { s.sched with saved := s.sched.saved.filter (fun x => x.p ≠ p) } } : State).forgetPreempts p).launches =
        s.launches := ⟨rfl, rfl⟩
  unfold State.forgetWork
  generalize ({ s.emptyPreloads (.fault p) with
    sched := { s.sched with saved := s.sched.saved.filter (fun x => x.p ≠ p) } } : State).forgetPreempts p = a at hforget hkeep
  have hdrop := State.dropMigrations_frame a p
  have hdropR := fieldsKept_dropMigrations a p
  generalize a.dropMigrations p = d at hdrop hdropR
  have hdropK : d.vats = a.vats ∧ d.launches = a.launches := by
    rw [hdrop]
    exact ⟨rfl, rfl⟩
  exact ⟨hforget.trans (quiresKept_of_vats hdropK.1), (fieldsKept_of_regs hkeep.1).trans hdropR, hdropK.2.trans hkeep.2⟩

/-- A teardown that starts, in the steps that follow one another. -/
theorem State.tearDownHome_eq (hreclaim : s.rd .HB_RECLAIM_RUNNING p = 0) (hfaulted : s.rd .SCH_FAULT_CTRL_FAULTED p = 0)
    (hsome : ((((s.wr .SCH_FAULT_STATUS e.status p).wr .SCH_FAULT_CTRL_FAULTED 1 p).raisePart p e).forgetWork p).holders
      (.fault p) ≠ []) :
    s.tearDownHome p e =
      let a := (((s.wr .SCH_FAULT_STATUS e.status p).wr .SCH_FAULT_CTRL_FAULTED 1 p).raisePart p e).forgetWork p
      let b := (a.tellMembers (.fault p)).takeId.2
      { b with hb := { b.hb with
        stops := b.hb.stops ++ [⟨(a.tellMembers (.fault p)).nextId, .fault p, a.holders (.fault p)⟩] } } := by
  unfold State.tearDownHome
  rw [if_neg (by rw [hreclaim]; decide), if_neg (by rw [hfaulted]; decide)]
  exact if_neg hsome

/-- What the teardown of a partition with a block in a vat leaves, on its home chip. -/
structure TornDown (s u : State) (p status : Nat) : Prop where
  quires : QuiresKept s u
  fields : FieldsKept (.SCH_FAULT_STATUS :: .SCH_FAULT_CTRL_FAULTED :: tearFields) s u
  faulted : u.rd .SCH_FAULT_CTRL_FAULTED p = 1
  status : u.rd .SCH_FAULT_STATUS p = status
  stop : ∃ x ∈ u.hb.stops, x.cause = .fault p

theorem State.tornDown_tearDownHome (hp : p < 32) (hreclaim : s.rd .HB_RECLAIM_RUNNING p = 0)
    (hfaulted : s.rd .SCH_FAULT_CTRL_FAULTED p = 0) (hn : n < 64) (hb : s.block n slot = some b)
    (hl : s.launch b.launch = some l) (hlp : l.p = p) (hstatus : e.status < 2 ^ 32) :
    TornDown s (s.tearDownHome p e) p e.status := by
  have hi : p < 65536 := by omega
  have heq := State.tearDownHome_eq (e := e) hreclaim hfaulted
  dsimp only at heq
  generalize hs0 : (s.wr .SCH_FAULT_STATUS e.status p).wr .SCH_FAULT_CTRL_FAULTED 1 p = s0 at heq
  have hwrite : FieldsKept [.SCH_FAULT_STATUS, .SCH_FAULT_CTRL_FAULTED] s s0 := by
    rw [← hs0]
    exact ((FieldsKept.refl ..).wr (by decide) hi (by decide)).wr (by decide) hi (by decide)
  have hfault0 : s0.rd .SCH_FAULT_CTRL_FAULTED p = 1 := by
    rw [← hs0]
    exact State.rd_wr_same ..
  have hstatus0 : s0.rd .SCH_FAULT_STATUS p = e.status := by
    rw [← hs0, State.rd_wr_field _ hi (by decide) hi (by decide) (by decide)]
    exact State.rd_wr_of_lt _ hstatus _ _
  have hkeep0 : s0.vats = s.vats ∧ s0.launches = s.launches := by
    rw [← hs0]
    exact ⟨rfl, rfl⟩
  have hraised := ((Keeps.refl True s0).raisePart (p := p) (e := e)).work trivial
  have hraisedRegs : FieldsKept raiseFields s0 (s0.raisePart p e) := fieldsKept_raisePart hi
  generalize s0.raisePart p e = s1 at hraised hraisedRegs heq
  obtain ⟨hforget, hforgetR, hforgetL⟩ := State.forgetWork_spec s1 p
  generalize s1.forgetWork p = s4 at hforget hforgetR hforgetL heq
  have hquires : QuiresKept s s4 := (quiresKept_of_vats (hraised.vats.trans hkeep0.1)).trans hforget
  have hlaunches : s4.launches = s.launches := hforgetL.trans (hraised.launches.trans hkeep0.2)
  have hblock : s4.block n slot = some b := by
    unfold State.block
    rw [hquires.blocks]
    exact hb
  have hlaunch : s4.launch b.launch = some l := by
    unfold State.launch
    rw [hlaunches]
    exact hl
  replace heq := heq (State.holders_ne_nil hn hblock hlaunch hlp)
  obtain ⟨htell, htellR⟩ := State.tellMembers_spec s4 (.fault p)
  generalize s4.tellMembers (.fault p) = s5 at htell htellR heq
  have hregs : FieldsKept tearFields s0 s5 :=
    ((hraisedRegs.mono (by decide)).trans hforgetR).trans (htellR.mono (by decide))
  rw [heq]
  exact {
    quires := hquires.trans ((quiresKept_of_vats htell.vats).trans (quiresKept_of_vats rfl))
    fields := .of_regs (t := s5) rfl ((hwrite.mono (by decide)).trans (hregs.mono (by decide)))
    faulted := (hregs.rd _ (by decide) _ hi _ (by decide)).trans hfault0
    status := (hregs.rd _ (by decide) _ hi _ (by decide)).trans hstatus0
    stop := ⟨_, List.mem_append_right _ (List.mem_singleton_self _), rfl⟩ }

/-- What a fault of one quire leaves that goes to its partition's fault path (R81, R83, R315). -/
structure FaultReported (s u : State) (vat slot : Nat) (q : Quire) (p status : Nat) : Prop where
  quire : u.quire vat slot = some { q with wait := .held }
  calm : (s.vat vat).preempt = [] → (u.vat vat).preempt = []
  valid : u.rd .VAT_FAULT_WHO_VALID vat = 1
  vatStatus : u.rd .VAT_FAULT_STATUS_STATUS vat = status
  faulted : u.rd .SCH_FAULT_CTRL_FAULTED p = 1
  status : u.rd .SCH_FAULT_STATUS p = status
  stop : ∃ x ∈ u.hb.stops, x.cause = .fault p

/-- The fields of a vat's fault record (R83). -/
def faultFields : List Field :=
  [.VAT_FAULT_WHO_VALID, .VAT_FAULT_WHO_PART, .VAT_FAULT_WHO_QUIRE, .VAT_FAULT_WHO_BLOCK, .VAT_FAULT_STATUS_STATUS,
    .VAT_FAULT_PC_PC, .VAT_FAULT_LANES_LANES]

theorem State.recordFault_spec {blk part status pc lanes : Nat} (hvat : vat < 64) (hnone : s.rd .VAT_FAULT_WHO_VALID vat = 0)
    (hstatus : status < 2 ^ 32) :
    let u := s.recordFault vat slot blk part status pc lanes
    u = { s with regs := u.regs } ∧ FieldsKept faultFields s u ∧ u.rd .VAT_FAULT_WHO_VALID vat = 1 ∧
      u.rd .VAT_FAULT_STATUS_STATUS vat = status := by
  have hi : vat < 65536 := by omega
  have hz : 0 < 65536 := by decide
  unfold State.recordFault State.wrAddr
  rw [if_neg (by rw [hnone]; decide)]
  refine ⟨rfl, ?_, ?_, ?_⟩
  · exact (((((((FieldsKept.refl ..).wr (by decide) hi hz).wr (by decide) hi hz).wr (by decide) hi hz).wr (by decide) hi hz).wr
      (by decide) hi hz).wr (by decide) hi hz).wr (by decide) hi hz
  · refine ((((((((FieldsKept.refl (faultFields.drop 1) _).wr (by decide) hi hz).wr (by decide) hi hz).wr (by decide) hi hz).wr
      (by decide) hi hz).wr (by decide) hi hz).wr (by decide) hi hz).rd _ (by decide) _ hi _ hz).trans ?_
    exact State.rd_wr_same ..
  · refine (((((FieldsKept.refl (faultFields.drop 5) _).wr (by decide) hi hz).wr (by decide) hi hz)).rd _ (by decide) _ hi _
      hz).trans ?_
    exact State.rd_wr_of_lt _ hstatus _ _

theorem State.faultReported {status word lanes : Nat} (hvat : vat < 64) (hp : l.p < 32) (hhomed : s.homed l.p = true)
    (hnone : s.rd .VAT_FAULT_WHO_VALID vat = 0) (hreclaim : s.rd .HB_RECLAIM_RUNNING l.p = 0)
    (hfaulted : s.rd .SCH_FAULT_CTRL_FAULTED l.p = 0) (hb : s.block vat q.block = some b)
    (hl : s.launch b.launch = some l) (hscope : blockScope status = false) (hstatus : status < 2 ^ 32) :
    FaultReported s (s.reportFault vat slot q l status word lanes) vat slot q l.p status := by
  have hi : vat < 65536 := by omega
  have hpi : l.p < 65536 := by omega
  have hz : 0 < 65536 := by decide
  have hreport : s.reportFault vat slot q l status word lanes =
      ((s.setQuire vat slot { q with wait := .held }).recordFault vat slot q.block l.p status (l.nativePc word) lanes).tearDown
        l.p 0 status vat 0 (l.nativePc word) l.tag := by
    unfold State.reportFault
    simp only [hscope, Bool.false_eq_true, if_false]
    rfl
  have hheld : (s.setQuire vat slot { q with wait := .held }).quire vat slot = some { q with wait := .held } :=
    State.quire_setQuire_same ..
  have hblock : (s.setQuire vat slot { q with wait := .held }).block vat q.block = some b :=
    (State.block_setQuire ..).trans hb
  have hcalm : ((s.setQuire vat slot { q with wait := .held }).vat vat).preempt = (s.vat vat).preempt := by
    rw [State.vat_setQuire]
  rw [hreport]
  have hkeep : (s.setQuire vat slot { q with wait := .held }).regs = s.regs ∧
      (s.setQuire vat slot { q with wait := .held }).launches = s.launches ∧
      (s.setQuire vat slot { q with wait := .held }).pins = s.pins ∧
      (s.setQuire vat slot { q with wait := .held }).furn = s.furn := ⟨rfl, rfl, rfl, rfl⟩
  generalize s.setQuire vat slot { q with wait := .held } = a at hheld hblock hcalm hkeep
  obtain ⟨hregs, hlaunches, hpins, hfurn⟩ := hkeep
  obtain ⟨hframe, hfields, hvalid, hshown⟩ := State.recordFault_spec (s := a) (slot := slot) (blk := q.block) (part := l.p)
    (pc := l.nativePc word) (lanes := lanes) hvat ((State.rd_congr hregs _ _ _).trans hnone) hstatus
  generalize a.recordFault vat slot q.block l.p status (l.nativePc word) lanes = r at hframe hfields hvalid hshown
  have hrhomed : r.homed l.p = true := by
    rw [hframe]
    exact (State.homed_congr hpins hfurn _).trans hhomed
  have hrd {f : Field} (hf : f ∉ faultFields) : r.rd f l.p = s.rd f l.p :=
    (hfields.rd f hf _ hpi _ hz).trans (State.rd_congr hregs _ _ _)
  have hrvats : r.vats = a.vats := by rw [hframe]
  have hrlaunch : r.launch b.launch = some l := by
    rw [hframe]
    unfold State.launch
    rw [show ({ a with regs := r.regs } : State).launches = s.launches from hlaunches]
    exact hl
  have hrblock : r.block vat q.block = some b := by
    unfold State.block
    rw [State.vat_congr hrvats]
    exact hblock
  have htear : r.tearDown l.p 0 status vat 0 (l.nativePc word) l.tag =
      r.tearDownHome l.p (faultEv r.pos l.p 0 status vat 0 (l.nativePc word) l.tag) := by
    unfold State.homed at hrhomed
    unfold State.tearDown
    split at hrhomed
    · cases hrhomed
    next x hx =>
      rw [hx]
      exact if_pos (by simpa using hrhomed)
  have hdown := State.tornDown_tearDownHome (e := faultEv r.pos l.p 0 status vat 0 (l.nativePc word) l.tag) hp
    ((hrd (by decide)).trans hreclaim) ((hrd (by decide)).trans hfaulted) hvat hrblock hrlaunch rfl hstatus
  rw [htear]
  generalize r.tearDownHome l.p (faultEv r.pos l.p 0 status vat 0 (l.nativePc word) l.tag) = u at hdown
  exact {
    quire := by
      unfold State.quire
      rw [hdown.quires.quires, State.vat_congr hrvats]
      exact hheld
    calm := fun h => hdown.quires.preempt _ (by rw [State.vat_congr hrvats, hcalm, h])
    valid := (hdown.fields.rd _ (by decide) _ hi _ hz).trans hvalid
    vatStatus := (hdown.fields.rd _ (by decide) _ hi _ hz).trans hshown
    faulted := hdown.faulted
    status := hdown.status
    stop := hdown.stop }

end

end Sys2Proof.Machine
end

