-- ==== Sys2Proof/Proofs/Handlers.lean ====
section
/-!
PROOF. What handlers do (R122, R123): their entry, TRET, TRETIRE, TESC, the patience of a block; and O32.
-/

namespace Sys2Proof.Machine
open Sys2Proof.Claims

section
variable {s t u : State} {vat slot : Nat} {q : Quire} {b n : Nat} {blk : Block} {l : Launch}

/-! ### A block leaves its vat (R64) -/

theorem storeFind_filter_quires {m : List (Nat × Quire)} (h : ∀ x, storeFind m n = some x → x.block ≠ b) :
    storeFind (m.filter (fun e => e.2.block ≠ b)) n = storeFind m n := by
  induction m with
  | nil => rfl
  | cons e r ih =>
    by_cases hn : n = e.1
    · have hblock : e.2.block ≠ b := h e.2 (by simp [storeFind, hn])
      rw [List.filter_cons_of_pos (by simpa using hblock)]
      simp [storeFind, hn]
    · have hr : storeFind (e :: r) n = storeFind r n := by simp [storeFind, hn]
      rw [hr] at h ⊢
      rw [← ih h]
      by_cases hblock : e.2.block = b
      · rw [List.filter_cons_of_neg (by simpa using hblock)]
      · rw [List.filter_cons_of_pos (by simpa using hblock)]
        simp [storeFind, hn]

theorem mem_insertBy {α : Type} {le : α → α → Bool} {x y : α} {m : List α} (h : x ∈ insertBy le y m) : x = y ∨ x ∈ m := by
  induction m with
  | nil => simpa [insertBy] using h
  | cons z r ih =>
    unfold insertBy at h
    split_ifs at h
    · simpa using h
    · obtain h | h := List.mem_cons.mp h
      · exact .inr (h ▸ List.mem_cons_self ..)
      · exact (ih h).imp_right (List.mem_cons_of_mem _)

theorem mem_of_mem_sortBy {α : Type} {le : α → α → Bool} {x : α} {m : List α} (h : x ∈ sortBy le m) : x ∈ m := by
  induction m with
  | nil => exact h
  | cons y r ih =>
    obtain rfl | h := mem_insertBy h
    · exact List.mem_cons_self ..
    · exact List.mem_cons_of_mem _ (ih h)

theorem quiresKept_setVat {v : Vat} (hq : v.quires = (s.vat n).quires) (hb : v.blocks = (s.vat n).blocks)
    (hp : (s.vat n).preempt = [] → v.preempt = []) : QuiresKept s (s.setVat n v) where
  quires m := by
    by_cases h : m = n
    · rw [h, State.vat_setVat_same, hq]
    · rw [State.vat_setVat_ne _ _ h]
  blocks m := by
    by_cases h : m = n
    · rw [h, State.vat_setVat_same, hb]
    · rw [State.vat_setVat_ne _ _ h]
  preempt m hm := by
    by_cases h : m = n
    · rw [h, State.vat_setVat_same]
      exact hp (h ▸ hm)
    · rwa [State.vat_setVat_ne _ _ h]

theorem quiresKept_map_vats {f : Nat × Vat → Nat × Vat} (hkey : ∀ e, (f e).1 = e.1)
    (hval : ∀ e, (f e).2.quires = e.2.quires ∧ (f e).2.blocks = e.2.blocks ∧ (f e).2.preempt = e.2.preempt)
    (h : t.vats = s.vats.map f) : QuiresKept s t := by
  have hn (n : Nat) : (t.vat n).quires = (s.vat n).quires ∧ (t.vat n).blocks = (s.vat n).blocks ∧
      (t.vat n).preempt = (s.vat n).preempt := by
    unfold State.vat
    rw [h]
    exact storeGet_map_vats (P := fun v w => w.quires = v.quires ∧ w.blocks = v.blocks ∧ w.preempt = v.preempt) hkey hval
      ⟨rfl, rfl, rfl⟩ s.vats n
  exact ⟨fun n => (hn n).1, fun n => (hn n).2.1, fun n h => (hn n).2.2.trans h⟩

theorem quiresKept_returnLent (s : State) : QuiresKept s s.returnLent := by
  unfold State.returnLent State.lendChosen
  split_ifs
  · extract_lets free
    exact List.foldlRecOn (motive := QuiresKept s) free _ (quiresKept_of_vats rfl) fun t ht n _ =>
      ht.trans (quiresKept_setVat rfl rfl id)
  · refine quiresKept_map_vats (f := fun e => if e.2.lent && !e.2.blocks.any (fun b => match storeFind s.launches b.2.launch with
        | some l => some l.p = s.calPart
        | none => false)
      then (e.1, { e.2 with lent := false }) else e) (fun e => ?_) (fun e => ?_) rfl
    · split_ifs <;> rfl
    · split_ifs <;> exact ⟨rfl, rfl, rfl⟩

theorem quiresKept_settlePreempt (s : State) (n : Nat) : QuiresKept s (s.settlePreempt n) := by
  unfold State.settlePreempt State.dropPreempt
  exact List.foldlRecOn (motive := QuiresKept s) _ _
    (quiresKept_setVat rfl rfl fun h => by
      rw [h]
      rfl) fun t ht _ _ => ht.trans (quiresKept_of_vats rfl)

/-- A block is gone from a vat with its quires, and the other quires stay. -/
structure BlockGone (s u : State) (vat b : Nat) : Prop where
  block : u.block vat b = none
  none : ∀ n x, u.quire vat n = some x → x.block ≠ b
  others : ∀ n, (∀ x, s.quire vat n = some x → x.block ≠ b) → u.quire vat n = s.quire vat n
  calm : (s.vat vat).preempt = [] → (u.vat vat).preempt = []

theorem BlockGone.of_quiresKept (h : BlockGone s t vat b) (k : QuiresKept t u) : BlockGone s u vat b where
  block := by
    unfold State.block
    rw [k.blocks]
    exact h.block
  none n x hx := h.none n x (by
    unfold State.quire at hx ⊢
    rwa [k.quires] at hx)
  others n hn := by
    refine Eq.trans ?_ (h.others n hn)
    unfold State.quire
    rw [k.quires]
  calm hs := k.preempt _ (h.calm hs)

theorem State.removeBlock_spec (s : State) (vat b : Nat) : BlockGone s (s.removeBlock vat b) vat b ∧
    (s.removeBlock vat b).launches = s.launches ∧ (s.removeBlock vat b).mem = s.mem := by
  have hlent (a : State) : a.returnLent.launches = a.launches ∧ a.returnLent.mem = a.mem := by
    rw [sharesOnly_returnLent a]
    exact ⟨rfl, rfl⟩
  have hgone {a : State} {v : Vat} (ha : a.vats = s.vats) (hq : v.quires = (s.vat vat).quires.filter (fun e => e.2.block ≠ b))
      (hb : v.blocks = storeErase (s.vat vat).blocks b) (hp : v.preempt = (s.vat vat).preempt) :
      BlockGone s (a.setVat vat v) vat b := by
    have hquire (n : Nat) : (a.setVat vat v).quire vat n = storeFind ((s.vat vat).quires.filter (fun e => e.2.block ≠ b)) n := by
      unfold State.quire
      rw [State.vat_setVat_same, hq]
    refine ⟨?_, fun n x hx => ?_, fun n hn => ?_, fun h => ?_⟩
    · unfold State.block
      rw [State.vat_setVat_same, hb, storeFind_erase, if_pos rfl]
    · rw [hquire] at hx
      simpa using (List.mem_filter.mp (mem_of_storeFind hx)).2
    · rw [hquire]
      exact storeFind_filter_quires hn
    · rw [State.vat_setVat_same, hp, h]
  unfold State.removeBlock
  extract_lets v slots v1 v2
  have hv2 : v2.quires = v1.quires ∧ v2.blocks = v1.blocks ∧ v2.preempt = v1.preempt := by
    unfold v2
    split_ifs <;> exact ⟨rfl, rfl, rfl⟩
  obtain ⟨hq, hb, hp⟩ := hv2
  exact ⟨(hgone (a := s.dropLaneWaits vat slots) rfl hq hb hp).of_quiresKept (quiresKept_returnLent _), hlent _⟩

/-- A block without locks retires, and its launch goes on. -/
theorem State.retireBlock_spec (hb : s.block vat b = some blk) (hl : s.launch blk.launch = some l)
    (hlocks : ∀ e ∈ (s.vat vat).quires, s.ownedLocks vat e.1 = []) (hmore : l.retired + 1 < l.total) :
    BlockGone s (s.retireBlock vat b) vat b ∧ (s.retireBlock vat b).mem = s.mem ∧
      (s.retireBlock vat b).launch blk.launch = some (l.retire blk ((s.vat vat).byIndex b)) := by
  have hnone : sortBy (fun (x y : Nat) => x ≤ y) (((s.vat vat).byIndex b).flatMap (fun e => s.ownedLocks vat e.1)) = [] := by
    rw [List.flatMap_eq_nil_iff.mpr fun e he => hlocks e ?_]
    · rfl
    · exact (List.mem_filter.mp (mem_of_mem_sortBy he)).1
  have hb' : storeFind (s.vat vat).blocks b = some blk := hb
  have hretire : s.retireBlock vat b = (((s.setLaunch blk.launch (l.retire blk ((s.vat vat).byIndex b))).removeBlock vat
      b).settlePreempt vat).launchDone blk.launch := by
    unfold State.retireBlock
    dsimp only
    rw [hb']
    dsimp only
    rw [hl]
    dsimp only
    rw [hnone]
  rw [hretire]
  have hset : (s.setLaunch blk.launch (l.retire blk ((s.vat vat).byIndex b))).launch blk.launch =
      some (l.retire blk ((s.vat vat).byIndex b)) := (storeFind_put ..).trans (if_pos rfl)
  have hremove := State.removeBlock_spec (s.setLaunch blk.launch (l.retire blk ((s.vat vat).byIndex b))) vat b
  generalize hlr : l.retire blk ((s.vat vat).byIndex b) = lr at hset hremove
  have hretired : lr.retired = l.retired + 1 ∧ lr.total = l.total := by
    rw [← hlr]
    exact ⟨rfl, rfl⟩
  obtain ⟨⟨hblock, hnone, hothers, hcalm⟩, hlaunches, hmem⟩ := hremove
  have hgone : BlockGone s ((s.setLaunch blk.launch lr).removeBlock vat b) vat b := ⟨hblock, hnone, hothers, hcalm⟩
  have hmem' : ((s.setLaunch blk.launch lr).removeBlock vat b).mem = s.mem := hmem
  generalize (s.setLaunch blk.launch lr).removeBlock vat b = r at hgone hlaunches hmem'
  have hshares := sharesOnly_settlePreempt r vat
  have hkept := hgone.of_quiresKept (quiresKept_settlePreempt r vat)
  generalize r.settlePreempt vat = t at hshares hkept
  have ht : t.launches = r.launches ∧ t.mem = r.mem := by
    rw [hshares]
    exact ⟨rfl, rfl⟩
  have hlaunch : t.launch blk.launch = some lr := by
    unfold State.launch at hset ⊢
    rw [ht.1, hlaunches]
    exact hset
  have hdone : t.launchDone blk.launch = t := by
    unfold State.launchDone
    rw [hlaunch]
    exact if_neg (by omega)
  rw [hdone]
  exact ⟨hkept, ht.2.trans hmem', hlaunch⟩

end

/-! ### Status words of EXEC (R79) -/

theorem stExec_reason {r d : Nat} (hr : r < 256) : stExec r d / 65536 % 256 = r := by
  unfold stExec statusWord
  omega

theorem stExec_eq {r d : Nat} (hr : r < 256) (hd : d < 65536) : stExec r d = 0x12 * 2 ^ 24 + r * 2 ^ 16 + d := by
  unfold stExec statusWord
  omega

theorem blockScope_stExec {r d : Nat} (hr : r < 256) : blockScope (stExec r d) = (r = 3 || r = 4 || r = 5) := by
  unfold blockScope
  rw [stExec_reason hr]

theorem trappable_stExec {r d : Nat} (hr : r < 256) : trappable (stExec r d) = (r ≠ 0x0C && r ≠ 0x0D) := by
  unfold trappable
  rw [stExec_reason hr]

end Sys2Proof.Machine

namespace Sys2Proof.Claims

open Sys2Proof Sys2Proof.Machine

section
variable {s : State} {vat slot : Fin 64} {op hd : Nat} {c : BCtx} {t : TrapSave} {cmd : Instr}

/-! ### What an instruction's quire belongs to -/

/-- The counted state of an instruction that issues still holds its quire, its block and its launch. -/
theorem Issues.counted_place (h : Issues s vat slot op c) :
    (Counted s c).quire c.vat c.slot = some c.q ∧ (Counted s c).block c.vat c.q.block = some c.blk ∧
      (Counted s c).launch c.blk.launch = some c.l ∧ c.q.live = true := by
  obtain ⟨hq, hrun, hb, hl⟩ := State.of_ready h.ready
  rw [← h.place.1, ← h.place.2] at hq
  rw [← h.place.1] at hb
  refine ⟨?_, ?_, ?_, Quire.live_of_run hrun⟩
  · unfold State.quire
    rw [vat_counted]
    exact hq
  · unfold State.block
    rw [vat_counted]
    exact hb
  · unfold State.launch
    rw [launches_counted]
    exact hl

theorem liveQuires_counted (s : State) (c : BCtx) (n b : Nat) :
    ((Counted s c).vat n).liveQuires b = (s.vat n).liveQuires b := by
  rw [vat_counted]
  rfl

/-- Putting a quire back with no register but a counter changed changes nothing else. -/
theorem onlyQuire_setQuire {a : State} (q : Quire) (ha : a = { s with regs := a.regs }) (hcount : CountersOnly s a c.vat) :
    OnlyQuire s (a.setQuire c.vat c.slot q) c := by
  have hvat (n : Nat) : a.vat n = s.vat n := State.vat_congr (by rw [ha]) n
  refine ⟨fun f i j hi hj hmem => (State.rd_congr rfl f i j).trans (hcount f i j hi hj hmem), ?_, ?_⟩
  · refine ⟨fun v n hne => ?_, fun v b => ?_, fun v => ?_⟩
    · rw [State.quire_setQuire_ne _ _ hne]
      unfold State.quire
      rw [hvat]
    · rw [State.block_setQuire]
      unfold State.block
      rw [hvat]
    · rw [State.vat_setQuire, hvat]
      exact ⟨rfl, rfl, rfl, rfl, rfl, rfl⟩
  · obtain ⟨r, rfl⟩ : ∃ r, a = { s with regs := r } := ⟨_, ha⟩
    rfl

/-! ### Entries -/

section
variable (hhandler : c.l.mod.handler = some hd) (htrap : c.l.trap = true) (hnone : c.q.trap = none)
include hhandler htrap hnone

theorem Issues.trap_enters (h : Issues s vat slot 0xD0 c) :
    EntersHandler (.trap vat slot) s c (0x120B0000 + c.i.mod % 65536) c.i.next hd := by
  obtain ⟨hq, hb, hl, hlive⟩ := h.counted_place
  have hstatus : stExec 0x0B c.i.mod = 0x120B0000 + c.i.mod % 65536 := by
    unfold stExec statusWord
    omega
  refine h.quireBecomes (k := fun s c => s.raiseFault c.vat c.slot (stExec 0x0B c.i.mod)) rfl ?_
  rw [State.raiseFault_of_handler hq hlive hb hl (by rw [blockScope_stExec (by decide)]; rfl)
    (by rw [trappable_stExec (by decide)]; rfl) hhandler htrap hnone, h.inst, hstatus, liveQuires_counted]
  rfl

theorem illegal_enters (hlive : s.live = true) (hready : s.ready vat slot = some (c.q, c.blk, c.l))
    (hinst : decodeInst c.l.mod.code c.q.pc = some c.i) (hvat : c.vat = vat) (hslot : c.slot = slot)
    (hlanes : execLanes c.q c.i ≠ 0) (hillegal : legal c.i = false) :
    EntersHandler (.illegalInstruction vat slot) s c (0x12010000 + c.i.op % 256 * 256) c.i.next hd := by
  obtain ⟨hq, hrun, hb, hl⟩ := State.of_ready hready
  have hi : (vat : Nat) < 65536 := by omega
  have hop : stIllegal c.i.op = 0x12010000 + c.i.op % 256 * 256 := by
    unfold stIllegal stExec statusWord
    omega
  have hexec : exec (.illegalInstruction vat slot) s =
      .next ((s.count .VAT_ISSUED_COUNT 1 vat).raiseFault vat slot (stIllegal c.i.op)) := by
    refine congrArg Host.Outcome.next ?_
    simp only [hlive, hready, hinst, hillegal, hlanes, Bool.not_true, Bool.false_eq_true, if_false]
  rw [State.raiseFault_of_handler (s := s.count .VAT_ISSUED_COUNT 1 vat) hq (Quire.live_of_run hrun) hb hl
    (by unfold stIllegal; rw [blockScope_stExec (by decide)]; rfl)
    (by unfold stIllegal; rw [trappable_stExec (by decide)]; rfl) hhandler htrap hnone, hinst, hop, ← hvat, ← hslot] at hexec
  have hcount : CountersOnly s (s.count .VAT_ISSUED_COUNT 1 c.vat) c.vat := fun f i j hi' hj' hmem =>
    State.rd_count_ne s 1 (hvat ▸ hi) (by decide) hi' hj' (by simp at hmem ⊢; tauto)
  exact ⟨_, hexec, State.quire_setQuire_same .., onlyQuire_setQuire _ rfl hcount⟩

theorem overrun_enters (hlive : s.live = true) (hready : s.ready vat slot = some (c.q, c.blk, c.l))
    (hend : c.l.mod.code.length ≤ c.q.pc) (hvat : c.vat = vat) (hslot : c.slot = slot) :
    EntersHandler (.codeEndOverrun vat slot) s c 0x12010000 c.q.pc hd := by
  obtain ⟨hq, hrun, hb, hl⟩ := State.of_ready hready
  have hinst : decodeInst c.l.mod.code c.q.pc = none := by
    unfold decodeInst
    rw [List.getElem?_eq_none hend]
  have hexec : exec (.codeEndOverrun vat slot) s = .next (s.raiseFault vat slot (stIllegal 0)) := by
    refine congrArg Host.Outcome.next ?_
    simp only [hlive, hready, hend, Bool.not_true, Bool.false_eq_true, if_false, if_true]
  rw [State.raiseFault_of_handler hq (Quire.live_of_run hrun) hb hl (by decide) (by decide) hhandler htrap hnone, hinst,
    ← hvat, ← hslot] at hexec
  exact ⟨_, hexec, State.quire_setQuire_same .., onlyQuire_setQuire _ rfl fun _ _ _ _ _ _ => rfl⟩

end

/-! ### Ends of handlers -/

theorem Issues.tret_returns (h : Issues s vat slot 0xD1 c) (htrap : c.q.trap = some t)
    (hstart : isStart c.l.mod.code false (c.q.sreg (c.i.a - 256)) = true) (h3 : t.status / 65536 % 256 ≠ 3)
    (h4 : t.status / 65536 % 256 ≠ 4) :
    ∃ u, exec (.tret vat slot) s = .next u ∧ u.quire vat slot = some (c.q.leaveTrap t (c.q.sreg (c.i.a - 256))) ∧
      u.block vat c.q.block = some { c.blk with handler := none } ∧ CountersOnly s u vat := by
  generalize hq' : c.q.leaveTrap t (c.q.sreg (c.i.a - 256)) = q'
  have hk : (if !isStart c.l.mod.code false (c.q.sreg (c.i.a - 256)) then
        (Counted s c).raiseFault c.vat c.slot (stIllegal 0xD1)
      else
        let s1 := (c.put (Counted s c) (c.q.leaveTrap t (c.q.sreg (c.i.a - 256)))).setBlock c.vat c.q.block
          { c.blk with handler := none }
        let r := t.status / 65536 % 256
        if r = 3 || r = 4 then s1.releaseAll c.vat c.q.block else s1) =
      (c.put (Counted s c) q').setBlock c.vat c.q.block { c.blk with handler := none } := by
    rw [hstart, hq', if_neg (by decide)]
    exact if_neg (by simp [h3, h4])
  have hcalm : (((c.put (Counted s c) q').setBlock c.vat c.q.block { c.blk with handler := none }).vat vat).preempt = [] := by
    rw [State.vat_setBlock]
    exact (preempt_put ..).trans ((preempt_counted ..).trans h.calm)
  have hissue := h.issue_eq (fun s c =>
    let pc := c.q.sreg (c.i.a - 256)
    match c.q.trap with
    | none => s.raiseFault c.vat c.slot (stIllegal 0xD1)
    | some t =>
      if !isStart c.l.mod.code false pc then s.raiseFault c.vat c.slot (stIllegal 0xD1)
      else
        let s1 := (c.put s (c.q.leaveTrap t pc)).setBlock c.vat c.q.block { c.blk with handler := none }
        let r := t.status / 65536 % 256
        if r = 3 || r = 4 then s1.releaseAll c.vat c.q.block else s1)
  dsimp only at hissue
  rw [htrap] at hissue
  dsimp only at hissue hk
  rw [hk, State.trySave_of_calm _ hcalm] at hissue
  refine ⟨_, congrArg Host.Outcome.next hissue, ?_, ?_, ?_⟩
  · rw [← h.place.1, ← h.place.2]
    unfold State.quire
    rw [State.vat_setBlock]
    exact State.quire_setQuire_same ..
  · rw [← h.place.1]
    exact State.block_setBlock_same ..
  · rw [← h.place.1]
    exact fun f i j hi hj hmem => countersOnly_counted s c h.vat_lt f i j hi hj hmem

theorem Issues.rd_counted (h : Issues s vat slot op c) {f : Field} {i : Nat} (hi : i < 65536)
    (hf : f ∉ [Field.VAT_ISSUED_COUNT, .VAT_RC_HITS_COUNT, .VAT_BANK_STALLS_COUNT]) :
    (Counted s c).rd f i = s.rd f i := by
  simp only [List.mem_cons, List.not_mem_nil, or_false, not_or] at hf
  exact countersOnly_counted s c h.vat_lt f i 0 hi (by decide) (by simp [hf])

theorem Issues.tretire_retires (h : Issues s vat slot 0xD2 c) (htrap : c.q.trap = some t)
    (hlocks : ∀ e ∈ (s.vat vat).quires, s.ownedLocks vat e.1 = []) (hmore : c.l.retired + 1 < c.l.total) :
    ∃ u, exec (.tretire vat slot) s = .next u ∧ BlockRetires s u c ∧ u.mem = s.mem := by
  obtain ⟨-, hb, hl, -⟩ := h.counted_place
  have hquires : ((Counted s c).vat c.vat).quires = (s.vat vat).quires := by rw [vat_counted, h.place.1]
  have hlocks' : ∀ e ∈ ((Counted s c).vat c.vat).quires, (Counted s c).ownedLocks c.vat e.1 = [] := by
    intro e he
    rw [hquires] at he
    rw [← hlocks e he, h.place.1]
    unfold State.ownedLocks
    refine List.filter_congr fun n hn => ?_
    have hn : n < 65536 := by
      have := List.mem_range.mp hn
      omega
    have hpos : (Counted s c).pos = s.pos := by
      rw [counted_frame]
      rfl
    unfold State.objType State.lockOwner
    rw [h.rd_counted hn (by decide), h.rd_counted hn (by decide), hpos]
  obtain ⟨hgone, hmem, hlaunch⟩ := State.retireBlock_spec hb hl hlocks' hmore
  have hcalm : (((Counted s c).retireBlock c.vat c.q.block).vat vat).preempt = [] := by
    rw [← h.place.1]
    exact hgone.calm ((preempt_counted ..).trans (h.place.1 ▸ h.calm))
  have hissue := h.issue_eq (fun s c => match c.q.trap with
    | none => s.raiseFault c.vat c.slot (stIllegal 0xD2)
    | some _ => s.retireBlock c.vat c.q.block)
  rw [htrap] at hissue
  dsimp only at hissue
  rw [State.trySave_of_calm _ hcalm] at hissue
  have hquire (n : Nat) : (Counted s c).quire c.vat n = s.quire c.vat n := by
    unfold State.quire
    rw [vat_counted]
  refine ⟨_, congrArg Host.Outcome.next hissue, ⟨hgone.block, hgone.none, fun n hn => ?_, _, hlaunch, rfl, rfl, rfl⟩,
    hmem.trans (mem_counted s c)⟩
  rw [hgone.others n (by rwa [hquire]), hquire]

/-! ### Faults that tear down -/

section
variable (hp : c.l.p < 32) (hhomed : s.homed c.l.p = true) (hvalid : s.rd .VAT_FAULT_WHO_VALID vat = 0)
  (hfaulted : s.rd .SCH_FAULT_CTRL_FAULTED c.l.p = 0) (hreclaim : s.rd .HB_RECLAIM_RUNNING c.l.p = 0)
include hp hhomed hvalid hfaulted hreclaim

/-- An instruction whose quire's fault goes to the fault path. -/
theorem Issues.reports (h : Issues s vat slot op c) {status word lanes : Nat} (hscope : blockScope status = false)
    (hstatus : status < 2 ^ 32) {k : State → BCtx → State}
    (hk : k (Counted s c) c = (Counted s c).reportFault c.vat c.slot c.q c.l status word lanes) :
    ∃ u, s.issue vat slot op k = u ∧ u.quire vat slot = some { c.q with wait := .held } ∧
      u.rd .VAT_FAULT_WHO_VALID vat = 1 ∧ u.rd .VAT_FAULT_STATUS_STATUS vat = status ∧
      u.rd .SCH_FAULT_CTRL_FAULTED c.l.p = 1 ∧ u.rd .SCH_FAULT_STATUS c.l.p = status ∧
      ∃ x ∈ u.hb.stops, x.cause = .fault c.l.p := by
  have hvat := h.place.1
  have hi : c.l.p < 65536 := by omega
  have hv : (vat : Nat) < 65536 := by omega
  obtain ⟨-, hb, hl, -⟩ := h.counted_place
  have hhomed' : (Counted s c).homed c.l.p = true := by
    rw [counted_frame]
    exact hhomed
  have hreport := State.faultReported (s := Counted s c) (vat := c.vat) (slot := c.slot) (q := c.q) (word := word)
    (lanes := lanes) (by omega) hp hhomed' (by rw [hvat]; exact (h.rd_counted hv (by decide)).trans hvalid)
    ((h.rd_counted hi (by decide)).trans hreclaim) ((h.rd_counted hi (by decide)).trans hfaulted) hb hl hscope hstatus
  have hcalm : (((Counted s c).reportFault c.vat c.slot c.q c.l status word lanes).vat vat).preempt = [] := by
    rw [← hvat]
    exact hreport.calm ((preempt_counted ..).trans (hvat ▸ h.calm))
  have hissue := h.issue_eq k
  rw [hk, State.trySave_of_calm _ hcalm] at hissue
  generalize (Counted s c).reportFault c.vat c.slot c.q c.l status word lanes = u at hreport hissue
  obtain ⟨hquire, -, hvalid', hshown, hfaulted', hst, hstop⟩ := hreport
  rw [hvat] at hquire hvalid' hshown
  rw [h.place.2] at hquire
  exact ⟨u, hissue, hquire, hvalid', hshown, hfaulted', hst, hstop⟩

theorem Issues.tesc_tearsDown (h : Issues s vat slot 0xD3 c) (htrap : c.q.trap = some t)
    (hscope : blockScope t.status = false) (hstatus : t.status < 2 ^ 32) :
    ∃ u, exec (.tesc vat slot) s = .next u ∧ u.quire vat slot = some { c.q with wait := .held } ∧
      u.rd .VAT_FAULT_WHO_VALID vat = 1 ∧ u.rd .VAT_FAULT_STATUS_STATUS vat = t.status ∧
      u.rd .SCH_FAULT_CTRL_FAULTED c.l.p = 1 ∧ u.rd .SCH_FAULT_STATUS c.l.p = t.status ∧
      ∃ x ∈ u.hb.stops, x.cause = .fault c.l.p := by
  obtain ⟨u, hu, hspec⟩ := h.reports hp hhomed hvalid hfaulted hreclaim (word := t.pc) (lanes := t.active.toNat) hscope hstatus
    (k := fun s c => match c.q.trap with
      | none => s.raiseFault c.vat c.slot (stIllegal 0xD3)
      | some t => s.reportFault c.vat c.slot c.q c.l t.status t.pc t.active.toNat) (by
      rw [htrap])
  exact ⟨u, congrArg Host.Outcome.next hu, hspec⟩

theorem Issues.trap_tearsDown (h : Issues s vat slot 0xD0 c) (hnone : c.l.mod.handler = none) :
    ∃ u, exec (.trap vat slot) s = .next u ∧ u.quire vat slot = some { c.q with wait := .held } ∧
      u.rd .VAT_FAULT_WHO_VALID vat = 1 ∧ u.rd .VAT_FAULT_STATUS_STATUS vat = 0x120B0000 + c.i.mod % 65536 ∧
      u.rd .SCH_FAULT_CTRL_FAULTED c.l.p = 1 ∧ ∃ x ∈ u.hb.stops, x.cause = .fault c.l.p := by
  obtain ⟨hq, hb, hl, -⟩ := h.counted_place
  have hstatus : stExec 0x0B c.i.mod = 0x120B0000 + c.i.mod % 65536 := by
    unfold stExec statusWord
    omega
  have hscope : blockScope (stExec 0x0B c.i.mod) = false := by
    rw [blockScope_stExec (by decide)]
    rfl
  have hraise : (Counted s c).raiseFault c.vat c.slot (stExec 0x0B c.i.mod) =
      (Counted s c).reportFault c.vat c.slot c.q c.l (stExec 0x0B c.i.mod) c.q.pc c.q.active.toNat := by
    have hb' : storeFind ((Counted s c).vat c.vat).blocks c.q.block = some c.blk := hb
    unfold State.raiseFault
    rw [hq]
    dsimp only
    rw [hscope, if_neg Bool.false_ne_true]
    dsimp only
    rw [hb']
    dsimp only
    rw [hl]
    dsimp only
    rw [hnone]
  obtain ⟨u, hu, hquire, hvalid', hshown, hfaulted', -, hstop⟩ := h.reports hp hhomed hvalid hfaulted hreclaim hscope
    (by rw [hstatus]; omega) (k := fun s c => s.raiseFault c.vat c.slot (stExec 0x0B c.i.mod)) hraise
  exact ⟨u, congrArg Host.Outcome.next hu, hquire, hvalid', hshown.trans hstatus, hfaulted', hstop⟩

end

/-! ### The patience of a block (R77, R78) -/

theorem patience_faults {block : Fin 64} {b : Block} {l : Launch} {q : Quire} {id : Nat} (hlive : s.live = true)
    (hb : s.block vat block = some b) (hl : s.launch b.launch = some l) (hhandler : l.mod.handler = some hd)
    (htrap : l.trap = true) (hid : ((s.vat vat).parkedIds block).head? = some id)
    (hfirst : (s.vat vat).firstLive block = some (slot.val, q)) (hq : s.quire vat slot = some q) (hblock : q.block = block)
    (hnone : q.trap = none) :
    ∃ u q', exec (.blockPatienceExpiry vat block) s = .next u ∧ u.quire vat slot = some q' ∧ q'.pc = hd ∧
      q'.sreg 56 = 0x12040000 + id ∧ (∃ b', u.block vat block = some b' ∧ b'.handler = some slot.val) ∧
      u.regs = s.regs ∧ u.mem = s.mem := by
  have hqlive : q.live = true := by
    have := List.find?_some hfirst
    simpa using this
  obtain ⟨rest, hids⟩ : ∃ rest, (s.vat vat).parkedIds block = id :: rest := by
    cases hl : (s.vat vat).parkedIds block with
    | nil => rw [hl] at hid; cases hid
    | cons x r =>
      rw [hl] at hid
      cases hid
      exact ⟨r, rfl⟩
  have hlt : id < 16 := by
    have hmem : id ∈ (s.vat vat).parkedIds block := by
      rw [hids]
      exact List.mem_cons_self ..
    exact List.mem_range.mp (List.mem_filter.mp hmem).1
  have hexec : exec (.blockPatienceExpiry vat block) s = .next ((s.setBlock vat block
      { b with patience := if l.patience = 0 then 2 ^ 32 else l.patience }).raiseFault vat slot (stExec 4 id)) := by
    refine congrArg Host.Outcome.next ?_
    simp only [hlive, hb, hl, hfirst, hids, Bool.not_true, Bool.false_eq_true, if_false]
    simp
  generalize hb0 : ({ b with patience := if l.patience = 0 then 2 ^ 32 else l.patience } : Block) = b0 at hexec
  have hlaunch0 : b0.launch = b.launch := by rw [← hb0]
  have hquire : (s.setBlock vat block b0).quire vat slot = some q := by
    unfold State.quire
    rw [State.vat_setBlock]
    exact hq
  have hfirst' : ((s.setBlock vat block b0).vat vat).firstLive q.block = some (slot.val, q) := by
    rw [State.vat_setBlock, hblock]
    exact hfirst
  have hstatus : stExec 4 id = 0x12040000 + id := by
    unfold stExec statusWord
    omega
  have hraise := State.raiseFault_of_blockHandler (s := s.setBlock vat block b0) (vat := vat) (slot := slot)
    (status := stExec 4 id) (b := b0) (l := l) (hd := hd) hquire hqlive hfirst'
    (by rw [hblock]; exact State.block_setBlock_same ..) (by rw [hlaunch0]; exact hl)
    (by rw [blockScope_stExec (by decide)]; rfl) (by rw [trappable_stExec (by decide)]; rfl) hhandler htrap hnone
  rw [hraise] at hexec
  generalize (decodeInst l.mod.code q.pc).elim q.pc BInst.next = next at hexec
  generalize ((s.setBlock vat block b0).vat vat).liveQuires q.block = live at hexec
  obtain ⟨hpc, hs56, -⟩ := Quire.enterTrap_spec q (stExec 4 id) hd next live
  refine ⟨_, q.enterTrap (stExec 4 id) hd next live, hexec, ?_, hpc, ?_, ⟨{ b0 with handler := some slot }, ?_, rfl⟩, rfl, rfl⟩
  · unfold State.quire
    rw [State.vat_setBlock]
    exact State.quire_setQuire_same ..
  · rw [hs56, hstatus]
    omega
  · rw [hblock]
    exact State.block_setBlock_same ..

end

theorem faultsEnterTheHandler : FaultsEnterTheHandler := by
  intro s vat slot c hd
  refine ⟨fun hhandler htrap hnone => ⟨Issues.trap_enters hhandler htrap hnone, ?_, ?_⟩, fun status next live =>
    Quire.enterTrap_spec c.q status hd next live, fun t => Issues.tret_returns⟩
  · exact fun hlive hready hinst hvat hslot hlanes hillegal _ =>
      illegal_enters hhandler htrap hnone hlive hready hinst hvat hslot hlanes hillegal
  · exact fun hlive hready hend hvat hslot => overrun_enters hhandler htrap hnone hlive hready hend hvat hslot

theorem handlersEndAndFaultsTearDown : HandlersEndAndFaultsTearDown := by
  intro s vat slot c t
  refine ⟨Issues.tretire_retires, fun hp _ hhomed hvalid hfaulted hreclaim => ⟨?_, ?_⟩, ?_⟩
  · exact fun h => Issues.tesc_tearsDown hp hhomed hvalid hfaulted hreclaim h
  · exact fun h => Issues.trap_tearsDown hp hhomed hvalid hfaulted hreclaim h
  · exact fun block b l q hd id => patience_faults

/-- Settles O32: a fault enters the handler that its launch has, or reports, holds the quire and tears the partition down. -/
theorem faultsAndHandlers : Obligations.FaultsAndHandlers := ⟨faultsEnterTheHandler, handlersEndAndFaultsTearDown⟩

end Sys2Proof.Claims
end

