-- ==== Sys2Proof/Proofs/Tensors.lean ====
section
/-!
PROOF. Tensor instructions (R148 to R165): how each enters the beater, and how the beater performs its oldest.
-/

namespace Sys2Proof.Machine
open Sys2Proof.Claims

section
variable {s t u : State} {vat slot bi : Nat} {q : Quire} {b : Block} {o : BeatOp} {os : List BeatOp}

/-! ### A block in which nothing ends, parks or arrives -/

theorem State.evalBarriers_of_quiet (h : Quiet s vat bi) : s.evalBarriers vat bi = s := by
  obtain ⟨harrived, hquires⟩ := h
  have hnot (blk : Block) (hb : s.block vat bi = some blk) (n : Nat) : (s.vat vat).barrierMet bi blk n = false := by
    unfold Vat.barrierMet
    simp [harrived blk hb, storeGet]
  have hparked : (s.vat vat).parkedIds bi = [] := by
    refine List.filter_eq_nil_iff.mpr fun n _ => ?_
    simp only [List.any_eq_true, not_exists, not_and]
    intro e he
    rw [(hquires e he).2]
    simp
  unfold State.evalBarriers
  extract_lets s1 v
  have hs1 : s1 = s := List.foldlRecOn (motive := fun t => t = s) _ _ rfl fun t ht n _ => by
    subst ht
    split
    next blk hb => rw [hnot blk hb, if_neg Bool.false_ne_true]
    next => rfl
  have hv : v.parkedIds bi = [] := by
    unfold v
    rw [hs1]
    exact hparked
  rw [hv]
  exact hs1

theorem State.settle_of_quiet (h : Quiet s vat bi) : s.settle vat bi = s.setVat vat (s.vat vat) := by
  have hlive (e : Nat × Quire) (he : e ∈ (s.vat vat).quiresOf bi) : e.2.live = true := (h.2 e he).1
  have hfold : ((s.vat vat).quiresOf bi).foldl (fun (v : Vat) e =>
      if e.2.live || v.inBeater e.1 then v else v.releaseSets e.1) (s.vat vat) = s.vat vat :=
    List.foldlRecOn (motive := fun v => v = s.vat vat) _ _ rfl fun v hv e he => by
      rw [hlive e he]
      exact hv
  have hquiet : Quiet (s.setVat vat (s.vat vat)) vat bi := by
    unfold Quiet State.block
    rw [State.vat_setVat_same]
    exact h
  unfold State.settle
  dsimp only
  rw [hfold, State.evalBarriers_of_quiet hquiet, State.vat_setVat_same]
  refine if_neg ?_
  simp only [Bool.and_eq_true, decide_eq_true_eq, List.all_eq_true, not_and]
  intro hne hall
  obtain ⟨e, he⟩ := List.exists_mem_of_ne_nil _ hne
  have := hall e he
  rw [hlive e he] at this
  exact absurd this.1 (by decide)

/-! ### The oldest instruction leaves the beater -/

/-- What leaves the beater with its oldest and only instruction: the other parts of the vat but waits, and the state, stay. -/
structure Popped (s u : State) (vat bi : Nat) : Prop where
  ops : (u.vat vat).ops = []
  sets : (u.vat vat).sets = (s.vat vat).sets
  block : u.block vat bi = s.block vat bi
  mem : u.mem = s.mem
  regs : u.regs = s.regs

theorem State.wakeOrder_vat (s : State) (vat : Nat) : (s.wakeOrder vat).vat vat = { s.vat vat with
    quires := (s.vat vat).quires.map (fun e =>
      if e.2.wait = .order && !(s.vat vat).inBeater e.1 then (e.1, { e.2 with wait := .run }) else e) } :=
  State.vat_setVat_same ..

theorem quiet_wakeOrder (h : Quiet s vat bi) : Quiet (s.wakeOrder vat) vat bi := by
  obtain ⟨harrived, hquires⟩ := h
  refine ⟨fun blk hb => harrived blk ?_, fun e he => ?_⟩
  · unfold State.block at hb ⊢
    rwa [State.wakeOrder_vat] at hb
  · unfold Vat.quiresOf at he
    rw [State.wakeOrder_vat] at he
    obtain ⟨hmem, hblock⟩ := List.mem_filter.mp he
    obtain ⟨e0, he0, rfl⟩ := List.mem_map.mp hmem
    split_ifs at hblock ⊢ with hwait
    · exact ⟨rfl, (hquires e0 (List.mem_filter.mpr ⟨he0, hblock⟩)).2⟩
    · exact hquires e0 (List.mem_filter.mpr ⟨he0, hblock⟩)

theorem storeFind_map_quires {f : Nat × Quire → Nat × Quire} (hf : ∀ e, (f e).1 = e.1 ∧ (f e).2.block = e.2.block)
    {m : List (Nat × Quire)} {k : Nat} {x : Quire} (h : storeFind m k = some x) :
    ∃ y, storeFind (m.map f) k = some y ∧ y.block = x.block := by
  induction m with
  | nil => cases h
  | cons e r ih =>
    rw [List.map_cons]
    unfold storeFind at h ⊢
    rw [(hf e).1]
    split_ifs at h ⊢ with hk
    · cases h
      exact ⟨_, rfl, (hf e).2⟩
    · exact ih h

theorem State.popped_beatPop (hops : (s.vat vat).ops = [o]) (hquiet : Quiet s vat bi) (hcalm : (s.vat vat).preempt = [])
    (hq : s.quire vat slot = some q) (hbi : q.block = bi) : Popped s (s.beatPop vat slot) vat bi := by
  unfold State.beatPop
  dsimp only
  generalize ha : s.setVat vat { s.vat vat with ops := (s.vat vat).ops.drop 1 } = a
  have hav : a.vat vat = { s.vat vat with ops := [] } := by
    rw [← ha, State.vat_setVat_same, hops]
    rfl
  have hkeep : a.mem = s.mem ∧ a.regs = s.regs := by
    rw [← ha]
    exact ⟨rfl, rfl⟩
  have hquietA : Quiet a vat bi := by
    unfold Quiet State.block
    rw [hav]
    exact hquiet
  have hquietW := quiet_wakeOrder hquietA
  have hw := State.wakeOrder_vat a vat
  rw [hav] at hw
  have hquire : ∃ y, (a.wakeOrder vat).quire vat slot = some y ∧ y.block = bi := by
    unfold State.quire
    rw [hw, ← hbi]
    exact storeFind_map_quires (fun e => by split_ifs <;> exact ⟨rfl, rfl⟩) hq
  have hkeepW : (a.wakeOrder vat).mem = s.mem ∧ (a.wakeOrder vat).regs = s.regs := hkeep
  generalize a.wakeOrder vat = w at hquietW hw hquire hkeepW
  obtain ⟨y, hy, hyb⟩ := hquire
  rw [hy]
  dsimp only
  rw [hyb, State.settle_of_quiet hquietW, State.trySave_of_calm]
  · refine ⟨?_, ?_, ?_, hkeepW.1, hkeepW.2⟩
    · rw [State.vat_setVat_same, hw]
    · rw [State.vat_setVat_same, hw]
    · unfold State.block
      rw [State.vat_setVat_same, hw]
  · rw [State.vat_setVat_same, hw]
    exact hcalm

theorem State.beatNext_of_nil (h : (s.vat vat).ops = []) : s.beatNext vat = s := by
  unfold State.beatNext
  rw [h]
  rfl

theorem State.beatNext_of_other (h : (s.vat vat).ops = o :: os) (ho : ∀ a b d e, o ≠ .tcvt a b d e) : s.beatNext vat = s := by
  unfold State.beatNext
  rw [h, List.length_cons]
  unfold State.beatDrain
  rw [h]
  cases o with
  | tcvt a b d e => exact absurd rfl (ho a b d e)
  | _ => rfl

/-! ### What the beater performs -/

section
variable {s1 s2 : State} {d : List Byte} {row col set pass : Nat} {l : Launch} {ha hb : Handle} {x y : Tile} {clear : Bool}
  {bss : List (List Byte)}

theorem State.slotBlock_of (hq : s.quire vat slot = some q) (hb : s.block vat q.block = some b)
    (hl : s.launch b.launch = some l) : s.slotBlock vat slot = some (q.block, b, l) := by
  unfold State.slotBlock
  rw [hq]
  dsimp only
  rw [hb]
  dsimp only
  rw [hl]
  rfl

/-- A pass of a TMMA that is not its last. -/
theorem State.tmmaRun_spec (hblock : s.slotBlock vat slot = some (bi, b, l))
    (hops : (s.vat vat).ops = .tmma slot set ha hb clear pass :: os) (hx : ha.asTile = some x) (hy : hb.asTile = some y)
    (hmore : 64 * (pass + 1) < x.k) (hvat : vat < 64) (hp : l.p < 32) :
    let u := s.tmmaRun vat slot set ha hb clear pass
    (u.vat vat).ops = .tmma slot set ha hb clear (pass + 1) :: os ∧
      ((u.vat vat).set set).els = passEls x y (b.tileElems x) (b.tileElems y)
        (if clear ∧ pass = 0 then [] else ((s.vat vat).set set).els) pass ∧
      ((u.vat vat).set set).int = intPath x.fmt y.fmt ∧ u.mem = s.mem ∧ (u.vat vat).blocks = (s.vat vat).blocks ∧
      u.rd .VAT_TPASSES_COUNT vat = (s.count .VAT_TPASSES_COUNT 1 vat).rd .VAT_TPASSES_COUNT vat := by
  intro u
  have hu : u = s.tmmaRun vat slot set ha hb clear pass := rfl
  clear_value u
  unfold State.tmmaRun at hu
  rw [hblock, hx, hy] at hu
  dsimp only at hu
  rw [if_neg (by omega)] at hu
  generalize hnew : ({ (s.vat vat).set set with
    int := intPath x.fmt y.fmt
    els := passEls x y (b.tileElems x) (b.tileElems y)
      (if (clear && decide (pass = 0)) = true then [] else ((s.vat vat).set set).els) pass } : AccSet) = new at hu
  generalize hs0 : (s.setVat vat { s.vat vat with sets := storePut set new (s.vat vat).sets }).count .VAT_TPASSES_COUNT 1 vat =
    s0 at hu
  have hs0v : s0.vat vat = { s.vat vat with sets := storePut set new (s.vat vat).sets } := by
    rw [← hs0]
    exact State.vat_setVat_same ..
  have hs0k : s0.mem = s.mem ∧ s0.regs = (s.count .VAT_TPASSES_COUNT 1 vat).regs := by
    rw [← hs0]
    exact ⟨rfl, rfl⟩
  have huse : s0.useBeater l.p (passClocks x.fmt y.fmt) = { s0 with regs := (s0.useBeater l.p (passClocks x.fmt y.fmt)).regs } ∧
      FieldsKept [.HB_USE_BEATER] s0 (s0.useBeater l.p (passClocks x.fmt y.fmt)) := by
    unfold State.useBeater
    split_ifs
    · exact ⟨rfl, (FieldsKept.refl ..).wr (by decide) (by omega) (by decide)⟩
    · exact ⟨rfl, .refl ..⟩
  generalize s0.useBeater l.p (passClocks x.fmt y.fmt) = a at hu huse
  have hav : a.vat vat = s0.vat vat := State.vat_congr (by rw [huse.1]) vat
  have huv : u.vat vat = { a.vat vat with ops := .tmma slot set ha hb clear (pass + 1) :: (a.vat vat).ops.drop 1 } := by
    rw [hu]
    exact State.vat_setVat_same ..
  rw [hav, hs0v] at huv
  have hset : (u.vat vat).set set = new := by
    unfold Vat.set
    rw [huv]
    dsimp only
    rw [storeFind_put, if_pos rfl]
    rfl
  refine ⟨?_, ?_, ?_, ?_, ?_, ?_⟩
  · rw [huv]
    dsimp only
    rw [hops]
    rfl
  · rw [hset, ← hnew]
    simp only [Bool.and_eq_true, decide_eq_true_eq]
  · rw [hset, ← hnew]
  · rw [hu]
    change a.mem = s.mem
    rw [huse.1]
    exact hs0k.1
  · rw [huv]
  · rw [hu]
    refine (State.rd_congr (t := _) (s := a) rfl _ _ _).trans ?_
    exact (huse.2.rd _ (by decide) _ (by omega) _ (by decide)).trans (State.rd_congr hs0k.2 _ _ _)

/-- A TLD whose rows have been read stages its elements. -/
theorem State.tldRun_of_read (hblock : s.slotBlock vat slot = some (bi, b, l)) (hcols : 0 < (tldShape d row col).2.2.2)
    (hfoot : s.footprints (beaterAsker vat l.p) (.beater vat) l.p (sortRanges (((List.range (tldShape d row col).2.2.1).map
      (fun r => rowSpan d (row + r) col (tldShape d row col).2.2.2)).map (fun x => (x.1, x.2, rightR)))) = (s1, .ok ()))
    (hread : s1.vReadList (beaterAsker vat l.p) (.beater vat) l.p ((List.range (tldShape d row col).2.2.1).map
      (fun r => rowSpan d (row + r) col (tldShape d row col).2.2.2)) = (s2, .ok bss)) :
    s.tldRun vat slot d row col = (s2.setBlock vat bi (b.setPress 3 (dF d 32 4) (packElems (dF d 25 1)
      ((List.range (tldShape d row col).1).flatMap (fun r => (List.range (tldShape d row col).2.1).map (fun c =>
        if r < (tldShape d row col).2.2.1 ∧ c < (tldShape d row col).2.2.2 then
          loadConv (dF d 24 1) (dF d 25 1) (dFlag d 0) (elemAt (dF d 24 1) (bss.getD r []) c) else 0)))))).beatPop vat slot := by
  obtain ⟨foot, hfdef⟩ : ∃ f, @State.footprints = f := ⟨_, rfl⟩
  obtain ⟨read, hrdef⟩ : ∃ f, @State.vReadList = f := ⟨_, rfl⟩
  rw [hfdef] at hfoot
  rw [hrdef] at hread
  generalize hshape : tldShape d row col = shape at hcols hfoot hread ⊢
  obtain ⟨nr, nc, rows, cols⟩ := shape
  dsimp only at hcols hfoot hread ⊢
  conv in State.tldRun => delta State.tldRun
  rw [hfdef, hrdef]
  dsimp only
  rw [hblock]
  dsimp only
  rw [hshape]
  dsimp only
  rw [if_neg (by omega), hfoot]
  dsimp only
  rw [hread]
  simp only [Bool.and_eq_true, decide_eq_true_eq]

theorem tstReads_plain (int : Bool) (hscale : dFlag d 1 = false) (hcomb : dFlag d 4 = false) (hfmt : dF d 24 1 ≠ 0) :
    tstReads d row col int = ([], [], []) := by
  unfold tstReads
  simp [hscale, hcomb, hfmt]

/-- A TST without partials, scales and old bytes whose results have been written. -/
theorem State.tstRun_of_written {rel : Bool} (hblock : s.slotBlock vat slot = some (bi, b, l)) (hscale : dFlag d 1 = false)
    (hpart : dFlag d 3 = false) (hcomb : dFlag d 4 = false) (hfmt : dF d 24 1 ≠ 0)
    (hfoot : s.footprints (beaterAsker vat l.p) (.beater vat) l.p
      (sortRanges ((tstSpans d row col).map (fun x => (x.1, x.2, rightW)))) = (s1, .ok ()))
    (hwrite : s1.vWriteList (beaterAsker vat l.p) (.beater vat) l.p (tstWrites d row col ((s.vat vat).set set).int
      ((List.range 4096).map (fun i => ((s.vat vat).set set).els.getD i 0)) (scalesOf (tstShape d row col).2 []) []) =
      (s2, .ok ())) :
    s.tstRun vat slot set d row col rel = (s2.setVat vat ((s2.vat vat).freeSet rel set)).beatPop vat slot := by
  have hreadNil : s1.vReadList (beaterAsker vat l.p) (.beater vat) l.p ([] ++ [] ++ []) = (s1, .ok []) := rfl
  obtain ⟨foot, hfdef⟩ : ∃ f, @State.footprints = f := ⟨_, rfl⟩
  obtain ⟨read, hrdef⟩ : ∃ f, @State.vReadList = f := ⟨_, rfl⟩
  obtain ⟨write, hwdef⟩ : ∃ f, @State.vWriteList = f := ⟨_, rfl⟩
  rw [hfdef] at hfoot
  rw [hrdef] at hreadNil
  rw [hwdef] at hwrite
  conv in State.tstRun => delta State.tstRun
  rw [hfdef, hrdef, hwdef]
  generalize List.range 4096 = all at hwrite ⊢
  dsimp only
  rw [hblock]
  dsimp only
  rw [hpart, if_neg Bool.false_ne_true, tstReads_plain _ hscale hcomb hfmt]
  simp only [List.map_nil, List.nil_append]
  rw [hfoot]
  simp only [List.append_nil] at hreadNil
  dsimp only
  rw [hreadNil]
  simp only [List.take_nil, List.drop_nil]
  unfold tstValues
  rw [hcomb, if_neg Bool.false_ne_true, hwrite]

end

end

end Sys2Proof.Machine
end

