-- ==== Sys2Proof/Proofs/TensorIssue.lean ====
section
/-!
PROOF. Tensor instructions enter the beater (R148, R149, R155, R158, R160, R164), and O38.
-/

namespace Sys2Proof.Machine
open Sys2Proof.Claims

section
variable {s s1 a : State} {c : BCtx} {q : Quire} {o : BeatOp} {d : List Byte} {x y : Tile} {set n : Nat}

/-- What an instruction leaves that enters the beater. -/
theorem BCtx.enter_spec (c : BCtx) (a : State) (q : Quire) (o : BeatOp) :
    ((c.enter a q o).vat c.vat).ops = (a.vat c.vat).ops ++ [o] ∧
      (c.enter a q o).quire c.vat c.slot = some { q with pc := c.i.next } ∧
      ((c.enter a q o).vat c.vat).preempt = (a.vat c.vat).preempt ∧ (c.enter a q o).mem = a.mem ∧
      (c.enter a q o).regs = a.regs := by
  have hput : (a.setQuire c.vat c.slot { q with pc := c.i.next }).quire c.vat c.slot = some { q with pc := c.i.next } :=
    State.quire_setQuire_same ..
  unfold BCtx.enter BCtx.put
  dsimp only
  refine ⟨?_, ?_, ?_, rfl, rfl⟩
  · rw [State.vat_setVat_same, State.vat_setQuire]
  · unfold State.quire at hput ⊢
    rw [State.vat_setVat_same]
    exact hput
  · rw [State.vat_setVat_same, State.vat_setQuire]

theorem Quire.handle_bind (q : Quire) (h h' : Nat) (t : Handle) : (q.bind h t).handle h' = if h' = h then t else q.handle h' := by
  unfold Quire.handle Quire.bind
  dsimp only
  rw [storeFind_put]
  split_ifs <;> rfl

/-! ### Each instruction at its issue -/

theorem BCtx.tldIssue_of_read (hmode : c.tensorMode = false) (halign : c.q.spair (c.i.a - 256) % 128 = 0)
    (hread : c.descriptor s (c.q.spair (c.i.a - 256)) = (s1, .ok d))
    (hok : tldRefusal d c.origin.2 c.l.bbytes (c.q.handle (c.i.d - 328)) = none) (hplace : dMisaligned d = false) :
    c.tldIssue s = (c.enter s1 (c.q.bind (c.i.d - 328) (.tile (dF d 26 1) (dF d 25 1) (dF d 28 4) (dF d 32 4)))
      (.tld c.slot d c.origin.1 c.origin.2), true) := by
  obtain ⟨read, hdef⟩ : ∃ f, @BCtx.descriptor = f := ⟨_, rfl⟩
  rw [hdef] at hread
  conv in BCtx.tldIssue => delta BCtx.tldIssue
  rw [hdef]
  dsimp only
  rw [hmode, if_neg Bool.false_ne_true, if_neg (by omega), hread]
  dsimp only
  rw [hok]
  dsimp only
  rw [hplace, if_neg Bool.false_ne_true]

theorem BCtx.tstIssue_of_read (hmode : c.tensorMode = false) (hset : c.q.handle (c.i.a - 328) = .acc set)
    (halign : c.q.spair (c.i.b - 256) % 128 = 0) (hread : c.descriptor s (c.q.spair (c.i.b - 256)) = (s1, .ok d))
    (hok : tstRefusal d c.origin.2 (((s1.vat c.vat).kindAt set).getD false) = none)
    (hplace : dFlag d 3 = true ∨ (dMisaligned d = false ∧ (dFlag d 1 = false ∨ dF d 40 8 % 4 = 0)))
    (hkeep : bitAt c.i.mod 0 = false) :
    c.tstIssue s = (c.enter s1 c.q (.tst c.slot set d c.origin.1 c.origin.2 false), true) := by
  obtain ⟨read, hdef⟩ : ∃ f, @BCtx.descriptor = f := ⟨_, rfl⟩
  rw [hdef] at hread
  have hnot : ¬(!dFlag d 3 && (dMisaligned d || (dFlag d 1 && decide (dF d 40 8 % 4 ≠ 0)))) = true := by
    obtain h | ⟨h, h' | h'⟩ := hplace
    · simp [h]
    · simp [h, h']
    · simp [h, h']
  conv in BCtx.tstIssue => delta BCtx.tstIssue
  rw [hdef]
  dsimp only
  rw [hmode, if_neg Bool.false_ne_true, hset]
  dsimp only
  rw [if_neg (by omega), hread]
  dsimp only
  rw [hok]
  dsimp only
  rw [if_neg hnot, hkeep]
  rfl

section
variable (hmode : c.tensorMode = false) (hx : (c.q.handle (c.i.a - 328)).asTile = some x)
  (hy : (c.q.handle (c.i.b - 328)).asTile = some y) (hrx : x.role = 0) (hry : y.role = 1) (hk : x.k = y.k)
include hmode hx hy hrx hry hk

/-- A TMMA on a held set that clears it enters. -/
theorem BCtx.tmmaIssue_held (hacq : c.i.acq = 0) (hset : c.q.handle (c.i.d - 328) = .acc set)
    (hclear : bitAt c.i.mod 2 = true) :
    c.tmmaIssue s = (c.enter s c.q (.tmma c.slot set (c.q.handle (c.i.a - 328)) (c.q.handle (c.i.b - 328)) true 0), true) := by
  unfold BCtx.tmmaIssue
  simp [hmode, hx, hy, hacq, hset, hclear, hrx, hry, hk, firstRefusal]

/-- A TMMA that acquires a set joins those that wait. -/
theorem BCtx.tmmaIssue_waits (hacq : c.i.acq = 1) (hfree : c.q.t.any (fun e => e.2.isAcc) = false)
    (hothers : (s.vat c.vat).acqq ≠ []) :
    c.tmmaIssue s = ((c.put s { c.q with wait := .acq 1 }).setVat c.vat
      { (c.put s { c.q with wait := .acq 1 }).vat c.vat with
        acqq := (s.vat c.vat).acqq ++ [⟨c.slot, c.i.d - 328, 1⟩] }, true) := by
  have hacqq : ((c.put s { c.q with wait := .acq 1 }).vat c.vat).acqq = (s.vat c.vat).acqq := by
    unfold BCtx.put
    rw [State.vat_setQuire]
  have hempty : (s.vat c.vat).acqq.isEmpty = false := by simpa using hothers
  unfold BCtx.tmmaIssue
  simp [hmode, hx, hy, hacq, hrx, hry, hk, hfree, firstRefusal, hacqq, hempty]

end

/-- A TCVT in order enters. -/
theorem BCtx.tcvtIssue_of_ok (hmode : c.tensorMode = false) (hx : (c.q.handle (c.i.a - 328)).asTile = some x)
    (hfmt : fmtOperand (bits c.i.mod 12 9) = true) (hload : loadOk x.fmt (bits c.i.mod 12 9) = true)
    (halign : c.q.sreg (c.i.b - 256) % 256 = 0)
    (hroom : c.q.sreg (c.i.b - 256) + tileBytes (bits c.i.mod 12 9) x.k ≤ c.l.bbytes)
    (hapart : x.buf + tileBytes x.fmt x.k ≤ c.q.sreg (c.i.b - 256)) (hdst : (c.q.handle (c.i.d - 328)).isAcc = false) :
    c.tcvtIssue s = (c.enter s (c.q.bind (c.i.d - 328) (.tile x.role (bits c.i.mod 12 9) x.k (c.q.sreg (c.i.b - 256))))
      (.tcvt c.slot (c.q.handle (c.i.a - 328)) (.tile x.role (bits c.i.mod 12 9) x.k (c.q.sreg (c.i.b - 256)))
        (bitAt c.i.mod 8)), true) := by
  have hmeets : meets (c.q.sreg (c.i.b - 256)) (tileBytes (bits c.i.mod 12 9) x.k) x.buf (tileBytes x.fmt x.k) = false := by
    unfold meets
    simp only [Bool.and_eq_false_iff, decide_eq_false_iff_not]
    exact .inl (by omega)
  have hfits : decide (c.l.bbytes < c.q.sreg (c.i.b - 256) + tileBytes (bits c.i.mod 12 9) x.k) = false :=
    decide_eq_false (by omega)
  unfold BCtx.tcvtIssue
  simp only [hmode, hx, Bool.false_eq_true, if_false, hfmt, hload, halign, hmeets, hfits, hdst, firstRefusal, List.find?,
    Bool.not_true, ne_eq, not_true_eq_false, decide_false, Bool.false_or, Bool.false_and, Option.map_none]

/-! ### The head of the acquisition queue (R149) -/

theorem State.grantHead_of_free {r : AcqReq} {b : Block} {l : Launch} {i : BInst} (hq0 : (s.vat n).acqq = [r]) (hone : r.n = 1)
    (hfree : (s.vat n).freeSets = [0, 1]) (hq : s.quire n r.slot = some q) (hb : s.block n q.block = some b)
    (hl : s.launch b.launch = some l) (hi : decodeInst l.mod.code q.pc = some i) :
    s.grantHead n = (s.setVat n { s.vat n with
      acqq := []
      sets := storePut 0 { owner := some (r.slot, r.h) } (s.vat n).sets
      ops := (s.vat n).ops ++ [.tmma r.slot 0 (q.handle (i.a - 328)) (q.handle (i.b - 328)) (bitAt i.mod 2) 0] }).setQuire n
        r.slot { q.bind r.h (.acc 0) with wait := .run, pc := i.next } := by
  unfold State.grantHead
  dsimp only
  rw [hq0]
  dsimp only
  rw [hfree, hone, if_neg (by decide), hq]
  dsimp only
  rw [hb]
  dsimp only [Option.bind]
  rw [hl]
  dsimp only
  rw [hi]
  rfl

end

end Sys2Proof.Machine

namespace Sys2Proof.Claims

open Sys2Proof Sys2Proof.Machine

section
variable {s s1 : State} {vat slot : Fin 64} {op : Nat} {c : BCtx}

/-- A tensor instruction that enters the beater, from the counted state or from what its descriptor's read left. -/
theorem Issues.enters (h : Issues s vat slot op c) {a : State} {q : Quire} {o : BeatOp} {k : State → BCtx → State × Bool}
    (hcalm : (a.vat vat).preempt = []) (hk : k (Counted s c) c = (c.enter a q o, true)) :
    ∃ u, s.issueMem vat slot op k = u ∧ (u.vat vat).ops = (a.vat vat).ops ++ [o] ∧
      u.quire vat slot = some { q with pc := c.i.next } ∧ u.mem = a.mem ∧ u.regs = a.regs := by
  obtain ⟨hops, hquire, hpre, hmem, hregs⟩ := BCtx.enter_spec c a q o
  rw [h.place.1] at hops hquire hpre
  rw [h.place.2] at hquire
  exact ⟨_, h.issueMem_eq hk (hpre.trans hcalm), hops, hquire, hmem, hregs⟩

theorem Issues.calm_counted (h : Issues s vat slot op c) : ((Counted s c).vat vat).preempt = [] :=
  (preempt_counted ..).trans h.calm

theorem ops_counted (s : State) (c : BCtx) (n : Nat) : ((Counted s c).vat n).ops = (s.vat n).ops := by
  rw [vat_counted]

theorem Issues.countersOnly (h : Issues s vat slot op c) {u : State} (hu : u.regs = (Counted s c).regs) :
    CountersOnly s u vat := by
  rw [← h.place.1]
  exact fun f i j hi hj hmem => (State.rd_congr hu f i j).trans (countersOnly_counted s c h.vat_lt f i j hi hj hmem)

theorem tensorInstructionsEnterTheBeater : TensorInstructionsEnterTheBeater := by
  intro s s1 vat slot c d x y set o os hmode hcalm
  refine ⟨fun h halign hread hok hplace => ?tld, fun h hacq hx hy hrx hry hk hset hclear => ?held,
    fun h hacq hx hy hrx hry hk hfree hothers => ?waits, fun h hset halign hread hok hplace hkeep => ?tst,
    fun h hx hfmt hload halign hroom hapart hdst hops ho => ?tcvt, fun r q b l i hlive hacqq hone hfree hq hb hl hi => ?grant⟩
  case tld =>
    obtain ⟨u, hu, hops, hquire, hmem, -⟩ := h.enters hcalm (k := fun s c => c.tldIssue s)
      (BCtx.tldIssue_of_read hmode halign hread hok hplace)
    rw [h.place.2] at hops
    refine ⟨u, congrArg Host.Outcome.next hu, hops, ⟨_, hquire, rfl, ?_, fun n hn => ?_⟩, hmem⟩
    · exact (Quire.handle_bind ..).trans (if_pos rfl)
    · exact (Quire.handle_bind ..).trans (if_neg hn)
  case held =>
    obtain ⟨u, hu, hops, hquire, -, hregs⟩ := h.enters h.calm_counted (k := fun s c => c.tmmaIssue s)
      (BCtx.tmmaIssue_held hmode hx hy hrx hry hk hacq hset hclear)
    rw [h.place.2, ops_counted] at hops
    exact ⟨u, congrArg Host.Outcome.next hu, hquire, hops, h.countersOnly hregs⟩
  case waits =>
    have hacqq : ((Counted s c).vat c.vat).acqq = (s.vat vat).acqq := by rw [vat_counted, h.place.1]
    have hk := BCtx.tmmaIssue_waits (s := Counted s c) hmode hx hy hrx hry hk hacq hfree (by rw [hacqq]; exact hothers)
    rw [hacqq] at hk
    have hput : (c.put (Counted s c) { c.q with wait := .acq 1 }).quire c.vat c.slot = some { c.q with wait := .acq 1 } :=
      State.quire_setQuire_same ..
    have hpre : ((c.put (Counted s c) { c.q with wait := .acq 1 }).vat c.vat).preempt = [] :=
      (preempt_put ..).trans (h.place.1 ▸ h.calm_counted)
    have hputOps : ((c.put (Counted s c) { c.q with wait := .acq 1 }).vat c.vat).ops = (s.vat vat).ops := by
      unfold BCtx.put
      rw [State.vat_setQuire]
      exact (ops_counted ..).trans (by rw [h.place.1])
    generalize c.put (Counted s c) { c.q with wait := .acq 1 } = a at hk hput hpre hputOps
    refine ⟨_, congrArg Host.Outcome.next (h.issueMem_eq (k := fun s c => c.tmmaIssue s) hk ?_), ?_, ?_, ?_⟩
    · rw [← h.place.1, State.vat_setVat_same]
      exact hpre
    · rw [← h.place.1, ← h.place.2]
      unfold State.quire at hput ⊢
      rw [State.vat_setVat_same]
      exact hput
    · rw [← h.place.1, ← h.place.2, State.vat_setVat_same]
    · rw [← h.place.1, State.vat_setVat_same]
      exact hputOps.trans (by rw [h.place.1])
  case tst =>
    obtain ⟨u, hu, hops, hquire, hmem, -⟩ := h.enters hcalm (k := fun s c => c.tstIssue s)
      (BCtx.tstIssue_of_read hmode hset halign hread (by rw [h.place.1]; exact hok) hplace hkeep)
    rw [h.place.2] at hops
    exact ⟨u, congrArg Host.Outcome.next hu, hquire, hops, hmem⟩
  case tcvt =>
    obtain ⟨u, hu, hops', -, -, hregs⟩ := h.enters h.calm_counted (k := fun s c => c.tcvtIssue s)
      (BCtx.tcvtIssue_of_ok hmode hx hfmt hload halign hroom hapart hdst)
    rw [h.place.2, ops_counted, hops] at hops'
    refine ⟨u, congrArg Host.Outcome.next ((if_pos h.live).trans ?_), hops', h.countersOnly hregs⟩
    rw [hu]
    exact State.beatNext_of_other hops' ho
  case grant =>
    have hgrant := State.grantHead_of_free hacqq hone hfree hq hb hl hi
    refine ⟨_, _, congrArg Host.Outcome.next ((if_pos hlive).trans hgrant), ?_, State.quire_setQuire_same .., ?_, rfl, rfl, ?_, ?_,
      rfl, rfl⟩
    · rw [State.vat_setQuire, State.vat_setVat_same]
    · exact (Quire.handle_bind q r.h r.h (.acc 0)).trans (if_pos rfl)
    · unfold Vat.set
      rw [State.vat_setQuire, State.vat_setVat_same]
      dsimp only
      rw [storeFind_put, if_pos rfl]
      rfl
    · unfold Vat.set
      rw [State.vat_setQuire, State.vat_setVat_same]
      dsimp only
      rw [storeFind_put, if_pos rfl]
      rfl

theorem Quiet.of_vat {t u : State} {n b : Nat} (h : Quiet t n b) (hq : (u.vat n).quires = (t.vat n).quires)
    (hb : ∀ blk, u.block n b = some blk → blk.arrived = []) : Quiet u n b := by
  refine ⟨hb, fun e he => h.2 e ?_⟩
  unfold Vat.quiresOf at he ⊢
  rwa [hq] at he

theorem arrived_setPress (b : Block) (sp a : Nat) (bs : List Byte) : (b.setPress sp a bs).arrived = b.arrived := by
  unfold Block.setPress
  split_ifs <;> rfl

theorem beaterPerformsTheOldest : BeaterPerformsTheOldest := by
  intro s s1 s2 s3 vat slot b bi l q rest hlive hq hb hl hbi hp
  subst hbi
  have hblock := State.slotBlock_of hq hb hl
  have hvat : (vat : Nat) < 64 := vat.isLt
  refine ⟨fun set ha hb' clear pass x y hops hx hy hmore => ?pass, fun d row col bss hops hcols hfoot hread hquiet hcalm hops2 hq2
    hb2 => ?loaded, fun set d row col rel hops hscale hpart hcomb hfmt hfoot hwrite hquiet hcalm hops3 hq3 hb3 => ?stored⟩
  case pass =>
    obtain ⟨hops', hels, hint, hmem, hblocks, hcount⟩ := State.tmmaRun_spec hblock hops hx hy hmore hvat hp
    have hrun : exec (.tmmaPassStart vat) s = .next (s.tmmaRun vat slot set ha hb' clear pass) := by
      refine congrArg Host.Outcome.next ?_
      rw [hlive, hops]
      exact State.beatNext_of_other hops' (by simp)
    refine ⟨_, hrun, hops', hels, hint, hmem, ?_, hcount⟩
    unfold State.block at hb ⊢
    rw [hblocks]
    exact hb
  case loaded =>
    have hrun := State.tldRun_of_read hblock hcols hfoot hread
    generalize hb' : b.setPress 3 (dF d 32 4) _ = b' at hrun
    have hset : (s2.setBlock vat q.block b').vat vat = { s2.vat vat with blocks := storePut q.block b' (s2.vat vat).blocks } :=
      State.vat_setVat_same ..
    have harrived : ∀ blk, (s2.setBlock vat q.block b').block vat q.block = some blk → blk.arrived = [] := by
      intro blk hblk
      rw [State.block_setBlock_same] at hblk
      cases hblk
      rw [← hb', arrived_setPress]
      exact hquiet.1 b hb2
    have hpop := State.popped_beatPop (s := s2.setBlock vat q.block b') (slot := slot) (q := q) (by rw [hset]; exact hops2)
      (hquiet.of_vat (by rw [hset]) harrived) (by rw [hset]; exact hcalm) (by unfold State.quire; rw [hset]; exact hq2) rfl
    rw [← hrun] at hpop
    refine ⟨s.tldRun vat slot d row col, b', congrArg Host.Outcome.next ?_, hpop.ops, hpop.mem, hpop.regs,
      hpop.block.trans (State.block_setBlock_same ..), rfl⟩
    rw [hlive, hops]
    exact State.beatNext_of_nil hpop.ops
  case stored =>
    have hrun := State.tstRun_of_written (rel := rel) hblock hscale hpart hcomb hfmt hfoot hwrite
    have hset : (s3.setVat vat ((s3.vat vat).freeSet rel set)).vat vat = (s3.vat vat).freeSet rel set := State.vat_setVat_same ..
    have hfree : (s3.vat vat).freeSet rel set = { s3.vat vat with sets := ((s3.vat vat).freeSet rel set).sets } := by
      unfold Vat.freeSet
      split_ifs <;> rfl
    have hpop := State.popped_beatPop (s := s3.setVat vat ((s3.vat vat).freeSet rel set)) (slot := slot) (q := q)
      (by rw [hset, hfree]; exact hops3)
      (hquiet.of_vat (by rw [hset, hfree]) fun blk hblk => hquiet.1 blk (by
        unfold State.block at hblk ⊢
        rwa [hset, hfree] at hblk))
      (by rw [hset, hfree]; exact hcalm) (by unfold State.quire; rw [hset, hfree]; exact hq3) rfl
    rw [← hrun] at hpop
    refine ⟨s.tstRun vat slot set d row col rel, congrArg Host.Outcome.next ?_, hpop.ops, hpop.mem, hpop.regs, fun hrel => ?_,
      fun hrel => ?_⟩
    · rw [hlive, hops]
      exact State.beatNext_of_nil hpop.ops
    · rw [hpop.sets, hset, hrel]
      exact (storeFind_erase ..).trans (if_pos rfl)
    · rw [hpop.sets, hset, hrel]
      rfl

/-- Settles O38: how each tensor instruction enters the beater, and how the beater performs its oldest. -/
theorem tensorInstructionsRun : Obligations.TensorInstructionsRun := ⟨tensorInstructionsEnterTheBeater, beaterPerformsTheOldest⟩

end

end Sys2Proof.Claims
end

