-- ==== Sys2Proof/Proofs/FeltLink.lean ====
section
/-!
PROOF. Messages on the felt ports (R410 to R425): what taking a message from a receive buffer, answering it and sending another
change, and that a message queued at a port stays in its transmit buffer or goes on the wire.
-/

namespace Sys2Proof.Machine
open Sys2Proof.Claims

/-- A port has a message to send, or has sent it. -/
def FPort.Carries (f : FPort) (m : List Byte) : Prop :=
  (∃ x ∈ f.tx, x.bytes = m) ∨ ∃ fl ∈ f.wire, slice fl 4 244 = slice m 0 244

/-- Every port still carries what it carried, and has received nothing more. -/
structure LinkGrows (s u : State) : Prop where
  carries : ∀ j m, (s.port j).Carries m → (u.port j).Carries m
  rx : ∀ j, (u.port j).rx = (s.port j).rx

/-- The fields that a message sent to another chip may change: the use of the ring and the credits of its partition. -/
def linkFields : List Field :=
  [.HB_USE_FELT, .SCH_SB_CREDIT_DRAM, .SCH_SB_CREDIT_L2, .SCH_SB_CREDIT_FELT, .SCH_SB_CREDIT_PIXELS, .SCH_SB_OVER_UNITS]

/-- Only the ports changed, and the credits and the use of the ring. -/
structure PortsOnly (s u : State) : Prop where
  frame : u = { s with
    regs := u.regs, sched := { s.sched with taken := u.sched.taken }, ring := { s.ring with ports := u.ring.ports } }
  fields : FieldsKept linkFields s u

/-- Only the ports changed, the answers kept for repeated requests, and the credits and the use of the ring. -/
structure LinkOnly (s u : State) : Prop where
  frame : u = { s with
    regs := u.regs, sched := { s.sched with taken := u.sched.taken }
    ring := { s.ring with ports := u.ring.ports, performed := u.ring.performed } }
  fields : FieldsKept linkFields s u

section
variable {s t u : State} {k j : Nat} {f : FPort} {m : List Byte}

theorem sends_iff : Sends u m ↔ ∃ k < 2, (u.port k).Carries m := Iff.rfl

theorem Carries.sends (h : (u.port k).Carries m) (hk : k < 2) : Sends u m := ⟨k, hk, h⟩

theorem LinkGrows.refl (s : State) : LinkGrows s s := ⟨fun _ _ => id, fun _ => rfl⟩

theorem LinkGrows.trans (h : LinkGrows s t) (g : LinkGrows t u) : LinkGrows s u :=
  ⟨fun j m hm => g.carries j m (h.carries j m hm), fun j => (g.rx j).trans (h.rx j)⟩

theorem LinkGrows.sends (h : LinkGrows s u) (hm : Sends s m) : Sends u m := by
  obtain ⟨k, hk, hc⟩ := hm
  exact ⟨k, hk, h.carries k m hc⟩

theorem State.port_congr (h : t.ring.ports = s.ring.ports) (j : Nat) : t.port j = s.port j := by
  unfold State.port
  rw [h]

theorem linkGrows_of_ports (h : t.ring.ports = s.ring.ports) : LinkGrows s t :=
  ⟨fun j m => by rw [State.port_congr h]; exact id, fun j => by rw [State.port_congr h]⟩

theorem LinkGrows.of_ports (h : LinkGrows s t) (hp : u.ring.ports = t.ring.ports) : LinkGrows s u := h.trans (linkGrows_of_ports hp)

theorem LinkGrows.after (g : LinkGrows t u) (hp : t.ring.ports = s.ring.ports) : LinkGrows s u := (linkGrows_of_ports hp).trans g

theorem FieldsKept.after {l : List Field} (g : FieldsKept l t u) (hr : t.regs = s.regs) : FieldsKept l s u :=
  (fieldsKept_of_regs hr).trans g

theorem LinkGrows.foldl {α : Type} {g : State → α → State} (hg : ∀ s x, LinkGrows s (g s x)) (xs : List α) (s : State) :
    LinkGrows s (xs.foldl g s) :=
  List.foldlRecOn xs g (.refl s) fun t ht x _ => ht.trans (hg t x)

theorem State.port_setPort (s : State) (k : Nat) (f : FPort) (j : Nat) : (s.setPort k f).port j = if j = k then f else s.port j :=
  storeGet_set ..

theorem LinkGrows.setPort (hrx : f.rx = (s.port k).rx) (hc : ∀ m, (s.port k).Carries m → f.Carries m) :
    LinkGrows s (s.setPort k f) := by
  constructor
  · intro j m hm
    rw [State.port_setPort]
    split_ifs with hj
    · exact hc m (hj ▸ hm)
    · exact hm
  · intro j
    rw [State.port_setPort]
    split_ifs with hj
    · rw [hrx, hj]
    · rfl

theorem portsOnly_of_eq {regs taken ports}
    (h : u = { s with regs, sched := { s.sched with taken }, ring := { s.ring with ports } })
    (hf : FieldsKept linkFields s u) : PortsOnly s u := by
  subst h
  exact ⟨rfl, hf⟩

theorem PortsOnly.refl (s : State) : PortsOnly s s := ⟨rfl, .refl ..⟩

theorem PortsOnly.trans (h : PortsOnly s t) (g : PortsOnly t u) : PortsOnly s u := by
  refine ⟨?_, h.fields.trans g.fields⟩
  have hf := g.frame
  rw [h.frame] at hf
  exact hf

theorem PortsOnly.linkOnly (h : PortsOnly s u) : LinkOnly s u := by
  refine ⟨?_, h.fields⟩
  have hring : u.ring.performed = s.ring.performed := by rw [h.frame]
  rw [hring]
  exact h.frame

theorem LinkOnly.trans (h : LinkOnly s t) (g : LinkOnly t u) : LinkOnly s u := by
  refine ⟨?_, h.fields.trans g.fields⟩
  have hf := g.frame
  rw [h.frame] at hf
  exact hf

theorem portsOnly_setPort (s : State) (k : Nat) (f : FPort) : PortsOnly s (s.setPort k f) := ⟨rfl, fieldsKept_of_regs rfl⟩

theorem PortsOnly.ite {p : Prop} [Decidable p] (ht : PortsOnly s t) (hu : PortsOnly s u) : PortsOnly s (if p then t else u) := by
  split_ifs
  · exact ht
  · exact hu

/-! ### Flits -/

theorem length_slice (bs : List Byte) (off n : Nat) : (slice bs off n).length = n := by
  unfold slice
  simp only [List.length_append, List.length_replicate, List.length_take]
  omega

theorem leAt_lt (bs : List Byte) (off n : Nat) : leAt bs off n < 256 ^ n := by
  have h := ofLe_lt (slice bs off n)
  rwa [length_slice] at h

/-- A flit of a message carries its bytes behind the header (R412). -/
theorem slice_mkFlit (seq ack cvc ccls credits cls vc kind : Nat) (m : List Byte) :
    slice (mkFlit seq ack cvc ccls credits cls vc kind m) 4 244 = slice m 0 244 := by
  have hlen : (slice m 0 244).length = 244 := length_slice ..
  unfold mkFlit
  dsimp only [payloadBytes]
  generalize toLe 8 _ = crc
  generalize slice m 0 244 = p at hlen
  unfold slice
  rw [List.append_assoc, List.drop_left' (length_toLe ..), List.take_left' hlen]
  dsimp only
  rw [hlen]
  exact List.append_nil p

theorem FPort.Carries.returned (h : f.Carries m) : f.returned.Carries m := h

theorem FPort.Carries.sendBare {kind : Nat} (h : f.Carries m) : (f.sendBare kind).Carries m :=
  h.imp id fun ⟨fl, hfl, heq⟩ => ⟨fl, List.mem_cons_of_mem _ hfl, heq⟩

/-! ### Sending -/

theorem linkFields_charge {a r units : Nat} (ha : a < 65536) : FieldsKept linkFields s (s.charge a r units) := by
  have hcredit : (budgetFields r).1 ∈ linkFields := by
    unfold budgetFields
    split_ifs <;> decide
  unfold State.charge
  refine .ite (.refl ..) ?_
  extract_lets credit s1 s2
  have hspent : FieldsKept linkFields s s1 := (FieldsKept.refl ..).wr hcredit ha (by decide)
  have hover : FieldsKept linkFields s s2 := .ite (hspent.count (by decide) ha (by decide)) hspent
  exact .ite hover (.of_regs (t := s2) rfl hover)

theorem portsOnly_charge {a : Nat} (ha : a < 65536) (r units : Nat) : PortsOnly s (s.charge a r units) :=
  portsOnly_of_eq ((State.charge_frame s a r units).trans (congrArg (fun x => { s with regs := (s.charge a r units).regs, sched := x })
    ((Keeps.refl True s).charge.work trivial).sched)) (linkFields_charge ha)

theorem portsOnly_sendMsg (k : Nat) (x : Msg) : PortsOnly s (s.sendMsg k x) := by
  have hpart : msgPart x.bytes < 65536 := Nat.lt_trans (msgPart_lt _) (by decide)
  unfold State.sendMsg
  extract_lets f fl _ f1 part s1
  refine PortsOnly.trans (portsOnly_setPort s k f1) (PortsOnly.ite (.refl s1) ?_)
  extract_lets
  refine PortsOnly.trans (PortsOnly.ite ?_ (.refl s1)) (portsOnly_charge hpart 2 4)
  exact portsOnly_of_eq rfl ((FieldsKept.refl ..).wr (by decide) hpart (by decide))

theorem State.ports_sendMsg (s : State) (k : Nat) (x : Msg) :
    (s.sendMsg k x).ring.ports = (s.setPort k { (s.port k).returned with
      tx := (s.port k).tx.erase x
      txSeq := ((s.port k).txSeq + 1) % 256
      replay := (s.port k).replay ++ [((s.port k).txSeq, (s.port k).flit x.cls x.vc 1 x.bytes)]
      credits := (s.port k).credits.modify (2 * x.vc + x.cls) (fun c => c - 1)
      wire := (s.port k).flit x.cls x.vc 1 x.bytes :: (s.port k).wire }).ring.ports := by
  unfold State.sendMsg
  dsimp only
  split_ifs
  · rfl
  · rw [State.charge_frame]
    rfl
  · rw [State.charge_frame]

/-- A message that is sent leaves the transmit buffer for the wire. -/
theorem linkGrows_sendMsg (s : State) (k : Nat) (x : Msg) : LinkGrows s (s.sendMsg k x) := by
  refine LinkGrows.of_ports (LinkGrows.setPort ?_ ?_) (State.ports_sendMsg s k x)
  · rfl
  rintro m (⟨y, hy, rfl⟩ | ⟨fl, hfl, heq⟩)
  · by_cases hyx : y = x
    · rw [hyx]
      exact .inr ⟨_, List.mem_cons_self, slice_mkFlit ..⟩
    · exact .inl ⟨y, (List.mem_erase_of_ne hyx).mpr hy, rfl⟩
  · exact .inr ⟨fl, List.mem_cons_of_mem _ hfl, heq⟩

theorem link_pump (s : State) (k fuel : Nat) : LinkGrows s (s.pump k fuel) ∧ PortsOnly s (s.pump k fuel) := by
  induction fuel generalizing s with
  | zero => exact ⟨.refl s, .refl s⟩
  | succ fuel ih =>
    rw [State.pump]
    split
    · exact ⟨.refl s, .refl s⟩
    · split
      · exact ⟨.refl s, .refl s⟩
      next x _ => exact ⟨(linkGrows_sendMsg s k x).trans (ih _).1, (portsOnly_sendMsg k x).trans (ih _).2⟩

/-- A message put in the transmit buffer is carried, with all that was there. -/
theorem link_feltPut (s : State) (k vc cls : Nat) (m : List Byte) :
    LinkGrows s (s.feltPut k vc cls m) ∧ PortsOnly s (s.feltPut k vc cls m) ∧ ((s.feltPut k vc cls m).port k).Carries m := by
  unfold State.feltPut
  extract_lets f x fwd tx s1
  have htx : ∀ y, y ∈ f.tx ∨ y = x → y ∈ tx := by
    intro y hy
    unfold tx
    split_ifs
    · exact List.mem_append.mpr (hy.imp_right List.mem_singleton.mpr)
    · have hsplit : fwd ++ f.tx.drop fwd.length = f.tx := by
        have hpre : fwd <+: f.tx := List.takeWhile_prefix _
        obtain ⟨rest, hrest⟩ := hpre
        rw [← hrest, List.drop_left]
      rcases hy with hy | rfl
      · rw [← hsplit] at hy
        rcases List.mem_append.mp hy with h | h
        · exact List.mem_append_left _ (List.mem_append_left _ h)
        · exact List.mem_append_right _ h
      · exact List.mem_append_left _ (List.mem_append_right _ List.mem_cons_self)
  have hgrow : LinkGrows s s1 := LinkGrows.setPort rfl fun m hm =>
    hm.imp (fun ⟨y, hy, h⟩ => ⟨y, htx y (.inl hy), h⟩) id
  have hput : (s1.port k).Carries m := by
    rw [show s1.port k = { f with tx := tx } from (State.port_setPort ..).trans (if_pos rfl)]
    exact .inl ⟨x, htx x (.inr rfl), rfl⟩
  obtain ⟨hg, ho⟩ := link_pump s1 k tx.length
  exact ⟨hgrow.trans hg, (portsOnly_setPort s k _).trans ho, hg.carries k m hput⟩

theorem State.routePort_lt (s : State) (dst : Nat) : s.routePort dst < 2 := by
  unfold State.routePort
  dsimp only
  split
  · decide
  · split
    · decide
    · split <;> split <;> decide

/-- An answer is carried by the port it is given to (R422). -/
theorem link_feltCplBy (s : State) (k op dst tag part st : Nat) (data : List Byte) :
    LinkGrows s (s.feltCplBy k op dst tag part st data) ∧ LinkOnly s (s.feltCplBy k op dst tag part st data) ∧
      ((s.feltCplBy k op dst tag part st data).port k).Carries (feltMsg 8 s.pos dst tag part (toLe 4 st ++ data)) := by
  unfold State.feltCplBy State.feltQueue
  extract_lets m mine keep _ s1
  have hports : s1.ring.ports = s.ring.ports := by
    unfold s1
    split_ifs <;> rfl
  have honly : LinkOnly s s1 := by
    unfold s1
    split_ifs
    · exact (PortsOnly.refl s).linkOnly
    · exact ⟨rfl, fieldsKept_of_regs rfl⟩
  obtain ⟨hg, ho, hc⟩ := link_feltPut s1 k (if op ≤ 3 then 1 else feltVc op) 0 m
  exact ⟨(linkGrows_of_ports hports).trans hg, honly.trans ho.linkOnly, hc⟩

/-! ### Taking a message -/

theorem link_leaveRx (s : State) (k : Nat) (x : Msg) :
    PortsOnly s (s.leaveRx k x) ∧ (∀ m, Sends s m → Sends (s.leaveRx k x) m) ∧
      ∀ j, ((s.leaveRx k x).port j).rx = if j = k then (s.port k).rx.erase x else (s.port j).rx := by
  have hset (f : FPort) (hc : ∀ m, (s.port k).Carries m → f.Carries m) (m : List Byte) (hm : Sends s m) :
      Sends (s.setPort k f) m := by
    obtain ⟨j, hj, hm⟩ := hm
    refine ⟨j, hj, ?_⟩
    rw [State.port_setPort]
    split_ifs with hjk
    · exact hc m (hjk ▸ hm)
    · exact hm
  have hrx (f : FPort) (hf : f.rx = (s.port k).rx.erase x) (j : Nat) :
      ((s.setPort k f).port j).rx = if j = k then (s.port k).rx.erase x else (s.port j).rx := by
    rw [State.port_setPort]
    split_ifs
    · exact hf
    · rfl
  unfold State.leaveRx
  extract_lets f rx f1 f2 s1
  split
  · exact ⟨portsOnly_setPort .., hset f1 fun _ h => h, hrx f1 rfl⟩
  · obtain ⟨hg, ho⟩ := link_pump s1 k (s1.port k).tx.length
    refine ⟨(portsOnly_setPort ..).trans ho, fun m hm => hg.sends (hset (f2.sendBare 0) (fun _ h => FPort.Carries.sendBare h) m hm),
      fun j => (hg.rx j).trans (hrx (f2.sendBare 0) rfl j)⟩

end

end Sys2Proof.Machine

end

