-- ==== Sys2Proof/Proofs/RingMembers.lean ====
section
/-!
PROOF. Ring control of discovery and membership (R423, R429 to R436): what a chip answers, sends and keeps.
-/

namespace Sys2Proof.Machine
open Sys2Proof.Claims

section
variable {s t u : State} {k : Fin 2} {x : Msg} {j sub st n : Nat} {data : List Byte}

/-! ### Taking a ring-control message and answering it -/

section
variable (h : LinkOnly s t)
include h

theorem LinkOnly.pos : t.pos = s.pos := by
  rw [h.frame]
  rfl

theorem LinkOnly.isMaster : t.isMaster = s.isMaster := by
  rw [h.frame]
  rfl

theorem LinkOnly.mem : t.mem = s.mem := by rw [h.frame]

theorem LinkOnly.furn : t.furn = s.furn := by rw [h.frame]

theorem LinkOnly.hb : t.hb = s.hb := by rw [h.frame]

theorem LinkOnly.launches : t.launches = s.launches := by rw [h.frame]

theorem LinkOnly.portActive (j : Nat) (hj : j < 65536) : t.portActive j = s.portActive j := by
  unfold State.portActive
  rw [h.fields.rd _ (by decide) _ hj _ (by decide)]

end

/-- A message that was not performed leaves the receive buffer and is performed (R425). -/
theorem State.takeMsg_of_arrives {want : List Byte → Bool} (h : Arrives s k want x) (act : State → List Byte → State) :
    s.takeMsg k want (fun s m => s.serve m (fun s => act s m)) = act (s.leaveRx k x) x.bytes := by
  obtain ⟨hlive, hhead, hnew, hidle⟩ := h
  have hf := (link_leaveRx s k x).1.frame
  have hnew' : (s.leaveRx k x).ring.performed.find? (fun y => y.1 = (msgSrc x.bytes, msgTag x.bytes)) = none := by
    rw [hf]
    exact hnew
  have hidle' : (s.leaveRx k x).inProgress (msgSrc x.bytes) (msgTag x.bytes) = false := by
    rw [hf]
    exact hidle
  unfold State.takeMsg
  rw [hlive, if_neg (by decide : ¬(!true) = true), hhead]
  unfold State.serve
  dsimp only
  rw [hnew', hidle']
  rfl

theorem State.ringctl_of_arrives (h : ArrivesCtl s k sub x) (act : State → List Byte → State) :
    s.ringctl k sub act = act (s.leaveRx k x) x.bytes := State.takeMsg_of_arrives h act

/-- An answer given while nothing more was received answers the message (R422). -/
theorem answered_reply {op : Nat} (hg : LinkGrows (s.leaveRx k x) t) (hpos : t.pos = s.pos) (hj : j < 2) :
    Answered s (t.feltCplBy j op (msgSrc x.bytes) (msgTag x.bytes) (msgPart x.bytes) st data) k x st data := by
  obtain ⟨hg', -, hc⟩ := link_feltCplBy t j op (msgSrc x.bytes) (msgTag x.bytes) (msgPart x.bytes) st data
  refine ⟨?_, Carries.sends (hpos ▸ hc) hj⟩
  rw [hg'.rx, hg.rx, (link_leaveRx s k x).2.2 k, if_pos rfl]

theorem answered_replyTo (hg : LinkGrows (s.leaveRx k x) t) (hpos : t.pos = s.pos) :
    Answered s (t.replyTo x.bytes st data) k x st data := answered_reply hg hpos (State.routePort_lt ..)

theorem answered_replyBy (hg : LinkGrows (s.leaveRx k x) t) (hpos : t.pos = s.pos) :
    Answered s (t.replyBy k x.bytes st data) k x st data := answered_reply hg hpos k.isLt

theorem linkOnly_replyTo (s : State) (m : List Byte) (st : Nat) (data : List Byte) : LinkOnly s (s.replyTo m st data) :=
  (link_feltCplBy ..).2.1

theorem linkOnly_replyBy (s : State) (k : Nat) (m : List Byte) (st : Nat) (data : List Byte) :
    LinkOnly s (s.replyBy k m st data) := (link_feltCplBy ..).2.1

theorem linkOnly_leaveRx (s : State) (k : Nat) (x : Msg) : LinkOnly s (s.leaveRx k x) := (link_leaveRx s k x).1.linkOnly

theorem answered_grows (h : Answered s t k x st data) (g : LinkGrows t u) : Answered s u k x st data :=
  ⟨(g.rx k).trans h.1, g.sends h.2⟩

/-- The state in which a message has been taken and answered at its own port. -/
def State.replied (s : State) (k : Fin 2) (x : Msg) (st : Nat) (data : List Byte) : State :=
  (s.leaveRx k x).replyBy k x.bytes st data

theorem answered_replied (s : State) (k : Fin 2) (x : Msg) (st : Nat) (data : List Byte) :
    Answered s (s.replied k x st data) k x st data :=
  answered_reply (.refl _) (linkOnly_leaveRx s k x).pos k.isLt

theorem linkOnly_replied (s : State) (k : Fin 2) (x : Msg) (st : Nat) (data : List Byte) : LinkOnly s (s.replied k x st data) :=
  (linkOnly_leaveRx s k x).trans (link_feltCplBy ..).2.1

/-! ### Requests of the chip itself -/

/-- A request given to a port is carried by it, to the port's peer. -/
theorem link_feltReqOn (s : State) (j op part : Nat) (body : List Byte) :
    LinkGrows s (s.feltReqOn j op part body) ∧ FieldsKept linkFields s (s.feltReqOn j op part body) ∧
      ((s.feltReqOn j op part body).port j).Carries (feltMsg op s.pos (s.rd .FLT_PORT_PEER j) s.ring.tagNext part body) := by
  let m := feltMsg op s.pos (s.rd .FLT_PORT_PEER j) s.ring.tagNext part body
  let r : Req := ⟨s.ring.tagNext, 0, some (s.rd .FLT_PORT_PEER j), part, 0, 0, m, .ctl, 0⟩
  obtain ⟨hg, ho, hc⟩ := link_feltPut
    { s with ring := { s.ring with reqs := s.ring.reqs ++ [r], tagNext := (s.ring.tagNext + 1) % 65536 } } j (feltVc op) 0 m
  unfold State.feltReqOn State.feltQueue
  exact ⟨hg.after rfl, ho.fields.after rfl, hc⟩

/-- While the ring stands, a request is carried on the way to its chip. -/
theorem sends_feltReq {dst op part : Nat} {body : List Byte} {owner : Owner} (horphan : s.rd .FLT_STATUS_ORPHAN = 0)
    (hchanging : s.rd .FLT_STATUS_CHANGING = 0) :
    Sends (s.feltReq dst op part body owner) (feltMsg op s.pos dst s.ring.tagNext part body) := by
  unfold State.feltReq
  rw [horphan, if_neg (by decide)]
  extract_lets tag m r ring s1
  unfold State.feltSend
  rw [show s1.rd .FLT_STATUS_CHANGING = 0 from hchanging, if_neg (by decide)]
  exact Carries.sends (link_feltPut s1 _ _ 0 m).2.2 (State.routePort_lt ..)

/-! ### Tokens -/

/-- A token that does not come back goes on by the far port, with the chip's entry (R430). -/
theorem State.tokenOn_first (s : State) {b : List Byte} (hfar : s.portActive (1 - k.val) = true) (hempty : leAt b 1 1 = 0) :
    s.tokenOn k b = (s.wr .FLT_STATUS_CHANGING 1).feltReqOn (1 - k.val) 7 0
      (tokenBody (leAt b 0 1) [(s.pos, b2n s.pins.straps.master + 2 * b2n s.spare)]) := by
  have hentries : tokenEntries b = [] := by
    unfold tokenEntries
    rw [hempty]
    rfl
  have hfar' : (s.wr .FLT_STATUS_CHANGING 1).portActive (1 - k.val) = true := by
    unfold State.portActive at hfar ⊢
    rwa [State.rd_wr_field _ (by decide) (by decide) (by omega) (by decide) (by decide)]
  unfold State.tokenOn
  rw [hentries]
  dsimp only [List.getLast?_nil]
  refine (if_neg Bool.false_ne_true).trans ?_
  rw [hfar', if_pos rfl]
  rfl

/-! ### Chips that are ready -/

/-- The state in which a chip's READY is noted. -/
def State.noteReady (s : State) (n : Nat) : State :=
  { s with ring := { s.ring with ready := if s.ring.ready.contains n then s.ring.ready else s.ring.ready ++ [n] } }

theorem State.contains_noteReady (s : State) (n : Nat) : (s.noteReady n).ring.ready.contains n = true := by
  unfold State.noteReady
  dsimp only
  split_ifs with h
  · exact h
  · simp

theorem State.admitStep_of_waiting (h : s.isMaster = false ∨ s.ring.tokens ≠ 0) : s.admitStep = s := by
  unfold State.admitStep
  refine if_pos ?_
  rcases h with h | h <;> simp [h]

end

end Sys2Proof.Machine

namespace Sys2Proof.Claims
open Sys2Proof Sys2Proof.Machine

section
variable (s : State) (k : Fin 2) (x : Msg)

theorem tokenGoesOn (harr : ArrivesCtl s k 1 x) (hmember : s.isMaster = false) (hfar : s.portActive (1 - k.val) = true)
    (hempty : leAt (ctlBody x.bytes) 1 1 = 0) :
    ∃ u, exec (.token k) s = .next u ∧ Answered s u k x stOk [] ∧ u.rd .FLT_STATUS_CHANGING = 1 ∧
      Sends u (feltMsg 7 s.pos (s.rd .FLT_PORT_PEER (1 - k.val)) s.ring.tagNext 0
        (tokenBody (leAt (ctlBody x.bytes) 0 1) [(s.pos, b2n s.pins.straps.master + 2 * b2n s.spare)])) := by
  have ho := linkOnly_replied s k x stOk []
  have hexec : exec (.token k) s = .next ((s.replied k x stOk []).tokenOn k (ctlBody x.bytes)) := by
    refine congrArg Host.Outcome.next ((State.ringctl_of_arrives harr _).trans (if_neg ?_))
    change ¬(s.replied k x stOk []).isMaster = true
    rw [ho.isMaster, hmember]
    decide
  have hentry : ((s.replied k x stOk []).pos, b2n (s.replied k x stOk []).pins.straps.master + 2 * b2n (s.replied k x stOk []).spare) =
      (s.pos, b2n s.pins.straps.master + 2 * b2n s.spare) := by
    rw [ho.frame]
    rfl
  rw [State.tokenOn_first _ ((ho.portActive _ (by omega)).trans hfar) hempty, hentry] at hexec
  have hans := answered_replied s k x stOk []
  have htag : (s.replied k x stOk []).ring.tagNext = s.ring.tagNext := by rw [ho.frame]
  generalize s.replied k x stOk [] = t at ho hexec hans htag
  obtain ⟨hg, hf, hc⟩ := link_feltReqOn (t.wr .FLT_STATUS_CHANGING 1) (1 - k.val) 7 0
    (tokenBody (leAt (ctlBody x.bytes) 0 1) [(s.pos, b2n s.pins.straps.master + 2 * b2n s.spare)])
  refine ⟨_, hexec, answered_grows hans (hg.after rfl), ?_, Carries.sends (k := 1 - k.val) ?_ (by omega)⟩
  · rw [hf.rd _ (by decide) _ (by decide) _ (by decide)]
    exact State.rd_wr_same ..
  · have hpeer : (t.wr .FLT_STATUS_CHANGING 1).rd .FLT_PORT_PEER (1 - k.val) = s.rd .FLT_PORT_PEER (1 - k.val) := by
      rw [State.rd_wr_field _ (by decide) (by decide) (by omega) (by decide) (by decide),
        ho.fields.rd _ (by decide) _ (by omega) _ (by decide)]
    rw [hpeer] at hc
    have hpos : (t.wr .FLT_STATUS_CHANGING 1).pos = s.pos := ho.pos
    rw [hpos, show (t.wr .FLT_STATUS_CHANGING 1).ring.tagNext = _ from htag] at hc
    exact hc

theorem tokenReturns (harr : ArrivesCtl s k 1 x) (hmaster : s.isMaster = true) (hmore : 2 ≤ s.ring.tokens) :
    ∃ u, exec (.token k) s = .next u ∧ Answered s u k x stOk [] ∧ u.ring.tokens = s.ring.tokens - 1 ∧
      u.ring.entries = s.ring.entries ++
        (tokenEntries (ctlBody x.bytes)).map (fun e => (e.1, e.2 % 256 + 256 * (leAt (ctlBody x.bytes) 0 1 % 2))) ∧
      u.mem = s.mem := by
  have ho := linkOnly_replied s k x stOk []
  have hans := answered_replied s k x stOk []
  have htokens : (s.replied k x stOk []).ring.tokens = s.ring.tokens := by rw [ho.frame]
  have hentries : (s.replied k x stOk []).ring.entries = s.ring.entries := by rw [ho.frame]
  have hexec : exec (.token k) s = .next ((s.replied k x stOk []).tokenBack k (ctlBody x.bytes)) := by
    refine congrArg Host.Outcome.next ((State.ringctl_of_arrives harr _).trans (if_pos ?_))
    exact ho.isMaster.trans hmaster
  generalize s.replied k x stOk [] = t at ho hexec hans htokens hentries
  unfold State.tokenBack at hexec
  rw [if_neg (by omega)] at hexec
  dsimp only at hexec
  rw [if_neg (by omega)] at hexec
  refine ⟨_, hexec, answered_grows hans (linkGrows_of_ports rfl), congrArg (· - 1) htokens, ?_, ho.mem⟩
  rw [← hentries]

theorem measureIsAnswered (harr : ArrivesCtl s k 2 x) :
    ∃ u, exec (.measure k) s = .next u ∧ Answered s u k x stOk (sha512 (s.furn.base ++ s.furn.deltas.flatten)) ∧ u.mem = s.mem := by
  have hmeasure : (s.leaveRx k x).furnMeasure = sha512 (s.furn.base ++ s.furn.deltas.flatten) := by
    unfold State.furnMeasure
    rw [(link_leaveRx s k x).1.linkOnly.furn]
  rw [← hmeasure]
  exact ⟨_, congrArg Host.Outcome.next (State.ringctl_of_arrives harr _), answered_replied .., (linkOnly_replied ..).mem⟩

theorem heartbeatIsAnswered (harr : ArrivesCtl s k 4 x) :
    ∃ u, exec (.heartbeat k) s = .next u ∧ Answered s u k x stOk [] ∧ u.mem = s.mem :=
  ⟨_, congrArg Host.Outcome.next (State.ringctl_of_arrives harr _), answered_replied .., (linkOnly_replied ..).mem⟩

theorem linkChangeIsAnswered (harr : ArrivesCtl s k 5 x) (hmember : s.isMaster = false) :
    ∃ u, exec (.linkChange k) s = .next u ∧ Answered s u k x stOk [] ∧ u.mem = s.mem := by
  have ho := linkOnly_replied s k x stOk []
  refine ⟨s.replied k x stOk [], congrArg Host.Outcome.next ((State.ringctl_of_arrives harr _).trans (if_neg ?_)),
    answered_replied .., ho.mem⟩
  change ¬(s.replied k x stOk []).isMaster = true
  rw [ho.isMaster, hmember]
  decide

theorem readyIsNoted (harr : ArrivesCtl s k 0x0F x) (hwait : s.isMaster = false ∨ s.ring.tokens ≠ 0) :
    ∃ u, exec (.ready k) s = .next u ∧ Answered s u k x stOk [] ∧
      u.ring.ready.contains (leAt (ctlBody x.bytes) 0 4 % 16) = true ∧ u.mem = s.mem := by
  have ho := linkOnly_replied s k x stOk []
  have htokens : (s.replied k x stOk []).ring.tokens = s.ring.tokens := by rw [ho.frame]
  have hans := answered_replied s k x stOk []
  have hexec : exec (.ready k) s = .next ((s.replied k x stOk []).noteReady (leAt (ctlBody x.bytes) 0 4 % 16)).admitStep :=
    congrArg Host.Outcome.next (State.ringctl_of_arrives harr _)
  have hmaster := ho.isMaster
  generalize s.replied k x stOk [] = t at ho hexec hans htokens hmaster
  have hidle : (t.noteReady (leAt (ctlBody x.bytes) 0 4 % 16)).admitStep = t.noteReady (leAt (ctlBody x.bytes) 0 4 % 16) :=
    State.admitStep_of_waiting (hwait.imp hmaster.trans (htokens ▸ ·))
  rw [hidle] at hexec
  exact ⟨_, hexec, answered_grows hans (linkGrows_of_ports rfl), t.contains_noteReady _, ho.mem⟩

theorem badSubIsAnswered (harr : Arrives s k (fun m => msgOp m = 7 && (msgSub m = 0 || 0x0F < msgSub m)) x) :
    ∃ u, exec (.badSub k) s = .next u ∧ Answered s u k x (stRing 0x0A (msgSub x.bytes)) [] ∧ u.mem = s.mem :=
  ⟨_, congrArg Host.Outcome.next (State.takeMsg_of_arrives harr _),
    answered_reply (.refl _) (link_leaveRx s k x).1.linkOnly.pos (State.routePort_lt ..),
    ((linkOnly_leaveRx s k x).trans (link_feltCplBy ..).2.1).mem⟩

theorem masterBeats {n : Nat} (hlive : s.live = true) (hmaster : s.isMaster = true) (hother : s.otherMembers = [n])
    (hchanging : s.rd .FLT_STATUS_CHANGING = 0) (horphan : s.rd .FLT_STATUS_ORPHAN = 0) :
    ∃ u, exec .heartbeatSend s = .next u ∧ u.mem = s.mem ∧
      Sends u (feltMsg 7 s.pos n s.ring.tagNext 0 ([4, 0, 0, 0] ++ toLe 2 (s.rd .FLT_STATUS_EPOCH))) := by
  refine ⟨s.feltReq n 7 0 ([4, 0, 0, 0] ++ toLe 2 (s.rd .FLT_STATUS_EPOCH)) .ctl, congrArg Host.Outcome.next ?_, ?_,
    sends_feltReq horphan hchanging⟩
  · rw [hlive, hmaster, hother]
    rfl
  · unfold State.feltReq State.feltSend
    rw [horphan, if_neg (by decide)]
    dsimp only
    split
    · rfl
    · exact (link_feltPut ..).2.1.linkOnly.mem

end

end Sys2Proof.Claims
end

