-- ==== Sys2Proof/Proofs/RingInstall.lean ====
section
/-!
PROOF. A membership is installed and a chip that lost its ring says so (R432, R435), where no request, launch or stop of the ring is
under way; the clauses of membership together.
-/

namespace Sys2Proof.Machine
open Sys2Proof.Claims

section
variable {s t u : State} {k : Fin 2} {x : Msg} {live : Nat}

theorem PortsOnly.foldl {α : Type} {g : State → α → State} (hg : ∀ s x, PortsOnly s (g s x)) (xs : List α) (s : State) :
    PortsOnly s (xs.foldl g s) :=
  List.foldlRecOn xs g (.refl s) fun t ht x _ => ht.trans (hg t x)

theorem ringQuiet_linkOnly (h : LinkOnly s t) (q : RingQuiet s) : RingQuiet t := by
  rw [h.frame]
  exact q

/-! ### A membership on a quiet chip -/

theorem State.endUnreachable_of_quiet (q : RingQuiet s) (f : Req → Bool) : s.endUnreachable f = s := by
  obtain ⟨hreqs, -⟩ := q
  unfold State.endUnreachable
  rw [hreqs]
  rfl

theorem State.resend_of_quiet (q : RingQuiet s) : s.resend = s := by
  obtain ⟨hreqs, -⟩ := q
  unfold State.resend
  rw [hreqs]
  rfl

theorem State.regrantColumns_of_quiet (q : RingQuiet s) : s.regrantColumns = s := by
  obtain ⟨-, hcolumns, -⟩ := q
  unfold State.regrantColumns
  rw [hcolumns]
  rfl

theorem State.settleMembers_of_quiet (q : RingQuiet s) (live : Nat) : s.settleMembers live = s := by
  obtain ⟨-, -, -, hdelta, hstops, hinval, -⟩ := q
  have hsettled : s.settleStops = s := by
    unfold State.settleStops
    rw [hstops]
    rfl
  unfold State.settleMembers
  rw [hsettled]
  dsimp only
  rw [hinval, List.flatMap_nil, List.foldl_nil, hdelta]

theorem State.fwPump_of_quiet (q : RingQuiet s) (k fuel : Nat) : s.fwPump k fuel = s := by
  obtain ⟨-, -, hfw, -⟩ := q
  cases fuel with
  | zero => rfl
  | succ fuel =>
    unfold State.fwPump
    rw [hfw]

/-- The registers of a membership that the chip is in (R432). -/
def State.memberRegs (s : State) (epoch live reach : Nat) : State :=
  (((((s.wr .FLT_MEMBERS_LIVE live).wr .FLT_MEMBERS_REACH reach).wr .FLT_STATUS_EPOCH epoch).wr .FLT_STATUS_LIVE 1).wr
    .FLT_STATUS_ORPHAN 0).wr .FLT_STATUS_CHANGING 0

theorem portsOnly_dropForwards (s : State) (live : Nat) : PortsOnly s (s.dropForwards live) :=
  PortsOnly.foldl (fun s k => PortsOnly.foldl (fun s m => (link_leaveRx s k m).1) _ s) _ s

/-- A chip in the membership, with nothing of the ring under way, only writes its registers, clears its buffers and says so. -/
theorem State.installMembers_of_quiet (q : RingQuiet s) (hme : bitAt live s.pos = true) (epoch reach : Nat) :
    ∃ t, FieldsKept linkFields (s.memberRegs epoch live reach) t ∧
      s.installMembers epoch live reach = (t.raiseRing (stRing 2 epoch) (s.rd .FLT_MEMBERS_LIVE)).pumpAll := by
  unfold State.installMembers
  rw [hme]
  extract_lets prev me s1 s2 src back s3 s4 s5 s6 s7
  have hregs : s3.regs = (s.memberRegs epoch live reach).regs := rfl
  have hq3 : RingQuiet s3 := by
    obtain ⟨hreqs, hcolumns, hfw, hrest⟩ := q
    refine ⟨hreqs, hcolumns, ?_, hrest⟩
    change s.ring.fw.map _ = none
    rw [hfw]
    rfl
  have hports := portsOnly_dropForwards s3 live
  have hq : RingQuiet (s3.dropForwards live) := ringQuiet_linkOnly hports.linkOnly hq3
  have h4 : s4 = s3.dropForwards live := by
    unfold s4
    rw [State.endUnreachable_of_quiet hq, State.resend_of_quiet hq]
  have h6 : s6 = s3.dropForwards live := by
    unfold s6 s5
    rw [h4, State.regrantColumns_of_quiet hq, State.settleMembers_of_quiet hq, State.fwPump_of_quiet hq, State.fwPump_of_quiet hq]
  have h7 : s7 = s6 := if_neg Bool.false_ne_true
  refine ⟨s3.dropForwards live, hports.fields.after hregs, ?_⟩
  rw [h7, h6]

theorem State.raiseRing_frame (s : State) (st before : Nat) : s.raiseRing st before =
    { s with
      regs := (s.raiseRing st before).regs, mem := (s.raiseRing st before).mem, sent := (s.raiseRing st before).sent
      pcie := (s.raiseRing st before).pcie, owed := (s.raiseRing st before).owed } := State.raise_frame ..

theorem State.raiseRing_pending (s : State) (st before : Nat) (hroute : s.rd .EVQ_ROUTE_RING ≤ 33) :
    kindBit ((s.raiseRing st before).rd .EVQ_PEND_PEND (s.rd .EVQ_ROUTE_RING)) 0x11 = true :=
  s.kindBit_raiseShared .ring st _ _ before (by unfold State.sharedTarget; dsimp only; omega)

theorem fieldsKept_raiseRing (st before : Nat) (hroute : s.rd .EVQ_ROUTE_RING ≤ 33) :
    FieldsKept raiseFields s (s.raiseRing st before) :=
  fieldsKept_raise (by unfold State.sharedTarget; dsimp only; omega)

theorem portsOnly_pumpAll (s : State) : PortsOnly s s.pumpAll := (link_pump ..).2.trans (link_pump ..).2

/-- The registers of a membership read what it says. -/
theorem State.rd_memberRegs (s : State) {epoch live reach : Nat} (he : epoch < 65536) (hl : live < 65536) (hr : reach < 65536) :
    (s.memberRegs epoch live reach).rd .FLT_STATUS_EPOCH = epoch ∧ (s.memberRegs epoch live reach).rd .FLT_MEMBERS_LIVE = live ∧
      (s.memberRegs epoch live reach).rd .FLT_MEMBERS_REACH = reach ∧ (s.memberRegs epoch live reach).rd .FLT_STATUS_LIVE = 1 ∧
      (s.memberRegs epoch live reach).rd .FLT_STATUS_ORPHAN = 0 ∧ (s.memberRegs epoch live reach).rd .FLT_STATUS_CHANGING = 0 ∧
      (s.memberRegs epoch live reach).rd .EVQ_ROUTE_RING = s.rd .EVQ_ROUTE_RING := by
  have other {s : State} {f g : Field} {v : Nat} (h : g ≠ f) : (s.wr f v).rd g = s.rd g :=
    State.rd_wr_field _ (by decide) (by decide) (by decide) (by decide) h
  have same {s : State} {f : Field} {v : Nat} (h : v < 2 ^ f.width) : (s.wr f v).rd f = v :=
    (State.rd_wr_same ..).trans (Nat.mod_eq_of_lt h)
  unfold State.memberRegs
  refine ⟨?_, ?_, ?_, ?_, ?_, ?_, ?_⟩
  · rw [other (by decide), other (by decide), other (by decide), same he]
  · rw [other (by decide), other (by decide), other (by decide), other (by decide), other (by decide), same hl]
  · rw [other (by decide), other (by decide), other (by decide), other (by decide), same hr]
  · rw [other (by decide), other (by decide), same (by decide)]
  · rw [other (by decide), same (by decide)]
  · rw [same (by decide)]
  · rw [other (by decide), other (by decide), other (by decide), other (by decide), other (by decide), other (by decide)]

/-! ### The ring lost (R435) -/

/-- A chip without spanning work, with nothing of the ring under way, only says that it is orphaned. -/
theorem State.orphan_of_quiet (q : RingQuiet s) (hspan : s.spanParts = []) :
    s.orphan = (s.wr .FLT_STATUS_ORPHAN 1).raiseRing (stRing 7 0) := by
  have hframe := State.raiseRing_frame (s.wr .FLT_STATUS_ORPHAN 1) (stRing 7 0) 0
  unfold State.orphan
  extract_lets s1 s2 ring s3
  change s1 = _ at hframe
  have hq : RingQuiet s1 := by
    rw [hframe]
    exact q
  have hspan1 : s1.spanParts = [] := by
    rw [hframe]
    exact hspan
  have h2 : s2 = s1 := by
    unfold s2
    rw [hspan1]
    rfl
  have h3 : s3 = s1 := by
    unfold s3
    rw [h2, show ring = s1.ring from congrArg State.ring h2]
    obtain ⟨-, -, -, -, -, -, hfuncs, -⟩ := hq
    exact congrArg (fun l => { s1 with ring := { s1.ring with funcs := l } }) hfuncs.symm
  rw [h3, State.endUnreachable_of_quiet hq]

end

end Sys2Proof.Machine

namespace Sys2Proof.Claims
open Sys2Proof Sys2Proof.Machine

section
variable (s : State) (k : Fin 2) (x : Msg)

theorem membershipIsInstalled (harr : ArrivesCtl s k 3 x) (hquiet : RingQuiet s) (hroute : s.rd .EVQ_ROUTE_RING ≤ 33)
    (hme : bitAt (leAt (ctlBody x.bytes) 2 2) s.pos = true) :
    ∃ u, exec (.membership k) s = .next u ∧ u.rd .FLT_STATUS_EPOCH = leAt (ctlBody x.bytes) 0 2 ∧
      u.rd .FLT_MEMBERS_LIVE = leAt (ctlBody x.bytes) 2 2 ∧ u.rd .FLT_MEMBERS_REACH = leAt (ctlBody x.bytes) 4 2 ∧
      u.rd .FLT_STATUS_LIVE = 1 ∧ u.rd .FLT_STATUS_ORPHAN = 0 ∧ u.rd .FLT_STATUS_CHANGING = 0 ∧
      kindBit (u.rd .EVQ_PEND_PEND (s.rd .EVQ_ROUTE_RING)) 0x11 = true := by
  have ho := linkOnly_replied s k x stOk []
  have hroute' := ho.fields.rd .EVQ_ROUTE_RING (by decide) 0 (by decide) 0 (by decide)
  have hexec : exec (.membership k) s = .next ((s.replied k x stOk []).installMembers (leAt (ctlBody x.bytes) 0 2)
      (leAt (ctlBody x.bytes) 2 2) (leAt (ctlBody x.bytes) 4 2)) := congrArg Host.Outcome.next (State.ringctl_of_arrives harr _)
  generalize s.replied k x stOk [] = t at ho hroute' hexec
  obtain ⟨r, hr, heq⟩ := State.installMembers_of_quiet (ringQuiet_linkOnly ho hquiet) (ho.pos.symm ▸ hme)
    (leAt (ctlBody x.bytes) 0 2) (leAt (ctlBody x.bytes) 4 2)
  obtain ⟨he, hl, hreach, hlive, horphan, hchanging, hrt⟩ := t.rd_memberRegs (leAt_lt (ctlBody x.bytes) 0 2)
    (leAt_lt (ctlBody x.bytes) 2 2) (leAt_lt (ctlBody x.bytes) 4 2)
  have hto : r.rd .EVQ_ROUTE_RING = s.rd .EVQ_ROUTE_RING := by
    rw [hr.rd _ (by decide) _ (by decide) _ (by decide), hrt, hroute']
  rw [heq] at hexec
  have hpump := (portsOnly_pumpAll (r.raiseRing (stRing 2 (leAt (ctlBody x.bytes) 0 2)) (t.rd .FLT_MEMBERS_LIVE))).fields
  have hall := ((hr.mono (m := raiseFields) (by decide)).trans (fieldsKept_raiseRing _ _ (hto.trans_le hroute))).trans
    (hpump.mono (m := raiseFields) (by decide))
  have kept {f : Field} (hf : f ∉ raiseFields) := hall.rd f hf 0 (by decide) 0 (by decide)
  refine ⟨_, hexec, (kept (by decide)).trans he, (kept (by decide)).trans hl, (kept (by decide)).trans hreach,
    (kept (by decide)).trans hlive, (kept (by decide)).trans horphan, (kept (by decide)).trans hchanging, ?_⟩
  have hpend := r.raiseRing_pending (stRing 2 (leAt (ctlBody x.bytes) 0 2)) (t.rd .FLT_MEMBERS_LIVE) (hto.trans_le hroute)
  rw [hto] at hpend
  rw [hpump.rd _ (by decide) _ (by omega) _ (by decide)]
  exact hpend

theorem orphanSaysSo (hlive : s.live = true) (hringed : s.ringed = true) (hmember : s.isMaster = false)
    (horphan : s.rd .FLT_STATUS_ORPHAN = 0) (hspan : s.spanParts = []) (hquiet : RingQuiet s) (hroute : s.rd .EVQ_ROUTE_RING ≤ 33) :
    ∃ u, exec .orphaned s = .next u ∧ u.rd .FLT_STATUS_ORPHAN = 1 ∧ u.hb = s.hb ∧ u.vats = s.vats ∧
      kindBit (u.rd .EVQ_PEND_PEND (s.rd .EVQ_ROUTE_RING)) 0x11 = true := by
  have hto : (s.wr .FLT_STATUS_ORPHAN 1).rd .EVQ_ROUTE_RING = s.rd .EVQ_ROUTE_RING :=
    State.rd_wr_field _ (by decide) (by decide) (by decide) (by decide) (by decide)
  have hframe := State.raiseRing_frame (s.wr .FLT_STATUS_ORPHAN 1) (stRing 7 0) 0
  have hpend := State.raiseRing_pending (s.wr .FLT_STATUS_ORPHAN 1) (stRing 7 0) 0 (hto.trans_le hroute)
  have hkept := fieldsKept_raiseRing (s := s.wr .FLT_STATUS_ORPHAN 1) (stRing 7 0) 0 (hto.trans_le hroute)
  refine ⟨(s.wr .FLT_STATUS_ORPHAN 1).raiseRing (stRing 7 0), congrArg Host.Outcome.next ?_, ?_, ?_, ?_, hto ▸ hpend⟩
  · rw [hlive, hringed, hmember, horphan]
    exact State.orphan_of_quiet hquiet hspan
  · exact (hkept.rd _ (by decide) _ (by decide) _ (by decide)).trans (State.rd_wr_same ..)
  · rw [hframe]
    rfl
  · rw [hframe]
    rfl

theorem ringMembershipIsKept : RingMembershipIsKept := by
  intro s k x b
  exact ⟨tokenGoesOn s k x, tokenReturns s k x, measureIsAnswered s k x, membershipIsInstalled s k x, heartbeatIsAnswered s k x,
    linkChangeIsAnswered s k x, readyIsNoted s k x, badSubIsAnswered s k x, fun n => masterBeats s, orphanSaysSo s⟩

end

end Sys2Proof.Claims
end

