-- ==== Sys2Proof/Proofs/RingDeltas.lean ====
section
/-!
PROOF. A delta that comes over the ring (R35, R40): its pieces, its check and its staging, and a COMMIT that fails.
-/

namespace Sys2Proof.Machine
open Sys2Proof.Claims

section
variable {s t u : State} {k : Fin 2} {x : Msg} {j sub st n : Nat} {data body got bs : List Byte} {l fs : List Nat}

/-! ### Pieces -/

/-- The bytes of a delta that a member holds with the piece in a message, when the piece follows them. -/
def pieces (rx body : List Byte) : List Byte :=
  (if leAt body 4 4 = 0 then [] else rx) ++ (body.drop 12).take (leAt body 8 4 - leAt body 4 4)

/-- The state with other pieces of a delta. -/
def State.withRx (s : State) (rx : List Byte) : State := { s with furn := { s.furn with rx } }

theorem State.rxPiece_of_next (hnext : (if leAt body 4 4 = 0 then [] else s.furn.rx).length = leAt body 4 4) :
    s.rxPiece body =
      if (pieces s.furn.rx body).length = leAt body 8 4 then
        (s.withRx [], some (pieces s.furn.rx body))
      else (s.withRx (pieces s.furn.rx body), none) := by
  have hpieces : (if leAt body 4 4 = 0 then [] else s.furn.rx) ++ (body.drop 12).take (leAt body 8 4 - leAt body 4 4) =
      pieces s.furn.rx body := rfl
  unfold State.rxPiece
  dsimp only
  rw [if_pos hnext, hpieces, decide_eq_true hnext, Bool.and_true]
  simp only [decide_eq_true_eq]
  rfl

/-! ### The functions that a delta lists -/

theorem State.lt_of_listedHere (h : j ∈ s.listedHere fs) : j < 39 := by
  obtain ⟨f, -, hf⟩ := List.mem_filterMap.mp h
  split_ifs at hf
  exact funcIndex_lt hf

/-- Writing states of functions one after another leaves each function of the list in a state that was written. -/
theorem State.funcState_foldl {P : Nat → Prop} {v : State → Nat → Nat} (hv : ∀ s k, P (v s k) ∧ v s k < 8) (l : List Nat)
    (hl : ∀ k ∈ l, k < 39) (s : State) (hj : j < 39) (h : j ∈ l ∨ P (s.funcState j)) :
    P ((l.foldl (fun (s : State) k => s.setFunc k (v s k)) s).funcState j) := by
  induction l generalizing s with
  | nil => exact h.resolve_left (List.not_mem_nil)
  | cons k l ih =>
    refine ih (fun m hm => hl m (List.mem_cons_of_mem _ hm)) _ ?_
    have hk : k < 39 := hl k List.mem_cons_self
    by_cases hkj : k = j
    · right
      have hsame : (s.setFunc k (v s k)).funcState k = v s k :=
        (State.rd_wr_same ..).trans (Nat.mod_eq_of_lt (hv s k).2)
      rw [← hkj, hsame]
      exact (hv s k).1
    · refine h.imp (fun hm => (List.mem_cons.mp hm).resolve_left (Ne.symm hkj)) fun hp => ?_
      have hother : (s.setFunc k (v s k)).funcState j = s.funcState j :=
        State.rd_wr_index _ (by omega) (by decide) (by omega) (by decide) fun e => hkj e.1.symm
      rwa [hother]

theorem State.deltaErr_congr (hpos : t.pos = s.pos) (hrecs : t.furn.recs = s.furn.recs) (hdeltas : t.furn.deltas = s.furn.deltas)
    (hf : FieldsKept linkFields s t) {delta : List (Nat × FRec)} : t.deltaErr bs delta = s.deltaErr bs delta := by
  have hlisted : t.listedHere (furnFunctions bs) = s.listedHere (furnFunctions bs) := by
    unfold State.listedHere
    rw [hpos]
  have hdram : t.dramSize = s.dramSize := hf.rd _ (by decide) _ (by decide) _ (by decide)
  have hstate : ∀ k ∈ s.listedHere (furnFunctions bs), t.funcState k = s.funcState k := fun k hk => by
    have := State.lt_of_listedHere hk
    exact hf.rd _ (by decide) _ (by omega) _ (by decide)
  have hdrained : ∀ k ∈ s.listedHere (furnFunctions bs), t.rd .GLB_FUNC_STATE_DRAINED k = s.rd .GLB_FUNC_STATE_DRAINED k :=
    fun k hk => by
      have := State.lt_of_listedHere hk
      exact hf.rd _ (by decide) _ (by omega) _ (by decide)
  have hrun : (s.listedHere (furnFunctions bs)).find? (fun k => t.funcState k ≠ fnStopped && t.funcState k ≠ fnAbsent) =
      (s.listedHere (furnFunctions bs)).find? (fun k => s.funcState k ≠ fnStopped && s.funcState k ≠ fnAbsent) :=
    List.find?_congr fun k hk => by rw [hstate k hk]
  have hundrained (new : List FRec) : (s.listedHere (furnFunctions bs)).find? (fun k => k < 32 && t.funcState k = fnStopped &&
        t.rd .GLB_FUNC_STATE_DRAINED k = 0 && partChanged s.furn.recs new k) =
      (s.listedHere (furnFunctions bs)).find? (fun k => k < 32 && s.funcState k = fnStopped &&
        s.rd .GLB_FUNC_STATE_DRAINED k = 0 && partChanged s.furn.recs new k) :=
    List.find?_congr fun k hk => by rw [hstate k hk, hdrained k hk]
  unfold State.deltaErr
  dsimp only
  rw [hlisted, hrecs, hdeltas, hdram, hpos, hrun, hundrained]

/-- What a delta is checked against: the furnish, the board, the fuses and the states of the functions. -/
theorem State.checkDelta_congr (hmgc : t.mgc = s.mgc) (hpins : t.pins = s.pins) (hrecs : t.furn.recs = s.furn.recs)
    (hdeltas : t.furn.deltas = s.furn.deltas) (hf : FieldsKept linkFields s t) (n : Nat) :
    t.checkDelta bs n = s.checkDelta bs n := by
  have hpos : t.pos = s.pos := congrArg (fun p => p.straps.pos.val) hpins
  have hgen : t.rd .GLB_FURNISH_GEN_GENERATION = s.rd .GLB_FURNISH_GEN_GENERATION :=
    hf.rd _ (by decide) _ (by decide) _ (by decide)
  have hrecsOf (bs : List Byte) : t.deltaRecs bs = s.deltaRecs bs := by
    unfold State.deltaRecs
    rw [hpins, hpos]
  have herr (bs : List Byte) (delta : List (Nat × FRec)) : t.deltaErr bs delta = s.deltaErr bs delta :=
    State.deltaErr_congr hpos hrecs hdeltas hf
  unfold State.checkDelta
  rw [hmgc, hgen]
  simp only [hrecsOf, herr]

/-! ### Staging and dropping -/

theorem State.setFuncs_frame (v : State → Nat → Nat) (l : List Nat) (s : State) :
    l.foldl (fun (s : State) k => s.setFunc k (v s k)) s =
      { s with regs := (l.foldl (fun (s : State) k => s.setFunc k (v s k)) s).regs } :=
  List.foldlRecOn (motive := fun t : State => t = { s with regs := t.regs }) l _ rfl fun t ht k _ => by
    rw [ht]
    rfl

theorem State.stageDelta_kept (s : State) (bs : List Byte) :
    (s.stageDelta bs).furn = { s.furn with staged := some bs } ∧ (s.stageDelta bs).ring.ports = s.ring.ports ∧
      (s.stageDelta bs).pos = s.pos ∧ ∀ j ∈ s.listedHere (furnFunctions bs), (s.stageDelta bs).funcState j = fnStaged := by
  have hframe := State.setFuncs_frame (fun _ _ => fnStaged) (s.listedHere (furnFunctions bs))
    { s with furn := { s.furn with staged := some bs } }
  change s.stageDelta bs = _ at hframe
  refine ⟨?_, ?_, ?_, fun j hj => ?_⟩
  · rw [hframe]
  · rw [hframe]
  · rw [hframe]
    rfl
  · exact State.funcState_foldl (P := (· = fnStaged)) (v := fun _ _ => fnStaged) (fun _ _ => ⟨rfl, by decide⟩) _
      (fun k hk => State.lt_of_listedHere hk) _ (State.lt_of_listedHere hj) (.inl hj)

/-- A COMMIT that carries a failure drops the staged delta and reports the failure (R40). -/
theorem State.commitHere_failed (hfail : st ≠ 0) (hstaged : s.furn.staged = some bs) (gen : Nat) :
    (s.commitHere st gen).furn = { s.furn with staged := none } ∧ (s.commitHere st gen).ring.ports = s.ring.ports ∧
      (s.commitHere st gen).pins = s.pins ∧ (s.commitHere st gen).rd .GLB_LOAD_RESULT_STATUS = st % 2 ^ 32 ∧
      ∀ j ∈ s.listedHere (furnFunctions bs),
        (s.commitHere st gen).funcState j = fnStopped ∨ (s.commitHere st gen).funcState j = fnAbsent := by
  let t : State := State.unstage { s with furn := { s.furn with staged := none } } bs
  have hcommit : s.commitHere st gen = t.loadFailed ⟨st, 0, 0xFFFF⟩ := by
    unfold State.commitHere
    rw [if_neg (show st ≠ stOk from hfail), hstaged]
  have hframe := State.setFuncs_frame (fun s k => if k < 32 && !s.partsHere.contains k then fnAbsent else fnStopped)
    (s.listedHere (furnFunctions bs)) { s with furn := { s.furn with staged := none } }
  change t = _ at hframe
  have hlisted : ∀ j ∈ s.listedHere (furnFunctions bs), t.funcState j = fnStopped ∨ t.funcState j = fnAbsent := fun j hj =>
    State.funcState_foldl (P := fun n => n = fnStopped ∨ n = fnAbsent)
      (v := fun s k => if k < 32 && !s.partsHere.contains k then fnAbsent else fnStopped) (fun s k => by
        split_ifs
        · exact ⟨.inr rfl, by decide⟩
        · exact ⟨.inl rfl, by decide⟩) _
      (fun k hk => State.lt_of_listedHere hk) _ (State.lt_of_listedHere hj) (.inl hj)
  have hfurn : t.furn = { s.furn with staged := none } := by rw [hframe]
  have hports : t.ring.ports = s.ring.ports := by rw [hframe]
  have hpins : t.pins = s.pins := by rw [hframe]
  rw [hcommit]
  clear_value t
  have other {s : State} {f g : Field} {v i : Nat} (hi : i < 65536) (h : g ≠ f) : (s.wr f v).rd g i = s.rd g i :=
    State.rd_wr_field _ (by decide) (by decide) hi (by decide) h
  refine ⟨hfurn, hports, hpins, ?_, fun j hj => ?_⟩
  · unfold State.loadFailed
    rw [other (by decide) (by decide), other (by decide) (by decide)]
    exact State.rd_wr_same ..
  · have hlt := State.lt_of_listedHere hj
    have heq : (t.loadFailed ⟨st, 0, 0xFFFF⟩).funcState j = t.funcState j := by
      unfold State.loadFailed State.funcState
      rw [other (by omega) (by decide), other (by omega) (by decide), other (by omega) (by decide)]
    rw [heq]
    exact hlisted j hj

end

end Sys2Proof.Machine

namespace Sys2Proof.Claims
open Sys2Proof Sys2Proof.Machine

section
variable (s : State) (k : Fin 2) (x : Msg)

theorem pieceIsKept
    (hnext : (if leAt (x.bytes.drop 8) 4 4 = 0 then [] else s.furn.rx).length = leAt (x.bytes.drop 8) 4 4)
    (hmore : (pieces s.furn.rx (x.bytes.drop 8)).length ≠ leAt (x.bytes.drop 8) 8 4) :
    (ArrivesCtl s k 6 x → ∃ u, exec (.prepare k) s = .next u ∧ Answered s u k x stOk [] ∧
      u.furn = { s.furn with rx := pieces s.furn.rx (x.bytes.drop 8) }) ∧
    (ArrivesCtl s k 8 x → ∃ u, exec (.deltaReplay k) s = .next u ∧ Answered s u k x stOk [] ∧
      u.furn = { s.furn with rx := pieces s.furn.rx (x.bytes.drop 8) }) := by
  have ho := linkOnly_leaveRx s k x
  have hpiece := State.rxPiece_of_next (s := s.leaveRx k x) (ho.furn.symm ▸ hnext)
  rw [ho.furn, if_neg hmore] at hpiece
  obtain ⟨t, ht, hfurn, hports, hpos⟩ : ∃ t, (s.leaveRx k x).rxPiece (x.bytes.drop 8) = (t, none) ∧
      t.furn = { s.furn with rx := pieces s.furn.rx (x.bytes.drop 8) } ∧ t.ring.ports = (s.leaveRx k x).ring.ports ∧
      t.pos = s.pos :=
    ⟨_, hpiece, congrArg (fun f : Furnish => { f with rx := pieces s.furn.rx (x.bytes.drop 8) }) ho.furn, rfl, ho.pos⟩
  constructor
  · intro harr
    refine ⟨t.replyTo x.bytes stOk [], congrArg Host.Outcome.next ((State.ringctl_of_arrives harr _).trans ?_),
      answered_replyTo (linkGrows_of_ports hports) hpos, (linkOnly_replyTo ..).furn.trans hfurn⟩
    rw [ht]
  · intro harr
    refine ⟨t.replyBy k x.bytes stOk [], congrArg Host.Outcome.next ((State.ringctl_of_arrives harr _).trans ?_),
      answered_replyBy (linkGrows_of_ports hports) hpos, (linkOnly_replyBy ..).furn.trans hfurn⟩
    rw [ht]

/-- The state that a whole delta leaves when it has been collected, and is not applied. -/
theorem deltaIsChecked
    (hnext : (if leAt (x.bytes.drop 8) 4 4 = 0 then [] else s.furn.rx).length = leAt (x.bytes.drop 8) 4 4)
    (hall : (pieces s.furn.rx (x.bytes.drop 8)).length = leAt (x.bytes.drop 8) 8 4) :
    (ArrivesCtl s k 6 x → (∃ r, s.checkDelta (pieces s.furn.rx (x.bytes.drop 8)) (pieces s.furn.rx (x.bytes.drop 8)).length = .ok r) →
      ∃ u, exec (.prepare k) s = .next u ∧ Answered s u k x stOk [] ∧
        u.furn = { s.furn with rx := [], staged := some (pieces s.furn.rx (x.bytes.drop 8)) } ∧
        ∀ j ∈ s.listedHere (furnFunctions (pieces s.furn.rx (x.bytes.drop 8))), u.funcState j = fnStaged) ∧
    (ArrivesCtl s k 6 x → (∀ e, s.checkDelta (pieces s.furn.rx (x.bytes.drop 8)) (pieces s.furn.rx (x.bytes.drop 8)).length =
        .error e → ∃ u, exec (.prepare k) s = .next u ∧ Answered s u k x e.status [] ∧ u.furn = { s.furn with rx := [] })) ∧
    (ArrivesCtl s k 8 x → furnBase (pieces s.furn.rx (x.bytes.drop 8)) ≠ s.rd .GLB_FURNISH_GEN_GENERATION →
      ∃ u, exec (.deltaReplay k) s = .next u ∧ Answered s u k x stOk [] ∧ u.furn = { s.furn with rx := [] }) := by
  have ho := linkOnly_leaveRx s k x
  have hpiece := State.rxPiece_of_next (s := s.leaveRx k x) (ho.furn.symm ▸ hnext)
  rw [ho.furn, if_pos hall] at hpiece
  generalize pieces s.furn.rx (x.bytes.drop 8) = got at hall hpiece
  have hregs : ((s.leaveRx k x).withRx []).regs = (s.leaveRx k x).regs := rfl
  have hkept := ho.fields.of_regs hregs
  have hmgc : ((s.leaveRx k x).withRx []).mgc = s.mgc := by
    rw [ho.frame]
    rfl
  have hpins : ((s.leaveRx k x).withRx []).pins = s.pins := by
    rw [ho.frame]
    rfl
  have hfurn : ((s.leaveRx k x).withRx []).furn = { s.furn with rx := [] } :=
    congrArg (fun f : Furnish => { f with rx := [] }) ho.furn
  have hcheck : ((s.leaveRx k x).withRx []).checkDelta got got.length = s.checkDelta got got.length :=
    State.checkDelta_congr hmgc hpins (by rw [hfurn]) (by rw [hfurn]) hkept _
  have hgen : ((s.leaveRx k x).withRx []).rd .GLB_FURNISH_GEN_GENERATION = s.rd .GLB_FURNISH_GEN_GENERATION :=
    hkept.rd _ (by decide) _ (by decide) _ (by decide)
  obtain ⟨t, ht, hfurn, hports, hpos, hcheck, hgen⟩ : ∃ t, (s.leaveRx k x).rxPiece (x.bytes.drop 8) = (t, some got) ∧
      t.furn = { s.furn with rx := [] } ∧ t.ring.ports = (s.leaveRx k x).ring.ports ∧ t.pos = s.pos ∧
      t.checkDelta got got.length = s.checkDelta got got.length ∧
      t.rd .GLB_FURNISH_GEN_GENERATION = s.rd .GLB_FURNISH_GEN_GENERATION := ⟨_, hpiece, hfurn, rfl, ho.pos, hcheck, hgen⟩
  have hexec (harr : ArrivesCtl s k 6 x) :
      exec (.prepare k) s = .next ((t.prepareDelta got).1.replyTo x.bytes (t.prepareDelta got).2 []) := by
    refine congrArg Host.Outcome.next ((State.ringctl_of_arrives harr _).trans ?_)
    rw [ht]
  refine ⟨fun harr ⟨r, hr⟩ => ?staged, fun harr e he => ?refused, fun harr hbase => ?ignored⟩
  case staged =>
    have hprep : t.prepareDelta got = (t.stageDelta got, stOk) := by
      unfold State.prepareDelta
      rw [hcheck, hr]
    have hstage := t.stageDelta_kept got
    rw [hprep] at hexec
    refine ⟨_, hexec harr, answered_replyTo (linkGrows_of_ports (hstage.2.1.trans hports)) (hstage.2.2.1.trans hpos),
      (linkOnly_replyTo ..).furn.trans (hstage.1.trans ?_), fun j hj => ?_⟩
    · rw [hfurn]
    · have hlt := State.lt_of_listedHere hj
      refine ((linkOnly_replyTo ..).fields.rd _ (by decide) _ (by omega) _ (by decide)).trans (hstage.2.2.2 j ?_)
      unfold State.listedHere at hj ⊢
      rwa [hpos]
  case refused =>
    have hprep : t.prepareDelta got = (t, e.status) := by
      unfold State.prepareDelta
      rw [hcheck, he]
    rw [hprep] at hexec
    exact ⟨_, hexec harr, answered_replyTo (linkGrows_of_ports hports) hpos, (linkOnly_replyTo ..).furn.trans hfurn⟩
  case ignored =>
    refine ⟨t.replyBy k x.bytes stOk [], congrArg Host.Outcome.next ((State.ringctl_of_arrives harr _).trans ?_),
      answered_replyBy (linkGrows_of_ports hports) hpos, (linkOnly_replyBy ..).furn.trans hfurn⟩
    rw [ht]
    dsimp only
    unfold State.replayDelta
    rw [if_neg (hgen ▸ hbase)]

theorem failedCommitDrops {bs : List Byte} (harr : ArrivesCtl s k 7 x) (hfail : leAt (ctlBody x.bytes) 0 4 ≠ 0)
    (hstaged : s.furn.staged = some bs) :
    ∃ u, exec (.commit k) s = .next u ∧ Answered s u k x stOk [] ∧ u.furn = { s.furn with staged := none } ∧
      u.rd .GLB_LOAD_RESULT_STATUS = leAt (ctlBody x.bytes) 0 4 ∧
      ∀ j ∈ s.listedHere (furnFunctions bs), u.funcState j = fnStopped ∨ u.funcState j = fnAbsent := by
  have ho := linkOnly_leaveRx s k x
  have hstaged' : (s.leaveRx k x).furn.staged = some bs := by rw [ho.furn, hstaged]
  have hcommit := State.commitHere_failed (s := s.leaveRx k x) hfail hstaged' (leAt (ctlBody x.bytes) 4 8)
  have hexec : exec (.commit k) s = .next (((s.leaveRx k x).commitHere (leAt (ctlBody x.bytes) 0 4) (leAt (ctlBody x.bytes) 4 8)).replyBy
      k x.bytes stOk []) := by
    refine congrArg Host.Outcome.next ((State.ringctl_of_arrives harr _).trans ?_)
    dsimp only
    unfold State.commitStatus
    rw [if_pos (by simp [stOk, hfail])]
  obtain ⟨hfurn, hports, hpins, hstatus, hlisted⟩ := hcommit
  refine ⟨_, hexec, answered_replyBy (linkGrows_of_ports hports) ?_, ?_, ?_, fun j hj => ?_⟩
  · exact (congrArg (fun p => p.straps.pos.val) hpins).trans ho.pos
  · rw [(linkOnly_replyBy ..).furn, hfurn, ho.furn]
  · rw [(linkOnly_replyBy ..).fields.rd _ (by decide) _ (by decide) _ (by decide), hstatus]
    have hlt := leAt_lt (ctlBody x.bytes) 0 4
    norm_num at hlt
    omega
  · have hlt := State.lt_of_listedHere hj
    have hj' : j ∈ (s.leaveRx k x).listedHere (furnFunctions bs) := by
      unfold State.listedHere at hj ⊢
      rwa [ho.pos]
    have heq : State.funcState (State.replyBy _ k x.bytes stOk []) j = _ :=
      (linkOnly_replyBy ((s.leaveRx k x).commitHere (leAt (ctlBody x.bytes) 0 4) (leAt (ctlBody x.bytes) 4 8)) k x.bytes stOk []).fields.rd
        _ (by decide) _ (by omega) _ (by decide)
    rw [heq]
    exact hlisted j hj'

end

end Sys2Proof.Claims
end

