-- ==== Sys2Proof/Proofs/RingRequests.lean ====
section
/-!
PROOF. The ring's other requests (R315, R335, R349, R437, R438, R442): a teardown of a partition that holds no work here, a root, an
invalidation, a column and its end, the result of an image, and O53.
-/

namespace Sys2Proof.Machine
open Sys2Proof.Claims

section
variable {s t u : State} {k : Fin 2} {x : Msg} {p src tag : Nat} {c : StopCause}

/-! ### A teardown that meets no work -/

theorem State.scopeVats_of_empty (hvats : s.vats = []) (c : StopCause) : s.scopeVats c = [] := by
  have hblocks (n : Nat) : (s.vat n).blocks = [] := by
    unfold State.vat
    rw [hvats]
    rfl
  unfold State.scopeVats
  simp [hblocks]

theorem State.holders_of_idle (hvats : s.vats = []) (hpasses : s.geo.passes = []) (hqueues : s.hb.queues = [])
    (hspan : s.spanning c.part = false) : s.holders c = [] := by
  have hhanded : s.scopeHanded c = [] := by
    unfold State.scopeHanded State.allCmds
    rw [hqueues]
    rfl
  have hmembers : s.scopeMembers c = [] := by
    unfold State.scopeMembers
    rw [hspan]
    rfl
  unfold State.holders
  rw [hhanded, hmembers, hpasses, State.scopeVats_of_empty hvats]
  simp

/-- The only request that waits for an answer, and whose work is done, is answered. -/
theorem State.answerFuncs_of_single {r : FuncReq} (hfuncs : s.ring.funcs = [r]) (hdone : s.funcReqDone r = true) :
    s.answerFuncs = State.feltCpl { s with ring := { s.ring with funcs := [] } } 7 r.src r.tag r.p stOk [] := by
  unfold State.answerFuncs
  rw [hfuncs, List.filter_cons_of_pos hdone]
  dsimp only [List.filter_nil, List.foldl_cons, List.foldl_nil]
  rw [hfuncs]
  simp

/-- A teardown stop at a member that holds no work of the partition is answered at once (R315). -/
theorem State.memberTeardown_of_idle (hstops : s.hb.stops = []) (hvats : s.vats = []) (hpasses : s.geo.passes = [])
    (hqueues : s.hb.queues = []) (hfuncs : s.ring.funcs = []) (hspan : s.spanning p = false) :
    ∃ t : State, s.memberTeardown p src tag = t.feltCpl 7 src tag p stOk [] ∧ t.ring.ports = s.ring.ports ∧ t.pos = s.pos ∧
      t.mem = s.mem ∧ t.ring.funcs = [] ∧ ∀ w ∈ t.xlt.waits, w.p ≠ p := by
  have hd := State.dropMigrations_frame s p
  have hwaits : ∀ w ∈ (s.dropMigrations p).xlt.waits, w.p ≠ p := fun w hw => by
    have := (List.mem_filter.mp (show w ∈ List.filter _ _ from hw)).2
    simpa using this
  unfold State.memberTeardown
  generalize s.dropMigrations p = d at hd hwaits
  extract_lets c s1 sched ring s2 ws
  have hd2 : d.vats = [] := by
    rw [hd]
    exact hvats
  have hvats2 : s2.vats = [] := by
    change (d.vats.map _).map _ = []
    rw [hd2]
    rfl
  have hhb2 : s2.hb = s.hb := by
    change d.hb = s.hb
    rw [hd]
  have hgeo2 : s2.geo = s.geo := by
    change d.geo = s.geo
    rw [hd]
  have hspan2 : s2.spanning p = false := by
    change d.spanning p = false
    rw [hd]
    exact hspan
  have hfuncs2 : s2.ring.funcs = [⟨src, tag, 4, p⟩] := by
    change d.ring.funcs ++ _ = _
    rw [hd]
    change s.ring.funcs ++ _ = _
    rw [hfuncs]
    rfl
  have hws : ws = [] := State.holders_of_idle hvats2 (hgeo2.symm ▸ hpasses) (hhb2.symm ▸ hqueues) hspan2
  have hnone : s2.hb.stops = [] := hhb2.symm ▸ hstops
  have hports2 : s2.ring.ports = s.ring.ports := by
    change d.ring.ports = s.ring.ports
    rw [hd]
  have hpos2 : s2.pos = s.pos := by
    change d.pos = s.pos
    rw [hd]
    rfl
  have hmem2 : s2.mem = s.mem := by
    change d.mem = s.mem
    rw [hd]
  have hwaits2 : ∀ w ∈ s2.xlt.waits, w.p ≠ p := hwaits
  have hdone : (s2.dropLaunches c).funcReqDone ⟨src, tag, 4, p⟩ = true := by
    change (!s2.hb.stops.any _) = true
    rw [hnone]
    rfl
  clear_value ws s2
  have hanswer := State.answerFuncs_of_single (s := s2.dropLaunches c) hfuncs2 hdone
  have hstopped : (s2.hb.stops.any fun x => decide (x.cause = c)) = false := by
    rw [hnone]
    rfl
  rw [hws, hstopped, if_neg Bool.false_ne_true, if_pos rfl, hanswer]
  have hrest : (s2.dropLaunches c).ring.ports = s2.ring.ports ∧ (s2.dropLaunches c).pos = s2.pos ∧
      (s2.dropLaunches c).mem = s2.mem ∧ (s2.dropLaunches c).xlt = s2.xlt := ⟨rfl, rfl, rfl, rfl⟩
  generalize s2.dropLaunches c = e at hrest hanswer
  obtain ⟨hports, hpos, hmem, hxlt⟩ := hrest
  refine ⟨_, rfl, hports.trans hports2, hpos.trans hpos2, hmem.trans hmem2, rfl, ?_⟩
  rw [hxlt]
  exact hwaits2

/-! ### Invalidations -/

/-- What INVALIDATE does when it is performed (R349). -/
def State.serveInval (s : State) (m : List Byte) : State :=
  let p := leAt (ctlBody m) 0 4 % 32
  let s1 := (s.wrAddr .XLT_INV_ADDR_ADDR (leAt (ctlBody m) 8 8) p).invalRequest p (2 ^ 32 + leAt (ctlBody m) 4 4)
  { s1 with ring := { s1.ring with funcs := s1.ring.funcs ++ [⟨msgSrc m, msgTag m, 5, p⟩] } }

theorem State.startInval_local {word a : Nat} (hspan : s.spanning p = false) :
    s.startInval p word a =
      { s.wr .XLT_INV_DONE_BUSY 1 p with
        xlt := { s.xlt with inval := storePut p ⟨word % 2 ^ 32, a, localCaches, decide (2 ^ 32 ≤ word)⟩ s.xlt.inval } } := by
  unfold State.startInval
  rw [hspan]
  simp

/-- An invalidation of a partition that does not span starts in the chip's own caches (R349). -/
theorem State.serveInval_local (s : State) {m : List Byte} (hspan : s.spanning (leAt (ctlBody m) 0 4 % 32) = false)
    (hidle : s.xlt.inval.any (fun y => y.1 = leAt (ctlBody m) 0 4 % 32) = false) (hword : leAt (ctlBody m) 4 4 < 2 ^ 32) :
    (s.serveInval m).ring.ports = s.ring.ports ∧ (s.serveInval m).rd .XLT_INV_DONE_BUSY (leAt (ctlBody m) 0 4 % 32) = 1 ∧
      storeFind (s.serveInval m).xlt.inval (leAt (ctlBody m) 0 4 % 32) =
        some ⟨leAt (ctlBody m) 4 4, leAt (ctlBody m) 8 8 / 4096 % 2 ^ 36 * 4096, localCaches, true⟩ ∧
      (s.serveInval m).ring.funcs = s.ring.funcs ++ [⟨msgSrc m, msgTag m, 5, leAt (ctlBody m) 0 4 % 32⟩] ∧
      (s.serveInval m).mem = s.mem := by
  unfold State.serveInval
  dsimp only
  generalize leAt (ctlBody m) 4 4 = w at hword
  generalize leAt (ctlBody m) 8 8 = a
  generalize leAt (ctlBody m) 0 4 % 32 = p at hspan hidle
  have haddr : (s.wrAddr .XLT_INV_ADDR_ADDR a p).addrOf .XLT_INV_ADDR_ADDR p = a / 4096 % 2 ^ 36 * 4096 :=
    congrArg (· * 4096) (State.rd_wr_same ..)
  have hstart : (s.wrAddr .XLT_INV_ADDR_ADDR a p).invalRequest p (2 ^ 32 + w) =
      (s.wrAddr .XLT_INV_ADDR_ADDR a p).startInval p (2 ^ 32 + w) (a / 4096 % 2 ^ 36 * 4096) := by
    unfold State.invalRequest
    rw [show (s.wrAddr .XLT_INV_ADDR_ADDR a p).xlt = s.xlt from rfl, hidle, haddr]
    rfl
  rw [hstart, State.startInval_local (s := s.wrAddr .XLT_INV_ADDR_ADDR a p) hspan, Nat.add_mod_left, Nat.mod_eq_of_lt hword,
    decide_eq_true (Nat.le_add_right ..)]
  exact ⟨rfl, (State.rd_congr (s := (s.wrAddr .XLT_INV_ADDR_ADDR a p).wr .XLT_INV_DONE_BUSY 1 p) rfl _ _ _).trans
    (State.rd_wr_same ..), (storeFind_put ..).trans (if_pos rfl), rfl, rfl⟩

/-! ### Columns -/

/-- A column whose launch can be read starts it here (R437). -/
theorem State.serveColumn_of_read {s2 : State} {m : List Byte} {l : Launch}
    (hread : s.takeId.2.readLaunch (leAt (ctlBody m) 0 4 % 32) (.remote (msgSrc m) (msgTag m)) (leAt (ctlBody m) 4 8) s.takeId.1
      (.column (msgSrc m) (leAt (ctlBody m) 12 8)) = (s2, .ok l)) :
    s.serveColumn m = ((s2.setLaunch s.takeId.1 { l with total := l.gz }).replyTo m stOk [], true) := by
  obtain ⟨read, hdef⟩ : ∃ read, @State.readLaunch = read := ⟨_, rfl⟩
  rw [hdef] at hread
  rw [State.serveColumn, hdef]
  dsimp only [State.takeId] at hread ⊢
  rw [hread]

/-- The last column of a compute launch ends its command with the column's status (R438). -/
theorem State.columnDone_last {id col chip st cmd : Nat} {l : Launch} (hcol : col < 2 ^ 48)
    (hcolumns : s.ring.columns = [(id * 2 ^ 48 + col, (chip, 0))]) (hlaunch : s.launch id = some l) (hp : l.p = p)
    (hlast : l.retired + 1 = l.total) (huse : l.use = .compute cmd) :
    ∃ t : State, s.columnDone p col st = t.setResult cmd st ∧ t.launch id = none ∧ t.ring.columns = [] ∧
      t.ring.ports = s.ring.ports ∧ t.hb = s.hb ∧ t.mem = s.mem := by
  have hkey : (id * 2 ^ 48 + col) / 2 ^ 48 = id := by omega
  have hmod : (id * 2 ^ 48 + col) % 2 ^ 48 = col := by omega
  let s1 := (s.putColumn id col (chip, 1 + st)).setLaunch id { l with retired := l.retired + 1 }
  have hput : s1.ring.columns = [(id * 2 ^ 48 + col, (chip, 1 + st))] := by
    change storePut (id * 2 ^ 48 + col) _ s.ring.columns = _
    rw [hcolumns]
    unfold storePut
    rw [if_neg (lt_irrefl _), if_pos rfl]
  have hstatus : s1.columnsStatus id = st := by
    unfold State.columnsStatus
    rw [hput]
    rcases Nat.eq_zero_or_pos st with h0 | hpos
    · rw [List.find?_cons_of_neg (by simp [h0]), h0]
      rfl
    · rw [List.find?_cons_of_pos (by rw [hkey]; simp [hpos])]
      exact Nat.add_sub_cancel_left ..
  let s2 : State := { s1 with
    launches := storeErase s1.launches id, ring := { s1.ring with columns := s1.ring.columns.filter (fun x => x.1 / 2 ^ 48 ≠ id) } }
  have hdone : s.columnDone p col st = s2.setResult cmd st := by
    unfold State.columnDone
    rw [hcolumns, List.find?_cons_of_pos ?found]
    case found =>
      rw [hmod, hkey, hlaunch]
      simp [hp]
    dsimp only
    rw [hkey, hlaunch]
    dsimp only
    rw [if_pos hlast]
    split
    next c hc =>
      cases huse.symm.trans hc
      exact congrArg (s2.setResult cmd) hstatus
    next hne => exact absurd huse (hne cmd)
  refine ⟨s2, hdone, (storeFind_erase ..).trans (if_pos rfl), ?_, rfl, rfl, rfl⟩
  change s1.ring.columns.filter _ = []
  rw [hput]
  refine List.filter_cons_of_neg ?_
  rw [hkey]
  simp

end

end Sys2Proof.Machine

namespace Sys2Proof.Claims
open Sys2Proof Sys2Proof.Machine

section
variable (s : State) (k : Fin 2) (x : Msg)

theorem teardownIsAnswered (harr : ArrivesCtl s k 9 x) (hmode : leAt (ctlBody x.bytes) 0 2 = 4)
    (hpart : msgPart x.bytes = leAt (ctlBody x.bytes) 2 2 % 32) (hstops : s.hb.stops = []) (hvats : s.vats = [])
    (hpasses : s.geo.passes = []) (hqueues : s.hb.queues = []) (hfuncs : s.ring.funcs = [])
    (hspan : s.spanning (leAt (ctlBody x.bytes) 2 2 % 32) = false) :
    ∃ u, exec (.func k) s = .next u ∧ Answered s u k x stOk [] ∧ u.ring.funcs = [] ∧ u.mem = s.mem ∧
      ∀ w ∈ u.xlt.waits, w.p ≠ leAt (ctlBody x.bytes) 2 2 % 32 := by
  have ho := linkOnly_leaveRx s k x
  have hexec : exec (.func k) s = .next ((s.leaveRx k x).memberTeardown (leAt (ctlBody x.bytes) 2 2 % 32) (msgSrc x.bytes)
      (msgTag x.bytes)) := by
    refine congrArg Host.Outcome.next ((State.ringctl_of_arrives harr _).trans ?_)
    unfold State.serveFunc
    exact if_pos hmode
  rw [← hpart] at hexec hspan ⊢
  have hvats' : (s.leaveRx k x).vats = [] := by
    rw [ho.frame]
    exact hvats
  have hgeo : (s.leaveRx k x).geo = s.geo := by rw [ho.frame]
  have hfuncs' : (s.leaveRx k x).ring.funcs = [] := by
    rw [ho.frame]
    exact hfuncs
  have hspan' : (s.leaveRx k x).spanning (msgPart x.bytes) = false := by
    rw [ho.frame]
    exact hspan
  obtain ⟨t, ht, hports, hpos, hmem, hnone, hwaits⟩ := State.memberTeardown_of_idle (src := msgSrc x.bytes) (tag := msgTag x.bytes)
    (ho.hb.symm ▸ hstops) hvats' (hgeo.symm ▸ hpasses) (ho.hb.symm ▸ hqueues) hfuncs' hspan'
  rw [ht] at hexec
  have hcpl : LinkOnly t (t.feltCpl 7 (msgSrc x.bytes) (msgTag x.bytes) (msgPart x.bytes) stOk []) := (link_feltCplBy ..).2.1
  refine ⟨_, hexec, answered_reply (linkGrows_of_ports hports) (hpos.trans ho.pos) (State.routePort_lt ..), ?_, ?_, ?_⟩
  · rw [hcpl.frame]
    exact hnone
  · exact hcpl.mem.trans (hmem.trans ho.mem)
  · rw [hcpl.frame]
    exact hwaits

theorem rootIsTaken (harr : ArrivesCtl s k 0x0A x) :
    ∃ u, exec (.root k) s = .next u ∧ Answered s u k x stOk [] ∧ u.mem = s.mem ∧
      u.addrOf .XLT_ROOT_ADDR (leAt (ctlBody x.bytes) 0 4 % 32) = leAt (ctlBody x.bytes) 4 8 / 4096 % 2 ^ 36 * 4096 ∧
      u.rd .XLT_ROOT_EN (leAt (ctlBody x.bytes) 0 4 % 32) = leAt (ctlBody x.bytes) 4 8 % 2 := by
  have ho := linkOnly_leaveRx s k x
  have hp : leAt (ctlBody x.bytes) 0 4 % 32 < 65536 := by omega
  have hexec : exec (.root k) s = .next ((((s.leaveRx k x).wrAddr .XLT_ROOT_ADDR (leAt (ctlBody x.bytes) 4 8)
      (leAt (ctlBody x.bytes) 0 4 % 32)).wr .XLT_ROOT_EN (leAt (ctlBody x.bytes) 4 8) (leAt (ctlBody x.bytes) 0 4 % 32)).replyTo
        x.bytes stOk []) := congrArg Host.Outcome.next (State.ringctl_of_arrives harr _)
  generalize leAt (ctlBody x.bytes) 0 4 % 32 = p at hp hexec
  generalize leAt (ctlBody x.bytes) 4 8 = a at hexec
  have hreply := linkOnly_replyTo (((s.leaveRx k x).wrAddr .XLT_ROOT_ADDR a p).wr .XLT_ROOT_EN a p) x.bytes stOk []
  refine ⟨_, hexec, answered_replyTo (linkGrows_of_ports rfl) ho.pos, hreply.mem.trans ho.mem, ?_, ?_⟩
  · unfold State.addrOf
    rw [hreply.fields.rd _ (by decide) _ hp _ (by decide),
      State.rd_wr_field _ hp (by decide) hp (by decide) (by decide)]
    exact congrArg (· * 4096) (State.rd_wr_same ..)
  · rw [hreply.fields.rd _ (by decide) _ hp _ (by decide)]
    exact State.rd_wr_same ..

theorem invalidationStarts (harr : ArrivesCtl s k 0x0B x) (hspan : s.spanning (leAt (ctlBody x.bytes) 0 4 % 32) = false)
    (hidle : s.xlt.inval.any (fun y => y.1 = leAt (ctlBody x.bytes) 0 4 % 32) = false) :
    ∃ u, exec (.invalidate k) s = .next u ∧ (u.port k).rx = (s.port k).rx.erase x ∧
      u.rd .XLT_INV_DONE_BUSY (leAt (ctlBody x.bytes) 0 4 % 32) = 1 ∧
      storeFind u.xlt.inval (leAt (ctlBody x.bytes) 0 4 % 32) =
        some ⟨leAt (ctlBody x.bytes) 4 4, leAt (ctlBody x.bytes) 8 8 / 4096 % 2 ^ 36 * 4096, localCaches, true⟩ ∧
      u.ring.funcs = s.ring.funcs ++ [⟨msgSrc x.bytes, msgTag x.bytes, 5, leAt (ctlBody x.bytes) 0 4 % 32⟩] ∧ u.mem = s.mem := by
  have ho := linkOnly_leaveRx s k x
  have hrx := (link_leaveRx s k x).2.2 k
  have hp : leAt (ctlBody x.bytes) 0 4 % 32 < 65536 := by omega
  have hword : leAt (ctlBody x.bytes) 4 4 < 2 ^ 32 := by
    have h := leAt_lt (ctlBody x.bytes) 4 4
    norm_num at h ⊢
    exact h
  have hspan' : (s.leaveRx k x).spanning (leAt (ctlBody x.bytes) 0 4 % 32) = false := by
    rw [ho.frame]
    exact hspan
  have hxlt : (s.leaveRx k x).xlt = s.xlt := by rw [ho.frame]
  have hfuncs : (s.leaveRx k x).ring.funcs = s.ring.funcs := by rw [ho.frame]
  have hexec : exec (.invalidate k) s = .next ((s.leaveRx k x).serveInval x.bytes) :=
    congrArg Host.Outcome.next (State.ringctl_of_arrives harr _)
  obtain ⟨hports, hbusy, hinval, hreqs, hmem⟩ := (s.leaveRx k x).serveInval_local (m := x.bytes) hspan' (hxlt.symm ▸ hidle) hword
  refine ⟨_, hexec, ?_, hbusy, hinval, hreqs.trans (by rw [hfuncs]), hmem.trans ho.mem⟩
  rw [State.port_congr hports, hrx, if_pos rfl]

theorem columnStarts (s2 : State) (l : Launch) (harr : ArrivesCtl s k 0x0C x)
    (hread : ({ s with nextId := s.nextId + 1 }).readLaunch (leAt (ctlBody x.bytes) 0 4 % 32) (.remote (msgSrc x.bytes) (msgTag x.bytes))
      (leAt (ctlBody x.bytes) 4 8) s.nextId (.column (msgSrc x.bytes) (leAt (ctlBody x.bytes) 12 8)) = (s2, .ok l)) :
    ∃ u, exec (.column k) s = .next u ∧ u.launch s.nextId = some { l with total := l.gz } ∧
      Sends u (feltMsg 8 s2.pos (msgSrc x.bytes) (msgTag x.bytes) (msgPart x.bytes) (toLe 4 stOk)) ∧ u.mem = s2.mem := by
  let t := s2.setLaunch s.nextId { l with total := l.gz }
  obtain ⟨hlive, hhead, hnew, -⟩ := harr
  have hfresh : s.ring.performed.any (fun y => y.1 = (msgSrc x.bytes, msgTag x.bytes)) = false := by
    rw [List.any_eq_false]
    exact List.find?_eq_none.mp hnew
  have hserve : s.serveColumn x.bytes = (t.replyTo x.bytes stOk [], true) := State.serveColumn_of_read hread
  have hexec : exec (.column k) s = .next ((t.replyTo x.bytes stOk []).leaveRx k x) := by
    refine congrArg Host.Outcome.next ?_
    unfold State.column
    rw [hlive, hhead]
    dsimp only
    rw [hfresh, hserve]
    rfl
  obtain ⟨-, hreply, hcarries⟩ := link_feltCplBy t (t.routePort (msgSrc x.bytes)) (msgOp x.bytes) (msgSrc x.bytes) (msgTag x.bytes)
    (msgPart x.bytes) stOk []
  have hleave := link_leaveRx (t.replyTo x.bytes stOk []) k x
  have hlink : LinkOnly t ((t.replyTo x.bytes stOk []).leaveRx k x) := (linkOnly_replyTo ..).trans hleave.1.linkOnly
  refine ⟨_, hexec, ?_, hleave.2.1 _ (Carries.sends ?_ (State.routePort_lt t (msgSrc x.bytes))), hlink.mem⟩
  · unfold State.launch
    rw [hlink.launches]
    exact (storeFind_put ..).trans (if_pos rfl)
  · rw [List.append_nil] at hcarries
    exact hcarries

theorem lastColumnEndsItsCommand (id c chip : Nat) (l : Launch) (y : Cmd) (harr : ArrivesCtl s k 0x0D x)
    (hcol : leAt (ctlBody x.bytes) 4 8 < 2 ^ 48) (hstops : s.hb.stops = [])
    (hcolumns : s.ring.columns = [(id * 2 ^ 48 + leAt (ctlBody x.bytes) 4 8, (chip, 0))]) (hlaunch : s.launch id = some l)
    (hp : l.p = leAt (ctlBody x.bytes) 0 4 % 32) (hlast : l.retired + 1 = l.total) (huse : l.use = .compute c)
    (hcmd : s.cmd c = some y) (hphase : y.phase = .handed) (hnone : y.result = none) :
    ∃ u, exec (.columnDone k) s = .next u ∧ Answered s u k x stOk [] ∧ u.launch id = none ∧ u.ring.columns = [] ∧
      u.cmd c = some { y with result := some (leAt (ctlBody x.bytes) 12 4) } ∧ u.mem = s.mem := by
  have hlink := (linkOnly_leaveRx s k x).trans (linkOnly_replyTo (s.leaveRx k x) x.bytes stOk [])
  have hans : Answered s ((s.leaveRx k x).replyTo x.bytes stOk []) k x stOk [] :=
    answered_replyTo (.refl _) (linkOnly_leaveRx s k x).pos
  have hexec : exec (.columnDone k) s = .next (((s.leaveRx k x).replyTo x.bytes stOk []).columnDone (leAt (ctlBody x.bytes) 0 4 % 32)
      (leAt (ctlBody x.bytes) 4 8) (leAt (ctlBody x.bytes) 12 4)).settleStops :=
    congrArg Host.Outcome.next (State.ringctl_of_arrives harr _)
  generalize (s.leaveRx k x).replyTo x.bytes stOk [] = r at hlink hans hexec
  have hcolumns' : r.ring.columns = s.ring.columns := by rw [hlink.frame]
  have hlaunch' : r.launch id = some l := by
    unfold State.launch
    rw [hlink.launches]
    exact hlaunch
  obtain ⟨t, ht, hgone, hnil, hports, hhb, hmem⟩ := State.columnDone_last (st := leAt (ctlBody x.bytes) 12 4) hcol
    (hcolumns'.trans hcolumns) hlaunch' hp hlast huse
  have hcmd' : t.cmd c = some y := (State.cmd_congr (by rw [hhb, hlink.hb])).trans hcmd
  have hsettled : (t.setResult c (leAt (ctlBody x.bytes) 12 4)).settleStops = t.setResult c (leAt (ctlBody x.bytes) 12 4) := by
    have hstops' : (t.setResult c (leAt (ctlBody x.bytes) 12 4)).hb.stops = [] := by
      change t.hb.stops = []
      rw [hhb, hlink.hb, hstops]
    unfold State.settleStops
    rw [hstops']
    rfl
  rw [ht, hsettled] at hexec
  exact ⟨_, hexec, answered_grows hans (linkGrows_of_ports hports), hgone, hnil, State.cmd_setResult _ hcmd' hphase hnone,
    hmem.trans hlink.mem⟩

theorem imageResultIsNoted (harr : ArrivesCtl s k 0x0E x) (hmaster : s.isMaster = true)
    (himage : leAt (ctlBody x.bytes) 0 4 = s.ring.fwImage) :
    ∃ u, exec (.fwResult k) s = .next u ∧ Answered s u k x stOk [] ∧ u.mem = s.mem ∧
      (statusOk (leAt (ctlBody x.bytes) 4 4) = true → bitAt (u.rd .FLT_FW_STATUS_DONE) (msgSrc x.bytes) = true) ∧
      (statusOk (leAt (ctlBody x.bytes) 4 4) = false → bitAt (u.rd .FLT_FW_STATUS_FAILED) (msgSrc x.bytes) = true) := by
  have hlink := (linkOnly_leaveRx s k x).trans (linkOnly_replyTo (s.leaveRx k x) x.bytes stOk [])
  have hans : Answered s ((s.leaveRx k x).replyTo x.bytes stOk []) k x stOk [] :=
    answered_replyTo (.refl _) (linkOnly_leaveRx s k x).pos
  have hexec : exec (.fwResult k) s = .next (((s.leaveRx k x).replyTo x.bytes stOk []).fwResult (leAt (ctlBody x.bytes) 0 4)
      (leAt (ctlBody x.bytes) 4 4) (msgSrc x.bytes)) := congrArg Host.Outcome.next (State.ringctl_of_arrives harr _)
  generalize (s.leaveRx k x).replyTo x.bytes stOk [] = r at hlink hans hexec
  have himage' : r.ring.fwImage = s.ring.fwImage := by rw [hlink.frame]
  have hsrc : msgSrc x.bytes < 16 := by
    have := leAt_byte_lt x.bytes 1
    unfold msgSrc
    omega
  generalize msgSrc x.bytes = src at hsrc hexec
  have hnoted : r.fwResult (leAt (ctlBody x.bytes) 0 4) (leAt (ctlBody x.bytes) 4 4) src =
      if statusOk (leAt (ctlBody x.bytes) 4 4) then r.wr .FLT_FW_STATUS_DONE (setBit (r.rd .FLT_FW_STATUS_DONE) src)
      else r.wr .FLT_FW_STATUS_FAILED (setBit (r.rd .FLT_FW_STATUS_FAILED) src) := by
    unfold State.fwResult
    rw [hlink.isMaster, hmaster, himage, himage']
    simp
  rw [hnoted] at hexec
  cases hok : statusOk (leAt (ctlBody x.bytes) 4 4) with
  | true =>
    rw [hok, if_pos rfl] at hexec
    exact ⟨_, hexec, answered_grows hans (linkGrows_of_ports rfl), hlink.mem,
      fun _ => (bitAt_rd_wr_same r _ hsrc).trans (kindBit_setBit _ (k := src + 1)), fun h => absurd h (by decide)⟩
  | false =>
    rw [hok, if_neg Bool.false_ne_true] at hexec
    exact ⟨_, hexec, answered_grows hans (linkGrows_of_ports rfl), hlink.mem, fun h => absurd h (by decide),
      fun _ => (bitAt_rd_wr_same r _ hsrc).trans (kindBit_setBit _ (k := src + 1))⟩

theorem ringRequestsAreCarriedOut : RingRequestsAreCarriedOut := by
  intro s k x m b total data got next
  exact ⟨pieceIsKept s k x, deltaIsChecked s k x, fun bs => failedCommitDrops s k x,
    fun harr hmode hpart hstops hvats hpasses _ _ hqueues hfuncs hspan =>
      teardownIsAnswered s k x harr hmode hpart hstops hvats hpasses hqueues hfuncs hspan,
    rootIsTaken s k x, invalidationStarts s k x, columnStarts s k x, lastColumnEndsItsCommand s k x, imageResultIsNoted s k x⟩

/-- Settles O53: what each message of ring control makes of a chip, membership first, the requests after it. -/
theorem ringControlActs : Obligations.RingControlActs := ⟨ringMembershipIsKept, ringRequestsAreCarriedOut⟩

end

end Sys2Proof.Claims

end

