-- ==== Sys2Proof/Proofs/FramesAside.lean ====
section
/-!
PROOF. Reading memory does not look at the frames of the deadline streams (R318 to R322): every operation on the way of a read
gives the same answer when other frames stand in the monitor, and leaves those frames.
-/

namespace Sys2Proof.Machine

/-- The state with other frames in the deadline monitor. -/
@[simps] def State.withFrames (s : State) (l : List Frame) : State := { s with sched := { s.sched with frames := l } }

section
variable (s : State) (l : List Frame) (k n t a p vc cls fuel pa va : Nat) (m bs : List Byte) (x : Msg) (e : Ev) (who : Asker)
  (own : Owner)

/-! ### Registers, credits and the ring -/

@[simp] theorem State.rd_withFrames (f : Field) (i j : Nat) : (s.withFrames l).rd f i j = s.rd f i j := rfl

@[simp] theorem State.addrOf_withFrames (f : Field) (i j : Nat) : (s.withFrames l).addrOf f i j = s.addrOf f i j := rfl

@[simp] theorem State.pos_withFrames : (s.withFrames l).pos = s.pos := rfl

@[simp] theorem State.wr_withFrames (f : Field) (v i j : Nat) : (s.withFrames l).wr f v i j = (s.wr f v i j).withFrames l := rfl

@[simp] theorem State.count_withFrames (f : Field) (v i j : Nat) :
    (s.withFrames l).count f v i j = (s.count f v i j).withFrames l := rfl

@[simp] theorem State.wrAddr_withFrames (f : Field) (v i j : Nat) :
    (s.withFrames l).wrAddr f v i j = (s.wrAddr f v i j).withFrames l := rfl

@[simp] theorem State.unlimited_withFrames (r : Nat) : (s.withFrames l).unlimited a r = s.unlimited a r := rfl

@[simp] theorem State.admits_withFrames (r : Nat) : (s.withFrames l).admits a r = s.admits a r := rfl

@[simp] theorem State.homed_withFrames : (s.withFrames l).homed p = s.homed p := rfl

@[simp] theorem State.part_withFrames : (s.withFrames l).part p = s.part p := rfl

@[simp] theorem State.spanning_withFrames : (s.withFrames l).spanning p = s.spanning p := rfl

theorem State.withFrames_ite (c : Prop) [Decidable c] (u v : State) :
    (if c then u else v).withFrames l = if c then u.withFrames l else v.withFrames l := apply_ite (fun t : State => t.withFrames l) ..

@[simp] theorem State.charge_withFrames (r units : Nat) : (s.withFrames l).charge a r units = (s.charge a r units).withFrames l := by
  unfold State.charge
  rw [State.unlimited_withFrames, State.withFrames_ite]
  refine if_congr Iff.rfl rfl ?_
  dsimp only
  by_cases h : a = 0x25
  · rw [if_pos h, if_pos h, State.withFrames_ite]
    rfl
  · rw [if_neg h, if_neg h, State.withFrames_ite]
    rfl

@[simp] theorem State.port_withFrames : (s.withFrames l).port k = s.port k := rfl

@[simp] theorem State.setPort_withFrames (f : FPort) : (s.withFrames l).setPort k f = (s.setPort k f).withFrames l := rfl

@[simp] theorem State.sendMsg_withFrames : (s.withFrames l).sendMsg k x = (s.sendMsg k x).withFrames l := by
  unfold State.sendMsg
  dsimp only
  rw [State.withFrames_ite]
  refine if_congr Iff.rfl rfl ?_
  rw [← State.charge_withFrames, State.withFrames_ite]
  rfl

@[simp] theorem State.pump_withFrames : (s.withFrames l).pump k fuel = (s.pump k fuel).withFrames l := by
  induction fuel generalizing s with
  | zero => rfl
  | succ fuel ih =>
    have hsend : (s.withFrames l).canSend = s.canSend := rfl
    have hactive : (s.withFrames l).portActive k = s.portActive k := rfl
    rw [State.pump, State.pump, hactive, State.port_withFrames, hsend]
    split
    · rfl
    · split
      · rfl
      · rw [State.sendMsg_withFrames, ih]

@[simp] theorem State.feltPut_withFrames : (s.withFrames l).feltPut k vc cls m = (s.feltPut k vc cls m).withFrames l := by
  unfold State.feltPut
  extract_lets f y fwd tx s1 f' y' fwd' tx' s1'
  exact State.pump_withFrames s1' l k tx.length

@[simp] theorem State.feltSend_withFrames : (s.withFrames l).feltSend n m = (s.feltSend n m).withFrames l := by
  have hroute : (s.withFrames l).routePort n = s.routePort n := rfl
  unfold State.feltSend State.feltQueue
  simp only [State.withFrames_ite, State.rd_withFrames, State.feltPut_withFrames, hroute]

@[simp] theorem State.feltReq_withFrames (op : Nat) : (s.withFrames l).feltReq n op p bs own va =
    (s.feltReq n op p bs own va).withFrames l := by
  unfold State.feltReq
  rw [State.withFrames_ite, State.rd_withFrames]
  refine if_congr Iff.rfl rfl ?_
  exact State.feltSend_withFrames { s with ring := { s.ring with
    reqs := s.ring.reqs ++ [⟨s.ring.tagNext, 0, some n, p, 0, 0, feltMsg op s.pos n s.ring.tagNext p bs, own, va⟩]
    tagNext := (s.ring.tagNext + 1) % 65536 } } l n _

/-! ### Memory and records -/

@[simp] theorem State.setRaws_withFrames : (s.withFrames l).setRaws pa bs = (s.setRaws pa bs).withFrames l := by
  induction bs generalizing s pa with
  | nil => rfl
  | cons b bs ih =>
    unfold State.setRaws
    exact ih (s.setRaw pa b) _

@[simp] theorem State.writeSector_withFrames : (s.withFrames l).writeSector pa bs = (s.writeSector pa bs).withFrames l := by
  have hregion : (s.withFrames l).regionOf pa = s.regionOf pa := rfl
  have hof (r : Nat) : (s.withFrames l).region r = s.region r := rfl
  unfold State.writeSector
  rw [hregion]
  split
  · exact State.setRaws_withFrames ..
  · simp only [hof, State.withFrames_ite, State.setRaws_withFrames]

@[simp] theorem State.putSector_withFrames : (s.withFrames l).putSector pa bs = (s.putSector pa bs).withFrames l := by
  unfold State.putSector
  simp only [State.withFrames_ite, State.rd_withFrames, State.writeSector_withFrames]
  rfl

@[simp] theorem State.msix_withFrames : (s.withFrames l).msix n = (s.msix n).withFrames l := by
  have hcfg : (s.withFrames l).fnCfg n = s.fnCfg n := rfl
  unfold State.msix
  rw [hcfg, State.withFrames_ite]
  rfl

theorem State.evWrite_withFrames : (s.withFrames l).evWrite t e = (s.evWrite t e).withFrames l := by
  unfold State.evWrite
  extract_lets w size seq flags a rec s1 s2 w' size' seq' flags' a' rec' s1' s2'
  have h1 : s1 = s1'.withFrames l := by
    unfold s1 s1'
    simp only [State.withFrames_ite, State.putSector_withFrames]
    rfl
  have h2 : s2 = s2'.withFrames l := by
    unfold s2 s2'
    rw [h1]
    rfl
  rw [h2, State.withFrames_ite]
  simp only [State.msix_withFrames]
  rfl

theorem State.evOwed_withFrames : (s.withFrames l).evOwed t = (s.evOwed t).withFrames l := by
  have hwritable : (s.withFrames l).evqWritable t = s.evqWritable t := rfl
  unfold State.evOwed
  rw [State.withFrames_owed]
  split
  · rfl
  next o ho =>
    rw [State.withFrames_ite, hwritable, State.rd_withFrames]
    exact if_congr Iff.rfl (State.evWrite_withFrames { s with owed := storeErase s.owed t } ..) rfl

theorem State.evDrop_withFrames : (s.withFrames l).evDrop t e = (s.evDrop t e).withFrames l := by
  unfold State.evDrop
  dsimp only
  rw [State.withFrames_ite]
  rfl

theorem State.evPost_withFrames : (s.withFrames l).evPost t e = (s.evPost t e).withFrames l := by
  have hwritable (s : State) : (s.withFrames l).evqWritable t = s.evqWritable t := rfl
  unfold State.evPost
  simp only [State.withFrames_ite, State.rd_withFrames, State.evOwed_withFrames, hwritable, State.evWrite_withFrames,
    State.evDrop_withFrames]

@[simp] theorem State.raise_withFrames : (s.withFrames l).raise t e = (s.raise t e).withFrames l := by
  unfold State.raise
  simp only [State.withFrames_ite, State.rd_withFrames, State.wr_withFrames, State.evPost_withFrames]

@[simp] theorem State.raisePart_withFrames : (s.withFrames l).raisePart p e = (s.raisePart p e).withFrames l := by
  have htarget : (s.withFrames l).driverTarget p = s.driverTarget p := rfl
  unfold State.raisePart
  rw [State.part_withFrames]
  split
  · simp only [State.withFrames_ite, State.pos_withFrames, State.spanning_withFrames, State.feltReq_withFrames, htarget,
      State.raise_withFrames]
  · exact State.raise_withFrames ..

/-! ### Power domains -/

theorem State.domOn_withFrames : (s.withFrames l).domOn n = (s.domOn n).withFrames l := by
  have hrestore : (s.withFrames l).domRestore n = (s.domRestore n).withFrames l := by
    unfold State.domRestore
    rw [State.withFrames_pwr]
    split <;> rfl
  unfold State.domOn
  rw [hrestore]
  rfl

@[simp] theorem State.wakeNow_withFrames : (s.withFrames l).wakeNow n = (s.wakeNow n).withFrames l := by
  have hstate : (s.withFrames l).domState n = s.domState n := rfl
  have habort : (s.withFrames l).domAbort n = (s.domAbort n).withFrames l := rfl
  unfold State.wakeNow
  simp only [State.withFrames_ite, hstate, habort, State.domOn_withFrames]

end

end Sys2Proof.Machine

end

