-- ==== Sys2Proof/Proofs/FramesAsideReads.lean ====
section
/-!
PROOF. Translation and reads of memory with other frames in the deadline monitor, up to the tiles that a frame has completed
(R320).
-/

namespace Sys2Proof.Machine

/-- A result with other frames in its state. -/
def framesAside {α : Type} (l : List Frame) (r : State × α) : State × α := (r.1.withFrames l, r.2)

section
variable (s : State) (l : List Frame) (k n t a p vc cls fuel pa va : Nat) (m bs : List Byte) (x : Msg) (e : Ev) (who : Asker)
  (own : Owner) (pol : CachePolicy)

theorem framesAside_mk {α : Type} (y : α) : framesAside l (s, y) = (s.withFrames l, y) := rfl

theorem framesAside_ite {α : Type} (c : Prop) [Decidable c] (y z : State × α) :
    framesAside l (if c then y else z) = if c then framesAside l y else framesAside l z := apply_ite (framesAside l) ..

/-! ### L2 and DRAM -/

theorem State.chargeMiss_withFrames : (s.withFrames l).chargeMiss who = (s.chargeMiss who).withFrames l := by
  unfold State.chargeMiss
  split
  · rfl
  · exact State.charge_withFrames ..

theorem State.chargeDram_withFrames : (s.withFrames l).chargeDram who n = (s.chargeDram who n).withFrames l := by
  unfold State.chargeDram
  split
  · rfl
  next a _ =>
    rw [State.withFrames_ite, State.unlimited_withFrames]
    exact if_congr Iff.rfl rfl (State.charge_withFrames s.takeFree.2 ..)

theorem State.useDram_withFrames : (s.withFrames l).useDram who n = (s.useDram who n).withFrames l := by
  unfold State.useDram
  dsimp only
  rw [← State.chargeDram_withFrames, State.withFrames_ite]
  rfl

theorem State.memRecord_withFrames (reason mask : Nat) :
    (s.withFrames l).memRecord who reason pa mask = (s.memRecord who reason pa mask).withFrames l := State.raise_withFrames ..

theorem State.noteBad_withFrames (mask : Nat) : (s.withFrames l).noteBad who pa mask = (s.noteBad who pa mask).withFrames l := by
  unfold State.noteBad
  dsimp only
  rw [← State.memRecord_withFrames, State.withFrames_ite]
  rfl

theorem State.noteCorrected_withFrames : (s.withFrames l).noteCorrected who pa = (s.noteCorrected who pa).withFrames l := by
  unfold State.noteCorrected
  dsimp only
  rw [State.withFrames_ite]
  exact if_congr Iff.rfl (State.memRecord_withFrames (s.count .MEM_ECC_COUNT_CE 1 (ctrlOf pa)) ..) rfl

theorem State.l2ReadSector_withFrames : (s.withFrames l).l2ReadSector who pol pa = framesAside l (s.l2ReadSector who pol pa) := by
  have hhit (u : State) : (u.withFrames l).l2Hit pa = u.l2Hit pa := rfl
  have hread (u : State) : (u.withFrames l).readSector pa = u.readSector pa := rfl
  have hput (u : State) (bs : List Byte) : (u.withFrames l).l2Put pa bs false = (u.l2Put pa bs false).withFrames l := rfl
  unfold State.l2ReadSector State.wakeSlice State.wakeCtrl
  dsimp only
  rw [State.wakeNow_withFrames, hhit]
  generalize s.wakeNow (domL2 (sliceOf pa)) = s
  split
  · rfl
  · rw [State.wakeNow_withFrames, State.chargeMiss_withFrames, State.useDram_withFrames, hread, State.rd_withFrames]
    generalize (State.chargeMiss _ who).useDram who 32 = u
    simp only [State.noteBad_withFrames, State.noteCorrected_withFrames, ← State.withFrames_ite, hput]
    split_ifs <;> rfl

theorem State.l2ReadSectors_withFrames :
    (s.withFrames l).l2ReadSectors who pol n pa = framesAside l (s.l2ReadSectors who pol n pa) := by
  induction n generalizing s pa with
  | zero => rfl
  | succ n ih =>
    rw [State.l2ReadSectors, State.l2ReadSectors, State.l2ReadSector_withFrames]
    generalize s.l2ReadSector who pol pa = y
    obtain ⟨s1, o⟩ := y
    cases o with
    | none => rfl
    | some b =>
      unfold framesAside
      dsimp only
      rw [ih]
      generalize s1.l2ReadSectors who pol n (pa + 32) = y
      obtain ⟨s2, o⟩ := y
      cases o <;> rfl

theorem State.l2Read_withFrames : (s.withFrames l).l2Read who pol pa n = framesAside l (s.l2Read who pol pa n) := by
  rw [State.l2Read, State.l2Read, State.l2ReadSectors_withFrames]
  generalize s.l2ReadSectors who pol (sectorsOf pa n) (pa / 32 * 32) = y
  obtain ⟨s1, o⟩ := y
  cases o <;> rfl

/-! ### Walks -/

theorem State.readEntry_withFrames : (s.withFrames l).readEntry who pa = framesAside l (s.readEntry who pa) := by
  rw [State.readEntry, State.readEntry, State.pos_withFrames, State.l2Read_withFrames, State.withFrames_xlt]
  split
  · generalize s.l2Read who .wb (pa % 2 ^ 44) 8 = y
    obtain ⟨s1, o⟩ := y
    cases o <;> rfl
  · split <;> rfl

theorem State.walkFrom_withFrames (tbl : Nat) : (s.withFrames l).walkFrom who n tbl va = framesAside l (s.walkFrom who n tbl va) := by
  have hcheck (u : State) (m e : Nat) : checkEntry (u.withFrames l) m va e = checkEntry u m va e := rfl
  induction n generalizing s tbl with
  | zero => rfl
  | succ n ih =>
    rw [State.walkFrom, State.walkFrom, State.readEntry_withFrames]
    generalize s.readEntry who (tbl + 8 * (va / 2 ^ (12 + 9 * n) % 512)) = y
    obtain ⟨s1, o⟩ := y
    cases o with
    | inr o => rfl
    | inl e =>
      unfold framesAside
      dsimp only
      rw [hcheck]
      split
      · rfl
      · split_ifs
        · rfl
        · exact ih s1 _

theorem State.walk_withFrames : (s.withFrames l).walk who p va = framesAside l (s.walk who p va) := by
  have hbad (a : Nat) : (s.withFrames l).paBad a = s.paBad a := rfl
  rw [State.walk, State.walk]
  dsimp only
  rw [State.rd_withFrames, State.addrOf_withFrames, hbad]
  split_ifs
  · rfl
  · rfl
  · split
    · rfl
    · exact State.walkFrom_withFrames ..

theorem State.lookup_withFrames : (s.withFrames l).lookup who p va = framesAside l (s.lookup who p va) := by
  rw [State.lookup, State.lookup, State.walk_withFrames, State.withFrames_xlt]
  generalize s.walk who p va = y
  obtain ⟨s1, o⟩ := y
  split_ifs
  · rfl
  · cases storeFind s.xlt.tlb (tlbKey p va) with
    | none => cases o <;> rfl
    | some x =>
      cases o with
      | ok y =>
        rw [framesAside_mk]
        dsimp only
        rw [framesAside_ite]
        rfl
      | _ =>
        rw [framesAside_mk]
        dsimp only
        rw [framesAside_ite]
        rfl

/-! ### Translation -/

theorem State.readAway_withFrames (key addr : Nat) : (s.withFrames l).readAway own p key addr n va =
    (s.readAway own p key addr n va).withFrames l := by
  unfold State.readAway
  rw [State.withFrames_ite]
  refine if_congr Iff.rfl rfl ?_
  exact State.feltSend_withFrames { s with ring := { s.ring with
    reqs := s.ring.reqs ++ [⟨s.ring.tagNext, 0, some (addr / 2 ^ 44 % 16), p, key, n,
      feltMsg 1 s.pos (addr / 2 ^ 44 % 16) s.ring.tagNext p (toLe 8 addr ++ toLe 4 n), own, va⟩]
    tagNext := (s.ring.tagNext + 1) % 65536 } } l _ _

theorem State.readHost_withFrames (addr : Nat) : (s.withFrames l).readHost own p addr n va =
    (s.readHost own p addr n va).withFrames l := by
  unfold State.readHost
  rw [State.withFrames_ite]
  rfl

theorem State.takeEntry_withFrames (chip level rights kind : Nat) : (s.withFrames l).takeEntry chip k p va level rights kind =
    (s.takeEntry chip k p va level rights kind).withFrames l := by
  unfold State.takeEntry
  simp only [State.wr_withFrames, State.wrAddr_withFrames, State.count_withFrames, State.raisePart_withFrames]

/-- The state in which one more access waits for a migration. -/
def State.withMigWait (s : State) (w : MigWait) : State := { s with xlt := { s.xlt with waits := s.xlt.waits ++ [w] } }

theorem State.migFault_withFrames (level rights kind : Nat) : (s.withFrames l).migFault own p va level rights kind =
    (s.migFault own p va level rights kind).withFrames l := by
  have hentry : (s.withFrames l).migEntry p va level = s.migEntry p va level := rfl
  have hfree : (List.range 64).find? (fun e => (s.withFrames l).rd .XLT_MIG_USED e = 0) =
      (List.range 64).find? (fun e => s.rd .XLT_MIG_USED e = 0) := rfl
  unfold State.migFault
  rw [State.withFrames_ite]
  refine if_congr Iff.rfl rfl ?_
  dsimp only [State.takeId]
  rw [State.withFrames_ite]
  refine if_congr Iff.rfl ?_ ?_
  · rw [State.part_withFrames]
    split
    next r _ =>
      exact congrArg (State.withMigWait · ⟨s.nextId, p, va, rights, kind, none, own⟩) (State.feltReq_withFrames (s := s.takeId.2) (va := 0) ..)
    · rfl
  · rw [hentry, hfree]
    split
    · rfl
    · split
      next e _ => exact congrArg (State.withMigWait · ⟨s.nextId, p, va, rights, kind, some e, own⟩) (State.takeEntry_withFrames (s := s.takeId.2) ..)
      · rfl

theorem State.translate_withFrames (rights : Nat) : (s.withFrames l).translate who own p va rights =
    framesAside l (s.translate who own p va rights) := by
  have hadmits : (s.withFrames l).admitsMem who = s.admitsMem who := rfl
  rw [State.translate, State.translate, hadmits, State.lookup_withFrames]
  generalize s.lookup who p va = y
  obtain ⟨s1, o⟩ := y
  split_ifs
  · rfl
  · cases o with
    | ok x =>
      have hbad (a : Nat) : (s1.withFrames l).paBad a = s1.paBad a := rfl
      unfold framesAside
      dsimp only
      rw [hbad]
      split_ifs
      · rfl
      · rfl
      · split <;> rfl
    | migrate level a => exact congrArg (·, _) (State.migFault_withFrames s1 ..)
    | err r d => rfl
    | bad a => rfl
    | remote a =>
      have hreach : (s1.withFrames l).reachable (a / 2 ^ 44 % 16) = s1.reachable (a / 2 ^ 44 % 16) := rfl
      have hwalk : (s1.withFrames l).readWalk own p a va = (s1.readWalk own p a va).withFrames l := State.readAway_withFrames ..
      rw [framesAside_mk]
      dsimp only
      rw [hreach, hwalk, framesAside_ite]
      rfl

theorem State.translatePages_withFrames (rights pg : Nat) : (s.withFrames l).translatePages who own p rights n pg =
    framesAside l (s.translatePages who own p rights n pg) := by
  induction n generalizing s pg with
  | zero => rfl
  | succ n ih =>
    rw [State.translatePages, State.translatePages, State.translate_withFrames]
    generalize s.translate who own p (pg * 4096) rights = y
    obtain ⟨s1, o⟩ := y
    cases o with
    | error f => rfl
    | ok x =>
      unfold framesAside
      dsimp only
      rw [ih]
      generalize s1.translatePages who own p rights n (pg + 1) = y
      obtain ⟨s2, o⟩ := y
      cases o <;> rfl

/-! ### Reads -/

theorem State.takeFetched_withFrames (addr : Nat) : (s.withFrames l).takeFetched own addr n =
    (s.takeFetched own addr n).map fun y => (y.1, y.2.withFrames l) := by
  unfold State.takeFetched
  rw [State.withFrames_xlt]
  split <;> rfl

/-- One line of a page, taken from what has arrived. -/
def takeLine (own : Owner) (acc : State × List Byte) (y : Nat × Nat) : State × List Byte :=
  match acc.1.takeFetched own y.1 y.2 with
  | some (b, s) => (s, acc.2 ++ b)
  | none => acc

/-- One line of a page, asked for where it has not arrived. -/
def askLine (own : Owner) (p va a : Nat) (s : State) (y : Nat × Nat) : State :=
  if (s.takeFetched own y.1 y.2).isSome then s else s.readRemote own p y.1 y.2 (va + (y.1 - a))

theorem takeLine_framesAside (acc : State × List Byte) (y : Nat × Nat) :
    takeLine own (framesAside l acc) y = framesAside l (takeLine own acc y) := by
  obtain ⟨u, bs⟩ := acc
  unfold takeLine
  rw [framesAside_mk, State.takeFetched_withFrames]
  cases u.takeFetched own y.1 y.2 <;> rfl

theorem askLine_withFrames (y : Nat × Nat) : askLine own p va a (s.withFrames l) y = (askLine own p va a s y).withFrames l := by
  have hread : (s.withFrames l).readRemote own p y.1 y.2 (va + (y.1 - a)) =
      (s.readRemote own p y.1 y.2 (va + (y.1 - a))).withFrames l := State.readAway_withFrames ..
  unfold askLine
  rw [State.takeFetched_withFrames, Option.isSome_map, State.withFrames_ite, hread]

theorem State.readPage_withFrames (y : Xlat) : (s.withFrames l).readPage who own p y va n =
    framesAside l (s.readPage who own p y va n) := by
  have hfetched := State.takeFetched_withFrames s l
  have hsends : (s.withFrames l).fnCfg ((s.withFrames l).fnOf p) = s.fnCfg (s.fnOf p) := rfl
  rw [State.readPage, State.readPage]
  dsimp only
  rw [framesAside_ite, framesAside_ite, State.pos_withFrames, hsends]
  refine if_congr Iff.rfl ?loc (if_congr Iff.rfl ?own ?other)
  case loc =>
    rw [hfetched]
    cases s.takeFetched own (hostTag + (y.pfn * 4096 + va % 4096)) n with
    | some f => rfl
    | none =>
      dsimp only [Option.map_none]
      rw [framesAside_ite, State.readHost_withFrames]
      rfl
  case own =>
    rw [State.l2Read_withFrames]
    generalize s.l2Read who (policyOf y.cache) ((y.pfn * 4096 + va % 4096) % 2 ^ 44) n = z
    obtain ⟨s1, o⟩ := z
    cases o <;> rfl
  case other =>
    have hreach (d : Nat) : (s.withFrames l).reachable d = s.reachable d := rfl
    have hall (ls : List (Nat × Nat)) : (ls.all fun y => ((s.withFrames l).takeFetched own y.1 y.2).isSome) =
        ls.all fun y => (s.takeFetched own y.1 y.2).isSome := by
      simp only [State.takeFetched_withFrames, Option.isSome_map]
    rw [framesAside_ite, framesAside_ite, hall, hreach]
    refine if_congr Iff.rfl ?taken (if_congr Iff.rfl ?asked rfl)
    case taken =>
      have hfold := List.foldl_hom (framesAside l) (g₁ := takeLine own) (g₂ := takeLine own)
        (l := linesOf (n / 128 + 2) (y.pfn * 4096 + va % 4096) n) (init := (s, [])) fun acc z => takeLine_framesAside ..
      exact congrArg (fun z : State × List Byte => (z.1, Except.ok z.2)) hfold
    case asked =>
      have hfold := List.foldl_hom (fun u : State => u.withFrames l)
        (g₁ := askLine own p va (y.pfn * 4096 + va % 4096)) (g₂ := askLine own p va (y.pfn * 4096 + va % 4096))
        (l := linesOf (n / 128 + 2) (y.pfn * 4096 + va % 4096) n) (init := s) fun u z => askLine_withFrames ..
      exact congrArg (fun u : State => (u, Except.error Fail.stall)) hfold

theorem State.vReadFrom_withFrames : (s.withFrames l).vReadFrom who own p fuel va n =
    framesAside l (s.vReadFrom who own p fuel va n) := by
  induction fuel generalizing s va n with
  | zero => rfl
  | succ fuel ih =>
    rw [State.vReadFrom, State.vReadFrom, State.translate_withFrames]
    generalize s.translate who own p va rightR = y
    obtain ⟨s1, o⟩ := y
    split_ifs
    · rfl
    · cases o with
      | error f => rfl
      | ok x =>
        unfold framesAside
        dsimp only
        rw [State.readPage_withFrames]
        generalize s1.readPage who own p x va (pageRun va n) = y
        obtain ⟨s2, o⟩ := y
        cases o with
        | error f => rfl
        | ok bs =>
          unfold framesAside
          dsimp only
          rw [ih]
          generalize s2.vReadFrom who own p fuel (va + pageRun va n) (n - pageRun va n) = y
          obtain ⟨s3, o⟩ := y
          cases o <;> rfl

theorem State.vRead_withFrames : (s.withFrames l).vRead who own p va n = framesAside l (s.vRead who own p va n) := by
  have hpages := State.translatePages_withFrames
  have hread := State.vReadFrom_withFrames
  obtain ⟨pages, hp⟩ : ∃ f, @State.translatePages = f := ⟨_, rfl⟩
  obtain ⟨read, hr⟩ : ∃ f, @State.vReadFrom = f := ⟨_, rfl⟩
  rw [hp] at hpages
  rw [hr] at hread
  rw [State.vRead, State.vRead, State.footprint, State.footprint, hp, hr, hpages]
  generalize pages s who own p rightR (pagesOf va n) (va / 4096) = y
  obtain ⟨s1, o⟩ := y
  cases o with
  | error f => rfl
  | ok xs =>
    rw [framesAside_mk]
    dsimp only
    rw [hread]
    generalize read s1 who own p (pagesOf va n) va n = y
    obtain ⟨s2, o⟩ := y
    cases o with
    | error f => cases f <;> rfl
    | ok bs => rfl

/-! ### The tiles of a frame -/

theorem State.vBytes_withFrames : (s.withFrames l).vBytes p va n = s.vBytes p va n := by
  have hread := State.vRead_withFrames
  obtain ⟨read, hr⟩ : ∃ f, @State.vRead = f := ⟨_, rfl⟩
  rw [hr] at hread
  rw [State.vBytes, State.vBytes, hr, hread]
  rfl

theorem State.nodeGrid_withFrames (r : GraphRun) (y : RunNode) : (s.withFrames l).nodeGrid r y = s.nodeGrid r y := by
  have hread := State.vBytes_withFrames s l
  obtain ⟨read, hr⟩ : ∃ f, @State.vBytes = f := ⟨_, rfl⟩
  have hdef : @State.nodeGrid = delta% @State.nodeGrid := rfl
  rw [hr] at hread hdef
  rw [hdef]
  simp only [hread]

theorem State.nodeTiles_withFrames (r : GraphRun) (y : RunNode) : (s.withFrames l).nodeTiles r n y = s.nodeTiles r n y := by
  have hgrid := State.nodeGrid_withFrames s l
  obtain ⟨grid, hg⟩ : ∃ f, @State.nodeGrid = f := ⟨_, rfl⟩
  rw [hg] at hgrid
  rw [State.nodeTiles, State.nodeTiles, hg, hgrid]
  rfl

/-- The tiles that a frame has completed do not depend on the frames that the monitor follows. -/
theorem State.frameTiles_withFrames (r : GraphRun) : (s.withFrames l).frameTiles r = s.frameTiles r := by
  have htiles := State.nodeTiles_withFrames s l
  obtain ⟨tiles, ht⟩ : ∃ f, @State.nodeTiles = f := ⟨_, rfl⟩
  rw [ht] at htiles
  rw [State.frameTiles, State.frameTiles, ht]
  simp only [htiles]

end

end Sys2Proof.Machine

end

