-- ==== Sys2Proof/Proofs/PooledVats.lean ====
section
/-!
PROOF. The pool of vats (R306 to R311), the deadline monitor (R318 to R322) and the stuff boxes' reload (R326).
-/

namespace Sys2Proof.Machine
open Sys2Proof.Claims

section
variable {s t u : State} {n p vat b : Nat}

/-! ### Grants (R306) -/

theorem State.poolStep_of_free (h : ∃ n ∈ s.updateWaiting.pooledVats, s.updateWaiting.poolFree n = true) :
    s.poolStep = s.updateWaiting := if_pos (List.any_eq_true.mpr h)

theorem State.poolStep_of_noWaiting (h : s.updateWaiting.sched.waiting = []) : s.poolStep = s.updateWaiting := by
  unfold State.poolStep
  dsimp only
  rw [if_pos h, ite_self]

/-- Who waits is in need of a vat. -/
theorem State.poolWaits_of_waiting (h : p ∈ s.updateWaiting.sched.waiting) : s.poolWaits p = true := by
  obtain h | h := List.mem_append.mp h
  · exact (List.mem_filter.mp h).2
  · have := (List.mem_filter.mp h).2
    simp only [Bool.and_eq_true] at this
    exact this.1

theorem le_foldl_max {α : Type} (f : α → Nat) (l : List α) (m : Nat) :
    m ≤ l.foldl (fun m x => max m (f x)) m ∧ ∀ x ∈ l, f x ≤ l.foldl (fun m x => max m (f x)) m := by
  induction l generalizing m with
  | nil => exact ⟨le_rfl, by simp⟩
  | cons x l ih =>
    obtain ⟨hm, hl⟩ := ih (max m (f x))
    refine ⟨(Nat.le_max_left ..).trans hm, fun y hy => ?_⟩
    obtain rfl | hy := List.mem_cons.mp hy
    · exact (Nat.le_max_right ..).trans hm
    · exact hl y hy

/-- The partition that is served next has the highest PRIO of all that wait. -/
theorem State.nextWaiting_spec (h : s.nextWaiting = some p) :
    p ∈ s.sched.waiting ∧ ∀ w ∈ s.sched.waiting, s.prio w ≤ s.prio p := by
  have htop := List.find?_some h
  simp only [decide_eq_true_eq] at htop
  exact ⟨List.mem_of_find?_eq_some h, fun w hw => htop ▸ (le_foldl_max s.prio _ 0).2 w hw⟩

/-- The vats of the pool stand in ascending order. -/
theorem State.pooledVats_sorted (s : State) : s.pooledVats.Pairwise (· < ·) := List.pairwise_lt_range.filter _

theorem find?_le_of_sorted {l : List Nat} (hl : l.Pairwise (· < ·)) {f : Nat → Bool} (h : l.find? f = some n) {m : Nat}
    (hm : m ∈ l) (hf : f m = true) : n ≤ m := by
  induction l with
  | nil => simp at hm
  | cons x l ih =>
    rw [List.pairwise_cons] at hl
    rw [List.find?_cons] at h
    cases hx : f x with
    | true =>
      rw [hx] at h
      obtain rfl := Option.some.inj h
      obtain rfl | hm := List.mem_cons.mp hm
      · exact le_rfl
      · exact (hl.1 m hm).le
    | false =>
      rw [hx] at h
      obtain rfl | hm := List.mem_cons.mp hm
      · rw [hx] at hf
        exact absurd hf (by decide)
      · exact ih hl.2 h hm

/-- What a grant gives, and to whom. -/
theorem State.poolGrant_spec (hvat : s.updateWaiting.pooledVats.find? s.updateWaiting.grantable = some n)
    (hnext : s.updateWaiting.nextWaiting = some p) :
    s.poolGrant = s.updateWaiting.setVat n { s.vat n with holder := some p } := by
  have hfree : s.updateWaiting.poolFree n = true := by
    have := List.find?_some hvat
    unfold State.grantable at this
    simp only [Bool.and_eq_true] at this
    exact this.1
  have hstep : s.poolStep = s.updateWaiting := State.poolStep_of_free ⟨n, List.mem_of_find?_eq_some hvat, hfree⟩
  unfold State.poolGrant
  dsimp only
  rw [hstep, hvat, hnext]
  rfl

theorem State.poolGrant_of_noWaiting (h : s.updateWaiting.sched.waiting = []) : s.poolGrant = s.updateWaiting := by
  have hnext : s.updateWaiting.nextWaiting = none := by
    unfold State.nextWaiting
    rw [h]
    rfl
  unfold State.poolGrant
  dsimp only
  rw [State.poolStep_of_noWaiting h, hnext]
  split
  next e => exact absurd e (by simp)
  · rfl

/-! ### Pre-emption (R308, R309) -/

/-- Only vat `n` and the count of full save areas may have changed; the vat's pre-emptions stand. -/
structure Preempted (n : Nat) (s t : State) : Prop where
  vats : VatsOnly s t
  others : ∀ m, m ≠ n → t.vat m = s.vat m
  asks : ∀ p, p ∈ (s.vat n).preempt → p ∈ (t.vat n).preempt
  fields : (∀ e ∈ s.launches, e.2.p < 32) → FieldsKept [.SCH_SAVE_USE_FULL] s t

theorem Preempted.refl (n : Nat) (s : State) : Preempted n s s := ⟨.refl s, fun _ _ => rfl, fun _ h => h, fun _ => .refl ..⟩

theorem Preempted.trans (h : Preempted n s t) (i : Preempted n t u) : Preempted n s u :=
  ⟨h.vats.trans i.vats, fun m hm => (i.others m hm).trans (h.others m hm), fun p hp => i.asks p (h.asks p hp),
    fun hl => (h.fields hl).trans (i.fields (by rw [h.vats.launches]; exact hl))⟩

theorem storeFind_mem {α : Type} {l : List (Nat × α)} {k : Nat} {x : α} (h : storeFind l k = some x) : (k, x) ∈ l := by
  induction l with
  | nil => simp [storeFind] at h
  | cons e l ih =>
    obtain ⟨k', v⟩ := e
    rw [storeFind] at h
    split_ifs at h with hk
    · cases h
      subst hk
      exact List.mem_cons_self
    · exact List.mem_cons_of_mem _ (ih h)

theorem preempted_setVat {v : Vat} (h : ∀ p, p ∈ (s.vat n).preempt → p ∈ v.preempt) : Preempted n s (s.setVat n v) where
  vats := ⟨rfl, rfl, rfl, rfl, rfl⟩
  others m hm := State.vat_setVat_ne s v hm
  asks p hp := by
    rw [State.vat_setVat_same]
    exact h p hp
  fields _ := fieldsKept_of_regs rfl

theorem preempted_trySave (s : State) (n b : Nat) : Preempted n s (s.trySave n b) := by
  obtain ⟨slot, hdef⟩ : ∃ f, @State.saveSlot = f := ⟨_, rfl⟩
  conv in State.trySave => delta State.trySave
  rw [hdef]
  extract_lets v v1
  split
  · exact .refl n s
  · split
    · exact .refl n s
    next l hl =>
      split_ifs
      · split
        · exact preempted_setVat fun _ h => h
        · have hset : Preempted n s (s.setVat n v1) := preempted_setVat fun _ h => h
          refine hset.trans ⟨⟨rfl, rfl, rfl, rfl, rfl⟩, fun _ _ => rfl, fun _ h => h, fun hp => ?_⟩
          have hlt : l.p < 65536 := (hp _ (storeFind_mem hl)).trans (by decide)
          exact (FieldsKept.refl ..).count (by decide) hlt (by decide)
      · exact .refl n s

/-- A pre-emption asks the vat's blocks of the partition to leave. -/
theorem preempted_preempt (s : State) (n p : Nat) : Preempted n s (s.preempt n p) ∧
    (s.hasBlock n p = true → p ∈ ((s.preempt n p).vat n).preempt) := by
  unfold State.preempt
  extract_lets v mine v1
  have hset : Preempted n s (s.setVat n v1) := preempted_setVat fun x hx => by
    simp only [v1]
    split_ifs
    · exact hx
    · exact List.mem_append_left _ hx
  have hfold : ∀ (l : List Nat) (s : State), Preempted n s (l.foldl (fun (s : State) b => s.trySave n b) s) := fun l s =>
    List.foldlRecOn (motive := Preempted n s) l _ (.refl n s) fun t ht b _ => ht.trans (preempted_trySave t n b)
  refine ⟨hset.trans (hfold ..), fun hblock => (hfold ..).asks p ?_⟩
  rw [State.vat_setVat_same]
  simp only [v1]
  split_ifs with h
  · simpa [hblock] using h
  · exact List.mem_append_right _ (List.mem_singleton_self p)

/-- The pre-emption of partition `p` on the vats of a list. -/
theorem State.preemptAll_spec (p : Nat) (l : List Nat) (s : State) :
    let u := l.foldl (fun (s : State) n => s.preempt n p) s
    VatsOnly s u ∧ (∀ n, n ∉ l → u.vat n = s.vat n) ∧ (∀ n x, x ∈ (s.vat n).preempt → x ∈ (u.vat n).preempt) ∧
      (∀ n ∈ l, s.hasBlock n p = true → p ∈ (u.vat n).preempt) ∧
      ((∀ e ∈ s.launches, e.2.p < 32) → FieldsKept [.SCH_SAVE_USE_FULL] s u) := by
  induction l generalizing s with
  | nil => exact ⟨.refl s, fun _ _ => rfl, fun _ _ h => h, by simp, fun _ => .refl ..⟩
  | cons m l ih =>
    obtain ⟨h, hask⟩ := preempted_preempt s m p
    obtain ⟨hvats, hothers, hasks, hall, hfields⟩ := ih (s.preempt m p)
    have hkeep (n x : Nat) (hx : x ∈ (s.vat n).preempt) : x ∈ ((s.preempt m p).vat n).preempt := by
      by_cases e : n = m
      · subst e
        exact h.asks x hx
      · rwa [h.others n e]
    refine ⟨h.vats.trans hvats, fun n hn => ?_, fun n x hx => hasks n x (hkeep n x hx), fun n hn hblock => ?_,
      fun hp => (h.fields hp).trans (hfields (by rw [h.vats.launches]; exact hp))⟩
    · rw [List.mem_cons, not_or] at hn
      exact (hothers n hn.2).trans (h.others n hn.1)
    · by_cases e : n = m
      · subst e
        exact hasks n p (hask hblock)
      · refine hall n ((List.mem_cons.mp hn).resolve_left e) ?_
        unfold State.hasBlock State.hasTile State.launch at *
        rwa [h.vats.geo, h.vats.launches, h.others n e]

/-! ### The end of a save (R309 to R311) -/

/-- Block `b` has left the vat: neither the block nor a quire of it stands there. -/
def Gone (b : Nat) (v : Vat) : Prop := storeFind v.blocks b = none ∧ ∀ slot q, storeFind v.quires slot = some q → q.block ≠ b

/-- A step that changes vats and counters keeps blocks away that have left, and the list of saved blocks. -/
structure StaysGone (vat b : Nat) (s t : State) : Prop where
  gone : Gone b (s.vat vat) → Gone b (t.vat vat)
  mem : t.mem = s.mem
  saved : t.sched.saved = s.sched.saved

theorem StaysGone.refl (vat b : Nat) (s : State) : StaysGone vat b s s := ⟨id, rfl, rfl⟩

theorem StaysGone.trans (h : StaysGone vat b s t) (i : StaysGone vat b t u) : StaysGone vat b s u :=
  ⟨fun g => i.gone (h.gone g), i.mem.trans h.mem, i.saved.trans h.saved⟩

theorem StaysGone.foldl {α : Type} {f : State → α → State} (hf : ∀ s x, StaysGone vat b s (f s x)) (xs : List α) (s : State) :
    StaysGone vat b s (xs.foldl f s) :=
  List.foldlRecOn (motive := StaysGone vat b s) xs f (.refl vat b s) fun t ht x _ => ht.trans (hf t x)

theorem staysGone_of_vats (hv : t.vats = s.vats) (hm : t.mem = s.mem) (hs : t.sched.saved = s.sched.saved) : StaysGone vat b s t :=
  ⟨fun g => by rwa [State.vat_congr hv], hm, hs⟩

theorem staysGone_wr (f : Field) (v i j : Nat) : StaysGone vat b s (s.wr f v i j) := staysGone_of_vats rfl rfl rfl

/-- A vat whose blocks and quires are the same, or fewer. -/
theorem staysGone_setVat {m : Nat} {v : Vat} (h : Gone b (s.vat m) → Gone b v) : StaysGone vat b s (s.setVat m v) := by
  refine ⟨fun g => ?_, rfl, rfl⟩
  by_cases e : vat = m
  · subst e
    rw [State.vat_setVat_same]
    exact h g
  · rwa [State.vat_setVat_ne _ _ e]

theorem storeFind_map_val {α : Type} (c : Nat × α → Prop) [DecidablePred c] (f : Nat → α → α) (l : List (Nat × α)) (k : Nat) :
    storeFind (l.map (fun e => if c e then (e.1, f e.1 e.2) else e)) k =
      (storeFind l k).map (fun x => if c (k, x) then f k x else x) := by
  induction l with
  | nil => rfl
  | cons e l ih =>
    obtain ⟨k', v⟩ := e
    by_cases hk : k = k'
    · subst hk
      by_cases hc : c (k, v) <;> simp [storeFind, hc]
    · by_cases hc : c (k', v) <;> simp [storeFind, hc, hk, ih]

theorem gone_mapQuires {v : Vat} (g : Gone b v) (k : Nat) {f : Nat → Quire → Quire} (hf : ∀ n q, (f n q).block = q.block) :
    Gone b (v.mapQuires k f) := by
  refine ⟨g.1, fun slot q hq => ?_⟩
  unfold Vat.mapQuires at hq
  dsimp only at hq
  rw [storeFind_map_val] at hq
  obtain ⟨q', hq', rfl⟩ := Option.map_eq_some_iff.mp hq
  split_ifs
  · rw [hf]
    exact g.2 slot q' hq'
  · exact g.2 slot q' hq'

theorem staysGone_trySave (s : State) (m k : Nat) : StaysGone vat b s (s.trySave m k) := by
  obtain ⟨slot, hdef⟩ : ∃ f, @State.saveSlot = f := ⟨_, rfl⟩
  conv in State.trySave => delta State.trySave
  rw [hdef]
  extract_lets v v1
  split
  · exact .refl vat b s
  next blk hblk =>
    split
    · exact .refl vat b s
    · split_ifs
      · split
        · refine staysGone_setVat fun g => ⟨?_, g.2⟩
          have hne : b ≠ k := fun e => by
            rw [← e] at hblk
            exact absurd (hblk.symm.trans g.1) (by simp)
          exact (storeFind_put ..).trans ((if_neg hne).trans g.1)
        · refine (staysGone_setVat (v := v1) fun g => gone_mapQuires g k fun n q => ?_).trans (staysGone_of_vats rfl rfl rfl)
          split_ifs <;> rfl
      · exact .refl vat b s

theorem staysGone_preempt (s : State) (m p : Nat) : StaysGone vat b s (s.preempt m p) := by
  unfold State.preempt
  extract_lets v mine v1
  have hset : StaysGone vat b s (s.setVat m v1) := staysGone_setVat id
  exact hset.trans (.foldl (fun s k => staysGone_trySave s m k) _ _)

theorem staysGone_poolStep (s : State) : StaysGone vat b s s.poolStep := by
  have hwaiting : StaysGone vat b s s.updateWaiting := staysGone_of_vats rfl rfl rfl
  unfold State.poolStep
  dsimp only
  split_ifs
  · exact hwaiting
  · exact hwaiting
  · refine hwaiting.trans (.foldl (fun s n => ?_) _ _)
    split
    · split_ifs
      · exact staysGone_preempt ..
      · exact .refl ..
    · exact .refl ..

/-- A change of a vat's other parts. -/
theorem storeGet_map_val {l : List (Nat × Vat)} {f : Nat × Vat → Nat × Vat} (hkey : ∀ e, (f e).1 = e.1)
    (hkept : ∀ e, (f e).2.blocks = e.2.blocks ∧ (f e).2.quires = e.2.quires) (n : Nat) :
    (storeGet ({} : Vat) (l.map f) n).blocks = (storeGet ({} : Vat) l n).blocks ∧
      (storeGet ({} : Vat) (l.map f) n).quires = (storeGet ({} : Vat) l n).quires := by
  induction l with
  | nil => exact ⟨rfl, rfl⟩
  | cons e l ih =>
    obtain ⟨k', v⟩ := e
    have hk := hkey (k', v)
    have hv := hkept (k', v)
    rw [List.map_cons, show f (k', v) = ((f (k', v)).1, (f (k', v)).2) from rfl, storeGet, storeGet, hk]
    split_ifs
    · exact hv
    · exact ih

theorem staysGone_mapVats {f : Nat × Vat → Nat × Vat} (hv : t.vats = s.vats.map f) (hkey : ∀ e, (f e).1 = e.1)
    (hkept : ∀ e, (f e).2.blocks = e.2.blocks ∧ (f e).2.quires = e.2.quires) (hm : t.mem = s.mem)
    (hs : t.sched.saved = s.sched.saved) : StaysGone vat b s t := by
  refine ⟨fun g => ?_, hm, hs⟩
  obtain ⟨hblocks, hquires⟩ := storeGet_map_val (l := s.vats) hkey hkept vat
  unfold Gone State.vat at *
  rw [hv, hblocks, hquires]
  exact g

theorem staysGone_returnLent (s : State) : StaysGone vat b s s.returnLent := by
  unfold State.returnLent
  split_ifs
  · unfold State.lendChosen
    dsimp only
    refine List.foldlRecOn (motive := StaysGone vat b s) _ _ (staysGone_of_vats rfl rfl rfl) fun t ht n _ => ht.trans ?_
    exact staysGone_setVat id
  · refine staysGone_mapVats rfl (fun e => ?_) (fun e => ?_) rfl rfl <;> split_ifs
    · rfl
    · rfl
    · exact ⟨rfl, rfl⟩
    · exact ⟨rfl, rfl⟩

theorem staysGone_leave (s : State) (m launch : Nat) :
    StaysGone vat b s ((((s.detachTile m launch).settlePreempt m).freeVat m).poolStep) := by
  have hdetach : StaysGone vat b s (s.detachTile m launch) := by
    unfold State.detachTile
    split
    · split_ifs
      · exact staysGone_of_vats rfl rfl rfl
      · exact .refl ..
    · exact .refl ..
  have hsettle (s : State) : StaysGone vat b s (s.settlePreempt m) := by
    have hdrop : StaysGone vat b s (s.dropPreempt m) := staysGone_setVat id
    refine hdrop.trans (.foldl (fun s p => ?_) _ _)
    exact staysGone_of_vats rfl rfl rfl
  have hfree (s : State) : StaysGone vat b s (s.freeVat m) := by
    unfold State.freeVat
    split_ifs
    · have hset : StaysGone vat b s (s.setVat m { s.vat m with holder := none }) := staysGone_setVat id
      exact hset.trans (staysGone_returnLent _)
    · exact .refl ..
  exact ((hdetach.trans (hsettle _)).trans (hfree _)).trans (staysGone_poolStep _)

theorem gone_removeBlock (v : Vat) (b : Nat) : Gone b (v.removeBlock b) := by
  refine ⟨by simp [Vat.removeBlock, storeFind_erase], fun slot q hq => ?_⟩
  have := (List.mem_filter.mp (storeFind_mem hq)).2
  simpa using this

/-- What a block leaves behind whose save is written: nothing on the vat, and its place at the end of the saved blocks. -/
theorem State.leaveVat_spec (s : State) (vat b : Nat) (x : Saved) (qs : List (Nat × Quire)) :
    Gone b ((s.leaveVat vat b x qs).vat vat) ∧ (s.leaveVat vat b x qs).mem = s.mem ∧
      (s.leaveVat vat b x qs).sched.saved = s.sched.saved ++ [x] := by
  unfold State.leaveVat
  extract_lets s1 s2 sched s3
  have hmoved : StaysGone vat b s s1 := by
    refine .foldl (fun s e => ?_) qs s
    exact staysGone_of_vats rfl rfl rfl
  have hmarked : StaysGone vat b s1 s2 := by
    refine .foldl (fun s k => ?_) x.locks s1
    exact staysGone_wr ..
  have hmarked := hmoved.trans hmarked
  let v := if s3.anyTile vat then { (s3.vat vat).removeBlock b with holder := (s3.vat vat).holder } else (s3.vat vat).removeBlock b
  let s4 := (s3.dropLaneWaits vat (((s3.vat vat).quires.filter (fun e => e.2.block = b)).map (·.1))).setVat vat v
  have hremoved : s3.removeBlock vat b = s4.returnLent := rfl
  have hgone : Gone b (s4.vat vat) := by
    have hv : v.blocks = ((s3.vat vat).removeBlock b).blocks ∧ v.quires = ((s3.vat vat).removeBlock b).quires := by
      simp only [v]
      split_ifs <;> exact ⟨rfl, rfl⟩
    have hg := gone_removeBlock (s3.vat vat) b
    rw [show s4.vat vat = v from State.vat_setVat_same ..]
    unfold Gone at *
    rw [hv.1, hv.2]
    exact hg
  have hleft := (staysGone_returnLent (vat := vat) (b := b) s4).trans (staysGone_leave s4.returnLent vat x.block.launch)
  rw [hremoved]
  refine ⟨hleft.gone hgone, hleft.mem.trans hmarked.mem, hleft.saved.trans ?_⟩
  exact congrArg (· ++ [x]) hmarked.saved

theorem State.saveDone_of_written {blk : Block} {l : Launch} {a : Nat} {s1 : State} (hblk : s.block vat b = some blk)
    (hsaving : blk.saving = some a) (hl : s.launch blk.launch = some l)
    (hwrite : s.takeFree.2.vWrite (saveAsker vat l.p) (.launch blk.launch) l.p a
      ((List.range l.saveSize).map (Config.internalByte s.free)) = (s1, .ok ())) :
    s.saveDone vat b = s1.leaveVat vat b (s1.savedOf vat { blk with saving := none } l a ((s.vat vat).ordered b))
      ((s.vat vat).ordered b) := by
  obtain ⟨write, hdef⟩ : ∃ f, @State.vWrite = f := ⟨_, rfl⟩
  rw [hdef] at hwrite
  conv in State.saveDone => delta State.saveDone
  rw [hdef]
  split
  next e => exact absurd (e.symm.trans hblk) (by simp)
  next e =>
    cases e.symm.trans hblk
    split
    next e1 e2 =>
      cases e1.symm.trans hsaving
      cases e2.symm.trans hl
      extract_lets qs
      split
      next e3 =>
        obtain ⟨rfl, rfl⟩ := Prod.mk.inj e3
        split
        next e4 => exact absurd (e4.symm.trans hwrite) (by simp)
        next e4 =>
          cases e4.symm.trans hwrite
          rfl
    next hno => exact absurd hl (hno a l hsaving)

end

end Sys2Proof.Machine

namespace Sys2Proof.Claims
open Sys2Proof Sys2Proof.Machine

theorem pooledVatsAreSharedOut : PooledVatsAreSharedOut := by
  intro s hlive
  refine ⟨fun n p hvat hnext => ?grant, fun hnone => ?idle, fun p hslice hlaunches hwaits => ?slice, fun p hslice => ?off,
    fun vat b blk l a s1 hblk hsaving hl hwrite => ?saved⟩
  case grant =>
    obtain ⟨hmem, htop⟩ := State.nextWaiting_spec hnext
    refine ⟨_, congrArg Host.Outcome.next ((if_pos hlive).trans (State.poolGrant_spec hvat hnext)), State.vat_setVat_same ..,
      fun m hm => State.vat_setVat_ne _ _ hm, fun m hm hg => find?_le_of_sorted s.pooledVats_sorted hvat hm hg,
      State.poolWaits_of_waiting hmem, htop, rfl⟩
  case idle => exact congrArg Host.Outcome.next ((if_pos hlive).trans (State.poolGrant_of_noWaiting hnone))
  case slice =>
    obtain ⟨w, hw, hne, hprio⟩ := hwaits
    let u := (s.heldVats p).foldl (fun (s : State) n => s.preempt n p) s.updateWaiting
    have hexec : exec (.sliceExpiry p) s = .next u := by
      refine congrArg Host.Outcome.next ((if_pos hlive).trans (if_pos ?_))
      simp only [Bool.and_eq_true, List.any_eq_true, decide_eq_true_eq]
      have hunits : s.updateWaiting.rd .SCH_POOL_SLICE_UNITS ≠ 0 := hslice
      exact ⟨by simpa using hunits, w, hw, hne, hprio⟩
    obtain ⟨hvats, hothers, -, hall, hfields⟩ := State.preemptAll_spec p (s.heldVats p) s.updateWaiting
    refine ⟨u, hexec, fun n hn hblock => ?_, fun n hn => hothers n hn, hvats.mem, hvats.hb, hvats.launches,
      fun f i j hf hi hj => (hfields hlaunches).rd f (by simpa using hf) i hi j hj⟩
    exact List.contains_iff_mem.mpr (hall n hn hblock)
  case off =>
    refine congrArg Host.Outcome.next ((if_pos hlive).trans (if_neg ?_))
    have : s.updateWaiting.rd .SCH_POOL_SLICE_UNITS = 0 := hslice
    simp [this]
  case saved =>
    obtain ⟨hgone, hmem, hsaved⟩ := s1.leaveVat_spec vat b (s1.savedOf vat { blk with saving := none } l a ((s.vat vat).ordered b))
      ((s.vat vat).ordered b)
    refine ⟨_, congrArg Host.Outcome.next ((if_pos hlive).trans (State.saveDone_of_written hblk hsaving hl hwrite)), hgone.1,
      fun slot q hq => hgone.2 slot q hq, hmem, hsaved⟩

end Sys2Proof.Claims
end

