-- ==== Sys2Proof/Proofs/StreamsAndBudgets.lean ====
section
/-!
PROOF. The deadline monitor (R318 to R322) and the stuff boxes' reload (R326, R327), and O45.
-/

namespace Sys2Proof.Machine
open Sys2Proof.Claims

section
variable {s t u : State} {a r n : Nat}

/-! ### The reload of the stuff boxes -/

/-- What a credit becomes at the start of a period. -/
def State.reloaded (s : State) (a r : Nat) : Nat :=
  if s.rd (budgetFields r).2 a = 0xFFFFFFFF then s.rd (budgetFields r).1 a
  else min 0xFFFFFFFE (s.rd (budgetFields r).2 a + min (s.rd (budgetFields r).1 a) (s.rd (budgetFields r).2 a))

theorem credit_ne_limit (r r' : Nat) : (budgetFields r').2 ≠ (budgetFields r).1 := by
  unfold budgetFields
  split_ifs <;> decide

theorem credit_inj {r r' : Nat} (hr : r < 4) (hr' : r' < 4) (h : r' ≠ r) : (budgetFields r').1 ≠ (budgetFields r).1 := by
  have h1 : r = 0 ∨ r = 1 ∨ r = 2 ∨ r = 3 := by omega
  have h2 : r' = 0 ∨ r' = 1 ∨ r' = 2 ∨ r' = 3 := by omega
  obtain rfl | rfl | rfl | rfl := h1 <;> obtain rfl | rfl | rfl | rfl := h2 <;> simp_all [budgetFields]

theorem credit_width (r : Nat) : (budgetFields r).1.width = 32 := by
  unfold budgetFields
  split_ifs <;> rfl

/-- One credit reloads, and nothing else. -/
structure Reloaded (a r : Nat) (s t : State) : Prop where
  credit : t.rd (budgetFields r).1 a = s.reloaded a r
  kept : RegsKept s t [((budgetFields r).1, a, 0)]
  frame : t = { s with regs := t.regs }

theorem reloaded_reload (s : State) (ha : a < 65536) (r : Nat) : Reloaded a r s (s.reload a r) := by
  have hunfold : s.reload a r = if s.rd (budgetFields r).2 a = 0xFFFFFFFF then s
      else s.wr (budgetFields r).1 (min 0xFFFFFFFE (s.rd (budgetFields r).2 a + min (s.rd (budgetFields r).1 a)
        (s.rd (budgetFields r).2 a))) a := by
    unfold State.reload State.unlimited
    simp only [decide_eq_true_eq]
  rw [hunfold]
  by_cases h : s.rd (budgetFields r).2 a = 0xFFFFFFFF
  · rw [if_pos h]
    exact ⟨(if_pos h).symm, RegsKept.refl _ _, rfl⟩
  · rw [if_neg h]
    refine ⟨?_, (regsKept_wr (List.mem_singleton_self _) ha (by decide)).mpr (RegsKept.refl _ _), rfl⟩
    rw [State.rd_wr_same, credit_width, State.reloaded, if_neg h]
    exact Nat.mod_eq_of_lt (by omega)

/-- A reload of one credit does not change what another becomes. -/
theorem Reloaded.reloaded_ne (h : Reloaded a r s t) {a' r' : Nat} (ha : a' < 65536) (hne : a' ≠ a ∨ (r < 4 ∧ r' < 4 ∧ r' ≠ r)) :
    t.reloaded a' r' = s.reloaded a' r' ∧ t.rd (budgetFields r').1 a' = s.rd (budgetFields r').1 a' := by
  have hlimit : t.rd (budgetFields r').2 a' = s.rd (budgetFields r').2 a' :=
    h.kept _ _ _ ha (by decide) (by simp [credit_ne_limit])
  have hcredit : t.rd (budgetFields r').1 a' = s.rd (budgetFields r').1 a' := by
    refine h.kept _ _ _ ha (by decide) ?_
    rw [List.mem_singleton, Prod.mk.injEq, Prod.mk.injEq]
    rintro ⟨hf, rfl, -⟩
    obtain hne | ⟨hr, hr', hne⟩ := hne
    · exact hne rfl
    · exact credit_inj hr hr' hne hf
  unfold State.reloaded
  rw [hlimit, hcredit]
  exact ⟨rfl, rfl⟩

/-- The credits of a list reload, each from its own value, and nothing else. -/
theorem reload_list (l : List (Nat × Nat)) (hl : l.Nodup) (hlt : ∀ x ∈ l, x.1 < 65536 ∧ x.2 < 4) (s : State) :
    let t := l.foldl (fun (s : State) x => s.reload x.1 x.2) s
    (∀ x ∈ l, t.rd (budgetFields x.2).1 x.1 = s.reloaded x.1 x.2) ∧
      RegsKept s t (l.map fun x => ((budgetFields x.2).1, x.1, 0)) ∧ t = { s with regs := t.regs } := by
  induction l generalizing s with
  | nil => exact ⟨by simp, RegsKept.refl _ _, rfl⟩
  | cons y l ih =>
    obtain ⟨hnot, hl⟩ := List.nodup_cons.mp hl
    obtain ⟨ha, hr⟩ := hlt y List.mem_cons_self
    have h := reloaded_reload s ha y.2
    obtain ⟨hall, hkept, hframe⟩ := ih hl (fun x hx => hlt x (List.mem_cons_of_mem _ hx)) (s.reload y.1 y.2)
    have hne {x : Nat × Nat} (hx : x ∈ l) : x.1 ≠ y.1 ∨ (y.2 < 4 ∧ x.2 < 4 ∧ x.2 ≠ y.2) := by
      by_contra hcon
      rw [not_or, not_not, not_and, not_and, not_not] at hcon
      exact hnot (Prod.ext hcon.1 (hcon.2 hr (hlt x (List.mem_cons_of_mem _ hx)).2) ▸ hx)
    rw [List.foldl_cons]
    refine ⟨fun x hx => ?_, ?_, ?_⟩
    · obtain rfl | hx := List.mem_cons.mp hx
      · refine (hkept _ _ _ ha (by decide) fun hmem => ?_).trans h.credit
        obtain ⟨z, hz, he⟩ := List.mem_map.mp hmem
        simp only [Prod.mk.injEq, and_true] at he
        obtain hne | ⟨-, hz4, hne⟩ := hne hz
        · exact hne he.2
        · exact credit_inj hr hz4 hne he.1
      · exact (hall x hx).trans (h.reloaded_ne (hlt x (List.mem_cons_of_mem _ hx)).1 (hne hx)).1
    · exact (h.kept.mono (by simp)).trans (hkept.mono (by simp))
    · rw [hframe, h.frame]

/-- The credits of every activity. -/
def allCredits : List (Nat × Nat) := (List.range 40).flatMap fun a => [(a, 0), (a, 1), (a, 2), (a, 3)]

theorem mem_allCredits {x : Nat × Nat} : x ∈ allCredits ↔ x.1 < 40 ∧ x.2 < 4 := by
  obtain ⟨a, r⟩ := x
  simp only [allCredits, List.mem_flatMap, List.mem_range, List.mem_cons, Prod.mk.injEq, List.not_mem_nil, or_false]
  constructor
  · rintro ⟨b, hb, h⟩
    omega
  · rintro ⟨ha, hr⟩
    exact ⟨a, ha, by omega⟩

/-- The reload of every credit. -/
theorem State.reloadAll_spec (s : State) :
    let t := (List.range 40).foldl (fun (s : State) a => (((s.reload a 0).reload a 1).reload a 2).reload a 3) s
    (∀ a < 40, ∀ r < 4, t.rd (budgetFields r).1 a = s.reloaded a r) ∧
      (∀ (f : Field) (i j : Nat), (∀ r < 4, f ≠ (budgetFields r).1) → i < 65536 → j < 65536 → t.rd f i j = s.rd f i j) ∧
      t = { s with regs := t.regs } := by
  have hfold : (List.range 40).foldl (fun (s : State) a => (((s.reload a 0).reload a 1).reload a 2).reload a 3) s =
      allCredits.foldl (fun (s : State) x => s.reload x.1 x.2) s := by
    unfold allCredits
    rw [List.foldl_flatMap]
    rfl
  have hlist := reload_list allCredits (by decide +kernel) (fun x hx => ⟨by have := (mem_allCredits.mp hx).1; omega,
    (mem_allCredits.mp hx).2⟩) s
  rw [hfold]
  obtain ⟨hall, hkept, hframe⟩ := hlist
  refine ⟨fun a ha r hr => hall (a, r) (mem_allCredits.mpr ⟨ha, hr⟩), fun f i j hf hi hj => hkept f i j hi hj fun hmem => ?_, hframe⟩
  obtain ⟨x, hx, he⟩ := List.mem_map.mp hmem
  exact hf x.2 (mem_allCredits.mp hx).2 (congrArg Prod.fst he).symm

theorem State.geoStep_of_none (h : s.geo.passes = []) (p : Nat) : s.geoStep p = s := by
  unfold State.geoStep
  rw [h]
  rfl

/-- Without messages the ports pass nothing on. -/
theorem State.flush_of_empty (h : ∀ k < 2, (s.port k).rx = [] ∧ (s.port k).tx = []) : s.forwardAll.pumpAll = s := by
  have hforward : s.forwardAll = s := by
    unfold State.forwardAll
    dsimp only
    rw [(h 0 (by decide)).1]
    change s.forward 1 (s.port 1).rx.length = s
    rw [(h 1 (by decide)).1]
    rfl
  rw [hforward]
  unfold State.pumpAll
  dsimp only
  rw [(h 0 (by decide)).2]
  change s.pump 1 (s.port 1).tx.length = s
  rw [(h 1 (by decide)).2]
  rfl

/-- What follows the reload when nothing is held. -/
def State.periodEnd (s : State) : State :=
  ((List.range 32).foldl (fun (s : State) p => s.geoStep p) { s with sched := { s.sched with taken := [] } }).forwardAll.pumpAll

theorem State.periodEnd_of_idle (hgeo : s.geo.passes = []) (hports : ∀ k < 2, (s.port k).rx = [] ∧ (s.port k).tx = []) :
    s.periodEnd = { s with sched := { s.sched with taken := [] } } := by
  let t : State := { s with sched := { s.sched with taken := [] } }
  have hgeos : (List.range 32).foldl (fun (s : State) p => s.geoStep p) t = t :=
    List.foldlRecOn (motive := fun u => u = t) _ _ rfl fun u hu p _ => hu ▸ State.geoStep_of_none (s := t) hgeo p
  unfold State.periodEnd
  rw [hgeos]
  exact State.flush_of_empty (s := t) hports

/-- A period in which nothing is held. -/
theorem State.stuffPeriod_of_idle (hgeo : s.geo.passes = []) (hports : ∀ k < 2, (s.port k).rx = [] ∧ (s.port k).tx = []) :
    ∃ t : State, s.stuffPeriod = { t with sched := { t.sched with taken := [] } } ∧
      (∀ a < 40, ∀ r < 4, t.rd (budgetFields r).1 a = s.reloaded a r) ∧
      (∀ (f : Field) (i j : Nat), (∀ r < 4, f ≠ (budgetFields r).1) → i < 65536 → j < 65536 → t.rd f i j = s.rd f i j) ∧
      t = { s with regs := t.regs } := by
  have hperiod : s.stuffPeriod = State.periodEnd
      ((List.range 40).foldl (fun (s : State) a => (((s.reload a 0).reload a 1).reload a 2).reload a 3) s) := rfl
  have hspec := s.reloadAll_spec
  dsimp only at hspec
  generalize (List.range 40).foldl (fun (s : State) a => (((s.reload a 0).reload a 1).reload a 2).reload a 3) s = t at hperiod hspec
  obtain ⟨hall, hkept, hframe⟩ := hspec
  refine ⟨t, hperiod.trans (State.periodEnd_of_idle ?_ ?_), hall, hkept, hframe⟩
  · rw [hframe]
    exact hgeo
  · rw [hframe]
    exact hports

end

end Sys2Proof.Machine

namespace Sys2Proof.Claims
open Sys2Proof Sys2Proof.Machine

theorem streamsAndBudgets : StreamsAndBudgets := by
  intro s e
  have he : e.val < 65536 := by omega
  refine ⟨fun hw htwin hlt => ?enable, fun hw hbad => ?refuse, fun hw => ?disable, fun n fr r hlive hfr hnew hrun => ?checkpoint,
    fun hlive hgeo hports => ?period⟩
  case enable =>
    have hstep : s.dlEnable e true = s.wr .SCH_DL_CFG_EN 1 e := by
      refine (if_pos rfl).trans (if_neg ?_)
      simp [htwin]
      omega
    exact ⟨s.wr .SCH_DL_CFG_EN 1 e, congrArg Host.Outcome.next ((if_pos hw).trans hstep), State.rd_wr_same ..,
      onlyRegs_wr s _ _ he (by decide)⟩
  case refuse =>
    refine congrArg Host.Outcome.next ((if_pos hw).trans ((if_pos rfl).trans (if_pos ?_)))
    simpa using hbad
  case disable =>
    let t := ((s.wr .SCH_DL_CFG_EN 0 e).wr .SCH_DL_STATE_FALLBACK 0 e).wr .SCH_DL_STATE_ONTIME 0 e
    let u : State := { t with sched := { t.sched with frames := t.sched.frames.filter (fun f => f.entry ≠ e.val) } }
    have hstep : s.dlEnable e false = u := by
      unfold State.dlEnable
      rw [if_neg (by decide)]
    have hrd (f : Field) (i j : Nat) : u.rd f i j = t.rd f i j := State.rd_mk ..
    refine ⟨u, congrArg Host.Outcome.next ((if_pos hw).trans hstep), ?_, ?_, ?_, rfl, ?_, rfl⟩
    · rw [hrd, State.rd_wr_field _ he (by decide) he (by decide) (by decide),
        State.rd_wr_field _ he (by decide) he (by decide) (by decide), State.rd_wr_same]
      rfl
    · rw [hrd, State.rd_wr_field _ he (by decide) he (by decide) (by decide), State.rd_wr_same]
      rfl
    · rw [hrd, State.rd_wr_same]
      rfl
    · refine RegsKept.of_regs (t := t) rfl ?_
      refine (regsKept_wr (by simp) he (by decide)).mpr ((regsKept_wr (by simp) he (by decide)).mpr ?_)
      exact (regsKept_wr (by simp) he (by decide)).mpr (RegsKept.refl _ _)
  case checkpoint =>
    intro marked
    let t : State := { s with sched := { s.sched with frames := marked } }
    have hentry : fr.entry = e.val := by
      have := (List.mem_filter.mp (List.mem_of_getElem? hfr)).2
      simpa using this
    have htiles : t.frameTiles r = s.frameTiles r := s.frameTiles_withFrames marked r
    have hstep : s.dlCheckpoint e n =
        if (s.frameTiles r).1 * 256 < s.rd .SCH_DL_CFG_THRESH e * (s.frameTiles r).2 then t.frameBehind fr else t := by
      rw [← htiles]
      unfold State.dlCheckpoint
      rw [hfr]
      dsimp only
      rw [hnew, if_neg (by decide)]
      split
      next hno => exact absurd (hno.symm.trans hrun) (by simp)
      next r' hr' =>
        cases hr'.symm.trans hrun
        rfl
    have hexec : exec (.dlCheckpoint e n) s = .next (s.dlCheckpoint e n) := congrArg Host.Outcome.next (if_pos hlive)
    refine ⟨fun hle => ?_, fun hlt habort => ?_⟩
    · rw [hexec, hstep, if_neg (Nat.not_lt.mpr hle)]
    · rw [hstep, if_pos hlt] at hexec
      have hbehind : t.frameBehind fr = ((t.wr .SCH_DL_STATE_FALLBACK 1 e).wr .SCH_DL_STATE_ONTIME 0 e).count
          .SCH_DL_STATE_BEHIND 1 e := by
        have habort' : ¬ t.rd .SCH_DL_CFG_ABORT fr.entry = 1 := hentry ▸ habort
        unfold State.frameBehind
        dsimp only
        rw [if_neg habort', hentry]
      refine ⟨_, hexec, ?_⟩
      rw [hbehind]
      refine ⟨?_, ?_, ?_, ?_, rfl⟩
      · refine (State.rd_wr_field _ he (by decide) he (by decide) (by decide)).trans ?_
        exact (State.rd_wr_field _ he (by decide) he (by decide) (by decide)).trans (State.rd_wr_same ..)
      · exact (State.rd_wr_field _ he (by decide) he (by decide) (by decide)).trans (State.rd_wr_same ..)
      · rw [State.rd_count_same, State.rd_wr_field _ he (by decide) he (by decide) (by decide),
          State.rd_wr_field _ he (by decide) he (by decide) (by decide)]
        rfl
      · refine (regsKept_wr (by simp) he (by decide)).mpr ((regsKept_wr (by simp) he (by decide)).mpr ?_)
        exact (regsKept_wr (by simp) he (by decide)).mpr (regsKept_of_regs rfl _)
  case period =>
    obtain ⟨t, hperiod, hall, hkept, hframe⟩ := State.stuffPeriod_of_idle hgeo hports
    refine ⟨{ t with sched := { t.sched with taken := [] } }, congrArg Host.Outcome.next ((if_pos hlive).trans hperiod),
      fun a ha r hr => hall a ha r hr, fun f i j hf hi hj => hkept f i j hf hi hj, ?_⟩
    rw [hframe]

/-- Settles O45: the pool's grants and slices, the deadline streams, and the reload of the budgets. -/
theorem schedulingSharesTheVats : Obligations.SchedulingSharesTheVats := ⟨pooledVatsAreSharedOut, streamsAndBudgets⟩

end Sys2Proof.Claims
end

