-- ==== Sys2Proof/Proofs/Images.lean ====
section
/-!
PROOF. Firmware images that load (R468 to R470, R475): under a key whose exponent is 1 the signature is the PSS encoding of the
digest itself, so an image that passes every check can be written down without a secret one.
-/

namespace Sys2Proof.Machine

/-! ### Bytes -/

theorem slice_append_left {a b : List Byte} {off n : Nat} (h : off + n ≤ a.length) : slice (a ++ b) off n = slice a off n := by
  have hdrop : ((a ++ b).drop off).take n = (a.drop off).take n := by
    rw [List.drop_append_of_le_length (by omega), List.take_append_of_le_length (by rw [List.length_drop]; omega)]
  unfold slice
  rw [hdrop]

theorem slice_append_right {a b : List Byte} {m : Nat} (h : a.length = m) (off n : Nat) :
    slice (a ++ b) (m + off) n = slice b off n := by
  unfold slice
  rw [← h, ← List.drop_drop, List.drop_left]

theorem slice_self {a : List Byte} {n : Nat} (h : a.length = n) : slice a 0 n = a := by
  unfold slice
  simp [← h]

theorem toBe_ofBe {bs : List Byte} {n : Nat} (h : bs.length = n) : toBe n (ofBe bs) = bs := by
  unfold toBe ofBe
  rw [← h, ← List.length_reverse, toLe_ofLe, List.reverse_reverse]

theorem length_toBe (n x : Nat) : (toBe n x).length = n := by
  unfold toBe
  rw [List.length_reverse, length_toLe]

theorem length_xorBytes (a b : List Byte) : (xorBytes a b).length = min a.length b.length := by
  unfold xorBytes
  rw [List.length_map, List.length_zip]

theorem xorBytes_cons (x y : Byte) (a b : List Byte) : xorBytes (x :: a) (y :: b) = (x ^^^ y) :: xorBytes a b := rfl

/-- The exclusive-or with one list twice gives the bytes back. -/
theorem xorBytes_xorBytes (a b : List Byte) (h : a.length = b.length) : xorBytes (xorBytes a b) b = a := by
  induction a generalizing b with
  | nil => rfl
  | cons x a ih =>
    cases b with
    | nil => exact absurd h (by simp)
    | cons y b => rw [xorBytes_cons, xorBytes_cons, ih b (by simpa using h), BitVec.xor_assoc, BitVec.xor_self, BitVec.xor_zero]

/-! ### Hashes and tags -/

theorem length_shaBlocks (n : Nat) (bs : List Byte) (h : List Dword) (hlen : h.length = 8) :
    (shaBlocks n bs h).length = 8 := by
  induction n generalizing bs h with
  | zero => exact hlen
  | succ n ih =>
    unfold shaBlocks
    exact ih _ _ rfl

theorem length_sha512 (bs : List Byte) : (sha512 bs).length = 64 := by
  have hwords (l : List Dword) : (l.flatMap (fun w => toBe 8 w.toNat)).length = 8 * l.length := by
    induction l with
    | nil => rfl
    | cons w l ih => rw [List.flatMap_cons, List.length_append, ih, length_toBe, List.length_cons]; omega
  unfold sha512
  rw [hwords, length_shaBlocks _ _ _ rfl]

theorem length_mgf1 (seed : List Byte) (n : Nat) : (mgf1 seed n).length = n := by
  have hblocks (l : List Nat) : (l.flatMap (fun i => sha512 (seed ++ toBe 4 i))).length = 64 * l.length := by
    induction l with
    | nil => rfl
    | cons i l ih => rw [List.flatMap_cons, List.length_append, ih, length_sha512, List.length_cons]; omega
  unfold mgf1
  rw [List.length_take, hblocks, List.length_range]
  omega

theorem length_gcmTag (key iv aad ct : List Byte) (h : (aesBlock (aesKeys key) (iv ++ toBe 4 1)).length = 16) :
    (gcmTag key iv aad ct).length = 16 := by
  unfold gcmTag
  rw [length_xorBytes, length_toBe, h]
  rfl

/-! ### PSS under the exponent 1 -/

/-- The data block of EMSA-PSS with a salt of zeros: its first byte is 0, and these follow. -/
def pssData : List Byte := List.replicate 381 0 ++ 1 :: List.replicate 64 0

/-- The hash of EMSA-PSS with a salt of zeros. -/
def pssHash (digest : List Byte) : List Byte := sha512 (List.replicate 8 0 ++ digest ++ List.replicate 64 0)

/-- The masked data block: the mask's first byte without its top bit, then the exclusive-or with the data. -/
def pssMasked (mask : List Byte) : List Byte := (mask.headD 0 &&& 0x7F) :: xorBytes pssData (mask.drop 1)

/-- EMSA-PSS-ENCODE for 4,095 bits, SHA-512 and a salt of zeros. -/
def pssEncode (digest : List Byte) : List Byte := pssMasked (mgf1 (pssHash digest) 447) ++ (pssHash digest ++ [0xBC])

theorem length_pssMasked {mask : List Byte} (h : mask.length = 447) : (pssMasked mask).length = 447 := by
  have hdata : pssData.length = 446 := by decide +kernel
  unfold pssMasked
  rw [List.length_cons, length_xorBytes, hdata, List.length_drop, h]
  rfl

theorem length_pssEncode (digest : List Byte) : (pssEncode digest).length = 512 := by
  unfold pssEncode
  rw [List.length_append, length_pssMasked (length_mgf1 ..), List.length_append, pssHash, length_sha512]
  rfl

/-- Unmasking gives the data block back. -/
theorem xorBytes_pssMasked {mask : List Byte} (h : mask.length = 447) :
    xorBytes (pssMasked mask) mask = ((mask.headD 0 &&& 0x7F) ^^^ mask.headD 0) :: pssData := by
  have hdata : pssData.length = 446 := by decide +kernel
  cases mask with
  | nil => exact absurd h (by simp)
  | cons b mask =>
    have hlen : pssData.length = mask.length := by
      simp only [List.length_cons] at h
      omega
    exact congrArg _ (xorBytes_xorBytes _ _ hlen)

theorem pssOk_pssEncode (digest : List Byte) : pssOk (pssEncode digest) digest = true := by
  have hmask : (mgf1 (pssHash digest) 447).length = 447 := length_mgf1 ..
  have hmasked := length_pssMasked hmask
  have hhash : (pssHash digest).length = 64 := length_sha512 _
  have htake : (pssEncode digest).take 447 = pssMasked (mgf1 (pssHash digest) 447) := by
    unfold pssEncode
    exact List.take_left' hmasked
  have hslice : slice (pssEncode digest) 447 64 = pssHash digest :=
    (slice_append_right hmasked 0 64).trans ((slice_append_left hhash.ge).trans (slice_self hhash))
  have hlast : (pssEncode digest).getD 511 0 = 0xBC := by
    have hfront : (pssMasked (mgf1 (pssHash digest) 447) ++ pssHash digest).length = 511 := by
      rw [List.length_append, hmasked, hhash]
    unfold pssEncode
    rw [← List.append_assoc, List.getD_append_right _ _ _ _ hfront.le, hfront]
    rfl
  have htop (b : Byte) : ((b &&& 0x7F) ^^^ b) &&& 0x7F = 0 := by revert b; decide
  have hsmall (b : Byte) : (b &&& 0x7F).toNat < 128 := by revert b; decide
  have hzeros : ((0 : Byte) :: pssData).take 382 = List.replicate 382 0 := by decide +kernel
  have hone : ((0 : Byte) :: pssData).getD 382 0 = 1 := by decide +kernel
  have hsalt : slice ((0 : Byte) :: pssData) 383 64 = List.replicate 64 0 := by decide +kernel
  unfold pssOk
  simp only [htake, hslice, hlast, length_pssEncode, xorBytes_pssMasked hmask, List.headD_cons, List.drop_one, List.tail_cons, htop,
    hzeros, hone, hsalt]
  simp only [Bool.and_eq_true, decide_eq_true_eq]
  exact ⟨⟨⟨⟨⟨trivial, trivial⟩, hsmall _⟩, trivial⟩, trivial⟩, rfl⟩

theorem ofBe_lt (bs : List Byte) : ofBe bs < 256 ^ bs.length := by
  unfold ofBe
  rw [← List.length_reverse]
  exact ofLe_lt _

/-- With the exponent 1 a power is the number itself. -/
theorem powMod_one {n b fuel : Nat} (h : b < n) (hn : 1 < n) : powMod n (fuel + 2) b 1 = b := by
  have hone : powMod n (fuel + 1) (b * b % n) (1 / 2) = 1 := Nat.mod_eq_of_lt hn
  unfold powMod
  simp only [hone]
  exact (congrArg (· % n) (Nat.mul_one b)).trans (Nat.mod_eq_of_lt h)

/-- A signature that is the encoding of the digest verifies under the largest modulus and the exponent 1. -/
theorem rsaVerify_pssEncode (digest : List Byte) :
    rsaVerify (List.replicate 512 0xFF) [0, 0, 0, 1] (pssEncode digest) digest = true := by
  have hmod : ofBe (List.replicate 512 0xFF) = 256 ^ 512 - 1 := by decide +kernel
  have hexp : ofBe [0, 0, 0, 1] = 1 := rfl
  have hend : ofBe (pssEncode digest) % 256 = 0xBC := by
    unfold pssEncode ofBe
    rw [← List.append_assoc, List.reverse_append]
    exact (Nat.add_mul_mod_self_left ..).trans rfl
  have hlt : ofBe (pssEncode digest) < 256 ^ 512 := by
    have := ofBe_lt (pssEncode digest)
    rwa [length_pssEncode] at this
  have hpow : (256 : Nat) ^ 512 = 256 * 256 ^ 511 := by rw [← Nat.pow_succ']
  have hbelow : ofBe (pssEncode digest) < 256 ^ 512 - 1 := by
    rw [hpow] at hlt ⊢
    omega
  unfold rsaVerify
  simp only [hmod, hexp]
  rw [powMod_one hbelow (by decide +kernel), toBe_ofBe (length_pssEncode digest), pssOk_pssEncode, Bool.and_true, Bool.and_eq_true,
    decide_eq_true_eq, decide_eq_true_eq]
  exact ⟨by decide +kernel, hbelow⟩

end Sys2Proof.Machine
end

