-- ==== Sys2Proof/Proofs/Starts.lean ====
section
/-!
PROOF. A start of the management controller (R474, R475): a statement that a state with a route register out of range refutes,
where the report of a worn peak falls on the boot status.
-/

namespace Sys2Proof.Machine

/-! ### An image that loads -/

/-- The modulus and the exponent of the forged key. -/
def forgedModulus : List Byte := List.replicate 512 0xFF
def forgedExponent : List Byte := [0, 0, 0, 1]

/-- A header for 2,232 bytes of image with the six components, one byte each. -/
def forgedHeader : List Byte :=
  toLe 4 0x494D5254 ++ [0, 1, 0, 0] ++ toLe 4 2232 ++ toLe 4 0 ++ toLe 8 0 ++ toLe 4 1 ++ toLe 4 0 ++ [6] ++ List.replicate 31 0 ++
    (List.range 6).flatMap (fun i => toLe 4 i ++ toLe 4 (16 * i) ++ toLe 4 1 ++ List.replicate 20 0) ++ List.replicate 320 0

/-- The header, a text of zeros and its tag under a product key of zeros. -/
def forgedBody : List Byte :=
  forgedHeader ++ (List.replicate 600 0 ++ gcmTag (List.replicate 32 0) (List.replicate 12 0) forgedHeader (List.replicate 600 0))

/-- The watermark before its signature. -/
def forgedMark : List Byte := toLe 2 0x7FFF ++ toLe 2 1040 ++ toLe 4 0 ++ forgedModulus ++ forgedExponent ++ List.replicate 4 0

/-- An image that every check accepts. -/
def forgedImage : List Byte := forgedBody ++ (forgedMark ++ pssEncode (sha512 (forgedBody ++ forgedMark)))

/-- The hash of the forged key. -/
def forgedKey : Nat := ofBe (sha512 (forgedModulus ++ forgedExponent))

/-- Fuses with the forged key in slot 0, and a worn peak. -/
def forgedFuses : Fuses := { imgKeys := [forgedKey, 0, 0, 0], peakWorn := true }

theorem length_forgedHeader : forgedHeader.length = 576 := by decide +kernel

theorem length_forgedTag :
    (gcmTag (List.replicate 32 0) (List.replicate 12 0) forgedHeader (List.replicate 600 0)).length = 16 :=
  length_gcmTag _ _ _ _ (by decide +kernel)

theorem length_forgedBody : forgedBody.length = 1192 := by
  unfold forgedBody
  rw [List.length_append, List.length_append, length_forgedTag, length_forgedHeader, List.length_replicate]

theorem length_forgedMark : forgedMark.length = 528 := by decide +kernel

theorem length_forgedImage : forgedImage.length = 2232 := by
  unfold forgedImage
  rw [List.length_append, List.length_append, length_forgedBody, length_forgedMark, length_pssEncode]

theorem imageHeaderCause_forged : imageHeaderCause 0 forgedImage 0x1800000 = cOk := by decide +kernel

theorem leAt_forgedImage_len : leAt forgedImage 8 4 = 2232 := by decide +kernel

/-- What follows the body in the image, from an offset in it. -/
theorem slice_forgedImage_mark (off n : Nat) : slice forgedImage (1192 + off) n =
    slice (forgedMark ++ pssEncode (sha512 (forgedBody ++ forgedMark))) off n := slice_append_right length_forgedBody off n

/-- Bytes whose number is 0 are all 0. -/
theorem eq_zero_of_ofLe {bs : List Byte} (h : ofLe bs = 0) : ∀ b ∈ bs, b = 0 := by
  induction bs with
  | nil => exact fun _ hb => absurd hb (by simp)
  | cons b bs ih =>
    have hsum : b.toNat + 256 * ofLe bs = 0 := h
    intro x hx
    obtain rfl | hx := List.mem_cons.mp hx
    · exact BitVec.eq_of_toNat_eq (Nat.eq_zero_of_add_eq_zero_right hsum)
    · exact ih (by omega) x hx

/-- The fuse of the forged key is burnt: the key's hash is not 0, as its first byte is not. -/
theorem forgedKey_ne_zero : forgedKey ≠ 0 := by
  unfold forgedKey
  intro h
  have hlen : 0 < (sha512 (forgedModulus ++ forgedExponent)).length := by rw [length_sha512]; omega
  have hfirst : (sha512 (forgedModulus ++ forgedExponent)).getD 0 0 ≠ 0 := by decide +kernel
  rw [List.getD_eq_getElem _ _ hlen] at hfirst
  exact hfirst (eq_zero_of_ofLe h _ (List.mem_reverse.mpr (List.getElem_mem hlen)))

theorem imageMarkCause_forged : imageMarkCause forgedFuses forgedImage = cOk := by
  have htype : leAt forgedImage 1192 2 = 0x7FFF := (congrArg ofLe (slice_forgedImage_mark 0 2)).trans (by decide +kernel)
  have hsize : leAt forgedImage (1192 + 2) 2 = 1040 := (congrArg ofLe (slice_forgedImage_mark 2 2)).trans (by decide +kernel)
  have hkey : leAt forgedImage (1192 + 4) 4 = 0 := (congrArg ofLe (slice_forgedImage_mark 4 4)).trans (by decide +kernel)
  have hmodulus : slice forgedImage (1192 + 8) 512 = forgedModulus := (slice_forgedImage_mark 8 512).trans (by decide +kernel)
  have hexponent : slice forgedImage (1192 + 520) 4 = forgedExponent := (slice_forgedImage_mark 520 4).trans (by decide +kernel)
  have hsignature : slice forgedImage (1192 + 528) 512 = pssEncode (sha512 (forgedBody ++ forgedMark)) :=
    (slice_forgedImage_mark 528 512).trans
      ((slice_append_right length_forgedMark 0 512).trans (slice_self (length_pssEncode _)))
  have hsigned : forgedImage.take (1192 + 528) = forgedBody ++ forgedMark := by
    unfold forgedImage
    rw [← List.append_assoc]
    exact List.take_left' (by rw [List.length_append, length_forgedBody, length_forgedMark])
  have hfuse : forgedFuses.imgKeys.getD 0 0 = forgedKey := by
    unfold forgedFuses
    exact List.getD_cons_zero
  have hhash : ofBe (sha512 (forgedModulus ++ forgedExponent)) = forgedKey := forgedKey.eq_def.symm
  have hrevoked : bitAt forgedFuses.imgRevoke 0 = false := rfl
  have hverify : rsaVerify forgedModulus forgedExponent (pssEncode (sha512 (forgedBody ++ forgedMark)))
      (sha512 (forgedBody ++ forgedMark)) = true := rsaVerify_pssEncode _
  unfold imageMarkCause
  simp only [leAt_forgedImage_len, Nat.reduceSub, htype, hsize, hkey, hmodulus, hexponent, hsignature, hsigned, hfuse, hhash,
    hrevoked, hverify]
  simp [forgedKey_ne_zero]

theorem imageTagOk_forged : imageTagOk forgedFuses forgedImage = true := by
  have hheader : forgedImage.take 576 = forgedHeader := by
    unfold forgedImage forgedBody
    rw [List.append_assoc]
    exact List.take_left' length_forgedHeader
  have htext : slice forgedImage 576 600 = List.replicate 600 0 := by decide +kernel
  have htag : slice forgedImage (576 + 600) 16 =
      gcmTag (List.replicate 32 0) (List.replicate 12 0) forgedHeader (List.replicate 600 0) := by
    unfold forgedImage forgedBody
    rw [← List.append_assoc forgedHeader]
    have hfront : (forgedHeader ++ List.replicate 600 (0 : Byte)).length = 576 + 600 := by
      rw [List.length_append, length_forgedHeader, List.length_replicate]
    rw [List.append_assoc]
    exact (slice_append_right hfront 0 16).trans
      ((slice_append_left length_forgedTag.ge).trans (slice_self length_forgedTag))
  have hiv : slice forgedImage 40 12 = List.replicate 12 0 := by decide +kernel
  have hproduct : toBe 32 forgedFuses.productKey.toNat = List.replicate 32 0 := by decide +kernel
  unfold imageTagOk
  simp only [leAt_forgedImage_len, Nat.reduceSub, hheader, htext, htag, hiv, hproduct, decide_true]

theorem checkImage_forged : checkImage forgedFuses forgedImage 0x1800000 0 = .ok (imageOf forgedFuses forgedImage 0) := by
  have hheader : imageHeaderCause forgedFuses.svn forgedImage 0x1800000 = cOk := imageHeaderCause_forged
  unfold checkImage
  simp only [hheader, imageMarkCause_forged, imageTagOk_forged]
  simp

/-! ### A flash that holds it -/

/-- The boot flash with the forged image in slot A. -/
def forgedFlash : Mem := memWrite 0xFF [] 0 forgedImage

theorem length_memRead (d : Byte) (m : Mem) (a n : Nat) : (memRead d m a n).length = n := by
  unfold memRead storeGetMany
  rw [List.length_map, List.length_range]

/-- A run of bytes reads back as it was written. -/
theorem memRead_memWrite (d : Byte) (m : Mem) (a : Nat) (bs : List Byte) {n : Nat} (h : n ≤ bs.length) :
    memRead d (memWrite d m a bs) a n = bs.take n := by
  refine List.ext_getElem (by rw [length_memRead, List.length_take, Nat.min_eq_left h]) fun k hk _ => ?_
  rw [length_memRead] at hk
  have hread : (memRead d (memWrite d m a bs) a n)[k] = memByte d (memWrite d m a bs) (a + k) := by
    simp only [memRead, storeGetMany, List.getElem_map, List.getElem_range, memByte]
  rw [hread, memByte_write, if_pos ⟨by omega, by omega⟩, Nat.add_sub_cancel_left, List.getElem_take, List.getD_eq_getElem]

/-- Past what was written an empty memory reads its default. -/
theorem memRead_memWrite_past (d : Byte) (bs : List Byte) {a : Nat} (h : bs.length ≤ a) (n : Nat) :
    memRead d (memWrite d [] 0 bs) a n = List.replicate n d := by
  refine List.eq_replicate_iff.mpr ⟨length_memRead .., fun b hb => ?_⟩
  obtain ⟨k, -, hk⟩ := List.mem_map.mp hb
  have hbyte : memByte d (memWrite d [] 0 bs) (a + k) = d := by
    rw [memByte_write, if_neg (by omega)]
    rfl
  exact hk.symm.trans hbyte

variable {s : State}

theorem State.loadSlot_forged (hfuses : s.mgc.fuses = forgedFuses) (hflash : s.mgc.flash = forgedFlash) :
    s.loadSlot 0 = .ok (imageOf forgedFuses forgedImage 0) := by
  have hread (n : Nat) (hn : n ≤ 2232) : s.flashBytes (slotBase 0 + 0) n = forgedImage.take n := by
    unfold State.flashBytes
    rw [hflash, forgedFlash]
    exact memRead_memWrite _ _ _ _ (hn.trans length_forgedImage.ge)
  have hlen : leAt (forgedImage.take 576) 8 4 = 2232 := by decide +kernel
  have htake : forgedImage.take 2232 = forgedImage := List.take_of_length_le length_forgedImage.le
  have himage : imageRead (fun o n => s.flashBytes (slotBase 0 + o) n) = forgedImage := by
    unfold imageRead
    simp only [hread 576 (by omega), hlen, hread 2232 le_rfl, htake]
    rfl
  unfold State.loadSlot
  rw [himage, hfuses]
  exact checkImage_forged

/-- Without a furnish in the flash both copies fail, and the null furnish is in force. -/
theorem State.loadStore_of_erased (hflash : s.mgc.flash = forgedFlash) :
    s.loadStore = s.nullFurnish (furnErr 1 0) (furnErr 1 0) := by
  have hread (c : Nat) : s.flashBytes (furnBaseAddr c) 64 = List.replicate 64 0xFF := by
    unfold State.flashBytes
    rw [hflash, forgedFlash]
    exact memRead_memWrite_past _ _ (by rw [length_forgedImage]; unfold furnBaseAddr; omega) 64
  have hcopy (c : Nat) : s.furnCopy c = List.replicate 64 0xFF := by
    have hlen : furnLength (List.replicate 64 0xFF) = 0xFFFFFFFF := by decide +kernel
    unfold State.furnCopy
    simp only [hread, hlen]
    rfl
  have herr (g : Nat) : s.readFurnish (List.replicate 64 0xFF) 524288 g = .error (furnErr 1 0) := by
    have hheader : furnHeaderErr (List.replicate 64 0xFF) 524288 false = some (furnErr 1 0) := by decide +kernel
    unfold State.readFurnish
    rw [hheader]
  unfold State.loadStore
  simp only [hcopy, herr]

/-! ### A start with a stray route -/

/-- The target for which EVQ_PEND of the event queues is the element of MGC_BOOT_STATUS_STAGE. -/
def strayRoute : Nat := (Field.MGC_BOOT_STATUS_STAGE.ctorIdx - Field.EVQ_PEND_PEND.ctorIdx) * 65536

/-- A chip before its first start, with the forged image in slot A, a worn peak, and POWER records routed to the stray target. -/
def strayStart : State :=
  { State.reset with
    regs := [(Field.EVQ_ROUTE_POWER.key 0 0, strayRoute)]
    mgc := { flash := forgedFlash, fuses := forgedFuses } }

theorem strayStart_flash : strayStart.mgc.flash = forgedFlash := by simp only [strayStart]

theorem strayStart_fuses : strayStart.mgc.fuses = forgedFuses := by simp only [strayStart]

/-- The state of a start before its first attempt. -/
def State.started (s : State) : State :=
  let s1 : State := { s with mgc := { s.mgc with starts := s.mgc.starts + 1 } }
  (s1.wr .MGC_BOOT_STATUS_STARTS (min 255 s1.mgc.starts)).wr .MGC_BOOT_STATUS_SVC_MODE (b2n s1.pins.straps.svcMode)

/-- The state with the attempt of a slot logged. -/
def State.attempted (s : State) (slot : Nat) : State :=
  (s.appendLog (logEv 1 slot)).wr .MGC_BOOT_STATUS_TRIES (s.rd .MGC_BOOT_STATUS_TRIES + 1)

theorem State.flash_started (s : State) : s.started.mgc.flash = s.mgc.flash := rfl

theorem State.fuses_started (s : State) : s.started.mgc.fuses = s.mgc.fuses := rfl

/-- With an empty log a start tries slot A alone. -/
theorem State.bootStart_of_empty (hbooted : s.mgc.booted = false) (hlive : s.live = true)
    (hsvc : s.pins.straps.svcMode = false) (hlog : s.mgc.log = []) (dramOk : Bool) :
    s.bootStart dramOk = s.started.tryStarts (s.mgc.starts = 0) dramOk [0] := by
  have hstarted : s.started.mgc.log = [] := hlog
  have hlost : s.started.logLost = s.started := by
    unfold State.logLost
    rw [hstarted]
    rfl
  have hpre : s.started.preStart = s.started := by
    unfold State.preStart
    simp [hstarted, slotState, trialSlot]
  have hmode : s.started.pins.straps.svcMode = false := hsvc
  unfold State.bootStart
  rw [hbooted, hlive]
  refine (if_neg (by decide)).trans ?_
  change (if s.started.logLost.pins.straps.svcMode then s.started.logLost.recovery else
    s.started.logLost.preStart.tryStarts (s.mgc.starts = 0) dramOk (Machine.candidates s.started.logLost.preStart.mgc.log)) = _
  have hslots : Machine.candidates [] = [0] := rfl
  rw [hlost, hmode, hpre, hstarted, hslots]
  exact if_neg (by decide)

theorem State.tryStarts_of_ok {slot : Nat} {i : Image} (h : (s.attempted slot).loadSlot slot = .ok i) (cold dramOk : Bool)
    (rest : List Nat) : s.tryStarts cold dramOk (slot :: rest) = (s.attempted slot).runImage i cold dramOk := by
  obtain ⟨load, hload⟩ : ∃ f, @State.loadSlot = f := ⟨_, rfl⟩
  obtain ⟨run, hrun⟩ : ∃ f, @State.runImage = f := ⟨_, rfl⟩
  delta State.tryStarts State.tryStarts._f
  rw [hload] at h ⊢
  rw [hrun]
  change (match load (s.attempted slot) slot with | .ok i => run (s.attempted slot) i cold dramOk | .error c => _) = _
  rw [h]

theorem State.attempted_mgc (slot : Nat) : ∃ log, (s.attempted slot).mgc = { s.mgc with log := log } := by
  obtain ⟨seq, rest, free, h⟩ := s.appendLog_eq (logEv 1 slot)
  unfold State.attempted
  rw [h]
  exact ⟨_, rfl⟩

theorem State.flash_attempted (slot : Nat) : (s.attempted slot).mgc.flash = s.mgc.flash := by
  obtain ⟨log, h⟩ := s.attempted_mgc slot
  rw [h]

theorem State.fuses_attempted (slot : Nat) : (s.attempted slot).mgc.fuses = s.mgc.fuses := by
  obtain ⟨log, h⟩ := s.attempted_mgc slot
  rw [h]

theorem State.flash_appendLog (r : LogRec) : (s.appendLog r).mgc.flash = s.mgc.flash := by
  obtain ⟨seq, rest, free, h⟩ := s.appendLog_eq r
  rw [h]

theorem State.flash_readSettings (s : State) : s.readSettings.mgc.flash = s.mgc.flash := by
  unfold State.readSettings
  extract_lets s1
  have hlost : s1.mgc.flash = s.mgc.flash := by
    unfold s1
    split
    · exact State.flash_appendLog ..
    · rfl
  clear_value s1
  split
  split
  · split
    · exact (State.flash_appendLog ..).trans hlost
    · exact hlost
  · exact hlost

theorem State.mgc_insertSaveall (s : State) : s.insertSaveall.mgc = s.mgc := by
  unfold State.insertSaveall
  generalize s.settingsSaveall = l
  induction l generalizing s with
  | nil => rfl
  | cons e l ih => exact (ih _).trans rfl

/-- The state of a chip that has read its settings for an image. -/
def State.runSet (s : State) (i : Image) (dramOk : Bool) : State :=
  let s1 : State := { s with mgc := { s.mgc with image := some i, booted := true, svcState := 0 } }
  ((s1.wr .MEM_DRAM_SIZE_BYTES (if dramOk then s1.pins.dram - 27648 else 0)).readSettings).wr .MEM_SELFTEST_DONE 1

/-- What an image does before it loads the furnish. -/
def State.runBegun (s : State) (i : Image) (cold dramOk : Bool) : State :=
  let s3 := s.runSet i dramOk
  let s4 := (if cold then s3.insertSaveall else s3).wr .PWR_WEAR_SECONDS s3.settingsCore.1
  s4.wr .PWR_STATUS_WORN (b2n s4.mgc.fuses.peakWorn)

/-- What it does after that. -/
def State.runEnded (s : State) (i : Image) : State :=
  let s6 := s.appendLog (logEv 2 i.slot 0 (some i))
  let s7 := ((s6.wr .MGC_BOOT_STATUS_STAGE 5).wr .MGC_BOOT_STATUS_SLOT i.slot).wr .MGC_BOOT_STATUS_TRIAL
    (b2n (i.slot < 2 && slotState s6.mgc.log i.slot = 1))
  let s8 := if s7.mgc.fuses.peakWorn then s7.raiseShared .power (stPwr 0x0B 0) 0 0 0 else s7
  (s8.showFw).devResetDone

theorem State.runImage_eq (s : State) (i : Image) (cold dramOk : Bool) :
    s.runImage i cold dramOk = (s.runBegun i cold dramOk).loadStore.runEnded i := by
  obtain ⟨load, hload⟩ : ∃ f, @State.loadStore = f := ⟨_, rfl⟩
  obtain ⟨log, hlog⟩ : ∃ f, @State.appendLog = f := ⟨_, rfl⟩
  obtain ⟨read, hread⟩ : ∃ f, @State.readSettings = f := ⟨_, rfl⟩
  obtain ⟨insert, hinsert⟩ : ∃ f, @State.insertSaveall = f := ⟨_, rfl⟩
  obtain ⟨report, hreport⟩ : ∃ f, @State.raiseShared = f := ⟨_, rfl⟩
  obtain ⟨shown, hshown⟩ : ∃ f, @State.showFw = f := ⟨_, rfl⟩
  obtain ⟨done, hdone⟩ : ∃ f, @State.devResetDone = f := ⟨_, rfl⟩
  unfold State.runImage State.runEnded State.runBegun State.runSet
  rw [hload, hlog, hread, hinsert, hreport, hshown, hdone]

theorem State.flash_runBegun (s : State) (i : Image) (cold dramOk : Bool) : (s.runBegun i cold dramOk).mgc.flash = s.mgc.flash := by
  have hset : (s.runSet i dramOk).mgc.flash = s.mgc.flash := State.flash_readSettings _
  unfold State.runBegun
  generalize s.runSet i dramOk = s3 at hset ⊢
  change (if cold then s3.insertSaveall else s3).mgc.flash = _
  split
  · exact (congrArg Mgc.flash s3.mgc_insertSaveall).trans hset
  · exact hset

/-- The report of the worn peak falls on the boot status. -/
theorem stage_strayStart :
    ((strayStart.started.attempted 0).runImage (imageOf forgedFuses forgedImage 0) true true).rd .MGC_BOOT_STATUS_STAGE ≠ 5 := by
  have hflash : (strayStart.started.attempted 0).mgc.flash = forgedFlash :=
    (State.flash_attempted 0).trans (strayStart.flash_started.trans strayStart_flash)
  rw [State.runImage_eq, State.loadStore_of_erased ((State.flash_runBegun ..).trans hflash)]
  decide +kernel

end Sys2Proof.Machine

namespace Sys2Proof.Claims

open Sys2Proof Sys2Proof.Machine

/-- Refutes O57: a start of a chip whose peak is worn reports it at the target that its route names; the target of the stray
route is the element of BOOT_STATUS, so the image of slot A runs and STAGE is not 5. -/
theorem not_startsAndTheServicePort : ¬ Obligations.StartsAndTheServicePort := by
  intro h
  have hlive : strayStart.live = true := by decide +kernel
  have hload : strayStart.loadSlot 0 = .ok (imageOf forgedFuses forgedImage 0) :=
    State.loadSlot_forged strayStart_fuses strayStart_flash
  have hattempt : (strayStart.started.attempted 0).loadSlot 0 = .ok (imageOf forgedFuses forgedImage 0) :=
    State.loadSlot_forged ((State.fuses_attempted 0).trans (strayStart.fuses_started.trans strayStart_fuses))
      ((State.flash_attempted 0).trans (strayStart.flash_started.trans strayStart_flash))
  have hstart : strayStart.bootStart true =
      (strayStart.started.attempted 0).runImage (imageOf forgedFuses forgedImage 0) true true :=
    (State.bootStart_of_empty rfl hlive rfl rfl true).trans (State.tryStarts_of_ok hattempt true true [])
  obtain ⟨u, hu, -, -, hrun⟩ := ((h.1 strayStart true).2 hlive rfl).2.2 rfl rfl (by decide) (by decide) (by decide)
  obtain ⟨-, hstage, -⟩ := hrun _ hload
  obtain rfl : strayStart.bootStart true = u := Host.Outcome.next.inj hu
  rw [hstart] at hstage
  exact stage_strayStart hstage

end Sys2Proof.Claims
end
